-- ==== Sys2Proof/Word.lean ====
section
/-! DEFINITION. The word types of the JMC-7720. -/

namespace Sys2Proof

abbrev Byte := BitVec 8
abbrev Bytes := List Byte
/-- A register word (R14). -/
abbrev W32 := BitVec 32
abbrev W64 := BitVec 64
abbrev W16 := BitVec 16
/-- A vat parcel and a parcel address (R182, R184). -/
abbrev W14 := BitVec 14

end Sys2Proof
end

