-- ==== Sys2Proof/Syntax.lean ====
section
/-! DEFINITION. The commands of the block: one constructor of `Instr` for each row of the opcode table. Operands name
the instance (mill, lane, thread, ring, slot) and carry what comes from outside the die (frames, host read data, observed
markers, noise bits, measured results). -/

namespace Sys2Proof

/-- A vat thread of the device (R172). -/
structure Tid where
  mill : Fin 4
  cluster : Fin 8
  engine : Fin 8
  thread : Fin 4
deriving DecidableEq, Repr

/-- A ring of a curator engine (R211): rings 0, 1 of PF0, 2, 3 of PF1, 4 to 11 punt rings of PF0. -/
structure Rid where
  eng : Fin 4
  ring : Fin 12
deriving DecidableEq, Repr

/-- What a read of host memory brings back (R210, R214): data, an error, or nothing within the time-out. -/
inductive HostRead where
  | data (bs : Bytes)
  | error
  | timeout
deriving DecidableEq, Repr

/-- A sheet as it stands on the line: overhead cell, 254 payload cells, tag cell (R48, Table 2-1). -/
structure Sheet where
  oh : Bytes
  cells : List Bytes
  tag : Bytes
deriving DecidableEq, Repr, Inhabited

/-- What one LANE delivers of a sheet after FEC (R68, R70): the 58 bits before it and its words, still scrambled. -/
structure LaneRx where
  prior : BitVec 58
  words : List W64
deriving DecidableEq, Repr, Inhabited

/-- A received codeword of RS(544,514): its symbols of 10 bits, the first one on the lane first (R70, R72). -/
abbrev Codeword := List Nat

/-- Two consecutive codewords that a lane's search for the codeword boundary has received at one alignment (R72). -/
structure LockPair where
  lane : Fin 8
  first : Codeword
  second : Codeword
deriving DecidableEq, Repr

/-- Line defects of Table 2-12; the lane is the physical lane of the group. LOCW comes with the codewords that led to it. -/
inductive Defect where
  | locw (lane : Fin 8) (cws : List Codeword) | lol (lane : Fin 8) | skew | loa | auth | keyless | wm | dlgf | verf
  | feRdi | feRaf | feRwm | feRkl | feLane
deriving DecidableEq, Repr

/-- What the SRAM did with a command on a line (R345, R347, R348); by default it delivered the line as it was stored. -/
structure SramRead where
  /-- Bits delivered changed: bit 8k + j is bit j of byte k of the stored data, bit 256 + i is spare bit S[i]. -/
  flips : BitVec 288 := 0
  /-- The channel line address of the line that it delivered in place of the one asked for. -/
  line : Option (BitVec 19) := none
  /-- Address parity errors it flagged for the command: after one the command is reissued. -/
  parity : Fin 3 := 0
deriving DecidableEq, Repr

/-- Felt characters as one lane delivers them (Table 13-6, R386). -/
inductive FeltChar where
  | data (b : Byte) | com | aln | sof | eof | abt | hb | codeError
deriving DecidableEq, Repr

/-- Which stamp queue a W0 read addresses (Table 9-19). -/
inductive StampQ where
  | cap (k : Fin 5) | tsq (m : Fin 4)
deriving DecidableEq, Repr

/-- What is judged at a lane's marker position (R74), after FEC and still scrambled: the 58 bits before it, the 128-bit window there,
and its arrival time in 1/64 ns. -/
structure MarkerObs where
  prior : BitVec 58
  bits : BitVec 128
  arrival : Nat
deriving DecidableEq, Repr

/-- A vote on the backup supply (R432). -/
inductive Vbat where
  | good | low | lost
deriving DecidableEq, Repr

inductive Instr where
  /-- R23 -/ | clientFrameReceive (p : Fin 32) (frame : Bytes) (pcsErr : Bool)
  /-- R257 -/ | macControlReceive (p : Fin 32) (frame : Bytes)
  /-- R257 -/ | pauseExpire (p : Fin 32) (q : Fin 8)
  /-- R258 -/ | pfcRefresh (p : Fin 32) (pri : Fin 8)
  /-- R173 -/ | vatDispatch (m : Fin 4)
  /-- R186 -/ | mov (t : Tid)
  /-- R181 -/ | movSpecial (t : Tid)
  /-- R186 -/ | add (t : Tid)
  /-- R186 -/ | sub (t : Tid)
  /-- R186 -/ | and (t : Tid)
  /-- R186 -/ | or (t : Tid)
  /-- R186 -/ | xor (t : Tid)
  /-- R186 -/ | shl (t : Tid)
  /-- R186 -/ | shr (t : Tid)
  /-- R186 -/ | cmp (t : Tid)
  /-- R185 -/ | ext (t : Tid)
  /-- R185 -/ | ins (t : Tid)
  /-- R187 -/ | br (t : Tid)
  /-- R187 -/ | brp (t : Tid)
  /-- R187 -/ | call (t : Tid)
  /-- R187 -/ | ret (t : Tid)
  /-- R188 -/ | lkp (t : Tid)
  /-- R194 -/ | tcm (t : Tid)
  /-- R151 -/ | att (t : Tid)
  /-- R188 -/ | trib (t : Tid)
  /-- R188 -/ | cls (t : Tid)
  /-- R245 -/ | pol (t : Tid)
  /-- R281 -/ | stmp (t : Tid)
  /-- R197 -/ | enq (t : Tid)
  /-- R188 -/ | drop (t : Tid)
  /-- R229 -/ | punt (t : Tid)
  /-- R191 -/ | hashLookup (t : Tid)
  /-- R194 -/ | tcamSearch (t : Tid)
  /-- R245 -/ | policerDecide (t : Tid)
  /-- R201 -/ | issueLimit (t : Tid)
  /-- R201 -/ | residencyLimit (t : Tid)
  /-- R197 -/ | enqComplete (t : Tid)
  /-- R229 -/ | puntComplete (t : Tid)
  /-- R229 -/ | puntDeliver (m : Fin 4) (q : Fin 8)
  /-- R162 -/ | saCacheAttach (t : Tid)
  /-- R165 -/ | saFetchComplete (m : Fin 4) (sax : Fin 65536)
  /-- R163 -/ | saWritebackDone (m : Fin 4) (sax : Fin 65536)
  /-- R157 -/ | fciTxFrame (m : Fin 4) (sax : Fin 65536)
  /-- R160 -/ | fciRxFrame (m : Fin 4) (sax : Fin 65536)
  /-- R157 -/ | threshFifoRead (m : Fin 4)
  /-- R31 -/ | headboxTransfer (dst : Fin 4)
  /-- R52 -/ | sheetSend (m : Fin 4)
  /-- R50 -/ | reamBegin (m : Fin 4)
  /-- R79 -/ | lostSheetPeriod (m : Fin 4)
  /-- R72 -/ | codewordLock (m : Fin 4) (rx : LockPair)
  /-- R74 -/ | laneMarkerCheck (m : Fin 4) (lane : Fin 8) (o : MarkerObs)
  /-- R134 -/ | sheetReceive (m : Fin 4) (lanes : List LaneRx)
  /-- R140 -/ | trialExhausted (m : Fin 4) (k : Fin 4)
  /-- R84 -/ | defectDeclare (m : Fin 4) (d : Defect)
  /-- R84 -/ | defectClear (m : Fin 4) (d : Defect)
  /-- R90 -/ | dlgHello (m : Fin 4)
  /-- R90 -/ | dlgConfirm (m : Fin 4)
  /-- R90 -/ | dlgVerchk (m : Fin 4)
  /-- R88 -/ | dlgHostMessage (m : Fin 4)
  /-- R86 -/ | dlgReservedType (m : Fin 4)
  /-- R140 -/ | seqUpper (m : Fin 4)
  /-- R139 -/ | seqQuery (m : Fin 4)
  /-- R113 -/ | laneReady (m : Fin 4)
  /-- R113 -/ | laneUnready (m : Fin 4)
  /-- R89 -/ | dlgAck (m : Fin 4)
  /-- R87 -/ | dlgRetryTimeout (m : Fin 4)
  /-- R89 -/ | dlgSend (pf : Fin 2) (m : Fin 4)
  /-- R90 -/ | dlgReneg (m : Fin 4)
  /-- R88 -/ | dlgRxRelease (m : Fin 4)
  /-- R51 -/ | lnfTxEnable (m : Fin 4)
  /-- R52 -/ | lnfTxDisable (m : Fin 4)
  /-- R488 -/ | lnfRxEnable (m : Fin 4)
  /-- R488 -/ | lnfRxDisable (m : Fin 4)
  /-- R81 -/ | lnfWmDisable (m : Fin 4)
  /-- R106 -/ | laneUseWrite (m : Fin 4) (v : Byte)
  /-- R97 -/ | dkwrite (r : Rid)
  /-- R97 -/ | dkwriteTransferDone (m : Fin 4) (d : HostRead)
  /-- R98 -/ | dklValidationDone (m : Fin 4)
  /-- R96 -/ | dklClearDone (m : Fin 4)
  /-- R99 -/ | dkflipEarliest (r : Rid)
  /-- R99 -/ | dkflipAt (r : Rid)
  /-- R100 -/ | dkflipCancel (r : Rid)
  /-- R105 -/ | dkshedShed (r : Rid)
  /-- R110 -/ | dkshedRestore (r : Rid)
  /-- R111 -/ | shedHoldoffExpire (m : Fin 4) (lane : Fin 8)
  /-- R125 -/ | lkarmLoad (r : Rid)
  /-- R123 -/ | lkarmRxon (r : Rid)
  /-- R123 -/ | lkarmRxoff (r : Rid)
  /-- R130 -/ | lkarmArmReam (r : Rid)
  /-- R130 -/ | lkarmArmTime (r : Rid)
  /-- R123 -/ | lkarmCancel (r : Rid)
  /-- R140 -/ | lkarmResync (r : Rid)
  /-- R144 -/ | lkarmHalt (r : Rid)
  /-- R123 -/ | lkretire (r : Rid)
  /-- R156 -/ | sainstInstall (r : Rid)
  /-- R156 -/ | sainstUpdateLpn (r : Rid)
  /-- R156 -/ | sainstSetcur (r : Rid)
  /-- R156; the outcome of the write to host memory -/ | saretRead (r : Rid) (hostErr : Bool)
  /-- R156 -/ | saretRetire (r : Rid)
  /-- R156 -/ | saRetireComplete (m : Fin 4) (sax : Fin 65536) (hostErr : Bool)
  /-- R156 -/ | sapinPin (r : Rid)
  /-- R156 -/ | sapinUnpin (r : Rid)
  /-- R169 -/ | orphanSweepDone
  /-- R303 -/ | kwrapin (r : Rid)
  /-- R304 -/ | kstageWrapped (r : Rid)
  /-- R304 -/ | kstageRng (r : Rid)
  /-- R305 -/ | kcommit (r : Rid)
  /-- R310 -/ | kinval (r : Rid)
  /-- R310 -/ | kinvalPublish
  /-- R311 -/ | slotInvalidationDone (slot : Fin 1088)
  /-- R309 -/ | kderive (r : Rid)
  /-- R319 -/ | attest (r : Rid)
  /-- R308; the operation's place among those in progress, and the outcome of its host write -/ | kstOpComplete (i : Nat) (hostErr : Bool)
  /-- R312 -/ | mtpWriteDone
  /-- R317 -/ | kstStart
  /-- R316; whether each bank programs and verifies -/ | rootGenerate (okA okB : Bool)
  /-- R318 -/ | provGo (pf : Fin 2) (v : W32)
  /-- R323 -/ | lcTargetWrite (pf : Fin 2) (v : W32)
  /-- R323 -/ | lcWindowExpire
  /-- R323 -/ | lcGo (pf : Fin 2) (v : W32)
  /-- R322 -/ | lcFuseProgrammed
  /-- R329; the 1,024 samples of the window -/ | samplerWindowEnd (k : Fin 8) (bits : List Bool)
  /-- R326; the 1,024 raw bits -/ | conditionerBlock (bits : List Bool)
  /-- R336 -/ | rngFail (cause : Fin 5) (smp : Fin 8)
  /-- R330 -/ | drbgInstantiate (i : Fin 16)
  /-- R333 -/ | drbgReseed (i : Fin 16)
  /-- R334 -/ | rngBufferRefill (i : Fin 8)
  /-- R335 -/ | rngRestart (pf : Fin 2)
  /-- R338 -/ | rngTestMode (pf : Fin 2) (mode : Fin 4)
  /-- R334 -/ | rngOutStatusRead (pf : Fin 2) (i : Fin 8)
  /-- R334 -/ | rngOutDataRead (pf : Fin 2) (i : Fin 8)
  /-- R338 -/ | rngRawRead (pf : Fin 2)
  /-- R340 -/ | uciLoad (pf : Fin 2) (v : W32)
  /-- R340 -/ | uciLoadDone
  /-- R341 -/ | uciEnc (pf f : Fin 2)
  /-- R341 -/ | uciDec (pf f : Fin 2)
  /-- R342 -/ | uciNonce (pf f : Fin 2)
  /-- R341 -/ | uciErase (pf f : Fin 2)
  /-- R343; the blocks read, and the block at which a host memory error stops the request -/
    | uciRequestDone (f : Fin 2) (src : Bytes) (errAt : Option Nat)
  /-- R350 -/ | memTrain (pf : Fin 2) (c : Fin 4)
  /-- R350; the step that failed, if one did -/ | memTrainDone (c : Fin 4) (failStep : Option (Fin 4))
  /-- R351 -/ | memTrackFail (c : Fin 4)
  /-- R354 -/ | memRegionLoad (pf : Fin 2) (r : Fin 8) (v : W32)
  /-- R354 -/ | memRegionUnload (pf : Fin 2) (r : Fin 8)
  /-- R354 -/ | memRegionReady (r : Fin 8)
  /-- R364 -/ | memLineRead (c : Fin 4)
  /-- R367 -/ | memReadDone (c : Fin 4) (o : SramRead)
  /-- R358 -/ | memLineWrite (c : Fin 4) (o : SramRead)
  /-- R360; the lines of the page that the SRAM did not simply deliver as stored -/
    | pageRewriteDone (c : Fin 4) (reads : List (Fin 128 × SramRead))
  /-- R363 -/ | memWriteAck (c : Fin 4)
  /-- R365 -/ | memWindowRead (pf : Fin 2)
  /-- R366 -/ | memWindowWrite (pf : Fin 2)
  /-- R369 -/ | scrubRead (c : Fin 4) (o : SramRead)
  /-- R370 -/ | laneModeWrite (n : Fin 68) (mode : Fin 16)
  /-- R375 -/ | txLeaveIdle (n : Fin 68)
  /-- R375 -/ | txEnterIdle (n : Fin 68)
  /-- R376 -/ | trainingBurstEnd (n : Fin 68)
  /-- R380 -/ | sigDetChange (n : Fin 68) (up : Bool)
  /-- R381 -/ | cdrLock (n : Fin 68)
  /-- R379; the figure measured and whether the equalisers have converged -/ | fomWindowEnd (n : Fin 68) (fom : Byte) (converged : Bool)
  /-- R381 -/ | adaptTimeout (n : Fin 68)
  /-- R394 -/ | eyeScanStart (n : Fin 68) (v : W32)
  /-- R394; the disagreements counted -/ | eyeScanDone (n : Fin 68) (count : W32)
  /-- R387 -/ | feltSlotReceive (c0 c1 c2 c3 : FeltChar)
  /-- R389 -/ | feltFifoError
  /-- R397 -/ | mateActInChange (high : Bool)
  /-- R397 -/ | claimTimerExpire
  /-- R397 -/ | releasingExpire
  /-- R396 -/ | actReqWrite (v : Bool)
  /-- R404 -/ | mteEnWrite (v : Bool)
  /-- R412 -/ | mateSwitch
  /-- R411 -/ | mateClrDiverged
  /-- R411 -/ | mateSelftest
  /-- R411 -/ | selftestPassDone (ok : Bool)
  /-- R400 -/ | heartbeatSend
  /-- R400 -/ | peerSilent
  /-- R411 -/ | freshExpire
  /-- R411 -/ | healthSend
  /-- R408 -/ | timeFrameSend
  /-- R409 -/ | oneSidedDefect (m : Fin 4) (bit : Fin 5)
  /-- R404 -/ | reclaimTimerExpire
  /-- R403 -/ | feltHello
  /-- R404 -/ | feltConfirm
  /-- R407 -/ | feltDelta
  /-- R406 -/ | feltSnap
  /-- R404 -/ | feltSnapEnd
  /-- R407 -/ | feltDack
  /-- R409 -/ | feltDigest
  /-- R406 -/ | feltCkpt
  /-- R412 -/ | feltHealth
  /-- R408 -/ | feltTime
  /-- R412 -/ | feltReq
  /-- R404 -/ | feltRelease
  /-- R403 -/ | feltStale
  /-- R417 -/ | vsecFeedLost (b : Bool)
  /-- R417 -/ | vsecFeedGood (b : Bool)
  /-- R422 -/ | tamperFire (src : BitVec 12)
  /-- R419 -/ | tamperSourceCease (n : Fin 12)
  /-- R425 -/ | throttleEnd
  /-- R426 -/ | holdEngage
  /-- R434 -/ | evidenceIncrementDone
  /-- R428 -/ | tamperBist (pf : Fin 2) (v : W32)
  /-- R429; whether the source fired and whether it ceased in time -/ | bistStimulusEnd (fired ceased : Bool)
  /-- R430 -/ | fuseTgtWrite (pf : Fin 2) (v : W32)
  /-- R430 -/ | fuseWindowExpire
  /-- R430 -/ | fuseDisableGo (pf : Fin 2) (v : W32)
  /-- R430 -/ | fuseDisableDone
  /-- R432; the sources read as firing at both samples -/ | backupWake (fires : BitVec 5)
  /-- R483 -/ | powerOnReset (assert : Bool)
  /-- R450 -/ | railDrop
  /-- R443 -/ | resetPin
  /-- R438 -/ | perst
  /-- R438 -/ | swColdReset (pf : Fin 2) (v : W32)
  /-- R438 -/ | swWarmReset (pf : Fin 2) (v : W32)
  /-- R171 -/ | millReset (pf : Fin 2) (m : Fin 4) (hold : Bool) (key : W16)
  /-- R439 -/ | functionLevelReset (f : Fin 2)
  /-- R440 -/ | clockLoss (d : Fin 15)
  /-- R441 -/ | trimLoadDone (ok : Bool)
  /-- R437 -/ | domainRelease
  /-- R477; the image copy read from the flash -/ | bootVerifyDone (image : Bytes)
  /-- R212 -/ | ringDoorbell (pf : Fin 2) (r : Rid) (v : W32)
  /-- R215 -/ | ringEnable (pf : Fin 2) (r : Rid)
  /-- R215 -/ | ringDisable (pf : Fin 2) (r : Rid)
  /-- R228 -/ | abiSelect (pf f : Fin 2) (v : Fin 16)
  /-- R212 -/ | descriptorFetch (r : Rid) (d : HostRead)
  /-- R210 -/ | dmaTimeout (r : Rid)
  /-- R221 -/ | batchStart (r : Rid)
  /-- R208 -/ | curApplyDone (k : Fin 4)
  /-- R213 -/ | completionRecordWrite (r : Rid)
  /-- R213 -/ | cqHeadWrite (pf : Fin 2) (r : Rid) (v : W32)
  /-- R252; the entries read -/ | gcladm (r : Rid) (d : HostRead)
  /-- R254 -/ | gclgo (r : Rid)
  /-- R254 -/ | gateListStart (p : Fin 32)
  /-- R253 -/ | gateEntryChange (p : Fin 32)
  /-- R242 -/ | shpset (r : Rid)
  /-- R247 -/ | polset (r : Rid)
  /-- R249 -/ | qcfgActivate (r : Rid)
  /-- R250 -/ | qcfgDeactivate (r : Rid)
  /-- R249 -/ | qcfgUpdate (r : Rid)
  /-- R38 -/ | qcfgMoveDrain (r : Rid)
  /-- R38 -/ | qcfgMoveFlush (r : Rid)
  /-- R38 -/ | moveQueueEmpty (trib : Fin 16384)
  /-- R251 -/ | egressFrameStart (p : Fin 32)
  /-- R231 -/ | egressFrameEnd (p : Fin 32)
  /-- R269 -/ | tbstepAbs (r : Rid)
  /-- R269 -/ | tbstepRel (r : Rid)
  /-- R274 -/ | tbservoGains (r : Rid)
  /-- R271 -/ | tbservoOffset (r : Rid)
  /-- R274 -/ | tbservoEnable (r : Rid)
  /-- R274 -/ | tbservoDisable (r : Rid)
  /-- R273 -/ | servoInterval (b : Fin 8)
  /-- R267 -/ | tbRunSet (b : Fin 8)
  /-- R130 -/ | tbRunClear (b : Fin 8)
  /-- R268 -/ | tbRead (b : Fin 8)
  /-- R289 -/ | trigset (r : Rid)
  /-- R289 -/ | triggerEdge (k : Fin 8)
  /-- R291 -/ | ppsEdge
  /-- R291; the level after the edge -/ | captureEdge (k : Fin 5) (rising : Bool)
  /-- R287 -/ | stampQueueRead (q : StampQ)
  /-- R286; match table and index of the entry -/ | tcEntryExpire (table : Fin 36) (i : Fin 32)
  /-- R223 -/ | waittTime (r : Rid)
  /-- R223 -/ | waittReam (r : Rid)
  /-- R223 -/ | waittRelease (r : Rid)
  /-- R223 -/ | waittTimeout (r : Rid)
  /-- R225 -/ | fence (r : Rid)
  /-- R225 -/ | fenceDone (r : Rid)
  /-- R227 -/ | epochRead (r : Rid)
  /-- R227 -/ | epochAssert (r : Rid)
  /-- R218 -/ | notify (r : Rid)
  /-- R204 -/ | vatClusterRun (m : Fin 4) (c : Fin 8)
  /-- R204 -/ | vatClusterStop (m : Fin 4) (c : Fin 8)
  /-- R204 -/ | vatClusterIdle (m : Fin 4) (c : Fin 8)
  /-- R193 -/ | htEntryWrite (m : Fin 4) (entry : Fin 131072)
  /-- R193 -/ | htEntryRead (m : Fin 4) (entry : Fin 131072)
  /-- R193 -/ | htOpDone (m : Fin 4)
  /-- R195 -/ | tcamEntryWrite (m : Fin 4) (entry : Fin 2048)
  /-- R195 -/ | tcamEntryRead (m : Fin 4) (entry : Fin 2048)
  /-- R195 -/ | tcamOpDone (m : Fin 4)
  /-- R454 -/ | pmcClear (b : Fin 96)
  /-- R455 -/ | pmcGather
  /-- R456 -/ | gatherDone
  /-- R462 -/ | periodicGather
  /-- R457 -/ | evrArm
  /-- R458 -/ | evrRecordWrite
  /-- R463 -/ | evrSlotRead (last : Bool) (k : Fin 1024)
  /-- R15 -/ | wideRegisterRead (pf : Fin 2) (addr : BitVec 27)
  /-- R465 -/ | msixUnmask (v : Fin 256)
  /-- R478 -/ | i2cWrite (bytes : Bytes)
  /-- R478 -/ | i2cRead (n : Nat)
  /-- R16 -/ | registerWrite (pf : Fin 2) (addr : BitVec 27) (v : W32)
  /-- R432 -/ | vbatChange (v : Vbat)
  /-- R411 -/ | selftestFailure
  /-- R338; the 32 bits -/ | rngRawWord (bits : W32)
  /-- R363; a read (no data) or a write of the masked bytes of the line at a memory address -/
    | debugAccess (line : BitVec 21) (w : Option (Bytes × W32)) (o : SramRead)
deriving DecidableEq, Repr

end Sys2Proof
end

