-- ==== Sys2Proof/Machine/Bits.lean ====
section
/-! DEFINITION. Plain conversions between words, naturals and byte strings (R13: the line is big-endian; R14, R216:
registers, descriptors and host structures are little-endian). -/

namespace Sys2Proof

/-- Bits `lo .. lo + len - 1` of a natural. -/
def natBits (n lo len : Nat) : Nat := n / 2 ^ lo % 2 ^ len

/-- Bit `i` of a natural. -/
def natBit (n i : Nat) : Bool := n / 2 ^ i % 2 = 1

/-- 1 for true, 0 for false. -/
def b2n (b : Bool) : Nat := if b then 1 else 0

/-- A byte from a natural, modulo 256. -/
def byteOf (n : Nat) : Byte := BitVec.ofNat 8 n

/-- `k` bytes of `n`, least significant byte first. -/
def leBytes : Nat → Nat → Bytes
  | 0, _ => []
  | k + 1, n => byteOf n :: leBytes k (n / 256)

/-- `k` bytes of `n`, most significant byte first. -/
def beBytes (k n : Nat) : Bytes := (leBytes k n).reverse

/-- The natural that a little-endian byte string stands for. -/
def leNat : Bytes → Nat
  | [] => 0
  | b :: bs => b.toNat + 256 * leNat bs

/-- The natural that a big-endian byte string stands for. -/
def beNat (bs : Bytes) : Nat := leNat bs.reverse

/-- Bytes `off .. off + len - 1`. -/
def slice (bs : Bytes) (off len : Nat) : Bytes := (bs.drop off).take len

/-- Byte `i`, 0 past the end. -/
def byteAt (bs : Bytes) (i : Nat) : Byte := bs.getD i 0

/-- Replace the bytes at `off` by `v`; bytes past the end are dropped. -/
def patch (bs : Bytes) (off : Nat) (v : Bytes) : Bytes :=
  bs.take off ++ (v.take (bs.length - off) ++ bs.drop (off + v.length))

/-- `bs` cut or filled with 0x00 to `n` bytes. -/
def padTo (n : Nat) (bs : Bytes) : Bytes := bs.take n ++ List.replicate (n - bs.length) 0

/-- Byte-wise exclusive or, of the shorter length. -/
def xorBytes (a b : Bytes) : Bytes := List.zipWith (· ^^^ ·) a b

/-- A signed value of `w` bits. -/
def sext (w n : Nat) : Int := if n % 2 ^ w < 2 ^ (w - 1) then (n % 2 ^ w : Nat) else (n % 2 ^ w : Nat) - (2 ^ w : Nat)

/-- The `w`-bit two's complement pattern of a signed value. -/
def toTwos (w : Nat) (i : Int) : Nat := (i % (2 ^ w : Nat)).toNat

end Sys2Proof
end

