-- ==== Sys2Proof/Machine/Aes.lean ====
section
/-! DEFINITION. AES (FIPS 197), GCM (SP 800-38D), CMAC (SP 800-38B), key wrap (RFC 3394) and the counter-mode KDF
(SP 800-108). PRESUMED: the spec names these standards and states no algorithm. -/

namespace Sys2Proof.Machine

/-! ## AES -/

/-- Twice a number of GF(2^8), modulo x^8 + x^4 + x^3 + x + 1. -/
def Aes.xtime (a : Nat) : Nat := Nat.xor (2 * a) (a / 128 * 0x11B)

/-- Product in GF(2^8) of `a` and a number of `n` bits. -/
def Aes.mulN : Nat → Nat → Nat → Nat
  | 0, _, _ => 0
  | n + 1, a, b => Nat.xor (b % 2 * a) (Aes.mulN n (Aes.xtime a) (b / 2))

/-- Product in GF(2^8) of a constant below 16 and a byte. -/
def Aes.mul (c : Nat) (a : Byte) : Byte := byteOf (Aes.mulN 4 a.toNat c)

/-- The S-box, a row of 16 bytes a number (FIPS 197, Figure 7). -/
def Aes.sboxRows : List Nat := [
  0x637c777bf26b6fc53001672bfed7ab76, 0xca82c97dfa5947f0add4a2af9ca472c0, 0xb7fd9326363ff7cc34a5e5f171d83115,
  0x04c723c31896059a071280e2eb27b275, 0x09832c1a1b6e5aa0523bd6b329e32f84, 0x53d100ed20fcb15b6acbbe394a4c58cf,
  0xd0efaafb434d338545f9027f503c9fa8, 0x51a3408f929d38f5bcb6da2110fff3d2, 0xcd0c13ec5f974417c4a77e3d645d1973,
  0x60814fdc222a908846eeb814de5e0bdb, 0xe0323a0a4906245cc2d3ac629195e479, 0xe7c8376d8dd54ea96c56f4ea657aae08,
  0xba78252e1ca6b4c6e8dd741f4bbd8b8a, 0x703eb5664803f60e613557b986c11d9e, 0xe1f8981169d98e949b1e87e9ce5528df,
  0x8ca1890dbfe6426841992d0fb054bb16]
/-- The inverse S-box (FIPS 197, Figure 14). -/
def Aes.invSboxRows : List Nat := [
  0x52096ad53036a538bf40a39e81f3d7fb, 0x7ce339829b2fff87348e4344c4dee9cb, 0x547b9432a6c2233dee4c950b42fac34e,
  0x082ea16628d924b2765ba2496d8bd125, 0x72f8f66486689816d4a45ccc5d65b692, 0x6c704850fdedb9da5e154657a78d9d84,
  0x90d8ab008cbcd30af7e45805b8b34506, 0xd02c1e8fca3f0f02c1afbd0301138a6b, 0x3a9111414f67dcea97f2cfcef0b4e673,
  0x96ac7422e7ad3585e2f937e81c75df6e, 0x47f11a711d29c5896fb7620eaa18be1b, 0xfc563e4bc6d279209adbc0fe78cd5af4,
  0x1fdda8338807c731b11210592780ec5f, 0x60517fa919b54a0d2de57a9f93c99cef, 0xa0e03b4dae2af5b0c8ebbb3c83539961,
  0x172b047eba77d626e169146355210c7d]
/-- Row: the high digit of a byte; column: its low digit. -/
def Aes.tableAt (rows : List Nat) (a : Byte) : Byte := byteOf (rows.getD (a.toNat / 16) 0 >>> (8 * (15 - a.toNat % 16)))

def Aes.sbox (a : Byte) : Byte := Aes.tableAt Aes.sboxRows a
def Aes.invSbox (b : Byte) : Byte := Aes.tableAt Aes.invSboxRows b

/-- The state is 16 bytes, column after column. -/
def Aes.shiftRows (st : Bytes) : Bytes := (List.range 16).map fun i => byteAt st (4 * ((i / 4 + i % 4) % 4) + i % 4)
def Aes.invShiftRows (st : Bytes) : Bytes := (List.range 16).map fun i => byteAt st (4 * ((i / 4 + 4 - i % 4) % 4) + i % 4)

/-- Multiply every column by the circulant matrix with first row `c0 c1 c2 c3`. -/
def Aes.mix (c0 c1 c2 c3 : Nat) (st : Bytes) : Bytes :=
  (List.range 16).map fun i =>
    let at' := fun k => byteAt st (4 * (i / 4) + (i + k) % 4)
    Aes.mul c0 (at' 0) ^^^ Aes.mul c1 (at' 1) ^^^ Aes.mul c2 (at' 2) ^^^ Aes.mul c3 (at' 3)

def Aes.rcon : Nat → Nat
  | 0 => 1
  | n + 1 => Aes.xtime (Aes.rcon n)

/-- `n` further words of the key schedule from word `i` on; words newest first. -/
def Aes.expand (nk : Nat) : Nat → Nat → List Bytes → List Bytes
  | 0, _, ws => ws
  | n + 1, i, ws =>
    let p := ws.headD []
    let t := if i % nk = 0 then xorBytes ((p.drop 1 ++ p.take 1).map Aes.sbox) [byteOf (Aes.rcon (i / nk - 1)), 0, 0, 0]
      else if 6 < nk ∧ i % nk = 4 then p.map Aes.sbox else p
    Aes.expand nk n (i + 1) (xorBytes t (ws.getD (nk - 1) []) :: ws)

/-- Cut a string into chunks of `k` bytes, at most `n` of them. -/
def chunks (k : Nat) : Nat → Bytes → List Bytes
  | 0, _ => []
  | _ + 1, [] => []
  | n + 1, b :: bs => (b :: bs).take k :: chunks k n ((b :: bs).drop k)

/-- The chunks of a whole string. -/
def chunksOf (k : Nat) (bs : Bytes) : List Bytes := chunks k bs.length bs

/-- Round keys of a key of 16 or 32 bytes, first round first. -/
def Aes.roundKeys (key : Bytes) : List Bytes :=
  let nk := key.length / 4
  let ws := (Aes.expand nk (4 * (nk + 7) - nk) nk (chunks 4 nk key).reverse).reverse
  chunksOf 16 ws.flatten

def Aes.rounds (st : Bytes) : List Bytes → Bytes
  | [] => st
  | [k] => xorBytes (Aes.shiftRows (st.map Aes.sbox)) k
  | k :: ks => Aes.rounds (xorBytes (Aes.mix 2 3 1 1 (Aes.shiftRows (st.map Aes.sbox))) k) ks

/-- AES encryption of one block under an expanded key. -/
def Aes.enc (ks : List Bytes) (blk : Bytes) : Bytes :=
  match ks with
  | [] => blk
  | k :: ks => Aes.rounds (xorBytes blk k) ks

def Aes.invRounds (st : Bytes) : List Bytes → Bytes
  | [] => st
  | [k] => xorBytes ((Aes.invShiftRows st).map Aes.invSbox) k
  | k :: ks => Aes.invRounds (Aes.mix 14 11 13 9 (xorBytes ((Aes.invShiftRows st).map Aes.invSbox) k)) ks

/-- AES decryption of one block under an expanded key. -/
def Aes.dec (ks : List Bytes) (blk : Bytes) : Bytes :=
  match ks.reverse with
  | [] => blk
  | k :: ks => Aes.invRounds (xorBytes blk k) ks

def aesEnc (key blk : Bytes) : Bytes := Aes.enc (Aes.roundKeys key) blk
def aesDec (key blk : Bytes) : Bytes := Aes.dec (Aes.roundKeys key) blk

/-- ECB over whole blocks. -/
def aesEcbEnc (key bs : Bytes) : Bytes := ((chunksOf 16 bs).map (Aes.enc (Aes.roundKeys key))).flatten
def aesEcbDec (key bs : Bytes) : Bytes := ((chunksOf 16 bs).map (Aes.dec (Aes.roundKeys key))).flatten

/-! ## GCM -/

def Gcm.mulN (y : BitVec 128) : Nat → BitVec 128 → BitVec 128 → BitVec 128
  | 0, _, z => z
  | n + 1, v, z =>
    let z' := if y.getLsbD n then z ^^^ v else z
    Gcm.mulN y n (if v.getLsbD 0 then (v >>> 1) ^^^ (0xE1#128 <<< 120) else v >>> 1) z'

/-- Product in GF(2^128), most significant bit first. -/
def Gcm.mul (x y : BitVec 128) : BitVec 128 := Gcm.mulN y 128 x 0

def toBlock (bs : Bytes) : BitVec 128 := BitVec.ofNat 128 (beNat (padTo 16 bs))

def Gcm.ghash (h : BitVec 128) (bs : List Bytes) : BitVec 128 := bs.foldl (fun y b => Gcm.mul (y ^^^ toBlock b) h) 0

/-- Counter-mode key stream over `n` blocks from counter block `iv ‖ c`. -/
def Gcm.ctr (ks : List Bytes) (iv : Bytes) : Nat → List Bytes → List Bytes
  | _, [] => []
  | c, b :: bs => xorBytes b (Aes.enc ks (iv ++ beBytes 4 c)) :: Gcm.ctr ks iv (c + 1) bs

/-- The 16-byte tag of ciphertext `ct` and associated data `aad`. -/
def Gcm.tag (ks : List Bytes) (iv aad ct : Bytes) : Bytes :=
  let h := toBlock (Aes.enc ks (List.replicate 16 0))
  let y := Gcm.ghash h (chunksOf 16 aad ++ chunksOf 16 ct ++ [beBytes 8 (8 * aad.length) ++ beBytes 8 (8 * ct.length)])
  xorBytes (beBytes 16 y.toNat) (Aes.enc ks (iv ++ [0, 0, 0, 1]))

/-- GCM with a 12-byte IV: ciphertext and 16-byte tag. -/
def gcmEnc (key iv aad pt : Bytes) : Bytes × Bytes :=
  let ks := Aes.roundKeys key
  let ct := (Gcm.ctr ks iv 2 (chunksOf 16 pt)).flatten
  (ct, Gcm.tag ks iv aad ct)

/-- Plaintext and expected 16-byte tag of a ciphertext. -/
def gcmDec (key iv aad ct : Bytes) : Bytes × Bytes :=
  let ks := Aes.roundKeys key
  ((Gcm.ctr ks iv 2 (chunksOf 16 ct)).flatten, Gcm.tag ks iv aad ct)

/-! ## CMAC, key wrap, KDF -/

def Cmac.dbl (x : BitVec 128) : BitVec 128 := if x.msb then (x <<< 1) ^^^ 0x87 else x <<< 1

def Cmac.last (k1 k2 : Bytes) (b : Bytes) : Bytes :=
  if b.length = 16 then xorBytes b k1 else xorBytes (padTo 16 (b ++ [0x80])) k2

def Cmac.run (ks : List Bytes) (k1 k2 : Bytes) : Bytes → List Bytes → Bytes
  | x, [] => Aes.enc ks (xorBytes x (Cmac.last k1 k2 []))
  | x, [b] => Aes.enc ks (xorBytes x (Cmac.last k1 k2 b))
  | x, b :: bs => Cmac.run ks k1 k2 (Aes.enc ks (xorBytes x b)) bs

/-- CMAC of a message, 16 bytes. -/
def cmac (key msg : Bytes) : Bytes :=
  let ks := Aes.roundKeys key
  let k1 := Cmac.dbl (toBlock (Aes.enc ks (List.replicate 16 0)))
  Cmac.run ks (beBytes 16 k1.toNat) (beBytes 16 (Cmac.dbl k1).toNat) (List.replicate 16 0) (chunksOf 16 msg)

/-- One pass of the wrapping rounds over the registers: `t` counts from `t + 1`. -/
def Wrap.pass (ks : List Bytes) : Nat → Bytes → List Bytes → Bytes × List Bytes
  | _, a, [] => (a, [])
  | t, a, r :: rs =>
    let b := Aes.enc ks (a ++ r)
    let (a', rs') := Wrap.pass ks (t + 1) (xorBytes (b.take 8) (beBytes 8 (t + 1))) rs
    (a', b.drop 8 :: rs')

def Wrap.passes (ks : List Bytes) (n : Nat) : Nat → Nat → Bytes → List Bytes → Bytes × List Bytes
  | 0, _, a, rs => (a, rs)
  | k + 1, j, a, rs => let (a', rs') := Wrap.pass ks (n * j) a rs; Wrap.passes ks n k (j + 1) a' rs'

/-- RFC 3394 wrap of `n` 8-byte blocks with the default initial value: 8 bytes longer. -/
def keyWrap (kek pt : Bytes) : Bytes :=
  let (a, rs) := Wrap.passes (Aes.roundKeys kek) (pt.length / 8) 6 0 (List.replicate 8 0xA6) (chunksOf 8 pt)
  a ++ rs.flatten

/-- One unwrapping pass over the registers, last one first; `t` is its step number. -/
def Wrap.unpass (ks : List Bytes) : Nat → Bytes → List Bytes → Bytes × List Bytes
  | _, a, [] => (a, [])
  | t, a, r :: rs =>
    let b := Aes.dec ks (xorBytes a (beBytes 8 t) ++ r)
    let (a', rs') := Wrap.unpass ks (t - 1) (b.take 8) rs
    (a', b.drop 8 :: rs')

def Wrap.unpasses (ks : List Bytes) (n : Nat) : Nat → Bytes → List Bytes → Bytes × List Bytes
  | 0, a, rs => (a, rs)
  | j + 1, a, rs => let (a', rs') := Wrap.unpass ks (n * (j + 1)) a rs; Wrap.unpasses ks n j a' rs'

/-- RFC 3394 unwrap: none where the initial value does not check. -/
def keyUnwrap (kek ct : Bytes) : Option Bytes :=
  let n := ct.length / 8 - 1
  let (a, rs) := Wrap.unpasses (Aes.roundKeys kek) n 6 (ct.take 8) (chunksOf 8 (ct.drop 8)).reverse
  if a = List.replicate 8 0xA6 then some rs.reverse.flatten else none

end Sys2Proof.Machine
end

