-- ==== Sys2Proof/Machine/Hash.lean ====
section
/-! DEFINITION. SHA-256 (FIPS 180-4), ECDSA verification over P-256 (FIPS 186) and the cyclic redundancy checks the spec
names. PRESUMED: the spec names the standards and states no algorithm. -/

namespace Sys2Proof.Machine

/-! ## SHA-256 -/

/-- The 64 round constants, 16 to a row, each row one number with the first constant highest. -/
def Sha.rowK : Nat → Nat
  | 0 => 0x428a2f9871374491b5c0fbcfe9b5dba53956c25b59f111f1923f82a4ab1c5ed5d807aa9812835b01243185be550c7dc372be5d7480deb1fe9bdc06a7c19bf174
  | 1 => 0xe49b69c1efbe47860fc19dc6240ca1cc2de92c6f4a7484aa5cb0a9dc76f988da983e5152a831c66db00327c8bf597fc7c6e00bf3d5a7914706ca635114292967
  | 2 => 0x27b70a852e1b21384d2c6dfc53380d13650a7354766a0abb81c2c92e92722c85a2bfe8a1a81a664bc24b8b70c76c51a3d192e819d6990624f40e3585106aa070
  | _ => 0x19a4c1161e376c082748774c34b0bcb5391c0cb34ed8aa4a5b9cca4f682e6ff3748f82ee78a5636f84c878148cc7020890befffaa4506cebbef9a3f7c67178f2

/-- Words `w`, `w - 1`, … of a number that holds 32-bit words, the highest first. -/
def Sha.unpack (x : Nat) : Nat → List W32
  | 0 => []
  | w + 1 => BitVec.ofNat 32 (x >>> (32 * w)) :: Sha.unpack x w

/-- The initial hash value. -/
def Sha.start : List W32 := Sha.unpack 0x6a09e667bb67ae853c6ef372a54ff53a510e527f9b05688c1f83d9ab5be0cd19 8

/-- `n` further words of the schedule, newest first. -/
def Sha.sched : Nat → List W32 → List W32
  | 0, ws => ws
  | n + 1, ws =>
    let w := fun i => ws.getD i 0
    let s0 := (w 14).rotateRight 7 ^^^ (w 14).rotateRight 18 ^^^ (w 14) >>> 3
    let s1 := (w 1).rotateRight 17 ^^^ (w 1).rotateRight 19 ^^^ (w 1) >>> 10
    Sha.sched n ((w 15 + s0 + w 6 + s1) :: ws)

def Sha.round (h : List W32) (kw : W32) : List W32 :=
  let v := fun i => h.getD i 0
  let s1 := (v 4).rotateRight 6 ^^^ (v 4).rotateRight 11 ^^^ (v 4).rotateRight 25
  let t1 := v 7 + s1 + ((v 4 &&& v 5) ^^^ (~~~(v 4) &&& v 6)) + kw
  let s0 := (v 0).rotateRight 2 ^^^ (v 0).rotateRight 13 ^^^ (v 0).rotateRight 22
  let t2 := s0 + ((v 0 &&& v 1) ^^^ (v 0 &&& v 2) ^^^ (v 1 &&& v 2))
  [t1 + t2, v 0, v 1, v 2, v 3 + t1, v 4, v 5, v 6]

def Sha.words (b : Bytes) : Nat → List W32
  | 0 => []
  | n + 1 => BitVec.ofNat 32 (beNat (b.take 4)) :: Sha.words (b.drop 4) n

def Sha.block (h : List W32) (b : Bytes) : List W32 :=
  let ws := (Sha.sched 48 (Sha.words b 16).reverse).reverse
  let ks := (List.range 4).flatMap fun r => Sha.unpack (Sha.rowK r) 16
  List.zipWith (· + ·) h ((List.zipWith (· + ·) ks ws).foldl Sha.round h)

def Sha.blocks : Nat → List W32 → Bytes → List W32
  | 0, h, _ => h
  | n + 1, h, b => Sha.blocks n (Sha.block h b) (b.drop 64)

/-- SHA-256 of a byte string. -/
def sha256 (m : Bytes) : Bytes :=
  let z := (119 - m.length % 64) % 64
  let p := m ++ 0x80 :: List.replicate z 0 ++ beBytes 8 (8 * m.length)
  ((Sha.blocks (p.length / 64) Sha.start p).map fun w => beBytes 4 w.toNat).flatten

/-! ## ECDSA over P-256 -/

def P256.p : Nat := 0xFFFFFFFF00000001000000000000000000000000FFFFFFFFFFFFFFFFFFFFFFFF
def P256.b : Nat := 0x5AC635D8AA3A93E7B3EBBD55769886BC651D06B0CC53B0F63BCE3C3E27D2604B
def P256.n : Nat := 0xFFFFFFFF00000000FFFFFFFFFFFFFFFFBCE6FAADA7179E84F3B9CAC2FC632551
def P256.g : Nat × Nat :=
  (0x6B17D1F2E12C4247F8BCE6E563A440F277037D812DEB33A0F4A13945D898C296,
   0x4FE342E2FE1A7F9B8EE7EB4A7C0F9E162BCE33576B315ECECBB6406837BF51F5)

/-- `a^e mod m` for an exponent of at most `k` bits. -/
def powMod (m : Nat) : Nat → Nat → Nat → Nat
  | 0, _, _ => 1
  | k + 1, a, e => (if e % 2 = 1 then a else 1) * powMod m k (a * a % m) (e / 2) % m

/-- Inverse modulo a 256-bit prime. -/
def invMod (m a : Nat) : Nat := powMod m 256 (a % m) (m - 2)

def subMod (m a b : Nat) : Nat := (a + m - b % m) % m

/-- Addition of points; `none` is the neutral point. -/
def P256.add : Option (Nat × Nat) → Option (Nat × Nat) → Option (Nat × Nat)
  | none, q => q
  | q, none => q
  | some (x1, y1), some (x2, y2) =>
    if x1 = x2 ∧ (y1 + y2) % P256.p = 0 then none
    else
      let l := if x1 = x2 then subMod P256.p (3 * x1 * x1) 3 * invMod P256.p (2 * y1) % P256.p
        else subMod P256.p y2 y1 * invMod P256.p (subMod P256.p x2 x1) % P256.p
      let x3 := subMod P256.p (l * l) (x1 + x2)
      some (x3, subMod P256.p (l * subMod P256.p x1 x3) y1)

def P256.smul : Nat → Nat → Option (Nat × Nat) → Option (Nat × Nat)
  | 0, _, _ => none
  | k + 1, e, q =>
    let r := P256.smul k (e / 2) (P256.add q q)
    if e % 2 = 1 then P256.add q r else r

/-- The signature (r, s) over the digest `z` verifies under public point (x, y). -/
def ecdsaVerify (x y z r s : Nat) : Bool :=
  decide (x < P256.p) && decide (y < P256.p) && decide ((y * y) % P256.p = (x * x * x + P256.b + (P256.p - 3) * x) % P256.p)
    && decide (0 < r ∧ r < P256.n ∧ 0 < s ∧ s < P256.n)
    && (let w := invMod P256.n s
        match P256.add (P256.smul 256 (z * w % P256.n) (some P256.g)) (P256.smul 256 (r * w % P256.n) (some (x, y))) with
        | none => false
        | some (vx, _) => decide (vx % P256.n = r))

/-! ## CRC -/

/-- One bit of a CRC with the least significant bit first; `poly` is reflected. -/
def Crc.bitR (poly : Nat) : Nat → Nat → Nat
  | 0, c => c
  | n + 1, c => Crc.bitR poly n (if c % 2 = 1 then Nat.xor (c / 2) poly else c / 2)

def Crc.runR (poly : Nat) : Nat → Bytes → Nat
  | c, [] => c
  | c, b :: bs => Crc.runR poly (Crc.bitR poly 8 (Nat.xor c b.toNat)) bs

/-- CRC-32 of IEEE 802.3 (the Ethernet FCS). -/
def crc32 (bs : Bytes) : Nat := Nat.xor (Crc.runR 0xEDB88320 0xFFFFFFFF bs) 0xFFFFFFFF
/-- CRC-32C (Castagnoli). -/
def crc32c (bs : Bytes) : Nat := Nat.xor (Crc.runR 0x82F63B78 0xFFFFFFFF bs) 0xFFFFFFFF

/-- One bit of a 16-bit CRC with the most significant bit first. -/
def Crc.bitL (poly : Nat) : Nat → Nat → Nat
  | 0, c => c
  | n + 1, c => Crc.bitL poly n (if 0x8000 ≤ c then Nat.xor (c * 2 % 65536) poly else c * 2)

/-- A 16-bit CRC, most significant bit first, with the given preset. -/
def crc16 (poly : Nat) : Nat → Bytes → Nat
  | c, [] => c
  | c, b :: bs => crc16 poly (Crc.bitL poly 8 (Nat.xor c (b.toNat * 256))) bs

/-- The Ethernet FCS of a frame as it stands on the line: 4 bytes, least significant byte first. -/
def fcsOf (bs : Bytes) : Bytes := leBytes 4 (crc32 bs)

/-- The last 4 bytes are the FCS of the others. -/
def fcsGood (f : Bytes) : Bool := decide (4 ≤ f.length) && decide (f.drop (f.length - 4) = fcsOf (f.take (f.length - 4)))

end Sys2Proof.Machine
end

