-- ==== Sys2Proof/Machine/Tbl.lean ====
section
/-! DEFINITION. Sparse tables in one canonical form: keys strictly rising, no entry equal to what an unlisted key reads
as. Every numbered store of the block (registers, MTP bytes, memory lines, key slots, counters, lanes) is one. -/

namespace Sys2Proof

/-- A sparse table: (key, value) pairs. -/
abbrev Tbl (α : Type) := List (Nat × α)

namespace Machine

/-- The value under key `k`; `d` is what an unlisted key reads as. -/
def tget {α : Type} (d : α) : Tbl α → Nat → α
  | [], _ => d
  | (j, v) :: t, k => if j = k then v else if k < j then d else tget d t k

/-- Put `v` under `k`, with no regard to the unlisted value. -/
def tins {α : Type} (k : Nat) (v : α) : Tbl α → Tbl α
  | [] => [(k, v)]
  | (j, w) :: t => if j < k then (j, w) :: tins k v t else if j = k then (k, v) :: t else (k, v) :: (j, w) :: t

/-- Remove the entry of `k`. -/
def tdel {α : Type} (k : Nat) : Tbl α → Tbl α
  | [] => []
  | (j, w) :: t => if j < k then (j, w) :: tdel k t else if j = k then t else (j, w) :: t

/-- Write `v` under `k`: writing the value an unlisted key reads as removes the entry. -/
def tset {α : Type} [DecidableEq α] (d : α) (k : Nat) (v : α) (t : Tbl α) : Tbl α :=
  if v = d then tdel k t else tins k v t

/-- Keep only the entries whose key satisfies `p`. -/
def tkeep {α : Type} (p : Nat → Bool) (t : Tbl α) : Tbl α := t.filter (fun e => p e.1)

/-- Keys strictly rising. -/
def tsorted {α : Type} : Tbl α → Bool
  | [] => true
  | [_] => true
  | (j, _) :: (k, w) :: t => decide (j < k) && tsorted ((k, w) :: t)

/-- The canonical form, where an unlisted key `k` reads as `d k`. -/
def twf {α : Type} [DecidableEq α] (d : Nat → α) (t : Tbl α) : Bool :=
  tsorted t && t.all (fun e => decide (e.2 ≠ d e.1))

end Machine
end Sys2Proof
end

