-- ==== Sys2Proof/Machine/State.lean ====
section
/-! DEFINITION. The state of the block: every register, store, queue, counter, mode and pin the spec gives the device,
as plain data, and the state right after a power-on reset. A structure's default field values are its reset values. -/

namespace Sys2Proof.Machine

/-- Why a command stops the machine. No command of this block stops it (the spec gives every row an effect or lets it be
ignored); the type has one constructor, which nothing raises (safe). -/
inductive Fault where
  | impossible
deriving DecidableEq, Repr

/-- Why a command is refused. -/
inductive Refusal where
  /-- The command has no meaning in this model yet (raised by `exec` only; safe). -/
  | notModelled (mnemonic : String)
deriving DecidableEq, Repr

/-- Patterns of a training burst (R376). -/
inductive Training where
  | prbs13 | prbs13q | k28_5
deriving DecidableEq, Repr

/-- What leaves the die, newest first in `State.out` (the model's own field: the spec gives these signals no store;
DESIGN CHOICE, log entry 105). -/
inductive Out where
  /-- An MSI-X message of device vector `v` (R465). -/
  | msix (v : Nat)
  /-- A write to host memory under requester `pf` (R470). -/
  | hostWrite (pf addr : Nat) (data : Bytes)
  /-- A frame sent by client port `p` (R26), destination address to FCS. -/
  | clientFrame (p : Nat) (data : Bytes)
  /-- A sheet that the framer of mill `m` hands to its lanes (R52). -/
  | sheet (m : Nat) (s : Sheet)
  /-- The lane markers of a ream start that the framer hands to its lanes, by LANE (R69). -/
  | markers (m : Nat) (ms : List Bytes)
  /-- A codeword of RS(544,514) on a line lane (SER lane number), as 10-bit symbols (R70). -/
  | codeword (lane : Nat) (cw : List Nat)
  /-- A client port begins, or ends, to send remote fault towards its module (R384). -/
  | remoteFault (p : Nat) (on : Bool)
  /-- A training burst begins on a lane: its pattern and its length in UI (R376). -/
  | training (lane : Nat) (pattern : Training) (ui : Nat)
  /-- Characters sent on the felt link: one frame (R386). -/
  | felt (data : Bytes)
  /-- A HB slot (R400). -/
  | heartbeat
  /-- What a register read returns (R15). -/
  | regRead (pf addr : Nat) (v : W32)
  /-- Bytes the I²C target returns, and whether it acknowledged (R478). -/
  | i2c (ack : Bool) (data : Bytes)
  /-- An edge on a trigger output (R289) or PPS_OUT (output 8, R291), after the output gate of R415. -/
  | pin (k : Nat) (high : Bool)
  /-- A stored line written to an external memory (R347, R358): channel, channel line address, its 8 beats. -/
  | memBus (c addr : Nat) (beats : List (BitVec 36))
  /-- The answer to a debug access (R363): status of Table 12-5, data of a read. -/
  | debug (status : Nat) (data : Bytes)
deriving DecidableEq, Repr

/-! ## Counters and event recorder (chapter 17) -/

/-- Performance counters (R451-R456). Selections and CLR_ON_GATHER stand in the register file. -/
structure Pmc where
  /-- Live counts, key 8·block + counter. -/
  cnt : Tbl Nat := []
  /-- SAT bits, key 8·block + counter. -/
  sat : Tbl Bool := []
  /-- Snapshot bank of the last gather. -/
  snap : Tbl Nat := []
  /-- Counters whose saturation has not been recorded yet (R451, record type 0x0B). -/
  satNew : List Nat := []
  busy : Bool := false
  gseq : W16 := 0
  /-- Samples of the last periodic gather; the blocks cleared between it and the last gather, and those cleared since (R462). -/
  prev : Tbl Nat := []
  cleared : List Nat := []
  recent : List Nat := []
deriving DecidableEq, Repr, Inhabited

/-- A happening that waits for the recorder (R459), with its time (R461) and its tick. -/
structure Happen where
  type : Byte
  src : Byte
  subject : W16
  data : Bytes
  ns : Nat
  sec : Nat
  tick : Nat
deriving DecidableEq, Repr, Inhabited

/-- The last record of a TYPE, for merging (R460). -/
structure MergeHist where
  type : Byte
  src : Byte
  subject : W16
  data : Bytes
  tick : Nat
  seq : Nat
deriving DecidableEq, Repr, Inhabited

/-- Event recorder (R457-R463). -/
structure Evr where
  queue : List Happen := []
  /-- Records written since arming; SEQ and EVR_HEAD are this count modulo 2^32 (R458). -/
  written : Nat := 0
  first : Tbl Bytes := []
  last : Tbl Bytes := []
  lost : W16 := 0
  /-- Happenings lost and not yet reported, unsaturated (R459). -/
  lostCount : Nat := 0
  hist : List MergeHist := []
deriving DecidableEq, Repr, Inhabited

/-! ## Host interface (chapter 18) -/

structure Hst where
  /-- PEND of the 48 interrupt sources (R465). -/
  pend : BitVec 48 := 0
  /-- MSI-X vector mask bits, and the pending-bit array, of the 256 device vectors (R464, R465; PRESUMED,
  log entry 8). -/
  masked : BitVec 256 := BitVec.allOnes 256
  pba : BitVec 256 := 0
  /-- The MSTATE change bit of source 37. -/
  mstateChg : Bool := false
  /-- LINK.UP, SPEED, WIDTH (Table 18-6). -/
  linkUp : Bool := false
  linkSpeed : Nat := 0
  linkWidth : Nat := 0
  /-- Upper words latched by a low-word read (R15): address and value. -/
  latch : Tbl W32 := []
deriving DecidableEq, Repr, Inhabited

/-! ## Reset controller (chapter 16) -/

structure Rst where
  /-- Bit i: domain Di is released (Table 16-10). -/
  released : BitVec 15 := 0
  /-- Bit i: the clocks of Di are locked and have completed their stability count. -/
  stable : BitVec 15 := 0
  /-- Domains that are held because their clock was lost (R440). -/
  clkHeld : BitVec 15 := 0
  /-- The trims are in effect (R441). -/
  trims : Bool := false
  /-- Copy B of the trims is being read (R441). -/
  trimB : Bool := false
  /-- The trim load failed with both copies (R441). -/
  trimFailed : Bool := false
  /-- Power-on reset is asserted (R483). -/
  porHeld : Bool := false
  /-- RESET_N is low for 10 us or more (R443); PERST# is low. -/
  resetLow : Bool := false
  perstLow : Bool := false
  /-- Boot: an image is verified, copy in use, both failed, causes (Table 18-5). -/
  bootDone : Bool := false
  bootCopy : Bool := false
  bootFailed : Bool := false
  bootTry : Nat := 0
  causeA : Nat := 0
  causeB : Nat := 0
  imgVer : W32 := 0
  digest : Bytes := []
  /-- PCIE_CFG and LANE_FW of the verified image as applied (R477). -/
  pcieCfg : Bytes := []
  laneFw : Bytes := []
deriving DecidableEq, Repr, Inhabited

/-- Straps and pins (R480, Table 18-11). -/
structure Pads where
  mateSide : Bool := false
  i2cAddr : BitVec 2 := 0
  i2cPtr : Byte := 0
  /-- The 64 status bytes latched by the running I²C read (R478). -/
  i2cLatch : Bytes := []
  mateActIn : Bool := false
  mateActOut : Bool := false
  /-- Levels of TRIG_OUT0..7 and PPS_OUT (8). -/
  trigOut : BitVec 9 := 0
deriving DecidableEq, Repr, Inhabited

/-! ## Time (chapter 9) -/

/-- A stamp: time base, reading in 2^-40 ns, and the sum of steps applied to that base up to it (R270). -/
structure Stamp where
  tb : Fin 8 := 0
  val : Nat := 0
  steps : Int := 0
deriving DecidableEq, Repr, Inhabited

/-- A time base and its servo (R267-R274). -/
structure TimeBase where
  /-- Seconds, nanoseconds and 40-bit fraction as one count of 2^-40 ns. -/
  val : Nat := 0
  steps : Int := 0
  servoEn : Bool := false
  kp : W16 := 0
  ki : W16 := 0
  ilim : Nat := 0
  stepTh : Nat := 0
  interval : Nat := 0
  src : Fin 8 := 0
  srcTb : Fin 8 := 0
  /-- The integrator, in 2^-30 ns. -/
  integ : Int := 0
  theta : W32 := 0
  /-- Tick of the last step: an offset of a hardware source on that edge is discarded (R273). -/
  stepAt : Option Nat := none
deriving DecidableEq, Repr, Inhabited

/-- Receive delay of a line group (R279), in 1/64 ns. -/
structure LineDelay where
  valid : Bool := false
  dbar : Rat := 0
  rtt : Rat := 0
  rejects : Nat := 0
deriving DecidableEq, Repr, Inhabited

/-- A trigger output's programme (R289). Times in 2^-40 ns of a time base. -/
structure Trig where
  active : Bool := false
  tb : Fin 8 := 0
  /-- First rise, period (0: a single pulse) and width. -/
  start : Nat := 0
  period : Nat := 0
  width : Nat := 0
  /-- The next rise, while one is still to come. -/
  more : Bool := false
  next : Nat := 0
  /-- A pulse is in progress, which ends at this reading of this time base. -/
  high : Bool := false
  fallAt : Nat := 0
  fallTb : Fin 8 := 0
deriving DecidableEq, Repr, Inhabited

/-- An entry of a capture or time-stamp queue (Table 9-19). -/
structure QEnt where
  stamp : Stamp := {}
  port : Nat := 0
  mtype : Nat := 0
  dir : Bool := false
  seqid : Nat := 0
  ovf : Bool := false
deriving DecidableEq, Repr, Inhabited

structure StampQueue where
  ents : List QEnt := []
  ovf : Bool := false
  /-- Words W1 to W3 latched by the last W0 read. -/
  latch : List W32 := []
deriving DecidableEq, Repr, Inhabited

/-- An entry of a two-step match table (R286): its key bytes, the part in 2^-16 ns. -/
structure TcEntry where
  key : Bytes
  part : Int
deriving DecidableEq, Repr, Inhabited

structure Tim where
  tb : Vector TimeBase 8 := Vector.replicate 8 {}
  line : Vector LineDelay 4 := Vector.replicate 4 {}
  trig : Vector Trig 8 := Vector.replicate 8 {}
  /-- Queues 0..3: TSQ of mill m; 4..8: capture channel k. -/
  queues : Vector StampQueue 9 := Vector.replicate 9 {}
  /-- Tables 0..3: near, line group m; 4..35: far, client port p. Oldest entry first. -/
  tc : Tbl (List TcEntry) := []
  /-- Level that the PPS_OUT programme asks for (R291). -/
  ppsOut : Bool := false
  /-- The pulse in progress ends at this reading of this time base. -/
  ppsFall : Nat := 0
  ppsTb : Fin 8 := 0
deriving DecidableEq, Repr, Inhabited

/-! ## Command rings' references (chapter 7) -/

/-- Names a command that waits for its completion record: its ring, place, tag and FLAGS.IRQ (R213). -/
structure CmdRef where
  rid : Rid
  index : Nat
  tag : W32
  irq : Bool
deriving DecidableEq, Repr

/-! ## OTP, key store and life cycle (chapter 10) -/

/-- Ordering code of the part (R1-R3). -/
inductive Part where
  | jmc7720 | jmc7720I | jmc7710
deriving DecidableEq, Repr, Inhabited

/-- OTP (Table 10-8, R430, R434, R476). A group is blown when at least 5 of its 8 bits are 1. -/
structure Otp where
  part : Part := .jmc7720
  deviceId : Bytes := List.replicate 16 0
  lcFactory : Byte := 0xFF
  lcSecured : Byte := 0
  lcReturned : Byte := 0
  lcScrapped : Byte := 0
  rootA : Bytes := []
  rootB : Bytes := []
  chkA : W16 := 0
  chkB : W16 := 0
  validA : Byte := 0
  validB : Byte := 0
  /-- Blown bits of the evidence counter, 0 to 512. -/
  evidence : Nat := 0
  /-- Disable groups of tamper sources 0 to 7. -/
  disable : Vector Byte 8 := Vector.replicate 8 0
  /-- SHA-256 of the boot public key. -/
  bootKeyHash : Bytes := List.replicate 32 0
deriving DecidableEq, Repr, Inhabited

inductive SlotState where
  | empty | live | staged | invalidating
deriving DecidableEq, Repr, Inhabited

/-- A key store slot (R294). -/
structure Slot where
  st : SlotState := .empty
  key : Bytes := []
  attr : W32 := 0
  parent : Option Nat := none
  depth : Nat := 0
  gen : Nat := 0
  /-- The staged key, its parent and depth. -/
  staged : Option (Bytes × Option Nat × Nat) := none
  hw : Bool := false
deriving DecidableEq, Repr, Inhabited

/-- What an operation of the key store does when it completes (R300, R303-R309, R319). -/
inductive KOp where
  /-- Install `new` into `slot` (KWRAPIN, KDERIVE). -/
  | install (slot : Nat) (new : Slot)
  /-- As `install`, with a key still to draw. -/
  | installDrawn (slot : Nat) (new : Slot)
  /-- Stage a key still to draw (KSTAGE SRC 1). -/
  | stageDrawn (slot : Nat)
  /-- A commit is in force already; its record is owed. -/
  | commit (slot gen : Nat)
  /-- The response to sign: signer slot, its key and generation, the identity key, nonce, host address. -/
  | attest (slot : Nat) (key idKey : Bytes) (gen : Nat) (attr : W32) (nonce : Bytes) (addr : Nat)
deriving DecidableEq, Repr

/-- An operation in progress (R308). -/
structure KJob where
  id : Nat
  ref : CmdRef
  op : KOp
  /-- Draws still awaited, and the data drawn. -/
  need : Nat := 0
  drawn : List Bytes := []
  /-- The slot the result would enter was erased since acceptance (R300). -/
  erased : Bool := false
  /-- The RNG failed while the operation waited for it (R307). -/
  failed : Bool := false
deriving DecidableEq, Repr

/-- A KINVAL in its marking phase or waiting for its slots (R310, R311). -/
structure Kinval where
  ref : CmdRef
  slots : List Nat
deriving DecidableEq, Repr

/-- What an MTP write is for (R312, R313, R435, R436). -/
inductive MtpKind where
  | copy (slot : Nat) | tomb (slot : Nat) | epoch | log | retire | eraseCopies
deriving DecidableEq, Repr

/-- An MTP write in progress or queued: where, what. -/
structure MtpJob where
  kind : MtpKind
  addr : Nat
  data : Bytes
  /-- The response rank this write ends (Table 15-3), and whether it clears the pending-evidence bit (R433). -/
  endsExec : Bool := false
  clearsPending : Bool := false
deriving DecidableEq, Repr

/-- An entry of the battery-backed reserve SRAM (R314). -/
structure Reserve where
  slot : Nat
  key : Bytes
  attr : W32
  parent : Option Nat
  depth : Nat
deriving DecidableEq, Repr

/-- A life-cycle transition under way (Table 10-12). -/
inductive LcPhase where
  | log (target : Nat) | epoch (target : Nat) | fuse (target : Nat)
deriving DecidableEq, Repr

structure Kst where
  slots : Tbl Slot := []
  /-- KST_GEN.NEXT (R299). -/
  gen : Nat := 1
  ready : Bool := false
  /-- Both root banks have failed, which no reset undoes (R316). -/
  rootFail : Bool := false
  /-- Bank A failed at this root generation and bank B is to be tried (R316). -/
  rootDraw : Option Bytes := none
  rootTriedA : Bool := false
  /-- STORE_EPOCH, SEQ and PROV_DONE of the record in force (R313). -/
  epoch : Nat := 0
  epochSeq : Nat := 0
  provDone : Bool := false
  storeKey : Bytes := []
  macKey : Bytes := []
  jobs : List KJob := []
  nextId : Nat := 0
  marking : Option Kinval := none
  invals : List Kinval := []
  /-- An orphan sweep of the directory runs (R169). -/
  sweeping : Bool := false
  mtpJobs : List MtpJob := []
  reserve : List Reserve := []
  attSeq : Nat := 0
  /-- The 1 ms window of KST_LC_TARGET is open (R323). -/
  lcWindow : Bool := false
  /-- Tick at which the window closed: a GO on that edge is taken (R8). -/
  lcShut : Option Nat := none
  lcPhase : Option LcPhase := none
  /-- KST_LC_STAT LAST and ERR. -/
  lcLast : Nat := 0
  lcErr : Nat := 0
  /-- The life-cycle latch behind KST_STAT.LC, loaded at the start of the island (R321, R431). -/
  lc : Nat := 1
  /-- Key written through KST_PROV0..7, and the check value register. -/
  prov : Bytes := List.replicate 32 0
  provChk : Bytes := List.replicate 8 0
  /-- Entries of the reserve SRAM discarded at the last start (R314). -/
  started : Bool := false
deriving DecidableEq, Repr, Inhabited

/-! ## RNG and utility cipher (chapter 11) -/

inductive RngState where
  | reset | startup | run | failed | test
deriving DecidableEq, Repr, Inhabited

/-- A CTR_DRBG instance (R332). -/
structure Drbg where
  inst : Bool := false
  key : Bytes := []
  v : Bytes := []
  /-- Requests since the last seed. -/
  reqs : Nat := 0
deriving DecidableEq, Repr, Inhabited

/-- Who waits for random data (Table 11-2). -/
inductive RngUser where
  | root
  | kst (id : Nat)
  | region (r : Fin 8)
  | hello (m : Fin 4)
  | mate
  | uciLoad
  | buf (i : Fin 8)
deriving DecidableEq, Repr

structure RngReq where
  inst : Nat
  user : RngUser
  nbytes : Nat
deriving DecidableEq, Repr

/-- A sampler's test state (R328, R329). -/
structure Sampler where
  lastBit : Option Bool := none
  /-- Length of the run that the last sample ends. -/
  run : Nat := 0
  /-- Windows seen since the start-up began: two are discarded, eight more tested (R330). -/
  windows : Nat := 0
  bias : W16 := 0
  corr : W16 := 0
  /-- The sampler's place in the PRBS of pattern mode (R338). -/
  prbs : W32 := 0
deriving DecidableEq, Repr, Inhabited

/-- A host output buffer (R334). -/
structure RngBuf where
  words : List W32 := []
  /-- The word latched into D by the last read of S. -/
  latched : Option W32 := none
deriving DecidableEq, Repr, Inhabited

structure Rng where
  st : RngState := .reset
  cause : Nat := 0
  smp : Nat := 0
  mode : Nat := 0
  /-- Samplers, cutoffs and thresholds in use, taken over at a start-up (R325, R329). -/
  smpEn : Byte := 0xFF
  rct : Nat := 0x29
  apt : Nat := 0x31A
  biasTh : Nat := 0x800
  corrTh : Nat := 0x800
  /-- The places of RNG_RAW and of the conditioner in the PRBS of pattern mode (R338). -/
  prbs : W32 := 0x7FFFFFFF
  prbsCond : W32 := 0x7FFFFFFF
  samplers : Vector Sampler 8 := Vector.replicate 8 {}
  pool : List Bytes := []
  drbg : Vector Drbg 16 := Vector.replicate 16 {}
  waiting : List RngReq := []
  bufs : Vector RngBuf 8 := Vector.replicate 8 {}
  raw : List W32 := []
deriving DecidableEq, Repr, Inhabited

/-- A key context of the utility cipher (R339). -/
structure UciCtx where
  loaded : Bool := false
  key : Bytes := []
  slot : Nat := 0
  gen : Nat := 0
  pre : Bytes := []
  count : Nat := 0
deriving DecidableEq, Repr, Inhabited

/-- A request of one function (R341). -/
structure UciReq where
  op : Nat
  ctx : Nat
  key : Bytes
  /-- The nonce that a NONCE request returns. -/
  nonce : Bytes := []
  blocks : Nat
  src : Nat
  dst : Nat
  /-- The context was erased while the request ran (R344). -/
  erased : Bool := false
deriving DecidableEq, Repr, Inhabited

/-- A context load that waits for its prefix (R340). -/
structure UciLoad where
  ctx : Fin 4
  slot : Nat
  key : Bytes
  gen : Nat
  pre : Option Bytes := none
  erased : Bool := false
  /-- The load waits for READY or for the end of a marking phase and is not checked yet. -/
  unchecked : Bool := false
deriving DecidableEq, Repr, Inhabited

structure Uci where
  ctx : Vector UciCtx 4 := Vector.replicate 4 {}
  req : Vector (Option UciReq) 2 := Vector.replicate 2 none
  status : Vector Nat 2 := Vector.replicate 2 0
  nonce : Vector Bytes 2 := Vector.replicate 2 []
  /-- The function whose request is in service, where one is; requests alternate (R341). -/
  turn : Fin 2 := 1
  load : Option UciLoad := none
  lstatus : Nat := 0
deriving DecidableEq, Repr, Inhabited

/-! ## External memory (chapter 12) -/

inductive RgnState where
  | nokey | init | ready
deriving DecidableEq, Repr, Inhabited

/-- A memory region (R353-R356). -/
structure Region where
  st : RgnState := .nokey
  key : Bytes := []
  slot : Nat := 0
  gen : Nat := 0
  lstatus : Nat := 0
  /-- MAJ_WARN was raised since the last load (R362). -/
  warned : Bool := false
  /-- A load that waits for its context draw: slot, key, generation. -/
  load : Option (Nat × Bytes × Nat) := none
  drawn : Option Bytes := none
  /-- The slot named by a GO that waits for the end of a marking phase. -/
  unchecked : Option Nat := none
deriving DecidableEq, Repr, Inhabited

/-- Who asked for a line (Table 12-4). -/
inductive Master where
  | sac (m : Fin 4) (sax : Nat) (line : Fin 8)
  | window
  | debug
  | scrub
deriving DecidableEq, Repr

inductive MemOp where
  | read
  | write (data : Bytes)
  | part (data : Bytes) (mask : W32)
deriving DecidableEq, Repr

/-- A request to a channel controller: master, operation, memory address of the line. -/
structure MemReq where
  master : Master
  op : MemOp
  addr : Nat
  /-- The transfer of a whole context that the request is part of. -/
  wid : Nat := 0
  /-- A write's status at its acknowledgement: 1 where its line was corrected first (Table 12-5). -/
  status : Nat := 0
  /-- It arrived while its page was being rewritten: such requests of a page are served in order of arrival (R360). -/
  waited : Bool := false
deriving DecidableEq, Repr

/-- A stored line: ciphertext, tag (S[31:12]) and ECC code (S[11:0]) (R347, R358). -/
structure StoredLine where
  ct : Bytes
  tag : Nat
  ecc : Nat := 0
deriving DecidableEq, Repr, Inhabited

/-- A page rewrite: the page, the line whose write triggered it, that request and its plaintext (R360). -/
structure PageRewrite where
  page : Nat
  line : Nat
  req : MemReq
  data : Bytes
deriving DecidableEq, Repr

/-- A QDR-IV channel (R345-R352). -/
structure Channel where
  trained : Bool := false
  fail : Bool := false
  step : Nat := 0
  training : Bool := false
  /-- Requests not yet accepted, in order of arrival (R364): at most 32 of each mill (Table 1-8). -/
  queue : List MemReq := []
  /-- Requests of the mills that wait for room in their queues. -/
  waits : List MemReq := []
  /-- Reads accepted and not yet done; writes stored and not yet acknowledged. -/
  reads : List MemReq := []
  acks : List MemReq := []
  major : Tbl Nat := []
  minor : Tbl Nat := []
  poison : Tbl Bool := []
  spent : Tbl Bool := []
  lines : Tbl StoredLine := []
  /-- Page rewrites in progress, oldest first (R360). -/
  rewrites : List PageRewrite := []
  scrubPos : Nat := 0
deriving DecidableEq, Repr, Inhabited

structure Mem where
  rgn : Vector Region 8 := Vector.replicate 8 {}
  ch : Vector Channel 4 := Vector.replicate 4 {}
  /-- Memory window: busy, status of the last access (Table 12-12). -/
  winBusy : Bool := false
  winStatus : Nat := 0
  /-- MEM_ERRLOG. -/
  errValid : Bool := false
  errAddr : Nat := 0
  errStatus : Nat := 0
  errScrub : Bool := false
  errSynd : Nat := 0
  /-- Number of the next transfer of a context. -/
  nextWid : Nat := 0
deriving DecidableEq, Repr, Inhabited

/-! ## Tamper (chapter 15) -/

/-- A step of a response that waits for the evidence counter (R424, R433). -/
inductive EvJob where
  | response (rank : Nat) (srcs : BitVec 12) (thr : Bool)
  | backup
deriving DecidableEq, Repr

structure Tmp where
  firing : BitVec 12 := 0
  throttle : Bool := false
  /-- Sources that asked for THROTTLE (R425). -/
  thrSrcs : BitVec 12 := 0
  scDone : Bool := false
  holding : Bool := false
  /-- Rank of the response that executes (R423). -/
  exec : Option Nat := none
  /-- HOLD_ENGAGE is owed. -/
  holdDue : Bool := false
  evJobs : List EvJob := []
  bistBusy : Bool := false
  bistLeft : List Nat := []
  bistCur : Option Nat := none
  bistPass : BitVec 12 := 0
  bistFail : BitVec 12 := 0
  fuseWindow : Bool := false
  /-- Tick at which the window of TMP_FUSE_TGT closed: a GO on that edge is taken (R430). -/
  fuseShut : Option Nat := none
  /-- Source whose disable group is to be programmed. -/
  fusePend : Option Nat := none
  dis : Byte := 0
  logNext : Nat := 0
  logLost : Nat := 0
  /-- COUNTER_FULL has had its entry (R434). -/
  fullLogged : Bool := false
  /-- The last junction reading (Table 15-9) and the highest since the cold reset (Table 18-9), in °C, signed. -/
  temp : Byte := 0
  tempMax : Byte := 0
deriving DecidableEq, Repr, Inhabited

/-- Backup domain (R432, R433): cleared only when VBAT falls below 2.2 V. -/
structure Bkp where
  vbat : Vbat := .lost
  pending : Bool := false
  fired : Bool := false
  firedSrc : BitVec 5 := 0
  mask : BitVec 5 := 0
  /-- Thresholds last written on main power. -/
  hi : Byte := 0x73
  lo : Byte := 0xEC
deriving DecidableEq, Repr, Inhabited

/-! ## Frames (chapter 1) -/

/-- A frame inside the device and what its path has found out about it. -/
structure Frame where
  bytes : Bytes := []
  /-- True from line to client. -/
  rx : Bool := false
  /-- Ingress client port (client to line), or egress port once chosen. -/
  port : Nat := 0
  lineMill : Fin 4 := 0
  clientMill : Fin 4 := 0
  trib : Nat := 0
  /-- Client receive stamp (R275), or the instant of its rebuild (Table 6-1). -/
  stamp : Stamp := {}
  /-- Arrival reference of its sheet (R284). -/
  ref : Stamp := {}
  /-- Partition class (R203) and egress queue. -/
  cls : Nat := 0
  queue : Nat := 0
  /-- Marks of STMP (R281). -/
  tcEvent : Bool := false
  tcFollow : Bool := false
  tsCapture : Bool := false
  /-- Attached association (R151), with its ticket. -/
  att : Option Nat := none
  ticket : Nat := 0
  /-- Units charged from its delimiter, for credit (R260). -/
  units : Nat := 0
  /-- The association named at ATT was EMPTY or RETIRING (R151), or EXHAUSTED, the frame being counted already (R162). -/
  doomed : Bool := false
  refused : Bool := false
  /-- The frame was attached to a receive channel and has no SecTAG that names an AN (R148). -/
  badTag : Bool := false
  /-- Ingress priority (R258). -/
  pri : Nat := 0
deriving DecidableEq, Repr, Inhabited

/-! ## The line (chapter 2) -/

inductive LaneSync where
  | hunt | presync1 | presync2 | sync
deriving DecidableEq, Repr, Inhabited

/-- A receive lane of a line group (Table 2-9, Table 3-6). -/
structure RxLane where
  st : LaneSync := .hunt
  lsc : Nat := 0
  lane : Nat := 0
  count : Nat := 0
  misses : Nat := 0
  /-- Arrival of the last marker position, in 1/64 ns. -/
  arrival : Nat := 0
  locw : Bool := true
  lol : Bool := true
  /-- The last marker position judged did not match. -/
  missed : Bool := false
  /-- Shed receive lane: hold-off running, READY (R111). -/
  holdoff : Bool := false
  ready : Bool := false
deriving DecidableEq, Repr, Inhabited

/-- Group defects (Table 2-12). -/
structure Defects where
  loa : Bool := true
  skew : Bool := false
  auth : Bool := false
  keyless : Bool := false
  wm : Bool := false
  dlgf : Bool := false
  verf : Bool := false
  feRdi : Bool := false
  feRaf : Bool := false
  feRwm : Bool := false
  feRkl : Bool := false
  feLane : Bool := false
deriving DecidableEq, Repr, Inhabited

/-- Consecutive runs that declare and clear the defects. -/
structure Runs where
  authFail : Nat := 0
  authOk : Nat := 0
  unkeyed : Nat := 0
  keyed : Nat := 0
  wmBad : Nat := 0
  wmGood : Nat := 0
  skewOk : Nat := 0
  /-- LSC of the marker position at which skew was last judged (R78). -/
  skewAt : Option Nat := none
  /-- FE_RDI, FE_RAF, FE_RWM, FE_RKL, FE_LANE: overheads with the bit set, and clear, in a row. -/
  feSet : Vector Nat 5 := Vector.replicate 5 0
  feClr : Vector Nat 5 := Vector.replicate 5 0
  /-- The LKN of the last failing sheet (R140). -/
  lastFail : Nat := 0
deriving DecidableEq, Repr, Inhabited

/-- Rebuild of one tributary's frames (Table 2-4). -/
structure Rebuild where
  inStream : Bool := false
  /-- A delimiter is due at data byte 0 of the next cell. -/
  due : Bool := true
  /-- First byte of a delimiter that crosses a cell boundary. -/
  half : Option Byte := none
  /-- Bytes still missing of the open frame, and those collected. -/
  need : Nat := 0
  acc : Bytes := []
  stamp : Stamp := {}
  /-- Units charged when its delimiter was read (R260). -/
  units : Nat := 0
deriving DecidableEq, Repr, Inhabited

inductive Neg where
  | down | offer | confirm | agreed | failed
deriving DecidableEq, Repr, Inhabited

/-- What the device itself sends in the dialogue (R90, R113, R139). -/
inductive OwnMsg where
  | hello | confirm (v : Nat) (session : W32) | verchk | seqUpper (k : Fin 4) | seqQuery (k : Fin 4)
  | laneReady (j : Fin 8) | laneUnready (j : Fin 8)
deriving DecidableEq, Repr

/-- The message outstanding in the transmit direction (R86, R87). -/
structure DlgOut where
  own : Option OwnMsg
  /-- TYPE, LEN, body and CRC. -/
  bytes : Bytes
  mseq : Nat
  /-- Next fragment to send; past the last one the acknowledgement is awaited. -/
  frag : Nat := 0
  sends : Nat := 1
  /-- Sheet periods since the last fragment. -/
  wait : Nat := 0
deriving DecidableEq, Repr, Inhabited

/-- A message taken by the deframer, waiting for its handling (R86, R138). -/
structure DlgIn where
  type : Byte
  body : Bytes
  /-- SEQ_LO of the sheet it came from, for SEQ_UPPER (Table 4-6). -/
  seqLo : Nat := 0
deriving DecidableEq, Repr, Inhabited

structure Dlg where
  mseqNext : Nat := 0
  out : Option DlgOut := none
  /-- Own messages in order of origin (R139). -/
  queue : List OwnMsg := []
  /-- The host message latched by SEND (R89). -/
  host : Option Bytes := none
  lastTaken : Option Nat := none
  rxMseq : Nat := 0
  rxFrags : Nat := 0
  rxBytes : Bytes := []
  inbox : List DlgIn := []
  rxbuf : Bytes := []
  neg : Neg := .down
  ver : Nat := 0
  /-- Version that takes effect at the next ream boundary (Table 2-14). -/
  verNext : Option Nat := none
  session : W32 := 0
  /-- A HELLO waits for its session number (R336). -/
  helloWait : Bool := false
  farSession : Option W32 := none
  farMin : Nat := 0
  farMax : Nat := 0
  /-- VMIN and VMAX of the HELLO last sent. -/
  ownMin : Nat := 1
  ownMax : Nat := 3
  verchkSent : Bool := false
  /-- ACKSEQ of the last accepted overhead, where its ACKV was 1. -/
  ackIn : Option Nat := none
deriving DecidableEq, Repr, Inhabited

/-- The transmit chain of a line lane (R70): the last 58 bits scrambled, and the bits of the message not yet full. -/
structure WireTx where
  scr : Nat := 0
  pend : Nat := 0
  bits : Nat := 0
deriving DecidableEq, Repr, Inhabited

/-- Framer and deframer of a mill (chapter 2). -/
structure Line where
  /-- A ream is in progress at the framer; its count, its next sheet, the line sheet count (R50, R51). -/
  inReam : Bool := false
  begun : Bool := false
  rc : W32 := 0
  idx : Nat := 0
  lsc : W32 := 0
  /-- LANE_USE in force, and whether a host write awaits the ream boundary (R106). -/
  laneUse : Byte := 0xFF
  laneUseDue : Bool := false
  /-- Lanes of the ream in progress (ACTIVE). -/
  lanesTx : Nat := 8
  /-- Departure stamps of the last 256 reams by REAM_TAG (R61). -/
  t1 : Tbl Stamp := []
  /-- LANE 0 marker stamps of the ream in progress and those before, newest first: three transmitted, four received (R280). -/
  txMarks : List Stamp := []
  rxMarks : List Stamp := []
  echoReam : Nat := 0
  echoTurn : Nat := 0
  /-- The latest far ream with marker arrival and tag, and local reams begun since it qualified (R60). -/
  far : Option (Nat × Stamp) := none
  farAge : Nat := 0
  /-- First LSC of the far ream from which an echo was last taken (R61). -/
  echoTaken : Option W32 := none
  /-- Watermark strings in use, latched at WM_POS 0 (Table 2-19). -/
  wmSend : Bytes := List.replicate 64 0
  wmExpect : Bytes := List.replicate 64 0
  wmRecv : Bytes := List.replicate 64 0
  /-- Cycle of 64 sheets that is being received (R80). -/
  wmCycle : Option Nat := none
  wmSeen : Nat := 0
  wmWrong : Bool := false
  lanes : Vector RxLane 8 := Vector.replicate 8 {}
  aligned : Bool := false
  everAligned : Bool := false
  /-- LSC of the next sheet the deframer releases, and of the last one released (R79). -/
  rxNext : W32 := 0
  rxLast : Option W32 := none
  outage : Nat := 0
  defects : Defects := {}
  runs : Runs := {}
  rebuild : Tbl Rebuild := []
  feLaneMap : Byte := 0
  dlg : Dlg := {}
  /-- Tributaries moved away whose stream here is still to be ended by an END cell (R56). -/
  ends : List Nat := []
  wire : Vector WireTx 8 := Vector.replicate 8 {}
deriving DecidableEq, Repr, Inhabited

/-! ## Deckle (chapter 3) -/

/-- Why a page change is armed (Table 3-3). -/
inductive ArmKind where
  | flip | shed (j : Fin 8) | restore (j : Fin 8)
deriving DecidableEq, Repr

structure PageArm where
  kind : ArmKind
  rcF : W32
  /-- None for an automatic shed or restore. -/
  ref : Option CmdRef
  late : Bool
deriving DecidableEq, Repr

/-- What a validation of the standby page is for (R98). -/
inductive ValFor where
  | flip (ref : CmdRef) (target : Option W32)
  | shed (ref : CmdRef) (j : Fin 8) (target : Option W32)
  | restore (ref : Option CmdRef) (j : Fin 8) (target : Option W32)
  | shedReady (ref : CmdRef)
deriving DecidableEq, Repr

/-- A DKWRITE transfer in progress (R97): first entry, count, buffer, attributes to set. -/
structure Transfer where
  ref : CmdRef
  start : Nat
  count : Nat
  addr : Nat
  lanes : Option Nat
  shedReady : Option Bool
deriving DecidableEq, Repr

structure Deckle where
  /-- Entries of pages A and B; an unlisted entry reads 0x3FFF (R96). -/
  pageA : Tbl W16 := []
  pageB : Tbl W16 := []
  lanesA : Nat := 8
  lanesB : Nat := 8
  readyA : Bool := false
  readyB : Bool := false
  /-- False: page A active. -/
  activeB : Bool := false
  clearing : Bool := true
  transfer : Option Transfer := none
  validating : Option ValFor := none
  arm : Option PageArm := none
  armRc : W32 := 0
  flipCd : Nat := 0
  shedFlag : Bool := false
  valIndex : Nat := 0
  valCause : Nat := 0
  farPage : Bool := false
  farCd : Nat := 0
  farShed : Bool := false
  txMap : Byte := 0
  rxMap : Byte := 0
  /-- Far lanes announced ready by LANE_READY and not withdrawn (R110). -/
  farReady : Byte := 0
deriving DecidableEq, Repr, Inhabited

/-! ## Line cipher (chapter 4) -/

inductive TxRole where
  | idle | armed | current | done
deriving DecidableEq, Repr, Inhabited

inductive SeqTrack where
  | track | resync | trial (base : Nat) (count : Nat)
deriving DecidableEq, Repr, Inhabited

/-- A line key number (R123). -/
structure Lkn where
  loaded : Bool := false
  key : Bytes := []
  salt : Nat := 0
  chid : Nat := 0
  slot : Nat := 0
  gen : Nat := 0
  rx : Bool := false
  tx : TxRole := .idle
  sh : Nat := 0
  seq : Nat := 1
  softDone : Bool := false
  /-- A sheet under it has been accepted since its RXON (RX_FIRST). -/
  rxSeen : Bool := false
  track : SeqTrack := .track
  /-- The HALTs that mark it to stop at the next ream boundary. -/
  halts : List CmdRef := []
deriving DecidableEq, Repr, Inhabited

/-- A pending arm of a line key change (R130). -/
structure KeyArm where
  lkn : Fin 4
  /-- None for an arm that the standby copied. -/
  ref : Option CmdRef
  /-- By time: the target in time base units; by ream: none. -/
  time : Option Nat
  late : Bool
deriving DecidableEq, Repr

structure Lci where
  lkn : Vector Lkn 4 := Vector.replicate 4 {}
  arm : Option KeyArm := none
  armRc : W32 := 0
  rxLast : Nat := 0
deriving DecidableEq, Repr, Inhabited

/-! ## Frame cipher, SA cache and catalogue (chapter 5) -/

inductive SaState where
  | empty | installed | retiring | orphaned | faulted | exhausted
deriving DecidableEq, Repr, Inhabited

/-- An SA directory entry (Table 5-3). -/
structure SaDir where
  st : SaState := .empty
  cached : Bool := false
  pinned : Bool := false
  thresh : Bool := false
  parent : Nat := 0
deriving DecidableEq, Repr, Inhabited

/-- An SC table entry (Table 5-2). -/
structure Sc where
  valid : Bool := false
  rx : Bool := false
  mill : Fin 4 := 0
  txAn : Nat := 0
deriving DecidableEq, Repr, Inhabited

/-- A way of an SA cache: a context that is resident, or a fetch that fills it (R161, R162). -/
structure Way where
  sax : Nat
  /-- The 256 bytes of Table 5-4, and whether it has carried a frame since its fill (R164). -/
  ctx : Bytes
  used : Bool := false
  filling : Bool := false
deriving DecidableEq, Repr, Inhabited

/-- A fetch in progress: its transfer, lines received so far, and the first failing status (R165). -/
structure Fetch where
  sax : Nat
  wid : Nat := 0
  /-- It has been counted as a page stall (R168). -/
  stalled : Bool := false
  /-- The context as an instruction changed it while the fetch was under way (R156); empty: none did. -/
  newer : Bytes := []
  lines : Tbl Bytes := []
  bad : Nat := 0
  done : Nat := 0
deriving DecidableEq, Repr, Inhabited

/-- A context in the victim buffer, and the acknowledgements of its 8 line writes (R163). -/
structure Victim where
  sax : Nat
  ctx : Bytes
  wid : Nat := 0
  acked : Nat := 0
  refused : Bool := false
  /-- The write-back is the last one of a retiring SA (R156). -/
  retire : Bool := false
deriving DecidableEq, Repr, Inhabited

/-- A fill that has not begun (R162, R164): it holds a miss queue entry, or waits for one or for the victim buffer's context to get a
way; an `ATT` waits behind it that is counted when its kind is known. -/
structure FillWait where
  sax : Nat
  entry : Bool := true
  att : Bool := false
deriving DecidableEq, Repr

/-- A retire that waits for its last frame (R156): where the counters go, and whether they were lost with the context (R165). -/
structure Retire where
  ref : CmdRef
  sax : Nat
  addr : Nat
  lost : Bool := false
deriving DecidableEq, Repr

/-- Frame cipher and SA cache of a mill. -/
structure Sac where
  /-- Ways, key 8·set + way. -/
  ways : Tbl (Option Way) := []
  /-- Tree pseudo-LRU bits of each set. -/
  plru : Tbl (BitVec 7) := []
  fetches : List Fetch := []
  /-- Fills that wait (R162, R164). -/
  fillWait : List FillWait := []
  /-- Refused frames whose SA's context is not resident, to be counted in it when it is (R162). -/
  refusals : Tbl Nat := []
  victims : List Victim := []
  /-- Whole-context writes of SAINST and of a retire's zeros, on their way to the catalogue (R156). -/
  writes : List Victim := []
  /-- Frames attached and waiting for the cipher, in ticket order (R166). -/
  cipherQ : List Frame := []
  nextTicket : Nat := 0
  /-- Pins that wait until their context is resident (R156). -/
  pins : List (CmdRef × Nat) := []
  retires : List Retire := []
  /-- Threshold FIFO and its overflow (Table 5-15). -/
  thFifo : List Nat := []
  thOvf : Bool := false
  faultValid : Bool := false
  faultSax : Nat := 0
  faultCause : Nat := 0
deriving DecidableEq, Repr, Inhabited

/-! ## Scheduler, buffers and tributaries (chapter 8, chapter 1) -/

/-- A two-rate token bucket pair (R240, R245, R248). Tokens in 1/2,000,000 byte, so that 1 kb/s adds one unit in 4 ns
(DESIGN CHOICE, log entry 22);
`at` is the tick up to which tokens are counted. -/
structure Buckets where
  cir : Nat := 0
  cbs : Nat := 0
  pir : Nat := 0
  pbs : Nat := 0
  adj : Int := 0
  tc : Int := 0
  tp : Int := 0
  tick : Nat := 0
deriving DecidableEq, Repr, Inhabited

/-- A frame that has begun in its tributary stream: bytes of delimiter and frame still to send (R55). -/
structure Stream where
  left : Bytes := []
  units : Nat := 0
  port : Nat := 0
  pri : Nat := 0
  /-- Cells built since the last cell with a tag of START (R57). -/
  cells : Nat := 0
  /-- Length of the frame, without its delimiter. -/
  len : Nat := 0
  /-- The last cell sent did not carry END: the receiver is in the stream (R55, R56). -/
  going : Bool := false
deriving DecidableEq, Repr, Inhabited

/-- A frame waiting in a queue of the packet buffer, with its units and ingress priority (R230, R258). -/
structure Queued where
  f : Frame
  units : Nat
  pri : Nat
deriving DecidableEq, Repr, Inhabited

/-- A tributary (R21, R22, R249). -/
structure Trib where
  active : Bool := false
  mill : Fin 4 := 0
  /-- Pool class, when it has one. -/
  pool : Option (Fin 8) := none
  /-- Receive route: the client mill. -/
  route : Option (Fin 4) := none
  quantum : Nat := 64
  qlim : Nat := 1
  grant : Nat := 0
  queue : List Queued := []
  occ : Nat := 0
  stream : Stream := {}
  /-- The QCFG move that has not completed (R37-R40); the old line mill's side of it stands in `State.tribOld`. -/
  move : Option CmdRef := none
  /-- Deficit round robin (R234-R237). -/
  deficit : Int := 0
  round : W32 := 0
  fresh : Bool := false
  /-- The list it stands in: 0-7 committed, 8-15 excess of class 0-7. -/
  list : Option (Fin 16) := none
  slept : Option (Fin 16 × W32) := none
  shEn : Bool := false
  sh : Buckets := {}
  /-- Credit, transmit side: SENT, COUNT, tick of the last cell built (R259, R262). -/
  sent : W16 := 0
  count : W16 := 0
  lastCell : Nat := 0
  /-- Credit, receive side: cumulative COUNT, units held, sheets since its last entry (R260, R261). -/
  rxCount : W16 := 0
  held : Nat := 0
  lastEntry : Nat := 0
deriving DecidableEq, Repr, Inhabited

/-- A policer (R245-R248). Actions 0 PASS, 1 DROP, 2 CLASS. -/
structure Policer where
  en : Bool := false
  aware : Bool := false
  yellow : Nat := 0
  yellowCls : Nat := 0
  red : Nat := 0
  redCls : Nat := 0
  b : Buckets := {}
deriving DecidableEq, Repr, Inhabited

/-- A gate list (R252-R254): start and cycle in ns, entries (interval, gate states). -/
structure GateList where
  tb : Fin 8 := 0
  base : Nat := 0
  cycle : Nat := 1000
  entries : List (Nat × Byte) := []
deriving DecidableEq, Repr, Inhabited

/-- A client port: MAC and egress side. -/
structure Port where
  /-- Frames that the MAC holds back while the dispatch queues are full, oldest first (R203). -/
  hold : List Frame := []
  queues : Vector (List Queued) 8 := Vector.replicate 8 []
  sending : Option Queued := none
  paused : Byte := 0
  /-- Priorities for which an XOFF was sent (bit 0 for PAUSE mode). -/
  xoff : Byte := 0
  /-- Units held in transmit partitions by ingress priority (R258). -/
  held : Vector Nat 8 := Vector.replicate 8 0
  oper : Option GateList := none
  pend : Option GateList := none
  admin : Option GateList := none
  entry : Nat := 0
deriving DecidableEq, Repr, Inhabited

structure Sch where
  txUsed : Nat := 0
  egUsed : Nat := 0
  /-- Service lists, index 0-7 committed and 8-15 excess of class 0-7, with their virtual rounds. -/
  lists : Vector (List Nat) 16 := Vector.replicate 16 []
  vr : Vector W32 16 := Vector.replicate 16 0
  policers : Tbl Policer := []
  /-- Credit tributaries whose COUNT changed, oldest change first; keepalive pointer; sheets sent (R261). -/
  creditQ : List Nat := []
  keepPtr : Nat := 0
  sheets : Nat := 0
  /-- Headbox staging towards each other mill, and the rebuild output queue (R35). -/
  staging : Vector (List Queued) 4 := Vector.replicate 4 []
  rebuilt : List Frame := []
deriving DecidableEq, Repr, Inhabited

/-! ## Vat (chapter 6) -/

/-- Why a thread waits. -/
inductive VatWait where
  | none
  /-- An ATT of secure channel `scx` has not been answered; `stalled`: for want of room in the SA cache (R162). -/
  | att (scx : Nat) (stalled : Bool) (pc : W14)
deriving DecidableEq, Repr, Inhabited

/-- A request of a thread to a unit (R188, R190, R194, R245). -/
inductive VatReq where
  | hash (rd pd table : Nat) (key : Bytes) (pc : W14)
  | tcam (rd pd part : Nat) (key : Bytes) (pc : W14)
  | pol (rd n : Nat) (pc : W14)
deriving DecidableEq, Repr

/-- How a thread's frame ends, while owed responses are awaited (R197). -/
inductive VatEnd where
  | enq (q : Nat) | punt (q reason cause : Nat)
deriving DecidableEq, Repr

/-- A hardware thread of a vat engine (R172-R189). -/
structure Thread where
  busy : Bool := false
  /-- The frame; its first 256 bytes are the window (R178). -/
  frame : Frame := {}
  pc : W14 := 0
  g : Vector W64 16 := Vector.replicate 16 0
  p : BitVec 8 := 0
  stack : List W14 := []
  issued : Nat := 0
  /-- The thread is in its trap handler; cause and address of what it handles (R200). -/
  inTrap : Bool := false
  cause : Nat := 0
  trapPc : W14 := 0
  /-- The tick at which it entered the handler, until the handler issues (R202). -/
  trapAt : Option Nat := none
  /-- The tick of its dispatch (Table 6-1, CYCLES). -/
  since : Nat := 0
  wait : VatWait := .none
  reqs : List VatReq := []
  /-- An `ATT` was executed; `POL`s executed, colour returned first, class set by the last CLASS action (R188, R246). -/
  attUsed : Bool := false
  polCount : Nat := 0
  lastColour : Option Nat := none
  polCls : Option Nat := none
  cls : Option Nat := none
  trib : Option Nat := none
  ended : Option VatEnd := none
  /-- Parser results and other special registers fixed at dispatch, by index (Table 6-1). -/
  desc : Tbl Nat := []
  /-- Place in the order of dispatch (R174). -/
  seq : Nat := 0
  winWritten : Bool := false
deriving DecidableEq, Repr, Inhabited

/-- An operation of the hash or TCAM window (R193, R195). -/
structure WinOp where
  write : Bool
  entry : Nat
deriving DecidableEq, Repr

/-- A punt record waiting for its queue (R229). -/
structure Punt where
  frame : Frame
  reason : Nat
  /-- TRAP_CAUSE of a default-action punt, otherwise 0. -/
  cause : Nat := 0
deriving DecidableEq, Repr, Inhabited

structure Vat where
  threads : Tbl Thread := []
  /-- Frames waiting for a thread, oldest first, each with the cluster in whose dispatch queue it stands (R173, Table 1-8). -/
  disp : List (Fin 8 × Frame) := []
  /-- Cluster that was given the last frame; frames dispatched so far (R173, R174). -/
  rr : Nat := 7
  nextSeq : Nat := 0
  /-- Thread that issued last, by engine 8·cluster + engine (R172); unlisted: thread 3. -/
  issuer : Tbl Nat := []
  /-- Program memory parcels, key 16384·cluster + address (R175). -/
  prog : Tbl W14 := []
  /-- Scratch bytes, key 8192·(8·cluster + engine) + address (R180). -/
  scratch : Tbl Byte := []
  /-- Cluster run state: 0 stopped, 1 running, 2 draining; generations (R204, R205). -/
  run : Vector Nat 8 := Vector.replicate 8 0
  gen : Vector Nat 8 := Vector.replicate 8 0
  hash : Tbl Bytes := []
  tcam : Tbl Bytes := []
  hashOp : Option WinOp := none
  tcamOp : Option WinOp := none
  excValid : Bool := false
  excWord : Nat := 0
  punts : Vector (List Punt) 8 := Vector.replicate 8 []
deriving DecidableEq, Repr, Inhabited

/-! ## Lanes (chapter 13) -/

inductive RxState where
  | disabled | waitSig | cdr | fastCheck | adapt | track
deriving DecidableEq, Repr, Inhabited

/-- A serial lane (Table 13-3, Table 13-9). -/
structure Lane where
  st : RxState := .disabled
  sigDet : Bool := false
  txIdle : Bool := true
  /-- The training burst runs (R376). -/
  burst : Bool := false
  /-- The lane's PLL has lost lock (Table 13-2). -/
  unlocked : Bool := false
  /-- Saved equaliser settings are valid (R381). -/
  saved : Bool := false
  fom : Byte := 0
  /-- Windows in a row below FOM_MIN in TRACK; at or above it, converged, in ADAPT. -/
  low : Nat := 0
  good : Nat := 0
  eyeBusy : Bool := false
  eyeDone : Bool := false
  eyeAbort : Bool := false
  eyeErr : W32 := 0
  prbsLock : Bool := false
  prbsErr : Nat := 0
deriving DecidableEq, Repr, Inhabited

inductive FeltSync where
  | loss | acq | sync
deriving DecidableEq, Repr, Inhabited

/-- A felt lane's character sync and deskew (Table 13-7, R389). -/
structure FeltLane where
  st : FeltSync := .loss
  commas : Nat := 0
  errs : Nat := 0
  valid : Nat := 0
  /-- Characters delivered and not yet deskewed. -/
  fifo : List FeltChar := []
  /-- Characters since the last ALN, and ALN expected positions missed in a row. -/
  sinceAln : Nat := 0
  seenAln : Bool := false
  missed : Nat := 0
deriving DecidableEq, Repr, Inhabited

/-- Felt link: deskew, frame assembly and what waits for the mate logic. -/
structure Felt where
  lanes : Vector FeltLane 4 := Vector.replicate 4 {}
  up : Bool := false
  aligned : Bool := false
  skew : Nat := 0
  inFrame : Bool := false
  bad : Bool := false
  acc : Bytes := []
  /-- Frames accepted by the link layer, oldest first. -/
  inbox : List Bytes := []
deriving DecidableEq, Repr, Inhabited

/-! ## Mate (chapter 14) -/

inductive MState where
  | unpaired | pairing | sync | standby | taking | active | released
deriving DecidableEq, Repr, Inhabited

inductive Interlock where
  | off | claim | granted | releasing
deriving DecidableEq, Repr, Inhabited

/-- One state change carried by DELTA and SNAP frames (Table 14-5; their bytes: log entry 77). -/
inductive Delta where
  | sa (sax : Nat) (d : SaDir) (ctx : Bytes)
  | sc (scx : Nat) (v : Sc)
  | lkn (m : Fin 4) (k : Fin 4) (v : Lkn)
  | keyArm (m : Fin 4) (v : Option (Fin 4 × Option W32 × Option Nat))
  | entries (m : Fin 4) (pageB : Bool) (start : Nat) (es : List W16)
  | attrs (m : Fin 4) (pageB : Bool) (lanes : Nat) (ready : Bool)
  | pageArm (m : Fin 4) (activeB : Bool) (v : Option (ArmKind × W32))
  | trib (n : Nat) (active : Bool) (mill : Fin 4) (pool : Option (Fin 8)) (route : Option (Fin 4)) (quantum qlim grant : Nat)
  | shaper (n : Nat) (en : Bool) (b : Buckets)
  | policer (m : Fin 4) (n : Nat) (v : Policer)
  | gate (p : Fin 32) (admin pend oper : Option GateList)
  | trig (k : Fin 8) (v : Trig)
  | servo (b : Fin 8) (v : TimeBase)
  | tko (gen : W16)
deriving DecidableEq, Repr

/-- What the standby knows of the active's transmit side, per mill (R406, R409). -/
structure Follow where
  valid : Bool := false
  lsc : W32 := 0
  seq : Nat := 0
  lkn : Nat := 0
  mism : Nat := 0
  peerDef : BitVec 12 := 0
deriving DecidableEq, Repr, Inhabited

/-- A far sheet's receive part, by RX_LSC (Table 14-6): accepted, LKN, digest. -/
structure RxRec where
  lsc : W32
  accepted : Bool
  lkn : Nat
  dig : W32
deriving DecidableEq, Repr, Inhabited

structure Mte where
  st : MState := .unpaired
  lock : Interlock := .off
  timer : Bool := false
  cause : Nat := 0
  pairErr : Nat := 0
  ver : Nat := 0
  silent : Bool := true
  epoch : W32 := 0
  tko : W16 := 0
  nonce : Option Bytes := none
  nonceWait : Bool := false
  peerNonce : Option Bytes := none
  peerSide : Bool := false
  peerGrant : Bool := false
  peerEpoch : W32 := 0
  peerTko : W16 := 0
  confirmed : Bool := false
  key : Option Bytes := none
  fseqTx : Nat := 1
  fseqRx : Nat := 0
  dseq : W32 := 0
  /-- Highest DSEQ acknowledged by the standby. -/
  dacked : W32 := 0
  /-- Highest DSEQ received in order (R407). -/
  rxDseq : W32 := 0
  snaps : Nat := 0
  /-- DELTAs that wait for their ream at the followed framer: DSEQ, mill, ream count (R407). -/
  held : List (W32 × Fin 4 × W32 × Delta) := []
  synced : Bool := false
  fresh : Bool := false
  selftestOk : Bool := false
  selftesting : Bool := false
  /-- The pass that runs was begun by MTE_CMD.SELFTEST (R411). -/
  passByCmd : Bool := false
  /-- A self-test has failed since the last pass (row 1 of Table 14-8). -/
  testFailed : Bool := false
  oneSided : Tbl Bool := []
  diverged : Bool := false
  peerHealth : W32 := 0
  follow : Vector Follow 4 := Vector.replicate 4 {}
  /-- Receive records not yet reported (active), or kept for comparison (standby), per mill. -/
  rxRecs : Vector (List RxRec) 4 := Vector.replicate 4 []
  /-- The active's records of far sheets that this device has not released yet, per mill (R409). -/
  peerRecs : Vector (List RxRec) 4 := Vector.replicate 4 []
  aGood : Bool := false
  bGood : Bool := false
  cmdStatus : Nat := 0
  /-- One-way felt delay measured at pairing, in ticks, and the tick at which HELLO was sent (R408). -/
  feltDelay : Nat := 0
  helloTick : Nat := 0
  /-- Readings of TB0 to TB7 at the last HB slot received, and sent (R408). -/
  hbVals : List Nat := []
  hbOutVals : List Nat := []
  /-- A self-test pass completed since SYNC. -/
  passSinceSync : Bool := false
  /-- Ticks of the last HB slot or valid frame, and of the last authenticated frame: a timeout on that edge is not taken
  (R8, R400, R411). -/
  heardAt : Option Nat := none
  freshAt : Option Nat := none
deriving DecidableEq, Repr, Inhabited

/-! ## Curator engines and rings (chapter 7) -/

/-- A fetched descriptor: its ring index and its 128 bytes (16 for a punt ring). -/
structure Desc where
  index : Nat
  raw : Bytes
deriving DecidableEq, Repr, Inhabited

/-- A completion record that waits to be written (R213, R217). -/
structure Rec where
  tag : W32
  status : Byte
  late : Bool := false
  stepped : Bool := false
  index : Nat
  result : W64 := 0
  irq : Bool := false
  /-- The DELTA that must be acknowledged first (R407). -/
  dseq : Option W32 := none
deriving DecidableEq, Repr, Inhabited

/-- What holds a ring (R209): WAITT or FENCE. -/
inductive Hold where
  | time (ref : CmdRef) (tb : Fin 8) (target : Nat) (maxWait : Bool) (steps : Int)
  | ream (ref : CmdRef) (target : W32) (maxWait : Bool)
  | fence (ref : CmdRef) (awaited : List CmdRef)
deriving DecidableEq, Repr

structure Ring where
  en : Bool := false
  prod : W16 := 0
  cons : W16 := 0
  cqHead : W16 := 0
  cqTail : W16 := 0
  phase : Bool := true
  halt : Bool := false
  dbErr : Bool := false
  fetched : List Desc := []
  done : List Rec := []
  hold : Option Hold := none
  /-- The head instruction waits in CHECK for READY or the end of a marking phase (R307, R310). -/
  waiting : Bool := false
  /-- A function-level reset has taken the records of the instructions still outstanding (R439). -/
  mute : Bool := false
deriving DecidableEq, Repr, Inhabited

/-- An instruction whose DP effect the mill has not reported yet (R208). -/
structure Applying where
  ref : CmdRef
  late : Bool := false
  result : W64 := 0
  dseq : Option W32 := none
deriving DecidableEq, Repr

structure Engine where
  rings : Vector Ring 12 := Vector.replicate 12 {}
  applying : List Applying := []
  /-- Instructions accepted and not DONE (APPLYING or PENDING). -/
  outst : List CmdRef := []
  /-- Ring served last (R209). -/
  rr : Nat := 0
deriving DecidableEq, Repr, Inhabited

/-! ## The device -/

/-- One mill (R19). -/
structure Mill where
  line : Line := {}
  dkl : Deckle := {}
  lci : Lci := {}
  sac : Sac := {}
  vat : Vat := {}
  sch : Sch := {}
  ports : Vector Port 8 := Vector.replicate 8 {}
deriving DecidableEq, Repr, Inhabited

structure State where
  /-- Commands waiting, first in first out. -/
  pending : List Instr := []
  /-- TIM cycles (4 ns) since power-on: the model's own field. -/
  now : Nat := 0
  /-- Counts the free values drawn: the model's own field. -/
  free : Nat := 0
  /-- What has left the die, newest first: the model's own field. -/
  out : List Out := []
  /-- Registers by BAR0 offset: settings, sticky bits, staging words (R14, R471). An unlisted one has its reset value. -/
  regs : Tbl W32 := []
  /-- Complements of the shadow-inverted registers (R431), as differences from the register: none listed, all agree. -/
  shadow : Tbl W32 := []
  rst : Rst := {}
  hst : Hst := {}
  pads : Pads := {}
  pmc : Pmc := {}
  evr : Evr := {}
  tim : Tim := {}
  otp : Otp := {}
  /-- MTP bytes; an unwritten byte reads 0xFF (R435; DESIGN CHOICE, log entry 10). -/
  mtp : List Host.Cell := []
  kst : Kst := {}
  rng : Rng := {}
  uci : Uci := {}
  mem : Mem := {}
  tmp : Tmp := {}
  bkp : Bkp := {}
  mills : Vector Mill 4 := Vector.replicate 4 {}
  trib : Tbl Trib := []
  /-- The old line mill's side of a tributary that is being moved (R38). -/
  tribOld : Tbl Trib := []
  sc : Tbl Sc := []
  sa : Tbl SaDir := []
  /-- Round-robin pointers of the headbox, key 3·output + kind (R31). -/
  hbxRr : Vector Nat 12 := Vector.replicate 12 0
  cur : Vector Engine 4 := Vector.replicate 4 {}
  /-- Lanes: 0-31 client, 32-63 line, 64-67 felt. -/
  lanes : Vector Lane 68 := Vector.replicate 68 {}
  felt : Felt := {}
  mte : Mte := {}
deriving DecidableEq, Repr, Inhabited

/-- The machine right after a power-on reset: every domain held, the part as shipped (life cycle FACTORY, R322).
DESIGN CHOICE, log entries 6 and 7: the part, its identity, and what has no register and no stated reset value. -/
def State.reset : State := {}

end Sys2Proof.Machine
end

