-- ==== Sys2Proof/Config.lean ====
section
/-! DEFINITION. What the spec leaves open: constants without a body, of which nothing can be proved but that they are
what they are (free values), applied to what they depend on or to the counter `State.free`. -/

namespace Sys2Proof.Config

open Sys2Proof.Machine

/-- The SRC nibble of a recorder record whose block has no source code in Table 17-1 (R461; DESIGN CHOICE, log entry 102). -/
opaque recSrc : Byte → Byte

/-- Where a VAT edge stands against the TIM edges around it (R181): the CYCLES special register counts VAT cycles, six to a TIM cycle,
and this model resolves TIM cycles (DESIGN CHOICE, log entry 12). -/
opaque vatPhase : Nat → Nat

/-- The conditioner's fixed design key (R326), which the spec does not print (DESIGN CHOICE, log entry 65). -/
opaque conditionerKey : Bytes

/-- The bytes of a state change in a DELTA frame (with the mill and ream count of a ream boundary), and of a block of the bulk
copy (R401, Table 14-3: not laid out; DESIGN CHOICE, log entry 77). -/
opaque encodeDelta : Option (Fin 4 × W32) → Delta → Bytes
opaque decodeDelta : Bytes → Option (Option (Fin 4 × W32) × Delta)
opaque encodeSnap : List Delta → Bytes
opaque decodeSnap : Bytes → List Delta

/-- Bytes written where the source and destination of a utility cipher request overlap (R341: undefined; DESIGN CHOICE,
log entry 66). -/
opaque uciOverlap : Nat → Bytes

/-- A reading that the spec leaves without a value (link speed, a tie; DESIGN CHOICE, log entry 11). -/
opaque freeNat : Nat → Nat

/-- The whole number that stands for a quantity for which the spec gives a unit and no rounding (DESIGN CHOICE,
log entry 11). -/
opaque openRound : Rat → Int

/-- What the position of a stamped symbol in its codeword, and alignment markers, add to a stamp (R276: not given), in 2^-40 ns
(DESIGN CHOICE, log entry 115). -/
opaque fecPosition : Nat → Int

/-- What the SRAM of a channel holds at a channel line address of no keyed region (R348: any bits). -/
opaque sramLine : Fin 4 → Nat → StoredLine

/-- The source address of the MAC control frames that client port `p` sends (R258: not given; DESIGN CHOICE,
log entry 15). -/
opaque macAddr : Nat → Bytes

/-- The junction reading at a cycle of the TIM clock (Table 15-9): an input that no command carries (DESIGN CHOICE,
log entry 3). -/
opaque junction : Nat → Byte

end Sys2Proof.Config
end

