-- ==== Sys2Proof/Machine/Regs.lean ====
section
/-! DEFINITION. The register file: addresses in BAR0 (Tables 18-2, 18-3), reset values, and field access. -/

namespace Sys2Proof.Machine

/-! ## Addresses -/

def Reg.mill (m : Nat) : Nat := 0x1000000 + m * 0x1000000
def Reg.lnf (m o : Nat) : Nat := Reg.mill m + o
def Reg.lci (m o : Nat) : Nat := Reg.mill m + 0x10000 + o
def Reg.fci (m o : Nat) : Nat := Reg.mill m + 0x20000 + o
def Reg.sch (m o : Nat) : Nat := Reg.mill m + 0x30000 + o
def Reg.mac (m o : Nat) : Nat := Reg.mill m + 0x40000 + o
def Reg.dkl (m o : Nat) : Nat := Reg.mill m + 0x100000 + o
def Reg.sac (m o : Nat) : Nat := Reg.mill m + 0x200000 + o
def Reg.vat (m o : Nat) : Nat := Reg.mill m + 0x300000 + o
def Reg.hst (o : Nat) : Nat := 0x10000 + o
def Reg.tmp (o : Nat) : Nat := 0x20000 + o
def Reg.kst (o : Nat) : Nat := 0x30000 + o
def Reg.rng (o : Nat) : Nat := 0x40000 + o
def Reg.uci (o : Nat) : Nat := 0x50000 + o
def Reg.tim (o : Nat) : Nat := 0x60000 + o
def Reg.pmc (o : Nat) : Nat := 0x70000 + o
def Reg.evr (o : Nat) : Nat := 0x80000 + o
def Reg.mte (o : Nat) : Nat := 0x90000 + o
def Reg.mem (o : Nat) : Nat := 0xA0000 + o
def Reg.ser (n o : Nat) : Nat := 0xC0000 + n * 0x400 + o
def Reg.cur (o : Nat) : Nat := 0x100000 + o
/-- Ring `r` of engine `k`. -/
def Reg.ring (k r o : Nat) : Nat := 0x101100 + 0x1000 * k + 0x40 * r + o
def Reg.hbxStat : Nat := 0x200000
def Reg.rstCfg : Nat := 0x104
def Reg.rstCause : Nat := 0x108

/-! ## Reset values -/

/-- Reset values of a mill's registers by their offset in the mill (zero where not listed). -/
def Reg.resetMill (o : Nat) : Nat :=
  if o < 0x10000 then (if o = 0 then 0x00FF0414 else if o = 0x20 then 0x8080000D else 0)
  else if o < 0x20000 then (if o = 0x10000 then 0x1010 else if o = 0x10014 then 0x8000 else 0)
  else if o < 0x30000 then
    (if o = 0x20000 then 0x9100 else if o = 0x20008 then 0xC0000000 else if o = 0x20014 then 0xC0000000 else 0)
  else if o < 0x40000 then
    (let q := o - 0x30000
     if q = 0 then 0x4000
     else if 0x10 ≤ q ∧ q < 0x50 then 0xC000
     else if q = 0x50 then 0x400FA
     else if 0x100 ≤ q ∧ q < 0x140 then (if q % 8 = 0 then 0xFF00 else 0x02000400)
     else 0)
  else if o = 0x100000 then 0x3E80
  else if o = 0x300800 then 0x07825860
  else 0

/-- Default response rank of tamper source `n` (Table 15-1). -/
def Reg.rankDefault (n : Nat) : Nat :=
  match n with
  | 0 => 1 | 1 => 1 | 2 => 1 | 3 => 1 | 4 => 3 | 5 => 3 | 6 => 2 | 7 => 3 | 8 => 4 | 9 => 1 | _ => 0

/-- Reset values of the TIM block. -/
def Reg.resetTim (q : Nat) : Nat :=
  if 0x600 ≤ q ∧ q < 0x680 then (if q % 0x20 = 0 then 0x03E80040 else 0)
  else if q = 0x7F0 then 0x640
  else if 0x900 ≤ q ∧ q < 0x9A0 then (if q % 0x20 = 0 then 8 else 0)
  else 0

/-- Reset values of the TMP block on part `p`. -/
def Reg.resetTmp (p : Part) (q : Nat) : Nat :=
  if q = 0xC then 0x64
  else if q = 0x10 then (if p = .jmc7720I then 0xC973 else 0xEC73)
  else if 0x40 ≤ q ∧ q < 0x70 then Reg.rankDefault ((q - 0x40) / 4)
  else 0

/-- Reset values of a lane's registers. -/
def Reg.resetSer (q : Nat) : Nat :=
  if q = 0 then 0xE000 else if q = 8 then 0x0144544C else if q = 0xC then 0x3F000 else if q = 0x10 then 2
  else if q = 0x20 then 0xA0000 else 0

/-- The reset value of the stored fields of the register at BAR0 offset `a` (the Reset columns of the register tables). -/
def Reg.reset (p : Part) (a : Nat) : Nat :=
  if a < 0x10000 then (if a = 0x108 then 1 else 0)
  else if a < 0x20000 then (if a = 0x10180 ∨ a = 0x10184 then 0x80 else 0)
  else if a < 0x30000 then Reg.resetTmp p (a - 0x20000)
  else if a < 0x40000 then 0
  else if a < 0x50000 then
    (if a = 0x40000 then 0xFF else if a = 0x40008 then 0x031A0029 else if a = 0x4000C then 0x08000800
     else if a = 0x40010 then 0x400 else 0)
  else if a < 0x60000 then (if a = 0x50000 ∨ a = 0x50100 then 0x100 else 0)
  else if a < 0x70000 then Reg.resetTim (a - 0x60000)
  else if a < 0x80000 then
    (let q := a - 0x70000
     if q < 0x3000 ∧ 0x20 ≤ q % 0x80 ∧ q % 0x80 < 0x40 then (if q / 0x80 < 80 then 0x1000 else 0x1800) else 0)
  else if a < 0x90000 then (if a = 0x80000 then 0x10000000 else 0)
  else if a < 0xA0000 then (if a = 0x90000 then 0x130A4 else 0)
  else if a < 0xC0000 then
    (if a = 0xA0400 then 0x0E100001 else if a = 0xA0404 then 0x80000000 else if a = 0xA0504 then 0xFFFFFFFF else 0)
  else if a < 0x100000 then (if a < 0xD1000 then Reg.resetSer ((a - 0xC0000) % 0x400) else 0)
  else if a < 0x200000 then
    (let q := a - 0x100000
     if q < 0x1000 then 0
     else if q % 0x1000 = 0 then 0x64
     else if q % 0x1000 < 0x400 ∧ q % 0x40 = 8 then 0x440
     else 0)
  else if a < 0x1000000 then 0
  else if a < 0x5000000 then Reg.resetMill (a % 0x1000000)
  else 0

/-! ## Access -/

/-- The stored value of a register. -/
def State.reg (s : State) (a : Nat) : Nat := (tget (BitVec.ofNat 32 (Reg.reset s.otp.part a)) s.regs a).toNat

/-- Store a register. -/
def State.setReg (s : State) (a v : Nat) : State :=
  { s with regs := tset (BitVec.ofNat 32 (Reg.reset s.otp.part a)) a (BitVec.ofNat 32 v) s.regs }

/-- Field [lo+len-1 : lo] of a register. -/
def State.fld (s : State) (a lo len : Nat) : Nat := natBits (s.reg a) lo len

/-- A one-bit field. -/
def State.bit (s : State) (a i : Nat) : Bool := natBit (s.reg a) i

/-- `v` with the field [lo+len-1 : lo] replaced by `x`. -/
def putField (v lo len x : Nat) : Nat := v - natBits v lo len * 2 ^ lo + x % 2 ^ len * 2 ^ lo

def State.setFld (s : State) (a lo len x : Nat) : State := s.setReg a (putField (s.reg a) lo len x)

/-- Set or clear one bit (a sticky bit set by hardware, R16). -/
def State.setBit (s : State) (a i : Nat) (b : Bool := true) : State := s.setFld a i 1 (b2n b)

/-- The offset lies in a block. -/
def inBlock (base size a : Nat) : Bool := decide (base ≤ a ∧ a < base + size)

/-- The bitwise merge of a write: bits of `mask` from `v`, the others from `old`. -/
def mergeBits (mask old v : Nat) : Nat := Nat.lor (Nat.land v mask) (old - Nat.land old mask)

end Sys2Proof.Machine
end

