-- ==== Sys2Proof/Machine/Ops.lean ====
section
/-! DEFINITION. The operations every block shares: mills and vectors, domains, outputs, counters (R451-R453), the event
recorder's queue (R459), interrupts (R464, R465), time bases (R267-R270), locked writes, and the end of a command. -/

namespace Sys2Proof.Machine

abbrev Res := Host.Outcome State Fault Refusal

/-! ## Access -/

/-! Each block of the state through a function. -/

def State.modPmc (s : State) (f : Pmc → Pmc) : State := { s with pmc := f s.pmc }
def State.modEvr (s : State) (f : Evr → Evr) : State := { s with evr := f s.evr }
def State.modHst (s : State) (f : Hst → Hst) : State := { s with hst := f s.hst }
def State.modRst (s : State) (f : Rst → Rst) : State := { s with rst := f s.rst }
def State.modPads (s : State) (f : Pads → Pads) : State := { s with pads := f s.pads }
def State.modTim (s : State) (f : Tim → Tim) : State := { s with tim := f s.tim }
def State.modOtp (s : State) (f : Otp → Otp) : State := { s with otp := f s.otp }
def State.modKst (s : State) (f : Kst → Kst) : State := { s with kst := f s.kst }
def State.modRng (s : State) (f : Rng → Rng) : State := { s with rng := f s.rng }
def State.modUci (s : State) (f : Uci → Uci) : State := { s with uci := f s.uci }
def State.modMem (s : State) (f : Mem → Mem) : State := { s with mem := f s.mem }
def State.modTmp (s : State) (f : Tmp → Tmp) : State := { s with tmp := f s.tmp }
def State.modBkp (s : State) (f : Bkp → Bkp) : State := { s with bkp := f s.bkp }
def State.modFelt (s : State) (f : Felt → Felt) : State := { s with felt := f s.felt }
def State.modMte (s : State) (f : Mte → Mte) : State := { s with mte := f s.mte }

def State.mill (s : State) (m : Fin 4) : Mill := s.mills[m]
def State.modMill (s : State) (m : Fin 4) (f : Mill → Mill) : State := { s with mills := s.mills.set m (f s.mills[m]) }
def State.line (s : State) (m : Fin 4) : Line := (s.mill m).line
def State.modLine (s : State) (m : Fin 4) (f : Line → Line) : State := s.modMill m fun x => { x with line := f x.line }
def State.dkl (s : State) (m : Fin 4) : Deckle := (s.mill m).dkl
def State.modDkl (s : State) (m : Fin 4) (f : Deckle → Deckle) : State := s.modMill m fun x => { x with dkl := f x.dkl }
def State.lci (s : State) (m : Fin 4) : Lci := (s.mill m).lci
def State.modLci (s : State) (m : Fin 4) (f : Lci → Lci) : State := s.modMill m fun x => { x with lci := f x.lci }
def State.sac (s : State) (m : Fin 4) : Sac := (s.mill m).sac
def State.modSac (s : State) (m : Fin 4) (f : Sac → Sac) : State := s.modMill m fun x => { x with sac := f x.sac }
def State.vat (s : State) (m : Fin 4) : Vat := (s.mill m).vat
def State.modVat (s : State) (m : Fin 4) (f : Vat → Vat) : State := s.modMill m fun x => { x with vat := f x.vat }
def State.sch (s : State) (m : Fin 4) : Sch := (s.mill m).sch
def State.modSch (s : State) (m : Fin 4) (f : Sch → Sch) : State := s.modMill m fun x => { x with sch := f x.sch }
def State.lkn (s : State) (m k : Fin 4) : Lkn := (s.lci m).lkn[k]
def State.modLkn (s : State) (m k : Fin 4) (f : Lkn → Lkn) : State :=
  s.modLci m fun x => { x with lkn := x.lkn.set k (f x.lkn[k]) }

/-- Client port `p`: port `p mod 8` of mill `p div 8`. -/
def portMill (p : Fin 32) : Fin 4 := ⟨p.val / 8, by omega⟩
def portIdx (p : Fin 32) : Fin 8 := ⟨p.val % 8, by omega⟩
def State.port (s : State) (p : Fin 32) : Port := (s.mill (portMill p)).ports[portIdx p]
def State.modPort (s : State) (p : Fin 32) (f : Port → Port) : State :=
  s.modMill (portMill p) fun x => { x with ports := x.ports.set (portIdx p) (f x.ports[portIdx p]) }

def State.ring (s : State) (r : Rid) : Ring := s.cur[r.eng].rings[r.ring]
def State.modEng (s : State) (k : Fin 4) (f : Engine → Engine) : State := { s with cur := s.cur.set k (f s.cur[k]) }
def State.modRing (s : State) (r : Rid) (f : Ring → Ring) : State :=
  s.modEng r.eng fun e => { e with rings := e.rings.set r.ring (f e.rings[r.ring]) }

def State.lane (s : State) (n : Fin 68) : Lane := s.lanes[n]
def State.modLane (s : State) (n : Fin 68) (f : Lane → Lane) : State := { s with lanes := s.lanes.set n (f s.lanes[n]) }
/-- SER lane of line lane `j` of mill `m` (R19). -/
def lineLane (m : Fin 4) (j : Fin 8) : Fin 68 := ⟨32 + 8 * m.val + j.val, by omega⟩

def State.slot (s : State) (i : Nat) : Slot := tget default s.kst.slots i
def State.setSlot (s : State) (i : Nat) (v : Slot) : State := { s with kst := { s.kst with slots := tset default i v s.kst.slots } }
def State.tribAt (s : State) (n : Nat) : Trib := tget default s.trib n
def State.setTrib (s : State) (n : Nat) (v : Trib) : State := { s with trib := tset default n v s.trib }
def State.modTrib (s : State) (n : Nat) (f : Trib → Trib) : State := s.setTrib n (f (s.tribAt n))
def State.saAt (s : State) (sax : Nat) : SaDir := tget default s.sa sax
def State.setSa (s : State) (sax : Nat) (v : SaDir) : State := { s with sa := tset default sax v s.sa }
def State.scAt (s : State) (scx : Nat) : Sc := tget default s.sc scx
def State.setSc (s : State) (scx : Nat) (v : Sc) : State := { s with sc := tset default scx v s.sc }
def State.tbAt (s : State) (b : Fin 8) : TimeBase := s.tim.tb[b]
def State.modTb (s : State) (b : Fin 8) (f : TimeBase → TimeBase) : State :=
  { s with tim := { s.tim with tb := s.tim.tb.set b (f s.tim.tb[b]) } }

/-- Put `o` on the record of what leaves the die. -/
def State.emit (s : State) (o : Out) : State := { s with out := o :: s.out }

/-- Put several on it, in order. -/
def State.emits (s : State) (os : List Out) : State := { s with out := os.reverse ++ s.out }

/-! ## Domains and parts -/

/-- Mill `m` exists on this part (R3). -/
def State.hasMill (s : State) (m : Fin 4) : Bool := decide (s.otp.part ≠ .jmc7710) || decide (m.val < 2)

/-- The life-cycle state BLANK: no traffic, and no register but SYS_ID responds (Table 10-10, Table 18-4). -/
def State.blank (s : State) : Bool := decide (s.kst.lc = 0)
/-- Domain `d` is released (R437). -/
def State.live (s : State) (d : Nat) : Bool := s.rst.released.getLsbD d
/-- Mill `m` is out of reset. -/
def State.millLive (s : State) (m : Fin 4) : Bool := s.live (9 + m.val) && s.hasMill m && !s.blank
def State.islandLive (s : State) : Bool := s.live 2
def State.mgmtLive (s : State) : Bool := s.live 3
def State.timLive (s : State) : Bool := s.live 4
def State.memLive (s : State) (c : Fin 4) : Bool := s.live (5 + c.val)
def State.feltLive (s : State) : Bool := s.live 13 && !s.blank
def State.hstLive (s : State) : Bool := s.live 14

/-! ## Transmitters (R375, R376, R391, R393) -/

/-- The transmitter of a lane sends the lane's ordinary data: it is out of electrical idle, its burst is over, and neither the PRBS
generator nor a far loopback takes the place of that data. -/
def State.laneSends (s : State) (n : Fin 68) : Bool :=
  !(s.lane n).txIdle && !(s.lane n).burst && !natBit (s.reg (Reg.ser n.val 0)) 18 && decide (natBits (s.reg (Reg.ser n.val 0)) 20 2 ≠ 2)

/-- The four felt lanes send. -/
def State.feltSends (s : State) : Bool := (List.finRange 4).all fun i => s.laneSends ⟨64 + i.val, by omega⟩

/-! ## Counters (R451-R453) -/

def Pmc.cntMax : Nat := 2 ^ 48 - 1

/-- Add `n` to counter `key` (8·block + counter), saturating (R451). -/
def Pmc.bump (p : Pmc) (key n : Nat) : Pmc :=
  let new := min Pmc.cntMax (tget 0 p.cnt key + n)
  let newly := decide (new = Pmc.cntMax) && !tget false p.sat key
  { p with
    cnt := tset 0 key new p.cnt
    sat := if newly then tset false key true p.sat else p.sat
    satNew := if newly then p.satNew ++ [key] else p.satNew }

/-- The selection register of counter `key`. -/
def Pmc.selAddr (key : Nat) : Nat := Reg.pmc (0x20 + 4 * (key % 8) + 0x80 * (key / 8))

/-- A selection register with value `r` selects event `ev` with qualifier `q` (R452). -/
def Pmc.selects (r ev q : Nat) : Bool := decide (natBits r 0 12 = ev) && (natBit r 12 || decide (natBits r 16 16 = q % 65536))

/-- Count event `ev` in those of the counters `first .. first + n - 1` that select it; `sel` reads a selection register. -/
def Pmc.countRange (sel : Nat → Nat) (ev q amount : Nat) : Nat → Nat → Pmc → Pmc
  | _, 0, p => p
  | first, n + 1, p =>
    Pmc.countRange sel ev q amount (first + 1) n (if Pmc.selects (sel (Pmc.selAddr first)) ev q then p.bump first amount else p)

/-- A happening of mill `m`: source code, index, qualifier, amount (R452, R453). -/
def State.countMill (s : State) (m : Fin 4) (src idx q : Nat) (amount : Nat := 1) : State :=
  { s with pmc := Pmc.countRange s.reg (src * 256 + idx) q amount (160 * m.val) 152 s.pmc }

/-- A happening of the device: source codes 0x8 to 0xF. -/
def State.countDev (s : State) (src idx q : Nat) (amount : Nat := 1) : State :=
  { s with pmc := Pmc.countRange s.reg (src * 256 + idx) q amount 640 120 s.pmc }

/-- Counter `i` of the fixed block of mill `m` (Table 17-2). -/
def State.fixMill (s : State) (m : Fin 4) (i : Nat) (amount : Nat := 1) : State :=
  { s with pmc := s.pmc.bump (8 * (20 * m.val + 19) + i) amount }
/-- Counter `i` of the device's fixed block. -/
def State.fixDev (s : State) (i : Nat) (amount : Nat := 1) : State := { s with pmc := s.pmc.bump (760 + i) amount }

/-! ## Time bases (R267-R270) -/

/-- One nanosecond in the units of a time base. -/
def nsU : Nat := 2 ^ 40
/-- The wrap of a time base: 2^48 seconds. -/
def tbWrap : Nat := 2 ^ 48 * 1000000000 * nsU

def State.tbRun (s : State) (b : Fin 8) : Bool := s.bit (Reg.tim (0x40 * b.val)) 0
/-- A reading as software sees it: nanoseconds and seconds. -/
def tbNs (v : Nat) : Nat := v / nsU % 1000000000
def tbSec (v : Nat) : Nat := v / nsU / 1000000000 % 2 ^ 48
/-- The 16-bit fraction of a nanosecond. -/
def tbFrac (v : Nat) : Nat := v / 2 ^ 24 % 65536

/-- A time of a descriptor (10 bytes: nanoseconds, seconds) in time base units. -/
def timeU (sec ns : Nat) : Nat := (sec % 2 ^ 48 * 1000000000 + ns) * nsU

/-- The stamp of an instant that is now, at 1/64 ns (R275). -/
def State.stamp (s : State) (b : Fin 8) : Stamp :=
  let t := s.tbAt b
  { tb := b, val := t.val / 2 ^ 34 * 2 ^ 34, steps := t.steps }

/-- The representative of a difference of readings, which wrap at 2^48 s, that lies nearest 0. -/
def wrapDiff (d : Int) : Int :=
  let r := d % (tbWrap : Int)
  if 2 * r < (tbWrap : Int) then r else r - tbWrap

/-- The difference `a - b` of two stamps in 2^-40 ns, less the steps applied between them (R270). -/
def Stamp.sub (a b : Stamp) : Int :=
  if a.tb = b.tb then wrapDiff (((a.val : Int) - b.val) - (a.steps - b.steps)) else wrapDiff ((a.val : Int) - b.val)

/-- Step a time base by `d` (R269, R270), keeping the sum of steps; `now` is the tick of the edge. -/
def TimeBase.step (t : TimeBase) (d : Int) (now : Nat) : TimeBase :=
  { t with val := (((t.val : Int) + d) % (tbWrap : Int)).toNat, steps := t.steps + d, stepAt := some now }

/-- A quantity in its register's unit: itself where it is a whole number, otherwise the rounding that the spec leaves open. -/
def roundOpen (q : Rat) : Int := if q.den = 1 then q.num else Config.openRound q

/-! ## Event recorder queue (R459) -/

/-- The happening as it enters the queue, its time read on that edge (R461). -/
def State.happening (s : State) (type src mill subject : Nat) (data : Bytes) : Happen :=
  let b : Fin 8 := ⟨s.fld (Reg.evr 0) 1 3, by unfold State.fld natBits; omega⟩
  let v := (s.tbAt b).val
  { type := byteOf type, src := byteOf (src % 16 + mill % 4 * 16), subject := BitVec.ofNat 16 subject,
    data := padTo 12 data, ns := tbNs v, sec := tbSec v, tick := s.now }

/-- The recorder's queue takes a happening, or counts it as lost (R459). -/
def Evr.put (e : Evr) (h : Happen) : Evr :=
  if e.queue.length < 32 then { e with queue := e.queue ++ [h] }
  else { e with
    lostCount := e.lostCount + 1
    lost := if e.lost = 0xFFFF then e.lost else e.lost + 1 }

/-- A happening of the given type reaches the recorder (Table 17-4). -/
def State.happen (s : State) (type src mill subject : Nat) (data : Bytes) : State :=
  if s.mgmtLive then
    { s with
      evr := s.evr.put (s.happening type src mill subject data)
      pmc := if s.evr.queue.length < 32 then s.pmc else s.pmc.bump 766 1 }
  else s

/-- SRC of a record of `type` whose block has no source code (a free value). -/
def freeSrc (type : Nat) : Nat := (Config.recSrc (byteOf type)).toNat

/-- A write ignored as locked (Table 0-3): counted and recorded. -/
def State.lockedWrite (s : State) (pf : Fin 2) (addr : Nat) (v : Nat) : State :=
  ((s.countDev 0xF 0 pf.val).fixDev 1).happen 2 0xF 0 pf.val (leBytes 4 addr ++ leBytes 4 v)

/-! ## Interrupts (R464, R465) -/

/-- Send the message of vector `v`, or mark it pending while it is masked (R465). -/
def State.msix (s : State) (v : Fin 256) : State :=
  if s.hst.masked.getLsbD v.val then s.modHst fun h => { h with pba := h.pba ||| (1#256 <<< v.val) }
  else ((s.emit (.msix v.val)).countDev 0xF 1 v.val).fixDev 4

/-- Any of the `n` registers at `a`, `a + stride`, … has a bit of `mask` set. -/
def State.anyBits (s : State) (mask stride : Nat) : Nat → Nat → Bool
  | _, 0 => false
  | a, n + 1 => decide (Nat.land (s.reg a) mask ≠ 0) || s.anyBits mask stride (a + stride) n

/-- RANK of tamper source `n`; a fused-off source reads 0 (Table 15-14). -/
def State.rank (s : State) (n : Nat) : Nat := if s.tmp.dis.getLsbD n then 0 else s.fld (Reg.tmp (0x40 + 4 * n)) 0 3

/-- TMP_STKY bits of sources whose rank is IRQ or above (R421). -/
def State.tamperStatus (s : State) : Nat → Bool
  | 0 => false
  | n + 1 => (s.bit (Reg.tmp 4) n && decide (1 ≤ s.rank n)) || s.tamperStatus n

/-- Some status bit that feeds a source of mill `m` is 1 (Table 17-5). -/
def State.millFeeds (s : State) (m : Fin 4) (k : Nat) : Bool :=
  match k with
  | 0 => decide (s.reg (Reg.lnf m 0x14) ≠ 0) || decide (Nat.land (s.reg (Reg.lnf m 0x20)) 0x2080 ≠ 0)
  | 1 => decide (Nat.land (s.reg (Reg.lci m 4)) 0x10F380 ≠ 0)
  | 2 => decide (Nat.land (s.reg (Reg.dkl m 4)) 0x60 ≠ 0)
  | 3 => !(s.sac m).thFifo.isEmpty
  | 4 => (s.sac m).faultValid
  | 5 => (s.vat m).excValid
  | 6 => s.anyBits 4 4 (Reg.sch m 0x200) 8
  | _ => decide (Nat.land (s.reg Reg.hbxStat) (0x111 * 2 ^ m.val) ≠ 0)

/-- Some status bit that feeds source `src` is 1 (Table 17-5). -/
def State.feeds (s : State) (src : Nat) : Bool :=
  if h : src < 32 then s.millFeeds ⟨src / 8, by omega⟩ (src % 8)
  else match src with
    | 32 => s.tamperStatus 12 || (decide (s.tmp.bistFail ≠ 0) && !s.tmp.bistBusy) || s.bit (Reg.tmp 0x30) 8
    | 33 => s.bit (Reg.kst 0) 10 || s.bit (Reg.kst 0x18) 6
    | 34 => decide (s.rng.st = .failed) || decide (s.reg (Reg.rng 0x60) ≠ 0)
    | 35 => s.bit (Reg.uci 0x14) 1 || s.bit (Reg.uci 0x114) 1
    | 36 => s.anyBits 0x1C 0x20 (Reg.mem 0x210) 8 || s.mem.errValid || s.mem.ch.any (·.fail) || s.anyBits 0x10 0x40 (Reg.mem 4) 4
    | 37 => decide (Nat.land (s.reg (Reg.mte 4)) 0x3000 ≠ 0) || decide (Nat.land (s.reg (Reg.mte 0x18)) 0xC ≠ 0) || s.hst.mstateChg
    | 38 => s.anyBits 0x700 0x40 (Reg.tim 0) 8 || s.anyBits 2 4 (Reg.tim 0x700) 8
    | 39 => decide (Nat.land (s.reg Reg.rstCause) 0x181000 ≠ 0)
    | 40 => s.pmc.sat.any (·.2)
    | 41 => decide (s.fld (Reg.evr 0) 20 11 ≤ (s.evr.written + 2 ^ 32 - s.reg (Reg.evr 0xC)) % 2 ^ 32) && s.mgmtLive
    | 42 => s.anyBits 0x180 0x400 (Reg.ser 0 4) 68 || decide (Nat.land (s.reg (Reg.ser 64 0x100)) 0xC0 ≠ 0)
    | 43 => s.cur.any fun e => e.rings.any fun r => r.dbErr || r.halt
    | _ => false

/-- PEND of a source is recomputed; a rise sends its message (R464, R465). -/
def State.irqSource (s : State) (src : Nat) : State :=
  let r := s.reg (Reg.hst (0x100 + 4 * src))
  let new := natBit r 8 && s.feeds src
  if new = s.hst.pend.getLsbD src then s
  else
    let s1 := s.modHst fun h => { h with pend := h.pend ^^^ (1#48 <<< src) }
    let v : Fin 256 := ⟨natBits r 0 8, by unfold natBits; omega⟩
    if !new then s1
    else if (src = 32 ∨ src = 33) ∧ v.val < 128 then s1.countDev 0xF 2 0
    else s1.msix v

def State.irqAll (s : State) : Nat → State
  | 0 => s
  | n + 1 => (s.irqAll n).irqSource n

/-- Record each counter that has saturated (record type 0x0B). -/
def State.satRecords (s : State) : List Nat → State
  | [] => s
  | k :: ks => (s.happen 0x0B (freeSrc 0x0B) 0 k (leBytes 2 (natBits (s.reg (Pmc.selAddr k)) 0 12))).satRecords ks

/-- What follows on the edge of every command: saturation records and interrupts. -/
def State.settle (s : State) : State :=
  let s1 := s.modPmc fun p => { p with satNew := [] }
  (s1.satRecords s.pmc.satNew).irqAll 48

/-- The end of a command that takes a next state. -/
def finish (s : State) : Res := .next s.settle

/-- A command that is not due changes nothing. -/
def idle (s : State) : Res := .next s

/-! ## MTP bytes (an unwritten byte reads 0xFF, R435) -/

def State.mtpByte (s : State) (a : Nat) : Byte := tget 0xFF s.mtp a
def State.mtpRead (s : State) (a : Nat) : Nat → Bytes
  | 0 => []
  | n + 1 => s.mtpByte a :: s.mtpRead (a + 1) n
def State.mtpPut (s : State) (a : Nat) (b : Byte) : State := { s with mtp := tset 0xFF a b s.mtp }
def State.mtpWrite (s : State) (a : Nat) : Bytes → State
  | [] => s
  | b :: bs => (s.mtpPut a b).mtpWrite (a + 1) bs

end Sys2Proof.Machine
end

