-- ==== Sys2Proof/Machine/Link.lean ====
section
/-! DEFINITION. Sending on the felt link: the frame of R401, and the state changes that a paired active tells its standby
(R406, R407). -/

namespace Sys2Proof.Machine

/-- `bs` filled with 0x00 to a multiple of 4. -/
def pad4 (bs : Bytes) : Bytes := bs ++ List.replicate ((4 - bs.length % 4) % 4) 0

/-- The 16-byte header of a felt frame. -/
def Mte.header (x : Mte) (type len fseq : Nat) : Bytes :=
  [byteOf type, byteOf x.ver] ++ beBytes 2 len ++ beBytes 4 x.epoch.toNat ++ beBytes 8 fseq

/-- The IV of the frame with sequence number `fseq` sent by side `side`. -/
def feltIv (side : Bool) (fseq : Nat) : Bytes := byteOf (b2n side) :: ([0, 0, 0] ++ beBytes 8 fseq)

/-- The frame with `body` that this device sends next (R401). HELLO (type 1) goes in clear. -/
def Mte.frame (x : Mte) (side : Bool) (type : Nat) (body : Bytes) : Bytes :=
  let h := x.header type body.length x.fseqTx
  if type = 1 then
    let c := h ++ pad4 body
    c ++ fcsOf c ++ List.replicate 12 0
  else
    let (ct, tag) := gcmEnc (x.key.getD []) (feltIv side x.fseqTx) h body
    h ++ pad4 ct ++ tag

/-- Send one felt frame: none while the link is down, or without a session key; it leaves the die where the felt lanes send. -/
def State.feltSend (s : State) (type : Nat) (body : Bytes) : State :=
  if s.felt.up && (decide (type = 1) || s.mte.key.isSome) then
    { s with
      out := if s.feltSends then .felt (s.mte.frame s.pads.mateSide type body) :: s.out else s.out
      mte := { s.mte with fseqTx := s.mte.fseqTx + 1 } }
  else s

/-- A standby in SYNC or STANDBY hears this active (R407). -/
def State.standbyHeld (s : State) : Bool :=
  decide (s.mte.st = .active) && s.mte.key.isSome && s.felt.up && !s.mte.silent

/-- Tell the standby of a state change; answers its DSEQ, if one was sent (R406, R407). `ream`: the mill and ream count of a
change on a ream boundary. -/
def State.delta (s : State) (d : Delta) (ream : Option (Fin 4 × W32) := none) : State × Option W32 :=
  if s.standbyHeld then
    let n := s.mte.dseq + 1
    let s1 := { s with mte := { s.mte with dseq := n } }
    (((s1.feltSend 0x10 (beBytes 4 n.toNat ++ Config.encodeDelta ream d)).countDev 0xD 2 0), some n)
  else (s, none)

/-- Tell the standby of several changes; answers the last DSEQ. -/
def State.deltas (s : State) : List Delta → State × Option W32
  | [] => (s, none)
  | [d] => s.delta d
  | d :: ds => (s.delta d).1.deltas ds

/-- The device claims the line (R396). -/
def State.claims (s : State) : Bool :=
  s.bit (Reg.mte 0) 1 && (match s.mte.st with
    | .unpaired | .taking | .active => true
    | .pairing => decide (s.mte.lock = .granted)
    | _ => false)

/-- The interlock looks at the claim again (Table 14-2): a new claim starts while MATE_ACT_IN is low, a claim or grant that is
no longer asked for is withdrawn. -/
def State.interlock (s : State) : State :=
  match s.mte.lock with
  | .off =>
    if s.claims && !s.pads.mateActIn then
      { s with mte := { s.mte with lock := .claim, timer := true }, pads := { s.pads with mateActOut := true } }
    else s
  | .claim | .granted => if s.claims then s else { s with mte := { s.mte with lock := .releasing, timer := false } }
  | .releasing => s

/-- A change of the mate role (record type 0x09; source 37). -/
def State.mateGo (s : State) (st : MState) (cause : Nat) : State :=
  if st = s.mte.st then s
  else
    let n := match st with
      | .unpaired => 0 | .pairing => 1 | .sync => 2 | .standby => 3 | .taking => 4 | .active => 5 | .released => 6
    let s1 := { s with
      mte := { s.mte with st := st, cause := if cause = 0 then s.mte.cause else cause }
      hst := { s.hst with mstateChg := true } }
    (s1.happen 9 0xD 0 n (byteOf cause :: leBytes 4 s1.mte.epoch.toNat)).interlock

/-! ## Digests of far sheets (R409) -/

/-- The records that are later than sheet `lsc`. -/
def laterRecs (lsc : W32) (rs : List RxRec) : List RxRec := rs.filter fun r => decide (0 < (r.lsc - lsc).toNat ∧ (r.lsc - lsc).toNat < 2 ^ 31)

/-- The two digests of a far sheet that both devices accepted are compared; MISM_N mismatches in a row are DIVERGED, with which a
self-test pass starts (R412, row 3). -/
def State.judgeDig (s : State) (m : Fin 4) (a b : RxRec) : State :=
  if a.accepted && b.accepted then
    let n := if a.dig = b.dig then 0 else s.mte.follow[m].mism + 1
    let s1 := { s with mte := { s.mte with follow := s.mte.follow.set m { s.mte.follow[m] with mism := n } } }
    if n = 0 then s1
    else if n < s.fld (Reg.mte 0) 12 4 ∨ s.mte.diverged then s1.countDev 0xD 3 m.val
    else (({ s1 with mte := { s1.mte with diverged := true, selftesting := true } } : State)).countDev 0xD 3 m.val
  else s

/-- CUR_ROLE (R404): 1 ACTIVE, 2 STANDBY, 0 otherwise. -/
def State.role (s : State) : Nat :=
  match s.mte.st with
  | .active | .taking => 1
  | .sync | .standby | .released => 2
  | _ => 0

end Sys2Proof.Machine
end

