-- ==== Sys2Proof/Machine/Curator.lean ====
section
/-! DEFINITION. Curator engines (chapter 7): the descriptor, its checks, selection and acceptance, and completion records. -/

namespace Sys2Proof.Machine

/-! ## The descriptor (Table 7-2) -/

/-- `n` bytes at `off`, little-endian. -/
def Desc.u (d : Desc) (off n : Nat) : Nat := leNat (slice d.raw off n)
def Desc.parcel (d : Desc) (i : Nat) : Nat := d.u (2 * i) 2 % 16384
def Desc.p1 (d : Desc) : Nat := d.parcel 1
def Desc.p2 (d : Desc) : Nat := d.parcel 2
/-- An operand of ARG. -/
def Desc.arg (d : Desc) (off n : Nat) : Nat := d.u (24 + off) n
def Desc.argBytes (d : Desc) (off n : Nat) : Bytes := slice d.raw (24 + off) n
def Desc.abi (d : Desc) : Nat := d.u 6 1
def Desc.batch (d : Desc) : Bool := natBit (d.u 7 1) 0
def Desc.irq (d : Desc) : Bool := natBit (d.u 7 1) 1
def Desc.tag (d : Desc) : W32 := BitVec.ofNat 32 (d.u 8 4)
def Desc.epoch (d : Desc) : Nat := d.u 12 4
def Desc.kind (d : Desc) : Nat := natBits (d.u 16 1) 0 2
def Desc.cluster (d : Desc) : Nat := natBits (d.u 16 1) 2 3
/-- MOP, where the first parcel is 0x2F80 + MOP (R218); 0, which names no instruction, otherwise. -/
def Desc.mop (d : Desc) : Nat := if 0x2F80 ≤ d.parcel 0 ∧ d.parcel 0 ≤ 0x2FFF then d.parcel 0 - 0x2F80 else 0
/-- The sub-op of an instruction: OP, SRC, MODE or ABS, where it has one. -/
def Desc.op (d : Desc) : Nat :=
  match d.mop with
  | 0x18 | 0x2A => natBits d.p1 11 3
  | 0x30 => natBits d.p1 13 1
  | 0x01 | 0x02 | 0x03 | 0x09 | 0x11 | 0x12 | 0x31 | 0x38 | 0x3A => natBits d.p1 12 2
  | _ => 0

/-- The P1 bits that Table 7-4 lists for the instruction and sub-op. -/
def Desc.p1Mask (d : Desc) : Nat :=
  match d.mop with
  | 0x01 | 0x02 | 0x03 => 0x3003
  | 0x08 | 0x0A | 0x0B | 0x0C | 0x0D => 0x7FF
  | 0x09 => 0x37FF
  | 0x10 => 0x300F
  | 0x11 => 0x3000
  | 0x12 => 0x3807
  | 0x18 => 0x3803
  | 0x19 => 0x3
  | 0x20 => 0x71F
  | 0x21 => 0x1F
  | 0x2A => if d.op = 3 ∨ d.op = 4 then 0x3803 else 0x3800
  | 0x30 => 0x2007
  | 0x31 => 0x3007
  | 0x32 => 0x77
  | 0x38 => if d.op = 0 then 0x3007 else 0x3000
  | 0x39 => 0xF
  | 0x3A => 0x3000
  | _ => 0

/-- The P2 bits that Table 7-4 lists. -/
def Desc.p2Mask (d : Desc) : Nat :=
  match d.mop with
  | 0x01 | 0x02 | 0x03 | 0x28 | 0x2A | 0x38 | 0x3B => 0x3FFF
  | 0x08 | 0x0C => 0x7FF
  | 0x09 => if d.op = 0 then 0x7FF else 0
  | 0x18 => if d.op = 0 then 0x7FF else 0
  | 0x29 => 0xFFF
  | _ => 0

/-- How many sub-op codes are legal. -/
def Desc.opCount (d : Desc) : Nat :=
  match d.mop with
  | 0x01 => 3 | 0x02 => 2 | 0x03 => 2 | 0x09 => 2 | 0x11 => 3 | 0x12 => 2 | 0x18 => 8 | 0x2A => 5 | 0x30 => 2 | 0x31 => 4
  | 0x38 => 2 | 0x3A => 2
  | _ => 1

/-- Table 7-4 lists the MOP. -/
def Desc.listed (d : Desc) : Bool :=
  [0x01, 0x02, 0x03, 0x08, 0x09, 0x0A, 0x0B, 0x0C, 0x0D, 0x10, 0x11, 0x12, 0x18, 0x19, 0x20, 0x21].contains d.mop
    || [0x28, 0x29, 0x2A, 0x30, 0x31, 0x32, 0x38, 0x39, 0x3A, 0x3B].contains d.mop

/-- The ARG bytes of the instruction and sub-op: first byte, count, bits of each that are not reserved. -/
def Desc.argUse (d : Desc) : List (Nat × Nat × Nat) :=
  match d.mop, d.op with
  | 0x01, 0 => [(0, 1, 0xFF), (1, 1, 0xE0), (2, 2, 0xFF), (4, 1, 1), (8, 36, 0xFF), (48, 40, 0xFF)]
  | 0x01, 1 => [(32, 8, 0xFF)]
  | 0x02, _ => [(0, 8, 0xFF)]
  | 0x08, _ => [(0, 4, 0xFF), (8, 40, 0xFF)]
  | 0x09, 0 => [(8, 40, 0xFF)]
  | 0x0A, _ => [(0, 8, 0xFF)]
  | 0x0C, _ => [(0, 6, 0xFF), (8, 96, 0xFF)]
  | 0x0D, _ => [(0, 40, 0xFF)]
  | 0x10, _ => [(0, 16, 0xFF)]
  | 0x11, 1 => [(0, 4, 0xFF)]
  | 0x12, _ => if natBit d.p1 11 then [(0, 4, 0xFF)] else []
  | 0x18, 0 => [(0, 15, 0xFF), (15, 1, 0x7F)]
  | 0x18, 3 => [(0, 4, 0xFF)]
  | 0x18, 4 => [(0, 10, 0xFF)]
  | 0x20, _ => [(0, 10, 0xFF), (12, 6, 0xFF), (24, 8, 0xFF)]
  | 0x28, _ => [(0, 16, 0xFF), (16, 1, 3), (17, 1, 0xFF)]
  | 0x29, _ => [(0, 16, 0xFF), (16, 1, 7), (17, 1, 0xFF), (18, 2, 0x73)]
  | 0x2A, 0 | 0x2A, 2 => [(0, 1, 0x87), (1, 1, 0x83), (4, 8, 0xFF)]
  | 0x30, _ => [(0, 10, 0xFF)]
  | 0x31, 0 => [(0, 14, 0xFF), (14, 1, 0x77)]
  | 0x31, 1 => [(0, 8, 0xFF)]
  | 0x32, _ => [(0, 10, 0xFF), (12, 8, 0xFF)]
  | 0x38, 0 => [(0, 10, 0xFF)]
  | 0x38, _ => [(0, 4, 0xFF)]
  | 0x3A, 1 => [(0, 4, 0xFF)]
  | 0x3B, _ => [(0, 8, 0xFF)]
  | _, _ => []

/-- The bits of ARG byte `i` that are not reserved. -/
def argMask (i : Nat) : List (Nat × Nat × Nat) → Nat
  | [] => 0
  | (o, n, m) :: us => if o ≤ i ∧ i < o + n then m else argMask i us

/-- `v` has no bit outside `mask`. -/
def within (mask v : Nat) : Bool := decide (Nat.land v mask = v)

/-- No reserved byte or bit is set, and the TARGET and EPOCH fields agree (R216). -/
def Desc.clean (d : Desc) : Bool :=
  decide (d.u 0 2 < 16384) && decide (d.u 2 2 < 16384) && decide (d.u 4 2 < 16384)
    && within 3 (d.u 7 1) && within 0x1F (d.u 16 1) && decide (d.u 17 7 = 0)
    && (decide (d.kind ≠ 0) || decide (d.epoch = 0)) && (decide (d.kind ≠ 3) || decide (d.epoch < 65536))
    && (decide (d.kind = 3) || decide (d.cluster = 0))
    && (!d.listed || (List.range 104).all fun i => within (argMask i d.argUse) (d.arg i 1))

/-- The selected ABI version lacks a field that is used (R216, R220). -/
def Desc.newer (d : Desc) : Bool := d.batch || decide (d.kind = 3) || (decide (d.mop = 0x3A) && decide (d.op = 1))

/-- The encoding is one of Table 7-4 (R218). -/
def Desc.legal (d : Desc) : Bool := d.listed && decide (d.op < d.opCount) && within d.p1Mask d.p1 && within d.p2Mask d.p2

/-- Status with which a descriptor fails before its instruction is looked at, under ABI version `sel`. -/
def Desc.malformed (d : Desc) (sel : Nat) : Option Nat :=
  if !d.clean || decide (d.abi ≠ sel) || (decide (sel < 2) && d.newer) then some 0x11
  else if !d.legal then some 0x10
  else none

/-- Class B of Table 7-4. -/
def Desc.classB (d : Desc) : Bool :=
  match d.mop with
  | 0x01 => decide (d.op = 1 ∨ d.op = 2)
  | 0x03 => decide (d.op = 1)
  | 0x18 => decide (d.op = 1 ∨ d.op = 2)
  | 0x21 | 0x28 | 0x29 | 0x3B => true
  | 0x2A => decide (d.op < 3)
  | 0x3A => decide (d.op = 1)
  | _ => false

/-- Scope M of Table 7-4. -/
def Desc.perMill (d : Desc) : Bool :=
  [0x01, 0x02, 0x03, 0x10, 0x11, 0x12, 0x18, 0x19, 0x20, 0x21, 0x28, 0x29, 0x2A].contains d.mop
    || (decide (d.mop = 0x38) && decide (d.op = 1))

/-- Marked O in Table 7-4. -/
def Desc.officerOnly (d : Desc) : Bool :=
  match d.mop with
  | 0x01 | 0x18 => decide (d.op = 0)
  | 0x08 | 0x09 | 0x0A | 0x0B | 0x0C => true
  | _ => false

/-- Refused while the device is in SYNC, STANDBY or RELEASED (R405). -/
def Desc.mateRefused (d : Desc) : Bool :=
  match d.mop with
  | 0x02 => decide (d.op = 1)
  | 0x01 | 0x03 | 0x10 | 0x11 | 0x12 | 0x18 | 0x19 | 0x20 | 0x21 | 0x28 | 0x29 | 0x2A | 0x30 | 0x31 | 0x32 => true
  | _ => false

/-! ## Rings -/

/-- The function that owns a ring (chapter 7, Command rings). -/
def ringPf (r : Rid) : Fin 2 := if r.ring.val = 2 ∨ r.ring.val = 3 then 1 else 0

def State.rcfg (s : State) (r : Rid) : Nat := s.reg (Reg.ring r.eng r.ring 8)
def State.ringSize (s : State) (r : Rid) : Nat := 2 ^ natBits (s.rcfg r) 4 4
def State.cqSize (s : State) (r : Rid) : Nat := 2 ^ natBits (s.rcfg r) 8 4
/-- The version a function has selected (R228). -/
def State.abiSel (s : State) (pf : Fin 2) : Nat := s.fld (Reg.cur 0) (16 + 4 * pf.val) 4

/-- The completion queue has no room (R213). -/
def State.cqFull (s : State) (r : Rid) : Bool :=
  decide (((s.ring r).cqTail.toNat + 1) % s.cqSize r = (s.ring r).cqHead.toNat % s.cqSize r)

/-- The engine exists and its domain is released (R4). -/
def State.engLive (s : State) (k : Fin 4) : Bool := s.mgmtLive && s.hasMill k

/-- The descriptors of the batch at the head of a list: all up to the first with BATCH 0; none where that one is missing. -/
def batchRun : List Desc → Option (List Desc)
  | [] => none
  | d :: ds => if d.batch then (batchRun ds).map (d :: ·) else some [d]

/-- The head of the ring starts a batch. -/
def State.batchHead (s : State) (r : Rid) : Bool :=
  match (s.ring r).fetched with
  | [] => false
  | d :: _ => d.batch && decide (2 ≤ s.abiSel (ringPf r))

/-- A command ring from which the engine may select now (R209, R213, R214, R221); an instruction that waits in CHECK was selected
before its ring was disabled (R215) or halted. -/
def State.selectable (s : State) (r : Rid) : Bool :=
  let g := s.ring r
  s.engLive r.eng && decide (r.ring.val < 4) && (g.waiting || g.en && !g.halt) && g.hold.isNone && !s.cqFull r && !g.fetched.isEmpty
    && (!s.batchHead r || (batchRun g.fetched).isSome)

/-- Places behind the ring served last (round robin over the four rings). -/
def rrDist (last i : Nat) : Nat := (i + 3 - last) % 4

/-- It is this ring's turn (R209): it is selectable and no ring nearer in the round is; an instruction that waits in CHECK
keeps the engine. -/
def State.turn (s : State) (r : Rid) : Bool :=
  let e := s.cur[r.eng]
  s.selectable r && (List.finRange 12).all fun i =>
    decide (i = r.ring) || !((e.rings[i].waiting)
      || (decide (i.val < 4) && decide (rrDist e.rr i < rrDist e.rr r.ring) && s.selectable ⟨r.eng, i⟩))

/-- The reference of a descriptor in its ring. -/
def Desc.ref (d : Desc) (r : Rid) : CmdRef := { rid := r, index := d.index, tag := d.tag, irq := d.irq }

/-! ## Completion -/

/-- A record waits to be written (R213); the instruction is DONE. Statuses are counted per engine. -/
def State.record (s : State) (r : Rid) (x : Rec) : State :=
  let s1 := s.modRing r fun g => { g with done := g.done ++ [x] }
  let s2 := s1.countDev 8 0 (r.eng.val * 256 + x.status.toNat)
  if x.status = 0 then s2 else s2.fixDev 0

/-- The ring halts (R214), with its recorder record. -/
def State.haltRing (s : State) (r : Rid) (tag : Nat) : State :=
  (s.modRing r fun g => { g with halt := true }).happen 0x0A 8 0 (r.eng.val * 256 + r.ring.val) (leBytes 4 tag)

/-- The head of the ring whose turn it is, where it is malformed, with its status. -/
def State.malformedHead (s : State) (r : Rid) : Option (Desc × Nat) :=
  if s.turn r && !s.batchHead r then
    match (s.ring r).fetched with
    | [] => none
    | d :: _ => (d.malformed (s.abiSel (ringPf r))).map fun st => (d, st)
  else none

/-- That head completes (R216, R218): the round robin goes on; a `WAITT` halts its ring (R214). -/
def State.drainOne (s : State) (r : Rid) (d : Desc) (st : Nat) : State :=
  let s1 := ((s.modRing r fun g => { g with fetched := g.fetched.drop 1 }).modEng r.eng fun e => { e with rr := r.ring.val }).record r
    { tag := d.tag, status := byteOf st, index := d.index, irq := d.irq }
  if d.mop = 0x38 then s1.haltRing r d.tag.toNat else s1

/-- The command rings of engine `k`. -/
def commandRings (k : Fin 4) : List Rid := [⟨k, 0⟩, ⟨k, 1⟩, ⟨k, 2⟩, ⟨k, 3⟩]

/-- Turns that go to a malformed head pass (R209). -/
def State.drain (s : State) (k : Fin 4) : Nat → State
  | 0 => s
  | n + 1 =>
    match (commandRings k).findSome? fun r => (s.malformedHead r).map fun x => (r, x.1, x.2) with
    | some (r, d, st) => (s.drainOne r d st).drain k n
    | none => s

/-- Every turn of the engine of ring `r` that goes to a malformed head. -/
def State.drainAll (s : State) (r : Rid) : State :=
  s.drain r.eng ((commandRings r.eng).map fun q => (s.ring q).fetched.length).sum

/-- The instruction of `ref` reaches DONE: its record waits, unless a function-level reset took it (R439); it no longer counts as
outstanding, and a ring that it held is free again. -/
def State.complete (s : State) (ref : CmdRef) (status : Nat) (result : Nat := 0) (late : Bool := false) (stepped : Bool := false)
    (dseq : Option W32 := none) : State :=
  let held := match (s.ring ref.rid).hold with
    | some (.time h _ _ _ _) | some (.ream h _ _) | some (.fence h _) => decide (h = ref)
    | none => false
  let s1 := s.modEng ref.rid.eng fun e => { e with outst := e.outst.filter (· ≠ ref) }
  let s2 := if held then s1.modRing ref.rid fun g => { g with hold := none } else s1
  let s3 := if (s2.ring ref.rid).mute then s2 else s2.record ref.rid
    { tag := ref.tag, status := byteOf status, late := late, stepped := stepped, index := ref.index,
      result := BitVec.ofNat 64 result, irq := ref.irq, dseq := dseq }
  if held then s3.drainAll ref.rid else s3

/-- The head of ring `r` leaves CHECK: the ring advances, and the round robin with it. -/
def State.pop (s : State) (r : Rid) : State :=
  ((s.modRing r fun g => { g with fetched := g.fetched.drop 1, waiting := false }).modEng r.eng
    fun e => { e with rr := r.ring.val })

/-- The instruction is accepted and not yet DONE (APPLYING or PENDING, R208). -/
def State.accept (s : State) (ref : CmdRef) : State := s.modEng ref.rid.eng fun e => { e with outst := e.outst ++ [ref] }

/-- An accepted instruction whose DP effect the mill has yet to report (R208, APPLYING). -/
def State.applyNow (s : State) (ref : CmdRef) (result : Nat := 0) (late : Bool := false) (dseq : Option W32 := none) : State :=
  (s.accept ref).modEng ref.rid.eng fun e => { e with
    applying := e.applying ++ [{ ref := ref, late := late, result := BitVec.ofNat 64 result, dseq := dseq }] }

/-! ## Checks that every instruction shares -/

/-- The epoch test of R226: older is STALE_EPOCH, newer is EPOCH_AHEAD. -/
def State.epochTest (s : State) (e : Nat) : Option Nat :=
  let d := (s.mte.epoch.toNat + 2 ^ 32 - e % 2 ^ 32) % 2 ^ 32
  if d = 0 then none else if d < 2 ^ 31 then some 0x14 else some 0x15

/-- TARGET (R226). -/
def State.targetTest (s : State) (k : Fin 4) (d : Desc) : Option Nat :=
  match d.kind with
  | 0 => none
  | 1 => if s.role ≠ 1 then some 0x16 else s.epochTest d.epoch
  | 2 => if s.role ≠ 2 then some 0x16 else s.epochTest d.epoch
  | _ =>
    let c : Fin 8 := ⟨d.cluster, by unfold Desc.cluster natBits; omega⟩
    if (s.vat k).run[c] = 1 ∧ (s.vat k).gen[c] = d.epoch % 65536 then none else some 0x14

/-- The device is in SYNC, STANDBY or RELEASED (R405). -/
def State.following (s : State) : Bool := decide (s.role = 2)

/-- TARGET, the mate role, the officer and the mill (R226, R405, R211, R206), in this order. -/
def State.gate (s : State) (r : Rid) (d : Desc) : Option Nat :=
  match s.targetTest r.eng d with
  | some st => some st
  | none =>
    if d.mateRefused && s.following then some 0x16
    else if d.officerOnly && decide ((ringPf r) = 0) then some 0x12
    else if d.perMill && !s.millLive r.eng then some 0x13
    else none

/-- The head of ring `r`, where it is the instruction (mop, sub-op), well-formed and no part of a batch, and it is the
ring's turn. -/
def State.headFor (s : State) (r : Rid) (mop : Nat) (op : Nat → Bool) : Option Desc :=
  if s.turn r && !s.batchHead r then
    match (s.ring r).fetched with
    | [] => none
    | d :: _ => if (d.malformed (s.abiSel (ringPf r))).isNone && decide (d.mop = mop) && op d.op then some d else none
  else none

/-- Take the head of the ring as the instruction (mop, sub-op): complete it with the status of a failed common check, or run
it. The command is not due where the head is another instruction. -/
def State.issue (s : State) (r : Rid) (mop : Nat) (op : Nat → Bool) (run : State → Desc → CmdRef → State) : Res :=
  match s.headFor r mop op with
  | none => idle s
  | some d =>
    match s.gate r d with
    | some st => finish (((s.pop r).complete (d.ref r) st).drainAll r)
    | none => finish ((run (s.pop r) d (d.ref r)).drainAll r)

/-- What an accepted instruction did: the state, RESULT, LATE, and the DSEQ its record waits for. -/
structure Eff where
  s : State
  result : Nat := 0
  late : Bool := false
  dseq : Option W32 := none

/-- An instruction without DP effect: complete it at acceptance (Table 7-1). -/
def State.doNow (chk : State → Fin 4 → Desc → Option Nat) (eff : State → Fin 4 → Desc → Eff) (s : State) (d : Desc) (ref : CmdRef) :
    State :=
  match chk s ref.rid.eng d with
  | some st => s.complete ref st
  | none => let e := eff s ref.rid.eng d; e.s.complete ref 0 e.result e.late false e.dseq

/-- An instruction with an immediate DP effect: APPLYING until the mill reports it. -/
def State.doApply (chk : State → Fin 4 → Desc → Option Nat) (eff : State → Fin 4 → Desc → Eff) (s : State) (d : Desc) (ref : CmdRef) :
    State :=
  match chk s ref.rid.eng d with
  | some st => s.complete ref st
  | none => let e := eff s ref.rid.eng d; e.s.applyNow ref e.result e.late e.dseq

/-- A time operand (10 bytes of ARG) in time base units; none where the nanoseconds exceed their range (R489). -/
def Desc.time (d : Desc) : Option Nat := if d.arg 0 4 ≤ 999999999 then some (timeU (d.arg 4 6) (d.arg 0 4)) else none

/-- The first failing check of a list of (failed, status). -/
def firstFail : List (Bool × Nat) → Option Nat
  | [] => none
  | (true, st) :: _ => some st
  | (false, _) :: cs => firstFail cs

/-- Raise the vector of a ring (R464, R465). -/
def State.ringMsix (s : State) (r : Rid) : State :=
  let v : Fin 256 := ⟨natBits (s.rcfg r) 16 8, by unfold natBits; omega⟩
  if (128 ≤ v.val) ≠ ((ringPf r) = 1) then s.countDev 0xF 2 0 else s.msix v

/-- Write to host memory under a function (R470). -/
def State.hostWrite (s : State) (pf : Fin 2) (addr : Nat) (data : Bytes) : State := s.emit (.hostWrite pf.val addr data)

end Sys2Proof.Machine
end

