-- ==== Sys2Proof/Machine/Gates.lean ====
section
/-! DEFINITION. Gate lists (R252-R256): the entry in force, the open time that remains, the longest window. Times in
time base units (2^-40 ns). -/

namespace Sys2Proof.Machine

/-- The position in the cycle at reading `t` (R253). -/
def GateList.phase (g : GateList) (t : Nat) : Nat :=
  (((t : Int) - (g.base * nsU : Nat)) % ((max 1 g.cycle * nsU : Nat) : Int)).toNat

/-- The index of the entry in force at a position of the cycle; the last entry stays in force. -/
def gateIndex : List (Nat × Byte) → Nat → Nat
  | [], _ => 0
  | [_], _ => 0
  | (i, _) :: es, p => if p < i * nsU then 0 else 1 + gateIndex es (p - i * nsU)

def GateList.index (g : GateList) (t : Nat) : Nat := gateIndex g.entries (g.phase t)
/-- The gate states in force; all open where there is no entry. -/
def GateList.states (g : GateList) (t : Nat) : Byte := (g.entries.getD (g.index t) (0, 0xFF)).2

/-- The cycle as (length, open) pieces for queue `q`: cut at the cycle time, the last entry filling it (R253). -/
def gatePieces (q : Nat) : List (Nat × Byte) → Nat → List (Nat × Bool)
  | [], left => if left = 0 then [] else [(left, true)]
  | [(_, b)], left => if left = 0 then [] else [(left, b.getLsbD q)]
  | (i, b) :: es, left =>
    let n := min (i * nsU) left
    if n = 0 then [] else (n, b.getLsbD q) :: gatePieces q es (left - n)

def GateList.pieces (g : GateList) (q : Nat) : List (Nat × Bool) := gatePieces q g.entries (g.cycle * nsU)

/-- The pieces of one whole cycle from a position on: what is left of the cycle, then its start up to that position. -/
def piecesFrom : List (Nat × Bool) → Nat → List (Nat × Bool)
  | [], _ => []
  | (n, o) :: ps, p => if p < n then (n - p, o) :: ps else piecesFrom ps (p - n)

/-- Open time at the head of a list of pieces; none where every piece is open. -/
def openRun : List (Nat × Bool) → Option Nat
  | [] => none
  | (_, false) :: _ => some 0
  | (n, true) :: ps => (openRun ps).map (n + ·)

/-- How long queue `q` stays open from reading `t`; none: for ever (R255). -/
def GateList.openFrom (g : GateList) (q t : Nat) : Option Nat :=
  openRun (piecesFrom (g.pieces q) (g.phase t) ++ g.pieces q)

/-- The longest open run of a list of pieces; `cur` is the run so far. -/
def longestRun : List (Nat × Bool) → Nat → Nat → Nat
  | [], cur, best => max cur best
  | (n, true) :: ps, cur, best => longestRun ps (cur + n) best
  | (_, false) :: ps, cur, best => longestRun ps 0 (max cur best)

/-- The longest window of queue `q` in one cycle, the end joined to the start; none: open for the whole cycle (R255). -/
def GateList.longest (g : GateList) (q : Nat) : Option Nat :=
  let ps := g.pieces q
  if ps.all (·.2) then none else some (longestRun (ps ++ ps) 0 0)

/-- The start time of a list in time base units. -/
def GateList.startU (g : GateList) : Nat := g.base * nsU

/-- Queue `q` of a port is open at this instant. `tb` reads a time base. -/
def Port.gateOpen (x : Port) (tb : Fin 8 → Nat) (q : Nat) : Bool :=
  match x.oper with
  | none => true
  | some g => (g.states (tb g.tb)).getLsbD q

/-- Remaining open time of queue `q`: over the operational list and, from its start, over the pending list (R255). -/
def Port.openFor (x : Port) (tb : Fin 8 → Nat) (q : Nat) : Option Nat :=
  let a := match x.oper with
    | none => none
    | some g => g.openFrom q (tb g.tb)
  match x.pend with
  | none => a
  | some p =>
    let till := p.startU - tb p.tb
    if (match a with | none => true | some n => decide (till ≤ n)) then
      (openRun (p.pieces q ++ p.pieces q)).map (till + ·)
    else a

/-- A frame that needs `need` never fits (R255). -/
def Port.tooLong (x : Port) (q need : Nat) : Bool :=
  match x.oper with
  | none => false
  | some g => match g.longest q with
    | none => false
    | some w => decide (w < need)

/-- The pending list becomes operational at reading `t`, with the entry in force there (R253, R254). -/
def Port.startList (x : Port) (t : Nat) : Port :=
  match x.pend with
  | none => x
  | some g => { x with oper := some g, pend := none, entry := g.index t }

/-- A frame of length `len` needs this much time at `rate` Gb/s (R255). -/
def frameTime (len rate : Nat) : Nat := (len + 20) * 8 * nsU / max 1 rate

end Sys2Proof.Machine
end

