-- ==== Sys2Proof/Machine/Time.lean ====
section
/-! DEFINITION. Time bases, servo, triggers, captures and stamp queues (chapter 9). -/

namespace Sys2Proof.Machine

/-! ## Steps -/

/-- Every ring of the device. -/
def allRids : List Rid := (List.finRange 4).flatMap fun k => (List.finRange 12).map fun i => ⟨k, i⟩

/-- Release each `WAITT` whose time a step of time base `b` from `old` to `new` crosses (R223). -/
def State.stepWaits (s : State) (b : Fin 8) (old new : Nat) : List Rid → State
  | [] => s
  | r :: rs =>
    let s1 := match (s.ring r).hold with
      | some (.time ref tb target _ _) =>
        if tb = b ∧ old < target ∧ target ≤ new then s.complete ref 0 0 false true else s
      | _ => s
    s1.stepWaits b old new rs

/-- Every pending gate list on `b` whose start the time base has reached becomes operational (R254, R256). -/
def Port.passStart (x : Port) (b : Fin 8) (t : Nat) : Port :=
  match x.pend with
  | none => x
  | some g => if g.tb = b ∧ g.startU ≤ t then x.startList t else x

/-- A port after a step of time base `b` to `t`: its gate position moves on that edge. -/
def Port.stepGate (x : Port) (b : Fin 8) (t : Nat) : Port :=
  let y := x.passStart b t
  match y.oper with
  | none => y
  | some g => if g.tb = b then { y with entry := g.index t } else y

def State.stepGates (s : State) (b : Fin 8) (t : Nat) : State :=
  { s with mills := s.mills.map fun m => { m with ports := m.ports.map fun p => p.stepGate b t } }

/-- The first rise of a programme at or after reading `t`. -/
def Trig.riseFrom (g : Trig) (t : Nat) : Option Nat :=
  if t ≤ g.start then some g.start
  else if g.period = 0 then none
  else some (g.start + (t - g.start + g.period - 1) / g.period * g.period)

/-- The pulse in progress is one of the programme's. -/
def Trig.own (g : Trig) : Bool :=
  g.high && decide (g.fallTb = g.tb ∧ g.start + g.width ≤ g.fallAt)
    && (if g.period = 0 then decide (g.fallAt = g.start + g.width) else decide ((g.fallAt - g.start - g.width) % g.period = 0))

/-- A step of its time base to reading `t` moves the edges of a programme (R290): those passed are not sent, those repeated are. A step
back past the rise of the pulse in progress repeats an earlier fall; the rise before it finds the output high already. The pulse in
progress keeps its fall otherwise; a stopped output keeps nothing but that. -/
def Trig.step (g : Trig) (b : Fin 8) (t : Nat) : Trig :=
  if g.tb ≠ b ∨ g.width = 0 then g
  else if g.own && decide (t + g.width < g.fallAt) then
    match g.riseFrom (t + 1 - g.width) with
    | some n => { g with fallAt := n + g.width, more := decide (g.period ≠ 0), next := n + g.period }
    | none => g
  else
    match g.riseFrom (if g.own then max t g.fallAt else t) with
    | some n => { g with active := true, more := true, next := n }
    | none => { g with more := false, active := g.high }

/-- Step time base `b` by `d` units with all that follows on that edge (R269, R270, R223, R256, R290). -/
def State.stepTb (s : State) (b : Fin 8) (d : Int) : State :=
  let old := (s.tbAt b).val
  let s1 := (s.modTb b fun t => t.step d s.now).setBit (Reg.tim (0x40 * b.val)) 8
  let new := (s1.tbAt b).val
  let s2 := s1.modTim fun t => { t with trig := t.trig.map fun g => g.step b new }
  (s2.stepGates b new).stepWaits b old new allRids

/-! ## The servo (R271-R274) -/

/-- The nearest integer to n / d, halves away from zero. -/
def roundHalfAway (n : Int) (d : Nat) : Int :=
  if 0 ≤ n then (2 * n + d) / (2 * d : Nat) else -((2 * (-n) + d) / (2 * d : Nat))

def clampI (lo hi x : Int) : Int := max lo (min hi x)

/-- The last offset in nanoseconds, saturating (Table 9-11); `th` is in 2^-16 ns. -/
def thetaReg (th : Int) : W32 :=
  BitVec.ofInt 32 (clampI (-(2 ^ 31 - 1)) (2 ^ 31 - 1) (roundOpen (th / 65536 : Rat)))

/-- The integrator after offset `th` (2^-16 ns), in 2^-30 ns. -/
def TimeBase.integrate (t : TimeBase) (th : Int) : Int :=
  clampI (-(t.ilim * 2 ^ 30 : Nat)) (t.ilim * 2 ^ 30 : Nat) (t.integ + t.ki.toNat * th)

/-- The rate adjustment before it is clamped (R271). -/
def TimeBase.rawAdj (t : TimeBase) (th : Int) : Int :=
  roundHalfAway (-(t.kp.toNat * th + t.integrate th) * 1024) (t.interval * 1000000)

/-- An offset (2^-16 ns) reaches the servo of time base `b` (R271, R272). -/
def State.servoOffset (s : State) (b : Fin 8) (th : Int) : State :=
  let t := s.tbAt b
  let s0 := s.modTb b fun t => { t with theta := thetaReg th }
  if t.stepTh ≠ 0 ∧ (t.stepTh * 65536 : Nat) < th.natAbs then
    (s0.stepTb b (-th * 2 ^ 24)).setBit (Reg.tim (0x40 * b.val)) 10
  else
    let raw := t.rawAdj th
    let adj := clampI (-(2 ^ 31)) (2 ^ 31 - 1) raw
    let s1 := (s0.modTb b fun x => { x with integ := t.integrate th }).setReg (Reg.tim (0x40 * b.val + 4)) (toTwos 32 adj)
    if adj = raw then s1 else s1.setBit (Reg.tim (0x40 * b.val)) 9

/-- An offset of a hardware source: discarded and counted on the edge of a step (R273); a standby's follower takes the place
of the servo (R408). -/
def State.hwOffset (s : State) (b : Fin 8) (th : Int) : State :=
  if s.mte.st = .standby then s
  else if (s.tbAt b).stepAt = some s.now then s.countDev 0xB 7 b.val
  else s.servoOffset b th

/-- Reading `v` minus the nearest whole second, in 2^-16 ns; halfway, either one (a free value). -/
def secondOffset (v : Nat) : Int :=
  let r : Nat := (v / 2 ^ 24) % (1000000000 * 65536)
  if 2 * r < 1000000000 * 65536 ∨ (2 * r = 1000000000 * 65536 ∧ Config.freeNat v % 2 = 0) then (r : Int)
  else (r : Int) - (1000000000 * 65536 : Nat)

/-! ## TBSTEP, TBSERVO -/

def tbOf (d : Desc) : Fin 8 := ⟨d.p1 % 8, by omega⟩

def checkTbstepAbs (_ : State) (_ : Fin 4) (d : Desc) : Option Nat := if d.time.isNone then some 0x1B else none
def applyTbstepAbs (s : State) (_ : Fin 4) (d : Desc) : Eff :=
  { s := s.stepTb (tbOf d) ((d.time.getD 0 : Nat) - ((s.tbAt (tbOf d)).val : Int)) }

/-- R269, ABS = 1. -/
def execTbstepAbs (r : Rid) (s : State) : Res := s.issue r 0x30 (· = 1) (State.doNow checkTbstepAbs applyTbstepAbs)

def checkTbstepRel (s : State) (_ : Fin 4) (d : Desc) : Option Nat := if s.tbRun (tbOf d) then none else some 0x1C
def applyTbstepRel (s : State) (_ : Fin 4) (d : Desc) : Eff :=
  { s := s.stepTb (tbOf d) (sext 64 (d.arg 0 8) * nsU + (d.arg 8 2 * 2 ^ 24 : Nat)) }

/-- R269, ABS = 0. -/
def execTbstepRel (r : Rid) (s : State) : Res := s.issue r 0x30 (· = 0) (State.doNow checkTbstepRel applyTbstepRel)

/-- The state change that tells a standby the servo settings of `b` (Table 14-5). -/
def State.servoDelta (s : State) (b : Fin 8) : Eff :=
  let (s1, n) := s.delta (.servo b (s.tbAt b))
  { s := s1, dseq := n }

def checkGains (_ : State) (_ : Fin 4) (d : Desc) : Option Nat :=
  let src := d.arg 14 1 % 8
  let iv := d.arg 12 2
  if d.arg 4 4 < 1 ∨ 1000000000 < d.arg 4 4 ∨ iv < 1 ∨ 10000 < iv ∨ src = 7 ∨ (1 ≤ src ∧ src ≤ 5 ∧ iv ≠ 1000)
    ∨ (src = 6 ∧ natBits (d.arg 14 1) 4 3 = (tbOf d).val) then some 0x1B else none
def applyGains (s : State) (_ : Fin 4) (d : Desc) : Eff :=
  (s.modTb (tbOf d) fun t => { t with
    kp := BitVec.ofNat 16 (d.arg 0 2), ki := BitVec.ofNat 16 (d.arg 2 2), ilim := d.arg 4 4, stepTh := d.arg 8 4
    interval := d.arg 12 2, integ := 0
    src := ⟨d.arg 14 1 % 8, by omega⟩, srcTb := ⟨d.arg 14 1 / 16 % 8, by omega⟩ }).servoDelta (tbOf d)

/-- R274, GAINS. -/
def execTbservoGains (r : Rid) (s : State) : Res := s.issue r 0x31 (· = 0) (State.doNow checkGains applyGains)

def checkOffset (s : State) (_ : Fin 4) (d : Desc) : Option Nat :=
  let t := s.tbAt (tbOf d)
  if t.src ≠ 0 ∨ !t.servoEn then some 0x20 else none
def applyOffset (s : State) (_ : Fin 4) (d : Desc) : Eff := { s := s.servoOffset (tbOf d) (sext 64 (d.arg 0 8)) }

/-- R271-R273, OFFSET. -/
def execTbservoOffset (r : Rid) (s : State) : Res := s.issue r 0x31 (· = 1) (State.doNow checkOffset applyOffset)

def noCheck (_ : State) (_ : Fin 4) (_ : Desc) : Option Nat := none
def applyServoEn (on : Bool) (s : State) (_ : Fin 4) (d : Desc) : Eff :=
  (s.modTb (tbOf d) fun t => { t with servoEn := on }).servoDelta (tbOf d)

/-- R274, ENABLE: the present ADJ is the starting output. -/
def execTbservoEnable (r : Rid) (s : State) : Res := s.issue r 0x31 (· = 2) (State.doNow noCheck (applyServoEn true))
/-- R274, DISABLE: ADJ and the integrator stay. -/
def execTbservoDisable (r : Rid) (s : State) : Res := s.issue r 0x31 (· = 3) (State.doNow noCheck (applyServoEn false))

/-- R273: every INTERVAL, the offset of `b` against its reference time base, both read on one edge. -/
def execServoInterval (b : Fin 8) (s : State) : Res :=
  let t := s.tbAt b
  if s.timLive ∧ t.servoEn ∧ t.src = 6 then
    finish (s.hwOffset b ((t.val / 2 ^ 24 : Nat) - ((s.tbAt t.srcTb).val / 2 ^ 24 : Nat)))
  else idle s

/-! ## Running and reading a time base -/

/-- A TIM cycle of a base: 4 ns times 1 + ADJ (R267), ADJ signed in units of 2^-40. -/
def TimeBase.advance (t : TimeBase) (adj : Nat) : TimeBase :=
  { t with val := (((t.val : Int) + (4 * nsU : Nat) + 4 * sext 32 adj) % (tbWrap : Int)).toNat }

/-- The junction sensor is read every 10 µs on main power (chapter 15, Sources): 2,500 cycles of 4 ns. The reading is a free value. -/
def State.readJunction (s : State) : Tmp :=
  let v := Config.junction s.now
  { s.tmp with temp := v, tempMax := if s.tmp.tempMax.toInt < v.toInt then v else s.tmp.tempMax }

/-- A cycle of the TIM clock passes: 4 ns, in which the running time bases advance (R267). -/
def State.tick (s : State) : State :=
  { s with
    now := s.now + 1
    tim := { s.tim with tb := Vector.ofFn fun b : Fin 8 =>
      if s.timLive && s.tbRun b then s.tim.tb[b].advance (s.reg (Reg.tim (0x40 * b.val + 4))) else s.tim.tb[b] }
    tmp := if (s.now + 1) % 2500 = 0 ∧ s.rst.porHeld = false then s.readJunction else s.tmp }

/-- R267: the time base advances from now on. -/
def execTbRunSet (b : Fin 8) (s : State) : Res :=
  if s.timLive then finish (s.setBit (Reg.tim (0x40 * b.val)) 0) else idle s

/-- The four words of a time (Table 9-10): fraction, nanoseconds, seconds. -/
def timeWords (v : Nat) : List W32 :=
  [BitVec.ofNat 32 (tbFrac v), BitVec.ofNat 32 (tbNs v), BitVec.ofNat 32 (tbSec v % 2 ^ 32), BitVec.ofNat 32 (tbSec v / 2 ^ 32)]

/-- Latch the words that follow address `a` (R15). -/
def State.latchWords (s : State) (a : Nat) : List W32 → State
  | [] => s
  | w :: ws => (s.modHst fun h => { h with latch := tins a w h.latch }).latchWords (a + 4) ws

/-- R268: a read of FRAC returns it and latches NS, SEC_LO and SEC_HI on the same edge. -/
def execTbRead (b : Fin 8) (s : State) : Res :=
  if s.timLive then
    let a := Reg.tim (0x40 * b.val + 8)
    let ws := timeWords (s.tbAt b).val
    finish ((s.latchWords (a + 4) (ws.drop 1)).emit (.regRead 0 a (ws.headD 0)))
  else idle s

/-! ## Trigger outputs (R289, R290, R415) -/

def State.trig (s : State) (k : Fin 8) : Trig := s.tim.trig[k]
def State.modTrig (s : State) (k : Fin 8) (f : Trig → Trig) : State :=
  s.modTim fun t => { t with trig := t.trig.set k (f t.trig[k]) }

def trigOf (d : Desc) : Fin 8 := ⟨d.p1 % 8, by omega⟩
def trigTb (d : Desc) : Fin 8 := ⟨d.p1 / 16 % 8, by omega⟩

def checkTrigset (_ : State) (_ : Fin 4) (d : Desc) : Option Nat :=
  let p := d.arg 12 4
  let w := d.arg 16 4
  if d.time.isNone ∨ (p ≠ 0 ∧ p < 16) ∨ (w ≠ 0 ∧ (w < 8 ∨ (p = 0 ∧ 1000000000 < w) ∨ (p ≠ 0 ∧ p < w + 8))) then some 0x1B else none

/-- Periods to skip so that the start lies at or after `t` + 2 µs (R290). -/
def lateBy (start period t : Nat) : Nat :=
  if 2000 * nsU ≤ start - t then 0 else (t + 2000 * nsU - start + period - 1) / max 1 period

/-- The programme that TRIGSET sets, the edges that it skips, and whether its start had passed (R289). -/
def State.trigPlan (s : State) (d : Desc) : Trig × Nat × Bool :=
  let start := d.time.getD 0
  let period := d.arg 12 4 * nsU
  let width := d.arg 16 4 * nsU
  let t := (s.tbAt (trigTb d)).val
  let late := decide (d.arg 16 4 ≠ 0) && decide (start - t < 2000 * nsU)
  let n := if late && decide (d.arg 12 4 ≠ 0) then lateBy start period t else 0
  let runs := decide (d.arg 16 4 ≠ 0) && !(late && decide (d.arg 12 4 = 0))
  ({ s.trig (trigOf d) with
    active := runs || (s.trig (trigOf d)).high, tb := trigTb d, start := start + n * period, period := period, width := if runs then width else 0
    more := runs, next := start + n * period }, n, late)

/-- The programme takes effect (R289); LATE of the trigger is set where its start had passed (R290). -/
def State.trigPut (s : State) (d : Desc) : State :=
  if (s.trigPlan d).2.2 then (s.modTrig (trigOf d) fun _ => (s.trigPlan d).1).setBit (Reg.tim (0x700 + 4 * (trigOf d).val)) 1
  else s.modTrig (trigOf d) fun _ => (s.trigPlan d).1
def State.trigDelta (s : State) (d : Desc) : State × Option W32 := (s.trigPut d).delta (.trig (trigOf d) (s.trigPlan d).1)
def applyTrigset (s : State) (_ : Fin 4) (d : Desc) : Eff :=
  { s := (s.trigDelta d).1, result := (s.trigPlan d).2.1, late := (s.trigPlan d).2.2, dseq := (s.trigDelta d).2 }

/-- R289, R290: programme a trigger output; a width of 0 stops it. -/
def execTrigset (r : Rid) (s : State) : Res := s.issue r 0x32 (fun _ => true) (State.doNow checkTrigset applyTrigset)

/-- The device holds the line grant, and so drives its trigger pins (R415). -/
def State.granted (s : State) : Bool := decide (s.mte.lock = .granted)

/-- A pin takes a level, where the device drives it. A device whose mate holds the line keeps account of the level that the mate's
same programme puts on the shared net; between the two the keeper holds it (R414). -/
def State.drivePin (s : State) (k : Nat) (high : Bool) : State :=
  let s1 := s.modPads fun p => { p with trigOut := if high then p.trigOut ||| (1#9 <<< k) else p.trigOut &&& ~~~(1#9 <<< k) }
  if s.granted then s1.emit (.pin k high) else if s.pads.mateActIn then s1 else s

/-- R289: the pulse in progress ends one width after it began; otherwise the next pulse starts at its time. -/
def execTriggerEdge (k : Fin 8) (s : State) : Res :=
  let g := s.trig k
  if s.timLive && g.high && decide (g.fallAt ≤ (s.tbAt g.fallTb).val) then
    finish ((s.modTrig k fun g => { g with high := false, active := g.more }).drivePin k.val false)
  else if s.timLive && g.active && g.more && !g.high && decide (g.next ≤ (s.tbAt g.tb).val) then
    finish ((s.modTrig k fun g => { g with
      high := true, fallAt := g.next + g.width, fallTb := g.tb
      more := decide (g.period ≠ 0), next := g.next + g.period }).drivePin k.val true)
  else idle s

/-- A whole second of a time base was reached in the TIM cycle that ends now: the reading is less than one cycle past it. -/
def State.wholeSecond (s : State) (b : Fin 8) : Bool :=
  s.tbRun b && decide (((s.tbAt b).val % (1000000000 * nsU) : Int) < (4 * nsU : Nat) + 4 * sext 32 (s.reg (Reg.tim (0x40 * b.val + 4))))

/-- R291: PPS_OUT rises at a whole second of TIM_PPS.TB and falls WIDTH ms later; it stays low while EN is 0. -/
def execPpsEdge (s : State) : Res :=
  let a := Reg.tim 0x7F0
  let b : Fin 8 := ⟨s.fld a 0 3, by unfold State.fld natBits; omega⟩
  let v := (s.tbAt b).val
  if s.timLive && s.tim.ppsOut then
    (if s.tim.ppsFall ≤ (s.tbAt s.tim.ppsTb).val then finish ((s.modTim fun t => { t with ppsOut := false }).drivePin 8 false) else idle s)
  else if s.timLive && s.bit a 3 && s.wholeSecond b then
    finish ((s.modTim fun t => { t with
      ppsOut := true, ppsTb := b
      ppsFall := v - v % (1000000000 * nsU) + s.fld a 4 10 * 1000000 * nsU }).drivePin 8 true)
  else idle s

/-! ## Captures and stamp queues (R287, R291) -/

def State.queueAt (s : State) (q : Fin 9) : StampQueue := s.tim.queues[q]
def State.modQueue (s : State) (q : Fin 9) (f : StampQueue → StampQueue) : State :=
  s.modTim fun t => { t with queues := t.queues.set q (f t.queues[q]) }

/-- Put an entry into a 16-entry queue; a full one discards it, to be reported with the next entry read. -/
def State.pushStamp (s : State) (q : Fin 9) (e : QEnt) : State :=
  if (s.queueAt q).ents.length < 16 then s.modQueue q fun x => { x with ents := x.ents ++ [e] }
  else (s.modQueue q fun x => { x with ovf := true }).countDev 0xB 8 q.val

/-- The servo of time base `b` follows capture channel `k` (Table 9-2). -/
def TimeBase.follows (t : TimeBase) (k : Fin 5) : Bool :=
  t.servoEn && decide (t.src.val = if k.val = 4 then 1 else 2 + k.val)

def State.captureOffsets (s : State) (k : Fin 5) (th : Int) : List (Fin 8) → State
  | [] => s
  | b :: bs => (if (s.tbAt b).follows k then s.hwOffset b th else s).captureOffsets k th bs

/-- R291, R273: a selected edge is stamped into its queue; a captured rising edge is an offset for the servos that follow
this input. -/
def execCaptureEdge (k : Fin 5) (rising : Bool) (s : State) : Res :=
  let a := Reg.tim (0x900 + 0x20 * k.val)
  if s.timLive && s.bit a (if rising then 3 else 4) then
    let b : Fin 8 := ⟨s.fld a 0 3, by unfold State.fld natBits; omega⟩
    let st := s.stamp b
    let q : Fin 9 := ⟨4 + k.val, by omega⟩
    let room := decide ((s.queueAt q).ents.length < 16)
    let s1 := s.pushStamp q { stamp := st, port := b2n rising }
    finish (if rising && room then s1.captureOffsets k (secondOffset st.val) (List.finRange 8) else s1)
  else idle s

def queueIdx : StampQ → Fin 9
  | .tsq m => ⟨m.val, by omega⟩
  | .cap k => ⟨4 + k.val, by omega⟩

/-- Address of W0 of a queue (Table 9-19). -/
def queueAddr : StampQ → Nat
  | .tsq m => Reg.tim (0x800 + 0x20 * m.val)
  | .cap k => Reg.tim (0x904 + 0x20 * k.val)

/-- W0 to W3 of an entry; `ovf` is the queue's overflow mark (Table 9-19). -/
def QEnt.words (e : QEnt) (ovf : Bool) : List W32 :=
  let v := e.stamp.val
  [BitVec.ofNat 32 (tbFrac v + e.port % 32 * 2 ^ 16 + e.mtype % 16 * 2 ^ 21 + b2n e.dir * 2 ^ 25 + b2n ovf * 2 ^ 30 + 2 ^ 31),
   BitVec.ofNat 32 (tbNs v), BitVec.ofNat 32 (tbSec v % 2 ^ 32), BitVec.ofNat 32 (tbSec v / 2 ^ 32 + e.seqid % 65536 * 65536)]

/-- A read of W0: the words read, and the queue and latches after it. -/
def State.takeStamp (s : State) (q : Fin 9) (a : Nat) : W32 × State :=
  match (s.queueAt q).ents with
  | [] => (0, s.latchWords (a + 4) [0, 0, 0])
  | e :: es =>
    let ws := e.words (s.queueAt q).ovf
    (ws.headD 0, (s.modQueue q fun x => { x with ents := es, ovf := false }).latchWords (a + 4) (ws.drop 1))

/-- R287, R291, R15: a read of W0 removes the oldest entry and latches W1 to W3. -/
def execStampQueueRead (q : StampQ) (s : State) : Res :=
  if s.timLive then
    let (w, s1) := s.takeStamp (queueIdx q) (queueAddr q)
    finish (s1.emit (.regRead 0 (queueAddr q) w))
  else idle s

/-! ## Match tables (R286) -/

def State.tcTable (s : State) (t : Nat) : List TcEntry := tget [] s.tim.tc t
def State.setTcTable (s : State) (t : Nat) (es : List TcEntry) : State := s.modTim fun x => { x with tc := tset [] t es x.tc }

/-- R286: an entry unused for 1 s is freed. -/
def execTcEntryExpire (table : Fin 36) (i : Fin 32) (s : State) : Res :=
  if i.val < (s.tcTable table.val).length then finish (s.setTcTable table.val ((s.tcTable table.val).eraseIdx i.val)) else idle s

/-! ## Line delay (R279), in 1/64 ns -/

/-- The receive delay after a round trip `r`; `asym`, `tol` (ns) and `filt` from the registers. -/
def LineDelay.update (x : LineDelay) (r : Rat) (asym : Int) (tol filt : Nat) : LineDelay :=
  let d : Rat := r / 2 + asym
  if !x.valid then { x with valid := true, dbar := d, rtt := r }
  else if (tol * 64 : Nat) < |d - x.dbar| then
    if x.rejects + 1 = 8 then { x with dbar := d, rejects := 0, rtt := r } else { x with rejects := x.rejects + 1, rtt := r }
  else { x with dbar := x.dbar + (d - x.dbar) / 2 ^ filt, rejects := 0, rtt := r }

/-- An echo gave line group `m` the round trip `r` (R279). -/
def State.lineRtt (s : State) (m : Fin 4) (r : Rat) : State :=
  let a := Reg.tim (0x600 + 0x20 * m.val)
  let old := s.tim.line[m]
  let d : Rat := r / 2 + sext 32 (s.reg (a + 4))
  let tol := s.fld a 16 16
  let rej := old.valid && decide ((tol * 64 : Nat) < |d - old.dbar|)
  let s1 := s.modTim fun t => { t with line := t.line.set m (old.update r (sext 32 (s.reg (a + 4))) tol (s.fld a 4 4)) }
  if rej then s1.countDev 0xB 6 m.val else s1

/-- LD_VALID is cleared (R279, on LOA). -/
def State.lineDelayLost (s : State) (m : Fin 4) : State :=
  s.modTim fun t => { t with line := t.line.set m { t.line[m] with valid := false } }

end Sys2Proof.Machine
end

