-- ==== Sys2Proof/Machine/Records.lean ====
section
/-! DEFINITION. Counter blocks, gathers and the event recorder (chapter 17). -/

namespace Sys2Proof.Machine

/-! ## Counter blocks -/

/-- A block exists on this part (R4, R451). -/
def State.hasBlock (s : State) (b : Nat) : Bool := decide (s.otp.part ≠ .jmc7710) || decide (b < 40) || decide (80 ≤ b)

/-- All 8 counters of block `b`, and their SAT bits, become 0. -/
def Pmc.clear (p : Pmc) (b : Nat) : Pmc :=
  { p with
    cnt := tkeep (fun k => k / 8 ≠ b) p.cnt
    sat := tkeep (fun k => k / 8 ≠ b) p.sat
    recent := if p.recent.contains b then p.recent else b :: p.recent }

/-- R454. -/
def execPmcClear (b : Fin 96) (s : State) : Res :=
  if s.mgmtLive && s.hasBlock b then finish (s.modPmc fun p => p.clear b) else idle s

/-- Blocks with CLR_ON_GATHER (Table 17-6). -/
def State.clrBlocks (s : State) : List Nat := (List.range 96).filter fun b => s.bit (Reg.pmc (0x80 * b)) 1

/-- A gather starts: every counter is sampled, and then cleared in the blocks named; a running gather is joined (R455). -/
def Pmc.gather (p : Pmc) (clr : List Nat) : Pmc :=
  if p.busy then p
  else { p with
    snap := p.cnt, busy := true
    cnt := tkeep (fun k => !clr.contains (k / 8)) p.cnt
    cleared := p.cleared ++ p.recent.filter (!p.cleared.contains ·), recent := clr }

/-- R455: PMC_GATHER.GO. -/
def execPmcGather (s : State) : Res :=
  if s.mgmtLive && !s.pmc.busy then finish (s.modPmc fun p => p.gather s.clrBlocks) else idle s

/-- R456: the bank is complete; BUSY clears and GSEQ counts the gather. -/
def execGatherDone (s : State) : Res :=
  if s.mgmtLive && s.pmc.busy then finish ((s.modPmc fun p => { p with busy := false, gseq := p.gseq + 1 }).fixDev 7) else idle s

/-- The delta of counter `k` (R462): its sample, less its last periodic sample unless it was cleared meanwhile. -/
def Pmc.delta (p : Pmc) (k : Nat) : Nat :=
  let v := tget 0 p.snap k
  min (2 ^ 32 - 1) (if p.cleared.contains (k / 8) then v else v - tget 0 p.prev k)

/-- R462: the interval expires: a gather starts or is joined, and a PERIODIC record is owed. -/
def execPeriodicGather (s : State) : Res :=
  if s.mgmtLive && decide (s.fld (Reg.evr 0) 4 16 ≠ 0) then
    let p := s.pmc.gather s.clrBlocks
    let data := (List.range 3).flatMap fun j => leBytes 4 (p.delta (s.fld (Reg.evr (0x10 + 4 * j)) 0 10))
    let s1 := { s with pmc := { p with prev := p.snap, cleared := [] } }
    finish (s1.happen 1 (freeSrc 1) 0 (p.gseq.toNat + 1) data)
  else idle s

/-! ## The event recorder -/

/-- Both areas become invalid and the sequence starts again (R457). -/
def Evr.arm (e : Evr) : Evr := { e with written := 0, first := [], last := [], lost := 0, lostCount := 0, hist := [] }

/-- The register path to the recorder is open: also in a tamper HOLD (R421, Table 15-2). -/
def State.evrPath (s : State) : Bool := s.mgmtLive || s.tmp.holding

/-- R457. -/
def execEvrArm (s : State) : Res := if s.evrPath then finish (s.modEvr Evr.arm) else idle s

/-- The record of a happening (Table 17-3). -/
def Happen.bytes (h : Happen) (seq count : Nat) : Bytes :=
  leBytes 4 seq ++ [h.type, h.src] ++ leBytes 2 h.subject.toNat ++ leBytes 4 h.ns ++ leBytes 6 h.sec ++ leBytes 2 count
    ++ padTo 12 h.data

/-- One more happening in the COUNT of a record. -/
def countUp (r : Bytes) : Bytes := patch r 18 (leBytes 2 (min 65535 (leNat (slice r 18 2) + 1)))

/-- The happening merges into the last record of its TYPE (R460). 1 ms is 250,000 ticks. -/
def Happen.merges (h : Happen) (x : MergeHist) : Bool :=
  decide (x.type = h.type) && decide (x.src = h.src) && decide (x.subject = h.subject) && decide (x.data = h.data)
    && decide (h.tick < x.tick + 250000)

/-- Merge into record `x`, in the areas that still hold it. -/
def Evr.mergeInto (e : Evr) (x : MergeHist) : Evr :=
  { e with
    first := if x.seq < 256 then tset [] x.seq (countUp (tget [] e.first x.seq)) e.first else e.first
    last := if e.written ≤ x.seq + 1024 then tset [] (x.seq % 1024) (countUp (tget [] e.last (x.seq % 1024))) e.last else e.last }

/-- Write a new record (R458). -/
def Evr.writeNew (e : Evr) (h : Happen) : Evr :=
  let r := h.bytes (e.written % 2 ^ 32) 1
  { e with
    written := e.written + 1
    first := if e.written < 256 then tset [] e.written r e.first else e.first
    last := tset [] (e.written % 1024) r e.last
    hist := { type := h.type, src := h.src, subject := h.subject, data := h.data, tick := h.tick, seq := e.written }
      :: e.hist.filter (fun x => decide (x.type ≠ h.type)) }

/-- The queue has room again: a LOST record reports what was lost, and the count restarts (R459). -/
def State.reportLost (s : State) : State :=
  if s.evr.lostCount = 0 then s
  else (s.modEvr fun e => { e with lost := 0, lostCount := 0 }).happen 0x0C (freeSrc 0x0C) 0 0 (leBytes 4 s.evr.lostCount)

/-- R458-R461: the recorder takes the oldest happening: it merges it or writes its record. -/
def execEvrRecordWrite (s : State) : Res :=
  match s.evr.queue with
  | [] => idle s
  | h :: hs =>
    if s.mgmtLive then
      let s1 := s.modEvr fun e => { e with queue := hs }
      finish (match s1.evr.hist.find? h.merges with
        | some x => (s1.modEvr fun e => e.mergeInto x)
        | none => (s1.modEvr fun e => e.writeNew h).fixDev 5).reportLost
    else idle s

/-- The 8 words of a record; an invalid slot reads as zero. -/
def recordWords (r : Bytes) : List W32 := (chunks 4 8 (padTo 32 r)).map fun b => BitVec.ofNat 32 (leNat b)

def evrSlotAddr (last : Bool) (k : Nat) : Nat := 0x6000000 + Reg.evr ((if last then 0x20000 else 0x10000) + 0x20 * k)

/-- R463: a read of word 0 of a slot latches words 1 to 7. -/
def execEvrSlotRead (last : Bool) (k : Fin 1024) (s : State) : Res :=
  if s.evrPath && (last || decide (k.val < 256)) then
    let ws := recordWords (tget [] (if last then s.evr.last else s.evr.first) k.val)
    let a := evrSlotAddr last k.val
    finish ((s.latchWords (a + 4) (ws.drop 1)).emit (.regRead 0 a (ws.headD 0)))
  else idle s

end Sys2Proof.Machine
end

