-- ==== Sys2Proof/Machine/Keys.lean ====
section
/-! DEFINITION. The key store's shared operations (chapter 10): checks of a slot, derivation, generations, persistent copies,
storage epochs, the accession log, installing and erasing. -/

namespace Sys2Proof.Machine

/-! ## Slots -/

/-- Bit `i` of the attribute word (Table 10-1). -/
def Slot.a (v : Slot) (i : Nat) : Bool := v.attr.getLsbD i
/-- LIVE or STAGED. -/
def Slot.usable (v : Slot) : Bool := decide (v.st = .live) || decide (v.st = .staged)

/-- The check value of a key (R301). -/
def checkValue (key : Bytes) : Bytes := (cmac key (List.replicate 16 0)).take 8

/-- Blocks 1 .. n of the counter-mode KDF (R309). -/
def kdfBlocks (key label ctx : Bytes) (bits : Nat) : Nat → Bytes
  | 0 => []
  | n + 1 => kdfBlocks key label ctx bits n ++ cmac key (byteOf (n + 1) :: label ++ 0 :: ctx ++ beBytes 2 bits)

/-- R309: `bits` is 256 or 384. -/
def kdf (key label ctx : Bytes) (bits : Nat) : Bytes := (kdfBlocks key label ctx bits ((bits + 127) / 128)).take (bits / 8)

/-- The P-256 scalar that a 384-bit output stands for (R309). -/
def scalarOf (out : Bytes) : Bytes := beBytes 32 (beNat out % (P256.n - 1) + 1)

def labelIdentity : Bytes := [0xED, 0x49, 0x44, 0x4B]
def labelStoreEnc : Bytes := [0xED, 0x53, 0x54, 0x45]
def labelStoreMac : Bytes := [0xED, 0x53, 0x54, 0x4D]
def labelMate : Bytes := [0xED, 0x4D, 0x54, 0x45]

/-! ## Checks (R298) -/

/-- The life-cycle state lets the key store run (Table 10-10). -/
def State.lcRuns (s : State) : Bool := decide (s.kst.lc = 1) || decide (s.kst.lc = 2) || decide (s.kst.lc = 3)

/-- The LC bit of the present state is clear in an attribute word (step 2). -/
def State.lcBad (s : State) (attr : W32) : Bool := !s.lcRuns || !attr.getLsbD (15 + s.kst.lc)

/-- Step 2 for a slot number: R293, and the slot's own LC bit. An EMPTY slot has no attribute word. -/
def State.slotLcBad (s : State) (n : Nat) : Bool :=
  !s.lcRuns || (decide (1025 ≤ n) && decide (s.kst.lc ≠ 2)) || (decide ((s.slot n).st ≠ .empty) && s.lcBad (s.slot n).attr)

/-- Step 3: OPER for PF0, OFFC for PF1. -/
def State.slotPfBad (s : State) (n : Nat) (pf : Fin 2) : Bool := decide ((s.slot n).st ≠ .empty) && !(s.slot n).a (14 + pf.val)

/-- Steps 1 to 3 for one existing slot. -/
def State.slotPre (s : State) (n : Nat) (pf : Fin 2) : Option Nat :=
  firstFail [(decide (1087 < n), 0x1B), (s.slotLcBad n, 0x54), (s.slotPfBad n pf, 0x53)]

/-- Slots that hold RESERVE, in whatever state but EMPTY, and operations that will install one. -/
def State.reserveHeld (s : State) : Nat :=
  (s.kst.slots.countP fun e => decide (e.2.st ≠ .empty) && e.2.attr.getLsbD 19) + s.kst.jobs.countP fun j => match j.op with
    | .install _ v | .installDrawn _ v => v.attr.getLsbD 19
    | _ => false

/-- R296: the attribute word `w` cannot be installed in slot `n`. -/
def State.attrBad (s : State) (w : W32) (n : Nat) : Bool :=
  let u := w.toNat % 64
  let uses := u = 1 ∨ u = 8 ∨ u = 16 ∨ u = 32 ∨ u = 2 ∨ u = 4 ∨ u = 6
  let reserved := Nat.land w.toNat 0xFFF030C0
  !decide uses || decide (natBits w.toNat 14 2 = 0) || decide (natBits w.toNat 16 3 = 0) || decide (reserved ≠ 0)
    || (w.getLsbD 19 && (!w.getLsbD 1 || decide (1024 ≤ n) || decide (32 ≤ s.reserveHeld)))

/-- R297: slot `n` with attributes `w` cannot be created under parent `p`. -/
def State.childBad (s : State) (w : W32) (n p : Nat) (derive : Bool) : Bool :=
  let q := s.slot p
  decide (Nat.land w.toNat 0x7CF00 ≠ Nat.land (Nat.land w.toNat 0x7CF00) q.attr.toNat) || decide (8 ≤ q.depth)
    || ((decide (1024 ≤ n) || w.getLsbD 19) && decide (p < 1024)) || (w.getLsbD 5 && !derive)

/-! ## Persistent copies (R312) -/

def copyAddr (slot : Nat) (b : Bool) : Nat := 0x100 * (slot - 1024) + (if b then 0x80 else 0)

/-- What a valid copy says. -/
structure Copy where
  gen : Nat
  tomb : Bool
  attr : W32
  parent : Option Nat
  depth : Nat
  key : Bytes
deriving DecidableEq, Repr, Inhabited

/-- The two counter blocks of a copy's key, encrypted. -/
def copyPad (storeKey : Bytes) (slot gen epoch : Nat) : Bytes :=
  (List.range 2).flatMap fun j => aesEnc storeKey (beBytes 2 slot ++ [0, 0] ++ beBytes 4 gen ++ beBytes 4 epoch ++ beBytes 4 j)

/-- The 128 bytes of a copy (Table 10-7). -/
def Kst.copyBytes (k : Kst) (slot : Nat) (c : Copy) : Bytes :=
  let head := [0xED, 0x5C] ++ beBytes 2 slot ++ beBytes 4 c.gen ++ beBytes 4 c.attr.toNat ++ beBytes 2 (c.parent.getD 0x7FF)
    ++ [byteOf (b2n c.tomb), byteOf c.depth] ++ beBytes 4 k.epoch ++ List.replicate 12 0
  let body := head ++ if c.tomb then List.replicate 32 0 else xorBytes c.key (copyPad k.storeKey slot c.gen k.epoch)
  body ++ cmac k.macKey body ++ List.replicate 48 0xFF

/-- Validate 128 bytes as a copy of `slot` under the epoch in force. -/
def Kst.readCopy (k : Kst) (slot : Nat) (b : Bytes) : Option Copy :=
  let body := b.take 64
  if b.take 2 = [0xED, 0x5C] ∧ beNat (slice b 2 2) = slot ∧ beNat (slice b 16 4) = k.epoch ∧ slice b 64 16 = cmac k.macKey body then
    let gen := beNat (slice b 4 4)
    let parent := beNat (slice b 12 2)
    some {
      gen := gen, tomb := (byteAt b 14).getLsbD 0, attr := BitVec.ofNat 32 (beNat (slice b 8 4))
      parent := if parent = 0x7FF then none else some parent, depth := (byteAt b 15).toNat
      key := xorBytes (slice b 32 32) (copyPad k.storeKey slot gen k.epoch) }
  else none

/-- The copy of a slot that is in force, and whether it is copy B. -/
def State.inForce (s : State) (slot : Nat) : Option (Copy × Bool) :=
  let a := s.kst.readCopy slot (s.mtpRead (copyAddr slot false) 128)
  let b := s.kst.readCopy slot (s.mtpRead (copyAddr slot true) 128)
  match a, b with
  | none, none => none
  | some a, none => some (a, false)
  | none, some b => some (b, true)
  | some a, some b => if a.gen < b.gen then some (b, true) else some (a, false)

/-! ## Root (R315, R316) -/

/-- A fuse group reads as blown: at least 5 of its 8 bits are 1. -/
def blown (b : Byte) : Bool := decide (5 ≤ (List.range 8).countP fun i => b.getLsbD i)

/-- The life-cycle code that the fuses give (R321). -/
def Otp.lc (o : Otp) : Nat :=
  if blown o.lcScrapped then 4 else if blown o.lcReturned then 3 else if blown o.lcSecured then 2 else if blown o.lcFactory then 1 else 0

/-- A bank is valid and its check verifies. -/
def Otp.bankA (o : Otp) : Bool := blown o.validA && decide (o.chkA.toNat = crc16 0x1021 0xFFFF o.rootA)
def Otp.bankB (o : Otp) : Bool := blown o.validB && decide (o.chkB.toNat = crc16 0x1021 0xFFFF o.rootB)

/-- The root (R316). -/
def Otp.root (o : Otp) : Option Bytes := if o.bankA then some o.rootA else if blown o.validB then some o.rootB else none

/-- `DEVICE_ID ‖ STORE_EPOCH`. -/
def State.storeCtx (s : State) (epoch : Nat) : Bytes := s.otp.deviceId ++ beBytes 4 epoch

/-- The storage keys of an epoch (Table 10-5). -/
def State.deriveStore (s : State) (root : Bytes) (epoch : Nat) : State :=
  s.modKst fun k => { k with
    epoch := epoch
    storeKey := kdf root labelStoreEnc (s.storeCtx epoch) 256
    macKey := kdf root labelStoreMac (s.storeCtx epoch) 256 }

/-! ## Storage epoch (R313) -/

/-- An epoch record: EPOCH, SEQ, FLAGS, CRC-32. -/
def epochBytes (epoch seq : Nat) (prov : Bool) : Bytes :=
  let b := beBytes 4 epoch ++ beBytes 4 seq ++ beBytes 4 (b2n prov)
  b ++ beBytes 4 (crc32 b)

/-- The (epoch, seq, PROV_DONE) of a valid record. -/
def readEpoch (b : Bytes) : Option (Nat × Nat × Bool) :=
  if slice b 12 4 = beBytes 4 (crc32 (b.take 12)) then
    some (beNat (b.take 4), beNat (slice b 4 4), natBit (beNat (slice b 8 4)) 0)
  else none

/-- The epoch record in force, and whether it is the second one. -/
def State.epochRecord (s : State) : Option ((Nat × Nat × Bool) × Bool) :=
  match readEpoch (s.mtpRead 0x4000 16), readEpoch (s.mtpRead 0x4010 16) with
  | none, none => none
  | some a, none => some (a, false)
  | none, some b => some (b, true)
  | some a, some b => if a.2.1 < b.2.1 then some (b, true) else some (a, false)

/-- A new storage epoch record is in force: its keys are derived (R313, Table 10-5). -/
def State.takeEpoch (s : State) (b : Bytes) : State :=
  match readEpoch b with
  | none => s
  | some (e, q, prov) =>
    let s1 := s.modKst fun k => { k with epoch := e, epochSeq := q, provDone := prov }
    if s.kst.lc = 2 then match s.otp.root with
      | some root => s1.deriveStore root e
      | none => s1
    else s1

/-- The copy area reads 0xFF. -/
def State.eraseCopyArea (s : State) : State := { s with mtp := s.mtp.filter fun c => decide (0x4000 ≤ c.1) }

/-! ## MTP writes (R312, R313) -/

/-- The effect of an MTP write that ends. -/
def State.applyMtp (s : State) (j : MtpJob) : State :=
  let s1 := s.mtpWrite j.addr j.data
  match j.kind with
  | .epoch => s1.takeEpoch j.data
  | .eraseCopies => s1.eraseCopyArea
  | _ => s1

/-- What the MTP and the storage epoch will be once every queued write has ended: a write queued now follows them. -/
def State.mtpView (s : State) : State := s.kst.mtpJobs.foldl State.applyMtp s

/-- The generation that an install or commit into a slot takes (R299): for a persistent slot, the successor of the copy in force,
a copy still being written counted. -/
def State.nextGen (s : State) (n : Nat) : Nat :=
  if n < 1024 then s.kst.gen else match s.mtpView.inForce n with
    | none => 1
    | some (c, _) => c.gen + 1

def State.queueMtp (s : State) (j : MtpJob) : State := s.modKst fun k => { k with mtpJobs := k.mtpJobs ++ [j] }
def State.mtpBusy (s : State) : Bool := !s.kst.mtpJobs.isEmpty

/-- Queue the write of a copy of a persistent slot into the position that is not in force. -/
def State.queueCopy (s : State) (n : Nat) (c : Copy) : State :=
  let v := s.mtpView
  let toB := match v.inForce n with
    | some (_, b) => !b
    | none => false
  let kind := if c.tomb then MtpKind.tomb n else MtpKind.copy n
  s.queueMtp { kind := kind, addr := copyAddr n toB, data := v.kst.copyBytes n c }

/-- A copy write of persistent slot `n` is in progress (MTP_PEND, Table 10-2). -/
def State.copyBusy (s : State) (n : Nat) : Bool := s.kst.mtpJobs.any fun j => decide (j.kind = .copy n ∨ j.kind = .tomb n)

/-- Place a key into a slot: install or commit, with its generation, its reserve copy and its persistent copy (R299, R312,
R314). -/
def State.installSlot (s : State) (n : Nat) (v : Slot) : State :=
  let g := s.nextGen n
  let v' := { v with st := .live, gen := g, staged := none }
  let s1 := s.setSlot n v'
  let s2 := if n < 1024 then s1.modKst fun k => { k with gen := k.gen + 1 } else s1
  let s3 := if v.attr.getLsbD 19 then
      s2.modKst fun k => { k with reserve := k.reserve.filter (·.slot ≠ n) ++
        [{ slot := n, key := v.key, attr := v.attr, parent := v.parent, depth := v.depth }] }
    else s2
  if n < 1024 then s3
  else s3.queueCopy n { gen := g, tomb := false, attr := v.attr, parent := v.parent, depth := v.depth, key := v.key }

/-- The slot an operation's result enters. -/
def KOp.target : KOp → Option Nat
  | .install n _ | .installDrawn n _ | .stageDrawn n => some n
  | _ => none

/-- Operations accepted that will install a key into a volatile slot. -/
def State.genPending (s : State) : Nat := s.kst.jobs.countP fun j => !j.erased && match j.op with
  | .install n _ | .installDrawn n _ => decide (n < 1024)
  | _ => false

/-- The generation limit (R299): an install accepted now comes after those that are pending. -/
def State.genBad (s : State) (n : Nat) : Bool :=
  decide (2 ^ 32 - 1 < s.nextGen n + (if n < 1024 then s.genPending else 0))

/-- A key store operation will enter slot `n`. -/
def State.slotClaimed (s : State) (n : Nat) : Bool := s.kst.jobs.any fun j => decide (j.op.target = some n)

/-- Empty the slots that satisfy `p`, and mark the operations whose result would enter one of them (R300). -/
def State.eraseSlots (s : State) (p : Nat → Slot → Bool) : State :=
  s.modKst fun k => { k with
    slots := k.slots.filter fun e => !p e.1 e.2
    jobs := k.jobs.map fun j => match j.op with
      | .install n v | .installDrawn n v => if p n v then { j with erased := true } else j
      | .stageDrawn n => if p n (s.slot n) then { j with erased := true } else j
      | _ => j }

/-- Slots of a KINVAL that are erased no longer await anything; a KINVAL with none left is DONE (R311). -/
def State.settleInvals (s : State) : State :=
  let left := s.kst.invals.map fun v => { v with slots := v.slots.filter fun n => decide ((s.slot n).st = .invalidating) }
  (left.filter (·.slots.isEmpty)).foldl (fun s v => s.complete v.ref 0)
    (s.modKst fun k => { k with invals := left.filter fun v => !v.slots.isEmpty })

/-! ## Changes of epoch (R313) and accession log (R435, R436) -/

/-- Queue a new epoch record into the position that is not in force. -/
def State.queueEpoch (s : State) (epoch : Nat) (prov ends : Bool) : State :=
  let v := s.mtpView
  let toB := match v.epochRecord with
    | some (_, b) => !b
    | none => false
  s.queueMtp { kind := .epoch, addr := if toB then 0x4010 else 0x4000, data := epochBytes epoch (v.kst.epochSeq + 1) prov, endsExec := ends }

/-- Retire the storage epoch: a new record, and the copy area erased in the background; the last epoch is kept (R313). -/
def State.retireEpoch (s : State) (ends : Bool) : State :=
  let e := s.mtpView.kst.epoch
  if e = 2 ^ 32 - 1 then s.queueMtp { kind := .eraseCopies, addr := 0, data := [], endsExec := ends }
  else (s.queueEpoch (e + 1) false ends).queueMtp { kind := .eraseCopies, addr := 0, data := [] }

/-- CRC-16 of Table 2-7. -/
def crcMark (bs : Bytes) : Bytes := beBytes 2 (crc16 0x1021 0xFFFF bs)

/-- An accession-log entry (Table 15-5). -/
def logEntry (type rank sources lc evidence epoch arg : Nat) : Bytes :=
  let b := [byteOf type, byteOf rank] ++ beBytes 2 sources ++ [byteOf lc, 0] ++ beBytes 2 evidence ++ beBytes 4 epoch ++ beBytes 2 arg
  b ++ crcMark b

def State.logFull (s : State) : Bool := decide (2048 ≤ s.tmp.logNext)

/-- Append an entry: the next index, LOG_FULL at index 2,047, and counted as lost once the log is full (R436). `retires`: the
entry that R313 requires goes to the retirement record when the log is full. -/
def State.logAppend (s : State) (type rank sources arg : Nat) (retires : Bool := false) (ends : Bool := false)
    (clears : Bool := false) : State :=
  let view := s.mtpView
  let e := fun (ty ar : Nat) => logEntry ty rank sources s.kst.lc s.otp.evidence view.kst.epoch ar
  if s.tmp.logNext < 2047 then
    (s.modTmp fun t => { t with logNext := t.logNext + 1 }).queueMtp
      { kind := .log, addr := 0x8000 + 16 * s.tmp.logNext, data := e type arg, endsExec := ends, clearsPending := clears }
  else if s.tmp.logNext = 2047 then
    (s.modTmp fun t => { t with logNext := 2048 }).queueMtp
      { kind := .log, addr := 0x8000 + 16 * 2047, data := e 7 type, endsExec := ends, clearsPending := clears }
  else
    let s1 := s.modTmp fun t => { t with logLost := min 4095 (t.logLost + 1) }
    if retires then
      let a := view.mtpRead 0x4020 16
      let b := view.mtpRead 0x4030 16
      let epochOf := fun (x : Bytes) => if slice x 14 2 = crcMark (x.take 14) then beNat (slice x 8 4) + 1 else 0
      s1.queueMtp { kind := .retire, addr := if epochOf a ≤ epochOf b then 0x4020 else 0x4030, data := e type arg, endsExec := ends,
                    clearsPending := clears }
    else if clears then { s1 with bkp := { s1.bkp with pending := false } }
    else s1

/-! ## Starting an operation (R307, R308, R310, R323) -/

/-- No operation starts: a KINVAL marks slots, or an accepted life-cycle GO has stopped the key store. -/
def State.kstClosed (s : State) : Bool := s.kst.marking.isSome || s.kst.lcPhase.isSome

/-- An instruction that needs the key store can start: it is READY and open, and fewer than four operations execute, a KINVAL
that is not DONE among them. -/
def State.kstCan (s : State) : Bool :=
  s.kst.ready && !s.kstClosed && decide (s.kst.jobs.length + s.kst.invals.length < 4)

/-- A load of a region or a utility cipher context waits: the key store is closed, or not yet READY while the RNG may still
deliver (R307, R310). -/
def State.loadWaits (s : State) : Bool := s.kstClosed || (s.lcRuns && !s.kst.ready && decide (s.rng.st ≠ .failed))
/-- A load that finds the key store not READY and the RNG FAILED ends with NO_ENTROPY. -/
def State.loadDry (s : State) : Bool := s.lcRuns && !s.kst.ready && decide (s.rng.st = .failed)

/-- The head `d` of ring `r` is in CHECK as a key store instruction. It waits while it cannot start; while READY is 0 and the RNG
has failed it completes with NO_ENTROPY; in BLANK and SCRAPPED it completes with LIFE_CYCLE. -/
def State.keyHead (s : State) (r : Rid) (d : Desc) (run : State → Desc → CmdRef → State) : State :=
  match s.gate r d with
  | some st => ((s.pop r).complete (d.ref r) st).drainAll r
  | none =>
    let s0 := s.countDev 9 0 d.mop
    if !s.lcRuns then ((s0.pop r).complete (d.ref r) 0x54).drainAll r
    else if s.kstCan then (run (s0.pop r) d (d.ref r)).drainAll r
    else if !s.kst.ready && decide (s.rng.st = .failed) then (((s0.countDev 9 2 0).pop r).complete (d.ref r) 0x52).drainAll r
    else s.modRing r fun g => { g with waiting := true }

/-- Run the head of the ring as a key store instruction. -/
def State.issueKey (s : State) (r : Rid) (mop : Nat) (op : Nat → Bool) (run : State → Desc → CmdRef → State) : Res :=
  match s.headFor r mop op with
  | none => idle s
  | some d => finish (s.keyHead r d run)

/-- The command rings, by ascending curator. -/
def cmdRids : List Rid := (List.finRange 4).flatMap fun e => (List.finRange 4).map fun i => ⟨e, ⟨i.val, by omega⟩⟩

/-- The head that waits in CHECK in ring `r`. -/
def State.waitingHead (s : State) (r : Rid) : Option Desc := if (s.ring r).waiting then (s.ring r).fetched.head? else none

/-- Start an operation of the key store: it is PENDING until it completes. -/
def State.kstStart (s : State) (ref : CmdRef) (op : KOp) (need : Nat) : State × Nat :=
  let id := s.kst.nextId
  ((s.accept ref).modKst fun k => { k with
    jobs := k.jobs ++ [{ id := id, ref := ref, op := op, need := need }], nextId := id + 1 }, id)

/-- Queue the tombstone of a persistent slot (R311, R312). -/
def State.queueTomb (s : State) (n : Nat) : State :=
  s.queueCopy n { gen := s.nextGen n, tomb := true, attr := 0, parent := none, depth := 0, key := [] }

/-- Stage a key in a slot that is LIVE; otherwise the slot was erased since acceptance (R300, R304). -/
def State.endStage (s : State) (ref : CmdRef) (n : Nat) (key : Bytes) (parent : Option Nat) (depth : Nat) : State :=
  let v := s.slot n
  if v.st ≠ .live then s.complete ref 0x34
  else (s.setSlot n { v with st := .staged, staged := some (key, parent, depth) }).complete ref 0 (leNat (checkValue key))

/-- The drawn key of a KSTAGE, unless its slot was erased since acceptance. -/
def State.endDrawnStage (s : State) (j : KJob) (n : Nat) : State :=
  if j.erased then s.complete j.ref 0x34 else s.endStage j.ref n (j.drawn.headD []) (s.slot n).parent (s.slot n).depth

end Sys2Proof.Machine
end

