-- ==== Sys2Proof/Machine/Rng.lean ====
section
/-! DEFINITION. The random number generator (chapter 11): CTR_DRBG, requests and their delivery, health tests, start-up and
failure. -/

namespace Sys2Proof.Machine

/-! ## CTR_DRBG with AES-256, no derivation function (R332, SP 800-90A) -/

def Drbg.incV (v : Bytes) : Bytes := beBytes 16 (beNat v + 1)

/-- `n` output blocks, and V after them. -/
def Drbg.blocks (ks : List Bytes) : Nat → Bytes → Bytes × Bytes
  | 0, v => ([], v)
  | n + 1, v =>
    let v1 := Drbg.incV v
    let (o, v2) := Drbg.blocks ks n v1
    (Aes.enc ks v1 ++ o, v2)

def Drbg.update (d : Drbg) (seed : Bytes) : Drbg :=
  let (t, _) := Drbg.blocks (Aes.roundKeys d.key) 3 d.v
  let x := xorBytes t seed
  { d with key := x.take 32, v := x.drop 32 }

def Drbg.instantiate (entropy perso : Bytes) : Drbg :=
  ({ inst := true, key := List.replicate 32 0, v := List.replicate 16 0, reqs := 0 } : Drbg).update (xorBytes entropy perso)

def Drbg.reseed (d : Drbg) (entropy : Bytes) : Drbg := { d.update entropy with reqs := 0 }

def Drbg.generate (d : Drbg) (n : Nat) : Bytes × Drbg :=
  let (o, v) := Drbg.blocks (Aes.roundKeys d.key) ((n + 15) / 16) d.v
  (o.take n, { ({ d with v := v }).update (List.replicate 48 0) with reqs := d.reqs + 1 })

/-! ## Requests (R331-R333, R336) -/

def State.drbg (s : State) (i : Nat) : Drbg := s.rng.drbg.toList.getD i {}
def State.setDrbg (s : State) (i : Nat) (d : Drbg) : State :=
  s.modRng fun r => { r with drbg := r.drbg.setIfInBounds i d }

/-- Instance `i` delivers: it is instantiated and the RNG runs. -/
def State.delivers (s : State) (i : Nat) : Bool := decide (s.rng.st = .run) && (s.drbg i).inst

/-- The next request of instance `i` needs a reseed: every one for instances 0 and 1, else after INTERVAL requests
(Table 11-2). A fresh instantiation is not a request's own reseed. -/
def State.needsReseed (s : State) (i : Nat) : Bool :=
  decide (i < 2) || decide (s.fld (Reg.rng 0x10) 0 21 ≤ (s.drbg i).reqs)

/-- What a new request meets. -/
inductive RngAnswer where
  | data (bs : Bytes) | failed | waits
deriving DecidableEq, Repr

/-- Ask instance `i` for `n` bytes: served at once, refused in FAILED, otherwise it waits in order of arrival. -/
def State.rngAsk (s : State) (i : Nat) (user : RngUser) (n : Nat) : State × RngAnswer :=
  if s.rng.st = .failed then (s, .failed)
  else if s.delivers i && !s.needsReseed i && !s.rng.waiting.any (fun q => decide (q.inst = i)) then
    let (o, d) := (s.drbg i).generate n
    (s.setDrbg i d, .data o)
  else (s.modRng fun r => { r with waiting := r.waiting ++ [{ inst := i, user := user, nbytes := n }] }, .waits)

/-- Three pool blocks as one entropy input, and the pool without them. -/
def State.takePool (s : State) : Option (Bytes × State) :=
  match s.rng.pool with
  | a :: b :: c :: rest => some (a ++ b ++ c, s.modRng fun r => { r with pool := rest })
  | _ => none

/-! ## Delivery -/

/-- Bytes as 32-bit words, first byte in [7:0]. -/
def leWords (bs : Bytes) : List W32 := (chunksOf 4 bs).map fun b => BitVec.ofNat 32 (leNat b)

/-- Queue an own message of the dialogue of mill `m` (R139). -/
def State.ownMsg (s : State) (m : Fin 4) (x : OwnMsg) : State :=
  s.modLine m fun l => { l with dlg := { l.dlg with queue := l.dlg.queue ++ [x] } }

/-- The next HELLO of the dialogue is queued; it offers VMIN and VMAX as they stand (R90, Table 2-18). -/
def State.helloSend (s : State) (m : Fin 4) : State :=
  (s.modLine m fun l => { l with dlg := { l.dlg with
    helloWait := false, ownMin := s.fld (Reg.lnf m 0x20) 0 2, ownMax := s.fld (Reg.lnf m 0x20) 2 2 } }).ownMsg m .hello

/-- A session number has arrived, or could not be drawn: a HELLO that waits for it is queued. -/
def State.helloDrawn (s : State) (m : Fin 4) (n : Option W32) : State :=
  let s1 := s.modLine m fun l => { l with dlg := { l.dlg with session := n.getD l.dlg.session } }
  if (s.line m).dlg.helloWait then s1.helloSend m else s1

/-- The HELLO of the mate link (Table 14-3); an unpaired device is then PAIRING (Table 14-4). -/
def State.mateHello (s : State) (nonce : Bytes) : State :=
  let s1 := s.modMte fun x => { x with nonce := some nonce, nonceWait := false, helloTick := s.now }
  let s2 := if s1.mte.st = .unpaired then s1.mateGo .pairing 0 else s1
  let x := s2.mte
  s2.feltSend 1
    ([1, 1, byteOf (b2n s.pads.mateSide), byteOf (b2n (decide (x.lock = .granted)))] ++ beBytes 4 x.epoch.toNat ++ beBytes 2 x.tko.toNat
      ++ [0, 0] ++ nonce ++ s.otp.deviceId)

def State.mateEn (s : State) : Bool := s.bit (Reg.mte 0) 0

/-- Draw the nonce of a new session and send HELLO; an unpaired device becomes PAIRING (Table 14-4). While the RNG is FAILED it stays
UNPAIRED (R336). -/
def State.mateTryPair (s : State) : State :=
  if s.mateEn && s.felt.up && s.mte.nonce.isNone && !s.mte.nonceWait then
    match s.rngAsk 6 .mate 32 with
    | (s2, .data bs) => s2.mateHello (bs.take 24)
    | (s2, .waits) =>
      let s3 := s2.modMte fun x => { x with nonceWait := true }
      if s3.mte.st = .unpaired then s3.mateGo .pairing 0 else s3
    | (s2, .failed) => s2
  else s

/-- Data drawn for a key store operation. A KSTAGE pends no longer and ends at once (R304). -/
def State.kstDeliver (s : State) (id : Nat) (bs : Bytes) : State :=
  let s1 := s.modKst fun k => { k with jobs := k.jobs.map fun j => if j.id = id then { j with drawn := j.drawn ++ [bs] } else j }
  match s1.kst.jobs.find? (fun j => decide (j.id = id)) with
  | none => s1
  | some j => match j.op with
    | .stageDrawn n => (s1.modKst fun k => { k with jobs := k.jobs.filter fun x => decide (x.id ≠ id) }).endDrawnStage j n
    | _ => s1

/-- Random data reaches whoever waited for it (Table 11-2). -/
def State.rngDeliver (s : State) (u : RngUser) (bs : Bytes) : State :=
  match u with
  | .root => s.modKst fun k => { k with rootDraw := some bs }
  | .kst id => s.kstDeliver id bs
  | .region r => s.modMem fun m => { m with rgn := m.rgn.set r { m.rgn[r] with drawn := some bs } }
  | .hello m => s.helloDrawn m (some (BitVec.ofNat 32 (beNat bs)))
  | .mate => s.mateHello (bs.take 24)
  | .uciLoad => s.modUci fun x => { x with load := x.load.map fun l => { l with pre := some bs } }
  | .buf i => s.modRng fun r => { r with bufs := r.bufs.set i { r.bufs[i] with words := leWords bs } }

/-- A key store operation completes with NO_ENTROPY (R307, R336). -/
def State.dropJob (s : State) (id : Nat) : State :=
  match s.kst.jobs.find? (fun j => decide (j.id = id)) with
  | none => s
  | some j => ((s.modKst fun k => { k with jobs := k.jobs.filter fun x => decide (x.id ≠ id) }).countDev 9 2 0).complete j.ref 0x52

/-- A request completes with an error and no data (R336). -/
def State.rngRefuse (s : State) (u : RngUser) : State :=
  match u with
  | .root => s
  | .kst id => s.dropJob id
  | .region r => s.modMem fun m => { m with rgn := m.rgn.set r { m.rgn[r] with st := .nokey, lstatus := 0x52, load := none, drawn := none } }
  | .hello m => (s.helloDrawn m none).countDev 0xA 2 m.val
  | .mate =>
    let s1 := s.modMte fun x => { x with nonceWait := false }
    if s1.mte.st = .pairing then s1.mateGo .unpaired 0 else s1
  | .uciLoad => s.modUci fun x => { x with load := none, lstatus := 0x52 }
  | .buf _ => s

def State.refuseAll (s : State) : List RngReq → State
  | [] => s
  | q :: qs => (s.rngRefuse q.user).refuseAll qs

/-- Serve the waiting requests that need no reseed, in order of arrival; those that need one keep waiting. -/
def State.serveWaiting (s : State) : List RngReq → State
  | [] => s
  | q :: qs =>
    if s.delivers q.inst && !s.needsReseed q.inst then
      let (o, d) := (s.drbg q.inst).generate q.nbytes
      ((s.setDrbg q.inst d).rngDeliver q.user o).serveWaiting qs
    else (s.modRng fun r => { r with waiting := r.waiting ++ [q] }).serveWaiting qs

/-- Look at every waiting request again. -/
def State.serveAll (s : State) : State := (s.modRng fun r => { r with waiting := [] }).serveWaiting s.rng.waiting

/-! ## Start-up (R330) -/

/-- A start-up begins: the settings written since the last one take effect, no instance is instantiated, the pool is empty. -/
def State.rngStartup (s : State) : State :=
  s.modRng fun r => { r with
    st := .startup, mode := 0
    smpEn := BitVec.ofNat 8 (s.fld (Reg.rng 0) 0 8)
    rct := s.fld (Reg.rng 8) 0 8, apt := s.fld (Reg.rng 8) 16 10
    biasTh := s.fld (Reg.rng 0xC) 0 16, corrTh := s.fld (Reg.rng 0xC) 16 16
    samplers := r.samplers.map fun x => { x with run := 0, windows := 0 }
    pool := [], drbg := Vector.replicate 16 {} }

/-- The health tests of a start-up have passed on every sampler in use: 2,048 samples discarded and 8,192 tested. -/
def Rng.tested (r : Rng) : Bool := (List.finRange 8).all fun k => !r.smpEn.getLsbD k || decide (10 ≤ r.samplers[k].windows)

/-- The personalisation string of instance `i` (R332). -/
def State.perso (s : State) (i : Nat) : Bytes := padTo 48 (s.otp.deviceId ++ beBytes 4 i)

/-- The lowest instance that is not instantiated. -/
def Rng.nextInst (r : Rng) : Nat := (r.drbg.toList.takeWhile (·.inst)).length

/-- R330, R331: the next instance is instantiated from three pool blocks, in ascending order; with instance 0 the RNG enters
RUN, and the mate logic draws again where it had been refused (R336). Requests that waited for the instance are looked at again. -/
def execDrbgInstantiate (i : Fin 16) (s : State) : Res :=
  if (s.rng.st = .startup ∨ s.rng.st = .run) ∧ s.rng.nextInst = i.val ∧ s.rng.tested then
    match s.takePool with
    | none => idle s
    | some (e, s1) =>
      let s2 := ((s1.setDrbg i.val (Drbg.instantiate e (s.perso i.val))).modRng fun r => { r with st := .run }).serveAll
      finish (if i = 0 then s2.mateTryPair else s2)
  else idle s

/-- The first waiting request of instance `i`, and the others. -/
def firstFor (i : Nat) : List RngReq → Option (RngReq × List RngReq)
  | [] => none
  | q :: qs => if q.inst = i then some (q, qs) else (firstFor i qs).map fun (x, r) => (x, q :: r)

/-- R333: instance `i` is reseeded from three pool blocks for its first waiting request, which it then serves. Reseeds go in
order of request: no earlier waiting request of a delivering instance needs one. -/
def execDrbgReseed (i : Fin 16) (s : State) : Res :=
  match s.rng.waiting.find? (fun q => s.delivers q.inst && s.needsReseed q.inst), s.takePool, firstFor i.val s.rng.waiting with
  | some q0, some (e, s1), some (q, rest) =>
    if q0.inst = i.val then
      let (o, d) := ((s1.drbg i.val).reseed e).generate q.nbytes
      finish ((((s1.setDrbg i.val d).modRng fun r => { r with waiting := rest }).rngDeliver q.user o).serveAll)
    else idle s
  | _, _, _ => idle s

/-! ## The PRBS of pattern mode (R338) -/

/-- One step of x^31 + x^28 + 1: the bit put out and the register after it. -/
def prbs31 (x : W32) : Bool × W32 :=
  let b := x.getLsbD 30 ^^ x.getLsbD 27
  (b, ((x <<< 1) ||| BitVec.ofNat 32 (b2n b)) &&& 0x7FFFFFFF)

/-- 32 bits of the sequence, first bit in [31]. -/
def prbsWord : Nat → W32 → W32 → W32 × W32
  | 0, x, acc => (acc, x)
  | n + 1, x, acc => let (b, x') := prbs31 x; prbsWord n x' ((acc <<< 1) ||| BitVec.ofNat 32 (b2n b))

/-- `n` steps of the sequence. -/
def prbsSkip : Nat → W32 → W32
  | 0, x => x
  | n + 1, x => prbsSkip n (prbs31 x).2

/-- Every `n`-th bit of the sequence, `c` of them. -/
def prbsEvery (n : Nat) : Nat → W32 → List Bool × W32
  | 0, x => ([], x)
  | c + 1, x =>
    let (bs, x') := prbsEvery n c (prbsSkip n x)
    ((prbs31 x).1 :: bs, x')

/-- The samplers in use, and how many of them come before sampler `k` in the round. -/
def Rng.inUse (r : Rng) : Nat := (List.finRange 8).countP fun i => r.smpEn.getLsbD i.val
def Rng.rankOf (r : Rng) (k : Fin 8) : Nat := (List.finRange 8).countP fun i => decide (i < k) && r.smpEn.getLsbD i.val

/-! ## Conditioner and health tests (R326-R329) -/

/-- 8 bits as a byte, first bit most significant. -/
def byteOfBits (bs : List Bool) : Byte := bs.foldl (fun (a : Byte) b => (a <<< 1) ||| BitVec.ofNat 8 (b2n b)) 0

def bytesOfBits : Nat → List Bool → Bytes
  | 0, _ => []
  | n + 1, bs => byteOfBits (bs.take 8) :: bytesOfBits n (bs.drop 8)

/-- AES-256 CBC-MAC under the fixed design key (R326). -/
def conditioned (bits : List Bool) : Bytes :=
  let ks := Aes.roundKeys Config.conditionerKey
  (chunksOf 16 (bytesOfBits 128 bits)).foldl (fun x b => Aes.enc ks (xorBytes x b)) (List.replicate 16 0)

/-- 1,024 raw bits as the conditioner takes them: in pattern mode they are the PRBS's (R338). -/
def State.condBits (s : State) (bits : List Bool) : List Bool × State :=
  if s.rng.st = .test ∧ s.rng.mode = 2 then
    let (bs, x) := prbsEvery 1 1024 s.rng.prbsCond
    (bs, s.modRng fun r => { r with prbsCond := x })
  else (bits, s)

/-- R326, R327: 1,024 raw bits become one block of the pool; a full pool discards it. Before the health tests of a start-up have
passed no block is taken. -/
def execConditionerBlock (bits : List Bool) (s : State) : Res :=
  if ((s.rng.st = .startup ∨ s.rng.st = .run) ∧ s.rng.tested ∨ s.rng.st = .test) ∧ bits.length = 1024 then
    let (bs, s1) := s.condBits bits
    finish (if s1.rng.pool.length < 32 then s1.modRng fun r => { r with pool := r.pool ++ [conditioned bs] } else s1)
  else idle s

/-- The longest run of equal samples that ends inside the window, given the last sample and its run; and the run at the end. -/
def longestRep : Option Bool → Nat → List Bool → Nat → Nat × Nat
  | _, run, [], best => (max best run, run)
  | prev, run, b :: bs, best =>
    let run' := if prev = some b then run + 1 else 1
    longestRep (some b) run' bs (max best run')

/-- Samples equal to the sample before them. -/
def agreements : Option Bool → List Bool → Nat
  | _, [] => 0
  | prev, b :: bs => b2n (decide (prev = some b)) + agreements (some b) bs

/-- BIAS and CORR (R329): (count − 512) × 64. -/
def windowStat (n : Nat) : Int := ((n : Int) - 512) * 64

/-- A key store instruction waiting in CHECK for READY completes with NO_ENTROPY (R307). -/
def State.failHead (s : State) (r : Rid) : State :=
  match s.waitingHead r with
  | some d =>
    if 0x08 ≤ d.mop ∧ d.mop ≤ 0x0D then ((((s.countDev 9 0 d.mop).countDev 9 2 0).pop r).complete (d.ref r) 0x52).drainAll r else s
  | none => s

/-- While READY is 0, what waits for it fails with the RNG: the instructions in CHECK and the loads not yet checked. -/
def State.failWaits (s : State) : State :=
  if s.kst.ready then s
  else
    let s1 := cmdRids.foldl State.failHead s
    let s2 := s1.modMem fun m => { m with rgn := m.rgn.map fun x => if x.unchecked.isSome then { x with unchecked := none, lstatus := 0x52 } else x }
    match s2.uci.load with
    | some l => if l.unchecked then s2.modUci fun u => { u with load := none, lstatus := 0x52 } else s2
    | none => s2

/-- Keys for volatile slots that have been drawn and are not in a slot yet are not kept (R337). -/
def State.dropDrawn (s : State) : State :=
  ((s.kst.jobs.filter fun j => decide (j.drawn ≠ []) && match j.op with
    | .installDrawn n _ => decide (n < 1024)
    | _ => false).map (·.id)).foldl State.dropJob s

/-- The RNG fails (R336): every instance and the pool erased, every waiting request refused, the cause recorded. -/
def State.rngFailCore (s : State) (cause smp : Nat) : State :=
  let ws := s.rng.waiting
  let s1 := s.modRng fun r => { r with
    st := .failed, cause := cause, smp := if cause = 1 ∨ cause = 2 then smp else r.smp
    drbg := Vector.replicate 16 {}, pool := [], waiting := []
    bufs := r.bufs.map fun b => { b with words := [], latched := none } }
  (((if cause = 1 ∨ cause = 2 then s1.countDev 0xA 0 smp else s1).refuseAll ws).dropDrawn).failWaits

/-- R334: one generate request refills an empty buffer. -/
def execRngBufferRefill (i : Fin 8) (s : State) : Res :=
  if s.islandLive ∧ s.rng.bufs[i].words = [] ∧ ¬ s.rng.waiting.any (fun q => decide (q.user = .buf i)) ∧ s.rng.st ≠ .reset then
    match s.rngAsk (8 + i.val) (.buf i) 64 with
    | (s1, .data bs) => finish (s1.rngDeliver (.buf i) bs)
    | (s1, .failed) => finish (s1.rngRefuse (.buf i))
    | (s1, .waits) => finish s1
  else idle s

/-- Buffers 0 to 3 belong to PF0, 4 to 7 to PF1 (R334). -/
def bufOwner (i : Fin 8) : Fin 2 := if i.val < 4 then 0 else 1

/-- A read of RNG_OUTi_S: what it returns, and the state after it. -/
def State.readBufStatus (s : State) (pf : Fin 2) (i : Fin 8) : Nat × State :=
  let b := s.rng.bufs[i]
  let err := b2n (!s.delivers (8 + i.val)) * 2
  if pf ≠ bufOwner i then (0, s)
  else if s.rng.st = .failed then (2, s)
  else match b.latched, b.words with
    | some _, _ => (1 + err, s)
    | none, w :: ws => (1 + err, s.modRng fun r => { r with bufs := r.bufs.set i { b with latched := some w, words := ws } })
    | none, [] => (err, s)

/-- A read of RNG_OUTi_D: it consumes the latched word. -/
def State.readBufData (s : State) (pf : Fin 2) (i : Fin 8) : Nat × State :=
  let b := s.rng.bufs[i]
  match b.latched with
  | some w => if pf = bufOwner i then (w.toNat, s.modRng fun r => { r with bufs := r.bufs.set i { b with latched := none } }) else (0, s)
  | none => (0, s)

/-- R334, R15. -/
def execRngOutStatusRead (pf : Fin 2) (i : Fin 8) (s : State) : Res :=
  if s.islandLive then
    let (v, s1) := s.readBufStatus pf i
    finish (s1.emit (.regRead pf.val (Reg.rng (0x100 + 8 * i.val)) (BitVec.ofNat 32 v)))
  else idle s

/-- R334. -/
def execRngOutDataRead (pf : Fin 2) (i : Fin 8) (s : State) : Res :=
  if s.islandLive then
    let (v, s1) := s.readBufData pf i
    finish (s1.emit (.regRead pf.val (Reg.rng (0x104 + 8 * i.val)) (BitVec.ofNat 32 v)))
  else idle s

/-- R335: RESTART, by PF1 in FAILED; from PF0 it is a locked write. -/
def State.rngRestart (s : State) : State := if s.rng.st = .failed then s.rngStartup else s

def execRngRestart (pf : Fin 2) (s : State) : Res :=
  if !s.islandLive then idle s
  else if pf = 0 then finish (s.lockedWrite pf (Reg.rng 0) (s.reg (Reg.rng 0) + 0x100))
  else if s.rng.st = .failed then finish s.rngStartup else idle s

/-- A write of RNG_CTL.TEST from PF1 (R338): only in FACTORY and RETURNED, in RUN or TEST; 3 is ignored. -/
def State.rngTest (s : State) (mode : Nat) : State :=
  if (s.kst.lc = 1 ∨ s.kst.lc = 3) ∧ (s.rng.st = .run ∨ s.rng.st = .test) ∧ mode < 3 then
    let s1 := s.setFld (Reg.rng 0) 9 2 mode
    if s.rng.st = .test ∧ mode = 0 then s1.rngStartup
    else if mode = 0 then s1
    else s1.modRng fun r => { r with
      st := .test, mode := mode, raw := if r.st = .test then r.raw else []
      prbs := 0x7FFFFFFF, prbsCond := 0x7FFFFFFF
      samplers := Vector.ofFn fun k : Fin 8 => { r.samplers[k] with prbs := prbsSkip (r.rankOf k) 0x7FFFFFFF } }
  else s

/-- R335, R338. -/
def execRngTestMode (pf : Fin 2) (mode : Fin 4) (s : State) : Res :=
  if !s.islandLive then idle s
  else if pf = 0 then finish (s.lockedWrite pf (Reg.rng 0) (putField (s.reg (Reg.rng 0)) 9 2 mode.val))
  else finish (s.rngTest mode.val)

/-- R338: 32 raw bits enter RNG_RAW in TEST; a full queue discards them. In pattern mode the bits are the PRBS's. -/
def execRngRawWord (bits : W32) (s : State) : Res :=
  if s.rng.st = .test then
    let (w, x) := if s.rng.mode = 2 then prbsWord 32 s.rng.prbs 0 else (bits, s.rng.prbs)
    let s1 := s.modRng fun r => { r with prbs := x }
    finish (if s.rng.raw.length < 64 then s1.modRng fun r => { r with raw := r.raw ++ [w] } else s1.setBit (Reg.rng 4) 10)
  else idle s

/-- A read of RNG_RAW: the next word, to PF1 in TEST; 0 otherwise. -/
def State.readRaw (s : State) (pf : Fin 2) : Nat × State :=
  match s.rng.raw with
  | w :: ws => if pf = 1 ∧ s.rng.st = .test then (w.toNat, s.modRng fun r => { r with raw := ws }) else (0, s)
  | [] => (0, s)

/-- R338. -/
def execRngRawRead (pf : Fin 2) (s : State) : Res :=
  if s.islandLive then
    let (v, s1) := s.readRaw pf
    finish (s1.emit (.regRead pf.val (Reg.rng 0x200) (BitVec.ofNat 32 v)))
  else idle s

end Sys2Proof.Machine
end

