-- ==== Sys2Proof/Machine/Utility.lean ====
section
/-! DEFINITION. The utility cipher (chapter 11, R339-R344). -/

namespace Sys2Proof.Machine

def ctxFn (c : Fin 4) : Fin 2 := ⟨c.val / 2, by omega⟩

/-- The checks of a load (R340): R298 with step 3 for the function that the context serves, and UCI usage. -/
def State.uciCheck (s : State) (slot : Nat) (c : Fin 4) : Option Nat :=
  match s.slotPre slot (ctxFn c) with
  | some st => some st
  | none => if (s.slot slot).usable && (s.slot slot).a 4 then none else some 0x53

/-- Check a load and latch the slot's key and generation; then draw the prefix. -/
def State.uciBegin (s : State) (slot : Nat) (c : Fin 4) : State :=
  match s.uciCheck slot c with
  | some st => s.modUci fun u => { u with load := none, lstatus := st }
  | none =>
    let v := s.slot slot
    let s1 := s.modUci fun u => { u with load := some { ctx := c, slot := slot, key := v.key, gen := v.gen } }
    match s1.rngAsk 7 .uciLoad 8 with
    | (s2, .data bs) => s2.rngDeliver .uciLoad bs
    | (s2, .failed) => (s2.rngRefuse .uciLoad)
    | (s2, .waits) => s2

/-- A write of UCI_LOAD from PF1 (R340). A GO while a load is in progress starts nothing. -/
def State.uciLoadWrite (s : State) (v : Nat) : State :=
  let s1 := s.setReg (Reg.uci 0x200) (v % 0x2000)
  let c : Fin 4 := ⟨v / 2048 % 4, by omega⟩
  if !natBit v 31 || s.uci.load.isSome then s1
  else if s.loadDry then s1.modUci fun u => { u with lstatus := 0x52 }
  else if s.loadWaits then
    s1.modUci fun u => { u with load := some { ctx := c, slot := v % 2048, key := [], gen := 0, unchecked := true } }
  else s1.uciBegin (v % 2048) c

/-- R340: only PF1 loads a context. -/
def execUciLoad (pf : Fin 2) (v : W32) (s : State) : Res :=
  if !s.islandLive then idle s
  else if pf = 0 then finish (s.lockedWrite pf (Reg.uci 0x200) v.toNat)
  else finish (s.uciLoadWrite v.toNat)

/-- R340: the context becomes LOADED with its prefix and count 1; a load whose key was erased meanwhile is discarded. -/
def execUciLoadDone (s : State) : Res :=
  match s.uci.load with
  | some l =>
    match l.pre with
    | some pre =>
      if l.unchecked then idle s
      else if l.erased then finish (s.modUci fun u => { u with load := none, lstatus := 0x34 })
      else finish (s.modUci fun u => { u with
        load := none, lstatus := 0
        ctx := u.ctx.set l.ctx { loaded := true, key := l.key, slot := l.slot, gen := l.gen, pre := pre, count := 1 } })
    | none => idle s
  | none => idle s

/-! ## Requests (R341-R343) -/

def uciReg (f : Fin 2) (o : Nat) : Nat := Reg.uci (0x100 * f.val + o)
/-- The context that a function's CTL names: 2f + CTX. -/
def State.uciCtx (s : State) (f : Fin 2) : Fin 4 :=
  ⟨2 * f.val + s.fld (uciReg f 0) 2 1, by have := f.isLt; unfold State.fld natBits; omega⟩
def State.uciBlocks (s : State) (f : Fin 2) : Nat := s.fld (uciReg f 0) 8 9

/-- A request of function `f` begins: it is in service unless the other function's is (R341). -/
def Uci.start (u : Uci) (f : Fin 2) (q : UciReq) : Uci :=
  { u with req := u.req.set f (some q), turn := if u.req[1 - f].isSome then u.turn else f }
/-- The request of function `f` is over: the other function's turn comes. -/
def Uci.leave (u : Uci) (f : Fin 2) : Uci :=
  { u with req := u.req.set f none, turn := if u.turn = f then 1 - f else u.turn }

/-- The request of function `f` ends with a status. -/
def State.uciStatus (s : State) (f : Fin 2) (st : Nat) : State :=
  let s1 := s.modUci fun u => { u.leave f with status := u.status.set f st }
  if st = 0 then s1 else s1.countDev 0xA 4 f.val

/-- A GO with operation `op` (R341, R343): overrun while BUSY; RANGE; EMPTY_CTX; a spent nonce (R342). The key is latched, and a nonce
is taken from its context, at once; the request then waits for its turn. -/
def State.uciGo (s : State) (f : Fin 2) (op : Nat) : State :=
  let s0 := s.setFld (uciReg f 0) 0 2 op
  if s.uci.req[f].isSome then s.setBit (uciReg f 0x14) 1
  else
    let s1 := s0.countDev 0xA 3 f.val
    let c := s1.uciCtx f
    let x := s1.uci.ctx[c]
    let n := s1.uciBlocks f
    let addr := fun o => s1.reg (uciReg f o) + 2 ^ 32 * s1.reg (uciReg f (o + 4))
    if n = 0 ∨ 256 < n then s1.uciStatus f 2
    else if !x.loaded then s1.uciStatus f 1
    else if op = 2 ∧ x.count = 2 ^ 32 - 1 then s1.uciStatus f 4
    else s1.modUci fun u =>
      let v := if op = 2 then { u with ctx := u.ctx.set c { x with count := x.count + 1 } } else u
      v.start f { op := op, ctx := c.val, key := x.key, nonce := x.pre ++ beBytes 4 x.count, blocks := n, src := addr 4, dst := addr 0xC }

/-- A GO from function `pf` at the registers of function `f`; the other function's is a locked write. -/
def uciRequest (pf f : Fin 2) (op : Nat) (s : State) : Res :=
  if !s.islandLive then idle s
  else if pf ≠ f then finish (s.lockedWrite pf (uciReg f 0) (putField (s.reg (uciReg f 0)) 0 2 op + 2 ^ 31))
  else finish (s.uciGo f op)

/-- R341, OP 0. -/
def execUciEnc (pf f : Fin 2) (s : State) : Res := uciRequest pf f 0 s
/-- R341, OP 1. -/
def execUciDec (pf f : Fin 2) (s : State) : Res := uciRequest pf f 1 s
/-- R341, R342, OP 2. -/
def execUciNonce (pf f : Fin 2) (s : State) : Res := uciRequest pf f 2 s
/-- R341, OP 3. -/
def execUciErase (pf f : Fin 2) (s : State) : Res := uciRequest pf f 3 s

/-- Two ranges of `n` bytes overlap and do not coincide. -/
def overlaps (a b n : Nat) : Bool := decide (a ≠ b) && decide (a < b + n) && decide (b < a + n)

/-- ENC or DEC: the blocks are written under the latched key; a host memory error stops the request at its block. -/
def State.uciBlocksDone (s : State) (f : Fin 2) (q : UciReq) (src : Bytes) (errAt : Option Nat) : State :=
  let n := match errAt with
    | some k => min k q.blocks
    | none => q.blocks
  let inp := padTo (16 * n) src
  let out := if q.op = 0 then aesEcbEnc q.key inp else aesEcbDec q.key inp
  let free := overlaps q.src q.dst (16 * q.blocks)
  let data := if free then padTo (16 * n) (Config.uciOverlap s.free) else out
  let s1 := { s with free := s.free + b2n free }
  let s2 := if n = 0 then s1 else s1.hostWrite f q.dst data
  s2.uciStatus f (if n < q.blocks then 3 else if q.erased then 6 else 0)

/-- R341, R343, R344: the request in service is carried out; one whole request per turn. -/
def execUciRequestDone (f : Fin 2) (src : Bytes) (errAt : Option Nat) (s : State) : Res :=
  match s.uci.req[f] with
  | none => idle s
  | some q =>
    if s.uci.turn ≠ f ∨ (q.op < 2 ∧ !s.hstLive) then idle s
    else
      let e := if q.erased then 6 else 0
      finish (if q.op = 2 then (s.modUci fun u => { u with nonce := u.nonce.set f q.nonce }).uciStatus f e
        else if q.op = 3 then
          (if q.erased then s else s.modUci fun u => { u with ctx := u.ctx.setIfInBounds q.ctx {} }).uciStatus f e
        else s.uciBlocksDone f q src errAt)

/-- Erase the contexts whose slot satisfies `p` (R344): a request in progress and a load in progress are marked. -/
def Uci.erase (u : Uci) (p : Nat → Bool) : Uci :=
  { u with
    ctx := u.ctx.map fun x => if x.loaded && p x.slot then {} else x
    req := u.req.map fun q => q.map fun q =>
      let x := u.ctx.toList.getD q.ctx {}
      if x.loaded && p x.slot then { q with erased := true } else q
    load := u.load.map fun l => if !l.unchecked && p l.slot then { l with erased := true } else l }

end Sys2Proof.Machine
end

