-- ==== Sys2Proof/Machine/Lci.lean ====
section
/-! DEFINITION. Line key numbers (chapter 4): load, receive enable, arming, halting, retiring, erasure, resynchronisation. -/

namespace Sys2Proof.Machine

/-! ## Settings -/

def State.lciEnd (s : State) (m : Fin 4) : Bool := s.bit (Reg.lci m 0) 0
def State.lciTb (s : State) (m : Fin 4) : Fin 8 := ⟨s.fld (Reg.lci m 0) 1 3, by unfold State.fld natBits; omega⟩
def State.autoResync (s : State) (m : Fin 4) : Bool := s.bit (Reg.lci m 0) 4
def State.trialN (s : State) (m : Fin 4) : Nat := s.fld (Reg.lci m 0) 8 8
/-- The soft limit (R128, R145). -/
def State.softLimit (s : State) (m : Fin 4) : Nat := s.reg (Reg.lci m 0x10) + 2 ^ 32 * s.fld (Reg.lci m 0x14) 0 17

/-- TX_EN of the mill. -/
def State.txEn (s : State) (m : Fin 4) : Bool := s.bit (Reg.lnf m 0) 0

/-- The LKN that is TX CURRENT. -/
def Lci.current (x : Lci) : Option (Fin 4) := (List.finRange 4).find? fun k => decide (x.lkn[k].tx = .current)
/-- The LKN that is TX ARMED. -/
def Lci.armed (x : Lci) : Option (Fin 4) := (List.finRange 4).find? fun k => decide (x.lkn[k].tx = .armed)
/-- Some LKN is receive-enabled. -/
def Lci.anyRx (x : Lci) : Bool := x.lkn.any (·.rx)

/-- The line channel identifier with direction bit `e` (R120). -/
def lcid (chid : Nat) (e : Bool) : Nat := chid % 2 ^ 31 * 2 + b2n e

/-- The IV of a sheet (R118). -/
def sheetIv (salt lc seq : Nat) : Bytes := beBytes 12 (Nat.xor salt (lc % 2 ^ 32 * 2 ^ 64 + seq % 2 ^ 64))

/-! ## Changes of an LKN -/

/-- Tell the standby of LKN `k` (Table 14-5). -/
def State.lknDelta (s : State) (m k : Fin 4) (ream : Option W32 := none) : State × Option W32 :=
  s.delta (.lkn m k (s.lkn m k)) (ream.map (m, ·))

/-- The pending arm as the standby hears of it. -/
def State.armDelta (s : State) (m : Fin 4) (ream : Option W32 := none) : State × Option W32 :=
  s.delta (.keyArm m ((s.lci m).arm.map fun a => (a.lkn, if a.time.isNone then some (s.lci m).armRc else none, a.time))) (ream.map (m, ·))

/-- Complete a command, where there is one (an arm that the standby copied has none). -/
def State.completeOpt (s : State) (ref : Option CmdRef) (status result : Nat) (late : Bool) (dseq : Option W32) : State :=
  match ref with
  | some r => s.complete r status result late false dseq
  | none => s

/-- Complete the HALTs of an LKN with a status. -/
def State.endHalts (s : State) (status : Nat) (dseq : Option W32) : List CmdRef → State
  | [] => s
  | h :: hs => (s.complete h status 0 false false dseq).endHalts status dseq hs

/-- LKN `k` goes from TX CURRENT to TX DONE; a marked halt completes with OK (Table 4-2). -/
def State.txDone (s : State) (m k : Fin 4) (ream : Option W32 := none) : State :=
  let hs := (s.lkn m k).halts
  let (s1, n) := (s.modLkn m k fun x => { x with tx := .done, halts := [] }).lknDelta m k ream
  if hs.isEmpty then s1 else (s1.countMill m 1 12 0).endHalts 0 n hs

/-- The pending arm ends without effect: its LKN returns to TX IDLE and the arm completes with `status`. -/
def State.disarm (s : State) (m : Fin 4) (status : Nat) : State :=
  match (s.lci m).arm with
  | none => s
  | some a =>
    let s1 := (s.modLkn m a.lkn fun x => { x with tx := .idle }).modLci m fun x => { x with arm := none }
    let (s2, n) := (s1.lknDelta m a.lkn).1.armDelta m
    s2.completeOpt a.ref status 0 false n

/-- The armed LKN becomes TX CURRENT and the former one TX DONE; the arm completes with OK and the ream count `rc`. -/
def State.keyChange (s : State) (m : Fin 4) (a : KeyArm) (rc : W32) (ream : Option W32 := none) : State :=
  let s1 := match (s.lci m).current with
    | some k => s.txDone m k ream
    | none => s
  let s2 := (s1.modLkn m a.lkn fun x => { x with tx := .current }).modLci m fun x => { x with arm := none, armRc := rc }
  let (s3, n) := (s2.lknDelta m a.lkn ream).1.armDelta m ream
  s3.completeOpt a.ref 0 rc.toNat a.late n

/-- The ream with count `rc` begins at the framer: an arm whose effective ream this is takes effect, otherwise a marked halt
(R123, R130, R144). -/
def State.lknReam (s : State) (m : Fin 4) (rc : W32) : State :=
  let due := match (s.lci m).arm with
    | none => none
    | some a => match a.time with
      | none => if (s.lci m).armRc = rc then some a else none
      | some t => if a.late ∨ t ≤ (s.tbAt (s.lciTb m)).val then some a else none
  match due with
  | some a => s.keyChange m a rc (some rc)
  | none =>
    match (s.lci m).current with
    | some k => if (s.lkn m k).halts.isEmpty then s else s.txDone m k (some rc)
    | none => s

/-- TX_EN falls: an arm completes with LINE_STOPPED; a marked halt takes effect (Table 4-2). -/
def State.lknStop (s : State) (m : Fin 4) : State :=
  let s1 := s.disarm m 0x24
  match (s1.lci m).current with
  | some k => if (s1.lkn m k).halts.isEmpty then s1 else s1.txDone m k
  | none => s1

/-- An erasure event on LKN `k` (R142, Table 4-2): EMPTY; its arm and its halts complete with KEY_ERASED. -/
def State.lknErase (s : State) (m k : Fin 4) : State :=
  if (s.lkn m k).loaded then
    let hs := (s.lkn m k).halts
    let arm := (s.lci m).arm.filter fun a => decide (a.lkn = k)
    let s1 := (s.modLkn m k fun _ => {}).countMill m 1 11 0
    match arm with
    | some a =>
      let (s2, n) := ((s1.modLci m fun x => { x with arm := none }).lknDelta m k).1.armDelta m
      (s2.completeOpt a.ref 0x34 0 false n).endHalts 0x34 n hs
    | none =>
      let (s2, n) := s1.lknDelta m k
      s2.endHalts 0x34 n hs
  else s

/-- Every (mill, LKN). -/
def allLkns : List (Fin 4 × Fin 4) := (List.finRange 4).flatMap fun m => (List.finRange 4).map fun k => (m, k)

/-- Erase every LKN loaded from a slot that satisfies `p`; `orphan`: by invalidation. -/
def State.lknEraseWhere (s : State) (p : Nat → Bool) (orphan : Bool) : List (Fin 4 × Fin 4) → State
  | [] => s
  | (m, k) :: ks =>
    let v := s.lkn m k
    let s1 := if v.loaded && p v.slot then
        (let s2 := s.lknErase m k
         if orphan then s2.setBit (Reg.lci m 4) 20 else s2)
      else s
    s1.lknEraseWhere p orphan ks

/-! ## Resynchronisation (R137-R141) -/

/-- A SEQ_QUERY for LKN `k` falls due: queued unless one waits or is outstanding (R139). -/
def State.seqQueryDue (s : State) (m k : Fin 4) : State :=
  let d := (s.line m).dlg
  let out := match d.out with
    | some o => decide (o.own = some (.seqQuery k))
    | none => false
  if out || d.queue.contains (.seqQuery k) then s else s.ownMsg m (.seqQuery k)

/-- LKN `k` enters RESYNC and asks for the upper sequence bits (Table 4-6). -/
def State.resync (s : State) (m k : Fin 4) : State :=
  (s.modLkn m k fun x => { x with track := .resync }).seqQueryDue m k

/-! ## LKARM and LKRETIRE -/

def lkOf (d : Desc) : Fin 4 := ⟨d.p1 % 4, by omega⟩

/-- The LKN is EMPTY. -/
def State.lkEmpty (s : State) (m : Fin 4) (d : Desc) : Bool := !(s.lkn m (lkOf d)).loaded

/-- A key of the same slot and generation with the same CHID and END is held already (R121). -/
def State.lcidConflict (s : State) (m : Fin 4) (slot chid : Nat) : Bool :=
  allLkns.any fun (i, k) =>
    let v := s.lkn i k
    v.loaded && decide (v.slot = slot) && decide (v.gen = (s.slot slot).gen) && decide (v.chid = chid)
      && decide (s.lciEnd i = s.lciEnd m)

/-- The checks of LOAD that follow the common ones (R125); `pf` owns the ring. -/
def State.lkLoadCheck (s : State) (pf : Fin 2) (m : Fin 4) (d : Desc) : Option Nat :=
  let v := s.slot d.p2
  match firstFail [(decide (1087 < d.p2), 0x1B), (natBit (d.arg 12 4) 31, 0x1B), (!s.lkEmpty m d, 0x20)] with
  | some st => some st
  | none =>
    match s.slotPre d.p2 pf with
    | some st => some st
    | none => firstFail [(!(v.usable && v.a 0), 0x32), (!v.a (8 + m.val), 0x53), (s.lcidConflict m d.p2 (d.arg 12 4), 0x33)]

def checkLkarmLoad (r : Rid) (s : State) (m : Fin 4) (d : Desc) : Option Nat := s.lkLoadCheck (ringPf r) m d
def applyLkarmLoad (s : State) (m : Fin 4) (d : Desc) : Eff :=
  let v := s.slot d.p2
  let (s1, n) := (s.modLkn m (lkOf d) fun _ => {
    loaded := true, key := v.key, salt := beNat (d.argBytes 0 12), chid := d.arg 12 4, slot := d.p2, gen := v.gen }).lknDelta m (lkOf d)
  { s := s1, dseq := n }

/-- R123, R125, LOAD. Its key transfer waits behind a marking phase (R310). -/
def execLkarmLoad (r : Rid) (s : State) : Res :=
  match s.headFor r 0x18 (· = 0) with
  | none => idle s
  | some d =>
    if (s.gate r d).isNone && s.kstClosed then finish (s.modRing r fun g => { g with waiting := true })
    else s.issue r 0x18 (· = 0) (State.doApply (checkLkarmLoad r) applyLkarmLoad)

def checkLkn (s : State) (m : Fin 4) (d : Desc) : Option Nat := if s.lkEmpty m d then some 0x30 else none

def applyLkarmRxon (s : State) (m : Fin 4) (d : Desc) : Eff :=
  let k := lkOf d
  let (s1, n) := ((s.modLkn m k fun x => { x with rx := true, rxSeen := false }).setBit (Reg.lci m 4) (12 + k.val) false).lknDelta m k
  { s := s1, dseq := n }
/-- R123, RXON. -/
def execLkarmRxon (r : Rid) (s : State) : Res := s.issue r 0x18 (· = 1) (State.doApply checkLkn applyLkarmRxon)

def applyLkarmRxoff (s : State) (m : Fin 4) (d : Desc) : Eff :=
  let (s1, n) := (s.modLkn m (lkOf d) fun x => { x with rx := false, track := .track }).lknDelta m (lkOf d)
  { s := s1, dseq := n }
/-- R123, R140, RXOFF. -/
def execLkarmRxoff (r : Rid) (s : State) : Res := s.issue r 0x18 (· = 2) (State.doApply checkLkn applyLkarmRxoff)

/-- The checks of an arm (R123, R124). -/
def checkLkarmArm (s : State) (m : Fin 4) (d : Desc) : Option Nat :=
  let v := s.lkn m (lkOf d)
  firstFail [(!v.loaded, 0x30), (decide (v.tx = .done), 0x31), (decide (v.tx ≠ .idle), 0x20), ((s.lci m).arm.isSome, 0x20)]

/-- An accepted arm (R130, R131): at once while TX_EN is 0, otherwise pending. `rcK` is none for an arm by time. -/
def State.armKey (s : State) (m : Fin 4) (d : Desc) (ref : CmdRef) (time : Option Nat) (rcK : W32) (late : Bool) : State :=
  let a : KeyArm := { lkn := lkOf d, ref := some ref, time := time, late := late }
  let s0 := s.accept ref
  if !s.txEn m then s0.keyChange m { a with late := false } 0
  else
    let s1 := (s0.modLkn m a.lkn fun x => { x with tx := .armed }).modLci m fun x => { x with arm := some a, armRc := rcK }
    let s2 := if late then (s1.setBit (Reg.lci m 4) 7).countMill m 1 10 0 else s1
    ((s2.lknDelta m a.lkn).1.armDelta m).1

def State.runArmReam (s : State) (d : Desc) (ref : CmdRef) : State :=
  let m := ref.rid.eng
  match checkLkarmArm s m d with
  | some st => s.complete ref st
  | none =>
    let rc := (s.line m).rc.toNat
    let diff := (d.arg 0 4 + 2 ^ 32 - rc) % 2 ^ 32
    let late := decide (diff = 0) || decide (2 ^ 31 ≤ diff)
    s.armKey m d ref none (if late then BitVec.ofNat 32 (rc + 1) else BitVec.ofNat 32 (d.arg 0 4)) late
/-- R130, ARM by ream. -/
def execLkarmArmReam (r : Rid) (s : State) : Res := s.issue r 0x18 (· = 3) State.runArmReam

def State.runArmTime (s : State) (d : Desc) (ref : CmdRef) : State :=
  let m := ref.rid.eng
  match d.time with
  | none => s.complete ref 0x1B
  | some t =>
    match checkLkarmArm s m d with
    | some st => s.complete ref st
    | none =>
      if !s.tbRun (s.lciTb m) then s.complete ref 0x1C
      else s.armKey m d ref (some t) 0 (decide (t ≤ (s.tbAt (s.lciTb m)).val))
/-- R130, ARM by time. -/
def execLkarmArmTime (r : Rid) (s : State) : Res := s.issue r 0x18 (· = 4) State.runArmTime

def checkLkarmCancel (s : State) (m : Fin 4) (d : Desc) : Option Nat :=
  let v := s.lkn m (lkOf d)
  firstFail [(!v.loaded, 0x30), (decide (v.tx = .current ∨ v.tx = .done), 2)]
def applyLkarmCancel (s : State) (m : Fin 4) (d : Desc) : Eff :=
  if (s.lkn m (lkOf d)).tx = .armed then
    (let s1 := s.disarm m 1
     { s := s1, dseq := if s1.standbyHeld then some s1.mte.dseq else none })
  else { s := s }
/-- R123, CANCEL. -/
def execLkarmCancel (r : Rid) (s : State) : Res := s.issue r 0x18 (· = 5) (State.doApply checkLkarmCancel applyLkarmCancel)

def checkLkarmResync (s : State) (m : Fin 4) (d : Desc) : Option Nat :=
  let v := s.lkn m (lkOf d)
  firstFail [(!v.loaded, 0x30), (!v.rx, 0x20)]
def applyLkarmResync (s : State) (m : Fin 4) (d : Desc) : Eff := { s := s.resync m (lkOf d) }
/-- R140, RESYNC. -/
def execLkarmResync (r : Rid) (s : State) : Res := s.issue r 0x18 (· = 6) (State.doApply checkLkarmResync applyLkarmResync)

def State.runHalt (s : State) (d : Desc) (ref : CmdRef) : State :=
  let m := ref.rid.eng
  let k := lkOf d
  let v := s.lkn m k
  match firstFail [(!v.loaded, 0x30), (decide (v.tx ≠ .current), 0x20)] with
  | some st => s.complete ref st
  | none =>
    let s1 := (s.accept ref).modLkn m k fun x => { x with halts := x.halts ++ [ref] }
    if s.txEn m then s1 else s1.txDone m k
/-- R144, HALT. -/
def execLkarmHalt (r : Rid) (s : State) : Res := s.issue r 0x18 (· = 7) State.runHalt

def checkLkretire (s : State) (m : Fin 4) (d : Desc) : Option Nat :=
  let v := s.lkn m (lkOf d)
  firstFail [(!v.loaded, 0x30), (decide (v.tx = .armed ∨ v.tx = .current), 0x20)]
def applyLkretire (s : State) (m : Fin 4) (d : Desc) : Eff :=
  let (s1, n) := (s.modLkn m (lkOf d) fun _ => {}).lknDelta m (lkOf d)
  { s := s1, dseq := n }
/-- R123: the key, salt, CHID, high-water mark and sequence are erased. -/
def execLkretire (r : Rid) (s : State) : Res := s.issue r 0x19 (fun _ => true) (State.doApply checkLkretire applyLkretire)

/-! ## Loss of a time base (R130, R267) -/

/-- Arms by time on time base `b` end with TB_DISABLED. -/
def State.tbArmsLost (s : State) (b : Fin 8) : List (Fin 4) → State
  | [] => s
  | m :: ms =>
    let hit := match (s.lci m).arm with
      | some a => a.time.isSome && decide (s.lciTb m = b)
      | none => false
    (if hit then s.disarm m 0x1C else s).tbArmsLost b ms

/-- RUN of a time base falls. -/
def State.tbStop (s : State) (b : Fin 8) : State := (s.setBit (Reg.tim (0x40 * b.val)) 0 false).tbArmsLost b (List.finRange 4)

/-- R267, R130. -/
def execTbRunClear (b : Fin 8) (s : State) : Res :=
  if s.timLive && s.tbRun b then finish (s.tbStop b) else idle s

end Sys2Proof.Machine
end

