-- ==== Sys2Proof/Machine/Bus.lean ====
section
/-! DEFINITION. External memory as its masters see it (chapter 12): addresses, regions, the cipher of a line, requests and
their answers, loss of a region's key. -/

namespace Sys2Proof.Machine

/-! ## Addresses (R346) -/

def memCh (a : Nat) : Fin 4 := ⟨a / 4096 % 4, by omega⟩
/-- Channel line address. -/
def memLine (a : Nat) : Nat := a / 16384 % 4096 * 128 + a / 32 % 128
def linePage (l : Nat) : Nat := l / 128
/-- The memory address of line `l` of channel `c`. -/
def lineAddr (c : Fin 4) (l : Nat) : Nat := l / 128 * 16384 + c.val * 4096 + l % 128 * 32

/-! ## Channels and regions -/

def State.chan (s : State) (c : Fin 4) : Channel := s.mem.ch[c]
def State.modChan (s : State) (c : Fin 4) (f : Channel → Channel) : State := s.modMem fun m => { m with ch := m.ch.set c (f m.ch[c]) }
def State.rgn (s : State) (r : Fin 8) : Region := s.mem.rgn[r]
def State.modRgn (s : State) (r : Fin 8) (f : Region → Region) : State := s.modMem fun m => { m with rgn := m.rgn.set r (f m.rgn[r]) }
def State.rgnBase (s : State) (r : Fin 8) : Nat := s.fld (Reg.mem (0x200 + 0x20 * r.val)) 0 14
def State.rgnSize (s : State) (r : Fin 8) : Nat := s.fld (Reg.mem (0x204 + 0x20 * r.val)) 0 15
/-- A channel that serves accesses (R352). -/
def Channel.up (x : Channel) : Bool := x.trained && !x.fail

/-- 4 KiB page `p` of the memory space lies in region `r`. -/
def State.inRgn (s : State) (r : Fin 8) (p : Nat) : Bool := decide (s.rgnBase r ≤ p) && decide (p < s.rgnBase r + s.rgnSize r)

/-- The keyed region of a memory address (R353). -/
def State.regionOf (s : State) (a : Nat) : Option (Fin 8) :=
  (List.finRange 8).find? fun r => decide ((s.rgn r).st ≠ .nokey) && s.inRgn r (a / 4096)

/-- Table 12-4: the master may use the region. -/
def State.masterMay (s : State) (x : Master) (r : Fin 8) : Bool :=
  match x with
  | .sac _ _ _ => decide (r = 0)
  | .window => decide (r ≠ 0) && s.bit (Reg.mem (0x208 + 0x20 * r.val)) 0 && s.lcRuns
  | .debug => decide (r ≠ 0) && s.bit (Reg.mem (0x208 + 0x20 * r.val)) 1 && decide (s.kst.lc = 1 ∨ s.kst.lc = 3)
  | .scrub => true

/-- The status with which an access fails before the line is looked at (Table 12-5); 0: it is served. -/
def State.accessStatus (s : State) (x : Master) (a : Nat) : Nat :=
  match s.regionOf a with
  | none => 8
  | some r => if !s.masterMay x r then 9 else if !(s.chan (memCh a)).up then 0xB else if (s.rgn r).st = .init then 7 else 0

/-! ## The stored form of a line (R347, R348) -/

/-- The column of data bit `i` of the code: the `i`-th number from 3 on that is no power of two, so that the check bits have the powers
of two (PRESUMED, log entry 121). -/
def eccCol (i : Nat) : Nat := i + 2 + Nat.log2 (i + 2 + Nat.log2 (i + 2))

/-- The data bits of a line's code as one number: 256 bits of ciphertext, 20 of tag, 19 of the channel line address. -/
def codeBits (l : Nat) (ct : Bytes) (tag : Nat) : Nat := leNat ct % 2 ^ 256 + tag % 2 ^ 20 * 2 ^ 256 + l % 2 ^ 19 * 2 ^ 276

/-- Number of ones among the `n` low bits. -/
def onesOf (v : Nat) : Nat → Nat
  | 0 => 0
  | n + 1 => b2n (natBit v n) + onesOf v n

/-- The sum of the columns of the data bits that are 1: the check bits S[10:0]. -/
def eccCheckBits (v : Nat) : Nat := (List.range 295).foldl (fun a i => if natBit v i then Nat.xor a (eccCol i) else a) 0

/-- The code S[11:0]: check bits, and the bit that makes the number of ones even. -/
def eccOf (v : Nat) : Nat :=
  let h := eccCheckBits v
  h + (onesOf v 295 + onesOf h 11) % 2 * 2048

/-- What the code finds in a line read (R348). -/
inductive EccResult where
  | clean | corrected (x : StoredLine) | ue (synd : Nat) | addr (synd : Nat)
deriving DecidableEq, Repr

/-- The bits of `ct` with bit `i` inverted. -/
def flipBit (ct : Bytes) (i : Nat) : Bytes := ct.mapIdx fun k b => if k = i / 8 then b ^^^ (1#8 <<< (i % 8)) else b

/-- Decode the stored bits `x` read for line `l`. -/
def eccDecode (l : Nat) (x : StoredLine) : EccResult :=
  let v := codeBits l x.ct x.tag
  let synd := Nat.xor (eccCheckBits v) (x.ecc % 2048)
  if (onesOf v 295 + onesOf x.ecc 12) % 2 = 0 then (if synd = 0 then .clean else .ue synd)
  else if synd = 0 then .corrected { x with ecc := Nat.xor x.ecc 2048 }
  else if synd = 2 ^ Nat.log2 synd then .corrected { x with ecc := Nat.xor x.ecc synd }
  else match (List.range 295).find? fun i => decide (eccCol i = synd) with
    | none => .ue synd
    | some i =>
      if i < 256 then .corrected { x with ct := flipBit x.ct i }
      else if i < 276 then .corrected { x with tag := Nat.xor x.tag (2 ^ (i - 256)) }
      else .addr synd

/-- The 8 beats of a stored line (R347): the spare nibble over four data bytes. -/
def StoredLine.beats (x : StoredLine) : List (BitVec 36) :=
  let spare := x.tag * 4096 + x.ecc
  (List.range 8).map fun b => BitVec.ofNat 36 (spare / 16 ^ b % 16 * 2 ^ 32 + beNat (slice x.ct (4 * b) 4))

/-- Stored bits with the change of a read. -/
def SramRead.change (o : SramRead) (x : StoredLine) : StoredLine :=
  let spare := Nat.xor (x.tag % 2 ^ 20 * 4096 + x.ecc % 4096) (o.flips.toNat / 2 ^ 256)
  { ct := xorBytes (padTo 32 x.ct) (leBytes 32 o.flips.toNat), tag := spare / 4096, ecc := spare % 4096 }

/-! ## The cipher of a line (R357, R358) -/

/-- The counter block of Table 12-3. -/
def memBlock (domain : Nat) (r : Fin 8) (c : Fin 4) (l major minor j : Nat) : Bytes :=
  [byteOf domain, byteOf (r.val * 32 + c.val * 8)] ++ beBytes 3 (l % 2 ^ 19) ++ beBytes 4 major ++ [byteOf (minor % 64), 0, 0, 0, 0, 0, byteOf j]

/-- The hash subkey of a region (R355). -/
def hashKey (key : Bytes) : BitVec 128 := toBlock (aesEnc key (3 :: List.replicate 15 0))

/-- The 20-bit tag of a ciphertext line. -/
def lineTag (key : Bytes) (r : Fin 8) (c : Fin 4) (l major minor : Nat) (ct : Bytes) : Nat :=
  let h := hashKey key
  let g := Gcm.mul (Gcm.mul (toBlock (ct.take 16)) h ^^^ toBlock (ct.drop 16)) h
  (g ^^^ toBlock (aesEnc key (memBlock 2 r c l major minor 0))).toNat / 2 ^ 108

/-- The two keystream blocks. -/
def lineStream (key : Bytes) (r : Fin 8) (c : Fin 4) (l major minor : Nat) : Bytes :=
  aesEnc key (memBlock 1 r c l major minor 0) ++ aesEnc key (memBlock 1 r c l major minor 1)

/-- A plaintext line as it is stored. -/
def sealLine (key : Bytes) (r : Fin 8) (c : Fin 4) (l major minor : Nat) (p : Bytes) : StoredLine :=
  let ct := xorBytes p (lineStream key r c l major minor)
  let tag := lineTag key r c l major minor ct
  { ct := ct, tag := tag, ecc := eccOf (codeBits l ct tag) }

/-- The plaintext of a stored line, where its tag verifies. -/
def openLine (key : Bytes) (r : Fin 8) (c : Fin 4) (l major minor : Nat) (x : StoredLine) : Option Bytes :=
  if x.tag = lineTag key r c l major minor x.ct then some (xorBytes x.ct (lineStream key r c l major minor)) else none

/-- Minor counter of a line: 1 from the initialisation of its region on (R354, R358). -/
def Channel.minorOf (x : Channel) (l : Nat) : Nat := tget 1 x.minor l
def Channel.majorOf (x : Channel) (p : Nat) : Nat := tget 0 x.major p
/-- The page is being rewritten. -/
def Channel.rewriting (x : Channel) (p : Nat) : Bool := x.rewrites.any fun w => decide (w.page = p)
/-- The major counter under which a page is stored: during its rewrite, the one before (R360). -/
def Channel.storedMajor (x : Channel) (p : Nat) : Nat :=
  if x.rewriting p then x.majorOf p - 1 else x.majorOf p

/-- What the SRAM holds for a line of region `r`: the line written last, or the encrypted zeros of the initialisation. -/
def State.storedLine (s : State) (r : Fin 8) (c : Fin 4) (l : Nat) : StoredLine :=
  let x := s.chan c
  let v := tget default x.lines l
  if v.ct = [] then sealLine (s.rgn r).key r c l (x.storedMajor (linePage l)) (x.minorOf l) (List.replicate 32 0) else v

/-- What the SRAM holds at a channel line address, whatever region it belongs to. -/
def State.sramLine (s : State) (c : Fin 4) (l : Nat) : StoredLine :=
  let v := tget default (s.chan c).lines l
  if v.ct ≠ [] then v
  else match s.regionOf (lineAddr c l) with
    | some r => if (s.rgn r).st = .ready then s.storedLine r c l else Config.sramLine c l
    | none => Config.sramLine c l

/-- What a read for line `l` delivers. -/
def State.delivered (s : State) (r : Fin 8) (c : Fin 4) (l : Nat) (o : SramRead) : StoredLine :=
  SramRead.change o (match o.line with
    | none => s.storedLine r c l
    | some k => s.sramLine c k.toNat)

/-! ## Requests and answers -/

/-- A request of the SA cache of mill `m`. -/
def MemReq.ofMill (q : MemReq) (m : Fin 4) : Bool :=
  match q.master with
  | .sac k _ _ => decide (k = m)
  | _ => false

/-- A queue of Table 1-8 has no room for the request. -/
def Channel.full (x : Channel) (q : MemReq) : Bool :=
  match q.master with
  | .sac m _ _ => decide (32 ≤ x.queue.countP (·.ofMill m)) || x.waits.any (·.ofMill m)
  | _ => false

/-- A request enters the queue, or waits for room in it. -/
def Channel.enqueue (x : Channel) (q : MemReq) : Channel :=
  if x.full q then { x with waits := x.waits ++ [q] }
  else { x with queue := x.queue ++ [{ q with waited := q.waited || x.rewriting (linePage (memLine q.addr)) }] }

/-- What waits for room moves up. -/
def Channel.drain (x : Channel) : Channel := x.waits.foldl Channel.enqueue { x with waits := [] }

/-- A request reaches its channel controller (R364, R45). -/
def State.memPush (s : State) (q : MemReq) : State :=
  s.modChan (memCh q.addr) fun x => if s.memLive (memCh q.addr) then x.enqueue q else { x with waits := x.waits ++ [q] }

/-- Memory address of line `i` of the context of `sax` (R153). -/
def State.ctxAddr (s : State) (sax i : Nat) : Nat := s.rgnBase 0 * 4096 + 256 * sax + 32 * i

/-- The requests of one transfer, which takes the next number. -/
def State.pushLines (s : State) (m : Fin 4) (sax : Nat) (op : Nat → MemOp) : State :=
  let w := s.mem.nextWid
  ((List.finRange 8).foldl (fun s i =>
    s.memPush { master := .sac m sax i, op := op i.val, addr := s.ctxAddr sax i.val, wid := w }) s).modMem fun x => { x with nextWid := w + 1 }

/-- Write a whole context: 8 line writes (R153). -/
def State.pushCtx (s : State) (m : Fin 4) (sax : Nat) (ctx : Bytes) : State := s.pushLines m sax fun i => .write (slice ctx (32 * i) 32)

/-- The fetches of mill `m` that wait for the rewrite of page `p` of channel `c` are counted, once each (R168). -/
def State.pageStalls (s : State) (c : Fin 4) (p : Nat) (m : Fin 4) : State :=
  let x := s.chan c
  let new := fun (f : Fetch) => !f.stalled && (x.queue ++ x.waits).any fun q =>
    q.ofMill m && decide (q.wid = f.wid ∧ q.op = .read ∧ linePage (memLine q.addr) = p)
  let n := (s.sac m).fetches.countP new
  if n = 0 then s
  else (s.modSac m fun y => { y with fetches := y.fetches.map fun f => if new f then { f with stalled := true } else f }).countMill m 3 7 0 n

/-- Read a whole context: 8 line reads, for the fetch that has been entered under the transfer's number. -/
def State.pullCtx (s : State) (m : Fin 4) (sax : Nat) : State :=
  let a := s.ctxAddr sax 0
  let s1 := s.pushLines m sax fun _ => .read
  if (s.chan (memCh a)).rewriting (linePage (memLine a)) then s1.pageStalls (memCh a) (linePage (memLine a)) m else s1

/-- A status under which data is delivered (R367). -/
def statusOk (st : Nat) : Bool := decide (st < 2)

/-- A line, or a failure, reaches the fetch it belongs to (R165, R367). -/
def Fetch.take (f : Fetch) (i st : Nat) (data : Bytes) : Fetch :=
  { f with
    lines := if statusOk st then tins i data f.lines else f.lines
    bad := if f.bad ≠ 0 ∨ statusOk st then f.bad else if st = 4 then 1 else 2
    done := f.done + 1 }

def Victim.take (v : Victim) (st : Nat) : Victim := { v with acked := v.acked + 1, refused := v.refused || !statusOk st }

/-- Change the first element that satisfies `p`. -/
def modFirst {α : Type} (p : α → Bool) (f : α → α) : List α → List α
  | [] => []
  | x :: xs => if p x then f x :: xs else x :: modFirst p f xs

/-- The requester receives the status, and the data of a read that was served (R367); an answer to a transfer of the SA cache that has
been given up finds nobody. -/
def State.memAnswer (s : State) (q : MemReq) (st : Nat) (data : Bytes) : State :=
  match q.master with
  | .sac m _ i =>
    s.modSac m fun x =>
      if q.op = .read then { x with fetches := modFirst (fun f => decide (f.wid = q.wid)) (·.take i.val st data) x.fetches }
      else { x with
        victims := modFirst (fun v => decide (v.wid = q.wid)) (·.take st) x.victims
        writes := modFirst (fun v => decide (v.wid = q.wid)) (·.take st) x.writes }
  | .window =>
    let s1 := s.modMem fun x => { x with winBusy := false, winStatus := st }
    if q.op = .read ∧ (statusOk st ∨ st = 5) then
      (List.range 8).foldl (fun s i => s.setReg (Reg.mem (0x520 + 4 * i)) (if statusOk st then beNat (slice data (4 * i) 4) else 0)) s1
    else s1
  | .debug => s.emit (.debug st (if q.op ≠ .read then [] else if statusOk st then data else if st = 5 then List.replicate 32 0 else []))
  | .scrub => s

def State.answerAll (s : State) (st : Nat) : List MemReq → State
  | [] => s
  | q :: qs => (s.memAnswer q st []).answerAll st qs

/-! ## Loss of a region key (R356, Table 12-2) -/

/-- The requests of a channel that satisfy `p`. -/
def Channel.requests (x : Channel) (p : MemReq → Bool) : List MemReq :=
  (x.reads ++ x.acks ++ x.rewrites.map (·.req) ++ x.queue ++ x.waits).filter p

/-- The channel without the requests that satisfy `p`; a page rewrite under way goes on. -/
def Channel.dropping (x : Channel) (p : MemReq → Bool) : Channel :=
  { x with
    reads := x.reads.filter (!p ·), acks := x.acks.filter (!p ·), queue := x.queue.filter (!p ·), waits := x.waits.filter (!p ·) }

/-- As `dropping`, the page rewrites they triggered with them. -/
def Channel.without (x : Channel) (p : MemReq → Bool) : Channel :=
  { x.dropping p with rewrites := x.rewrites.filter fun w => !p w.req }

/-- Pending accesses to region `r` fail with NO_KEY. -/
def State.failPending (s : State) (r : Fin 8) : List (Fin 4) → State
  | [] => s
  | c :: cs =>
    let p := fun (q : MemReq) => s.inRgn r (q.addr / 4096)
    let qs := (s.chan c).requests p
    ((s.modChan c fun x => x.without p).answerAll 6 qs).failPending r cs

/-- The region becomes NOKEY and its working key is erased. -/
def State.rgnErase (s : State) (r : Fin 8) : State :=
  if (s.rgn r).st = .nokey ∧ (s.rgn r).load = none then s
  else (s.failPending r (List.finRange 4)).modRgn r fun x => { x with
    st := .nokey, key := [], slot := 0, gen := 0, load := none, drawn := none, unchecked := none }

/-- Erase the regions keyed, or being keyed, from a slot that satisfies `p`. -/
def State.rgnEraseWhere (s : State) (p : Nat → Bool) : List (Fin 8) → State
  | [] => s
  | r :: rs =>
    let x := s.rgn r
    let hit := (decide (x.st ≠ .nokey) && p x.slot) || (match x.load with | some (n, _, _) => p n | none => false)
    (if hit then s.rgnErase r else s).rgnEraseWhere p rs

/-- Line `l` of channel `c` as the SA cache of mill `m` reads it at once for an instruction: the data, or the status of Table 12-5 with
which the read fails. -/
def State.plainLine (s : State) (m : Fin 4) (a : Nat) : Except Nat Bytes :=
  let c := memCh a
  let l := memLine a
  let x := s.chan c
  let st := s.accessStatus (.sac m 0 0) a
  if st ≠ 0 then .error st
  else if tget false x.poison l then .error 5
  else match openLine (s.rgn 0).key 0 c l (x.storedMajor (linePage l)) (x.minorOf l) (s.storedLine 0 c l) with
    | some p => .ok p
    | none => .error 4

end Sys2Proof.Machine
end

