-- ==== Sys2Proof/Machine/Buffers.lean ====
section
/-! DEFINITION. The packet buffer (chapter 8): units and partitions, held units and pause, credit, token buckets, the state of
a tributary for its scheduler, service lists, and the release or discard of a frame. -/

namespace Sys2Proof.Machine

/-! ## Client ports (R371) -/

def portLane (p : Fin 32) : Fin 68 := ⟨p.val, by omega⟩
/-- Lanes of the port that starts at client lane `n`. -/
def State.portWidth (s : State) (n : Nat) : Nat := 2 ^ s.fld (Reg.ser n 0) 6 2
/-- MODE of a lane. -/
def State.laneMode (s : State) (n : Nat) : Nat := s.fld (Reg.ser n 0) 2 4

/-- A wider port of a lower lane occupies client lane `n`. -/
def State.laneTaken (s : State) (n : Nat) : Bool :=
  (List.range (n % 8)).any fun i =>
    let f := n - n % 8 + i
    decide (n < f + s.portWidth f)

/-- MAC_CTL.EN of a client port (Table 18-7). -/
def State.portEnabled (s : State) (p : Fin 32) : Bool := s.bit (Reg.mac (portMill p).val (4 * (portIdx p).val)) 0

/-- The framer's and the deframer's effective lane sets. -/
def State.txSet (s : State) (m : Fin 4) : Byte := (s.line m).laneUse &&& ~~~(s.dkl m).txMap
def State.rxSet (s : State) (m : Fin 4) : Byte := (s.line m).laneUse &&& ~~~(s.dkl m).rxMap
/-- Bits set in a byte. -/
def popCount (b : Byte) : Nat := (List.range 8).countP fun i => b.getLsbD i
def State.txLanes (s : State) (m : Fin 4) : Nat := popCount (s.txSet m)
/-- Physical lanes of a set, ascending. -/
def lanesIn (b : Byte) : List (Fin 8) := (List.finRange 8).filter fun j => b.getLsbD j.val

/-! ## Lane types and modes (Table 13-1, R374) -/

def isLineLane (n : Fin 68) : Bool := decide (32 ≤ n.val ∧ n.val < 64)
def isFeltLane (n : Fin 68) : Bool := decide (64 ≤ n.val)
/-- The mill of a client or line lane. -/
def laneMill (n : Fin 68) : Fin 4 := ⟨n.val / 8 % 4, by omega⟩
/-- Physical line lane of a SER lane. -/
def laneIdx (n : Fin 68) : Fin 8 := ⟨n.val % 8, by omega⟩
/-- Felt lane of a SER lane. -/
def feltIdx (n : Fin 68) : Fin 4 := ⟨n.val % 4, by omega⟩

/-- The domain of a lane is out of reset, and its PLL locked. -/
def State.laneLive (s : State) (n : Fin 68) : Bool := if isFeltLane n then s.feltLive else s.millLive (laneMill n)

/-- Modes that Table 13-1 lists for the lane's type. -/
def modeListed (n : Fin 68) (mode : Nat) : Bool :=
  decide (mode = 0) || (if isFeltLane n then decide (mode = 0xC)
    else if isLineLane n then decide (8 ≤ mode ∧ mode ≤ 0xA) else decide (mode ≤ 4))

/-- MODE of the line group of mill `m`: that of the lowest lane of LANE_USE (R374). -/
def State.lineMode (s : State) (m : Fin 4) : Nat :=
  match lanesIn (s.line m).laneUse with
  | j :: _ => s.laneMode (lineLane m j).val
  | [] => 0

/-- MODE_ERR: a line lane in LANE_USE differs from its group (R374). -/
def State.modeErr (s : State) (n : Fin 68) : Bool :=
  isLineLane n && (s.line (laneMill n)).laneUse.getLsbD (laneIdx n).val && decide (s.laneMode n.val ≠ s.lineMode (laneMill n))

/-- A SER receiver delivers data to its consumer: it is in TRACK, its mode is its group's and its PLL locked, and neither a test nor, on a felt lane or on a line lane of the
effective set, a loopback takes the data (R383, R391, R393). -/
def State.laneDelivers (s : State) (n : Fin 68) : Bool :=
  let m : Fin 4 := ⟨n.val / 8 % 4, by omega⟩
  let free := decide (n.val < 32) || (decide (n.val < 64) && !(s.rxSet m).getLsbD (n.val % 8))
  decide ((s.lane n).st = .track) && !s.modeErr n && !(s.lane n).unlocked && !s.bit (Reg.ser n.val 0) 19 && (free || decide (s.fld (Reg.ser n.val 0) 20 2 = 0))

/-- The link of client port `p` is up (R371, R384): the port is a port of its own, its lanes are all in one client mode of which
Table 13-1 has that number of lanes, and each delivers data. -/
def State.portLink (s : State) (p : Fin 32) : Bool :=
  let mode := s.laneMode p.val
  !s.laneTaken p.val && decide (1 ≤ mode ∧ mode ≤ 4) && (decide (3 ≤ mode) || decide (s.portWidth p.val = 1))
    && (List.finRange 68).all fun n => !decide (p.val ≤ n.val ∧ n.val < p.val + s.portWidth p.val)
      || (decide (s.laneMode n.val = mode) && s.laneDelivers n)

/-- The MAC of client port `p` carries frames: it is enabled and its link is up. -/
def State.portOn (s : State) (p : Fin 32) : Bool := s.portEnabled p && s.portLink p

/-- The transmitters of port `p` send (R371, R375). -/
def State.portSends (s : State) (p : Fin 32) : Bool :=
  (List.finRange 68).all fun n => !decide (p.val ≤ n.val ∧ n.val < p.val + s.portWidth p.val) || s.laneSends n

/-- A frame leaves the die at port `p`; it is lost where the port's transmitters do not send (R375, R376). -/
def State.portOut (s : State) (p : Fin 32) (bytes : Bytes) : State :=
  if s.portSends p then s.emit (.clientFrame p.val bytes) else s

/-- Rate of a port in Gb/s (Table 13-1). -/
def State.portRate (s : State) (p : Fin 32) : Nat :=
  match s.laneMode p.val with
  | 1 => 10 | 2 => 25 | 3 => 50 * s.portWidth p.val | 4 => 100 * s.portWidth p.val | _ => 0

/-! ## Partitions (R230, R231, R265) -/

/-- Units of a stored frame. -/
def unitsOf (n : Nat) : Nat := (n + 255) / 256

def State.egSize (s : State) (m : Fin 4) : Nat := s.fld (Reg.sch m 0) 0 16
def State.txSize (s : State) (m : Fin 4) : Nat := 49152 - s.egSize m

/-- The transmit partition admits `u` units of class `c`. -/
def State.txRoom (s : State) (m : Fin 4) (c u : Nat) : Bool :=
  decide ((s.sch m).txUsed + u ≤ min (s.fld (Reg.sch m (0x10 + 4 * c)) 0 16) (s.txSize m))

/-- The egress partition admits `u` units of class `c`; a credit frame is checked against its size only. -/
def State.egRoom (s : State) (m : Fin 4) (c u : Nat) (credit : Bool) : Bool :=
  decide ((s.sch m).egUsed + u ≤ if credit then s.egSize m else min (s.fld (Reg.sch m (0x30 + 4 * c)) 0 16) (s.egSize m))

/-! ## Pause towards the client (R258) -/

def fcReg (p : Fin 32) : Nat := Reg.sch (portMill p) (0x100 + 8 * (portIdx p).val)

/-- A PAUSE frame (mode 1) or a PFC frame for priority `i`, with pause time `q`. -/
def controlFrame (p : Fin 32) (mode i q : Nat) : Bytes :=
  let head := [0x01, 0x80, 0xC2, 0, 0, 1] ++ padTo 6 (Config.macAddr p.val) ++ [0x88, 0x08]
  let body := if mode = 1 then [0, 1] ++ beBytes 2 q
    else [1, 1, 0, byteOf (2 ^ i)] ++ (List.range 8).flatMap fun j => beBytes 2 (if j = i then q else 0)
  let f := padTo 60 (head ++ body)
  f ++ fcsOf f

/-- A device whose client ports are quiet: a follower of its mate (R408). -/
def State.shadowing (s : State) : Bool :=
  match s.mte.st with
  | .sync | .standby | .taking | .released => true
  | _ => false

def State.sendControl (s : State) (p : Fin 32) (i q : Nat) : State :=
  if s.shadowing then s
  else (s.portOut p (controlFrame p (s.fld (fcReg p) 2 2) i q)).countMill (portMill p) 5 11 p.val

/-- Index of the pause state of a priority, and the units it watches: all priorities together under PAUSE. -/
def State.fcIndex (s : State) (p : Fin 32) (pri : Nat) : Nat := if s.fld (fcReg p) 2 2 = 1 then 0 else pri % 8
def State.fcCount (s : State) (p : Fin 32) (pri : Nat) : Nat :=
  if s.fld (fcReg p) 2 2 = 1 then (s.port p).held.toList.sum else (s.port p).held.toList.getD (pri % 8) 0

/-- Flow control sends for pause state `i` of port `p`: a TX_MODE is set, and PFC is enabled for the priority. -/
def State.fcOn (s : State) (p : Fin 32) (i : Nat) : Bool :=
  decide (s.fld (fcReg p) 2 2 ≠ 0) && (decide (s.fld (fcReg p) 2 2 ≠ 2) || s.bit (fcReg p) (8 + i))

/-- The transmit side of flow control looks at a count that has changed. -/
def State.fcCheck (s : State) (p : Fin 32) (pri : Nat) : State :=
  let i := s.fcIndex p pri
  if !s.fcOn p i then s
  else
    let n := s.fcCount p pri
    let on := (s.port p).xoff.getLsbD i
    if !on && decide (s.fld (fcReg p + 4) 0 16 < n) then
      (s.modPort p fun x => { x with xoff := x.xoff ||| (1#8 <<< i) }).sendControl p i 0xFFFF
    else if on && decide (n ≤ s.fld (fcReg p + 4) 16 16) then
      (s.modPort p fun x => { x with xoff := x.xoff &&& ~~~(1#8 <<< i) }).sendControl p i 0
    else s

/-- A port by number, 0 to 31. -/
def portOf (n : Nat) : Fin 32 := ⟨n % 32, by omega⟩

/-- Units of frames that entered at a port enter or leave the transmit partitions. -/
def State.holdPri (s : State) (p : Nat) (pri u : Nat) (add : Bool) : State :=
  let i : Fin 8 := ⟨pri % 8, by omega⟩
  (s.modPort (portOf p) fun x => { x with held := x.held.set i (if add then x.held[i] + u else x.held[i] - u) }).fcCheck (portOf p) pri

/-! ## A tributary at one mill (R21, R38) -/

/-- Tributary `n` as line mill `m` has it: the active one, or the old side of a move; inactive where `m` has none. -/
def State.tribIn (s : State) (m : Fin 4) (n : Nat) : Trib :=
  let t := s.tribAt n
  let o : Trib := tget default s.tribOld n
  if t.active ∧ t.mill = m then t else if o.active ∧ o.mill = m then o else {}

/-- Tributary `n` as the deframer of line mill `m` has it: from the edge of a move it belongs to the new line group alone (R21). -/
def State.tribRx (s : State) (m : Fin 4) (n : Nat) : Trib :=
  let t := s.tribAt n
  if t.active ∧ t.mill = m then t else {}

def State.setOld (s : State) (n : Nat) (v : Trib) : State := { s with tribOld := tset default n v s.tribOld }

def State.modTribIn (s : State) (m : Fin 4) (n : Nat) (f : Trib → Trib) : State :=
  let t := s.tribAt n
  let o : Trib := tget default s.tribOld n
  if t.active ∧ t.mill = m then s.setTrib n (f t) else if o.active ∧ o.mill = m then s.setOld n (f o) else s

/-! ## Credit (R259-R263) -/

/-- Credit is checked by mill `m`: the agreed version is 2 or above (R263). -/
def State.creditChecked (s : State) (m : Fin 4) : Bool := decide (2 ≤ (s.line m).dlg.ver)

/-- A frame of `u` units may begin. -/
def Trib.creditFor (t : Trib) (u : Nat) : Bool :=
  let o := (t.sent - t.count).toNat
  decide (o < 2 ^ 15) && decide (o + u ≤ t.grant)

/-- Units of a received frame go back to the far transmitter: COUNT, and a place in the order of credit entries (R260, R261). -/
def State.creditReturn (s : State) (f : Frame) : State :=
  if f.rx ∧ f.units ≠ 0 ∧ (s.tribRx f.lineMill f.trib).active then
    (s.modTrib f.trib fun t => { t with rxCount := t.rxCount + BitVec.ofNat 16 f.units, held := t.held - f.units }).modSch
      f.lineMill fun x => if x.creditQ.contains f.trib then x else { x with creditQ := x.creditQ ++ [f.trib] }
  else s

/-! ## Token buckets (R240, R248) -/

/-- One byte in the units of a bucket. -/
def byteU : Nat := 2000000

/-- The buckets with the tokens gained up to tick `now`. -/
def Buckets.upTo (b : Buckets) (now : Nat) : Buckets :=
  let dt := now - b.tick
  { b with
    tc := min (b.cbs * byteU : Nat) (b.tc + (b.cir * dt : Nat)), tp := min (b.pbs * byteU : Nat) (b.tp + (b.pir * dt : Nat))
    tick := now }

/-- Both buckets full. -/
def Buckets.full (b : Buckets) (now : Nat) : Buckets :=
  { b with tc := (b.cbs * byteU : Nat), tp := (b.pbs * byteU : Nat), tick := now }

/-- The lowest level of a shaper's bucket: -9,311 bytes (R240). -/
def bucketFloor : Int := -9311 * byteU
/-- `n` bytes leave both buckets of a shaper. -/
def Buckets.charge (b : Buckets) (n : Int) : Buckets :=
  { b with tc := max bucketFloor (b.tc - n * byteU), tp := max bucketFloor (b.tp - n * byteU) }

/-! ## Service lists (R232-R237) -/

/-- The head of a tributary's queue may begin at mill `m`. -/
def State.headReady (s : State) (m : Fin 4) (t : Trib) : Bool :=
  match t.queue with
  | [] => false
  | q :: _ => t.move.isNone && (decide (t.grant = 0) || !s.creditChecked m || t.creditFor q.units)

/-- The tributary has data on this edge (R232). -/
def State.hasData (s : State) (m : Fin 4) (t : Trib) : Bool :=
  t.active && (!t.stream.left.isEmpty || (t.stream.left.isEmpty && s.headReady m t))

/-- Committed (some true), excess (some false) or asleep (R233). -/
def State.phaseOf (s : State) (m : Fin 4) (t : Trib) : Option Bool :=
  if !s.hasData m t then none
  else if !t.shEn then some true
  else
    let b := t.sh.upTo s.now
    if 0 < b.cir ∧ 0 < b.tc ∧ 0 < b.tp then some true
    else if 0 < b.tp ∧ (b.cir = 0 ∨ b.tc ≤ 0) then some false
    else none

/-- Service list of a phase and class: 0-7 committed, 8-15 excess. -/
def listOf (committed : Bool) (c : Fin 8) : Fin 16 := ⟨c.val + if committed then 0 else 8, by split <;> omega⟩

/-- A tributary that stands in no list and is not asleep joins the tail of its list (R237). -/
def State.wake (s : State) (m : Fin 4) (n : Nat) : State :=
  let t := s.tribIn m n
  match t.list, t.pool, s.phaseOf m t with
  | none, some c, some ph =>
    let l := listOf ph c
    let vr := (s.sch m).vr[l]
    (s.modTribIn m n fun t => { t with
      list := some l, round := vr + 1, fresh := true, slept := none
      deficit := if t.slept = some (l, vr) then t.deficit else 0 }).modSch m
      fun x => { x with lists := x.lists.set l (x.lists[l] ++ [n]) }
  | _, _, _ => s

/-- `sleep` of R236. -/
def State.sleepTrib (s : State) (m : Fin 4) (n : Nat) (l : Fin 16) : State :=
  let vr := (s.sch m).vr[l]
  (s.modTribIn m n fun t => { t with list := none, deficit := min t.deficit 0, slept := some (l, vr) }).modSch m
    fun x => { x with lists := x.lists.set l (x.lists[l].filter (· ≠ n)) }

/-- The tributary leaves its list without a sleep (DEACTIVATE, a move). -/
def State.unlist (s : State) (m : Fin 4) (n : Nat) : State :=
  s.modSch m fun x => { x with lists := x.lists.map (·.filter (· ≠ n)) }

/-- Wake, in ascending order, every tributary of mill `m` that has become committed or excess (R237). -/
def State.wakeAll (s : State) (m : Fin 4) : State :=
  ((s.trib.map (·.1) ++ s.tribOld.map (·.1)).mergeSort (· ≤ ·)).foldl (fun s n => s.wake m n) s

/-! ## Frames enter and leave the buffer -/

/-- A frame from client to line is discarded by mill `m` outside the buffer. -/
def State.dropTx (s : State) (m : Fin 4) : State := s.fixMill m 0
/-- A frame from line to client is discarded by mill `m`; its credit goes back. -/
def State.dropRx (s : State) (m : Fin 4) (f : Frame) : State := (s.fixMill m 1).creditReturn f
/-- A frame of either direction is discarded. -/
def State.dropFrame (s : State) (m : Fin 4) (f : Frame) : State := if f.rx then s.dropRx m f else s.dropTx m

/-- The transmit partition of mill `m` releases a queued frame; its port's held units fall. -/
def State.releaseTx (s : State) (m : Fin 4) (q : Queued) : State :=
  (s.modSch m fun x => { x with txUsed := x.txUsed - q.units }).holdPri q.f.port q.pri q.units false

/-- The egress partition of mill `m` releases a queued frame; its credit goes back. -/
def State.releaseEg (s : State) (m : Fin 4) (q : Queued) : State :=
  (s.modSch m fun x => { x with egUsed := x.egUsed - q.units }).creditReturn q.f

/-- Every frame of a list is flushed from the transmit partition of mill `m`, counted as QCFG_FLUSH (R38, R250). -/
def State.flushTx (s : State) (m : Fin 4) : List Queued → State
  | [] => s
  | q :: qs => (((s.releaseTx m q).countMill m 5 13 q.f.trib).dropTx m).flushTx m qs

/-- A frame is refused on its way into a tributary queue; `held`: it comes from the headbox, so its port's count has it. -/
def State.refuseTx (s : State) (m : Fin 4) (q : Queued) (held : Bool) : State :=
  (if held then s.holdPri q.f.port q.pri q.units false else s).dropTx m

/-- A complete frame joins its tributary's queue at line mill `m`, or is refused (R265, R250). A frame that crosses the headbox
(`held`) leaves the sum of its priority's units as it was (R258). -/
def State.joinTrib (s : State) (m : Fin 4) (q : Queued) (held : Bool := false) : State :=
  let t := s.tribAt q.f.trib
  if ¬ (t.active ∧ t.mill = m) then (s.countMill m 5 13 q.f.trib).refuseTx m q held
  else if s.txRoom m q.f.cls q.units && decide (t.occ + q.units ≤ t.qlim) then
    let s1 := (s.modTrib q.f.trib fun t => { t with queue := t.queue ++ [q], occ := t.occ + q.units }).modSch m
      fun x => { x with txUsed := x.txUsed + q.units }
    (if held then s1 else s1.holdPri q.f.port q.pri q.units true).wake m q.f.trib
  else (s.countMill m 5 0 (q.f.cls % 8)).refuseTx m q held

/-- A complete frame joins an egress queue of client port `p`, or is refused (R265). -/
def State.joinEgress (s : State) (p : Fin 32) (f : Frame) : State :=
  let m := portMill p
  let u := unitsOf f.bytes.length
  let q : Fin 8 := ⟨f.queue % 8, by omega⟩
  if s.egRoom m f.cls u (decide (f.units ≠ 0)) then
    (s.modPort p fun x => { x with queues := x.queues.set q (x.queues[q] ++ [{ f := f, units := u, pri := f.pri }]) }).modSch m
      fun x => { x with egUsed := x.egUsed + u }
  else (s.countMill m 5 0 (8 + f.cls % 8)).dropRx m f

/-- A client to line frame leaves its client mill: into its tributary's queue there, or into the headbox staging share
(R31, R35). -/
def State.sendTx (s : State) (f : Frame) : State :=
  let c := f.clientMill
  let m := (s.tribAt f.trib).mill
  let q : Queued := { f := { f with lineMill := m }, units := unitsOf f.bytes.length, pri := f.pri }
  if ¬ (s.tribAt f.trib).active then (s.countMill c 5 13 f.trib).dropTx c
  else if m = c then s.joinTrib m q
  else if !s.live (9 + m.val) then (s.countMill c 6 3 m.val).dropTx c
  else if s.txRoom c f.cls q.units then
    (s.modSch c fun x => { x with staging := x.staging.set m (x.staging[m] ++ [q]), txUsed := x.txUsed + q.units }).holdPri
      f.port f.pri q.units true
  else (s.countMill c 5 0 (f.cls % 8)).dropTx c

/-! ## Dispatch to the vat (R173, R203) -/

/-- A thread's key in the table of a mill. -/
def threadKey (c e t : Nat) : Nat := 32 * c + 4 * e + t
/-- A cluster takes new frames: it is in service (R204), and THROTTLE stops clusters 4 to 7 (Table 15-2). -/
def State.clusterTakes (s : State) (m : Fin 4) (c : Fin 8) : Bool :=
  !(s.tmp.throttle && decide (4 ≤ c.val)) && decide ((s.vat m).run[c] = 1)
/-- Frames in the threads of a cluster, and in its dispatch queue. -/
def State.clusterBusy (s : State) (m : Fin 4) (c : Fin 8) : Nat := (s.vat m).threads.countP fun x => decide (x.1 / 32 = c.val)
def queuedFor (q : List (Fin 8 × Frame)) (c : Fin 8) : Nat := q.countP fun e => decide (e.1 = c)
/-- A cluster in service with a free thread (R173). -/
def State.clusterFree (s : State) (m : Fin 4) (c : Fin 8) : Bool := s.clusterTakes m c && decide (s.clusterBusy m c < 32)
/-- A cluster in service with a free thread that no waiting frame will take. -/
def State.clusterSpare (s : State) (m : Fin 4) (c : Fin 8) : Bool :=
  s.clusterTakes m c && decide (s.clusterBusy m c + queuedFor (s.vat m).disp c < 32)
/-- The dispatch queue of a cluster (Table 1-8: 32 frames) may take a frame; while no cluster is in service, that of any. -/
def State.clusterRoom (s : State) (m : Fin 4) (c : Fin 8) : Bool :=
  decide (queuedFor (s.vat m).disp c < 32) && (s.clusterTakes m c || !(List.finRange 8).any (s.clusterTakes m))

/-- The first cluster after `rr`, in round robin, for which `p` holds. -/
def nextCluster (rr : Nat) (p : Fin 8 → Bool) : Option (Fin 8) :=
  (List.range 8).findSome? fun j =>
    let c : Fin 8 := ⟨(rr + 1 + j) % 8, by omega⟩
    if p c then some c else none

/-- The cluster that is given the next frame: by round robin among those with a free thread, otherwise among those whose queue
has room (the latter a DESIGN CHOICE, log entry 17). -/
def State.queueFor (s : State) (m : Fin 4) : Option (Fin 8) :=
  (nextCluster (s.vat m).rr (s.clusterSpare m)).or (nextCluster (s.vat m).rr (s.clusterRoom m))
/-- The dispatch queues of the mill have room. -/
def State.dispRoom (s : State) (m : Fin 4) : Bool := (s.queueFor m).isSome

/-- A frame joins a dispatch queue; one that finds no free thread is counted (Table 6-12). -/
def State.dispatchPut (s : State) (m : Fin 4) (f : Frame) : State :=
  let c := (s.queueFor m).getD 0
  let s1 := s.modVat m fun v => { v with disp := v.disp ++ [(c, f)], rr := c.val }
  if s.clusterSpare m c then s1 else s1.countMill m 4 15 c.val

/-- Waiting frames whose cluster takes no frames any more go to the queue of another cluster that does and has room. -/
def restray (isOpen : Fin 8 → Bool) : Nat → List (Fin 8 × Frame) → List (Fin 8 × Frame) → List (Fin 8 × Frame)
  | _, done, [] => done
  | rr, done, e :: es =>
    if isOpen e.1 then restray isOpen rr (done ++ [e]) es
    else match nextCluster rr fun c => isOpen c && decide (queuedFor (done ++ es) c < 32) with
      | some c => restray isOpen c.val (done ++ [(c, e.2)]) es
      | none => restray isOpen rr (done ++ [e]) es

/-- Frames of a queue that is longer than `limit` bytes and what must go: the youngest of the lowest class, one after another. -/
def shedByClass (cls : Frame → Nat) (limit : Nat) : Nat → List Frame → List Frame × List Frame
  | 0, fs => (fs, [])
  | n + 1, fs =>
    if (fs.map (·.bytes.length)).sum ≤ limit ∨ fs.length ≤ 1 then (fs, [])
    else
      let low := fun f => decide (fs.all fun g => decide (cls f ≤ cls g))
      match fs.reverse.find? low with
      | none => (fs, [])
      | some f =>
        let (kept, gone) := shedByClass cls limit n (fs.reverse.eraseP low).reverse
        (kept, f :: gone)

/-- The MAC of port `p` holds a frame back: 4 KiB (Table 1-8), or one longer frame. The excess is dropped by class (R203), which for
a frame that no program has seen is its ingress priority (DESIGN CHOICE, log entry 17). -/
def State.holdFrame (s : State) (p : Fin 32) (f : Frame) : State :=
  let fs := (s.port p).hold ++ [f]
  let r := shedByClass (·.pri) 4096 fs.length fs
  r.2.foldl (fun s _ => s.dropTx (portMill p)) (s.modPort p fun x => { x with hold := r.1 })

/-! ## The active page (R92) -/

def Deckle.page (x : Deckle) (b : Bool) : Tbl W16 := if b then x.pageB else x.pageA
/-- The entry at index `e` of a page; an unlisted one is idle. -/
def Deckle.entry (x : Deckle) (b : Bool) (e : Nat) : Nat := (tget 0x3FFF (x.page b) e).toNat
/-- Tributary `n` holds a position of the active page: its frames are fixed traffic (chapter 1, The headbox). -/
def Deckle.holds (x : Deckle) (n : Nat) : Bool := (x.page x.activeB).any fun e => decide (e.2.toNat % 16384 = n)

/-- Bytes in the rebuild output queue of a mill. -/
def Sch.rebuiltBytes (x : Sch) : Nat := (x.rebuilt.map (·.bytes.length)).sum

/-- A receive frame is discarded on its route by line mill `m` (R39, Table 1-1). -/
def State.routeDrop (s : State) (m : Fin 4) (f : Frame) : State :=
  ((s.countMill m 6 2 f.clientMill.val).setBit Reg.hbxStat (8 + m.val)).dropRx m f

/-- Class by which the rebuild output queue drops a frame (R203): the pool class of its tributary; one without a class goes last
(DESIGN CHOICE, log entry 17). -/
def State.rebuildCls (s : State) (m : Fin 4) (f : Frame) : Nat :=
  match (s.tribRx m f.trib).pool with
  | some c => c.val
  | none => 8

/-- A rebuilt frame goes to its client mill's dispatch queue, or waits in the rebuild output queue, which holds 64 KiB and drops
the excess by class (R35, R203). -/
def State.deliverRx (s : State) (m : Fin 4) (f : Frame) : State :=
  if f.clientMill = m ∧ s.dispRoom m ∧ ¬ (s.sch m).rebuilt.any (fun g => decide (g.clientMill = m)) then s.dispatchPut m f
  else
    let fs := (s.sch m).rebuilt ++ [f]
    let r := shedByClass (s.rebuildCls m) 65536 fs.length fs
    r.2.foldl (fun s g => s.routeDrop m g) (s.modSch m fun x => { x with rebuilt := r.1 })

/-- The frame that takes the next room in the dispatch queues of mill `m`: one of its own line that waits in the rebuild output
queue, otherwise one that a MAC of its ports holds back (DESIGN CHOICE, log entry 17). -/
def State.refillOne (s : State) (m : Fin 4) : Option State :=
  if !s.dispRoom m then none
  else match (s.sch m).rebuilt.find? (fun g => decide (g.clientMill = m)) with
    | some f => some ((s.modSch m fun x => { x with rebuilt := x.rebuilt.erase f }).dispatchPut m f)
    | none => (List.finRange 32).findSome? fun p =>
      if portMill p = m then (s.port p).hold.head?.map fun f =>
        (s.modPort p fun x => { x with hold := x.hold.drop 1 }).dispatchPut m f
      else none

def State.refillMany (s : State) (m : Fin 4) : Nat → State
  | 0 => s
  | n + 1 => match s.refillOne m with
    | some s1 => s1.refillMany m n
    | none => s

/-- Room has appeared in the dispatch queues of mill `m`, or the set of clusters that take frames has changed. -/
def State.refill (s : State) (m : Fin 4) : State :=
  (s.modVat m fun v => { v with disp := restray (s.clusterTakes m) v.rr [] v.disp }).refillMany m 256
def State.refillAll (s : State) : State := (List.finRange 4).foldl State.refill s

end Sys2Proof.Machine
end

