-- ==== Sys2Proof/Machine/Ptp.lean ====
section
/-! DEFINITION. The header parser (R181, Table 6-1) and the transparent span (R280-R287): correction of PTP messages, match
tables, time-stamp capture. -/

namespace Sys2Proof.Machine

/-! ## Header parser -/

def be16 (f : Bytes) (o : Nat) : Nat := beNat (slice f o 2)

/-- Up to `n` VLAN tags at `o`: their TCIs, and the offset behind them. -/
def vlanTags (tpid : Nat → Bool) (f : Bytes) : Nat → Nat → List Nat × Nat
  | 0, o => ([], o)
  | n + 1, o =>
    if tpid (be16 f o) && decide (o + 4 ≤ f.length) then
      let (ts, e) := vlanTags tpid f n (o + 4)
      (be16 f (o + 2) :: ts, e)
    else ([], o)

/-- What the parser finds (offsets without the 0xFF of an absent header). -/
structure Parsed where
  et : Nat
  vlans : List Nat
  v4 : Bool := false
  v6 : Bool := false
  l3 : Option Nat := none
  l4 : Option Nat := none
  udp : Bool := false
  tcp : Bool := false
  frag : Bool := false
  ptp : Option Nat := none
  sectag : Option Nat := none
  bad : Bool := false

/-- UDP or TCP at `o`, and PTP over UDP. -/
def Parsed.l4At (x : Parsed) (f : Bytes) (proto o : Nat) : Parsed :=
  if proto = 17 then
    { x with l4 := some o, udp := true, ptp := if be16 f (o + 2) = 319 ∨ be16 f (o + 2) = 320 then some (o + 8) else none }
  else if proto = 6 then { x with l4 := some o, tcp := true }
  else x

/-- The headers of a frame; `tpid` recognises VLAN tags. -/
def parseFrame (tpid : Nat → Bool) (f : Bytes) : Parsed :=
  let (ts, o) := vlanTags tpid f 2 12
  let x : Parsed := { et := o, vlans := ts }
  let t := be16 f o
  let h := o + 2
  if t = 0x0800 then
    let ihl := (byteAt f h).toNat % 16
    let y := { x with v4 := true, l3 := some h }
    if (byteAt f h).toNat / 16 ≠ 4 ∨ ihl < 5 ∨ f.length < h + 4 * ihl then { y with bad := true }
    else
      let fo := be16 f (h + 6) % 0x4000
      let z := { y with frag := decide (fo ≠ 0) }
      if fo % 0x2000 = 0 then z.l4At f (byteAt f (h + 9)).toNat (h + 4 * ihl) else z
  else if t = 0x86DD then
    let y := { x with v6 := true, l3 := some h }
    if (byteAt f h).toNat / 16 ≠ 6 ∨ f.length < h + 40 then { y with bad := true } else y.l4At f (byteAt f (h + 6)).toNat (h + 40)
  else if t = 0x88F7 then { x with ptp := some h }
  else if t = 0x88E5 then { x with sectag := some o }
  else x

/-- Message type of the PTP message found. -/
def Parsed.mtype (x : Parsed) (f : Bytes) : Nat :=
  match x.ptp with
  | some o => (byteAt f o).toNat % 16
  | none => 0

/-- PFLAGS[4]: an event message; over UDP the port tells (319), otherwise the message type (0 to 7). -/
def Parsed.event (x : Parsed) (f : Bytes) : Bool :=
  match x.ptp, x.l4 with
  | some _, some l => decide (be16 f (l + 2) = 319)
  | some _, none => decide (x.mtype f < 8)
  | none, _ => false
/-- PFLAGS[5]: a general message. -/
def Parsed.general (x : Parsed) (f : Bytes) : Bool := x.ptp.isSome && !x.event f

/-- A header of `n` bytes at an offset does not lie in the window. -/
def outsideWin (n : Nat) : Option Nat → Bool
  | some o => decide (256 < o + n)
  | none => false

/-- The offset as a special register shows it. -/
def winOff : Option Nat → Nat
  | some o => if o < 256 then o else 0xFF
  | none => 0xFF

/-- PFLAGS (Table 6-1). -/
def Parsed.flags (x : Parsed) (f : Bytes) : Nat :=
  let bits := [x.v4, x.v6, x.udp, x.tcp, x.event f, x.general f, x.sectag.isSome, x.frag,
    outsideWin 20 x.l3 || outsideWin 8 x.l4 || outsideWin 34 x.ptp, x.bad, (byteAt f 0).getLsbD 0, decide (f.take 6 = List.replicate 6 0xFF)]
  bits.foldr (fun b n => b2n b + 2 * n) 0

/-- The VLAN special registers. -/
def Parsed.vlan (x : Parsed) (i : Nat) : Nat :=
  match x.vlans[i]? with
  | some t => t + 65536
  | none => 0

/-- TPIDs that mill `m` recognises (Table 5-12). -/
def State.tpid (s : State) (m : Fin 4) (t : Nat) : Bool :=
  decide (t = 0x8100) || decide (t = 0x88A8) || (s.bit (Reg.fci m 0) 16 && decide (t = s.fld (Reg.fci m 0) 0 16))
def State.parse (s : State) (m : Fin 4) (f : Bytes) : Parsed := parseFrame (s.tpid m) f

/-! ## The correction field (R285) -/

/-- Ones' complement sum of 16-bit words. -/
def onesAdd (a b : Nat) : Nat := let n := a + b; n % 65536 + n / 65536
def onesSum (f : Bytes) (o : Nat) : Nat → Nat
  | 0 => 0
  | n + 1 => onesAdd (onesSum f o n) (be16 f (o + 2 * n))

/-- The UDP checksum after the 8 bytes at `o` changed from `old` to `new`: incremental; zero stays zero. -/
def fixUdp (f : Bytes) (l4 o : Nat) (old : Bytes) : Bytes :=
  let c := be16 f (l4 + 6)
  if c = 0 then f
  else
    let minus := (List.range 4).foldl (fun n i => onesAdd n (65535 - be16 old (2 * i))) (65535 - c)
    let r := 65535 - onesAdd minus (onesSum f o 4)
    patch f (l4 + 6) (beBytes 2 (if r = 0 then 65535 else r))

/-- The frame with its FCS made right. -/
def refcs (f : Bytes) : Bytes := f.take (f.length - 4) ++ fcsOf (f.take (f.length - 4))

/-- Add `c` (2^-16 ns) to the correction field of the message at `o`; true: it saturated. -/
def addCorrection (x : Parsed) (o : Nat) (f : Bytes) (c : Int) : Bytes × Bool :=
  let old := slice f (o + 8) 8
  let v := sext 64 (beNat old) + c
  let sat := decide (2 ^ 63 - 1 < v)
  let g := patch f (o + 8) (beBytes 8 (toTwos 64 (if sat then 2 ^ 63 - 1 else v)))
  (refcs (match x.l4 with | some l => fixUdp g l (o + 8) old | none => g), sat)

/-- Key of a match table (R286): domain, port identity, sequence, family. -/
def matchKey (f : Bytes) (o : Nat) : Bytes :=
  let t := (byteAt f o).toNat % 16
  byteAt f (o + 4) :: (slice f (o + 20) 12 ++ [byteOf (if t = 8 then 0 else if t = 10 then 3 else t)])

/-- The correction of a TC frame at a point with match table `t` and two-step setting `two`; `q` is the port counted (R285,
R286). -/
def State.correct (s : State) (t : Nat) (two : Bool) (q : Nat) (x : Parsed) (f : Frame) (part : Int) : Bytes × State :=
  match x.ptp with
  | none => (f.bytes, s)
  | some o =>
    let add := fun (c : Int) (s : State) =>
      let (b, sat) := addCorrection x o f.bytes c
      (b, if sat then s.countDev 0xB 2 q else s)
    if f.tcEvent then
      if two && (byteAt f.bytes (o + 6)).getLsbD 1 then
        let es := s.tcTable t
        let e : TcEntry := { key := matchKey f.bytes o, part := part }
        if es.length < 32 then (f.bytes, s.setTcTable t (es ++ [e]))
        else (f.bytes, (s.setTcTable t (es.drop 1 ++ [e])).countDev 0xB 5 q)
      else add part s
    else if f.tcFollow then
      let k := matchKey f.bytes o
      match (s.tcTable t).find? (fun e => decide (e.key = k)) with
      | some e => add e.part (s.setTcTable t ((s.tcTable t).erase e))
      | none => (f.bytes, s.countDev 0xB 3 q)
    else (f.bytes, s)

/-! ## The two ends of the span -/

def timPort (p : Nat) : Nat := Reg.tim (0x400 + 4 * p)
def State.tcMode (s : State) (p : Nat) : Nat := s.fld (timPort p) 3 2
def State.twoStep (s : State) (p : Nat) : Bool := s.bit (timPort p) 5
def State.portTb (s : State) (p : Nat) : Fin 8 := ⟨s.fld (timPort p) 0 3, by unfold State.fld natBits; omega⟩
def State.lineTb (s : State) (m : Fin 4) : Fin 8 := ⟨s.fld (Reg.tim (0x600 + 0x20 * m.val)) 0 3, by unfold State.fld natBits; omega⟩

/-- Table 9-4: RX and TX in tenths of a nanosecond, and whether the clause uses RS-FEC; by MODE, lanes and SER_CTL.FEC. -/
def stampFix (mode width : Nat) (fec : Bool) : Nat × Nat × Bool :=
  match mode, width with
  | 1, _ => (384, 256, false)
  | 2, _ => if fec then (1182, 741, true) else (307, 225, false)
  | 3, 1 => (1096, 683, true) | 3, 2 => (964, 610, true) | 3, 4 => (842, 529, true) | 3, 8 => (816, 504, true)
  | 4, 1 => (885, 557, true) | 4, 2 => (842, 529, true) | 4, 4 => (816, 504, true) | 4, 8 => (803, 498, true)
  | 8, _ => (1426, 613, true) | 9, _ => (2718, 1189, true) | 0xA, _ => (5302, 2334, true)
  | _, _ => (0, 0, false)

/-- An instant taken now at the internal point, at the MDI (R276): less the RX value, or plus the TX value, each with its `trim` of
1/64 ns (R277), and, with RS-FEC, for the symbol's position in its codeword, which is not given (a free value, log entry
115); at 1/64 ns (R275). -/
def State.mdiStamp (s : State) (b : Fin 8) (tx : Bool) (fix : Nat × Nat × Bool) (trim : Int) : Stamp :=
  let t := s.tbAt b
  let v : Int := ((if tx then fix.2.1 else fix.1) * nsU / 10 : Nat) + trim * 2 ^ 34
  let pos : Int := if fix.2.2 then Config.fecPosition s.free else 0
  let x := (if tx then (t.val : Int) + v + pos else (t.val : Int) - v - pos) % (tbWrap : Int)
  { tb := b, val := x.toNat / 2 ^ 34 * 2 ^ 34, steps := t.steps }

/-- A stamp at client port `p`. -/
def State.portStamp (s : State) (p : Nat) (tx : Bool) : Stamp :=
  s.mdiStamp (s.portTb p) tx (stampFix (s.laneMode p) (s.portWidth p) (s.bit (Reg.ser p 0) 8))
    (sext 16 (s.fld (Reg.tim (0x500 + 4 * p)) (if tx then 16 else 0) 16))

/-- A stamp of a LANE 0 marker at the line MDI of mill `m` (R275, R276). -/
def State.lineStamp (s : State) (m : Fin 4) (tx : Bool) : Stamp := s.mdiStamp (s.lineTb m) tx (stampFix (s.lineMode m) 1 false) 0

/-- A time in 2^-40 ns as a correction in 2^-16 ns. -/
def toCorr (d : Rat) : Int := roundOpen (d / 2 ^ 24)

/-- Near correction of a frame whose sheet departs at `ref` (R283). -/
def State.nearPart (s : State) (f : Frame) (ref : Stamp) : Int :=
  let link := if s.tcMode f.port = 2 then s.reg (Reg.tim (0x480 + 4 * f.port)) else 0
  toCorr (ref.sub f.stamp + (link : Nat) * 2 ^ 34 : Int)

/-- The line delay of a group (R279), in 1/64 ns; none: not valid. -/
def State.lineDelay (s : State) (m : Fin 4) : Option Rat :=
  if s.tim.line[m].valid then some s.tim.line[m].dbar else none

/-- Far correction of a frame sent at `out` (R284). -/
def State.farPart (s : State) (f : Frame) (out : Stamp) : Int :=
  let a := Reg.tim (0x600 + 0x20 * f.lineMill.val)
  let d : Rat := match s.lineDelay f.lineMill with
    | some d => d
    | none => if s.bit a 3 then s.reg (a + 0xC) else 0
  toCorr (d * 2 ^ 34 + (out.sub f.ref : Int))

/-- The near device's change of a marked frame as its sheet is built (R282, R283, R286); counted at the ingress port. -/
def State.tcNear (s : State) (m : Fin 4) (f : Frame) (ref : Stamp) : Frame × State :=
  let x := s.parse f.clientMill f.bytes
  if (f.tcEvent || f.tcFollow) && decide (s.tcMode f.port ≠ 0) && x.sectag.isNone then
    let (b, s1) := s.correct m.val (s.twoStep f.port) f.port x f (s.nearPart f ref)
    ({ f with bytes := b }, s1)
  else (f, s)

/-- The far device's change of a marked frame as egress port `p` sends it (R284, R286). -/
def State.tcFar (s : State) (p : Fin 32) (f : Frame) (out : Stamp) : Frame × State :=
  let x := s.parse (portMill p) f.bytes
  if (f.tcEvent || f.tcFollow) && decide (s.tcMode p.val ≠ 0) && x.sectag.isNone then
    let s0 := if f.tcEvent && (s.lineDelay f.lineMill).isNone then s.countDev 0xB 4 p.val else s
    let (b, s1) := s0.correct (4 + p.val) (s.twoStep p.val) p.val x f (s.farPart f out)
    ({ f with bytes := b }, s1)
  else (f, s)

/-- TS_CAPTURE: an entry of the client mill's queue (R287). -/
def State.tsCapture (s : State) (f : Frame) (p : Nat) (st : Stamp) : State :=
  let m : Fin 4 := ⟨p / 8 % 4, by omega⟩
  let x := s.parse m f.bytes
  s.pushStamp ⟨m.val, by omega⟩ {
    stamp := st, port := p, mtype := x.mtype f.bytes, dir := f.rx
    seqid := match x.ptp with | some o => be16 f.bytes (o + 30) | none => 0 }

end Sys2Proof.Machine
end

