-- ==== Sys2Proof/Machine/Path.lean ====
section
/-! DEFINITION. Client MACs, pause and the headbox (chapters 1 and 8): frames that arrive, frames that cross, frames that leave. -/

namespace Sys2Proof.Machine

/-! ## Frames that arrive at a client port (R23) -/

/-- The event of a frame that the MAC discards: PCS error, runt, oversize, FCS error. -/
def macFault (frame : Bytes) (pcsErr : Bool) : Option Nat :=
  if pcsErr then some 7 else if frame.length < 64 then some 4 else if 9216 < frame.length then some 5
  else if fcsGood frame then none else some 6

/-- A MAC control frame. -/
def isControl (frame : Bytes) : Bool := decide (be16 frame 12 = 0x8808)

/-- Ingress priority of a frame (R258). -/
def State.ingressPri (s : State) (p : Fin 32) (frame : Bytes) : Nat :=
  match (vlanTags (s.tpid (portMill p)) frame 1 12).1 with
  | t :: _ => t / 8192
  | [] => s.fld (fcReg p) 4 3

/-- R23, R203, R258, R275: a whole frame arrives; a bad one is counted and discarded, a good one goes to the vat stage, or is held
back while that has no room. -/
def execClientFrameReceive (p : Fin 32) (frame : Bytes) (pcsErr : Bool) (s : State) : Res :=
  let m := portMill p
  if s.millLive m && s.portOn p && !isControl frame then
    finish (match macFault frame pcsErr with
      | some ev => (s.countMill m 7 ev p.val).dropTx m
      | none =>
        let s1 := (s.countMill m 7 0 p.val).countMill m 7 1 p.val frame.length
        let f : Frame :=
          { bytes := frame, port := p.val, clientMill := m, stamp := s1.portStamp p.val false, pri := s1.ingressPri p frame }
        if s1.dispRoom m && (s1.port p).hold.isEmpty then s1.dispatchPut m f else s1.holdFrame p f)
  else idle s

/-! ## Pause from the client (R257) -/

/-- What a control frame does to the paused queues under an RX_MODE; none: it does not match the mode. -/
def pauseBy (mode : Nat) (en : Nat) (frame : Bytes) (old : Byte) : Option Byte :=
  let op := be16 frame 14
  if mode = 1 ∧ op = 0x0001 then some (if be16 frame 16 = 0 then 0 else 0xFF)
  else if mode = 2 ∧ op = 0x0101 then
    some ((List.range 8).foldl (fun (b : Byte) i =>
      if natBit (be16 frame 16) i && natBit en i then
        (if be16 frame (18 + 2 * i) = 0 then b &&& ~~~(1#8 <<< i) else b ||| (1#8 <<< i))
      else b) old)
  else none

/-- R257. -/
def execMacControlReceive (p : Fin 32) (frame : Bytes) (s : State) : Res :=
  let m := portMill p
  if s.millLive m && s.portOn p && isControl frame then
    finish (match macFault frame false with
      | some ev => s.countMill m 7 ev p.val
      | none =>
        match pauseBy (s.fld (fcReg p) 0 2) (s.fld (fcReg p) 8 8) frame (s.port p).paused with
        | some b => (s.modPort p fun x => { x with paused := b }).countMill m 5 10 p.val
        | none => s.countMill m 5 12 p.val)
  else idle s

/-- R257: the pause time of a queue runs out. -/
def execPauseExpire (p : Fin 32) (q : Fin 8) (s : State) : Res :=
  if s.millLive (portMill p) && (s.port p).paused.getLsbD q.val then
    finish (s.modPort p fun x => { x with paused := x.paused &&& ~~~(1#8 <<< q.val) })
  else idle s

/-- R258: the pause is repeated while the count stays above XON. -/
def execPfcRefresh (p : Fin 32) (pri : Fin 8) (s : State) : Res :=
  if s.millLive (portMill p) && s.fcOn p pri.val && (s.port p).xoff.getLsbD pri.val
      && decide (s.fld (fcReg p + 4) 16 16 < s.fcCount p pri.val) then
    finish (s.sendControl p pri.val 0xFFFF)
  else idle s

/-! ## The headbox (R31-R36, R45) -/

/-- Kinds of traffic: 0 fixed, 1 receive, 2 transmit. What source mill `i` offers to output `dst`. -/
inductive Offer where
  | tx (q : Queued) | rx (f : Frame)
deriving DecidableEq, Repr

/-- Traffic of a tributary of line mill `m` is fixed. -/
def State.isFixed (s : State) (m : Fin 4) (n : Nat) : Bool := (s.dkl m).holds n

/-- A receive frame for `dst` can be taken now: the mill has room, or is held, when the frame is discarded. -/
def State.rxTaken (s : State) (dst : Fin 4) : Bool := !s.millLive dst || s.dispRoom dst

/-- What source mill `i` offers to output `dst` in a kind. Within the fixed kind a source offers its frame from client to line
before its frame from line to client (the spec gives no order within one source; DESIGN CHOICE, log entry 21). -/
def State.offer (s : State) (i dst : Fin 4) (kind : Nat) : Option Offer :=
  let tx := fun (fixed : Bool) => ((s.sch i).staging[dst].find? fun q => decide (s.isFixed dst q.f.trib = fixed)).map Offer.tx
  let rx := fun (fixed : Bool) =>
    if s.rxTaken dst then
      ((s.sch i).rebuilt.find? fun f => decide (f.clientMill = dst) && decide (s.isFixed i f.trib = fixed)).map Offer.rx
    else none
  if i = dst then none
  else match kind with
    | 0 => (tx true).or (rx true)
    | 1 => rx false
    | _ => tx false

/-- The source granted for a kind: round robin, from the port after the last winner. -/
def State.hbxGrant (s : State) (dst : Fin 4) (kind : Fin 3) : Option (Fin 4 × Offer) :=
  let last := s.hbxRr[(⟨3 * dst.val + kind.val, by omega⟩ : Fin 12)]
  (List.range 4).findSome? fun j =>
    let i : Fin 4 := ⟨(last + 1 + j) % 4, by omega⟩
    (s.offer i dst kind.val).map fun o => (i, o)

/-- The winner's frame crosses: into its tributary's queue, or into the dispatch queue; for a held mill it is discarded. -/
def State.hbxMove (s : State) (i dst : Fin 4) : Offer → State
  | .tx q =>
    let s1 := s.modSch i fun x => { x with staging := x.staging.set dst (x.staging[dst].erase q) }
    let s2 := s1.modSch i fun x => { x with txUsed := x.txUsed - q.units }
    if s.millLive dst then s2.joinTrib dst q true else (s2.countMill i 6 3 dst.val).refuseTx i q true
  | .rx f =>
    let s1 := s.modSch i fun x => { x with rebuilt := x.rebuilt.erase f }
    if s.millLive dst then s1.dispatchPut dst f else (s1.countMill i 6 3 dst.val).dropRx i f

/-- Sources that lose this grant wait (HBX_STAT TX_WAIT, RX_WAIT). -/
def State.hbxWaits (s : State) (dst : Fin 4) : List (Fin 4) → State
  | [] => s
  | i :: is =>
    let s1 := if (s.offer i dst 2).isSome then (s.setBit Reg.hbxStat i.val).countMill i 6 0 dst.val else s
    let s2 := if (s.offer i dst 1).isSome then (s1.setBit Reg.hbxStat (4 + i.val)).countMill i 6 1 dst.val else s1
    s2.hbxWaits dst is

/-- R31: an output port grants one source: fixed traffic first, then receive, then transmit. -/
def execHeadboxTransfer (dst : Fin 4) (s : State) : Res :=
  match (List.finRange 3).findSome? fun k => (s.hbxGrant dst k).map fun g => (k, g) with
  | none => idle s
  | some (k, i, o) =>
    let s1 := { s with hbxRr := s.hbxRr.set (3 * dst.val + k.val) i.val }
    finish ((s1.hbxMove i dst o).hbxWaits dst (List.finRange 4))

/-! ## Frames that leave at a client port (R251, R255, R284) -/

/-- Bits of time queue `q` needs for its head frame fit the open time that remains. -/
def State.fits (s : State) (p : Fin 32) (q : Fin 8) (f : Queued) : Bool :=
  match (s.port p).openFor (fun b => (s.tbAt b).val) q.val with
  | none => true
  | some n => decide (frameTime f.f.bytes.length (s.portRate p) ≤ n)

/-- Queue `q` of port `p` may send its head now (R251). -/
def State.mayStart (s : State) (p : Fin 32) (q : Fin 8) : Bool :=
  match (s.port p).queues[q] with
  | [] => false
  | f :: _ =>
    (s.port p).gateOpen (fun b => (s.tbAt b).val) q.val && !(s.port p).paused.getLsbD q.val && s.fits p q f

/-- Heads that are too long for every window of their queue are discarded (R255). -/
def State.dropLong (s : State) (p : Fin 32) (q : Fin 8) : List Queued → State
  | [] => s
  | f :: fs =>
    if (s.port p).tooLong q.val (frameTime f.f.bytes.length (s.portRate p)) then
      (((s.modPort p fun x => { x with queues := x.queues.set q fs }).releaseEg (portMill p) f).countMill (portMill p) 5 9 p.val
        |>.fixMill (portMill p) 1).dropLong p q fs
    else s

def State.dropAllLong (s : State) (p : Fin 32) : State :=
  (List.finRange 8).foldl (fun s q => s.dropLong p q (s.port p).queues[q]) s

/-- The MAC begins a frame: transmit stamp, far correction, TS_CAPTURE (R284, R287); the frame leaves the die. -/
def State.sendFrame (s : State) (p : Fin 32) (q : Queued) : State :=
  let m := portMill p
  let out := s.portStamp p.val true
  let (f, s1) := s.tcFar p q.f out
  let s2 := if f.tsCapture then s1.tsCapture f p.val out else s1
  (s2.portOut p f.bytes |>.modPort p fun x => { x with sending := some { q with f := f } }).countMill m 7 2 p.val
    |>.countMill m 7 3 p.val f.bytes.length

/-- R251: the MAC begins the head of the highest queue that may send; a follower of its mate discards it instead (R408). -/
def execEgressFrameStart (p : Fin 32) (s : State) : Res :=
  let m := portMill p
  if s.millLive m && s.portOn p && (s.port p).sending.isNone then
    let s0 := s.dropAllLong p
    match ((List.finRange 8).reverse.find? (s0.mayStart p)).bind fun q => (s0.port p).queues[q].head?.map fun f => (q, f) with
    | none => finish s0
    | some (q, f) =>
      let s1 := s0.modPort p fun x => { x with queues := x.queues.set q (x.queues[q].drop 1) }
      finish (if s.shadowing then ((s1.releaseEg m f).countMill m 5 14 p.val).fixMill m 1 else s1.sendFrame p f)
  else idle s

/-- R231, R260: the frame's last bit leaves the MAC; its units are released and its credit goes back. -/
def execEgressFrameEnd (p : Fin 32) (s : State) : Res :=
  match (s.port p).sending with
  | some q =>
    if s.millLive (portMill p) then
      finish ((s.modPort p fun x => { x with sending := none }).releaseEg (portMill p) q)
    else idle s
  | none => idle s

/-! ## Gate lists in time (R253, R254) -/

/-- R254: the pending list becomes operational once its time base reads its start or later. -/
def execGateListStart (p : Fin 32) (s : State) : Res :=
  match (s.port p).pend with
  | some g =>
    if s.millLive (portMill p) && decide (g.startU ≤ (s.tbAt g.tb).val) then finish (s.modPort p fun x => x.startList (s.tbAt g.tb).val) else idle s
  | none => idle s

/-- R253: the entry in force changes to that of the present time. -/
def execGateEntryChange (p : Fin 32) (s : State) : Res :=
  match (s.port p).oper with
  | some g =>
    let k := g.index (s.tbAt g.tb).val
    if s.millLive (portMill p) && decide (k ≠ (s.port p).entry) then finish (s.modPort p fun x => { x with entry := k }) else idle s
  | none => idle s

end Sys2Proof.Machine
end

