-- ==== Sys2Proof/Machine/Sac.lean ====
section
/-! DEFINITION. The SA catalogue and the SA cache (chapter 5): directory, ways, fetches, write-backs, faults, orphaning, and
the instructions SAINST, SARET and SAPIN. -/

namespace Sys2Proof.Machine

/-! ## Contexts (Table 5-4) -/

def ctxLe (c : Bytes) (o n : Nat) : Nat := leNat (slice c o n)
def ctxPn (c : Bytes) : Nat := ctxLe c 80 8
def ctxSet (c : Bytes) (o n v : Nat) : Bytes := patch c o (leBytes n v)
def ctxFlag (c : Bytes) (i : Nat) : Bool := (byteAt c 2).getLsbD i
def ctxXpn (c : Bytes) : Bool := ctxFlag c 6
/-- The final value of a packet number (R157). -/
def ctxFinal (c : Bytes) : Nat := if ctxXpn c then 2 ^ 64 - 1 else 2 ^ 32 - 1

/-- Add to counter `i` of a context, saturating at 48 bits (R155). -/
def ctxCount (c : Bytes) (i n : Nat) : Bytes := ctxSet c (128 + 8 * i) 8 (min (2 ^ 48 - 1) (ctxLe c (128 + 8 * i) 8 + n))

def saScx (sax : Nat) : Nat := sax / 4
def saAn (sax : Nat) : Nat := sax % 4

/-- STATE as the directory codes it. -/
def SaState.code : SaState → Nat
  | .empty => 0 | .installed => 1 | .retiring => 2 | .orphaned => 3 | .faulted => 4 | .exhausted => 5

/-- A slot is marked in the marking phase that runs, which has not been published yet (R310). -/
def State.unpublished (s : State) (n : Nat) : Bool :=
  match s.kst.marking with
  | some v => v.slots.contains n
  | none => false

/-- The state an `ATT` and the cipher see: an SA whose parent slot is being invalidated is orphaned already (R169). -/
def State.saEff (s : State) (sax : Nat) : SaState :=
  let d := s.saAt sax
  if (d.st = .installed ∨ d.st = .exhausted) ∧ (s.slot d.parent).st = .invalidating ∧ !s.unpublished d.parent then .orphaned else d.st

def State.setSaState (s : State) (sax : Nat) (st : SaState) : State := s.setSa sax { s.saAt sax with st := st }

/-- The mill an SA is bound to. -/
def State.saMill (s : State) (sax : Nat) : Fin 4 := (s.scAt (saScx sax)).mill

/-! ## Ways (R161, R164) -/

def sacSet (sax : Nat) : Nat := Nat.xor (sax % 512) (sax / 512)
def Sac.way (x : Sac) (k : Nat) : Option Way := tget none x.ways k
def Sac.setWay (x : Sac) (k : Nat) (w : Option Way) : Sac := { x with ways := tset none k w x.ways }
/-- Key of the way that holds, or is being filled with, a context. -/
def Sac.find (x : Sac) (sax : Nat) : Option Nat :=
  (List.range 8).findSome? fun i =>
    let k := 8 * sacSet sax + i
    match x.way k with
    | some w => if w.sax = sax then some k else none
    | none => none

/-- The resident context of an SA. -/
def Sac.ctx (x : Sac) (sax : Nat) : Option Bytes :=
  match x.find sax with
  | some k => match x.way k with
    | some w => if w.filling then none else some w.ctx
    | none => none
  | none => none

/-- A context changed while it is resident. -/
def Sac.putCtx (x : Sac) (sax : Nat) (c : Bytes) : Sac :=
  match x.find sax with
  | some k => x.setWay k (some { sax := sax, ctx := c, used := true })
  | none => x

/-- Tree pseudo-LRU: node bits 0 to 6, 1 where the right half is the least recently used. -/
def plruTouch (b : BitVec 7) (w : Nat) : BitVec 7 :=
  let put := fun (b : BitVec 7) (i : Nat) (v : Bool) => if v then b ||| (1#7 <<< i) else b &&& ~~~(1#7 <<< i)
  let b0 := put b 0 (decide (w < 4))
  let b1 := put b0 (1 + w / 4) (decide (w % 4 < 2))
  put b1 (3 + w / 2) (decide (w % 2 = 0))

/-- The first eligible way in pseudo-LRU order. -/
def plruPick (b : BitVec 7) (ok : Nat → Bool) : Option Nat :=
  let two := fun (v : Bool) (x y : Option Nat) => if v then y.or x else x.or y
  let leaf := fun (w : Nat) => if ok w then some w else none
  let quad := fun (i : Nat) => two (b.getLsbD (3 + i)) (leaf (2 * i)) (leaf (2 * i + 1))
  let half := fun (h : Nat) => two (b.getLsbD (1 + h)) (quad (2 * h)) (quad (2 * h + 1))
  two (b.getLsbD 0) (half 0) (half 1)

def Sac.touch (x : Sac) (k : Nat) : Sac := { x with plru := tset 0 (k / 8) (plruTouch (tget 0 x.plru (k / 8)) (k % 8)) x.plru }

/-- The frame is attached to the SA; one without a SecTAG is attached to none. -/
def Frame.refersTo (f : Frame) (sax : Nat) : Bool := decide (f.att = some sax) && !f.badTag

/-- A frame in a thread, or waiting for the cipher, refers to the SA. -/
def State.sacRefs (s : State) (m : Fin 4) (sax : Nat) : Bool :=
  (s.sac m).cipherQ.any (·.refersTo sax) || (s.vat m).threads.any (·.2.frame.refersTo sax)

/-- The copy of a context as it is written back: STATE in byte 1. -/
def State.ctxOut (s : State) (sax : Nat) (c : Bytes) : Bytes := patch c 1 [byteOf (s.saAt sax).st.code]

/-- Release way `k`: a context that has carried a frame enters the victim buffer and is written back (R163, R164). -/
def State.evict (s : State) (m : Fin 4) (k : Nat) : State :=
  match (s.sac m).way k with
  | none => s
  | some w =>
    let s1 := s.modSac m fun x => x.setWay k none
    if w.used then
      (s1.modSac m fun x => { x with victims := x.victims ++ [{ sax := w.sax, ctx := w.ctx, wid := s1.mem.nextWid }] }).pushCtx m w.sax (s.ctxOut w.sax w.ctx)
    else s1.setSa w.sax { s1.saAt w.sax with cached := false }

/-- The way for a fill of the set of `sax` (R164): a free one, or the least recently used that qualifies; none: the fill waits. -/
def State.pickWay (s : State) (m : Fin 4) (sax : Nat) : Option Nat :=
  let x := s.sac m
  let base := 8 * sacSet sax
  match (List.range 8).find? fun i => (x.way (base + i)).isNone with
  | some i => some (base + i)
  | none =>
    if 32 ≤ x.victims.length then none
    else (plruPick (tget 0 x.plru (sacSet sax)) fun i =>
      match x.way (base + i) with
      | some w => !(s.saAt w.sax).pinned && !w.filling && !s.sacRefs m w.sax
      | none => true).map (base + ·)

/-- The victim buffer holds the context. -/
def Sac.victim (x : Sac) (sax : Nat) : Option Victim := x.victims.find? fun v => decide (v.sax = sax)

/-- Pending line writes that satisfy `p` are withdrawn from the channels (R163). -/
def State.cancelReqs (s : State) (p : MemReq → Bool) : State :=
  s.modMem fun mm => { mm with ch := mm.ch.map fun c => c.dropping fun q => p q && decide (q.op ≠ .read) }

/-- Those of an SA. -/
def State.cancelWrites (s : State) (m : Fin 4) (sax : Nat) : State :=
  s.cancelReqs fun q => match q.master with
    | .sac k x _ => decide (k = m ∧ x = sax)
    | _ => false

/-- Those of one transfer. -/
def State.cancelWid (s : State) (m : Fin 4) (wid : Nat) : State := s.cancelReqs fun q => q.ofMill m && decide (q.wid = wid)

/-- A context takes way `k`; refused frames that wait to be counted are counted in it (R162). -/
def Sac.fillWay (x : Sac) (k sax : Nat) (c : Bytes) (used : Bool) : Sac :=
  let n := tget 0 x.refusals sax
  { x.setWay k (some { sax := sax, ctx := if n = 0 then c else ctxCount c 4 n, used := used || decide (n ≠ 0) }) with
    refusals := tset 0 sax 0 x.refusals }

/-- Try to place `sax` into a way: from the victim buffer, or by a fetch from the catalogue. -/
def State.tryFill (s : State) (m : Fin 4) (sax : Nat) : Option State :=
  if ((s.sac m).find sax).isSome then some s
  else (s.pickWay m sax).map fun k =>
    let s1 := (s.evict m k).modSac m (·.touch k)
    match (s1.sac m).victim sax with
    | some v =>
      (s1.modSac m fun x => { (x.fillWay k sax v.ctx true) with victims := x.victims.filter fun y => decide (y.sax ≠ sax) }).cancelWid m v.wid
    | none =>
      let s2 := s1.modSac m fun x => { (x.setWay k (some { sax := sax, ctx := [], filling := true })) with
        fetches := x.fetches ++ [{ sax := sax, wid := s1.mem.nextWid }] }
      s2.pullCtx m sax

/-- Complete the pins whose context is resident. -/
def State.donePins (s : State) (m : Fin 4) : List (CmdRef × Nat) → State
  | [] => s
  | (ref, sax) :: ps =>
    (if ((s.sac m).ctx sax).isSome then
      (let (s1, n) := (s.modSac m fun x => { x with pins := x.pins.filter fun p => decide (p.1 ≠ ref) }).delta
          (.sa sax (s.saAt sax) (((s.sac m).ctx sax).getD []))
       s1.complete ref 0 0 false false n)
    else s).donePins m ps

/-! ## Frames that wait -/

/-- Drop the waiting frames that satisfy `p`, counted as event `ev` with qualifier `q`. -/
def State.dropHeld (s : State) (m : Fin 4) (p : Frame → Bool) (ev : Nat) (q : Nat := 0) : State :=
  let out := (s.sac m).cipherQ.filter p
  let s1 := s.modSac m fun x => { x with cipherQ := x.cipherQ.filter (!p ·) }
  out.foldl (fun s f => (s.countMill m 3 ev q).dropFrame m f) s1

/-- Frames in threads attached to an SA that satisfies `p` will be discarded when they reach the cipher. -/
def State.doomFrames (s : State) (m : Fin 4) (p : Nat → Bool) : State :=
  s.modVat m fun v => { v with threads := v.threads.map fun e => (e.1,
    match e.2.frame.att with
    | some sax => if p sax then { e.2 with frame := { e.2.frame with doomed := true } } else e.2
    | none => e.2) }

/-- Frames of a direction in the miss hold: attached, not resident (R161). -/
def State.missHold (s : State) (m : Fin 4) (rx : Bool) : Nat :=
  let held := fun (f : Frame) => decide (f.rx = rx) && !(f.doomed || f.refused || f.badTag) && (match f.att with
    | some sax => ((s.sac m).ctx sax).isNone
    | none => false)
  (s.sac m).cipherQ.countP held + (s.vat m).threads.countP fun t => held t.2.frame

/-- The frames attached to an SA are discarded, those in threads when they reach the cipher. -/
def State.dropSa (s : State) (m : Fin 4) (sax : Nat) : State :=
  let rx := (s.scAt (saScx sax)).rx
  (s.doomFrames m (· = sax)).dropHeld m (·.refersTo sax) (if rx then 11 else 9) (if rx then saScx sax else 0)

/-! ## Fills (R161-R164) -/

/-- Miss queue entries in use: fetches, and fills that wait with an entry (R161). -/
def Sac.missOut (x : Sac) : Nat := x.fetches.length + x.fillWait.countP (·.entry)

/-- A fill of the SA waits. -/
def Sac.awaited (x : Sac) (sax : Nat) : Bool := x.fillWait.any fun w => decide (w.sax = sax)

/-- An `ATT` that waited for its context to find a way is counted as a victim hit, or as a miss. -/
def State.countFill (s : State) (m : Fin 4) (victim att : Bool) : State := if att then s.countMill m 3 (if victim then 3 else 1) 0 else s

/-- A fill goes on: from the victim buffer, or as a fetch with a miss queue entry of its own; a retiring SA is not fetched (R156), and
the frames that waited for it are discarded. -/
def State.fillOne (s : State) (m : Fin 4) (w : FillWait) : State :=
  let victim := ((s.sac m).victim w.sax).isSome
  let gone := s.modSac m fun x => { x with fillWait := x.fillWait.erase w }
  if !victim && decide ((s.saAt w.sax).st = .retiring) then gone.dropSa m w.sax
  else if !victim && !w.entry && decide (64 ≤ (s.sac m).missOut) then s
  else match gone.tryFill m w.sax with
    | some s1 => s1.countFill m victim w.att
    | none => s

/-- Fills that waited go on where they can. -/
def State.retryFills (s : State) (m : Fin 4) : List FillWait → State
  | [] => s.donePins m (s.sac m).pins
  | w :: ws => (s.fillOne m w).retryFills m ws

def State.retry (s : State) (m : Fin 4) : State := s.retryFills m (s.sac m).fillWait

/-- Start to make a context resident (R162, R164): where no way qualifies the fill waits and is counted; where the miss queue is full it
waits for an entry. `att`: an `ATT` for it is still to be counted. -/
def State.startFill (s : State) (m : Fin 4) (sax : Nat) (att : Bool := false) : State :=
  let victim := ((s.sac m).victim sax).isSome
  let entry := !victim && decide ((s.sac m).missOut < 64)
  let wait := s.modSac m fun x => { x with fillWait := x.fillWait ++ [{ sax := sax, entry := entry, att := att }] }
  if !victim && !entry then wait
  else match s.tryFill m sax with
    | some s1 => s1.countFill m victim att
    | none => wait.countMill m 3 5 0

/-! ## Faults (R165) -/

/-- End the pins of an SA with NO_SA. -/
def State.failPins (s : State) (m : Fin 4) (p : Nat → Bool) : State :=
  ((s.sac m).pins.filter fun x => p x.2).foldl (fun s x => s.complete x.1 0x47)
    (s.modSac m fun x => { x with pins := x.pins.filter fun y => !p y.2 })

/-- The on-die copy of a context is discarded. -/
def Sac.forget (x : Sac) (sax : Nat) : Sac :=
  { (match x.find sax with | some k => x.setWay k none | none => x) with
    fetches := x.fetches.filter fun f => decide (f.sax ≠ sax)
    fillWait := x.fillWait.filter fun w => decide (w.sax ≠ sax)
    refusals := tset 0 sax 0 x.refusals
    victims := x.victims.filter fun v => decide (v.sax ≠ sax)
    writes := x.writes.filter fun v => decide (v.sax ≠ sax) }

/-- The context becomes FAULTED with a cause (1 tag, 2 poison or another failure, 3 mismatch, 4 write-back refused). -/
def State.saFault (s : State) (m : Fin 4) (sax cause : Nat) : State :=
  let s1 := ((s.setSa sax { s.saAt sax with st := .faulted, cached := false, pinned := false }).modSac m fun x =>
    let y := x.forget sax
    if y.faultValid then y else { y with faultValid := true, faultSax := sax, faultCause := cause }).countMill m 3 8 0
  let s2 := ((s1.dropHeld m (·.refersTo sax) 10).failPins m (· = sax)).cancelWrites m sax
  ((s2.delta (.sa sax (s2.saAt sax) [])).1).retry m

/-! ## The rows of the cache -/

/-- The lines of a fetch as one context. -/
def Fetch.ctx (f : Fetch) : Bytes := (List.range 8).flatMap fun i => tget [] f.lines i

/-- FORMAT, ID and MILL agree with the SAX (R165). -/
def State.ctxFits (s : State) (sax : Nat) (c : Bytes) : Bool :=
  decide (byteAt c 0 = 1) && decide (ctxLe c 4 2 = saScx sax + saAn sax * 16384) && decide ((byteAt c 6).toNat % 4 = (s.saMill sax).val)

/-- R165, R164: a context from the catalogue fills its way, or is faulted. -/
def execSaFetchComplete (m : Fin 4) (sax : Fin 65536) (s : State) : Res :=
  match (s.sac m).fetches.find? (fun f => decide (f.sax = sax.val)) with
  | none => idle s
  | some f =>
    if f.done < 8 then idle s
    else if f.bad ≠ 0 then finish (s.saFault m sax.val f.bad)
    else if !s.ctxFits sax.val f.ctx then finish (s.saFault m sax.val 3)
    else
      let s1 := s.modSac m fun x =>
        let y := { x with fetches := x.fetches.filter fun g => decide (g.sax ≠ sax.val) }
        match y.find sax.val with
        | some k => y.fillWay k sax.val (if f.newer = [] then f.ctx else f.newer) (decide (f.newer ≠ []))
        | none => y
      finish ((s1.setSa sax.val { s1.saAt sax.val with cached := true }).retry m)

/-- R163, R165: the 8 line writes of a context are acknowledged; a refused one faults it. -/
def execSaWritebackDone (m : Fin 4) (sax : Fin 65536) (s : State) : Res :=
  let x := s.sac m
  match x.victims.find? (fun v => decide (v.sax = sax.val ∧ v.acked = 8)) with
  | some v =>
    if v.refused then finish (s.saFault m sax.val 4)
    else
      let s1 := (s.modSac m fun x => { x with victims := x.victims.filter fun y => decide (y.sax ≠ sax.val) }).countMill m 3 4 0
      finish ((s1.setSa sax.val { s1.saAt sax.val with cached := false }).retry m)
  | none =>
    match x.writes.find? (fun v => decide (v.sax = sax.val ∧ v.acked = 8)) with
    | some v =>
      let s1 := s.modSac m fun x => { x with writes := x.writes.erase v }
      if v.refused && !v.retire && decide ((s.saAt sax.val).st ≠ .empty) then finish (s1.saFault m sax.val 4)
      else finish s1
    | none => idle s

/-! ## SAINST (R156) -/

def saxOf (d : Desc) : Nat := 4 * d.p2 + d.p1 % 4

/-- FLAGS and RXFLAGS are in range. -/
def flagsOk (fl rx : Nat) : Bool :=
  decide (natBits fl 2 2 ≠ 3) && decide (fl % 4 ≠ 3)
    && if natBit fl 7 then decide (rx % 32 = 0) && decide (natBits rx 5 2 = 1 ∨ natBits rx 5 2 = 2) else decide (rx = 0)

/-- Region 0 is configured for the catalogue (R153). -/
def State.catalogue (s : State) : Bool := decide ((s.rgn 0).st = .ready) && decide (4096 ≤ s.rgnSize 0)

/-- The SC is bound to another mill, or to the other direction (R150). -/
def State.scBad (s : State) (m : Fin 4) (scx : Nat) (rx : Bool) : Option Nat :=
  let c := s.scAt scx
  if !c.valid then none else if c.mill ≠ m then some 0x40 else if c.rx ≠ rx then some 0x41 else none

/-- The unwrapped SAK of an INSTALL. -/
def saUnwrap (s : State) (d : Desc) : Option Bytes :=
  keyUnwrap (s.slot (d.arg 2 2)).key (d.argBytes 48 (if natBit (d.arg 0 1) 5 then 40 else 24))

def State.saInstCheck (s : State) (pf : Fin 2) (m : Fin 4) (d : Desc) : Option Nat :=
  let n := d.arg 2 2
  let fl := d.arg 0 1
  match firstFail [(!flagsOk fl (d.arg 1 1), 0x1B), (decide (1087 < n), 0x1B), (!s.catalogue, 0x42)] with
  | some st => some st
  | none =>
    match s.scBad m d.p2 (natBit fl 7) with
    | some st => some st
    | none =>
      if (s.saAt (saxOf d)).st ≠ .empty then some 0x45
      else match s.slotPre n pf with
        | some st => some st
        | none =>
          let v := s.slot n
          firstFail [(!v.a (8 + m.val), 0x53), (!(v.usable && v.a 1), 0x44), ((saUnwrap s d).isNone, 0x43)]

/-- The context that an INSTALL writes. -/
def State.newCtx (s : State) (m : Fin 4) (d : Desc) (sak : Bytes) : Bytes :=
  let fl := d.arg 0 1
  let rx := natBit fl 7
  let xpn := natBit fl 6
  [1, 1, byteOf fl, byteOf (d.arg 1 1)] ++ leBytes 2 (d.p2 + d.p1 % 4 * 16384) ++ [byteOf m.val, 0] ++ d.argBytes 8 8
    ++ (if xpn then d.argBytes 16 16 else List.replicate 16 0) ++ padTo 32 sak ++ aesEnc sak (List.replicate 16 0)
    ++ leBytes 8 1 ++ leBytes 8 (if rx then d.arg 32 8 else 0) ++ leBytes 4 (if rx then d.arg 40 4 else 0)
    ++ leBytes 2 s.mte.tko.toNat ++ leBytes 2 (d.arg 2 2) ++ leBytes 4 (s.slot (d.arg 2 2)).gen
    ++ List.replicate 20 0 ++ List.replicate 128 0

def checkSainstInstall (r : Rid) (s : State) (m : Fin 4) (d : Desc) : Option Nat := s.saInstCheck (ringPf r) m d
def applySainstInstall (s : State) (m : Fin 4) (d : Desc) : Eff :=
  let sax := saxOf d
  let c := s.newCtx m d ((saUnwrap s d).getD [])
  let rx := natBit (d.arg 0 1) 7
  let sc := s.scAt d.p2
  let cur := natBit (d.arg 4 1) 0 && !rx
  let s1 := (s.setSa sax { st := .installed, parent := d.arg 2 2 }).setSc d.p2
    { valid := true, rx := rx, mill := m, txAn := if cur then d.p1 % 4 else sc.txAn }
  let s2 := (s1.modSac m fun x => { x with writes := x.writes ++ [{ sax := sax, ctx := c, wid := s1.mem.nextWid }] }).pushCtx m sax c
  let (s3, n) := s2.deltas [.sc d.p2 (s2.scAt d.p2), .sa sax (s2.saAt sax) c]
  { s := s3, dseq := n }

/-- R156, INSTALL. Its key transfer waits behind a marking phase (R310). -/
def execSainstInstall (r : Rid) (s : State) : Res :=
  match s.headFor r 0x01 (· = 0) with
  | none => idle s
  | some d =>
    if (s.gate r d).isNone && s.kstClosed then finish (s.modRing r fun g => { g with waiting := true })
    else s.issue r 0x01 (· = 0) (State.doApply (checkSainstInstall r) applySainstInstall)

/-- The context as it stands: in the cache, the victim buffer, or the catalogue; or the cause with which the catalogue's read faults it
(R165, R367). -/
def State.ctxNow (s : State) (m : Fin 4) (sax : Nat) : Except Nat Bytes :=
  match (s.sac m).ctx sax with
  | some c => .ok c
  | none =>
    match (s.sac m).victim sax, (s.sac m).fetches.find? (fun f => decide (f.sax = sax ∧ f.newer ≠ [])),
        (s.sac m).writes.reverse.find? (fun v => decide (v.sax = sax)) with
    | some v, _, _ => .ok v.ctx
    | none, some f, _ => .ok f.newer
    | none, none, some v => .ok v.ctx
    | none, none, none =>
      (List.range 8).foldl (fun acc i =>
        match acc, s.plainLine m (s.ctxAddr sax i) with
        | .ok b, .ok l => .ok (b ++ l)
        | .ok _, .error st => .error (if st = 4 then 1 else 2)
        | e, _ => e) (.ok [])

/-- As an option. -/
def State.ctxOpt (s : State) (m : Fin 4) (sax : Nat) : Option Bytes :=
  match s.ctxNow m sax with
  | .ok c => some c
  | .error _ => none

/-- A context changed by an instruction while it is not resident: in the victim buffer, whose write-back starts afresh, or written whole
to the catalogue. -/
def State.storeAway (s : State) (m : Fin 4) (sax : Nat) (c : Bytes) : State :=
  let w := s.mem.nextWid
  match (s.sac m).victim sax with
  | some v =>
    let s1 := s.cancelWid m v.wid
    (s1.modSac m fun x => { x with
      victims := modFirst (fun y => decide (y.sax = sax)) (fun y => { y with ctx := c, acked := 0, wid := w }) x.victims }).pushCtx m sax
        (s1.ctxOut sax c)
  | none => (s.modSac m fun x => { x with writes := x.writes ++ [{ sax := sax, ctx := c, wid := w }] }).pushCtx m sax (s.ctxOut sax c)

/-- A context changed by an instruction: in the cache, in a fetch under way, which would bring the old one, or away from both. -/
def State.storeCtx' (s : State) (m : Fin 4) (sax : Nat) (c : Bytes) : State :=
  let mine := fun (f : Fetch) => decide (f.sax = sax)
  if ((s.sac m).ctx sax).isSome then s.modSac m fun x => x.putCtx sax c
  else if (s.sac m).fetches.any mine then s.modSac m fun x => { x with fetches := modFirst mine (fun f => { f with newer := c }) x.fetches }
  else s.storeAway m sax c

def saMissing (st : SaState) : Bool := decide (st = .empty ∨ st = .retiring)

def checkSainstUpdateLpn (s : State) (m : Fin 4) (d : Desc) : Option Nat :=
  let st := s.saEff (saxOf d)
  if !s.catalogue then some 0x42
  else match s.scBad m d.p2 true with
  | some x => some x
  | none => if saMissing st ∨ st = .faulted then some 0x47 else none

def applySainstUpdateLpn (s : State) (m : Fin 4) (d : Desc) : Eff :=
  match s.ctxNow m (saxOf d) with
  | .error cause => { s := s.saFault m (saxOf d) cause }
  | .ok c =>
    if ctxLe c 88 8 < d.arg 32 8 then
      let (s1, n) := (s.storeCtx' m (saxOf d) (ctxSet c 88 8 (d.arg 32 8))).delta (.sa (saxOf d) (s.saAt (saxOf d)) (ctxSet c 88 8 (d.arg 32 8)))
      { s := s1, dseq := n }
    else { s := s }
/-- R156, UPDATE_LPN: the floor is raised, never lowered. -/
def execSainstUpdateLpn (r : Rid) (s : State) : Res := s.issue r 0x01 (· = 1) (State.doApply checkSainstUpdateLpn applySainstUpdateLpn)

def checkSainstSetcur (s : State) (m : Fin 4) (d : Desc) : Option Nat :=
  if !s.catalogue then some 0x42
  else match s.scBad m d.p2 false with
  | some x => some x
  | none => if s.saEff (saxOf d) = .installed then none else some 0x47
def applySainstSetcur (s : State) (_ : Fin 4) (d : Desc) : Eff :=
  let (s1, n) := (s.setSc d.p2 { s.scAt d.p2 with txAn := d.p1 % 4 }).delta (.sc d.p2 { s.scAt d.p2 with txAn := d.p1 % 4 })
  { s := s1, dseq := n }
/-- R156, SETCUR. -/
def execSainstSetcur (r : Rid) (s : State) : Res := s.issue r 0x01 (· = 2) (State.doApply checkSainstSetcur applySainstSetcur)

/-! ## SARET (R156) -/

/-- The 144 bytes of a SARET for a context whose counters are lost (R165). -/
def lostReport : Bytes := byteOf 4 :: List.replicate 143 0

/-- The 144 bytes a SARET returns; and the cause with which the catalogue's read faults the SA. -/
def State.saReport (s : State) (m : Fin 4) (sax : Nat) : Bytes × Option Nat :=
  let st := s.saEff sax
  if st = .faulted then (lostReport, none)
  else match s.ctxNow m sax with
    | .ok c0 =>
      let n := tget 0 (s.sac m).refusals sax
      let c := if n = 0 then c0 else ctxCount c0 4 n
      (byteOf st.code :: byteAt c 2 :: (List.replicate 14 0 ++ slice c 128 128), none)
    | .error cause => (lostReport, some cause)

def checkSaret (s : State) (m : Fin 4) (d : Desc) : Option Nat :=
  let c := s.scAt d.p2
  if c.valid ∧ c.mill ≠ m then some 0x40 else if saMissing (s.saAt (saxOf d)).st then some 0x47 else none

def State.runSaretRead (hostErr : Bool) (s : State) (d : Desc) (ref : CmdRef) : State :=
  let m := ref.rid.eng
  match checkSaret s m d with
  | some st => s.complete ref st
  | none =>
    let (b, bad) := s.saReport m (saxOf d)
    let s1 := match bad with | none => s | some cause => s.saFault m (saxOf d) cause
    if hostErr then s1.complete ref 0x19 else (s1.hostWrite (ringPf ref.rid) (d.arg 0 8) b).complete ref 0
/-- R156, READ. -/
def execSaretRead (r : Rid) (hostErr : Bool) (s : State) : Res :=
  if s.hstLive then s.issue r 0x02 (· = 0) (State.runSaretRead hostErr) else idle s

def State.runSaretRetire (s : State) (d : Desc) (ref : CmdRef) : State :=
  let m := ref.rid.eng
  match checkSaret s m d with
  | some st => s.complete ref st
  | none =>
    let sax := saxOf d
    let b := s.saEff sax
    let s1 := if b = .faulted ∨ b = .orphaned then s.doomFrames m (· = sax) else s
    let s2 := ((s1.setSaState sax .retiring).modSac m fun x => { x with
      retires := x.retires ++ [{ ref := ref, sax := sax, addr := d.arg 0 8, lost := decide (b = .faulted) }] }).accept ref
    if (s.sac m).awaited sax then s2.retry m else s2
/-- R156, RETIRE: the SA takes no new frame; SA_RETIRE_COMPLETE ends it. -/
def execSaretRetire (r : Rid) (s : State) : Res := s.issue r 0x02 (· = 1) State.runSaretRetire

/-- The SC's last SA is gone: its binding ends (R150). -/
def State.unbind (s : State) (scx : Nat) : State :=
  if (List.range 4).all fun a => decide ((s.saAt (4 * scx + a)).st = .empty) then s.setSc scx {} else s

/-- R156: the last frame has left the cipher: counters to the host, zeros over the context, EMPTY. -/
def execSaRetireComplete (m : Fin 4) (sax : Fin 65536) (hostErr : Bool) (s : State) : Res :=
  match (s.sac m).retires.find? (fun x => decide (x.sax = sax.val)) with
  | none => idle s
  | some e =>
    if s.sacRefs m sax.val || !s.hstLive then idle s
    else
      let b := if e.lost then lostReport else (s.saReport m sax.val).1
      let s1 := s.modSac m fun x => { (x.forget sax.val) with
        retires := x.retires.filter fun y => decide (y.sax ≠ sax.val) }
      let zeros := List.replicate 256 (0 : Byte)
      let s2 := ((s1.cancelWrites m sax.val).modSac m fun x => { x with
        writes := x.writes ++ [{ sax := sax.val, ctx := zeros, wid := s1.mem.nextWid, retire := true }] }).pushCtx m sax.val zeros
      let s3 := ((s2.failPins m (· = sax.val)).setSa sax.val {}).unbind (saScx sax.val)
      let (s4, n) := s3.deltas [.sa sax.val {} [], .sc (saScx sax.val) (s3.scAt (saScx sax.val))]
      let s5 := if hostErr then s4.complete e.ref 0x19 0 false false n
        else (s4.hostWrite (ringPf e.ref.rid) e.addr b).complete e.ref 0 0 false false n
      finish (s5.retry m)

/-! ## SAPIN (R156, R161) -/

/-- Pinned contexts of the set of `sax`. -/
def State.pinnedIn (s : State) (m : Fin 4) (sax : Nat) : Nat :=
  s.sa.countP fun e => e.2.pinned && decide (sacSet e.1 = sacSet sax) && decide (s.saMill e.1 = m)

def State.runSapinPin (s : State) (d : Desc) (ref : CmdRef) : State :=
  let m := ref.rid.eng
  let sax := saxOf d
  let st := s.saEff sax
  let c := s.scAt d.p2
  match firstFail [(c.valid && decide (c.mill ≠ m), 0x40), (saMissing st || decide (st = .faulted), 0x47),
      (!(s.saAt sax).pinned && decide (6 ≤ s.pinnedIn m sax), 0x46)] with
  | some x => s.complete ref x
  | none =>
    let s1 := ((s.setSa sax { s.saAt sax with pinned := true }).modSac m fun x => { x with pins := x.pins ++ [(ref, sax)] }).accept ref
    if ((s1.sac m).find sax).isSome ∨ (s1.sac m).awaited sax then s1.donePins m [(ref, sax)]
    else (s1.startFill m sax).donePins m [(ref, sax)]
/-- R156, PIN: it completes when the context is resident. -/
def execSapinPin (r : Rid) (s : State) : Res := s.issue r 0x03 (· = 0) State.runSapinPin

def checkSapinUnpin (s : State) (m : Fin 4) (d : Desc) : Option Nat :=
  let c := s.scAt d.p2
  if c.valid ∧ c.mill ≠ m then some 0x40 else if saMissing (s.saEff (saxOf d)) then some 0x47 else none
def applySapinUnpin (s : State) (m : Fin 4) (d : Desc) : Eff :=
  let sax := saxOf d
  let (s1, n) := (s.setSa sax { s.saAt sax with pinned := false }).delta (.sa sax { s.saAt sax with pinned := false } [])
  { s := s1.retry m, dseq := n }
/-- R156, UNPIN. -/
def execSapinUnpin (r : Rid) (s : State) : Res := s.issue r 0x03 (· = 1) (State.doApply checkSapinUnpin applySapinUnpin)

/-! ## Orphaning and clearing (R169-R171) -/

/-- Waiting frames of SAs that have become orphaned are discarded (R167). -/
def State.dropOrphans (s : State) : State :=
  (List.finRange 4).foldl (fun s m => s.dropHeld m (fun f => match f.att with
    | some sax => decide (s.saEff sax = .orphaned)
    | none => false) 9) s

/-- The sweep writes ORPHANED into the directory, and the standby hears of it. -/
def State.sweep (s : State) : State :=
  (s.sa.map (·.1)).foldl (fun s sax =>
    if s.saEff sax = .orphaned ∧ (s.saAt sax).st ≠ .orphaned then
      let s1 := s.setSaState sax .orphaned
      (s1.delta (.sa sax (s1.saAt sax) [])).1
    else s) s

/-- R169. -/
def execOrphanSweepDone (s : State) : Res :=
  if s.kst.sweeping then finish (s.sweep.modKst fun k => { k with sweeping := false }) else idle s

/-- The cache of mill `m` without anything in it; frames that wait are discarded, pins and retires end with NO_SA. -/
def State.clearSac (s : State) (m : Fin 4) : State :=
  let s1 := ((s.dropHeld m (fun _ => true) 9).doomFrames m fun _ => true).failPins m fun _ => true
  let rs := (s1.sac m).retires
  let s2 := s1.modSac m fun x => { x with ways := [], plru := [], fetches := [], fillWait := [], refusals := [], victims := [], writes := [], retires := [] }
  rs.foldl (fun s x => s.complete x.ref 0x47) s2

/-- R170: directory and SC table emptied, every cache cleared. The caller erases the region 0 key. -/
def State.clearCatalogue (s : State) : State :=
  let s1 := (List.finRange 4).foldl State.clearSac s
  { s1 with sa := [], sc := [] }

/-- Requests of the cache of mill `m` leave the memory channels; a page rewrite that one of them began goes on, since the page holds
other mills' contexts too. -/
def State.cancelMill (s : State) (m : Fin 4) : State :=
  s.modMem fun mm => { mm with ch := mm.ch.map fun c => c.dropping (·.ofMill m) }

/-- R171: what is bound to one mill goes. -/
def State.clearMillSas (s : State) (m : Fin 4) : State :=
  let s1 := (s.clearSac m).cancelMill m
  { s1 with
    sa := s1.sa.filter fun e => decide ((s1.scAt (saScx e.1)).mill ≠ m)
    sc := s1.sc.filter fun e => decide (e.2.mill ≠ m) }

end Sys2Proof.Machine
end

