-- ==== Sys2Proof/Machine/FrameCipher.lean ====
section
/-! DEFINITION. The frame cipher (chapter 5): SecTAG, packet numbers, GCM protection and validation of frames. -/

namespace Sys2Proof.Machine

/-! ## Frames and their parts (R147, R148) -/

/-- Where the SecTAG stands: after the source address and the first `t` VLAN tags present. -/
def State.secPos (s : State) (m : Fin 4) (c : Bytes) (f : Bytes) : Nat := (vlanTags (s.tpid m) f ((byteAt c 2).toNat % 4) 12).2

/-- The key of a context. -/
def ctxKey (c : Bytes) : Bytes := slice c 32 (if ctxFlag c 5 then 32 else 16)
/-- Confidentiality offset. -/
def ctxOffset (c : Bytes) : Nat := match natBits (byteAt c 2).toNat 2 2 with | 1 => 30 | 2 => 50 | _ => 0

/-- The IV for packet number `pn`. -/
def ctxIv (c : Bytes) (pn : Nat) : Bytes :=
  if ctxXpn c then xorBytes (slice c 16 4 ++ beBytes 8 pn) (slice c 20 12) else slice c 8 8 ++ beBytes 4 pn

/-- The 16 bytes of a SecTAG for `len` bytes of secure data (Table 5-1). -/
def ctxTag (c : Bytes) (pn len : Nat) : Bytes :=
  let e := if ctxFlag c 4 then 0x0C else 0
  [0x88, 0xE5, byteOf (0x20 + e + (byteAt c 5).toNat / 64), byteOf (if len < 48 then len else 0)] ++ beBytes 4 pn ++ slice c 8 8

/-- Protect a frame (with FCS): SecTAG, secure data, ICV, new FCS. `pos` is the place of the SecTAG. -/
def protect (c : Bytes) (pn pos : Nat) (f : Bytes) : Bytes :=
  let data := (f.drop pos).take (f.length - 4 - pos)
  let head := f.take pos ++ ctxTag c pn data.length
  let o := min (if ctxFlag c 4 then ctxOffset c else data.length) data.length
  let (ct, tag) := gcmEnc (ctxKey c) (ctxIv c pn) (head ++ data.take o) (data.drop o)
  let g := head ++ data.take o ++ ct ++ tag
  g ++ fcsOf g

/-- What the SecTAG of a received frame says: E, SL, PN field, SCI, where the secure data starts. -/
structure SecTag where
  e : Bool
  sl : Nat
  pn : Nat
  sci : Bytes
  data : Nat

/-- Read the SecTAG at `pos` in an accepted form (Table 5-1). -/
def readTag (f : Bytes) (pos : Nat) : Option SecTag :=
  let tci := (byteAt f (pos + 2)).toNat
  let sc := natBit tci 5
  let es := natBit tci 6
  let data := pos + if sc then 16 else 8
  if be16 f pos = 0x88E5 ∧ natBit tci 7 = false ∧ (sc ∧ ¬ es ∨ ¬ sc ∧ es) ∧ natBit tci 4 = false ∧ natBit tci 3 = natBit tci 2
      ∧ data + 20 ≤ f.length then
    some { e := natBit tci 3, sl := (byteAt f (pos + 3)).toNat, pn := beNat (slice f (pos + 4) 4), data := data
           sci := if sc then slice f (pos + 8) 8 else slice f 6 6 ++ [0, 1] }
  else none

/-- SL suits a secure data length. -/
def slFits (sl len : Nat) : Bool := if sl = 0 then decide (48 ≤ len) else decide (sl < 48) && decide (sl = len)

/-- The packet number of a frame on an XPN SA, from its 32 bits and the lowest acceptable one (802.1AE-2018 10.6.2). -/
def recoverPn (lowest pn32 : Nat) : Nat :=
  let hi := lowest / 2 ^ 32
  if natBit lowest 31 && !natBit pn32 31 then (hi + 1) * 2 ^ 32 + pn32 else hi * 2 ^ 32 + pn32

/-- Lowest acceptable packet number (R160). -/
def lowestPn (c : Bytes) : Nat := max (max (ctxPn c - ctxLe c 96 4) (ctxLe c 88 8)) 1

/-! ## Order (R166) -/

/-- The frame of the SA that may enter the cipher: the one with the lowest ticket among those waiting, if no thread holds an
earlier one. -/
def State.cipherHead (s : State) (m : Fin 4) (sax : Nat) (rx : Bool) : Option Frame :=
  match (s.sac m).cipherQ.filter (fun f => decide (f.att = some sax) && decide (f.rx = rx)) with
  | [] => none
  | f :: fs =>
    let g := fs.foldl (fun a b => if b.ticket < a.ticket then b else a) f
    if (s.vat m).threads.any (fun t => decide (t.2.frame.att = some sax) && decide (t.2.frame.ticket < g.ticket)) then none else some g

def State.takeCipher (s : State) (m : Fin 4) (f : Frame) : State :=
  s.modSac m fun x => { x with cipherQ := x.cipherQ.erase f }

/-- A frame that the cipher discards without a context: attached to an SA that is gone, orphaned or faulted. -/
def State.cipherDrop (s : State) (m : Fin 4) (f : Frame) (st : SaState) : Option State :=
  let sax := f.att.getD 0
  if f.doomed then some ((s.countMill m 3 (if f.rx then 11 else 9) (if f.rx then saScx sax else 0)).dropFrame m f)
  else match st with
    | .orphaned => some ((s.countMill m 3 9 0).dropFrame m f)
    | .faulted => some ((s.countMill m 3 10 0).dropFrame m f)
    | .empty => some ((s.countMill m 3 11 (saScx sax)).dropFrame m f)
    | _ => none

/-! ## Transmit (R157, R158) -/

/-- The takeover jump; true: it exhausts the SA. -/
def takeoverJump (c : Bytes) (tko : Nat) : Bytes × Bool :=
  let d := (tko + 65536 - ctxLe c 100 2) % 65536
  if d = 0 then (c, false)
  else if ctxFinal c + 1 < ctxPn c + d * 2 ^ 24 then (ctxSet c 100 2 tko, true)
  else (ctxSet (ctxSet c 80 8 (ctxPn c + d * 2 ^ 24)) 100 2 tko, false)

/-- The PN threshold of a suite. -/
def State.pnThresh (s : State) (m : Fin 4) (xpn : Bool) : Nat :=
  if xpn then s.reg (Reg.fci m 0x10) + 2 ^ 32 * s.reg (Reg.fci m 0x14) else s.reg (Reg.fci m 8)

/-- The threshold of an SA is passed: THRESH, the FIFO of 16 entries, the event (R157, Table 5-15). -/
def State.pnThreshold (s : State) (m : Fin 4) (sax : Nat) : State :=
  ((s.setSa sax { s.saAt sax with thresh := true }).modSac m fun x =>
    if x.thFifo.length < 16 then { x with thFifo := x.thFifo ++ [sax] } else { x with thOvf := true }).countMill m 3 12 0

/-- No packet number is left to the context (R157, R159): it is marked EXHAUSTED, or its next one is past the final value. -/
def ctxSpent (c : Bytes) : Bool := decide (byteAt c 1 = 5 ∨ ctxPn c = 0 ∨ ctxFinal c < ctxPn c)
/-- The context marked EXHAUSTED, as its directory entry is; the mark stays while the SA retires. -/
def ctxEnd (c : Bytes) : Bytes := patch c 1 [5]

/-- An installed SA becomes EXHAUSTED (R157). -/
def State.exhaust (s : State) (m : Fin 4) (sax : Nat) : State :=
  if (s.saAt sax).st = .installed then (s.setSaState sax .exhausted).countMill m 3 13 0 else s

/-- CKPT to a standby that follows (Table 14-5). -/
def ckptEntry (sax pn : Nat) : Bytes := beBytes 2 sax ++ [0, 0] ++ beBytes 8 pn
def State.checkpoint (s : State) (sax pn : Nat) : State :=
  if s.standbyHeld then s.feltSend 0x21 (ckptEntry sax (pn % 2 ^ 64)) else s

/-- A frame refused for an exhausted SA. -/
def State.refuseFrame (s : State) (m : Fin 4) (sax : Nat) (c : Bytes) : State :=
  (s.modSac m fun x => x.putCtx sax (ctxCount c 4 1)).dropTx m

/-- A frame is given a packet number and protected (R157), unless the takeover jump leaves none. -/
def State.cipherTx (s : State) (m : Fin 4) (sax : Nat) (c0 : Bytes) (f : Frame) : State :=
  let (c, gone) := takeoverJump c0 s.mte.tko.toNat
  if gone || ctxSpent c then (s.exhaust m sax).refuseFrame m sax (ctxEnd c)
  else
    let pn := ctxPn c
    let last := decide (pn = ctxFinal c)
    let pos := s.secPos m c f.bytes
    let out := protect c pn pos f.bytes
    let octets := f.bytes.length - 4 - pos
    let e := b2n (ctxFlag c 4)
    let c1 := ctxCount (ctxCount (ctxSet c 80 8 (pn + 1)) e 1) (2 + e) octets
    let s1 := s.modSac m fun x => x.putCtx sax (if last then ctxEnd c1 else c1)
    let s2 := if s.pnThresh m (ctxXpn c) ≤ pn ∧ !(s.saAt sax).thresh then s1.pnThreshold m sax else s1
    let s3 := if last then s2.exhaust m sax else s2
    let s4 := if (pn + 1) / 2 ^ 20 ≠ ctxPn c0 / 2 ^ 20 ∨ last then s3.checkpoint sax (pn + 1) else s3
    s4.sendTx { f with bytes := out, att := none }

/-- R157, R158, R166, R167. -/
def execFciTxFrame (m : Fin 4) (sax : Fin 65536) (s : State) : Res :=
  match s.cipherHead m sax.val false with
  | none => idle s
  | some f =>
    let st := s.saEff sax.val
    let s1 := s.takeCipher m f
    match s1.cipherDrop m f st with
    | some s2 => finish (s2.retry m)
    | none =>
      match (s.sac m).ctx sax.val with
      | none => idle s
      | some c => finish ((if st = .exhausted ∨ byteAt c 1 = 5 then s1.refuseFrame m sax.val c else s1.cipherTx m sax.val c f).retry m)

/-! ## Receive (R160) -/

/-- What becomes of a received frame: counter, octet counter and octets, new PN_NEXT, the frame delivered. -/
structure Verdict where
  cnt : Nat
  octets : Option (Nat × Nat) := none
  next : Option Nat := none
  out : Option Bytes := none

/-- Table 5-6. -/
def validate (c : Bytes) (pos : Nat) (f : Bytes) : Verdict :=
  match readTag f pos with
  | none => { cnt := 5 }
  | some t =>
    let len := f.length - 20 - t.data
    if ¬ slFits t.sl len ∨ t.pn = 0 ∨ t.sci ≠ slice c 8 8 then { cnt := 5 }
    else
      let low := lowestPn c
      let pn := if ctxXpn c then recoverPn low t.pn else t.pn
      let replay := natBit (byteAt c 3).toNat 7
      if replay ∧ pn < low then { cnt := 3 }
      else
        let data := slice f t.data len
        let o := min (if t.e then ctxOffset c else len) len
        let icv := slice f (t.data + len) 16
        let (pt, tag) := gcmDec (ctxKey c) (ctxIv c pn) (f.take t.data ++ data.take o) (data.drop o)
        let g := f.take pos ++ data.take o ++ pt
        let good := decide (tag = icv)
        let oct := some (if t.e then 7 else 6, len)
        if !good then
          if t.e ∨ natBits (byteAt c 3).toNat 5 2 = 2 then { cnt := 2 }
          else
            let h := f.take pos ++ data
            { cnt := 1, out := some (h ++ fcsOf h) }
        else if pn < ctxPn c then { cnt := 4, octets := oct, out := some (g ++ fcsOf g) }
        else { cnt := 0, octets := oct, next := some (pn + 1), out := some (g ++ fcsOf g) }

/-- The context after a verdict. -/
def Verdict.ctx (v : Verdict) (c : Bytes) : Bytes :=
  let c1 := ctxCount c v.cnt 1
  let c2 := match v.octets with | some (i, n) => ctxCount c1 i n | none => c1
  match v.next with | some n => ctxSet c2 80 8 n | none => c2

/-- R160, R148, R166, R167. -/
def execFciRxFrame (m : Fin 4) (sax : Fin 65536) (s : State) : Res :=
  match s.cipherHead m sax.val true with
  | none => idle s
  | some f =>
    let s1 := s.takeCipher m f
    match s1.cipherDrop m f (s.saEff sax.val) with
    | some s2 => finish (s2.retry m)
    | none =>
      match (s.sac m).ctx sax.val with
      | none => idle s
      | some c =>
        let v := validate c (s.secPos m c f.bytes) f.bytes
        let s2 := s1.modSac m fun x => x.putCtx sax.val (v.ctx c)
        let s3 := if v.cnt = 5 then s2.countMill m 3 14 (saScx sax.val) else s2
        finish ((match v.out with
          | some b => s3.joinEgress (portOf f.port) { f with bytes := b, att := none }
          | none => s3.dropRx m f).retry m)

/-! ## The threshold FIFO (Table 5-15) -/

/-- The word a read of FCI_THRESH_FIFO returns, and the state after it. -/
def State.readThresh (s : State) (m : Fin 4) : Nat × State :=
  let x := s.sac m
  let ovf := b2n x.thOvf * 2 ^ 30
  match x.thFifo with
  | [] => (ovf, s.modSac m fun x => { x with thOvf := false })
  | sax :: rest => (sax + ovf + 2 ^ 31, s.modSac m fun x => { x with thFifo := rest, thOvf := false })

/-- R157, Table 5-15: the oldest entry is read and removed. -/
def execThreshFifoRead (m : Fin 4) (s : State) : Res :=
  if s.millLive m then
    let (w, s1) := s.readThresh m
    finish (s1.emit (.regRead 0 (Reg.fci m 0x20) (BitVec.ofNat 32 w)))
  else idle s

end Sys2Proof.Machine
end

