-- ==== Sys2Proof/Machine/Boica.lean ====
section
/-! DEFINITION. Boica, data-plane class (chapter 6): the encoding of an instruction (R182, R183), operands, and threads. -/

namespace Sys2Proof.Machine

/-! ## Instructions (Tables 6-2 to 6-6) -/

/-- A source operand: a register or an immediate. -/
inductive VSrc where
  | reg (n : Nat) | imm (v : W64)
deriving DecidableEq, Repr

inductive VInstr where
  /-- `op gd, a, b` with AOP 0 to 7; `MOV` takes `b`. -/
  | alu (aop gd : Nat) (a b : VSrc)
  | movShift (gd : Nat) (v : W64)
  | movSpecial (gd idx : Nat)
  | cmp (pd gs cond : Nat) (t : VSrc)
  | extMem (gd : Nat) (scratch : Bool) (gb off n : Nat)
  | extReg (gd gs pos w : Nat)
  | insMem (gs : Nat) (scratch : Bool) (gb off n : Nat)
  | insReg (gd gs pos w : Nat)
  | br (t : Nat) | brp (p : Nat) (sense : Bool) (t : Nat) | call (t : Nat) | ret
  | lkp (gd pd gk tab kw : Nat) | tcm (gd pd gk part : Nat)
  | att (gs : Nat) | trib (x : VSrc) | cls (x : VSrc) | pol (gd gs : Nat) | stmp (mode : Nat)
  | enq (gs : Nat) | drop (r : Nat) | punt (q r : Nat)
deriving DecidableEq, Repr

/-- A sign-extended immediate of `w` bits. -/
def simm (w n : Nat) : W64 := BitVec.ofInt 64 (sext w n)
def zimm (n : Nat) : W64 := BitVec.ofNat 64 n

/-- `x`, where the must-be-zero fields are zero. -/
def guardZ (zs : List Nat) (x : VInstr) : Option VInstr := if zs.all (· = 0) then some x else none

/-- Format B (R182): OP4 and X. -/
def decodeB (op x : Nat) : Option VInstr :=
  match op with
  | 0 => guardZ [x] .ret
  | 1 => some (.drop x)
  | 2 => some (.punt (x / 16) (x % 16))
  | 3 => if natBit x 6 then guardZ [natBits x 4 2] (.cls (.reg (x % 16))) else guardZ [natBits x 3 3] (.cls (.imm (zimm (x % 8))))
  | 4 => guardZ [natBits x 4 3] (.trib (.reg (x % 16)))
  | 5 => guardZ [natBits x 4 3] (.enq (x % 16))
  | 6 => guardZ [natBits x 4 3] (.att (x % 16))
  | 7 => if x % 4 = 3 then none else guardZ [natBits x 2 5] (.stmp (x % 4))
  | _ => none

/-- The register and immediate form (C 0x01). -/
def decodeImm (aop gd p : Nat) : Option VInstr :=
  let gs := natBits p 10 4
  let i := p % 1024
  match aop with
  | 0 => guardZ [gs] (.alu 0 gd (.reg gd) (.imm (simm 10 i)))
  | 1 | 2 => some (.alu aop gd (.reg gs) (.imm (simm 10 i)))
  | 6 | 7 => guardZ [natBits i 6 4] (.alu aop gd (.reg gs) (.imm (zimm i)))
  | _ => some (.alu aop gd (.reg gs) (.imm (zimm i)))

/-- `EXT` and `INS` (C 0x05, 0x06): `r` is the register in A. -/
def decodeField (ins : Bool) (a p : Nat) : Option VInstr :=
  let r := natBits a 3 4
  let g := natBits p 10 4
  let n := natBits p 7 3 + 1
  let off := p % 128
  let pos := natBits p 4 6
  let w := p % 16 + 1
  if a % 2 ≠ 0 then none
  else match natBits a 1 2 with
    | 0 => some (if ins then .insMem r false g off n else .extMem r false g off n)
    | 1 => some (if ins then .insMem r true g off n else .extMem r true g off n)
    | 2 => if 64 < pos + w then none else some (if ins then .insReg r g pos w else .extReg r g pos w)
    | _ => none

/-- Format C (R182): OP5, A, P1. -/
def decodeC (op a p : Nat) : Option VInstr :=
  let gd := natBits a 3 4
  let lo := a % 8
  let hi := natBits p 10 4
  match op with
  | 0x00 => if lo = 0 then guardZ [natBits p 6 4, p % 64] (.alu 0 gd (.reg gd) (.reg hi))
            else guardZ [p % 64] (.alu lo gd (.reg hi) (.reg (natBits p 6 4)))
  | 0x01 => decodeImm lo gd p
  | 0x03 => guardZ [lo, natBits p 5 9] (.movSpecial gd (p % 32))
  | 0x04 =>
    let cond := natBits p 11 3
    if natBit p 10 then some (.cmp (natBits a 4 3) (a % 16) cond (.imm (if cond = 4 ∨ cond = 5 then simm 10 (p % 1024) else zimm (p % 1024))))
    else guardZ [p % 64] (.cmp (natBits a 4 3) (a % 16) cond (.reg (natBits p 6 4)))
  | 0x05 => decodeField false a p
  | 0x06 => decodeField true a p
  | 0x07 => guardZ [a] (.br p)
  | 0x08 => guardZ [lo] (.brp (natBits a 4 3) (natBit a 3) p)
  | 0x09 => guardZ [a] (.call p)
  | 0x0A =>
    let kw := natBits p 4 2
    if kw = 3 ∨ (kw = 2 ∧ hi % 2 = 1) then none else guardZ [p % 16] (.lkp gd lo hi (natBits p 6 4) kw)
  | 0x0B => if hi % 2 = 1 then none else guardZ [p % 64] (.tcm gd lo hi (natBits p 6 4))
  | 0x0C => guardZ [a] (.trib (.imm (zimm p)))
  | 0x0D => guardZ [lo, p % 1024] (.pol gd hi)
  | _ => none

/-- The instruction whose first parcel is `p0`, and its length in parcels; none: ILLEGAL (R182, R183). -/
def decodeParcels (p0 p1 p2 : Nat) : Option (VInstr × Nat) :=
  match natBits p0 12 2 with
  | 0 =>
    (if natBit p0 11 then decodeB (natBits p0 7 4) (p0 % 128)
     else
      let gd := natBits p0 4 4
      some (.alu (natBits p0 8 3) gd (.reg gd) (.reg (p0 % 16)))).map (·, 1)
  | 1 => (decodeC (natBits p0 7 5) (p0 % 128) p1).map (·, 2)
  | 2 =>
    if natBits p0 7 5 = 0x02 then
      (let gd := natBits p0 3 4
       let i := p1 * 16384 + p2
       match p0 % 8 with
       | 0 => some (.alu 0 gd (.reg gd) (.imm (simm 28 i)), 3)
       | 1 => some (.movShift gd (zimm i), 3)
       | _ => none)
    else none
  | _ => none

/-- Registers an instruction reads (R189). -/
def VSrc.regs : VSrc → List Nat
  | .reg n => [n]
  | .imm _ => []

def VInstr.reads : VInstr → List Nat
  | .alu aop _ a b => if aop = 0 then b.regs else a.regs ++ b.regs
  | .movShift gd _ => [gd]
  | .movSpecial _ _ => []
  | .cmp _ gs _ t => gs :: t.regs
  | .extMem _ _ gb _ _ => [gb]
  | .extReg _ gs _ _ => [gs]
  | .insMem gs _ gb _ _ => [gs, gb]
  | .insReg gd gs _ _ => [gd, gs]
  | .br _ | .brp _ _ _ | .call _ | .ret => []
  | .lkp _ _ gk _ kw => if kw = 2 then [gk, gk + 1] else [gk]
  | .tcm _ _ gk _ => [gk, gk + 1]
  | .att gs | .enq gs => [gs]
  | .trib x | .cls x => x.regs
  | .pol _ gs => [gs]
  | .stmp _ | .drop _ | .punt _ _ => []

/-- Predicates an instruction reads. -/
def VInstr.preds : VInstr → List Nat
  | .brp p _ _ => [p]
  | _ => []

/-! ## Threads -/

def tidKey (t : Tid) : Nat := threadKey t.cluster.val t.engine.val t.thread.val
def State.thread (s : State) (t : Tid) : Thread := tget default (s.vat t.mill).threads (tidKey t)
def State.setThread (s : State) (t : Tid) (v : Thread) : State :=
  s.modVat t.mill fun x => { x with threads := tset default (tidKey t) v x.threads }
def State.modThread (s : State) (t : Tid) (f : Thread → Thread) : State := s.setThread t (f (s.thread t))

/-- A general register; g0 reads as zero (R177). -/
def Thread.gr (t : Thread) (n : Nat) : W64 := if n % 16 = 0 then 0 else t.g[(⟨n % 16, by omega⟩ : Fin 16)]
/-- Write a general register; writes to g0 are discarded. -/
def Thread.setG (t : Thread) (n : Nat) (v : W64) : Thread :=
  if n % 16 = 0 then t else { t with g := t.g.set (⟨n % 16, by omega⟩ : Fin 16) v }
def Thread.setP (t : Thread) (n : Nat) (b : Bool) : Thread :=
  { t with p := if b then t.p ||| (1#8 <<< (n % 8)) else t.p &&& ~~~(1#8 <<< (n % 8)) }
def Thread.src (t : Thread) : VSrc → W64
  | .reg n => t.gr n
  | .imm v => v

def vatReg (t : Tid) (o : Nat) : Nat := Reg.vat t.mill (0x100 * t.cluster.val + o)
/-- A parcel of a cluster's program memory; 0 past the end (R175). -/
def State.parcel (s : State) (t : Tid) (a : Nat) : Nat := if a < 16384 then (tget 0 (s.vat t.mill).prog (16384 * t.cluster.val + a)).toNat else 0

/-- The instruction at the thread's PC; none: ILLEGAL (R182-R184). -/
def State.vinstr (s : State) (t : Tid) : Option (VInstr × Nat) :=
  let pc := (s.thread t).pc.toNat
  match decodeParcels (s.parcel t pc) (s.parcel t (pc + 1)) (s.parcel t (pc + 2)) with
  | some (i, n) => if pc + n ≤ 16384 then some (i, n) else none
  | none => none

/-- Results the thread still waits for: registers and predicates (R189). -/
def Thread.pendG (t : Thread) : List Nat := t.reqs.map fun
  | .hash rd _ _ _ _ | .tcam rd _ _ _ _ | .pol rd _ _ => rd
def Thread.pendP (t : Thread) : List Nat := t.reqs.filterMap fun
  | .hash _ pd _ _ _ | .tcam _ pd _ _ _ => some pd
  | .pol _ _ _ => none

/-- The thread may issue `i` now (R189, R162). -/
def Thread.ready (t : Thread) (i : VInstr) : Bool :=
  i.reads.all (fun r => decide (r % 16 = 0) || !t.pendG.contains r) && i.preds.all (fun p => !t.pendP.contains p)

/-- The thread holds a frame that has not ended, and is not stalled. -/
def Thread.runs (t : Thread) : Bool :=
  t.busy && t.ended.isNone && (match t.wait with | .att _ stalled _ => !stalled | .none => true)

def State.issueLim (s : State) (m : Fin 4) : Nat := s.fld (Reg.vat m 0x800) 0 8

/-! ## How a frame leaves its thread -/

/-- The thread is free; an attachment that is not used is withdrawn (R198). -/
def State.freeThread (s : State) (t : Tid) (withdraw : Bool) : State :=
  let s1 := s.setThread t default
  let s2 := if withdraw && (s.thread t).attUsed then s1.countMill t.mill 4 9 0 else s1
  s2.retry t.mill

/-- The frame ends and is discarded. -/
def State.vatDrop (s : State) (t : Tid) : State := (s.freeThread t true).dropFrame t.mill (s.thread t).frame

/-- No frame of the same source was dispatched before this one and is still in the vat stage (R174). -/
def State.inOrder (s : State) (t : Tid) : Bool :=
  let x := s.thread t
  (s.vat t.mill).threads.all fun e =>
    let y := e.2
    !y.busy || decide (x.seq ≤ y.seq) || decide (y.frame.rx ≠ x.frame.rx)
      || (if x.frame.rx then decide (y.frame.trib ≠ x.frame.trib) else decide (y.frame.port ≠ x.frame.port))

/-- Count an exception and record the first one (Table 6-17). -/
def State.countExc (s : State) (t : Tid) (cause : Nat) (pc : W14) : State :=
  let w := cause + pc.toNat * 2 ^ 4 + t.cluster.val * 2 ^ 18 + t.engine.val * 2 ^ 21 + t.thread.val * 2 ^ 24
    + b2n (s.thread t).frame.rx * 2 ^ 26
  (s.countMill t.mill 4 5 cause).modVat t.mill fun v => if v.excValid then v else { v with excValid := true, excWord := w }

/-- The frame ends with the default action for an exception of cause `code` (R200). -/
def State.defaultAction (s : State) (t : Tid) (code : Nat) : State :=
  let r := s.reg (vatReg t 8)
  if natBit r 15 then s.setThread t { s.thread t with ended := some (.punt (natBits r 16 3) 0xF code), reqs := [], wait := .none }
  else s.vatDrop t

/-- An exception that traps (R200): the handler, or the default action; inside the handler it is NESTED. -/
def State.vexc (s : State) (t : Tid) (cause : Nat) (pc : W14) : State :=
  let x := s.thread t
  let r := s.reg (vatReg t 8)
  let code := if x.inTrap then 0xF else cause
  let s1 := s.countExc t code pc
  if natBit r 14 && !x.inTrap then
    s1.setThread t { x with
      pc := BitVec.ofNat 14 (r % 16384), inTrap := true, cause := cause, trapPc := pc, trapAt := some s.now, stack := [], ended := none }
  else s1.defaultAction t code

/-- The thread can issue its next instruction: it runs, within its issue limit, and the instruction's operands are there (R189). -/
def State.issuable (s : State) (t : Tid) : Bool :=
  let x := s.thread t
  x.runs && decide (x.issued < s.issueLim t.mill) && (match s.vinstr t with | some (i, _) => x.ready i | none => true)

def engineKey (t : Tid) : Nat := 8 * t.cluster.val + t.engine.val

/-- It is the thread's turn in its engine (R172): no thread nearer in the round than it can issue. -/
def State.vatTurn (s : State) (t : Tid) : Bool :=
  let last := tget 3 (s.vat t.mill).issuer (engineKey t)
  let place := fun (h : Fin 4) => (h.val + 3 - last % 4) % 4
  (List.finRange 4).all fun h => !(decide (place h < place t.thread) && s.issuable { t with thread := h })

/-- The engine's round stands at thread `t`, which has issued last (R172). -/
def State.tookTurn (s : State) (t : Tid) : State :=
  s.modVat t.mill fun v => { v with issuer := tset 3 (engineKey t) t.thread.val v.issuer }

/-- Run the thread's next instruction where it is its turn and the instruction is one of those that `sel` selects. The meaning answers
the state, or the cause of an exception; the PC has advanced past the instruction. Parcels that are no instruction raise ILLEGAL. -/
def vatRow (t : Tid) (sel : VInstr → Bool) (run : State → Thread → VInstr → Except Nat State) (s : State) : Res :=
  let x := s.thread t
  if s.millLive t.mill && s.issuable t && s.vatTurn t then
    let s1 := s.tookTurn t
    let y := { x with issued := x.issued + 1, trapAt := none }
    match s.vinstr t with
    | none => finish ((s1.setThread t y).vexc t 1 x.pc)
    | some (i, n) =>
      if sel i then
        let z := { y with pc := x.pc + BitVec.ofNat 14 n }
        match run (s1.setThread t z) z i with
        | .ok s2 => finish s2
        | .error c => finish ((s1.setThread t y).vexc t c x.pc)
      else idle s
  else idle s

/-! ## Dispatch (R173, R176) -/

/-- The special registers that the parser fixes for a frame (Table 6-1). -/
def State.parsed (s : State) (m : Fin 4) (f : Frame) : Tbl Nat :=
  let x := s.parse m f.bytes
  let tag := match x.sectag with
    | some o => winOff (some o) + (byteAt f.bytes (o + 2)).toNat * 256
    | none => 0xFF
  [(4, winOff (some x.et)), (5, winOff x.l3), (6, winOff x.l4), (7, winOff x.ptp), (8, x.flags f.bytes), (9, tag),
   (0xF, x.vlan 0), (0x12, x.vlan 1)].foldl (fun t e => tset 0 e.1 e.2 t) []

/-- The first free thread of a cluster. -/
def State.freeThreadOf (s : State) (m : Fin 4) (c : Fin 8) : Option Tid :=
  (List.finRange 8).findSome? fun e => (List.finRange 4).findSome? fun h =>
    let t : Tid := ⟨m, c, e, h⟩
    if (s.thread t).busy then none else some t

/-- Two frames of one source (R174): the same client port, or the same tributary. -/
def Frame.sameSource (f g : Frame) : Bool := decide (f.rx = g.rx) && (if f.rx then decide (f.trib = g.trib) else decide (f.port = g.port))

/-- The oldest waiting frame whose cluster has a free thread, and that no older frame of its source waits before (R174). -/
def State.nextDispatch (s : State) (m : Fin 4) : List Frame → List (Fin 8 × Frame) → Option ((Fin 8 × Frame) × Tid)
  | _, [] => none
  | older, e :: es =>
    match (if s.clusterFree m e.1 && older.all (fun g => !e.2.sameSource g) then s.freeThreadOf m e.1 else none) with
    | some t => some (e, t)
    | none => s.nextDispatch m (e.2 :: older) es

/-- R173, R176: a waiting frame is given to a free thread of its cluster, which starts at its entry point. -/
def execVatDispatch (m : Fin 4) (s : State) : Res :=
  match s.nextDispatch m [] (s.vat m).disp with
  | some (w, t) =>
    if s.millLive m then
      let f := w.2
      let e := s.fld (vatReg t 4) (if f.rx then 16 else 0) 14
      let x : Thread :=
        { busy := true, frame := f, pc := BitVec.ofNat 14 e, desc := s.parsed m f, seq := (s.vat m).nextSeq, since := s.now }
      let s1 := (s.setThread t x).modVat m fun v => { v with disp := v.disp.erase w, nextSeq := v.nextSeq + 1 }
      finish ((s1.countMill m 4 (b2n f.rx) t.cluster.val).refill m)
    else idle s
  | none => idle s

end Sys2Proof.Machine
end

