-- ==== Sys2Proof/Machine/Sched.lean ====
section
/-! DEFINITION. Queue settings, shapers, policers and gate lists as the curator sets them, and moves of a tributary between
line groups (chapters 1 and 8). -/

namespace Sys2Proof.Machine

/-! ## Token buckets (R240-R248) -/

/-- A length adjustment byte (R243): −32 to +63. -/
def adjOf (b : Nat) : Int := sext 8 b

/-- A new configuration of a bucket pair on the edge `now` (R242): tokens up to the edge at the old rates, clamped to the new
bursts, or both full. -/
def Buckets.configure (b : Buckets) (now cir cbs pir pbs : Nat) (adj : Int) (fill : Bool) : Buckets :=
  let x := b.upTo now
  let y := { x with
    cir := cir, cbs := cbs, pir := pir, pbs := pbs, adj := adj
    tc := min (cbs * byteU : Nat) x.tc, tp := min (pbs * byteU : Nat) x.tp }
  if fill then y.full now else y

/-- ARG bytes 0 to 17 of SHPSET and POLSET on a bucket pair. -/
def Desc.buckets (d : Desc) (b : Buckets) (now : Nat) (fill : Bool) : Buckets :=
  b.configure now (d.arg 0 4) (d.arg 4 4) (d.arg 8 4) (d.arg 12 4) (adjOf (d.arg 17 1)) fill

/-- A tributary number that an instruction may name. -/
def tribBad (n : Nat) : Bool := decide (n = 0) || decide (16381 < n)

/-- The line group of mill `m` does not hold tributary `n` as active. -/
def State.tribAbsent (s : State) (m : Fin 4) (n : Nat) : Bool := !((s.tribAt n).active && decide ((s.tribAt n).mill = m))

/-- Rates, bursts and ADJ out of range, with the smallest burst allowed (R241, R247). -/
def Desc.bucketsBad (d : Desc) : Bool :=
  decide (900000000 < d.arg 0 4) || decide (900000000 < d.arg 8 4) || decide (16777215 < d.arg 4 4) || decide (16777215 < d.arg 12 4)
    || decide (adjOf (d.arg 17 1) < -32) || decide (63 < adjOf (d.arg 17 1))

/-! ## SHPSET -/

def checkShpset (s : State) (m : Fin 4) (d : Desc) : Option Nat :=
  let en := natBit (d.arg 16 1) 0
  firstFail [
    (tribBad d.p2 || d.bucketsBad || (en && (decide (d.arg 8 4 < d.arg 0 4) || decide (d.arg 12 4 < 64))), 0x1B),
    (s.tribAbsent m d.p2, 0x61)]

/-- Set the shaper of tributary `n`. -/
def State.setShaper (s : State) (m : Fin 4) (n : Nat) (en : Bool) (b : Buckets) : State :=
  (s.modTrib n fun t => { t with shEn := en, sh := b }).wake m n

def applyShpset (s : State) (m : Fin 4) (d : Desc) : Eff :=
  let t := s.tribAt d.p2
  let en := natBit (d.arg 16 1) 0
  let s1 := s.setShaper m d.p2 en (d.buckets t.sh s.now (natBit (d.arg 16 1) 1 || (en && !t.shEn)))
  let (s2, n) := s1.delta (.shaper d.p2 en (s1.tribAt d.p2).sh)
  { s := s2, dseq := n }

/-- R241, R242. -/
def execShpset (r : Rid) (s : State) : Res := s.issue r 0x28 (fun _ => true) (State.doApply checkShpset applyShpset)

/-! ## POLSET -/

def checkPolset (_ : State) (_ : Fin 4) (d : Desc) : Option Nat :=
  if d.bucketsBad || decide (d.arg 8 4 < d.arg 0 4) || decide (d.arg 4 4 < 64) || decide (d.arg 12 4 < 64)
    || decide (d.arg 18 1 % 4 = 3) || decide (d.arg 19 1 % 4 = 3) then some 0x1B else none

def State.policerAt (s : State) (m : Fin 4) (n : Nat) : Policer := tget default (s.sch m).policers n
def State.setPolicer (s : State) (m : Fin 4) (n : Nat) (p : Policer) : State :=
  s.modSch m fun x => { x with policers := tset default n p x.policers }

def applyPolset (s : State) (m : Fin 4) (d : Desc) : Eff :=
  let ctl := d.arg 16 1
  let old := s.policerAt m d.p2
  let new : Policer :=
    if natBit ctl 0 then {
      en := true, aware := natBit ctl 1
      yellow := d.arg 18 1 % 4, yellowCls := natBits (d.arg 18 1) 4 3
      red := d.arg 19 1 % 4, redCls := natBits (d.arg 19 1) 4 3
      b := d.buckets old.b s.now (natBit ctl 2 || !old.en) }
    else {}
  let (s1, n) := (s.setPolicer m d.p2 new).delta (.policer m d.p2 new)
  { s := s1, dseq := n }

/-- R247, R248. -/
def execPolset (r : Rid) (s : State) : Res := s.issue r 0x29 (fun _ => true) (State.doApply checkPolset applyPolset)

/-! ## QCFG (R21, R22, R249, R250) -/

/-- The state change that tells a standby the settings of a tributary (Table 14-5). -/
def State.tribDelta (s : State) (n : Nat) : State × Option W32 :=
  let t := s.tribAt n
  s.delta (.trib n t.active t.mill t.pool t.route t.quantum t.qlim t.grant)

/-- Pool class, receive route and queue parameters of ACTIVATE and UPDATE. -/
def Desc.pool (d : Desc) : Option (Fin 8) :=
  if natBit (d.arg 0 1) 7 then none else some ⟨d.arg 0 1 % 8, by omega⟩
def Desc.route (d : Desc) : Option (Fin 4) :=
  if natBit (d.arg 1 1) 7 then none else some ⟨d.arg 1 1 % 4, by omega⟩

/-- Table 8-4: a queue parameter out of range. -/
def Desc.queueBad (d : Desc) : Bool :=
  decide (d.arg 4 4 < 64 ∨ 1048576 < d.arg 4 4) || decide (d.arg 8 2 < 1 ∨ 49152 < d.arg 8 2)
    || decide (d.arg 10 2 ≠ 0 ∧ (d.arg 10 2 < 37 ∨ 32767 < d.arg 10 2))

/-- The route names a mill that is fused off (R22). -/
def State.routeBad (s : State) (d : Desc) : Bool :=
  match d.route with
  | some m => !s.hasMill m
  | none => false

/-- Active tributaries of mill `m`. -/
def State.tribCount (s : State) (m : Fin 4) : Nat := s.trib.countP fun e => e.2.active && decide (e.2.mill = m)

def checkQcfgActivate (s : State) (m : Fin 4) (d : Desc) : Option Nat :=
  firstFail [(tribBad d.p2 || d.queueBad, 0x1B), (s.routeBad d, 0x13),
    ((s.tribAt d.p2).active || decide (4096 ≤ s.tribCount m), 0x60)]

/-- A new stream of tributary `n` starts at mill `m`: no END is owed to the one before. -/
def State.startStream (s : State) (m : Fin 4) (n : Nat) : State := s.modLine m fun l => { l with ends := l.ends.filter (· ≠ n) }

/-- Tributary `n` starts in the group of mill `m` (R249). -/
def State.startTrib (s : State) (m : Fin 4) (n : Nat) (pool : Option (Fin 8)) (route : Option (Fin 4)) (quantum qlim grant : Nat) :
    State :=
  (s.startStream m n).setTrib n { active := true, mill := m, pool := pool, route := route, quantum := quantum, qlim := qlim, grant := grant }

def applyQcfgActivate (s : State) (m : Fin 4) (d : Desc) : Eff :=
  let (s1, n) := (s.startTrib m d.p2 d.pool d.route (d.arg 4 4) (d.arg 8 2) (d.arg 10 2)).tribDelta d.p2
  { s := s1, dseq := n }

/-- R21, R22, R249, ACTIVATE. -/
def execQcfgActivate (r : Rid) (s : State) : Res :=
  s.issue r 0x2A (· = 0) (State.doApply checkQcfgActivate applyQcfgActivate)

/-- The frame that has begun leaves the transmit partition without a further cell. -/
def State.cutStream (s : State) (m : Fin 4) (t : Trib) : State :=
  if t.stream.left.isEmpty then s
  else (s.modSch m fun x => { x with txUsed := x.txUsed - t.stream.units }).holdPri t.stream.port t.stream.pri t.stream.units false

/-- The deframer of mill `m` no longer has tributary `n`: its rebuild state goes, a partial frame is discarded (R250, Table 1-1), and
no credit entry is owed. -/
def State.endRx (s : State) (m : Fin 4) (n : Nat) : State :=
  let s1 := if (tget default (s.line m).rebuild n).need = 0 then s else s.fixMill m 1
  (s1.modLine m fun l => { l with rebuild := tdel n l.rebuild }).modSch m fun x => { x with creditQ := x.creditQ.filter (· ≠ n) }

/-- The transmit side of a tributary at mill `m` ends: its queue is flushed, it leaves its list (R250). A frame already begun is
cut and not counted as discarded, by DEACTIVATE and by a FLUSH move alike (log entry 25). -/
def State.endTx (s : State) (m : Fin 4) (n : Nat) (t : Trib) : State := ((s.flushTx m t.queue).cutStream m t).unlist m n

/-- Both sides of a tributary at mill `m` end (R250). -/
def State.endSide (s : State) (m : Fin 4) (n : Nat) (t : Trib) : State := (s.endTx m n t).endRx m n

/-- A move ends the stream of tributary `n` at its old mill (R56): where the last cell sent lacked END, one cell with END is still
owed (DESIGN CHOICE, log entry 112). -/
def State.oweEnd (s : State) (m : Fin 4) (n : Nat) (t : Trib) : State :=
  if t.stream.going then s.modLine m fun l => { l with ends := l.ends.filter (· ≠ n) ++ [n] } else s

/-- The old side of a move ends at once, and the move completes (R40). -/
def State.endMove (s : State) (n : Nat) : State :=
  let o : Trib := tget default s.tribOld n
  if o.active then
    let s1 := ((s.endTx o.mill n o).oweEnd o.mill n o).setOld n {}
    let s2 := s1.modTrib n fun t => { t with move := none }
    s2.completeOpt (s.tribAt n).move 0 0 false none
  else s

/-- SHED_READY of a page that names tributary `n` is cleared when the tributary leaves the group (R98). -/
def State.clearReady (s : State) (m : Fin 4) (n : Nat) : State :=
  let x := s.dkl m
  let names := fun (b : Bool) => (x.page b).any fun e => decide (e.2.toNat % 16384 = n)
  s.modDkl m fun y => { y with readyA := y.readyA && !names false, readyB := y.readyB && !names true }

/-- Tributary `n` is deactivated (R250). -/
def State.stopTrib (s : State) (m : Fin 4) (n : Nat) : State :=
  let s1 := s.endMove n
  ((s1.endSide m n (s1.tribAt n)).setTrib n {}).clearReady m n

def checkQcfgDeactivate (s : State) (m : Fin 4) (d : Desc) : Option Nat :=
  firstFail [(tribBad d.p2, 0x1B), (s.tribAbsent m d.p2, 0x61)]
def applyQcfgDeactivate (s : State) (m : Fin 4) (d : Desc) : Eff :=
  let (s1, n) := (s.stopTrib m d.p2).tribDelta d.p2
  { s := s1, dseq := n }
/-- R250, DEACTIVATE. -/
def execQcfgDeactivate (r : Rid) (s : State) : Res :=
  s.issue r 0x2A (· = 1) (State.doApply checkQcfgDeactivate applyQcfgDeactivate)

/-- New settings of an active tributary; another pool class is a sleep followed by a wake, its deficit 0 (R238). -/
def State.updateTrib (s : State) (m : Fin 4) (n : Nat) (pool : Option (Fin 8)) (route : Option (Fin 4)) (quantum qlim grant : Nat) :
    State :=
  let t := s.tribAt n
  let s1 := if pool = t.pool then s
    else (s.unlist m n).modTrib n fun t => { t with pool := pool, list := none, deficit := 0, slept := none }
  (s1.modTrib n fun t => { t with route := route, quantum := quantum, qlim := qlim, grant := grant }).wake m n

def checkQcfgUpdate (s : State) (m : Fin 4) (d : Desc) : Option Nat :=
  firstFail [(tribBad d.p2 || d.queueBad, 0x1B), (s.routeBad d, 0x13), (s.tribAbsent m d.p2, 0x61)]
def applyQcfgUpdate (s : State) (m : Fin 4) (d : Desc) : Eff :=
  let (s1, n) := (s.updateTrib m d.p2 d.pool d.route (d.arg 4 4) (d.arg 8 2) (d.arg 10 2)).tribDelta d.p2
  { s := s1, dseq := n }
/-- R249, UPDATE. -/
def execQcfgUpdate (r : Rid) (s : State) : Res := s.issue r 0x2A (· = 2) (State.doApply checkQcfgUpdate applyQcfgUpdate)

/-! ## Moves (R37-R40, R219) -/

/-- Frames of tributary `n` staged in mill `c` towards `old` go towards `new` instead (R37). -/
def State.restage (s : State) (old new : Fin 4) (n : Nat) (c : Fin 4) : State :=
  let hit := fun (q : Queued) => decide (q.f.trib = n)
  let mine := ((s.sch c).staging[old]).filter hit
  let s1 := s.modSch c fun x => { x with staging := x.staging.set old (x.staging[old].filter fun q => !hit q) }
  let qs := mine.map fun q => { q with f := { q.f with lineMill := new } }
  if c = new then qs.foldl (fun s q => (s.modSch c fun x => { x with txUsed := x.txUsed - q.units }).joinTrib c q true) s1
  else s1.modSch c fun x => { x with staging := x.staging.set new (x.staging[new] ++ qs) }

/-- A move of tributary `n` from mill `old` to mill `m` takes effect: the new side waits while `move` is set; the old deframer has the
tributary no more (R21). -/
def State.startMove (s : State) (m old : Fin 4) (n : Nat) (ref : CmdRef) : State :=
  let t := s.tribAt n
  let s1 := ((s.startStream m n).setOld n { t with move := none }).setTrib n { t with
    mill := m, queue := [], occ := 0, stream := {}, move := some ref, deficit := 0, round := 0, fresh := false, list := none
    slept := none, sent := 0, count := 0, lastCell := 0, rxCount := 0, held := 0, lastEntry := 0 }
  (List.finRange 4).foldl (fun s c => s.restage old m n c) ((s1.endRx old n).clearReady old n)

def State.moveCheck (s : State) (m : Fin 4) (d : Desc) : Option Nat :=
  let old : Fin 4 := ⟨d.p1 % 4, by omega⟩
  firstFail [(tribBad d.p2, 0x1B), (!s.millLive old, 0x13),
    (decide (old = m) || s.tribAbsent old d.p2 || decide (4096 ≤ s.tribCount m), 0x60)]

/-- Run a move; `flush`: the old side's frames are discarded on the same edge. -/
def State.runMove (flush : Bool) (s : State) (d : Desc) (ref : CmdRef) : State :=
  let m := ref.rid.eng
  let old : Fin 4 := ⟨d.p1 % 4, by omega⟩
  match s.moveCheck m d with
  | some st => s.complete ref st
  | none =>
    let s1 := ((s.endMove d.p2).accept ref).startMove m old d.p2 ref
    let s2 := if flush then
        (let o : Trib := tget default s1.tribOld d.p2
         ((s1.endTx old d.p2 o).oweEnd old d.p2 o).setOld d.p2 { o with queue := [], stream := {}, list := none })
      else s1
    (s2.tribDelta d.p2).1

/-- R37-R40, DRAIN. -/
def execQcfgMoveDrain (r : Rid) (s : State) : Res := s.issue r 0x2A (· = 3) (State.runMove false)
/-- R37-R40, FLUSH. -/
def execQcfgMoveFlush (r : Rid) (s : State) : Res := s.issue r 0x2A (· = 4) (State.runMove true)

/-- R38: the old line mill reports its queue for a moved tributary empty; the new one may send, and the move completes. -/
def execMoveQueueEmpty (trib : Fin 16384) (s : State) : Res :=
  let n := trib.val
  let o : Trib := tget default s.tribOld n
  if o.active ∧ o.queue = [] ∧ o.stream.left = [] then
    finish ((s.endMove n).wake (s.tribAt n).mill n)
  else idle s

/-! ## Gate lists (R252-R254) -/

def gclPort (d : Desc) : Fin 32 := ⟨d.p1 % 32, by omega⟩
def gclTb (d : Desc) : Fin 8 := ⟨d.p1 / 256 % 8, by omega⟩

/-- `n` entries of 8 bytes; none where one breaks the format (R252). -/
def gclEntries : Nat → Bytes → Option (List (Nat × Byte))
  | 0, _ => some []
  | n + 1, bs =>
    let i := leNat (bs.take 4)
    if 8 ≤ i ∧ i ≤ 1000000000 ∧ slice bs 5 3 = [0, 0, 0] then (gclEntries n (bs.drop 8)).map ((i, byteAt bs 4) :: ·) else none

def State.gclDelta (s : State) (p : Fin 32) : State × Option W32 :=
  let x := s.port p
  s.delta (.gate p x.admin x.pend x.oper)

def State.runGcladm (h : HostRead) (s : State) (d : Desc) (ref : CmdRef) : State :=
  let p := gclPort d
  let cycle := d.arg 12 4
  let n := d.arg 16 2
  match firstFail [(decide (portMill p ≠ ref.rid.eng), 0x40), (d.time.isNone || decide (n < 1 ∨ 1024 < n), 0x1B),
      (decide (cycle < 1000 ∨ 1000000000 < cycle), 0x1B), ((s.port p).pend.isSome, 0x20)], d.time with
  | some st, _ => s.complete ref st
  | none, none => s.complete ref 0x1B
  | none, some t =>
    match h with
    | .error => s.complete ref 0x19
    | .timeout => s.complete ref 0x1A
    | .data bs =>
      match gclEntries n bs with
      | none => s.complete ref 0x70
      | some es =>
        let (s1, q) := (s.modPort p fun x => { x with
          admin := some { tb := gclTb d, base := t / nsU, cycle := cycle, entries := es } }).gclDelta p
        s1.complete ref 0 0 false false q
/-- R252. -/
def execGcladm (r : Rid) (d : HostRead) (s : State) : Res := s.issue r 0x20 (fun _ => true) (State.runGcladm d)

def checkGclgo (s : State) (m : Fin 4) (d : Desc) : Option Nat :=
  let p := gclPort d
  if portMill p ≠ m then some 0x40
  else match (s.port p).admin with
    | none => some 0x20
    | some g => if s.tbRun g.tb then none else some 0x1C

/-- The start lies 2 µs or more after reading `t`. -/
def GateList.onTime (g : GateList) (t : Nat) : Bool := decide (2000 + (t / nsU + if t % nsU = 0 then 0 else 1) ≤ g.base)
/-- The smallest N with base + N · cycle at or after reading `t` + 2 µs (R254). -/
def GateList.lateBy (g : GateList) (t : Nat) : Nat :=
  if g.onTime t then 0 else (t + 2000 * nsU - g.startU + max 1 g.cycle * nsU - 1) / (max 1 g.cycle * nsU)

/-- The administrative list `g` becomes the pending list of port `p` (R254). -/
def State.gclPut (s : State) (m : Fin 4) (p : Fin 32) (g : GateList) : State :=
  let s1 := s.modPort p fun x => { x with
    admin := none, pend := some { g with base := g.base + g.lateBy (s.tbAt g.tb).val * g.cycle } }
  if g.onTime (s.tbAt g.tb).val then s1 else s1.setBit (Reg.sch m (0x200 + 4 * (portIdx p).val)) 2
def State.gclPutDelta (s : State) (m : Fin 4) (p : Fin 32) (g : GateList) : State × Option W32 := (s.gclPut m p g).gclDelta p

def applyGclgo (s : State) (m : Fin 4) (d : Desc) : Eff :=
  match (s.port (gclPort d)).admin with
  | none => { s := s }
  | some g =>
    { s := (s.gclPutDelta m (gclPort d) g).1, result := g.lateBy (s.tbAt g.tb).val, late := !g.onTime (s.tbAt g.tb).val
      dseq := (s.gclPutDelta m (gclPort d) g).2 }
/-- R254. -/
def execGclgo (r : Rid) (s : State) : Res := s.issue r 0x21 (fun _ => true) (State.doApply checkGclgo applyGclgo)

end Sys2Proof.Machine
end

