-- ==== Sys2Proof/Machine/Defects.lean ====
section
/-! DEFINITION. Line defects and lanes as they change (chapters 2, 3 and 13): declaring and clearing, lost sheets, loss of
alignment, and what a change of a lane set brings. -/

namespace Sys2Proof.Machine

/-- LNF_DEFECT [11:0] (Table 2-17). -/
def Defects.word (d : Defects) : BitVec 12 :=
  [d.loa, d.skew, d.auth, d.keyless, d.wm, d.dlgf, d.verf, d.feRdi, d.feRaf, d.feRwm, d.feRkl, d.feLane].foldr
    (fun b n => (n <<< 1) ||| BitVec.ofNat 12 (b2n b)) 0
def State.defWord (s : State) (m : Fin 4) : BitVec 12 := (s.line m).defects.word

/-- Bits in a byte, bit 0 first. -/
def bitsByte (bs : List Bool) : Byte := byteOf (bs.foldr (fun b n => b2n b + 2 * n) 0)

/-- The message outstanding is sent again whole (R86). -/
def Dlg.again (d : Dlg) : Dlg := { d with out := d.out.map fun o => { o with frag := 0, sends := 1, wait := 0 } }

/-! ## Declaring and clearing (R84) -/

/-- LNF_DEFECT (Table 2-17). -/
def State.lnfDefect (s : State) (m : Fin 4) : Nat :=
  (s.defWord m).toNat + (bitsByte ((s.line m).lanes.toList.map (·.lol))).toNat * 2 ^ 16 + (s.line m).feLaneMap.toNat * 2 ^ 24

/-- A bit of LNF_DEFECT has changed: sticky bit, event, and a record for the bits [11:0]. -/
def State.defectEdge (s : State) (m : Fin 4) (bit : Nat) (on : Bool) : State :=
  let s1 := (s.setBit (Reg.lnf m 0x14) bit).countMill m 0 (if on then 10 else 11) bit
  if bit < 12 then s1.happen 8 0 m.val m.val (leBytes 4 (s1.lnfDefect m)) else s1

/-- Change one group defect. -/
def State.setDefect (s : State) (m : Fin 4) (bit : Nat) (get : Defects → Bool) (put : Defects → Bool → Defects) (on : Bool) : State :=
  if get (s.line m).defects = on then s
  else (s.modLine m fun l => { l with defects := put l.defects on }).defectEdge m bit on

def State.setLoa (s : State) (m : Fin 4) (on : Bool) : State := s.setDefect m 0 (·.loa) (fun d b => { d with loa := b }) on
def State.setSkew (s : State) (m : Fin 4) (on : Bool) : State := s.setDefect m 1 (·.skew) (fun d b => { d with skew := b }) on
def State.setAuth (s : State) (m : Fin 4) (on : Bool) : State := s.setDefect m 2 (·.auth) (fun d b => { d with auth := b }) on
def State.setKeyless (s : State) (m : Fin 4) (on : Bool) : State := s.setDefect m 3 (·.keyless) (fun d b => { d with keyless := b }) on
def State.setWm (s : State) (m : Fin 4) (on : Bool) : State := s.setDefect m 4 (·.wm) (fun d b => { d with wm := b }) on
def State.setDlgf (s : State) (m : Fin 4) (on : Bool) : State := s.setDefect m 5 (·.dlgf) (fun d b => { d with dlgf := b }) on
def State.setVerf (s : State) (m : Fin 4) (on : Bool) : State := s.setDefect m 6 (·.verf) (fun d b => { d with verf := b }) on
/-- FE_RDI, FE_RAF, FE_RWM, FE_RKL, FE_LANE: 0 to 4. -/
def Defects.fe (d : Defects) (i : Fin 5) : Bool :=
  match i with
  | 0 => d.feRdi | 1 => d.feRaf | 2 => d.feRwm | 3 => d.feRkl | 4 => d.feLane
def Defects.setFe (i : Fin 5) (d : Defects) (b : Bool) : Defects :=
  match i with
  | 0 => { d with feRdi := b } | 1 => { d with feRaf := b } | 2 => { d with feRwm := b } | 3 => { d with feRkl := b }
  | 4 => { d with feLane := b }
def State.setFeDef (s : State) (m : Fin 4) (i : Fin 5) (on : Bool) : State := s.setDefect m (7 + i.val) (·.fe i) (Defects.setFe i) on

/-! ## Lost sheets (R58, R79) -/

/-- The frame whose delimiter a rebuild has read, with the units charged then (R260), for the port number that stands for a frame
from the line (Table 6-1). Without a receive route its mill is the line mill itself: under that number the drop is counted (R39;
DESIGN CHOICE, log entry 113). -/
def Rebuild.frame (x : Rebuild) (m : Fin 4) (n : Nat) (t : Trib) : Frame :=
  { bytes := x.acc, port := 0x3F, rx := true, lineMill := m, clientMill := t.route.getD m, trib := n, ref := x.stamp, units := x.units }

/-- The partial frame of a rebuild is discarded; its units, once its delimiter was read, go back (R260). -/
def State.dropPartial (s : State) (m : Fin 4) (n : Nat) (x : Rebuild) : State :=
  if x.need ≠ 0 then s.dropRx m (x.frame m n (s.tribRx m n)) else s

/-- Every rebuild of the group goes to SEEK; each one in stream counts one loss (Table 2-4). -/
def State.seekAll (s : State) (m : Fin 4) : State :=
  let rs := (s.line m).rebuild.filter fun e => e.2.inStream
  let s1 := rs.foldl (fun s e => (s.dropPartial m e.1 e.2).countMill m 0 3 e.1) s
  s1.modLine m fun l => { l with rebuild := [] }

/-- A sheet of the group is lost: rebuilds seek, and a partial message goes (R58, R86). -/
def State.sheetLost (s : State) (m : Fin 4) : State :=
  (s.seekAll m).modLine m fun l => { l with dlg := { l.dlg with rxFrags := 0, rxBytes := [] } }

/-- `n` lost sheets are counted (R79). -/
def State.countLost (s : State) (m : Fin 4) (n : Nat) : State :=
  if n = 0 then s else (s.countMill m 0 4 0 n).fixMill m 5 n

/-! ## Loss of alignment (Table 2-12) -/

/-- LOA is declared: echo, credit and dialogue pause, the line delay is no longer valid (R79, R86, R279). -/
def State.loseAlign (s : State) (m : Fin 4) : State :=
  if (s.line m).defects.loa then s
  else
    let s1 := (s.modLine m fun l => { l with
      aligned := false, outage := 0
      dlg := { l.dlg.again with lastTaken := none, rxFrags := 0, rxBytes := [], ackIn := none } }).lineDelayLost m
    s1.setLoa m true

/-- Lane `j` goes to HUNT with LOL; a lane of the effective set takes the group with it. -/
def State.laneLost (s : State) (m : Fin 4) (j : Fin 8) : State :=
  let was := (s.line m).lanes[j].lol
  let s1 := s.modLine m fun l => { l with lanes := l.lanes.set j { l.lanes[j] with st := .hunt, misses := 0, missed := false, lol := true } }
  let s2 := if was then s1 else s1.defectEdge m (16 + j.val) true
  if (s.rxSet m).getLsbD j.val then s2.loseAlign m else s2

/-- LOCW is declared on lane `j` (R72): LOL with it; a shed lane stops its hold-off, or is no longer ready (Table 3-6). -/
def State.loseLock (s : State) (m : Fin 4) (j : Fin 8) : State :=
  let x := (s.line m).lanes[j]
  if x.locw then s
  else
    let s1 := (s.modLine m fun l => { l with lanes := l.lanes.set j { l.lanes[j] with locw := true, holdoff := false, ready := false } }).laneLost m j
    if x.ready then s1.ownMsg m (.laneUnready j) else s1

/-! ## Lane sets that change (R77, R374) -/

/-- The lanes have all been judged at one marker position. -/
def sameReam : List RxLane → Bool
  | [] => false
  | x :: xs => xs.all fun y => decide (y.lsc = x.lsc)

/-- Latest minus earliest arrival, in 1/64 ns. -/
def skewOf (xs : List RxLane) : Nat := (xs.map (·.arrival)).foldl max 0 - ((xs.map (·.arrival)).min?.getD 0)
def skewMax : Nat := 1024 * 64

/-- The lanes meet R77 among themselves. -/
def lanesAgree (xs : List RxLane) : Bool :=
  xs.all (fun x => decide (x.st = .sync) && decide (x.count = xs.length)) && sameReam xs
    && (List.range xs.length).all (fun k => decide (xs.countP (fun x => decide (x.lane = k)) = 1)) && decide (skewOf xs ≤ skewMax)

def State.rxLanesOf (s : State) (m : Fin 4) (set : Byte) : List RxLane := (lanesIn set).map fun j => (s.line m).lanes[j]

/-- The receiver takes state `st`; a run of windows starts again. -/
def Lane.go (l : Lane) (st : RxState) : Lane := { l with st := st, low := 0, good := 0 }

/-- The first two rows of Table 13-3 and the rows that need no event. -/
def State.rxLook (s : State) (n : Fin 68) : State :=
  let l := s.lane n
  if !s.laneLive n || !s.bit (Reg.ser n.val 0) 1 || decide (s.laneMode n.val = 0) || s.modeErr n then s.modLane n (·.go .disabled)
  else if l.st = .disabled then s.modLane n (·.go (if l.sigDet then .cdr else .waitSig))
  else s

/-- The line lanes of a group follow its LANE_USE (R374): one whose mode is not the group's any more is disabled, and reports loss of
signal (R72); its eye scan is aborted (R394). -/
def State.lineLook (s : State) (m : Fin 4) : State :=
  (List.finRange 8).foldl (fun (s : State) j =>
    let n := lineLane m j
    let s1 := s.rxLook n
    let s2 := if (s1.lane n).eyeBusy && decide ((s1.lane n).st ≠ .track) then
        s1.modLane n fun l => { l with eyeBusy := false, eyeDone := true, eyeAbort := true }
      else s1
    if s2.laneDelivers n then s2 else s2.loseLock m j) s

/-- The effective set of an aligned group has changed: where its lanes no longer meet R77, the group is not aligned. The markers of one
ream need not all have come. -/
def State.alignJudge (s : State) (m : Fin 4) : State :=
  let xs := s.rxLanesOf m (s.rxSet m)
  if xs.all (fun x => decide (x.st = .sync) && decide (x.count = xs.length))
      && (List.range xs.length).all (fun k => decide (xs.countP (fun x => decide (x.lane = k)) = 1)) then s
  else s.loseAlign m

end Sys2Proof.Machine
end

