-- ==== Sys2Proof/Machine/Deckle.lean ====
section
/-! DEFINITION. Deckle pages (chapter 3): writing, validation, arming, flips, sheds and restores. -/

namespace Sys2Proof.Machine

/-! ## Lane sets (R106) -/

/-- The state of shed receive lane `j` when its RX_MAP bit goes to `shed` (Table 3-6). -/
def RxLane.shedTo (x : RxLane) (shed : Bool) : RxLane := { x with holdoff := shed && !x.locw, ready := false }

/-- Both maps take new values; LANE_USE follows them (R106), receive lanes change their state (Table 3-6), and lanes follow LANE_USE
(R374). -/
def State.setMaps (s : State) (m : Fin 4) (tx rx : Byte) : State :=
  let k := s.dkl m
  let was := k.txMap &&& k.rxMap
  let now := tx &&& rx
  let fix := fun (u : Byte) => (u &&& ~~~(now &&& ~~~was)) ||| (was &&& ~~~now)
  let s1 := s.modDkl m fun x => { x with txMap := tx, rxMap := rx }
  let s2 := s1.modLine m fun l => { l with
    laneUse := fix l.laneUse
    lanes := Vector.ofFn fun j : Fin 8 =>
      if rx.getLsbD j.val = k.rxMap.getLsbD j.val then l.lanes[j] else l.lanes[j].shedTo (rx.getLsbD j.val) }
  (s2.setFld (Reg.lnf m 0) 16 8 (fix (BitVec.ofNat 8 (s.fld (Reg.lnf m 0) 16 8))).toNat).lineLook m

/-! ## Pages -/

def Deckle.lanesOf (x : Deckle) (b : Bool) : Nat := if b then x.lanesB else x.lanesA
def Deckle.readyOf (x : Deckle) (b : Bool) : Bool := if b then x.readyB else x.readyA
def Deckle.setLanes (x : Deckle) (b : Bool) (n : Nat) : Deckle := if b then { x with lanesB := n } else { x with lanesA := n }
def Deckle.setReady (x : Deckle) (b v : Bool) : Deckle := if b then { x with readyB := v } else { x with readyA := v }
/-- Write entries from index `e` on. -/
def Deckle.write (x : Deckle) (b : Bool) (e : Nat) : List W16 → Deckle
  | [] => x
  | v :: vs =>
    (if b then { x with pageB := tset 0x3FFF e v x.pageB } else { x with pageA := tset 0x3FFF e v x.pageA }).write b (e + 1) vs

/-- Cause for which validation fails at an entry (Table 3-14); `act` tells which tributaries are active in the group. -/
def entryCause (act : Nat → Bool) (v : Nat) : Nat :=
  let kind := v / 16384
  let t := v % 16384
  if 2 ≤ kind then 1 else if t = 0 then 2 else if 0x3FFE ≤ t then (if kind = 0 then 0 else 3) else if act t then 0 else 4

/-- The first failing entry of a page: index and cause. An unlisted entry is idle and passes. -/
def pageFault (act : Nat → Bool) : Tbl W16 → Option (Nat × Nat)
  | [] => none
  | (e, v) :: es => let c := entryCause act v.toNat; if c = 0 then pageFault act es else some (e, c)

/-- What the standby hears of a page's attributes, and of the arm. -/
def State.attrDelta (s : State) (m : Fin 4) (b : Bool) : State × Option W32 :=
  s.delta (.attrs m b ((s.dkl m).lanesOf b) ((s.dkl m).readyOf b))
def State.pageArmDelta (s : State) (m : Fin 4) (ream : Option W32 := none) : State × Option W32 :=
  s.delta (.pageArm m (s.dkl m).activeB ((s.dkl m).arm.map fun a => (a.kind, a.rcF))) (ream.map (m, ·))

/-! ## DKWRITE (R97, R98) -/

/-- A flip, shed or restore is armed, a transfer runs, or a validation runs (R97). -/
def State.dklBusy (s : State) (m : Fin 4) : Bool :=
  let x := s.dkl m
  x.arm.isSome || x.transfer.isSome || x.validating.isSome

/-- The event that counts an armed change, and its qualifier (Table 17-1). -/
def ArmKind.event : ArmKind → Nat × Nat
  | .flip => (1, 0) | .shed j => (2, j.val) | .restore j => (3, j.val)

/-- Lanes that the new page must be laid out for. -/
def State.armLanes (s : State) (m : Fin 4) : ArmKind → Nat
  | .flip => s.txLanes m | .shed _ => s.txLanes m - 1 | .restore _ => s.txLanes m + 1

/-- The checks of a flip, shed or restore other than validation. -/
def State.armCheck (s : State) (m : Fin 4) (k : ArmKind) : Option Nat :=
  let b := !(s.dkl m).activeB
  let low := decide ((s.line m).dlg.ver < 3)
  let lanes := (decide ((s.dkl m).lanesOf b ≠ s.armLanes m k), 0x22)
  match k with
  | .flip => firstFail [lanes]
  | .shed j => firstFail [(low, 0x23), (decide (s.txLanes m < 2) || !(s.txSet m).getLsbD j.val, 0x20), lanes]
  | .restore j => firstFail [(low, 0x23), (!(s.dkl m).txMap.getLsbD j.val, 0x20), lanes]

/-- An automatic restore starts its validation where its conditions hold (R110); of several lanes the lowest-numbered one goes first
(DESIGN CHOICE, log entry 114). -/
def State.autoRestore (s : State) (m : Fin 4) : State :=
  let x := s.dkl m
  match (List.finRange 8).find? fun j => x.farReady.getLsbD j.val && x.txMap.getLsbD j.val with
  | some j =>
    if s.bit (Reg.dkl m 0) 1 && !s.dklBusy m && !s.following && (s.armCheck m (.restore j)).isNone then
      s.modDkl m fun y => { y with validating := some (.restore none j none) }
    else s
  | none => s

def State.runDkwrite (s : State) (d : Desc) (ref : CmdRef) : State :=
  let m := ref.rid.eng
  let setAttr := natBit d.p1 13
  let lanes := d.p1 % 16
  let first := d.arg 0 4
  let count := d.arg 4 4
  match firstFail [(decide (127000 < first + count) || (decide (count = 0) && !setAttr) || decide (lanes < 1 ∨ 8 < lanes), 0x1B),
      (s.dklBusy m, 0x20)] with
  | some st => s.complete ref st
  | none =>
    let b := !(s.dkl m).activeB
    let t : Transfer := {
      ref := ref, start := first, count := count, addr := d.arg 8 8
      lanes := if setAttr then some lanes else none, shedReady := if setAttr then some (natBit d.p1 12) else none }
    (s.accept ref).modDkl m fun x => { (if count = 0 then x else x.setReady b false) with transfer := some t }

/-- R97: a DKWRITE that comes while the pages are being cleared waits for the clearing to end. -/
def execDkwrite (r : Rid) (s : State) : Res :=
  match s.headFor r 0x10 (fun _ => true) with
  | none => idle s
  | some d =>
    if (s.gate r d).isNone && (s.dkl r.eng).clearing then finish (s.modRing r fun g => { g with waiting := true })
    else s.issue r 0x10 (fun _ => true) State.runDkwrite

/-- 16-bit entries from host bytes. -/
def entriesOf : Nat → Bytes → List W16
  | 0, _ => []
  | n + 1, bs => BitVec.ofNat 16 (leNat (bs.take 2)) :: entriesOf n (bs.drop 2)

/-- The entries have arrived: they and the attributes are written; SHED_READY waits for its validation. -/
def State.endTransfer (s : State) (m : Fin 4) (t : Transfer) (es : List W16) : State :=
  let b := !(s.dkl m).activeB
  let s1 := s.modDkl m fun x =>
    let y := { x with transfer := none }.write b t.start es
    match t.lanes with
    | some n => y.setLanes b n
    | none => y
  let (s2, n2) := if es.isEmpty then (s1, none) else s1.delta (.entries m b t.start es)
  match t.shedReady with
  | some true => (s2.attrDelta m b).1.modDkl m fun x => { x with validating := some (.shedReady t.ref) }
  | some false =>
    let (s3, n3) := (s2.modDkl m fun x => x.setReady b false).attrDelta m b
    s3.complete t.ref 0 0 false false n3
  | none => s2.complete t.ref 0 0 false false n2

/-- R97: the host buffer has been read. A failed read leaves the entries unchanged. -/
def execDkwriteTransferDone (m : Fin 4) (d : HostRead) (s : State) : Res :=
  match (s.dkl m).transfer with
  | none => idle s
  | some t =>
    if t.count = 0 then finish ((s.endTransfer m t []).autoRestore m)
    else match d with
      | .error => finish (((s.modDkl m fun x => { x with transfer := none }).complete t.ref 0x19).autoRestore m)
      | .timeout => finish (((s.modDkl m fun x => { x with transfer := none }).complete t.ref 0x1A).autoRestore m)
      | .data bs => if bs.length = 2 * t.count then finish ((s.endTransfer m t (entriesOf t.count bs)).autoRestore m) else idle s

/-! ## Arming (R99-R101, R105, R110) -/

/-- A failed LANES check is left in DKL_VAL (cause 5); INDEX is then 0 (R98 gives it none; DESIGN CHOICE, log entry 114). -/
def State.noteLanes (s : State) (m : Fin 4) (st : Nat) : State :=
  if st = 0x22 then s.modDkl m fun x => { x with valIndex := 0, valCause := 5 } else s

/-- The pages swap; a shed or restore changes the lane set (R105, R110). -/
def State.flipEffect (s : State) (m : Fin 4) (k : ArmKind) : State :=
  let s1 := (s.modDkl m fun x => { x with activeB := !x.activeB, flipCd := 0, shedFlag := false }).countMill m 2 k.event.1 k.event.2
  let x := s.dkl m
  match k with
  | .flip => s1
  | .shed j => s1.setMaps m (x.txMap ||| (1#8 <<< j.val)) x.rxMap
  | .restore j =>
    (s1.modDkl m fun x => { x with farReady := x.farReady &&& ~~~(1#8 <<< j.val) }).setMaps m (x.txMap &&& ~~~(1#8 <<< j.val)) x.rxMap

/-- The checks have passed: RC_f is fixed and the change is armed, or takes effect at once while TX_EN is 0
(R99, R101); an automatic shed too, though R101 names only DKFLIP and DKSHED (DESIGN CHOICE, log entry 114). -/
def State.armPage (s : State) (m : Fin 4) (k : ArmKind) (ref : Option CmdRef) (target : Option W32) : State :=
  if !s.txEn m then
    let (s1, n) := (s.flipEffect m k).pageArmDelta m
    s1.completeOpt ref 0 0 false n
  else
    let now := (s.line m).rc
    let (rcF, late) := match target with
      | none => (now + 3, false)
      | some t => if (t - now).toNat < 3 ∨ 2 ^ 31 ≤ (t - now).toNat then (now + 3, true) else (t, false)
    let s1 := s.modDkl m fun x => { x with arm := some { kind := k, rcF := rcF, ref := ref, late := late }, armRc := rcF }
    ((if late then s1.setBit (Reg.dkl m 4) 5 else s1).pageArmDelta m).1

/-- Start the validation that precedes a flip, shed or restore. -/
def State.runArm (k : ArmKind) (v : ValFor) (s : State) (ref : CmdRef) : State :=
  let m := ref.rid.eng
  if s.dklBusy m then s.complete ref 0x20
  else match s.armCheck m k with
    | some st => (s.noteLanes m st).complete ref st
    | none => (s.accept ref).modDkl m fun x => { x with validating := some v }

def dkTarget (d : Desc) : Option W32 := some (BitVec.ofNat 32 (d.arg 0 4))

/-- R99, DKFLIP EARLIEST. -/
def execDkflipEarliest (r : Rid) (s : State) : Res :=
  s.issue r 0x11 (· = 0) fun s _ ref => s.runArm .flip (.flip ref none) ref
/-- R99, DKFLIP AT. -/
def execDkflipAt (r : Rid) (s : State) : Res :=
  s.issue r 0x11 (· = 1) fun s d ref => s.runArm .flip (.flip ref (dkTarget d)) ref

def State.runFlipCancel (s : State) (_ : Desc) (ref : CmdRef) : State :=
  let m := ref.rid.eng
  match (s.dkl m).arm with
  | none => s.complete ref 0
  | some a =>
    if (s.dkl m).flipCd ≠ 0 then s.complete ref 2
    else
      let (s1, n) := (s.modDkl m fun x => { x with arm := none }).pageArmDelta m
      ((s1.completeOpt a.ref 1 0 false n).complete ref 0 0 false false n).autoRestore m
/-- R100, DKFLIP CANCEL. -/
def execDkflipCancel (r : Rid) (s : State) : Res := s.issue r 0x11 (· = 2) State.runFlipCancel

def shedLane (d : Desc) : Fin 8 := ⟨d.p1 % 8, by omega⟩
def shedTarget (d : Desc) : Option W32 := if natBit d.p1 11 then dkTarget d else none

/-- R105, DKSHED SHED. -/
def execDkshedShed (r : Rid) (s : State) : Res :=
  s.issue r 0x12 (· = 0) fun s d ref => s.runArm (.shed (shedLane d)) (.shed ref (shedLane d) (shedTarget d)) ref
/-- R110, DKSHED RESTORE. -/
def execDkshedRestore (r : Rid) (s : State) : Res :=
  s.issue r 0x12 (· = 1) fun s d ref => s.runArm (.restore (shedLane d)) (.restore (some ref) (shedLane d) (shedTarget d)) ref

/-- A validation ended for `k`: arm, or complete with the status of what failed; BUSY where an automatic shed has been armed meanwhile
(R100; DESIGN CHOICE, log entry 114). -/
def State.endArm (s : State) (m : Fin 4) (fault : Bool) (k : ArmKind) (ref : Option CmdRef) (target : Option W32) : State :=
  if (s.dkl m).arm.isSome then s.completeOpt ref 0x20 0 false none
  else match s.armCheck m k with
  | some st => (s.noteLanes m st).completeOpt ref st 0 false none
  | none => if fault then s.completeOpt ref 0x21 0 false none else s.armPage m k ref target

/-- R98: the validation of the standby page ends; activity is judged on this edge. A waiting automatic restore is looked for again,
except after its own (R110; DESIGN CHOICE, log entry 114). -/
def execDklValidationDone (m : Fin 4) (s : State) : Res :=
  match (s.dkl m).validating with
  | none => idle s
  | some v =>
    let b := !(s.dkl m).activeB
    let f := pageFault (fun n => !s.tribAbsent m n) ((s.dkl m).page b)
    let s1 := s.modDkl m fun x => { x with
      validating := none, valIndex := (f.map (·.1)).getD 0, valCause := (f.map (·.2)).getD 0 }
    finish (match v with
      | .flip ref t => (s1.endArm m f.isSome .flip (some ref) t).autoRestore m
      | .shed ref j t => (s1.endArm m f.isSome (.shed j) (some ref) t).autoRestore m
      | .restore (some ref) j t => (s1.endArm m f.isSome (.restore j) (some ref) t).autoRestore m
      | .restore none j t => s1.endArm m f.isSome (.restore j) none t
      | .shedReady ref =>
        if f.isSome then (s1.complete ref 0x21).autoRestore m
        else
          let (s2, n) := (s1.modDkl m fun x => x.setReady b true).attrDelta m b
          (s2.complete ref 0 0 false false n).autoRestore m)

/-- R96: the pages are clear. -/
def execDklClearDone (m : Fin 4) (s : State) : Res :=
  if s.millLive m && (s.dkl m).clearing then finish ((s.modDkl m fun x => { x with clearing := false }).autoRestore m) else idle s

/-! ## What the framer and the defects do -/

/-- A LANE_USE written by the host takes effect: both maps are cleared (R106); the group stays aligned only on a set that meets R77. -/
def State.laneUseTakes (s : State) (m : Fin 4) : State :=
  let v := s.fld (Reg.lnf m 0) 16 8
  let s1 := ((s.setMaps m 0 0).modLine m fun l => { l with laneUse := byteOf v, laneUseDue := false }).setFld (Reg.lnf m 0) 16 8 v
  (s1.lineLook m).alignJudge m

/-- What a ream boundary brings whatever is armed: a LANE_USE written by the host (R106), the version agreed (Table 2-14). -/
def State.reamSettings (s : State) (m : Fin 4) : State :=
  let s1 := if (s.line m).laneUseDue then s.laneUseTakes m else s
  s1.modLine m fun l => { l with dlg := { l.dlg with ver := l.dlg.verNext.getD l.dlg.ver, verNext := none } }

/-- The ream with count `rc` begins at the framer (Table 3-3). -/
def State.dklReam (s : State) (m : Fin 4) (rc : W32) : State :=
  match (s.dkl m).arm with
  | none => s
  | some a =>
    let shed := match a.kind with
      | .shed _ => true
      | _ => false
    if rc = a.rcF - 2 then s.modDkl m fun x => { x with flipCd := 2, shedFlag := shed }
    else if rc = a.rcF - 1 then s.modDkl m fun x => { x with flipCd := 1, shedFlag := shed }
    else if rc = a.rcF then
      let (s1, n) := ((s.modDkl m fun x => { x with arm := none }).flipEffect m a.kind).pageArmDelta m (some rc)
      (s1.completeOpt a.ref 0 rc.toNat a.late n).autoRestore m
    else s

/-- TX_EN falls: an armed change is cancelled (Table 3-3). -/
def State.dklStop (s : State) (m : Fin 4) : State :=
  match (s.dkl m).arm with
  | none => s
  | some a =>
    let (s1, n) := (s.modDkl m fun x => { x with arm := none, flipCd := 0, shedFlag := false }).pageArmDelta m
    (s1.completeOpt a.ref 0x24 0 false n).autoRestore m

/-- FE_LANE is declared (R105): an automatic shed is armed, or SHED_BLOCKED is set; a standby, whose page arm follows the holder's,
sets SHED_BLOCKED (DESIGN CHOICE, log entry 114). -/
def State.autoShed (s : State) (m : Fin 4) : State :=
  let x := s.dkl m
  let bi := (s.line m).feLaneMap
  let b := !x.activeB
  let lane := match lanesIn bi with
    | [i] => (lanesIn (s.txSet m))[i.val]?
    | _ => none
  match lane with
  | some j =>
    if s.bit (Reg.dkl m 0) 0 && x.readyOf b && x.arm.isNone && !s.following && (s.armCheck m (.shed j)).isNone then
      s.armPage m (.shed j) none none
    else (s.setBit (Reg.dkl m 4) 6).countMill m 2 4 0
  | none => (s.setBit (Reg.dkl m 4) 6).countMill m 2 4 0

/-- R111, R113: the hold-off of a shed receive lane expires: READY, and LANE_READY is sent. -/
def execShedHoldoffExpire (m : Fin 4) (lane : Fin 8) (s : State) : Res :=
  let x := (s.line m).lanes[lane]
  if (s.dkl m).rxMap.getLsbD lane.val && x.holdoff && !x.locw then
    finish ((s.modLine m fun l => { l with lanes := l.lanes.set lane { l.lanes[lane] with holdoff := false, ready := true } }).ownMsg m
      (.laneReady lane))
  else idle s

end Sys2Proof.Machine
end

