-- ==== Sys2Proof/Machine/Mate.lean ====
section
/-! DEFINITION. Mate pairs (chapter 14), shared operations: health, fail-over decisions, roles, sessions, the copied state. -/

namespace Sys2Proof.Machine

/-! ## Health (R411, Table 14-13) -/

/-- Every slot that a held key came from is still LIVE (or STAGED, whose key in force is the same). -/
def State.keysOk (s : State) : Bool :=
  (allLkns.all fun (m, k) => !(s.lkn m k).loaded || (s.slot (s.lkn m k).slot).usable)
    && s.sa.all fun e => decide (e.2.st = .empty) || (s.slot e.2.parent).usable

def State.memOk (s : State) : Bool := decide ((s.rgn 0).st = .ready) && s.mem.ch.all (·.up)

/-- A domain is held because its clock is lost (R440). -/
def State.clockHeld (s : State) : Bool := decide (s.rst.clkHeld ≠ 0)

/-- Bits 1 to 7 of the health word, which READY needs set; bits 8 to 10, which it needs clear; bit 11. -/
def State.healthGood (s : State) : List Bool :=
  let x := s.mte
  [x.synced, x.fresh, x.selftestOk, x.oneSided.isEmpty, s.keysOk, s.memOk, s.bit (Reg.mte 0) 1]
def State.healthBad (s : State) : List Bool := [s.mte.diverged, s.tmp.scDone, s.clockHeld]

def State.mateReady (s : State) : Bool := s.healthGood.all id && !s.healthBad.any id

/-- MTE_HEALTH. -/
def State.healthWord (s : State) : Nat :=
  ((s.mateReady :: s.healthGood) ++ s.healthBad ++ [s.mte.aGood != s.mte.bGood]).foldr (fun b n => 2 * n + b2n b) 0

def State.peerReady (s : State) : Bool := s.mte.peerHealth.getLsbD 0

/-! ## Decisions (R412, Table 14-8) -/

/-- The active releases the line (Table 14-4). -/
def State.mateRelease (s : State) (cause : Nat) : State := (s.mateGo .released cause).feltSend 0x41 [byteOf cause]

/-- A finding of rows 1 to 4 with its cause: release to a READY standby, otherwise stay active, degraded. -/
def State.mateFinding (s : State) (cause : Nat) : State :=
  if s.mte.st = .active ∧ s.bit (Reg.mte 0) 2 then
    if s.peerReady then s.mateRelease cause else s.setBit (Reg.mte 4) 12
  else s

/-- A hard fault of row 1 stands; a mill or a memory channel is held for CLOCK_LOSS among them. -/
def State.hardFault (s : State) : Bool :=
  decide (s.rst.clkHeld &&& 0x1FE0 ≠ 0) || s.tmp.scDone || s.mem.ch.any (·.fail) || decide (s.rng.st = .failed) || !s.kst.ready || s.mte.testFailed

/-- The standby reports a health word: a hard fault that stands is decided on again. -/
def State.mateRetry (s : State) : State :=
  if s.hardFault then s.mateFinding 1 else s

/-- The level condition of STANDBY: MATE_ACT_IN low with READY 1 is a takeover (Table 14-4). -/
def State.mateLook (s : State) : State :=
  if s.mte.st = .standby ∧ !s.pads.mateActIn ∧ s.mateReady then s.mateGo .taking 5 else s

/-- The end of a command of the mate logic. -/
def mateEnd (s : State) : Res := finish s.mateLook

/-! ## Sessions (R402, Table 14-4) -/

/-- Send HELLO again with the nonce of the session. -/
def State.helloAgain (s : State) : State :=
  match s.mte.nonce with
  | some n => s.mateHello n
  | none => s.mateTryPair

/-- Pairing failed with an error of MTE_STAT.PAIR_ERR. -/
def State.pairFail (s : State) (err : Nat) : State :=
  let s1 := (s.modMte fun x => { x with pairErr := err }).setBit (Reg.mte 4) 13
  if s.mte.st = .pairing then (s1.modMte fun x => { x with key := none, confirmed := false }).mateGo .unpaired 0 else s1

/-! ## The copied state (R406, Table 14-5) -/

/-- Discard what a standby has copied. -/
def State.dropTribs (s : State) : State :=
  (s.trib.map (·.1)).foldl (fun s n => if (s.tribAt n).active then s.stopTrib (s.tribAt n).mill n else s) s
def State.clearSettings (s : State) : State :=
  { s with
    mills := s.mills.map fun x => { x with
      lci := { x.lci with lkn := Vector.replicate 4 {}, arm := none }
      dkl := { x.dkl with pageA := [], pageB := [], lanesA := 8, lanesB := 8, readyA := false, readyB := false, arm := none, flipCd := 0, shedFlag := false }
      sch := { x.sch with policers := [] }
      ports := x.ports.map fun p => { p with oper := none, pend := none, admin := none } }
    tim := { s.tim with trig := Vector.replicate 8 {} } }
def State.discardCopy (s : State) : State :=
  let s1 := (s.clearCatalogue.dropTribs).clearSettings
  s1.modMte fun x => { x with
    snaps := 0, synced := false, held := [], passSinceSync := false
    follow := Vector.replicate 4 {}, rxRecs := Vector.replicate 4 [], peerRecs := Vector.replicate 4 [] }

/-- The mill's line and deckle state as items of the bulk copy. -/
def State.snapMill (s : State) (m : Fin 4) : List Delta :=
  let x := s.dkl m
  let page := fun (b : Bool) => (x.page b).map fun e => Delta.entries m b e.1 [e.2]
  ((List.finRange 4).map fun k => Delta.lkn m k (s.lkn m k))
    ++ [Delta.keyArm m ((s.lci m).arm.map fun a => (a.lkn, if a.time.isNone then some (s.lci m).armRc else none, a.time))]
    ++ page false ++ page true
    ++ [.attrs m false x.lanesA x.readyA, .attrs m true x.lanesB x.readyB,
      .pageArm m x.activeB (x.arm.map fun a => (a.kind, a.rcF))]
    ++ (s.sch m).policers.map fun e => Delta.policer m e.1 e.2

/-- Everything the bulk copy holds, one item a block. -/
def State.snapItems (s : State) : List Delta :=
  (s.sc.map fun e => Delta.sc e.1 e.2)
    ++ (s.sa.map fun e => Delta.sa e.1 e.2 ((s.ctxOpt (s.saMill e.1) e.1).getD []))
    ++ ((List.finRange 4).filter fun m => s.hasMill m).flatMap s.snapMill
    ++ (s.trib.flatMap fun (n, t) => [.trib n t.active t.mill t.pool t.route t.quantum t.qlim t.grant, .shaper n t.shEn t.sh])
    ++ ((List.finRange 32).map fun p => Delta.gate p (s.port p).admin (s.port p).pend (s.port p).oper)
    ++ ((List.finRange 8).map fun k => Delta.trig k (s.trig k))
    ++ ((List.finRange 8).map fun b => Delta.servo b (s.tbAt b))
    ++ [.tko s.mte.tko]

/-- Send SNAP frames, then SNAP_END. -/
def State.sendSnaps (s : State) : State :=
  let ds := s.snapItems
  let n := beBytes 4 s.mte.dseq.toNat
  (ds.foldl (fun s d => s.feltSend 0x11 (n ++ Config.encodeSnap [d])) s).feltSend 0x12 (n ++ beBytes 4 ds.length)

/-- The device becomes ACTIVE: it tells its mate everything it holds, then its takeover generation. The sheet records kept for
comparison are a standby's. -/
def State.becomeActive (s : State) : State :=
  let s1 := s.modMte fun x => { x with rxRecs := Vector.replicate 4 [], peerRecs := Vector.replicate 4 [] }
  ((s1.mateGo .active 0).sendSnaps.delta (.tko s.mte.tko)).1

/-! ## A change told by the active (R406, R407) -/

/-- A copied context: the parent's generation is this device's own; a receive association keeps the packet numbers that this
device has counted itself, with the higher floor. -/
def State.adoptCtx (s : State) (m : Fin 4) (sax : Nat) (c : Bytes) : Bytes :=
  let c1 := ctxSet c 104 4 (s.slot (ctxLe c 102 2)).gen
  let own := if (s.saAt sax).st = .empty then none else s.ctxOpt m sax
  match own with
  | some o => if ctxFlag c 7 then ctxSet (ctxSet c1 80 8 (ctxPn o)) 88 8 (max (ctxLe o 88 8) (ctxLe c 88 8)) else c1
  | none => c1

def State.applySa (s : State) (sax : Nat) (d : SaDir) (c : Bytes) : State :=
  let m := s.saMill sax
  if d.st = .empty then (s.modSac m fun x => x.forget sax).setSa sax {}
  else
    let c' := s.adoptCtx m sax c
    let s1 := s.setSa sax { d with cached := (s.saAt sax).cached }
    if c.isEmpty then s1 else s1.storeCtx' m sax c'

/-- A copied LKN: this device's own slot generation, its own receive tracking and transmit sequence of a key it already has. -/
def State.adoptLkn (s : State) (m k : Fin 4) (v : Lkn) : Lkn :=
  let own := s.lkn m k
  if !v.loaded then {}
  else
    let same := own.loaded && decide (own.key = v.key ∧ own.slot = v.slot)
    { v with
      gen := (s.slot v.slot).gen, halts := []
      sh := if same then own.sh else 0, track := if same then own.track else .track, seq := if same then own.seq else v.seq
      softDone := same && own.softDone, rxSeen := same && own.rxSeen }

def State.applyTrib (s : State) (n : Nat) (active : Bool) (mill : Fin 4) (pool : Option (Fin 8)) (route : Option (Fin 4))
    (quantum qlim grant : Nat) : State :=
  let t := s.tribAt n
  let s1 := if t.active && (!active || decide (t.mill ≠ mill)) then s.stopTrib t.mill n else s
  if !active then s1
  else if (s1.tribAt n).active then s1.updateTrib mill n pool route quantum qlim grant
  else s1.startTrib mill n pool route quantum qlim grant

/-- One state change takes effect at the standby. -/
def State.applyDelta (s : State) (d : Delta) : State :=
  match d with
  | .sa sax d c => s.applySa sax d c
  | .sc scx v => s.setSc scx v
  | .lkn m k v => s.modLkn m k fun _ => s.adoptLkn m k v
  | .keyArm m v => s.modLci m fun x => { x with
      arm := v.map fun (k, _, t) => { lkn := k, ref := none, time := t, late := false }
      armRc := match v with | some (_, some r, _) => r | _ => x.armRc }
  | .entries m b e es => s.modDkl m fun x => x.write b e es
  | .attrs m b n r => s.modDkl m fun x => (x.setLanes b n).setReady b r
  | .pageArm m act v =>
    let s1 := match v, (s.dkl m).arm with
      | none, some a => if act ≠ (s.dkl m).activeB then s.flipEffect m a.kind else s
      | _, _ => s
    s1.modDkl m fun x => { x with
      activeB := act, arm := v.map fun (k, rc) => { kind := k, rcF := rc, ref := none, late := false }
      armRc := match v with | some (_, rc) => rc | none => x.armRc }
  | .trib n a mi p r q l g => s.applyTrib n a mi p r q l g
  | .shaper n en b =>
    let t := s.tribAt n
    if t.active then s.setShaper t.mill n en (t.sh.configure s.now b.cir b.cbs b.pir b.pbs b.adj (en && !t.shEn)) else s
  | .policer m n v => s.setPolicer m n { v with
      b := (s.policerAt m n).b.configure s.now v.b.cir v.b.cbs v.b.pir v.b.pbs v.b.adj (v.en && !(s.policerAt m n).en) }
  | .gate p a pe o => s.modPort p fun x => { x with admin := a, pend := pe, oper := o }
  | .trig k v => s.modTrig k fun g => { v with high := g.high, fallAt := g.fallAt, fallTb := g.fallTb, active := v.active || g.high }
  | .servo b v => s.modTb b fun t => { t with
      servoEn := v.servoEn, kp := v.kp, ki := v.ki, ilim := v.ilim, stepTh := v.stepTh, interval := v.interval, src := v.src, srcTb := v.srcTb }
  | .tko g => s.modMte fun x => { x with tko := g }

/-- Highest DSEQ applied: what a DACK says. -/
def Mte.applied (x : Mte) : W32 :=
  match x.held with
  | [] => x.rxDseq
  | (n, _) :: _ => n - 1

/-- The followed framer of mill `m` has begun the ream with count `rc`. -/
def State.reamReached (s : State) (m : Fin 4) (rc : W32) : Bool := decide (((s.line m).rc - rc).toNat < 2 ^ 31)

/-- Apply the DELTAs that waited for a ream which the followed framer has reached; `all`: every one (R410). -/
def State.applyHeld (s : State) (all : Bool) : State :=
  let go := fun (h : W32 × Fin 4 × W32 × Delta) => all || s.reamReached h.2.1 h.2.2.1
  let now := s.mte.held.filter go
  if now.isEmpty then s
  else
    let s1 := s.modMte fun x => { x with held := x.held.filter fun h => !go h }
    let s2 := now.foldl (fun s h => s.applyDelta h.2.2.2) s1
    s2.feltSend 0x13 (beBytes 4 s2.mte.applied.toNat)

/-- A DELTA body (DSEQ, change) in order (R407): applied on arrival, or held for its ream. -/
def State.takeDelta (s : State) (n : W32) (body : Bytes) : State :=
  let s1 := s.modMte fun x => { x with rxDseq := n }
  let s2 := match Config.decodeDelta body with
    | none => s1
    | some (none, d) => s1.applyDelta d
    | some (some (m, rc), d) =>
      if s1.reamReached m rc then s1.applyDelta d else s1.modMte fun x => { x with held := x.held ++ [(n, m, rc, d)] }
  s2.feltSend 0x13 (beBytes 4 s2.mte.applied.toNat)

/-! ## The felt link (R389, R400, R401) -/

/-- The felt link comes up: a new session (R402). -/
def State.mateLinkUp (s : State) : State :=
  let s1 := (s.modMte fun x => { x with
    key := none, fseqTx := 1, fseqRx := 0, nonce := none, nonceWait := false, peerNonce := none, confirmed := false
    snaps := 0 }).modFelt fun x => { x with up := true, inbox := [] }
  let s2 := if s1.mte.st = .standby then s1.discardCopy.mateGo .sync 0 else s1
  s2.mateTryPair

/-- The felt link goes down: the peer is silent (R400). -/
def State.mateLinkDown (s : State) : State :=
  (s.modFelt fun x => { x with up := false, aligned := false, inFrame := false, bad := false, acc := [] }).modMte fun x => { x with silent := true }

/-- A HB slot arrives. -/
def State.mateHb (s : State) : State :=
  s.modMte fun x => { x with silent := false, heardAt := some s.now, hbVals := (List.finRange 8).map fun b => (s.tbAt b).val }

def State.frameDiscard (s : State) : State := s.countDev 0xD 0 0

def feltTypes : List Nat := [0x01, 0x02, 0x10, 0x11, 0x12, 0x13, 0x20, 0x21, 0x30, 0x31, 0x40, 0x41, 0x7F]

/-- The plaintext body of a frame whose CRC or tag verifies. -/
def State.feltOpen (s : State) (f : Bytes) : Option Bytes :=
  let len := beNat (slice f 2 2)
  let padded := len + (4 - len % 4) % 4
  let h := f.take 16
  let body := slice f 16 padded
  let tail := f.drop (16 + padded)
  if f.length ≠ 32 + padded ∨ 4096 < len then none
  else if byteAt f 0 = 1 then
    if tail = fcsOf (h ++ body) ++ List.replicate 12 0 then some (body.take len) else none
  else match s.mte.key with
    | none => none
    | some k =>
      let (pt, tag) := gcmDec k (feltIv s.mte.peerSide (beNat (slice f 8 8))) h (body.take len)
      if tag = tail then some pt else none

/-- A frame delivered by the link layer (R401, R403): discarded and counted, or put before the mate logic. -/
def State.feltDeliver (s : State) (f : Bytes) : State :=
  let ty := (byteAt f 0).toNat
  let epoch := beNat (slice f 4 4)
  let fseq := beNat (slice f 8 8)
  match s.feltOpen f with
  | none => s.frameDiscard
  | some body =>
    if fseq ≤ s.mte.fseqRx ∨ ¬ feltTypes.contains ty ∨ !s.mateEn then s.frameDiscard
    else
      let s1 := s.modMte fun x => { x with
        fseqRx := fseq, silent := false, heardAt := some s.now, fresh := x.fresh || decide (ty ≠ 1)
        freshAt := if ty ≠ 1 then some s.now else x.freshAt }
      let d := ((s.mte.epoch.toNat + 2 ^ 32 - epoch) % 2 ^ 32)
      if 2 < ty ∧ d ≠ 0 ∧ d < 2 ^ 31 then
        (s1.countDev 0xD 1 0).feltSend 0x7F (beBytes 4 epoch ++ beBytes 8 fseq)
      else s1.modFelt fun x => { x with inbox := x.inbox ++ [f.take 16 ++ body] }

/-- The oldest frame waiting, where it has type `ty`: header fields and body. -/
structure FeltIn where
  epoch : W32
  body : Bytes
deriving DecidableEq, Repr

def State.feltHead (s : State) (ty : Nat) : Option (FeltIn × State) :=
  match s.felt.inbox with
  | f :: fs =>
    if (byteAt f 0).toNat = ty then
      some ({ epoch := BitVec.ofNat 32 (beNat (slice f 4 4)), body := f.drop 16 }, s.modFelt fun x => { x with inbox := fs })
    else none
  | [] => none

/-- A newer epoch is adopted from CONFIRM, RELEASE and DELTA only (R403). -/
def State.adoptEpoch (s : State) (e : W32) : State :=
  if (e - s.mte.epoch).toNat < 2 ^ 31 then s.modMte fun x => { x with epoch := e } else s

/-- Word `i` of a body. -/
def FeltIn.u (f : FeltIn) (off n : Nat) : Nat := beNat (slice f.body off n)

end Sys2Proof.Machine
end

