-- ==== Sys2Proof/Machine/MateRows.lean ====
section
/-! DEFINITION. The events of a mate pair (chapter 14), one definition for each. -/

namespace Sys2Proof.Machine

/-! ## Sheet records (R409, Table 14-6) -/

/-- The TX_SEQ of a keyed sheet: 1 at the first one of an arm that this device holds, else one more than at the last keyed sheet
under the same LKN. -/
def Follow.seqContinues (f : Follow) (tx : TxRole) (lkn seq : Nat) : Bool :=
  if tx = .armed then decide (seq = 1)
  else if f.seq = 0 then true
  else if f.lkn = lkn then decide (seq = f.seq + 1)
  else decide (tx = .current → seq = 1)

/-- The TX part continues what this device has followed (R409). -/
def State.txContinues (s : State) (m : Fin 4) (lsc : W32) (keyed : Bool) (lkn seq : Nat) : Bool :=
  let f := s.mte.follow[m]
  !f.valid || (decide (lsc = f.lsc + 1) && (!keyed || f.seqContinues (s.lkn m ⟨lkn % 4, by omega⟩).tx lkn seq))

/-- The framer of mill `m` follows the active's sheet `lsc` (R408). -/
def State.followLine (s : State) (m : Fin 4) (lsc : W32) : State :=
  let f := s.mte.follow[m]
  let l := s.line m
  let (rc, idx) := if f.valid ∧ lsc = f.lsc + 1 then (if l.idx = 500 then (l.rc + 1, 0) else (l.rc, l.idx))
    else (BitVec.ofNat 32 (lsc.toNat / 500), lsc.toNat % 500)
  let s1 := s.modLine m fun l => { l with
    lsc := lsc + 1, rc := rc, idx := idx + 1, inReam := decide (idx + 1 < 500), begun := true }
  if rc = l.rc then s1 else s1.reamSettings m

/-- A record of the active's receive part (R409): compared with this device's own of the same far sheet, or kept until this device
has released that sheet. -/
def State.compareRx (s : State) (m : Fin 4) (r : RxRec) : State :=
  let s1 := s.modMte fun x => { x with rxRecs := x.rxRecs.set m (laterRecs r.lsc x.rxRecs[m]) }
  match s.mte.rxRecs[m].find? fun o => decide (o.lsc = r.lsc) with
  | some o => s1.judgeDig m o r
  | none => s1.modMte fun x => { x with peerRecs := x.peerRecs.set m (x.peerRecs[m] ++ [r]) }

/-- A mark of a one-sided defect ends when both devices agree again. -/
def State.agreeDefects (s : State) (m : Fin 4) (peer : BitVec 12) : State :=
  let stays := fun (k : Nat) => decide (k / 5 ≠ m.val) || ((s.defWord m).getLsbD (k % 5) && !peer.getLsbD (k % 5))
  s.modMte fun x => { x with oneSided := tkeep stays x.oneSided }

/-- One sheet record. -/
def State.takeDigest (s : State) (b : Bytes) : State :=
  let m : Fin 4 := ⟨beNat (slice b 0 1) % 4, by omega⟩
  let txf := beNat (slice b 1 1)
  let rxf := beNat (slice b 2 1)
  let lsc := BitVec.ofNat 32 (beNat (slice b 4 4))
  let seq := beNat (slice b 8 8)
  let keyed := natBit txf 7
  let peer := BitVec.ofNat 12 (beNat (slice b 24 4))
  let s1 := if s.txContinues m lsc keyed (txf % 4) seq then s else s.feltSend 0x40 [4]
  let s2 := (s1.followLine m lsc).modMte fun x =>
    let f := x.follow[m]
    { x with follow := x.follow.set m { f with
        valid := true, lsc := lsc, seq := if keyed then seq else f.seq, lkn := if keyed then txf % 4 else f.lkn, peerDef := peer } }
  let s3 := if natBit rxf 7 then
      s2.compareRx m { lsc := BitVec.ofNat 32 (beNat (slice b 16 4)), accepted := natBit rxf 6, lkn := rxf % 4, dig := BitVec.ofNat 32 (beNat (slice b 20 4)) }
    else s2
  (s3.agreeDefects m peer).applyHeld false

def State.takeDigests (s : State) (body : Bytes) : State := (chunksOf 32 body).foldl State.takeDigest s

/-- R406: transmit packet numbers. -/
def State.takeCkpt (s : State) (b : Bytes) : State :=
  let sax := beNat (slice b 0 2)
  let m := s.saMill sax
  match s.ctxOpt m sax with
  | some c => if (s.saAt sax).st = .empty then s else s.storeCtx' m sax (ctxSet c 80 8 (beNat (slice b 4 8)))
  | none => s
def State.takeCkpts (s : State) (body : Bytes) : State := (chunksOf 12 body).foldl State.takeCkpt s

/-! ## Takeover (R410) -/

/-- The frames that wait in the receive queue and carry state of the active: DELTAs in order, without a gap, sheet records and
packet numbers. -/
def State.takeQueued (s : State) : List Bytes → State
  | [] => s
  | f :: fs =>
    let n := BitVec.ofNat 32 (beNat (slice f 16 4))
    if byteAt f 0 = 0x10 ∧ n = s.mte.rxDseq + 1 then (s.takeDelta n (f.drop 20)).takeQueued fs
    else if byteAt f 0 = 0x20 then (s.takeDigests (f.drop 16)).takeQueued fs
    else if byteAt f 0 = 0x21 then (s.takeCkpts (f.drop 16)).takeQueued fs
    else s.takeQueued fs
def carriesState (f : Bytes) : Bool := [0x10, 0x20, 0x21].contains (byteAt f 0)

/-- The transmit sequence of mill `m` becomes the last TX_SEQ received plus 2^20, within the limit of R127. Where this device's
own SEQ is higher (it was the active itself since, or no TX_SEQ has been received), the jump starts from that one, so that no
sequence number is used twice (R9; DESIGN CHOICE, log entry 110). -/
def State.takeoverSeq (s : State) (m : Fin 4) : State :=
  match (s.lci m).current with
  | some k =>
    let n := max (s.mte.follow[m]).seq (s.lkn m k).seq + 2 ^ 20
    if 2 ^ 48 < n then (s.txDone m k).setBit (Reg.lci m 4) 9 else s.modLkn m k fun x => { x with seq := n }
  | none => s

/-- R410, on the edge of the grant. -/
def State.takeover (s : State) : State :=
  let s1 := s.takeQueued s.felt.inbox
  let s2 := (s1.modFelt fun x => { x with inbox := x.inbox.filter fun f => !carriesState f }).applyHeld true
  let s3 := s2.modMte fun x => { x with epoch := x.epoch + 1, tko := x.tko + 1 }
  ((List.finRange 4).foldl State.takeoverSeq s3).becomeActive

/-! ## Interlock (R396-R399, Table 14-2) -/

/-- A claim fails: TAKING goes back to STANDBY (Table 14-4). -/
def State.claimFailed (s : State) : State := if s.mte.st = .taking then s.mateGo .standby 0 else s

def State.setLock (s : State) (l : Interlock) (timer out : Bool) : State :=
  { s with mte := { s.mte with lock := l, timer := timer }, pads := { s.pads with mateActOut := out } }

/-- R397: the synchronised MATE_ACT_IN changes. -/
def execMateActInChange (high : Bool) (s : State) : Res :=
  if s.pads.mateActIn = high then idle s
  else
    let s1 := s.modPads fun p => { p with mateActIn := high }
    let side := s.pads.mateSide
    mateEnd (match s1.mte.lock, high with
      | .claim, true => if side then (s1.setLock .off false false).claimFailed else s1.modMte fun x => { x with timer := false }
      | .granted, true => if side then s1.setLock .off false false else s1.modMte fun x => { x with lock := .claim, timer := false }
      | .claim, false => s1.modMte fun x => { x with timer := true }
      | _, _ => s1.interlock)

/-- R397, R398, R410: the claim timer expires with MATE_ACT_IN low throughout. -/
def execClaimTimerExpire (s : State) : Res :=
  if s.mte.lock = .claim ∧ s.mte.timer ∧ !s.pads.mateActIn then
    let s1 := s.modMte fun x => { x with lock := .granted, timer := false }
    mateEnd (if s.mte.st = .taking then s1.takeover else s1)
  else idle s

/-- R397: 100 ns after RELEASING is entered. -/
def execReleasingExpire (s : State) : Res :=
  if s.mte.lock = .releasing then mateEnd (s.setLock .off false false).interlock else idle s

/-- A write of MTE_CTL.ACT_REQ (R396, R404, R412 row 8). -/
def State.writeActReq (s : State) (v : Bool) : State :=
  let s1 := s.setBit (Reg.mte 0) 1 v
  if !v && decide (s.mte.st = .active) then s1.mateRelease 7
  else if !v then (s1.interlock).claimFailed
  else s1.interlock

/-- R396. -/
def execActReqWrite (v : Bool) (s : State) : Res := if s.feltLive then mateEnd (s.writeActReq v) else idle s

/-- A write of MTE_CTL.EN (R404): 0 goes to UNPAIRED, the grant kept. -/
def State.writeMteEn (s : State) (v : Bool) : State :=
  let s1 := s.setBit (Reg.mte 0) 0 v
  if v then s1.mateTryPair
  else (s1.modMte fun x => { x with key := none, nonce := none, nonceWait := false, peerNonce := none, confirmed := false, ver := 0 }).mateGo .unpaired 0

/-- R404. -/
def execMteEnWrite (v : Bool) (s : State) : Res := if s.feltLive then mateEnd (s.writeMteEn v) else idle s

/-! ## Commands (MTE_CMD) -/

/-- R412, row 7. -/
def State.cmdSwitch (s : State) : State :=
  if s.mte.st ≠ .active then s.modMte fun x => { x with cmdStatus := 2 }
  else if !s.peerReady then s.modMte fun x => { x with cmdStatus := 1 }
  else (s.modMte fun x => { x with cmdStatus := 0 }).mateRelease 6
def execMateSwitch (s : State) : Res := if s.feltLive then mateEnd s.cmdSwitch else idle s

/-- R411: DIVERGED is cleared. -/
def State.cmdClrDiverged (s : State) : State :=
  s.modMte fun x => { x with diverged := false, cmdStatus := 0, follow := x.follow.map fun f => { f with mism := 0 } }
def execMateClrDiverged (s : State) : Res := if s.feltLive then mateEnd s.cmdClrDiverged else idle s

/-- R411: a full self-test pass starts. -/
def State.cmdSelftest (s : State) : State := s.modMte fun x => { x with selftesting := true, passByCmd := true, cmdStatus := 0 }
def execMateSelftest (s : State) : Res := if s.feltLive then mateEnd s.cmdSelftest else idle s

/-- A self-test fails (R411): SELFTEST_OK clears; the cause is 3 when a comparison had diverged. -/
def State.testFails (s : State) : State :=
  (s.modMte fun x => { x with selftestOk := false, testFailed := true }).mateFinding
    (if s.mte.diverged || s.mte.peerHealth.getLsbD 8 then 3 else 1)

/-- SYNC becomes STANDBY once the copy is complete and a pass has been completed (Table 14-4). -/
def State.trySync (s : State) : State :=
  if s.mte.st = .sync ∧ s.mte.synced ∧ s.mte.passSinceSync then s.mateGo .standby 0 else s

/-- R411: the pass ends. SELFTEST_OK sets after one begun by MTE_CMD.SELFTEST. -/
def execSelftestPassDone (ok : Bool) (s : State) : Res :=
  if s.mte.selftesting then
    let s1 := s.modMte fun x => { x with selftesting := false, passByCmd := false }
    mateEnd (if ok then (s1.modMte fun x => { x with
        selftestOk := x.selftestOk || s.mte.passByCmd, testFailed := false, passSinceSync := true }).trySync
      else s1.testFails)
  else idle s

/-- R411: one of the tests of Table 14-7 fails. -/
def execSelftestFailure (s : State) : Res := if s.feltLive then mateEnd s.testFails else idle s

/-! ## Timers and what is sent -/

/-- R400: a HB slot is sent between frames. -/
def execHeartbeatSend (s : State) : Res :=
  if s.felt.up then
    finish ((if s.feltSends then s.emit .heartbeat else s).modMte fun x => { x with hbOutVals := (List.finRange 8).map fun b => (s.tbAt b).val })
  else idle s

/-- R400: no HB slot and no valid frame for HB_TMO; one that arrives on the same edge is taken (R8). -/
def execPeerSilent (s : State) : Res :=
  if s.feltLive && !s.mte.silent && decide (s.mte.heardAt ≠ some s.now) then mateEnd (s.modMte fun x => { x with silent := true }) else idle s

/-- R411: no authenticated frame for 10 ms; one that arrives on the same edge keeps FRESH set (R8). -/
def execFreshExpire (s : State) : Res :=
  if s.mte.fresh && decide (s.mte.freshAt ≠ some s.now) then mateEnd (s.modMte fun x => { x with fresh := false }) else idle s

/-- R411: the health word is sent. -/
def execHealthSend (s : State) : Res :=
  if s.mte.key.isSome && s.felt.up then mateEnd (s.feltSend 0x30 (beBytes 4 s.healthWord)) else idle s

/-- The record of one time base in a TIME frame (Table 14-3). -/
def timeRecord (run : Bool) (v : Nat) : Bytes := byteOf (b2n run) :: ([0, 0, 0, 0, 0] ++ beBytes 4 (tbNs v) ++ beBytes 6 (tbSec v))

/-- R408: the readings at the departure of the last HB slot. -/
def execTimeFrameSend (s : State) : Res :=
  if s.mte.st = .active ∧ s.mte.key.isSome ∧ s.felt.up ∧ s.mte.hbOutVals.length = 8 then
    mateEnd (s.feltSend 0x31 ((List.finRange 8).flatMap fun b => timeRecord (s.tbRun b) (s.mte.hbOutVals.getD b.val 0)))
  else idle s

/-- R409, R412: a defect has been one-sided for DEF_MS. At the active it is reported with REQ; at this device RX_OK clears. -/
def execOneSidedDefect (m : Fin 4) (bit : Fin 5) (s : State) : Res :=
  let f := s.mte.follow[m]
  let own := (s.defWord m).getLsbD bit.val
  if (s.mte.st = .standby ∨ s.mte.st = .sync) ∧ f.valid ∧ own ≠ f.peerDef.getLsbD bit.val then
    mateEnd (if own then s.modMte fun x => { x with oneSided := tset false (5 * m.val + bit.val) true x.oneSided }
      else s.feltSend 0x40 [2])
  else idle s

/-- R404: MATE_ACT_IN has been low for 50 µs in RELEASED. -/
def execReclaimTimerExpire (s : State) : Res :=
  if s.mte.st = .released ∧ !s.pads.mateActIn ∧ s.bit (Reg.mte 0) 3 ∧ s.mte.cause ≠ 1 then mateEnd (s.mateGo .taking 8) else idle s

/-! ## Frames -/

/-- Nonce of side 0, then of side 1 (R402). -/
def State.sessionCtx (s : State) (peer : Bytes) : Bytes :=
  let own := s.mte.nonce.getD []
  if s.pads.mateSide then peer ++ own else own ++ peer

/-- The slot of MTE_PAIR can pair: LIVE or STAGED, DERIVE and OFFC (R402). -/
def State.pairSlotOk (s : State) : Bool :=
  let v := s.slot (s.fld (Reg.mte 0x10) 0 11)
  v.usable && v.a 2 && v.a 15

/-- R402, R403: HELLO. The body holds VMIN, VMAX, SIDE, GRANT, EPOCH, TKO_GEN, nonce and DEVICE_ID. -/
def execFeltHello (s : State) : Res :=
  match s.feltHead 1 with
  | none => idle s
  | some (f, s1) =>
    if s.mte.nonce.isNone || s.kstClosed then idle s
    else
      let peer := slice f.body 12 24
      let x := s1.modMte fun x => { x with
        peerSide := decide (f.u 2 1 ≠ 0), peerGrant := decide (f.u 3 1 ≠ 0), peerEpoch := BitVec.ofNat 32 (f.u 4 4)
        peerTko := BitVec.ofNat 16 (f.u 8 2), peerNonce := some peer }
      if x.mte.peerSide = s.pads.mateSide then mateEnd (x.pairFail 2)
      else if min 1 (f.u 1 1) < max 1 (f.u 0 1) then mateEnd (x.pairFail 1)
      else if !s.pairSlotOk then mateEnd (x.pairFail 4)
      else
        let key := kdf (s.slot (s.fld (Reg.mte 0x10) 0 11)).key labelMate (s.sessionCtx peer) 256
        let y := x.modMte fun x => { x with key := some key, ver := 1 }
        let z := y.feltSend 2 ([1, 0, 0, 0] ++ peer)
        mateEnd (if s.mte.st = .active ∧ s.mte.confirmed then z.sendSnaps else z)

/-- R404: CONFIRM decides the roles. -/
def execFeltConfirm (s : State) : Res :=
  match s.feltHead 2 with
  | none => idle s
  | some (f, s1) =>
    if f.u 0 1 ≠ s.mte.ver ∨ some (slice f.body 4 24) ≠ s.mte.nonce then mateEnd (s1.pairFail 3)
    else
      let x := s1.modMte fun x => { x with confirmed := true, feltDelay := (s.now - x.helloTick) / 2 }
      mateEnd (match x.mte.st with
        | .pairing =>
          if x.mte.lock = .granted ∨ (!x.mte.peerGrant ∧ !x.pads.mateSide) then
            (x.modMte fun y => { y with epoch := BitVec.ofNat 32 (max y.epoch.toNat y.peerEpoch.toNat + 1) }).becomeActive
          else (x.modMte fun y => { y with epoch := f.epoch, tko := y.peerTko, snaps := 0, synced := false, passSinceSync := false }).mateGo .sync 0
        | .active => x.sendSnaps
        | _ => x.adoptEpoch f.epoch)

/-- A gap in the order of DELTAs: the copy starts again (Table 14-4). -/
def State.resyncCopy (s : State) : State := (s.discardCopy.mateGo .sync 0).helloAgain

/-- R407: one state change. -/
def execFeltDelta (s : State) : Res :=
  match s.feltHead 0x10 with
  | none => idle s
  | some (f, s1) =>
    let n := BitVec.ofNat 32 (f.u 0 4)
    match s1.mte.st with
    | .sync | .standby | .taking =>
      let x := s1.adoptEpoch f.epoch
      if n = x.mte.rxDseq + 1 then mateEnd (x.takeDelta n (f.body.drop 4))
      else if (x.mte.rxDseq - n).toNat < 2 ^ 31 then mateEnd (x.feltSend 0x13 (beBytes 4 x.mte.applied.toNat))
      else if x.mte.st = .taking then mateEnd x
      else mateEnd x.resyncCopy
    | _ => mateEnd s1

/-- R406: one block of the bulk copy. The first one of a copy replaces what the device held. -/
def execFeltSnap (s : State) : Res :=
  match s.feltHead 0x11 with
  | none => idle s
  | some (f, s1) =>
    let x := if s1.mte.st = .released then s1.mateGo .sync 0 else s1
    if x.mte.st = .sync then
      let y := if s1.mte.st = .released ∨ x.mte.snaps = 0 then x.discardCopy else x
      let z := (Config.decodeSnap (f.body.drop 4)).foldl State.applyDelta y
      mateEnd (z.modMte fun w => { w with snaps := w.snaps + 1, rxDseq := BitVec.ofNat 32 (f.u 0 4) })
    else mateEnd x

/-- R404: the bulk copy ends; with a SNAP missing it starts again. -/
def execFeltSnapEnd (s : State) : Res :=
  match s.feltHead 0x12 with
  | none => idle s
  | some (f, s1) =>
    if s1.mte.st = .sync then
      if s1.mte.snaps = f.u 4 4 then mateEnd (s1.modMte fun x => { x with synced := true }).trySync
      else mateEnd s1.resyncCopy
    else mateEnd s1

/-- R407: completion records covered by the DACK may be written. -/
def execFeltDack (s : State) : Res :=
  match s.feltHead 0x13 with
  | none => idle s
  | some (f, s1) =>
    let n := BitVec.ofNat 32 (f.u 0 4)
    mateEnd (if (n - s1.mte.dacked).toNat < 2 ^ 31 then s1.modMte fun x => { x with dacked := n } else s1)

/-- R409: the records of a DIGEST frame, in order. -/
def execFeltDigest (s : State) : Res :=
  match s.feltHead 0x20 with
  | none => idle s
  | some (f, s1) =>
    match s1.mte.st with
    | .sync | .standby | .taking => mateEnd (s1.takeDigests f.body)
    | _ => mateEnd s1

/-- R406: transmit packet numbers. -/
def execFeltCkpt (s : State) : Res :=
  match s.feltHead 0x21 with
  | none => idle s
  | some (f, s1) =>
    match s1.mte.st with
    | .sync | .standby | .taking => mateEnd (s1.takeCkpts f.body)
    | _ => mateEnd s1

/-- The standby has declared DIVERGED (R412, row 3): the active runs a self-test pass; the standby is not READY then (row 5). -/
def State.mateDiverged (s : State) : State :=
  if s.mte.st = .active ∧ s.bit (Reg.mte 0) 2 then
    let s1 := s.modMte fun x => { x with selftesting := true }
    if s.peerReady then s1 else s1.setBit (Reg.mte 4) 12
  else s

/-- R412: the mate's health. -/
def execFeltHealth (s : State) : Res :=
  match s.feltHead 0x30 with
  | none => idle s
  | some (f, s1) =>
    let w := BitVec.ofNat 32 (f.u 0 4)
    let x := s1.modMte fun x => { x with peerHealth := w }
    let diverged := w.getLsbD 8 && !s1.mte.peerHealth.getLsbD 8
    mateEnd (if diverged then x.mateDiverged else x).mateRetry

/-- R408: the follower takes an offset for each running time base and moves it there. -/
def State.followTime (s : State) (b : Fin 8) (bs : Bytes) : State :=
  let own := s.mte.hbVals.getD b.val 0
  let there := (beNat (slice bs 10 6) * 1000000000 + beNat (slice bs 6 4)) * nsU
  let d : Int := (there : Int) + s.mte.feltDelay * 4 * nsU - own
  if byteAt bs 0 ≠ 0 ∧ s.tbRun b then s.modTb b fun t => { t with val := (((t.val : Int) + d) % (tbWrap : Int)).toNat } else s
def execFeltTime (s : State) : Res :=
  match s.feltHead 0x31 with
  | none => idle s
  | some (f, s1) =>
    if s1.mte.st = .standby ∧ s1.mte.hbVals.length = 8 then
      mateEnd ((List.finRange 8).foldl (fun s b => s.followTime b (slice f.body (16 * b.val) 16)) s1)
    else mateEnd s1

/-- R412: the standby asks the active to release. -/
def execFeltReq (s : State) : Res :=
  match s.feltHead 0x40 with
  | none => idle s
  | some (f, s1) => mateEnd (s1.mateFinding (f.u 0 1 % 16))

/-- R404: the active releases the line. -/
def execFeltRelease (s : State) : Res :=
  match s.feltHead 0x41 with
  | none => idle s
  | some (f, s1) =>
    let x := s1.adoptEpoch f.epoch
    mateEnd (if x.mte.st = .standby ∧ x.mateReady then x.mateGo .taking (f.u 0 1 % 16) else x)

/-- R403: the state is sent again under the current epoch. -/
def execFeltStale (s : State) : Res :=
  match s.feltHead 0x7F with
  | none => idle s
  | some (_, s1) => mateEnd (if s1.mte.st = .active then s1.sendSnaps else s1.feltSend 0x30 (beBytes 4 s1.healthWord))

/-! ## Security feeds (R417) -/

def State.feedMark (s : State) (b good : Bool) : State :=
  let s1 := s.modMte fun x => if b then { x with bGood := good } else { x with aGood := good }
  if good then s1 else s1.setBit (Reg.mte 0x18) (2 + b2n b)

/-- R417: a feed is out of range for 2 µs; `b` names VSEC_B. -/
def execVsecFeedLost (b : Bool) (s : State) : Res :=
  if s.mgmtLive && (if b then s.mte.bGood else s.mte.aGood) then mateEnd (s.feedMark b false) else idle s

/-- R417: a feed has been in range for 1 ms. -/
def execVsecFeedGood (b : Bool) (s : State) : Res :=
  if s.mgmtLive && !(if b then s.mte.bGood else s.mte.aGood) then mateEnd (s.feedMark b true) else idle s

end Sys2Proof.Machine
end

