-- ==== Sys2Proof/Machine/Tamper.lean ====
section
/-! DEFINITION. Tamper and environment monitors (chapter 15). -/

namespace Sys2Proof.Machine

/-! ## Erasures (Table 10-13) -/

/-- Every key copy and every volatile slot with LINE, MEMORY or UCI usage (SESSION_CLEAR). -/
def State.sessionErase (s : State) : State :=
  let s1 := (s.lknEraseWhere (fun _ => true) false allLkns).clearCatalogue
  let s2 := (s1.rgnEraseWhere (fun _ => true) (List.finRange 8)).modUci fun u => u.erase fun _ => true
  (s2.eraseSlots fun n v => decide (n < 1024) && (v.a 0 || v.a 3 || v.a 4)).settleInvals

/-- ZEROIZE and HOLD: every slot and the reserve SRAM as well. -/
def State.zeroErase (s : State) : State :=
  ((s.sessionErase.eraseSlots fun _ _ => true).modKst fun k => { k with reserve := [] }).settleInvals

/-! ## Firing (R419-R423) -/

/-- Sources of a set, ascending. -/
def srcList (b : BitVec 12) : List Nat := (List.range 12).filter fun n => b.getLsbD n

/-- Sources that are firing, or that a fuse has disabled, do not fire. A source under test fires for its test only. -/
def State.newFirings (s : State) (b : BitVec 12) : BitVec 12 :=
  b &&& ~~~s.tmp.firing &&& ~~~(s.tmp.dis.setWidth 12) &&& ~~~(match s.tmp.bistCur with | some n => 1#12 <<< n | none => 0)

/-- Sources whose condition lasts beyond the edge: all but SHADOW and MEMINT (Table 15-1). -/
def lasting : BitVec 12 := 0xAFF

/-- The highest response rank among the sources of a set. -/
def State.topRank (s : State) (b : BitVec 12) : Nat := ((srcList b).map s.rank).foldl max 0

/-- Sources of a set that ask for THROTTLE: rank THROTTLE, or THR beside a destructive response, one that still executes among them
(R422, R423). -/
def State.thrAsked (s : State) (b : BitVec 12) (top : Nat) : BitVec 12 :=
  ((srcList b).filter fun n => decide (s.rank n = 2 ∧ 2 ≤ top) || (s.bit (Reg.tmp (0x40 + 4 * n)) 3 && decide (3 ≤ top))).foldl
    (fun a n => a ||| (1#12 <<< n)) 0

/-- TMP_DIS from its fuse groups (R430). -/
def Otp.disabled (o : Otp) : Byte := (List.finRange 8).foldl (fun b i => if blown o.disable[i] then b ||| (1#8 <<< i.val) else b) 0

/-- Bits of the register at `a` that are held shadow-inverted (R431): DEBUG_EN and HOST_EN of a region, else the whole register. -/
def shadowBits (a : Nat) : Nat := if inBlock (Reg.mem 0x200) 0x100 a then 3 else 2 ^ 32 - 1

/-- A shadow-inverted register that disagrees with its complement, whose difference is `d`, is reloaded (R431): a latch from OTP,
TMP_LOCK as set if either copy is, ACT_REQ and TEST as if their reset value were written, any other with its reset value. -/
def State.reload (s : State) (a : Nat) (d : W32) : State :=
  if a = Reg.tmp 8 then s.setReg a (Nat.lor (s.reg a) (d.toNat % 2))
  else if a = Reg.tmp 0x30 then s.modTmp fun t => { t with dis := s.otp.disabled }
  else if a = Reg.tmp 0x3C then s.modBkp fun b => { b with mask := 0 }
  else if a = Reg.mte 0 then s.writeActReq false
  else if a = Reg.rng 0 then (if s.rng.st = .test then s.rngTest 0 else s)
  else s.setReg a (mergeBits (shadowBits a) (s.reg a) (Reg.reset s.otp.part a))

/-- The shadow-inverted registers that disagree are reloaded (R431). -/
def State.reloadShadow (s : State) : State :=
  let s1 := s.shadow.foldl (fun s e => s.reload e.1 e.2) s
  { s1 with shadow := [], kst := { s1.kst with lc := s1.otp.lc } }

/-- A destructive response starts (R423, Table 15-3). -/
def State.respond (s : State) (rank : Nat) (srcs : BitVec 12) (thr : Bool) : State :=
  let s1 := (if 4 ≤ rank then s.zeroErase else s.sessionErase).modTmp fun t => { t with scDone := true, exec := some rank }
  let s2 := if 4 ≤ rank then s1.modTmp fun t => { t with evJobs := t.evJobs ++ [.response rank srcs thr] }
    else
      let full := s1.logFull
      let s3 := s1.logAppend 1 (rank + 128 * b2n thr) srcs.toNat 0 false true
      if full then s3.modTmp fun t => { t with exec := none } else s3
  s2.mateFinding 1

/-- Tamper sources fire on one SEC edge (R422). -/
def State.tamperFire (s : State) (b : BitVec 12) : State :=
  let new := s.newFirings b
  let test := match s.tmp.bistCur with | some n => b.getLsbD n | none => false
  let s0 := match s.tmp.bistCur with
    | some n => if test then s.countDev 0xE 1 n else s
    | none => s
  if new = 0 then s0
  else
    let top := s0.topRank new
    let lower := match s0.tmp.exec with | some e => decide (top ≤ e) | none => false
    let runs := decide (3 ≤ top) && !lower
    let thr := s0.thrAsked new (max top (s0.tmp.exec.getD 0))
    let s1 := (srcList new).foldl (fun s n => ((s.setBit (Reg.tmp 4) n).countDev 0xE 0 n).fixDev 3) s0
    let s2 := s1.happen 3 0xE 0 new.toNat [byteOf ((if lower then 0 else top) + 128 * b2n (decide (thr ≠ 0) && (lower || decide (3 ≤ top))))]
    let s3 := s2.modTmp fun t => { t with
      firing := t.firing ||| (new &&& lasting), throttle := t.throttle || decide (thr ≠ 0), thrSrcs := t.thrSrcs ||| thr }
    let s4 := if new.getLsbD 8 then s3.reloadShadow else s3
    let s5 := if s.tmp.throttle = s4.tmp.throttle then s4 else s4.refillAll
    if runs then s5.respond top new (decide (thr ≠ 0)) else s5

/-- R418-R423: one or more sources fire. -/
def execTamperFire (src : BitVec 12) (s : State) : Res :=
  if s.islandLive ∧ src ≠ 0 then mateEnd (s.tamperFire src) else idle s

/-- R419: the condition of a source ceases. -/
def execTamperSourceCease (n : Fin 12) (s : State) : Res :=
  let rng := n.val ≠ 9 ∨ s.rng.st ≠ .failed
  let lines := n.val ≠ 11 ∨ (List.finRange 4).all fun m => !(s.line m).defects.auth && !(s.line m).defects.wm
  if s.tmp.firing.getLsbD n.val ∧ rng ∧ lines then finish (s.modTmp fun t => { t with firing := t.firing &&& ~~~(1#12 <<< n.val) })
  else idle s

/-- R425: 1 s after the last source that asked for THROTTLE has stopped firing. -/
def execThrottleEnd (s : State) : Res :=
  if s.tmp.throttle ∧ s.tmp.thrSrcs &&& s.tmp.firing = 0 then
    finish (s.modTmp fun t => { t with throttle := false, thrSrcs := 0 }).refillAll
  else idle s

/-! ## Evidence (R433, R434) -/

/-- Count one event in the evidence counter. -/
def State.evidenceUp (s : State) : State := s.modOtp fun o => { o with evidence := min 512 (o.evidence + 1) }

/-- COUNTER_FULL has its entry once (R434). -/
def State.fullEntry (s : State) : State :=
  if s.otp.evidence = 512 ∧ !s.tmp.fullLogged then (s.modTmp fun t => { t with fullLogged := true }).logAppend 6 0 0 0 else s

/-- R433, R434: the evidence counter is incremented and verified; the entry and the storage epoch follow. -/
def execEvidenceIncrementDone (s : State) : Res :=
  match s.tmp.evJobs with
  | [] => idle s
  | j :: js =>
    let s1 := (s.modTmp fun t => { t with evJobs := js }).evidenceUp
    finish (match j with
      | .response rank srcs thr => ((s1.logAppend 1 (rank + 128 * b2n thr) srcs.toNat 0 true).fullEntry).retireEpoch true
      | .backup => s1)

/-! ## Built-in test (R428, R429) -/

/-- The next source to be tested; those that fire already or are fused off are skipped as failures. -/
def Tmp.bistNext (t : Tmp) : Tmp :=
  let skip := fun (n : Nat) => t.firing.getLsbD n || t.dis.getLsbD n
  let rest := t.bistLeft.dropWhile skip
  let t1 := { t with bistFail := (t.bistLeft.takeWhile skip).foldl (fun b n => b ||| (1#12 <<< n)) t.bistFail }
  match rest with
  | [] => { t1 with bistBusy := false, bistLeft := [], bistCur := none }
  | n :: ns => { t1 with bistLeft := ns, bistCur := some n }

/-- A write of TMP_BIST from PF1. -/
def State.bistWrite (s : State) (v : Nat) : State :=
  let s1 := s.setReg (Reg.tmp 0x20) (v % 4096)
  if natBit v 12 && !s.tmp.bistBusy then
    s1.modTmp fun t => ({ t with bistBusy := true, bistPass := 0, bistFail := 0, bistLeft := srcList (BitVec.ofNat 12 v) } : Tmp).bistNext
  else s1

/-- R428. -/
def execTamperBist (pf : Fin 2) (v : W32) (s : State) : Res :=
  if !s.islandLive then idle s
  else if pf = 0 then finish (s.lockedWrite pf (Reg.tmp 0x20) v.toNat)
  else finish (s.bistWrite v.toNat)

/-- R428, R429: the test of the present source ends. `fired`: during the stimulus; `ceased`: within 50 µs of its removal. A source
that still fires then fires for real. -/
def execBistStimulusEnd (fired ceased : Bool) (s : State) : Res :=
  match s.tmp.bistCur with
  | none => idle s
  | some n =>
    let s1 := if fired then s.countDev 0xE 1 n else s
    let s2 := s1.modTmp fun t => { t with
      bistCur := none
      bistPass := if fired && ceased then t.bistPass ||| (1#12 <<< n) else t.bistPass
      bistFail := if fired && ceased then t.bistFail else t.bistFail ||| (1#12 <<< n) }
    let s3 := if fired && !ceased then s2.tamperFire (1#12 <<< n) else s2
    mateEnd (s3.modTmp Tmp.bistNext)

/-! ## Disabling a source by fuse (R430) -/

/-- A write of TMP_FUSE_TGT from PF1. -/
def State.fuseTgt (s : State) (v : Nat) : State := (s.setReg (Reg.tmp 0x28) (v % 16)).modTmp fun t => { t with fuseWindow := true, fuseShut := none }

def execFuseTgtWrite (pf : Fin 2) (v : W32) (s : State) : Res :=
  if !s.islandLive then idle s
  else if pf = 0 then finish (s.lockedWrite pf (Reg.tmp 0x28) v.toNat)
  else finish (s.fuseTgt v.toNat)

/-- R430: 1 ms after the write of TMP_FUSE_TGT. -/
def execFuseWindowExpire (s : State) : Res :=
  if s.tmp.fuseWindow then finish (s.modTmp fun t => { t with fuseWindow := false, fuseShut := some s.now }) else idle s

/-- A GO is within the 1 ms, or on the edge on which it expires (R8, R430). -/
def State.fuseOpen (s : State) : Bool := s.tmp.fuseWindow || decide (s.tmp.fuseShut = some s.now)

/-- A write of TMP_FUSE_GO from PF1: accepted, or ignored with FUSE_ERR. -/
def State.fuseGo (s : State) (v : Nat) : State :=
  let n := v % 16
  if s.fuseOpen ∧ v / 65536 = 0x4644 ∧ n = s.reg (Reg.tmp 0x28) ∧ n < 8 ∧ (s.kst.lc = 1 ∨ s.kst.lc = 2) ∧ s.tmp.fusePend = none then
    (s.modTmp fun t => { t with fuseWindow := false, fuseShut := none, fusePend := some n }).logAppend 5 0 0 n
  else s.setBit (Reg.tmp 0x30) 8

def execFuseDisableGo (pf : Fin 2) (v : W32) (s : State) : Res :=
  if !s.islandLive then idle s
  else if pf = 0 then finish (s.lockedWrite pf (Reg.tmp 0x2C) v.toNat)
  else finish (s.fuseGo v.toNat)

/-- R430: the entry is written, the group programmed and verified; the source never fires again. -/
def execFuseDisableDone (s : State) : Res :=
  match s.tmp.fusePend with
  | none => idle s
  | some n =>
    if s.kst.mtpJobs.any fun j => decide (j.kind = .log) then idle s
    else
      let i : Fin 8 := ⟨n % 8, by omega⟩
      finish ((s.modOtp fun o => { o with disable := o.disable.set i 0xFF }).modTmp fun t => { t with
        fusePend := none, dis := t.dis ||| (1#8 <<< n), firing := t.firing &&& ~~~(1#12 <<< n) })

/-! ## On the backup cell (R432, R433) -/

/-- Tamper source of a bit of TMP_BKP.MASK. -/
def bkpSource (i : Nat) : Nat := if i = 4 then 6 else i
/-- Sources of a set of backup sources, as in TMP_STAT. -/
def bkpSources (b : BitVec 5) : BitVec 12 :=
  ((List.range 5).filter fun i => b.getLsbD i).foldl (fun a i => a ||| (1#12 <<< bkpSource i)) 0
/-- Backup sources that a fuse has disabled. -/
def State.bkpDisabled (s : State) : BitVec 5 :=
  ((List.range 5).filter fun i => blown (s.otp.disable.toList.getD (bkpSource i) 0)).foldl (fun a i => a ||| (1#5 <<< i)) 0

/-- R432, R433: the sequencer wakes while main power is absent; a masked source that fires clears the reserve SRAM and leaves
its evidence. -/
def execBackupWake (fires : BitVec 5) (s : State) : Res :=
  if s.rst.porHeld ∧ s.bkp.vbat ≠ .lost then
    let hit := fires &&& s.bkp.mask &&& ~~~s.bkpDisabled
    if hit = 0 then idle s
    else finish ((s.modBkp fun b => { b with pending := true, fired := true, firedSrc := b.firedSrc ||| hit }).modKst
      fun k => { k with reserve := [] })
  else idle s

/-- R432: the supervision of VBAT. Below 2.2 V the BKP domain is cleared; without main power the reserve SRAM is lost. -/
def execVbatChange (v : Vbat) (s : State) : Res :=
  if v = s.bkp.vbat then idle s
  else if v = .lost then
    finish ((s.modBkp fun _ => {}).modKst fun k => { k with reserve := if s.rst.porHeld then [] else k.reserve })
  else finish (s.modBkp fun b => { b with vbat := v })

end Sys2Proof.Machine
end

