-- ==== Sys2Proof/Machine/Memory.lean ====
section
/-! DEFINITION. External memory (chapter 12): channels, regions, line reads and writes, page rewrites, the memory window,
scrubbing and debug access. -/

namespace Sys2Proof.Machine

/-! ## Training (R350, R351) -/

/-- No region holds a key, nor loads one. -/
def State.noKeys (s : State) : Bool := s.mem.rgn.all fun r => decide (r.st = .nokey)

/-- A write of TRAIN: accepted only while no region holds a key. -/
def State.trainWrite (s : State) (c : Fin 4) : State :=
  if s.noKeys && !(s.chan c).training then
    s.modChan c fun x => { x with training := true, trained := false, fail := false, lines := [] }
  else s

/-- R350. -/
def execMemTrain (_pf : Fin 2) (c : Fin 4) (s : State) : Res := if s.memLive c then finish (s.trainWrite c) else idle s

/-- R350: training ends; a failed step leaves the channel down. -/
def execMemTrainDone (c : Fin 4) (failStep : Option (Fin 4)) (s : State) : Res :=
  if (s.chan c).training then
    mateEnd (match failStep with
      | none => s.modChan c fun x => { x with training := false, trained := true, fail := false }
      | some k => (s.modChan c fun x => { x with training := false, fail := true, step := k.val }).mateFinding 1)
  else idle s

/-- R351: the tracking cannot follow a drift. -/
def execMemTrackFail (c : Fin 4) (s : State) : Res :=
  if (s.chan c).up then mateEnd ((s.modChan c fun x => { x with fail := true }).mateFinding 1) else idle s

/-! ## Regions (R353-R356) -/

/-- Two runs of pages overlap. -/
def overlap (b1 n1 b2 n2 : Nat) : Bool := decide (b1 < b2 + n2) && decide (b2 < b1 + n1)

/-- The checks of a load (R354). -/
def State.regionCheck (s : State) (r : Fin 8) (slot : Nat) : Option Nat :=
  match s.slotPre slot 1 with
  | some st => some st
  | none =>
    let v := s.slot slot
    let b := s.rgnBase r
    let n := s.rgnSize r
    let laps := (List.finRange 8).any fun q =>
      decide (q ≠ r ∧ n ≠ 0) && decide ((s.rgn q).st ≠ .nokey) && overlap b n (s.rgnBase q) (s.rgnSize q)
    firstFail [(!(v.usable && v.a 3), 0x53), (laps, 0x48),
      (decide (n = 0) || decide (16384 < b + n) || (decide (r = 0) && decide (n < 4096)), 0x1B),
      (!s.mem.ch.all (·.up), 0x49), (decide (s.rng.st = .failed), 0x52)]

/-- Page `p` of channel `c` lies in region `r`. -/
def State.pageIn (s : State) (r : Fin 8) (c : Fin 4) (p : Nat) : Bool := s.inRgn r (4 * p + c.val)

/-- The counters, poison bits, spent marks and stored lines of a region go back to their start. -/
def State.regionClear (s : State) (r : Fin 8) : State :=
  s.modMem fun m => { m with ch := Vector.ofFn fun c : Fin 4 =>
    let x := m.ch[c]
    let out := fun (p : Nat) => !s.pageIn r c p
    { x with
      major := tkeep out x.major, spent := tkeep out x.spent
      minor := tkeep (fun l => out (linePage l)) x.minor, poison := tkeep (fun l => out (linePage l)) x.poison
      lines := tkeep (fun l => out (linePage l)) x.lines } }

/-- The context draw of a region's load has been asked for and has not come. -/
def State.regionDraws (s : State) (r : Fin 8) : Bool := s.rng.waiting.any fun q => decide (q.user = .region r)

/-- Check and start a load: INIT, with the slot key latched and its context drawn from instance 0 (R354, R355). -/
def State.regionBegin (s : State) (r : Fin 8) (slot : Nat) : State :=
  match s.regionCheck r slot with
  | some st => s.modRgn r fun x => { x with lstatus := st, unchecked := none }
  | none =>
    let v := s.slot slot
    let s1 := (s.failPending r (List.finRange 4)).regionClear r
    let s2 := s1.modRgn r fun x => { x with
      st := .init, key := [], slot := slot, gen := v.gen, lstatus := 0, warned := false, load := some (slot, v.key, v.gen), drawn := none
      unchecked := none }
    if s2.regionDraws r then s2
    else match s2.rngAsk 0 (.region r) 16 with
    | (s3, .data bs) => s3.rngDeliver (.region r) bs
    | (s3, .failed) => s3.rngRefuse (.region r)
    | (s3, .waits) => s3

/-- A write of MEM_RGN_KEY from PF1. A GO that finds the key store closed or not READY waits with the slot it names (R307, R310). -/
def State.regionKeyWrite (s : State) (r : Fin 8) (v : Nat) : State :=
  let s1 := s.setReg (Reg.mem (0x20C + 0x20 * r.val)) (v % 2048)
  if !natBit v 31 then s1
  else if s.loadWaits then s1.modRgn r fun x => { x with unchecked := some (v % 2048) }
  else if s.loadDry then s1.modRgn r fun x => { x with lstatus := 0x52 }
  else s1.regionBegin r (v % 2048)

/-- R354: only PF1 loads a region. -/
def execMemRegionLoad (pf : Fin 2) (r : Fin 8) (v : W32) (s : State) : Res :=
  if !s.mgmtLive then idle s
  else if pf = 0 then finish (s.lockedWrite pf (Reg.mem (0x20C + 0x20 * r.val)) v.toNat)
  else finish (s.regionKeyWrite r v.toNat)

/-- A write of UNLOAD from PF1; for region 0 refused while an association exists. -/
def State.regionUnload (s : State) (r : Fin 8) : State :=
  if r = 0 ∧ s.sa.any (fun e => decide (e.2.st ≠ .empty)) then s.setBit (Reg.mem 0x210) 4 else s.rgnErase r

/-- R354. -/
def execMemRegionUnload (pf : Fin 2) (r : Fin 8) (s : State) : Res :=
  if !s.mgmtLive then idle s
  else if pf = 0 then finish (s.lockedWrite pf (Reg.mem (0x208 + 0x20 * r.val)) 4)
  else finish (s.regionUnload r)

def labelMemory : Bytes := [0xED, 0x4D, 0x45, 0x4D]

/-- R354, R355: every line of the region holds encrypted zeros under the working key. -/
def execMemRegionReady (r : Fin 8) (s : State) : Res :=
  let x := s.rgn r
  match x.st, x.load, x.drawn with
  | .init, some (_, key, _), some bs =>
    finish (s.modRgn r fun x => { x with
      st := .ready, key := kdf key labelMemory (byteOf r.val :: bs) 256, load := none, drawn := none })
  | _, _, _ => idle s

/-! ## Serving order (R360, R364) -/

def MemOp.isRead : MemOp → Bool
  | .read => true
  | _ => false

/-- Request `q` must stay behind `e`, which arrived earlier: they want one line, or both waited for a rewrite of their page. -/
def MemReq.behind (q e : MemReq) : Bool :=
  decide (memLine e.addr = memLine q.addr) || (q.waited && e.waited && decide (linePage (memLine e.addr) = linePage (memLine q.addr)))

/-- The first waiting request that is a read (or is not), has no older request ahead of it that it must stay behind, nor a read of its
line under way, and whose page is not being rewritten; with the requests that stay. -/
def Channel.next (x : Channel) (rd : Bool) : List MemReq → List MemReq → Option (MemReq × List MemReq)
  | _, [] => none
  | seen, q :: qs =>
    if q.op.isRead = rd && !x.rewriting (linePage (memLine q.addr)) && !seen.any q.behind
        && !(x.reads.any fun e => decide (memLine e.addr = memLine q.addr)) then some (q, seen ++ qs)
    else x.next rd (seen ++ [q]) qs

/-- The request that is accepted next, and the channel after it: others move up in the queues. -/
def Channel.pull (x : Channel) (rd : Bool) : Option (MemReq × Channel) :=
  (x.drain.next rd [] x.drain.queue).map fun e => (e.1, Channel.drain { x.drain with queue := e.2 })

/-- The request that channel `c` accepts next: none while its domain is held. -/
def State.pullReq (s : State) (c : Fin 4) (rd : Bool) : Option (MemReq × Channel) := if s.memLive c then (s.chan c).pull rd else none

/-- A request fails before the line is looked at. -/
def State.refuseAccess (s : State) (q : MemReq) (st : Nat) : State :=
  let c := memCh q.addr
  let s1 := if st = 9 then (s.countDev 0xC 5 c.val).lockedWrite 1 (Reg.mem 0x508) q.addr else s
  s1.memAnswer q st []

/-- R364, R352, R353, R363: a line read request is accepted. -/
def execMemLineRead (c : Fin 4) (s : State) : Res :=
  match s.pullReq c true with
  | none => idle s
  | some (q, y) =>
    let s1 := s.modChan c fun _ => y
    let st := s.accessStatus q.master q.addr
    finish (if st = 0 then s1.modChan c fun x => { x with reads := x.reads ++ [q] } else s1.refuseAccess q st)

/-! ## Reading a line (R348, R367, R368) -/

/-- The outcome of reading line `l` of channel `c` in region `r`: status, syndrome, data. -/
def State.readLine (s : State) (r : Fin 8) (c : Fin 4) (l : Nat) (o : SramRead) : Nat × Nat × Bytes :=
  let x := s.chan c
  let tagged := fun (ok : Nat) (v : StoredLine) =>
    match openLine (s.rgn r).key r c l (x.storedMajor (linePage l)) (x.minorOf l) v with
    | some p => (ok, 0, p)
    | none => (4, 0, [])
  if !x.up then (0xB, 0, [])
  else if tget false x.poison l then (5, 0, [])
  else if o.parity = 2 then (0xB, 0, [])
  else match eccDecode l (s.delivered r c l o) with
    | .clean => tagged 0 (s.delivered r c l o)
    | .corrected v => tagged 1 v
    | .ue d => (2, d, [])
    | .addr d => (3, d, [])

/-- R349: the stored bits of a line that was delivered corrected are rewritten, unless a write of its whole page is under way. -/
def State.repair (s : State) (r : Fin 8) (c : Fin 4) (l st : Nat) (o : SramRead) : State :=
  match st, eccDecode l (s.delivered r c l o) with
  | 1, .corrected v =>
    if (s.chan c).rewriting (linePage l) then s
    else (s.modChan c fun x => { x with lines := tset default l v x.lines }).emit (.memBus c.val l v.beats)
  | _, _ => s

/-- Address parity errors are counted (R345). -/
def State.noteParity (s : State) (c : Fin 4) (o : SramRead) : State :=
  if o.parity = 0 then s else (s.setBit (Reg.mem (4 + 0x40 * c.val)) 4).countDev 0xC 6 c.val

/-- MEM_ERRLOG holds the first error (Table 12-11). -/
def Mem.logError (m : Mem) (a st synd : Nat) (scrub : Bool) : Mem :=
  if m.errValid then m else { m with errValid := true, errAddr := a, errStatus := st, errScrub := scrub, errSynd := synd }

/-- Count what a read met; UE, ADDR and TAG_FAIL are logged and recorded. -/
def State.noteRead (s : State) (c : Fin 4) (l st synd : Nat) (scrub : Bool) : State :=
  if st = 1 then s.countDev 0xC 0 c.val
  else if st = 5 then s.countDev 0xC 4 c.val
  else if 2 ≤ st ∧ st ≤ 4 then
    (((s.countDev 0xC (st - 1) c.val).fixDev 2).modMem fun m => m.logError (lineAddr c l) st synd scrub).happen 4 0xC 0 c.val
      (leBytes 4 (lineAddr c l) ++ [byteOf st] ++ leBytes 2 synd)
  else s

/-- The region of a request that has been accepted. -/
def State.regionAt (s : State) (a : Nat) : Fin 8 := (s.regionOf a).getD 0

/-- R367, R368, R349: a read returns. -/
def execMemReadDone (c : Fin 4) (o : SramRead) (s : State) : Res :=
  match (s.chan c).reads with
  | [] => idle s
  | q :: qs =>
    let l := memLine q.addr
    let (st, synd, data) := s.readLine (s.regionAt q.addr) c l o
    let s1 := ((s.modChan c fun x => { x with reads := qs }).noteParity c o).noteRead c l st synd false
    let s2 := (if 2 ≤ st ∧ st ≤ 4 then s1.tamperFire (1#12 <<< 10) else s1).repair (s.regionAt q.addr) c l st o
    mateEnd (s2.memAnswer q st data)

/-! ## Writing a line (R358-R362, R366) -/

/-- Store plaintext `p` at line `l` under the present major counter and minor counter `minor`. -/
def State.storeLine (s : State) (r : Fin 8) (c : Fin 4) (l minor : Nat) (p : Bytes) : State :=
  let x := s.chan c
  let v := sealLine (s.rgn r).key r c l (x.majorOf (linePage l)) minor p
  (s.modChan c fun x => { x with minor := tset 1 l minor x.minor, lines := tset default l v x.lines }).emit
    (.memBus c.val l v.beats)

/-- A write is refused because its page's major counter is spent (R361). -/
def State.spent (s : State) (r : Fin 8) (c : Fin 4) (p : Nat) : State :=
  ((((s.modChan c fun x => { x with spent := tset false p true x.spent }).setBit (Reg.mem (0x210 + 0x20 * r.val)) 2).countDev 0xC 8
    c.val).tamperFire (1#12 <<< 10))

/-- MAJ_WARN, once per region per load (R362). -/
def State.majWarn (s : State) (r : Fin 8) (major : Nat) : State :=
  if s.reg (Reg.mem 0x404) ≤ major ∧ !(s.rgn r).warned then
    (s.setBit (Reg.mem (0x210 + 0x20 * r.val)) 3).modRgn r fun x => { x with warned := true }
  else s

/-- The page rewrite that the write `q` of plaintext `p` at line `l` needs starts: the major counter advances, and requests for the
page wait (R360, R168). -/
def State.startRewrite (s : State) (q : MemReq) (r : Fin 8) (c : Fin 4) (l : Nat) (p : Bytes) : State :=
  let pg := linePage l
  let major := (s.chan c).majorOf pg + 1
  let hold := fun (e : MemReq) => if linePage (memLine e.addr) = pg then { e with waited := true } else e
  let s1 := s.modChan c fun x => { x with
    major := tset 0 pg major x.major, rewrites := x.rewrites ++ [{ page := pg, line := l, req := q, data := p }], queue := x.queue.map hold }
  ((List.finRange 4).foldl (fun s m => s.pageStalls c pg m) s1).majWarn r major

/-- Write plaintext `p` at line `l`; the request is acknowledged later. -/
def State.writeLine (s : State) (q : MemReq) (r : Fin 8) (c : Fin 4) (l : Nat) (p : Bytes) : State :=
  let x := s.chan c
  let pg := linePage l
  if tget false x.spent pg then (s.spent r c pg).memAnswer q 0xA []
  else if x.minorOf l < 63 then
    (s.storeLine r c l (x.minorOf l + 1) p).modChan c fun x => { x with poison := tset false l false x.poison, acks := x.acks ++ [q] }
  else if x.majorOf pg = 2 ^ 32 - 1 then (s.spent r c pg).memAnswer q 0xA []
  else s.startRewrite q r c l p

/-- `new` where the mask has a 1, `old` elsewhere. -/
def mergeMask (mask : W32) (old new : Bytes) : Bytes :=
  (List.range 32).map fun k => if mask.getLsbD k then byteAt new k else byteAt old k

/-- A write or a partial write of an accepted request. -/
def State.doWrite (s : State) (q : MemReq) (r : Fin 8) (c : Fin 4) (l : Nat) (o : SramRead) : State :=
  match q.op with
  | .read => s
  | .write p => if o.parity = 2 then s.memAnswer q 0xB [] else s.writeLine q r c l p
  | .part p mask =>
    let (st, _, old) := s.readLine r c l o
    if st = 0xB then s.memAnswer q 0xB []
    else if st < 2 then (s.noteRead c l st 0 false).writeLine { q with status := st } r c l (mergeMask mask old p)
    else
      let code := if st = 5 then 5 else 4
      let s1 := (s.modChan c fun x => { x with poison := tset false l true x.poison }).countDev 0xC 4 c.val
      (s1.happen 5 0xC 0 c.val (leBytes 4 (lineAddr c l) ++ [byteOf code])).memAnswer q code []

/-- R358, R364, R366: a line write request is accepted and carried out. -/
def execMemLineWrite (c : Fin 4) (o : SramRead) (s : State) : Res :=
  match s.pullReq c false with
  | none => idle s
  | some (q, y) =>
    let s1 := s.modChan c fun _ => y
    let st := s.accessStatus q.master q.addr
    mateEnd (if st = 0 then (s1.noteParity c o).doWrite q (s.regionAt q.addr) c (memLine q.addr) o else s1.refuseAccess q st)

/-- What a page rewrite reads of line `l`: its plaintext, or none where the access, the code or the tag fails (R360). -/
def State.rewriteRead (s : State) (r : Fin 8) (c : Fin 4) (l : Nat) (o : SramRead) : Option Bytes :=
  let x := s.chan c
  let opened := openLine (s.rgn r).key r c l (x.storedMajor (linePage l)) (x.minorOf l)
  if o.parity = 2 then none
  else match eccDecode l (s.delivered r c l o) with
    | .clean => opened (s.delivered r c l o)
    | .corrected v => opened v
    | _ => none

/-- One line of a page rewrite: a line that fails keeps its stored bits and is poisoned (R360). -/
def State.rewriteLine (s : State) (r : Fin 8) (c : Fin 4) (l : Nat) (o : SramRead) : State :=
  let s1 := s.noteParity c o
  match s.rewriteRead r c l o with
  | some p => s1.storeLine r c l 0 p
  | none => s1.modChan c fun y => { y with
      minor := tset 1 l 0 y.minor, poison := tset false l true y.poison, lines := tset default l (s.storedLine r c l) y.lines }

/-- R360: the oldest rewrite ends; `reads` names the lines that the SRAM did not simply deliver. The triggering line has its new data. -/
def execPageRewriteDone (c : Fin 4) (reads : List (Fin 128 × SramRead)) (s : State) : Res :=
  match (s.chan c).rewrites with
  | [] => idle s
  | w :: ws =>
    if !(s.chan c).up then mateEnd ((s.modChan c fun x => { x with rewrites := ws }).memAnswer w.req 0xB [])
    else
      let r := s.regionAt w.req.addr
      let s1 := (List.finRange 128).foldl (fun s i =>
        let l := 128 * w.page + i.val
        if l = w.line then s else s.rewriteLine r c l ((reads.lookup i).getD {})) s
      let s2 := (s1.storeLine r c w.line 0 w.data).modChan c fun y => { y with
        poison := tset false w.line false y.poison, rewrites := ws, acks := y.acks ++ [w.req] }
      finish (s2.countDev 0xC 7 c.val)

/-- R363: the oldest write is acknowledged. -/
def execMemWriteAck (c : Fin 4) (s : State) : Res :=
  match (s.chan c).acks with
  | [] => idle s
  | q :: qs => finish ((s.modChan c fun x => { x with acks := qs }).memAnswer q q.status [])

/-! ## The memory window (R365, R366) -/

def State.winAddr (s : State) : Nat := s.fld (Reg.mem 0x500) 5 21 * 32
def State.winData (s : State) : Bytes := (List.range 8).flatMap fun i => beBytes 4 (s.reg (Reg.mem (0x520 + 4 * i)))

/-- A GO of MEM_WIN_CMD from PF1. -/
def State.winGo (s : State) (write : Bool) : State :=
  if s.mem.winBusy then s
  else
    let s1 := (s.setBit (Reg.mem 0x508) 0 write).modMem fun m => { m with winBusy := true }
    let mask := BitVec.ofNat 32 (s.reg (Reg.mem 0x504))
    if write ∧ mask = 0 then s1.modMem fun m => { m with winBusy := false, winStatus := 0 }
    else s1.memPush { master := .window, addr := s.winAddr,
                      op := if !write then .read else if mask = 0xFFFFFFFF then .write s.winData else .part s.winData mask }

/-- R365. -/
def execMemWindowRead (pf : Fin 2) (s : State) : Res :=
  if !s.mgmtLive then idle s
  else if pf = 0 then finish (s.lockedWrite pf (Reg.mem 0x508) 0x80000000)
  else finish (s.winGo false)
/-- R366. -/
def execMemWindowWrite (pf : Fin 2) (s : State) : Res :=
  if !s.mgmtLive then idle s
  else if pf = 0 then finish (s.lockedWrite pf (Reg.mem 0x508) 0x80000001)
  else finish (s.winGo true)

/-! ## Scrubbing (R369) -/

/-- The first line of channel `c` at or after `pos` that lies in a READY region. -/
def State.nextReady (s : State) (c : Fin 4) (pos : Nat) : Option Nat :=
  ((List.finRange 8).filterMap fun r =>
    if (s.rgn r).st ≠ .ready then none
    else
      let first := (s.rgnBase r + 3 - c.val) / 4
      let l := max pos (128 * first)
      if s.pageIn r c (linePage l) then some l else none).foldl
    (fun a l => match a with | none => some l | some b => some (min b l)) none

/-- A request for line `l` is queued, or a read of it is under way. -/
def Channel.wants (x : Channel) (l : Nat) : Bool := (x.queue ++ x.reads).any fun q => decide (memLine q.addr = l)

/-- R369: the scrubber comes to its next line; it passes over a poisoned one and one of a page being rewritten. -/
def execScrubRead (c : Fin 4) (o : SramRead) (s : State) : Res :=
  let x := s.chan c
  let at0 := match s.nextReady c x.scrubPos with
    | some l => some l
    | none => s.nextReady c 0
  match at0 with
  | none => idle s
  | some l =>
    if !s.bit (Reg.mem 0x400) 0 || !x.up || x.queue.any (·.op.isRead) || x.wants l then idle s
    else
      let s1 := s.modChan c fun x => { x with scrubPos := l + 1 }
      if tget false x.poison l || x.rewriting (linePage l) then finish s1
      else
        let r := s.regionAt (lineAddr c l)
        let (st, synd, _) := s.readLine r c l o
        let s2 := (((s1.countDev 0xC 9 c.val).noteParity c o).noteRead c l st synd true).repair r c l st o
        finish (if 2 ≤ st ∧ st ≤ 4 then s2.modChan c fun x => { x with poison := tset false l true x.poison } else s2)

/-! ## Debug access (R363) -/

/-- The access that a debug command asks for: a read, or a write of the masked bytes. -/
def debugOp (w : Option (Bytes × W32)) : MemOp :=
  match w with
  | none => .read
  | some (d, m) => if m = 0xFFFFFFFF then .write (padTo 32 d) else .part (padTo 32 d) m

/-- A debug access that is admitted. -/
def State.debugServe (s : State) (q : MemReq) (o : SramRead) : State :=
  let c := memCh q.addr
  let l := memLine q.addr
  let r := s.regionAt q.addr
  let s0 := s.noteParity c o
  match q.op with
  | .read =>
    let (st, synd, data) := s.readLine r c l o
    let s1 := s0.noteRead c l st synd false
    ((if 2 ≤ st ∧ st ≤ 4 then s1.tamperFire (1#12 <<< 10) else s1).repair r c l st o).memAnswer q st data
  | .part _ mask => if mask = 0 then s.memAnswer q 0 [] else s0.doWrite q r c l o
  | .write _ => s0.doWrite q r c l o

/-- R363: an access over JTAG; a read is answered at once, a write at its acknowledgement. It waits for a page rewrite of its page and
for older requests to its line. -/
def execDebugAccess (line : BitVec 21) (w : Option (Bytes × W32)) (o : SramRead) (s : State) : Res :=
  let q : MemReq := { master := .debug, op := debugOp w, addr := line.toNat * 32 }
  let x := s.chan (memCh q.addr)
  let l := memLine q.addr
  let st := s.accessStatus .debug q.addr
  if !s.mgmtLive || x.rewriting (linePage l) || x.wants l then idle s
  else mateEnd (if st ≠ 0 then s.refuseAccess q st else s.debugServe q o)

end Sys2Proof.Machine
end

