-- ==== Sys2Proof/Machine/Kst.lean ====
section
/-! DEFINITION. Key store commands (chapter 10): installing, staging, committing, invalidating and deriving keys, attestation,
persistent copies, the start of the key store, the root, provisioning and the life cycle. -/

namespace Sys2Proof.Machine

/-! ## Checks (R298, Table 10-2) -/

/-- A new slot (Table 10-2, first row): EMPTY, not 1,024 or 1,025. -/
def State.newBad (s : State) (n : Nat) : Bool :=
  decide ((s.slot n).st ≠ .empty) || decide (n = 1024 ∨ n = 1025) || s.slotClaimed n

/-- R293: slots 1,025 to 1,087 named outside SECURED. -/
def State.persistBad (s : State) (n : Nat) : Bool := decide (1025 ≤ n) && decide (s.kst.lc ≠ 2)

/-- Data would have to be drawn from an RNG that is FAILED (R307). -/
def State.noEntropy (s : State) : Bool := decide (s.rng.st = .failed)

/-- The wrapped key of an instruction under a KEK (R302). -/
def State.unwrapOf (s : State) (d : Desc) (p : Nat) : Option Bytes := keyUnwrap (s.slot p).key (d.argBytes 8 40)

/-- The checks of `KWRAPIN` (R298, R303); status 0x52 where its draw would fail. -/
def State.kwrapinCheck (s : State) (pf : Fin 2) (d : Desc) : Option Nat :=
  let n := d.p1 % 2048
  let p := d.p2 % 2048
  let w := BitVec.ofNat 32 (d.arg 0 4)
  let drawn := decide (p = n)
  firstFail [
    (decide (1087 < n) || decide (1087 < p) || s.attrBad w n || (drawn && (d.argBytes 8 40).any (· ≠ 0)), 0x1B),
    (s.persistBad n || (if drawn then s.lcBad w else s.slotLcBad p), 0x54),
    (if drawn then !w.getLsbD (14 + pf.val) else s.slotPfBad p pf, 0x53),
    (s.newBad n, 0x50),
    (!drawn && !((s.slot p).usable && (s.slot p).a 1), 0x44),
    (s.copyBusy n, 0x50),
    (if drawn then w.getLsbD 5 else s.childBad w n p false, 0x1B),
    (s.genBad n, 0x1B),
    (drawn && s.noEntropy, 0x52),
    (!drawn && (s.unwrapOf d p).isNone, 0x43)]

/-- Draw `n` bytes from instance `i` for operation `id`. -/
def State.drawFor (s : State) (i id n : Nat) : State :=
  match s.rngAsk i (.kst id) n with
  | (s1, .data bs) => s1.rngDeliver (.kst id) bs
  | (s1, .failed) => s1.rngRefuse (.kst id)
  | (s1, .waits) => s1

def State.runKwrapin (s : State) (d : Desc) (ref : CmdRef) : State :=
  match s.kwrapinCheck (ringPf ref.rid) d with
  | some st => s.complete ref st
  | none =>
    let n := d.p1 % 2048
    let p := d.p2 % 2048
    let w := BitVec.ofNat 32 (d.arg 0 4)
    if p = n then
      let (s1, id) := s.kstStart ref (.installDrawn n { attr := w }) 1
      s1.drawFor 0 id 32
    else
      (s.kstStart ref (.install n
        { attr := w, key := (s.unwrapOf d p).getD [], parent := some p, depth := (s.slot p).depth + 1 }) 0).1

/-- R303. -/
def execKwrapin (r : Rid) (s : State) : Res := s.issueKey r 0x08 (fun _ => true) State.runKwrapin

/-- The target of a `KSTAGE` (Table 10-2): LIVE and not 1,024, else USAGE; SLOT_BUSY while staged or being invalidated. -/
def State.stageBad (s : State) (n : Nat) : Option Nat :=
  let st := (s.slot n).st
  if st = .staged ∨ st = .invalidating ∨ s.slotClaimed n then some 0x50 else if st ≠ .live ∨ n = 1024 then some 0x53 else none

/-- The checks of `KSTAGE` SRC 0. -/
def State.kstageCheck (s : State) (pf : Fin 2) (d : Desc) : Option Nat :=
  let n := d.p1 % 2048
  let p := d.p2 % 2048
  match firstFail [
    (decide (1087 < n) || decide (1087 < p), 0x1B), (s.slotLcBad n || s.slotLcBad p, 0x54),
    (s.slotPfBad n pf || s.slotPfBad p pf, 0x53), (!((s.slot p).usable && (s.slot p).a 1), 0x44)] with
  | some st => some st
  | none =>
    match s.stageBad n with
    | some st => some st
    | none => firstFail [(s.childBad (s.slot n).attr n p false, 0x1B), ((s.unwrapOf d p).isNone, 0x43)]

def State.runKstageWrapped (s : State) (d : Desc) (ref : CmdRef) : State :=
  match s.kstageCheck (ringPf ref.rid) d with
  | some st => s.complete ref st
  | none =>
    let p := d.p2 % 2048
    s.endStage ref (d.p1 % 2048) ((s.unwrapOf d p).getD []) (some p) ((s.slot p).depth + 1)

/-- R304, SRC 0: nothing is awaited, so it never pends. -/
def execKstageWrapped (r : Rid) (s : State) : Res := s.issueKey r 0x09 (· = 0) State.runKstageWrapped

/-- The checks of `KSTAGE` SRC 1. -/
def State.kstageRngCheck (s : State) (pf : Fin 2) (n : Nat) : Option Nat :=
  match s.slotPre n pf with
  | some st => some st
  | none => match s.stageBad n with
    | some st => some st
    | none => if s.noEntropy then some 0x52 else none

def State.runKstageRng (s : State) (d : Desc) (ref : CmdRef) : State :=
  match s.kstageRngCheck (ringPf ref.rid) (d.p1 % 2048) with
  | some st => s.complete ref st
  | none =>
    let (s1, id) := s.kstStart ref (.stageDrawn (d.p1 % 2048)) 1
    s1.drawFor 0 id 32

/-- R304, SRC 1. -/
def execKstageRng (r : Rid) (s : State) : Res := s.issueKey r 0x09 (· = 1) State.runKstageRng

def State.kcommitCheck (s : State) (pf : Fin 2) (n : Nat) : Option Nat :=
  match s.slotPre n pf with
  | some st => some st
  | none => firstFail [(decide ((s.slot n).st ≠ .staged), 0x53), (s.copyBusy n, 0x50), (s.genBad n, 0x1B)]

/-- R305: the staged key comes into force on the acceptance edge, or is discarded. -/
def State.runKcommit (s : State) (d : Desc) (ref : CmdRef) : State :=
  let n := d.p1 % 2048
  match s.kcommitCheck (ringPf ref.rid) n with
  | some st => s.complete ref st
  | none =>
    let v := s.slot n
    match v.staged with
    | none => s.complete ref 0x53
    | some (key, parent, depth) =>
      if checkValue key = d.argBytes 0 8 then
        let g := s.nextGen n
        (((s.installSlot n { v with key := key, parent := parent, depth := depth })).kstStart ref (.commit n g) 0).1
      else (s.setSlot n { v with st := .live, staged := none }).complete ref 0x51

/-- R305. -/
def execKcommit (r : Rid) (s : State) : Res := s.issueKey r 0x0A (fun _ => true) State.runKcommit

/-! ## Invalidation (R310, R311) -/

/-- The chain of parents of slot `n` reaches `t`, within `k` links. -/
def State.reaches (s : State) (t : Nat) : Nat → Nat → Bool
  | 0, n => decide (n = t)
  | k + 1, n => decide (n = t) || (match (s.slot n).parent with
      | some p => s.reaches t k p
      | none => false)

/-- What a `KINVAL` of slot `t` marks: it and its descendants, where LIVE or STAGED. -/
def State.marked (s : State) (t : Nat) : List Nat :=
  (s.kst.slots.filter fun e => (s.slot e.1).usable && s.reaches t 9 e.1).map (·.1)

def State.kinvalCheck (s : State) (n : Nat) : Option Nat :=
  firstFail [
    (decide (1087 < n), 0x1B), (s.slotLcBad n, 0x54), (decide ((s.slot n).st = .invalidating), 0x50),
    (!(s.slot n).usable || decide (n = 1024), 0x53), (s.copyBusy n, 0x50)]

def State.runKinval (s : State) (d : Desc) (ref : CmdRef) : State :=
  let n := d.p1 % 2048
  match s.kinvalCheck n with
  | some st => s.complete ref st
  | none =>
    let ms := s.marked n
    (ms.foldl (fun s i => s.setSlot i { s.slot i with st := .invalidating, staged := none }) (s.accept ref)).modKst
      fun k => { k with marking := some { ref := ref, slots := ms } }

/-- R310: no operation starts until the live-slot vector is published. -/
def execKinval (r : Rid) (s : State) : Res := s.issueKey r 0x0B (fun _ => true) State.runKinval

/-- Loads that were held back are checked and begun, unless the key store stays closed; regions first, which draw from the lower
instance (R333). -/
def State.resumeLoads (s : State) : State :=
  if s.kstClosed then s
  else
    let s1 := (List.finRange 8).foldl (fun s r => match (s.rgn r).unchecked with | some n => s.regionBegin r n | none => s) s
    match s1.uci.load with
    | some l => if l.unchecked then s1.uciBegin l.slot l.ctx else s1
    | none => s1

/-- R310 step 3, R311: copies of the marked slots' keys go, the sweep begins, tombstones are written. -/
def State.publish (s : State) (v : Kinval) : State :=
  let p := fun (n : Nat) => v.slots.contains n
  let s1 := s.modKst fun k => { k with
    marking := none, invals := k.invals ++ [v], sweeping := true, reserve := k.reserve.filter fun e => !p e.slot }
  let s2 := ((s1.lknEraseWhere p true allLkns).rgnEraseWhere p (List.finRange 8)).modUci fun u => u.erase p
  let s3 := (v.slots.filter fun n => decide (1024 ≤ n)).foldl State.queueTomb s2.dropOrphans
  s3.resumeLoads.settleInvals

/-- R310. -/
def execKinvalPublish (s : State) : Res :=
  match s.kst.marking with
  | some v => mateEnd (s.publish v)
  | none => idle s

/-- R311: a marked slot whose sweep, erasures and tombstone are complete becomes EMPTY. -/
def execSlotInvalidationDone (slot : Fin 1088) (s : State) : Res :=
  let n := slot.val
  if (s.slot n).st = .invalidating ∧ !s.unpublished n ∧ !s.kst.sweeping ∧ !s.copyBusy n then
    finish (s.setSlot n {}).settleInvals
  else idle s

/-! ## Derivation (R309) -/

def State.kderiveCheck (s : State) (pf : Fin 2) (d : Desc) : Option Nat :=
  let n := d.p1 % 2048
  let p := d.p2 % 2048
  let w := BitVec.ofNat 32 (d.arg 0 4)
  firstFail [
    (decide (1087 < n) || decide (1087 < p) || s.attrBad w n || decide (d.arg 4 1 = 0) || decide (48 < d.arg 4 1)
      || decide (48 < d.arg 5 1) || decide (d.arg 8 1 = 0xED), 0x1B),
    (s.persistBad n || s.slotLcBad p, 0x54), (s.slotPfBad p pf, 0x53), (s.newBad n, 0x50),
    (!((s.slot p).usable && (s.slot p).a 2), 0x53), (s.copyBusy n, 0x50), (s.childBad w n p true, 0x1B), (s.genBad n, 0x1B)]

/-- The key that a `KDERIVE` gives: 256 bits, or a P-256 scalar for ATTEST usage. -/
def State.derived (s : State) (d : Desc) : Bytes :=
  let key := (s.slot (d.p2 % 2048)).key
  let label := d.argBytes 8 (d.arg 4 1)
  let ctx := d.argBytes 56 (d.arg 5 1)
  if natBit (d.arg 0 4) 5 then scalarOf (kdf key label ctx 384) else kdf key label ctx 256

def State.runKderive (s : State) (d : Desc) (ref : CmdRef) : State :=
  match s.kderiveCheck (ringPf ref.rid) d with
  | some st => s.complete ref st
  | none =>
    let p := d.p2 % 2048
    (s.kstStart ref (.install (d.p1 % 2048)
      { attr := BitVec.ofNat 32 (d.arg 0 4), key := s.derived d, parent := some p, depth := (s.slot p).depth + 1 }) 0).1

/-- R309. -/
def execKderive (r : Rid) (s : State) : Res := s.issueKey r 0x0C (fun _ => true) State.runKderive

/-! ## Attestation (R319, R320) -/

/-- The signature `r ‖ s` of the scalar `key` over `msg`, with the per-signature secret taken from `draw`. -/
def ecdsaSign (key draw msg : Bytes) : Bytes :=
  let k := beNat draw % (P256.n - 1) + 1
  let r := match P256.smul 256 k (some P256.g) with
    | some (x, _) => x % P256.n
    | none => 0
  beBytes 32 r ++ beBytes 32 (invMod P256.n k * (beNat (sha256 msg) + r * beNat key) % P256.n)

/-- The public key `X ‖ Y` of a scalar. -/
def publicKey (key : Bytes) : Bytes :=
  match P256.smul 256 (beNat key) (some P256.g) with
  | some (x, y) => beBytes 32 x ++ beBytes 32 y
  | none => List.replicate 64 0

/-- PART of Table 10-9. -/
def Part.code : Part → Nat
  | .jmc7720 => 0x7720 | .jmc7720I => 0x17720 | .jmc7710 => 0x7710

/-- Attribute word and generation of every slot, in slot order. -/
def State.slotsBytes (s : State) : Bytes :=
  (List.range 1088).flatMap fun n => leBytes 4 (s.slot n).attr.toNat ++ leBytes 4 (s.slot n).gen

/-- The response of Table 10-9. -/
def State.attestBytes (s : State) (slot : Nat) (key idKey : Bytes) (gen : Nat) (attr : W32) (nonce : Bytes) (draws : List Bytes) :
    Bytes :=
  let full := decide (s.otp.evidence = 512)
  let pub := publicKey key
  let who := leBytes 2 slot ++ [0, 0] ++ leBytes 4 gen ++ leBytes 4 attr.toNat
  let ends := if slot = 1024 then List.replicate 64 0 else ecdsaSign idKey (draws.headD []) (s.otp.deviceId ++ who ++ pub)
  let body := [1, 0, byteOf s.kst.lc, 0xB1] ++ leBytes 4 s.otp.part.code ++ s.otp.deviceId ++ nonce
    ++ leBytes 4 (s.otp.evidence + 1024 * b2n full + 2048 * b2n s.logFull) ++ leBytes 2 s.tmp.logNext ++ [0, 0]
    ++ leBytes 4 s.kst.attSeq ++ who ++ padTo 32 s.rst.digest ++ sha256 s.slotsBytes ++ pub ++ ends
  body ++ ecdsaSign key (draws.getLastD []) body

def State.attestCheck (s : State) (pf : Fin 2) (n : Nat) : Option Nat :=
  firstFail [
    (decide (1087 < n), 0x1B), (s.slotLcBad n || decide (s.kst.lc ≠ 2), 0x54), (s.slotPfBad n pf, 0x53),
    (!(decide ((s.slot n).st = .live) && (s.slot n).a 5), 0x53), (s.noEntropy, 0x52)]

def State.runAttest (s : State) (d : Desc) (ref : CmdRef) : State :=
  let n := d.p1 % 2048
  match s.attestCheck (ringPf ref.rid) n with
  | some st => s.complete ref st
  | none =>
    let v := s.slot n
    let draws := if n = 1024 then 1 else 2
    let (s1, id) := s.kstStart ref (.attest n v.key (s.slot 1024).key v.gen v.attr (d.argBytes 0 32) (d.arg 32 8)) draws
    let s2 := s1.drawFor 1 id 32
    if n = 1024 then s2 else s2.drawFor 1 id 32

/-- R319. -/
def execAttest (r : Rid) (s : State) : Res := s.issueKey r 0x0D (fun _ => true) State.runAttest

/-! ## The end of an operation (R300, R308) -/

/-- Place a key that an operation made, unless its slot was erased or claimed otherwise since. -/
def State.endInstall (s : State) (j : KJob) (n : Nat) (v : Slot) : State :=
  if j.erased ∨ (s.slot n).st ≠ .empty then s.complete j.ref 0x34
  else (s.installSlot n v).complete j.ref 0 (leNat (checkValue v.key))

def State.endJob (s : State) (j : KJob) (hostErr : Bool) : State :=
  match j.op with
  | .install n v => s.endInstall j n v
  | .installDrawn n v => s.endInstall j n { v with key := j.drawn.headD [] }
  | .stageDrawn n => s.endDrawnStage j n
  | .commit _ g => s.complete j.ref 0 g
  | .attest n key idKey gen attr nonce addr =>
    let s1 := s.modKst fun k => { k with attSeq := (k.attSeq + 1) % 2 ^ 32 }
    if hostErr then s1.complete j.ref 0x19
    else (s1.hostWrite (ringPf j.ref.rid) addr (s1.attestBytes n key idKey gen attr nonce j.drawn)).complete j.ref 0

/-- The operation ends with a write to host memory, which waits for the host interface (R45). -/
def KOp.writesHost : KOp → Bool
  | .attest _ _ _ _ _ _ _ => true
  | _ => false

/-- R308: an operation that has all its draws completes. -/
def execKstOpComplete (i : Nat) (hostErr : Bool) (s : State) : Res :=
  match s.kst.jobs[i]? with
  | none => idle s
  | some j =>
    if j.need ≤ j.drawn.length && (s.hstLive || !j.op.writesHost) then
      finish ((s.modKst fun k => { k with jobs := k.jobs.filter fun x => decide (x.id ≠ j.id) }).endJob j hostErr)
    else idle s

/-! ## Life-cycle transitions (R321-R323, Table 10-12) -/

/-- The transition moves on where the MTP write it awaits has ended: erasures, the epoch record, the fuse. -/
def State.lcAdvance (s : State) : State :=
  match s.kst.lcPhase with
  | some (.log t) =>
    if s.kst.mtpJobs.any fun j => decide (j.kind = .log ∨ j.kind = .retire) then s
    else
      let s1 := s.zeroErase
      if t = 2 then s1.modKst fun k => { k with lcPhase := some (.fuse t) }
      else (s1.retireEpoch false).modKst fun k => { k with lcPhase := some (.epoch t) }
  | some (.epoch t) =>
    if s.kst.epoch = 2 ^ 32 - 1 ∧ s.kst.mtpJobs.any (fun j => decide (j.kind = .eraseCopies)) then s
    else if s.kst.mtpJobs.any fun j => decide (j.kind = .epoch) then s
    else s.modKst fun k => { k with lcPhase := some (.fuse t) }
  | _ => s

/-- A write of KST_LC_TARGET from PF1. -/
def State.lcTarget (s : State) (v : Nat) : State := (s.setReg (Reg.kst 0x10) (v % 8)).modKst fun k => { k with lcWindow := true, lcShut := none }

/-- R323. -/
def execLcTargetWrite (pf : Fin 2) (v : W32) (s : State) : Res :=
  if !s.islandLive then idle s
  else if pf = 0 then finish (s.lockedWrite pf (Reg.kst 0x10) v.toNat)
  else finish (s.lcTarget v.toNat)

/-- R323: 1 ms after the write of KST_LC_TARGET. -/
def execLcWindowExpire (s : State) : Res :=
  if s.kst.lcWindow then finish (s.modKst fun k => { k with lcWindow := false, lcShut := some s.now }) else idle s

/-- A GO is within the 1 ms, or on the edge on which it expires (R8). -/
def State.lcOpen (s : State) : Bool := s.kst.lcWindow || decide (s.kst.lcShut = some s.now)

/-- Table 10-11: the officer's transitions. -/
def lcAllowed (a b : Nat) : Bool := decide ((a = 1 ∧ b = 2) ∨ (a = 2 ∧ b = 3) ∨ ((a = 1 ∨ a = 2 ∨ a = 3) ∧ b = 4))

/-- ERR of a GO: 0 where it is accepted. -/
def State.lcError (s : State) (v : Nat) : Nat :=
  let t := v % 8
  if !s.lcOpen || decide (v / 65536 ≠ 0x4C43) || decide (t ≠ s.reg (Reg.kst 0x10)) then 2
  else if !lcAllowed s.kst.lc t || s.kst.lcPhase.isSome then 1
  else if t = 2 ∧ ¬ (s.rng.st = .run ∧ s.rng.drbg.all (·.inst)) then 3
  else if s.mtpBusy then 4
  else 0

/-- A write of KST_LC_GO from PF1: accepted, it stops the key store, and instructions in progress write no record. -/
def State.lcGo (s : State) (v : Nat) : State :=
  let t := v % 8
  let e := s.lcError v
  let s1 := s.modKst fun k => { k with lcLast := t, lcErr := e }
  if e ≠ 0 then s1.setBit (Reg.kst 0x18) 6
  else
    let s2 := s1.modKst fun k => { k with lcWindow := false, lcShut := none, lcPhase := some (.log t), jobs := [], marking := none, invals := [] }
    let s3 := s2.modRng fun r => { r with waiting := r.waiting.filter fun q => match q.user with
      | .kst _ => false
      | _ => true }
    (s3.logAppend 3 0 0 t (decide (3 ≤ t))).lcAdvance

/-- R323. -/
def execLcGo (pf : Fin 2) (v : W32) (s : State) : Res :=
  if !s.islandLive then idle s
  else if pf = 0 then finish (s.lockedWrite pf (Reg.kst 0x14) v.toNat)
  else mateEnd (s.lcGo v.toNat)

/-! ## MTP writes (R312, R313, R435) -/

/-- A response whose last MTP write has ended is over; for HOLD the domains are held next (Table 15-3). -/
def State.execEnd (s : State) : State :=
  if s.kst.mtpJobs.any (·.endsExec) || s.tmp.evJobs.any (fun j => decide (j ≠ .backup)) then s
  else if s.tmp.exec = some 5 then s.modTmp fun t => { t with holdDue := true }
  else s.modTmp fun t => { t with exec := none }

/-- R312, R313, R435, R436: the oldest MTP write ends. -/
def execMtpWriteDone (s : State) : Res :=
  match s.kst.mtpJobs with
  | [] => idle s
  | j :: js =>
    let s2 := (s.modKst fun k => { k with mtpJobs := js }).applyMtp j
    let s3 := if j.clearsPending then s2.modBkp fun b => { b with pending := false } else s2
    let s4 := if j.endsExec then s3.execEnd else s3
    mateEnd s4.lcAdvance

/-! ## The start of the key store (R313, R314, R317, R435) -/

/-- Entry `i` of the accession log. -/
def State.logAt (s : State) (i : Nat) : Bytes := s.mtpRead (0x8000 + 16 * i) 16

/-- An entry whose CRC holds. -/
def entryGood (e : Bytes) : Bool := decide (slice e 14 2 = crcMark (e.take 14))

/-- An entry retires storage epoch `epoch`: ZEROIZE, HOLD, or a transition to RETURNED or SCRAPPED. A LOG_FULL entry holds the
event's type in ARG; a transition out of SECURED or RETURNED retires it. -/
def entryRetires (epoch : Nat) (e : Bytes) : Bool :=
  let type := (byteAt e 0).toNat
  let rank := (byteAt e 1).toNat % 8
  let arg := beNat (slice e 12 2)
  entryGood e && decide (beNat (slice e 8 4) = epoch)
    && decide ((type = 1 ∧ 4 ≤ rank) ∨ (type = 3 ∧ 3 ≤ arg) ∨ (type = 7 ∧ arg = 1 ∧ 4 ≤ rank) ∨ (type = 7 ∧ arg = 3 ∧ 2 ≤ (byteAt e 4).toNat))

/-- Entries of the log up to LOG_NEXT, and the retirement record. -/
def State.logAll (s : State) : List Bytes := (List.range s.tmp.logNext).map s.logAt
def State.retireRecs (s : State) : List Bytes := [s.mtpRead 0x4020 16, s.mtpRead 0x4030 16]

/-- The change of storage epoch that an earlier entry announced is completed (R313). -/
def State.finishRetire (s : State) : State :=
  let e := s.kst.epoch
  if (s.logAll ++ s.retireRecs).any (entryRetires e) then
    if e = 2 ^ 32 - 1 then s.eraseCopyArea
    else
      let toB := match s.epochRecord with
        | some (_, b) => !b
        | none => false
      let b := epochBytes (e + 1) (s.kst.epochSeq + 1) false
      ((s.mtpWrite (if toB then 0x4010 else 0x4000) b).eraseCopyArea).modKst fun k => { k with
        epoch := e + 1, epochSeq := k.epochSeq + 1, provDone := false }
  else s

/-- Restore persistent slot `n` from its copy in force (R312). -/
def State.restoreSlot (s : State) (n : Nat) : State :=
  match s.inForce n with
  | some (c, _) =>
    if c.tomb then s
    else s.setSlot n { st := .live, key := c.key, attr := c.attr, parent := c.parent, depth := c.depth, gen := c.gen,
                       hw := decide (n = 1025) }
  | none => s

/-- Restore a reserve entry (R314), or discard and count it. -/
def State.restoreReserve (s : State) (e : Reserve) : State :=
  let live : Bool := match e.parent with
    | some p => decide ((s.slot p).st = .live)
    | none => true
  if live then
    (s.setSlot e.slot { st := .live, key := e.key, attr := e.attr, parent := e.parent, depth := e.depth, gen := s.kst.gen }).modKst
      fun k => { k with gen := k.gen + 1 }
  else (s.modKst fun k => { k with reserve := k.reserve.filter (·.slot ≠ e.slot) }).countDev 9 1 0

/-- Slot 1,024 (R317, Table 10-5). -/
def State.identity (s : State) (root : Bytes) : Slot :=
  { st := .live, key := scalarOf (kdf root labelIdentity s.otp.deviceId 384), attr := 0x0002C020, gen := 1, hw := true }

/-- The slots that a start in SECURED restores. -/
def State.startSecured (s : State) (root : Bytes) : State :=
  let s1 := (s.deriveStore root s.kst.epoch)
  let s2 := (List.range 63).foldl (fun s i => s.restoreSlot (1025 + i)) s1
  s2.setSlot 1024 (s2.identity root)

/-- COUNTER_FULL has an entry: its own, or the one that found the log full (R434, R436). -/
def entryFull (e : Bytes) : Bool :=
  entryGood e && (decide (byteAt e 0 = 6) || decide (byteAt e 0 = 7 ∧ beNat (slice e 12 2) = 6))

/-- The log is read: torn entries are counted, COUNTER_FULL looked up; a pending backup event gets its entry, and a counter that is
full and has none gets its own (R433-R436). -/
def State.startLog (s : State) : State :=
  let es := s.logAll
  let s1 := s.countDev 0xE 2 0 (es.countP fun e => !entryGood e)
  let s2 := s1.modTmp fun t => { t with fullLogged := t.fullLogged || es.any entryFull }
  if s2.bkp.pending then (s2.logAppend 2 0 (bkpSources s2.bkp.firedSrc).toNat 0 false false true).fullEntry
  else if s2.logFull then s2
  else s2.fullEntry

/-- The storage epoch record in force is read. -/
def State.loadEpoch (s : State) : State :=
  match s.epochRecord with
  | some ((e, q, prov), _) => s.modKst fun k => { k with epoch := e, epochSeq := q, provDone := prov }
  | none => s.modKst fun k => { k with epoch := 0, epochSeq := 0, provDone := false }

/-- The meaning of a key store instruction once it can start. -/
def keyRun (d : Desc) : Option (State → Desc → CmdRef → State) :=
  if d.mop = 0x08 then some State.runKwrapin
  else if d.mop = 0x09 then (if d.op = 0 then some State.runKstageWrapped else if d.op = 1 then some State.runKstageRng else none)
  else if d.mop = 0x0A then some State.runKcommit
  else if d.mop = 0x0B then some State.runKinval
  else if d.mop = 0x0C then some State.runKderive
  else if d.mop = 0x0D then some State.runAttest
  else none

/-- A key store instruction that waits in CHECK in ring `r` is checked, and accepted where its checks pass. -/
def State.runHead (s : State) (r : Rid) : State :=
  match s.waitingHead r with
  | some d => (match keyRun d with
    | some run => s.keyHead r d run
    | none => s)
  | none => s

/-- READY sets: on that edge the instructions that wait in CHECK are checked, by ascending curator (R307, R207), and the loads that
wait begin. -/
def State.setReady (s : State) : State :=
  cmdRids.foldl State.runHead (s.modKst fun k => { k with ready := true, started := true }).resumeLoads

/-- R313, R314, R317: the key store starts, once the RNG delivers and no MTP write is in progress; in SECURED not before the root
exists. In BLANK and SCRAPPED there is nothing to start. -/
def execKstStart (s : State) : Res :=
  if !s.islandLive || s.kst.started || s.kst.lcPhase.isSome || s.mtpBusy then idle s
  else
    let s0 := s.loadEpoch.finishRetire.startLog
    let done := fun (s : State) => (s.kst.reserve.foldl State.restoreReserve s).setReady
    if !s.lcRuns then finish (s0.modKst fun k => { k with started := true })
    else if !s.delivers 0 then idle s
    else if s.kst.lc ≠ 2 then mateEnd (done s0)
    else match s.otp.root with
      | some root => mateEnd (done (s0.startSecured root))
      | none => idle s

/-! ## The root and provisioning (R316, R318) -/

/-- The draw of a root, where none is under way. -/
def State.askRoot (s : State) : State :=
  if s.kst.rootDraw.isSome || s.rng.waiting.any (fun q => decide (q.user = .root)) then s
  else match s.rngAsk 0 .root 32 with
    | (s1, .data bs) => s1.rngDeliver .root bs
    | (s1, _) => s1

/-- The root is to be generated: SECURED, no bank valid, no failure of both. -/
def State.rootDue (s : State) : Bool :=
  s.islandLive && decide (s.kst.lc = 2) && !blown s.otp.validA && !blown s.otp.validB && !s.kst.rootFail

/-- R316: the draw is programmed into bank A, or into bank B once A has failed; `okA` and `okB` say whether the bank programs and
verifies. Without a draw in hand one is asked for. -/
def execRootGenerate (okA okB : Bool) (s : State) : Res :=
  if !s.rootDue then idle s
  else match s.kst.rootDraw with
    | none => finish s.askRoot
    | some key =>
      let chk := BitVec.ofNat 16 (crc16 0x1021 0xFFFF key)
      let s1 := s.modKst fun k => { k with rootDraw := none }
      if !s.kst.rootTriedA then
        if okA then finish (s1.modOtp fun o => { o with rootA := key, chkA := chk, validA := 0xFF })
        else finish (s1.modKst fun k => { k with rootTriedA := true }).askRoot
      else if okB then finish (s1.modOtp fun o => { o with rootB := key, chkB := chk, validB := 0xFF })
      else finish (s1.modKst fun k => { k with rootFail := true })

/-- The conditions of R318. -/
def State.provCan (s : State) (v : Nat) : Bool :=
  decide (v / 65536 = 0x5056) && decide (s.kst.lc = 2) && s.kst.ready && !s.kst.provDone && decide ((s.slot 1025).st = .empty)
    && !s.mtpBusy && s.kst.lcPhase.isNone

/-- A write of KST_PROV_GO from PF1. -/
def State.provGo (s : State) (v : Nat) : State :=
  let key := s.kst.prov
  let s1 := s.modKst fun k => { k with prov := List.replicate 32 0 }
  if s.provCan v then
    let s2 := (s1.installSlot 1025 { key := key, attr := 0x00028F02, hw := true }).queueEpoch s.kst.epoch true false
    (s2.modKst fun k => { k with provChk := checkValue key }).logAppend 4 0 0 0
  else s1.setBit (Reg.kst 0) 10

/-- R318. -/
def execProvGo (pf : Fin 2) (v : W32) (s : State) : Res :=
  if !s.islandLive then idle s
  else if pf = 0 then finish (s.lockedWrite pf (Reg.kst 0x40) v.toNat)
  else finish (s.provGo v.toNat)

/-! ## Health tests and failure of the RNG (R328, R329, R336) -/

/-- The RNG fails (R336), its tamper source fires and the mate logic hears of it. -/
def State.rngFailure (s : State) (cause smp : Nat) : State :=
  ((s.rngFailCore cause smp).tamperFire (1#12 <<< 9)).mateFinding 1

/-- The samples of a window: in pattern mode a sampler in use gives its share of the PRBS (R338). -/
def State.windowBits (s : State) (k : Fin 8) (bits : List Bool) : List Bool × W32 :=
  let x := s.rng.samplers[k]
  if s.rng.st = .test ∧ s.rng.mode = 2 ∧ s.rng.smpEn.getLsbD k.val then prbsEvery s.rng.inUse 1024 x.prbs else (bits, x.prbs)

/-- R328, R329: a window of 1,024 samples of sampler `k` ends. Its figures are kept for every sampler; the health tests look at the
samplers in use, and not at the first two windows of a start-up (R330). -/
def execSamplerWindowEnd (k : Fin 8) (bits : List Bool) (s : State) : Res :=
  if s.rng.st ≠ .reset ∧ bits.length = 1024 then
    let r := s.rng
    let x := r.samplers[k]
    let (w, prbs) := s.windowBits k bits
    let tests := (decide (r.st = .startup) && decide (2 ≤ x.windows) || decide (r.st = .run)) && r.smpEn.getLsbD k.val
    let bias := windowStat (w.countP id)
    let corr := windowStat (agreements x.lastBit w)
    let (longest, run) := longestRep x.lastBit x.run w 0
    let same := w.countP fun b => decide (some b = w.head?)
    let s1 := s.modRng fun r => { r with samplers := r.samplers.set k {
      lastBit := w.getLast?, run := if tests then run else 0, windows := x.windows + 1
      bias := BitVec.ofInt 16 bias, corr := BitVec.ofInt 16 corr, prbs := prbs } }
    let warn := decide (r.biasTh < bias.natAbs) || decide (r.corrTh < corr.natAbs)
    let s2 := if warn then (s1.setBit (Reg.rng 0x60) k.val).countDev 0xA 1 k.val else s1
    if !tests then finish s2
    else if r.rct ≤ longest then mateEnd (s2.rngFailure 1 k.val)
    else if r.apt ≤ same then mateEnd (s2.rngFailure 2 k.val)
    else finish s2
  else idle s

/-- R336: a health test or a known-answer test fails. -/
def execRngFail (cause : Fin 5) (smp : Fin 8) (s : State) : Res :=
  if (s.rng.st = .startup ∨ s.rng.st = .run) ∧ cause ≠ 0 then mateEnd (s.rngFailure cause.val smp.val) else idle s

end Sys2Proof.Machine
end

