-- ==== Sys2Proof/Machine/Wire.lean ====
section
/-! DEFINITION. What a line lane carries (chapter 2, Lanes): the words of a sheet striped over the LANEs (R68), the scrambler and
RS(544,514) (R70), and their inverses. PRESUMED from IEEE 802.3, log entry 119: the order of the bits of a word on the lane,
the field and the generator of the code, and the order of a codeword's symbols. -/

namespace Sys2Proof.Machine

/-! ## Striping (R68) -/

/-- The words of a byte string, 8 bytes each; the first byte's low bit is the first on the lane. -/
def wordsOf (bs : Bytes) : List Nat := (chunksOf 8 bs).map leNat

/-- Words of a ream on one LANE of `n`, and the LANEs that have a word more than the others (0: none). -/
def wordsPerLane (n : Nat) : Nat := (1024000 + n - 1) / n
def fillFrom (n : Nat) : Nat := 1024000 % n

/-- The words that LANE `k` of `n` sends of a run of words whose first has number `w` in the ream. -/
def laneShare (n k : Nat) : Nat → List Nat → List Nat
  | _, [] => []
  | w, x :: xs => if w % n = k then x :: laneShare n k (w + 1) xs else laneShare n k (w + 1) xs

/-- Put the LANEs' words together again: `c` words from number `w` on; none where a LANE does not have its word. -/
def joinShares (n : Nat) : Nat → Nat → List (List Nat) → Option (List Nat)
  | _, 0, ls => if ls.all (·.isEmpty) then some [] else none
  | w, c + 1, ls =>
    match ls[w % n]? with
    | some (x :: xs) => (joinShares n (w + 1) c (ls.set (w % n) xs)).map (x :: ·)
    | _ => none

/-! ## The scrambler 1 + x^39 + x^58 (R70) -/

/-- 32 bits through the scrambler: bit `i` of the register is the bit sent 58 − i before. -/
def scramble32 (reg x : Nat) : Nat × Nat :=
  let y := (x ^^^ (reg / 2 ^ 19)) % 2 ^ 32 ^^^ reg % 2 ^ 32
  (y, (reg + y * 2 ^ 58) / 2 ^ 32)

/-- A word of 64 bits, and the register after it. -/
def scrambleWord (reg x : Nat) : Nat × Nat :=
  let a := scramble32 reg (x % 2 ^ 32)
  let b := scramble32 a.2 (x / 2 ^ 32 % 2 ^ 32)
  (a.1 + b.1 * 2 ^ 32, b.2)

def scrambleWords : Nat → List Nat → List Nat × Nat
  | reg, [] => ([], reg)
  | reg, x :: xs =>
    let a := scrambleWord reg x
    let r := scrambleWords a.2 xs
    (a.1 :: r.1, r.2)

/-- `n` received bits behind the 58 bits `prior`, descrambled. -/
def descramble (prior y n : Nat) : Nat :=
  let z := prior % 2 ^ 58 + y * 2 ^ 58
  (z ^^^ z * 2 ^ 39 ^^^ z * 2 ^ 58) / 2 ^ 58 % 2 ^ n

def descrambleWords : Nat → List Nat → List Nat
  | _, [] => []
  | prior, y :: ys => descramble prior y 64 :: descrambleWords (y / 2 ^ 6 % 2 ^ 58) ys

/-! ## The field of 1,024 elements, x^10 + x^3 + 1 -/

def Gf.double (a : Nat) : Nat := if a < 512 then 2 * a else (2 * a) ^^^ 0x409
def Gf.mulBits : Nat → Nat → Nat → Nat
  | 0, _, _ => 0
  | n + 1, a, b => (if b % 2 = 1 then a else 0) ^^^ Gf.mulBits n (Gf.double a) (b / 2)
def Gf.mul (a b : Nat) : Nat := Gf.mulBits 10 a b
def Gf.pow (a : Nat) : Nat → Nat
  | 0 => 1
  | n + 1 => Gf.mul a (Gf.pow a n)
/-- The `n`-th power of the primitive element x. -/
def Gf.alpha (n : Nat) : Nat := (List.range (n % 1023)).foldl (fun a _ => Gf.double a) 1
/-- The inverse, a^1022, by squaring. -/
def Gf.inv (a : Nat) : Nat := ((List.range 9).foldl (fun s _ => let p := Gf.mul s.1 s.1; (p, Gf.mul s.2 p)) (a, 1)).2

/-- Polynomials with the coefficient of x^0 first. -/
def Gf.eval (p : List Nat) (x : Nat) : Nat := p.foldr (fun c acc => c ^^^ Gf.mul x acc) 0
def Gf.addP (p q : List Nat) : List Nat := (List.range (max p.length q.length)).map fun i => p.getD i 0 ^^^ q.getD i 0
def Gf.scaleP (c : Nat) (p : List Nat) : List Nat := p.map (Gf.mul c)
def Gf.mulP (p q : List Nat) : List Nat := p.foldr (fun c acc => Gf.addP (Gf.scaleP c q) (0 :: acc)) []

/-! ## RS(544,514) (R70) -/

/-- The product of x − α^i for i below 30. -/
def Rs.gen : List Nat := (List.range 30).foldl (fun g i => Gf.mulP g [Gf.alpha i, 1]) [1]

/-- One message symbol enters the division; the register holds the remainder, coefficient of x^0 first. -/
def Rs.shift (reg : List Nat) (m : Nat) : List Nat :=
  let f := m ^^^ reg.getD 29 0
  Gf.addP (0 :: reg.take 29) (Gf.scaleP f (Rs.gen.take 30))

/-- The codeword of 514 message symbols: the message, then the 30 parity symbols, that of x^29 first. -/
def Rs.encode (msg : List Nat) : List Nat := msg ++ (msg.foldl Rs.shift (List.replicate 30 0)).reverse

/-- The 30 syndromes of a received word. -/
def Rs.syndromes (cw : List Nat) : List Nat := (List.range 30).map fun i => Gf.eval cw.reverse (Gf.alpha i)

/-- The state of the search for the error locator (Berlekamp and Massey). -/
structure Rs.Search where
  loc : List Nat := [1]
  prev : List Nat := [1]
  len : Nat := 0
  gap : Nat := 1
  last : Nat := 1

def Rs.step (synd : List Nat) (x : Rs.Search) (n : Nat) : Rs.Search :=
  let d := (List.range (x.len + 1)).foldl (fun a i => a ^^^ Gf.mul (x.loc.getD i 0) (synd.getD (n - i) 0)) 0
  if d = 0 then { x with gap := x.gap + 1 }
  else
    let fixed := Gf.addP x.loc (List.replicate x.gap 0 ++ Gf.scaleP (Gf.mul d (Gf.inv x.last)) x.prev)
    if 2 * x.len ≤ n then { loc := fixed, prev := x.loc, len := n + 1 - x.len, gap := 1, last := d }
    else { x with loc := fixed, gap := x.gap + 1 }

/-- The error at the symbol of x^p (Forney): 0 where the locator has no root for it. -/
def Rs.errorAt (loc omega : List Nat) (p : Nat) : Nat :=
  let inv := Gf.alpha (1023 - p)
  if Gf.eval loc inv ≠ 0 then 0
  else
    let slope := (List.range loc.length).map fun i => if i % 2 = 0 then loc.getD (i + 1) 0 else 0
    Gf.mul (Gf.alpha p) (Gf.mul (Gf.eval omega inv) (Gf.inv (Gf.eval slope inv)))

/-- The codeword within 15 symbols of a received word; none: the word is uncorrectable. -/
def Rs.decode (cw : List Nat) : Option (List Nat) :=
  if cw.length ≠ 544 then none
  else
    let synd := Rs.syndromes cw
    if synd.all (· = 0) then some cw
    else
      let x := (List.range 30).foldl (Rs.step synd) {}
      if 15 < x.len then none
      else
        let omega := (Gf.mulP synd x.loc).take 30
        let out := (cw.reverse.mapIdx fun p c => c ^^^ Rs.errorAt x.loc omega p).reverse
        if (Rs.syndromes out).all (· = 0) then some out else none

/-- A received codeword is correctable (R72). -/
def Rs.correctable (cw : List Nat) : Bool := (Rs.decode cw).isSome

/-! ## The transmit chain of a lane -/

/-- Symbols of 10 bits, the first one in the low bits. -/
def symbols (x : Nat) : Nat → List Nat
  | 0 => []
  | n + 1 => x % 1024 :: symbols (x / 1024) n

/-- A scrambled word joins the message stream; a full message leaves as a codeword. -/
def WireTx.put (x : WireTx) (y : Nat) : WireTx × List (List Nat) :=
  let all := x.pend + y * 2 ^ x.bits
  if x.bits + 64 < 5140 then ({ x with pend := all, bits := x.bits + 64 }, [])
  else ({ x with pend := all / 2 ^ 5140, bits := x.bits + 64 - 5140 }, [Rs.encode (symbols all 514)])

/-- Words and markers enter the scrambler, then the FEC (R70). -/
def WireTx.send : WireTx → List Nat → WireTx × List (List Nat)
  | x, [] => (x, [])
  | x, w :: ws =>
    let a := scrambleWord x.scr w
    let b := { x with scr := a.2 }.put a.1
    let r := b.1.send ws
    (r.1, b.2 ++ r.2)

/-- What the transmitter of a lane sends; nothing while it is idle or the burst runs (R375 to R377). -/
def State.wireLane (s : State) (m : Fin 4) (j : Fin 8) (ws : List Nat) : State :=
  let n := lineLane m j
  if !s.laneSends n then s
  else
    let r := (s.line m).wire[j].send ws
    (s.modLine m fun l => { l with wire := l.wire.set j r.1 }).emits (r.2.map (Out.codeword n.val))

/-- Each line lane of mill `m` sends its share, by physical lane: words of LANE `k` for the lane that is `k`-th in `set`, standby
fill of as many 0x00 words as LANE 0 has for the others (R377). -/
def State.wireAll (s : State) (m : Fin 4) (set : List (Fin 8)) (share : Nat → List Nat) : State :=
  (List.finRange 8).foldl (fun s j =>
    s.wireLane m j (if set.contains j then share (set.idxOf j) else List.replicate (share 0).length 0)) s

/-- A sheet's bytes go out: word `w` of the ream on LANE `w mod N`; after the last word of a ream the LANEs that are one word short
send a fill word of 0x00 (R68). -/
def State.wireSheet (s : State) (m : Fin 4) (set : List (Fin 8)) (idx : Nat) (bs : Bytes) : State :=
  let n := set.length
  let fill := fun k => if idx = 499 ∧ fillFrom n ≠ 0 ∧ fillFrom n ≤ k then [0] else []
  s.wireAll m set fun k => laneShare n k (2048 * idx) (wordsOf bs) ++ fill k

/-- The markers of a ream start go out, one on each LANE of the set (R69). -/
def State.wireMarkers (s : State) (m : Fin 4) (set : List (Fin 8)) (ms : List Bytes) : State :=
  s.wireAll m set fun k => wordsOf (ms.getD k [])

/-! ## The receive chain -/

/-- The 128-bit window that a lane delivers behind 58 earlier bits, descrambled (R70). -/
def markerWindow (o : MarkerObs) : Bytes := leBytes 16 (descramble o.prior.toNat o.bits.toNat 128)

/-- The bytes of the sheet with SHEET_IDX `idx` from what the LANEs deliver of it; none where a LANE's part does not have the size of
its share (R68, R70). -/
def sheetBytes (idx : Nat) (ls : List LaneRx) : Option Bytes :=
  (joinShares ls.length (2048 * idx) 2048 (ls.map fun l => descrambleWords l.prior.toNat (l.words.map (·.toNat)))).map
    fun ws => ws.flatMap (leBytes 8)

/-- A sheet's overhead cell, payload cells and tag cell (R48). -/
def sheetOf (bs : Bytes) : Sheet := { oh := bs.take 64, cells := chunksOf 64 (slice bs 64 16256), tag := slice bs 16320 64 }

/-- A sheet as the bytes of R48. -/
def sheetBytesOut (x : Sheet) : Bytes := x.oh ++ x.cells.flatten ++ x.tag

end Sys2Proof.Machine
end

