-- ==== Sys2Proof/Machine/LineTx.lean ====
section
/-! DEFINITION. The framer (chapters 2, 3, 4 and 8): reams and lane markers, service of payload positions, cells and frame
delimiters, the overhead cell, sealed credit entries, the dialogue's sending side, keyed and unkeyed sheets, sheet records. -/

namespace Sys2Proof.Machine

/-! ## Framer timing (R52, R374) -/

/-- The framer has timing: it is enabled and its group has a line mode. -/
def State.framerTimed (s : State) (m : Fin 4) : Bool :=
  s.txEn m && (decide (s.lineMode m = 8) || decide (s.lineMode m = 9) || decide (s.lineMode m = 0xA))

/-- The framer follows the mate's instead of its own timing (R408). -/
def State.framerFollows (s : State) : Bool := decide (s.mte.st = .sync) || decide (s.mte.st = .standby)

/-- The framer runs its own sheets and reams. -/
def State.framerRuns (s : State) (m : Fin 4) : Bool := s.millLive m && s.framerTimed m && !s.framerFollows

/-- Line transmission is permitted (Table 13-2): the grant is held and the device is not SCRAPPED. -/
def State.permitted (s : State) : Bool := s.granted && decide (s.kst.lc ≠ 4)

/-! ## Dialogue, sending side (R85-R89, R139) -/

def Dlg.busy (d : Dlg) : Bool :=
  d.host.isSome || (match d.out with | some o => o.own.isNone | none => false)

/-- The CRC-16 of Table 2-7. -/
def lineCrc (bs : Bytes) : Bytes := beBytes 2 (crc16 0x1021 0xFFFF bs)
/-- TYPE, LEN, body and CRC (R85). -/
def dlgMessage (type : Nat) (body : Bytes) : Bytes :=
  let x := byteOf type :: byteOf body.length :: body
  x ++ lineCrc x

/-- An own message (Tables 2-13, 4-5, R113); `seq` is the sequence number of the sheet that carries it. -/
def Dlg.own (d : Dlg) (seq : Nat) : OwnMsg → Bytes
  | .hello => dlgMessage 0x01 ([byteOf d.ownMin, byteOf d.ownMax, 0, 0] ++ beBytes 4 d.session.toNat)
  | .confirm v n => dlgMessage 0x02 ([byteOf v, 0, 0, 0] ++ beBytes 4 n.toNat)
  | .verchk => dlgMessage 0x03 [byteOf d.ownMin, byteOf d.ownMax, byteOf d.farMin, byteOf d.farMax]
  | .seqUpper k => dlgMessage 0x10 ([byteOf k.val, 0, 0, 0] ++ beBytes 4 (seq / 2 ^ 32))
  | .seqQuery k => dlgMessage 0x11 [byteOf k.val, 0]
  | .laneReady j => dlgMessage 0x18 [byteOf j.val, 0]
  | .laneUnready j => dlgMessage 0x19 [byteOf j.val, 0]

/-- An own message may be sent in a sheet under `cur`: SEQ_UPPER under its key only (R139), LANE_READY and LANE_UNREADY from
version 3 on (R113). -/
def Dlg.sendable (d : Dlg) (cur : Option (Fin 4)) : OwnMsg → Bool
  | .seqUpper k => decide (cur = some k)
  | .laneReady _ | .laneUnready _ => decide (3 ≤ d.ver)
  | _ => true

/-- A message of its own that cannot be sent any more is dropped; a SEQ_UPPER is counted (R139). -/
def State.dropOwn (s : State) (m : Fin 4) : OwnMsg → State
  | .seqUpper _ => s.countMill m 1 9 0
  | _ => s

/-- Start the next message: own messages in order of origin, then the host's (R139). -/
def State.dlgStart (s : State) (m : Fin 4) (cur : Option (Fin 4)) (seq : Nat) : List OwnMsg → State
  | [] =>
    let put := fun (d : Dlg) => match d.host with
      | some h => { d with
          queue := [], host := none, mseqNext := (d.mseqNext + 1) % 16
          out := some { own := none, bytes := h ++ lineCrc h, mseq := d.mseqNext } }
      | none => { d with queue := [] }
    s.modLine m fun l => { l with dlg := put l.dlg }
  | x :: xs =>
    if (s.line m).dlg.sendable cur x then
      s.modLine m fun l => { l with dlg := { l.dlg with
        queue := xs, mseqNext := (l.dlg.mseqNext + 1) % 16
        out := some { own := some x, bytes := l.dlg.own seq x, mseq := l.dlg.mseqNext } } }
    else (s.dropOwn m x).dlgStart m cur seq xs

/-- Fragments of a message. -/
def DlgOut.frags (o : DlgOut) : Nat := (o.bytes.length + 29) / 30

/-- The slot: D0, D1 and 30 fragment bytes (R85). -/
def dlgSlotBytes (ack : Option Nat) (valid eom : Bool) (frag mseq : Nat) (data : Bytes) : Bytes :=
  byteOf (b2n valid * 128 + b2n eom * 64 + frag % 8 * 8 + b2n ack.isSome * 4) :: byteOf (mseq % 16 * 16 + ack.getD 0 % 16)
    :: padTo 30 data

/-- The slot of the next sheet, and the dialogue after it. Nothing is sent or timed while LOA is declared (R86). -/
def State.dlgSlot (s : State) (m : Fin 4) (cur : Option (Fin 4)) (seq : Nat) : Bytes × State :=
  let d0 := (s.line m).dlg
  if (s.line m).defects.loa then (dlgSlotBytes none false false 0 0 [], s)
  else
    let s1 := if d0.out.isNone then s.dlgStart m cur seq d0.queue else s
    let d := (s1.line m).dlg
    let rest := dlgSlotBytes d.lastTaken false false 0 0 []
    let put := fun (o : Option DlgOut) (s : State) => s.modLine m fun l => { l with dlg := { l.dlg with out := o } }
    match d.out with
    | none => (rest, s1)
    | some o =>
      if o.frag < o.frags then
        match o.own with
        | some x =>
          if d.sendable cur x then
            let bs := match x with
              | .seqUpper _ => d.own seq x
              | _ => o.bytes
            (dlgSlotBytes d.lastTaken true (decide (o.frag + 1 = o.frags)) o.frag o.mseq (slice bs (30 * o.frag) 30),
              put (some { o with bytes := bs, frag := o.frag + 1, wait := 0 }) s1)
          else (rest, put none (s1.dropOwn m x))
        | none =>
          (dlgSlotBytes d.lastTaken true (decide (o.frag + 1 = o.frags)) o.frag o.mseq (slice o.bytes (30 * o.frag) 30),
            put (some { o with frag := o.frag + 1, wait := 0 }) s1)
      else (rest, put (some { o with wait := o.wait + 1 }) s1)

/-- A sheet period passes in which nothing is sent: only the wait for an acknowledgement goes on (R87). -/
def State.dlgWait (s : State) (m : Fin 4) : State :=
  if (s.line m).defects.loa then s
  else s.modLine m fun l => { l with dlg := { l.dlg with
    out := l.dlg.out.map fun o => if o.frag < o.frags then o else { o with wait := o.wait + 1 } } }

/-- Ask instance 2 + m for a session number; `hello`: a HELLO is to follow it (R336, Table 2-13). -/
def State.askSession (s : State) (m : Fin 4) (hello : Bool) : State :=
  let s0 := s.modLine m fun l => { l with dlg := { l.dlg with helloWait := l.dlg.helloWait || hello } }
  match s0.rngAsk (2 + m.val) (.hello m) 4 with
  | (s1, .data bs) => s1.helloDrawn m (some (BitVec.ofNat 32 (beNat bs)))
  | (s1, .waits) => s1
  | (s1, .failed) => (s1.helloDrawn m none).countDev 0xA 2 m.val

/-- An aligned group leaves DOWN: a HELLO is sent (Table 2-14), once its session number has been drawn. -/
def State.negLook (s : State) (m : Fin 4) : State :=
  let l := s.line m
  if l.dlg.neg = .down ∧ l.aligned then
    let s1 := s.modLine m fun l => { l with dlg := { l.dlg with neg := .offer } }
    if s.rng.waiting.any (fun q => decide (q.user = .hello m)) then
      s1.modLine m fun l => { l with dlg := { l.dlg with helloWait := true } }
    else s1.helloSend m
  else s

/-! ## Departure times (R60, R61, R280) -/

/-- Bits per lane of a ream on `n` lanes (Table 2-8). -/
def laneBits (n : Nat) : Nat := 64 * ((1024000 + n - 1) / n) + 128

/-- The reference instant of sheet `i` of a ream on `n` lanes whose LANE 0 markers, newest first, have stamps `ms` (R280). With
fewer than two markers before, its ream period is not known: a free value. -/
def sheetRef (s : State) (n i : Nat) (ms : List Stamp) : Stamp :=
  match ms with
  | [] => {}
  | t :: rest =>
    let period : Int := match rest with
      | a :: b :: _ => a.sub b
      | _ => (Config.freeNat s.free : Int)
    let f : Rat := (128 + 64 * (2048 * i / n) : Nat) / (laneBits n : Nat)
    { t with val := (((t.val : Int) + roundOpen (f * period)) % (tbWrap : Int)).toNat }

/-- ECHO_REAM and ECHO_TURN of a ream whose LANE 0 marker departs at `t3` (R60): turnaround in 1/64 ns; 0 where the far ream is older
than two local reams, or the group is not aligned. -/
def State.echo (s : State) (m : Fin 4) (t3 : Stamp) : Nat × Nat :=
  let l := s.line m
  match l.far with
  | some (tag, t2) =>
    (tag, if l.farAge < 2 ∧ l.aligned then toTwos 32 (t3.sub t2 / 2 ^ 34) else 0)
  | none => (0, 0)

/-! ## Reams (R50, R51, R68-R71) -/

/-- A lane marker (Table 2-7). -/
def marker (n lane : Nat) (lsc : W32) : Bytes :=
  let x := [byteOf (n * 16 + lane), 0] ++ beBytes 4 lsc.toNat
  [0x4A, 0xC7, 0x3E, 0x91, 0xD0, 0x5B] ++ x ++ lineCrc x ++ [0, 0]

/-- The LKN under which the framer's next sheet is keyed (R126). -/
def State.keyedUnder (s : State) (m : Fin 4) : Option (Fin 4) := if (s.line m).dlg.ver = 0 then none else (s.lci m).current

/-- The framer begins a ream: what was armed for it takes effect, markers are sent, VERCHK falls due once (Tables 2-14, 3-3, 4-2). -/
def State.reamBegin (s : State) (m : Fin 4) : State :=
  let l0 := s.line m
  let rc := if l0.begun then l0.rc + 1 else 0
  let s1 := (s.modLine m fun l => { l with rc := rc, begun := true, idx := 0, inReam := true }).reamSettings m
  let s2 := (s1.dklReam m rc).lknReam m rc
  let l := s2.line m
  let st := s2.lineStamp m true
  let e := if 2 ≤ l.dlg.ver then s2.echo m st else (0, 0)
  let n := s2.txLanes m
  let check := decide (l.dlg.neg = .agreed) && !l.dlg.verchkSent && (s2.keyedUnder m).isSome
  let s3 := s2.modLine m fun l => { l with
    lanesTx := n, echoReam := e.1, echoTurn := e.2, farAge := l.farAge + 1
    txMarks := (st :: l.txMarks).take 3
    t1 := if s2.permitted then tins (rc.toNat % 256) st l.t1 else l.t1
    dlg := { l.dlg with verchkSent := l.dlg.verchkSent || check } }
  let s4 := if check then s3.ownMsg m .verchk else s3
  let ms := (List.range n).map fun k => marker n k l.lsc
  if s4.permitted then (s4.emit (.markers m.val ms)).wireMarkers m (lanesIn (s4.txSet m)) ms else s4

/-! ## Cells (R53-R57, R82) -/

def brokeCell : Bytes := [0xFF, 0xFC] ++ List.replicate 62 0

/-- A cell being filled: data, whether a delimiter begins at byte 0, END, and the bytes charged to the shaper (R240). -/
structure CellAcc where
  data : Bytes := []
  start : Bool := false
  fin : Bool := false
  charge : Int := 0

/-- The head of the queue begins: its correction is applied (R283), its delimiter goes before it, its units are sent (R259). -/
def State.beginFrame (s : State) (m : Fin 4) (n : Nat) (ref : Stamp) : State :=
  match (s.tribIn m n).queue with
  | [] => s
  | q :: qs =>
    let (f, s1) := s.tcNear m q.f ref
    let len := f.bytes.length
    s1.modTribIn m n fun t => { t with
      queue := qs, sent := if t.grant = 0 then t.sent else t.sent + BitVec.ofNat 16 q.units
      stream := { t.stream with left := beBytes 2 (len % 16384) ++ f.bytes, units := q.units, port := q.f.port, pri := q.pri, len := len } }

/-- The last byte of the frame in progress has gone: its units leave the transmit partition (R231). -/
def State.endFrame (s : State) (m : Fin 4) (n : Nat) : State :=
  let t := s.tribIn m n
  let s1 := s.modTribIn m n fun t => { t with occ := t.occ - t.stream.units, stream := { t.stream with left := [], units := 0 } }
  (s1.modSch m fun x => { x with txUsed := x.txUsed - t.stream.units }).holdPri t.stream.port t.stream.pri t.stream.units false

/-- Fill a cell of tributary `n`; `restart`: 1,024 cells have gone without START (R57). The number bounds the frames begun and
ended in one cell. -/
def State.fillCell (m : Fin 4) (n : Nat) (ref : Stamp) (restart : Bool) : Nat → CellAcc → State → CellAcc × State
  | 0, a, s => (a, s)
  | k + 1, a, s =>
    let t := s.tribIn m n
    if 62 ≤ a.data.length then (a, s)
    else if t.stream.left.isEmpty then
      if (a.data.isEmpty || !restart) && s.headReady m t then
        fillCell m n ref restart k { a with start := a.start || a.data.isEmpty, charge := a.charge + t.sh.adj } (s.beginFrame m n ref)
      else ({ a with fin := true }, s)
    else
      let part := t.stream.left.take (62 - a.data.length)
      let rest := t.stream.left.drop (62 - a.data.length)
      let head := t.stream.left.length - t.stream.len
      let b := { a with data := a.data ++ part, charge := a.charge + (part.length - min head part.length : Nat) }
      let s1 := s.modTribIn m n fun t => { t with stream := { t.stream with left := rest } }
      if rest.isEmpty then
        let s2 := s1.endFrame m n
        if restart then ({ b with fin := true }, s2.countMill m 0 7 n) else fillCell m n ref restart k b s2
      else (b, s1)

/-- A cell of tributary `n`, and its charge. -/
def State.cellOf (s : State) (m : Fin 4) (n : Nat) (ref : Stamp) : Bytes × Int × State :=
  let t := s.tribIn m n
  let restart := decide (1024 ≤ t.stream.cells) && !t.stream.left.isEmpty
  let (a, s1) := State.fillCell m n ref restart 64 {} s
  let s2 := s1.modTribIn m n fun t => { t with
    lastCell := s.now, stream := { t.stream with cells := if a.start then 0 else t.stream.cells + 1, going := !a.fin } }
  (beBytes 2 (4 * n + b2n a.start + 2 * b2n a.fin) ++ padTo 62 a.data, a.charge, s2)

/-! ## The scheduler (R94, R95, R232-R238) -/

/-- The tributaries at the head of a list whose state has changed sleep; those that have another state join its list on the same edge,
in ascending number (R236, R237). -/
def State.dropStale (s : State) (m : Fin 4) (l : Fin 16) : State :=
  let ns := (s.sch m).lists[l].takeWhile fun n => decide (s.phaseOf m (s.tribIn m n) ≠ some (decide (l.val < 8)))
  (ns.mergeSort (· ≤ ·)).foldl (fun s n => s.wake m n) (ns.foldl (fun s n => s.sleepTrib m n l) s)

/-- The first tributary that a service list yields (R235). -/
def State.listHead (s : State) (m : Fin 4) (l : Fin 16) : Option Nat × State :=
  let s1 := s.dropStale m l
  ((s1.sch m).lists[l].head?, s1)

/-- The tributary that pool selection yields: committed lists of class 7 to 0, then excess lists (R234). -/
def State.poolPick (s : State) (m : Fin 4) : List (Fin 16) → Option (Nat × Fin 16) × State
  | [] => (none, s)
  | l :: ls =>
    match s.listHead m l with
    | (some n, s1) => (some (n, l), s1)
    | (none, s1) => s1.poolPick m ls

/-- Classes 7 to 0 of the committed lists, then of the excess lists. -/
def poolOrder : List (Fin 16) := [7, 6, 5, 4, 3, 2, 1, 0, 15, 14, 13, 12, 11, 10, 9, 8]

/-- The turn of a tributary begins: its quantum is added (R235). -/
def State.turnBegins (s : State) (m : Fin 4) (n : Nat) (l : Fin 16) : State :=
  let t := s.tribIn m n
  if t.fresh then
    (s.modTribIn m n fun t => { t with deficit := t.deficit + t.quantum, fresh := false }).modSch m fun x => { x with vr := x.vr.set l t.round }
  else s

/-- A pool cell has been served: deficit, shaper and place in the list (R235, R240). -/
def State.turnEnds (s : State) (m : Fin 4) (n : Nat) (l : Fin 16) (charge : Int) : State :=
  let s1 := s.modTribIn m n fun t => { t with
    deficit := t.deficit - 62, sh := if t.shEn then (t.sh.upTo s.now).charge charge else t.sh }
  if (s1.tribIn m n).deficit ≤ 0 then
    (s1.modTribIn m n fun t => { t with round := t.round + 1, fresh := true }).modSch m
      fun x => { x with lists := x.lists.set l ((x.lists[l].filter (· ≠ n)) ++ [n]) }
  else s1

/-- A payload position without data. -/
def State.brokeTx (s : State) (m : Fin 4) : Bytes × State := (brokeCell, (s.countMill m 0 6 0).fixMill m 6)

/-- The END cell owed to tributary `n` (R56): fill behind a tag with END. -/
def State.endCell (s : State) (m : Fin 4) (n : Nat) : Bytes × State :=
  (beBytes 2 (4 * n + 2) ++ List.replicate 62 0, s.startStream m n)

/-- Pool selection for one position (R235). -/
def State.poolCell (s : State) (m : Fin 4) (ref : Stamp) : Bytes × State :=
  match s.poolPick m poolOrder with
  | (none, s1) => s1.brokeTx m
  | (some (n, l), s1) =>
    let (b, charge, s2) := (s1.turnBegins m n l).cellOf m n ref
    (b, (s2.turnEnds m n l charge).countMill m 5 15 (l.val % 8))

/-- The content of the position of entry `e` of the active page (Table 3-2); a stale entry is counted (R95). -/
def State.position (s : State) (m : Fin 4) (ref : Stamp) (e : Nat) : Bytes × State :=
  let x := s.dkl m
  let v := x.entry x.activeB e
  let n := v % 16384
  let lend := decide (v / 16384 = 1)
  if n = 0x3FFF then s.brokeTx m
  else if n = 0x3FFE then
    match (s.line m).ends with
    | k :: _ => s.endCell m k
    | [] => s.poolCell m ref
  else if (s.line m).ends.contains n then s.endCell m n
  else
    let t := s.tribIn m n
    if !t.active then
      let s1 := s.countMill m 2 0 0
      if lend then s1.poolCell m ref else s1.brokeTx m
    else if s.hasData m t then let (b, _, s1) := s.cellOf m n ref; (b, s1)
    else if lend then s.poolCell m ref
    else s.brokeTx m

/-- `k` payload cells from entry `e` on. -/
def State.positions (s : State) (m : Fin 4) (ref : Stamp) : Nat → Nat → List Bytes × State
  | _, 0 => ([], s)
  | e, k + 1 =>
    let (b, s1) := s.position m ref e
    let (bs, s2) := s1.positions m ref (e + 1) k
    (b :: bs, s2)

/-! ## Credit entries (R62, R261) -/

/-- Credit tributaries due a keepalive, in round-robin order. -/
def State.keepDue (s : State) (m : Fin 4) : List Nat :=
  let keep := s.fld (Reg.sch m 0x50) 12 8
  let due := (s.trib.filter fun e =>
    e.2.active && decide (e.2.mill = m ∧ e.2.grant ≠ 0 ∧ e.2.held = 0 ∧ e.2.lastEntry + keep ≤ (s.sch m).sheets)).map (·.1)
  due.filter (fun n => decide ((s.sch m).keepPtr < n)) ++ due.filter (fun n => decide (n ≤ (s.sch m).keepPtr))

/-- Up to three entries of a sheet: changes, then keepalives, then empty ones. -/
def State.creditEntries (s : State) (m : Fin 4) : Bytes × State :=
  let changed := (s.sch m).creditQ.take 3
  let keep := ((s.keepDue m).filter fun n => !changed.contains n).take (3 - changed.length)
  let ns := changed ++ keep
  let bs := ns.flatMap fun n => beBytes 4 (n * 2 ^ 18 + 2 ^ 16 + (s.tribRx m n).rxCount.toNat)
  let s1 := ns.foldl (fun s n => s.modTribIn m n fun t => { t with lastEntry := (s.sch m).sheets }) s
  (padTo 12 bs, s1.modSch m fun x => { x with
    creditQ := x.creditQ.drop 3, keepPtr := keep.getLast?.getD x.keepPtr })

/-! ## The overhead cell (R59, Tables 2-5 and 2-6) -/

/-- BI_DEF. -/
def Defects.biDef (d : Defects) : Byte := bitsByte [false, false, false, false, d.keyless, d.wm, d.auth, d.loa]

/-- BI_LANE: bit k set while the receiver has lane LANE k in LOL. -/
def State.biLane (s : State) (m : Fin 4) : Byte :=
  bitsByte ((lanesIn (s.rxSet m)).map fun j => (s.line m).lanes[j].lol)

/-- 64 bytes of a watermark string from 16 registers (Table 2-19). -/
def State.wmRegs (s : State) (m : Fin 4) (base : Nat) : Bytes :=
  (List.range 16).flatMap fun i => leBytes 4 (s.reg (Reg.lnf m (base + 4 * i)))

/-- The overhead cell of the next sheet (R59); SEQ_LO of an unkeyed sheet, which uses no sequence number, is sent as 0 (DESIGN CHOICE,
log entry 27); features that the version in force lacks are sent as 0 (R65, R90). -/
def State.overhead (s : State) (m : Fin 4) (key : Option (Fin 4)) (seq : Nat) (credit slot : Bytes) : Bytes :=
  let l := s.line m
  let x := s.dkl m
  [0, 0, byteOf (match key with | some k => k.val | none => 0x80),
    byteOf (l.dlg.ver * 64 + b2n x.activeB * 32 + x.flipCd * 8 + b2n (x.shedFlag && decide (3 ≤ l.dlg.ver)) * 4)]
    ++ beBytes 4 (if key.isSome then seq % 2 ^ 32 else 0)
    ++ beBytes 2 (l.lsc.toNat % 64 * 1024 + l.idx % 512)
    ++ [byteOf l.rc.toNat, byteAt l.wmSend (l.lsc.toNat % 64), l.defects.biDef, s.biLane m, byteOf l.echoReam, byteOf l.lanesTx]
    ++ beBytes 4 l.echoTurn ++ credit ++ slot

/-! ## Sheets (R52, R63, R64, R117, R126-R128) -/

/-- The sealing block of a sheet (R63). -/
def creditSeal (key iv credit : Bytes) : Bytes := xorBytes credit ((aesEnc key (iv ++ beBytes 4 0x3FA)).take 12)

/-- A keyed sheet from its overhead and its 254 cells in clear (R117). -/
def sealSheet (key iv oh : Bytes) (cells : List Bytes) : Sheet :=
  let (ct, tag) := gcmEnc key iv oh cells.flatten
  { oh := oh, cells := chunksOf 64 ct, tag := tag ++ List.replicate 48 0 }

/-- An unkeyed idle sheet (R64). -/
def idleSheet (oh : Bytes) : Sheet :=
  { oh := oh, cells := List.replicate 254 brokeCell, tag := beBytes 4 (crc32 oh) ++ List.replicate 60 0 }

/-- One record of a DIGEST frame (Table 14-6) goes to the standby, with the oldest far sheet not yet reported (R409). -/
def State.sendDigest (s : State) (m : Fin 4) (key : Option (Fin 4)) (seq : Nat) : State :=
  if s.standbyHeld then
    let rx : Bytes × Nat := match s.mte.rxRecs[m] with
      | r :: _ => (beBytes 4 r.lsc.toNat ++ beBytes 4 r.dig.toNat, 128 + b2n r.accepted * 64 + r.lkn % 4)
      | [] => (List.replicate 8 0, 0)
    let kn := match key with
      | some k => 128 + k.val
      | none => 0
    let rec' := [byteOf m.val, byteOf kn, byteOf rx.2, 0] ++ beBytes 4 (s.line m).lsc.toNat
      ++ beBytes 8 (if key.isSome then seq else 0) ++ rx.1 ++ beBytes 4 (s.defWord m).toNat ++ [0, 0, 0, 0]
    (s.modMte fun x => { x with rxRecs := x.rxRecs.set m (x.rxRecs[m].drop 1) }).feltSend 0x20 rec'
  else s

/-- The sheet with sequence number `seq` has been sent under LKN `k`: count, soft and hard limit (R127, R128). -/
def State.seqSent (s : State) (m k : Fin 4) (seq : Nat) : State :=
  let s1 := ((s.modLkn m k fun x => { x with seq := seq + 1 }).countMill m 1 0 k.val).fixMill m 2
  let s2 := if seq = s.softLimit m ∧ !(s.lkn m k).softDone then
      (s1.modLkn m k fun x => { x with softDone := true }).setBit (Reg.lci m 4) 8
    else s1
  if seq = 2 ^ 48 then (s2.txDone m k).setBit (Reg.lci m 4) 9 else s2

/-- A sheet leaves the framer for its lanes (R48, R68, R377). -/
def State.sheetOut (s : State) (m : Fin 4) (idx : Nat) (x : Sheet) : State :=
  (s.emit (.sheet m.val x)).wireSheet m (lanesIn (s.txSet m)) idx (sheetBytesOut x)

/-- A keyed sheet is built and sent; CREDIT is sealed where the version in force has it, and 0 otherwise (R63, R90). -/
def State.sendKeyed (s : State) (m k : Fin 4) : State :=
  let l := s.line m
  let v := s.lkn m k
  let ref := sheetRef s l.lanesTx l.idx l.txMarks
  let (cells, s1) := (s.wakeAll m).positions m ref (254 * l.idx) 254
  let (slot, s2) := s1.dlgSlot m (some k) v.seq
  let iv := sheetIv v.salt (lcid v.chid (s.lciEnd m)) v.seq
  let (credit, s3) :=
    if 2 ≤ l.dlg.ver then (creditSeal v.key iv (s2.creditEntries m).1, (s2.creditEntries m).2) else (List.replicate 12 0, s2)
  let x := sealSheet v.key iv (s3.overhead m (some k) v.seq credit slot) cells
  ((s3.sheetOut m l.idx x).sendDigest m (some k) v.seq).seqSent m k v.seq

/-- An unkeyed idle sheet is built and sent; it serves no payload position (R64, R126). -/
def State.sendIdle (s : State) (m : Fin 4) : State :=
  let (slot, s1) := s.dlgSlot m none 0
  let oh := s1.overhead m none 0 (List.replicate 12 0) slot
  (((s1.sheetOut m (s.line m).idx (idleSheet oh)).sendDigest m none 0).countMill m 1 1 0).fixMill m 3

/-- The watermark string sent changes at WM_POS 0 (Table 2-19). -/
def State.wmLatchTx (s : State) (m : Fin 4) : State :=
  if (s.line m).lsc.toNat % 64 = 0 then s.modLine m fun l => { l with wmSend := s.wmRegs m 0x100 } else s

/-- One sheet period of the framer. Without permission nothing is built and no sequence number is used (R52). -/
def State.sheetSend (s : State) (m : Fin 4) : State :=
  let s0 := s.wmLatchTx m
  let s1 :=
    if s0.permitted then
      (match s0.keyedUnder m with
        | some k => s0.sendKeyed m k
        | none => s0.sendIdle m)
    else s0.dlgWait m
  (s1.modLine m fun l => { l with lsc := l.lsc + 1, idx := l.idx + 1, inReam := decide (l.idx + 1 < 500) }).modSch m
    fun x => { x with sheets := x.sheets + 1 }

/-- R48, R52, R82, R117, R126, R232. -/
def execSheetSend (m : Fin 4) (s : State) : Res :=
  if s.framerRuns m && (s.line m).inReam then finish (s.sheetSend m) else idle s

/-! ## Framer enable (R51, R52) -/

/-- A `WAITT` ends with a status that halts its ring (R223, R214). -/
def State.waitFail (s : State) (ref : CmdRef) (status : Nat) : State := (s.haltRing ref.rid ref.tag.toNat).complete ref status

/-- Every `WAITT` REAM of mill `m` ends with LINE_STOPPED (R223). -/
def State.waitsStop (s : State) (m : Fin 4) : List (Fin 12) → State
  | [] => s
  | i :: is =>
    (match (s.ring ⟨m, i⟩).hold with
      | some (.ream ref _ _) => s.waitFail ref 0x24
      | _ => s).waitsStop m is

/-- A HELLO is queued or outstanding. -/
def Dlg.helloOpen (d : Dlg) : Bool :=
  d.queue.contains .hello || (match d.out with | some o => decide (o.own = some .hello) | none => false)

/-- The dialogue without its HELLOs: a new session number is drawn, which the next HELLO is to carry (Table 2-13). -/
def Dlg.withoutHello (d : Dlg) : Dlg :=
  { d with
    queue := d.queue.filter (· ≠ .hello)
    out := match d.out with
      | some o => if o.own = some .hello then none else some o
      | none => none }

/-- TX_EN is written (R51, R52). -/
def State.setTxEn (s : State) (m : Fin 4) (v : Bool) : State :=
  if v = s.txEn m then s
  else if v then
    let s1 := (s.setBit (Reg.lnf m 0) 0).modLine m fun l => { l with
      lsc := 0, rc := 0, idx := 0, inReam := false, begun := false, t1 := [], txMarks := []
      dlg := { l.dlg.again with
        out := (l.dlg.withoutHello.again.out).map fun o => { o with mseq := 0 }
        queue := l.dlg.withoutHello.queue
        mseqNext := if l.dlg.withoutHello.out.isSome then 1 else 0, ackIn := none } }
    s1.askSession m (s.line m).dlg.helloOpen
  else
    let s1 := (s.setBit (Reg.lnf m 0) 0 false).modLine m fun l => { l with inReam := false }
    ((s1.dklStop m).lknStop m).waitsStop m (List.finRange 12)

/-- R51: TX_EN is set. -/
def execLnfTxEnable (m : Fin 4) (s : State) : Res := if s.millLive m then finish (s.setTxEn m true) else idle s
/-- R52: TX_EN is cleared. -/
def execLnfTxDisable (m : Fin 4) (s : State) : Res := if s.millLive m then finish (s.setTxEn m false) else idle s

/-- LANE_USE is written (R106): it takes effect at the next ream boundary, at once where the framer has no timing. -/
def State.writeLaneUse (s : State) (m : Fin 4) (v : Byte) : State :=
  if v = 0 then s
  else
    let s1 := s.setFld (Reg.lnf m 0) 16 8 v.toNat
    if s.framerTimed m then s1.modLine m fun l => { l with laneUseDue := true } else s1.laneUseTakes m
/-! ## The host's messages (R76, R88, R89) -/

/-- `pat` stands at consecutive positions of `bs`. -/
def hasPattern (pat : Bytes) : Bytes → Bool
  | [] => pat.isEmpty
  | b :: bs => decide ((b :: bs).take pat.length = pat) || hasPattern pat bs

/-- 240 bytes of LNF_DLG_TXBUF. -/
def State.txBuf (s : State) (m : Fin 4) : Bytes := (List.range 60).flatMap fun i => leBytes 4 (s.reg (Reg.lnf m (0x200 + 4 * i)))

/-- The host message in `buf`, where it may be sent: a host type, a legal length, no marker image in a fragment (R76, R89). -/
def hostMessage (buf : Bytes) : Option Bytes :=
  let ty := (byteAt buf 0).toNat
  let len := (byteAt buf 1).toNat
  let x := buf.take (2 + len)
  if ty < 0x80 ∨ ty = 0xFF ∨ 234 < len then none
  else if (chunksOf 30 (x ++ lineCrc x)).any (hasPattern [0x4A, 0xC7, 0x3E, 0x91]) then none
  else some x

/-- A write of SEND with 1 (R89). -/
def State.writeSend (s : State) (pf : Fin 2) (m : Fin 4) (v : Nat) : State :=
  if (s.line m).dlg.busy then s.lockedWrite pf (Reg.lnf m 0x20) v
  else match hostMessage (s.txBuf m) with
    | some x => s.modLine m fun l => { l with dlg := { l.dlg with host := some x } }
    | none => (s.setBit (Reg.lnf m 0x20) 13).countMill m 0 9 0
/-- R89. -/
def execDlgSend (pf : Fin 2) (m : Fin 4) (s : State) : Res := if s.millLive m then finish (s.writeSend pf m 0x20) else idle s

/-- A write of RENEG with 1 (Table 2-14): a new session number is drawn and offered. -/
def State.writeReneg (s : State) (m : Fin 4) : State :=
  if (s.line m).dlg.neg = .failed then
    (s.modLine m fun l => { l with dlg := { l.dlg with neg := .offer } }).askSession m true
  else s
/-- R90. -/
def execDlgReneg (m : Fin 4) (s : State) : Res :=
  if s.millLive m && decide ((s.line m).dlg.neg = .failed) then finish (s.writeReneg m) else idle s

/-- R88: clearing RX_FULL frees the receive buffer. -/
def execDlgRxRelease (m : Fin 4) (s : State) : Res :=
  if s.millLive m && s.bit (Reg.lnf m 0x20) 7 then finish (s.setBit (Reg.lnf m 0x20) 7 false) else idle s

end Sys2Proof.Machine
end

