-- ==== Sys2Proof/Machine/VatInstr.lean ====
section
/-! DEFINITION. The data-plane instructions (R186-R188). -/

namespace Sys2Proof.Machine

/-- An instruction that changes only its thread. -/
def vatLocal (t : Tid) (sel : VInstr → Bool) (f : Thread → VInstr → Except Nat Thread) (s : State) : Res :=
  vatRow t sel (fun s x i => (f x i).map (s.setThread t)) s

/-! ## Integer instructions (Table 6-4) -/

/-- AOP 0 to 7. -/
def aluOp (aop : Nat) (a b : W64) : W64 :=
  match aop with
  | 0 => b | 1 => a + b | 2 => a - b | 3 => a &&& b | 4 => a ||| b | 5 => a ^^^ b
  | 6 => a <<< (b.toNat % 64) | _ => a >>> (b.toNat % 64)

def runAlu (x : Thread) : VInstr → Except Nat Thread
  | .alu aop gd a b => .ok (x.setG gd (aluOp aop (x.src a) (x.src b)))
  | .movShift gd v => .ok (x.setG gd ((x.gr gd <<< 28) ||| v))
  | _ => .ok x

def isAlu (k : Nat) : VInstr → Bool
  | .alu aop _ _ _ => decide (aop = k)
  | .movShift _ _ => decide (k = 0)
  | _ => false

/-- R186, `MOV` but for its special form. -/
def execMov (t : Tid) (s : State) : Res := vatLocal t (isAlu 0) runAlu s
/-- R186. -/
def execAdd (t : Tid) (s : State) : Res := vatLocal t (isAlu 1) runAlu s
/-- R186. -/
def execSub (t : Tid) (s : State) : Res := vatLocal t (isAlu 2) runAlu s
/-- R186. -/
def execAnd (t : Tid) (s : State) : Res := vatLocal t (isAlu 3) runAlu s
/-- R186. -/
def execOr (t : Tid) (s : State) : Res := vatLocal t (isAlu 4) runAlu s
/-- R186. -/
def execXor (t : Tid) (s : State) : Res := vatLocal t (isAlu 5) runAlu s
/-- R186, R185. -/
def execShl (t : Tid) (s : State) : Res := vatLocal t (isAlu 6) runAlu s
/-- R186, R185: logical. -/
def execShr (t : Tid) (s : State) : Res := vatLocal t (isAlu 7) runAlu s

/-- Special register `idx` (Table 6-1); none: ILLEGAL. -/
def State.special (s : State) (t : Tid) (x : Thread) (idx : Nat) : Option W64 :=
  let f := x.frame
  let n? : Option Nat := match idx with
    | 0x00 => some (b2n f.rx)
    | 0x01 => some (if f.rx then 0x3F else f.port)
    | 0x02 => some (if f.rx then f.trib else 0)
    | 0x03 => some f.bytes.length
    | 0x04 | 0x05 | 0x06 | 0x07 | 0x08 | 0x09 | 0x0F | 0x12 => some (tget 0 x.desc idx)
    | 0x0A => some (tbNs f.stamp.val * 65536 + tbFrac f.stamp.val)
    | 0x0B => some (tbSec f.stamp.val)
    | 0x0C => some (t.thread.val + 4 * t.engine.val + 32 * t.cluster.val + 256 * t.mill.val)
    | 0x0D => some x.issued
    | 0x10 => some (if x.inTrap then x.cause else 0)
    | 0x11 => some (if x.inTrap then x.trapPc.toNat else 0)
    | _ => none
  if idx = 0x0E then some (BitVec.ofNat 64 (6 * (s.now - x.since) + Config.vatPhase s.free % 11 - 5)) else n?.map (BitVec.ofNat 64)

def isSpecial : VInstr → Bool
  | .movSpecial _ _ => true
  | _ => false

/-- R181. -/
def execMovSpecial (t : Tid) (s : State) : Res :=
  vatRow t isSpecial (fun s x i => match i with
    | .movSpecial gd idx => match s.special t x idx with
      | some v => .ok { s.setThread t (x.setG gd v) with free := s.free + b2n (decide (idx = 0x0E)) }
      | none => .error 1
    | _ => .ok s) s

/-- The conditions of CMP. -/
def cmpCond (c : Nat) (a b : W64) : Bool :=
  match c with
  | 0 => a == b | 1 => a != b | 2 => a.ult b | 3 => !a.ult b | 4 => a.slt b | 5 => !a.slt b | 6 => (a &&& b) != 0 | _ => (a &&& b) == 0

def isCmp : VInstr → Bool
  | .cmp _ _ _ _ => true
  | _ => false
def runCmp (x : Thread) : VInstr → Except Nat Thread
  | .cmp pd gs c b => .ok (x.setP pd (cmpCond c (x.gr gs) (x.src b)))
  | _ => .ok x
/-- R186. -/
def execCmp (t : Tid) (s : State) : Res := vatLocal t isCmp runCmp s

/-! ## EXT and INS (R178-R180, R185) -/

/-- Scratch byte `a` of the thread's engine. -/
def scratchKey (t : Tid) (a : Nat) : Nat := 8192 * (8 * t.cluster.val + t.engine.val) + a
def State.scratchRead (s : State) (t : Tid) (a n : Nat) : Bytes := (List.range n).map fun i => tget 0 (s.vat t.mill).scratch (scratchKey t (a + i))
def State.scratchWrite (s : State) (t : Tid) (a : Nat) (bs : Bytes) : State :=
  s.modVat t.mill fun v => { v with
    scratch := (List.range bs.length).foldl (fun m i => tset 0 (scratchKey t (a + i)) (byteAt bs i) m) v.scratch }

def isExt : VInstr → Bool
  | .extMem _ _ _ _ _ | .extReg _ _ _ _ => true
  | _ => false

/-- R185, R178, R180. -/
def execExt (t : Tid) (s : State) : Res :=
  vatRow t isExt (fun s x i => match i with
    | .extMem gd scratch gb off n =>
      let a := (x.gr gb).toNat + off
      if scratch then
        (if 8192 < a + n then .error 3 else .ok (s.setThread t (x.setG gd (BitVec.ofNat 64 (beNat (s.scratchRead t a n))))))
      else if 256 < a + n then .error 2
      else .ok (s.setThread t (x.setG gd (BitVec.ofNat 64 (beNat ((List.range n).map fun k => byteAt x.frame.bytes (a + k))))))
    | .extReg gd gs pos w => .ok (s.setThread t (x.setG gd ((x.gr gs >>> pos) &&& zimm (2 ^ w - 1))))
    | _ => .ok s) s

def isIns : VInstr → Bool
  | .insMem _ _ _ _ _ | .insReg _ _ _ _ => true
  | _ => false

/-- An `INS` of `n` bytes at window address `a` is refused (R179). -/
def Thread.winGuard (x : Thread) (a n : Nat) : Bool :=
  let tag := tget 0 x.desc 9 % 256
  decide (256 < a + n) || decide (x.frame.bytes.length < a + n)
    || (x.frame.rx && (decide (a < 12) || (decide (tag ≠ 0xFF) && decide (tag < a + n))))

/-- R185, R179, R180. -/
def execIns (t : Tid) (s : State) : Res :=
  vatRow t isIns (fun s x i => match i with
    | .insMem gs scratch gb off n =>
      let a := (x.gr gb).toNat + off
      let bs := beBytes n (x.gr gs).toNat
      if scratch then (if 8192 < a + n then .error 3 else .ok (s.scratchWrite t a bs))
      else if x.winGuard a n then .error 2
      else .ok (s.setThread t { x with frame := { x.frame with bytes := patch x.frame.bytes a bs }, winWritten := true })
    | .insReg gd gs pos w =>
      let m := zimm (2 ^ w - 1)
      .ok (s.setThread t (x.setG gd ((x.gr gd &&& ~~~(m <<< pos)) ||| ((x.gr gs &&& m) <<< pos))))
    | _ => .ok s) s

/-! ## Control (Table 6-5) -/

def isBr : VInstr → Bool
  | .br _ => true
  | _ => false
def runBr (x : Thread) : VInstr → Except Nat Thread
  | .br a => .ok { x with pc := BitVec.ofNat 14 a }
  | _ => .ok x
/-- R187. -/
def execBr (t : Tid) (s : State) : Res := vatLocal t isBr runBr s

def isBrp : VInstr → Bool
  | .brp _ _ _ => true
  | _ => false
def runBrp (x : Thread) : VInstr → Except Nat Thread
  | .brp p sense a => .ok (if x.p.getLsbD p = sense then { x with pc := BitVec.ofNat 14 a } else x)
  | _ => .ok x
/-- R187. -/
def execBrp (t : Tid) (s : State) : Res := vatLocal t isBrp runBrp s

def isCall : VInstr → Bool
  | .call _ => true
  | _ => false
def runCall (x : Thread) : VInstr → Except Nat Thread
  | .call a => if 8 ≤ x.stack.length then .error 4 else .ok { x with stack := x.pc :: x.stack, pc := BitVec.ofNat 14 a }
  | _ => .ok x
/-- R187: the return address is that of the instruction behind. -/
def execCall (t : Tid) (s : State) : Res := vatLocal t isCall runCall s

def isRet : VInstr → Bool
  | .ret => true
  | _ => false
def runRet (x : Thread) : VInstr → Except Nat Thread
  | .ret => match x.stack with
    | [] => .error 4
    | a :: as => .ok { x with stack := as, pc := a }
  | _ => .ok x
/-- R187. -/
def execRet (t : Tid) (s : State) : Res := vatLocal t isRet runRet s

/-! ## Frame service (Table 6-6) -/

/-- Table `tab` is enabled with key width `kw` (R191). -/
def State.htOk (s : State) (m : Fin 4) (tab kw : Nat) : Bool :=
  s.bit (Reg.vat m (0x900 + 4 * tab)) 31 && decide (s.fld (Reg.vat m (0x900 + 4 * tab)) 19 2 = kw)
/-- The 16-byte image of the key K. -/
def Thread.hashKey (x : Thread) (gk kw : Nat) : Bytes :=
  match kw with
  | 0 => beBytes 16 ((x.gr gk).toNat % 2 ^ 32)
  | 1 => beBytes 16 (x.gr gk).toNat
  | _ => beBytes 8 (x.gr gk).toNat ++ beBytes 8 (x.gr (gk + 1)).toNat

def isLkp : VInstr → Bool
  | .lkp _ _ _ _ _ => true
  | _ => false
/-- R188, R190, R191: the lookup is sent to its unit. -/
def execLkp (t : Tid) (s : State) : Res :=
  vatRow t isLkp (fun s x i => match i with
    | .lkp gd pd gk tab kw =>
      if s.htOk t.mill tab kw then
        .ok (s.setThread t { x with reqs := x.reqs ++ [.hash gd pd tab (x.hashKey gk kw) (x.pc - 2)] })
      else .error 0xB
    | _ => .ok s) s

/-- First entry and count of a TCAM partition. -/
def State.tcamPart (s : State) (m : Fin 4) (p : Nat) : Nat × Nat :=
  (s.fld (Reg.vat m (0xA00 + 4 * p)) 0 11, s.fld (Reg.vat m (0xA00 + 4 * p)) 12 12)

def isTcm : VInstr → Bool
  | .tcm _ _ _ _ => true
  | _ => false
/-- R188, R190, R194. -/
def execTcm (t : Tid) (s : State) : Res :=
  vatRow t isTcm (fun s x i => match i with
    | .tcm gd pd gk part =>
      if (s.tcamPart t.mill part).2 = 0 then .error 0xB
      else .ok (s.setThread t { x with reqs := x.reqs ++ [.tcam gd pd part (x.hashKey gk 2) (x.pc - 2)] })
    | _ => .ok s) s

def isAtt : VInstr → Bool
  | .att _ => true
  | _ => false
def runAtt (x : Thread) : VInstr → Except Nat Thread
  | .att gs =>
    if x.attUsed then .error 7
    else if 16384 ≤ (x.gr gs).toNat then .error 1
    else .ok { x with attUsed := true, wait := .att (x.gr gs).toNat false (x.pc - 1) }
  | _ => .ok x
/-- R151, R188, R190: the request goes to the SA cache, which answers later. -/
def execAtt (t : Tid) (s : State) : Res := vatLocal t isAtt runAtt s

def isTrib : VInstr → Bool
  | .trib _ => true
  | _ => false
/-- R188: the frame's tributary. -/
def execTrib (t : Tid) (s : State) : Res :=
  vatRow t isTrib (fun s x i => match i with
    | .trib a =>
      let n := (x.src a).toNat % 16384
      if x.frame.rx ∨ n = 0 ∨ 16381 < n ∨ !(s.tribAt n).active then .error 8 else .ok (s.setThread t { x with trib := some n })
    | _ => .ok s) s

def isCls : VInstr → Bool
  | .cls _ => true
  | _ => false
def runCls (x : Thread) : VInstr → Except Nat Thread
  | .cls a => .ok { x with cls := some ((x.src a).toNat % 8) }
  | _ => .ok x
/-- R188. -/
def execCls (t : Tid) (s : State) : Res := vatLocal t isCls runCls s

def State.policer (s : State) (m : Fin 4) (n : Nat) : Policer := tget default (s.sch m).policers n

def isPol : VInstr → Bool
  | .pol _ _ => true
  | _ => false
/-- R188, R245: the request goes to the policer. -/
def execPol (t : Tid) (s : State) : Res :=
  vatRow t isPol (fun s x i => match i with
    | .pol gd gs =>
      let n := (x.gr gs).toNat
      if 2 ≤ x.polCount then .error 7
      else if 4096 ≤ n ∨ !(s.policer t.mill n).en then .error 0xC
      else .ok (s.setThread t { x with polCount := x.polCount + 1, reqs := x.reqs ++ [.pol gd n (x.pc - 2)] })
    | _ => .ok s) s

def isStmp : VInstr → Bool
  | .stmp _ => true
  | _ => false
/-- R281, R188: mark the frame. -/
def execStmp (t : Tid) (s : State) : Res :=
  vatRow t isStmp (fun s x i => match i with
    | .stmp mode =>
      let fl := tget 0 x.desc 8
      let event := natBit fl 4
      if !event && !natBit fl 5 then .ok (s.countMill t.mill 4 14 t.cluster.val)
      else match mode with
        | 1 => .ok (s.setThread t { x with frame := { x.frame with tsCapture := true } })
        | 0 => .ok (if event then s.setThread t { x with frame := { x.frame with tcEvent := true } } else s.countDev 0xB 0 x.frame.port)
        | _ => .ok (if event then s.countDev 0xB 0 x.frame.port else s.setThread t { x with frame := { x.frame with tcFollow := true } })
    | _ => .ok s) s

def isEnq : VInstr → Bool
  | .enq _ => true
  | _ => false
/-- R197: the frame has ended; ENQ_COMPLETE queues it when its owed responses have arrived. -/
def execEnq (t : Tid) (s : State) : Res :=
  vatRow t isEnq (fun s x i => match i with
    | .enq gs =>
      let v := (x.gr gs).toNat
      if !x.frame.rx then
        (if gs ≠ 0 then .error 1
         else if x.trib.isNone then .error 9
         else .ok (s.setThread t { x with ended := some (.enq 0) }))
      else if v < 256 ∧ (v % 32) / 8 = t.mill.val ∧ s.portEnabled (portOf v) then .ok (s.setThread t { x with ended := some (.enq v) })
      else .error 0xA
    | _ => .ok s) s

def isDrop : VInstr → Bool
  | .drop _ => true
  | _ => false
/-- R188, R196, R198. -/
def execDrop (t : Tid) (s : State) : Res :=
  vatRow t isDrop (fun s _ i => match i with
    | .drop r => .ok ((s.countMill t.mill 4 3 r).vatDrop t)
    | _ => .ok s) s

def isPunt : VInstr → Bool
  | .punt _ _ => true
  | _ => false
def runPunt (x : Thread) : VInstr → Except Nat Thread
  | .punt q r => .ok { x with ended := some (.punt q r 0), reqs := [], wait := .none }
  | _ => .ok x
/-- R188, R229: the frame has ended; PUNT_COMPLETE places it when its queue has room. -/
def execPunt (t : Tid) (s : State) : Res := vatLocal t isPunt runPunt s

end Sys2Proof.Machine
end

