-- ==== Sys2Proof/Machine/VatUnits.lean ====
section
/-! DEFINITION. The units that serve the vat (chapter 6): lookups, policers, attachment, limits, how a frame ends, clusters and
their images, the table windows. -/

namespace Sys2Proof.Machine

/-! ## Lookups (R191, R194) -/

/-- The result of a lookup reaches its thread. -/
def Thread.answer (x : Thread) (r : VatReq) (gd pd : Nat) (v : Option Nat) : Thread :=
  (({ x with reqs := x.reqs.erase r }.setG gd (BitVec.ofNat 64 (v.getD 0))).setP pd v.isSome)

/-- The result of entry `e` for key `k` and key width `kw` in the hash memory. -/
def Vat.hashHit (v : Vat) (kw k e : Nat) : Option Nat :=
  let b := padTo 32 (tget [] v.hash e)
  let w6 := leNat (slice b 24 4)
  if natBit w6 31 ∧ w6 % 4 = kw ∧ leNat (b.take 16) = k then some (leNat (slice b 16 8)) else none

/-- The lowest-indexed hit of two buckets. -/
def State.hashFind (s : State) (m : Fin 4) (tab : Nat) (key : Bytes) : Option Nat :=
  let cfg := s.reg (Reg.vat m (0x900 + 4 * tab))
  let n := 2 ^ natBits cfg 15 4
  let b0 := natBits cfg 0 15 + crc32c key % n
  let b1 := natBits cfg 0 15 + crc32 key % n
  let kw := natBits cfg 19 2
  let es := if b0 ≤ b1 then [b0, b1] else [b1, b0]
  (es.flatMap fun b => (List.range 4).map (4 * b + ·)).findSome? ((s.vat m).hashHit kw (beNat key))

/-- R191: both buckets are read on one edge. -/
def execHashLookup (t : Tid) (s : State) : Res :=
  let x := s.thread t
  match x.reqs.find? fun | .hash _ _ _ _ _ => true | _ => false with
  | some (.hash gd pd tab key pc) =>
    let r := VatReq.hash gd pd tab key pc
    if !s.bit (Reg.vat t.mill (0x900 + 4 * tab)) 31 then
      finish ((s.setThread t { x with reqs := x.reqs.erase r }).vexc t 0xB pc)
    else
      let v := s.hashFind t.mill tab key
      finish ((s.setThread t (x.answer r gd pd v)).countMill t.mill 4 (if v.isSome then 10 else 11) t.cluster.val)
  | _ => idle s

/-- The action of TCAM entry `e` where it matches `k`. -/
def Vat.tcamHit (v : Vat) (k e : Nat) : Option Nat :=
  let b := padTo 44 (tget [] v.tcam e)
  let value := BitVec.ofNat 128 (leNat (b.take 16))
  let mask := BitVec.ofNat 128 (leNat (slice b 16 16))
  if natBit (leNat (slice b 40 4)) 31 ∧ (BitVec.ofNat 128 k ^^^ value) &&& mask = 0 then some (leNat (slice b 32 8)) else none

/-- R194. -/
def execTcamSearch (t : Tid) (s : State) : Res :=
  let x := s.thread t
  match x.reqs.find? fun | .tcam _ _ _ _ _ => true | _ => false with
  | some (.tcam gd pd part key pc) =>
    let r := VatReq.tcam gd pd part key pc
    let (first, count) := s.tcamPart t.mill part
    if count = 0 then finish ((s.setThread t { x with reqs := x.reqs.erase r }).vexc t 0xB pc)
    else
      let v := (List.range (min count (2048 - first))).findSome? fun i => (s.vat t.mill).tcamHit (beNat key) (first + i)
      finish ((s.setThread t (x.answer r gd pd v)).countMill t.mill 4 (if v.isSome then 12 else 13) t.cluster.val)
  | _ => idle s

/-! ## Policers (R245, R246) -/

/-- The colour of a frame of `b` bytes (with ADJ) and the policer after it: 0 green, 1 yellow, 2 red. -/
def Policer.decide (p : Policer) (now : Nat) (prev : Nat) (len : Nat) : Nat × Policer :=
  let b := p.b.upTo now
  let n : Int := (len : Int) + b.adj
  let u := n * byteU
  let c := if p.aware then prev else 0
  if c = 2 ∨ b.tp < u then (2, { p with b := b })
  else if c = 1 ∨ b.tc < u then (1, { p with b := { b with tp := b.tp - u } })
  else (0, { p with b := { b with tp := b.tp - u, tc := b.tc - u } })

/-- R245, R246: the policer colours and charges the frame; a red or yellow action follows. -/
def execPolicerDecide (t : Tid) (s : State) : Res :=
  let x := s.thread t
  match x.reqs.find? fun | .pol _ _ _ => true | _ => false with
  | some (.pol gd n pc) =>
    let r := VatReq.pol gd n pc
    let p := s.policer t.mill n
    if !p.en then finish ((s.setThread t { x with reqs := x.reqs.erase r }).vexc t 0xC pc)
    else
      let len := x.frame.bytes.length
      let (c, p') := p.decide s.now (x.lastColour.getD 0) len
      let s1 := (s.modSch t.mill fun y => { y with policers := tset default n p' y.policers }).countMill t.mill 5 (1 + 2 * c) n
      let s2 := s1.countMill t.mill 5 (2 + 2 * c) n len
      let act := if c = 1 then p.yellow else if c = 2 then p.red else 0
      let y := { x with
        reqs := x.reqs.erase r, lastColour := some (x.lastColour.getD c)
        polCls := if act = 2 then some (if c = 1 then p.yellowCls else p.redCls) else x.polCls }
      let s3 := s2.setThread t (y.setG gd (BitVec.ofNat 64 c))
      finish (if act = 1 then (s3.countMill t.mill 4 8 t.cluster.val).vatDrop t else s3)
  | _ => idle s

/-! ## The SA cache answers an ATT (R151, R162) -/

/-- The received frame has a SecTAG, whose AN an `ATT` takes (Table 6-1). -/
def Thread.tagged (x : Thread) : Bool := decide (tget 0 x.desc 9 % 256 ≠ 0xFF)

/-- The SA an `ATT` selects, AN 0 for a received frame without a SecTAG; an error is the cause of the exception. -/
def State.attSelect (s : State) (t : Tid) (x : Thread) (scx : Nat) : Except Nat Nat :=
  let c := s.scAt scx
  if ¬ (c.valid ∧ c.mill = t.mill ∧ c.rx = x.frame.rx) then .error 5
  else if x.frame.rx then .ok (4 * scx + if x.tagged then tget 0 x.desc 9 / 256 % 4 else 0)
  else
    let sax := 4 * scx + c.txAn
    if saMissing (s.saAt sax).st then .error 6 else .ok sax

/-- The frame is attached: it takes its place in the order of the cache (R166). -/
def State.attach (s : State) (t : Tid) (x : Thread) (f : Frame) : State :=
  (s.setThread t { x with wait := .none, frame := { f with ticket := (s.sac t.mill).nextTicket } }).modSac t.mill
    fun y => { y with nextTicket := y.nextTicket + 1 }

/-- The cache has no room: the thread stalls, counted once (R162). -/
def State.attStall (s : State) (t : Tid) (x : Thread) (scx : Nat) (stalled : Bool) (pc : W14) : State :=
  if stalled then s else (s.setThread t { x with wait := .att scx true pc }).countMill t.mill 3 6 0

/-- A frame for an EXHAUSTED SA is counted in its context, which is fetched for that where it is not resident (R162). -/
def State.countRefused (s : State) (m : Fin 4) (sax : Nat) : State :=
  match (s.sac m).ctx sax with
  | some c => s.modSac m fun x => x.putCtx sax (ctxCount c 4 1)
  | none =>
    let s1 := s.modSac m fun x => { x with refusals := tset 0 sax (tget 0 x.refusals sax + 1) x.refusals }
    if ((s.sac m).find sax).isSome || (s.sac m).awaited sax then s1 else s1.startFill m sax true

/-- R151, R161-R164: Table 5-7. -/
def execSaCacheAttach (t : Tid) (s : State) : Res :=
  let x := s.thread t
  match x.wait with
  | .none => idle s
  | .att scx stalled pc =>
    match s.attSelect t x scx with
    | .error c => finish ((s.setThread t { x with wait := .none }).vexc t c pc)
    | .ok sax =>
      let st := s.saEff sax
      let m := t.mill
      let f : Frame := { x.frame with att := some sax }
      let s0 := s.attach t x f
      let stall := finish (s.attStall t x scx stalled pc)
      let room := decide (s.missHold m x.frame.rx < 1024)
      if x.frame.rx && !x.tagged then finish (s.attach t x { f with badTag := true })
      else if saMissing st then finish (s.attach t x { f with doomed := true })
      else if st = .orphaned ∨ st = .faulted then finish s0
      else if st = .exhausted then finish ((s.attach t x { f with refused := true }).countRefused m sax)
      else match (s.sac m).find sax with
        | some k =>
          if ((s.sac m).ctx sax).isSome then finish ((s0.modSac m (·.touch k)).countMill m 3 0 0)
          else if room then finish (s0.countMill m 3 2 0) else stall
        | none =>
          if (s.sac m).awaited sax then (if room then finish (s0.countMill m 3 2 0) else stall)
          else if ((s.sac m).victim sax).isSome then
            (if room || (s.pickWay m sax).isSome then finish (s0.startFill m sax true) else stall)
          else if room && decide ((s.sac m).missOut < 64) then finish ((s0.startFill m sax).countMill m 3 1 0)
          else stall

/-- No response by an ATT or a POL is owed. -/
def Thread.answered (x : Thread) : Bool :=
  decide (x.wait = .none) && x.reqs.all fun | .pol _ _ _ => false | _ => true

/-- Its `ENQ` is complete (R197): every response owed has arrived, and only the order of its source (R174) may still hold the frame. -/
def Thread.enqDone (x : Thread) : Bool :=
  match x.ended with
  | some (.enq _) => x.answered
  | _ => false

/-! ## Limits (R201) -/

/-- R201: the frame would exceed its issue limit: it ends with BUDGET. -/
def execIssueLimit (t : Tid) (s : State) : Res :=
  let x := s.thread t
  if x.runs && decide (s.issueLim t.mill ≤ x.issued) then
    finish (((s.countExc t 0xD x.pc).countMill t.mill 4 6 t.cluster.val).vatDrop t)
  else idle s

/-- R201, R202: the residency limit expires: the frame ends with TIME, unless its `ENQ` is complete, or with the default action where
an exception was reported on that edge. -/
def execResidencyLimit (t : Tid) (s : State) : Res :=
  let x := s.thread t
  if !x.busy || x.enqDone then idle s
  else if x.trapAt = some s.now then finish (s.defaultAction t x.cause)
  else finish (((s.countExc t 0xE x.pc).countMill t.mill 4 7 t.cluster.val).vatDrop t)

/-! ## How a frame ends (R196-R198, R229) -/

/-- The frame as it leaves the vat stage: its class, its queue, its marks, its FCS (R179, R188, R246, R282). -/
def State.verdict (s : State) (x : Thread) (q : Nat) : Frame :=
  let f := x.frame
  let dflt := if f.rx then q / 32 % 8 else match (s.tribAt (x.trib.getD 0)).pool with
    | some c => c.val
    | none => 0
  { f with
    bytes := if x.winWritten then refcs f.bytes else f.bytes
    cls := (x.polCls.or x.cls).getD dflt
    trib := if f.rx then f.trib else x.trib.getD 0
    port := if f.rx then q % 32 else f.port
    queue := q / 32 % 8
    tcEvent := f.tcEvent && f.att.isNone, tcFollow := f.tcFollow && f.att.isNone }

/-- R197, R174, R408: the frame goes to the frame cipher, to its tributary, or to its egress queue. -/
def execEnqComplete (t : Tid) (s : State) : Res :=
  let x := s.thread t
  let m := t.mill
  match x.ended with
  | some (.enq q) =>
    if x.busy && x.answered && s.inOrder t then
      let f := s.verdict x q
      let quiet := s.shadowing && !f.rx
      let s1 := (s.freeThread t quiet).countMill m 4 2 t.cluster.val |>.fixMill m 7
      let s2 := if (x.frame.tcEvent || x.frame.tcFollow) && x.frame.att.isSome then s1.countDev 0xB 1 f.port else s1
      let s3 := if f.tsCapture && !f.rx then s2.tsCapture f f.port f.stamp else s2
      finish (if quiet then (s3.countMill m 5 14 f.port).dropTx m
        else if f.badTag then (s3.countMill m 3 14 (saScx (f.att.getD 0))).dropFrame m f
        else if f.refused then s3.dropFrame m f
        else if f.att.isSome then s3.modSac m fun y => { y with cipherQ := y.cipherQ ++ [f] }
        else if f.rx then s3.joinEgress (portOf f.port) f
        else s3.sendTx f)
    else idle s
  | _ => idle s

/-- R229: the punt queue has room for the frame. -/
def execPuntComplete (t : Tid) (s : State) : Res :=
  let x := s.thread t
  let m := t.mill
  match x.ended with
  | some (.punt q r c) =>
    let q' : Fin 8 := ⟨q % 8, by omega⟩
    if x.busy && s.inOrder t && decide (((s.vat m).punts[q']).length < 64) then
      let f := { x.frame with bytes := if x.winWritten then refcs x.frame.bytes else x.frame.bytes }
      let s1 := (s.freeThread t true).modVat m fun v => { v with
        punts := v.punts.set q' (v.punts[q'] ++ [{ frame := f, reason := r, cause := c }]) }
      finish (s1.countMill m 4 4 q)
    else idle s
  | _ => idle s

/-! ## Clusters (R204) -/

def State.clusterIdle (s : State) (m : Fin 4) (c : Fin 8) : Bool := (s.vat m).threads.all fun e => decide (e.1 / 32 ≠ c.val)

/-- RUN is written 1: from 0, GEN counts and the scratch of the cluster's engines is cleared. -/
def State.clusterRun (s : State) (m : Fin 4) (c : Fin 8) : State :=
  if (s.vat m).run[c] = 1 then s
  else
    (s.modVat m fun v => { v with
      run := v.run.set c 1, gen := v.gen.set c ((v.gen[c] + 1) % 65536)
      scratch := tkeep (fun k => decide (k / 65536 ≠ c.val)) v.scratch }).refill m

/-- RUN is written 0: no new frames; the cluster drains, and what waits in its dispatch queue goes to other clusters. -/
def State.clusterStop (s : State) (m : Fin 4) (c : Fin 8) : State :=
  if (s.vat m).run[c] = 1 then
    (s.modVat m fun v => { v with run := v.run.set c (if s.clusterIdle m c then 0 else 2) }).refill m
  else s

/-- R204. -/
def execVatClusterRun (m : Fin 4) (c : Fin 8) (s : State) : Res := if s.millLive m then finish (s.clusterRun m c) else idle s
/-- R204. -/
def execVatClusterStop (m : Fin 4) (c : Fin 8) (s : State) : Res := if s.millLive m then finish (s.clusterStop m c) else idle s
/-- R204: the last frame has left a draining cluster: IDLE. -/
def execVatClusterIdle (m : Fin 4) (c : Fin 8) (s : State) : Res :=
  if (s.vat m).run[c] = 2 ∧ s.clusterIdle m c then finish (s.modVat m fun v => { v with run := v.run.set c 0 }) else idle s

/-! ## The hash and TCAM windows (R193, R195) -/

/-- The staged words as bytes. -/
def State.staged (s : State) (m : Fin 4) (o n : Nat) : Bytes := (List.range n).flatMap fun i => leBytes 4 (s.reg (Reg.vat m (o + 4 * i)))
/-- Copy an entry into the staging words. -/
def State.unstage (s : State) (m : Fin 4) (o n : Nat) (b : Bytes) : State :=
  (List.range n).foldl (fun s i => s.setReg (Reg.vat m (o + 4 * i)) (leNat (slice (padTo (4 * n) b) (4 * i) 4))) s

/-- An entry of zeros is an unlisted one. -/
def packEntry (b : Bytes) : Bytes := if b.all (· = 0) then [] else b

def State.htCmd (s : State) (m : Fin 4) (entry : Nat) (read : Bool) : State :=
  if (s.vat m).hashOp.isSome then s
  else
    let s1 := (s.setReg (Reg.vat m 0x9A0) (entry + b2n read * 2 ^ 29)).modVat m fun v => { v with hashOp := some ⟨!read, entry⟩ }
    if read then s1.unstage m 0x980 8 (tget [] (s.vat m).hash entry)
    else s1.modVat m fun v => { v with hash := tset [] entry (packEntry (s.staged m 0x980 8)) v.hash }

def State.tcamCmd (s : State) (m : Fin 4) (entry : Nat) (read : Bool) : State :=
  if (s.vat m).tcamOp.isSome then s
  else
    let s1 := (s.setReg (Reg.vat m 0xAC0) (entry + b2n read * 2 ^ 29)).modVat m fun v => { v with tcamOp := some ⟨!read, entry⟩ }
    if read then s1.unstage m 0xA80 11 (tget [] (s.vat m).tcam entry)
    else s1.modVat m fun v => { v with tcam := tset [] entry (packEntry (s.staged m 0xA80 11)) v.tcam }

/-- R193, OP 0. -/
def execHtEntryWrite (m : Fin 4) (entry : Fin 131072) (s : State) : Res := if s.millLive m then finish (s.htCmd m entry.val false) else idle s
/-- R193, OP 1. -/
def execHtEntryRead (m : Fin 4) (entry : Fin 131072) (s : State) : Res := if s.millLive m then finish (s.htCmd m entry.val true) else idle s
/-- R193: BUSY clears. -/
def execHtOpDone (m : Fin 4) (s : State) : Res :=
  if (s.vat m).hashOp.isSome then finish (s.modVat m fun v => { v with hashOp := none }) else idle s
/-- R195. -/
def execTcamEntryWrite (m : Fin 4) (entry : Fin 2048) (s : State) : Res := if s.millLive m then finish (s.tcamCmd m entry.val false) else idle s
/-- R195. -/
def execTcamEntryRead (m : Fin 4) (entry : Fin 2048) (s : State) : Res := if s.millLive m then finish (s.tcamCmd m entry.val true) else idle s
/-- R195. -/
def execTcamOpDone (m : Fin 4) (s : State) : Res :=
  if (s.vat m).tcamOp.isSome then finish (s.modVat m fun v => { v with tcamOp := none }) else idle s

end Sys2Proof.Machine
end

