-- ==== Sys2Proof/Machine/CurRows.lean ====
section
/-! DEFINITION. Command rings, batches, waits, fences and punt delivery (chapter 7), one definition for each command. -/

namespace Sys2Proof.Machine

/-! ## Ring registers (R211, R212, R215, R228) -/

/-- Instructions of the ring in APPLYING or PENDING (CUR_RSTAT.PEND). -/
def State.ringPend (s : State) (r : Rid) : Nat := s.cur[r.eng].outst.countP fun c => decide (c.rid = r)

/-- A write of CUR_RDB by the owner: the producer index, or DB_ERR (R212). -/
def State.doorbell (s : State) (r : Rid) (p : W16) : State :=
  s.modRing r fun g => if (p - g.cons).toNat ≤ s.ringSize r then { g with prod := p } else { g with dbErr := true }

/-- R212, R211. -/
def execRingDoorbell (pf : Fin 2) (r : Rid) (v : W32) (s : State) : Res :=
  if !s.engLive r.eng then idle s
  else if pf ≠ ringPf r then finish (s.lockedWrite pf (Reg.ring r.eng r.ring 0x0C) v.toNat)
  else finish (s.doorbell r (v.setWidth 16))

/-- EN rises (R215); ignored while the function's SEL is 0 (R228) or instructions of the ring pend. -/
def State.ringOn (s : State) (r : Rid) : State :=
  if (s.ring r).en || decide (s.abiSel (ringPf r) = 0) || decide (s.ringPend r ≠ 0) then s
  else s.modRing r fun g => { g with
    en := true, prod := 0, cons := 0, cqHead := 0, cqTail := 0, phase := true, halt := false, dbErr := false
    fetched := [], hold := none, waiting := false, mute := false }
/-- EN falls. -/
def State.ringOff (s : State) (r : Rid) : State := s.modRing r fun g => { g with en := false }

/-- R215, R211, R228. -/
def execRingEnable (pf : Fin 2) (r : Rid) (s : State) : Res :=
  if !s.engLive r.eng then idle s
  else if pf ≠ ringPf r then finish (s.lockedWrite pf (Reg.ring r.eng r.ring 8) (Nat.lor (s.rcfg r) 1))
  else finish (s.ringOn r)
/-- R215, R211. -/
def execRingDisable (pf : Fin 2) (r : Rid) (s : State) : Res :=
  if !s.engLive r.eng then idle s
  else if pf ≠ ringPf r then finish (s.lockedWrite pf (Reg.ring r.eng r.ring 8) (s.rcfg r - s.rcfg r % 2))
  else finish (s.ringOff r)

/-- Every ring of function `f` is disabled. -/
def State.ringsOff (s : State) (f : Fin 2) : Bool :=
  (List.finRange 4).all fun k => (List.finRange 12).all fun i => decide (ringPf ⟨k, i⟩ ≠ f) || !(s.ring ⟨k, i⟩).en

/-- A write of SELf (R228). -/
def State.abiWrite (s : State) (pf f : Fin 2) (v : Nat) : State :=
  if pf = f ∧ s.ringsOff f ∧ 1 ≤ v ∧ v ≤ 2 then s.setFld (Reg.cur 0) (16 + 4 * f.val) 4 v else s
/-- R228. -/
def execAbiSelect (pf f : Fin 2) (v : Fin 16) (s : State) : Res :=
  if s.mgmtLive then finish (s.abiWrite pf f v.val) else idle s

/-- CUR_CQHEAD is written by the owner: there is room again (R213). -/
def State.cqHeadTo (s : State) (r : Rid) (v : W16) : State := (s.modRing r fun g => { g with cqHead := v }).drainAll r
/-- R213, R211. -/
def execCqHeadWrite (pf : Fin 2) (r : Rid) (v : W32) (s : State) : Res :=
  if !s.engLive r.eng then idle s
  else if pf ≠ ringPf r then finish (s.lockedWrite pf (Reg.ring r.eng r.ring 0x1C) v.toNat)
  else finish (s.cqHeadTo r (v.setWidth 16))

/-! ## Fetching (R210, R212, R214, R222) -/

/-- A descriptor of the ring may be read now: up to 8 ahead of the one that executes, which is the head, or the `WAITT` or `FENCE` that
holds the ring; and as many as the batch at the head needs. -/
def State.fetchDue (s : State) (r : Rid) : Bool :=
  let g := s.ring r
  s.engLive r.eng && s.hstLive && g.en && !g.halt && decide (g.cons ≠ g.prod)
    && (decide (g.fetched.length < if g.hold.isSome then 8 else 9) || (s.batchHead r && (batchRun g.fetched).isNone))

/-- A descriptor read that fails halts the ring, with a record of its own (R214). -/
def State.fetchFails (s : State) (r : Rid) (status : Nat) : State :=
  (s.haltRing r 0).record r { tag := 0, status := byteOf status, index := (s.ring r).cons.toNat, irq := true }

def State.fetched (s : State) (r : Rid) (d : HostRead) : State :=
  match d with
  | .error => s.fetchFails r 0x19
  | .timeout => s.fetchFails r 0x1A
  | .data bs =>
    let n := if r.ring.val < 4 then 128 else 16
    let s1 := s.modRing r fun g => { g with fetched := g.fetched ++ [{ index := g.cons.toNat, raw := padTo n bs }], cons := g.cons + 1 }
    if r.ring.val < 4 then s1.drainAll r else s1

/-- R212, R214, R222. -/
def execDescriptorFetch (r : Rid) (d : HostRead) (s : State) : Res :=
  if s.fetchDue r then finish (s.fetched r d) else idle s

/-- R210: the read that the ring awaits ends with TIMEOUT: a descriptor's, the entries' of its DKWRITE, or those of the GCLADM at
its head. -/
def execDmaTimeout (r : Rid) (s : State) : Res :=
  let copies := match (s.dkl r.eng).transfer with
    | some t => decide (t.ref.rid = r)
    | none => false
  if s.fetchDue r then finish (s.fetched r .timeout)
  else if copies then execDkwriteTransferDone r.eng .timeout s
  else execGcladm r .timeout s

/-! ## Completion (R208, R213, R217) -/

/-- R208: the mill has reported the effect of the oldest instruction in APPLYING. -/
def execCurApplyDone (k : Fin 4) (s : State) : Res :=
  match s.cur[k].applying with
  | [] => idle s
  | a :: as => finish ((s.modEng k fun e => { e with applying := as }).complete a.ref 0 a.result.toNat a.late false a.dseq)

/-- The 16 bytes of a record (Table 7-3). -/
def Rec.bytes (x : Rec) (phase : Bool) : Bytes :=
  leBytes 4 x.tag.toNat ++ [x.status, byteOf (b2n phase + 2 * b2n x.late + 4 * b2n x.stepped)] ++ leBytes 2 x.index
    ++ leBytes 8 x.result.toNat

/-- The standby has acknowledged what the record waits for (R407). -/
def State.acked (s : State) (x : Rec) : Bool :=
  match x.dseq with
  | none => true
  | some n => !s.standbyHeld || decide ((s.mte.dacked - n).toNat < 2 ^ 31)

def State.cqBase (s : State) (r : Rid) : Nat := s.reg (Reg.ring r.eng r.ring 0x14) + 2 ^ 32 * s.reg (Reg.ring r.eng r.ring 0x18)

/-- Write the oldest record of a ring. -/
def State.recordOut (s : State) (r : Rid) (x : Rec) (xs : List Rec) : State :=
  let g := s.ring r
  let at_ := g.cqTail.toNat % s.cqSize r
  let s1 := (s.hostWrite (ringPf r) (s.cqBase r + 16 * at_) (x.bytes g.phase)).modRing r fun g => { g with
    done := xs, cqTail := g.cqTail + 1, phase := if at_ + 1 = s.cqSize r then !g.phase else g.phase }
  if x.irq then s1.ringMsix r else s1

/-- R213, R217, R407, R465. -/
def execCompletionRecordWrite (r : Rid) (s : State) : Res :=
  match (s.ring r).done with
  | [] => idle s
  | x :: xs => if s.engLive r.eng && s.hstLive && !s.cqFull r && s.acked x then finish ((s.recordOut r x xs).drainAll r) else idle s

/-! ## WAITT (R223) -/

/-- Take the head of the ring as a `WAITT`: a failed common check halts the ring as well (R214). -/
def State.issueWait (s : State) (r : Rid) (op : Nat → Bool) (run : State → Desc → CmdRef → State) : Res :=
  match s.headFor r 0x38 op with
  | none => idle s
  | some d =>
    match s.gate r d with
    | some st => finish (((s.pop r).waitFail (d.ref r) st).drainAll r)
    | none => finish ((run (s.pop r) d (d.ref r)).drainAll r)

/-- The instruction holds its ring until it is DONE. -/
def State.holdRing (s : State) (ref : CmdRef) (h : Hold) : State := (s.accept ref).modRing ref.rid fun g => { g with hold := some h }

def State.runWaittTime (s : State) (d : Desc) (ref : CmdRef) : State :=
  let b : Fin 8 := ⟨d.p1 % 8, by omega⟩
  match d.time with
  | none => s.waitFail ref 0x1B
  | some t =>
    if !s.tbRun b then s.waitFail ref 0x1C
    else if t ≤ (s.tbAt b).val then s.complete ref 0 0 true
    else s.holdRing ref (.time ref b t (decide (d.p2 ≠ 0)) (s.tbAt b).steps)
/-- R223, R489. -/
def execWaittTime (r : Rid) (s : State) : Res := s.issueWait r (· = 0) State.runWaittTime

def State.runWaittReam (s : State) (d : Desc) (ref : CmdRef) : State :=
  let m := ref.rid.eng
  let target := BitVec.ofNat 32 (d.arg 0 4)
  let gap := (target - (s.line m).rc).toNat
  if !s.txEn m then s.waitFail ref 0x24
  else if gap = 0 ∨ 2 ^ 31 ≤ gap then s.complete ref 0 0 true
  else s.holdRing ref (.ream ref target (decide (d.p2 ≠ 0)))
/-- R223. -/
def execWaittReam (r : Rid) (s : State) : Res := s.issueWait r (· = 1) State.runWaittReam

/-- How a `WAITT` that holds its ring may end now: with TB_DISABLED, or released, STEPPED or not. -/
def State.waitEnd (s : State) (h : Hold) : Option (State) :=
  match h with
  | .time ref b t _ steps =>
    let x := s.tbAt b
    if !s.tbRun b then some (s.waitFail ref 0x1C)
    else if t ≤ x.val then
      some (s.complete ref 0 0 false (decide (x.stepAt = some s.now) && decide ((x.val : Int) - (x.steps - steps) < t)))
    else none
  | .ream ref t _ => if ((s.line ref.rid.eng).rc - t).toNat < 2 ^ 31 then some (s.complete ref 0) else none
  | .fence _ _ => none

/-- R223: the time or the ream is reached. -/
def execWaittRelease (r : Rid) (s : State) : Res :=
  match (s.ring r).hold.bind s.waitEnd with
  | some s1 => finish s1
  | none => idle s

/-- The `WAITT` has a MAXWAIT. -/
def Hold.timed : Hold → Option CmdRef
  | .time ref _ _ true _ => some ref
  | .ream ref _ true => some ref
  | _ => none

/-- R223: MAXWAIT expires; a release on that edge is taken. -/
def execWaittTimeout (r : Rid) (s : State) : Res :=
  match (s.ring r).hold with
  | some h =>
    (match h.timed, s.waitEnd h with
      | some _, some s1 => finish s1
      | some ref, none => finish (s.waitFail ref 0x1A)
      | none, _ => idle s)
  | none => idle s

/-! ## FENCE, EPOCH, NOTIFY (R225, R227, R218) -/

/-- What a `FENCE` awaits: the instructions of its own ring, and all those of the engines of MASK that exist. -/
def State.fenceSet (s : State) (r : Rid) (mask : Nat) : List CmdRef :=
  (List.finRange 4).flatMap fun k =>
    if natBit mask k.val && s.hasMill k then s.cur[k].outst
    else if k = r.eng then s.cur[k].outst.filter fun c => c.rid = r
    else []

/-- Some awaited instruction is not DONE. -/
def State.stillOut (s : State) (cs : List CmdRef) : Bool := cs.any fun c => s.cur[c.rid.eng].outst.contains c

def State.runFence (s : State) (d : Desc) (ref : CmdRef) : State :=
  match s.fenceSet ref.rid d.p1 with
  | [] => s.complete ref 0
  | cs => s.holdRing ref (.fence ref cs)
/-- R225. -/
def execFence (r : Rid) (s : State) : Res := s.issue r 0x39 (fun _ => true) State.runFence

/-- R225: everything awaited is DONE. -/
def execFenceDone (r : Rid) (s : State) : Res :=
  match (s.ring r).hold with
  | some (.fence ref cs) => if s.stillOut cs then idle s else finish (s.complete ref 0)
  | _ => idle s

def applyEpochRead (s : State) (_ : Fin 4) (_ : Desc) : Eff := { s := s, result := s.mte.epoch.toNat + 2 ^ 32 * s.role }
/-- R227. -/
def execEpochRead (r : Rid) (s : State) : Res := s.issue r 0x3A (· = 0) (State.doNow noCheck applyEpochRead)

def checkEpochAssert (s : State) (_ : Fin 4) (d : Desc) : Option Nat := s.epochTest (d.arg 0 4)
def applyNothing (s : State) (_ : Fin 4) (_ : Desc) : Eff := { s := s }
/-- R227. -/
def execEpochAssert (r : Rid) (s : State) : Res := s.issue r 0x3A (· = 1) (State.doNow checkEpochAssert applyNothing)

def applyNotify (s : State) (_ : Fin 4) (d : Desc) : Eff := { s := s, result := d.arg 0 8 }
/-- R218: the value returned, the ring's vector raised whatever IRQ holds. -/
def execNotify (r : Rid) (s : State) : Res :=
  s.issue r 0x3B (fun _ => true) fun s d ref => State.doNow noCheck applyNotify s d { ref with irq := true }

/-! ## Batches (R220, R221) -/

/-- The check of a class B instruction. -/
def Desc.check (d : Desc) : State → Fin 4 → Desc → Option Nat :=
  match d.mop, d.op with
  | 0x01, 1 => checkSainstUpdateLpn
  | 0x01, _ => checkSainstSetcur
  | 0x03, _ => checkSapinUnpin
  | 0x18, _ => checkLkn
  | 0x21, _ => checkGclgo
  | 0x28, _ => checkShpset
  | 0x29, _ => checkPolset
  | 0x2A, 0 => checkQcfgActivate
  | 0x2A, 1 => checkQcfgDeactivate
  | 0x2A, _ => checkQcfgUpdate
  | 0x3A, _ => checkEpochAssert
  | _, _ => noCheck
/-- The effect of a class B instruction. -/
def Desc.effect (d : Desc) : State → Fin 4 → Desc → Eff :=
  match d.mop, d.op with
  | 0x01, 1 => applySainstUpdateLpn
  | 0x01, _ => applySainstSetcur
  | 0x03, _ => applySapinUnpin
  | 0x18, 1 => applyLkarmRxon
  | 0x18, _ => applyLkarmRxoff
  | 0x21, _ => applyGclgo
  | 0x28, _ => applyShpset
  | 0x29, _ => applyPolset
  | 0x2A, 0 => applyQcfgActivate
  | 0x2A, 1 => applyQcfgDeactivate
  | 0x2A, _ => applyQcfgUpdate
  | 0x3B, _ => applyNotify
  | _, _ => applyNothing

/-- Descriptor `d` at place `i` breaks a rule of the batch that `first` begins (R220). -/
def Desc.offends (first : Desc) (i : Nat) (d : Desc) : Bool :=
  decide (16 ≤ i) || decide (d.abi ≠ 2) || !(d.listed && d.classB) || decide (d.u 16 1 ≠ first.u 16 1) || decide (d.epoch ≠ first.epoch)

/-- The place of the first descriptor that breaks a rule. -/
def batchOffender (ds : List Desc) : Option Nat :=
  match ds with
  | [] => none
  | d :: _ => (List.range ds.length).find? fun i => d.offends i (ds.getD i default)

/-- The status with which an instruction of a batch fails CHECK. -/
def State.batchCheck (s : State) (r : Rid) (d : Desc) : Option Nat :=
  match d.malformed (s.abiSel (ringPf r)) with
  | some st => some st
  | none =>
    match s.gate r d with
    | some st => some st
    | none => d.check s r.eng d

/-- Records of a batch of which nothing is accepted: its own status, or ABORTED; a `WAITT` among them halts the ring (R214). -/
def State.rejectAll (s : State) (r : Rid) (sts : List (Option Nat)) (ds : List Desc) : State :=
  (ds.zip sts).foldl (fun s x =>
    if x.1.mop = 0x38 then s.waitFail (x.1.ref r) (x.2.getD 0x17) else s.complete (x.1.ref r) (x.2.getD 0x17)) s

/-- Accept one instruction of a batch; its record follows in batch order (R221). -/
def State.acceptOne (s : State) (r : Rid) (d : Desc) : State :=
  let e := d.effect s r.eng d
  let ref := d.ref r
  e.s.applyNow (if d.mop = 0x3B then { ref with irq := true } else ref) e.result e.late e.dseq

def State.runBatch (s : State) (r : Rid) (ds : List Desc) : State :=
  let s1 := (s.modRing r fun g => { g with fetched := g.fetched.drop ds.length }).modEng r.eng fun e => { e with rr := r.ring.val }
  match batchOffender ds with
  | some i => s1.rejectAll r ((List.range ds.length).map fun j => if j = i then some 0x18 else none) ds
  | none =>
    let sts := ds.map (s.batchCheck r)
    if sts.all (·.isNone) then ds.foldl (fun s d => s.acceptOne r d) s1 else s1.rejectAll r sts ds

/-- R220, R221. -/
def execBatchStart (r : Rid) (s : State) : Res :=
  if s.turn r && s.batchHead r then
    match batchRun (s.ring r).fetched with
    | some ds => finish ((s.runBatch r ds).drainAll r)
    | none => idle s
  else idle s

/-! ## Punted frames (R229) -/

/-- The ring of punt queue `q` of mill `m`. -/
def puntRing (m : Fin 4) (q : Fin 8) : Rid := ⟨m, ⟨4 + q.val, by omega⟩⟩

/-- The metadata block. -/
def Punt.meta (x : Punt) (q : Nat) : Bytes :=
  let f := x.frame
  let st := f.stamp.val
  padTo 64 ([byteOf x.reason, byteOf q, byteOf (b2n f.rx), byteOf f.port] ++ leBytes 2 f.trib ++ leBytes 2 f.bytes.length
    ++ leBytes 4 (tbNs st) ++ leBytes 6 (tbSec st) ++ leBytes 2 (tbFrac st) ++ [byteOf x.cause])

/-- The oldest frame of the queue meets the next buffer. -/
def State.puntOut (s : State) (m : Fin 4) (q : Fin 8) (x : Punt) (d : Desc) : State :=
  let r := puntRing m q
  let n := x.frame.bytes.length
  let k := m.val * 256 + q.val
  let s1 := (s.modVat m fun v => { v with punts := v.punts.set q (v.punts[q].drop 1) }).modRing r fun g => { g with fetched := g.fetched.drop 1 }
  let tag := BitVec.ofNat 32 (d.u 12 4)
  if d.u 8 4 < 9312 then
    (s1.record r { tag := tag, status := 0x1B, index := d.index }).countDev 8 2 k |>.dropFrame m x.frame
  else
    ((s1.hostWrite 0 (d.u 0 8) (x.meta q.val ++ x.frame.bytes)).record r
      { tag := tag, status := 0, index := d.index, result := BitVec.ofNat 64 (n % 2 ^ 14) }).countDev 8 1 k |>.creditReturn x.frame

/-- R229. -/
def execPuntDeliver (m : Fin 4) (q : Fin 8) (s : State) : Res :=
  let g := s.ring (puntRing m q)
  match (s.vat m).punts[q], g.fetched with
  | x :: _, d :: _ =>
    if s.engLive m && s.hstLive && s.millLive m && g.en && !g.halt && !s.cqFull (puntRing m q) then finish (s.puntOut m q x d) else idle s
  | _, _ => idle s

end Sys2Proof.Machine
end

