-- ==== Sys2Proof/Machine/LineRx.lean ====
section
/-! DEFINITION. The deframer's alignment (chapters 2 and 3): lane markers, codeword lock, group alignment, lost sheets, line
defects, receiver enable. -/

namespace Sys2Proof.Machine

def State.rxEn (s : State) (m : Fin 4) : Bool := s.bit (Reg.lnf m 0) 1
def State.huntEn (s : State) (m : Fin 4) : Bool := s.bit (Reg.lnf m 0) 2

/-- R79: a sheet period passes while a group that has been aligned is not aligned. -/
def execLostSheetPeriod (m : Fin 4) (s : State) : Res :=
  if s.millLive m && s.rxEn m && (s.line m).everAligned && !(s.line m).aligned then
    finish (((s.modLine m fun l => { l with outage := l.outage + 1 }).sheetLost m).countLost m 1)
  else idle s

/-- R72, R111: codeword lock, where two consecutive codewords at one alignment decode; a shed lane starts its hold-off. -/
def execCodewordLock (m : Fin 4) (rx : LockPair) (s : State) : Res :=
  if s.millLive m && (s.line m).lanes[rx.lane].locw && s.laneDelivers (lineLane m rx.lane)
    && Rs.correctable rx.first && Rs.correctable rx.second then
    finish (s.modLine m fun l => { l with lanes := l.lanes.set rx.lane { l.lanes[rx.lane] with
      locw := false, holdoff := (s.dkl m).rxMap.getLsbD rx.lane.val, ready := false } })
  else idle s

/-! ## Lane markers (R74, Tables 2-7 and 2-9) -/

/-- What a candidate says: LSC, LANE, LANE_COUNT. -/
structure MarkerInfo where
  lsc : W32
  lane : Nat
  count : Nat
deriving DecidableEq, Repr

/-- A window that is a candidate (chapter 2, Hunt, presync and sync). -/
def candidate (w : Bytes) : Option MarkerInfo :=
  let id := (byteAt w 6).toNat
  let x : MarkerInfo := { lsc := BitVec.ofNat 32 (beNat (slice w 8 4)), lane := id % 8, count := id / 16 }
  if w.length = 16 ∧ w = marker x.count x.lane x.lsc ∧ 1 ≤ x.count ∧ x.count ≤ 8 ∧ x.lane < x.count then some x else none

/-- The announced shed begins with the next ream (R71): FLIP_CD 0b01 with SHED in the last accepted overhead. -/
def State.shedComes (s : State) (m : Fin 4) : Bool := decide ((s.dkl m).farCd = 1) && (s.dkl m).farShed

/-- The marker matches at the expected position of a lane. -/
def RxLane.matches (x : RxLane) (shed : Bool) (c : MarkerInfo) : Bool :=
  decide (c.lsc.toNat = (x.lsc + 500) % 2 ^ 32)
    && (decide (c.lane = x.lane ∧ c.count = x.count) || (shed && decide (c.count + 1 = x.count ∧ (c.lane = x.lane ∨ c.lane + 1 = x.lane))))

/-- The marker is recorded. -/
def RxLane.take (x : RxLane) (c : MarkerInfo) (arrival : Nat) : RxLane :=
  { x with lsc := c.lsc.toNat, lane := c.lane, count := c.count, arrival := arrival, misses := 0, missed := false }

/-- A lane judges the window at its candidate or expected position (Table 2-9); none: nothing happens. -/
def RxLane.judge (x : RxLane) (shed : Bool) (c : Option MarkerInfo) (arrival : Nat) : Option RxLane :=
  match x.st, c with
  | .hunt, none => none
  | .hunt, some c => some { x.take c arrival with st := .presync1 }
  | .presync1, some c => if x.matches shed c then some { x.take c arrival with st := .presync2 } else some { x with st := .hunt }
  | .presync2, some c => if x.matches shed c then some { x.take c arrival with st := .sync } else some { x with st := .hunt }
  | .presync1, none => some { x with st := .hunt }
  | .presync2, none => some { x with st := .hunt }
  | .sync, c =>
    let hit := match c with
      | some c => x.matches shed c
      | none => false
    match hit, c with
    | true, some c => some (x.take c arrival)
    | _, _ =>
      if x.misses < 3 then
        some { x with lsc := (x.lsc + 500) % 2 ^ 32, arrival := arrival, misses := x.misses + 1, missed := true }
      else some { x with st := .hunt }

/-! ## Group alignment (R77, R78, R107-R110) -/

/-- The lane to be removed at an announced shed boundary: the one lane of the set whose marker does not match, the others being
in agreement on one lane fewer (R107). -/
def State.shedLane (s : State) (m : Fin 4) : Option (Fin 8) :=
  let set := s.rxSet m
  let xs := s.rxLanesOf m set
  match (lanesIn set).filter fun j => (s.line m).lanes[j].missed with
  | [j] => if s.shedComes m && sameReam xs && lanesAgree (s.rxLanesOf m (set &&& ~~~(1#8 <<< j.val))) then some j else none
  | _ => none

/-- RX_MAP changes. -/
def State.setRxMap (s : State) (m : Fin 4) (rx : Byte) : State := s.setMaps m (s.dkl m).txMap rx

/-- The set of lanes on which the group aligns now, if any: the effective set (R77), that set and a shed lane (R110), or that
set less the one lane in LOL (R108). -/
def State.alignSet (s : State) (m : Fin 4) : Option Byte :=
  let rx := (s.dkl m).rxMap
  if lanesAgree (s.rxLanesOf m (s.rxSet m)) then some rx
  else
    match (lanesIn rx).find? fun j => lanesAgree (s.rxLanesOf m (s.rxSet m ||| (1#8 <<< j.val))) with
    | some j => some (rx &&& ~~~(1#8 <<< j.val))
    | none =>
      match (lanesIn (s.rxSet m)).filter fun j => (s.line m).lanes[j].lol with
      | [j] => if lanesAgree (s.rxLanesOf m (s.rxSet m &&& ~~~(1#8 <<< j.val))) then some (rx ||| (1#8 <<< j.val)) else none
      | _ => none

/-- LSC of sheet 0 of the ream in progress at the receiver, as the marker of LANE 0 has it. -/
def State.markerLsc (s : State) (m : Fin 4) : Nat :=
  match (s.rxLanesOf m (s.rxSet m)).find? fun x => decide (x.lane = 0) with
  | some x => x.lsc
  | none => 0

/-- The gap in LSC across an outage, and the sheets that the count made during it missed (R79). -/
def lscGap (next : W32) (last : Option W32) (outage : Nat) : Nat × Nat :=
  match last with
  | none => (0, 0)
  | some l =>
    let g := (next - l - 1).toNat
    (g, if g < 2 ^ 31 then g - outage else 0)

/-- The group is aligned (R77, R79): sheets are released from the ream that the markers begin; negotiation starts. -/
def State.gainAlign (s : State) (m : Fin 4) (rx : Byte) : State :=
  let s1 := if rx = (s.dkl m).rxMap then s else s.setRxMap m rx
  let next := BitVec.ofNat 32 (s1.markerLsc m)
  let (g, more) := lscGap next (s1.line m).rxLast (s1.line m).outage
  let s2 := s1.modLine m fun l => { l with aligned := true, everAligned := true, rxNext := next, outage := 0 }
  let s3 := (if g = 0 then s2 else s2.sheetLost m).countLost m more
  (s3.setLoa m false).negLook m

/-- LSC of the marker position at which skew can be judged now: the lanes of the set in SYNC have all been judged there, and skew has
not been yet (R78, R79). -/
def State.skewPos (s : State) (m : Fin 4) : Option Nat :=
  let xs := (s.rxLanesOf m (s.rxSet m)).filter fun x => decide (x.st = .sync)
  match xs with
  | x :: _ => if sameReam xs && decide ((s.line m).runs.skewAt ≠ some x.lsc) then some x.lsc else none
  | [] => none

/-- Skew is judged among the lanes of the set in SYNC (R78, R79, Table 2-12). -/
def State.skewLook (s : State) (m : Fin 4) : State :=
  match s.skewPos m with
  | none => s
  | some pos =>
    let xs := (s.rxLanesOf m (s.rxSet m)).filter fun x => decide (x.st = .sync)
    let good := (s.line m).runs.skewOk + 1
    if skewMax < skewOf xs then
      ((s.modLine m fun l => { l with runs := { l.runs with skewAt := some pos, skewOk := 0 } }).setSkew m true).loseAlign m
    else
      let s1 := s.modLine m fun l => { l with runs := { l.runs with skewAt := some pos, skewOk := good } }
      if 2 ≤ good then s1.setSkew m false else s1

/-- The group looks at its lanes after one of them has changed. -/
def State.groupLook (s : State) (m : Fin 4) : State :=
  let s1 := match s.shedLane m with
    | some j => if (s.line m).aligned then s.setRxMap m ((s.dkl m).rxMap ||| (1#8 <<< j.val)) else s
    | none => s
  let s2 := s1.skewLook m
  if (s2.line m).aligned then s2
  else match s2.alignSet m with
    | some rx => s2.gainAlign m rx
    | none => s2

/-- A LANE 0 marker arrives: its stamp is recorded (R60, R61, R276, R280). -/
def State.rxMark (s : State) (m : Fin 4) : State :=
  let st := s.lineStamp m false
  s.modLine m fun l => { l with rxMarks := (st :: l.rxMarks).take 4 }

/-- R74, R77, R78, R107-R110: a lane's candidate or expected marker position is judged. -/
def execLaneMarkerCheck (m : Fin 4) (lane : Fin 8) (o : MarkerObs) (s : State) : Res :=
  let x := (s.line m).lanes[lane]
  if s.millLive m && s.rxEn m && s.huntEn m && !x.locw && s.laneDelivers (lineLane m lane) then
    match x.judge (s.shedComes m) (candidate (markerWindow o)) o.arrival with
    | none => idle s
    | some y =>
      let s1 := s.modLine m fun l => { l with lanes := l.lanes.set lane y }
      let s2 :=
        if x.st = .sync ∧ y.st = .hunt then s1.laneLost m lane
        else if y.st = .sync ∧ x.lol then
          (s1.modLine m fun l => { l with lanes := l.lanes.set lane { l.lanes[lane] with lol := false } }).defectEdge m (16 + lane.val) false
        else s1
      let s3 := if y.st ≠ .hunt ∧ y.lane = 0 ∧ ((s.rxSet m).getLsbD lane.val ∨ !(s.line m).aligned) then s2.rxMark m else s2
      finish (s3.groupLook m)
  else idle s

/-! ## Receiver enable (R488), watermark enable (R81) -/

/-- Every lane of the group goes to HUNT. -/
def State.huntAll (s : State) (m : Fin 4) : State := (List.finRange 8).foldl (fun s j => s.laneLost m j) s

/-- RX_EN is written (R79, R488): sheets are no longer released, so rebuilds seek (R58). -/
def State.setRxEn (s : State) (m : Fin 4) (v : Bool) : State :=
  if v = s.rxEn m then s
  else if v then
    (s.setBit (Reg.lnf m 0) 1).modLine m fun l => { l with everAligned := false, rxLast := none, outage := 0 }
  else
    let s1 := (((s.setBit (Reg.lnf m 0) 1 false).huntAll m).loseAlign m).sheetLost m
    let s2 := ((s1.setAuth m false).setKeyless m false).setWm m false
    let s3 := (List.finRange 5).foldl (fun s i => s.setFeDef m i false) s2
    s3.modLine m fun l => { l with runs := {}, wmCycle := none, wmSeen := 0, wmWrong := false }

/-- R488. -/
def execLnfRxEnable (m : Fin 4) (s : State) : Res := if s.millLive m then finish (s.setRxEn m true) else idle s
def execLnfRxDisable (m : Fin 4) (s : State) : Res := if s.millLive m then finish (s.setRxEn m false) else idle s

/-- HUNT_EN is written (Table 2-9). -/
def State.setHuntEn (s : State) (m : Fin 4) (v : Bool) : State :=
  let s1 := s.setBit (Reg.lnf m 0) 2 v
  if v then s1 else s1.huntAll m

/-- WM_EN is written: 0 clears WM, and the runs start from zero (R81). -/
def State.setWmEn (s : State) (m : Fin 4) (v : Bool) : State :=
  let s1 := s.setBit (Reg.lnf m 0) 3 v
  if v then s1 else (s1.setWm m false).modLine m fun l => { l with runs := { l.runs with wmBad := 0, wmGood := 0 } }
/-- R81. -/
def execLnfWmDisable (m : Fin 4) (s : State) : Res := if s.millLive m then finish (s.setWmEn m false) else idle s

/-! ## Declarations and clearings that runs decide (R84, Table 2-12) -/

/-- The line integrity source fires (R84), where its domain is out of reset. -/
def State.lineIntegrity (s : State) : State := if s.islandLive then s.tamperFire (1#12 <<< 11) else s

/-- AUTH is declared: the line integrity source fires (R84), and the LKN of the last failing sheet is resynchronised (R140). -/
def State.declareAuth (s : State) (m : Fin 4) : State :=
  let s1 := (s.setAuth m true).lineIntegrity
  let k : Fin 4 := ⟨(s.line m).runs.lastFail % 4, by omega⟩
  if s.autoResync m && (s1.lkn m k).rx && decide ((s1.lkn m k).track = .track) then s1.resync m k else s1

def State.feIndex : Defect → Option (Fin 5)
  | .feRdi => some 0 | .feRaf => some 1 | .feRwm => some 2 | .feRkl => some 3 | .feLane => some 4
  | _ => none

/-- The defects that a run of sheets, or of codewords (R72), declares; none: its condition is not met, or it is declared on the edge of
another command. -/
def State.declare (s : State) (m : Fin 4) (d : Defect) : Option State :=
  let l := s.line m
  match d with
  | .locw j cws =>
    if !l.lanes[j].locw && (!s.laneDelivers (lineLane m j) || (decide (cws.length = 8) && cws.all fun c => !Rs.correctable c)) then
      some (s.loseLock m j)
    else none
  | .auth => if !l.defects.auth && decide (s.fld (Reg.lnf m 0) 8 4 ≤ l.runs.authFail) then some (s.declareAuth m) else none
  | .keyless => if !l.defects.keyless && decide (3 ≤ l.runs.unkeyed) then some (s.setKeyless m true) else none
  | .wm => if !l.defects.wm && s.bit (Reg.lnf m 0) 3 && decide (3 ≤ l.runs.wmBad) then some (s.setWm m true).lineIntegrity else none
  | d =>
    match State.feIndex d with
    | some i =>
      if !l.defects.fe i && decide (3 ≤ l.runs.feSet[i]) then
        (let s1 := s.setFeDef m i true
         some (if i = 4 then s1.autoShed m else s1))
      else none
    | none => none

/-- R84, R105, R140: a defect is declared. SKEW, LOA, LOL, DLGF and VERF are declared within the command whose edge Table 2-12
names. -/
def execDefectDeclare (m : Fin 4) (d : Defect) (s : State) : Res :=
  let lane := match d with
    | .locw _ _ => true
    | _ => false
  if s.millLive m && (s.rxEn m || lane) then
    (match s.declare m d with
      | some s1 => mateEnd s1
      | none => idle s)
  else idle s

/-- The defects that a run of sheets clears. -/
def State.undeclare (s : State) (m : Fin 4) (d : Defect) : Option State :=
  let l := s.line m
  match d with
  | .auth => if l.defects.auth && decide (4 ≤ l.runs.authOk) then some (s.setAuth m false) else none
  | .keyless => if l.defects.keyless && decide (3 ≤ l.runs.keyed) then some (s.setKeyless m false) else none
  | .wm => if l.defects.wm && decide (3 ≤ l.runs.wmGood) then some (s.setWm m false) else none
  | d =>
    match State.feIndex d with
    | some i => if l.defects.fe i && decide (3 ≤ l.runs.feClr[i]) then some (s.setFeDef m i false) else none
    | none => none

/-- R84: a defect is cleared. -/
def execDefectClear (m : Fin 4) (d : Defect) (s : State) : Res :=
  if s.millLive m && s.rxEn m then
    (match s.undeclare m d with
      | some s1 => finish s1
      | none => idle s)
  else idle s

end Sys2Proof.Machine
end

