-- ==== Sys2Proof/Machine/LineIn.lean ====
section
/-! DEFINITION. Sheets that arrive (chapters 2, 4 and 8): acceptance, watermark, overhead, credit, rebuild of frames, and the
dialogue's receiving side. -/

namespace Sys2Proof.Machine

/-! ## Acceptance (R66, R134-R136) -/

/-- The sequence number that SEQ_LO `lo` stands for, with base `b` (R134). -/
def seqFrom (b lo : Nat) : Nat :=
  let low := b % 2 ^ 32
  (b / 2 ^ 32 + b2n (decide (lo ≤ low ∧ 2 ^ 31 ≤ low - lo))) * 2 ^ 32 + lo

/-- The base of an LKN: its trial base, or the highest number accepted. -/
def Lkn.base (x : Lkn) : Nat :=
  match x.track with
  | .trial b _ => b
  | _ => x.sh

/-- What the line cipher finds (R134). -/
inductive SheetVerdict where
  /-- Accepted: sequence number and cells in clear. -/
  | accept (seq : Nat) (cells : Bytes)
  | disabled | seqReject | tagFail
deriving DecidableEq, Repr

/-- R134 for a keyed sheet that names LKN `v` at an end whose direction bit is `dir`. -/
def Lkn.verdict (v : Lkn) (dir : Bool) (x : Sheet) : SheetVerdict :=
  if !v.loaded || !v.rx then .disabled
  else
    let n := seqFrom v.base (beNat (slice x.oh 4 4))
    if n ≤ v.sh ∨ 2 ^ 48 < n then .seqReject
    else
      let (pt, tag) := gcmDec v.key (sheetIv v.salt (lcid v.chid dir) n) x.oh x.cells.flatten
      if tag = x.tag.take 16 then .accept n pt else .tagFail

/-- A keyed sheet under LKN `k` is accepted (R134, R135, R140). -/
def State.keyedAccept (s : State) (m k : Fin 4) (seq : Nat) : State :=
  let v := s.lkn m k
  let won := match v.track with
    | .trial _ _ => true
    | _ => false
  let s1 := (((s.modLkn m k fun x => { x with sh := seq, track := .track, rxSeen := true }).modLci m
    fun x => { x with rxLast := k.val }).countMill m 1 2 k.val).fixMill m 4
  let s2 := if won then s1.countMill m 1 7 0 else s1
  let s3 := if v.rxSeen then s2 else s2.setBit (Reg.lci m 4) (12 + k.val)
  s3.modLine m fun l => { l with runs := { l.runs with
    authOk := l.runs.authOk + 1, authFail := 0, keyed := l.runs.keyed + 1, unkeyed := 0 } }

/-! ## Dialogue messages in a slot (R85, R86, R138) -/

/-- TYPE and body of a message that fills its fragments from the start, where its CRC verifies (R85). -/
def takeMessage (bs : Bytes) : Option (Byte × Bytes) :=
  let len := (byteAt bs 1).toNat
  if len ≤ 234 ∧ len + 4 ≤ bs.length ∧ slice bs (2 + len) 2 = lineCrc (bs.take (2 + len)) then
    some (byteAt bs 0, slice bs 2 len)
  else none

def State.inboxPut (s : State) (m : Fin 4) (type : Byte) (body : Bytes) (seqLo : Nat) : State :=
  s.modLine m fun l => { l with dlg := { l.dlg with inbox := l.dlg.inbox ++ [{ type := type, body := body, seqLo := seqLo }] } }

/-- A SEQ_UPPER or SEQ_QUERY in the slot of a keyed sheet that was discarded (R138). -/
def State.selfChecking (s : State) (m : Fin 4) (oh : Bytes) : State :=
  let d0 := (byteAt oh 32).toNat
  if d0 / 64 = 3 ∧ d0 / 8 % 8 = 0 then
    match takeMessage (slice oh 34 30) with
    | some (ty, body) =>
      if (ty = 0x10 ∧ body.length = 8) ∨ (ty = 0x11 ∧ body.length = 2) then s.inboxPut m ty body (beNat (slice oh 4 4)) else s
    | none => s
  else s

/-- A keyed sheet is discarded by the line cipher: one failing sheet, lost to the rebuild (R135, R25). -/
def State.keyedDiscard (s : State) (m k : Fin 4) (event : Nat) (oh : Bytes) : State :=
  let s1 := (s.countMill m 1 event 0).modLkn m k fun x => { x with
    track := match x.track with
      | .trial b n => .trial b (n + 1)
      | t => t }
  let s2 := s1.modLine m fun l => { l with runs := { l.runs with
    authFail := l.runs.authFail + 1, authOk := 0, keyed := 0, unkeyed := 0, lastFail := k.val } }
  ((s2.sheetLost m).fixMill m 5).selfChecking m oh

/-- A complete message whose MSEQ is `mseq` (R86, R88): a repeat, or a host message that finds RX_FULL, is not delivered. -/
def State.messageIn (s : State) (m : Fin 4) (mseq seqLo : Nat) (bs : Bytes) : State :=
  match takeMessage bs with
  | none => s
  | some (ty, body) =>
    let d := (s.line m).dlg
    let host := fun (t : Byte) => decide (0x80 ≤ t.toNat ∧ t.toNat < 0xFF)
    let full := s.bit (Reg.lnf m 0x20) 7 || d.inbox.any fun x => host x.type
    if d.lastTaken = some mseq then s
    else if host ty && full then s
    else (s.modLine m fun l => { l with dlg := { l.dlg with lastTaken := some mseq } }).inboxPut m ty body seqLo

/-- The slot of an accepted overhead (R86). -/
def State.dialogueIn (s : State) (m : Fin 4) (oh : Bytes) : State :=
  let d0 := (byteAt oh 32).toNat
  let d1 := (byteAt oh 33).toNat
  let frag := d0 / 8 % 8
  let data := slice oh 34 30
  let s1 := s.modLine m fun l => { l with dlg := { l.dlg with ackIn := if natBit d0 2 then some (d1 % 16) else none } }
  if !natBit d0 7 then s1
  else
    let d := (s1.line m).dlg
    let got : Option Bytes :=
      if frag = 0 then some data
      else if d.rxFrags = frag ∧ d.rxMseq = d1 / 16 then some (d.rxBytes ++ data)
      else none
    match got with
    | none => s1.modLine m fun l => { l with dlg := { l.dlg with rxFrags := 0, rxBytes := [] } }
    | some bs =>
      if natBit d0 6 then
        (s1.modLine m fun l => { l with dlg := { l.dlg with rxFrags := 0, rxBytes := [] } }).messageIn m (d1 / 16) (beNat (slice oh 4 4)) bs
      else s1.modLine m fun l => { l with dlg := { l.dlg with rxMseq := d1 / 16, rxFrags := frag + 1, rxBytes := bs } }

/-! ## Watermark (R80, R81) -/

/-- The runs after a cycle: a differing byte makes it mismatched, 64 equal bytes matched; otherwise it is incomplete. -/
def Runs.wmJudged (r : Runs) (seen : Nat) (wrong : Bool) : Runs :=
  if wrong then { r with wmBad := r.wmBad + 1, wmGood := 0 }
  else if seen = 64 then { r with wmGood := r.wmGood + 1, wmBad := 0 }
  else r

/-- The cycle in progress is judged (R80), where WM_EN is 1. -/
def State.wmJudge (s : State) (m : Fin 4) : State :=
  s.modLine m fun l => { l with
    wmSeen := 0, wmWrong := false
    runs := if s.bit (Reg.lnf m 0) 3 then l.runs.wmJudged l.wmSeen l.wmWrong else l.runs }

/-- A sheet of another cycle than the one before: a cycle whose WM_POS 63 passed unseen is judged now, and the expected string is
taken over (Table 2-19). -/
def State.wmBegin (s : State) (m : Fin 4) (lsc : Nat) : State :=
  if (s.line m).wmCycle = some (lsc / 64) then s
  else (s.wmJudge m).modLine m fun l => { l with wmExpect := s.wmRegs m 0x140, wmCycle := some (lsc / 64) }

/-- The cycle is judged at WM_POS 63, whatever became of that sheet. -/
def State.wmEnd (s : State) (m : Fin 4) (lsc : Nat) : State :=
  if lsc % 64 = 63 then (s.wmJudge m).modLine m fun l => { l with wmCycle := none } else s

/-- An accepted sheet's WM_BYTE is compared and copied. -/
def State.wmTake (s : State) (m : Fin 4) (pos : Nat) (b : Byte) : State :=
  s.modLine m fun l => { l with
    wmRecv := l.wmRecv.set pos b, wmSeen := l.wmSeen + 1, wmWrong := l.wmWrong || decide (byteAt l.wmExpect pos ≠ b) }

/-! ## Credit and echo (R61, R262, R279) -/

/-- One credit entry. -/
def State.creditIn (s : State) (m : Fin 4) (e : Nat) : State :=
  let n := natBits e 18 14
  let c := BitVec.ofNat 16 (natBits e 0 16)
  let t := s.tribIn m n
  if natBits e 16 2 = 1 ∧ t.active ∧ t.grant ≠ 0 then
    let o := (t.sent - t.count).toNat
    let wait := s.fld (Reg.sch m 0x50) 0 12 * 250
    if c = t.count then
      if o ≠ 0 ∧ t.lastCell + wait ≤ s.now then
        (((s.modTribIn m n fun t => { t with sent := c }).countMill m 5 7 n).countMill m 5 8 n o).wake m n
      else s
    else (s.modTribIn m n fun t => { t with count := c }).wake m n
  else s

def State.creditsIn (s : State) (m : Fin 4) (bs : Bytes) : State := (chunksOf 4 bs).foldl (fun s b => s.creditIn m (beNat b)) s

/-- The departure stamp kept for a REAM_TAG (R61). -/
def Line.departed (l : Line) (tag : Nat) : Option Stamp := (l.t1.find? fun e => decide (e.1 = tag)).map (·.2)

/-- The echo of a far ream whose sheet 0 has LSC `ream`, from its first accepted sheet; `t4` is the arrival of its LANE 0 marker
(R61). -/
def State.echoIn (s : State) (m : Fin 4) (ream : W32) (t4 : Option Stamp) (oh : Bytes) : State :=
  if (s.line m).echoTaken = some ream then s
  else
    let s1 := s.modLine m fun l => { l with echoTaken := some ream }
    let turn := beNat (slice oh 16 4)
    match t4, (s.line m).departed (byteAt oh 14).toNat with
    | some t4, some t1 => if turn = 0 then s1 else s1.lineRtt m (((t4.sub t1 : Int) : Rat) / 2 ^ 34 - turn)
    | _, _ => s1

/-! ## Cells (R53, R58, R487, Table 2-4) -/

/-- A rebuilt frame is complete: delivered where its FCS checks and it has a route, otherwise discarded and counted. -/
def State.frameBuilt (s : State) (m : Fin 4) (n : Nat) (x : Rebuild) : State :=
  let t := s.tribRx m n
  let f := { x.frame m n t with stamp := s.stamp (s.lineTb m) }
  if !fcsGood x.acc then (s.countMill m 0 2 n).dropRx m f
  else match t.route with
    | some _ => s.deliverRx m f
    | none => s.routeDrop m f

def State.rebuildOf (s : State) (m : Fin 4) (n : Nat) : Rebuild := tget default (s.line m).rebuild n
def State.setRebuild (s : State) (m : Fin 4) (n : Nat) (x : Rebuild) : State :=
  s.modLine m fun l => { l with rebuild := tset default n x l.rebuild }

/-- The rebuild of tributary `n` goes to SEEK with a delimiter error. -/
def State.delimError (s : State) (m : Fin 4) (n : Nat) : State :=
  ((s.dropPartial m n (s.rebuildOf m n)).countMill m 0 1 n).setRebuild m n {}

/-- A delimiter has been read: its units are charged, and held, for a credit tributary (R260, R261). -/
def State.delimRead (s : State) (m : Fin 4) (n len : Nat) (ref : Stamp) : State :=
  let units := if (s.tribRx m n).grant = 0 then 0 else unitsOf len
  (if units = 0 then s else s.modTribIn m n fun t => { t with held := t.held + units }).setRebuild m n
    { inStream := true, due := false, half := none, need := len, acc := [], stamp := ref, units := units }

/-- The data of a cell runs through the rebuild of its tributary. `fin`: the cell carries END. -/
def State.runData (m : Fin 4) (n : Nat) (fin : Bool) (ref : Stamp) : Nat → Bytes → State → State
  | 0, _, s => s
  | k + 1, bs, s =>
    let x := s.rebuildOf m n
    if x.need ≠ 0 then
      let y := { x with acc := x.acc ++ bs.take x.need, need := x.need - bs.length }
      if bs.length < x.need then
        (if fin then (s.setRebuild m n y).delimError m n else s.setRebuild m n y)
      else
        let rest := bs.drop x.need
        let s1 := (s.setRebuild m n { inStream := true, due := fin || rest.isEmpty }).frameBuilt m n y
        if fin || rest.isEmpty then s1 else runData m n fin ref k rest s1
    else
      let first := match x.half with
        | some b => [b]
        | none => []
      match first ++ bs with
      | a :: b :: rest =>
        let d := a.toNat * 256 + b.toNat
        if d < 64 ∨ 9248 < d then s.delimError m n
        else runData m n fin ref k rest (s.delimRead m n d (if x.half.isSome then x.stamp else ref))
      | [a] => if fin then s.delimError m n else s.setRebuild m n { x with half := some a, due := false, stamp := ref }
      | [] => s

/-- A payload cell of an active tributary (Table 2-4). -/
def State.cellIn (s : State) (m : Fin 4) (n seg : Nat) (ref : Stamp) (data : Bytes) : State :=
  let start := decide (seg % 2 = 1)
  let x := s.rebuildOf m n
  let run := fun (s : State) => State.runData m n (decide (2 ≤ seg)) ref 64 data s
  if !x.inStream then (if start then run (s.setRebuild m n { inStream := true }) else s)
  else if start = x.due then run s
  else
    let s1 := s.delimError m n
    if start then run (s1.setRebuild m n { inStream := true }) else s1

/-- A payload cell (R53, R487). -/
def State.unpackCell (s : State) (m : Fin 4) (ref : Stamp) (c : Bytes) : State :=
  let tag := beNat (c.take 2)
  let n := tag / 4
  if tag = 0xFFFC then s
  else if n = 0 ∨ 0x3FFE ≤ n then s.countMill m 0 0 n
  else if (s.tribRx m n).active then s.cellIn m n (tag % 4) ref (c.drop 2)
  else
    let s1 := s.countMill m 0 12 n
    if tag % 2 = 1 then s1.fixMill m 1 else s1

/-! ## A sheet (R66, R67, R81) -/

/-- The receive record of a sheet, kept while the device is one of a pair (R409): at the active to be told, at the standby to be
compared with the active's, which may have come before. -/
def State.rxRecord (s : State) (m : Fin 4) (lsc : W32) (accepted : Bool) (lkn : Nat) (cells : Bytes) : State :=
  if s.standbyHeld || s.framerFollows then
    let r : RxRec := { lsc := lsc, accepted := accepted, lkn := lkn, dig := if accepted then BitVec.ofNat 32 (crc32c cells) else 0 }
    let s1 := s.modMte fun x => { x with peerRecs := x.peerRecs.set m (laterRecs lsc x.peerRecs[m]) }
    match s.mte.peerRecs[m].find? fun o => decide (o.lsc = lsc) with
    | some o => s1.judgeDig m r o
    | none => s1.modMte fun x => { x with rxRecs := x.rxRecs.set m (x.rxRecs[m] ++ [r]) }
  else s

/-- Runs of the far-end defects in accepted overheads (Table 2-12). -/
def Runs.fe (r : Runs) (bits : List Bool) : Runs :=
  { r with
    feSet := Vector.ofFn fun i : Fin 5 => if bits.getD i.val false then r.feSet[i] + 1 else 0
    feClr := Vector.ofFn fun i : Fin 5 => if bits.getD i.val false then 0 else r.feClr[i] + 1 }

/-- The overhead of an accepted sheet: back-indications, the far page, the far ream; features that the version in force lacks are
ignored (R90). -/
def State.overheadIn (s : State) (m : Fin 4) (t4 : Option Stamp) (oh : Bytes) : State :=
  let bi := (byteAt oh 12).toNat
  let lanes := byteAt oh 13
  let ctl := (byteAt oh 3).toNat
  let v3 := decide (3 ≤ (s.line m).dlg.ver)
  let s1 := s.modLine m fun l => { l with
    feLaneMap := lanes
    runs := l.runs.fe [natBit bi 7, natBit bi 6, natBit bi 5, natBit bi 4, decide (lanes ≠ 0)] }
  let s2 := s1.modDkl m fun x => { x with
    farPage := natBit ctl 5, farCd := ctl / 8 % 4, farShed := natBit ctl 2 && v3 }
  s2.modLine m fun l =>
    match t4 with
    | some t => if l.far.map (·.2) = some t then l else { l with far := some ((byteAt oh 10).toNat, t), farAge := 0 }
    | none => l

/-- The place of the sheet that the deframer releases next: SHEET_IDX, and how many LANE 0 markers are newer than its ream's. -/
def State.rxPlace (s : State) (m : Fin 4) : Nat × Nat :=
  let l := s.line m
  let d : W32 := l.rxNext - BitVec.ofNat 32 (s.markerLsc m)
  if !d.msb then (d.toNat % 500, 0)
  else
    let back := (-d).toNat
    ((500 - back % 500) % 500, (back + 499) / 500)

/-- An accepted sheet with its cells in clear and its credit entries unsealed (R67, R80, R81). -/
def State.sheetAccepted (s : State) (m : Fin 4) (lsc : W32) (x : Sheet) (credit : Bytes) (cells : List Bytes) : State :=
  let (idx, k) := s.rxPlace m
  let pos := lsc.toNat % 64
  let marks := (s.line m).rxMarks.drop k
  let ver := (s.line m).dlg.ver
  let n := popCount (s.rxSet m)
  if beNat (slice x.oh 8 2) % 512 ≠ idx ∨ beNat (slice x.oh 8 2) / 1024 ≠ pos ∨ (byteAt x.oh 15).toNat % 16 ≠ n then
    ((s.countMill m 0 5 0).fixMill m 5).sheetLost m
  else
    let s1 := (s.wmTake m pos (byteAt x.oh 11)).overheadIn m marks.head? x.oh
    if s.bit (Reg.lnf m 0) 4 && (s.line m).defects.wm then (s1.countLost m 1).sheetLost m
    else
      let s2 := s1.dialogueIn m x.oh
      let s3 := if 2 ≤ ver then (s2.echoIn m (lsc - BitVec.ofNat 32 idx) marks.head? x.oh).creditsIn m credit else s2
      let ref := sheetRef s3 n idx marks
      cells.foldl (fun s c => s.unpackCell m ref c) s3

/-- A keyed sheet. -/
def State.keyedIn (s : State) (m : Fin 4) (lsc : W32) (x : Sheet) : State :=
  let k : Fin 4 := ⟨(byteAt x.oh 2).toNat % 4, by omega⟩
  let v := s.lkn m k
  match v.verdict (!s.lciEnd m) x with
  | .disabled => (s.keyedDiscard m k 5 x.oh).rxRecord m lsc false k.val []
  | .seqReject => (s.keyedDiscard m k 4 x.oh).rxRecord m lsc false k.val []
  | .tagFail => (s.keyedDiscard m k 3 x.oh).rxRecord m lsc false k.val []
  | .accept seq pt =>
    let iv := sheetIv v.salt (lcid v.chid (!s.lciEnd m)) seq
    (((s.keyedAccept m k seq).rxRecord m lsc true k.val pt).sheetAccepted m lsc x (creditSeal v.key iv (slice x.oh 20 12)) (chunksOf 64 pt))

/-- An unkeyed sheet while no LKN is receive-enabled breaks both KEYLESS runs (Table 2-12). -/
def State.keylessRuns0 (s : State) (m : Fin 4) : State := s.modLine m fun l => { l with runs := { l.runs with keyed := 0, unkeyed := 0 } }

/-- An unkeyed sheet (R64, R66): skipped while a key is receive-enabled. -/
def State.unkeyedIn (s : State) (m : Fin 4) (lsc : W32) (x : Sheet) : State :=
  if (s.lci m).anyRx then
    ((s.countMill m 1 6 0).modLine m fun l => { l with runs := { l.runs with unkeyed := l.runs.unkeyed + 1, keyed := 0 } }).rxRecord
      m lsc false 0 []
  else if x.tag.take 4 = beBytes 4 (crc32 x.oh) then
    ((s.keylessRuns0 m).rxRecord m lsc true 0 x.cells.flatten).sheetAccepted m lsc x (List.replicate 12 0) x.cells
  else (((s.keylessRuns0 m).fixMill m 5).sheetLost m).rxRecord m lsc false 0 []

/-- The deframer releases its next sheet. -/
def State.sheetReceive (s : State) (m : Fin 4) (x : Sheet) : State :=
  let lsc := (s.line m).rxNext
  let s0 := s.wmBegin m lsc.toNat
  let s1 := if natBit (byteAt x.oh 2).toNat 7 then s0.unkeyedIn m lsc x else s0.keyedIn m lsc x
  (s1.wmEnd m lsc.toNat).modLine m fun l => { l with rxNext := lsc + 1, rxLast := some lsc }

/-- Every lane of the set has delivered its marker of the ream in which the next sheet lies (R78). -/
def State.reamHere (s : State) (m : Fin 4) : Bool :=
  (s.rxLanesOf m (s.rxSet m)).all fun x =>
    let d : W32 := (s.line m).rxNext - BitVec.ofNat 32 x.lsc
    d.msb || decide (d.toNat < 500)

/-- The sheet that the lanes deliver next: LANE by LANE, the words of their shares (R68, R70). -/
def State.sheetFrom (s : State) (m : Fin 4) (lanes : List LaneRx) : Option Bytes :=
  if lanes.length = popCount (s.rxSet m) ∧ lanes ≠ [] then sheetBytes (s.rxPlace m).1 lanes else none

/-- R25, R58, R66, R67, R68, R70, R78, R80, R134: the words of the deskewed lanes are put together, and the sheet is released. -/
def execSheetReceive (m : Fin 4) (lanes : List LaneRx) (s : State) : Res :=
  match s.sheetFrom m lanes with
  | some bs =>
    if s.millLive m && s.rxEn m && (s.line m).aligned && s.reamHere m then finish (s.sheetReceive m (sheetOf bs)) else idle s
  | none => idle s

/-! ## Messages taken (R86, R90, R113, R137-R140) -/

/-- The message at the head of those taken has a type that Tables 2-13 and 4-5 and R113 define, with its body. -/
def DlgIn.known (x : DlgIn) : Bool :=
  match x.type.toNat, x.body.length with
  | 0x01, 8 | 0x02, 8 | 0x03, 4 => true
  | 0x10, 8 | 0x11, 2 => decide ((byteAt x.body 0).toNat < 4)
  | 0x18, 2 | 0x19, 2 => decide ((byteAt x.body 0).toNat < 8)
  | t, _ => decide (0x80 ≤ t ∧ t < 0xFF)

/-- The head of the messages taken, where `p` holds of it, and the state without it. -/
def State.dlgHead (s : State) (m : Fin 4) (p : DlgIn → Bool) : Option (DlgIn × State) :=
  match (s.line m).dlg.inbox with
  | x :: xs =>
    if s.millLive m && p x then some (x, s.modLine m fun l => { l with dlg := { l.dlg with inbox := xs } }) else none
  | [] => none

/-- The head is a well-formed message of type `t`. -/
def State.dlgOf (s : State) (m : Fin 4) (t : Nat) : Option (DlgIn × State) := s.dlgHead m fun x => x.known && decide (x.type.toNat = t)

/-- The version that two HELLOs agree on; none: there is no common one. -/
def Dlg.common (d : Dlg) : Option Nat :=
  let v := min d.ownMax d.farMax
  if max d.ownMin d.farMin ≤ v then some v else none

/-- Negotiation goes to `st`. -/
def State.setNeg (s : State) (m : Fin 4) (st : Neg) : State := s.modLine m fun l => { l with dlg := { l.dlg with neg := st } }

/-- A HELLO with a session number not yet taken (Table 2-14); `again`: this device's own HELLO goes first. -/
def State.helloNew (s : State) (m : Fin 4) (again : Bool) : State :=
  let s1 := if again then s.helloSend m else s
  let d := (s1.line m).dlg
  match d.common with
  | some v => (s1.setNeg m .confirm).ownMsg m (.confirm v (d.farSession.getD 0))
  | none => (s1.setNeg m .failed).setVerf m true

/-- R90: HELLO (Table 2-14). -/
def execDlgHello (m : Fin 4) (s : State) : Res :=
  match s.dlgOf m 0x01 with
  | none => idle s
  | some (x, s1) =>
    let n := BitVec.ofNat 32 (beNat (slice x.body 4 4))
    let d := (s1.line m).dlg
    if d.neg ≠ .down ∧ d.neg ≠ .offer ∧ d.farSession = some n then finish s1
    else
      let s2 := s1.modLine m fun l => { l with dlg := { l.dlg with
        farSession := some n, farMin := (byteAt x.body 0).toNat, farMax := (byteAt x.body 1).toNat } }
      finish (match d.neg with
        | .down => s2
        | .offer => s2.helloNew m false
        | _ => s2.helloNew m true)

/-- R90: CONFIRM. An agreement takes effect at the next ream boundary and clears VERF. -/
def execDlgConfirm (m : Fin 4) (s : State) : Res :=
  match s.dlgOf m 0x02 with
  | none => idle s
  | some (x, s1) =>
    let d := (s1.line m).dlg
    if d.neg = .confirm then
      let v := (byteAt x.body 0).toNat
      if d.common = some v ∧ beNat (slice x.body 4 4) = d.session.toNat then
        finish (((s1.modLine m fun l => { l with dlg := { l.dlg with verNext := some v, verchkSent := false } }).setNeg m .agreed).setVerf m false)
      else finish ((s1.setNeg m .failed).setVerf m true)
    else finish s1

/-- R90: VERCHK is compared with this device's own record. -/
def execDlgVerchk (m : Fin 4) (s : State) : Res :=
  match s.dlgOf m 0x03 with
  | none => idle s
  | some (x, s1) =>
    let d := (s1.line m).dlg
    let same := decide (x.body = [byteOf d.farMin, byteOf d.farMax, byteOf d.ownMin, byteOf d.ownMax])
    finish (if d.neg = .agreed ∧ !same then s1.setVerf m true else s1)

/-- R88: a host message is placed in LNF_DLG_RXBUF, and RX_FULL is set. Behind TYPE, LEN and the body the buffer holds 0x00; the CRC is
not placed (DESIGN CHOICE, log entry 116). -/
def execDlgHostMessage (m : Fin 4) (s : State) : Res :=
  match s.dlgHead m fun x => decide (0x80 ≤ x.type.toNat ∧ x.type.toNat < 0xFF) with
  | none => idle s
  | some (x, s1) =>
    finish ((s1.modLine m fun l => { l with dlg := { l.dlg with
      rxbuf := padTo 240 (x.type :: byteOf x.body.length :: x.body) } }).setBit (Reg.lnf m 0x20) 7)

/-- R86: a message of an invalid or reserved type, or with a body that its type does not have, is discarded and counted. -/
def execDlgReservedType (m : Fin 4) (s : State) : Res :=
  match s.dlgHead m fun x => !x.known with
  | none => idle s
  | some (_, s1) => finish (s1.countMill m 0 8 0)

/-- The LKN that a line cipher message names. -/
def DlgIn.lkn (x : DlgIn) : Fin 4 := ⟨(byteAt x.body 0).toNat % 4, by omega⟩

/-- R140: SEQ_UPPER starts or renews a trial. -/
def execSeqUpper (m : Fin 4) (s : State) : Res :=
  match s.dlgOf m 0x10 with
  | none => idle s
  | some (x, s1) =>
    finish (if (s1.lkn m x.lkn).track = .track then s1
      else s1.modLkn m x.lkn fun v => { v with track := .trial (beNat (slice x.body 4 4) * 2 ^ 32 + x.seqLo) 0 })

/-- A SEQ_UPPER for LKN `k` has been taken and waits to be looked at. -/
def Dlg.upperIn (d : Dlg) (k : Fin 4) : Bool := d.inbox.any fun x => x.known && decide (x.type = 0x10) && decide (x.lkn = k)

/-- R140, R141: a trial has used up its sheets; a SEQ_UPPER taken on that edge goes first. -/
def execTrialExhausted (m k : Fin 4) (s : State) : Res :=
  match (s.lkn m k).track with
  | .trial _ n =>
    if s.millLive m && decide (s.trialN m ≤ n) && !(s.line m).dlg.upperIn k then finish ((s.countMill m 1 8 0).resync m k) else idle s
  | _ => idle s

/-- A SEQ_UPPER is outstanding. -/
def Dlg.upperOut (d : Dlg) : Bool :=
  match d.out with
  | some o => (match o.own with | some (.seqUpper _) => true | _ => false)
  | none => false

/-- R139: SEQ_QUERY. -/
def execSeqQuery (m : Fin 4) (s : State) : Res :=
  match s.dlgOf m 0x11 with
  | none => idle s
  | some (x, s1) =>
    finish (if (s1.lci m).current = some x.lkn ∧ !(s1.line m).dlg.upperOut then s1.ownMsg m (.seqUpper x.lkn)
      else s1.countMill m 1 9 0)

/-- The far lane that LANE_READY and LANE_UNREADY name. -/
def DlgIn.far (x : DlgIn) : Fin 8 := ⟨(byteAt x.body 0).toNat % 8, by omega⟩

/-- R110, R113: LANE_READY may start an automatic restore. Below version 3 it is discarded and counted. -/
def execLaneReady (m : Fin 4) (s : State) : Res :=
  match s.dlgOf m 0x18 with
  | none => idle s
  | some (x, s1) =>
    finish (if (s1.line m).dlg.ver < 3 then s1.countMill m 0 8 0
      else (((s1.modDkl m fun k => { k with farReady := k.farReady ||| (1#8 <<< x.far.val) }).countMill m 2 5 x.far.val).autoRestore m))

/-- R113: LANE_UNREADY withdraws it. -/
def execLaneUnready (m : Fin 4) (s : State) : Res :=
  match s.dlgOf m 0x19 with
  | none => idle s
  | some (x, s1) =>
    finish (if (s1.line m).dlg.ver < 3 then s1.countMill m 0 8 0
      else (s1.modDkl m fun k => { k with farReady := k.farReady &&& ~~~(1#8 <<< x.far.val) }).countMill m 2 6 x.far.val)

/-! ## The outstanding message (R86, R87, R89) -/

/-- The message outstanding has been sent whole at least once. -/
def DlgOut.sent (o : DlgOut) : Bool := decide (o.frags ≤ o.frag) || decide (2 ≤ o.sends)

/-- The outstanding message, where its acknowledgement has arrived. -/
def Dlg.acked (d : Dlg) : Option DlgOut :=
  match d.out with
  | some o => if o.sent && decide (d.ackIn = some o.mseq) then some o else none
  | none => none

/-- R86, R89: the outstanding message is acknowledged; DLGF clears. -/
def execDlgAck (m : Fin 4) (s : State) : Res :=
  if s.millLive m && !(s.line m).defects.loa && (s.line m).dlg.acked.isSome then
    finish ((s.modLine m fun l => { l with dlg := { l.dlg with out := none } }).setDlgf m false)
  else idle s

/-- The message completes with an error: TX_ERR for the host's, DLGF, and a negotiation under way starts again (Table 2-14). -/
def State.dlgFail (s : State) (m : Fin 4) (o : DlgOut) : State :=
  let s1 := s.modLine m fun l => { l with dlg := { l.dlg with out := none } }
  let s2 := (if o.own.isNone then s1.setBit (Reg.lnf m 0x20) 13 else s1).countMill m 0 9 0
  let s3 := s2.setDlgf m true
  let n := (s3.line m).dlg.neg
  if n = .offer ∨ n = .confirm then (s3.setNeg m .down).negLook m else s3

/-- The message is sent again whole; a SEQ_UPPER whose key is no longer current is abandoned (R87, R139). -/
def State.dlgRetry (s : State) (m : Fin 4) (o : DlgOut) : State :=
  let gone := match o.own with
    | some (.seqUpper k) => decide ((s.lci m).current ≠ some k)
    | _ => false
  if gone then (s.modLine m fun l => { l with dlg := { l.dlg with out := none } }).countMill m 1 9 0
  else if o.sends < s.fld (Reg.lnf m 0x20) 28 4 then
    s.modLine m fun l => { l with dlg := { l.dlg with out := some { o with frag := 0, sends := o.sends + 1, wait := 0 } } }
  else s.dlgFail m o

/-- R87: no acknowledgement within 16 × TMO sheet periods of the last fragment; one that has arrived goes first (R8). -/
def execDlgRetryTimeout (m : Fin 4) (s : State) : Res :=
  match (s.line m).dlg.out with
  | some o =>
    if s.millLive m && !(s.line m).defects.loa && (s.line m).dlg.acked.isNone && decide (o.frags ≤ o.frag)
        && decide (16 * s.fld (Reg.lnf m 0x20) 16 12 ≤ o.wait) then
      finish (s.dlgRetry m o)
    else idle s
  | none => idle s

end Sys2Proof.Machine
end

