-- ==== Sys2Proof/Machine/Lanes.lean ====
section
/-! DEFINITION. Serial lanes (chapter 13): modes, electrical idle, receiver states, eye scan; the felt link's character sync,
deskew and framing. -/

namespace Sys2Proof.Machine

/-! ## Transmitter (R375, R376, Table 13-2) -/

/-- The conditions of Table 13-2 other than TX_EN. -/
def State.txAllowed (s : State) (n : Fin 68) : Bool :=
  s.laneLive n && !(s.lane n).unlocked && (if isFeltLane n then decide (s.laneMode n.val = 0xC)
    else decide (s.laneMode n.val ≠ 0) && (!isLineLane n || (!s.modeErr n && s.permitted)))
/-- The transmitter may drive its output; near loopback keeps it in electrical idle (R393). -/
def State.txMay (s : State) (n : Fin 68) : Bool :=
  s.bit (Reg.ser n.val 0) 0 && s.txAllowed n && decide (s.fld (Reg.ser n.val 0) 20 2 ≠ 1)

/-- TX_HELD: a condition other than TX_EN withholds the transmitter of a line lane (Table 13-9); its reset value 0 says that TX_EN must
be 1 for that (DEDUCED, log entry 117). -/
def State.txHeld (s : State) (n : Fin 68) : Bool := isLineLane n && s.bit (Reg.ser n.val 0) 0 && !s.txAllowed n

/-- Lanes that have one PLL: a line group, or the felt lanes; a client lane has its own (Table 1-7). -/
def pllLanes (n : Fin 68) : List (Fin 68) :=
  if isFeltLane n then [64, 65, 66, 67] else if isLineLane n then (List.finRange 8).map (lineLane (laneMill n)) else [n]

/-- The PLL of lane `n` has lost lock, or locked again. -/
def State.setUnlocked (s : State) (n : Fin 68) (v : Bool) : State :=
  (pllLanes n).foldl (fun s k => s.modLane k fun l => { l with unlocked := v }) s

/-- The burst that a lane's mode calls for, and its length in UI (R376). -/
def State.trainingOf (s : State) (n : Fin 68) : Out :=
  let mode := s.laneMode n.val
  .training n.val (if isFeltLane n then .k28_5 else if mode = 1 ∨ mode = 2 ∨ mode = 0xA then .prbs13 else .prbs13q)
    (65536 * s.fld (Reg.ser n.val 0) 14 4)

/-! ## Felt link down (Table 13-7, R389) -/

/-- The link goes down: alignment starts again; DOWN_STKY where the link was up. -/
def State.feltDown (s : State) : State :=
  let s1 := s.modFelt fun x => { x with
    aligned := false, skew := 0
    lanes := x.lanes.map fun l => { l with fifo := [], seenAln := false, sinceAln := 0, missed := 0 } }
  if s.felt.up then (s1.setBit (Reg.ser 64 0x100) 7).mateLinkDown else s1

/-- A felt lane is in LOSS. -/
def State.feltLoss (s : State) (i : Fin 4) : State :=
  if s.felt.lanes[i].st = .loss then s
  else (s.modFelt fun x => { x with lanes := x.lanes.set i {} }).feltDown

/-! ## Receiver (R379-R385, Tables 13-3 and 13-4) -/

/-- Table 13-4: FOM_MIN, FOM_GOOD and FOM_N as SER_FOM holds them. -/
def fomDefaults (mode : Nat) : Nat :=
  if mode = 1 ∨ mode = 2 ∨ mode = 0xC then 0x46058 else if mode = 0xA then 0x44C44 else 0x4544C

/-- LOS_STKY is set, and counted for the mills' lanes (R381). -/
def State.losMark (s : State) (n : Fin 68) : State :=
  let s1 := s.setBit (Reg.ser n.val 4) 7
  if isFeltLane n then s1 else s1.countMill (laneMill n) 7 9 n.val

/-- Ports of mill `m` whose link was up in `s` and is down in `t` are counted, and send remote fault towards the module; with the link
up again that ends (R384). -/
def linkFaults (s t : State) (m : Fin 4) : State :=
  (List.finRange 8).foldl (fun (x : State) i =>
    let p : Fin 32 := ⟨8 * m.val + i.val, by omega⟩
    if s.portLink p && !t.portLink p then (x.countMill m 7 8 p.val).emit (.remoteFault p.val true)
    else if !s.portLink p && t.portLink p then x.emit (.remoteFault p.val false)
    else x) t

/-- The consumer of lane `n` acts on a loss of signal (R383, R384); a scan outside TRACK aborts (R394). -/
def laneConsumer (s t : State) (n : Fin 68) : State :=
  let t1 := if t.lanes[n].eyeBusy && decide (t.lanes[n].st ≠ .track) then
      t.modLane n fun l => { l with eyeBusy := false, eyeDone := true, eyeAbort := true }
    else t
  if isFeltLane n then (if t1.laneDelivers n then t1 else t1.feltLoss (feltIdx n))
  else if isLineLane n then (if t1.laneDelivers n then t1 else t1.loseLock (laneMill n) (laneIdx n))
  else linkFaults s t1 (laneMill n)

/-- Lanes that a change of lane `n` can change: those of its line group, whose MODE it may lead (R374). -/
def laneGroup (n : Fin 68) : List (Fin 68) :=
  if isLineLane n then (List.finRange 8).map (lineLane (laneMill n)) else [n]

/-- After a change from `s` to `t` of lane `n`: receivers follow, then their consumers. -/
def laneAfter (s t : State) (n : Fin 68) : State :=
  (laneGroup n).foldl (fun x k => laneConsumer s x k) ((laneGroup n).foldl State.rxLook t)

/-- The end of a lane command. -/
def laneEnd (s t : State) (n : Fin 68) : Res := mateEnd (laneAfter s t n)

/-! ## Electrical idle (R375, R376) -/

/-- R375, R376: the conditions have become all met, the PLL's lock among them; the burst begins. -/
def execTxLeaveIdle (n : Fin 68) (s : State) : Res :=
  let s1 := s.setUnlocked n false
  if (s.lane n).txIdle && s1.txMay n then
    finish ((s1.emit (s1.trainingOf n)).modLane n fun l => { l with txIdle := false, burst := true })
  else idle s

/-- R375: a condition has ceased; where all others still hold, it is the lock of the PLL (log entry 118). -/
def execTxEnterIdle (n : Fin 68) (s : State) : Res :=
  if !(s.lane n).txIdle then
    let s1 := if s.txMay n then s.setUnlocked n true else s
    mateEnd ((pllLanes n).foldl (fun x k => laneConsumer s x k) (s1.modLane n fun l => { l with txIdle := true, burst := false }))
  else idle s

/-- R376: the burst ends; the lane's ordinary data follows, on a line lane in a new codeword. -/
def execTrainingBurstEnd (n : Fin 68) (s : State) : Res :=
  if (s.lane n).burst then
    let s1 := s.modLane n fun l => { l with burst := false }
    finish (if isLineLane n then
      s1.modLine (laneMill n) fun l => { l with wire := l.wire.set (laneIdx n) { l.wire[laneIdx n] with pend := 0, bits := 0 } }
    else s1)
  else idle s

/-! ## Modes and receivers (R370, R379-R382) -/

/-- SER_CTL.MODE is written (R370): an unlisted mode changes nothing; any other disables the receiver, makes the saved settings
invalid and loads Table 13-4. -/
def State.modeWrite (s : State) (n : Fin 68) (mode : Nat) : State :=
  if modeListed n mode then
    let s1 := (s.modLane n fun l => { l.go .disabled with saved := false }).setFld (Reg.ser n.val 0) 2 4 mode
    if mode = 0 then s1 else s1.setFld (Reg.ser n.val 8) 0 20 (fomDefaults mode)
  else s
/-- R370. -/
def execLaneModeWrite (n : Fin 68) (mode : Fin 16) (s : State) : Res :=
  if s.laneLive n && modeListed n mode.val then laneEnd s (s.modeWrite n mode.val) n else idle s

/-- R380, R381. -/
def execSigDetChange (n : Fin 68) (up : Bool) (s : State) : Res :=
  if s.laneLive n && ((s.lane n).sigDet != up) then
    let s1 := s.modLane n fun l => { l with sigDet := up }
    let st := (s.lane n).st
    laneEnd s (if up then (if st = .waitSig then s1.modLane n (·.go .cdr) else s1)
      else if st = .disabled then s1
      else if st = .track then (s1.modLane n (·.go .waitSig)).losMark n
      else s1.modLane n (·.go .waitSig)) n
  else idle s

/-- R381: CDR lock; the saved settings are tried where the fast path is permitted. -/
def execCdrLock (n : Fin 68) (s : State) : Res :=
  if s.laneLive n && decide ((s.lane n).st = .cdr) then
    laneEnd s (s.modLane n (·.go (if s.bit (Reg.ser n.val 0) 13 && (s.lane n).saved then .fastCheck else .adapt))) n
  else idle s

/-- What the end of a window does (Table 13-3): the receiver after it, and whether it left TRACK, and whether a fast check failed.
`lo`, `hi`, `k`: FOM_MIN, FOM_GOOD, FOM_N. -/
def Lane.window (l : Lane) (lo hi k : Nat) (fom : Byte) (converged : Bool) : Lane × Bool × Bool :=
  let x := { l with fom := fom }
  let f := fom.toNat
  match l.st with
  | .fastCheck => if hi ≤ f then (x.go .track, false, false) else (x.go .adapt, false, true)
  | .adapt =>
    if converged ∧ lo ≤ f then
      if 3 ≤ l.good then ({ x.go .track with saved := true }, false, false) else ({ x with good := l.good + 1 }, false, false)
    else ({ x with good := 0 }, false, false)
  | .track =>
    if hi ≤ f then ({ x with low := 0, saved := true }, false, false)
    else if lo ≤ f then ({ x with low := 0 }, false, false)
    else if k ≤ l.low + 1 then (x.go .adapt, true, false)
    else ({ x with low := l.low + 1 }, false, false)
  | .cdr => (x, false, false)
  | _ => (l, false, false)

/-- R379, R381. -/
def execFomWindowEnd (n : Fin 68) (fom : Byte) (converged : Bool) (s : State) : Res :=
  let st := (s.lane n).st
  if s.laneLive n && decide (st ≠ .disabled ∧ st ≠ .waitSig) then
    let r := Reg.ser n.val 8
    let (l, left, miss) := (s.lane n).window (s.fld r 0 8) (s.fld r 8 8) (s.fld r 16 4) fom converged
    let s1 := s.modLane n fun _ => l
    let s2 := if left then s1.losMark n else s1
    let s3 := if miss then s2.setBit (Reg.ser n.val 4) 9 else s2
    laneEnd s (if miss && !isFeltLane n then s3.countMill (laneMill n) 7 11 n.val else s3) n
  else idle s

/-- R381: the timer of a receiver in CDR or ADAPT expires. -/
def execAdaptTimeout (n : Fin 68) (s : State) : Res :=
  let st := (s.lane n).st
  if s.laneLive n && decide (st = .cdr ∨ st = .adapt) then
    let s1 := (s.modLane n (·.go .cdr)).setBit (Reg.ser n.val 4) 8
    laneEnd s (if isFeltLane n then s1 else s1.countMill (laneMill n) 7 10 n.val) n
  else idle s

/-! ## Eye scan (R394, Table 13-13) -/

/-- SER_EYE is written: HOFF and VOFF; SUB unless 3, and 0 on an NRZ lane; DWELL within 16 to 40; GO. -/
def State.eyeWrite (s : State) (n : Fin 68) (v : Nat) : State :=
  let r := Reg.ser n.val 0x20
  let mode := s.laneMode n.val
  let pam := decide (mode = 3 ∨ mode = 4 ∨ mode = 8 ∨ mode = 9)
  let dw := natBits v 15 6
  let s1 := s.setFld r 0 13 (natBits v 0 13)
  let s2 := if natBits v 13 2 = 3 then s1 else s1.setFld r 13 2 (if pam then natBits v 13 2 else 0)
  let s3 := if 16 ≤ dw ∧ dw ≤ 40 then s2.setFld r 15 6 dw else s2
  if natBit v 31 && !(s.lane n).eyeBusy then
    if (s.lane n).st = .track then s3.modLane n fun l => { l with eyeBusy := true, eyeDone := false, eyeAbort := false, eyeErr := 0 }
    else s3.modLane n fun l => { l with eyeDone := true, eyeAbort := true }
  else s3
/-- R394. -/
def execEyeScanStart (n : Fin 68) (v : W32) (s : State) : Res :=
  if s.laneLive n then finish (s.eyeWrite n v.toNat) else idle s
/-- R394: the scan ends with its count. -/
def execEyeScanDone (n : Fin 68) (count : W32) (s : State) : Res :=
  if (s.lane n).eyeBusy then finish (s.modLane n fun l => { l with eyeBusy := false, eyeDone := true, eyeAbort := false, eyeErr := count })
  else idle s

/-! ## SER_CTL (Table 13-8) -/

/-- The bits of SER_CTL that a write of `v` takes: an unlisted MODE, a misaligned WIDTH, TRN_LEN 0 and LOOP 3 leave their
fields. -/
def serCtlMask (n : Fin 68) (v : Nat) : Nat :=
  0x3F03
    + (if n.val < 32 ∧ n.val % 2 ^ natBits v 6 2 = 0 then 0xC0 else if 32 ≤ n.val then 0xC0 else 0)
    + (if natBits v 14 4 ≠ 0 then 0x3C000 else 0) + 0xC0000
    + (if natBits v 20 2 ≠ 3 then 0x300000 else 0)

/-- SER_CTL is written. MODE is written when its value changes. -/
def State.serCtlWrite (s : State) (n : Fin 68) (v : Nat) : State :=
  let r := Reg.ser n.val 0
  let old := s.reg r
  let s1 := s.setReg r (mergeBits (serCtlMask n v) old v)
  let s2 := if natBit v 1 && !natBit old 1 then s1.modLane n fun l => { l with saved := false } else s1
  let s3 := if natBit (natBits v 18 2) 1 && natBits v 18 2 ≠ natBits old 18 2 then
      s2.modLane n fun l => { l with prbsErr := 0, prbsLock := false }
    else s2
  laneAfter s (if natBits v 2 4 = natBits old 2 4 then s3 else s3.modeWrite n (natBits v 2 4)) n

/-! ## Commands of the line group that change MODE_ERR -/

/-- R50, R51, R52, R60, R69. -/
def execReamBegin (m : Fin 4) (s : State) : Res :=
  if s.framerRuns m && !(s.line m).inReam then laneEnd s (s.reamBegin m) (lineLane m 0) else idle s
/-- R106. -/
def execLaneUseWrite (m : Fin 4) (v : Byte) (s : State) : Res :=
  if s.millLive m && decide (v ≠ 0) then laneEnd s (s.writeLaneUse m v) (lineLane m 0) else idle s

/-! ## The felt link (R386-R389) -/

/-- Character sync of a felt lane (Table 13-7). -/
def FeltLane.char (l : FeltLane) (c : FeltChar) : FeltLane :=
  match l.st with
  | .loss => if c = .com then { l with st := .acq, commas := 1 } else l
  | .acq =>
    if c = .codeError then {}
    else if c = .com then (if 3 ≤ l.commas then { l with st := .sync, commas := 0, errs := 0, valid := 0 } else { l with commas := l.commas + 1 })
    else l
  | .sync =>
    if c = .codeError then (if 3 ≤ l.errs then {} else { l with errs := l.errs + 1, valid := 0 })
    else if 15 ≤ l.valid then { l with errs := l.errs - 1, valid := 0 } else { l with valid := l.valid + 1 }

/-- Deskew of a lane in SYNC (R389): a lane not yet aligned starts at an ALN; an aligned one keeps every character, and judges the
expected position, 1,024 characters after the last. -/
def FeltLane.deskew (l : FeltLane) (aligned : Bool) (c : FeltChar) : FeltLane :=
  let at_ := l.sinceAln + 1
  if c = .aln then { l with fifo := if aligned then l.fifo ++ [c] else [], sinceAln := 0, seenAln := true, missed := 0 }
  else if !l.seenAln then l
  else if 1024 ≤ at_ then { l with fifo := l.fifo ++ [c], sinceAln := 0, missed := l.missed + 1 }
  else { l with fifo := l.fifo ++ [c], sinceAln := at_ }

def Felt.synced (x : Felt) : Bool := x.lanes.all fun l => decide (l.st = .sync)
/-- Offsets of the four lanes against the earliest, in characters. -/
def Felt.offs (x : Felt) : List Nat :=
  let since := x.lanes.toList.map (·.sinceAln)
  since.map fun n => since.foldl max 0 - n

/-- Not aligned: the lanes align once each has seen the same ALN slot; a lane that waits beyond the range gives up. -/
def Felt.align (x : Felt) : Felt :=
  if x.lanes.all (·.seenAln) then
    if x.offs.all fun o => decide (o ≤ 63) then { x with aligned := true, skew := x.offs.foldl max 0 }
    else x
  else { x with lanes := x.lanes.map fun l => if 63 ≤ l.sinceAln then { l with seenAln := false, fifo := [], sinceAln := 0 } else l }

/-- The next deskewed slot. -/
def Felt.pop (x : Felt) : Option (List FeltChar × Felt) :=
  if x.lanes.all fun l => !l.fifo.isEmpty then
    some (x.lanes.toList.map (fun l => l.fifo.headD .com), { x with lanes := x.lanes.map fun l => { l with fifo := l.fifo.drop 1 } })
  else none

/-- All four characters of a slot are `c`. -/
def allAre (cs : List FeltChar) (c : FeltChar) : Bool := cs.all fun x => decide (x = c)
/-- The bytes of a data slot. -/
def slotData : List FeltChar → Option Bytes
  | [] => some []
  | .data b :: cs => (slotData cs).map (b :: ·)
  | _ :: _ => none

/-- The frame in progress ends without its EOF, or in error: counted (R387). -/
def State.feltErrored (s : State) : State :=
  (s.modFelt fun x => { x with inFrame := false, bad := false, acc := [] }).countDev 0xD 5 0

/-- A slot that has no place where it stands makes the frame in progress an errored one. -/
def State.feltBad (s : State) : State := if s.felt.inFrame then s.modFelt fun x => { x with bad := true } else s

/-- A slot of the link that is up (R387). -/
def State.feltSlot (s : State) (cs : List FeltChar) : State :=
  match slotData cs with
  | some bs => if s.felt.inFrame then s.modFelt fun x => { x with acc := x.acc ++ bs } else s
  | none =>
    if allAre cs .aln then s
    else if allAre cs .sof then
      (if s.felt.inFrame then s.feltErrored else s).modFelt fun x => { x with inFrame := true, bad := false, acc := [] }
    else if allAre cs .eof then
      if !s.felt.inFrame then s
      else if s.felt.bad then s.feltErrored
      else (s.modFelt fun x => { x with inFrame := false, acc := [] }).feltDeliver s.felt.acc
    else if allAre cs .abt then (if s.felt.inFrame then s.feltErrored else s)
    else if allAre cs .hb && !s.felt.inFrame then s.mateHb
    else if allAre cs .com && !s.felt.inFrame then s
    else s.feltBad

/-- A deskewed slot: the second ALN slot with the same offsets brings the link up; one with other offsets before that starts
alignment again. -/
def State.feltTake (s : State) (cs : List FeltChar) : State :=
  if s.felt.up then s.feltSlot cs
  else if allAre cs .aln then s.mateLinkUp
  else if cs.contains .aln then s.feltDown
  else s

/-- Deskew of the four lanes. -/
def State.feltDeskew (s : State) (cs : List FeltChar) : State :=
  let s1 := s.modFelt fun x => { x with lanes := Vector.ofFn fun i : Fin 4 => x.lanes[i].deskew x.aligned (cs.getD i.val .codeError) }
  if s1.felt.lanes.any (fun l => decide (2 ≤ l.missed)) then s1.feltDown
  else if !s1.felt.up && s1.felt.aligned && s1.felt.lanes.any (fun l => decide (1 ≤ l.missed)) then s1.feltDown
  else if s1.felt.aligned then
    match s1.felt.pop with
    | some (slot, x) => ({ s1 with felt := x } : State).feltTake slot
    | none => s1
  else { s1 with felt := s1.felt.align }

/-- A character of felt lane `i`: sync, and the count of code errors. -/
def State.feltChar (s : State) (i : Fin 4) (c : FeltChar) : State :=
  let l := s.felt.lanes[i]
  let y := l.char c
  let s1 := if c = .codeError ∧ l.st ≠ .loss then s.countDev 0xD 4 i.val else s
  if y.st = .loss then s1.feltLoss i else s1.modFelt fun x => { x with lanes := x.lanes.set i y }

/-- R387, R388, R389: one character on each lane whose receiver is in TRACK. -/
def execFeltSlotReceive (c0 c1 c2 c3 : FeltChar) (s : State) : Res :=
  let del := fun (i : Nat) (h : i < 4) => s.laneDelivers ⟨64 + i, by omega⟩
  if s.feltLive && (del 0 (by omega) || del 1 (by omega) || del 2 (by omega) || del 3 (by omega)) then
    let cs := [c0, c1, c2, c3]
    let s1 := (List.finRange 4).foldl (fun (x : State) i =>
      if s.laneDelivers ⟨64 + i.val, by omega⟩ then x.feltChar i (cs.getD i.val .codeError) else x) s
    mateEnd (if s1.felt.synced then s1.feltDeskew cs else s1)
  else idle s

/-- R389: the phase queue over- or underflows. -/
def execFeltFifoError (s : State) : Res :=
  if s.feltLive then mateEnd ((s.setBit (Reg.ser 64 0x100) 6).feltDown) else idle s

end Sys2Proof.Machine
end

