-- ==== Sys2Proof/Machine/Reset.lean ====
section
/-! DEFINITION. Resets, their scopes and what survives them (chapter 16), domain release, clock loss, the boot image, and the
reset side of tamper HOLD and of a life-cycle transition. -/

namespace Sys2Proof.Machine

/-! ## Registers by reset class (Table 0-3, the register tables' introductions) -/

/-- Keep the registers whose address satisfies `p`; the others take their reset values. -/
def State.keepRegs (s : State) (p : Nat → Bool) : State := { s with regs := tkeep p s.regs, shadow := tkeep p s.shadow }

/-- TIM_TB registers, which only a cold reset clears. -/
def timTbReg (a : Nat) : Bool := inBlock 0x60000 0x200 a
/-- Registers that a warm reset leaves: SYS, RST, HST, TMP and KST blocks, TIM_TB, EVR, CUR_ABI. -/
def keptWarm (a : Nat) : Bool := decide (a < 0x40000) || timTbReg a || inBlock 0x80000 0x10000 a || decide (a = 0x100000)
/-- Registers of mill `m`: its window, its lanes, its counter blocks, its curator engine. -/
def millReg (m : Fin 4) (a : Nat) : Bool :=
  inBlock (Reg.mill m) 0x1000000 a || inBlock (0xC0000 + 0x2000 * m.val) 0x2000 a || inBlock (0xC8000 + 0x2000 * m.val) 0x2000 a
    || inBlock (0x70000 + 0xA00 * m.val) 0xA00 a || inBlock (0x101000 + 0x1000 * m.val) 0x1000 a

/-! ## What each domain holds -/

/-- Lanes of a set return to their reset state; `saved` keeps the saved equaliser settings (Table 16-5). -/
def State.clearLanes (s : State) (p : Nat → Bool) (saved : Bool) : State :=
  { s with lanes := Vector.ofFn fun n : Fin 68 => if p n.val then { saved := saved && s.lanes[n].saved } else s.lanes[n] }

/-- Mill `m` (R171, the mill column of Table 16-3). -/
def State.clearMill (s : State) (m : Fin 4) : State :=
  let s1 := s.cancelMill m
  let s2 := { s1 with
    sa := s1.sa.filter fun e => decide ((s1.scAt (saScx e.1)).mill ≠ m)
    sc := s1.sc.filter fun e => decide (e.2.mill ≠ m)
    trib := s1.trib.filter fun e => decide (e.2.mill ≠ m)
    tribOld := s1.tribOld.filter fun e => decide (e.2.mill ≠ m)
    mills := s1.mills.set m {}
    cur := s1.cur.set m {}
    hbxRr := Vector.ofFn fun k : Fin 12 => if k.val / 3 = m.val then 0 else s1.hbxRr[k] }
  let s3 := s2.modPmc fun p => (List.range 20).foldl (fun p i => p.clear (20 * m.val + i)) p
  (s3.clearLanes (fun n => decide (n < 64 ∧ n / 8 % 4 = m.val)) true).keepRegs fun a => !millReg m a

/-- Mills of a set. -/
def State.clearMills (s : State) (ms : List (Fin 4)) : State := ms.foldl State.clearMill s

/-- The security island without the tamper block: what a warm reset clears of the key store, the RNG and the utility cipher
(Table 16-3, R324). The MTP writes of a tamper response go on. -/
def State.clearIsland (s : State) : State :=
  { s with
    kst := { lc := s.kst.lc, reserve := s.kst.reserve, attSeq := s.kst.attSeq, provChk := s.kst.provChk
             lcLast := s.kst.lcLast, lcErr := s.kst.lcErr, rootFail := s.kst.rootFail
             epoch := s.kst.epoch, epochSeq := s.kst.epochSeq, provDone := s.kst.provDone
             mtpJobs := s.kst.mtpJobs.filter fun j => match j.kind with
               | .copy _ | .tomb _ => false
               | _ => true }
    rng := {}, uci := {} }

/-- Management: curators, counters, latches of wide reads (D3). -/
def State.clearMgmt (s : State) : State :=
  { s with cur := Vector.replicate 4 {}, pmc := {}, hst := { s.hst with latch := [] } }

/-- TIM settings other than the time bases (Table 16-3). -/
def State.clearTim (s : State) : State :=
  { s with
    tim := { tb := s.tim.tb }
    pads := { s.pads with trigOut := 0 } }
/-- The time bases: values and servo state (R440). -/
def State.clearTbs (s : State) : State := { s with tim := { s.tim with tb := Vector.replicate 8 {} } }

/-- Channel `c`: training, counters, poison map; its external memory keeps what it holds. -/
def State.clearChan (s : State) (c : Fin 4) : State :=
  s.modMem fun x => { x with ch := x.ch.set c { lines := x.ch[c].lines } }
/-- Every region key, the window and the error log. -/
def State.clearRegions (s : State) : State := s.modMem fun x => { ch := x.ch, nextWid := x.nextWid }

/-- The felt link and the mate logic (D13); MATE_ACT_OUT goes low at once (R399). -/
def State.clearFelt (s : State) : State :=
  { s.clearLanes (fun n => decide (64 ≤ n)) false with
    felt := {}, mte := {}, pads := { s.pads with mateActOut := false } }

/-- What a warm reset clears (Table 16-3). -/
def State.clearWarm (s : State) : State :=
  let s1 := (s.clearMills (List.finRange 4)).clearIsland
  let s2 := s1.clearMgmt.clearTim
  let s3 := ((List.finRange 4).foldl State.clearChan s2).clearRegions
  { (s3.clearFelt.clearLanes (fun _ => true) false).keepRegs keptWarm with sa := [], sc := [], trib := [], tribOld := [] }

/-- What a cold reset clears as well. A tamper source of rank HOLD that fires keeps the hold (R426). -/
def State.clearCold (s : State) : State :=
  let held := s.tmp.holding && (srcList s.tmp.firing).any fun n => decide (s.rank n = 5)
  let s1 := s.clearWarm.clearTbs
  { s1.keepRegs (fun a => decide (a = Reg.rstCause)) with
    kst := { reserve := s.kst.reserve, rootFail := s.kst.rootFail }
    tmp := { holding := held, firing := if held then s.tmp.firing else 0 }
    evr := {}
    hst := {}
    rst := { s.rst with
      stable := s.rst.stable &&& 7, clkHeld := 0, trims := false, trimB := false, trimFailed := false
      bootDone := false, bootCopy := false, bootFailed := false, bootTry := 0, causeA := 0, causeB := 0, imgVer := 0, digest := []
      pcieCfg := [], laneFw := [] } }

/-! ## Asserting a reset (R438, R442, R444, R445) -/

def setOf (ds : List Nat) : BitVec 15 := ds.foldl (fun b d => b ||| (1#15 <<< d)) 0
def coldSet : BitVec 15 := 0x7FFE
def warmSet : BitVec 15 := 0x3FEC

def State.hold (s : State) (ds : BitVec 15) : State := s.modRst fun r => { r with released := r.released &&& ~~~ds }

/-- A field of RST_CAUSE is set. -/
def State.cause (s : State) (i : Nat) : State := s.setBit Reg.rstCause i

/-- An MTP write pulse or an OTP programming pulse is in progress. -/
def State.pulsing (s : State) : Bool := !s.kst.mtpJobs.isEmpty || !s.tmp.evJobs.isEmpty

/-- A reset waits for a pulse in progress, which ends as it would have (R442). -/
def State.pulseEnds (s : State) : State :=
  if s.pulsing then
    let s1 := s.cause 20
    let s2 := match s.kst.mtpJobs with
      | j :: _ => s1.mtpWrite j.addr j.data
      | [] => s1
    if s.tmp.evJobs.isEmpty then s2 else s2.evidenceUp
  else s

/-- A cold reset. -/
def State.coldReset (s : State) : State := (s.pulseEnds.hold coldSet).clearCold
/-- A warm reset: of the MTP writes, those of the key store are lost, and the one in progress ends. -/
def State.warmReset (s : State) : State :=
  let s1 := if s.pulsing then s.cause 20 else s
  let s2 := match s.kst.mtpJobs with
    | j :: _ => (match j.kind with
      | .copy _ | .tomb _ => s1.mtpWrite j.addr j.data
      | _ => s1)
    | [] => s1
  (s2.hold warmSet).clearWarm
/-- Mill `k` discards and counts what it holds for mill `m`, which is held in reset (R45). -/
def State.discardFor (s : State) (m k : Fin 4) : State :=
  let tx := (s.sch k).staging[m]
  let rx := (s.sch k).rebuilt.filter fun f => decide (f.clientMill = m)
  let s1 := s.modSch k fun x => { x with
    staging := x.staging.set m [], rebuilt := x.rebuilt.filter fun f => decide (f.clientMill ≠ m)
    txUsed := x.txUsed - (tx.map (·.units)).sum }
  let s2 := tx.foldl (fun s q => (s.countMill k 6 3 m.val).refuseTx k q true) s1
  rx.foldl (fun s f => (s.countMill k 6 3 m.val).dropRx k f) s2

/-- A reset of mill `m`. -/
def State.resetMill (s : State) (m : Fin 4) : State :=
  let s1 := ((if s.pulsing then s.cause 20 else s).hold (setOf [9 + m.val])).clearMill m
  ((List.finRange 4).filter fun k => decide (k ≠ m)).foldl (fun s k => s.discardFor m k) s1

/-! ## Software resets (R438, Tables 16-7 and 16-8) -/

/-- The mills of a four-bit field that exist. -/
def State.millBits (s : State) (v : Nat) : List (Fin 4) := (List.finRange 4).filter fun m => natBit v m.val && s.hasMill m

/-- A write of RST_CTL by PF1 with its key: the requests of one write act as one reset over the union of their scopes. -/
def State.rstCtl (s : State) (v : Nat) : State :=
  let ms := s.millBits (natBits v 2 4)
  let s1 := if natBit v 0 then s.cause 4 else s
  let s2 := if natBit v 1 then s1.cause 5 else s1
  let s3 := ms.foldl (fun (x : State) m => x.cause (6 + m.val)) s2
  if natBit v 0 then s3.coldReset
  else ms.foldl State.resetMill (if natBit v 1 then s3.warmReset else s3)

/-- A write of RST_CTL: only PF1's with the key is accepted. -/
def State.rstCtlWrite (s : State) (pf : Fin 2) (v : Nat) : State :=
  if pf = 1 ∧ v / 65536 = 0x5253 then s.rstCtl v else s.lockedWrite pf 0x100 v

/-- A write of RST_CFG by PF1: MILL_HOLD bits of absent mills read 1; a bit written 1 resets its mill. -/
def State.rstCfgWrite (s : State) (v : Nat) : State :=
  let old := s.reg Reg.rstCfg
  let s1 := s.setReg Reg.rstCfg (v % 32)
  let ms := (s.millBits (natBits v 1 4)).filter fun m => !natBit old (1 + m.val)
  ms.foldl (fun (x : State) m => (x.cause (6 + m.val)).resetMill m) s1

/-- The reset controller runs. -/
def State.rstLive (s : State) : Bool := !s.rst.porHeld

/-- R438. -/
def execSwColdReset (pf : Fin 2) (v : W32) (s : State) : Res :=
  if s.rstLive then finish (s.rstCtlWrite pf v.toNat) else idle s
/-- R438. -/
def execSwWarmReset (pf : Fin 2) (v : W32) (s : State) : Res :=
  if s.rstLive then finish (s.rstCtlWrite pf v.toNat) else idle s
/-- R438, R171: by RST_CTL.MILL, with its key, or by MILL_HOLD. -/
def execMillReset (pf : Fin 2) (m : Fin 4) (hold : Bool) (key : W16) (s : State) : Res :=
  if !s.rstLive then idle s
  else if hold then
    let v := Nat.lor (s.reg Reg.rstCfg) (2 ^ (1 + m.val))
    if pf = 1 then finish (s.rstCfgWrite v) else finish (s.lockedWrite pf Reg.rstCfg v)
  else finish (s.rstCtlWrite pf (2 ^ (2 + m.val) + 65536 * key.toNat))

/-! ## Pins and power (R443, R450, R483) -/

/-- The state of a power-on reset: what Table 16-3 keeps, and what is outside the die. -/
def State.powerOn (s : State) (held : Bool) : State :=
  { pending := s.pending, now := s.now, free := s.free, out := s.out
    otp := s.otp, mtp := s.mtp
    bkp := if s.bkp.vbat = .lost then {} else s.bkp
    kst := { reserve := if s.bkp.vbat = .lost then [] else s.kst.reserve, rootFail := s.kst.rootFail }
    tmp := { evJobs := if s.bkp.pending ∧ s.bkp.vbat ≠ .lost then [.backup] else [] }
    pads := { mateSide := s.pads.mateSide, i2cAddr := s.pads.i2cAddr, mateActIn := s.pads.mateActIn }
    rst := { porHeld := held, resetLow := s.rst.resetLow, perstLow := s.rst.perstLow } }

/-- R483, R446, R480: power-on reset is asserted, and released. -/
def execPowerOnReset (assert : Bool) (s : State) : Res := if s.rst.porHeld = assert then idle s else finish (s.powerOn assert)

/-- R443: RESET_N low for 10 µs, and its rising edge. -/
def execResetPin (s : State) : Res :=
  if s.rst.porHeld then idle s
  else if s.rst.resetLow then finish (s.modRst fun r => { r with resetLow := false })
  else finish ((s.cause 1).coldReset.modRst fun r => { r with resetLow := true })

/-- The PCIe row of Table 16-3: link, configuration space, MSI-X tables. -/
def State.clearPcie (s : State) : State :=
  s.modHst fun h => { h with masked := BitVec.allOnes 256, pba := 0, linkUp := false, linkSpeed := 0, linkWidth := 0 }

/-- R438, R443: PERST# low for 10 µs, and its rising edge. -/
def execPerst (s : State) : Res :=
  if s.rst.porHeld then idle s
  else if s.rst.perstLow then finish (s.modRst fun r => { r with perstLow := false })
  else
    let s1 := if s.bit Reg.rstCfg 0 then ((s.cause 3).hold (setOf [14])).clearPcie else (s.cause 2).coldReset
    finish (s1.modRst fun r => { r with perstLow := true })

/-- R450: a main rail falls below 92 %. -/
def execRailDrop (s : State) : Res :=
  if s.rst.porHeld then idle s
  else
    let s1 := s.setBit (Reg.mte 0) 1 false
    mateEnd (if s.mte.st = .active then s1.mateRelease 1 else s1.interlock.claimFailed)

/-! ## Tamper HOLD, life cycle (R426, R322) -/

/-- R426, R399: every domain but the island and the host interface is held. -/
def execHoldEngage (s : State) : Res :=
  if s.tmp.holdDue then
    let s1 := (s.cause 11).modTmp fun t => { t with holding := true, holdDue := false, exec := none }
    let s2 := (s1.hold (setOf [3, 4, 5, 6, 7, 8, 9, 10, 11, 12, 13])).clearMills (List.finRange 4)
    let s3 := s2.clearMgmt.clearTim.clearTbs
    let s4 := ((List.finRange 4).foldl State.clearChan s3).clearRegions.clearFelt
    finish (s4.keepRegs fun a => decide (a < 0x60000) || inBlock 0x80000 0x10000 a || decide (a = 0x100000))
  else idle s

/-- R322: the fuse group of the target is programmed and verified; a cold reset follows. -/
def execLcFuseProgrammed (s : State) : Res :=
  match s.kst.lcPhase with
  | some (.fuse t) =>
    let s1 := s.modOtp fun o =>
      if t = 2 then { o with lcSecured := 0xFF } else if t = 3 then { o with lcReturned := 0xFF } else { o with lcScrapped := 0xFF }
    finish (s1.cause 10).coldReset
  | _ => idle s

/-! ## Function-level reset (R439) -/

/-- EN of a ring is cleared, and the records of its outstanding instructions are not written. -/
def State.flrRing (s : State) (r : Rid) : State :=
  let mute := s.cur[r.eng].outst.any fun c => decide (c.rid = r)
  s.modRing r fun g => { g with en := false, mute := mute, waiting := false }

def allRids12 : List Rid := (List.finRange 4).flatMap fun e => (List.finRange 12).map fun i => ⟨e, i⟩

/-- R439. -/
def execFunctionLevelReset (f : Fin 2) (s : State) : Res :=
  if s.hstLive then
    let mine : BitVec 256 := if f = 0 then BitVec.ofNat 256 (2 ^ 128 - 1) else BitVec.ofNat 256 ((2 ^ 128 - 1) * 2 ^ 128)
    let s1 := (s.cause (17 + f.val)).countDev 0xF 3 f.val
    let s2 := s1.modHst fun h => { h with masked := h.masked ||| mine, pba := h.pba &&& ~~~mine }
    let s3 := (s2.setFld (Reg.cur 0) (16 + 4 * f.val) 4 0).keepRegs fun a => !inBlock (0x50000 + 0x100 * f.val) 0x100 a
    let s4 := s3.modUci fun u => { u.leave f with status := u.status.set f 0, nonce := u.nonce.set f [] }
    let s5 := s4.modRng fun r => { r with bufs := Vector.ofFn fun i : Fin 8 => if bufOwner i = f then {} else r.bufs[i] }
    finish ((allRids12.filter fun r => ringPf r = f).foldl State.flrRing s5)
  else idle s

/-! ## Loss of a clock (R440) -/

/-- Domains that a lost clock re-holds: those of the SEC oscillator take D1 to D14, PLL_DP takes every mill. -/
def clockSet (d : Nat) : BitVec 15 :=
  if d ≤ 2 then coldSet ||| 1 else if 9 ≤ d ∧ d ≤ 12 then setOf [9, 10, 11, 12] else setOf [d]

/-- What the domains of a set lose: the mill column for mills, the warm column otherwise, and for TIM the time bases too. -/
def State.loseDomains (s : State) (ds : BitVec 15) : State :=
  let s1 := s.clearMills ((List.finRange 4).filter fun m => ds.getLsbD (9 + m.val))
  let s2 := if ds.getLsbD 2 then s1.clearIsland.keepRegs fun a => !inBlock 0x40000 0x20000 a else s1
  let s3 := if ds.getLsbD 3 then s2.clearMgmt.keepRegs fun a => !inBlock 0x70000 0x10000 a && !inBlock 0x101000 0xFF000 a else s2
  let s4 := if ds.getLsbD 4 then
      (((List.finRange 8).foldl State.tbStop s3).clearTim.clearTbs).keepRegs fun a => !inBlock 0x60000 0x10000 a || timTbReg a
    else s3
  let cs := (List.finRange 4).filter fun c => ds.getLsbD (5 + c.val)
  let s5 := if cs.isEmpty then s4 else (cs.foldl State.clearChan s4).clearRegions.keepRegs fun a =>
      !inBlock 0xA0000 0x20000 a || !(cs.any fun c => inBlock (Reg.mem (0x40 * c.val)) 0x40 a)
  let s6 := if ds.getLsbD 13 then s5.clearFelt.keepRegs fun a => !inBlock 0x90000 0x10000 a && !inBlock 0xD0000 0x1000 a else s5
  if ds.getLsbD 14 then s6.modHst fun h => { h with linkUp := false, linkSpeed := 0, linkWidth := 0 } else s6

/-- Domains that run from the clocks of domain `d`: D0 to D2 from the SEC oscillator, every mill from PLL_DP. -/
def clockMates (d : Nat) : BitVec 15 := if d ≤ 2 then setOf [0, 1, 2] else clockSet d

/-- R440, R412: the clock of a domain is lost; the sequence resumes from it. With the SEC oscillator everything restarts from D0. -/
def execClockLoss (d : Fin 15) (s : State) : Res :=
  let n := if d.val ≤ 2 then 2 else d.val
  let ds := clockSet d.val
  if s.rstLive && decide (s.rst.released &&& ds ≠ 0) then
    let s1 := (((s.cause 12).setFld Reg.rstCause 13 4 n).happen 6 (freeSrc 6) 0 n [])
    let s2 := ((if 5 ≤ d.val ∧ d.val ≤ 12 then s1.mateFinding 1 else s1).loseDomains (ds &&& s.rst.released)).hold ds
    mateEnd (s2.modRst fun r => { r with
      clkHeld := r.clkHeld ||| (ds &&& s.rst.released)
      stable := r.stable &&& ~~~ds, trims := r.trims && decide (2 < d.val), trimB := r.trimB && decide (2 < d.val) })
  else idle s

/-! ## The release sequence (R437, R441) -/

/-- R441: a copy of the trims has been read. -/
def execTrimLoadDone (ok : Bool) (s : State) : Res :=
  if s.rstLive && s.live 0 && !s.rst.resetLow && !s.rst.trims && !s.rst.trimFailed then
    if ok then finish (s.modRst fun r => { r with trims := true })
    else if s.rst.trimB then finish (s.modRst fun r => { r with trimFailed := true })
    else finish ((s.cause 19).modRst fun r => { r with trimB := true })
  else idle s

/-- A mill that is held by MILL_HOLD or is not on the part does not block the others; nor, in a HOLD, do the domains it holds. -/
def State.excluded (s : State) (d : Nat) : Bool :=
  (List.finRange 4).any (fun m => decide (d = 9 + m.val) && (!s.hasMill m || s.bit Reg.rstCfg (1 + m.val)))
    || (s.tmp.holding && decide (3 ≤ d ∧ d ≤ 13))

/-- The next domain of the sequence. -/
def State.nextDomain (s : State) : Option Nat := (List.range 15).find? fun d => !s.live d && !s.excluded d

/-- Conditions of R437 other than time: pins high, trims in effect, evidence of the backup domain counted (R433), boot image
verified. -/
def State.mayRelease (s : State) (d : Nat) : Bool :=
  s.rstLive && (decide (d = 0) || (!s.rst.resetLow && s.rst.trims && !s.tmp.evJobs.contains .backup
    && (!s.rst.perstLow || s.bit Reg.rstCfg 0)))
    && (decide (d ≠ 14) || (!s.rst.perstLow && s.rst.bootDone))

/-- Entries of the accession log up to the last one with a written byte. -/
def State.logCount (s : State) : Nat := s.mtp.foldl (fun n c => if 0x8000 ≤ c.1 ∧ c.1 < 0x10000 then max n ((c.1 - 0x8000) / 16 + 1) else n) 0

/-- The island leaves reset: latches from OTP and MTP, the RNG starts up, a root is asked for (R321, R330, R316). -/
def State.startIsland (s : State) : State :=
  let s1 := (s.modTmp fun t => { t with dis := s.otp.disabled, logNext := max t.logNext s.logCount }).modKst fun k => { k with lc := s.otp.lc }
  let s2 := s1.rngStartup
  if s2.rootDue then s2.askRoot else s2

/-- The link trains once the endpoint leaves reset; its speed and width are the host's (free values). -/
def State.linkTrain (s : State) : State :=
  { s.modHst fun h => { h with
      linkUp := true, linkSpeed := Config.freeNat s.free % 5 + 1, linkWidth := 2 ^ (Config.freeNat (s.free + 1) % 4) } with free := s.free + 2 }

/-- R437: the next domain is released. With D3 the recorder writes a RESET record (R457). -/
def execDomainRelease (s : State) : Res :=
  match s.nextDomain with
  | none => idle s
  | some d =>
    if s.mayRelease d then
      let s1 := s.modRst fun r => { r with
        released := r.released ||| (1#15 <<< d), stable := r.stable ||| clockMates d, clkHeld := r.clkHeld &&& ~~~(1#15 <<< d) }
      finish (if d = 2 then s1.startIsland
        else if d = 3 then s1.happen 7 (freeSrc 7) 0 0 (leBytes 4 (s1.reg Reg.rstCause))
        else if d = 14 then s1.linkTrain else s1)
    else idle s

/-! ## The boot image (R475-R477, Table 18-8) -/

def imgU (img : Bytes) (off n : Nat) : Nat := leNat (slice img off n)
/-- Section `i`: type, offset, length, CRC. -/
def imgSection (img : Bytes) (i : Nat) : Nat × Nat × Nat × Nat :=
  let o := 96 + 16 * i
  (imgU img o 4, imgU img (o + 4) 4, imgU img (o + 8) 4, imgU img (o + 12) 4)
def imgSections (img : Bytes) : List (Nat × Nat × Nat × Nat) := (List.range (imgU img 6 2)).map (imgSection img)

/-- No two sections overlap. -/
def apart : List (Nat × Nat × Nat × Nat) → Bool
  | [] => true
  | x :: xs => xs.all (fun y => decide (x.2.1 + x.2.2.1 ≤ y.2.1 ∨ y.2.1 + y.2.2.1 ≤ x.2.1)) && apart xs

/-- The check of the sections (cause 5). -/
def imgSectionsOk (img : Bytes) : Bool :=
  let ss := imgSections img
  let n := imgU img 6 2
  let len := imgU img 8 4
  ss.all (fun x => decide (96 + 16 * n ≤ x.2.1 ∧ x.2.1 + x.2.2.1 ≤ len - 64) && decide (crc32 (slice img x.2.1 x.2.2.1) = x.2.2.2))
    && apart ss && decide (ss.countP (fun x => decide (x.1 = 1)) = 1) && decide (ss.countP (fun x => decide (x.1 = 2)) = 1)

/-- Bit of PARTS for the part. -/
def Part.bit : Part → Nat
  | .jmc7720 => 0 | .jmc7720I => 1 | .jmc7710 => 2

/-- The cause with which a copy fails, 0 where it verifies (R476). -/
def State.bootCheck (s : State) (img : Bytes) : Nat :=
  let h := img.take 96
  let len := imgU img 8 4
  let body := img.take (len - 64)
  if h.all (· = 0xFF) || h.all (· = 0) then 6
  else if ¬ (img.length = len ∧ img.take 4 = [0x4A, 0x4D, 0x42, 0x49] ∧ imgU img 4 2 = 1 ∧ 2 ≤ imgU img 6 2 ∧ imgU img 6 2 ≤ 16
      ∧ 512 ≤ len ∧ len ≤ 4194304 ∧ len % 64 = 0) then 1
  else if !natBit (imgU img 12 1) s.otp.part.bit || decide (byteAt img 13 ≠ 0xB1) then 2
  else if sha256 (slice img 32 64) ≠ s.otp.bootKeyHash then 3
  else if !ecdsaVerify (beNat (slice img 32 32)) (beNat (slice img 64 32)) (beNat (sha256 body)) (beNat (slice img (len - 64) 32))
      (beNat (slice img (len - 32) 32)) then 4
  else if !imgSectionsOk img then 5
  else 0

/-- The content of the section of a type. -/
def imgContent (img : Bytes) (ty : Nat) : Bytes :=
  match (imgSections img).find? fun x => decide (x.1 = ty) with
  | some x => slice img x.2.1 x.2.2.1
  | none => []

/-- R474-R477: the loader has verified copy A, or copy B after it. -/
def execBootVerifyDone (image : Bytes) (s : State) : Res :=
  if s.mgmtLive && !s.rst.bootDone && !s.rst.bootFailed then
    let c := s.bootCheck image
    let b := decide (s.rst.bootTry = 1)
    finish (s.modRst fun r =>
      if c = 0 then { r with
        bootDone := true, bootCopy := b, imgVer := BitVec.ofNat 32 (imgU image 16 4)
        digest := sha256 (image.take (imgU image 8 4 - 64)), pcieCfg := imgContent image 2, laneFw := imgContent image 1 }
      else if b then { r with causeB := c, bootFailed := true }
      else { r with causeA := c, bootTry := 1 })
  else idle s

end Sys2Proof.Machine
end

