-- ==== Sys2Proof/Machine/RegRead.lean ====
section
/-! DEFINITION. What each register reads (Tables 0-3, 18-2, 18-3 and the register tables): settings and sticky bits as stored,
status fields from the state they mirror. -/

namespace Sys2Proof.Machine

/-- Fields of a word: (lowest bit, value). -/
def word (fs : List (Nat × Nat)) : Nat := (fs.foldl (fun n f => n + f.2 * 2 ^ f.1) 0) % 2 ^ 32
/-- The flags of a list from bit 0 upward. -/
def bitsNat (bs : List Bool) : Nat := bs.foldr (fun b n => b2n b + 2 * n) 0
/-- The register is one of the `n` words at `base`. -/
def inWords (base n q : Nat) : Bool := decide (base ≤ q ∧ q < base + 4 * n)

/-! ## Who answers (R468, R471, R4) -/

/-- The domain of the register's block, or the path that a HOLD leaves open, is out of reset. `a` is the offset in BAR0. -/
def State.regLive (s : State) (a : Nat) : Bool :=
  if s.blank && decide (a ≠ 0) then false
  else if a < 0x10000 then s.rstLive
  else if a < 0x20000 then s.hstLive
  else if a < 0x60000 then s.islandLive
  else if a < 0x70000 then s.timLive
  else if a < 0x80000 then
    s.mgmtLive && s.hasBlock (if a < 0x73000 then (a - 0x70000) / 0x80 else if a < 0x78000 then 0 else (a - 0x78000) / 64)
  else if a < 0x90000 then s.evrPath
  else if a < 0xA0000 then s.feltLive
  else if a < 0xC0000 then (if a < 0xA0100 then s.memLive ⟨(a - 0xA0000) / 0x40 % 4, by omega⟩ else s.mgmtLive)
  else if a < 0x100000 then (if h : (a - 0xC0000) / 0x400 < 68 then s.laneLive ⟨(a - 0xC0000) / 0x400, h⟩ else false)
  else if a < 0x200000 then (if a < 0x101000 then s.mgmtLive else s.engLive ⟨(a - 0x101000) / 0x1000 % 4, by omega⟩)
  else if a < 0x1000000 then s.mgmtLive
  else if a < 0x5000000 then s.millLive ⟨(a / 0x1000000 - 1) % 4, by omega⟩
  else if a < 0x6080000 then s.islandLive
  else s.evrPath

/-! ## SYS, RST, HST (Tables 16-7 to 16-10, 17-9, 18-4 to 18-6) -/

def State.readSys (s : State) (q : Nat) : Nat :=
  let r := s.rst
  if q = 0 then word [(0, if s.otp.part = .jmc7710 then 0x7710 else 0x7720), (16, b2n (decide (s.otp.part = .jmc7720I))), (24, 0xB1)]
  else if q = 4 then word [(0, b2n r.bootDone), (1, b2n r.bootCopy), (2, b2n r.bootFailed), (4, r.causeA), (8, r.causeB)]
  else if q = 8 then r.imgVer.toNat
  else if inWords 0x20 8 q then leNat (slice r.digest (q - 0x20) 4)
  else if q = 0x104 then Nat.lor (s.reg q) (if s.otp.part = .jmc7710 then 0x18 else 0)
  else if q = 0x108 then s.reg q
  else if q = 0x10C then word [(0, r.released.toNat), (16, r.stable.toNat), (31, b2n s.nextDomain.isSome)]
  else 0

def State.readHst (s : State) (q : Nat) : Nat :=
  if q = 0 then word [(0, b2n s.hst.linkUp), (1, s.hst.linkSpeed), (4, s.hst.linkWidth)]
  else if inWords 0x100 48 q then word [(0, s.reg (Reg.hst q)), (16, b2n (s.hst.pend.getLsbD ((q - 0x100) / 4)))]
  else 0

/-! ## TMP and KST (Tables 10-14 to 10-18, 15-7 to 15-14) -/

def State.readTmp (s : State) (q : Nat) : Nat :=
  let t := s.tmp
  let r := s.reg (Reg.tmp q)
  if q = 0 then word [(0, t.firing.toNat), (12, b2n t.throttle), (13, b2n t.scDone), (14, b2n t.holding), (15, b2n t.exec.isSome)]
  else if q = 0x10 then word [(0, r), (16, t.temp.toNat)]
  else if q = 0x20 then word [(0, r), (13, b2n t.bistBusy)]
  else if q = 0x24 then word [(0, t.bistPass.toNat), (16, t.bistFail.toNat)]
  else if q = 0x30 then word [(0, t.dis.toNat), (0, r)]
  else if q = 0x34 then word [(0, s.otp.evidence), (10, b2n (decide (s.otp.evidence = 512))), (11, b2n s.logFull), (12, b2n s.bkp.pending)]
  else if q = 0x38 then word [(0, t.logNext), (16, t.logLost)]
  else if q = 0x3C then word [(0, s.bkp.mask.toNat), (5, b2n (decide (s.bkp.vbat ≠ .good))), (6, b2n s.bkp.fired), (7, s.bkp.firedSrc.toNat)]
  else if inWords 0x40 12 q then word [(0, s.rank ((q - 0x40) / 4)), (3, natBits r 3 1)]
  else r

/-- An entry of the accession log: byte 4k in [31:24]. -/
def State.readAlog (s : State) (o : Nat) : Nat := beNat (s.mtpRead (0x8000 + o) 4)

def State.readKst (s : State) (q : Nat) : Nat :=
  let k := s.kst
  let r := s.reg (Reg.kst q)
  if q = 0 then
    word [(0, k.lc), (3, b2n k.ready), (4, b2n s.otp.root.isSome), (5, b2n (!s.otp.bankA && s.otp.root.isSome)), (6, b2n k.rootFail),
      (7, b2n k.provDone), (8, b2n k.marking.isSome), (9, b2n s.mtpBusy), (0, r), (16, k.reserve.length)]
  else if q = 4 then k.gen
  else if q = 0x10 then r
  else if q = 0x18 then word [(0, k.lcLast), (3, k.lcErr), (0, r)]
  else if q = 0x48 then leNat (k.provChk.take 4)
  else if q = 0x4C then leNat (slice k.provChk 4 4)
  else 0

/-- State code of a slot (Table 10-18). -/
def SlotState.code : SlotState → Nat
  | .empty => 0 | .live => 1 | .staged => 2 | .invalidating => 3

/-- A word of a slot; an erased key has no check value. -/
def State.readSlot (s : State) (i o : Nat) : Nat :=
  let v := s.slot i
  let live := decide (v.st ≠ .empty) && !v.key.isEmpty
  let chk := if live then checkValue v.key else []
  let stg := match v.staged with
    | some (key, _, _) => checkValue key
    | none => []
  if o = 0 then v.attr.toNat
  else if o = 4 then v.gen % 2 ^ 32
  else if o = 8 then word [(0, v.st.code), (3, b2n v.hw), (4, b2n (s.kst.reserve.any fun e => decide (e.slot = i))), (5, b2n (s.copyBusy i)),
    (8, v.parent.getD 0x7FF), (19, v.depth)]
  else if o = 0x10 then leNat (chk.take 4)
  else if o = 0x14 then leNat (slice chk 4 4)
  else if o = 0x18 then leNat (stg.take 4)
  else if o = 0x1C then leNat (slice stg 4 4)
  else 0

/-! ## RNG and UCI (Tables 11-5 to 11-11) -/

def RngState.code : RngState → Nat
  | .reset => 0 | .startup => 1 | .run => 2 | .failed => 3 | .test => 4

def State.readRng (s : State) (q : Nat) : Nat :=
  let x := s.rng
  let r := s.reg (Reg.rng q)
  if q = 4 then word [(0, x.st.code), (4, x.cause), (7, x.smp), (0, r), (16, bitsNat (x.drbg.toList.map (·.inst)))]
  else if inWords 0x40 8 q then
    let p := x.samplers.toList.getD ((q - 0x40) / 4) {}
    word [(0, p.bias.toNat), (16, p.corr.toNat)]
  else if q < 0x100 then r
  else 0

def State.readUci (s : State) (q : Nat) : Nat :=
  let f : Fin 2 := ⟨q / 0x100 % 2, by omega⟩
  let o := q % 0x100
  let r := s.reg (Reg.uci q)
  if q = 0x204 then word [(0, bitsNat (s.uci.ctx.toList.map (·.loaded))), (4, b2n s.uci.load.isSome), (8, s.uci.lstatus)]
  else if 0x200 ≤ q then r
  else if o = 0x14 then word [(0, b2n s.uci.req[f].isSome), (0, r), (4, s.uci.status[f])]
  else if inWords 0x18 3 o then beNat (slice s.uci.nonce[f] (o - 0x18) 4)
  else r

/-! ## TIM (Tables 9-8 to 9-19) -/

def State.readTim (s : State) (q : Nat) : Nat :=
  let r := s.reg (Reg.tim q)
  if q < 0x200 then
    let t := s.tbAt ⟨q / 0x40 % 8, by omega⟩
    let o := q % 0x40
    if o = 0 then word [(0, r), (1, b2n t.servoEn), (2, t.src.val), (5, t.srcTb.val)]
    else if inWords 8 4 o then ((timeWords t.val).getD ((o - 8) / 4) 0).toNat
    else if o = 0x18 then word [(0, t.kp.toNat), (16, t.ki.toNat)]
    else if o = 0x1C then t.theta.toNat
    else r
  else if 0x600 ≤ q ∧ q < 0x680 then
    let l := s.tim.line.toList.getD ((q - 0x600) / 0x20) {}
    let o := q % 0x20
    if o = 0 then word [(0, r), (8, b2n l.valid)]
    else if o = 8 then toTwos 32 (roundOpen l.dbar)
    else if o = 0x10 then toTwos 32 (roundOpen l.rtt)
    else r
  else if inWords 0x700 8 q then
    let g := s.tim.trig.toList.getD ((q - 0x700) / 4) {}
    word [(0, b2n g.active), (0, r), (2, g.tb.val)]
  else r

/-! ## PMC and EVR (Tables 17-6 to 17-8) -/

def State.readPmc (s : State) (q : Nat) : Nat :=
  let cnt := fun (t : Tbl Nat) (i : Nat) (hi : Bool) => let v := tget 0 t i; if hi then v / 2 ^ 32 else v % 2 ^ 32
  if q < 0x3000 then
    let b := q / 0x80
    let o := q % 0x80
    if o = 4 then bitsNat ((List.range 8).map fun i => tget false s.pmc.sat (8 * b + i))
    else if 0x40 ≤ o then cnt s.pmc.cnt (8 * b + (o - 0x40) / 8) (natBit o 2)
    else s.reg (Reg.pmc q)
  else if q = 0x7000 then word [(1, b2n s.pmc.busy), (16, s.pmc.gseq.toNat)]
  else if inWords 0x8000 0x600 q then cnt s.pmc.snap ((q - 0x8000) / 8) (natBit q 2)
  else 0

def State.readEvr (s : State) (q : Nat) : Nat :=
  if q = 4 then word [(0, b2n (decide (256 ≤ s.evr.written))), (16, s.evr.lost.toNat)]
  else if q = 8 then s.evr.written % 2 ^ 32
  else s.reg (Reg.evr q)

/-- A word of a record area; an invalid slot reads as zero. -/
def recordAt (t : Tbl Bytes) (o : Nat) : Nat := ((recordWords (tget [] t (o / 0x20))).getD (o / 4 % 8) 0).toNat

/-! ## MTE (Tables 14-11 to 14-14) -/

def MState.code : MState → Nat
  | .unpaired => 0 | .pairing => 1 | .sync => 2 | .standby => 3 | .taking => 4 | .active => 5 | .released => 6

def State.readMte (s : State) (q : Nat) : Nat :=
  let x := s.mte
  let r := s.reg (Reg.mte q)
  if q = 4 then word [(0, x.st.code), (3, b2n s.felt.up), (4, b2n x.silent), (5, b2n s.granted), (6, b2n s.pads.mateActIn),
    (7, b2n s.pads.mateSide), (8, x.cause), (0, r), (14, x.pairErr)]
  else if q = 8 then s.healthWord
  else if q = 0xC then x.peerHealth.toNat
  else if q = 0x10 then word [(0, r), (16, 1), (20, 1), (24, x.ver)]
  else if q = 0x14 then word [(3, b2n x.selftesting), (4, x.cmdStatus)]
  else if q = 0x18 then word [(0, b2n x.aGood), (1, b2n x.bGood), (0, r)]
  else if q = 0x1C then x.tko.toNat
  else r

/-! ## MEM (Tables 12-8 to 12-12) -/

def RgnState.code : RgnState → Nat
  | .nokey => 0 | .init => 1 | .ready => 2

def State.readMem (s : State) (q : Nat) : Nat :=
  let r := s.reg (Reg.mem q)
  if q < 0x100 then
    let x := s.mem.ch.toList.getD (q / 0x40) {}
    if q % 0x40 = 4 then word [(0, b2n x.trained), (1, b2n x.fail), (2, x.step), (0, r)] else 0
  else if 0x200 ≤ q ∧ q < 0x300 then
    let x := s.rgn ⟨q / 0x20 % 8, by omega⟩
    if q % 0x20 = 0x10 then word [(0, x.st.code), (0, r), (8, x.lstatus), (16, x.gen % 65536)] else r
  else if q = 0x410 then word [(0, s.mem.errAddr), (26, s.mem.errStatus), (30, b2n s.mem.errScrub), (31, b2n s.mem.errValid)]
  else if q = 0x414 then s.mem.errSynd
  else if q = 0x508 then word [(0, r), (1, b2n s.mem.winBusy), (8, s.mem.winStatus)]
  else r

/-! ## SER (Tables 13-8 to 13-14) -/

def RxState.code : RxState → Nat
  | .disabled => 0 | .waitSig => 1 | .cdr => 2 | .fastCheck => 3 | .adapt => 4 | .track => 5

def State.readSer (s : State) (n : Fin 68) (o : Nat) : Nat :=
  let l := s.lane n
  let r := s.reg (Reg.ser n.val o)
  if o = 4 then word [(0, l.st.code), (3, b2n l.sigDet), (4, b2n l.txIdle), (5, b2n (s.txHeld n)), (6, b2n (s.modeErr n)), (0, r),
    (16, l.fom.toNat)]
  else if o = 0x10 then word [(0, r), (4, b2n l.prbsLock)]
  else if o = 0x14 then l.prbsErr % 2 ^ 32
  else if o = 0x18 then l.prbsErr / 2 ^ 32
  else if o = 0x20 then word [(0, r), (29, b2n l.eyeAbort), (30, b2n l.eyeDone)]
  else if o = 0x24 then l.eyeErr.toNat
  else if o = 0x100 ∧ n = 64 then
    word [(0, b2n s.felt.up), (1, bitsNat (s.felt.lanes.toList.map fun x => decide (x.st = .sync))), (5, b2n s.felt.aligned), (0, r),
      (8, s.felt.skew)]
  else r

/-! ## CUR (Tables 7-9 to 7-15) and HBX (Table 1-5) -/

def State.readRing (s : State) (r : Rid) (o : Nat) : Nat :=
  let g := s.ring r
  if o = 8 then word [(0, b2n g.en), (0, s.rcfg r)]
  else if o = 0x0C then g.prod.toNat
  else if o = 0x10 then g.cons.toNat
  else if o = 0x1C then g.cqHead.toNat
  else if o = 0x20 then word [(0, g.cqTail.toNat), (16, b2n g.phase)]
  else if o = 0x24 then word [(0, b2n (g.fetched.isEmpty && decide (g.cons = g.prod))), (1, b2n g.halt), (2, b2n g.dbErr), (3, b2n (s.cqFull r)),
    (16, s.ringPend r)]
  else s.reg (Reg.ring r.eng r.ring o)

def State.readCur (s : State) (q : Nat) : Nat :=
  let r := s.reg (Reg.cur q)
  if q < 0x1000 then
    if q = 0 then word [(0, 0x0201), (0, r)] else if q = 4 then s.mte.epoch.toNat else if q = 8 then s.role else r
  else
    let k : Fin 4 := ⟨(q - 0x1000) / 0x1000 % 4, by omega⟩
    let o := q % 0x1000
    if h : 0x100 ≤ o ∧ o < 0x400 then s.readRing ⟨k, ⟨(o - 0x100) / 0x40, by omega⟩⟩ (o % 0x40) else r

/-- HELD shows the mills in reset or fused off. -/
def State.readHbx (s : State) : Nat :=
  word [(0, s.reg Reg.hbxStat), (12, bitsNat ((List.finRange 4).map fun m => !s.millLive m))]

/-! ## The mill's blocks -/

def Neg.code : Neg → Nat
  | .down => 0 | .offer => 1 | .confirm => 2 | .agreed => 3 | .failed => 4

/-- LNF (Tables 2-16 to 2-19). -/
def State.readLnf (s : State) (m : Fin 4) (q : Nat) : Nat :=
  let l := s.line m
  let r := s.reg (Reg.lnf m q)
  if q = 0x10 then word [(0, l.defects.word.toNat), (16, bitsNat (l.lanes.toList.map (·.lol))), (24, l.feLaneMap.toNat)]
  else if q = 0x20 then word [(0, r), (6, b2n l.dlg.busy), (8, l.dlg.ver), (10, l.dlg.neg.code)]
  else if inWords 0x180 16 q then leNat (slice l.wmRecv (q - 0x180) 4)
  else if inWords 0x300 60 q then leNat (slice l.dlg.rxbuf (q - 0x300) 4)
  else r

def TxRole.code : TxRole → Nat
  | .idle => 0 | .armed => 1 | .current => 2 | .done => 3

/-- LCI (Tables 4-8 to 4-14). -/
def State.readLci (s : State) (m : Fin 4) (q : Nat) : Nat :=
  let x := s.lci m
  let r := s.reg (Reg.lci m q)
  if q = 4 then
    let arm := match x.arm with
      | some a => [(3, 1), (4, a.lkn.val), (6, b2n a.time.isSome)]
      | none => []
    word ([(0, match x.current with | some k => k.val | none => 0), (2, b2n (s.framerRuns m && s.permitted && (s.keyedUnder m).isSome)), (10, x.rxLast), (0, r),
      (16, bitsNat (x.lkn.toList.map fun k => decide (k.track ≠ .track)))] ++ arm)
  else if q = 8 then word ((List.finRange 4).flatMap fun k =>
    [(8 * k.val, b2n x.lkn[k].loaded), (8 * k.val + 1, b2n x.lkn[k].rx), (8 * k.val + 2, x.lkn[k].tx.code)])
  else if q = 0x18 then x.armRc.toNat
  else if q = 0x20 ∨ q = 0x24 then
    let v := match x.current with
      | some k => x.lkn[k].seq
      | none => 0
    if q = 0x20 then v % 2 ^ 32 else v / 2 ^ 32
  else if inWords 0x40 8 q then
    let v := (x.lkn.toList.getD ((q - 0x40) / 8) {}).sh
    if q % 8 = 0 then v % 2 ^ 32 else v / 2 ^ 32
  else r

/-- DKL (Tables 3-11 to 3-17). -/
def State.readDkl (s : State) (m : Fin 4) (q : Nat) : Nat :=
  let x := s.dkl m
  let r := s.reg (Reg.dkl m q)
  if q = 4 then
    let arm := match x.arm with
      | none => 0
      | some a => match a.kind with
        | .flip => 1 | .shed _ => 2 | .restore _ => 3
    word [(0, b2n x.activeB), (1, arm), (3, x.flipCd), (0, r), (7, b2n x.validating.isSome), (8, b2n x.farPage), (9, x.farCd),
      (11, b2n x.farShed), (12, s.txLanes m), (16, popCount (s.rxSet m))]
  else if q = 8 then (match x.arm with | some a => a.rcF.toNat | none => x.armRc.toNat)
  else if q = 0xC then word [(0, x.valIndex), (17, x.valCause)]
  else if q = 0x10 then word [(0, x.lanesA), (4, b2n x.readyA)]
  else if q = 0x14 then word [(0, x.lanesB), (4, b2n x.readyB)]
  else if q = 0x18 then
    word [(0, x.txMap.toNat), (8, x.rxMap.toNat), (16, bitsNat ((s.line m).lanes.toList.map (·.ready)))]
  else if inWords 0x40000 63500 q then word [(0, x.entry false ((q - 0x40000) / 2)), (16, x.entry false ((q - 0x40000) / 2 + 1))]
  else if inWords 0x80000 63500 q then word [(0, x.entry true ((q - 0x80000) / 2)), (16, x.entry true ((q - 0x80000) / 2 + 1))]
  else r

/-- An SC table entry (Table 5-2) and an SA directory entry (Table 5-3) as words. -/
def Sc.code (x : Sc) : Nat := word [(0, b2n x.valid), (1, b2n x.rx), (2, x.mill.val), (4, x.txAn)]
def SaDir.code (x : SaDir) : Nat := word [(0, x.st.code), (3, b2n x.cached), (4, b2n x.pinned), (5, b2n x.thresh), (6, x.parent)]

/-- SAC (Tables 5-16 to 5-20). -/
def State.readSac (s : State) (m : Fin 4) (q : Nat) : Nat :=
  let x := s.sac m
  if q = 0 then
    let resident := x.ways.countP fun e => match e.2 with
      | some w => !w.filling
      | none => false
    word [(0, resident), (13, s.sa.countP fun e => e.2.pinned && decide (s.saMill e.1 = m)), (25, x.missOut)]
  else if q = 4 then word [(0, s.missHold m false), (11, s.missHold m true), (22, x.victims.length)]
  else if q = 8 then word [(0, x.faultSax), (16, x.faultCause), (31, b2n x.faultValid)]
  else if inWords 0x20000 8192 q then word [(0, (s.scAt ((q - 0x20000) / 2)).code), (16, (s.scAt ((q - 0x20000) / 2 + 1)).code)]
  else if inWords 0x40000 65536 q then (s.saAt ((q - 0x40000) / 4)).code
  else 0

/-- SCH (Tables 8-6 to 8-12). -/
def State.readSch (s : State) (m : Fin 4) (q : Nat) : Nat :=
  let r := s.reg (Reg.sch m q)
  if q = 4 then word [(0, (s.sch m).txUsed), (16, (s.sch m).egUsed)]
  else if q = 0x50 then word [(0, r), (31, b2n (s.txEn m && !s.creditChecked m))]
  else if inWords 0x200 8 q then
    let p := (s.mill m).ports.toList.getD ((q - 0x200) / 4) {}
    word [(0, b2n p.oper.isSome), (1, b2n p.pend.isSome), (0, r), (4, match p.oper with | some g => g.tb.val | none => 0), (8, p.entry)]
  else r

/-- VAT (Tables 6-13 to 6-24). -/
def State.readVat (s : State) (m : Fin 4) (q : Nat) : Nat :=
  let v := s.vat m
  let r := s.reg (Reg.vat m q)
  if q < 0x800 then
    let c : Fin 8 := ⟨q / 0x100 % 8, by omega⟩
    if q % 0x100 = 0 then word [(0, b2n (decide (v.run[c] = 1))), (1, b2n (s.clusterIdle m c)), (16, v.gen[c])] else r
  else if q = 0x804 then word [(0, v.excWord), (31, b2n v.excValid)]
  else if q = 0x9A0 then word [(0, r), (30, b2n v.hashOp.isSome)]
  else if q = 0xAC0 then word [(0, r), (30, b2n v.tcamOp.isSome)]
  else if inWords 0x10000 0x10000 q then
    let e := (q - 0x10000) / 0x8000 * 16384 + (q - 0x10000) % 0x8000 / 2
    word [(0, (tget 0 v.prog e).toNat), (16, (tget 0 v.prog (e + 1)).toNat)]
  else r

/-- A register of mill `m` at offset `o` of its range (Table 18-3). -/
def State.readMill (s : State) (m : Fin 4) (o : Nat) : Nat :=
  if o < 0x10000 then s.readLnf m o
  else if o < 0x20000 then s.readLci m (o - 0x10000)
  else if 0x30000 ≤ o ∧ o < 0x40000 then s.readSch m (o - 0x30000)
  else if o < 0x100000 then s.reg (Reg.mill m + o)
  else if o < 0x200000 then s.readDkl m (o - 0x100000)
  else if o < 0x300000 then s.readSac m (o - 0x200000)
  else s.readVat m (o - 0x300000)

/-! ## The whole map -/

/-- What a register at an aligned offset of a released domain reads. -/
def State.regValue (s : State) (a : Nat) : Nat :=
  if a < 0x10000 then s.readSys a
  else if a < 0x20000 then s.readHst (a - 0x10000)
  else if a < 0x30000 then s.readTmp (a - 0x20000)
  else if a < 0x40000 then s.readKst (a - 0x30000)
  else if a < 0x50000 then s.readRng (a - 0x40000)
  else if a < 0x60000 then s.readUci (a - 0x50000)
  else if a < 0x70000 then s.readTim (a - 0x60000)
  else if a < 0x80000 then s.readPmc (a - 0x70000)
  else if a < 0x90000 then s.readEvr (a - 0x80000)
  else if a < 0xA0000 then s.readMte (a - 0x90000)
  else if a < 0xC0000 then s.readMem (a - 0xA0000)
  else if a < 0x100000 then
    (if h : (a - 0xC0000) / 0x400 < 68 then s.readSer ⟨(a - 0xC0000) / 0x400, h⟩ ((a - 0xC0000) % 0x400) else 0)
  else if a < 0x200000 then s.readCur (a - 0x100000)
  else if a < 0x1000000 then (if a = Reg.hbxStat then s.readHbx else 0)
  else if a < 0x5000000 then s.readMill ⟨(a / 0x1000000 - 1) % 4, by omega⟩ (a % 0x1000000)
  else if inWords 0x6030000 0x2000 a then s.readAlog (a - 0x6030000)
  else if inWords 0x6040000 0x2200 a then s.readSlot ((a - 0x6040000) / 0x20) (a % 0x20)
  else if inWords 0x6090000 0x800 a then recordAt s.evr.first (a - 0x6090000)
  else if inWords 0x60A0000 0x2000 a then recordAt s.evr.last (a - 0x60A0000)
  else 0

/-- R468, R467: a misaligned read, a reserved offset and a domain held in reset read as zero. -/
def State.readReg (s : State) (a : Nat) : Nat := if a % 4 = 0 ∧ s.regLive a then s.regValue a else 0

end Sys2Proof.Machine
end

