-- ==== Sys2Proof/Machine/Registers.lean ====
section
/-! DEFINITION. Register accesses (R14-R18, R467, R468): what a write does to each register, wide reads, MSI-X masking and the I²C
target (chapter 18). -/

namespace Sys2Proof.Machine

/-! ## Fields -/

/-- The bits of `mask` take their values from `v` (RW); both copies of a shadow-inverted register are written (R431). -/
def State.putBits (s : State) (a mask v : Nat) : State :=
  { s.setReg a (mergeBits mask (s.reg a) v) with shadow := tdel a s.shadow }
/-- The bits of `mask` that are 1 in `v` are cleared (W1C). -/
def State.clearBits (s : State) (a mask v : Nat) : State := s.setReg a (s.reg a - Nat.land (s.reg a) (Nat.land v mask))
/-- A write with `c` false is ignored. -/
def State.putIf (s : State) (c : Bool) (a mask v : Nat) : State := if c then s.putBits a mask v else s

/-- The low word of a 64-bit setting as last written: it waits at the next odd address, which no access names (R145). -/
def State.stageLow (s : State) (a v : Nat) : State := s.setReg (a + 1) v
/-- The high word is written: the setting takes effect where `ok` holds of its value (R145). -/
def State.putWide (s : State) (lo hiMask v : Nat) (ok : Nat → Bool) : State :=
  let h := Nat.land v hiMask
  let l := s.reg (lo + 1)
  if ok (l + 2 ^ 32 * h) then (s.setReg lo l).setReg (lo + 4) h else s

/-! ## SYS, RST, HST -/

def State.writeSys (s : State) (pf : Fin 2) (a v : Nat) : State :=
  if a = 0x100 then s.rstCtlWrite pf v
  else if a < 0x104 ∨ 0x10C < a then s
  else if pf = 0 then s.lockedWrite pf a v
  else if a = 0x104 then s.rstCfgWrite v
  else if a = 0x108 then s.clearBits a 0x1E1FFF v
  else s

/-- HST_IVEC (Table 17-9). -/
def State.writeHst (s : State) (pf : Fin 2) (a v : Nat) : State :=
  if inWords (Reg.hst 0x100) 48 a then
    let src := (a - Reg.hst 0x100) / 4
    if (src = 32 ∨ src = 33) ∧ pf = 0 then s.lockedWrite pf a v
    else
      let s1 := s.putBits a 0x1FF v
      if src = 37 ∧ natBit v 9 then s1.modHst fun h => { h with mstateChg := false } else s1
  else s

/-! ## TMP (R427, Tables 15-7 to 15-14) -/

/-- Offsets that chapter 15 gives a register. -/
def tmpListed (q : Nat) : Bool := inWords 0 5 q || inWords 0x20 8 q || inWords 0x40 12 q

/-- A write of an RWL field: while LOCK is 1 it is ignored and recorded. -/
def State.unlessLocked (s : State) (pf : Fin 2) (a v : Nat) (f : State → State) : State :=
  if s.bit (Reg.tmp 8) 0 then s.lockedWrite pf a v else f s

/-- The thresholds, from −55 to 125 with LO at most HI; the backup domain keeps them too (R432). -/
def State.writeTemp (s : State) (v : Nat) : State :=
  let hi := sext 8 v
  let lo := sext 8 (v / 256)
  if -55 ≤ lo ∧ lo ≤ hi ∧ hi ≤ 125 then
    (s.putBits (Reg.tmp 0x10) 0xFFFF v).modBkp fun b => { b with hi := byteOf v, lo := byteOf (v / 256) }
  else s

def State.writeTmp (s : State) (pf : Fin 2) (a v : Nat) : State :=
  let q := a - Reg.tmp 0
  if !tmpListed q then s
  else if pf = 0 then s.lockedWrite pf a v
  else if q = 0 then (if natBit v 13 then s.modTmp fun t => { t with scDone := false } else s)
  else if q = 4 then s.clearBits a 0xFFF v
  else if q = 8 then (if natBit v 0 then s.putBits a 1 1 else s)
  else if q = 0xC then s.unlessLocked pf a v fun x => x.putIf (decide (v % 256 ≠ 0)) a 0xFF v
  else if q = 0x10 then s.unlessLocked pf a v fun x => x.writeTemp v
  else if q = 0x20 then s.bistWrite v
  else if q = 0x28 then s.fuseTgt v
  else if q = 0x2C then s.fuseGo v
  else if q = 0x30 then s.clearBits a 0x100 v
  else if q = 0x3C then
    (if natBit v 6 then s.modBkp fun b => { b with fired := false } else s).unlessLocked pf a v fun x =>
      x.modBkp fun b => { b with mask := BitVec.ofNat 5 v }
  else if 0x40 ≤ q then s.unlessLocked pf a v fun x => (x.putIf (decide (v % 8 < 6)) a 7 v).putBits a 8 v
  else s

/-! ## KST (Tables 10-14 to 10-17) -/

def kstListed (q : Nat) : Bool := inWords 0 2 q || inWords 0x10 3 q || inWords 0x20 9 q || inWords 0x48 2 q

def State.writeKst (s : State) (pf : Fin 2) (a v : Nat) : State :=
  let q := a - Reg.kst 0
  if !kstListed q then s
  else if pf = 0 then s.lockedWrite pf a v
  else if q = 0 then s.clearBits a 0x400 v
  else if q = 0x10 then s.lcTarget v
  else if q = 0x14 then s.lcGo v
  else if q = 0x18 then s.clearBits a 0x40 v
  else if inWords 0x20 8 q then s.modKst fun k => { k with prov := patch k.prov (q - 0x20) (leBytes 4 v) }
  else if q = 0x40 then s.provGo v
  else s

/-! ## RNG and UCI (R325, R329, R338, Tables 11-5 to 11-11) -/

def rngListed (q : Nat) : Bool := inWords 0 5 q || inWords 0x40 9 q || inWords 0x100 16 q || decide (q = 0x200)

/-- RNG_CTL: SMP_EN with at least 4 samplers, RESTART, TEST. -/
def State.writeRngCtl (s : State) (v : Nat) : State :=
  let s1 := s.putIf (decide (4 ≤ popCount (byteOf v))) (Reg.rng 0) 0xFF v
  let s2 := if natBit v 8 then s1.rngRestart else s1
  if natBits v 9 2 = s.fld (Reg.rng 0) 9 2 then s2 else s2.rngTest (natBits v 9 2)

def State.writeRng (s : State) (pf : Fin 2) (a v : Nat) : State :=
  let q := a - Reg.rng 0
  let open_ := decide (s.kst.lc = 1) || decide (s.kst.lc = 3)
  if !rngListed q then s
  else if pf = 0 then s.lockedWrite pf a v
  else if q = 0 then s.writeRngCtl v
  else if q = 4 then s.clearBits a 0x400 v
  else if q = 8 then
    (if open_ then (s.putIf (decide (16 ≤ natBits v 0 8)) a 0xFF v).putIf (decide (600 ≤ natBits v 16 10)) a 0x3FF0000 v
      else s.lockedWrite pf a v)
  else if q = 0xC then (if open_ then s.putBits a 0xFFFFFFFF v else s.lockedWrite pf a v)
  else if q = 0x10 then s.putIf (decide (1 ≤ natBits v 0 21 ∧ natBits v 0 21 ≤ 1048576)) a 0x1FFFFF v
  else if q = 0x60 then s.clearBits a 0xFF v
  else s

def State.writeUci (s : State) (pf : Fin 2) (a v : Nat) : State :=
  let q := a - Reg.uci 0
  let f : Fin 2 := ⟨q / 0x100 % 2, by omega⟩
  let o := q % 0x100
  if q = 0x200 then (if pf = 0 then s.lockedWrite pf a v else s.uciLoadWrite v)
  else if 0x200 ≤ q ∨ 0x24 ≤ o then s
  else if pf ≠ f then s.lockedWrite pf a v
  else if o = 0 then
    let s1 := s.putBits a 0x1FF07 v
    if natBit v 31 then s1.uciGo f (v % 4) else s1
  else if o = 4 ∨ o = 0xC then s.putBits a 0xFFFFFFF0 v
  else if o = 8 ∨ o = 0x10 then s.putBits a 0xFFFFFFFF v
  else if o = 0x14 then s.clearBits a 2 v
  else s

/-! ## TIM (Tables 9-8 to 9-18) -/

def State.writeTb (s : State) (b : Fin 8) (o v : Nat) : State :=
  let a := Reg.tim (0x40 * b.val)
  if o = 0 then
    let s1 := s.clearBits a 0x700 v
    if natBit v 0 = s1.tbRun b then s1 else if natBit v 0 then s1.setBit a 0 else s1.tbStop b
  else if o = 4 then s.putIf (!(s.tbAt b).servoEn) (a + 4) 0xFFFFFFFF v
  else s

/-- TIM_PPS: PPS_OUT is low while EN is 0. -/
def State.writePps (s : State) (v : Nat) : State :=
  let w := natBits v 4 10
  let s1 := (s.putBits (Reg.tim 0x7F0) 0xF v).putIf (decide (1 ≤ w ∧ w ≤ 999)) (Reg.tim 0x7F0) 0x3FF0 v
  if s.tim.ppsOut && !natBit v 3 then (s1.modTim fun t => { t with ppsOut := false }).drivePin 8 false else s1

def State.writeTim (s : State) (a v : Nat) : State :=
  let q := a - Reg.tim 0
  if q < 0x200 then s.writeTb ⟨q / 0x40 % 8, by omega⟩ (q % 0x40) v
  else if inWords 0x400 32 q then (s.putBits a 0x27 v).putIf (decide (natBits v 3 2 ≠ 3)) a 0x18 v
  else if inWords 0x480 64 q then s.putBits a 0xFFFFFFFF v
  else if 0x600 ≤ q ∧ q < 0x680 then
    let o := q % 0x20
    if o = 0 then ((s.putBits a 0xF v).putIf (decide (natBits v 4 4 ≤ 8)) a 0xF0 v).putIf (decide (natBits v 16 16 ≠ 0)) a 0xFFFF0000 v
    else s.putIf (decide (o = 4 ∨ o = 0xC)) a 0xFFFFFFFF v
  else if inWords 0x700 8 q then s.clearBits a 2 v
  else if q = 0x7F0 then s.writePps v
  else if 0x900 ≤ q ∧ q < 0x9A0 ∧ q % 0x20 = 0 then s.putBits a 0x1F v
  else s

/-! ## PMC and EVR (R452, R454, R455, R457, R462, Tables 17-6 to 17-8) -/

/-- Events of each source code (Table 17-1). -/
def eventCounts : List Nat := [13, 13, 7, 15, 16, 16, 4, 12, 3, 3, 5, 9, 10, 6, 3, 4]
/-- Block `b` may select event `e` (R452). -/
def eventOk (b e : Nat) : Bool := decide (e % 256 < eventCounts.getD (e / 256) 0) && (decide (b < 80) == decide (e / 256 < 8))
/-- Fixed blocks (Table 17-2). -/
def fixedBlock (b : Nat) : Bool := decide (b = 95) || (decide (b < 80) && decide (b % 20 = 19))

def State.writePmc (s : State) (a v : Nat) : State :=
  let q := a - Reg.pmc 0
  let b := q / 0x80
  let o := q % 0x80
  if q = 0x7000 then (if natBit v 0 then s.modPmc fun p => p.gather s.clrBlocks else s)
  else if 0x3000 ≤ q then s
  else if o = 0 then
    let s1 := s.putBits a 2 v
    if natBit v 0 then s1.modPmc fun p => p.clear b else s1
  else if inWords 0x20 8 o then
    (if fixedBlock b then s.putBits a 0xFFFF1000 v else s.putIf (eventOk b (natBits v 0 12)) a 0xFFFF1FFF v)
  else s

def State.writeEvr (s : State) (a v : Nat) : State :=
  let q := a - Reg.evr 0
  if q = 0 then
    let s1 := (s.putBits a 0xE v).putIf (decide (natBits v 4 16 ≤ 60000)) a 0xFFFF0 v
    let s2 := s1.putIf (decide (1 ≤ natBits v 20 11 ∧ natBits v 20 11 ≤ 1024)) a 0x7FF00000 v
    if natBit v 0 then s2.modEvr Evr.arm else s2
  else if q = 0xC then s.putBits a 0xFFFFFFFF v
  else if inWords 0x10 3 q then s.putIf (decide (natBits v 0 10 < 768)) a 0x3FF v
  else s

/-! ## MTE (Tables 14-11 to 14-14) -/

def State.writeMteCtl (s : State) (v : Nat) : State :=
  let a := Reg.mte 0
  let s1 := ((s.putBits a 0xC v).putIf (decide (4 ≤ natBits v 4 8)) a 0xFF0 v).putIf (decide (natBits v 12 4 ≠ 0)) a 0xF000 v
  let s2 := s1.putIf (decide (natBits v 16 8 ≠ 0)) a 0xFF0000 v
  let s3 := if natBit v 1 = s.bit a 1 then s2 else s2.writeActReq (natBit v 1)
  if natBit v 0 || s.mateEn then s3.writeMteEn (natBit v 0) else s3

def State.writeMte (s : State) (pf : Fin 2) (a v : Nat) : State :=
  let q := a - Reg.mte 0
  if q = 0 then s.writeMteCtl v
  else if q = 4 then s.clearBits a 0x3000 v
  else if q = 0x10 then (if pf = 0 then s.lockedWrite pf a v else s.putIf (!s.mateEn) a 0x7FF v)
  else if q = 0x14 then
    let s1 := if natBit v 1 then s.cmdClrDiverged else s
    let s2 := if natBit v 2 then s1.cmdSelftest else s1
    if natBit v 0 then s2.cmdSwitch else s2
  else if q = 0x18 then s.clearBits a 0xC v
  else s

/-! ## MEM (R353, R354, R365, Tables 12-8 to 12-12) -/

def State.writeRgn (s : State) (pf : Fin 2) (r : Fin 8) (a v : Nat) : State :=
  let o := a % 0x20
  let free := decide ((s.rgn r).st = .nokey)
  if o = 0 then s.putIf free a 0x3FFF v
  else if o = 4 then s.putIf free a 0x7FFF v
  else if o = 8 then
    if pf = 0 then s.lockedWrite pf a v
    else
      let s1 := s.putIf (decide (r ≠ 0)) a 3 v
      if natBit v 2 then s1.regionUnload r else s1
  else if o = 0xC then (if pf = 0 then s.lockedWrite pf a v else s.regionKeyWrite r v)
  else if o = 0x10 then s.clearBits a 0x1C v
  else s

/-- The memory window (R365): PF1's alone. -/
def State.writeWin (s : State) (pf : Fin 2) (a v : Nat) : State :=
  let q := a - Reg.mem 0
  if pf = 0 then s.lockedWrite pf a v
  else if q = 0x500 then s.putBits a 0x3FFFFE0 v
  else if q = 0x508 then (if natBit v 31 then s.winGo (natBit v 0) else s.putBits a 1 v)
  else s.putBits a 0xFFFFFFFF v

def State.writeMem (s : State) (pf : Fin 2) (a v : Nat) : State :=
  let q := a - Reg.mem 0
  if q < 0x100 then
    if q % 0x40 = 0 then (if natBit v 0 then s.trainWrite ⟨q / 0x40 % 4, by omega⟩ else s)
    else if q % 0x40 = 4 then s.clearBits a 0x10 v
    else s
  else if 0x200 ≤ q ∧ q < 0x300 then s.writeRgn pf ⟨q / 0x20 % 8, by omega⟩ a v
  else if q = 0x400 then (s.putBits a 1 v).putIf (decide (natBits v 16 16 ≠ 0)) a 0xFFFF0000 v
  else if q = 0x404 then s.putIf (decide (v ≠ 0)) a 0xFFFFFFFF v
  else if q = 0x410 then (if natBit v 31 then s.modMem fun m => { m with errValid := false } else s)
  else if inWords 0x500 3 q || inWords 0x520 8 q then s.writeWin pf a v
  else s

/-! ## SER (R378, R391-R394, Tables 13-8 to 13-14) -/

/-- The sum of the magnitudes of the used taps (R378): the outer taps are not used on felt lanes. -/
def tapSum (n : Fin 68) (v : Nat) : Nat :=
  (sext 6 (v / 2 ^ 6)).natAbs + natBits v 12 6 + (sext 6 (v / 2 ^ 18)).natAbs
    + if isFeltLane n then 0 else (sext 6 v).natAbs + (sext 6 (v / 2 ^ 24)).natAbs

/-- Patterns for the modulation of a mode (R392); a lane that is OFF takes any. -/
def patternOk (mode p : Nat) : Bool :=
  if mode = 0 then decide (p ≤ 8)
  else if mode = 3 ∨ mode = 4 ∨ mode = 8 ∨ mode = 9 then decide (p = 6 ∨ p = 7)
  else decide (p ≤ 5 ∨ p = 8)

def State.writeSer (s : State) (n : Fin 68) (o v : Nat) : State :=
  let a := Reg.ser n.val o
  if o = 0 then s.serCtlWrite n v
  else if o = 4 then s.clearBits a 0x380 v
  else if o = 8 then
    (if natBits v 8 8 < natBits v 0 8 then s
      else ((s.putBits a 0xFFFF v).putIf (decide (natBits v 16 4 ≠ 0)) a 0xF0000 v).putIf (decide (natBits v 20 8 ≠ 0)) a 0xFF00000 v)
  else if o = 0xC then s.putIf (decide (tapSum n v ≤ 63)) a 0x3FFFFFFF v
  else if o = 0x10 then s.putIf (patternOk (s.laneMode n.val) (natBits v 0 4)) a 0xF v
  else if o = 0x20 then s.eyeWrite n v
  else if o = 0x100 ∧ n = 64 then s.clearBits a 0xC0 v
  else s

/-! ## CUR (R211-R215, R228, Tables 7-9 to 7-15) -/

/-- CUR_RCFG: sizes while EN is 0, VEC always, then EN. -/
def State.writeRcfg (s : State) (r : Rid) (v : Nat) : State :=
  let a := Reg.ring r.eng r.ring 8
  let off := !(s.ring r).en
  let s1 := (s.putBits a 0xFF0000 v).putIf (off && decide (4 ≤ natBits v 4 4)) a 0xF0 v
  let s2 := s1.putIf (off && decide (4 ≤ natBits v 8 4)) a 0xF00 v
  if natBit v 0 then s2.ringOn r else s2.ringOff r

def State.writeRing (s : State) (pf : Fin 2) (r : Rid) (a o v : Nat) : State :=
  let off := !(s.ring r).en
  if 0x28 ≤ o then s
  else if pf ≠ ringPf r then s.lockedWrite pf a v
  else if o = 0 ∨ o = 0x14 then s.putIf off a 0xFFFFF000 v
  else if o = 4 ∨ o = 0x18 then s.putIf off a 0xFFFFFFFF v
  else if o = 8 then s.writeRcfg r v
  else if o = 0xC then s.doorbell r (BitVec.ofNat 16 v)
  else if o = 0x1C then s.cqHeadTo r (BitVec.ofNat 16 v)
  else if o = 0x24 then (if natBit v 2 then s.modRing r fun g => { g with dbErr := false } else s)
  else s

def State.writeCur (s : State) (pf : Fin 2) (a v : Nat) : State :=
  let q := a - Reg.cur 0
  if q < 0x1000 then (if q = 0 then (s.abiWrite pf 0 (natBits v 16 4)).abiWrite pf 1 (natBits v 20 4) else s)
  else
    let k : Fin 4 := ⟨(q - 0x1000) / 0x1000 % 4, by omega⟩
    let o := q % 0x1000
    if 0x5000 ≤ q then s
    else if o = 0 then s.putIf (decide (natBits v 0 10 ≠ 0)) a 0x3FF v
    else if h : 0x100 ≤ o ∧ o < 0x400 then s.writeRing pf ⟨k, ⟨(o - 0x100) / 0x40, by omega⟩⟩ a (o % 0x40) v
    else s

/-! ## The mill's blocks -/

/-- LNF_CTL (Table 2-16). -/
def State.writeLnfCtl (s : State) (m : Fin 4) (v : Nat) : State :=
  let a := Reg.lnf m 0
  let s1 := (s.putBits a 0x10 v).putIf (decide (natBits v 8 4 ≠ 0)) a 0xF00 v
  let s2 := if natBit v 3 = s.bit a 3 then s1 else s1.setWmEn m (natBit v 3)
  let s3 := if natBit v 2 = s.bit a 2 then s2 else s2.setHuntEn m (natBit v 2)
  let s4 := laneAfter s (s3.writeLaneUse m (byteOf (v / 65536))) (lineLane m 0)
  (s4.setRxEn m (natBit v 1)).setTxEn m (natBit v 0)

/-- LNF_DLG_CTL (Table 2-18). -/
def State.writeDlgCtl (s : State) (pf : Fin 2) (m : Fin 4) (v : Nat) : State :=
  let a := Reg.lnf m 0x20
  let s1 := (s.clearBits a 0x2080 v).putIf (decide (1 ≤ v % 4 ∧ v % 4 ≤ natBits v 2 2)) a 0xF v
  let s2 := (s1.putIf (decide (natBits v 16 12 ≠ 0)) a 0xFFF0000 v).putIf (decide (natBits v 28 4 ≠ 0)) a 0xF0000000 v
  let s3 := if natBit v 4 then s2.writeReneg m else s2
  if natBit v 5 then s3.writeSend pf m v else s3

def State.writeLnf (s : State) (pf : Fin 2) (m : Fin 4) (q v : Nat) : State :=
  let a := Reg.lnf m q
  if q = 0 then s.writeLnfCtl m v
  else if q = 0x14 then s.clearBits a 0xFFFFFFFF v
  else if q = 0x20 then s.writeDlgCtl pf m v
  else if inWords 0x100 32 q then s.putBits a 0xFFFFFFFF v
  else if inWords 0x200 60 q then (if (s.line m).dlg.busy then s.lockedWrite pf a v else s.putBits a 0xFFFFFFFF v)
  else s

/-- LCI (R145, Tables 4-8 to 4-11). -/
def State.writeLci (s : State) (m : Fin 4) (q v : Nat) : State :=
  let a := Reg.lci m q
  let byTime := match (s.lci m).arm with
    | some x => x.time.isSome
    | none => false
  if q = 0 then
    (((s.putBits a 0x10 v).putIf ((s.lci m).lkn.all fun k => !k.loaded) a 1 v).putIf (!byTime) a 0xE v).putIf
      (decide (natBits v 8 8 ≠ 0)) a 0xFF00 v
  else if q = 4 then s.clearBits a 0x10F380 v
  else if q = 0x10 then s.stageLow a v
  else if q = 0x14 then s.putWide (Reg.lci m 0x10) 0x1FFFF v fun x => decide (1 ≤ x ∧ x ≤ 2 ^ 48)
  else s

/-- FCI (R145, Tables 5-12 to 5-14). -/
def State.writeFci (s : State) (m : Fin 4) (q v : Nat) : State :=
  let a := Reg.fci m q
  if q = 0 then s.putBits a 0x1FFFF v
  else if q = 8 then s.putIf (decide (v ≠ 0)) a 0xFFFFFFFF v
  else if q = 0x10 then s.stageLow a v
  else if q = 0x14 then s.putWide (Reg.fci m 0x10) 0xFFFFFFFF v fun x => decide (1 ≤ x)
  else s

/-- SCH (Tables 8-6 to 8-12). -/
def State.writeSch (s : State) (m : Fin 4) (q v : Nat) : State :=
  let a := Reg.sch m q
  let lo := natBits v 0 16
  if q = 0 then s.putIf (decide (lo ≤ 47104 ∧ (s.sch m).egUsed ≤ lo ∧ (s.sch m).txUsed + lo ≤ 49152)) a 0xFFFF v
  else if inWords 0x10 16 q then s.putIf (decide (lo ≤ 49152)) a 0xFFFF v
  else if q = 0x50 then (s.putIf (decide (10 ≤ natBits v 0 12)) a 0xFFF v).putIf (decide (natBits v 12 8 ≠ 0)) a 0xFF000 v
  else if inWords 0x100 16 q then
    if q % 8 = 0 then ((s.putBits a 0xFF70 v).putIf (decide (v % 4 ≠ 3)) a 3 v).putIf (decide (natBits v 2 2 ≠ 3)) a 0xC v
    else s.putIf (decide (natBits v 16 16 ≤ lo)) a 0xFFFFFFFF v
  else if inWords 0x200 8 q then s.clearBits a 4 v
  else s

/-- DKL (Tables 3-11, 3-12). -/
def State.writeDkl (s : State) (m : Fin 4) (q v : Nat) : State :=
  let a := Reg.dkl m q
  let h := natBits v 4 14
  if q = 0 then ((s.putBits a 3 v).putIf (decide (10 ≤ h ∧ h ≤ 10000)) a 0x3FFF0 v).autoRestore m
  else if q = 4 then s.clearBits a 0x60 v
  else s

/-- The program memory, entries and trap registers of a cluster accept writes now (R204). -/
def State.clusterOpen (s : State) (m : Fin 4) (c : Fin 8) : Bool := decide ((s.vat m).run[c] ≠ 1) && s.clusterIdle m c

/-- A register that accepts writes only while its cluster is stopped and idle (R204). -/
def State.ifOpen (s : State) (pf : Fin 2) (m : Fin 4) (c : Fin 8) (a v : Nat) (f : State → State) : State :=
  if s.clusterOpen m c then f s else s.lockedWrite pf a v

/-- The registers of a cluster (Tables 6-13 to 6-15). -/
def State.writeCluster (s : State) (pf : Fin 2) (m : Fin 4) (c : Fin 8) (a o v : Nat) : State :=
  if o = 0 then
    (if natBit v 0 = decide ((s.vat m).run[c] = 1) then s else if natBit v 0 then s.clusterRun m c else s.clusterStop m c)
  else if o = 4 then s.ifOpen pf m c a v fun x => x.putBits a 0x3FFF3FFF v
  else if o = 8 then s.ifOpen pf m c a v fun x => x.putBits a 0x7FFFF v
  else s

/-- VAT_LIM: a field out of range spoils the write (Table 6-16). -/
def limOk (v : Nat) : Bool :=
  decide (16 ≤ natBits v 0 8 ∧ 64 ≤ natBits v 8 10 ∧ natBits v 8 10 ≤ 600 ∧ 64 ≤ natBits v 18 10 ∧ natBits v 18 10 ≤ 480)

/-- VAT (R193, R195, R204, Tables 6-13 to 6-24). -/
def State.writeVat (s : State) (pf : Fin 2) (m : Fin 4) (q v : Nat) : State :=
  let a := Reg.vat m q
  let x := s.vat m
  if q < 0x800 then s.writeCluster pf m ⟨q / 0x100 % 8, by omega⟩ a (q % 0x100) v
  else if q = 0x800 then s.putIf (limOk v) a 0xFFFFFFF v
  else if q = 0x804 then (if natBit v 31 then s.modVat m fun y => { y with excValid := false } else s)
  else if inWords 0x900 16 q then
    if 32768 < v % 32768 + 2 ^ natBits v 15 4 then s
    else (s.putBits a 0x8007FFFF v).putIf (decide (natBits v 19 2 ≠ 3)) a 0x180000 v
  else if inWords 0x980 8 q then s.putIf x.hashOp.isNone a 0xFFFFFFFF v
  else if q = 0x9A0 then (if natBit v 31 then s.htCmd m (v % 131072) (natBit v 29) else s.putIf x.hashOp.isNone a 0x2001FFFF v)
  else if inWords 0xA00 16 q then (s.putBits a 0x7FF v).putIf (decide (natBits v 12 12 ≤ 2048)) a 0xFFF000 v
  else if inWords 0xA80 11 q then s.putIf x.tcamOp.isNone a 0xFFFFFFFF v
  else if q = 0xAC0 then (if natBit v 31 then s.tcamCmd m (v % 2048) (natBit v 29) else s.putIf x.tcamOp.isNone a 0x200007FF v)
  else if inWords 0x10000 0x10000 q then
    let c : Fin 8 := ⟨(q - 0x10000) / 0x8000 % 8, by omega⟩
    let e := c.val * 16384 + (q - 0x10000) % 0x8000 / 2
    s.ifOpen pf m c a v fun y => y.modVat m fun z => { z with
      prog := tset 0 (e + 1) (BitVec.ofNat 14 (v / 65536)) (tset 0 e (BitVec.ofNat 14 v) z.prog) }
  else s

/-- A register of mill `m` at offset `o` of its range (Table 18-3). -/
def State.writeMill (s : State) (pf : Fin 2) (m : Fin 4) (o v : Nat) : State :=
  if o < 0x10000 then s.writeLnf pf m o v
  else if o < 0x20000 then s.writeLci m (o - 0x10000) v
  else if o < 0x30000 then s.writeFci m (o - 0x20000) v
  else if o < 0x40000 then s.writeSch m (o - 0x30000) v
  else if o < 0x100000 then s.putIf (inWords 0x40000 8 o) (Reg.mill m + o) 1 v
  else if o < 0x200000 then s.writeDkl m (o - 0x100000) v
  else if o < 0x300000 then (if o = 0x200008 ∧ natBit v 31 then s.modSac m fun x => { x with faultValid := false } else s)
  else s.writeVat pf m (o - 0x300000) v

/-! ## A write (R16, R467, R468) -/

/-- A write at an aligned offset of a released domain; read-only registers and reserved offsets ignore it. -/
def State.regWrite (s : State) (pf : Fin 2) (a v : Nat) : State :=
  if a < 0x10000 then s.writeSys pf a v
  else if a < 0x20000 then s.writeHst pf a v
  else if a < 0x30000 then s.writeTmp pf a v
  else if a < 0x40000 then s.writeKst pf a v
  else if a < 0x50000 then s.writeRng pf a v
  else if a < 0x60000 then s.writeUci pf a v
  else if a < 0x70000 then s.writeTim a v
  else if a < 0x80000 then s.writePmc a v
  else if a < 0x90000 then s.writeEvr a v
  else if a < 0xA0000 then s.writeMte pf a v
  else if a < 0xC0000 then s.writeMem pf a v
  else if a < 0x100000 then
    (if h : (a - 0xC0000) / 0x400 < 68 then s.writeSer ⟨(a - 0xC0000) / 0x400, h⟩ ((a - 0xC0000) % 0x400) v else s)
  else if a < 0x200000 then s.writeCur pf a v
  else if a < 0x1000000 then (if a = Reg.hbxStat then s.clearBits a 0xFFF v else s)
  else if a < 0x5000000 then s.writeMill pf ⟨(a / 0x1000000 - 1) % 4, by omega⟩ (a % 0x1000000) v
  else if pf = 0 ∧ (inWords 0x6030000 0x2000 a ∨ inWords 0x6040000 0x2200 a) then s.lockedWrite pf a v
  else s

/-- R16, R468. -/
def execRegisterWrite (pf : Fin 2) (addr : BitVec 27) (v : W32) (s : State) : Res :=
  let a := addr.toNat
  if s.rst.porHeld then idle s
  else if a % 4 ≠ 0 then finish (s.lockedWrite pf a v.toNat)
  else if s.regLive a then mateEnd ((s.regWrite pf a v.toNat).modHst fun h => { h with latch := tdel a h.latch })
  else idle s

/-! ## Wide reads (R15) -/

/-- How many upper words follow when the register at `a` is the low word of a wide value. -/
def upperWords (a : Nat) : Nat :=
  if a = Reg.kst 0x48 then 1
  else if 0x50000 ≤ a ∧ a < 0x50200 then (if a % 0x100 = 4 ∨ a % 0x100 = 0xC then 1 else 0)
  else if 0x60000 ≤ a ∧ a < 0x60200 then (if a % 0x40 = 8 then 3 else 0)
  else if 0x70000 ≤ a ∧ a < 0x73000 then (if 0x40 ≤ a % 0x80 ∧ a % 8 = 0 then 1 else 0)
  else if inWords 0x78000 0x600 a then (if a % 8 = 0 then 1 else 0)
  else if 0xC0000 ≤ a ∧ a < 0xD1000 then (if a % 0x400 = 0x14 then 1 else 0)
  else if 0x101000 ≤ a ∧ a < 0x105000 then
    (if 0x100 ≤ a % 0x1000 ∧ a % 0x1000 < 0x400 ∧ (a % 0x40 = 0 ∨ a % 0x40 = 0x14) then 1 else 0)
  else if 0x1000000 ≤ a ∧ a < 0x5000000 then
    let o := a % 0x1000000
    if o = 0x10010 ∨ o = 0x10020 ∨ (inWords 0x10040 8 o ∧ o % 8 = 0) ∨ o = 0x20010 then 1 else 0
  else if inWords 0x6040000 0x2200 a then (if a % 0x20 = 0x10 ∨ a % 0x20 = 0x18 then 1 else 0)
  else if inWords 0x6090000 0x800 a ∨ inWords 0x60A0000 0x2000 a then (if a % 0x20 = 0 then 7 else 0)
  else 0

/-- An upper word that an earlier low-word read latched (R15), otherwise the register itself. There is one latch for each address,
which both functions share: the spec does not say whether each function has its own (DESIGN CHOICE, log entry 111). -/
def State.readWord (s : State) (a : Nat) : Nat :=
  match s.hst.latch.find? fun e => decide (e.1 = a) with
  | some e => e.2.toNat
  | none => s.readReg a

/-- A read by function `pf`: the value, and the state after it. A read that removes or latches does so. -/
def State.readAny (s : State) (pf : Fin 2) (a : Nat) : Nat × State :=
  if ¬ (a % 4 = 0 ∧ s.regLive a) then (0, s)
  else if inWords (Reg.rng 0x100) 16 a then
    let i : Fin 8 := ⟨(a - Reg.rng 0x100) / 8 % 8, by omega⟩
    if a % 8 = 0 then s.readBufStatus pf i else s.readBufData pf i
  else if a = Reg.rng 0x200 then s.readRaw pf
  else if 0x1000000 ≤ a ∧ a < 0x5000000 ∧ a % 0x1000000 = 0x20020 then s.readThresh ⟨(a / 0x1000000 - 1) % 4, by omega⟩
  else if Reg.tim 0x800 ≤ a ∧ a < Reg.tim 0x880 ∧ a % 0x20 = 0 then
    let (w, s1) := s.takeStamp ⟨(a - Reg.tim 0x800) / 0x20 % 4, by omega⟩ a
    (w.toNat, s1)
  else if Reg.tim 0x900 ≤ a ∧ a < Reg.tim 0x9A0 ∧ a % 0x20 = 4 then
    let (w, s1) := s.takeStamp ⟨4 + (a - Reg.tim 0x900) / 0x20 % 5, by omega⟩ a
    (w.toNat, s1)
  else
    let n := upperWords a
    (if n = 0 then s.readWord a else s.readReg a,
      s.latchWords (a + 4) ((List.range n).map fun i => BitVec.ofNat 32 (s.readReg (a + 4 * (i + 1)))))

/-- R15, R14, R467, R468. -/
def execWideRegisterRead (pf : Fin 2) (addr : BitVec 27) (s : State) : Res :=
  if s.rst.porHeld then idle s
  else
    let (v, s1) := s.readAny pf addr.toNat
    finish (s1.emit (.regRead pf.val addr.toNat (BitVec.ofNat 32 v)))

/-! ## MSI-X (R465) -/

/-- R465: the host unmasks a vector; a message held pending is sent. -/
def execMsixUnmask (v : Fin 256) (s : State) : Res :=
  if s.hstLive && s.hst.masked.getLsbD v.val then
    let s1 := s.modHst fun h => { h with masked := h.masked &&& ~~~(1#256 <<< v.val), pba := h.pba &&& ~~~(1#256 <<< v.val) }
    finish (if s.hst.pba.getLsbD v.val then s1.msix v else s1)
  else idle s

/-! ## The I²C target (R478, Table 18-9) -/

/-- The 64 bytes of the status map. -/
def State.i2cMap (s : State) : Bytes :=
  let mills := fun (f : Fin 4 → Bool) => bitsNat ((List.finRange 4).map f)
  let id := s.readSys 0
  let x := s.mte
  padTo 64 (beBytes 2 (id % 65536) ++ [byteOf (id / 2 ^ 24),
    byteOf (bitsNat [s.rst.bootDone, s.rst.bootFailed, s.live 14, s.tmp.throttle, s.tmp.scDone, s.tmp.holding, s.bit (Reg.mte 4) 12]),
    s.tmp.temp, s.tmp.tempMax,
    byteOf (word [(0, x.st.code), (3, b2n s.granted), (4, b2n s.pads.mateSide)]), byteOf s.kst.lc]
    ++ beBytes 4 (s.readSys 0x108) ++ beBytes 4 (s.readSys 0x10C)
    ++ [byteOf (bitsNat [x.aGood, x.bGood, decide (s.bkp.vbat ≠ .good)]),
      byteOf (bitsNat (s.mem.ch.toList.map (·.trained) ++ s.mem.ch.toList.map (·.fail))),
      byteOf (mills (fun m => (s.line m).defects.loa) + 16 * mills fun m => (s.line m).defects.auth),
      byteOf (mills fun m => !(s.live (9 + m.val) && s.hasMill m))]
    ++ beBytes 2 (s.readTmp 0x34 % 4096))

/-- R478: one byte sets the pointer; any further byte is not acknowledged. -/
def execI2cWrite (bytes : Bytes) (s : State) : Res :=
  if s.mgmtLive then
    finish ((s.modPads fun p => { p with i2cPtr := bytes.headD p.i2cPtr }).emit (.i2c (decide (bytes.length ≤ 1)) []))
  else idle s

/-- R478: the map is latched, and `n` bytes are sent from the pointer upward; pointers from 0x40 read 0x00. -/
def execI2cRead (n : Nat) (s : State) : Res :=
  if s.mgmtLive then
    let map := s.i2cMap
    let p := s.pads.i2cPtr.toNat
    finish ((s.modPads fun x => { x with i2cLatch := map, i2cPtr := x.i2cPtr + BitVec.ofNat 8 n }).emit
      (.i2c true ((List.range n).map fun i => byteAt map ((p + i) % 256))))
  else idle s

end Sys2Proof.Machine
end

