-- ==== Sys2Proof/Machine/Dispatch.lean ====
section
/-! DEFINITION. The meaning of every command: one arm per row of the opcode table. -/

namespace Sys2Proof.Machine

def exec (i : Instr) (s : State) : Host.Outcome State Fault Refusal :=
  match i with
  | .clientFrameReceive p frame pcsErr => Sys2Proof.Machine.execClientFrameReceive p frame pcsErr s
  | .macControlReceive p frame => Sys2Proof.Machine.execMacControlReceive p frame s
  | .pauseExpire p q => Sys2Proof.Machine.execPauseExpire p q s
  | .pfcRefresh p pri => Sys2Proof.Machine.execPfcRefresh p pri s
  | .vatDispatch m => Sys2Proof.Machine.execVatDispatch m s
  | .mov t => Sys2Proof.Machine.execMov t s
  | .movSpecial t => Sys2Proof.Machine.execMovSpecial t s
  | .add t => Sys2Proof.Machine.execAdd t s
  | .sub t => Sys2Proof.Machine.execSub t s
  | .and t => Sys2Proof.Machine.execAnd t s
  | .or t => Sys2Proof.Machine.execOr t s
  | .xor t => Sys2Proof.Machine.execXor t s
  | .shl t => Sys2Proof.Machine.execShl t s
  | .shr t => Sys2Proof.Machine.execShr t s
  | .cmp t => Sys2Proof.Machine.execCmp t s
  | .ext t => Sys2Proof.Machine.execExt t s
  | .ins t => Sys2Proof.Machine.execIns t s
  | .br t => Sys2Proof.Machine.execBr t s
  | .brp t => Sys2Proof.Machine.execBrp t s
  | .call t => Sys2Proof.Machine.execCall t s
  | .ret t => Sys2Proof.Machine.execRet t s
  | .lkp t => Sys2Proof.Machine.execLkp t s
  | .tcm t => Sys2Proof.Machine.execTcm t s
  | .att t => Sys2Proof.Machine.execAtt t s
  | .trib t => Sys2Proof.Machine.execTrib t s
  | .cls t => Sys2Proof.Machine.execCls t s
  | .pol t => Sys2Proof.Machine.execPol t s
  | .stmp t => Sys2Proof.Machine.execStmp t s
  | .enq t => Sys2Proof.Machine.execEnq t s
  | .drop t => Sys2Proof.Machine.execDrop t s
  | .punt t => Sys2Proof.Machine.execPunt t s
  | .hashLookup t => Sys2Proof.Machine.execHashLookup t s
  | .tcamSearch t => Sys2Proof.Machine.execTcamSearch t s
  | .policerDecide t => Sys2Proof.Machine.execPolicerDecide t s
  | .issueLimit t => Sys2Proof.Machine.execIssueLimit t s
  | .residencyLimit t => Sys2Proof.Machine.execResidencyLimit t s
  | .enqComplete t => Sys2Proof.Machine.execEnqComplete t s
  | .puntComplete t => Sys2Proof.Machine.execPuntComplete t s
  | .puntDeliver m q => Sys2Proof.Machine.execPuntDeliver m q s
  | .saCacheAttach t => Sys2Proof.Machine.execSaCacheAttach t s
  | .saFetchComplete m sax => Sys2Proof.Machine.execSaFetchComplete m sax s
  | .saWritebackDone m sax => Sys2Proof.Machine.execSaWritebackDone m sax s
  | .fciTxFrame m sax => Sys2Proof.Machine.execFciTxFrame m sax s
  | .fciRxFrame m sax => Sys2Proof.Machine.execFciRxFrame m sax s
  | .threshFifoRead m => Sys2Proof.Machine.execThreshFifoRead m s
  | .headboxTransfer dst => Sys2Proof.Machine.execHeadboxTransfer dst s
  | .sheetSend m => Sys2Proof.Machine.execSheetSend m s
  | .reamBegin m => Sys2Proof.Machine.execReamBegin m s
  | .lostSheetPeriod m => Sys2Proof.Machine.execLostSheetPeriod m s
  | .codewordLock m rx => Sys2Proof.Machine.execCodewordLock m rx s
  | .laneMarkerCheck m lane o => Sys2Proof.Machine.execLaneMarkerCheck m lane o s
  | .sheetReceive m lanes => Sys2Proof.Machine.execSheetReceive m lanes s
  | .trialExhausted m k => Sys2Proof.Machine.execTrialExhausted m k s
  | .defectDeclare m d => Sys2Proof.Machine.execDefectDeclare m d s
  | .defectClear m d => Sys2Proof.Machine.execDefectClear m d s
  | .dlgHello m => Sys2Proof.Machine.execDlgHello m s
  | .dlgConfirm m => Sys2Proof.Machine.execDlgConfirm m s
  | .dlgVerchk m => Sys2Proof.Machine.execDlgVerchk m s
  | .dlgHostMessage m => Sys2Proof.Machine.execDlgHostMessage m s
  | .dlgReservedType m => Sys2Proof.Machine.execDlgReservedType m s
  | .seqUpper m => Sys2Proof.Machine.execSeqUpper m s
  | .seqQuery m => Sys2Proof.Machine.execSeqQuery m s
  | .laneReady m => Sys2Proof.Machine.execLaneReady m s
  | .laneUnready m => Sys2Proof.Machine.execLaneUnready m s
  | .dlgAck m => Sys2Proof.Machine.execDlgAck m s
  | .dlgRetryTimeout m => Sys2Proof.Machine.execDlgRetryTimeout m s
  | .dlgSend pf m => Sys2Proof.Machine.execDlgSend pf m s
  | .dlgReneg m => Sys2Proof.Machine.execDlgReneg m s
  | .dlgRxRelease m => Sys2Proof.Machine.execDlgRxRelease m s
  | .lnfTxEnable m => Sys2Proof.Machine.execLnfTxEnable m s
  | .lnfTxDisable m => Sys2Proof.Machine.execLnfTxDisable m s
  | .lnfRxEnable m => Sys2Proof.Machine.execLnfRxEnable m s
  | .lnfRxDisable m => Sys2Proof.Machine.execLnfRxDisable m s
  | .lnfWmDisable m => Sys2Proof.Machine.execLnfWmDisable m s
  | .laneUseWrite m v => Sys2Proof.Machine.execLaneUseWrite m v s
  | .dkwrite r => Sys2Proof.Machine.execDkwrite r s
  | .dkwriteTransferDone m d => Sys2Proof.Machine.execDkwriteTransferDone m d s
  | .dklValidationDone m => Sys2Proof.Machine.execDklValidationDone m s
  | .dklClearDone m => Sys2Proof.Machine.execDklClearDone m s
  | .dkflipEarliest r => Sys2Proof.Machine.execDkflipEarliest r s
  | .dkflipAt r => Sys2Proof.Machine.execDkflipAt r s
  | .dkflipCancel r => Sys2Proof.Machine.execDkflipCancel r s
  | .dkshedShed r => Sys2Proof.Machine.execDkshedShed r s
  | .dkshedRestore r => Sys2Proof.Machine.execDkshedRestore r s
  | .shedHoldoffExpire m lane => Sys2Proof.Machine.execShedHoldoffExpire m lane s
  | .lkarmLoad r => Sys2Proof.Machine.execLkarmLoad r s
  | .lkarmRxon r => Sys2Proof.Machine.execLkarmRxon r s
  | .lkarmRxoff r => Sys2Proof.Machine.execLkarmRxoff r s
  | .lkarmArmReam r => Sys2Proof.Machine.execLkarmArmReam r s
  | .lkarmArmTime r => Sys2Proof.Machine.execLkarmArmTime r s
  | .lkarmCancel r => Sys2Proof.Machine.execLkarmCancel r s
  | .lkarmResync r => Sys2Proof.Machine.execLkarmResync r s
  | .lkarmHalt r => Sys2Proof.Machine.execLkarmHalt r s
  | .lkretire r => Sys2Proof.Machine.execLkretire r s
  | .sainstInstall r => Sys2Proof.Machine.execSainstInstall r s
  | .sainstUpdateLpn r => Sys2Proof.Machine.execSainstUpdateLpn r s
  | .sainstSetcur r => Sys2Proof.Machine.execSainstSetcur r s
  | .saretRead r hostErr => Sys2Proof.Machine.execSaretRead r hostErr s
  | .saretRetire r => Sys2Proof.Machine.execSaretRetire r s
  | .saRetireComplete m sax hostErr => Sys2Proof.Machine.execSaRetireComplete m sax hostErr s
  | .sapinPin r => Sys2Proof.Machine.execSapinPin r s
  | .sapinUnpin r => Sys2Proof.Machine.execSapinUnpin r s
  | .orphanSweepDone => Sys2Proof.Machine.execOrphanSweepDone s
  | .kwrapin r => Sys2Proof.Machine.execKwrapin r s
  | .kstageWrapped r => Sys2Proof.Machine.execKstageWrapped r s
  | .kstageRng r => Sys2Proof.Machine.execKstageRng r s
  | .kcommit r => Sys2Proof.Machine.execKcommit r s
  | .kinval r => Sys2Proof.Machine.execKinval r s
  | .kinvalPublish => Sys2Proof.Machine.execKinvalPublish s
  | .slotInvalidationDone slot => Sys2Proof.Machine.execSlotInvalidationDone slot s
  | .kderive r => Sys2Proof.Machine.execKderive r s
  | .attest r => Sys2Proof.Machine.execAttest r s
  | .kstOpComplete ix hostErr => Sys2Proof.Machine.execKstOpComplete ix hostErr s
  | .mtpWriteDone => Sys2Proof.Machine.execMtpWriteDone s
  | .kstStart => Sys2Proof.Machine.execKstStart s
  | .rootGenerate okA okB => Sys2Proof.Machine.execRootGenerate okA okB s
  | .provGo pf v => Sys2Proof.Machine.execProvGo pf v s
  | .lcTargetWrite pf v => Sys2Proof.Machine.execLcTargetWrite pf v s
  | .lcWindowExpire => Sys2Proof.Machine.execLcWindowExpire s
  | .lcGo pf v => Sys2Proof.Machine.execLcGo pf v s
  | .lcFuseProgrammed => Sys2Proof.Machine.execLcFuseProgrammed s
  | .samplerWindowEnd k bits => Sys2Proof.Machine.execSamplerWindowEnd k bits s
  | .conditionerBlock bits => Sys2Proof.Machine.execConditionerBlock bits s
  | .rngFail cause smp => Sys2Proof.Machine.execRngFail cause smp s
  | .drbgInstantiate ix => Sys2Proof.Machine.execDrbgInstantiate ix s
  | .drbgReseed ix => Sys2Proof.Machine.execDrbgReseed ix s
  | .rngBufferRefill ix => Sys2Proof.Machine.execRngBufferRefill ix s
  | .rngRestart pf => Sys2Proof.Machine.execRngRestart pf s
  | .rngTestMode pf mode => Sys2Proof.Machine.execRngTestMode pf mode s
  | .rngOutStatusRead pf ix => Sys2Proof.Machine.execRngOutStatusRead pf ix s
  | .rngOutDataRead pf ix => Sys2Proof.Machine.execRngOutDataRead pf ix s
  | .rngRawRead pf => Sys2Proof.Machine.execRngRawRead pf s
  | .uciLoad pf v => Sys2Proof.Machine.execUciLoad pf v s
  | .uciLoadDone => Sys2Proof.Machine.execUciLoadDone s
  | .uciEnc pf f => Sys2Proof.Machine.execUciEnc pf f s
  | .uciDec pf f => Sys2Proof.Machine.execUciDec pf f s
  | .uciNonce pf f => Sys2Proof.Machine.execUciNonce pf f s
  | .uciErase pf f => Sys2Proof.Machine.execUciErase pf f s
  | .uciRequestDone f src errAt => Sys2Proof.Machine.execUciRequestDone f src errAt s
  | .memTrain pf c => Sys2Proof.Machine.execMemTrain pf c s
  | .memTrainDone c failStep => Sys2Proof.Machine.execMemTrainDone c failStep s
  | .memTrackFail c => Sys2Proof.Machine.execMemTrackFail c s
  | .memRegionLoad pf r v => Sys2Proof.Machine.execMemRegionLoad pf r v s
  | .memRegionUnload pf r => Sys2Proof.Machine.execMemRegionUnload pf r s
  | .memRegionReady r => Sys2Proof.Machine.execMemRegionReady r s
  | .memLineRead c => Sys2Proof.Machine.execMemLineRead c s
  | .memReadDone c o => Sys2Proof.Machine.execMemReadDone c o s
  | .memLineWrite c o => Sys2Proof.Machine.execMemLineWrite c o s
  | .pageRewriteDone c bad => Sys2Proof.Machine.execPageRewriteDone c bad s
  | .memWriteAck c => Sys2Proof.Machine.execMemWriteAck c s
  | .memWindowRead pf => Sys2Proof.Machine.execMemWindowRead pf s
  | .memWindowWrite pf => Sys2Proof.Machine.execMemWindowWrite pf s
  | .scrubRead c o => Sys2Proof.Machine.execScrubRead c o s
  | .laneModeWrite n mode => Sys2Proof.Machine.execLaneModeWrite n mode s
  | .txLeaveIdle n => Sys2Proof.Machine.execTxLeaveIdle n s
  | .txEnterIdle n => Sys2Proof.Machine.execTxEnterIdle n s
  | .trainingBurstEnd n => Sys2Proof.Machine.execTrainingBurstEnd n s
  | .sigDetChange n up => Sys2Proof.Machine.execSigDetChange n up s
  | .cdrLock n => Sys2Proof.Machine.execCdrLock n s
  | .fomWindowEnd n fom converged => Sys2Proof.Machine.execFomWindowEnd n fom converged s
  | .adaptTimeout n => Sys2Proof.Machine.execAdaptTimeout n s
  | .eyeScanStart n v => Sys2Proof.Machine.execEyeScanStart n v s
  | .eyeScanDone n count => Sys2Proof.Machine.execEyeScanDone n count s
  | .feltSlotReceive c0 c1 c2 c3 => Sys2Proof.Machine.execFeltSlotReceive c0 c1 c2 c3 s
  | .feltFifoError => Sys2Proof.Machine.execFeltFifoError s
  | .mateActInChange high => Sys2Proof.Machine.execMateActInChange high s
  | .claimTimerExpire => Sys2Proof.Machine.execClaimTimerExpire s
  | .releasingExpire => Sys2Proof.Machine.execReleasingExpire s
  | .actReqWrite v => Sys2Proof.Machine.execActReqWrite v s
  | .mteEnWrite v => Sys2Proof.Machine.execMteEnWrite v s
  | .mateSwitch => Sys2Proof.Machine.execMateSwitch s
  | .mateClrDiverged => Sys2Proof.Machine.execMateClrDiverged s
  | .mateSelftest => Sys2Proof.Machine.execMateSelftest s
  | .selftestPassDone ok => Sys2Proof.Machine.execSelftestPassDone ok s
  | .heartbeatSend => Sys2Proof.Machine.execHeartbeatSend s
  | .peerSilent => Sys2Proof.Machine.execPeerSilent s
  | .freshExpire => Sys2Proof.Machine.execFreshExpire s
  | .healthSend => Sys2Proof.Machine.execHealthSend s
  | .timeFrameSend => Sys2Proof.Machine.execTimeFrameSend s
  | .oneSidedDefect m bit => Sys2Proof.Machine.execOneSidedDefect m bit s
  | .reclaimTimerExpire => Sys2Proof.Machine.execReclaimTimerExpire s
  | .feltHello => Sys2Proof.Machine.execFeltHello s
  | .feltConfirm => Sys2Proof.Machine.execFeltConfirm s
  | .feltDelta => Sys2Proof.Machine.execFeltDelta s
  | .feltSnap => Sys2Proof.Machine.execFeltSnap s
  | .feltSnapEnd => Sys2Proof.Machine.execFeltSnapEnd s
  | .feltDack => Sys2Proof.Machine.execFeltDack s
  | .feltDigest => Sys2Proof.Machine.execFeltDigest s
  | .feltCkpt => Sys2Proof.Machine.execFeltCkpt s
  | .feltHealth => Sys2Proof.Machine.execFeltHealth s
  | .feltTime => Sys2Proof.Machine.execFeltTime s
  | .feltReq => Sys2Proof.Machine.execFeltReq s
  | .feltRelease => Sys2Proof.Machine.execFeltRelease s
  | .feltStale => Sys2Proof.Machine.execFeltStale s
  | .vsecFeedLost b => Sys2Proof.Machine.execVsecFeedLost b s
  | .vsecFeedGood b => Sys2Proof.Machine.execVsecFeedGood b s
  | .tamperFire src => Sys2Proof.Machine.execTamperFire src s
  | .tamperSourceCease n => Sys2Proof.Machine.execTamperSourceCease n s
  | .throttleEnd => Sys2Proof.Machine.execThrottleEnd s
  | .holdEngage => Sys2Proof.Machine.execHoldEngage s
  | .evidenceIncrementDone => Sys2Proof.Machine.execEvidenceIncrementDone s
  | .tamperBist pf v => Sys2Proof.Machine.execTamperBist pf v s
  | .bistStimulusEnd fired ceased => Sys2Proof.Machine.execBistStimulusEnd fired ceased s
  | .fuseTgtWrite pf v => Sys2Proof.Machine.execFuseTgtWrite pf v s
  | .fuseWindowExpire => Sys2Proof.Machine.execFuseWindowExpire s
  | .fuseDisableGo pf v => Sys2Proof.Machine.execFuseDisableGo pf v s
  | .fuseDisableDone => Sys2Proof.Machine.execFuseDisableDone s
  | .backupWake fires => Sys2Proof.Machine.execBackupWake fires s
  | .powerOnReset assert => Sys2Proof.Machine.execPowerOnReset assert s
  | .railDrop => Sys2Proof.Machine.execRailDrop s
  | .resetPin => Sys2Proof.Machine.execResetPin s
  | .perst => Sys2Proof.Machine.execPerst s
  | .swColdReset pf v => Sys2Proof.Machine.execSwColdReset pf v s
  | .swWarmReset pf v => Sys2Proof.Machine.execSwWarmReset pf v s
  | .millReset pf m hold key => Sys2Proof.Machine.execMillReset pf m hold key s
  | .functionLevelReset f => Sys2Proof.Machine.execFunctionLevelReset f s
  | .clockLoss d => Sys2Proof.Machine.execClockLoss d s
  | .trimLoadDone ok => Sys2Proof.Machine.execTrimLoadDone ok s
  | .domainRelease => Sys2Proof.Machine.execDomainRelease s
  | .bootVerifyDone image => Sys2Proof.Machine.execBootVerifyDone image s
  | .ringDoorbell pf r v => Sys2Proof.Machine.execRingDoorbell pf r v s
  | .ringEnable pf r => Sys2Proof.Machine.execRingEnable pf r s
  | .ringDisable pf r => Sys2Proof.Machine.execRingDisable pf r s
  | .abiSelect pf f v => Sys2Proof.Machine.execAbiSelect pf f v s
  | .descriptorFetch r d => Sys2Proof.Machine.execDescriptorFetch r d s
  | .dmaTimeout r => Sys2Proof.Machine.execDmaTimeout r s
  | .batchStart r => Sys2Proof.Machine.execBatchStart r s
  | .curApplyDone k => Sys2Proof.Machine.execCurApplyDone k s
  | .completionRecordWrite r => Sys2Proof.Machine.execCompletionRecordWrite r s
  | .cqHeadWrite pf r v => Sys2Proof.Machine.execCqHeadWrite pf r v s
  | .gcladm r d => Sys2Proof.Machine.execGcladm r d s
  | .gclgo r => Sys2Proof.Machine.execGclgo r s
  | .gateListStart p => Sys2Proof.Machine.execGateListStart p s
  | .gateEntryChange p => Sys2Proof.Machine.execGateEntryChange p s
  | .shpset r => Sys2Proof.Machine.execShpset r s
  | .polset r => Sys2Proof.Machine.execPolset r s
  | .qcfgActivate r => Sys2Proof.Machine.execQcfgActivate r s
  | .qcfgDeactivate r => Sys2Proof.Machine.execQcfgDeactivate r s
  | .qcfgUpdate r => Sys2Proof.Machine.execQcfgUpdate r s
  | .qcfgMoveDrain r => Sys2Proof.Machine.execQcfgMoveDrain r s
  | .qcfgMoveFlush r => Sys2Proof.Machine.execQcfgMoveFlush r s
  | .moveQueueEmpty trib => Sys2Proof.Machine.execMoveQueueEmpty trib s
  | .egressFrameStart p => Sys2Proof.Machine.execEgressFrameStart p s
  | .egressFrameEnd p => Sys2Proof.Machine.execEgressFrameEnd p s
  | .tbstepAbs r => Sys2Proof.Machine.execTbstepAbs r s
  | .tbstepRel r => Sys2Proof.Machine.execTbstepRel r s
  | .tbservoGains r => Sys2Proof.Machine.execTbservoGains r s
  | .tbservoOffset r => Sys2Proof.Machine.execTbservoOffset r s
  | .tbservoEnable r => Sys2Proof.Machine.execTbservoEnable r s
  | .tbservoDisable r => Sys2Proof.Machine.execTbservoDisable r s
  | .servoInterval b => Sys2Proof.Machine.execServoInterval b s
  | .tbRunSet b => Sys2Proof.Machine.execTbRunSet b s
  | .tbRunClear b => Sys2Proof.Machine.execTbRunClear b s
  | .tbRead b => Sys2Proof.Machine.execTbRead b s
  | .trigset r => Sys2Proof.Machine.execTrigset r s
  | .triggerEdge k => Sys2Proof.Machine.execTriggerEdge k s
  | .ppsEdge => Sys2Proof.Machine.execPpsEdge s
  | .captureEdge k rising => Sys2Proof.Machine.execCaptureEdge k rising s
  | .stampQueueRead q => Sys2Proof.Machine.execStampQueueRead q s
  | .tcEntryExpire table ix => Sys2Proof.Machine.execTcEntryExpire table ix s
  | .waittTime r => Sys2Proof.Machine.execWaittTime r s
  | .waittReam r => Sys2Proof.Machine.execWaittReam r s
  | .waittRelease r => Sys2Proof.Machine.execWaittRelease r s
  | .waittTimeout r => Sys2Proof.Machine.execWaittTimeout r s
  | .fence r => Sys2Proof.Machine.execFence r s
  | .fenceDone r => Sys2Proof.Machine.execFenceDone r s
  | .epochRead r => Sys2Proof.Machine.execEpochRead r s
  | .epochAssert r => Sys2Proof.Machine.execEpochAssert r s
  | .notify r => Sys2Proof.Machine.execNotify r s
  | .vatClusterRun m c => Sys2Proof.Machine.execVatClusterRun m c s
  | .vatClusterStop m c => Sys2Proof.Machine.execVatClusterStop m c s
  | .vatClusterIdle m c => Sys2Proof.Machine.execVatClusterIdle m c s
  | .htEntryWrite m entry => Sys2Proof.Machine.execHtEntryWrite m entry s
  | .htEntryRead m entry => Sys2Proof.Machine.execHtEntryRead m entry s
  | .htOpDone m => Sys2Proof.Machine.execHtOpDone m s
  | .tcamEntryWrite m entry => Sys2Proof.Machine.execTcamEntryWrite m entry s
  | .tcamEntryRead m entry => Sys2Proof.Machine.execTcamEntryRead m entry s
  | .tcamOpDone m => Sys2Proof.Machine.execTcamOpDone m s
  | .pmcClear b => Sys2Proof.Machine.execPmcClear b s
  | .pmcGather => Sys2Proof.Machine.execPmcGather s
  | .gatherDone => Sys2Proof.Machine.execGatherDone s
  | .periodicGather => Sys2Proof.Machine.execPeriodicGather s
  | .evrArm => Sys2Proof.Machine.execEvrArm s
  | .evrRecordWrite => Sys2Proof.Machine.execEvrRecordWrite s
  | .evrSlotRead last k => Sys2Proof.Machine.execEvrSlotRead last k s
  | .wideRegisterRead pf addr => Sys2Proof.Machine.execWideRegisterRead pf addr s
  | .msixUnmask v => Sys2Proof.Machine.execMsixUnmask v s
  | .i2cWrite bytes => Sys2Proof.Machine.execI2cWrite bytes s
  | .i2cRead n => Sys2Proof.Machine.execI2cRead n s
  | .registerWrite pf addr v => Sys2Proof.Machine.execRegisterWrite pf addr v s
  | .vbatChange v => Sys2Proof.Machine.execVbatChange v s
  | .selftestFailure => Sys2Proof.Machine.execSelftestFailure s
  | .rngRawWord bits => Sys2Proof.Machine.execRngRawWord bits s
  | .debugAccess line w o => Sys2Proof.Machine.execDebugAccess line w o s

end Sys2Proof.Machine
end

