-- ==== Sys2Proof/Safety.lean ====
section
/-! DEFINITION. The terms of claims about the whole block: the parts of the state, what it means that a command leaves parts
alone, what can be programmed only once, and the invariant that every step keeps. -/

namespace Sys2Proof.Machine

/-- The areas into which claims cut the state. -/
inductive Area where
  /-- The command queue, the clock, the draws of free values, what has left the die. -/
  | queue | clock | free | out
  /-- Registers that only a host access or a reset writes; registers with a bit that hardware writes; complements. -/
  | settings | status | shadow
  /-- Released domains; the rest of the reset controller. -/
  | domains | resetCtl
  /-- Pending interrupts and messages; the rest of the host interface. -/
  | irq | host
  | pads
  /-- Live counters; gathers. The recorder's queue; its two stores. -/
  | counts | gather | evrQueue | records
  | timeBases | tim
  /-- One-time programmable bits; MTP; key slots and the generation counter; the rest of the key store. -/
  | otp | mtp | slots | kst
  | rng | uci | mem | tmp | bkp
  /-- The blocks of the mills. -/
  | line | dkl | lci | sac | vat | sch | ports
  | trib | tribOld | sc | sa | hbxRr | cur | lanes | felt
  /-- The mate role; the rest of the mate logic. -/
  | role | mte
  /-- Two promises rather than parts: the numbered stores stay in canonical form; what is programmed once stays programmed. -/
  | canon | fuses
deriving DecidableEq, Repr

/-- Registers of the device with a bit that hardware writes. -/
def statusDev (a : Nat) : Bool :=
  decide (a = Reg.rstCause ∨ a = Reg.hbxStat ∨ a = Reg.kst 0 ∨ a = Reg.kst 0x18 ∨ a = Reg.rng 4 ∨ a = Reg.rng 0x60
    ∨ a = Reg.uci 0x14 ∨ a = Reg.uci 0x114 ∨ a = Reg.mte 0 ∨ a = Reg.mte 4 ∨ a = Reg.mte 0x18 ∨ a = Reg.tmp 4 ∨ a = Reg.tmp 0x30)
    || (decide (Reg.tim 0 ≤ a ∧ a < Reg.tim 0x200) && decide (a % 0x40 < 8))
    || decide (Reg.tim 0x700 ≤ a ∧ a < Reg.tim 0x720)
    || (decide (Reg.mem 0 ≤ a ∧ a < Reg.mem 0x100) && decide (a % 0x40 = 4))
    || (decide (Reg.mem 0x200 ≤ a ∧ a < Reg.mem 0x300) && decide (a % 0x20 = 0x10))
    || decide (Reg.mem 0x508 ≤ a ∧ a < Reg.mem 0x540)
    || (decide (Reg.ser 0 0 ≤ a ∧ a < Reg.ser 68 0) && decide (a % 0x400 = 4 ∨ a % 0x400 = 0x100))

/-- Registers of a mill, by offset in its window, with a bit that hardware writes: LNF_CTL, line defects, DLG, LCI_STAT, DKL_STAT,
the credit and gate registers of SCH, the table windows of VAT. -/
def statusMill (o : Nat) : Bool :=
  decide (o = 0 ∨ o = 0x14 ∨ o = 0x20 ∨ o = 0x10004 ∨ o = 0x100004 ∨ o = 0x30050)
    || decide (0x30200 ≤ o ∧ o < 0x30220) || decide (0x300980 ≤ o ∧ o < 0x300AC4)

/-- A register with a bit that hardware writes. -/
def isStatus (a : Nat) : Bool := if a < 0x1000000 then statusDev a else statusMill (a % 0x1000000)

/-- A block without what another area holds: all but the released domains. -/
def Rst.rest (x : Rst) : Rst := { x with released := 0 }
/-- A block without what another area holds: all but pending interrupts and messages. -/
def Hst.rest (x : Hst) : Hst := { x with pend := 0, pba := 0 }
/-- A block without what another area holds: all but the live counters. -/
def Pmc.rest (x : Pmc) : Pmc := { x with cnt := [], sat := [], satNew := [] }
/-- A block without what another area holds: all but the queue. -/
def Evr.rest (x : Evr) : Evr := { x with queue := [], lost := 0, lostCount := 0 }
/-- A block without what another area holds: all but the time bases. -/
def Tim.rest (x : Tim) : Tim := { x with tb := Vector.replicate 8 {} }
/-- A block without what another area holds: all but the key slots. -/
def Kst.rest (x : Kst) : Kst := { x with slots := [], gen := 0 }
/-- A block without what another area holds: all but the role. -/
def Mte.rest (x : Mte) : Mte := { x with st := .unpaired }

/-- The register file and the MTP are in canonical form: numbers strictly rising, no entry equal to what an unlisted one reads as. -/
def State.canonical (s : State) : Bool :=
  twf (fun a => BitVec.ofNat 32 (Reg.reset s.otp.part a)) s.regs && twf (fun _ => (0xFF : Byte)) s.mtp

/-- No programmed bit of `x` is clear in `y`. -/
def Otp.bitsKept (x y : Byte) : Prop := x &&& y = x

/-- What the OTP gives up never comes back (R430, R434, Table 10-8): the part, its identity and its boot key hash stay, a
programmed bit of a group stays programmed, a root bank that is valid keeps its root, the evidence counter does not fall and does
not pass its 512 bits. -/
def Otp.Keeps (x y : Otp) : Prop :=
  y.part = x.part ∧ y.deviceId = x.deviceId ∧ y.bootKeyHash = x.bootKeyHash
    ∧ (Otp.bitsKept x.lcFactory y.lcFactory ∧ Otp.bitsKept x.lcSecured y.lcSecured ∧ Otp.bitsKept x.lcReturned y.lcReturned
      ∧ Otp.bitsKept x.lcScrapped y.lcScrapped)
    ∧ (Otp.bitsKept x.validA y.validA ∧ Otp.bitsKept x.validB y.validB ∧ ∀ i : Fin 8, Otp.bitsKept x.disable[i] y.disable[i])
    ∧ (x.evidence ≤ 512 → x.evidence ≤ y.evidence ∧ y.evidence ≤ 512)
    ∧ (blown x.validA = true → y.rootA = x.rootA ∧ y.chkA = x.chkA) ∧ (blown x.validB = true → y.rootB = x.rootB ∧ y.chkB = x.chkB)

/-- One area of two states is the same; a promise is kept. -/
def State.agree : Area → State → State → Prop
  | .queue, s, t => t.pending = s.pending
  | .clock, s, t => t.now = s.now
  | .free, s, t => t.free = s.free
  | .out, s, t => t.out = s.out
  | .settings, s, t => t.regs.filter (fun e => !isStatus e.1) = s.regs.filter (fun e => !isStatus e.1)
  | .status, s, t => t.regs.filter (fun e => isStatus e.1) = s.regs.filter (fun e => isStatus e.1)
  | .shadow, s, t => t.shadow = s.shadow
  | .domains, s, t => t.rst.released = s.rst.released
  | .resetCtl, s, t => t.rst.rest = s.rst.rest
  | .irq, s, t => t.hst.pend = s.hst.pend ∧ t.hst.pba = s.hst.pba
  | .host, s, t => t.hst.rest = s.hst.rest
  | .pads, s, t => t.pads = s.pads
  | .counts, s, t => t.pmc.cnt = s.pmc.cnt ∧ t.pmc.sat = s.pmc.sat ∧ t.pmc.satNew = s.pmc.satNew
  | .gather, s, t => t.pmc.rest = s.pmc.rest
  | .evrQueue, s, t => t.evr.queue = s.evr.queue ∧ t.evr.lost = s.evr.lost ∧ t.evr.lostCount = s.evr.lostCount
  | .records, s, t => t.evr.rest = s.evr.rest
  | .timeBases, s, t => t.tim.tb = s.tim.tb
  | .tim, s, t => t.tim.rest = s.tim.rest
  | .otp, s, t => t.otp = s.otp
  | .mtp, s, t => t.mtp = s.mtp
  | .slots, s, t => t.kst.slots = s.kst.slots ∧ t.kst.gen = s.kst.gen
  | .kst, s, t => t.kst.rest = s.kst.rest
  | .rng, s, t => t.rng = s.rng
  | .uci, s, t => t.uci = s.uci
  | .mem, s, t => t.mem = s.mem
  | .tmp, s, t => t.tmp = s.tmp
  | .bkp, s, t => t.bkp = s.bkp
  | .line, s, t => ∀ m, t.line m = s.line m
  | .dkl, s, t => ∀ m, t.dkl m = s.dkl m
  | .lci, s, t => ∀ m, t.lci m = s.lci m
  | .sac, s, t => ∀ m, t.sac m = s.sac m
  | .vat, s, t => ∀ m, t.vat m = s.vat m
  | .sch, s, t => ∀ m, t.sch m = s.sch m
  | .ports, s, t => ∀ m, (t.mill m).ports = (s.mill m).ports
  | .trib, s, t => t.trib = s.trib
  | .tribOld, s, t => t.tribOld = s.tribOld
  | .sc, s, t => t.sc = s.sc
  | .sa, s, t => t.sa = s.sa
  | .hbxRr, s, t => t.hbxRr = s.hbxRr
  | .cur, s, t => t.cur = s.cur
  | .lanes, s, t => t.lanes = s.lanes
  | .felt, s, t => t.felt = s.felt
  | .role, s, t => t.mte.st = s.mte.st
  | .mte, s, t => t.mte.rest = s.mte.rest
  | .canon, s, t => s.canonical = true → t.canonical = true
  | .fuses, s, t => s.otp.Keeps t.otp

/-- From `s` to `t` nothing has changed outside the areas `ps`, and the promises that are not among them are kept. -/
def Only (ps : List Area) (s t : State) : Prop := ∀ p, ps.contains p = false → State.agree p s t

/-- The areas that what follows every command may change: counters, the recorder's queue, interrupts, what is sent. -/
def settled : List Area := [.counts, .evrQueue, .irq, .out]
/-- Those, and the areas `l`. -/
def alsoIn (l : List Area) : List Area := settled ++ l

/-- The areas that a command may change, over all states and operands: its own effect by its rules, and what that effect sets off
(a tamper response, a credit returned, a record written, a line lost). Every other area stays as it is. -/
def touches : Instr → List Area
  | .clientFrameReceive .. =>
    alsoIn [.vat, .ports]
  | .macControlReceive .. | .pauseExpire .. | .gateListStart .. | .gateEntryChange .. =>
    alsoIn [.ports]
  | .pfcRefresh .. =>
    settled
  | .vatDispatch .. | .vatClusterRun .. | .vatClusterStop .. =>
    alsoIn [.vat, .sch, .ports]
  | .mov .. | .add .. | .sub .. | .and .. | .or .. | .xor .. | .shl .. | .shr .. | .cmp .. | .ext .. | .ins .. | .br ..
  | .brp .. | .call .. | .ret .. | .lkp .. | .tcm .. | .att .. | .trib .. | .cls .. | .pol .. | .stmp .. | .enq .. | .drop ..
  | .punt .. | .hashLookup .. | .tcamSearch .. | .policerDecide .. | .issueLimit .. | .residencyLimit .. | .puntComplete ..
  | .saCacheAttach .. | .saFetchComplete .. | .saWritebackDone .. | .sainstUpdateLpn .. | .saretRead .. | .saretRetire ..
  | .sapinUnpin .. =>
    alsoIn [.mem, .sac, .vat, .sch, .trib, .sa, .cur, .mte]
  | .movSpecial .. =>
    alsoIn [.free, .mem, .sac, .vat, .sch, .trib, .sa, .cur, .mte]
  | .enqComplete .. =>
    alsoIn [.tim, .mem, .sac, .vat, .sch, .ports, .trib, .tribOld, .sa, .cur, .mte]
  | .puntDeliver .. =>
    alsoIn [.vat, .sch, .trib, .cur]
  | .fciTxFrame .. =>
    alsoIn [.mem, .sac, .vat, .sch, .ports, .trib, .tribOld, .sa, .cur, .mte]
  | .fciRxFrame .. =>
    alsoIn [.mem, .sac, .vat, .sch, .ports, .trib, .sa, .cur, .mte]
  | .threshFifoRead .. =>
    alsoIn [.sac]
  | .headboxTransfer .. =>
    alsoIn [.status, .vat, .sch, .ports, .trib, .tribOld, .hbxRr]
  | .sheetSend .. =>
    alsoIn [.status, .tim, .line, .lci, .sch, .ports, .trib, .tribOld, .cur, .mte]
  | .reamBegin .. =>
    alsoIn [.status, .host, .pads, .tim, .line, .dkl, .lci, .cur, .lanes, .felt, .role, .mte]
  | .lostSheetPeriod .. =>
    alsoIn [.line, .sch, .trib]
  | .codewordLock .. | .dlgReservedType .. | .seqQuery .. | .shedHoldoffExpire .. =>
    alsoIn [.line]
  | .laneMarkerCheck .. =>
    alsoIn [.status, .tim, .line, .dkl, .sch, .trib, .lanes]
  | .sheetReceive .. =>
    alsoIn [.status, .tim, .line, .dkl, .lci, .vat, .sch, .trib, .tribOld, .mte]
  | .trialExhausted .. | .seqUpper .. =>
    alsoIn [.line, .lci]
  | .defectDeclare .. =>
    alsoIn [.settings, .status, .shadow, .host, .pads, .tim, .slots, .kst, .rng, .uci, .mem, .tmp, .bkp, .line, .dkl, .lci,
      .sac, .vat, .sch, .ports, .trib, .sc, .sa, .cur, .lanes, .role, .mte]
  | .defectClear .. | .dlgHello .. | .dlgConfirm .. | .dlgVerchk .. | .dlgHostMessage .. | .dlgAck .. | .dlgRetryTimeout ..
  | .dlgSend .. | .lnfWmDisable .. =>
    alsoIn [.status, .line]
  | .laneReady .. | .laneUnready .. =>
    alsoIn [.line, .dkl]
  | .dlgReneg .. =>
    alsoIn [.rng, .line]
  | .dlgRxRelease .. | .tbRunSet .. =>
    alsoIn [.status]
  | .lnfTxEnable .. | .lnfTxDisable .. =>
    alsoIn [.status, .rng, .line, .dkl, .lci, .cur, .mte]
  | .lnfRxEnable .. | .lnfRxDisable .. =>
    alsoIn [.status, .tim, .line, .sch, .trib]
  | .laneUseWrite .. =>
    alsoIn [.status, .host, .pads, .tim, .line, .dkl, .lanes, .felt, .role, .mte]
  | .dkwrite .. | .dkflipEarliest .. | .dkflipAt .. | .dkshedShed .. | .dkshedRestore .. =>
    alsoIn [.dkl, .cur]
  | .dkwriteTransferDone .. | .dkflipCancel .. =>
    alsoIn [.dkl, .cur, .mte]
  | .dklValidationDone .. =>
    alsoIn [.status, .tim, .line, .dkl, .cur, .lanes, .mte]
  | .dklClearDone .. =>
    alsoIn [.dkl]
  | .lkarmLoad .. | .lkarmRxoff .. | .lkarmCancel .. | .lkarmHalt .. | .lkretire .. =>
    alsoIn [.lci, .cur, .mte]
  | .lkarmRxon .. | .lkarmArmReam .. | .lkarmArmTime .. | .tbRunClear .. =>
    alsoIn [.status, .lci, .cur, .mte]
  | .lkarmResync .. =>
    alsoIn [.line, .lci, .cur]
  | .sainstInstall .. =>
    alsoIn [.mem, .sac, .sc, .sa, .cur, .mte]
  | .sainstSetcur .. =>
    alsoIn [.sc, .cur, .mte]
  | .saRetireComplete .. =>
    alsoIn [.mem, .sac, .vat, .sch, .trib, .sc, .sa, .cur, .mte]
  | .sapinPin .. =>
    alsoIn [.mem, .sac, .sa, .cur, .mte]
  | .orphanSweepDone =>
    alsoIn [.kst, .sa, .mte]
  | .kwrapin .. | .kstageRng .. | .attest .. | .drbgInstantiate .. | .drbgReseed .. | .rngBufferRefill .. =>
    alsoIn [.host, .pads, .slots, .kst, .rng, .uci, .mem, .line, .cur, .role, .mte]
  | .kstageWrapped .. =>
    alsoIn [.slots, .cur]
  | .kcommit .. | .kinval .. | .slotInvalidationDone .. | .kstOpComplete .. =>
    alsoIn [.slots, .kst, .cur]
  | .kinvalPublish =>
    alsoIn [.status, .host, .pads, .slots, .kst, .rng, .uci, .mem, .line, .lci, .sac, .sch, .trib, .cur, .role, .mte]
  | .kderive .. =>
    alsoIn [.kst, .cur]
  | .mtpWriteDone =>
    alsoIn [.status, .host, .pads, .mtp, .slots, .kst, .uci, .mem, .tmp, .bkp, .lci, .sac, .vat, .sch, .trib, .sc, .sa,
      .cur, .role, .mte]
  | .kstStart =>
    alsoIn [.status, .host, .pads, .mtp, .slots, .kst, .rng, .uci, .mem, .tmp, .bkp, .line, .sac, .cur, .role, .mte]
  | .rootGenerate .. =>
    alsoIn [.host, .pads, .otp, .slots, .kst, .rng, .uci, .mem, .line, .cur, .role, .mte]
  | .provGo .. =>
    alsoIn [.status, .slots, .kst, .tmp, .bkp]
  | .lcTargetWrite .. =>
    alsoIn [.settings, .kst]
  | .lcWindowExpire =>
    alsoIn [.kst]
  | .lcGo .. =>
    alsoIn [.status, .host, .pads, .slots, .kst, .rng, .uci, .mem, .tmp, .bkp, .lci, .sac, .vat, .sch, .trib, .sc, .sa,
      .cur, .role, .mte]
  | .lcFuseProgrammed | .resetPin | .perst | .swColdReset .. | .swWarmReset .. | .millReset .. =>
    alsoIn [.settings, .status, .shadow, .domains, .resetCtl, .host, .pads, .gather, .records, .timeBases, .tim, .otp, .mtp,
      .slots, .kst, .rng, .uci, .mem, .tmp, .line, .dkl, .lci, .sac, .vat, .sch, .ports, .trib, .tribOld, .sc, .sa, .hbxRr,
      .cur, .lanes, .felt, .role, .mte]
  | .samplerWindowEnd .. | .rngFail .. =>
    alsoIn [.settings, .status, .shadow, .host, .pads, .slots, .kst, .rng, .uci, .mem, .tmp, .bkp, .line, .lci, .sac, .vat,
      .sch, .ports, .trib, .sc, .sa, .cur, .role, .mte]
  | .conditionerBlock .. | .rngRestart .. | .rngOutStatusRead .. | .rngOutDataRead .. | .rngRawRead .. =>
    alsoIn [.rng]
  | .rngTestMode .. =>
    alsoIn [.settings, .rng]
  | .uciLoad .. =>
    alsoIn [.settings, .host, .pads, .slots, .kst, .rng, .uci, .mem, .line, .cur, .role, .mte]
  | .uciLoadDone =>
    alsoIn [.uci]
  | .uciEnc .. | .uciDec .. | .uciNonce .. | .uciErase .. =>
    alsoIn [.settings, .status, .uci]
  | .uciRequestDone .. =>
    alsoIn [.free, .uci]
  | .memTrain .. | .memRegionReady .. =>
    alsoIn [.mem]
  | .memTrainDone .. | .memTrackFail .. =>
    alsoIn [.status, .host, .pads, .mem, .role, .mte]
  | .memRegionLoad .. =>
    alsoIn [.settings, .status, .host, .pads, .slots, .kst, .rng, .uci, .mem, .line, .sac, .cur, .role, .mte]
  | .memRegionUnload .. | .memLineRead .. | .memWriteAck .. =>
    alsoIn [.status, .mem, .sac]
  | .memReadDone .. | .memLineWrite .. | .tamperFire .. | .bistStimulusEnd .. | .debugAccess .. =>
    alsoIn [.settings, .status, .shadow, .host, .pads, .slots, .kst, .rng, .uci, .mem, .tmp, .bkp, .lci, .sac, .vat, .sch,
      .ports, .trib, .sc, .sa, .cur, .role, .mte]
  | .pageRewriteDone .. =>
    alsoIn [.status, .host, .pads, .mem, .sac, .role, .mte]
  | .memWindowRead .. | .memWindowWrite .. | .scrubRead .. =>
    alsoIn [.status, .mem]
  | .laneModeWrite .. =>
    alsoIn [.settings, .status, .host, .pads, .tim, .line, .lanes, .felt, .role, .mte]
  | .txLeaveIdle .. | .eyeScanDone .. =>
    alsoIn [.lanes]
  | .txEnterIdle .. | .sigDetChange .. | .cdrLock .. | .fomWindowEnd .. | .adaptTimeout .. =>
    alsoIn [.status, .host, .pads, .tim, .line, .lanes, .felt, .role, .mte]
  | .trainingBurstEnd .. =>
    alsoIn [.line, .lanes]
  | .eyeScanStart .. =>
    alsoIn [.settings, .lanes]
  | .feltSlotReceive .. =>
    alsoIn [.status, .host, .pads, .tim, .rng, .line, .dkl, .lci, .sac, .vat, .sch, .ports, .trib, .tribOld, .sc, .sa, .cur,
      .felt, .role, .mte]
  | .feltFifoError | .feltHello | .feltConfirm | .feltHealth | .feltReq =>
    alsoIn [.status, .host, .pads, .felt, .role, .mte]
  | .mateActInChange .. | .releasingExpire | .mateSwitch | .mateClrDiverged | .mateSelftest | .peerSilent | .freshExpire
  | .healthSend | .timeFrameSend | .oneSidedDefect .. | .reclaimTimerExpire =>
    alsoIn [.host, .pads, .role, .mte]
  | .claimTimerExpire | .feltDigest =>
    alsoIn [.status, .host, .pads, .timeBases, .tim, .mem, .line, .dkl, .lci, .sac, .sch, .ports, .trib, .tribOld, .sc, .sa,
      .cur, .lanes, .felt, .role, .mte]
  | .actReqWrite .. | .selftestPassDone .. | .vsecFeedLost .. | .vsecFeedGood .. | .railDrop | .selftestFailure =>
    alsoIn [.status, .host, .pads, .role, .mte]
  | .mteEnWrite .. =>
    alsoIn [.status, .host, .pads, .rng, .role, .mte]
  | .heartbeatSend =>
    alsoIn [.mte]
  | .feltDelta =>
    alsoIn [.status, .host, .pads, .timeBases, .tim, .rng, .mem, .line, .dkl, .lci, .sac, .vat, .sch, .ports, .trib,
      .tribOld, .sc, .sa, .cur, .lanes, .felt, .role, .mte]
  | .feltSnap =>
    alsoIn [.status, .host, .pads, .timeBases, .tim, .mem, .line, .dkl, .lci, .sac, .vat, .sch, .ports, .trib, .tribOld,
      .sc, .sa, .cur, .lanes, .felt, .role, .mte]
  | .feltSnapEnd =>
    alsoIn [.host, .pads, .tim, .rng, .line, .dkl, .lci, .sac, .vat, .sch, .ports, .trib, .tribOld, .sc, .sa, .cur, .felt,
      .role, .mte]
  | .feltDack | .feltRelease | .feltStale =>
    alsoIn [.host, .pads, .felt, .role, .mte]
  | .feltCkpt =>
    alsoIn [.host, .pads, .mem, .sac, .felt, .role, .mte]
  | .feltTime =>
    alsoIn [.host, .pads, .timeBases, .felt, .role, .mte]
  | .tamperSourceCease .. | .fuseWindowExpire =>
    alsoIn [.tmp]
  | .throttleEnd =>
    alsoIn [.tmp, .vat, .sch, .ports]
  | .holdEngage =>
    alsoIn [.settings, .status, .shadow, .domains, .host, .pads, .gather, .timeBases, .tim, .mem, .tmp, .line, .dkl, .lci,
      .sac, .vat, .sch, .ports, .trib, .tribOld, .sc, .sa, .hbxRr, .cur, .lanes, .felt, .role, .mte]
  | .evidenceIncrementDone =>
    alsoIn [.otp, .kst, .tmp, .bkp]
  | .tamperBist .. | .fuseTgtWrite .. =>
    alsoIn [.settings, .tmp]
  | .fuseDisableGo .. =>
    alsoIn [.status, .kst, .tmp, .bkp]
  | .fuseDisableDone =>
    alsoIn [.otp, .tmp]
  | .backupWake .. | .vbatChange .. =>
    alsoIn [.kst, .bkp]
  | .powerOnReset .. =>
    alsoIn [.settings, .status, .shadow, .domains, .resetCtl, .host, .pads, .gather, .records, .timeBases, .tim, .slots,
      .kst, .rng, .uci, .mem, .tmp, .bkp, .line, .dkl, .lci, .sac, .vat, .sch, .ports, .trib, .tribOld, .sc, .sa, .hbxRr,
      .cur, .lanes, .felt, .role, .mte]
  | .functionLevelReset .. =>
    alsoIn [.settings, .status, .shadow, .host, .rng, .uci, .cur]
  | .clockLoss .. =>
    alsoIn [.settings, .status, .shadow, .domains, .resetCtl, .host, .pads, .gather, .timeBases, .tim, .slots, .kst, .rng,
      .uci, .mem, .line, .dkl, .lci, .sac, .vat, .sch, .ports, .trib, .tribOld, .sc, .sa, .hbxRr, .cur, .lanes, .felt, .role,
      .mte]
  | .trimLoadDone .. =>
    alsoIn [.status, .resetCtl]
  | .domainRelease =>
    alsoIn [.free, .domains, .resetCtl, .host, .pads, .slots, .kst, .rng, .uci, .mem, .tmp, .line, .cur, .role, .mte]
  | .bootVerifyDone .. =>
    alsoIn [.resetCtl]
  | .ringDoorbell .. | .ringEnable .. | .ringDisable .. | .descriptorFetch .. | .curApplyDone .. | .completionRecordWrite ..
  | .cqHeadWrite .. | .waittTime .. | .waittReam .. | .waittRelease .. | .waittTimeout .. | .fence .. | .fenceDone ..
  | .epochRead .. | .epochAssert .. | .notify .. =>
    alsoIn [.cur]
  | .abiSelect .. =>
    alsoIn [.settings]
  | .dmaTimeout .. =>
    alsoIn [.dkl, .ports, .cur, .mte]
  | .batchStart .. =>
    alsoIn [.status, .mem, .line, .dkl, .lci, .sac, .vat, .sch, .ports, .trib, .tribOld, .sc, .sa, .cur, .mte]
  | .gcladm .. =>
    alsoIn [.ports, .cur, .mte]
  | .gclgo .. =>
    alsoIn [.status, .ports, .cur, .mte]
  | .shpset .. | .qcfgUpdate .. =>
    alsoIn [.sch, .trib, .tribOld, .cur, .mte]
  | .polset .. =>
    alsoIn [.sch, .cur, .mte]
  | .qcfgActivate .. =>
    alsoIn [.line, .trib, .cur, .mte]
  | .qcfgDeactivate .. | .qcfgMoveDrain .. | .qcfgMoveFlush .. =>
    alsoIn [.line, .dkl, .sch, .ports, .trib, .tribOld, .cur, .mte]
  | .moveQueueEmpty .. =>
    alsoIn [.line, .sch, .ports, .trib, .tribOld, .cur]
  | .egressFrameStart .. =>
    alsoIn [.tim, .sch, .ports, .trib]
  | .egressFrameEnd .. =>
    alsoIn [.sch, .ports, .trib]
  | .tbstepAbs .. | .tbstepRel .. | .tbservoOffset .. | .servoInterval .. | .captureEdge .. =>
    alsoIn [.status, .timeBases, .tim, .ports, .cur]
  | .tbservoGains .. | .tbservoEnable .. | .tbservoDisable .. =>
    alsoIn [.timeBases, .cur, .mte]
  | .tbRead .. | .evrSlotRead .. | .msixUnmask .. =>
    alsoIn [.host]
  | .trigset .. =>
    alsoIn [.status, .tim, .cur, .mte]
  | .triggerEdge .. | .ppsEdge =>
    alsoIn [.pads, .tim]
  | .stampQueueRead .. =>
    alsoIn [.host, .tim]
  | .tcEntryExpire .. =>
    alsoIn [.tim]
  | .vatClusterIdle .. | .htOpDone .. | .tcamOpDone .. =>
    alsoIn [.vat]
  | .htEntryWrite .. | .htEntryRead .. | .tcamEntryWrite .. | .tcamEntryRead .. =>
    alsoIn [.status, .vat]
  | .pmcClear .. | .pmcGather | .gatherDone | .periodicGather =>
    alsoIn [.gather]
  | .evrArm | .evrRecordWrite =>
    alsoIn [.records]
  | .wideRegisterRead .. =>
    alsoIn [.host, .tim, .rng, .sac]
  | .i2cWrite .. | .i2cRead .. =>
    alsoIn [.pads]
  | .registerWrite .. =>
    alsoIn [.settings, .status, .shadow, .domains, .resetCtl, .host, .pads, .gather, .records, .timeBases, .tim, .otp, .mtp,
      .slots, .kst, .rng, .uci, .mem, .tmp, .bkp, .line, .dkl, .lci, .sac, .vat, .sch, .ports, .trib, .tribOld, .sc, .sa,
      .hbxRr, .cur, .lanes, .felt, .role, .mte]
  | .rngRawWord .. =>
    alsoIn [.status, .rng]

/-- The thread issues instruction `i`, of `n` parcels, now (R172, R182-R184, R189, R201): its mill is live, it runs a frame within its
issue limit, the parcels at its PC are that instruction, what it reads has arrived, and it is its turn in its engine. -/
def State.Issues (s : State) (t : Tid) (i : VInstr) (n : Nat) : Prop :=
  s.millLive t.mill = true ∧ s.issuable t = true ∧ s.vatTurn t = true ∧ s.vinstr t = some (i, n)

/-- The thread past an instruction of `n` parcels: one more instruction issued, the PC behind it. -/
def State.past (s : State) (t : Tid) (n : Nat) : Thread :=
  { s.thread t with issued := (s.thread t).issued + 1, trapAt := none, pc := (s.thread t).pc + BitVec.ofNat 14 n }

/-- Instruction (mop, sub-op) `d` stands at the head of ring `r`, it is the ring's turn, and the checks that all instructions
share let it pass (R209, R216, R218, R226). -/
def State.Takes (s : State) (r : Rid) (mop : Nat) (op : Nat → Bool) (d : Desc) : Prop :=
  s.headFor r mop op = some d ∧ s.gate r d = none

/-- What every step keeps: the numbered stores in canonical form, the evidence counter within its 512 bits. -/
def State.Inv (s : State) : Prop := s.canonical = true ∧ s.otp.evidence ≤ 512

/-- The command completes: `exec` answers a next state, and `P` holds of it. -/
def Completes (i : Instr) (s : State) (P : State → Prop) : Prop := ∃ t, exec i s = .next t ∧ P t

/-- From `s` to `u` the ring of `ref` has come to owe a record of its instruction, with this status, RESULT and LATE, behind what it
owed before (unless a function-level reset has taken its records, R439). -/
def State.Records (s u : State) (ref : CmdRef) (status : Nat) (result : Nat := 0) (late : Bool := false) : Prop :=
  (s.ring ref.rid).mute = false → ∃ new, (u.ring ref.rid).done = (s.ring ref.rid).done ++ new
    ∧ ∃ x ∈ new, x.tag = ref.tag ∧ x.index = ref.index ∧ x.status = byteOf status ∧ x.result = BitVec.ofNat 64 result ∧ x.late = late

/-- The instruction is in APPLYING (R208): its record follows with status OK, this RESULT and LATE. -/
def State.Applies (s u : State) (r : Rid) (d : Desc) (result : Nat := 0) (late : Bool := false) : Prop :=
  ∃ n, u.cur[r.eng].applying = s.cur[r.eng].applying ++ [{ ref := d.ref r, late := late, result := BitVec.ofNat 64 result, dseq := n }]

/-- The instruction has been accepted and is not DONE (R208). -/
def State.Pends (u : State) (ref : CmdRef) : Prop := ref ∈ u.cur[ref.rid.eng].outst

/-- The ring, MOP and sub-op of a command that is an instruction of a command ring (Table 7-4). -/
def ringForm : Instr → Option (Rid × Nat × (Nat → Bool))
  | .sainstInstall r => some (r, 0x01, (· = 0)) | .sainstUpdateLpn r => some (r, 0x01, (· = 1)) | .sainstSetcur r => some (r, 0x01, (· = 2))
  | .saretRead r _ => some (r, 0x02, (· = 0)) | .saretRetire r => some (r, 0x02, (· = 1))
  | .sapinPin r => some (r, 0x03, (· = 0)) | .sapinUnpin r => some (r, 0x03, (· = 1))
  | .kwrapin r => some (r, 0x08, fun _ => true) | .kstageWrapped r => some (r, 0x09, (· = 0)) | .kstageRng r => some (r, 0x09, (· = 1))
  | .kcommit r => some (r, 0x0A, fun _ => true) | .kinval r => some (r, 0x0B, fun _ => true)
  | .kderive r => some (r, 0x0C, fun _ => true) | .attest r => some (r, 0x0D, fun _ => true)
  | .dkwrite r => some (r, 0x10, fun _ => true)
  | .dkflipEarliest r => some (r, 0x11, (· = 0)) | .dkflipAt r => some (r, 0x11, (· = 1)) | .dkflipCancel r => some (r, 0x11, (· = 2))
  | .dkshedShed r => some (r, 0x12, (· = 0)) | .dkshedRestore r => some (r, 0x12, (· = 1))
  | .lkarmLoad r => some (r, 0x18, (· = 0)) | .lkarmRxon r => some (r, 0x18, (· = 1)) | .lkarmRxoff r => some (r, 0x18, (· = 2))
  | .lkarmArmReam r => some (r, 0x18, (· = 3)) | .lkarmArmTime r => some (r, 0x18, (· = 4)) | .lkarmCancel r => some (r, 0x18, (· = 5))
  | .lkarmResync r => some (r, 0x18, (· = 6)) | .lkarmHalt r => some (r, 0x18, (· = 7)) | .lkretire r => some (r, 0x19, fun _ => true)
  | .gcladm r _ => some (r, 0x20, fun _ => true) | .gclgo r => some (r, 0x21, fun _ => true)
  | .shpset r => some (r, 0x28, fun _ => true) | .polset r => some (r, 0x29, fun _ => true)
  | .qcfgActivate r => some (r, 0x2A, (· = 0)) | .qcfgDeactivate r => some (r, 0x2A, (· = 1)) | .qcfgUpdate r => some (r, 0x2A, (· = 2))
  | .qcfgMoveDrain r => some (r, 0x2A, (· = 3)) | .qcfgMoveFlush r => some (r, 0x2A, (· = 4))
  | .tbstepRel r => some (r, 0x30, (· = 0)) | .tbstepAbs r => some (r, 0x30, (· = 1))
  | .tbservoGains r => some (r, 0x31, (· = 0)) | .tbservoOffset r => some (r, 0x31, (· = 1))
  | .tbservoEnable r => some (r, 0x31, (· = 2)) | .tbservoDisable r => some (r, 0x31, (· = 3))
  | .trigset r => some (r, 0x32, fun _ => true)
  | .waittTime r => some (r, 0x38, (· = 0)) | .waittReam r => some (r, 0x38, (· = 1)) | .fence r => some (r, 0x39, fun _ => true)
  | .epochRead r => some (r, 0x3A, (· = 0)) | .epochAssert r => some (r, 0x3A, (· = 1)) | .notify r => some (r, 0x3B, fun _ => true)
  | _ => none

/-- The instruction's own check, where it has one check that needs nothing but state and descriptor: the status it fails with. -/
def ownCheck (s : State) (d : Desc) : Instr → Option Nat
  | .sainstInstall r => s.saInstCheck (ringPf r) r.eng d
  | .sainstUpdateLpn r => checkSainstUpdateLpn s r.eng d
  | .sainstSetcur r => checkSainstSetcur s r.eng d
  | .saretRead r _ | .saretRetire r => checkSaret s r.eng d
  | .sapinUnpin r => checkSapinUnpin s r.eng d
  | .lkarmLoad r => s.lkLoadCheck (ringPf r) r.eng d
  | .lkarmRxon r | .lkarmRxoff r => checkLkn s r.eng d
  | .lkarmArmReam r => checkLkarmArm s r.eng d
  | .lkarmCancel r => checkLkarmCancel s r.eng d
  | .lkarmResync r => checkLkarmResync s r.eng d
  | .lkretire r => checkLkretire s r.eng d
  | .gclgo r => checkGclgo s r.eng d
  | .shpset r => checkShpset s r.eng d
  | .polset r => checkPolset s r.eng d
  | .qcfgActivate r => checkQcfgActivate s r.eng d
  | .qcfgDeactivate r => checkQcfgDeactivate s r.eng d
  | .qcfgUpdate r => checkQcfgUpdate s r.eng d
  | .qcfgMoveDrain r | .qcfgMoveFlush r => s.moveCheck r.eng d
  | .tbstepRel r => checkTbstepRel s r.eng d
  | .tbstepAbs r => checkTbstepAbs s r.eng d
  | .tbservoGains r => checkGains s r.eng d
  | .tbservoOffset r => checkOffset s r.eng d
  | .trigset r => checkTrigset s r.eng d
  | .epochAssert r => checkEpochAssert s r.eng d
  | _ => none

end Sys2Proof.Machine
end

