-- ==== Sys2Proof/Certificates/Slice0/Obligations.lean ====
section
/-! DEFINITION. The statements for the provers. Each docstring names the rules it rests on; a statement that says what the model
chose names its log entry. -/

open Sys2Proof Sys2Proof.Machine

/-! ## Every step -/

/-- A step takes the command at the front of the queue: it is `exec` of that command on the state with the rest of the queue. -/
def Obligations.StepTakesFront : Prop :=
  ∀ (s : State) (c : Instr) (cs : List Instr), s.pending = c :: cs → step s = exec c { s with pending := cs }

/-- On an empty queue 4 ns pass: the clock counts one cycle, each time base that runs in a released TIM advances by its increment (R267),
the others keep their reading; every 2,500 cycles on main power the junction sensor is read, a free value (log entry 3);
nothing else changes (the model's choice: log entry 2). A step removes exactly the front command from the queue, and time passes only
while the queue is empty (log entry 2). -/
def Obligations.StepsPassTheQueueAndTime : Prop :=
  (∀ s : State, s.pending = [] → ∃ t, step s = .next t ∧ t.now = s.now + 1
     ∧ (∀ b : Fin 8, t.tim.tb[b] =
         if s.timLive = true ∧ s.tbRun b = true then (s.tbAt b).advance (s.reg (Reg.tim (0x40 * b.val + 4))) else s.tbAt b)
     ∧ t.tmp.temp = (if (s.now + 1) % 2500 = 0 ∧ s.rst.porHeld = false then Config.junction s.now else s.tmp.temp)
     ∧ Only [.clock, .timeBases, .tmp] s t)
  ∧
  (∀ s t : State, step s = .next t →
     t.pending = s.pending.drop 1 ∧ t.now = if s.pending = [] then s.now + 1 else s.now)

/-- No command stops the block: `exec` answers a next state for every command in every state; and the frame of every command: in
that state, outside the areas that `touches` names for the command, every part of the state is as before. -/
def Obligations.CommandsKeepToTheirAreas : Prop :=
  ∀ (i : Instr) (s : State), ∃ t, exec i s = .next t ∧ Only (touches i) s t

/-- The state after reset satisfies the invariant. -/
def Obligations.ResetMeetsInvariant : Prop := State.reset.Inv

/-- Every step keeps the invariant: the register file and the MTP stay in canonical form, the evidence counter within its bits. -/
def Obligations.StepsKeepInvariant : Prop := ∀ s t : State, s.Inv → step s = .next t → t.Inv

/-! ## Client ports (chapters 1 and 8) -/

/-- R23, R203, R257: frames that arrive at an enabled client port of a live mill. A good frame joins the dispatch queue of a cluster with
its port, its stamp and its priority; while there is no room, or others wait before it, the MAC holds it back, and what then exceeds
the MAC's 4 KiB is dropped by class (log entry 17); a frame that the MAC discards changes no queue. A control frame sets
the paused queues that it names, where it matches the receive mode. R257, R258: a pause ends for the queue whose time has run out, and
for no other; while the count of a priority whose pause is enabled stays above XON the pause is sent again with the longest time,
unless the device follows its mate or the port's transmitters do not send. R31, R36: an output of the headbox grants one source: fixed
traffic before receive, receive before transmit, in each kind the first source after the one granted last that offers some. Its frame
crosses, and it becomes the source granted last. -/
def Obligations.ClientPortsReceive : Prop :=
  (∀ (s : State) (p : Fin 32), s.millLive (portMill p) = true → s.portOn p = true →
     (∀ frame pcs f, isControl frame = false → macFault frame pcs = none →
       f = { bytes := frame, port := p.val, clientMill := portMill p, stamp := s.portStamp p.val false, pri := s.ingressPri p frame } →
       (∀ c, s.queueFor (portMill p) = some c → (s.port p).hold = [] →
         Completes (.clientFrameReceive p frame pcs) s fun t => t.vat (portMill p) =
           { s.vat (portMill p) with disp := (s.vat (portMill p)).disp ++ [(c, f)], rr := c.val })
       ∧ (s.dispRoom (portMill p) = false ∨ (s.port p).hold ≠ [] →
         Completes (.clientFrameReceive p frame pcs) s fun t => t.vat (portMill p) = s.vat (portMill p)
           ∧ (t.port p).hold = (shedByClass (·.pri) 4096 ((s.port p).hold.length + 1) ((s.port p).hold ++ [f])).1))
     ∧ (∀ frame pcs, isControl frame = false → (macFault frame pcs).isSome = true →
       Completes (.clientFrameReceive p frame pcs) s fun t => t.mills = s.mills)
     ∧ (∀ frame b, isControl frame = true → macFault frame false = none →
       pauseBy (s.fld (fcReg p) 0 2) (s.fld (fcReg p) 8 8) frame (s.port p).paused = some b →
       Completes (.macControlReceive p frame) s fun t => t.mills = (s.modPort p fun x => { x with paused := b }).mills))
  ∧
  (∀ (s : State) (p : Fin 32), s.millLive (portMill p) = true →
     (∀ q : Fin 8, (s.port p).paused.getLsbD q.val = true →
       Completes (.pauseExpire p q) s fun t =>
         t.mills = (s.modPort p fun x => { x with paused := x.paused &&& ~~~(1#8 <<< q.val) }).mills)
     ∧ (∀ pri : Fin 8, s.fcOn p pri.val = true → (s.port p).xoff.getLsbD pri.val = true →
       s.fld (fcReg p + 4) 16 16 < s.fcCount p pri.val →
       Completes (.pfcRefresh p pri) s fun t => t.mills = s.mills ∧ (s.shadowing = false → s.portSends p = true →
         ∃ os, t.out = os ++ Out.clientFrame p.val (controlFrame p (s.fld (fcReg p) 2 2) pri.val 0xFFFF) :: s.out)))
  ∧
  (∀ (s : State) (dst i : Fin 4) (k : Fin 3) (o : Offer), s.hbxGrant dst k = some (i, o) → (∀ j : Fin 3, j < k → s.hbxGrant dst j = none) →
     Completes (.headboxTransfer dst) s fun u =>
       u.hbxRr = s.hbxRr.set (3 * dst.val + k.val) i.val
       ∧ u.mills = (s.hbxMove i dst o).mills ∧ u.trib = (s.hbxMove i dst o).trib ∧ u.tribOld = (s.hbxMove i dst o).tribOld)

/-! ## The vat: data-plane instructions (chapter 6) -/

/-- R186 (Table 6-4): the integer instructions write their result, computed modulo 2^64 on the operands, to gd of their thread, count one
instruction, take the turn of their engine (R172) and pass on; nothing else of any mill changes. Shifts take their count modulo 64; a
write to g0 is discarded (`setG`, R177). R187 (Table 6-5): `BR` goes to its target; `BRP` does so where its predicate has the sense
asked for, and falls through otherwise; `CALL` pushes the address behind it while fewer than 8 addresses stand on the stack; `RET`
pops. Nothing else of any mill changes. R188, R197, R198, R229: a frame ends. `ENQ` of a frame to the line needs its tributary set,
`ENQ` of a frame from the line names an enabled client port of the mill and an egress queue; `PUNT` names a punt queue and withdraws
what is owed; the thread keeps the frame until ENQ_COMPLETE or PUNT_COMPLETE. `DROP` ends and discards it at once. -/
def Obligations.VatArithmeticAndControl : Prop :=
  (∀ (s : State) (t : Tid) (gd n : Nat) (a b : VSrc),
     let x := s.thread t
     let writes (c : Instr) (v : W64) : Prop := Completes c s fun u => u.mills = ((s.tookTurn t).setThread t ((s.past t n).setG gd v)).mills
     (s.Issues t (.alu 0 gd a b) n → writes (.mov t) (x.src b))
     ∧ (s.Issues t (.alu 1 gd a b) n → writes (.add t) (x.src a + x.src b))
     ∧ (s.Issues t (.alu 2 gd a b) n → writes (.sub t) (x.src a - x.src b))
     ∧ (s.Issues t (.alu 3 gd a b) n → writes (.and t) (x.src a &&& x.src b))
     ∧ (s.Issues t (.alu 4 gd a b) n → writes (.or t) (x.src a ||| x.src b))
     ∧ (s.Issues t (.alu 5 gd a b) n → writes (.xor t) (x.src a ^^^ x.src b))
     ∧ (s.Issues t (.alu 6 gd a b) n → writes (.shl t) (x.src a <<< ((x.src b).toNat % 64)))
     ∧ (s.Issues t (.alu 7 gd a b) n → writes (.shr t) (x.src a >>> ((x.src b).toNat % 64)))
     ∧ (∀ v, s.Issues t (.movShift gd v) n → writes (.mov t) ((x.gr gd <<< 28) ||| v)))
  ∧
  (∀ (s : State) (t : Tid) (n a : Nat),
     let y := s.past t n
     (s.Issues t (.br a) n → Completes (.br t) s fun u => u.mills = ((s.tookTurn t).setThread t { y with pc := BitVec.ofNat 14 a }).mills)
     ∧ (∀ p sense, s.Issues t (.brp p sense a) n → Completes (.brp t) s fun u =>
         u.mills = ((s.tookTurn t).setThread t (if (s.thread t).p.getLsbD p = sense then { y with pc := BitVec.ofNat 14 a } else y)).mills)
     ∧ (s.Issues t (.call a) n → (s.thread t).stack.length < 8 → Completes (.call t) s fun u =>
         u.mills = ((s.tookTurn t).setThread t { y with stack := y.pc :: y.stack, pc := BitVec.ofNat 14 a }).mills)
     ∧ (∀ b bs, s.Issues t .ret n → (s.thread t).stack = b :: bs → Completes (.ret t) s fun u =>
         u.mills = ((s.tookTurn t).setThread t { y with stack := bs, pc := b }).mills))
  ∧
  (∀ (s : State) (t : Tid) (n : Nat),
     let x := s.thread t
     let y := s.past t n
     (s.Issues t (.enq 0) n → x.frame.rx = false → x.trib.isSome = true →
       Completes (.enq t) s fun u => u.mills = ((s.tookTurn t).setThread t { y with ended := some (.enq 0) }).mills)
     ∧ (∀ gs, s.Issues t (.enq gs) n → x.frame.rx = true → (x.gr gs).toNat < 256 → (x.gr gs).toNat % 32 / 8 = t.mill.val →
       s.portEnabled (portOf (x.gr gs).toNat) = true →
       Completes (.enq t) s fun u => u.mills = ((s.tookTurn t).setThread t { y with ended := some (.enq (x.gr gs).toNat) }).mills)
     ∧ (∀ q r, s.Issues t (.punt q r) n →
       Completes (.punt t) s fun u => u.mills = ((s.tookTurn t).setThread t { y with ended := some (.punt q r 0), reqs := [], wait := .none }).mills)
     ∧ (∀ r, s.Issues t (.drop r) n →
       Completes (.drop t) s fun u => u.mills = (((s.tookTurn t).setThread t y).vatDrop t).mills ∧ u.trib = (((s.tookTurn t).setThread t y).vatDrop t).trib))

/-- R181, R185, R186: `MOV` from a special register writes what the register holds (the phase of the VAT clock in CYCLES is a free value,
log entry 12); `CMP` sets its predicate; `EXT` reads bytes of the window, of the scratch or bits of a register; `INS` writes
them. An access past the end of the window or of the scratch, or one that `INS` may not make, is not among these forms: it is an
exception. R172, R183, R200 (Table 6-11): parcels that are no instruction raise ILLEGAL, which takes the thread's turn: outside its
handler, and where the handler is enabled, the thread goes to the handler's address with the cause and the address of the instruction,
its stack emptied. The last premise says that the table of threads is in order: a thread that is stored reads back. -/
def Obligations.VatMovesAndFields : Prop :=
  (∀ (s : State) (t : Tid) (n : Nat),
     let x := s.thread t
     let y := s.past t n
     (∀ gd idx v, s.Issues t (.movSpecial gd idx) n → ((s.tookTurn t).setThread t y).special t y idx = some v →
       Completes (.movSpecial t) s fun u => u.mills = ((s.tookTurn t).setThread t (y.setG gd v)).mills
         ∧ u.free = s.free + b2n (decide (idx = 0x0E)))
     ∧ (∀ pd gs c b, s.Issues t (.cmp pd gs c b) n →
       Completes (.cmp t) s fun u => u.mills = ((s.tookTurn t).setThread t (y.setP pd (cmpCond c (x.gr gs) (x.src b)))).mills)
     ∧ (∀ gd gb off k, s.Issues t (.extMem gd false gb off k) n → (x.gr gb).toNat + off + k ≤ 256 →
       Completes (.ext t) s fun u => u.mills = ((s.tookTurn t).setThread t (y.setG gd (BitVec.ofNat 64
         (beNat ((List.range k).map fun j => byteAt x.frame.bytes ((x.gr gb).toNat + off + j)))))).mills)
     ∧ (∀ gd gb off k, s.Issues t (.extMem gd true gb off k) n → (x.gr gb).toNat + off + k ≤ 8192 →
       Completes (.ext t) s fun u =>
         u.mills = ((s.tookTurn t).setThread t (y.setG gd (BitVec.ofNat 64 (beNat (s.scratchRead t ((x.gr gb).toNat + off) k))))).mills)
     ∧ (∀ gd gs pos w, s.Issues t (.extReg gd gs pos w) n →
       Completes (.ext t) s fun u => u.mills = ((s.tookTurn t).setThread t (y.setG gd ((x.gr gs >>> pos) &&& zimm (2 ^ w - 1)))).mills)
     ∧ (∀ gs gb off k, s.Issues t (.insMem gs false gb off k) n → x.winGuard ((x.gr gb).toNat + off) k = false →
       Completes (.ins t) s fun u => u.mills = ((s.tookTurn t).setThread t { y with
         frame := { x.frame with bytes := patch x.frame.bytes ((x.gr gb).toNat + off) (beBytes k (x.gr gs).toNat) }, winWritten := true }).mills)
     ∧ (∀ gs gb off k, s.Issues t (.insMem gs true gb off k) n → (x.gr gb).toNat + off + k ≤ 8192 →
       Completes (.ins t) s fun u => u.mills = (((s.tookTurn t).setThread t y).scratchWrite t ((x.gr gb).toNat + off) (beBytes k (x.gr gs).toNat)).mills)
     ∧ (∀ gd gs pos w, s.Issues t (.insReg gd gs pos w) n →
       Completes (.ins t) s fun u => u.mills = ((s.tookTurn t).setThread t (y.setG gd
         ((x.gr gd &&& ~~~(zimm (2 ^ w - 1) <<< pos)) ||| ((x.gr gs &&& zimm (2 ^ w - 1)) <<< pos)))).mills))
  ∧
  (∀ (s : State) (t : Tid),
     let y : Thread := { s.thread t with issued := (s.thread t).issued + 1, trapAt := none }
     let s1 := (s.tookTurn t).setThread t y
     s.millLive t.mill = true → s.issuable t = true → s.vatTurn t = true →
     s.vinstr t = none → (s.thread t).inTrap = false → s.bit (vatReg t 8) 14 = true → s1.thread t = y →
     ∀ c ∈ [Instr.mov t, .add t, .cmp t, .ext t, .br t, .lkp t, .enq t, .drop t], Completes c s fun u =>
       (u.vat t.mill).threads = ((s1.setThread t { y with
         pc := BitVec.ofNat 14 (s.reg (vatReg t 8) % 16384), inTrap := true, cause := 1, trapPc := (s.thread t).pc
         trapAt := some s.now, stack := [], ended := none }).vat t.mill).threads)

/-- R151, R188, R190, R194, R245, R281: the frame-service instructions. `LKP`, `TCM`, `ATT` and `POL` send a request that is owed until
its unit answers; `TRIB` and `CLS` record the tributary and the class; `STMP` marks an event or follow-up frame, or its capture. R245,
R248: how a policer colours a frame of `n` bytes, its adjustment included: red where its peak bucket is short, yellow where its
committed bucket is, green otherwise; a yellow frame is taken from the peak bucket, a green one from both, a red one from none.
Colour-aware, a frame does not gain a better colour than it had. -/
def Obligations.VatFrameInstructions : Prop :=
  (∀ (s : State) (t : Tid) (n : Nat),
     let x := s.thread t
     let y := s.past t n
     let becomes (c : Instr) (z : Thread) : Prop := Completes c s fun u => u.mills = ((s.tookTurn t).setThread t z).mills
     (∀ gd pd gk tab kw, s.Issues t (.lkp gd pd gk tab kw) n → s.htOk t.mill tab kw = true →
       becomes (.lkp t) { y with reqs := x.reqs ++ [.hash gd pd tab (x.hashKey gk kw) (y.pc - 2)] })
     ∧ (∀ gd pd gk part, s.Issues t (.tcm gd pd gk part) n → (s.tcamPart t.mill part).2 ≠ 0 →
       becomes (.tcm t) { y with reqs := x.reqs ++ [.tcam gd pd part (x.hashKey gk 2) (y.pc - 2)] })
     ∧ (∀ gs, s.Issues t (.att gs) n → x.attUsed = false → (x.gr gs).toNat < 16384 →
       becomes (.att t) { y with attUsed := true, wait := .att (x.gr gs).toNat false (y.pc - 1) })
     ∧ (∀ v, s.Issues t (.trib v) n → x.frame.rx = false →
       1 ≤ (x.src v).toNat % 16384 → (x.src v).toNat % 16384 ≤ 16381 → (s.tribAt ((x.src v).toNat % 16384)).active = true →
       becomes (.trib t) { y with trib := some ((x.src v).toNat % 16384) })
     ∧ (∀ v, s.Issues t (.cls v) n → becomes (.cls t) { y with cls := some ((x.src v).toNat % 8) })
     ∧ (∀ gd gs, s.Issues t (.pol gd gs) n → x.polCount < 2 → (x.gr gs).toNat < 4096 → (s.policer t.mill (x.gr gs).toNat).en = true →
       becomes (.pol t) { y with polCount := x.polCount + 1, reqs := x.reqs ++ [.pol gd (x.gr gs).toNat (y.pc - 2)] })
     ∧ (s.Issues t (.stmp 1) n → (natBit (tget 0 x.desc 8) 4 = true ∨ natBit (tget 0 x.desc 8) 5 = true) →
       becomes (.stmp t) { y with frame := { x.frame with tsCapture := true } })
     ∧ (s.Issues t (.stmp 0) n → natBit (tget 0 x.desc 8) 4 = true →
       becomes (.stmp t) { y with frame := { x.frame with tcEvent := true } })
     ∧ (s.Issues t (.stmp 2) n → natBit (tget 0 x.desc 8) 4 = false → natBit (tget 0 x.desc 8) 5 = true →
       becomes (.stmp t) { y with frame := { x.frame with tcFollow := true } }))
  ∧
  (∀ (p : Policer) (now prev len : Nat), prev ≤ 2 →
     let b := p.b.upTo now
     let u := ((len : Int) + b.adj) * byteU
     let o := p.decide now prev len
     (o.1 = 0 ∨ o.1 = 1 ∨ o.1 = 2)
     ∧ (p.aware = true → prev ≤ o.1)
     ∧ (o.1 = 0 → u ≤ b.tp ∧ u ≤ b.tc ∧ o.2.b.tp = b.tp - u ∧ o.2.b.tc = b.tc - u)
     ∧ (o.1 = 1 → u ≤ b.tp ∧ o.2.b.tp = b.tp - u ∧ o.2.b.tc = b.tc)
     ∧ (o.1 = 2 → o.2.b.tp = b.tp ∧ o.2.b.tc = b.tc)
     ∧ (p.aware = false → (o.1 = 2 ↔ b.tp < u) ∧ (o.1 = 1 ↔ ¬ b.tp < u ∧ b.tc < u)))

/-! ## The vat: units, dispatch, clusters, tables -/

/-- R191, R194, R245: a unit answers the request of a thread. A lookup writes its result, or 0, to the register asked for and sets the
predicate where an entry was found: in the hash table the lowest-indexed entry of the two buckets, in the TCAM the lowest entry of the
partition that matches. A policer colours the frame and keeps its buckets; a colour of which the action is not DROP lets the frame go
on. R173, R174, R176, R203: the oldest waiting frame whose cluster has a free thread, and that no older frame of its source waits
before, is given to that thread, which starts at its entry point with cleared registers and the parser's results; the frame leaves the
dispatch queue, and a frame that waited for room takes it. -/
def Obligations.VatUnitsAnswer : Prop :=
  (∀ (s : State) (t : Tid),
     let x := s.thread t
     (∀ gd pd tab key pc, x.reqs.find? (fun | .hash _ _ _ _ _ => true | _ => false) = some (.hash gd pd tab key pc) →
       s.bit (Reg.vat t.mill (0x900 + 4 * tab)) 31 = true →
       Completes (.hashLookup t) s fun u =>
         u.mills = (s.setThread t (x.answer (.hash gd pd tab key pc) gd pd (s.hashFind t.mill tab key))).mills)
     ∧ (∀ gd pd part key pc, x.reqs.find? (fun | .tcam _ _ _ _ _ => true | _ => false) = some (.tcam gd pd part key pc) →
       (s.tcamPart t.mill part).2 ≠ 0 →
       Completes (.tcamSearch t) s fun u =>
         u.mills = (s.setThread t (x.answer (.tcam gd pd part key pc) gd pd
           ((List.range (min (s.tcamPart t.mill part).2 (2048 - (s.tcamPart t.mill part).1))).findSome? fun i =>
             (s.vat t.mill).tcamHit (beNat key) ((s.tcamPart t.mill part).1 + i)))).mills)
     ∧ (∀ gd n pc, x.reqs.find? (fun | .pol _ _ _ => true | _ => false) = some (.pol gd n pc) → (s.policer t.mill n).en = true →
       let o := (s.policer t.mill n).decide s.now (x.lastColour.getD 0) x.frame.bytes.length
       let act := if o.1 = 1 then (s.policer t.mill n).yellow else if o.1 = 2 then (s.policer t.mill n).red else 0
       act ≠ 1 → Completes (.policerDecide t) s fun u =>
         (u.sch t.mill).policers = tset default n o.2 (s.sch t.mill).policers
         ∧ (u.vat t.mill).threads = tset default (tidKey t) (Thread.setG { x with
             reqs := x.reqs.erase (.pol gd n pc), lastColour := some (x.lastColour.getD o.1)
             polCls := if act = 2 then some (if o.1 = 1 then (s.policer t.mill n).yellowCls else (s.policer t.mill n).redCls) else x.polCls }
             gd (BitVec.ofNat 64 o.1)) (s.vat t.mill).threads))
  ∧
  (∀ (s : State) (m : Fin 4) (w : Fin 8 × Frame) (t : Tid), s.millLive m = true → s.nextDispatch m [] (s.vat m).disp = some (w, t) →
     Completes (.vatDispatch m) s fun u =>
       u.mills = (((s.setThread t { busy := true, frame := w.2, desc := s.parsed m w.2, seq := (s.vat m).nextSeq, since := s.now
                                    pc := BitVec.ofNat 14 (s.fld (vatReg t 4) (if w.2.rx then 16 else 0) 14) }).modVat m fun v =>
         { v with disp := v.disp.erase w, nextSeq := v.nextSeq + 1 }).refill m).mills)

/-- R148, R151, R161, R162: the SA cache answers an `ATT`; the frame takes the next ticket of the mill. Where the association is resident
the way is marked used; where it is away its fetch starts, or with the miss queue full the thread stalls. A frame without a SecTAG, of
an SA that is missing, orphaned, faulted or exhausted is attached as well, and is discarded at its `ENQ` or when it reaches the
cipher. R201, R202 (Table 6-11): a frame that has used up its issue limit ends with BUDGET, one that has stayed too long with TIME: in
both cases the thread is freed and the frame discarded. One whose `ENQ` is complete on the edge of the limit has left; one that
reported an exception on it ends with its default action. The exception word takes the first cause, 0xD or 0xE. -/
def Obligations.VatFramesAttachOrEnd : Prop :=
  (∀ (s : State) (t : Tid) (scx : Nat) (stalled : Bool) (pc : W14) (sax : Nat),
     (s.thread t).wait = .att scx stalled pc → s.attSelect t (s.thread t) scx = .ok sax →
     let x := s.thread t
     let m := t.mill
     let f : Frame := { x.frame with att := some sax }
     let st := s.saEff sax
     let becomes (w : State) : Prop := Completes (.saCacheAttach t) s fun u => u.mills = w.mills
     (x.frame.rx = true → x.tagged = false → becomes (s.attach t x { f with badTag := true }))
     ∧ ((x.frame.rx = true → x.tagged = true) →
       (saMissing st = true → becomes (s.attach t x { f with doomed := true }))
       ∧ (st = .orphaned ∨ st = .faulted → becomes (s.attach t x f))
       ∧ (st = .exhausted → becomes ((s.attach t x { f with refused := true }).countRefused m sax))
       ∧ (st = .installed →
         (∀ k, (s.sac m).find sax = some k → ((s.sac m).ctx sax).isSome = true → becomes ((s.attach t x f).modSac m (·.touch k)))
         ∧ ((s.sac m).find sax = none → (s.sac m).awaited sax = false → (s.sac m).victim sax = none →
           (s.missHold m x.frame.rx < 1024 → (s.sac m).missOut < 64 → becomes ((s.attach t x f).startFill m sax))
           ∧ (64 ≤ (s.sac m).missOut → becomes (s.attStall t x scx stalled pc))))))
  ∧
  (∀ (s : State) (t : Tid),
     ((s.thread t).runs = true → s.issueLim t.mill ≤ (s.thread t).issued →
       Completes (.issueLimit t) s fun u =>
         let w := (s.countExc t 0xD (s.thread t).pc).countMill t.mill 4 6 t.cluster.val
         u.mills = (w.vatDrop t).mills ∧ u.trib = (w.vatDrop t).trib)
     ∧ ((s.thread t).busy = true → (s.thread t).enqDone = false → (s.thread t).trapAt = some s.now →
       Completes (.residencyLimit t) s fun u => u.mills = (s.defaultAction t (s.thread t).cause).mills)
     ∧ ((s.thread t).busy = true → (s.thread t).enqDone = false → (s.thread t).trapAt ≠ some s.now →
       Completes (.residencyLimit t) s fun u =>
         let w := (s.countExc t 0xE (s.thread t).pc).countMill t.mill 4 7 t.cluster.val
         u.mills = (w.vatDrop t).mills ∧ u.trib = (w.vatDrop t).trib)
     ∧ (∀ cause pc, (s.vat t.mill).excValid = false →
       ((s.countExc t cause pc).vat t.mill).excValid = true
       ∧ ((s.countExc t cause pc).vat t.mill).excWord = cause + pc.toNat * 2 ^ 4 + t.cluster.val * 2 ^ 18 + t.engine.val * 2 ^ 21
           + t.thread.val * 2 ^ 24 + b2n (s.thread t).frame.rx * 2 ^ 26)
     ∧ (∀ cause pc, (s.vat t.mill).excValid = true → (s.countExc t cause pc).mills = s.mills))

/-- R148, R197, R174, R229, R408: a frame whose verdict is complete, and before which no frame of its source is left, goes on: an attached
one to the frame cipher, one without an association to its tributary or its egress queue; one attached without a SecTAG, or to an
exhausted SA, is discarded, and so is every frame to the line of a device that follows its mate; a punted one joins its punt queue,
where fewer than 64 wait. Its thread is free again. R229: the oldest frame of a punt queue meets the next buffer of its ring: where
the buffer is long enough, the metadata block and the frame are written to host memory and the record gives the frame's length; the
frame has left its queue. -/
def Obligations.VatFramesLeave : Prop :=
  (∀ (s : State) (t : Tid),
     let x := s.thread t
     let m := t.mill
     x.busy = true → s.inOrder t = true →
     (∀ q, x.ended = some (.enq q) → x.answered = true →
       let f := s.verdict x q
       let w := s.freeThread t false
       (s.shadowing = true → x.frame.rx = false → Completes (.enqComplete t) s fun u => u.mills = (s.freeThread t true).mills)
       ∧ ((s.shadowing = false ∨ x.frame.rx = true) →
         ((f.badTag = true ∨ f.refused = true) → Completes (.enqComplete t) s fun u => u.mills = (w.dropFrame m f).mills)
         ∧ (f.badTag = false → f.refused = false →
           (f.att.isSome = true → Completes (.enqComplete t) s fun u => (u.sac m).cipherQ = (w.sac m).cipherQ ++ [f])
           ∧ (f.att = none → x.frame.rx = true → Completes (.enqComplete t) s fun u => u.mills = (w.joinEgress (portOf f.port) f).mills)
           ∧ (f.att = none → x.frame.rx = false →
             Completes (.enqComplete t) s fun u => u.mills = (w.sendTx f).mills ∧ u.trib = (w.sendTx f).trib))))
     ∧ (∀ q r c, x.ended = some (.punt q r c) → (s.vat m).punts[(⟨q % 8, by omega⟩ : Fin 8)].length < 64 →
       Completes (.puntComplete t) s fun u =>
         (u.vat m).punts = ((s.freeThread t true).vat m).punts.set (q % 8) (((s.freeThread t true).vat m).punts[(⟨q % 8, by omega⟩ : Fin 8)] ++
           [{ frame := { x.frame with bytes := if x.winWritten then refcs x.frame.bytes else x.frame.bytes }, reason := r, cause := c }])))
  ∧
  (∀ (s : State) (m : Fin 4) (q : Fin 8) (x : Punt) (xs : List Punt) (d : Desc) (ds : List Desc),
     s.engLive m = true → s.hstLive = true → s.millLive m = true → (s.ring (puntRing m q)).en = true → (s.ring (puntRing m q)).halt = false →
     s.cqFull (puntRing m q) = false → (s.vat m).punts[q] = x :: xs → (s.ring (puntRing m q)).fetched = d :: ds → 9312 ≤ d.u 8 4 →
     Completes (.puntDeliver m q) s fun u =>
       (u.vat m).punts[q] = xs ∧ (u.ring (puntRing m q)).fetched = ds
       ∧ (u.ring (puntRing m q)).done = (s.ring (puntRing m q)).done ++
           [{ tag := BitVec.ofNat 32 (d.u 12 4), status := 0, index := d.index, result := BitVec.ofNat 64 (x.frame.bytes.length % 2 ^ 14) }]
       ∧ ∃ os, u.out = os ++ Out.hostWrite 0 (d.u 0 8) (x.meta q.val ++ x.frame.bytes) :: s.out)

/-- R204: RUN of a cluster. Written 1 from 0, the cluster is in service, its generation counts, its scratch is cleared, and frames that
wait may take its room; written 0 it drains, or stops at once where no frame is left in it, and what waits for it goes to clusters
that take frames; a draining cluster stops when its last frame has left. A write of what is in force changes nothing. R193, R195: the
entry windows. Without an operation in progress, a write stores the staged words in the entry, a read copies the entry into them, and
the window is busy until the operation is done; while it is busy a command is ignored. -/
def Obligations.VatIsSetUp : Prop :=
  (∀ (s : State) (m : Fin 4) (c : Fin 8),
     (s.millLive m = true → (s.vat m).run[c] ≠ 1 →
       Completes (.vatClusterRun m c) s (fun u => u.mills = ((s.modVat m fun v => { v with
         run := v.run.set c 1, gen := v.gen.set c ((v.gen[c] + 1) % 65536)
         scratch := tkeep (fun k => decide (k / 65536 ≠ c.val)) v.scratch }).refill m).mills)
       ∧ Completes (.vatClusterStop m c) s fun u => u.mills = s.mills)
     ∧ (s.millLive m = true → (s.vat m).run[c] = 1 →
       Completes (.vatClusterRun m c) s (fun u => u.mills = s.mills)
       ∧ Completes (.vatClusterStop m c) s fun u =>
         u.mills = ((s.modVat m fun v => { v with run := v.run.set c (if s.clusterIdle m c then 0 else 2) }).refill m).mills)
     ∧ ((s.vat m).run[c] = 2 → s.clusterIdle m c = true →
       Completes (.vatClusterIdle m c) s fun u => u.mills = (s.modVat m fun v => { v with run := v.run.set c 0 }).mills))
  ∧
  (∀ (s : State) (m : Fin 4), s.millLive m = true →
     (∀ e : Fin 131072, (s.vat m).hashOp = none →
       Completes (.htEntryWrite m e) s (fun u => (u.vat m).hashOp = some ⟨true, e.val⟩
         ∧ (u.vat m).hash = tset [] e.val (packEntry (s.staged m 0x980 8)) (s.vat m).hash)
       ∧ Completes (.htEntryRead m e) s (fun u => (u.vat m).hashOp = some ⟨false, e.val⟩ ∧ (u.vat m).hash = (s.vat m).hash
         ∧ u.regs = ((s.setReg (Reg.vat m 0x9A0) (e.val + 2 ^ 29)).unstage m 0x980 8 (tget [] (s.vat m).hash e.val)).regs))
     ∧ (∀ e : Fin 2048, (s.vat m).tcamOp = none →
       Completes (.tcamEntryWrite m e) s (fun u => (u.vat m).tcamOp = some ⟨true, e.val⟩
         ∧ (u.vat m).tcam = tset [] e.val (packEntry (s.staged m 0xA80 11)) (s.vat m).tcam)
       ∧ Completes (.tcamEntryRead m e) s (fun u => (u.vat m).tcamOp = some ⟨false, e.val⟩ ∧ (u.vat m).tcam = (s.vat m).tcam
         ∧ u.regs = ((s.setReg (Reg.vat m 0xAC0) (e.val + 2 ^ 29)).unstage m 0xA80 11 (tget [] (s.vat m).tcam e.val)).regs))
     ∧ ((s.vat m).hashOp.isSome = true →
       Completes (.htOpDone m) s (fun u => u.mills = (s.modVat m fun v => { v with hashOp := none }).mills)
       ∧ ∀ e : Fin 131072, Completes (.htEntryWrite m e) s fun u => u.mills = s.mills ∧ u.regs = s.regs)
     ∧ ((s.vat m).tcamOp.isSome = true →
       Completes (.tcamOpDone m) s (fun u => u.mills = (s.modVat m fun v => { v with tcamOp := none }).mills)
       ∧ ∀ e : Fin 2048, Completes (.tcamEntryWrite m e) s fun u => u.mills = s.mills ∧ u.regs = s.regs))

/-! ## The frame cipher, the SA cache and the headbox -/

/-- R163, R165: a context whose 8 lines have come fills its way, and the frames and pins that waited for the cache go on; one that
failed, or does not fit its SA, is faulted. A victim whose 8 writes are acknowledged is no longer cached; a refused one is faulted with
cause 4. A context written by an instruction is done with its 8 writes. -/
def Obligations.ContextsComeAndGo : Prop :=
  ∀ (s : State) (m : Fin 4) (sax : Fin 65536),
    (∀ f, (s.sac m).fetches.find? (fun f => decide (f.sax = sax.val)) = some f → 8 ≤ f.done →
      (∀ k, (s.sac m).find sax.val = some k → f.bad = 0 → s.ctxFits sax.val f.ctx = true →
        let w := (s.modSac m fun x => ({ x with fetches := x.fetches.filter fun g => decide (g.sax ≠ sax.val) } : Sac).fillWay k sax.val
          (if f.newer = [] then f.ctx else f.newer) (decide (f.newer ≠ []))).setSa sax.val { s.saAt sax.val with cached := true }
        Completes (.saFetchComplete m sax) s fun u => u.mills = (w.retry m).mills ∧ u.sa = (w.retry m).sa)
      ∧ (f.bad ≠ 0 ∨ s.ctxFits sax.val f.ctx = false →
        let cause := if f.bad = 0 then 3 else f.bad
        Completes (.saFetchComplete m sax) s fun u =>
          u.mills = (s.saFault m sax.val cause).mills ∧ u.sa = (s.saFault m sax.val cause).sa
          ∧ ((s.sac m).faultValid = false → (u.sac m).faultValid = true ∧ (u.sac m).faultSax = sax.val ∧ (u.sac m).faultCause = cause)))
    ∧ (∀ v, (s.sac m).victims.find? (fun v => decide (v.sax = sax.val ∧ v.acked = 8)) = some v →
      let w := (s.modSac m fun x => { x with victims := x.victims.filter fun y => decide (y.sax ≠ sax.val) }).setSa
        sax.val { s.saAt sax.val with cached := false }
      (v.refused = false → Completes (.saWritebackDone m sax) s fun u => u.mills = (w.retry m).mills ∧ u.sa = (w.retry m).sa)
      ∧ (v.refused = true → Completes (.saWritebackDone m sax) s fun u =>
        u.mills = (s.saFault m sax.val 4).mills ∧ u.sa = (s.saFault m sax.val 4).sa))
    ∧ (∀ v, (s.sac m).victims.find? (fun v => decide (v.sax = sax.val ∧ v.acked = 8)) = none →
      (s.sac m).writes.find? (fun v => decide (v.sax = sax.val ∧ v.acked = 8)) = some v →
      v.refused = false ∨ v.retire = true ∨ (s.saAt sax.val).st = .empty →
      Completes (.saWritebackDone m sax) s fun u => u.mills = (s.modSac m fun x => { x with writes := x.writes.erase v }).mills ∧ u.sa = s.sa)

/-- R157, R158, R160, R166: the frame of an SA that is first in ticket order meets its resident context. Towards the line it takes the
SA's next packet number and goes on protected, an exhausted SA refuses it; from the line it is validated and goes on to its port, or
is discarded. A frame of an SA that has no key to give is discarded. The threshold FIFO is read with its overflow mark. R157, R159:
the packet number of an SA rises by one with each frame protected under it, without a takeover jump; with a jump the number moves by
2^24 for each takeover since. No frame is protected beyond the final value: where the numbers are spent the context keeps its number,
and the frame is refused. -/
def Obligations.FramesMeetTheirContext : Prop :=
  (∀ (s : State) (m : Fin 4) (sax : Fin 65536) (f : Frame) (c : Bytes),
     (s.cipherHead m sax.val false = some f → (s.takeCipher m f).cipherDrop m f (s.saEff sax.val) = none → (s.sac m).ctx sax.val = some c →
       let w := if s.saEff sax.val = .exhausted ∨ byteAt c 1 = 5 then (s.takeCipher m f).refuseFrame m sax.val c
         else (s.takeCipher m f).cipherTx m sax.val c f
       Completes (.fciTxFrame m sax) s fun u => u.mills = (w.retry m).mills ∧ u.trib = (w.retry m).trib)
     ∧ (s.cipherHead m sax.val true = some f → (s.takeCipher m f).cipherDrop m f (s.saEff sax.val) = none → (s.sac m).ctx sax.val = some c →
       let v := validate c (s.secPos m c f.bytes) f.bytes
       let w := (s.takeCipher m f).modSac m fun x => x.putCtx sax.val (v.ctx c)
       (∀ b, v.out = some b → Completes (.fciRxFrame m sax) s fun u =>
         u.mills = ((w.joinEgress (portOf f.port) { f with bytes := b, att := none }).retry m).mills)
       ∧ (v.out = none → Completes (.fciRxFrame m sax) s fun u => u.mills = ((w.dropRx m f).retry m).mills))
     ∧ (∀ rx w, s.cipherHead m sax.val rx = some f → (s.takeCipher m f).cipherDrop m f (s.saEff sax.val) = some w →
       Completes (if rx then .fciRxFrame m sax else .fciTxFrame m sax) s fun u => u.mills = (w.retry m).mills)
     ∧ (s.millLive m = true → Completes (.threshFifoRead m) s fun u =>
         u.mills = (s.modSac m fun x => { x with thFifo := x.thFifo.drop 1, thOvf := false }).mills
         ∧ Out.regRead 0 (Reg.fci m 0x20) (BitVec.ofNat 32 (((s.sac m).thFifo.headD 0) + b2n (s.sac m).thOvf * 2 ^ 30
           + if (s.sac m).thFifo = [] then 0 else 2 ^ 31)) ∈ u.out))
  ∧
  (∀ (s : State) (m : Fin 4) (sax k : Nat) (c : Bytes) (f : Frame),
     c.length = 256 → (s.sac m).find sax = some k → (s.sac m).ctx sax = some c → (takeoverJump c s.mte.tko.toNat).2 = false →
     let j := (takeoverJump c s.mte.tko.toNat).1
     (ctxLe c 100 2 = s.mte.tko.toNat → j = c)
     ∧ ∃ c', ((s.cipherTx m sax c f).sac m).way k = some { sax := sax, ctx := c', used := true }
       ∧ (ctxSpent j = false → ctxPn c' = (ctxPn j + 1) % 2 ^ 64)
       ∧ (ctxSpent j = true → ctxPn c' = ctxPn j ∧ ((s.cipherTx m sax c f).trib = s.trib)))

/-- R118, R147: what is enciphered under a key and an IV deciphers, under the same, to what it was, with the same tag. R346, R357, R358: a
line of 32 bytes written under a region key reads back as it was written, at its address and counters. R347, R348: the code of a
stored line finds nothing in the line as it was stored, and a single bit of the ciphertext or of the tag that has changed is put right
(which columns the code has is the model's choice: log entry 121). -/
def Obligations.WhatIsStoredReadsBack : Prop :=
  (∀ (key iv aad p : Bytes), (key.length = 16 ∨ key.length = 32) → iv.length = 12 →
     gcmDec key iv aad (gcmEnc key iv aad p).1 = (p, (gcmEnc key iv aad p).2))
  ∧
  (∀ (key : Bytes) (r : Fin 8) (c : Fin 4) (l major minor : Nat) (p : Bytes), (key.length = 16 ∨ key.length = 32) → p.length = 32 →
     openLine key r c l major minor (sealLine key r c l major minor p) = some p)
  ∧
  (∀ (l tag i : Nat) (ct : Bytes), ct.length = 32 → tag < 2 ^ 20 →
     let x : StoredLine := { ct := ct, tag := tag, ecc := eccOf (codeBits l ct tag) }
     eccDecode l x = .clean
     ∧ (i < 256 → eccDecode l { x with ct := flipBit ct i } = .corrected x)
     ∧ (i < 20 → eccDecode l { x with tag := Nat.xor tag (2 ^ i) } = .corrected x))

/-! ## Instructions on associations -/

/-- R156, R161: READ gives an SA's report to the host, RETIRE ends the taking of frames. PIN completes at once where the context is
resident; where it is away it pends: on the fetch that it starts, or on a way. R156, R169: the rest of an SA's life. A retire ends
when no frame refers to its SA: the counters go to the host, the directory entry is EMPTY and zeros go over the context. A sweep that
runs ends with every orphaned SA marked. -/
def Obligations.SasAreReadAndEnd : Prop :=
  (∀ (s : State) (r : Rid) (d : Desc),
     let m := r.eng
     let sax := saxOf d
     (s.Takes r 0x02 (· = 0) d → s.hstLive = true → checkSaret s m d = none → (s.saReport m sax).2 = none →
       Completes (.saretRead r false) s (fun u => s.Records u (d.ref r) 0 ∧ u.mills = s.mills
         ∧ Out.hostWrite (ringPf r).val (d.arg 0 8) (s.saReport m sax).1 ∈ u.out)
       ∧ Completes (.saretRead r true) s fun u => s.Records u (d.ref r) 0x19 ∧ u.mills = s.mills)
     ∧ (s.Takes r 0x02 (· = 1) d → checkSaret s m d = none → (s.sac m).awaited sax = false →
       Completes (.saretRetire r) s fun u => u.Pends (d.ref r) ∧ u.sa = tset default sax { s.saAt sax with st := .retiring } s.sa
         ∧ (u.sac m).retires = (s.sac m).retires ++
           [{ ref := d.ref r, sax := sax, addr := d.arg 0 8, lost := decide (s.saEff sax = .faulted) }])
     ∧ (s.Takes r 0x03 (· = 0) d → ((s.scAt d.p2).valid = true → (s.scAt d.p2).mill = m) → saMissing (s.saEff sax) = false →
       s.saEff sax ≠ .faulted → ((s.saAt sax).pinned = true ∨ s.pinnedIn m sax < 6) →
       let w := s.setSa sax { s.saAt sax with pinned := true }
       (((s.sac m).ctx sax).isSome = true → Completes (.sapinPin r) s fun u => s.Records u (d.ref r) 0 ∧ u.sa = w.sa)
       ∧ ((s.sac m).find sax = none → (s.sac m).awaited sax = false → (s.sac m).missOut < 64 →
         (w.pickWay m sax = none → (s.sac m).victim sax = none →
           Completes (.sapinPin r) s fun u => u.Pends (d.ref r) ∧ u.sa = w.sa ∧ (u.sac m).pins = (s.sac m).pins ++ [(d.ref r, sax)]
             ∧ (u.sac m).fillWait = (s.sac m).fillWait ++ [{ sax := sax, entry := true, att := false }])
         ∧ (∀ k, w.pickWay m sax = some k → ((w.evict m k).sac m).victim sax = none →
           Completes (.sapinPin r) s fun u => u.Pends (d.ref r) ∧ u.sa = (w.evict m k).sa
             ∧ (u.sac m).pins = (s.sac m).pins ++ [(d.ref r, sax)]
             ∧ (u.sac m).fetches = (s.sac m).fetches ++ [{ sax := sax, wid := (w.evict m k).mem.nextWid }]))))
  ∧
  (∀ (s : State) (m : Fin 4) (sax : Fin 65536),
     (∀ e, (s.sac m).retires.find? (fun x => decide (x.sax = sax.val)) = some e → s.sacRefs m sax.val = false → s.hstLive = true →
       Completes (.saRetireComplete m sax false) s fun u =>
         Out.hostWrite (ringPf e.ref.rid).val e.addr (if e.lost then lostReport else (s.saReport m sax.val).1) ∈ u.out
         ∧ (u.sac m).retires = (s.sac m).retires.filter (fun y => decide (y.sax ≠ sax.val))
         ∧ ({ sax := sax.val, ctx := List.replicate 256 0, wid := s.mem.nextWid, retire := true } : Victim) ∈ (u.sac m).writes
         ∧ ((s.sac m).fillWait = [] → u.sa = tset default sax.val {} s.sa))
     ∧ (s.kst.sweeping = true → Completes .orphanSweepDone s fun u => u.sa = s.sweep.sa ∧ u.kst = { s.kst with sweeping := false }))

/-! ## Command rings (chapter 7) -/

/-- R211, R212, R213, R215, R228: the ring registers. The owner's doorbell sets the producer index, or DB_ERR where it runs past the ring;
enabling starts an idle ring afresh, disabling stops it, CUR_CQHEAD makes room; the other function's write is ignored as locked. A
function selects a version it knows while its rings are off. R210, R212, R214: a descriptor that is read joins the ring behind those
fetched and advances its consumer index; a read that fails or gets no answer in time halts the ring, which owes a record of status
0x19 or 0x1A. -/
def Obligations.RingsTakeDescriptors : Prop :=
  (∀ (s : State) (r : Rid) (pf : Fin 2) (v : W32), s.engLive r.eng = true →
     (pf = ringPf r →
       Completes (.ringDoorbell pf r v) s (fun u => u.cur = (s.modRing r fun g =>
         if (v.setWidth 16 - g.cons).toNat ≤ s.ringSize r then { g with prod := v.setWidth 16 } else { g with dbErr := true }).cur)
       ∧ ((s.ring r).en = false → s.abiSel (ringPf r) ≠ 0 → s.ringPend r = 0 → Completes (.ringEnable pf r) s fun u => u.cur =
         (s.modRing r fun g => { g with
           en := true, prod := 0, cons := 0, cqHead := 0, cqTail := 0, phase := true, halt := false, dbErr := false
           fetched := [], hold := none, waiting := false, mute := false }).cur)
       ∧ Completes (.ringDisable pf r) s (fun u => u.cur = (s.modRing r fun g => { g with en := false }).cur)
       ∧ Completes (.cqHeadWrite pf r v) s (fun u => (u.ring r).cqHead = v.setWidth 16))
     ∧ (pf ≠ ringPf r →
       Completes (.ringDoorbell pf r v) s (fun u => Only settled s u) ∧ Completes (.ringEnable pf r) s (fun u => Only settled s u)
       ∧ Completes (.ringDisable pf r) s (fun u => Only settled s u) ∧ Completes (.cqHeadWrite pf r v) s (fun u => Only settled s u))
     ∧ (∀ (f : Fin 2) (x : Fin 16), pf = f → s.ringsOff f = true → 1 ≤ x.val → x.val ≤ 2 →
       Completes (.abiSelect pf f x) s fun u => u.regs = (s.setFld (Reg.cur 0) (16 + 4 * f.val) 4 x.val).regs))
  ∧
  (∀ (s : State) (r : Rid), s.fetchDue r = true →
     (∀ bs, 4 ≤ r.ring.val → Completes (.descriptorFetch r (.data bs)) s fun u =>
       (u.ring r).fetched = (s.ring r).fetched ++ [{ index := (s.ring r).cons.toNat, raw := padTo 16 bs }] ∧ (u.ring r).cons = (s.ring r).cons + 1)
     ∧ (∀ bs, r.ring.val < 4 → let d : Desc := { index := (s.ring r).cons.toNat, raw := padTo 128 bs }
       d.malformed (s.abiSel (ringPf r)) = none → (∀ x ∈ (s.ring r).fetched, x.malformed (s.abiSel (ringPf r)) = none) →
       Completes (.descriptorFetch r (.data bs)) s fun u =>
         (u.ring r).fetched = (s.ring r).fetched ++ [d] ∧ (u.ring r).cons = (s.ring r).cons + 1)
     ∧ Completes (.descriptorFetch r .error) s (fun u => (u.ring r).halt = true ∧ (u.ring r).done =
         (s.ring r).done ++ [{ tag := 0, status := 0x19, index := (s.ring r).cons.toNat, irq := true }])
     ∧ Completes (.dmaTimeout r) s (fun u => (u.ring r).halt = true ∧ (u.ring r).done =
         (s.ring r).done ++ [{ tag := 0, status := 0x1A, index := (s.ring r).cons.toNat, irq := true }]))

/-- R208, R213, R217: what the mill has applied gives its record, status OK. The oldest record of a ring is written to the slot at the
completion queue's tail, under the ring's function, with the phase of this round; the tail advances and the phase turns at the wrap.
R220, R221: a batch at the head of a ring is taken whole. Where it breaks a rule of batches its first offender gets BATCH_INVALID and
the rest ABORTED; where an instruction fails its check, each gets its own status or ABORTED; in both cases no instruction has an
effect. Otherwise each takes its effect, in order, and none outside the batch in between. R206, R211, R226, R405: an instruction that
the common checks refuse completes with their status and changes nothing but its ring; a `WAITT` halts its ring as well (R214). One
that fails its own check completes with that status and changes nothing else. (`READ` of an SA waits for the host interface; key
transfers wait while the key store is closed.) -/
def Obligations.RecordsAndBatches : Prop :=
  (∀ s : State,
     (∀ (k : Fin 4) (a : Applying) (as : List Applying), s.cur[k].applying = a :: as →
       Completes (.curApplyDone k) s fun u => u.cur[k].applying = as
         ∧ s.Records u a.ref 0 a.result.toNat a.late)
     ∧ (∀ (r : Rid) (x : Rec) (xs : List Rec), (s.ring r).done = x :: xs → s.engLive r.eng = true → s.hstLive = true → s.cqFull r = false → s.acked x = true →
       let slot := (s.ring r).cqTail.toNat % s.cqSize r
       Completes (.completionRecordWrite r) s fun u =>
         Out.hostWrite (ringPf r).val (s.cqBase r + 16 * slot) (x.bytes (s.ring r).phase) ∈ u.out
         ∧ (u.ring r).cqTail = (s.ring r).cqTail + 1
         ∧ (u.ring r).phase = (if slot + 1 = s.cqSize r then !(s.ring r).phase else (s.ring r).phase)
         ∧ ∃ new, (u.ring r).done = xs ++ new))
  ∧
  (∀ (s : State) (r : Rid) (ds : List Desc), s.turn r = true → s.batchHead r = true → batchRun (s.ring r).fetched = some ds →
     (∀ i, batchOffender ds = some i → Completes (.batchStart r) s fun u => Only (alsoIn [.cur]) s u
       ∧ ∀ j (h : j < ds.length), s.Records u (ds[j].ref r) (if j = i then 0x18 else 0x17))
     ∧ (batchOffender ds = none → (∃ d ∈ ds, s.batchCheck r d ≠ none) → Completes (.batchStart r) s fun u => Only (alsoIn [.cur]) s u
       ∧ ∀ d ∈ ds, s.Records u (d.ref r) ((s.batchCheck r d).getD 0x17))
     ∧ (batchOffender ds = none → (∀ d ∈ ds, s.batchCheck r d = none) → Completes (.batchStart r) s fun u =>
       let w := ds.foldl (fun s d => s.acceptOne r d) ((s.modRing r fun g => { g with fetched := g.fetched.drop ds.length }).modEng r.eng
         fun e => { e with rr := r.ring.val })
       u.mills = w.mills ∧ u.trib = w.trib ∧ u.sa = w.sa ∧ u.sc = w.sc ∧ u.tim = w.tim
       ∧ u.cur[r.eng].applying.length = s.cur[r.eng].applying.length + ds.length))
  ∧
  (∀ (i : Instr) (s : State) (r : Rid) (mop : Nat) (op : Nat → Bool) (d : Desc) (st : Nat),
     ringForm i = some (r, mop, op) → s.headFor r mop op = some d → s.hstLive = true →
     (s.gate r d = some st → Completes i s fun u =>
       s.Records u (d.ref r) st ∧ Only (alsoIn [.cur]) s u ∧ (mop = 0x38 → (u.ring r).halt = true))
     ∧ (s.gate r d = none → s.kstClosed = false → ownCheck s d i = some st → Completes i s fun u =>
       s.Records u (d.ref r) st ∧ Only (alsoIn [.cur]) s u))

/-- R223, R489: a `WAITT` whose time, or ream, has passed completes at once with LATE; one that cannot be reached fails and halts its
ring; any other holds its ring, is released when the time or the ream comes, and ends with TIMEOUT when MAXWAIT runs out first. R225,
R226, R227, R218: a `FENCE` with nothing to await completes at once, otherwise it holds its ring until everything it awaits is DONE;
EPOCH READ gives epoch and role, EPOCH ASSERT passes where the epoch agrees; `NOTIFY` returns its value. -/
def Obligations.WaitsFencesAndEpochs : Prop :=
  (∀ (s : State) (r : Rid),
     (∀ (d : Desc) (t : Nat), s.Takes r 0x38 (· = 0) d → d.time = some t → let b : Fin 8 := ⟨d.p1 % 8, by omega⟩
       (s.tbRun b = false → Completes (.waittTime r) s fun u => s.Records u (d.ref r) 0x1C ∧ (u.ring r).halt = true)
       ∧ (s.tbRun b = true → t ≤ (s.tbAt b).val → Completes (.waittTime r) s fun u => s.Records u (d.ref r) 0 0 true)
       ∧ (s.tbRun b = true → (s.tbAt b).val < t → Completes (.waittTime r) s fun u => u.Pends (d.ref r)
         ∧ (u.ring r).hold = some (.time (d.ref r) b t (decide (d.p2 ≠ 0)) (s.tbAt b).steps)))
     ∧ (∀ d : Desc, s.Takes r 0x38 (· = 1) d → let target := BitVec.ofNat 32 (d.arg 0 4); let gap := (target - (s.line r.eng).rc).toNat
       (s.txEn r.eng = false → Completes (.waittReam r) s fun u => s.Records u (d.ref r) 0x24 ∧ (u.ring r).halt = true)
       ∧ (s.txEn r.eng = true → gap = 0 ∨ 2 ^ 31 ≤ gap → Completes (.waittReam r) s fun u => s.Records u (d.ref r) 0 0 true)
       ∧ (s.txEn r.eng = true → 0 < gap → gap < 2 ^ 31 → Completes (.waittReam r) s fun u => u.Pends (d.ref r)
         ∧ (u.ring r).hold = some (.ream (d.ref r) target (decide (d.p2 ≠ 0)))))
     ∧ (∀ ref b t x n, (s.ring r).hold = some (.time ref b t x n) → ref.rid = r → s.tbRun b = true →
       (t ≤ (s.tbAt b).val → Completes (.waittRelease r) s fun u => s.Records u ref 0 ∧ (u.ring r).hold = none)
       ∧ ((s.tbAt b).val < t → x = true → Completes (.waittTimeout r) s fun u =>
         s.Records u ref 0x1A ∧ (u.ring r).hold = none ∧ (u.ring r).halt = true))
     ∧ (∀ ref t x, (s.ring r).hold = some (.ream ref t x) → ref.rid = r →
       (((s.line r.eng).rc - t).toNat < 2 ^ 31 → Completes (.waittRelease r) s fun u => s.Records u ref 0 ∧ (u.ring r).hold = none)
       ∧ (2 ^ 31 ≤ ((s.line r.eng).rc - t).toNat → x = true → Completes (.waittTimeout r) s fun u =>
         s.Records u ref 0x1A ∧ (u.ring r).hold = none ∧ (u.ring r).halt = true)))
  ∧
  (∀ (s : State) (r : Rid) (d : Desc),
     (s.Takes r 0x39 (fun _ => true) d → s.fenceSet r d.p1 = [] → Completes (.fence r) s fun u => s.Records u (d.ref r) 0)
     ∧ (s.Takes r 0x39 (fun _ => true) d → s.fenceSet r d.p1 ≠ [] → Completes (.fence r) s fun u => u.Pends (d.ref r)
       ∧ (u.ring r).hold = some (.fence (d.ref r) (s.fenceSet r d.p1)))
     ∧ (∀ ref cs, (s.ring r).hold = some (.fence ref cs) → ref.rid = r → s.stillOut cs = false →
       Completes (.fenceDone r) s fun u => s.Records u ref 0 ∧ (u.ring r).hold = none)
     ∧ (s.Takes r 0x3A (· = 0) d → Completes (.epochRead r) s fun u =>
       s.Records u (d.ref r) 0 (s.mte.epoch.toNat + 2 ^ 32 * s.role) ∧ Only (alsoIn [.cur]) s u)
     ∧ (s.Takes r 0x3A (· = 1) d → s.mte.epoch.toNat = d.arg 0 4 → Completes (.epochAssert r) s fun u =>
       s.Records u (d.ref r) 0 ∧ Only (alsoIn [.cur]) s u)
     ∧ (s.Takes r 0x3B (fun _ => true) d → Completes (.notify r) s fun u =>
       s.Records u (d.ref r) 0 (d.arg 0 8) ∧ Only (alsoIn [.cur]) s u))

/-! ## Queue settings, moves and gate lists (chapters 1 and 8) -/

/-- R241, R242, R247, R248: `SHPSET` and `POLSET` set a bucket pair: the tokens gained up to now at the old rates are kept within the new
bursts, or both buckets are full where a full start is asked for or the shaper or policer was off. R21, R22, R249, R250: `QCFG`
ACTIVATE gives an inactive tributary to the ring's mill with the settings named, UPDATE changes the settings of an active one,
DEACTIVATE flushes what it holds and leaves it as at reset. -/
def Obligations.TributariesAreConfigured : Prop :=
  (∀ (s : State) (r : Rid) (d : Desc),
     let m := r.eng
     (s.Takes r 0x28 (fun _ => true) d → checkShpset s m d = none →
       let en := natBit (d.arg 16 1) 0
       let t := s.tribAt d.p2
       Completes (.shpset r) s fun u => s.Applies u r d
         ∧ u.trib = (s.setShaper m d.p2 en (d.buckets t.sh s.now (natBit (d.arg 16 1) 1 || (en && !t.shEn)))).trib
         ∧ u.mills = (s.setShaper m d.p2 en (d.buckets t.sh s.now (natBit (d.arg 16 1) 1 || (en && !t.shEn)))).mills)
     ∧ (s.Takes r 0x29 (fun _ => true) d → checkPolset s m d = none →
       let old := s.policerAt m d.p2
       Completes (.polset r) s fun u => s.Applies u r d ∧ (u.sch m).policers = tset default d.p2
         (if natBit (d.arg 16 1) 0 then
           { en := true, aware := natBit (d.arg 16 1) 1, yellow := d.arg 18 1 % 4, yellowCls := natBits (d.arg 18 1) 4 3
             red := d.arg 19 1 % 4, redCls := natBits (d.arg 19 1) 4 3, b := d.buckets old.b s.now (natBit (d.arg 16 1) 2 || !old.en) }
         else {}) (s.sch m).policers)
     ∧ (∀ (b : Buckets) (fill : Bool), let x := d.buckets b s.now fill
       x.cir = d.arg 0 4 ∧ x.cbs = d.arg 4 4 ∧ x.pir = d.arg 8 4 ∧ x.pbs = d.arg 12 4 ∧ x.tick = s.now
       ∧ x.tc ≤ (x.cbs * byteU : Nat) ∧ x.tp ≤ (x.pbs * byteU : Nat)
       ∧ (fill = true → x.tc = (x.cbs * byteU : Nat) ∧ x.tp = (x.pbs * byteU : Nat))
       ∧ (fill = false → x.tc ≤ b.tc + (b.cir * (s.now - b.tick) : Nat) ∧ x.tp ≤ b.tp + (b.pir * (s.now - b.tick) : Nat))))
  ∧
  (∀ (s : State) (r : Rid) (d : Desc),
     let m := r.eng
     (s.Takes r 0x2A (· = 0) d → checkQcfgActivate s m d = none →
       Completes (.qcfgActivate r) s fun u => s.Applies u r d ∧ u.mills = (s.startStream m d.p2).mills ∧ u.trib = tset default d.p2
         { active := true, mill := m, pool := d.pool, route := d.route, quantum := d.arg 4 4, qlim := d.arg 8 2, grant := d.arg 10 2 } s.trib)
     ∧ (s.Takes r 0x2A (· = 1) d → checkQcfgDeactivate s m d = none →
       Completes (.qcfgDeactivate r) s fun u => s.Applies u r d ∧ u.mills = (s.stopTrib m d.p2).mills
         ∧ u.trib = tset default d.p2 {} (s.endMove d.p2).trib ∧ u.tribOld = (s.stopTrib m d.p2).tribOld)
     ∧ (s.Takes r 0x2A (· = 2) d → checkQcfgUpdate s m d = none →
       let w := s.updateTrib m d.p2 d.pool d.route (d.arg 4 4) (d.arg 8 2) (d.arg 10 2)
       Completes (.qcfgUpdate r) s fun u => s.Applies u r d ∧ u.mills = w.mills ∧ u.trib = w.trib))

/-- R37, R38, R40, R219: a move gives the tributary to the ring's mill at once; its old side keeps what was queued and sends it (DRAIN),
or discards it (FLUSH), and owes its far end one END cell (R56, log entry 112). The new side waits until the old one is
empty; then the move is DONE with OK. R231, R251, R255, R260: the MAC of a free port begins the head of the highest queue that may
send, after the heads that fit no window are gone, and the frame leaves the die where the port's transmitters send (R375); a follower
of its mate discards it. When the frame has left, its units are free and its credit goes back. -/
def Obligations.TributariesMoveAndFramesLeave : Prop :=
  (∀ (s : State) (r : Rid) (d : Desc),
     let m := r.eng
     let old : Fin 4 := ⟨d.p1 % 4, by omega⟩
     let w := (s.endMove d.p2).startMove m old d.p2 (d.ref r)
     (s.Takes r 0x2A (· = 3) d → s.moveCheck m d = none → Completes (.qcfgMoveDrain r) s fun u =>
       u.Pends (d.ref r) ∧ u.trib = w.trib ∧ u.tribOld = w.tribOld ∧ u.mills = w.mills)
     ∧ (s.Takes r 0x2A (· = 4) d → s.moveCheck m d = none →
       let o : Trib := tget default w.tribOld d.p2
       Completes (.qcfgMoveFlush r) s fun u => u.Pends (d.ref r) ∧ u.trib = w.trib
         ∧ u.tribOld = tset default d.p2 { o with queue := [], stream := {}, list := none } w.tribOld ∧ u.mills = ((w.endTx old d.p2 o).oweEnd old d.p2 o).mills)
     ∧ (∀ n : Fin 16384, let o : Trib := tget default s.tribOld n.val
       o.active = true → o.queue = [] → o.stream.left = [] → Completes (.moveQueueEmpty n) s fun u =>
         u.trib = ((s.endMove n.val).wake (s.tribAt n.val).mill n.val).trib ∧ u.tribOld = ((s.endMove n.val).wake (s.tribAt n.val).mill n.val).tribOld
         ∧ ∀ ref, (s.tribAt n.val).move = some ref → s.Records u ref 0))
  ∧
  (∀ (s : State) (p : Fin 32), s.millLive (portMill p) = true →
     (∀ q f, s.portOn p = true → (s.port p).sending = none → let w := s.dropAllLong p
       (List.finRange 8).reverse.find? (w.mayStart p) = some q → (w.port p).queues[q].head? = some f →
       let v := w.modPort p fun x => { x with queues := x.queues.set q (x.queues[q].drop 1) }
       (w.shadowing = false → Completes (.egressFrameStart p) s fun u => u.mills = (v.sendFrame p f).mills
         ∧ ∃ b, (u.port p).sending = some { f with f := b } ∧ (w.portSends p = true → Out.clientFrame p.val b.bytes ∈ u.out))
       ∧ (w.shadowing = true → Completes (.egressFrameStart p) s fun u => u.mills = (v.releaseEg (portMill p) f).mills))
     ∧ (s.portOn p = true → (s.port p).sending = none → (∀ q : Fin 8, (s.dropAllLong p).mayStart p q = false) →
       Completes (.egressFrameStart p) s fun u => u.mills = (s.dropAllLong p).mills)
     ∧ (∀ q, (s.port p).sending = some q → Completes (.egressFrameEnd p) s fun u =>
       (u.port p).sending = none ∧ (u.sch (portMill p)).egUsed = (s.sch (portMill p)).egUsed - q.units
       ∧ u.mills = ((s.modPort p fun x => { x with sending := none }).releaseEg (portMill p) q).mills))

/-- R252, R253, R254: gate lists. `GCLADM` reads the entries and leaves them as the port's administrative list; `GCLGO` makes that list
pending, its start moved on by whole cycles where it would come in less than 2 µs; at its start the pending list becomes operational;
the entry in force is that of the position in the cycle, which repeats, and moves with a step of its time base (R256). R269, R270,
R489: `TBSTEP` sets a time base to a time, or moves it by a signed amount, keeps the sum of its steps, and sets its STEP bit; every
other time base keeps its time. -/
def Obligations.GatesFollowTheTimeBase : Prop :=
  (∀ (s : State) (r : Rid) (d : Desc),
     let m := r.eng
     let p := gclPort d
     (∀ t, s.Takes r 0x20 (fun _ => true) d → portMill p = m → d.time = some t → 1 ≤ d.arg 16 2 → d.arg 16 2 ≤ 1024 →
       1000 ≤ d.arg 12 4 → d.arg 12 4 ≤ 1000000000 → (s.port p).pend = none →
       (∀ bs es, gclEntries (d.arg 16 2) bs = some es → Completes (.gcladm r (.data bs)) s fun u => s.Records u (d.ref r) 0
         ∧ u.mills = (s.modPort p fun x => { x with admin := some { tb := gclTb d, base := t / nsU, cycle := d.arg 12 4, entries := es } }).mills)
       ∧ (∀ bs, gclEntries (d.arg 16 2) bs = none → Completes (.gcladm r (.data bs)) s fun u => s.Records u (d.ref r) 0x70 ∧ u.mills = s.mills)
       ∧ Completes (.gcladm r .error) s (fun u => s.Records u (d.ref r) 0x19 ∧ u.mills = s.mills)
       ∧ Completes (.gcladm r .timeout) s (fun u => s.Records u (d.ref r) 0x1A ∧ u.mills = s.mills))
     ∧ (∀ g, s.Takes r 0x21 (fun _ => true) d → checkGclgo s m d = none → (s.port p).admin = some g →
       let n := g.lateBy (s.tbAt g.tb).val
       Completes (.gclgo r) s fun u => s.Applies u r d n (!g.onTime (s.tbAt g.tb).val)
         ∧ u.mills = (s.modPort p fun x => { x with admin := none, pend := some { g with base := g.base + n * g.cycle } }).mills)
     ∧ (∀ q g, s.millLive (portMill q) = true → (s.port q).pend = some g → g.base * nsU ≤ (s.tbAt g.tb).val →
       Completes (.gateListStart q) s fun u => u.mills = (s.modPort q fun x => { x with oper := some g, pend := none, entry := g.index (s.tbAt g.tb).val }).mills)
     ∧ (∀ q g, s.millLive (portMill q) = true → (s.port q).oper = some g → g.index (s.tbAt g.tb).val ≠ (s.port q).entry →
       Completes (.gateEntryChange q) s fun u => u.mills = (s.modPort q fun x => { x with entry := g.index (s.tbAt g.tb).val }).mills)
     ∧ (∀ q g x, (s.port q).oper = some g → (s.port q).pend = none →
       ((s.stepTb g.tb x).port q).entry = g.index ((s.stepTb g.tb x).tbAt g.tb).val)
     ∧ (∀ (g : GateList) (t : Nat), 1 ≤ g.cycle → g.states (t + g.cycle * nsU) = g.states t))
  ∧
  (∀ (s : State) (r : Rid) (d : Desc),
     let b := tbOf d
     let stepped := fun (u : State) (v : Int) => ((u.tbAt b).val : Int) = v % (tbWrap : Int)
       ∧ (u.tbAt b).steps = (s.tbAt b).steps + (v - (s.tbAt b).val) ∧ (u.tbAt b).stepAt = some s.now
       ∧ u.regs = (s.setBit (Reg.tim (0x40 * b.val)) 8).regs ∧ ∀ c, c ≠ b → u.tbAt c = s.tbAt c
     (∀ t, s.Takes r 0x30 (· = 1) d → d.time = some t →
       Completes (.tbstepAbs r) s fun u => s.Records u (d.ref r) 0 ∧ stepped u t)
     ∧ (s.Takes r 0x30 (· = 0) d → s.tbRun b = true →
       Completes (.tbstepRel r) s fun u => s.Records u (d.ref r) 0
         ∧ stepped u ((s.tbAt b).val + (sext 64 (d.arg 0 8) * nsU + (d.arg 8 2 * 2 ^ 24 : Nat)))))

/-! ## Time (chapter 9) -/

/-- R271, R272, R273, R274: the servo of a time base. GAINS sets it and clears its integrator; ENABLE and DISABLE leave rate and
integrator; an offset, from `TBSERVO` or from the source it follows, steps the base where it passes the step threshold, and sets the
rate otherwise. R267, R268, R130: a time base runs while its RUN bit is 1; where it is cleared, every line key arm by time on it ends
with TB_DISABLED. A read of FRAC returns the fraction and latches the rest of the time. -/
def Obligations.TimeBasesRunAndSteer : Prop :=
  (∀ (s : State) (r : Rid) (d : Desc),
     let b := tbOf d
     let t := s.tbAt b
     (s.Takes r 0x31 (· = 0) d → checkGains s r.eng d = none →
       Completes (.tbservoGains r) s fun u => s.Records u (d.ref r) 0 ∧ u.tim.tb = s.tim.tb.set b { t with
         kp := BitVec.ofNat 16 (d.arg 0 2), ki := BitVec.ofNat 16 (d.arg 2 2), ilim := d.arg 4 4, stepTh := d.arg 8 4
         interval := d.arg 12 2, integ := 0
         src := ⟨d.arg 14 1 % 8, by omega⟩, srcTb := ⟨d.arg 14 1 / 16 % 8, by omega⟩ })
     ∧ (s.Takes r 0x31 (· = 2) d → Completes (.tbservoEnable r) s fun u =>
       s.Records u (d.ref r) 0 ∧ u.tim.tb = s.tim.tb.set b { t with servoEn := true } ∧ u.regs = s.regs)
     ∧ (s.Takes r 0x31 (· = 3) d → Completes (.tbservoDisable r) s fun u =>
       s.Records u (d.ref r) 0 ∧ u.tim.tb = s.tim.tb.set b { t with servoEn := false } ∧ u.regs = s.regs)
     ∧ (s.Takes r 0x31 (· = 1) d → t.src = 0 → t.servoEn = true → Completes (.tbservoOffset r) s fun u =>
       s.Records u (d.ref r) 0 ∧ u.tim.tb = (s.servoOffset b (sext 64 (d.arg 0 8))).tim.tb
         ∧ u.regs = (s.servoOffset b (sext 64 (d.arg 0 8))).regs)
     ∧ (∀ c : Fin 8, let x := s.tbAt c
       let th : Int := (x.val / 2 ^ 24 : Nat) - ((s.tbAt x.srcTb).val / 2 ^ 24 : Nat)
       s.timLive = true → x.servoEn = true → x.src = 6 → s.mte.st ≠ .standby → x.stepAt ≠ some s.now →
       Completes (.servoInterval c) s fun u => u.tim.tb = (s.servoOffset c th).tim.tb ∧ u.regs = (s.servoOffset c th).regs)
     ∧ (∀ (c : Fin 8) (th : Int), let x := s.tbAt c
       (x.stepTh ≠ 0 → x.stepTh * 65536 < th.natAbs →
         ((((s.servoOffset c th).tbAt c).val : Nat) : Int) = ((x.val : Int) - th * 2 ^ 24) % (tbWrap : Int)
         ∧ ((s.servoOffset c th).tbAt c).integ = x.integ)
       ∧ (x.stepTh = 0 ∨ th.natAbs ≤ x.stepTh * 65536 →
         ((s.servoOffset c th).tbAt c).val = x.val
         ∧ ((s.servoOffset c th).tbAt c).integ = max (-((x.ilim * 2 ^ 30 : Nat) : Int)) (min ((x.ilim * 2 ^ 30 : Nat) : Int) (x.integ + x.ki.toNat * th)))))
  ∧
  (∀ (s : State) (b : Fin 8), s.timLive = true →
     Completes (.tbRunSet b) s (fun u => u.regs = (s.setBit (Reg.tim (0x40 * b.val)) 0).regs ∧ Only (alsoIn [.status]) s u)
     ∧ (s.canonical = true → s.tbRun b = true → Completes (.tbRunClear b) s fun u => u.regs = (s.setBit (Reg.tim (0x40 * b.val)) 0 false).regs
       ∧ (∀ m : Fin 4, ∀ a t ref, (s.lci m).arm = some a → a.time = some t → a.ref = some ref → s.lciTb m = b →
         s.Records u ref 0x1C ∧ (u.lci m).arm = none)
       ∧ ∀ m : Fin 4, ((s.lci m).arm = none ∨ s.lciTb m ≠ b) → (u.lci m) = s.lci m)
     ∧ Completes (.tbRead b) s (fun u => Out.regRead 0 (Reg.tim (0x40 * b.val + 8)) (BitVec.ofNat 32 (tbFrac (s.tbAt b).val)) ∈ u.out
       ∧ u.hst.latch = tins (Reg.tim (0x40 * b.val + 20)) (BitVec.ofNat 32 (tbSec (s.tbAt b).val / 2 ^ 32))
         (tins (Reg.tim (0x40 * b.val + 16)) (BitVec.ofNat 32 (tbSec (s.tbAt b).val % 2 ^ 32))
           (tins (Reg.tim (0x40 * b.val + 12)) (BitVec.ofNat 32 (tbNs (s.tbAt b).val)) s.hst.latch))
       ∧ u.tim = s.tim))

/-- R289, R290, R291, R415: trigger outputs. `TRIGSET` programmes an output; at its time the pulse rises and its fall is fixed one width
later; it falls; with a period the next rise is one period after this one. PPS_OUT rises at a whole second of its time base and falls
its width in ms later. The pin moves with them where the device holds the line grant. R286, R287, R291: a selected edge of a capture
channel enters its queue of 16 with its stamp, or is lost and marked; a read of W0 takes the oldest entry, with the mark, and latches
its other words; an entry of a match table unused for 1 s is freed. -/
def Obligations.TriggersAndStamps : Prop :=
  (∀ (s : State),
     (∀ (r : Rid) (d : Desc), s.Takes r 0x32 (fun _ => true) d → checkTrigset s r.eng d = none →
       Completes (.trigset r) s fun u => s.Records u (d.ref r) 0 (s.trigPlan d).2.1 (s.trigPlan d).2.2
         ∧ u.tim = (s.modTrig (trigOf d) fun _ => (s.trigPlan d).1).tim)
     ∧ (∀ k : Fin 8, let g := s.trig k
       s.timLive = true →
       (g.high = true → g.fallAt ≤ (s.tbAt g.fallTb).val → Completes (.triggerEdge k) s fun u =>
         u.tim = (s.modTrig k fun g => { g with high := false, active := g.more }).tim
         ∧ u.pads = (s.drivePin k.val false).pads ∧ (s.granted = true → Out.pin k.val false ∈ u.out))
       ∧ (g.high = false → g.active = true → g.more = true → g.next ≤ (s.tbAt g.tb).val → Completes (.triggerEdge k) s fun u =>
         u.tim = (s.modTrig k fun g => { g with
           high := true, fallAt := g.next + g.width, fallTb := g.tb, more := decide (g.period ≠ 0), next := g.next + g.period }).tim
         ∧ u.pads = (s.drivePin k.val true).pads ∧ (s.granted = true → Out.pin k.val true ∈ u.out)))
     ∧ (s.timLive = true → s.tim.ppsOut = true → s.tim.ppsFall ≤ (s.tbAt s.tim.ppsTb).val → Completes .ppsEdge s fun u =>
       u.tim = { s.tim with ppsOut := false } ∧ u.pads = (s.drivePin 8 false).pads)
     ∧ (∀ b : Fin 8, b.val = s.fld (Reg.tim 0x7F0) 0 3 →
       s.timLive = true → s.tim.ppsOut = false → s.bit (Reg.tim 0x7F0) 3 = true → s.wholeSecond b = true → Completes .ppsEdge s fun u =>
       u.tim = { s.tim with ppsOut := true, ppsTb := b, ppsFall :=
         (s.tbAt b).val - (s.tbAt b).val % (1000000000 * nsU) + s.fld (Reg.tim 0x7F0) 4 10 * 1000000 * nsU } ∧ u.pads = (s.drivePin 8 true).pads))
  ∧
  (∀ s : State, s.timLive = true →
     (∀ (k : Fin 5) (rising : Bool), let a := Reg.tim (0x900 + 0x20 * k.val)
       let q : Fin 9 := ⟨4 + k.val, by omega⟩
       let b : Fin 8 := ⟨s.fld a 0 3, by unfold State.fld natBits; omega⟩
       s.bit a (if rising then 3 else 4) = true →
       ((s.queueAt q).ents.length < 16 → Completes (.captureEdge k rising) s fun u =>
         (u.queueAt q).ents = (s.queueAt q).ents ++ [{ stamp := s.stamp b, port := b2n rising }])
       ∧ (16 ≤ (s.queueAt q).ents.length → Completes (.captureEdge k rising) s fun u =>
         u.tim = (s.modQueue q fun x => { x with ovf := true }).tim))
     ∧ (∀ (q : StampQ) (e : QEnt) (es : List QEnt), (s.queueAt (queueIdx q)).ents = e :: es → Completes (.stampQueueRead q) s fun u =>
       u.tim = (s.modQueue (queueIdx q) fun x => { x with ents := es, ovf := false }).tim
       ∧ Out.regRead 0 (queueAddr q) ((e.words (s.queueAt (queueIdx q)).ovf).headD 0) ∈ u.out)
     ∧ (∀ q : StampQ, (s.queueAt (queueIdx q)).ents = [] → Completes (.stampQueueRead q) s fun u =>
       u.tim = s.tim ∧ Out.regRead 0 (queueAddr q) 0 ∈ u.out)
     ∧ (∀ (t : Fin 36) (i : Fin 32), i.val < (s.tcTable t.val).length → Completes (.tcEntryExpire t i) s fun u =>
       u.tim = (s.setTcTable t.val ((s.tcTable t.val).eraseIdx i.val)).tim))

/-! ## External memory (chapter 12) -/

/-- R350, R351, R352: a channel is trained while no region holds a key: it goes down and its lines are lost; training ends with the
channel up, or failed at a step; a channel that can no longer be tracked fails. R307, R353, R354, R355, R356: PF1 loads a region from
a slot; while the key store does not serve loads the slot is kept for later. A failing check is its status; otherwise the region is in
INIT with the slot's key latched and its counters back at their start, until its draw has come and its lines are initialised: then it
is READY under the working key. PF1 unloads a region, but region 0 only without associations. PF0's writes are locked. -/
def Obligations.MemoryIsSetUp : Prop :=
  (∀ (s : State) (pf : Fin 2) (c : Fin 4),
     (s.memLive c = true → s.noKeys = true → (s.chan c).training = false → Completes (.memTrain pf c) s fun u => u.mem =
       (s.modChan c fun x => { x with training := true, trained := false, fail := false, lines := [] }).mem)
     ∧ (s.memLive c = true → s.noKeys = false ∨ (s.chan c).training = true → Completes (.memTrain pf c) s fun u => u.mem = s.mem)
     ∧ ((s.chan c).training = true →
       Completes (.memTrainDone c none) s (fun u => u.mem =
         (s.modChan c fun x => { x with training := false, trained := true, fail := false }).mem)
       ∧ ∀ k, Completes (.memTrainDone c (some k)) s fun u => u.mem =
         (s.modChan c fun x => { x with training := false, fail := true, step := k.val }).mem)
     ∧ ((s.chan c).up = true → Completes (.memTrackFail c) s fun u => u.mem = (s.modChan c fun x => { x with fail := true }).mem))
  ∧
  (∀ (s : State) (r : Fin 8),
     (∀ v : W32, s.mgmtLive = true → natBit v.toNat 31 = true → s.loadWaits = true → Completes (.memRegionLoad 1 r v) s fun u =>
       u.mem = (s.modRgn r fun x => { x with unchecked := some (v.toNat % 2048) }).mem)
     ∧ (∀ v : W32, s.mgmtLive = true → natBit v.toNat 31 = true → s.loadWaits = false → s.loadDry = false →
       let w := s.setReg (Reg.mem (0x20C + 0x20 * r.val)) (v.toNat % 2048)
       (∀ st, w.regionCheck r (v.toNat % 2048) = some st → Completes (.memRegionLoad 1 r v) s fun u => u.mem =
         (s.modRgn r fun x => { x with lstatus := st, unchecked := none }).mem)
       ∧ (w.regionCheck r (v.toNat % 2048) = none → Completes (.memRegionLoad 1 r v) s fun u =>
         (u.rgn r).st = .init ∧ (u.rgn r).slot = v.toNat % 2048
         ∧ (u.rgn r).load = some (v.toNat % 2048, (s.slot (v.toNat % 2048)).key, (s.slot (v.toNat % 2048)).gen)))
     ∧ (∀ v : W32, s.mgmtLive = true → Completes (.memRegionLoad 0 r v) s fun u => Only settled s u)
     ∧ (s.mgmtLive = true → r ≠ 0 ∨ s.sa.any (fun e => decide (e.2.st ≠ .empty)) = false →
       Completes (.memRegionUnload 1 r) s fun u => (u.rgn r).st = .nokey ∧ u.mem = (s.rgnErase r).mem)
     ∧ (s.mgmtLive = true → r = 0 → s.sa.any (fun e => decide (e.2.st ≠ .empty)) = true →
       Completes (.memRegionUnload 1 r) s fun u => u.mem = s.mem ∧ u.regs = (s.setBit (Reg.mem 0x210) 4).regs)
     ∧ (∀ slot key gen bs, (s.rgn r).st = .init → (s.rgn r).load = some (slot, key, gen) → (s.rgn r).drawn = some bs →
       Completes (.memRegionReady r) s fun u => u.mem = (s.modRgn r fun x => { x with
         st := .ready, key := kdf key labelMemory (byteOf r.val :: bs) 256, load := none, drawn := none }).mem))

/-- R45, R349, R352, R353, R358, R360, R363, R364, R367: a channel serves reads and writes of lines. The request whose turn it is leaves
the queue; one that may not be served is answered with its status. A read is accepted, and answered with what the line gives; the
stored bits of a corrected line are rewritten. A write stores the line under the next minor counter and is acknowledged later; when the
minor counter is used up its page is rewritten under the next major counter. -/
def Obligations.LinesAreServed : Prop :=
  ∀ (s : State) (c : Fin 4),
    (∀ q y, s.pullReq c true = some (q, y) → let st := s.accessStatus q.master q.addr
      let w := s.modChan c fun _ => y
      (st = 0 → Completes (.memLineRead c) s fun u => u.mem = (s.modChan c fun _ => { y with reads := y.reads ++ [q] }).mem)
      ∧ (st ≠ 0 → Completes (.memLineRead c) s fun u =>
        u.mem = (w.memAnswer q st []).mem ∧ u.mills = (w.memAnswer q st []).mills))
    ∧ (∀ q qs o st synd d, (s.chan c).reads = q :: qs → s.readLine (s.regionAt q.addr) c (memLine q.addr) o = (st, synd, d) →
      st < 2 ∨ 4 < st →
      let w := (s.modChan c fun x => { x with reads := qs }).repair (s.regionAt q.addr) c (memLine q.addr) st o
      Completes (.memReadDone c o) s fun u => u.mem = (w.memAnswer q st d).mem ∧ u.mills = (w.memAnswer q st d).mills)
    ∧ (∀ q y p o, s.pullReq c false = some (q, y) → q.op = .write p → o.parity ≠ 2 → s.accessStatus q.master q.addr = 0 →
      let l := memLine q.addr
      tget false y.spent (linePage l) = false →
      let v := sealLine (s.rgn (s.regionAt q.addr)).key (s.regionAt q.addr) c l (y.majorOf (linePage l)) (y.minorOf l + 1) p
      (y.minorOf l < 63 → Completes (.memLineWrite c o) s fun u => u.mem = (s.modChan c fun _ => { y with
          lines := tset default l v y.lines, minor := tset 1 l (y.minorOf l + 1) y.minor, poison := tset false l false y.poison
          acks := y.acks ++ [q] }).mem
        ∧ Out.memBus c.val l v.beats ∈ u.out)
      ∧ (63 ≤ y.minorOf l → y.majorOf (linePage l) ≠ 2 ^ 32 - 1 → Completes (.memLineWrite c o) s fun u =>
        (u.chan c).rewrites = y.rewrites ++ [{ page := linePage l, line := l, req := q, data := p }]
        ∧ (u.chan c).major = tset 0 (linePage l) (y.majorOf (linePage l) + 1) y.major ∧ (u.chan c).lines = y.lines))
    ∧ (∀ x ws reads, (s.chan c).rewrites = x :: ws →
      ((s.chan c).up = true → Completes (.pageRewriteDone c reads) s fun u => (u.chan c).rewrites = ws
        ∧ (u.chan c).acks = (s.chan c).acks ++ [x.req] ∧ (u.chan c).major = (s.chan c).major)
      ∧ ((s.chan c).up = false → Completes (.pageRewriteDone c reads) s fun u =>
        u.mem = ((s.modChan c fun y => { y with rewrites := ws }).memAnswer x.req 0xB []).mem))
    ∧ (∀ q qs, (s.chan c).acks = q :: qs → Completes (.memWriteAck c) s fun u =>
      u.mem = ((s.modChan c fun x => { x with acks := qs }).memAnswer q q.status []).mem
      ∧ u.mills = ((s.modChan c fun x => { x with acks := qs }).memAnswer q q.status []).mills)

/-- R363, R365, R366, R369: the other masters. A GO of PF1 at a free window makes it busy and asks for the line it names, to be read or
written under its mask. The scrubber comes to the next line of a READY region and moves past it; a line that it cannot read is poisoned.
A debug read is answered at once, a debug write with its acknowledgement. -/
def Obligations.OtherMastersAreServed : Prop :=
  ∀ s : State,
    (∀ write : Bool, s.mgmtLive = true → s.mem.winBusy = false →
      let mask := BitVec.ofNat 32 (s.reg (Reg.mem 0x504))
      let op : MemOp := if !write then .read else if mask = 0xFFFFFFFF then .write s.winData else .part s.winData mask
      (write = false ∨ mask ≠ 0 → Completes (if write then .memWindowWrite 1 else .memWindowRead 1) s fun u =>
        u.mem = ((s.modMem fun m => { m with winBusy := true }).memPush { master := .window, addr := s.winAddr, op := op }).mem)
      ∧ (write = true → mask = 0 → Completes (.memWindowWrite 1) s fun u => u.mem = { s.mem with winBusy := false, winStatus := 0 }))
    ∧ (∀ c o l, (match s.nextReady c (s.chan c).scrubPos with | some l => some l | none => s.nextReady c 0) = some l →
      s.bit (Reg.mem 0x400) 0 = true → (s.chan c).up = true → (s.chan c).queue.any (·.op.isRead) = false → (s.chan c).wants l = false →
      let st := (s.readLine (s.regionAt (lineAddr c l)) c l o).1
      (st = 0 ∨ st = 5 → Completes (.scrubRead c o) s fun u => u.mem = (s.modChan c fun x => { x with scrubPos := l + 1 }).mem)
      ∧ (2 ≤ st → st ≤ 4 → (s.chan c).rewriting (linePage l) = false → Completes (.scrubRead c o) s fun u =>
        (u.chan c) = { s.chan c with scrubPos := l + 1, poison := tset false l true (s.chan c).poison }))
    ∧ (∀ (line : BitVec 21) (o : SramRead), let a := line.toNat * 32
      let c := memCh a
      let l := memLine a
      s.mgmtLive = true → (s.chan c).rewriting (linePage l) = false → (s.chan c).wants l = false →
      (∀ w, s.accessStatus .debug a ≠ 0 →
        Completes (.debugAccess line w o) s fun u => Out.debug (s.accessStatus .debug a) [] ∈ u.out ∧ u.mem = s.mem)
      ∧ (∀ d, s.accessStatus .debug a = 0 → s.readLine (s.regionAt a) c l o = (0, 0, d) →
        Completes (.debugAccess line none o) s fun u => Out.debug 0 d ∈ u.out ∧ u.mem = s.mem)
      ∧ (∀ p, s.accessStatus .debug a = 0 → p.length = 32 → o.parity ≠ 2 → tget false (s.chan c).spent (linePage l) = false →
        (s.chan c).minorOf l < 63 → Completes (.debugAccess line (some (p, 0xFFFFFFFF)) o) s fun u =>
          (u.chan c).acks = (s.chan c).acks ++ [{ master := .debug, op := .write p, addr := a }]
          ∧ (u.chan c).minor = tset 1 l ((s.chan c).minorOf l + 1) (s.chan c).minor))

/-! ## The random number generator and the utility cipher (chapter 11) -/

/-- R330, R331, R332, R333, R336: instances are instantiated in ascending order, each from three blocks of the pool, and with the first
one the mate logic draws its nonce; an instance that is due is reseeded from three blocks for its first request, which it then serves.
A health test that fails takes the RNG to FAILED: every instance and the pool are erased and no request waits. R307, R340, R344: loads
of the utility cipher. A load that passes its check latches the slot's key and draws its prefix; it then makes its context LOADED with
count 1, unless the key has been erased meanwhile. -/
def Obligations.RandomDataIsDrawn : Prop :=
  (∀ s : State,
     (∀ (i : Fin 16) (e : Bytes) (w : State), s.rng.st = .startup ∨ s.rng.st = .run → s.rng.nextInst = i.val → s.rng.tested = true →
       s.takePool = some (e, w) →
       let v := ((w.setDrbg i.val (Drbg.instantiate e (s.perso i.val))).modRng fun r => { r with st := .run }).serveAll
       let x := if i = 0 then v.mateTryPair else v
       Completes (.drbgInstantiate i) s fun u => u.rng = x.rng ∧ u.kst = x.kst)
     ∧ (∀ (i : Fin 16) (e : Bytes) (w : State) (q0 q : RngReq) (rest : List RngReq),
       s.rng.waiting.find? (fun q => s.delivers q.inst && s.needsReseed q.inst) = some q0 → q0.inst = i.val → s.takePool = some (e, w) →
       firstFor i.val s.rng.waiting = some (q, rest) →
       let g := ((w.drbg i.val).reseed e).generate q.nbytes
       let v := ((w.setDrbg i.val g.2).modRng fun r => { r with waiting := rest }).rngDeliver q.user g.1
       Completes (.drbgReseed i) s fun u => u.rng = v.serveAll.rng ∧ u.kst = v.serveAll.kst)
     ∧ (∀ (cause : Fin 5) (smp : Fin 8), s.rng.st = .startup ∨ s.rng.st = .run → cause ≠ 0 →
       Completes (.rngFail cause smp) s fun u => u.rng.st = .failed ∧ u.rng.cause = cause.val ∧ u.rng.pool = [] ∧ u.rng.waiting = []
         ∧ ∀ i : Fin 16, u.rng.drbg[i].inst = false))
  ∧
  (∀ (s : State), s.islandLive = true →
     (∀ v : W32, natBit v.toNat 31 = true → s.uci.load = none → s.loadWaits = false → s.loadDry = false → s.rng.st ≠ .failed →
       let c : Fin 4 := ⟨v.toNat / 2048 % 4, by omega⟩
       let k := s.slot (v.toNat % 2048)
       (s.uciCheck (v.toNat % 2048) c = none → Completes (.uciLoad 1 v) s fun u => ∃ pre,
         u.uci = { s.uci with load := some { ctx := c, slot := v.toNat % 2048, key := k.key, gen := k.gen, pre := pre } })
       ∧ (∀ st, s.uciCheck (v.toNat % 2048) c = some st → Completes (.uciLoad 1 v) s fun u => u.uci = { s.uci with lstatus := st }))
     ∧ (∀ (l : UciLoad) (pre : Bytes), s.uci.load = some l → l.pre = some pre → l.unchecked = false →
       (l.erased = false → Completes .uciLoadDone s fun u => u.uci = { s.uci with
         load := none, lstatus := 0
         ctx := s.uci.ctx.set l.ctx { loaded := true, key := l.key, slot := l.slot, gen := l.gen, pre := pre, count := 1 } })
       ∧ (l.erased = true → Completes .uciLoadDone s fun u => u.uci = { s.uci with load := none, lstatus := 0x34 })))

/-- R326, R327, R328, R329, R330, R338: samples. A window of 1,024 samples leaves its figures with every sampler; in RUN, and from the third
window of a start-up on, a run as long as the cutoff fails the RNG for a sampler in use. 1,024 raw bits become one block of the pool,
which holds 32. In TEST raw words are queued; in pattern mode they, and the conditioner's bits, are the PRBS's. -/
def Obligations.SamplesAreTested : Prop :=
  ∀ (s : State) (bits : List Bool), bits.length = 1024 →
    (∀ k : Fin 8, s.rng.st ≠ .reset → s.rng.st ≠ .test →
      let x := s.rng.samplers[k]
      let lr := longestRep x.lastBit x.run bits 0
      let tests := (s.rng.st = .run ∨ s.rng.st = .startup ∧ 2 ≤ x.windows) ∧ s.rng.smpEn.getLsbD k.val = true
      let kept : Sampler := {
        lastBit := bits.getLast?, run := if tests then lr.2 else 0, windows := x.windows + 1, prbs := x.prbs
        bias := BitVec.ofInt 16 (((bits.countP id : Nat) - 512 : Int) * 64)
        corr := BitVec.ofInt 16 (((agreements x.lastBit bits : Nat) - 512 : Int) * 64) }
      ((tests → lr.1 < s.rng.rct ∧ (bits.countP fun b => decide (some b = bits.head?)) < s.rng.apt) → Completes (.samplerWindowEnd k bits) s
        fun u => u.rng = { s.rng with samplers := s.rng.samplers.set k kept })
      ∧ (tests → s.rng.rct ≤ lr.1 → Completes (.samplerWindowEnd k bits) s fun u =>
        u.rng.st = .failed ∧ u.rng.cause = 1 ∧ u.rng.smp = k.val))
    ∧ (((s.rng.st = .startup ∨ s.rng.st = .run) ∧ s.rng.tested = true ∨ s.rng.st = .test ∧ s.rng.mode ≠ 2) →
      Completes (.conditionerBlock bits) s fun u => u.rng =
        if s.rng.pool.length < 32 then { s.rng with pool := s.rng.pool ++ [conditioned bits] } else s.rng)
    ∧ (s.rng.st = .test → s.rng.mode = 2 → s.rng.pool.length < 32 → let p := prbsEvery 1 1024 s.rng.prbsCond
      Completes (.conditionerBlock bits) s fun u => u.rng = { s.rng with pool := s.rng.pool ++ [conditioned p.1], prbsCond := p.2 })
    ∧ (∀ w : W32, s.rng.st = .test → s.rng.mode ≠ 2 → Completes (.rngRawWord w) s fun u => u.rng =
      if s.rng.raw.length < 64 then { s.rng with raw := s.rng.raw ++ [w] } else s.rng)
    ∧ (∀ w : W32, s.rng.st = .test → s.rng.mode = 2 → s.rng.raw.length < 64 → Completes (.rngRawWord w) s fun u => u.rng =
      { s.rng with raw := s.rng.raw ++ [(prbsWord 32 s.rng.prbs 0).1], prbs := (prbsWord 32 s.rng.prbs 0).2 })

/-- R334, R335, R338: what the host does with the RNG. An empty buffer is refilled with 16 words; a read of its status latches a word,
a read of its data takes it; only the owner sees anything. PF1 restarts a failed RNG and sets the test mode; it alone reads the raw
words. -/
def Obligations.HostUsesRng : Prop :=
  ∀ (s : State), s.islandLive = true →
    (∀ i : Fin 8, s.rng.bufs[i].words = [] → s.rng.waiting.any (fun q => decide (q.user = .buf i)) = false → s.rng.st ≠ .reset →
      let a := s.rngAsk (8 + i.val) (.buf i) 64
      Completes (.rngBufferRefill i) s fun u => u.rng = (match a.2 with
        | .data bs => a.1.rngDeliver (.buf i) bs | .failed => a.1.rngRefuse (.buf i) | .waits => a.1).rng)
    ∧ (∀ (i : Fin 8) (w : W32) (ws : List W32), s.rng.st ≠ .failed → s.rng.bufs[i].latched = none → s.rng.bufs[i].words = w :: ws →
      Completes (.rngOutStatusRead (bufOwner i) i) s fun u =>
        u.rng = { s.rng with bufs := s.rng.bufs.set i { s.rng.bufs[i] with latched := some w, words := ws } }
        ∧ Out.regRead (bufOwner i).val (Reg.rng (0x100 + 8 * i.val)) (if s.delivers (8 + i.val) then 1 else 3) ∈ u.out)
    ∧ (∀ (i : Fin 8) (w : W32), s.rng.bufs[i].latched = some w → Completes (.rngOutDataRead (bufOwner i) i) s fun u =>
        u.rng = { s.rng with bufs := s.rng.bufs.set i { s.rng.bufs[i] with latched := none } }
        ∧ Out.regRead (bufOwner i).val (Reg.rng (0x104 + 8 * i.val)) w ∈ u.out)
    ∧ (∀ (pf : Fin 2) (i : Fin 8), pf ≠ bufOwner i →
        Completes (.rngOutStatusRead pf i) s (fun u => u.rng = s.rng ∧ Out.regRead pf.val (Reg.rng (0x100 + 8 * i.val)) 0 ∈ u.out)
        ∧ Completes (.rngOutDataRead pf i) s (fun u => u.rng = s.rng ∧ Out.regRead pf.val (Reg.rng (0x104 + 8 * i.val)) 0 ∈ u.out))
    ∧ (s.rng.st = .failed → Completes (.rngRestart 1) s fun u => u.rng = s.rngStartup.rng ∧ u.rng.st = .startup)
    ∧ (∀ mode : Fin 4, s.kst.lc = 1 ∨ s.kst.lc = 3 → s.rng.st = .run → mode = 1 ∨ mode = 2 → Completes (.rngTestMode 1 mode) s fun u =>
        u.rng.st = .test ∧ u.rng.mode = mode.val)
    ∧ (∀ w ws, s.rng.st = .test → s.rng.raw = w :: ws → Completes (.rngRawRead 1) s fun u =>
        u.rng = { s.rng with raw := ws } ∧ Out.regRead 1 (Reg.rng 0x200) w ∈ u.out)
    ∧ (Completes (.rngRestart 0) s (fun u => Only settled s u) ∧ ∀ mode, Completes (.rngTestMode 0 mode) s (fun u => Only settled s u))

/-- R341, R342, R343, R344: requests of the utility cipher. A GO latches its context's key, and for NONCE takes prefix and count, which
counts; out of range, without a context or with a spent count it ends with its status. The requests of the two functions take turns:
blocks are enciphered or deciphered with AES and written to host memory; NONCE gives what it took; ERASE empties the context. A GO
while BUSY is an overrun; the other function's is locked. -/
def Obligations.UtilityCipher : Prop :=
  ∀ (s : State), s.islandLive = true →
    (∀ (f : Fin 2) (op : Fin 4), s.uci.req[f] = none →
      let cmd : Instr := match op with | 0 => .uciEnc f f | 1 => .uciDec f f | 2 => .uciNonce f f | _ => .uciErase f f
      let w := s.setFld (uciReg f 0) 0 2 op.val
      let c := w.uciCtx f
      let x := s.uci.ctx[c]
      let n := w.uciBlocks f
      let fails (st : Nat) := Completes cmd s fun u => u.uci = { s.uci.leave f with status := s.uci.status.set f st }
      (n = 0 ∨ 256 < n → fails 2)
      ∧ (1 ≤ n → n ≤ 256 → (x.loaded = false → fails 1)
        ∧ (x.loaded = true → op = 2 → x.count = 2 ^ 32 - 1 → fails 4)
        ∧ (x.loaded = true → (op = 2 → x.count ≠ 2 ^ 32 - 1) → Completes cmd s fun u =>
          u.uci = (if op = 2 then { s.uci with ctx := s.uci.ctx.set c { x with count := x.count + 1 } } else s.uci).start f {
            op := op.val, ctx := c.val, key := x.key, nonce := x.pre ++ beBytes 4 x.count, blocks := n
            src := w.reg (uciReg f 4) + 2 ^ 32 * w.reg (uciReg f 8), dst := w.reg (uciReg f 0xC) + 2 ^ 32 * w.reg (uciReg f 0x10) })))
    ∧ (∀ (f : Fin 2) (q : UciReq) (src : Bytes), s.uci.req[f] = some q → s.uci.turn = f →
      let st := if q.erased then 6 else 0
      (q.op < 2 → s.hstLive = true → overlaps q.src q.dst (16 * q.blocks) = false → 1 ≤ q.blocks →
        let inp := padTo (16 * q.blocks) src
        Completes (.uciRequestDone f src none) s fun u => u.uci = { s.uci.leave f with status := s.uci.status.set f st }
          ∧ Out.hostWrite f.val q.dst (if q.op = 0 then aesEcbEnc q.key inp else aesEcbDec q.key inp) ∈ u.out)
      ∧ (q.op = 2 → Completes (.uciRequestDone f src none) s fun u =>
        u.uci = { s.uci.leave f with nonce := s.uci.nonce.set f q.nonce, status := s.uci.status.set f st })
      ∧ (q.op = 3 → Completes (.uciRequestDone f src none) s fun u =>
        u.uci = { s.uci.leave f with status := s.uci.status.set f st
                                     ctx := if q.erased then s.uci.ctx else s.uci.ctx.setIfInBounds q.ctx {} }))
    ∧ (∀ (f : Fin 2), (s.uci.req[f]).isSome = true →
      let busy := fun (u : State) => u.uci = s.uci ∧ u.regs = (s.setBit (uciReg f 0x14) 1).regs
      Completes (.uciEnc f f) s busy ∧ Completes (.uciDec f f) s busy ∧ Completes (.uciNonce f f) s busy ∧ Completes (.uciErase f f) s busy)
    ∧ (∀ (pf f : Fin 2), pf ≠ f →
      Completes (.uciEnc pf f) s (fun u => Only settled s u) ∧ Completes (.uciDec pf f) s (fun u => Only settled s u)
      ∧ Completes (.uciNonce pf f) s (fun u => Only settled s u) ∧ Completes (.uciErase pf f) s (fun u => Only settled s u))

/-! ## Key store and life cycle (chapter 10) -/

/-- R303, R304, R305, R307, R308, R309, R319: a key store instruction that may start and whose checks pass becomes an operation in
progress, with its result or the draws it awaits; a wrapped key is staged at once; a commit puts the staged key in force at once, or discards it where its check
value differs. While the store cannot start one, it waits in CHECK; outside the states that run it, it completes with
LIFE_CYCLE. -/
def Obligations.KeyOperationsStart : Prop :=
  ∀ (s : State) (r : Rid) (d : Desc),
    let n := d.p1 % 2048
    let p := d.p2 % 2048
    let w := BitVec.ofNat 32 (d.arg 0 4)
    let started := fun (u : State) (op : KOp) (need : Nat) => u.Pends (d.ref r) ∧ u.kst.nextId = s.kst.nextId + 1
      ∧ u.kst.jobs = s.kst.jobs ++ [{ id := s.kst.nextId, ref := d.ref r, op := op, need := need }]
    s.lcRuns = true →
    (s.kstCan = true →
      (s.Takes r 0x08 (fun _ => true) d → s.kwrapinCheck (ringPf r) d = none →
        (p ≠ n → Completes (.kwrapin r) s fun u => started u (.install n
          { attr := w, key := (s.unwrapOf d p).getD [], parent := some p, depth := (s.slot p).depth + 1 }) 0)
        ∧ (p = n → Completes (.kwrapin r) s fun u => started u (.installDrawn n { attr := w }) 1
          ∧ u.rng.waiting = s.rng.waiting ++ [{ inst := 0, user := .kst s.kst.nextId, nbytes := 32 }]))
      ∧ (s.Takes r 0x09 (· = 0) d → s.kstageCheck (ringPf r) d = none → Completes (.kstageWrapped r) s fun u =>
        let key := (s.unwrapOf d p).getD []
        s.Records u (d.ref r) 0 (leNat (checkValue key)) ∧ u.kst.slots = tset default n
          { s.slot n with st := .staged, staged := some (key, some p, (s.slot p).depth + 1) } s.kst.slots)
      ∧ (s.Takes r 0x09 (· = 1) d → s.kstageRngCheck (ringPf r) n = none → Completes (.kstageRng r) s fun u =>
        started u (.stageDrawn n) 1 ∧ u.rng.waiting = s.rng.waiting ++ [{ inst := 0, user := .kst s.kst.nextId, nbytes := 32 }])
      ∧ (∀ key parent depth, s.Takes r 0x0A (fun _ => true) d → s.kcommitCheck (ringPf r) n = none →
        (s.slot n).staged = some (key, parent, depth) →
        (checkValue key = d.argBytes 0 8 → Completes (.kcommit r) s fun u => started u (.commit n (s.nextGen n)) 0
          ∧ u.kst.slots = (s.installSlot n { s.slot n with key := key, parent := parent, depth := depth }).kst.slots)
        ∧ (checkValue key ≠ d.argBytes 0 8 → Completes (.kcommit r) s fun u => s.Records u (d.ref r) 0x51
          ∧ u.kst.slots = tset default n { s.slot n with st := .live, staged := none } s.kst.slots))
      ∧ (s.Takes r 0x0C (fun _ => true) d → s.kderiveCheck (ringPf r) d = none → Completes (.kderive r) s fun u => started u
        (.install n { attr := w, key := s.derived d, parent := some p, depth := (s.slot p).depth + 1 }) 0)
      ∧ (s.Takes r 0x0D (fun _ => true) d → s.attestCheck (ringPf r) n = none → Completes (.attest r) s fun u => started u
        (.attest n (s.slot n).key (s.slot 1024).key (s.slot n).gen (s.slot n).attr (d.argBytes 0 32) (d.arg 32 8)) (if n = 1024 then 1 else 2)))
    ∧ (s.kstCan = false → (s.kst.ready = true ∨ s.rng.st ≠ .failed) →
      ∀ i mop op, i ∈ [Instr.kwrapin r, .kstageWrapped r, .kstageRng r, .kcommit r, .kinval r, .kderive r, .attest r] →
        ringForm i = some (r, mop, op) → s.Takes r mop op d → Completes i s fun u => u.cur = (s.modRing r fun g => { g with waiting := true }).cur
          ∧ u.kst = s.kst)
    ∧ (s.kstCan = false → s.kst.ready = false → s.rng.st = .failed →
      ∀ i mop op, i ∈ [Instr.kwrapin r, .kstageWrapped r, .kstageRng r, .kcommit r, .kinval r, .kderive r, .attest r] →
        ringForm i = some (r, mop, op) → s.Takes r mop op d → Completes i s fun u => s.Records u (d.ref r) 0x52 ∧ u.kst = s.kst)

/-- R300, R308, R319: an operation that has its draws ends: it places its key unless the slot was erased since it was accepted, stages a
drawn key, gives the generation of its commit, or writes its response to the host. R310, R311, R142, R344: invalidation. `KINVAL`
marks the slot and its descendants INVALIDATING and holds the store until the live-slot vector is published; then the line keys and
cipher contexts of the marked slots are erased and the sweep begins; a marked slot whose sweep and tombstone are done is EMPTY. -/
def Obligations.KeyOperationsEnd : Prop :=
  (∀ (s : State) (i : Nat) (j : KJob), s.kst.jobs[i]? = some j → j.need ≤ j.drawn.length →
     let w := s.modKst fun k => { k with jobs := k.jobs.filter fun x => decide (x.id ≠ j.id) }
     (∀ n v e, j.op = .install n v → j.erased = false → (s.slot n).st = .empty → Completes (.kstOpComplete i e) s fun u =>
       u.kst = (w.installSlot n v).kst ∧ s.Records u j.ref 0 (leNat (checkValue v.key)))
     ∧ (∀ n v e, j.op = .installDrawn n v → j.erased = false → (s.slot n).st = .empty → Completes (.kstOpComplete i e) s fun u =>
       u.kst = (w.installSlot n { v with key := j.drawn.headD [] }).kst ∧ s.Records u j.ref 0 (leNat (checkValue (j.drawn.headD []))))
     ∧ (∀ n e, j.op = .stageDrawn n → j.erased = false → (s.slot n).st = .live → Completes (.kstOpComplete i e) s fun u =>
       u.kst.slots = tset default n
         { s.slot n with st := .staged, staged := some (j.drawn.headD [], (s.slot n).parent, (s.slot n).depth) } s.kst.slots
       ∧ s.Records u j.ref 0 (leNat (checkValue (j.drawn.headD []))))
     ∧ (∀ n v e, j.op = .install n v ∨ j.op = .installDrawn n v → j.erased = true ∨ (s.slot n).st ≠ .empty →
       Completes (.kstOpComplete i e) s fun u => u.kst = w.kst ∧ s.Records u j.ref 0x34)
     ∧ (∀ n g e, j.op = .commit n g → Completes (.kstOpComplete i e) s fun u => u.kst = w.kst ∧ s.Records u j.ref 0 g)
     ∧ (∀ n key idKey gen attr nonce addr, j.op = .attest n key idKey gen attr nonce addr → s.hstLive = true →
       Completes (.kstOpComplete i true) s (fun u => s.Records u j.ref 0x19)
       ∧ Completes (.kstOpComplete i false) s fun u => s.Records u j.ref 0 ∧ u.kst.attSeq = (s.kst.attSeq + 1) % 2 ^ 32
         ∧ ∃ b, Out.hostWrite (ringPf j.ref.rid).val addr b ∈ u.out))
  ∧
  (∀ s : State,
     (∀ (r : Rid) (d : Desc), s.lcRuns = true → s.kstCan = true → s.Takes r 0x0B (fun _ => true) d → s.kinvalCheck (d.p1 % 2048) = none →
       let ms := s.marked (d.p1 % 2048)
       Completes (.kinval r) s fun u => u.Pends (d.ref r) ∧ u.kst.marking = some { ref := d.ref r, slots := ms }
         ∧ u.kst.slots = (ms.foldl (fun s i => s.setSlot i { s.slot i with st := .invalidating, staged := none }) s).kst.slots)
     ∧ (∀ v, s.kst.marking = some v → Completes .kinvalPublish s fun u => u.kst.marking = none ∧ u.kst.sweeping = true
       ∧ (∀ m k : Fin 4, (s.lkn m k).loaded = true → v.slots.contains (s.lkn m k).slot = true → (u.lkn m k).loaded = false)
       ∧ ∀ c : Fin 4, s.uci.ctx[c].loaded = true → v.slots.contains s.uci.ctx[c].slot = true → u.uci.ctx[c].loaded = false)
     ∧ (∀ n : Fin 1088, (s.slot n.val).st = .invalidating → s.unpublished n.val = false → s.kst.sweeping = false →
       s.copyBusy n.val = false → Completes (.slotInvalidationDone n) s fun u => u.kst.slots = tset default n.val {} s.kst.slots))

/-- R312, R313, R316, R317, R318, R435: what the key store keeps. The oldest MTP write ends with its bytes in place, or with the copy
area erased; the store starts once the RNG delivers and no MTP write is in progress; a root is drawn and programmed into bank A, else bank B; provisioning installs
its key where its conditions hold, and is refused otherwise. -/
def Obligations.KeysAreKept : Prop :=
  ∀ s : State,
    (∀ j js, s.kst.mtpJobs = j :: js → Completes .mtpWriteDone s fun u =>
      u.mtp = (if j.kind = .eraseCopies then (s.mtpWrite j.addr j.data).eraseCopyArea.mtp else (s.mtpWrite j.addr j.data).mtp) ∧ ∃ more, u.kst.mtpJobs = js ++ more)
    ∧ (s.islandLive = true → s.kst.started = false → s.kst.lcPhase = none → s.mtpBusy = false → s.lcRuns = true →
      s.delivers 0 = true → (∀ (k : Fin 4) (j : Fin 12), (s.ring ⟨k, j⟩).waiting = false) →
      let w := s.loadEpoch.finishRetire.startLog
      (s.kst.lc ≠ 2 → Completes .kstStart s fun u => u.kst =
        { (w.kst.reserve.foldl State.restoreReserve w).kst with ready := true, started := true })
      ∧ (∀ root, s.kst.lc = 2 → s.otp.root = some root → let v := w.startSecured root
        Completes .kstStart s fun u => u.kst =
          { (v.kst.reserve.foldl State.restoreReserve v).kst with ready := true, started := true }))
    ∧ (s.rootDue = true →
      (∀ a b, s.kst.rootDraw = none → Completes (.rootGenerate a b) s fun u => u.rng = s.askRoot.rng ∧ u.otp = s.otp)
      ∧ (∀ key b, s.kst.rootDraw = some key → s.kst.rootTriedA = false → Completes (.rootGenerate true b) s fun u => u.otp =
        { s.otp with rootA := key, chkA := BitVec.ofNat 16 (crc16 0x1021 0xFFFF key), validA := 0xFF })
      ∧ (∀ key b, s.kst.rootDraw = some key → s.kst.rootTriedA = false → Completes (.rootGenerate false b) s fun u =>
        u.otp = s.otp ∧ u.kst.rootTriedA = true)
      ∧ (∀ key a, s.kst.rootDraw = some key → s.kst.rootTriedA = true → Completes (.rootGenerate a true) s fun u => u.otp =
        { s.otp with rootB := key, chkB := BitVec.ofNat 16 (crc16 0x1021 0xFFFF key), validB := 0xFF })
      ∧ (∀ key a, s.kst.rootDraw = some key → s.kst.rootTriedA = true → Completes (.rootGenerate a false) s fun u =>
        u.otp = s.otp ∧ u.kst.rootFail = true))
    ∧ (∀ v : W32, s.islandLive = true → Completes (.provGo 1 v) s fun u => u.kst.prov = List.replicate 32 0
      ∧ (s.provCan v.toNat = false → u.kst.slots = s.kst.slots ∧ u.regs = (s.setBit (Reg.kst 0) 10).regs)
      ∧ (s.provCan v.toNat = true → u.kst.provChk = checkValue s.kst.prov
        ∧ u.kst.slots = (s.installSlot 1025 { key := s.kst.prov, attr := 0x00028F02, hw := true }).kst.slots))

/-- R321, R322, R323: a life-cycle transition. The target register opens the window of 1 ms; a GO is refused with its error, or stops the
key store and starts the transition; when its erasures, log entry and epoch are done, the fuse group is programmed and a cold reset
follows. Writes of PF0 are locked. R418, R419, R421, R422, R423, R425: sources fire and cease. New firings of rank IRQ or THROTTLE and
below are made known, and throttle where they ask for it; one of a destructive rank starts its response, unless one as high executes.
A source whose condition ceases no longer fires; a second after the last that asked for it, throttling ends. -/
def Obligations.LifeCycleAndTamper : Prop :=
  (∀ s : State,
     (∀ v : W32, s.islandLive = true →
       Completes (.lcTargetWrite 1 v) s (fun u => u.kst = { s.kst with lcWindow := true, lcShut := none } ∧ u.regs = (s.setReg (Reg.kst 0x10) (v.toNat % 8)).regs)
       ∧ (s.lcError v.toNat ≠ 0 → Completes (.lcGo 1 v) s fun u =>
         u.kst = { s.kst with lcLast := v.toNat % 8, lcErr := s.lcError v.toNat } ∧ u.regs = (s.setBit (Reg.kst 0x18) 6).regs)
       ∧ (s.lcError v.toNat = 0 → Completes (.lcGo 1 v) s fun u => u.kst.lcLast = v.toNat % 8 ∧ u.kst.lcErr = 0
         ∧ u.kst.lcWindow = false ∧ u.kst.jobs = [] ∧ u.kst.marking = none ∧ u.kst.lcPhase.isSome = true)
       ∧ (Completes (.lcTargetWrite 0 v) s (fun u => Only settled s u) ∧ Completes (.lcGo 0 v) s (fun u => Only settled s u)
         ∧ Completes (.provGo 0 v) s fun u => Only settled s u))
     ∧ (s.kst.lcWindow = true → Completes .lcWindowExpire s fun u => u.kst = { s.kst with lcWindow := false, lcShut := some s.now })
     ∧ (∀ t, s.kst.lcPhase = some (.fuse t) → Completes .lcFuseProgrammed s fun u =>
       u.rst.released = s.rst.released &&& ~~~coldSet
       ∧ u.otp.lcSecured = (if t = 2 then 0xFF else s.otp.lcSecured) ∧ u.otp.lcReturned = (if t = 3 then 0xFF else s.otp.lcReturned)
       ∧ (t ≠ 2 → t ≠ 3 → u.otp.lcScrapped = 0xFF) ∧ u.kst = { reserve := s.kst.reserve, rootFail := s.kst.rootFail }))
  ∧
  (∀ s : State,
     (∀ b : BitVec 12, s.islandLive = true → s.newFirings b ≠ 0 → s.tmp.bistCur = none → s.topRank (s.newFirings b) ≤ 2 →
       (s.newFirings b).getLsbD 8 = false →
       let thr := s.thrAsked (s.newFirings b) (max (s.topRank (s.newFirings b)) (s.tmp.exec.getD 0))
       Completes (.tamperFire b) s fun u =>
         u.tmp = { s.tmp with
           firing := s.tmp.firing ||| (s.newFirings b &&& lasting), throttle := s.tmp.throttle || decide (thr ≠ 0)
           thrSrcs := s.tmp.thrSrcs ||| thr }
         ∧ u.regs = ((srcList (s.newFirings b)).foldl (fun s n => s.setBit (Reg.tmp 4) n) s).regs)
     ∧ (∀ b : BitVec 12, s.islandLive = true → 3 ≤ s.topRank (s.newFirings b) → s.tmp.exec = none → s.tmp.bistCur = none →
       Completes (.tamperFire b) s fun u => u.tmp.scDone = true ∧ (∀ m k : Fin 4, (u.lkn m k).loaded = false)
         ∧ u.sa = [] ∧ u.sc = [] ∧ (∀ r : Fin 8, (u.rgn r).st = .nokey) ∧ (∀ c : Fin 4, u.uci.ctx[c].loaded = false)
         ∧ (4 ≤ s.topRank (s.newFirings b) → u.kst.slots = [] ∧ u.kst.reserve = [] ∧ u.tmp.exec = some (s.topRank (s.newFirings b))))
     ∧ (∀ n : Fin 12, s.tmp.firing.getLsbD n.val = true → n ≠ 9 → n ≠ 11 → Completes (.tamperSourceCease n) s fun u =>
       u.tmp = { s.tmp with firing := s.tmp.firing &&& ~~~(1#12 <<< n.val) })
     ∧ (s.tmp.throttle = true → s.tmp.thrSrcs &&& s.tmp.firing = 0 → Completes .throttleEnd s fun u =>
       u.tmp = { s.tmp with throttle := false, thrSrcs := 0 }))

/-! ## Tamper, evidence and the backup domain (chapter 15) -/

/-- R426, R430, R432, R433, R434: evidence, fuses and the backup domain. The evidence counter gains one, up to 512. PF1 names a source and
programmes its disable group within the window; the source is disabled once its log entry is written. In a HOLD every domain but the
island and the host interface is held. Without main power a masked source that fires leaves its evidence and clears the reserve keys;
the supervision of VBAT follows the cell. What is programmed once stays programmed (R430, R434, Table 10-8): no step clears a
programmed bit of the OTP, changes the part, the device identity or the boot key hash, changes a valid root, or lowers the evidence
counter. -/
def Obligations.EvidenceIsKept : Prop :=
  (∀ s : State,
     (∀ j js, s.tmp.evJobs = j :: js → Completes .evidenceIncrementDone s fun u =>
       u.otp = { s.otp with evidence := min 512 (s.otp.evidence + 1) } ∧ u.tmp.evJobs = js)
     ∧ (∀ v : W32, s.islandLive = true →
       Completes (.fuseTgtWrite 1 v) s (fun u => u.tmp = { s.tmp with fuseWindow := true, fuseShut := none }
         ∧ u.regs = (s.setReg (Reg.tmp 0x28) (v.toNat % 16)).regs)
       ∧ (s.fuseOpen = true → v.toNat / 65536 = 0x4644 → v.toNat % 16 = s.reg (Reg.tmp 0x28) → v.toNat % 16 < 8 →
         s.kst.lc = 1 ∨ s.kst.lc = 2 → s.tmp.fusePend = none → Completes (.fuseDisableGo 1 v) s fun u =>
           u.tmp.fuseWindow = false ∧ u.tmp.fusePend = some (v.toNat % 16))
       ∧ (s.fuseOpen = false → Completes (.fuseDisableGo 1 v) s fun u =>
         u.tmp = s.tmp ∧ u.regs = (s.setBit (Reg.tmp 0x30) 8).regs)
       ∧ Completes (.fuseTgtWrite 0 v) s (fun u => Only settled s u) ∧ Completes (.fuseDisableGo 0 v) s (fun u => Only settled s u))
     ∧ (s.tmp.fuseWindow = true → Completes .fuseWindowExpire s fun u => 
       u.tmp = { s.tmp with fuseWindow := false, fuseShut := some s.now })
     ∧ (∀ n : Fin 8, s.tmp.fusePend = some n.val → s.kst.mtpJobs.any (fun j => decide (j.kind = .log)) = false →
       Completes .fuseDisableDone s fun u => u.otp = { s.otp with disable := s.otp.disable.set n 0xFF }
         ∧ u.tmp = { s.tmp with
           fusePend := none, dis := s.tmp.dis ||| (1#8 <<< n.val), firing := s.tmp.firing &&& ~~~(1#12 <<< n.val) })
     ∧ (s.tmp.holdDue = true → Completes .holdEngage s fun u => u.tmp.holding = true ∧ u.tmp.exec = none
       ∧ u.rst.released = s.rst.released &&& ~~~0x3FF8#15 ∧ u.kst = s.kst ∧ u.cur = Vector.replicate 4 {})
     ∧ (∀ fires : BitVec 5, s.rst.porHeld = true → s.bkp.vbat ≠ .lost → fires &&& s.bkp.mask &&& ~~~s.bkpDisabled ≠ 0 →
       Completes (.backupWake fires) s fun u => u.bkp = { s.bkp with
         pending := true, fired := true, firedSrc := s.bkp.firedSrc ||| (fires &&& s.bkp.mask &&& ~~~s.bkpDisabled) }
         ∧ u.kst = { s.kst with reserve := [] })
     ∧ (∀ v : Vbat, v ≠ s.bkp.vbat → v ≠ .lost → Completes (.vbatChange v) s fun u => u.bkp = { s.bkp with vbat := v } ∧ u.kst = s.kst)
     ∧ (s.bkp.vbat ≠ .lost → Completes (.vbatChange .lost) s fun u => u.bkp = {}
       ∧ u.kst = { s.kst with reserve := if s.rst.porHeld then [] else s.kst.reserve }))
  ∧
  (∀ s t : State, step s = .next t → s.otp.Keeps t.otp)

/-! ## Resets (chapter 16) -/

/-- R438, R442, R443, R444, R445, R450, R483: the resets. Power-on keeps OTP, MTP and what the battery keeps; a cold reset holds every
domain but D0, a warm reset D2, D3 and D5 to D13 (the time bases run on), a mill reset one mill. The pins alternate between the
assertion and its end. PF1 needs the key; any other write is locked. A function-level reset stops the function's rings. -/
def Obligations.ResetsHoldAndClear : Prop :=
  ∀ s : State,
    (∀ a : Bool, s.rst.porHeld ≠ a → Completes (.powerOnReset a) s fun u => u.rst.porHeld = a ∧ u.rst.released = 0 ∧ u.regs = []
      ∧ u.otp = s.otp ∧ u.mtp = s.mtp ∧ u.bkp = (if s.bkp.vbat = .lost then {} else s.bkp) ∧ u.mem = {} ∧ u.mills = Vector.replicate 4 {}
      ∧ u.tim = {} ∧ u.trib = [] ∧ u.sa = [] ∧ u.kst =
        { reserve := if s.bkp.vbat = .lost then [] else s.kst.reserve, rootFail := s.kst.rootFail })
    ∧ (s.rst.porHeld = false → s.rst.resetLow = false → Completes .resetPin s fun u => u.rst.resetLow = true
      ∧ u.rst.released = s.rst.released &&& ~~~coldSet ∧ u.mills = Vector.replicate 4 {} ∧ u.tim.tb = Vector.replicate 8 {})
    ∧ (s.rst.porHeld = false → s.rst.resetLow = true → Completes .resetPin s fun u => u.rst = { s.rst with resetLow := false } ∧ u.regs = s.regs)
    ∧ (s.rst.porHeld = false → s.rst.perstLow = false →
      (s.bit Reg.rstCfg 0 = true → Completes .perst s fun u => u.rst.perstLow = true
        ∧ u.rst.released = s.rst.released &&& ~~~setOf [14] ∧ u.hst.masked = BitVec.allOnes 256 ∧ u.hst.linkUp = false ∧ u.mills = s.mills)
      ∧ (s.bit Reg.rstCfg 0 = false → Completes .perst s fun u => u.rst.perstLow = true
        ∧ u.rst.released = s.rst.released &&& ~~~coldSet ∧ u.mills = Vector.replicate 4 {}))
    ∧ (s.rst.porHeld = false → s.rst.perstLow = true → Completes .perst s fun u => u.rst = { s.rst with perstLow := false } ∧ u.regs = s.regs)
    ∧ (∀ v : W32, s.rst.porHeld = false → v.toNat / 65536 = 0x5253 →
      (natBit v.toNat 0 = true → Completes (.swColdReset 1 v) s fun u => u.rst.released = s.rst.released &&& ~~~coldSet
        ∧ u.mills = Vector.replicate 4 {})
      ∧ (natBit v.toNat 0 = false → natBit v.toNat 1 = true → natBits v.toNat 2 4 = 0 → Completes (.swWarmReset 1 v) s fun u =>
        u.rst.released = s.rst.released &&& ~~~warmSet ∧ u.mills = Vector.replicate 4 {} ∧ u.tim.tb = s.tim.tb ∧ u.tmp = s.tmp
        ∧ u.kst.reserve = s.kst.reserve ∧ u.rng = {}))
    ∧ (∀ (v : W32) (pf : Fin 2), s.rst.porHeld = false → pf = 0 ∨ v.toNat / 65536 ≠ 0x5253 →
      Completes (.swColdReset pf v) s (fun u => Only settled s u) ∧ Completes (.swWarmReset pf v) s fun u => Only settled s u)
    ∧ (∀ m : Fin 4, s.rst.porHeld = false → s.hasMill m = true →
      let alone := ∀ k : Fin 4, k ≠ m → (s.sch k).staging[m] = [] ∧ ∀ f ∈ (s.sch k).rebuilt, f.clientMill ≠ m
      let kept := fun (u : State) => u.rst.released = s.rst.released &&& ~~~(setOf [9 + m.val]) ∧ u.mill m = {} ∧ u.cur[m] = {}
        ∧ (∀ k, k ≠ m → (u.sch k).staging[m] = [])
        ∧ (alone → (∀ k, k ≠ m → u.mill k = s.mill k) ∧ u.trib = s.trib.filter fun e => decide (e.2.mill ≠ m))
      Completes (.millReset 1 m false 0x5253) s kept ∧ (s.bit Reg.rstCfg (1 + m.val) = false → Completes (.millReset 1 m true 0) s fun u =>
        (u.mill m) = {} ∧ u.rst.released.getLsbD (9 + m.val) = false))
    ∧ (∀ f : Fin 2, s.hstLive = true → Completes (.functionLevelReset f) s fun u => (∀ r : Rid, ringPf r = f → (u.ring r).en = false)
      ∧ (∀ r : Rid, ringPf r ≠ f → u.ring r = s.ring r) ∧ u.uci.req[f] = none
      ∧ ∀ i : Fin 8, u.rng.bufs[i] = if bufOwner i = f then {} else s.rng.bufs[i])
    ∧ (s.rst.porHeld = false → Completes .railDrop s fun u => u.regs = (s.setBit (Reg.mte 0) 1 false).regs
      ∧ (s.mte.st = .active → u.mte.st = .released))

/-- R437, R440, R441, R475, R476, R477: how the device comes up. Domains are released in ascending order as their conditions hold; the
trims come from copy A, else from copy B, else the device stays in reset; the boot image from copy A, else copy B. The loss of a clock
holds its domains again. R428, R429: the built-in test. PF1 starts it on the sources it names, lowest first, past those that fire or
are fused off, which fail; a source passes that fires on its stimulus and ceases after it. -/
def Obligations.DeviceComesUp : Prop :=
  (∀ s : State,
     (∀ d, s.nextDomain = some d → s.mayRelease d = true → Completes .domainRelease s fun u =>
       u.rst.released = s.rst.released ||| (1#15 <<< d) ∧ (∀ e, e < d → u.live e = true ∨ s.excluded e = true)
       ∧ (d = 2 → u.rng.st = .startup ∧ u.kst.lc = s.otp.lc) ∧ (d = 14 → u.hst.linkUp = true))
     ∧ (s.rst.porHeld = false → s.live 0 = true → s.rst.resetLow = false → s.rst.trims = false → s.rst.trimFailed = false →
       Completes (.trimLoadDone true) s (fun u => u.rst = { s.rst with trims := true })
       ∧ (s.rst.trimB = false → Completes (.trimLoadDone false) s fun u => u.rst = { s.rst with trimB := true }
         ∧ u.regs = (s.setBit Reg.rstCause 19).regs)
       ∧ (s.rst.trimB = true → Completes (.trimLoadDone false) s fun u => u.rst = { s.rst with trimFailed := true }))
     ∧ (∀ image, s.mgmtLive = true → s.rst.bootDone = false → s.rst.bootFailed = false →
       (s.bootCheck image = 0 → Completes (.bootVerifyDone image) s fun u => u.rst = { s.rst with
         bootDone := true, bootCopy := decide (s.rst.bootTry = 1), imgVer := BitVec.ofNat 32 (imgU image 16 4)
         digest := sha256 (image.take (imgU image 8 4 - 64)), pcieCfg := imgContent image 2, laneFw := imgContent image 1 })
       ∧ (s.bootCheck image ≠ 0 → Completes (.bootVerifyDone image) s fun u => u.rst =
         if s.rst.bootTry = 1 then { s.rst with causeB := s.bootCheck image, bootFailed := true }
         else { s.rst with causeA := s.bootCheck image, bootTry := 1 }))
     ∧ (∀ d : Fin 15, s.rst.porHeld = false → s.rst.released &&& clockSet d.val ≠ 0 → Completes (.clockLoss d) s fun u =>
       u.rst.released = s.rst.released &&& ~~~(clockSet d.val) ∧ u.rst.stable = s.rst.stable &&& ~~~(clockSet d.val)
       ∧ u.rst.clkHeld = s.rst.clkHeld ||| (clockSet d.val &&& s.rst.released)
       ∧ (d.val ≤ 2 → u.rst.trims = false)))
  ∧
  (∀ s : State,
     (∀ v : W32, s.islandLive = true → natBit v.toNat 12 = true → s.tmp.bistBusy = false → Completes (.tamperBist 1 v) s fun u =>
       u.tmp = ({ s.tmp with bistBusy := true, bistPass := 0, bistFail := 0, bistLeft := srcList (BitVec.ofNat 12 v.toNat) } : Tmp).bistNext)
     ∧ (∀ v : W32, s.islandLive = true → Completes (.tamperBist 0 v) s fun u => Only settled s u)
     ∧ (∀ (n : Nat) (fired ceased : Bool), s.tmp.bistCur = some n → (fired = false ∨ ceased = true) →
       Completes (.bistStimulusEnd fired ceased) s fun u => u.tmp = ({ s.tmp with
         bistCur := none
         bistPass := if fired then s.tmp.bistPass ||| (1#12 <<< n) else s.tmp.bistPass
         bistFail := if fired then s.tmp.bistFail else s.tmp.bistFail ||| (1#12 <<< n) } : Tmp).bistNext)
     ∧ (∀ n : Nat, s.tmp.bistCur = some n → s.topRank (1#12 <<< n) ≤ 2 → Completes (.bistStimulusEnd true false) s fun u =>
       u.tmp.bistPass = s.tmp.bistPass ∧ u.tmp.bistFail &&& (1#12 <<< n) = 1#12 <<< n))

/-! ## The line: framer and deframer (chapter 2) -/

/-- R50, R51, R52, R64, R126, R127: the framer. A ream begins with its markers, one on each lane; a sheet uses one LSC, and one
sequence number where it is keyed. Without the line grant nothing is sent and no sequence number is used; without a key an idle
sheet is sent. TX_EN starts the counts at 0 and, cleared, ends what waits for the framer. A LANE_USE that the host writes takes
effect at the next ream boundary, at once where the framer has no timing (the model's choice: log entry 35). -/
def Obligations.FramerSends : Prop :=
  ∀ (s : State) (m : Fin 4),
    (s.framerRuns m = true → (s.line m).inReam = false → Completes (.reamBegin m) s fun u =>
      (u.line m).inReam = true ∧ (u.line m).idx = 0 ∧ (u.line m).lsc = (s.line m).lsc
      ∧ (u.line m).rc = (if (s.line m).begun then (s.line m).rc + 1 else 0)
      ∧ (s.permitted = true → Out.markers m.val ((List.range (u.line m).lanesTx).map fun k =>
          marker (u.line m).lanesTx k (s.line m).lsc) ∈ u.out))
    ∧ (s.framerRuns m = true → (s.line m).inReam = true →
      let place := beBytes 2 ((s.line m).lsc.toNat % 64 * 1024 + (s.line m).idx % 512)
      Completes (.sheetSend m) s fun u =>
        (u.line m).lsc = (s.line m).lsc + 1 ∧ (u.line m).idx = (s.line m).idx + 1
        ∧ (u.line m).inReam = decide ((s.line m).idx + 1 < 500)
        ∧ (s.permitted = false → (u.lci m) = s.lci m ∧ ∀ o ∈ u.out, (∃ v, o = .msix v) ∨ o ∈ s.out)
        ∧ (s.permitted = true → s.keyedUnder m = none → (u.lci m) = s.lci m ∧ ∃ oh, Out.sheet m.val (idleSheet oh) ∈ u.out
          ∧ slice oh 0 3 = [0, 0, 0x80] ∧ slice oh 8 2 = place)
        ∧ (∀ k, s.permitted = true → s.keyedUnder m = some k → (u.lkn m k).seq = (s.lkn m k).seq + 1
          ∧ ((s.lkn m k).seq = 2 ^ 48 → (u.lkn m k).tx = .done) ∧ ∃ x, Out.sheet m.val x ∈ u.out
          ∧ slice x.oh 0 3 = [0, 0, byteOf k.val] ∧ slice x.oh 4 4 = beBytes 4 ((s.lkn m k).seq % 2 ^ 32) ∧ slice x.oh 8 2 = place))
    ∧ (s.millLive m = true → s.txEn m = false → Completes (.lnfTxEnable m) s fun u =>
      u.regs = (s.setBit (Reg.lnf m 0) 0).regs ∧ (u.line m).lsc = 0 ∧ (u.line m).rc = 0 ∧ (u.line m).idx = 0
      ∧ (u.line m).begun = false ∧ (u.line m).inReam = false)
    ∧ (s.millLive m = true → s.txEn m = true → Completes (.lnfTxDisable m) s fun u =>
      u.regs = (s.setBit (Reg.lnf m 0) 0 false).regs ∧ (u.line m).inReam = false ∧ (u.dkl m).arm = none ∧ (u.lci m).arm = none
      ∧ ((∀ k, (s.lkn m k).halts = []) → ∀ i ref a b, (s.ring ⟨m, i⟩).hold = some (.ream ref a b) → s.Records u ref 0x24))
    ∧ (∀ v : Byte, s.millLive m = true → v ≠ 0 → Completes (.laneUseWrite m v) s fun u =>
      (s.framerTimed m = true → (u.line m).laneUseDue = true ∧ (u.line m).laneUse = (s.line m).laneUse)
      ∧ (s.framerTimed m = false → s.canonical = true → (u.line m).laneUse = v ∧ (u.dkl m).txMap = 0 ∧ (u.dkl m).rxMap = 0))

/-- R70, R72, R74, R77, R79, R81, R488 (Tables 2-9 and 2-12): a lane gains codeword lock with two correctable codewords; it hunts for markers, needs three in place to be in
sync and is lost with the fourth that fails; the group aligns on the marker's LSC, which clears LOA. While it is not aligned, sheets
are lost. RX_EN, cleared, puts every lane into HUNT and clears the defects that sheets declare; WM_EN, cleared, clears WM. -/
def Obligations.DeframerAligns : Prop :=
  (∀ (x : RxLane) (shed : Bool) (c : MarkerInfo) (a : Nat),
    (x.st = .hunt → x.judge shed none a = none ∧ x.judge shed (some c) a = some { x.take c a with st := .presync1 })
    ∧ (x.st = .presync1 → x.matches shed c = true → x.judge shed (some c) a = some { x.take c a with st := .presync2 })
    ∧ (x.st = .presync2 → x.matches shed c = true → x.judge shed (some c) a = some { x.take c a with st := .sync })
    ∧ (x.st = .presync1 ∨ x.st = .presync2 → x.matches shed c = false → x.judge shed (some c) a = some { x with st := .hunt })
    ∧ (x.st = .sync → x.matches shed c = true → x.judge shed (some c) a = some (x.take c a))
    ∧ (x.st = .sync → (x.judge shed none a).map (·.st) = some (if x.misses < 3 then .sync else .hunt)))
  ∧ ∀ (s : State) (m : Fin 4), s.millLive m = true →
    (∀ (j : Fin 8) (c1 c2 : Codeword), (s.line m).lanes[j].locw = true → s.laneDelivers (lineLane m j) = true →
      Rs.correctable c1 = true → Rs.correctable c2 = true → Completes (.codewordLock m { lane := j, first := c1, second := c2 }) s fun u =>
      u.mills = (s.modLine m fun l => { l with lanes := l.lanes.set j { l.lanes[j] with
        locw := false, holdoff := (s.dkl m).rxMap.getLsbD j.val, ready := false } }).mills)
    ∧ (∀ (j : Fin 8) (o : MarkerObs), s.rxEn m = true → s.huntEn m = true → (s.line m).lanes[j].locw = false →
      s.laneDelivers (lineLane m j) = true → let z := (s.line m).lanes[j].judge (s.shedComes m) (candidate (markerWindow o)) o.arrival
      (z = none → exec (.laneMarkerCheck m j o) s = .next s)
      ∧ ∀ y, z = some y → Completes (.laneMarkerCheck m j o) s fun u =>
        (u.line m).lanes[j].st = y.st ∧ (u.line m).lanes[j].lsc = y.lsc ∧ (u.line m).lanes[j].lane = y.lane
        ∧ (u.line m).lanes[j].count = y.count ∧ (u.line m).lanes[j].arrival = y.arrival
        ∧ ((s.line m).lanes[j].st = .sync → y.st = .hunt → (u.line m).lanes[j].lol = true)
        ∧ ((s.line m).aligned = false → (u.line m).aligned = true → (u.line m).defects.loa = false ∧ (u.line m).everAligned = true
          ∧ (u.line m).rxNext = BitVec.ofNat 32 (u.markerLsc m)))
    ∧ (s.rxEn m = true → (s.line m).everAligned = true → (s.line m).aligned = false → Completes (.lostSheetPeriod m) s fun u =>
      (u.line m).outage = (s.line m).outage + 1 ∧ (u.line m).rebuild = [] ∧ (u.line m).dlg.rxFrags = 0)
    ∧ (s.rxEn m = false → Completes (.lnfRxEnable m) s fun u => u.regs = (s.setBit (Reg.lnf m 0) 1).regs
      ∧ u.mills = (s.modLine m fun l => { l with everAligned := false, rxLast := none, outage := 0 }).mills)
    ∧ (s.rxEn m = true → Completes (.lnfRxDisable m) s fun u => let d := (u.line m).defects
      (∀ j : Fin 8, (u.line m).lanes[j].st = .hunt ∧ (u.line m).lanes[j].lol = true) ∧ d.loa = true ∧ d.auth = false
      ∧ d.keyless = false ∧ d.wm = false ∧ (∀ i, d.fe i = false) ∧ (u.line m).runs = {}
      ∧ ((s.line m).defects.loa = false → (u.line m).aligned = false))
    ∧ Completes (.lnfWmDisable m) s (fun u => (u.line m).defects = { (s.line m).defects with wm := false }
      ∧ (u.line m).runs = { (s.line m).runs with wmBad := 0, wmGood := 0 })

/-- R66, R68, R78, R134, R135, R140: a sheet arrives, put together from the words of its lanes once every lane has its marker of that
ream. One whose sequence number is not above the highest accepted is never accepted; an accepted
one raises that number and ends a trial; one that is not is lost, and changes no key. While a key is receive-enabled an unkeyed
sheet is skipped. A trial that has used up its sheets starts again. -/
def Obligations.SheetsArrive : Prop :=
  (∀ (v : Lkn) (dir : Bool) (x : Sheet) (n : Nat) (pt : Bytes), v.verdict dir x = .accept n pt →
    v.loaded = true ∧ v.rx = true ∧ v.sh < n ∧ n ≤ 2 ^ 48 ∧ n % 2 ^ 32 = beNat (slice x.oh 4 4) % 2 ^ 32)
  ∧ ∀ (s : State) (m : Fin 4), s.millLive m = true →
    (∀ (lanes : List LaneRx) (bs : Bytes), s.rxEn m = true → (s.line m).aligned = true → s.reamHere m = true →
      s.sheetFrom m lanes = some bs →
      let x := sheetOf bs
      let keyed := natBit (byteAt x.oh 2).toNat 7 = false
      let k : Fin 4 := ⟨(byteAt x.oh 2).toNat % 4, by omega⟩
      let v := (s.lkn m k).verdict (!s.lciEnd m) x
      Completes (.sheetReceive m lanes) s fun u =>
        (u.line m).rxNext = (s.line m).rxNext + 1 ∧ (u.line m).rxLast = some (s.line m).rxNext
        ∧ (∀ n pt, keyed → v = .accept n pt → (u.lkn m k) = { s.lkn m k with sh := n, track := .track, rxSeen := true })
        ∧ (keyed → v = .disabled ∨ v = .seqReject ∨ v = .tagFail → (u.lkn m k).sh = (s.lkn m k).sh ∧ (u.line m).rebuild = []
          ∧ (u.line m).runs.authFail = (s.line m).runs.authFail + 1)
        ∧ (¬ keyed → (s.lci m).anyRx = true → (u.lci m) = s.lci m ∧ (u.line m).rebuild = (s.line m).rebuild
          ∧ (u.line m).dlg = (s.line m).dlg ∧ (u.line m).runs.unkeyed = (s.line m).runs.unkeyed + 1))
    ∧ (∀ (k : Fin 4) (b n : Nat), (s.lkn m k).track = .trial b n → s.trialN m ≤ n → (s.line m).dlg.upperIn k = false → Completes (.trialExhausted m k) s fun u =>
      (u.lkn m k).track = .resync
      ∧ (.seqQuery k ∈ (u.line m).dlg.queue ∨ (u.line m).dlg.out.map (·.own) = some (some (.seqQuery k))))

/-- R84, R111 (Table 2-12): a defect is declared once its run of sheets is complete, and cleared once the run of its clearing is; no other
defect changes. AUTH and WM fire the line integrity source where the island is out of reset. Codeword lock is
lost with the eighth uncorrectable codeword, or with the signal; its lane is then in HUNT with LOL. A shed lane that
has stayed locked through its hold-off is announced as ready. -/
def Obligations.DefectsAreDeclared : Prop :=
  ∀ (s : State) (m : Fin 4), s.millLive m = true → let l := s.line m
    (∀ (j : Fin 8) (cws : List Codeword), l.lanes[j].locw = false →
      s.laneDelivers (lineLane m j) = false ∨ (cws.length = 8 ∧ ∀ c ∈ cws, Rs.correctable c = false) →
      Completes (.defectDeclare m (.locw j cws)) s fun u => (u.line m).lanes[j].locw = true
      ∧ (u.line m).lanes[j].lol = true ∧ (u.line m).lanes[j].st = .hunt ∧ (u.line m).lanes[j].ready = false)
    ∧ (s.rxEn m = true →
      (l.defects.auth = false → s.fld (Reg.lnf m 0) 8 4 ≤ l.runs.authFail → Completes (.defectDeclare m .auth) s fun u =>
        (u.line m).defects = { l.defects with auth := true } ∧ u.tmp = (s.setAuth m true).lineIntegrity.tmp)
      ∧ (l.defects.keyless = false → 3 ≤ l.runs.unkeyed → Completes (.defectDeclare m .keyless) s fun u =>
        (u.line m).defects = { l.defects with keyless := true })
      ∧ (l.defects.wm = false → s.bit (Reg.lnf m 0) 3 = true → 3 ≤ l.runs.wmBad → Completes (.defectDeclare m .wm) s fun u =>
        (u.line m).defects = { l.defects with wm := true } ∧ u.tmp = (s.setWm m true).lineIntegrity.tmp)
      ∧ (∀ d i, State.feIndex d = some i → l.defects.fe i = false → 3 ≤ l.runs.feSet[i] → Completes (.defectDeclare m d) s fun u =>
        (u.line m).defects = l.defects.setFe i true)
      ∧ (l.defects.auth = true → 4 ≤ l.runs.authOk → Completes (.defectClear m .auth) s fun u =>
        (u.line m).defects = { l.defects with auth := false })
      ∧ (l.defects.keyless = true → 3 ≤ l.runs.keyed → Completes (.defectClear m .keyless) s fun u =>
        (u.line m).defects = { l.defects with keyless := false })
      ∧ (l.defects.wm = true → 3 ≤ l.runs.wmGood → Completes (.defectClear m .wm) s fun u =>
        (u.line m).defects = { l.defects with wm := false })
      ∧ (∀ d i, State.feIndex d = some i → l.defects.fe i = true → 3 ≤ l.runs.feClr[i] → Completes (.defectClear m d) s fun u =>
        (u.line m).defects = l.defects.setFe i false))
    ∧ (∀ j : Fin 8, (s.dkl m).rxMap.getLsbD j.val = true → l.lanes[j].holdoff = true → l.lanes[j].locw = false →
      Completes (.shedHoldoffExpire m j) s fun u => u.mills = (s.modLine m fun l => { l with
        lanes := l.lanes.set j { l.lanes[j] with holdoff := false, ready := true }
        dlg := { l.dlg with queue := l.dlg.queue ++ [.laneReady j] } }).mills)

/-! ## The dialogue (chapters 2, 3 and 4) -/

/-- R86, R88, R90, R113, R138, R139, R140 (Table 2-14): a message that has been taken is acted on. HELLO and CONFIRM negotiate the version,
which takes effect at the next ream boundary; SEQ_UPPER starts a trial, SEQ_QUERY asks for one; LANE_READY and LANE_UNREADY announce
a far lane and withdraw it; a host message goes to the receive buffer; a message of a reserved type is discarded. -/
def Obligations.DialogueNegotiates : Prop :=
  ∀ (s : State) (m : Fin 4) (x : DlgIn) (w : State), let d := (w.line m).dlg
    (s.dlgOf m 0x01 = some (x, w) → let n := BitVec.ofNat 32 (beNat (slice x.body 4 4))
      let e : Dlg := { d with farSession := some n, farMin := (byteAt x.body 0).toNat, farMax := (byteAt x.body 1).toNat }
      Completes (.dlgHello m) s fun u => let f := (u.line m).dlg
        (d.neg = .down → f = e)
        ∧ (d.neg ≠ .down → d.neg ≠ .offer → d.farSession = some n → f = d)
        ∧ (∀ v, d.neg = .offer → e.common = some v → f = { e with neg := .confirm, queue := e.queue ++ [.confirm v n] })
        ∧ (d.neg = .offer → e.common = none → f = { e with neg := .failed } ∧ (u.line m).defects.verf = true)
        ∧ (d.neg ≠ .down → d.neg ≠ .offer → d.farSession ≠ some n → .hello ∈ f.queue ∧ (f.neg = .confirm ∨ f.neg = .failed)))
    ∧ (s.dlgOf m 0x02 = some (x, w) → Completes (.dlgConfirm m) s fun u => let f := (u.line m).dlg
        (d.neg ≠ .confirm → f = d)
        ∧ (d.neg = .confirm → d.common = some (byteAt x.body 0).toNat → beNat (slice x.body 4 4) = d.session.toNat →
          f = { d with verNext := some (byteAt x.body 0).toNat, verchkSent := false, neg := .agreed } ∧ (u.line m).defects.verf = false)
        ∧ (d.neg = .confirm → d.common ≠ some (byteAt x.body 0).toNat ∨ beNat (slice x.body 4 4) ≠ d.session.toNat →
          f = { d with neg := .failed } ∧ (u.line m).defects.verf = true))
    ∧ (s.dlgOf m 0x03 = some (x, w) → Completes (.dlgVerchk m) s fun u => (u.line m).dlg = d
        ∧ (d.neg = .agreed → x.body ≠ [byteOf d.farMin, byteOf d.farMax, byteOf d.ownMin, byteOf d.ownMax] → (u.line m).defects.verf = true)
        ∧ (d.neg ≠ .agreed ∨ x.body = [byteOf d.farMin, byteOf d.farMax, byteOf d.ownMin, byteOf d.ownMax] →
          (u.line m).defects = (s.line m).defects))
    ∧ (s.dlgHead m (fun y => decide (0x80 ≤ y.type.toNat ∧ y.type.toNat < 0xFF)) = some (x, w) →
      Completes (.dlgHostMessage m) s fun u => u.regs = (s.setBit (Reg.lnf m 0x20) 7).regs
        ∧ (u.line m).dlg = { d with rxbuf := padTo 240 (x.type :: byteOf x.body.length :: x.body) })
    ∧ (s.dlgHead m (fun y => !y.known) = some (x, w) → Completes (.dlgReservedType m) s fun u => u.mills = w.mills)
    ∧ (s.dlgOf m 0x10 = some (x, w) → Completes (.seqUpper m) s fun u =>
        ((s.lkn m x.lkn).track = .track → u.mills = w.mills)
        ∧ ((s.lkn m x.lkn).track ≠ .track → u.mills = (w.modLkn m x.lkn fun v => { v with
          track := .trial (beNat (slice x.body 4 4) * 2 ^ 32 + x.seqLo) 0 }).mills))
    ∧ (s.dlgOf m 0x11 = some (x, w) → Completes (.seqQuery m) s fun u =>
        ((s.lci m).current = some x.lkn → d.upperOut = false → (u.line m).dlg = { d with queue := d.queue ++ [.seqUpper x.lkn] })
        ∧ ((s.lci m).current ≠ some x.lkn ∨ d.upperOut = true → u.mills = w.mills))
    ∧ (s.dlgOf m 0x18 = some (x, w) → Completes (.laneReady m) s fun u =>
        (d.ver < 3 → u.mills = w.mills) ∧ (3 ≤ d.ver → (u.dkl m).farReady = (s.dkl m).farReady ||| (1#8 <<< x.far.val)))
    ∧ (s.dlgOf m 0x19 = some (x, w) → Completes (.laneUnready m) s fun u =>
        (d.ver < 3 → u.mills = w.mills) ∧ (3 ≤ d.ver → u.mills = (w.modDkl m fun k => { k with
          farReady := k.farReady &&& ~~~(1#8 <<< x.far.val) }).mills))

/-- R86, R87, R88, R89, R90: what the dialogue sends. An acknowledged message is done and clears DLGF; one that is not is sent again
whole, as often as LNF_DLG allows, and then fails with DLGF. SEND takes a host message whose type, length and bytes are legal, and
sets TX_ERR otherwise; while a message of the host waits the write is locked. RENEG offers again; clearing RX_FULL frees the buffer. -/
def Obligations.DialogueSends : Prop :=
  ∀ (s : State) (m : Fin 4), s.millLive m = true → let d := (s.line m).dlg
    (∀ o, (s.line m).defects.loa = false → d.acked = some o → Completes (.dlgAck m) s fun u =>
      (u.line m).dlg = { d with out := none } ∧ (u.line m).defects = { (s.line m).defects with dlgf := false })
    ∧ (∀ o, (s.line m).defects.loa = false → d.acked = none → d.out = some o → o.frags ≤ o.frag → (∀ k, o.own ≠ some (.seqUpper k)) →
      16 * s.fld (Reg.lnf m 0x20) 16 12 ≤ o.wait → Completes (.dlgRetryTimeout m) s fun u =>
        (o.sends < s.fld (Reg.lnf m 0x20) 28 4 →
          (u.line m).dlg = { d with out := some { o with frag := 0, sends := o.sends + 1, wait := 0 } })
        ∧ (s.fld (Reg.lnf m 0x20) 28 4 ≤ o.sends → (u.line m).dlg.out = none ∧ (u.line m).defects = { (s.line m).defects with dlgf := true }))
    ∧ (∀ pf : Fin 2,
      (∀ x, d.busy = false → hostMessage (s.txBuf m) = some x → Completes (.dlgSend pf m) s fun u =>
        u.mills = (s.modLine m fun l => { l with dlg := { l.dlg with host := some x } }).mills)
      ∧ (d.busy = false → hostMessage (s.txBuf m) = none → Completes (.dlgSend pf m) s fun u =>
        u.mills = s.mills ∧ u.regs = (s.setBit (Reg.lnf m 0x20) 13).regs)
      ∧ (d.busy = true → Completes (.dlgSend pf m) s fun u => Only settled s u))
    ∧ (d.neg = .failed → Completes (.dlgReneg m) s fun u => (u.line m).dlg.neg = .offer
      ∧ ((u.line m).dlg.helloWait = true ∨ .hello ∈ (u.line m).dlg.queue))
    ∧ (s.bit (Reg.lnf m 0x20) 7 = true → Completes (.dlgRxRelease m) s fun u =>
      u.mills = s.mills ∧ u.regs = (s.setBit (Reg.lnf m 0x20) 7 false).regs)

/-! ## Deckle pages (chapter 3) -/

/-- R96, R97, R98: `DKWRITE` transfers entries and attributes to the standby page; a failed transfer writes nothing; while the pages
are being cleared it waits. A validation judges the page; one for SHED_READY marks the page ready, or fails with its cause. An automatic
restore that these held back may then begin (R110). -/
def Obligations.PagesAreWritten : Prop :=
  ∀ (s : State), let after := fun (u : State) (m : Fin 4) (f : Deckle → Deckle) => u.mills = ((s.modDkl m f).autoRestore m).mills
    (∀ (r : Rid) (d : Desc), s.Takes r 0x10 (fun _ => true) d → let m := r.eng
      let setAttr := natBit d.p1 13
      let t : Transfer := {
        ref := d.ref r, start := d.arg 0 4, count := d.arg 4 4, addr := d.arg 8 8
        lanes := if setAttr then some (d.p1 % 16) else none, shedReady := if setAttr then some (natBit d.p1 12) else none }
      ((s.dkl m).clearing = true → Completes (.dkwrite r) s fun u => (u.ring r).waiting = true ∧ u.mills = s.mills)
      ∧ ((s.dkl m).clearing = false → s.dklBusy m = false → d.arg 0 4 + d.arg 4 4 ≤ 127000 → d.arg 4 4 ≠ 0 ∨ setAttr = true →
        1 ≤ d.p1 % 16 ∧ d.p1 % 16 ≤ 8 → Completes (.dkwrite r) s fun u => u.Pends (d.ref r)
          ∧ u.mills = (s.modDkl m fun x => { (if d.arg 4 4 = 0 then x else x.setReady (!x.activeB) false) with transfer := some t }).mills))
    ∧ (∀ (m : Fin 4) (t : Transfer), (s.dkl m).transfer = some t →
      let b := !(s.dkl m).activeB
      let put := fun (x : Deckle) (es : List W16) =>
        let y : Deckle := { x with transfer := none }.write b t.start es
        match t.lanes with | some n => y.setLanes b n | none => y
      (∀ bs, t.count ≠ 0 → bs.length = 2 * t.count → Completes (.dkwriteTransferDone m (.data bs)) s fun u =>
        let x := put (s.dkl m) (entriesOf t.count bs)
        (t.shedReady = none → after u m (fun _ => x) ∧ s.Records u t.ref 0)
        ∧ (t.shedReady = some false → after u m (fun _ => x.setReady b false) ∧ s.Records u t.ref 0)
        ∧ (t.shedReady = some true → after u m fun _ => { x with validating := some (.shedReady t.ref) }))
      ∧ (∀ h, t.count = 0 → t.shedReady = none → Completes (.dkwriteTransferDone m h) s fun u =>
        after u m (fun x => put x []) ∧ s.Records u t.ref 0)
      ∧ (t.count ≠ 0 → Completes (.dkwriteTransferDone m .error) s (fun u =>
          after u m (fun x => { x with transfer := none }) ∧ s.Records u t.ref 0x19)
        ∧ Completes (.dkwriteTransferDone m .timeout) s fun u =>
          after u m (fun x => { x with transfer := none }) ∧ s.Records u t.ref 0x1A))
    ∧ (∀ (m : Fin 4) (ref : CmdRef), (s.dkl m).validating = some (.shedReady ref) →
      let b := !(s.dkl m).activeB
      let f := pageFault (fun n => !s.tribAbsent m n) ((s.dkl m).page b)
      Completes (.dklValidationDone m) s fun u =>
        (f = none → s.Records u ref 0 ∧ after u m fun x =>
          { x with validating := none, valIndex := 0, valCause := 0 }.setReady b true)
        ∧ (∀ e c, f = some (e, c) → s.Records u ref 0x21 ∧ after u m fun x =>
          { x with validating := none, valIndex := e, valCause := c }))
    ∧ (∀ m : Fin 4, s.millLive m = true → (s.dkl m).clearing = true → Completes (.dklClearDone m) s fun u =>
      after u m fun x => { x with clearing := false })

/-- R99, R100, R101, R105, R110 (Table 3-3): flips, sheds and restores. Each begins with a validation. A page that passes takes over
at once while TX_EN is 0, and otherwise with the ream named, no sooner than three reams ahead; the ream that is armed swaps the
pages. A cancelled arm ends as cancelled, where FLIP_CD has not begun. -/
def Obligations.PagesTakeOver : Prop :=
  ∀ (s : State),
    (∀ (r : Rid) (d : Desc), let m := r.eng
      let begins := fun (c : Instr) (k : ArmKind) (v : ValFor) => s.dklBusy m = false → s.armCheck m k = none →
        Completes c s fun u => u.Pends (d.ref r) ∧ u.mills = (s.modDkl m fun x => { x with validating := some v }).mills
      (s.Takes r 0x11 (· = 0) d → begins (.dkflipEarliest r) .flip (.flip (d.ref r) none))
      ∧ (s.Takes r 0x11 (· = 1) d → begins (.dkflipAt r) .flip (.flip (d.ref r) (some (BitVec.ofNat 32 (d.arg 0 4)))))
      ∧ (s.Takes r 0x12 (· = 0) d → begins (.dkshedShed r) (.shed (shedLane d)) (.shed (d.ref r) (shedLane d) (shedTarget d)))
      ∧ (s.Takes r 0x12 (· = 1) d → begins (.dkshedRestore r) (.restore (shedLane d)) (.restore (some (d.ref r)) (shedLane d) (shedTarget d)))
      ∧ (s.Takes r 0x11 (· = 2) d → Completes (.dkflipCancel r) s fun u =>
        ((s.dkl m).arm = none → s.Records u (d.ref r) 0 ∧ u.mills = s.mills)
        ∧ (∀ a, (s.dkl m).arm = some a → (s.dkl m).flipCd ≠ 0 → s.Records u (d.ref r) 2 ∧ u.mills = s.mills)
        ∧ (∀ a, (s.dkl m).arm = some a → (s.dkl m).flipCd = 0 → s.Records u (d.ref r) 0
          ∧ u.mills = ((s.modDkl m fun x => { x with arm := none }).autoRestore m).mills ∧ ∀ q, a.ref = some q → s.Records u q 1)))
    ∧ (∀ (m : Fin 4) (v : ValFor) (k : ArmKind) (ref : Option CmdRef) (target : Option W32), (s.dkl m).validating = some v →
      ((∃ q, v = .flip q target ∧ k = .flip ∧ ref = some q) ∨ (∃ q j, v = .shed q j target ∧ k = .shed j ∧ ref = some q)
        ∨ ∃ j, v = .restore ref j target ∧ k = .restore j) → (s.dkl m).arm = none →
      let f := pageFault (fun n => !s.tribAbsent m n) ((s.dkl m).page (!(s.dkl m).activeB))
      let rc := (s.line m).rc
      let soon := fun (t : W32) => decide ((t - rc).toNat < 3 ∨ 2 ^ 31 ≤ (t - rc).toNat)
      Completes (.dklValidationDone m) s fun u => (s.bit (Reg.dkl m 0) 1 = false → (u.dkl m).validating = none)
        ∧ (∀ st, s.armCheck m k = some st → (u.dkl m).arm = none ∧ (u.dkl m).activeB = (s.dkl m).activeB ∧ ∀ q, ref = some q → s.Records u q st)
        ∧ (s.armCheck m k = none → f.isSome = true → (u.dkl m).arm = none ∧ (u.dkl m).activeB = (s.dkl m).activeB
          ∧ ∀ q, ref = some q → s.Records u q 0x21)
        ∧ (s.armCheck m k = none → f = none → s.txEn m = false → (u.dkl m).arm = none ∧ (u.dkl m).activeB = !(s.dkl m).activeB
          ∧ ∀ q, ref = some q → s.Records u q 0)
        ∧ (s.armCheck m k = none → f = none → s.txEn m = true → (u.dkl m).activeB = (s.dkl m).activeB
          ∧ (u.dkl m).arm = some (match target with
            | none => { kind := k, rcF := rc + 3, ref := ref, late := false }
            | some t => { kind := k, rcF := if soon t then rc + 3 else t, ref := ref, late := soon t })))
    ∧ (∀ (m : Fin 4) (a : PageArm), s.framerRuns m = true → (s.line m).inReam = false → (s.dkl m).arm = some a →
      let rc := if (s.line m).begun then (s.line m).rc + 1 else 0
      Completes (.reamBegin m) s fun u =>
        (rc = a.rcF → (u.dkl m).arm = none ∧ (u.dkl m).activeB = !(s.dkl m).activeB ∧ ∀ q, a.ref = some q → s.Records u q 0 rc.toNat a.late)
        ∧ (rc ≠ a.rcF → (u.dkl m).arm = some a ∧ (u.dkl m).activeB = (s.dkl m).activeB
          ∧ (u.dkl m).flipCd = if rc = a.rcF - 2 then 2 else if rc = a.rcF - 1 then 1 else (s.dkl m).flipCd))

/-! ## Line keys (chapter 4) -/

/-- R123, R125, R140: `LKARM` LOAD fills an LKN from its slot, with salt and CHID; RXON and RXOFF enable and disable it at the receiver;
RESYNC starts a new search for its sequence number; `LKRETIRE` empties it. No other LKN of any mill changes. R156: the SA instructions
that set up. INSTALL enters the directory and the SC table and writes the context; UPDATE_LPN raises the floor, and faults an SA whose
context cannot be read; SETCUR names the transmit association; UNPIN. -/
def Obligations.KeysLoadAndRetire : Prop :=
  (∀ (s : State) (r : Rid) (d : Desc),
     let m := r.eng
     let k := lkOf d
     let becomes := fun (c : Instr) (f : Lkn → Lkn) => Completes c s fun u => s.Applies u r d ∧ u.mills = (s.modLkn m k f).mills
     (s.Takes r 0x18 (· = 0) d → s.kstClosed = false → s.lkLoadCheck (ringPf r) m d = none → becomes (.lkarmLoad r) fun _ =>
       { loaded := true, key := (s.slot d.p2).key, salt := beNat (d.argBytes 0 12), chid := d.arg 12 4, slot := d.p2, gen := (s.slot d.p2).gen })
     ∧ (s.Takes r 0x18 (· = 0) d → s.kstClosed = true → Completes (.lkarmLoad r) s fun u =>
       (u.ring r).waiting = true ∧ u.mills = s.mills)
     ∧ (s.Takes r 0x18 (· = 1) d → (s.lkn m k).loaded = true → becomes (.lkarmRxon r) fun x => { x with rx := true, rxSeen := false })
     ∧ (s.Takes r 0x18 (· = 2) d → (s.lkn m k).loaded = true → becomes (.lkarmRxoff r) fun x => { x with rx := false, track := .track })
     ∧ (s.Takes r 0x18 (· = 6) d → (s.lkn m k).loaded = true → (s.lkn m k).rx = true → Completes (.lkarmResync r) s fun u =>
       s.Applies u r d ∧ u.lci m = ((s.modLkn m k fun x => { x with track := .resync }).lci m)
       ∧ (.seqQuery k ∈ (u.line m).dlg.queue ∨ (u.line m).dlg.out.map (·.own) = some (some (.seqQuery k))))
     ∧ (s.Takes r 0x19 (fun _ => true) d → (s.lkn m k).loaded = true → (s.lkn m k).tx = .idle ∨ (s.lkn m k).tx = .done →
       becomes (.lkretire r) fun _ => {}))
  ∧
  (∀ (s : State) (r : Rid) (d : Desc),
     let m := r.eng
     let sax := saxOf d
     (s.Takes r 0x01 (· = 0) d → s.kstClosed = false → s.saInstCheck (ringPf r) m d = none →
       Completes (.sainstInstall r) s fun u => s.Applies u r d ∧ u.sa = tset default sax { st := .installed, parent := d.arg 2 2 } s.sa
         ∧ (u.sac m).writes = (s.sac m).writes ++ [{ sax := sax, ctx := s.newCtx m d ((saUnwrap s d).getD []), wid := s.mem.nextWid }]
         ∧ u.sc = tset default d.p2 { valid := true, rx := natBit (d.arg 0 1) 7, mill := m
                                      txAn := if natBit (d.arg 4 1) 0 && !natBit (d.arg 0 1) 7 then d.p1 % 4 else (s.scAt d.p2).txAn } s.sc)
     ∧ (s.Takes r 0x01 (· = 1) d → checkSainstUpdateLpn s m d = none →
       (∀ c, s.ctxNow m sax = .ok c → Completes (.sainstUpdateLpn r) s fun u => s.Applies u r d ∧ u.mills =
         if ctxLe c 88 8 < d.arg 32 8 then (s.storeCtx' m sax (ctxSet c 88 8 (d.arg 32 8))).mills else s.mills)
       ∧ (∀ cause, s.ctxNow m sax = .error cause → Completes (.sainstUpdateLpn r) s fun u =>
         s.Applies u r d ∧ u.mills = (s.saFault m sax cause).mills ∧ u.sa = (s.saFault m sax cause).sa))
     ∧ (s.Takes r 0x01 (· = 2) d → checkSainstSetcur s m d = none →
       Completes (.sainstSetcur r) s fun u => s.Applies u r d ∧ u.sc = tset default d.p2 { s.scAt d.p2 with txAn := d.p1 % 4 } s.sc)
     ∧ (s.Takes r 0x03 (· = 1) d → checkSapinUnpin s m d = none →
       Completes (.sapinUnpin r) s fun u => s.Applies u r d
         ∧ ((s.sac m).fillWait = [] → u.sa = tset default sax { s.saAt sax with pinned := false } s.sa)))

/-- R123, R130, R131, R144: the key in use. An arm by ream or by time takes effect at once while TX_EN is 0, and waits for its ream
otherwise; the ream that it names makes its LKN the current one and the former one done. CANCEL withdraws it; HALT lets the current
key end at the next ream boundary, at once while TX_EN is 0. -/
def Obligations.LineKeysChange : Prop :=
  ∀ (s : State),
    (∀ (r : Rid) (d : Desc), let m := r.eng
      let k := lkOf d
      let rc := (s.line m).rc.toNat
      let diff := (d.arg 0 4 + 2 ^ 32 - rc) % 2 ^ 32
      let late := decide (diff = 0 ∨ 2 ^ 31 ≤ diff)
      let now := fun (c : Instr) => s.txEn m = false → Completes c s fun u => s.Records u (d.ref r) 0 ∧ (u.lkn m k).tx = .current
        ∧ (u.lci m).arm = none ∧ ∀ j, j ≠ k → (s.lci m).current = some j → (u.lkn m j).tx = .done
      (s.Takes r 0x18 (· = 3) d → checkLkarmArm s m d = none → now (.lkarmArmReam r) ∧ (s.txEn m = true →
        Completes (.lkarmArmReam r) s fun u => u.Pends (d.ref r) ∧ (u.lkn m k) = { s.lkn m k with tx := .armed }
          ∧ (u.lci m).arm = some { lkn := k, ref := some (d.ref r), time := none, late := late }
          ∧ (u.lci m).armRc = if late then BitVec.ofNat 32 (rc + 1) else BitVec.ofNat 32 (d.arg 0 4)))
      ∧ (∀ t, s.Takes r 0x18 (· = 4) d → d.time = some t → checkLkarmArm s m d = none → s.tbRun (s.lciTb m) = true →
        now (.lkarmArmTime r) ∧ (s.txEn m = true → Completes (.lkarmArmTime r) s fun u => u.Pends (d.ref r)
          ∧ (u.lkn m k) = { s.lkn m k with tx := .armed }
          ∧ (u.lci m).arm = some { lkn := k, ref := some (d.ref r), time := some t, late := decide (t ≤ (s.tbAt (s.lciTb m)).val) }))
      ∧ (s.Takes r 0x18 (· = 5) d → (s.lkn m k).loaded = true → (s.lkn m k).tx = .idle → Completes (.lkarmCancel r) s fun u =>
        s.Applies u r d ∧ u.mills = s.mills)
      ∧ (∀ a, s.Takes r 0x18 (· = 5) d → (s.lkn m k).loaded = true → (s.lkn m k).tx = .armed → (s.lci m).arm = some a → a.lkn = k →
        Completes (.lkarmCancel r) s fun u => s.Applies u r d ∧ (u.lci m).arm = none ∧ (u.lkn m k) = { s.lkn m k with tx := .idle }
          ∧ ∀ q, a.ref = some q → s.Records u q 1)
      ∧ (s.Takes r 0x18 (· = 7) d → (s.lkn m k).loaded = true → (s.lkn m k).tx = .current → Completes (.lkarmHalt r) s fun u =>
        (s.txEn m = true → u.Pends (d.ref r) ∧ (u.lkn m k) = { s.lkn m k with halts := (s.lkn m k).halts ++ [d.ref r] })
        ∧ (s.txEn m = false → s.Records u (d.ref r) 0 ∧ (u.lkn m k) = { s.lkn m k with tx := .done, halts := [] })))
    ∧ (∀ m : Fin 4, s.canonical = true → s.framerRuns m = true → (s.line m).inReam = false →
      let rc := if (s.line m).begun then (s.line m).rc + 1 else 0
      Completes (.reamBegin m) s fun u =>
        (∀ a, (s.lci m).arm = some a → (a.time = none ∧ (s.lci m).armRc = rc) ∨ (∃ t, a.time = some t ∧ (a.late = true ∨ t ≤ (s.tbAt (s.lciTb m)).val)) →
          (u.lkn m a.lkn).tx = .current ∧ (u.lci m).arm = none ∧ (u.lci m).armRc = rc
          ∧ ∀ q, a.ref = some q → s.Records u q 0 rc.toNat a.late)
        ∧ (∀ k, (s.lci m).arm = none → (s.lci m).current = some k → (s.lkn m k).halts ≠ [] →
          (u.lkn m k) = { s.lkn m k with tx := .done, halts := [] } ∧ ∀ h ∈ (s.lkn m k).halts, s.Records u h 0)
        ∧ ((s.lci m).arm = none → (∀ k, (s.lkn m k).halts = []) → u.lci m = s.lci m))

/-! ## Serial lanes and the felt link (chapter 13) -/

/-- R370, R375, R376, R379, R380, R381, R394 (Tables 13-2, 13-3, 13-13): a serial lane. A written MODE disables the receiver and makes its
saved settings invalid; a transmitter leaves electrical idle with a training burst, and enters it again where a condition ceases, the
lock of its PLL among them (log entry 118); the receiver waits for a
signal, locks, adapts or checks saved settings, tracks, and starts again where it fails; an eye scan runs in TRACK only. The model
loads no thresholds with MODE OFF (log entry 72). -/
def Obligations.LanesTrain : Prop :=
  (∀ (l : Lane) (lo hi k : Nat) (fom : Byte) (conv : Bool), let y := (l.window lo hi k fom conv).1
    (l.st = .fastCheck → y.st = if hi ≤ fom.toNat then .track else .adapt)
    ∧ (l.st = .adapt → y.st = if conv = true ∧ lo ≤ fom.toNat ∧ 3 ≤ l.good then .track else .adapt)
    ∧ (l.st = .track → y.st = if fom.toNat < hi ∧ fom.toNat < lo ∧ k ≤ l.low + 1 then .adapt else .track)
    ∧ (l.st = .cdr → y = { l with fom := fom }))
  ∧ ∀ (s : State) (n : Fin 68),
    let r := Reg.ser n.val 0
    let runs := s.bit r 1 = true ∧ s.laneMode n.val ≠ 0 ∧ s.modeErr n = false
    let only := fun (u : State) (l : Lane) => u.lanes = s.lanes.set n l
    (∀ mode : Fin 16, s.laneLive n = true → modeListed n mode.val = true → Completes (.laneModeWrite n mode) s fun u =>
      (u.lane n).saved = false ∧ u.lanes = (laneAfter s (s.modeWrite n mode.val) n).lanes
      ∧ (s.canonical = true → u.laneMode n.val = mode.val ∧ (mode.val = 0 → (u.lane n).st = .disabled)))
    ∧ ((s.lane n).txIdle = true → (s.setUnlocked n false).txMay n = true → Completes (.txLeaveIdle n) s fun u => s.trainingOf n ∈ u.out
      ∧ u.lanes = ((s.setUnlocked n false).modLane n fun l => { l with txIdle := false, burst := true }).lanes)
    ∧ ((s.lane n).txIdle = false → Completes (.txEnterIdle n) s fun u => (u.lane n).txIdle = true ∧ (u.lane n).burst = false
      ∧ (s.txMay n = true → ∀ k ∈ pllLanes n, (u.lane k).unlocked = true))
    ∧ ((s.lane n).burst = true → Completes (.trainingBurstEnd n) s fun u => only u { s.lane n with burst := false })
    ∧ (s.laneLive n = true → s.canonical = true → runs →
      ((s.lane n).sigDet = false → Completes (.sigDetChange n true) s fun u => (u.lane n).sigDet = true
        ∧ ((s.lane n).st = .waitSig → (u.lane n).st = .cdr))
      ∧ ((s.lane n).sigDet = true → (s.lane n).st ≠ .disabled → Completes (.sigDetChange n false) s fun u =>
        (u.lane n).sigDet = false ∧ (u.lane n).st = .waitSig)
      ∧ ((s.lane n).st = .cdr → Completes (.cdrLock n) s fun u =>
        (u.lane n).st = if s.bit r 13 = true ∧ (s.lane n).saved = true then .fastCheck else .adapt)
      ∧ (∀ (fom : Byte) (conv : Bool), (s.lane n).st ≠ .disabled → (s.lane n).st ≠ .waitSig → Completes (.fomWindowEnd n fom conv) s fun u =>
        let y := ((s.lane n).window (s.fld (r + 8) 0 8) (s.fld (r + 8) 8 8) (s.fld (r + 8) 16 4) fom conv).1
        (u.lane n).st = y.st ∧ (u.lane n).saved = y.saved ∧ (u.lane n).fom = fom)
      ∧ ((s.lane n).st = .cdr ∨ (s.lane n).st = .adapt → Completes (.adaptTimeout n) s fun u => (u.lane n).st = .cdr))
    ∧ (∀ v : W32, s.laneLive n = true → natBit v.toNat 31 = true → (s.lane n).eyeBusy = false → Completes (.eyeScanStart n v) s fun u =>
      ((s.lane n).st = .track → only u { s.lane n with eyeBusy := true, eyeDone := false, eyeAbort := false, eyeErr := 0 })
      ∧ ((s.lane n).st ≠ .track → only u { s.lane n with eyeDone := true, eyeAbort := true }))
    ∧ (∀ c : W32, (s.lane n).eyeBusy = true → Completes (.eyeScanDone n c) s fun u =>
      only u { s.lane n with eyeBusy := false, eyeDone := true, eyeAbort := false, eyeErr := c })

/-- R386, R387, R388, R389 (Table 13-7): the felt link. A lane is in sync with its fourth comma and loses it with the fourth code error;
the link comes up with an ALN slot in place; the bytes between SOF and EOF are one frame; an overflow takes the link down. R400, R401,
R408, R409, R411: what a device sends its mate: heartbeats, its health, the time of its bases at the last heartbeat, and, where its
own receiver has no defect that the mate's has, a request to release. A defect of its own alone is marked. -/
def Obligations.FeltLinkCarries : Prop :=
  ((∀ (l : FeltLane) (c : FeltChar),
     (l.st = .loss → (l.char c).st = if c = .com then .acq else .loss)
     ∧ (l.st = .acq → (l.char c).st = if c = .codeError then .loss else if c = .com ∧ 3 ≤ l.commas then .sync else .acq)
     ∧ (l.st = .sync → (l.char c).st = if c = .codeError ∧ 3 ≤ l.errs then .loss else .sync))
   ∧ ∀ (s : State) (c0 c1 c2 c3 : FeltChar),
     (s.feltLive = true → (∃ i : Fin 4, s.laneDelivers ⟨64 + i.val, by omega⟩ = true) →
       let cs := [c0, c1, c2, c3]
       let w := (List.finRange 4).foldl (fun (x : State) i =>
         if s.laneDelivers ⟨64 + i.val, by omega⟩ then x.feltChar i (cs.getD i.val .codeError) else x) s
       let z := if w.felt.synced then w.feltDeskew cs else w
       Completes (.feltSlotReceive c0 c1 c2 c3) s fun u => u.felt = z.felt ∧ u.mte = z.mateLook.mte)
     ∧ (s.felt.up = false → (s.feltTake [.aln, .aln, .aln, .aln]).felt.up = true)
     ∧ (∀ cs bs, s.felt.up = true → s.felt.inFrame = true → slotData cs = some bs →
       (s.feltTake cs).felt = { s.felt with acc := s.felt.acc ++ bs })
     ∧ (s.felt.up = true → s.felt.inFrame = false → (s.feltTake [.sof, .sof, .sof, .sof]).felt =
       { s.felt with inFrame := true, bad := false, acc := [] })
     ∧ (s.felt.up = true → s.felt.inFrame = true → s.felt.bad = false → s.feltTake [.eof, .eof, .eof, .eof] =
       (s.modFelt fun x => { x with inFrame := false, acc := [] }).feltDeliver s.felt.acc)
     ∧ (s.feltLive = true → Completes .feltFifoError s fun u => u.felt.up = false ∧ u.felt.aligned = false))
  ∧
  (∀ s : State,
     (s.felt.up = true → Completes .heartbeatSend s fun u => (s.feltSends = true → Out.heartbeat ∈ u.out)
       ∧ u.mte.hbOutVals = (List.finRange 8).map fun b => (s.tbAt b).val)
     ∧ (∀ k, s.mte.key = some k → s.felt.up = true →
       let sends := fun (u : State) (type : Nat) (body : Bytes) =>
         (s.feltSends = true → Out.felt (s.mte.frame s.pads.mateSide type body) ∈ u.out) ∧ u.mte.fseqTx = s.mte.fseqTx + 1
       Completes .healthSend s (fun u => sends u 0x30 (beBytes 4 s.healthWord))
       ∧ (s.mte.st = .active → s.mte.hbOutVals.length = 8 → Completes .timeFrameSend s fun u =>
         sends u 0x31 ((List.finRange 8).flatMap fun b => timeRecord (s.tbRun b) (s.mte.hbOutVals.getD b.val 0)))
       ∧ (∀ (m : Fin 4) (bit : Fin 5), s.mte.st = .standby ∨ s.mte.st = .sync → s.mte.follow[m].valid = true →
         (s.defWord m).getLsbD bit.val = false → s.mte.follow[m].peerDef.getLsbD bit.val = true →
         Completes (.oneSidedDefect m bit) s fun u => sends u 0x40 [2]))
     ∧ (∀ (m : Fin 4) (bit : Fin 5), s.mte.st = .standby ∨ s.mte.st = .sync → s.mte.follow[m].valid = true →
       (s.defWord m).getLsbD bit.val = true → s.mte.follow[m].peerDef.getLsbD bit.val = false →
       Completes (.oneSidedDefect m bit) s fun u => u.mte.oneSided = tins (5 * m.val + bit.val) true s.mte.oneSided))

/-! ## Mate pairs (chapter 14) -/

/-- R396, R397, R398, R399, R410 (Table 14-2): the interlock. A claim waits while MATE_ACT_IN is low; against a claim of the mate side 1
withdraws and side 0 insists; the grant comes when the timer expires, and in TAKING makes the device active under the next epoch,
its transmit sequences 2^20 ahead of what it has followed, or of its own where that is higher (the model's choice: log entry
110). A grant that is let go is over after the release time. -/
def Obligations.InterlockGrantsTheLine : Prop :=
  ∀ s : State,
    (s.pads.mateActIn = false → Completes (.mateActInChange true) s fun u => u.pads.mateActIn = true
      ∧ (s.mte.lock = .claim → s.pads.mateSide = true → u.mte.lock = .off ∧ u.pads.mateActOut = false
        ∧ u.mte.st = if s.mte.st = .taking then .standby else s.mte.st)
      ∧ (s.mte.lock = .claim → s.pads.mateSide = false → u.mte = { s.mte with timer := false } ∧ u.pads.mateActOut = s.pads.mateActOut)
      ∧ (s.mte.lock = .granted → s.pads.mateSide = true → u.mte = { s.mte with lock := .off, timer := false } ∧ u.pads.mateActOut = false)
      ∧ (s.mte.lock = .granted → s.pads.mateSide = false →
        u.mte = { s.mte with lock := .claim, timer := false } ∧ u.pads.mateActOut = s.pads.mateActOut))
    ∧ (s.pads.mateActIn = true → Completes (.mateActInChange false) s fun u => u.pads.mateActIn = false
      ∧ (s.mte.lock = .claim → u.mte.lock = .claim ∧ u.mte.timer = true)
      ∧ (s.mte.lock = .off → s.claims = true → u.mte.lock = .claim ∧ u.mte.timer = true ∧ u.pads.mateActOut = true))
    ∧ (s.mte.lock = .claim → s.mte.timer = true → s.pads.mateActIn = false → Completes .claimTimerExpire s fun u =>
      (s.mte.st ≠ .taking → u.mte.lock = .granted ∧ u.mte.timer = false ∧ u.mte.epoch = s.mte.epoch)
      ∧ (s.mte.st = .taking → u.mte.st = .active ∧ u.mte.epoch = s.mte.epoch + 1
        ∧ (s.felt.inbox = [] → s.mte.held = [] → ∀ m k, (s.lci m).current = some k →
          let n := max s.mte.follow[m].seq (s.lkn m k).seq + 2 ^ 20
          (n ≤ 2 ^ 48 → (u.lkn m k).seq = n) ∧ (2 ^ 48 < n → (u.lkn m k).tx = .done))))
    ∧ (s.mte.lock = .releasing → Completes .releasingExpire s fun u => (u.mte.lock = .off ∨ u.mte.lock = .claim)
      ∧ (s.mte.st ≠ .standby → (u.mte.lock = .claim ↔ s.claims = true ∧ s.pads.mateActIn = false)
        ∧ u.pads.mateActOut = (s.claims && !s.pads.mateActIn)))

/-- R396, R404, R409, R411, R412, R417 (Tables 14-4 and 14-8): what software, the self-tests and the feeds do to the mate logic. ACT_REQ asks
for the line and gives it up; EN pairs, and goes to UNPAIRED; SWITCH releases the line to a ready mate only; a self-test that fails
releases it where fail-over is enabled; the line is reclaimed where that is allowed. -/
def Obligations.MateIsCommanded : Prop :=
  ∀ s : State,
    let fails := fun (u : State) => u.mte.selftestOk = false ∧ u.mte.testFailed = true
      ∧ (s.mte.st = .active → s.bit (Reg.mte 0) 2 = true → s.peerReady = true → u.mte.st = .released
        ∧ u.mte.cause = if s.mte.diverged = true ∨ s.mte.peerHealth.getLsbD 8 = true then 3 else 1)
    (s.feltLive = true →
      (∀ v : Bool, Completes (.actReqWrite v) s fun u => u.regs = (s.setBit (Reg.mte 0) 1 v).regs
        ∧ (v = false → s.mte.st = .active → u.mte.st = .released ∧ u.mte.cause = 7)
        ∧ (v = false → s.mte.st = .taking → s.canonical = true → u.mte.st = .standby)
        ∧ (v = true → s.mte.st = .unpaired → s.mte.lock = .off → s.pads.mateActIn = false → s.canonical = true →
          u.mte.lock = .claim ∧ u.pads.mateActOut = true))
      ∧ Completes (.mteEnWrite false) s (fun u => u.regs = (s.setBit (Reg.mte 0) 0 false).regs ∧ u.mte.st = .unpaired ∧ u.mte.key = none)
      ∧ Completes (.mteEnWrite true) s (fun u => u.regs = (s.setBit (Reg.mte 0) 0).regs
        ∧ (s.canonical = true → s.mte.st = .unpaired → s.felt.up = true → s.mte.nonce = none → s.mte.nonceWait = false →
          s.rng.st ≠ .failed → u.mte.st = .pairing))
      ∧ Completes .mateSwitch s (fun u => (s.mte.st ≠ .active → u.mte.cmdStatus = 2)
        ∧ (s.mte.st = .active → s.peerReady = false → u.mte = { s.mte with cmdStatus := 1 })
        ∧ (s.mte.st = .active → s.peerReady = true → u.mte.cmdStatus = 0 ∧ u.mte.st = .released ∧ u.mte.cause = 6))
      ∧ Completes .mateClrDiverged s (fun u => u.mte.diverged = false ∧ u.mte.cmdStatus = 0 ∧ ∀ m : Fin 4, u.mte.follow[m].mism = 0)
      ∧ Completes .mateSelftest s (fun u => u.mte.selftesting = true ∧ u.mte.passByCmd = true ∧ u.mte.cmdStatus = 0)
      ∧ Completes .selftestFailure s fails
      ∧ (s.mte.silent = false → s.mte.heardAt ≠ some s.now → Completes .peerSilent s fun u => u.mte.silent = true))
    ∧ (s.mte.selftesting = true → Completes (.selftestPassDone false) s (fun u => u.mte.selftesting = false ∧ fails u)
      ∧ Completes (.selftestPassDone true) s fun u => u.mte.selftesting = false
        ∧ u.mte.selftestOk = (s.mte.selftestOk || s.mte.passByCmd) ∧ u.mte.testFailed = false
        ∧ u.mte.passSinceSync = true ∧ (s.mte.st = .sync → s.mte.synced = true → u.mte.st = .standby ∨ u.mte.st = .taking))
    ∧ (s.mte.st = .released → s.pads.mateActIn = false → s.bit (Reg.mte 0) 3 = true → s.mte.cause ≠ 1 →
      Completes .reclaimTimerExpire s fun u => u.mte.st = .taking ∧ u.mte.cause = 8)
    ∧ (s.mte.fresh = true → s.mte.freshAt ≠ some s.now → Completes .freshExpire s fun u => u.mte.fresh = false)
    ∧ (s.mgmtLive = true →
      (s.mte.aGood = true → Completes (.vsecFeedLost false) s fun u => u.mte.aGood = false ∧ u.regs = (s.setBit (Reg.mte 0x18) 2).regs)
      ∧ (s.mte.bGood = true → Completes (.vsecFeedLost true) s fun u => u.mte.bGood = false ∧ u.regs = (s.setBit (Reg.mte 0x18) 3).regs)
      ∧ (s.mte.aGood = false → Completes (.vsecFeedGood false) s fun u => u.mte.aGood = true ∧ u.regs = s.regs)
      ∧ (s.mte.bGood = false → Completes (.vsecFeedGood true) s fun u => u.mte.bGood = true ∧ u.regs = s.regs))

/-- R402, R403, R404, R412 (Tables 14-3 and 14-4): sessions and roles. A HELLO of the other side and a version in common gives the session
key; CONFIRM makes one device active, under an epoch above both, and the other its follower; a HELLO or CONFIRM that does not fit
ends the pairing with its error. A RELEASE is taken up by a ready standby; a REQ releases the line where fail-over is enabled. -/
def Obligations.MatesPair : Prop :=
  ∀ (s w : State) (f : FeltIn),
    (s.feltHead 1 = some (f, w) → s.mte.nonce.isSome = true → s.kstClosed = false →
      let peer := slice f.body 12 24
      let side := decide (f.u 2 1 ≠ 0)
      let bad := min 1 (f.u 1 1) < max 1 (f.u 0 1)
      Completes .feltHello s fun u => u.mte.peerNonce = some peer
        ∧ (side = s.pads.mateSide → u.mte.pairErr = 2)
        ∧ (side ≠ s.pads.mateSide → bad → u.mte.pairErr = 1)
        ∧ (side ≠ s.pads.mateSide → ¬ bad → s.pairSlotOk = false → u.mte.pairErr = 4)
        ∧ (side ≠ s.pads.mateSide → ¬ bad → s.pairSlotOk = true → u.mte.ver = 1
          ∧ u.mte.key = some (kdf (s.slot (s.fld (Reg.mte 0x10) 0 11)).key labelMate (s.sessionCtx peer) 256)))
    ∧ (s.feltHead 2 = some (f, w) →
      let fits := f.u 0 1 = s.mte.ver ∧ some (slice f.body 4 24) = s.mte.nonce
      let leads := s.mte.lock = .granted ∨ (s.mte.peerGrant = false ∧ s.pads.mateSide = false)
      Completes .feltConfirm s fun u =>
        (¬ fits → u.mte.pairErr = 3 ∧ (s.mte.st = .pairing → u.mte.st = .unpaired ∧ u.mte.key = none))
        ∧ (fits → u.mte.confirmed = true)
        ∧ (fits → s.mte.st = .pairing → leads → u.mte.st = .active
          ∧ u.mte.epoch = BitVec.ofNat 32 (max s.mte.epoch.toNat s.mte.peerEpoch.toNat + 1))
        ∧ (fits → s.mte.st = .pairing → ¬ leads → u.mte.st = .sync ∧ u.mte.epoch = f.epoch ∧ u.mte.tko = s.mte.peerTko
          ∧ u.mte.synced = false ∧ u.mte.snaps = 0))
    ∧ (s.feltHead 0x30 = some (f, w) → Completes .feltHealth s fun u => u.mte.peerHealth = BitVec.ofNat 32 (f.u 0 4)
      ∧ (s.mte.st = .active → s.bit (Reg.mte 0) 2 = true → s.hardFault = true → (BitVec.ofNat 32 (f.u 0 4)).getLsbD 0 = true →
        u.mte.st = .released ∧ u.mte.cause = 1)
      ∧ (s.mte.st = .active → s.bit (Reg.mte 0) 2 = true → s.hardFault = false → (BitVec.ofNat 32 (f.u 0 4)).getLsbD 8 = true →
        s.mte.peerHealth.getLsbD 8 = false → (BitVec.ofNat 32 (f.u 0 4)).getLsbD 0 = false →
        u.mte.selftesting = true ∧ u.regs = (s.setBit (Reg.mte 4) 12).regs))
    ∧ (s.feltHead 0x40 = some (f, w) → Completes .feltReq s fun u =>
      (s.mte.st = .active → s.bit (Reg.mte 0) 2 = true → s.peerReady = true → u.mte.st = .released)
      ∧ (s.mte.st = .active → s.bit (Reg.mte 0) 2 = true → s.peerReady = false → u.mte = s.mte ∧ u.regs = (s.setBit (Reg.mte 4) 12).regs)
      ∧ (s.mte.st = .active → s.bit (Reg.mte 0) 2 = false → u.mte = s.mte ∧ u.regs = s.regs))
    ∧ (s.feltHead 0x41 = some (f, w) → Completes .feltRelease s fun u =>
      (s.mte.st = .standby → s.mateReady = true → u.mte.st = .taking)
      ∧ u.mte.epoch = if (f.epoch - s.mte.epoch).toNat < 2 ^ 31 then f.epoch else s.mte.epoch)
    ∧ (s.feltHead 0x7F = some (f, w) → s.felt.up = true → s.mte.key.isSome = true → Completes .feltStale s fun u =>
      (s.mte.st = .active → u.mte.fseqTx = s.mte.fseqTx + s.snapItems.length + 1)
      ∧ (s.mte.st ≠ .active → s.feltSends = true → Out.felt (s.mte.frame s.pads.mateSide 0x30 (beBytes 4 s.healthWord)) ∈ u.out))

/-- R406, R407, R408, R409, R410: how a follower keeps up. The bulk copy replaces what it held, and is whole where no block is missing; a
change is applied where it comes in order, repeated ones are not applied, and after a gap the copy starts again; digests move the
followed framer on, and MISM_N that differ in a row are DIVERGED; the time bases are set to the active's. DACK releases completion records at the active. -/
def Obligations.FollowersKeepUp : Prop :=
  (∀ (s : State) (b : Bytes), let m : Fin 4 := ⟨beNat (slice b 0 1) % 4, by omega⟩
    let lsc := BitVec.ofNat 32 (beNat (slice b 4 4))
    ((s.takeDigest b).line m).lsc = lsc + 1 ∧ (s.takeDigest b).mte.follow[m].valid = true ∧ (s.takeDigest b).mte.follow[m].lsc = lsc)
  ∧ (∀ (s : State) (m : Fin 4) (a b : RxRec), a.accepted = true → b.accepted = true → let v := s.judgeDig m a b
    let n := s.mte.follow[m].mism + 1
    (a.dig = b.dig → v.mte.follow[m].mism = 0 ∧ v.mte.diverged = s.mte.diverged)
    ∧ (a.dig ≠ b.dig → v.mte.follow[m].mism = n ∧ v.mte.diverged = (s.mte.diverged || decide (s.fld (Reg.mte 0) 12 4 ≤ n))))
  ∧ ∀ (s w : State) (f : FeltIn),
    (s.feltHead 0x10 = some (f, w) → let n := BitVec.ofNat 32 (f.u 0 4)
      let x := (w.adoptEpoch f.epoch).modMte fun y => { y with rxDseq := n }
      let follows := s.mte.st = .sync ∨ s.mte.st = .standby ∨ s.mte.st = .taking
      Completes .feltDelta s fun u =>
        (follows → n = s.mte.rxDseq + 1 → u.mte.rxDseq = n ∧ ∀ d, Config.decodeDelta (f.body.drop 4) = some (none, d) →
          u.mills = (x.applyDelta d).mills ∧ u.trib = (x.applyDelta d).trib ∧ u.sa = (x.applyDelta d).sa ∧ u.sc = (x.applyDelta d).sc)
        ∧ (follows → n ≠ s.mte.rxDseq + 1 → (s.mte.rxDseq - n).toNat < 2 ^ 31 → u.mills = s.mills ∧ u.mte.rxDseq = s.mte.rxDseq)
        ∧ (follows → s.mte.st ≠ .taking → n ≠ s.mte.rxDseq + 1 → 2 ^ 31 ≤ (s.mte.rxDseq - n).toNat →
          u.mte.st = .sync ∧ u.mte.snaps = 0 ∧ u.mte.synced = false)
        ∧ (¬ follows → u.mills = s.mills ∧ u.mte = s.mte))
    ∧ (s.feltHead 0x11 = some (f, w) → Completes .feltSnap s fun u =>
      (s.mte.st = .sync ∨ s.mte.st = .released → u.mte.st = .sync ∧ u.mte.rxDseq = BitVec.ofNat 32 (f.u 0 4)
        ∧ u.mte.snaps = (if s.mte.st = .released then 0 else s.mte.snaps) + 1)
      ∧ (s.mte.st ≠ .sync → s.mte.st ≠ .released → u.mills = s.mills))
    ∧ (s.feltHead 0x12 = some (f, w) → s.mte.st = .sync → Completes .feltSnapEnd s fun u =>
      (s.mte.snaps = f.u 4 4 → u.mte.synced = true ∧ (s.mte.passSinceSync = false → u.mte.st = .sync)
        ∧ (s.mte.passSinceSync = true → u.mte.st = .standby ∨ u.mte.st = .taking))
      ∧ (s.mte.snaps ≠ f.u 4 4 → u.mte.st = .sync ∧ u.mte.synced = false ∧ u.mte.snaps = 0))
    ∧ (s.feltHead 0x13 = some (f, w) → let n := BitVec.ofNat 32 (f.u 0 4)
      Completes .feltDack s fun u => u.mte.dacked = if (n - s.mte.dacked).toNat < 2 ^ 31 then n else s.mte.dacked)
    ∧ (s.feltHead 0x20 = some (f, w) → s.mte.st = .sync ∨ s.mte.st = .standby ∨ s.mte.st = .taking → Completes .feltDigest s fun u =>
      let z := (chunksOf 32 f.body).foldl State.takeDigest w
      u.mills = z.mills ∧ u.mte = z.mateLook.mte)
    ∧ (s.feltHead 0x21 = some (f, w) → s.mte.st = .sync ∨ s.mte.st = .standby ∨ s.mte.st = .taking → Completes .feltCkpt s fun u =>
      let z := (chunksOf 12 f.body).foldl State.takeCkpt w
      u.mills = z.mills ∧ u.mem = z.mem)
    ∧ (s.feltHead 0x31 = some (f, w) → s.mte.st = .standby → s.mte.hbVals.length = 8 → Completes .feltTime s fun u => ∀ b : Fin 8,
      let bs := slice f.body (16 * b.val) 16
      let there := (beNat (slice bs 10 6) * 1000000000 + beNat (slice bs 6 4)) * nsU
      (((u.tbAt b).val : Nat) : Int) = if byteAt bs 0 ≠ 0 ∧ s.tbRun b = true then
        (((s.tbAt b).val : Int) + (((there : Nat) : Int) + s.mte.feltDelay * 4 * nsU - s.mte.hbVals.getD b.val 0)) % (tbWrap : Int)
        else ((s.tbAt b).val : Int))

/-! ## Counters and records (chapter 17) -/

/-- R451, R454, R455, R456, R462: a block that is cleared counts from 0; a gather samples every counter at once, and a second one joins it
while it runs; a periodic gather leaves a record with the deltas of three counters. R457, R458, R459, R460, R463: the event recorder.
Arming makes both areas invalid; the oldest happening is merged into the last record of its type where that fits, and otherwise takes
the next place in both areas, the first one only while it has room; a happening for which the queue has no place is counted as lost; a
read of a slot's first word latches the rest. -/
def Obligations.CountersAndRecords : Prop :=
  ((∀ (p : Pmc) (b k : Nat), tsorted p.cnt = true → tget 0 (p.clear b).cnt k = if k / 8 = b then 0 else tget 0 p.cnt k)
   ∧ (∀ (p : Pmc) (key n : Nat), tsorted p.cnt = true → tget 0 (p.bump key n).cnt key = min (2 ^ 48 - 1) (tget 0 p.cnt key + n))
   ∧ ∀ s : State, s.mgmtLive = true →
     (∀ b : Fin 96, s.hasBlock b.val = true → exec (.pmcClear b) s = .next (s.modPmc fun p => p.clear b.val).settle)
     ∧ (s.pmc.busy = false → Completes .pmcGather s fun u => u.pmc.snap = s.pmc.cnt ∧ u.pmc.busy = true)
     ∧ (s.pmc.busy = true → Completes .gatherDone s fun u => u.pmc.busy = false ∧ u.pmc.gseq = s.pmc.gseq + 1
       ∧ u.pmc.snap = s.pmc.snap)
     ∧ (s.fld (Reg.evr 0) 4 16 ≠ 0 → Completes .periodicGather s fun u => u.pmc.busy = true ∧ u.pmc.prev = u.pmc.snap
       ∧ u.pmc.snap = (if s.pmc.busy then s.pmc.snap else s.pmc.cnt)
       ∧ (s.evr.queue.length < 32 → s.happening 1 (freeSrc 1) 0 (s.pmc.gseq.toNat + 1) ((List.range 3).flatMap fun j =>
           leBytes 4 ((s.pmc.gather s.clrBlocks).delta (s.fld (Reg.evr (0x10 + 4 * j)) 0 10))) ∈ u.evr.queue)))
  ∧
  (∀ s : State,
     (s.evrPath = true → Completes .evrArm s fun u => u.evr.written = 0 ∧ u.evr.first = [] ∧ u.evr.last = [] ∧ u.evr.hist = [])
     ∧ (∀ h hs, s.mgmtLive = true → s.evr.queue = h :: hs → Completes .evrRecordWrite s fun u =>
       (s.evr.hist.find? h.merges = none → let r := h.bytes (s.evr.written % 2 ^ 32) 1
         u.evr.written = s.evr.written + 1 ∧ u.evr.last = tset [] (s.evr.written % 1024) r s.evr.last
         ∧ u.evr.first = (if s.evr.written < 256 then tset [] s.evr.written r s.evr.first else s.evr.first))
       ∧ (∀ x, s.evr.hist.find? h.merges = some x → u.evr.written = s.evr.written
         ∧ u.evr.first = (s.evr.mergeInto x).first ∧ u.evr.last = (s.evr.mergeInto x).last))
     ∧ (∀ h : Happen, (s.evr.queue.length < 32 → (s.evr.put h).queue = s.evr.queue ++ [h])
       ∧ (32 ≤ s.evr.queue.length → (s.evr.put h).queue = s.evr.queue ∧ (s.evr.put h).lostCount = s.evr.lostCount + 1))
     ∧ (∀ (last : Bool) (k : Fin 1024), s.evrPath = true → last = true ∨ k.val < 256 →
       let ws := recordWords (tget [] (if last then s.evr.last else s.evr.first) k.val)
       let a := evrSlotAddr last k.val
       Completes (.evrSlotRead last k) s fun u =>
         Out.regRead 0 a (ws.headD 0) ∈ u.out ∧ u.hst.latch = (s.latchWords (a + 4) (ws.drop 1)).hst.latch))

/-! ## Register accesses (chapters 0 and 18) -/

/-- R14, R15, R16, R465, R467, R468, R478: register accesses. A read of a reset domain or at a misaligned address returns 0; the upper
word of a wide value is the one that its low word's read latched. A write acts as its register says: it sets the fields it may set,
clears the sticky bits it names, and does nothing to a read-only register; a misaligned one, and one of PF0 to a register of PF1, is
locked. A vector that is unmasked sends what was pending. The I²C target reads its status map from the pointer on. The reset values
that the register tables give (Tables 2-16, 2-18, 3-11, 4-8, 6-16, 7-15, 8-6, 11-6, 12-10, 13-8, 14-11, 15-8, 15-9, 17-8): after reset
no domain is released, the queue is empty and no register is written; in a device whose domains have then all been released, these
registers read these values. -/
def Obligations.RegistersAreAccessed : Prop :=
  (∀ s : State,
     (∀ (pf : Fin 2) (a : BitVec 27), s.rst.porHeld = false → Completes (.wideRegisterRead pf a) s fun u =>
       Out.regRead pf.val a.toNat (BitVec.ofNat 32 (s.readAny pf a.toNat).1) ∈ u.out ∧ u.regs = s.regs
       ∧ (a.toNat % 4 ≠ 0 ∨ s.regLive a.toNat = false → Out.regRead pf.val a.toNat 0 ∈ u.out ∧ Only settled s u)
       ∧ (a.toNat % 4 = 0 → s.regLive a.toNat = true → upperWords a.toNat = 1 →
         BitVec.ofNat 32 (u.readWord (a.toNat + 4)) = BitVec.ofNat 32 (s.readReg (a.toNat + 4))))
     ∧ (∀ (pf : Fin 2) (a : BitVec 27) (v : W32), s.rst.porHeld = false →
       (a.toNat % 4 ≠ 0 → Completes (.registerWrite pf a v) s fun u => Only settled s u)
       ∧ (a.toNat % 4 = 0 → s.regLive a.toNat = true → Completes (.registerWrite pf a v) s fun u =>
         let w := s.regWrite pf a.toNat v.toNat
         u.regs = w.regs ∧ u.mills = w.mills ∧ u.kst = w.kst ∧ u.tmp = w.tmp ∧ u.rng = w.rng ∧ u.mem = w.mem ∧ u.tim = w.tim
         ∧ u.lanes = w.lanes ∧ u.cur = w.cur))
     ∧ (s.canonical = true → ∀ (m : Fin 4) (v : Nat), v < 2 ^ 32 →
       ((s.regWrite 0 (Reg.lnf m 0x100) v).reg (Reg.lnf m 0x100) = v)
       ∧ ((s.regWrite 0 (Reg.lnf m 0x14) v).reg (Reg.lnf m 0x14) = s.reg (Reg.lnf m 0x14) - Nat.land (s.reg (Reg.lnf m 0x14)) v)
       ∧ s.regWrite 1 0 v = s ∧ s.regWrite 0 (Reg.kst 4) v = s.lockedWrite 0 (Reg.kst 4) v)
     ∧ (∀ v : Fin 256, s.hstLive = true → s.hst.masked.getLsbD v.val = true → Completes (.msixUnmask v) s fun u =>
       u.hst.masked = s.hst.masked &&& ~~~(1#256 <<< v.val) ∧ u.hst.pba.getLsbD v.val = false
       ∧ (s.hst.pba.getLsbD v.val = true → Out.msix v.val ∈ u.out))
     ∧ (s.mgmtLive = true → ∀ (b : Byte) (bs : Bytes), Completes (.i2cWrite (b :: bs)) s fun u => u.pads = { s.pads with i2cPtr := b }
       ∧ Out.i2c (decide (bs = [])) [] ∈ u.out)
     ∧ (s.mgmtLive = true → ∀ n : Nat, Completes (.i2cRead n) s fun u =>
       u.pads = { s.pads with i2cLatch := s.i2cMap, i2cPtr := s.pads.i2cPtr + BitVec.ofNat 8 n }
       ∧ Out.i2c true ((List.range n).map fun i => byteAt s.i2cMap ((s.pads.i2cPtr.toNat + i) % 256)) ∈ u.out))
  ∧
  (State.reset.rst.released = 0 ∧ State.reset.pending = [] ∧ State.reset.regs = [] ∧ State.reset.kst.gen = 1 ∧ State.reset.mte.st = .unpaired
   ∧ ∀ e ∈ [(Reg.lnf 0 0, 0x00FF0414), (Reg.lnf 3 0x20, 0x8080000D), (Reg.dkl 1 0, 0x3E80), (Reg.lci 2 0, 0x1010), (Reg.vat 0 0x800, 0x07825860),
     (Reg.cur 0x1000, 0x64), (Reg.sch 0 0, 0x4000), (Reg.rng 8, 0x031A0029), (Reg.mem 0x400, 0x0E100001), (Reg.ser 5 0, 0xE000),
     (Reg.mte 0, 0x130A4), (Reg.tmp 0xC, 0x64), (Reg.evr 0, 0x10000000), (Reg.tim 0x7F0, 0x640)],
     ({ State.reset with rst := { State.reset.rst with released := 0x7FFF } } : State).readReg e.1 = e.2)

/-! ## Single rules -/

/-- R118: the IV of a keyed sheet is SALT XOR (LCID ‖ SEQ), with LCID in bits 95 to 64 and SEQ in bits 63 to 0; its byte 0 holds bits 95
to 88. The sheet that the framer sends under a current key is sealed with it. -/
def Obligations.SheetIvIsSaltXorSeq : Prop :=
  (∀ salt lc seq : Nat, salt < 2 ^ 96 → lc < 2 ^ 32 → seq < 2 ^ 64 → (sheetIv salt lc seq).length = 12
    ∧ ∀ i, i < 12 → (byteAt (sheetIv salt lc seq) i).toNat = Nat.xor salt (lc * 2 ^ 64 + seq) / 2 ^ (88 - 8 * i) % 256)
  ∧ ∀ (s : State) (m k : Fin 4), s.framerRuns m = true → (s.line m).inReam = true → s.permitted = true → s.keyedUnder m = some k →
    let v := s.lkn m k
    Completes (.sheetSend m) s fun u => ∃ oh cells,
      Out.sheet m.val (sealSheet v.key (sheetIv v.salt (lcid v.chid (s.lciEnd m)) v.seq) oh cells) ∈ u.out

/-- R370 (Table 13-1): a lane runs in the mode written to it, where the table lists that mode for the lane's type: client lanes OFF and modes
1 to 4, line lanes OFF, L116, L58 and L29 (8, 9, 0xA), felt lanes OFF and felt (0xC). A write of any other mode changes nothing. -/
def Obligations.LaneModesAreListed : Prop :=
  ∀ (s : State) (n : Fin 68) (mode : Fin 16), s.laneLive n = true → s.canonical = true →
    let listed := mode.val = 0 ∨ (n.val < 32 ∧ 1 ≤ mode.val ∧ mode.val ≤ 4) ∨ (32 ≤ n.val ∧ n.val < 64 ∧ 8 ≤ mode.val ∧ mode.val ≤ 10)
      ∨ (64 ≤ n.val ∧ mode.val = 12)
    (listed → Completes (.laneModeWrite n mode) s fun u => u.laneMode n.val = mode.val)
    ∧ (¬ listed → exec (.laneModeWrite n mode) s = .next s)

/-- R398: a rise of MATE_ACT_IN that comes with the expiry of the claim timer prevents the grant: after the rise the expiry changes nothing,
and the line is not granted. -/
def Obligations.RisePreventsGrant : Prop :=
  ∀ s : State, s.mte.lock = .claim → s.pads.mateActIn = false →
    Completes (.mateActInChange true) s fun u => u.mte.lock ≠ .granted ∧ exec .claimTimerExpire u = .next u
end

