-- ==== Sys2Proof/Laws/Aes.lean ====
section
/-! SUPPORT. The tables of AES are those of its field: inverse in GF(2^8), then the affine map (FIPS 197, section 5.1.1). -/

namespace Sys2Proof.Machine

/-- The inverse of a byte in GF(2^8) by its powers: `x^254`. -/
def Aes.fieldInv (x : Byte) : Byte :=
  let a := x.toNat
  let m := Aes.mulN 8
  let a2 := m a a
  let a4 := m a2 a2
  let a8 := m a4 a4
  let a16 := m a8 a8
  let a32 := m a16 a16
  let a64 := m a32 a32
  byteOf (m a2 (m a4 (m a8 (m a16 (m a32 (m a64 (m a64 a64)))))))

/-- The affine map of the S-box. -/
def Aes.affine (i : Byte) : Byte := i ^^^ i.rotateLeft 1 ^^^ i.rotateLeft 2 ^^^ i.rotateLeft 3 ^^^ i.rotateLeft 4 ^^^ 0x63

theorem Aes.sbox_eq : ∀ a : Byte, Aes.sbox a = Aes.affine (Aes.fieldInv a) := by decide +kernel
theorem Aes.invSbox_sbox : ∀ a : Byte, Aes.invSbox (Aes.sbox a) = a := by decide +kernel
theorem Aes.sbox_invSbox : ∀ a : Byte, Aes.sbox (Aes.invSbox a) = a := by decide +kernel

end Sys2Proof.Machine
end

