-- ==== Sys2Proof/Laws/Tbl.lean ====
section
/-! SUPPORT. Sparse tables: what a write leaves, and that every operation keeps the canonical form. -/

namespace Sys2Proof.Machine

variable {α : Type}

theorem tget_tins_eq (d : α) (k : Nat) (v : α) : ∀ t : Tbl α, tget d (tins k v t) k = v
  | [] => by simp [tins, tget]
  | (j, w) :: t => by
    unfold tins
    split
    · next h => simp [tget, show ¬ j = k by omega, show ¬ k < j by omega, tget_tins_eq d k v t]
    · split <;> simp [tget]

/-- Every key of a table lies above `k`. -/
def tabove (k : Nat) (t : Tbl α) : Prop := ∀ e ∈ t, k < e.1

theorem tsorted_cons (j : Nat) (w : α) (t : Tbl α) : tsorted ((j, w) :: t) = true ↔ tabove j t ∧ tsorted t = true := by
  induction t generalizing j w with
  | nil => simp [tsorted, tabove]
  | cons e t ih =>
    obtain ⟨k, u⟩ := e
    simp only [tsorted, Bool.and_eq_true, decide_eq_true_eq]
    constructor
    · rintro ⟨h1, h2⟩
      refine ⟨?_, h2⟩
      intro e he
      rcases List.mem_cons.mp he with rfl | he
      · exact h1
      · exact Nat.lt_trans h1 (((ih k u).mp h2).1 e he)
    · rintro ⟨h1, h2⟩
      exact ⟨h1 (k, u) List.mem_cons_self, h2⟩

theorem tget_above (d : α) (k : Nat) : ∀ t : Tbl α, tabove k t → tget d t k = d
  | [], _ => rfl
  | (j, w) :: t, h => by
    have := h (j, w) List.mem_cons_self
    simp only at this
    simp [tget, show ¬ j = k by omega, this]

theorem mem_tins {k : Nat} {v : α} {e : Nat × α} : ∀ {t : Tbl α}, e ∈ tins k v t → e = (k, v) ∨ e ∈ t
  | [], h => by simp [tins] at h; exact Or.inl h
  | (j, w) :: t, h => by
    unfold tins at h
    split at h
    · rcases List.mem_cons.mp h with rfl | h
      · exact Or.inr List.mem_cons_self
      · exact (mem_tins h).imp id (List.mem_cons_of_mem _)
    · split at h
      · rcases List.mem_cons.mp h with rfl | h
        · exact Or.inl rfl
        · exact Or.inr (List.mem_cons_of_mem _ h)
      · rcases List.mem_cons.mp h with rfl | h
        · exact Or.inl rfl
        · exact Or.inr h

theorem mem_tdel {k : Nat} {e : Nat × α} : ∀ {t : Tbl α}, e ∈ tdel k t → e ∈ t
  | [], h => by simp [tdel] at h
  | (j, w) :: t, h => by
    unfold tdel at h
    split at h
    · rcases List.mem_cons.mp h with rfl | h
      · exact List.mem_cons_self
      · exact List.mem_cons_of_mem _ (mem_tdel h)
    · split at h
      · exact List.mem_cons_of_mem _ h
      · exact h

theorem tins_sorted (k : Nat) (v : α) : ∀ t : Tbl α, tsorted t = true → tsorted (tins k v t) = true
  | [], _ => by simp [tins, tsorted]
  | (j, w) :: t, h => by
    have ⟨ha, hs⟩ := (tsorted_cons j w t).mp h
    unfold tins
    split
    · next hj =>
      refine (tsorted_cons j w _).mpr ⟨?_, tins_sorted k v t hs⟩
      intro e he
      rcases mem_tins he with rfl | he
      · exact hj
      · exact ha e he
    · split
      · next e => subst e; exact (tsorted_cons j v t).mpr ⟨ha, hs⟩
      · refine (tsorted_cons k v _).mpr ⟨?_, h⟩
        intro e he
        rcases List.mem_cons.mp he with rfl | he
        · simp only; omega
        · have := ha e he; omega

theorem tdel_sorted (k : Nat) : ∀ t : Tbl α, tsorted t = true → tsorted (tdel k t) = true
  | [], _ => rfl
  | (j, w) :: t, h => by
    have ⟨ha, hs⟩ := (tsorted_cons j w t).mp h
    unfold tdel
    split
    · exact (tsorted_cons j w _).mpr ⟨fun e he => ha e (mem_tdel he), tdel_sorted k t hs⟩
    · split
      · exact hs
      · exact h

theorem tfilter_sorted (q : Nat × α → Bool) : ∀ t : Tbl α, tsorted t = true → tsorted (t.filter q) = true
  | [], _ => rfl
  | (j, w) :: t, h => by
    have ⟨ha, hs⟩ := (tsorted_cons j w t).mp h
    rw [List.filter_cons]
    split
    · exact (tsorted_cons j w _).mpr ⟨fun e he => ha e (List.mem_of_mem_filter he), tfilter_sorted q t hs⟩
    · exact tfilter_sorted q t hs

theorem twf_tset [DecidableEq α] (d : Nat → α) (k : Nat) (v : α) (t : Tbl α) (h : twf d t = true) : twf d (tset (d k) k v t) = true := by
  simp only [twf, Bool.and_eq_true, List.all_eq_true, decide_eq_true_eq] at *
  obtain ⟨h1, h2⟩ := h
  unfold tset
  split
  · exact ⟨tdel_sorted k t h1, fun e he => h2 e (mem_tdel he)⟩
  · next hv =>
    refine ⟨tins_sorted k v t h1, fun e he => ?_⟩
    rcases mem_tins he with rfl | he
    · exact hv
    · exact h2 e he

theorem twf_filter [DecidableEq α] (d : Nat → α) (q : Nat × α → Bool) (t : Tbl α) (h : twf d t = true) : twf d (t.filter q) = true := by
  simp only [twf, Bool.and_eq_true, List.all_eq_true, decide_eq_true_eq] at *
  exact ⟨tfilter_sorted q t h.1, fun e he => h.2 e (List.mem_of_mem_filter he)⟩

theorem tget_tins_ne (d : α) (k j : Nat) (v : α) (hk : j ≠ k) : ∀ t : Tbl α, tsorted t = true → tget d (tins k v t) j = tget d t j
  | [], _ => by simp only [tins, tget]; split <;> simp_all; 
  | (i, w) :: t, h => by
    have ⟨ha, hs⟩ := (tsorted_cons i w t).mp h
    unfold tins
    split
    · simp only [tget, tget_tins_ne d k j v hk t hs]
    · split
      · next e => subst e; simp only [tget]; split
                  · omega
                  · rfl
      · simp only [tget]
        by_cases h1 : k = j
        · omega
        · simp only [if_neg h1]
          by_cases h2 : j < k
          · simp [h2, show ¬ i = j by omega, show j < i by omega]
          · simp [h2]

theorem tget_tdel_ne (d : α) (k j : Nat) (hk : j ≠ k) : ∀ t : Tbl α, tsorted t = true → tget d (tdel k t) j = tget d t j
  | [], _ => rfl
  | (i, w) :: t, h => by
    have ⟨ha, hs⟩ := (tsorted_cons i w t).mp h
    unfold tdel
    split
    · simp only [tget, tget_tdel_ne d k j hk t hs]
    · split
      · next e =>
        subst e
        simp only [tget, show ¬ i = j by omega, if_false]
        split
        · next hj => exact tget_above d j t (fun e he => Nat.lt_trans hj (ha e he))
        · rfl
      · rfl

theorem tget_tdel_eq (d : α) (k : Nat) : ∀ t : Tbl α, tsorted t = true → tget d (tdel k t) k = d
  | [], _ => rfl
  | (i, w) :: t, h => by
    have ⟨ha, hs⟩ := (tsorted_cons i w t).mp h
    unfold tdel
    split
    · simp [tget, show ¬ i = k by omega, show ¬ k < i by omega, tget_tdel_eq d k t hs]
    · split
      · next e => subst e; exact tget_above d i t ha
      · simp [tget, show ¬ i = k by omega, show k < i by omega]

/-- Read after write, the same key. -/
theorem tget_tset_eq [DecidableEq α] (d : α) (k : Nat) (v : α) (t : Tbl α) (h : tsorted t = true) : tget d (tset d k v t) k = v := by
  unfold tset
  split
  · next e => rw [e]; exact tget_tdel_eq d k t h
  · exact tget_tins_eq d k v t

/-- Read after write, another key. -/
theorem tget_tset_ne [DecidableEq α] (d : α) (k j : Nat) (v : α) (t : Tbl α) (hk : j ≠ k) (h : tsorted t = true) :
    tget d (tset d k v t) j = tget d t j := by
  unfold tset
  split
  · exact tget_tdel_ne d k j hk t h
  · exact tget_tins_ne d k j v hk t h

theorem tins_tins (k : Nat) (v w : α) : ∀ t : Tbl α, tins k v (tins k w t) = tins k v t
  | [] => by simp [tins]
  | (j, u) :: t => by
    by_cases h : j < k
    · simp [tins, h, tins_tins k v w t]
    · by_cases e : j = k
      · subst e; simp [tins]
      · simp [tins, h, e]

theorem tdel_tins (k : Nat) (w : α) : ∀ t : Tbl α, tdel k (tins k w t) = tdel k t
  | [] => by simp [tins, tdel]
  | (j, u) :: t => by
    by_cases h : j < k
    · simp [tins, tdel, h, tdel_tins k w t]
    · by_cases e : j = k
      · subst e; simp [tins, tdel]
      · simp [tins, tdel, h, e]

/-- A write over a listed entry is that write alone. -/
theorem tset_tset [DecidableEq α] (d : α) (k : Nat) (v w : α) (t : Tbl α) (hw : w ≠ d) : tset d k v (tset d k w t) = tset d k v t := by
  simp only [tset, if_neg hw, tins_tins, tdel_tins]

end Sys2Proof.Machine
end

