-- ==== Sys2Proof/Laws/Only.lean ====
section
/-! SUPPORT. How `Only` composes, and what each shared operation over the state leaves alone. Every lemma has one form: what
held from `a` to `s` holds from `a` to the operation's result, once the areas it may change are among `ps`. -/

set_option linter.unusedTactic false
set_option linter.unreachableTactic false
set_option linter.unusedVariables false
set_option linter.unusedSimpArgs false

namespace Sys2Proof.Machine

/-- Every area of `T` is one of `ps`. -/
def sub (T ps : List Area) : Bool := T.all ps.contains

theorem sub_of {T U ps : List Area} (h : sub T U = true) (hs : sub U ps = true) : sub T ps = true := by
  simp only [sub, List.all_eq_true] at *
  intro x hx
  have := h x hx
  exact hs x (by simpa using this)

theorem not_mem_of_sub {T ps : List Area} {p : Area} (hs : sub T ps = true) (hp : ps.contains p = false) : T.contains p = false := by
  by_contra hc
  have hc' : T.contains p = true := by simpa using hc
  simp only [sub, List.all_eq_true] at hs
  have := hs p (by simpa using hc')
  rw [this] at hp
  exact Bool.noConfusion hp

theorem mem_of_sub {T ps : List Area} {p : Area} (hs : sub T ps = true) (hp : T.contains p = true) : ps.contains p = true := by
  simp only [sub, List.all_eq_true] at hs
  exact hs p (by simpa using hp)

theorem bitsKept_refl (x : Byte) : Otp.bitsKept x x := BitVec.and_self

theorem bitsKept_trans {x y z : Byte} (h : Otp.bitsKept x y) (k : Otp.bitsKept y z) : Otp.bitsKept x z := by
  unfold Otp.bitsKept at *
  rw [← h, BitVec.and_assoc, k]

/-- A group whose bits are all programmed keeps every bit. -/
theorem bitsKept_ff (x : Byte) : Otp.bitsKept x 0xFF := by unfold Otp.bitsKept; revert x; decide

theorem blown_kept {x y : Byte} (h : Otp.bitsKept x y) : blown x = true → blown y = true := by
  unfold Otp.bitsKept at h
  simp only [blown, decide_eq_true_eq]
  intro hx
  refine Nat.le_trans hx (List.countP_mono_left fun i _ hi => ?_)
  rw [← h, BitVec.getLsbD_and, Bool.and_eq_true] at hi
  exact hi.2

theorem Otp.Keeps.refl (x : Otp) : x.Keeps x :=
  ⟨rfl, rfl, rfl, ⟨bitsKept_refl _, bitsKept_refl _, bitsKept_refl _, bitsKept_refl _⟩,
    ⟨bitsKept_refl _, bitsKept_refl _, fun _ => bitsKept_refl _⟩, fun h => ⟨Nat.le_refl _, h⟩, fun _ => ⟨rfl, rfl⟩, fun _ => ⟨rfl, rfl⟩⟩

theorem Otp.Keeps.trans {x y z : Otp} (h : x.Keeps y) (k : y.Keeps z) : x.Keeps z := by
  obtain ⟨a1, a2, a3, ⟨a4, a5, a6, a7⟩, ⟨a8, a9, a10⟩, a11, a12, a13⟩ := h
  obtain ⟨b1, b2, b3, ⟨b4, b5, b6, b7⟩, ⟨b8, b9, b10⟩, b11, b12, b13⟩ := k
  refine ⟨b1.trans a1, b2.trans a2, b3.trans a3, ⟨bitsKept_trans a4 b4, bitsKept_trans a5 b5, bitsKept_trans a6 b6, bitsKept_trans a7 b7⟩,
    ⟨bitsKept_trans a8 b8, bitsKept_trans a9 b9, fun i => bitsKept_trans (a10 i) (b10 i)⟩, fun h => ?_, fun h => ?_, fun h => ?_⟩
  · exact ⟨Nat.le_trans (a11 h).1 (b11 (a11 h).2).1, (b11 (a11 h).2).2⟩
  · exact ⟨(b12 (blown_kept a8 h)).1.trans (a12 h).1, (b12 (blown_kept a8 h)).2.trans (a12 h).2⟩
  · exact ⟨(b13 (blown_kept a9 h)).1.trans (a13 h).1, (b13 (blown_kept a9 h)).2.trans (a13 h).2⟩

theorem agree_refl (p : Area) (s : State) : State.agree p s s := by
  cases p
  case fuses => exact Otp.Keeps.refl _
  all_goals simp [State.agree]

theorem agree_trans {p : Area} {s t u : State} (h : State.agree p s t) (k : State.agree p t u) : State.agree p s u := by
  cases p
  case fuses => exact Otp.Keeps.trans h k
  all_goals simp_all [State.agree]

theorem Only.refl {ps : List Area} (s : State) : Only ps s s := fun p _ => agree_refl p s

theorem Only.trans {ps : List Area} {s t u : State} (h : Only ps s t) (k : Only ps t u) : Only ps s u :=
  fun p hp => agree_trans (h p hp) (k p hp)

theorem Only.mono {ps qs : List Area} {s t : State} (h : Only ps s t) (hs : sub ps qs = true) : Only qs s t :=
  fun p hp => h p (not_mem_of_sub hs hp)

theorem Only.foldl {α : Type} {ps : List Area} {a : State} (f : State → α → State) (hf : ∀ s x, Only ps a s → Only ps a (f s x)) :
    ∀ (l : List α) (s : State), Only ps a s → Only ps a (l.foldl f s)
  | [], _, h => h
  | x :: l, s, h => Only.foldl f hf l (f s x) (hf s x h)

theorem Only.foldl_mem {α : Type} {ps : List Area} {a : State} (f : State → α → State) :
    ∀ (l : List α) (s : State), (∀ s x, x ∈ l → Only ps a s → Only ps a (f s x)) → Only ps a s → Only ps a (l.foldl f s)
  | [], _, _, h => h
  | x :: l, s, hf, h => Only.foldl_mem f l (f s x) (fun s y hy => hf s y (List.mem_cons_of_mem _ hy)) (hf s x List.mem_cons_self h)

theorem Only.ite {ps : List Area} {a s t : State} {c : Prop} [Decidable c] (h : Only ps a s) (k : Only ps a t) :
    Only ps a (if c then s else t) := by split <;> assumption

end Sys2Proof.Machine
end

