-- ==== Sys2Proof/Laws/OnlyOps.lean ====
section
/-! SUPPORT. What each operation of Machine/Ops.lean may change. -/

set_option linter.unusedTactic false
set_option linter.unreachableTactic false
set_option linter.unusedVariables false
set_option linter.unusedSimpArgs false

namespace Sys2Proof.Machine

variable {ps : List Area} {a s : State}

theorem State.modPads_only (h : Only ps a s) (f : Pads → Pads) (hs : sub [.pads] ps = true) : Only ps a (s.modPads f) := by
  intro p hp
  have hn := not_mem_of_sub hs hp
  cases p <;> first | exact h _ hp | exact absurd hn (by decide)

theorem State.modOtp_only (h : Only ps a s) (f : Otp → Otp) (hf : s.otp.Keeps (f s.otp)) (hs : sub [.otp] ps = true) : Only ps a (s.modOtp f) := by
  intro p hp
  have hn := not_mem_of_sub hs hp
  cases p
  case otp => exact absurd hn (by decide)
  case fuses => exact Otp.Keeps.trans (h _ hp) hf
  case canon =>
    intro hc
    have := h .canon hp hc
    unfold State.canonical at *
    rw [show (s.modOtp f).otp.part = s.otp.part from hf.1]
    exact this
  all_goals exact h _ hp

theorem Otp.keeps_evidence (x : Otp) : x.Keeps { x with evidence := min 512 (x.evidence + 1) } :=
  ⟨rfl, rfl, rfl, ⟨bitsKept_refl _, bitsKept_refl _, bitsKept_refl _, bitsKept_refl _⟩,
    ⟨bitsKept_refl _, bitsKept_refl _, fun _ => bitsKept_refl _⟩, fun h => by dsimp only; omega, fun _ => ⟨rfl, rfl⟩, fun _ => ⟨rfl, rfl⟩⟩

theorem Otp.keeps_disable (x : Otp) (i : Fin 8) : x.Keeps { x with disable := x.disable.set i 0xFF } := by
  refine ⟨rfl, rfl, rfl, ⟨bitsKept_refl _, bitsKept_refl _, bitsKept_refl _, bitsKept_refl _⟩,
    ⟨bitsKept_refl _, bitsKept_refl _, fun j => ?_⟩, fun h => ⟨Nat.le_refl _, h⟩, fun _ => ⟨rfl, rfl⟩, fun _ => ⟨rfl, rfl⟩⟩
  by_cases e : i.val = j.val
  · simp only [Fin.getElem_fin, e, Vector.getElem_set_self]; exact bitsKept_ff _
  · simp only [Fin.getElem_fin, Vector.getElem_set_ne _ _ e]; exact bitsKept_refl _

theorem Otp.keeps_lc (x : Otp) (t : Nat) : x.Keeps
    (if t = 2 then { x with lcSecured := 0xFF } else if t = 3 then { x with lcReturned := 0xFF } else { x with lcScrapped := 0xFF }) := by
  split
  · exact ⟨rfl, rfl, rfl, ⟨bitsKept_refl _, bitsKept_ff _, bitsKept_refl _, bitsKept_refl _⟩,
      ⟨bitsKept_refl _, bitsKept_refl _, fun _ => bitsKept_refl _⟩, fun h => ⟨Nat.le_refl _, h⟩, fun _ => ⟨rfl, rfl⟩, fun _ => ⟨rfl, rfl⟩⟩
  · split
    · exact ⟨rfl, rfl, rfl, ⟨bitsKept_refl _, bitsKept_refl _, bitsKept_ff _, bitsKept_refl _⟩,
        ⟨bitsKept_refl _, bitsKept_refl _, fun _ => bitsKept_refl _⟩, fun h => ⟨Nat.le_refl _, h⟩, fun _ => ⟨rfl, rfl⟩, fun _ => ⟨rfl, rfl⟩⟩
    · exact ⟨rfl, rfl, rfl, ⟨bitsKept_refl _, bitsKept_refl _, bitsKept_refl _, bitsKept_ff _⟩,
        ⟨bitsKept_refl _, bitsKept_refl _, fun _ => bitsKept_refl _⟩, fun h => ⟨Nat.le_refl _, h⟩, fun _ => ⟨rfl, rfl⟩, fun _ => ⟨rfl, rfl⟩⟩

/-- A root enters a bank while neither is valid. -/
theorem Otp.keeps_rootA (x : Otp) (k : Bytes) (c : W16) (hA : blown x.validA = false) :
    x.Keeps { x with rootA := k, chkA := c, validA := 0xFF } :=
  ⟨rfl, rfl, rfl, ⟨bitsKept_refl _, bitsKept_refl _, bitsKept_refl _, bitsKept_refl _⟩,
    ⟨bitsKept_ff _, bitsKept_refl _, fun _ => bitsKept_refl _⟩, fun h => ⟨Nat.le_refl _, h⟩,
    fun h => by rw [hA] at h; exact Bool.noConfusion h, fun _ => ⟨rfl, rfl⟩⟩

theorem Otp.keeps_rootB (x : Otp) (k : Bytes) (c : W16) (hB : blown x.validB = false) :
    x.Keeps { x with rootB := k, chkB := c, validB := 0xFF } :=
  ⟨rfl, rfl, rfl, ⟨bitsKept_refl _, bitsKept_refl _, bitsKept_refl _, bitsKept_refl _⟩,
    ⟨bitsKept_refl _, bitsKept_ff _, fun _ => bitsKept_refl _⟩, fun h => ⟨Nat.le_refl _, h⟩, fun _ => ⟨rfl, rfl⟩,
    fun h => by rw [hB] at h; exact Bool.noConfusion h⟩

theorem State.modRng_only (h : Only ps a s) (f : Rng → Rng) (hs : sub [.rng] ps = true) : Only ps a (s.modRng f) := by
  intro p hp
  have hn := not_mem_of_sub hs hp
  cases p <;> first | exact h _ hp | exact absurd hn (by decide)

theorem State.modUci_only (h : Only ps a s) (f : Uci → Uci) (hs : sub [.uci] ps = true) : Only ps a (s.modUci f) := by
  intro p hp
  have hn := not_mem_of_sub hs hp
  cases p <;> first | exact h _ hp | exact absurd hn (by decide)

theorem State.modMem_only (h : Only ps a s) (f : Mem → Mem) (hs : sub [.mem] ps = true) : Only ps a (s.modMem f) := by
  intro p hp
  have hn := not_mem_of_sub hs hp
  cases p <;> first | exact h _ hp | exact absurd hn (by decide)

theorem State.modTmp_only (h : Only ps a s) (f : Tmp → Tmp) (hs : sub [.tmp] ps = true) : Only ps a (s.modTmp f) := by
  intro p hp
  have hn := not_mem_of_sub hs hp
  cases p <;> first | exact h _ hp | exact absurd hn (by decide)

theorem State.modBkp_only (h : Only ps a s) (f : Bkp → Bkp) (hs : sub [.bkp] ps = true) : Only ps a (s.modBkp f) := by
  intro p hp
  have hn := not_mem_of_sub hs hp
  cases p <;> first | exact h _ hp | exact absurd hn (by decide)

theorem State.modFelt_only (h : Only ps a s) (f : Felt → Felt) (hs : sub [.felt] ps = true) : Only ps a (s.modFelt f) := by
  intro p hp
  have hn := not_mem_of_sub hs hp
  cases p <;> first | exact h _ hp | exact absurd hn (by decide)

theorem State.modPmc_only (h : Only ps a s) (f : Pmc → Pmc) (h1 : ps.contains .gather = true ∨ ∀ k, (f k).rest = k.rest)
    (h2 : ps.contains .counts = true ∨ ∀ k, (f k).cnt = k.cnt ∧ (f k).sat = k.sat ∧ (f k).satNew = k.satNew) : Only ps a (s.modPmc f) := by
  intro p hp
  cases p
  case gather =>
    rcases h1 with h1 | h1
    · rw [h1] at hp; exact Bool.noConfusion hp
    · exact (h1 s.pmc).trans (h .gather hp)
  case counts =>
    rcases h2 with h2 | h2
    · rw [h2] at hp; exact Bool.noConfusion hp
    · exact agree_trans (h .counts hp) (h2 s.pmc)
  all_goals exact h _ hp

theorem State.modEvr_only (h : Only ps a s) (f : Evr → Evr) (h1 : ps.contains .records = true ∨ ∀ k, (f k).rest = k.rest)
    (h2 : ps.contains .evrQueue = true ∨ ∀ k, (f k).queue = k.queue ∧ (f k).lost = k.lost ∧ (f k).lostCount = k.lostCount) : Only ps a (s.modEvr f) := by
  intro p hp
  cases p
  case records =>
    rcases h1 with h1 | h1
    · rw [h1] at hp; exact Bool.noConfusion hp
    · exact (h1 s.evr).trans (h .records hp)
  case evrQueue =>
    rcases h2 with h2 | h2
    · rw [h2] at hp; exact Bool.noConfusion hp
    · exact agree_trans (h .evrQueue hp) (h2 s.evr)
  all_goals exact h _ hp

theorem State.modHst_only (h : Only ps a s) (f : Hst → Hst) (h1 : ps.contains .host = true ∨ ∀ k, (f k).rest = k.rest)
    (h2 : ps.contains .irq = true ∨ ∀ k, (f k).pend = k.pend ∧ (f k).pba = k.pba) : Only ps a (s.modHst f) := by
  intro p hp
  cases p
  case host =>
    rcases h1 with h1 | h1
    · rw [h1] at hp; exact Bool.noConfusion hp
    · exact (h1 s.hst).trans (h .host hp)
  case irq =>
    rcases h2 with h2 | h2
    · rw [h2] at hp; exact Bool.noConfusion hp
    · exact agree_trans (h .irq hp) (h2 s.hst)
  all_goals exact h _ hp

theorem State.modRst_only (h : Only ps a s) (f : Rst → Rst) (h1 : ps.contains .resetCtl = true ∨ ∀ k, (f k).rest = k.rest)
    (h2 : ps.contains .domains = true ∨ ∀ k, (f k).released = k.released) : Only ps a (s.modRst f) := by
  intro p hp
  cases p
  case resetCtl =>
    rcases h1 with h1 | h1
    · rw [h1] at hp; exact Bool.noConfusion hp
    · exact (h1 s.rst).trans (h .resetCtl hp)
  case domains =>
    rcases h2 with h2 | h2
    · rw [h2] at hp; exact Bool.noConfusion hp
    · exact agree_trans (h .domains hp) (h2 s.rst)
  all_goals exact h _ hp

theorem State.modTim_only (h : Only ps a s) (f : Tim → Tim) (h1 : ps.contains .tim = true ∨ ∀ k, (f k).rest = k.rest)
    (h2 : ps.contains .timeBases = true ∨ ∀ k, (f k).tb = k.tb) : Only ps a (s.modTim f) := by
  intro p hp
  cases p
  case tim =>
    rcases h1 with h1 | h1
    · rw [h1] at hp; exact Bool.noConfusion hp
    · exact (h1 s.tim).trans (h .tim hp)
  case timeBases =>
    rcases h2 with h2 | h2
    · rw [h2] at hp; exact Bool.noConfusion hp
    · exact agree_trans (h .timeBases hp) (h2 s.tim)
  all_goals exact h _ hp

theorem State.modKst_only (h : Only ps a s) (f : Kst → Kst) (h1 : ps.contains .kst = true ∨ ∀ k, (f k).rest = k.rest)
    (h2 : ps.contains .slots = true ∨ ∀ k, (f k).slots = k.slots ∧ (f k).gen = k.gen) : Only ps a (s.modKst f) := by
  intro p hp
  cases p
  case kst =>
    rcases h1 with h1 | h1
    · rw [h1] at hp; exact Bool.noConfusion hp
    · exact (h1 s.kst).trans (h .kst hp)
  case slots =>
    rcases h2 with h2 | h2
    · rw [h2] at hp; exact Bool.noConfusion hp
    · exact agree_trans (h .slots hp) (h2 s.kst)
  all_goals exact h _ hp

theorem State.modMte_only (h : Only ps a s) (f : Mte → Mte) (h1 : ps.contains .mte = true ∨ ∀ k, (f k).rest = k.rest)
    (h2 : ps.contains .role = true ∨ ∀ k, (f k).st = k.st) : Only ps a (s.modMte f) := by
  intro p hp
  cases p
  case mte =>
    rcases h1 with h1 | h1
    · rw [h1] at hp; exact Bool.noConfusion hp
    · exact (h1 s.mte).trans (h .mte hp)
  case role =>
    rcases h2 with h2 | h2
    · rw [h2] at hp; exact Bool.noConfusion hp
    · exact agree_trans (h .role hp) (h2 s.mte)
  all_goals exact h _ hp

theorem State.modLine_only (h : Only ps a s) (m : Fin 4) (f : Line → Line) (hs : sub [.line] ps = true) : Only ps a (s.modLine m f) := by
  intro p hp
  have hn := not_mem_of_sub hs hp
  cases p
  case line => exact absurd hn (by decide)
  case dkl =>
    intro k
    refine Eq.trans ?_ (h .dkl hp k)
    by_cases e : m = k
    · subst e; simp [State.modLine, State.dkl, State.modMill, State.modMill, State.mill]
    · have e' : ¬ m.val = k.val := fun x => e (Fin.ext x)
      simp [State.modLine, State.dkl, State.modMill, State.modMill, State.mill, e']
  case lci =>
    intro k
    refine Eq.trans ?_ (h .lci hp k)
    by_cases e : m = k
    · subst e; simp [State.modLine, State.lci, State.modMill, State.modMill, State.mill]
    · have e' : ¬ m.val = k.val := fun x => e (Fin.ext x)
      simp [State.modLine, State.lci, State.modMill, State.modMill, State.mill, e']
  case sac =>
    intro k
    refine Eq.trans ?_ (h .sac hp k)
    by_cases e : m = k
    · subst e; simp [State.modLine, State.sac, State.modMill, State.modMill, State.mill]
    · have e' : ¬ m.val = k.val := fun x => e (Fin.ext x)
      simp [State.modLine, State.sac, State.modMill, State.modMill, State.mill, e']
  case vat =>
    intro k
    refine Eq.trans ?_ (h .vat hp k)
    by_cases e : m = k
    · subst e; simp [State.modLine, State.vat, State.modMill, State.modMill, State.mill]
    · have e' : ¬ m.val = k.val := fun x => e (Fin.ext x)
      simp [State.modLine, State.vat, State.modMill, State.modMill, State.mill, e']
  case sch =>
    intro k
    refine Eq.trans ?_ (h .sch hp k)
    by_cases e : m = k
    · subst e; simp [State.modLine, State.sch, State.modMill, State.modMill, State.mill]
    · have e' : ¬ m.val = k.val := fun x => e (Fin.ext x)
      simp [State.modLine, State.sch, State.modMill, State.modMill, State.mill, e']
  case ports =>
    intro k
    refine Eq.trans ?_ (h .ports hp k)
    by_cases e : m = k
    · subst e; simp [State.modLine, State.modMill, State.modMill, State.mill]
    · have e' : ¬ m.val = k.val := fun x => e (Fin.ext x)
      simp [State.modLine, State.modMill, State.modMill, State.mill, e']
  all_goals exact h _ hp

theorem State.modDkl_only (h : Only ps a s) (m : Fin 4) (f : Deckle → Deckle) (hs : sub [.dkl] ps = true) : Only ps a (s.modDkl m f) := by
  intro p hp
  have hn := not_mem_of_sub hs hp
  cases p
  case dkl => exact absurd hn (by decide)
  case line =>
    intro k
    refine Eq.trans ?_ (h .line hp k)
    by_cases e : m = k
    · subst e; simp [State.modDkl, State.line, State.modMill, State.modMill, State.mill]
    · have e' : ¬ m.val = k.val := fun x => e (Fin.ext x)
      simp [State.modDkl, State.line, State.modMill, State.modMill, State.mill, e']
  case lci =>
    intro k
    refine Eq.trans ?_ (h .lci hp k)
    by_cases e : m = k
    · subst e; simp [State.modDkl, State.lci, State.modMill, State.modMill, State.mill]
    · have e' : ¬ m.val = k.val := fun x => e (Fin.ext x)
      simp [State.modDkl, State.lci, State.modMill, State.modMill, State.mill, e']
  case sac =>
    intro k
    refine Eq.trans ?_ (h .sac hp k)
    by_cases e : m = k
    · subst e; simp [State.modDkl, State.sac, State.modMill, State.modMill, State.mill]
    · have e' : ¬ m.val = k.val := fun x => e (Fin.ext x)
      simp [State.modDkl, State.sac, State.modMill, State.modMill, State.mill, e']
  case vat =>
    intro k
    refine Eq.trans ?_ (h .vat hp k)
    by_cases e : m = k
    · subst e; simp [State.modDkl, State.vat, State.modMill, State.modMill, State.mill]
    · have e' : ¬ m.val = k.val := fun x => e (Fin.ext x)
      simp [State.modDkl, State.vat, State.modMill, State.modMill, State.mill, e']
  case sch =>
    intro k
    refine Eq.trans ?_ (h .sch hp k)
    by_cases e : m = k
    · subst e; simp [State.modDkl, State.sch, State.modMill, State.modMill, State.mill]
    · have e' : ¬ m.val = k.val := fun x => e (Fin.ext x)
      simp [State.modDkl, State.sch, State.modMill, State.modMill, State.mill, e']
  case ports =>
    intro k
    refine Eq.trans ?_ (h .ports hp k)
    by_cases e : m = k
    · subst e; simp [State.modDkl, State.modMill, State.modMill, State.mill]
    · have e' : ¬ m.val = k.val := fun x => e (Fin.ext x)
      simp [State.modDkl, State.modMill, State.modMill, State.mill, e']
  all_goals exact h _ hp

theorem State.modLci_only (h : Only ps a s) (m : Fin 4) (f : Lci → Lci) (hs : sub [.lci] ps = true) : Only ps a (s.modLci m f) := by
  intro p hp
  have hn := not_mem_of_sub hs hp
  cases p
  case lci => exact absurd hn (by decide)
  case line =>
    intro k
    refine Eq.trans ?_ (h .line hp k)
    by_cases e : m = k
    · subst e; simp [State.modLci, State.line, State.modMill, State.modMill, State.mill]
    · have e' : ¬ m.val = k.val := fun x => e (Fin.ext x)
      simp [State.modLci, State.line, State.modMill, State.modMill, State.mill, e']
  case dkl =>
    intro k
    refine Eq.trans ?_ (h .dkl hp k)
    by_cases e : m = k
    · subst e; simp [State.modLci, State.dkl, State.modMill, State.modMill, State.mill]
    · have e' : ¬ m.val = k.val := fun x => e (Fin.ext x)
      simp [State.modLci, State.dkl, State.modMill, State.modMill, State.mill, e']
  case sac =>
    intro k
    refine Eq.trans ?_ (h .sac hp k)
    by_cases e : m = k
    · subst e; simp [State.modLci, State.sac, State.modMill, State.modMill, State.mill]
    · have e' : ¬ m.val = k.val := fun x => e (Fin.ext x)
      simp [State.modLci, State.sac, State.modMill, State.modMill, State.mill, e']
  case vat =>
    intro k
    refine Eq.trans ?_ (h .vat hp k)
    by_cases e : m = k
    · subst e; simp [State.modLci, State.vat, State.modMill, State.modMill, State.mill]
    · have e' : ¬ m.val = k.val := fun x => e (Fin.ext x)
      simp [State.modLci, State.vat, State.modMill, State.modMill, State.mill, e']
  case sch =>
    intro k
    refine Eq.trans ?_ (h .sch hp k)
    by_cases e : m = k
    · subst e; simp [State.modLci, State.sch, State.modMill, State.modMill, State.mill]
    · have e' : ¬ m.val = k.val := fun x => e (Fin.ext x)
      simp [State.modLci, State.sch, State.modMill, State.modMill, State.mill, e']
  case ports =>
    intro k
    refine Eq.trans ?_ (h .ports hp k)
    by_cases e : m = k
    · subst e; simp [State.modLci, State.modMill, State.modMill, State.mill]
    · have e' : ¬ m.val = k.val := fun x => e (Fin.ext x)
      simp [State.modLci, State.modMill, State.modMill, State.mill, e']
  all_goals exact h _ hp

theorem State.modSac_only (h : Only ps a s) (m : Fin 4) (f : Sac → Sac) (hs : sub [.sac] ps = true) : Only ps a (s.modSac m f) := by
  intro p hp
  have hn := not_mem_of_sub hs hp
  cases p
  case sac => exact absurd hn (by decide)
  case line =>
    intro k
    refine Eq.trans ?_ (h .line hp k)
    by_cases e : m = k
    · subst e; simp [State.modSac, State.line, State.modMill, State.modMill, State.mill]
    · have e' : ¬ m.val = k.val := fun x => e (Fin.ext x)
      simp [State.modSac, State.line, State.modMill, State.modMill, State.mill, e']
  case dkl =>
    intro k
    refine Eq.trans ?_ (h .dkl hp k)
    by_cases e : m = k
    · subst e; simp [State.modSac, State.dkl, State.modMill, State.modMill, State.mill]
    · have e' : ¬ m.val = k.val := fun x => e (Fin.ext x)
      simp [State.modSac, State.dkl, State.modMill, State.modMill, State.mill, e']
  case lci =>
    intro k
    refine Eq.trans ?_ (h .lci hp k)
    by_cases e : m = k
    · subst e; simp [State.modSac, State.lci, State.modMill, State.modMill, State.mill]
    · have e' : ¬ m.val = k.val := fun x => e (Fin.ext x)
      simp [State.modSac, State.lci, State.modMill, State.modMill, State.mill, e']
  case vat =>
    intro k
    refine Eq.trans ?_ (h .vat hp k)
    by_cases e : m = k
    · subst e; simp [State.modSac, State.vat, State.modMill, State.modMill, State.mill]
    · have e' : ¬ m.val = k.val := fun x => e (Fin.ext x)
      simp [State.modSac, State.vat, State.modMill, State.modMill, State.mill, e']
  case sch =>
    intro k
    refine Eq.trans ?_ (h .sch hp k)
    by_cases e : m = k
    · subst e; simp [State.modSac, State.sch, State.modMill, State.modMill, State.mill]
    · have e' : ¬ m.val = k.val := fun x => e (Fin.ext x)
      simp [State.modSac, State.sch, State.modMill, State.modMill, State.mill, e']
  case ports =>
    intro k
    refine Eq.trans ?_ (h .ports hp k)
    by_cases e : m = k
    · subst e; simp [State.modSac, State.modMill, State.modMill, State.mill]
    · have e' : ¬ m.val = k.val := fun x => e (Fin.ext x)
      simp [State.modSac, State.modMill, State.modMill, State.mill, e']
  all_goals exact h _ hp

theorem State.modVat_only (h : Only ps a s) (m : Fin 4) (f : Vat → Vat) (hs : sub [.vat] ps = true) : Only ps a (s.modVat m f) := by
  intro p hp
  have hn := not_mem_of_sub hs hp
  cases p
  case vat => exact absurd hn (by decide)
  case line =>
    intro k
    refine Eq.trans ?_ (h .line hp k)
    by_cases e : m = k
    · subst e; simp [State.modVat, State.line, State.modMill, State.modMill, State.mill]
    · have e' : ¬ m.val = k.val := fun x => e (Fin.ext x)
      simp [State.modVat, State.line, State.modMill, State.modMill, State.mill, e']
  case dkl =>
    intro k
    refine Eq.trans ?_ (h .dkl hp k)
    by_cases e : m = k
    · subst e; simp [State.modVat, State.dkl, State.modMill, State.modMill, State.mill]
    · have e' : ¬ m.val = k.val := fun x => e (Fin.ext x)
      simp [State.modVat, State.dkl, State.modMill, State.modMill, State.mill, e']
  case lci =>
    intro k
    refine Eq.trans ?_ (h .lci hp k)
    by_cases e : m = k
    · subst e; simp [State.modVat, State.lci, State.modMill, State.modMill, State.mill]
    · have e' : ¬ m.val = k.val := fun x => e (Fin.ext x)
      simp [State.modVat, State.lci, State.modMill, State.modMill, State.mill, e']
  case sac =>
    intro k
    refine Eq.trans ?_ (h .sac hp k)
    by_cases e : m = k
    · subst e; simp [State.modVat, State.sac, State.modMill, State.modMill, State.mill]
    · have e' : ¬ m.val = k.val := fun x => e (Fin.ext x)
      simp [State.modVat, State.sac, State.modMill, State.modMill, State.mill, e']
  case sch =>
    intro k
    refine Eq.trans ?_ (h .sch hp k)
    by_cases e : m = k
    · subst e; simp [State.modVat, State.sch, State.modMill, State.modMill, State.mill]
    · have e' : ¬ m.val = k.val := fun x => e (Fin.ext x)
      simp [State.modVat, State.sch, State.modMill, State.modMill, State.mill, e']
  case ports =>
    intro k
    refine Eq.trans ?_ (h .ports hp k)
    by_cases e : m = k
    · subst e; simp [State.modVat, State.modMill, State.modMill, State.mill]
    · have e' : ¬ m.val = k.val := fun x => e (Fin.ext x)
      simp [State.modVat, State.modMill, State.modMill, State.mill, e']
  all_goals exact h _ hp

theorem State.modSch_only (h : Only ps a s) (m : Fin 4) (f : Sch → Sch) (hs : sub [.sch] ps = true) : Only ps a (s.modSch m f) := by
  intro p hp
  have hn := not_mem_of_sub hs hp
  cases p
  case sch => exact absurd hn (by decide)
  case line =>
    intro k
    refine Eq.trans ?_ (h .line hp k)
    by_cases e : m = k
    · subst e; simp [State.modSch, State.line, State.modMill, State.modMill, State.mill]
    · have e' : ¬ m.val = k.val := fun x => e (Fin.ext x)
      simp [State.modSch, State.line, State.modMill, State.modMill, State.mill, e']
  case dkl =>
    intro k
    refine Eq.trans ?_ (h .dkl hp k)
    by_cases e : m = k
    · subst e; simp [State.modSch, State.dkl, State.modMill, State.modMill, State.mill]
    · have e' : ¬ m.val = k.val := fun x => e (Fin.ext x)
      simp [State.modSch, State.dkl, State.modMill, State.modMill, State.mill, e']
  case lci =>
    intro k
    refine Eq.trans ?_ (h .lci hp k)
    by_cases e : m = k
    · subst e; simp [State.modSch, State.lci, State.modMill, State.modMill, State.mill]
    · have e' : ¬ m.val = k.val := fun x => e (Fin.ext x)
      simp [State.modSch, State.lci, State.modMill, State.modMill, State.mill, e']
  case sac =>
    intro k
    refine Eq.trans ?_ (h .sac hp k)
    by_cases e : m = k
    · subst e; simp [State.modSch, State.sac, State.modMill, State.modMill, State.mill]
    · have e' : ¬ m.val = k.val := fun x => e (Fin.ext x)
      simp [State.modSch, State.sac, State.modMill, State.modMill, State.mill, e']
  case vat =>
    intro k
    refine Eq.trans ?_ (h .vat hp k)
    by_cases e : m = k
    · subst e; simp [State.modSch, State.vat, State.modMill, State.modMill, State.mill]
    · have e' : ¬ m.val = k.val := fun x => e (Fin.ext x)
      simp [State.modSch, State.vat, State.modMill, State.modMill, State.mill, e']
  case ports =>
    intro k
    refine Eq.trans ?_ (h .ports hp k)
    by_cases e : m = k
    · subst e; simp [State.modSch, State.modMill, State.modMill, State.mill]
    · have e' : ¬ m.val = k.val := fun x => e (Fin.ext x)
      simp [State.modSch, State.modMill, State.modMill, State.mill, e']
  all_goals exact h _ hp

theorem State.modLkn_only (h : Only ps a s) (m k : Fin 4) (f : Lkn → Lkn) (hs : sub [.lci] ps = true) : Only ps a (s.modLkn m k f) :=
  State.modLci_only h m _ hs

theorem State.modPort_only (h : Only ps a s) (q : Fin 32) (f : Port → Port) (hs : sub [.ports] ps = true) : Only ps a (s.modPort q f) := by
  intro p hp
  have hn := not_mem_of_sub hs hp
  cases p
  case ports => exact absurd hn (by decide)
  case line =>
    intro k
    refine Eq.trans ?_ (h .line hp k)
    by_cases e : portMill q = k
    · subst e; simp [State.line, State.modPort, State.modMill, State.mill]
    · have e' : ¬ (portMill q).val = k.val := fun x => e (Fin.ext x)
      simp [State.line, State.modPort, State.modMill, State.mill, e']
  case dkl =>
    intro k
    refine Eq.trans ?_ (h .dkl hp k)
    by_cases e : portMill q = k
    · subst e; simp [State.dkl, State.modPort, State.modMill, State.mill]
    · have e' : ¬ (portMill q).val = k.val := fun x => e (Fin.ext x)
      simp [State.dkl, State.modPort, State.modMill, State.mill, e']
  case lci =>
    intro k
    refine Eq.trans ?_ (h .lci hp k)
    by_cases e : portMill q = k
    · subst e; simp [State.lci, State.modPort, State.modMill, State.mill]
    · have e' : ¬ (portMill q).val = k.val := fun x => e (Fin.ext x)
      simp [State.lci, State.modPort, State.modMill, State.mill, e']
  case sac =>
    intro k
    refine Eq.trans ?_ (h .sac hp k)
    by_cases e : portMill q = k
    · subst e; simp [State.sac, State.modPort, State.modMill, State.mill]
    · have e' : ¬ (portMill q).val = k.val := fun x => e (Fin.ext x)
      simp [State.sac, State.modPort, State.modMill, State.mill, e']
  case vat =>
    intro k
    refine Eq.trans ?_ (h .vat hp k)
    by_cases e : portMill q = k
    · subst e; simp [State.vat, State.modPort, State.modMill, State.mill]
    · have e' : ¬ (portMill q).val = k.val := fun x => e (Fin.ext x)
      simp [State.vat, State.modPort, State.modMill, State.mill, e']
  case sch =>
    intro k
    refine Eq.trans ?_ (h .sch hp k)
    by_cases e : portMill q = k
    · subst e; simp [State.sch, State.modPort, State.modMill, State.mill]
    · have e' : ¬ (portMill q).val = k.val := fun x => e (Fin.ext x)
      simp [State.sch, State.modPort, State.modMill, State.mill, e']
  all_goals exact h _ hp

theorem State.modEng_only (h : Only ps a s) (k : Fin 4) (f : Engine → Engine) (hs : sub [.cur] ps = true) : Only ps a (s.modEng k f) := by
  intro p hp
  have hn := not_mem_of_sub hs hp
  cases p <;> first | exact h _ hp | exact absurd hn (by decide)

theorem State.modRing_only (h : Only ps a s) (r : Rid) (f : Ring → Ring) (hs : sub [.cur] ps = true) : Only ps a (s.modRing r f) :=
  State.modEng_only h _ _ hs

theorem State.modLane_only (h : Only ps a s) (n : Fin 68) (f : Lane → Lane) (hs : sub [.lanes] ps = true) : Only ps a (s.modLane n f) := by
  intro p hp
  have hn := not_mem_of_sub hs hp
  cases p <;> first | exact h _ hp | exact absurd hn (by decide)

theorem State.setSlot_only (h : Only ps a s) (i : Nat) (v : Slot) (hs : sub [.slots] ps = true) : Only ps a (s.setSlot i v) :=
  State.modKst_only h (fun k => { k with slots := tset default i v k.slots }) (Or.inr fun _ => rfl) (Or.inl (mem_of_sub hs (by decide)))

theorem State.setTrib_only (h : Only ps a s) (n : Nat) (v : Trib) (hs : sub [.trib] ps = true) : Only ps a (s.setTrib n v) := by
  intro p hp
  have hn := not_mem_of_sub hs hp
  cases p <;> first | exact h _ hp | exact absurd hn (by decide)

theorem State.modTrib_only (h : Only ps a s) (n : Nat) (f : Trib → Trib) (hs : sub [.trib] ps = true) : Only ps a (s.modTrib n f) := by
  intro p hp
  have hn := not_mem_of_sub hs hp
  cases p <;> first | exact h _ hp | exact absurd hn (by decide)

theorem State.setSa_only (h : Only ps a s) (n : Nat) (v : SaDir) (hs : sub [.sa] ps = true) : Only ps a (s.setSa n v) := by
  intro p hp
  have hn := not_mem_of_sub hs hp
  cases p <;> first | exact h _ hp | exact absurd hn (by decide)

theorem State.setSc_only (h : Only ps a s) (n : Nat) (v : Sc) (hs : sub [.sc] ps = true) : Only ps a (s.setSc n v) := by
  intro p hp
  have hn := not_mem_of_sub hs hp
  cases p <;> first | exact h _ hp | exact absurd hn (by decide)

theorem State.modTb_only (h : Only ps a s) (b : Fin 8) (f : TimeBase → TimeBase) (hs : sub [.timeBases] ps = true) : Only ps a (s.modTb b f) :=
  State.modTim_only h (fun x => { x with tb := x.tb.set b (f x.tb[b]) }) (Or.inr fun _ => rfl) (Or.inl (mem_of_sub hs (by decide)))

theorem State.emit_only (h : Only ps a s) (o : Out) (hs : sub [.out] ps = true) : Only ps a (s.emit o) := by
  intro p hp
  have hn := not_mem_of_sub hs hp
  cases p <;> first | exact h _ hp | exact absurd hn (by decide)

/-! ## Registers -/

theorem State.emits_only (h : Only ps a s) (os : List Out) (hs : sub [.out] ps = true) : Only ps a (s.emits os) := by
  intro p hp
  have hn := not_mem_of_sub hs hp
  cases p <;> first | exact h _ hp | exact absurd hn (by decide)

/-! ## Registers -/

theorem tins_filter {α : Type} (q : Nat × α → Bool) (k : Nat) (v : α) (hq : ∀ w, q (k, w) = false) : ∀ t : Tbl α, (tins k v t).filter q = t.filter q
  | [] => by simp [tins, hq]
  | (j, w) :: t => by
    have ih := tins_filter q k v hq t
    unfold tins
    split
    · simp [List.filter_cons, ih]
    · split
      · next e => subst e; simp [List.filter_cons, hq]
      · simp [hq]

theorem tdel_filter {α : Type} (q : Nat × α → Bool) (k : Nat) (hq : ∀ w, q (k, w) = false) : ∀ t : Tbl α, (tdel k t).filter q = t.filter q
  | [] => by simp [tdel]
  | (j, w) :: t => by
    have ih := tdel_filter q k hq t
    unfold tdel
    split
    · simp [List.filter_cons, ih]
    · split
      · next e => subst e; simp [hq]
      · rfl

theorem tset_filter {α : Type} [DecidableEq α] (d : α) (q : Nat × α → Bool) (k : Nat) (v : α) (t : Tbl α) (hq : ∀ w, q (k, w) = false) :
    (tset d k v t).filter q = t.filter q := by
  unfold tset
  split
  · exact tdel_filter q k hq t
  · exact tins_filter q k v hq t

/-- A register write changes settings or status registers, as its address is one. -/
theorem State.setReg_only (h : Only ps a s) (r v : Nat) (h1 : ps.contains .settings = true ∨ isStatus r = true)
    (h2 : ps.contains .status = true ∨ isStatus r = false) : Only ps a (s.setReg r v) := by
  intro p hp
  cases p
  case settings =>
    rcases h1 with h1 | h1
    · rw [h1] at hp; exact Bool.noConfusion hp
    · exact (tset_filter _ _ _ _ _ (by simp [h1])).trans (h .settings hp)
  case status =>
    rcases h2 with h2 | h2
    · rw [h2] at hp; exact Bool.noConfusion hp
    · exact (tset_filter _ _ _ _ _ (by simp [h2])).trans (h .status hp)
  case canon =>
    intro hc
    have hw := h .canon hp hc
    unfold State.canonical at *
    simp only [Bool.and_eq_true] at *
    exact ⟨twf_tset _ _ _ _ hw.1, hw.2⟩
  all_goals exact h _ hp

theorem State.setFld_only (h : Only ps a s) (r lo len v : Nat) (h1 : ps.contains .settings = true ∨ isStatus r = true)
    (h2 : ps.contains .status = true ∨ isStatus r = false) : Only ps a (s.setFld r lo len v) := State.setReg_only h r _ h1 h2

theorem State.setBit_only (h : Only ps a s) (r i : Nat) (b : Bool) (h1 : ps.contains .settings = true ∨ isStatus r = true)
    (h2 : ps.contains .status = true ∨ isStatus r = false) : Only ps a (s.setBit r i b) := State.setReg_only h r _ h1 h2

/-! ## Counters, recorder, interrupts -/

theorem Pmc.bump_rest (x : Pmc) (k n : Nat) : (x.bump k n).rest = x.rest := rfl

theorem Pmc.countRange_rest (f : Nat → Nat) (ev q n : Nat) : ∀ (i k : Nat) (x : Pmc), (Pmc.countRange f ev q n i k x).rest = x.rest
  | _, 0, _ => rfl
  | i, k + 1, x => by
    unfold Pmc.countRange
    rw [Pmc.countRange_rest f ev q n (i + 1) k]
    split <;> rfl

theorem State.pmcSet_only (h : Only ps a s) (v : Pmc) (hv : v.rest = s.pmc.rest) (hs : sub [.counts] ps = true) : Only ps a { s with pmc := v } := by
  intro p hp
  have hn := not_mem_of_sub hs hp
  cases p
  case gather => exact hv.trans (h .gather hp)
  case counts => exact absurd hn (by decide)
  all_goals exact h _ hp

theorem State.countMill_only (h : Only ps a s) (m : Fin 4) (x i q n : Nat) (hs : sub [.counts] ps = true) : Only ps a (s.countMill m x i q n) :=
  State.pmcSet_only h _ (Pmc.countRange_rest ..) hs
theorem State.countDev_only (h : Only ps a s) (x i q n : Nat) (hs : sub [.counts] ps = true) : Only ps a (s.countDev x i q n) :=
  State.pmcSet_only h _ (Pmc.countRange_rest ..) hs
theorem State.fixMill_only (h : Only ps a s) (m : Fin 4) (i n : Nat) (hs : sub [.counts] ps = true) : Only ps a (s.fixMill m i n) :=
  State.pmcSet_only h _ rfl hs
theorem State.fixDev_only (h : Only ps a s) (i n : Nat) (hs : sub [.counts] ps = true) : Only ps a (s.fixDev i n) :=
  State.pmcSet_only h _ rfl hs

theorem Evr.put_rest (e : Evr) (x : Happen) : (e.put x).rest = e.rest := by unfold Evr.put; split <;> rfl

theorem State.happen_only (h : Only ps a s) (x y m z : Nat) (d : Bytes) (hs : sub [.counts, .evrQueue] ps = true) :
    Only ps a (s.happen x y m z d) := by
  unfold State.happen
  split
  · intro p hp
    have hn := not_mem_of_sub hs hp
    cases p
    case gather =>
      refine Eq.trans ?_ (h .gather hp)
      dsimp only
      split <;> rfl
    case records => exact (Evr.put_rest ..).trans (h .records hp)
    all_goals first | exact h _ hp | exact absurd hn (by decide)
  · exact h

theorem State.lockedWrite_only (h : Only ps a s) (f : Fin 2) (x v : Nat) (hs : sub [.counts, .evrQueue] ps = true) :
    Only ps a (s.lockedWrite f x v) :=
  State.happen_only (State.fixDev_only (State.countDev_only h _ _ _ _ (sub_of rfl hs)) _ _ (sub_of rfl hs)) _ _ _ _ _ hs

theorem State.msix_only (h : Only ps a s) (v : Fin 256) (hs : sub [.counts, .irq, .out] ps = true) : Only ps a (s.msix v) := by
  unfold State.msix
  split
  · exact State.modHst_only h _ (Or.inr fun _ => rfl) (Or.inl (mem_of_sub hs (by decide)))
  · exact State.fixDev_only (State.countDev_only (State.emit_only h _ (sub_of rfl hs)) _ _ _ _ (sub_of rfl hs)) _ _ (sub_of rfl hs)

theorem State.irqSource_only (h : Only ps a s) (n : Nat) (hs : sub [.counts, .irq, .out] ps = true) : Only ps a (s.irqSource n) := by
  unfold State.irqSource
  dsimp only
  split
  · exact h
  · have h1 := State.modHst_only (s := s) h (fun x => { x with pend := x.pend ^^^ (1#48 <<< n) }) (Or.inr fun _ => rfl)
      (Or.inl (mem_of_sub hs (by decide)))
    split
    · exact h1
    · split
      · exact State.countDev_only h1 _ _ _ _ (sub_of rfl hs)
      · exact State.msix_only h1 _ hs

theorem State.irqAll_only (h : Only ps a s) (hs : sub [.counts, .irq, .out] ps = true) : ∀ n, Only ps a (s.irqAll n)
  | 0 => h
  | n + 1 => State.irqSource_only (State.irqAll_only h hs n) n hs

theorem State.satRecords_only (hs : sub [.counts, .evrQueue] ps = true) : ∀ (l : List Nat) {s : State}, Only ps a s → Only ps a (s.satRecords l)
  | [], _, h => h
  | _ :: l, _, h => State.satRecords_only hs l (State.happen_only h _ _ _ _ _ hs)

/-- What follows every command changes counters, the recorder's queue, interrupts and what is sent, and nothing else. -/
theorem State.settle_only (h : Only ps a s) (hs : sub [.counts, .evrQueue, .irq, .out] ps = true) : Only ps a s.settle := by
  have h1 := State.modPmc_only (s := s) h (fun p => { p with satNew := [] }) (Or.inr fun _ => rfl) (Or.inl (mem_of_sub hs (by decide)))
  have h2 := State.satRecords_only (sub_of rfl hs) s.pmc.satNew h1
  unfold State.settle
  exact State.irqAll_only h2 (sub_of rfl hs) 48

/-! ## MTP -/

theorem State.mtpPut_only (h : Only ps a s) (x : Nat) (b : Byte) (hs : sub [.mtp] ps = true) : Only ps a (s.mtpPut x b) := by
  intro p hp
  have hn := not_mem_of_sub hs hp
  cases p
  case mtp => exact absurd hn (by decide)
  case canon =>
    intro hc
    have hw := h .canon hp hc
    unfold State.canonical at *
    simp only [Bool.and_eq_true] at *
    exact ⟨hw.1, twf_tset (fun _ => (0xFF : Byte)) x b _ hw.2⟩
  all_goals exact h _ hp

theorem mtpWrite_only_aux (hs : sub [.mtp] ps = true) : ∀ (l : Bytes) {s : State} (_ : Only ps a s) (x : Nat), Only ps a (s.mtpWrite x l)
  | [], _, h, _ => h
  | _ :: l, _, h, _ => mtpWrite_only_aux hs l (State.mtpPut_only h _ _ hs) _

theorem State.mtpWrite_only (h : Only ps a s) (x : Nat) (l : Bytes) (hs : sub [.mtp] ps = true) : Only ps a (s.mtpWrite x l) :=
  mtpWrite_only_aux hs l h x

/-- A record update: each field is as it was, or its areas are among `ps`. -/
theorem upd_only {v0 v1 v2 v3 v4 v5 v6 v7 v8 v9 v10 v11 v12 v13 v14 v15 v16 v17 v18 v19 v20 v21 v22 v23 v24 v25 v26 v27 v28 v29} (h : Only ps a s)
    (c0 : ps.contains .queue = true ∨ v0 = s.pending)
    (c1 : ps.contains .clock = true ∨ v1 = s.now)
    (c2 : ps.contains .free = true ∨ v2 = s.free)
    (c3 : ps.contains .out = true ∨ v3 = s.out)
    (c4 : sub [.settings, .status] ps = true ∨ v4 = s.regs)
    (c5 : ps.contains .shadow = true ∨ v5 = s.shadow)
    (c6 : ps.contains .resetCtl = true ∨ v6.rest = s.rst.rest)
    (c7 : ps.contains .domains = true ∨ v6.released = s.rst.released)
    (c8 : ps.contains .host = true ∨ v7.rest = s.hst.rest)
    (c9 : ps.contains .irq = true ∨ v7.pend = s.hst.pend ∧ v7.pba = s.hst.pba)
    (c10 : ps.contains .pads = true ∨ v8 = s.pads)
    (c11 : ps.contains .gather = true ∨ v9.rest = s.pmc.rest)
    (c12 : ps.contains .counts = true ∨ v9.cnt = s.pmc.cnt ∧ v9.sat = s.pmc.sat ∧ v9.satNew = s.pmc.satNew)
    (c13 : ps.contains .records = true ∨ v10.rest = s.evr.rest)
    (c14 : ps.contains .evrQueue = true ∨ v10.queue = s.evr.queue ∧ v10.lost = s.evr.lost ∧ v10.lostCount = s.evr.lostCount)
    (c15 : ps.contains .tim = true ∨ v11.rest = s.tim.rest)
    (c16 : ps.contains .timeBases = true ∨ v11.tb = s.tim.tb)
    (c17 : ps.contains .otp = true ∨ v12 = s.otp)
    (c18 : ps.contains .mtp = true ∨ v13 = s.mtp)
    (c19 : ps.contains .kst = true ∨ v14.rest = s.kst.rest)
    (c20 : ps.contains .slots = true ∨ v14.slots = s.kst.slots ∧ v14.gen = s.kst.gen)
    (c21 : ps.contains .rng = true ∨ v15 = s.rng)
    (c22 : ps.contains .uci = true ∨ v16 = s.uci)
    (c23 : ps.contains .mem = true ∨ v17 = s.mem)
    (c24 : ps.contains .tmp = true ∨ v18 = s.tmp)
    (c25 : ps.contains .bkp = true ∨ v19 = s.bkp)
    (c26 : sub [.line, .dkl, .lci, .sac, .vat, .sch, .ports] ps = true ∨ v20 = s.mills)
    (c27 : ps.contains .trib = true ∨ v21 = s.trib)
    (c28 : ps.contains .tribOld = true ∨ v22 = s.tribOld)
    (c29 : ps.contains .sc = true ∨ v23 = s.sc)
    (c30 : ps.contains .sa = true ∨ v24 = s.sa)
    (c31 : ps.contains .hbxRr = true ∨ v25 = s.hbxRr)
    (c32 : ps.contains .cur = true ∨ v26 = s.cur)
    (c33 : ps.contains .lanes = true ∨ v27 = s.lanes)
    (c34 : ps.contains .felt = true ∨ v28 = s.felt)
    (c35 : ps.contains .mte = true ∨ v29.rest = s.mte.rest)
    (c36 : ps.contains .role = true ∨ v29.st = s.mte.st)
    (c37 : ps.contains .canon = true ∨ v4 = s.regs ∧ v12.part = s.otp.part ∧ v13 = s.mtp)
    (c38 : ps.contains .fuses = true ∨ v12 = s.otp) :
    Only ps a (State.mk v0 v1 v2 v3 v4 v5 v6 v7 v8 v9 v10 v11 v12 v13 v14 v15 v16 v17 v18 v19 v20 v21 v22 v23 v24 v25 v26 v27 v28 v29) := by
  intro p hp
  cases p
  case queue =>
    rcases c0 with c | c
    · rw [c] at hp; exact Bool.noConfusion hp
    · exact c.trans (h .queue hp)
  case clock =>
    rcases c1 with c | c
    · rw [c] at hp; exact Bool.noConfusion hp
    · exact c.trans (h .clock hp)
  case free =>
    rcases c2 with c | c
    · rw [c] at hp; exact Bool.noConfusion hp
    · exact c.trans (h .free hp)
  case out =>
    rcases c3 with c | c
    · rw [c] at hp; exact Bool.noConfusion hp
    · exact c.trans (h .out hp)
  case settings =>
    rcases c4 with c | c
    · exact absurd (not_mem_of_sub c hp) (by decide)
    · subst c; exact h .settings hp
  case status =>
    rcases c4 with c | c
    · exact absurd (not_mem_of_sub c hp) (by decide)
    · subst c; exact h .status hp
  case shadow =>
    rcases c5 with c | c
    · rw [c] at hp; exact Bool.noConfusion hp
    · exact c.trans (h .shadow hp)
  case resetCtl =>
    rcases c6 with c | c
    · rw [c] at hp; exact Bool.noConfusion hp
    · exact c.trans (h .resetCtl hp)
  case domains =>
    rcases c7 with c | c
    · rw [c] at hp; exact Bool.noConfusion hp
    · exact agree_trans (h .domains hp) (u := State.mk v0 v1 v2 v3 v4 v5 v6 v7 v8 v9 v10 v11 v12 v13 v14 v15 v16 v17 v18 v19 v20 v21 v22 v23 v24 v25 v26 v27 v28 v29) c
  case host =>
    rcases c8 with c | c
    · rw [c] at hp; exact Bool.noConfusion hp
    · exact c.trans (h .host hp)
  case irq =>
    rcases c9 with c | c
    · rw [c] at hp; exact Bool.noConfusion hp
    · exact agree_trans (h .irq hp) (u := State.mk v0 v1 v2 v3 v4 v5 v6 v7 v8 v9 v10 v11 v12 v13 v14 v15 v16 v17 v18 v19 v20 v21 v22 v23 v24 v25 v26 v27 v28 v29) c
  case pads =>
    rcases c10 with c | c
    · rw [c] at hp; exact Bool.noConfusion hp
    · exact c.trans (h .pads hp)
  case gather =>
    rcases c11 with c | c
    · rw [c] at hp; exact Bool.noConfusion hp
    · exact c.trans (h .gather hp)
  case counts =>
    rcases c12 with c | c
    · rw [c] at hp; exact Bool.noConfusion hp
    · exact agree_trans (h .counts hp) (u := State.mk v0 v1 v2 v3 v4 v5 v6 v7 v8 v9 v10 v11 v12 v13 v14 v15 v16 v17 v18 v19 v20 v21 v22 v23 v24 v25 v26 v27 v28 v29) c
  case records =>
    rcases c13 with c | c
    · rw [c] at hp; exact Bool.noConfusion hp
    · exact c.trans (h .records hp)
  case evrQueue =>
    rcases c14 with c | c
    · rw [c] at hp; exact Bool.noConfusion hp
    · exact agree_trans (h .evrQueue hp) (u := State.mk v0 v1 v2 v3 v4 v5 v6 v7 v8 v9 v10 v11 v12 v13 v14 v15 v16 v17 v18 v19 v20 v21 v22 v23 v24 v25 v26 v27 v28 v29) c
  case tim =>
    rcases c15 with c | c
    · rw [c] at hp; exact Bool.noConfusion hp
    · exact c.trans (h .tim hp)
  case timeBases =>
    rcases c16 with c | c
    · rw [c] at hp; exact Bool.noConfusion hp
    · exact agree_trans (h .timeBases hp) (u := State.mk v0 v1 v2 v3 v4 v5 v6 v7 v8 v9 v10 v11 v12 v13 v14 v15 v16 v17 v18 v19 v20 v21 v22 v23 v24 v25 v26 v27 v28 v29) c
  case otp =>
    rcases c17 with c | c
    · rw [c] at hp; exact Bool.noConfusion hp
    · exact c.trans (h .otp hp)
  case mtp =>
    rcases c18 with c | c
    · rw [c] at hp; exact Bool.noConfusion hp
    · exact c.trans (h .mtp hp)
  case kst =>
    rcases c19 with c | c
    · rw [c] at hp; exact Bool.noConfusion hp
    · exact c.trans (h .kst hp)
  case slots =>
    rcases c20 with c | c
    · rw [c] at hp; exact Bool.noConfusion hp
    · exact agree_trans (h .slots hp) (u := State.mk v0 v1 v2 v3 v4 v5 v6 v7 v8 v9 v10 v11 v12 v13 v14 v15 v16 v17 v18 v19 v20 v21 v22 v23 v24 v25 v26 v27 v28 v29) c
  case rng =>
    rcases c21 with c | c
    · rw [c] at hp; exact Bool.noConfusion hp
    · exact c.trans (h .rng hp)
  case uci =>
    rcases c22 with c | c
    · rw [c] at hp; exact Bool.noConfusion hp
    · exact c.trans (h .uci hp)
  case mem =>
    rcases c23 with c | c
    · rw [c] at hp; exact Bool.noConfusion hp
    · exact c.trans (h .mem hp)
  case tmp =>
    rcases c24 with c | c
    · rw [c] at hp; exact Bool.noConfusion hp
    · exact c.trans (h .tmp hp)
  case bkp =>
    rcases c25 with c | c
    · rw [c] at hp; exact Bool.noConfusion hp
    · exact c.trans (h .bkp hp)
  case line =>
    rcases c26 with c | c
    · exact absurd (not_mem_of_sub c hp) (by decide)
    · subst c; exact h .line hp
  case dkl =>
    rcases c26 with c | c
    · exact absurd (not_mem_of_sub c hp) (by decide)
    · subst c; exact h .dkl hp
  case lci =>
    rcases c26 with c | c
    · exact absurd (not_mem_of_sub c hp) (by decide)
    · subst c; exact h .lci hp
  case sac =>
    rcases c26 with c | c
    · exact absurd (not_mem_of_sub c hp) (by decide)
    · subst c; exact h .sac hp
  case vat =>
    rcases c26 with c | c
    · exact absurd (not_mem_of_sub c hp) (by decide)
    · subst c; exact h .vat hp
  case sch =>
    rcases c26 with c | c
    · exact absurd (not_mem_of_sub c hp) (by decide)
    · subst c; exact h .sch hp
  case ports =>
    rcases c26 with c | c
    · exact absurd (not_mem_of_sub c hp) (by decide)
    · subst c; exact h .ports hp
  case trib =>
    rcases c27 with c | c
    · rw [c] at hp; exact Bool.noConfusion hp
    · exact c.trans (h .trib hp)
  case tribOld =>
    rcases c28 with c | c
    · rw [c] at hp; exact Bool.noConfusion hp
    · exact c.trans (h .tribOld hp)
  case sc =>
    rcases c29 with c | c
    · rw [c] at hp; exact Bool.noConfusion hp
    · exact c.trans (h .sc hp)
  case sa =>
    rcases c30 with c | c
    · rw [c] at hp; exact Bool.noConfusion hp
    · exact c.trans (h .sa hp)
  case hbxRr =>
    rcases c31 with c | c
    · rw [c] at hp; exact Bool.noConfusion hp
    · exact c.trans (h .hbxRr hp)
  case cur =>
    rcases c32 with c | c
    · rw [c] at hp; exact Bool.noConfusion hp
    · exact c.trans (h .cur hp)
  case lanes =>
    rcases c33 with c | c
    · rw [c] at hp; exact Bool.noConfusion hp
    · exact c.trans (h .lanes hp)
  case felt =>
    rcases c34 with c | c
    · rw [c] at hp; exact Bool.noConfusion hp
    · exact c.trans (h .felt hp)
  case mte =>
    rcases c35 with c | c
    · rw [c] at hp; exact Bool.noConfusion hp
    · exact c.trans (h .mte hp)
  case role =>
    rcases c36 with c | c
    · rw [c] at hp; exact Bool.noConfusion hp
    · exact agree_trans (h .role hp) (u := State.mk v0 v1 v2 v3 v4 v5 v6 v7 v8 v9 v10 v11 v12 v13 v14 v15 v16 v17 v18 v19 v20 v21 v22 v23 v24 v25 v26 v27 v28 v29) c
  case canon =>
    rcases c37 with c | ⟨c1, c2, c3⟩
    · rw [c] at hp; exact Bool.noConfusion hp
    · intro hc
      have hw := h .canon hp hc
      subst c1 c3
      unfold State.canonical at *
      dsimp only
      rw [c2]
      exact hw
  case fuses =>
    rcases c38 with c | c
    · rw [c] at hp; exact Bool.noConfusion hp
    · subst c; exact h .fuses hp

/-! ## Which registers are status registers -/

section
variable (m : Fin 4) (c : Fin 4) (b : Fin 8) (k : Fin 8) (r : Fin 8) (f : Fin 2) (n : Fin 68)
@[simp] theorem isStatus_lnf0 : isStatus (Reg.lnf m 0) = true := by revert m; decide
@[simp] theorem isStatus_lnf14 : isStatus (Reg.lnf m 0x14) = true := by revert m; decide
@[simp] theorem isStatus_lnf20 : isStatus (Reg.lnf m 0x20) = true := by revert m; decide
@[simp] theorem isStatus_lci4 : isStatus (Reg.lci m 4) = true := by revert m; decide
@[simp] theorem isStatus_dkl4 : isStatus (Reg.dkl m 4) = true := by revert m; decide
@[simp] theorem isStatus_sch50 : isStatus (Reg.sch m 0x50) = true := by revert m; decide
@[simp] theorem isStatus_sch200 : isStatus (Reg.sch m (0x200 + 4 * b)) = true := by revert m b; decide
@[simp] theorem isStatus_ht : isStatus (Reg.vat m 0x9A0) = true := by revert m; decide
@[simp] theorem isStatus_tcam : isStatus (Reg.vat m 0xAC0) = true := by revert m; decide
theorem isStatus_vat (o : Nat) (h : 0x980 ≤ o) (h' : o < 0xAC4) : isStatus (Reg.vat m o) = true := by
  have hm := m.isLt
  have h1 : ¬ Reg.vat m o < 0x1000000 := by unfold Reg.vat Reg.mill; omega
  have h2 : Reg.vat m o % 0x1000000 = 0x300000 + o := by unfold Reg.vat Reg.mill; omega
  unfold isStatus statusMill
  rw [if_neg h1, h2]
  simp only [Bool.or_eq_true, decide_eq_true_eq]
  exact Or.inr (by omega)
@[simp] theorem isStatus_ser4 : isStatus (Reg.ser n 4) = true := by revert n; decide
@[simp] theorem isStatus_ser0 : isStatus (Reg.ser n 0) = false := by revert n; decide
@[simp] theorem isStatus_ser8 : isStatus (Reg.ser n 8) = false := by revert n; decide
@[simp] theorem isStatus_ser20 : isStatus (Reg.ser n 0x20) = false := by revert n; decide
@[simp] theorem isStatus_rgnKey : isStatus (Reg.mem (0x20C + 0x20 * r)) = false := by revert r; decide
@[simp] theorem isStatus_felt : isStatus (Reg.ser 64 0x100) = true := by decide
@[simp] theorem isStatus_tb : isStatus (Reg.tim (0x40 * b)) = true := by revert b; decide
@[simp] theorem isStatus_adj : isStatus (Reg.tim (0x40 * b + 4)) = true := by revert b; decide
@[simp] theorem isStatus_trig : isStatus (Reg.tim (0x700 + 4 * k)) = true := by revert k; decide
@[simp] theorem isStatus_memCh : isStatus (Reg.mem (4 + 0x40 * c)) = true := by revert c; decide
@[simp] theorem isStatus_rgn : isStatus (Reg.mem (0x210 + 0x20 * r)) = true := by revert r; decide
end

/-! ## Outcomes -/

/-- A command that answers a next state answers one that differs from `a` in `ps` only. -/
def OnlyR (ps : List Area) (a : State) (r : Res) : Prop := ∀ t, r = .next t → Only ps a t

theorem idle_only (h : Only ps a s) : OnlyR ps a (idle s) := by
  intro t e; cases e; exact h
theorem finish_only (h : Only ps a s) (hs : sub [.counts, .evrQueue, .irq, .out] ps = true) : OnlyR ps a (finish s) := by
  intro t e; cases e; exact State.settle_only h hs

end Sys2Proof.Machine
end

