-- ==== Sys2Proof/Laws/OnlyWire.lean ====
section
/-! SUPPORT. What each operation of Machine/Wire.lean may change. -/

set_option linter.unusedTactic false
set_option linter.unreachableTactic false
set_option linter.unusedVariables false
set_option linter.unusedSimpArgs false

namespace Sys2Proof.Machine

variable {ps : List Area} {a s : State}

theorem State.wireLane_only (h : Only ps a s) (x1 x2 x3) (hs : sub [.out, .line] ps = true) : Only ps a (State.wireLane s x1 x2 x3) := by
  unfold State.wireLane
  try dsimp only
  repeat' first
    | with_reducible assumption
    | with_reducible refine State.modLine_only ?_ _ _ (sub_of rfl hs)
    | with_reducible refine State.emits_only ?_ _ (sub_of rfl hs)
    | split
    | (with_reducible refine Only.foldl _ (fun _ _ _ => ?_) _ _ ?_)
    | ((with_reducible apply upd_only); rotate_left; iterate 39 (first | exact Or.inr (by with_reducible rfl) | exact Or.inl (mem_of_sub hs rfl) | exact Or.inl (sub_of rfl hs) | exact Or.inr rfl | exact Or.inr ⟨rfl, rfl⟩ | exact Or.inr ⟨rfl, rfl, rfl⟩))


theorem State.wireAll_only (h : Only ps a s) (x1 x2 x3) (hs : sub [.out, .line] ps = true) : Only ps a (State.wireAll s x1 x2 x3) := by
  unfold State.wireAll
  try dsimp only
  repeat' first
    | with_reducible assumption
    | with_reducible refine State.wireLane_only ?_ _ _ _ (sub_of rfl hs)
    | split
    | (with_reducible refine Only.foldl _ (fun _ _ _ => ?_) _ _ ?_)
    | ((with_reducible apply upd_only); rotate_left; iterate 39 (first | exact Or.inr (by with_reducible rfl) | exact Or.inl (mem_of_sub hs rfl) | exact Or.inl (sub_of rfl hs) | exact Or.inr rfl | exact Or.inr ⟨rfl, rfl⟩ | exact Or.inr ⟨rfl, rfl, rfl⟩))


theorem State.wireSheet_only (h : Only ps a s) (x1 x2 x3 x4) (hs : sub [.out, .line] ps = true) : Only ps a (State.wireSheet s x1 x2 x3 x4) := by
  unfold State.wireSheet
  try dsimp only
  repeat' first
    | with_reducible assumption
    | with_reducible refine State.wireAll_only ?_ _ _ _ (sub_of rfl hs)
    | split
    | (with_reducible refine Only.foldl _ (fun _ _ _ => ?_) _ _ ?_)
    | ((with_reducible apply upd_only); rotate_left; iterate 39 (first | exact Or.inr (by with_reducible rfl) | exact Or.inl (mem_of_sub hs rfl) | exact Or.inl (sub_of rfl hs) | exact Or.inr rfl | exact Or.inr ⟨rfl, rfl⟩ | exact Or.inr ⟨rfl, rfl, rfl⟩))


theorem State.wireMarkers_only (h : Only ps a s) (x1 x2 x3) (hs : sub [.out, .line] ps = true) : Only ps a (State.wireMarkers s x1 x2 x3) := by
  unfold State.wireMarkers
  try dsimp only
  repeat' first
    | with_reducible assumption
    | with_reducible refine State.wireAll_only ?_ _ _ _ (sub_of rfl hs)
    | split
    | (with_reducible refine Only.foldl _ (fun _ _ _ => ?_) _ _ ?_)
    | ((with_reducible apply upd_only); rotate_left; iterate 39 (first | exact Or.inr (by with_reducible rfl) | exact Or.inl (mem_of_sub hs rfl) | exact Or.inl (sub_of rfl hs) | exact Or.inr rfl | exact Or.inr ⟨rfl, rfl⟩ | exact Or.inr ⟨rfl, rfl, rfl⟩))


end Sys2Proof.Machine
end

