-- ==== Sys2Proof/Laws/OnlyLink.lean ====
section
/-! SUPPORT. What each operation of Machine/Link.lean may change. -/

set_option linter.unusedTactic false
set_option linter.unreachableTactic false
set_option linter.unusedVariables false
set_option linter.unusedSimpArgs false

namespace Sys2Proof.Machine

variable {ps : List Area} {a s : State}

theorem State.feltSend_only (h : Only ps a s) (x1 x2) (hs : sub [.out, .mte] ps = true) : Only ps a (State.feltSend s x1 x2) := by
  unfold State.feltSend
  try dsimp only
  repeat' first
    | with_reducible assumption
    | split
    | (with_reducible refine Only.foldl _ (fun _ _ _ => ?_) _ _ ?_)
    | ((with_reducible apply upd_only); rotate_left; iterate 39 (first | exact Or.inr (by with_reducible rfl) | exact Or.inl (mem_of_sub hs rfl) | exact Or.inl (sub_of rfl hs) | exact Or.inr rfl | exact Or.inr ⟨rfl, rfl⟩ | exact Or.inr ⟨rfl, rfl, rfl⟩))


theorem State.delta_only (h : Only ps a s) (x1 x2) (hs : sub [.out, .counts, .mte] ps = true) : Only ps a (State.delta s x1 x2).1 := by
  unfold State.delta
  try dsimp only
  repeat' first
    | with_reducible assumption
    | with_reducible refine State.countDev_only ?_ _ _ _ _ (sub_of rfl hs)
    | with_reducible refine State.feltSend_only ?_ _ _ (sub_of rfl hs)
    | split
    | (with_reducible refine Only.foldl _ (fun _ _ _ => ?_) _ _ ?_)
    | ((with_reducible apply upd_only); rotate_left; iterate 39 (first | exact Or.inr (by with_reducible rfl) | exact Or.inl (mem_of_sub hs rfl) | exact Or.inl (sub_of rfl hs) | exact Or.inr rfl | exact Or.inr ⟨rfl, rfl⟩ | exact Or.inr ⟨rfl, rfl, rfl⟩))

theorem State.delta_only_of {t : State} {x1 x2} {r} (e : State.delta s x1 x2 = (t, r)) (h : Only ps a s) (hs : sub [.out, .counts, .mte] ps = true) : Only ps a t := by
  have := State.delta_only h x1 x2 hs
  rw [e] at this
  exact this


theorem State.deltas_only (h : Only ps a s) (x1) (hs : sub [.out, .counts, .mte] ps = true) : Only ps a (State.deltas s x1).1 := by
  fun_induction State.deltas s x1 <;> try dsimp only
  repeat' first
    | with_reducible assumption
    | with_reducible refine State.delta_only ?_ _ _ (sub_of rfl hs)
    | with_reducible refine State.delta_only_of (by assumption) ?_ (sub_of rfl hs)
    | with_reducible apply_assumption -exfalso -symm
    | split
    | (with_reducible refine Only.foldl _ (fun _ _ _ => ?_) _ _ ?_)
    | ((with_reducible apply upd_only); rotate_left; iterate 39 (first | exact Or.inr (by with_reducible rfl) | exact Or.inl (mem_of_sub hs rfl) | exact Or.inl (sub_of rfl hs) | exact Or.inr rfl | exact Or.inr ⟨rfl, rfl⟩ | exact Or.inr ⟨rfl, rfl, rfl⟩))

theorem State.deltas_only_of {t : State} {x1} {r} (e : State.deltas s x1 = (t, r)) (h : Only ps a s) (hs : sub [.out, .counts, .mte] ps = true) : Only ps a t := by
  have := State.deltas_only h x1 hs
  rw [e] at this
  exact this


theorem State.interlock_only (h : Only ps a s) (hs : sub [.pads, .mte] ps = true) : Only ps a (State.interlock s) := by
  unfold State.interlock
  try dsimp only
  repeat' first
    | with_reducible assumption
    | split
    | (with_reducible refine Only.foldl _ (fun _ _ _ => ?_) _ _ ?_)
    | ((with_reducible apply upd_only); rotate_left; iterate 39 (first | exact Or.inr (by with_reducible rfl) | exact Or.inl (mem_of_sub hs rfl) | exact Or.inl (sub_of rfl hs) | exact Or.inr rfl | exact Or.inr ⟨rfl, rfl⟩ | exact Or.inr ⟨rfl, rfl, rfl⟩))


theorem State.mateGo_only (h : Only ps a s) (x1 x2) (hs : sub [.host, .pads, .counts, .evrQueue, .role, .mte] ps = true) : Only ps a (State.mateGo s x1 x2) := by
  unfold State.mateGo
  try dsimp only
  repeat' first
    | with_reducible assumption
    | with_reducible refine State.happen_only ?_ _ _ _ _ _ (sub_of rfl hs)
    | with_reducible refine State.interlock_only ?_  (sub_of rfl hs)
    | split
    | (with_reducible refine Only.foldl _ (fun _ _ _ => ?_) _ _ ?_)
    | ((with_reducible apply upd_only); rotate_left; iterate 39 (first | exact Or.inr (by with_reducible rfl) | exact Or.inl (mem_of_sub hs rfl) | exact Or.inl (sub_of rfl hs) | exact Or.inr rfl | exact Or.inr ⟨rfl, rfl⟩ | exact Or.inr ⟨rfl, rfl, rfl⟩))


theorem State.judgeDig_only (h : Only ps a s) (x1 x2 x3) (hs : sub [.counts, .mte] ps = true) : Only ps a (State.judgeDig s x1 x2 x3) := by
  unfold State.judgeDig
  try dsimp only
  repeat' first
    | with_reducible assumption
    | with_reducible refine State.countDev_only ?_ _ _ _ _ (sub_of rfl hs)
    | split
    | (with_reducible refine Only.foldl _ (fun _ _ _ => ?_) _ _ ?_)
    | ((with_reducible apply upd_only); rotate_left; iterate 39 (first | exact Or.inr (by with_reducible rfl) | exact Or.inl (mem_of_sub hs rfl) | exact Or.inl (sub_of rfl hs) | exact Or.inr rfl | exact Or.inr ⟨rfl, rfl⟩ | exact Or.inr ⟨rfl, rfl, rfl⟩))


end Sys2Proof.Machine
end

