-- ==== Sys2Proof/Laws/OnlyCurator.lean ====
section
/-! SUPPORT. What each operation of Machine/Curator.lean may change. -/

set_option linter.unusedTactic false
set_option linter.unreachableTactic false
set_option linter.unusedVariables false
set_option linter.unusedSimpArgs false

namespace Sys2Proof.Machine

variable {ps : List Area} {a s : State}

theorem State.record_only (h : Only ps a s) (x1 x2) (hs : sub [.counts, .cur] ps = true) : Only ps a (State.record s x1 x2) := by
  unfold State.record
  try dsimp only
  repeat' first
    | with_reducible assumption
    | with_reducible refine State.countDev_only ?_ _ _ _ _ (sub_of rfl hs)
    | with_reducible refine State.modRing_only ?_ _ _ (sub_of rfl hs)
    | with_reducible refine State.fixDev_only ?_ _ _ (sub_of rfl hs)
    | split
    | (with_reducible refine Only.foldl _ (fun _ _ _ => ?_) _ _ ?_)
    | ((with_reducible apply upd_only); rotate_left; iterate 39 (first | exact Or.inr (by with_reducible rfl) | exact Or.inl (mem_of_sub hs rfl) | exact Or.inl (sub_of rfl hs) | exact Or.inr rfl | exact Or.inr ⟨rfl, rfl⟩ | exact Or.inr ⟨rfl, rfl, rfl⟩))


theorem State.haltRing_only (h : Only ps a s) (x1 x2) (hs : sub [.counts, .evrQueue, .cur] ps = true) : Only ps a (State.haltRing s x1 x2) := by
  unfold State.haltRing
  try dsimp only
  repeat' first
    | with_reducible assumption
    | with_reducible refine State.happen_only ?_ _ _ _ _ _ (sub_of rfl hs)
    | with_reducible refine State.modRing_only ?_ _ _ (sub_of rfl hs)
    | split
    | (with_reducible refine Only.foldl _ (fun _ _ _ => ?_) _ _ ?_)
    | ((with_reducible apply upd_only); rotate_left; iterate 39 (first | exact Or.inr (by with_reducible rfl) | exact Or.inl (mem_of_sub hs rfl) | exact Or.inl (sub_of rfl hs) | exact Or.inr rfl | exact Or.inr ⟨rfl, rfl⟩ | exact Or.inr ⟨rfl, rfl, rfl⟩))


theorem State.drainOne_only (h : Only ps a s) (x1 x2 x3) (hs : sub [.counts, .evrQueue, .cur] ps = true) : Only ps a (State.drainOne s x1 x2 x3) := by
  unfold State.drainOne
  try dsimp only
  repeat' first
    | with_reducible assumption
    | with_reducible refine State.modEng_only ?_ _ _ (sub_of rfl hs)
    | with_reducible refine State.modRing_only ?_ _ _ (sub_of rfl hs)
    | with_reducible refine State.haltRing_only ?_ _ _ (sub_of rfl hs)
    | with_reducible refine State.record_only ?_ _ _ (sub_of rfl hs)
    | split
    | (with_reducible refine Only.foldl _ (fun _ _ _ => ?_) _ _ ?_)
    | ((with_reducible apply upd_only); rotate_left; iterate 39 (first | exact Or.inr (by with_reducible rfl) | exact Or.inl (mem_of_sub hs rfl) | exact Or.inl (sub_of rfl hs) | exact Or.inr rfl | exact Or.inr ⟨rfl, rfl⟩ | exact Or.inr ⟨rfl, rfl, rfl⟩))


theorem State.drain_only (h : Only ps a s) (x1 x2) (hs : sub [.counts, .evrQueue, .cur] ps = true) : Only ps a (State.drain s x1 x2) := by
  fun_induction State.drain s x1 x2 <;> try dsimp only
  repeat' first
    | with_reducible assumption
    | with_reducible refine State.drainOne_only ?_ _ _ _ (sub_of rfl hs)
    | with_reducible apply_assumption -exfalso -symm
    | split
    | (with_reducible refine Only.foldl _ (fun _ _ _ => ?_) _ _ ?_)
    | ((with_reducible apply upd_only); rotate_left; iterate 39 (first | exact Or.inr (by with_reducible rfl) | exact Or.inl (mem_of_sub hs rfl) | exact Or.inl (sub_of rfl hs) | exact Or.inr rfl | exact Or.inr ⟨rfl, rfl⟩ | exact Or.inr ⟨rfl, rfl, rfl⟩))


theorem State.drainAll_only (h : Only ps a s) (x1) (hs : sub [.counts, .evrQueue, .cur] ps = true) : Only ps a (State.drainAll s x1) := by
  unfold State.drainAll
  try dsimp only
  repeat' first
    | with_reducible assumption
    | with_reducible refine State.drain_only ?_ _ _ (sub_of rfl hs)
    | split
    | (with_reducible refine Only.foldl _ (fun _ _ _ => ?_) _ _ ?_)
    | ((with_reducible apply upd_only); rotate_left; iterate 39 (first | exact Or.inr (by with_reducible rfl) | exact Or.inl (mem_of_sub hs rfl) | exact Or.inl (sub_of rfl hs) | exact Or.inr rfl | exact Or.inr ⟨rfl, rfl⟩ | exact Or.inr ⟨rfl, rfl, rfl⟩))


theorem State.complete_only (h : Only ps a s) (x1 x2 x3 x4 x5 x6) (hs : sub [.counts, .evrQueue, .cur] ps = true) : Only ps a (State.complete s x1 x2 x3 x4 x5 x6) := by
  unfold State.complete
  try dsimp only
  repeat' first
    | with_reducible assumption
    | with_reducible refine State.modRing_only ?_ _ _ (sub_of rfl hs)
    | with_reducible refine State.modEng_only ?_ _ _ (sub_of rfl hs)
    | with_reducible refine State.drainAll_only ?_ _ (sub_of rfl hs)
    | with_reducible refine State.record_only ?_ _ _ (sub_of rfl hs)
    | split
    | (with_reducible refine Only.foldl _ (fun _ _ _ => ?_) _ _ ?_)
    | ((with_reducible apply upd_only); rotate_left; iterate 39 (first | exact Or.inr (by with_reducible rfl) | exact Or.inl (mem_of_sub hs rfl) | exact Or.inl (sub_of rfl hs) | exact Or.inr rfl | exact Or.inr ⟨rfl, rfl⟩ | exact Or.inr ⟨rfl, rfl, rfl⟩))


theorem State.pop_only (h : Only ps a s) (x1) (hs : sub [.cur] ps = true) : Only ps a (State.pop s x1) := by
  unfold State.pop
  try dsimp only
  repeat' first
    | with_reducible assumption
    | with_reducible refine State.modEng_only ?_ _ _ (sub_of rfl hs)
    | with_reducible refine State.modRing_only ?_ _ _ (sub_of rfl hs)
    | split
    | (with_reducible refine Only.foldl _ (fun _ _ _ => ?_) _ _ ?_)
    | ((with_reducible apply upd_only); rotate_left; iterate 39 (first | exact Or.inr (by with_reducible rfl) | exact Or.inl (mem_of_sub hs rfl) | exact Or.inl (sub_of rfl hs) | exact Or.inr rfl | exact Or.inr ⟨rfl, rfl⟩ | exact Or.inr ⟨rfl, rfl, rfl⟩))


theorem State.accept_only (h : Only ps a s) (x1) (hs : sub [.cur] ps = true) : Only ps a (State.accept s x1) := by
  unfold State.accept
  try dsimp only
  repeat' first
    | with_reducible assumption
    | with_reducible refine State.modEng_only ?_ _ _ (sub_of rfl hs)
    | split
    | (with_reducible refine Only.foldl _ (fun _ _ _ => ?_) _ _ ?_)
    | ((with_reducible apply upd_only); rotate_left; iterate 39 (first | exact Or.inr (by with_reducible rfl) | exact Or.inl (mem_of_sub hs rfl) | exact Or.inl (sub_of rfl hs) | exact Or.inr rfl | exact Or.inr ⟨rfl, rfl⟩ | exact Or.inr ⟨rfl, rfl, rfl⟩))


theorem State.applyNow_only (h : Only ps a s) (x1 x2 x3 x4) (hs : sub [.cur] ps = true) : Only ps a (State.applyNow s x1 x2 x3 x4) := by
  unfold State.applyNow
  try dsimp only
  repeat' first
    | with_reducible assumption
    | with_reducible refine State.modEng_only ?_ _ _ (sub_of rfl hs)
    | with_reducible refine State.accept_only ?_ _ (sub_of rfl hs)
    | split
    | (with_reducible refine Only.foldl _ (fun _ _ _ => ?_) _ _ ?_)
    | ((with_reducible apply upd_only); rotate_left; iterate 39 (first | exact Or.inr (by with_reducible rfl) | exact Or.inl (mem_of_sub hs rfl) | exact Or.inl (sub_of rfl hs) | exact Or.inr rfl | exact Or.inr ⟨rfl, rfl⟩ | exact Or.inr ⟨rfl, rfl, rfl⟩))


theorem State.issue_only (h : Only ps a s) (r : Rid) (mop : Nat) (op : Nat → Bool) (run : State → Desc → CmdRef → State)
    (hr : ∀ s d ref, Only ps a s → Only ps a (run s d ref)) (hs : sub [.counts, .evrQueue, .irq, .out, .cur] ps = true) :
    OnlyR ps a (s.issue r mop op run) := by
  unfold State.issue
  split
  · exact idle_only h
  · split
    · exact finish_only (State.drainAll_only (State.complete_only (State.pop_only h _ (sub_of rfl hs)) _ _ _ _ _ _ (sub_of rfl hs)) _ (sub_of rfl hs)) (sub_of rfl hs)
    · exact finish_only (State.drainAll_only (hr _ _ _ (State.pop_only h _ (sub_of rfl hs))) _ (sub_of rfl hs)) (sub_of rfl hs)

theorem State.doNow_only (h : Only ps a s) (chk : State → Fin 4 → Desc → Option Nat) (eff : State → Fin 4 → Desc → Eff) (d : Desc) (ref : CmdRef)
    (he : ∀ s k d, Only ps a s → Only ps a (eff s k d).s) (hs : sub [.counts, .evrQueue, .irq, .out, .cur] ps = true) :
    Only ps a (s.doNow chk eff d ref) := by
  unfold State.doNow
  split
  · exact State.complete_only h _ _ _ _ _ _ (sub_of rfl hs)
  · exact State.complete_only (he _ _ _ h) _ _ _ _ _ _ (sub_of rfl hs)

theorem State.doApply_only (h : Only ps a s) (chk : State → Fin 4 → Desc → Option Nat) (eff : State → Fin 4 → Desc → Eff) (d : Desc) (ref : CmdRef)
    (he : ∀ s k d, Only ps a s → Only ps a (eff s k d).s) (hs : sub [.counts, .evrQueue, .irq, .out, .cur] ps = true) :
    Only ps a (s.doApply chk eff d ref) := by
  unfold State.doApply
  split
  · exact State.complete_only h _ _ _ _ _ _ (sub_of rfl hs)
  · exact State.applyNow_only (he _ _ _ h) _ _ _ _ (sub_of rfl hs)

theorem State.ringMsix_only (h : Only ps a s) (x1) (hs : sub [.out, .irq, .counts] ps = true) : Only ps a (State.ringMsix s x1) := by
  unfold State.ringMsix
  try dsimp only
  repeat' first
    | with_reducible assumption
    | with_reducible refine State.countDev_only ?_ _ _ _ _ (sub_of rfl hs)
    | with_reducible refine State.msix_only ?_ _ (sub_of rfl hs)
    | split
    | (with_reducible refine Only.foldl _ (fun _ _ _ => ?_) _ _ ?_)
    | ((with_reducible apply upd_only); rotate_left; iterate 39 (first | exact Or.inr (by with_reducible rfl) | exact Or.inl (mem_of_sub hs rfl) | exact Or.inl (sub_of rfl hs) | exact Or.inr rfl | exact Or.inr ⟨rfl, rfl⟩ | exact Or.inr ⟨rfl, rfl, rfl⟩))


theorem State.hostWrite_only (h : Only ps a s) (x1 x2 x3) (hs : sub [.out] ps = true) : Only ps a (State.hostWrite s x1 x2 x3) := by
  unfold State.hostWrite
  try dsimp only
  repeat' first
    | with_reducible assumption
    | with_reducible refine State.emit_only ?_ _ (sub_of rfl hs)
    | split
    | (with_reducible refine Only.foldl _ (fun _ _ _ => ?_) _ _ ?_)
    | ((with_reducible apply upd_only); rotate_left; iterate 39 (first | exact Or.inr (by with_reducible rfl) | exact Or.inl (mem_of_sub hs rfl) | exact Or.inl (sub_of rfl hs) | exact Or.inr rfl | exact Or.inr ⟨rfl, rfl⟩ | exact Or.inr ⟨rfl, rfl, rfl⟩))


end Sys2Proof.Machine
end

