-- ==== Sys2Proof/Laws/OnlyGates.lean ====
section
/-! SUPPORT. What each operation of Machine/Gates.lean may change. -/

set_option linter.unusedTactic false
set_option linter.unreachableTactic false
set_option linter.unusedVariables false
set_option linter.unusedSimpArgs false

namespace Sys2Proof.Machine

variable {ps : List Area} {a s : State}

end Sys2Proof.Machine
end

