-- ==== Sys2Proof/Laws/OnlyTime.lean ====
section
/-! SUPPORT. What each operation of Machine/Time.lean may change. -/

set_option linter.unusedTactic false
set_option linter.unreachableTactic false
set_option linter.unusedVariables false
set_option linter.unusedSimpArgs false

namespace Sys2Proof.Machine

variable {ps : List Area} {a s : State}

theorem State.stepWaits_only (h : Only ps a s) (x1 x2 x3 x4) (hs : sub [.counts, .evrQueue, .cur] ps = true) : Only ps a (State.stepWaits s x1 x2 x3 x4) := by
  fun_induction State.stepWaits s x1 x2 x3 x4 <;> try dsimp only
  repeat' first
    | with_reducible assumption
    | with_reducible refine State.complete_only ?_ _ _ _ _ _ _ (sub_of rfl hs)
    | with_reducible apply_assumption -exfalso -symm
    | split
    | (with_reducible refine Only.foldl _ (fun _ _ _ => ?_) _ _ ?_)
    | ((with_reducible apply upd_only); rotate_left; iterate 39 (first | exact Or.inr (by with_reducible rfl) | exact Or.inl (mem_of_sub hs rfl) | exact Or.inl (sub_of rfl hs) | exact Or.inr rfl | exact Or.inr ⟨rfl, rfl⟩ | exact Or.inr ⟨rfl, rfl, rfl⟩))


theorem State.stepGates_only (h : Only ps a s) (x1 x2) (hs : sub [.ports] ps = true) : Only ps a (State.stepGates s x1 x2) := by
  intro p hp
  have hn := not_mem_of_sub hs hp
  cases p
  case ports => exact absurd hn (by decide)
  case line | dkl | lci | sac | vat | sch =>
    intro m
    refine Eq.trans ?_ (h _ hp m)
    simp [State.stepGates, State.line, State.dkl, State.lci, State.sac, State.vat, State.sch, State.mill]
  all_goals exact h _ hp

theorem State.stepTb_only (h : Only ps a s) (x1 x2) (hs : sub [.status, .counts, .evrQueue, .timeBases, .tim, .ports, .cur] ps = true) : Only ps a (State.stepTb s x1 x2) := by
  unfold State.stepTb
  try dsimp only
  repeat' first
    | with_reducible assumption
    | with_reducible refine State.setBit_only ?_ _ _ _ (Or.inr (by first | rfl | (simp; done) | decide)) (Or.inl (mem_of_sub hs rfl))
    | ((with_reducible refine State.modTim_only ?_ _ ?_ ?_); rotate_left; (first | exact Or.inl (mem_of_sub hs rfl) | exact Or.inr (fun _ => rfl)); (first | exact Or.inl (mem_of_sub hs rfl) | exact Or.inr (fun _ => rfl) | exact Or.inr (fun _ => ⟨rfl, rfl⟩) | exact Or.inr (fun _ => ⟨rfl, rfl, rfl⟩)))
    | with_reducible refine State.modTb_only ?_ _ _ (sub_of rfl hs)
    | with_reducible refine State.stepWaits_only ?_ _ _ _ _ (sub_of rfl hs)
    | with_reducible refine State.stepGates_only ?_ _ _ (sub_of rfl hs)
    | split
    | (with_reducible refine Only.foldl _ (fun _ _ _ => ?_) _ _ ?_)
    | ((with_reducible apply upd_only); rotate_left; iterate 39 (first | exact Or.inr (by with_reducible rfl) | exact Or.inl (mem_of_sub hs rfl) | exact Or.inl (sub_of rfl hs) | exact Or.inr rfl | exact Or.inr ⟨rfl, rfl⟩ | exact Or.inr ⟨rfl, rfl, rfl⟩))


theorem State.servoOffset_only (h : Only ps a s) (x1 x2) (hs : sub [.status, .counts, .evrQueue, .timeBases, .tim, .ports, .cur] ps = true) : Only ps a (State.servoOffset s x1 x2) := by
  unfold State.servoOffset
  try dsimp only
  repeat' first
    | with_reducible assumption
    | with_reducible refine State.setReg_only ?_ _ _ (Or.inr (by first | rfl | (simp; done) | decide)) (Or.inl (mem_of_sub hs rfl))
    | with_reducible refine State.setBit_only ?_ _ _ _ (Or.inr (by first | rfl | (simp; done) | decide)) (Or.inl (mem_of_sub hs rfl))
    | with_reducible refine State.modTb_only ?_ _ _ (sub_of rfl hs)
    | with_reducible refine State.stepTb_only ?_ _ _ (sub_of rfl hs)
    | split
    | (with_reducible refine Only.foldl _ (fun _ _ _ => ?_) _ _ ?_)
    | ((with_reducible apply upd_only); rotate_left; iterate 39 (first | exact Or.inr (by with_reducible rfl) | exact Or.inl (mem_of_sub hs rfl) | exact Or.inl (sub_of rfl hs) | exact Or.inr rfl | exact Or.inr ⟨rfl, rfl⟩ | exact Or.inr ⟨rfl, rfl, rfl⟩))


theorem State.hwOffset_only (h : Only ps a s) (x1 x2) (hs : sub [.status, .counts, .evrQueue, .timeBases, .tim, .ports, .cur] ps = true) : Only ps a (State.hwOffset s x1 x2) := by
  unfold State.hwOffset
  try dsimp only
  repeat' first
    | with_reducible assumption
    | with_reducible refine State.countDev_only ?_ _ _ _ _ (sub_of rfl hs)
    | with_reducible refine State.servoOffset_only ?_ _ _ (sub_of rfl hs)
    | split
    | (with_reducible refine Only.foldl _ (fun _ _ _ => ?_) _ _ ?_)
    | ((with_reducible apply upd_only); rotate_left; iterate 39 (first | exact Or.inr (by with_reducible rfl) | exact Or.inl (mem_of_sub hs rfl) | exact Or.inl (sub_of rfl hs) | exact Or.inr rfl | exact Or.inr ⟨rfl, rfl⟩ | exact Or.inr ⟨rfl, rfl, rfl⟩))


theorem applyTbstepAbs_only (h : Only ps a s) (x1 x2) (hs : sub [.status, .counts, .evrQueue, .timeBases, .tim, .ports, .cur] ps = true) : Only ps a (applyTbstepAbs s x1 x2).s := by
  unfold applyTbstepAbs
  try dsimp only
  repeat' first
    | with_reducible assumption
    | with_reducible refine State.stepTb_only ?_ _ _ (sub_of rfl hs)
    | split
    | (with_reducible refine Only.foldl _ (fun _ _ _ => ?_) _ _ ?_)
    | ((with_reducible apply upd_only); rotate_left; iterate 39 (first | exact Or.inr (by with_reducible rfl) | exact Or.inl (mem_of_sub hs rfl) | exact Or.inl (sub_of rfl hs) | exact Or.inr rfl | exact Or.inr ⟨rfl, rfl⟩ | exact Or.inr ⟨rfl, rfl, rfl⟩))


theorem execTbstepAbs_only (h : Only ps a s) (x0) (hs : sub [.out, .status, .irq, .counts, .evrQueue, .timeBases, .tim, .ports, .cur] ps = true) : OnlyR ps a (execTbstepAbs x0 s) := by
  unfold execTbstepAbs
  try dsimp only
  repeat' first
    | with_reducible assumption
    | ((with_reducible refine State.issue_only ?_ _ _ _ _ (fun _ _ _ _ => ?_) (sub_of rfl hs)); rotate_left)
    | ((with_reducible refine State.doNow_only ?_ _ _ _ _ (fun _ _ _ _ => ?_) (sub_of rfl hs)); rotate_left)
    | with_reducible refine applyTbstepAbs_only ?_ _ _ (sub_of rfl hs)
    | with_reducible refine finish_only ?_ (sub_of rfl hs)
    | with_reducible refine idle_only ?_
    | split
    | (with_reducible refine Only.foldl _ (fun _ _ _ => ?_) _ _ ?_)
    | ((with_reducible apply upd_only); rotate_left; iterate 39 (first | exact Or.inr (by with_reducible rfl) | exact Or.inl (mem_of_sub hs rfl) | exact Or.inl (sub_of rfl hs) | exact Or.inr rfl | exact Or.inr ⟨rfl, rfl⟩ | exact Or.inr ⟨rfl, rfl, rfl⟩))


theorem applyTbstepRel_only (h : Only ps a s) (x1 x2) (hs : sub [.status, .counts, .evrQueue, .timeBases, .tim, .ports, .cur] ps = true) : Only ps a (applyTbstepRel s x1 x2).s := by
  unfold applyTbstepRel
  try dsimp only
  repeat' first
    | with_reducible assumption
    | with_reducible refine State.stepTb_only ?_ _ _ (sub_of rfl hs)
    | split
    | (with_reducible refine Only.foldl _ (fun _ _ _ => ?_) _ _ ?_)
    | ((with_reducible apply upd_only); rotate_left; iterate 39 (first | exact Or.inr (by with_reducible rfl) | exact Or.inl (mem_of_sub hs rfl) | exact Or.inl (sub_of rfl hs) | exact Or.inr rfl | exact Or.inr ⟨rfl, rfl⟩ | exact Or.inr ⟨rfl, rfl, rfl⟩))


theorem execTbstepRel_only (h : Only ps a s) (x0) (hs : sub [.out, .status, .irq, .counts, .evrQueue, .timeBases, .tim, .ports, .cur] ps = true) : OnlyR ps a (execTbstepRel x0 s) := by
  unfold execTbstepRel
  try dsimp only
  repeat' first
    | with_reducible assumption
    | ((with_reducible refine State.doNow_only ?_ _ _ _ _ (fun _ _ _ _ => ?_) (sub_of rfl hs)); rotate_left)
    | ((with_reducible refine State.issue_only ?_ _ _ _ _ (fun _ _ _ _ => ?_) (sub_of rfl hs)); rotate_left)
    | with_reducible refine applyTbstepRel_only ?_ _ _ (sub_of rfl hs)
    | with_reducible refine finish_only ?_ (sub_of rfl hs)
    | with_reducible refine idle_only ?_
    | split
    | (with_reducible refine Only.foldl _ (fun _ _ _ => ?_) _ _ ?_)
    | ((with_reducible apply upd_only); rotate_left; iterate 39 (first | exact Or.inr (by with_reducible rfl) | exact Or.inl (mem_of_sub hs rfl) | exact Or.inl (sub_of rfl hs) | exact Or.inr rfl | exact Or.inr ⟨rfl, rfl⟩ | exact Or.inr ⟨rfl, rfl, rfl⟩))


theorem State.servoDelta_only (h : Only ps a s) (x1) (hs : sub [.out, .counts, .mte] ps = true) : Only ps a (State.servoDelta s x1).s := by
  unfold State.servoDelta
  try dsimp only
  repeat' first
    | with_reducible assumption
    | with_reducible refine State.delta_only ?_ _ _ (sub_of rfl hs)
    | with_reducible refine State.delta_only_of (by assumption) ?_ (sub_of rfl hs)
    | split
    | (with_reducible refine Only.foldl _ (fun _ _ _ => ?_) _ _ ?_)
    | ((with_reducible apply upd_only); rotate_left; iterate 39 (first | exact Or.inr (by with_reducible rfl) | exact Or.inl (mem_of_sub hs rfl) | exact Or.inl (sub_of rfl hs) | exact Or.inr rfl | exact Or.inr ⟨rfl, rfl⟩ | exact Or.inr ⟨rfl, rfl, rfl⟩))


theorem applyGains_only (h : Only ps a s) (x1 x2) (hs : sub [.out, .counts, .timeBases, .mte] ps = true) : Only ps a (applyGains s x1 x2).s := by
  unfold applyGains
  try dsimp only
  repeat' first
    | with_reducible assumption
    | with_reducible refine State.modTb_only ?_ _ _ (sub_of rfl hs)
    | with_reducible refine State.servoDelta_only ?_ _ (sub_of rfl hs)
    | split
    | (with_reducible refine Only.foldl _ (fun _ _ _ => ?_) _ _ ?_)
    | ((with_reducible apply upd_only); rotate_left; iterate 39 (first | exact Or.inr (by with_reducible rfl) | exact Or.inl (mem_of_sub hs rfl) | exact Or.inl (sub_of rfl hs) | exact Or.inr rfl | exact Or.inr ⟨rfl, rfl⟩ | exact Or.inr ⟨rfl, rfl, rfl⟩))


theorem execTbservoGains_only (h : Only ps a s) (x0) (hs : sub [.out, .irq, .counts, .evrQueue, .timeBases, .cur, .mte] ps = true) : OnlyR ps a (execTbservoGains x0 s) := by
  unfold execTbservoGains
  try dsimp only
  repeat' first
    | with_reducible assumption
    | ((with_reducible refine State.issue_only ?_ _ _ _ _ (fun _ _ _ _ => ?_) (sub_of rfl hs)); rotate_left)
    | ((with_reducible refine State.doNow_only ?_ _ _ _ _ (fun _ _ _ _ => ?_) (sub_of rfl hs)); rotate_left)
    | with_reducible refine applyGains_only ?_ _ _ (sub_of rfl hs)
    | with_reducible refine finish_only ?_ (sub_of rfl hs)
    | with_reducible refine idle_only ?_
    | split
    | (with_reducible refine Only.foldl _ (fun _ _ _ => ?_) _ _ ?_)
    | ((with_reducible apply upd_only); rotate_left; iterate 39 (first | exact Or.inr (by with_reducible rfl) | exact Or.inl (mem_of_sub hs rfl) | exact Or.inl (sub_of rfl hs) | exact Or.inr rfl | exact Or.inr ⟨rfl, rfl⟩ | exact Or.inr ⟨rfl, rfl, rfl⟩))


theorem applyOffset_only (h : Only ps a s) (x1 x2) (hs : sub [.status, .counts, .evrQueue, .timeBases, .tim, .ports, .cur] ps = true) : Only ps a (applyOffset s x1 x2).s := by
  unfold applyOffset
  try dsimp only
  repeat' first
    | with_reducible assumption
    | with_reducible refine State.servoOffset_only ?_ _ _ (sub_of rfl hs)
    | split
    | (with_reducible refine Only.foldl _ (fun _ _ _ => ?_) _ _ ?_)
    | ((with_reducible apply upd_only); rotate_left; iterate 39 (first | exact Or.inr (by with_reducible rfl) | exact Or.inl (mem_of_sub hs rfl) | exact Or.inl (sub_of rfl hs) | exact Or.inr rfl | exact Or.inr ⟨rfl, rfl⟩ | exact Or.inr ⟨rfl, rfl, rfl⟩))


theorem execTbservoOffset_only (h : Only ps a s) (x0) (hs : sub [.out, .status, .irq, .counts, .evrQueue, .timeBases, .tim, .ports, .cur] ps = true) : OnlyR ps a (execTbservoOffset x0 s) := by
  unfold execTbservoOffset
  try dsimp only
  repeat' first
    | with_reducible assumption
    | ((with_reducible refine State.issue_only ?_ _ _ _ _ (fun _ _ _ _ => ?_) (sub_of rfl hs)); rotate_left)
    | ((with_reducible refine State.doNow_only ?_ _ _ _ _ (fun _ _ _ _ => ?_) (sub_of rfl hs)); rotate_left)
    | with_reducible refine applyOffset_only ?_ _ _ (sub_of rfl hs)
    | with_reducible refine finish_only ?_ (sub_of rfl hs)
    | with_reducible refine idle_only ?_
    | split
    | (with_reducible refine Only.foldl _ (fun _ _ _ => ?_) _ _ ?_)
    | ((with_reducible apply upd_only); rotate_left; iterate 39 (first | exact Or.inr (by with_reducible rfl) | exact Or.inl (mem_of_sub hs rfl) | exact Or.inl (sub_of rfl hs) | exact Or.inr rfl | exact Or.inr ⟨rfl, rfl⟩ | exact Or.inr ⟨rfl, rfl, rfl⟩))


theorem applyServoEn_only (h : Only ps a s) (x0 x2 x3) (hs : sub [.out, .counts, .timeBases, .mte] ps = true) : Only ps a (applyServoEn x0 s x2 x3).s := by
  unfold applyServoEn
  try dsimp only
  repeat' first
    | with_reducible assumption
    | with_reducible refine State.modTb_only ?_ _ _ (sub_of rfl hs)
    | with_reducible refine State.servoDelta_only ?_ _ (sub_of rfl hs)
    | split
    | (with_reducible refine Only.foldl _ (fun _ _ _ => ?_) _ _ ?_)
    | ((with_reducible apply upd_only); rotate_left; iterate 39 (first | exact Or.inr (by with_reducible rfl) | exact Or.inl (mem_of_sub hs rfl) | exact Or.inl (sub_of rfl hs) | exact Or.inr rfl | exact Or.inr ⟨rfl, rfl⟩ | exact Or.inr ⟨rfl, rfl, rfl⟩))


theorem execTbservoEnable_only (h : Only ps a s) (x0) (hs : sub [.out, .irq, .counts, .evrQueue, .timeBases, .cur, .mte] ps = true) : OnlyR ps a (execTbservoEnable x0 s) := by
  unfold execTbservoEnable
  try dsimp only
  repeat' first
    | with_reducible assumption
    | ((with_reducible refine State.issue_only ?_ _ _ _ _ (fun _ _ _ _ => ?_) (sub_of rfl hs)); rotate_left)
    | ((with_reducible refine State.doNow_only ?_ _ _ _ _ (fun _ _ _ _ => ?_) (sub_of rfl hs)); rotate_left)
    | with_reducible refine applyServoEn_only ?_ _ _ _ (sub_of rfl hs)
    | with_reducible refine finish_only ?_ (sub_of rfl hs)
    | with_reducible refine idle_only ?_
    | split
    | (with_reducible refine Only.foldl _ (fun _ _ _ => ?_) _ _ ?_)
    | ((with_reducible apply upd_only); rotate_left; iterate 39 (first | exact Or.inr (by with_reducible rfl) | exact Or.inl (mem_of_sub hs rfl) | exact Or.inl (sub_of rfl hs) | exact Or.inr rfl | exact Or.inr ⟨rfl, rfl⟩ | exact Or.inr ⟨rfl, rfl, rfl⟩))


theorem execTbservoDisable_only (h : Only ps a s) (x0) (hs : sub [.out, .irq, .counts, .evrQueue, .timeBases, .cur, .mte] ps = true) : OnlyR ps a (execTbservoDisable x0 s) := by
  unfold execTbservoDisable
  try dsimp only
  repeat' first
    | with_reducible assumption
    | ((with_reducible refine State.issue_only ?_ _ _ _ _ (fun _ _ _ _ => ?_) (sub_of rfl hs)); rotate_left)
    | ((with_reducible refine State.doNow_only ?_ _ _ _ _ (fun _ _ _ _ => ?_) (sub_of rfl hs)); rotate_left)
    | with_reducible refine applyServoEn_only ?_ _ _ _ (sub_of rfl hs)
    | with_reducible refine finish_only ?_ (sub_of rfl hs)
    | with_reducible refine idle_only ?_
    | split
    | (with_reducible refine Only.foldl _ (fun _ _ _ => ?_) _ _ ?_)
    | ((with_reducible apply upd_only); rotate_left; iterate 39 (first | exact Or.inr (by with_reducible rfl) | exact Or.inl (mem_of_sub hs rfl) | exact Or.inl (sub_of rfl hs) | exact Or.inr rfl | exact Or.inr ⟨rfl, rfl⟩ | exact Or.inr ⟨rfl, rfl, rfl⟩))


theorem execServoInterval_only (h : Only ps a s) (x0) (hs : sub [.out, .status, .irq, .counts, .evrQueue, .timeBases, .tim, .ports, .cur] ps = true) : OnlyR ps a (execServoInterval x0 s) := by
  unfold execServoInterval
  try dsimp only
  repeat' first
    | with_reducible assumption
    | with_reducible refine idle_only ?_  (sub_of rfl hs)
    | with_reducible refine finish_only ?_  (sub_of rfl hs)
    | with_reducible refine State.hwOffset_only ?_ _ _ (sub_of rfl hs)
    | with_reducible refine finish_only ?_ (sub_of rfl hs)
    | with_reducible refine idle_only ?_
    | split
    | (with_reducible refine Only.foldl _ (fun _ _ _ => ?_) _ _ ?_)
    | ((with_reducible apply upd_only); rotate_left; iterate 39 (first | exact Or.inr (by with_reducible rfl) | exact Or.inl (mem_of_sub hs rfl) | exact Or.inl (sub_of rfl hs) | exact Or.inr rfl | exact Or.inr ⟨rfl, rfl⟩ | exact Or.inr ⟨rfl, rfl, rfl⟩))


theorem State.tick_only (h : Only ps a s) (hs : sub [.clock, .timeBases, .tmp] ps = true) : Only ps a (State.tick s) := by
  unfold State.tick
  try dsimp only
  repeat' first
    | with_reducible assumption
    | split
    | (with_reducible refine Only.foldl _ (fun _ _ _ => ?_) _ _ ?_)
    | ((with_reducible apply upd_only); rotate_left; iterate 39 (first | exact Or.inr (by with_reducible rfl) | exact Or.inl (mem_of_sub hs rfl) | exact Or.inl (sub_of rfl hs) | exact Or.inr rfl | exact Or.inr ⟨rfl, rfl⟩ | exact Or.inr ⟨rfl, rfl, rfl⟩))


theorem execTbRunSet_only (h : Only ps a s) (x0) (hs : sub [.out, .status, .irq, .counts, .evrQueue] ps = true) : OnlyR ps a (execTbRunSet x0 s) := by
  unfold execTbRunSet
  try dsimp only
  repeat' first
    | with_reducible assumption
    | with_reducible refine State.setBit_only ?_ _ _ _ (Or.inr (by first | rfl | (simp; done) | decide)) (Or.inl (mem_of_sub hs rfl))
    | with_reducible refine idle_only ?_  (sub_of rfl hs)
    | with_reducible refine finish_only ?_  (sub_of rfl hs)
    | with_reducible refine finish_only ?_ (sub_of rfl hs)
    | with_reducible refine idle_only ?_
    | split
    | (with_reducible refine Only.foldl _ (fun _ _ _ => ?_) _ _ ?_)
    | ((with_reducible apply upd_only); rotate_left; iterate 39 (first | exact Or.inr (by with_reducible rfl) | exact Or.inl (mem_of_sub hs rfl) | exact Or.inl (sub_of rfl hs) | exact Or.inr rfl | exact Or.inr ⟨rfl, rfl⟩ | exact Or.inr ⟨rfl, rfl, rfl⟩))


theorem State.latchWords_only (h : Only ps a s) (x1 x2) (hs : sub [.host] ps = true) : Only ps a (State.latchWords s x1 x2) := by
  fun_induction State.latchWords s x1 x2 <;> try dsimp only
  repeat' first
    | with_reducible assumption
    | ((with_reducible refine State.modHst_only ?_ _ ?_ ?_); rotate_left; (first | exact Or.inl (mem_of_sub hs rfl) | exact Or.inr (fun _ => rfl)); (first | exact Or.inl (mem_of_sub hs rfl) | exact Or.inr (fun _ => rfl) | exact Or.inr (fun _ => ⟨rfl, rfl⟩) | exact Or.inr (fun _ => ⟨rfl, rfl, rfl⟩)))
    | with_reducible apply_assumption -exfalso -symm
    | split
    | (with_reducible refine Only.foldl _ (fun _ _ _ => ?_) _ _ ?_)
    | ((with_reducible apply upd_only); rotate_left; iterate 39 (first | exact Or.inr (by with_reducible rfl) | exact Or.inl (mem_of_sub hs rfl) | exact Or.inl (sub_of rfl hs) | exact Or.inr rfl | exact Or.inr ⟨rfl, rfl⟩ | exact Or.inr ⟨rfl, rfl, rfl⟩))


theorem execTbRead_only (h : Only ps a s) (x0) (hs : sub [.out, .irq, .host, .counts, .evrQueue] ps = true) : OnlyR ps a (execTbRead x0 s) := by
  unfold execTbRead
  try dsimp only
  repeat' first
    | with_reducible assumption
    | with_reducible refine idle_only ?_  (sub_of rfl hs)
    | with_reducible refine State.emit_only ?_ _ (sub_of rfl hs)
    | with_reducible refine finish_only ?_  (sub_of rfl hs)
    | with_reducible refine State.latchWords_only ?_ _ _ (sub_of rfl hs)
    | with_reducible refine finish_only ?_ (sub_of rfl hs)
    | with_reducible refine idle_only ?_
    | split
    | (with_reducible refine Only.foldl _ (fun _ _ _ => ?_) _ _ ?_)
    | ((with_reducible apply upd_only); rotate_left; iterate 39 (first | exact Or.inr (by with_reducible rfl) | exact Or.inl (mem_of_sub hs rfl) | exact Or.inl (sub_of rfl hs) | exact Or.inr rfl | exact Or.inr ⟨rfl, rfl⟩ | exact Or.inr ⟨rfl, rfl, rfl⟩))


theorem State.modTrig_only (h : Only ps a s) (x1 x2) (hs : sub [.tim] ps = true) : Only ps a (State.modTrig s x1 x2) := by
  unfold State.modTrig
  try dsimp only
  repeat' first
    | with_reducible assumption
    | ((with_reducible refine State.modTim_only ?_ _ ?_ ?_); rotate_left; (first | exact Or.inl (mem_of_sub hs rfl) | exact Or.inr (fun _ => rfl)); (first | exact Or.inl (mem_of_sub hs rfl) | exact Or.inr (fun _ => rfl) | exact Or.inr (fun _ => ⟨rfl, rfl⟩) | exact Or.inr (fun _ => ⟨rfl, rfl, rfl⟩)))
    | split
    | (with_reducible refine Only.foldl _ (fun _ _ _ => ?_) _ _ ?_)
    | ((with_reducible apply upd_only); rotate_left; iterate 39 (first | exact Or.inr (by with_reducible rfl) | exact Or.inl (mem_of_sub hs rfl) | exact Or.inl (sub_of rfl hs) | exact Or.inr rfl | exact Or.inr ⟨rfl, rfl⟩ | exact Or.inr ⟨rfl, rfl, rfl⟩))


theorem State.trigPut_only (h : Only ps a s) (x1) (hs : sub [.status, .tim] ps = true) : Only ps a (State.trigPut s x1) := by
  unfold State.trigPut
  try dsimp only
  repeat' first
    | with_reducible assumption
    | with_reducible refine State.setBit_only ?_ _ _ _ (Or.inr (by first | rfl | (simp; done) | decide)) (Or.inl (mem_of_sub hs rfl))
    | with_reducible refine State.modTrig_only ?_ _ _ (sub_of rfl hs)
    | split
    | (with_reducible refine Only.foldl _ (fun _ _ _ => ?_) _ _ ?_)
    | ((with_reducible apply upd_only); rotate_left; iterate 39 (first | exact Or.inr (by with_reducible rfl) | exact Or.inl (mem_of_sub hs rfl) | exact Or.inl (sub_of rfl hs) | exact Or.inr rfl | exact Or.inr ⟨rfl, rfl⟩ | exact Or.inr ⟨rfl, rfl, rfl⟩))


theorem State.trigDelta_only (h : Only ps a s) (x1) (hs : sub [.out, .status, .counts, .tim, .mte] ps = true) : Only ps a (State.trigDelta s x1).1 := by
  unfold State.trigDelta
  try dsimp only
  repeat' first
    | with_reducible assumption
    | with_reducible refine State.delta_only ?_ _ _ (sub_of rfl hs)
    | with_reducible refine State.delta_only_of (by assumption) ?_ (sub_of rfl hs)
    | with_reducible refine State.trigPut_only ?_ _ (sub_of rfl hs)
    | split
    | (with_reducible refine Only.foldl _ (fun _ _ _ => ?_) _ _ ?_)
    | ((with_reducible apply upd_only); rotate_left; iterate 39 (first | exact Or.inr (by with_reducible rfl) | exact Or.inl (mem_of_sub hs rfl) | exact Or.inl (sub_of rfl hs) | exact Or.inr rfl | exact Or.inr ⟨rfl, rfl⟩ | exact Or.inr ⟨rfl, rfl, rfl⟩))

theorem State.trigDelta_only_of {t : State} {x1} {r} (e : State.trigDelta s x1 = (t, r)) (h : Only ps a s) (hs : sub [.out, .status, .counts, .tim, .mte] ps = true) : Only ps a t := by
  have := State.trigDelta_only h x1 hs
  rw [e] at this
  exact this


theorem applyTrigset_only (h : Only ps a s) (x1 x2) (hs : sub [.out, .status, .counts, .tim, .mte] ps = true) : Only ps a (applyTrigset s x1 x2).s := by
  unfold applyTrigset
  try dsimp only
  repeat' first
    | with_reducible assumption
    | with_reducible refine State.trigDelta_only ?_ _ (sub_of rfl hs)
    | with_reducible refine State.trigDelta_only_of (by assumption) ?_ (sub_of rfl hs)
    | split
    | (with_reducible refine Only.foldl _ (fun _ _ _ => ?_) _ _ ?_)
    | ((with_reducible apply upd_only); rotate_left; iterate 39 (first | exact Or.inr (by with_reducible rfl) | exact Or.inl (mem_of_sub hs rfl) | exact Or.inl (sub_of rfl hs) | exact Or.inr rfl | exact Or.inr ⟨rfl, rfl⟩ | exact Or.inr ⟨rfl, rfl, rfl⟩))


theorem execTrigset_only (h : Only ps a s) (x0) (hs : sub [.out, .status, .irq, .counts, .evrQueue, .tim, .cur, .mte] ps = true) : OnlyR ps a (execTrigset x0 s) := by
  unfold execTrigset
  try dsimp only
  repeat' first
    | with_reducible assumption
    | ((with_reducible refine State.doNow_only ?_ _ _ _ _ (fun _ _ _ _ => ?_) (sub_of rfl hs)); rotate_left)
    | ((with_reducible refine State.issue_only ?_ _ _ _ _ (fun _ _ _ _ => ?_) (sub_of rfl hs)); rotate_left)
    | with_reducible refine applyTrigset_only ?_ _ _ (sub_of rfl hs)
    | with_reducible refine finish_only ?_ (sub_of rfl hs)
    | with_reducible refine idle_only ?_
    | split
    | (with_reducible refine Only.foldl _ (fun _ _ _ => ?_) _ _ ?_)
    | ((with_reducible apply upd_only); rotate_left; iterate 39 (first | exact Or.inr (by with_reducible rfl) | exact Or.inl (mem_of_sub hs rfl) | exact Or.inl (sub_of rfl hs) | exact Or.inr rfl | exact Or.inr ⟨rfl, rfl⟩ | exact Or.inr ⟨rfl, rfl, rfl⟩))


theorem State.drivePin_only (h : Only ps a s) (x1 x2) (hs : sub [.out, .pads] ps = true) : Only ps a (State.drivePin s x1 x2) := by
  unfold State.drivePin
  try dsimp only
  repeat' first
    | with_reducible assumption
    | with_reducible refine State.emit_only ?_ _ (sub_of rfl hs)
    | with_reducible refine State.modPads_only ?_ _ (sub_of rfl hs)
    | split
    | (with_reducible refine Only.foldl _ (fun _ _ _ => ?_) _ _ ?_)
    | ((with_reducible apply upd_only); rotate_left; iterate 39 (first | exact Or.inr (by with_reducible rfl) | exact Or.inl (mem_of_sub hs rfl) | exact Or.inl (sub_of rfl hs) | exact Or.inr rfl | exact Or.inr ⟨rfl, rfl⟩ | exact Or.inr ⟨rfl, rfl, rfl⟩))


theorem execTriggerEdge_only (h : Only ps a s) (x0) (hs : sub [.out, .irq, .pads, .counts, .evrQueue, .tim] ps = true) : OnlyR ps a (execTriggerEdge x0 s) := by
  unfold execTriggerEdge
  try dsimp only
  repeat' first
    | with_reducible assumption
    | with_reducible refine idle_only ?_  (sub_of rfl hs)
    | with_reducible refine finish_only ?_  (sub_of rfl hs)
    | with_reducible refine State.modTrig_only ?_ _ _ (sub_of rfl hs)
    | with_reducible refine State.drivePin_only ?_ _ _ (sub_of rfl hs)
    | with_reducible refine finish_only ?_ (sub_of rfl hs)
    | with_reducible refine idle_only ?_
    | split
    | (with_reducible refine Only.foldl _ (fun _ _ _ => ?_) _ _ ?_)
    | ((with_reducible apply upd_only); rotate_left; iterate 39 (first | exact Or.inr (by with_reducible rfl) | exact Or.inl (mem_of_sub hs rfl) | exact Or.inl (sub_of rfl hs) | exact Or.inr rfl | exact Or.inr ⟨rfl, rfl⟩ | exact Or.inr ⟨rfl, rfl, rfl⟩))


theorem execPpsEdge_only (h : Only ps a s) (hs : sub [.out, .irq, .pads, .counts, .evrQueue, .tim] ps = true) : OnlyR ps a (execPpsEdge s) := by
  unfold execPpsEdge
  try dsimp only
  repeat' first
    | with_reducible assumption
    | ((with_reducible refine State.modTim_only ?_ _ ?_ ?_); rotate_left; (first | exact Or.inl (mem_of_sub hs rfl) | exact Or.inr (fun _ => rfl)); (first | exact Or.inl (mem_of_sub hs rfl) | exact Or.inr (fun _ => rfl) | exact Or.inr (fun _ => ⟨rfl, rfl⟩) | exact Or.inr (fun _ => ⟨rfl, rfl, rfl⟩)))
    | with_reducible refine idle_only ?_  (sub_of rfl hs)
    | with_reducible refine finish_only ?_  (sub_of rfl hs)
    | with_reducible refine State.drivePin_only ?_ _ _ (sub_of rfl hs)
    | with_reducible refine finish_only ?_ (sub_of rfl hs)
    | with_reducible refine idle_only ?_
    | split
    | (with_reducible refine Only.foldl _ (fun _ _ _ => ?_) _ _ ?_)
    | ((with_reducible apply upd_only); rotate_left; iterate 39 (first | exact Or.inr (by with_reducible rfl) | exact Or.inl (mem_of_sub hs rfl) | exact Or.inl (sub_of rfl hs) | exact Or.inr rfl | exact Or.inr ⟨rfl, rfl⟩ | exact Or.inr ⟨rfl, rfl, rfl⟩))


theorem State.modQueue_only (h : Only ps a s) (x1 x2) (hs : sub [.tim] ps = true) : Only ps a (State.modQueue s x1 x2) := by
  unfold State.modQueue
  try dsimp only
  repeat' first
    | with_reducible assumption
    | ((with_reducible refine State.modTim_only ?_ _ ?_ ?_); rotate_left; (first | exact Or.inl (mem_of_sub hs rfl) | exact Or.inr (fun _ => rfl)); (first | exact Or.inl (mem_of_sub hs rfl) | exact Or.inr (fun _ => rfl) | exact Or.inr (fun _ => ⟨rfl, rfl⟩) | exact Or.inr (fun _ => ⟨rfl, rfl, rfl⟩)))
    | split
    | (with_reducible refine Only.foldl _ (fun _ _ _ => ?_) _ _ ?_)
    | ((with_reducible apply upd_only); rotate_left; iterate 39 (first | exact Or.inr (by with_reducible rfl) | exact Or.inl (mem_of_sub hs rfl) | exact Or.inl (sub_of rfl hs) | exact Or.inr rfl | exact Or.inr ⟨rfl, rfl⟩ | exact Or.inr ⟨rfl, rfl, rfl⟩))


theorem State.pushStamp_only (h : Only ps a s) (x1 x2) (hs : sub [.counts, .tim] ps = true) : Only ps a (State.pushStamp s x1 x2) := by
  unfold State.pushStamp
  try dsimp only
  repeat' first
    | with_reducible assumption
    | with_reducible refine State.countDev_only ?_ _ _ _ _ (sub_of rfl hs)
    | with_reducible refine State.modQueue_only ?_ _ _ (sub_of rfl hs)
    | split
    | (with_reducible refine Only.foldl _ (fun _ _ _ => ?_) _ _ ?_)
    | ((with_reducible apply upd_only); rotate_left; iterate 39 (first | exact Or.inr (by with_reducible rfl) | exact Or.inl (mem_of_sub hs rfl) | exact Or.inl (sub_of rfl hs) | exact Or.inr rfl | exact Or.inr ⟨rfl, rfl⟩ | exact Or.inr ⟨rfl, rfl, rfl⟩))


theorem State.captureOffsets_only (h : Only ps a s) (x1 x2 x3) (hs : sub [.status, .counts, .evrQueue, .timeBases, .tim, .ports, .cur] ps = true) : Only ps a (State.captureOffsets s x1 x2 x3) := by
  fun_induction State.captureOffsets s x1 x2 x3 <;> try dsimp only
  repeat' first
    | with_reducible assumption
    | with_reducible refine State.hwOffset_only ?_ _ _ (sub_of rfl hs)
    | with_reducible apply_assumption -exfalso -symm
    | split
    | (with_reducible refine Only.foldl _ (fun _ _ _ => ?_) _ _ ?_)
    | ((with_reducible apply upd_only); rotate_left; iterate 39 (first | exact Or.inr (by with_reducible rfl) | exact Or.inl (mem_of_sub hs rfl) | exact Or.inl (sub_of rfl hs) | exact Or.inr rfl | exact Or.inr ⟨rfl, rfl⟩ | exact Or.inr ⟨rfl, rfl, rfl⟩))


theorem execCaptureEdge_only (h : Only ps a s) (x0 x1) (hs : sub [.out, .status, .irq, .counts, .evrQueue, .timeBases, .tim, .ports, .cur] ps = true) : OnlyR ps a (execCaptureEdge x0 x1 s) := by
  unfold execCaptureEdge
  try dsimp only
  repeat' first
    | with_reducible assumption
    | with_reducible refine idle_only ?_  (sub_of rfl hs)
    | with_reducible refine finish_only ?_  (sub_of rfl hs)
    | with_reducible refine State.pushStamp_only ?_ _ _ (sub_of rfl hs)
    | with_reducible refine State.captureOffsets_only ?_ _ _ _ (sub_of rfl hs)
    | with_reducible refine finish_only ?_ (sub_of rfl hs)
    | with_reducible refine idle_only ?_
    | split
    | (with_reducible refine Only.foldl _ (fun _ _ _ => ?_) _ _ ?_)
    | ((with_reducible apply upd_only); rotate_left; iterate 39 (first | exact Or.inr (by with_reducible rfl) | exact Or.inl (mem_of_sub hs rfl) | exact Or.inl (sub_of rfl hs) | exact Or.inr rfl | exact Or.inr ⟨rfl, rfl⟩ | exact Or.inr ⟨rfl, rfl, rfl⟩))


theorem State.takeStamp_only (h : Only ps a s) (x1 x2) (hs : sub [.host, .tim] ps = true) : Only ps a (State.takeStamp s x1 x2).2 := by
  unfold State.takeStamp
  try dsimp only
  repeat' first
    | with_reducible assumption
    | with_reducible refine State.latchWords_only ?_ _ _ (sub_of rfl hs)
    | with_reducible refine State.modQueue_only ?_ _ _ (sub_of rfl hs)
    | split
    | (with_reducible refine Only.foldl _ (fun _ _ _ => ?_) _ _ ?_)
    | ((with_reducible apply upd_only); rotate_left; iterate 39 (first | exact Or.inr (by with_reducible rfl) | exact Or.inl (mem_of_sub hs rfl) | exact Or.inl (sub_of rfl hs) | exact Or.inr rfl | exact Or.inr ⟨rfl, rfl⟩ | exact Or.inr ⟨rfl, rfl, rfl⟩))

theorem State.takeStamp_only_of {t : State} {x1 x2} {r} (e : State.takeStamp s x1 x2 = (r, t)) (h : Only ps a s) (hs : sub [.host, .tim] ps = true) : Only ps a t := by
  have := State.takeStamp_only h x1 x2 hs
  rw [e] at this
  exact this


theorem execStampQueueRead_only (h : Only ps a s) (x0) (hs : sub [.out, .irq, .host, .counts, .evrQueue, .tim] ps = true) : OnlyR ps a (execStampQueueRead x0 s) := by
  unfold execStampQueueRead
  try dsimp only
  repeat' first
    | with_reducible assumption
    | with_reducible refine idle_only ?_  (sub_of rfl hs)
    | with_reducible refine State.emit_only ?_ _ (sub_of rfl hs)
    | with_reducible refine finish_only ?_  (sub_of rfl hs)
    | with_reducible refine State.takeStamp_only ?_ _ _ (sub_of rfl hs)
    | with_reducible refine State.takeStamp_only_of (by assumption) ?_ (sub_of rfl hs)
    | with_reducible refine finish_only ?_ (sub_of rfl hs)
    | with_reducible refine idle_only ?_
    | split
    | (with_reducible refine Only.foldl _ (fun _ _ _ => ?_) _ _ ?_)
    | ((with_reducible apply upd_only); rotate_left; iterate 39 (first | exact Or.inr (by with_reducible rfl) | exact Or.inl (mem_of_sub hs rfl) | exact Or.inl (sub_of rfl hs) | exact Or.inr rfl | exact Or.inr ⟨rfl, rfl⟩ | exact Or.inr ⟨rfl, rfl, rfl⟩))


theorem State.setTcTable_only (h : Only ps a s) (x1 x2) (hs : sub [.tim] ps = true) : Only ps a (State.setTcTable s x1 x2) := by
  unfold State.setTcTable
  try dsimp only
  repeat' first
    | with_reducible assumption
    | ((with_reducible refine State.modTim_only ?_ _ ?_ ?_); rotate_left; (first | exact Or.inl (mem_of_sub hs rfl) | exact Or.inr (fun _ => rfl)); (first | exact Or.inl (mem_of_sub hs rfl) | exact Or.inr (fun _ => rfl) | exact Or.inr (fun _ => ⟨rfl, rfl⟩) | exact Or.inr (fun _ => ⟨rfl, rfl, rfl⟩)))
    | split
    | (with_reducible refine Only.foldl _ (fun _ _ _ => ?_) _ _ ?_)
    | ((with_reducible apply upd_only); rotate_left; iterate 39 (first | exact Or.inr (by with_reducible rfl) | exact Or.inl (mem_of_sub hs rfl) | exact Or.inl (sub_of rfl hs) | exact Or.inr rfl | exact Or.inr ⟨rfl, rfl⟩ | exact Or.inr ⟨rfl, rfl, rfl⟩))


theorem execTcEntryExpire_only (h : Only ps a s) (x0 x1) (hs : sub [.out, .irq, .counts, .evrQueue, .tim] ps = true) : OnlyR ps a (execTcEntryExpire x0 x1 s) := by
  unfold execTcEntryExpire
  try dsimp only
  repeat' first
    | with_reducible assumption
    | with_reducible refine idle_only ?_  (sub_of rfl hs)
    | with_reducible refine finish_only ?_  (sub_of rfl hs)
    | with_reducible refine State.setTcTable_only ?_ _ _ (sub_of rfl hs)
    | with_reducible refine finish_only ?_ (sub_of rfl hs)
    | with_reducible refine idle_only ?_
    | split
    | (with_reducible refine Only.foldl _ (fun _ _ _ => ?_) _ _ ?_)
    | ((with_reducible apply upd_only); rotate_left; iterate 39 (first | exact Or.inr (by with_reducible rfl) | exact Or.inl (mem_of_sub hs rfl) | exact Or.inl (sub_of rfl hs) | exact Or.inr rfl | exact Or.inr ⟨rfl, rfl⟩ | exact Or.inr ⟨rfl, rfl, rfl⟩))


theorem State.lineRtt_only (h : Only ps a s) (x1 x2) (hs : sub [.counts, .tim] ps = true) : Only ps a (State.lineRtt s x1 x2) := by
  unfold State.lineRtt
  try dsimp only
  repeat' first
    | with_reducible assumption
    | ((with_reducible refine State.modTim_only ?_ _ ?_ ?_); rotate_left; (first | exact Or.inl (mem_of_sub hs rfl) | exact Or.inr (fun _ => rfl)); (first | exact Or.inl (mem_of_sub hs rfl) | exact Or.inr (fun _ => rfl) | exact Or.inr (fun _ => ⟨rfl, rfl⟩) | exact Or.inr (fun _ => ⟨rfl, rfl, rfl⟩)))
    | with_reducible refine State.countDev_only ?_ _ _ _ _ (sub_of rfl hs)
    | split
    | (with_reducible refine Only.foldl _ (fun _ _ _ => ?_) _ _ ?_)
    | ((with_reducible apply upd_only); rotate_left; iterate 39 (first | exact Or.inr (by with_reducible rfl) | exact Or.inl (mem_of_sub hs rfl) | exact Or.inl (sub_of rfl hs) | exact Or.inr rfl | exact Or.inr ⟨rfl, rfl⟩ | exact Or.inr ⟨rfl, rfl, rfl⟩))


theorem State.lineDelayLost_only (h : Only ps a s) (x1) (hs : sub [.tim] ps = true) : Only ps a (State.lineDelayLost s x1) := by
  unfold State.lineDelayLost
  try dsimp only
  repeat' first
    | with_reducible assumption
    | ((with_reducible refine State.modTim_only ?_ _ ?_ ?_); rotate_left; (first | exact Or.inl (mem_of_sub hs rfl) | exact Or.inr (fun _ => rfl)); (first | exact Or.inl (mem_of_sub hs rfl) | exact Or.inr (fun _ => rfl) | exact Or.inr (fun _ => ⟨rfl, rfl⟩) | exact Or.inr (fun _ => ⟨rfl, rfl, rfl⟩)))
    | split
    | (with_reducible refine Only.foldl _ (fun _ _ _ => ?_) _ _ ?_)
    | ((with_reducible apply upd_only); rotate_left; iterate 39 (first | exact Or.inr (by with_reducible rfl) | exact Or.inl (mem_of_sub hs rfl) | exact Or.inl (sub_of rfl hs) | exact Or.inr rfl | exact Or.inr ⟨rfl, rfl⟩ | exact Or.inr ⟨rfl, rfl, rfl⟩))


end Sys2Proof.Machine
end

