-- ==== Sys2Proof/Laws/OnlyRecords.lean ====
section
/-! SUPPORT. What each operation of Machine/Records.lean may change. -/

set_option linter.unusedTactic false
set_option linter.unreachableTactic false
set_option linter.unusedVariables false
set_option linter.unusedSimpArgs false

namespace Sys2Proof.Machine

variable {ps : List Area} {a s : State}

theorem execPmcClear_only (h : Only ps a s) (x0) (hs : sub [.out, .irq, .counts, .gather, .evrQueue] ps = true) : OnlyR ps a (execPmcClear x0 s) := by
  unfold execPmcClear
  try dsimp only
  repeat' first
    | with_reducible assumption
    | with_reducible refine finish_only ?_  (sub_of rfl hs)
    | with_reducible refine idle_only ?_  (sub_of rfl hs)
    | ((with_reducible refine State.modPmc_only ?_ _ ?_ ?_); rotate_left; (first | exact Or.inl (mem_of_sub hs rfl) | exact Or.inr (fun _ => rfl)); (first | exact Or.inl (mem_of_sub hs rfl) | exact Or.inr (fun _ => rfl) | exact Or.inr (fun _ => ⟨rfl, rfl⟩) | exact Or.inr (fun _ => ⟨rfl, rfl, rfl⟩)))
    | with_reducible refine finish_only ?_ (sub_of rfl hs)
    | with_reducible refine idle_only ?_
    | split
    | (with_reducible refine Only.foldl _ (fun _ _ _ => ?_) _ _ ?_)
    | ((with_reducible apply upd_only); rotate_left; iterate 39 (first | exact Or.inr (by with_reducible rfl) | exact Or.inl (mem_of_sub hs rfl) | exact Or.inl (sub_of rfl hs) | exact Or.inr rfl | exact Or.inr ⟨rfl, rfl⟩ | exact Or.inr ⟨rfl, rfl, rfl⟩))


theorem execPmcGather_only (h : Only ps a s) (hs : sub [.out, .irq, .counts, .gather, .evrQueue] ps = true) : OnlyR ps a (execPmcGather s) := by
  unfold execPmcGather
  try dsimp only
  repeat' first
    | with_reducible assumption
    | with_reducible refine finish_only ?_  (sub_of rfl hs)
    | with_reducible refine idle_only ?_  (sub_of rfl hs)
    | ((with_reducible refine State.modPmc_only ?_ _ ?_ ?_); rotate_left; (first | exact Or.inl (mem_of_sub hs rfl) | exact Or.inr (fun _ => rfl)); (first | exact Or.inl (mem_of_sub hs rfl) | exact Or.inr (fun _ => rfl) | exact Or.inr (fun _ => ⟨rfl, rfl⟩) | exact Or.inr (fun _ => ⟨rfl, rfl, rfl⟩)))
    | with_reducible refine finish_only ?_ (sub_of rfl hs)
    | with_reducible refine idle_only ?_
    | split
    | (with_reducible refine Only.foldl _ (fun _ _ _ => ?_) _ _ ?_)
    | ((with_reducible apply upd_only); rotate_left; iterate 39 (first | exact Or.inr (by with_reducible rfl) | exact Or.inl (mem_of_sub hs rfl) | exact Or.inl (sub_of rfl hs) | exact Or.inr rfl | exact Or.inr ⟨rfl, rfl⟩ | exact Or.inr ⟨rfl, rfl, rfl⟩))


theorem execGatherDone_only (h : Only ps a s) (hs : sub [.out, .irq, .counts, .gather, .evrQueue] ps = true) : OnlyR ps a (execGatherDone s) := by
  unfold execGatherDone
  try dsimp only
  repeat' first
    | with_reducible assumption
    | with_reducible refine finish_only ?_  (sub_of rfl hs)
    | with_reducible refine State.fixDev_only ?_ _ _ (sub_of rfl hs)
    | with_reducible refine idle_only ?_  (sub_of rfl hs)
    | ((with_reducible refine State.modPmc_only ?_ _ ?_ ?_); rotate_left; (first | exact Or.inl (mem_of_sub hs rfl) | exact Or.inr (fun _ => rfl)); (first | exact Or.inl (mem_of_sub hs rfl) | exact Or.inr (fun _ => rfl) | exact Or.inr (fun _ => ⟨rfl, rfl⟩) | exact Or.inr (fun _ => ⟨rfl, rfl, rfl⟩)))
    | with_reducible refine finish_only ?_ (sub_of rfl hs)
    | with_reducible refine idle_only ?_
    | split
    | (with_reducible refine Only.foldl _ (fun _ _ _ => ?_) _ _ ?_)
    | ((with_reducible apply upd_only); rotate_left; iterate 39 (first | exact Or.inr (by with_reducible rfl) | exact Or.inl (mem_of_sub hs rfl) | exact Or.inl (sub_of rfl hs) | exact Or.inr rfl | exact Or.inr ⟨rfl, rfl⟩ | exact Or.inr ⟨rfl, rfl, rfl⟩))


theorem execPeriodicGather_only (h : Only ps a s) (hs : sub [.out, .irq, .counts, .gather, .evrQueue] ps = true) : OnlyR ps a (execPeriodicGather s) := by
  unfold execPeriodicGather
  try dsimp only
  repeat' first
    | with_reducible assumption
    | with_reducible refine State.happen_only ?_ _ _ _ _ _ (sub_of rfl hs)
    | with_reducible refine finish_only ?_  (sub_of rfl hs)
    | with_reducible refine idle_only ?_  (sub_of rfl hs)
    | with_reducible refine finish_only ?_ (sub_of rfl hs)
    | with_reducible refine idle_only ?_
    | split
    | (with_reducible refine Only.foldl _ (fun _ _ _ => ?_) _ _ ?_)
    | ((with_reducible apply upd_only); rotate_left; iterate 39 (first | exact Or.inr (by with_reducible rfl) | exact Or.inl (mem_of_sub hs rfl) | exact Or.inl (sub_of rfl hs) | exact Or.inr rfl | exact Or.inr ⟨rfl, rfl⟩ | exact Or.inr ⟨rfl, rfl, rfl⟩))


theorem execEvrArm_only (h : Only ps a s) (hs : sub [.out, .irq, .counts, .evrQueue, .records] ps = true) : OnlyR ps a (execEvrArm s) := by
  unfold execEvrArm
  try dsimp only
  repeat' first
    | with_reducible assumption
    | with_reducible refine finish_only ?_  (sub_of rfl hs)
    | with_reducible refine idle_only ?_  (sub_of rfl hs)
    | ((with_reducible refine State.modEvr_only ?_ _ ?_ ?_); rotate_left; (first | exact Or.inl (mem_of_sub hs rfl) | exact Or.inr (fun _ => rfl)); (first | exact Or.inl (mem_of_sub hs rfl) | exact Or.inr (fun _ => rfl) | exact Or.inr (fun _ => ⟨rfl, rfl⟩) | exact Or.inr (fun _ => ⟨rfl, rfl, rfl⟩)))
    | with_reducible refine finish_only ?_ (sub_of rfl hs)
    | with_reducible refine idle_only ?_
    | split
    | (with_reducible refine Only.foldl _ (fun _ _ _ => ?_) _ _ ?_)
    | ((with_reducible apply upd_only); rotate_left; iterate 39 (first | exact Or.inr (by with_reducible rfl) | exact Or.inl (mem_of_sub hs rfl) | exact Or.inl (sub_of rfl hs) | exact Or.inr rfl | exact Or.inr ⟨rfl, rfl⟩ | exact Or.inr ⟨rfl, rfl, rfl⟩))


theorem State.reportLost_only (h : Only ps a s) (hs : sub [.counts, .evrQueue] ps = true) : Only ps a (State.reportLost s) := by
  unfold State.reportLost
  try dsimp only
  repeat' first
    | with_reducible assumption
    | with_reducible refine State.happen_only ?_ _ _ _ _ _ (sub_of rfl hs)
    | ((with_reducible refine State.modEvr_only ?_ _ ?_ ?_); rotate_left; (first | exact Or.inl (mem_of_sub hs rfl) | exact Or.inr (fun _ => rfl)); (first | exact Or.inl (mem_of_sub hs rfl) | exact Or.inr (fun _ => rfl) | exact Or.inr (fun _ => ⟨rfl, rfl⟩) | exact Or.inr (fun _ => ⟨rfl, rfl, rfl⟩)))
    | split
    | (with_reducible refine Only.foldl _ (fun _ _ _ => ?_) _ _ ?_)
    | ((with_reducible apply upd_only); rotate_left; iterate 39 (first | exact Or.inr (by with_reducible rfl) | exact Or.inl (mem_of_sub hs rfl) | exact Or.inl (sub_of rfl hs) | exact Or.inr rfl | exact Or.inr ⟨rfl, rfl⟩ | exact Or.inr ⟨rfl, rfl, rfl⟩))


theorem execEvrRecordWrite_only (h : Only ps a s) (hs : sub [.out, .irq, .counts, .evrQueue, .records] ps = true) : OnlyR ps a (execEvrRecordWrite s) := by
  unfold execEvrRecordWrite
  try dsimp only
  repeat' first
    | with_reducible assumption
    | with_reducible refine finish_only ?_  (sub_of rfl hs)
    | with_reducible refine State.fixDev_only ?_ _ _ (sub_of rfl hs)
    | with_reducible refine idle_only ?_  (sub_of rfl hs)
    | ((with_reducible refine State.modEvr_only ?_ _ ?_ ?_); rotate_left; (first | exact Or.inl (mem_of_sub hs rfl) | exact Or.inr (fun _ => rfl)); (first | exact Or.inl (mem_of_sub hs rfl) | exact Or.inr (fun _ => rfl) | exact Or.inr (fun _ => ⟨rfl, rfl⟩) | exact Or.inr (fun _ => ⟨rfl, rfl, rfl⟩)))
    | with_reducible refine State.reportLost_only ?_  (sub_of rfl hs)
    | with_reducible refine finish_only ?_ (sub_of rfl hs)
    | with_reducible refine idle_only ?_
    | split
    | (with_reducible refine Only.foldl _ (fun _ _ _ => ?_) _ _ ?_)
    | ((with_reducible apply upd_only); rotate_left; iterate 39 (first | exact Or.inr (by with_reducible rfl) | exact Or.inl (mem_of_sub hs rfl) | exact Or.inl (sub_of rfl hs) | exact Or.inr rfl | exact Or.inr ⟨rfl, rfl⟩ | exact Or.inr ⟨rfl, rfl, rfl⟩))


theorem execEvrSlotRead_only (h : Only ps a s) (x0 x1) (hs : sub [.out, .irq, .host, .counts, .evrQueue] ps = true) : OnlyR ps a (execEvrSlotRead x0 x1 s) := by
  unfold execEvrSlotRead
  try dsimp only
  repeat' first
    | with_reducible assumption
    | with_reducible refine State.emit_only ?_ _ (sub_of rfl hs)
    | with_reducible refine finish_only ?_  (sub_of rfl hs)
    | with_reducible refine idle_only ?_  (sub_of rfl hs)
    | with_reducible refine State.latchWords_only ?_ _ _ (sub_of rfl hs)
    | with_reducible refine finish_only ?_ (sub_of rfl hs)
    | with_reducible refine idle_only ?_
    | split
    | (with_reducible refine Only.foldl _ (fun _ _ _ => ?_) _ _ ?_)
    | ((with_reducible apply upd_only); rotate_left; iterate 39 (first | exact Or.inr (by with_reducible rfl) | exact Or.inl (mem_of_sub hs rfl) | exact Or.inl (sub_of rfl hs) | exact Or.inr rfl | exact Or.inr ⟨rfl, rfl⟩ | exact Or.inr ⟨rfl, rfl, rfl⟩))


end Sys2Proof.Machine
end

