-- ==== Sys2Proof/Laws/OnlyKeys.lean ====
section
/-! SUPPORT. What each operation of Machine/Keys.lean may change. -/

set_option linter.unusedTactic false
set_option linter.unreachableTactic false
set_option linter.unusedVariables false
set_option linter.unusedSimpArgs false

namespace Sys2Proof.Machine

variable {ps : List Area} {a s : State}

theorem State.deriveStore_only (h : Only ps a s) (x1 x2) (hs : sub [.kst] ps = true) : Only ps a (State.deriveStore s x1 x2) := by
  unfold State.deriveStore
  try dsimp only
  repeat' first
    | with_reducible assumption
    | ((with_reducible refine State.modKst_only ?_ _ ?_ ?_); rotate_left; (first | exact Or.inl (mem_of_sub hs rfl) | exact Or.inr (fun _ => rfl)); (first | exact Or.inl (mem_of_sub hs rfl) | exact Or.inr (fun _ => rfl) | exact Or.inr (fun _ => ⟨rfl, rfl⟩) | exact Or.inr (fun _ => ⟨rfl, rfl, rfl⟩)))
    | split
    | (with_reducible refine Only.foldl _ (fun _ _ _ => ?_) _ _ ?_)
    | ((with_reducible apply upd_only); rotate_left; iterate 39 (first | exact Or.inr (by with_reducible rfl) | exact Or.inl (mem_of_sub hs rfl) | exact Or.inl (sub_of rfl hs) | exact Or.inr rfl | exact Or.inr ⟨rfl, rfl⟩ | exact Or.inr ⟨rfl, rfl, rfl⟩))


theorem State.takeEpoch_only (h : Only ps a s) (x1) (hs : sub [.kst] ps = true) : Only ps a (State.takeEpoch s x1) := by
  unfold State.takeEpoch
  try dsimp only
  repeat' first
    | with_reducible assumption
    | ((with_reducible refine State.modKst_only ?_ _ ?_ ?_); rotate_left; (first | exact Or.inl (mem_of_sub hs rfl) | exact Or.inr (fun _ => rfl)); (first | exact Or.inl (mem_of_sub hs rfl) | exact Or.inr (fun _ => rfl) | exact Or.inr (fun _ => ⟨rfl, rfl⟩) | exact Or.inr (fun _ => ⟨rfl, rfl, rfl⟩)))
    | with_reducible refine State.deriveStore_only ?_ _ _ (sub_of rfl hs)
    | split
    | (with_reducible refine Only.foldl _ (fun _ _ _ => ?_) _ _ ?_)
    | ((with_reducible apply upd_only); rotate_left; iterate 39 (first | exact Or.inr (by with_reducible rfl) | exact Or.inl (mem_of_sub hs rfl) | exact Or.inl (sub_of rfl hs) | exact Or.inr rfl | exact Or.inr ⟨rfl, rfl⟩ | exact Or.inr ⟨rfl, rfl, rfl⟩))


theorem State.eraseCopyArea_only (h : Only ps a s) (hs : sub [.mtp] ps = true) : Only ps a (State.eraseCopyArea s) := by
  intro p hp
  have hn := not_mem_of_sub hs hp
  cases p
  case mtp => exact absurd hn (by decide)
  case canon =>
    intro hc
    have hw := h .canon hp hc
    unfold State.canonical at *
    simp only [Bool.and_eq_true] at *
    exact ⟨hw.1, twf_filter _ _ _ hw.2⟩
  all_goals exact h _ hp

theorem State.applyMtp_only (h : Only ps a s) (x1) (hs : sub [.mtp, .kst] ps = true) : Only ps a (State.applyMtp s x1) := by
  unfold State.applyMtp
  try dsimp only
  repeat' first
    | with_reducible assumption
    | with_reducible refine State.mtpWrite_only ?_ _ _ (sub_of rfl hs)
    | with_reducible refine State.takeEpoch_only ?_ _ (sub_of rfl hs)
    | with_reducible refine State.eraseCopyArea_only ?_  (sub_of rfl hs)
    | split
    | (with_reducible refine Only.foldl _ (fun _ _ _ => ?_) _ _ ?_)
    | ((with_reducible apply upd_only); rotate_left; iterate 39 (first | exact Or.inr (by with_reducible rfl) | exact Or.inl (mem_of_sub hs rfl) | exact Or.inl (sub_of rfl hs) | exact Or.inr rfl | exact Or.inr ⟨rfl, rfl⟩ | exact Or.inr ⟨rfl, rfl, rfl⟩))


theorem State.mtpView_only (h : Only ps a s) (hs : sub [.mtp, .kst] ps = true) : Only ps a s.mtpView := by
  unfold State.mtpView
  exact Only.foldl _ (fun _ _ h => State.applyMtp_only h _ (sub_of rfl hs)) _ _ h

theorem State.queueMtp_only (h : Only ps a s) (x1) (hs : sub [.kst] ps = true) : Only ps a (State.queueMtp s x1) := by
  unfold State.queueMtp
  try dsimp only
  repeat' first
    | with_reducible assumption
    | ((with_reducible refine State.modKst_only ?_ _ ?_ ?_); rotate_left; (first | exact Or.inl (mem_of_sub hs rfl) | exact Or.inr (fun _ => rfl)); (first | exact Or.inl (mem_of_sub hs rfl) | exact Or.inr (fun _ => rfl) | exact Or.inr (fun _ => ⟨rfl, rfl⟩) | exact Or.inr (fun _ => ⟨rfl, rfl, rfl⟩)))
    | split
    | (with_reducible refine Only.foldl _ (fun _ _ _ => ?_) _ _ ?_)
    | ((with_reducible apply upd_only); rotate_left; iterate 39 (first | exact Or.inr (by with_reducible rfl) | exact Or.inl (mem_of_sub hs rfl) | exact Or.inl (sub_of rfl hs) | exact Or.inr rfl | exact Or.inr ⟨rfl, rfl⟩ | exact Or.inr ⟨rfl, rfl, rfl⟩))


theorem State.queueCopy_only (h : Only ps a s) (x1 x2) (hs : sub [.kst] ps = true) : Only ps a (State.queueCopy s x1 x2) := by
  unfold State.queueCopy
  try dsimp only
  repeat' first
    | with_reducible assumption
    | with_reducible refine State.mtpView_only ?_  (sub_of rfl hs)
    | with_reducible refine State.queueMtp_only ?_ _ (sub_of rfl hs)
    | split
    | (with_reducible refine Only.foldl _ (fun _ _ _ => ?_) _ _ ?_)
    | ((with_reducible apply upd_only); rotate_left; iterate 39 (first | exact Or.inr (by with_reducible rfl) | exact Or.inl (mem_of_sub hs rfl) | exact Or.inl (sub_of rfl hs) | exact Or.inr rfl | exact Or.inr ⟨rfl, rfl⟩ | exact Or.inr ⟨rfl, rfl, rfl⟩))


theorem State.installSlot_only (h : Only ps a s) (x1 x2) (hs : sub [.slots, .kst] ps = true) : Only ps a (State.installSlot s x1 x2) := by
  unfold State.installSlot
  try dsimp only
  repeat' first
    | with_reducible assumption
    | ((with_reducible refine State.modKst_only ?_ _ ?_ ?_); rotate_left; (first | exact Or.inl (mem_of_sub hs rfl) | exact Or.inr (fun _ => rfl)); (first | exact Or.inl (mem_of_sub hs rfl) | exact Or.inr (fun _ => rfl) | exact Or.inr (fun _ => ⟨rfl, rfl⟩) | exact Or.inr (fun _ => ⟨rfl, rfl, rfl⟩)))
    | with_reducible refine State.setSlot_only ?_ _ _ (sub_of rfl hs)
    | with_reducible refine State.queueCopy_only ?_ _ _ (sub_of rfl hs)
    | split
    | (with_reducible refine Only.foldl _ (fun _ _ _ => ?_) _ _ ?_)
    | ((with_reducible apply upd_only); rotate_left; iterate 39 (first | exact Or.inr (by with_reducible rfl) | exact Or.inl (mem_of_sub hs rfl) | exact Or.inl (sub_of rfl hs) | exact Or.inr rfl | exact Or.inr ⟨rfl, rfl⟩ | exact Or.inr ⟨rfl, rfl, rfl⟩))


theorem State.eraseSlots_only (h : Only ps a s) (x1) (hs : sub [.slots, .kst] ps = true) : Only ps a (State.eraseSlots s x1) := by
  unfold State.eraseSlots
  try dsimp only
  repeat' first
    | with_reducible assumption
    | ((with_reducible refine State.modKst_only ?_ _ ?_ ?_); rotate_left; (first | exact Or.inl (mem_of_sub hs rfl) | exact Or.inr (fun _ => rfl)); (first | exact Or.inl (mem_of_sub hs rfl) | exact Or.inr (fun _ => rfl) | exact Or.inr (fun _ => ⟨rfl, rfl⟩) | exact Or.inr (fun _ => ⟨rfl, rfl, rfl⟩)))
    | split
    | (with_reducible refine Only.foldl _ (fun _ _ _ => ?_) _ _ ?_)
    | ((with_reducible apply upd_only); rotate_left; iterate 39 (first | exact Or.inr (by with_reducible rfl) | exact Or.inl (mem_of_sub hs rfl) | exact Or.inl (sub_of rfl hs) | exact Or.inr rfl | exact Or.inr ⟨rfl, rfl⟩ | exact Or.inr ⟨rfl, rfl, rfl⟩))


theorem State.settleInvals_only (h : Only ps a s) (hs : sub [.counts, .evrQueue, .kst, .cur] ps = true) : Only ps a (State.settleInvals s) := by
  unfold State.settleInvals
  try dsimp only
  repeat' first
    | with_reducible assumption
    | ((with_reducible refine State.modKst_only ?_ _ ?_ ?_); rotate_left; (first | exact Or.inl (mem_of_sub hs rfl) | exact Or.inr (fun _ => rfl)); (first | exact Or.inl (mem_of_sub hs rfl) | exact Or.inr (fun _ => rfl) | exact Or.inr (fun _ => ⟨rfl, rfl⟩) | exact Or.inr (fun _ => ⟨rfl, rfl, rfl⟩)))
    | with_reducible refine State.complete_only ?_ _ _ _ _ _ _ (sub_of rfl hs)
    | split
    | (with_reducible refine Only.foldl _ (fun _ _ _ => ?_) _ _ ?_)
    | ((with_reducible apply upd_only); rotate_left; iterate 39 (first | exact Or.inr (by with_reducible rfl) | exact Or.inl (mem_of_sub hs rfl) | exact Or.inl (sub_of rfl hs) | exact Or.inr rfl | exact Or.inr ⟨rfl, rfl⟩ | exact Or.inr ⟨rfl, rfl, rfl⟩))


theorem State.queueEpoch_only (h : Only ps a s) (x1 x2 x3) (hs : sub [.kst] ps = true) : Only ps a (State.queueEpoch s x1 x2 x3) := by
  unfold State.queueEpoch
  try dsimp only
  repeat' first
    | with_reducible assumption
    | with_reducible refine State.mtpView_only ?_  (sub_of rfl hs)
    | with_reducible refine State.queueMtp_only ?_ _ (sub_of rfl hs)
    | split
    | (with_reducible refine Only.foldl _ (fun _ _ _ => ?_) _ _ ?_)
    | ((with_reducible apply upd_only); rotate_left; iterate 39 (first | exact Or.inr (by with_reducible rfl) | exact Or.inl (mem_of_sub hs rfl) | exact Or.inl (sub_of rfl hs) | exact Or.inr rfl | exact Or.inr ⟨rfl, rfl⟩ | exact Or.inr ⟨rfl, rfl, rfl⟩))


theorem State.retireEpoch_only (h : Only ps a s) (x1) (hs : sub [.kst] ps = true) : Only ps a (State.retireEpoch s x1) := by
  unfold State.retireEpoch
  try dsimp only
  repeat' first
    | with_reducible assumption
    | with_reducible refine State.mtpView_only ?_  (sub_of rfl hs)
    | with_reducible refine State.queueMtp_only ?_ _ (sub_of rfl hs)
    | with_reducible refine State.queueEpoch_only ?_ _ _ _ (sub_of rfl hs)
    | split
    | (with_reducible refine Only.foldl _ (fun _ _ _ => ?_) _ _ ?_)
    | ((with_reducible apply upd_only); rotate_left; iterate 39 (first | exact Or.inr (by with_reducible rfl) | exact Or.inl (mem_of_sub hs rfl) | exact Or.inl (sub_of rfl hs) | exact Or.inr rfl | exact Or.inr ⟨rfl, rfl⟩ | exact Or.inr ⟨rfl, rfl, rfl⟩))


theorem State.logAppend_only (h : Only ps a s) (x1 x2 x3 x4 x5 x6 x7) (hs : sub [.kst, .tmp, .bkp] ps = true) : Only ps a (State.logAppend s x1 x2 x3 x4 x5 x6 x7) := by
  unfold State.logAppend
  try dsimp only
  repeat' first
    | with_reducible assumption
    | with_reducible refine State.modTmp_only ?_ _ (sub_of rfl hs)
    | with_reducible refine State.mtpView_only ?_  (sub_of rfl hs)
    | with_reducible refine State.queueMtp_only ?_ _ (sub_of rfl hs)
    | split
    | (with_reducible refine Only.foldl _ (fun _ _ _ => ?_) _ _ ?_)
    | ((with_reducible apply upd_only); rotate_left; iterate 39 (first | exact Or.inr (by with_reducible rfl) | exact Or.inl (mem_of_sub hs rfl) | exact Or.inl (sub_of rfl hs) | exact Or.inr rfl | exact Or.inr ⟨rfl, rfl⟩ | exact Or.inr ⟨rfl, rfl, rfl⟩))


theorem State.keyHead_only (h : Only ps a s) (r : Rid) (d : Desc) (run : State → Desc → CmdRef → State)
    (hr : ∀ s d ref, Only ps a s → Only ps a (run s d ref)) (hs : sub [.counts, .evrQueue, .cur] ps = true) :
    Only ps a (s.keyHead r d run) := by
  unfold State.keyHead
  dsimp only
  repeat' first
    | with_reducible assumption
    | with_reducible refine hr _ _ _ ?_
    | with_reducible refine State.countDev_only ?_ _ _ _ _ (sub_of rfl hs)
    | with_reducible refine State.modRing_only ?_ _ _ (sub_of rfl hs)
    | with_reducible refine State.drainAll_only ?_ _ (sub_of rfl hs)
    | with_reducible refine State.pop_only ?_ _ (sub_of rfl hs)
    | with_reducible refine State.complete_only ?_ _ _ _ _ _ _ (sub_of rfl hs)
    | split

theorem State.issueKey_only (h : Only ps a s) (r : Rid) (mop : Nat) (op : Nat → Bool) (run : State → Desc → CmdRef → State)
    (hr : ∀ s d ref, Only ps a s → Only ps a (run s d ref)) (hs : sub [.counts, .evrQueue, .irq, .out, .cur] ps = true) :
    OnlyR ps a (s.issueKey r mop op run) := by
  unfold State.issueKey
  split
  · exact idle_only h
  · exact finish_only (State.keyHead_only h _ _ _ hr (sub_of rfl hs)) (sub_of rfl hs)

theorem State.kstStart_only (h : Only ps a s) (x1 x2 x3) (hs : sub [.kst, .cur] ps = true) : Only ps a (State.kstStart s x1 x2 x3).1 := by
  unfold State.kstStart
  try dsimp only
  repeat' first
    | with_reducible assumption
    | ((with_reducible refine State.modKst_only ?_ _ ?_ ?_); rotate_left; (first | exact Or.inl (mem_of_sub hs rfl) | exact Or.inr (fun _ => rfl)); (first | exact Or.inl (mem_of_sub hs rfl) | exact Or.inr (fun _ => rfl) | exact Or.inr (fun _ => ⟨rfl, rfl⟩) | exact Or.inr (fun _ => ⟨rfl, rfl, rfl⟩)))
    | with_reducible refine State.accept_only ?_ _ (sub_of rfl hs)
    | split
    | (with_reducible refine Only.foldl _ (fun _ _ _ => ?_) _ _ ?_)
    | ((with_reducible apply upd_only); rotate_left; iterate 39 (first | exact Or.inr (by with_reducible rfl) | exact Or.inl (mem_of_sub hs rfl) | exact Or.inl (sub_of rfl hs) | exact Or.inr rfl | exact Or.inr ⟨rfl, rfl⟩ | exact Or.inr ⟨rfl, rfl, rfl⟩))

theorem State.kstStart_only_of {t : State} {x1 x2 x3} {r} (e : State.kstStart s x1 x2 x3 = (t, r)) (h : Only ps a s) (hs : sub [.kst, .cur] ps = true) : Only ps a t := by
  have := State.kstStart_only h x1 x2 x3 hs
  rw [e] at this
  exact this


theorem State.queueTomb_only (h : Only ps a s) (x1) (hs : sub [.kst] ps = true) : Only ps a (State.queueTomb s x1) := by
  unfold State.queueTomb
  try dsimp only
  repeat' first
    | with_reducible assumption
    | with_reducible refine State.queueCopy_only ?_ _ _ (sub_of rfl hs)
    | split
    | (with_reducible refine Only.foldl _ (fun _ _ _ => ?_) _ _ ?_)
    | ((with_reducible apply upd_only); rotate_left; iterate 39 (first | exact Or.inr (by with_reducible rfl) | exact Or.inl (mem_of_sub hs rfl) | exact Or.inl (sub_of rfl hs) | exact Or.inr rfl | exact Or.inr ⟨rfl, rfl⟩ | exact Or.inr ⟨rfl, rfl, rfl⟩))


theorem State.endStage_only (h : Only ps a s) (x1 x2 x3 x4 x5) (hs : sub [.counts, .evrQueue, .slots, .cur] ps = true) : Only ps a (State.endStage s x1 x2 x3 x4 x5) := by
  unfold State.endStage
  try dsimp only
  repeat' first
    | with_reducible assumption
    | with_reducible refine State.setSlot_only ?_ _ _ (sub_of rfl hs)
    | with_reducible refine State.complete_only ?_ _ _ _ _ _ _ (sub_of rfl hs)
    | split
    | (with_reducible refine Only.foldl _ (fun _ _ _ => ?_) _ _ ?_)
    | ((with_reducible apply upd_only); rotate_left; iterate 39 (first | exact Or.inr (by with_reducible rfl) | exact Or.inl (mem_of_sub hs rfl) | exact Or.inl (sub_of rfl hs) | exact Or.inr rfl | exact Or.inr ⟨rfl, rfl⟩ | exact Or.inr ⟨rfl, rfl, rfl⟩))


theorem State.endDrawnStage_only (h : Only ps a s) (x1 x2) (hs : sub [.counts, .evrQueue, .slots, .cur] ps = true) : Only ps a (State.endDrawnStage s x1 x2) := by
  unfold State.endDrawnStage
  try dsimp only
  repeat' first
    | with_reducible assumption
    | with_reducible refine State.complete_only ?_ _ _ _ _ _ _ (sub_of rfl hs)
    | with_reducible refine State.endStage_only ?_ _ _ _ _ _ (sub_of rfl hs)
    | split
    | (with_reducible refine Only.foldl _ (fun _ _ _ => ?_) _ _ ?_)
    | ((with_reducible apply upd_only); rotate_left; iterate 39 (first | exact Or.inr (by with_reducible rfl) | exact Or.inl (mem_of_sub hs rfl) | exact Or.inl (sub_of rfl hs) | exact Or.inr rfl | exact Or.inr ⟨rfl, rfl⟩ | exact Or.inr ⟨rfl, rfl, rfl⟩))


end Sys2Proof.Machine
end

