-- ==== Sys2Proof/Laws/OnlyRng.lean ====
section
/-! SUPPORT. What each operation of Machine/Rng.lean may change. -/

set_option linter.unusedTactic false
set_option linter.unreachableTactic false
set_option linter.unusedVariables false
set_option linter.unusedSimpArgs false

namespace Sys2Proof.Machine

variable {ps : List Area} {a s : State}

theorem State.setDrbg_only (h : Only ps a s) (x1 x2) (hs : sub [.rng] ps = true) : Only ps a (State.setDrbg s x1 x2) := by
  unfold State.setDrbg
  try dsimp only
  repeat' first
    | with_reducible assumption
    | with_reducible refine State.modRng_only ?_ _ (sub_of rfl hs)
    | split
    | (with_reducible refine Only.foldl _ (fun _ _ _ => ?_) _ _ ?_)
    | ((with_reducible apply upd_only); rotate_left; iterate 39 (first | exact Or.inr (by with_reducible rfl) | exact Or.inl (mem_of_sub hs rfl) | exact Or.inl (sub_of rfl hs) | exact Or.inr rfl | exact Or.inr ⟨rfl, rfl⟩ | exact Or.inr ⟨rfl, rfl, rfl⟩))


theorem State.rngAsk_only (h : Only ps a s) (x1 x2 x3) (hs : sub [.rng] ps = true) : Only ps a (State.rngAsk s x1 x2 x3).1 := by
  unfold State.rngAsk
  try dsimp only
  repeat' first
    | with_reducible assumption
    | with_reducible refine State.modRng_only ?_ _ (sub_of rfl hs)
    | with_reducible refine State.setDrbg_only ?_ _ _ (sub_of rfl hs)
    | split
    | (with_reducible refine Only.foldl _ (fun _ _ _ => ?_) _ _ ?_)
    | ((with_reducible apply upd_only); rotate_left; iterate 39 (first | exact Or.inr (by with_reducible rfl) | exact Or.inl (mem_of_sub hs rfl) | exact Or.inl (sub_of rfl hs) | exact Or.inr rfl | exact Or.inr ⟨rfl, rfl⟩ | exact Or.inr ⟨rfl, rfl, rfl⟩))

theorem State.rngAsk_only_of {t : State} {x1 x2 x3} {r} (e : State.rngAsk s x1 x2 x3 = (t, r)) (h : Only ps a s) (hs : sub [.rng] ps = true) : Only ps a t := by
  have := State.rngAsk_only h x1 x2 x3 hs
  rw [e] at this
  exact this


theorem State.takePool_only_of {t : State} {r} (e : State.takePool s = some (r, t)) (h : Only ps a s) (hs : sub [.rng] ps = true) : Only ps a t := by
  unfold State.takePool at e
  try dsimp only at e
  (repeat' split at e) <;> first | contradiction | skip
  all_goals (first | (cases e) | skip)
  repeat' first
    | with_reducible assumption
    | with_reducible refine State.modRng_only ?_ _ (sub_of rfl hs)
    | split
    | (with_reducible refine Only.foldl _ (fun _ _ _ => ?_) _ _ ?_)
    | ((with_reducible apply upd_only); rotate_left; iterate 39 (first | exact Or.inr (by with_reducible rfl) | exact Or.inl (mem_of_sub hs rfl) | exact Or.inl (sub_of rfl hs) | exact Or.inr rfl | exact Or.inr ⟨rfl, rfl⟩ | exact Or.inr ⟨rfl, rfl, rfl⟩))


theorem State.ownMsg_only (h : Only ps a s) (x1 x2) (hs : sub [.line] ps = true) : Only ps a (State.ownMsg s x1 x2) := by
  unfold State.ownMsg
  try dsimp only
  repeat' first
    | with_reducible assumption
    | with_reducible refine State.modLine_only ?_ _ _ (sub_of rfl hs)
    | split
    | (with_reducible refine Only.foldl _ (fun _ _ _ => ?_) _ _ ?_)
    | ((with_reducible apply upd_only); rotate_left; iterate 39 (first | exact Or.inr (by with_reducible rfl) | exact Or.inl (mem_of_sub hs rfl) | exact Or.inl (sub_of rfl hs) | exact Or.inr rfl | exact Or.inr ⟨rfl, rfl⟩ | exact Or.inr ⟨rfl, rfl, rfl⟩))


theorem State.helloSend_only (h : Only ps a s) (x1) (hs : sub [.line] ps = true) : Only ps a (State.helloSend s x1) := by
  unfold State.helloSend
  try dsimp only
  repeat' first
    | with_reducible assumption
    | with_reducible refine State.modLine_only ?_ _ _ (sub_of rfl hs)
    | with_reducible refine State.ownMsg_only ?_ _ _ (sub_of rfl hs)
    | split
    | (with_reducible refine Only.foldl _ (fun _ _ _ => ?_) _ _ ?_)
    | ((with_reducible apply upd_only); rotate_left; iterate 39 (first | exact Or.inr (by with_reducible rfl) | exact Or.inl (mem_of_sub hs rfl) | exact Or.inl (sub_of rfl hs) | exact Or.inr rfl | exact Or.inr ⟨rfl, rfl⟩ | exact Or.inr ⟨rfl, rfl, rfl⟩))


theorem State.helloDrawn_only (h : Only ps a s) (x1 x2) (hs : sub [.line] ps = true) : Only ps a (State.helloDrawn s x1 x2) := by
  unfold State.helloDrawn
  try dsimp only
  repeat' first
    | with_reducible assumption
    | with_reducible refine State.modLine_only ?_ _ _ (sub_of rfl hs)
    | with_reducible refine State.helloSend_only ?_ _ (sub_of rfl hs)
    | split
    | (with_reducible refine Only.foldl _ (fun _ _ _ => ?_) _ _ ?_)
    | ((with_reducible apply upd_only); rotate_left; iterate 39 (first | exact Or.inr (by with_reducible rfl) | exact Or.inl (mem_of_sub hs rfl) | exact Or.inl (sub_of rfl hs) | exact Or.inr rfl | exact Or.inr ⟨rfl, rfl⟩ | exact Or.inr ⟨rfl, rfl, rfl⟩))


theorem State.mateHello_only (h : Only ps a s) (x1) (hs : sub [.out, .host, .pads, .counts, .evrQueue, .role, .mte] ps = true) : Only ps a (State.mateHello s x1) := by
  unfold State.mateHello
  try dsimp only
  repeat' first
    | with_reducible assumption
    | ((with_reducible refine State.modMte_only ?_ _ ?_ ?_); rotate_left; (first | exact Or.inl (mem_of_sub hs rfl) | exact Or.inr (fun _ => rfl)); (first | exact Or.inl (mem_of_sub hs rfl) | exact Or.inr (fun _ => rfl) | exact Or.inr (fun _ => ⟨rfl, rfl⟩) | exact Or.inr (fun _ => ⟨rfl, rfl, rfl⟩)))
    | with_reducible refine State.mateGo_only ?_ _ _ (sub_of rfl hs)
    | with_reducible refine State.feltSend_only ?_ _ _ (sub_of rfl hs)
    | split
    | (with_reducible refine Only.foldl _ (fun _ _ _ => ?_) _ _ ?_)
    | ((with_reducible apply upd_only); rotate_left; iterate 39 (first | exact Or.inr (by with_reducible rfl) | exact Or.inl (mem_of_sub hs rfl) | exact Or.inl (sub_of rfl hs) | exact Or.inr rfl | exact Or.inr ⟨rfl, rfl⟩ | exact Or.inr ⟨rfl, rfl, rfl⟩))


theorem State.mateTryPair_only (h : Only ps a s) (hs : sub [.out, .host, .pads, .counts, .evrQueue, .rng, .role, .mte] ps = true) : Only ps a (State.mateTryPair s) := by
  unfold State.mateTryPair
  try dsimp only
  repeat' first
    | with_reducible assumption
    | ((with_reducible refine State.modMte_only ?_ _ ?_ ?_); rotate_left; (first | exact Or.inl (mem_of_sub hs rfl) | exact Or.inr (fun _ => rfl)); (first | exact Or.inl (mem_of_sub hs rfl) | exact Or.inr (fun _ => rfl) | exact Or.inr (fun _ => ⟨rfl, rfl⟩) | exact Or.inr (fun _ => ⟨rfl, rfl, rfl⟩)))
    | with_reducible refine State.mateGo_only ?_ _ _ (sub_of rfl hs)
    | with_reducible refine State.rngAsk_only ?_ _ _ _ (sub_of rfl hs)
    | with_reducible refine State.rngAsk_only_of (by assumption) ?_ (sub_of rfl hs)
    | with_reducible refine State.mateHello_only ?_ _ (sub_of rfl hs)
    | split
    | (with_reducible refine Only.foldl _ (fun _ _ _ => ?_) _ _ ?_)
    | ((with_reducible apply upd_only); rotate_left; iterate 39 (first | exact Or.inr (by with_reducible rfl) | exact Or.inl (mem_of_sub hs rfl) | exact Or.inl (sub_of rfl hs) | exact Or.inr rfl | exact Or.inr ⟨rfl, rfl⟩ | exact Or.inr ⟨rfl, rfl, rfl⟩))


theorem State.kstDeliver_only (h : Only ps a s) (x1 x2) (hs : sub [.counts, .evrQueue, .slots, .kst, .cur] ps = true) : Only ps a (State.kstDeliver s x1 x2) := by
  unfold State.kstDeliver
  try dsimp only
  repeat' first
    | with_reducible assumption
    | ((with_reducible refine State.modKst_only ?_ _ ?_ ?_); rotate_left; (first | exact Or.inl (mem_of_sub hs rfl) | exact Or.inr (fun _ => rfl)); (first | exact Or.inl (mem_of_sub hs rfl) | exact Or.inr (fun _ => rfl) | exact Or.inr (fun _ => ⟨rfl, rfl⟩) | exact Or.inr (fun _ => ⟨rfl, rfl, rfl⟩)))
    | with_reducible refine State.endDrawnStage_only ?_ _ _ (sub_of rfl hs)
    | split
    | (with_reducible refine Only.foldl _ (fun _ _ _ => ?_) _ _ ?_)
    | ((with_reducible apply upd_only); rotate_left; iterate 39 (first | exact Or.inr (by with_reducible rfl) | exact Or.inl (mem_of_sub hs rfl) | exact Or.inl (sub_of rfl hs) | exact Or.inr rfl | exact Or.inr ⟨rfl, rfl⟩ | exact Or.inr ⟨rfl, rfl, rfl⟩))


theorem State.rngDeliver_only (h : Only ps a s) (x1 x2) (hs : sub [.out, .host, .pads, .counts, .evrQueue, .slots, .kst, .rng, .uci, .mem, .line, .cur, .role, .mte] ps = true) : Only ps a (State.rngDeliver s x1 x2) := by
  unfold State.rngDeliver
  try dsimp only
  repeat' first
    | with_reducible assumption
    | with_reducible refine State.modRng_only ?_ _ (sub_of rfl hs)
    | with_reducible refine State.modUci_only ?_ _ (sub_of rfl hs)
    | ((with_reducible refine State.modKst_only ?_ _ ?_ ?_); rotate_left; (first | exact Or.inl (mem_of_sub hs rfl) | exact Or.inr (fun _ => rfl)); (first | exact Or.inl (mem_of_sub hs rfl) | exact Or.inr (fun _ => rfl) | exact Or.inr (fun _ => ⟨rfl, rfl⟩) | exact Or.inr (fun _ => ⟨rfl, rfl, rfl⟩)))
    | with_reducible refine State.modMem_only ?_ _ (sub_of rfl hs)
    | with_reducible refine State.kstDeliver_only ?_ _ _ (sub_of rfl hs)
    | with_reducible refine State.helloDrawn_only ?_ _ _ (sub_of rfl hs)
    | with_reducible refine State.mateHello_only ?_ _ (sub_of rfl hs)
    | split
    | (with_reducible refine Only.foldl _ (fun _ _ _ => ?_) _ _ ?_)
    | ((with_reducible apply upd_only); rotate_left; iterate 39 (first | exact Or.inr (by with_reducible rfl) | exact Or.inl (mem_of_sub hs rfl) | exact Or.inl (sub_of rfl hs) | exact Or.inr rfl | exact Or.inr ⟨rfl, rfl⟩ | exact Or.inr ⟨rfl, rfl, rfl⟩))


theorem State.dropJob_only (h : Only ps a s) (x1) (hs : sub [.counts, .evrQueue, .kst, .cur] ps = true) : Only ps a (State.dropJob s x1) := by
  unfold State.dropJob
  try dsimp only
  repeat' first
    | with_reducible assumption
    | with_reducible refine State.countDev_only ?_ _ _ _ _ (sub_of rfl hs)
    | ((with_reducible refine State.modKst_only ?_ _ ?_ ?_); rotate_left; (first | exact Or.inl (mem_of_sub hs rfl) | exact Or.inr (fun _ => rfl)); (first | exact Or.inl (mem_of_sub hs rfl) | exact Or.inr (fun _ => rfl) | exact Or.inr (fun _ => ⟨rfl, rfl⟩) | exact Or.inr (fun _ => ⟨rfl, rfl, rfl⟩)))
    | with_reducible refine State.complete_only ?_ _ _ _ _ _ _ (sub_of rfl hs)
    | split
    | (with_reducible refine Only.foldl _ (fun _ _ _ => ?_) _ _ ?_)
    | ((with_reducible apply upd_only); rotate_left; iterate 39 (first | exact Or.inr (by with_reducible rfl) | exact Or.inl (mem_of_sub hs rfl) | exact Or.inl (sub_of rfl hs) | exact Or.inr rfl | exact Or.inr ⟨rfl, rfl⟩ | exact Or.inr ⟨rfl, rfl, rfl⟩))


theorem State.rngRefuse_only (h : Only ps a s) (x1) (hs : sub [.host, .pads, .counts, .evrQueue, .kst, .uci, .mem, .line, .cur, .role, .mte] ps = true) : Only ps a (State.rngRefuse s x1) := by
  unfold State.rngRefuse
  try dsimp only
  repeat' first
    | with_reducible assumption
    | with_reducible refine State.modUci_only ?_ _ (sub_of rfl hs)
    | ((with_reducible refine State.modMte_only ?_ _ ?_ ?_); rotate_left; (first | exact Or.inl (mem_of_sub hs rfl) | exact Or.inr (fun _ => rfl)); (first | exact Or.inl (mem_of_sub hs rfl) | exact Or.inr (fun _ => rfl) | exact Or.inr (fun _ => ⟨rfl, rfl⟩) | exact Or.inr (fun _ => ⟨rfl, rfl, rfl⟩)))
    | with_reducible refine State.modMem_only ?_ _ (sub_of rfl hs)
    | with_reducible refine State.countDev_only ?_ _ _ _ _ (sub_of rfl hs)
    | with_reducible refine State.mateGo_only ?_ _ _ (sub_of rfl hs)
    | with_reducible refine State.dropJob_only ?_ _ (sub_of rfl hs)
    | with_reducible refine State.helloDrawn_only ?_ _ _ (sub_of rfl hs)
    | split
    | (with_reducible refine Only.foldl _ (fun _ _ _ => ?_) _ _ ?_)
    | ((with_reducible apply upd_only); rotate_left; iterate 39 (first | exact Or.inr (by with_reducible rfl) | exact Or.inl (mem_of_sub hs rfl) | exact Or.inl (sub_of rfl hs) | exact Or.inr rfl | exact Or.inr ⟨rfl, rfl⟩ | exact Or.inr ⟨rfl, rfl, rfl⟩))


theorem State.refuseAll_only (h : Only ps a s) (x1) (hs : sub [.host, .pads, .counts, .evrQueue, .kst, .uci, .mem, .line, .cur, .role, .mte] ps = true) : Only ps a (State.refuseAll s x1) := by
  fun_induction State.refuseAll s x1 <;> try dsimp only
  repeat' first
    | with_reducible assumption
    | with_reducible refine State.rngRefuse_only ?_ _ (sub_of rfl hs)
    | with_reducible apply_assumption -exfalso -symm
    | split
    | (with_reducible refine Only.foldl _ (fun _ _ _ => ?_) _ _ ?_)
    | ((with_reducible apply upd_only); rotate_left; iterate 39 (first | exact Or.inr (by with_reducible rfl) | exact Or.inl (mem_of_sub hs rfl) | exact Or.inl (sub_of rfl hs) | exact Or.inr rfl | exact Or.inr ⟨rfl, rfl⟩ | exact Or.inr ⟨rfl, rfl, rfl⟩))


theorem State.serveWaiting_only (h : Only ps a s) (x1) (hs : sub [.out, .host, .pads, .counts, .evrQueue, .slots, .kst, .rng, .uci, .mem, .line, .cur, .role, .mte] ps = true) : Only ps a (State.serveWaiting s x1) := by
  fun_induction State.serveWaiting s x1 <;> try dsimp only
  repeat' first
    | with_reducible assumption
    | with_reducible refine State.modRng_only ?_ _ (sub_of rfl hs)
    | with_reducible refine State.setDrbg_only ?_ _ _ (sub_of rfl hs)
    | with_reducible refine State.rngDeliver_only ?_ _ _ (sub_of rfl hs)
    | with_reducible apply_assumption -exfalso -symm
    | split
    | (with_reducible refine Only.foldl _ (fun _ _ _ => ?_) _ _ ?_)
    | ((with_reducible apply upd_only); rotate_left; iterate 39 (first | exact Or.inr (by with_reducible rfl) | exact Or.inl (mem_of_sub hs rfl) | exact Or.inl (sub_of rfl hs) | exact Or.inr rfl | exact Or.inr ⟨rfl, rfl⟩ | exact Or.inr ⟨rfl, rfl, rfl⟩))


theorem State.serveAll_only (h : Only ps a s) (hs : sub [.out, .host, .pads, .counts, .evrQueue, .slots, .kst, .rng, .uci, .mem, .line, .cur, .role, .mte] ps = true) : Only ps a (State.serveAll s) := by
  unfold State.serveAll
  try dsimp only
  repeat' first
    | with_reducible assumption
    | with_reducible refine State.modRng_only ?_ _ (sub_of rfl hs)
    | with_reducible refine State.serveWaiting_only ?_ _ (sub_of rfl hs)
    | split
    | (with_reducible refine Only.foldl _ (fun _ _ _ => ?_) _ _ ?_)
    | ((with_reducible apply upd_only); rotate_left; iterate 39 (first | exact Or.inr (by with_reducible rfl) | exact Or.inl (mem_of_sub hs rfl) | exact Or.inl (sub_of rfl hs) | exact Or.inr rfl | exact Or.inr ⟨rfl, rfl⟩ | exact Or.inr ⟨rfl, rfl, rfl⟩))


theorem State.rngStartup_only (h : Only ps a s) (hs : sub [.rng] ps = true) : Only ps a (State.rngStartup s) := by
  unfold State.rngStartup
  try dsimp only
  repeat' first
    | with_reducible assumption
    | with_reducible refine State.modRng_only ?_ _ (sub_of rfl hs)
    | split
    | (with_reducible refine Only.foldl _ (fun _ _ _ => ?_) _ _ ?_)
    | ((with_reducible apply upd_only); rotate_left; iterate 39 (first | exact Or.inr (by with_reducible rfl) | exact Or.inl (mem_of_sub hs rfl) | exact Or.inl (sub_of rfl hs) | exact Or.inr rfl | exact Or.inr ⟨rfl, rfl⟩ | exact Or.inr ⟨rfl, rfl, rfl⟩))


theorem execDrbgInstantiate_only (h : Only ps a s) (x0) (hs : sub [.out, .irq, .host, .pads, .counts, .evrQueue, .slots, .kst, .rng, .uci, .mem, .line, .cur, .role, .mte] ps = true) : OnlyR ps a (execDrbgInstantiate x0 s) := by
  unfold execDrbgInstantiate
  try dsimp only
  repeat' first
    | with_reducible assumption
    | with_reducible refine idle_only ?_  (sub_of rfl hs)
    | with_reducible refine finish_only ?_  (sub_of rfl hs)
    | with_reducible refine State.modRng_only ?_ _ (sub_of rfl hs)
    | with_reducible refine State.setDrbg_only ?_ _ _ (sub_of rfl hs)
    | with_reducible refine State.serveAll_only ?_  (sub_of rfl hs)
    | with_reducible refine State.takePool_only ?_  (sub_of rfl hs)
    | with_reducible refine State.takePool_only_of (by assumption) ?_ (sub_of rfl hs)
    | with_reducible refine State.mateTryPair_only ?_  (sub_of rfl hs)
    | with_reducible refine finish_only ?_ (sub_of rfl hs)
    | with_reducible refine idle_only ?_
    | split
    | (with_reducible refine Only.foldl _ (fun _ _ _ => ?_) _ _ ?_)
    | ((with_reducible apply upd_only); rotate_left; iterate 39 (first | exact Or.inr (by with_reducible rfl) | exact Or.inl (mem_of_sub hs rfl) | exact Or.inl (sub_of rfl hs) | exact Or.inr rfl | exact Or.inr ⟨rfl, rfl⟩ | exact Or.inr ⟨rfl, rfl, rfl⟩))


theorem execDrbgReseed_only (h : Only ps a s) (x0) (hs : sub [.out, .irq, .host, .pads, .counts, .evrQueue, .slots, .kst, .rng, .uci, .mem, .line, .cur, .role, .mte] ps = true) : OnlyR ps a (execDrbgReseed x0 s) := by
  unfold execDrbgReseed
  try dsimp only
  repeat' first
    | with_reducible assumption
    | with_reducible refine idle_only ?_  (sub_of rfl hs)
    | with_reducible refine finish_only ?_  (sub_of rfl hs)
    | with_reducible refine State.modRng_only ?_ _ (sub_of rfl hs)
    | with_reducible refine State.setDrbg_only ?_ _ _ (sub_of rfl hs)
    | with_reducible refine State.serveAll_only ?_  (sub_of rfl hs)
    | with_reducible refine State.takePool_only ?_  (sub_of rfl hs)
    | with_reducible refine State.takePool_only_of (by assumption) ?_ (sub_of rfl hs)
    | with_reducible refine State.rngDeliver_only ?_ _ _ (sub_of rfl hs)
    | with_reducible refine finish_only ?_ (sub_of rfl hs)
    | with_reducible refine idle_only ?_
    | split
    | (with_reducible refine Only.foldl _ (fun _ _ _ => ?_) _ _ ?_)
    | ((with_reducible apply upd_only); rotate_left; iterate 39 (first | exact Or.inr (by with_reducible rfl) | exact Or.inl (mem_of_sub hs rfl) | exact Or.inl (sub_of rfl hs) | exact Or.inr rfl | exact Or.inr ⟨rfl, rfl⟩ | exact Or.inr ⟨rfl, rfl, rfl⟩))


theorem State.condBits_only (h : Only ps a s) (x1) (hs : sub [.rng] ps = true) : Only ps a (State.condBits s x1).2 := by
  unfold State.condBits
  try dsimp only
  repeat' first
    | with_reducible assumption
    | with_reducible refine State.modRng_only ?_ _ (sub_of rfl hs)
    | split
    | (with_reducible refine Only.foldl _ (fun _ _ _ => ?_) _ _ ?_)
    | ((with_reducible apply upd_only); rotate_left; iterate 39 (first | exact Or.inr (by with_reducible rfl) | exact Or.inl (mem_of_sub hs rfl) | exact Or.inl (sub_of rfl hs) | exact Or.inr rfl | exact Or.inr ⟨rfl, rfl⟩ | exact Or.inr ⟨rfl, rfl, rfl⟩))

theorem State.condBits_only_of {t : State} {x1} {r} (e : State.condBits s x1 = (r, t)) (h : Only ps a s) (hs : sub [.rng] ps = true) : Only ps a t := by
  have := State.condBits_only h x1 hs
  rw [e] at this
  exact this


theorem execConditionerBlock_only (h : Only ps a s) (x0) (hs : sub [.out, .irq, .counts, .evrQueue, .rng] ps = true) : OnlyR ps a (execConditionerBlock x0 s) := by
  unfold execConditionerBlock
  try dsimp only
  repeat' first
    | with_reducible assumption
    | with_reducible refine idle_only ?_  (sub_of rfl hs)
    | with_reducible refine finish_only ?_  (sub_of rfl hs)
    | with_reducible refine State.modRng_only ?_ _ (sub_of rfl hs)
    | with_reducible refine State.condBits_only ?_ _ (sub_of rfl hs)
    | with_reducible refine State.condBits_only_of (by assumption) ?_ (sub_of rfl hs)
    | with_reducible refine finish_only ?_ (sub_of rfl hs)
    | with_reducible refine idle_only ?_
    | split
    | (with_reducible refine Only.foldl _ (fun _ _ _ => ?_) _ _ ?_)
    | ((with_reducible apply upd_only); rotate_left; iterate 39 (first | exact Or.inr (by with_reducible rfl) | exact Or.inl (mem_of_sub hs rfl) | exact Or.inl (sub_of rfl hs) | exact Or.inr rfl | exact Or.inr ⟨rfl, rfl⟩ | exact Or.inr ⟨rfl, rfl, rfl⟩))


theorem State.failHead_only (h : Only ps a s) (x1) (hs : sub [.counts, .evrQueue, .cur] ps = true) : Only ps a (State.failHead s x1) := by
  unfold State.failHead
  try dsimp only
  repeat' first
    | with_reducible assumption
    | with_reducible refine State.countDev_only ?_ _ _ _ _ (sub_of rfl hs)
    | with_reducible refine State.complete_only ?_ _ _ _ _ _ _ (sub_of rfl hs)
    | with_reducible refine State.drainAll_only ?_ _ (sub_of rfl hs)
    | with_reducible refine State.pop_only ?_ _ (sub_of rfl hs)
    | split
    | (with_reducible refine Only.foldl _ (fun _ _ _ => ?_) _ _ ?_)
    | ((with_reducible apply upd_only); rotate_left; iterate 39 (first | exact Or.inr (by with_reducible rfl) | exact Or.inl (mem_of_sub hs rfl) | exact Or.inl (sub_of rfl hs) | exact Or.inr rfl | exact Or.inr ⟨rfl, rfl⟩ | exact Or.inr ⟨rfl, rfl, rfl⟩))


theorem State.failWaits_only (h : Only ps a s) (hs : sub [.counts, .evrQueue, .uci, .mem, .cur] ps = true) : Only ps a (State.failWaits s) := by
  unfold State.failWaits
  try dsimp only
  repeat' first
    | with_reducible assumption
    | with_reducible refine State.modUci_only ?_ _ (sub_of rfl hs)
    | with_reducible refine State.modMem_only ?_ _ (sub_of rfl hs)
    | with_reducible refine State.failHead_only ?_ _ (sub_of rfl hs)
    | split
    | (with_reducible refine Only.foldl _ (fun _ _ _ => ?_) _ _ ?_)
    | ((with_reducible apply upd_only); rotate_left; iterate 39 (first | exact Or.inr (by with_reducible rfl) | exact Or.inl (mem_of_sub hs rfl) | exact Or.inl (sub_of rfl hs) | exact Or.inr rfl | exact Or.inr ⟨rfl, rfl⟩ | exact Or.inr ⟨rfl, rfl, rfl⟩))


theorem State.dropDrawn_only (h : Only ps a s) (hs : sub [.counts, .evrQueue, .kst, .cur] ps = true) : Only ps a (State.dropDrawn s) := by
  unfold State.dropDrawn
  try dsimp only
  repeat' first
    | with_reducible assumption
    | with_reducible refine State.dropJob_only ?_ _ (sub_of rfl hs)
    | split
    | (with_reducible refine Only.foldl _ (fun _ _ _ => ?_) _ _ ?_)
    | ((with_reducible apply upd_only); rotate_left; iterate 39 (first | exact Or.inr (by with_reducible rfl) | exact Or.inl (mem_of_sub hs rfl) | exact Or.inl (sub_of rfl hs) | exact Or.inr rfl | exact Or.inr ⟨rfl, rfl⟩ | exact Or.inr ⟨rfl, rfl, rfl⟩))


theorem State.rngFailCore_only (h : Only ps a s) (x1 x2) (hs : sub [.host, .pads, .counts, .evrQueue, .kst, .rng, .uci, .mem, .line, .cur, .role, .mte] ps = true) : Only ps a (State.rngFailCore s x1 x2) := by
  unfold State.rngFailCore
  try dsimp only
  repeat' first
    | with_reducible assumption
    | with_reducible refine State.countDev_only ?_ _ _ _ _ (sub_of rfl hs)
    | with_reducible refine State.modRng_only ?_ _ (sub_of rfl hs)
    | with_reducible refine State.refuseAll_only ?_ _ (sub_of rfl hs)
    | with_reducible refine State.failWaits_only ?_  (sub_of rfl hs)
    | with_reducible refine State.dropDrawn_only ?_  (sub_of rfl hs)
    | split
    | (with_reducible refine Only.foldl _ (fun _ _ _ => ?_) _ _ ?_)
    | ((with_reducible apply upd_only); rotate_left; iterate 39 (first | exact Or.inr (by with_reducible rfl) | exact Or.inl (mem_of_sub hs rfl) | exact Or.inl (sub_of rfl hs) | exact Or.inr rfl | exact Or.inr ⟨rfl, rfl⟩ | exact Or.inr ⟨rfl, rfl, rfl⟩))


theorem execRngBufferRefill_only (h : Only ps a s) (x0) (hs : sub [.out, .irq, .host, .pads, .counts, .evrQueue, .slots, .kst, .rng, .uci, .mem, .line, .cur, .role, .mte] ps = true) : OnlyR ps a (execRngBufferRefill x0 s) := by
  unfold execRngBufferRefill
  try dsimp only
  repeat' first
    | with_reducible assumption
    | with_reducible refine idle_only ?_  (sub_of rfl hs)
    | with_reducible refine finish_only ?_  (sub_of rfl hs)
    | with_reducible refine State.rngAsk_only ?_ _ _ _ (sub_of rfl hs)
    | with_reducible refine State.rngAsk_only_of (by assumption) ?_ (sub_of rfl hs)
    | with_reducible refine State.rngRefuse_only ?_ _ (sub_of rfl hs)
    | with_reducible refine State.rngDeliver_only ?_ _ _ (sub_of rfl hs)
    | with_reducible refine finish_only ?_ (sub_of rfl hs)
    | with_reducible refine idle_only ?_
    | split
    | (with_reducible refine Only.foldl _ (fun _ _ _ => ?_) _ _ ?_)
    | ((with_reducible apply upd_only); rotate_left; iterate 39 (first | exact Or.inr (by with_reducible rfl) | exact Or.inl (mem_of_sub hs rfl) | exact Or.inl (sub_of rfl hs) | exact Or.inr rfl | exact Or.inr ⟨rfl, rfl⟩ | exact Or.inr ⟨rfl, rfl, rfl⟩))


theorem State.readBufStatus_only (h : Only ps a s) (x1 x2) (hs : sub [.rng] ps = true) : Only ps a (State.readBufStatus s x1 x2).2 := by
  unfold State.readBufStatus
  try dsimp only
  repeat' first
    | with_reducible assumption
    | with_reducible refine State.modRng_only ?_ _ (sub_of rfl hs)
    | split
    | (with_reducible refine Only.foldl _ (fun _ _ _ => ?_) _ _ ?_)
    | ((with_reducible apply upd_only); rotate_left; iterate 39 (first | exact Or.inr (by with_reducible rfl) | exact Or.inl (mem_of_sub hs rfl) | exact Or.inl (sub_of rfl hs) | exact Or.inr rfl | exact Or.inr ⟨rfl, rfl⟩ | exact Or.inr ⟨rfl, rfl, rfl⟩))

theorem State.readBufStatus_only_of {t : State} {x1 x2} {r} (e : State.readBufStatus s x1 x2 = (r, t)) (h : Only ps a s) (hs : sub [.rng] ps = true) : Only ps a t := by
  have := State.readBufStatus_only h x1 x2 hs
  rw [e] at this
  exact this


theorem State.readBufData_only (h : Only ps a s) (x1 x2) (hs : sub [.rng] ps = true) : Only ps a (State.readBufData s x1 x2).2 := by
  unfold State.readBufData
  try dsimp only
  repeat' first
    | with_reducible assumption
    | with_reducible refine State.modRng_only ?_ _ (sub_of rfl hs)
    | split
    | (with_reducible refine Only.foldl _ (fun _ _ _ => ?_) _ _ ?_)
    | ((with_reducible apply upd_only); rotate_left; iterate 39 (first | exact Or.inr (by with_reducible rfl) | exact Or.inl (mem_of_sub hs rfl) | exact Or.inl (sub_of rfl hs) | exact Or.inr rfl | exact Or.inr ⟨rfl, rfl⟩ | exact Or.inr ⟨rfl, rfl, rfl⟩))

theorem State.readBufData_only_of {t : State} {x1 x2} {r} (e : State.readBufData s x1 x2 = (r, t)) (h : Only ps a s) (hs : sub [.rng] ps = true) : Only ps a t := by
  have := State.readBufData_only h x1 x2 hs
  rw [e] at this
  exact this


theorem execRngOutStatusRead_only (h : Only ps a s) (x0 x1) (hs : sub [.out, .irq, .counts, .evrQueue, .rng] ps = true) : OnlyR ps a (execRngOutStatusRead x0 x1 s) := by
  unfold execRngOutStatusRead
  try dsimp only
  repeat' first
    | with_reducible assumption
    | with_reducible refine idle_only ?_  (sub_of rfl hs)
    | with_reducible refine finish_only ?_  (sub_of rfl hs)
    | with_reducible refine State.emit_only ?_ _ (sub_of rfl hs)
    | with_reducible refine State.readBufStatus_only ?_ _ _ (sub_of rfl hs)
    | with_reducible refine State.readBufStatus_only_of (by assumption) ?_ (sub_of rfl hs)
    | with_reducible refine finish_only ?_ (sub_of rfl hs)
    | with_reducible refine idle_only ?_
    | split
    | (with_reducible refine Only.foldl _ (fun _ _ _ => ?_) _ _ ?_)
    | ((with_reducible apply upd_only); rotate_left; iterate 39 (first | exact Or.inr (by with_reducible rfl) | exact Or.inl (mem_of_sub hs rfl) | exact Or.inl (sub_of rfl hs) | exact Or.inr rfl | exact Or.inr ⟨rfl, rfl⟩ | exact Or.inr ⟨rfl, rfl, rfl⟩))


theorem execRngOutDataRead_only (h : Only ps a s) (x0 x1) (hs : sub [.out, .irq, .counts, .evrQueue, .rng] ps = true) : OnlyR ps a (execRngOutDataRead x0 x1 s) := by
  unfold execRngOutDataRead
  try dsimp only
  repeat' first
    | with_reducible assumption
    | with_reducible refine idle_only ?_  (sub_of rfl hs)
    | with_reducible refine finish_only ?_  (sub_of rfl hs)
    | with_reducible refine State.emit_only ?_ _ (sub_of rfl hs)
    | with_reducible refine State.readBufData_only ?_ _ _ (sub_of rfl hs)
    | with_reducible refine State.readBufData_only_of (by assumption) ?_ (sub_of rfl hs)
    | with_reducible refine finish_only ?_ (sub_of rfl hs)
    | with_reducible refine idle_only ?_
    | split
    | (with_reducible refine Only.foldl _ (fun _ _ _ => ?_) _ _ ?_)
    | ((with_reducible apply upd_only); rotate_left; iterate 39 (first | exact Or.inr (by with_reducible rfl) | exact Or.inl (mem_of_sub hs rfl) | exact Or.inl (sub_of rfl hs) | exact Or.inr rfl | exact Or.inr ⟨rfl, rfl⟩ | exact Or.inr ⟨rfl, rfl, rfl⟩))


theorem State.rngRestart_only (h : Only ps a s) (hs : sub [.rng] ps = true) : Only ps a (State.rngRestart s) := by
  unfold State.rngRestart
  try dsimp only
  repeat' first
    | with_reducible assumption
    | with_reducible refine State.rngStartup_only ?_  (sub_of rfl hs)
    | split
    | (with_reducible refine Only.foldl _ (fun _ _ _ => ?_) _ _ ?_)
    | ((with_reducible apply upd_only); rotate_left; iterate 39 (first | exact Or.inr (by with_reducible rfl) | exact Or.inl (mem_of_sub hs rfl) | exact Or.inl (sub_of rfl hs) | exact Or.inr rfl | exact Or.inr ⟨rfl, rfl⟩ | exact Or.inr ⟨rfl, rfl, rfl⟩))


theorem execRngRestart_only (h : Only ps a s) (x0) (hs : sub [.out, .irq, .counts, .evrQueue, .rng] ps = true) : OnlyR ps a (execRngRestart x0 s) := by
  unfold execRngRestart
  try dsimp only
  repeat' first
    | with_reducible assumption
    | with_reducible refine idle_only ?_  (sub_of rfl hs)
    | with_reducible refine finish_only ?_  (sub_of rfl hs)
    | with_reducible refine State.lockedWrite_only ?_ _ _ _ (sub_of rfl hs)
    | with_reducible refine State.rngStartup_only ?_  (sub_of rfl hs)
    | with_reducible refine finish_only ?_ (sub_of rfl hs)
    | with_reducible refine idle_only ?_
    | split
    | (with_reducible refine Only.foldl _ (fun _ _ _ => ?_) _ _ ?_)
    | ((with_reducible apply upd_only); rotate_left; iterate 39 (first | exact Or.inr (by with_reducible rfl) | exact Or.inl (mem_of_sub hs rfl) | exact Or.inl (sub_of rfl hs) | exact Or.inr rfl | exact Or.inr ⟨rfl, rfl⟩ | exact Or.inr ⟨rfl, rfl, rfl⟩))


theorem State.rngTest_only (h : Only ps a s) (x1) (hs : sub [.settings, .rng] ps = true) : Only ps a (State.rngTest s x1) := by
  unfold State.rngTest
  try dsimp only
  repeat' first
    | with_reducible assumption
    | with_reducible refine State.setFld_only ?_ _ _ _ _ (Or.inr (by first | rfl | (simp; done) | decide)) (Or.inl (mem_of_sub hs rfl))
    | with_reducible refine State.setFld_only ?_ _ _ _ _ (Or.inl (mem_of_sub hs rfl)) (Or.inr (by first | rfl | (simp; done) | decide))
    | with_reducible refine State.setFld_only ?_ _ _ _ _ (Or.inl (mem_of_sub hs rfl)) (Or.inl (mem_of_sub hs rfl))
    | with_reducible refine State.modRng_only ?_ _ (sub_of rfl hs)
    | with_reducible refine State.rngStartup_only ?_  (sub_of rfl hs)
    | split
    | (with_reducible refine Only.foldl _ (fun _ _ _ => ?_) _ _ ?_)
    | ((with_reducible apply upd_only); rotate_left; iterate 39 (first | exact Or.inr (by with_reducible rfl) | exact Or.inl (mem_of_sub hs rfl) | exact Or.inl (sub_of rfl hs) | exact Or.inr rfl | exact Or.inr ⟨rfl, rfl⟩ | exact Or.inr ⟨rfl, rfl, rfl⟩))


theorem execRngTestMode_only (h : Only ps a s) (x0 x1) (hs : sub [.out, .settings, .irq, .counts, .evrQueue, .rng] ps = true) : OnlyR ps a (execRngTestMode x0 x1 s) := by
  unfold execRngTestMode
  try dsimp only
  repeat' first
    | with_reducible assumption
    | with_reducible refine idle_only ?_  (sub_of rfl hs)
    | with_reducible refine finish_only ?_  (sub_of rfl hs)
    | with_reducible refine State.lockedWrite_only ?_ _ _ _ (sub_of rfl hs)
    | with_reducible refine State.rngTest_only ?_ _ (sub_of rfl hs)
    | with_reducible refine finish_only ?_ (sub_of rfl hs)
    | with_reducible refine idle_only ?_
    | split
    | (with_reducible refine Only.foldl _ (fun _ _ _ => ?_) _ _ ?_)
    | ((with_reducible apply upd_only); rotate_left; iterate 39 (first | exact Or.inr (by with_reducible rfl) | exact Or.inl (mem_of_sub hs rfl) | exact Or.inl (sub_of rfl hs) | exact Or.inr rfl | exact Or.inr ⟨rfl, rfl⟩ | exact Or.inr ⟨rfl, rfl, rfl⟩))


theorem execRngRawWord_only (h : Only ps a s) (x0) (hs : sub [.out, .status, .irq, .counts, .evrQueue, .rng] ps = true) : OnlyR ps a (execRngRawWord x0 s) := by
  unfold execRngRawWord
  try dsimp only
  repeat' first
    | with_reducible assumption
    | with_reducible refine State.setBit_only ?_ _ _ _ (Or.inr (by first | rfl | (simp; done) | decide)) (Or.inl (mem_of_sub hs rfl))
    | with_reducible refine idle_only ?_  (sub_of rfl hs)
    | with_reducible refine finish_only ?_  (sub_of rfl hs)
    | with_reducible refine State.modRng_only ?_ _ (sub_of rfl hs)
    | with_reducible refine finish_only ?_ (sub_of rfl hs)
    | with_reducible refine idle_only ?_
    | split
    | (with_reducible refine Only.foldl _ (fun _ _ _ => ?_) _ _ ?_)
    | ((with_reducible apply upd_only); rotate_left; iterate 39 (first | exact Or.inr (by with_reducible rfl) | exact Or.inl (mem_of_sub hs rfl) | exact Or.inl (sub_of rfl hs) | exact Or.inr rfl | exact Or.inr ⟨rfl, rfl⟩ | exact Or.inr ⟨rfl, rfl, rfl⟩))


theorem State.readRaw_only (h : Only ps a s) (x1) (hs : sub [.rng] ps = true) : Only ps a (State.readRaw s x1).2 := by
  unfold State.readRaw
  try dsimp only
  repeat' first
    | with_reducible assumption
    | with_reducible refine State.modRng_only ?_ _ (sub_of rfl hs)
    | split
    | (with_reducible refine Only.foldl _ (fun _ _ _ => ?_) _ _ ?_)
    | ((with_reducible apply upd_only); rotate_left; iterate 39 (first | exact Or.inr (by with_reducible rfl) | exact Or.inl (mem_of_sub hs rfl) | exact Or.inl (sub_of rfl hs) | exact Or.inr rfl | exact Or.inr ⟨rfl, rfl⟩ | exact Or.inr ⟨rfl, rfl, rfl⟩))

theorem State.readRaw_only_of {t : State} {x1} {r} (e : State.readRaw s x1 = (r, t)) (h : Only ps a s) (hs : sub [.rng] ps = true) : Only ps a t := by
  have := State.readRaw_only h x1 hs
  rw [e] at this
  exact this


theorem execRngRawRead_only (h : Only ps a s) (x0) (hs : sub [.out, .irq, .counts, .evrQueue, .rng] ps = true) : OnlyR ps a (execRngRawRead x0 s) := by
  unfold execRngRawRead
  try dsimp only
  repeat' first
    | with_reducible assumption
    | with_reducible refine idle_only ?_  (sub_of rfl hs)
    | with_reducible refine finish_only ?_  (sub_of rfl hs)
    | with_reducible refine State.emit_only ?_ _ (sub_of rfl hs)
    | with_reducible refine State.readRaw_only ?_ _ (sub_of rfl hs)
    | with_reducible refine State.readRaw_only_of (by assumption) ?_ (sub_of rfl hs)
    | with_reducible refine finish_only ?_ (sub_of rfl hs)
    | with_reducible refine idle_only ?_
    | split
    | (with_reducible refine Only.foldl _ (fun _ _ _ => ?_) _ _ ?_)
    | ((with_reducible apply upd_only); rotate_left; iterate 39 (first | exact Or.inr (by with_reducible rfl) | exact Or.inl (mem_of_sub hs rfl) | exact Or.inl (sub_of rfl hs) | exact Or.inr rfl | exact Or.inr ⟨rfl, rfl⟩ | exact Or.inr ⟨rfl, rfl, rfl⟩))


end Sys2Proof.Machine
end

