-- ==== Sys2Proof/Laws/OnlyUtility.lean ====
section
/-! SUPPORT. What each operation of Machine/Utility.lean may change. -/

set_option linter.unusedTactic false
set_option linter.unreachableTactic false
set_option linter.unusedVariables false
set_option linter.unusedSimpArgs false

namespace Sys2Proof.Machine

variable {ps : List Area} {a s : State}

theorem State.uciBegin_only (h : Only ps a s) (x1 x2) (hs : sub [.out, .host, .pads, .counts, .evrQueue, .slots, .kst, .rng, .uci, .mem, .line, .cur, .role, .mte] ps = true) : Only ps a (State.uciBegin s x1 x2) := by
  unfold State.uciBegin
  try dsimp only
  repeat' first
    | with_reducible assumption
    | with_reducible refine State.modUci_only ?_ _ (sub_of rfl hs)
    | with_reducible refine State.rngDeliver_only ?_ _ _ (sub_of rfl hs)
    | with_reducible refine State.rngRefuse_only ?_ _ (sub_of rfl hs)
    | with_reducible refine State.rngAsk_only ?_ _ _ _ (sub_of rfl hs)
    | with_reducible refine State.rngAsk_only_of (by assumption) ?_ (sub_of rfl hs)
    | split
    | (with_reducible refine Only.foldl _ (fun _ _ _ => ?_) _ _ ?_)
    | ((with_reducible apply upd_only); rotate_left; iterate 39 (first | exact Or.inr (by with_reducible rfl) | exact Or.inl (mem_of_sub hs rfl) | exact Or.inl (sub_of rfl hs) | exact Or.inr rfl | exact Or.inr ⟨rfl, rfl⟩ | exact Or.inr ⟨rfl, rfl, rfl⟩))


theorem State.uciLoadWrite_only (h : Only ps a s) (x1) (hs : sub [.out, .settings, .host, .pads, .counts, .evrQueue, .slots, .kst, .rng, .uci, .mem, .line, .cur, .role, .mte] ps = true) : Only ps a (State.uciLoadWrite s x1) := by
  unfold State.uciLoadWrite
  try dsimp only
  repeat' first
    | with_reducible assumption
    | with_reducible refine State.setReg_only ?_ _ _ (Or.inr (by first | rfl | (simp; done) | decide)) (Or.inl (mem_of_sub hs rfl))
    | with_reducible refine State.setReg_only ?_ _ _ (Or.inl (mem_of_sub hs rfl)) (Or.inr (by first | rfl | (simp; done) | decide))
    | with_reducible refine State.setReg_only ?_ _ _ (Or.inl (mem_of_sub hs rfl)) (Or.inl (mem_of_sub hs rfl))
    | with_reducible refine State.modUci_only ?_ _ (sub_of rfl hs)
    | with_reducible refine State.uciBegin_only ?_ _ _ (sub_of rfl hs)
    | split
    | (with_reducible refine Only.foldl _ (fun _ _ _ => ?_) _ _ ?_)
    | ((with_reducible apply upd_only); rotate_left; iterate 39 (first | exact Or.inr (by with_reducible rfl) | exact Or.inl (mem_of_sub hs rfl) | exact Or.inl (sub_of rfl hs) | exact Or.inr rfl | exact Or.inr ⟨rfl, rfl⟩ | exact Or.inr ⟨rfl, rfl, rfl⟩))


theorem execUciLoad_only (h : Only ps a s) (x0 x1) (hs : sub [.out, .settings, .irq, .host, .pads, .counts, .evrQueue, .slots, .kst, .rng, .uci, .mem, .line, .cur, .role, .mte] ps = true) : OnlyR ps a (execUciLoad x0 x1 s) := by
  unfold execUciLoad
  try dsimp only
  repeat' first
    | with_reducible assumption
    | with_reducible refine idle_only ?_  (sub_of rfl hs)
    | with_reducible refine State.lockedWrite_only ?_ _ _ _ (sub_of rfl hs)
    | with_reducible refine finish_only ?_  (sub_of rfl hs)
    | with_reducible refine State.uciLoadWrite_only ?_ _ (sub_of rfl hs)
    | with_reducible refine finish_only ?_ (sub_of rfl hs)
    | with_reducible refine idle_only ?_
    | split
    | (with_reducible refine Only.foldl _ (fun _ _ _ => ?_) _ _ ?_)
    | ((with_reducible apply upd_only); rotate_left; iterate 39 (first | exact Or.inr (by with_reducible rfl) | exact Or.inl (mem_of_sub hs rfl) | exact Or.inl (sub_of rfl hs) | exact Or.inr rfl | exact Or.inr ⟨rfl, rfl⟩ | exact Or.inr ⟨rfl, rfl, rfl⟩))


theorem execUciLoadDone_only (h : Only ps a s) (hs : sub [.out, .irq, .counts, .evrQueue, .uci] ps = true) : OnlyR ps a (execUciLoadDone s) := by
  unfold execUciLoadDone
  try dsimp only
  repeat' first
    | with_reducible assumption
    | with_reducible refine idle_only ?_  (sub_of rfl hs)
    | with_reducible refine State.modUci_only ?_ _ (sub_of rfl hs)
    | with_reducible refine finish_only ?_  (sub_of rfl hs)
    | with_reducible refine finish_only ?_ (sub_of rfl hs)
    | with_reducible refine idle_only ?_
    | split
    | (with_reducible refine Only.foldl _ (fun _ _ _ => ?_) _ _ ?_)
    | ((with_reducible apply upd_only); rotate_left; iterate 39 (first | exact Or.inr (by with_reducible rfl) | exact Or.inl (mem_of_sub hs rfl) | exact Or.inl (sub_of rfl hs) | exact Or.inr rfl | exact Or.inr ⟨rfl, rfl⟩ | exact Or.inr ⟨rfl, rfl, rfl⟩))


theorem State.uciStatus_only (h : Only ps a s) (x1 x2) (hs : sub [.counts, .uci] ps = true) : Only ps a (State.uciStatus s x1 x2) := by
  unfold State.uciStatus
  try dsimp only
  repeat' first
    | with_reducible assumption
    | with_reducible refine State.countDev_only ?_ _ _ _ _ (sub_of rfl hs)
    | with_reducible refine State.modUci_only ?_ _ (sub_of rfl hs)
    | split
    | (with_reducible refine Only.foldl _ (fun _ _ _ => ?_) _ _ ?_)
    | ((with_reducible apply upd_only); rotate_left; iterate 39 (first | exact Or.inr (by with_reducible rfl) | exact Or.inl (mem_of_sub hs rfl) | exact Or.inl (sub_of rfl hs) | exact Or.inr rfl | exact Or.inr ⟨rfl, rfl⟩ | exact Or.inr ⟨rfl, rfl, rfl⟩))


theorem State.uciGo_only (h : Only ps a s) (x1 x2) (hs : sub [.settings, .status, .counts, .uci] ps = true) : Only ps a (State.uciGo s x1 x2) := by
  unfold State.uciGo
  try dsimp only
  repeat' first
    | with_reducible assumption
    | with_reducible refine State.setFld_only ?_ _ _ _ _ (Or.inr (by first | rfl | (simp; done) | decide)) (Or.inl (mem_of_sub hs rfl))
    | with_reducible refine State.setFld_only ?_ _ _ _ _ (Or.inl (mem_of_sub hs rfl)) (Or.inr (by first | rfl | (simp; done) | decide))
    | with_reducible refine State.setFld_only ?_ _ _ _ _ (Or.inl (mem_of_sub hs rfl)) (Or.inl (mem_of_sub hs rfl))
    | with_reducible refine State.setBit_only ?_ _ _ _ (Or.inr (by first | rfl | (simp; done) | decide)) (Or.inl (mem_of_sub hs rfl))
    | with_reducible refine State.setBit_only ?_ _ _ _ (Or.inl (mem_of_sub hs rfl)) (Or.inr (by first | rfl | (simp; done) | decide))
    | with_reducible refine State.setBit_only ?_ _ _ _ (Or.inl (mem_of_sub hs rfl)) (Or.inl (mem_of_sub hs rfl))
    | with_reducible refine State.countDev_only ?_ _ _ _ _ (sub_of rfl hs)
    | with_reducible refine State.modUci_only ?_ _ (sub_of rfl hs)
    | with_reducible refine State.uciStatus_only ?_ _ _ (sub_of rfl hs)
    | split
    | (with_reducible refine Only.foldl _ (fun _ _ _ => ?_) _ _ ?_)
    | ((with_reducible apply upd_only); rotate_left; iterate 39 (first | exact Or.inr (by with_reducible rfl) | exact Or.inl (mem_of_sub hs rfl) | exact Or.inl (sub_of rfl hs) | exact Or.inr rfl | exact Or.inr ⟨rfl, rfl⟩ | exact Or.inr ⟨rfl, rfl, rfl⟩))


theorem uciRequest_only (h : Only ps a s) (x0 x1 x2) (hs : sub [.out, .settings, .status, .irq, .counts, .evrQueue, .uci] ps = true) : OnlyR ps a (uciRequest x0 x1 x2 s) := by
  unfold uciRequest
  try dsimp only
  repeat' first
    | with_reducible assumption
    | with_reducible refine idle_only ?_  (sub_of rfl hs)
    | with_reducible refine State.lockedWrite_only ?_ _ _ _ (sub_of rfl hs)
    | with_reducible refine finish_only ?_  (sub_of rfl hs)
    | with_reducible refine State.uciGo_only ?_ _ _ (sub_of rfl hs)
    | with_reducible refine finish_only ?_ (sub_of rfl hs)
    | with_reducible refine idle_only ?_
    | split
    | (with_reducible refine Only.foldl _ (fun _ _ _ => ?_) _ _ ?_)
    | ((with_reducible apply upd_only); rotate_left; iterate 39 (first | exact Or.inr (by with_reducible rfl) | exact Or.inl (mem_of_sub hs rfl) | exact Or.inl (sub_of rfl hs) | exact Or.inr rfl | exact Or.inr ⟨rfl, rfl⟩ | exact Or.inr ⟨rfl, rfl, rfl⟩))


theorem execUciEnc_only (h : Only ps a s) (x0 x1) (hs : sub [.out, .settings, .status, .irq, .counts, .evrQueue, .uci] ps = true) : OnlyR ps a (execUciEnc x0 x1 s) := by
  unfold execUciEnc
  try dsimp only
  repeat' first
    | with_reducible assumption
    | with_reducible refine uciRequest_only ?_ _ _ _ (sub_of rfl hs)
    | with_reducible refine finish_only ?_ (sub_of rfl hs)
    | with_reducible refine idle_only ?_
    | split
    | (with_reducible refine Only.foldl _ (fun _ _ _ => ?_) _ _ ?_)
    | ((with_reducible apply upd_only); rotate_left; iterate 39 (first | exact Or.inr (by with_reducible rfl) | exact Or.inl (mem_of_sub hs rfl) | exact Or.inl (sub_of rfl hs) | exact Or.inr rfl | exact Or.inr ⟨rfl, rfl⟩ | exact Or.inr ⟨rfl, rfl, rfl⟩))


theorem execUciDec_only (h : Only ps a s) (x0 x1) (hs : sub [.out, .settings, .status, .irq, .counts, .evrQueue, .uci] ps = true) : OnlyR ps a (execUciDec x0 x1 s) := by
  unfold execUciDec
  try dsimp only
  repeat' first
    | with_reducible assumption
    | with_reducible refine uciRequest_only ?_ _ _ _ (sub_of rfl hs)
    | with_reducible refine finish_only ?_ (sub_of rfl hs)
    | with_reducible refine idle_only ?_
    | split
    | (with_reducible refine Only.foldl _ (fun _ _ _ => ?_) _ _ ?_)
    | ((with_reducible apply upd_only); rotate_left; iterate 39 (first | exact Or.inr (by with_reducible rfl) | exact Or.inl (mem_of_sub hs rfl) | exact Or.inl (sub_of rfl hs) | exact Or.inr rfl | exact Or.inr ⟨rfl, rfl⟩ | exact Or.inr ⟨rfl, rfl, rfl⟩))


theorem execUciNonce_only (h : Only ps a s) (x0 x1) (hs : sub [.out, .settings, .status, .irq, .counts, .evrQueue, .uci] ps = true) : OnlyR ps a (execUciNonce x0 x1 s) := by
  unfold execUciNonce
  try dsimp only
  repeat' first
    | with_reducible assumption
    | with_reducible refine uciRequest_only ?_ _ _ _ (sub_of rfl hs)
    | with_reducible refine finish_only ?_ (sub_of rfl hs)
    | with_reducible refine idle_only ?_
    | split
    | (with_reducible refine Only.foldl _ (fun _ _ _ => ?_) _ _ ?_)
    | ((with_reducible apply upd_only); rotate_left; iterate 39 (first | exact Or.inr (by with_reducible rfl) | exact Or.inl (mem_of_sub hs rfl) | exact Or.inl (sub_of rfl hs) | exact Or.inr rfl | exact Or.inr ⟨rfl, rfl⟩ | exact Or.inr ⟨rfl, rfl, rfl⟩))


theorem execUciErase_only (h : Only ps a s) (x0 x1) (hs : sub [.out, .settings, .status, .irq, .counts, .evrQueue, .uci] ps = true) : OnlyR ps a (execUciErase x0 x1 s) := by
  unfold execUciErase
  try dsimp only
  repeat' first
    | with_reducible assumption
    | with_reducible refine uciRequest_only ?_ _ _ _ (sub_of rfl hs)
    | with_reducible refine finish_only ?_ (sub_of rfl hs)
    | with_reducible refine idle_only ?_
    | split
    | (with_reducible refine Only.foldl _ (fun _ _ _ => ?_) _ _ ?_)
    | ((with_reducible apply upd_only); rotate_left; iterate 39 (first | exact Or.inr (by with_reducible rfl) | exact Or.inl (mem_of_sub hs rfl) | exact Or.inl (sub_of rfl hs) | exact Or.inr rfl | exact Or.inr ⟨rfl, rfl⟩ | exact Or.inr ⟨rfl, rfl, rfl⟩))


theorem State.uciBlocksDone_only (h : Only ps a s) (x1 x2 x3 x4) (hs : sub [.free, .out, .counts, .uci] ps = true) : Only ps a (State.uciBlocksDone s x1 x2 x3 x4) := by
  unfold State.uciBlocksDone
  try dsimp only
  repeat' first
    | with_reducible assumption
    | with_reducible refine State.hostWrite_only ?_ _ _ _ (sub_of rfl hs)
    | with_reducible refine State.uciStatus_only ?_ _ _ (sub_of rfl hs)
    | split
    | (with_reducible refine Only.foldl _ (fun _ _ _ => ?_) _ _ ?_)
    | ((with_reducible apply upd_only); rotate_left; iterate 39 (first | exact Or.inr (by with_reducible rfl) | exact Or.inl (mem_of_sub hs rfl) | exact Or.inl (sub_of rfl hs) | exact Or.inr rfl | exact Or.inr ⟨rfl, rfl⟩ | exact Or.inr ⟨rfl, rfl, rfl⟩))


theorem execUciRequestDone_only (h : Only ps a s) (x0 x1 x2) (hs : sub [.free, .out, .irq, .counts, .evrQueue, .uci] ps = true) : OnlyR ps a (execUciRequestDone x0 x1 x2 s) := by
  unfold execUciRequestDone
  try dsimp only
  repeat' first
    | with_reducible assumption
    | with_reducible refine idle_only ?_  (sub_of rfl hs)
    | with_reducible refine State.modUci_only ?_ _ (sub_of rfl hs)
    | with_reducible refine finish_only ?_  (sub_of rfl hs)
    | with_reducible refine State.uciBlocksDone_only ?_ _ _ _ _ (sub_of rfl hs)
    | with_reducible refine State.uciStatus_only ?_ _ _ (sub_of rfl hs)
    | with_reducible refine finish_only ?_ (sub_of rfl hs)
    | with_reducible refine idle_only ?_
    | split
    | (with_reducible refine Only.foldl _ (fun _ _ _ => ?_) _ _ ?_)
    | ((with_reducible apply upd_only); rotate_left; iterate 39 (first | exact Or.inr (by with_reducible rfl) | exact Or.inl (mem_of_sub hs rfl) | exact Or.inl (sub_of rfl hs) | exact Or.inr rfl | exact Or.inr ⟨rfl, rfl⟩ | exact Or.inr ⟨rfl, rfl, rfl⟩))


end Sys2Proof.Machine
end

