-- ==== Sys2Proof/Laws/OnlyLci.lean ====
section
/-! SUPPORT. What each operation of Machine/Lci.lean may change. -/

set_option linter.unusedTactic false
set_option linter.unreachableTactic false
set_option linter.unusedVariables false
set_option linter.unusedSimpArgs false

namespace Sys2Proof.Machine

variable {ps : List Area} {a s : State}

theorem State.lknDelta_only (h : Only ps a s) (x1 x2 x3) (hs : sub [.out, .counts, .mte] ps = true) : Only ps a (State.lknDelta s x1 x2 x3).1 := by
  unfold State.lknDelta
  try dsimp only
  repeat' first
    | with_reducible assumption
    | with_reducible refine State.delta_only ?_ _ _ (sub_of rfl hs)
    | with_reducible refine State.delta_only_of (by assumption) ?_ (sub_of rfl hs)
    | split
    | (with_reducible refine Only.foldl _ (fun _ _ _ => ?_) _ _ ?_)
    | ((with_reducible apply upd_only); rotate_left; iterate 39 (first | exact Or.inr (by with_reducible rfl) | exact Or.inl (mem_of_sub hs rfl) | exact Or.inl (sub_of rfl hs) | exact Or.inr rfl | exact Or.inr ⟨rfl, rfl⟩ | exact Or.inr ⟨rfl, rfl, rfl⟩))

theorem State.lknDelta_only_of {t : State} {x1 x2 x3} {r} (e : State.lknDelta s x1 x2 x3 = (t, r)) (h : Only ps a s) (hs : sub [.out, .counts, .mte] ps = true) : Only ps a t := by
  have := State.lknDelta_only h x1 x2 x3 hs
  rw [e] at this
  exact this


theorem State.armDelta_only (h : Only ps a s) (x1 x2) (hs : sub [.out, .counts, .mte] ps = true) : Only ps a (State.armDelta s x1 x2).1 := by
  unfold State.armDelta
  try dsimp only
  repeat' first
    | with_reducible assumption
    | with_reducible refine State.delta_only ?_ _ _ (sub_of rfl hs)
    | with_reducible refine State.delta_only_of (by assumption) ?_ (sub_of rfl hs)
    | split
    | (with_reducible refine Only.foldl _ (fun _ _ _ => ?_) _ _ ?_)
    | ((with_reducible apply upd_only); rotate_left; iterate 39 (first | exact Or.inr (by with_reducible rfl) | exact Or.inl (mem_of_sub hs rfl) | exact Or.inl (sub_of rfl hs) | exact Or.inr rfl | exact Or.inr ⟨rfl, rfl⟩ | exact Or.inr ⟨rfl, rfl, rfl⟩))

theorem State.armDelta_only_of {t : State} {x1 x2} {r} (e : State.armDelta s x1 x2 = (t, r)) (h : Only ps a s) (hs : sub [.out, .counts, .mte] ps = true) : Only ps a t := by
  have := State.armDelta_only h x1 x2 hs
  rw [e] at this
  exact this


theorem State.completeOpt_only (h : Only ps a s) (x1 x2 x3 x4 x5) (hs : sub [.counts, .evrQueue, .cur] ps = true) : Only ps a (State.completeOpt s x1 x2 x3 x4 x5) := by
  unfold State.completeOpt
  try dsimp only
  repeat' first
    | with_reducible assumption
    | with_reducible refine State.complete_only ?_ _ _ _ _ _ _ (sub_of rfl hs)
    | split
    | (with_reducible refine Only.foldl _ (fun _ _ _ => ?_) _ _ ?_)
    | ((with_reducible apply upd_only); rotate_left; iterate 39 (first | exact Or.inr (by with_reducible rfl) | exact Or.inl (mem_of_sub hs rfl) | exact Or.inl (sub_of rfl hs) | exact Or.inr rfl | exact Or.inr ⟨rfl, rfl⟩ | exact Or.inr ⟨rfl, rfl, rfl⟩))


theorem State.endHalts_only (h : Only ps a s) (x1 x2 x3) (hs : sub [.counts, .evrQueue, .cur] ps = true) : Only ps a (State.endHalts s x1 x2 x3) := by
  fun_induction State.endHalts s x1 x2 x3 <;> try dsimp only
  repeat' first
    | with_reducible assumption
    | with_reducible refine State.complete_only ?_ _ _ _ _ _ _ (sub_of rfl hs)
    | with_reducible apply_assumption -exfalso -symm
    | split
    | (with_reducible refine Only.foldl _ (fun _ _ _ => ?_) _ _ ?_)
    | ((with_reducible apply upd_only); rotate_left; iterate 39 (first | exact Or.inr (by with_reducible rfl) | exact Or.inl (mem_of_sub hs rfl) | exact Or.inl (sub_of rfl hs) | exact Or.inr rfl | exact Or.inr ⟨rfl, rfl⟩ | exact Or.inr ⟨rfl, rfl, rfl⟩))


theorem State.txDone_only (h : Only ps a s) (x1 x2 x3) (hs : sub [.out, .counts, .evrQueue, .lci, .cur, .mte] ps = true) : Only ps a (State.txDone s x1 x2 x3) := by
  unfold State.txDone
  try dsimp only
  repeat' first
    | with_reducible assumption
    | with_reducible refine State.modLkn_only ?_ _ _ _ (sub_of rfl hs)
    | with_reducible refine State.countMill_only ?_ _ _ _ _ _ (sub_of rfl hs)
    | with_reducible refine State.lknDelta_only ?_ _ _ _ (sub_of rfl hs)
    | with_reducible refine State.lknDelta_only_of (by assumption) ?_ (sub_of rfl hs)
    | with_reducible refine State.endHalts_only ?_ _ _ _ (sub_of rfl hs)
    | split
    | (with_reducible refine Only.foldl _ (fun _ _ _ => ?_) _ _ ?_)
    | ((with_reducible apply upd_only); rotate_left; iterate 39 (first | exact Or.inr (by with_reducible rfl) | exact Or.inl (mem_of_sub hs rfl) | exact Or.inl (sub_of rfl hs) | exact Or.inr rfl | exact Or.inr ⟨rfl, rfl⟩ | exact Or.inr ⟨rfl, rfl, rfl⟩))


theorem State.disarm_only (h : Only ps a s) (x1 x2) (hs : sub [.out, .counts, .evrQueue, .lci, .cur, .mte] ps = true) : Only ps a (State.disarm s x1 x2) := by
  unfold State.disarm
  try dsimp only
  repeat' first
    | with_reducible assumption
    | with_reducible refine State.modLkn_only ?_ _ _ _ (sub_of rfl hs)
    | with_reducible refine State.modLci_only ?_ _ _ (sub_of rfl hs)
    | with_reducible refine State.completeOpt_only ?_ _ _ _ _ _ (sub_of rfl hs)
    | with_reducible refine State.armDelta_only ?_ _ _ (sub_of rfl hs)
    | with_reducible refine State.armDelta_only_of (by assumption) ?_ (sub_of rfl hs)
    | with_reducible refine State.lknDelta_only ?_ _ _ _ (sub_of rfl hs)
    | with_reducible refine State.lknDelta_only_of (by assumption) ?_ (sub_of rfl hs)
    | split
    | (with_reducible refine Only.foldl _ (fun _ _ _ => ?_) _ _ ?_)
    | ((with_reducible apply upd_only); rotate_left; iterate 39 (first | exact Or.inr (by with_reducible rfl) | exact Or.inl (mem_of_sub hs rfl) | exact Or.inl (sub_of rfl hs) | exact Or.inr rfl | exact Or.inr ⟨rfl, rfl⟩ | exact Or.inr ⟨rfl, rfl, rfl⟩))


theorem State.keyChange_only (h : Only ps a s) (x1 x2 x3 x4) (hs : sub [.out, .counts, .evrQueue, .lci, .cur, .mte] ps = true) : Only ps a (State.keyChange s x1 x2 x3 x4) := by
  unfold State.keyChange
  try dsimp only
  repeat' first
    | with_reducible assumption
    | with_reducible refine State.modLkn_only ?_ _ _ _ (sub_of rfl hs)
    | with_reducible refine State.modLci_only ?_ _ _ (sub_of rfl hs)
    | with_reducible refine State.completeOpt_only ?_ _ _ _ _ _ (sub_of rfl hs)
    | with_reducible refine State.armDelta_only ?_ _ _ (sub_of rfl hs)
    | with_reducible refine State.armDelta_only_of (by assumption) ?_ (sub_of rfl hs)
    | with_reducible refine State.txDone_only ?_ _ _ _ (sub_of rfl hs)
    | with_reducible refine State.lknDelta_only ?_ _ _ _ (sub_of rfl hs)
    | with_reducible refine State.lknDelta_only_of (by assumption) ?_ (sub_of rfl hs)
    | split
    | (with_reducible refine Only.foldl _ (fun _ _ _ => ?_) _ _ ?_)
    | ((with_reducible apply upd_only); rotate_left; iterate 39 (first | exact Or.inr (by with_reducible rfl) | exact Or.inl (mem_of_sub hs rfl) | exact Or.inl (sub_of rfl hs) | exact Or.inr rfl | exact Or.inr ⟨rfl, rfl⟩ | exact Or.inr ⟨rfl, rfl, rfl⟩))


theorem State.lknReam_only (h : Only ps a s) (x1 x2) (hs : sub [.out, .counts, .evrQueue, .lci, .cur, .mte] ps = true) : Only ps a (State.lknReam s x1 x2) := by
  unfold State.lknReam
  try dsimp only
  repeat' first
    | with_reducible assumption
    | with_reducible refine State.txDone_only ?_ _ _ _ (sub_of rfl hs)
    | with_reducible refine State.keyChange_only ?_ _ _ _ _ (sub_of rfl hs)
    | split
    | (with_reducible refine Only.foldl _ (fun _ _ _ => ?_) _ _ ?_)
    | ((with_reducible apply upd_only); rotate_left; iterate 39 (first | exact Or.inr (by with_reducible rfl) | exact Or.inl (mem_of_sub hs rfl) | exact Or.inl (sub_of rfl hs) | exact Or.inr rfl | exact Or.inr ⟨rfl, rfl⟩ | exact Or.inr ⟨rfl, rfl, rfl⟩))


theorem State.lknStop_only (h : Only ps a s) (x1) (hs : sub [.out, .counts, .evrQueue, .lci, .cur, .mte] ps = true) : Only ps a (State.lknStop s x1) := by
  unfold State.lknStop
  try dsimp only
  repeat' first
    | with_reducible assumption
    | with_reducible refine State.txDone_only ?_ _ _ _ (sub_of rfl hs)
    | with_reducible refine State.disarm_only ?_ _ _ (sub_of rfl hs)
    | split
    | (with_reducible refine Only.foldl _ (fun _ _ _ => ?_) _ _ ?_)
    | ((with_reducible apply upd_only); rotate_left; iterate 39 (first | exact Or.inr (by with_reducible rfl) | exact Or.inl (mem_of_sub hs rfl) | exact Or.inl (sub_of rfl hs) | exact Or.inr rfl | exact Or.inr ⟨rfl, rfl⟩ | exact Or.inr ⟨rfl, rfl, rfl⟩))


theorem State.lknErase_only (h : Only ps a s) (x1 x2) (hs : sub [.out, .counts, .evrQueue, .lci, .cur, .mte] ps = true) : Only ps a (State.lknErase s x1 x2) := by
  unfold State.lknErase
  try dsimp only
  repeat' first
    | with_reducible assumption
    | with_reducible refine State.modLkn_only ?_ _ _ _ (sub_of rfl hs)
    | with_reducible refine State.countMill_only ?_ _ _ _ _ _ (sub_of rfl hs)
    | with_reducible refine State.modLci_only ?_ _ _ (sub_of rfl hs)
    | with_reducible refine State.lknDelta_only ?_ _ _ _ (sub_of rfl hs)
    | with_reducible refine State.lknDelta_only_of (by assumption) ?_ (sub_of rfl hs)
    | with_reducible refine State.completeOpt_only ?_ _ _ _ _ _ (sub_of rfl hs)
    | with_reducible refine State.armDelta_only ?_ _ _ (sub_of rfl hs)
    | with_reducible refine State.armDelta_only_of (by assumption) ?_ (sub_of rfl hs)
    | with_reducible refine State.endHalts_only ?_ _ _ _ (sub_of rfl hs)
    | split
    | (with_reducible refine Only.foldl _ (fun _ _ _ => ?_) _ _ ?_)
    | ((with_reducible apply upd_only); rotate_left; iterate 39 (first | exact Or.inr (by with_reducible rfl) | exact Or.inl (mem_of_sub hs rfl) | exact Or.inl (sub_of rfl hs) | exact Or.inr rfl | exact Or.inr ⟨rfl, rfl⟩ | exact Or.inr ⟨rfl, rfl, rfl⟩))


theorem State.lknEraseWhere_only (h : Only ps a s) (x1 x2 x3) (hs : sub [.out, .status, .counts, .evrQueue, .lci, .cur, .mte] ps = true) : Only ps a (State.lknEraseWhere s x1 x2 x3) := by
  fun_induction State.lknEraseWhere s x1 x2 x3 <;> try dsimp only
  repeat' first
    | with_reducible assumption
    | with_reducible refine State.setBit_only ?_ _ _ _ (Or.inr (by first | rfl | (simp; done) | decide)) (Or.inl (mem_of_sub hs rfl))
    | with_reducible refine State.lknErase_only ?_ _ _ (sub_of rfl hs)
    | with_reducible apply_assumption -exfalso -symm
    | split
    | (with_reducible refine Only.foldl _ (fun _ _ _ => ?_) _ _ ?_)
    | ((with_reducible apply upd_only); rotate_left; iterate 39 (first | exact Or.inr (by with_reducible rfl) | exact Or.inl (mem_of_sub hs rfl) | exact Or.inl (sub_of rfl hs) | exact Or.inr rfl | exact Or.inr ⟨rfl, rfl⟩ | exact Or.inr ⟨rfl, rfl, rfl⟩))


theorem State.seqQueryDue_only (h : Only ps a s) (x1 x2) (hs : sub [.line] ps = true) : Only ps a (State.seqQueryDue s x1 x2) := by
  unfold State.seqQueryDue
  try dsimp only
  repeat' first
    | with_reducible assumption
    | with_reducible refine State.ownMsg_only ?_ _ _ (sub_of rfl hs)
    | split
    | (with_reducible refine Only.foldl _ (fun _ _ _ => ?_) _ _ ?_)
    | ((with_reducible apply upd_only); rotate_left; iterate 39 (first | exact Or.inr (by with_reducible rfl) | exact Or.inl (mem_of_sub hs rfl) | exact Or.inl (sub_of rfl hs) | exact Or.inr rfl | exact Or.inr ⟨rfl, rfl⟩ | exact Or.inr ⟨rfl, rfl, rfl⟩))


theorem State.resync_only (h : Only ps a s) (x1 x2) (hs : sub [.line, .lci] ps = true) : Only ps a (State.resync s x1 x2) := by
  unfold State.resync
  try dsimp only
  repeat' first
    | with_reducible assumption
    | with_reducible refine State.modLkn_only ?_ _ _ _ (sub_of rfl hs)
    | with_reducible refine State.seqQueryDue_only ?_ _ _ (sub_of rfl hs)
    | split
    | (with_reducible refine Only.foldl _ (fun _ _ _ => ?_) _ _ ?_)
    | ((with_reducible apply upd_only); rotate_left; iterate 39 (first | exact Or.inr (by with_reducible rfl) | exact Or.inl (mem_of_sub hs rfl) | exact Or.inl (sub_of rfl hs) | exact Or.inr rfl | exact Or.inr ⟨rfl, rfl⟩ | exact Or.inr ⟨rfl, rfl, rfl⟩))


theorem applyLkarmLoad_only (h : Only ps a s) (x1 x2) (hs : sub [.out, .counts, .lci, .mte] ps = true) : Only ps a (applyLkarmLoad s x1 x2).s := by
  unfold applyLkarmLoad
  try dsimp only
  repeat' first
    | with_reducible assumption
    | with_reducible refine State.modLkn_only ?_ _ _ _ (sub_of rfl hs)
    | with_reducible refine State.lknDelta_only ?_ _ _ _ (sub_of rfl hs)
    | with_reducible refine State.lknDelta_only_of (by assumption) ?_ (sub_of rfl hs)
    | split
    | (with_reducible refine Only.foldl _ (fun _ _ _ => ?_) _ _ ?_)
    | ((with_reducible apply upd_only); rotate_left; iterate 39 (first | exact Or.inr (by with_reducible rfl) | exact Or.inl (mem_of_sub hs rfl) | exact Or.inl (sub_of rfl hs) | exact Or.inr rfl | exact Or.inr ⟨rfl, rfl⟩ | exact Or.inr ⟨rfl, rfl, rfl⟩))


theorem execLkarmLoad_only (h : Only ps a s) (x0) (hs : sub [.out, .irq, .counts, .evrQueue, .lci, .cur, .mte] ps = true) : OnlyR ps a (execLkarmLoad x0 s) := by
  unfold execLkarmLoad
  try dsimp only
  repeat' first
    | with_reducible assumption
    | with_reducible refine finish_only ?_  (sub_of rfl hs)
    | with_reducible refine idle_only ?_  (sub_of rfl hs)
    | with_reducible refine State.modRing_only ?_ _ _ (sub_of rfl hs)
    | ((with_reducible refine State.issue_only ?_ _ _ _ _ (fun _ _ _ _ => ?_) (sub_of rfl hs)); rotate_left)
    | ((with_reducible refine State.doApply_only ?_ _ _ _ _ (fun _ _ _ _ => ?_) (sub_of rfl hs)); rotate_left)
    | with_reducible refine applyLkarmLoad_only ?_ _ _ (sub_of rfl hs)
    | with_reducible refine finish_only ?_ (sub_of rfl hs)
    | with_reducible refine idle_only ?_
    | split
    | (with_reducible refine Only.foldl _ (fun _ _ _ => ?_) _ _ ?_)
    | ((with_reducible apply upd_only); rotate_left; iterate 39 (first | exact Or.inr (by with_reducible rfl) | exact Or.inl (mem_of_sub hs rfl) | exact Or.inl (sub_of rfl hs) | exact Or.inr rfl | exact Or.inr ⟨rfl, rfl⟩ | exact Or.inr ⟨rfl, rfl, rfl⟩))


theorem applyLkarmRxon_only (h : Only ps a s) (x1 x2) (hs : sub [.out, .status, .counts, .lci, .mte] ps = true) : Only ps a (applyLkarmRxon s x1 x2).s := by
  unfold applyLkarmRxon
  try dsimp only
  repeat' first
    | with_reducible assumption
    | with_reducible refine State.setBit_only ?_ _ _ _ (Or.inr (by first | rfl | (simp; done) | decide)) (Or.inl (mem_of_sub hs rfl))
    | with_reducible refine State.modLkn_only ?_ _ _ _ (sub_of rfl hs)
    | with_reducible refine State.lknDelta_only ?_ _ _ _ (sub_of rfl hs)
    | with_reducible refine State.lknDelta_only_of (by assumption) ?_ (sub_of rfl hs)
    | split
    | (with_reducible refine Only.foldl _ (fun _ _ _ => ?_) _ _ ?_)
    | ((with_reducible apply upd_only); rotate_left; iterate 39 (first | exact Or.inr (by with_reducible rfl) | exact Or.inl (mem_of_sub hs rfl) | exact Or.inl (sub_of rfl hs) | exact Or.inr rfl | exact Or.inr ⟨rfl, rfl⟩ | exact Or.inr ⟨rfl, rfl, rfl⟩))


theorem execLkarmRxon_only (h : Only ps a s) (x0) (hs : sub [.out, .status, .irq, .counts, .evrQueue, .lci, .cur, .mte] ps = true) : OnlyR ps a (execLkarmRxon x0 s) := by
  unfold execLkarmRxon
  try dsimp only
  repeat' first
    | with_reducible assumption
    | ((with_reducible refine State.issue_only ?_ _ _ _ _ (fun _ _ _ _ => ?_) (sub_of rfl hs)); rotate_left)
    | ((with_reducible refine State.doApply_only ?_ _ _ _ _ (fun _ _ _ _ => ?_) (sub_of rfl hs)); rotate_left)
    | with_reducible refine applyLkarmRxon_only ?_ _ _ (sub_of rfl hs)
    | with_reducible refine finish_only ?_ (sub_of rfl hs)
    | with_reducible refine idle_only ?_
    | split
    | (with_reducible refine Only.foldl _ (fun _ _ _ => ?_) _ _ ?_)
    | ((with_reducible apply upd_only); rotate_left; iterate 39 (first | exact Or.inr (by with_reducible rfl) | exact Or.inl (mem_of_sub hs rfl) | exact Or.inl (sub_of rfl hs) | exact Or.inr rfl | exact Or.inr ⟨rfl, rfl⟩ | exact Or.inr ⟨rfl, rfl, rfl⟩))


theorem applyLkarmRxoff_only (h : Only ps a s) (x1 x2) (hs : sub [.out, .counts, .lci, .mte] ps = true) : Only ps a (applyLkarmRxoff s x1 x2).s := by
  unfold applyLkarmRxoff
  try dsimp only
  repeat' first
    | with_reducible assumption
    | with_reducible refine State.modLkn_only ?_ _ _ _ (sub_of rfl hs)
    | with_reducible refine State.lknDelta_only ?_ _ _ _ (sub_of rfl hs)
    | with_reducible refine State.lknDelta_only_of (by assumption) ?_ (sub_of rfl hs)
    | split
    | (with_reducible refine Only.foldl _ (fun _ _ _ => ?_) _ _ ?_)
    | ((with_reducible apply upd_only); rotate_left; iterate 39 (first | exact Or.inr (by with_reducible rfl) | exact Or.inl (mem_of_sub hs rfl) | exact Or.inl (sub_of rfl hs) | exact Or.inr rfl | exact Or.inr ⟨rfl, rfl⟩ | exact Or.inr ⟨rfl, rfl, rfl⟩))


theorem execLkarmRxoff_only (h : Only ps a s) (x0) (hs : sub [.out, .irq, .counts, .evrQueue, .lci, .cur, .mte] ps = true) : OnlyR ps a (execLkarmRxoff x0 s) := by
  unfold execLkarmRxoff
  try dsimp only
  repeat' first
    | with_reducible assumption
    | ((with_reducible refine State.issue_only ?_ _ _ _ _ (fun _ _ _ _ => ?_) (sub_of rfl hs)); rotate_left)
    | ((with_reducible refine State.doApply_only ?_ _ _ _ _ (fun _ _ _ _ => ?_) (sub_of rfl hs)); rotate_left)
    | with_reducible refine applyLkarmRxoff_only ?_ _ _ (sub_of rfl hs)
    | with_reducible refine finish_only ?_ (sub_of rfl hs)
    | with_reducible refine idle_only ?_
    | split
    | (with_reducible refine Only.foldl _ (fun _ _ _ => ?_) _ _ ?_)
    | ((with_reducible apply upd_only); rotate_left; iterate 39 (first | exact Or.inr (by with_reducible rfl) | exact Or.inl (mem_of_sub hs rfl) | exact Or.inl (sub_of rfl hs) | exact Or.inr rfl | exact Or.inr ⟨rfl, rfl⟩ | exact Or.inr ⟨rfl, rfl, rfl⟩))


theorem State.armKey_only (h : Only ps a s) (x1 x2 x3 x4 x5 x6) (hs : sub [.out, .status, .counts, .evrQueue, .lci, .cur, .mte] ps = true) : Only ps a (State.armKey s x1 x2 x3 x4 x5 x6) := by
  unfold State.armKey
  try dsimp only
  repeat' first
    | with_reducible assumption
    | with_reducible refine State.setBit_only ?_ _ _ _ (Or.inr (by first | rfl | (simp; done) | decide)) (Or.inl (mem_of_sub hs rfl))
    | with_reducible refine State.modLkn_only ?_ _ _ _ (sub_of rfl hs)
    | with_reducible refine State.countMill_only ?_ _ _ _ _ _ (sub_of rfl hs)
    | with_reducible refine State.modLci_only ?_ _ _ (sub_of rfl hs)
    | with_reducible refine State.accept_only ?_ _ (sub_of rfl hs)
    | with_reducible refine State.armDelta_only ?_ _ _ (sub_of rfl hs)
    | with_reducible refine State.armDelta_only_of (by assumption) ?_ (sub_of rfl hs)
    | with_reducible refine State.lknDelta_only ?_ _ _ _ (sub_of rfl hs)
    | with_reducible refine State.lknDelta_only_of (by assumption) ?_ (sub_of rfl hs)
    | with_reducible refine State.keyChange_only ?_ _ _ _ _ (sub_of rfl hs)
    | split
    | (with_reducible refine Only.foldl _ (fun _ _ _ => ?_) _ _ ?_)
    | ((with_reducible apply upd_only); rotate_left; iterate 39 (first | exact Or.inr (by with_reducible rfl) | exact Or.inl (mem_of_sub hs rfl) | exact Or.inl (sub_of rfl hs) | exact Or.inr rfl | exact Or.inr ⟨rfl, rfl⟩ | exact Or.inr ⟨rfl, rfl, rfl⟩))


theorem State.runArmReam_only (h : Only ps a s) (x1 x2) (hs : sub [.out, .status, .counts, .evrQueue, .lci, .cur, .mte] ps = true) : Only ps a (State.runArmReam s x1 x2) := by
  unfold State.runArmReam
  try dsimp only
  repeat' first
    | with_reducible assumption
    | with_reducible refine State.complete_only ?_ _ _ _ _ _ _ (sub_of rfl hs)
    | with_reducible refine State.armKey_only ?_ _ _ _ _ _ _ (sub_of rfl hs)
    | split
    | (with_reducible refine Only.foldl _ (fun _ _ _ => ?_) _ _ ?_)
    | ((with_reducible apply upd_only); rotate_left; iterate 39 (first | exact Or.inr (by with_reducible rfl) | exact Or.inl (mem_of_sub hs rfl) | exact Or.inl (sub_of rfl hs) | exact Or.inr rfl | exact Or.inr ⟨rfl, rfl⟩ | exact Or.inr ⟨rfl, rfl, rfl⟩))


theorem execLkarmArmReam_only (h : Only ps a s) (x0) (hs : sub [.out, .status, .irq, .counts, .evrQueue, .lci, .cur, .mte] ps = true) : OnlyR ps a (execLkarmArmReam x0 s) := by
  unfold execLkarmArmReam
  try dsimp only
  repeat' first
    | with_reducible assumption
    | ((with_reducible refine State.issue_only ?_ _ _ _ _ (fun _ _ _ _ => ?_) (sub_of rfl hs)); rotate_left)
    | with_reducible refine State.runArmReam_only ?_ _ _ (sub_of rfl hs)
    | with_reducible refine finish_only ?_ (sub_of rfl hs)
    | with_reducible refine idle_only ?_
    | split
    | (with_reducible refine Only.foldl _ (fun _ _ _ => ?_) _ _ ?_)
    | ((with_reducible apply upd_only); rotate_left; iterate 39 (first | exact Or.inr (by with_reducible rfl) | exact Or.inl (mem_of_sub hs rfl) | exact Or.inl (sub_of rfl hs) | exact Or.inr rfl | exact Or.inr ⟨rfl, rfl⟩ | exact Or.inr ⟨rfl, rfl, rfl⟩))


theorem State.runArmTime_only (h : Only ps a s) (x1 x2) (hs : sub [.out, .status, .counts, .evrQueue, .lci, .cur, .mte] ps = true) : Only ps a (State.runArmTime s x1 x2) := by
  unfold State.runArmTime
  try dsimp only
  repeat' first
    | with_reducible assumption
    | with_reducible refine State.complete_only ?_ _ _ _ _ _ _ (sub_of rfl hs)
    | with_reducible refine State.armKey_only ?_ _ _ _ _ _ _ (sub_of rfl hs)
    | split
    | (with_reducible refine Only.foldl _ (fun _ _ _ => ?_) _ _ ?_)
    | ((with_reducible apply upd_only); rotate_left; iterate 39 (first | exact Or.inr (by with_reducible rfl) | exact Or.inl (mem_of_sub hs rfl) | exact Or.inl (sub_of rfl hs) | exact Or.inr rfl | exact Or.inr ⟨rfl, rfl⟩ | exact Or.inr ⟨rfl, rfl, rfl⟩))


theorem execLkarmArmTime_only (h : Only ps a s) (x0) (hs : sub [.out, .status, .irq, .counts, .evrQueue, .lci, .cur, .mte] ps = true) : OnlyR ps a (execLkarmArmTime x0 s) := by
  unfold execLkarmArmTime
  try dsimp only
  repeat' first
    | with_reducible assumption
    | ((with_reducible refine State.issue_only ?_ _ _ _ _ (fun _ _ _ _ => ?_) (sub_of rfl hs)); rotate_left)
    | with_reducible refine State.runArmTime_only ?_ _ _ (sub_of rfl hs)
    | with_reducible refine finish_only ?_ (sub_of rfl hs)
    | with_reducible refine idle_only ?_
    | split
    | (with_reducible refine Only.foldl _ (fun _ _ _ => ?_) _ _ ?_)
    | ((with_reducible apply upd_only); rotate_left; iterate 39 (first | exact Or.inr (by with_reducible rfl) | exact Or.inl (mem_of_sub hs rfl) | exact Or.inl (sub_of rfl hs) | exact Or.inr rfl | exact Or.inr ⟨rfl, rfl⟩ | exact Or.inr ⟨rfl, rfl, rfl⟩))


theorem applyLkarmCancel_only (h : Only ps a s) (x1 x2) (hs : sub [.out, .counts, .evrQueue, .lci, .cur, .mte] ps = true) : Only ps a (applyLkarmCancel s x1 x2).s := by
  unfold applyLkarmCancel
  try dsimp only
  repeat' first
    | with_reducible assumption
    | with_reducible refine State.disarm_only ?_ _ _ (sub_of rfl hs)
    | split
    | (with_reducible refine Only.foldl _ (fun _ _ _ => ?_) _ _ ?_)
    | ((with_reducible apply upd_only); rotate_left; iterate 39 (first | exact Or.inr (by with_reducible rfl) | exact Or.inl (mem_of_sub hs rfl) | exact Or.inl (sub_of rfl hs) | exact Or.inr rfl | exact Or.inr ⟨rfl, rfl⟩ | exact Or.inr ⟨rfl, rfl, rfl⟩))


theorem execLkarmCancel_only (h : Only ps a s) (x0) (hs : sub [.out, .irq, .counts, .evrQueue, .lci, .cur, .mte] ps = true) : OnlyR ps a (execLkarmCancel x0 s) := by
  unfold execLkarmCancel
  try dsimp only
  repeat' first
    | with_reducible assumption
    | ((with_reducible refine State.issue_only ?_ _ _ _ _ (fun _ _ _ _ => ?_) (sub_of rfl hs)); rotate_left)
    | ((with_reducible refine State.doApply_only ?_ _ _ _ _ (fun _ _ _ _ => ?_) (sub_of rfl hs)); rotate_left)
    | with_reducible refine applyLkarmCancel_only ?_ _ _ (sub_of rfl hs)
    | with_reducible refine finish_only ?_ (sub_of rfl hs)
    | with_reducible refine idle_only ?_
    | split
    | (with_reducible refine Only.foldl _ (fun _ _ _ => ?_) _ _ ?_)
    | ((with_reducible apply upd_only); rotate_left; iterate 39 (first | exact Or.inr (by with_reducible rfl) | exact Or.inl (mem_of_sub hs rfl) | exact Or.inl (sub_of rfl hs) | exact Or.inr rfl | exact Or.inr ⟨rfl, rfl⟩ | exact Or.inr ⟨rfl, rfl, rfl⟩))


theorem applyLkarmResync_only (h : Only ps a s) (x1 x2) (hs : sub [.line, .lci] ps = true) : Only ps a (applyLkarmResync s x1 x2).s := by
  unfold applyLkarmResync
  try dsimp only
  repeat' first
    | with_reducible assumption
    | with_reducible refine State.resync_only ?_ _ _ (sub_of rfl hs)
    | split
    | (with_reducible refine Only.foldl _ (fun _ _ _ => ?_) _ _ ?_)
    | ((with_reducible apply upd_only); rotate_left; iterate 39 (first | exact Or.inr (by with_reducible rfl) | exact Or.inl (mem_of_sub hs rfl) | exact Or.inl (sub_of rfl hs) | exact Or.inr rfl | exact Or.inr ⟨rfl, rfl⟩ | exact Or.inr ⟨rfl, rfl, rfl⟩))


theorem execLkarmResync_only (h : Only ps a s) (x0) (hs : sub [.out, .irq, .counts, .evrQueue, .line, .lci, .cur] ps = true) : OnlyR ps a (execLkarmResync x0 s) := by
  unfold execLkarmResync
  try dsimp only
  repeat' first
    | with_reducible assumption
    | ((with_reducible refine State.issue_only ?_ _ _ _ _ (fun _ _ _ _ => ?_) (sub_of rfl hs)); rotate_left)
    | ((with_reducible refine State.doApply_only ?_ _ _ _ _ (fun _ _ _ _ => ?_) (sub_of rfl hs)); rotate_left)
    | with_reducible refine applyLkarmResync_only ?_ _ _ (sub_of rfl hs)
    | with_reducible refine finish_only ?_ (sub_of rfl hs)
    | with_reducible refine idle_only ?_
    | split
    | (with_reducible refine Only.foldl _ (fun _ _ _ => ?_) _ _ ?_)
    | ((with_reducible apply upd_only); rotate_left; iterate 39 (first | exact Or.inr (by with_reducible rfl) | exact Or.inl (mem_of_sub hs rfl) | exact Or.inl (sub_of rfl hs) | exact Or.inr rfl | exact Or.inr ⟨rfl, rfl⟩ | exact Or.inr ⟨rfl, rfl, rfl⟩))


theorem State.runHalt_only (h : Only ps a s) (x1 x2) (hs : sub [.out, .counts, .evrQueue, .lci, .cur, .mte] ps = true) : Only ps a (State.runHalt s x1 x2) := by
  unfold State.runHalt
  try dsimp only
  repeat' first
    | with_reducible assumption
    | with_reducible refine State.modLkn_only ?_ _ _ _ (sub_of rfl hs)
    | with_reducible refine State.complete_only ?_ _ _ _ _ _ _ (sub_of rfl hs)
    | with_reducible refine State.accept_only ?_ _ (sub_of rfl hs)
    | with_reducible refine State.txDone_only ?_ _ _ _ (sub_of rfl hs)
    | split
    | (with_reducible refine Only.foldl _ (fun _ _ _ => ?_) _ _ ?_)
    | ((with_reducible apply upd_only); rotate_left; iterate 39 (first | exact Or.inr (by with_reducible rfl) | exact Or.inl (mem_of_sub hs rfl) | exact Or.inl (sub_of rfl hs) | exact Or.inr rfl | exact Or.inr ⟨rfl, rfl⟩ | exact Or.inr ⟨rfl, rfl, rfl⟩))


theorem execLkarmHalt_only (h : Only ps a s) (x0) (hs : sub [.out, .irq, .counts, .evrQueue, .lci, .cur, .mte] ps = true) : OnlyR ps a (execLkarmHalt x0 s) := by
  unfold execLkarmHalt
  try dsimp only
  repeat' first
    | with_reducible assumption
    | ((with_reducible refine State.issue_only ?_ _ _ _ _ (fun _ _ _ _ => ?_) (sub_of rfl hs)); rotate_left)
    | with_reducible refine State.runHalt_only ?_ _ _ (sub_of rfl hs)
    | with_reducible refine finish_only ?_ (sub_of rfl hs)
    | with_reducible refine idle_only ?_
    | split
    | (with_reducible refine Only.foldl _ (fun _ _ _ => ?_) _ _ ?_)
    | ((with_reducible apply upd_only); rotate_left; iterate 39 (first | exact Or.inr (by with_reducible rfl) | exact Or.inl (mem_of_sub hs rfl) | exact Or.inl (sub_of rfl hs) | exact Or.inr rfl | exact Or.inr ⟨rfl, rfl⟩ | exact Or.inr ⟨rfl, rfl, rfl⟩))


theorem applyLkretire_only (h : Only ps a s) (x1 x2) (hs : sub [.out, .counts, .lci, .mte] ps = true) : Only ps a (applyLkretire s x1 x2).s := by
  unfold applyLkretire
  try dsimp only
  repeat' first
    | with_reducible assumption
    | with_reducible refine State.modLkn_only ?_ _ _ _ (sub_of rfl hs)
    | with_reducible refine State.lknDelta_only ?_ _ _ _ (sub_of rfl hs)
    | with_reducible refine State.lknDelta_only_of (by assumption) ?_ (sub_of rfl hs)
    | split
    | (with_reducible refine Only.foldl _ (fun _ _ _ => ?_) _ _ ?_)
    | ((with_reducible apply upd_only); rotate_left; iterate 39 (first | exact Or.inr (by with_reducible rfl) | exact Or.inl (mem_of_sub hs rfl) | exact Or.inl (sub_of rfl hs) | exact Or.inr rfl | exact Or.inr ⟨rfl, rfl⟩ | exact Or.inr ⟨rfl, rfl, rfl⟩))


theorem execLkretire_only (h : Only ps a s) (x0) (hs : sub [.out, .irq, .counts, .evrQueue, .lci, .cur, .mte] ps = true) : OnlyR ps a (execLkretire x0 s) := by
  unfold execLkretire
  try dsimp only
  repeat' first
    | with_reducible assumption
    | ((with_reducible refine State.issue_only ?_ _ _ _ _ (fun _ _ _ _ => ?_) (sub_of rfl hs)); rotate_left)
    | ((with_reducible refine State.doApply_only ?_ _ _ _ _ (fun _ _ _ _ => ?_) (sub_of rfl hs)); rotate_left)
    | with_reducible refine applyLkretire_only ?_ _ _ (sub_of rfl hs)
    | with_reducible refine finish_only ?_ (sub_of rfl hs)
    | with_reducible refine idle_only ?_
    | split
    | (with_reducible refine Only.foldl _ (fun _ _ _ => ?_) _ _ ?_)
    | ((with_reducible apply upd_only); rotate_left; iterate 39 (first | exact Or.inr (by with_reducible rfl) | exact Or.inl (mem_of_sub hs rfl) | exact Or.inl (sub_of rfl hs) | exact Or.inr rfl | exact Or.inr ⟨rfl, rfl⟩ | exact Or.inr ⟨rfl, rfl, rfl⟩))


theorem State.tbArmsLost_only (h : Only ps a s) (x1 x2) (hs : sub [.out, .counts, .evrQueue, .lci, .cur, .mte] ps = true) : Only ps a (State.tbArmsLost s x1 x2) := by
  fun_induction State.tbArmsLost s x1 x2 <;> try dsimp only
  repeat' first
    | with_reducible assumption
    | with_reducible refine State.disarm_only ?_ _ _ (sub_of rfl hs)
    | with_reducible apply_assumption -exfalso -symm
    | split
    | (with_reducible refine Only.foldl _ (fun _ _ _ => ?_) _ _ ?_)
    | ((with_reducible apply upd_only); rotate_left; iterate 39 (first | exact Or.inr (by with_reducible rfl) | exact Or.inl (mem_of_sub hs rfl) | exact Or.inl (sub_of rfl hs) | exact Or.inr rfl | exact Or.inr ⟨rfl, rfl⟩ | exact Or.inr ⟨rfl, rfl, rfl⟩))


theorem State.tbStop_only (h : Only ps a s) (x1) (hs : sub [.out, .status, .counts, .evrQueue, .lci, .cur, .mte] ps = true) : Only ps a (State.tbStop s x1) := by
  unfold State.tbStop
  try dsimp only
  repeat' first
    | with_reducible assumption
    | with_reducible refine State.setBit_only ?_ _ _ _ (Or.inr (by first | rfl | (simp; done) | decide)) (Or.inl (mem_of_sub hs rfl))
    | with_reducible refine State.tbArmsLost_only ?_ _ _ (sub_of rfl hs)
    | split
    | (with_reducible refine Only.foldl _ (fun _ _ _ => ?_) _ _ ?_)
    | ((with_reducible apply upd_only); rotate_left; iterate 39 (first | exact Or.inr (by with_reducible rfl) | exact Or.inl (mem_of_sub hs rfl) | exact Or.inl (sub_of rfl hs) | exact Or.inr rfl | exact Or.inr ⟨rfl, rfl⟩ | exact Or.inr ⟨rfl, rfl, rfl⟩))


theorem execTbRunClear_only (h : Only ps a s) (x0) (hs : sub [.out, .status, .irq, .counts, .evrQueue, .lci, .cur, .mte] ps = true) : OnlyR ps a (execTbRunClear x0 s) := by
  unfold execTbRunClear
  try dsimp only
  repeat' first
    | with_reducible assumption
    | with_reducible refine idle_only ?_  (sub_of rfl hs)
    | with_reducible refine finish_only ?_  (sub_of rfl hs)
    | with_reducible refine State.tbStop_only ?_ _ (sub_of rfl hs)
    | with_reducible refine finish_only ?_ (sub_of rfl hs)
    | with_reducible refine idle_only ?_
    | split
    | (with_reducible refine Only.foldl _ (fun _ _ _ => ?_) _ _ ?_)
    | ((with_reducible apply upd_only); rotate_left; iterate 39 (first | exact Or.inr (by with_reducible rfl) | exact Or.inl (mem_of_sub hs rfl) | exact Or.inl (sub_of rfl hs) | exact Or.inr rfl | exact Or.inr ⟨rfl, rfl⟩ | exact Or.inr ⟨rfl, rfl, rfl⟩))


end Sys2Proof.Machine
end

