-- ==== Sys2Proof/Laws/OnlyBus.lean ====
section
/-! SUPPORT. What each operation of Machine/Bus.lean may change. -/

set_option linter.unusedTactic false
set_option linter.unreachableTactic false
set_option linter.unusedVariables false
set_option linter.unusedSimpArgs false

namespace Sys2Proof.Machine

variable {ps : List Area} {a s : State}

theorem State.modChan_only (h : Only ps a s) (x1 x2) (hs : sub [.mem] ps = true) : Only ps a (State.modChan s x1 x2) := by
  unfold State.modChan
  try dsimp only
  repeat' first
    | with_reducible assumption
    | with_reducible refine State.modMem_only ?_ _ (sub_of rfl hs)
    | split
    | (with_reducible refine Only.foldl _ (fun _ _ _ => ?_) _ _ ?_)
    | ((with_reducible apply upd_only); rotate_left; iterate 39 (first | exact Or.inr (by with_reducible rfl) | exact Or.inl (mem_of_sub hs rfl) | exact Or.inl (sub_of rfl hs) | exact Or.inr rfl | exact Or.inr ⟨rfl, rfl⟩ | exact Or.inr ⟨rfl, rfl, rfl⟩))


theorem State.modRgn_only (h : Only ps a s) (x1 x2) (hs : sub [.mem] ps = true) : Only ps a (State.modRgn s x1 x2) := by
  unfold State.modRgn
  try dsimp only
  repeat' first
    | with_reducible assumption
    | with_reducible refine State.modMem_only ?_ _ (sub_of rfl hs)
    | split
    | (with_reducible refine Only.foldl _ (fun _ _ _ => ?_) _ _ ?_)
    | ((with_reducible apply upd_only); rotate_left; iterate 39 (first | exact Or.inr (by with_reducible rfl) | exact Or.inl (mem_of_sub hs rfl) | exact Or.inl (sub_of rfl hs) | exact Or.inr rfl | exact Or.inr ⟨rfl, rfl⟩ | exact Or.inr ⟨rfl, rfl, rfl⟩))


theorem State.memPush_only (h : Only ps a s) (x1) (hs : sub [.mem] ps = true) : Only ps a (State.memPush s x1) := by
  unfold State.memPush
  try dsimp only
  repeat' first
    | with_reducible assumption
    | with_reducible refine State.modChan_only ?_ _ _ (sub_of rfl hs)
    | split
    | (with_reducible refine Only.foldl _ (fun _ _ _ => ?_) _ _ ?_)
    | ((with_reducible apply upd_only); rotate_left; iterate 39 (first | exact Or.inr (by with_reducible rfl) | exact Or.inl (mem_of_sub hs rfl) | exact Or.inl (sub_of rfl hs) | exact Or.inr rfl | exact Or.inr ⟨rfl, rfl⟩ | exact Or.inr ⟨rfl, rfl, rfl⟩))


theorem State.pushLines_only (h : Only ps a s) (x1 x2 x3) (hs : sub [.mem] ps = true) : Only ps a (State.pushLines s x1 x2 x3) := by
  unfold State.pushLines
  try dsimp only
  repeat' first
    | with_reducible assumption
    | with_reducible refine State.modMem_only ?_ _ (sub_of rfl hs)
    | with_reducible refine State.memPush_only ?_ _ (sub_of rfl hs)
    | split
    | (with_reducible refine Only.foldl _ (fun _ _ _ => ?_) _ _ ?_)
    | ((with_reducible apply upd_only); rotate_left; iterate 39 (first | exact Or.inr (by with_reducible rfl) | exact Or.inl (mem_of_sub hs rfl) | exact Or.inl (sub_of rfl hs) | exact Or.inr rfl | exact Or.inr ⟨rfl, rfl⟩ | exact Or.inr ⟨rfl, rfl, rfl⟩))


theorem State.pushCtx_only (h : Only ps a s) (x1 x2 x3) (hs : sub [.mem] ps = true) : Only ps a (State.pushCtx s x1 x2 x3) := by
  unfold State.pushCtx
  try dsimp only
  repeat' first
    | with_reducible assumption
    | with_reducible refine State.pushLines_only ?_ _ _ _ (sub_of rfl hs)
    | split
    | (with_reducible refine Only.foldl _ (fun _ _ _ => ?_) _ _ ?_)
    | ((with_reducible apply upd_only); rotate_left; iterate 39 (first | exact Or.inr (by with_reducible rfl) | exact Or.inl (mem_of_sub hs rfl) | exact Or.inl (sub_of rfl hs) | exact Or.inr rfl | exact Or.inr ⟨rfl, rfl⟩ | exact Or.inr ⟨rfl, rfl, rfl⟩))


theorem State.pageStalls_only (h : Only ps a s) (x1 x2 x3) (hs : sub [.counts, .sac] ps = true) : Only ps a (State.pageStalls s x1 x2 x3) := by
  unfold State.pageStalls
  try dsimp only
  repeat' first
    | with_reducible assumption
    | with_reducible refine State.countMill_only ?_ _ _ _ _ _ (sub_of rfl hs)
    | with_reducible refine State.modSac_only ?_ _ _ (sub_of rfl hs)
    | split
    | (with_reducible refine Only.foldl _ (fun _ _ _ => ?_) _ _ ?_)
    | ((with_reducible apply upd_only); rotate_left; iterate 39 (first | exact Or.inr (by with_reducible rfl) | exact Or.inl (mem_of_sub hs rfl) | exact Or.inl (sub_of rfl hs) | exact Or.inr rfl | exact Or.inr ⟨rfl, rfl⟩ | exact Or.inr ⟨rfl, rfl, rfl⟩))


theorem State.pullCtx_only (h : Only ps a s) (x1 x2) (hs : sub [.counts, .mem, .sac] ps = true) : Only ps a (State.pullCtx s x1 x2) := by
  unfold State.pullCtx
  try dsimp only
  repeat' first
    | with_reducible assumption
    | with_reducible refine State.pushLines_only ?_ _ _ _ (sub_of rfl hs)
    | with_reducible refine State.pageStalls_only ?_ _ _ _ (sub_of rfl hs)
    | split
    | (with_reducible refine Only.foldl _ (fun _ _ _ => ?_) _ _ ?_)
    | ((with_reducible apply upd_only); rotate_left; iterate 39 (first | exact Or.inr (by with_reducible rfl) | exact Or.inl (mem_of_sub hs rfl) | exact Or.inl (sub_of rfl hs) | exact Or.inr rfl | exact Or.inr ⟨rfl, rfl⟩ | exact Or.inr ⟨rfl, rfl, rfl⟩))


theorem State.memAnswer_only (h : Only ps a s) (x1 x2 x3) (hs : sub [.out, .status, .mem, .sac] ps = true) : Only ps a (State.memAnswer s x1 x2 x3) := by
  unfold State.memAnswer
  split
  · exact State.modSac_only h _ _ (sub_of rfl hs)
  · have h1 := State.modMem_only (s := s) h (fun x => { x with winBusy := false, winStatus := x2 }) (sub_of rfl hs)
    dsimp only
    split
    · refine Only.foldl_mem _ _ _ (fun s i hi h => ?_) h1
      refine State.setReg_only h _ _ (Or.inr ?_) (Or.inl (mem_of_sub hs rfl))
      have hi' : i < 8 := List.mem_range.mp hi
      revert i
      decide
    · exact h1
  · exact State.emit_only h _ (sub_of rfl hs)
  · exact h

theorem State.answerAll_only (h : Only ps a s) (x1 x2) (hs : sub [.out, .status, .mem, .sac] ps = true) : Only ps a (State.answerAll s x1 x2) := by
  fun_induction State.answerAll s x1 x2 <;> try dsimp only
  repeat' first
    | with_reducible assumption
    | with_reducible refine State.memAnswer_only ?_ _ _ _ (sub_of rfl hs)
    | with_reducible apply_assumption -exfalso -symm
    | split
    | (with_reducible refine Only.foldl _ (fun _ _ _ => ?_) _ _ ?_)
    | ((with_reducible apply upd_only); rotate_left; iterate 39 (first | exact Or.inr (by with_reducible rfl) | exact Or.inl (mem_of_sub hs rfl) | exact Or.inl (sub_of rfl hs) | exact Or.inr rfl | exact Or.inr ⟨rfl, rfl⟩ | exact Or.inr ⟨rfl, rfl, rfl⟩))


theorem State.failPending_only (h : Only ps a s) (x1 x2) (hs : sub [.out, .status, .mem, .sac] ps = true) : Only ps a (State.failPending s x1 x2) := by
  fun_induction State.failPending s x1 x2 <;> try dsimp only
  repeat' first
    | with_reducible assumption
    | with_reducible refine State.modChan_only ?_ _ _ (sub_of rfl hs)
    | with_reducible refine State.answerAll_only ?_ _ _ (sub_of rfl hs)
    | with_reducible apply_assumption -exfalso -symm
    | split
    | (with_reducible refine Only.foldl _ (fun _ _ _ => ?_) _ _ ?_)
    | ((with_reducible apply upd_only); rotate_left; iterate 39 (first | exact Or.inr (by with_reducible rfl) | exact Or.inl (mem_of_sub hs rfl) | exact Or.inl (sub_of rfl hs) | exact Or.inr rfl | exact Or.inr ⟨rfl, rfl⟩ | exact Or.inr ⟨rfl, rfl, rfl⟩))


theorem State.rgnErase_only (h : Only ps a s) (x1) (hs : sub [.out, .status, .mem, .sac] ps = true) : Only ps a (State.rgnErase s x1) := by
  unfold State.rgnErase
  try dsimp only
  repeat' first
    | with_reducible assumption
    | with_reducible refine State.failPending_only ?_ _ _ (sub_of rfl hs)
    | with_reducible refine State.modRgn_only ?_ _ _ (sub_of rfl hs)
    | split
    | (with_reducible refine Only.foldl _ (fun _ _ _ => ?_) _ _ ?_)
    | ((with_reducible apply upd_only); rotate_left; iterate 39 (first | exact Or.inr (by with_reducible rfl) | exact Or.inl (mem_of_sub hs rfl) | exact Or.inl (sub_of rfl hs) | exact Or.inr rfl | exact Or.inr ⟨rfl, rfl⟩ | exact Or.inr ⟨rfl, rfl, rfl⟩))


theorem State.rgnEraseWhere_only (h : Only ps a s) (x1 x2) (hs : sub [.out, .status, .mem, .sac] ps = true) : Only ps a (State.rgnEraseWhere s x1 x2) := by
  fun_induction State.rgnEraseWhere s x1 x2 <;> try dsimp only
  repeat' first
    | with_reducible assumption
    | with_reducible refine State.rgnErase_only ?_ _ (sub_of rfl hs)
    | with_reducible apply_assumption -exfalso -symm
    | split
    | (with_reducible refine Only.foldl _ (fun _ _ _ => ?_) _ _ ?_)
    | ((with_reducible apply upd_only); rotate_left; iterate 39 (first | exact Or.inr (by with_reducible rfl) | exact Or.inl (mem_of_sub hs rfl) | exact Or.inl (sub_of rfl hs) | exact Or.inr rfl | exact Or.inr ⟨rfl, rfl⟩ | exact Or.inr ⟨rfl, rfl, rfl⟩))


end Sys2Proof.Machine
end

