-- ==== Sys2Proof/Laws/OnlyBuffers.lean ====
section
/-! SUPPORT. What each operation of Machine/Buffers.lean may change. -/

set_option linter.unusedTactic false
set_option linter.unreachableTactic false
set_option linter.unusedVariables false
set_option linter.unusedSimpArgs false

namespace Sys2Proof.Machine

variable {ps : List Area} {a s : State}

theorem State.portOut_only (h : Only ps a s) (x1 x2) (hs : sub [.out] ps = true) : Only ps a (State.portOut s x1 x2) := by
  unfold State.portOut
  try dsimp only
  repeat' first
    | with_reducible assumption
    | with_reducible refine State.emit_only ?_ _ (sub_of rfl hs)
    | split
    | (with_reducible refine Only.foldl _ (fun _ _ _ => ?_) _ _ ?_)
    | ((with_reducible apply upd_only); rotate_left; iterate 39 (first | exact Or.inr (by with_reducible rfl) | exact Or.inl (mem_of_sub hs rfl) | exact Or.inl (sub_of rfl hs) | exact Or.inr rfl | exact Or.inr ⟨rfl, rfl⟩ | exact Or.inr ⟨rfl, rfl, rfl⟩))


theorem State.sendControl_only (h : Only ps a s) (x1 x2 x3) (hs : sub [.out, .counts] ps = true) : Only ps a (State.sendControl s x1 x2 x3) := by
  unfold State.sendControl
  try dsimp only
  repeat' first
    | with_reducible assumption
    | with_reducible refine State.countMill_only ?_ _ _ _ _ _ (sub_of rfl hs)
    | with_reducible refine State.portOut_only ?_ _ _ (sub_of rfl hs)
    | split
    | (with_reducible refine Only.foldl _ (fun _ _ _ => ?_) _ _ ?_)
    | ((with_reducible apply upd_only); rotate_left; iterate 39 (first | exact Or.inr (by with_reducible rfl) | exact Or.inl (mem_of_sub hs rfl) | exact Or.inl (sub_of rfl hs) | exact Or.inr rfl | exact Or.inr ⟨rfl, rfl⟩ | exact Or.inr ⟨rfl, rfl, rfl⟩))


theorem State.fcCheck_only (h : Only ps a s) (x1 x2) (hs : sub [.out, .counts, .ports] ps = true) : Only ps a (State.fcCheck s x1 x2) := by
  unfold State.fcCheck
  try dsimp only
  repeat' first
    | with_reducible assumption
    | with_reducible refine State.modPort_only ?_ _ _ (sub_of rfl hs)
    | with_reducible refine State.sendControl_only ?_ _ _ _ (sub_of rfl hs)
    | split
    | (with_reducible refine Only.foldl _ (fun _ _ _ => ?_) _ _ ?_)
    | ((with_reducible apply upd_only); rotate_left; iterate 39 (first | exact Or.inr (by with_reducible rfl) | exact Or.inl (mem_of_sub hs rfl) | exact Or.inl (sub_of rfl hs) | exact Or.inr rfl | exact Or.inr ⟨rfl, rfl⟩ | exact Or.inr ⟨rfl, rfl, rfl⟩))


theorem State.holdPri_only (h : Only ps a s) (x1 x2 x3 x4) (hs : sub [.out, .counts, .ports] ps = true) : Only ps a (State.holdPri s x1 x2 x3 x4) := by
  unfold State.holdPri
  try dsimp only
  repeat' first
    | with_reducible assumption
    | with_reducible refine State.modPort_only ?_ _ _ (sub_of rfl hs)
    | with_reducible refine State.fcCheck_only ?_ _ _ (sub_of rfl hs)
    | split
    | (with_reducible refine Only.foldl _ (fun _ _ _ => ?_) _ _ ?_)
    | ((with_reducible apply upd_only); rotate_left; iterate 39 (first | exact Or.inr (by with_reducible rfl) | exact Or.inl (mem_of_sub hs rfl) | exact Or.inl (sub_of rfl hs) | exact Or.inr rfl | exact Or.inr ⟨rfl, rfl⟩ | exact Or.inr ⟨rfl, rfl, rfl⟩))


theorem State.setOld_only (h : Only ps a s) (x1 x2) (hs : sub [.tribOld] ps = true) : Only ps a (State.setOld s x1 x2) := by
  unfold State.setOld
  try dsimp only
  repeat' first
    | with_reducible assumption
    | split
    | (with_reducible refine Only.foldl _ (fun _ _ _ => ?_) _ _ ?_)
    | ((with_reducible apply upd_only); rotate_left; iterate 39 (first | exact Or.inr (by with_reducible rfl) | exact Or.inl (mem_of_sub hs rfl) | exact Or.inl (sub_of rfl hs) | exact Or.inr rfl | exact Or.inr ⟨rfl, rfl⟩ | exact Or.inr ⟨rfl, rfl, rfl⟩))


theorem State.modTribIn_only (h : Only ps a s) (x1 x2 x3) (hs : sub [.trib, .tribOld] ps = true) : Only ps a (State.modTribIn s x1 x2 x3) := by
  unfold State.modTribIn
  try dsimp only
  repeat' first
    | with_reducible assumption
    | with_reducible refine State.setTrib_only ?_ _ _ (sub_of rfl hs)
    | with_reducible refine State.setOld_only ?_ _ _ (sub_of rfl hs)
    | split
    | (with_reducible refine Only.foldl _ (fun _ _ _ => ?_) _ _ ?_)
    | ((with_reducible apply upd_only); rotate_left; iterate 39 (first | exact Or.inr (by with_reducible rfl) | exact Or.inl (mem_of_sub hs rfl) | exact Or.inl (sub_of rfl hs) | exact Or.inr rfl | exact Or.inr ⟨rfl, rfl⟩ | exact Or.inr ⟨rfl, rfl, rfl⟩))


theorem State.creditReturn_only (h : Only ps a s) (x1) (hs : sub [.sch, .trib] ps = true) : Only ps a (State.creditReturn s x1) := by
  unfold State.creditReturn
  try dsimp only
  repeat' first
    | with_reducible assumption
    | with_reducible refine State.modSch_only ?_ _ _ (sub_of rfl hs)
    | with_reducible refine State.modTrib_only ?_ _ _ (sub_of rfl hs)
    | split
    | (with_reducible refine Only.foldl _ (fun _ _ _ => ?_) _ _ ?_)
    | ((with_reducible apply upd_only); rotate_left; iterate 39 (first | exact Or.inr (by with_reducible rfl) | exact Or.inl (mem_of_sub hs rfl) | exact Or.inl (sub_of rfl hs) | exact Or.inr rfl | exact Or.inr ⟨rfl, rfl⟩ | exact Or.inr ⟨rfl, rfl, rfl⟩))


theorem State.wake_only (h : Only ps a s) (x1 x2) (hs : sub [.sch, .trib, .tribOld] ps = true) : Only ps a (State.wake s x1 x2) := by
  unfold State.wake
  try dsimp only
  repeat' first
    | with_reducible assumption
    | with_reducible refine State.modSch_only ?_ _ _ (sub_of rfl hs)
    | with_reducible refine State.modTribIn_only ?_ _ _ _ (sub_of rfl hs)
    | split
    | (with_reducible refine Only.foldl _ (fun _ _ _ => ?_) _ _ ?_)
    | ((with_reducible apply upd_only); rotate_left; iterate 39 (first | exact Or.inr (by with_reducible rfl) | exact Or.inl (mem_of_sub hs rfl) | exact Or.inl (sub_of rfl hs) | exact Or.inr rfl | exact Or.inr ⟨rfl, rfl⟩ | exact Or.inr ⟨rfl, rfl, rfl⟩))


theorem State.sleepTrib_only (h : Only ps a s) (x1 x2 x3) (hs : sub [.sch, .trib, .tribOld] ps = true) : Only ps a (State.sleepTrib s x1 x2 x3) := by
  unfold State.sleepTrib
  try dsimp only
  repeat' first
    | with_reducible assumption
    | with_reducible refine State.modSch_only ?_ _ _ (sub_of rfl hs)
    | with_reducible refine State.modTribIn_only ?_ _ _ _ (sub_of rfl hs)
    | split
    | (with_reducible refine Only.foldl _ (fun _ _ _ => ?_) _ _ ?_)
    | ((with_reducible apply upd_only); rotate_left; iterate 39 (first | exact Or.inr (by with_reducible rfl) | exact Or.inl (mem_of_sub hs rfl) | exact Or.inl (sub_of rfl hs) | exact Or.inr rfl | exact Or.inr ⟨rfl, rfl⟩ | exact Or.inr ⟨rfl, rfl, rfl⟩))


theorem State.unlist_only (h : Only ps a s) (x1 x2) (hs : sub [.sch] ps = true) : Only ps a (State.unlist s x1 x2) := by
  unfold State.unlist
  try dsimp only
  repeat' first
    | with_reducible assumption
    | with_reducible refine State.modSch_only ?_ _ _ (sub_of rfl hs)
    | split
    | (with_reducible refine Only.foldl _ (fun _ _ _ => ?_) _ _ ?_)
    | ((with_reducible apply upd_only); rotate_left; iterate 39 (first | exact Or.inr (by with_reducible rfl) | exact Or.inl (mem_of_sub hs rfl) | exact Or.inl (sub_of rfl hs) | exact Or.inr rfl | exact Or.inr ⟨rfl, rfl⟩ | exact Or.inr ⟨rfl, rfl, rfl⟩))


theorem State.wakeAll_only (h : Only ps a s) (x1) (hs : sub [.sch, .trib, .tribOld] ps = true) : Only ps a (State.wakeAll s x1) := by
  unfold State.wakeAll
  try dsimp only
  repeat' first
    | with_reducible assumption
    | with_reducible refine State.wake_only ?_ _ _ (sub_of rfl hs)
    | split
    | (with_reducible refine Only.foldl _ (fun _ _ _ => ?_) _ _ ?_)
    | ((with_reducible apply upd_only); rotate_left; iterate 39 (first | exact Or.inr (by with_reducible rfl) | exact Or.inl (mem_of_sub hs rfl) | exact Or.inl (sub_of rfl hs) | exact Or.inr rfl | exact Or.inr ⟨rfl, rfl⟩ | exact Or.inr ⟨rfl, rfl, rfl⟩))


theorem State.dropTx_only (h : Only ps a s) (x1) (hs : sub [.counts] ps = true) : Only ps a (State.dropTx s x1) := by
  unfold State.dropTx
  try dsimp only
  repeat' first
    | with_reducible assumption
    | with_reducible refine State.fixMill_only ?_ _ _ _ (sub_of rfl hs)
    | split
    | (with_reducible refine Only.foldl _ (fun _ _ _ => ?_) _ _ ?_)
    | ((with_reducible apply upd_only); rotate_left; iterate 39 (first | exact Or.inr (by with_reducible rfl) | exact Or.inl (mem_of_sub hs rfl) | exact Or.inl (sub_of rfl hs) | exact Or.inr rfl | exact Or.inr ⟨rfl, rfl⟩ | exact Or.inr ⟨rfl, rfl, rfl⟩))


theorem State.dropRx_only (h : Only ps a s) (x1 x2) (hs : sub [.counts, .sch, .trib] ps = true) : Only ps a (State.dropRx s x1 x2) := by
  unfold State.dropRx
  try dsimp only
  repeat' first
    | with_reducible assumption
    | with_reducible refine State.fixMill_only ?_ _ _ _ (sub_of rfl hs)
    | with_reducible refine State.creditReturn_only ?_ _ (sub_of rfl hs)
    | split
    | (with_reducible refine Only.foldl _ (fun _ _ _ => ?_) _ _ ?_)
    | ((with_reducible apply upd_only); rotate_left; iterate 39 (first | exact Or.inr (by with_reducible rfl) | exact Or.inl (mem_of_sub hs rfl) | exact Or.inl (sub_of rfl hs) | exact Or.inr rfl | exact Or.inr ⟨rfl, rfl⟩ | exact Or.inr ⟨rfl, rfl, rfl⟩))


theorem State.dropFrame_only (h : Only ps a s) (x1 x2) (hs : sub [.counts, .sch, .trib] ps = true) : Only ps a (State.dropFrame s x1 x2) := by
  unfold State.dropFrame
  try dsimp only
  repeat' first
    | with_reducible assumption
    | with_reducible refine State.dropRx_only ?_ _ _ (sub_of rfl hs)
    | with_reducible refine State.dropTx_only ?_ _ (sub_of rfl hs)
    | split
    | (with_reducible refine Only.foldl _ (fun _ _ _ => ?_) _ _ ?_)
    | ((with_reducible apply upd_only); rotate_left; iterate 39 (first | exact Or.inr (by with_reducible rfl) | exact Or.inl (mem_of_sub hs rfl) | exact Or.inl (sub_of rfl hs) | exact Or.inr rfl | exact Or.inr ⟨rfl, rfl⟩ | exact Or.inr ⟨rfl, rfl, rfl⟩))


theorem State.releaseTx_only (h : Only ps a s) (x1 x2) (hs : sub [.out, .counts, .sch, .ports] ps = true) : Only ps a (State.releaseTx s x1 x2) := by
  unfold State.releaseTx
  try dsimp only
  repeat' first
    | with_reducible assumption
    | with_reducible refine State.modSch_only ?_ _ _ (sub_of rfl hs)
    | with_reducible refine State.holdPri_only ?_ _ _ _ _ (sub_of rfl hs)
    | split
    | (with_reducible refine Only.foldl _ (fun _ _ _ => ?_) _ _ ?_)
    | ((with_reducible apply upd_only); rotate_left; iterate 39 (first | exact Or.inr (by with_reducible rfl) | exact Or.inl (mem_of_sub hs rfl) | exact Or.inl (sub_of rfl hs) | exact Or.inr rfl | exact Or.inr ⟨rfl, rfl⟩ | exact Or.inr ⟨rfl, rfl, rfl⟩))


theorem State.releaseEg_only (h : Only ps a s) (x1 x2) (hs : sub [.sch, .trib] ps = true) : Only ps a (State.releaseEg s x1 x2) := by
  unfold State.releaseEg
  try dsimp only
  repeat' first
    | with_reducible assumption
    | with_reducible refine State.modSch_only ?_ _ _ (sub_of rfl hs)
    | with_reducible refine State.creditReturn_only ?_ _ (sub_of rfl hs)
    | split
    | (with_reducible refine Only.foldl _ (fun _ _ _ => ?_) _ _ ?_)
    | ((with_reducible apply upd_only); rotate_left; iterate 39 (first | exact Or.inr (by with_reducible rfl) | exact Or.inl (mem_of_sub hs rfl) | exact Or.inl (sub_of rfl hs) | exact Or.inr rfl | exact Or.inr ⟨rfl, rfl⟩ | exact Or.inr ⟨rfl, rfl, rfl⟩))


theorem State.flushTx_only (h : Only ps a s) (x1 x2) (hs : sub [.out, .counts, .sch, .ports] ps = true) : Only ps a (State.flushTx s x1 x2) := by
  fun_induction State.flushTx s x1 x2 <;> try dsimp only
  repeat' first
    | with_reducible assumption
    | with_reducible refine State.countMill_only ?_ _ _ _ _ _ (sub_of rfl hs)
    | with_reducible refine State.dropTx_only ?_ _ (sub_of rfl hs)
    | with_reducible refine State.releaseTx_only ?_ _ _ (sub_of rfl hs)
    | with_reducible apply_assumption -exfalso -symm
    | split
    | (with_reducible refine Only.foldl _ (fun _ _ _ => ?_) _ _ ?_)
    | ((with_reducible apply upd_only); rotate_left; iterate 39 (first | exact Or.inr (by with_reducible rfl) | exact Or.inl (mem_of_sub hs rfl) | exact Or.inl (sub_of rfl hs) | exact Or.inr rfl | exact Or.inr ⟨rfl, rfl⟩ | exact Or.inr ⟨rfl, rfl, rfl⟩))


theorem State.refuseTx_only (h : Only ps a s) (x1 x2 x3) (hs : sub [.out, .counts, .ports] ps = true) : Only ps a (State.refuseTx s x1 x2 x3) := by
  unfold State.refuseTx
  try dsimp only
  repeat' first
    | with_reducible assumption
    | with_reducible refine State.holdPri_only ?_ _ _ _ _ (sub_of rfl hs)
    | with_reducible refine State.dropTx_only ?_ _ (sub_of rfl hs)
    | split
    | (with_reducible refine Only.foldl _ (fun _ _ _ => ?_) _ _ ?_)
    | ((with_reducible apply upd_only); rotate_left; iterate 39 (first | exact Or.inr (by with_reducible rfl) | exact Or.inl (mem_of_sub hs rfl) | exact Or.inl (sub_of rfl hs) | exact Or.inr rfl | exact Or.inr ⟨rfl, rfl⟩ | exact Or.inr ⟨rfl, rfl, rfl⟩))


theorem State.joinTrib_only (h : Only ps a s) (x1 x2 x3) (hs : sub [.out, .counts, .sch, .ports, .trib, .tribOld] ps = true) : Only ps a (State.joinTrib s x1 x2 x3) := by
  unfold State.joinTrib
  try dsimp only
  repeat' first
    | with_reducible assumption
    | with_reducible refine State.modSch_only ?_ _ _ (sub_of rfl hs)
    | with_reducible refine State.countMill_only ?_ _ _ _ _ _ (sub_of rfl hs)
    | with_reducible refine State.modTrib_only ?_ _ _ (sub_of rfl hs)
    | with_reducible refine State.holdPri_only ?_ _ _ _ _ (sub_of rfl hs)
    | with_reducible refine State.wake_only ?_ _ _ (sub_of rfl hs)
    | with_reducible refine State.refuseTx_only ?_ _ _ _ (sub_of rfl hs)
    | split
    | (with_reducible refine Only.foldl _ (fun _ _ _ => ?_) _ _ ?_)
    | ((with_reducible apply upd_only); rotate_left; iterate 39 (first | exact Or.inr (by with_reducible rfl) | exact Or.inl (mem_of_sub hs rfl) | exact Or.inl (sub_of rfl hs) | exact Or.inr rfl | exact Or.inr ⟨rfl, rfl⟩ | exact Or.inr ⟨rfl, rfl, rfl⟩))


theorem State.joinEgress_only (h : Only ps a s) (x1 x2) (hs : sub [.counts, .sch, .ports, .trib] ps = true) : Only ps a (State.joinEgress s x1 x2) := by
  unfold State.joinEgress
  try dsimp only
  repeat' first
    | with_reducible assumption
    | with_reducible refine State.modPort_only ?_ _ _ (sub_of rfl hs)
    | with_reducible refine State.modSch_only ?_ _ _ (sub_of rfl hs)
    | with_reducible refine State.countMill_only ?_ _ _ _ _ _ (sub_of rfl hs)
    | with_reducible refine State.dropRx_only ?_ _ _ (sub_of rfl hs)
    | split
    | (with_reducible refine Only.foldl _ (fun _ _ _ => ?_) _ _ ?_)
    | ((with_reducible apply upd_only); rotate_left; iterate 39 (first | exact Or.inr (by with_reducible rfl) | exact Or.inl (mem_of_sub hs rfl) | exact Or.inl (sub_of rfl hs) | exact Or.inr rfl | exact Or.inr ⟨rfl, rfl⟩ | exact Or.inr ⟨rfl, rfl, rfl⟩))


theorem State.sendTx_only (h : Only ps a s) (x1) (hs : sub [.out, .counts, .sch, .ports, .trib, .tribOld] ps = true) : Only ps a (State.sendTx s x1) := by
  unfold State.sendTx
  try dsimp only
  repeat' first
    | with_reducible assumption
    | with_reducible refine State.modSch_only ?_ _ _ (sub_of rfl hs)
    | with_reducible refine State.countMill_only ?_ _ _ _ _ _ (sub_of rfl hs)
    | with_reducible refine State.joinTrib_only ?_ _ _ _ (sub_of rfl hs)
    | with_reducible refine State.dropTx_only ?_ _ (sub_of rfl hs)
    | with_reducible refine State.holdPri_only ?_ _ _ _ _ (sub_of rfl hs)
    | split
    | (with_reducible refine Only.foldl _ (fun _ _ _ => ?_) _ _ ?_)
    | ((with_reducible apply upd_only); rotate_left; iterate 39 (first | exact Or.inr (by with_reducible rfl) | exact Or.inl (mem_of_sub hs rfl) | exact Or.inl (sub_of rfl hs) | exact Or.inr rfl | exact Or.inr ⟨rfl, rfl⟩ | exact Or.inr ⟨rfl, rfl, rfl⟩))


theorem State.dispatchPut_only (h : Only ps a s) (x1 x2) (hs : sub [.counts, .vat] ps = true) : Only ps a (State.dispatchPut s x1 x2) := by
  unfold State.dispatchPut
  try dsimp only
  repeat' first
    | with_reducible assumption
    | with_reducible refine State.modVat_only ?_ _ _ (sub_of rfl hs)
    | with_reducible refine State.countMill_only ?_ _ _ _ _ _ (sub_of rfl hs)
    | split
    | (with_reducible refine Only.foldl _ (fun _ _ _ => ?_) _ _ ?_)
    | ((with_reducible apply upd_only); rotate_left; iterate 39 (first | exact Or.inr (by with_reducible rfl) | exact Or.inl (mem_of_sub hs rfl) | exact Or.inl (sub_of rfl hs) | exact Or.inr rfl | exact Or.inr ⟨rfl, rfl⟩ | exact Or.inr ⟨rfl, rfl, rfl⟩))


theorem State.holdFrame_only (h : Only ps a s) (x1 x2) (hs : sub [.counts, .ports] ps = true) : Only ps a (State.holdFrame s x1 x2) := by
  unfold State.holdFrame
  try dsimp only
  repeat' first
    | with_reducible assumption
    | with_reducible refine State.modPort_only ?_ _ _ (sub_of rfl hs)
    | with_reducible refine State.dropTx_only ?_ _ (sub_of rfl hs)
    | split
    | (with_reducible refine Only.foldl _ (fun _ _ _ => ?_) _ _ ?_)
    | ((with_reducible apply upd_only); rotate_left; iterate 39 (first | exact Or.inr (by with_reducible rfl) | exact Or.inl (mem_of_sub hs rfl) | exact Or.inl (sub_of rfl hs) | exact Or.inr rfl | exact Or.inr ⟨rfl, rfl⟩ | exact Or.inr ⟨rfl, rfl, rfl⟩))


theorem State.routeDrop_only (h : Only ps a s) (x1 x2) (hs : sub [.status, .counts, .sch, .trib] ps = true) : Only ps a (State.routeDrop s x1 x2) := by
  unfold State.routeDrop
  try dsimp only
  repeat' first
    | with_reducible assumption
    | with_reducible refine State.setBit_only ?_ _ _ _ (Or.inr (by first | rfl | (simp; done) | decide)) (Or.inl (mem_of_sub hs rfl))
    | with_reducible refine State.countMill_only ?_ _ _ _ _ _ (sub_of rfl hs)
    | with_reducible refine State.dropRx_only ?_ _ _ (sub_of rfl hs)
    | split
    | (with_reducible refine Only.foldl _ (fun _ _ _ => ?_) _ _ ?_)
    | ((with_reducible apply upd_only); rotate_left; iterate 39 (first | exact Or.inr (by with_reducible rfl) | exact Or.inl (mem_of_sub hs rfl) | exact Or.inl (sub_of rfl hs) | exact Or.inr rfl | exact Or.inr ⟨rfl, rfl⟩ | exact Or.inr ⟨rfl, rfl, rfl⟩))


theorem State.deliverRx_only (h : Only ps a s) (x1 x2) (hs : sub [.status, .counts, .vat, .sch, .trib] ps = true) : Only ps a (State.deliverRx s x1 x2) := by
  unfold State.deliverRx
  try dsimp only
  repeat' first
    | with_reducible assumption
    | with_reducible refine State.modSch_only ?_ _ _ (sub_of rfl hs)
    | with_reducible refine State.dispatchPut_only ?_ _ _ (sub_of rfl hs)
    | with_reducible refine State.routeDrop_only ?_ _ _ (sub_of rfl hs)
    | split
    | (with_reducible refine Only.foldl _ (fun _ _ _ => ?_) _ _ ?_)
    | ((with_reducible apply upd_only); rotate_left; iterate 39 (first | exact Or.inr (by with_reducible rfl) | exact Or.inl (mem_of_sub hs rfl) | exact Or.inl (sub_of rfl hs) | exact Or.inr rfl | exact Or.inr ⟨rfl, rfl⟩ | exact Or.inr ⟨rfl, rfl, rfl⟩))


theorem State.refillOne_only_of {t : State} {m : Fin 4} (e : s.refillOne m = some t) (h : Only ps a s)
    (hs : sub [.counts, .vat, .sch, .ports] ps = true) : Only ps a t := by
  unfold State.refillOne at e
  split at e
  · contradiction
  · split at e
    · cases e
      exact State.dispatchPut_only (State.modSch_only h _ _ (sub_of rfl hs)) _ _ (sub_of rfl hs)
    · obtain ⟨p, -, hp⟩ := List.exists_of_findSome?_eq_some e
      split at hp
      · obtain ⟨f, -, rfl⟩ := Option.map_eq_some_iff.mp hp
        exact State.dispatchPut_only (State.modPort_only h _ _ (sub_of rfl hs)) _ _ (sub_of rfl hs)
      · contradiction

theorem State.refillMany_only (h : Only ps a s) (x1 x2) (hs : sub [.counts, .vat, .sch, .ports] ps = true) : Only ps a (State.refillMany s x1 x2) := by
  fun_induction State.refillMany s x1 x2 <;> try dsimp only
  repeat' first
    | with_reducible assumption
    | with_reducible refine State.refillOne_only ?_ _ (sub_of rfl hs)
    | with_reducible refine State.refillOne_only_of (by assumption) ?_ (sub_of rfl hs)
    | with_reducible apply_assumption -exfalso -symm
    | split
    | (with_reducible refine Only.foldl _ (fun _ _ _ => ?_) _ _ ?_)
    | ((with_reducible apply upd_only); rotate_left; iterate 39 (first | exact Or.inr (by with_reducible rfl) | exact Or.inl (mem_of_sub hs rfl) | exact Or.inl (sub_of rfl hs) | exact Or.inr rfl | exact Or.inr ⟨rfl, rfl⟩ | exact Or.inr ⟨rfl, rfl, rfl⟩))


theorem State.refill_only (h : Only ps a s) (x1) (hs : sub [.counts, .vat, .sch, .ports] ps = true) : Only ps a (State.refill s x1) := by
  unfold State.refill
  try dsimp only
  repeat' first
    | with_reducible assumption
    | with_reducible refine State.modVat_only ?_ _ _ (sub_of rfl hs)
    | with_reducible refine State.refillMany_only ?_ _ _ (sub_of rfl hs)
    | split
    | (with_reducible refine Only.foldl _ (fun _ _ _ => ?_) _ _ ?_)
    | ((with_reducible apply upd_only); rotate_left; iterate 39 (first | exact Or.inr (by with_reducible rfl) | exact Or.inl (mem_of_sub hs rfl) | exact Or.inl (sub_of rfl hs) | exact Or.inr rfl | exact Or.inr ⟨rfl, rfl⟩ | exact Or.inr ⟨rfl, rfl, rfl⟩))


theorem State.refillAll_only (h : Only ps a s) (hs : sub [.counts, .vat, .sch, .ports] ps = true) : Only ps a (State.refillAll s) := by
  unfold State.refillAll
  try dsimp only
  repeat' first
    | with_reducible assumption
    | with_reducible refine State.refill_only ?_ _ (sub_of rfl hs)
    | split
    | (with_reducible refine Only.foldl _ (fun _ _ _ => ?_) _ _ ?_)
    | ((with_reducible apply upd_only); rotate_left; iterate 39 (first | exact Or.inr (by with_reducible rfl) | exact Or.inl (mem_of_sub hs rfl) | exact Or.inl (sub_of rfl hs) | exact Or.inr rfl | exact Or.inr ⟨rfl, rfl⟩ | exact Or.inr ⟨rfl, rfl, rfl⟩))


end Sys2Proof.Machine
end

