-- ==== Sys2Proof/Laws/OnlyPtp.lean ====
section
/-! SUPPORT. What each operation of Machine/Ptp.lean may change. -/

set_option linter.unusedTactic false
set_option linter.unreachableTactic false
set_option linter.unusedVariables false
set_option linter.unusedSimpArgs false

namespace Sys2Proof.Machine

variable {ps : List Area} {a s : State}

theorem State.correct_only (h : Only ps a s) (x1 x2 x3 x4 x5 x6) (hs : sub [.counts, .tim] ps = true) : Only ps a (State.correct s x1 x2 x3 x4 x5 x6).2 := by
  unfold State.correct
  try dsimp only
  repeat' first
    | with_reducible assumption
    | with_reducible refine State.countDev_only ?_ _ _ _ _ (sub_of rfl hs)
    | with_reducible refine State.setTcTable_only ?_ _ _ (sub_of rfl hs)
    | split
    | (with_reducible refine Only.foldl _ (fun _ _ _ => ?_) _ _ ?_)
    | ((with_reducible apply upd_only); rotate_left; iterate 39 (first | exact Or.inr (by with_reducible rfl) | exact Or.inl (mem_of_sub hs rfl) | exact Or.inl (sub_of rfl hs) | exact Or.inr rfl | exact Or.inr ⟨rfl, rfl⟩ | exact Or.inr ⟨rfl, rfl, rfl⟩))

theorem State.correct_only_of {t : State} {x1 x2 x3 x4 x5 x6} {r} (e : State.correct s x1 x2 x3 x4 x5 x6 = (r, t)) (h : Only ps a s) (hs : sub [.counts, .tim] ps = true) : Only ps a t := by
  have := State.correct_only h x1 x2 x3 x4 x5 x6 hs
  rw [e] at this
  exact this


theorem State.tcNear_only (h : Only ps a s) (x1 x2 x3) (hs : sub [.counts, .tim] ps = true) : Only ps a (State.tcNear s x1 x2 x3).2 := by
  unfold State.tcNear
  try dsimp only
  repeat' first
    | with_reducible assumption
    | with_reducible refine State.correct_only ?_ _ _ _ _ _ _ (sub_of rfl hs)
    | with_reducible refine State.correct_only_of (by assumption) ?_ (sub_of rfl hs)
    | split
    | (with_reducible refine Only.foldl _ (fun _ _ _ => ?_) _ _ ?_)
    | ((with_reducible apply upd_only); rotate_left; iterate 39 (first | exact Or.inr (by with_reducible rfl) | exact Or.inl (mem_of_sub hs rfl) | exact Or.inl (sub_of rfl hs) | exact Or.inr rfl | exact Or.inr ⟨rfl, rfl⟩ | exact Or.inr ⟨rfl, rfl, rfl⟩))

theorem State.tcNear_only_of {t : State} {x1 x2 x3} {r} (e : State.tcNear s x1 x2 x3 = (r, t)) (h : Only ps a s) (hs : sub [.counts, .tim] ps = true) : Only ps a t := by
  have := State.tcNear_only h x1 x2 x3 hs
  rw [e] at this
  exact this


theorem State.tcFar_only (h : Only ps a s) (x1 x2 x3) (hs : sub [.counts, .tim] ps = true) : Only ps a (State.tcFar s x1 x2 x3).2 := by
  unfold State.tcFar
  try dsimp only
  repeat' first
    | with_reducible assumption
    | with_reducible refine State.countDev_only ?_ _ _ _ _ (sub_of rfl hs)
    | with_reducible refine State.correct_only ?_ _ _ _ _ _ _ (sub_of rfl hs)
    | with_reducible refine State.correct_only_of (by assumption) ?_ (sub_of rfl hs)
    | split
    | (with_reducible refine Only.foldl _ (fun _ _ _ => ?_) _ _ ?_)
    | ((with_reducible apply upd_only); rotate_left; iterate 39 (first | exact Or.inr (by with_reducible rfl) | exact Or.inl (mem_of_sub hs rfl) | exact Or.inl (sub_of rfl hs) | exact Or.inr rfl | exact Or.inr ⟨rfl, rfl⟩ | exact Or.inr ⟨rfl, rfl, rfl⟩))

theorem State.tcFar_only_of {t : State} {x1 x2 x3} {r} (e : State.tcFar s x1 x2 x3 = (r, t)) (h : Only ps a s) (hs : sub [.counts, .tim] ps = true) : Only ps a t := by
  have := State.tcFar_only h x1 x2 x3 hs
  rw [e] at this
  exact this


theorem State.tsCapture_only (h : Only ps a s) (x1 x2 x3) (hs : sub [.counts, .tim] ps = true) : Only ps a (State.tsCapture s x1 x2 x3) := by
  unfold State.tsCapture
  try dsimp only
  repeat' first
    | with_reducible assumption
    | with_reducible refine State.pushStamp_only ?_ _ _ (sub_of rfl hs)
    | split
    | (with_reducible refine Only.foldl _ (fun _ _ _ => ?_) _ _ ?_)
    | ((with_reducible apply upd_only); rotate_left; iterate 39 (first | exact Or.inr (by with_reducible rfl) | exact Or.inl (mem_of_sub hs rfl) | exact Or.inl (sub_of rfl hs) | exact Or.inr rfl | exact Or.inr ⟨rfl, rfl⟩ | exact Or.inr ⟨rfl, rfl, rfl⟩))


end Sys2Proof.Machine
end

