-- ==== Sys2Proof/Laws/OnlyPath.lean ====
section
/-! SUPPORT. What each operation of Machine/Path.lean may change. -/

set_option linter.unusedTactic false
set_option linter.unreachableTactic false
set_option linter.unusedVariables false
set_option linter.unusedSimpArgs false

namespace Sys2Proof.Machine

variable {ps : List Area} {a s : State}

theorem execClientFrameReceive_only (h : Only ps a s) (x0 x1 x2) (hs : sub [.out, .irq, .counts, .evrQueue, .vat, .ports] ps = true) : OnlyR ps a (execClientFrameReceive x0 x1 x2 s) := by
  unfold execClientFrameReceive
  try dsimp only
  repeat' first
    | with_reducible assumption
    | with_reducible refine finish_only ?_  (sub_of rfl hs)
    | with_reducible refine State.countMill_only ?_ _ _ _ _ _ (sub_of rfl hs)
    | with_reducible refine idle_only ?_  (sub_of rfl hs)
    | with_reducible refine State.holdFrame_only ?_ _ _ (sub_of rfl hs)
    | with_reducible refine State.dropTx_only ?_ _ (sub_of rfl hs)
    | with_reducible refine State.dispatchPut_only ?_ _ _ (sub_of rfl hs)
    | with_reducible refine finish_only ?_ (sub_of rfl hs)
    | with_reducible refine idle_only ?_
    | split
    | (with_reducible refine Only.foldl _ (fun _ _ _ => ?_) _ _ ?_)
    | ((with_reducible apply upd_only); rotate_left; iterate 39 (first | exact Or.inr (by with_reducible rfl) | exact Or.inl (mem_of_sub hs rfl) | exact Or.inl (sub_of rfl hs) | exact Or.inr rfl | exact Or.inr ⟨rfl, rfl⟩ | exact Or.inr ⟨rfl, rfl, rfl⟩))


theorem execMacControlReceive_only (h : Only ps a s) (x0 x1) (hs : sub [.out, .irq, .counts, .evrQueue, .ports] ps = true) : OnlyR ps a (execMacControlReceive x0 x1 s) := by
  unfold execMacControlReceive
  try dsimp only
  repeat' first
    | with_reducible assumption
    | with_reducible refine finish_only ?_  (sub_of rfl hs)
    | with_reducible refine State.countMill_only ?_ _ _ _ _ _ (sub_of rfl hs)
    | with_reducible refine idle_only ?_  (sub_of rfl hs)
    | with_reducible refine State.modPort_only ?_ _ _ (sub_of rfl hs)
    | with_reducible refine finish_only ?_ (sub_of rfl hs)
    | with_reducible refine idle_only ?_
    | split
    | (with_reducible refine Only.foldl _ (fun _ _ _ => ?_) _ _ ?_)
    | ((with_reducible apply upd_only); rotate_left; iterate 39 (first | exact Or.inr (by with_reducible rfl) | exact Or.inl (mem_of_sub hs rfl) | exact Or.inl (sub_of rfl hs) | exact Or.inr rfl | exact Or.inr ⟨rfl, rfl⟩ | exact Or.inr ⟨rfl, rfl, rfl⟩))


theorem execPauseExpire_only (h : Only ps a s) (x0 x1) (hs : sub [.out, .irq, .counts, .evrQueue, .ports] ps = true) : OnlyR ps a (execPauseExpire x0 x1 s) := by
  unfold execPauseExpire
  try dsimp only
  repeat' first
    | with_reducible assumption
    | with_reducible refine finish_only ?_  (sub_of rfl hs)
    | with_reducible refine idle_only ?_  (sub_of rfl hs)
    | with_reducible refine State.modPort_only ?_ _ _ (sub_of rfl hs)
    | with_reducible refine finish_only ?_ (sub_of rfl hs)
    | with_reducible refine idle_only ?_
    | split
    | (with_reducible refine Only.foldl _ (fun _ _ _ => ?_) _ _ ?_)
    | ((with_reducible apply upd_only); rotate_left; iterate 39 (first | exact Or.inr (by with_reducible rfl) | exact Or.inl (mem_of_sub hs rfl) | exact Or.inl (sub_of rfl hs) | exact Or.inr rfl | exact Or.inr ⟨rfl, rfl⟩ | exact Or.inr ⟨rfl, rfl, rfl⟩))


theorem execPfcRefresh_only (h : Only ps a s) (x0 x1) (hs : sub [.out, .irq, .counts, .evrQueue] ps = true) : OnlyR ps a (execPfcRefresh x0 x1 s) := by
  unfold execPfcRefresh
  try dsimp only
  repeat' first
    | with_reducible assumption
    | with_reducible refine finish_only ?_  (sub_of rfl hs)
    | with_reducible refine idle_only ?_  (sub_of rfl hs)
    | with_reducible refine State.sendControl_only ?_ _ _ _ (sub_of rfl hs)
    | with_reducible refine finish_only ?_ (sub_of rfl hs)
    | with_reducible refine idle_only ?_
    | split
    | (with_reducible refine Only.foldl _ (fun _ _ _ => ?_) _ _ ?_)
    | ((with_reducible apply upd_only); rotate_left; iterate 39 (first | exact Or.inr (by with_reducible rfl) | exact Or.inl (mem_of_sub hs rfl) | exact Or.inl (sub_of rfl hs) | exact Or.inr rfl | exact Or.inr ⟨rfl, rfl⟩ | exact Or.inr ⟨rfl, rfl, rfl⟩))


theorem State.hbxMove_only (h : Only ps a s) (x1 x2 x3) (hs : sub [.out, .counts, .vat, .sch, .ports, .trib, .tribOld] ps = true) : Only ps a (State.hbxMove s x1 x2 x3) := by
  unfold State.hbxMove
  try dsimp only
  repeat' first
    | with_reducible assumption
    | with_reducible refine State.modSch_only ?_ _ _ (sub_of rfl hs)
    | with_reducible refine State.countMill_only ?_ _ _ _ _ _ (sub_of rfl hs)
    | with_reducible refine State.refuseTx_only ?_ _ _ _ (sub_of rfl hs)
    | with_reducible refine State.joinTrib_only ?_ _ _ _ (sub_of rfl hs)
    | with_reducible refine State.dropRx_only ?_ _ _ (sub_of rfl hs)
    | with_reducible refine State.dispatchPut_only ?_ _ _ (sub_of rfl hs)
    | split
    | (with_reducible refine Only.foldl _ (fun _ _ _ => ?_) _ _ ?_)
    | ((with_reducible apply upd_only); rotate_left; iterate 39 (first | exact Or.inr (by with_reducible rfl) | exact Or.inl (mem_of_sub hs rfl) | exact Or.inl (sub_of rfl hs) | exact Or.inr rfl | exact Or.inr ⟨rfl, rfl⟩ | exact Or.inr ⟨rfl, rfl, rfl⟩))


theorem State.hbxWaits_only (h : Only ps a s) (x1 x2) (hs : sub [.status, .counts] ps = true) : Only ps a (State.hbxWaits s x1 x2) := by
  fun_induction State.hbxWaits s x1 x2 <;> try dsimp only
  repeat' first
    | with_reducible assumption
    | with_reducible refine State.setBit_only ?_ _ _ _ (Or.inr (by first | rfl | (simp; done) | decide)) (Or.inl (mem_of_sub hs rfl))
    | with_reducible refine State.countMill_only ?_ _ _ _ _ _ (sub_of rfl hs)
    | with_reducible apply_assumption -exfalso -symm
    | split
    | (with_reducible refine Only.foldl _ (fun _ _ _ => ?_) _ _ ?_)
    | ((with_reducible apply upd_only); rotate_left; iterate 39 (first | exact Or.inr (by with_reducible rfl) | exact Or.inl (mem_of_sub hs rfl) | exact Or.inl (sub_of rfl hs) | exact Or.inr rfl | exact Or.inr ⟨rfl, rfl⟩ | exact Or.inr ⟨rfl, rfl, rfl⟩))


theorem execHeadboxTransfer_only (h : Only ps a s) (x0) (hs : sub [.out, .status, .irq, .counts, .evrQueue, .vat, .sch, .ports, .trib, .tribOld, .hbxRr] ps = true) : OnlyR ps a (execHeadboxTransfer x0 s) := by
  unfold execHeadboxTransfer
  try dsimp only
  repeat' first
    | with_reducible assumption
    | with_reducible refine finish_only ?_  (sub_of rfl hs)
    | with_reducible refine idle_only ?_  (sub_of rfl hs)
    | with_reducible refine State.hbxMove_only ?_ _ _ _ (sub_of rfl hs)
    | with_reducible refine State.hbxWaits_only ?_ _ _ (sub_of rfl hs)
    | with_reducible refine finish_only ?_ (sub_of rfl hs)
    | with_reducible refine idle_only ?_
    | split
    | (with_reducible refine Only.foldl _ (fun _ _ _ => ?_) _ _ ?_)
    | ((with_reducible apply upd_only); rotate_left; iterate 39 (first | exact Or.inr (by with_reducible rfl) | exact Or.inl (mem_of_sub hs rfl) | exact Or.inl (sub_of rfl hs) | exact Or.inr rfl | exact Or.inr ⟨rfl, rfl⟩ | exact Or.inr ⟨rfl, rfl, rfl⟩))


theorem State.dropLong_only (h : Only ps a s) (x1 x2 x3) (hs : sub [.counts, .sch, .ports, .trib] ps = true) : Only ps a (State.dropLong s x1 x2 x3) := by
  fun_induction State.dropLong s x1 x2 x3 <;> try dsimp only
  repeat' first
    | with_reducible assumption
    | with_reducible refine State.fixMill_only ?_ _ _ _ (sub_of rfl hs)
    | with_reducible refine State.countMill_only ?_ _ _ _ _ _ (sub_of rfl hs)
    | with_reducible refine State.modPort_only ?_ _ _ (sub_of rfl hs)
    | with_reducible refine State.releaseEg_only ?_ _ _ (sub_of rfl hs)
    | with_reducible apply_assumption -exfalso -symm
    | split
    | (with_reducible refine Only.foldl _ (fun _ _ _ => ?_) _ _ ?_)
    | ((with_reducible apply upd_only); rotate_left; iterate 39 (first | exact Or.inr (by with_reducible rfl) | exact Or.inl (mem_of_sub hs rfl) | exact Or.inl (sub_of rfl hs) | exact Or.inr rfl | exact Or.inr ⟨rfl, rfl⟩ | exact Or.inr ⟨rfl, rfl, rfl⟩))


theorem State.dropAllLong_only (h : Only ps a s) (x1) (hs : sub [.counts, .sch, .ports, .trib] ps = true) : Only ps a (State.dropAllLong s x1) := by
  unfold State.dropAllLong
  try dsimp only
  repeat' first
    | with_reducible assumption
    | with_reducible refine State.dropLong_only ?_ _ _ _ (sub_of rfl hs)
    | split
    | (with_reducible refine Only.foldl _ (fun _ _ _ => ?_) _ _ ?_)
    | ((with_reducible apply upd_only); rotate_left; iterate 39 (first | exact Or.inr (by with_reducible rfl) | exact Or.inl (mem_of_sub hs rfl) | exact Or.inl (sub_of rfl hs) | exact Or.inr rfl | exact Or.inr ⟨rfl, rfl⟩ | exact Or.inr ⟨rfl, rfl, rfl⟩))


theorem State.sendFrame_only (h : Only ps a s) (x1 x2) (hs : sub [.out, .counts, .tim, .ports] ps = true) : Only ps a (State.sendFrame s x1 x2) := by
  unfold State.sendFrame
  try dsimp only
  repeat' first
    | with_reducible assumption
    | with_reducible refine State.countMill_only ?_ _ _ _ _ _ (sub_of rfl hs)
    | with_reducible refine State.modPort_only ?_ _ _ (sub_of rfl hs)
    | with_reducible refine State.portOut_only ?_ _ _ (sub_of rfl hs)
    | with_reducible refine State.tsCapture_only ?_ _ _ _ (sub_of rfl hs)
    | with_reducible refine State.tcFar_only ?_ _ _ _ (sub_of rfl hs)
    | with_reducible refine State.tcFar_only_of (by assumption) ?_ (sub_of rfl hs)
    | split
    | (with_reducible refine Only.foldl _ (fun _ _ _ => ?_) _ _ ?_)
    | ((with_reducible apply upd_only); rotate_left; iterate 39 (first | exact Or.inr (by with_reducible rfl) | exact Or.inl (mem_of_sub hs rfl) | exact Or.inl (sub_of rfl hs) | exact Or.inr rfl | exact Or.inr ⟨rfl, rfl⟩ | exact Or.inr ⟨rfl, rfl, rfl⟩))


theorem execEgressFrameStart_only (h : Only ps a s) (x0) (hs : sub [.out, .irq, .counts, .evrQueue, .tim, .sch, .ports, .trib] ps = true) : OnlyR ps a (execEgressFrameStart x0 s) := by
  unfold execEgressFrameStart
  try dsimp only
  repeat' first
    | with_reducible assumption
    | with_reducible refine State.fixMill_only ?_ _ _ _ (sub_of rfl hs)
    | with_reducible refine finish_only ?_  (sub_of rfl hs)
    | with_reducible refine State.countMill_only ?_ _ _ _ _ _ (sub_of rfl hs)
    | with_reducible refine idle_only ?_  (sub_of rfl hs)
    | with_reducible refine State.modPort_only ?_ _ _ (sub_of rfl hs)
    | with_reducible refine State.releaseEg_only ?_ _ _ (sub_of rfl hs)
    | with_reducible refine State.dropAllLong_only ?_ _ (sub_of rfl hs)
    | with_reducible refine State.sendFrame_only ?_ _ _ (sub_of rfl hs)
    | with_reducible refine finish_only ?_ (sub_of rfl hs)
    | with_reducible refine idle_only ?_
    | split
    | (with_reducible refine Only.foldl _ (fun _ _ _ => ?_) _ _ ?_)
    | ((with_reducible apply upd_only); rotate_left; iterate 39 (first | exact Or.inr (by with_reducible rfl) | exact Or.inl (mem_of_sub hs rfl) | exact Or.inl (sub_of rfl hs) | exact Or.inr rfl | exact Or.inr ⟨rfl, rfl⟩ | exact Or.inr ⟨rfl, rfl, rfl⟩))


theorem execEgressFrameEnd_only (h : Only ps a s) (x0) (hs : sub [.out, .irq, .counts, .evrQueue, .sch, .ports, .trib] ps = true) : OnlyR ps a (execEgressFrameEnd x0 s) := by
  unfold execEgressFrameEnd
  try dsimp only
  repeat' first
    | with_reducible assumption
    | with_reducible refine finish_only ?_  (sub_of rfl hs)
    | with_reducible refine idle_only ?_  (sub_of rfl hs)
    | with_reducible refine State.modPort_only ?_ _ _ (sub_of rfl hs)
    | with_reducible refine State.releaseEg_only ?_ _ _ (sub_of rfl hs)
    | with_reducible refine finish_only ?_ (sub_of rfl hs)
    | with_reducible refine idle_only ?_
    | split
    | (with_reducible refine Only.foldl _ (fun _ _ _ => ?_) _ _ ?_)
    | ((with_reducible apply upd_only); rotate_left; iterate 39 (first | exact Or.inr (by with_reducible rfl) | exact Or.inl (mem_of_sub hs rfl) | exact Or.inl (sub_of rfl hs) | exact Or.inr rfl | exact Or.inr ⟨rfl, rfl⟩ | exact Or.inr ⟨rfl, rfl, rfl⟩))


theorem execGateListStart_only (h : Only ps a s) (x0) (hs : sub [.out, .irq, .counts, .evrQueue, .ports] ps = true) : OnlyR ps a (execGateListStart x0 s) := by
  unfold execGateListStart
  try dsimp only
  repeat' first
    | with_reducible assumption
    | with_reducible refine finish_only ?_  (sub_of rfl hs)
    | with_reducible refine idle_only ?_  (sub_of rfl hs)
    | with_reducible refine State.modPort_only ?_ _ _ (sub_of rfl hs)
    | with_reducible refine finish_only ?_ (sub_of rfl hs)
    | with_reducible refine idle_only ?_
    | split
    | (with_reducible refine Only.foldl _ (fun _ _ _ => ?_) _ _ ?_)
    | ((with_reducible apply upd_only); rotate_left; iterate 39 (first | exact Or.inr (by with_reducible rfl) | exact Or.inl (mem_of_sub hs rfl) | exact Or.inl (sub_of rfl hs) | exact Or.inr rfl | exact Or.inr ⟨rfl, rfl⟩ | exact Or.inr ⟨rfl, rfl, rfl⟩))


theorem execGateEntryChange_only (h : Only ps a s) (x0) (hs : sub [.out, .irq, .counts, .evrQueue, .ports] ps = true) : OnlyR ps a (execGateEntryChange x0 s) := by
  unfold execGateEntryChange
  try dsimp only
  repeat' first
    | with_reducible assumption
    | with_reducible refine finish_only ?_  (sub_of rfl hs)
    | with_reducible refine idle_only ?_  (sub_of rfl hs)
    | with_reducible refine State.modPort_only ?_ _ _ (sub_of rfl hs)
    | with_reducible refine finish_only ?_ (sub_of rfl hs)
    | with_reducible refine idle_only ?_
    | split
    | (with_reducible refine Only.foldl _ (fun _ _ _ => ?_) _ _ ?_)
    | ((with_reducible apply upd_only); rotate_left; iterate 39 (first | exact Or.inr (by with_reducible rfl) | exact Or.inl (mem_of_sub hs rfl) | exact Or.inl (sub_of rfl hs) | exact Or.inr rfl | exact Or.inr ⟨rfl, rfl⟩ | exact Or.inr ⟨rfl, rfl, rfl⟩))


end Sys2Proof.Machine
end

