-- ==== Sys2Proof/Laws/OnlySac.lean ====
section
/-! SUPPORT. What each operation of Machine/Sac.lean may change. -/

set_option linter.unusedTactic false
set_option linter.unreachableTactic false
set_option linter.unusedVariables false
set_option linter.unusedSimpArgs false

namespace Sys2Proof.Machine

variable {ps : List Area} {a s : State}

theorem State.setSaState_only (h : Only ps a s) (x1 x2) (hs : sub [.sa] ps = true) : Only ps a (State.setSaState s x1 x2) := by
  unfold State.setSaState
  try dsimp only
  repeat' first
    | with_reducible assumption
    | with_reducible refine State.setSa_only ?_ _ _ (sub_of rfl hs)
    | split
    | (with_reducible refine Only.foldl _ (fun _ _ _ => ?_) _ _ ?_)
    | ((with_reducible apply upd_only); rotate_left; iterate 39 (first | exact Or.inr (by with_reducible rfl) | exact Or.inl (mem_of_sub hs rfl) | exact Or.inl (sub_of rfl hs) | exact Or.inr rfl | exact Or.inr ⟨rfl, rfl⟩ | exact Or.inr ⟨rfl, rfl, rfl⟩))


theorem State.evict_only (h : Only ps a s) (x1 x2) (hs : sub [.mem, .sac, .sa] ps = true) : Only ps a (State.evict s x1 x2) := by
  unfold State.evict
  try dsimp only
  repeat' first
    | with_reducible assumption
    | with_reducible refine State.setSa_only ?_ _ _ (sub_of rfl hs)
    | with_reducible refine State.modSac_only ?_ _ _ (sub_of rfl hs)
    | with_reducible refine State.pushCtx_only ?_ _ _ _ (sub_of rfl hs)
    | split
    | (with_reducible refine Only.foldl _ (fun _ _ _ => ?_) _ _ ?_)
    | ((with_reducible apply upd_only); rotate_left; iterate 39 (first | exact Or.inr (by with_reducible rfl) | exact Or.inl (mem_of_sub hs rfl) | exact Or.inl (sub_of rfl hs) | exact Or.inr rfl | exact Or.inr ⟨rfl, rfl⟩ | exact Or.inr ⟨rfl, rfl, rfl⟩))


theorem State.cancelReqs_only (h : Only ps a s) (x1) (hs : sub [.mem] ps = true) : Only ps a (State.cancelReqs s x1) := by
  unfold State.cancelReqs
  try dsimp only
  repeat' first
    | with_reducible assumption
    | with_reducible refine State.modMem_only ?_ _ (sub_of rfl hs)
    | split
    | (with_reducible refine Only.foldl _ (fun _ _ _ => ?_) _ _ ?_)
    | ((with_reducible apply upd_only); rotate_left; iterate 39 (first | exact Or.inr (by with_reducible rfl) | exact Or.inl (mem_of_sub hs rfl) | exact Or.inl (sub_of rfl hs) | exact Or.inr rfl | exact Or.inr ⟨rfl, rfl⟩ | exact Or.inr ⟨rfl, rfl, rfl⟩))


theorem State.cancelWrites_only (h : Only ps a s) (x1 x2) (hs : sub [.mem] ps = true) : Only ps a (State.cancelWrites s x1 x2) := by
  unfold State.cancelWrites
  try dsimp only
  repeat' first
    | with_reducible assumption
    | with_reducible refine State.cancelReqs_only ?_ _ (sub_of rfl hs)
    | split
    | (with_reducible refine Only.foldl _ (fun _ _ _ => ?_) _ _ ?_)
    | ((with_reducible apply upd_only); rotate_left; iterate 39 (first | exact Or.inr (by with_reducible rfl) | exact Or.inl (mem_of_sub hs rfl) | exact Or.inl (sub_of rfl hs) | exact Or.inr rfl | exact Or.inr ⟨rfl, rfl⟩ | exact Or.inr ⟨rfl, rfl, rfl⟩))


theorem State.cancelWid_only (h : Only ps a s) (x1 x2) (hs : sub [.mem] ps = true) : Only ps a (State.cancelWid s x1 x2) := by
  unfold State.cancelWid
  try dsimp only
  repeat' first
    | with_reducible assumption
    | with_reducible refine State.cancelReqs_only ?_ _ (sub_of rfl hs)
    | split
    | (with_reducible refine Only.foldl _ (fun _ _ _ => ?_) _ _ ?_)
    | ((with_reducible apply upd_only); rotate_left; iterate 39 (first | exact Or.inr (by with_reducible rfl) | exact Or.inl (mem_of_sub hs rfl) | exact Or.inl (sub_of rfl hs) | exact Or.inr rfl | exact Or.inr ⟨rfl, rfl⟩ | exact Or.inr ⟨rfl, rfl, rfl⟩))


theorem State.tryFill_only_of {t : State} {x1 x2} (e : State.tryFill s x1 x2 = some t) (h : Only ps a s) (hs : sub [.counts, .mem, .sac, .sa] ps = true) : Only ps a t := by
  unfold State.tryFill at e
  split at e
  · cases e; exact h
  · obtain ⟨k, _, rfl⟩ := Option.map_eq_some_iff.mp e
    dsimp only
    repeat' first
      | with_reducible assumption
      | with_reducible refine State.modSac_only ?_ _ _ (sub_of rfl hs)
      | with_reducible refine State.pullCtx_only ?_ _ _ (sub_of rfl hs)
      | with_reducible refine State.evict_only ?_ _ _ (sub_of rfl hs)
      | with_reducible refine State.cancelWid_only ?_ _ _ (sub_of rfl hs)
      | split

theorem State.donePins_only (h : Only ps a s) (x1 x2) (hs : sub [.out, .counts, .evrQueue, .sac, .cur, .mte] ps = true) : Only ps a (State.donePins s x1 x2) := by
  fun_induction State.donePins s x1 x2 <;> try dsimp only
  repeat' first
    | with_reducible assumption
    | with_reducible refine State.modSac_only ?_ _ _ (sub_of rfl hs)
    | with_reducible refine State.delta_only ?_ _ _ (sub_of rfl hs)
    | with_reducible refine State.delta_only_of (by assumption) ?_ (sub_of rfl hs)
    | with_reducible refine State.complete_only ?_ _ _ _ _ _ _ (sub_of rfl hs)
    | with_reducible apply_assumption -exfalso -symm
    | split
    | (with_reducible refine Only.foldl _ (fun _ _ _ => ?_) _ _ ?_)
    | ((with_reducible apply upd_only); rotate_left; iterate 39 (first | exact Or.inr (by with_reducible rfl) | exact Or.inl (mem_of_sub hs rfl) | exact Or.inl (sub_of rfl hs) | exact Or.inr rfl | exact Or.inr ⟨rfl, rfl⟩ | exact Or.inr ⟨rfl, rfl, rfl⟩))


theorem State.dropHeld_only (h : Only ps a s) (x1 x2 x3 x4) (hs : sub [.counts, .sac, .sch, .trib] ps = true) : Only ps a (State.dropHeld s x1 x2 x3 x4) := by
  unfold State.dropHeld
  try dsimp only
  repeat' first
    | with_reducible assumption
    | with_reducible refine State.countMill_only ?_ _ _ _ _ _ (sub_of rfl hs)
    | with_reducible refine State.modSac_only ?_ _ _ (sub_of rfl hs)
    | with_reducible refine State.dropFrame_only ?_ _ _ (sub_of rfl hs)
    | split
    | (with_reducible refine Only.foldl _ (fun _ _ _ => ?_) _ _ ?_)
    | ((with_reducible apply upd_only); rotate_left; iterate 39 (first | exact Or.inr (by with_reducible rfl) | exact Or.inl (mem_of_sub hs rfl) | exact Or.inl (sub_of rfl hs) | exact Or.inr rfl | exact Or.inr ⟨rfl, rfl⟩ | exact Or.inr ⟨rfl, rfl, rfl⟩))


theorem State.doomFrames_only (h : Only ps a s) (x1 x2) (hs : sub [.vat] ps = true) : Only ps a (State.doomFrames s x1 x2) := by
  unfold State.doomFrames
  try dsimp only
  repeat' first
    | with_reducible assumption
    | with_reducible refine State.modVat_only ?_ _ _ (sub_of rfl hs)
    | split
    | (with_reducible refine Only.foldl _ (fun _ _ _ => ?_) _ _ ?_)
    | ((with_reducible apply upd_only); rotate_left; iterate 39 (first | exact Or.inr (by with_reducible rfl) | exact Or.inl (mem_of_sub hs rfl) | exact Or.inl (sub_of rfl hs) | exact Or.inr rfl | exact Or.inr ⟨rfl, rfl⟩ | exact Or.inr ⟨rfl, rfl, rfl⟩))


theorem State.dropSa_only (h : Only ps a s) (x1 x2) (hs : sub [.counts, .sac, .vat, .sch, .trib] ps = true) : Only ps a (State.dropSa s x1 x2) := by
  unfold State.dropSa
  try dsimp only
  repeat' first
    | with_reducible assumption
    | with_reducible refine State.dropHeld_only ?_ _ _ _ _ (sub_of rfl hs)
    | with_reducible refine State.doomFrames_only ?_ _ _ (sub_of rfl hs)
    | split
    | (with_reducible refine Only.foldl _ (fun _ _ _ => ?_) _ _ ?_)
    | ((with_reducible apply upd_only); rotate_left; iterate 39 (first | exact Or.inr (by with_reducible rfl) | exact Or.inl (mem_of_sub hs rfl) | exact Or.inl (sub_of rfl hs) | exact Or.inr rfl | exact Or.inr ⟨rfl, rfl⟩ | exact Or.inr ⟨rfl, rfl, rfl⟩))


theorem State.countFill_only (h : Only ps a s) (x1 x2 x3) (hs : sub [.counts] ps = true) : Only ps a (State.countFill s x1 x2 x3) := by
  unfold State.countFill
  try dsimp only
  repeat' first
    | with_reducible assumption
    | with_reducible refine State.countMill_only ?_ _ _ _ _ _ (sub_of rfl hs)
    | split
    | (with_reducible refine Only.foldl _ (fun _ _ _ => ?_) _ _ ?_)
    | ((with_reducible apply upd_only); rotate_left; iterate 39 (first | exact Or.inr (by with_reducible rfl) | exact Or.inl (mem_of_sub hs rfl) | exact Or.inl (sub_of rfl hs) | exact Or.inr rfl | exact Or.inr ⟨rfl, rfl⟩ | exact Or.inr ⟨rfl, rfl, rfl⟩))


theorem State.fillOne_only (h : Only ps a s) (x1 x2) (hs : sub [.counts, .mem, .sac, .vat, .sch, .trib, .sa] ps = true) : Only ps a (State.fillOne s x1 x2) := by
  unfold State.fillOne
  try dsimp only
  repeat' first
    | with_reducible assumption
    | with_reducible refine State.modSac_only ?_ _ _ (sub_of rfl hs)
    | with_reducible refine State.countFill_only ?_ _ _ _ (sub_of rfl hs)
    | with_reducible refine State.tryFill_only ?_ _ _ (sub_of rfl hs)
    | with_reducible refine State.tryFill_only_of (by assumption) ?_ (sub_of rfl hs)
    | with_reducible refine State.dropSa_only ?_ _ _ (sub_of rfl hs)
    | split
    | (with_reducible refine Only.foldl _ (fun _ _ _ => ?_) _ _ ?_)
    | ((with_reducible apply upd_only); rotate_left; iterate 39 (first | exact Or.inr (by with_reducible rfl) | exact Or.inl (mem_of_sub hs rfl) | exact Or.inl (sub_of rfl hs) | exact Or.inr rfl | exact Or.inr ⟨rfl, rfl⟩ | exact Or.inr ⟨rfl, rfl, rfl⟩))


theorem State.retryFills_only (h : Only ps a s) (x1 x2) (hs : sub [.out, .counts, .evrQueue, .mem, .sac, .vat, .sch, .trib, .sa, .cur, .mte] ps = true) : Only ps a (State.retryFills s x1 x2) := by
  fun_induction State.retryFills s x1 x2 <;> try dsimp only
  repeat' first
    | with_reducible assumption
    | with_reducible refine State.fillOne_only ?_ _ _ (sub_of rfl hs)
    | with_reducible refine State.donePins_only ?_ _ _ (sub_of rfl hs)
    | with_reducible apply_assumption -exfalso -symm
    | split
    | (with_reducible refine Only.foldl _ (fun _ _ _ => ?_) _ _ ?_)
    | ((with_reducible apply upd_only); rotate_left; iterate 39 (first | exact Or.inr (by with_reducible rfl) | exact Or.inl (mem_of_sub hs rfl) | exact Or.inl (sub_of rfl hs) | exact Or.inr rfl | exact Or.inr ⟨rfl, rfl⟩ | exact Or.inr ⟨rfl, rfl, rfl⟩))


theorem State.retry_only (h : Only ps a s) (x1) (hs : sub [.out, .counts, .evrQueue, .mem, .sac, .vat, .sch, .trib, .sa, .cur, .mte] ps = true) : Only ps a (State.retry s x1) := by
  unfold State.retry
  try dsimp only
  repeat' first
    | with_reducible assumption
    | with_reducible refine State.retryFills_only ?_ _ _ (sub_of rfl hs)
    | split
    | (with_reducible refine Only.foldl _ (fun _ _ _ => ?_) _ _ ?_)
    | ((with_reducible apply upd_only); rotate_left; iterate 39 (first | exact Or.inr (by with_reducible rfl) | exact Or.inl (mem_of_sub hs rfl) | exact Or.inl (sub_of rfl hs) | exact Or.inr rfl | exact Or.inr ⟨rfl, rfl⟩ | exact Or.inr ⟨rfl, rfl, rfl⟩))


theorem State.startFill_only (h : Only ps a s) (x1 x2 x3) (hs : sub [.counts, .mem, .sac, .sa] ps = true) : Only ps a (State.startFill s x1 x2 x3) := by
  unfold State.startFill
  try dsimp only
  repeat' first
    | with_reducible assumption
    | with_reducible refine State.countMill_only ?_ _ _ _ _ _ (sub_of rfl hs)
    | with_reducible refine State.modSac_only ?_ _ _ (sub_of rfl hs)
    | with_reducible refine State.countFill_only ?_ _ _ _ (sub_of rfl hs)
    | with_reducible refine State.tryFill_only ?_ _ _ (sub_of rfl hs)
    | with_reducible refine State.tryFill_only_of (by assumption) ?_ (sub_of rfl hs)
    | split
    | (with_reducible refine Only.foldl _ (fun _ _ _ => ?_) _ _ ?_)
    | ((with_reducible apply upd_only); rotate_left; iterate 39 (first | exact Or.inr (by with_reducible rfl) | exact Or.inl (mem_of_sub hs rfl) | exact Or.inl (sub_of rfl hs) | exact Or.inr rfl | exact Or.inr ⟨rfl, rfl⟩ | exact Or.inr ⟨rfl, rfl, rfl⟩))


theorem State.failPins_only (h : Only ps a s) (x1 x2) (hs : sub [.counts, .evrQueue, .sac, .cur] ps = true) : Only ps a (State.failPins s x1 x2) := by
  unfold State.failPins
  try dsimp only
  repeat' first
    | with_reducible assumption
    | with_reducible refine State.modSac_only ?_ _ _ (sub_of rfl hs)
    | with_reducible refine State.complete_only ?_ _ _ _ _ _ _ (sub_of rfl hs)
    | split
    | (with_reducible refine Only.foldl _ (fun _ _ _ => ?_) _ _ ?_)
    | ((with_reducible apply upd_only); rotate_left; iterate 39 (first | exact Or.inr (by with_reducible rfl) | exact Or.inl (mem_of_sub hs rfl) | exact Or.inl (sub_of rfl hs) | exact Or.inr rfl | exact Or.inr ⟨rfl, rfl⟩ | exact Or.inr ⟨rfl, rfl, rfl⟩))


theorem State.saFault_only (h : Only ps a s) (x1 x2 x3) (hs : sub [.out, .counts, .evrQueue, .mem, .sac, .vat, .sch, .trib, .sa, .cur, .mte] ps = true) : Only ps a (State.saFault s x1 x2 x3) := by
  unfold State.saFault
  try dsimp only
  repeat' first
    | with_reducible assumption
    | with_reducible refine State.countMill_only ?_ _ _ _ _ _ (sub_of rfl hs)
    | with_reducible refine State.setSa_only ?_ _ _ (sub_of rfl hs)
    | with_reducible refine State.modSac_only ?_ _ _ (sub_of rfl hs)
    | with_reducible refine State.delta_only ?_ _ _ (sub_of rfl hs)
    | with_reducible refine State.delta_only_of (by assumption) ?_ (sub_of rfl hs)
    | with_reducible refine State.failPins_only ?_ _ _ (sub_of rfl hs)
    | with_reducible refine State.dropHeld_only ?_ _ _ _ _ (sub_of rfl hs)
    | with_reducible refine State.cancelWrites_only ?_ _ _ (sub_of rfl hs)
    | with_reducible refine State.retry_only ?_ _ (sub_of rfl hs)
    | split
    | (with_reducible refine Only.foldl _ (fun _ _ _ => ?_) _ _ ?_)
    | ((with_reducible apply upd_only); rotate_left; iterate 39 (first | exact Or.inr (by with_reducible rfl) | exact Or.inl (mem_of_sub hs rfl) | exact Or.inl (sub_of rfl hs) | exact Or.inr rfl | exact Or.inr ⟨rfl, rfl⟩ | exact Or.inr ⟨rfl, rfl, rfl⟩))


theorem execSaFetchComplete_only (h : Only ps a s) (x0 x1) (hs : sub [.out, .irq, .counts, .evrQueue, .mem, .sac, .vat, .sch, .trib, .sa, .cur, .mte] ps = true) : OnlyR ps a (execSaFetchComplete x0 x1 s) := by
  unfold execSaFetchComplete
  try dsimp only
  repeat' first
    | with_reducible assumption
    | with_reducible refine finish_only ?_  (sub_of rfl hs)
    | with_reducible refine State.setSa_only ?_ _ _ (sub_of rfl hs)
    | with_reducible refine idle_only ?_  (sub_of rfl hs)
    | with_reducible refine State.modSac_only ?_ _ _ (sub_of rfl hs)
    | with_reducible refine State.retry_only ?_ _ (sub_of rfl hs)
    | with_reducible refine State.saFault_only ?_ _ _ _ (sub_of rfl hs)
    | with_reducible refine finish_only ?_ (sub_of rfl hs)
    | with_reducible refine idle_only ?_
    | split
    | (with_reducible refine Only.foldl _ (fun _ _ _ => ?_) _ _ ?_)
    | ((with_reducible apply upd_only); rotate_left; iterate 39 (first | exact Or.inr (by with_reducible rfl) | exact Or.inl (mem_of_sub hs rfl) | exact Or.inl (sub_of rfl hs) | exact Or.inr rfl | exact Or.inr ⟨rfl, rfl⟩ | exact Or.inr ⟨rfl, rfl, rfl⟩))


theorem execSaWritebackDone_only (h : Only ps a s) (x0 x1) (hs : sub [.out, .irq, .counts, .evrQueue, .mem, .sac, .vat, .sch, .trib, .sa, .cur, .mte] ps = true) : OnlyR ps a (execSaWritebackDone x0 x1 s) := by
  unfold execSaWritebackDone
  try dsimp only
  repeat' first
    | with_reducible assumption
    | with_reducible refine State.countMill_only ?_ _ _ _ _ _ (sub_of rfl hs)
    | with_reducible refine finish_only ?_  (sub_of rfl hs)
    | with_reducible refine State.setSa_only ?_ _ _ (sub_of rfl hs)
    | with_reducible refine idle_only ?_  (sub_of rfl hs)
    | with_reducible refine State.modSac_only ?_ _ _ (sub_of rfl hs)
    | with_reducible refine State.retry_only ?_ _ (sub_of rfl hs)
    | with_reducible refine State.saFault_only ?_ _ _ _ (sub_of rfl hs)
    | with_reducible refine finish_only ?_ (sub_of rfl hs)
    | with_reducible refine idle_only ?_
    | split
    | (with_reducible refine Only.foldl _ (fun _ _ _ => ?_) _ _ ?_)
    | ((with_reducible apply upd_only); rotate_left; iterate 39 (first | exact Or.inr (by with_reducible rfl) | exact Or.inl (mem_of_sub hs rfl) | exact Or.inl (sub_of rfl hs) | exact Or.inr rfl | exact Or.inr ⟨rfl, rfl⟩ | exact Or.inr ⟨rfl, rfl, rfl⟩))


theorem applySainstInstall_only (h : Only ps a s) (x1 x2) (hs : sub [.out, .counts, .mem, .sac, .sc, .sa, .mte] ps = true) : Only ps a (applySainstInstall s x1 x2).s := by
  unfold applySainstInstall
  try dsimp only
  repeat' first
    | with_reducible assumption
    | with_reducible refine State.setSc_only ?_ _ _ (sub_of rfl hs)
    | with_reducible refine State.setSa_only ?_ _ _ (sub_of rfl hs)
    | with_reducible refine State.modSac_only ?_ _ _ (sub_of rfl hs)
    | with_reducible refine State.deltas_only ?_ _ (sub_of rfl hs)
    | with_reducible refine State.deltas_only_of (by assumption) ?_ (sub_of rfl hs)
    | with_reducible refine State.pushCtx_only ?_ _ _ _ (sub_of rfl hs)
    | split
    | (with_reducible refine Only.foldl _ (fun _ _ _ => ?_) _ _ ?_)
    | ((with_reducible apply upd_only); rotate_left; iterate 39 (first | exact Or.inr (by with_reducible rfl) | exact Or.inl (mem_of_sub hs rfl) | exact Or.inl (sub_of rfl hs) | exact Or.inr rfl | exact Or.inr ⟨rfl, rfl⟩ | exact Or.inr ⟨rfl, rfl, rfl⟩))


theorem execSainstInstall_only (h : Only ps a s) (x0) (hs : sub [.out, .irq, .counts, .evrQueue, .mem, .sac, .sc, .sa, .cur, .mte] ps = true) : OnlyR ps a (execSainstInstall x0 s) := by
  unfold execSainstInstall
  try dsimp only
  repeat' first
    | with_reducible assumption
    | with_reducible refine State.modRing_only ?_ _ _ (sub_of rfl hs)
    | with_reducible refine idle_only ?_  (sub_of rfl hs)
    | with_reducible refine finish_only ?_  (sub_of rfl hs)
    | ((with_reducible refine State.doApply_only ?_ _ _ _ _ (fun _ _ _ _ => ?_) (sub_of rfl hs)); rotate_left)
    | ((with_reducible refine State.issue_only ?_ _ _ _ _ (fun _ _ _ _ => ?_) (sub_of rfl hs)); rotate_left)
    | with_reducible refine applySainstInstall_only ?_ _ _ (sub_of rfl hs)
    | with_reducible refine finish_only ?_ (sub_of rfl hs)
    | with_reducible refine idle_only ?_
    | split
    | (with_reducible refine Only.foldl _ (fun _ _ _ => ?_) _ _ ?_)
    | ((with_reducible apply upd_only); rotate_left; iterate 39 (first | exact Or.inr (by with_reducible rfl) | exact Or.inl (mem_of_sub hs rfl) | exact Or.inl (sub_of rfl hs) | exact Or.inr rfl | exact Or.inr ⟨rfl, rfl⟩ | exact Or.inr ⟨rfl, rfl, rfl⟩))


theorem State.storeAway_only (h : Only ps a s) (x1 x2 x3) (hs : sub [.mem, .sac] ps = true) : Only ps a (State.storeAway s x1 x2 x3) := by
  unfold State.storeAway
  try dsimp only
  repeat' first
    | with_reducible assumption
    | with_reducible refine State.modSac_only ?_ _ _ (sub_of rfl hs)
    | with_reducible refine State.pushCtx_only ?_ _ _ _ (sub_of rfl hs)
    | with_reducible refine State.cancelWid_only ?_ _ _ (sub_of rfl hs)
    | split
    | (with_reducible refine Only.foldl _ (fun _ _ _ => ?_) _ _ ?_)
    | ((with_reducible apply upd_only); rotate_left; iterate 39 (first | exact Or.inr (by with_reducible rfl) | exact Or.inl (mem_of_sub hs rfl) | exact Or.inl (sub_of rfl hs) | exact Or.inr rfl | exact Or.inr ⟨rfl, rfl⟩ | exact Or.inr ⟨rfl, rfl, rfl⟩))


theorem State.storeCtx'_only (h : Only ps a s) (x1 x2 x3) (hs : sub [.mem, .sac] ps = true) : Only ps a (State.storeCtx' s x1 x2 x3) := by
  unfold State.storeCtx'
  try dsimp only
  repeat' first
    | with_reducible assumption
    | with_reducible refine State.modSac_only ?_ _ _ (sub_of rfl hs)
    | with_reducible refine State.storeAway_only ?_ _ _ _ (sub_of rfl hs)
    | split
    | (with_reducible refine Only.foldl _ (fun _ _ _ => ?_) _ _ ?_)
    | ((with_reducible apply upd_only); rotate_left; iterate 39 (first | exact Or.inr (by with_reducible rfl) | exact Or.inl (mem_of_sub hs rfl) | exact Or.inl (sub_of rfl hs) | exact Or.inr rfl | exact Or.inr ⟨rfl, rfl⟩ | exact Or.inr ⟨rfl, rfl, rfl⟩))


theorem applySainstUpdateLpn_only (h : Only ps a s) (x1 x2) (hs : sub [.out, .counts, .evrQueue, .mem, .sac, .vat, .sch, .trib, .sa, .cur, .mte] ps = true) : Only ps a (applySainstUpdateLpn s x1 x2).s := by
  unfold applySainstUpdateLpn
  try dsimp only
  repeat' first
    | with_reducible assumption
    | with_reducible refine State.delta_only ?_ _ _ (sub_of rfl hs)
    | with_reducible refine State.delta_only_of (by assumption) ?_ (sub_of rfl hs)
    | with_reducible refine State.storeCtx'_only ?_ _ _ _ (sub_of rfl hs)
    | with_reducible refine State.saFault_only ?_ _ _ _ (sub_of rfl hs)
    | split
    | (with_reducible refine Only.foldl _ (fun _ _ _ => ?_) _ _ ?_)
    | ((with_reducible apply upd_only); rotate_left; iterate 39 (first | exact Or.inr (by with_reducible rfl) | exact Or.inl (mem_of_sub hs rfl) | exact Or.inl (sub_of rfl hs) | exact Or.inr rfl | exact Or.inr ⟨rfl, rfl⟩ | exact Or.inr ⟨rfl, rfl, rfl⟩))


theorem execSainstUpdateLpn_only (h : Only ps a s) (x0) (hs : sub [.out, .irq, .counts, .evrQueue, .mem, .sac, .vat, .sch, .trib, .sa, .cur, .mte] ps = true) : OnlyR ps a (execSainstUpdateLpn x0 s) := by
  unfold execSainstUpdateLpn
  try dsimp only
  repeat' first
    | with_reducible assumption
    | ((with_reducible refine State.issue_only ?_ _ _ _ _ (fun _ _ _ _ => ?_) (sub_of rfl hs)); rotate_left)
    | ((with_reducible refine State.doApply_only ?_ _ _ _ _ (fun _ _ _ _ => ?_) (sub_of rfl hs)); rotate_left)
    | with_reducible refine applySainstUpdateLpn_only ?_ _ _ (sub_of rfl hs)
    | with_reducible refine finish_only ?_ (sub_of rfl hs)
    | with_reducible refine idle_only ?_
    | split
    | (with_reducible refine Only.foldl _ (fun _ _ _ => ?_) _ _ ?_)
    | ((with_reducible apply upd_only); rotate_left; iterate 39 (first | exact Or.inr (by with_reducible rfl) | exact Or.inl (mem_of_sub hs rfl) | exact Or.inl (sub_of rfl hs) | exact Or.inr rfl | exact Or.inr ⟨rfl, rfl⟩ | exact Or.inr ⟨rfl, rfl, rfl⟩))


theorem applySainstSetcur_only (h : Only ps a s) (x1 x2) (hs : sub [.out, .counts, .sc, .mte] ps = true) : Only ps a (applySainstSetcur s x1 x2).s := by
  unfold applySainstSetcur
  try dsimp only
  repeat' first
    | with_reducible assumption
    | with_reducible refine State.setSc_only ?_ _ _ (sub_of rfl hs)
    | with_reducible refine State.delta_only ?_ _ _ (sub_of rfl hs)
    | with_reducible refine State.delta_only_of (by assumption) ?_ (sub_of rfl hs)
    | split
    | (with_reducible refine Only.foldl _ (fun _ _ _ => ?_) _ _ ?_)
    | ((with_reducible apply upd_only); rotate_left; iterate 39 (first | exact Or.inr (by with_reducible rfl) | exact Or.inl (mem_of_sub hs rfl) | exact Or.inl (sub_of rfl hs) | exact Or.inr rfl | exact Or.inr ⟨rfl, rfl⟩ | exact Or.inr ⟨rfl, rfl, rfl⟩))


theorem execSainstSetcur_only (h : Only ps a s) (x0) (hs : sub [.out, .irq, .counts, .evrQueue, .sc, .cur, .mte] ps = true) : OnlyR ps a (execSainstSetcur x0 s) := by
  unfold execSainstSetcur
  try dsimp only
  repeat' first
    | with_reducible assumption
    | ((with_reducible refine State.issue_only ?_ _ _ _ _ (fun _ _ _ _ => ?_) (sub_of rfl hs)); rotate_left)
    | ((with_reducible refine State.doApply_only ?_ _ _ _ _ (fun _ _ _ _ => ?_) (sub_of rfl hs)); rotate_left)
    | with_reducible refine applySainstSetcur_only ?_ _ _ (sub_of rfl hs)
    | with_reducible refine finish_only ?_ (sub_of rfl hs)
    | with_reducible refine idle_only ?_
    | split
    | (with_reducible refine Only.foldl _ (fun _ _ _ => ?_) _ _ ?_)
    | ((with_reducible apply upd_only); rotate_left; iterate 39 (first | exact Or.inr (by with_reducible rfl) | exact Or.inl (mem_of_sub hs rfl) | exact Or.inl (sub_of rfl hs) | exact Or.inr rfl | exact Or.inr ⟨rfl, rfl⟩ | exact Or.inr ⟨rfl, rfl, rfl⟩))


theorem State.runSaretRead_only (h : Only ps a s) (x0 x2 x3) (hs : sub [.out, .counts, .evrQueue, .mem, .sac, .vat, .sch, .trib, .sa, .cur, .mte] ps = true) : Only ps a (State.runSaretRead x0 s x2 x3) := by
  unfold State.runSaretRead
  try dsimp only
  repeat' first
    | with_reducible assumption
    | with_reducible refine State.hostWrite_only ?_ _ _ _ (sub_of rfl hs)
    | with_reducible refine State.complete_only ?_ _ _ _ _ _ _ (sub_of rfl hs)
    | with_reducible refine State.saFault_only ?_ _ _ _ (sub_of rfl hs)
    | split
    | (with_reducible refine Only.foldl _ (fun _ _ _ => ?_) _ _ ?_)
    | ((with_reducible apply upd_only); rotate_left; iterate 39 (first | exact Or.inr (by with_reducible rfl) | exact Or.inl (mem_of_sub hs rfl) | exact Or.inl (sub_of rfl hs) | exact Or.inr rfl | exact Or.inr ⟨rfl, rfl⟩ | exact Or.inr ⟨rfl, rfl, rfl⟩))


theorem execSaretRead_only (h : Only ps a s) (x0 x1) (hs : sub [.out, .irq, .counts, .evrQueue, .mem, .sac, .vat, .sch, .trib, .sa, .cur, .mte] ps = true) : OnlyR ps a (execSaretRead x0 x1 s) := by
  unfold execSaretRead
  try dsimp only
  repeat' first
    | with_reducible assumption
    | with_reducible refine idle_only ?_  (sub_of rfl hs)
    | ((with_reducible refine State.issue_only ?_ _ _ _ _ (fun _ _ _ _ => ?_) (sub_of rfl hs)); rotate_left)
    | with_reducible refine State.runSaretRead_only ?_ _ _ _ (sub_of rfl hs)
    | with_reducible refine finish_only ?_ (sub_of rfl hs)
    | with_reducible refine idle_only ?_
    | split
    | (with_reducible refine Only.foldl _ (fun _ _ _ => ?_) _ _ ?_)
    | ((with_reducible apply upd_only); rotate_left; iterate 39 (first | exact Or.inr (by with_reducible rfl) | exact Or.inl (mem_of_sub hs rfl) | exact Or.inl (sub_of rfl hs) | exact Or.inr rfl | exact Or.inr ⟨rfl, rfl⟩ | exact Or.inr ⟨rfl, rfl, rfl⟩))


theorem State.runSaretRetire_only (h : Only ps a s) (x1 x2) (hs : sub [.out, .counts, .evrQueue, .mem, .sac, .vat, .sch, .trib, .sa, .cur, .mte] ps = true) : Only ps a (State.runSaretRetire s x1 x2) := by
  unfold State.runSaretRetire
  try dsimp only
  repeat' first
    | with_reducible assumption
    | with_reducible refine State.modSac_only ?_ _ _ (sub_of rfl hs)
    | with_reducible refine State.complete_only ?_ _ _ _ _ _ _ (sub_of rfl hs)
    | with_reducible refine State.accept_only ?_ _ (sub_of rfl hs)
    | with_reducible refine State.doomFrames_only ?_ _ _ (sub_of rfl hs)
    | with_reducible refine State.setSaState_only ?_ _ _ (sub_of rfl hs)
    | with_reducible refine State.retry_only ?_ _ (sub_of rfl hs)
    | split
    | (with_reducible refine Only.foldl _ (fun _ _ _ => ?_) _ _ ?_)
    | ((with_reducible apply upd_only); rotate_left; iterate 39 (first | exact Or.inr (by with_reducible rfl) | exact Or.inl (mem_of_sub hs rfl) | exact Or.inl (sub_of rfl hs) | exact Or.inr rfl | exact Or.inr ⟨rfl, rfl⟩ | exact Or.inr ⟨rfl, rfl, rfl⟩))


theorem execSaretRetire_only (h : Only ps a s) (x0) (hs : sub [.out, .irq, .counts, .evrQueue, .mem, .sac, .vat, .sch, .trib, .sa, .cur, .mte] ps = true) : OnlyR ps a (execSaretRetire x0 s) := by
  unfold execSaretRetire
  try dsimp only
  repeat' first
    | with_reducible assumption
    | ((with_reducible refine State.issue_only ?_ _ _ _ _ (fun _ _ _ _ => ?_) (sub_of rfl hs)); rotate_left)
    | with_reducible refine State.runSaretRetire_only ?_ _ _ (sub_of rfl hs)
    | with_reducible refine finish_only ?_ (sub_of rfl hs)
    | with_reducible refine idle_only ?_
    | split
    | (with_reducible refine Only.foldl _ (fun _ _ _ => ?_) _ _ ?_)
    | ((with_reducible apply upd_only); rotate_left; iterate 39 (first | exact Or.inr (by with_reducible rfl) | exact Or.inl (mem_of_sub hs rfl) | exact Or.inl (sub_of rfl hs) | exact Or.inr rfl | exact Or.inr ⟨rfl, rfl⟩ | exact Or.inr ⟨rfl, rfl, rfl⟩))


theorem State.unbind_only (h : Only ps a s) (x1) (hs : sub [.sc] ps = true) : Only ps a (State.unbind s x1) := by
  unfold State.unbind
  try dsimp only
  repeat' first
    | with_reducible assumption
    | with_reducible refine State.setSc_only ?_ _ _ (sub_of rfl hs)
    | split
    | (with_reducible refine Only.foldl _ (fun _ _ _ => ?_) _ _ ?_)
    | ((with_reducible apply upd_only); rotate_left; iterate 39 (first | exact Or.inr (by with_reducible rfl) | exact Or.inl (mem_of_sub hs rfl) | exact Or.inl (sub_of rfl hs) | exact Or.inr rfl | exact Or.inr ⟨rfl, rfl⟩ | exact Or.inr ⟨rfl, rfl, rfl⟩))


theorem execSaRetireComplete_only (h : Only ps a s) (x0 x1 x2) (hs : sub [.out, .irq, .counts, .evrQueue, .mem, .sac, .vat, .sch, .trib, .sc, .sa, .cur, .mte] ps = true) : OnlyR ps a (execSaRetireComplete x0 x1 x2 s) := by
  unfold execSaRetireComplete
  try dsimp only
  repeat' first
    | with_reducible assumption
    | with_reducible refine finish_only ?_  (sub_of rfl hs)
    | with_reducible refine State.setSa_only ?_ _ _ (sub_of rfl hs)
    | with_reducible refine idle_only ?_  (sub_of rfl hs)
    | with_reducible refine State.modSac_only ?_ _ _ (sub_of rfl hs)
    | with_reducible refine State.deltas_only ?_ _ (sub_of rfl hs)
    | with_reducible refine State.deltas_only_of (by assumption) ?_ (sub_of rfl hs)
    | with_reducible refine State.hostWrite_only ?_ _ _ _ (sub_of rfl hs)
    | with_reducible refine State.complete_only ?_ _ _ _ _ _ _ (sub_of rfl hs)
    | with_reducible refine State.pushCtx_only ?_ _ _ _ (sub_of rfl hs)
    | with_reducible refine State.failPins_only ?_ _ _ (sub_of rfl hs)
    | with_reducible refine State.unbind_only ?_ _ (sub_of rfl hs)
    | with_reducible refine State.cancelWrites_only ?_ _ _ (sub_of rfl hs)
    | with_reducible refine State.retry_only ?_ _ (sub_of rfl hs)
    | with_reducible refine finish_only ?_ (sub_of rfl hs)
    | with_reducible refine idle_only ?_
    | split
    | (with_reducible refine Only.foldl _ (fun _ _ _ => ?_) _ _ ?_)
    | ((with_reducible apply upd_only); rotate_left; iterate 39 (first | exact Or.inr (by with_reducible rfl) | exact Or.inl (mem_of_sub hs rfl) | exact Or.inl (sub_of rfl hs) | exact Or.inr rfl | exact Or.inr ⟨rfl, rfl⟩ | exact Or.inr ⟨rfl, rfl, rfl⟩))


theorem State.runSapinPin_only (h : Only ps a s) (x1 x2) (hs : sub [.out, .counts, .evrQueue, .mem, .sac, .sa, .cur, .mte] ps = true) : Only ps a (State.runSapinPin s x1 x2) := by
  unfold State.runSapinPin
  try dsimp only
  repeat' first
    | with_reducible assumption
    | with_reducible refine State.setSa_only ?_ _ _ (sub_of rfl hs)
    | with_reducible refine State.modSac_only ?_ _ _ (sub_of rfl hs)
    | with_reducible refine State.complete_only ?_ _ _ _ _ _ _ (sub_of rfl hs)
    | with_reducible refine State.accept_only ?_ _ (sub_of rfl hs)
    | with_reducible refine State.donePins_only ?_ _ _ (sub_of rfl hs)
    | with_reducible refine State.startFill_only ?_ _ _ _ (sub_of rfl hs)
    | split
    | (with_reducible refine Only.foldl _ (fun _ _ _ => ?_) _ _ ?_)
    | ((with_reducible apply upd_only); rotate_left; iterate 39 (first | exact Or.inr (by with_reducible rfl) | exact Or.inl (mem_of_sub hs rfl) | exact Or.inl (sub_of rfl hs) | exact Or.inr rfl | exact Or.inr ⟨rfl, rfl⟩ | exact Or.inr ⟨rfl, rfl, rfl⟩))


theorem execSapinPin_only (h : Only ps a s) (x0) (hs : sub [.out, .irq, .counts, .evrQueue, .mem, .sac, .sa, .cur, .mte] ps = true) : OnlyR ps a (execSapinPin x0 s) := by
  unfold execSapinPin
  try dsimp only
  repeat' first
    | with_reducible assumption
    | ((with_reducible refine State.issue_only ?_ _ _ _ _ (fun _ _ _ _ => ?_) (sub_of rfl hs)); rotate_left)
    | with_reducible refine State.runSapinPin_only ?_ _ _ (sub_of rfl hs)
    | with_reducible refine finish_only ?_ (sub_of rfl hs)
    | with_reducible refine idle_only ?_
    | split
    | (with_reducible refine Only.foldl _ (fun _ _ _ => ?_) _ _ ?_)
    | ((with_reducible apply upd_only); rotate_left; iterate 39 (first | exact Or.inr (by with_reducible rfl) | exact Or.inl (mem_of_sub hs rfl) | exact Or.inl (sub_of rfl hs) | exact Or.inr rfl | exact Or.inr ⟨rfl, rfl⟩ | exact Or.inr ⟨rfl, rfl, rfl⟩))


theorem applySapinUnpin_only (h : Only ps a s) (x1 x2) (hs : sub [.out, .counts, .evrQueue, .mem, .sac, .vat, .sch, .trib, .sa, .cur, .mte] ps = true) : Only ps a (applySapinUnpin s x1 x2).s := by
  unfold applySapinUnpin
  try dsimp only
  repeat' first
    | with_reducible assumption
    | with_reducible refine State.setSa_only ?_ _ _ (sub_of rfl hs)
    | with_reducible refine State.delta_only ?_ _ _ (sub_of rfl hs)
    | with_reducible refine State.delta_only_of (by assumption) ?_ (sub_of rfl hs)
    | with_reducible refine State.retry_only ?_ _ (sub_of rfl hs)
    | split
    | (with_reducible refine Only.foldl _ (fun _ _ _ => ?_) _ _ ?_)
    | ((with_reducible apply upd_only); rotate_left; iterate 39 (first | exact Or.inr (by with_reducible rfl) | exact Or.inl (mem_of_sub hs rfl) | exact Or.inl (sub_of rfl hs) | exact Or.inr rfl | exact Or.inr ⟨rfl, rfl⟩ | exact Or.inr ⟨rfl, rfl, rfl⟩))


theorem execSapinUnpin_only (h : Only ps a s) (x0) (hs : sub [.out, .irq, .counts, .evrQueue, .mem, .sac, .vat, .sch, .trib, .sa, .cur, .mte] ps = true) : OnlyR ps a (execSapinUnpin x0 s) := by
  unfold execSapinUnpin
  try dsimp only
  repeat' first
    | with_reducible assumption
    | ((with_reducible refine State.issue_only ?_ _ _ _ _ (fun _ _ _ _ => ?_) (sub_of rfl hs)); rotate_left)
    | ((with_reducible refine State.doApply_only ?_ _ _ _ _ (fun _ _ _ _ => ?_) (sub_of rfl hs)); rotate_left)
    | with_reducible refine applySapinUnpin_only ?_ _ _ (sub_of rfl hs)
    | with_reducible refine finish_only ?_ (sub_of rfl hs)
    | with_reducible refine idle_only ?_
    | split
    | (with_reducible refine Only.foldl _ (fun _ _ _ => ?_) _ _ ?_)
    | ((with_reducible apply upd_only); rotate_left; iterate 39 (first | exact Or.inr (by with_reducible rfl) | exact Or.inl (mem_of_sub hs rfl) | exact Or.inl (sub_of rfl hs) | exact Or.inr rfl | exact Or.inr ⟨rfl, rfl⟩ | exact Or.inr ⟨rfl, rfl, rfl⟩))


theorem State.dropOrphans_only (h : Only ps a s) (hs : sub [.counts, .sac, .sch, .trib] ps = true) : Only ps a (State.dropOrphans s) := by
  unfold State.dropOrphans
  try dsimp only
  repeat' first
    | with_reducible assumption
    | with_reducible refine State.dropHeld_only ?_ _ _ _ _ (sub_of rfl hs)
    | split
    | (with_reducible refine Only.foldl _ (fun _ _ _ => ?_) _ _ ?_)
    | ((with_reducible apply upd_only); rotate_left; iterate 39 (first | exact Or.inr (by with_reducible rfl) | exact Or.inl (mem_of_sub hs rfl) | exact Or.inl (sub_of rfl hs) | exact Or.inr rfl | exact Or.inr ⟨rfl, rfl⟩ | exact Or.inr ⟨rfl, rfl, rfl⟩))


theorem State.sweep_only (h : Only ps a s) (hs : sub [.out, .counts, .sa, .mte] ps = true) : Only ps a (State.sweep s) := by
  unfold State.sweep
  try dsimp only
  repeat' first
    | with_reducible assumption
    | with_reducible refine State.delta_only ?_ _ _ (sub_of rfl hs)
    | with_reducible refine State.delta_only_of (by assumption) ?_ (sub_of rfl hs)
    | with_reducible refine State.setSaState_only ?_ _ _ (sub_of rfl hs)
    | split
    | (with_reducible refine Only.foldl _ (fun _ _ _ => ?_) _ _ ?_)
    | ((with_reducible apply upd_only); rotate_left; iterate 39 (first | exact Or.inr (by with_reducible rfl) | exact Or.inl (mem_of_sub hs rfl) | exact Or.inl (sub_of rfl hs) | exact Or.inr rfl | exact Or.inr ⟨rfl, rfl⟩ | exact Or.inr ⟨rfl, rfl, rfl⟩))


theorem execOrphanSweepDone_only (h : Only ps a s) (hs : sub [.out, .irq, .counts, .evrQueue, .kst, .sa, .mte] ps = true) : OnlyR ps a (execOrphanSweepDone s) := by
  unfold execOrphanSweepDone
  try dsimp only
  repeat' first
    | with_reducible assumption
    | ((with_reducible refine State.modKst_only ?_ _ ?_ ?_); rotate_left; (first | exact Or.inl (mem_of_sub hs rfl) | exact Or.inr (fun _ => rfl)); (first | exact Or.inl (mem_of_sub hs rfl) | exact Or.inr (fun _ => rfl) | exact Or.inr (fun _ => ⟨rfl, rfl⟩) | exact Or.inr (fun _ => ⟨rfl, rfl, rfl⟩)))
    | with_reducible refine finish_only ?_  (sub_of rfl hs)
    | with_reducible refine idle_only ?_  (sub_of rfl hs)
    | with_reducible refine State.sweep_only ?_  (sub_of rfl hs)
    | with_reducible refine finish_only ?_ (sub_of rfl hs)
    | with_reducible refine idle_only ?_
    | split
    | (with_reducible refine Only.foldl _ (fun _ _ _ => ?_) _ _ ?_)
    | ((with_reducible apply upd_only); rotate_left; iterate 39 (first | exact Or.inr (by with_reducible rfl) | exact Or.inl (mem_of_sub hs rfl) | exact Or.inl (sub_of rfl hs) | exact Or.inr rfl | exact Or.inr ⟨rfl, rfl⟩ | exact Or.inr ⟨rfl, rfl, rfl⟩))


theorem State.clearSac_only (h : Only ps a s) (x1) (hs : sub [.counts, .evrQueue, .sac, .vat, .sch, .trib, .cur] ps = true) : Only ps a (State.clearSac s x1) := by
  unfold State.clearSac
  try dsimp only
  repeat' first
    | with_reducible assumption
    | with_reducible refine State.modSac_only ?_ _ _ (sub_of rfl hs)
    | with_reducible refine State.complete_only ?_ _ _ _ _ _ _ (sub_of rfl hs)
    | with_reducible refine State.failPins_only ?_ _ _ (sub_of rfl hs)
    | with_reducible refine State.dropHeld_only ?_ _ _ _ _ (sub_of rfl hs)
    | with_reducible refine State.doomFrames_only ?_ _ _ (sub_of rfl hs)
    | split
    | (with_reducible refine Only.foldl _ (fun _ _ _ => ?_) _ _ ?_)
    | ((with_reducible apply upd_only); rotate_left; iterate 39 (first | exact Or.inr (by with_reducible rfl) | exact Or.inl (mem_of_sub hs rfl) | exact Or.inl (sub_of rfl hs) | exact Or.inr rfl | exact Or.inr ⟨rfl, rfl⟩ | exact Or.inr ⟨rfl, rfl, rfl⟩))


theorem State.clearCatalogue_only (h : Only ps a s) (hs : sub [.counts, .evrQueue, .sac, .vat, .sch, .trib, .sc, .sa, .cur] ps = true) : Only ps a (State.clearCatalogue s) := by
  unfold State.clearCatalogue
  try dsimp only
  repeat' first
    | with_reducible assumption
    | with_reducible refine State.clearSac_only ?_ _ (sub_of rfl hs)
    | split
    | (with_reducible refine Only.foldl _ (fun _ _ _ => ?_) _ _ ?_)
    | ((with_reducible apply upd_only); rotate_left; iterate 39 (first | exact Or.inr (by with_reducible rfl) | exact Or.inl (mem_of_sub hs rfl) | exact Or.inl (sub_of rfl hs) | exact Or.inr rfl | exact Or.inr ⟨rfl, rfl⟩ | exact Or.inr ⟨rfl, rfl, rfl⟩))


theorem State.cancelMill_only (h : Only ps a s) (x1) (hs : sub [.mem] ps = true) : Only ps a (State.cancelMill s x1) := by
  unfold State.cancelMill
  try dsimp only
  repeat' first
    | with_reducible assumption
    | with_reducible refine State.modMem_only ?_ _ (sub_of rfl hs)
    | split
    | (with_reducible refine Only.foldl _ (fun _ _ _ => ?_) _ _ ?_)
    | ((with_reducible apply upd_only); rotate_left; iterate 39 (first | exact Or.inr (by with_reducible rfl) | exact Or.inl (mem_of_sub hs rfl) | exact Or.inl (sub_of rfl hs) | exact Or.inr rfl | exact Or.inr ⟨rfl, rfl⟩ | exact Or.inr ⟨rfl, rfl, rfl⟩))


theorem State.clearMillSas_only (h : Only ps a s) (x1) (hs : sub [.counts, .evrQueue, .mem, .sac, .vat, .sch, .trib, .sc, .sa, .cur] ps = true) : Only ps a (State.clearMillSas s x1) := by
  unfold State.clearMillSas
  try dsimp only
  repeat' first
    | with_reducible assumption
    | with_reducible refine State.clearSac_only ?_ _ (sub_of rfl hs)
    | with_reducible refine State.cancelMill_only ?_ _ (sub_of rfl hs)
    | split
    | (with_reducible refine Only.foldl _ (fun _ _ _ => ?_) _ _ ?_)
    | ((with_reducible apply upd_only); rotate_left; iterate 39 (first | exact Or.inr (by with_reducible rfl) | exact Or.inl (mem_of_sub hs rfl) | exact Or.inl (sub_of rfl hs) | exact Or.inr rfl | exact Or.inr ⟨rfl, rfl⟩ | exact Or.inr ⟨rfl, rfl, rfl⟩))


end Sys2Proof.Machine
end

