-- ==== Sys2Proof/Laws/OnlyFrameCipher.lean ====
section
/-! SUPPORT. What each operation of Machine/FrameCipher.lean may change. -/

set_option linter.unusedTactic false
set_option linter.unreachableTactic false
set_option linter.unusedVariables false
set_option linter.unusedSimpArgs false

namespace Sys2Proof.Machine

variable {ps : List Area} {a s : State}

theorem State.takeCipher_only (h : Only ps a s) (x1 x2) (hs : sub [.sac] ps = true) : Only ps a (State.takeCipher s x1 x2) := by
  unfold State.takeCipher
  try dsimp only
  repeat' first
    | with_reducible assumption
    | with_reducible refine State.modSac_only ?_ _ _ (sub_of rfl hs)
    | split
    | (with_reducible refine Only.foldl _ (fun _ _ _ => ?_) _ _ ?_)
    | ((with_reducible apply upd_only); rotate_left; iterate 39 (first | exact Or.inr (by with_reducible rfl) | exact Or.inl (mem_of_sub hs rfl) | exact Or.inl (sub_of rfl hs) | exact Or.inr rfl | exact Or.inr ⟨rfl, rfl⟩ | exact Or.inr ⟨rfl, rfl, rfl⟩))


theorem State.cipherDrop_only_of {t : State} {x1 x2 x3} (e : State.cipherDrop s x1 x2 x3 = some t) (h : Only ps a s) (hs : sub [.counts, .sch, .trib] ps = true) : Only ps a t := by
  unfold State.cipherDrop at e
  try dsimp only at e
  (repeat' split at e) <;> first | contradiction | skip
  all_goals (first | (cases e) | skip)
  repeat' first
    | with_reducible assumption
    | with_reducible refine State.countMill_only ?_ _ _ _ _ _ (sub_of rfl hs)
    | with_reducible refine State.dropFrame_only ?_ _ _ (sub_of rfl hs)
    | split
    | (with_reducible refine Only.foldl _ (fun _ _ _ => ?_) _ _ ?_)
    | ((with_reducible apply upd_only); rotate_left; iterate 39 (first | exact Or.inr (by with_reducible rfl) | exact Or.inl (mem_of_sub hs rfl) | exact Or.inl (sub_of rfl hs) | exact Or.inr rfl | exact Or.inr ⟨rfl, rfl⟩ | exact Or.inr ⟨rfl, rfl, rfl⟩))


theorem State.pnThreshold_only (h : Only ps a s) (x1 x2) (hs : sub [.counts, .sac, .sa] ps = true) : Only ps a (State.pnThreshold s x1 x2) := by
  unfold State.pnThreshold
  try dsimp only
  repeat' first
    | with_reducible assumption
    | with_reducible refine State.countMill_only ?_ _ _ _ _ _ (sub_of rfl hs)
    | with_reducible refine State.modSac_only ?_ _ _ (sub_of rfl hs)
    | with_reducible refine State.setSa_only ?_ _ _ (sub_of rfl hs)
    | split
    | (with_reducible refine Only.foldl _ (fun _ _ _ => ?_) _ _ ?_)
    | ((with_reducible apply upd_only); rotate_left; iterate 39 (first | exact Or.inr (by with_reducible rfl) | exact Or.inl (mem_of_sub hs rfl) | exact Or.inl (sub_of rfl hs) | exact Or.inr rfl | exact Or.inr ⟨rfl, rfl⟩ | exact Or.inr ⟨rfl, rfl, rfl⟩))


theorem State.exhaust_only (h : Only ps a s) (x1 x2) (hs : sub [.counts, .sa] ps = true) : Only ps a (State.exhaust s x1 x2) := by
  unfold State.exhaust
  try dsimp only
  repeat' first
    | with_reducible assumption
    | with_reducible refine State.countMill_only ?_ _ _ _ _ _ (sub_of rfl hs)
    | with_reducible refine State.setSaState_only ?_ _ _ (sub_of rfl hs)
    | split
    | (with_reducible refine Only.foldl _ (fun _ _ _ => ?_) _ _ ?_)
    | ((with_reducible apply upd_only); rotate_left; iterate 39 (first | exact Or.inr (by with_reducible rfl) | exact Or.inl (mem_of_sub hs rfl) | exact Or.inl (sub_of rfl hs) | exact Or.inr rfl | exact Or.inr ⟨rfl, rfl⟩ | exact Or.inr ⟨rfl, rfl, rfl⟩))


theorem State.checkpoint_only (h : Only ps a s) (x1 x2) (hs : sub [.out, .mte] ps = true) : Only ps a (State.checkpoint s x1 x2) := by
  unfold State.checkpoint
  try dsimp only
  repeat' first
    | with_reducible assumption
    | with_reducible refine State.feltSend_only ?_ _ _ (sub_of rfl hs)
    | split
    | (with_reducible refine Only.foldl _ (fun _ _ _ => ?_) _ _ ?_)
    | ((with_reducible apply upd_only); rotate_left; iterate 39 (first | exact Or.inr (by with_reducible rfl) | exact Or.inl (mem_of_sub hs rfl) | exact Or.inl (sub_of rfl hs) | exact Or.inr rfl | exact Or.inr ⟨rfl, rfl⟩ | exact Or.inr ⟨rfl, rfl, rfl⟩))


theorem State.refuseFrame_only (h : Only ps a s) (x1 x2 x3) (hs : sub [.counts, .sac] ps = true) : Only ps a (State.refuseFrame s x1 x2 x3) := by
  unfold State.refuseFrame
  try dsimp only
  repeat' first
    | with_reducible assumption
    | with_reducible refine State.modSac_only ?_ _ _ (sub_of rfl hs)
    | with_reducible refine State.dropTx_only ?_ _ (sub_of rfl hs)
    | split
    | (with_reducible refine Only.foldl _ (fun _ _ _ => ?_) _ _ ?_)
    | ((with_reducible apply upd_only); rotate_left; iterate 39 (first | exact Or.inr (by with_reducible rfl) | exact Or.inl (mem_of_sub hs rfl) | exact Or.inl (sub_of rfl hs) | exact Or.inr rfl | exact Or.inr ⟨rfl, rfl⟩ | exact Or.inr ⟨rfl, rfl, rfl⟩))


theorem State.cipherTx_only (h : Only ps a s) (x1 x2 x3 x4) (hs : sub [.out, .counts, .sac, .sch, .ports, .trib, .tribOld, .sa, .mte] ps = true) : Only ps a (State.cipherTx s x1 x2 x3 x4) := by
  unfold State.cipherTx
  try dsimp only
  repeat' first
    | with_reducible assumption
    | with_reducible refine State.modSac_only ?_ _ _ (sub_of rfl hs)
    | with_reducible refine State.sendTx_only ?_ _ (sub_of rfl hs)
    | with_reducible refine State.pnThreshold_only ?_ _ _ (sub_of rfl hs)
    | with_reducible refine State.checkpoint_only ?_ _ _ (sub_of rfl hs)
    | with_reducible refine State.exhaust_only ?_ _ _ (sub_of rfl hs)
    | with_reducible refine State.refuseFrame_only ?_ _ _ _ (sub_of rfl hs)
    | split
    | (with_reducible refine Only.foldl _ (fun _ _ _ => ?_) _ _ ?_)
    | ((with_reducible apply upd_only); rotate_left; iterate 39 (first | exact Or.inr (by with_reducible rfl) | exact Or.inl (mem_of_sub hs rfl) | exact Or.inl (sub_of rfl hs) | exact Or.inr rfl | exact Or.inr ⟨rfl, rfl⟩ | exact Or.inr ⟨rfl, rfl, rfl⟩))


theorem execFciTxFrame_only (h : Only ps a s) (x0 x1) (hs : sub [.out, .irq, .counts, .evrQueue, .mem, .sac, .vat, .sch, .ports, .trib, .tribOld, .sa, .cur, .mte] ps = true) : OnlyR ps a (execFciTxFrame x0 x1 s) := by
  unfold execFciTxFrame
  try dsimp only
  repeat' first
    | with_reducible assumption
    | with_reducible refine idle_only ?_  (sub_of rfl hs)
    | with_reducible refine finish_only ?_  (sub_of rfl hs)
    | with_reducible refine State.retry_only ?_ _ (sub_of rfl hs)
    | with_reducible refine State.cipherDrop_only ?_ _ _ _ (sub_of rfl hs)
    | with_reducible refine State.cipherDrop_only_of (by assumption) ?_ (sub_of rfl hs)
    | with_reducible refine State.cipherTx_only ?_ _ _ _ _ (sub_of rfl hs)
    | with_reducible refine State.refuseFrame_only ?_ _ _ _ (sub_of rfl hs)
    | with_reducible refine State.takeCipher_only ?_ _ _ (sub_of rfl hs)
    | with_reducible refine finish_only ?_ (sub_of rfl hs)
    | with_reducible refine idle_only ?_
    | split
    | (with_reducible refine Only.foldl _ (fun _ _ _ => ?_) _ _ ?_)
    | ((with_reducible apply upd_only); rotate_left; iterate 39 (first | exact Or.inr (by with_reducible rfl) | exact Or.inl (mem_of_sub hs rfl) | exact Or.inl (sub_of rfl hs) | exact Or.inr rfl | exact Or.inr ⟨rfl, rfl⟩ | exact Or.inr ⟨rfl, rfl, rfl⟩))


theorem execFciRxFrame_only (h : Only ps a s) (x0 x1) (hs : sub [.out, .irq, .counts, .evrQueue, .mem, .sac, .vat, .sch, .ports, .trib, .sa, .cur, .mte] ps = true) : OnlyR ps a (execFciRxFrame x0 x1 s) := by
  unfold execFciRxFrame
  try dsimp only
  repeat' first
    | with_reducible assumption
    | with_reducible refine State.countMill_only ?_ _ _ _ _ _ (sub_of rfl hs)
    | with_reducible refine finish_only ?_  (sub_of rfl hs)
    | with_reducible refine idle_only ?_  (sub_of rfl hs)
    | with_reducible refine State.modSac_only ?_ _ _ (sub_of rfl hs)
    | with_reducible refine State.joinEgress_only ?_ _ _ (sub_of rfl hs)
    | with_reducible refine State.dropRx_only ?_ _ _ (sub_of rfl hs)
    | with_reducible refine State.retry_only ?_ _ (sub_of rfl hs)
    | with_reducible refine State.cipherDrop_only ?_ _ _ _ (sub_of rfl hs)
    | with_reducible refine State.cipherDrop_only_of (by assumption) ?_ (sub_of rfl hs)
    | with_reducible refine State.takeCipher_only ?_ _ _ (sub_of rfl hs)
    | with_reducible refine finish_only ?_ (sub_of rfl hs)
    | with_reducible refine idle_only ?_
    | split
    | (with_reducible refine Only.foldl _ (fun _ _ _ => ?_) _ _ ?_)
    | ((with_reducible apply upd_only); rotate_left; iterate 39 (first | exact Or.inr (by with_reducible rfl) | exact Or.inl (mem_of_sub hs rfl) | exact Or.inl (sub_of rfl hs) | exact Or.inr rfl | exact Or.inr ⟨rfl, rfl⟩ | exact Or.inr ⟨rfl, rfl, rfl⟩))


theorem State.readThresh_only (h : Only ps a s) (x1) (hs : sub [.sac] ps = true) : Only ps a (State.readThresh s x1).2 := by
  unfold State.readThresh
  try dsimp only
  repeat' first
    | with_reducible assumption
    | with_reducible refine State.modSac_only ?_ _ _ (sub_of rfl hs)
    | split
    | (with_reducible refine Only.foldl _ (fun _ _ _ => ?_) _ _ ?_)
    | ((with_reducible apply upd_only); rotate_left; iterate 39 (first | exact Or.inr (by with_reducible rfl) | exact Or.inl (mem_of_sub hs rfl) | exact Or.inl (sub_of rfl hs) | exact Or.inr rfl | exact Or.inr ⟨rfl, rfl⟩ | exact Or.inr ⟨rfl, rfl, rfl⟩))

theorem State.readThresh_only_of {t : State} {x1} {r} (e : State.readThresh s x1 = (r, t)) (h : Only ps a s) (hs : sub [.sac] ps = true) : Only ps a t := by
  have := State.readThresh_only h x1 hs
  rw [e] at this
  exact this


theorem execThreshFifoRead_only (h : Only ps a s) (x0) (hs : sub [.out, .irq, .counts, .evrQueue, .sac] ps = true) : OnlyR ps a (execThreshFifoRead x0 s) := by
  unfold execThreshFifoRead
  try dsimp only
  repeat' first
    | with_reducible assumption
    | with_reducible refine State.emit_only ?_ _ (sub_of rfl hs)
    | with_reducible refine finish_only ?_  (sub_of rfl hs)
    | with_reducible refine idle_only ?_  (sub_of rfl hs)
    | with_reducible refine State.readThresh_only ?_ _ (sub_of rfl hs)
    | with_reducible refine State.readThresh_only_of (by assumption) ?_ (sub_of rfl hs)
    | with_reducible refine finish_only ?_ (sub_of rfl hs)
    | with_reducible refine idle_only ?_
    | split
    | (with_reducible refine Only.foldl _ (fun _ _ _ => ?_) _ _ ?_)
    | ((with_reducible apply upd_only); rotate_left; iterate 39 (first | exact Or.inr (by with_reducible rfl) | exact Or.inl (mem_of_sub hs rfl) | exact Or.inl (sub_of rfl hs) | exact Or.inr rfl | exact Or.inr ⟨rfl, rfl⟩ | exact Or.inr ⟨rfl, rfl, rfl⟩))


end Sys2Proof.Machine
end

