-- ==== Sys2Proof/Laws/OnlyBoica.lean ====
section
/-! SUPPORT. What each operation of Machine/Boica.lean may change. -/

set_option linter.unusedTactic false
set_option linter.unreachableTactic false
set_option linter.unusedVariables false
set_option linter.unusedSimpArgs false

namespace Sys2Proof.Machine

variable {ps : List Area} {a s : State}

theorem State.setThread_only (h : Only ps a s) (x1 x2) (hs : sub [.vat] ps = true) : Only ps a (State.setThread s x1 x2) := by
  unfold State.setThread
  try dsimp only
  repeat' first
    | with_reducible assumption
    | with_reducible refine State.modVat_only ?_ _ _ (sub_of rfl hs)
    | split
    | (with_reducible refine Only.foldl _ (fun _ _ _ => ?_) _ _ ?_)
    | ((with_reducible apply upd_only); rotate_left; iterate 39 (first | exact Or.inr (by with_reducible rfl) | exact Or.inl (mem_of_sub hs rfl) | exact Or.inl (sub_of rfl hs) | exact Or.inr rfl | exact Or.inr ⟨rfl, rfl⟩ | exact Or.inr ⟨rfl, rfl, rfl⟩))


theorem State.modThread_only (h : Only ps a s) (x1 x2) (hs : sub [.vat] ps = true) : Only ps a (State.modThread s x1 x2) := by
  unfold State.modThread
  try dsimp only
  repeat' first
    | with_reducible assumption
    | with_reducible refine State.setThread_only ?_ _ _ (sub_of rfl hs)
    | split
    | (with_reducible refine Only.foldl _ (fun _ _ _ => ?_) _ _ ?_)
    | ((with_reducible apply upd_only); rotate_left; iterate 39 (first | exact Or.inr (by with_reducible rfl) | exact Or.inl (mem_of_sub hs rfl) | exact Or.inl (sub_of rfl hs) | exact Or.inr rfl | exact Or.inr ⟨rfl, rfl⟩ | exact Or.inr ⟨rfl, rfl, rfl⟩))


theorem State.freeThread_only (h : Only ps a s) (x1 x2) (hs : sub [.out, .counts, .evrQueue, .mem, .sac, .vat, .sch, .trib, .sa, .cur, .mte] ps = true) : Only ps a (State.freeThread s x1 x2) := by
  unfold State.freeThread
  try dsimp only
  repeat' first
    | with_reducible assumption
    | with_reducible refine State.countMill_only ?_ _ _ _ _ _ (sub_of rfl hs)
    | with_reducible refine State.retry_only ?_ _ (sub_of rfl hs)
    | with_reducible refine State.setThread_only ?_ _ _ (sub_of rfl hs)
    | split
    | (with_reducible refine Only.foldl _ (fun _ _ _ => ?_) _ _ ?_)
    | ((with_reducible apply upd_only); rotate_left; iterate 39 (first | exact Or.inr (by with_reducible rfl) | exact Or.inl (mem_of_sub hs rfl) | exact Or.inl (sub_of rfl hs) | exact Or.inr rfl | exact Or.inr ⟨rfl, rfl⟩ | exact Or.inr ⟨rfl, rfl, rfl⟩))


theorem State.vatDrop_only (h : Only ps a s) (x1) (hs : sub [.out, .counts, .evrQueue, .mem, .sac, .vat, .sch, .trib, .sa, .cur, .mte] ps = true) : Only ps a (State.vatDrop s x1) := by
  unfold State.vatDrop
  try dsimp only
  repeat' first
    | with_reducible assumption
    | with_reducible refine State.dropFrame_only ?_ _ _ (sub_of rfl hs)
    | with_reducible refine State.freeThread_only ?_ _ _ (sub_of rfl hs)
    | split
    | (with_reducible refine Only.foldl _ (fun _ _ _ => ?_) _ _ ?_)
    | ((with_reducible apply upd_only); rotate_left; iterate 39 (first | exact Or.inr (by with_reducible rfl) | exact Or.inl (mem_of_sub hs rfl) | exact Or.inl (sub_of rfl hs) | exact Or.inr rfl | exact Or.inr ⟨rfl, rfl⟩ | exact Or.inr ⟨rfl, rfl, rfl⟩))


theorem State.countExc_only (h : Only ps a s) (x1 x2 x3) (hs : sub [.counts, .vat] ps = true) : Only ps a (State.countExc s x1 x2 x3) := by
  unfold State.countExc
  try dsimp only
  repeat' first
    | with_reducible assumption
    | with_reducible refine State.countMill_only ?_ _ _ _ _ _ (sub_of rfl hs)
    | with_reducible refine State.modVat_only ?_ _ _ (sub_of rfl hs)
    | split
    | (with_reducible refine Only.foldl _ (fun _ _ _ => ?_) _ _ ?_)
    | ((with_reducible apply upd_only); rotate_left; iterate 39 (first | exact Or.inr (by with_reducible rfl) | exact Or.inl (mem_of_sub hs rfl) | exact Or.inl (sub_of rfl hs) | exact Or.inr rfl | exact Or.inr ⟨rfl, rfl⟩ | exact Or.inr ⟨rfl, rfl, rfl⟩))


theorem State.defaultAction_only (h : Only ps a s) (x1 x2) (hs : sub [.out, .counts, .evrQueue, .mem, .sac, .vat, .sch, .trib, .sa, .cur, .mte] ps = true) : Only ps a (State.defaultAction s x1 x2) := by
  unfold State.defaultAction
  try dsimp only
  repeat' first
    | with_reducible assumption
    | with_reducible refine State.setThread_only ?_ _ _ (sub_of rfl hs)
    | with_reducible refine State.vatDrop_only ?_ _ (sub_of rfl hs)
    | split
    | (with_reducible refine Only.foldl _ (fun _ _ _ => ?_) _ _ ?_)
    | ((with_reducible apply upd_only); rotate_left; iterate 39 (first | exact Or.inr (by with_reducible rfl) | exact Or.inl (mem_of_sub hs rfl) | exact Or.inl (sub_of rfl hs) | exact Or.inr rfl | exact Or.inr ⟨rfl, rfl⟩ | exact Or.inr ⟨rfl, rfl, rfl⟩))


theorem State.vexc_only (h : Only ps a s) (x1 x2 x3) (hs : sub [.out, .counts, .evrQueue, .mem, .sac, .vat, .sch, .trib, .sa, .cur, .mte] ps = true) : Only ps a (State.vexc s x1 x2 x3) := by
  unfold State.vexc
  try dsimp only
  repeat' first
    | with_reducible assumption
    | with_reducible refine State.setThread_only ?_ _ _ (sub_of rfl hs)
    | with_reducible refine State.defaultAction_only ?_ _ _ (sub_of rfl hs)
    | with_reducible refine State.countExc_only ?_ _ _ _ (sub_of rfl hs)
    | split
    | (with_reducible refine Only.foldl _ (fun _ _ _ => ?_) _ _ ?_)
    | ((with_reducible apply upd_only); rotate_left; iterate 39 (first | exact Or.inr (by with_reducible rfl) | exact Or.inl (mem_of_sub hs rfl) | exact Or.inl (sub_of rfl hs) | exact Or.inr rfl | exact Or.inr ⟨rfl, rfl⟩ | exact Or.inr ⟨rfl, rfl, rfl⟩))


theorem State.tookTurn_only (h : Only ps a s) (x1) (hs : sub [.vat] ps = true) : Only ps a (State.tookTurn s x1) := by
  unfold State.tookTurn
  try dsimp only
  repeat' first
    | with_reducible assumption
    | with_reducible refine State.modVat_only ?_ _ _ (sub_of rfl hs)
    | split
    | (with_reducible refine Only.foldl _ (fun _ _ _ => ?_) _ _ ?_)
    | ((with_reducible apply upd_only); rotate_left; iterate 39 (first | exact Or.inr (by with_reducible rfl) | exact Or.inl (mem_of_sub hs rfl) | exact Or.inl (sub_of rfl hs) | exact Or.inr rfl | exact Or.inr ⟨rfl, rfl⟩ | exact Or.inr ⟨rfl, rfl, rfl⟩))


theorem vatRow_only (h : Only ps a s) (t : Tid) (sel : VInstr → Bool) (run : State → Thread → VInstr → Except Nat State)
    (hr : ∀ s x i u, Only ps a s → run s x i = .ok u → Only ps a u)
    (hs : sub [.out, .irq, .counts, .evrQueue, .mem, .sac, .vat, .sch, .trib, .sa, .cur, .mte] ps = true) : OnlyR ps a (vatRow t sel run s) := by
  unfold vatRow
  dsimp only
  split
  · split
    · exact finish_only (State.vexc_only (State.setThread_only (State.modVat_only h _ _ (sub_of rfl hs)) _ _ (sub_of rfl hs)) _ _ _ (sub_of rfl hs)) (sub_of rfl hs)
    · split
      · split
        · next e => exact finish_only (hr _ _ _ _ (State.setThread_only (State.modVat_only h _ _ (sub_of rfl hs)) _ _ (sub_of rfl hs)) e) (sub_of rfl hs)
        · exact finish_only (State.vexc_only (State.setThread_only (State.modVat_only h _ _ (sub_of rfl hs)) _ _ (sub_of rfl hs)) _ _ _ (sub_of rfl hs)) (sub_of rfl hs)
      · exact idle_only h
  · exact idle_only h

theorem execVatDispatch_only (h : Only ps a s) (x0) (hs : sub [.out, .irq, .counts, .evrQueue, .vat, .sch, .ports] ps = true) : OnlyR ps a (execVatDispatch x0 s) := by
  unfold execVatDispatch
  try dsimp only
  repeat' first
    | with_reducible assumption
    | with_reducible refine idle_only ?_  (sub_of rfl hs)
    | with_reducible refine State.modVat_only ?_ _ _ (sub_of rfl hs)
    | with_reducible refine finish_only ?_  (sub_of rfl hs)
    | with_reducible refine State.countMill_only ?_ _ _ _ _ _ (sub_of rfl hs)
    | with_reducible refine State.refill_only ?_ _ (sub_of rfl hs)
    | with_reducible refine State.setThread_only ?_ _ _ (sub_of rfl hs)
    | with_reducible refine finish_only ?_ (sub_of rfl hs)
    | with_reducible refine idle_only ?_
    | split
    | (with_reducible refine Only.foldl _ (fun _ _ _ => ?_) _ _ ?_)
    | ((with_reducible apply upd_only); rotate_left; iterate 39 (first | exact Or.inr (by with_reducible rfl) | exact Or.inl (mem_of_sub hs rfl) | exact Or.inl (sub_of rfl hs) | exact Or.inr rfl | exact Or.inr ⟨rfl, rfl⟩ | exact Or.inr ⟨rfl, rfl, rfl⟩))


end Sys2Proof.Machine
end

