-- ==== Sys2Proof/Laws/OnlyVatInstr.lean ====
section
/-! SUPPORT. What each operation of Machine/VatInstr.lean may change. -/

set_option linter.unusedTactic false
set_option linter.unreachableTactic false
set_option linter.unusedVariables false
set_option linter.unusedSimpArgs false

namespace Sys2Proof.Machine

variable {ps : List Area} {a s : State}

theorem vatLocal_only (h : Only ps a s) (t : Tid) (sel : VInstr → Bool) (f : Thread → VInstr → Except Nat Thread)
    (hs : sub [.out, .irq, .counts, .evrQueue, .mem, .sac, .vat, .sch, .trib, .sa, .cur, .mte] ps = true) : OnlyR ps a (vatLocal t sel f s) := by
  unfold vatLocal
  refine vatRow_only h _ _ _ (fun s x i u h e => ?_) hs
  cases g : f x i with
  | error c => rw [g] at e; cases e
  | ok y => rw [g] at e; cases e; exact State.setThread_only h _ _ (sub_of rfl hs)

theorem execMov_only (h : Only ps a s) (x0) (hs : sub [.out, .irq, .counts, .evrQueue, .mem, .sac, .vat, .sch, .trib, .sa, .cur, .mte] ps = true) : OnlyR ps a (execMov x0 s) := by
  unfold execMov
  try dsimp only
  repeat' first
    | with_reducible assumption
    | with_reducible with_reducible refine vatLocal_only ?_ _ _ _ (sub_of rfl hs)
    | with_reducible refine finish_only ?_ (sub_of rfl hs)
    | with_reducible refine idle_only ?_
    | split
    | (with_reducible refine Only.foldl _ (fun _ _ _ => ?_) _ _ ?_)
    | ((with_reducible apply upd_only); rotate_left; iterate 39 (first | exact Or.inr (by with_reducible rfl) | exact Or.inl (mem_of_sub hs rfl) | exact Or.inl (sub_of rfl hs) | exact Or.inr rfl | exact Or.inr ⟨rfl, rfl⟩ | exact Or.inr ⟨rfl, rfl, rfl⟩))


theorem execAdd_only (h : Only ps a s) (x0) (hs : sub [.out, .irq, .counts, .evrQueue, .mem, .sac, .vat, .sch, .trib, .sa, .cur, .mte] ps = true) : OnlyR ps a (execAdd x0 s) := by
  unfold execAdd
  try dsimp only
  repeat' first
    | with_reducible assumption
    | with_reducible with_reducible refine vatLocal_only ?_ _ _ _ (sub_of rfl hs)
    | with_reducible refine finish_only ?_ (sub_of rfl hs)
    | with_reducible refine idle_only ?_
    | split
    | (with_reducible refine Only.foldl _ (fun _ _ _ => ?_) _ _ ?_)
    | ((with_reducible apply upd_only); rotate_left; iterate 39 (first | exact Or.inr (by with_reducible rfl) | exact Or.inl (mem_of_sub hs rfl) | exact Or.inl (sub_of rfl hs) | exact Or.inr rfl | exact Or.inr ⟨rfl, rfl⟩ | exact Or.inr ⟨rfl, rfl, rfl⟩))


theorem execSub_only (h : Only ps a s) (x0) (hs : sub [.out, .irq, .counts, .evrQueue, .mem, .sac, .vat, .sch, .trib, .sa, .cur, .mte] ps = true) : OnlyR ps a (execSub x0 s) := by
  unfold execSub
  try dsimp only
  repeat' first
    | with_reducible assumption
    | with_reducible with_reducible refine vatLocal_only ?_ _ _ _ (sub_of rfl hs)
    | with_reducible refine finish_only ?_ (sub_of rfl hs)
    | with_reducible refine idle_only ?_
    | split
    | (with_reducible refine Only.foldl _ (fun _ _ _ => ?_) _ _ ?_)
    | ((with_reducible apply upd_only); rotate_left; iterate 39 (first | exact Or.inr (by with_reducible rfl) | exact Or.inl (mem_of_sub hs rfl) | exact Or.inl (sub_of rfl hs) | exact Or.inr rfl | exact Or.inr ⟨rfl, rfl⟩ | exact Or.inr ⟨rfl, rfl, rfl⟩))


theorem execAnd_only (h : Only ps a s) (x0) (hs : sub [.out, .irq, .counts, .evrQueue, .mem, .sac, .vat, .sch, .trib, .sa, .cur, .mte] ps = true) : OnlyR ps a (execAnd x0 s) := by
  unfold execAnd
  try dsimp only
  repeat' first
    | with_reducible assumption
    | with_reducible with_reducible refine vatLocal_only ?_ _ _ _ (sub_of rfl hs)
    | with_reducible refine finish_only ?_ (sub_of rfl hs)
    | with_reducible refine idle_only ?_
    | split
    | (with_reducible refine Only.foldl _ (fun _ _ _ => ?_) _ _ ?_)
    | ((with_reducible apply upd_only); rotate_left; iterate 39 (first | exact Or.inr (by with_reducible rfl) | exact Or.inl (mem_of_sub hs rfl) | exact Or.inl (sub_of rfl hs) | exact Or.inr rfl | exact Or.inr ⟨rfl, rfl⟩ | exact Or.inr ⟨rfl, rfl, rfl⟩))


theorem execOr_only (h : Only ps a s) (x0) (hs : sub [.out, .irq, .counts, .evrQueue, .mem, .sac, .vat, .sch, .trib, .sa, .cur, .mte] ps = true) : OnlyR ps a (execOr x0 s) := by
  unfold execOr
  try dsimp only
  repeat' first
    | with_reducible assumption
    | with_reducible with_reducible refine vatLocal_only ?_ _ _ _ (sub_of rfl hs)
    | with_reducible refine finish_only ?_ (sub_of rfl hs)
    | with_reducible refine idle_only ?_
    | split
    | (with_reducible refine Only.foldl _ (fun _ _ _ => ?_) _ _ ?_)
    | ((with_reducible apply upd_only); rotate_left; iterate 39 (first | exact Or.inr (by with_reducible rfl) | exact Or.inl (mem_of_sub hs rfl) | exact Or.inl (sub_of rfl hs) | exact Or.inr rfl | exact Or.inr ⟨rfl, rfl⟩ | exact Or.inr ⟨rfl, rfl, rfl⟩))


theorem execXor_only (h : Only ps a s) (x0) (hs : sub [.out, .irq, .counts, .evrQueue, .mem, .sac, .vat, .sch, .trib, .sa, .cur, .mte] ps = true) : OnlyR ps a (execXor x0 s) := by
  unfold execXor
  try dsimp only
  repeat' first
    | with_reducible assumption
    | with_reducible with_reducible refine vatLocal_only ?_ _ _ _ (sub_of rfl hs)
    | with_reducible refine finish_only ?_ (sub_of rfl hs)
    | with_reducible refine idle_only ?_
    | split
    | (with_reducible refine Only.foldl _ (fun _ _ _ => ?_) _ _ ?_)
    | ((with_reducible apply upd_only); rotate_left; iterate 39 (first | exact Or.inr (by with_reducible rfl) | exact Or.inl (mem_of_sub hs rfl) | exact Or.inl (sub_of rfl hs) | exact Or.inr rfl | exact Or.inr ⟨rfl, rfl⟩ | exact Or.inr ⟨rfl, rfl, rfl⟩))


theorem execShl_only (h : Only ps a s) (x0) (hs : sub [.out, .irq, .counts, .evrQueue, .mem, .sac, .vat, .sch, .trib, .sa, .cur, .mte] ps = true) : OnlyR ps a (execShl x0 s) := by
  unfold execShl
  try dsimp only
  repeat' first
    | with_reducible assumption
    | with_reducible with_reducible refine vatLocal_only ?_ _ _ _ (sub_of rfl hs)
    | with_reducible refine finish_only ?_ (sub_of rfl hs)
    | with_reducible refine idle_only ?_
    | split
    | (with_reducible refine Only.foldl _ (fun _ _ _ => ?_) _ _ ?_)
    | ((with_reducible apply upd_only); rotate_left; iterate 39 (first | exact Or.inr (by with_reducible rfl) | exact Or.inl (mem_of_sub hs rfl) | exact Or.inl (sub_of rfl hs) | exact Or.inr rfl | exact Or.inr ⟨rfl, rfl⟩ | exact Or.inr ⟨rfl, rfl, rfl⟩))


theorem execShr_only (h : Only ps a s) (x0) (hs : sub [.out, .irq, .counts, .evrQueue, .mem, .sac, .vat, .sch, .trib, .sa, .cur, .mte] ps = true) : OnlyR ps a (execShr x0 s) := by
  unfold execShr
  try dsimp only
  repeat' first
    | with_reducible assumption
    | with_reducible with_reducible refine vatLocal_only ?_ _ _ _ (sub_of rfl hs)
    | with_reducible refine finish_only ?_ (sub_of rfl hs)
    | with_reducible refine idle_only ?_
    | split
    | (with_reducible refine Only.foldl _ (fun _ _ _ => ?_) _ _ ?_)
    | ((with_reducible apply upd_only); rotate_left; iterate 39 (first | exact Or.inr (by with_reducible rfl) | exact Or.inl (mem_of_sub hs rfl) | exact Or.inl (sub_of rfl hs) | exact Or.inr rfl | exact Or.inr ⟨rfl, rfl⟩ | exact Or.inr ⟨rfl, rfl, rfl⟩))


theorem execMovSpecial_only (h : Only ps a s) (x0) (hs : sub [.free, .out, .irq, .counts, .evrQueue, .mem, .sac, .vat, .sch, .trib, .sa, .cur, .mte] ps = true) : OnlyR ps a (execMovSpecial x0 s) := by
  unfold execMovSpecial
  try dsimp only
  repeat' first
    | with_reducible assumption
    | ((with_reducible refine vatRow_only ?_ _ _ _ (fun _ _ _ _ _ e => ?_) (sub_of rfl hs)); rotate_left; (try dsimp only at e); (repeat' split at e) <;> first | cases e | skip)
    | with_reducible refine State.setThread_only ?_ _ _ (sub_of rfl hs)
    | with_reducible refine finish_only ?_ (sub_of rfl hs)
    | with_reducible refine idle_only ?_
    | split
    | (with_reducible refine Only.foldl _ (fun _ _ _ => ?_) _ _ ?_)
    | ((with_reducible apply upd_only); rotate_left; iterate 39 (first | exact Or.inr (by with_reducible rfl) | exact Or.inl (mem_of_sub hs rfl) | exact Or.inl (sub_of rfl hs) | exact Or.inr rfl | exact Or.inr ⟨rfl, rfl⟩ | exact Or.inr ⟨rfl, rfl, rfl⟩))


theorem execCmp_only (h : Only ps a s) (x0) (hs : sub [.out, .irq, .counts, .evrQueue, .mem, .sac, .vat, .sch, .trib, .sa, .cur, .mte] ps = true) : OnlyR ps a (execCmp x0 s) := by
  unfold execCmp
  try dsimp only
  repeat' first
    | with_reducible assumption
    | with_reducible with_reducible refine vatLocal_only ?_ _ _ _ (sub_of rfl hs)
    | with_reducible refine finish_only ?_ (sub_of rfl hs)
    | with_reducible refine idle_only ?_
    | split
    | (with_reducible refine Only.foldl _ (fun _ _ _ => ?_) _ _ ?_)
    | ((with_reducible apply upd_only); rotate_left; iterate 39 (first | exact Or.inr (by with_reducible rfl) | exact Or.inl (mem_of_sub hs rfl) | exact Or.inl (sub_of rfl hs) | exact Or.inr rfl | exact Or.inr ⟨rfl, rfl⟩ | exact Or.inr ⟨rfl, rfl, rfl⟩))


theorem State.scratchWrite_only (h : Only ps a s) (x1 x2 x3) (hs : sub [.vat] ps = true) : Only ps a (State.scratchWrite s x1 x2 x3) := by
  unfold State.scratchWrite
  try dsimp only
  repeat' first
    | with_reducible assumption
    | with_reducible refine State.modVat_only ?_ _ _ (sub_of rfl hs)
    | split
    | (with_reducible refine Only.foldl _ (fun _ _ _ => ?_) _ _ ?_)
    | ((with_reducible apply upd_only); rotate_left; iterate 39 (first | exact Or.inr (by with_reducible rfl) | exact Or.inl (mem_of_sub hs rfl) | exact Or.inl (sub_of rfl hs) | exact Or.inr rfl | exact Or.inr ⟨rfl, rfl⟩ | exact Or.inr ⟨rfl, rfl, rfl⟩))


theorem execExt_only (h : Only ps a s) (x0) (hs : sub [.out, .irq, .counts, .evrQueue, .mem, .sac, .vat, .sch, .trib, .sa, .cur, .mte] ps = true) : OnlyR ps a (execExt x0 s) := by
  unfold execExt
  try dsimp only
  repeat' first
    | with_reducible assumption
    | ((with_reducible refine vatRow_only ?_ _ _ _ (fun _ _ _ _ _ e => ?_) (sub_of rfl hs)); rotate_left; (try dsimp only at e); (repeat' split at e) <;> first | cases e | skip)
    | with_reducible refine State.setThread_only ?_ _ _ (sub_of rfl hs)
    | with_reducible refine finish_only ?_ (sub_of rfl hs)
    | with_reducible refine idle_only ?_
    | split
    | (with_reducible refine Only.foldl _ (fun _ _ _ => ?_) _ _ ?_)
    | ((with_reducible apply upd_only); rotate_left; iterate 39 (first | exact Or.inr (by with_reducible rfl) | exact Or.inl (mem_of_sub hs rfl) | exact Or.inl (sub_of rfl hs) | exact Or.inr rfl | exact Or.inr ⟨rfl, rfl⟩ | exact Or.inr ⟨rfl, rfl, rfl⟩))


theorem execIns_only (h : Only ps a s) (x0) (hs : sub [.out, .irq, .counts, .evrQueue, .mem, .sac, .vat, .sch, .trib, .sa, .cur, .mte] ps = true) : OnlyR ps a (execIns x0 s) := by
  unfold execIns
  try dsimp only
  repeat' first
    | with_reducible assumption
    | ((with_reducible refine vatRow_only ?_ _ _ _ (fun _ _ _ _ _ e => ?_) (sub_of rfl hs)); rotate_left; (try dsimp only at e); (repeat' split at e) <;> first | cases e | skip)
    | with_reducible refine State.setThread_only ?_ _ _ (sub_of rfl hs)
    | with_reducible refine State.scratchWrite_only ?_ _ _ _ (sub_of rfl hs)
    | with_reducible refine finish_only ?_ (sub_of rfl hs)
    | with_reducible refine idle_only ?_
    | split
    | (with_reducible refine Only.foldl _ (fun _ _ _ => ?_) _ _ ?_)
    | ((with_reducible apply upd_only); rotate_left; iterate 39 (first | exact Or.inr (by with_reducible rfl) | exact Or.inl (mem_of_sub hs rfl) | exact Or.inl (sub_of rfl hs) | exact Or.inr rfl | exact Or.inr ⟨rfl, rfl⟩ | exact Or.inr ⟨rfl, rfl, rfl⟩))


theorem execBr_only (h : Only ps a s) (x0) (hs : sub [.out, .irq, .counts, .evrQueue, .mem, .sac, .vat, .sch, .trib, .sa, .cur, .mte] ps = true) : OnlyR ps a (execBr x0 s) := by
  unfold execBr
  try dsimp only
  repeat' first
    | with_reducible assumption
    | with_reducible with_reducible refine vatLocal_only ?_ _ _ _ (sub_of rfl hs)
    | with_reducible refine finish_only ?_ (sub_of rfl hs)
    | with_reducible refine idle_only ?_
    | split
    | (with_reducible refine Only.foldl _ (fun _ _ _ => ?_) _ _ ?_)
    | ((with_reducible apply upd_only); rotate_left; iterate 39 (first | exact Or.inr (by with_reducible rfl) | exact Or.inl (mem_of_sub hs rfl) | exact Or.inl (sub_of rfl hs) | exact Or.inr rfl | exact Or.inr ⟨rfl, rfl⟩ | exact Or.inr ⟨rfl, rfl, rfl⟩))


theorem execBrp_only (h : Only ps a s) (x0) (hs : sub [.out, .irq, .counts, .evrQueue, .mem, .sac, .vat, .sch, .trib, .sa, .cur, .mte] ps = true) : OnlyR ps a (execBrp x0 s) := by
  unfold execBrp
  try dsimp only
  repeat' first
    | with_reducible assumption
    | with_reducible with_reducible refine vatLocal_only ?_ _ _ _ (sub_of rfl hs)
    | with_reducible refine finish_only ?_ (sub_of rfl hs)
    | with_reducible refine idle_only ?_
    | split
    | (with_reducible refine Only.foldl _ (fun _ _ _ => ?_) _ _ ?_)
    | ((with_reducible apply upd_only); rotate_left; iterate 39 (first | exact Or.inr (by with_reducible rfl) | exact Or.inl (mem_of_sub hs rfl) | exact Or.inl (sub_of rfl hs) | exact Or.inr rfl | exact Or.inr ⟨rfl, rfl⟩ | exact Or.inr ⟨rfl, rfl, rfl⟩))


theorem execCall_only (h : Only ps a s) (x0) (hs : sub [.out, .irq, .counts, .evrQueue, .mem, .sac, .vat, .sch, .trib, .sa, .cur, .mte] ps = true) : OnlyR ps a (execCall x0 s) := by
  unfold execCall
  try dsimp only
  repeat' first
    | with_reducible assumption
    | with_reducible with_reducible refine vatLocal_only ?_ _ _ _ (sub_of rfl hs)
    | with_reducible refine finish_only ?_ (sub_of rfl hs)
    | with_reducible refine idle_only ?_
    | split
    | (with_reducible refine Only.foldl _ (fun _ _ _ => ?_) _ _ ?_)
    | ((with_reducible apply upd_only); rotate_left; iterate 39 (first | exact Or.inr (by with_reducible rfl) | exact Or.inl (mem_of_sub hs rfl) | exact Or.inl (sub_of rfl hs) | exact Or.inr rfl | exact Or.inr ⟨rfl, rfl⟩ | exact Or.inr ⟨rfl, rfl, rfl⟩))


theorem execRet_only (h : Only ps a s) (x0) (hs : sub [.out, .irq, .counts, .evrQueue, .mem, .sac, .vat, .sch, .trib, .sa, .cur, .mte] ps = true) : OnlyR ps a (execRet x0 s) := by
  unfold execRet
  try dsimp only
  repeat' first
    | with_reducible assumption
    | with_reducible with_reducible refine vatLocal_only ?_ _ _ _ (sub_of rfl hs)
    | with_reducible refine finish_only ?_ (sub_of rfl hs)
    | with_reducible refine idle_only ?_
    | split
    | (with_reducible refine Only.foldl _ (fun _ _ _ => ?_) _ _ ?_)
    | ((with_reducible apply upd_only); rotate_left; iterate 39 (first | exact Or.inr (by with_reducible rfl) | exact Or.inl (mem_of_sub hs rfl) | exact Or.inl (sub_of rfl hs) | exact Or.inr rfl | exact Or.inr ⟨rfl, rfl⟩ | exact Or.inr ⟨rfl, rfl, rfl⟩))


theorem execLkp_only (h : Only ps a s) (x0) (hs : sub [.out, .irq, .counts, .evrQueue, .mem, .sac, .vat, .sch, .trib, .sa, .cur, .mte] ps = true) : OnlyR ps a (execLkp x0 s) := by
  unfold execLkp
  try dsimp only
  repeat' first
    | with_reducible assumption
    | ((with_reducible refine vatRow_only ?_ _ _ _ (fun _ _ _ _ _ e => ?_) (sub_of rfl hs)); rotate_left; (try dsimp only at e); (repeat' split at e) <;> first | cases e | skip)
    | with_reducible refine State.setThread_only ?_ _ _ (sub_of rfl hs)
    | with_reducible refine finish_only ?_ (sub_of rfl hs)
    | with_reducible refine idle_only ?_
    | split
    | (with_reducible refine Only.foldl _ (fun _ _ _ => ?_) _ _ ?_)
    | ((with_reducible apply upd_only); rotate_left; iterate 39 (first | exact Or.inr (by with_reducible rfl) | exact Or.inl (mem_of_sub hs rfl) | exact Or.inl (sub_of rfl hs) | exact Or.inr rfl | exact Or.inr ⟨rfl, rfl⟩ | exact Or.inr ⟨rfl, rfl, rfl⟩))


theorem execTcm_only (h : Only ps a s) (x0) (hs : sub [.out, .irq, .counts, .evrQueue, .mem, .sac, .vat, .sch, .trib, .sa, .cur, .mte] ps = true) : OnlyR ps a (execTcm x0 s) := by
  unfold execTcm
  try dsimp only
  repeat' first
    | with_reducible assumption
    | ((with_reducible refine vatRow_only ?_ _ _ _ (fun _ _ _ _ _ e => ?_) (sub_of rfl hs)); rotate_left; (try dsimp only at e); (repeat' split at e) <;> first | cases e | skip)
    | with_reducible refine State.setThread_only ?_ _ _ (sub_of rfl hs)
    | with_reducible refine finish_only ?_ (sub_of rfl hs)
    | with_reducible refine idle_only ?_
    | split
    | (with_reducible refine Only.foldl _ (fun _ _ _ => ?_) _ _ ?_)
    | ((with_reducible apply upd_only); rotate_left; iterate 39 (first | exact Or.inr (by with_reducible rfl) | exact Or.inl (mem_of_sub hs rfl) | exact Or.inl (sub_of rfl hs) | exact Or.inr rfl | exact Or.inr ⟨rfl, rfl⟩ | exact Or.inr ⟨rfl, rfl, rfl⟩))


theorem execAtt_only (h : Only ps a s) (x0) (hs : sub [.out, .irq, .counts, .evrQueue, .mem, .sac, .vat, .sch, .trib, .sa, .cur, .mte] ps = true) : OnlyR ps a (execAtt x0 s) := by
  unfold execAtt
  try dsimp only
  repeat' first
    | with_reducible assumption
    | with_reducible with_reducible refine vatLocal_only ?_ _ _ _ (sub_of rfl hs)
    | with_reducible refine finish_only ?_ (sub_of rfl hs)
    | with_reducible refine idle_only ?_
    | split
    | (with_reducible refine Only.foldl _ (fun _ _ _ => ?_) _ _ ?_)
    | ((with_reducible apply upd_only); rotate_left; iterate 39 (first | exact Or.inr (by with_reducible rfl) | exact Or.inl (mem_of_sub hs rfl) | exact Or.inl (sub_of rfl hs) | exact Or.inr rfl | exact Or.inr ⟨rfl, rfl⟩ | exact Or.inr ⟨rfl, rfl, rfl⟩))


theorem execTrib_only (h : Only ps a s) (x0) (hs : sub [.out, .irq, .counts, .evrQueue, .mem, .sac, .vat, .sch, .trib, .sa, .cur, .mte] ps = true) : OnlyR ps a (execTrib x0 s) := by
  unfold execTrib
  try dsimp only
  repeat' first
    | with_reducible assumption
    | ((with_reducible refine vatRow_only ?_ _ _ _ (fun _ _ _ _ _ e => ?_) (sub_of rfl hs)); rotate_left; (try dsimp only at e); (repeat' split at e) <;> first | cases e | skip)
    | with_reducible refine State.setThread_only ?_ _ _ (sub_of rfl hs)
    | with_reducible refine finish_only ?_ (sub_of rfl hs)
    | with_reducible refine idle_only ?_
    | split
    | (with_reducible refine Only.foldl _ (fun _ _ _ => ?_) _ _ ?_)
    | ((with_reducible apply upd_only); rotate_left; iterate 39 (first | exact Or.inr (by with_reducible rfl) | exact Or.inl (mem_of_sub hs rfl) | exact Or.inl (sub_of rfl hs) | exact Or.inr rfl | exact Or.inr ⟨rfl, rfl⟩ | exact Or.inr ⟨rfl, rfl, rfl⟩))


theorem execCls_only (h : Only ps a s) (x0) (hs : sub [.out, .irq, .counts, .evrQueue, .mem, .sac, .vat, .sch, .trib, .sa, .cur, .mte] ps = true) : OnlyR ps a (execCls x0 s) := by
  unfold execCls
  try dsimp only
  repeat' first
    | with_reducible assumption
    | with_reducible with_reducible refine vatLocal_only ?_ _ _ _ (sub_of rfl hs)
    | with_reducible refine finish_only ?_ (sub_of rfl hs)
    | with_reducible refine idle_only ?_
    | split
    | (with_reducible refine Only.foldl _ (fun _ _ _ => ?_) _ _ ?_)
    | ((with_reducible apply upd_only); rotate_left; iterate 39 (first | exact Or.inr (by with_reducible rfl) | exact Or.inl (mem_of_sub hs rfl) | exact Or.inl (sub_of rfl hs) | exact Or.inr rfl | exact Or.inr ⟨rfl, rfl⟩ | exact Or.inr ⟨rfl, rfl, rfl⟩))


theorem execPol_only (h : Only ps a s) (x0) (hs : sub [.out, .irq, .counts, .evrQueue, .mem, .sac, .vat, .sch, .trib, .sa, .cur, .mte] ps = true) : OnlyR ps a (execPol x0 s) := by
  unfold execPol
  try dsimp only
  repeat' first
    | with_reducible assumption
    | ((with_reducible refine vatRow_only ?_ _ _ _ (fun _ _ _ _ _ e => ?_) (sub_of rfl hs)); rotate_left; (try dsimp only at e); (repeat' split at e) <;> first | cases e | skip)
    | with_reducible refine State.setThread_only ?_ _ _ (sub_of rfl hs)
    | with_reducible refine finish_only ?_ (sub_of rfl hs)
    | with_reducible refine idle_only ?_
    | split
    | (with_reducible refine Only.foldl _ (fun _ _ _ => ?_) _ _ ?_)
    | ((with_reducible apply upd_only); rotate_left; iterate 39 (first | exact Or.inr (by with_reducible rfl) | exact Or.inl (mem_of_sub hs rfl) | exact Or.inl (sub_of rfl hs) | exact Or.inr rfl | exact Or.inr ⟨rfl, rfl⟩ | exact Or.inr ⟨rfl, rfl, rfl⟩))


theorem execStmp_only (h : Only ps a s) (x0) (hs : sub [.out, .irq, .counts, .evrQueue, .mem, .sac, .vat, .sch, .trib, .sa, .cur, .mte] ps = true) : OnlyR ps a (execStmp x0 s) := by
  unfold execStmp
  try dsimp only
  repeat' first
    | with_reducible assumption
    | with_reducible refine State.countDev_only ?_ _ _ _ _ (sub_of rfl hs)
    | with_reducible refine State.countMill_only ?_ _ _ _ _ _ (sub_of rfl hs)
    | ((with_reducible refine vatRow_only ?_ _ _ _ (fun _ _ _ _ _ e => ?_) (sub_of rfl hs)); rotate_left; (try dsimp only at e); (repeat' split at e) <;> first | cases e | skip)
    | with_reducible refine State.setThread_only ?_ _ _ (sub_of rfl hs)
    | with_reducible refine finish_only ?_ (sub_of rfl hs)
    | with_reducible refine idle_only ?_
    | split
    | (with_reducible refine Only.foldl _ (fun _ _ _ => ?_) _ _ ?_)
    | ((with_reducible apply upd_only); rotate_left; iterate 39 (first | exact Or.inr (by with_reducible rfl) | exact Or.inl (mem_of_sub hs rfl) | exact Or.inl (sub_of rfl hs) | exact Or.inr rfl | exact Or.inr ⟨rfl, rfl⟩ | exact Or.inr ⟨rfl, rfl, rfl⟩))


theorem execEnq_only (h : Only ps a s) (x0) (hs : sub [.out, .irq, .counts, .evrQueue, .mem, .sac, .vat, .sch, .trib, .sa, .cur, .mte] ps = true) : OnlyR ps a (execEnq x0 s) := by
  unfold execEnq
  try dsimp only
  repeat' first
    | with_reducible assumption
    | ((with_reducible refine vatRow_only ?_ _ _ _ (fun _ _ _ _ _ e => ?_) (sub_of rfl hs)); rotate_left; (try dsimp only at e); (repeat' split at e) <;> first | cases e | skip)
    | with_reducible refine State.setThread_only ?_ _ _ (sub_of rfl hs)
    | with_reducible refine finish_only ?_ (sub_of rfl hs)
    | with_reducible refine idle_only ?_
    | split
    | (with_reducible refine Only.foldl _ (fun _ _ _ => ?_) _ _ ?_)
    | ((with_reducible apply upd_only); rotate_left; iterate 39 (first | exact Or.inr (by with_reducible rfl) | exact Or.inl (mem_of_sub hs rfl) | exact Or.inl (sub_of rfl hs) | exact Or.inr rfl | exact Or.inr ⟨rfl, rfl⟩ | exact Or.inr ⟨rfl, rfl, rfl⟩))


theorem execDrop_only (h : Only ps a s) (x0) (hs : sub [.out, .irq, .counts, .evrQueue, .mem, .sac, .vat, .sch, .trib, .sa, .cur, .mte] ps = true) : OnlyR ps a (execDrop x0 s) := by
  unfold execDrop
  try dsimp only
  repeat' first
    | with_reducible assumption
    | with_reducible refine State.countMill_only ?_ _ _ _ _ _ (sub_of rfl hs)
    | ((with_reducible refine vatRow_only ?_ _ _ _ (fun _ _ _ _ _ e => ?_) (sub_of rfl hs)); rotate_left; (try dsimp only at e); (repeat' split at e) <;> first | cases e | skip)
    | with_reducible refine State.vatDrop_only ?_ _ (sub_of rfl hs)
    | with_reducible refine finish_only ?_ (sub_of rfl hs)
    | with_reducible refine idle_only ?_
    | split
    | (with_reducible refine Only.foldl _ (fun _ _ _ => ?_) _ _ ?_)
    | ((with_reducible apply upd_only); rotate_left; iterate 39 (first | exact Or.inr (by with_reducible rfl) | exact Or.inl (mem_of_sub hs rfl) | exact Or.inl (sub_of rfl hs) | exact Or.inr rfl | exact Or.inr ⟨rfl, rfl⟩ | exact Or.inr ⟨rfl, rfl, rfl⟩))


theorem execPunt_only (h : Only ps a s) (x0) (hs : sub [.out, .irq, .counts, .evrQueue, .mem, .sac, .vat, .sch, .trib, .sa, .cur, .mte] ps = true) : OnlyR ps a (execPunt x0 s) := by
  unfold execPunt
  try dsimp only
  repeat' first
    | with_reducible assumption
    | with_reducible with_reducible refine vatLocal_only ?_ _ _ _ (sub_of rfl hs)
    | with_reducible refine finish_only ?_ (sub_of rfl hs)
    | with_reducible refine idle_only ?_
    | split
    | (with_reducible refine Only.foldl _ (fun _ _ _ => ?_) _ _ ?_)
    | ((with_reducible apply upd_only); rotate_left; iterate 39 (first | exact Or.inr (by with_reducible rfl) | exact Or.inl (mem_of_sub hs rfl) | exact Or.inl (sub_of rfl hs) | exact Or.inr rfl | exact Or.inr ⟨rfl, rfl⟩ | exact Or.inr ⟨rfl, rfl, rfl⟩))


end Sys2Proof.Machine
end

