-- ==== Sys2Proof/Laws/OnlyVatUnits.lean ====
section
/-! SUPPORT. What each operation of Machine/VatUnits.lean may change. -/

set_option linter.unusedTactic false
set_option linter.unreachableTactic false
set_option linter.unusedVariables false
set_option linter.unusedSimpArgs false

namespace Sys2Proof.Machine

variable {ps : List Area} {a s : State}

theorem execHashLookup_only (h : Only ps a s) (x0) (hs : sub [.out, .irq, .counts, .evrQueue, .mem, .sac, .vat, .sch, .trib, .sa, .cur, .mte] ps = true) : OnlyR ps a (execHashLookup x0 s) := by
  unfold execHashLookup
  try dsimp only
  repeat' first
    | with_reducible assumption
    | with_reducible refine finish_only ?_  (sub_of rfl hs)
    | with_reducible refine idle_only ?_  (sub_of rfl hs)
    | with_reducible refine State.countMill_only ?_ _ _ _ _ _ (sub_of rfl hs)
    | with_reducible refine State.vexc_only ?_ _ _ _ (sub_of rfl hs)
    | with_reducible refine State.setThread_only ?_ _ _ (sub_of rfl hs)
    | with_reducible refine finish_only ?_ (sub_of rfl hs)
    | with_reducible refine idle_only ?_
    | split
    | (with_reducible refine Only.foldl _ (fun _ _ _ => ?_) _ _ ?_)
    | ((with_reducible apply upd_only); rotate_left; iterate 39 (first | exact Or.inr (by with_reducible rfl) | exact Or.inl (mem_of_sub hs rfl) | exact Or.inl (sub_of rfl hs) | exact Or.inr rfl | exact Or.inr ⟨rfl, rfl⟩ | exact Or.inr ⟨rfl, rfl, rfl⟩))


theorem execTcamSearch_only (h : Only ps a s) (x0) (hs : sub [.out, .irq, .counts, .evrQueue, .mem, .sac, .vat, .sch, .trib, .sa, .cur, .mte] ps = true) : OnlyR ps a (execTcamSearch x0 s) := by
  unfold execTcamSearch
  try dsimp only
  repeat' first
    | with_reducible assumption
    | with_reducible refine finish_only ?_  (sub_of rfl hs)
    | with_reducible refine idle_only ?_  (sub_of rfl hs)
    | with_reducible refine State.countMill_only ?_ _ _ _ _ _ (sub_of rfl hs)
    | with_reducible refine State.vexc_only ?_ _ _ _ (sub_of rfl hs)
    | with_reducible refine State.setThread_only ?_ _ _ (sub_of rfl hs)
    | with_reducible refine finish_only ?_ (sub_of rfl hs)
    | with_reducible refine idle_only ?_
    | split
    | (with_reducible refine Only.foldl _ (fun _ _ _ => ?_) _ _ ?_)
    | ((with_reducible apply upd_only); rotate_left; iterate 39 (first | exact Or.inr (by with_reducible rfl) | exact Or.inl (mem_of_sub hs rfl) | exact Or.inl (sub_of rfl hs) | exact Or.inr rfl | exact Or.inr ⟨rfl, rfl⟩ | exact Or.inr ⟨rfl, rfl, rfl⟩))


theorem execPolicerDecide_only (h : Only ps a s) (x0) (hs : sub [.out, .irq, .counts, .evrQueue, .mem, .sac, .vat, .sch, .trib, .sa, .cur, .mte] ps = true) : OnlyR ps a (execPolicerDecide x0 s) := by
  unfold execPolicerDecide
  try dsimp only
  repeat' first
    | with_reducible assumption
    | with_reducible refine State.modSch_only ?_ _ _ (sub_of rfl hs)
    | with_reducible refine State.countMill_only ?_ _ _ _ _ _ (sub_of rfl hs)
    | with_reducible refine finish_only ?_  (sub_of rfl hs)
    | with_reducible refine idle_only ?_  (sub_of rfl hs)
    | with_reducible refine State.vexc_only ?_ _ _ _ (sub_of rfl hs)
    | with_reducible refine State.setThread_only ?_ _ _ (sub_of rfl hs)
    | with_reducible refine State.vatDrop_only ?_ _ (sub_of rfl hs)
    | with_reducible refine finish_only ?_ (sub_of rfl hs)
    | with_reducible refine idle_only ?_
    | split
    | (with_reducible refine Only.foldl _ (fun _ _ _ => ?_) _ _ ?_)
    | ((with_reducible apply upd_only); rotate_left; iterate 39 (first | exact Or.inr (by with_reducible rfl) | exact Or.inl (mem_of_sub hs rfl) | exact Or.inl (sub_of rfl hs) | exact Or.inr rfl | exact Or.inr ⟨rfl, rfl⟩ | exact Or.inr ⟨rfl, rfl, rfl⟩))


theorem State.attach_only (h : Only ps a s) (x1 x2 x3) (hs : sub [.sac, .vat] ps = true) : Only ps a (State.attach s x1 x2 x3) := by
  unfold State.attach
  try dsimp only
  repeat' first
    | with_reducible assumption
    | with_reducible refine State.modSac_only ?_ _ _ (sub_of rfl hs)
    | with_reducible refine State.setThread_only ?_ _ _ (sub_of rfl hs)
    | split
    | (with_reducible refine Only.foldl _ (fun _ _ _ => ?_) _ _ ?_)
    | ((with_reducible apply upd_only); rotate_left; iterate 39 (first | exact Or.inr (by with_reducible rfl) | exact Or.inl (mem_of_sub hs rfl) | exact Or.inl (sub_of rfl hs) | exact Or.inr rfl | exact Or.inr ⟨rfl, rfl⟩ | exact Or.inr ⟨rfl, rfl, rfl⟩))


theorem State.attStall_only (h : Only ps a s) (x1 x2 x3 x4 x5) (hs : sub [.counts, .vat] ps = true) : Only ps a (State.attStall s x1 x2 x3 x4 x5) := by
  unfold State.attStall
  try dsimp only
  repeat' first
    | with_reducible assumption
    | with_reducible refine State.countMill_only ?_ _ _ _ _ _ (sub_of rfl hs)
    | with_reducible refine State.setThread_only ?_ _ _ (sub_of rfl hs)
    | split
    | (with_reducible refine Only.foldl _ (fun _ _ _ => ?_) _ _ ?_)
    | ((with_reducible apply upd_only); rotate_left; iterate 39 (first | exact Or.inr (by with_reducible rfl) | exact Or.inl (mem_of_sub hs rfl) | exact Or.inl (sub_of rfl hs) | exact Or.inr rfl | exact Or.inr ⟨rfl, rfl⟩ | exact Or.inr ⟨rfl, rfl, rfl⟩))


theorem State.countRefused_only (h : Only ps a s) (x1 x2) (hs : sub [.counts, .mem, .sac, .sa] ps = true) : Only ps a (State.countRefused s x1 x2) := by
  unfold State.countRefused
  try dsimp only
  repeat' first
    | with_reducible assumption
    | with_reducible refine State.modSac_only ?_ _ _ (sub_of rfl hs)
    | with_reducible refine State.startFill_only ?_ _ _ _ (sub_of rfl hs)
    | split
    | (with_reducible refine Only.foldl _ (fun _ _ _ => ?_) _ _ ?_)
    | ((with_reducible apply upd_only); rotate_left; iterate 39 (first | exact Or.inr (by with_reducible rfl) | exact Or.inl (mem_of_sub hs rfl) | exact Or.inl (sub_of rfl hs) | exact Or.inr rfl | exact Or.inr ⟨rfl, rfl⟩ | exact Or.inr ⟨rfl, rfl, rfl⟩))


theorem execSaCacheAttach_only (h : Only ps a s) (x0) (hs : sub [.out, .irq, .counts, .evrQueue, .mem, .sac, .vat, .sch, .trib, .sa, .cur, .mte] ps = true) : OnlyR ps a (execSaCacheAttach x0 s) := by
  unfold execSaCacheAttach
  try dsimp only
  repeat' first
    | with_reducible assumption
    | with_reducible refine State.countMill_only ?_ _ _ _ _ _ (sub_of rfl hs)
    | with_reducible refine State.modSac_only ?_ _ _ (sub_of rfl hs)
    | with_reducible refine finish_only ?_  (sub_of rfl hs)
    | with_reducible refine idle_only ?_  (sub_of rfl hs)
    | with_reducible refine State.startFill_only ?_ _ _ _ (sub_of rfl hs)
    | with_reducible refine State.vexc_only ?_ _ _ _ (sub_of rfl hs)
    | with_reducible refine State.setThread_only ?_ _ _ (sub_of rfl hs)
    | with_reducible refine State.countRefused_only ?_ _ _ (sub_of rfl hs)
    | with_reducible refine State.attach_only ?_ _ _ _ (sub_of rfl hs)
    | with_reducible refine State.attStall_only ?_ _ _ _ _ _ (sub_of rfl hs)
    | with_reducible refine finish_only ?_ (sub_of rfl hs)
    | with_reducible refine idle_only ?_
    | split
    | (with_reducible refine Only.foldl _ (fun _ _ _ => ?_) _ _ ?_)
    | ((with_reducible apply upd_only); rotate_left; iterate 39 (first | exact Or.inr (by with_reducible rfl) | exact Or.inl (mem_of_sub hs rfl) | exact Or.inl (sub_of rfl hs) | exact Or.inr rfl | exact Or.inr ⟨rfl, rfl⟩ | exact Or.inr ⟨rfl, rfl, rfl⟩))


theorem execIssueLimit_only (h : Only ps a s) (x0) (hs : sub [.out, .irq, .counts, .evrQueue, .mem, .sac, .vat, .sch, .trib, .sa, .cur, .mte] ps = true) : OnlyR ps a (execIssueLimit x0 s) := by
  unfold execIssueLimit
  try dsimp only
  repeat' first
    | with_reducible assumption
    | with_reducible refine State.countMill_only ?_ _ _ _ _ _ (sub_of rfl hs)
    | with_reducible refine finish_only ?_  (sub_of rfl hs)
    | with_reducible refine idle_only ?_  (sub_of rfl hs)
    | with_reducible refine State.countExc_only ?_ _ _ _ (sub_of rfl hs)
    | with_reducible refine State.vatDrop_only ?_ _ (sub_of rfl hs)
    | with_reducible refine finish_only ?_ (sub_of rfl hs)
    | with_reducible refine idle_only ?_
    | split
    | (with_reducible refine Only.foldl _ (fun _ _ _ => ?_) _ _ ?_)
    | ((with_reducible apply upd_only); rotate_left; iterate 39 (first | exact Or.inr (by with_reducible rfl) | exact Or.inl (mem_of_sub hs rfl) | exact Or.inl (sub_of rfl hs) | exact Or.inr rfl | exact Or.inr ⟨rfl, rfl⟩ | exact Or.inr ⟨rfl, rfl, rfl⟩))


theorem execResidencyLimit_only (h : Only ps a s) (x0) (hs : sub [.out, .irq, .counts, .evrQueue, .mem, .sac, .vat, .sch, .trib, .sa, .cur, .mte] ps = true) : OnlyR ps a (execResidencyLimit x0 s) := by
  unfold execResidencyLimit
  try dsimp only
  repeat' first
    | with_reducible assumption
    | with_reducible refine finish_only ?_  (sub_of rfl hs)
    | with_reducible refine State.countMill_only ?_ _ _ _ _ _ (sub_of rfl hs)
    | with_reducible refine idle_only ?_  (sub_of rfl hs)
    | with_reducible refine State.defaultAction_only ?_ _ _ (sub_of rfl hs)
    | with_reducible refine State.countExc_only ?_ _ _ _ (sub_of rfl hs)
    | with_reducible refine State.vatDrop_only ?_ _ (sub_of rfl hs)
    | with_reducible refine finish_only ?_ (sub_of rfl hs)
    | with_reducible refine idle_only ?_
    | split
    | (with_reducible refine Only.foldl _ (fun _ _ _ => ?_) _ _ ?_)
    | ((with_reducible apply upd_only); rotate_left; iterate 39 (first | exact Or.inr (by with_reducible rfl) | exact Or.inl (mem_of_sub hs rfl) | exact Or.inl (sub_of rfl hs) | exact Or.inr rfl | exact Or.inr ⟨rfl, rfl⟩ | exact Or.inr ⟨rfl, rfl, rfl⟩))


theorem execEnqComplete_only (h : Only ps a s) (x0) (hs : sub [.out, .irq, .counts, .evrQueue, .tim, .mem, .sac, .vat, .sch, .ports, .trib, .tribOld, .sa, .cur, .mte] ps = true) : OnlyR ps a (execEnqComplete x0 s) := by
  unfold execEnqComplete
  try dsimp only
  repeat' first
    | with_reducible assumption
    | with_reducible refine State.countDev_only ?_ _ _ _ _ (sub_of rfl hs)
    | with_reducible refine finish_only ?_  (sub_of rfl hs)
    | with_reducible refine State.fixMill_only ?_ _ _ _ (sub_of rfl hs)
    | with_reducible refine idle_only ?_  (sub_of rfl hs)
    | with_reducible refine State.countMill_only ?_ _ _ _ _ _ (sub_of rfl hs)
    | with_reducible refine State.modSac_only ?_ _ _ (sub_of rfl hs)
    | with_reducible refine State.joinEgress_only ?_ _ _ (sub_of rfl hs)
    | with_reducible refine State.sendTx_only ?_ _ (sub_of rfl hs)
    | with_reducible refine State.dropFrame_only ?_ _ _ (sub_of rfl hs)
    | with_reducible refine State.dropTx_only ?_ _ (sub_of rfl hs)
    | with_reducible refine State.tsCapture_only ?_ _ _ _ (sub_of rfl hs)
    | with_reducible refine State.freeThread_only ?_ _ _ (sub_of rfl hs)
    | with_reducible refine finish_only ?_ (sub_of rfl hs)
    | with_reducible refine idle_only ?_
    | split
    | (with_reducible refine Only.foldl _ (fun _ _ _ => ?_) _ _ ?_)
    | ((with_reducible apply upd_only); rotate_left; iterate 39 (first | exact Or.inr (by with_reducible rfl) | exact Or.inl (mem_of_sub hs rfl) | exact Or.inl (sub_of rfl hs) | exact Or.inr rfl | exact Or.inr ⟨rfl, rfl⟩ | exact Or.inr ⟨rfl, rfl, rfl⟩))


theorem execPuntComplete_only (h : Only ps a s) (x0) (hs : sub [.out, .irq, .counts, .evrQueue, .mem, .sac, .vat, .sch, .trib, .sa, .cur, .mte] ps = true) : OnlyR ps a (execPuntComplete x0 s) := by
  unfold execPuntComplete
  try dsimp only
  repeat' first
    | with_reducible assumption
    | with_reducible refine finish_only ?_  (sub_of rfl hs)
    | with_reducible refine State.modVat_only ?_ _ _ (sub_of rfl hs)
    | with_reducible refine idle_only ?_  (sub_of rfl hs)
    | with_reducible refine State.countMill_only ?_ _ _ _ _ _ (sub_of rfl hs)
    | with_reducible refine State.freeThread_only ?_ _ _ (sub_of rfl hs)
    | with_reducible refine finish_only ?_ (sub_of rfl hs)
    | with_reducible refine idle_only ?_
    | split
    | (with_reducible refine Only.foldl _ (fun _ _ _ => ?_) _ _ ?_)
    | ((with_reducible apply upd_only); rotate_left; iterate 39 (first | exact Or.inr (by with_reducible rfl) | exact Or.inl (mem_of_sub hs rfl) | exact Or.inl (sub_of rfl hs) | exact Or.inr rfl | exact Or.inr ⟨rfl, rfl⟩ | exact Or.inr ⟨rfl, rfl, rfl⟩))


theorem State.clusterRun_only (h : Only ps a s) (x1 x2) (hs : sub [.counts, .vat, .sch, .ports] ps = true) : Only ps a (State.clusterRun s x1 x2) := by
  unfold State.clusterRun
  try dsimp only
  repeat' first
    | with_reducible assumption
    | with_reducible refine State.modVat_only ?_ _ _ (sub_of rfl hs)
    | with_reducible refine State.refill_only ?_ _ (sub_of rfl hs)
    | split
    | (with_reducible refine Only.foldl _ (fun _ _ _ => ?_) _ _ ?_)
    | ((with_reducible apply upd_only); rotate_left; iterate 39 (first | exact Or.inr (by with_reducible rfl) | exact Or.inl (mem_of_sub hs rfl) | exact Or.inl (sub_of rfl hs) | exact Or.inr rfl | exact Or.inr ⟨rfl, rfl⟩ | exact Or.inr ⟨rfl, rfl, rfl⟩))


theorem State.clusterStop_only (h : Only ps a s) (x1 x2) (hs : sub [.counts, .vat, .sch, .ports] ps = true) : Only ps a (State.clusterStop s x1 x2) := by
  unfold State.clusterStop
  try dsimp only
  repeat' first
    | with_reducible assumption
    | with_reducible refine State.modVat_only ?_ _ _ (sub_of rfl hs)
    | with_reducible refine State.refill_only ?_ _ (sub_of rfl hs)
    | split
    | (with_reducible refine Only.foldl _ (fun _ _ _ => ?_) _ _ ?_)
    | ((with_reducible apply upd_only); rotate_left; iterate 39 (first | exact Or.inr (by with_reducible rfl) | exact Or.inl (mem_of_sub hs rfl) | exact Or.inl (sub_of rfl hs) | exact Or.inr rfl | exact Or.inr ⟨rfl, rfl⟩ | exact Or.inr ⟨rfl, rfl, rfl⟩))


theorem execVatClusterRun_only (h : Only ps a s) (x0 x1) (hs : sub [.out, .irq, .counts, .evrQueue, .vat, .sch, .ports] ps = true) : OnlyR ps a (execVatClusterRun x0 x1 s) := by
  unfold execVatClusterRun
  try dsimp only
  repeat' first
    | with_reducible assumption
    | with_reducible refine idle_only ?_  (sub_of rfl hs)
    | with_reducible refine finish_only ?_  (sub_of rfl hs)
    | with_reducible refine State.clusterRun_only ?_ _ _ (sub_of rfl hs)
    | with_reducible refine finish_only ?_ (sub_of rfl hs)
    | with_reducible refine idle_only ?_
    | split
    | (with_reducible refine Only.foldl _ (fun _ _ _ => ?_) _ _ ?_)
    | ((with_reducible apply upd_only); rotate_left; iterate 39 (first | exact Or.inr (by with_reducible rfl) | exact Or.inl (mem_of_sub hs rfl) | exact Or.inl (sub_of rfl hs) | exact Or.inr rfl | exact Or.inr ⟨rfl, rfl⟩ | exact Or.inr ⟨rfl, rfl, rfl⟩))


theorem execVatClusterStop_only (h : Only ps a s) (x0 x1) (hs : sub [.out, .irq, .counts, .evrQueue, .vat, .sch, .ports] ps = true) : OnlyR ps a (execVatClusterStop x0 x1 s) := by
  unfold execVatClusterStop
  try dsimp only
  repeat' first
    | with_reducible assumption
    | with_reducible refine idle_only ?_  (sub_of rfl hs)
    | with_reducible refine finish_only ?_  (sub_of rfl hs)
    | with_reducible refine State.clusterStop_only ?_ _ _ (sub_of rfl hs)
    | with_reducible refine finish_only ?_ (sub_of rfl hs)
    | with_reducible refine idle_only ?_
    | split
    | (with_reducible refine Only.foldl _ (fun _ _ _ => ?_) _ _ ?_)
    | ((with_reducible apply upd_only); rotate_left; iterate 39 (first | exact Or.inr (by with_reducible rfl) | exact Or.inl (mem_of_sub hs rfl) | exact Or.inl (sub_of rfl hs) | exact Or.inr rfl | exact Or.inr ⟨rfl, rfl⟩ | exact Or.inr ⟨rfl, rfl, rfl⟩))


theorem execVatClusterIdle_only (h : Only ps a s) (x0 x1) (hs : sub [.out, .irq, .counts, .evrQueue, .vat] ps = true) : OnlyR ps a (execVatClusterIdle x0 x1 s) := by
  unfold execVatClusterIdle
  try dsimp only
  repeat' first
    | with_reducible assumption
    | with_reducible refine finish_only ?_  (sub_of rfl hs)
    | with_reducible refine State.modVat_only ?_ _ _ (sub_of rfl hs)
    | with_reducible refine idle_only ?_  (sub_of rfl hs)
    | with_reducible refine finish_only ?_ (sub_of rfl hs)
    | with_reducible refine idle_only ?_
    | split
    | (with_reducible refine Only.foldl _ (fun _ _ _ => ?_) _ _ ?_)
    | ((with_reducible apply upd_only); rotate_left; iterate 39 (first | exact Or.inr (by with_reducible rfl) | exact Or.inl (mem_of_sub hs rfl) | exact Or.inl (sub_of rfl hs) | exact Or.inr rfl | exact Or.inr ⟨rfl, rfl⟩ | exact Or.inr ⟨rfl, rfl, rfl⟩))


theorem State.unstage_only (h : Only ps a s) (m : Fin 4) (o n : Nat) (b : Bytes) (ho : 0x980 ≤ o) (hn : o + 4 * n ≤ 0xAC4)
    (hs : sub [.status] ps = true) : Only ps a (s.unstage m o n b) := by
  unfold State.unstage
  refine Only.foldl_mem _ _ _ (fun s i hi h => ?_) h
  have hi' : i < n := List.mem_range.mp hi
  exact State.setReg_only h _ _ (Or.inr (isStatus_vat m _ (by omega) (by omega))) (Or.inl (mem_of_sub hs rfl))

theorem State.htCmd_only (h : Only ps a s) (x1 x2 x3) (hs : sub [.status, .vat] ps = true) : Only ps a (State.htCmd s x1 x2 x3) := by
  unfold State.htCmd
  try dsimp only
  repeat' first
    | with_reducible assumption
    | with_reducible refine State.setReg_only ?_ _ _ (Or.inr (by first | rfl | (simp; done) | decide)) (Or.inl (mem_of_sub hs rfl))
    | with_reducible refine State.modVat_only ?_ _ _ (sub_of rfl hs)
    | with_reducible with_reducible refine State.unstage_only ?_ _ _ _ _ (by decide) (by decide) (sub_of rfl hs)
    | split
    | (with_reducible refine Only.foldl _ (fun _ _ _ => ?_) _ _ ?_)
    | ((with_reducible apply upd_only); rotate_left; iterate 39 (first | exact Or.inr (by with_reducible rfl) | exact Or.inl (mem_of_sub hs rfl) | exact Or.inl (sub_of rfl hs) | exact Or.inr rfl | exact Or.inr ⟨rfl, rfl⟩ | exact Or.inr ⟨rfl, rfl, rfl⟩))


theorem State.tcamCmd_only (h : Only ps a s) (x1 x2 x3) (hs : sub [.status, .vat] ps = true) : Only ps a (State.tcamCmd s x1 x2 x3) := by
  unfold State.tcamCmd
  try dsimp only
  repeat' first
    | with_reducible assumption
    | with_reducible refine State.setReg_only ?_ _ _ (Or.inr (by first | rfl | (simp; done) | decide)) (Or.inl (mem_of_sub hs rfl))
    | with_reducible refine State.modVat_only ?_ _ _ (sub_of rfl hs)
    | with_reducible with_reducible refine State.unstage_only ?_ _ _ _ _ (by decide) (by decide) (sub_of rfl hs)
    | split
    | (with_reducible refine Only.foldl _ (fun _ _ _ => ?_) _ _ ?_)
    | ((with_reducible apply upd_only); rotate_left; iterate 39 (first | exact Or.inr (by with_reducible rfl) | exact Or.inl (mem_of_sub hs rfl) | exact Or.inl (sub_of rfl hs) | exact Or.inr rfl | exact Or.inr ⟨rfl, rfl⟩ | exact Or.inr ⟨rfl, rfl, rfl⟩))


theorem execHtEntryWrite_only (h : Only ps a s) (x0 x1) (hs : sub [.out, .status, .irq, .counts, .evrQueue, .vat] ps = true) : OnlyR ps a (execHtEntryWrite x0 x1 s) := by
  unfold execHtEntryWrite
  try dsimp only
  repeat' first
    | with_reducible assumption
    | with_reducible refine idle_only ?_  (sub_of rfl hs)
    | with_reducible refine finish_only ?_  (sub_of rfl hs)
    | with_reducible refine State.htCmd_only ?_ _ _ _ (sub_of rfl hs)
    | with_reducible refine finish_only ?_ (sub_of rfl hs)
    | with_reducible refine idle_only ?_
    | split
    | (with_reducible refine Only.foldl _ (fun _ _ _ => ?_) _ _ ?_)
    | ((with_reducible apply upd_only); rotate_left; iterate 39 (first | exact Or.inr (by with_reducible rfl) | exact Or.inl (mem_of_sub hs rfl) | exact Or.inl (sub_of rfl hs) | exact Or.inr rfl | exact Or.inr ⟨rfl, rfl⟩ | exact Or.inr ⟨rfl, rfl, rfl⟩))


theorem execHtEntryRead_only (h : Only ps a s) (x0 x1) (hs : sub [.out, .status, .irq, .counts, .evrQueue, .vat] ps = true) : OnlyR ps a (execHtEntryRead x0 x1 s) := by
  unfold execHtEntryRead
  try dsimp only
  repeat' first
    | with_reducible assumption
    | with_reducible refine idle_only ?_  (sub_of rfl hs)
    | with_reducible refine finish_only ?_  (sub_of rfl hs)
    | with_reducible refine State.htCmd_only ?_ _ _ _ (sub_of rfl hs)
    | with_reducible refine finish_only ?_ (sub_of rfl hs)
    | with_reducible refine idle_only ?_
    | split
    | (with_reducible refine Only.foldl _ (fun _ _ _ => ?_) _ _ ?_)
    | ((with_reducible apply upd_only); rotate_left; iterate 39 (first | exact Or.inr (by with_reducible rfl) | exact Or.inl (mem_of_sub hs rfl) | exact Or.inl (sub_of rfl hs) | exact Or.inr rfl | exact Or.inr ⟨rfl, rfl⟩ | exact Or.inr ⟨rfl, rfl, rfl⟩))


theorem execHtOpDone_only (h : Only ps a s) (x0) (hs : sub [.out, .irq, .counts, .evrQueue, .vat] ps = true) : OnlyR ps a (execHtOpDone x0 s) := by
  unfold execHtOpDone
  try dsimp only
  repeat' first
    | with_reducible assumption
    | with_reducible refine finish_only ?_  (sub_of rfl hs)
    | with_reducible refine State.modVat_only ?_ _ _ (sub_of rfl hs)
    | with_reducible refine idle_only ?_  (sub_of rfl hs)
    | with_reducible refine finish_only ?_ (sub_of rfl hs)
    | with_reducible refine idle_only ?_
    | split
    | (with_reducible refine Only.foldl _ (fun _ _ _ => ?_) _ _ ?_)
    | ((with_reducible apply upd_only); rotate_left; iterate 39 (first | exact Or.inr (by with_reducible rfl) | exact Or.inl (mem_of_sub hs rfl) | exact Or.inl (sub_of rfl hs) | exact Or.inr rfl | exact Or.inr ⟨rfl, rfl⟩ | exact Or.inr ⟨rfl, rfl, rfl⟩))


theorem execTcamEntryWrite_only (h : Only ps a s) (x0 x1) (hs : sub [.out, .status, .irq, .counts, .evrQueue, .vat] ps = true) : OnlyR ps a (execTcamEntryWrite x0 x1 s) := by
  unfold execTcamEntryWrite
  try dsimp only
  repeat' first
    | with_reducible assumption
    | with_reducible refine idle_only ?_  (sub_of rfl hs)
    | with_reducible refine finish_only ?_  (sub_of rfl hs)
    | with_reducible refine State.tcamCmd_only ?_ _ _ _ (sub_of rfl hs)
    | with_reducible refine finish_only ?_ (sub_of rfl hs)
    | with_reducible refine idle_only ?_
    | split
    | (with_reducible refine Only.foldl _ (fun _ _ _ => ?_) _ _ ?_)
    | ((with_reducible apply upd_only); rotate_left; iterate 39 (first | exact Or.inr (by with_reducible rfl) | exact Or.inl (mem_of_sub hs rfl) | exact Or.inl (sub_of rfl hs) | exact Or.inr rfl | exact Or.inr ⟨rfl, rfl⟩ | exact Or.inr ⟨rfl, rfl, rfl⟩))


theorem execTcamEntryRead_only (h : Only ps a s) (x0 x1) (hs : sub [.out, .status, .irq, .counts, .evrQueue, .vat] ps = true) : OnlyR ps a (execTcamEntryRead x0 x1 s) := by
  unfold execTcamEntryRead
  try dsimp only
  repeat' first
    | with_reducible assumption
    | with_reducible refine idle_only ?_  (sub_of rfl hs)
    | with_reducible refine finish_only ?_  (sub_of rfl hs)
    | with_reducible refine State.tcamCmd_only ?_ _ _ _ (sub_of rfl hs)
    | with_reducible refine finish_only ?_ (sub_of rfl hs)
    | with_reducible refine idle_only ?_
    | split
    | (with_reducible refine Only.foldl _ (fun _ _ _ => ?_) _ _ ?_)
    | ((with_reducible apply upd_only); rotate_left; iterate 39 (first | exact Or.inr (by with_reducible rfl) | exact Or.inl (mem_of_sub hs rfl) | exact Or.inl (sub_of rfl hs) | exact Or.inr rfl | exact Or.inr ⟨rfl, rfl⟩ | exact Or.inr ⟨rfl, rfl, rfl⟩))


theorem execTcamOpDone_only (h : Only ps a s) (x0) (hs : sub [.out, .irq, .counts, .evrQueue, .vat] ps = true) : OnlyR ps a (execTcamOpDone x0 s) := by
  unfold execTcamOpDone
  try dsimp only
  repeat' first
    | with_reducible assumption
    | with_reducible refine finish_only ?_  (sub_of rfl hs)
    | with_reducible refine State.modVat_only ?_ _ _ (sub_of rfl hs)
    | with_reducible refine idle_only ?_  (sub_of rfl hs)
    | with_reducible refine finish_only ?_ (sub_of rfl hs)
    | with_reducible refine idle_only ?_
    | split
    | (with_reducible refine Only.foldl _ (fun _ _ _ => ?_) _ _ ?_)
    | ((with_reducible apply upd_only); rotate_left; iterate 39 (first | exact Or.inr (by with_reducible rfl) | exact Or.inl (mem_of_sub hs rfl) | exact Or.inl (sub_of rfl hs) | exact Or.inr rfl | exact Or.inr ⟨rfl, rfl⟩ | exact Or.inr ⟨rfl, rfl, rfl⟩))


end Sys2Proof.Machine
end

