-- ==== Sys2Proof/Laws/OnlySched.lean ====
section
/-! SUPPORT. What each operation of Machine/Sched.lean may change. -/

set_option linter.unusedTactic false
set_option linter.unreachableTactic false
set_option linter.unusedVariables false
set_option linter.unusedSimpArgs false

namespace Sys2Proof.Machine

variable {ps : List Area} {a s : State}

theorem State.setShaper_only (h : Only ps a s) (x1 x2 x3 x4) (hs : sub [.sch, .trib, .tribOld] ps = true) : Only ps a (State.setShaper s x1 x2 x3 x4) := by
  unfold State.setShaper
  try dsimp only
  repeat' first
    | with_reducible assumption
    | with_reducible refine State.modTrib_only ?_ _ _ (sub_of rfl hs)
    | with_reducible refine State.wake_only ?_ _ _ (sub_of rfl hs)
    | split
    | (with_reducible refine Only.foldl _ (fun _ _ _ => ?_) _ _ ?_)
    | ((with_reducible apply upd_only); rotate_left; iterate 39 (first | exact Or.inr (by with_reducible rfl) | exact Or.inl (mem_of_sub hs rfl) | exact Or.inl (sub_of rfl hs) | exact Or.inr rfl | exact Or.inr ⟨rfl, rfl⟩ | exact Or.inr ⟨rfl, rfl, rfl⟩))


theorem applyShpset_only (h : Only ps a s) (x1 x2) (hs : sub [.out, .counts, .sch, .trib, .tribOld, .mte] ps = true) : Only ps a (applyShpset s x1 x2).s := by
  unfold applyShpset
  try dsimp only
  repeat' first
    | with_reducible assumption
    | with_reducible refine State.delta_only ?_ _ _ (sub_of rfl hs)
    | with_reducible refine State.delta_only_of (by assumption) ?_ (sub_of rfl hs)
    | with_reducible refine State.setShaper_only ?_ _ _ _ _ (sub_of rfl hs)
    | split
    | (with_reducible refine Only.foldl _ (fun _ _ _ => ?_) _ _ ?_)
    | ((with_reducible apply upd_only); rotate_left; iterate 39 (first | exact Or.inr (by with_reducible rfl) | exact Or.inl (mem_of_sub hs rfl) | exact Or.inl (sub_of rfl hs) | exact Or.inr rfl | exact Or.inr ⟨rfl, rfl⟩ | exact Or.inr ⟨rfl, rfl, rfl⟩))


theorem execShpset_only (h : Only ps a s) (x0) (hs : sub [.out, .irq, .counts, .evrQueue, .sch, .trib, .tribOld, .cur, .mte] ps = true) : OnlyR ps a (execShpset x0 s) := by
  unfold execShpset
  try dsimp only
  repeat' first
    | with_reducible assumption
    | ((with_reducible refine State.issue_only ?_ _ _ _ _ (fun _ _ _ _ => ?_) (sub_of rfl hs)); rotate_left)
    | ((with_reducible refine State.doApply_only ?_ _ _ _ _ (fun _ _ _ _ => ?_) (sub_of rfl hs)); rotate_left)
    | with_reducible refine applyShpset_only ?_ _ _ (sub_of rfl hs)
    | with_reducible refine finish_only ?_ (sub_of rfl hs)
    | with_reducible refine idle_only ?_
    | split
    | (with_reducible refine Only.foldl _ (fun _ _ _ => ?_) _ _ ?_)
    | ((with_reducible apply upd_only); rotate_left; iterate 39 (first | exact Or.inr (by with_reducible rfl) | exact Or.inl (mem_of_sub hs rfl) | exact Or.inl (sub_of rfl hs) | exact Or.inr rfl | exact Or.inr ⟨rfl, rfl⟩ | exact Or.inr ⟨rfl, rfl, rfl⟩))


theorem State.setPolicer_only (h : Only ps a s) (x1 x2 x3) (hs : sub [.sch] ps = true) : Only ps a (State.setPolicer s x1 x2 x3) := by
  unfold State.setPolicer
  try dsimp only
  repeat' first
    | with_reducible assumption
    | with_reducible refine State.modSch_only ?_ _ _ (sub_of rfl hs)
    | split
    | (with_reducible refine Only.foldl _ (fun _ _ _ => ?_) _ _ ?_)
    | ((with_reducible apply upd_only); rotate_left; iterate 39 (first | exact Or.inr (by with_reducible rfl) | exact Or.inl (mem_of_sub hs rfl) | exact Or.inl (sub_of rfl hs) | exact Or.inr rfl | exact Or.inr ⟨rfl, rfl⟩ | exact Or.inr ⟨rfl, rfl, rfl⟩))


theorem applyPolset_only (h : Only ps a s) (x1 x2) (hs : sub [.out, .counts, .sch, .mte] ps = true) : Only ps a (applyPolset s x1 x2).s := by
  unfold applyPolset
  try dsimp only
  repeat' first
    | with_reducible assumption
    | with_reducible refine State.delta_only ?_ _ _ (sub_of rfl hs)
    | with_reducible refine State.delta_only_of (by assumption) ?_ (sub_of rfl hs)
    | with_reducible refine State.setPolicer_only ?_ _ _ _ (sub_of rfl hs)
    | split
    | (with_reducible refine Only.foldl _ (fun _ _ _ => ?_) _ _ ?_)
    | ((with_reducible apply upd_only); rotate_left; iterate 39 (first | exact Or.inr (by with_reducible rfl) | exact Or.inl (mem_of_sub hs rfl) | exact Or.inl (sub_of rfl hs) | exact Or.inr rfl | exact Or.inr ⟨rfl, rfl⟩ | exact Or.inr ⟨rfl, rfl, rfl⟩))


theorem execPolset_only (h : Only ps a s) (x0) (hs : sub [.out, .irq, .counts, .evrQueue, .sch, .cur, .mte] ps = true) : OnlyR ps a (execPolset x0 s) := by
  unfold execPolset
  try dsimp only
  repeat' first
    | with_reducible assumption
    | ((with_reducible refine State.issue_only ?_ _ _ _ _ (fun _ _ _ _ => ?_) (sub_of rfl hs)); rotate_left)
    | ((with_reducible refine State.doApply_only ?_ _ _ _ _ (fun _ _ _ _ => ?_) (sub_of rfl hs)); rotate_left)
    | with_reducible refine applyPolset_only ?_ _ _ (sub_of rfl hs)
    | with_reducible refine finish_only ?_ (sub_of rfl hs)
    | with_reducible refine idle_only ?_
    | split
    | (with_reducible refine Only.foldl _ (fun _ _ _ => ?_) _ _ ?_)
    | ((with_reducible apply upd_only); rotate_left; iterate 39 (first | exact Or.inr (by with_reducible rfl) | exact Or.inl (mem_of_sub hs rfl) | exact Or.inl (sub_of rfl hs) | exact Or.inr rfl | exact Or.inr ⟨rfl, rfl⟩ | exact Or.inr ⟨rfl, rfl, rfl⟩))


theorem State.tribDelta_only (h : Only ps a s) (x1) (hs : sub [.out, .counts, .mte] ps = true) : Only ps a (State.tribDelta s x1).1 := by
  unfold State.tribDelta
  try dsimp only
  repeat' first
    | with_reducible assumption
    | with_reducible refine State.delta_only ?_ _ _ (sub_of rfl hs)
    | with_reducible refine State.delta_only_of (by assumption) ?_ (sub_of rfl hs)
    | split
    | (with_reducible refine Only.foldl _ (fun _ _ _ => ?_) _ _ ?_)
    | ((with_reducible apply upd_only); rotate_left; iterate 39 (first | exact Or.inr (by with_reducible rfl) | exact Or.inl (mem_of_sub hs rfl) | exact Or.inl (sub_of rfl hs) | exact Or.inr rfl | exact Or.inr ⟨rfl, rfl⟩ | exact Or.inr ⟨rfl, rfl, rfl⟩))

theorem State.tribDelta_only_of {t : State} {x1} {r} (e : State.tribDelta s x1 = (t, r)) (h : Only ps a s) (hs : sub [.out, .counts, .mte] ps = true) : Only ps a t := by
  have := State.tribDelta_only h x1 hs
  rw [e] at this
  exact this


theorem State.startStream_only (h : Only ps a s) (x1 x2) (hs : sub [.line] ps = true) : Only ps a (State.startStream s x1 x2) := by
  unfold State.startStream
  try dsimp only
  repeat' first
    | with_reducible assumption
    | with_reducible refine State.modLine_only ?_ _ _ (sub_of rfl hs)
    | split
    | (with_reducible refine Only.foldl _ (fun _ _ _ => ?_) _ _ ?_)
    | ((with_reducible apply upd_only); rotate_left; iterate 39 (first | exact Or.inr (by with_reducible rfl) | exact Or.inl (mem_of_sub hs rfl) | exact Or.inl (sub_of rfl hs) | exact Or.inr rfl | exact Or.inr ⟨rfl, rfl⟩ | exact Or.inr ⟨rfl, rfl, rfl⟩))


theorem State.startTrib_only (h : Only ps a s) (x1 x2 x3 x4 x5 x6 x7) (hs : sub [.line, .trib] ps = true) : Only ps a (State.startTrib s x1 x2 x3 x4 x5 x6 x7) := by
  unfold State.startTrib
  try dsimp only
  repeat' first
    | with_reducible assumption
    | with_reducible refine State.setTrib_only ?_ _ _ (sub_of rfl hs)
    | with_reducible refine State.startStream_only ?_ _ _ (sub_of rfl hs)
    | split
    | (with_reducible refine Only.foldl _ (fun _ _ _ => ?_) _ _ ?_)
    | ((with_reducible apply upd_only); rotate_left; iterate 39 (first | exact Or.inr (by with_reducible rfl) | exact Or.inl (mem_of_sub hs rfl) | exact Or.inl (sub_of rfl hs) | exact Or.inr rfl | exact Or.inr ⟨rfl, rfl⟩ | exact Or.inr ⟨rfl, rfl, rfl⟩))


theorem applyQcfgActivate_only (h : Only ps a s) (x1 x2) (hs : sub [.out, .counts, .line, .trib, .mte] ps = true) : Only ps a (applyQcfgActivate s x1 x2).s := by
  unfold applyQcfgActivate
  try dsimp only
  repeat' first
    | with_reducible assumption
    | with_reducible refine State.startTrib_only ?_ _ _ _ _ _ _ _ (sub_of rfl hs)
    | with_reducible refine State.tribDelta_only ?_ _ (sub_of rfl hs)
    | with_reducible refine State.tribDelta_only_of (by assumption) ?_ (sub_of rfl hs)
    | split
    | (with_reducible refine Only.foldl _ (fun _ _ _ => ?_) _ _ ?_)
    | ((with_reducible apply upd_only); rotate_left; iterate 39 (first | exact Or.inr (by with_reducible rfl) | exact Or.inl (mem_of_sub hs rfl) | exact Or.inl (sub_of rfl hs) | exact Or.inr rfl | exact Or.inr ⟨rfl, rfl⟩ | exact Or.inr ⟨rfl, rfl, rfl⟩))


theorem execQcfgActivate_only (h : Only ps a s) (x0) (hs : sub [.out, .irq, .counts, .evrQueue, .line, .trib, .cur, .mte] ps = true) : OnlyR ps a (execQcfgActivate x0 s) := by
  unfold execQcfgActivate
  try dsimp only
  repeat' first
    | with_reducible assumption
    | ((with_reducible refine State.issue_only ?_ _ _ _ _ (fun _ _ _ _ => ?_) (sub_of rfl hs)); rotate_left)
    | ((with_reducible refine State.doApply_only ?_ _ _ _ _ (fun _ _ _ _ => ?_) (sub_of rfl hs)); rotate_left)
    | with_reducible refine applyQcfgActivate_only ?_ _ _ (sub_of rfl hs)
    | with_reducible refine finish_only ?_ (sub_of rfl hs)
    | with_reducible refine idle_only ?_
    | split
    | (with_reducible refine Only.foldl _ (fun _ _ _ => ?_) _ _ ?_)
    | ((with_reducible apply upd_only); rotate_left; iterate 39 (first | exact Or.inr (by with_reducible rfl) | exact Or.inl (mem_of_sub hs rfl) | exact Or.inl (sub_of rfl hs) | exact Or.inr rfl | exact Or.inr ⟨rfl, rfl⟩ | exact Or.inr ⟨rfl, rfl, rfl⟩))


theorem State.cutStream_only (h : Only ps a s) (x1 x2) (hs : sub [.out, .counts, .sch, .ports] ps = true) : Only ps a (State.cutStream s x1 x2) := by
  unfold State.cutStream
  try dsimp only
  repeat' first
    | with_reducible assumption
    | with_reducible refine State.modSch_only ?_ _ _ (sub_of rfl hs)
    | with_reducible refine State.holdPri_only ?_ _ _ _ _ (sub_of rfl hs)
    | split
    | (with_reducible refine Only.foldl _ (fun _ _ _ => ?_) _ _ ?_)
    | ((with_reducible apply upd_only); rotate_left; iterate 39 (first | exact Or.inr (by with_reducible rfl) | exact Or.inl (mem_of_sub hs rfl) | exact Or.inl (sub_of rfl hs) | exact Or.inr rfl | exact Or.inr ⟨rfl, rfl⟩ | exact Or.inr ⟨rfl, rfl, rfl⟩))


theorem State.endRx_only (h : Only ps a s) (x1 x2) (hs : sub [.counts, .line, .sch] ps = true) : Only ps a (State.endRx s x1 x2) := by
  unfold State.endRx
  try dsimp only
  repeat' first
    | with_reducible assumption
    | with_reducible refine State.modLine_only ?_ _ _ (sub_of rfl hs)
    | with_reducible refine State.fixMill_only ?_ _ _ _ (sub_of rfl hs)
    | with_reducible refine State.modSch_only ?_ _ _ (sub_of rfl hs)
    | split
    | (with_reducible refine Only.foldl _ (fun _ _ _ => ?_) _ _ ?_)
    | ((with_reducible apply upd_only); rotate_left; iterate 39 (first | exact Or.inr (by with_reducible rfl) | exact Or.inl (mem_of_sub hs rfl) | exact Or.inl (sub_of rfl hs) | exact Or.inr rfl | exact Or.inr ⟨rfl, rfl⟩ | exact Or.inr ⟨rfl, rfl, rfl⟩))


theorem State.endTx_only (h : Only ps a s) (x1 x2 x3) (hs : sub [.out, .counts, .sch, .ports] ps = true) : Only ps a (State.endTx s x1 x2 x3) := by
  unfold State.endTx
  try dsimp only
  repeat' first
    | with_reducible assumption
    | with_reducible refine State.unlist_only ?_ _ _ (sub_of rfl hs)
    | with_reducible refine State.flushTx_only ?_ _ _ (sub_of rfl hs)
    | with_reducible refine State.cutStream_only ?_ _ _ (sub_of rfl hs)
    | split
    | (with_reducible refine Only.foldl _ (fun _ _ _ => ?_) _ _ ?_)
    | ((with_reducible apply upd_only); rotate_left; iterate 39 (first | exact Or.inr (by with_reducible rfl) | exact Or.inl (mem_of_sub hs rfl) | exact Or.inl (sub_of rfl hs) | exact Or.inr rfl | exact Or.inr ⟨rfl, rfl⟩ | exact Or.inr ⟨rfl, rfl, rfl⟩))


theorem State.endSide_only (h : Only ps a s) (x1 x2 x3) (hs : sub [.out, .counts, .line, .sch, .ports] ps = true) : Only ps a (State.endSide s x1 x2 x3) := by
  unfold State.endSide
  try dsimp only
  repeat' first
    | with_reducible assumption
    | with_reducible refine State.endTx_only ?_ _ _ _ (sub_of rfl hs)
    | with_reducible refine State.endRx_only ?_ _ _ (sub_of rfl hs)
    | split
    | (with_reducible refine Only.foldl _ (fun _ _ _ => ?_) _ _ ?_)
    | ((with_reducible apply upd_only); rotate_left; iterate 39 (first | exact Or.inr (by with_reducible rfl) | exact Or.inl (mem_of_sub hs rfl) | exact Or.inl (sub_of rfl hs) | exact Or.inr rfl | exact Or.inr ⟨rfl, rfl⟩ | exact Or.inr ⟨rfl, rfl, rfl⟩))


theorem State.oweEnd_only (h : Only ps a s) (x1 x2 x3) (hs : sub [.line] ps = true) : Only ps a (State.oweEnd s x1 x2 x3) := by
  unfold State.oweEnd
  try dsimp only
  repeat' first
    | with_reducible assumption
    | with_reducible refine State.modLine_only ?_ _ _ (sub_of rfl hs)
    | split
    | (with_reducible refine Only.foldl _ (fun _ _ _ => ?_) _ _ ?_)
    | ((with_reducible apply upd_only); rotate_left; iterate 39 (first | exact Or.inr (by with_reducible rfl) | exact Or.inl (mem_of_sub hs rfl) | exact Or.inl (sub_of rfl hs) | exact Or.inr rfl | exact Or.inr ⟨rfl, rfl⟩ | exact Or.inr ⟨rfl, rfl, rfl⟩))


theorem State.endMove_only (h : Only ps a s) (x1) (hs : sub [.out, .counts, .evrQueue, .line, .sch, .ports, .trib, .tribOld, .cur] ps = true) : Only ps a (State.endMove s x1) := by
  unfold State.endMove
  try dsimp only
  repeat' first
    | with_reducible assumption
    | with_reducible refine State.modTrib_only ?_ _ _ (sub_of rfl hs)
    | with_reducible refine State.completeOpt_only ?_ _ _ _ _ _ (sub_of rfl hs)
    | with_reducible refine State.setOld_only ?_ _ _ (sub_of rfl hs)
    | with_reducible refine State.oweEnd_only ?_ _ _ _ (sub_of rfl hs)
    | with_reducible refine State.endTx_only ?_ _ _ _ (sub_of rfl hs)
    | split
    | (with_reducible refine Only.foldl _ (fun _ _ _ => ?_) _ _ ?_)
    | ((with_reducible apply upd_only); rotate_left; iterate 39 (first | exact Or.inr (by with_reducible rfl) | exact Or.inl (mem_of_sub hs rfl) | exact Or.inl (sub_of rfl hs) | exact Or.inr rfl | exact Or.inr ⟨rfl, rfl⟩ | exact Or.inr ⟨rfl, rfl, rfl⟩))


theorem State.clearReady_only (h : Only ps a s) (x1 x2) (hs : sub [.dkl] ps = true) : Only ps a (State.clearReady s x1 x2) := by
  unfold State.clearReady
  try dsimp only
  repeat' first
    | with_reducible assumption
    | with_reducible refine State.modDkl_only ?_ _ _ (sub_of rfl hs)
    | split
    | (with_reducible refine Only.foldl _ (fun _ _ _ => ?_) _ _ ?_)
    | ((with_reducible apply upd_only); rotate_left; iterate 39 (first | exact Or.inr (by with_reducible rfl) | exact Or.inl (mem_of_sub hs rfl) | exact Or.inl (sub_of rfl hs) | exact Or.inr rfl | exact Or.inr ⟨rfl, rfl⟩ | exact Or.inr ⟨rfl, rfl, rfl⟩))


theorem State.stopTrib_only (h : Only ps a s) (x1 x2) (hs : sub [.out, .counts, .evrQueue, .line, .dkl, .sch, .ports, .trib, .tribOld, .cur] ps = true) : Only ps a (State.stopTrib s x1 x2) := by
  unfold State.stopTrib
  try dsimp only
  repeat' first
    | with_reducible assumption
    | with_reducible refine State.setTrib_only ?_ _ _ (sub_of rfl hs)
    | with_reducible refine State.endMove_only ?_ _ (sub_of rfl hs)
    | with_reducible refine State.clearReady_only ?_ _ _ (sub_of rfl hs)
    | with_reducible refine State.endSide_only ?_ _ _ _ (sub_of rfl hs)
    | split
    | (with_reducible refine Only.foldl _ (fun _ _ _ => ?_) _ _ ?_)
    | ((with_reducible apply upd_only); rotate_left; iterate 39 (first | exact Or.inr (by with_reducible rfl) | exact Or.inl (mem_of_sub hs rfl) | exact Or.inl (sub_of rfl hs) | exact Or.inr rfl | exact Or.inr ⟨rfl, rfl⟩ | exact Or.inr ⟨rfl, rfl, rfl⟩))


theorem applyQcfgDeactivate_only (h : Only ps a s) (x1 x2) (hs : sub [.out, .counts, .evrQueue, .line, .dkl, .sch, .ports, .trib, .tribOld, .cur, .mte] ps = true) : Only ps a (applyQcfgDeactivate s x1 x2).s := by
  unfold applyQcfgDeactivate
  try dsimp only
  repeat' first
    | with_reducible assumption
    | with_reducible refine State.tribDelta_only ?_ _ (sub_of rfl hs)
    | with_reducible refine State.tribDelta_only_of (by assumption) ?_ (sub_of rfl hs)
    | with_reducible refine State.stopTrib_only ?_ _ _ (sub_of rfl hs)
    | split
    | (with_reducible refine Only.foldl _ (fun _ _ _ => ?_) _ _ ?_)
    | ((with_reducible apply upd_only); rotate_left; iterate 39 (first | exact Or.inr (by with_reducible rfl) | exact Or.inl (mem_of_sub hs rfl) | exact Or.inl (sub_of rfl hs) | exact Or.inr rfl | exact Or.inr ⟨rfl, rfl⟩ | exact Or.inr ⟨rfl, rfl, rfl⟩))


theorem execQcfgDeactivate_only (h : Only ps a s) (x0) (hs : sub [.out, .irq, .counts, .evrQueue, .line, .dkl, .sch, .ports, .trib, .tribOld, .cur, .mte] ps = true) : OnlyR ps a (execQcfgDeactivate x0 s) := by
  unfold execQcfgDeactivate
  try dsimp only
  repeat' first
    | with_reducible assumption
    | ((with_reducible refine State.issue_only ?_ _ _ _ _ (fun _ _ _ _ => ?_) (sub_of rfl hs)); rotate_left)
    | ((with_reducible refine State.doApply_only ?_ _ _ _ _ (fun _ _ _ _ => ?_) (sub_of rfl hs)); rotate_left)
    | with_reducible refine applyQcfgDeactivate_only ?_ _ _ (sub_of rfl hs)
    | with_reducible refine finish_only ?_ (sub_of rfl hs)
    | with_reducible refine idle_only ?_
    | split
    | (with_reducible refine Only.foldl _ (fun _ _ _ => ?_) _ _ ?_)
    | ((with_reducible apply upd_only); rotate_left; iterate 39 (first | exact Or.inr (by with_reducible rfl) | exact Or.inl (mem_of_sub hs rfl) | exact Or.inl (sub_of rfl hs) | exact Or.inr rfl | exact Or.inr ⟨rfl, rfl⟩ | exact Or.inr ⟨rfl, rfl, rfl⟩))


theorem State.updateTrib_only (h : Only ps a s) (x1 x2 x3 x4 x5 x6 x7) (hs : sub [.sch, .trib, .tribOld] ps = true) : Only ps a (State.updateTrib s x1 x2 x3 x4 x5 x6 x7) := by
  unfold State.updateTrib
  try dsimp only
  repeat' first
    | with_reducible assumption
    | with_reducible refine State.modTrib_only ?_ _ _ (sub_of rfl hs)
    | with_reducible refine State.wake_only ?_ _ _ (sub_of rfl hs)
    | with_reducible refine State.unlist_only ?_ _ _ (sub_of rfl hs)
    | split
    | (with_reducible refine Only.foldl _ (fun _ _ _ => ?_) _ _ ?_)
    | ((with_reducible apply upd_only); rotate_left; iterate 39 (first | exact Or.inr (by with_reducible rfl) | exact Or.inl (mem_of_sub hs rfl) | exact Or.inl (sub_of rfl hs) | exact Or.inr rfl | exact Or.inr ⟨rfl, rfl⟩ | exact Or.inr ⟨rfl, rfl, rfl⟩))


theorem applyQcfgUpdate_only (h : Only ps a s) (x1 x2) (hs : sub [.out, .counts, .sch, .trib, .tribOld, .mte] ps = true) : Only ps a (applyQcfgUpdate s x1 x2).s := by
  unfold applyQcfgUpdate
  try dsimp only
  repeat' first
    | with_reducible assumption
    | with_reducible refine State.tribDelta_only ?_ _ (sub_of rfl hs)
    | with_reducible refine State.tribDelta_only_of (by assumption) ?_ (sub_of rfl hs)
    | with_reducible refine State.updateTrib_only ?_ _ _ _ _ _ _ _ (sub_of rfl hs)
    | split
    | (with_reducible refine Only.foldl _ (fun _ _ _ => ?_) _ _ ?_)
    | ((with_reducible apply upd_only); rotate_left; iterate 39 (first | exact Or.inr (by with_reducible rfl) | exact Or.inl (mem_of_sub hs rfl) | exact Or.inl (sub_of rfl hs) | exact Or.inr rfl | exact Or.inr ⟨rfl, rfl⟩ | exact Or.inr ⟨rfl, rfl, rfl⟩))


theorem execQcfgUpdate_only (h : Only ps a s) (x0) (hs : sub [.out, .irq, .counts, .evrQueue, .sch, .trib, .tribOld, .cur, .mte] ps = true) : OnlyR ps a (execQcfgUpdate x0 s) := by
  unfold execQcfgUpdate
  try dsimp only
  repeat' first
    | with_reducible assumption
    | ((with_reducible refine State.issue_only ?_ _ _ _ _ (fun _ _ _ _ => ?_) (sub_of rfl hs)); rotate_left)
    | ((with_reducible refine State.doApply_only ?_ _ _ _ _ (fun _ _ _ _ => ?_) (sub_of rfl hs)); rotate_left)
    | with_reducible refine applyQcfgUpdate_only ?_ _ _ (sub_of rfl hs)
    | with_reducible refine finish_only ?_ (sub_of rfl hs)
    | with_reducible refine idle_only ?_
    | split
    | (with_reducible refine Only.foldl _ (fun _ _ _ => ?_) _ _ ?_)
    | ((with_reducible apply upd_only); rotate_left; iterate 39 (first | exact Or.inr (by with_reducible rfl) | exact Or.inl (mem_of_sub hs rfl) | exact Or.inl (sub_of rfl hs) | exact Or.inr rfl | exact Or.inr ⟨rfl, rfl⟩ | exact Or.inr ⟨rfl, rfl, rfl⟩))


theorem State.restage_only (h : Only ps a s) (x1 x2 x3 x4) (hs : sub [.out, .counts, .sch, .ports, .trib, .tribOld] ps = true) : Only ps a (State.restage s x1 x2 x3 x4) := by
  unfold State.restage
  try dsimp only
  repeat' first
    | with_reducible assumption
    | with_reducible refine State.modSch_only ?_ _ _ (sub_of rfl hs)
    | with_reducible refine State.joinTrib_only ?_ _ _ _ (sub_of rfl hs)
    | split
    | (with_reducible refine Only.foldl _ (fun _ _ _ => ?_) _ _ ?_)
    | ((with_reducible apply upd_only); rotate_left; iterate 39 (first | exact Or.inr (by with_reducible rfl) | exact Or.inl (mem_of_sub hs rfl) | exact Or.inl (sub_of rfl hs) | exact Or.inr rfl | exact Or.inr ⟨rfl, rfl⟩ | exact Or.inr ⟨rfl, rfl, rfl⟩))


theorem State.startMove_only (h : Only ps a s) (x1 x2 x3 x4) (hs : sub [.out, .counts, .line, .dkl, .sch, .ports, .trib, .tribOld] ps = true) : Only ps a (State.startMove s x1 x2 x3 x4) := by
  unfold State.startMove
  try dsimp only
  repeat' first
    | with_reducible assumption
    | with_reducible refine State.setTrib_only ?_ _ _ (sub_of rfl hs)
    | with_reducible refine State.setOld_only ?_ _ _ (sub_of rfl hs)
    | with_reducible refine State.restage_only ?_ _ _ _ _ (sub_of rfl hs)
    | with_reducible refine State.endRx_only ?_ _ _ (sub_of rfl hs)
    | with_reducible refine State.startStream_only ?_ _ _ (sub_of rfl hs)
    | with_reducible refine State.clearReady_only ?_ _ _ (sub_of rfl hs)
    | split
    | (with_reducible refine Only.foldl _ (fun _ _ _ => ?_) _ _ ?_)
    | ((with_reducible apply upd_only); rotate_left; iterate 39 (first | exact Or.inr (by with_reducible rfl) | exact Or.inl (mem_of_sub hs rfl) | exact Or.inl (sub_of rfl hs) | exact Or.inr rfl | exact Or.inr ⟨rfl, rfl⟩ | exact Or.inr ⟨rfl, rfl, rfl⟩))


theorem State.runMove_only (h : Only ps a s) (x0 x2 x3) (hs : sub [.out, .counts, .evrQueue, .line, .dkl, .sch, .ports, .trib, .tribOld, .cur, .mte] ps = true) : Only ps a (State.runMove x0 s x2 x3) := by
  unfold State.runMove
  try dsimp only
  repeat' first
    | with_reducible assumption
    | with_reducible refine State.complete_only ?_ _ _ _ _ _ _ (sub_of rfl hs)
    | with_reducible refine State.accept_only ?_ _ (sub_of rfl hs)
    | with_reducible refine State.setOld_only ?_ _ _ (sub_of rfl hs)
    | with_reducible refine State.startMove_only ?_ _ _ _ _ (sub_of rfl hs)
    | with_reducible refine State.endMove_only ?_ _ (sub_of rfl hs)
    | with_reducible refine State.tribDelta_only ?_ _ (sub_of rfl hs)
    | with_reducible refine State.tribDelta_only_of (by assumption) ?_ (sub_of rfl hs)
    | with_reducible refine State.oweEnd_only ?_ _ _ _ (sub_of rfl hs)
    | with_reducible refine State.endTx_only ?_ _ _ _ (sub_of rfl hs)
    | split
    | (with_reducible refine Only.foldl _ (fun _ _ _ => ?_) _ _ ?_)
    | ((with_reducible apply upd_only); rotate_left; iterate 39 (first | exact Or.inr (by with_reducible rfl) | exact Or.inl (mem_of_sub hs rfl) | exact Or.inl (sub_of rfl hs) | exact Or.inr rfl | exact Or.inr ⟨rfl, rfl⟩ | exact Or.inr ⟨rfl, rfl, rfl⟩))


theorem execQcfgMoveDrain_only (h : Only ps a s) (x0) (hs : sub [.out, .irq, .counts, .evrQueue, .line, .dkl, .sch, .ports, .trib, .tribOld, .cur, .mte] ps = true) : OnlyR ps a (execQcfgMoveDrain x0 s) := by
  unfold execQcfgMoveDrain
  try dsimp only
  repeat' first
    | with_reducible assumption
    | ((with_reducible refine State.issue_only ?_ _ _ _ _ (fun _ _ _ _ => ?_) (sub_of rfl hs)); rotate_left)
    | with_reducible refine State.runMove_only ?_ _ _ _ (sub_of rfl hs)
    | with_reducible refine finish_only ?_ (sub_of rfl hs)
    | with_reducible refine idle_only ?_
    | split
    | (with_reducible refine Only.foldl _ (fun _ _ _ => ?_) _ _ ?_)
    | ((with_reducible apply upd_only); rotate_left; iterate 39 (first | exact Or.inr (by with_reducible rfl) | exact Or.inl (mem_of_sub hs rfl) | exact Or.inl (sub_of rfl hs) | exact Or.inr rfl | exact Or.inr ⟨rfl, rfl⟩ | exact Or.inr ⟨rfl, rfl, rfl⟩))


theorem execQcfgMoveFlush_only (h : Only ps a s) (x0) (hs : sub [.out, .irq, .counts, .evrQueue, .line, .dkl, .sch, .ports, .trib, .tribOld, .cur, .mte] ps = true) : OnlyR ps a (execQcfgMoveFlush x0 s) := by
  unfold execQcfgMoveFlush
  try dsimp only
  repeat' first
    | with_reducible assumption
    | ((with_reducible refine State.issue_only ?_ _ _ _ _ (fun _ _ _ _ => ?_) (sub_of rfl hs)); rotate_left)
    | with_reducible refine State.runMove_only ?_ _ _ _ (sub_of rfl hs)
    | with_reducible refine finish_only ?_ (sub_of rfl hs)
    | with_reducible refine idle_only ?_
    | split
    | (with_reducible refine Only.foldl _ (fun _ _ _ => ?_) _ _ ?_)
    | ((with_reducible apply upd_only); rotate_left; iterate 39 (first | exact Or.inr (by with_reducible rfl) | exact Or.inl (mem_of_sub hs rfl) | exact Or.inl (sub_of rfl hs) | exact Or.inr rfl | exact Or.inr ⟨rfl, rfl⟩ | exact Or.inr ⟨rfl, rfl, rfl⟩))


theorem execMoveQueueEmpty_only (h : Only ps a s) (x0) (hs : sub [.out, .irq, .counts, .evrQueue, .line, .sch, .ports, .trib, .tribOld, .cur] ps = true) : OnlyR ps a (execMoveQueueEmpty x0 s) := by
  unfold execMoveQueueEmpty
  try dsimp only
  repeat' first
    | with_reducible assumption
    | with_reducible refine idle_only ?_  (sub_of rfl hs)
    | with_reducible refine finish_only ?_  (sub_of rfl hs)
    | with_reducible refine State.wake_only ?_ _ _ (sub_of rfl hs)
    | with_reducible refine State.endMove_only ?_ _ (sub_of rfl hs)
    | with_reducible refine finish_only ?_ (sub_of rfl hs)
    | with_reducible refine idle_only ?_
    | split
    | (with_reducible refine Only.foldl _ (fun _ _ _ => ?_) _ _ ?_)
    | ((with_reducible apply upd_only); rotate_left; iterate 39 (first | exact Or.inr (by with_reducible rfl) | exact Or.inl (mem_of_sub hs rfl) | exact Or.inl (sub_of rfl hs) | exact Or.inr rfl | exact Or.inr ⟨rfl, rfl⟩ | exact Or.inr ⟨rfl, rfl, rfl⟩))


theorem State.gclDelta_only (h : Only ps a s) (x1) (hs : sub [.out, .counts, .mte] ps = true) : Only ps a (State.gclDelta s x1).1 := by
  unfold State.gclDelta
  try dsimp only
  repeat' first
    | with_reducible assumption
    | with_reducible refine State.delta_only ?_ _ _ (sub_of rfl hs)
    | with_reducible refine State.delta_only_of (by assumption) ?_ (sub_of rfl hs)
    | split
    | (with_reducible refine Only.foldl _ (fun _ _ _ => ?_) _ _ ?_)
    | ((with_reducible apply upd_only); rotate_left; iterate 39 (first | exact Or.inr (by with_reducible rfl) | exact Or.inl (mem_of_sub hs rfl) | exact Or.inl (sub_of rfl hs) | exact Or.inr rfl | exact Or.inr ⟨rfl, rfl⟩ | exact Or.inr ⟨rfl, rfl, rfl⟩))

theorem State.gclDelta_only_of {t : State} {x1} {r} (e : State.gclDelta s x1 = (t, r)) (h : Only ps a s) (hs : sub [.out, .counts, .mte] ps = true) : Only ps a t := by
  have := State.gclDelta_only h x1 hs
  rw [e] at this
  exact this


theorem State.runGcladm_only (h : Only ps a s) (x0 x2 x3) (hs : sub [.out, .counts, .evrQueue, .ports, .cur, .mte] ps = true) : Only ps a (State.runGcladm x0 s x2 x3) := by
  unfold State.runGcladm
  try dsimp only
  repeat' first
    | with_reducible assumption
    | with_reducible refine State.modPort_only ?_ _ _ (sub_of rfl hs)
    | with_reducible refine State.complete_only ?_ _ _ _ _ _ _ (sub_of rfl hs)
    | with_reducible refine State.gclDelta_only ?_ _ (sub_of rfl hs)
    | with_reducible refine State.gclDelta_only_of (by assumption) ?_ (sub_of rfl hs)
    | split
    | (with_reducible refine Only.foldl _ (fun _ _ _ => ?_) _ _ ?_)
    | ((with_reducible apply upd_only); rotate_left; iterate 39 (first | exact Or.inr (by with_reducible rfl) | exact Or.inl (mem_of_sub hs rfl) | exact Or.inl (sub_of rfl hs) | exact Or.inr rfl | exact Or.inr ⟨rfl, rfl⟩ | exact Or.inr ⟨rfl, rfl, rfl⟩))


theorem execGcladm_only (h : Only ps a s) (x0 x1) (hs : sub [.out, .irq, .counts, .evrQueue, .ports, .cur, .mte] ps = true) : OnlyR ps a (execGcladm x0 x1 s) := by
  unfold execGcladm
  try dsimp only
  repeat' first
    | with_reducible assumption
    | ((with_reducible refine State.issue_only ?_ _ _ _ _ (fun _ _ _ _ => ?_) (sub_of rfl hs)); rotate_left)
    | with_reducible refine State.runGcladm_only ?_ _ _ _ (sub_of rfl hs)
    | with_reducible refine finish_only ?_ (sub_of rfl hs)
    | with_reducible refine idle_only ?_
    | split
    | (with_reducible refine Only.foldl _ (fun _ _ _ => ?_) _ _ ?_)
    | ((with_reducible apply upd_only); rotate_left; iterate 39 (first | exact Or.inr (by with_reducible rfl) | exact Or.inl (mem_of_sub hs rfl) | exact Or.inl (sub_of rfl hs) | exact Or.inr rfl | exact Or.inr ⟨rfl, rfl⟩ | exact Or.inr ⟨rfl, rfl, rfl⟩))


theorem State.gclPut_only (h : Only ps a s) (x1 x2 x3) (hs : sub [.status, .ports] ps = true) : Only ps a (State.gclPut s x1 x2 x3) := by
  unfold State.gclPut
  try dsimp only
  repeat' first
    | with_reducible assumption
    | with_reducible refine State.setBit_only ?_ _ _ _ (Or.inr (by first | rfl | (simp; done) | decide)) (Or.inl (mem_of_sub hs rfl))
    | with_reducible refine State.modPort_only ?_ _ _ (sub_of rfl hs)
    | split
    | (with_reducible refine Only.foldl _ (fun _ _ _ => ?_) _ _ ?_)
    | ((with_reducible apply upd_only); rotate_left; iterate 39 (first | exact Or.inr (by with_reducible rfl) | exact Or.inl (mem_of_sub hs rfl) | exact Or.inl (sub_of rfl hs) | exact Or.inr rfl | exact Or.inr ⟨rfl, rfl⟩ | exact Or.inr ⟨rfl, rfl, rfl⟩))


theorem State.gclPutDelta_only (h : Only ps a s) (x1 x2 x3) (hs : sub [.out, .status, .counts, .ports, .mte] ps = true) : Only ps a (State.gclPutDelta s x1 x2 x3).1 := by
  unfold State.gclPutDelta
  try dsimp only
  repeat' first
    | with_reducible assumption
    | with_reducible refine State.gclDelta_only ?_ _ (sub_of rfl hs)
    | with_reducible refine State.gclDelta_only_of (by assumption) ?_ (sub_of rfl hs)
    | with_reducible refine State.gclPut_only ?_ _ _ _ (sub_of rfl hs)
    | split
    | (with_reducible refine Only.foldl _ (fun _ _ _ => ?_) _ _ ?_)
    | ((with_reducible apply upd_only); rotate_left; iterate 39 (first | exact Or.inr (by with_reducible rfl) | exact Or.inl (mem_of_sub hs rfl) | exact Or.inl (sub_of rfl hs) | exact Or.inr rfl | exact Or.inr ⟨rfl, rfl⟩ | exact Or.inr ⟨rfl, rfl, rfl⟩))

theorem State.gclPutDelta_only_of {t : State} {x1 x2 x3} {r} (e : State.gclPutDelta s x1 x2 x3 = (t, r)) (h : Only ps a s) (hs : sub [.out, .status, .counts, .ports, .mte] ps = true) : Only ps a t := by
  have := State.gclPutDelta_only h x1 x2 x3 hs
  rw [e] at this
  exact this


theorem applyGclgo_only (h : Only ps a s) (x1 x2) (hs : sub [.out, .status, .counts, .ports, .mte] ps = true) : Only ps a (applyGclgo s x1 x2).s := by
  unfold applyGclgo
  try dsimp only
  repeat' first
    | with_reducible assumption
    | with_reducible refine State.gclPutDelta_only ?_ _ _ _ (sub_of rfl hs)
    | with_reducible refine State.gclPutDelta_only_of (by assumption) ?_ (sub_of rfl hs)
    | split
    | (with_reducible refine Only.foldl _ (fun _ _ _ => ?_) _ _ ?_)
    | ((with_reducible apply upd_only); rotate_left; iterate 39 (first | exact Or.inr (by with_reducible rfl) | exact Or.inl (mem_of_sub hs rfl) | exact Or.inl (sub_of rfl hs) | exact Or.inr rfl | exact Or.inr ⟨rfl, rfl⟩ | exact Or.inr ⟨rfl, rfl, rfl⟩))


theorem execGclgo_only (h : Only ps a s) (x0) (hs : sub [.out, .status, .irq, .counts, .evrQueue, .ports, .cur, .mte] ps = true) : OnlyR ps a (execGclgo x0 s) := by
  unfold execGclgo
  try dsimp only
  repeat' first
    | with_reducible assumption
    | ((with_reducible refine State.issue_only ?_ _ _ _ _ (fun _ _ _ _ => ?_) (sub_of rfl hs)); rotate_left)
    | ((with_reducible refine State.doApply_only ?_ _ _ _ _ (fun _ _ _ _ => ?_) (sub_of rfl hs)); rotate_left)
    | with_reducible refine applyGclgo_only ?_ _ _ (sub_of rfl hs)
    | with_reducible refine finish_only ?_ (sub_of rfl hs)
    | with_reducible refine idle_only ?_
    | split
    | (with_reducible refine Only.foldl _ (fun _ _ _ => ?_) _ _ ?_)
    | ((with_reducible apply upd_only); rotate_left; iterate 39 (first | exact Or.inr (by with_reducible rfl) | exact Or.inl (mem_of_sub hs rfl) | exact Or.inl (sub_of rfl hs) | exact Or.inr rfl | exact Or.inr ⟨rfl, rfl⟩ | exact Or.inr ⟨rfl, rfl, rfl⟩))


end Sys2Proof.Machine
end

