-- ==== Sys2Proof/Laws/OnlyDefects.lean ====
section
/-! SUPPORT. What each operation of Machine/Defects.lean may change. -/

set_option linter.unusedTactic false
set_option linter.unreachableTactic false
set_option linter.unusedVariables false
set_option linter.unusedSimpArgs false

namespace Sys2Proof.Machine

variable {ps : List Area} {a s : State}

theorem State.defectEdge_only (h : Only ps a s) (x1 x2 x3) (hs : sub [.status, .counts, .evrQueue] ps = true) : Only ps a (State.defectEdge s x1 x2 x3) := by
  unfold State.defectEdge
  try dsimp only
  repeat' first
    | with_reducible assumption
    | with_reducible refine State.setBit_only ?_ _ _ _ (Or.inr (by first | rfl | (simp; done) | decide)) (Or.inl (mem_of_sub hs rfl))
    | with_reducible refine State.countMill_only ?_ _ _ _ _ _ (sub_of rfl hs)
    | with_reducible refine State.happen_only ?_ _ _ _ _ _ (sub_of rfl hs)
    | split
    | (with_reducible refine Only.foldl _ (fun _ _ _ => ?_) _ _ ?_)
    | ((with_reducible apply upd_only); rotate_left; iterate 39 (first | exact Or.inr (by with_reducible rfl) | exact Or.inl (mem_of_sub hs rfl) | exact Or.inl (sub_of rfl hs) | exact Or.inr rfl | exact Or.inr ⟨rfl, rfl⟩ | exact Or.inr ⟨rfl, rfl, rfl⟩))


theorem State.setDefect_only (h : Only ps a s) (x1 x2 x3 x4 x5) (hs : sub [.status, .counts, .evrQueue, .line] ps = true) : Only ps a (State.setDefect s x1 x2 x3 x4 x5) := by
  unfold State.setDefect
  try dsimp only
  repeat' first
    | with_reducible assumption
    | with_reducible refine State.modLine_only ?_ _ _ (sub_of rfl hs)
    | with_reducible refine State.defectEdge_only ?_ _ _ _ (sub_of rfl hs)
    | split
    | (with_reducible refine Only.foldl _ (fun _ _ _ => ?_) _ _ ?_)
    | ((with_reducible apply upd_only); rotate_left; iterate 39 (first | exact Or.inr (by with_reducible rfl) | exact Or.inl (mem_of_sub hs rfl) | exact Or.inl (sub_of rfl hs) | exact Or.inr rfl | exact Or.inr ⟨rfl, rfl⟩ | exact Or.inr ⟨rfl, rfl, rfl⟩))


theorem State.setLoa_only (h : Only ps a s) (x1 x2) (hs : sub [.status, .counts, .evrQueue, .line] ps = true) : Only ps a (State.setLoa s x1 x2) := by
  unfold State.setLoa
  try dsimp only
  repeat' first
    | with_reducible assumption
    | with_reducible refine State.setDefect_only ?_ _ _ _ _ _ (sub_of rfl hs)
    | split
    | (with_reducible refine Only.foldl _ (fun _ _ _ => ?_) _ _ ?_)
    | ((with_reducible apply upd_only); rotate_left; iterate 39 (first | exact Or.inr (by with_reducible rfl) | exact Or.inl (mem_of_sub hs rfl) | exact Or.inl (sub_of rfl hs) | exact Or.inr rfl | exact Or.inr ⟨rfl, rfl⟩ | exact Or.inr ⟨rfl, rfl, rfl⟩))


theorem State.setSkew_only (h : Only ps a s) (x1 x2) (hs : sub [.status, .counts, .evrQueue, .line] ps = true) : Only ps a (State.setSkew s x1 x2) := by
  unfold State.setSkew
  try dsimp only
  repeat' first
    | with_reducible assumption
    | with_reducible refine State.setDefect_only ?_ _ _ _ _ _ (sub_of rfl hs)
    | split
    | (with_reducible refine Only.foldl _ (fun _ _ _ => ?_) _ _ ?_)
    | ((with_reducible apply upd_only); rotate_left; iterate 39 (first | exact Or.inr (by with_reducible rfl) | exact Or.inl (mem_of_sub hs rfl) | exact Or.inl (sub_of rfl hs) | exact Or.inr rfl | exact Or.inr ⟨rfl, rfl⟩ | exact Or.inr ⟨rfl, rfl, rfl⟩))


theorem State.setAuth_only (h : Only ps a s) (x1 x2) (hs : sub [.status, .counts, .evrQueue, .line] ps = true) : Only ps a (State.setAuth s x1 x2) := by
  unfold State.setAuth
  try dsimp only
  repeat' first
    | with_reducible assumption
    | with_reducible refine State.setDefect_only ?_ _ _ _ _ _ (sub_of rfl hs)
    | split
    | (with_reducible refine Only.foldl _ (fun _ _ _ => ?_) _ _ ?_)
    | ((with_reducible apply upd_only); rotate_left; iterate 39 (first | exact Or.inr (by with_reducible rfl) | exact Or.inl (mem_of_sub hs rfl) | exact Or.inl (sub_of rfl hs) | exact Or.inr rfl | exact Or.inr ⟨rfl, rfl⟩ | exact Or.inr ⟨rfl, rfl, rfl⟩))


theorem State.setKeyless_only (h : Only ps a s) (x1 x2) (hs : sub [.status, .counts, .evrQueue, .line] ps = true) : Only ps a (State.setKeyless s x1 x2) := by
  unfold State.setKeyless
  try dsimp only
  repeat' first
    | with_reducible assumption
    | with_reducible refine State.setDefect_only ?_ _ _ _ _ _ (sub_of rfl hs)
    | split
    | (with_reducible refine Only.foldl _ (fun _ _ _ => ?_) _ _ ?_)
    | ((with_reducible apply upd_only); rotate_left; iterate 39 (first | exact Or.inr (by with_reducible rfl) | exact Or.inl (mem_of_sub hs rfl) | exact Or.inl (sub_of rfl hs) | exact Or.inr rfl | exact Or.inr ⟨rfl, rfl⟩ | exact Or.inr ⟨rfl, rfl, rfl⟩))


theorem State.setWm_only (h : Only ps a s) (x1 x2) (hs : sub [.status, .counts, .evrQueue, .line] ps = true) : Only ps a (State.setWm s x1 x2) := by
  unfold State.setWm
  try dsimp only
  repeat' first
    | with_reducible assumption
    | with_reducible refine State.setDefect_only ?_ _ _ _ _ _ (sub_of rfl hs)
    | split
    | (with_reducible refine Only.foldl _ (fun _ _ _ => ?_) _ _ ?_)
    | ((with_reducible apply upd_only); rotate_left; iterate 39 (first | exact Or.inr (by with_reducible rfl) | exact Or.inl (mem_of_sub hs rfl) | exact Or.inl (sub_of rfl hs) | exact Or.inr rfl | exact Or.inr ⟨rfl, rfl⟩ | exact Or.inr ⟨rfl, rfl, rfl⟩))


theorem State.setDlgf_only (h : Only ps a s) (x1 x2) (hs : sub [.status, .counts, .evrQueue, .line] ps = true) : Only ps a (State.setDlgf s x1 x2) := by
  unfold State.setDlgf
  try dsimp only
  repeat' first
    | with_reducible assumption
    | with_reducible refine State.setDefect_only ?_ _ _ _ _ _ (sub_of rfl hs)
    | split
    | (with_reducible refine Only.foldl _ (fun _ _ _ => ?_) _ _ ?_)
    | ((with_reducible apply upd_only); rotate_left; iterate 39 (first | exact Or.inr (by with_reducible rfl) | exact Or.inl (mem_of_sub hs rfl) | exact Or.inl (sub_of rfl hs) | exact Or.inr rfl | exact Or.inr ⟨rfl, rfl⟩ | exact Or.inr ⟨rfl, rfl, rfl⟩))


theorem State.setVerf_only (h : Only ps a s) (x1 x2) (hs : sub [.status, .counts, .evrQueue, .line] ps = true) : Only ps a (State.setVerf s x1 x2) := by
  unfold State.setVerf
  try dsimp only
  repeat' first
    | with_reducible assumption
    | with_reducible refine State.setDefect_only ?_ _ _ _ _ _ (sub_of rfl hs)
    | split
    | (with_reducible refine Only.foldl _ (fun _ _ _ => ?_) _ _ ?_)
    | ((with_reducible apply upd_only); rotate_left; iterate 39 (first | exact Or.inr (by with_reducible rfl) | exact Or.inl (mem_of_sub hs rfl) | exact Or.inl (sub_of rfl hs) | exact Or.inr rfl | exact Or.inr ⟨rfl, rfl⟩ | exact Or.inr ⟨rfl, rfl, rfl⟩))


theorem State.setFeDef_only (h : Only ps a s) (x1 x2 x3) (hs : sub [.status, .counts, .evrQueue, .line] ps = true) : Only ps a (State.setFeDef s x1 x2 x3) := by
  unfold State.setFeDef
  try dsimp only
  repeat' first
    | with_reducible assumption
    | with_reducible refine State.setDefect_only ?_ _ _ _ _ _ (sub_of rfl hs)
    | split
    | (with_reducible refine Only.foldl _ (fun _ _ _ => ?_) _ _ ?_)
    | ((with_reducible apply upd_only); rotate_left; iterate 39 (first | exact Or.inr (by with_reducible rfl) | exact Or.inl (mem_of_sub hs rfl) | exact Or.inl (sub_of rfl hs) | exact Or.inr rfl | exact Or.inr ⟨rfl, rfl⟩ | exact Or.inr ⟨rfl, rfl, rfl⟩))


theorem State.dropPartial_only (h : Only ps a s) (x1 x2 x3) (hs : sub [.counts, .sch, .trib] ps = true) : Only ps a (State.dropPartial s x1 x2 x3) := by
  unfold State.dropPartial
  try dsimp only
  repeat' first
    | with_reducible assumption
    | with_reducible refine State.dropRx_only ?_ _ _ (sub_of rfl hs)
    | split
    | (with_reducible refine Only.foldl _ (fun _ _ _ => ?_) _ _ ?_)
    | ((with_reducible apply upd_only); rotate_left; iterate 39 (first | exact Or.inr (by with_reducible rfl) | exact Or.inl (mem_of_sub hs rfl) | exact Or.inl (sub_of rfl hs) | exact Or.inr rfl | exact Or.inr ⟨rfl, rfl⟩ | exact Or.inr ⟨rfl, rfl, rfl⟩))


theorem State.seekAll_only (h : Only ps a s) (x1) (hs : sub [.counts, .line, .sch, .trib] ps = true) : Only ps a (State.seekAll s x1) := by
  unfold State.seekAll
  try dsimp only
  repeat' first
    | with_reducible assumption
    | with_reducible refine State.countMill_only ?_ _ _ _ _ _ (sub_of rfl hs)
    | with_reducible refine State.modLine_only ?_ _ _ (sub_of rfl hs)
    | with_reducible refine State.dropPartial_only ?_ _ _ _ (sub_of rfl hs)
    | split
    | (with_reducible refine Only.foldl _ (fun _ _ _ => ?_) _ _ ?_)
    | ((with_reducible apply upd_only); rotate_left; iterate 39 (first | exact Or.inr (by with_reducible rfl) | exact Or.inl (mem_of_sub hs rfl) | exact Or.inl (sub_of rfl hs) | exact Or.inr rfl | exact Or.inr ⟨rfl, rfl⟩ | exact Or.inr ⟨rfl, rfl, rfl⟩))


theorem State.sheetLost_only (h : Only ps a s) (x1) (hs : sub [.counts, .line, .sch, .trib] ps = true) : Only ps a (State.sheetLost s x1) := by
  unfold State.sheetLost
  try dsimp only
  repeat' first
    | with_reducible assumption
    | with_reducible refine State.modLine_only ?_ _ _ (sub_of rfl hs)
    | with_reducible refine State.seekAll_only ?_ _ (sub_of rfl hs)
    | split
    | (with_reducible refine Only.foldl _ (fun _ _ _ => ?_) _ _ ?_)
    | ((with_reducible apply upd_only); rotate_left; iterate 39 (first | exact Or.inr (by with_reducible rfl) | exact Or.inl (mem_of_sub hs rfl) | exact Or.inl (sub_of rfl hs) | exact Or.inr rfl | exact Or.inr ⟨rfl, rfl⟩ | exact Or.inr ⟨rfl, rfl, rfl⟩))


theorem State.countLost_only (h : Only ps a s) (x1 x2) (hs : sub [.counts] ps = true) : Only ps a (State.countLost s x1 x2) := by
  unfold State.countLost
  try dsimp only
  repeat' first
    | with_reducible assumption
    | with_reducible refine State.fixMill_only ?_ _ _ _ (sub_of rfl hs)
    | with_reducible refine State.countMill_only ?_ _ _ _ _ _ (sub_of rfl hs)
    | split
    | (with_reducible refine Only.foldl _ (fun _ _ _ => ?_) _ _ ?_)
    | ((with_reducible apply upd_only); rotate_left; iterate 39 (first | exact Or.inr (by with_reducible rfl) | exact Or.inl (mem_of_sub hs rfl) | exact Or.inl (sub_of rfl hs) | exact Or.inr rfl | exact Or.inr ⟨rfl, rfl⟩ | exact Or.inr ⟨rfl, rfl, rfl⟩))


theorem State.loseAlign_only (h : Only ps a s) (x1) (hs : sub [.status, .counts, .evrQueue, .tim, .line] ps = true) : Only ps a (State.loseAlign s x1) := by
  unfold State.loseAlign
  try dsimp only
  repeat' first
    | with_reducible assumption
    | with_reducible refine State.modLine_only ?_ _ _ (sub_of rfl hs)
    | with_reducible refine State.lineDelayLost_only ?_ _ (sub_of rfl hs)
    | with_reducible refine State.setLoa_only ?_ _ _ (sub_of rfl hs)
    | split
    | (with_reducible refine Only.foldl _ (fun _ _ _ => ?_) _ _ ?_)
    | ((with_reducible apply upd_only); rotate_left; iterate 39 (first | exact Or.inr (by with_reducible rfl) | exact Or.inl (mem_of_sub hs rfl) | exact Or.inl (sub_of rfl hs) | exact Or.inr rfl | exact Or.inr ⟨rfl, rfl⟩ | exact Or.inr ⟨rfl, rfl, rfl⟩))


theorem State.laneLost_only (h : Only ps a s) (x1 x2) (hs : sub [.status, .counts, .evrQueue, .tim, .line] ps = true) : Only ps a (State.laneLost s x1 x2) := by
  unfold State.laneLost
  try dsimp only
  repeat' first
    | with_reducible assumption
    | with_reducible refine State.modLine_only ?_ _ _ (sub_of rfl hs)
    | with_reducible refine State.loseAlign_only ?_ _ (sub_of rfl hs)
    | with_reducible refine State.defectEdge_only ?_ _ _ _ (sub_of rfl hs)
    | split
    | (with_reducible refine Only.foldl _ (fun _ _ _ => ?_) _ _ ?_)
    | ((with_reducible apply upd_only); rotate_left; iterate 39 (first | exact Or.inr (by with_reducible rfl) | exact Or.inl (mem_of_sub hs rfl) | exact Or.inl (sub_of rfl hs) | exact Or.inr rfl | exact Or.inr ⟨rfl, rfl⟩ | exact Or.inr ⟨rfl, rfl, rfl⟩))


theorem State.loseLock_only (h : Only ps a s) (x1 x2) (hs : sub [.status, .counts, .evrQueue, .tim, .line] ps = true) : Only ps a (State.loseLock s x1 x2) := by
  unfold State.loseLock
  try dsimp only
  repeat' first
    | with_reducible assumption
    | with_reducible refine State.modLine_only ?_ _ _ (sub_of rfl hs)
    | with_reducible refine State.ownMsg_only ?_ _ _ (sub_of rfl hs)
    | with_reducible refine State.laneLost_only ?_ _ _ (sub_of rfl hs)
    | split
    | (with_reducible refine Only.foldl _ (fun _ _ _ => ?_) _ _ ?_)
    | ((with_reducible apply upd_only); rotate_left; iterate 39 (first | exact Or.inr (by with_reducible rfl) | exact Or.inl (mem_of_sub hs rfl) | exact Or.inl (sub_of rfl hs) | exact Or.inr rfl | exact Or.inr ⟨rfl, rfl⟩ | exact Or.inr ⟨rfl, rfl, rfl⟩))


theorem State.rxLook_only (h : Only ps a s) (x1) (hs : sub [.lanes] ps = true) : Only ps a (State.rxLook s x1) := by
  unfold State.rxLook
  try dsimp only
  repeat' first
    | with_reducible assumption
    | with_reducible refine State.modLane_only ?_ _ _ (sub_of rfl hs)
    | split
    | (with_reducible refine Only.foldl _ (fun _ _ _ => ?_) _ _ ?_)
    | ((with_reducible apply upd_only); rotate_left; iterate 39 (first | exact Or.inr (by with_reducible rfl) | exact Or.inl (mem_of_sub hs rfl) | exact Or.inl (sub_of rfl hs) | exact Or.inr rfl | exact Or.inr ⟨rfl, rfl⟩ | exact Or.inr ⟨rfl, rfl, rfl⟩))


theorem State.lineLook_only (h : Only ps a s) (x1) (hs : sub [.status, .counts, .evrQueue, .tim, .line, .lanes] ps = true) : Only ps a (State.lineLook s x1) := by
  unfold State.lineLook
  try dsimp only
  repeat' first
    | with_reducible assumption
    | with_reducible refine State.modLane_only ?_ _ _ (sub_of rfl hs)
    | with_reducible refine State.rxLook_only ?_ _ (sub_of rfl hs)
    | with_reducible refine State.loseLock_only ?_ _ _ (sub_of rfl hs)
    | split
    | (with_reducible refine Only.foldl _ (fun _ _ _ => ?_) _ _ ?_)
    | ((with_reducible apply upd_only); rotate_left; iterate 39 (first | exact Or.inr (by with_reducible rfl) | exact Or.inl (mem_of_sub hs rfl) | exact Or.inl (sub_of rfl hs) | exact Or.inr rfl | exact Or.inr ⟨rfl, rfl⟩ | exact Or.inr ⟨rfl, rfl, rfl⟩))


theorem State.alignJudge_only (h : Only ps a s) (x1) (hs : sub [.status, .counts, .evrQueue, .tim, .line] ps = true) : Only ps a (State.alignJudge s x1) := by
  unfold State.alignJudge
  try dsimp only
  repeat' first
    | with_reducible assumption
    | with_reducible refine State.loseAlign_only ?_ _ (sub_of rfl hs)
    | split
    | (with_reducible refine Only.foldl _ (fun _ _ _ => ?_) _ _ ?_)
    | ((with_reducible apply upd_only); rotate_left; iterate 39 (first | exact Or.inr (by with_reducible rfl) | exact Or.inl (mem_of_sub hs rfl) | exact Or.inl (sub_of rfl hs) | exact Or.inr rfl | exact Or.inr ⟨rfl, rfl⟩ | exact Or.inr ⟨rfl, rfl, rfl⟩))


end Sys2Proof.Machine
end

