-- ==== Sys2Proof/Laws/OnlyDeckle.lean ====
section
/-! SUPPORT. What each operation of Machine/Deckle.lean may change. -/

set_option linter.unusedTactic false
set_option linter.unreachableTactic false
set_option linter.unusedVariables false
set_option linter.unusedSimpArgs false

namespace Sys2Proof.Machine

variable {ps : List Area} {a s : State}

theorem State.setMaps_only (h : Only ps a s) (x1 x2 x3) (hs : sub [.status, .counts, .evrQueue, .tim, .line, .dkl, .lanes] ps = true) : Only ps a (State.setMaps s x1 x2 x3) := by
  unfold State.setMaps
  try dsimp only
  repeat' first
    | with_reducible assumption
    | with_reducible refine State.setFld_only ?_ _ _ _ _ (Or.inr (by first | rfl | (simp; done) | decide)) (Or.inl (mem_of_sub hs rfl))
    | with_reducible refine State.modLine_only ?_ _ _ (sub_of rfl hs)
    | with_reducible refine State.modDkl_only ?_ _ _ (sub_of rfl hs)
    | with_reducible refine State.lineLook_only ?_ _ (sub_of rfl hs)
    | split
    | (with_reducible refine Only.foldl _ (fun _ _ _ => ?_) _ _ ?_)
    | ((with_reducible apply upd_only); rotate_left; iterate 39 (first | exact Or.inr (by with_reducible rfl) | exact Or.inl (mem_of_sub hs rfl) | exact Or.inl (sub_of rfl hs) | exact Or.inr rfl | exact Or.inr ⟨rfl, rfl⟩ | exact Or.inr ⟨rfl, rfl, rfl⟩))


theorem State.attrDelta_only (h : Only ps a s) (x1 x2) (hs : sub [.out, .counts, .mte] ps = true) : Only ps a (State.attrDelta s x1 x2).1 := by
  unfold State.attrDelta
  try dsimp only
  repeat' first
    | with_reducible assumption
    | with_reducible refine State.delta_only ?_ _ _ (sub_of rfl hs)
    | with_reducible refine State.delta_only_of (by assumption) ?_ (sub_of rfl hs)
    | split
    | (with_reducible refine Only.foldl _ (fun _ _ _ => ?_) _ _ ?_)
    | ((with_reducible apply upd_only); rotate_left; iterate 39 (first | exact Or.inr (by with_reducible rfl) | exact Or.inl (mem_of_sub hs rfl) | exact Or.inl (sub_of rfl hs) | exact Or.inr rfl | exact Or.inr ⟨rfl, rfl⟩ | exact Or.inr ⟨rfl, rfl, rfl⟩))

theorem State.attrDelta_only_of {t : State} {x1 x2} {r} (e : State.attrDelta s x1 x2 = (t, r)) (h : Only ps a s) (hs : sub [.out, .counts, .mte] ps = true) : Only ps a t := by
  have := State.attrDelta_only h x1 x2 hs
  rw [e] at this
  exact this


theorem State.pageArmDelta_only (h : Only ps a s) (x1 x2) (hs : sub [.out, .counts, .mte] ps = true) : Only ps a (State.pageArmDelta s x1 x2).1 := by
  unfold State.pageArmDelta
  try dsimp only
  repeat' first
    | with_reducible assumption
    | with_reducible refine State.delta_only ?_ _ _ (sub_of rfl hs)
    | with_reducible refine State.delta_only_of (by assumption) ?_ (sub_of rfl hs)
    | split
    | (with_reducible refine Only.foldl _ (fun _ _ _ => ?_) _ _ ?_)
    | ((with_reducible apply upd_only); rotate_left; iterate 39 (first | exact Or.inr (by with_reducible rfl) | exact Or.inl (mem_of_sub hs rfl) | exact Or.inl (sub_of rfl hs) | exact Or.inr rfl | exact Or.inr ⟨rfl, rfl⟩ | exact Or.inr ⟨rfl, rfl, rfl⟩))

theorem State.pageArmDelta_only_of {t : State} {x1 x2} {r} (e : State.pageArmDelta s x1 x2 = (t, r)) (h : Only ps a s) (hs : sub [.out, .counts, .mte] ps = true) : Only ps a t := by
  have := State.pageArmDelta_only h x1 x2 hs
  rw [e] at this
  exact this


theorem State.autoRestore_only (h : Only ps a s) (x1) (hs : sub [.dkl] ps = true) : Only ps a (State.autoRestore s x1) := by
  unfold State.autoRestore
  try dsimp only
  repeat' first
    | with_reducible assumption
    | with_reducible refine State.modDkl_only ?_ _ _ (sub_of rfl hs)
    | split
    | (with_reducible refine Only.foldl _ (fun _ _ _ => ?_) _ _ ?_)
    | ((with_reducible apply upd_only); rotate_left; iterate 39 (first | exact Or.inr (by with_reducible rfl) | exact Or.inl (mem_of_sub hs rfl) | exact Or.inl (sub_of rfl hs) | exact Or.inr rfl | exact Or.inr ⟨rfl, rfl⟩ | exact Or.inr ⟨rfl, rfl, rfl⟩))


theorem State.runDkwrite_only (h : Only ps a s) (x1 x2) (hs : sub [.counts, .evrQueue, .dkl, .cur] ps = true) : Only ps a (State.runDkwrite s x1 x2) := by
  unfold State.runDkwrite
  try dsimp only
  repeat' first
    | with_reducible assumption
    | with_reducible refine State.modDkl_only ?_ _ _ (sub_of rfl hs)
    | with_reducible refine State.accept_only ?_ _ (sub_of rfl hs)
    | with_reducible refine State.complete_only ?_ _ _ _ _ _ _ (sub_of rfl hs)
    | split
    | (with_reducible refine Only.foldl _ (fun _ _ _ => ?_) _ _ ?_)
    | ((with_reducible apply upd_only); rotate_left; iterate 39 (first | exact Or.inr (by with_reducible rfl) | exact Or.inl (mem_of_sub hs rfl) | exact Or.inl (sub_of rfl hs) | exact Or.inr rfl | exact Or.inr ⟨rfl, rfl⟩ | exact Or.inr ⟨rfl, rfl, rfl⟩))


theorem execDkwrite_only (h : Only ps a s) (x0) (hs : sub [.out, .irq, .counts, .evrQueue, .dkl, .cur] ps = true) : OnlyR ps a (execDkwrite x0 s) := by
  unfold execDkwrite
  try dsimp only
  repeat' first
    | with_reducible assumption
    | with_reducible refine State.modRing_only ?_ _ _ (sub_of rfl hs)
    | with_reducible refine finish_only ?_  (sub_of rfl hs)
    | with_reducible refine idle_only ?_  (sub_of rfl hs)
    | ((with_reducible refine State.issue_only ?_ _ _ _ _ (fun _ _ _ _ => ?_) (sub_of rfl hs)); rotate_left)
    | with_reducible refine State.runDkwrite_only ?_ _ _ (sub_of rfl hs)
    | with_reducible refine finish_only ?_ (sub_of rfl hs)
    | with_reducible refine idle_only ?_
    | split
    | (with_reducible refine Only.foldl _ (fun _ _ _ => ?_) _ _ ?_)
    | ((with_reducible apply upd_only); rotate_left; iterate 39 (first | exact Or.inr (by with_reducible rfl) | exact Or.inl (mem_of_sub hs rfl) | exact Or.inl (sub_of rfl hs) | exact Or.inr rfl | exact Or.inr ⟨rfl, rfl⟩ | exact Or.inr ⟨rfl, rfl, rfl⟩))


theorem State.endTransfer_only (h : Only ps a s) (x1 x2 x3) (hs : sub [.out, .counts, .evrQueue, .dkl, .cur, .mte] ps = true) : Only ps a (State.endTransfer s x1 x2 x3) := by
  unfold State.endTransfer
  try dsimp only
  repeat' first
    | with_reducible assumption
    | with_reducible refine State.modDkl_only ?_ _ _ (sub_of rfl hs)
    | with_reducible refine State.delta_only ?_ _ _ (sub_of rfl hs)
    | with_reducible refine State.delta_only_of (by assumption) ?_ (sub_of rfl hs)
    | with_reducible refine State.complete_only ?_ _ _ _ _ _ _ (sub_of rfl hs)
    | with_reducible refine State.attrDelta_only ?_ _ _ (sub_of rfl hs)
    | with_reducible refine State.attrDelta_only_of (by assumption) ?_ (sub_of rfl hs)
    | split
    | (with_reducible refine Only.foldl _ (fun _ _ _ => ?_) _ _ ?_)
    | ((with_reducible apply upd_only); rotate_left; iterate 39 (first | exact Or.inr (by with_reducible rfl) | exact Or.inl (mem_of_sub hs rfl) | exact Or.inl (sub_of rfl hs) | exact Or.inr rfl | exact Or.inr ⟨rfl, rfl⟩ | exact Or.inr ⟨rfl, rfl, rfl⟩))


theorem execDkwriteTransferDone_only (h : Only ps a s) (x0 x1) (hs : sub [.out, .irq, .counts, .evrQueue, .dkl, .cur, .mte] ps = true) : OnlyR ps a (execDkwriteTransferDone x0 x1 s) := by
  unfold execDkwriteTransferDone
  try dsimp only
  repeat' first
    | with_reducible assumption
    | with_reducible refine finish_only ?_  (sub_of rfl hs)
    | with_reducible refine State.modDkl_only ?_ _ _ (sub_of rfl hs)
    | with_reducible refine idle_only ?_  (sub_of rfl hs)
    | with_reducible refine State.complete_only ?_ _ _ _ _ _ _ (sub_of rfl hs)
    | with_reducible refine State.endTransfer_only ?_ _ _ _ (sub_of rfl hs)
    | with_reducible refine State.autoRestore_only ?_ _ (sub_of rfl hs)
    | with_reducible refine finish_only ?_ (sub_of rfl hs)
    | with_reducible refine idle_only ?_
    | split
    | (with_reducible refine Only.foldl _ (fun _ _ _ => ?_) _ _ ?_)
    | ((with_reducible apply upd_only); rotate_left; iterate 39 (first | exact Or.inr (by with_reducible rfl) | exact Or.inl (mem_of_sub hs rfl) | exact Or.inl (sub_of rfl hs) | exact Or.inr rfl | exact Or.inr ⟨rfl, rfl⟩ | exact Or.inr ⟨rfl, rfl, rfl⟩))


theorem State.noteLanes_only (h : Only ps a s) (x1 x2) (hs : sub [.dkl] ps = true) : Only ps a (State.noteLanes s x1 x2) := by
  unfold State.noteLanes
  try dsimp only
  repeat' first
    | with_reducible assumption
    | with_reducible refine State.modDkl_only ?_ _ _ (sub_of rfl hs)
    | split
    | (with_reducible refine Only.foldl _ (fun _ _ _ => ?_) _ _ ?_)
    | ((with_reducible apply upd_only); rotate_left; iterate 39 (first | exact Or.inr (by with_reducible rfl) | exact Or.inl (mem_of_sub hs rfl) | exact Or.inl (sub_of rfl hs) | exact Or.inr rfl | exact Or.inr ⟨rfl, rfl⟩ | exact Or.inr ⟨rfl, rfl, rfl⟩))


theorem State.flipEffect_only (h : Only ps a s) (x1 x2) (hs : sub [.status, .counts, .evrQueue, .tim, .line, .dkl, .lanes] ps = true) : Only ps a (State.flipEffect s x1 x2) := by
  unfold State.flipEffect
  try dsimp only
  repeat' first
    | with_reducible assumption
    | with_reducible refine State.countMill_only ?_ _ _ _ _ _ (sub_of rfl hs)
    | with_reducible refine State.modDkl_only ?_ _ _ (sub_of rfl hs)
    | with_reducible refine State.setMaps_only ?_ _ _ _ (sub_of rfl hs)
    | split
    | (with_reducible refine Only.foldl _ (fun _ _ _ => ?_) _ _ ?_)
    | ((with_reducible apply upd_only); rotate_left; iterate 39 (first | exact Or.inr (by with_reducible rfl) | exact Or.inl (mem_of_sub hs rfl) | exact Or.inl (sub_of rfl hs) | exact Or.inr rfl | exact Or.inr ⟨rfl, rfl⟩ | exact Or.inr ⟨rfl, rfl, rfl⟩))


theorem State.armPage_only (h : Only ps a s) (x1 x2 x3 x4) (hs : sub [.out, .status, .counts, .evrQueue, .tim, .line, .dkl, .cur, .lanes, .mte] ps = true) : Only ps a (State.armPage s x1 x2 x3 x4) := by
  unfold State.armPage
  try dsimp only
  repeat' first
    | with_reducible assumption
    | with_reducible refine State.setBit_only ?_ _ _ _ (Or.inr (by first | rfl | (simp; done) | decide)) (Or.inl (mem_of_sub hs rfl))
    | with_reducible refine State.modDkl_only ?_ _ _ (sub_of rfl hs)
    | with_reducible refine State.completeOpt_only ?_ _ _ _ _ _ (sub_of rfl hs)
    | with_reducible refine State.flipEffect_only ?_ _ _ (sub_of rfl hs)
    | with_reducible refine State.pageArmDelta_only ?_ _ _ (sub_of rfl hs)
    | with_reducible refine State.pageArmDelta_only_of (by assumption) ?_ (sub_of rfl hs)
    | split
    | (with_reducible refine Only.foldl _ (fun _ _ _ => ?_) _ _ ?_)
    | ((with_reducible apply upd_only); rotate_left; iterate 39 (first | exact Or.inr (by with_reducible rfl) | exact Or.inl (mem_of_sub hs rfl) | exact Or.inl (sub_of rfl hs) | exact Or.inr rfl | exact Or.inr ⟨rfl, rfl⟩ | exact Or.inr ⟨rfl, rfl, rfl⟩))


theorem State.runArm_only (h : Only ps a s) (x0 x1 x3) (hs : sub [.counts, .evrQueue, .dkl, .cur] ps = true) : Only ps a (State.runArm x0 x1 s x3) := by
  unfold State.runArm
  try dsimp only
  repeat' first
    | with_reducible assumption
    | with_reducible refine State.modDkl_only ?_ _ _ (sub_of rfl hs)
    | with_reducible refine State.accept_only ?_ _ (sub_of rfl hs)
    | with_reducible refine State.complete_only ?_ _ _ _ _ _ _ (sub_of rfl hs)
    | with_reducible refine State.noteLanes_only ?_ _ _ (sub_of rfl hs)
    | split
    | (with_reducible refine Only.foldl _ (fun _ _ _ => ?_) _ _ ?_)
    | ((with_reducible apply upd_only); rotate_left; iterate 39 (first | exact Or.inr (by with_reducible rfl) | exact Or.inl (mem_of_sub hs rfl) | exact Or.inl (sub_of rfl hs) | exact Or.inr rfl | exact Or.inr ⟨rfl, rfl⟩ | exact Or.inr ⟨rfl, rfl, rfl⟩))


theorem execDkflipEarliest_only (h : Only ps a s) (x0) (hs : sub [.out, .irq, .counts, .evrQueue, .dkl, .cur] ps = true) : OnlyR ps a (execDkflipEarliest x0 s) := by
  unfold execDkflipEarliest
  try dsimp only
  repeat' first
    | with_reducible assumption
    | ((with_reducible refine State.issue_only ?_ _ _ _ _ (fun _ _ _ _ => ?_) (sub_of rfl hs)); rotate_left)
    | with_reducible refine State.runArm_only ?_ _ _ _ (sub_of rfl hs)
    | with_reducible refine finish_only ?_ (sub_of rfl hs)
    | with_reducible refine idle_only ?_
    | split
    | (with_reducible refine Only.foldl _ (fun _ _ _ => ?_) _ _ ?_)
    | ((with_reducible apply upd_only); rotate_left; iterate 39 (first | exact Or.inr (by with_reducible rfl) | exact Or.inl (mem_of_sub hs rfl) | exact Or.inl (sub_of rfl hs) | exact Or.inr rfl | exact Or.inr ⟨rfl, rfl⟩ | exact Or.inr ⟨rfl, rfl, rfl⟩))


theorem execDkflipAt_only (h : Only ps a s) (x0) (hs : sub [.out, .irq, .counts, .evrQueue, .dkl, .cur] ps = true) : OnlyR ps a (execDkflipAt x0 s) := by
  unfold execDkflipAt
  try dsimp only
  repeat' first
    | with_reducible assumption
    | ((with_reducible refine State.issue_only ?_ _ _ _ _ (fun _ _ _ _ => ?_) (sub_of rfl hs)); rotate_left)
    | with_reducible refine State.runArm_only ?_ _ _ _ (sub_of rfl hs)
    | with_reducible refine finish_only ?_ (sub_of rfl hs)
    | with_reducible refine idle_only ?_
    | split
    | (with_reducible refine Only.foldl _ (fun _ _ _ => ?_) _ _ ?_)
    | ((with_reducible apply upd_only); rotate_left; iterate 39 (first | exact Or.inr (by with_reducible rfl) | exact Or.inl (mem_of_sub hs rfl) | exact Or.inl (sub_of rfl hs) | exact Or.inr rfl | exact Or.inr ⟨rfl, rfl⟩ | exact Or.inr ⟨rfl, rfl, rfl⟩))


theorem State.runFlipCancel_only (h : Only ps a s) (x1 x2) (hs : sub [.out, .counts, .evrQueue, .dkl, .cur, .mte] ps = true) : Only ps a (State.runFlipCancel s x1 x2) := by
  unfold State.runFlipCancel
  try dsimp only
  repeat' first
    | with_reducible assumption
    | with_reducible refine State.modDkl_only ?_ _ _ (sub_of rfl hs)
    | with_reducible refine State.complete_only ?_ _ _ _ _ _ _ (sub_of rfl hs)
    | with_reducible refine State.completeOpt_only ?_ _ _ _ _ _ (sub_of rfl hs)
    | with_reducible refine State.autoRestore_only ?_ _ (sub_of rfl hs)
    | with_reducible refine State.pageArmDelta_only ?_ _ _ (sub_of rfl hs)
    | with_reducible refine State.pageArmDelta_only_of (by assumption) ?_ (sub_of rfl hs)
    | split
    | (with_reducible refine Only.foldl _ (fun _ _ _ => ?_) _ _ ?_)
    | ((with_reducible apply upd_only); rotate_left; iterate 39 (first | exact Or.inr (by with_reducible rfl) | exact Or.inl (mem_of_sub hs rfl) | exact Or.inl (sub_of rfl hs) | exact Or.inr rfl | exact Or.inr ⟨rfl, rfl⟩ | exact Or.inr ⟨rfl, rfl, rfl⟩))


theorem execDkflipCancel_only (h : Only ps a s) (x0) (hs : sub [.out, .irq, .counts, .evrQueue, .dkl, .cur, .mte] ps = true) : OnlyR ps a (execDkflipCancel x0 s) := by
  unfold execDkflipCancel
  try dsimp only
  repeat' first
    | with_reducible assumption
    | ((with_reducible refine State.issue_only ?_ _ _ _ _ (fun _ _ _ _ => ?_) (sub_of rfl hs)); rotate_left)
    | with_reducible refine State.runFlipCancel_only ?_ _ _ (sub_of rfl hs)
    | with_reducible refine finish_only ?_ (sub_of rfl hs)
    | with_reducible refine idle_only ?_
    | split
    | (with_reducible refine Only.foldl _ (fun _ _ _ => ?_) _ _ ?_)
    | ((with_reducible apply upd_only); rotate_left; iterate 39 (first | exact Or.inr (by with_reducible rfl) | exact Or.inl (mem_of_sub hs rfl) | exact Or.inl (sub_of rfl hs) | exact Or.inr rfl | exact Or.inr ⟨rfl, rfl⟩ | exact Or.inr ⟨rfl, rfl, rfl⟩))


theorem execDkshedShed_only (h : Only ps a s) (x0) (hs : sub [.out, .irq, .counts, .evrQueue, .dkl, .cur] ps = true) : OnlyR ps a (execDkshedShed x0 s) := by
  unfold execDkshedShed
  try dsimp only
  repeat' first
    | with_reducible assumption
    | ((with_reducible refine State.issue_only ?_ _ _ _ _ (fun _ _ _ _ => ?_) (sub_of rfl hs)); rotate_left)
    | with_reducible refine State.runArm_only ?_ _ _ _ (sub_of rfl hs)
    | with_reducible refine finish_only ?_ (sub_of rfl hs)
    | with_reducible refine idle_only ?_
    | split
    | (with_reducible refine Only.foldl _ (fun _ _ _ => ?_) _ _ ?_)
    | ((with_reducible apply upd_only); rotate_left; iterate 39 (first | exact Or.inr (by with_reducible rfl) | exact Or.inl (mem_of_sub hs rfl) | exact Or.inl (sub_of rfl hs) | exact Or.inr rfl | exact Or.inr ⟨rfl, rfl⟩ | exact Or.inr ⟨rfl, rfl, rfl⟩))


theorem execDkshedRestore_only (h : Only ps a s) (x0) (hs : sub [.out, .irq, .counts, .evrQueue, .dkl, .cur] ps = true) : OnlyR ps a (execDkshedRestore x0 s) := by
  unfold execDkshedRestore
  try dsimp only
  repeat' first
    | with_reducible assumption
    | ((with_reducible refine State.issue_only ?_ _ _ _ _ (fun _ _ _ _ => ?_) (sub_of rfl hs)); rotate_left)
    | with_reducible refine State.runArm_only ?_ _ _ _ (sub_of rfl hs)
    | with_reducible refine finish_only ?_ (sub_of rfl hs)
    | with_reducible refine idle_only ?_
    | split
    | (with_reducible refine Only.foldl _ (fun _ _ _ => ?_) _ _ ?_)
    | ((with_reducible apply upd_only); rotate_left; iterate 39 (first | exact Or.inr (by with_reducible rfl) | exact Or.inl (mem_of_sub hs rfl) | exact Or.inl (sub_of rfl hs) | exact Or.inr rfl | exact Or.inr ⟨rfl, rfl⟩ | exact Or.inr ⟨rfl, rfl, rfl⟩))


theorem State.endArm_only (h : Only ps a s) (x1 x2 x3 x4 x5) (hs : sub [.out, .status, .counts, .evrQueue, .tim, .line, .dkl, .cur, .lanes, .mte] ps = true) : Only ps a (State.endArm s x1 x2 x3 x4 x5) := by
  unfold State.endArm
  try dsimp only
  repeat' first
    | with_reducible assumption
    | with_reducible refine State.completeOpt_only ?_ _ _ _ _ _ (sub_of rfl hs)
    | with_reducible refine State.noteLanes_only ?_ _ _ (sub_of rfl hs)
    | with_reducible refine State.armPage_only ?_ _ _ _ _ (sub_of rfl hs)
    | split
    | (with_reducible refine Only.foldl _ (fun _ _ _ => ?_) _ _ ?_)
    | ((with_reducible apply upd_only); rotate_left; iterate 39 (first | exact Or.inr (by with_reducible rfl) | exact Or.inl (mem_of_sub hs rfl) | exact Or.inl (sub_of rfl hs) | exact Or.inr rfl | exact Or.inr ⟨rfl, rfl⟩ | exact Or.inr ⟨rfl, rfl, rfl⟩))


theorem execDklValidationDone_only (h : Only ps a s) (x0) (hs : sub [.out, .status, .irq, .counts, .evrQueue, .tim, .line, .dkl, .cur, .lanes, .mte] ps = true) : OnlyR ps a (execDklValidationDone x0 s) := by
  unfold execDklValidationDone
  try dsimp only
  repeat' first
    | with_reducible assumption
    | with_reducible refine finish_only ?_  (sub_of rfl hs)
    | with_reducible refine State.modDkl_only ?_ _ _ (sub_of rfl hs)
    | with_reducible refine idle_only ?_  (sub_of rfl hs)
    | with_reducible refine State.complete_only ?_ _ _ _ _ _ _ (sub_of rfl hs)
    | with_reducible refine State.attrDelta_only ?_ _ _ (sub_of rfl hs)
    | with_reducible refine State.attrDelta_only_of (by assumption) ?_ (sub_of rfl hs)
    | with_reducible refine State.endArm_only ?_ _ _ _ _ _ (sub_of rfl hs)
    | with_reducible refine State.autoRestore_only ?_ _ (sub_of rfl hs)
    | with_reducible refine finish_only ?_ (sub_of rfl hs)
    | with_reducible refine idle_only ?_
    | split
    | (with_reducible refine Only.foldl _ (fun _ _ _ => ?_) _ _ ?_)
    | ((with_reducible apply upd_only); rotate_left; iterate 39 (first | exact Or.inr (by with_reducible rfl) | exact Or.inl (mem_of_sub hs rfl) | exact Or.inl (sub_of rfl hs) | exact Or.inr rfl | exact Or.inr ⟨rfl, rfl⟩ | exact Or.inr ⟨rfl, rfl, rfl⟩))


theorem execDklClearDone_only (h : Only ps a s) (x0) (hs : sub [.out, .irq, .counts, .evrQueue, .dkl] ps = true) : OnlyR ps a (execDklClearDone x0 s) := by
  unfold execDklClearDone
  try dsimp only
  repeat' first
    | with_reducible assumption
    | with_reducible refine finish_only ?_  (sub_of rfl hs)
    | with_reducible refine State.modDkl_only ?_ _ _ (sub_of rfl hs)
    | with_reducible refine idle_only ?_  (sub_of rfl hs)
    | with_reducible refine State.autoRestore_only ?_ _ (sub_of rfl hs)
    | with_reducible refine finish_only ?_ (sub_of rfl hs)
    | with_reducible refine idle_only ?_
    | split
    | (with_reducible refine Only.foldl _ (fun _ _ _ => ?_) _ _ ?_)
    | ((with_reducible apply upd_only); rotate_left; iterate 39 (first | exact Or.inr (by with_reducible rfl) | exact Or.inl (mem_of_sub hs rfl) | exact Or.inl (sub_of rfl hs) | exact Or.inr rfl | exact Or.inr ⟨rfl, rfl⟩ | exact Or.inr ⟨rfl, rfl, rfl⟩))


theorem State.laneUseTakes_only (h : Only ps a s) (x1) (hs : sub [.status, .counts, .evrQueue, .tim, .line, .dkl, .lanes] ps = true) : Only ps a (State.laneUseTakes s x1) := by
  unfold State.laneUseTakes
  try dsimp only
  repeat' first
    | with_reducible assumption
    | with_reducible refine State.setFld_only ?_ _ _ _ _ (Or.inr (by first | rfl | (simp; done) | decide)) (Or.inl (mem_of_sub hs rfl))
    | with_reducible refine State.modLine_only ?_ _ _ (sub_of rfl hs)
    | with_reducible refine State.alignJudge_only ?_ _ (sub_of rfl hs)
    | with_reducible refine State.lineLook_only ?_ _ (sub_of rfl hs)
    | with_reducible refine State.setMaps_only ?_ _ _ _ (sub_of rfl hs)
    | split
    | (with_reducible refine Only.foldl _ (fun _ _ _ => ?_) _ _ ?_)
    | ((with_reducible apply upd_only); rotate_left; iterate 39 (first | exact Or.inr (by with_reducible rfl) | exact Or.inl (mem_of_sub hs rfl) | exact Or.inl (sub_of rfl hs) | exact Or.inr rfl | exact Or.inr ⟨rfl, rfl⟩ | exact Or.inr ⟨rfl, rfl, rfl⟩))


theorem State.reamSettings_only (h : Only ps a s) (x1) (hs : sub [.status, .counts, .evrQueue, .tim, .line, .dkl, .lanes] ps = true) : Only ps a (State.reamSettings s x1) := by
  unfold State.reamSettings
  try dsimp only
  repeat' first
    | with_reducible assumption
    | with_reducible refine State.modLine_only ?_ _ _ (sub_of rfl hs)
    | with_reducible refine State.laneUseTakes_only ?_ _ (sub_of rfl hs)
    | split
    | (with_reducible refine Only.foldl _ (fun _ _ _ => ?_) _ _ ?_)
    | ((with_reducible apply upd_only); rotate_left; iterate 39 (first | exact Or.inr (by with_reducible rfl) | exact Or.inl (mem_of_sub hs rfl) | exact Or.inl (sub_of rfl hs) | exact Or.inr rfl | exact Or.inr ⟨rfl, rfl⟩ | exact Or.inr ⟨rfl, rfl, rfl⟩))


theorem State.dklReam_only (h : Only ps a s) (x1 x2) (hs : sub [.out, .status, .counts, .evrQueue, .tim, .line, .dkl, .cur, .lanes, .mte] ps = true) : Only ps a (State.dklReam s x1 x2) := by
  unfold State.dklReam
  try dsimp only
  repeat' first
    | with_reducible assumption
    | with_reducible refine State.modDkl_only ?_ _ _ (sub_of rfl hs)
    | with_reducible refine State.completeOpt_only ?_ _ _ _ _ _ (sub_of rfl hs)
    | with_reducible refine State.flipEffect_only ?_ _ _ (sub_of rfl hs)
    | with_reducible refine State.autoRestore_only ?_ _ (sub_of rfl hs)
    | with_reducible refine State.pageArmDelta_only ?_ _ _ (sub_of rfl hs)
    | with_reducible refine State.pageArmDelta_only_of (by assumption) ?_ (sub_of rfl hs)
    | split
    | (with_reducible refine Only.foldl _ (fun _ _ _ => ?_) _ _ ?_)
    | ((with_reducible apply upd_only); rotate_left; iterate 39 (first | exact Or.inr (by with_reducible rfl) | exact Or.inl (mem_of_sub hs rfl) | exact Or.inl (sub_of rfl hs) | exact Or.inr rfl | exact Or.inr ⟨rfl, rfl⟩ | exact Or.inr ⟨rfl, rfl, rfl⟩))


theorem State.dklStop_only (h : Only ps a s) (x1) (hs : sub [.out, .counts, .evrQueue, .dkl, .cur, .mte] ps = true) : Only ps a (State.dklStop s x1) := by
  unfold State.dklStop
  try dsimp only
  repeat' first
    | with_reducible assumption
    | with_reducible refine State.modDkl_only ?_ _ _ (sub_of rfl hs)
    | with_reducible refine State.completeOpt_only ?_ _ _ _ _ _ (sub_of rfl hs)
    | with_reducible refine State.autoRestore_only ?_ _ (sub_of rfl hs)
    | with_reducible refine State.pageArmDelta_only ?_ _ _ (sub_of rfl hs)
    | with_reducible refine State.pageArmDelta_only_of (by assumption) ?_ (sub_of rfl hs)
    | split
    | (with_reducible refine Only.foldl _ (fun _ _ _ => ?_) _ _ ?_)
    | ((with_reducible apply upd_only); rotate_left; iterate 39 (first | exact Or.inr (by with_reducible rfl) | exact Or.inl (mem_of_sub hs rfl) | exact Or.inl (sub_of rfl hs) | exact Or.inr rfl | exact Or.inr ⟨rfl, rfl⟩ | exact Or.inr ⟨rfl, rfl, rfl⟩))


theorem State.autoShed_only (h : Only ps a s) (x1) (hs : sub [.out, .status, .counts, .evrQueue, .tim, .line, .dkl, .cur, .lanes, .mte] ps = true) : Only ps a (State.autoShed s x1) := by
  unfold State.autoShed
  try dsimp only
  repeat' first
    | with_reducible assumption
    | with_reducible refine State.setBit_only ?_ _ _ _ (Or.inr (by first | rfl | (simp; done) | decide)) (Or.inl (mem_of_sub hs rfl))
    | with_reducible refine State.countMill_only ?_ _ _ _ _ _ (sub_of rfl hs)
    | with_reducible refine State.armPage_only ?_ _ _ _ _ (sub_of rfl hs)
    | split
    | (with_reducible refine Only.foldl _ (fun _ _ _ => ?_) _ _ ?_)
    | ((with_reducible apply upd_only); rotate_left; iterate 39 (first | exact Or.inr (by with_reducible rfl) | exact Or.inl (mem_of_sub hs rfl) | exact Or.inl (sub_of rfl hs) | exact Or.inr rfl | exact Or.inr ⟨rfl, rfl⟩ | exact Or.inr ⟨rfl, rfl, rfl⟩))


theorem execShedHoldoffExpire_only (h : Only ps a s) (x0 x1) (hs : sub [.out, .irq, .counts, .evrQueue, .line] ps = true) : OnlyR ps a (execShedHoldoffExpire x0 x1 s) := by
  unfold execShedHoldoffExpire
  try dsimp only
  repeat' first
    | with_reducible assumption
    | with_reducible refine finish_only ?_  (sub_of rfl hs)
    | with_reducible refine State.modLine_only ?_ _ _ (sub_of rfl hs)
    | with_reducible refine idle_only ?_  (sub_of rfl hs)
    | with_reducible refine State.ownMsg_only ?_ _ _ (sub_of rfl hs)
    | with_reducible refine finish_only ?_ (sub_of rfl hs)
    | with_reducible refine idle_only ?_
    | split
    | (with_reducible refine Only.foldl _ (fun _ _ _ => ?_) _ _ ?_)
    | ((with_reducible apply upd_only); rotate_left; iterate 39 (first | exact Or.inr (by with_reducible rfl) | exact Or.inl (mem_of_sub hs rfl) | exact Or.inl (sub_of rfl hs) | exact Or.inr rfl | exact Or.inr ⟨rfl, rfl⟩ | exact Or.inr ⟨rfl, rfl, rfl⟩))


end Sys2Proof.Machine
end

