-- ==== Sys2Proof/Laws/OnlyMate.lean ====
section
/-! SUPPORT. What each operation of Machine/Mate.lean may change. -/

set_option linter.unusedTactic false
set_option linter.unreachableTactic false
set_option linter.unusedVariables false
set_option linter.unusedSimpArgs false

namespace Sys2Proof.Machine

variable {ps : List Area} {a s : State}

theorem State.mateRelease_only (h : Only ps a s) (x1) (hs : sub [.out, .host, .pads, .counts, .evrQueue, .role, .mte] ps = true) : Only ps a (State.mateRelease s x1) := by
  unfold State.mateRelease
  try dsimp only
  repeat' first
    | with_reducible assumption
    | with_reducible refine State.mateGo_only ?_ _ _ (sub_of rfl hs)
    | with_reducible refine State.feltSend_only ?_ _ _ (sub_of rfl hs)
    | split
    | (with_reducible refine Only.foldl _ (fun _ _ _ => ?_) _ _ ?_)
    | ((with_reducible apply upd_only); rotate_left; iterate 39 (first | exact Or.inr (by with_reducible rfl) | exact Or.inl (mem_of_sub hs rfl) | exact Or.inl (sub_of rfl hs) | exact Or.inr rfl | exact Or.inr ⟨rfl, rfl⟩ | exact Or.inr ⟨rfl, rfl, rfl⟩))


theorem State.mateFinding_only (h : Only ps a s) (x1) (hs : sub [.out, .status, .host, .pads, .counts, .evrQueue, .role, .mte] ps = true) : Only ps a (State.mateFinding s x1) := by
  unfold State.mateFinding
  try dsimp only
  repeat' first
    | with_reducible assumption
    | with_reducible refine State.setBit_only ?_ _ _ _ (Or.inr (by first | rfl | (simp; done) | decide)) (Or.inl (mem_of_sub hs rfl))
    | with_reducible refine State.mateRelease_only ?_ _ (sub_of rfl hs)
    | split
    | (with_reducible refine Only.foldl _ (fun _ _ _ => ?_) _ _ ?_)
    | ((with_reducible apply upd_only); rotate_left; iterate 39 (first | exact Or.inr (by with_reducible rfl) | exact Or.inl (mem_of_sub hs rfl) | exact Or.inl (sub_of rfl hs) | exact Or.inr rfl | exact Or.inr ⟨rfl, rfl⟩ | exact Or.inr ⟨rfl, rfl, rfl⟩))


theorem State.mateRetry_only (h : Only ps a s) (hs : sub [.out, .status, .host, .pads, .counts, .evrQueue, .role, .mte] ps = true) : Only ps a (State.mateRetry s) := by
  unfold State.mateRetry
  try dsimp only
  repeat' first
    | with_reducible assumption
    | with_reducible refine State.mateFinding_only ?_ _ (sub_of rfl hs)
    | split
    | (with_reducible refine Only.foldl _ (fun _ _ _ => ?_) _ _ ?_)
    | ((with_reducible apply upd_only); rotate_left; iterate 39 (first | exact Or.inr (by with_reducible rfl) | exact Or.inl (mem_of_sub hs rfl) | exact Or.inl (sub_of rfl hs) | exact Or.inr rfl | exact Or.inr ⟨rfl, rfl⟩ | exact Or.inr ⟨rfl, rfl, rfl⟩))


theorem State.mateLook_only (h : Only ps a s) (hs : sub [.host, .pads, .counts, .evrQueue, .role, .mte] ps = true) : Only ps a (State.mateLook s) := by
  unfold State.mateLook
  try dsimp only
  repeat' first
    | with_reducible assumption
    | with_reducible refine State.mateGo_only ?_ _ _ (sub_of rfl hs)
    | split
    | (with_reducible refine Only.foldl _ (fun _ _ _ => ?_) _ _ ?_)
    | ((with_reducible apply upd_only); rotate_left; iterate 39 (first | exact Or.inr (by with_reducible rfl) | exact Or.inl (mem_of_sub hs rfl) | exact Or.inl (sub_of rfl hs) | exact Or.inr rfl | exact Or.inr ⟨rfl, rfl⟩ | exact Or.inr ⟨rfl, rfl, rfl⟩))


theorem mateEnd_only (h : Only ps a s) (hs : sub [.out, .irq, .host, .pads, .counts, .evrQueue, .role, .mte] ps = true) : OnlyR ps a (mateEnd s) := by
  unfold mateEnd
  try dsimp only
  repeat' first
    | with_reducible assumption
    | with_reducible refine finish_only ?_  (sub_of rfl hs)
    | with_reducible refine State.mateLook_only ?_  (sub_of rfl hs)
    | with_reducible refine finish_only ?_ (sub_of rfl hs)
    | with_reducible refine idle_only ?_
    | split
    | (with_reducible refine Only.foldl _ (fun _ _ _ => ?_) _ _ ?_)
    | ((with_reducible apply upd_only); rotate_left; iterate 39 (first | exact Or.inr (by with_reducible rfl) | exact Or.inl (mem_of_sub hs rfl) | exact Or.inl (sub_of rfl hs) | exact Or.inr rfl | exact Or.inr ⟨rfl, rfl⟩ | exact Or.inr ⟨rfl, rfl, rfl⟩))


theorem State.helloAgain_only (h : Only ps a s) (hs : sub [.out, .host, .pads, .counts, .evrQueue, .rng, .role, .mte] ps = true) : Only ps a (State.helloAgain s) := by
  unfold State.helloAgain
  try dsimp only
  repeat' first
    | with_reducible assumption
    | with_reducible refine State.mateTryPair_only ?_  (sub_of rfl hs)
    | with_reducible refine State.mateHello_only ?_ _ (sub_of rfl hs)
    | split
    | (with_reducible refine Only.foldl _ (fun _ _ _ => ?_) _ _ ?_)
    | ((with_reducible apply upd_only); rotate_left; iterate 39 (first | exact Or.inr (by with_reducible rfl) | exact Or.inl (mem_of_sub hs rfl) | exact Or.inl (sub_of rfl hs) | exact Or.inr rfl | exact Or.inr ⟨rfl, rfl⟩ | exact Or.inr ⟨rfl, rfl, rfl⟩))


theorem State.pairFail_only (h : Only ps a s) (x1) (hs : sub [.status, .host, .pads, .counts, .evrQueue, .role, .mte] ps = true) : Only ps a (State.pairFail s x1) := by
  unfold State.pairFail
  try dsimp only
  repeat' first
    | with_reducible assumption
    | with_reducible refine State.setBit_only ?_ _ _ _ (Or.inr (by first | rfl | (simp; done) | decide)) (Or.inl (mem_of_sub hs rfl))
    | ((with_reducible refine State.modMte_only ?_ _ ?_ ?_); rotate_left; (first | exact Or.inl (mem_of_sub hs rfl) | exact Or.inr (fun _ => rfl)); (first | exact Or.inl (mem_of_sub hs rfl) | exact Or.inr (fun _ => rfl) | exact Or.inr (fun _ => ⟨rfl, rfl⟩) | exact Or.inr (fun _ => ⟨rfl, rfl, rfl⟩)))
    | with_reducible refine State.mateGo_only ?_ _ _ (sub_of rfl hs)
    | split
    | (with_reducible refine Only.foldl _ (fun _ _ _ => ?_) _ _ ?_)
    | ((with_reducible apply upd_only); rotate_left; iterate 39 (first | exact Or.inr (by with_reducible rfl) | exact Or.inl (mem_of_sub hs rfl) | exact Or.inl (sub_of rfl hs) | exact Or.inr rfl | exact Or.inr ⟨rfl, rfl⟩ | exact Or.inr ⟨rfl, rfl, rfl⟩))


theorem State.dropTribs_only (h : Only ps a s) (hs : sub [.out, .counts, .evrQueue, .line, .dkl, .sch, .ports, .trib, .tribOld, .cur] ps = true) : Only ps a (State.dropTribs s) := by
  unfold State.dropTribs
  try dsimp only
  repeat' first
    | with_reducible assumption
    | with_reducible refine State.stopTrib_only ?_ _ _ (sub_of rfl hs)
    | split
    | (with_reducible refine Only.foldl _ (fun _ _ _ => ?_) _ _ ?_)
    | ((with_reducible apply upd_only); rotate_left; iterate 39 (first | exact Or.inr (by with_reducible rfl) | exact Or.inl (mem_of_sub hs rfl) | exact Or.inl (sub_of rfl hs) | exact Or.inr rfl | exact Or.inr ⟨rfl, rfl⟩ | exact Or.inr ⟨rfl, rfl, rfl⟩))


theorem State.clearSettings_only (h : Only ps a s) (hs : sub [.tim, .dkl, .lci, .sch, .ports] ps = true) : Only ps a (State.clearSettings s) := by
  intro p hp
  have hn := not_mem_of_sub hs hp
  cases p
  case dkl | lci | sch | ports | tim => exact absurd hn (by decide)
  case line | sac | vat =>
    intro m
    refine Eq.trans ?_ (h _ hp m)
    simp [State.clearSettings, State.line, State.sac, State.vat, State.mill]
  all_goals exact h _ hp

theorem State.discardCopy_only (h : Only ps a s) (hs : sub [.out, .counts, .evrQueue, .tim, .line, .dkl, .lci, .sac, .vat, .sch, .ports, .trib, .tribOld, .sc, .sa, .cur, .mte] ps = true) : Only ps a (State.discardCopy s) := by
  unfold State.discardCopy
  try dsimp only
  repeat' first
    | with_reducible assumption
    | ((with_reducible refine State.modMte_only ?_ _ ?_ ?_); rotate_left; (first | exact Or.inl (mem_of_sub hs rfl) | exact Or.inr (fun _ => rfl)); (first | exact Or.inl (mem_of_sub hs rfl) | exact Or.inr (fun _ => rfl) | exact Or.inr (fun _ => ⟨rfl, rfl⟩) | exact Or.inr (fun _ => ⟨rfl, rfl, rfl⟩)))
    | with_reducible refine State.clearCatalogue_only ?_  (sub_of rfl hs)
    | with_reducible refine State.clearSettings_only ?_  (sub_of rfl hs)
    | with_reducible refine State.dropTribs_only ?_  (sub_of rfl hs)
    | split
    | (with_reducible refine Only.foldl _ (fun _ _ _ => ?_) _ _ ?_)
    | ((with_reducible apply upd_only); rotate_left; iterate 39 (first | exact Or.inr (by with_reducible rfl) | exact Or.inl (mem_of_sub hs rfl) | exact Or.inl (sub_of rfl hs) | exact Or.inr rfl | exact Or.inr ⟨rfl, rfl⟩ | exact Or.inr ⟨rfl, rfl, rfl⟩))


theorem State.sendSnaps_only (h : Only ps a s) (hs : sub [.out, .mte] ps = true) : Only ps a (State.sendSnaps s) := by
  unfold State.sendSnaps
  try dsimp only
  repeat' first
    | with_reducible assumption
    | with_reducible refine State.feltSend_only ?_ _ _ (sub_of rfl hs)
    | split
    | (with_reducible refine Only.foldl _ (fun _ _ _ => ?_) _ _ ?_)
    | ((with_reducible apply upd_only); rotate_left; iterate 39 (first | exact Or.inr (by with_reducible rfl) | exact Or.inl (mem_of_sub hs rfl) | exact Or.inl (sub_of rfl hs) | exact Or.inr rfl | exact Or.inr ⟨rfl, rfl⟩ | exact Or.inr ⟨rfl, rfl, rfl⟩))


theorem State.becomeActive_only (h : Only ps a s) (hs : sub [.out, .host, .pads, .counts, .evrQueue, .role, .mte] ps = true) : Only ps a (State.becomeActive s) := by
  unfold State.becomeActive
  try dsimp only
  repeat' first
    | with_reducible assumption
    | ((with_reducible refine State.modMte_only ?_ _ ?_ ?_); rotate_left; (first | exact Or.inl (mem_of_sub hs rfl) | exact Or.inr (fun _ => rfl)); (first | exact Or.inl (mem_of_sub hs rfl) | exact Or.inr (fun _ => rfl) | exact Or.inr (fun _ => ⟨rfl, rfl⟩) | exact Or.inr (fun _ => ⟨rfl, rfl, rfl⟩)))
    | with_reducible refine State.mateGo_only ?_ _ _ (sub_of rfl hs)
    | with_reducible refine State.delta_only ?_ _ _ (sub_of rfl hs)
    | with_reducible refine State.delta_only_of (by assumption) ?_ (sub_of rfl hs)
    | with_reducible refine State.sendSnaps_only ?_  (sub_of rfl hs)
    | split
    | (with_reducible refine Only.foldl _ (fun _ _ _ => ?_) _ _ ?_)
    | ((with_reducible apply upd_only); rotate_left; iterate 39 (first | exact Or.inr (by with_reducible rfl) | exact Or.inl (mem_of_sub hs rfl) | exact Or.inl (sub_of rfl hs) | exact Or.inr rfl | exact Or.inr ⟨rfl, rfl⟩ | exact Or.inr ⟨rfl, rfl, rfl⟩))


theorem State.applySa_only (h : Only ps a s) (x1 x2 x3) (hs : sub [.mem, .sac, .sa] ps = true) : Only ps a (State.applySa s x1 x2 x3) := by
  unfold State.applySa
  try dsimp only
  repeat' first
    | with_reducible assumption
    | with_reducible refine State.setSa_only ?_ _ _ (sub_of rfl hs)
    | with_reducible refine State.modSac_only ?_ _ _ (sub_of rfl hs)
    | with_reducible refine State.storeCtx'_only ?_ _ _ _ (sub_of rfl hs)
    | split
    | (with_reducible refine Only.foldl _ (fun _ _ _ => ?_) _ _ ?_)
    | ((with_reducible apply upd_only); rotate_left; iterate 39 (first | exact Or.inr (by with_reducible rfl) | exact Or.inl (mem_of_sub hs rfl) | exact Or.inl (sub_of rfl hs) | exact Or.inr rfl | exact Or.inr ⟨rfl, rfl⟩ | exact Or.inr ⟨rfl, rfl, rfl⟩))


theorem State.applyTrib_only (h : Only ps a s) (x1 x2 x3 x4 x5 x6 x7 x8) (hs : sub [.out, .counts, .evrQueue, .line, .dkl, .sch, .ports, .trib, .tribOld, .cur] ps = true) : Only ps a (State.applyTrib s x1 x2 x3 x4 x5 x6 x7 x8) := by
  unfold State.applyTrib
  try dsimp only
  repeat' first
    | with_reducible assumption
    | with_reducible refine State.stopTrib_only ?_ _ _ (sub_of rfl hs)
    | with_reducible refine State.startTrib_only ?_ _ _ _ _ _ _ _ (sub_of rfl hs)
    | with_reducible refine State.updateTrib_only ?_ _ _ _ _ _ _ _ (sub_of rfl hs)
    | split
    | (with_reducible refine Only.foldl _ (fun _ _ _ => ?_) _ _ ?_)
    | ((with_reducible apply upd_only); rotate_left; iterate 39 (first | exact Or.inr (by with_reducible rfl) | exact Or.inl (mem_of_sub hs rfl) | exact Or.inl (sub_of rfl hs) | exact Or.inr rfl | exact Or.inr ⟨rfl, rfl⟩ | exact Or.inr ⟨rfl, rfl, rfl⟩))


theorem State.applyDelta_only (h : Only ps a s) (x1) (hs : sub [.out, .status, .counts, .evrQueue, .timeBases, .tim, .mem, .line, .dkl, .lci, .sac, .sch, .ports, .trib, .tribOld, .sc, .sa, .cur, .lanes, .mte] ps = true) : Only ps a (State.applyDelta s x1) := by
  unfold State.applyDelta
  try dsimp only
  repeat' first
    | with_reducible assumption
    | with_reducible refine State.setSc_only ?_ _ _ (sub_of rfl hs)
    | with_reducible refine State.modLkn_only ?_ _ _ _ (sub_of rfl hs)
    | with_reducible refine State.modPort_only ?_ _ _ (sub_of rfl hs)
    | with_reducible refine State.modTb_only ?_ _ _ (sub_of rfl hs)
    | with_reducible refine State.modLci_only ?_ _ _ (sub_of rfl hs)
    | ((with_reducible refine State.modMte_only ?_ _ ?_ ?_); rotate_left; (first | exact Or.inl (mem_of_sub hs rfl) | exact Or.inr (fun _ => rfl)); (first | exact Or.inl (mem_of_sub hs rfl) | exact Or.inr (fun _ => rfl) | exact Or.inr (fun _ => ⟨rfl, rfl⟩) | exact Or.inr (fun _ => ⟨rfl, rfl, rfl⟩)))
    | with_reducible refine State.modDkl_only ?_ _ _ (sub_of rfl hs)
    | with_reducible refine State.modTrig_only ?_ _ _ (sub_of rfl hs)
    | with_reducible refine State.setShaper_only ?_ _ _ _ _ (sub_of rfl hs)
    | with_reducible refine State.setPolicer_only ?_ _ _ _ (sub_of rfl hs)
    | with_reducible refine State.flipEffect_only ?_ _ _ (sub_of rfl hs)
    | with_reducible refine State.applyTrib_only ?_ _ _ _ _ _ _ _ _ (sub_of rfl hs)
    | with_reducible refine State.applySa_only ?_ _ _ _ (sub_of rfl hs)
    | split
    | (with_reducible refine Only.foldl _ (fun _ _ _ => ?_) _ _ ?_)
    | ((with_reducible apply upd_only); rotate_left; iterate 39 (first | exact Or.inr (by with_reducible rfl) | exact Or.inl (mem_of_sub hs rfl) | exact Or.inl (sub_of rfl hs) | exact Or.inr rfl | exact Or.inr ⟨rfl, rfl⟩ | exact Or.inr ⟨rfl, rfl, rfl⟩))


theorem State.applyHeld_only (h : Only ps a s) (x1) (hs : sub [.out, .status, .counts, .evrQueue, .timeBases, .tim, .mem, .line, .dkl, .lci, .sac, .sch, .ports, .trib, .tribOld, .sc, .sa, .cur, .lanes, .mte] ps = true) : Only ps a (State.applyHeld s x1) := by
  unfold State.applyHeld
  try dsimp only
  repeat' first
    | with_reducible assumption
    | ((with_reducible refine State.modMte_only ?_ _ ?_ ?_); rotate_left; (first | exact Or.inl (mem_of_sub hs rfl) | exact Or.inr (fun _ => rfl)); (first | exact Or.inl (mem_of_sub hs rfl) | exact Or.inr (fun _ => rfl) | exact Or.inr (fun _ => ⟨rfl, rfl⟩) | exact Or.inr (fun _ => ⟨rfl, rfl, rfl⟩)))
    | with_reducible refine State.feltSend_only ?_ _ _ (sub_of rfl hs)
    | with_reducible refine State.applyDelta_only ?_ _ (sub_of rfl hs)
    | split
    | (with_reducible refine Only.foldl _ (fun _ _ _ => ?_) _ _ ?_)
    | ((with_reducible apply upd_only); rotate_left; iterate 39 (first | exact Or.inr (by with_reducible rfl) | exact Or.inl (mem_of_sub hs rfl) | exact Or.inl (sub_of rfl hs) | exact Or.inr rfl | exact Or.inr ⟨rfl, rfl⟩ | exact Or.inr ⟨rfl, rfl, rfl⟩))


theorem State.takeDelta_only (h : Only ps a s) (x1 x2) (hs : sub [.out, .status, .counts, .evrQueue, .timeBases, .tim, .mem, .line, .dkl, .lci, .sac, .sch, .ports, .trib, .tribOld, .sc, .sa, .cur, .lanes, .mte] ps = true) : Only ps a (State.takeDelta s x1 x2) := by
  unfold State.takeDelta
  try dsimp only
  repeat' first
    | with_reducible assumption
    | ((with_reducible refine State.modMte_only ?_ _ ?_ ?_); rotate_left; (first | exact Or.inl (mem_of_sub hs rfl) | exact Or.inr (fun _ => rfl)); (first | exact Or.inl (mem_of_sub hs rfl) | exact Or.inr (fun _ => rfl) | exact Or.inr (fun _ => ⟨rfl, rfl⟩) | exact Or.inr (fun _ => ⟨rfl, rfl, rfl⟩)))
    | with_reducible refine State.feltSend_only ?_ _ _ (sub_of rfl hs)
    | with_reducible refine State.applyDelta_only ?_ _ (sub_of rfl hs)
    | split
    | (with_reducible refine Only.foldl _ (fun _ _ _ => ?_) _ _ ?_)
    | ((with_reducible apply upd_only); rotate_left; iterate 39 (first | exact Or.inr (by with_reducible rfl) | exact Or.inl (mem_of_sub hs rfl) | exact Or.inl (sub_of rfl hs) | exact Or.inr rfl | exact Or.inr ⟨rfl, rfl⟩ | exact Or.inr ⟨rfl, rfl, rfl⟩))


theorem State.mateLinkUp_only (h : Only ps a s) (hs : sub [.out, .host, .pads, .counts, .evrQueue, .tim, .rng, .line, .dkl, .lci, .sac, .vat, .sch, .ports, .trib, .tribOld, .sc, .sa, .cur, .felt, .role, .mte] ps = true) : Only ps a (State.mateLinkUp s) := by
  unfold State.mateLinkUp
  try dsimp only
  repeat' first
    | with_reducible assumption
    | ((with_reducible refine State.modMte_only ?_ _ ?_ ?_); rotate_left; (first | exact Or.inl (mem_of_sub hs rfl) | exact Or.inr (fun _ => rfl)); (first | exact Or.inl (mem_of_sub hs rfl) | exact Or.inr (fun _ => rfl) | exact Or.inr (fun _ => ⟨rfl, rfl⟩) | exact Or.inr (fun _ => ⟨rfl, rfl, rfl⟩)))
    | with_reducible refine State.modFelt_only ?_ _ (sub_of rfl hs)
    | with_reducible refine State.mateGo_only ?_ _ _ (sub_of rfl hs)
    | with_reducible refine State.mateTryPair_only ?_  (sub_of rfl hs)
    | with_reducible refine State.discardCopy_only ?_  (sub_of rfl hs)
    | split
    | (with_reducible refine Only.foldl _ (fun _ _ _ => ?_) _ _ ?_)
    | ((with_reducible apply upd_only); rotate_left; iterate 39 (first | exact Or.inr (by with_reducible rfl) | exact Or.inl (mem_of_sub hs rfl) | exact Or.inl (sub_of rfl hs) | exact Or.inr rfl | exact Or.inr ⟨rfl, rfl⟩ | exact Or.inr ⟨rfl, rfl, rfl⟩))


theorem State.mateLinkDown_only (h : Only ps a s) (hs : sub [.felt, .mte] ps = true) : Only ps a (State.mateLinkDown s) := by
  unfold State.mateLinkDown
  try dsimp only
  repeat' first
    | with_reducible assumption
    | ((with_reducible refine State.modMte_only ?_ _ ?_ ?_); rotate_left; (first | exact Or.inl (mem_of_sub hs rfl) | exact Or.inr (fun _ => rfl)); (first | exact Or.inl (mem_of_sub hs rfl) | exact Or.inr (fun _ => rfl) | exact Or.inr (fun _ => ⟨rfl, rfl⟩) | exact Or.inr (fun _ => ⟨rfl, rfl, rfl⟩)))
    | with_reducible refine State.modFelt_only ?_ _ (sub_of rfl hs)
    | split
    | (with_reducible refine Only.foldl _ (fun _ _ _ => ?_) _ _ ?_)
    | ((with_reducible apply upd_only); rotate_left; iterate 39 (first | exact Or.inr (by with_reducible rfl) | exact Or.inl (mem_of_sub hs rfl) | exact Or.inl (sub_of rfl hs) | exact Or.inr rfl | exact Or.inr ⟨rfl, rfl⟩ | exact Or.inr ⟨rfl, rfl, rfl⟩))


theorem State.mateHb_only (h : Only ps a s) (hs : sub [.mte] ps = true) : Only ps a (State.mateHb s) := by
  unfold State.mateHb
  try dsimp only
  repeat' first
    | with_reducible assumption
    | ((with_reducible refine State.modMte_only ?_ _ ?_ ?_); rotate_left; (first | exact Or.inl (mem_of_sub hs rfl) | exact Or.inr (fun _ => rfl)); (first | exact Or.inl (mem_of_sub hs rfl) | exact Or.inr (fun _ => rfl) | exact Or.inr (fun _ => ⟨rfl, rfl⟩) | exact Or.inr (fun _ => ⟨rfl, rfl, rfl⟩)))
    | split
    | (with_reducible refine Only.foldl _ (fun _ _ _ => ?_) _ _ ?_)
    | ((with_reducible apply upd_only); rotate_left; iterate 39 (first | exact Or.inr (by with_reducible rfl) | exact Or.inl (mem_of_sub hs rfl) | exact Or.inl (sub_of rfl hs) | exact Or.inr rfl | exact Or.inr ⟨rfl, rfl⟩ | exact Or.inr ⟨rfl, rfl, rfl⟩))


theorem State.frameDiscard_only (h : Only ps a s) (hs : sub [.counts] ps = true) : Only ps a (State.frameDiscard s) := by
  unfold State.frameDiscard
  try dsimp only
  repeat' first
    | with_reducible assumption
    | with_reducible refine State.countDev_only ?_ _ _ _ _ (sub_of rfl hs)
    | split
    | (with_reducible refine Only.foldl _ (fun _ _ _ => ?_) _ _ ?_)
    | ((with_reducible apply upd_only); rotate_left; iterate 39 (first | exact Or.inr (by with_reducible rfl) | exact Or.inl (mem_of_sub hs rfl) | exact Or.inl (sub_of rfl hs) | exact Or.inr rfl | exact Or.inr ⟨rfl, rfl⟩ | exact Or.inr ⟨rfl, rfl, rfl⟩))


theorem State.feltDeliver_only (h : Only ps a s) (x1) (hs : sub [.out, .counts, .felt, .mte] ps = true) : Only ps a (State.feltDeliver s x1) := by
  unfold State.feltDeliver
  try dsimp only
  repeat' first
    | with_reducible assumption
    | ((with_reducible refine State.modMte_only ?_ _ ?_ ?_); rotate_left; (first | exact Or.inl (mem_of_sub hs rfl) | exact Or.inr (fun _ => rfl)); (first | exact Or.inl (mem_of_sub hs rfl) | exact Or.inr (fun _ => rfl) | exact Or.inr (fun _ => ⟨rfl, rfl⟩) | exact Or.inr (fun _ => ⟨rfl, rfl, rfl⟩)))
    | with_reducible refine State.modFelt_only ?_ _ (sub_of rfl hs)
    | with_reducible refine State.countDev_only ?_ _ _ _ _ (sub_of rfl hs)
    | with_reducible refine State.feltSend_only ?_ _ _ (sub_of rfl hs)
    | with_reducible refine State.frameDiscard_only ?_  (sub_of rfl hs)
    | split
    | (with_reducible refine Only.foldl _ (fun _ _ _ => ?_) _ _ ?_)
    | ((with_reducible apply upd_only); rotate_left; iterate 39 (first | exact Or.inr (by with_reducible rfl) | exact Or.inl (mem_of_sub hs rfl) | exact Or.inl (sub_of rfl hs) | exact Or.inr rfl | exact Or.inr ⟨rfl, rfl⟩ | exact Or.inr ⟨rfl, rfl, rfl⟩))


theorem State.feltHead_only_of {t : State} {x1} {r} (e : State.feltHead s x1 = some (r, t)) (h : Only ps a s) (hs : sub [.felt] ps = true) : Only ps a t := by
  unfold State.feltHead at e
  try dsimp only at e
  (repeat' split at e) <;> first | contradiction | skip
  all_goals (first | (cases e) | skip)
  repeat' first
    | with_reducible assumption
    | with_reducible refine State.modFelt_only ?_ _ (sub_of rfl hs)
    | split
    | (with_reducible refine Only.foldl _ (fun _ _ _ => ?_) _ _ ?_)
    | ((with_reducible apply upd_only); rotate_left; iterate 39 (first | exact Or.inr (by with_reducible rfl) | exact Or.inl (mem_of_sub hs rfl) | exact Or.inl (sub_of rfl hs) | exact Or.inr rfl | exact Or.inr ⟨rfl, rfl⟩ | exact Or.inr ⟨rfl, rfl, rfl⟩))


theorem State.adoptEpoch_only (h : Only ps a s) (x1) (hs : sub [.mte] ps = true) : Only ps a (State.adoptEpoch s x1) := by
  unfold State.adoptEpoch
  try dsimp only
  repeat' first
    | with_reducible assumption
    | ((with_reducible refine State.modMte_only ?_ _ ?_ ?_); rotate_left; (first | exact Or.inl (mem_of_sub hs rfl) | exact Or.inr (fun _ => rfl)); (first | exact Or.inl (mem_of_sub hs rfl) | exact Or.inr (fun _ => rfl) | exact Or.inr (fun _ => ⟨rfl, rfl⟩) | exact Or.inr (fun _ => ⟨rfl, rfl, rfl⟩)))
    | split
    | (with_reducible refine Only.foldl _ (fun _ _ _ => ?_) _ _ ?_)
    | ((with_reducible apply upd_only); rotate_left; iterate 39 (first | exact Or.inr (by with_reducible rfl) | exact Or.inl (mem_of_sub hs rfl) | exact Or.inl (sub_of rfl hs) | exact Or.inr rfl | exact Or.inr ⟨rfl, rfl⟩ | exact Or.inr ⟨rfl, rfl, rfl⟩))


end Sys2Proof.Machine
end

