-- ==== Sys2Proof/Laws/OnlyMateRows.lean ====
section
/-! SUPPORT. What each operation of Machine/MateRows.lean may change. -/

set_option linter.unusedTactic false
set_option linter.unreachableTactic false
set_option linter.unusedVariables false
set_option linter.unusedSimpArgs false

namespace Sys2Proof.Machine

variable {ps : List Area} {a s : State}

theorem State.followLine_only (h : Only ps a s) (x1 x2) (hs : sub [.status, .counts, .evrQueue, .tim, .line, .dkl, .lanes] ps = true) : Only ps a (State.followLine s x1 x2) := by
  unfold State.followLine
  try dsimp only
  repeat' first
    | with_reducible assumption
    | with_reducible refine State.modLine_only ?_ _ _ (sub_of rfl hs)
    | with_reducible refine State.reamSettings_only ?_ _ (sub_of rfl hs)
    | split
    | (with_reducible refine Only.foldl _ (fun _ _ _ => ?_) _ _ ?_)
    | ((with_reducible apply upd_only); rotate_left; iterate 39 (first | exact Or.inr (by with_reducible rfl) | exact Or.inl (mem_of_sub hs rfl) | exact Or.inl (sub_of rfl hs) | exact Or.inr rfl | exact Or.inr ⟨rfl, rfl⟩ | exact Or.inr ⟨rfl, rfl, rfl⟩))


theorem State.compareRx_only (h : Only ps a s) (x1 x2) (hs : sub [.counts, .mte] ps = true) : Only ps a (State.compareRx s x1 x2) := by
  unfold State.compareRx
  try dsimp only
  repeat' first
    | with_reducible assumption
    | ((with_reducible refine State.modMte_only ?_ _ ?_ ?_); rotate_left; (first | exact Or.inl (mem_of_sub hs rfl) | exact Or.inr (fun _ => rfl)); (first | exact Or.inl (mem_of_sub hs rfl) | exact Or.inr (fun _ => rfl) | exact Or.inr (fun _ => ⟨rfl, rfl⟩) | exact Or.inr (fun _ => ⟨rfl, rfl, rfl⟩)))
    | with_reducible refine State.judgeDig_only ?_ _ _ _ (sub_of rfl hs)
    | split
    | (with_reducible refine Only.foldl _ (fun _ _ _ => ?_) _ _ ?_)
    | ((with_reducible apply upd_only); rotate_left; iterate 39 (first | exact Or.inr (by with_reducible rfl) | exact Or.inl (mem_of_sub hs rfl) | exact Or.inl (sub_of rfl hs) | exact Or.inr rfl | exact Or.inr ⟨rfl, rfl⟩ | exact Or.inr ⟨rfl, rfl, rfl⟩))


theorem State.agreeDefects_only (h : Only ps a s) (x1 x2) (hs : sub [.mte] ps = true) : Only ps a (State.agreeDefects s x1 x2) := by
  unfold State.agreeDefects
  try dsimp only
  repeat' first
    | with_reducible assumption
    | ((with_reducible refine State.modMte_only ?_ _ ?_ ?_); rotate_left; (first | exact Or.inl (mem_of_sub hs rfl) | exact Or.inr (fun _ => rfl)); (first | exact Or.inl (mem_of_sub hs rfl) | exact Or.inr (fun _ => rfl) | exact Or.inr (fun _ => ⟨rfl, rfl⟩) | exact Or.inr (fun _ => ⟨rfl, rfl, rfl⟩)))
    | split
    | (with_reducible refine Only.foldl _ (fun _ _ _ => ?_) _ _ ?_)
    | ((with_reducible apply upd_only); rotate_left; iterate 39 (first | exact Or.inr (by with_reducible rfl) | exact Or.inl (mem_of_sub hs rfl) | exact Or.inl (sub_of rfl hs) | exact Or.inr rfl | exact Or.inr ⟨rfl, rfl⟩ | exact Or.inr ⟨rfl, rfl, rfl⟩))


theorem State.takeDigest_only (h : Only ps a s) (x1) (hs : sub [.out, .status, .counts, .evrQueue, .timeBases, .tim, .mem, .line, .dkl, .lci, .sac, .sch, .ports, .trib, .tribOld, .sc, .sa, .cur, .lanes, .mte] ps = true) : Only ps a (State.takeDigest s x1) := by
  unfold State.takeDigest
  try dsimp only
  repeat' first
    | with_reducible assumption
    | ((with_reducible refine State.modMte_only ?_ _ ?_ ?_); rotate_left; (first | exact Or.inl (mem_of_sub hs rfl) | exact Or.inr (fun _ => rfl)); (first | exact Or.inl (mem_of_sub hs rfl) | exact Or.inr (fun _ => rfl) | exact Or.inr (fun _ => ⟨rfl, rfl⟩) | exact Or.inr (fun _ => ⟨rfl, rfl, rfl⟩)))
    | with_reducible refine State.feltSend_only ?_ _ _ (sub_of rfl hs)
    | with_reducible refine State.applyHeld_only ?_ _ (sub_of rfl hs)
    | with_reducible refine State.followLine_only ?_ _ _ (sub_of rfl hs)
    | with_reducible refine State.compareRx_only ?_ _ _ (sub_of rfl hs)
    | with_reducible refine State.agreeDefects_only ?_ _ _ (sub_of rfl hs)
    | split
    | (with_reducible refine Only.foldl _ (fun _ _ _ => ?_) _ _ ?_)
    | ((with_reducible apply upd_only); rotate_left; iterate 39 (first | exact Or.inr (by with_reducible rfl) | exact Or.inl (mem_of_sub hs rfl) | exact Or.inl (sub_of rfl hs) | exact Or.inr rfl | exact Or.inr ⟨rfl, rfl⟩ | exact Or.inr ⟨rfl, rfl, rfl⟩))


theorem State.takeDigests_only (h : Only ps a s) (x1) (hs : sub [.out, .status, .counts, .evrQueue, .timeBases, .tim, .mem, .line, .dkl, .lci, .sac, .sch, .ports, .trib, .tribOld, .sc, .sa, .cur, .lanes, .mte] ps = true) : Only ps a (State.takeDigests s x1) := by
  unfold State.takeDigests
  try dsimp only
  repeat' first
    | with_reducible assumption
    | with_reducible refine State.takeDigest_only ?_ _ (sub_of rfl hs)
    | split
    | (with_reducible refine Only.foldl _ (fun _ _ _ => ?_) _ _ ?_)
    | ((with_reducible apply upd_only); rotate_left; iterate 39 (first | exact Or.inr (by with_reducible rfl) | exact Or.inl (mem_of_sub hs rfl) | exact Or.inl (sub_of rfl hs) | exact Or.inr rfl | exact Or.inr ⟨rfl, rfl⟩ | exact Or.inr ⟨rfl, rfl, rfl⟩))


theorem State.takeCkpt_only (h : Only ps a s) (x1) (hs : sub [.mem, .sac] ps = true) : Only ps a (State.takeCkpt s x1) := by
  unfold State.takeCkpt
  try dsimp only
  repeat' first
    | with_reducible assumption
    | with_reducible refine State.storeCtx'_only ?_ _ _ _ (sub_of rfl hs)
    | split
    | (with_reducible refine Only.foldl _ (fun _ _ _ => ?_) _ _ ?_)
    | ((with_reducible apply upd_only); rotate_left; iterate 39 (first | exact Or.inr (by with_reducible rfl) | exact Or.inl (mem_of_sub hs rfl) | exact Or.inl (sub_of rfl hs) | exact Or.inr rfl | exact Or.inr ⟨rfl, rfl⟩ | exact Or.inr ⟨rfl, rfl, rfl⟩))


theorem State.takeCkpts_only (h : Only ps a s) (x1) (hs : sub [.mem, .sac] ps = true) : Only ps a (State.takeCkpts s x1) := by
  unfold State.takeCkpts
  try dsimp only
  repeat' first
    | with_reducible assumption
    | with_reducible refine State.takeCkpt_only ?_ _ (sub_of rfl hs)
    | split
    | (with_reducible refine Only.foldl _ (fun _ _ _ => ?_) _ _ ?_)
    | ((with_reducible apply upd_only); rotate_left; iterate 39 (first | exact Or.inr (by with_reducible rfl) | exact Or.inl (mem_of_sub hs rfl) | exact Or.inl (sub_of rfl hs) | exact Or.inr rfl | exact Or.inr ⟨rfl, rfl⟩ | exact Or.inr ⟨rfl, rfl, rfl⟩))


theorem State.takeQueued_only (h : Only ps a s) (x1) (hs : sub [.out, .status, .counts, .evrQueue, .timeBases, .tim, .mem, .line, .dkl, .lci, .sac, .sch, .ports, .trib, .tribOld, .sc, .sa, .cur, .lanes, .mte] ps = true) : Only ps a (State.takeQueued s x1) := by
  fun_induction State.takeQueued s x1 <;> try dsimp only
  repeat' first
    | with_reducible assumption
    | with_reducible refine State.takeDelta_only ?_ _ _ (sub_of rfl hs)
    | with_reducible refine State.takeCkpts_only ?_ _ (sub_of rfl hs)
    | with_reducible refine State.takeDigests_only ?_ _ (sub_of rfl hs)
    | with_reducible apply_assumption -exfalso -symm
    | split
    | (with_reducible refine Only.foldl _ (fun _ _ _ => ?_) _ _ ?_)
    | ((with_reducible apply upd_only); rotate_left; iterate 39 (first | exact Or.inr (by with_reducible rfl) | exact Or.inl (mem_of_sub hs rfl) | exact Or.inl (sub_of rfl hs) | exact Or.inr rfl | exact Or.inr ⟨rfl, rfl⟩ | exact Or.inr ⟨rfl, rfl, rfl⟩))


theorem State.takeoverSeq_only (h : Only ps a s) (x1) (hs : sub [.out, .status, .counts, .evrQueue, .lci, .cur, .mte] ps = true) : Only ps a (State.takeoverSeq s x1) := by
  unfold State.takeoverSeq
  try dsimp only
  repeat' first
    | with_reducible assumption
    | with_reducible refine State.setBit_only ?_ _ _ _ (Or.inr (by first | rfl | (simp; done) | decide)) (Or.inl (mem_of_sub hs rfl))
    | with_reducible refine State.modLkn_only ?_ _ _ _ (sub_of rfl hs)
    | with_reducible refine State.txDone_only ?_ _ _ _ (sub_of rfl hs)
    | split
    | (with_reducible refine Only.foldl _ (fun _ _ _ => ?_) _ _ ?_)
    | ((with_reducible apply upd_only); rotate_left; iterate 39 (first | exact Or.inr (by with_reducible rfl) | exact Or.inl (mem_of_sub hs rfl) | exact Or.inl (sub_of rfl hs) | exact Or.inr rfl | exact Or.inr ⟨rfl, rfl⟩ | exact Or.inr ⟨rfl, rfl, rfl⟩))


theorem State.takeover_only (h : Only ps a s) (hs : sub [.out, .status, .host, .pads, .counts, .evrQueue, .timeBases, .tim, .mem, .line, .dkl, .lci, .sac, .sch, .ports, .trib, .tribOld, .sc, .sa, .cur, .lanes, .felt, .role, .mte] ps = true) : Only ps a (State.takeover s) := by
  unfold State.takeover
  try dsimp only
  repeat' first
    | with_reducible assumption
    | ((with_reducible refine State.modMte_only ?_ _ ?_ ?_); rotate_left; (first | exact Or.inl (mem_of_sub hs rfl) | exact Or.inr (fun _ => rfl)); (first | exact Or.inl (mem_of_sub hs rfl) | exact Or.inr (fun _ => rfl) | exact Or.inr (fun _ => ⟨rfl, rfl⟩) | exact Or.inr (fun _ => ⟨rfl, rfl, rfl⟩)))
    | with_reducible refine State.modFelt_only ?_ _ (sub_of rfl hs)
    | with_reducible refine State.applyHeld_only ?_ _ (sub_of rfl hs)
    | with_reducible refine State.becomeActive_only ?_  (sub_of rfl hs)
    | with_reducible refine State.takeoverSeq_only ?_ _ (sub_of rfl hs)
    | with_reducible refine State.takeQueued_only ?_ _ (sub_of rfl hs)
    | split
    | (with_reducible refine Only.foldl _ (fun _ _ _ => ?_) _ _ ?_)
    | ((with_reducible apply upd_only); rotate_left; iterate 39 (first | exact Or.inr (by with_reducible rfl) | exact Or.inl (mem_of_sub hs rfl) | exact Or.inl (sub_of rfl hs) | exact Or.inr rfl | exact Or.inr ⟨rfl, rfl⟩ | exact Or.inr ⟨rfl, rfl, rfl⟩))


theorem State.claimFailed_only (h : Only ps a s) (hs : sub [.host, .pads, .counts, .evrQueue, .role, .mte] ps = true) : Only ps a (State.claimFailed s) := by
  unfold State.claimFailed
  try dsimp only
  repeat' first
    | with_reducible assumption
    | with_reducible refine State.mateGo_only ?_ _ _ (sub_of rfl hs)
    | split
    | (with_reducible refine Only.foldl _ (fun _ _ _ => ?_) _ _ ?_)
    | ((with_reducible apply upd_only); rotate_left; iterate 39 (first | exact Or.inr (by with_reducible rfl) | exact Or.inl (mem_of_sub hs rfl) | exact Or.inl (sub_of rfl hs) | exact Or.inr rfl | exact Or.inr ⟨rfl, rfl⟩ | exact Or.inr ⟨rfl, rfl, rfl⟩))


theorem State.setLock_only (h : Only ps a s) (x1 x2 x3) (hs : sub [.pads, .mte] ps = true) : Only ps a (State.setLock s x1 x2 x3) := by
  unfold State.setLock
  try dsimp only
  repeat' first
    | with_reducible assumption
    | split
    | (with_reducible refine Only.foldl _ (fun _ _ _ => ?_) _ _ ?_)
    | ((with_reducible apply upd_only); rotate_left; iterate 39 (first | exact Or.inr (by with_reducible rfl) | exact Or.inl (mem_of_sub hs rfl) | exact Or.inl (sub_of rfl hs) | exact Or.inr rfl | exact Or.inr ⟨rfl, rfl⟩ | exact Or.inr ⟨rfl, rfl, rfl⟩))


theorem execMateActInChange_only (h : Only ps a s) (x0) (hs : sub [.out, .irq, .host, .pads, .counts, .evrQueue, .role, .mte] ps = true) : OnlyR ps a (execMateActInChange x0 s) := by
  unfold execMateActInChange
  try dsimp only
  repeat' first
    | with_reducible assumption
    | ((with_reducible refine State.modMte_only ?_ _ ?_ ?_); rotate_left; (first | exact Or.inl (mem_of_sub hs rfl) | exact Or.inr (fun _ => rfl)); (first | exact Or.inl (mem_of_sub hs rfl) | exact Or.inr (fun _ => rfl) | exact Or.inr (fun _ => ⟨rfl, rfl⟩) | exact Or.inr (fun _ => ⟨rfl, rfl, rfl⟩)))
    | with_reducible refine State.modPads_only ?_ _ (sub_of rfl hs)
    | with_reducible refine idle_only ?_  (sub_of rfl hs)
    | with_reducible refine State.interlock_only ?_  (sub_of rfl hs)
    | with_reducible refine mateEnd_only ?_  (sub_of rfl hs)
    | with_reducible refine State.setLock_only ?_ _ _ _ (sub_of rfl hs)
    | with_reducible refine State.claimFailed_only ?_  (sub_of rfl hs)
    | with_reducible refine finish_only ?_ (sub_of rfl hs)
    | with_reducible refine idle_only ?_
    | split
    | (with_reducible refine Only.foldl _ (fun _ _ _ => ?_) _ _ ?_)
    | ((with_reducible apply upd_only); rotate_left; iterate 39 (first | exact Or.inr (by with_reducible rfl) | exact Or.inl (mem_of_sub hs rfl) | exact Or.inl (sub_of rfl hs) | exact Or.inr rfl | exact Or.inr ⟨rfl, rfl⟩ | exact Or.inr ⟨rfl, rfl, rfl⟩))


theorem execClaimTimerExpire_only (h : Only ps a s) (hs : sub [.out, .status, .irq, .host, .pads, .counts, .evrQueue, .timeBases, .tim, .mem, .line, .dkl, .lci, .sac, .sch, .ports, .trib, .tribOld, .sc, .sa, .cur, .lanes, .felt, .role, .mte] ps = true) : OnlyR ps a (execClaimTimerExpire s) := by
  unfold execClaimTimerExpire
  try dsimp only
  repeat' first
    | with_reducible assumption
    | ((with_reducible refine State.modMte_only ?_ _ ?_ ?_); rotate_left; (first | exact Or.inl (mem_of_sub hs rfl) | exact Or.inr (fun _ => rfl)); (first | exact Or.inl (mem_of_sub hs rfl) | exact Or.inr (fun _ => rfl) | exact Or.inr (fun _ => ⟨rfl, rfl⟩) | exact Or.inr (fun _ => ⟨rfl, rfl, rfl⟩)))
    | with_reducible refine idle_only ?_  (sub_of rfl hs)
    | with_reducible refine mateEnd_only ?_  (sub_of rfl hs)
    | with_reducible refine State.takeover_only ?_  (sub_of rfl hs)
    | with_reducible refine finish_only ?_ (sub_of rfl hs)
    | with_reducible refine idle_only ?_
    | split
    | (with_reducible refine Only.foldl _ (fun _ _ _ => ?_) _ _ ?_)
    | ((with_reducible apply upd_only); rotate_left; iterate 39 (first | exact Or.inr (by with_reducible rfl) | exact Or.inl (mem_of_sub hs rfl) | exact Or.inl (sub_of rfl hs) | exact Or.inr rfl | exact Or.inr ⟨rfl, rfl⟩ | exact Or.inr ⟨rfl, rfl, rfl⟩))


theorem execReleasingExpire_only (h : Only ps a s) (hs : sub [.out, .irq, .host, .pads, .counts, .evrQueue, .role, .mte] ps = true) : OnlyR ps a (execReleasingExpire s) := by
  unfold execReleasingExpire
  try dsimp only
  repeat' first
    | with_reducible assumption
    | with_reducible refine idle_only ?_  (sub_of rfl hs)
    | with_reducible refine State.interlock_only ?_  (sub_of rfl hs)
    | with_reducible refine mateEnd_only ?_  (sub_of rfl hs)
    | with_reducible refine State.setLock_only ?_ _ _ _ (sub_of rfl hs)
    | with_reducible refine finish_only ?_ (sub_of rfl hs)
    | with_reducible refine idle_only ?_
    | split
    | (with_reducible refine Only.foldl _ (fun _ _ _ => ?_) _ _ ?_)
    | ((with_reducible apply upd_only); rotate_left; iterate 39 (first | exact Or.inr (by with_reducible rfl) | exact Or.inl (mem_of_sub hs rfl) | exact Or.inl (sub_of rfl hs) | exact Or.inr rfl | exact Or.inr ⟨rfl, rfl⟩ | exact Or.inr ⟨rfl, rfl, rfl⟩))


theorem State.writeActReq_only (h : Only ps a s) (x1) (hs : sub [.out, .status, .host, .pads, .counts, .evrQueue, .role, .mte] ps = true) : Only ps a (State.writeActReq s x1) := by
  unfold State.writeActReq
  try dsimp only
  repeat' first
    | with_reducible assumption
    | with_reducible refine State.setBit_only ?_ _ _ _ (Or.inr (by first | rfl | (simp; done) | decide)) (Or.inl (mem_of_sub hs rfl))
    | with_reducible refine State.interlock_only ?_  (sub_of rfl hs)
    | with_reducible refine State.mateRelease_only ?_ _ (sub_of rfl hs)
    | with_reducible refine State.claimFailed_only ?_  (sub_of rfl hs)
    | split
    | (with_reducible refine Only.foldl _ (fun _ _ _ => ?_) _ _ ?_)
    | ((with_reducible apply upd_only); rotate_left; iterate 39 (first | exact Or.inr (by with_reducible rfl) | exact Or.inl (mem_of_sub hs rfl) | exact Or.inl (sub_of rfl hs) | exact Or.inr rfl | exact Or.inr ⟨rfl, rfl⟩ | exact Or.inr ⟨rfl, rfl, rfl⟩))


theorem execActReqWrite_only (h : Only ps a s) (x0) (hs : sub [.out, .status, .irq, .host, .pads, .counts, .evrQueue, .role, .mte] ps = true) : OnlyR ps a (execActReqWrite x0 s) := by
  unfold execActReqWrite
  try dsimp only
  repeat' first
    | with_reducible assumption
    | with_reducible refine idle_only ?_  (sub_of rfl hs)
    | with_reducible refine mateEnd_only ?_  (sub_of rfl hs)
    | with_reducible refine State.writeActReq_only ?_ _ (sub_of rfl hs)
    | with_reducible refine finish_only ?_ (sub_of rfl hs)
    | with_reducible refine idle_only ?_
    | split
    | (with_reducible refine Only.foldl _ (fun _ _ _ => ?_) _ _ ?_)
    | ((with_reducible apply upd_only); rotate_left; iterate 39 (first | exact Or.inr (by with_reducible rfl) | exact Or.inl (mem_of_sub hs rfl) | exact Or.inl (sub_of rfl hs) | exact Or.inr rfl | exact Or.inr ⟨rfl, rfl⟩ | exact Or.inr ⟨rfl, rfl, rfl⟩))


theorem State.writeMteEn_only (h : Only ps a s) (x1) (hs : sub [.out, .status, .host, .pads, .counts, .evrQueue, .rng, .role, .mte] ps = true) : Only ps a (State.writeMteEn s x1) := by
  unfold State.writeMteEn
  try dsimp only
  repeat' first
    | with_reducible assumption
    | with_reducible refine State.setBit_only ?_ _ _ _ (Or.inr (by first | rfl | (simp; done) | decide)) (Or.inl (mem_of_sub hs rfl))
    | ((with_reducible refine State.modMte_only ?_ _ ?_ ?_); rotate_left; (first | exact Or.inl (mem_of_sub hs rfl) | exact Or.inr (fun _ => rfl)); (first | exact Or.inl (mem_of_sub hs rfl) | exact Or.inr (fun _ => rfl) | exact Or.inr (fun _ => ⟨rfl, rfl⟩) | exact Or.inr (fun _ => ⟨rfl, rfl, rfl⟩)))
    | with_reducible refine State.mateGo_only ?_ _ _ (sub_of rfl hs)
    | with_reducible refine State.mateTryPair_only ?_  (sub_of rfl hs)
    | split
    | (with_reducible refine Only.foldl _ (fun _ _ _ => ?_) _ _ ?_)
    | ((with_reducible apply upd_only); rotate_left; iterate 39 (first | exact Or.inr (by with_reducible rfl) | exact Or.inl (mem_of_sub hs rfl) | exact Or.inl (sub_of rfl hs) | exact Or.inr rfl | exact Or.inr ⟨rfl, rfl⟩ | exact Or.inr ⟨rfl, rfl, rfl⟩))


theorem execMteEnWrite_only (h : Only ps a s) (x0) (hs : sub [.out, .status, .irq, .host, .pads, .counts, .evrQueue, .rng, .role, .mte] ps = true) : OnlyR ps a (execMteEnWrite x0 s) := by
  unfold execMteEnWrite
  try dsimp only
  repeat' first
    | with_reducible assumption
    | with_reducible refine idle_only ?_  (sub_of rfl hs)
    | with_reducible refine mateEnd_only ?_  (sub_of rfl hs)
    | with_reducible refine State.writeMteEn_only ?_ _ (sub_of rfl hs)
    | with_reducible refine finish_only ?_ (sub_of rfl hs)
    | with_reducible refine idle_only ?_
    | split
    | (with_reducible refine Only.foldl _ (fun _ _ _ => ?_) _ _ ?_)
    | ((with_reducible apply upd_only); rotate_left; iterate 39 (first | exact Or.inr (by with_reducible rfl) | exact Or.inl (mem_of_sub hs rfl) | exact Or.inl (sub_of rfl hs) | exact Or.inr rfl | exact Or.inr ⟨rfl, rfl⟩ | exact Or.inr ⟨rfl, rfl, rfl⟩))


theorem State.cmdSwitch_only (h : Only ps a s) (hs : sub [.out, .host, .pads, .counts, .evrQueue, .role, .mte] ps = true) : Only ps a (State.cmdSwitch s) := by
  unfold State.cmdSwitch
  try dsimp only
  repeat' first
    | with_reducible assumption
    | ((with_reducible refine State.modMte_only ?_ _ ?_ ?_); rotate_left; (first | exact Or.inl (mem_of_sub hs rfl) | exact Or.inr (fun _ => rfl)); (first | exact Or.inl (mem_of_sub hs rfl) | exact Or.inr (fun _ => rfl) | exact Or.inr (fun _ => ⟨rfl, rfl⟩) | exact Or.inr (fun _ => ⟨rfl, rfl, rfl⟩)))
    | with_reducible refine State.mateRelease_only ?_ _ (sub_of rfl hs)
    | split
    | (with_reducible refine Only.foldl _ (fun _ _ _ => ?_) _ _ ?_)
    | ((with_reducible apply upd_only); rotate_left; iterate 39 (first | exact Or.inr (by with_reducible rfl) | exact Or.inl (mem_of_sub hs rfl) | exact Or.inl (sub_of rfl hs) | exact Or.inr rfl | exact Or.inr ⟨rfl, rfl⟩ | exact Or.inr ⟨rfl, rfl, rfl⟩))


theorem execMateSwitch_only (h : Only ps a s) (hs : sub [.out, .irq, .host, .pads, .counts, .evrQueue, .role, .mte] ps = true) : OnlyR ps a (execMateSwitch s) := by
  unfold execMateSwitch
  try dsimp only
  repeat' first
    | with_reducible assumption
    | with_reducible refine idle_only ?_  (sub_of rfl hs)
    | with_reducible refine mateEnd_only ?_  (sub_of rfl hs)
    | with_reducible refine State.cmdSwitch_only ?_  (sub_of rfl hs)
    | with_reducible refine finish_only ?_ (sub_of rfl hs)
    | with_reducible refine idle_only ?_
    | split
    | (with_reducible refine Only.foldl _ (fun _ _ _ => ?_) _ _ ?_)
    | ((with_reducible apply upd_only); rotate_left; iterate 39 (first | exact Or.inr (by with_reducible rfl) | exact Or.inl (mem_of_sub hs rfl) | exact Or.inl (sub_of rfl hs) | exact Or.inr rfl | exact Or.inr ⟨rfl, rfl⟩ | exact Or.inr ⟨rfl, rfl, rfl⟩))


theorem State.cmdClrDiverged_only (h : Only ps a s) (hs : sub [.mte] ps = true) : Only ps a (State.cmdClrDiverged s) := by
  unfold State.cmdClrDiverged
  try dsimp only
  repeat' first
    | with_reducible assumption
    | ((with_reducible refine State.modMte_only ?_ _ ?_ ?_); rotate_left; (first | exact Or.inl (mem_of_sub hs rfl) | exact Or.inr (fun _ => rfl)); (first | exact Or.inl (mem_of_sub hs rfl) | exact Or.inr (fun _ => rfl) | exact Or.inr (fun _ => ⟨rfl, rfl⟩) | exact Or.inr (fun _ => ⟨rfl, rfl, rfl⟩)))
    | split
    | (with_reducible refine Only.foldl _ (fun _ _ _ => ?_) _ _ ?_)
    | ((with_reducible apply upd_only); rotate_left; iterate 39 (first | exact Or.inr (by with_reducible rfl) | exact Or.inl (mem_of_sub hs rfl) | exact Or.inl (sub_of rfl hs) | exact Or.inr rfl | exact Or.inr ⟨rfl, rfl⟩ | exact Or.inr ⟨rfl, rfl, rfl⟩))


theorem execMateClrDiverged_only (h : Only ps a s) (hs : sub [.out, .irq, .host, .pads, .counts, .evrQueue, .role, .mte] ps = true) : OnlyR ps a (execMateClrDiverged s) := by
  unfold execMateClrDiverged
  try dsimp only
  repeat' first
    | with_reducible assumption
    | with_reducible refine idle_only ?_  (sub_of rfl hs)
    | with_reducible refine mateEnd_only ?_  (sub_of rfl hs)
    | with_reducible refine State.cmdClrDiverged_only ?_  (sub_of rfl hs)
    | with_reducible refine finish_only ?_ (sub_of rfl hs)
    | with_reducible refine idle_only ?_
    | split
    | (with_reducible refine Only.foldl _ (fun _ _ _ => ?_) _ _ ?_)
    | ((with_reducible apply upd_only); rotate_left; iterate 39 (first | exact Or.inr (by with_reducible rfl) | exact Or.inl (mem_of_sub hs rfl) | exact Or.inl (sub_of rfl hs) | exact Or.inr rfl | exact Or.inr ⟨rfl, rfl⟩ | exact Or.inr ⟨rfl, rfl, rfl⟩))


theorem State.cmdSelftest_only (h : Only ps a s) (hs : sub [.mte] ps = true) : Only ps a (State.cmdSelftest s) := by
  unfold State.cmdSelftest
  try dsimp only
  repeat' first
    | with_reducible assumption
    | ((with_reducible refine State.modMte_only ?_ _ ?_ ?_); rotate_left; (first | exact Or.inl (mem_of_sub hs rfl) | exact Or.inr (fun _ => rfl)); (first | exact Or.inl (mem_of_sub hs rfl) | exact Or.inr (fun _ => rfl) | exact Or.inr (fun _ => ⟨rfl, rfl⟩) | exact Or.inr (fun _ => ⟨rfl, rfl, rfl⟩)))
    | split
    | (with_reducible refine Only.foldl _ (fun _ _ _ => ?_) _ _ ?_)
    | ((with_reducible apply upd_only); rotate_left; iterate 39 (first | exact Or.inr (by with_reducible rfl) | exact Or.inl (mem_of_sub hs rfl) | exact Or.inl (sub_of rfl hs) | exact Or.inr rfl | exact Or.inr ⟨rfl, rfl⟩ | exact Or.inr ⟨rfl, rfl, rfl⟩))


theorem execMateSelftest_only (h : Only ps a s) (hs : sub [.out, .irq, .host, .pads, .counts, .evrQueue, .role, .mte] ps = true) : OnlyR ps a (execMateSelftest s) := by
  unfold execMateSelftest
  try dsimp only
  repeat' first
    | with_reducible assumption
    | with_reducible refine idle_only ?_  (sub_of rfl hs)
    | with_reducible refine mateEnd_only ?_  (sub_of rfl hs)
    | with_reducible refine State.cmdSelftest_only ?_  (sub_of rfl hs)
    | with_reducible refine finish_only ?_ (sub_of rfl hs)
    | with_reducible refine idle_only ?_
    | split
    | (with_reducible refine Only.foldl _ (fun _ _ _ => ?_) _ _ ?_)
    | ((with_reducible apply upd_only); rotate_left; iterate 39 (first | exact Or.inr (by with_reducible rfl) | exact Or.inl (mem_of_sub hs rfl) | exact Or.inl (sub_of rfl hs) | exact Or.inr rfl | exact Or.inr ⟨rfl, rfl⟩ | exact Or.inr ⟨rfl, rfl, rfl⟩))


theorem State.testFails_only (h : Only ps a s) (hs : sub [.out, .status, .host, .pads, .counts, .evrQueue, .role, .mte] ps = true) : Only ps a (State.testFails s) := by
  unfold State.testFails
  try dsimp only
  repeat' first
    | with_reducible assumption
    | ((with_reducible refine State.modMte_only ?_ _ ?_ ?_); rotate_left; (first | exact Or.inl (mem_of_sub hs rfl) | exact Or.inr (fun _ => rfl)); (first | exact Or.inl (mem_of_sub hs rfl) | exact Or.inr (fun _ => rfl) | exact Or.inr (fun _ => ⟨rfl, rfl⟩) | exact Or.inr (fun _ => ⟨rfl, rfl, rfl⟩)))
    | with_reducible refine State.mateFinding_only ?_ _ (sub_of rfl hs)
    | split
    | (with_reducible refine Only.foldl _ (fun _ _ _ => ?_) _ _ ?_)
    | ((with_reducible apply upd_only); rotate_left; iterate 39 (first | exact Or.inr (by with_reducible rfl) | exact Or.inl (mem_of_sub hs rfl) | exact Or.inl (sub_of rfl hs) | exact Or.inr rfl | exact Or.inr ⟨rfl, rfl⟩ | exact Or.inr ⟨rfl, rfl, rfl⟩))


theorem State.trySync_only (h : Only ps a s) (hs : sub [.host, .pads, .counts, .evrQueue, .role, .mte] ps = true) : Only ps a (State.trySync s) := by
  unfold State.trySync
  try dsimp only
  repeat' first
    | with_reducible assumption
    | with_reducible refine State.mateGo_only ?_ _ _ (sub_of rfl hs)
    | split
    | (with_reducible refine Only.foldl _ (fun _ _ _ => ?_) _ _ ?_)
    | ((with_reducible apply upd_only); rotate_left; iterate 39 (first | exact Or.inr (by with_reducible rfl) | exact Or.inl (mem_of_sub hs rfl) | exact Or.inl (sub_of rfl hs) | exact Or.inr rfl | exact Or.inr ⟨rfl, rfl⟩ | exact Or.inr ⟨rfl, rfl, rfl⟩))


theorem execSelftestPassDone_only (h : Only ps a s) (x0) (hs : sub [.out, .status, .irq, .host, .pads, .counts, .evrQueue, .role, .mte] ps = true) : OnlyR ps a (execSelftestPassDone x0 s) := by
  unfold execSelftestPassDone
  try dsimp only
  repeat' first
    | with_reducible assumption
    | with_reducible refine idle_only ?_  (sub_of rfl hs)
    | ((with_reducible refine State.modMte_only ?_ _ ?_ ?_); rotate_left; (first | exact Or.inl (mem_of_sub hs rfl) | exact Or.inr (fun _ => rfl)); (first | exact Or.inl (mem_of_sub hs rfl) | exact Or.inr (fun _ => rfl) | exact Or.inr (fun _ => ⟨rfl, rfl⟩) | exact Or.inr (fun _ => ⟨rfl, rfl, rfl⟩)))
    | with_reducible refine mateEnd_only ?_  (sub_of rfl hs)
    | with_reducible refine State.testFails_only ?_  (sub_of rfl hs)
    | with_reducible refine State.trySync_only ?_  (sub_of rfl hs)
    | with_reducible refine finish_only ?_ (sub_of rfl hs)
    | with_reducible refine idle_only ?_
    | split
    | (with_reducible refine Only.foldl _ (fun _ _ _ => ?_) _ _ ?_)
    | ((with_reducible apply upd_only); rotate_left; iterate 39 (first | exact Or.inr (by with_reducible rfl) | exact Or.inl (mem_of_sub hs rfl) | exact Or.inl (sub_of rfl hs) | exact Or.inr rfl | exact Or.inr ⟨rfl, rfl⟩ | exact Or.inr ⟨rfl, rfl, rfl⟩))


theorem execSelftestFailure_only (h : Only ps a s) (hs : sub [.out, .status, .irq, .host, .pads, .counts, .evrQueue, .role, .mte] ps = true) : OnlyR ps a (execSelftestFailure s) := by
  unfold execSelftestFailure
  try dsimp only
  repeat' first
    | with_reducible assumption
    | with_reducible refine idle_only ?_  (sub_of rfl hs)
    | with_reducible refine mateEnd_only ?_  (sub_of rfl hs)
    | with_reducible refine State.testFails_only ?_  (sub_of rfl hs)
    | with_reducible refine finish_only ?_ (sub_of rfl hs)
    | with_reducible refine idle_only ?_
    | split
    | (with_reducible refine Only.foldl _ (fun _ _ _ => ?_) _ _ ?_)
    | ((with_reducible apply upd_only); rotate_left; iterate 39 (first | exact Or.inr (by with_reducible rfl) | exact Or.inl (mem_of_sub hs rfl) | exact Or.inl (sub_of rfl hs) | exact Or.inr rfl | exact Or.inr ⟨rfl, rfl⟩ | exact Or.inr ⟨rfl, rfl, rfl⟩))


theorem execHeartbeatSend_only (h : Only ps a s) (hs : sub [.out, .irq, .counts, .evrQueue, .mte] ps = true) : OnlyR ps a (execHeartbeatSend s) := by
  unfold execHeartbeatSend
  try dsimp only
  repeat' first
    | with_reducible assumption
    | with_reducible refine finish_only ?_  (sub_of rfl hs)
    | with_reducible refine State.emit_only ?_ _ (sub_of rfl hs)
    | with_reducible refine idle_only ?_  (sub_of rfl hs)
    | ((with_reducible refine State.modMte_only ?_ _ ?_ ?_); rotate_left; (first | exact Or.inl (mem_of_sub hs rfl) | exact Or.inr (fun _ => rfl)); (first | exact Or.inl (mem_of_sub hs rfl) | exact Or.inr (fun _ => rfl) | exact Or.inr (fun _ => ⟨rfl, rfl⟩) | exact Or.inr (fun _ => ⟨rfl, rfl, rfl⟩)))
    | with_reducible refine finish_only ?_ (sub_of rfl hs)
    | with_reducible refine idle_only ?_
    | split
    | (with_reducible refine Only.foldl _ (fun _ _ _ => ?_) _ _ ?_)
    | ((with_reducible apply upd_only); rotate_left; iterate 39 (first | exact Or.inr (by with_reducible rfl) | exact Or.inl (mem_of_sub hs rfl) | exact Or.inl (sub_of rfl hs) | exact Or.inr rfl | exact Or.inr ⟨rfl, rfl⟩ | exact Or.inr ⟨rfl, rfl, rfl⟩))


theorem execPeerSilent_only (h : Only ps a s) (hs : sub [.out, .irq, .host, .pads, .counts, .evrQueue, .role, .mte] ps = true) : OnlyR ps a (execPeerSilent s) := by
  unfold execPeerSilent
  try dsimp only
  repeat' first
    | with_reducible assumption
    | with_reducible refine idle_only ?_  (sub_of rfl hs)
    | ((with_reducible refine State.modMte_only ?_ _ ?_ ?_); rotate_left; (first | exact Or.inl (mem_of_sub hs rfl) | exact Or.inr (fun _ => rfl)); (first | exact Or.inl (mem_of_sub hs rfl) | exact Or.inr (fun _ => rfl) | exact Or.inr (fun _ => ⟨rfl, rfl⟩) | exact Or.inr (fun _ => ⟨rfl, rfl, rfl⟩)))
    | with_reducible refine mateEnd_only ?_  (sub_of rfl hs)
    | with_reducible refine finish_only ?_ (sub_of rfl hs)
    | with_reducible refine idle_only ?_
    | split
    | (with_reducible refine Only.foldl _ (fun _ _ _ => ?_) _ _ ?_)
    | ((with_reducible apply upd_only); rotate_left; iterate 39 (first | exact Or.inr (by with_reducible rfl) | exact Or.inl (mem_of_sub hs rfl) | exact Or.inl (sub_of rfl hs) | exact Or.inr rfl | exact Or.inr ⟨rfl, rfl⟩ | exact Or.inr ⟨rfl, rfl, rfl⟩))


theorem execFreshExpire_only (h : Only ps a s) (hs : sub [.out, .irq, .host, .pads, .counts, .evrQueue, .role, .mte] ps = true) : OnlyR ps a (execFreshExpire s) := by
  unfold execFreshExpire
  try dsimp only
  repeat' first
    | with_reducible assumption
    | with_reducible refine idle_only ?_  (sub_of rfl hs)
    | ((with_reducible refine State.modMte_only ?_ _ ?_ ?_); rotate_left; (first | exact Or.inl (mem_of_sub hs rfl) | exact Or.inr (fun _ => rfl)); (first | exact Or.inl (mem_of_sub hs rfl) | exact Or.inr (fun _ => rfl) | exact Or.inr (fun _ => ⟨rfl, rfl⟩) | exact Or.inr (fun _ => ⟨rfl, rfl, rfl⟩)))
    | with_reducible refine mateEnd_only ?_  (sub_of rfl hs)
    | with_reducible refine finish_only ?_ (sub_of rfl hs)
    | with_reducible refine idle_only ?_
    | split
    | (with_reducible refine Only.foldl _ (fun _ _ _ => ?_) _ _ ?_)
    | ((with_reducible apply upd_only); rotate_left; iterate 39 (first | exact Or.inr (by with_reducible rfl) | exact Or.inl (mem_of_sub hs rfl) | exact Or.inl (sub_of rfl hs) | exact Or.inr rfl | exact Or.inr ⟨rfl, rfl⟩ | exact Or.inr ⟨rfl, rfl, rfl⟩))


theorem execHealthSend_only (h : Only ps a s) (hs : sub [.out, .irq, .host, .pads, .counts, .evrQueue, .role, .mte] ps = true) : OnlyR ps a (execHealthSend s) := by
  unfold execHealthSend
  try dsimp only
  repeat' first
    | with_reducible assumption
    | with_reducible refine idle_only ?_  (sub_of rfl hs)
    | with_reducible refine State.feltSend_only ?_ _ _ (sub_of rfl hs)
    | with_reducible refine mateEnd_only ?_  (sub_of rfl hs)
    | with_reducible refine finish_only ?_ (sub_of rfl hs)
    | with_reducible refine idle_only ?_
    | split
    | (with_reducible refine Only.foldl _ (fun _ _ _ => ?_) _ _ ?_)
    | ((with_reducible apply upd_only); rotate_left; iterate 39 (first | exact Or.inr (by with_reducible rfl) | exact Or.inl (mem_of_sub hs rfl) | exact Or.inl (sub_of rfl hs) | exact Or.inr rfl | exact Or.inr ⟨rfl, rfl⟩ | exact Or.inr ⟨rfl, rfl, rfl⟩))


theorem execTimeFrameSend_only (h : Only ps a s) (hs : sub [.out, .irq, .host, .pads, .counts, .evrQueue, .role, .mte] ps = true) : OnlyR ps a (execTimeFrameSend s) := by
  unfold execTimeFrameSend
  try dsimp only
  repeat' first
    | with_reducible assumption
    | with_reducible refine idle_only ?_  (sub_of rfl hs)
    | with_reducible refine State.feltSend_only ?_ _ _ (sub_of rfl hs)
    | with_reducible refine mateEnd_only ?_  (sub_of rfl hs)
    | with_reducible refine finish_only ?_ (sub_of rfl hs)
    | with_reducible refine idle_only ?_
    | split
    | (with_reducible refine Only.foldl _ (fun _ _ _ => ?_) _ _ ?_)
    | ((with_reducible apply upd_only); rotate_left; iterate 39 (first | exact Or.inr (by with_reducible rfl) | exact Or.inl (mem_of_sub hs rfl) | exact Or.inl (sub_of rfl hs) | exact Or.inr rfl | exact Or.inr ⟨rfl, rfl⟩ | exact Or.inr ⟨rfl, rfl, rfl⟩))


theorem execOneSidedDefect_only (h : Only ps a s) (x0 x1) (hs : sub [.out, .irq, .host, .pads, .counts, .evrQueue, .role, .mte] ps = true) : OnlyR ps a (execOneSidedDefect x0 x1 s) := by
  unfold execOneSidedDefect
  try dsimp only
  repeat' first
    | with_reducible assumption
    | ((with_reducible refine State.modMte_only ?_ _ ?_ ?_); rotate_left; (first | exact Or.inl (mem_of_sub hs rfl) | exact Or.inr (fun _ => rfl)); (first | exact Or.inl (mem_of_sub hs rfl) | exact Or.inr (fun _ => rfl) | exact Or.inr (fun _ => ⟨rfl, rfl⟩) | exact Or.inr (fun _ => ⟨rfl, rfl, rfl⟩)))
    | with_reducible refine idle_only ?_  (sub_of rfl hs)
    | with_reducible refine State.feltSend_only ?_ _ _ (sub_of rfl hs)
    | with_reducible refine mateEnd_only ?_  (sub_of rfl hs)
    | with_reducible refine finish_only ?_ (sub_of rfl hs)
    | with_reducible refine idle_only ?_
    | split
    | (with_reducible refine Only.foldl _ (fun _ _ _ => ?_) _ _ ?_)
    | ((with_reducible apply upd_only); rotate_left; iterate 39 (first | exact Or.inr (by with_reducible rfl) | exact Or.inl (mem_of_sub hs rfl) | exact Or.inl (sub_of rfl hs) | exact Or.inr rfl | exact Or.inr ⟨rfl, rfl⟩ | exact Or.inr ⟨rfl, rfl, rfl⟩))


theorem execReclaimTimerExpire_only (h : Only ps a s) (hs : sub [.out, .irq, .host, .pads, .counts, .evrQueue, .role, .mte] ps = true) : OnlyR ps a (execReclaimTimerExpire s) := by
  unfold execReclaimTimerExpire
  try dsimp only
  repeat' first
    | with_reducible assumption
    | with_reducible refine idle_only ?_  (sub_of rfl hs)
    | with_reducible refine State.mateGo_only ?_ _ _ (sub_of rfl hs)
    | with_reducible refine mateEnd_only ?_  (sub_of rfl hs)
    | with_reducible refine finish_only ?_ (sub_of rfl hs)
    | with_reducible refine idle_only ?_
    | split
    | (with_reducible refine Only.foldl _ (fun _ _ _ => ?_) _ _ ?_)
    | ((with_reducible apply upd_only); rotate_left; iterate 39 (first | exact Or.inr (by with_reducible rfl) | exact Or.inl (mem_of_sub hs rfl) | exact Or.inl (sub_of rfl hs) | exact Or.inr rfl | exact Or.inr ⟨rfl, rfl⟩ | exact Or.inr ⟨rfl, rfl, rfl⟩))


theorem execFeltHello_only (h : Only ps a s) (hs : sub [.out, .status, .irq, .host, .pads, .counts, .evrQueue, .felt, .role, .mte] ps = true) : OnlyR ps a (execFeltHello s) := by
  unfold execFeltHello
  try dsimp only
  repeat' first
    | with_reducible assumption
    | ((with_reducible refine State.modMte_only ?_ _ ?_ ?_); rotate_left; (first | exact Or.inl (mem_of_sub hs rfl) | exact Or.inr (fun _ => rfl)); (first | exact Or.inl (mem_of_sub hs rfl) | exact Or.inr (fun _ => rfl) | exact Or.inr (fun _ => ⟨rfl, rfl⟩) | exact Or.inr (fun _ => ⟨rfl, rfl, rfl⟩)))
    | with_reducible refine idle_only ?_  (sub_of rfl hs)
    | with_reducible refine State.feltSend_only ?_ _ _ (sub_of rfl hs)
    | with_reducible refine State.feltHead_only ?_ _ (sub_of rfl hs)
    | with_reducible refine State.feltHead_only_of (by assumption) ?_ (sub_of rfl hs)
    | with_reducible refine State.pairFail_only ?_ _ (sub_of rfl hs)
    | with_reducible refine mateEnd_only ?_  (sub_of rfl hs)
    | with_reducible refine State.sendSnaps_only ?_  (sub_of rfl hs)
    | with_reducible refine finish_only ?_ (sub_of rfl hs)
    | with_reducible refine idle_only ?_
    | split
    | (with_reducible refine Only.foldl _ (fun _ _ _ => ?_) _ _ ?_)
    | ((with_reducible apply upd_only); rotate_left; iterate 39 (first | exact Or.inr (by with_reducible rfl) | exact Or.inl (mem_of_sub hs rfl) | exact Or.inl (sub_of rfl hs) | exact Or.inr rfl | exact Or.inr ⟨rfl, rfl⟩ | exact Or.inr ⟨rfl, rfl, rfl⟩))


theorem execFeltConfirm_only (h : Only ps a s) (hs : sub [.out, .status, .irq, .host, .pads, .counts, .evrQueue, .felt, .role, .mte] ps = true) : OnlyR ps a (execFeltConfirm s) := by
  unfold execFeltConfirm
  try dsimp only
  repeat' first
    | with_reducible assumption
    | ((with_reducible refine State.modMte_only ?_ _ ?_ ?_); rotate_left; (first | exact Or.inl (mem_of_sub hs rfl) | exact Or.inr (fun _ => rfl)); (first | exact Or.inl (mem_of_sub hs rfl) | exact Or.inr (fun _ => rfl) | exact Or.inr (fun _ => ⟨rfl, rfl⟩) | exact Or.inr (fun _ => ⟨rfl, rfl, rfl⟩)))
    | with_reducible refine idle_only ?_  (sub_of rfl hs)
    | with_reducible refine State.mateGo_only ?_ _ _ (sub_of rfl hs)
    | with_reducible refine State.becomeActive_only ?_  (sub_of rfl hs)
    | with_reducible refine State.adoptEpoch_only ?_ _ (sub_of rfl hs)
    | with_reducible refine State.feltHead_only ?_ _ (sub_of rfl hs)
    | with_reducible refine State.feltHead_only_of (by assumption) ?_ (sub_of rfl hs)
    | with_reducible refine State.pairFail_only ?_ _ (sub_of rfl hs)
    | with_reducible refine mateEnd_only ?_  (sub_of rfl hs)
    | with_reducible refine State.sendSnaps_only ?_  (sub_of rfl hs)
    | with_reducible refine finish_only ?_ (sub_of rfl hs)
    | with_reducible refine idle_only ?_
    | split
    | (with_reducible refine Only.foldl _ (fun _ _ _ => ?_) _ _ ?_)
    | ((with_reducible apply upd_only); rotate_left; iterate 39 (first | exact Or.inr (by with_reducible rfl) | exact Or.inl (mem_of_sub hs rfl) | exact Or.inl (sub_of rfl hs) | exact Or.inr rfl | exact Or.inr ⟨rfl, rfl⟩ | exact Or.inr ⟨rfl, rfl, rfl⟩))


theorem State.resyncCopy_only (h : Only ps a s) (hs : sub [.out, .host, .pads, .counts, .evrQueue, .tim, .rng, .line, .dkl, .lci, .sac, .vat, .sch, .ports, .trib, .tribOld, .sc, .sa, .cur, .role, .mte] ps = true) : Only ps a (State.resyncCopy s) := by
  unfold State.resyncCopy
  try dsimp only
  repeat' first
    | with_reducible assumption
    | with_reducible refine State.mateGo_only ?_ _ _ (sub_of rfl hs)
    | with_reducible refine State.helloAgain_only ?_  (sub_of rfl hs)
    | with_reducible refine State.discardCopy_only ?_  (sub_of rfl hs)
    | split
    | (with_reducible refine Only.foldl _ (fun _ _ _ => ?_) _ _ ?_)
    | ((with_reducible apply upd_only); rotate_left; iterate 39 (first | exact Or.inr (by with_reducible rfl) | exact Or.inl (mem_of_sub hs rfl) | exact Or.inl (sub_of rfl hs) | exact Or.inr rfl | exact Or.inr ⟨rfl, rfl⟩ | exact Or.inr ⟨rfl, rfl, rfl⟩))


theorem execFeltDelta_only (h : Only ps a s) (hs : sub [.out, .status, .irq, .host, .pads, .counts, .evrQueue, .timeBases, .tim, .rng, .mem, .line, .dkl, .lci, .sac, .vat, .sch, .ports, .trib, .tribOld, .sc, .sa, .cur, .lanes, .felt, .role, .mte] ps = true) : OnlyR ps a (execFeltDelta s) := by
  unfold execFeltDelta
  try dsimp only
  repeat' first
    | with_reducible assumption
    | with_reducible refine idle_only ?_  (sub_of rfl hs)
    | with_reducible refine State.feltSend_only ?_ _ _ (sub_of rfl hs)
    | with_reducible refine State.takeDelta_only ?_ _ _ (sub_of rfl hs)
    | with_reducible refine mateEnd_only ?_  (sub_of rfl hs)
    | with_reducible refine State.adoptEpoch_only ?_ _ (sub_of rfl hs)
    | with_reducible refine State.feltHead_only ?_ _ (sub_of rfl hs)
    | with_reducible refine State.feltHead_only_of (by assumption) ?_ (sub_of rfl hs)
    | with_reducible refine State.resyncCopy_only ?_  (sub_of rfl hs)
    | with_reducible refine finish_only ?_ (sub_of rfl hs)
    | with_reducible refine idle_only ?_
    | split
    | (with_reducible refine Only.foldl _ (fun _ _ _ => ?_) _ _ ?_)
    | ((with_reducible apply upd_only); rotate_left; iterate 39 (first | exact Or.inr (by with_reducible rfl) | exact Or.inl (mem_of_sub hs rfl) | exact Or.inl (sub_of rfl hs) | exact Or.inr rfl | exact Or.inr ⟨rfl, rfl⟩ | exact Or.inr ⟨rfl, rfl, rfl⟩))


theorem execFeltSnap_only (h : Only ps a s) (hs : sub [.out, .status, .irq, .host, .pads, .counts, .evrQueue, .timeBases, .tim, .mem, .line, .dkl, .lci, .sac, .vat, .sch, .ports, .trib, .tribOld, .sc, .sa, .cur, .lanes, .felt, .role, .mte] ps = true) : OnlyR ps a (execFeltSnap s) := by
  unfold execFeltSnap
  try dsimp only
  repeat' first
    | with_reducible assumption
    | ((with_reducible refine State.modMte_only ?_ _ ?_ ?_); rotate_left; (first | exact Or.inl (mem_of_sub hs rfl) | exact Or.inr (fun _ => rfl)); (first | exact Or.inl (mem_of_sub hs rfl) | exact Or.inr (fun _ => rfl) | exact Or.inr (fun _ => ⟨rfl, rfl⟩) | exact Or.inr (fun _ => ⟨rfl, rfl, rfl⟩)))
    | with_reducible refine idle_only ?_  (sub_of rfl hs)
    | with_reducible refine State.mateGo_only ?_ _ _ (sub_of rfl hs)
    | with_reducible refine State.feltHead_only ?_ _ (sub_of rfl hs)
    | with_reducible refine State.feltHead_only_of (by assumption) ?_ (sub_of rfl hs)
    | with_reducible refine State.applyDelta_only ?_ _ (sub_of rfl hs)
    | with_reducible refine mateEnd_only ?_  (sub_of rfl hs)
    | with_reducible refine State.discardCopy_only ?_  (sub_of rfl hs)
    | with_reducible refine finish_only ?_ (sub_of rfl hs)
    | with_reducible refine idle_only ?_
    | split
    | (with_reducible refine Only.foldl _ (fun _ _ _ => ?_) _ _ ?_)
    | ((with_reducible apply upd_only); rotate_left; iterate 39 (first | exact Or.inr (by with_reducible rfl) | exact Or.inl (mem_of_sub hs rfl) | exact Or.inl (sub_of rfl hs) | exact Or.inr rfl | exact Or.inr ⟨rfl, rfl⟩ | exact Or.inr ⟨rfl, rfl, rfl⟩))


theorem execFeltSnapEnd_only (h : Only ps a s) (hs : sub [.out, .irq, .host, .pads, .counts, .evrQueue, .tim, .rng, .line, .dkl, .lci, .sac, .vat, .sch, .ports, .trib, .tribOld, .sc, .sa, .cur, .felt, .role, .mte] ps = true) : OnlyR ps a (execFeltSnapEnd s) := by
  unfold execFeltSnapEnd
  try dsimp only
  repeat' first
    | with_reducible assumption
    | with_reducible refine idle_only ?_  (sub_of rfl hs)
    | ((with_reducible refine State.modMte_only ?_ _ ?_ ?_); rotate_left; (first | exact Or.inl (mem_of_sub hs rfl) | exact Or.inr (fun _ => rfl)); (first | exact Or.inl (mem_of_sub hs rfl) | exact Or.inr (fun _ => rfl) | exact Or.inr (fun _ => ⟨rfl, rfl⟩) | exact Or.inr (fun _ => ⟨rfl, rfl, rfl⟩)))
    | with_reducible refine mateEnd_only ?_  (sub_of rfl hs)
    | with_reducible refine State.feltHead_only ?_ _ (sub_of rfl hs)
    | with_reducible refine State.feltHead_only_of (by assumption) ?_ (sub_of rfl hs)
    | with_reducible refine State.resyncCopy_only ?_  (sub_of rfl hs)
    | with_reducible refine State.trySync_only ?_  (sub_of rfl hs)
    | with_reducible refine finish_only ?_ (sub_of rfl hs)
    | with_reducible refine idle_only ?_
    | split
    | (with_reducible refine Only.foldl _ (fun _ _ _ => ?_) _ _ ?_)
    | ((with_reducible apply upd_only); rotate_left; iterate 39 (first | exact Or.inr (by with_reducible rfl) | exact Or.inl (mem_of_sub hs rfl) | exact Or.inl (sub_of rfl hs) | exact Or.inr rfl | exact Or.inr ⟨rfl, rfl⟩ | exact Or.inr ⟨rfl, rfl, rfl⟩))


theorem execFeltDack_only (h : Only ps a s) (hs : sub [.out, .irq, .host, .pads, .counts, .evrQueue, .felt, .role, .mte] ps = true) : OnlyR ps a (execFeltDack s) := by
  unfold execFeltDack
  try dsimp only
  repeat' first
    | with_reducible assumption
    | with_reducible refine idle_only ?_  (sub_of rfl hs)
    | ((with_reducible refine State.modMte_only ?_ _ ?_ ?_); rotate_left; (first | exact Or.inl (mem_of_sub hs rfl) | exact Or.inr (fun _ => rfl)); (first | exact Or.inl (mem_of_sub hs rfl) | exact Or.inr (fun _ => rfl) | exact Or.inr (fun _ => ⟨rfl, rfl⟩) | exact Or.inr (fun _ => ⟨rfl, rfl, rfl⟩)))
    | with_reducible refine mateEnd_only ?_  (sub_of rfl hs)
    | with_reducible refine State.feltHead_only ?_ _ (sub_of rfl hs)
    | with_reducible refine State.feltHead_only_of (by assumption) ?_ (sub_of rfl hs)
    | with_reducible refine finish_only ?_ (sub_of rfl hs)
    | with_reducible refine idle_only ?_
    | split
    | (with_reducible refine Only.foldl _ (fun _ _ _ => ?_) _ _ ?_)
    | ((with_reducible apply upd_only); rotate_left; iterate 39 (first | exact Or.inr (by with_reducible rfl) | exact Or.inl (mem_of_sub hs rfl) | exact Or.inl (sub_of rfl hs) | exact Or.inr rfl | exact Or.inr ⟨rfl, rfl⟩ | exact Or.inr ⟨rfl, rfl, rfl⟩))


theorem execFeltDigest_only (h : Only ps a s) (hs : sub [.out, .status, .irq, .host, .pads, .counts, .evrQueue, .timeBases, .tim, .mem, .line, .dkl, .lci, .sac, .sch, .ports, .trib, .tribOld, .sc, .sa, .cur, .lanes, .felt, .role, .mte] ps = true) : OnlyR ps a (execFeltDigest s) := by
  unfold execFeltDigest
  try dsimp only
  repeat' first
    | with_reducible assumption
    | with_reducible refine idle_only ?_  (sub_of rfl hs)
    | with_reducible refine mateEnd_only ?_  (sub_of rfl hs)
    | with_reducible refine State.feltHead_only ?_ _ (sub_of rfl hs)
    | with_reducible refine State.feltHead_only_of (by assumption) ?_ (sub_of rfl hs)
    | with_reducible refine State.takeDigests_only ?_ _ (sub_of rfl hs)
    | with_reducible refine finish_only ?_ (sub_of rfl hs)
    | with_reducible refine idle_only ?_
    | split
    | (with_reducible refine Only.foldl _ (fun _ _ _ => ?_) _ _ ?_)
    | ((with_reducible apply upd_only); rotate_left; iterate 39 (first | exact Or.inr (by with_reducible rfl) | exact Or.inl (mem_of_sub hs rfl) | exact Or.inl (sub_of rfl hs) | exact Or.inr rfl | exact Or.inr ⟨rfl, rfl⟩ | exact Or.inr ⟨rfl, rfl, rfl⟩))


theorem execFeltCkpt_only (h : Only ps a s) (hs : sub [.out, .irq, .host, .pads, .counts, .evrQueue, .mem, .sac, .felt, .role, .mte] ps = true) : OnlyR ps a (execFeltCkpt s) := by
  unfold execFeltCkpt
  try dsimp only
  repeat' first
    | with_reducible assumption
    | with_reducible refine idle_only ?_  (sub_of rfl hs)
    | with_reducible refine mateEnd_only ?_  (sub_of rfl hs)
    | with_reducible refine State.feltHead_only ?_ _ (sub_of rfl hs)
    | with_reducible refine State.feltHead_only_of (by assumption) ?_ (sub_of rfl hs)
    | with_reducible refine State.takeCkpts_only ?_ _ (sub_of rfl hs)
    | with_reducible refine finish_only ?_ (sub_of rfl hs)
    | with_reducible refine idle_only ?_
    | split
    | (with_reducible refine Only.foldl _ (fun _ _ _ => ?_) _ _ ?_)
    | ((with_reducible apply upd_only); rotate_left; iterate 39 (first | exact Or.inr (by with_reducible rfl) | exact Or.inl (mem_of_sub hs rfl) | exact Or.inl (sub_of rfl hs) | exact Or.inr rfl | exact Or.inr ⟨rfl, rfl⟩ | exact Or.inr ⟨rfl, rfl, rfl⟩))


theorem State.mateDiverged_only (h : Only ps a s) (hs : sub [.status, .mte] ps = true) : Only ps a (State.mateDiverged s) := by
  unfold State.mateDiverged
  try dsimp only
  repeat' first
    | with_reducible assumption
    | with_reducible refine State.setBit_only ?_ _ _ _ (Or.inr (by first | rfl | (simp; done) | decide)) (Or.inl (mem_of_sub hs rfl))
    | ((with_reducible refine State.modMte_only ?_ _ ?_ ?_); rotate_left; (first | exact Or.inl (mem_of_sub hs rfl) | exact Or.inr (fun _ => rfl)); (first | exact Or.inl (mem_of_sub hs rfl) | exact Or.inr (fun _ => rfl) | exact Or.inr (fun _ => ⟨rfl, rfl⟩) | exact Or.inr (fun _ => ⟨rfl, rfl, rfl⟩)))
    | split
    | (with_reducible refine Only.foldl _ (fun _ _ _ => ?_) _ _ ?_)
    | ((with_reducible apply upd_only); rotate_left; iterate 39 (first | exact Or.inr (by with_reducible rfl) | exact Or.inl (mem_of_sub hs rfl) | exact Or.inl (sub_of rfl hs) | exact Or.inr rfl | exact Or.inr ⟨rfl, rfl⟩ | exact Or.inr ⟨rfl, rfl, rfl⟩))


theorem execFeltHealth_only (h : Only ps a s) (hs : sub [.out, .status, .irq, .host, .pads, .counts, .evrQueue, .felt, .role, .mte] ps = true) : OnlyR ps a (execFeltHealth s) := by
  unfold execFeltHealth
  try dsimp only
  repeat' first
    | with_reducible assumption
    | with_reducible refine idle_only ?_  (sub_of rfl hs)
    | ((with_reducible refine State.modMte_only ?_ _ ?_ ?_); rotate_left; (first | exact Or.inl (mem_of_sub hs rfl) | exact Or.inr (fun _ => rfl)); (first | exact Or.inl (mem_of_sub hs rfl) | exact Or.inr (fun _ => rfl) | exact Or.inr (fun _ => ⟨rfl, rfl⟩) | exact Or.inr (fun _ => ⟨rfl, rfl, rfl⟩)))
    | with_reducible refine mateEnd_only ?_  (sub_of rfl hs)
    | with_reducible refine State.mateRetry_only ?_  (sub_of rfl hs)
    | with_reducible refine State.feltHead_only ?_ _ (sub_of rfl hs)
    | with_reducible refine State.feltHead_only_of (by assumption) ?_ (sub_of rfl hs)
    | with_reducible refine State.mateDiverged_only ?_  (sub_of rfl hs)
    | with_reducible refine finish_only ?_ (sub_of rfl hs)
    | with_reducible refine idle_only ?_
    | split
    | (with_reducible refine Only.foldl _ (fun _ _ _ => ?_) _ _ ?_)
    | ((with_reducible apply upd_only); rotate_left; iterate 39 (first | exact Or.inr (by with_reducible rfl) | exact Or.inl (mem_of_sub hs rfl) | exact Or.inl (sub_of rfl hs) | exact Or.inr rfl | exact Or.inr ⟨rfl, rfl⟩ | exact Or.inr ⟨rfl, rfl, rfl⟩))


theorem State.followTime_only (h : Only ps a s) (x1 x2) (hs : sub [.timeBases] ps = true) : Only ps a (State.followTime s x1 x2) := by
  unfold State.followTime
  try dsimp only
  repeat' first
    | with_reducible assumption
    | with_reducible refine State.modTb_only ?_ _ _ (sub_of rfl hs)
    | split
    | (with_reducible refine Only.foldl _ (fun _ _ _ => ?_) _ _ ?_)
    | ((with_reducible apply upd_only); rotate_left; iterate 39 (first | exact Or.inr (by with_reducible rfl) | exact Or.inl (mem_of_sub hs rfl) | exact Or.inl (sub_of rfl hs) | exact Or.inr rfl | exact Or.inr ⟨rfl, rfl⟩ | exact Or.inr ⟨rfl, rfl, rfl⟩))


theorem execFeltTime_only (h : Only ps a s) (hs : sub [.out, .irq, .host, .pads, .counts, .evrQueue, .timeBases, .felt, .role, .mte] ps = true) : OnlyR ps a (execFeltTime s) := by
  unfold execFeltTime
  try dsimp only
  repeat' first
    | with_reducible assumption
    | with_reducible refine idle_only ?_  (sub_of rfl hs)
    | with_reducible refine mateEnd_only ?_  (sub_of rfl hs)
    | with_reducible refine State.feltHead_only ?_ _ (sub_of rfl hs)
    | with_reducible refine State.feltHead_only_of (by assumption) ?_ (sub_of rfl hs)
    | with_reducible refine State.followTime_only ?_ _ _ (sub_of rfl hs)
    | with_reducible refine finish_only ?_ (sub_of rfl hs)
    | with_reducible refine idle_only ?_
    | split
    | (with_reducible refine Only.foldl _ (fun _ _ _ => ?_) _ _ ?_)
    | ((with_reducible apply upd_only); rotate_left; iterate 39 (first | exact Or.inr (by with_reducible rfl) | exact Or.inl (mem_of_sub hs rfl) | exact Or.inl (sub_of rfl hs) | exact Or.inr rfl | exact Or.inr ⟨rfl, rfl⟩ | exact Or.inr ⟨rfl, rfl, rfl⟩))


theorem execFeltReq_only (h : Only ps a s) (hs : sub [.out, .status, .irq, .host, .pads, .counts, .evrQueue, .felt, .role, .mte] ps = true) : OnlyR ps a (execFeltReq s) := by
  unfold execFeltReq
  try dsimp only
  repeat' first
    | with_reducible assumption
    | with_reducible refine idle_only ?_  (sub_of rfl hs)
    | with_reducible refine mateEnd_only ?_  (sub_of rfl hs)
    | with_reducible refine State.feltHead_only ?_ _ (sub_of rfl hs)
    | with_reducible refine State.feltHead_only_of (by assumption) ?_ (sub_of rfl hs)
    | with_reducible refine State.mateFinding_only ?_ _ (sub_of rfl hs)
    | with_reducible refine finish_only ?_ (sub_of rfl hs)
    | with_reducible refine idle_only ?_
    | split
    | (with_reducible refine Only.foldl _ (fun _ _ _ => ?_) _ _ ?_)
    | ((with_reducible apply upd_only); rotate_left; iterate 39 (first | exact Or.inr (by with_reducible rfl) | exact Or.inl (mem_of_sub hs rfl) | exact Or.inl (sub_of rfl hs) | exact Or.inr rfl | exact Or.inr ⟨rfl, rfl⟩ | exact Or.inr ⟨rfl, rfl, rfl⟩))


theorem execFeltRelease_only (h : Only ps a s) (hs : sub [.out, .irq, .host, .pads, .counts, .evrQueue, .felt, .role, .mte] ps = true) : OnlyR ps a (execFeltRelease s) := by
  unfold execFeltRelease
  try dsimp only
  repeat' first
    | with_reducible assumption
    | with_reducible refine idle_only ?_  (sub_of rfl hs)
    | with_reducible refine State.mateGo_only ?_ _ _ (sub_of rfl hs)
    | with_reducible refine mateEnd_only ?_  (sub_of rfl hs)
    | with_reducible refine State.adoptEpoch_only ?_ _ (sub_of rfl hs)
    | with_reducible refine State.feltHead_only ?_ _ (sub_of rfl hs)
    | with_reducible refine State.feltHead_only_of (by assumption) ?_ (sub_of rfl hs)
    | with_reducible refine finish_only ?_ (sub_of rfl hs)
    | with_reducible refine idle_only ?_
    | split
    | (with_reducible refine Only.foldl _ (fun _ _ _ => ?_) _ _ ?_)
    | ((with_reducible apply upd_only); rotate_left; iterate 39 (first | exact Or.inr (by with_reducible rfl) | exact Or.inl (mem_of_sub hs rfl) | exact Or.inl (sub_of rfl hs) | exact Or.inr rfl | exact Or.inr ⟨rfl, rfl⟩ | exact Or.inr ⟨rfl, rfl, rfl⟩))


theorem execFeltStale_only (h : Only ps a s) (hs : sub [.out, .irq, .host, .pads, .counts, .evrQueue, .felt, .role, .mte] ps = true) : OnlyR ps a (execFeltStale s) := by
  unfold execFeltStale
  try dsimp only
  repeat' first
    | with_reducible assumption
    | with_reducible refine idle_only ?_  (sub_of rfl hs)
    | with_reducible refine State.feltSend_only ?_ _ _ (sub_of rfl hs)
    | with_reducible refine mateEnd_only ?_  (sub_of rfl hs)
    | with_reducible refine State.feltHead_only ?_ _ (sub_of rfl hs)
    | with_reducible refine State.feltHead_only_of (by assumption) ?_ (sub_of rfl hs)
    | with_reducible refine State.sendSnaps_only ?_  (sub_of rfl hs)
    | with_reducible refine finish_only ?_ (sub_of rfl hs)
    | with_reducible refine idle_only ?_
    | split
    | (with_reducible refine Only.foldl _ (fun _ _ _ => ?_) _ _ ?_)
    | ((with_reducible apply upd_only); rotate_left; iterate 39 (first | exact Or.inr (by with_reducible rfl) | exact Or.inl (mem_of_sub hs rfl) | exact Or.inl (sub_of rfl hs) | exact Or.inr rfl | exact Or.inr ⟨rfl, rfl⟩ | exact Or.inr ⟨rfl, rfl, rfl⟩))


theorem State.feedMark_only (h : Only ps a s) (x1 x2) (hs : sub [.status, .mte] ps = true) : Only ps a (State.feedMark s x1 x2) := by
  unfold State.feedMark
  try dsimp only
  repeat' first
    | with_reducible assumption
    | with_reducible refine State.setBit_only ?_ _ _ _ (Or.inr (by first | rfl | (simp; done) | decide)) (Or.inl (mem_of_sub hs rfl))
    | ((with_reducible refine State.modMte_only ?_ _ ?_ ?_); rotate_left; (first | exact Or.inl (mem_of_sub hs rfl) | exact Or.inr (fun _ => rfl)); (first | exact Or.inl (mem_of_sub hs rfl) | exact Or.inr (fun _ => rfl) | exact Or.inr (fun _ => ⟨rfl, rfl⟩) | exact Or.inr (fun _ => ⟨rfl, rfl, rfl⟩)))
    | split
    | (with_reducible refine Only.foldl _ (fun _ _ _ => ?_) _ _ ?_)
    | ((with_reducible apply upd_only); rotate_left; iterate 39 (first | exact Or.inr (by with_reducible rfl) | exact Or.inl (mem_of_sub hs rfl) | exact Or.inl (sub_of rfl hs) | exact Or.inr rfl | exact Or.inr ⟨rfl, rfl⟩ | exact Or.inr ⟨rfl, rfl, rfl⟩))


theorem execVsecFeedLost_only (h : Only ps a s) (x0) (hs : sub [.out, .status, .irq, .host, .pads, .counts, .evrQueue, .role, .mte] ps = true) : OnlyR ps a (execVsecFeedLost x0 s) := by
  unfold execVsecFeedLost
  try dsimp only
  repeat' first
    | with_reducible assumption
    | with_reducible refine idle_only ?_  (sub_of rfl hs)
    | with_reducible refine mateEnd_only ?_  (sub_of rfl hs)
    | with_reducible refine State.feedMark_only ?_ _ _ (sub_of rfl hs)
    | with_reducible refine finish_only ?_ (sub_of rfl hs)
    | with_reducible refine idle_only ?_
    | split
    | (with_reducible refine Only.foldl _ (fun _ _ _ => ?_) _ _ ?_)
    | ((with_reducible apply upd_only); rotate_left; iterate 39 (first | exact Or.inr (by with_reducible rfl) | exact Or.inl (mem_of_sub hs rfl) | exact Or.inl (sub_of rfl hs) | exact Or.inr rfl | exact Or.inr ⟨rfl, rfl⟩ | exact Or.inr ⟨rfl, rfl, rfl⟩))


theorem execVsecFeedGood_only (h : Only ps a s) (x0) (hs : sub [.out, .status, .irq, .host, .pads, .counts, .evrQueue, .role, .mte] ps = true) : OnlyR ps a (execVsecFeedGood x0 s) := by
  unfold execVsecFeedGood
  try dsimp only
  repeat' first
    | with_reducible assumption
    | with_reducible refine idle_only ?_  (sub_of rfl hs)
    | with_reducible refine mateEnd_only ?_  (sub_of rfl hs)
    | with_reducible refine State.feedMark_only ?_ _ _ (sub_of rfl hs)
    | with_reducible refine finish_only ?_ (sub_of rfl hs)
    | with_reducible refine idle_only ?_
    | split
    | (with_reducible refine Only.foldl _ (fun _ _ _ => ?_) _ _ ?_)
    | ((with_reducible apply upd_only); rotate_left; iterate 39 (first | exact Or.inr (by with_reducible rfl) | exact Or.inl (mem_of_sub hs rfl) | exact Or.inl (sub_of rfl hs) | exact Or.inr rfl | exact Or.inr ⟨rfl, rfl⟩ | exact Or.inr ⟨rfl, rfl, rfl⟩))


end Sys2Proof.Machine
end

