-- ==== Sys2Proof/Laws/OnlyTamper.lean ====
section
/-! SUPPORT. What each operation of Machine/Tamper.lean may change. -/

set_option linter.unusedTactic false
set_option linter.unreachableTactic false
set_option linter.unusedVariables false
set_option linter.unusedSimpArgs false

namespace Sys2Proof.Machine

variable {ps : List Area} {a s : State}

theorem State.sessionErase_only (h : Only ps a s) (hs : sub [.out, .status, .counts, .evrQueue, .slots, .kst, .uci, .mem, .lci, .sac, .vat, .sch, .trib, .sc, .sa, .cur, .mte] ps = true) : Only ps a (State.sessionErase s) := by
  unfold State.sessionErase
  try dsimp only
  repeat' first
    | with_reducible assumption
    | with_reducible refine State.modUci_only ?_ _ (sub_of rfl hs)
    | with_reducible refine State.eraseSlots_only ?_ _ (sub_of rfl hs)
    | with_reducible refine State.settleInvals_only ?_  (sub_of rfl hs)
    | with_reducible refine State.lknEraseWhere_only ?_ _ _ _ (sub_of rfl hs)
    | with_reducible refine State.rgnEraseWhere_only ?_ _ _ (sub_of rfl hs)
    | with_reducible refine State.clearCatalogue_only ?_  (sub_of rfl hs)
    | split
    | (with_reducible refine Only.foldl _ (fun _ _ _ => ?_) _ _ ?_)
    | ((with_reducible apply upd_only); rotate_left; iterate 39 (first | exact Or.inr (by with_reducible rfl) | exact Or.inl (mem_of_sub hs rfl) | exact Or.inl (sub_of rfl hs) | exact Or.inr rfl | exact Or.inr ⟨rfl, rfl⟩ | exact Or.inr ⟨rfl, rfl, rfl⟩))


theorem State.zeroErase_only (h : Only ps a s) (hs : sub [.out, .status, .counts, .evrQueue, .slots, .kst, .uci, .mem, .lci, .sac, .vat, .sch, .trib, .sc, .sa, .cur, .mte] ps = true) : Only ps a (State.zeroErase s) := by
  unfold State.zeroErase
  try dsimp only
  repeat' first
    | with_reducible assumption
    | ((with_reducible refine State.modKst_only ?_ _ ?_ ?_); rotate_left; (first | exact Or.inl (mem_of_sub hs rfl) | exact Or.inr (fun _ => rfl)); (first | exact Or.inl (mem_of_sub hs rfl) | exact Or.inr (fun _ => rfl) | exact Or.inr (fun _ => ⟨rfl, rfl⟩) | exact Or.inr (fun _ => ⟨rfl, rfl, rfl⟩)))
    | with_reducible refine State.eraseSlots_only ?_ _ (sub_of rfl hs)
    | with_reducible refine State.settleInvals_only ?_  (sub_of rfl hs)
    | with_reducible refine State.sessionErase_only ?_  (sub_of rfl hs)
    | split
    | (with_reducible refine Only.foldl _ (fun _ _ _ => ?_) _ _ ?_)
    | ((with_reducible apply upd_only); rotate_left; iterate 39 (first | exact Or.inr (by with_reducible rfl) | exact Or.inl (mem_of_sub hs rfl) | exact Or.inl (sub_of rfl hs) | exact Or.inr rfl | exact Or.inr ⟨rfl, rfl⟩ | exact Or.inr ⟨rfl, rfl, rfl⟩))


theorem State.reload_only (h : Only ps a s) (x1 x2) (hs : sub [.out, .settings, .status, .host, .pads, .counts, .evrQueue, .rng, .tmp, .bkp, .role, .mte] ps = true) : Only ps a (State.reload s x1 x2) := by
  unfold State.reload
  try dsimp only
  repeat' first
    | with_reducible assumption
    | with_reducible refine State.setReg_only ?_ _ _ (Or.inr (by first | rfl | (simp; done) | decide)) (Or.inl (mem_of_sub hs rfl))
    | with_reducible refine State.setReg_only ?_ _ _ (Or.inl (mem_of_sub hs rfl)) (Or.inr (by first | rfl | (simp; done) | decide))
    | with_reducible refine State.setReg_only ?_ _ _ (Or.inl (mem_of_sub hs rfl)) (Or.inl (mem_of_sub hs rfl))
    | with_reducible refine State.modBkp_only ?_ _ (sub_of rfl hs)
    | with_reducible refine State.modTmp_only ?_ _ (sub_of rfl hs)
    | with_reducible refine State.rngTest_only ?_ _ (sub_of rfl hs)
    | with_reducible refine State.writeActReq_only ?_ _ (sub_of rfl hs)
    | split
    | (with_reducible refine Only.foldl _ (fun _ _ _ => ?_) _ _ ?_)
    | ((with_reducible apply upd_only); rotate_left; iterate 39 (first | exact Or.inr (by with_reducible rfl) | exact Or.inl (mem_of_sub hs rfl) | exact Or.inl (sub_of rfl hs) | exact Or.inr rfl | exact Or.inr ⟨rfl, rfl⟩ | exact Or.inr ⟨rfl, rfl, rfl⟩))


theorem State.reloadShadow_only (h : Only ps a s) (hs : sub [.out, .settings, .status, .shadow, .host, .pads, .counts, .evrQueue, .kst, .rng, .tmp, .bkp, .role, .mte] ps = true) : Only ps a (State.reloadShadow s) := by
  unfold State.reloadShadow
  try dsimp only
  repeat' first
    | with_reducible assumption
    | with_reducible refine State.reload_only ?_ _ _ (sub_of rfl hs)
    | split
    | (with_reducible refine Only.foldl _ (fun _ _ _ => ?_) _ _ ?_)
    | ((with_reducible apply upd_only); rotate_left; iterate 39 (first | exact Or.inr (by with_reducible rfl) | exact Or.inl (mem_of_sub hs rfl) | exact Or.inl (sub_of rfl hs) | exact Or.inr rfl | exact Or.inr ⟨rfl, rfl⟩ | exact Or.inr ⟨rfl, rfl, rfl⟩))


theorem State.respond_only (h : Only ps a s) (x1 x2 x3) (hs : sub [.out, .status, .host, .pads, .counts, .evrQueue, .slots, .kst, .uci, .mem, .tmp, .bkp, .lci, .sac, .vat, .sch, .trib, .sc, .sa, .cur, .role, .mte] ps = true) : Only ps a (State.respond s x1 x2 x3) := by
  unfold State.respond
  try dsimp only
  repeat' first
    | with_reducible assumption
    | with_reducible refine State.modTmp_only ?_ _ (sub_of rfl hs)
    | with_reducible refine State.logAppend_only ?_ _ _ _ _ _ _ _ (sub_of rfl hs)
    | with_reducible refine State.mateFinding_only ?_ _ (sub_of rfl hs)
    | with_reducible refine State.zeroErase_only ?_  (sub_of rfl hs)
    | with_reducible refine State.sessionErase_only ?_  (sub_of rfl hs)
    | split
    | (with_reducible refine Only.foldl _ (fun _ _ _ => ?_) _ _ ?_)
    | ((with_reducible apply upd_only); rotate_left; iterate 39 (first | exact Or.inr (by with_reducible rfl) | exact Or.inl (mem_of_sub hs rfl) | exact Or.inl (sub_of rfl hs) | exact Or.inr rfl | exact Or.inr ⟨rfl, rfl⟩ | exact Or.inr ⟨rfl, rfl, rfl⟩))


theorem State.tamperFire_only (h : Only ps a s) (b : BitVec 12) (hs : sub [.out, .settings, .status, .shadow, .host, .pads, .counts, .evrQueue, .slots, .kst, .rng, .uci, .mem, .tmp, .bkp, .lci, .sac, .vat, .sch, .ports, .trib, .sc, .sa, .cur, .role, .mte] ps = true) : Only ps a (s.tamperFire b) := by
  unfold State.tamperFire
  extract_lets new test s0 top lower runs thr s1 s2 s3 s4 s5
  have h0 : Only ps a s0 := by
    simp only [s0]
    split
    · split
      · exact State.countDev_only h _ _ _ _ (sub_of rfl hs)
      · exact h
    · exact h
  split
  · exact h0
  · have h1 : Only ps a s1 := Only.foldl _ (fun _ _ h => State.fixDev_only (State.countDev_only
      (State.setBit_only h _ _ _ (Or.inr (by rfl)) (Or.inl (mem_of_sub hs rfl))) _ _ _ _ (sub_of rfl hs)) _ _ (sub_of rfl hs)) _ _ h0
    have h3 : Only ps a s3 := State.modTmp_only (State.happen_only h1 _ _ _ _ _ (sub_of rfl hs)) _ (sub_of rfl hs)
    have h4 : Only ps a s4 := by
      simp only [s4]
      split
      · exact State.reloadShadow_only h3 (sub_of rfl hs)
      · exact h3
    have h5 : Only ps a s5 := by
      simp only [s5]
      split
      · exact h4
      · exact State.refillAll_only h4 (sub_of rfl hs)
    split
    · exact State.respond_only h5 _ _ _ (sub_of rfl hs)
    · exact h5

theorem execTamperFire_only (h : Only ps a s) (x0) (hs : sub [.out, .settings, .status, .shadow, .irq, .host, .pads, .counts, .evrQueue, .slots, .kst, .rng, .uci, .mem, .tmp, .bkp, .lci, .sac, .vat, .sch, .ports, .trib, .sc, .sa, .cur, .role, .mte] ps = true) : OnlyR ps a (execTamperFire x0 s) := by
  unfold execTamperFire
  try dsimp only
  repeat' first
    | with_reducible assumption
    | with_reducible refine idle_only ?_  (sub_of rfl hs)
    | with_reducible refine mateEnd_only ?_  (sub_of rfl hs)
    | with_reducible refine State.tamperFire_only ?_ _ (sub_of rfl hs)
    | with_reducible refine finish_only ?_ (sub_of rfl hs)
    | with_reducible refine idle_only ?_
    | split
    | (with_reducible refine Only.foldl _ (fun _ _ _ => ?_) _ _ ?_)
    | ((with_reducible apply upd_only); rotate_left; iterate 39 (first | exact Or.inr (by with_reducible rfl) | exact Or.inl (mem_of_sub hs rfl) | exact Or.inl (sub_of rfl hs) | exact Or.inr rfl | exact Or.inr ⟨rfl, rfl⟩ | exact Or.inr ⟨rfl, rfl, rfl⟩))


theorem execTamperSourceCease_only (h : Only ps a s) (x0) (hs : sub [.out, .irq, .counts, .evrQueue, .tmp] ps = true) : OnlyR ps a (execTamperSourceCease x0 s) := by
  unfold execTamperSourceCease
  try dsimp only
  repeat' first
    | with_reducible assumption
    | with_reducible refine idle_only ?_  (sub_of rfl hs)
    | with_reducible refine finish_only ?_  (sub_of rfl hs)
    | with_reducible refine State.modTmp_only ?_ _ (sub_of rfl hs)
    | with_reducible refine finish_only ?_ (sub_of rfl hs)
    | with_reducible refine idle_only ?_
    | split
    | (with_reducible refine Only.foldl _ (fun _ _ _ => ?_) _ _ ?_)
    | ((with_reducible apply upd_only); rotate_left; iterate 39 (first | exact Or.inr (by with_reducible rfl) | exact Or.inl (mem_of_sub hs rfl) | exact Or.inl (sub_of rfl hs) | exact Or.inr rfl | exact Or.inr ⟨rfl, rfl⟩ | exact Or.inr ⟨rfl, rfl, rfl⟩))


theorem execThrottleEnd_only (h : Only ps a s) (hs : sub [.out, .irq, .counts, .evrQueue, .tmp, .vat, .sch, .ports] ps = true) : OnlyR ps a (execThrottleEnd s) := by
  unfold execThrottleEnd
  try dsimp only
  repeat' first
    | with_reducible assumption
    | with_reducible refine idle_only ?_  (sub_of rfl hs)
    | with_reducible refine State.modTmp_only ?_ _ (sub_of rfl hs)
    | with_reducible refine finish_only ?_  (sub_of rfl hs)
    | with_reducible refine State.refillAll_only ?_  (sub_of rfl hs)
    | with_reducible refine finish_only ?_ (sub_of rfl hs)
    | with_reducible refine idle_only ?_
    | split
    | (with_reducible refine Only.foldl _ (fun _ _ _ => ?_) _ _ ?_)
    | ((with_reducible apply upd_only); rotate_left; iterate 39 (first | exact Or.inr (by with_reducible rfl) | exact Or.inl (mem_of_sub hs rfl) | exact Or.inl (sub_of rfl hs) | exact Or.inr rfl | exact Or.inr ⟨rfl, rfl⟩ | exact Or.inr ⟨rfl, rfl, rfl⟩))


theorem State.evidenceUp_only (h : Only ps a s) (hs : sub [.otp] ps = true) : Only ps a (State.evidenceUp s) := by
  unfold State.evidenceUp
  try dsimp only
  repeat' first
    | with_reducible assumption
    | ((with_reducible refine State.modOtp_only ?_ _ ?_ (sub_of rfl hs)); rotate_left; (first | with_reducible exact Otp.keeps_evidence _ | with_reducible exact Otp.keeps_disable _ _ | with_reducible exact Otp.keeps_lc _ _))
    | split
    | (with_reducible refine Only.foldl _ (fun _ _ _ => ?_) _ _ ?_)
    | ((with_reducible apply upd_only); rotate_left; iterate 39 (first | exact Or.inr (by with_reducible rfl) | exact Or.inl (mem_of_sub hs rfl) | exact Or.inl (sub_of rfl hs) | exact Or.inr rfl | exact Or.inr ⟨rfl, rfl⟩ | exact Or.inr ⟨rfl, rfl, rfl⟩))


theorem State.fullEntry_only (h : Only ps a s) (hs : sub [.kst, .tmp, .bkp] ps = true) : Only ps a (State.fullEntry s) := by
  unfold State.fullEntry
  try dsimp only
  repeat' first
    | with_reducible assumption
    | with_reducible refine State.modTmp_only ?_ _ (sub_of rfl hs)
    | with_reducible refine State.logAppend_only ?_ _ _ _ _ _ _ _ (sub_of rfl hs)
    | split
    | (with_reducible refine Only.foldl _ (fun _ _ _ => ?_) _ _ ?_)
    | ((with_reducible apply upd_only); rotate_left; iterate 39 (first | exact Or.inr (by with_reducible rfl) | exact Or.inl (mem_of_sub hs rfl) | exact Or.inl (sub_of rfl hs) | exact Or.inr rfl | exact Or.inr ⟨rfl, rfl⟩ | exact Or.inr ⟨rfl, rfl, rfl⟩))


theorem execEvidenceIncrementDone_only (h : Only ps a s) (hs : sub [.out, .irq, .counts, .evrQueue, .otp, .kst, .tmp, .bkp] ps = true) : OnlyR ps a (execEvidenceIncrementDone s) := by
  unfold execEvidenceIncrementDone
  try dsimp only
  repeat' first
    | with_reducible assumption
    | with_reducible refine idle_only ?_  (sub_of rfl hs)
    | with_reducible refine finish_only ?_  (sub_of rfl hs)
    | with_reducible refine State.modTmp_only ?_ _ (sub_of rfl hs)
    | with_reducible refine State.retireEpoch_only ?_ _ (sub_of rfl hs)
    | with_reducible refine State.logAppend_only ?_ _ _ _ _ _ _ _ (sub_of rfl hs)
    | with_reducible refine State.fullEntry_only ?_  (sub_of rfl hs)
    | with_reducible refine State.evidenceUp_only ?_  (sub_of rfl hs)
    | with_reducible refine finish_only ?_ (sub_of rfl hs)
    | with_reducible refine idle_only ?_
    | split
    | (with_reducible refine Only.foldl _ (fun _ _ _ => ?_) _ _ ?_)
    | ((with_reducible apply upd_only); rotate_left; iterate 39 (first | exact Or.inr (by with_reducible rfl) | exact Or.inl (mem_of_sub hs rfl) | exact Or.inl (sub_of rfl hs) | exact Or.inr rfl | exact Or.inr ⟨rfl, rfl⟩ | exact Or.inr ⟨rfl, rfl, rfl⟩))


theorem State.bistWrite_only (h : Only ps a s) (x1) (hs : sub [.settings, .tmp] ps = true) : Only ps a (State.bistWrite s x1) := by
  unfold State.bistWrite
  try dsimp only
  repeat' first
    | with_reducible assumption
    | with_reducible refine State.setReg_only ?_ _ _ (Or.inr (by first | rfl | (simp; done) | decide)) (Or.inl (mem_of_sub hs rfl))
    | with_reducible refine State.setReg_only ?_ _ _ (Or.inl (mem_of_sub hs rfl)) (Or.inr (by first | rfl | (simp; done) | decide))
    | with_reducible refine State.setReg_only ?_ _ _ (Or.inl (mem_of_sub hs rfl)) (Or.inl (mem_of_sub hs rfl))
    | with_reducible refine State.modTmp_only ?_ _ (sub_of rfl hs)
    | split
    | (with_reducible refine Only.foldl _ (fun _ _ _ => ?_) _ _ ?_)
    | ((with_reducible apply upd_only); rotate_left; iterate 39 (first | exact Or.inr (by with_reducible rfl) | exact Or.inl (mem_of_sub hs rfl) | exact Or.inl (sub_of rfl hs) | exact Or.inr rfl | exact Or.inr ⟨rfl, rfl⟩ | exact Or.inr ⟨rfl, rfl, rfl⟩))


theorem execTamperBist_only (h : Only ps a s) (x0 x1) (hs : sub [.out, .settings, .irq, .counts, .evrQueue, .tmp] ps = true) : OnlyR ps a (execTamperBist x0 x1 s) := by
  unfold execTamperBist
  try dsimp only
  repeat' first
    | with_reducible assumption
    | with_reducible refine finish_only ?_  (sub_of rfl hs)
    | with_reducible refine idle_only ?_  (sub_of rfl hs)
    | with_reducible refine State.lockedWrite_only ?_ _ _ _ (sub_of rfl hs)
    | with_reducible refine State.bistWrite_only ?_ _ (sub_of rfl hs)
    | with_reducible refine finish_only ?_ (sub_of rfl hs)
    | with_reducible refine idle_only ?_
    | split
    | (with_reducible refine Only.foldl _ (fun _ _ _ => ?_) _ _ ?_)
    | ((with_reducible apply upd_only); rotate_left; iterate 39 (first | exact Or.inr (by with_reducible rfl) | exact Or.inl (mem_of_sub hs rfl) | exact Or.inl (sub_of rfl hs) | exact Or.inr rfl | exact Or.inr ⟨rfl, rfl⟩ | exact Or.inr ⟨rfl, rfl, rfl⟩))


theorem execBistStimulusEnd_only (h : Only ps a s) (x0 x1) (hs : sub [.out, .settings, .status, .shadow, .irq, .host, .pads, .counts, .evrQueue, .slots, .kst, .rng, .uci, .mem, .tmp, .bkp, .lci, .sac, .vat, .sch, .ports, .trib, .sc, .sa, .cur, .role, .mte] ps = true) : OnlyR ps a (execBistStimulusEnd x0 x1 s) := by
  unfold execBistStimulusEnd
  try dsimp only
  repeat' first
    | with_reducible assumption
    | with_reducible refine idle_only ?_  (sub_of rfl hs)
    | with_reducible refine State.modTmp_only ?_ _ (sub_of rfl hs)
    | with_reducible refine State.countDev_only ?_ _ _ _ _ (sub_of rfl hs)
    | with_reducible refine mateEnd_only ?_  (sub_of rfl hs)
    | with_reducible refine State.tamperFire_only ?_ _ (sub_of rfl hs)
    | with_reducible refine finish_only ?_ (sub_of rfl hs)
    | with_reducible refine idle_only ?_
    | split
    | (with_reducible refine Only.foldl _ (fun _ _ _ => ?_) _ _ ?_)
    | ((with_reducible apply upd_only); rotate_left; iterate 39 (first | exact Or.inr (by with_reducible rfl) | exact Or.inl (mem_of_sub hs rfl) | exact Or.inl (sub_of rfl hs) | exact Or.inr rfl | exact Or.inr ⟨rfl, rfl⟩ | exact Or.inr ⟨rfl, rfl, rfl⟩))


theorem State.fuseTgt_only (h : Only ps a s) (x1) (hs : sub [.settings, .tmp] ps = true) : Only ps a (State.fuseTgt s x1) := by
  unfold State.fuseTgt
  try dsimp only
  repeat' first
    | with_reducible assumption
    | with_reducible refine State.setReg_only ?_ _ _ (Or.inr (by first | rfl | (simp; done) | decide)) (Or.inl (mem_of_sub hs rfl))
    | with_reducible refine State.setReg_only ?_ _ _ (Or.inl (mem_of_sub hs rfl)) (Or.inr (by first | rfl | (simp; done) | decide))
    | with_reducible refine State.setReg_only ?_ _ _ (Or.inl (mem_of_sub hs rfl)) (Or.inl (mem_of_sub hs rfl))
    | with_reducible refine State.modTmp_only ?_ _ (sub_of rfl hs)
    | split
    | (with_reducible refine Only.foldl _ (fun _ _ _ => ?_) _ _ ?_)
    | ((with_reducible apply upd_only); rotate_left; iterate 39 (first | exact Or.inr (by with_reducible rfl) | exact Or.inl (mem_of_sub hs rfl) | exact Or.inl (sub_of rfl hs) | exact Or.inr rfl | exact Or.inr ⟨rfl, rfl⟩ | exact Or.inr ⟨rfl, rfl, rfl⟩))


theorem execFuseTgtWrite_only (h : Only ps a s) (x0 x1) (hs : sub [.out, .settings, .irq, .counts, .evrQueue, .tmp] ps = true) : OnlyR ps a (execFuseTgtWrite x0 x1 s) := by
  unfold execFuseTgtWrite
  try dsimp only
  repeat' first
    | with_reducible assumption
    | with_reducible refine finish_only ?_  (sub_of rfl hs)
    | with_reducible refine idle_only ?_  (sub_of rfl hs)
    | with_reducible refine State.lockedWrite_only ?_ _ _ _ (sub_of rfl hs)
    | with_reducible refine State.fuseTgt_only ?_ _ (sub_of rfl hs)
    | with_reducible refine finish_only ?_ (sub_of rfl hs)
    | with_reducible refine idle_only ?_
    | split
    | (with_reducible refine Only.foldl _ (fun _ _ _ => ?_) _ _ ?_)
    | ((with_reducible apply upd_only); rotate_left; iterate 39 (first | exact Or.inr (by with_reducible rfl) | exact Or.inl (mem_of_sub hs rfl) | exact Or.inl (sub_of rfl hs) | exact Or.inr rfl | exact Or.inr ⟨rfl, rfl⟩ | exact Or.inr ⟨rfl, rfl, rfl⟩))


theorem execFuseWindowExpire_only (h : Only ps a s) (hs : sub [.out, .irq, .counts, .evrQueue, .tmp] ps = true) : OnlyR ps a (execFuseWindowExpire s) := by
  unfold execFuseWindowExpire
  try dsimp only
  repeat' first
    | with_reducible assumption
    | with_reducible refine idle_only ?_  (sub_of rfl hs)
    | with_reducible refine State.modTmp_only ?_ _ (sub_of rfl hs)
    | with_reducible refine finish_only ?_  (sub_of rfl hs)
    | with_reducible refine finish_only ?_ (sub_of rfl hs)
    | with_reducible refine idle_only ?_
    | split
    | (with_reducible refine Only.foldl _ (fun _ _ _ => ?_) _ _ ?_)
    | ((with_reducible apply upd_only); rotate_left; iterate 39 (first | exact Or.inr (by with_reducible rfl) | exact Or.inl (mem_of_sub hs rfl) | exact Or.inl (sub_of rfl hs) | exact Or.inr rfl | exact Or.inr ⟨rfl, rfl⟩ | exact Or.inr ⟨rfl, rfl, rfl⟩))


theorem State.fuseGo_only (h : Only ps a s) (x1) (hs : sub [.status, .kst, .tmp, .bkp] ps = true) : Only ps a (State.fuseGo s x1) := by
  unfold State.fuseGo
  try dsimp only
  repeat' first
    | with_reducible assumption
    | with_reducible refine State.setBit_only ?_ _ _ _ (Or.inr (by first | rfl | (simp; done) | decide)) (Or.inl (mem_of_sub hs rfl))
    | with_reducible refine State.modTmp_only ?_ _ (sub_of rfl hs)
    | with_reducible refine State.logAppend_only ?_ _ _ _ _ _ _ _ (sub_of rfl hs)
    | split
    | (with_reducible refine Only.foldl _ (fun _ _ _ => ?_) _ _ ?_)
    | ((with_reducible apply upd_only); rotate_left; iterate 39 (first | exact Or.inr (by with_reducible rfl) | exact Or.inl (mem_of_sub hs rfl) | exact Or.inl (sub_of rfl hs) | exact Or.inr rfl | exact Or.inr ⟨rfl, rfl⟩ | exact Or.inr ⟨rfl, rfl, rfl⟩))


theorem execFuseDisableGo_only (h : Only ps a s) (x0 x1) (hs : sub [.out, .status, .irq, .counts, .evrQueue, .kst, .tmp, .bkp] ps = true) : OnlyR ps a (execFuseDisableGo x0 x1 s) := by
  unfold execFuseDisableGo
  try dsimp only
  repeat' first
    | with_reducible assumption
    | with_reducible refine finish_only ?_  (sub_of rfl hs)
    | with_reducible refine idle_only ?_  (sub_of rfl hs)
    | with_reducible refine State.lockedWrite_only ?_ _ _ _ (sub_of rfl hs)
    | with_reducible refine State.fuseGo_only ?_ _ (sub_of rfl hs)
    | with_reducible refine finish_only ?_ (sub_of rfl hs)
    | with_reducible refine idle_only ?_
    | split
    | (with_reducible refine Only.foldl _ (fun _ _ _ => ?_) _ _ ?_)
    | ((with_reducible apply upd_only); rotate_left; iterate 39 (first | exact Or.inr (by with_reducible rfl) | exact Or.inl (mem_of_sub hs rfl) | exact Or.inl (sub_of rfl hs) | exact Or.inr rfl | exact Or.inr ⟨rfl, rfl⟩ | exact Or.inr ⟨rfl, rfl, rfl⟩))


theorem execFuseDisableDone_only (h : Only ps a s) (hs : sub [.out, .irq, .counts, .evrQueue, .otp, .tmp] ps = true) : OnlyR ps a (execFuseDisableDone s) := by
  unfold execFuseDisableDone
  split
  · exact idle_only h
  · split
    · exact idle_only h
    · exact finish_only (State.modTmp_only (State.modOtp_only h _ (Otp.keeps_disable _ _) (sub_of rfl hs)) _ (sub_of rfl hs)) (sub_of rfl hs)

theorem execBackupWake_only (h : Only ps a s) (x0) (hs : sub [.out, .irq, .counts, .evrQueue, .kst, .bkp] ps = true) : OnlyR ps a (execBackupWake x0 s) := by
  unfold execBackupWake
  try dsimp only
  repeat' first
    | with_reducible assumption
    | with_reducible refine State.modBkp_only ?_ _ (sub_of rfl hs)
    | with_reducible refine idle_only ?_  (sub_of rfl hs)
    | ((with_reducible refine State.modKst_only ?_ _ ?_ ?_); rotate_left; (first | exact Or.inl (mem_of_sub hs rfl) | exact Or.inr (fun _ => rfl)); (first | exact Or.inl (mem_of_sub hs rfl) | exact Or.inr (fun _ => rfl) | exact Or.inr (fun _ => ⟨rfl, rfl⟩) | exact Or.inr (fun _ => ⟨rfl, rfl, rfl⟩)))
    | with_reducible refine finish_only ?_  (sub_of rfl hs)
    | with_reducible refine finish_only ?_ (sub_of rfl hs)
    | with_reducible refine idle_only ?_
    | split
    | (with_reducible refine Only.foldl _ (fun _ _ _ => ?_) _ _ ?_)
    | ((with_reducible apply upd_only); rotate_left; iterate 39 (first | exact Or.inr (by with_reducible rfl) | exact Or.inl (mem_of_sub hs rfl) | exact Or.inl (sub_of rfl hs) | exact Or.inr rfl | exact Or.inr ⟨rfl, rfl⟩ | exact Or.inr ⟨rfl, rfl, rfl⟩))


theorem execVbatChange_only (h : Only ps a s) (x0) (hs : sub [.out, .irq, .counts, .evrQueue, .kst, .bkp] ps = true) : OnlyR ps a (execVbatChange x0 s) := by
  unfold execVbatChange
  try dsimp only
  repeat' first
    | with_reducible assumption
    | with_reducible refine State.modBkp_only ?_ _ (sub_of rfl hs)
    | with_reducible refine idle_only ?_  (sub_of rfl hs)
    | ((with_reducible refine State.modKst_only ?_ _ ?_ ?_); rotate_left; (first | exact Or.inl (mem_of_sub hs rfl) | exact Or.inr (fun _ => rfl)); (first | exact Or.inl (mem_of_sub hs rfl) | exact Or.inr (fun _ => rfl) | exact Or.inr (fun _ => ⟨rfl, rfl⟩) | exact Or.inr (fun _ => ⟨rfl, rfl, rfl⟩)))
    | with_reducible refine finish_only ?_  (sub_of rfl hs)
    | with_reducible refine finish_only ?_ (sub_of rfl hs)
    | with_reducible refine idle_only ?_
    | split
    | (with_reducible refine Only.foldl _ (fun _ _ _ => ?_) _ _ ?_)
    | ((with_reducible apply upd_only); rotate_left; iterate 39 (first | exact Or.inr (by with_reducible rfl) | exact Or.inl (mem_of_sub hs rfl) | exact Or.inl (sub_of rfl hs) | exact Or.inr rfl | exact Or.inr ⟨rfl, rfl⟩ | exact Or.inr ⟨rfl, rfl, rfl⟩))


end Sys2Proof.Machine
end

