-- ==== Sys2Proof/Laws/OnlyMemory.lean ====
section
/-! SUPPORT. What each operation of Machine/Memory.lean may change. -/

set_option linter.unusedTactic false
set_option linter.unreachableTactic false
set_option linter.unusedVariables false
set_option linter.unusedSimpArgs false

namespace Sys2Proof.Machine

variable {ps : List Area} {a s : State}

theorem State.trainWrite_only (h : Only ps a s) (x1) (hs : sub [.mem] ps = true) : Only ps a (State.trainWrite s x1) := by
  unfold State.trainWrite
  try dsimp only
  repeat' first
    | with_reducible assumption
    | with_reducible refine State.modChan_only ?_ _ _ (sub_of rfl hs)
    | split
    | (with_reducible refine Only.foldl _ (fun _ _ _ => ?_) _ _ ?_)
    | ((with_reducible apply upd_only); rotate_left; iterate 39 (first | exact Or.inr (by with_reducible rfl) | exact Or.inl (mem_of_sub hs rfl) | exact Or.inl (sub_of rfl hs) | exact Or.inr rfl | exact Or.inr ⟨rfl, rfl⟩ | exact Or.inr ⟨rfl, rfl, rfl⟩))


theorem execMemTrain_only (h : Only ps a s) (x0 x1) (hs : sub [.out, .irq, .counts, .evrQueue, .mem] ps = true) : OnlyR ps a (execMemTrain x0 x1 s) := by
  unfold execMemTrain
  try dsimp only
  repeat' first
    | with_reducible assumption
    | with_reducible refine finish_only ?_  (sub_of rfl hs)
    | with_reducible refine idle_only ?_  (sub_of rfl hs)
    | with_reducible refine State.trainWrite_only ?_ _ (sub_of rfl hs)
    | with_reducible refine finish_only ?_ (sub_of rfl hs)
    | with_reducible refine idle_only ?_
    | split
    | (with_reducible refine Only.foldl _ (fun _ _ _ => ?_) _ _ ?_)
    | ((with_reducible apply upd_only); rotate_left; iterate 39 (first | exact Or.inr (by with_reducible rfl) | exact Or.inl (mem_of_sub hs rfl) | exact Or.inl (sub_of rfl hs) | exact Or.inr rfl | exact Or.inr ⟨rfl, rfl⟩ | exact Or.inr ⟨rfl, rfl, rfl⟩))


theorem execMemTrainDone_only (h : Only ps a s) (x0 x1) (hs : sub [.out, .status, .irq, .host, .pads, .counts, .evrQueue, .mem, .role, .mte] ps = true) : OnlyR ps a (execMemTrainDone x0 x1 s) := by
  unfold execMemTrainDone
  try dsimp only
  repeat' first
    | with_reducible assumption
    | with_reducible refine idle_only ?_  (sub_of rfl hs)
    | with_reducible refine State.modChan_only ?_ _ _ (sub_of rfl hs)
    | with_reducible refine mateEnd_only ?_  (sub_of rfl hs)
    | with_reducible refine State.mateFinding_only ?_ _ (sub_of rfl hs)
    | with_reducible refine finish_only ?_ (sub_of rfl hs)
    | with_reducible refine idle_only ?_
    | split
    | (with_reducible refine Only.foldl _ (fun _ _ _ => ?_) _ _ ?_)
    | ((with_reducible apply upd_only); rotate_left; iterate 39 (first | exact Or.inr (by with_reducible rfl) | exact Or.inl (mem_of_sub hs rfl) | exact Or.inl (sub_of rfl hs) | exact Or.inr rfl | exact Or.inr ⟨rfl, rfl⟩ | exact Or.inr ⟨rfl, rfl, rfl⟩))


theorem execMemTrackFail_only (h : Only ps a s) (x0) (hs : sub [.out, .status, .irq, .host, .pads, .counts, .evrQueue, .mem, .role, .mte] ps = true) : OnlyR ps a (execMemTrackFail x0 s) := by
  unfold execMemTrackFail
  try dsimp only
  repeat' first
    | with_reducible assumption
    | with_reducible refine idle_only ?_  (sub_of rfl hs)
    | with_reducible refine State.modChan_only ?_ _ _ (sub_of rfl hs)
    | with_reducible refine mateEnd_only ?_  (sub_of rfl hs)
    | with_reducible refine State.mateFinding_only ?_ _ (sub_of rfl hs)
    | with_reducible refine finish_only ?_ (sub_of rfl hs)
    | with_reducible refine idle_only ?_
    | split
    | (with_reducible refine Only.foldl _ (fun _ _ _ => ?_) _ _ ?_)
    | ((with_reducible apply upd_only); rotate_left; iterate 39 (first | exact Or.inr (by with_reducible rfl) | exact Or.inl (mem_of_sub hs rfl) | exact Or.inl (sub_of rfl hs) | exact Or.inr rfl | exact Or.inr ⟨rfl, rfl⟩ | exact Or.inr ⟨rfl, rfl, rfl⟩))


theorem State.regionClear_only (h : Only ps a s) (x1) (hs : sub [.mem] ps = true) : Only ps a (State.regionClear s x1) := by
  unfold State.regionClear
  try dsimp only
  repeat' first
    | with_reducible assumption
    | with_reducible refine State.modMem_only ?_ _ (sub_of rfl hs)
    | split
    | (with_reducible refine Only.foldl _ (fun _ _ _ => ?_) _ _ ?_)
    | ((with_reducible apply upd_only); rotate_left; iterate 39 (first | exact Or.inr (by with_reducible rfl) | exact Or.inl (mem_of_sub hs rfl) | exact Or.inl (sub_of rfl hs) | exact Or.inr rfl | exact Or.inr ⟨rfl, rfl⟩ | exact Or.inr ⟨rfl, rfl, rfl⟩))


theorem State.regionBegin_only (h : Only ps a s) (x1 x2) (hs : sub [.out, .status, .host, .pads, .counts, .evrQueue, .slots, .kst, .rng, .uci, .mem, .line, .sac, .cur, .role, .mte] ps = true) : Only ps a (State.regionBegin s x1 x2) := by
  unfold State.regionBegin
  try dsimp only
  repeat' first
    | with_reducible assumption
    | with_reducible refine State.rngAsk_only ?_ _ _ _ (sub_of rfl hs)
    | with_reducible refine State.rngAsk_only_of (by assumption) ?_ (sub_of rfl hs)
    | with_reducible refine State.rngDeliver_only ?_ _ _ (sub_of rfl hs)
    | with_reducible refine State.rngRefuse_only ?_ _ (sub_of rfl hs)
    | with_reducible refine State.modRgn_only ?_ _ _ (sub_of rfl hs)
    | with_reducible refine State.failPending_only ?_ _ _ (sub_of rfl hs)
    | with_reducible refine State.regionClear_only ?_ _ (sub_of rfl hs)
    | split
    | (with_reducible refine Only.foldl _ (fun _ _ _ => ?_) _ _ ?_)
    | ((with_reducible apply upd_only); rotate_left; iterate 39 (first | exact Or.inr (by with_reducible rfl) | exact Or.inl (mem_of_sub hs rfl) | exact Or.inl (sub_of rfl hs) | exact Or.inr rfl | exact Or.inr ⟨rfl, rfl⟩ | exact Or.inr ⟨rfl, rfl, rfl⟩))


theorem State.regionKeyWrite_only (h : Only ps a s) (x1 x2) (hs : sub [.out, .settings, .status, .host, .pads, .counts, .evrQueue, .slots, .kst, .rng, .uci, .mem, .line, .sac, .cur, .role, .mte] ps = true) : Only ps a (State.regionKeyWrite s x1 x2) := by
  unfold State.regionKeyWrite
  try dsimp only
  repeat' first
    | with_reducible assumption
    | with_reducible refine State.setReg_only ?_ _ _ (Or.inr (by first | rfl | (simp; done) | decide)) (Or.inl (mem_of_sub hs rfl))
    | with_reducible refine State.setReg_only ?_ _ _ (Or.inl (mem_of_sub hs rfl)) (Or.inr (by first | rfl | (simp; done) | decide))
    | with_reducible refine State.setReg_only ?_ _ _ (Or.inl (mem_of_sub hs rfl)) (Or.inl (mem_of_sub hs rfl))
    | with_reducible refine State.modRgn_only ?_ _ _ (sub_of rfl hs)
    | with_reducible refine State.regionBegin_only ?_ _ _ (sub_of rfl hs)
    | split
    | (with_reducible refine Only.foldl _ (fun _ _ _ => ?_) _ _ ?_)
    | ((with_reducible apply upd_only); rotate_left; iterate 39 (first | exact Or.inr (by with_reducible rfl) | exact Or.inl (mem_of_sub hs rfl) | exact Or.inl (sub_of rfl hs) | exact Or.inr rfl | exact Or.inr ⟨rfl, rfl⟩ | exact Or.inr ⟨rfl, rfl, rfl⟩))


theorem execMemRegionLoad_only (h : Only ps a s) (x0 x1 x2) (hs : sub [.out, .settings, .status, .irq, .host, .pads, .counts, .evrQueue, .slots, .kst, .rng, .uci, .mem, .line, .sac, .cur, .role, .mte] ps = true) : OnlyR ps a (execMemRegionLoad x0 x1 x2 s) := by
  unfold execMemRegionLoad
  try dsimp only
  repeat' first
    | with_reducible assumption
    | with_reducible refine finish_only ?_  (sub_of rfl hs)
    | with_reducible refine idle_only ?_  (sub_of rfl hs)
    | with_reducible refine State.lockedWrite_only ?_ _ _ _ (sub_of rfl hs)
    | with_reducible refine State.regionKeyWrite_only ?_ _ _ (sub_of rfl hs)
    | with_reducible refine finish_only ?_ (sub_of rfl hs)
    | with_reducible refine idle_only ?_
    | split
    | (with_reducible refine Only.foldl _ (fun _ _ _ => ?_) _ _ ?_)
    | ((with_reducible apply upd_only); rotate_left; iterate 39 (first | exact Or.inr (by with_reducible rfl) | exact Or.inl (mem_of_sub hs rfl) | exact Or.inl (sub_of rfl hs) | exact Or.inr rfl | exact Or.inr ⟨rfl, rfl⟩ | exact Or.inr ⟨rfl, rfl, rfl⟩))


theorem State.regionUnload_only (h : Only ps a s) (x1) (hs : sub [.out, .status, .mem, .sac] ps = true) : Only ps a (State.regionUnload s x1) := by
  unfold State.regionUnload
  try dsimp only
  repeat' first
    | with_reducible assumption
    | with_reducible refine State.setBit_only ?_ _ _ _ (Or.inr (by first | rfl | (simp; done) | decide)) (Or.inl (mem_of_sub hs rfl))
    | with_reducible refine State.rgnErase_only ?_ _ (sub_of rfl hs)
    | split
    | (with_reducible refine Only.foldl _ (fun _ _ _ => ?_) _ _ ?_)
    | ((with_reducible apply upd_only); rotate_left; iterate 39 (first | exact Or.inr (by with_reducible rfl) | exact Or.inl (mem_of_sub hs rfl) | exact Or.inl (sub_of rfl hs) | exact Or.inr rfl | exact Or.inr ⟨rfl, rfl⟩ | exact Or.inr ⟨rfl, rfl, rfl⟩))


theorem execMemRegionUnload_only (h : Only ps a s) (x0 x1) (hs : sub [.out, .status, .irq, .counts, .evrQueue, .mem, .sac] ps = true) : OnlyR ps a (execMemRegionUnload x0 x1 s) := by
  unfold execMemRegionUnload
  try dsimp only
  repeat' first
    | with_reducible assumption
    | with_reducible refine finish_only ?_  (sub_of rfl hs)
    | with_reducible refine idle_only ?_  (sub_of rfl hs)
    | with_reducible refine State.lockedWrite_only ?_ _ _ _ (sub_of rfl hs)
    | with_reducible refine State.regionUnload_only ?_ _ (sub_of rfl hs)
    | with_reducible refine finish_only ?_ (sub_of rfl hs)
    | with_reducible refine idle_only ?_
    | split
    | (with_reducible refine Only.foldl _ (fun _ _ _ => ?_) _ _ ?_)
    | ((with_reducible apply upd_only); rotate_left; iterate 39 (first | exact Or.inr (by with_reducible rfl) | exact Or.inl (mem_of_sub hs rfl) | exact Or.inl (sub_of rfl hs) | exact Or.inr rfl | exact Or.inr ⟨rfl, rfl⟩ | exact Or.inr ⟨rfl, rfl, rfl⟩))


theorem execMemRegionReady_only (h : Only ps a s) (x0) (hs : sub [.out, .irq, .counts, .evrQueue, .mem] ps = true) : OnlyR ps a (execMemRegionReady x0 s) := by
  unfold execMemRegionReady
  try dsimp only
  repeat' first
    | with_reducible assumption
    | with_reducible refine finish_only ?_  (sub_of rfl hs)
    | with_reducible refine idle_only ?_  (sub_of rfl hs)
    | with_reducible refine State.modRgn_only ?_ _ _ (sub_of rfl hs)
    | with_reducible refine finish_only ?_ (sub_of rfl hs)
    | with_reducible refine idle_only ?_
    | split
    | (with_reducible refine Only.foldl _ (fun _ _ _ => ?_) _ _ ?_)
    | ((with_reducible apply upd_only); rotate_left; iterate 39 (first | exact Or.inr (by with_reducible rfl) | exact Or.inl (mem_of_sub hs rfl) | exact Or.inl (sub_of rfl hs) | exact Or.inr rfl | exact Or.inr ⟨rfl, rfl⟩ | exact Or.inr ⟨rfl, rfl, rfl⟩))


theorem State.refuseAccess_only (h : Only ps a s) (x1 x2) (hs : sub [.out, .status, .counts, .evrQueue, .mem, .sac] ps = true) : Only ps a (State.refuseAccess s x1 x2) := by
  unfold State.refuseAccess
  try dsimp only
  repeat' first
    | with_reducible assumption
    | with_reducible refine State.countDev_only ?_ _ _ _ _ (sub_of rfl hs)
    | with_reducible refine State.lockedWrite_only ?_ _ _ _ (sub_of rfl hs)
    | with_reducible refine State.memAnswer_only ?_ _ _ _ (sub_of rfl hs)
    | split
    | (with_reducible refine Only.foldl _ (fun _ _ _ => ?_) _ _ ?_)
    | ((with_reducible apply upd_only); rotate_left; iterate 39 (first | exact Or.inr (by with_reducible rfl) | exact Or.inl (mem_of_sub hs rfl) | exact Or.inl (sub_of rfl hs) | exact Or.inr rfl | exact Or.inr ⟨rfl, rfl⟩ | exact Or.inr ⟨rfl, rfl, rfl⟩))


theorem execMemLineRead_only (h : Only ps a s) (x0) (hs : sub [.out, .status, .irq, .counts, .evrQueue, .mem, .sac] ps = true) : OnlyR ps a (execMemLineRead x0 s) := by
  unfold execMemLineRead
  try dsimp only
  repeat' first
    | with_reducible assumption
    | with_reducible refine finish_only ?_  (sub_of rfl hs)
    | with_reducible refine idle_only ?_  (sub_of rfl hs)
    | with_reducible refine State.modChan_only ?_ _ _ (sub_of rfl hs)
    | with_reducible refine State.refuseAccess_only ?_ _ _ (sub_of rfl hs)
    | with_reducible refine finish_only ?_ (sub_of rfl hs)
    | with_reducible refine idle_only ?_
    | split
    | (with_reducible refine Only.foldl _ (fun _ _ _ => ?_) _ _ ?_)
    | ((with_reducible apply upd_only); rotate_left; iterate 39 (first | exact Or.inr (by with_reducible rfl) | exact Or.inl (mem_of_sub hs rfl) | exact Or.inl (sub_of rfl hs) | exact Or.inr rfl | exact Or.inr ⟨rfl, rfl⟩ | exact Or.inr ⟨rfl, rfl, rfl⟩))


theorem State.repair_only (h : Only ps a s) (x1 x2 x3 x4 x5) (hs : sub [.out, .mem] ps = true) : Only ps a (State.repair s x1 x2 x3 x4 x5) := by
  unfold State.repair
  try dsimp only
  repeat' first
    | with_reducible assumption
    | with_reducible refine State.emit_only ?_ _ (sub_of rfl hs)
    | with_reducible refine State.modChan_only ?_ _ _ (sub_of rfl hs)
    | split
    | (with_reducible refine Only.foldl _ (fun _ _ _ => ?_) _ _ ?_)
    | ((with_reducible apply upd_only); rotate_left; iterate 39 (first | exact Or.inr (by with_reducible rfl) | exact Or.inl (mem_of_sub hs rfl) | exact Or.inl (sub_of rfl hs) | exact Or.inr rfl | exact Or.inr ⟨rfl, rfl⟩ | exact Or.inr ⟨rfl, rfl, rfl⟩))


theorem State.noteParity_only (h : Only ps a s) (x1 x2) (hs : sub [.status, .counts] ps = true) : Only ps a (State.noteParity s x1 x2) := by
  unfold State.noteParity
  try dsimp only
  repeat' first
    | with_reducible assumption
    | with_reducible refine State.setBit_only ?_ _ _ _ (Or.inr (by first | rfl | (simp; done) | decide)) (Or.inl (mem_of_sub hs rfl))
    | with_reducible refine State.countDev_only ?_ _ _ _ _ (sub_of rfl hs)
    | split
    | (with_reducible refine Only.foldl _ (fun _ _ _ => ?_) _ _ ?_)
    | ((with_reducible apply upd_only); rotate_left; iterate 39 (first | exact Or.inr (by with_reducible rfl) | exact Or.inl (mem_of_sub hs rfl) | exact Or.inl (sub_of rfl hs) | exact Or.inr rfl | exact Or.inr ⟨rfl, rfl⟩ | exact Or.inr ⟨rfl, rfl, rfl⟩))


theorem State.noteRead_only (h : Only ps a s) (x1 x2 x3 x4 x5) (hs : sub [.counts, .evrQueue, .mem] ps = true) : Only ps a (State.noteRead s x1 x2 x3 x4 x5) := by
  unfold State.noteRead
  try dsimp only
  repeat' first
    | with_reducible assumption
    | with_reducible refine State.fixDev_only ?_ _ _ (sub_of rfl hs)
    | with_reducible refine State.modMem_only ?_ _ (sub_of rfl hs)
    | with_reducible refine State.countDev_only ?_ _ _ _ _ (sub_of rfl hs)
    | with_reducible refine State.happen_only ?_ _ _ _ _ _ (sub_of rfl hs)
    | split
    | (with_reducible refine Only.foldl _ (fun _ _ _ => ?_) _ _ ?_)
    | ((with_reducible apply upd_only); rotate_left; iterate 39 (first | exact Or.inr (by with_reducible rfl) | exact Or.inl (mem_of_sub hs rfl) | exact Or.inl (sub_of rfl hs) | exact Or.inr rfl | exact Or.inr ⟨rfl, rfl⟩ | exact Or.inr ⟨rfl, rfl, rfl⟩))


theorem execMemReadDone_only (h : Only ps a s) (x0 x1) (hs : sub [.out, .settings, .status, .shadow, .irq, .host, .pads, .counts, .evrQueue, .slots, .kst, .rng, .uci, .mem, .tmp, .bkp, .lci, .sac, .vat, .sch, .ports, .trib, .sc, .sa, .cur, .role, .mte] ps = true) : OnlyR ps a (execMemReadDone x0 x1 s) := by
  unfold execMemReadDone
  try dsimp only
  repeat' first
    | with_reducible assumption
    | with_reducible refine idle_only ?_  (sub_of rfl hs)
    | with_reducible refine State.memAnswer_only ?_ _ _ _ (sub_of rfl hs)
    | with_reducible refine State.modChan_only ?_ _ _ (sub_of rfl hs)
    | with_reducible refine mateEnd_only ?_  (sub_of rfl hs)
    | with_reducible refine State.tamperFire_only ?_ _ (sub_of rfl hs)
    | with_reducible refine State.noteRead_only ?_ _ _ _ _ _ (sub_of rfl hs)
    | with_reducible refine State.noteParity_only ?_ _ _ (sub_of rfl hs)
    | with_reducible refine State.repair_only ?_ _ _ _ _ _ (sub_of rfl hs)
    | with_reducible refine finish_only ?_ (sub_of rfl hs)
    | with_reducible refine idle_only ?_
    | split
    | (with_reducible refine Only.foldl _ (fun _ _ _ => ?_) _ _ ?_)
    | ((with_reducible apply upd_only); rotate_left; iterate 39 (first | exact Or.inr (by with_reducible rfl) | exact Or.inl (mem_of_sub hs rfl) | exact Or.inl (sub_of rfl hs) | exact Or.inr rfl | exact Or.inr ⟨rfl, rfl⟩ | exact Or.inr ⟨rfl, rfl, rfl⟩))


theorem State.storeLine_only (h : Only ps a s) (x1 x2 x3 x4 x5) (hs : sub [.out, .mem] ps = true) : Only ps a (State.storeLine s x1 x2 x3 x4 x5) := by
  unfold State.storeLine
  try dsimp only
  repeat' first
    | with_reducible assumption
    | with_reducible refine State.emit_only ?_ _ (sub_of rfl hs)
    | with_reducible refine State.modChan_only ?_ _ _ (sub_of rfl hs)
    | split
    | (with_reducible refine Only.foldl _ (fun _ _ _ => ?_) _ _ ?_)
    | ((with_reducible apply upd_only); rotate_left; iterate 39 (first | exact Or.inr (by with_reducible rfl) | exact Or.inl (mem_of_sub hs rfl) | exact Or.inl (sub_of rfl hs) | exact Or.inr rfl | exact Or.inr ⟨rfl, rfl⟩ | exact Or.inr ⟨rfl, rfl, rfl⟩))


theorem State.spent_only (h : Only ps a s) (x1 x2 x3) (hs : sub [.out, .settings, .status, .shadow, .host, .pads, .counts, .evrQueue, .slots, .kst, .rng, .uci, .mem, .tmp, .bkp, .lci, .sac, .vat, .sch, .ports, .trib, .sc, .sa, .cur, .role, .mte] ps = true) : Only ps a (State.spent s x1 x2 x3) := by
  unfold State.spent
  try dsimp only
  repeat' first
    | with_reducible assumption
    | with_reducible refine State.setBit_only ?_ _ _ _ (Or.inr (by first | rfl | (simp; done) | decide)) (Or.inl (mem_of_sub hs rfl))
    | with_reducible refine State.setBit_only ?_ _ _ _ (Or.inl (mem_of_sub hs rfl)) (Or.inr (by first | rfl | (simp; done) | decide))
    | with_reducible refine State.setBit_only ?_ _ _ _ (Or.inl (mem_of_sub hs rfl)) (Or.inl (mem_of_sub hs rfl))
    | with_reducible refine State.countDev_only ?_ _ _ _ _ (sub_of rfl hs)
    | with_reducible refine State.modChan_only ?_ _ _ (sub_of rfl hs)
    | with_reducible refine State.tamperFire_only ?_ _ (sub_of rfl hs)
    | split
    | (with_reducible refine Only.foldl _ (fun _ _ _ => ?_) _ _ ?_)
    | ((with_reducible apply upd_only); rotate_left; iterate 39 (first | exact Or.inr (by with_reducible rfl) | exact Or.inl (mem_of_sub hs rfl) | exact Or.inl (sub_of rfl hs) | exact Or.inr rfl | exact Or.inr ⟨rfl, rfl⟩ | exact Or.inr ⟨rfl, rfl, rfl⟩))


theorem State.majWarn_only (h : Only ps a s) (x1 x2) (hs : sub [.status, .mem] ps = true) : Only ps a (State.majWarn s x1 x2) := by
  unfold State.majWarn
  try dsimp only
  repeat' first
    | with_reducible assumption
    | with_reducible refine State.setBit_only ?_ _ _ _ (Or.inr (by first | rfl | (simp; done) | decide)) (Or.inl (mem_of_sub hs rfl))
    | with_reducible refine State.modRgn_only ?_ _ _ (sub_of rfl hs)
    | split
    | (with_reducible refine Only.foldl _ (fun _ _ _ => ?_) _ _ ?_)
    | ((with_reducible apply upd_only); rotate_left; iterate 39 (first | exact Or.inr (by with_reducible rfl) | exact Or.inl (mem_of_sub hs rfl) | exact Or.inl (sub_of rfl hs) | exact Or.inr rfl | exact Or.inr ⟨rfl, rfl⟩ | exact Or.inr ⟨rfl, rfl, rfl⟩))


theorem State.startRewrite_only (h : Only ps a s) (x1 x2 x3 x4 x5) (hs : sub [.status, .counts, .mem, .sac] ps = true) : Only ps a (State.startRewrite s x1 x2 x3 x4 x5) := by
  unfold State.startRewrite
  try dsimp only
  repeat' first
    | with_reducible assumption
    | with_reducible refine State.modChan_only ?_ _ _ (sub_of rfl hs)
    | with_reducible refine State.pageStalls_only ?_ _ _ _ (sub_of rfl hs)
    | with_reducible refine State.majWarn_only ?_ _ _ (sub_of rfl hs)
    | split
    | (with_reducible refine Only.foldl _ (fun _ _ _ => ?_) _ _ ?_)
    | ((with_reducible apply upd_only); rotate_left; iterate 39 (first | exact Or.inr (by with_reducible rfl) | exact Or.inl (mem_of_sub hs rfl) | exact Or.inl (sub_of rfl hs) | exact Or.inr rfl | exact Or.inr ⟨rfl, rfl⟩ | exact Or.inr ⟨rfl, rfl, rfl⟩))


theorem State.writeLine_only (h : Only ps a s) (x1 x2 x3 x4 x5) (hs : sub [.out, .settings, .status, .shadow, .host, .pads, .counts, .evrQueue, .slots, .kst, .rng, .uci, .mem, .tmp, .bkp, .lci, .sac, .vat, .sch, .ports, .trib, .sc, .sa, .cur, .role, .mte] ps = true) : Only ps a (State.writeLine s x1 x2 x3 x4 x5) := by
  unfold State.writeLine
  try dsimp only
  repeat' first
    | with_reducible assumption
    | with_reducible refine State.memAnswer_only ?_ _ _ _ (sub_of rfl hs)
    | with_reducible refine State.modChan_only ?_ _ _ (sub_of rfl hs)
    | with_reducible refine State.spent_only ?_ _ _ _ (sub_of rfl hs)
    | with_reducible refine State.startRewrite_only ?_ _ _ _ _ _ (sub_of rfl hs)
    | with_reducible refine State.storeLine_only ?_ _ _ _ _ _ (sub_of rfl hs)
    | split
    | (with_reducible refine Only.foldl _ (fun _ _ _ => ?_) _ _ ?_)
    | ((with_reducible apply upd_only); rotate_left; iterate 39 (first | exact Or.inr (by with_reducible rfl) | exact Or.inl (mem_of_sub hs rfl) | exact Or.inl (sub_of rfl hs) | exact Or.inr rfl | exact Or.inr ⟨rfl, rfl⟩ | exact Or.inr ⟨rfl, rfl, rfl⟩))


theorem State.doWrite_only (h : Only ps a s) (x1 x2 x3 x4 x5) (hs : sub [.out, .settings, .status, .shadow, .host, .pads, .counts, .evrQueue, .slots, .kst, .rng, .uci, .mem, .tmp, .bkp, .lci, .sac, .vat, .sch, .ports, .trib, .sc, .sa, .cur, .role, .mte] ps = true) : Only ps a (State.doWrite s x1 x2 x3 x4 x5) := by
  unfold State.doWrite
  try dsimp only
  repeat' first
    | with_reducible assumption
    | with_reducible refine State.countDev_only ?_ _ _ _ _ (sub_of rfl hs)
    | with_reducible refine State.happen_only ?_ _ _ _ _ _ (sub_of rfl hs)
    | with_reducible refine State.memAnswer_only ?_ _ _ _ (sub_of rfl hs)
    | with_reducible refine State.modChan_only ?_ _ _ (sub_of rfl hs)
    | with_reducible refine State.noteRead_only ?_ _ _ _ _ _ (sub_of rfl hs)
    | with_reducible refine State.writeLine_only ?_ _ _ _ _ _ (sub_of rfl hs)
    | split
    | (with_reducible refine Only.foldl _ (fun _ _ _ => ?_) _ _ ?_)
    | ((with_reducible apply upd_only); rotate_left; iterate 39 (first | exact Or.inr (by with_reducible rfl) | exact Or.inl (mem_of_sub hs rfl) | exact Or.inl (sub_of rfl hs) | exact Or.inr rfl | exact Or.inr ⟨rfl, rfl⟩ | exact Or.inr ⟨rfl, rfl, rfl⟩))


theorem execMemLineWrite_only (h : Only ps a s) (x0 x1) (hs : sub [.out, .settings, .status, .shadow, .irq, .host, .pads, .counts, .evrQueue, .slots, .kst, .rng, .uci, .mem, .tmp, .bkp, .lci, .sac, .vat, .sch, .ports, .trib, .sc, .sa, .cur, .role, .mte] ps = true) : OnlyR ps a (execMemLineWrite x0 x1 s) := by
  unfold execMemLineWrite
  try dsimp only
  repeat' first
    | with_reducible assumption
    | with_reducible refine idle_only ?_  (sub_of rfl hs)
    | with_reducible refine State.modChan_only ?_ _ _ (sub_of rfl hs)
    | with_reducible refine mateEnd_only ?_  (sub_of rfl hs)
    | with_reducible refine State.doWrite_only ?_ _ _ _ _ _ (sub_of rfl hs)
    | with_reducible refine State.refuseAccess_only ?_ _ _ (sub_of rfl hs)
    | with_reducible refine State.noteParity_only ?_ _ _ (sub_of rfl hs)
    | with_reducible refine finish_only ?_ (sub_of rfl hs)
    | with_reducible refine idle_only ?_
    | split
    | (with_reducible refine Only.foldl _ (fun _ _ _ => ?_) _ _ ?_)
    | ((with_reducible apply upd_only); rotate_left; iterate 39 (first | exact Or.inr (by with_reducible rfl) | exact Or.inl (mem_of_sub hs rfl) | exact Or.inl (sub_of rfl hs) | exact Or.inr rfl | exact Or.inr ⟨rfl, rfl⟩ | exact Or.inr ⟨rfl, rfl, rfl⟩))


theorem State.rewriteLine_only (h : Only ps a s) (x1 x2 x3 x4) (hs : sub [.out, .status, .counts, .mem] ps = true) : Only ps a (State.rewriteLine s x1 x2 x3 x4) := by
  unfold State.rewriteLine
  try dsimp only
  repeat' first
    | with_reducible assumption
    | with_reducible refine State.modChan_only ?_ _ _ (sub_of rfl hs)
    | with_reducible refine State.noteParity_only ?_ _ _ (sub_of rfl hs)
    | with_reducible refine State.storeLine_only ?_ _ _ _ _ _ (sub_of rfl hs)
    | split
    | (with_reducible refine Only.foldl _ (fun _ _ _ => ?_) _ _ ?_)
    | ((with_reducible apply upd_only); rotate_left; iterate 39 (first | exact Or.inr (by with_reducible rfl) | exact Or.inl (mem_of_sub hs rfl) | exact Or.inl (sub_of rfl hs) | exact Or.inr rfl | exact Or.inr ⟨rfl, rfl⟩ | exact Or.inr ⟨rfl, rfl, rfl⟩))


theorem execPageRewriteDone_only (h : Only ps a s) (x0 x1) (hs : sub [.out, .status, .irq, .host, .pads, .counts, .evrQueue, .mem, .sac, .role, .mte] ps = true) : OnlyR ps a (execPageRewriteDone x0 x1 s) := by
  unfold execPageRewriteDone
  try dsimp only
  repeat' first
    | with_reducible assumption
    | with_reducible refine State.countDev_only ?_ _ _ _ _ (sub_of rfl hs)
    | with_reducible refine finish_only ?_  (sub_of rfl hs)
    | with_reducible refine idle_only ?_  (sub_of rfl hs)
    | with_reducible refine State.memAnswer_only ?_ _ _ _ (sub_of rfl hs)
    | with_reducible refine State.modChan_only ?_ _ _ (sub_of rfl hs)
    | with_reducible refine mateEnd_only ?_  (sub_of rfl hs)
    | with_reducible refine State.storeLine_only ?_ _ _ _ _ _ (sub_of rfl hs)
    | with_reducible refine State.rewriteLine_only ?_ _ _ _ _ (sub_of rfl hs)
    | with_reducible refine finish_only ?_ (sub_of rfl hs)
    | with_reducible refine idle_only ?_
    | split
    | (with_reducible refine Only.foldl _ (fun _ _ _ => ?_) _ _ ?_)
    | ((with_reducible apply upd_only); rotate_left; iterate 39 (first | exact Or.inr (by with_reducible rfl) | exact Or.inl (mem_of_sub hs rfl) | exact Or.inl (sub_of rfl hs) | exact Or.inr rfl | exact Or.inr ⟨rfl, rfl⟩ | exact Or.inr ⟨rfl, rfl, rfl⟩))


theorem execMemWriteAck_only (h : Only ps a s) (x0) (hs : sub [.out, .status, .irq, .counts, .evrQueue, .mem, .sac] ps = true) : OnlyR ps a (execMemWriteAck x0 s) := by
  unfold execMemWriteAck
  try dsimp only
  repeat' first
    | with_reducible assumption
    | with_reducible refine finish_only ?_  (sub_of rfl hs)
    | with_reducible refine idle_only ?_  (sub_of rfl hs)
    | with_reducible refine State.memAnswer_only ?_ _ _ _ (sub_of rfl hs)
    | with_reducible refine State.modChan_only ?_ _ _ (sub_of rfl hs)
    | with_reducible refine finish_only ?_ (sub_of rfl hs)
    | with_reducible refine idle_only ?_
    | split
    | (with_reducible refine Only.foldl _ (fun _ _ _ => ?_) _ _ ?_)
    | ((with_reducible apply upd_only); rotate_left; iterate 39 (first | exact Or.inr (by with_reducible rfl) | exact Or.inl (mem_of_sub hs rfl) | exact Or.inl (sub_of rfl hs) | exact Or.inr rfl | exact Or.inr ⟨rfl, rfl⟩ | exact Or.inr ⟨rfl, rfl, rfl⟩))


theorem State.winGo_only (h : Only ps a s) (x1) (hs : sub [.status, .mem] ps = true) : Only ps a (State.winGo s x1) := by
  unfold State.winGo
  try dsimp only
  repeat' first
    | with_reducible assumption
    | with_reducible refine State.setBit_only ?_ _ _ _ (Or.inr (by first | rfl | (simp; done) | decide)) (Or.inl (mem_of_sub hs rfl))
    | with_reducible refine State.modMem_only ?_ _ (sub_of rfl hs)
    | with_reducible refine State.memPush_only ?_ _ (sub_of rfl hs)
    | split
    | (with_reducible refine Only.foldl _ (fun _ _ _ => ?_) _ _ ?_)
    | ((with_reducible apply upd_only); rotate_left; iterate 39 (first | exact Or.inr (by with_reducible rfl) | exact Or.inl (mem_of_sub hs rfl) | exact Or.inl (sub_of rfl hs) | exact Or.inr rfl | exact Or.inr ⟨rfl, rfl⟩ | exact Or.inr ⟨rfl, rfl, rfl⟩))


theorem execMemWindowRead_only (h : Only ps a s) (x0) (hs : sub [.out, .status, .irq, .counts, .evrQueue, .mem] ps = true) : OnlyR ps a (execMemWindowRead x0 s) := by
  unfold execMemWindowRead
  try dsimp only
  repeat' first
    | with_reducible assumption
    | with_reducible refine finish_only ?_  (sub_of rfl hs)
    | with_reducible refine idle_only ?_  (sub_of rfl hs)
    | with_reducible refine State.lockedWrite_only ?_ _ _ _ (sub_of rfl hs)
    | with_reducible refine State.winGo_only ?_ _ (sub_of rfl hs)
    | with_reducible refine finish_only ?_ (sub_of rfl hs)
    | with_reducible refine idle_only ?_
    | split
    | (with_reducible refine Only.foldl _ (fun _ _ _ => ?_) _ _ ?_)
    | ((with_reducible apply upd_only); rotate_left; iterate 39 (first | exact Or.inr (by with_reducible rfl) | exact Or.inl (mem_of_sub hs rfl) | exact Or.inl (sub_of rfl hs) | exact Or.inr rfl | exact Or.inr ⟨rfl, rfl⟩ | exact Or.inr ⟨rfl, rfl, rfl⟩))


theorem execMemWindowWrite_only (h : Only ps a s) (x0) (hs : sub [.out, .status, .irq, .counts, .evrQueue, .mem] ps = true) : OnlyR ps a (execMemWindowWrite x0 s) := by
  unfold execMemWindowWrite
  try dsimp only
  repeat' first
    | with_reducible assumption
    | with_reducible refine finish_only ?_  (sub_of rfl hs)
    | with_reducible refine idle_only ?_  (sub_of rfl hs)
    | with_reducible refine State.lockedWrite_only ?_ _ _ _ (sub_of rfl hs)
    | with_reducible refine State.winGo_only ?_ _ (sub_of rfl hs)
    | with_reducible refine finish_only ?_ (sub_of rfl hs)
    | with_reducible refine idle_only ?_
    | split
    | (with_reducible refine Only.foldl _ (fun _ _ _ => ?_) _ _ ?_)
    | ((with_reducible apply upd_only); rotate_left; iterate 39 (first | exact Or.inr (by with_reducible rfl) | exact Or.inl (mem_of_sub hs rfl) | exact Or.inl (sub_of rfl hs) | exact Or.inr rfl | exact Or.inr ⟨rfl, rfl⟩ | exact Or.inr ⟨rfl, rfl, rfl⟩))


theorem execScrubRead_only (h : Only ps a s) (x0 x1) (hs : sub [.out, .status, .irq, .counts, .evrQueue, .mem] ps = true) : OnlyR ps a (execScrubRead x0 x1 s) := by
  unfold execScrubRead
  try dsimp only
  repeat' first
    | with_reducible assumption
    | with_reducible refine State.countDev_only ?_ _ _ _ _ (sub_of rfl hs)
    | with_reducible refine finish_only ?_  (sub_of rfl hs)
    | with_reducible refine idle_only ?_  (sub_of rfl hs)
    | with_reducible refine State.modChan_only ?_ _ _ (sub_of rfl hs)
    | with_reducible refine State.noteRead_only ?_ _ _ _ _ _ (sub_of rfl hs)
    | with_reducible refine State.noteParity_only ?_ _ _ (sub_of rfl hs)
    | with_reducible refine State.repair_only ?_ _ _ _ _ _ (sub_of rfl hs)
    | with_reducible refine finish_only ?_ (sub_of rfl hs)
    | with_reducible refine idle_only ?_
    | split
    | (with_reducible refine Only.foldl _ (fun _ _ _ => ?_) _ _ ?_)
    | ((with_reducible apply upd_only); rotate_left; iterate 39 (first | exact Or.inr (by with_reducible rfl) | exact Or.inl (mem_of_sub hs rfl) | exact Or.inl (sub_of rfl hs) | exact Or.inr rfl | exact Or.inr ⟨rfl, rfl⟩ | exact Or.inr ⟨rfl, rfl, rfl⟩))


theorem State.debugServe_only (h : Only ps a s) (x1 x2) (hs : sub [.out, .settings, .status, .shadow, .host, .pads, .counts, .evrQueue, .slots, .kst, .rng, .uci, .mem, .tmp, .bkp, .lci, .sac, .vat, .sch, .ports, .trib, .sc, .sa, .cur, .role, .mte] ps = true) : Only ps a (State.debugServe s x1 x2) := by
  unfold State.debugServe
  try dsimp only
  repeat' first
    | with_reducible assumption
    | with_reducible refine State.memAnswer_only ?_ _ _ _ (sub_of rfl hs)
    | with_reducible refine State.tamperFire_only ?_ _ (sub_of rfl hs)
    | with_reducible refine State.noteRead_only ?_ _ _ _ _ _ (sub_of rfl hs)
    | with_reducible refine State.doWrite_only ?_ _ _ _ _ _ (sub_of rfl hs)
    | with_reducible refine State.repair_only ?_ _ _ _ _ _ (sub_of rfl hs)
    | with_reducible refine State.noteParity_only ?_ _ _ (sub_of rfl hs)
    | split
    | (with_reducible refine Only.foldl _ (fun _ _ _ => ?_) _ _ ?_)
    | ((with_reducible apply upd_only); rotate_left; iterate 39 (first | exact Or.inr (by with_reducible rfl) | exact Or.inl (mem_of_sub hs rfl) | exact Or.inl (sub_of rfl hs) | exact Or.inr rfl | exact Or.inr ⟨rfl, rfl⟩ | exact Or.inr ⟨rfl, rfl, rfl⟩))


theorem execDebugAccess_only (h : Only ps a s) (x0 x1 x2) (hs : sub [.out, .settings, .status, .shadow, .irq, .host, .pads, .counts, .evrQueue, .slots, .kst, .rng, .uci, .mem, .tmp, .bkp, .lci, .sac, .vat, .sch, .ports, .trib, .sc, .sa, .cur, .role, .mte] ps = true) : OnlyR ps a (execDebugAccess x0 x1 x2 s) := by
  unfold execDebugAccess
  try dsimp only
  repeat' first
    | with_reducible assumption
    | with_reducible refine idle_only ?_  (sub_of rfl hs)
    | with_reducible refine mateEnd_only ?_  (sub_of rfl hs)
    | with_reducible refine State.debugServe_only ?_ _ _ (sub_of rfl hs)
    | with_reducible refine State.refuseAccess_only ?_ _ _ (sub_of rfl hs)
    | with_reducible refine finish_only ?_ (sub_of rfl hs)
    | with_reducible refine idle_only ?_
    | split
    | (with_reducible refine Only.foldl _ (fun _ _ _ => ?_) _ _ ?_)
    | ((with_reducible apply upd_only); rotate_left; iterate 39 (first | exact Or.inr (by with_reducible rfl) | exact Or.inl (mem_of_sub hs rfl) | exact Or.inl (sub_of rfl hs) | exact Or.inr rfl | exact Or.inr ⟨rfl, rfl⟩ | exact Or.inr ⟨rfl, rfl, rfl⟩))


end Sys2Proof.Machine
end

