-- ==== Sys2Proof/Laws/OnlyKst.lean ====
section
/-! SUPPORT. What each operation of Machine/Kst.lean may change. -/

set_option linter.unusedTactic false
set_option linter.unreachableTactic false
set_option linter.unusedVariables false
set_option linter.unusedSimpArgs false

namespace Sys2Proof.Machine

variable {ps : List Area} {a s : State}

theorem State.drawFor_only (h : Only ps a s) (x1 x2 x3) (hs : sub [.out, .host, .pads, .counts, .evrQueue, .slots, .kst, .rng, .uci, .mem, .line, .cur, .role, .mte] ps = true) : Only ps a (State.drawFor s x1 x2 x3) := by
  unfold State.drawFor
  try dsimp only
  repeat' first
    | with_reducible assumption
    | with_reducible refine State.rngDeliver_only ?_ _ _ (sub_of rfl hs)
    | with_reducible refine State.rngAsk_only ?_ _ _ _ (sub_of rfl hs)
    | with_reducible refine State.rngAsk_only_of (by assumption) ?_ (sub_of rfl hs)
    | with_reducible refine State.rngRefuse_only ?_ _ (sub_of rfl hs)
    | split
    | (with_reducible refine Only.foldl _ (fun _ _ _ => ?_) _ _ ?_)
    | ((with_reducible apply upd_only); rotate_left; iterate 39 (first | exact Or.inr (by with_reducible rfl) | exact Or.inl (mem_of_sub hs rfl) | exact Or.inl (sub_of rfl hs) | exact Or.inr rfl | exact Or.inr ⟨rfl, rfl⟩ | exact Or.inr ⟨rfl, rfl, rfl⟩))


theorem State.runKwrapin_only (h : Only ps a s) (x1 x2) (hs : sub [.out, .host, .pads, .counts, .evrQueue, .slots, .kst, .rng, .uci, .mem, .line, .cur, .role, .mte] ps = true) : Only ps a (State.runKwrapin s x1 x2) := by
  unfold State.runKwrapin
  try dsimp only
  repeat' first
    | with_reducible assumption
    | with_reducible refine State.complete_only ?_ _ _ _ _ _ _ (sub_of rfl hs)
    | with_reducible refine State.kstStart_only ?_ _ _ _ (sub_of rfl hs)
    | with_reducible refine State.kstStart_only_of (by assumption) ?_ (sub_of rfl hs)
    | with_reducible refine State.drawFor_only ?_ _ _ _ (sub_of rfl hs)
    | split
    | (with_reducible refine Only.foldl _ (fun _ _ _ => ?_) _ _ ?_)
    | ((with_reducible apply upd_only); rotate_left; iterate 39 (first | exact Or.inr (by with_reducible rfl) | exact Or.inl (mem_of_sub hs rfl) | exact Or.inl (sub_of rfl hs) | exact Or.inr rfl | exact Or.inr ⟨rfl, rfl⟩ | exact Or.inr ⟨rfl, rfl, rfl⟩))


theorem execKwrapin_only (h : Only ps a s) (x0) (hs : sub [.out, .irq, .host, .pads, .counts, .evrQueue, .slots, .kst, .rng, .uci, .mem, .line, .cur, .role, .mte] ps = true) : OnlyR ps a (execKwrapin x0 s) := by
  unfold execKwrapin
  try dsimp only
  repeat' first
    | with_reducible assumption
    | ((with_reducible refine State.issueKey_only ?_ _ _ _ _ (fun _ _ _ _ => ?_) (sub_of rfl hs)); rotate_left)
    | with_reducible refine State.runKwrapin_only ?_ _ _ (sub_of rfl hs)
    | with_reducible refine finish_only ?_ (sub_of rfl hs)
    | with_reducible refine idle_only ?_
    | split
    | (with_reducible refine Only.foldl _ (fun _ _ _ => ?_) _ _ ?_)
    | ((with_reducible apply upd_only); rotate_left; iterate 39 (first | exact Or.inr (by with_reducible rfl) | exact Or.inl (mem_of_sub hs rfl) | exact Or.inl (sub_of rfl hs) | exact Or.inr rfl | exact Or.inr ⟨rfl, rfl⟩ | exact Or.inr ⟨rfl, rfl, rfl⟩))


theorem State.runKstageWrapped_only (h : Only ps a s) (x1 x2) (hs : sub [.counts, .evrQueue, .slots, .cur] ps = true) : Only ps a (State.runKstageWrapped s x1 x2) := by
  unfold State.runKstageWrapped
  try dsimp only
  repeat' first
    | with_reducible assumption
    | with_reducible refine State.complete_only ?_ _ _ _ _ _ _ (sub_of rfl hs)
    | with_reducible refine State.endStage_only ?_ _ _ _ _ _ (sub_of rfl hs)
    | split
    | (with_reducible refine Only.foldl _ (fun _ _ _ => ?_) _ _ ?_)
    | ((with_reducible apply upd_only); rotate_left; iterate 39 (first | exact Or.inr (by with_reducible rfl) | exact Or.inl (mem_of_sub hs rfl) | exact Or.inl (sub_of rfl hs) | exact Or.inr rfl | exact Or.inr ⟨rfl, rfl⟩ | exact Or.inr ⟨rfl, rfl, rfl⟩))


theorem execKstageWrapped_only (h : Only ps a s) (x0) (hs : sub [.out, .irq, .counts, .evrQueue, .slots, .cur] ps = true) : OnlyR ps a (execKstageWrapped x0 s) := by
  unfold execKstageWrapped
  try dsimp only
  repeat' first
    | with_reducible assumption
    | ((with_reducible refine State.issueKey_only ?_ _ _ _ _ (fun _ _ _ _ => ?_) (sub_of rfl hs)); rotate_left)
    | with_reducible refine State.runKstageWrapped_only ?_ _ _ (sub_of rfl hs)
    | with_reducible refine finish_only ?_ (sub_of rfl hs)
    | with_reducible refine idle_only ?_
    | split
    | (with_reducible refine Only.foldl _ (fun _ _ _ => ?_) _ _ ?_)
    | ((with_reducible apply upd_only); rotate_left; iterate 39 (first | exact Or.inr (by with_reducible rfl) | exact Or.inl (mem_of_sub hs rfl) | exact Or.inl (sub_of rfl hs) | exact Or.inr rfl | exact Or.inr ⟨rfl, rfl⟩ | exact Or.inr ⟨rfl, rfl, rfl⟩))


theorem State.runKstageRng_only (h : Only ps a s) (x1 x2) (hs : sub [.out, .host, .pads, .counts, .evrQueue, .slots, .kst, .rng, .uci, .mem, .line, .cur, .role, .mte] ps = true) : Only ps a (State.runKstageRng s x1 x2) := by
  unfold State.runKstageRng
  try dsimp only
  repeat' first
    | with_reducible assumption
    | with_reducible refine State.complete_only ?_ _ _ _ _ _ _ (sub_of rfl hs)
    | with_reducible refine State.kstStart_only ?_ _ _ _ (sub_of rfl hs)
    | with_reducible refine State.kstStart_only_of (by assumption) ?_ (sub_of rfl hs)
    | with_reducible refine State.drawFor_only ?_ _ _ _ (sub_of rfl hs)
    | split
    | (with_reducible refine Only.foldl _ (fun _ _ _ => ?_) _ _ ?_)
    | ((with_reducible apply upd_only); rotate_left; iterate 39 (first | exact Or.inr (by with_reducible rfl) | exact Or.inl (mem_of_sub hs rfl) | exact Or.inl (sub_of rfl hs) | exact Or.inr rfl | exact Or.inr ⟨rfl, rfl⟩ | exact Or.inr ⟨rfl, rfl, rfl⟩))


theorem execKstageRng_only (h : Only ps a s) (x0) (hs : sub [.out, .irq, .host, .pads, .counts, .evrQueue, .slots, .kst, .rng, .uci, .mem, .line, .cur, .role, .mte] ps = true) : OnlyR ps a (execKstageRng x0 s) := by
  unfold execKstageRng
  try dsimp only
  repeat' first
    | with_reducible assumption
    | ((with_reducible refine State.issueKey_only ?_ _ _ _ _ (fun _ _ _ _ => ?_) (sub_of rfl hs)); rotate_left)
    | with_reducible refine State.runKstageRng_only ?_ _ _ (sub_of rfl hs)
    | with_reducible refine finish_only ?_ (sub_of rfl hs)
    | with_reducible refine idle_only ?_
    | split
    | (with_reducible refine Only.foldl _ (fun _ _ _ => ?_) _ _ ?_)
    | ((with_reducible apply upd_only); rotate_left; iterate 39 (first | exact Or.inr (by with_reducible rfl) | exact Or.inl (mem_of_sub hs rfl) | exact Or.inl (sub_of rfl hs) | exact Or.inr rfl | exact Or.inr ⟨rfl, rfl⟩ | exact Or.inr ⟨rfl, rfl, rfl⟩))


theorem State.runKcommit_only (h : Only ps a s) (x1 x2) (hs : sub [.counts, .evrQueue, .slots, .kst, .cur] ps = true) : Only ps a (State.runKcommit s x1 x2) := by
  unfold State.runKcommit
  try dsimp only
  repeat' first
    | with_reducible assumption
    | with_reducible refine State.setSlot_only ?_ _ _ (sub_of rfl hs)
    | with_reducible refine State.complete_only ?_ _ _ _ _ _ _ (sub_of rfl hs)
    | with_reducible refine State.kstStart_only ?_ _ _ _ (sub_of rfl hs)
    | with_reducible refine State.kstStart_only_of (by assumption) ?_ (sub_of rfl hs)
    | with_reducible refine State.installSlot_only ?_ _ _ (sub_of rfl hs)
    | split
    | (with_reducible refine Only.foldl _ (fun _ _ _ => ?_) _ _ ?_)
    | ((with_reducible apply upd_only); rotate_left; iterate 39 (first | exact Or.inr (by with_reducible rfl) | exact Or.inl (mem_of_sub hs rfl) | exact Or.inl (sub_of rfl hs) | exact Or.inr rfl | exact Or.inr ⟨rfl, rfl⟩ | exact Or.inr ⟨rfl, rfl, rfl⟩))


theorem execKcommit_only (h : Only ps a s) (x0) (hs : sub [.out, .irq, .counts, .evrQueue, .slots, .kst, .cur] ps = true) : OnlyR ps a (execKcommit x0 s) := by
  unfold execKcommit
  try dsimp only
  repeat' first
    | with_reducible assumption
    | ((with_reducible refine State.issueKey_only ?_ _ _ _ _ (fun _ _ _ _ => ?_) (sub_of rfl hs)); rotate_left)
    | with_reducible refine State.runKcommit_only ?_ _ _ (sub_of rfl hs)
    | with_reducible refine finish_only ?_ (sub_of rfl hs)
    | with_reducible refine idle_only ?_
    | split
    | (with_reducible refine Only.foldl _ (fun _ _ _ => ?_) _ _ ?_)
    | ((with_reducible apply upd_only); rotate_left; iterate 39 (first | exact Or.inr (by with_reducible rfl) | exact Or.inl (mem_of_sub hs rfl) | exact Or.inl (sub_of rfl hs) | exact Or.inr rfl | exact Or.inr ⟨rfl, rfl⟩ | exact Or.inr ⟨rfl, rfl, rfl⟩))


theorem State.runKinval_only (h : Only ps a s) (x1 x2) (hs : sub [.counts, .evrQueue, .slots, .kst, .cur] ps = true) : Only ps a (State.runKinval s x1 x2) := by
  unfold State.runKinval
  try dsimp only
  repeat' first
    | with_reducible assumption
    | with_reducible refine State.setSlot_only ?_ _ _ (sub_of rfl hs)
    | ((with_reducible refine State.modKst_only ?_ _ ?_ ?_); rotate_left; (first | exact Or.inl (mem_of_sub hs rfl) | exact Or.inr (fun _ => rfl)); (first | exact Or.inl (mem_of_sub hs rfl) | exact Or.inr (fun _ => rfl) | exact Or.inr (fun _ => ⟨rfl, rfl⟩) | exact Or.inr (fun _ => ⟨rfl, rfl, rfl⟩)))
    | with_reducible refine State.complete_only ?_ _ _ _ _ _ _ (sub_of rfl hs)
    | with_reducible refine State.accept_only ?_ _ (sub_of rfl hs)
    | split
    | (with_reducible refine Only.foldl _ (fun _ _ _ => ?_) _ _ ?_)
    | ((with_reducible apply upd_only); rotate_left; iterate 39 (first | exact Or.inr (by with_reducible rfl) | exact Or.inl (mem_of_sub hs rfl) | exact Or.inl (sub_of rfl hs) | exact Or.inr rfl | exact Or.inr ⟨rfl, rfl⟩ | exact Or.inr ⟨rfl, rfl, rfl⟩))


theorem execKinval_only (h : Only ps a s) (x0) (hs : sub [.out, .irq, .counts, .evrQueue, .slots, .kst, .cur] ps = true) : OnlyR ps a (execKinval x0 s) := by
  unfold execKinval
  try dsimp only
  repeat' first
    | with_reducible assumption
    | ((with_reducible refine State.issueKey_only ?_ _ _ _ _ (fun _ _ _ _ => ?_) (sub_of rfl hs)); rotate_left)
    | with_reducible refine State.runKinval_only ?_ _ _ (sub_of rfl hs)
    | with_reducible refine finish_only ?_ (sub_of rfl hs)
    | with_reducible refine idle_only ?_
    | split
    | (with_reducible refine Only.foldl _ (fun _ _ _ => ?_) _ _ ?_)
    | ((with_reducible apply upd_only); rotate_left; iterate 39 (first | exact Or.inr (by with_reducible rfl) | exact Or.inl (mem_of_sub hs rfl) | exact Or.inl (sub_of rfl hs) | exact Or.inr rfl | exact Or.inr ⟨rfl, rfl⟩ | exact Or.inr ⟨rfl, rfl, rfl⟩))


theorem State.resumeLoads_only (h : Only ps a s) (hs : sub [.out, .status, .host, .pads, .counts, .evrQueue, .slots, .kst, .rng, .uci, .mem, .line, .sac, .cur, .role, .mte] ps = true) : Only ps a (State.resumeLoads s) := by
  unfold State.resumeLoads
  try dsimp only
  repeat' first
    | with_reducible assumption
    | with_reducible refine State.uciBegin_only ?_ _ _ (sub_of rfl hs)
    | with_reducible refine State.regionBegin_only ?_ _ _ (sub_of rfl hs)
    | split
    | (with_reducible refine Only.foldl _ (fun _ _ _ => ?_) _ _ ?_)
    | ((with_reducible apply upd_only); rotate_left; iterate 39 (first | exact Or.inr (by with_reducible rfl) | exact Or.inl (mem_of_sub hs rfl) | exact Or.inl (sub_of rfl hs) | exact Or.inr rfl | exact Or.inr ⟨rfl, rfl⟩ | exact Or.inr ⟨rfl, rfl, rfl⟩))


theorem State.publish_only (h : Only ps a s) (x1) (hs : sub [.out, .status, .host, .pads, .counts, .evrQueue, .slots, .kst, .rng, .uci, .mem, .line, .lci, .sac, .sch, .trib, .cur, .role, .mte] ps = true) : Only ps a (State.publish s x1) := by
  unfold State.publish
  try dsimp only
  repeat' first
    | with_reducible assumption
    | ((with_reducible refine State.modKst_only ?_ _ ?_ ?_); rotate_left; (first | exact Or.inl (mem_of_sub hs rfl) | exact Or.inr (fun _ => rfl)); (first | exact Or.inl (mem_of_sub hs rfl) | exact Or.inr (fun _ => rfl) | exact Or.inr (fun _ => ⟨rfl, rfl⟩) | exact Or.inr (fun _ => ⟨rfl, rfl, rfl⟩)))
    | with_reducible refine State.modUci_only ?_ _ (sub_of rfl hs)
    | with_reducible refine State.queueTomb_only ?_ _ (sub_of rfl hs)
    | with_reducible refine State.settleInvals_only ?_  (sub_of rfl hs)
    | with_reducible refine State.lknEraseWhere_only ?_ _ _ _ (sub_of rfl hs)
    | with_reducible refine State.rgnEraseWhere_only ?_ _ _ (sub_of rfl hs)
    | with_reducible refine State.dropOrphans_only ?_  (sub_of rfl hs)
    | with_reducible refine State.resumeLoads_only ?_  (sub_of rfl hs)
    | split
    | (with_reducible refine Only.foldl _ (fun _ _ _ => ?_) _ _ ?_)
    | ((with_reducible apply upd_only); rotate_left; iterate 39 (first | exact Or.inr (by with_reducible rfl) | exact Or.inl (mem_of_sub hs rfl) | exact Or.inl (sub_of rfl hs) | exact Or.inr rfl | exact Or.inr ⟨rfl, rfl⟩ | exact Or.inr ⟨rfl, rfl, rfl⟩))


theorem execKinvalPublish_only (h : Only ps a s) (hs : sub [.out, .status, .irq, .host, .pads, .counts, .evrQueue, .slots, .kst, .rng, .uci, .mem, .line, .lci, .sac, .sch, .trib, .cur, .role, .mte] ps = true) : OnlyR ps a (execKinvalPublish s) := by
  unfold execKinvalPublish
  try dsimp only
  repeat' first
    | with_reducible assumption
    | with_reducible refine idle_only ?_  (sub_of rfl hs)
    | with_reducible refine mateEnd_only ?_  (sub_of rfl hs)
    | with_reducible refine State.publish_only ?_ _ (sub_of rfl hs)
    | with_reducible refine finish_only ?_ (sub_of rfl hs)
    | with_reducible refine idle_only ?_
    | split
    | (with_reducible refine Only.foldl _ (fun _ _ _ => ?_) _ _ ?_)
    | ((with_reducible apply upd_only); rotate_left; iterate 39 (first | exact Or.inr (by with_reducible rfl) | exact Or.inl (mem_of_sub hs rfl) | exact Or.inl (sub_of rfl hs) | exact Or.inr rfl | exact Or.inr ⟨rfl, rfl⟩ | exact Or.inr ⟨rfl, rfl, rfl⟩))


theorem execSlotInvalidationDone_only (h : Only ps a s) (x0) (hs : sub [.out, .irq, .counts, .evrQueue, .slots, .kst, .cur] ps = true) : OnlyR ps a (execSlotInvalidationDone x0 s) := by
  unfold execSlotInvalidationDone
  try dsimp only
  repeat' first
    | with_reducible assumption
    | with_reducible refine idle_only ?_  (sub_of rfl hs)
    | with_reducible refine State.setSlot_only ?_ _ _ (sub_of rfl hs)
    | with_reducible refine finish_only ?_  (sub_of rfl hs)
    | with_reducible refine State.settleInvals_only ?_  (sub_of rfl hs)
    | with_reducible refine finish_only ?_ (sub_of rfl hs)
    | with_reducible refine idle_only ?_
    | split
    | (with_reducible refine Only.foldl _ (fun _ _ _ => ?_) _ _ ?_)
    | ((with_reducible apply upd_only); rotate_left; iterate 39 (first | exact Or.inr (by with_reducible rfl) | exact Or.inl (mem_of_sub hs rfl) | exact Or.inl (sub_of rfl hs) | exact Or.inr rfl | exact Or.inr ⟨rfl, rfl⟩ | exact Or.inr ⟨rfl, rfl, rfl⟩))


theorem State.runKderive_only (h : Only ps a s) (x1 x2) (hs : sub [.counts, .evrQueue, .kst, .cur] ps = true) : Only ps a (State.runKderive s x1 x2) := by
  unfold State.runKderive
  try dsimp only
  repeat' first
    | with_reducible assumption
    | with_reducible refine State.complete_only ?_ _ _ _ _ _ _ (sub_of rfl hs)
    | with_reducible refine State.kstStart_only ?_ _ _ _ (sub_of rfl hs)
    | with_reducible refine State.kstStart_only_of (by assumption) ?_ (sub_of rfl hs)
    | split
    | (with_reducible refine Only.foldl _ (fun _ _ _ => ?_) _ _ ?_)
    | ((with_reducible apply upd_only); rotate_left; iterate 39 (first | exact Or.inr (by with_reducible rfl) | exact Or.inl (mem_of_sub hs rfl) | exact Or.inl (sub_of rfl hs) | exact Or.inr rfl | exact Or.inr ⟨rfl, rfl⟩ | exact Or.inr ⟨rfl, rfl, rfl⟩))


theorem execKderive_only (h : Only ps a s) (x0) (hs : sub [.out, .irq, .counts, .evrQueue, .kst, .cur] ps = true) : OnlyR ps a (execKderive x0 s) := by
  unfold execKderive
  try dsimp only
  repeat' first
    | with_reducible assumption
    | ((with_reducible refine State.issueKey_only ?_ _ _ _ _ (fun _ _ _ _ => ?_) (sub_of rfl hs)); rotate_left)
    | with_reducible refine State.runKderive_only ?_ _ _ (sub_of rfl hs)
    | with_reducible refine finish_only ?_ (sub_of rfl hs)
    | with_reducible refine idle_only ?_
    | split
    | (with_reducible refine Only.foldl _ (fun _ _ _ => ?_) _ _ ?_)
    | ((with_reducible apply upd_only); rotate_left; iterate 39 (first | exact Or.inr (by with_reducible rfl) | exact Or.inl (mem_of_sub hs rfl) | exact Or.inl (sub_of rfl hs) | exact Or.inr rfl | exact Or.inr ⟨rfl, rfl⟩ | exact Or.inr ⟨rfl, rfl, rfl⟩))


theorem State.runAttest_only (h : Only ps a s) (x1 x2) (hs : sub [.out, .host, .pads, .counts, .evrQueue, .slots, .kst, .rng, .uci, .mem, .line, .cur, .role, .mte] ps = true) : Only ps a (State.runAttest s x1 x2) := by
  unfold State.runAttest
  try dsimp only
  repeat' first
    | with_reducible assumption
    | with_reducible refine State.complete_only ?_ _ _ _ _ _ _ (sub_of rfl hs)
    | with_reducible refine State.kstStart_only ?_ _ _ _ (sub_of rfl hs)
    | with_reducible refine State.kstStart_only_of (by assumption) ?_ (sub_of rfl hs)
    | with_reducible refine State.drawFor_only ?_ _ _ _ (sub_of rfl hs)
    | split
    | (with_reducible refine Only.foldl _ (fun _ _ _ => ?_) _ _ ?_)
    | ((with_reducible apply upd_only); rotate_left; iterate 39 (first | exact Or.inr (by with_reducible rfl) | exact Or.inl (mem_of_sub hs rfl) | exact Or.inl (sub_of rfl hs) | exact Or.inr rfl | exact Or.inr ⟨rfl, rfl⟩ | exact Or.inr ⟨rfl, rfl, rfl⟩))


theorem execAttest_only (h : Only ps a s) (x0) (hs : sub [.out, .irq, .host, .pads, .counts, .evrQueue, .slots, .kst, .rng, .uci, .mem, .line, .cur, .role, .mte] ps = true) : OnlyR ps a (execAttest x0 s) := by
  unfold execAttest
  try dsimp only
  repeat' first
    | with_reducible assumption
    | ((with_reducible refine State.issueKey_only ?_ _ _ _ _ (fun _ _ _ _ => ?_) (sub_of rfl hs)); rotate_left)
    | with_reducible refine State.runAttest_only ?_ _ _ (sub_of rfl hs)
    | with_reducible refine finish_only ?_ (sub_of rfl hs)
    | with_reducible refine idle_only ?_
    | split
    | (with_reducible refine Only.foldl _ (fun _ _ _ => ?_) _ _ ?_)
    | ((with_reducible apply upd_only); rotate_left; iterate 39 (first | exact Or.inr (by with_reducible rfl) | exact Or.inl (mem_of_sub hs rfl) | exact Or.inl (sub_of rfl hs) | exact Or.inr rfl | exact Or.inr ⟨rfl, rfl⟩ | exact Or.inr ⟨rfl, rfl, rfl⟩))


theorem State.endInstall_only (h : Only ps a s) (x1 x2 x3) (hs : sub [.counts, .evrQueue, .slots, .kst, .cur] ps = true) : Only ps a (State.endInstall s x1 x2 x3) := by
  unfold State.endInstall
  try dsimp only
  repeat' first
    | with_reducible assumption
    | with_reducible refine State.complete_only ?_ _ _ _ _ _ _ (sub_of rfl hs)
    | with_reducible refine State.installSlot_only ?_ _ _ (sub_of rfl hs)
    | split
    | (with_reducible refine Only.foldl _ (fun _ _ _ => ?_) _ _ ?_)
    | ((with_reducible apply upd_only); rotate_left; iterate 39 (first | exact Or.inr (by with_reducible rfl) | exact Or.inl (mem_of_sub hs rfl) | exact Or.inl (sub_of rfl hs) | exact Or.inr rfl | exact Or.inr ⟨rfl, rfl⟩ | exact Or.inr ⟨rfl, rfl, rfl⟩))


theorem State.endJob_only (h : Only ps a s) (x1 x2) (hs : sub [.out, .counts, .evrQueue, .slots, .kst, .cur] ps = true) : Only ps a (State.endJob s x1 x2) := by
  unfold State.endJob
  try dsimp only
  repeat' first
    | with_reducible assumption
    | ((with_reducible refine State.modKst_only ?_ _ ?_ ?_); rotate_left; (first | exact Or.inl (mem_of_sub hs rfl) | exact Or.inr (fun _ => rfl)); (first | exact Or.inl (mem_of_sub hs rfl) | exact Or.inr (fun _ => rfl) | exact Or.inr (fun _ => ⟨rfl, rfl⟩) | exact Or.inr (fun _ => ⟨rfl, rfl, rfl⟩)))
    | with_reducible refine State.hostWrite_only ?_ _ _ _ (sub_of rfl hs)
    | with_reducible refine State.complete_only ?_ _ _ _ _ _ _ (sub_of rfl hs)
    | with_reducible refine State.endDrawnStage_only ?_ _ _ (sub_of rfl hs)
    | with_reducible refine State.endInstall_only ?_ _ _ _ (sub_of rfl hs)
    | split
    | (with_reducible refine Only.foldl _ (fun _ _ _ => ?_) _ _ ?_)
    | ((with_reducible apply upd_only); rotate_left; iterate 39 (first | exact Or.inr (by with_reducible rfl) | exact Or.inl (mem_of_sub hs rfl) | exact Or.inl (sub_of rfl hs) | exact Or.inr rfl | exact Or.inr ⟨rfl, rfl⟩ | exact Or.inr ⟨rfl, rfl, rfl⟩))


theorem execKstOpComplete_only (h : Only ps a s) (x0 x1) (hs : sub [.out, .irq, .counts, .evrQueue, .slots, .kst, .cur] ps = true) : OnlyR ps a (execKstOpComplete x0 x1 s) := by
  unfold execKstOpComplete
  try dsimp only
  repeat' first
    | with_reducible assumption
    | with_reducible refine idle_only ?_  (sub_of rfl hs)
    | ((with_reducible refine State.modKst_only ?_ _ ?_ ?_); rotate_left; (first | exact Or.inl (mem_of_sub hs rfl) | exact Or.inr (fun _ => rfl)); (first | exact Or.inl (mem_of_sub hs rfl) | exact Or.inr (fun _ => rfl) | exact Or.inr (fun _ => ⟨rfl, rfl⟩) | exact Or.inr (fun _ => ⟨rfl, rfl, rfl⟩)))
    | with_reducible refine finish_only ?_  (sub_of rfl hs)
    | with_reducible refine State.endJob_only ?_ _ _ (sub_of rfl hs)
    | with_reducible refine finish_only ?_ (sub_of rfl hs)
    | with_reducible refine idle_only ?_
    | split
    | (with_reducible refine Only.foldl _ (fun _ _ _ => ?_) _ _ ?_)
    | ((with_reducible apply upd_only); rotate_left; iterate 39 (first | exact Or.inr (by with_reducible rfl) | exact Or.inl (mem_of_sub hs rfl) | exact Or.inl (sub_of rfl hs) | exact Or.inr rfl | exact Or.inr ⟨rfl, rfl⟩ | exact Or.inr ⟨rfl, rfl, rfl⟩))


theorem State.lcAdvance_only (h : Only ps a s) (hs : sub [.out, .status, .counts, .evrQueue, .slots, .kst, .uci, .mem, .lci, .sac, .vat, .sch, .trib, .sc, .sa, .cur, .mte] ps = true) : Only ps a (State.lcAdvance s) := by
  unfold State.lcAdvance
  try dsimp only
  repeat' first
    | with_reducible assumption
    | ((with_reducible refine State.modKst_only ?_ _ ?_ ?_); rotate_left; (first | exact Or.inl (mem_of_sub hs rfl) | exact Or.inr (fun _ => rfl)); (first | exact Or.inl (mem_of_sub hs rfl) | exact Or.inr (fun _ => rfl) | exact Or.inr (fun _ => ⟨rfl, rfl⟩) | exact Or.inr (fun _ => ⟨rfl, rfl, rfl⟩)))
    | with_reducible refine State.retireEpoch_only ?_ _ (sub_of rfl hs)
    | with_reducible refine State.zeroErase_only ?_  (sub_of rfl hs)
    | split
    | (with_reducible refine Only.foldl _ (fun _ _ _ => ?_) _ _ ?_)
    | ((with_reducible apply upd_only); rotate_left; iterate 39 (first | exact Or.inr (by with_reducible rfl) | exact Or.inl (mem_of_sub hs rfl) | exact Or.inl (sub_of rfl hs) | exact Or.inr rfl | exact Or.inr ⟨rfl, rfl⟩ | exact Or.inr ⟨rfl, rfl, rfl⟩))


theorem State.lcTarget_only (h : Only ps a s) (x1) (hs : sub [.settings, .kst] ps = true) : Only ps a (State.lcTarget s x1) := by
  unfold State.lcTarget
  try dsimp only
  repeat' first
    | with_reducible assumption
    | with_reducible refine State.setReg_only ?_ _ _ (Or.inr (by first | rfl | (simp; done) | decide)) (Or.inl (mem_of_sub hs rfl))
    | with_reducible refine State.setReg_only ?_ _ _ (Or.inl (mem_of_sub hs rfl)) (Or.inr (by first | rfl | (simp; done) | decide))
    | with_reducible refine State.setReg_only ?_ _ _ (Or.inl (mem_of_sub hs rfl)) (Or.inl (mem_of_sub hs rfl))
    | ((with_reducible refine State.modKst_only ?_ _ ?_ ?_); rotate_left; (first | exact Or.inl (mem_of_sub hs rfl) | exact Or.inr (fun _ => rfl)); (first | exact Or.inl (mem_of_sub hs rfl) | exact Or.inr (fun _ => rfl) | exact Or.inr (fun _ => ⟨rfl, rfl⟩) | exact Or.inr (fun _ => ⟨rfl, rfl, rfl⟩)))
    | split
    | (with_reducible refine Only.foldl _ (fun _ _ _ => ?_) _ _ ?_)
    | ((with_reducible apply upd_only); rotate_left; iterate 39 (first | exact Or.inr (by with_reducible rfl) | exact Or.inl (mem_of_sub hs rfl) | exact Or.inl (sub_of rfl hs) | exact Or.inr rfl | exact Or.inr ⟨rfl, rfl⟩ | exact Or.inr ⟨rfl, rfl, rfl⟩))


theorem execLcTargetWrite_only (h : Only ps a s) (x0 x1) (hs : sub [.out, .settings, .irq, .counts, .evrQueue, .kst] ps = true) : OnlyR ps a (execLcTargetWrite x0 x1 s) := by
  unfold execLcTargetWrite
  try dsimp only
  repeat' first
    | with_reducible assumption
    | with_reducible refine idle_only ?_  (sub_of rfl hs)
    | with_reducible refine State.lockedWrite_only ?_ _ _ _ (sub_of rfl hs)
    | with_reducible refine finish_only ?_  (sub_of rfl hs)
    | with_reducible refine State.lcTarget_only ?_ _ (sub_of rfl hs)
    | with_reducible refine finish_only ?_ (sub_of rfl hs)
    | with_reducible refine idle_only ?_
    | split
    | (with_reducible refine Only.foldl _ (fun _ _ _ => ?_) _ _ ?_)
    | ((with_reducible apply upd_only); rotate_left; iterate 39 (first | exact Or.inr (by with_reducible rfl) | exact Or.inl (mem_of_sub hs rfl) | exact Or.inl (sub_of rfl hs) | exact Or.inr rfl | exact Or.inr ⟨rfl, rfl⟩ | exact Or.inr ⟨rfl, rfl, rfl⟩))


theorem execLcWindowExpire_only (h : Only ps a s) (hs : sub [.out, .irq, .counts, .evrQueue, .kst] ps = true) : OnlyR ps a (execLcWindowExpire s) := by
  unfold execLcWindowExpire
  try dsimp only
  repeat' first
    | with_reducible assumption
    | with_reducible refine idle_only ?_  (sub_of rfl hs)
    | ((with_reducible refine State.modKst_only ?_ _ ?_ ?_); rotate_left; (first | exact Or.inl (mem_of_sub hs rfl) | exact Or.inr (fun _ => rfl)); (first | exact Or.inl (mem_of_sub hs rfl) | exact Or.inr (fun _ => rfl) | exact Or.inr (fun _ => ⟨rfl, rfl⟩) | exact Or.inr (fun _ => ⟨rfl, rfl, rfl⟩)))
    | with_reducible refine finish_only ?_  (sub_of rfl hs)
    | with_reducible refine finish_only ?_ (sub_of rfl hs)
    | with_reducible refine idle_only ?_
    | split
    | (with_reducible refine Only.foldl _ (fun _ _ _ => ?_) _ _ ?_)
    | ((with_reducible apply upd_only); rotate_left; iterate 39 (first | exact Or.inr (by with_reducible rfl) | exact Or.inl (mem_of_sub hs rfl) | exact Or.inl (sub_of rfl hs) | exact Or.inr rfl | exact Or.inr ⟨rfl, rfl⟩ | exact Or.inr ⟨rfl, rfl, rfl⟩))


theorem State.lcGo_only (h : Only ps a s) (x1) (hs : sub [.out, .status, .counts, .evrQueue, .slots, .kst, .rng, .uci, .mem, .tmp, .bkp, .lci, .sac, .vat, .sch, .trib, .sc, .sa, .cur, .mte] ps = true) : Only ps a (State.lcGo s x1) := by
  unfold State.lcGo
  try dsimp only
  repeat' first
    | with_reducible assumption
    | with_reducible refine State.setBit_only ?_ _ _ _ (Or.inr (by first | rfl | (simp; done) | decide)) (Or.inl (mem_of_sub hs rfl))
    | with_reducible refine State.modRng_only ?_ _ (sub_of rfl hs)
    | ((with_reducible refine State.modKst_only ?_ _ ?_ ?_); rotate_left; (first | exact Or.inl (mem_of_sub hs rfl) | exact Or.inr (fun _ => rfl)); (first | exact Or.inl (mem_of_sub hs rfl) | exact Or.inr (fun _ => rfl) | exact Or.inr (fun _ => ⟨rfl, rfl⟩) | exact Or.inr (fun _ => ⟨rfl, rfl, rfl⟩)))
    | with_reducible refine State.logAppend_only ?_ _ _ _ _ _ _ _ (sub_of rfl hs)
    | with_reducible refine State.lcAdvance_only ?_  (sub_of rfl hs)
    | split
    | (with_reducible refine Only.foldl _ (fun _ _ _ => ?_) _ _ ?_)
    | ((with_reducible apply upd_only); rotate_left; iterate 39 (first | exact Or.inr (by with_reducible rfl) | exact Or.inl (mem_of_sub hs rfl) | exact Or.inl (sub_of rfl hs) | exact Or.inr rfl | exact Or.inr ⟨rfl, rfl⟩ | exact Or.inr ⟨rfl, rfl, rfl⟩))


theorem execLcGo_only (h : Only ps a s) (x0 x1) (hs : sub [.out, .status, .irq, .host, .pads, .counts, .evrQueue, .slots, .kst, .rng, .uci, .mem, .tmp, .bkp, .lci, .sac, .vat, .sch, .trib, .sc, .sa, .cur, .role, .mte] ps = true) : OnlyR ps a (execLcGo x0 x1 s) := by
  unfold execLcGo
  try dsimp only
  repeat' first
    | with_reducible assumption
    | with_reducible refine idle_only ?_  (sub_of rfl hs)
    | with_reducible refine State.lockedWrite_only ?_ _ _ _ (sub_of rfl hs)
    | with_reducible refine finish_only ?_  (sub_of rfl hs)
    | with_reducible refine mateEnd_only ?_  (sub_of rfl hs)
    | with_reducible refine State.lcGo_only ?_ _ (sub_of rfl hs)
    | with_reducible refine finish_only ?_ (sub_of rfl hs)
    | with_reducible refine idle_only ?_
    | split
    | (with_reducible refine Only.foldl _ (fun _ _ _ => ?_) _ _ ?_)
    | ((with_reducible apply upd_only); rotate_left; iterate 39 (first | exact Or.inr (by with_reducible rfl) | exact Or.inl (mem_of_sub hs rfl) | exact Or.inl (sub_of rfl hs) | exact Or.inr rfl | exact Or.inr ⟨rfl, rfl⟩ | exact Or.inr ⟨rfl, rfl, rfl⟩))


theorem State.execEnd_only (h : Only ps a s) (hs : sub [.tmp] ps = true) : Only ps a (State.execEnd s) := by
  unfold State.execEnd
  try dsimp only
  repeat' first
    | with_reducible assumption
    | with_reducible refine State.modTmp_only ?_ _ (sub_of rfl hs)
    | split
    | (with_reducible refine Only.foldl _ (fun _ _ _ => ?_) _ _ ?_)
    | ((with_reducible apply upd_only); rotate_left; iterate 39 (first | exact Or.inr (by with_reducible rfl) | exact Or.inl (mem_of_sub hs rfl) | exact Or.inl (sub_of rfl hs) | exact Or.inr rfl | exact Or.inr ⟨rfl, rfl⟩ | exact Or.inr ⟨rfl, rfl, rfl⟩))


theorem execMtpWriteDone_only (h : Only ps a s) (hs : sub [.out, .status, .irq, .host, .pads, .counts, .evrQueue, .mtp, .slots, .kst, .uci, .mem, .tmp, .bkp, .lci, .sac, .vat, .sch, .trib, .sc, .sa, .cur, .role, .mte] ps = true) : OnlyR ps a (execMtpWriteDone s) := by
  unfold execMtpWriteDone
  try dsimp only
  repeat' first
    | with_reducible assumption
    | with_reducible refine idle_only ?_  (sub_of rfl hs)
    | ((with_reducible refine State.modKst_only ?_ _ ?_ ?_); rotate_left; (first | exact Or.inl (mem_of_sub hs rfl) | exact Or.inr (fun _ => rfl)); (first | exact Or.inl (mem_of_sub hs rfl) | exact Or.inr (fun _ => rfl) | exact Or.inr (fun _ => ⟨rfl, rfl⟩) | exact Or.inr (fun _ => ⟨rfl, rfl, rfl⟩)))
    | with_reducible refine State.modBkp_only ?_ _ (sub_of rfl hs)
    | with_reducible refine State.applyMtp_only ?_ _ (sub_of rfl hs)
    | with_reducible refine mateEnd_only ?_  (sub_of rfl hs)
    | with_reducible refine State.execEnd_only ?_  (sub_of rfl hs)
    | with_reducible refine State.lcAdvance_only ?_  (sub_of rfl hs)
    | with_reducible refine finish_only ?_ (sub_of rfl hs)
    | with_reducible refine idle_only ?_
    | split
    | (with_reducible refine Only.foldl _ (fun _ _ _ => ?_) _ _ ?_)
    | ((with_reducible apply upd_only); rotate_left; iterate 39 (first | exact Or.inr (by with_reducible rfl) | exact Or.inl (mem_of_sub hs rfl) | exact Or.inl (sub_of rfl hs) | exact Or.inr rfl | exact Or.inr ⟨rfl, rfl⟩ | exact Or.inr ⟨rfl, rfl, rfl⟩))


theorem State.finishRetire_only (h : Only ps a s) (hs : sub [.mtp, .kst] ps = true) : Only ps a (State.finishRetire s) := by
  unfold State.finishRetire
  try dsimp only
  repeat' first
    | with_reducible assumption
    | with_reducible refine State.mtpWrite_only ?_ _ _ (sub_of rfl hs)
    | ((with_reducible refine State.modKst_only ?_ _ ?_ ?_); rotate_left; (first | exact Or.inl (mem_of_sub hs rfl) | exact Or.inr (fun _ => rfl)); (first | exact Or.inl (mem_of_sub hs rfl) | exact Or.inr (fun _ => rfl) | exact Or.inr (fun _ => ⟨rfl, rfl⟩) | exact Or.inr (fun _ => ⟨rfl, rfl, rfl⟩)))
    | with_reducible refine State.eraseCopyArea_only ?_  (sub_of rfl hs)
    | split
    | (with_reducible refine Only.foldl _ (fun _ _ _ => ?_) _ _ ?_)
    | ((with_reducible apply upd_only); rotate_left; iterate 39 (first | exact Or.inr (by with_reducible rfl) | exact Or.inl (mem_of_sub hs rfl) | exact Or.inl (sub_of rfl hs) | exact Or.inr rfl | exact Or.inr ⟨rfl, rfl⟩ | exact Or.inr ⟨rfl, rfl, rfl⟩))


theorem State.restoreSlot_only (h : Only ps a s) (x1) (hs : sub [.slots] ps = true) : Only ps a (State.restoreSlot s x1) := by
  unfold State.restoreSlot
  try dsimp only
  repeat' first
    | with_reducible assumption
    | with_reducible refine State.setSlot_only ?_ _ _ (sub_of rfl hs)
    | split
    | (with_reducible refine Only.foldl _ (fun _ _ _ => ?_) _ _ ?_)
    | ((with_reducible apply upd_only); rotate_left; iterate 39 (first | exact Or.inr (by with_reducible rfl) | exact Or.inl (mem_of_sub hs rfl) | exact Or.inl (sub_of rfl hs) | exact Or.inr rfl | exact Or.inr ⟨rfl, rfl⟩ | exact Or.inr ⟨rfl, rfl, rfl⟩))


theorem State.restoreReserve_only (h : Only ps a s) (x1) (hs : sub [.counts, .slots, .kst] ps = true) : Only ps a (State.restoreReserve s x1) := by
  unfold State.restoreReserve
  try dsimp only
  repeat' first
    | with_reducible assumption
    | with_reducible refine State.setSlot_only ?_ _ _ (sub_of rfl hs)
    | with_reducible refine State.countDev_only ?_ _ _ _ _ (sub_of rfl hs)
    | ((with_reducible refine State.modKst_only ?_ _ ?_ ?_); rotate_left; (first | exact Or.inl (mem_of_sub hs rfl) | exact Or.inr (fun _ => rfl)); (first | exact Or.inl (mem_of_sub hs rfl) | exact Or.inr (fun _ => rfl) | exact Or.inr (fun _ => ⟨rfl, rfl⟩) | exact Or.inr (fun _ => ⟨rfl, rfl, rfl⟩)))
    | split
    | (with_reducible refine Only.foldl _ (fun _ _ _ => ?_) _ _ ?_)
    | ((with_reducible apply upd_only); rotate_left; iterate 39 (first | exact Or.inr (by with_reducible rfl) | exact Or.inl (mem_of_sub hs rfl) | exact Or.inl (sub_of rfl hs) | exact Or.inr rfl | exact Or.inr ⟨rfl, rfl⟩ | exact Or.inr ⟨rfl, rfl, rfl⟩))


theorem State.startSecured_only (h : Only ps a s) (x1) (hs : sub [.slots, .kst] ps = true) : Only ps a (State.startSecured s x1) := by
  unfold State.startSecured
  try dsimp only
  repeat' first
    | with_reducible assumption
    | with_reducible refine State.setSlot_only ?_ _ _ (sub_of rfl hs)
    | with_reducible refine State.deriveStore_only ?_ _ _ (sub_of rfl hs)
    | with_reducible refine State.restoreSlot_only ?_ _ (sub_of rfl hs)
    | split
    | (with_reducible refine Only.foldl _ (fun _ _ _ => ?_) _ _ ?_)
    | ((with_reducible apply upd_only); rotate_left; iterate 39 (first | exact Or.inr (by with_reducible rfl) | exact Or.inl (mem_of_sub hs rfl) | exact Or.inl (sub_of rfl hs) | exact Or.inr rfl | exact Or.inr ⟨rfl, rfl⟩ | exact Or.inr ⟨rfl, rfl, rfl⟩))


theorem State.startLog_only (h : Only ps a s) (hs : sub [.counts, .kst, .tmp, .bkp] ps = true) : Only ps a (State.startLog s) := by
  unfold State.startLog
  try dsimp only
  repeat' first
    | with_reducible assumption
    | with_reducible refine State.countDev_only ?_ _ _ _ _ (sub_of rfl hs)
    | with_reducible refine State.modTmp_only ?_ _ (sub_of rfl hs)
    | with_reducible refine State.logAppend_only ?_ _ _ _ _ _ _ _ (sub_of rfl hs)
    | with_reducible refine State.fullEntry_only ?_  (sub_of rfl hs)
    | split
    | (with_reducible refine Only.foldl _ (fun _ _ _ => ?_) _ _ ?_)
    | ((with_reducible apply upd_only); rotate_left; iterate 39 (first | exact Or.inr (by with_reducible rfl) | exact Or.inl (mem_of_sub hs rfl) | exact Or.inl (sub_of rfl hs) | exact Or.inr rfl | exact Or.inr ⟨rfl, rfl⟩ | exact Or.inr ⟨rfl, rfl, rfl⟩))


theorem State.loadEpoch_only (h : Only ps a s) (hs : sub [.kst] ps = true) : Only ps a (State.loadEpoch s) := by
  unfold State.loadEpoch
  try dsimp only
  repeat' first
    | with_reducible assumption
    | ((with_reducible refine State.modKst_only ?_ _ ?_ ?_); rotate_left; (first | exact Or.inl (mem_of_sub hs rfl) | exact Or.inr (fun _ => rfl)); (first | exact Or.inl (mem_of_sub hs rfl) | exact Or.inr (fun _ => rfl) | exact Or.inr (fun _ => ⟨rfl, rfl⟩) | exact Or.inr (fun _ => ⟨rfl, rfl, rfl⟩)))
    | split
    | (with_reducible refine Only.foldl _ (fun _ _ _ => ?_) _ _ ?_)
    | ((with_reducible apply upd_only); rotate_left; iterate 39 (first | exact Or.inr (by with_reducible rfl) | exact Or.inl (mem_of_sub hs rfl) | exact Or.inl (sub_of rfl hs) | exact Or.inr rfl | exact Or.inr ⟨rfl, rfl⟩ | exact Or.inr ⟨rfl, rfl, rfl⟩))


theorem keyRun_only {d : Desc} {run : State → Desc → CmdRef → State} (e : keyRun d = some run) (x : Desc) (ref : CmdRef)
    (h : Only ps a s) (hs : sub [.out, .host, .pads, .counts, .evrQueue, .slots, .kst, .rng, .uci, .mem, .line, .cur, .role, .mte] ps = true) : Only ps a (run s x ref) := by
  unfold keyRun at e
  (repeat' split at e) <;> first | contradiction | skip
  all_goals cases e
  · exact State.runKwrapin_only h _ _ (sub_of rfl hs)
  · exact State.runKstageWrapped_only h _ _ (sub_of rfl hs)
  · exact State.runKstageRng_only h _ _ (sub_of rfl hs)
  · exact State.runKcommit_only h _ _ (sub_of rfl hs)
  · exact State.runKinval_only h _ _ (sub_of rfl hs)
  · exact State.runKderive_only h _ _ (sub_of rfl hs)
  · exact State.runAttest_only h _ _ (sub_of rfl hs)

theorem State.runHead_only (h : Only ps a s) (r : Rid) (hs : sub [.out, .host, .pads, .counts, .evrQueue, .slots, .kst, .rng, .uci, .mem, .line, .cur, .role, .mte] ps = true) : Only ps a (s.runHead r) := by
  unfold State.runHead
  split
  · split
    · exact State.keyHead_only h _ _ _ (fun _ _ _ h => keyRun_only (by assumption) _ _ h (sub_of rfl hs)) (sub_of rfl hs)
    · exact h
  · exact h

theorem State.setReady_only (h : Only ps a s) (hs : sub [.out, .status, .host, .pads, .counts, .evrQueue, .slots, .kst, .rng, .uci, .mem, .line, .sac, .cur, .role, .mte] ps = true) : Only ps a (State.setReady s) := by
  unfold State.setReady
  try dsimp only
  repeat' first
    | with_reducible assumption
    | ((with_reducible refine State.modKst_only ?_ _ ?_ ?_); rotate_left; (first | exact Or.inl (mem_of_sub hs rfl) | exact Or.inr (fun _ => rfl)); (first | exact Or.inl (mem_of_sub hs rfl) | exact Or.inr (fun _ => rfl) | exact Or.inr (fun _ => ⟨rfl, rfl⟩) | exact Or.inr (fun _ => ⟨rfl, rfl, rfl⟩)))
    | with_reducible refine State.resumeLoads_only ?_  (sub_of rfl hs)
    | with_reducible refine State.runHead_only ?_ _ (sub_of rfl hs)
    | split
    | (with_reducible refine Only.foldl _ (fun _ _ _ => ?_) _ _ ?_)
    | ((with_reducible apply upd_only); rotate_left; iterate 39 (first | exact Or.inr (by with_reducible rfl) | exact Or.inl (mem_of_sub hs rfl) | exact Or.inl (sub_of rfl hs) | exact Or.inr rfl | exact Or.inr ⟨rfl, rfl⟩ | exact Or.inr ⟨rfl, rfl, rfl⟩))


theorem execKstStart_only (h : Only ps a s) (hs : sub [.out, .status, .irq, .host, .pads, .counts, .evrQueue, .mtp, .slots, .kst, .rng, .uci, .mem, .tmp, .bkp, .line, .sac, .cur, .role, .mte] ps = true) : OnlyR ps a (execKstStart s) := by
  unfold execKstStart
  try dsimp only
  repeat' first
    | with_reducible assumption
    | with_reducible refine idle_only ?_  (sub_of rfl hs)
    | ((with_reducible refine State.modKst_only ?_ _ ?_ ?_); rotate_left; (first | exact Or.inl (mem_of_sub hs rfl) | exact Or.inr (fun _ => rfl)); (first | exact Or.inl (mem_of_sub hs rfl) | exact Or.inr (fun _ => rfl) | exact Or.inr (fun _ => ⟨rfl, rfl⟩) | exact Or.inr (fun _ => ⟨rfl, rfl, rfl⟩)))
    | with_reducible refine finish_only ?_  (sub_of rfl hs)
    | with_reducible refine mateEnd_only ?_  (sub_of rfl hs)
    | with_reducible refine State.startLog_only ?_  (sub_of rfl hs)
    | with_reducible refine State.setReady_only ?_  (sub_of rfl hs)
    | with_reducible refine State.startSecured_only ?_ _ (sub_of rfl hs)
    | with_reducible refine State.finishRetire_only ?_  (sub_of rfl hs)
    | with_reducible refine State.loadEpoch_only ?_  (sub_of rfl hs)
    | with_reducible refine State.restoreReserve_only ?_ _ (sub_of rfl hs)
    | with_reducible refine finish_only ?_ (sub_of rfl hs)
    | with_reducible refine idle_only ?_
    | split
    | (with_reducible refine Only.foldl _ (fun _ _ _ => ?_) _ _ ?_)
    | ((with_reducible apply upd_only); rotate_left; iterate 39 (first | exact Or.inr (by with_reducible rfl) | exact Or.inl (mem_of_sub hs rfl) | exact Or.inl (sub_of rfl hs) | exact Or.inr rfl | exact Or.inr ⟨rfl, rfl⟩ | exact Or.inr ⟨rfl, rfl, rfl⟩))


theorem State.askRoot_only (h : Only ps a s) (hs : sub [.out, .host, .pads, .counts, .evrQueue, .slots, .kst, .rng, .uci, .mem, .line, .cur, .role, .mte] ps = true) : Only ps a (State.askRoot s) := by
  unfold State.askRoot
  try dsimp only
  repeat' first
    | with_reducible assumption
    | with_reducible refine State.rngDeliver_only ?_ _ _ (sub_of rfl hs)
    | with_reducible refine State.rngAsk_only ?_ _ _ _ (sub_of rfl hs)
    | with_reducible refine State.rngAsk_only_of (by assumption) ?_ (sub_of rfl hs)
    | split
    | (with_reducible refine Only.foldl _ (fun _ _ _ => ?_) _ _ ?_)
    | ((with_reducible apply upd_only); rotate_left; iterate 39 (first | exact Or.inr (by with_reducible rfl) | exact Or.inl (mem_of_sub hs rfl) | exact Or.inl (sub_of rfl hs) | exact Or.inr rfl | exact Or.inr ⟨rfl, rfl⟩ | exact Or.inr ⟨rfl, rfl, rfl⟩))


theorem execRootGenerate_only (h : Only ps a s) (x0 x1) (hs : sub [.out, .irq, .host, .pads, .counts, .evrQueue, .otp, .slots, .kst, .rng, .uci, .mem, .line, .cur, .role, .mte] ps = true) : OnlyR ps a (execRootGenerate x0 x1 s) := by
  unfold execRootGenerate
  split
  · exact idle_only h
  · next hd =>
    simp only [State.rootDue, Bool.not_eq_true', Bool.and_eq_true, Bool.not_eq_false] at hd
    have hA : blown s.otp.validA = false := by revert hd; cases blown s.otp.validA <;> simp
    have hB : blown s.otp.validB = false := by revert hd; cases blown s.otp.validB <;> simp
    split
    · exact finish_only (State.askRoot_only h (sub_of rfl hs)) (sub_of rfl hs)
    · have h1 := State.modKst_only (s := s) h (fun k => { k with rootDraw := none }) (Or.inl (mem_of_sub hs rfl)) (Or.inr fun _ => ⟨rfl, rfl⟩)
      dsimp only
      split
      · split
        · exact finish_only (State.modOtp_only h1 _ (Otp.keeps_rootA _ _ _ hA) (sub_of rfl hs)) (sub_of rfl hs)
        · exact finish_only (State.askRoot_only (State.modKst_only h1 _ (Or.inl (mem_of_sub hs rfl)) (Or.inr fun _ => ⟨rfl, rfl⟩)) (sub_of rfl hs)) (sub_of rfl hs)
      · split
        · exact finish_only (State.modOtp_only h1 _ (Otp.keeps_rootB _ _ _ hB) (sub_of rfl hs)) (sub_of rfl hs)
        · exact finish_only (State.modKst_only h1 _ (Or.inl (mem_of_sub hs rfl)) (Or.inr fun _ => ⟨rfl, rfl⟩)) (sub_of rfl hs)

theorem State.provGo_only (h : Only ps a s) (x1) (hs : sub [.status, .slots, .kst, .tmp, .bkp] ps = true) : Only ps a (State.provGo s x1) := by
  unfold State.provGo
  try dsimp only
  repeat' first
    | with_reducible assumption
    | with_reducible refine State.setBit_only ?_ _ _ _ (Or.inr (by first | rfl | (simp; done) | decide)) (Or.inl (mem_of_sub hs rfl))
    | ((with_reducible refine State.modKst_only ?_ _ ?_ ?_); rotate_left; (first | exact Or.inl (mem_of_sub hs rfl) | exact Or.inr (fun _ => rfl)); (first | exact Or.inl (mem_of_sub hs rfl) | exact Or.inr (fun _ => rfl) | exact Or.inr (fun _ => ⟨rfl, rfl⟩) | exact Or.inr (fun _ => ⟨rfl, rfl, rfl⟩)))
    | with_reducible refine State.queueEpoch_only ?_ _ _ _ (sub_of rfl hs)
    | with_reducible refine State.installSlot_only ?_ _ _ (sub_of rfl hs)
    | with_reducible refine State.logAppend_only ?_ _ _ _ _ _ _ _ (sub_of rfl hs)
    | split
    | (with_reducible refine Only.foldl _ (fun _ _ _ => ?_) _ _ ?_)
    | ((with_reducible apply upd_only); rotate_left; iterate 39 (first | exact Or.inr (by with_reducible rfl) | exact Or.inl (mem_of_sub hs rfl) | exact Or.inl (sub_of rfl hs) | exact Or.inr rfl | exact Or.inr ⟨rfl, rfl⟩ | exact Or.inr ⟨rfl, rfl, rfl⟩))


theorem execProvGo_only (h : Only ps a s) (x0 x1) (hs : sub [.out, .status, .irq, .counts, .evrQueue, .slots, .kst, .tmp, .bkp] ps = true) : OnlyR ps a (execProvGo x0 x1 s) := by
  unfold execProvGo
  try dsimp only
  repeat' first
    | with_reducible assumption
    | with_reducible refine idle_only ?_  (sub_of rfl hs)
    | with_reducible refine State.lockedWrite_only ?_ _ _ _ (sub_of rfl hs)
    | with_reducible refine finish_only ?_  (sub_of rfl hs)
    | with_reducible refine State.provGo_only ?_ _ (sub_of rfl hs)
    | with_reducible refine finish_only ?_ (sub_of rfl hs)
    | with_reducible refine idle_only ?_
    | split
    | (with_reducible refine Only.foldl _ (fun _ _ _ => ?_) _ _ ?_)
    | ((with_reducible apply upd_only); rotate_left; iterate 39 (first | exact Or.inr (by with_reducible rfl) | exact Or.inl (mem_of_sub hs rfl) | exact Or.inl (sub_of rfl hs) | exact Or.inr rfl | exact Or.inr ⟨rfl, rfl⟩ | exact Or.inr ⟨rfl, rfl, rfl⟩))


theorem State.rngFailure_only (h : Only ps a s) (x1 x2) (hs : sub [.out, .settings, .status, .shadow, .host, .pads, .counts, .evrQueue, .slots, .kst, .rng, .uci, .mem, .tmp, .bkp, .line, .lci, .sac, .vat, .sch, .ports, .trib, .sc, .sa, .cur, .role, .mte] ps = true) : Only ps a (State.rngFailure s x1 x2) := by
  unfold State.rngFailure
  try dsimp only
  repeat' first
    | with_reducible assumption
    | with_reducible refine State.rngFailCore_only ?_ _ _ (sub_of rfl hs)
    | with_reducible refine State.mateFinding_only ?_ _ (sub_of rfl hs)
    | with_reducible refine State.tamperFire_only ?_ _ (sub_of rfl hs)
    | split
    | (with_reducible refine Only.foldl _ (fun _ _ _ => ?_) _ _ ?_)
    | ((with_reducible apply upd_only); rotate_left; iterate 39 (first | exact Or.inr (by with_reducible rfl) | exact Or.inl (mem_of_sub hs rfl) | exact Or.inl (sub_of rfl hs) | exact Or.inr rfl | exact Or.inr ⟨rfl, rfl⟩ | exact Or.inr ⟨rfl, rfl, rfl⟩))


theorem execSamplerWindowEnd_only (h : Only ps a s) (x0 x1) (hs : sub [.out, .settings, .status, .shadow, .irq, .host, .pads, .counts, .evrQueue, .slots, .kst, .rng, .uci, .mem, .tmp, .bkp, .line, .lci, .sac, .vat, .sch, .ports, .trib, .sc, .sa, .cur, .role, .mte] ps = true) : OnlyR ps a (execSamplerWindowEnd x0 x1 s) := by
  unfold execSamplerWindowEnd
  try dsimp only
  repeat' first
    | with_reducible assumption
    | with_reducible refine State.setBit_only ?_ _ _ _ (Or.inr (by first | rfl | (simp; done) | decide)) (Or.inl (mem_of_sub hs rfl))
    | with_reducible refine State.setBit_only ?_ _ _ _ (Or.inl (mem_of_sub hs rfl)) (Or.inr (by first | rfl | (simp; done) | decide))
    | with_reducible refine State.setBit_only ?_ _ _ _ (Or.inl (mem_of_sub hs rfl)) (Or.inl (mem_of_sub hs rfl))
    | with_reducible refine idle_only ?_  (sub_of rfl hs)
    | with_reducible refine State.modRng_only ?_ _ (sub_of rfl hs)
    | with_reducible refine State.countDev_only ?_ _ _ _ _ (sub_of rfl hs)
    | with_reducible refine finish_only ?_  (sub_of rfl hs)
    | with_reducible refine mateEnd_only ?_  (sub_of rfl hs)
    | with_reducible refine State.rngFailure_only ?_ _ _ (sub_of rfl hs)
    | with_reducible refine finish_only ?_ (sub_of rfl hs)
    | with_reducible refine idle_only ?_
    | split
    | (with_reducible refine Only.foldl _ (fun _ _ _ => ?_) _ _ ?_)
    | ((with_reducible apply upd_only); rotate_left; iterate 39 (first | exact Or.inr (by with_reducible rfl) | exact Or.inl (mem_of_sub hs rfl) | exact Or.inl (sub_of rfl hs) | exact Or.inr rfl | exact Or.inr ⟨rfl, rfl⟩ | exact Or.inr ⟨rfl, rfl, rfl⟩))


theorem execRngFail_only (h : Only ps a s) (x0 x1) (hs : sub [.out, .settings, .status, .shadow, .irq, .host, .pads, .counts, .evrQueue, .slots, .kst, .rng, .uci, .mem, .tmp, .bkp, .line, .lci, .sac, .vat, .sch, .ports, .trib, .sc, .sa, .cur, .role, .mte] ps = true) : OnlyR ps a (execRngFail x0 x1 s) := by
  unfold execRngFail
  try dsimp only
  repeat' first
    | with_reducible assumption
    | with_reducible refine idle_only ?_  (sub_of rfl hs)
    | with_reducible refine mateEnd_only ?_  (sub_of rfl hs)
    | with_reducible refine State.rngFailure_only ?_ _ _ (sub_of rfl hs)
    | with_reducible refine finish_only ?_ (sub_of rfl hs)
    | with_reducible refine idle_only ?_
    | split
    | (with_reducible refine Only.foldl _ (fun _ _ _ => ?_) _ _ ?_)
    | ((with_reducible apply upd_only); rotate_left; iterate 39 (first | exact Or.inr (by with_reducible rfl) | exact Or.inl (mem_of_sub hs rfl) | exact Or.inl (sub_of rfl hs) | exact Or.inr rfl | exact Or.inr ⟨rfl, rfl⟩ | exact Or.inr ⟨rfl, rfl, rfl⟩))


end Sys2Proof.Machine
end

