-- ==== Sys2Proof/Laws/OnlyLineTx.lean ====
section
/-! SUPPORT. What each operation of Machine/LineTx.lean may change. -/

set_option linter.unusedTactic false
set_option linter.unreachableTactic false
set_option linter.unusedVariables false
set_option linter.unusedSimpArgs false

namespace Sys2Proof.Machine

variable {ps : List Area} {a s : State}

theorem State.dropOwn_only (h : Only ps a s) (x1 x2) (hs : sub [.counts] ps = true) : Only ps a (State.dropOwn s x1 x2) := by
  unfold State.dropOwn
  try dsimp only
  repeat' first
    | with_reducible assumption
    | with_reducible refine State.countMill_only ?_ _ _ _ _ _ (sub_of rfl hs)
    | split
    | (with_reducible refine Only.foldl _ (fun _ _ _ => ?_) _ _ ?_)
    | ((with_reducible apply upd_only); rotate_left; iterate 39 (first | exact Or.inr (by with_reducible rfl) | exact Or.inl (mem_of_sub hs rfl) | exact Or.inl (sub_of rfl hs) | exact Or.inr rfl | exact Or.inr ⟨rfl, rfl⟩ | exact Or.inr ⟨rfl, rfl, rfl⟩))


theorem State.dlgStart_only (h : Only ps a s) (x1 x2 x3 x4) (hs : sub [.counts, .line] ps = true) : Only ps a (State.dlgStart s x1 x2 x3 x4) := by
  fun_induction State.dlgStart s x1 x2 x3 x4 <;> try dsimp only
  repeat' first
    | with_reducible assumption
    | with_reducible refine State.modLine_only ?_ _ _ (sub_of rfl hs)
    | with_reducible refine State.dropOwn_only ?_ _ _ (sub_of rfl hs)
    | with_reducible apply_assumption -exfalso -symm
    | split
    | (with_reducible refine Only.foldl _ (fun _ _ _ => ?_) _ _ ?_)
    | ((with_reducible apply upd_only); rotate_left; iterate 39 (first | exact Or.inr (by with_reducible rfl) | exact Or.inl (mem_of_sub hs rfl) | exact Or.inl (sub_of rfl hs) | exact Or.inr rfl | exact Or.inr ⟨rfl, rfl⟩ | exact Or.inr ⟨rfl, rfl, rfl⟩))


theorem State.dlgSlot_only (h : Only ps a s) (x1 x2 x3) (hs : sub [.counts, .line] ps = true) : Only ps a (State.dlgSlot s x1 x2 x3).2 := by
  unfold State.dlgSlot
  try dsimp only
  repeat' first
    | with_reducible assumption
    | with_reducible refine State.modLine_only ?_ _ _ (sub_of rfl hs)
    | with_reducible refine State.dropOwn_only ?_ _ _ (sub_of rfl hs)
    | with_reducible refine State.dlgStart_only ?_ _ _ _ _ (sub_of rfl hs)
    | split
    | (with_reducible refine Only.foldl _ (fun _ _ _ => ?_) _ _ ?_)
    | ((with_reducible apply upd_only); rotate_left; iterate 39 (first | exact Or.inr (by with_reducible rfl) | exact Or.inl (mem_of_sub hs rfl) | exact Or.inl (sub_of rfl hs) | exact Or.inr rfl | exact Or.inr ⟨rfl, rfl⟩ | exact Or.inr ⟨rfl, rfl, rfl⟩))

theorem State.dlgSlot_only_of {t : State} {x1 x2 x3} {r} (e : State.dlgSlot s x1 x2 x3 = (r, t)) (h : Only ps a s) (hs : sub [.counts, .line] ps = true) : Only ps a t := by
  have := State.dlgSlot_only h x1 x2 x3 hs
  rw [e] at this
  exact this


theorem State.dlgWait_only (h : Only ps a s) (x1) (hs : sub [.line] ps = true) : Only ps a (State.dlgWait s x1) := by
  unfold State.dlgWait
  try dsimp only
  repeat' first
    | with_reducible assumption
    | with_reducible refine State.modLine_only ?_ _ _ (sub_of rfl hs)
    | split
    | (with_reducible refine Only.foldl _ (fun _ _ _ => ?_) _ _ ?_)
    | ((with_reducible apply upd_only); rotate_left; iterate 39 (first | exact Or.inr (by with_reducible rfl) | exact Or.inl (mem_of_sub hs rfl) | exact Or.inl (sub_of rfl hs) | exact Or.inr rfl | exact Or.inr ⟨rfl, rfl⟩ | exact Or.inr ⟨rfl, rfl, rfl⟩))


theorem State.askSession_only (h : Only ps a s) (x1 x2) (hs : sub [.counts, .rng, .line] ps = true) : Only ps a (State.askSession s x1 x2) := by
  unfold State.askSession
  try dsimp only
  repeat' first
    | with_reducible assumption
    | with_reducible refine State.countDev_only ?_ _ _ _ _ (sub_of rfl hs)
    | with_reducible refine State.modLine_only ?_ _ _ (sub_of rfl hs)
    | with_reducible refine State.helloDrawn_only ?_ _ _ (sub_of rfl hs)
    | with_reducible refine State.rngAsk_only ?_ _ _ _ (sub_of rfl hs)
    | with_reducible refine State.rngAsk_only_of (by assumption) ?_ (sub_of rfl hs)
    | split
    | (with_reducible refine Only.foldl _ (fun _ _ _ => ?_) _ _ ?_)
    | ((with_reducible apply upd_only); rotate_left; iterate 39 (first | exact Or.inr (by with_reducible rfl) | exact Or.inl (mem_of_sub hs rfl) | exact Or.inl (sub_of rfl hs) | exact Or.inr rfl | exact Or.inr ⟨rfl, rfl⟩ | exact Or.inr ⟨rfl, rfl, rfl⟩))


theorem State.negLook_only (h : Only ps a s) (x1) (hs : sub [.line] ps = true) : Only ps a (State.negLook s x1) := by
  unfold State.negLook
  try dsimp only
  repeat' first
    | with_reducible assumption
    | with_reducible refine State.modLine_only ?_ _ _ (sub_of rfl hs)
    | with_reducible refine State.helloSend_only ?_ _ (sub_of rfl hs)
    | split
    | (with_reducible refine Only.foldl _ (fun _ _ _ => ?_) _ _ ?_)
    | ((with_reducible apply upd_only); rotate_left; iterate 39 (first | exact Or.inr (by with_reducible rfl) | exact Or.inl (mem_of_sub hs rfl) | exact Or.inl (sub_of rfl hs) | exact Or.inr rfl | exact Or.inr ⟨rfl, rfl⟩ | exact Or.inr ⟨rfl, rfl, rfl⟩))


theorem State.reamBegin_only (h : Only ps a s) (x1) (hs : sub [.out, .status, .counts, .evrQueue, .tim, .line, .dkl, .lci, .cur, .lanes, .mte] ps = true) : Only ps a (State.reamBegin s x1) := by
  unfold State.reamBegin
  try dsimp only
  repeat' first
    | with_reducible assumption
    | with_reducible refine State.emit_only ?_ _ (sub_of rfl hs)
    | with_reducible refine State.modLine_only ?_ _ _ (sub_of rfl hs)
    | with_reducible refine State.wireMarkers_only ?_ _ _ _ (sub_of rfl hs)
    | with_reducible refine State.ownMsg_only ?_ _ _ (sub_of rfl hs)
    | with_reducible refine State.lknReam_only ?_ _ _ (sub_of rfl hs)
    | with_reducible refine State.dklReam_only ?_ _ _ (sub_of rfl hs)
    | with_reducible refine State.reamSettings_only ?_ _ (sub_of rfl hs)
    | split
    | (with_reducible refine Only.foldl _ (fun _ _ _ => ?_) _ _ ?_)
    | ((with_reducible apply upd_only); rotate_left; iterate 39 (first | exact Or.inr (by with_reducible rfl) | exact Or.inl (mem_of_sub hs rfl) | exact Or.inl (sub_of rfl hs) | exact Or.inr rfl | exact Or.inr ⟨rfl, rfl⟩ | exact Or.inr ⟨rfl, rfl, rfl⟩))


theorem State.beginFrame_only (h : Only ps a s) (x1 x2 x3) (hs : sub [.counts, .tim, .trib, .tribOld] ps = true) : Only ps a (State.beginFrame s x1 x2 x3) := by
  unfold State.beginFrame
  try dsimp only
  repeat' first
    | with_reducible assumption
    | with_reducible refine State.modTribIn_only ?_ _ _ _ (sub_of rfl hs)
    | with_reducible refine State.tcNear_only ?_ _ _ _ (sub_of rfl hs)
    | with_reducible refine State.tcNear_only_of (by assumption) ?_ (sub_of rfl hs)
    | split
    | (with_reducible refine Only.foldl _ (fun _ _ _ => ?_) _ _ ?_)
    | ((with_reducible apply upd_only); rotate_left; iterate 39 (first | exact Or.inr (by with_reducible rfl) | exact Or.inl (mem_of_sub hs rfl) | exact Or.inl (sub_of rfl hs) | exact Or.inr rfl | exact Or.inr ⟨rfl, rfl⟩ | exact Or.inr ⟨rfl, rfl, rfl⟩))


theorem State.endFrame_only (h : Only ps a s) (x1 x2) (hs : sub [.out, .counts, .sch, .ports, .trib, .tribOld] ps = true) : Only ps a (State.endFrame s x1 x2) := by
  unfold State.endFrame
  try dsimp only
  repeat' first
    | with_reducible assumption
    | with_reducible refine State.modSch_only ?_ _ _ (sub_of rfl hs)
    | with_reducible refine State.holdPri_only ?_ _ _ _ _ (sub_of rfl hs)
    | with_reducible refine State.modTribIn_only ?_ _ _ _ (sub_of rfl hs)
    | split
    | (with_reducible refine Only.foldl _ (fun _ _ _ => ?_) _ _ ?_)
    | ((with_reducible apply upd_only); rotate_left; iterate 39 (first | exact Or.inr (by with_reducible rfl) | exact Or.inl (mem_of_sub hs rfl) | exact Or.inl (sub_of rfl hs) | exact Or.inr rfl | exact Or.inr ⟨rfl, rfl⟩ | exact Or.inr ⟨rfl, rfl, rfl⟩))


theorem State.fillCell_only (h : Only ps a s) (x0 x1 x2 x3 x4 x5) (hs : sub [.out, .counts, .tim, .sch, .ports, .trib, .tribOld] ps = true) : Only ps a (State.fillCell x0 x1 x2 x3 x4 x5 s).2 := by
  fun_induction State.fillCell x0 x1 x2 x3 x4 x5 s <;> try dsimp only
  repeat' first
    | with_reducible assumption
    | with_reducible refine State.countMill_only ?_ _ _ _ _ _ (sub_of rfl hs)
    | with_reducible refine State.modTribIn_only ?_ _ _ _ (sub_of rfl hs)
    | with_reducible refine State.beginFrame_only ?_ _ _ _ (sub_of rfl hs)
    | with_reducible refine State.endFrame_only ?_ _ _ (sub_of rfl hs)
    | with_reducible apply_assumption -exfalso -symm
    | split
    | (with_reducible refine Only.foldl _ (fun _ _ _ => ?_) _ _ ?_)
    | ((with_reducible apply upd_only); rotate_left; iterate 39 (first | exact Or.inr (by with_reducible rfl) | exact Or.inl (mem_of_sub hs rfl) | exact Or.inl (sub_of rfl hs) | exact Or.inr rfl | exact Or.inr ⟨rfl, rfl⟩ | exact Or.inr ⟨rfl, rfl, rfl⟩))

theorem State.fillCell_only_of {t : State} {x0 x1 x2 x3 x4 x5} {r} (e : State.fillCell x0 x1 x2 x3 x4 x5 s = (r, t)) (h : Only ps a s) (hs : sub [.out, .counts, .tim, .sch, .ports, .trib, .tribOld] ps = true) : Only ps a t := by
  have := State.fillCell_only h x0 x1 x2 x3 x4 x5 hs
  rw [e] at this
  exact this


theorem State.cellOf_only (h : Only ps a s) (x1 x2 x3) (hs : sub [.out, .counts, .tim, .sch, .ports, .trib, .tribOld] ps = true) : Only ps a (State.cellOf s x1 x2 x3).2.2 := by
  unfold State.cellOf
  try dsimp only
  repeat' first
    | with_reducible assumption
    | with_reducible refine State.modTribIn_only ?_ _ _ _ (sub_of rfl hs)
    | with_reducible refine State.fillCell_only ?_ _ _ _ _ _ _ (sub_of rfl hs)
    | with_reducible refine State.fillCell_only_of (by assumption) ?_ (sub_of rfl hs)
    | split
    | (with_reducible refine Only.foldl _ (fun _ _ _ => ?_) _ _ ?_)
    | ((with_reducible apply upd_only); rotate_left; iterate 39 (first | exact Or.inr (by with_reducible rfl) | exact Or.inl (mem_of_sub hs rfl) | exact Or.inl (sub_of rfl hs) | exact Or.inr rfl | exact Or.inr ⟨rfl, rfl⟩ | exact Or.inr ⟨rfl, rfl, rfl⟩))

theorem State.cellOf_only_of {t : State} {x1 x2 x3} {r q} (e : State.cellOf s x1 x2 x3 = (r, q, t)) (h : Only ps a s) (hs : sub [.out, .counts, .tim, .sch, .ports, .trib, .tribOld] ps = true) : Only ps a t := by
  have := State.cellOf_only h x1 x2 x3 hs
  rw [e] at this
  exact this


theorem State.dropStale_only (h : Only ps a s) (x1 x2) (hs : sub [.sch, .trib, .tribOld] ps = true) : Only ps a (State.dropStale s x1 x2) := by
  unfold State.dropStale
  try dsimp only
  repeat' first
    | with_reducible assumption
    | with_reducible refine State.wake_only ?_ _ _ (sub_of rfl hs)
    | with_reducible refine State.sleepTrib_only ?_ _ _ _ (sub_of rfl hs)
    | split
    | (with_reducible refine Only.foldl _ (fun _ _ _ => ?_) _ _ ?_)
    | ((with_reducible apply upd_only); rotate_left; iterate 39 (first | exact Or.inr (by with_reducible rfl) | exact Or.inl (mem_of_sub hs rfl) | exact Or.inl (sub_of rfl hs) | exact Or.inr rfl | exact Or.inr ⟨rfl, rfl⟩ | exact Or.inr ⟨rfl, rfl, rfl⟩))


theorem State.listHead_only (h : Only ps a s) (x1 x2) (hs : sub [.sch, .trib, .tribOld] ps = true) : Only ps a (State.listHead s x1 x2).2 := by
  unfold State.listHead
  try dsimp only
  repeat' first
    | with_reducible assumption
    | with_reducible refine State.dropStale_only ?_ _ _ (sub_of rfl hs)
    | split
    | (with_reducible refine Only.foldl _ (fun _ _ _ => ?_) _ _ ?_)
    | ((with_reducible apply upd_only); rotate_left; iterate 39 (first | exact Or.inr (by with_reducible rfl) | exact Or.inl (mem_of_sub hs rfl) | exact Or.inl (sub_of rfl hs) | exact Or.inr rfl | exact Or.inr ⟨rfl, rfl⟩ | exact Or.inr ⟨rfl, rfl, rfl⟩))

theorem State.listHead_only_of {t : State} {x1 x2} {r} (e : State.listHead s x1 x2 = (r, t)) (h : Only ps a s) (hs : sub [.sch, .trib, .tribOld] ps = true) : Only ps a t := by
  have := State.listHead_only h x1 x2 hs
  rw [e] at this
  exact this


theorem State.poolPick_only (h : Only ps a s) (x1 x2) (hs : sub [.sch, .trib, .tribOld] ps = true) : Only ps a (State.poolPick s x1 x2).2 := by
  fun_induction State.poolPick s x1 x2 <;> try dsimp only
  repeat' first
    | with_reducible assumption
    | with_reducible refine State.listHead_only ?_ _ _ (sub_of rfl hs)
    | with_reducible refine State.listHead_only_of (by assumption) ?_ (sub_of rfl hs)
    | with_reducible apply_assumption -exfalso -symm
    | split
    | (with_reducible refine Only.foldl _ (fun _ _ _ => ?_) _ _ ?_)
    | ((with_reducible apply upd_only); rotate_left; iterate 39 (first | exact Or.inr (by with_reducible rfl) | exact Or.inl (mem_of_sub hs rfl) | exact Or.inl (sub_of rfl hs) | exact Or.inr rfl | exact Or.inr ⟨rfl, rfl⟩ | exact Or.inr ⟨rfl, rfl, rfl⟩))

theorem State.poolPick_only_of {t : State} {x1 x2} {r} (e : State.poolPick s x1 x2 = (r, t)) (h : Only ps a s) (hs : sub [.sch, .trib, .tribOld] ps = true) : Only ps a t := by
  have := State.poolPick_only h x1 x2 hs
  rw [e] at this
  exact this


theorem State.turnBegins_only (h : Only ps a s) (x1 x2 x3) (hs : sub [.sch, .trib, .tribOld] ps = true) : Only ps a (State.turnBegins s x1 x2 x3) := by
  unfold State.turnBegins
  try dsimp only
  repeat' first
    | with_reducible assumption
    | with_reducible refine State.modSch_only ?_ _ _ (sub_of rfl hs)
    | with_reducible refine State.modTribIn_only ?_ _ _ _ (sub_of rfl hs)
    | split
    | (with_reducible refine Only.foldl _ (fun _ _ _ => ?_) _ _ ?_)
    | ((with_reducible apply upd_only); rotate_left; iterate 39 (first | exact Or.inr (by with_reducible rfl) | exact Or.inl (mem_of_sub hs rfl) | exact Or.inl (sub_of rfl hs) | exact Or.inr rfl | exact Or.inr ⟨rfl, rfl⟩ | exact Or.inr ⟨rfl, rfl, rfl⟩))


theorem State.turnEnds_only (h : Only ps a s) (x1 x2 x3 x4) (hs : sub [.sch, .trib, .tribOld] ps = true) : Only ps a (State.turnEnds s x1 x2 x3 x4) := by
  unfold State.turnEnds
  try dsimp only
  repeat' first
    | with_reducible assumption
    | with_reducible refine State.modSch_only ?_ _ _ (sub_of rfl hs)
    | with_reducible refine State.modTribIn_only ?_ _ _ _ (sub_of rfl hs)
    | split
    | (with_reducible refine Only.foldl _ (fun _ _ _ => ?_) _ _ ?_)
    | ((with_reducible apply upd_only); rotate_left; iterate 39 (first | exact Or.inr (by with_reducible rfl) | exact Or.inl (mem_of_sub hs rfl) | exact Or.inl (sub_of rfl hs) | exact Or.inr rfl | exact Or.inr ⟨rfl, rfl⟩ | exact Or.inr ⟨rfl, rfl, rfl⟩))


theorem State.brokeTx_only (h : Only ps a s) (x1) (hs : sub [.counts] ps = true) : Only ps a (State.brokeTx s x1).2 := by
  unfold State.brokeTx
  try dsimp only
  repeat' first
    | with_reducible assumption
    | with_reducible refine State.fixMill_only ?_ _ _ _ (sub_of rfl hs)
    | with_reducible refine State.countMill_only ?_ _ _ _ _ _ (sub_of rfl hs)
    | split
    | (with_reducible refine Only.foldl _ (fun _ _ _ => ?_) _ _ ?_)
    | ((with_reducible apply upd_only); rotate_left; iterate 39 (first | exact Or.inr (by with_reducible rfl) | exact Or.inl (mem_of_sub hs rfl) | exact Or.inl (sub_of rfl hs) | exact Or.inr rfl | exact Or.inr ⟨rfl, rfl⟩ | exact Or.inr ⟨rfl, rfl, rfl⟩))

theorem State.brokeTx_only_of {t : State} {x1} {r} (e : State.brokeTx s x1 = (r, t)) (h : Only ps a s) (hs : sub [.counts] ps = true) : Only ps a t := by
  have := State.brokeTx_only h x1 hs
  rw [e] at this
  exact this


theorem State.endCell_only (h : Only ps a s) (x1 x2) (hs : sub [.line] ps = true) : Only ps a (State.endCell s x1 x2).2 := by
  unfold State.endCell
  try dsimp only
  repeat' first
    | with_reducible assumption
    | with_reducible refine State.startStream_only ?_ _ _ (sub_of rfl hs)
    | split
    | (with_reducible refine Only.foldl _ (fun _ _ _ => ?_) _ _ ?_)
    | ((with_reducible apply upd_only); rotate_left; iterate 39 (first | exact Or.inr (by with_reducible rfl) | exact Or.inl (mem_of_sub hs rfl) | exact Or.inl (sub_of rfl hs) | exact Or.inr rfl | exact Or.inr ⟨rfl, rfl⟩ | exact Or.inr ⟨rfl, rfl, rfl⟩))

theorem State.endCell_only_of {t : State} {x1 x2} {r} (e : State.endCell s x1 x2 = (r, t)) (h : Only ps a s) (hs : sub [.line] ps = true) : Only ps a t := by
  have := State.endCell_only h x1 x2 hs
  rw [e] at this
  exact this


theorem State.poolCell_only (h : Only ps a s) (x1 x2) (hs : sub [.out, .counts, .tim, .sch, .ports, .trib, .tribOld] ps = true) : Only ps a (State.poolCell s x1 x2).2 := by
  unfold State.poolCell
  try dsimp only
  repeat' first
    | with_reducible assumption
    | with_reducible refine State.countMill_only ?_ _ _ _ _ _ (sub_of rfl hs)
    | with_reducible refine State.cellOf_only ?_ _ _ _ (sub_of rfl hs)
    | with_reducible refine State.cellOf_only_of (by assumption) ?_ (sub_of rfl hs)
    | with_reducible refine State.brokeTx_only ?_ _ (sub_of rfl hs)
    | with_reducible refine State.brokeTx_only_of (by assumption) ?_ (sub_of rfl hs)
    | with_reducible refine State.turnEnds_only ?_ _ _ _ _ (sub_of rfl hs)
    | with_reducible refine State.poolPick_only ?_ _ _ (sub_of rfl hs)
    | with_reducible refine State.poolPick_only_of (by assumption) ?_ (sub_of rfl hs)
    | with_reducible refine State.turnBegins_only ?_ _ _ _ (sub_of rfl hs)
    | split
    | (with_reducible refine Only.foldl _ (fun _ _ _ => ?_) _ _ ?_)
    | ((with_reducible apply upd_only); rotate_left; iterate 39 (first | exact Or.inr (by with_reducible rfl) | exact Or.inl (mem_of_sub hs rfl) | exact Or.inl (sub_of rfl hs) | exact Or.inr rfl | exact Or.inr ⟨rfl, rfl⟩ | exact Or.inr ⟨rfl, rfl, rfl⟩))

theorem State.poolCell_only_of {t : State} {x1 x2} {r} (e : State.poolCell s x1 x2 = (r, t)) (h : Only ps a s) (hs : sub [.out, .counts, .tim, .sch, .ports, .trib, .tribOld] ps = true) : Only ps a t := by
  have := State.poolCell_only h x1 x2 hs
  rw [e] at this
  exact this


theorem State.position_only (h : Only ps a s) (x1 x2 x3) (hs : sub [.out, .counts, .tim, .line, .sch, .ports, .trib, .tribOld] ps = true) : Only ps a (State.position s x1 x2 x3).2 := by
  unfold State.position
  try dsimp only
  repeat' first
    | with_reducible assumption
    | with_reducible refine State.countMill_only ?_ _ _ _ _ _ (sub_of rfl hs)
    | with_reducible refine State.poolCell_only ?_ _ _ (sub_of rfl hs)
    | with_reducible refine State.poolCell_only_of (by assumption) ?_ (sub_of rfl hs)
    | with_reducible refine State.cellOf_only ?_ _ _ _ (sub_of rfl hs)
    | with_reducible refine State.cellOf_only_of (by assumption) ?_ (sub_of rfl hs)
    | with_reducible refine State.endCell_only ?_ _ _ (sub_of rfl hs)
    | with_reducible refine State.endCell_only_of (by assumption) ?_ (sub_of rfl hs)
    | with_reducible refine State.brokeTx_only ?_ _ (sub_of rfl hs)
    | with_reducible refine State.brokeTx_only_of (by assumption) ?_ (sub_of rfl hs)
    | split
    | (with_reducible refine Only.foldl _ (fun _ _ _ => ?_) _ _ ?_)
    | ((with_reducible apply upd_only); rotate_left; iterate 39 (first | exact Or.inr (by with_reducible rfl) | exact Or.inl (mem_of_sub hs rfl) | exact Or.inl (sub_of rfl hs) | exact Or.inr rfl | exact Or.inr ⟨rfl, rfl⟩ | exact Or.inr ⟨rfl, rfl, rfl⟩))

theorem State.position_only_of {t : State} {x1 x2 x3} {r} (e : State.position s x1 x2 x3 = (r, t)) (h : Only ps a s) (hs : sub [.out, .counts, .tim, .line, .sch, .ports, .trib, .tribOld] ps = true) : Only ps a t := by
  have := State.position_only h x1 x2 x3 hs
  rw [e] at this
  exact this


theorem positions_only_aux {T : List Area} (hs : sub T ps = true) (m : Fin 4) (ref : Stamp)
    (hp : ∀ (s : State) (e : Nat), Only ps a s → Only ps a (s.position m ref e).2) :
    ∀ (k e : Nat) (s : State), Only ps a s → Only ps a (s.positions m ref e k).2
  | 0, _, _, h => h
  | k + 1, e, s, h => by
    have h1 := hp s e h
    unfold State.positions
    rcases h2 : s.position m ref e with ⟨b, s1⟩
    rw [h2] at h1
    have h3 := positions_only_aux hs m ref hp k (e + 1) s1 h1
    dsimp only
    rcases h4 : s1.positions m ref (e + 1) k with ⟨bs, s2⟩
    rw [h4] at h3
    exact h3

theorem State.positions_only (h : Only ps a s) (m : Fin 4) (ref : Stamp) (e k : Nat) (hs : sub [.out, .counts, .tim, .line, .sch, .ports, .trib, .tribOld] ps = true) :
    Only ps a (s.positions m ref e k).2 :=
  positions_only_aux hs m ref (fun _ _ h => State.position_only h _ _ _ (sub_of rfl hs)) k e s h
theorem State.positions_only_of {t : State} {m : Fin 4} {ref : Stamp} {e k : Nat} {r} (q : s.positions m ref e k = (r, t)) (h : Only ps a s)
    (hs : sub [.out, .counts, .tim, .line, .sch, .ports, .trib, .tribOld] ps = true) : Only ps a t := by
  have := State.positions_only h m ref e k hs
  rw [q] at this
  exact this

theorem State.creditEntries_only (h : Only ps a s) (x1) (hs : sub [.sch, .trib, .tribOld] ps = true) : Only ps a (State.creditEntries s x1).2 := by
  unfold State.creditEntries
  try dsimp only
  repeat' first
    | with_reducible assumption
    | with_reducible refine State.modSch_only ?_ _ _ (sub_of rfl hs)
    | with_reducible refine State.modTribIn_only ?_ _ _ _ (sub_of rfl hs)
    | split
    | (with_reducible refine Only.foldl _ (fun _ _ _ => ?_) _ _ ?_)
    | ((with_reducible apply upd_only); rotate_left; iterate 39 (first | exact Or.inr (by with_reducible rfl) | exact Or.inl (mem_of_sub hs rfl) | exact Or.inl (sub_of rfl hs) | exact Or.inr rfl | exact Or.inr ⟨rfl, rfl⟩ | exact Or.inr ⟨rfl, rfl, rfl⟩))

theorem State.creditEntries_only_of {t : State} {x1} {r} (e : State.creditEntries s x1 = (r, t)) (h : Only ps a s) (hs : sub [.sch, .trib, .tribOld] ps = true) : Only ps a t := by
  have := State.creditEntries_only h x1 hs
  rw [e] at this
  exact this


theorem State.sendDigest_only (h : Only ps a s) (x1 x2 x3) (hs : sub [.out, .mte] ps = true) : Only ps a (State.sendDigest s x1 x2 x3) := by
  unfold State.sendDigest
  try dsimp only
  repeat' first
    | with_reducible assumption
    | ((with_reducible refine State.modMte_only ?_ _ ?_ ?_); rotate_left; (first | exact Or.inl (mem_of_sub hs rfl) | exact Or.inr (fun _ => rfl)); (first | exact Or.inl (mem_of_sub hs rfl) | exact Or.inr (fun _ => rfl) | exact Or.inr (fun _ => ⟨rfl, rfl⟩) | exact Or.inr (fun _ => ⟨rfl, rfl, rfl⟩)))
    | with_reducible refine State.feltSend_only ?_ _ _ (sub_of rfl hs)
    | split
    | (with_reducible refine Only.foldl _ (fun _ _ _ => ?_) _ _ ?_)
    | ((with_reducible apply upd_only); rotate_left; iterate 39 (first | exact Or.inr (by with_reducible rfl) | exact Or.inl (mem_of_sub hs rfl) | exact Or.inl (sub_of rfl hs) | exact Or.inr rfl | exact Or.inr ⟨rfl, rfl⟩ | exact Or.inr ⟨rfl, rfl, rfl⟩))


theorem State.seqSent_only (h : Only ps a s) (x1 x2 x3) (hs : sub [.out, .status, .counts, .evrQueue, .lci, .cur, .mte] ps = true) : Only ps a (State.seqSent s x1 x2 x3) := by
  unfold State.seqSent
  try dsimp only
  repeat' first
    | with_reducible assumption
    | with_reducible refine State.setBit_only ?_ _ _ _ (Or.inr (by first | rfl | (simp; done) | decide)) (Or.inl (mem_of_sub hs rfl))
    | with_reducible refine State.countMill_only ?_ _ _ _ _ _ (sub_of rfl hs)
    | with_reducible refine State.modLkn_only ?_ _ _ _ (sub_of rfl hs)
    | with_reducible refine State.fixMill_only ?_ _ _ _ (sub_of rfl hs)
    | with_reducible refine State.txDone_only ?_ _ _ _ (sub_of rfl hs)
    | split
    | (with_reducible refine Only.foldl _ (fun _ _ _ => ?_) _ _ ?_)
    | ((with_reducible apply upd_only); rotate_left; iterate 39 (first | exact Or.inr (by with_reducible rfl) | exact Or.inl (mem_of_sub hs rfl) | exact Or.inl (sub_of rfl hs) | exact Or.inr rfl | exact Or.inr ⟨rfl, rfl⟩ | exact Or.inr ⟨rfl, rfl, rfl⟩))


theorem State.sheetOut_only (h : Only ps a s) (x1 x2 x3) (hs : sub [.out, .line] ps = true) : Only ps a (State.sheetOut s x1 x2 x3) := by
  unfold State.sheetOut
  try dsimp only
  repeat' first
    | with_reducible assumption
    | with_reducible refine State.emit_only ?_ _ (sub_of rfl hs)
    | with_reducible refine State.wireSheet_only ?_ _ _ _ _ (sub_of rfl hs)
    | split
    | (with_reducible refine Only.foldl _ (fun _ _ _ => ?_) _ _ ?_)
    | ((with_reducible apply upd_only); rotate_left; iterate 39 (first | exact Or.inr (by with_reducible rfl) | exact Or.inl (mem_of_sub hs rfl) | exact Or.inl (sub_of rfl hs) | exact Or.inr rfl | exact Or.inr ⟨rfl, rfl⟩ | exact Or.inr ⟨rfl, rfl, rfl⟩))


theorem State.sendKeyed_only (h : Only ps a s) (x1 x2) (hs : sub [.out, .status, .counts, .evrQueue, .tim, .line, .lci, .sch, .ports, .trib, .tribOld, .cur, .mte] ps = true) : Only ps a (State.sendKeyed s x1 x2) := by
  unfold State.sendKeyed
  try dsimp only
  repeat' first
    | with_reducible assumption
    | with_reducible refine State.wakeAll_only ?_ _ (sub_of rfl hs)
    | with_reducible refine State.sheetOut_only ?_ _ _ _ (sub_of rfl hs)
    | with_reducible refine State.positions_only ?_ _ _ _ _ (sub_of rfl hs)
    | with_reducible refine State.positions_only_of (by assumption) ?_ (sub_of rfl hs)
    | with_reducible refine State.seqSent_only ?_ _ _ _ (sub_of rfl hs)
    | with_reducible refine State.creditEntries_only ?_ _ (sub_of rfl hs)
    | with_reducible refine State.creditEntries_only_of (by assumption) ?_ (sub_of rfl hs)
    | with_reducible refine State.sendDigest_only ?_ _ _ _ (sub_of rfl hs)
    | with_reducible refine State.dlgSlot_only ?_ _ _ _ (sub_of rfl hs)
    | with_reducible refine State.dlgSlot_only_of (by assumption) ?_ (sub_of rfl hs)
    | split
    | (with_reducible refine Only.foldl _ (fun _ _ _ => ?_) _ _ ?_)
    | ((with_reducible apply upd_only); rotate_left; iterate 39 (first | exact Or.inr (by with_reducible rfl) | exact Or.inl (mem_of_sub hs rfl) | exact Or.inl (sub_of rfl hs) | exact Or.inr rfl | exact Or.inr ⟨rfl, rfl⟩ | exact Or.inr ⟨rfl, rfl, rfl⟩))


theorem State.sendIdle_only (h : Only ps a s) (x1) (hs : sub [.out, .counts, .line, .mte] ps = true) : Only ps a (State.sendIdle s x1) := by
  unfold State.sendIdle
  try dsimp only
  repeat' first
    | with_reducible assumption
    | with_reducible refine State.fixMill_only ?_ _ _ _ (sub_of rfl hs)
    | with_reducible refine State.countMill_only ?_ _ _ _ _ _ (sub_of rfl hs)
    | with_reducible refine State.sendDigest_only ?_ _ _ _ (sub_of rfl hs)
    | with_reducible refine State.dlgSlot_only ?_ _ _ _ (sub_of rfl hs)
    | with_reducible refine State.dlgSlot_only_of (by assumption) ?_ (sub_of rfl hs)
    | with_reducible refine State.sheetOut_only ?_ _ _ _ (sub_of rfl hs)
    | split
    | (with_reducible refine Only.foldl _ (fun _ _ _ => ?_) _ _ ?_)
    | ((with_reducible apply upd_only); rotate_left; iterate 39 (first | exact Or.inr (by with_reducible rfl) | exact Or.inl (mem_of_sub hs rfl) | exact Or.inl (sub_of rfl hs) | exact Or.inr rfl | exact Or.inr ⟨rfl, rfl⟩ | exact Or.inr ⟨rfl, rfl, rfl⟩))


theorem State.wmLatchTx_only (h : Only ps a s) (x1) (hs : sub [.line] ps = true) : Only ps a (State.wmLatchTx s x1) := by
  unfold State.wmLatchTx
  try dsimp only
  repeat' first
    | with_reducible assumption
    | with_reducible refine State.modLine_only ?_ _ _ (sub_of rfl hs)
    | split
    | (with_reducible refine Only.foldl _ (fun _ _ _ => ?_) _ _ ?_)
    | ((with_reducible apply upd_only); rotate_left; iterate 39 (first | exact Or.inr (by with_reducible rfl) | exact Or.inl (mem_of_sub hs rfl) | exact Or.inl (sub_of rfl hs) | exact Or.inr rfl | exact Or.inr ⟨rfl, rfl⟩ | exact Or.inr ⟨rfl, rfl, rfl⟩))


theorem State.sheetSend_only (h : Only ps a s) (x1) (hs : sub [.out, .status, .counts, .evrQueue, .tim, .line, .lci, .sch, .ports, .trib, .tribOld, .cur, .mte] ps = true) : Only ps a (State.sheetSend s x1) := by
  unfold State.sheetSend
  try dsimp only
  repeat' first
    | with_reducible assumption
    | with_reducible refine State.modLine_only ?_ _ _ (sub_of rfl hs)
    | with_reducible refine State.modSch_only ?_ _ _ (sub_of rfl hs)
    | with_reducible refine State.wmLatchTx_only ?_ _ (sub_of rfl hs)
    | with_reducible refine State.sendIdle_only ?_ _ (sub_of rfl hs)
    | with_reducible refine State.sendKeyed_only ?_ _ _ (sub_of rfl hs)
    | with_reducible refine State.dlgWait_only ?_ _ (sub_of rfl hs)
    | split
    | (with_reducible refine Only.foldl _ (fun _ _ _ => ?_) _ _ ?_)
    | ((with_reducible apply upd_only); rotate_left; iterate 39 (first | exact Or.inr (by with_reducible rfl) | exact Or.inl (mem_of_sub hs rfl) | exact Or.inl (sub_of rfl hs) | exact Or.inr rfl | exact Or.inr ⟨rfl, rfl⟩ | exact Or.inr ⟨rfl, rfl, rfl⟩))


theorem execSheetSend_only (h : Only ps a s) (x0) (hs : sub [.out, .status, .irq, .counts, .evrQueue, .tim, .line, .lci, .sch, .ports, .trib, .tribOld, .cur, .mte] ps = true) : OnlyR ps a (execSheetSend x0 s) := by
  unfold execSheetSend
  try dsimp only
  repeat' first
    | with_reducible assumption
    | with_reducible refine finish_only ?_  (sub_of rfl hs)
    | with_reducible refine idle_only ?_  (sub_of rfl hs)
    | with_reducible refine State.sheetSend_only ?_ _ (sub_of rfl hs)
    | with_reducible refine finish_only ?_ (sub_of rfl hs)
    | with_reducible refine idle_only ?_
    | split
    | (with_reducible refine Only.foldl _ (fun _ _ _ => ?_) _ _ ?_)
    | ((with_reducible apply upd_only); rotate_left; iterate 39 (first | exact Or.inr (by with_reducible rfl) | exact Or.inl (mem_of_sub hs rfl) | exact Or.inl (sub_of rfl hs) | exact Or.inr rfl | exact Or.inr ⟨rfl, rfl⟩ | exact Or.inr ⟨rfl, rfl, rfl⟩))


theorem State.waitFail_only (h : Only ps a s) (x1 x2) (hs : sub [.counts, .evrQueue, .cur] ps = true) : Only ps a (State.waitFail s x1 x2) := by
  unfold State.waitFail
  try dsimp only
  repeat' first
    | with_reducible assumption
    | with_reducible refine State.haltRing_only ?_ _ _ (sub_of rfl hs)
    | with_reducible refine State.complete_only ?_ _ _ _ _ _ _ (sub_of rfl hs)
    | split
    | (with_reducible refine Only.foldl _ (fun _ _ _ => ?_) _ _ ?_)
    | ((with_reducible apply upd_only); rotate_left; iterate 39 (first | exact Or.inr (by with_reducible rfl) | exact Or.inl (mem_of_sub hs rfl) | exact Or.inl (sub_of rfl hs) | exact Or.inr rfl | exact Or.inr ⟨rfl, rfl⟩ | exact Or.inr ⟨rfl, rfl, rfl⟩))


theorem State.waitsStop_only (h : Only ps a s) (x1 x2) (hs : sub [.counts, .evrQueue, .cur] ps = true) : Only ps a (State.waitsStop s x1 x2) := by
  fun_induction State.waitsStop s x1 x2 <;> try dsimp only
  repeat' first
    | with_reducible assumption
    | with_reducible refine State.waitFail_only ?_ _ _ (sub_of rfl hs)
    | with_reducible apply_assumption -exfalso -symm
    | split
    | (with_reducible refine Only.foldl _ (fun _ _ _ => ?_) _ _ ?_)
    | ((with_reducible apply upd_only); rotate_left; iterate 39 (first | exact Or.inr (by with_reducible rfl) | exact Or.inl (mem_of_sub hs rfl) | exact Or.inl (sub_of rfl hs) | exact Or.inr rfl | exact Or.inr ⟨rfl, rfl⟩ | exact Or.inr ⟨rfl, rfl, rfl⟩))


theorem State.setTxEn_only (h : Only ps a s) (x1 x2) (hs : sub [.out, .status, .counts, .evrQueue, .rng, .line, .dkl, .lci, .cur, .mte] ps = true) : Only ps a (State.setTxEn s x1 x2) := by
  unfold State.setTxEn
  try dsimp only
  repeat' first
    | with_reducible assumption
    | with_reducible refine State.setBit_only ?_ _ _ _ (Or.inr (by first | rfl | (simp; done) | decide)) (Or.inl (mem_of_sub hs rfl))
    | with_reducible refine State.modLine_only ?_ _ _ (sub_of rfl hs)
    | with_reducible refine State.lknStop_only ?_ _ (sub_of rfl hs)
    | with_reducible refine State.dklStop_only ?_ _ (sub_of rfl hs)
    | with_reducible refine State.askSession_only ?_ _ _ (sub_of rfl hs)
    | with_reducible refine State.waitsStop_only ?_ _ _ (sub_of rfl hs)
    | split
    | (with_reducible refine Only.foldl _ (fun _ _ _ => ?_) _ _ ?_)
    | ((with_reducible apply upd_only); rotate_left; iterate 39 (first | exact Or.inr (by with_reducible rfl) | exact Or.inl (mem_of_sub hs rfl) | exact Or.inl (sub_of rfl hs) | exact Or.inr rfl | exact Or.inr ⟨rfl, rfl⟩ | exact Or.inr ⟨rfl, rfl, rfl⟩))


theorem execLnfTxEnable_only (h : Only ps a s) (x0) (hs : sub [.out, .status, .irq, .counts, .evrQueue, .rng, .line, .dkl, .lci, .cur, .mte] ps = true) : OnlyR ps a (execLnfTxEnable x0 s) := by
  unfold execLnfTxEnable
  try dsimp only
  repeat' first
    | with_reducible assumption
    | with_reducible refine finish_only ?_  (sub_of rfl hs)
    | with_reducible refine idle_only ?_  (sub_of rfl hs)
    | with_reducible refine State.setTxEn_only ?_ _ _ (sub_of rfl hs)
    | with_reducible refine finish_only ?_ (sub_of rfl hs)
    | with_reducible refine idle_only ?_
    | split
    | (with_reducible refine Only.foldl _ (fun _ _ _ => ?_) _ _ ?_)
    | ((with_reducible apply upd_only); rotate_left; iterate 39 (first | exact Or.inr (by with_reducible rfl) | exact Or.inl (mem_of_sub hs rfl) | exact Or.inl (sub_of rfl hs) | exact Or.inr rfl | exact Or.inr ⟨rfl, rfl⟩ | exact Or.inr ⟨rfl, rfl, rfl⟩))


theorem execLnfTxDisable_only (h : Only ps a s) (x0) (hs : sub [.out, .status, .irq, .counts, .evrQueue, .rng, .line, .dkl, .lci, .cur, .mte] ps = true) : OnlyR ps a (execLnfTxDisable x0 s) := by
  unfold execLnfTxDisable
  try dsimp only
  repeat' first
    | with_reducible assumption
    | with_reducible refine finish_only ?_  (sub_of rfl hs)
    | with_reducible refine idle_only ?_  (sub_of rfl hs)
    | with_reducible refine State.setTxEn_only ?_ _ _ (sub_of rfl hs)
    | with_reducible refine finish_only ?_ (sub_of rfl hs)
    | with_reducible refine idle_only ?_
    | split
    | (with_reducible refine Only.foldl _ (fun _ _ _ => ?_) _ _ ?_)
    | ((with_reducible apply upd_only); rotate_left; iterate 39 (first | exact Or.inr (by with_reducible rfl) | exact Or.inl (mem_of_sub hs rfl) | exact Or.inl (sub_of rfl hs) | exact Or.inr rfl | exact Or.inr ⟨rfl, rfl⟩ | exact Or.inr ⟨rfl, rfl, rfl⟩))


theorem State.writeLaneUse_only (h : Only ps a s) (x1 x2) (hs : sub [.status, .counts, .evrQueue, .tim, .line, .dkl, .lanes] ps = true) : Only ps a (State.writeLaneUse s x1 x2) := by
  unfold State.writeLaneUse
  try dsimp only
  repeat' first
    | with_reducible assumption
    | with_reducible refine State.setFld_only ?_ _ _ _ _ (Or.inr (by first | rfl | (simp; done) | decide)) (Or.inl (mem_of_sub hs rfl))
    | with_reducible refine State.modLine_only ?_ _ _ (sub_of rfl hs)
    | with_reducible refine State.laneUseTakes_only ?_ _ (sub_of rfl hs)
    | split
    | (with_reducible refine Only.foldl _ (fun _ _ _ => ?_) _ _ ?_)
    | ((with_reducible apply upd_only); rotate_left; iterate 39 (first | exact Or.inr (by with_reducible rfl) | exact Or.inl (mem_of_sub hs rfl) | exact Or.inl (sub_of rfl hs) | exact Or.inr rfl | exact Or.inr ⟨rfl, rfl⟩ | exact Or.inr ⟨rfl, rfl, rfl⟩))


theorem State.writeSend_only (h : Only ps a s) (x1 x2 x3) (hs : sub [.status, .counts, .evrQueue, .line] ps = true) : Only ps a (State.writeSend s x1 x2 x3) := by
  unfold State.writeSend
  try dsimp only
  repeat' first
    | with_reducible assumption
    | with_reducible refine State.setBit_only ?_ _ _ _ (Or.inr (by first | rfl | (simp; done) | decide)) (Or.inl (mem_of_sub hs rfl))
    | with_reducible refine State.lockedWrite_only ?_ _ _ _ (sub_of rfl hs)
    | with_reducible refine State.countMill_only ?_ _ _ _ _ _ (sub_of rfl hs)
    | with_reducible refine State.modLine_only ?_ _ _ (sub_of rfl hs)
    | split
    | (with_reducible refine Only.foldl _ (fun _ _ _ => ?_) _ _ ?_)
    | ((with_reducible apply upd_only); rotate_left; iterate 39 (first | exact Or.inr (by with_reducible rfl) | exact Or.inl (mem_of_sub hs rfl) | exact Or.inl (sub_of rfl hs) | exact Or.inr rfl | exact Or.inr ⟨rfl, rfl⟩ | exact Or.inr ⟨rfl, rfl, rfl⟩))


theorem execDlgSend_only (h : Only ps a s) (x0 x1) (hs : sub [.out, .status, .irq, .counts, .evrQueue, .line] ps = true) : OnlyR ps a (execDlgSend x0 x1 s) := by
  unfold execDlgSend
  try dsimp only
  repeat' first
    | with_reducible assumption
    | with_reducible refine finish_only ?_  (sub_of rfl hs)
    | with_reducible refine idle_only ?_  (sub_of rfl hs)
    | with_reducible refine State.writeSend_only ?_ _ _ _ (sub_of rfl hs)
    | with_reducible refine finish_only ?_ (sub_of rfl hs)
    | with_reducible refine idle_only ?_
    | split
    | (with_reducible refine Only.foldl _ (fun _ _ _ => ?_) _ _ ?_)
    | ((with_reducible apply upd_only); rotate_left; iterate 39 (first | exact Or.inr (by with_reducible rfl) | exact Or.inl (mem_of_sub hs rfl) | exact Or.inl (sub_of rfl hs) | exact Or.inr rfl | exact Or.inr ⟨rfl, rfl⟩ | exact Or.inr ⟨rfl, rfl, rfl⟩))


theorem State.writeReneg_only (h : Only ps a s) (x1) (hs : sub [.counts, .rng, .line] ps = true) : Only ps a (State.writeReneg s x1) := by
  unfold State.writeReneg
  try dsimp only
  repeat' first
    | with_reducible assumption
    | with_reducible refine State.modLine_only ?_ _ _ (sub_of rfl hs)
    | with_reducible refine State.askSession_only ?_ _ _ (sub_of rfl hs)
    | split
    | (with_reducible refine Only.foldl _ (fun _ _ _ => ?_) _ _ ?_)
    | ((with_reducible apply upd_only); rotate_left; iterate 39 (first | exact Or.inr (by with_reducible rfl) | exact Or.inl (mem_of_sub hs rfl) | exact Or.inl (sub_of rfl hs) | exact Or.inr rfl | exact Or.inr ⟨rfl, rfl⟩ | exact Or.inr ⟨rfl, rfl, rfl⟩))


theorem execDlgReneg_only (h : Only ps a s) (x0) (hs : sub [.out, .irq, .counts, .evrQueue, .rng, .line] ps = true) : OnlyR ps a (execDlgReneg x0 s) := by
  unfold execDlgReneg
  try dsimp only
  repeat' first
    | with_reducible assumption
    | with_reducible refine finish_only ?_  (sub_of rfl hs)
    | with_reducible refine idle_only ?_  (sub_of rfl hs)
    | with_reducible refine State.writeReneg_only ?_ _ (sub_of rfl hs)
    | with_reducible refine finish_only ?_ (sub_of rfl hs)
    | with_reducible refine idle_only ?_
    | split
    | (with_reducible refine Only.foldl _ (fun _ _ _ => ?_) _ _ ?_)
    | ((with_reducible apply upd_only); rotate_left; iterate 39 (first | exact Or.inr (by with_reducible rfl) | exact Or.inl (mem_of_sub hs rfl) | exact Or.inl (sub_of rfl hs) | exact Or.inr rfl | exact Or.inr ⟨rfl, rfl⟩ | exact Or.inr ⟨rfl, rfl, rfl⟩))


theorem execDlgRxRelease_only (h : Only ps a s) (x0) (hs : sub [.out, .status, .irq, .counts, .evrQueue] ps = true) : OnlyR ps a (execDlgRxRelease x0 s) := by
  unfold execDlgRxRelease
  try dsimp only
  repeat' first
    | with_reducible assumption
    | with_reducible refine State.setBit_only ?_ _ _ _ (Or.inr (by first | rfl | (simp; done) | decide)) (Or.inl (mem_of_sub hs rfl))
    | with_reducible refine finish_only ?_  (sub_of rfl hs)
    | with_reducible refine idle_only ?_  (sub_of rfl hs)
    | with_reducible refine finish_only ?_ (sub_of rfl hs)
    | with_reducible refine idle_only ?_
    | split
    | (with_reducible refine Only.foldl _ (fun _ _ _ => ?_) _ _ ?_)
    | ((with_reducible apply upd_only); rotate_left; iterate 39 (first | exact Or.inr (by with_reducible rfl) | exact Or.inl (mem_of_sub hs rfl) | exact Or.inl (sub_of rfl hs) | exact Or.inr rfl | exact Or.inr ⟨rfl, rfl⟩ | exact Or.inr ⟨rfl, rfl, rfl⟩))


end Sys2Proof.Machine
end

