-- ==== Sys2Proof/Laws/OnlyLineRx.lean ====
section
/-! SUPPORT. What each operation of Machine/LineRx.lean may change. -/

set_option linter.unusedTactic false
set_option linter.unreachableTactic false
set_option linter.unusedVariables false
set_option linter.unusedSimpArgs false

namespace Sys2Proof.Machine

variable {ps : List Area} {a s : State}

theorem execLostSheetPeriod_only (h : Only ps a s) (x0) (hs : sub [.out, .irq, .counts, .evrQueue, .line, .sch, .trib] ps = true) : OnlyR ps a (execLostSheetPeriod x0 s) := by
  unfold execLostSheetPeriod
  try dsimp only
  repeat' first
    | with_reducible assumption
    | with_reducible refine finish_only ?_  (sub_of rfl hs)
    | with_reducible refine idle_only ?_  (sub_of rfl hs)
    | with_reducible refine State.modLine_only ?_ _ _ (sub_of rfl hs)
    | with_reducible refine State.sheetLost_only ?_ _ (sub_of rfl hs)
    | with_reducible refine State.countLost_only ?_ _ _ (sub_of rfl hs)
    | with_reducible refine finish_only ?_ (sub_of rfl hs)
    | with_reducible refine idle_only ?_
    | split
    | (with_reducible refine Only.foldl _ (fun _ _ _ => ?_) _ _ ?_)
    | ((with_reducible apply upd_only); rotate_left; iterate 39 (first | exact Or.inr (by with_reducible rfl) | exact Or.inl (mem_of_sub hs rfl) | exact Or.inl (sub_of rfl hs) | exact Or.inr rfl | exact Or.inr ⟨rfl, rfl⟩ | exact Or.inr ⟨rfl, rfl, rfl⟩))


theorem execCodewordLock_only (h : Only ps a s) (x0 x1) (hs : sub [.out, .irq, .counts, .evrQueue, .line] ps = true) : OnlyR ps a (execCodewordLock x0 x1 s) := by
  unfold execCodewordLock
  try dsimp only
  repeat' first
    | with_reducible assumption
    | with_reducible refine finish_only ?_  (sub_of rfl hs)
    | with_reducible refine idle_only ?_  (sub_of rfl hs)
    | with_reducible refine State.modLine_only ?_ _ _ (sub_of rfl hs)
    | with_reducible refine finish_only ?_ (sub_of rfl hs)
    | with_reducible refine idle_only ?_
    | split
    | (with_reducible refine Only.foldl _ (fun _ _ _ => ?_) _ _ ?_)
    | ((with_reducible apply upd_only); rotate_left; iterate 39 (first | exact Or.inr (by with_reducible rfl) | exact Or.inl (mem_of_sub hs rfl) | exact Or.inl (sub_of rfl hs) | exact Or.inr rfl | exact Or.inr ⟨rfl, rfl⟩ | exact Or.inr ⟨rfl, rfl, rfl⟩))


theorem State.setRxMap_only (h : Only ps a s) (x1 x2) (hs : sub [.status, .counts, .evrQueue, .tim, .line, .dkl, .lanes] ps = true) : Only ps a (State.setRxMap s x1 x2) := by
  unfold State.setRxMap
  try dsimp only
  repeat' first
    | with_reducible assumption
    | with_reducible refine State.setMaps_only ?_ _ _ _ (sub_of rfl hs)
    | split
    | (with_reducible refine Only.foldl _ (fun _ _ _ => ?_) _ _ ?_)
    | ((with_reducible apply upd_only); rotate_left; iterate 39 (first | exact Or.inr (by with_reducible rfl) | exact Or.inl (mem_of_sub hs rfl) | exact Or.inl (sub_of rfl hs) | exact Or.inr rfl | exact Or.inr ⟨rfl, rfl⟩ | exact Or.inr ⟨rfl, rfl, rfl⟩))


theorem State.gainAlign_only (h : Only ps a s) (x1 x2) (hs : sub [.status, .counts, .evrQueue, .tim, .line, .dkl, .sch, .trib, .lanes] ps = true) : Only ps a (State.gainAlign s x1 x2) := by
  unfold State.gainAlign
  try dsimp only
  repeat' first
    | with_reducible assumption
    | with_reducible refine State.modLine_only ?_ _ _ (sub_of rfl hs)
    | with_reducible refine State.sheetLost_only ?_ _ (sub_of rfl hs)
    | with_reducible refine State.setLoa_only ?_ _ _ (sub_of rfl hs)
    | with_reducible refine State.countLost_only ?_ _ _ (sub_of rfl hs)
    | with_reducible refine State.negLook_only ?_ _ (sub_of rfl hs)
    | with_reducible refine State.setRxMap_only ?_ _ _ (sub_of rfl hs)
    | split
    | (with_reducible refine Only.foldl _ (fun _ _ _ => ?_) _ _ ?_)
    | ((with_reducible apply upd_only); rotate_left; iterate 39 (first | exact Or.inr (by with_reducible rfl) | exact Or.inl (mem_of_sub hs rfl) | exact Or.inl (sub_of rfl hs) | exact Or.inr rfl | exact Or.inr ⟨rfl, rfl⟩ | exact Or.inr ⟨rfl, rfl, rfl⟩))


theorem State.skewLook_only (h : Only ps a s) (x1) (hs : sub [.status, .counts, .evrQueue, .tim, .line] ps = true) : Only ps a (State.skewLook s x1) := by
  unfold State.skewLook
  try dsimp only
  repeat' first
    | with_reducible assumption
    | with_reducible refine State.modLine_only ?_ _ _ (sub_of rfl hs)
    | with_reducible refine State.setSkew_only ?_ _ _ (sub_of rfl hs)
    | with_reducible refine State.loseAlign_only ?_ _ (sub_of rfl hs)
    | split
    | (with_reducible refine Only.foldl _ (fun _ _ _ => ?_) _ _ ?_)
    | ((with_reducible apply upd_only); rotate_left; iterate 39 (first | exact Or.inr (by with_reducible rfl) | exact Or.inl (mem_of_sub hs rfl) | exact Or.inl (sub_of rfl hs) | exact Or.inr rfl | exact Or.inr ⟨rfl, rfl⟩ | exact Or.inr ⟨rfl, rfl, rfl⟩))


theorem State.groupLook_only (h : Only ps a s) (x1) (hs : sub [.status, .counts, .evrQueue, .tim, .line, .dkl, .sch, .trib, .lanes] ps = true) : Only ps a (State.groupLook s x1) := by
  unfold State.groupLook
  try dsimp only
  repeat' first
    | with_reducible assumption
    | with_reducible refine State.setRxMap_only ?_ _ _ (sub_of rfl hs)
    | with_reducible refine State.skewLook_only ?_ _ (sub_of rfl hs)
    | with_reducible refine State.gainAlign_only ?_ _ _ (sub_of rfl hs)
    | split
    | (with_reducible refine Only.foldl _ (fun _ _ _ => ?_) _ _ ?_)
    | ((with_reducible apply upd_only); rotate_left; iterate 39 (first | exact Or.inr (by with_reducible rfl) | exact Or.inl (mem_of_sub hs rfl) | exact Or.inl (sub_of rfl hs) | exact Or.inr rfl | exact Or.inr ⟨rfl, rfl⟩ | exact Or.inr ⟨rfl, rfl, rfl⟩))


theorem State.rxMark_only (h : Only ps a s) (x1) (hs : sub [.line] ps = true) : Only ps a (State.rxMark s x1) := by
  unfold State.rxMark
  try dsimp only
  repeat' first
    | with_reducible assumption
    | with_reducible refine State.modLine_only ?_ _ _ (sub_of rfl hs)
    | split
    | (with_reducible refine Only.foldl _ (fun _ _ _ => ?_) _ _ ?_)
    | ((with_reducible apply upd_only); rotate_left; iterate 39 (first | exact Or.inr (by with_reducible rfl) | exact Or.inl (mem_of_sub hs rfl) | exact Or.inl (sub_of rfl hs) | exact Or.inr rfl | exact Or.inr ⟨rfl, rfl⟩ | exact Or.inr ⟨rfl, rfl, rfl⟩))


theorem execLaneMarkerCheck_only (h : Only ps a s) (x0 x1 x2) (hs : sub [.out, .status, .irq, .counts, .evrQueue, .tim, .line, .dkl, .sch, .trib, .lanes] ps = true) : OnlyR ps a (execLaneMarkerCheck x0 x1 x2 s) := by
  unfold execLaneMarkerCheck
  try dsimp only
  repeat' first
    | with_reducible assumption
    | with_reducible refine finish_only ?_  (sub_of rfl hs)
    | with_reducible refine idle_only ?_  (sub_of rfl hs)
    | with_reducible refine State.modLine_only ?_ _ _ (sub_of rfl hs)
    | with_reducible refine State.defectEdge_only ?_ _ _ _ (sub_of rfl hs)
    | with_reducible refine State.laneLost_only ?_ _ _ (sub_of rfl hs)
    | with_reducible refine State.groupLook_only ?_ _ (sub_of rfl hs)
    | with_reducible refine State.rxMark_only ?_ _ (sub_of rfl hs)
    | with_reducible refine finish_only ?_ (sub_of rfl hs)
    | with_reducible refine idle_only ?_
    | split
    | (with_reducible refine Only.foldl _ (fun _ _ _ => ?_) _ _ ?_)
    | ((with_reducible apply upd_only); rotate_left; iterate 39 (first | exact Or.inr (by with_reducible rfl) | exact Or.inl (mem_of_sub hs rfl) | exact Or.inl (sub_of rfl hs) | exact Or.inr rfl | exact Or.inr ⟨rfl, rfl⟩ | exact Or.inr ⟨rfl, rfl, rfl⟩))


theorem State.huntAll_only (h : Only ps a s) (x1) (hs : sub [.status, .counts, .evrQueue, .tim, .line] ps = true) : Only ps a (State.huntAll s x1) := by
  unfold State.huntAll
  try dsimp only
  repeat' first
    | with_reducible assumption
    | with_reducible refine State.laneLost_only ?_ _ _ (sub_of rfl hs)
    | split
    | (with_reducible refine Only.foldl _ (fun _ _ _ => ?_) _ _ ?_)
    | ((with_reducible apply upd_only); rotate_left; iterate 39 (first | exact Or.inr (by with_reducible rfl) | exact Or.inl (mem_of_sub hs rfl) | exact Or.inl (sub_of rfl hs) | exact Or.inr rfl | exact Or.inr ⟨rfl, rfl⟩ | exact Or.inr ⟨rfl, rfl, rfl⟩))


theorem State.setRxEn_only (h : Only ps a s) (x1 x2) (hs : sub [.status, .counts, .evrQueue, .tim, .line, .sch, .trib] ps = true) : Only ps a (State.setRxEn s x1 x2) := by
  unfold State.setRxEn
  try dsimp only
  repeat' first
    | with_reducible assumption
    | with_reducible refine State.setBit_only ?_ _ _ _ (Or.inr (by first | rfl | (simp; done) | decide)) (Or.inl (mem_of_sub hs rfl))
    | with_reducible refine State.modLine_only ?_ _ _ (sub_of rfl hs)
    | with_reducible refine State.setKeyless_only ?_ _ _ (sub_of rfl hs)
    | with_reducible refine State.setFeDef_only ?_ _ _ _ (sub_of rfl hs)
    | with_reducible refine State.loseAlign_only ?_ _ (sub_of rfl hs)
    | with_reducible refine State.setWm_only ?_ _ _ (sub_of rfl hs)
    | with_reducible refine State.setAuth_only ?_ _ _ (sub_of rfl hs)
    | with_reducible refine State.sheetLost_only ?_ _ (sub_of rfl hs)
    | with_reducible refine State.huntAll_only ?_ _ (sub_of rfl hs)
    | split
    | (with_reducible refine Only.foldl _ (fun _ _ _ => ?_) _ _ ?_)
    | ((with_reducible apply upd_only); rotate_left; iterate 39 (first | exact Or.inr (by with_reducible rfl) | exact Or.inl (mem_of_sub hs rfl) | exact Or.inl (sub_of rfl hs) | exact Or.inr rfl | exact Or.inr ⟨rfl, rfl⟩ | exact Or.inr ⟨rfl, rfl, rfl⟩))


theorem execLnfRxEnable_only (h : Only ps a s) (x0) (hs : sub [.out, .status, .irq, .counts, .evrQueue, .tim, .line, .sch, .trib] ps = true) : OnlyR ps a (execLnfRxEnable x0 s) := by
  unfold execLnfRxEnable
  try dsimp only
  repeat' first
    | with_reducible assumption
    | with_reducible refine idle_only ?_  (sub_of rfl hs)
    | with_reducible refine finish_only ?_  (sub_of rfl hs)
    | with_reducible refine State.setRxEn_only ?_ _ _ (sub_of rfl hs)
    | with_reducible refine finish_only ?_ (sub_of rfl hs)
    | with_reducible refine idle_only ?_
    | split
    | (with_reducible refine Only.foldl _ (fun _ _ _ => ?_) _ _ ?_)
    | ((with_reducible apply upd_only); rotate_left; iterate 39 (first | exact Or.inr (by with_reducible rfl) | exact Or.inl (mem_of_sub hs rfl) | exact Or.inl (sub_of rfl hs) | exact Or.inr rfl | exact Or.inr ⟨rfl, rfl⟩ | exact Or.inr ⟨rfl, rfl, rfl⟩))


theorem execLnfRxDisable_only (h : Only ps a s) (x0) (hs : sub [.out, .status, .irq, .counts, .evrQueue, .tim, .line, .sch, .trib] ps = true) : OnlyR ps a (execLnfRxDisable x0 s) := by
  unfold execLnfRxDisable
  try dsimp only
  repeat' first
    | with_reducible assumption
    | with_reducible refine idle_only ?_  (sub_of rfl hs)
    | with_reducible refine finish_only ?_  (sub_of rfl hs)
    | with_reducible refine State.setRxEn_only ?_ _ _ (sub_of rfl hs)
    | with_reducible refine finish_only ?_ (sub_of rfl hs)
    | with_reducible refine idle_only ?_
    | split
    | (with_reducible refine Only.foldl _ (fun _ _ _ => ?_) _ _ ?_)
    | ((with_reducible apply upd_only); rotate_left; iterate 39 (first | exact Or.inr (by with_reducible rfl) | exact Or.inl (mem_of_sub hs rfl) | exact Or.inl (sub_of rfl hs) | exact Or.inr rfl | exact Or.inr ⟨rfl, rfl⟩ | exact Or.inr ⟨rfl, rfl, rfl⟩))


theorem State.setHuntEn_only (h : Only ps a s) (x1 x2) (hs : sub [.status, .counts, .evrQueue, .tim, .line] ps = true) : Only ps a (State.setHuntEn s x1 x2) := by
  unfold State.setHuntEn
  try dsimp only
  repeat' first
    | with_reducible assumption
    | with_reducible refine State.setBit_only ?_ _ _ _ (Or.inr (by first | rfl | (simp; done) | decide)) (Or.inl (mem_of_sub hs rfl))
    | with_reducible refine State.huntAll_only ?_ _ (sub_of rfl hs)
    | split
    | (with_reducible refine Only.foldl _ (fun _ _ _ => ?_) _ _ ?_)
    | ((with_reducible apply upd_only); rotate_left; iterate 39 (first | exact Or.inr (by with_reducible rfl) | exact Or.inl (mem_of_sub hs rfl) | exact Or.inl (sub_of rfl hs) | exact Or.inr rfl | exact Or.inr ⟨rfl, rfl⟩ | exact Or.inr ⟨rfl, rfl, rfl⟩))


theorem State.setWmEn_only (h : Only ps a s) (x1 x2) (hs : sub [.status, .counts, .evrQueue, .line] ps = true) : Only ps a (State.setWmEn s x1 x2) := by
  unfold State.setWmEn
  try dsimp only
  repeat' first
    | with_reducible assumption
    | with_reducible refine State.setBit_only ?_ _ _ _ (Or.inr (by first | rfl | (simp; done) | decide)) (Or.inl (mem_of_sub hs rfl))
    | with_reducible refine State.modLine_only ?_ _ _ (sub_of rfl hs)
    | with_reducible refine State.setWm_only ?_ _ _ (sub_of rfl hs)
    | split
    | (with_reducible refine Only.foldl _ (fun _ _ _ => ?_) _ _ ?_)
    | ((with_reducible apply upd_only); rotate_left; iterate 39 (first | exact Or.inr (by with_reducible rfl) | exact Or.inl (mem_of_sub hs rfl) | exact Or.inl (sub_of rfl hs) | exact Or.inr rfl | exact Or.inr ⟨rfl, rfl⟩ | exact Or.inr ⟨rfl, rfl, rfl⟩))


theorem execLnfWmDisable_only (h : Only ps a s) (x0) (hs : sub [.out, .status, .irq, .counts, .evrQueue, .line] ps = true) : OnlyR ps a (execLnfWmDisable x0 s) := by
  unfold execLnfWmDisable
  try dsimp only
  repeat' first
    | with_reducible assumption
    | with_reducible refine idle_only ?_  (sub_of rfl hs)
    | with_reducible refine finish_only ?_  (sub_of rfl hs)
    | with_reducible refine State.setWmEn_only ?_ _ _ (sub_of rfl hs)
    | with_reducible refine finish_only ?_ (sub_of rfl hs)
    | with_reducible refine idle_only ?_
    | split
    | (with_reducible refine Only.foldl _ (fun _ _ _ => ?_) _ _ ?_)
    | ((with_reducible apply upd_only); rotate_left; iterate 39 (first | exact Or.inr (by with_reducible rfl) | exact Or.inl (mem_of_sub hs rfl) | exact Or.inl (sub_of rfl hs) | exact Or.inr rfl | exact Or.inr ⟨rfl, rfl⟩ | exact Or.inr ⟨rfl, rfl, rfl⟩))


theorem State.lineIntegrity_only (h : Only ps a s) (hs : sub [.out, .settings, .status, .shadow, .host, .pads, .counts, .evrQueue, .slots, .kst, .rng, .uci, .mem, .tmp, .bkp, .lci, .sac, .vat, .sch, .ports, .trib, .sc, .sa, .cur, .role, .mte] ps = true) : Only ps a (State.lineIntegrity s) := by
  unfold State.lineIntegrity
  try dsimp only
  repeat' first
    | with_reducible assumption
    | with_reducible refine State.tamperFire_only ?_ _ (sub_of rfl hs)
    | split
    | (with_reducible refine Only.foldl _ (fun _ _ _ => ?_) _ _ ?_)
    | ((with_reducible apply upd_only); rotate_left; iterate 39 (first | exact Or.inr (by with_reducible rfl) | exact Or.inl (mem_of_sub hs rfl) | exact Or.inl (sub_of rfl hs) | exact Or.inr rfl | exact Or.inr ⟨rfl, rfl⟩ | exact Or.inr ⟨rfl, rfl, rfl⟩))


theorem State.declareAuth_only (h : Only ps a s) (x1) (hs : sub [.out, .settings, .status, .shadow, .host, .pads, .counts, .evrQueue, .slots, .kst, .rng, .uci, .mem, .tmp, .bkp, .line, .lci, .sac, .vat, .sch, .ports, .trib, .sc, .sa, .cur, .role, .mte] ps = true) : Only ps a (State.declareAuth s x1) := by
  unfold State.declareAuth
  try dsimp only
  repeat' first
    | with_reducible assumption
    | with_reducible refine State.resync_only ?_ _ _ (sub_of rfl hs)
    | with_reducible refine State.setAuth_only ?_ _ _ (sub_of rfl hs)
    | with_reducible refine State.lineIntegrity_only ?_  (sub_of rfl hs)
    | split
    | (with_reducible refine Only.foldl _ (fun _ _ _ => ?_) _ _ ?_)
    | ((with_reducible apply upd_only); rotate_left; iterate 39 (first | exact Or.inr (by with_reducible rfl) | exact Or.inl (mem_of_sub hs rfl) | exact Or.inl (sub_of rfl hs) | exact Or.inr rfl | exact Or.inr ⟨rfl, rfl⟩ | exact Or.inr ⟨rfl, rfl, rfl⟩))


theorem State.declare_only_of {t : State} {x1 x2} (e : State.declare s x1 x2 = some t) (h : Only ps a s) (hs : sub [.out, .settings, .status, .shadow, .host, .pads, .counts, .evrQueue, .tim, .slots, .kst, .rng, .uci, .mem, .tmp, .bkp, .line, .dkl, .lci, .sac, .vat, .sch, .ports, .trib, .sc, .sa, .cur, .lanes, .role, .mte] ps = true) : Only ps a t := by
  unfold State.declare at e
  try dsimp only at e
  (repeat' split at e) <;> first | contradiction | skip
  all_goals (first | (cases e) | skip)
  repeat' first
    | with_reducible assumption
    | with_reducible refine State.setKeyless_only ?_ _ _ (sub_of rfl hs)
    | with_reducible refine State.setFeDef_only ?_ _ _ _ (sub_of rfl hs)
    | with_reducible refine State.setWm_only ?_ _ _ (sub_of rfl hs)
    | with_reducible refine State.loseLock_only ?_ _ _ (sub_of rfl hs)
    | with_reducible refine State.autoShed_only ?_ _ (sub_of rfl hs)
    | with_reducible refine State.lineIntegrity_only ?_  (sub_of rfl hs)
    | with_reducible refine State.declareAuth_only ?_ _ (sub_of rfl hs)
    | split
    | (with_reducible refine Only.foldl _ (fun _ _ _ => ?_) _ _ ?_)
    | ((with_reducible apply upd_only); rotate_left; iterate 39 (first | exact Or.inr (by with_reducible rfl) | exact Or.inl (mem_of_sub hs rfl) | exact Or.inl (sub_of rfl hs) | exact Or.inr rfl | exact Or.inr ⟨rfl, rfl⟩ | exact Or.inr ⟨rfl, rfl, rfl⟩))


theorem execDefectDeclare_only (h : Only ps a s) (x0 x1) (hs : sub [.out, .settings, .status, .shadow, .irq, .host, .pads, .counts, .evrQueue, .tim, .slots, .kst, .rng, .uci, .mem, .tmp, .bkp, .line, .dkl, .lci, .sac, .vat, .sch, .ports, .trib, .sc, .sa, .cur, .lanes, .role, .mte] ps = true) : OnlyR ps a (execDefectDeclare x0 x1 s) := by
  unfold execDefectDeclare
  try dsimp only
  repeat' first
    | with_reducible assumption
    | with_reducible refine idle_only ?_  (sub_of rfl hs)
    | with_reducible refine mateEnd_only ?_  (sub_of rfl hs)
    | with_reducible refine State.declare_only ?_ _ _ (sub_of rfl hs)
    | with_reducible refine State.declare_only_of (by assumption) ?_ (sub_of rfl hs)
    | with_reducible refine finish_only ?_ (sub_of rfl hs)
    | with_reducible refine idle_only ?_
    | split
    | (with_reducible refine Only.foldl _ (fun _ _ _ => ?_) _ _ ?_)
    | ((with_reducible apply upd_only); rotate_left; iterate 39 (first | exact Or.inr (by with_reducible rfl) | exact Or.inl (mem_of_sub hs rfl) | exact Or.inl (sub_of rfl hs) | exact Or.inr rfl | exact Or.inr ⟨rfl, rfl⟩ | exact Or.inr ⟨rfl, rfl, rfl⟩))


theorem State.undeclare_only_of {t : State} {x1 x2} (e : State.undeclare s x1 x2 = some t) (h : Only ps a s) (hs : sub [.status, .counts, .evrQueue, .line] ps = true) : Only ps a t := by
  unfold State.undeclare at e
  try dsimp only at e
  (repeat' split at e) <;> first | contradiction | skip
  all_goals (first | (cases e) | skip)
  repeat' first
    | with_reducible assumption
    | with_reducible refine State.setKeyless_only ?_ _ _ (sub_of rfl hs)
    | with_reducible refine State.setFeDef_only ?_ _ _ _ (sub_of rfl hs)
    | with_reducible refine State.setWm_only ?_ _ _ (sub_of rfl hs)
    | with_reducible refine State.setAuth_only ?_ _ _ (sub_of rfl hs)
    | split
    | (with_reducible refine Only.foldl _ (fun _ _ _ => ?_) _ _ ?_)
    | ((with_reducible apply upd_only); rotate_left; iterate 39 (first | exact Or.inr (by with_reducible rfl) | exact Or.inl (mem_of_sub hs rfl) | exact Or.inl (sub_of rfl hs) | exact Or.inr rfl | exact Or.inr ⟨rfl, rfl⟩ | exact Or.inr ⟨rfl, rfl, rfl⟩))


theorem execDefectClear_only (h : Only ps a s) (x0 x1) (hs : sub [.out, .status, .irq, .counts, .evrQueue, .line] ps = true) : OnlyR ps a (execDefectClear x0 x1 s) := by
  unfold execDefectClear
  try dsimp only
  repeat' first
    | with_reducible assumption
    | with_reducible refine finish_only ?_  (sub_of rfl hs)
    | with_reducible refine idle_only ?_  (sub_of rfl hs)
    | with_reducible refine State.undeclare_only ?_ _ _ (sub_of rfl hs)
    | with_reducible refine State.undeclare_only_of (by assumption) ?_ (sub_of rfl hs)
    | with_reducible refine finish_only ?_ (sub_of rfl hs)
    | with_reducible refine idle_only ?_
    | split
    | (with_reducible refine Only.foldl _ (fun _ _ _ => ?_) _ _ ?_)
    | ((with_reducible apply upd_only); rotate_left; iterate 39 (first | exact Or.inr (by with_reducible rfl) | exact Or.inl (mem_of_sub hs rfl) | exact Or.inl (sub_of rfl hs) | exact Or.inr rfl | exact Or.inr ⟨rfl, rfl⟩ | exact Or.inr ⟨rfl, rfl, rfl⟩))


end Sys2Proof.Machine
end

