-- ==== Sys2Proof/Laws/OnlyLineIn.lean ====
section
/-! SUPPORT. What each operation of Machine/LineIn.lean may change. -/

set_option linter.unusedTactic false
set_option linter.unreachableTactic false
set_option linter.unusedVariables false
set_option linter.unusedSimpArgs false

namespace Sys2Proof.Machine

variable {ps : List Area} {a s : State}

theorem State.keyedAccept_only (h : Only ps a s) (x1 x2 x3) (hs : sub [.status, .counts, .line, .lci] ps = true) : Only ps a (State.keyedAccept s x1 x2 x3) := by
  unfold State.keyedAccept
  try dsimp only
  repeat' first
    | with_reducible assumption
    | with_reducible refine State.setBit_only ?_ _ _ _ (Or.inr (by first | rfl | (simp; done) | decide)) (Or.inl (mem_of_sub hs rfl))
    | with_reducible refine State.modLci_only ?_ _ _ (sub_of rfl hs)
    | with_reducible refine State.modLkn_only ?_ _ _ _ (sub_of rfl hs)
    | with_reducible refine State.countMill_only ?_ _ _ _ _ _ (sub_of rfl hs)
    | with_reducible refine State.modLine_only ?_ _ _ (sub_of rfl hs)
    | with_reducible refine State.fixMill_only ?_ _ _ _ (sub_of rfl hs)
    | split
    | (with_reducible refine Only.foldl _ (fun _ _ _ => ?_) _ _ ?_)
    | ((with_reducible apply upd_only); rotate_left; iterate 39 (first | exact Or.inr (by with_reducible rfl) | exact Or.inl (mem_of_sub hs rfl) | exact Or.inl (sub_of rfl hs) | exact Or.inr rfl | exact Or.inr ⟨rfl, rfl⟩ | exact Or.inr ⟨rfl, rfl, rfl⟩))


theorem State.inboxPut_only (h : Only ps a s) (x1 x2 x3 x4) (hs : sub [.line] ps = true) : Only ps a (State.inboxPut s x1 x2 x3 x4) := by
  unfold State.inboxPut
  try dsimp only
  repeat' first
    | with_reducible assumption
    | with_reducible refine State.modLine_only ?_ _ _ (sub_of rfl hs)
    | split
    | (with_reducible refine Only.foldl _ (fun _ _ _ => ?_) _ _ ?_)
    | ((with_reducible apply upd_only); rotate_left; iterate 39 (first | exact Or.inr (by with_reducible rfl) | exact Or.inl (mem_of_sub hs rfl) | exact Or.inl (sub_of rfl hs) | exact Or.inr rfl | exact Or.inr ⟨rfl, rfl⟩ | exact Or.inr ⟨rfl, rfl, rfl⟩))


theorem State.selfChecking_only (h : Only ps a s) (x1 x2) (hs : sub [.line] ps = true) : Only ps a (State.selfChecking s x1 x2) := by
  unfold State.selfChecking
  try dsimp only
  repeat' first
    | with_reducible assumption
    | with_reducible refine State.inboxPut_only ?_ _ _ _ _ (sub_of rfl hs)
    | split
    | (with_reducible refine Only.foldl _ (fun _ _ _ => ?_) _ _ ?_)
    | ((with_reducible apply upd_only); rotate_left; iterate 39 (first | exact Or.inr (by with_reducible rfl) | exact Or.inl (mem_of_sub hs rfl) | exact Or.inl (sub_of rfl hs) | exact Or.inr rfl | exact Or.inr ⟨rfl, rfl⟩ | exact Or.inr ⟨rfl, rfl, rfl⟩))


theorem State.keyedDiscard_only (h : Only ps a s) (x1 x2 x3 x4) (hs : sub [.counts, .line, .lci, .sch, .trib] ps = true) : Only ps a (State.keyedDiscard s x1 x2 x3 x4) := by
  unfold State.keyedDiscard
  try dsimp only
  repeat' first
    | with_reducible assumption
    | with_reducible refine State.modLkn_only ?_ _ _ _ (sub_of rfl hs)
    | with_reducible refine State.countMill_only ?_ _ _ _ _ _ (sub_of rfl hs)
    | with_reducible refine State.modLine_only ?_ _ _ (sub_of rfl hs)
    | with_reducible refine State.fixMill_only ?_ _ _ _ (sub_of rfl hs)
    | with_reducible refine State.sheetLost_only ?_ _ (sub_of rfl hs)
    | with_reducible refine State.selfChecking_only ?_ _ _ (sub_of rfl hs)
    | split
    | (with_reducible refine Only.foldl _ (fun _ _ _ => ?_) _ _ ?_)
    | ((with_reducible apply upd_only); rotate_left; iterate 39 (first | exact Or.inr (by with_reducible rfl) | exact Or.inl (mem_of_sub hs rfl) | exact Or.inl (sub_of rfl hs) | exact Or.inr rfl | exact Or.inr ⟨rfl, rfl⟩ | exact Or.inr ⟨rfl, rfl, rfl⟩))


theorem State.messageIn_only (h : Only ps a s) (x1 x2 x3 x4) (hs : sub [.line] ps = true) : Only ps a (State.messageIn s x1 x2 x3 x4) := by
  unfold State.messageIn
  try dsimp only
  repeat' first
    | with_reducible assumption
    | with_reducible refine State.modLine_only ?_ _ _ (sub_of rfl hs)
    | with_reducible refine State.inboxPut_only ?_ _ _ _ _ (sub_of rfl hs)
    | split
    | (with_reducible refine Only.foldl _ (fun _ _ _ => ?_) _ _ ?_)
    | ((with_reducible apply upd_only); rotate_left; iterate 39 (first | exact Or.inr (by with_reducible rfl) | exact Or.inl (mem_of_sub hs rfl) | exact Or.inl (sub_of rfl hs) | exact Or.inr rfl | exact Or.inr ⟨rfl, rfl⟩ | exact Or.inr ⟨rfl, rfl, rfl⟩))


theorem State.dialogueIn_only (h : Only ps a s) (x1 x2) (hs : sub [.line] ps = true) : Only ps a (State.dialogueIn s x1 x2) := by
  unfold State.dialogueIn
  try dsimp only
  repeat' first
    | with_reducible assumption
    | with_reducible refine State.modLine_only ?_ _ _ (sub_of rfl hs)
    | with_reducible refine State.messageIn_only ?_ _ _ _ _ (sub_of rfl hs)
    | split
    | (with_reducible refine Only.foldl _ (fun _ _ _ => ?_) _ _ ?_)
    | ((with_reducible apply upd_only); rotate_left; iterate 39 (first | exact Or.inr (by with_reducible rfl) | exact Or.inl (mem_of_sub hs rfl) | exact Or.inl (sub_of rfl hs) | exact Or.inr rfl | exact Or.inr ⟨rfl, rfl⟩ | exact Or.inr ⟨rfl, rfl, rfl⟩))


theorem State.wmJudge_only (h : Only ps a s) (x1) (hs : sub [.line] ps = true) : Only ps a (State.wmJudge s x1) := by
  unfold State.wmJudge
  try dsimp only
  repeat' first
    | with_reducible assumption
    | with_reducible refine State.modLine_only ?_ _ _ (sub_of rfl hs)
    | split
    | (with_reducible refine Only.foldl _ (fun _ _ _ => ?_) _ _ ?_)
    | ((with_reducible apply upd_only); rotate_left; iterate 39 (first | exact Or.inr (by with_reducible rfl) | exact Or.inl (mem_of_sub hs rfl) | exact Or.inl (sub_of rfl hs) | exact Or.inr rfl | exact Or.inr ⟨rfl, rfl⟩ | exact Or.inr ⟨rfl, rfl, rfl⟩))


theorem State.wmBegin_only (h : Only ps a s) (x1 x2) (hs : sub [.line] ps = true) : Only ps a (State.wmBegin s x1 x2) := by
  unfold State.wmBegin
  try dsimp only
  repeat' first
    | with_reducible assumption
    | with_reducible refine State.modLine_only ?_ _ _ (sub_of rfl hs)
    | with_reducible refine State.wmJudge_only ?_ _ (sub_of rfl hs)
    | split
    | (with_reducible refine Only.foldl _ (fun _ _ _ => ?_) _ _ ?_)
    | ((with_reducible apply upd_only); rotate_left; iterate 39 (first | exact Or.inr (by with_reducible rfl) | exact Or.inl (mem_of_sub hs rfl) | exact Or.inl (sub_of rfl hs) | exact Or.inr rfl | exact Or.inr ⟨rfl, rfl⟩ | exact Or.inr ⟨rfl, rfl, rfl⟩))


theorem State.wmEnd_only (h : Only ps a s) (x1 x2) (hs : sub [.line] ps = true) : Only ps a (State.wmEnd s x1 x2) := by
  unfold State.wmEnd
  try dsimp only
  repeat' first
    | with_reducible assumption
    | with_reducible refine State.modLine_only ?_ _ _ (sub_of rfl hs)
    | with_reducible refine State.wmJudge_only ?_ _ (sub_of rfl hs)
    | split
    | (with_reducible refine Only.foldl _ (fun _ _ _ => ?_) _ _ ?_)
    | ((with_reducible apply upd_only); rotate_left; iterate 39 (first | exact Or.inr (by with_reducible rfl) | exact Or.inl (mem_of_sub hs rfl) | exact Or.inl (sub_of rfl hs) | exact Or.inr rfl | exact Or.inr ⟨rfl, rfl⟩ | exact Or.inr ⟨rfl, rfl, rfl⟩))


theorem State.wmTake_only (h : Only ps a s) (x1 x2 x3) (hs : sub [.line] ps = true) : Only ps a (State.wmTake s x1 x2 x3) := by
  unfold State.wmTake
  try dsimp only
  repeat' first
    | with_reducible assumption
    | with_reducible refine State.modLine_only ?_ _ _ (sub_of rfl hs)
    | split
    | (with_reducible refine Only.foldl _ (fun _ _ _ => ?_) _ _ ?_)
    | ((with_reducible apply upd_only); rotate_left; iterate 39 (first | exact Or.inr (by with_reducible rfl) | exact Or.inl (mem_of_sub hs rfl) | exact Or.inl (sub_of rfl hs) | exact Or.inr rfl | exact Or.inr ⟨rfl, rfl⟩ | exact Or.inr ⟨rfl, rfl, rfl⟩))


theorem State.creditIn_only (h : Only ps a s) (x1 x2) (hs : sub [.counts, .sch, .trib, .tribOld] ps = true) : Only ps a (State.creditIn s x1 x2) := by
  unfold State.creditIn
  try dsimp only
  repeat' first
    | with_reducible assumption
    | with_reducible refine State.countMill_only ?_ _ _ _ _ _ (sub_of rfl hs)
    | with_reducible refine State.modTribIn_only ?_ _ _ _ (sub_of rfl hs)
    | with_reducible refine State.wake_only ?_ _ _ (sub_of rfl hs)
    | split
    | (with_reducible refine Only.foldl _ (fun _ _ _ => ?_) _ _ ?_)
    | ((with_reducible apply upd_only); rotate_left; iterate 39 (first | exact Or.inr (by with_reducible rfl) | exact Or.inl (mem_of_sub hs rfl) | exact Or.inl (sub_of rfl hs) | exact Or.inr rfl | exact Or.inr ⟨rfl, rfl⟩ | exact Or.inr ⟨rfl, rfl, rfl⟩))


theorem State.creditsIn_only (h : Only ps a s) (x1 x2) (hs : sub [.counts, .sch, .trib, .tribOld] ps = true) : Only ps a (State.creditsIn s x1 x2) := by
  unfold State.creditsIn
  try dsimp only
  repeat' first
    | with_reducible assumption
    | with_reducible refine State.creditIn_only ?_ _ _ (sub_of rfl hs)
    | split
    | (with_reducible refine Only.foldl _ (fun _ _ _ => ?_) _ _ ?_)
    | ((with_reducible apply upd_only); rotate_left; iterate 39 (first | exact Or.inr (by with_reducible rfl) | exact Or.inl (mem_of_sub hs rfl) | exact Or.inl (sub_of rfl hs) | exact Or.inr rfl | exact Or.inr ⟨rfl, rfl⟩ | exact Or.inr ⟨rfl, rfl, rfl⟩))


theorem State.echoIn_only (h : Only ps a s) (x1 x2 x3 x4) (hs : sub [.counts, .tim, .line] ps = true) : Only ps a (State.echoIn s x1 x2 x3 x4) := by
  unfold State.echoIn
  try dsimp only
  repeat' first
    | with_reducible assumption
    | with_reducible refine State.modLine_only ?_ _ _ (sub_of rfl hs)
    | with_reducible refine State.lineRtt_only ?_ _ _ (sub_of rfl hs)
    | split
    | (with_reducible refine Only.foldl _ (fun _ _ _ => ?_) _ _ ?_)
    | ((with_reducible apply upd_only); rotate_left; iterate 39 (first | exact Or.inr (by with_reducible rfl) | exact Or.inl (mem_of_sub hs rfl) | exact Or.inl (sub_of rfl hs) | exact Or.inr rfl | exact Or.inr ⟨rfl, rfl⟩ | exact Or.inr ⟨rfl, rfl, rfl⟩))


theorem State.frameBuilt_only (h : Only ps a s) (x1 x2 x3) (hs : sub [.status, .counts, .vat, .sch, .trib] ps = true) : Only ps a (State.frameBuilt s x1 x2 x3) := by
  unfold State.frameBuilt
  try dsimp only
  repeat' first
    | with_reducible assumption
    | with_reducible refine State.countMill_only ?_ _ _ _ _ _ (sub_of rfl hs)
    | with_reducible refine State.routeDrop_only ?_ _ _ (sub_of rfl hs)
    | with_reducible refine State.deliverRx_only ?_ _ _ (sub_of rfl hs)
    | with_reducible refine State.dropRx_only ?_ _ _ (sub_of rfl hs)
    | split
    | (with_reducible refine Only.foldl _ (fun _ _ _ => ?_) _ _ ?_)
    | ((with_reducible apply upd_only); rotate_left; iterate 39 (first | exact Or.inr (by with_reducible rfl) | exact Or.inl (mem_of_sub hs rfl) | exact Or.inl (sub_of rfl hs) | exact Or.inr rfl | exact Or.inr ⟨rfl, rfl⟩ | exact Or.inr ⟨rfl, rfl, rfl⟩))


theorem State.setRebuild_only (h : Only ps a s) (x1 x2 x3) (hs : sub [.line] ps = true) : Only ps a (State.setRebuild s x1 x2 x3) := by
  unfold State.setRebuild
  try dsimp only
  repeat' first
    | with_reducible assumption
    | with_reducible refine State.modLine_only ?_ _ _ (sub_of rfl hs)
    | split
    | (with_reducible refine Only.foldl _ (fun _ _ _ => ?_) _ _ ?_)
    | ((with_reducible apply upd_only); rotate_left; iterate 39 (first | exact Or.inr (by with_reducible rfl) | exact Or.inl (mem_of_sub hs rfl) | exact Or.inl (sub_of rfl hs) | exact Or.inr rfl | exact Or.inr ⟨rfl, rfl⟩ | exact Or.inr ⟨rfl, rfl, rfl⟩))


theorem State.delimError_only (h : Only ps a s) (x1 x2) (hs : sub [.counts, .line, .sch, .trib] ps = true) : Only ps a (State.delimError s x1 x2) := by
  unfold State.delimError
  try dsimp only
  repeat' first
    | with_reducible assumption
    | with_reducible refine State.countMill_only ?_ _ _ _ _ _ (sub_of rfl hs)
    | with_reducible refine State.dropPartial_only ?_ _ _ _ (sub_of rfl hs)
    | with_reducible refine State.setRebuild_only ?_ _ _ _ (sub_of rfl hs)
    | split
    | (with_reducible refine Only.foldl _ (fun _ _ _ => ?_) _ _ ?_)
    | ((with_reducible apply upd_only); rotate_left; iterate 39 (first | exact Or.inr (by with_reducible rfl) | exact Or.inl (mem_of_sub hs rfl) | exact Or.inl (sub_of rfl hs) | exact Or.inr rfl | exact Or.inr ⟨rfl, rfl⟩ | exact Or.inr ⟨rfl, rfl, rfl⟩))


theorem State.delimRead_only (h : Only ps a s) (x1 x2 x3 x4) (hs : sub [.line, .trib, .tribOld] ps = true) : Only ps a (State.delimRead s x1 x2 x3 x4) := by
  unfold State.delimRead
  try dsimp only
  repeat' first
    | with_reducible assumption
    | with_reducible refine State.modTribIn_only ?_ _ _ _ (sub_of rfl hs)
    | with_reducible refine State.setRebuild_only ?_ _ _ _ (sub_of rfl hs)
    | split
    | (with_reducible refine Only.foldl _ (fun _ _ _ => ?_) _ _ ?_)
    | ((with_reducible apply upd_only); rotate_left; iterate 39 (first | exact Or.inr (by with_reducible rfl) | exact Or.inl (mem_of_sub hs rfl) | exact Or.inl (sub_of rfl hs) | exact Or.inr rfl | exact Or.inr ⟨rfl, rfl⟩ | exact Or.inr ⟨rfl, rfl, rfl⟩))


theorem State.runData_only (h : Only ps a s) (x0 x1 x2 x3 x4 x5) (hs : sub [.status, .counts, .line, .vat, .sch, .trib, .tribOld] ps = true) : Only ps a (State.runData x0 x1 x2 x3 x4 x5 s) := by
  fun_induction State.runData x0 x1 x2 x3 x4 x5 s <;> try dsimp only
  repeat' first
    | with_reducible assumption
    | with_reducible refine State.delimError_only ?_ _ _ (sub_of rfl hs)
    | with_reducible refine State.delimRead_only ?_ _ _ _ _ (sub_of rfl hs)
    | with_reducible refine State.frameBuilt_only ?_ _ _ _ (sub_of rfl hs)
    | with_reducible refine State.setRebuild_only ?_ _ _ _ (sub_of rfl hs)
    | with_reducible apply_assumption -exfalso -symm
    | split
    | (with_reducible refine Only.foldl _ (fun _ _ _ => ?_) _ _ ?_)
    | ((with_reducible apply upd_only); rotate_left; iterate 39 (first | exact Or.inr (by with_reducible rfl) | exact Or.inl (mem_of_sub hs rfl) | exact Or.inl (sub_of rfl hs) | exact Or.inr rfl | exact Or.inr ⟨rfl, rfl⟩ | exact Or.inr ⟨rfl, rfl, rfl⟩))


theorem State.cellIn_only (h : Only ps a s) (x1 x2 x3 x4 x5) (hs : sub [.status, .counts, .line, .vat, .sch, .trib, .tribOld] ps = true) : Only ps a (State.cellIn s x1 x2 x3 x4 x5) := by
  unfold State.cellIn
  try dsimp only
  repeat' first
    | with_reducible assumption
    | with_reducible refine State.runData_only ?_ _ _ _ _ _ _ (sub_of rfl hs)
    | with_reducible refine State.delimError_only ?_ _ _ (sub_of rfl hs)
    | with_reducible refine State.setRebuild_only ?_ _ _ _ (sub_of rfl hs)
    | split
    | (with_reducible refine Only.foldl _ (fun _ _ _ => ?_) _ _ ?_)
    | ((with_reducible apply upd_only); rotate_left; iterate 39 (first | exact Or.inr (by with_reducible rfl) | exact Or.inl (mem_of_sub hs rfl) | exact Or.inl (sub_of rfl hs) | exact Or.inr rfl | exact Or.inr ⟨rfl, rfl⟩ | exact Or.inr ⟨rfl, rfl, rfl⟩))


theorem State.unpackCell_only (h : Only ps a s) (x1 x2 x3) (hs : sub [.status, .counts, .line, .vat, .sch, .trib, .tribOld] ps = true) : Only ps a (State.unpackCell s x1 x2 x3) := by
  unfold State.unpackCell
  try dsimp only
  repeat' first
    | with_reducible assumption
    | with_reducible refine State.countMill_only ?_ _ _ _ _ _ (sub_of rfl hs)
    | with_reducible refine State.fixMill_only ?_ _ _ _ (sub_of rfl hs)
    | with_reducible refine State.cellIn_only ?_ _ _ _ _ _ (sub_of rfl hs)
    | split
    | (with_reducible refine Only.foldl _ (fun _ _ _ => ?_) _ _ ?_)
    | ((with_reducible apply upd_only); rotate_left; iterate 39 (first | exact Or.inr (by with_reducible rfl) | exact Or.inl (mem_of_sub hs rfl) | exact Or.inl (sub_of rfl hs) | exact Or.inr rfl | exact Or.inr ⟨rfl, rfl⟩ | exact Or.inr ⟨rfl, rfl, rfl⟩))


theorem State.rxRecord_only (h : Only ps a s) (x1 x2 x3 x4 x5) (hs : sub [.counts, .mte] ps = true) : Only ps a (State.rxRecord s x1 x2 x3 x4 x5) := by
  unfold State.rxRecord
  try dsimp only
  repeat' first
    | with_reducible assumption
    | ((with_reducible refine State.modMte_only ?_ _ ?_ ?_); rotate_left; (first | exact Or.inl (mem_of_sub hs rfl) | exact Or.inr (fun _ => rfl)); (first | exact Or.inl (mem_of_sub hs rfl) | exact Or.inr (fun _ => rfl) | exact Or.inr (fun _ => ⟨rfl, rfl⟩) | exact Or.inr (fun _ => ⟨rfl, rfl, rfl⟩)))
    | with_reducible refine State.judgeDig_only ?_ _ _ _ (sub_of rfl hs)
    | split
    | (with_reducible refine Only.foldl _ (fun _ _ _ => ?_) _ _ ?_)
    | ((with_reducible apply upd_only); rotate_left; iterate 39 (first | exact Or.inr (by with_reducible rfl) | exact Or.inl (mem_of_sub hs rfl) | exact Or.inl (sub_of rfl hs) | exact Or.inr rfl | exact Or.inr ⟨rfl, rfl⟩ | exact Or.inr ⟨rfl, rfl, rfl⟩))


theorem State.overheadIn_only (h : Only ps a s) (x1 x2 x3) (hs : sub [.line, .dkl] ps = true) : Only ps a (State.overheadIn s x1 x2 x3) := by
  unfold State.overheadIn
  try dsimp only
  repeat' first
    | with_reducible assumption
    | with_reducible refine State.modLine_only ?_ _ _ (sub_of rfl hs)
    | with_reducible refine State.modDkl_only ?_ _ _ (sub_of rfl hs)
    | split
    | (with_reducible refine Only.foldl _ (fun _ _ _ => ?_) _ _ ?_)
    | ((with_reducible apply upd_only); rotate_left; iterate 39 (first | exact Or.inr (by with_reducible rfl) | exact Or.inl (mem_of_sub hs rfl) | exact Or.inl (sub_of rfl hs) | exact Or.inr rfl | exact Or.inr ⟨rfl, rfl⟩ | exact Or.inr ⟨rfl, rfl, rfl⟩))


theorem State.sheetAccepted_only (h : Only ps a s) (x1 x2 x3 x4 x5) (hs : sub [.status, .counts, .tim, .line, .dkl, .vat, .sch, .trib, .tribOld] ps = true) : Only ps a (State.sheetAccepted s x1 x2 x3 x4 x5) := by
  unfold State.sheetAccepted
  try dsimp only
  repeat' first
    | with_reducible assumption
    | with_reducible refine State.fixMill_only ?_ _ _ _ (sub_of rfl hs)
    | with_reducible refine State.countMill_only ?_ _ _ _ _ _ (sub_of rfl hs)
    | with_reducible refine State.countLost_only ?_ _ _ (sub_of rfl hs)
    | with_reducible refine State.sheetLost_only ?_ _ (sub_of rfl hs)
    | with_reducible refine State.dialogueIn_only ?_ _ _ (sub_of rfl hs)
    | with_reducible refine State.creditsIn_only ?_ _ _ (sub_of rfl hs)
    | with_reducible refine State.overheadIn_only ?_ _ _ _ (sub_of rfl hs)
    | with_reducible refine State.unpackCell_only ?_ _ _ _ (sub_of rfl hs)
    | with_reducible refine State.echoIn_only ?_ _ _ _ _ (sub_of rfl hs)
    | with_reducible refine State.wmTake_only ?_ _ _ _ (sub_of rfl hs)
    | split
    | (with_reducible refine Only.foldl _ (fun _ _ _ => ?_) _ _ ?_)
    | ((with_reducible apply upd_only); rotate_left; iterate 39 (first | exact Or.inr (by with_reducible rfl) | exact Or.inl (mem_of_sub hs rfl) | exact Or.inl (sub_of rfl hs) | exact Or.inr rfl | exact Or.inr ⟨rfl, rfl⟩ | exact Or.inr ⟨rfl, rfl, rfl⟩))


theorem State.keyedIn_only (h : Only ps a s) (x1 x2 x3) (hs : sub [.status, .counts, .tim, .line, .dkl, .lci, .vat, .sch, .trib, .tribOld, .mte] ps = true) : Only ps a (State.keyedIn s x1 x2 x3) := by
  unfold State.keyedIn
  try dsimp only
  repeat' first
    | with_reducible assumption
    | with_reducible refine State.keyedDiscard_only ?_ _ _ _ _ (sub_of rfl hs)
    | with_reducible refine State.sheetAccepted_only ?_ _ _ _ _ _ (sub_of rfl hs)
    | with_reducible refine State.rxRecord_only ?_ _ _ _ _ _ (sub_of rfl hs)
    | with_reducible refine State.keyedAccept_only ?_ _ _ _ (sub_of rfl hs)
    | split
    | (with_reducible refine Only.foldl _ (fun _ _ _ => ?_) _ _ ?_)
    | ((with_reducible apply upd_only); rotate_left; iterate 39 (first | exact Or.inr (by with_reducible rfl) | exact Or.inl (mem_of_sub hs rfl) | exact Or.inl (sub_of rfl hs) | exact Or.inr rfl | exact Or.inr ⟨rfl, rfl⟩ | exact Or.inr ⟨rfl, rfl, rfl⟩))


theorem State.keylessRuns0_only (h : Only ps a s) (x1) (hs : sub [.line] ps = true) : Only ps a (State.keylessRuns0 s x1) := by
  unfold State.keylessRuns0
  try dsimp only
  repeat' first
    | with_reducible assumption
    | with_reducible refine State.modLine_only ?_ _ _ (sub_of rfl hs)
    | split
    | (with_reducible refine Only.foldl _ (fun _ _ _ => ?_) _ _ ?_)
    | ((with_reducible apply upd_only); rotate_left; iterate 39 (first | exact Or.inr (by with_reducible rfl) | exact Or.inl (mem_of_sub hs rfl) | exact Or.inl (sub_of rfl hs) | exact Or.inr rfl | exact Or.inr ⟨rfl, rfl⟩ | exact Or.inr ⟨rfl, rfl, rfl⟩))


theorem State.unkeyedIn_only (h : Only ps a s) (x1 x2 x3) (hs : sub [.status, .counts, .tim, .line, .dkl, .vat, .sch, .trib, .tribOld, .mte] ps = true) : Only ps a (State.unkeyedIn s x1 x2 x3) := by
  unfold State.unkeyedIn
  try dsimp only
  repeat' first
    | with_reducible assumption
    | with_reducible refine State.countMill_only ?_ _ _ _ _ _ (sub_of rfl hs)
    | with_reducible refine State.modLine_only ?_ _ _ (sub_of rfl hs)
    | with_reducible refine State.fixMill_only ?_ _ _ _ (sub_of rfl hs)
    | with_reducible refine State.sheetLost_only ?_ _ (sub_of rfl hs)
    | with_reducible refine State.sheetAccepted_only ?_ _ _ _ _ _ (sub_of rfl hs)
    | with_reducible refine State.rxRecord_only ?_ _ _ _ _ _ (sub_of rfl hs)
    | with_reducible refine State.keylessRuns0_only ?_ _ (sub_of rfl hs)
    | split
    | (with_reducible refine Only.foldl _ (fun _ _ _ => ?_) _ _ ?_)
    | ((with_reducible apply upd_only); rotate_left; iterate 39 (first | exact Or.inr (by with_reducible rfl) | exact Or.inl (mem_of_sub hs rfl) | exact Or.inl (sub_of rfl hs) | exact Or.inr rfl | exact Or.inr ⟨rfl, rfl⟩ | exact Or.inr ⟨rfl, rfl, rfl⟩))


theorem State.sheetReceive_only (h : Only ps a s) (x1 x2) (hs : sub [.status, .counts, .tim, .line, .dkl, .lci, .vat, .sch, .trib, .tribOld, .mte] ps = true) : Only ps a (State.sheetReceive s x1 x2) := by
  unfold State.sheetReceive
  try dsimp only
  repeat' first
    | with_reducible assumption
    | with_reducible refine State.modLine_only ?_ _ _ (sub_of rfl hs)
    | with_reducible refine State.wmBegin_only ?_ _ _ (sub_of rfl hs)
    | with_reducible refine State.wmEnd_only ?_ _ _ (sub_of rfl hs)
    | with_reducible refine State.keyedIn_only ?_ _ _ _ (sub_of rfl hs)
    | with_reducible refine State.unkeyedIn_only ?_ _ _ _ (sub_of rfl hs)
    | split
    | (with_reducible refine Only.foldl _ (fun _ _ _ => ?_) _ _ ?_)
    | ((with_reducible apply upd_only); rotate_left; iterate 39 (first | exact Or.inr (by with_reducible rfl) | exact Or.inl (mem_of_sub hs rfl) | exact Or.inl (sub_of rfl hs) | exact Or.inr rfl | exact Or.inr ⟨rfl, rfl⟩ | exact Or.inr ⟨rfl, rfl, rfl⟩))


theorem execSheetReceive_only (h : Only ps a s) (x0 x1) (hs : sub [.out, .status, .irq, .counts, .evrQueue, .tim, .line, .dkl, .lci, .vat, .sch, .trib, .tribOld, .mte] ps = true) : OnlyR ps a (execSheetReceive x0 x1 s) := by
  unfold execSheetReceive
  try dsimp only
  repeat' first
    | with_reducible assumption
    | with_reducible refine idle_only ?_  (sub_of rfl hs)
    | with_reducible refine finish_only ?_  (sub_of rfl hs)
    | with_reducible refine State.sheetReceive_only ?_ _ _ (sub_of rfl hs)
    | with_reducible refine finish_only ?_ (sub_of rfl hs)
    | with_reducible refine idle_only ?_
    | split
    | (with_reducible refine Only.foldl _ (fun _ _ _ => ?_) _ _ ?_)
    | ((with_reducible apply upd_only); rotate_left; iterate 39 (first | exact Or.inr (by with_reducible rfl) | exact Or.inl (mem_of_sub hs rfl) | exact Or.inl (sub_of rfl hs) | exact Or.inr rfl | exact Or.inr ⟨rfl, rfl⟩ | exact Or.inr ⟨rfl, rfl, rfl⟩))


theorem State.dlgHead_only_of {t : State} {x1 x2} {r} (e : State.dlgHead s x1 x2 = some (r, t)) (h : Only ps a s) (hs : sub [.line] ps = true) : Only ps a t := by
  unfold State.dlgHead at e
  try dsimp only at e
  (repeat' split at e) <;> first | contradiction | skip
  all_goals (first | (cases e) | skip)
  repeat' first
    | with_reducible assumption
    | with_reducible refine State.modLine_only ?_ _ _ (sub_of rfl hs)
    | split
    | (with_reducible refine Only.foldl _ (fun _ _ _ => ?_) _ _ ?_)
    | ((with_reducible apply upd_only); rotate_left; iterate 39 (first | exact Or.inr (by with_reducible rfl) | exact Or.inl (mem_of_sub hs rfl) | exact Or.inl (sub_of rfl hs) | exact Or.inr rfl | exact Or.inr ⟨rfl, rfl⟩ | exact Or.inr ⟨rfl, rfl, rfl⟩))


theorem State.dlgOf_only_of {t : State} {x1 x2} {r} (e : State.dlgOf s x1 x2 = some (r, t)) (h : Only ps a s) (hs : sub [.line] ps = true) : Only ps a t := by
  unfold State.dlgOf at e
  try dsimp only at e
  (repeat' split at e) <;> first | contradiction | skip
  all_goals (first | (cases e) | skip)
  repeat' first
    | with_reducible assumption
    | with_reducible refine State.dlgHead_only ?_ _ _ (sub_of rfl hs)
    | with_reducible refine State.dlgHead_only_of (by assumption) ?_ (sub_of rfl hs)
    | split
    | (with_reducible refine Only.foldl _ (fun _ _ _ => ?_) _ _ ?_)
    | ((with_reducible apply upd_only); rotate_left; iterate 39 (first | exact Or.inr (by with_reducible rfl) | exact Or.inl (mem_of_sub hs rfl) | exact Or.inl (sub_of rfl hs) | exact Or.inr rfl | exact Or.inr ⟨rfl, rfl⟩ | exact Or.inr ⟨rfl, rfl, rfl⟩))


theorem State.setNeg_only (h : Only ps a s) (x1 x2) (hs : sub [.line] ps = true) : Only ps a (State.setNeg s x1 x2) := by
  unfold State.setNeg
  try dsimp only
  repeat' first
    | with_reducible assumption
    | with_reducible refine State.modLine_only ?_ _ _ (sub_of rfl hs)
    | split
    | (with_reducible refine Only.foldl _ (fun _ _ _ => ?_) _ _ ?_)
    | ((with_reducible apply upd_only); rotate_left; iterate 39 (first | exact Or.inr (by with_reducible rfl) | exact Or.inl (mem_of_sub hs rfl) | exact Or.inl (sub_of rfl hs) | exact Or.inr rfl | exact Or.inr ⟨rfl, rfl⟩ | exact Or.inr ⟨rfl, rfl, rfl⟩))


theorem State.helloNew_only (h : Only ps a s) (x1 x2) (hs : sub [.status, .counts, .evrQueue, .line] ps = true) : Only ps a (State.helloNew s x1 x2) := by
  unfold State.helloNew
  try dsimp only
  repeat' first
    | with_reducible assumption
    | with_reducible refine State.ownMsg_only ?_ _ _ (sub_of rfl hs)
    | with_reducible refine State.helloSend_only ?_ _ (sub_of rfl hs)
    | with_reducible refine State.setVerf_only ?_ _ _ (sub_of rfl hs)
    | with_reducible refine State.setNeg_only ?_ _ _ (sub_of rfl hs)
    | split
    | (with_reducible refine Only.foldl _ (fun _ _ _ => ?_) _ _ ?_)
    | ((with_reducible apply upd_only); rotate_left; iterate 39 (first | exact Or.inr (by with_reducible rfl) | exact Or.inl (mem_of_sub hs rfl) | exact Or.inl (sub_of rfl hs) | exact Or.inr rfl | exact Or.inr ⟨rfl, rfl⟩ | exact Or.inr ⟨rfl, rfl, rfl⟩))


theorem execDlgHello_only (h : Only ps a s) (x0) (hs : sub [.out, .status, .irq, .counts, .evrQueue, .line] ps = true) : OnlyR ps a (execDlgHello x0 s) := by
  unfold execDlgHello
  try dsimp only
  repeat' first
    | with_reducible assumption
    | with_reducible refine finish_only ?_  (sub_of rfl hs)
    | with_reducible refine State.modLine_only ?_ _ _ (sub_of rfl hs)
    | with_reducible refine idle_only ?_  (sub_of rfl hs)
    | with_reducible refine State.dlgOf_only ?_ _ _ (sub_of rfl hs)
    | with_reducible refine State.dlgOf_only_of (by assumption) ?_ (sub_of rfl hs)
    | with_reducible refine State.helloNew_only ?_ _ _ (sub_of rfl hs)
    | with_reducible refine finish_only ?_ (sub_of rfl hs)
    | with_reducible refine idle_only ?_
    | split
    | (with_reducible refine Only.foldl _ (fun _ _ _ => ?_) _ _ ?_)
    | ((with_reducible apply upd_only); rotate_left; iterate 39 (first | exact Or.inr (by with_reducible rfl) | exact Or.inl (mem_of_sub hs rfl) | exact Or.inl (sub_of rfl hs) | exact Or.inr rfl | exact Or.inr ⟨rfl, rfl⟩ | exact Or.inr ⟨rfl, rfl, rfl⟩))


theorem execDlgConfirm_only (h : Only ps a s) (x0) (hs : sub [.out, .status, .irq, .counts, .evrQueue, .line] ps = true) : OnlyR ps a (execDlgConfirm x0 s) := by
  unfold execDlgConfirm
  try dsimp only
  repeat' first
    | with_reducible assumption
    | with_reducible refine finish_only ?_  (sub_of rfl hs)
    | with_reducible refine State.modLine_only ?_ _ _ (sub_of rfl hs)
    | with_reducible refine idle_only ?_  (sub_of rfl hs)
    | with_reducible refine State.setVerf_only ?_ _ _ (sub_of rfl hs)
    | with_reducible refine State.dlgOf_only ?_ _ _ (sub_of rfl hs)
    | with_reducible refine State.dlgOf_only_of (by assumption) ?_ (sub_of rfl hs)
    | with_reducible refine State.setNeg_only ?_ _ _ (sub_of rfl hs)
    | with_reducible refine finish_only ?_ (sub_of rfl hs)
    | with_reducible refine idle_only ?_
    | split
    | (with_reducible refine Only.foldl _ (fun _ _ _ => ?_) _ _ ?_)
    | ((with_reducible apply upd_only); rotate_left; iterate 39 (first | exact Or.inr (by with_reducible rfl) | exact Or.inl (mem_of_sub hs rfl) | exact Or.inl (sub_of rfl hs) | exact Or.inr rfl | exact Or.inr ⟨rfl, rfl⟩ | exact Or.inr ⟨rfl, rfl, rfl⟩))


theorem execDlgVerchk_only (h : Only ps a s) (x0) (hs : sub [.out, .status, .irq, .counts, .evrQueue, .line] ps = true) : OnlyR ps a (execDlgVerchk x0 s) := by
  unfold execDlgVerchk
  try dsimp only
  repeat' first
    | with_reducible assumption
    | with_reducible refine idle_only ?_  (sub_of rfl hs)
    | with_reducible refine finish_only ?_  (sub_of rfl hs)
    | with_reducible refine State.setVerf_only ?_ _ _ (sub_of rfl hs)
    | with_reducible refine State.dlgOf_only ?_ _ _ (sub_of rfl hs)
    | with_reducible refine State.dlgOf_only_of (by assumption) ?_ (sub_of rfl hs)
    | with_reducible refine finish_only ?_ (sub_of rfl hs)
    | with_reducible refine idle_only ?_
    | split
    | (with_reducible refine Only.foldl _ (fun _ _ _ => ?_) _ _ ?_)
    | ((with_reducible apply upd_only); rotate_left; iterate 39 (first | exact Or.inr (by with_reducible rfl) | exact Or.inl (mem_of_sub hs rfl) | exact Or.inl (sub_of rfl hs) | exact Or.inr rfl | exact Or.inr ⟨rfl, rfl⟩ | exact Or.inr ⟨rfl, rfl, rfl⟩))


theorem execDlgHostMessage_only (h : Only ps a s) (x0) (hs : sub [.out, .status, .irq, .counts, .evrQueue, .line] ps = true) : OnlyR ps a (execDlgHostMessage x0 s) := by
  unfold execDlgHostMessage
  try dsimp only
  repeat' first
    | with_reducible assumption
    | with_reducible refine State.setBit_only ?_ _ _ _ (Or.inr (by first | rfl | (simp; done) | decide)) (Or.inl (mem_of_sub hs rfl))
    | with_reducible refine finish_only ?_  (sub_of rfl hs)
    | with_reducible refine State.modLine_only ?_ _ _ (sub_of rfl hs)
    | with_reducible refine idle_only ?_  (sub_of rfl hs)
    | with_reducible refine State.dlgHead_only ?_ _ _ (sub_of rfl hs)
    | with_reducible refine State.dlgHead_only_of (by assumption) ?_ (sub_of rfl hs)
    | with_reducible refine finish_only ?_ (sub_of rfl hs)
    | with_reducible refine idle_only ?_
    | split
    | (with_reducible refine Only.foldl _ (fun _ _ _ => ?_) _ _ ?_)
    | ((with_reducible apply upd_only); rotate_left; iterate 39 (first | exact Or.inr (by with_reducible rfl) | exact Or.inl (mem_of_sub hs rfl) | exact Or.inl (sub_of rfl hs) | exact Or.inr rfl | exact Or.inr ⟨rfl, rfl⟩ | exact Or.inr ⟨rfl, rfl, rfl⟩))


theorem execDlgReservedType_only (h : Only ps a s) (x0) (hs : sub [.out, .irq, .counts, .evrQueue, .line] ps = true) : OnlyR ps a (execDlgReservedType x0 s) := by
  unfold execDlgReservedType
  try dsimp only
  repeat' first
    | with_reducible assumption
    | with_reducible refine State.countMill_only ?_ _ _ _ _ _ (sub_of rfl hs)
    | with_reducible refine idle_only ?_  (sub_of rfl hs)
    | with_reducible refine finish_only ?_  (sub_of rfl hs)
    | with_reducible refine State.dlgHead_only ?_ _ _ (sub_of rfl hs)
    | with_reducible refine State.dlgHead_only_of (by assumption) ?_ (sub_of rfl hs)
    | with_reducible refine finish_only ?_ (sub_of rfl hs)
    | with_reducible refine idle_only ?_
    | split
    | (with_reducible refine Only.foldl _ (fun _ _ _ => ?_) _ _ ?_)
    | ((with_reducible apply upd_only); rotate_left; iterate 39 (first | exact Or.inr (by with_reducible rfl) | exact Or.inl (mem_of_sub hs rfl) | exact Or.inl (sub_of rfl hs) | exact Or.inr rfl | exact Or.inr ⟨rfl, rfl⟩ | exact Or.inr ⟨rfl, rfl, rfl⟩))


theorem execSeqUpper_only (h : Only ps a s) (x0) (hs : sub [.out, .irq, .counts, .evrQueue, .line, .lci] ps = true) : OnlyR ps a (execSeqUpper x0 s) := by
  unfold execSeqUpper
  try dsimp only
  repeat' first
    | with_reducible assumption
    | with_reducible refine State.modLkn_only ?_ _ _ _ (sub_of rfl hs)
    | with_reducible refine finish_only ?_  (sub_of rfl hs)
    | with_reducible refine idle_only ?_  (sub_of rfl hs)
    | with_reducible refine State.dlgOf_only ?_ _ _ (sub_of rfl hs)
    | with_reducible refine State.dlgOf_only_of (by assumption) ?_ (sub_of rfl hs)
    | with_reducible refine finish_only ?_ (sub_of rfl hs)
    | with_reducible refine idle_only ?_
    | split
    | (with_reducible refine Only.foldl _ (fun _ _ _ => ?_) _ _ ?_)
    | ((with_reducible apply upd_only); rotate_left; iterate 39 (first | exact Or.inr (by with_reducible rfl) | exact Or.inl (mem_of_sub hs rfl) | exact Or.inl (sub_of rfl hs) | exact Or.inr rfl | exact Or.inr ⟨rfl, rfl⟩ | exact Or.inr ⟨rfl, rfl, rfl⟩))


theorem execTrialExhausted_only (h : Only ps a s) (x0 x1) (hs : sub [.out, .irq, .counts, .evrQueue, .line, .lci] ps = true) : OnlyR ps a (execTrialExhausted x0 x1 s) := by
  unfold execTrialExhausted
  try dsimp only
  repeat' first
    | with_reducible assumption
    | with_reducible refine State.countMill_only ?_ _ _ _ _ _ (sub_of rfl hs)
    | with_reducible refine idle_only ?_  (sub_of rfl hs)
    | with_reducible refine finish_only ?_  (sub_of rfl hs)
    | with_reducible refine State.resync_only ?_ _ _ (sub_of rfl hs)
    | with_reducible refine finish_only ?_ (sub_of rfl hs)
    | with_reducible refine idle_only ?_
    | split
    | (with_reducible refine Only.foldl _ (fun _ _ _ => ?_) _ _ ?_)
    | ((with_reducible apply upd_only); rotate_left; iterate 39 (first | exact Or.inr (by with_reducible rfl) | exact Or.inl (mem_of_sub hs rfl) | exact Or.inl (sub_of rfl hs) | exact Or.inr rfl | exact Or.inr ⟨rfl, rfl⟩ | exact Or.inr ⟨rfl, rfl, rfl⟩))


theorem execSeqQuery_only (h : Only ps a s) (x0) (hs : sub [.out, .irq, .counts, .evrQueue, .line] ps = true) : OnlyR ps a (execSeqQuery x0 s) := by
  unfold execSeqQuery
  try dsimp only
  repeat' first
    | with_reducible assumption
    | with_reducible refine idle_only ?_  (sub_of rfl hs)
    | with_reducible refine finish_only ?_  (sub_of rfl hs)
    | with_reducible refine State.countMill_only ?_ _ _ _ _ _ (sub_of rfl hs)
    | with_reducible refine State.ownMsg_only ?_ _ _ (sub_of rfl hs)
    | with_reducible refine State.dlgOf_only ?_ _ _ (sub_of rfl hs)
    | with_reducible refine State.dlgOf_only_of (by assumption) ?_ (sub_of rfl hs)
    | with_reducible refine finish_only ?_ (sub_of rfl hs)
    | with_reducible refine idle_only ?_
    | split
    | (with_reducible refine Only.foldl _ (fun _ _ _ => ?_) _ _ ?_)
    | ((with_reducible apply upd_only); rotate_left; iterate 39 (first | exact Or.inr (by with_reducible rfl) | exact Or.inl (mem_of_sub hs rfl) | exact Or.inl (sub_of rfl hs) | exact Or.inr rfl | exact Or.inr ⟨rfl, rfl⟩ | exact Or.inr ⟨rfl, rfl, rfl⟩))


theorem execLaneReady_only (h : Only ps a s) (x0) (hs : sub [.out, .irq, .counts, .evrQueue, .line, .dkl] ps = true) : OnlyR ps a (execLaneReady x0 s) := by
  unfold execLaneReady
  try dsimp only
  repeat' first
    | with_reducible assumption
    | with_reducible refine finish_only ?_  (sub_of rfl hs)
    | with_reducible refine State.countMill_only ?_ _ _ _ _ _ (sub_of rfl hs)
    | with_reducible refine idle_only ?_  (sub_of rfl hs)
    | with_reducible refine State.modDkl_only ?_ _ _ (sub_of rfl hs)
    | with_reducible refine State.autoRestore_only ?_ _ (sub_of rfl hs)
    | with_reducible refine State.dlgOf_only ?_ _ _ (sub_of rfl hs)
    | with_reducible refine State.dlgOf_only_of (by assumption) ?_ (sub_of rfl hs)
    | with_reducible refine finish_only ?_ (sub_of rfl hs)
    | with_reducible refine idle_only ?_
    | split
    | (with_reducible refine Only.foldl _ (fun _ _ _ => ?_) _ _ ?_)
    | ((with_reducible apply upd_only); rotate_left; iterate 39 (first | exact Or.inr (by with_reducible rfl) | exact Or.inl (mem_of_sub hs rfl) | exact Or.inl (sub_of rfl hs) | exact Or.inr rfl | exact Or.inr ⟨rfl, rfl⟩ | exact Or.inr ⟨rfl, rfl, rfl⟩))


theorem execLaneUnready_only (h : Only ps a s) (x0) (hs : sub [.out, .irq, .counts, .evrQueue, .line, .dkl] ps = true) : OnlyR ps a (execLaneUnready x0 s) := by
  unfold execLaneUnready
  try dsimp only
  repeat' first
    | with_reducible assumption
    | with_reducible refine finish_only ?_  (sub_of rfl hs)
    | with_reducible refine State.countMill_only ?_ _ _ _ _ _ (sub_of rfl hs)
    | with_reducible refine idle_only ?_  (sub_of rfl hs)
    | with_reducible refine State.modDkl_only ?_ _ _ (sub_of rfl hs)
    | with_reducible refine State.dlgOf_only ?_ _ _ (sub_of rfl hs)
    | with_reducible refine State.dlgOf_only_of (by assumption) ?_ (sub_of rfl hs)
    | with_reducible refine finish_only ?_ (sub_of rfl hs)
    | with_reducible refine idle_only ?_
    | split
    | (with_reducible refine Only.foldl _ (fun _ _ _ => ?_) _ _ ?_)
    | ((with_reducible apply upd_only); rotate_left; iterate 39 (first | exact Or.inr (by with_reducible rfl) | exact Or.inl (mem_of_sub hs rfl) | exact Or.inl (sub_of rfl hs) | exact Or.inr rfl | exact Or.inr ⟨rfl, rfl⟩ | exact Or.inr ⟨rfl, rfl, rfl⟩))


theorem execDlgAck_only (h : Only ps a s) (x0) (hs : sub [.out, .status, .irq, .counts, .evrQueue, .line] ps = true) : OnlyR ps a (execDlgAck x0 s) := by
  unfold execDlgAck
  try dsimp only
  repeat' first
    | with_reducible assumption
    | with_reducible refine finish_only ?_  (sub_of rfl hs)
    | with_reducible refine State.modLine_only ?_ _ _ (sub_of rfl hs)
    | with_reducible refine idle_only ?_  (sub_of rfl hs)
    | with_reducible refine State.setDlgf_only ?_ _ _ (sub_of rfl hs)
    | with_reducible refine finish_only ?_ (sub_of rfl hs)
    | with_reducible refine idle_only ?_
    | split
    | (with_reducible refine Only.foldl _ (fun _ _ _ => ?_) _ _ ?_)
    | ((with_reducible apply upd_only); rotate_left; iterate 39 (first | exact Or.inr (by with_reducible rfl) | exact Or.inl (mem_of_sub hs rfl) | exact Or.inl (sub_of rfl hs) | exact Or.inr rfl | exact Or.inr ⟨rfl, rfl⟩ | exact Or.inr ⟨rfl, rfl, rfl⟩))


theorem State.dlgFail_only (h : Only ps a s) (x1 x2) (hs : sub [.status, .counts, .evrQueue, .line] ps = true) : Only ps a (State.dlgFail s x1 x2) := by
  unfold State.dlgFail
  try dsimp only
  repeat' first
    | with_reducible assumption
    | with_reducible refine State.setBit_only ?_ _ _ _ (Or.inr (by first | rfl | (simp; done) | decide)) (Or.inl (mem_of_sub hs rfl))
    | with_reducible refine State.countMill_only ?_ _ _ _ _ _ (sub_of rfl hs)
    | with_reducible refine State.modLine_only ?_ _ _ (sub_of rfl hs)
    | with_reducible refine State.setDlgf_only ?_ _ _ (sub_of rfl hs)
    | with_reducible refine State.negLook_only ?_ _ (sub_of rfl hs)
    | with_reducible refine State.setNeg_only ?_ _ _ (sub_of rfl hs)
    | split
    | (with_reducible refine Only.foldl _ (fun _ _ _ => ?_) _ _ ?_)
    | ((with_reducible apply upd_only); rotate_left; iterate 39 (first | exact Or.inr (by with_reducible rfl) | exact Or.inl (mem_of_sub hs rfl) | exact Or.inl (sub_of rfl hs) | exact Or.inr rfl | exact Or.inr ⟨rfl, rfl⟩ | exact Or.inr ⟨rfl, rfl, rfl⟩))


theorem State.dlgRetry_only (h : Only ps a s) (x1 x2) (hs : sub [.status, .counts, .evrQueue, .line] ps = true) : Only ps a (State.dlgRetry s x1 x2) := by
  unfold State.dlgRetry
  try dsimp only
  repeat' first
    | with_reducible assumption
    | with_reducible refine State.countMill_only ?_ _ _ _ _ _ (sub_of rfl hs)
    | with_reducible refine State.modLine_only ?_ _ _ (sub_of rfl hs)
    | with_reducible refine State.dlgFail_only ?_ _ _ (sub_of rfl hs)
    | split
    | (with_reducible refine Only.foldl _ (fun _ _ _ => ?_) _ _ ?_)
    | ((with_reducible apply upd_only); rotate_left; iterate 39 (first | exact Or.inr (by with_reducible rfl) | exact Or.inl (mem_of_sub hs rfl) | exact Or.inl (sub_of rfl hs) | exact Or.inr rfl | exact Or.inr ⟨rfl, rfl⟩ | exact Or.inr ⟨rfl, rfl, rfl⟩))


theorem execDlgRetryTimeout_only (h : Only ps a s) (x0) (hs : sub [.out, .status, .irq, .counts, .evrQueue, .line] ps = true) : OnlyR ps a (execDlgRetryTimeout x0 s) := by
  unfold execDlgRetryTimeout
  try dsimp only
  repeat' first
    | with_reducible assumption
    | with_reducible refine idle_only ?_  (sub_of rfl hs)
    | with_reducible refine finish_only ?_  (sub_of rfl hs)
    | with_reducible refine State.dlgRetry_only ?_ _ _ (sub_of rfl hs)
    | with_reducible refine finish_only ?_ (sub_of rfl hs)
    | with_reducible refine idle_only ?_
    | split
    | (with_reducible refine Only.foldl _ (fun _ _ _ => ?_) _ _ ?_)
    | ((with_reducible apply upd_only); rotate_left; iterate 39 (first | exact Or.inr (by with_reducible rfl) | exact Or.inl (mem_of_sub hs rfl) | exact Or.inl (sub_of rfl hs) | exact Or.inr rfl | exact Or.inr ⟨rfl, rfl⟩ | exact Or.inr ⟨rfl, rfl, rfl⟩))


end Sys2Proof.Machine
end

