-- ==== Sys2Proof/Laws/OnlyLanes.lean ====
section
/-! SUPPORT. What each operation of Machine/Lanes.lean may change. -/

set_option linter.unusedTactic false
set_option linter.unreachableTactic false
set_option linter.unusedVariables false
set_option linter.unusedSimpArgs false

namespace Sys2Proof.Machine

variable {ps : List Area} {a s : State}

theorem State.setUnlocked_only (h : Only ps a s) (x1 x2) (hs : sub [.lanes] ps = true) : Only ps a (State.setUnlocked s x1 x2) := by
  unfold State.setUnlocked
  try dsimp only
  repeat' first
    | with_reducible assumption
    | with_reducible refine State.modLane_only ?_ _ _ (sub_of rfl hs)
    | split
    | (with_reducible refine Only.foldl _ (fun _ _ _ => ?_) _ _ ?_)
    | ((with_reducible apply upd_only); rotate_left; iterate 39 (first | exact Or.inr (by with_reducible rfl) | exact Or.inl (mem_of_sub hs rfl) | exact Or.inl (sub_of rfl hs) | exact Or.inr rfl | exact Or.inr ⟨rfl, rfl⟩ | exact Or.inr ⟨rfl, rfl, rfl⟩))


theorem State.feltDown_only (h : Only ps a s) (hs : sub [.status, .felt, .mte] ps = true) : Only ps a (State.feltDown s) := by
  unfold State.feltDown
  try dsimp only
  repeat' first
    | with_reducible assumption
    | with_reducible refine State.setBit_only ?_ _ _ _ (Or.inr (by first | rfl | (simp; done) | decide)) (Or.inl (mem_of_sub hs rfl))
    | with_reducible refine State.modFelt_only ?_ _ (sub_of rfl hs)
    | with_reducible refine State.mateLinkDown_only ?_  (sub_of rfl hs)
    | split
    | (with_reducible refine Only.foldl _ (fun _ _ _ => ?_) _ _ ?_)
    | ((with_reducible apply upd_only); rotate_left; iterate 39 (first | exact Or.inr (by with_reducible rfl) | exact Or.inl (mem_of_sub hs rfl) | exact Or.inl (sub_of rfl hs) | exact Or.inr rfl | exact Or.inr ⟨rfl, rfl⟩ | exact Or.inr ⟨rfl, rfl, rfl⟩))


theorem State.feltLoss_only (h : Only ps a s) (x1) (hs : sub [.status, .felt, .mte] ps = true) : Only ps a (State.feltLoss s x1) := by
  unfold State.feltLoss
  try dsimp only
  repeat' first
    | with_reducible assumption
    | with_reducible refine State.modFelt_only ?_ _ (sub_of rfl hs)
    | with_reducible refine State.feltDown_only ?_  (sub_of rfl hs)
    | split
    | (with_reducible refine Only.foldl _ (fun _ _ _ => ?_) _ _ ?_)
    | ((with_reducible apply upd_only); rotate_left; iterate 39 (first | exact Or.inr (by with_reducible rfl) | exact Or.inl (mem_of_sub hs rfl) | exact Or.inl (sub_of rfl hs) | exact Or.inr rfl | exact Or.inr ⟨rfl, rfl⟩ | exact Or.inr ⟨rfl, rfl, rfl⟩))


theorem State.losMark_only (h : Only ps a s) (x1) (hs : sub [.status, .counts] ps = true) : Only ps a (State.losMark s x1) := by
  unfold State.losMark
  try dsimp only
  repeat' first
    | with_reducible assumption
    | with_reducible refine State.setBit_only ?_ _ _ _ (Or.inr (by first | rfl | (simp; done) | decide)) (Or.inl (mem_of_sub hs rfl))
    | with_reducible refine State.countMill_only ?_ _ _ _ _ _ (sub_of rfl hs)
    | split
    | (with_reducible refine Only.foldl _ (fun _ _ _ => ?_) _ _ ?_)
    | ((with_reducible apply upd_only); rotate_left; iterate 39 (first | exact Or.inr (by with_reducible rfl) | exact Or.inl (mem_of_sub hs rfl) | exact Or.inl (sub_of rfl hs) | exact Or.inr rfl | exact Or.inr ⟨rfl, rfl⟩ | exact Or.inr ⟨rfl, rfl, rfl⟩))


theorem linkFaults_only (h : Only ps a s) (x0 x2) (hs : sub [.out, .counts] ps = true) : Only ps a (linkFaults x0 s x2) := by
  unfold linkFaults
  try dsimp only
  repeat' first
    | with_reducible assumption
    | with_reducible refine State.emit_only ?_ _ (sub_of rfl hs)
    | with_reducible refine State.countMill_only ?_ _ _ _ _ _ (sub_of rfl hs)
    | split
    | (with_reducible refine Only.foldl _ (fun _ _ _ => ?_) _ _ ?_)
    | ((with_reducible apply upd_only); rotate_left; iterate 39 (first | exact Or.inr (by with_reducible rfl) | exact Or.inl (mem_of_sub hs rfl) | exact Or.inl (sub_of rfl hs) | exact Or.inr rfl | exact Or.inr ⟨rfl, rfl⟩ | exact Or.inr ⟨rfl, rfl, rfl⟩))


theorem laneConsumer_only (h : Only ps a s) (x0 x2) (hs : sub [.out, .status, .counts, .evrQueue, .tim, .line, .lanes, .felt, .mte] ps = true) : Only ps a (laneConsumer x0 s x2) := by
  unfold laneConsumer
  try dsimp only
  repeat' first
    | with_reducible assumption
    | with_reducible refine State.modLane_only ?_ _ _ (sub_of rfl hs)
    | with_reducible refine State.loseLock_only ?_ _ _ (sub_of rfl hs)
    | with_reducible refine linkFaults_only ?_ _ _ (sub_of rfl hs)
    | with_reducible refine State.feltLoss_only ?_ _ (sub_of rfl hs)
    | split
    | (with_reducible refine Only.foldl _ (fun _ _ _ => ?_) _ _ ?_)
    | ((with_reducible apply upd_only); rotate_left; iterate 39 (first | exact Or.inr (by with_reducible rfl) | exact Or.inl (mem_of_sub hs rfl) | exact Or.inl (sub_of rfl hs) | exact Or.inr rfl | exact Or.inr ⟨rfl, rfl⟩ | exact Or.inr ⟨rfl, rfl, rfl⟩))


theorem laneAfter_only (h : Only ps a s) (x0 x2) (hs : sub [.out, .status, .counts, .evrQueue, .tim, .line, .lanes, .felt, .mte] ps = true) : Only ps a (laneAfter x0 s x2) := by
  unfold laneAfter
  try dsimp only
  repeat' first
    | with_reducible assumption
    | with_reducible refine State.rxLook_only ?_ _ (sub_of rfl hs)
    | with_reducible refine laneConsumer_only ?_ _ _ (sub_of rfl hs)
    | split
    | (with_reducible refine Only.foldl _ (fun _ _ _ => ?_) _ _ ?_)
    | ((with_reducible apply upd_only); rotate_left; iterate 39 (first | exact Or.inr (by with_reducible rfl) | exact Or.inl (mem_of_sub hs rfl) | exact Or.inl (sub_of rfl hs) | exact Or.inr rfl | exact Or.inr ⟨rfl, rfl⟩ | exact Or.inr ⟨rfl, rfl, rfl⟩))


theorem laneEnd_only (h : Only ps a s) (x0 x2) (hs : sub [.out, .status, .irq, .host, .pads, .counts, .evrQueue, .tim, .line, .lanes, .felt, .role, .mte] ps = true) : OnlyR ps a (laneEnd x0 s x2) := by
  unfold laneEnd
  try dsimp only
  repeat' first
    | with_reducible assumption
    | with_reducible refine mateEnd_only ?_  (sub_of rfl hs)
    | with_reducible refine laneAfter_only ?_ _ _ (sub_of rfl hs)
    | with_reducible refine finish_only ?_ (sub_of rfl hs)
    | with_reducible refine idle_only ?_
    | split
    | (with_reducible refine Only.foldl _ (fun _ _ _ => ?_) _ _ ?_)
    | ((with_reducible apply upd_only); rotate_left; iterate 39 (first | exact Or.inr (by with_reducible rfl) | exact Or.inl (mem_of_sub hs rfl) | exact Or.inl (sub_of rfl hs) | exact Or.inr rfl | exact Or.inr ⟨rfl, rfl⟩ | exact Or.inr ⟨rfl, rfl, rfl⟩))


theorem execTxLeaveIdle_only (h : Only ps a s) (x0) (hs : sub [.out, .irq, .counts, .evrQueue, .lanes] ps = true) : OnlyR ps a (execTxLeaveIdle x0 s) := by
  unfold execTxLeaveIdle
  try dsimp only
  repeat' first
    | with_reducible assumption
    | with_reducible refine State.modLane_only ?_ _ _ (sub_of rfl hs)
    | with_reducible refine idle_only ?_  (sub_of rfl hs)
    | with_reducible refine State.emit_only ?_ _ (sub_of rfl hs)
    | with_reducible refine finish_only ?_  (sub_of rfl hs)
    | with_reducible refine State.setUnlocked_only ?_ _ _ (sub_of rfl hs)
    | with_reducible refine finish_only ?_ (sub_of rfl hs)
    | with_reducible refine idle_only ?_
    | split
    | (with_reducible refine Only.foldl _ (fun _ _ _ => ?_) _ _ ?_)
    | ((with_reducible apply upd_only); rotate_left; iterate 39 (first | exact Or.inr (by with_reducible rfl) | exact Or.inl (mem_of_sub hs rfl) | exact Or.inl (sub_of rfl hs) | exact Or.inr rfl | exact Or.inr ⟨rfl, rfl⟩ | exact Or.inr ⟨rfl, rfl, rfl⟩))


theorem execTxEnterIdle_only (h : Only ps a s) (x0) (hs : sub [.out, .status, .irq, .host, .pads, .counts, .evrQueue, .tim, .line, .lanes, .felt, .role, .mte] ps = true) : OnlyR ps a (execTxEnterIdle x0 s) := by
  unfold execTxEnterIdle
  try dsimp only
  repeat' first
    | with_reducible assumption
    | with_reducible refine State.modLane_only ?_ _ _ (sub_of rfl hs)
    | with_reducible refine idle_only ?_  (sub_of rfl hs)
    | with_reducible refine mateEnd_only ?_  (sub_of rfl hs)
    | with_reducible refine State.setUnlocked_only ?_ _ _ (sub_of rfl hs)
    | with_reducible refine laneConsumer_only ?_ _ _ (sub_of rfl hs)
    | with_reducible refine finish_only ?_ (sub_of rfl hs)
    | with_reducible refine idle_only ?_
    | split
    | (with_reducible refine Only.foldl _ (fun _ _ _ => ?_) _ _ ?_)
    | ((with_reducible apply upd_only); rotate_left; iterate 39 (first | exact Or.inr (by with_reducible rfl) | exact Or.inl (mem_of_sub hs rfl) | exact Or.inl (sub_of rfl hs) | exact Or.inr rfl | exact Or.inr ⟨rfl, rfl⟩ | exact Or.inr ⟨rfl, rfl, rfl⟩))


theorem execTrainingBurstEnd_only (h : Only ps a s) (x0) (hs : sub [.out, .irq, .counts, .evrQueue, .line, .lanes] ps = true) : OnlyR ps a (execTrainingBurstEnd x0 s) := by
  unfold execTrainingBurstEnd
  try dsimp only
  repeat' first
    | with_reducible assumption
    | with_reducible refine finish_only ?_  (sub_of rfl hs)
    | with_reducible refine idle_only ?_  (sub_of rfl hs)
    | with_reducible refine State.modLine_only ?_ _ _ (sub_of rfl hs)
    | with_reducible refine State.modLane_only ?_ _ _ (sub_of rfl hs)
    | with_reducible refine finish_only ?_ (sub_of rfl hs)
    | with_reducible refine idle_only ?_
    | split
    | (with_reducible refine Only.foldl _ (fun _ _ _ => ?_) _ _ ?_)
    | ((with_reducible apply upd_only); rotate_left; iterate 39 (first | exact Or.inr (by with_reducible rfl) | exact Or.inl (mem_of_sub hs rfl) | exact Or.inl (sub_of rfl hs) | exact Or.inr rfl | exact Or.inr ⟨rfl, rfl⟩ | exact Or.inr ⟨rfl, rfl, rfl⟩))


theorem State.modeWrite_only (h : Only ps a s) (x1 x2) (hs : sub [.settings, .lanes] ps = true) : Only ps a (State.modeWrite s x1 x2) := by
  unfold State.modeWrite
  try dsimp only
  repeat' first
    | with_reducible assumption
    | with_reducible refine State.setFld_only ?_ _ _ _ _ (Or.inr (by first | rfl | (simp; done) | decide)) (Or.inl (mem_of_sub hs rfl))
    | with_reducible refine State.setFld_only ?_ _ _ _ _ (Or.inl (mem_of_sub hs rfl)) (Or.inr (by first | rfl | (simp; done) | decide))
    | with_reducible refine State.setFld_only ?_ _ _ _ _ (Or.inl (mem_of_sub hs rfl)) (Or.inl (mem_of_sub hs rfl))
    | with_reducible refine State.modLane_only ?_ _ _ (sub_of rfl hs)
    | split
    | (with_reducible refine Only.foldl _ (fun _ _ _ => ?_) _ _ ?_)
    | ((with_reducible apply upd_only); rotate_left; iterate 39 (first | exact Or.inr (by with_reducible rfl) | exact Or.inl (mem_of_sub hs rfl) | exact Or.inl (sub_of rfl hs) | exact Or.inr rfl | exact Or.inr ⟨rfl, rfl⟩ | exact Or.inr ⟨rfl, rfl, rfl⟩))


theorem execLaneModeWrite_only (h : Only ps a s) (x0 x1) (hs : sub [.out, .settings, .status, .irq, .host, .pads, .counts, .evrQueue, .tim, .line, .lanes, .felt, .role, .mte] ps = true) : OnlyR ps a (execLaneModeWrite x0 x1 s) := by
  unfold execLaneModeWrite
  try dsimp only
  repeat' first
    | with_reducible assumption
    | with_reducible refine idle_only ?_  (sub_of rfl hs)
    | with_reducible refine laneEnd_only ?_ _ _ (sub_of rfl hs)
    | with_reducible refine State.modeWrite_only ?_ _ _ (sub_of rfl hs)
    | with_reducible refine finish_only ?_ (sub_of rfl hs)
    | with_reducible refine idle_only ?_
    | split
    | (with_reducible refine Only.foldl _ (fun _ _ _ => ?_) _ _ ?_)
    | ((with_reducible apply upd_only); rotate_left; iterate 39 (first | exact Or.inr (by with_reducible rfl) | exact Or.inl (mem_of_sub hs rfl) | exact Or.inl (sub_of rfl hs) | exact Or.inr rfl | exact Or.inr ⟨rfl, rfl⟩ | exact Or.inr ⟨rfl, rfl, rfl⟩))


theorem execSigDetChange_only (h : Only ps a s) (x0 x1) (hs : sub [.out, .status, .irq, .host, .pads, .counts, .evrQueue, .tim, .line, .lanes, .felt, .role, .mte] ps = true) : OnlyR ps a (execSigDetChange x0 x1 s) := by
  unfold execSigDetChange
  try dsimp only
  repeat' first
    | with_reducible assumption
    | with_reducible refine State.modLane_only ?_ _ _ (sub_of rfl hs)
    | with_reducible refine idle_only ?_  (sub_of rfl hs)
    | with_reducible refine laneEnd_only ?_ _ _ (sub_of rfl hs)
    | with_reducible refine State.losMark_only ?_ _ (sub_of rfl hs)
    | with_reducible refine finish_only ?_ (sub_of rfl hs)
    | with_reducible refine idle_only ?_
    | split
    | (with_reducible refine Only.foldl _ (fun _ _ _ => ?_) _ _ ?_)
    | ((with_reducible apply upd_only); rotate_left; iterate 39 (first | exact Or.inr (by with_reducible rfl) | exact Or.inl (mem_of_sub hs rfl) | exact Or.inl (sub_of rfl hs) | exact Or.inr rfl | exact Or.inr ⟨rfl, rfl⟩ | exact Or.inr ⟨rfl, rfl, rfl⟩))


theorem execCdrLock_only (h : Only ps a s) (x0) (hs : sub [.out, .status, .irq, .host, .pads, .counts, .evrQueue, .tim, .line, .lanes, .felt, .role, .mte] ps = true) : OnlyR ps a (execCdrLock x0 s) := by
  unfold execCdrLock
  try dsimp only
  repeat' first
    | with_reducible assumption
    | with_reducible refine State.modLane_only ?_ _ _ (sub_of rfl hs)
    | with_reducible refine idle_only ?_  (sub_of rfl hs)
    | with_reducible refine laneEnd_only ?_ _ _ (sub_of rfl hs)
    | with_reducible refine finish_only ?_ (sub_of rfl hs)
    | with_reducible refine idle_only ?_
    | split
    | (with_reducible refine Only.foldl _ (fun _ _ _ => ?_) _ _ ?_)
    | ((with_reducible apply upd_only); rotate_left; iterate 39 (first | exact Or.inr (by with_reducible rfl) | exact Or.inl (mem_of_sub hs rfl) | exact Or.inl (sub_of rfl hs) | exact Or.inr rfl | exact Or.inr ⟨rfl, rfl⟩ | exact Or.inr ⟨rfl, rfl, rfl⟩))


theorem execFomWindowEnd_only (h : Only ps a s) (x0 x1 x2) (hs : sub [.out, .status, .irq, .host, .pads, .counts, .evrQueue, .tim, .line, .lanes, .felt, .role, .mte] ps = true) : OnlyR ps a (execFomWindowEnd x0 x1 x2 s) := by
  unfold execFomWindowEnd
  try dsimp only
  repeat' first
    | with_reducible assumption
    | with_reducible refine State.setBit_only ?_ _ _ _ (Or.inr (by first | rfl | (simp; done) | decide)) (Or.inl (mem_of_sub hs rfl))
    | with_reducible refine State.modLane_only ?_ _ _ (sub_of rfl hs)
    | with_reducible refine idle_only ?_  (sub_of rfl hs)
    | with_reducible refine State.countMill_only ?_ _ _ _ _ _ (sub_of rfl hs)
    | with_reducible refine State.losMark_only ?_ _ (sub_of rfl hs)
    | with_reducible refine laneEnd_only ?_ _ _ (sub_of rfl hs)
    | with_reducible refine finish_only ?_ (sub_of rfl hs)
    | with_reducible refine idle_only ?_
    | split
    | (with_reducible refine Only.foldl _ (fun _ _ _ => ?_) _ _ ?_)
    | ((with_reducible apply upd_only); rotate_left; iterate 39 (first | exact Or.inr (by with_reducible rfl) | exact Or.inl (mem_of_sub hs rfl) | exact Or.inl (sub_of rfl hs) | exact Or.inr rfl | exact Or.inr ⟨rfl, rfl⟩ | exact Or.inr ⟨rfl, rfl, rfl⟩))


theorem execAdaptTimeout_only (h : Only ps a s) (x0) (hs : sub [.out, .status, .irq, .host, .pads, .counts, .evrQueue, .tim, .line, .lanes, .felt, .role, .mte] ps = true) : OnlyR ps a (execAdaptTimeout x0 s) := by
  unfold execAdaptTimeout
  try dsimp only
  repeat' first
    | with_reducible assumption
    | with_reducible refine State.setBit_only ?_ _ _ _ (Or.inr (by first | rfl | (simp; done) | decide)) (Or.inl (mem_of_sub hs rfl))
    | with_reducible refine State.modLane_only ?_ _ _ (sub_of rfl hs)
    | with_reducible refine idle_only ?_  (sub_of rfl hs)
    | with_reducible refine State.countMill_only ?_ _ _ _ _ _ (sub_of rfl hs)
    | with_reducible refine laneEnd_only ?_ _ _ (sub_of rfl hs)
    | with_reducible refine finish_only ?_ (sub_of rfl hs)
    | with_reducible refine idle_only ?_
    | split
    | (with_reducible refine Only.foldl _ (fun _ _ _ => ?_) _ _ ?_)
    | ((with_reducible apply upd_only); rotate_left; iterate 39 (first | exact Or.inr (by with_reducible rfl) | exact Or.inl (mem_of_sub hs rfl) | exact Or.inl (sub_of rfl hs) | exact Or.inr rfl | exact Or.inr ⟨rfl, rfl⟩ | exact Or.inr ⟨rfl, rfl, rfl⟩))


theorem State.eyeWrite_only (h : Only ps a s) (x1 x2) (hs : sub [.settings, .lanes] ps = true) : Only ps a (State.eyeWrite s x1 x2) := by
  unfold State.eyeWrite
  try dsimp only
  repeat' first
    | with_reducible assumption
    | with_reducible refine State.setFld_only ?_ _ _ _ _ (Or.inr (by first | rfl | (simp; done) | decide)) (Or.inl (mem_of_sub hs rfl))
    | with_reducible refine State.setFld_only ?_ _ _ _ _ (Or.inl (mem_of_sub hs rfl)) (Or.inr (by first | rfl | (simp; done) | decide))
    | with_reducible refine State.setFld_only ?_ _ _ _ _ (Or.inl (mem_of_sub hs rfl)) (Or.inl (mem_of_sub hs rfl))
    | with_reducible refine State.modLane_only ?_ _ _ (sub_of rfl hs)
    | split
    | (with_reducible refine Only.foldl _ (fun _ _ _ => ?_) _ _ ?_)
    | ((with_reducible apply upd_only); rotate_left; iterate 39 (first | exact Or.inr (by with_reducible rfl) | exact Or.inl (mem_of_sub hs rfl) | exact Or.inl (sub_of rfl hs) | exact Or.inr rfl | exact Or.inr ⟨rfl, rfl⟩ | exact Or.inr ⟨rfl, rfl, rfl⟩))


theorem execEyeScanStart_only (h : Only ps a s) (x0 x1) (hs : sub [.out, .settings, .irq, .counts, .evrQueue, .lanes] ps = true) : OnlyR ps a (execEyeScanStart x0 x1 s) := by
  unfold execEyeScanStart
  try dsimp only
  repeat' first
    | with_reducible assumption
    | with_reducible refine idle_only ?_  (sub_of rfl hs)
    | with_reducible refine finish_only ?_  (sub_of rfl hs)
    | with_reducible refine State.eyeWrite_only ?_ _ _ (sub_of rfl hs)
    | with_reducible refine finish_only ?_ (sub_of rfl hs)
    | with_reducible refine idle_only ?_
    | split
    | (with_reducible refine Only.foldl _ (fun _ _ _ => ?_) _ _ ?_)
    | ((with_reducible apply upd_only); rotate_left; iterate 39 (first | exact Or.inr (by with_reducible rfl) | exact Or.inl (mem_of_sub hs rfl) | exact Or.inl (sub_of rfl hs) | exact Or.inr rfl | exact Or.inr ⟨rfl, rfl⟩ | exact Or.inr ⟨rfl, rfl, rfl⟩))


theorem execEyeScanDone_only (h : Only ps a s) (x0 x1) (hs : sub [.out, .irq, .counts, .evrQueue, .lanes] ps = true) : OnlyR ps a (execEyeScanDone x0 x1 s) := by
  unfold execEyeScanDone
  try dsimp only
  repeat' first
    | with_reducible assumption
    | with_reducible refine State.modLane_only ?_ _ _ (sub_of rfl hs)
    | with_reducible refine idle_only ?_  (sub_of rfl hs)
    | with_reducible refine finish_only ?_  (sub_of rfl hs)
    | with_reducible refine finish_only ?_ (sub_of rfl hs)
    | with_reducible refine idle_only ?_
    | split
    | (with_reducible refine Only.foldl _ (fun _ _ _ => ?_) _ _ ?_)
    | ((with_reducible apply upd_only); rotate_left; iterate 39 (first | exact Or.inr (by with_reducible rfl) | exact Or.inl (mem_of_sub hs rfl) | exact Or.inl (sub_of rfl hs) | exact Or.inr rfl | exact Or.inr ⟨rfl, rfl⟩ | exact Or.inr ⟨rfl, rfl, rfl⟩))


theorem State.serCtlWrite_only (h : Only ps a s) (x1 x2) (hs : sub [.out, .settings, .status, .counts, .evrQueue, .tim, .line, .lanes, .felt, .mte] ps = true) : Only ps a (State.serCtlWrite s x1 x2) := by
  unfold State.serCtlWrite
  try dsimp only
  repeat' first
    | with_reducible assumption
    | with_reducible refine State.setReg_only ?_ _ _ (Or.inr (by first | rfl | (simp; done) | decide)) (Or.inl (mem_of_sub hs rfl))
    | with_reducible refine State.setReg_only ?_ _ _ (Or.inl (mem_of_sub hs rfl)) (Or.inr (by first | rfl | (simp; done) | decide))
    | with_reducible refine State.setReg_only ?_ _ _ (Or.inl (mem_of_sub hs rfl)) (Or.inl (mem_of_sub hs rfl))
    | with_reducible refine State.modLane_only ?_ _ _ (sub_of rfl hs)
    | with_reducible refine State.modeWrite_only ?_ _ _ (sub_of rfl hs)
    | with_reducible refine laneAfter_only ?_ _ _ (sub_of rfl hs)
    | split
    | (with_reducible refine Only.foldl _ (fun _ _ _ => ?_) _ _ ?_)
    | ((with_reducible apply upd_only); rotate_left; iterate 39 (first | exact Or.inr (by with_reducible rfl) | exact Or.inl (mem_of_sub hs rfl) | exact Or.inl (sub_of rfl hs) | exact Or.inr rfl | exact Or.inr ⟨rfl, rfl⟩ | exact Or.inr ⟨rfl, rfl, rfl⟩))


theorem execReamBegin_only (h : Only ps a s) (x0) (hs : sub [.out, .status, .irq, .host, .pads, .counts, .evrQueue, .tim, .line, .dkl, .lci, .cur, .lanes, .felt, .role, .mte] ps = true) : OnlyR ps a (execReamBegin x0 s) := by
  unfold execReamBegin
  try dsimp only
  repeat' first
    | with_reducible assumption
    | with_reducible refine idle_only ?_  (sub_of rfl hs)
    | with_reducible refine State.reamBegin_only ?_ _ (sub_of rfl hs)
    | with_reducible refine laneEnd_only ?_ _ _ (sub_of rfl hs)
    | with_reducible refine finish_only ?_ (sub_of rfl hs)
    | with_reducible refine idle_only ?_
    | split
    | (with_reducible refine Only.foldl _ (fun _ _ _ => ?_) _ _ ?_)
    | ((with_reducible apply upd_only); rotate_left; iterate 39 (first | exact Or.inr (by with_reducible rfl) | exact Or.inl (mem_of_sub hs rfl) | exact Or.inl (sub_of rfl hs) | exact Or.inr rfl | exact Or.inr ⟨rfl, rfl⟩ | exact Or.inr ⟨rfl, rfl, rfl⟩))


theorem execLaneUseWrite_only (h : Only ps a s) (x0 x1) (hs : sub [.out, .status, .irq, .host, .pads, .counts, .evrQueue, .tim, .line, .dkl, .lanes, .felt, .role, .mte] ps = true) : OnlyR ps a (execLaneUseWrite x0 x1 s) := by
  unfold execLaneUseWrite
  try dsimp only
  repeat' first
    | with_reducible assumption
    | with_reducible refine idle_only ?_  (sub_of rfl hs)
    | with_reducible refine State.writeLaneUse_only ?_ _ _ (sub_of rfl hs)
    | with_reducible refine laneEnd_only ?_ _ _ (sub_of rfl hs)
    | with_reducible refine finish_only ?_ (sub_of rfl hs)
    | with_reducible refine idle_only ?_
    | split
    | (with_reducible refine Only.foldl _ (fun _ _ _ => ?_) _ _ ?_)
    | ((with_reducible apply upd_only); rotate_left; iterate 39 (first | exact Or.inr (by with_reducible rfl) | exact Or.inl (mem_of_sub hs rfl) | exact Or.inl (sub_of rfl hs) | exact Or.inr rfl | exact Or.inr ⟨rfl, rfl⟩ | exact Or.inr ⟨rfl, rfl, rfl⟩))


theorem State.feltErrored_only (h : Only ps a s) (hs : sub [.counts, .felt] ps = true) : Only ps a (State.feltErrored s) := by
  unfold State.feltErrored
  try dsimp only
  repeat' first
    | with_reducible assumption
    | with_reducible refine State.countDev_only ?_ _ _ _ _ (sub_of rfl hs)
    | with_reducible refine State.modFelt_only ?_ _ (sub_of rfl hs)
    | split
    | (with_reducible refine Only.foldl _ (fun _ _ _ => ?_) _ _ ?_)
    | ((with_reducible apply upd_only); rotate_left; iterate 39 (first | exact Or.inr (by with_reducible rfl) | exact Or.inl (mem_of_sub hs rfl) | exact Or.inl (sub_of rfl hs) | exact Or.inr rfl | exact Or.inr ⟨rfl, rfl⟩ | exact Or.inr ⟨rfl, rfl, rfl⟩))


theorem State.feltBad_only (h : Only ps a s) (hs : sub [.felt] ps = true) : Only ps a (State.feltBad s) := by
  unfold State.feltBad
  try dsimp only
  repeat' first
    | with_reducible assumption
    | with_reducible refine State.modFelt_only ?_ _ (sub_of rfl hs)
    | split
    | (with_reducible refine Only.foldl _ (fun _ _ _ => ?_) _ _ ?_)
    | ((with_reducible apply upd_only); rotate_left; iterate 39 (first | exact Or.inr (by with_reducible rfl) | exact Or.inl (mem_of_sub hs rfl) | exact Or.inl (sub_of rfl hs) | exact Or.inr rfl | exact Or.inr ⟨rfl, rfl⟩ | exact Or.inr ⟨rfl, rfl, rfl⟩))


theorem State.feltSlot_only (h : Only ps a s) (x1) (hs : sub [.out, .counts, .felt, .mte] ps = true) : Only ps a (State.feltSlot s x1) := by
  unfold State.feltSlot
  try dsimp only
  repeat' first
    | with_reducible assumption
    | with_reducible refine State.modFelt_only ?_ _ (sub_of rfl hs)
    | with_reducible refine State.mateHb_only ?_  (sub_of rfl hs)
    | with_reducible refine State.feltDeliver_only ?_ _ (sub_of rfl hs)
    | with_reducible refine State.feltErrored_only ?_  (sub_of rfl hs)
    | with_reducible refine State.feltBad_only ?_  (sub_of rfl hs)
    | split
    | (with_reducible refine Only.foldl _ (fun _ _ _ => ?_) _ _ ?_)
    | ((with_reducible apply upd_only); rotate_left; iterate 39 (first | exact Or.inr (by with_reducible rfl) | exact Or.inl (mem_of_sub hs rfl) | exact Or.inl (sub_of rfl hs) | exact Or.inr rfl | exact Or.inr ⟨rfl, rfl⟩ | exact Or.inr ⟨rfl, rfl, rfl⟩))


theorem State.feltTake_only (h : Only ps a s) (x1) (hs : sub [.out, .status, .host, .pads, .counts, .evrQueue, .tim, .rng, .line, .dkl, .lci, .sac, .vat, .sch, .ports, .trib, .tribOld, .sc, .sa, .cur, .felt, .role, .mte] ps = true) : Only ps a (State.feltTake s x1) := by
  unfold State.feltTake
  try dsimp only
  repeat' first
    | with_reducible assumption
    | with_reducible refine State.mateLinkUp_only ?_  (sub_of rfl hs)
    | with_reducible refine State.feltSlot_only ?_ _ (sub_of rfl hs)
    | with_reducible refine State.feltDown_only ?_  (sub_of rfl hs)
    | split
    | (with_reducible refine Only.foldl _ (fun _ _ _ => ?_) _ _ ?_)
    | ((with_reducible apply upd_only); rotate_left; iterate 39 (first | exact Or.inr (by with_reducible rfl) | exact Or.inl (mem_of_sub hs rfl) | exact Or.inl (sub_of rfl hs) | exact Or.inr rfl | exact Or.inr ⟨rfl, rfl⟩ | exact Or.inr ⟨rfl, rfl, rfl⟩))


theorem State.feltDeskew_only (h : Only ps a s) (x1) (hs : sub [.out, .status, .host, .pads, .counts, .evrQueue, .tim, .rng, .line, .dkl, .lci, .sac, .vat, .sch, .ports, .trib, .tribOld, .sc, .sa, .cur, .felt, .role, .mte] ps = true) : Only ps a (State.feltDeskew s x1) := by
  unfold State.feltDeskew
  try dsimp only
  repeat' first
    | with_reducible assumption
    | with_reducible refine State.modFelt_only ?_ _ (sub_of rfl hs)
    | with_reducible refine State.feltDown_only ?_  (sub_of rfl hs)
    | with_reducible refine State.feltTake_only ?_ _ (sub_of rfl hs)
    | split
    | (with_reducible refine Only.foldl _ (fun _ _ _ => ?_) _ _ ?_)
    | ((with_reducible apply upd_only); rotate_left; iterate 39 (first | exact Or.inr (by with_reducible rfl) | exact Or.inl (mem_of_sub hs rfl) | exact Or.inl (sub_of rfl hs) | exact Or.inr rfl | exact Or.inr ⟨rfl, rfl⟩ | exact Or.inr ⟨rfl, rfl, rfl⟩))


theorem State.feltChar_only (h : Only ps a s) (x1 x2) (hs : sub [.status, .counts, .felt, .mte] ps = true) : Only ps a (State.feltChar s x1 x2) := by
  unfold State.feltChar
  try dsimp only
  repeat' first
    | with_reducible assumption
    | with_reducible refine State.countDev_only ?_ _ _ _ _ (sub_of rfl hs)
    | with_reducible refine State.modFelt_only ?_ _ (sub_of rfl hs)
    | with_reducible refine State.feltLoss_only ?_ _ (sub_of rfl hs)
    | split
    | (with_reducible refine Only.foldl _ (fun _ _ _ => ?_) _ _ ?_)
    | ((with_reducible apply upd_only); rotate_left; iterate 39 (first | exact Or.inr (by with_reducible rfl) | exact Or.inl (mem_of_sub hs rfl) | exact Or.inl (sub_of rfl hs) | exact Or.inr rfl | exact Or.inr ⟨rfl, rfl⟩ | exact Or.inr ⟨rfl, rfl, rfl⟩))


theorem execFeltSlotReceive_only (h : Only ps a s) (x0 x1 x2 x3) (hs : sub [.out, .status, .irq, .host, .pads, .counts, .evrQueue, .tim, .rng, .line, .dkl, .lci, .sac, .vat, .sch, .ports, .trib, .tribOld, .sc, .sa, .cur, .felt, .role, .mte] ps = true) : OnlyR ps a (execFeltSlotReceive x0 x1 x2 x3 s) := by
  unfold execFeltSlotReceive
  try dsimp only
  repeat' first
    | with_reducible assumption
    | with_reducible refine idle_only ?_  (sub_of rfl hs)
    | with_reducible refine mateEnd_only ?_  (sub_of rfl hs)
    | with_reducible refine State.feltChar_only ?_ _ _ (sub_of rfl hs)
    | with_reducible refine State.feltDeskew_only ?_ _ (sub_of rfl hs)
    | with_reducible refine finish_only ?_ (sub_of rfl hs)
    | with_reducible refine idle_only ?_
    | split
    | (with_reducible refine Only.foldl _ (fun _ _ _ => ?_) _ _ ?_)
    | ((with_reducible apply upd_only); rotate_left; iterate 39 (first | exact Or.inr (by with_reducible rfl) | exact Or.inl (mem_of_sub hs rfl) | exact Or.inl (sub_of rfl hs) | exact Or.inr rfl | exact Or.inr ⟨rfl, rfl⟩ | exact Or.inr ⟨rfl, rfl, rfl⟩))


theorem execFeltFifoError_only (h : Only ps a s) (hs : sub [.out, .status, .irq, .host, .pads, .counts, .evrQueue, .felt, .role, .mte] ps = true) : OnlyR ps a (execFeltFifoError s) := by
  unfold execFeltFifoError
  try dsimp only
  repeat' first
    | with_reducible assumption
    | with_reducible refine State.setBit_only ?_ _ _ _ (Or.inr (by first | rfl | (simp; done) | decide)) (Or.inl (mem_of_sub hs rfl))
    | with_reducible refine idle_only ?_  (sub_of rfl hs)
    | with_reducible refine mateEnd_only ?_  (sub_of rfl hs)
    | with_reducible refine State.feltDown_only ?_  (sub_of rfl hs)
    | with_reducible refine finish_only ?_ (sub_of rfl hs)
    | with_reducible refine idle_only ?_
    | split
    | (with_reducible refine Only.foldl _ (fun _ _ _ => ?_) _ _ ?_)
    | ((with_reducible apply upd_only); rotate_left; iterate 39 (first | exact Or.inr (by with_reducible rfl) | exact Or.inl (mem_of_sub hs rfl) | exact Or.inl (sub_of rfl hs) | exact Or.inr rfl | exact Or.inr ⟨rfl, rfl⟩ | exact Or.inr ⟨rfl, rfl, rfl⟩))


end Sys2Proof.Machine
end

