-- ==== Sys2Proof/Laws/OnlyReset.lean ====
section
/-! SUPPORT. What each operation of Machine/Reset.lean may change. -/

set_option linter.unusedTactic false
set_option linter.unreachableTactic false
set_option linter.unusedVariables false
set_option linter.unusedSimpArgs false

namespace Sys2Proof.Machine

variable {ps : List Area} {a s : State}

theorem State.keepRegs_only (h : Only ps a s) (x1) (hs : sub [.settings, .status, .shadow] ps = true) : Only ps a (State.keepRegs s x1) := by
  intro p hp
  have hn := not_mem_of_sub hs hp
  cases p
  case settings | status | shadow => exact absurd hn (by decide)
  case canon =>
    intro hc
    have hw := h .canon hp hc
    unfold State.canonical at *
    simp only [Bool.and_eq_true] at *
    exact ⟨twf_filter _ _ _ hw.1, hw.2⟩
  all_goals exact h _ hp

theorem State.clearLanes_only (h : Only ps a s) (x1 x2) (hs : sub [.lanes] ps = true) : Only ps a (State.clearLanes s x1 x2) := by
  unfold State.clearLanes
  try dsimp only
  repeat' first
    | with_reducible assumption
    | split
    | (with_reducible refine Only.foldl _ (fun _ _ _ => ?_) _ _ ?_)
    | ((with_reducible apply upd_only); rotate_left; iterate 39 (first | exact Or.inr (by with_reducible rfl) | exact Or.inl (mem_of_sub hs rfl) | exact Or.inl (sub_of rfl hs) | exact Or.inr rfl | exact Or.inr ⟨rfl, rfl⟩ | exact Or.inr ⟨rfl, rfl, rfl⟩))


theorem State.clearMill_only (h : Only ps a s) (x1) (hs : sub [.settings, .status, .shadow, .counts, .gather, .mem, .line, .dkl, .lci, .sac, .vat, .sch, .ports, .trib, .tribOld, .sc, .sa, .hbxRr, .cur, .lanes] ps = true) : Only ps a (State.clearMill s x1) := by
  unfold State.clearMill
  try dsimp only
  repeat' first
    | with_reducible assumption
    | ((with_reducible refine State.modPmc_only ?_ _ ?_ ?_); rotate_left; (first | exact Or.inl (mem_of_sub hs rfl) | exact Or.inr (fun _ => rfl)); (first | exact Or.inl (mem_of_sub hs rfl) | exact Or.inr (fun _ => rfl) | exact Or.inr (fun _ => ⟨rfl, rfl⟩) | exact Or.inr (fun _ => ⟨rfl, rfl, rfl⟩)))
    | with_reducible refine State.cancelMill_only ?_ _ (sub_of rfl hs)
    | with_reducible refine State.clearLanes_only ?_ _ _ (sub_of rfl hs)
    | with_reducible refine State.keepRegs_only ?_ _ (sub_of rfl hs)
    | split
    | (with_reducible refine Only.foldl _ (fun _ _ _ => ?_) _ _ ?_)
    | ((with_reducible apply upd_only); rotate_left; iterate 39 (first | exact Or.inr (by with_reducible rfl) | exact Or.inl (mem_of_sub hs rfl) | exact Or.inl (sub_of rfl hs) | exact Or.inr rfl | exact Or.inr ⟨rfl, rfl⟩ | exact Or.inr ⟨rfl, rfl, rfl⟩))


theorem State.clearMills_only (h : Only ps a s) (x1) (hs : sub [.settings, .status, .shadow, .counts, .gather, .mem, .line, .dkl, .lci, .sac, .vat, .sch, .ports, .trib, .tribOld, .sc, .sa, .hbxRr, .cur, .lanes] ps = true) : Only ps a (State.clearMills s x1) := by
  unfold State.clearMills
  try dsimp only
  repeat' first
    | with_reducible assumption
    | with_reducible refine State.clearMill_only ?_ _ (sub_of rfl hs)
    | split
    | (with_reducible refine Only.foldl _ (fun _ _ _ => ?_) _ _ ?_)
    | ((with_reducible apply upd_only); rotate_left; iterate 39 (first | exact Or.inr (by with_reducible rfl) | exact Or.inl (mem_of_sub hs rfl) | exact Or.inl (sub_of rfl hs) | exact Or.inr rfl | exact Or.inr ⟨rfl, rfl⟩ | exact Or.inr ⟨rfl, rfl, rfl⟩))


theorem State.clearIsland_only (h : Only ps a s) (hs : sub [.slots, .kst, .rng, .uci] ps = true) : Only ps a (State.clearIsland s) := by
  unfold State.clearIsland
  try dsimp only
  repeat' first
    | with_reducible assumption
    | split
    | (with_reducible refine Only.foldl _ (fun _ _ _ => ?_) _ _ ?_)
    | ((with_reducible apply upd_only); rotate_left; iterate 39 (first | exact Or.inr (by with_reducible rfl) | exact Or.inl (mem_of_sub hs rfl) | exact Or.inl (sub_of rfl hs) | exact Or.inr rfl | exact Or.inr ⟨rfl, rfl⟩ | exact Or.inr ⟨rfl, rfl, rfl⟩))


theorem State.clearMgmt_only (h : Only ps a s) (hs : sub [.host, .counts, .gather, .cur] ps = true) : Only ps a (State.clearMgmt s) := by
  unfold State.clearMgmt
  try dsimp only
  repeat' first
    | with_reducible assumption
    | split
    | (with_reducible refine Only.foldl _ (fun _ _ _ => ?_) _ _ ?_)
    | ((with_reducible apply upd_only); rotate_left; iterate 39 (first | exact Or.inr (by with_reducible rfl) | exact Or.inl (mem_of_sub hs rfl) | exact Or.inl (sub_of rfl hs) | exact Or.inr rfl | exact Or.inr ⟨rfl, rfl⟩ | exact Or.inr ⟨rfl, rfl, rfl⟩))


theorem State.clearTim_only (h : Only ps a s) (hs : sub [.pads, .tim] ps = true) : Only ps a (State.clearTim s) := by
  unfold State.clearTim
  try dsimp only
  repeat' first
    | with_reducible assumption
    | split
    | (with_reducible refine Only.foldl _ (fun _ _ _ => ?_) _ _ ?_)
    | ((with_reducible apply upd_only); rotate_left; iterate 39 (first | exact Or.inr (by with_reducible rfl) | exact Or.inl (mem_of_sub hs rfl) | exact Or.inl (sub_of rfl hs) | exact Or.inr rfl | exact Or.inr ⟨rfl, rfl⟩ | exact Or.inr ⟨rfl, rfl, rfl⟩))


theorem State.clearTbs_only (h : Only ps a s) (hs : sub [.timeBases] ps = true) : Only ps a (State.clearTbs s) := by
  unfold State.clearTbs
  try dsimp only
  repeat' first
    | with_reducible assumption
    | split
    | (with_reducible refine Only.foldl _ (fun _ _ _ => ?_) _ _ ?_)
    | ((with_reducible apply upd_only); rotate_left; iterate 39 (first | exact Or.inr (by with_reducible rfl) | exact Or.inl (mem_of_sub hs rfl) | exact Or.inl (sub_of rfl hs) | exact Or.inr rfl | exact Or.inr ⟨rfl, rfl⟩ | exact Or.inr ⟨rfl, rfl, rfl⟩))


theorem State.clearChan_only (h : Only ps a s) (x1) (hs : sub [.mem] ps = true) : Only ps a (State.clearChan s x1) := by
  unfold State.clearChan
  try dsimp only
  repeat' first
    | with_reducible assumption
    | with_reducible refine State.modMem_only ?_ _ (sub_of rfl hs)
    | split
    | (with_reducible refine Only.foldl _ (fun _ _ _ => ?_) _ _ ?_)
    | ((with_reducible apply upd_only); rotate_left; iterate 39 (first | exact Or.inr (by with_reducible rfl) | exact Or.inl (mem_of_sub hs rfl) | exact Or.inl (sub_of rfl hs) | exact Or.inr rfl | exact Or.inr ⟨rfl, rfl⟩ | exact Or.inr ⟨rfl, rfl, rfl⟩))


theorem State.clearRegions_only (h : Only ps a s) (hs : sub [.mem] ps = true) : Only ps a (State.clearRegions s) := by
  unfold State.clearRegions
  try dsimp only
  repeat' first
    | with_reducible assumption
    | with_reducible refine State.modMem_only ?_ _ (sub_of rfl hs)
    | split
    | (with_reducible refine Only.foldl _ (fun _ _ _ => ?_) _ _ ?_)
    | ((with_reducible apply upd_only); rotate_left; iterate 39 (first | exact Or.inr (by with_reducible rfl) | exact Or.inl (mem_of_sub hs rfl) | exact Or.inl (sub_of rfl hs) | exact Or.inr rfl | exact Or.inr ⟨rfl, rfl⟩ | exact Or.inr ⟨rfl, rfl, rfl⟩))


theorem State.clearFelt_only (h : Only ps a s) (hs : sub [.pads, .lanes, .felt, .role, .mte] ps = true) : Only ps a (State.clearFelt s) := by
  unfold State.clearFelt
  try dsimp only
  repeat' first
    | with_reducible assumption
    | with_reducible refine State.clearLanes_only ?_ _ _ (sub_of rfl hs)
    | split
    | (with_reducible refine Only.foldl _ (fun _ _ _ => ?_) _ _ ?_)
    | ((with_reducible apply upd_only); rotate_left; iterate 39 (first | exact Or.inr (by with_reducible rfl) | exact Or.inl (mem_of_sub hs rfl) | exact Or.inl (sub_of rfl hs) | exact Or.inr rfl | exact Or.inr ⟨rfl, rfl⟩ | exact Or.inr ⟨rfl, rfl, rfl⟩))


theorem State.clearWarm_only (h : Only ps a s) (hs : sub [.settings, .status, .shadow, .host, .pads, .counts, .gather, .tim, .slots, .kst, .rng, .uci, .mem, .line, .dkl, .lci, .sac, .vat, .sch, .ports, .trib, .tribOld, .sc, .sa, .hbxRr, .cur, .lanes, .felt, .role, .mte] ps = true) : Only ps a (State.clearWarm s) := by
  unfold State.clearWarm
  try dsimp only
  repeat' first
    | with_reducible assumption
    | with_reducible refine State.clearMills_only ?_ _ (sub_of rfl hs)
    | with_reducible refine State.clearMgmt_only ?_  (sub_of rfl hs)
    | with_reducible refine State.clearLanes_only ?_ _ _ (sub_of rfl hs)
    | with_reducible refine State.clearChan_only ?_ _ (sub_of rfl hs)
    | with_reducible refine State.keepRegs_only ?_ _ (sub_of rfl hs)
    | with_reducible refine State.clearFelt_only ?_  (sub_of rfl hs)
    | with_reducible refine State.clearRegions_only ?_  (sub_of rfl hs)
    | with_reducible refine State.clearIsland_only ?_  (sub_of rfl hs)
    | with_reducible refine State.clearTim_only ?_  (sub_of rfl hs)
    | split
    | (with_reducible refine Only.foldl _ (fun _ _ _ => ?_) _ _ ?_)
    | ((with_reducible apply upd_only); rotate_left; iterate 39 (first | exact Or.inr (by with_reducible rfl) | exact Or.inl (mem_of_sub hs rfl) | exact Or.inl (sub_of rfl hs) | exact Or.inr rfl | exact Or.inr ⟨rfl, rfl⟩ | exact Or.inr ⟨rfl, rfl, rfl⟩))


theorem State.clearCold_only (h : Only ps a s) (hs : sub [.settings, .status, .shadow, .resetCtl, .irq, .host, .pads, .counts, .gather, .evrQueue, .records, .timeBases, .tim, .slots, .kst, .rng, .uci, .mem, .tmp, .line, .dkl, .lci, .sac, .vat, .sch, .ports, .trib, .tribOld, .sc, .sa, .hbxRr, .cur, .lanes, .felt, .role, .mte] ps = true) : Only ps a (State.clearCold s) := by
  unfold State.clearCold
  try dsimp only
  repeat' first
    | with_reducible assumption
    | with_reducible refine State.clearWarm_only ?_  (sub_of rfl hs)
    | with_reducible refine State.clearTbs_only ?_  (sub_of rfl hs)
    | with_reducible refine State.keepRegs_only ?_ _ (sub_of rfl hs)
    | split
    | (with_reducible refine Only.foldl _ (fun _ _ _ => ?_) _ _ ?_)
    | ((with_reducible apply upd_only); rotate_left; iterate 39 (first | exact Or.inr (by with_reducible rfl) | exact Or.inl (mem_of_sub hs rfl) | exact Or.inl (sub_of rfl hs) | exact Or.inr rfl | exact Or.inr ⟨rfl, rfl⟩ | exact Or.inr ⟨rfl, rfl, rfl⟩))


theorem State.hold_only (h : Only ps a s) (x1) (hs : sub [.domains] ps = true) : Only ps a (State.hold s x1) := by
  unfold State.hold
  try dsimp only
  repeat' first
    | with_reducible assumption
    | ((with_reducible refine State.modRst_only ?_ _ ?_ ?_); rotate_left; (first | exact Or.inl (mem_of_sub hs rfl) | exact Or.inr (fun _ => rfl)); (first | exact Or.inl (mem_of_sub hs rfl) | exact Or.inr (fun _ => rfl) | exact Or.inr (fun _ => ⟨rfl, rfl⟩) | exact Or.inr (fun _ => ⟨rfl, rfl, rfl⟩)))
    | split
    | (with_reducible refine Only.foldl _ (fun _ _ _ => ?_) _ _ ?_)
    | ((with_reducible apply upd_only); rotate_left; iterate 39 (first | exact Or.inr (by with_reducible rfl) | exact Or.inl (mem_of_sub hs rfl) | exact Or.inl (sub_of rfl hs) | exact Or.inr rfl | exact Or.inr ⟨rfl, rfl⟩ | exact Or.inr ⟨rfl, rfl, rfl⟩))


theorem State.cause_only (h : Only ps a s) (x1) (hs : sub [.status] ps = true) : Only ps a (State.cause s x1) := by
  unfold State.cause
  try dsimp only
  repeat' first
    | with_reducible assumption
    | with_reducible refine State.setBit_only ?_ _ _ _ (Or.inr (by first | rfl | (simp; done) | decide)) (Or.inl (mem_of_sub hs rfl))
    | split
    | (with_reducible refine Only.foldl _ (fun _ _ _ => ?_) _ _ ?_)
    | ((with_reducible apply upd_only); rotate_left; iterate 39 (first | exact Or.inr (by with_reducible rfl) | exact Or.inl (mem_of_sub hs rfl) | exact Or.inl (sub_of rfl hs) | exact Or.inr rfl | exact Or.inr ⟨rfl, rfl⟩ | exact Or.inr ⟨rfl, rfl, rfl⟩))


theorem State.pulseEnds_only (h : Only ps a s) (hs : sub [.status, .otp, .mtp] ps = true) : Only ps a (State.pulseEnds s) := by
  unfold State.pulseEnds
  try dsimp only
  repeat' first
    | with_reducible assumption
    | with_reducible refine State.mtpWrite_only ?_ _ _ (sub_of rfl hs)
    | with_reducible refine State.evidenceUp_only ?_  (sub_of rfl hs)
    | with_reducible refine State.cause_only ?_ _ (sub_of rfl hs)
    | split
    | (with_reducible refine Only.foldl _ (fun _ _ _ => ?_) _ _ ?_)
    | ((with_reducible apply upd_only); rotate_left; iterate 39 (first | exact Or.inr (by with_reducible rfl) | exact Or.inl (mem_of_sub hs rfl) | exact Or.inl (sub_of rfl hs) | exact Or.inr rfl | exact Or.inr ⟨rfl, rfl⟩ | exact Or.inr ⟨rfl, rfl, rfl⟩))


theorem State.coldReset_only (h : Only ps a s) (hs : sub [.settings, .status, .shadow, .domains, .resetCtl, .irq, .host, .pads, .counts, .gather, .evrQueue, .records, .timeBases, .tim, .otp, .mtp, .slots, .kst, .rng, .uci, .mem, .tmp, .line, .dkl, .lci, .sac, .vat, .sch, .ports, .trib, .tribOld, .sc, .sa, .hbxRr, .cur, .lanes, .felt, .role, .mte] ps = true) : Only ps a (State.coldReset s) := by
  unfold State.coldReset
  try dsimp only
  repeat' first
    | with_reducible assumption
    | with_reducible refine State.hold_only ?_ _ (sub_of rfl hs)
    | with_reducible refine State.clearCold_only ?_  (sub_of rfl hs)
    | with_reducible refine State.pulseEnds_only ?_  (sub_of rfl hs)
    | split
    | (with_reducible refine Only.foldl _ (fun _ _ _ => ?_) _ _ ?_)
    | ((with_reducible apply upd_only); rotate_left; iterate 39 (first | exact Or.inr (by with_reducible rfl) | exact Or.inl (mem_of_sub hs rfl) | exact Or.inl (sub_of rfl hs) | exact Or.inr rfl | exact Or.inr ⟨rfl, rfl⟩ | exact Or.inr ⟨rfl, rfl, rfl⟩))


theorem State.warmReset_only (h : Only ps a s) (hs : sub [.settings, .status, .shadow, .domains, .host, .pads, .counts, .gather, .tim, .mtp, .slots, .kst, .rng, .uci, .mem, .line, .dkl, .lci, .sac, .vat, .sch, .ports, .trib, .tribOld, .sc, .sa, .hbxRr, .cur, .lanes, .felt, .role, .mte] ps = true) : Only ps a (State.warmReset s) := by
  unfold State.warmReset
  try dsimp only
  repeat' first
    | with_reducible assumption
    | with_reducible refine State.mtpWrite_only ?_ _ _ (sub_of rfl hs)
    | with_reducible refine State.cause_only ?_ _ (sub_of rfl hs)
    | with_reducible refine State.clearWarm_only ?_  (sub_of rfl hs)
    | with_reducible refine State.hold_only ?_ _ (sub_of rfl hs)
    | split
    | (with_reducible refine Only.foldl _ (fun _ _ _ => ?_) _ _ ?_)
    | ((with_reducible apply upd_only); rotate_left; iterate 39 (first | exact Or.inr (by with_reducible rfl) | exact Or.inl (mem_of_sub hs rfl) | exact Or.inl (sub_of rfl hs) | exact Or.inr rfl | exact Or.inr ⟨rfl, rfl⟩ | exact Or.inr ⟨rfl, rfl, rfl⟩))


theorem State.discardFor_only (h : Only ps a s) (x1 x2) (hs : sub [.out, .counts, .sch, .ports, .trib] ps = true) : Only ps a (State.discardFor s x1 x2) := by
  unfold State.discardFor
  try dsimp only
  repeat' first
    | with_reducible assumption
    | with_reducible refine State.countMill_only ?_ _ _ _ _ _ (sub_of rfl hs)
    | with_reducible refine State.modSch_only ?_ _ _ (sub_of rfl hs)
    | with_reducible refine State.dropRx_only ?_ _ _ (sub_of rfl hs)
    | with_reducible refine State.refuseTx_only ?_ _ _ _ (sub_of rfl hs)
    | split
    | (with_reducible refine Only.foldl _ (fun _ _ _ => ?_) _ _ ?_)
    | ((with_reducible apply upd_only); rotate_left; iterate 39 (first | exact Or.inr (by with_reducible rfl) | exact Or.inl (mem_of_sub hs rfl) | exact Or.inl (sub_of rfl hs) | exact Or.inr rfl | exact Or.inr ⟨rfl, rfl⟩ | exact Or.inr ⟨rfl, rfl, rfl⟩))


theorem State.resetMill_only (h : Only ps a s) (x1) (hs : sub [.out, .settings, .status, .shadow, .domains, .counts, .gather, .mem, .line, .dkl, .lci, .sac, .vat, .sch, .ports, .trib, .tribOld, .sc, .sa, .hbxRr, .cur, .lanes] ps = true) : Only ps a (State.resetMill s x1) := by
  unfold State.resetMill
  try dsimp only
  repeat' first
    | with_reducible assumption
    | with_reducible refine State.discardFor_only ?_ _ _ (sub_of rfl hs)
    | with_reducible refine State.clearMill_only ?_ _ (sub_of rfl hs)
    | with_reducible refine State.hold_only ?_ _ (sub_of rfl hs)
    | with_reducible refine State.cause_only ?_ _ (sub_of rfl hs)
    | split
    | (with_reducible refine Only.foldl _ (fun _ _ _ => ?_) _ _ ?_)
    | ((with_reducible apply upd_only); rotate_left; iterate 39 (first | exact Or.inr (by with_reducible rfl) | exact Or.inl (mem_of_sub hs rfl) | exact Or.inl (sub_of rfl hs) | exact Or.inr rfl | exact Or.inr ⟨rfl, rfl⟩ | exact Or.inr ⟨rfl, rfl, rfl⟩))


theorem State.rstCtl_only (h : Only ps a s) (x1) (hs : sub [.out, .settings, .status, .shadow, .domains, .resetCtl, .irq, .host, .pads, .counts, .gather, .evrQueue, .records, .timeBases, .tim, .otp, .mtp, .slots, .kst, .rng, .uci, .mem, .tmp, .line, .dkl, .lci, .sac, .vat, .sch, .ports, .trib, .tribOld, .sc, .sa, .hbxRr, .cur, .lanes, .felt, .role, .mte] ps = true) : Only ps a (State.rstCtl s x1) := by
  unfold State.rstCtl
  try dsimp only
  repeat' first
    | with_reducible assumption
    | with_reducible refine State.resetMill_only ?_ _ (sub_of rfl hs)
    | with_reducible refine State.cause_only ?_ _ (sub_of rfl hs)
    | with_reducible refine State.coldReset_only ?_  (sub_of rfl hs)
    | with_reducible refine State.warmReset_only ?_  (sub_of rfl hs)
    | split
    | (with_reducible refine Only.foldl _ (fun _ _ _ => ?_) _ _ ?_)
    | ((with_reducible apply upd_only); rotate_left; iterate 39 (first | exact Or.inr (by with_reducible rfl) | exact Or.inl (mem_of_sub hs rfl) | exact Or.inl (sub_of rfl hs) | exact Or.inr rfl | exact Or.inr ⟨rfl, rfl⟩ | exact Or.inr ⟨rfl, rfl, rfl⟩))


theorem State.rstCtlWrite_only (h : Only ps a s) (x1 x2) (hs : sub [.out, .settings, .status, .shadow, .domains, .resetCtl, .irq, .host, .pads, .counts, .gather, .evrQueue, .records, .timeBases, .tim, .otp, .mtp, .slots, .kst, .rng, .uci, .mem, .tmp, .line, .dkl, .lci, .sac, .vat, .sch, .ports, .trib, .tribOld, .sc, .sa, .hbxRr, .cur, .lanes, .felt, .role, .mte] ps = true) : Only ps a (State.rstCtlWrite s x1 x2) := by
  unfold State.rstCtlWrite
  try dsimp only
  repeat' first
    | with_reducible assumption
    | with_reducible refine State.lockedWrite_only ?_ _ _ _ (sub_of rfl hs)
    | with_reducible refine State.rstCtl_only ?_ _ (sub_of rfl hs)
    | split
    | (with_reducible refine Only.foldl _ (fun _ _ _ => ?_) _ _ ?_)
    | ((with_reducible apply upd_only); rotate_left; iterate 39 (first | exact Or.inr (by with_reducible rfl) | exact Or.inl (mem_of_sub hs rfl) | exact Or.inl (sub_of rfl hs) | exact Or.inr rfl | exact Or.inr ⟨rfl, rfl⟩ | exact Or.inr ⟨rfl, rfl, rfl⟩))


theorem State.rstCfgWrite_only (h : Only ps a s) (x1) (hs : sub [.out, .settings, .status, .shadow, .domains, .counts, .gather, .mem, .line, .dkl, .lci, .sac, .vat, .sch, .ports, .trib, .tribOld, .sc, .sa, .hbxRr, .cur, .lanes] ps = true) : Only ps a (State.rstCfgWrite s x1) := by
  unfold State.rstCfgWrite
  try dsimp only
  repeat' first
    | with_reducible assumption
    | with_reducible refine State.setReg_only ?_ _ _ (Or.inr (by first | rfl | (simp; done) | decide)) (Or.inl (mem_of_sub hs rfl))
    | with_reducible refine State.setReg_only ?_ _ _ (Or.inl (mem_of_sub hs rfl)) (Or.inr (by first | rfl | (simp; done) | decide))
    | with_reducible refine State.setReg_only ?_ _ _ (Or.inl (mem_of_sub hs rfl)) (Or.inl (mem_of_sub hs rfl))
    | with_reducible refine State.cause_only ?_ _ (sub_of rfl hs)
    | with_reducible refine State.resetMill_only ?_ _ (sub_of rfl hs)
    | split
    | (with_reducible refine Only.foldl _ (fun _ _ _ => ?_) _ _ ?_)
    | ((with_reducible apply upd_only); rotate_left; iterate 39 (first | exact Or.inr (by with_reducible rfl) | exact Or.inl (mem_of_sub hs rfl) | exact Or.inl (sub_of rfl hs) | exact Or.inr rfl | exact Or.inr ⟨rfl, rfl⟩ | exact Or.inr ⟨rfl, rfl, rfl⟩))


theorem execSwColdReset_only (h : Only ps a s) (x0 x1) (hs : sub [.out, .settings, .status, .shadow, .domains, .resetCtl, .irq, .host, .pads, .counts, .gather, .evrQueue, .records, .timeBases, .tim, .otp, .mtp, .slots, .kst, .rng, .uci, .mem, .tmp, .line, .dkl, .lci, .sac, .vat, .sch, .ports, .trib, .tribOld, .sc, .sa, .hbxRr, .cur, .lanes, .felt, .role, .mte] ps = true) : OnlyR ps a (execSwColdReset x0 x1 s) := by
  unfold execSwColdReset
  try dsimp only
  repeat' first
    | with_reducible assumption
    | with_reducible refine idle_only ?_  (sub_of rfl hs)
    | with_reducible refine finish_only ?_  (sub_of rfl hs)
    | with_reducible refine State.rstCtlWrite_only ?_ _ _ (sub_of rfl hs)
    | with_reducible refine finish_only ?_ (sub_of rfl hs)
    | with_reducible refine idle_only ?_
    | split
    | (with_reducible refine Only.foldl _ (fun _ _ _ => ?_) _ _ ?_)
    | ((with_reducible apply upd_only); rotate_left; iterate 39 (first | exact Or.inr (by with_reducible rfl) | exact Or.inl (mem_of_sub hs rfl) | exact Or.inl (sub_of rfl hs) | exact Or.inr rfl | exact Or.inr ⟨rfl, rfl⟩ | exact Or.inr ⟨rfl, rfl, rfl⟩))


theorem execSwWarmReset_only (h : Only ps a s) (x0 x1) (hs : sub [.out, .settings, .status, .shadow, .domains, .resetCtl, .irq, .host, .pads, .counts, .gather, .evrQueue, .records, .timeBases, .tim, .otp, .mtp, .slots, .kst, .rng, .uci, .mem, .tmp, .line, .dkl, .lci, .sac, .vat, .sch, .ports, .trib, .tribOld, .sc, .sa, .hbxRr, .cur, .lanes, .felt, .role, .mte] ps = true) : OnlyR ps a (execSwWarmReset x0 x1 s) := by
  unfold execSwWarmReset
  try dsimp only
  repeat' first
    | with_reducible assumption
    | with_reducible refine idle_only ?_  (sub_of rfl hs)
    | with_reducible refine finish_only ?_  (sub_of rfl hs)
    | with_reducible refine State.rstCtlWrite_only ?_ _ _ (sub_of rfl hs)
    | with_reducible refine finish_only ?_ (sub_of rfl hs)
    | with_reducible refine idle_only ?_
    | split
    | (with_reducible refine Only.foldl _ (fun _ _ _ => ?_) _ _ ?_)
    | ((with_reducible apply upd_only); rotate_left; iterate 39 (first | exact Or.inr (by with_reducible rfl) | exact Or.inl (mem_of_sub hs rfl) | exact Or.inl (sub_of rfl hs) | exact Or.inr rfl | exact Or.inr ⟨rfl, rfl⟩ | exact Or.inr ⟨rfl, rfl, rfl⟩))


theorem execMillReset_only (h : Only ps a s) (x0 x1 x2 x3) (hs : sub [.out, .settings, .status, .shadow, .domains, .resetCtl, .irq, .host, .pads, .counts, .gather, .evrQueue, .records, .timeBases, .tim, .otp, .mtp, .slots, .kst, .rng, .uci, .mem, .tmp, .line, .dkl, .lci, .sac, .vat, .sch, .ports, .trib, .tribOld, .sc, .sa, .hbxRr, .cur, .lanes, .felt, .role, .mte] ps = true) : OnlyR ps a (execMillReset x0 x1 x2 x3 s) := by
  unfold execMillReset
  try dsimp only
  repeat' first
    | with_reducible assumption
    | with_reducible refine State.lockedWrite_only ?_ _ _ _ (sub_of rfl hs)
    | with_reducible refine idle_only ?_  (sub_of rfl hs)
    | with_reducible refine finish_only ?_  (sub_of rfl hs)
    | with_reducible refine State.rstCtlWrite_only ?_ _ _ (sub_of rfl hs)
    | with_reducible refine State.rstCfgWrite_only ?_ _ (sub_of rfl hs)
    | with_reducible refine finish_only ?_ (sub_of rfl hs)
    | with_reducible refine idle_only ?_
    | split
    | (with_reducible refine Only.foldl _ (fun _ _ _ => ?_) _ _ ?_)
    | ((with_reducible apply upd_only); rotate_left; iterate 39 (first | exact Or.inr (by with_reducible rfl) | exact Or.inl (mem_of_sub hs rfl) | exact Or.inl (sub_of rfl hs) | exact Or.inr rfl | exact Or.inr ⟨rfl, rfl⟩ | exact Or.inr ⟨rfl, rfl, rfl⟩))


theorem State.powerOn_only (h : Only ps a s) (x1) (hs : sub [.settings, .status, .shadow, .domains, .resetCtl, .irq, .host, .pads, .counts, .gather, .evrQueue, .records, .timeBases, .tim, .slots, .kst, .rng, .uci, .mem, .tmp, .bkp, .line, .dkl, .lci, .sac, .vat, .sch, .ports, .trib, .tribOld, .sc, .sa, .hbxRr, .cur, .lanes, .felt, .role, .mte] ps = true) : Only ps a (State.powerOn s x1) := by
  intro p hp
  have hn := not_mem_of_sub hs hp
  cases p
  case canon =>
    intro hc
    have hw := h .canon hp hc
    unfold State.canonical at *
    simp only [Bool.and_eq_true] at *
    exact ⟨rfl, hw.2⟩
  all_goals first | exact h _ hp | exact absurd hn (by decide)

theorem execPowerOnReset_only (h : Only ps a s) (x0) (hs : sub [.out, .settings, .status, .shadow, .domains, .resetCtl, .irq, .host, .pads, .counts, .gather, .evrQueue, .records, .timeBases, .tim, .slots, .kst, .rng, .uci, .mem, .tmp, .bkp, .line, .dkl, .lci, .sac, .vat, .sch, .ports, .trib, .tribOld, .sc, .sa, .hbxRr, .cur, .lanes, .felt, .role, .mte] ps = true) : OnlyR ps a (execPowerOnReset x0 s) := by
  unfold execPowerOnReset
  try dsimp only
  repeat' first
    | with_reducible assumption
    | with_reducible refine idle_only ?_  (sub_of rfl hs)
    | with_reducible refine finish_only ?_  (sub_of rfl hs)
    | with_reducible refine State.powerOn_only ?_ _ (sub_of rfl hs)
    | with_reducible refine finish_only ?_ (sub_of rfl hs)
    | with_reducible refine idle_only ?_
    | split
    | (with_reducible refine Only.foldl _ (fun _ _ _ => ?_) _ _ ?_)
    | ((with_reducible apply upd_only); rotate_left; iterate 39 (first | exact Or.inr (by with_reducible rfl) | exact Or.inl (mem_of_sub hs rfl) | exact Or.inl (sub_of rfl hs) | exact Or.inr rfl | exact Or.inr ⟨rfl, rfl⟩ | exact Or.inr ⟨rfl, rfl, rfl⟩))


theorem execResetPin_only (h : Only ps a s) (hs : sub [.out, .settings, .status, .shadow, .domains, .resetCtl, .irq, .host, .pads, .counts, .gather, .evrQueue, .records, .timeBases, .tim, .otp, .mtp, .slots, .kst, .rng, .uci, .mem, .tmp, .line, .dkl, .lci, .sac, .vat, .sch, .ports, .trib, .tribOld, .sc, .sa, .hbxRr, .cur, .lanes, .felt, .role, .mte] ps = true) : OnlyR ps a (execResetPin s) := by
  unfold execResetPin
  try dsimp only
  repeat' first
    | with_reducible assumption
    | with_reducible refine idle_only ?_  (sub_of rfl hs)
    | ((with_reducible refine State.modRst_only ?_ _ ?_ ?_); rotate_left; (first | exact Or.inl (mem_of_sub hs rfl) | exact Or.inr (fun _ => rfl)); (first | exact Or.inl (mem_of_sub hs rfl) | exact Or.inr (fun _ => rfl) | exact Or.inr (fun _ => ⟨rfl, rfl⟩) | exact Or.inr (fun _ => ⟨rfl, rfl, rfl⟩)))
    | with_reducible refine finish_only ?_  (sub_of rfl hs)
    | with_reducible refine State.cause_only ?_ _ (sub_of rfl hs)
    | with_reducible refine State.coldReset_only ?_  (sub_of rfl hs)
    | with_reducible refine finish_only ?_ (sub_of rfl hs)
    | with_reducible refine idle_only ?_
    | split
    | (with_reducible refine Only.foldl _ (fun _ _ _ => ?_) _ _ ?_)
    | ((with_reducible apply upd_only); rotate_left; iterate 39 (first | exact Or.inr (by with_reducible rfl) | exact Or.inl (mem_of_sub hs rfl) | exact Or.inl (sub_of rfl hs) | exact Or.inr rfl | exact Or.inr ⟨rfl, rfl⟩ | exact Or.inr ⟨rfl, rfl, rfl⟩))


theorem State.clearPcie_only (h : Only ps a s) (hs : sub [.irq, .host] ps = true) : Only ps a (State.clearPcie s) := by
  unfold State.clearPcie
  try dsimp only
  repeat' first
    | with_reducible assumption
    | ((with_reducible refine State.modHst_only ?_ _ ?_ ?_); rotate_left; (first | exact Or.inl (mem_of_sub hs rfl) | exact Or.inr (fun _ => rfl)); (first | exact Or.inl (mem_of_sub hs rfl) | exact Or.inr (fun _ => rfl) | exact Or.inr (fun _ => ⟨rfl, rfl⟩) | exact Or.inr (fun _ => ⟨rfl, rfl, rfl⟩)))
    | split
    | (with_reducible refine Only.foldl _ (fun _ _ _ => ?_) _ _ ?_)
    | ((with_reducible apply upd_only); rotate_left; iterate 39 (first | exact Or.inr (by with_reducible rfl) | exact Or.inl (mem_of_sub hs rfl) | exact Or.inl (sub_of rfl hs) | exact Or.inr rfl | exact Or.inr ⟨rfl, rfl⟩ | exact Or.inr ⟨rfl, rfl, rfl⟩))


theorem execPerst_only (h : Only ps a s) (hs : sub [.out, .settings, .status, .shadow, .domains, .resetCtl, .irq, .host, .pads, .counts, .gather, .evrQueue, .records, .timeBases, .tim, .otp, .mtp, .slots, .kst, .rng, .uci, .mem, .tmp, .line, .dkl, .lci, .sac, .vat, .sch, .ports, .trib, .tribOld, .sc, .sa, .hbxRr, .cur, .lanes, .felt, .role, .mte] ps = true) : OnlyR ps a (execPerst s) := by
  unfold execPerst
  try dsimp only
  repeat' first
    | with_reducible assumption
    | ((with_reducible refine State.modRst_only ?_ _ ?_ ?_); rotate_left; (first | exact Or.inl (mem_of_sub hs rfl) | exact Or.inr (fun _ => rfl)); (first | exact Or.inl (mem_of_sub hs rfl) | exact Or.inr (fun _ => rfl) | exact Or.inr (fun _ => ⟨rfl, rfl⟩) | exact Or.inr (fun _ => ⟨rfl, rfl, rfl⟩)))
    | with_reducible refine idle_only ?_  (sub_of rfl hs)
    | with_reducible refine finish_only ?_  (sub_of rfl hs)
    | with_reducible refine State.clearPcie_only ?_  (sub_of rfl hs)
    | with_reducible refine State.hold_only ?_ _ (sub_of rfl hs)
    | with_reducible refine State.cause_only ?_ _ (sub_of rfl hs)
    | with_reducible refine State.coldReset_only ?_  (sub_of rfl hs)
    | with_reducible refine finish_only ?_ (sub_of rfl hs)
    | with_reducible refine idle_only ?_
    | split
    | (with_reducible refine Only.foldl _ (fun _ _ _ => ?_) _ _ ?_)
    | ((with_reducible apply upd_only); rotate_left; iterate 39 (first | exact Or.inr (by with_reducible rfl) | exact Or.inl (mem_of_sub hs rfl) | exact Or.inl (sub_of rfl hs) | exact Or.inr rfl | exact Or.inr ⟨rfl, rfl⟩ | exact Or.inr ⟨rfl, rfl, rfl⟩))


theorem execRailDrop_only (h : Only ps a s) (hs : sub [.out, .status, .irq, .host, .pads, .counts, .evrQueue, .role, .mte] ps = true) : OnlyR ps a (execRailDrop s) := by
  unfold execRailDrop
  try dsimp only
  repeat' first
    | with_reducible assumption
    | with_reducible refine State.setBit_only ?_ _ _ _ (Or.inr (by first | rfl | (simp; done) | decide)) (Or.inl (mem_of_sub hs rfl))
    | with_reducible refine idle_only ?_  (sub_of rfl hs)
    | with_reducible refine State.interlock_only ?_  (sub_of rfl hs)
    | with_reducible refine State.mateRelease_only ?_ _ (sub_of rfl hs)
    | with_reducible refine mateEnd_only ?_  (sub_of rfl hs)
    | with_reducible refine State.claimFailed_only ?_  (sub_of rfl hs)
    | with_reducible refine finish_only ?_ (sub_of rfl hs)
    | with_reducible refine idle_only ?_
    | split
    | (with_reducible refine Only.foldl _ (fun _ _ _ => ?_) _ _ ?_)
    | ((with_reducible apply upd_only); rotate_left; iterate 39 (first | exact Or.inr (by with_reducible rfl) | exact Or.inl (mem_of_sub hs rfl) | exact Or.inl (sub_of rfl hs) | exact Or.inr rfl | exact Or.inr ⟨rfl, rfl⟩ | exact Or.inr ⟨rfl, rfl, rfl⟩))


theorem execHoldEngage_only (h : Only ps a s) (hs : sub [.out, .settings, .status, .shadow, .domains, .irq, .host, .pads, .counts, .gather, .evrQueue, .timeBases, .tim, .mem, .tmp, .line, .dkl, .lci, .sac, .vat, .sch, .ports, .trib, .tribOld, .sc, .sa, .hbxRr, .cur, .lanes, .felt, .role, .mte] ps = true) : OnlyR ps a (execHoldEngage s) := by
  unfold execHoldEngage
  try dsimp only
  repeat' first
    | with_reducible assumption
    | with_reducible refine State.modTmp_only ?_ _ (sub_of rfl hs)
    | with_reducible refine idle_only ?_  (sub_of rfl hs)
    | with_reducible refine finish_only ?_  (sub_of rfl hs)
    | with_reducible refine State.clearMills_only ?_ _ (sub_of rfl hs)
    | with_reducible refine State.clearMgmt_only ?_  (sub_of rfl hs)
    | with_reducible refine State.hold_only ?_ _ (sub_of rfl hs)
    | with_reducible refine State.cause_only ?_ _ (sub_of rfl hs)
    | with_reducible refine State.clearChan_only ?_ _ (sub_of rfl hs)
    | with_reducible refine State.clearTbs_only ?_  (sub_of rfl hs)
    | with_reducible refine State.keepRegs_only ?_ _ (sub_of rfl hs)
    | with_reducible refine State.clearFelt_only ?_  (sub_of rfl hs)
    | with_reducible refine State.clearRegions_only ?_  (sub_of rfl hs)
    | with_reducible refine State.clearTim_only ?_  (sub_of rfl hs)
    | with_reducible refine finish_only ?_ (sub_of rfl hs)
    | with_reducible refine idle_only ?_
    | split
    | (with_reducible refine Only.foldl _ (fun _ _ _ => ?_) _ _ ?_)
    | ((with_reducible apply upd_only); rotate_left; iterate 39 (first | exact Or.inr (by with_reducible rfl) | exact Or.inl (mem_of_sub hs rfl) | exact Or.inl (sub_of rfl hs) | exact Or.inr rfl | exact Or.inr ⟨rfl, rfl⟩ | exact Or.inr ⟨rfl, rfl, rfl⟩))


theorem execLcFuseProgrammed_only (h : Only ps a s) (hs : sub [.out, .settings, .status, .shadow, .domains, .resetCtl, .irq, .host, .pads, .counts, .gather, .evrQueue, .records, .timeBases, .tim, .otp, .mtp, .slots, .kst, .rng, .uci, .mem, .tmp, .line, .dkl, .lci, .sac, .vat, .sch, .ports, .trib, .tribOld, .sc, .sa, .hbxRr, .cur, .lanes, .felt, .role, .mte] ps = true) : OnlyR ps a (execLcFuseProgrammed s) := by
  unfold execLcFuseProgrammed
  try dsimp only
  repeat' first
    | with_reducible assumption
    | with_reducible refine idle_only ?_  (sub_of rfl hs)
    | ((with_reducible refine State.modOtp_only ?_ _ ?_ (sub_of rfl hs)); rotate_left; (first | with_reducible exact Otp.keeps_evidence _ | with_reducible exact Otp.keeps_disable _ _ | with_reducible exact Otp.keeps_lc _ _))
    | with_reducible refine finish_only ?_  (sub_of rfl hs)
    | with_reducible refine State.cause_only ?_ _ (sub_of rfl hs)
    | with_reducible refine State.coldReset_only ?_  (sub_of rfl hs)
    | with_reducible refine finish_only ?_ (sub_of rfl hs)
    | with_reducible refine idle_only ?_
    | split
    | (with_reducible refine Only.foldl _ (fun _ _ _ => ?_) _ _ ?_)
    | ((with_reducible apply upd_only); rotate_left; iterate 39 (first | exact Or.inr (by with_reducible rfl) | exact Or.inl (mem_of_sub hs rfl) | exact Or.inl (sub_of rfl hs) | exact Or.inr rfl | exact Or.inr ⟨rfl, rfl⟩ | exact Or.inr ⟨rfl, rfl, rfl⟩))


theorem State.flrRing_only (h : Only ps a s) (x1) (hs : sub [.cur] ps = true) : Only ps a (State.flrRing s x1) := by
  unfold State.flrRing
  try dsimp only
  repeat' first
    | with_reducible assumption
    | with_reducible refine State.modRing_only ?_ _ _ (sub_of rfl hs)
    | split
    | (with_reducible refine Only.foldl _ (fun _ _ _ => ?_) _ _ ?_)
    | ((with_reducible apply upd_only); rotate_left; iterate 39 (first | exact Or.inr (by with_reducible rfl) | exact Or.inl (mem_of_sub hs rfl) | exact Or.inl (sub_of rfl hs) | exact Or.inr rfl | exact Or.inr ⟨rfl, rfl⟩ | exact Or.inr ⟨rfl, rfl, rfl⟩))


theorem execFunctionLevelReset_only (h : Only ps a s) (x0) (hs : sub [.out, .settings, .status, .shadow, .irq, .host, .counts, .evrQueue, .rng, .uci, .cur] ps = true) : OnlyR ps a (execFunctionLevelReset x0 s) := by
  unfold execFunctionLevelReset
  try dsimp only
  repeat' first
    | with_reducible assumption
    | with_reducible refine State.setFld_only ?_ _ _ _ _ (Or.inr (by first | rfl | (simp; done) | decide)) (Or.inl (mem_of_sub hs rfl))
    | with_reducible refine State.setFld_only ?_ _ _ _ _ (Or.inl (mem_of_sub hs rfl)) (Or.inr (by first | rfl | (simp; done) | decide))
    | with_reducible refine State.setFld_only ?_ _ _ _ _ (Or.inl (mem_of_sub hs rfl)) (Or.inl (mem_of_sub hs rfl))
    | ((with_reducible refine State.modHst_only ?_ _ ?_ ?_); rotate_left; (first | exact Or.inl (mem_of_sub hs rfl) | exact Or.inr (fun _ => rfl)); (first | exact Or.inl (mem_of_sub hs rfl) | exact Or.inr (fun _ => rfl) | exact Or.inr (fun _ => ⟨rfl, rfl⟩) | exact Or.inr (fun _ => ⟨rfl, rfl, rfl⟩)))
    | with_reducible refine State.modRng_only ?_ _ (sub_of rfl hs)
    | with_reducible refine State.countDev_only ?_ _ _ _ _ (sub_of rfl hs)
    | with_reducible refine State.modUci_only ?_ _ (sub_of rfl hs)
    | with_reducible refine idle_only ?_  (sub_of rfl hs)
    | with_reducible refine finish_only ?_  (sub_of rfl hs)
    | with_reducible refine State.flrRing_only ?_ _ (sub_of rfl hs)
    | with_reducible refine State.cause_only ?_ _ (sub_of rfl hs)
    | with_reducible refine State.keepRegs_only ?_ _ (sub_of rfl hs)
    | with_reducible refine finish_only ?_ (sub_of rfl hs)
    | with_reducible refine idle_only ?_
    | split
    | (with_reducible refine Only.foldl _ (fun _ _ _ => ?_) _ _ ?_)
    | ((with_reducible apply upd_only); rotate_left; iterate 39 (first | exact Or.inr (by with_reducible rfl) | exact Or.inl (mem_of_sub hs rfl) | exact Or.inl (sub_of rfl hs) | exact Or.inr rfl | exact Or.inr ⟨rfl, rfl⟩ | exact Or.inr ⟨rfl, rfl, rfl⟩))


theorem State.loseDomains_only (h : Only ps a s) (x1) (hs : sub [.out, .settings, .status, .shadow, .host, .pads, .counts, .gather, .evrQueue, .timeBases, .tim, .slots, .kst, .rng, .uci, .mem, .line, .dkl, .lci, .sac, .vat, .sch, .ports, .trib, .tribOld, .sc, .sa, .hbxRr, .cur, .lanes, .felt, .role, .mte] ps = true) : Only ps a (State.loseDomains s x1) := by
  unfold State.loseDomains
  try dsimp only
  repeat' first
    | with_reducible assumption
    | ((with_reducible refine State.modHst_only ?_ _ ?_ ?_); rotate_left; (first | exact Or.inl (mem_of_sub hs rfl) | exact Or.inr (fun _ => rfl)); (first | exact Or.inl (mem_of_sub hs rfl) | exact Or.inr (fun _ => rfl) | exact Or.inr (fun _ => ⟨rfl, rfl⟩) | exact Or.inr (fun _ => ⟨rfl, rfl, rfl⟩)))
    | with_reducible refine State.tbStop_only ?_ _ (sub_of rfl hs)
    | with_reducible refine State.clearMills_only ?_ _ (sub_of rfl hs)
    | with_reducible refine State.clearChan_only ?_ _ (sub_of rfl hs)
    | with_reducible refine State.clearTbs_only ?_  (sub_of rfl hs)
    | with_reducible refine State.keepRegs_only ?_ _ (sub_of rfl hs)
    | with_reducible refine State.clearMgmt_only ?_  (sub_of rfl hs)
    | with_reducible refine State.clearFelt_only ?_  (sub_of rfl hs)
    | with_reducible refine State.clearRegions_only ?_  (sub_of rfl hs)
    | with_reducible refine State.clearIsland_only ?_  (sub_of rfl hs)
    | with_reducible refine State.clearTim_only ?_  (sub_of rfl hs)
    | split
    | (with_reducible refine Only.foldl _ (fun _ _ _ => ?_) _ _ ?_)
    | ((with_reducible apply upd_only); rotate_left; iterate 39 (first | exact Or.inr (by with_reducible rfl) | exact Or.inl (mem_of_sub hs rfl) | exact Or.inl (sub_of rfl hs) | exact Or.inr rfl | exact Or.inr ⟨rfl, rfl⟩ | exact Or.inr ⟨rfl, rfl, rfl⟩))


theorem execClockLoss_only (h : Only ps a s) (x0) (hs : sub [.out, .settings, .status, .shadow, .domains, .resetCtl, .irq, .host, .pads, .counts, .gather, .evrQueue, .timeBases, .tim, .slots, .kst, .rng, .uci, .mem, .line, .dkl, .lci, .sac, .vat, .sch, .ports, .trib, .tribOld, .sc, .sa, .hbxRr, .cur, .lanes, .felt, .role, .mte] ps = true) : OnlyR ps a (execClockLoss x0 s) := by
  unfold execClockLoss
  try dsimp only
  repeat' first
    | with_reducible assumption
    | with_reducible refine State.setFld_only ?_ _ _ _ _ (Or.inr (by first | rfl | (simp; done) | decide)) (Or.inl (mem_of_sub hs rfl))
    | with_reducible refine State.setFld_only ?_ _ _ _ _ (Or.inl (mem_of_sub hs rfl)) (Or.inr (by first | rfl | (simp; done) | decide))
    | with_reducible refine State.setFld_only ?_ _ _ _ _ (Or.inl (mem_of_sub hs rfl)) (Or.inl (mem_of_sub hs rfl))
    | with_reducible refine State.happen_only ?_ _ _ _ _ _ (sub_of rfl hs)
    | ((with_reducible refine State.modRst_only ?_ _ ?_ ?_); rotate_left; (first | exact Or.inl (mem_of_sub hs rfl) | exact Or.inr (fun _ => rfl)); (first | exact Or.inl (mem_of_sub hs rfl) | exact Or.inr (fun _ => rfl) | exact Or.inr (fun _ => ⟨rfl, rfl⟩) | exact Or.inr (fun _ => ⟨rfl, rfl, rfl⟩)))
    | with_reducible refine idle_only ?_  (sub_of rfl hs)
    | with_reducible refine mateEnd_only ?_  (sub_of rfl hs)
    | with_reducible refine State.mateFinding_only ?_ _ (sub_of rfl hs)
    | with_reducible refine State.loseDomains_only ?_ _ (sub_of rfl hs)
    | with_reducible refine State.hold_only ?_ _ (sub_of rfl hs)
    | with_reducible refine State.cause_only ?_ _ (sub_of rfl hs)
    | with_reducible refine finish_only ?_ (sub_of rfl hs)
    | with_reducible refine idle_only ?_
    | split
    | (with_reducible refine Only.foldl _ (fun _ _ _ => ?_) _ _ ?_)
    | ((with_reducible apply upd_only); rotate_left; iterate 39 (first | exact Or.inr (by with_reducible rfl) | exact Or.inl (mem_of_sub hs rfl) | exact Or.inl (sub_of rfl hs) | exact Or.inr rfl | exact Or.inr ⟨rfl, rfl⟩ | exact Or.inr ⟨rfl, rfl, rfl⟩))


theorem execTrimLoadDone_only (h : Only ps a s) (x0) (hs : sub [.out, .status, .resetCtl, .irq, .counts, .evrQueue] ps = true) : OnlyR ps a (execTrimLoadDone x0 s) := by
  unfold execTrimLoadDone
  try dsimp only
  repeat' first
    | with_reducible assumption
    | with_reducible refine idle_only ?_  (sub_of rfl hs)
    | ((with_reducible refine State.modRst_only ?_ _ ?_ ?_); rotate_left; (first | exact Or.inl (mem_of_sub hs rfl) | exact Or.inr (fun _ => rfl)); (first | exact Or.inl (mem_of_sub hs rfl) | exact Or.inr (fun _ => rfl) | exact Or.inr (fun _ => ⟨rfl, rfl⟩) | exact Or.inr (fun _ => ⟨rfl, rfl, rfl⟩)))
    | with_reducible refine finish_only ?_  (sub_of rfl hs)
    | with_reducible refine State.cause_only ?_ _ (sub_of rfl hs)
    | with_reducible refine finish_only ?_ (sub_of rfl hs)
    | with_reducible refine idle_only ?_
    | split
    | (with_reducible refine Only.foldl _ (fun _ _ _ => ?_) _ _ ?_)
    | ((with_reducible apply upd_only); rotate_left; iterate 39 (first | exact Or.inr (by with_reducible rfl) | exact Or.inl (mem_of_sub hs rfl) | exact Or.inl (sub_of rfl hs) | exact Or.inr rfl | exact Or.inr ⟨rfl, rfl⟩ | exact Or.inr ⟨rfl, rfl, rfl⟩))


theorem State.startIsland_only (h : Only ps a s) (hs : sub [.out, .host, .pads, .counts, .evrQueue, .slots, .kst, .rng, .uci, .mem, .tmp, .line, .cur, .role, .mte] ps = true) : Only ps a (State.startIsland s) := by
  unfold State.startIsland
  try dsimp only
  repeat' first
    | with_reducible assumption
    | with_reducible refine State.modTmp_only ?_ _ (sub_of rfl hs)
    | ((with_reducible refine State.modKst_only ?_ _ ?_ ?_); rotate_left; (first | exact Or.inl (mem_of_sub hs rfl) | exact Or.inr (fun _ => rfl)); (first | exact Or.inl (mem_of_sub hs rfl) | exact Or.inr (fun _ => rfl) | exact Or.inr (fun _ => ⟨rfl, rfl⟩) | exact Or.inr (fun _ => ⟨rfl, rfl, rfl⟩)))
    | with_reducible refine State.rngStartup_only ?_  (sub_of rfl hs)
    | with_reducible refine State.askRoot_only ?_  (sub_of rfl hs)
    | split
    | (with_reducible refine Only.foldl _ (fun _ _ _ => ?_) _ _ ?_)
    | ((with_reducible apply upd_only); rotate_left; iterate 39 (first | exact Or.inr (by with_reducible rfl) | exact Or.inl (mem_of_sub hs rfl) | exact Or.inl (sub_of rfl hs) | exact Or.inr rfl | exact Or.inr ⟨rfl, rfl⟩ | exact Or.inr ⟨rfl, rfl, rfl⟩))


theorem State.linkTrain_only (h : Only ps a s) (hs : sub [.free, .host] ps = true) : Only ps a (State.linkTrain s) := by
  unfold State.linkTrain
  try dsimp only
  repeat' first
    | with_reducible assumption
    | ((with_reducible refine State.modHst_only ?_ _ ?_ ?_); rotate_left; (first | exact Or.inl (mem_of_sub hs rfl) | exact Or.inr (fun _ => rfl)); (first | exact Or.inl (mem_of_sub hs rfl) | exact Or.inr (fun _ => rfl) | exact Or.inr (fun _ => ⟨rfl, rfl⟩) | exact Or.inr (fun _ => ⟨rfl, rfl, rfl⟩)))
    | split
    | (with_reducible refine Only.foldl _ (fun _ _ _ => ?_) _ _ ?_)
    | ((with_reducible apply upd_only); rotate_left; iterate 39 (first | exact Or.inr (by with_reducible rfl) | exact Or.inl (mem_of_sub hs rfl) | exact Or.inl (sub_of rfl hs) | exact Or.inr rfl | exact Or.inr ⟨rfl, rfl⟩ | exact Or.inr ⟨rfl, rfl, rfl⟩))


theorem execDomainRelease_only (h : Only ps a s) (hs : sub [.free, .out, .domains, .resetCtl, .irq, .host, .pads, .counts, .evrQueue, .slots, .kst, .rng, .uci, .mem, .tmp, .line, .cur, .role, .mte] ps = true) : OnlyR ps a (execDomainRelease s) := by
  unfold execDomainRelease
  try dsimp only
  repeat' first
    | with_reducible assumption
    | with_reducible refine State.happen_only ?_ _ _ _ _ _ (sub_of rfl hs)
    | ((with_reducible refine State.modRst_only ?_ _ ?_ ?_); rotate_left; (first | exact Or.inl (mem_of_sub hs rfl) | exact Or.inr (fun _ => rfl)); (first | exact Or.inl (mem_of_sub hs rfl) | exact Or.inr (fun _ => rfl) | exact Or.inr (fun _ => ⟨rfl, rfl⟩) | exact Or.inr (fun _ => ⟨rfl, rfl, rfl⟩)))
    | with_reducible refine idle_only ?_  (sub_of rfl hs)
    | with_reducible refine finish_only ?_  (sub_of rfl hs)
    | with_reducible refine State.linkTrain_only ?_  (sub_of rfl hs)
    | with_reducible refine State.startIsland_only ?_  (sub_of rfl hs)
    | with_reducible refine finish_only ?_ (sub_of rfl hs)
    | with_reducible refine idle_only ?_
    | split
    | (with_reducible refine Only.foldl _ (fun _ _ _ => ?_) _ _ ?_)
    | ((with_reducible apply upd_only); rotate_left; iterate 39 (first | exact Or.inr (by with_reducible rfl) | exact Or.inl (mem_of_sub hs rfl) | exact Or.inl (sub_of rfl hs) | exact Or.inr rfl | exact Or.inr ⟨rfl, rfl⟩ | exact Or.inr ⟨rfl, rfl, rfl⟩))


theorem execBootVerifyDone_only (h : Only ps a s) (x0) (hs : sub [.out, .resetCtl, .irq, .counts, .evrQueue] ps = true) : OnlyR ps a (execBootVerifyDone x0 s) := by
  unfold execBootVerifyDone
  try dsimp only
  repeat' first
    | with_reducible assumption
    | ((with_reducible refine State.modRst_only ?_ _ ?_ ?_); rotate_left; (first | exact Or.inl (mem_of_sub hs rfl) | exact Or.inr (fun _ => rfl)); (first | exact Or.inl (mem_of_sub hs rfl) | exact Or.inr (fun _ => rfl) | exact Or.inr (fun _ => ⟨rfl, rfl⟩) | exact Or.inr (fun _ => ⟨rfl, rfl, rfl⟩)))
    | with_reducible refine idle_only ?_  (sub_of rfl hs)
    | with_reducible refine finish_only ?_  (sub_of rfl hs)
    | with_reducible refine finish_only ?_ (sub_of rfl hs)
    | with_reducible refine idle_only ?_
    | split
    | (with_reducible refine Only.foldl _ (fun _ _ _ => ?_) _ _ ?_)
    | ((with_reducible apply upd_only); rotate_left; iterate 39 (first | exact Or.inr (by with_reducible rfl) | exact Or.inl (mem_of_sub hs rfl) | exact Or.inl (sub_of rfl hs) | exact Or.inr rfl | exact Or.inr ⟨rfl, rfl⟩ | exact Or.inr ⟨rfl, rfl, rfl⟩))


end Sys2Proof.Machine
end

