-- ==== Sys2Proof/Laws/OnlyCurRows.lean ====
section
/-! SUPPORT. What each operation of Machine/CurRows.lean may change. -/

set_option linter.unusedTactic false
set_option linter.unreachableTactic false
set_option linter.unusedVariables false
set_option linter.unusedSimpArgs false

namespace Sys2Proof.Machine

variable {ps : List Area} {a s : State}

theorem State.doorbell_only (h : Only ps a s) (x1 x2) (hs : sub [.cur] ps = true) : Only ps a (State.doorbell s x1 x2) := by
  unfold State.doorbell
  try dsimp only
  repeat' first
    | with_reducible assumption
    | with_reducible refine State.modRing_only ?_ _ _ (sub_of rfl hs)
    | split
    | (with_reducible refine Only.foldl _ (fun _ _ _ => ?_) _ _ ?_)
    | ((with_reducible apply upd_only); rotate_left; iterate 39 (first | exact Or.inr (by with_reducible rfl) | exact Or.inl (mem_of_sub hs rfl) | exact Or.inl (sub_of rfl hs) | exact Or.inr rfl | exact Or.inr ⟨rfl, rfl⟩ | exact Or.inr ⟨rfl, rfl, rfl⟩))


theorem execRingDoorbell_only (h : Only ps a s) (x0 x1 x2) (hs : sub [.out, .irq, .counts, .evrQueue, .cur] ps = true) : OnlyR ps a (execRingDoorbell x0 x1 x2 s) := by
  unfold execRingDoorbell
  try dsimp only
  repeat' first
    | with_reducible assumption
    | with_reducible refine idle_only ?_  (sub_of rfl hs)
    | with_reducible refine finish_only ?_  (sub_of rfl hs)
    | with_reducible refine State.lockedWrite_only ?_ _ _ _ (sub_of rfl hs)
    | with_reducible refine State.doorbell_only ?_ _ _ (sub_of rfl hs)
    | with_reducible refine finish_only ?_ (sub_of rfl hs)
    | with_reducible refine idle_only ?_
    | split
    | (with_reducible refine Only.foldl _ (fun _ _ _ => ?_) _ _ ?_)
    | ((with_reducible apply upd_only); rotate_left; iterate 39 (first | exact Or.inr (by with_reducible rfl) | exact Or.inl (mem_of_sub hs rfl) | exact Or.inl (sub_of rfl hs) | exact Or.inr rfl | exact Or.inr ⟨rfl, rfl⟩ | exact Or.inr ⟨rfl, rfl, rfl⟩))


theorem State.ringOn_only (h : Only ps a s) (x1) (hs : sub [.cur] ps = true) : Only ps a (State.ringOn s x1) := by
  unfold State.ringOn
  try dsimp only
  repeat' first
    | with_reducible assumption
    | with_reducible refine State.modRing_only ?_ _ _ (sub_of rfl hs)
    | split
    | (with_reducible refine Only.foldl _ (fun _ _ _ => ?_) _ _ ?_)
    | ((with_reducible apply upd_only); rotate_left; iterate 39 (first | exact Or.inr (by with_reducible rfl) | exact Or.inl (mem_of_sub hs rfl) | exact Or.inl (sub_of rfl hs) | exact Or.inr rfl | exact Or.inr ⟨rfl, rfl⟩ | exact Or.inr ⟨rfl, rfl, rfl⟩))


theorem State.ringOff_only (h : Only ps a s) (x1) (hs : sub [.cur] ps = true) : Only ps a (State.ringOff s x1) := by
  unfold State.ringOff
  try dsimp only
  repeat' first
    | with_reducible assumption
    | with_reducible refine State.modRing_only ?_ _ _ (sub_of rfl hs)
    | split
    | (with_reducible refine Only.foldl _ (fun _ _ _ => ?_) _ _ ?_)
    | ((with_reducible apply upd_only); rotate_left; iterate 39 (first | exact Or.inr (by with_reducible rfl) | exact Or.inl (mem_of_sub hs rfl) | exact Or.inl (sub_of rfl hs) | exact Or.inr rfl | exact Or.inr ⟨rfl, rfl⟩ | exact Or.inr ⟨rfl, rfl, rfl⟩))


theorem execRingEnable_only (h : Only ps a s) (x0 x1) (hs : sub [.out, .irq, .counts, .evrQueue, .cur] ps = true) : OnlyR ps a (execRingEnable x0 x1 s) := by
  unfold execRingEnable
  try dsimp only
  repeat' first
    | with_reducible assumption
    | with_reducible refine idle_only ?_  (sub_of rfl hs)
    | with_reducible refine finish_only ?_  (sub_of rfl hs)
    | with_reducible refine State.lockedWrite_only ?_ _ _ _ (sub_of rfl hs)
    | with_reducible refine State.ringOn_only ?_ _ (sub_of rfl hs)
    | with_reducible refine finish_only ?_ (sub_of rfl hs)
    | with_reducible refine idle_only ?_
    | split
    | (with_reducible refine Only.foldl _ (fun _ _ _ => ?_) _ _ ?_)
    | ((with_reducible apply upd_only); rotate_left; iterate 39 (first | exact Or.inr (by with_reducible rfl) | exact Or.inl (mem_of_sub hs rfl) | exact Or.inl (sub_of rfl hs) | exact Or.inr rfl | exact Or.inr ⟨rfl, rfl⟩ | exact Or.inr ⟨rfl, rfl, rfl⟩))


theorem execRingDisable_only (h : Only ps a s) (x0 x1) (hs : sub [.out, .irq, .counts, .evrQueue, .cur] ps = true) : OnlyR ps a (execRingDisable x0 x1 s) := by
  unfold execRingDisable
  try dsimp only
  repeat' first
    | with_reducible assumption
    | with_reducible refine idle_only ?_  (sub_of rfl hs)
    | with_reducible refine finish_only ?_  (sub_of rfl hs)
    | with_reducible refine State.lockedWrite_only ?_ _ _ _ (sub_of rfl hs)
    | with_reducible refine State.ringOff_only ?_ _ (sub_of rfl hs)
    | with_reducible refine finish_only ?_ (sub_of rfl hs)
    | with_reducible refine idle_only ?_
    | split
    | (with_reducible refine Only.foldl _ (fun _ _ _ => ?_) _ _ ?_)
    | ((with_reducible apply upd_only); rotate_left; iterate 39 (first | exact Or.inr (by with_reducible rfl) | exact Or.inl (mem_of_sub hs rfl) | exact Or.inl (sub_of rfl hs) | exact Or.inr rfl | exact Or.inr ⟨rfl, rfl⟩ | exact Or.inr ⟨rfl, rfl, rfl⟩))


theorem State.abiWrite_only (h : Only ps a s) (x1 x2 x3) (hs : sub [.settings] ps = true) : Only ps a (State.abiWrite s x1 x2 x3) := by
  unfold State.abiWrite
  try dsimp only
  repeat' first
    | with_reducible assumption
    | with_reducible refine State.setFld_only ?_ _ _ _ _ (Or.inr (by first | rfl | (simp; done) | decide)) (Or.inl (mem_of_sub hs rfl))
    | with_reducible refine State.setFld_only ?_ _ _ _ _ (Or.inl (mem_of_sub hs rfl)) (Or.inr (by first | rfl | (simp; done) | decide))
    | with_reducible refine State.setFld_only ?_ _ _ _ _ (Or.inl (mem_of_sub hs rfl)) (Or.inl (mem_of_sub hs rfl))
    | split
    | (with_reducible refine Only.foldl _ (fun _ _ _ => ?_) _ _ ?_)
    | ((with_reducible apply upd_only); rotate_left; iterate 39 (first | exact Or.inr (by with_reducible rfl) | exact Or.inl (mem_of_sub hs rfl) | exact Or.inl (sub_of rfl hs) | exact Or.inr rfl | exact Or.inr ⟨rfl, rfl⟩ | exact Or.inr ⟨rfl, rfl, rfl⟩))


theorem execAbiSelect_only (h : Only ps a s) (x0 x1 x2) (hs : sub [.out, .settings, .irq, .counts, .evrQueue] ps = true) : OnlyR ps a (execAbiSelect x0 x1 x2 s) := by
  unfold execAbiSelect
  try dsimp only
  repeat' first
    | with_reducible assumption
    | with_reducible refine finish_only ?_  (sub_of rfl hs)
    | with_reducible refine idle_only ?_  (sub_of rfl hs)
    | with_reducible refine State.abiWrite_only ?_ _ _ _ (sub_of rfl hs)
    | with_reducible refine finish_only ?_ (sub_of rfl hs)
    | with_reducible refine idle_only ?_
    | split
    | (with_reducible refine Only.foldl _ (fun _ _ _ => ?_) _ _ ?_)
    | ((with_reducible apply upd_only); rotate_left; iterate 39 (first | exact Or.inr (by with_reducible rfl) | exact Or.inl (mem_of_sub hs rfl) | exact Or.inl (sub_of rfl hs) | exact Or.inr rfl | exact Or.inr ⟨rfl, rfl⟩ | exact Or.inr ⟨rfl, rfl, rfl⟩))


theorem State.cqHeadTo_only (h : Only ps a s) (x1 x2) (hs : sub [.counts, .evrQueue, .cur] ps = true) : Only ps a (State.cqHeadTo s x1 x2) := by
  unfold State.cqHeadTo
  try dsimp only
  repeat' first
    | with_reducible assumption
    | with_reducible refine State.modRing_only ?_ _ _ (sub_of rfl hs)
    | with_reducible refine State.drainAll_only ?_ _ (sub_of rfl hs)
    | split
    | (with_reducible refine Only.foldl _ (fun _ _ _ => ?_) _ _ ?_)
    | ((with_reducible apply upd_only); rotate_left; iterate 39 (first | exact Or.inr (by with_reducible rfl) | exact Or.inl (mem_of_sub hs rfl) | exact Or.inl (sub_of rfl hs) | exact Or.inr rfl | exact Or.inr ⟨rfl, rfl⟩ | exact Or.inr ⟨rfl, rfl, rfl⟩))


theorem execCqHeadWrite_only (h : Only ps a s) (x0 x1 x2) (hs : sub [.out, .irq, .counts, .evrQueue, .cur] ps = true) : OnlyR ps a (execCqHeadWrite x0 x1 x2 s) := by
  unfold execCqHeadWrite
  try dsimp only
  repeat' first
    | with_reducible assumption
    | with_reducible refine idle_only ?_  (sub_of rfl hs)
    | with_reducible refine finish_only ?_  (sub_of rfl hs)
    | with_reducible refine State.lockedWrite_only ?_ _ _ _ (sub_of rfl hs)
    | with_reducible refine State.cqHeadTo_only ?_ _ _ (sub_of rfl hs)
    | with_reducible refine finish_only ?_ (sub_of rfl hs)
    | with_reducible refine idle_only ?_
    | split
    | (with_reducible refine Only.foldl _ (fun _ _ _ => ?_) _ _ ?_)
    | ((with_reducible apply upd_only); rotate_left; iterate 39 (first | exact Or.inr (by with_reducible rfl) | exact Or.inl (mem_of_sub hs rfl) | exact Or.inl (sub_of rfl hs) | exact Or.inr rfl | exact Or.inr ⟨rfl, rfl⟩ | exact Or.inr ⟨rfl, rfl, rfl⟩))


theorem State.fetchFails_only (h : Only ps a s) (x1 x2) (hs : sub [.counts, .evrQueue, .cur] ps = true) : Only ps a (State.fetchFails s x1 x2) := by
  unfold State.fetchFails
  try dsimp only
  repeat' first
    | with_reducible assumption
    | with_reducible refine State.record_only ?_ _ _ (sub_of rfl hs)
    | with_reducible refine State.haltRing_only ?_ _ _ (sub_of rfl hs)
    | split
    | (with_reducible refine Only.foldl _ (fun _ _ _ => ?_) _ _ ?_)
    | ((with_reducible apply upd_only); rotate_left; iterate 39 (first | exact Or.inr (by with_reducible rfl) | exact Or.inl (mem_of_sub hs rfl) | exact Or.inl (sub_of rfl hs) | exact Or.inr rfl | exact Or.inr ⟨rfl, rfl⟩ | exact Or.inr ⟨rfl, rfl, rfl⟩))


theorem State.fetched_only (h : Only ps a s) (x1 x2) (hs : sub [.counts, .evrQueue, .cur] ps = true) : Only ps a (State.fetched s x1 x2) := by
  unfold State.fetched
  try dsimp only
  repeat' first
    | with_reducible assumption
    | with_reducible refine State.modRing_only ?_ _ _ (sub_of rfl hs)
    | with_reducible refine State.drainAll_only ?_ _ (sub_of rfl hs)
    | with_reducible refine State.fetchFails_only ?_ _ _ (sub_of rfl hs)
    | split
    | (with_reducible refine Only.foldl _ (fun _ _ _ => ?_) _ _ ?_)
    | ((with_reducible apply upd_only); rotate_left; iterate 39 (first | exact Or.inr (by with_reducible rfl) | exact Or.inl (mem_of_sub hs rfl) | exact Or.inl (sub_of rfl hs) | exact Or.inr rfl | exact Or.inr ⟨rfl, rfl⟩ | exact Or.inr ⟨rfl, rfl, rfl⟩))


theorem execDescriptorFetch_only (h : Only ps a s) (x0 x1) (hs : sub [.out, .irq, .counts, .evrQueue, .cur] ps = true) : OnlyR ps a (execDescriptorFetch x0 x1 s) := by
  unfold execDescriptorFetch
  try dsimp only
  repeat' first
    | with_reducible assumption
    | with_reducible refine finish_only ?_  (sub_of rfl hs)
    | with_reducible refine idle_only ?_  (sub_of rfl hs)
    | with_reducible refine State.fetched_only ?_ _ _ (sub_of rfl hs)
    | with_reducible refine finish_only ?_ (sub_of rfl hs)
    | with_reducible refine idle_only ?_
    | split
    | (with_reducible refine Only.foldl _ (fun _ _ _ => ?_) _ _ ?_)
    | ((with_reducible apply upd_only); rotate_left; iterate 39 (first | exact Or.inr (by with_reducible rfl) | exact Or.inl (mem_of_sub hs rfl) | exact Or.inl (sub_of rfl hs) | exact Or.inr rfl | exact Or.inr ⟨rfl, rfl⟩ | exact Or.inr ⟨rfl, rfl, rfl⟩))


theorem execDmaTimeout_only (h : Only ps a s) (x0) (hs : sub [.out, .irq, .counts, .evrQueue, .dkl, .ports, .cur, .mte] ps = true) : OnlyR ps a (execDmaTimeout x0 s) := by
  unfold execDmaTimeout
  try dsimp only
  repeat' first
    | with_reducible assumption
    | with_reducible refine finish_only ?_  (sub_of rfl hs)
    | with_reducible refine execGcladm_only ?_ _ _ (sub_of rfl hs)
    | with_reducible refine execDkwriteTransferDone_only ?_ _ _ (sub_of rfl hs)
    | with_reducible refine State.fetched_only ?_ _ _ (sub_of rfl hs)
    | with_reducible refine finish_only ?_ (sub_of rfl hs)
    | with_reducible refine idle_only ?_
    | split
    | (with_reducible refine Only.foldl _ (fun _ _ _ => ?_) _ _ ?_)
    | ((with_reducible apply upd_only); rotate_left; iterate 39 (first | exact Or.inr (by with_reducible rfl) | exact Or.inl (mem_of_sub hs rfl) | exact Or.inl (sub_of rfl hs) | exact Or.inr rfl | exact Or.inr ⟨rfl, rfl⟩ | exact Or.inr ⟨rfl, rfl, rfl⟩))


theorem execCurApplyDone_only (h : Only ps a s) (x0) (hs : sub [.out, .irq, .counts, .evrQueue, .cur] ps = true) : OnlyR ps a (execCurApplyDone x0 s) := by
  unfold execCurApplyDone
  try dsimp only
  repeat' first
    | with_reducible assumption
    | with_reducible refine idle_only ?_  (sub_of rfl hs)
    | with_reducible refine finish_only ?_  (sub_of rfl hs)
    | with_reducible refine State.modEng_only ?_ _ _ (sub_of rfl hs)
    | with_reducible refine State.complete_only ?_ _ _ _ _ _ _ (sub_of rfl hs)
    | with_reducible refine finish_only ?_ (sub_of rfl hs)
    | with_reducible refine idle_only ?_
    | split
    | (with_reducible refine Only.foldl _ (fun _ _ _ => ?_) _ _ ?_)
    | ((with_reducible apply upd_only); rotate_left; iterate 39 (first | exact Or.inr (by with_reducible rfl) | exact Or.inl (mem_of_sub hs rfl) | exact Or.inl (sub_of rfl hs) | exact Or.inr rfl | exact Or.inr ⟨rfl, rfl⟩ | exact Or.inr ⟨rfl, rfl, rfl⟩))


theorem State.recordOut_only (h : Only ps a s) (x1 x2 x3) (hs : sub [.out, .irq, .counts, .cur] ps = true) : Only ps a (State.recordOut s x1 x2 x3) := by
  unfold State.recordOut
  try dsimp only
  repeat' first
    | with_reducible assumption
    | with_reducible refine State.modRing_only ?_ _ _ (sub_of rfl hs)
    | with_reducible refine State.ringMsix_only ?_ _ (sub_of rfl hs)
    | with_reducible refine State.hostWrite_only ?_ _ _ _ (sub_of rfl hs)
    | split
    | (with_reducible refine Only.foldl _ (fun _ _ _ => ?_) _ _ ?_)
    | ((with_reducible apply upd_only); rotate_left; iterate 39 (first | exact Or.inr (by with_reducible rfl) | exact Or.inl (mem_of_sub hs rfl) | exact Or.inl (sub_of rfl hs) | exact Or.inr rfl | exact Or.inr ⟨rfl, rfl⟩ | exact Or.inr ⟨rfl, rfl, rfl⟩))


theorem execCompletionRecordWrite_only (h : Only ps a s) (x0) (hs : sub [.out, .irq, .counts, .evrQueue, .cur] ps = true) : OnlyR ps a (execCompletionRecordWrite x0 s) := by
  unfold execCompletionRecordWrite
  try dsimp only
  repeat' first
    | with_reducible assumption
    | with_reducible refine idle_only ?_  (sub_of rfl hs)
    | with_reducible refine finish_only ?_  (sub_of rfl hs)
    | with_reducible refine State.drainAll_only ?_ _ (sub_of rfl hs)
    | with_reducible refine State.recordOut_only ?_ _ _ _ (sub_of rfl hs)
    | with_reducible refine finish_only ?_ (sub_of rfl hs)
    | with_reducible refine idle_only ?_
    | split
    | (with_reducible refine Only.foldl _ (fun _ _ _ => ?_) _ _ ?_)
    | ((with_reducible apply upd_only); rotate_left; iterate 39 (first | exact Or.inr (by with_reducible rfl) | exact Or.inl (mem_of_sub hs rfl) | exact Or.inl (sub_of rfl hs) | exact Or.inr rfl | exact Or.inr ⟨rfl, rfl⟩ | exact Or.inr ⟨rfl, rfl, rfl⟩))


theorem State.issueWait_only (h : Only ps a s) (r : Rid) (op : Nat → Bool) (run : State → Desc → CmdRef → State)
    (hr : ∀ s d ref, Only ps a s → Only ps a (run s d ref)) (hs : sub [.counts, .evrQueue, .irq, .out, .cur] ps = true) :
    OnlyR ps a (s.issueWait r op run) := by
  unfold State.issueWait
  split
  · exact idle_only h
  · split
    · exact finish_only (State.drainAll_only (State.waitFail_only (State.pop_only h _ (sub_of rfl hs)) _ _ (sub_of rfl hs)) _ (sub_of rfl hs)) (sub_of rfl hs)
    · exact finish_only (State.drainAll_only (hr _ _ _ (State.pop_only h _ (sub_of rfl hs))) _ (sub_of rfl hs)) (sub_of rfl hs)

theorem State.holdRing_only (h : Only ps a s) (x1 x2) (hs : sub [.cur] ps = true) : Only ps a (State.holdRing s x1 x2) := by
  unfold State.holdRing
  try dsimp only
  repeat' first
    | with_reducible assumption
    | with_reducible refine State.modRing_only ?_ _ _ (sub_of rfl hs)
    | with_reducible refine State.accept_only ?_ _ (sub_of rfl hs)
    | split
    | (with_reducible refine Only.foldl _ (fun _ _ _ => ?_) _ _ ?_)
    | ((with_reducible apply upd_only); rotate_left; iterate 39 (first | exact Or.inr (by with_reducible rfl) | exact Or.inl (mem_of_sub hs rfl) | exact Or.inl (sub_of rfl hs) | exact Or.inr rfl | exact Or.inr ⟨rfl, rfl⟩ | exact Or.inr ⟨rfl, rfl, rfl⟩))


theorem State.runWaittTime_only (h : Only ps a s) (x1 x2) (hs : sub [.counts, .evrQueue, .cur] ps = true) : Only ps a (State.runWaittTime s x1 x2) := by
  unfold State.runWaittTime
  try dsimp only
  repeat' first
    | with_reducible assumption
    | with_reducible refine State.complete_only ?_ _ _ _ _ _ _ (sub_of rfl hs)
    | with_reducible refine State.waitFail_only ?_ _ _ (sub_of rfl hs)
    | with_reducible refine State.holdRing_only ?_ _ _ (sub_of rfl hs)
    | split
    | (with_reducible refine Only.foldl _ (fun _ _ _ => ?_) _ _ ?_)
    | ((with_reducible apply upd_only); rotate_left; iterate 39 (first | exact Or.inr (by with_reducible rfl) | exact Or.inl (mem_of_sub hs rfl) | exact Or.inl (sub_of rfl hs) | exact Or.inr rfl | exact Or.inr ⟨rfl, rfl⟩ | exact Or.inr ⟨rfl, rfl, rfl⟩))


theorem execWaittTime_only (h : Only ps a s) (x0) (hs : sub [.out, .irq, .counts, .evrQueue, .cur] ps = true) : OnlyR ps a (execWaittTime x0 s) := by
  unfold execWaittTime
  try dsimp only
  repeat' first
    | with_reducible assumption
    | ((with_reducible refine State.issueWait_only ?_ _ _ _ (fun _ _ _ _ => ?_) (sub_of rfl hs)); rotate_left)
    | with_reducible refine State.runWaittTime_only ?_ _ _ (sub_of rfl hs)
    | with_reducible refine finish_only ?_ (sub_of rfl hs)
    | with_reducible refine idle_only ?_
    | split
    | (with_reducible refine Only.foldl _ (fun _ _ _ => ?_) _ _ ?_)
    | ((with_reducible apply upd_only); rotate_left; iterate 39 (first | exact Or.inr (by with_reducible rfl) | exact Or.inl (mem_of_sub hs rfl) | exact Or.inl (sub_of rfl hs) | exact Or.inr rfl | exact Or.inr ⟨rfl, rfl⟩ | exact Or.inr ⟨rfl, rfl, rfl⟩))


theorem State.runWaittReam_only (h : Only ps a s) (x1 x2) (hs : sub [.counts, .evrQueue, .cur] ps = true) : Only ps a (State.runWaittReam s x1 x2) := by
  unfold State.runWaittReam
  try dsimp only
  repeat' first
    | with_reducible assumption
    | with_reducible refine State.complete_only ?_ _ _ _ _ _ _ (sub_of rfl hs)
    | with_reducible refine State.waitFail_only ?_ _ _ (sub_of rfl hs)
    | with_reducible refine State.holdRing_only ?_ _ _ (sub_of rfl hs)
    | split
    | (with_reducible refine Only.foldl _ (fun _ _ _ => ?_) _ _ ?_)
    | ((with_reducible apply upd_only); rotate_left; iterate 39 (first | exact Or.inr (by with_reducible rfl) | exact Or.inl (mem_of_sub hs rfl) | exact Or.inl (sub_of rfl hs) | exact Or.inr rfl | exact Or.inr ⟨rfl, rfl⟩ | exact Or.inr ⟨rfl, rfl, rfl⟩))


theorem execWaittReam_only (h : Only ps a s) (x0) (hs : sub [.out, .irq, .counts, .evrQueue, .cur] ps = true) : OnlyR ps a (execWaittReam x0 s) := by
  unfold execWaittReam
  try dsimp only
  repeat' first
    | with_reducible assumption
    | ((with_reducible refine State.issueWait_only ?_ _ _ _ (fun _ _ _ _ => ?_) (sub_of rfl hs)); rotate_left)
    | with_reducible refine State.runWaittReam_only ?_ _ _ (sub_of rfl hs)
    | with_reducible refine finish_only ?_ (sub_of rfl hs)
    | with_reducible refine idle_only ?_
    | split
    | (with_reducible refine Only.foldl _ (fun _ _ _ => ?_) _ _ ?_)
    | ((with_reducible apply upd_only); rotate_left; iterate 39 (first | exact Or.inr (by with_reducible rfl) | exact Or.inl (mem_of_sub hs rfl) | exact Or.inl (sub_of rfl hs) | exact Or.inr rfl | exact Or.inr ⟨rfl, rfl⟩ | exact Or.inr ⟨rfl, rfl, rfl⟩))


theorem State.waitEnd_only_of {t : State} {x1} (e : State.waitEnd s x1 = some t) (h : Only ps a s) (hs : sub [.counts, .evrQueue, .cur] ps = true) : Only ps a t := by
  unfold State.waitEnd at e
  try dsimp only at e
  (repeat' split at e) <;> first | contradiction | skip
  all_goals (first | (cases e) | skip)
  repeat' first
    | with_reducible assumption
    | with_reducible refine State.complete_only ?_ _ _ _ _ _ _ (sub_of rfl hs)
    | with_reducible refine State.waitFail_only ?_ _ _ (sub_of rfl hs)
    | split
    | (with_reducible refine Only.foldl _ (fun _ _ _ => ?_) _ _ ?_)
    | ((with_reducible apply upd_only); rotate_left; iterate 39 (first | exact Or.inr (by with_reducible rfl) | exact Or.inl (mem_of_sub hs rfl) | exact Or.inl (sub_of rfl hs) | exact Or.inr rfl | exact Or.inr ⟨rfl, rfl⟩ | exact Or.inr ⟨rfl, rfl, rfl⟩))


theorem execWaittRelease_only (h : Only ps a s) (x0) (hs : sub [.out, .irq, .counts, .evrQueue, .cur] ps = true) : OnlyR ps a (execWaittRelease x0 s) := by
  unfold execWaittRelease
  cases e : (s.ring x0).hold.bind s.waitEnd with
  | none => exact idle_only h
  | some s1 =>
    obtain ⟨w, _, e'⟩ := Option.bind_eq_some_iff.mp e
    exact finish_only (State.waitEnd_only_of e' h (sub_of rfl hs)) (sub_of rfl hs)

theorem execWaittTimeout_only (h : Only ps a s) (x0) (hs : sub [.out, .irq, .counts, .evrQueue, .cur] ps = true) : OnlyR ps a (execWaittTimeout x0 s) := by
  unfold execWaittTimeout
  try dsimp only
  repeat' first
    | with_reducible assumption
    | with_reducible refine idle_only ?_  (sub_of rfl hs)
    | with_reducible refine finish_only ?_  (sub_of rfl hs)
    | with_reducible refine State.waitFail_only ?_ _ _ (sub_of rfl hs)
    | with_reducible refine State.waitEnd_only ?_ _ (sub_of rfl hs)
    | with_reducible refine State.waitEnd_only_of (by assumption) ?_ (sub_of rfl hs)
    | with_reducible refine finish_only ?_ (sub_of rfl hs)
    | with_reducible refine idle_only ?_
    | split
    | (with_reducible refine Only.foldl _ (fun _ _ _ => ?_) _ _ ?_)
    | ((with_reducible apply upd_only); rotate_left; iterate 39 (first | exact Or.inr (by with_reducible rfl) | exact Or.inl (mem_of_sub hs rfl) | exact Or.inl (sub_of rfl hs) | exact Or.inr rfl | exact Or.inr ⟨rfl, rfl⟩ | exact Or.inr ⟨rfl, rfl, rfl⟩))


theorem State.runFence_only (h : Only ps a s) (x1 x2) (hs : sub [.counts, .evrQueue, .cur] ps = true) : Only ps a (State.runFence s x1 x2) := by
  unfold State.runFence
  try dsimp only
  repeat' first
    | with_reducible assumption
    | with_reducible refine State.complete_only ?_ _ _ _ _ _ _ (sub_of rfl hs)
    | with_reducible refine State.holdRing_only ?_ _ _ (sub_of rfl hs)
    | split
    | (with_reducible refine Only.foldl _ (fun _ _ _ => ?_) _ _ ?_)
    | ((with_reducible apply upd_only); rotate_left; iterate 39 (first | exact Or.inr (by with_reducible rfl) | exact Or.inl (mem_of_sub hs rfl) | exact Or.inl (sub_of rfl hs) | exact Or.inr rfl | exact Or.inr ⟨rfl, rfl⟩ | exact Or.inr ⟨rfl, rfl, rfl⟩))


theorem execFence_only (h : Only ps a s) (x0) (hs : sub [.out, .irq, .counts, .evrQueue, .cur] ps = true) : OnlyR ps a (execFence x0 s) := by
  unfold execFence
  try dsimp only
  repeat' first
    | with_reducible assumption
    | ((with_reducible refine State.issue_only ?_ _ _ _ _ (fun _ _ _ _ => ?_) (sub_of rfl hs)); rotate_left)
    | with_reducible refine State.runFence_only ?_ _ _ (sub_of rfl hs)
    | with_reducible refine finish_only ?_ (sub_of rfl hs)
    | with_reducible refine idle_only ?_
    | split
    | (with_reducible refine Only.foldl _ (fun _ _ _ => ?_) _ _ ?_)
    | ((with_reducible apply upd_only); rotate_left; iterate 39 (first | exact Or.inr (by with_reducible rfl) | exact Or.inl (mem_of_sub hs rfl) | exact Or.inl (sub_of rfl hs) | exact Or.inr rfl | exact Or.inr ⟨rfl, rfl⟩ | exact Or.inr ⟨rfl, rfl, rfl⟩))


theorem execFenceDone_only (h : Only ps a s) (x0) (hs : sub [.out, .irq, .counts, .evrQueue, .cur] ps = true) : OnlyR ps a (execFenceDone x0 s) := by
  unfold execFenceDone
  try dsimp only
  repeat' first
    | with_reducible assumption
    | with_reducible refine idle_only ?_  (sub_of rfl hs)
    | with_reducible refine finish_only ?_  (sub_of rfl hs)
    | with_reducible refine State.complete_only ?_ _ _ _ _ _ _ (sub_of rfl hs)
    | with_reducible refine finish_only ?_ (sub_of rfl hs)
    | with_reducible refine idle_only ?_
    | split
    | (with_reducible refine Only.foldl _ (fun _ _ _ => ?_) _ _ ?_)
    | ((with_reducible apply upd_only); rotate_left; iterate 39 (first | exact Or.inr (by with_reducible rfl) | exact Or.inl (mem_of_sub hs rfl) | exact Or.inl (sub_of rfl hs) | exact Or.inr rfl | exact Or.inr ⟨rfl, rfl⟩ | exact Or.inr ⟨rfl, rfl, rfl⟩))


theorem applyEpochRead_only (h : Only ps a s) (x1 x2) (hs : sub [] ps = true) : Only ps a (applyEpochRead s x1 x2).s := by
  unfold applyEpochRead
  try dsimp only
  repeat' first
    | with_reducible assumption
    | split
    | (with_reducible refine Only.foldl _ (fun _ _ _ => ?_) _ _ ?_)
    | ((with_reducible apply upd_only); rotate_left; iterate 39 (first | exact Or.inr (by with_reducible rfl) | exact Or.inl (mem_of_sub hs rfl) | exact Or.inl (sub_of rfl hs) | exact Or.inr rfl | exact Or.inr ⟨rfl, rfl⟩ | exact Or.inr ⟨rfl, rfl, rfl⟩))


theorem execEpochRead_only (h : Only ps a s) (x0) (hs : sub [.out, .irq, .counts, .evrQueue, .cur] ps = true) : OnlyR ps a (execEpochRead x0 s) := by
  unfold execEpochRead
  try dsimp only
  repeat' first
    | with_reducible assumption
    | ((with_reducible refine State.issue_only ?_ _ _ _ _ (fun _ _ _ _ => ?_) (sub_of rfl hs)); rotate_left)
    | ((with_reducible refine State.doNow_only ?_ _ _ _ _ (fun _ _ _ _ => ?_) (sub_of rfl hs)); rotate_left)
    | with_reducible refine applyEpochRead_only ?_ _ _ (sub_of rfl hs)
    | with_reducible refine finish_only ?_ (sub_of rfl hs)
    | with_reducible refine idle_only ?_
    | split
    | (with_reducible refine Only.foldl _ (fun _ _ _ => ?_) _ _ ?_)
    | ((with_reducible apply upd_only); rotate_left; iterate 39 (first | exact Or.inr (by with_reducible rfl) | exact Or.inl (mem_of_sub hs rfl) | exact Or.inl (sub_of rfl hs) | exact Or.inr rfl | exact Or.inr ⟨rfl, rfl⟩ | exact Or.inr ⟨rfl, rfl, rfl⟩))


theorem applyNothing_only (h : Only ps a s) (x1 x2) (hs : sub [] ps = true) : Only ps a (applyNothing s x1 x2).s := by
  unfold applyNothing
  try dsimp only
  repeat' first
    | with_reducible assumption
    | split
    | (with_reducible refine Only.foldl _ (fun _ _ _ => ?_) _ _ ?_)
    | ((with_reducible apply upd_only); rotate_left; iterate 39 (first | exact Or.inr (by with_reducible rfl) | exact Or.inl (mem_of_sub hs rfl) | exact Or.inl (sub_of rfl hs) | exact Or.inr rfl | exact Or.inr ⟨rfl, rfl⟩ | exact Or.inr ⟨rfl, rfl, rfl⟩))


theorem execEpochAssert_only (h : Only ps a s) (x0) (hs : sub [.out, .irq, .counts, .evrQueue, .cur] ps = true) : OnlyR ps a (execEpochAssert x0 s) := by
  unfold execEpochAssert
  try dsimp only
  repeat' first
    | with_reducible assumption
    | ((with_reducible refine State.issue_only ?_ _ _ _ _ (fun _ _ _ _ => ?_) (sub_of rfl hs)); rotate_left)
    | ((with_reducible refine State.doNow_only ?_ _ _ _ _ (fun _ _ _ _ => ?_) (sub_of rfl hs)); rotate_left)
    | with_reducible refine applyNothing_only ?_ _ _ (sub_of rfl hs)
    | with_reducible refine finish_only ?_ (sub_of rfl hs)
    | with_reducible refine idle_only ?_
    | split
    | (with_reducible refine Only.foldl _ (fun _ _ _ => ?_) _ _ ?_)
    | ((with_reducible apply upd_only); rotate_left; iterate 39 (first | exact Or.inr (by with_reducible rfl) | exact Or.inl (mem_of_sub hs rfl) | exact Or.inl (sub_of rfl hs) | exact Or.inr rfl | exact Or.inr ⟨rfl, rfl⟩ | exact Or.inr ⟨rfl, rfl, rfl⟩))


theorem applyNotify_only (h : Only ps a s) (x1 x2) (hs : sub [] ps = true) : Only ps a (applyNotify s x1 x2).s := by
  unfold applyNotify
  try dsimp only
  repeat' first
    | with_reducible assumption
    | split
    | (with_reducible refine Only.foldl _ (fun _ _ _ => ?_) _ _ ?_)
    | ((with_reducible apply upd_only); rotate_left; iterate 39 (first | exact Or.inr (by with_reducible rfl) | exact Or.inl (mem_of_sub hs rfl) | exact Or.inl (sub_of rfl hs) | exact Or.inr rfl | exact Or.inr ⟨rfl, rfl⟩ | exact Or.inr ⟨rfl, rfl, rfl⟩))


theorem execNotify_only (h : Only ps a s) (x0) (hs : sub [.out, .irq, .counts, .evrQueue, .cur] ps = true) : OnlyR ps a (execNotify x0 s) := by
  unfold execNotify
  try dsimp only
  repeat' first
    | with_reducible assumption
    | ((with_reducible refine State.issue_only ?_ _ _ _ _ (fun _ _ _ _ => ?_) (sub_of rfl hs)); rotate_left)
    | ((with_reducible refine State.doNow_only ?_ _ _ _ _ (fun _ _ _ _ => ?_) (sub_of rfl hs)); rotate_left)
    | with_reducible refine applyNotify_only ?_ _ _ (sub_of rfl hs)
    | with_reducible refine finish_only ?_ (sub_of rfl hs)
    | with_reducible refine idle_only ?_
    | split
    | (with_reducible refine Only.foldl _ (fun _ _ _ => ?_) _ _ ?_)
    | ((with_reducible apply upd_only); rotate_left; iterate 39 (first | exact Or.inr (by with_reducible rfl) | exact Or.inl (mem_of_sub hs rfl) | exact Or.inl (sub_of rfl hs) | exact Or.inr rfl | exact Or.inr ⟨rfl, rfl⟩ | exact Or.inr ⟨rfl, rfl, rfl⟩))


theorem Desc.effect_only (h : Only ps a s) (d : Desc) (k : Fin 4) (d' : Desc) (hs : sub [.out, .status, .counts, .evrQueue, .mem, .line, .dkl, .lci, .sac, .vat, .sch, .ports, .trib, .tribOld, .sc, .sa, .cur, .mte] ps = true) : Only ps a (d.effect s k d').s := by
  suffices H : ∀ e, d.effect = e → Only ps a (e s k d').s from H _ rfl
  intro e he
  unfold Desc.effect at he
  split at he <;> subst he
  · exact applySainstUpdateLpn_only h _ _ (sub_of rfl hs)
  · exact applySainstSetcur_only h _ _ (sub_of rfl hs)
  · exact applySapinUnpin_only h _ _ (sub_of rfl hs)
  · exact applyLkarmRxon_only h _ _ (sub_of rfl hs)
  · exact applyLkarmRxoff_only h _ _ (sub_of rfl hs)
  · exact applyGclgo_only h _ _ (sub_of rfl hs)
  · exact applyShpset_only h _ _ (sub_of rfl hs)
  · exact applyPolset_only h _ _ (sub_of rfl hs)
  · exact applyQcfgActivate_only h _ _ (sub_of rfl hs)
  · exact applyQcfgDeactivate_only h _ _ (sub_of rfl hs)
  · exact applyQcfgUpdate_only h _ _ (sub_of rfl hs)
  · exact applyNotify_only h _ _ (sub_of rfl hs)
  · exact applyNothing_only h _ _ (sub_of rfl hs)

theorem State.rejectAll_only (h : Only ps a s) (x1 x2 x3) (hs : sub [.counts, .evrQueue, .cur] ps = true) : Only ps a (State.rejectAll s x1 x2 x3) := by
  unfold State.rejectAll
  try dsimp only
  repeat' first
    | with_reducible assumption
    | with_reducible refine State.complete_only ?_ _ _ _ _ _ _ (sub_of rfl hs)
    | with_reducible refine State.waitFail_only ?_ _ _ (sub_of rfl hs)
    | split
    | (with_reducible refine Only.foldl _ (fun _ _ _ => ?_) _ _ ?_)
    | ((with_reducible apply upd_only); rotate_left; iterate 39 (first | exact Or.inr (by with_reducible rfl) | exact Or.inl (mem_of_sub hs rfl) | exact Or.inl (sub_of rfl hs) | exact Or.inr rfl | exact Or.inr ⟨rfl, rfl⟩ | exact Or.inr ⟨rfl, rfl, rfl⟩))


theorem State.acceptOne_only (h : Only ps a s) (x1 x2) (hs : sub [.out, .status, .counts, .evrQueue, .mem, .line, .dkl, .lci, .sac, .vat, .sch, .ports, .trib, .tribOld, .sc, .sa, .cur, .mte] ps = true) : Only ps a (State.acceptOne s x1 x2) := by
  unfold State.acceptOne
  try dsimp only
  repeat' first
    | with_reducible assumption
    | with_reducible refine State.applyNow_only ?_ _ _ _ _ (sub_of rfl hs)
    | with_reducible refine Desc.effect_only ?_ _ _ _ (sub_of rfl hs)
    | split
    | (with_reducible refine Only.foldl _ (fun _ _ _ => ?_) _ _ ?_)
    | ((with_reducible apply upd_only); rotate_left; iterate 39 (first | exact Or.inr (by with_reducible rfl) | exact Or.inl (mem_of_sub hs rfl) | exact Or.inl (sub_of rfl hs) | exact Or.inr rfl | exact Or.inr ⟨rfl, rfl⟩ | exact Or.inr ⟨rfl, rfl, rfl⟩))


theorem State.runBatch_only (h : Only ps a s) (x1 x2) (hs : sub [.out, .status, .counts, .evrQueue, .mem, .line, .dkl, .lci, .sac, .vat, .sch, .ports, .trib, .tribOld, .sc, .sa, .cur, .mte] ps = true) : Only ps a (State.runBatch s x1 x2) := by
  unfold State.runBatch
  try dsimp only
  repeat' first
    | with_reducible assumption
    | with_reducible refine State.modEng_only ?_ _ _ (sub_of rfl hs)
    | with_reducible refine State.modRing_only ?_ _ _ (sub_of rfl hs)
    | with_reducible refine State.acceptOne_only ?_ _ _ (sub_of rfl hs)
    | with_reducible refine State.rejectAll_only ?_ _ _ _ (sub_of rfl hs)
    | split
    | (with_reducible refine Only.foldl _ (fun _ _ _ => ?_) _ _ ?_)
    | ((with_reducible apply upd_only); rotate_left; iterate 39 (first | exact Or.inr (by with_reducible rfl) | exact Or.inl (mem_of_sub hs rfl) | exact Or.inl (sub_of rfl hs) | exact Or.inr rfl | exact Or.inr ⟨rfl, rfl⟩ | exact Or.inr ⟨rfl, rfl, rfl⟩))


theorem execBatchStart_only (h : Only ps a s) (x0) (hs : sub [.out, .status, .irq, .counts, .evrQueue, .mem, .line, .dkl, .lci, .sac, .vat, .sch, .ports, .trib, .tribOld, .sc, .sa, .cur, .mte] ps = true) : OnlyR ps a (execBatchStart x0 s) := by
  unfold execBatchStart
  try dsimp only
  repeat' first
    | with_reducible assumption
    | with_reducible refine idle_only ?_  (sub_of rfl hs)
    | with_reducible refine finish_only ?_  (sub_of rfl hs)
    | with_reducible refine State.drainAll_only ?_ _ (sub_of rfl hs)
    | with_reducible refine State.runBatch_only ?_ _ _ (sub_of rfl hs)
    | with_reducible refine finish_only ?_ (sub_of rfl hs)
    | with_reducible refine idle_only ?_
    | split
    | (with_reducible refine Only.foldl _ (fun _ _ _ => ?_) _ _ ?_)
    | ((with_reducible apply upd_only); rotate_left; iterate 39 (first | exact Or.inr (by with_reducible rfl) | exact Or.inl (mem_of_sub hs rfl) | exact Or.inl (sub_of rfl hs) | exact Or.inr rfl | exact Or.inr ⟨rfl, rfl⟩ | exact Or.inr ⟨rfl, rfl, rfl⟩))


theorem State.puntOut_only (h : Only ps a s) (x1 x2 x3 x4) (hs : sub [.out, .counts, .vat, .sch, .trib, .cur] ps = true) : Only ps a (State.puntOut s x1 x2 x3 x4) := by
  unfold State.puntOut
  try dsimp only
  repeat' first
    | with_reducible assumption
    | with_reducible refine State.modVat_only ?_ _ _ (sub_of rfl hs)
    | with_reducible refine State.modRing_only ?_ _ _ (sub_of rfl hs)
    | with_reducible refine State.countDev_only ?_ _ _ _ _ (sub_of rfl hs)
    | with_reducible refine State.hostWrite_only ?_ _ _ _ (sub_of rfl hs)
    | with_reducible refine State.record_only ?_ _ _ (sub_of rfl hs)
    | with_reducible refine State.dropFrame_only ?_ _ _ (sub_of rfl hs)
    | with_reducible refine State.creditReturn_only ?_ _ (sub_of rfl hs)
    | split
    | (with_reducible refine Only.foldl _ (fun _ _ _ => ?_) _ _ ?_)
    | ((with_reducible apply upd_only); rotate_left; iterate 39 (first | exact Or.inr (by with_reducible rfl) | exact Or.inl (mem_of_sub hs rfl) | exact Or.inl (sub_of rfl hs) | exact Or.inr rfl | exact Or.inr ⟨rfl, rfl⟩ | exact Or.inr ⟨rfl, rfl, rfl⟩))


theorem execPuntDeliver_only (h : Only ps a s) (x0 x1) (hs : sub [.out, .irq, .counts, .evrQueue, .vat, .sch, .trib, .cur] ps = true) : OnlyR ps a (execPuntDeliver x0 x1 s) := by
  unfold execPuntDeliver
  try dsimp only
  repeat' first
    | with_reducible assumption
    | with_reducible refine idle_only ?_  (sub_of rfl hs)
    | with_reducible refine finish_only ?_  (sub_of rfl hs)
    | with_reducible refine State.puntOut_only ?_ _ _ _ _ (sub_of rfl hs)
    | with_reducible refine finish_only ?_ (sub_of rfl hs)
    | with_reducible refine idle_only ?_
    | split
    | (with_reducible refine Only.foldl _ (fun _ _ _ => ?_) _ _ ?_)
    | ((with_reducible apply upd_only); rotate_left; iterate 39 (first | exact Or.inr (by with_reducible rfl) | exact Or.inl (mem_of_sub hs rfl) | exact Or.inl (sub_of rfl hs) | exact Or.inr rfl | exact Or.inr ⟨rfl, rfl⟩ | exact Or.inr ⟨rfl, rfl, rfl⟩))


end Sys2Proof.Machine
end

