-- ==== Sys2Proof/Laws/OnlyRegRead.lean ====
section
/-! SUPPORT. What each operation of Machine/RegRead.lean may change. -/

set_option linter.unusedTactic false
set_option linter.unreachableTactic false
set_option linter.unusedVariables false
set_option linter.unusedSimpArgs false

namespace Sys2Proof.Machine

variable {ps : List Area} {a s : State}

end Sys2Proof.Machine
end

