-- ==== Sys2Proof/Laws/OnlyRegisters.lean ====
section
/-! SUPPORT. What each operation of Machine/Registers.lean may change. -/

set_option linter.unusedTactic false
set_option linter.unreachableTactic false
set_option linter.unusedVariables false
set_option linter.unusedSimpArgs false

namespace Sys2Proof.Machine

variable {ps : List Area} {a s : State}

theorem State.putBits_only (h : Only ps a s) (x1 x2 x3) (hs : sub [.settings, .status, .shadow] ps = true) : Only ps a (State.putBits s x1 x2 x3) := by
  unfold State.putBits
  try dsimp only
  repeat' first
    | with_reducible assumption
    | with_reducible refine State.setReg_only ?_ _ _ (Or.inr (by first | rfl | (simp; done) | decide)) (Or.inl (mem_of_sub hs rfl))
    | with_reducible refine State.setReg_only ?_ _ _ (Or.inl (mem_of_sub hs rfl)) (Or.inr (by first | rfl | (simp; done) | decide))
    | with_reducible refine State.setReg_only ?_ _ _ (Or.inl (mem_of_sub hs rfl)) (Or.inl (mem_of_sub hs rfl))
    | split
    | (with_reducible refine Only.foldl _ (fun _ _ _ => ?_) _ _ ?_)
    | ((with_reducible apply upd_only); rotate_left; iterate 39 (first | exact Or.inr (by with_reducible rfl) | exact Or.inl (mem_of_sub hs rfl) | exact Or.inl (sub_of rfl hs) | exact Or.inr rfl | exact Or.inr ⟨rfl, rfl⟩ | exact Or.inr ⟨rfl, rfl, rfl⟩))


theorem State.clearBits_only (h : Only ps a s) (x1 x2 x3) (hs : sub [.settings, .status] ps = true) : Only ps a (State.clearBits s x1 x2 x3) := by
  unfold State.clearBits
  try dsimp only
  repeat' first
    | with_reducible assumption
    | with_reducible refine State.setReg_only ?_ _ _ (Or.inr (by first | rfl | (simp; done) | decide)) (Or.inl (mem_of_sub hs rfl))
    | with_reducible refine State.setReg_only ?_ _ _ (Or.inl (mem_of_sub hs rfl)) (Or.inr (by first | rfl | (simp; done) | decide))
    | with_reducible refine State.setReg_only ?_ _ _ (Or.inl (mem_of_sub hs rfl)) (Or.inl (mem_of_sub hs rfl))
    | split
    | (with_reducible refine Only.foldl _ (fun _ _ _ => ?_) _ _ ?_)
    | ((with_reducible apply upd_only); rotate_left; iterate 39 (first | exact Or.inr (by with_reducible rfl) | exact Or.inl (mem_of_sub hs rfl) | exact Or.inl (sub_of rfl hs) | exact Or.inr rfl | exact Or.inr ⟨rfl, rfl⟩ | exact Or.inr ⟨rfl, rfl, rfl⟩))


theorem State.putIf_only (h : Only ps a s) (x1 x2 x3 x4) (hs : sub [.settings, .status, .shadow] ps = true) : Only ps a (State.putIf s x1 x2 x3 x4) := by
  unfold State.putIf
  try dsimp only
  repeat' first
    | with_reducible assumption
    | with_reducible refine State.putBits_only ?_ _ _ _ (sub_of rfl hs)
    | split
    | (with_reducible refine Only.foldl _ (fun _ _ _ => ?_) _ _ ?_)
    | ((with_reducible apply upd_only); rotate_left; iterate 39 (first | exact Or.inr (by with_reducible rfl) | exact Or.inl (mem_of_sub hs rfl) | exact Or.inl (sub_of rfl hs) | exact Or.inr rfl | exact Or.inr ⟨rfl, rfl⟩ | exact Or.inr ⟨rfl, rfl, rfl⟩))


theorem State.stageLow_only (h : Only ps a s) (x1 x2) (hs : sub [.settings, .status] ps = true) : Only ps a (State.stageLow s x1 x2) := by
  unfold State.stageLow
  try dsimp only
  repeat' first
    | with_reducible assumption
    | with_reducible refine State.setReg_only ?_ _ _ (Or.inr (by first | rfl | (simp; done) | decide)) (Or.inl (mem_of_sub hs rfl))
    | with_reducible refine State.setReg_only ?_ _ _ (Or.inl (mem_of_sub hs rfl)) (Or.inr (by first | rfl | (simp; done) | decide))
    | with_reducible refine State.setReg_only ?_ _ _ (Or.inl (mem_of_sub hs rfl)) (Or.inl (mem_of_sub hs rfl))
    | split
    | (with_reducible refine Only.foldl _ (fun _ _ _ => ?_) _ _ ?_)
    | ((with_reducible apply upd_only); rotate_left; iterate 39 (first | exact Or.inr (by with_reducible rfl) | exact Or.inl (mem_of_sub hs rfl) | exact Or.inl (sub_of rfl hs) | exact Or.inr rfl | exact Or.inr ⟨rfl, rfl⟩ | exact Or.inr ⟨rfl, rfl, rfl⟩))


theorem State.putWide_only (h : Only ps a s) (x1 x2 x3 x4) (hs : sub [.settings, .status] ps = true) : Only ps a (State.putWide s x1 x2 x3 x4) := by
  unfold State.putWide
  try dsimp only
  repeat' first
    | with_reducible assumption
    | with_reducible refine State.setReg_only ?_ _ _ (Or.inr (by first | rfl | (simp; done) | decide)) (Or.inl (mem_of_sub hs rfl))
    | with_reducible refine State.setReg_only ?_ _ _ (Or.inl (mem_of_sub hs rfl)) (Or.inr (by first | rfl | (simp; done) | decide))
    | with_reducible refine State.setReg_only ?_ _ _ (Or.inl (mem_of_sub hs rfl)) (Or.inl (mem_of_sub hs rfl))
    | split
    | (with_reducible refine Only.foldl _ (fun _ _ _ => ?_) _ _ ?_)
    | ((with_reducible apply upd_only); rotate_left; iterate 39 (first | exact Or.inr (by with_reducible rfl) | exact Or.inl (mem_of_sub hs rfl) | exact Or.inl (sub_of rfl hs) | exact Or.inr rfl | exact Or.inr ⟨rfl, rfl⟩ | exact Or.inr ⟨rfl, rfl, rfl⟩))


theorem State.writeSys_only (h : Only ps a s) (x1 x2 x3) (hs : sub [.out, .settings, .status, .shadow, .domains, .resetCtl, .irq, .host, .pads, .counts, .gather, .evrQueue, .records, .timeBases, .tim, .otp, .mtp, .slots, .kst, .rng, .uci, .mem, .tmp, .line, .dkl, .lci, .sac, .vat, .sch, .ports, .trib, .tribOld, .sc, .sa, .hbxRr, .cur, .lanes, .felt, .role, .mte] ps = true) : Only ps a (State.writeSys s x1 x2 x3) := by
  unfold State.writeSys
  try dsimp only
  repeat' first
    | with_reducible assumption
    | with_reducible refine State.lockedWrite_only ?_ _ _ _ (sub_of rfl hs)
    | with_reducible refine State.rstCtlWrite_only ?_ _ _ (sub_of rfl hs)
    | with_reducible refine State.rstCfgWrite_only ?_ _ (sub_of rfl hs)
    | with_reducible refine State.clearBits_only ?_ _ _ _ (sub_of rfl hs)
    | split
    | (with_reducible refine Only.foldl _ (fun _ _ _ => ?_) _ _ ?_)
    | ((with_reducible apply upd_only); rotate_left; iterate 39 (first | exact Or.inr (by with_reducible rfl) | exact Or.inl (mem_of_sub hs rfl) | exact Or.inl (sub_of rfl hs) | exact Or.inr rfl | exact Or.inr ⟨rfl, rfl⟩ | exact Or.inr ⟨rfl, rfl, rfl⟩))


theorem State.writeHst_only (h : Only ps a s) (x1 x2 x3) (hs : sub [.settings, .status, .shadow, .host, .counts, .evrQueue] ps = true) : Only ps a (State.writeHst s x1 x2 x3) := by
  unfold State.writeHst
  try dsimp only
  repeat' first
    | with_reducible assumption
    | with_reducible refine State.lockedWrite_only ?_ _ _ _ (sub_of rfl hs)
    | ((with_reducible refine State.modHst_only ?_ _ ?_ ?_); rotate_left; (first | exact Or.inl (mem_of_sub hs rfl) | exact Or.inr (fun _ => rfl)); (first | exact Or.inl (mem_of_sub hs rfl) | exact Or.inr (fun _ => rfl) | exact Or.inr (fun _ => ⟨rfl, rfl⟩) | exact Or.inr (fun _ => ⟨rfl, rfl, rfl⟩)))
    | with_reducible refine State.putBits_only ?_ _ _ _ (sub_of rfl hs)
    | split
    | (with_reducible refine Only.foldl _ (fun _ _ _ => ?_) _ _ ?_)
    | ((with_reducible apply upd_only); rotate_left; iterate 39 (first | exact Or.inr (by with_reducible rfl) | exact Or.inl (mem_of_sub hs rfl) | exact Or.inl (sub_of rfl hs) | exact Or.inr rfl | exact Or.inr ⟨rfl, rfl⟩ | exact Or.inr ⟨rfl, rfl, rfl⟩))


theorem State.unlessLocked_only (h : Only ps a s) (pf : Fin 2) (x v : Nat) (f : State → State)
    (hf : Only ps a s → Only ps a (f s)) (hs : sub [.counts, .evrQueue] ps = true) : Only ps a (s.unlessLocked pf x v f) := by
  unfold State.unlessLocked
  split
  · exact State.lockedWrite_only h _ _ _ hs
  · exact hf h

theorem State.writeTemp_only (h : Only ps a s) (x1) (hs : sub [.settings, .status, .shadow, .bkp] ps = true) : Only ps a (State.writeTemp s x1) := by
  unfold State.writeTemp
  try dsimp only
  repeat' first
    | with_reducible assumption
    | with_reducible refine State.modBkp_only ?_ _ (sub_of rfl hs)
    | with_reducible refine State.putBits_only ?_ _ _ _ (sub_of rfl hs)
    | split
    | (with_reducible refine Only.foldl _ (fun _ _ _ => ?_) _ _ ?_)
    | ((with_reducible apply upd_only); rotate_left; iterate 39 (first | exact Or.inr (by with_reducible rfl) | exact Or.inl (mem_of_sub hs rfl) | exact Or.inl (sub_of rfl hs) | exact Or.inr rfl | exact Or.inr ⟨rfl, rfl⟩ | exact Or.inr ⟨rfl, rfl, rfl⟩))


theorem State.writeTmp_only (h : Only ps a s) (x1 x2 x3) (hs : sub [.settings, .status, .shadow, .counts, .evrQueue, .kst, .tmp, .bkp] ps = true) : Only ps a (State.writeTmp s x1 x2 x3) := by
  unfold State.writeTmp
  try dsimp only
  repeat' first
    | with_reducible assumption
    | with_reducible refine State.modTmp_only ?_ _ (sub_of rfl hs)
    | with_reducible refine State.modBkp_only ?_ _ (sub_of rfl hs)
    | with_reducible refine State.lockedWrite_only ?_ _ _ _ (sub_of rfl hs)
    | with_reducible refine State.fuseTgt_only ?_ _ (sub_of rfl hs)
    | with_reducible refine State.bistWrite_only ?_ _ (sub_of rfl hs)
    | with_reducible refine State.fuseGo_only ?_ _ (sub_of rfl hs)
    | with_reducible refine State.clearBits_only ?_ _ _ _ (sub_of rfl hs)
    | with_reducible refine State.putBits_only ?_ _ _ _ (sub_of rfl hs)
    | ((with_reducible refine State.unlessLocked_only ?_ _ _ _ _ (fun _ => ?_) (sub_of rfl hs)); rotate_left)
    | with_reducible refine State.writeTemp_only ?_ _ (sub_of rfl hs)
    | with_reducible refine State.putIf_only ?_ _ _ _ _ (sub_of rfl hs)
    | (with_reducible refine Only.ite ?_ ?_)
    | split
    | (with_reducible refine Only.foldl _ (fun _ _ _ => ?_) _ _ ?_)
    | ((with_reducible apply upd_only); rotate_left; iterate 39 (first | exact Or.inr (by with_reducible rfl) | exact Or.inl (mem_of_sub hs rfl) | exact Or.inl (sub_of rfl hs) | exact Or.inr rfl | exact Or.inr ⟨rfl, rfl⟩ | exact Or.inr ⟨rfl, rfl, rfl⟩))


theorem State.writeKst_only (h : Only ps a s) (x1 x2 x3) (hs : sub [.out, .settings, .status, .counts, .evrQueue, .slots, .kst, .rng, .uci, .mem, .tmp, .bkp, .lci, .sac, .vat, .sch, .trib, .sc, .sa, .cur, .mte] ps = true) : Only ps a (State.writeKst s x1 x2 x3) := by
  unfold State.writeKst
  try dsimp only
  repeat' first
    | with_reducible assumption
    | with_reducible refine State.lockedWrite_only ?_ _ _ _ (sub_of rfl hs)
    | ((with_reducible refine State.modKst_only ?_ _ ?_ ?_); rotate_left; (first | exact Or.inl (mem_of_sub hs rfl) | exact Or.inr (fun _ => rfl)); (first | exact Or.inl (mem_of_sub hs rfl) | exact Or.inr (fun _ => rfl) | exact Or.inr (fun _ => ⟨rfl, rfl⟩) | exact Or.inr (fun _ => ⟨rfl, rfl, rfl⟩)))
    | with_reducible refine State.provGo_only ?_ _ (sub_of rfl hs)
    | with_reducible refine State.lcTarget_only ?_ _ (sub_of rfl hs)
    | with_reducible refine State.lcGo_only ?_ _ (sub_of rfl hs)
    | with_reducible refine State.clearBits_only ?_ _ _ _ (sub_of rfl hs)
    | split
    | (with_reducible refine Only.foldl _ (fun _ _ _ => ?_) _ _ ?_)
    | ((with_reducible apply upd_only); rotate_left; iterate 39 (first | exact Or.inr (by with_reducible rfl) | exact Or.inl (mem_of_sub hs rfl) | exact Or.inl (sub_of rfl hs) | exact Or.inr rfl | exact Or.inr ⟨rfl, rfl⟩ | exact Or.inr ⟨rfl, rfl, rfl⟩))


theorem State.writeRngCtl_only (h : Only ps a s) (x1) (hs : sub [.settings, .status, .shadow, .rng] ps = true) : Only ps a (State.writeRngCtl s x1) := by
  unfold State.writeRngCtl
  try dsimp only
  repeat' first
    | with_reducible assumption
    | with_reducible refine State.rngTest_only ?_ _ (sub_of rfl hs)
    | with_reducible refine State.rngRestart_only ?_  (sub_of rfl hs)
    | with_reducible refine State.putIf_only ?_ _ _ _ _ (sub_of rfl hs)
    | split
    | (with_reducible refine Only.foldl _ (fun _ _ _ => ?_) _ _ ?_)
    | ((with_reducible apply upd_only); rotate_left; iterate 39 (first | exact Or.inr (by with_reducible rfl) | exact Or.inl (mem_of_sub hs rfl) | exact Or.inl (sub_of rfl hs) | exact Or.inr rfl | exact Or.inr ⟨rfl, rfl⟩ | exact Or.inr ⟨rfl, rfl, rfl⟩))


theorem State.writeRng_only (h : Only ps a s) (x1 x2 x3) (hs : sub [.settings, .status, .shadow, .counts, .evrQueue, .rng] ps = true) : Only ps a (State.writeRng s x1 x2 x3) := by
  unfold State.writeRng
  try dsimp only
  repeat' first
    | with_reducible assumption
    | with_reducible refine State.lockedWrite_only ?_ _ _ _ (sub_of rfl hs)
    | with_reducible refine State.writeRngCtl_only ?_ _ (sub_of rfl hs)
    | with_reducible refine State.clearBits_only ?_ _ _ _ (sub_of rfl hs)
    | with_reducible refine State.putIf_only ?_ _ _ _ _ (sub_of rfl hs)
    | with_reducible refine State.putBits_only ?_ _ _ _ (sub_of rfl hs)
    | split
    | (with_reducible refine Only.foldl _ (fun _ _ _ => ?_) _ _ ?_)
    | ((with_reducible apply upd_only); rotate_left; iterate 39 (first | exact Or.inr (by with_reducible rfl) | exact Or.inl (mem_of_sub hs rfl) | exact Or.inl (sub_of rfl hs) | exact Or.inr rfl | exact Or.inr ⟨rfl, rfl⟩ | exact Or.inr ⟨rfl, rfl, rfl⟩))


theorem State.writeUci_only (h : Only ps a s) (x1 x2 x3) (hs : sub [.out, .settings, .status, .shadow, .host, .pads, .counts, .evrQueue, .slots, .kst, .rng, .uci, .mem, .line, .cur, .role, .mte] ps = true) : Only ps a (State.writeUci s x1 x2 x3) := by
  unfold State.writeUci
  try dsimp only
  repeat' first
    | with_reducible assumption
    | with_reducible refine State.lockedWrite_only ?_ _ _ _ (sub_of rfl hs)
    | with_reducible refine State.uciGo_only ?_ _ _ (sub_of rfl hs)
    | with_reducible refine State.uciLoadWrite_only ?_ _ (sub_of rfl hs)
    | with_reducible refine State.clearBits_only ?_ _ _ _ (sub_of rfl hs)
    | with_reducible refine State.putBits_only ?_ _ _ _ (sub_of rfl hs)
    | split
    | (with_reducible refine Only.foldl _ (fun _ _ _ => ?_) _ _ ?_)
    | ((with_reducible apply upd_only); rotate_left; iterate 39 (first | exact Or.inr (by with_reducible rfl) | exact Or.inl (mem_of_sub hs rfl) | exact Or.inl (sub_of rfl hs) | exact Or.inr rfl | exact Or.inr ⟨rfl, rfl⟩ | exact Or.inr ⟨rfl, rfl, rfl⟩))


theorem State.writeTb_only (h : Only ps a s) (x1 x2 x3) (hs : sub [.out, .settings, .status, .shadow, .counts, .evrQueue, .lci, .cur, .mte] ps = true) : Only ps a (State.writeTb s x1 x2 x3) := by
  unfold State.writeTb
  try dsimp only
  repeat' first
    | with_reducible assumption
    | with_reducible refine State.setBit_only ?_ _ _ _ (Or.inr (by first | rfl | (simp; done) | decide)) (Or.inl (mem_of_sub hs rfl))
    | with_reducible refine State.setBit_only ?_ _ _ _ (Or.inl (mem_of_sub hs rfl)) (Or.inr (by first | rfl | (simp; done) | decide))
    | with_reducible refine State.setBit_only ?_ _ _ _ (Or.inl (mem_of_sub hs rfl)) (Or.inl (mem_of_sub hs rfl))
    | with_reducible refine State.tbStop_only ?_ _ (sub_of rfl hs)
    | with_reducible refine State.clearBits_only ?_ _ _ _ (sub_of rfl hs)
    | with_reducible refine State.putIf_only ?_ _ _ _ _ (sub_of rfl hs)
    | split
    | (with_reducible refine Only.foldl _ (fun _ _ _ => ?_) _ _ ?_)
    | ((with_reducible apply upd_only); rotate_left; iterate 39 (first | exact Or.inr (by with_reducible rfl) | exact Or.inl (mem_of_sub hs rfl) | exact Or.inl (sub_of rfl hs) | exact Or.inr rfl | exact Or.inr ⟨rfl, rfl⟩ | exact Or.inr ⟨rfl, rfl, rfl⟩))


theorem State.writePps_only (h : Only ps a s) (x1) (hs : sub [.out, .settings, .status, .shadow, .pads, .tim] ps = true) : Only ps a (State.writePps s x1) := by
  unfold State.writePps
  try dsimp only
  repeat' first
    | with_reducible assumption
    | ((with_reducible refine State.modTim_only ?_ _ ?_ ?_); rotate_left; (first | exact Or.inl (mem_of_sub hs rfl) | exact Or.inr (fun _ => rfl)); (first | exact Or.inl (mem_of_sub hs rfl) | exact Or.inr (fun _ => rfl) | exact Or.inr (fun _ => ⟨rfl, rfl⟩) | exact Or.inr (fun _ => ⟨rfl, rfl, rfl⟩)))
    | with_reducible refine State.drivePin_only ?_ _ _ (sub_of rfl hs)
    | with_reducible refine State.putIf_only ?_ _ _ _ _ (sub_of rfl hs)
    | with_reducible refine State.putBits_only ?_ _ _ _ (sub_of rfl hs)
    | split
    | (with_reducible refine Only.foldl _ (fun _ _ _ => ?_) _ _ ?_)
    | ((with_reducible apply upd_only); rotate_left; iterate 39 (first | exact Or.inr (by with_reducible rfl) | exact Or.inl (mem_of_sub hs rfl) | exact Or.inl (sub_of rfl hs) | exact Or.inr rfl | exact Or.inr ⟨rfl, rfl⟩ | exact Or.inr ⟨rfl, rfl, rfl⟩))


theorem State.writeTim_only (h : Only ps a s) (x1 x2) (hs : sub [.out, .settings, .status, .shadow, .pads, .counts, .evrQueue, .tim, .lci, .cur, .mte] ps = true) : Only ps a (State.writeTim s x1 x2) := by
  unfold State.writeTim
  try dsimp only
  repeat' first
    | with_reducible assumption
    | with_reducible refine State.putIf_only ?_ _ _ _ _ (sub_of rfl hs)
    | with_reducible refine State.clearBits_only ?_ _ _ _ (sub_of rfl hs)
    | with_reducible refine State.writeTb_only ?_ _ _ _ (sub_of rfl hs)
    | with_reducible refine State.writePps_only ?_ _ (sub_of rfl hs)
    | with_reducible refine State.putBits_only ?_ _ _ _ (sub_of rfl hs)
    | split
    | (with_reducible refine Only.foldl _ (fun _ _ _ => ?_) _ _ ?_)
    | ((with_reducible apply upd_only); rotate_left; iterate 39 (first | exact Or.inr (by with_reducible rfl) | exact Or.inl (mem_of_sub hs rfl) | exact Or.inl (sub_of rfl hs) | exact Or.inr rfl | exact Or.inr ⟨rfl, rfl⟩ | exact Or.inr ⟨rfl, rfl, rfl⟩))


theorem State.writePmc_only (h : Only ps a s) (x1 x2) (hs : sub [.settings, .status, .shadow, .counts, .gather] ps = true) : Only ps a (State.writePmc s x1 x2) := by
  unfold State.writePmc
  try dsimp only
  repeat' first
    | with_reducible assumption
    | ((with_reducible refine State.modPmc_only ?_ _ ?_ ?_); rotate_left; (first | exact Or.inl (mem_of_sub hs rfl) | exact Or.inr (fun _ => rfl)); (first | exact Or.inl (mem_of_sub hs rfl) | exact Or.inr (fun _ => rfl) | exact Or.inr (fun _ => ⟨rfl, rfl⟩) | exact Or.inr (fun _ => ⟨rfl, rfl, rfl⟩)))
    | with_reducible refine State.putIf_only ?_ _ _ _ _ (sub_of rfl hs)
    | with_reducible refine State.putBits_only ?_ _ _ _ (sub_of rfl hs)
    | split
    | (with_reducible refine Only.foldl _ (fun _ _ _ => ?_) _ _ ?_)
    | ((with_reducible apply upd_only); rotate_left; iterate 39 (first | exact Or.inr (by with_reducible rfl) | exact Or.inl (mem_of_sub hs rfl) | exact Or.inl (sub_of rfl hs) | exact Or.inr rfl | exact Or.inr ⟨rfl, rfl⟩ | exact Or.inr ⟨rfl, rfl, rfl⟩))


theorem State.writeEvr_only (h : Only ps a s) (x1 x2) (hs : sub [.settings, .status, .shadow, .evrQueue, .records] ps = true) : Only ps a (State.writeEvr s x1 x2) := by
  unfold State.writeEvr
  try dsimp only
  repeat' first
    | with_reducible assumption
    | ((with_reducible refine State.modEvr_only ?_ _ ?_ ?_); rotate_left; (first | exact Or.inl (mem_of_sub hs rfl) | exact Or.inr (fun _ => rfl)); (first | exact Or.inl (mem_of_sub hs rfl) | exact Or.inr (fun _ => rfl) | exact Or.inr (fun _ => ⟨rfl, rfl⟩) | exact Or.inr (fun _ => ⟨rfl, rfl, rfl⟩)))
    | with_reducible refine State.putIf_only ?_ _ _ _ _ (sub_of rfl hs)
    | with_reducible refine State.putBits_only ?_ _ _ _ (sub_of rfl hs)
    | split
    | (with_reducible refine Only.foldl _ (fun _ _ _ => ?_) _ _ ?_)
    | ((with_reducible apply upd_only); rotate_left; iterate 39 (first | exact Or.inr (by with_reducible rfl) | exact Or.inl (mem_of_sub hs rfl) | exact Or.inl (sub_of rfl hs) | exact Or.inr rfl | exact Or.inr ⟨rfl, rfl⟩ | exact Or.inr ⟨rfl, rfl, rfl⟩))


theorem State.writeMteCtl_only (h : Only ps a s) (x1) (hs : sub [.out, .settings, .status, .shadow, .host, .pads, .counts, .evrQueue, .rng, .role, .mte] ps = true) : Only ps a (State.writeMteCtl s x1) := by
  unfold State.writeMteCtl
  try dsimp only
  repeat' first
    | with_reducible assumption
    | with_reducible refine State.writeActReq_only ?_ _ (sub_of rfl hs)
    | with_reducible refine State.writeMteEn_only ?_ _ (sub_of rfl hs)
    | with_reducible refine State.putIf_only ?_ _ _ _ _ (sub_of rfl hs)
    | with_reducible refine State.putBits_only ?_ _ _ _ (sub_of rfl hs)
    | split
    | (with_reducible refine Only.foldl _ (fun _ _ _ => ?_) _ _ ?_)
    | ((with_reducible apply upd_only); rotate_left; iterate 39 (first | exact Or.inr (by with_reducible rfl) | exact Or.inl (mem_of_sub hs rfl) | exact Or.inl (sub_of rfl hs) | exact Or.inr rfl | exact Or.inr ⟨rfl, rfl⟩ | exact Or.inr ⟨rfl, rfl, rfl⟩))


theorem State.writeMte_only (h : Only ps a s) (x1 x2 x3) (hs : sub [.out, .settings, .status, .shadow, .host, .pads, .counts, .evrQueue, .rng, .role, .mte] ps = true) : Only ps a (State.writeMte s x1 x2 x3) := by
  unfold State.writeMte
  try dsimp only
  repeat' first
    | with_reducible assumption
    | with_reducible refine State.lockedWrite_only ?_ _ _ _ (sub_of rfl hs)
    | with_reducible refine State.cmdClrDiverged_only ?_  (sub_of rfl hs)
    | with_reducible refine State.cmdSwitch_only ?_  (sub_of rfl hs)
    | with_reducible refine State.cmdSelftest_only ?_  (sub_of rfl hs)
    | with_reducible refine State.writeMteCtl_only ?_ _ (sub_of rfl hs)
    | with_reducible refine State.clearBits_only ?_ _ _ _ (sub_of rfl hs)
    | with_reducible refine State.putIf_only ?_ _ _ _ _ (sub_of rfl hs)
    | split
    | (with_reducible refine Only.foldl _ (fun _ _ _ => ?_) _ _ ?_)
    | ((with_reducible apply upd_only); rotate_left; iterate 39 (first | exact Or.inr (by with_reducible rfl) | exact Or.inl (mem_of_sub hs rfl) | exact Or.inl (sub_of rfl hs) | exact Or.inr rfl | exact Or.inr ⟨rfl, rfl⟩ | exact Or.inr ⟨rfl, rfl, rfl⟩))


theorem State.writeRgn_only (h : Only ps a s) (x1 x2 x3 x4) (hs : sub [.out, .settings, .status, .shadow, .host, .pads, .counts, .evrQueue, .slots, .kst, .rng, .uci, .mem, .line, .sac, .cur, .role, .mte] ps = true) : Only ps a (State.writeRgn s x1 x2 x3 x4) := by
  unfold State.writeRgn
  try dsimp only
  repeat' first
    | with_reducible assumption
    | with_reducible refine State.lockedWrite_only ?_ _ _ _ (sub_of rfl hs)
    | with_reducible refine State.regionUnload_only ?_ _ (sub_of rfl hs)
    | with_reducible refine State.regionKeyWrite_only ?_ _ _ (sub_of rfl hs)
    | with_reducible refine State.putIf_only ?_ _ _ _ _ (sub_of rfl hs)
    | with_reducible refine State.clearBits_only ?_ _ _ _ (sub_of rfl hs)
    | split
    | (with_reducible refine Only.foldl _ (fun _ _ _ => ?_) _ _ ?_)
    | ((with_reducible apply upd_only); rotate_left; iterate 39 (first | exact Or.inr (by with_reducible rfl) | exact Or.inl (mem_of_sub hs rfl) | exact Or.inl (sub_of rfl hs) | exact Or.inr rfl | exact Or.inr ⟨rfl, rfl⟩ | exact Or.inr ⟨rfl, rfl, rfl⟩))


theorem State.writeWin_only (h : Only ps a s) (x1 x2 x3) (hs : sub [.settings, .status, .shadow, .counts, .evrQueue, .mem] ps = true) : Only ps a (State.writeWin s x1 x2 x3) := by
  unfold State.writeWin
  try dsimp only
  repeat' first
    | with_reducible assumption
    | with_reducible refine State.lockedWrite_only ?_ _ _ _ (sub_of rfl hs)
    | with_reducible refine State.winGo_only ?_ _ (sub_of rfl hs)
    | with_reducible refine State.putBits_only ?_ _ _ _ (sub_of rfl hs)
    | split
    | (with_reducible refine Only.foldl _ (fun _ _ _ => ?_) _ _ ?_)
    | ((with_reducible apply upd_only); rotate_left; iterate 39 (first | exact Or.inr (by with_reducible rfl) | exact Or.inl (mem_of_sub hs rfl) | exact Or.inl (sub_of rfl hs) | exact Or.inr rfl | exact Or.inr ⟨rfl, rfl⟩ | exact Or.inr ⟨rfl, rfl, rfl⟩))


theorem State.writeMem_only (h : Only ps a s) (x1 x2 x3) (hs : sub [.out, .settings, .status, .shadow, .host, .pads, .counts, .evrQueue, .slots, .kst, .rng, .uci, .mem, .line, .sac, .cur, .role, .mte] ps = true) : Only ps a (State.writeMem s x1 x2 x3) := by
  unfold State.writeMem
  try dsimp only
  repeat' first
    | with_reducible assumption
    | with_reducible refine State.modMem_only ?_ _ (sub_of rfl hs)
    | with_reducible refine State.trainWrite_only ?_ _ (sub_of rfl hs)
    | with_reducible refine State.putBits_only ?_ _ _ _ (sub_of rfl hs)
    | with_reducible refine State.clearBits_only ?_ _ _ _ (sub_of rfl hs)
    | with_reducible refine State.putIf_only ?_ _ _ _ _ (sub_of rfl hs)
    | with_reducible refine State.writeRgn_only ?_ _ _ _ _ (sub_of rfl hs)
    | with_reducible refine State.writeWin_only ?_ _ _ _ (sub_of rfl hs)
    | split
    | (with_reducible refine Only.foldl _ (fun _ _ _ => ?_) _ _ ?_)
    | ((with_reducible apply upd_only); rotate_left; iterate 39 (first | exact Or.inr (by with_reducible rfl) | exact Or.inl (mem_of_sub hs rfl) | exact Or.inl (sub_of rfl hs) | exact Or.inr rfl | exact Or.inr ⟨rfl, rfl⟩ | exact Or.inr ⟨rfl, rfl, rfl⟩))


theorem State.writeSer_only (h : Only ps a s) (x1 x2 x3) (hs : sub [.out, .settings, .status, .shadow, .counts, .evrQueue, .tim, .line, .lanes, .felt, .mte] ps = true) : Only ps a (State.writeSer s x1 x2 x3) := by
  unfold State.writeSer
  try dsimp only
  repeat' first
    | with_reducible assumption
    | with_reducible refine State.serCtlWrite_only ?_ _ _ (sub_of rfl hs)
    | with_reducible refine State.eyeWrite_only ?_ _ _ (sub_of rfl hs)
    | with_reducible refine State.clearBits_only ?_ _ _ _ (sub_of rfl hs)
    | with_reducible refine State.putIf_only ?_ _ _ _ _ (sub_of rfl hs)
    | with_reducible refine State.putBits_only ?_ _ _ _ (sub_of rfl hs)
    | split
    | (with_reducible refine Only.foldl _ (fun _ _ _ => ?_) _ _ ?_)
    | ((with_reducible apply upd_only); rotate_left; iterate 39 (first | exact Or.inr (by with_reducible rfl) | exact Or.inl (mem_of_sub hs rfl) | exact Or.inl (sub_of rfl hs) | exact Or.inr rfl | exact Or.inr ⟨rfl, rfl⟩ | exact Or.inr ⟨rfl, rfl, rfl⟩))


theorem State.writeRcfg_only (h : Only ps a s) (x1 x2) (hs : sub [.settings, .status, .shadow, .cur] ps = true) : Only ps a (State.writeRcfg s x1 x2) := by
  unfold State.writeRcfg
  try dsimp only
  repeat' first
    | with_reducible assumption
    | with_reducible refine State.ringOff_only ?_ _ (sub_of rfl hs)
    | with_reducible refine State.ringOn_only ?_ _ (sub_of rfl hs)
    | with_reducible refine State.putIf_only ?_ _ _ _ _ (sub_of rfl hs)
    | with_reducible refine State.putBits_only ?_ _ _ _ (sub_of rfl hs)
    | split
    | (with_reducible refine Only.foldl _ (fun _ _ _ => ?_) _ _ ?_)
    | ((with_reducible apply upd_only); rotate_left; iterate 39 (first | exact Or.inr (by with_reducible rfl) | exact Or.inl (mem_of_sub hs rfl) | exact Or.inl (sub_of rfl hs) | exact Or.inr rfl | exact Or.inr ⟨rfl, rfl⟩ | exact Or.inr ⟨rfl, rfl, rfl⟩))


theorem State.writeRing_only (h : Only ps a s) (x1 x2 x3 x4 x5) (hs : sub [.settings, .status, .shadow, .counts, .evrQueue, .cur] ps = true) : Only ps a (State.writeRing s x1 x2 x3 x4 x5) := by
  unfold State.writeRing
  try dsimp only
  repeat' first
    | with_reducible assumption
    | with_reducible refine State.lockedWrite_only ?_ _ _ _ (sub_of rfl hs)
    | with_reducible refine State.modRing_only ?_ _ _ (sub_of rfl hs)
    | with_reducible refine State.cqHeadTo_only ?_ _ _ (sub_of rfl hs)
    | with_reducible refine State.doorbell_only ?_ _ _ (sub_of rfl hs)
    | with_reducible refine State.writeRcfg_only ?_ _ _ (sub_of rfl hs)
    | with_reducible refine State.putIf_only ?_ _ _ _ _ (sub_of rfl hs)
    | split
    | (with_reducible refine Only.foldl _ (fun _ _ _ => ?_) _ _ ?_)
    | ((with_reducible apply upd_only); rotate_left; iterate 39 (first | exact Or.inr (by with_reducible rfl) | exact Or.inl (mem_of_sub hs rfl) | exact Or.inl (sub_of rfl hs) | exact Or.inr rfl | exact Or.inr ⟨rfl, rfl⟩ | exact Or.inr ⟨rfl, rfl, rfl⟩))


theorem State.writeCur_only (h : Only ps a s) (x1 x2 x3) (hs : sub [.settings, .status, .shadow, .counts, .evrQueue, .cur] ps = true) : Only ps a (State.writeCur s x1 x2 x3) := by
  unfold State.writeCur
  try dsimp only
  repeat' first
    | with_reducible assumption
    | with_reducible refine State.abiWrite_only ?_ _ _ _ (sub_of rfl hs)
    | with_reducible refine State.writeRing_only ?_ _ _ _ _ _ (sub_of rfl hs)
    | with_reducible refine State.putIf_only ?_ _ _ _ _ (sub_of rfl hs)
    | split
    | (with_reducible refine Only.foldl _ (fun _ _ _ => ?_) _ _ ?_)
    | ((with_reducible apply upd_only); rotate_left; iterate 39 (first | exact Or.inr (by with_reducible rfl) | exact Or.inl (mem_of_sub hs rfl) | exact Or.inl (sub_of rfl hs) | exact Or.inr rfl | exact Or.inr ⟨rfl, rfl⟩ | exact Or.inr ⟨rfl, rfl, rfl⟩))


theorem State.writeLnfCtl_only (h : Only ps a s) (x1 x2) (hs : sub [.out, .settings, .status, .shadow, .counts, .evrQueue, .tim, .rng, .line, .dkl, .lci, .sch, .trib, .cur, .lanes, .felt, .mte] ps = true) : Only ps a (State.writeLnfCtl s x1 x2) := by
  unfold State.writeLnfCtl
  try dsimp only
  repeat' first
    | with_reducible assumption
    | with_reducible refine State.writeLaneUse_only ?_ _ _ (sub_of rfl hs)
    | with_reducible refine State.setTxEn_only ?_ _ _ (sub_of rfl hs)
    | with_reducible refine State.setHuntEn_only ?_ _ _ (sub_of rfl hs)
    | with_reducible refine State.setWmEn_only ?_ _ _ (sub_of rfl hs)
    | with_reducible refine State.setRxEn_only ?_ _ _ (sub_of rfl hs)
    | with_reducible refine laneAfter_only ?_ _ _ (sub_of rfl hs)
    | with_reducible refine State.putIf_only ?_ _ _ _ _ (sub_of rfl hs)
    | with_reducible refine State.putBits_only ?_ _ _ _ (sub_of rfl hs)
    | split
    | (with_reducible refine Only.foldl _ (fun _ _ _ => ?_) _ _ ?_)
    | ((with_reducible apply upd_only); rotate_left; iterate 39 (first | exact Or.inr (by with_reducible rfl) | exact Or.inl (mem_of_sub hs rfl) | exact Or.inl (sub_of rfl hs) | exact Or.inr rfl | exact Or.inr ⟨rfl, rfl⟩ | exact Or.inr ⟨rfl, rfl, rfl⟩))


theorem State.writeDlgCtl_only (h : Only ps a s) (x1 x2 x3) (hs : sub [.settings, .status, .shadow, .counts, .evrQueue, .rng, .line] ps = true) : Only ps a (State.writeDlgCtl s x1 x2 x3) := by
  unfold State.writeDlgCtl
  try dsimp only
  repeat' first
    | with_reducible assumption
    | with_reducible refine State.writeReneg_only ?_ _ (sub_of rfl hs)
    | with_reducible refine State.writeSend_only ?_ _ _ _ (sub_of rfl hs)
    | with_reducible refine State.putIf_only ?_ _ _ _ _ (sub_of rfl hs)
    | with_reducible refine State.clearBits_only ?_ _ _ _ (sub_of rfl hs)
    | split
    | (with_reducible refine Only.foldl _ (fun _ _ _ => ?_) _ _ ?_)
    | ((with_reducible apply upd_only); rotate_left; iterate 39 (first | exact Or.inr (by with_reducible rfl) | exact Or.inl (mem_of_sub hs rfl) | exact Or.inl (sub_of rfl hs) | exact Or.inr rfl | exact Or.inr ⟨rfl, rfl⟩ | exact Or.inr ⟨rfl, rfl, rfl⟩))


theorem State.writeLnf_only (h : Only ps a s) (x1 x2 x3 x4) (hs : sub [.out, .settings, .status, .shadow, .counts, .evrQueue, .tim, .rng, .line, .dkl, .lci, .sch, .trib, .cur, .lanes, .felt, .mte] ps = true) : Only ps a (State.writeLnf s x1 x2 x3 x4) := by
  unfold State.writeLnf
  try dsimp only
  repeat' first
    | with_reducible assumption
    | with_reducible refine State.lockedWrite_only ?_ _ _ _ (sub_of rfl hs)
    | with_reducible refine State.writeLnfCtl_only ?_ _ _ (sub_of rfl hs)
    | with_reducible refine State.clearBits_only ?_ _ _ _ (sub_of rfl hs)
    | with_reducible refine State.putBits_only ?_ _ _ _ (sub_of rfl hs)
    | with_reducible refine State.writeDlgCtl_only ?_ _ _ _ (sub_of rfl hs)
    | split
    | (with_reducible refine Only.foldl _ (fun _ _ _ => ?_) _ _ ?_)
    | ((with_reducible apply upd_only); rotate_left; iterate 39 (first | exact Or.inr (by with_reducible rfl) | exact Or.inl (mem_of_sub hs rfl) | exact Or.inl (sub_of rfl hs) | exact Or.inr rfl | exact Or.inr ⟨rfl, rfl⟩ | exact Or.inr ⟨rfl, rfl, rfl⟩))


theorem State.writeLci_only (h : Only ps a s) (x1 x2 x3) (hs : sub [.settings, .status, .shadow] ps = true) : Only ps a (State.writeLci s x1 x2 x3) := by
  unfold State.writeLci
  try dsimp only
  repeat' first
    | with_reducible assumption
    | with_reducible refine State.putWide_only ?_ _ _ _ _ (sub_of rfl hs)
    | with_reducible refine State.putIf_only ?_ _ _ _ _ (sub_of rfl hs)
    | with_reducible refine State.clearBits_only ?_ _ _ _ (sub_of rfl hs)
    | with_reducible refine State.stageLow_only ?_ _ _ (sub_of rfl hs)
    | with_reducible refine State.putBits_only ?_ _ _ _ (sub_of rfl hs)
    | split
    | (with_reducible refine Only.foldl _ (fun _ _ _ => ?_) _ _ ?_)
    | ((with_reducible apply upd_only); rotate_left; iterate 39 (first | exact Or.inr (by with_reducible rfl) | exact Or.inl (mem_of_sub hs rfl) | exact Or.inl (sub_of rfl hs) | exact Or.inr rfl | exact Or.inr ⟨rfl, rfl⟩ | exact Or.inr ⟨rfl, rfl, rfl⟩))


theorem State.writeFci_only (h : Only ps a s) (x1 x2 x3) (hs : sub [.settings, .status, .shadow] ps = true) : Only ps a (State.writeFci s x1 x2 x3) := by
  unfold State.writeFci
  try dsimp only
  repeat' first
    | with_reducible assumption
    | with_reducible refine State.stageLow_only ?_ _ _ (sub_of rfl hs)
    | with_reducible refine State.putIf_only ?_ _ _ _ _ (sub_of rfl hs)
    | with_reducible refine State.putWide_only ?_ _ _ _ _ (sub_of rfl hs)
    | with_reducible refine State.putBits_only ?_ _ _ _ (sub_of rfl hs)
    | split
    | (with_reducible refine Only.foldl _ (fun _ _ _ => ?_) _ _ ?_)
    | ((with_reducible apply upd_only); rotate_left; iterate 39 (first | exact Or.inr (by with_reducible rfl) | exact Or.inl (mem_of_sub hs rfl) | exact Or.inl (sub_of rfl hs) | exact Or.inr rfl | exact Or.inr ⟨rfl, rfl⟩ | exact Or.inr ⟨rfl, rfl, rfl⟩))


theorem State.writeSch_only (h : Only ps a s) (x1 x2 x3) (hs : sub [.settings, .status, .shadow] ps = true) : Only ps a (State.writeSch s x1 x2 x3) := by
  unfold State.writeSch
  try dsimp only
  repeat' first
    | with_reducible assumption
    | with_reducible refine State.putIf_only ?_ _ _ _ _ (sub_of rfl hs)
    | with_reducible refine State.clearBits_only ?_ _ _ _ (sub_of rfl hs)
    | with_reducible refine State.putBits_only ?_ _ _ _ (sub_of rfl hs)
    | split
    | (with_reducible refine Only.foldl _ (fun _ _ _ => ?_) _ _ ?_)
    | ((with_reducible apply upd_only); rotate_left; iterate 39 (first | exact Or.inr (by with_reducible rfl) | exact Or.inl (mem_of_sub hs rfl) | exact Or.inl (sub_of rfl hs) | exact Or.inr rfl | exact Or.inr ⟨rfl, rfl⟩ | exact Or.inr ⟨rfl, rfl, rfl⟩))


theorem State.writeDkl_only (h : Only ps a s) (x1 x2 x3) (hs : sub [.settings, .status, .shadow, .dkl] ps = true) : Only ps a (State.writeDkl s x1 x2 x3) := by
  unfold State.writeDkl
  try dsimp only
  repeat' first
    | with_reducible assumption
    | with_reducible refine State.autoRestore_only ?_ _ (sub_of rfl hs)
    | with_reducible refine State.putIf_only ?_ _ _ _ _ (sub_of rfl hs)
    | with_reducible refine State.clearBits_only ?_ _ _ _ (sub_of rfl hs)
    | with_reducible refine State.putBits_only ?_ _ _ _ (sub_of rfl hs)
    | split
    | (with_reducible refine Only.foldl _ (fun _ _ _ => ?_) _ _ ?_)
    | ((with_reducible apply upd_only); rotate_left; iterate 39 (first | exact Or.inr (by with_reducible rfl) | exact Or.inl (mem_of_sub hs rfl) | exact Or.inl (sub_of rfl hs) | exact Or.inr rfl | exact Or.inr ⟨rfl, rfl⟩ | exact Or.inr ⟨rfl, rfl, rfl⟩))


theorem State.ifOpen_only (h : Only ps a s) (pf : Fin 2) (m : Fin 4) (c : Fin 8) (x v : Nat) (f : State → State)
    (hf : Only ps a s → Only ps a (f s)) (hs : sub [.counts, .evrQueue] ps = true) : Only ps a (s.ifOpen pf m c x v f) := by
  unfold State.ifOpen
  split
  · exact hf h
  · exact State.lockedWrite_only h _ _ _ hs

theorem State.writeCluster_only (h : Only ps a s) (x1 x2 x3 x4 x5 x6) (hs : sub [.settings, .status, .shadow, .counts, .evrQueue, .vat, .sch, .ports] ps = true) : Only ps a (State.writeCluster s x1 x2 x3 x4 x5 x6) := by
  unfold State.writeCluster
  try dsimp only
  repeat' first
    | with_reducible assumption
    | with_reducible refine State.clusterStop_only ?_ _ _ (sub_of rfl hs)
    | with_reducible refine State.clusterRun_only ?_ _ _ (sub_of rfl hs)
    | ((with_reducible refine State.ifOpen_only ?_ _ _ _ _ _ _ (fun _ => ?_) (sub_of rfl hs)); rotate_left)
    | with_reducible refine State.putBits_only ?_ _ _ _ (sub_of rfl hs)
    | split
    | (with_reducible refine Only.foldl _ (fun _ _ _ => ?_) _ _ ?_)
    | ((with_reducible apply upd_only); rotate_left; iterate 39 (first | exact Or.inr (by with_reducible rfl) | exact Or.inl (mem_of_sub hs rfl) | exact Or.inl (sub_of rfl hs) | exact Or.inr rfl | exact Or.inr ⟨rfl, rfl⟩ | exact Or.inr ⟨rfl, rfl, rfl⟩))


theorem State.writeVat_only (h : Only ps a s) (x1 x2 x3 x4) (hs : sub [.settings, .status, .shadow, .counts, .evrQueue, .vat, .sch, .ports] ps = true) : Only ps a (State.writeVat s x1 x2 x3 x4) := by
  unfold State.writeVat
  try dsimp only
  repeat' first
    | with_reducible assumption
    | with_reducible refine State.modVat_only ?_ _ _ (sub_of rfl hs)
    | with_reducible refine State.tcamCmd_only ?_ _ _ _ (sub_of rfl hs)
    | with_reducible refine State.htCmd_only ?_ _ _ _ (sub_of rfl hs)
    | with_reducible refine State.writeCluster_only ?_ _ _ _ _ _ _ (sub_of rfl hs)
    | with_reducible refine State.putBits_only ?_ _ _ _ (sub_of rfl hs)
    | ((with_reducible refine State.ifOpen_only ?_ _ _ _ _ _ _ (fun _ => ?_) (sub_of rfl hs)); rotate_left)
    | with_reducible refine State.putIf_only ?_ _ _ _ _ (sub_of rfl hs)
    | (with_reducible refine Only.ite ?_ ?_)
    | split
    | (with_reducible refine Only.foldl _ (fun _ _ _ => ?_) _ _ ?_)
    | ((with_reducible apply upd_only); rotate_left; iterate 39 (first | exact Or.inr (by with_reducible rfl) | exact Or.inl (mem_of_sub hs rfl) | exact Or.inl (sub_of rfl hs) | exact Or.inr rfl | exact Or.inr ⟨rfl, rfl⟩ | exact Or.inr ⟨rfl, rfl, rfl⟩))


theorem State.writeMill_only (h : Only ps a s) (x1 x2 x3 x4) (hs : sub [.out, .settings, .status, .shadow, .counts, .evrQueue, .tim, .rng, .line, .dkl, .lci, .sac, .vat, .sch, .ports, .trib, .cur, .lanes, .felt, .mte] ps = true) : Only ps a (State.writeMill s x1 x2 x3 x4) := by
  unfold State.writeMill
  try dsimp only
  repeat' first
    | with_reducible assumption
    | with_reducible refine State.modSac_only ?_ _ _ (sub_of rfl hs)
    | with_reducible refine State.writeLnf_only ?_ _ _ _ _ (sub_of rfl hs)
    | with_reducible refine State.writeSch_only ?_ _ _ _ (sub_of rfl hs)
    | with_reducible refine State.writeFci_only ?_ _ _ _ (sub_of rfl hs)
    | with_reducible refine State.writeDkl_only ?_ _ _ _ (sub_of rfl hs)
    | with_reducible refine State.putIf_only ?_ _ _ _ _ (sub_of rfl hs)
    | with_reducible refine State.writeLci_only ?_ _ _ _ (sub_of rfl hs)
    | with_reducible refine State.writeVat_only ?_ _ _ _ _ (sub_of rfl hs)
    | (with_reducible refine Only.ite ?_ ?_)
    | split
    | (with_reducible refine Only.foldl _ (fun _ _ _ => ?_) _ _ ?_)
    | ((with_reducible apply upd_only); rotate_left; iterate 39 (first | exact Or.inr (by with_reducible rfl) | exact Or.inl (mem_of_sub hs rfl) | exact Or.inl (sub_of rfl hs) | exact Or.inr rfl | exact Or.inr ⟨rfl, rfl⟩ | exact Or.inr ⟨rfl, rfl, rfl⟩))


theorem State.regWrite_only (h : Only ps a s) (x1 x2 x3) (hs : sub [.out, .settings, .status, .shadow, .domains, .resetCtl, .irq, .host, .pads, .counts, .gather, .evrQueue, .records, .timeBases, .tim, .otp, .mtp, .slots, .kst, .rng, .uci, .mem, .tmp, .bkp, .line, .dkl, .lci, .sac, .vat, .sch, .ports, .trib, .tribOld, .sc, .sa, .hbxRr, .cur, .lanes, .felt, .role, .mte] ps = true) : Only ps a (State.regWrite s x1 x2 x3) := by
  unfold State.regWrite
  try dsimp only
  repeat' first
    | with_reducible assumption
    | with_reducible refine State.lockedWrite_only ?_ _ _ _ (sub_of rfl hs)
    | with_reducible refine State.writeTmp_only ?_ _ _ _ (sub_of rfl hs)
    | with_reducible refine State.writeUci_only ?_ _ _ _ (sub_of rfl hs)
    | with_reducible refine State.writeTim_only ?_ _ _ (sub_of rfl hs)
    | with_reducible refine State.writeEvr_only ?_ _ _ (sub_of rfl hs)
    | with_reducible refine State.writeHst_only ?_ _ _ _ (sub_of rfl hs)
    | with_reducible refine State.writeMem_only ?_ _ _ _ (sub_of rfl hs)
    | with_reducible refine State.writeRng_only ?_ _ _ _ (sub_of rfl hs)
    | with_reducible refine State.writePmc_only ?_ _ _ (sub_of rfl hs)
    | with_reducible refine State.writeMte_only ?_ _ _ _ (sub_of rfl hs)
    | with_reducible refine State.writeKst_only ?_ _ _ _ (sub_of rfl hs)
    | with_reducible refine State.writeCur_only ?_ _ _ _ (sub_of rfl hs)
    | with_reducible refine State.writeMill_only ?_ _ _ _ _ (sub_of rfl hs)
    | with_reducible refine State.clearBits_only ?_ _ _ _ (sub_of rfl hs)
    | with_reducible refine State.writeSys_only ?_ _ _ _ (sub_of rfl hs)
    | with_reducible refine State.writeSer_only ?_ _ _ _ (sub_of rfl hs)
    | (with_reducible refine Only.ite ?_ ?_)
    | split
    | (with_reducible refine Only.foldl _ (fun _ _ _ => ?_) _ _ ?_)
    | ((with_reducible apply upd_only); rotate_left; iterate 39 (first | exact Or.inr (by with_reducible rfl) | exact Or.inl (mem_of_sub hs rfl) | exact Or.inl (sub_of rfl hs) | exact Or.inr rfl | exact Or.inr ⟨rfl, rfl⟩ | exact Or.inr ⟨rfl, rfl, rfl⟩))


theorem execRegisterWrite_only (h : Only ps a s) (x0 x1 x2) (hs : sub [.out, .settings, .status, .shadow, .domains, .resetCtl, .irq, .host, .pads, .counts, .gather, .evrQueue, .records, .timeBases, .tim, .otp, .mtp, .slots, .kst, .rng, .uci, .mem, .tmp, .bkp, .line, .dkl, .lci, .sac, .vat, .sch, .ports, .trib, .tribOld, .sc, .sa, .hbxRr, .cur, .lanes, .felt, .role, .mte] ps = true) : OnlyR ps a (execRegisterWrite x0 x1 x2 s) := by
  unfold execRegisterWrite
  try dsimp only
  repeat' first
    | with_reducible assumption
    | with_reducible refine State.lockedWrite_only ?_ _ _ _ (sub_of rfl hs)
    | with_reducible refine idle_only ?_  (sub_of rfl hs)
    | ((with_reducible refine State.modHst_only ?_ _ ?_ ?_); rotate_left; (first | exact Or.inl (mem_of_sub hs rfl) | exact Or.inr (fun _ => rfl)); (first | exact Or.inl (mem_of_sub hs rfl) | exact Or.inr (fun _ => rfl) | exact Or.inr (fun _ => ⟨rfl, rfl⟩) | exact Or.inr (fun _ => ⟨rfl, rfl, rfl⟩)))
    | with_reducible refine finish_only ?_  (sub_of rfl hs)
    | with_reducible refine mateEnd_only ?_  (sub_of rfl hs)
    | with_reducible refine State.regWrite_only ?_ _ _ _ (sub_of rfl hs)
    | with_reducible refine finish_only ?_ (sub_of rfl hs)
    | with_reducible refine idle_only ?_
    | split
    | (with_reducible refine Only.foldl _ (fun _ _ _ => ?_) _ _ ?_)
    | ((with_reducible apply upd_only); rotate_left; iterate 39 (first | exact Or.inr (by with_reducible rfl) | exact Or.inl (mem_of_sub hs rfl) | exact Or.inl (sub_of rfl hs) | exact Or.inr rfl | exact Or.inr ⟨rfl, rfl⟩ | exact Or.inr ⟨rfl, rfl, rfl⟩))


theorem State.readAny_only (h : Only ps a s) (x1 x2) (hs : sub [.host, .tim, .rng, .sac] ps = true) : Only ps a (State.readAny s x1 x2).2 := by
  unfold State.readAny
  try dsimp only
  repeat' first
    | with_reducible assumption
    | with_reducible refine State.takeStamp_only ?_ _ _ (sub_of rfl hs)
    | with_reducible refine State.takeStamp_only_of (by assumption) ?_ (sub_of rfl hs)
    | with_reducible refine State.latchWords_only ?_ _ _ (sub_of rfl hs)
    | with_reducible refine State.readRaw_only ?_ _ (sub_of rfl hs)
    | with_reducible refine State.readRaw_only_of (by assumption) ?_ (sub_of rfl hs)
    | with_reducible refine State.readBufData_only ?_ _ _ (sub_of rfl hs)
    | with_reducible refine State.readBufData_only_of (by assumption) ?_ (sub_of rfl hs)
    | with_reducible refine State.readBufStatus_only ?_ _ _ (sub_of rfl hs)
    | with_reducible refine State.readBufStatus_only_of (by assumption) ?_ (sub_of rfl hs)
    | with_reducible refine State.readThresh_only ?_ _ (sub_of rfl hs)
    | with_reducible refine State.readThresh_only_of (by assumption) ?_ (sub_of rfl hs)
    | split
    | (with_reducible refine Only.foldl _ (fun _ _ _ => ?_) _ _ ?_)
    | ((with_reducible apply upd_only); rotate_left; iterate 39 (first | exact Or.inr (by with_reducible rfl) | exact Or.inl (mem_of_sub hs rfl) | exact Or.inl (sub_of rfl hs) | exact Or.inr rfl | exact Or.inr ⟨rfl, rfl⟩ | exact Or.inr ⟨rfl, rfl, rfl⟩))

theorem State.readAny_only_of {t : State} {x1 x2} {r} (e : State.readAny s x1 x2 = (r, t)) (h : Only ps a s) (hs : sub [.host, .tim, .rng, .sac] ps = true) : Only ps a t := by
  have := State.readAny_only h x1 x2 hs
  rw [e] at this
  exact this


theorem execWideRegisterRead_only (h : Only ps a s) (x0 x1) (hs : sub [.out, .irq, .host, .counts, .evrQueue, .tim, .rng, .sac] ps = true) : OnlyR ps a (execWideRegisterRead x0 x1 s) := by
  unfold execWideRegisterRead
  try dsimp only
  repeat' first
    | with_reducible assumption
    | with_reducible refine finish_only ?_  (sub_of rfl hs)
    | with_reducible refine State.emit_only ?_ _ (sub_of rfl hs)
    | with_reducible refine idle_only ?_  (sub_of rfl hs)
    | with_reducible refine State.readAny_only ?_ _ _ (sub_of rfl hs)
    | with_reducible refine State.readAny_only_of (by assumption) ?_ (sub_of rfl hs)
    | with_reducible refine finish_only ?_ (sub_of rfl hs)
    | with_reducible refine idle_only ?_
    | split
    | (with_reducible refine Only.foldl _ (fun _ _ _ => ?_) _ _ ?_)
    | ((with_reducible apply upd_only); rotate_left; iterate 39 (first | exact Or.inr (by with_reducible rfl) | exact Or.inl (mem_of_sub hs rfl) | exact Or.inl (sub_of rfl hs) | exact Or.inr rfl | exact Or.inr ⟨rfl, rfl⟩ | exact Or.inr ⟨rfl, rfl, rfl⟩))


theorem execMsixUnmask_only (h : Only ps a s) (x0) (hs : sub [.out, .irq, .host, .counts, .evrQueue] ps = true) : OnlyR ps a (execMsixUnmask x0 s) := by
  unfold execMsixUnmask
  try dsimp only
  repeat' first
    | with_reducible assumption
    | with_reducible refine State.msix_only ?_ _ (sub_of rfl hs)
    | with_reducible refine idle_only ?_  (sub_of rfl hs)
    | ((with_reducible refine State.modHst_only ?_ _ ?_ ?_); rotate_left; (first | exact Or.inl (mem_of_sub hs rfl) | exact Or.inr (fun _ => rfl)); (first | exact Or.inl (mem_of_sub hs rfl) | exact Or.inr (fun _ => rfl) | exact Or.inr (fun _ => ⟨rfl, rfl⟩) | exact Or.inr (fun _ => ⟨rfl, rfl, rfl⟩)))
    | with_reducible refine finish_only ?_  (sub_of rfl hs)
    | with_reducible refine finish_only ?_ (sub_of rfl hs)
    | with_reducible refine idle_only ?_
    | split
    | (with_reducible refine Only.foldl _ (fun _ _ _ => ?_) _ _ ?_)
    | ((with_reducible apply upd_only); rotate_left; iterate 39 (first | exact Or.inr (by with_reducible rfl) | exact Or.inl (mem_of_sub hs rfl) | exact Or.inl (sub_of rfl hs) | exact Or.inr rfl | exact Or.inr ⟨rfl, rfl⟩ | exact Or.inr ⟨rfl, rfl, rfl⟩))


theorem execI2cWrite_only (h : Only ps a s) (x0) (hs : sub [.out, .irq, .pads, .counts, .evrQueue] ps = true) : OnlyR ps a (execI2cWrite x0 s) := by
  unfold execI2cWrite
  try dsimp only
  repeat' first
    | with_reducible assumption
    | with_reducible refine State.emit_only ?_ _ (sub_of rfl hs)
    | with_reducible refine idle_only ?_  (sub_of rfl hs)
    | with_reducible refine State.modPads_only ?_ _ (sub_of rfl hs)
    | with_reducible refine finish_only ?_  (sub_of rfl hs)
    | with_reducible refine finish_only ?_ (sub_of rfl hs)
    | with_reducible refine idle_only ?_
    | split
    | (with_reducible refine Only.foldl _ (fun _ _ _ => ?_) _ _ ?_)
    | ((with_reducible apply upd_only); rotate_left; iterate 39 (first | exact Or.inr (by with_reducible rfl) | exact Or.inl (mem_of_sub hs rfl) | exact Or.inl (sub_of rfl hs) | exact Or.inr rfl | exact Or.inr ⟨rfl, rfl⟩ | exact Or.inr ⟨rfl, rfl, rfl⟩))


theorem execI2cRead_only (h : Only ps a s) (x0) (hs : sub [.out, .irq, .pads, .counts, .evrQueue] ps = true) : OnlyR ps a (execI2cRead x0 s) := by
  unfold execI2cRead
  try dsimp only
  repeat' first
    | with_reducible assumption
    | with_reducible refine State.emit_only ?_ _ (sub_of rfl hs)
    | with_reducible refine idle_only ?_  (sub_of rfl hs)
    | with_reducible refine State.modPads_only ?_ _ (sub_of rfl hs)
    | with_reducible refine finish_only ?_  (sub_of rfl hs)
    | with_reducible refine finish_only ?_ (sub_of rfl hs)
    | with_reducible refine idle_only ?_
    | split
    | (with_reducible refine Only.foldl _ (fun _ _ _ => ?_) _ _ ?_)
    | ((with_reducible apply upd_only); rotate_left; iterate 39 (first | exact Or.inr (by with_reducible rfl) | exact Or.inl (mem_of_sub hs rfl) | exact Or.inl (sub_of rfl hs) | exact Or.inr rfl | exact Or.inr ⟨rfl, rfl⟩ | exact Or.inr ⟨rfl, rfl, rfl⟩))


end Sys2Proof.Machine
end

