-- ==== Sys2Proof/Laws/State.lean ====
section
/-! SUPPORT. Each update of the state, field by field; the mills and their blocks; what the end of a command leaves alone. -/

namespace Sys2Proof.Machine

variable (s : State)

/-! ### modPmc -/

section
variable (f : Pmc → Pmc)
@[simp] theorem State.modPmc_pmc : (s.modPmc f).pmc = f s.pmc := rfl
@[simp] theorem State.modPmc_pending : (s.modPmc f).pending = s.pending := rfl
@[simp] theorem State.modPmc_now : (s.modPmc f).now = s.now := rfl
@[simp] theorem State.modPmc_free : (s.modPmc f).free = s.free := rfl
@[simp] theorem State.modPmc_out : (s.modPmc f).out = s.out := rfl
@[simp] theorem State.modPmc_regs : (s.modPmc f).regs = s.regs := rfl
@[simp] theorem State.modPmc_shadow : (s.modPmc f).shadow = s.shadow := rfl
@[simp] theorem State.modPmc_rst : (s.modPmc f).rst = s.rst := rfl
@[simp] theorem State.modPmc_hst : (s.modPmc f).hst = s.hst := rfl
@[simp] theorem State.modPmc_pads : (s.modPmc f).pads = s.pads := rfl
@[simp] theorem State.modPmc_evr : (s.modPmc f).evr = s.evr := rfl
@[simp] theorem State.modPmc_tim : (s.modPmc f).tim = s.tim := rfl
@[simp] theorem State.modPmc_otp : (s.modPmc f).otp = s.otp := rfl
@[simp] theorem State.modPmc_mtp : (s.modPmc f).mtp = s.mtp := rfl
@[simp] theorem State.modPmc_kst : (s.modPmc f).kst = s.kst := rfl
@[simp] theorem State.modPmc_rng : (s.modPmc f).rng = s.rng := rfl
@[simp] theorem State.modPmc_uci : (s.modPmc f).uci = s.uci := rfl
@[simp] theorem State.modPmc_mem : (s.modPmc f).mem = s.mem := rfl
@[simp] theorem State.modPmc_tmp : (s.modPmc f).tmp = s.tmp := rfl
@[simp] theorem State.modPmc_bkp : (s.modPmc f).bkp = s.bkp := rfl
@[simp] theorem State.modPmc_mills : (s.modPmc f).mills = s.mills := rfl
@[simp] theorem State.modPmc_trib : (s.modPmc f).trib = s.trib := rfl
@[simp] theorem State.modPmc_tribOld : (s.modPmc f).tribOld = s.tribOld := rfl
@[simp] theorem State.modPmc_sc : (s.modPmc f).sc = s.sc := rfl
@[simp] theorem State.modPmc_sa : (s.modPmc f).sa = s.sa := rfl
@[simp] theorem State.modPmc_hbxRr : (s.modPmc f).hbxRr = s.hbxRr := rfl
@[simp] theorem State.modPmc_cur : (s.modPmc f).cur = s.cur := rfl
@[simp] theorem State.modPmc_lanes : (s.modPmc f).lanes = s.lanes := rfl
@[simp] theorem State.modPmc_felt : (s.modPmc f).felt = s.felt := rfl
@[simp] theorem State.modPmc_mte : (s.modPmc f).mte = s.mte := rfl
end

/-! ### modEvr -/

section
variable (f : Evr → Evr)
@[simp] theorem State.modEvr_evr : (s.modEvr f).evr = f s.evr := rfl
@[simp] theorem State.modEvr_pending : (s.modEvr f).pending = s.pending := rfl
@[simp] theorem State.modEvr_now : (s.modEvr f).now = s.now := rfl
@[simp] theorem State.modEvr_free : (s.modEvr f).free = s.free := rfl
@[simp] theorem State.modEvr_out : (s.modEvr f).out = s.out := rfl
@[simp] theorem State.modEvr_regs : (s.modEvr f).regs = s.regs := rfl
@[simp] theorem State.modEvr_shadow : (s.modEvr f).shadow = s.shadow := rfl
@[simp] theorem State.modEvr_rst : (s.modEvr f).rst = s.rst := rfl
@[simp] theorem State.modEvr_hst : (s.modEvr f).hst = s.hst := rfl
@[simp] theorem State.modEvr_pads : (s.modEvr f).pads = s.pads := rfl
@[simp] theorem State.modEvr_pmc : (s.modEvr f).pmc = s.pmc := rfl
@[simp] theorem State.modEvr_tim : (s.modEvr f).tim = s.tim := rfl
@[simp] theorem State.modEvr_otp : (s.modEvr f).otp = s.otp := rfl
@[simp] theorem State.modEvr_mtp : (s.modEvr f).mtp = s.mtp := rfl
@[simp] theorem State.modEvr_kst : (s.modEvr f).kst = s.kst := rfl
@[simp] theorem State.modEvr_rng : (s.modEvr f).rng = s.rng := rfl
@[simp] theorem State.modEvr_uci : (s.modEvr f).uci = s.uci := rfl
@[simp] theorem State.modEvr_mem : (s.modEvr f).mem = s.mem := rfl
@[simp] theorem State.modEvr_tmp : (s.modEvr f).tmp = s.tmp := rfl
@[simp] theorem State.modEvr_bkp : (s.modEvr f).bkp = s.bkp := rfl
@[simp] theorem State.modEvr_mills : (s.modEvr f).mills = s.mills := rfl
@[simp] theorem State.modEvr_trib : (s.modEvr f).trib = s.trib := rfl
@[simp] theorem State.modEvr_tribOld : (s.modEvr f).tribOld = s.tribOld := rfl
@[simp] theorem State.modEvr_sc : (s.modEvr f).sc = s.sc := rfl
@[simp] theorem State.modEvr_sa : (s.modEvr f).sa = s.sa := rfl
@[simp] theorem State.modEvr_hbxRr : (s.modEvr f).hbxRr = s.hbxRr := rfl
@[simp] theorem State.modEvr_cur : (s.modEvr f).cur = s.cur := rfl
@[simp] theorem State.modEvr_lanes : (s.modEvr f).lanes = s.lanes := rfl
@[simp] theorem State.modEvr_felt : (s.modEvr f).felt = s.felt := rfl
@[simp] theorem State.modEvr_mte : (s.modEvr f).mte = s.mte := rfl
end

/-! ### modHst -/

section
variable (f : Hst → Hst)
@[simp] theorem State.modHst_hst : (s.modHst f).hst = f s.hst := rfl
@[simp] theorem State.modHst_pending : (s.modHst f).pending = s.pending := rfl
@[simp] theorem State.modHst_now : (s.modHst f).now = s.now := rfl
@[simp] theorem State.modHst_free : (s.modHst f).free = s.free := rfl
@[simp] theorem State.modHst_out : (s.modHst f).out = s.out := rfl
@[simp] theorem State.modHst_regs : (s.modHst f).regs = s.regs := rfl
@[simp] theorem State.modHst_shadow : (s.modHst f).shadow = s.shadow := rfl
@[simp] theorem State.modHst_rst : (s.modHst f).rst = s.rst := rfl
@[simp] theorem State.modHst_pads : (s.modHst f).pads = s.pads := rfl
@[simp] theorem State.modHst_pmc : (s.modHst f).pmc = s.pmc := rfl
@[simp] theorem State.modHst_evr : (s.modHst f).evr = s.evr := rfl
@[simp] theorem State.modHst_tim : (s.modHst f).tim = s.tim := rfl
@[simp] theorem State.modHst_otp : (s.modHst f).otp = s.otp := rfl
@[simp] theorem State.modHst_mtp : (s.modHst f).mtp = s.mtp := rfl
@[simp] theorem State.modHst_kst : (s.modHst f).kst = s.kst := rfl
@[simp] theorem State.modHst_rng : (s.modHst f).rng = s.rng := rfl
@[simp] theorem State.modHst_uci : (s.modHst f).uci = s.uci := rfl
@[simp] theorem State.modHst_mem : (s.modHst f).mem = s.mem := rfl
@[simp] theorem State.modHst_tmp : (s.modHst f).tmp = s.tmp := rfl
@[simp] theorem State.modHst_bkp : (s.modHst f).bkp = s.bkp := rfl
@[simp] theorem State.modHst_mills : (s.modHst f).mills = s.mills := rfl
@[simp] theorem State.modHst_trib : (s.modHst f).trib = s.trib := rfl
@[simp] theorem State.modHst_tribOld : (s.modHst f).tribOld = s.tribOld := rfl
@[simp] theorem State.modHst_sc : (s.modHst f).sc = s.sc := rfl
@[simp] theorem State.modHst_sa : (s.modHst f).sa = s.sa := rfl
@[simp] theorem State.modHst_hbxRr : (s.modHst f).hbxRr = s.hbxRr := rfl
@[simp] theorem State.modHst_cur : (s.modHst f).cur = s.cur := rfl
@[simp] theorem State.modHst_lanes : (s.modHst f).lanes = s.lanes := rfl
@[simp] theorem State.modHst_felt : (s.modHst f).felt = s.felt := rfl
@[simp] theorem State.modHst_mte : (s.modHst f).mte = s.mte := rfl
end

/-! ### modRst -/

section
variable (f : Rst → Rst)
@[simp] theorem State.modRst_rst : (s.modRst f).rst = f s.rst := rfl
@[simp] theorem State.modRst_pending : (s.modRst f).pending = s.pending := rfl
@[simp] theorem State.modRst_now : (s.modRst f).now = s.now := rfl
@[simp] theorem State.modRst_free : (s.modRst f).free = s.free := rfl
@[simp] theorem State.modRst_out : (s.modRst f).out = s.out := rfl
@[simp] theorem State.modRst_regs : (s.modRst f).regs = s.regs := rfl
@[simp] theorem State.modRst_shadow : (s.modRst f).shadow = s.shadow := rfl
@[simp] theorem State.modRst_hst : (s.modRst f).hst = s.hst := rfl
@[simp] theorem State.modRst_pads : (s.modRst f).pads = s.pads := rfl
@[simp] theorem State.modRst_pmc : (s.modRst f).pmc = s.pmc := rfl
@[simp] theorem State.modRst_evr : (s.modRst f).evr = s.evr := rfl
@[simp] theorem State.modRst_tim : (s.modRst f).tim = s.tim := rfl
@[simp] theorem State.modRst_otp : (s.modRst f).otp = s.otp := rfl
@[simp] theorem State.modRst_mtp : (s.modRst f).mtp = s.mtp := rfl
@[simp] theorem State.modRst_kst : (s.modRst f).kst = s.kst := rfl
@[simp] theorem State.modRst_rng : (s.modRst f).rng = s.rng := rfl
@[simp] theorem State.modRst_uci : (s.modRst f).uci = s.uci := rfl
@[simp] theorem State.modRst_mem : (s.modRst f).mem = s.mem := rfl
@[simp] theorem State.modRst_tmp : (s.modRst f).tmp = s.tmp := rfl
@[simp] theorem State.modRst_bkp : (s.modRst f).bkp = s.bkp := rfl
@[simp] theorem State.modRst_mills : (s.modRst f).mills = s.mills := rfl
@[simp] theorem State.modRst_trib : (s.modRst f).trib = s.trib := rfl
@[simp] theorem State.modRst_tribOld : (s.modRst f).tribOld = s.tribOld := rfl
@[simp] theorem State.modRst_sc : (s.modRst f).sc = s.sc := rfl
@[simp] theorem State.modRst_sa : (s.modRst f).sa = s.sa := rfl
@[simp] theorem State.modRst_hbxRr : (s.modRst f).hbxRr = s.hbxRr := rfl
@[simp] theorem State.modRst_cur : (s.modRst f).cur = s.cur := rfl
@[simp] theorem State.modRst_lanes : (s.modRst f).lanes = s.lanes := rfl
@[simp] theorem State.modRst_felt : (s.modRst f).felt = s.felt := rfl
@[simp] theorem State.modRst_mte : (s.modRst f).mte = s.mte := rfl
end

/-! ### modPads -/

section
variable (f : Pads → Pads)
@[simp] theorem State.modPads_pads : (s.modPads f).pads = f s.pads := rfl
@[simp] theorem State.modPads_pending : (s.modPads f).pending = s.pending := rfl
@[simp] theorem State.modPads_now : (s.modPads f).now = s.now := rfl
@[simp] theorem State.modPads_free : (s.modPads f).free = s.free := rfl
@[simp] theorem State.modPads_out : (s.modPads f).out = s.out := rfl
@[simp] theorem State.modPads_regs : (s.modPads f).regs = s.regs := rfl
@[simp] theorem State.modPads_shadow : (s.modPads f).shadow = s.shadow := rfl
@[simp] theorem State.modPads_rst : (s.modPads f).rst = s.rst := rfl
@[simp] theorem State.modPads_hst : (s.modPads f).hst = s.hst := rfl
@[simp] theorem State.modPads_pmc : (s.modPads f).pmc = s.pmc := rfl
@[simp] theorem State.modPads_evr : (s.modPads f).evr = s.evr := rfl
@[simp] theorem State.modPads_tim : (s.modPads f).tim = s.tim := rfl
@[simp] theorem State.modPads_otp : (s.modPads f).otp = s.otp := rfl
@[simp] theorem State.modPads_mtp : (s.modPads f).mtp = s.mtp := rfl
@[simp] theorem State.modPads_kst : (s.modPads f).kst = s.kst := rfl
@[simp] theorem State.modPads_rng : (s.modPads f).rng = s.rng := rfl
@[simp] theorem State.modPads_uci : (s.modPads f).uci = s.uci := rfl
@[simp] theorem State.modPads_mem : (s.modPads f).mem = s.mem := rfl
@[simp] theorem State.modPads_tmp : (s.modPads f).tmp = s.tmp := rfl
@[simp] theorem State.modPads_bkp : (s.modPads f).bkp = s.bkp := rfl
@[simp] theorem State.modPads_mills : (s.modPads f).mills = s.mills := rfl
@[simp] theorem State.modPads_trib : (s.modPads f).trib = s.trib := rfl
@[simp] theorem State.modPads_tribOld : (s.modPads f).tribOld = s.tribOld := rfl
@[simp] theorem State.modPads_sc : (s.modPads f).sc = s.sc := rfl
@[simp] theorem State.modPads_sa : (s.modPads f).sa = s.sa := rfl
@[simp] theorem State.modPads_hbxRr : (s.modPads f).hbxRr = s.hbxRr := rfl
@[simp] theorem State.modPads_cur : (s.modPads f).cur = s.cur := rfl
@[simp] theorem State.modPads_lanes : (s.modPads f).lanes = s.lanes := rfl
@[simp] theorem State.modPads_felt : (s.modPads f).felt = s.felt := rfl
@[simp] theorem State.modPads_mte : (s.modPads f).mte = s.mte := rfl
end

/-! ### modTim -/

section
variable (f : Tim → Tim)
@[simp] theorem State.modTim_tim : (s.modTim f).tim = f s.tim := rfl
@[simp] theorem State.modTim_pending : (s.modTim f).pending = s.pending := rfl
@[simp] theorem State.modTim_now : (s.modTim f).now = s.now := rfl
@[simp] theorem State.modTim_free : (s.modTim f).free = s.free := rfl
@[simp] theorem State.modTim_out : (s.modTim f).out = s.out := rfl
@[simp] theorem State.modTim_regs : (s.modTim f).regs = s.regs := rfl
@[simp] theorem State.modTim_shadow : (s.modTim f).shadow = s.shadow := rfl
@[simp] theorem State.modTim_rst : (s.modTim f).rst = s.rst := rfl
@[simp] theorem State.modTim_hst : (s.modTim f).hst = s.hst := rfl
@[simp] theorem State.modTim_pads : (s.modTim f).pads = s.pads := rfl
@[simp] theorem State.modTim_pmc : (s.modTim f).pmc = s.pmc := rfl
@[simp] theorem State.modTim_evr : (s.modTim f).evr = s.evr := rfl
@[simp] theorem State.modTim_otp : (s.modTim f).otp = s.otp := rfl
@[simp] theorem State.modTim_mtp : (s.modTim f).mtp = s.mtp := rfl
@[simp] theorem State.modTim_kst : (s.modTim f).kst = s.kst := rfl
@[simp] theorem State.modTim_rng : (s.modTim f).rng = s.rng := rfl
@[simp] theorem State.modTim_uci : (s.modTim f).uci = s.uci := rfl
@[simp] theorem State.modTim_mem : (s.modTim f).mem = s.mem := rfl
@[simp] theorem State.modTim_tmp : (s.modTim f).tmp = s.tmp := rfl
@[simp] theorem State.modTim_bkp : (s.modTim f).bkp = s.bkp := rfl
@[simp] theorem State.modTim_mills : (s.modTim f).mills = s.mills := rfl
@[simp] theorem State.modTim_trib : (s.modTim f).trib = s.trib := rfl
@[simp] theorem State.modTim_tribOld : (s.modTim f).tribOld = s.tribOld := rfl
@[simp] theorem State.modTim_sc : (s.modTim f).sc = s.sc := rfl
@[simp] theorem State.modTim_sa : (s.modTim f).sa = s.sa := rfl
@[simp] theorem State.modTim_hbxRr : (s.modTim f).hbxRr = s.hbxRr := rfl
@[simp] theorem State.modTim_cur : (s.modTim f).cur = s.cur := rfl
@[simp] theorem State.modTim_lanes : (s.modTim f).lanes = s.lanes := rfl
@[simp] theorem State.modTim_felt : (s.modTim f).felt = s.felt := rfl
@[simp] theorem State.modTim_mte : (s.modTim f).mte = s.mte := rfl
end

/-! ### modOtp -/

section
variable (f : Otp → Otp)
@[simp] theorem State.modOtp_otp : (s.modOtp f).otp = f s.otp := rfl
@[simp] theorem State.modOtp_pending : (s.modOtp f).pending = s.pending := rfl
@[simp] theorem State.modOtp_now : (s.modOtp f).now = s.now := rfl
@[simp] theorem State.modOtp_free : (s.modOtp f).free = s.free := rfl
@[simp] theorem State.modOtp_out : (s.modOtp f).out = s.out := rfl
@[simp] theorem State.modOtp_regs : (s.modOtp f).regs = s.regs := rfl
@[simp] theorem State.modOtp_shadow : (s.modOtp f).shadow = s.shadow := rfl
@[simp] theorem State.modOtp_rst : (s.modOtp f).rst = s.rst := rfl
@[simp] theorem State.modOtp_hst : (s.modOtp f).hst = s.hst := rfl
@[simp] theorem State.modOtp_pads : (s.modOtp f).pads = s.pads := rfl
@[simp] theorem State.modOtp_pmc : (s.modOtp f).pmc = s.pmc := rfl
@[simp] theorem State.modOtp_evr : (s.modOtp f).evr = s.evr := rfl
@[simp] theorem State.modOtp_tim : (s.modOtp f).tim = s.tim := rfl
@[simp] theorem State.modOtp_mtp : (s.modOtp f).mtp = s.mtp := rfl
@[simp] theorem State.modOtp_kst : (s.modOtp f).kst = s.kst := rfl
@[simp] theorem State.modOtp_rng : (s.modOtp f).rng = s.rng := rfl
@[simp] theorem State.modOtp_uci : (s.modOtp f).uci = s.uci := rfl
@[simp] theorem State.modOtp_mem : (s.modOtp f).mem = s.mem := rfl
@[simp] theorem State.modOtp_tmp : (s.modOtp f).tmp = s.tmp := rfl
@[simp] theorem State.modOtp_bkp : (s.modOtp f).bkp = s.bkp := rfl
@[simp] theorem State.modOtp_mills : (s.modOtp f).mills = s.mills := rfl
@[simp] theorem State.modOtp_trib : (s.modOtp f).trib = s.trib := rfl
@[simp] theorem State.modOtp_tribOld : (s.modOtp f).tribOld = s.tribOld := rfl
@[simp] theorem State.modOtp_sc : (s.modOtp f).sc = s.sc := rfl
@[simp] theorem State.modOtp_sa : (s.modOtp f).sa = s.sa := rfl
@[simp] theorem State.modOtp_hbxRr : (s.modOtp f).hbxRr = s.hbxRr := rfl
@[simp] theorem State.modOtp_cur : (s.modOtp f).cur = s.cur := rfl
@[simp] theorem State.modOtp_lanes : (s.modOtp f).lanes = s.lanes := rfl
@[simp] theorem State.modOtp_felt : (s.modOtp f).felt = s.felt := rfl
@[simp] theorem State.modOtp_mte : (s.modOtp f).mte = s.mte := rfl
end

/-! ### modKst -/

section
variable (f : Kst → Kst)
@[simp] theorem State.modKst_kst : (s.modKst f).kst = f s.kst := rfl
@[simp] theorem State.modKst_pending : (s.modKst f).pending = s.pending := rfl
@[simp] theorem State.modKst_now : (s.modKst f).now = s.now := rfl
@[simp] theorem State.modKst_free : (s.modKst f).free = s.free := rfl
@[simp] theorem State.modKst_out : (s.modKst f).out = s.out := rfl
@[simp] theorem State.modKst_regs : (s.modKst f).regs = s.regs := rfl
@[simp] theorem State.modKst_shadow : (s.modKst f).shadow = s.shadow := rfl
@[simp] theorem State.modKst_rst : (s.modKst f).rst = s.rst := rfl
@[simp] theorem State.modKst_hst : (s.modKst f).hst = s.hst := rfl
@[simp] theorem State.modKst_pads : (s.modKst f).pads = s.pads := rfl
@[simp] theorem State.modKst_pmc : (s.modKst f).pmc = s.pmc := rfl
@[simp] theorem State.modKst_evr : (s.modKst f).evr = s.evr := rfl
@[simp] theorem State.modKst_tim : (s.modKst f).tim = s.tim := rfl
@[simp] theorem State.modKst_otp : (s.modKst f).otp = s.otp := rfl
@[simp] theorem State.modKst_mtp : (s.modKst f).mtp = s.mtp := rfl
@[simp] theorem State.modKst_rng : (s.modKst f).rng = s.rng := rfl
@[simp] theorem State.modKst_uci : (s.modKst f).uci = s.uci := rfl
@[simp] theorem State.modKst_mem : (s.modKst f).mem = s.mem := rfl
@[simp] theorem State.modKst_tmp : (s.modKst f).tmp = s.tmp := rfl
@[simp] theorem State.modKst_bkp : (s.modKst f).bkp = s.bkp := rfl
@[simp] theorem State.modKst_mills : (s.modKst f).mills = s.mills := rfl
@[simp] theorem State.modKst_trib : (s.modKst f).trib = s.trib := rfl
@[simp] theorem State.modKst_tribOld : (s.modKst f).tribOld = s.tribOld := rfl
@[simp] theorem State.modKst_sc : (s.modKst f).sc = s.sc := rfl
@[simp] theorem State.modKst_sa : (s.modKst f).sa = s.sa := rfl
@[simp] theorem State.modKst_hbxRr : (s.modKst f).hbxRr = s.hbxRr := rfl
@[simp] theorem State.modKst_cur : (s.modKst f).cur = s.cur := rfl
@[simp] theorem State.modKst_lanes : (s.modKst f).lanes = s.lanes := rfl
@[simp] theorem State.modKst_felt : (s.modKst f).felt = s.felt := rfl
@[simp] theorem State.modKst_mte : (s.modKst f).mte = s.mte := rfl
end

/-! ### modRng -/

section
variable (f : Rng → Rng)
@[simp] theorem State.modRng_rng : (s.modRng f).rng = f s.rng := rfl
@[simp] theorem State.modRng_pending : (s.modRng f).pending = s.pending := rfl
@[simp] theorem State.modRng_now : (s.modRng f).now = s.now := rfl
@[simp] theorem State.modRng_free : (s.modRng f).free = s.free := rfl
@[simp] theorem State.modRng_out : (s.modRng f).out = s.out := rfl
@[simp] theorem State.modRng_regs : (s.modRng f).regs = s.regs := rfl
@[simp] theorem State.modRng_shadow : (s.modRng f).shadow = s.shadow := rfl
@[simp] theorem State.modRng_rst : (s.modRng f).rst = s.rst := rfl
@[simp] theorem State.modRng_hst : (s.modRng f).hst = s.hst := rfl
@[simp] theorem State.modRng_pads : (s.modRng f).pads = s.pads := rfl
@[simp] theorem State.modRng_pmc : (s.modRng f).pmc = s.pmc := rfl
@[simp] theorem State.modRng_evr : (s.modRng f).evr = s.evr := rfl
@[simp] theorem State.modRng_tim : (s.modRng f).tim = s.tim := rfl
@[simp] theorem State.modRng_otp : (s.modRng f).otp = s.otp := rfl
@[simp] theorem State.modRng_mtp : (s.modRng f).mtp = s.mtp := rfl
@[simp] theorem State.modRng_kst : (s.modRng f).kst = s.kst := rfl
@[simp] theorem State.modRng_uci : (s.modRng f).uci = s.uci := rfl
@[simp] theorem State.modRng_mem : (s.modRng f).mem = s.mem := rfl
@[simp] theorem State.modRng_tmp : (s.modRng f).tmp = s.tmp := rfl
@[simp] theorem State.modRng_bkp : (s.modRng f).bkp = s.bkp := rfl
@[simp] theorem State.modRng_mills : (s.modRng f).mills = s.mills := rfl
@[simp] theorem State.modRng_trib : (s.modRng f).trib = s.trib := rfl
@[simp] theorem State.modRng_tribOld : (s.modRng f).tribOld = s.tribOld := rfl
@[simp] theorem State.modRng_sc : (s.modRng f).sc = s.sc := rfl
@[simp] theorem State.modRng_sa : (s.modRng f).sa = s.sa := rfl
@[simp] theorem State.modRng_hbxRr : (s.modRng f).hbxRr = s.hbxRr := rfl
@[simp] theorem State.modRng_cur : (s.modRng f).cur = s.cur := rfl
@[simp] theorem State.modRng_lanes : (s.modRng f).lanes = s.lanes := rfl
@[simp] theorem State.modRng_felt : (s.modRng f).felt = s.felt := rfl
@[simp] theorem State.modRng_mte : (s.modRng f).mte = s.mte := rfl
end

/-! ### modUci -/

section
variable (f : Uci → Uci)
@[simp] theorem State.modUci_uci : (s.modUci f).uci = f s.uci := rfl
@[simp] theorem State.modUci_pending : (s.modUci f).pending = s.pending := rfl
@[simp] theorem State.modUci_now : (s.modUci f).now = s.now := rfl
@[simp] theorem State.modUci_free : (s.modUci f).free = s.free := rfl
@[simp] theorem State.modUci_out : (s.modUci f).out = s.out := rfl
@[simp] theorem State.modUci_regs : (s.modUci f).regs = s.regs := rfl
@[simp] theorem State.modUci_shadow : (s.modUci f).shadow = s.shadow := rfl
@[simp] theorem State.modUci_rst : (s.modUci f).rst = s.rst := rfl
@[simp] theorem State.modUci_hst : (s.modUci f).hst = s.hst := rfl
@[simp] theorem State.modUci_pads : (s.modUci f).pads = s.pads := rfl
@[simp] theorem State.modUci_pmc : (s.modUci f).pmc = s.pmc := rfl
@[simp] theorem State.modUci_evr : (s.modUci f).evr = s.evr := rfl
@[simp] theorem State.modUci_tim : (s.modUci f).tim = s.tim := rfl
@[simp] theorem State.modUci_otp : (s.modUci f).otp = s.otp := rfl
@[simp] theorem State.modUci_mtp : (s.modUci f).mtp = s.mtp := rfl
@[simp] theorem State.modUci_kst : (s.modUci f).kst = s.kst := rfl
@[simp] theorem State.modUci_rng : (s.modUci f).rng = s.rng := rfl
@[simp] theorem State.modUci_mem : (s.modUci f).mem = s.mem := rfl
@[simp] theorem State.modUci_tmp : (s.modUci f).tmp = s.tmp := rfl
@[simp] theorem State.modUci_bkp : (s.modUci f).bkp = s.bkp := rfl
@[simp] theorem State.modUci_mills : (s.modUci f).mills = s.mills := rfl
@[simp] theorem State.modUci_trib : (s.modUci f).trib = s.trib := rfl
@[simp] theorem State.modUci_tribOld : (s.modUci f).tribOld = s.tribOld := rfl
@[simp] theorem State.modUci_sc : (s.modUci f).sc = s.sc := rfl
@[simp] theorem State.modUci_sa : (s.modUci f).sa = s.sa := rfl
@[simp] theorem State.modUci_hbxRr : (s.modUci f).hbxRr = s.hbxRr := rfl
@[simp] theorem State.modUci_cur : (s.modUci f).cur = s.cur := rfl
@[simp] theorem State.modUci_lanes : (s.modUci f).lanes = s.lanes := rfl
@[simp] theorem State.modUci_felt : (s.modUci f).felt = s.felt := rfl
@[simp] theorem State.modUci_mte : (s.modUci f).mte = s.mte := rfl
end

/-! ### modMem -/

section
variable (f : Mem → Mem)
@[simp] theorem State.modMem_mem : (s.modMem f).mem = f s.mem := rfl
@[simp] theorem State.modMem_pending : (s.modMem f).pending = s.pending := rfl
@[simp] theorem State.modMem_now : (s.modMem f).now = s.now := rfl
@[simp] theorem State.modMem_free : (s.modMem f).free = s.free := rfl
@[simp] theorem State.modMem_out : (s.modMem f).out = s.out := rfl
@[simp] theorem State.modMem_regs : (s.modMem f).regs = s.regs := rfl
@[simp] theorem State.modMem_shadow : (s.modMem f).shadow = s.shadow := rfl
@[simp] theorem State.modMem_rst : (s.modMem f).rst = s.rst := rfl
@[simp] theorem State.modMem_hst : (s.modMem f).hst = s.hst := rfl
@[simp] theorem State.modMem_pads : (s.modMem f).pads = s.pads := rfl
@[simp] theorem State.modMem_pmc : (s.modMem f).pmc = s.pmc := rfl
@[simp] theorem State.modMem_evr : (s.modMem f).evr = s.evr := rfl
@[simp] theorem State.modMem_tim : (s.modMem f).tim = s.tim := rfl
@[simp] theorem State.modMem_otp : (s.modMem f).otp = s.otp := rfl
@[simp] theorem State.modMem_mtp : (s.modMem f).mtp = s.mtp := rfl
@[simp] theorem State.modMem_kst : (s.modMem f).kst = s.kst := rfl
@[simp] theorem State.modMem_rng : (s.modMem f).rng = s.rng := rfl
@[simp] theorem State.modMem_uci : (s.modMem f).uci = s.uci := rfl
@[simp] theorem State.modMem_tmp : (s.modMem f).tmp = s.tmp := rfl
@[simp] theorem State.modMem_bkp : (s.modMem f).bkp = s.bkp := rfl
@[simp] theorem State.modMem_mills : (s.modMem f).mills = s.mills := rfl
@[simp] theorem State.modMem_trib : (s.modMem f).trib = s.trib := rfl
@[simp] theorem State.modMem_tribOld : (s.modMem f).tribOld = s.tribOld := rfl
@[simp] theorem State.modMem_sc : (s.modMem f).sc = s.sc := rfl
@[simp] theorem State.modMem_sa : (s.modMem f).sa = s.sa := rfl
@[simp] theorem State.modMem_hbxRr : (s.modMem f).hbxRr = s.hbxRr := rfl
@[simp] theorem State.modMem_cur : (s.modMem f).cur = s.cur := rfl
@[simp] theorem State.modMem_lanes : (s.modMem f).lanes = s.lanes := rfl
@[simp] theorem State.modMem_felt : (s.modMem f).felt = s.felt := rfl
@[simp] theorem State.modMem_mte : (s.modMem f).mte = s.mte := rfl
end

/-! ### modTmp -/

section
variable (f : Tmp → Tmp)
@[simp] theorem State.modTmp_tmp : (s.modTmp f).tmp = f s.tmp := rfl
@[simp] theorem State.modTmp_pending : (s.modTmp f).pending = s.pending := rfl
@[simp] theorem State.modTmp_now : (s.modTmp f).now = s.now := rfl
@[simp] theorem State.modTmp_free : (s.modTmp f).free = s.free := rfl
@[simp] theorem State.modTmp_out : (s.modTmp f).out = s.out := rfl
@[simp] theorem State.modTmp_regs : (s.modTmp f).regs = s.regs := rfl
@[simp] theorem State.modTmp_shadow : (s.modTmp f).shadow = s.shadow := rfl
@[simp] theorem State.modTmp_rst : (s.modTmp f).rst = s.rst := rfl
@[simp] theorem State.modTmp_hst : (s.modTmp f).hst = s.hst := rfl
@[simp] theorem State.modTmp_pads : (s.modTmp f).pads = s.pads := rfl
@[simp] theorem State.modTmp_pmc : (s.modTmp f).pmc = s.pmc := rfl
@[simp] theorem State.modTmp_evr : (s.modTmp f).evr = s.evr := rfl
@[simp] theorem State.modTmp_tim : (s.modTmp f).tim = s.tim := rfl
@[simp] theorem State.modTmp_otp : (s.modTmp f).otp = s.otp := rfl
@[simp] theorem State.modTmp_mtp : (s.modTmp f).mtp = s.mtp := rfl
@[simp] theorem State.modTmp_kst : (s.modTmp f).kst = s.kst := rfl
@[simp] theorem State.modTmp_rng : (s.modTmp f).rng = s.rng := rfl
@[simp] theorem State.modTmp_uci : (s.modTmp f).uci = s.uci := rfl
@[simp] theorem State.modTmp_mem : (s.modTmp f).mem = s.mem := rfl
@[simp] theorem State.modTmp_bkp : (s.modTmp f).bkp = s.bkp := rfl
@[simp] theorem State.modTmp_mills : (s.modTmp f).mills = s.mills := rfl
@[simp] theorem State.modTmp_trib : (s.modTmp f).trib = s.trib := rfl
@[simp] theorem State.modTmp_tribOld : (s.modTmp f).tribOld = s.tribOld := rfl
@[simp] theorem State.modTmp_sc : (s.modTmp f).sc = s.sc := rfl
@[simp] theorem State.modTmp_sa : (s.modTmp f).sa = s.sa := rfl
@[simp] theorem State.modTmp_hbxRr : (s.modTmp f).hbxRr = s.hbxRr := rfl
@[simp] theorem State.modTmp_cur : (s.modTmp f).cur = s.cur := rfl
@[simp] theorem State.modTmp_lanes : (s.modTmp f).lanes = s.lanes := rfl
@[simp] theorem State.modTmp_felt : (s.modTmp f).felt = s.felt := rfl
@[simp] theorem State.modTmp_mte : (s.modTmp f).mte = s.mte := rfl
end

/-! ### modBkp -/

section
variable (f : Bkp → Bkp)
@[simp] theorem State.modBkp_bkp : (s.modBkp f).bkp = f s.bkp := rfl
@[simp] theorem State.modBkp_pending : (s.modBkp f).pending = s.pending := rfl
@[simp] theorem State.modBkp_now : (s.modBkp f).now = s.now := rfl
@[simp] theorem State.modBkp_free : (s.modBkp f).free = s.free := rfl
@[simp] theorem State.modBkp_out : (s.modBkp f).out = s.out := rfl
@[simp] theorem State.modBkp_regs : (s.modBkp f).regs = s.regs := rfl
@[simp] theorem State.modBkp_shadow : (s.modBkp f).shadow = s.shadow := rfl
@[simp] theorem State.modBkp_rst : (s.modBkp f).rst = s.rst := rfl
@[simp] theorem State.modBkp_hst : (s.modBkp f).hst = s.hst := rfl
@[simp] theorem State.modBkp_pads : (s.modBkp f).pads = s.pads := rfl
@[simp] theorem State.modBkp_pmc : (s.modBkp f).pmc = s.pmc := rfl
@[simp] theorem State.modBkp_evr : (s.modBkp f).evr = s.evr := rfl
@[simp] theorem State.modBkp_tim : (s.modBkp f).tim = s.tim := rfl
@[simp] theorem State.modBkp_otp : (s.modBkp f).otp = s.otp := rfl
@[simp] theorem State.modBkp_mtp : (s.modBkp f).mtp = s.mtp := rfl
@[simp] theorem State.modBkp_kst : (s.modBkp f).kst = s.kst := rfl
@[simp] theorem State.modBkp_rng : (s.modBkp f).rng = s.rng := rfl
@[simp] theorem State.modBkp_uci : (s.modBkp f).uci = s.uci := rfl
@[simp] theorem State.modBkp_mem : (s.modBkp f).mem = s.mem := rfl
@[simp] theorem State.modBkp_tmp : (s.modBkp f).tmp = s.tmp := rfl
@[simp] theorem State.modBkp_mills : (s.modBkp f).mills = s.mills := rfl
@[simp] theorem State.modBkp_trib : (s.modBkp f).trib = s.trib := rfl
@[simp] theorem State.modBkp_tribOld : (s.modBkp f).tribOld = s.tribOld := rfl
@[simp] theorem State.modBkp_sc : (s.modBkp f).sc = s.sc := rfl
@[simp] theorem State.modBkp_sa : (s.modBkp f).sa = s.sa := rfl
@[simp] theorem State.modBkp_hbxRr : (s.modBkp f).hbxRr = s.hbxRr := rfl
@[simp] theorem State.modBkp_cur : (s.modBkp f).cur = s.cur := rfl
@[simp] theorem State.modBkp_lanes : (s.modBkp f).lanes = s.lanes := rfl
@[simp] theorem State.modBkp_felt : (s.modBkp f).felt = s.felt := rfl
@[simp] theorem State.modBkp_mte : (s.modBkp f).mte = s.mte := rfl
end

/-! ### modFelt -/

section
variable (f : Felt → Felt)
@[simp] theorem State.modFelt_felt : (s.modFelt f).felt = f s.felt := rfl
@[simp] theorem State.modFelt_pending : (s.modFelt f).pending = s.pending := rfl
@[simp] theorem State.modFelt_now : (s.modFelt f).now = s.now := rfl
@[simp] theorem State.modFelt_free : (s.modFelt f).free = s.free := rfl
@[simp] theorem State.modFelt_out : (s.modFelt f).out = s.out := rfl
@[simp] theorem State.modFelt_regs : (s.modFelt f).regs = s.regs := rfl
@[simp] theorem State.modFelt_shadow : (s.modFelt f).shadow = s.shadow := rfl
@[simp] theorem State.modFelt_rst : (s.modFelt f).rst = s.rst := rfl
@[simp] theorem State.modFelt_hst : (s.modFelt f).hst = s.hst := rfl
@[simp] theorem State.modFelt_pads : (s.modFelt f).pads = s.pads := rfl
@[simp] theorem State.modFelt_pmc : (s.modFelt f).pmc = s.pmc := rfl
@[simp] theorem State.modFelt_evr : (s.modFelt f).evr = s.evr := rfl
@[simp] theorem State.modFelt_tim : (s.modFelt f).tim = s.tim := rfl
@[simp] theorem State.modFelt_otp : (s.modFelt f).otp = s.otp := rfl
@[simp] theorem State.modFelt_mtp : (s.modFelt f).mtp = s.mtp := rfl
@[simp] theorem State.modFelt_kst : (s.modFelt f).kst = s.kst := rfl
@[simp] theorem State.modFelt_rng : (s.modFelt f).rng = s.rng := rfl
@[simp] theorem State.modFelt_uci : (s.modFelt f).uci = s.uci := rfl
@[simp] theorem State.modFelt_mem : (s.modFelt f).mem = s.mem := rfl
@[simp] theorem State.modFelt_tmp : (s.modFelt f).tmp = s.tmp := rfl
@[simp] theorem State.modFelt_bkp : (s.modFelt f).bkp = s.bkp := rfl
@[simp] theorem State.modFelt_mills : (s.modFelt f).mills = s.mills := rfl
@[simp] theorem State.modFelt_trib : (s.modFelt f).trib = s.trib := rfl
@[simp] theorem State.modFelt_tribOld : (s.modFelt f).tribOld = s.tribOld := rfl
@[simp] theorem State.modFelt_sc : (s.modFelt f).sc = s.sc := rfl
@[simp] theorem State.modFelt_sa : (s.modFelt f).sa = s.sa := rfl
@[simp] theorem State.modFelt_hbxRr : (s.modFelt f).hbxRr = s.hbxRr := rfl
@[simp] theorem State.modFelt_cur : (s.modFelt f).cur = s.cur := rfl
@[simp] theorem State.modFelt_lanes : (s.modFelt f).lanes = s.lanes := rfl
@[simp] theorem State.modFelt_mte : (s.modFelt f).mte = s.mte := rfl
end

/-! ### modMte -/

section
variable (f : Mte → Mte)
@[simp] theorem State.modMte_mte : (s.modMte f).mte = f s.mte := rfl
@[simp] theorem State.modMte_pending : (s.modMte f).pending = s.pending := rfl
@[simp] theorem State.modMte_now : (s.modMte f).now = s.now := rfl
@[simp] theorem State.modMte_free : (s.modMte f).free = s.free := rfl
@[simp] theorem State.modMte_out : (s.modMte f).out = s.out := rfl
@[simp] theorem State.modMte_regs : (s.modMte f).regs = s.regs := rfl
@[simp] theorem State.modMte_shadow : (s.modMte f).shadow = s.shadow := rfl
@[simp] theorem State.modMte_rst : (s.modMte f).rst = s.rst := rfl
@[simp] theorem State.modMte_hst : (s.modMte f).hst = s.hst := rfl
@[simp] theorem State.modMte_pads : (s.modMte f).pads = s.pads := rfl
@[simp] theorem State.modMte_pmc : (s.modMte f).pmc = s.pmc := rfl
@[simp] theorem State.modMte_evr : (s.modMte f).evr = s.evr := rfl
@[simp] theorem State.modMte_tim : (s.modMte f).tim = s.tim := rfl
@[simp] theorem State.modMte_otp : (s.modMte f).otp = s.otp := rfl
@[simp] theorem State.modMte_mtp : (s.modMte f).mtp = s.mtp := rfl
@[simp] theorem State.modMte_kst : (s.modMte f).kst = s.kst := rfl
@[simp] theorem State.modMte_rng : (s.modMte f).rng = s.rng := rfl
@[simp] theorem State.modMte_uci : (s.modMte f).uci = s.uci := rfl
@[simp] theorem State.modMte_mem : (s.modMte f).mem = s.mem := rfl
@[simp] theorem State.modMte_tmp : (s.modMte f).tmp = s.tmp := rfl
@[simp] theorem State.modMte_bkp : (s.modMte f).bkp = s.bkp := rfl
@[simp] theorem State.modMte_mills : (s.modMte f).mills = s.mills := rfl
@[simp] theorem State.modMte_trib : (s.modMte f).trib = s.trib := rfl
@[simp] theorem State.modMte_tribOld : (s.modMte f).tribOld = s.tribOld := rfl
@[simp] theorem State.modMte_sc : (s.modMte f).sc = s.sc := rfl
@[simp] theorem State.modMte_sa : (s.modMte f).sa = s.sa := rfl
@[simp] theorem State.modMte_hbxRr : (s.modMte f).hbxRr = s.hbxRr := rfl
@[simp] theorem State.modMte_cur : (s.modMte f).cur = s.cur := rfl
@[simp] theorem State.modMte_lanes : (s.modMte f).lanes = s.lanes := rfl
@[simp] theorem State.modMte_felt : (s.modMte f).felt = s.felt := rfl
end

/-! ### modMill -/

section
variable (m : Fin 4) (f : Mill → Mill)
@[simp] theorem State.modMill_pending : (s.modMill m f).pending = s.pending := rfl
@[simp] theorem State.modMill_now : (s.modMill m f).now = s.now := rfl
@[simp] theorem State.modMill_free : (s.modMill m f).free = s.free := rfl
@[simp] theorem State.modMill_out : (s.modMill m f).out = s.out := rfl
@[simp] theorem State.modMill_regs : (s.modMill m f).regs = s.regs := rfl
@[simp] theorem State.modMill_shadow : (s.modMill m f).shadow = s.shadow := rfl
@[simp] theorem State.modMill_rst : (s.modMill m f).rst = s.rst := rfl
@[simp] theorem State.modMill_hst : (s.modMill m f).hst = s.hst := rfl
@[simp] theorem State.modMill_pads : (s.modMill m f).pads = s.pads := rfl
@[simp] theorem State.modMill_pmc : (s.modMill m f).pmc = s.pmc := rfl
@[simp] theorem State.modMill_evr : (s.modMill m f).evr = s.evr := rfl
@[simp] theorem State.modMill_tim : (s.modMill m f).tim = s.tim := rfl
@[simp] theorem State.modMill_otp : (s.modMill m f).otp = s.otp := rfl
@[simp] theorem State.modMill_mtp : (s.modMill m f).mtp = s.mtp := rfl
@[simp] theorem State.modMill_kst : (s.modMill m f).kst = s.kst := rfl
@[simp] theorem State.modMill_rng : (s.modMill m f).rng = s.rng := rfl
@[simp] theorem State.modMill_uci : (s.modMill m f).uci = s.uci := rfl
@[simp] theorem State.modMill_mem : (s.modMill m f).mem = s.mem := rfl
@[simp] theorem State.modMill_tmp : (s.modMill m f).tmp = s.tmp := rfl
@[simp] theorem State.modMill_bkp : (s.modMill m f).bkp = s.bkp := rfl
@[simp] theorem State.modMill_trib : (s.modMill m f).trib = s.trib := rfl
@[simp] theorem State.modMill_tribOld : (s.modMill m f).tribOld = s.tribOld := rfl
@[simp] theorem State.modMill_sc : (s.modMill m f).sc = s.sc := rfl
@[simp] theorem State.modMill_sa : (s.modMill m f).sa = s.sa := rfl
@[simp] theorem State.modMill_hbxRr : (s.modMill m f).hbxRr = s.hbxRr := rfl
@[simp] theorem State.modMill_cur : (s.modMill m f).cur = s.cur := rfl
@[simp] theorem State.modMill_lanes : (s.modMill m f).lanes = s.lanes := rfl
@[simp] theorem State.modMill_felt : (s.modMill m f).felt = s.felt := rfl
@[simp] theorem State.modMill_mte : (s.modMill m f).mte = s.mte := rfl
end

/-! ### setReg -/

section
variable (a v : Nat)
@[simp] theorem State.setReg_pending : (s.setReg a v).pending = s.pending := rfl
@[simp] theorem State.setReg_now : (s.setReg a v).now = s.now := rfl
@[simp] theorem State.setReg_free : (s.setReg a v).free = s.free := rfl
@[simp] theorem State.setReg_out : (s.setReg a v).out = s.out := rfl
@[simp] theorem State.setReg_shadow : (s.setReg a v).shadow = s.shadow := rfl
@[simp] theorem State.setReg_rst : (s.setReg a v).rst = s.rst := rfl
@[simp] theorem State.setReg_hst : (s.setReg a v).hst = s.hst := rfl
@[simp] theorem State.setReg_pads : (s.setReg a v).pads = s.pads := rfl
@[simp] theorem State.setReg_pmc : (s.setReg a v).pmc = s.pmc := rfl
@[simp] theorem State.setReg_evr : (s.setReg a v).evr = s.evr := rfl
@[simp] theorem State.setReg_tim : (s.setReg a v).tim = s.tim := rfl
@[simp] theorem State.setReg_otp : (s.setReg a v).otp = s.otp := rfl
@[simp] theorem State.setReg_mtp : (s.setReg a v).mtp = s.mtp := rfl
@[simp] theorem State.setReg_kst : (s.setReg a v).kst = s.kst := rfl
@[simp] theorem State.setReg_rng : (s.setReg a v).rng = s.rng := rfl
@[simp] theorem State.setReg_uci : (s.setReg a v).uci = s.uci := rfl
@[simp] theorem State.setReg_mem : (s.setReg a v).mem = s.mem := rfl
@[simp] theorem State.setReg_tmp : (s.setReg a v).tmp = s.tmp := rfl
@[simp] theorem State.setReg_bkp : (s.setReg a v).bkp = s.bkp := rfl
@[simp] theorem State.setReg_mills : (s.setReg a v).mills = s.mills := rfl
@[simp] theorem State.setReg_trib : (s.setReg a v).trib = s.trib := rfl
@[simp] theorem State.setReg_tribOld : (s.setReg a v).tribOld = s.tribOld := rfl
@[simp] theorem State.setReg_sc : (s.setReg a v).sc = s.sc := rfl
@[simp] theorem State.setReg_sa : (s.setReg a v).sa = s.sa := rfl
@[simp] theorem State.setReg_hbxRr : (s.setReg a v).hbxRr = s.hbxRr := rfl
@[simp] theorem State.setReg_cur : (s.setReg a v).cur = s.cur := rfl
@[simp] theorem State.setReg_lanes : (s.setReg a v).lanes = s.lanes := rfl
@[simp] theorem State.setReg_felt : (s.setReg a v).felt = s.felt := rfl
@[simp] theorem State.setReg_mte : (s.setReg a v).mte = s.mte := rfl
end

/-! ### setTrib -/

section
variable (n : Nat) (v : Trib)
@[simp] theorem State.setTrib_pending : (s.setTrib n v).pending = s.pending := rfl
@[simp] theorem State.setTrib_now : (s.setTrib n v).now = s.now := rfl
@[simp] theorem State.setTrib_free : (s.setTrib n v).free = s.free := rfl
@[simp] theorem State.setTrib_out : (s.setTrib n v).out = s.out := rfl
@[simp] theorem State.setTrib_regs : (s.setTrib n v).regs = s.regs := rfl
@[simp] theorem State.setTrib_shadow : (s.setTrib n v).shadow = s.shadow := rfl
@[simp] theorem State.setTrib_rst : (s.setTrib n v).rst = s.rst := rfl
@[simp] theorem State.setTrib_hst : (s.setTrib n v).hst = s.hst := rfl
@[simp] theorem State.setTrib_pads : (s.setTrib n v).pads = s.pads := rfl
@[simp] theorem State.setTrib_pmc : (s.setTrib n v).pmc = s.pmc := rfl
@[simp] theorem State.setTrib_evr : (s.setTrib n v).evr = s.evr := rfl
@[simp] theorem State.setTrib_tim : (s.setTrib n v).tim = s.tim := rfl
@[simp] theorem State.setTrib_otp : (s.setTrib n v).otp = s.otp := rfl
@[simp] theorem State.setTrib_mtp : (s.setTrib n v).mtp = s.mtp := rfl
@[simp] theorem State.setTrib_kst : (s.setTrib n v).kst = s.kst := rfl
@[simp] theorem State.setTrib_rng : (s.setTrib n v).rng = s.rng := rfl
@[simp] theorem State.setTrib_uci : (s.setTrib n v).uci = s.uci := rfl
@[simp] theorem State.setTrib_mem : (s.setTrib n v).mem = s.mem := rfl
@[simp] theorem State.setTrib_tmp : (s.setTrib n v).tmp = s.tmp := rfl
@[simp] theorem State.setTrib_bkp : (s.setTrib n v).bkp = s.bkp := rfl
@[simp] theorem State.setTrib_mills : (s.setTrib n v).mills = s.mills := rfl
@[simp] theorem State.setTrib_tribOld : (s.setTrib n v).tribOld = s.tribOld := rfl
@[simp] theorem State.setTrib_sc : (s.setTrib n v).sc = s.sc := rfl
@[simp] theorem State.setTrib_sa : (s.setTrib n v).sa = s.sa := rfl
@[simp] theorem State.setTrib_hbxRr : (s.setTrib n v).hbxRr = s.hbxRr := rfl
@[simp] theorem State.setTrib_cur : (s.setTrib n v).cur = s.cur := rfl
@[simp] theorem State.setTrib_lanes : (s.setTrib n v).lanes = s.lanes := rfl
@[simp] theorem State.setTrib_felt : (s.setTrib n v).felt = s.felt := rfl
@[simp] theorem State.setTrib_mte : (s.setTrib n v).mte = s.mte := rfl
end

/-! ### setSa -/

section
variable (n : Nat) (v : SaDir)
@[simp] theorem State.setSa_pending : (s.setSa n v).pending = s.pending := rfl
@[simp] theorem State.setSa_now : (s.setSa n v).now = s.now := rfl
@[simp] theorem State.setSa_free : (s.setSa n v).free = s.free := rfl
@[simp] theorem State.setSa_out : (s.setSa n v).out = s.out := rfl
@[simp] theorem State.setSa_regs : (s.setSa n v).regs = s.regs := rfl
@[simp] theorem State.setSa_shadow : (s.setSa n v).shadow = s.shadow := rfl
@[simp] theorem State.setSa_rst : (s.setSa n v).rst = s.rst := rfl
@[simp] theorem State.setSa_hst : (s.setSa n v).hst = s.hst := rfl
@[simp] theorem State.setSa_pads : (s.setSa n v).pads = s.pads := rfl
@[simp] theorem State.setSa_pmc : (s.setSa n v).pmc = s.pmc := rfl
@[simp] theorem State.setSa_evr : (s.setSa n v).evr = s.evr := rfl
@[simp] theorem State.setSa_tim : (s.setSa n v).tim = s.tim := rfl
@[simp] theorem State.setSa_otp : (s.setSa n v).otp = s.otp := rfl
@[simp] theorem State.setSa_mtp : (s.setSa n v).mtp = s.mtp := rfl
@[simp] theorem State.setSa_kst : (s.setSa n v).kst = s.kst := rfl
@[simp] theorem State.setSa_rng : (s.setSa n v).rng = s.rng := rfl
@[simp] theorem State.setSa_uci : (s.setSa n v).uci = s.uci := rfl
@[simp] theorem State.setSa_mem : (s.setSa n v).mem = s.mem := rfl
@[simp] theorem State.setSa_tmp : (s.setSa n v).tmp = s.tmp := rfl
@[simp] theorem State.setSa_bkp : (s.setSa n v).bkp = s.bkp := rfl
@[simp] theorem State.setSa_mills : (s.setSa n v).mills = s.mills := rfl
@[simp] theorem State.setSa_trib : (s.setSa n v).trib = s.trib := rfl
@[simp] theorem State.setSa_tribOld : (s.setSa n v).tribOld = s.tribOld := rfl
@[simp] theorem State.setSa_sc : (s.setSa n v).sc = s.sc := rfl
@[simp] theorem State.setSa_hbxRr : (s.setSa n v).hbxRr = s.hbxRr := rfl
@[simp] theorem State.setSa_cur : (s.setSa n v).cur = s.cur := rfl
@[simp] theorem State.setSa_lanes : (s.setSa n v).lanes = s.lanes := rfl
@[simp] theorem State.setSa_felt : (s.setSa n v).felt = s.felt := rfl
@[simp] theorem State.setSa_mte : (s.setSa n v).mte = s.mte := rfl
end

/-! ### setSc -/

section
variable (n : Nat) (v : Sc)
@[simp] theorem State.setSc_pending : (s.setSc n v).pending = s.pending := rfl
@[simp] theorem State.setSc_now : (s.setSc n v).now = s.now := rfl
@[simp] theorem State.setSc_free : (s.setSc n v).free = s.free := rfl
@[simp] theorem State.setSc_out : (s.setSc n v).out = s.out := rfl
@[simp] theorem State.setSc_regs : (s.setSc n v).regs = s.regs := rfl
@[simp] theorem State.setSc_shadow : (s.setSc n v).shadow = s.shadow := rfl
@[simp] theorem State.setSc_rst : (s.setSc n v).rst = s.rst := rfl
@[simp] theorem State.setSc_hst : (s.setSc n v).hst = s.hst := rfl
@[simp] theorem State.setSc_pads : (s.setSc n v).pads = s.pads := rfl
@[simp] theorem State.setSc_pmc : (s.setSc n v).pmc = s.pmc := rfl
@[simp] theorem State.setSc_evr : (s.setSc n v).evr = s.evr := rfl
@[simp] theorem State.setSc_tim : (s.setSc n v).tim = s.tim := rfl
@[simp] theorem State.setSc_otp : (s.setSc n v).otp = s.otp := rfl
@[simp] theorem State.setSc_mtp : (s.setSc n v).mtp = s.mtp := rfl
@[simp] theorem State.setSc_kst : (s.setSc n v).kst = s.kst := rfl
@[simp] theorem State.setSc_rng : (s.setSc n v).rng = s.rng := rfl
@[simp] theorem State.setSc_uci : (s.setSc n v).uci = s.uci := rfl
@[simp] theorem State.setSc_mem : (s.setSc n v).mem = s.mem := rfl
@[simp] theorem State.setSc_tmp : (s.setSc n v).tmp = s.tmp := rfl
@[simp] theorem State.setSc_bkp : (s.setSc n v).bkp = s.bkp := rfl
@[simp] theorem State.setSc_mills : (s.setSc n v).mills = s.mills := rfl
@[simp] theorem State.setSc_trib : (s.setSc n v).trib = s.trib := rfl
@[simp] theorem State.setSc_tribOld : (s.setSc n v).tribOld = s.tribOld := rfl
@[simp] theorem State.setSc_sa : (s.setSc n v).sa = s.sa := rfl
@[simp] theorem State.setSc_hbxRr : (s.setSc n v).hbxRr = s.hbxRr := rfl
@[simp] theorem State.setSc_cur : (s.setSc n v).cur = s.cur := rfl
@[simp] theorem State.setSc_lanes : (s.setSc n v).lanes = s.lanes := rfl
@[simp] theorem State.setSc_felt : (s.setSc n v).felt = s.felt := rfl
@[simp] theorem State.setSc_mte : (s.setSc n v).mte = s.mte := rfl
end

/-! ### modEng -/

section
variable (k : Fin 4) (f : Engine → Engine)
@[simp] theorem State.modEng_pending : (s.modEng k f).pending = s.pending := rfl
@[simp] theorem State.modEng_now : (s.modEng k f).now = s.now := rfl
@[simp] theorem State.modEng_free : (s.modEng k f).free = s.free := rfl
@[simp] theorem State.modEng_out : (s.modEng k f).out = s.out := rfl
@[simp] theorem State.modEng_regs : (s.modEng k f).regs = s.regs := rfl
@[simp] theorem State.modEng_shadow : (s.modEng k f).shadow = s.shadow := rfl
@[simp] theorem State.modEng_rst : (s.modEng k f).rst = s.rst := rfl
@[simp] theorem State.modEng_hst : (s.modEng k f).hst = s.hst := rfl
@[simp] theorem State.modEng_pads : (s.modEng k f).pads = s.pads := rfl
@[simp] theorem State.modEng_pmc : (s.modEng k f).pmc = s.pmc := rfl
@[simp] theorem State.modEng_evr : (s.modEng k f).evr = s.evr := rfl
@[simp] theorem State.modEng_tim : (s.modEng k f).tim = s.tim := rfl
@[simp] theorem State.modEng_otp : (s.modEng k f).otp = s.otp := rfl
@[simp] theorem State.modEng_mtp : (s.modEng k f).mtp = s.mtp := rfl
@[simp] theorem State.modEng_kst : (s.modEng k f).kst = s.kst := rfl
@[simp] theorem State.modEng_rng : (s.modEng k f).rng = s.rng := rfl
@[simp] theorem State.modEng_uci : (s.modEng k f).uci = s.uci := rfl
@[simp] theorem State.modEng_mem : (s.modEng k f).mem = s.mem := rfl
@[simp] theorem State.modEng_tmp : (s.modEng k f).tmp = s.tmp := rfl
@[simp] theorem State.modEng_bkp : (s.modEng k f).bkp = s.bkp := rfl
@[simp] theorem State.modEng_mills : (s.modEng k f).mills = s.mills := rfl
@[simp] theorem State.modEng_trib : (s.modEng k f).trib = s.trib := rfl
@[simp] theorem State.modEng_tribOld : (s.modEng k f).tribOld = s.tribOld := rfl
@[simp] theorem State.modEng_sc : (s.modEng k f).sc = s.sc := rfl
@[simp] theorem State.modEng_sa : (s.modEng k f).sa = s.sa := rfl
@[simp] theorem State.modEng_hbxRr : (s.modEng k f).hbxRr = s.hbxRr := rfl
@[simp] theorem State.modEng_lanes : (s.modEng k f).lanes = s.lanes := rfl
@[simp] theorem State.modEng_felt : (s.modEng k f).felt = s.felt := rfl
@[simp] theorem State.modEng_mte : (s.modEng k f).mte = s.mte := rfl
end

/-! ### modLane -/

section
variable (n : Fin 68) (f : Lane → Lane)
@[simp] theorem State.modLane_pending : (s.modLane n f).pending = s.pending := rfl
@[simp] theorem State.modLane_now : (s.modLane n f).now = s.now := rfl
@[simp] theorem State.modLane_free : (s.modLane n f).free = s.free := rfl
@[simp] theorem State.modLane_out : (s.modLane n f).out = s.out := rfl
@[simp] theorem State.modLane_regs : (s.modLane n f).regs = s.regs := rfl
@[simp] theorem State.modLane_shadow : (s.modLane n f).shadow = s.shadow := rfl
@[simp] theorem State.modLane_rst : (s.modLane n f).rst = s.rst := rfl
@[simp] theorem State.modLane_hst : (s.modLane n f).hst = s.hst := rfl
@[simp] theorem State.modLane_pads : (s.modLane n f).pads = s.pads := rfl
@[simp] theorem State.modLane_pmc : (s.modLane n f).pmc = s.pmc := rfl
@[simp] theorem State.modLane_evr : (s.modLane n f).evr = s.evr := rfl
@[simp] theorem State.modLane_tim : (s.modLane n f).tim = s.tim := rfl
@[simp] theorem State.modLane_otp : (s.modLane n f).otp = s.otp := rfl
@[simp] theorem State.modLane_mtp : (s.modLane n f).mtp = s.mtp := rfl
@[simp] theorem State.modLane_kst : (s.modLane n f).kst = s.kst := rfl
@[simp] theorem State.modLane_rng : (s.modLane n f).rng = s.rng := rfl
@[simp] theorem State.modLane_uci : (s.modLane n f).uci = s.uci := rfl
@[simp] theorem State.modLane_mem : (s.modLane n f).mem = s.mem := rfl
@[simp] theorem State.modLane_tmp : (s.modLane n f).tmp = s.tmp := rfl
@[simp] theorem State.modLane_bkp : (s.modLane n f).bkp = s.bkp := rfl
@[simp] theorem State.modLane_mills : (s.modLane n f).mills = s.mills := rfl
@[simp] theorem State.modLane_trib : (s.modLane n f).trib = s.trib := rfl
@[simp] theorem State.modLane_tribOld : (s.modLane n f).tribOld = s.tribOld := rfl
@[simp] theorem State.modLane_sc : (s.modLane n f).sc = s.sc := rfl
@[simp] theorem State.modLane_sa : (s.modLane n f).sa = s.sa := rfl
@[simp] theorem State.modLane_hbxRr : (s.modLane n f).hbxRr = s.hbxRr := rfl
@[simp] theorem State.modLane_cur : (s.modLane n f).cur = s.cur := rfl
@[simp] theorem State.modLane_felt : (s.modLane n f).felt = s.felt := rfl
@[simp] theorem State.modLane_mte : (s.modLane n f).mte = s.mte := rfl
end

/-! ### setSlot -/

section
variable (i : Nat) (v : Slot)
@[simp] theorem State.setSlot_pending : (s.setSlot i v).pending = s.pending := rfl
@[simp] theorem State.setSlot_now : (s.setSlot i v).now = s.now := rfl
@[simp] theorem State.setSlot_free : (s.setSlot i v).free = s.free := rfl
@[simp] theorem State.setSlot_out : (s.setSlot i v).out = s.out := rfl
@[simp] theorem State.setSlot_regs : (s.setSlot i v).regs = s.regs := rfl
@[simp] theorem State.setSlot_shadow : (s.setSlot i v).shadow = s.shadow := rfl
@[simp] theorem State.setSlot_rst : (s.setSlot i v).rst = s.rst := rfl
@[simp] theorem State.setSlot_hst : (s.setSlot i v).hst = s.hst := rfl
@[simp] theorem State.setSlot_pads : (s.setSlot i v).pads = s.pads := rfl
@[simp] theorem State.setSlot_pmc : (s.setSlot i v).pmc = s.pmc := rfl
@[simp] theorem State.setSlot_evr : (s.setSlot i v).evr = s.evr := rfl
@[simp] theorem State.setSlot_tim : (s.setSlot i v).tim = s.tim := rfl
@[simp] theorem State.setSlot_otp : (s.setSlot i v).otp = s.otp := rfl
@[simp] theorem State.setSlot_mtp : (s.setSlot i v).mtp = s.mtp := rfl
@[simp] theorem State.setSlot_rng : (s.setSlot i v).rng = s.rng := rfl
@[simp] theorem State.setSlot_uci : (s.setSlot i v).uci = s.uci := rfl
@[simp] theorem State.setSlot_mem : (s.setSlot i v).mem = s.mem := rfl
@[simp] theorem State.setSlot_tmp : (s.setSlot i v).tmp = s.tmp := rfl
@[simp] theorem State.setSlot_bkp : (s.setSlot i v).bkp = s.bkp := rfl
@[simp] theorem State.setSlot_mills : (s.setSlot i v).mills = s.mills := rfl
@[simp] theorem State.setSlot_trib : (s.setSlot i v).trib = s.trib := rfl
@[simp] theorem State.setSlot_tribOld : (s.setSlot i v).tribOld = s.tribOld := rfl
@[simp] theorem State.setSlot_sc : (s.setSlot i v).sc = s.sc := rfl
@[simp] theorem State.setSlot_sa : (s.setSlot i v).sa = s.sa := rfl
@[simp] theorem State.setSlot_hbxRr : (s.setSlot i v).hbxRr = s.hbxRr := rfl
@[simp] theorem State.setSlot_cur : (s.setSlot i v).cur = s.cur := rfl
@[simp] theorem State.setSlot_lanes : (s.setSlot i v).lanes = s.lanes := rfl
@[simp] theorem State.setSlot_felt : (s.setSlot i v).felt = s.felt := rfl
@[simp] theorem State.setSlot_mte : (s.setSlot i v).mte = s.mte := rfl
end

/-! ### modTb -/

section
variable (b : Fin 8) (f : TimeBase → TimeBase)
@[simp] theorem State.modTb_pending : (s.modTb b f).pending = s.pending := rfl
@[simp] theorem State.modTb_now : (s.modTb b f).now = s.now := rfl
@[simp] theorem State.modTb_free : (s.modTb b f).free = s.free := rfl
@[simp] theorem State.modTb_out : (s.modTb b f).out = s.out := rfl
@[simp] theorem State.modTb_regs : (s.modTb b f).regs = s.regs := rfl
@[simp] theorem State.modTb_shadow : (s.modTb b f).shadow = s.shadow := rfl
@[simp] theorem State.modTb_rst : (s.modTb b f).rst = s.rst := rfl
@[simp] theorem State.modTb_hst : (s.modTb b f).hst = s.hst := rfl
@[simp] theorem State.modTb_pads : (s.modTb b f).pads = s.pads := rfl
@[simp] theorem State.modTb_pmc : (s.modTb b f).pmc = s.pmc := rfl
@[simp] theorem State.modTb_evr : (s.modTb b f).evr = s.evr := rfl
@[simp] theorem State.modTb_otp : (s.modTb b f).otp = s.otp := rfl
@[simp] theorem State.modTb_mtp : (s.modTb b f).mtp = s.mtp := rfl
@[simp] theorem State.modTb_kst : (s.modTb b f).kst = s.kst := rfl
@[simp] theorem State.modTb_rng : (s.modTb b f).rng = s.rng := rfl
@[simp] theorem State.modTb_uci : (s.modTb b f).uci = s.uci := rfl
@[simp] theorem State.modTb_mem : (s.modTb b f).mem = s.mem := rfl
@[simp] theorem State.modTb_tmp : (s.modTb b f).tmp = s.tmp := rfl
@[simp] theorem State.modTb_bkp : (s.modTb b f).bkp = s.bkp := rfl
@[simp] theorem State.modTb_mills : (s.modTb b f).mills = s.mills := rfl
@[simp] theorem State.modTb_trib : (s.modTb b f).trib = s.trib := rfl
@[simp] theorem State.modTb_tribOld : (s.modTb b f).tribOld = s.tribOld := rfl
@[simp] theorem State.modTb_sc : (s.modTb b f).sc = s.sc := rfl
@[simp] theorem State.modTb_sa : (s.modTb b f).sa = s.sa := rfl
@[simp] theorem State.modTb_hbxRr : (s.modTb b f).hbxRr = s.hbxRr := rfl
@[simp] theorem State.modTb_cur : (s.modTb b f).cur = s.cur := rfl
@[simp] theorem State.modTb_lanes : (s.modTb b f).lanes = s.lanes := rfl
@[simp] theorem State.modTb_felt : (s.modTb b f).felt = s.felt := rfl
@[simp] theorem State.modTb_mte : (s.modTb b f).mte = s.mte := rfl
end

/-! ### emit -/

section
variable (x : Out)
@[simp] theorem State.emit_out : (s.emit x).out = x :: s.out := rfl
@[simp] theorem State.emit_pending : (s.emit x).pending = s.pending := rfl
@[simp] theorem State.emit_now : (s.emit x).now = s.now := rfl
@[simp] theorem State.emit_free : (s.emit x).free = s.free := rfl
@[simp] theorem State.emit_regs : (s.emit x).regs = s.regs := rfl
@[simp] theorem State.emit_shadow : (s.emit x).shadow = s.shadow := rfl
@[simp] theorem State.emit_rst : (s.emit x).rst = s.rst := rfl
@[simp] theorem State.emit_hst : (s.emit x).hst = s.hst := rfl
@[simp] theorem State.emit_pads : (s.emit x).pads = s.pads := rfl
@[simp] theorem State.emit_pmc : (s.emit x).pmc = s.pmc := rfl
@[simp] theorem State.emit_evr : (s.emit x).evr = s.evr := rfl
@[simp] theorem State.emit_tim : (s.emit x).tim = s.tim := rfl
@[simp] theorem State.emit_otp : (s.emit x).otp = s.otp := rfl
@[simp] theorem State.emit_mtp : (s.emit x).mtp = s.mtp := rfl
@[simp] theorem State.emit_kst : (s.emit x).kst = s.kst := rfl
@[simp] theorem State.emit_rng : (s.emit x).rng = s.rng := rfl
@[simp] theorem State.emit_uci : (s.emit x).uci = s.uci := rfl
@[simp] theorem State.emit_mem : (s.emit x).mem = s.mem := rfl
@[simp] theorem State.emit_tmp : (s.emit x).tmp = s.tmp := rfl
@[simp] theorem State.emit_bkp : (s.emit x).bkp = s.bkp := rfl
@[simp] theorem State.emit_mills : (s.emit x).mills = s.mills := rfl
@[simp] theorem State.emit_trib : (s.emit x).trib = s.trib := rfl
@[simp] theorem State.emit_tribOld : (s.emit x).tribOld = s.tribOld := rfl
@[simp] theorem State.emit_sc : (s.emit x).sc = s.sc := rfl
@[simp] theorem State.emit_sa : (s.emit x).sa = s.sa := rfl
@[simp] theorem State.emit_hbxRr : (s.emit x).hbxRr = s.hbxRr := rfl
@[simp] theorem State.emit_cur : (s.emit x).cur = s.cur := rfl
@[simp] theorem State.emit_lanes : (s.emit x).lanes = s.lanes := rfl
@[simp] theorem State.emit_felt : (s.emit x).felt = s.felt := rfl
@[simp] theorem State.emit_mte : (s.emit x).mte = s.mte := rfl
end

/-! ### countMill -/

section
variable (m : Fin 4) (a b c d : Nat)
@[simp] theorem State.countMill_pending : (s.countMill m a b c d).pending = s.pending := rfl
@[simp] theorem State.countMill_now : (s.countMill m a b c d).now = s.now := rfl
@[simp] theorem State.countMill_free : (s.countMill m a b c d).free = s.free := rfl
@[simp] theorem State.countMill_out : (s.countMill m a b c d).out = s.out := rfl
@[simp] theorem State.countMill_regs : (s.countMill m a b c d).regs = s.regs := rfl
@[simp] theorem State.countMill_shadow : (s.countMill m a b c d).shadow = s.shadow := rfl
@[simp] theorem State.countMill_rst : (s.countMill m a b c d).rst = s.rst := rfl
@[simp] theorem State.countMill_hst : (s.countMill m a b c d).hst = s.hst := rfl
@[simp] theorem State.countMill_pads : (s.countMill m a b c d).pads = s.pads := rfl
@[simp] theorem State.countMill_evr : (s.countMill m a b c d).evr = s.evr := rfl
@[simp] theorem State.countMill_tim : (s.countMill m a b c d).tim = s.tim := rfl
@[simp] theorem State.countMill_otp : (s.countMill m a b c d).otp = s.otp := rfl
@[simp] theorem State.countMill_mtp : (s.countMill m a b c d).mtp = s.mtp := rfl
@[simp] theorem State.countMill_kst : (s.countMill m a b c d).kst = s.kst := rfl
@[simp] theorem State.countMill_rng : (s.countMill m a b c d).rng = s.rng := rfl
@[simp] theorem State.countMill_uci : (s.countMill m a b c d).uci = s.uci := rfl
@[simp] theorem State.countMill_mem : (s.countMill m a b c d).mem = s.mem := rfl
@[simp] theorem State.countMill_tmp : (s.countMill m a b c d).tmp = s.tmp := rfl
@[simp] theorem State.countMill_bkp : (s.countMill m a b c d).bkp = s.bkp := rfl
@[simp] theorem State.countMill_mills : (s.countMill m a b c d).mills = s.mills := rfl
@[simp] theorem State.countMill_trib : (s.countMill m a b c d).trib = s.trib := rfl
@[simp] theorem State.countMill_tribOld : (s.countMill m a b c d).tribOld = s.tribOld := rfl
@[simp] theorem State.countMill_sc : (s.countMill m a b c d).sc = s.sc := rfl
@[simp] theorem State.countMill_sa : (s.countMill m a b c d).sa = s.sa := rfl
@[simp] theorem State.countMill_hbxRr : (s.countMill m a b c d).hbxRr = s.hbxRr := rfl
@[simp] theorem State.countMill_cur : (s.countMill m a b c d).cur = s.cur := rfl
@[simp] theorem State.countMill_lanes : (s.countMill m a b c d).lanes = s.lanes := rfl
@[simp] theorem State.countMill_felt : (s.countMill m a b c d).felt = s.felt := rfl
@[simp] theorem State.countMill_mte : (s.countMill m a b c d).mte = s.mte := rfl
end

/-! ### countDev -/

section
variable (a b c d : Nat)
@[simp] theorem State.countDev_pending : (s.countDev a b c d).pending = s.pending := rfl
@[simp] theorem State.countDev_now : (s.countDev a b c d).now = s.now := rfl
@[simp] theorem State.countDev_free : (s.countDev a b c d).free = s.free := rfl
@[simp] theorem State.countDev_out : (s.countDev a b c d).out = s.out := rfl
@[simp] theorem State.countDev_regs : (s.countDev a b c d).regs = s.regs := rfl
@[simp] theorem State.countDev_shadow : (s.countDev a b c d).shadow = s.shadow := rfl
@[simp] theorem State.countDev_rst : (s.countDev a b c d).rst = s.rst := rfl
@[simp] theorem State.countDev_hst : (s.countDev a b c d).hst = s.hst := rfl
@[simp] theorem State.countDev_pads : (s.countDev a b c d).pads = s.pads := rfl
@[simp] theorem State.countDev_evr : (s.countDev a b c d).evr = s.evr := rfl
@[simp] theorem State.countDev_tim : (s.countDev a b c d).tim = s.tim := rfl
@[simp] theorem State.countDev_otp : (s.countDev a b c d).otp = s.otp := rfl
@[simp] theorem State.countDev_mtp : (s.countDev a b c d).mtp = s.mtp := rfl
@[simp] theorem State.countDev_kst : (s.countDev a b c d).kst = s.kst := rfl
@[simp] theorem State.countDev_rng : (s.countDev a b c d).rng = s.rng := rfl
@[simp] theorem State.countDev_uci : (s.countDev a b c d).uci = s.uci := rfl
@[simp] theorem State.countDev_mem : (s.countDev a b c d).mem = s.mem := rfl
@[simp] theorem State.countDev_tmp : (s.countDev a b c d).tmp = s.tmp := rfl
@[simp] theorem State.countDev_bkp : (s.countDev a b c d).bkp = s.bkp := rfl
@[simp] theorem State.countDev_mills : (s.countDev a b c d).mills = s.mills := rfl
@[simp] theorem State.countDev_trib : (s.countDev a b c d).trib = s.trib := rfl
@[simp] theorem State.countDev_tribOld : (s.countDev a b c d).tribOld = s.tribOld := rfl
@[simp] theorem State.countDev_sc : (s.countDev a b c d).sc = s.sc := rfl
@[simp] theorem State.countDev_sa : (s.countDev a b c d).sa = s.sa := rfl
@[simp] theorem State.countDev_hbxRr : (s.countDev a b c d).hbxRr = s.hbxRr := rfl
@[simp] theorem State.countDev_cur : (s.countDev a b c d).cur = s.cur := rfl
@[simp] theorem State.countDev_lanes : (s.countDev a b c d).lanes = s.lanes := rfl
@[simp] theorem State.countDev_felt : (s.countDev a b c d).felt = s.felt := rfl
@[simp] theorem State.countDev_mte : (s.countDev a b c d).mte = s.mte := rfl
end

/-! ### fixMill -/

section
variable (m : Fin 4) (a b : Nat)
@[simp] theorem State.fixMill_pending : (s.fixMill m a b).pending = s.pending := rfl
@[simp] theorem State.fixMill_now : (s.fixMill m a b).now = s.now := rfl
@[simp] theorem State.fixMill_free : (s.fixMill m a b).free = s.free := rfl
@[simp] theorem State.fixMill_out : (s.fixMill m a b).out = s.out := rfl
@[simp] theorem State.fixMill_regs : (s.fixMill m a b).regs = s.regs := rfl
@[simp] theorem State.fixMill_shadow : (s.fixMill m a b).shadow = s.shadow := rfl
@[simp] theorem State.fixMill_rst : (s.fixMill m a b).rst = s.rst := rfl
@[simp] theorem State.fixMill_hst : (s.fixMill m a b).hst = s.hst := rfl
@[simp] theorem State.fixMill_pads : (s.fixMill m a b).pads = s.pads := rfl
@[simp] theorem State.fixMill_evr : (s.fixMill m a b).evr = s.evr := rfl
@[simp] theorem State.fixMill_tim : (s.fixMill m a b).tim = s.tim := rfl
@[simp] theorem State.fixMill_otp : (s.fixMill m a b).otp = s.otp := rfl
@[simp] theorem State.fixMill_mtp : (s.fixMill m a b).mtp = s.mtp := rfl
@[simp] theorem State.fixMill_kst : (s.fixMill m a b).kst = s.kst := rfl
@[simp] theorem State.fixMill_rng : (s.fixMill m a b).rng = s.rng := rfl
@[simp] theorem State.fixMill_uci : (s.fixMill m a b).uci = s.uci := rfl
@[simp] theorem State.fixMill_mem : (s.fixMill m a b).mem = s.mem := rfl
@[simp] theorem State.fixMill_tmp : (s.fixMill m a b).tmp = s.tmp := rfl
@[simp] theorem State.fixMill_bkp : (s.fixMill m a b).bkp = s.bkp := rfl
@[simp] theorem State.fixMill_mills : (s.fixMill m a b).mills = s.mills := rfl
@[simp] theorem State.fixMill_trib : (s.fixMill m a b).trib = s.trib := rfl
@[simp] theorem State.fixMill_tribOld : (s.fixMill m a b).tribOld = s.tribOld := rfl
@[simp] theorem State.fixMill_sc : (s.fixMill m a b).sc = s.sc := rfl
@[simp] theorem State.fixMill_sa : (s.fixMill m a b).sa = s.sa := rfl
@[simp] theorem State.fixMill_hbxRr : (s.fixMill m a b).hbxRr = s.hbxRr := rfl
@[simp] theorem State.fixMill_cur : (s.fixMill m a b).cur = s.cur := rfl
@[simp] theorem State.fixMill_lanes : (s.fixMill m a b).lanes = s.lanes := rfl
@[simp] theorem State.fixMill_felt : (s.fixMill m a b).felt = s.felt := rfl
@[simp] theorem State.fixMill_mte : (s.fixMill m a b).mte = s.mte := rfl
end

/-! ### fixDev -/

section
variable (a b : Nat)
@[simp] theorem State.fixDev_pending : (s.fixDev a b).pending = s.pending := rfl
@[simp] theorem State.fixDev_now : (s.fixDev a b).now = s.now := rfl
@[simp] theorem State.fixDev_free : (s.fixDev a b).free = s.free := rfl
@[simp] theorem State.fixDev_out : (s.fixDev a b).out = s.out := rfl
@[simp] theorem State.fixDev_regs : (s.fixDev a b).regs = s.regs := rfl
@[simp] theorem State.fixDev_shadow : (s.fixDev a b).shadow = s.shadow := rfl
@[simp] theorem State.fixDev_rst : (s.fixDev a b).rst = s.rst := rfl
@[simp] theorem State.fixDev_hst : (s.fixDev a b).hst = s.hst := rfl
@[simp] theorem State.fixDev_pads : (s.fixDev a b).pads = s.pads := rfl
@[simp] theorem State.fixDev_evr : (s.fixDev a b).evr = s.evr := rfl
@[simp] theorem State.fixDev_tim : (s.fixDev a b).tim = s.tim := rfl
@[simp] theorem State.fixDev_otp : (s.fixDev a b).otp = s.otp := rfl
@[simp] theorem State.fixDev_mtp : (s.fixDev a b).mtp = s.mtp := rfl
@[simp] theorem State.fixDev_kst : (s.fixDev a b).kst = s.kst := rfl
@[simp] theorem State.fixDev_rng : (s.fixDev a b).rng = s.rng := rfl
@[simp] theorem State.fixDev_uci : (s.fixDev a b).uci = s.uci := rfl
@[simp] theorem State.fixDev_mem : (s.fixDev a b).mem = s.mem := rfl
@[simp] theorem State.fixDev_tmp : (s.fixDev a b).tmp = s.tmp := rfl
@[simp] theorem State.fixDev_bkp : (s.fixDev a b).bkp = s.bkp := rfl
@[simp] theorem State.fixDev_mills : (s.fixDev a b).mills = s.mills := rfl
@[simp] theorem State.fixDev_trib : (s.fixDev a b).trib = s.trib := rfl
@[simp] theorem State.fixDev_tribOld : (s.fixDev a b).tribOld = s.tribOld := rfl
@[simp] theorem State.fixDev_sc : (s.fixDev a b).sc = s.sc := rfl
@[simp] theorem State.fixDev_sa : (s.fixDev a b).sa = s.sa := rfl
@[simp] theorem State.fixDev_hbxRr : (s.fixDev a b).hbxRr = s.hbxRr := rfl
@[simp] theorem State.fixDev_cur : (s.fixDev a b).cur = s.cur := rfl
@[simp] theorem State.fixDev_lanes : (s.fixDev a b).lanes = s.lanes := rfl
@[simp] theorem State.fixDev_felt : (s.fixDev a b).felt = s.felt := rfl
@[simp] theorem State.fixDev_mte : (s.fixDev a b).mte = s.mte := rfl
end

/-! ### mtpPut -/

section
variable (a : Nat) (b : Byte)
@[simp] theorem State.mtpPut_pending : (s.mtpPut a b).pending = s.pending := rfl
@[simp] theorem State.mtpPut_now : (s.mtpPut a b).now = s.now := rfl
@[simp] theorem State.mtpPut_free : (s.mtpPut a b).free = s.free := rfl
@[simp] theorem State.mtpPut_out : (s.mtpPut a b).out = s.out := rfl
@[simp] theorem State.mtpPut_regs : (s.mtpPut a b).regs = s.regs := rfl
@[simp] theorem State.mtpPut_shadow : (s.mtpPut a b).shadow = s.shadow := rfl
@[simp] theorem State.mtpPut_rst : (s.mtpPut a b).rst = s.rst := rfl
@[simp] theorem State.mtpPut_hst : (s.mtpPut a b).hst = s.hst := rfl
@[simp] theorem State.mtpPut_pads : (s.mtpPut a b).pads = s.pads := rfl
@[simp] theorem State.mtpPut_pmc : (s.mtpPut a b).pmc = s.pmc := rfl
@[simp] theorem State.mtpPut_evr : (s.mtpPut a b).evr = s.evr := rfl
@[simp] theorem State.mtpPut_tim : (s.mtpPut a b).tim = s.tim := rfl
@[simp] theorem State.mtpPut_otp : (s.mtpPut a b).otp = s.otp := rfl
@[simp] theorem State.mtpPut_kst : (s.mtpPut a b).kst = s.kst := rfl
@[simp] theorem State.mtpPut_rng : (s.mtpPut a b).rng = s.rng := rfl
@[simp] theorem State.mtpPut_uci : (s.mtpPut a b).uci = s.uci := rfl
@[simp] theorem State.mtpPut_mem : (s.mtpPut a b).mem = s.mem := rfl
@[simp] theorem State.mtpPut_tmp : (s.mtpPut a b).tmp = s.tmp := rfl
@[simp] theorem State.mtpPut_bkp : (s.mtpPut a b).bkp = s.bkp := rfl
@[simp] theorem State.mtpPut_mills : (s.mtpPut a b).mills = s.mills := rfl
@[simp] theorem State.mtpPut_trib : (s.mtpPut a b).trib = s.trib := rfl
@[simp] theorem State.mtpPut_tribOld : (s.mtpPut a b).tribOld = s.tribOld := rfl
@[simp] theorem State.mtpPut_sc : (s.mtpPut a b).sc = s.sc := rfl
@[simp] theorem State.mtpPut_sa : (s.mtpPut a b).sa = s.sa := rfl
@[simp] theorem State.mtpPut_hbxRr : (s.mtpPut a b).hbxRr = s.hbxRr := rfl
@[simp] theorem State.mtpPut_cur : (s.mtpPut a b).cur = s.cur := rfl
@[simp] theorem State.mtpPut_lanes : (s.mtpPut a b).lanes = s.lanes := rfl
@[simp] theorem State.mtpPut_felt : (s.mtpPut a b).felt = s.felt := rfl
@[simp] theorem State.mtpPut_mte : (s.mtpPut a b).mte = s.mte := rfl
end

/-! ### The mills -/

@[simp] theorem State.mill_modMill (m : Fin 4) (f : Mill → Mill) : (s.modMill m f).mill m = f (s.mill m) := by
  simp [State.modMill, State.mill]

theorem State.mill_modMill_ne (m k : Fin 4) (f : Mill → Mill) (h : m ≠ k) : (s.modMill m f).mill k = s.mill k := by
  have h' : ¬ m.val = k.val := fun e => h (Fin.ext e)
  simp [State.modMill, State.mill, h']

@[simp] theorem State.line_modLine (m : Fin 4) (f : Line → Line) : (s.modLine m f).line m = f (s.line m) := by
  simp [State.modLine, State.line]

theorem State.line_modLine_ne (m k : Fin 4) (f : Line → Line) (h : m ≠ k) : (s.modLine m f).line k = s.line k := by
  simp [State.modLine, State.line, State.mill_modMill_ne s m k _ h]

@[simp] theorem State.dkl_modLine (m k : Fin 4) (f : Line → Line) : (s.modLine m f).dkl k = s.dkl k := by
  by_cases h : m = k
  · subst h; simp [State.modLine, State.dkl]
  · simp [State.modLine, State.dkl, State.mill_modMill_ne s m k _ h]

@[simp] theorem State.lci_modLine (m k : Fin 4) (f : Line → Line) : (s.modLine m f).lci k = s.lci k := by
  by_cases h : m = k
  · subst h; simp [State.modLine, State.lci]
  · simp [State.modLine, State.lci, State.mill_modMill_ne s m k _ h]

@[simp] theorem State.sac_modLine (m k : Fin 4) (f : Line → Line) : (s.modLine m f).sac k = s.sac k := by
  by_cases h : m = k
  · subst h; simp [State.modLine, State.sac]
  · simp [State.modLine, State.sac, State.mill_modMill_ne s m k _ h]

@[simp] theorem State.vat_modLine (m k : Fin 4) (f : Line → Line) : (s.modLine m f).vat k = s.vat k := by
  by_cases h : m = k
  · subst h; simp [State.modLine, State.vat]
  · simp [State.modLine, State.vat, State.mill_modMill_ne s m k _ h]

@[simp] theorem State.sch_modLine (m k : Fin 4) (f : Line → Line) : (s.modLine m f).sch k = s.sch k := by
  by_cases h : m = k
  · subst h; simp [State.modLine, State.sch]
  · simp [State.modLine, State.sch, State.mill_modMill_ne s m k _ h]

@[simp] theorem State.dkl_modDkl (m : Fin 4) (f : Deckle → Deckle) : (s.modDkl m f).dkl m = f (s.dkl m) := by
  simp [State.modDkl, State.dkl]

theorem State.dkl_modDkl_ne (m k : Fin 4) (f : Deckle → Deckle) (h : m ≠ k) : (s.modDkl m f).dkl k = s.dkl k := by
  simp [State.modDkl, State.dkl, State.mill_modMill_ne s m k _ h]

@[simp] theorem State.line_modDkl (m k : Fin 4) (f : Deckle → Deckle) : (s.modDkl m f).line k = s.line k := by
  by_cases h : m = k
  · subst h; simp [State.modDkl, State.line]
  · simp [State.modDkl, State.line, State.mill_modMill_ne s m k _ h]

@[simp] theorem State.lci_modDkl (m k : Fin 4) (f : Deckle → Deckle) : (s.modDkl m f).lci k = s.lci k := by
  by_cases h : m = k
  · subst h; simp [State.modDkl, State.lci]
  · simp [State.modDkl, State.lci, State.mill_modMill_ne s m k _ h]

@[simp] theorem State.sac_modDkl (m k : Fin 4) (f : Deckle → Deckle) : (s.modDkl m f).sac k = s.sac k := by
  by_cases h : m = k
  · subst h; simp [State.modDkl, State.sac]
  · simp [State.modDkl, State.sac, State.mill_modMill_ne s m k _ h]

@[simp] theorem State.vat_modDkl (m k : Fin 4) (f : Deckle → Deckle) : (s.modDkl m f).vat k = s.vat k := by
  by_cases h : m = k
  · subst h; simp [State.modDkl, State.vat]
  · simp [State.modDkl, State.vat, State.mill_modMill_ne s m k _ h]

@[simp] theorem State.sch_modDkl (m k : Fin 4) (f : Deckle → Deckle) : (s.modDkl m f).sch k = s.sch k := by
  by_cases h : m = k
  · subst h; simp [State.modDkl, State.sch]
  · simp [State.modDkl, State.sch, State.mill_modMill_ne s m k _ h]

@[simp] theorem State.lci_modLci (m : Fin 4) (f : Lci → Lci) : (s.modLci m f).lci m = f (s.lci m) := by
  simp [State.modLci, State.lci]

theorem State.lci_modLci_ne (m k : Fin 4) (f : Lci → Lci) (h : m ≠ k) : (s.modLci m f).lci k = s.lci k := by
  simp [State.modLci, State.lci, State.mill_modMill_ne s m k _ h]

@[simp] theorem State.line_modLci (m k : Fin 4) (f : Lci → Lci) : (s.modLci m f).line k = s.line k := by
  by_cases h : m = k
  · subst h; simp [State.modLci, State.line]
  · simp [State.modLci, State.line, State.mill_modMill_ne s m k _ h]

@[simp] theorem State.dkl_modLci (m k : Fin 4) (f : Lci → Lci) : (s.modLci m f).dkl k = s.dkl k := by
  by_cases h : m = k
  · subst h; simp [State.modLci, State.dkl]
  · simp [State.modLci, State.dkl, State.mill_modMill_ne s m k _ h]

@[simp] theorem State.sac_modLci (m k : Fin 4) (f : Lci → Lci) : (s.modLci m f).sac k = s.sac k := by
  by_cases h : m = k
  · subst h; simp [State.modLci, State.sac]
  · simp [State.modLci, State.sac, State.mill_modMill_ne s m k _ h]

@[simp] theorem State.vat_modLci (m k : Fin 4) (f : Lci → Lci) : (s.modLci m f).vat k = s.vat k := by
  by_cases h : m = k
  · subst h; simp [State.modLci, State.vat]
  · simp [State.modLci, State.vat, State.mill_modMill_ne s m k _ h]

@[simp] theorem State.sch_modLci (m k : Fin 4) (f : Lci → Lci) : (s.modLci m f).sch k = s.sch k := by
  by_cases h : m = k
  · subst h; simp [State.modLci, State.sch]
  · simp [State.modLci, State.sch, State.mill_modMill_ne s m k _ h]

@[simp] theorem State.sac_modSac (m : Fin 4) (f : Sac → Sac) : (s.modSac m f).sac m = f (s.sac m) := by
  simp [State.modSac, State.sac]

theorem State.sac_modSac_ne (m k : Fin 4) (f : Sac → Sac) (h : m ≠ k) : (s.modSac m f).sac k = s.sac k := by
  simp [State.modSac, State.sac, State.mill_modMill_ne s m k _ h]

@[simp] theorem State.line_modSac (m k : Fin 4) (f : Sac → Sac) : (s.modSac m f).line k = s.line k := by
  by_cases h : m = k
  · subst h; simp [State.modSac, State.line]
  · simp [State.modSac, State.line, State.mill_modMill_ne s m k _ h]

@[simp] theorem State.dkl_modSac (m k : Fin 4) (f : Sac → Sac) : (s.modSac m f).dkl k = s.dkl k := by
  by_cases h : m = k
  · subst h; simp [State.modSac, State.dkl]
  · simp [State.modSac, State.dkl, State.mill_modMill_ne s m k _ h]

@[simp] theorem State.lci_modSac (m k : Fin 4) (f : Sac → Sac) : (s.modSac m f).lci k = s.lci k := by
  by_cases h : m = k
  · subst h; simp [State.modSac, State.lci]
  · simp [State.modSac, State.lci, State.mill_modMill_ne s m k _ h]

@[simp] theorem State.vat_modSac (m k : Fin 4) (f : Sac → Sac) : (s.modSac m f).vat k = s.vat k := by
  by_cases h : m = k
  · subst h; simp [State.modSac, State.vat]
  · simp [State.modSac, State.vat, State.mill_modMill_ne s m k _ h]

@[simp] theorem State.sch_modSac (m k : Fin 4) (f : Sac → Sac) : (s.modSac m f).sch k = s.sch k := by
  by_cases h : m = k
  · subst h; simp [State.modSac, State.sch]
  · simp [State.modSac, State.sch, State.mill_modMill_ne s m k _ h]

@[simp] theorem State.vat_modVat (m : Fin 4) (f : Vat → Vat) : (s.modVat m f).vat m = f (s.vat m) := by
  simp [State.modVat, State.vat]

theorem State.vat_modVat_ne (m k : Fin 4) (f : Vat → Vat) (h : m ≠ k) : (s.modVat m f).vat k = s.vat k := by
  simp [State.modVat, State.vat, State.mill_modMill_ne s m k _ h]

@[simp] theorem State.line_modVat (m k : Fin 4) (f : Vat → Vat) : (s.modVat m f).line k = s.line k := by
  by_cases h : m = k
  · subst h; simp [State.modVat, State.line]
  · simp [State.modVat, State.line, State.mill_modMill_ne s m k _ h]

@[simp] theorem State.dkl_modVat (m k : Fin 4) (f : Vat → Vat) : (s.modVat m f).dkl k = s.dkl k := by
  by_cases h : m = k
  · subst h; simp [State.modVat, State.dkl]
  · simp [State.modVat, State.dkl, State.mill_modMill_ne s m k _ h]

@[simp] theorem State.lci_modVat (m k : Fin 4) (f : Vat → Vat) : (s.modVat m f).lci k = s.lci k := by
  by_cases h : m = k
  · subst h; simp [State.modVat, State.lci]
  · simp [State.modVat, State.lci, State.mill_modMill_ne s m k _ h]

@[simp] theorem State.sac_modVat (m k : Fin 4) (f : Vat → Vat) : (s.modVat m f).sac k = s.sac k := by
  by_cases h : m = k
  · subst h; simp [State.modVat, State.sac]
  · simp [State.modVat, State.sac, State.mill_modMill_ne s m k _ h]

@[simp] theorem State.sch_modVat (m k : Fin 4) (f : Vat → Vat) : (s.modVat m f).sch k = s.sch k := by
  by_cases h : m = k
  · subst h; simp [State.modVat, State.sch]
  · simp [State.modVat, State.sch, State.mill_modMill_ne s m k _ h]

@[simp] theorem State.sch_modSch (m : Fin 4) (f : Sch → Sch) : (s.modSch m f).sch m = f (s.sch m) := by
  simp [State.modSch, State.sch]

theorem State.sch_modSch_ne (m k : Fin 4) (f : Sch → Sch) (h : m ≠ k) : (s.modSch m f).sch k = s.sch k := by
  simp [State.modSch, State.sch, State.mill_modMill_ne s m k _ h]

@[simp] theorem State.line_modSch (m k : Fin 4) (f : Sch → Sch) : (s.modSch m f).line k = s.line k := by
  by_cases h : m = k
  · subst h; simp [State.modSch, State.line]
  · simp [State.modSch, State.line, State.mill_modMill_ne s m k _ h]

@[simp] theorem State.dkl_modSch (m k : Fin 4) (f : Sch → Sch) : (s.modSch m f).dkl k = s.dkl k := by
  by_cases h : m = k
  · subst h; simp [State.modSch, State.dkl]
  · simp [State.modSch, State.dkl, State.mill_modMill_ne s m k _ h]

@[simp] theorem State.lci_modSch (m k : Fin 4) (f : Sch → Sch) : (s.modSch m f).lci k = s.lci k := by
  by_cases h : m = k
  · subst h; simp [State.modSch, State.lci]
  · simp [State.modSch, State.lci, State.mill_modMill_ne s m k _ h]

@[simp] theorem State.sac_modSch (m k : Fin 4) (f : Sch → Sch) : (s.modSch m f).sac k = s.sac k := by
  by_cases h : m = k
  · subst h; simp [State.modSch, State.sac]
  · simp [State.modSch, State.sac, State.mill_modMill_ne s m k _ h]

@[simp] theorem State.vat_modSch (m k : Fin 4) (f : Sch → Sch) : (s.modSch m f).vat k = s.vat k := by
  by_cases h : m = k
  · subst h; simp [State.modSch, State.vat]
  · simp [State.modSch, State.vat, State.mill_modMill_ne s m k _ h]

/-! ### Rings and lanes -/

@[simp] theorem State.ring_modRing (r : Rid) (f : Ring → Ring) : (s.modRing r f).ring r = f (s.ring r) := by
  simp [State.modRing, State.modEng, State.ring]

@[simp] theorem State.lane_modLane (n : Fin 68) (f : Lane → Lane) : (s.modLane n f).lane n = f (s.lane n) := by
  simp [State.modLane, State.lane]

@[simp] theorem State.port_modPort (p : Fin 32) (f : Port → Port) : (s.modPort p f).port p = f (s.port p) := by
  simp [State.modPort, State.port]

/-! ### What follows every command -/

/-- The fields that the end of a command may change. -/
def State.withEnds (s : State) (p : Pmc) (e : Evr) (h : Hst) (o : List Out) : State := { s with pmc := p, evr := e, hst := h, out := o }

theorem happen_ends (a b c d : Nat) (x : Bytes) : ∃ p e h o, s.happen a b c d x = s.withEnds p e h o := by
  unfold State.happen
  split
  · exact ⟨_, _, _, _, rfl⟩
  · exact ⟨s.pmc, s.evr, s.hst, s.out, rfl⟩

theorem satRecords_ends : ∀ (l : List Nat) (s : State), ∃ p e h o, s.satRecords l = s.withEnds p e h o
  | [], s => ⟨s.pmc, s.evr, s.hst, s.out, rfl⟩
  | _ :: l, s => by
    obtain ⟨p, e, h, o, h1⟩ := happen_ends s 0x0B (freeSrc 0x0B) 0 _ _
    obtain ⟨p', e', h', o', h2⟩ := satRecords_ends l (s.withEnds p e h o)
    exact ⟨p', e', h', o', by rw [State.satRecords, h1, h2]; rfl⟩

theorem msix_ends (v : Fin 256) : ∃ p e h o, s.msix v = s.withEnds p e h o := by
  unfold State.msix
  split
  · exact ⟨_, _, _, _, rfl⟩
  · exact ⟨_, _, _, _, rfl⟩

theorem irqSource_ends (n : Nat) : ∃ p e h o, s.irqSource n = s.withEnds p e h o := by
  unfold State.irqSource
  dsimp only
  split
  · exact ⟨s.pmc, s.evr, s.hst, s.out, rfl⟩
  · split
    · exact ⟨_, _, _, _, rfl⟩
    · split
      · exact ⟨_, _, _, _, rfl⟩
      · obtain ⟨p, e, h, o, h1⟩ := msix_ends (s.modHst fun h => { h with pend := h.pend ^^^ (1#48 <<< n) })
          ⟨natBits (s.reg (Reg.hst (0x100 + 4 * n))) 0 8, by unfold natBits; omega⟩
        exact ⟨p, e, h, o, by rw [h1]; rfl⟩

theorem irqAll_ends : ∀ (n : Nat) (s : State), ∃ p e h o, s.irqAll n = s.withEnds p e h o
  | 0, s => ⟨s.pmc, s.evr, s.hst, s.out, rfl⟩
  | n + 1, s => by
    obtain ⟨p, e, h, o, h1⟩ := irqAll_ends n s
    obtain ⟨p', e', h', o', h2⟩ := irqSource_ends (s.withEnds p e h o) n
    exact ⟨p', e', h', o', by rw [State.irqAll, h1, h2]; rfl⟩

theorem settle_ends : ∃ p e h o, s.settle = s.withEnds p e h o := by
  obtain ⟨p, e, h, o, h1⟩ := satRecords_ends s.pmc.satNew (s.modPmc fun p => { p with satNew := [] })
  obtain ⟨p', e', h', o', h2⟩ := irqAll_ends 48 ((s.modPmc fun p => { p with satNew := [] }).withEnds p e h o)
  refine ⟨p', e', h', o', ?_⟩
  unfold State.settle
  dsimp only
  rw [h1, h2]
  rfl

section
@[simp] theorem State.settle_pending : (s.settle).pending = s.pending := by obtain ⟨_, _, _, _, e⟩ := settle_ends s; rw [e]; rfl
@[simp] theorem State.settle_now : (s.settle).now = s.now := by obtain ⟨_, _, _, _, e⟩ := settle_ends s; rw [e]; rfl
@[simp] theorem State.settle_free : (s.settle).free = s.free := by obtain ⟨_, _, _, _, e⟩ := settle_ends s; rw [e]; rfl
@[simp] theorem State.settle_regs : (s.settle).regs = s.regs := by obtain ⟨_, _, _, _, e⟩ := settle_ends s; rw [e]; rfl
@[simp] theorem State.settle_shadow : (s.settle).shadow = s.shadow := by obtain ⟨_, _, _, _, e⟩ := settle_ends s; rw [e]; rfl
@[simp] theorem State.settle_rst : (s.settle).rst = s.rst := by obtain ⟨_, _, _, _, e⟩ := settle_ends s; rw [e]; rfl
@[simp] theorem State.settle_pads : (s.settle).pads = s.pads := by obtain ⟨_, _, _, _, e⟩ := settle_ends s; rw [e]; rfl
@[simp] theorem State.settle_tim : (s.settle).tim = s.tim := by obtain ⟨_, _, _, _, e⟩ := settle_ends s; rw [e]; rfl
@[simp] theorem State.settle_otp : (s.settle).otp = s.otp := by obtain ⟨_, _, _, _, e⟩ := settle_ends s; rw [e]; rfl
@[simp] theorem State.settle_mtp : (s.settle).mtp = s.mtp := by obtain ⟨_, _, _, _, e⟩ := settle_ends s; rw [e]; rfl
@[simp] theorem State.settle_kst : (s.settle).kst = s.kst := by obtain ⟨_, _, _, _, e⟩ := settle_ends s; rw [e]; rfl
@[simp] theorem State.settle_rng : (s.settle).rng = s.rng := by obtain ⟨_, _, _, _, e⟩ := settle_ends s; rw [e]; rfl
@[simp] theorem State.settle_uci : (s.settle).uci = s.uci := by obtain ⟨_, _, _, _, e⟩ := settle_ends s; rw [e]; rfl
@[simp] theorem State.settle_mem : (s.settle).mem = s.mem := by obtain ⟨_, _, _, _, e⟩ := settle_ends s; rw [e]; rfl
@[simp] theorem State.settle_tmp : (s.settle).tmp = s.tmp := by obtain ⟨_, _, _, _, e⟩ := settle_ends s; rw [e]; rfl
@[simp] theorem State.settle_bkp : (s.settle).bkp = s.bkp := by obtain ⟨_, _, _, _, e⟩ := settle_ends s; rw [e]; rfl
@[simp] theorem State.settle_mills : (s.settle).mills = s.mills := by obtain ⟨_, _, _, _, e⟩ := settle_ends s; rw [e]; rfl
@[simp] theorem State.settle_trib : (s.settle).trib = s.trib := by obtain ⟨_, _, _, _, e⟩ := settle_ends s; rw [e]; rfl
@[simp] theorem State.settle_tribOld : (s.settle).tribOld = s.tribOld := by obtain ⟨_, _, _, _, e⟩ := settle_ends s; rw [e]; rfl
@[simp] theorem State.settle_sc : (s.settle).sc = s.sc := by obtain ⟨_, _, _, _, e⟩ := settle_ends s; rw [e]; rfl
@[simp] theorem State.settle_sa : (s.settle).sa = s.sa := by obtain ⟨_, _, _, _, e⟩ := settle_ends s; rw [e]; rfl
@[simp] theorem State.settle_hbxRr : (s.settle).hbxRr = s.hbxRr := by obtain ⟨_, _, _, _, e⟩ := settle_ends s; rw [e]; rfl
@[simp] theorem State.settle_cur : (s.settle).cur = s.cur := by obtain ⟨_, _, _, _, e⟩ := settle_ends s; rw [e]; rfl
@[simp] theorem State.settle_lanes : (s.settle).lanes = s.lanes := by obtain ⟨_, _, _, _, e⟩ := settle_ends s; rw [e]; rfl
@[simp] theorem State.settle_felt : (s.settle).felt = s.felt := by obtain ⟨_, _, _, _, e⟩ := settle_ends s; rw [e]; rfl
@[simp] theorem State.settle_mte : (s.settle).mte = s.mte := by obtain ⟨_, _, _, _, e⟩ := settle_ends s; rw [e]; rfl
end

section
variable (a b c d : Nat) (x : Bytes)
@[simp] theorem State.happen_pending : (s.happen a b c d x).pending = s.pending := by obtain ⟨_, _, _, _, e⟩ := happen_ends s a b c d x; rw [e]; rfl
@[simp] theorem State.happen_now : (s.happen a b c d x).now = s.now := by obtain ⟨_, _, _, _, e⟩ := happen_ends s a b c d x; rw [e]; rfl
@[simp] theorem State.happen_free : (s.happen a b c d x).free = s.free := by obtain ⟨_, _, _, _, e⟩ := happen_ends s a b c d x; rw [e]; rfl
@[simp] theorem State.happen_regs : (s.happen a b c d x).regs = s.regs := by obtain ⟨_, _, _, _, e⟩ := happen_ends s a b c d x; rw [e]; rfl
@[simp] theorem State.happen_shadow : (s.happen a b c d x).shadow = s.shadow := by obtain ⟨_, _, _, _, e⟩ := happen_ends s a b c d x; rw [e]; rfl
@[simp] theorem State.happen_rst : (s.happen a b c d x).rst = s.rst := by obtain ⟨_, _, _, _, e⟩ := happen_ends s a b c d x; rw [e]; rfl
@[simp] theorem State.happen_pads : (s.happen a b c d x).pads = s.pads := by obtain ⟨_, _, _, _, e⟩ := happen_ends s a b c d x; rw [e]; rfl
@[simp] theorem State.happen_tim : (s.happen a b c d x).tim = s.tim := by obtain ⟨_, _, _, _, e⟩ := happen_ends s a b c d x; rw [e]; rfl
@[simp] theorem State.happen_otp : (s.happen a b c d x).otp = s.otp := by obtain ⟨_, _, _, _, e⟩ := happen_ends s a b c d x; rw [e]; rfl
@[simp] theorem State.happen_mtp : (s.happen a b c d x).mtp = s.mtp := by obtain ⟨_, _, _, _, e⟩ := happen_ends s a b c d x; rw [e]; rfl
@[simp] theorem State.happen_kst : (s.happen a b c d x).kst = s.kst := by obtain ⟨_, _, _, _, e⟩ := happen_ends s a b c d x; rw [e]; rfl
@[simp] theorem State.happen_rng : (s.happen a b c d x).rng = s.rng := by obtain ⟨_, _, _, _, e⟩ := happen_ends s a b c d x; rw [e]; rfl
@[simp] theorem State.happen_uci : (s.happen a b c d x).uci = s.uci := by obtain ⟨_, _, _, _, e⟩ := happen_ends s a b c d x; rw [e]; rfl
@[simp] theorem State.happen_mem : (s.happen a b c d x).mem = s.mem := by obtain ⟨_, _, _, _, e⟩ := happen_ends s a b c d x; rw [e]; rfl
@[simp] theorem State.happen_tmp : (s.happen a b c d x).tmp = s.tmp := by obtain ⟨_, _, _, _, e⟩ := happen_ends s a b c d x; rw [e]; rfl
@[simp] theorem State.happen_bkp : (s.happen a b c d x).bkp = s.bkp := by obtain ⟨_, _, _, _, e⟩ := happen_ends s a b c d x; rw [e]; rfl
@[simp] theorem State.happen_mills : (s.happen a b c d x).mills = s.mills := by obtain ⟨_, _, _, _, e⟩ := happen_ends s a b c d x; rw [e]; rfl
@[simp] theorem State.happen_trib : (s.happen a b c d x).trib = s.trib := by obtain ⟨_, _, _, _, e⟩ := happen_ends s a b c d x; rw [e]; rfl
@[simp] theorem State.happen_tribOld : (s.happen a b c d x).tribOld = s.tribOld := by obtain ⟨_, _, _, _, e⟩ := happen_ends s a b c d x; rw [e]; rfl
@[simp] theorem State.happen_sc : (s.happen a b c d x).sc = s.sc := by obtain ⟨_, _, _, _, e⟩ := happen_ends s a b c d x; rw [e]; rfl
@[simp] theorem State.happen_sa : (s.happen a b c d x).sa = s.sa := by obtain ⟨_, _, _, _, e⟩ := happen_ends s a b c d x; rw [e]; rfl
@[simp] theorem State.happen_hbxRr : (s.happen a b c d x).hbxRr = s.hbxRr := by obtain ⟨_, _, _, _, e⟩ := happen_ends s a b c d x; rw [e]; rfl
@[simp] theorem State.happen_cur : (s.happen a b c d x).cur = s.cur := by obtain ⟨_, _, _, _, e⟩ := happen_ends s a b c d x; rw [e]; rfl
@[simp] theorem State.happen_lanes : (s.happen a b c d x).lanes = s.lanes := by obtain ⟨_, _, _, _, e⟩ := happen_ends s a b c d x; rw [e]; rfl
@[simp] theorem State.happen_felt : (s.happen a b c d x).felt = s.felt := by obtain ⟨_, _, _, _, e⟩ := happen_ends s a b c d x; rw [e]; rfl
@[simp] theorem State.happen_mte : (s.happen a b c d x).mte = s.mte := by obtain ⟨_, _, _, _, e⟩ := happen_ends s a b c d x; rw [e]; rfl
end

section
variable (v : Fin 256)
@[simp] theorem State.msix_pending : (s.msix v).pending = s.pending := by obtain ⟨_, _, _, _, e⟩ := msix_ends s v; rw [e]; rfl
@[simp] theorem State.msix_now : (s.msix v).now = s.now := by obtain ⟨_, _, _, _, e⟩ := msix_ends s v; rw [e]; rfl
@[simp] theorem State.msix_free : (s.msix v).free = s.free := by obtain ⟨_, _, _, _, e⟩ := msix_ends s v; rw [e]; rfl
@[simp] theorem State.msix_regs : (s.msix v).regs = s.regs := by obtain ⟨_, _, _, _, e⟩ := msix_ends s v; rw [e]; rfl
@[simp] theorem State.msix_shadow : (s.msix v).shadow = s.shadow := by obtain ⟨_, _, _, _, e⟩ := msix_ends s v; rw [e]; rfl
@[simp] theorem State.msix_rst : (s.msix v).rst = s.rst := by obtain ⟨_, _, _, _, e⟩ := msix_ends s v; rw [e]; rfl
@[simp] theorem State.msix_pads : (s.msix v).pads = s.pads := by obtain ⟨_, _, _, _, e⟩ := msix_ends s v; rw [e]; rfl
@[simp] theorem State.msix_tim : (s.msix v).tim = s.tim := by obtain ⟨_, _, _, _, e⟩ := msix_ends s v; rw [e]; rfl
@[simp] theorem State.msix_otp : (s.msix v).otp = s.otp := by obtain ⟨_, _, _, _, e⟩ := msix_ends s v; rw [e]; rfl
@[simp] theorem State.msix_mtp : (s.msix v).mtp = s.mtp := by obtain ⟨_, _, _, _, e⟩ := msix_ends s v; rw [e]; rfl
@[simp] theorem State.msix_kst : (s.msix v).kst = s.kst := by obtain ⟨_, _, _, _, e⟩ := msix_ends s v; rw [e]; rfl
@[simp] theorem State.msix_rng : (s.msix v).rng = s.rng := by obtain ⟨_, _, _, _, e⟩ := msix_ends s v; rw [e]; rfl
@[simp] theorem State.msix_uci : (s.msix v).uci = s.uci := by obtain ⟨_, _, _, _, e⟩ := msix_ends s v; rw [e]; rfl
@[simp] theorem State.msix_mem : (s.msix v).mem = s.mem := by obtain ⟨_, _, _, _, e⟩ := msix_ends s v; rw [e]; rfl
@[simp] theorem State.msix_tmp : (s.msix v).tmp = s.tmp := by obtain ⟨_, _, _, _, e⟩ := msix_ends s v; rw [e]; rfl
@[simp] theorem State.msix_bkp : (s.msix v).bkp = s.bkp := by obtain ⟨_, _, _, _, e⟩ := msix_ends s v; rw [e]; rfl
@[simp] theorem State.msix_mills : (s.msix v).mills = s.mills := by obtain ⟨_, _, _, _, e⟩ := msix_ends s v; rw [e]; rfl
@[simp] theorem State.msix_trib : (s.msix v).trib = s.trib := by obtain ⟨_, _, _, _, e⟩ := msix_ends s v; rw [e]; rfl
@[simp] theorem State.msix_tribOld : (s.msix v).tribOld = s.tribOld := by obtain ⟨_, _, _, _, e⟩ := msix_ends s v; rw [e]; rfl
@[simp] theorem State.msix_sc : (s.msix v).sc = s.sc := by obtain ⟨_, _, _, _, e⟩ := msix_ends s v; rw [e]; rfl
@[simp] theorem State.msix_sa : (s.msix v).sa = s.sa := by obtain ⟨_, _, _, _, e⟩ := msix_ends s v; rw [e]; rfl
@[simp] theorem State.msix_hbxRr : (s.msix v).hbxRr = s.hbxRr := by obtain ⟨_, _, _, _, e⟩ := msix_ends s v; rw [e]; rfl
@[simp] theorem State.msix_cur : (s.msix v).cur = s.cur := by obtain ⟨_, _, _, _, e⟩ := msix_ends s v; rw [e]; rfl
@[simp] theorem State.msix_lanes : (s.msix v).lanes = s.lanes := by obtain ⟨_, _, _, _, e⟩ := msix_ends s v; rw [e]; rfl
@[simp] theorem State.msix_felt : (s.msix v).felt = s.felt := by obtain ⟨_, _, _, _, e⟩ := msix_ends s v; rw [e]; rfl
@[simp] theorem State.msix_mte : (s.msix v).mte = s.mte := by obtain ⟨_, _, _, _, e⟩ := msix_ends s v; rw [e]; rfl
end

@[simp] theorem State.settle_mill (m : Fin 4) : s.settle.mill m = s.mill m := by unfold State.mill; rw [State.settle_mills]
@[simp] theorem State.settle_port (p : Fin 32) : s.settle.port p = s.port p := by unfold State.port; rw [State.settle_mill]
@[simp] theorem State.settle_ring (r : Rid) : s.settle.ring r = s.ring r := by unfold State.ring; rw [State.settle_cur]
@[simp] theorem State.settle_lane (n : Fin 68) : s.settle.lane n = s.lane n := by unfold State.lane; rw [State.settle_lanes]
@[simp] theorem State.settle_reg (a : Nat) : s.settle.reg a = s.reg a := by unfold State.reg; rw [State.settle_regs, State.settle_otp]
@[simp] theorem State.settle_slot (n : Nat) : s.settle.slot n = s.slot n := by unfold State.slot; rw [State.settle_kst]

@[simp] theorem State.settle_line (m : Fin 4) : s.settle.line m = s.line m := by unfold State.line; rw [State.settle_mill]
@[simp] theorem State.settle_dkl (m : Fin 4) : s.settle.dkl m = s.dkl m := by unfold State.dkl; rw [State.settle_mill]
@[simp] theorem State.settle_lci (m : Fin 4) : s.settle.lci m = s.lci m := by unfold State.lci; rw [State.settle_mill]
@[simp] theorem State.settle_sac (m : Fin 4) : s.settle.sac m = s.sac m := by unfold State.sac; rw [State.settle_mill]
@[simp] theorem State.settle_vat (m : Fin 4) : s.settle.vat m = s.vat m := by unfold State.vat; rw [State.settle_mill]
@[simp] theorem State.settle_sch (m : Fin 4) : s.settle.sch m = s.sch m := by unfold State.sch; rw [State.settle_mill]

end Sys2Proof.Machine
end

