-- ==== Sys2Proof/Laws/Vat.lean ====
section
/-! SUPPORT. Data-plane instructions: what issuing one answers. -/

namespace Sys2Proof.Machine

variable {s : State} {t : Tid} {i : VInstr} {n : Nat}

@[simp] theorem State.setThread_otp (v : Thread) : (s.setThread t v).otp = s.otp := rfl
@[simp] theorem State.setThread_trib (v : Thread) : (s.setThread t v).trib = s.trib := rfl
@[simp] theorem State.setThread_reg (v : Thread) (a : Nat) : (s.setThread t v).reg a = s.reg a := rfl
@[simp] theorem State.setThread_sch (v : Thread) (m : Fin 4) : (s.setThread t v).sch m = s.sch m := State.sch_modVat ..

@[simp] theorem State.tookTurn_otp : (s.tookTurn t).otp = s.otp := rfl
@[simp] theorem State.tookTurn_trib : (s.tookTurn t).trib = s.trib := rfl
@[simp] theorem State.tookTurn_reg (a : Nat) : (s.tookTurn t).reg a = s.reg a := rfl
@[simp] theorem State.tookTurn_sch (m : Fin 4) : (s.tookTurn t).sch m = s.sch m := State.sch_modVat ..
@[simp] theorem State.tookTurn_thread (x : Tid) : (s.tookTurn t).thread x = s.thread x := by
  unfold State.tookTurn State.thread
  by_cases h : t.mill = x.mill
  · rw [← h, State.vat_modVat]
  · rw [State.vat_modVat_ne _ _ _ _ h]

theorem State.runs_ne (h : (s.thread t).runs = true) (y : Thread) (hb : y.busy = (s.thread t).busy) : y ≠ default := by
  intro e
  unfold Thread.runs at h
  rw [← hb, e] at h
  simp [default, instInhabitedThread.default] at h

/-- Storing a thread twice is storing it once. -/
theorem State.setThread_setThread (y z : Thread) (hy : y ≠ default) : (s.setThread t y).setThread t z = s.setThread t z := by
  unfold State.setThread State.modVat State.modMill
  simp [tset_tset _ _ _ _ _ hy]

theorem State.runs_of_issuable (h : s.issuable t = true) : (s.thread t).runs = true := by
  unfold State.issuable at h
  simp only [Bool.and_eq_true] at h
  exact h.1.1

theorem State.past_ne (h : s.Issues t i n) : s.past t n ≠ default := State.runs_ne (State.runs_of_issuable h.2.1) _ rfl

/-- An instruction that can issue, and whose meaning answers a state. -/
theorem vatRow_next (h : s.Issues t i n) {sel : VInstr → Bool} (hs : sel i = true) {run : State → Thread → VInstr → Except Nat State}
    {u : State} (hr : run ((s.tookTurn t).setThread t (s.past t n)) (s.past t n) i = .ok u) : vatRow t sel run s = .next u.settle := by
  obtain ⟨h1, h2, h3, h4⟩ := h
  unfold vatRow
  unfold State.past at hr
  simp only [h1, h2, h3, h4, hs, Bool.and_self, if_true]
  rw [hr]
  rfl

/-- An instruction that can issue and changes only its thread. -/
theorem vatLocal_next (h : s.Issues t i n) {sel : VInstr → Bool} (hs : sel i = true) {f : Thread → VInstr → Except Nat Thread}
    {z : Thread} (hf : f (s.past t n) i = .ok z) : vatLocal t sel f s = .next ((s.tookTurn t).setThread t z).settle := by
  refine vatRow_next h hs ?_
  rw [hf]
  simp only [Except.map]
  rw [State.setThread_setThread _ _ (State.past_ne h)]

end Sys2Proof.Machine
end

