-- ==== Sys2Proof/Laws/Wire.lean ====
section
/-! SUPPORT. What the receive chain of a lane makes of what the transmit chain sends (R48, R68, R70): the words of a sheet that is
striped and scrambled are put together again. -/

set_option linter.unusedTactic false
set_option linter.unreachableTactic false
set_option linter.unusedVariables false
set_option linter.unusedSimpArgs false

namespace Sys2Proof.Machine

theorem byteOf_toNat (n : Nat) : (byteOf n).toNat = n % 256 := by simp [byteOf]

/-! ## Words and bytes -/

theorem leBytes_leNat : ∀ bs : Bytes, leBytes bs.length (leNat bs) = bs
  | [] => rfl
  | b :: bs => by
    have hb := b.isLt
    have h1 : byteOf (b.toNat + 256 * leNat bs) = b := by
      apply BitVec.eq_of_toNat_eq
      rw [byteOf_toNat]; omega
    have h2 : (b.toNat + 256 * leNat bs) / 256 = leNat bs := by omega
    rw [List.length_cons, leNat, leBytes, h1, h2, leBytes_leNat bs]

theorem leNat_lt : ∀ bs : Bytes, leNat bs < 256 ^ bs.length
  | [] => by simp [leNat]
  | b :: bs => by
    have := leNat_lt bs
    have := b.isLt
    rw [leNat, List.length_cons, Nat.pow_succ]; omega

/-- A string made of pieces of `k` bytes is cut into those pieces. -/
theorem chunks_flatten (k : Nat) (hk : 0 < k) : ∀ (n : Nat) (cs : List Bytes), (∀ c ∈ cs, c.length = k) → cs.length ≤ n →
    chunks k n cs.flatten = cs
  | n, [], _, _ => by cases n <;> rfl
  | 0, _ :: _, _, h => by simp at h
  | n + 1, c :: cs, h, hn => by
    obtain ⟨b, bs, rfl⟩ : ∃ b bs, c = b :: bs := by
      cases c with
      | nil => exact absurd (h [] (by simp)) (by simp; omega)
      | cons b bs => exact ⟨b, bs, rfl⟩
    have hc := h (b :: bs) (by simp)
    have ht : ((b :: bs) :: cs).flatten = b :: (bs ++ cs.flatten) := rfl
    rw [ht, chunks, ← List.cons_append]
    rw [List.take_left' hc, List.drop_left' hc,
      chunks_flatten k hk n cs (fun c m => h c (List.mem_cons_of_mem _ m)) (by simpa using hn)]

/-- A string of `k * n` bytes is made of `n` pieces of `k` bytes. -/
theorem exists_pieces (k : Nat) : ∀ (n : Nat) (bs : Bytes), bs.length = k * n →
    ∃ cs : List Bytes, bs = cs.flatten ∧ cs.length = n ∧ ∀ c ∈ cs, c.length = k
  | 0, bs, h => ⟨[], by simpa using h, rfl, by simp⟩
  | n + 1, bs, h => by
    rw [Nat.mul_succ] at h
    obtain ⟨cs, e, l, a⟩ := exists_pieces k n (bs.drop k) (by simp; omega)
    refine ⟨bs.take k :: cs, ?_, by simp [l], ?_⟩
    · rw [List.flatten_cons, ← e, List.take_append_drop]
    · intro c hc
      rcases List.mem_cons.1 hc with rfl | hc
      · simp; omega
      · exact a c hc

theorem length_flatten_pieces (k : Nat) : ∀ cs : List Bytes, (∀ c ∈ cs, c.length = k) → cs.flatten.length = k * cs.length
  | [], _ => by simp
  | c :: cs, h => by
    rw [List.flatten_cons, List.length_append, h c (by simp), length_flatten_pieces k cs fun x m => h x (List.mem_cons_of_mem _ m),
      List.length_cons, Nat.mul_succ, Nat.add_comm]

/-- The words of a string of whole words, put out byte by byte, are the string. -/
theorem wordsOf_bytes (n : Nat) (bs : Bytes) (h : bs.length = 8 * n) :
    (wordsOf bs).flatMap (leBytes 8) = bs ∧ (wordsOf bs).length = n ∧ ∀ w ∈ wordsOf bs, w < 2 ^ 64 := by
  obtain ⟨cs, rfl, rfl, a⟩ := exists_pieces 8 n bs h
  have hl := length_flatten_pieces 8 cs a
  have hc : chunksOf 8 cs.flatten = cs := chunks_flatten 8 (by omega) _ cs a (by omega)
  refine ⟨?_, by simp [wordsOf, hc], ?_⟩
  · rw [wordsOf, hc, List.flatMap_map, List.flatMap_def]
    congr 1
    conv => rhs; rw [← List.map_id cs]
    refine List.map_congr_left fun c m => ?_
    have := leBytes_leNat c
    rwa [a c m] at this
  · intro w hw
    rw [wordsOf, hc, List.mem_map] at hw
    obtain ⟨c, m, rfl⟩ := hw
    have := leNat_lt c
    rw [a c m] at this
    exact this

/-! ## Striping (R68) -/

/-- The shares of the LANEs, put together, are the words that were striped. -/
theorem joinShares_laneShare (n : Nat) (hn : 0 < n) : ∀ (ws : List Nat) (w : Nat),
    joinShares n w ws.length ((List.range n).map fun k => laneShare n k w ws) = some ws
  | [], w => by simp [joinShares, laneShare]
  | x :: xs, w => by
    have hm := Nat.mod_lt w hn
    have h0 : ((List.range n).map fun k => laneShare n k w (x :: xs))[w % n]? = some (x :: laneShare n (w % n) (w + 1) xs) := by
      simp [hm, laneShare]
    have h1 : ((List.range n).map fun k => laneShare n k w (x :: xs)).set (w % n) (laneShare n (w % n) (w + 1) xs)
        = (List.range n).map fun k => laneShare n k (w + 1) xs := by
      apply List.ext_getElem (by simp)
      intro i h h'
      rw [List.getElem_set]
      simp only [List.getElem_map, List.getElem_range, laneShare]
      split
      · next e => rw [e]
      · next e => simp
    rw [List.length_cons, joinShares, h0]
    simp only [h1, joinShares_laneShare n hn xs (w + 1), Option.map_some]

theorem laneShare_mem (n k : Nat) : ∀ (ws : List Nat) (w : Nat), ∀ x ∈ laneShare n k w ws, x ∈ ws
  | [], _, x, h => by simp [laneShare] at h
  | y :: ys, w, x, h => by
    rw [laneShare] at h
    split at h
    · rcases List.mem_cons.1 h with rfl | h
      · simp
      · exact List.mem_cons_of_mem _ (laneShare_mem n k ys _ x h)
    · exact List.mem_cons_of_mem _ (laneShare_mem n k ys _ x h)

/-! ## The scrambler (R70) -/

theorem scramble32_lt (reg x : Nat) : (scramble32 reg x).1 < 2 ^ 32 :=
  Nat.xor_lt_two_pow (Nat.mod_lt _ (by decide)) (Nat.mod_lt _ (by decide))

theorem scramble32_bit (reg x i : Nat) (hi : i < 32) : (scramble32 reg x).1.testBit i =
    ((x.testBit i ^^ reg.testBit (i + 19)) ^^ reg.testBit i) := by
  simp only [scramble32, Nat.testBit_xor, Nat.testBit_mod_two_pow, Nat.testBit_div_two_pow, hi, decide_true, Bool.true_and]

theorem scramble32_reg_bit (reg x i : Nat) (h : reg < 2 ^ 58) : (scramble32 reg x).2.testBit i =
    if i < 26 then reg.testBit (i + 32) else (scramble32 reg x).1.testBit (i - 26) := by
  have : (scramble32 reg x).2 = (2 ^ 58 * (scramble32 reg x).1 + reg) / 2 ^ 32 := by simp only [scramble32]; rw [Nat.add_comm, Nat.mul_comm]
  rw [this, Nat.testBit_div_two_pow, Nat.testBit_two_pow_mul_add _ h]
  split <;> split <;> first | rfl | omega

theorem scramble32_reg_lt (reg x : Nat) (h : reg < 2 ^ 58) : (scramble32 reg x).2 < 2 ^ 58 := by
  have := scramble32_lt reg x
  have e : (scramble32 reg x).2 = (reg + (scramble32 reg x).1 * 2 ^ 58) / 2 ^ 32 := rfl
  omega

theorem scrambleWord_lt (reg x : Nat) : (scrambleWord reg x).1 < 2 ^ 64 := by
  have := scramble32_lt reg (x % 2 ^ 32)
  have := scramble32_lt (scramble32 reg (x % 2 ^ 32)).2 (x / 2 ^ 32 % 2 ^ 32)
  simp only [scrambleWord]; omega

/-- Bit `j` of what is sent is that of the word, changed by the bits sent 39 and 58 before. -/
theorem scrambleWord_bit (reg x j : Nat) (h : reg < 2 ^ 58) (hj : j < 64) :
    (scrambleWord reg x).1.testBit j = ((x.testBit j ^^ (2 ^ 58 * (scrambleWord reg x).1 + reg).testBit (j + 19))
      ^^ (2 ^ 58 * (scrambleWord reg x).1 + reg).testBit j) := by
  rw [Nat.testBit_two_pow_mul_add _ h, Nat.testBit_two_pow_mul_add _ h]
  have ey : (scrambleWord reg x).1 = 2 ^ 32 * (scramble32 (scramble32 reg (x % 2 ^ 32)).2 (x / 2 ^ 32 % 2 ^ 32)).1
      + (scramble32 reg (x % 2 ^ 32)).1 := by simp only [scrambleWord]; rw [Nat.add_comm, Nat.mul_comm]
  have y : ∀ i, (scrambleWord reg x).1.testBit i = if i < 32 then (scramble32 reg (x % 2 ^ 32)).1.testBit i
      else (scramble32 (scramble32 reg (x % 2 ^ 32)).2 (x / 2 ^ 32 % 2 ^ 32)).1.testBit (i - 32) := fun i => by
    rw [ey, Nat.testBit_two_pow_mul_add _ (scramble32_lt _ _)]
  simp only [y]
  by_cases hl : j < 32
  · rw [if_pos hl, if_pos (by omega), if_pos (by omega), scramble32_bit _ _ _ hl, Nat.testBit_mod_two_pow]
    simp [hl]
  · rw [if_neg hl, scramble32_bit _ _ _ (by omega), scramble32_reg_bit _ _ _ h, scramble32_reg_bit _ _ _ h,
      Nat.testBit_mod_two_pow, Nat.testBit_div_two_pow, decide_eq_true (by omega : j - 32 < 32), Bool.true_and]
    have e1 : j - 32 + 32 = j := by omega
    have e2 : j - 32 + 19 + 32 = j + 19 := by omega
    rw [e1, e2]
    congr 1
    · congr 1
      by_cases hm : j - 32 + 19 < 26
      · rw [if_pos hm, if_pos (by omega)]
      · rw [if_neg hm, if_neg (by omega), if_pos (by omega)]
        congr 1
    · by_cases hm : j - 32 < 26
      · rw [if_pos hm, if_pos (by omega)]
      · rw [if_neg hm, if_neg (by omega), if_pos (by omega)]
        congr 1

theorem scrambleWord_reg (reg x : Nat) (h : reg < 2 ^ 58) : (scrambleWord reg x).2 = (scrambleWord reg x).1 / 2 ^ 6 % 2 ^ 58 := by
  have ha := scramble32_lt reg (x % 2 ^ 32)
  have hb := scramble32_lt (scramble32 reg (x % 2 ^ 32)).2 (x / 2 ^ 32 % 2 ^ 32)
  have e1 : (scramble32 reg (x % 2 ^ 32)).2 = (reg + (scramble32 reg (x % 2 ^ 32)).1 * 2 ^ 58) / 2 ^ 32 := rfl
  have e2 : (scrambleWord reg x).2 = ((scramble32 reg (x % 2 ^ 32)).2
    + (scramble32 (scramble32 reg (x % 2 ^ 32)).2 (x / 2 ^ 32 % 2 ^ 32)).1 * 2 ^ 58) / 2 ^ 32 := rfl
  have e3 : (scrambleWord reg x).1 = (scramble32 reg (x % 2 ^ 32)).1
    + (scramble32 (scramble32 reg (x % 2 ^ 32)).2 (x / 2 ^ 32 % 2 ^ 32)).1 * 2 ^ 32 := rfl
  rw [e2, e3]
  generalize (scramble32 (scramble32 reg (x % 2 ^ 32)).2 (x / 2 ^ 32 % 2 ^ 32)).1 = b at *
  rw [e1]
  generalize (scramble32 reg (x % 2 ^ 32)).1 = a at *
  omega

/-- A word that was scrambled is descrambled behind the 58 bits sent before it. -/
theorem descramble_scrambleWord (reg x : Nat) (h : reg < 2 ^ 58) (hx : x < 2 ^ 64) : descramble reg (scrambleWord reg x).1 64 = x := by
  apply Nat.eq_of_testBit_eq
  intro j
  have e : reg % 2 ^ 58 + (scrambleWord reg x).1 * 2 ^ 58 = 2 ^ 58 * (scrambleWord reg x).1 + reg := by
    rw [Nat.mod_eq_of_lt h, Nat.add_comm, Nat.mul_comm]
  by_cases hj : j < 64
  · simp only [descramble, e, Nat.testBit_mod_two_pow, hj, decide_true, Bool.true_and, Nat.testBit_div_two_pow, Nat.testBit_xor,
      Nat.testBit_mul_two_pow]
    have h1 := scrambleWord_bit reg x j h hj
    have h2 : (2 ^ 58 * (scrambleWord reg x).1 + reg).testBit (j + 58) = (scrambleWord reg x).1.testBit j := by
      rw [Nat.testBit_two_pow_mul_add _ h, if_neg (by omega)]; congr 1
    have e1 : j + 58 - 39 = j + 19 := by omega
    have e2 : j + 58 - 58 = j := by omega
    rw [h2, e1, e2, decide_eq_true (by omega : 39 ≤ j + 58), decide_eq_true (by omega : 58 ≤ j + 58), h1]
    generalize (2 ^ 58 * (scrambleWord reg x).1 + reg).testBit (j + 19) = p
    generalize (2 ^ 58 * (scrambleWord reg x).1 + reg).testBit j = q
    cases x.testBit j <;> cases p <;> cases q <;> rfl
  · rw [Nat.testBit_lt_two_pow (Nat.lt_of_lt_of_le hx (Nat.pow_le_pow_right (by omega) (by omega)))]
    simp only [descramble, Nat.testBit_mod_two_pow, hj, decide_false, Bool.false_and]

/-- What a lane sends of a run of words, descrambled, is those words. -/
theorem descrambleWords_scramble : ∀ (ws : List Nat) (reg : Nat), reg < 2 ^ 58 → (∀ w ∈ ws, w < 2 ^ 64) →
    descrambleWords reg (scrambleWords reg ws).1 = ws
  | [], _, _, _ => rfl
  | x :: xs, reg, h, hw => by
    have hr : (scrambleWord reg x).2 < 2 ^ 58 := by rw [scrambleWord_reg reg x h]; exact Nat.mod_lt _ (by decide)
    rw [scrambleWords, descrambleWords, descramble_scrambleWord reg x h (hw x (by simp)), ← scrambleWord_reg reg x h,
      descrambleWords_scramble xs _ hr fun w m => hw w (List.mem_cons_of_mem _ m)]

theorem scrambleWords_lt : ∀ (ws : List Nat) (reg : Nat), ∀ y ∈ (scrambleWords reg ws).1, y < 2 ^ 64
  | [], _, y, h => by simp [scrambleWords] at h
  | x :: xs, reg, y, h => by
    rw [scrambleWords] at h
    rcases List.mem_cons.1 h with rfl | h
    · exact scrambleWord_lt reg x
    · exact scrambleWords_lt xs _ y h

/-! ## A sheet on the line (R48, R68, R70) -/

/-- What LANE `k` of `n` delivers of a sheet, where 58 zero bits went before it. -/
def laneOf (n idx : Nat) (bs : Bytes) (k : Nat) : LaneRx :=
  { prior := 0, words := (scrambleWords 0 (laneShare n k (2048 * idx) (wordsOf bs))).1.map (BitVec.ofNat 64) }

/-- A sheet that is striped over `n` LANEs and scrambled is put together again. -/
theorem sheetBytes_lanes (n idx : Nat) (hn : 0 < n) (bs : Bytes) (h : bs.length = 16384) :
    sheetBytes idx ((List.range n).map (laneOf n idx bs)) = some bs := by
  obtain ⟨h1, h2, h3⟩ := wordsOf_bytes 2048 bs h
  have hd : ∀ k, descrambleWords (laneOf n idx bs k).prior.toNat ((laneOf n idx bs k).words.map (·.toNat))
      = laneShare n k (2048 * idx) (wordsOf bs) := fun k => by
    have e : (laneOf n idx bs k).words.map (·.toNat) = (scrambleWords 0 (laneShare n k (2048 * idx) (wordsOf bs))).1 := by
      simp only [laneOf, List.map_map]
      conv => rhs; rw [← List.map_id (scrambleWords 0 (laneShare n k (2048 * idx) (wordsOf bs))).1]
      refine List.map_congr_left fun y m => ?_
      have := scrambleWords_lt _ _ y m
      simp only [Function.comp_apply, BitVec.toNat_ofNat, id_eq]
      omega
    rw [e]
    exact descrambleWords_scramble _ 0 (by decide) fun w m => h3 w (laneShare_mem _ _ _ _ w m)
  have hl : (List.map (laneOf n idx bs) (List.range n)).map (fun l => descrambleWords l.prior.toNat (l.words.map (·.toNat)))
      = (List.range n).map fun k => laneShare n k (2048 * idx) (wordsOf bs) := by
    rw [List.map_map]; exact List.map_congr_left fun k _ => hd k
  rw [sheetBytes, hl, List.length_map, List.length_range]
  have := joinShares_laneShare n hn (wordsOf bs) (2048 * idx)
  rw [h2] at this
  rw [this, Option.map_some, h1]

/-- A sheet's bytes are read back as its cells. -/
theorem sheetOf_out (x : Sheet) (h1 : x.oh.length = 64) (h2 : ∀ c ∈ x.cells, c.length = 64) (h3 : x.cells.length = 254)
    (h4 : x.tag.length = 64) : (sheetBytesOut x).length = 16384 ∧ sheetOf (sheetBytesOut x) = x := by
  have hf := length_flatten_pieces 64 x.cells h2
  rw [h3] at hf
  constructor
  · simp only [sheetBytesOut, List.length_append, h1, h4, hf]
  · have e : sheetBytesOut x = x.oh ++ (x.cells.flatten ++ x.tag) := by rw [sheetBytesOut, List.append_assoc]
    obtain ⟨oh, cells, tag⟩ := x
    simp only at *
    rw [sheetOf, e, List.take_left' h1, slice, List.drop_left' h1, List.take_left' (by simpa using hf), slice, ← List.append_assoc,
      List.drop_left' (by rw [List.length_append, h1, hf]), List.take_of_length_le (by omega), chunksOf,
      chunks_flatten 64 (by omega) _ cells h2 (by omega)]

end Sys2Proof.Machine
end

