-- ==== Sys2Proof/WellFormed.lean ====
section
/-! DEFINITION. Well-formed commands: the sizes that the spec gives what a command carries. A register number, an instance or an
index is a `Fin` of the constructor and needs no check. -/

namespace Sys2Proof

/-- A codeword of RS(544,514): 544 symbols of 10 bits (R70). -/
def codewordWf (cw : Codeword) : Bool := decide (cw.length = 544) && cw.all fun x => decide (x < 1024)

/-- What the operands carry has the size the spec gives it. -/
def Instr.wf : Instr → Bool
  | .clientFrameReceive _ f _ => decide (f ≠ [])
  | .macControlReceive _ f => decide (18 ≤ f.length)
  | .codewordLock _ rx => codewordWf rx.first && codewordWf rx.second
  | .defectDeclare _ (.locw _ cws) => decide (cws.length ≤ 8) && cws.all codewordWf
  | .sheetReceive _ ls => decide (1 ≤ ls.length ∧ ls.length ≤ 8) && ls.all fun l => decide (l.words.length ≤ 2048)
  | .samplerWindowEnd _ bits => decide (bits.length = 1024)
  | .conditionerBlock bits => decide (bits.length = 1024)
  | .uciRequestDone _ src _ => decide (src.length % 16 = 0)
  | .pageRewriteDone _ reads => decide (reads.map (·.1)).Nodup
  | .debugAccess _ w _ => (match w with | some (d, _) => decide (d.length = 32) | none => true)
  | .tamperFire src => decide (src ≠ 0)
  | .i2cWrite bytes => decide (bytes ≠ [])
  | .dkwriteTransferDone _ (.data d) => decide (d.length % 2 = 0)
  | _ => true

end Sys2Proof
end

