-- ==== Sys2Proof/Tests/Slice0.lean ====
section
/-! SUPPORT. Tests: concrete states that meet the hypotheses of the obligations, ill-formed commands that the check refuses, worked
examples of the spec. -/

open Sys2Proof Sys2Proof.Machine
set_option maxRecDepth 100000
set_option maxHeartbeats 8000000
set_option linter.unusedTactic false
set_option linter.unreachableTactic false
set_option linter.unusedVariables false
set_option Elab.async false

namespace Sys2Proof.Tests

/-- The device after its bring-up: boot done, every domain released. -/
def up : State := { State.reset with rst := { State.reset.rst with bootDone := true, trims := true, released := 0x7FFF } }

/-- Client port 0 enabled, its lane in the 25G mode and in TRACK; cluster 0 of mill 0 runs. -/
def portUp : State :=
  (((up.setReg (Reg.mac 0 0) 1).setReg (Reg.ser 0 0) 0xE008).modLane 0 fun x => { x with st := .track }).modVat 0
    fun v => { v with run := v.run.set 0 1 }

/-- A frame of 64 bytes: addresses, ETHERTYPE `et`, the bytes `b`, padding, FCS. -/
def frameOf (et : Nat) (b : Bytes) : Bytes :=
  refcs (padTo 60 ([0x01, 0x80, 0xC2, 0x00, 0x00, 0x01] ++ [2, 0, 0, 0, 0, 1] ++ beBytes 2 et ++ b) ++ [0, 0, 0, 0])

/-- Thread 0 of mill 0 runs the program `ps` with the frame and registers given. -/
def t0 : Tid := ⟨0, 0, 0, 0⟩
def runs (ps : List Nat) (x : Thread) (s : State := up) : State :=
  s.modVat 0 fun v => { v with
    prog := (List.range ps.length).map fun i => (i, BitVec.ofNat 14 (ps.getD i 0)), threads := [(0, { x with busy := true })] }
/-- A thread of which register `n` holds `v`. -/
def holds (n v : Nat) (x : Thread := {}) : Thread := x.setG n (BitVec.ofNat 64 v)
def someFrame : Frame := { bytes := frameOf 0x0800 [] }

/-- A descriptor: MOP, P1, P2, ARG, and the TARGET field with its epoch. -/
def desc (mop p1 p2 : Nat) (arg : Bytes) (index : Nat := 0) (flags : Nat := 0) (abi : Nat := 1) : Desc :=
  { index := index, raw := padTo 128 (leBytes 2 (0x2F80 + mop) ++ leBytes 2 p1 ++ leBytes 2 p2 ++ [byteOf abi, byteOf flags]
      ++ List.replicate 16 0 ++ arg) }
/-- Ring 0 (client) and ring 2 (officer) of engine 0. -/
def r0 : Rid := ⟨0, 0⟩
def r2 : Rid := ⟨0, 2⟩
/-- An enabled ring with these descriptors fetched; ABI version 1 is selected. -/
def queued (r : Rid) (ds : List Desc) (s : State := up) : State :=
  ((s.setReg (Reg.cur 0) 0x110000).setReg (Reg.ring r.eng r.ring 8) 0x440).modRing r fun g => { g with en := true, fetched := ds }


def fr0 (s : State) : Frame := { bytes := frameOf 0x0800 [], port := 0, clientMill := portMill 0, stamp := s.portStamp 0 false, pri := s.ingressPri 0 (frameOf 0x0800 []) }
def noRun : State := portUp.modVat 0 fun v => { v with disp := List.replicate 32 (0, someFrame) }
def holding : State := portUp.modPort 0 fun x => { x with hold := List.replicate 60 someFrame }
def txT : State := up.setTrib 5 { active := true }
def polT (pl : Policer) : State := (runs [] { frame := someFrame, reqs := [.pol 1 3 0] }).modSch 0 fun x => { x with policers := [(3, pl)] }
def scUp : State := up.setSc 3 { valid := true }
def satT : State := (runs [] { wait := .att 3 false 0 } scUp).setSa 12 { st := .installed }
def rxT : State := ((runs [] { wait := .att 3 false 0, frame := { rx := true } }).setSc 3 { valid := true, rx := true }).setSa 12 { st := .installed }
def rxU : State := ((runs [] { wait := .att 3 false 0, frame := { rx := true }, desc := [(9, 0xFF)] }).setSc 3 { valid := true, rx := true }).setSa 12 { st := .installed }
def seg : Frame := { bytes := frameOf 0x0800 [], rx := false }
def pq : State := ((up.setReg (Reg.cur 0) 0x110000).modRing (puntRing 0 3) fun g => { g with en := true, fetched := [{ index := 0, raw := padTo 16 (leBytes 8 64 ++ leBytes 4 9312) }] }).modVat 0 fun v => { v with punts := v.punts.set 3 [{ frame := seg, reason := 1 }] }
/-- A context of SA 12 (SC 3, AN 0, mill 0): 128-bit key, flags given. -/
def ctx12 (fl : Nat) : Bytes := [1, 1, byteOf fl, byteOf (if fl < 128 then 0 else 0x20)] ++ leBytes 2 3 ++ List.replicate 74 0 ++ leBytes 8 1 ++ List.replicate 168 0
def saUp (c : Bytes) (s : State := up) : State := ((s.setSc 3 { valid := true }).setSa 12 { st := .installed, cached := true }).modSac 0 fun x => x.setWay 96 (some { sax := 12, ctx := c })
def fet (c : Bytes) (bad : Nat) : Fetch := { sax := 12, lines := (List.range 8).map fun i => (i, slice c (32 * i) 32), done := 8, bad := bad }
def fetching (c : Bytes) (bad : Nat) : State := ((up.setSc 3 { valid := true }).setSa 12 { st := .installed }).modSac 0 fun x => { (x.setWay 96 (some { sax := 12, ctx := [], filling := true })) with fetches := [fet c bad] }
def leaving (b : Bool) : State := (saUp (ctx12 0)).modSac 0 fun x => { x with ways := [], victims := [{ sax := 12, ctx := ctx12 0, acked := 8, refused := b }] }
def written (b : Bool) : State := (saUp (ctx12 0)).modSac 0 fun x => { x with writes := [{ sax := 12, ctx := ctx12 0, acked := 8, retire := b }] }
def txf : Frame := { seg with att := some 12, trib := 5 }
def rxf : Frame := { seg with att := some 12, rx := true }
def ciph (f : Frame) (c : Bytes) : State := (saUp c).modSac 0 fun x => { x with cipherQ := [f] }
/-- A received frame with a SecTAG: SCI, PN 1, 16 octets of data, 16 of a false ICV. -/
def rxs : Frame := { rxf with bytes := frameOf 0x88E5 ([0x20, 16] ++ [0, 0, 0, 1] ++ List.replicate 40 0) }
def rxc (fl : Nat) : Bytes := patch (ctx12 0x80) 3 [byteOf fl]
def stag : State := (up.setTrib 5 { active := true, mill := 1 }).modSch 0 fun x => { x with staging := x.staging.set 1 [{ f := txf, units := 1, pri := 0 }] }
/-- Key slot 5 holds a key-encrypting key of usage KEK for mill 0; the catalogue stands in region 0. -/
def kek : Bytes := (List.range 32).map byteOf
def sakWrapped : Bytes := beBytes 8 0x64E8C3F9CE0F5BA2 ++ beBytes 8 0x63E9777905818A2A ++ beBytes 8 0x93C8191E7D6E8AE7
def catUp : State :=
  ((up.setSlot 5 { st := .live, key := kek, attr := 0x1C102 }).modRgn 0 fun x => { x with st := .ready }).setReg (Reg.mem 0x204) 4096
def dInst : Desc := desc 1 0 3 ([0, 0, 5, 0] ++ List.replicate 44 0 ++ sakWrapped)
def dLpn : Desc := desc 1 0x1000 3 (List.replicate 32 0 ++ [9])
def c12 : Bytes := [1, 1, 0, 0] ++ leBytes 2 3 ++ List.replicate 74 0 ++ leBytes 8 1 ++ List.replicate 168 0
def saRes (rx : Bool := false) (s : State := up) : State :=
  ((s.setSc 3 { valid := true, rx := rx }).setSa 12 { st := .installed, cached := true }).modSac 0 fun x => x.setWay 96 (some { sax := 12, ctx := c12 })
def dCur : Desc := desc 1 0x2000 3 []
def dRead : Desc := desc 2 0 3 [0, 1]
def dRet : Desc := desc 2 0x1000 3 [0, 1]
def dPin : Desc := desc 3 0 3 []
def full : Sac := { ways := (List.range 8).map fun i => (96 + i, some { sax := 700 + i, ctx := [], filling := true }) }
def dUnpin : Desc := desc 3 0x1000 3 []
def ret12 : Retire := { ref := dRet.ref r0, sax := 12, addr := 256 }
def n2 (i : Nat) (fl : Nat) : Desc := desc 0x3B 0 0 [7] i fl 2
def bat (ds : List Desc) (s : State := up) : State := (queued r0 ds s).setReg (Reg.cur 0) 0x220000
def u2 (fl : Nat) (i : Nat) : Desc := desc 1 0x2000 3 [] i fl 2
def dT (mw : Nat := 0) : Desc := desc 0x38 0 mw ([5, 0, 0, 0] ++ leBytes 6 1)
def tbUp (v : Nat) (s : State := up) : State := (s.setReg (Reg.tim 0) 1).modTb 0 fun t => { t with val := v }
def dR : Desc := desc 0x38 0x1000 7 [5, 0, 0, 0]
def txUp (m : Fin 4) (rc : W32) (s : State := up) : State := (s.setReg (Reg.lnf m 0) 0x00FF0415).modLine m fun l => { l with rc := rc }
def held (h : Hold) (s : State) : State := (queued r0 [] s).modRing r0 fun g => { g with hold := some h }
def ref0 : CmdRef := dT.ref r0
def dF : Desc := desc 0x39 0xF 0 []
def dE : Desc := desc 0x3A 0 0 []
def dA : Desc := desc 0x3A 0x1000 0 [0, 0, 0, 0] 0 0 2
def dN : Desc := desc 0x3B 0 0 [7]
def trUp (n : Nat) (m : Fin 4) (s : State := up) : State := s.setTrib n { active := true, mill := m }
def dSh : Desc := desc 0x28 0 5 (leBytes 4 1000 ++ leBytes 4 64 ++ leBytes 4 1000 ++ leBytes 4 64 ++ [3])
def dPo : Desc := desc 0x29 0 5 (leBytes 4 1000 ++ leBytes 4 64 ++ leBytes 4 1000 ++ leBytes 4 64 ++ [7])
def qArg : Bytes := [0, 0, 0, 0] ++ leBytes 4 64 ++ leBytes 2 49152 ++ leBytes 2 37
def dAc : Desc := desc 0x2A 0 16381 qArg
def dDe : Desc := desc 0x2A 0x800 5 []
def dUp : Desc := desc 0x2A 0x1000 5 qArg
def dDr : Desc := desc 0x2A 0x1801 5 []
def dFl : Desc := desc 0x2A 0x2001 5 []
def moving : State := { ((queued r0 []).setTrib 5 { active := true, move := some (dDr.ref r0) }) with tribOld := [(5, { active := true, mill := 1 })] }
def dG : Desc := desc 0x20 0x7 0 ([0, 0, 0, 0] ++ leBytes 6 1 ++ [0, 0] ++ leBytes 4 1000 ++ [1, 0] ++ List.replicate 6 0 ++ leBytes 8 0x1000)
def ent : Bytes := leBytes 4 500 ++ [0xFE, 0, 0, 0]
def gl : GateList := { base := 1000, cycle := 1000, entries := [(500, 0xFE), (8, 1)] }
def dGo : Desc := desc 0x21 7 0 []
def eg : State := (portUp.modPort 0 fun x => { x with queues := x.queues.set 3 [{ f := someFrame, units := 1, pri := 0 }] }).modSch 0 fun x => { x with egUsed := 1 }
def qf : Queued := { f := someFrame, units := 1, pri := 0 }
def dSa : Desc := desc 0x30 0x2000 0 ([5, 0, 0, 0] ++ leBytes 6 1)
def dSr : Desc := desc 0x30 0 0 (List.replicate 8 0xFF ++ [0, 0x80])
def dGn : Desc := desc 0x31 0 0 (leBytes 2 1 ++ leBytes 2 2 ++ leBytes 4 1000000000 ++ leBytes 4 9 ++ leBytes 2 1000 ++ [5])
def dEn : Desc := desc 0x31 0x2000 0 []
def dDi : Desc := desc 0x31 0x3000 0 []
def dOf : Desc := desc 0x31 0x1000 0 (leBytes 8 65536)
def srv (sv : Nat) (st : Nat) : State := (tbUp 0).modTb 0 fun t => { t with servoEn := true, src := ⟨sv % 8, by omega⟩, srcTb := 1, stepTh := st, ilim := 1000, kp := 1, ki := 1 }
def dTg : Desc := desc 0x32 1 0 ([5, 0, 0, 0] ++ leBytes 6 1 ++ [0, 0] ++ leBytes 4 16 ++ leBytes 4 8)
def memUp (s : State := up) : State :=
  ((((s.modKst fun k => { k with ready := true }).modRgn 1 fun x => { x with st := .ready, key := List.replicate 32 0 }).setReg (Reg.mem 0x224) 4).setReg (Reg.mem 0x228) 3).modMem
    fun m => { m with ch := m.ch.map fun c => { c with trained := true } }
/-- Key slot 5 holds a memory key of the officer; region 2 is configured behind region 1. -/
def memKey : State := ((memUp.setSlot 5 { st := .live, key := List.replicate 32 1, attr := 0x18008 }).setReg (Reg.mem 0x240) 4).setReg (Reg.mem 0x244) 2
def rq (op : MemOp) : MemReq := { master := .window, op := op, addr := 0 }
def chUp (f : Channel → Channel) : State := memUp.modChan 0 f
def lw : Bytes := List.replicate 32 7
def wq : MemReq := rq (.write lw)
def pgw : PageRewrite := { page := 0, line := 0, req := wq, data := lw }
def scr (f : Channel → Channel) : State := (memUp.setReg (Reg.mem 0x400) 1).modChan 0 f
def dbgUp : State := memUp.modKst fun k => { k with lc := 1 }
def rngUp (f : Rng → Rng := id) : State := up.modRng fun r => f { r with
  st := .run, smpEn := 1, samplers := r.samplers.set 0 { windows := 10 }, pool := [List.replicate 16 1, List.replicate 16 2, List.replicate 16 3], drbg := r.drbg.set 0 { inst := true, key := List.replicate 32 5, v := List.replicate 16 6 } }
def rq0 : RngReq := { inst := 0, user := .uciLoad, nbytes := 8 }
def rngQ : State := rngUp fun r => { r with waiting := [rq0] }
def alt : List Bool := (List.replicate 512 [true, false]).flatten
/-- Slot 5 holds a key of the utility cipher. -/
def uciUp (s : State := up) : State := (s.modKst fun k => { k with ready := true }).setSlot 5 { st := .live, key := List.replicate 32 1, attr := 0x1C010 }
def ul : UciLoad := { ctx := 3, slot := 5, key := [1], gen := 2, pre := some [7] }
def reqUp (n : Nat) (l : Bool) (cnt : Nat := 1) : State := (up.setReg (uciReg 1 0) (n * 2 ^ 8)).modUci fun x => { x with ctx := x.ctx.map fun _ => { loaded := l, key := List.replicate 32 1, count := cnt } }
def uq (op : Nat) : UciReq := { op := op, ctx := 0, key := List.replicate 32 1, blocks := 1, src := 0, dst := 16 }
def uqUp (op : Nat) : State := up.modUci fun x => { x with req := x.req.set 1 (some (uq op)) }
/-- The key store runs in FACTORY; slot 5 holds a key-encrypting key, slot 6 a key of the line, slot 7 a key that derives. -/
def kstUp (f : Kst → Kst := id) : State :=
  (((up.modKst fun k => f { k with ready := true }).setSlot 5 { st := .live, key := (List.range 32).map byteOf, attr := 0x18002 }).setSlot 6
    { st := .live, key := List.replicate 32 1, attr := 0x18001 }).setSlot 7 { st := .live, key := List.replicate 32 2, attr := 0x18004 }
/-- A 256-bit key wrapped under the key of slot 5 (RFC 3394, 4.6). -/
def keyWrapped : Bytes := beBytes 8 0x28C9F404C4B810F4 ++ beBytes 8 0xCBCCB35CFB87F826 ++ beBytes 8 0x3F5786E2D80ED326
  ++ beBytes 8 0xCBC7F0E71A99F43B ++ beBytes 8 0xFB988B9B7A02DD21
def dWrap : Desc := desc 8 9 5 (leBytes 4 0x18001 ++ [0, 0, 0, 0] ++ keyWrapped)
def dDrawn : Desc := desc 8 9 9 (leBytes 4 0x18001)
def dStage : Desc := desc 9 6 5 (List.replicate 8 0 ++ keyWrapped)
def dStageR : Desc := desc 9 0x1006 0 []
def stagedUp : State := kstUp.setSlot 6 { st := .staged, key := List.replicate 32 1, attr := 0x18001, staged := some (List.replicate 32 3, none, 0) }
def dCommit (b : Bytes) : Desc := desc 0x0A 6 0 b
def dDerive : Desc := desc 0x0C 9 7 (leBytes 4 0x18001 ++ [1, 1, 0, 0, 0x41] ++ List.replicate 47 0 ++ [7])
def attUp : State := (kstUp fun k => { k with lc := 2 }).setSlot 8 { st := .live, key := List.replicate 32 1, attr := 0x28020 }
def dAtt : Desc := desc 0x0D 8 0 []
def k3 : Bytes := List.replicate 32 3
def dInv : Desc := desc 0x0B 5 0 []
def busyKst : State := queued r2 [dInv] (kstUp fun k => { k with marking := some { ref := dInv.ref r2, slots := [] } })
def deadKst : State := queued r2 [dInv] (up.modRng fun r => { r with st := .failed })
def jb (op : KOp) (er : Bool := false) (dr : List Bytes := []) : KJob := { id := 0, ref := dInv.ref r2, op := op, need := dr.length, drawn := dr, erased := er }
def jobUp (j : KJob) : State := kstUp fun k => { k with jobs := [j] }
def vSlot : Slot := { key := k3, attr := 0x18001 }
def kinv5 : Kinval := { ref := dInv.ref r2, slots := [5] }
def mj : MtpJob := { kind := .log, addr := 0x8000, data := [1, 2] }
def rngUp_6 (f : Rng → Rng := id) (s : State := up) : State := s.modRng fun r => f { r with
  st := .run, drbg := r.drbg.set 0 { inst := true, key := List.replicate 32 5, v := List.replicate 16 6 } }
def rootKey : Bytes := List.replicate 32 9
def secUp : State := ((rngUp_6 id).modKst fun k => { k with lc := 2 }).modOtp fun o => { o with rootA := rootKey, chkA := BitVec.ofNat 16 (crc16 0x1021 0xFFFF rootKey), validA := 0xFF, lcSecured := 0xFF }
def dueUp (t : Bool) (d : Option Bytes) : State := (rngUp_6 id).modKst fun k => { k with lc := 2, rootDraw := d, rootTriedA := t }
def provUp : State := kstUp fun k => { k with lc := 2, prov := k3 }
def lcUp (f : Kst → Kst) : State := (kstUp fun k => f { k with lc := 2, lcWindow := true }).setReg (Reg.kst 0x10) 4
/-- Every tamper source asks for response rank `r`. -/
def ranked (r : Nat) (s : State := kstUp) : State := (List.range 12).foldl (fun s n => s.setReg (Reg.tmp (0x40 + 4 * n)) r) s
def thrAdds : State := (up.setReg (Reg.tmp 0x40) 9).modTmp fun t => { t with exec := some 3 }
def fwUp : State := (up.setReg (Reg.tmp 0x28) 5).modTmp fun t => { t with fuseWindow := true }
def fwShut : State := fwUp.modTmp fun t => { t with fuseWindow := false, fuseShut := some 0 }
def cell : State := up.modBkp fun b => { b with vbat := .good, mask := 0x1F }
def early (r : Nat) : State := { State.reset with rst := { State.reset.rst with released := BitVec.ofNat 15 r, trims := decide (r ≠ 1) } }
/-- The line group of mill 0: its lanes in L116 and in TRACK, framer and deframer enabled. -/
def lanesUp (s : State := up) : State :=
  (List.finRange 8).foldl (fun s j => ((s.setReg (Reg.ser (32 + j.val) 0) 0xE022).modLane (lineLane 0 j) fun l => { l with st := .track, sigDet := true })) s
def lineUp (f : Line → Line := id) (s : State := up) : State := ((lanesUp s).setReg (Reg.lnf 0 0) 0x00FF0417).modLine 0 f
def grantUp (f : Line → Line := id) (s : State := up) : State := (lineUp f s).modMte fun x => { x with lock := .granted }
def inRm (l : Line) : Line := { l with inReam := true, begun := true, idx := 7, rc := 5, lsc := 3 }
def keyed (q : Nat) (s : State) : State :=
  (s.modLkn 0 2 fun k => { k with loaded := true, key := List.replicate 32 4, tx := .current, seq := q, rx := true }).modLine 0
    fun l => { l with dlg := { l.dlg with ver := 1 } }
def mk (k n : Nat) (lsc : W32) : MarkerInfo := { lsc := lsc, lane := k, count := n }
def ob (k : Nat) (lsc : W32) : MarkerObs :=
  let y := (scrambleWords 0 (wordsOf (marker 8 k lsc))).1
  { prior := 0, bits := BitVec.ofNat 128 (y.getD 0 0 + y.getD 1 0 * 2 ^ 64), arrival := 64 }
def noise : MarkerObs := { prior := 0, bits := 0, arrival := 0 }
/-- Every lane in sync but lane 7, which has seen two markers; the group is about to align. -/
def nearly (l : Line) : Line := { l with lanes := Vector.ofFn fun j : Fin 8 => { st := if j = 7 then .presync2 else .sync, locw := false, lol := j = 7, lsc := if j = 7 then 0 else 500, lane := j.val, count := 8, arrival := 64 } }
def aSheet (b2 : Nat) (seq : Nat) (tag : Bytes) : Sheet :=
  { oh := padTo 64 ([0, 0, byteOf b2, 0] ++ beBytes 4 seq), cells := List.replicate 254 (List.replicate 64 0), tag := padTo 64 tag }
def algn (l : Line) : Line := { l with aligned := true, everAligned := true, defects := { l.defects with loa := false } }
def lanesOf (x : Sheet) : List LaneRx := (List.range 8).map (laneOf 8 0 (sheetBytesOut x))
/-- The sheet that a receiver under key 2 accepts: its tag is the one that the line cipher expects. -/
def accS : Sheet := aSheet 2 1 (gcmDec (List.replicate 32 4) (sheetIv 0 (lcid 0 (!(keyed 1 (lineUp algn)).lciEnd 0)) 1) (aSheet 2 1 []).oh (aSheet 2 1 []).cells.flatten).2
def wrong (f : Runs → Runs) (d : Defects → Defects := id) (l : Line) : Line := { l with runs := f l.runs, defects := d l.defects }
def msg (ty : Nat) (b : Bytes) : DlgIn := { type := byteOf ty, body := b, seqLo := 9 }
def heard (x : DlgIn) (f : Dlg → Dlg) : State := lineUp fun l => { l with dlg := f { l.dlg with inbox := [x] } }
def rest (x : DlgIn) (f : Dlg → Dlg) : State := (heard x f).modLine 0 fun l => { l with dlg := { l.dlg with inbox := [] } }
def hello (n : Nat) : DlgIn := msg 1 ([1, byteOf n, 0, 0] ++ beBytes 4 77)
def conf : DlgIn := msg 2 ([2, 0, 0, 0] ++ beBytes 4 55)
def cf (n : Nat) (d : Dlg) : Dlg := { d with neg := .confirm, farMin := 1, farMax := 2, session := BitVec.ofNat 32 n }
def chk : DlgIn := msg 3 [1, 2, 1, 3]
def agr (n : Nat) (d : Dlg) : Dlg := { d with neg := .agreed, farMin := 1, farMax := n }
def upper : DlgIn := msg 0x10 [2, 0, 0, 0, 0, 0, 0, 5]
def query : DlgIn := msg 0x11 [2, 0]
def v3 (d : Dlg) : Dlg := { d with ver := 3 }
def outM (n w : Nat) (d : Dlg) : Dlg := { d with out := some { own := some .hello, bytes := d.own 0 .hello, mseq := 4, frag := 1, sends := n, wait := w }, ackIn := some 4 }
def noLoa (f : Dlg → Dlg) : State := lineUp fun l => { algn l with dlg := f l.dlg }
def outR (n : Nat) (d : Dlg) : Dlg := { outM n 4000000 d with ackIn := none }
def typed : State := up.setReg (Reg.lnf 0 0x200) 0x00070280
/-- The pages of mill 0 are cleared. -/
def dkUp (f : Deckle → Deckle := id) (s : State := up) : State := s.modDkl 0 fun x => f { x with clearing := false }
def dDk (p1 start count : Nat) : Desc := desc 0x10 p1 0 (leBytes 4 start ++ leBytes 4 count ++ leBytes 8 4096)
def tr (n : Nat) (l : Option Nat) (sr : Option Bool) : Transfer := { ref := (dDk 0 0 2).ref r0, start := 5, count := n, addr := 64, lanes := l, shedReady := sr }
def trUp_8 (t : Transfer) : State := dkUp fun x => { x with transfer := some t }
def vRef : CmdRef := (dDk 0 0 2).ref r0
def dE_8 : Desc := desc 0x11 0 0 []
def dA_8 : Desc := desc 0x11 0x1000 0 (leBytes 4 9)
def dC : Desc := desc 0x11 0x2000 0 []
def dS : Desc := desc 0x12 3 0 []
def dR_8 : Desc := desc 0x12 0x1003 0 []
def ver3 (s : State) : State := s.modLine 0 fun l => { l with dlg := { l.dlg with ver := 3 } }
def sevenB (f : Deckle → Deckle := id) : State := ver3 (dkUp (fun x => f { x with lanesB := 7 }) (lineUp id))
def shedB (f : Deckle → Deckle := id) : State := ver3 (dkUp (fun x => f { x with txMap := 8 }) (lineUp fun l => { l with laneUse := 0xFF }))
def pa (rc : W32) : PageArm := { kind := .flip, rcF := rc, ref := some vRef, late := false }
def atRc (l : Line) : Line := { l with begun := true, rc := 8 }
def keySlot (s : State := up) : State := s.setSlot 5 { st := .live, key := List.replicate 32 4, attr := 0x1C101 }
def dLk (op : Nat) (arg : Bytes := []) (p2 : Nat := 0) : Desc := desc 0x18 (op * 2048 + 2) p2 arg
def lkUp (tx : TxRole := .idle) (s : State := up) : State := s.modLkn 0 2 fun k => { k with loaded := true, key := List.replicate 32 4, tx := tx, rx := true }
def dRt : Desc := desc 0x19 2 0 []
def dAt : Desc := dLk 4 (leBytes 6 1 ++ [0, 0] ++ leBytes 4 16)
def ka (r : Option Nat) : KeyArm := { lkn := 2, ref := some vRef, time := r, late := false }
def kArm (a : KeyArm) (s : State) : State := (lkUp .armed s).modLci 0 fun x => { x with arm := some a, armRc := 9 }
def rxl (st : RxState) (g : Nat := 0) (w : Nat := 0) : Lane := { st := st, good := g, low := w, sigDet := true }
/-- Client lane 5 is enabled in mode 2, felt lane 67 in the felt mode. -/
def laneUp (n : Fin 68) (ctl : Nat) (l : Lane) : State := (up.setReg (Reg.ser n.val 0) ctl).modLane n fun _ => l
def feltUp (f : Felt → Felt := id) (s : State := up) : State :=
  ((List.finRange 4).foldl (fun s i => ((s.setReg (Reg.ser (64 + i.val) 0) 0xE032).modLane ⟨64 + i.val, by omega⟩ fun _ => rxl .track)) s).modFelt f
def syn (x : Felt) : Felt := { x with lanes := x.lanes.map fun l => { l with st := .sync } }
def inF (x : Felt) : Felt := { x with up := true, inFrame := true, acc := [1] }
/-- A device of the pair: its mate registers, its pins, the felt link up under a session key. -/
def mateUp (f : Mte → Mte := id) (p : Pads → Pads := id) (s : State := up) : State :=
  (((s.setReg (Reg.mte 0) 0x130AF).modMte fun x => f { x with key := some (List.replicate 32 8), ver := 1, nonce := some (List.replicate 24 1) }).modPads p).modFelt
    fun x => { x with up := true }
def hi (side : Bool) (p : Pads) : Pads := { p with mateActIn := true, mateSide := side, mateActOut := true }
def lo (side : Bool) (p : Pads) : Pads := { p with mateActIn := false, mateSide := side, mateActOut := true }
def lk (l : Interlock) (st : MState := .unpaired) (x : Mte) : Mte := { x with lock := l, timer := true, st := st }
def folUp (x : Mte) : Mte := { x with follow := x.follow.set 0 { valid := true, seq := 77 } }
def act (x : Mte) : Mte := { lk .granted .active x with peerHealth := 1 }
def seen (n : Nat) (x : Mte) : Mte := { x with st := .standby, follow := x.follow.set 0 { valid := true, peerDef := BitVec.ofNat 12 n } }
def fin (ty : Nat) (b : Bytes) (e : Nat := 0) : Bytes := [byteOf ty, 1] ++ beBytes 2 b.length ++ beBytes 4 e ++ beBytes 8 1 ++ b
/-- A felt frame of the type is the oldest that waits; `got` is what the head gives. -/
def told (ty : Nat) (b : Bytes) (f : Mte → Mte := id) (p : Pads → Pads := id) (s : State := up) (e : Nat := 0) : State :=
  (mateUp f p s).modFelt fun x => { x with inbox := [fin ty b e] }
def rst (s : State) : State := s.modFelt fun x => { x with inbox := [] }
def inp (b : Bytes) (e : Nat := 0) : FeltIn := { epoch := BitVec.ofNat 32 e, body := b }
def helloB (side vmax : Nat) : Bytes := [1, byteOf vmax, byteOf side, 0] ++ beBytes 4 5 ++ beBytes 2 1 ++ [0, 0] ++ List.replicate 24 2 ++ List.replicate 16 0
def pairKey : State := (up.setReg (Reg.mte 0x10) 5).setSlot 5 { st := .live, key := List.replicate 32 3, attr := 0x1C004 }
def confB (n : Nat) : Bytes := [1, 0, 0, 0] ++ List.replicate 24 (byteOf n)
def prg (x : Mte) : Mte := { x with st := .pairing, peerEpoch := 9 }
def keysUp : State := up.modKst fun k => { k with ready := true }
def act0 (x : Mte) : Mte := { act x with peerHealth := 0 }
def act1 (s : State) : State := s.setReg (Reg.mte 0) 0x130A3
/-- A standby that is READY. -/
def rdy (x : Mte) : Mte := { x with st := .standby, synced := true, fresh := true, selftestOk := true }
def memGood : State := (up.modRgn 0 fun x => { x with st := .ready }).modMem fun m => { m with ch := m.ch.map fun c => { c with trained := true } }
def fk (ty : Nat) (b : Bytes) (f : Mte → Mte) (P : State → State → FeltIn → Prop) : Prop := P (told ty b f) (rst (told ty b f)) (inp b)
def dB (n : Nat) : Bytes := beBytes 4 n
def syc (x : Mte) : Mte := { x with st := .sync, rxDseq := 4 }
def recOf (d : Nat) : RxRec := { lsc := 7, accepted := true, lkn := 0, dig := BitVec.ofNat 32 d }
def sn (n : Nat) (x : Mte) : Mte := { syc x with snaps := n }
def dig : Bytes := [0, 0x80, 0, 0] ++ beBytes 4 9 ++ beBytes 8 77 ++ List.replicate 16 0
def hbs (x : Mte) : Mte := { rdy x with hbVals := List.replicate 8 5 }
def cnts (p : Pmc) : Pmc := { p with cnt := [(7, 3), (8, 5), (15, 6), (16, 9)] }
def pmUp (f : Pmc → Pmc := id) : State := up.modPmc fun p => f (cnts p)
def hap (n : Nat) : Happen := { type := 8, src := byteOf n, subject := 0, data := [], ns := 0, sec := 0, tick := 9 }
def evUp (f : Evr → Evr) : State := up.modEvr fun e => f { e with queue := [hap 1] }
def qd : State := { up with pending := [.pmcGather] }
/-- A boot image of two sections, signed with the key whose private scalar is 0x1234567. -/
def bootImage : Bytes :=
  beBytes 16 0x4A4D4249010002000002000007B10000 ++ beBytes 16 0x02000100000000000000000000000000
    ++ beBytes 32 0x088BB9FF22AB291A74C86FC677BA897BAADEE370CC6129B82D170BA3FC26415C
    ++ beBytes 32 0x442DA9A716067956D91EAA02B93AD409490E87CD5E758EA6A331A1DEB75BA846
    ++ beBytes 16 0x010000008000000004000000CDFB3CB6 ++ beBytes 16 0x020000008400000004000000694D8D53 ++ beBytes 8 0x0102030405060708
    ++ List.replicate 312 0
    ++ beBytes 32 0x10A490523955CBC2C2D3452458FCDF97C4733469F187905F5CB67347F4244EB8
    ++ beBytes 32 0x5E30090901A235C87B13EC343B473C8447BF50D4CFFF45892BD7E16C1C1B7B5F
def signed : State := (early 0x3FFF).modOtp fun o => { o with bootKeyHash := sha256 (slice bootImage 32 64) }

def st1 := portUp.modPort 0 fun x => { x with paused := 1 }
def st2 := ((portUp.setReg (fcReg 0) 4).setReg (fcReg 0 + 4) 0).modPort 0 fun x => { x with xoff := 1, held := x.held.set 0 7 }
def st3 := runs [0x1288, 0x980] (holds 2 252 { frame := someFrame })
def st4 := runs [0x1308, 0x980] (holds 1 0x1234 (holds 2 60 { frame := someFrame }))
def st5 := runs [0x1380, 9] {}
def st6 := runs [0x1418, 9] {}
def st7 := runs [0x1418, 9] {p := 2}
def st8 := runs [0x1480, 9] { stack := List.replicate 7 1 }
def st9 := runs [0x800] { stack := [9] }
def st10 := runs [0x3FFF] {} (up.setReg (vatReg t0 8) 0x4123)
def st11 := runs [0x1600, 5] {} (up.setTrib 5 { active := true })
def st12 := runs [0x985] {}
def st13 := runs [0x1688, 0x800] (holds 2 4095 { polCount := 1 }) (up.modSch 0 fun x => { x with policers := [(4095, { en := true })] })
def st14 := runs [0xB81] { desc := [(8, 0x10)] }
def st15 := runs [0xB80] { desc := [(8, 0x10)] }
def st16 := runs [0xB82] { desc := [(8, 0x20)] }
def st17 := runs [0xA80] { trib := some 5 }
def st18 := runs [0xA82] (holds 2 0xE7 { frame := { rx := true } }) (up.setReg (Reg.mac 0 28) 1)
def st19 := runs [0x973] { reqs := [.pol 1 0 0] }
def st20 := runs [0x883] { frame := someFrame }
def st21 := runs [] { reqs := [.hash 1 0 0 [1] 0] } (up.setReg (Reg.vat 0 0x900) 0x80000000)
def st22 := runs [] { reqs := [.tcam 1 0 0 [1] 0] } (up.setReg (Reg.vat 0 0xA00) 0x1000)
def st23 := polT { en := true }
def st24 := polT { en := true, red := 2, redCls := 3 }
def st25 := rxT.setSa 12 {}
def st26 := satT.setSa 12 { st := .faulted }
def st27 := satT.setSa 12 { st := .exhausted }
def st28 := satT.modSac 0 fun x => x.setWay (8*12) (some { sax := 12, ctx := [] })
def st29 := satT.modSac 0 fun x => { x with fetches := (List.range 64).map fun i => { sax := 100 + i } }
def st30 := runs [] { frame := seg, issued := 96 }
def st31 := runs [] { frame := seg, trapAt := some 0, cause := 1 }
def st32 := runs [] { frame := seg }
def st33 := (runs [] { frame := seg }).modVat 0 fun v => { v with excValid := true }
def st34 := (runs [] { frame := seg, ended := some (.enq 0), trib := some 5 }).modMte fun x => { x with st := .standby }
def st35 := runs [] { frame := { seg with att := some 12, refused := true }, ended := some (.enq 0), trib := some 5 }
def st36 := runs [] { frame := { seg with att := some 12 }, ended := some (.enq 0), trib := some 5 }
def st37 := runs [] { frame := { seg with rx := true }, ended := some (.enq 3) }
def st38 := runs [] { frame := seg, ended := some (.enq 0), trib := some 5 } (up.setTrib 5 { active := true })
def st39 := runs [] { frame := seg, ended := some (.punt 3 1 0) }
def st40 := up.modVat 0 fun v => { v with run := v.run.set 0 1, disp := [(0, seg)] }
def st41 := up.modVat 0 fun v => { v with scratch := [(5, 1), (65536, 2)] }
def st42 := up.modVat 0 fun v => { v with run := v.run.set 0 2 }
def st43 := up.modVat 0 fun v => { v with run := v.run.set 0 1 }
def st44 := (runs [] {}).modVat 0 fun v => { v with run := v.run.set 0 1 }
def st45 := up.modVat 0 fun v => { v with hashOp := some ⟨true, 0⟩ }
def st46 := up.modVat 0 fun v => { v with tcamOp := some ⟨true, 0⟩ }
def st47 := (ciph txf (ctx12 0)).setSa 12 { st := .exhausted }
def st48 := (ciph txf (ctx12 0)).setSa 12 { st := .faulted }
def st49 := ((((ciph txf (ctx12 0)).setSa 12 { st := .faulted }).takeCipher 0 txf).countMill 0 3 10 0).dropFrame 0 txf
def st50 := up.modSac 0 fun x => { x with thFifo := [3, 9], thOvf := true }
def st51 := (saUp (ctx12 0)).modMte fun x => { x with tko := 1 }
def st52 := queued r0 [dLpn] ((saRes true catUp).modSac 0 fun x => { x with ways := [] })
def st53 := queued r0 [dPin] (saRes.modSac 0 fun _ => full)
def st54 := queued r0 [dPin] (saRes.modSac 0 fun _ => {})
def st55 := saRes.modSac 0 fun x => { x with retires := [ret12] }
def st56 := (saRes.setSlot 5 { st := .invalidating }).modKst fun k => { k with sweeping := true }
def st57 := queued r0 [dCur] (saRes.modRst fun r => { r with released := 0x7DFF })
def st58 := (queued r0 []).modRing r0 fun g => { g with en := false, cons := 5 }
def st59 := ((queued r0 []).modRing r0 fun g => { g with prod := 1 })
def st60 := ((queued (puntRing 0 3) []).modRing (puntRing 0 3) fun g => { g with prod := 1 })
def st61 := up.modEng 0 fun e => { e with applying := [{ ref := dCur.ref r0, result := 7 }] }
def st62 := (queued r0 []).modRing r0 fun g => { g with done := [{ tag := 9, status := 0, index := 3 }], cqTail := 15, cqHead := 1 }
def st63 := (queued r0 [dF]).modEng 1 fun e => { e with outst := [ref0] }
def st64 := (queued r0 [dGo] (tbUp (1999 * nsU))).modPort 7 fun x => { x with admin := some gl }
def st65 := (tbUp (1000 * nsU)).modPort 7 fun x => { x with pend := some gl }
def st66 := (tbUp (1500 * nsU)).modPort 7 fun x => { x with oper := some gl }
def st67 := eg.modMte fun x => { x with st := .standby }
def st68 := eg.modPort 0 fun x => { x with paused := 0xFF }
def st69 := eg.modPort 0 fun x => { x with sending := some qf }
def st70 := (tbUp 5).modLci 0 fun x => { x with arm := some { lkn := 1, ref := some ref0, time := some 9, late := false } }
def st71 := (tbUp 9).modTrig 7 fun g => { g with high := true, fallAt := 9 }
def st72 := (tbUp 9).modTrig 7 fun g => { g with active := true, more := true, next := 9, period := 4, width := 2 }
def st73 := up.modTim fun t => { t with ppsOut := true }
def st74 := up.modQueue 8 fun q => { q with ents := List.replicate 16 {} }
def st75 := up.modQueue 8 fun q => { ents := [{}], ovf := true }
def st76 := up.setTcTable 35 [{ key := [1], part := 2 }, { key := [2], part := 2 }]
def st77 := up.modChan 3 fun c => { c with training := true }
def st78 := up.setSa 3 { st := .installed }
def st79 := up.modRgn 2 fun x => { x with st := .init, load := some (5, [1], 0), drawn := some [2] }
def st80 := chUp fun c => { c with queue := [rq .read] }
def st81 := (memUp.modMem fun m => { m with ch := m.ch.map fun c => { c with trained := false } }).modChan 0 fun c => { c with queue := [rq .read] }
def st82 := (memUp.modMem fun m => { m with ch := m.ch.map fun c => { c with trained := false } }).chan 0
def st83 := chUp fun c => { c with reads := [rq .read], poison := [(0, true)] }
def st84 := chUp fun c => { c with queue := [wq], minor := [(0, 62)] }
def st85 := { memUp.chan 0 with minor := [(0, 62)] }
def st86 := chUp fun c => { c with queue := [wq], minor := [(0, 63)] }
def st87 := { memUp.chan 0 with minor := [(0, 63)] }
def st88 := chUp fun c => { c with rewrites := [pgw] }
def st89 := chUp fun c => { c with fail := true, rewrites := [pgw] }
def st90 := chUp fun c => { c with acks := [wq] }
def st91 := scr fun c => { c with scrubPos := 127, poison := [(127, true)] }
def st92 := scr fun c => { c with scrubPos := 127, lines := [(127, { ct := List.replicate 32 1, tag := 0, ecc := 0 })] }
def st93 := rngUp.modRng fun r => { r with pool := [] }
def st94 := rngQ.modRng fun r => { r with pool := [] }
def st95 := rngUp fun r => { r with st := .failed }
def st96 := rngUp fun r => { r with st := .test, mode := 2 }
def st97 := rngUp fun r => { r with st := .test, mode := 1 }
def st98 := rngUp fun r => { r with bufs := r.bufs.set 7 { words := [5, 6] } }
def st99 := rngUp fun r => { r with bufs := r.bufs.set 7 { latched := some 5 } }
def st100 := rngUp fun r => { r with st := .test, raw := [5, 6] }
def st101 := up.modKst fun k => { k with ready := true }
def st102 := up.modUci fun x => { x with load := some ul }
def st103 := up.modUci fun x => { x with load := some { ul with erased := true } }
def st104 := { ul with erased := true }
def st105 := (kstUp fun k => { k with marking := some kinv5 }).setSlot 5 { st := .invalidating }
def st106 := ((kstUp fun k => { k with marking := some kinv5 }).setSlot 5 { st := .invalidating }).modLkn 0 2 fun l => { l with loaded := true, slot := 5 }
def st107 := kstUp.setSlot 5 { st := .invalidating }
def st108 := kstUp fun k => { k with mtpJobs := [mj] }
def st109 := lcUp fun k => { k with lcPhase := some (.fuse 4) }
def st110 := lcUp fun k => { k with lcPhase := some (.fuse 3) }
def st111 := (ranked 2).modTmp fun t => { t with firing := 4 }
def st112 := (ranked 2).modTmp fun t => { t with throttle := true, thrSrcs := 4 }
def st113 := up.modTmp fun t => { t with evJobs := [.backup] }
def st114 := up.modTmp fun t => { t with fusePend := some 5 }
def st115 := up.modTmp fun t => { t with holdDue := true }
def st116 := cell.modRst fun r => { r with porHeld := true }
def st117 := up.modTmp fun t => { t with bistCur := some 3 }
def st118 := (ranked 2).modTmp fun t => { t with bistCur := some 3 }
def st119 := up.modRst fun r => { r with resetLow := true }
def st120 := up.modRst fun r => { r with perstLow := true }
def st121 := { early 0x3FFF with rst := { (early 0x3FFF).rst with bootDone := true } }
def st122 := (early 1).modRst fun r => { r with trimB := true }
def st123 := (((lineUp nearly).line 0).lanes[7].judge false (some (mk 7 8 500)) 64).getD {}
def st124 := lineUp fun l => { nearly l with lanes := (nearly l).lanes.set 7 { locw := false } }
def st125 := lineUp fun l => { l with everAligned := true }
def st126 := lineUp fun l => { l with aligned := true, defects := { l.defects with loa := false } }
def st127 := up.modLkn 0 2 fun k => { k with track := .trial 0 16 }
def st128 := (lineUp nearly).modLane (lineLane 0 3) fun _ => {}
def st129 := lineUp (wrong fun r => { r with authFail := 4 })
def st130 := lineUp (wrong fun r => { r with unkeyed := 3 })
def st131 := (lineUp (wrong fun r => { r with wmBad := 3 })).setReg (Reg.lnf 0 0) 0x00FF041F
def st132 := lineUp (wrong fun r => { r with feSet := r.feSet.set 1 3 })
def st133 := lineUp (wrong (fun r => { r with authOk := 4 }) fun d => { d with auth := true })
def st134 := lineUp (wrong (fun r => { r with keyed := 3 }) fun d => { d with keyless := true })
def st135 := lineUp (wrong (fun r => { r with wmGood := 3 }) fun d => { d with wm := true })
def st136 := lineUp (wrong (fun r => { r with feClr := r.feClr.set 1 3 }) fun d => { d with feRaf := true })
def st137 := (lineUp nearly).modDkl 0 (fun x => { x with rxMap := 2 }) |>.modLine 0 fun l => { l with lanes := l.lanes.set 1 { l.lanes[1] with holdoff := true } }
def st138 := heard (hello 2) fun d => { d with neg := .offer }
def st139 := rest (hello 2) fun d => { d with neg := .offer }
def st140 := heard (hello 0) fun d => { d with neg := .offer }
def st141 := rest (hello 0) fun d => { d with neg := .offer }
def st142 := heard (hello 2) fun d => { d with neg := .agreed, farSession := some 77 }
def st143 := rest (hello 2) fun d => { d with neg := .agreed, farSession := some 77 }
def st144 := heard (hello 2) fun d => { d with neg := .agreed, farSession := some 76 }
def st145 := rest (hello 2) fun d => { d with neg := .agreed, farSession := some 76 }
def st146 := (heard upper id).modLkn 0 2 fun k => { k with track := .resync }
def st147 := (rest upper id).modLkn 0 2 fun k => { k with track := .resync }
def st148 := up.modLine 0 fun l => { l with dlg := { l.dlg with host := some [] } }
def st149 := up.modLine 0 fun l => { l with dlg := { l.dlg with neg := .failed } }
def st150 := dkUp fun x => { x with validating := some (.shedReady vRef) }
def st151 := dkUp fun x => { x with validating := some (.shedReady vRef), pageB := [(7, 0x8001)] }
def st152 := queued r0 [dC] (dkUp fun x => { x with arm := some (pa 9) })
def st153 := queued r0 [dC] (dkUp fun x => { x with arm := some (pa 9), flipCd := 2 })
def st154 := dkUp (fun x => { x with validating := some (.flip vRef none) })
def st155 := dkUp (fun x => { x with validating := some (.flip vRef (some 9)) }) (lineUp id)
def st156 := dkUp (fun x => { x with validating := some (.flip vRef none), pageB := [(7, 0x8001)] }) (lineUp id)
def st157 := dkUp (fun x => { x with validating := some (.flip vRef none), lanesB := 5 }) (lineUp id)
def st158 := sevenB fun x => { x with validating := some (.shed vRef 3 none) }
def st159 := shedB fun x => { x with validating := some (.restore none 3 none) }
def st160 := dkUp (fun x => { x with arm := some (pa 9) }) (lineUp atRc)
def st161 := dkUp (fun x => { x with arm := some (pa 10) }) (lineUp atRc)
def st162 := queued r2 [dLk 0 [] 5] (keySlot (up.modKst fun k => { k with marking := some { ref := vRef, slots := [] } }))
def st163 := (lkUp .current (lineUp atRc)).modLkn 0 2 fun k => { k with halts := [vRef] }
def st164 := laneUp 5 0xE008 {}
def st165 := laneUp 5 0xE009 {}
def st166 := laneUp 67 0xE030 { txIdle := false }
def st167 := laneUp 5 0xE009 { burst := true }
def st168 := laneUp 5 0xE00A { st := .waitSig }
def st169 := laneUp 5 0xE00A { rxl .cdr with saved := true }
def st170 := laneUp 5 0xE00A { rxl .track with eyeBusy := true }
def st171 := feltUp fun x => { x with up := true }
def st172 := (mateUp (fun x => lk .claim .taking (folUp x)) (lo false)).modLkn 0 1 fun k => { k with loaded := true, tx := .current }
def st173 := (mateUp fun x => { x with nonce := none })
def st174 := mateUp fun x => { act x with peerHealth := 0 }
def st175 := mateUp fun x => { act x with silent := false }
def st176 := mateUp fun x => { act x with selftesting := true }
def st177 := mateUp fun x => { x with st := .sync, synced := true, selftesting := true }
def st178 := mateUp (fun x => { x with st := .released, cause := 2 }) (lo false)
def st179 := mateUp (fun x => { x with fresh := true })
def st180 := mateUp (fun x => { x with aGood := true, bGood := true })
def st181 := mateUp fun x => { act x with hbOutVals := List.replicate 8 5 }
def st182 := (mateUp (seen 0)).modLine 0 fun l => { l with defects := { auth := true } }
def st183 := up.modMte fun x => { x with follow := x.follow.set 0 { mism := 2 } }
def st184 := cnts {}
def st185 := pmUp fun p => { p with busy := true }
def st186 := evUp fun e => { e with written := 1, last := [(0, List.replicate 32 0)], hist := [{ type := 8, src := 1, subject := 0, data := [], tick := 5, seq := 0 }] }
def st187 := evUp fun e => { e with queue := List.replicate 32 (hap 1) }
def st188 := up.modHst fun h => { h with pba := 8, masked := 8 }
def st189 := up.modMte fun x => { x with lock := .claim, timer := true }

/-! ## Witnesses of the obligations -/

/-- States and operands that meet the hypotheses of `StepTakesFront`. -/
theorem witness_StepTakesFront :
    qd.pending = [Instr.pmcGather] := by
  first
    | decide +kernel
    | rfl
    | (unfold State.Takes; decide +kernel)
    | (unfold State.Issues; decide +kernel)
    | simp

/-- States and operands that meet the hypotheses of `StepsPassTheQueueAndTime`. -/
theorem witness_StepsPassTheQueueAndTime :
    up.pending = [] := by
  first
    | decide +kernel
    | rfl
    | (unfold State.Takes; decide +kernel)
    | (unfold State.Issues; decide +kernel)
    | simp

/-- States and operands that meet the hypotheses of `ClientPortsReceive`. -/
theorem witness_ClientPortsReceive :
    portUp.millLive (portMill (0 : Fin 32)) = true
    ∧ portUp.portOn (0 : Fin 32) = true
    ∧ isControl (frameOf 2048 []) = false
    ∧ macFault (frameOf 2048 []) false = none
    ∧ fr0 portUp =
      { bytes := frameOf 2048 [], clientMill := portMill (0 : Fin 32), stamp := portUp.portStamp 0 false, pri := portUp.ingressPri (0 : Fin 32) (frameOf 2048 []) : Frame }
    ∧ portUp.queueFor (portMill (0 : Fin 32)) = some (0 : Fin 8)
    ∧ (portUp.port (0 : Fin 32)).hold = []
    ∧ noRun.millLive (portMill (0 : Fin 32)) = true
    ∧ noRun.portOn (0 : Fin 32) = true
    ∧ fr0 noRun =
      { bytes := frameOf 2048 [], clientMill := portMill (0 : Fin 32), stamp := noRun.portStamp 0 false, pri := noRun.ingressPri (0 : Fin 32) (frameOf 2048 []) : Frame }
    ∧ (noRun.dispRoom (portMill (0 : Fin 32)) = false ∨ (noRun.port (0 : Fin 32)).hold ≠ [])
    ∧ holding.millLive (portMill (0 : Fin 32)) = true
    ∧ holding.portOn (0 : Fin 32) = true
    ∧ fr0 holding =
      { bytes := frameOf 2048 [], clientMill := portMill (0 : Fin 32), stamp := holding.portStamp 0 false, pri := holding.ingressPri (0 : Fin 32) (frameOf 2048 []) : Frame }
    ∧ (holding.dispRoom (portMill (0 : Fin 32)) = false ∨ (holding.port (0 : Fin 32)).hold ≠ [])
    ∧ (macFault (frameOf 2048 []) true).isSome = true
    ∧ (portUp.setReg (fcReg (0 : Fin 32)) 1).millLive (portMill (0 : Fin 32)) = true
    ∧ (portUp.setReg (fcReg (0 : Fin 32)) 1).portOn (0 : Fin 32) = true
    ∧ isControl (frameOf 34824 [(0 : Byte), (1 : Byte), (0 : Byte), (9 : Byte)]) = true
    ∧ macFault (frameOf 34824 [(0 : Byte), (1 : Byte), (0 : Byte), (9 : Byte)]) false = none
    ∧ pauseBy ((portUp.setReg (fcReg (0 : Fin 32)) 1).fld (fcReg (0 : Fin 32)) 0 2) ((portUp.setReg (fcReg (0 : Fin 32)) 1).fld (fcReg (0
      : Fin 32)) 8 8) (frameOf 34824 [(0 : Byte), (1 : Byte), (0 : Byte), (9 : Byte)]) ((portUp.setReg (fcReg (0 : Fin 32)) 1).port (0 :
      Fin 32)).paused = some (255 : Byte)
    ∧ st1.millLive (portMill (0 : Fin 32)) = true
    ∧ BitVec.getLsbD (st1.port (0 : Fin 32)).paused 0 = true
    ∧ st2.millLive (portMill (0 : Fin 32)) = true
    ∧ st2.fcOn (0 : Fin 32) 0 = true
    ∧ BitVec.getLsbD (st2.port (0 : Fin 32)).xoff 0 = true
    ∧ st2.fld (fcReg (0 : Fin 32) + 4) 16 16 < st2.fcCount (0 : Fin 32) 0
    ∧ st2.shadowing = false
    ∧ stag.hbxGrant (1 : Fin 4) (2 : Fin 3) = some ((0 : Fin 4), Offer.tx { f := txf, units := 1, pri := 0 : Queued })
    ∧ (∀ j < (2 : Fin 3), stag.hbxGrant (1 : Fin 4) j = none) := by
  and_intros <;> first
    | decide +kernel
    | rfl
    | (unfold State.Takes; decide +kernel)
    | (unfold State.Issues; decide +kernel)
    | simp

/-- States and operands that meet the hypotheses of `VatArithmeticAndControl`. -/
theorem witness_VatArithmeticAndControl :
    (runs [18] (holds 2 5)).Issues t0 (VInstr.alu 0 1 (VSrc.reg 1) (VSrc.reg 2)) 1
    ∧ (runs [274] (holds 2 5)).Issues t0 (VInstr.alu 1 1 (VSrc.reg 1) (VSrc.reg 2)) 1
    ∧ (runs [530] (holds 2 5)).Issues t0 (VInstr.alu 2 1 (VSrc.reg 1) (VSrc.reg 2)) 1
    ∧ (runs [786] (holds 2 5)).Issues t0 (VInstr.alu 3 1 (VSrc.reg 1) (VSrc.reg 2)) 1
    ∧ (runs [1042] (holds 2 5)).Issues t0 (VInstr.alu 4 1 (VSrc.reg 1) (VSrc.reg 2)) 1
    ∧ (runs [1298] (holds 2 5)).Issues t0 (VInstr.alu 5 1 (VSrc.reg 1) (VSrc.reg 2)) 1
    ∧ (runs [1554] (holds 2 65 (holds 1 3))).Issues t0 (VInstr.alu 6 1 (VSrc.reg 1) (VSrc.reg 2)) 1
    ∧ (runs [1794] (holds 2 65)).Issues t0 (VInstr.alu 7 0 (VSrc.reg 0) (VSrc.reg 2)) 1
    ∧ (runs [8457, 1, 2] (holds 1 5)).Issues t0 (VInstr.movShift 1 (zimm 16386)) 3
    ∧ st5.Issues t0 (VInstr.br 9) 2
    ∧ st6.Issues t0 (VInstr.brp 1 true 9) 2
    ∧ st7.Issues t0 (VInstr.brp 1 true 9) 2
    ∧ st8.Issues t0 (VInstr.call 9) 2
    ∧ (st8.thread t0).stack.length < 8
    ∧ st9.Issues t0 VInstr.ret 1
    ∧ (st9.thread t0).stack = [(9 : W14)]
    ∧ st17.Issues t0 (VInstr.enq 0) 1
    ∧ (st17.thread t0).frame.rx = false
    ∧ (st17.thread t0).trib.isSome = true
    ∧ st18.Issues t0 (VInstr.enq 2) 1
    ∧ (st18.thread t0).frame.rx = true
    ∧ BitVec.toNat ((st18.thread t0).gr 2) < 256
    ∧ BitVec.toNat ((st18.thread t0).gr 2) % 32 / 8 = ↑t0.mill
    ∧ st18.portEnabled (portOf (BitVec.toNat ((st18.thread t0).gr 2))) = true
    ∧ st19.Issues t0 (VInstr.punt 7 3) 1
    ∧ st20.Issues t0 (VInstr.drop 3) 1 := by
  and_intros <;> first
    | decide +kernel
    | rfl
    | (unfold State.Takes; decide +kernel)
    | (unfold State.Issues; decide +kernel)
    | simp

/-- States and operands that meet the hypotheses of `VatMovesAndFields`. -/
theorem witness_VatMovesAndFields :
    (runs [4488, 4] (holds 1 5)).Issues t0 (VInstr.movSpecial 1 4) 2
    ∧ (((runs [4488, 4] (holds 1 5)).tookTurn t0).setThread t0 ((runs [4488, 4] (holds 1 5)).past t0 2)).special t0 ((runs [4488, 4]
      (holds 1 5)).past t0 2) 4 = some (0 : W64)
    ∧ (runs [4626, 1029] (holds 2 5)).Issues t0 (VInstr.cmp 1 2 0 (VSrc.imm (zimm 5))) 2
    ∧ st3.Issues t0 (VInstr.extMem 1 false 2 0 4) 2
    ∧ BitVec.toNat ((st3.thread t0).gr 2) + 0 + 4 ≤ 256
    ∧ (runs [4746, 2432] (holds 2 8188)).Issues t0 (VInstr.extMem 1 true 2 0 4) 2
    ∧ BitVec.toNat (((runs [4746, 2432] (holds 2 8188)).thread t0).gr 2) + 0 + 4 ≤ 8192
    ∧ (runs [4748, 2111] (holds 2 1193046)).Issues t0 (VInstr.extReg 1 2 3 16) 2
    ∧ st4.Issues t0 (VInstr.insMem 1 false 2 0 4) 2
    ∧ (st4.thread t0).winGuard (BitVec.toNat ((st4.thread t0).gr 2) + 0) 4 = false
    ∧ (runs [4874, 2432] (holds 1 4660 (holds 2 8188))).Issues t0 (VInstr.insMem 1 true 2 0 4) 2
    ∧ BitVec.toNat (((runs [4874, 2432] (holds 1 4660 (holds 2 8188))).thread t0).gr 2) + 0 + 4 ≤ 8192
    ∧ (runs [4876, 2111] (holds 1 5 (holds 2 1193046))).Issues t0 (VInstr.insReg 1 2 3 16) 2
    ∧ st10.millLive t0.mill = true
    ∧ st10.issuable t0 = true
    ∧ st10.vatTurn t0 = true
    ∧ st10.vinstr t0 = none
    ∧ (st10.thread t0).inTrap = false
    ∧ st10.bit (vatReg t0 8) 14 = true
    ∧ ((st10.tookTurn t0).setThread t0 ({ (st10.thread t0) with issued := (st10.thread t0).issued + 1 } : Thread)).thread t0 =
      ({ (st10.thread t0) with issued := (st10.thread t0).issued + 1 } : Thread) := by
  and_intros <;> first
    | decide +kernel
    | rfl
    | (unfold State.Takes; decide +kernel)
    | (unfold State.Issues; decide +kernel)
    | simp

/-- States and operands that meet the hypotheses of `VatFrameInstructions`. -/
theorem witness_VatFrameInstructions :
    (runs [5384, 2064] (holds 2 5) (up.setReg (Reg.vat 0 2304) 2148007936)).Issues t0 (VInstr.lkp 1 0 2 0 1) 2
    ∧ (runs [5384, 2064] (holds 2 5) (up.setReg (Reg.vat 0 2304) 2148007936)).htOk t0.mill 0 1 = true
    ∧ (runs [5512, 2048] (holds 2 5) (up.setReg (Reg.vat 0 2560) 4096)).Issues t0 (VInstr.tcm 1 0 2 0) 2
    ∧ ((runs [5512, 2048] (holds 2 5) (up.setReg (Reg.vat 0 2560) 4096)).tcamPart t0.mill 0).2 ≠ 0
    ∧ (runs [2818] (holds 2 16383)).Issues t0 (VInstr.att 2) 1
    ∧ ((runs [2818] (holds 2 16383)).thread t0).attUsed = false
    ∧ BitVec.toNat (((runs [2818] (holds 2 16383)).thread t0).gr 2) < 16384
    ∧ st11.Issues t0 (VInstr.trib (VSrc.imm (zimm 5))) 2
    ∧ (st11.thread t0).frame.rx = false
    ∧ 1 ≤ BitVec.toNat ((st11.thread t0).src (VSrc.imm (zimm 5))) % 16384
    ∧ BitVec.toNat ((st11.thread t0).src (VSrc.imm (zimm 5))) % 16384 ≤ 16381
    ∧ (st11.tribAt (BitVec.toNat ((st11.thread t0).src (VSrc.imm (zimm 5))) % 16384)).active = true
    ∧ st12.Issues t0 (VInstr.cls (VSrc.imm (zimm 5))) 1
    ∧ st13.Issues t0 (VInstr.pol 1 2) 2
    ∧ (st13.thread t0).polCount < 2
    ∧ BitVec.toNat ((st13.thread t0).gr 2) < 4096
    ∧ (st13.policer t0.mill (BitVec.toNat ((st13.thread t0).gr 2))).en = true
    ∧ st14.Issues t0 (VInstr.stmp 1) 1
    ∧ (natBit (tget 0 (st14.thread t0).desc 8) 4 = true ∨ natBit (tget 0 (st14.thread t0).desc 8) 5 = true)
    ∧ st15.Issues t0 (VInstr.stmp 0) 1
    ∧ natBit (tget 0 (st15.thread t0).desc 8) 4 = true
    ∧ st16.Issues t0 (VInstr.stmp 2) 1
    ∧ natBit (tget 0 (st16.thread t0).desc 8) 4 = false
    ∧ natBit (tget 0 (st16.thread t0).desc 8) 5 = true
    ∧ 0 ≤ 2 := by
  and_intros <;> first
    | decide +kernel
    | rfl
    | (unfold State.Takes; decide +kernel)
    | (unfold State.Issues; decide +kernel)
    | simp

/-- States and operands that meet the hypotheses of `VatUnitsAnswer`. -/
theorem witness_VatUnitsAnswer :
    List.find? (fun x => match x with | VatReq.hash rd pd table key pc => true | x => false) (st21.thread t0).reqs = some (VatReq.hash 1 0
      0 [(1 : Byte)] (0 : W14))
    ∧ st21.bit (Reg.vat (↑t0.mill) (2304 + 4 * 0)) 31 = true
    ∧ List.find? (fun x => match x with | VatReq.tcam rd pd part key pc => true | x => false) (st22.thread t0).reqs = some (VatReq.tcam 1
      0 0 [(1 : Byte)] (0 : W14))
    ∧ (st22.tcamPart t0.mill 0).2 ≠ 0
    ∧ List.find? (fun x => match x with | VatReq.pol rd n pc => true | x => false) (st23.thread t0).reqs = some (VatReq.pol 1 3 (0 : W14))
    ∧ (st23.policer t0.mill 3).en = true
    ∧ ((if ((st23.policer t0.mill 3).decide st23.now ((st23.thread t0).lastColour.getD 0) (List.length (st23.thread t0).frame.bytes)).1 =
      1 then (st23.policer t0.mill 3).yellow else if ((st23.policer t0.mill 3).decide st23.now ((st23.thread t0).lastColour.getD 0)
      (List.length (st23.thread t0).frame.bytes)).1 = 2 then (st23.policer t0.mill 3).red else 0) ≠ 1)
    ∧ List.find? (fun x => match x with | VatReq.pol rd n pc => true | x => false) (st24.thread t0).reqs = some (VatReq.pol 1 3 (0 : W14))
    ∧ (st24.policer t0.mill 3).en = true
    ∧ ((if ((st24.policer t0.mill 3).decide st24.now ((st24.thread t0).lastColour.getD 0) (List.length (st24.thread t0).frame.bytes)).1 =
      1 then (st24.policer t0.mill 3).yellow else if ((st24.policer t0.mill 3).decide st24.now ((st24.thread t0).lastColour.getD 0)
      (List.length (st24.thread t0).frame.bytes)).1 = 2 then (st24.policer t0.mill 3).red else 0) ≠ 1)
    ∧ st40.millLive (0 : Fin 4) = true
    ∧ st40.nextDispatch (0 : Fin 4) [] (st40.vat (0 : Fin 4)).disp = some (((0 : Fin 8), seg), t0) := by
  and_intros <;> first
    | decide +kernel
    | rfl
    | (unfold State.Takes; decide +kernel)
    | (unfold State.Issues; decide +kernel)
    | simp

/-- States and operands that meet the hypotheses of `VatFramesAttachOrEnd`. -/
theorem witness_VatFramesAttachOrEnd :
    (rxU.thread t0).wait = VatWait.att 3 false (0 : W14)
    ∧ rxU.attSelect t0 (rxU.thread t0) 3 = Except.ok 12
    ∧ (rxU.thread t0).frame.rx = true
    ∧ (rxU.thread t0).tagged = false
    ∧ (rxT.thread t0).wait = VatWait.att 3 false (0 : W14)
    ∧ rxT.attSelect t0 (rxT.thread t0) 3 = Except.ok 12
    ∧ ((rxT.thread t0).frame.rx = true → (rxT.thread t0).tagged = true)
    ∧ rxT.saEff 12 = SaState.installed
    ∧ (rxT.sac t0.mill).find 12 = none
    ∧ (rxT.sac t0.mill).awaited 12 = false
    ∧ (rxT.sac t0.mill).victim 12 = none
    ∧ rxT.missHold t0.mill (rxT.thread t0).frame.rx < 1024
    ∧ (rxT.sac t0.mill).missOut < 64
    ∧ (st25.thread t0).wait = VatWait.att 3 false (0 : W14)
    ∧ st25.attSelect t0 (st25.thread t0) 3 = Except.ok 12
    ∧ ((st25.thread t0).frame.rx = true → (st25.thread t0).tagged = true)
    ∧ saMissing (st25.saEff 12) = true
    ∧ (st26.thread t0).wait = VatWait.att 3 false (0 : W14)
    ∧ st26.attSelect t0 (st26.thread t0) 3 = Except.ok 12
    ∧ ((st26.thread t0).frame.rx = true → (st26.thread t0).tagged = true)
    ∧ (st26.saEff 12 = SaState.orphaned ∨ st26.saEff 12 = SaState.faulted)
    ∧ (st27.thread t0).wait = VatWait.att 3 false (0 : W14)
    ∧ st27.attSelect t0 (st27.thread t0) 3 = Except.ok 12
    ∧ ((st27.thread t0).frame.rx = true → (st27.thread t0).tagged = true)
    ∧ st27.saEff 12 = SaState.exhausted
    ∧ (st28.thread t0).wait = VatWait.att 3 false (0 : W14)
    ∧ st28.attSelect t0 (st28.thread t0) 3 = Except.ok 12
    ∧ ((st28.thread t0).frame.rx = true → (st28.thread t0).tagged = true)
    ∧ st28.saEff 12 = SaState.installed
    ∧ (st28.sac t0.mill).find 12 = some 96
    ∧ ((st28.sac t0.mill).ctx 12).isSome = true
    ∧ (satT.thread t0).wait = VatWait.att 3 false (0 : W14)
    ∧ satT.attSelect t0 (satT.thread t0) 3 = Except.ok 12
    ∧ ((satT.thread t0).frame.rx = true → (satT.thread t0).tagged = true)
    ∧ satT.saEff 12 = SaState.installed
    ∧ (satT.sac t0.mill).find 12 = none
    ∧ (satT.sac t0.mill).awaited 12 = false
    ∧ (satT.sac t0.mill).victim 12 = none
    ∧ satT.missHold t0.mill (satT.thread t0).frame.rx < 1024
    ∧ (satT.sac t0.mill).missOut < 64
    ∧ (st29.thread t0).wait = VatWait.att 3 false (0 : W14)
    ∧ st29.attSelect t0 (st29.thread t0) 3 = Except.ok 12
    ∧ ((st29.thread t0).frame.rx = true → (st29.thread t0).tagged = true)
    ∧ st29.saEff 12 = SaState.installed
    ∧ (st29.sac t0.mill).find 12 = none
    ∧ (st29.sac t0.mill).awaited 12 = false
    ∧ (st29.sac t0.mill).victim 12 = none
    ∧ 64 ≤ (st29.sac t0.mill).missOut
    ∧ (st30.thread t0).runs = true
    ∧ st30.issueLim t0.mill ≤ (st30.thread t0).issued
    ∧ (st31.thread t0).busy = true
    ∧ (st31.thread t0).enqDone = false
    ∧ (st31.thread t0).trapAt = some st31.now
    ∧ (st32.thread t0).busy = true
    ∧ (st32.thread t0).enqDone = false
    ∧ (st32.thread t0).trapAt ≠ some st32.now
    ∧ (st32.vat t0.mill).excValid = false
    ∧ (st33.vat t0.mill).excValid = true := by
  and_intros <;> first
    | decide +kernel
    | rfl
    | (unfold State.Takes; decide +kernel)
    | (unfold State.Issues; decide +kernel)
    | simp

/-- States and operands that meet the hypotheses of `VatFramesLeave`. -/
theorem witness_VatFramesLeave :
    (st34.thread t0).busy = true
    ∧ st34.inOrder t0 = true
    ∧ (st34.thread t0).ended = some (VatEnd.enq 0)
    ∧ (st34.thread t0).answered = true
    ∧ st34.shadowing = true
    ∧ (st34.thread t0).frame.rx = false
    ∧ (st35.thread t0).busy = true
    ∧ st35.inOrder t0 = true
    ∧ (st35.thread t0).ended = some (VatEnd.enq 0)
    ∧ (st35.thread t0).answered = true
    ∧ (st35.shadowing = false ∨ (st35.thread t0).frame.rx = true)
    ∧ ((st35.verdict (st35.thread t0) 0).badTag = true ∨ (st35.verdict (st35.thread t0) 0).refused = true)
    ∧ (st36.thread t0).busy = true
    ∧ st36.inOrder t0 = true
    ∧ (st36.thread t0).ended = some (VatEnd.enq 0)
    ∧ (st36.thread t0).answered = true
    ∧ (st36.shadowing = false ∨ (st36.thread t0).frame.rx = true)
    ∧ (st36.verdict (st36.thread t0) 0).badTag = false
    ∧ (st36.verdict (st36.thread t0) 0).refused = false
    ∧ (st36.verdict (st36.thread t0) 0).att.isSome = true
    ∧ (st37.thread t0).busy = true
    ∧ st37.inOrder t0 = true
    ∧ (st37.thread t0).ended = some (VatEnd.enq 3)
    ∧ (st37.thread t0).answered = true
    ∧ (st37.shadowing = false ∨ (st37.thread t0).frame.rx = true)
    ∧ (st37.verdict (st37.thread t0) 3).badTag = false
    ∧ (st37.verdict (st37.thread t0) 3).refused = false
    ∧ (st37.verdict (st37.thread t0) 3).att = none
    ∧ (st37.thread t0).frame.rx = true
    ∧ (st38.thread t0).busy = true
    ∧ st38.inOrder t0 = true
    ∧ (st38.thread t0).ended = some (VatEnd.enq 0)
    ∧ (st38.thread t0).answered = true
    ∧ (st38.shadowing = false ∨ (st38.thread t0).frame.rx = true)
    ∧ (st38.verdict (st38.thread t0) 0).badTag = false
    ∧ (st38.verdict (st38.thread t0) 0).refused = false
    ∧ (st38.verdict (st38.thread t0) 0).att = none
    ∧ (st38.thread t0).frame.rx = false
    ∧ (st39.thread t0).busy = true
    ∧ st39.inOrder t0 = true
    ∧ (st39.thread t0).ended = some (VatEnd.punt 3 1 0)
    ∧ (st39.vat t0.mill).punts[((3 : Fin 8) : Fin 8)].length < 64
    ∧ (pq.setReg (Reg.ring 0 7 8) 1088).engLive (0 : Fin 4) = true
    ∧ (pq.setReg (Reg.ring 0 7 8) 1088).hstLive = true
    ∧ (pq.setReg (Reg.ring 0 7 8) 1088).millLive (0 : Fin 4) = true
    ∧ ((pq.setReg (Reg.ring 0 7 8) 1088).ring (puntRing (0 : Fin 4) (3 : Fin 8))).en = true
    ∧ ((pq.setReg (Reg.ring 0 7 8) 1088).ring (puntRing (0 : Fin 4) (3 : Fin 8))).halt = false
    ∧ (pq.setReg (Reg.ring 0 7 8) 1088).cqFull (puntRing (0 : Fin 4) (3 : Fin 8)) = false
    ∧ ((pq.setReg (Reg.ring 0 7 8) 1088).vat (0 : Fin 4)).punts[(3 : Fin 8)] = [{ frame := seg, reason := 1 : Punt }]
    ∧ ((pq.setReg (Reg.ring 0 7 8) 1088).ring (puntRing (0 : Fin 4) (3 : Fin 8))).fetched =
      [{ index := 0, raw := padTo 16 (leBytes 8 64 ++ leBytes 4 9312) : Desc }]
    ∧ 9312 ≤ { index := 0, raw := padTo 16 (leBytes 8 64 ++ leBytes 4 9312) : Desc }.u 8 4 := by
  and_intros <;> first
    | decide +kernel
    | rfl
    | (unfold State.Takes; decide +kernel)
    | (unfold State.Issues; decide +kernel)
    | simp

/-- States and operands that meet the hypotheses of `VatIsSetUp`. -/
theorem witness_VatIsSetUp :
    st41.millLive (0 : Fin 4) = true
    ∧ (st41.vat (0 : Fin 4)).run[(0 : Fin 8)] ≠ 1
    ∧ st42.millLive (0 : Fin 4) = true
    ∧ (st42.vat (0 : Fin 4)).run[(0 : Fin 8)] ≠ 1
    ∧ st43.millLive (0 : Fin 4) = true
    ∧ (st43.vat (0 : Fin 4)).run[(0 : Fin 8)] = 1
    ∧ st44.millLive (0 : Fin 4) = true
    ∧ (st44.vat (0 : Fin 4)).run[(0 : Fin 8)] = 1
    ∧ (st42.vat (0 : Fin 4)).run[(0 : Fin 8)] = 2
    ∧ st42.clusterIdle (0 : Fin 4) (0 : Fin 8) = true
    ∧ (up.setReg (Reg.vat 0 2432) 7).millLive (0 : Fin 4) = true
    ∧ ((up.setReg (Reg.vat 0 2432) 7).vat (0 : Fin 4)).hashOp = none
    ∧ up.millLive (0 : Fin 4) = true
    ∧ (up.vat (0 : Fin 4)).hashOp = none
    ∧ (up.setReg (Reg.vat 0 2688) 7).millLive (0 : Fin 4) = true
    ∧ ((up.setReg (Reg.vat 0 2688) 7).vat (0 : Fin 4)).tcamOp = none
    ∧ (up.vat (0 : Fin 4)).tcamOp = none
    ∧ st45.millLive (0 : Fin 4) = true
    ∧ (st45.vat (0 : Fin 4)).hashOp.isSome = true
    ∧ st46.millLive (0 : Fin 4) = true
    ∧ (st46.vat (0 : Fin 4)).tcamOp.isSome = true := by
  and_intros <;> first
    | decide +kernel
    | rfl
    | (unfold State.Takes; decide +kernel)
    | (unfold State.Issues; decide +kernel)
    | simp

/-- States and operands that meet the hypotheses of `ContextsComeAndGo`. -/
theorem witness_ContextsComeAndGo :
    List.find? (fun f => decide (f.sax = 12)) ((fetching (ctx12 0) 0).sac (0 : Fin 4)).fetches = some (fet (ctx12 0) 0)
    ∧ 8 ≤ (fet (ctx12 0) 0).done
    ∧ ((fetching (ctx12 0) 0).sac (0 : Fin 4)).find 12 = some 96
    ∧ (fet (ctx12 0) 0).bad = 0
    ∧ (fetching (ctx12 0) 0).ctxFits 12 (fet (ctx12 0) 0).ctx = true
    ∧ List.find? (fun f => decide (f.sax = 12)) ((fetching (ctx12 0) 2).sac (0 : Fin 4)).fetches = some (fet (ctx12 0) 2)
    ∧ 8 ≤ (fet (ctx12 0) 2).done
    ∧ ((fet (ctx12 0) 2).bad ≠ 0 ∨ (fetching (ctx12 0) 2).ctxFits 12 (fet (ctx12 0) 2).ctx = false)
    ∧ ((fetching (ctx12 0) 2).sac (0 : Fin 4)).faultValid = false
    ∧ List.find? (fun f => decide (f.sax = 12)) ((fetching [(1 : Byte), (2 : Byte)] 0).sac (0 : Fin 4)).fetches = some (fet [(1 : Byte),
      (2 : Byte)] 0)
    ∧ 8 ≤ (fet [(1 : Byte), (2 : Byte)] 0).done
    ∧ ((fet [(1 : Byte), (2 : Byte)] 0).bad ≠ 0 ∨ (fetching [(1 : Byte), (2 : Byte)] 0).ctxFits 12 (fet [(1 : Byte), (2 : Byte)] 0).ctx =
      false)
    ∧ ((fetching [(1 : Byte), (2 : Byte)] 0).sac (0 : Fin 4)).faultValid = false
    ∧ (List.find? (fun v => decide (v.sax = 12 ∧ v.acked = 8)) ((leaving false).sac (0 : Fin 4)).victims = some
      { sax := 12, ctx := ctx12 0, acked := 8 : Victim })
    ∧ { sax := 12, ctx := ctx12 0, acked := 8 : Victim }.refused = false
    ∧ (List.find? (fun v => decide (v.sax = 12 ∧ v.acked = 8)) ((leaving true).sac (0 : Fin 4)).victims = some
      { sax := 12, ctx := ctx12 0, acked := 8, refused := true : Victim })
    ∧ { sax := 12, ctx := ctx12 0, acked := 8, refused := true : Victim }.refused = true
    ∧ (List.find? (fun v => decide (v.sax = 12 ∧ v.acked = 8)) ((written true).sac (0 : Fin 4)).victims = none)
    ∧ (List.find? (fun v => decide (v.sax = 12 ∧ v.acked = 8)) ((written true).sac (0 : Fin 4)).writes = some
      { sax := 12, ctx := ctx12 0, acked := 8, retire := true : Victim })
    ∧ ({ sax := 12, ctx := ctx12 0, acked := 8, retire := true : Victim }.refused = false ∨
      { sax := 12, ctx := ctx12 0, acked := 8, retire := true : Victim }.retire = true ∨ ((written true).saAt 12).st = SaState.empty) := by
  and_intros <;> first
    | decide +kernel
    | rfl
    | (unfold State.Takes; decide +kernel)
    | (unfold State.Issues; decide +kernel)
    | simp

/-- States and operands that meet the hypotheses of `FramesMeetTheirContext`. -/
theorem witness_FramesMeetTheirContext :
    (ciph txf (ctx12 0)).cipherHead (0 : Fin 4) 12 false = some txf
    ∧ ((ciph txf (ctx12 0)).takeCipher (0 : Fin 4) txf).cipherDrop (0 : Fin 4) txf ((ciph txf (ctx12 0)).saEff 12) = none
    ∧ ((ciph txf (ctx12 0)).sac (0 : Fin 4)).ctx 12 = some (ctx12 0)
    ∧ st47.cipherHead (0 : Fin 4) 12 false = some txf
    ∧ (st47.takeCipher (0 : Fin 4) txf).cipherDrop (0 : Fin 4) txf (st47.saEff 12) = none
    ∧ (st47.sac (0 : Fin 4)).ctx 12 = some (ctx12 0)
    ∧ (ciph rxs (rxc 32)).cipherHead (0 : Fin 4) 12 true = some rxs
    ∧ ((ciph rxs (rxc 32)).takeCipher (0 : Fin 4) rxs).cipherDrop (0 : Fin 4) rxs ((ciph rxs (rxc 32)).saEff 12) = none
    ∧ ((ciph rxs (rxc 32)).sac (0 : Fin 4)).ctx 12 = some (rxc 32)
    ∧ (validate (rxc 32) ((ciph rxs (rxc 32)).secPos (0 : Fin 4) (rxc 32) rxs.bytes) rxs.bytes).out = some ((validate (rxc 32) ((ciph rxs
      (rxc 32)).secPos (0 : Fin 4) (rxc 32) rxs.bytes) rxs.bytes).out.getD [])
    ∧ (ciph rxs (patch (rxc 160) 88 [(2 : Byte)])).cipherHead (0 : Fin 4) 12 true = some rxs
    ∧ ((ciph rxs (patch (rxc 160) 88 [(2 : Byte)])).takeCipher (0 : Fin 4) rxs).cipherDrop (0 : Fin 4) rxs ((ciph rxs (patch (rxc 160) 88
      [(2 : Byte)])).saEff 12) = none
    ∧ ((ciph rxs (patch (rxc 160) 88 [(2 : Byte)])).sac (0 : Fin 4)).ctx 12 = some (patch (rxc 160) 88 [(2 : Byte)])
    ∧ (validate (patch (rxc 160) 88 [(2 : Byte)]) ((ciph rxs (patch (rxc 160) 88 [(2 : Byte)])).secPos (0 : Fin 4) (patch (rxc 160) 88 [(2
      : Byte)]) rxs.bytes) rxs.bytes).out = none
    ∧ st48.cipherHead (0 : Fin 4) 12 false = some txf
    ∧ (st48.takeCipher (0 : Fin 4) txf).cipherDrop (0 : Fin 4) txf (st48.saEff 12) = some st49
    ∧ st50.millLive (0 : Fin 4) = true
    ∧ List.length (ctx12 0) = 256
    ∧ ((saUp (ctx12 0)).sac (0 : Fin 4)).find 12 = some 96
    ∧ ((saUp (ctx12 0)).sac (0 : Fin 4)).ctx 12 = some (ctx12 0)
    ∧ (takeoverJump (ctx12 0) (BitVec.toNat (saUp (ctx12 0)).mte.tko)).2 = false
    ∧ (st51.sac (0 : Fin 4)).find 12 = some 96
    ∧ (st51.sac (0 : Fin 4)).ctx 12 = some (ctx12 0)
    ∧ (takeoverJump (ctx12 0) (BitVec.toNat st51.mte.tko)).2 = false
    ∧ List.length (patch (ctx12 0) 80 (leBytes 8 (2 ^ 32))) = 256
    ∧ ((saUp (patch (ctx12 0) 80 (leBytes 8 (2 ^ 32)))).sac (0 : Fin 4)).find 12 = some 96
    ∧ ((saUp (patch (ctx12 0) 80 (leBytes 8 (2 ^ 32)))).sac (0 : Fin 4)).ctx 12 = some (patch (ctx12 0) 80 (leBytes 8 (2 ^ 32)))
    ∧ (takeoverJump (patch (ctx12 0) 80 (leBytes 8 (2 ^ 32))) (BitVec.toNat (saUp (patch (ctx12 0) 80 (leBytes 8 (2 ^ 32)))).mte.tko)).2 =
      false := by
  and_intros <;> first
    | decide +kernel
    | rfl
    | (unfold State.Takes; decide +kernel)
    | (unfold State.Issues; decide +kernel)
    | simp

/-- States and operands that meet the hypotheses of `WhatIsStoredReadsBack`. -/
theorem witness_WhatIsStoredReadsBack :
    ((List.replicate 16 (1 : Byte)).length = 16 ∨ (List.replicate 16 (1 : Byte)).length = 32)
    ∧ (List.replicate 12 (2 : Byte)).length = 12
    ∧ ((List.replicate 32 (1 : Byte)).length = 16 ∨ (List.replicate 32 (1 : Byte)).length = 32)
    ∧ (List.replicate 32 (7 : Byte)).length = 32
    ∧ 1048575 < 2 ^ 20
    ∧ 255 < 256
    ∧ (List.replicate 32 (0 : Byte)).length = 32
    ∧ 1 < 2 ^ 20
    ∧ 19 < 20 := by
  and_intros <;> first
    | decide +kernel
    | rfl
    | (unfold State.Takes; decide +kernel)
    | (unfold State.Issues; decide +kernel)
    | simp

/-- States and operands that meet the hypotheses of `SasAreReadAndEnd`. -/
theorem witness_SasAreReadAndEnd :
    (queued r0 [dRead] saRes).Takes r0 2 (fun x => decide (x = 0)) dRead
    ∧ (queued r0 [dRead] saRes).hstLive = true
    ∧ checkSaret (queued r0 [dRead] saRes) r0.eng dRead = none
    ∧ ((queued r0 [dRead] saRes).saReport r0.eng (saxOf dRead)).2 = none
    ∧ (queued r0 [dRet] saRes).Takes r0 2 (fun x => decide (x = 1)) dRet
    ∧ checkSaret (queued r0 [dRet] saRes) r0.eng dRet = none
    ∧ ((queued r0 [dRet] saRes).sac r0.eng).awaited (saxOf dRet) = false
    ∧ (queued r0 [dPin] saRes).Takes r0 3 (fun x => decide (x = 0)) dPin
    ∧ (((queued r0 [dPin] saRes).scAt dPin.p2).valid = true → ((queued r0 [dPin] saRes).scAt dPin.p2).mill = r0.eng)
    ∧ saMissing ((queued r0 [dPin] saRes).saEff (saxOf dPin)) = false
    ∧ (queued r0 [dPin] saRes).saEff (saxOf dPin) ≠ SaState.faulted
    ∧ (((queued r0 [dPin] saRes).saAt (saxOf dPin)).pinned = true ∨ (queued r0 [dPin] saRes).pinnedIn r0.eng (saxOf dPin) < 6)
    ∧ (((queued r0 [dPin] saRes).sac r0.eng).ctx (saxOf dPin)).isSome = true
    ∧ st53.Takes r0 3 (fun x => decide (x = 0)) dPin
    ∧ ((st53.scAt dPin.p2).valid = true → (st53.scAt dPin.p2).mill = r0.eng)
    ∧ saMissing (st53.saEff (saxOf dPin)) = false
    ∧ st53.saEff (saxOf dPin) ≠ SaState.faulted
    ∧ ((st53.saAt (saxOf dPin)).pinned = true ∨ st53.pinnedIn r0.eng (saxOf dPin) < 6)
    ∧ (st53.sac r0.eng).find (saxOf dPin) = none
    ∧ (st53.sac r0.eng).awaited (saxOf dPin) = false
    ∧ (st53.sac r0.eng).missOut < 64
    ∧ (st53.setSa (saxOf dPin) ({ (st53.saAt (saxOf dPin)) with pinned := true } : SaDir)).pickWay r0.eng (saxOf dPin) = none
    ∧ (st53.sac r0.eng).victim (saxOf dPin) = none
    ∧ st54.Takes r0 3 (fun x => decide (x = 0)) dPin
    ∧ ((st54.scAt dPin.p2).valid = true → (st54.scAt dPin.p2).mill = r0.eng)
    ∧ saMissing (st54.saEff (saxOf dPin)) = false
    ∧ st54.saEff (saxOf dPin) ≠ SaState.faulted
    ∧ ((st54.saAt (saxOf dPin)).pinned = true ∨ st54.pinnedIn r0.eng (saxOf dPin) < 6)
    ∧ (st54.sac r0.eng).find (saxOf dPin) = none
    ∧ (st54.sac r0.eng).awaited (saxOf dPin) = false
    ∧ (st54.sac r0.eng).missOut < 64
    ∧ (st54.setSa (saxOf dPin) ({ (st54.saAt (saxOf dPin)) with pinned := true } : SaDir)).pickWay r0.eng (saxOf dPin) = some 96
    ∧ (((st54.setSa (saxOf dPin) ({ (st54.saAt (saxOf dPin)) with pinned := true } : SaDir)).evict r0.eng 96).sac r0.eng).victim (saxOf
      dPin) = none
    ∧ List.find? (fun x => decide (x.sax = 12)) (st55.sac (0 : Fin 4)).retires = some ret12
    ∧ st55.sacRefs (0 : Fin 4) 12 = false
    ∧ st55.hstLive = true
    ∧ (st55.sac (0 : Fin 4)).fillWait = []
    ∧ st56.kst.sweeping = true := by
  and_intros <;> first
    | decide +kernel
    | rfl
    | (unfold State.Takes; decide +kernel)
    | (unfold State.Issues; decide +kernel)
    | simp

/-- States and operands that meet the hypotheses of `RingsTakeDescriptors`. -/
theorem witness_RingsTakeDescriptors :
    (queued r0 []).engLive r0.eng = true
    ∧ (0 : Fin 2) = ringPf r0
    ∧ st58.engLive r0.eng = true
    ∧ (st58.ring r0).en = false
    ∧ st58.abiSel (ringPf r0) ≠ 0
    ∧ st58.ringPend r0 = 0
    ∧ (1 : Fin 2) ≠ ringPf r0
    ∧ up.engLive r0.eng = true
    ∧ up.ringsOff (1 : Fin 2) = true
    ∧ 1 ≤ 2
    ∧ 2 ≤ 2
    ∧ st59.fetchDue r0 = true
    ∧ ↑r0.ring < 4
    ∧ { index := BitVec.toNat (st59.ring r0).cons, raw := padTo 128 dCur.raw : Desc }.malformed (st59.abiSel (ringPf r0)) = none
    ∧ (∀ x ∈ (st59.ring r0).fetched, x.malformed (st59.abiSel (ringPf r0)) = none)
    ∧ st60.fetchDue (puntRing (0 : Fin 4) (3 : Fin 8)) = true
    ∧ 4 ≤ ↑(puntRing (0 : Fin 4) (3 : Fin 8)).ring := by
  and_intros <;> first
    | decide +kernel
    | rfl
    | (unfold State.Takes; decide +kernel)
    | (unfold State.Issues; decide +kernel)
    | simp

/-- States and operands that meet the hypotheses of `RecordsAndBatches`. -/
theorem witness_RecordsAndBatches :
    ringForm (Instr.sainstSetcur r0) = some (r0, 1, fun x => decide (x = 2))
    ∧ (st57.headFor r0 1 fun x => decide (x = 2)) = some dCur
    ∧ st57.hstLive = true
    ∧ st57.gate r0 dCur = some 19
    ∧ ((queued r0 [dCur] catUp).headFor r0 1 fun x => decide (x = 2)) = some dCur
    ∧ (queued r0 [dCur] catUp).hstLive = true
    ∧ (queued r0 [dCur] catUp).gate r0 dCur = none
    ∧ (queued r0 [dCur] catUp).kstClosed = false
    ∧ ownCheck (queued r0 [dCur] catUp) dCur (Instr.sainstSetcur r0) = some 71
    ∧ st61.cur[(0 : Fin 4)].applying = [{ ref := dCur.ref r0, result := (7 : W64) : Applying }]
    ∧ (st62.ring r0).done = [{ tag := (9 : W32), status := (0 : Byte), index := 3 : Rec }]
    ∧ st62.engLive r0.eng = true
    ∧ st62.hstLive = true
    ∧ st62.cqFull r0 = false
    ∧ (bat [n2 0 1, desc 57 0 0 [] 1 0 2]).turn r0 = true
    ∧ (bat [n2 0 1, desc 57 0 0 [] 1 0 2]).batchHead r0 = true
    ∧ batchRun ((bat [n2 0 1, desc 57 0 0 [] 1 0 2]).ring r0).fetched = some [n2 0 1, desc 57 0 0 [] 1 0 2]
    ∧ batchOffender [n2 0 1, desc 57 0 0 [] 1 0 2] = some 1
    ∧ (bat [n2 0 1, u2 0 1]).turn r0 = true
    ∧ (bat [n2 0 1, u2 0 1]).batchHead r0 = true
    ∧ batchRun ((bat [n2 0 1, u2 0 1]).ring r0).fetched = some [n2 0 1, u2 0 1]
    ∧ batchOffender [n2 0 1, u2 0 1] = none
    ∧ (∃ d ∈ [n2 0 1, u2 0 1], (bat [n2 0 1, u2 0 1]).batchCheck r0 d ≠ none)
    ∧ (bat [n2 0 1, u2 0 1] (saRes false catUp)).turn r0 = true
    ∧ (bat [n2 0 1, u2 0 1] (saRes false catUp)).batchHead r0 = true
    ∧ batchRun ((bat [n2 0 1, u2 0 1] (saRes false catUp)).ring r0).fetched = some [n2 0 1, u2 0 1]
    ∧ (∀ d ∈ [n2 0 1, u2 0 1], (bat [n2 0 1, u2 0 1] (saRes false catUp)).batchCheck r0 d = none) := by
  and_intros <;> first
    | decide +kernel
    | rfl
    | (unfold State.Takes; decide +kernel)
    | (unfold State.Issues; decide +kernel)
    | simp

/-- States and operands that meet the hypotheses of `WaitsFencesAndEpochs`. -/
theorem witness_WaitsFencesAndEpochs :
    (queued r0 [dT]).Takes r0 56 (fun x => decide (x = 0)) dT
    ∧ dT.time = some (timeU 1 5)
    ∧ (queued r0 [dT]).tbRun (⟨dT.p1 % 8, by omega⟩ : Fin 8) = false
    ∧ (queued r0 [dT] (tbUp (timeU 1 5))).Takes r0 56 (fun x => decide (x = 0)) dT
    ∧ (queued r0 [dT] (tbUp (timeU 1 5))).tbRun (⟨dT.p1 % 8, by omega⟩ : Fin 8) = true
    ∧ timeU 1 5 ≤ ((queued r0 [dT] (tbUp (timeU 1 5))).tbAt (⟨dT.p1 % 8, by omega⟩ : Fin 8)).val
    ∧ (queued r0 [dT] (tbUp (timeU 1 5 - 1))).Takes r0 56 (fun x => decide (x = 0)) dT
    ∧ (queued r0 [dT] (tbUp (timeU 1 5 - 1))).tbRun (⟨dT.p1 % 8, by omega⟩ : Fin 8) = true
    ∧ ((queued r0 [dT] (tbUp (timeU 1 5 - 1))).tbAt (⟨dT.p1 % 8, by omega⟩ : Fin 8)).val < timeU 1 5
    ∧ (queued r0 [dR]).Takes r0 56 (fun x => decide (x = 1)) dR
    ∧ (queued r0 [dR]).txEn r0.eng = false
    ∧ (queued r0 [dR] (txUp (0 : Fin 4) (5 : W32))).Takes r0 56 (fun x => decide (x = 1)) dR
    ∧ (queued r0 [dR] (txUp (0 : Fin 4) (5 : W32))).txEn r0.eng = true
    ∧ ((BitVec.ofNat 32 (dR.arg 0 4) - ((queued r0 [dR] (txUp (0 : Fin 4) (5 : W32))).line r0.eng).rc).toNat = 0 ∨ 2 ^ 31 ≤ (BitVec.ofNat
      32 (dR.arg 0 4) - ((queued r0 [dR] (txUp (0 : Fin 4) (5 : W32))).line r0.eng).rc).toNat)
    ∧ (queued r0 [dR] (txUp (0 : Fin 4) (2147483653 : W32))).Takes r0 56 (fun x => decide (x = 1)) dR
    ∧ (queued r0 [dR] (txUp (0 : Fin 4) (2147483653 : W32))).txEn r0.eng = true
    ∧ ((BitVec.ofNat 32 (dR.arg 0 4) - ((queued r0 [dR] (txUp (0 : Fin 4) (2147483653 : W32))).line r0.eng).rc).toNat = 0 ∨ 2 ^ 31 ≤
      (BitVec.ofNat 32 (dR.arg 0 4) - ((queued r0 [dR] (txUp (0 : Fin 4) (2147483653 : W32))).line r0.eng).rc).toNat)
    ∧ (queued r0 [dR] (txUp (0 : Fin 4) (2147483654 : W32))).Takes r0 56 (fun x => decide (x = 1)) dR
    ∧ (queued r0 [dR] (txUp (0 : Fin 4) (2147483654 : W32))).txEn r0.eng = true
    ∧ 0 < (BitVec.ofNat 32 (dR.arg 0 4) - ((queued r0 [dR] (txUp (0 : Fin 4) (2147483654 : W32))).line r0.eng).rc).toNat
    ∧ (BitVec.ofNat 32 (dR.arg 0 4) - ((queued r0 [dR] (txUp (0 : Fin 4) (2147483654 : W32))).line r0.eng).rc).toNat < 2 ^ 31
    ∧ ((held (Hold.time ref0 (0 : Fin 8) 9 true (0 : ℤ)) (tbUp 9)).ring r0).hold = some (Hold.time ref0 (0 : Fin 8) 9 true (0 : ℤ))
    ∧ ref0.rid = r0
    ∧ (held (Hold.time ref0 (0 : Fin 8) 9 true (0 : ℤ)) (tbUp 9)).tbRun (0 : Fin 8) = true
    ∧ 9 ≤ ((held (Hold.time ref0 (0 : Fin 8) 9 true (0 : ℤ)) (tbUp 9)).tbAt (0 : Fin 8)).val
    ∧ ((held (Hold.time ref0 (0 : Fin 8) 9 true (0 : ℤ)) (tbUp 8)).ring r0).hold = some (Hold.time ref0 (0 : Fin 8) 9 true (0 : ℤ))
    ∧ (held (Hold.time ref0 (0 : Fin 8) 9 true (0 : ℤ)) (tbUp 8)).tbRun (0 : Fin 8) = true
    ∧ ((held (Hold.time ref0 (0 : Fin 8) 9 true (0 : ℤ)) (tbUp 8)).tbAt (0 : Fin 8)).val < 9
    ∧ ((held (Hold.ream ref0 (5 : W32) true) (txUp (0 : Fin 4) (5 : W32))).ring r0).hold = some (Hold.ream ref0 (5 : W32) true)
    ∧ BitVec.toNat (((held (Hold.ream ref0 (5 : W32) true) (txUp (0 : Fin 4) (5 : W32))).line r0.eng).rc - (5 : W32)) < 2 ^ 31
    ∧ ((held (Hold.ream ref0 (5 : W32) true) (txUp (0 : Fin 4) (4 : W32))).ring r0).hold = some (Hold.ream ref0 (5 : W32) true)
    ∧ 2 ^ 31 ≤ BitVec.toNat (((held (Hold.ream ref0 (5 : W32) true) (txUp (0 : Fin 4) (4 : W32))).line r0.eng).rc - (5 : W32))
    ∧ (queued r0 [dF]).Takes r0 57 (fun x => true) dF
    ∧ (queued r0 [dF]).fenceSet r0 dF.p1 = []
    ∧ st63.Takes r0 57 (fun x => true) dF
    ∧ st63.fenceSet r0 dF.p1 ≠ []
    ∧ ((held (Hold.fence ref0 [dF.ref r0]) up).ring r0).hold = some (Hold.fence ref0 [dF.ref r0])
    ∧ (held (Hold.fence ref0 [dF.ref r0]) up).stillOut [dF.ref r0] = false
    ∧ (queued r0 [dE]).Takes r0 58 (fun x => decide (x = 0)) dE
    ∧ ((queued r0 [dA]).setReg (Reg.cur 0) 2228224).Takes r0 58 (fun x => decide (x = 1)) dA
    ∧ BitVec.toNat ((queued r0 [dA]).setReg (Reg.cur 0) 2228224).mte.epoch = dA.arg 0 4
    ∧ (queued r0 [dN]).Takes r0 59 (fun x => true) dN := by
  and_intros <;> first
    | decide +kernel
    | rfl
    | (unfold State.Takes; decide +kernel)
    | (unfold State.Issues; decide +kernel)
    | simp

/-- States and operands that meet the hypotheses of `TributariesAreConfigured`. -/
theorem witness_TributariesAreConfigured :
    (queued r0 [dSh] (trUp 5 (0 : Fin 4))).Takes r0 40 (fun x => true) dSh
    ∧ checkShpset (queued r0 [dSh] (trUp 5 (0 : Fin 4))) r0.eng dSh = none
    ∧ (queued r0 [dPo]).Takes r0 41 (fun x => true) dPo
    ∧ checkPolset (queued r0 [dPo]) r0.eng dPo = none
    ∧ (queued r0 [dAc]).Takes r0 42 (fun x => decide (x = 0)) dAc
    ∧ checkQcfgActivate (queued r0 [dAc]) r0.eng dAc = none
    ∧ (queued r0 [dDe] (trUp 5 (0 : Fin 4))).Takes r0 42 (fun x => decide (x = 1)) dDe
    ∧ checkQcfgDeactivate (queued r0 [dDe] (trUp 5 (0 : Fin 4))) r0.eng dDe = none
    ∧ (queued r0 [dUp] (trUp 5 (0 : Fin 4))).Takes r0 42 (fun x => decide (x = 2)) dUp
    ∧ checkQcfgUpdate (queued r0 [dUp] (trUp 5 (0 : Fin 4))) r0.eng dUp = none := by
  and_intros <;> first
    | decide +kernel
    | rfl
    | (unfold State.Takes; decide +kernel)
    | (unfold State.Issues; decide +kernel)
    | simp

/-- States and operands that meet the hypotheses of `TributariesMoveAndFramesLeave`. -/
theorem witness_TributariesMoveAndFramesLeave :
    (queued r0 [dDr] (trUp 5 (1 : Fin 4))).Takes r0 42 (fun x => decide (x = 3)) dDr
    ∧ (queued r0 [dDr] (trUp 5 (1 : Fin 4))).moveCheck r0.eng dDr = none
    ∧ (queued r0 [dFl] (trUp 5 (1 : Fin 4))).Takes r0 42 (fun x => decide (x = 4)) dFl
    ∧ (queued r0 [dFl] (trUp 5 (1 : Fin 4))).moveCheck r0.eng dFl = none
    ∧ (tget default moving.tribOld 5).active = true
    ∧ (tget default moving.tribOld 5).queue = []
    ∧ (tget default moving.tribOld 5).stream.left = []
    ∧ eg.millLive (portMill (0 : Fin 32)) = true
    ∧ eg.portOn (0 : Fin 32) = true
    ∧ (eg.port (0 : Fin 32)).sending = none
    ∧ List.find? ((eg.dropAllLong (0 : Fin 32)).mayStart (0 : Fin 32)) (List.finRange 8).reverse = some (3 : Fin 8)
    ∧ ((eg.dropAllLong (0 : Fin 32)).port (0 : Fin 32)).queues[(3 : Fin 8)].head? = some qf
    ∧ (eg.dropAllLong (0 : Fin 32)).shadowing = false
    ∧ st67.millLive (portMill (0 : Fin 32)) = true
    ∧ st67.portOn (0 : Fin 32) = true
    ∧ (st67.port (0 : Fin 32)).sending = none
    ∧ List.find? ((st67.dropAllLong (0 : Fin 32)).mayStart (0 : Fin 32)) (List.finRange 8).reverse = some (3 : Fin 8)
    ∧ ((st67.dropAllLong (0 : Fin 32)).port (0 : Fin 32)).queues[(3 : Fin 8)].head? = some qf
    ∧ (st67.dropAllLong (0 : Fin 32)).shadowing = true
    ∧ st68.millLive (portMill (0 : Fin 32)) = true
    ∧ st68.portOn (0 : Fin 32) = true
    ∧ (st68.port (0 : Fin 32)).sending = none
    ∧ (∀ (q : Fin 8), (st68.dropAllLong (0 : Fin 32)).mayStart (0 : Fin 32) q = false)
    ∧ st69.millLive (portMill (0 : Fin 32)) = true
    ∧ (st69.port (0 : Fin 32)).sending = some qf := by
  and_intros <;> first
    | decide +kernel
    | rfl
    | (unfold State.Takes; decide +kernel)
    | (unfold State.Issues; decide +kernel)
    | simp

/-- States and operands that meet the hypotheses of `GatesFollowTheTimeBase`. -/
theorem witness_GatesFollowTheTimeBase :
    (queued r0 [dG]).Takes r0 32 (fun x => true) dG
    ∧ portMill (gclPort dG) = r0.eng
    ∧ dG.time = some (timeU 1 0)
    ∧ 1 ≤ dG.arg 16 2
    ∧ dG.arg 16 2 ≤ 1024
    ∧ 1000 ≤ dG.arg 12 4
    ∧ dG.arg 12 4 ≤ 1000000000
    ∧ ((queued r0 [dG]).port (gclPort dG)).pend = none
    ∧ gclEntries (dG.arg 16 2) ent = some [(500, (254 : Byte))]
    ∧ gclEntries (dG.arg 16 2) [(1 : Byte)] = none
    ∧ st64.Takes r0 33 (fun x => true) dGo
    ∧ checkGclgo st64 r0.eng dGo = none
    ∧ (st64.port (gclPort dGo)).admin = some gl
    ∧ st65.millLive (portMill (7 : Fin 32)) = true
    ∧ (st65.port (7 : Fin 32)).pend = some gl
    ∧ gl.base * nsU ≤ (st65.tbAt gl.tb).val
    ∧ st66.millLive (portMill (7 : Fin 32)) = true
    ∧ (st66.port (7 : Fin 32)).oper = some gl
    ∧ gl.index (st66.tbAt gl.tb).val ≠ (st66.port (7 : Fin 32)).entry
    ∧ (st66.port (7 : Fin 32)).pend = none
    ∧ 1 ≤ gl.cycle
    ∧ (queued r0 [dSa]).Takes r0 48 (fun x => decide (x = 1)) dSa
    ∧ dSa.time = some (timeU 1 5)
    ∧ (queued r0 [dSr] (tbUp 0)).Takes r0 48 (fun x => decide (x = 0)) dSr
    ∧ (queued r0 [dSr] (tbUp 0)).tbRun (tbOf dSr) = true := by
  and_intros <;> first
    | decide +kernel
    | rfl
    | (unfold State.Takes; decide +kernel)
    | (unfold State.Issues; decide +kernel)
    | simp

/-- States and operands that meet the hypotheses of `TimeBasesRunAndSteer`. -/
theorem witness_TimeBasesRunAndSteer :
    (queued r0 [dGn]).Takes r0 49 (fun x => decide (x = 0)) dGn
    ∧ checkGains (queued r0 [dGn]) r0.eng dGn = none
    ∧ (queued r0 [dEn]).Takes r0 49 (fun x => decide (x = 2)) dEn
    ∧ (queued r0 [dDi]).Takes r0 49 (fun x => decide (x = 3)) dDi
    ∧ (queued r0 [dOf] (srv 0 0)).Takes r0 49 (fun x => decide (x = 1)) dOf
    ∧ ((queued r0 [dOf] (srv 0 0)).tbAt (tbOf dOf)).src = (0 : Fin 8)
    ∧ ((queued r0 [dOf] (srv 0 0)).tbAt (tbOf dOf)).servoEn = true
    ∧ (srv 6 0).timLive = true
    ∧ ((srv 6 0).tbAt (0 : Fin 8)).servoEn = true
    ∧ ((srv 6 0).tbAt (0 : Fin 8)).src = (6 : Fin 8)
    ∧ (srv 6 0).mte.st ≠ MState.standby
    ∧ ((srv 6 0).tbAt (0 : Fin 8)).stepAt ≠ some (srv 6 0).now
    ∧ ((srv 6 1).tbAt (0 : Fin 8)).stepTh ≠ 0
    ∧ ((srv 6 1).tbAt (0 : Fin 8)).stepTh * 65536 < Int.natAbs (65537 : ℤ)
    ∧ (((srv 6 1).tbAt (0 : Fin 8)).stepTh = 0 ∨ (-65536 : ℤ).natAbs ≤ ((srv 6 1).tbAt (0 : Fin 8)).stepTh * 65536)
    ∧ (tbUp 5).timLive = true
    ∧ (tbUp 5).canonical = true
    ∧ (tbUp 5).tbRun (0 : Fin 8) = true
    ∧ st70.timLive = true
    ∧ st70.canonical = true
    ∧ st70.tbRun (0 : Fin 8) = true := by
  and_intros <;> first
    | decide +kernel
    | rfl
    | (unfold State.Takes; decide +kernel)
    | (unfold State.Issues; decide +kernel)
    | simp

/-- States and operands that meet the hypotheses of `TriggersAndStamps`. -/
theorem witness_TriggersAndStamps :
    (queued r0 [dTg]).Takes r0 50 (fun x => true) dTg
    ∧ checkTrigset (queued r0 [dTg]) r0.eng dTg = none
    ∧ st71.timLive = true
    ∧ (st71.trig (7 : Fin 8)).high = true
    ∧ (st71.trig (7 : Fin 8)).fallAt ≤ (st71.tbAt (st71.trig (7 : Fin 8)).fallTb).val
    ∧ st72.timLive = true
    ∧ (st72.trig (7 : Fin 8)).high = false
    ∧ (st72.trig (7 : Fin 8)).active = true
    ∧ (st72.trig (7 : Fin 8)).more = true
    ∧ (st72.trig (7 : Fin 8)).next ≤ (st72.tbAt (st72.trig (7 : Fin 8)).tb).val
    ∧ st73.timLive = true
    ∧ st73.tim.ppsOut = true
    ∧ 0 = ((tbUp (2000000000 * nsU)).setReg (Reg.tim 2032) 1608).fld (Reg.tim 2032) 0 3
    ∧ ((tbUp (2000000000 * nsU)).setReg (Reg.tim 2032) 1608).timLive = true
    ∧ ((tbUp (2000000000 * nsU)).setReg (Reg.tim 2032) 1608).tim.ppsOut = false
    ∧ ((tbUp (2000000000 * nsU)).setReg (Reg.tim 2032) 1608).bit (Reg.tim 2032) 3 = true
    ∧ ((tbUp (2000000000 * nsU)).setReg (Reg.tim 2032) 1608).wholeSecond (0 : Fin 8) = true
    ∧ up.timLive = true
    ∧ up.bit (Reg.tim (2304 + 32 * 4)) (if true = true then 3 else 4) = true
    ∧ (up.queueAt (⟨4 + 4, by omega⟩ : Fin 9)).ents.length < 16
    ∧ st74.timLive = true
    ∧ st74.bit (Reg.tim (2304 + 32 * 4)) (if true = true then 3 else 4) = true
    ∧ 16 ≤ (st74.queueAt (⟨4 + 4, by omega⟩ : Fin 9)).ents.length
    ∧ st75.timLive = true
    ∧ (st75.queueAt (queueIdx (StampQ.cap (4 : Fin 5)))).ents = [{ : QEnt }]
    ∧ (up.queueAt (queueIdx (StampQ.tsq (3 : Fin 4)))).ents = []
    ∧ st76.timLive = true
    ∧ 1 < (st76.tcTable 35).length := by
  and_intros <;> first
    | decide +kernel
    | rfl
    | (unfold State.Takes; decide +kernel)
    | (unfold State.Issues; decide +kernel)
    | simp

/-- States and operands that meet the hypotheses of `MemoryIsSetUp`. -/
theorem witness_MemoryIsSetUp :
    up.memLive (0 : Fin 4) = true
    ∧ up.noKeys = true
    ∧ (up.chan (0 : Fin 4)).training = false
    ∧ memUp.memLive (0 : Fin 4) = true
    ∧ (memUp.noKeys = false ∨ (memUp.chan (0 : Fin 4)).training = true)
    ∧ (st77.chan (3 : Fin 4)).training = true
    ∧ (memUp.chan (0 : Fin 4)).up = true
    ∧ up.mgmtLive = true
    ∧ natBit 2147483653 31 = true
    ∧ up.loadWaits = true
    ∧ memUp.mgmtLive = true
    ∧ memUp.loadWaits = false
    ∧ memUp.loadDry = false
    ∧ (memUp.setReg (Reg.mem (524 + 32 * 2)) (2147483653 % 2048)).regionCheck (2 : Fin 8) (2147483653 % 2048) = some 83
    ∧ memKey.mgmtLive = true
    ∧ memKey.loadWaits = false
    ∧ memKey.loadDry = false
    ∧ (memKey.setReg (Reg.mem (524 + 32 * 2)) (2147483653 % 2048)).regionCheck (2 : Fin 8) (2147483653 % 2048) = none
    ∧ ((1 : Fin 8) ≠ (0 : Fin 8) ∨ (List.any memUp.sa fun e => decide (e.2.st ≠ SaState.empty)) = false)
    ∧ ((0 : Fin 8) ≠ (0 : Fin 8) ∨ (List.any up.sa fun e => decide (e.2.st ≠ SaState.empty)) = false)
    ∧ st78.mgmtLive = true
    ∧ (List.any st78.sa fun e => decide (e.2.st ≠ SaState.empty)) = true
    ∧ (st79.rgn (2 : Fin 8)).st = RgnState.init
    ∧ (st79.rgn (2 : Fin 8)).load = some (5, [(1 : Byte)], 0)
    ∧ (st79.rgn (2 : Fin 8)).drawn = some [(2 : Byte)] := by
  and_intros <;> first
    | decide +kernel
    | rfl
    | (unfold State.Takes; decide +kernel)
    | (unfold State.Issues; decide +kernel)
    | simp

/-- States and operands that meet the hypotheses of `LinesAreServed`. -/
theorem witness_LinesAreServed :
    st80.pullReq (0 : Fin 4) true = some (rq MemOp.read, memUp.chan (0 : Fin 4))
    ∧ st80.accessStatus (rq MemOp.read).master (rq MemOp.read).addr = 0
    ∧ st81.pullReq (0 : Fin 4) true = some (rq MemOp.read, st82)
    ∧ st81.accessStatus (rq MemOp.read).master (rq MemOp.read).addr ≠ 0
    ∧ (st83.chan (0 : Fin 4)).reads = [rq MemOp.read]
    ∧ st83.readLine (st83.regionAt (rq MemOp.read).addr) (0 : Fin 4) (memLine (rq MemOp.read).addr) { : SramRead } = (5, 0, [])
    ∧ (5 < 2 ∨ 4 < 5)
    ∧ st84.pullReq (0 : Fin 4) false = some (wq, st85)
    ∧ wq.op = MemOp.write lw
    ∧ { : SramRead }.parity ≠ (2 : Fin 3)
    ∧ st84.accessStatus wq.master wq.addr = 0
    ∧ tget false st85.spent (linePage (memLine wq.addr)) = false
    ∧ st85.minorOf (memLine wq.addr) < 63
    ∧ st86.pullReq (0 : Fin 4) false = some (wq, st87)
    ∧ st86.accessStatus wq.master wq.addr = 0
    ∧ tget false st87.spent (linePage (memLine wq.addr)) = false
    ∧ 63 ≤ st87.minorOf (memLine wq.addr)
    ∧ st87.majorOf (linePage (memLine wq.addr)) ≠ 2 ^ 32 - 1
    ∧ (st88.chan (0 : Fin 4)).rewrites = [pgw]
    ∧ (st88.chan (0 : Fin 4)).up = true
    ∧ (st89.chan (0 : Fin 4)).rewrites = [pgw]
    ∧ (st89.chan (0 : Fin 4)).up = false
    ∧ (st90.chan (0 : Fin 4)).acks = [wq] := by
  and_intros <;> first
    | decide +kernel
    | rfl
    | (unfold State.Takes; decide +kernel)
    | (unfold State.Issues; decide +kernel)
    | simp

/-- States and operands that meet the hypotheses of `OtherMastersAreServed`. -/
theorem witness_OtherMastersAreServed :
    memUp.mgmtLive = true
    ∧ memUp.mem.winBusy = false
    ∧ (false = false ∨ BitVec.ofNat 32 (memUp.reg (Reg.mem 1284)) ≠ (0 : BitVec 32))
    ∧ (memUp.setReg (Reg.mem 1284) 1).mgmtLive = true
    ∧ (memUp.setReg (Reg.mem 1284) 1).mem.winBusy = false
    ∧ (true = false ∨ BitVec.ofNat 32 ((memUp.setReg (Reg.mem 1284) 1).reg (Reg.mem 1284)) ≠ (0 : BitVec 32))
    ∧ (memUp.setReg (Reg.mem 1284) 0).mgmtLive = true
    ∧ (memUp.setReg (Reg.mem 1284) 0).mem.winBusy = false
    ∧ BitVec.ofNat 32 ((memUp.setReg (Reg.mem 1284) 0).reg (Reg.mem 1284)) = (0 : BitVec 32)
    ∧ (match st91.nextReady (0 : Fin 4) (st91.chan (0 : Fin 4)).scrubPos with | some l => some l | none => st91.nextReady (0 : Fin 4) 0) =
      some 127
    ∧ st91.bit (Reg.mem 1024) 0 = true
    ∧ (st91.chan (0 : Fin 4)).up = true
    ∧ ((st91.chan (0 : Fin 4)).queue.any fun x => x.op.isRead) = false
    ∧ (st91.chan (0 : Fin 4)).wants 127 = false
    ∧ ((st91.readLine (st91.regionAt (lineAddr (0 : Fin 4) 127)) (0 : Fin 4) 127 { : SramRead }).1 = 0 ∨ (st91.readLine (st91.regionAt
      (lineAddr (0 : Fin 4) 127)) (0 : Fin 4) 127 { : SramRead }).1 = 5)
    ∧ (match st92.nextReady (0 : Fin 4) (st92.chan (0 : Fin 4)).scrubPos with | some l => some l | none => st92.nextReady (0 : Fin 4) 0) =
      some 127
    ∧ st92.bit (Reg.mem 1024) 0 = true
    ∧ (st92.chan (0 : Fin 4)).up = true
    ∧ ((st92.chan (0 : Fin 4)).queue.any fun x => x.op.isRead) = false
    ∧ (st92.chan (0 : Fin 4)).wants 127 = false
    ∧ 2 ≤ (st92.readLine (st92.regionAt (lineAddr (0 : Fin 4) 127)) (0 : Fin 4) 127 { : SramRead }).1
    ∧ (st92.readLine (st92.regionAt (lineAddr (0 : Fin 4) 127)) (0 : Fin 4) 127 { : SramRead }).1 ≤ 4
    ∧ (st92.chan (0 : Fin 4)).rewriting (linePage 127) = false
    ∧ up.mgmtLive = true
    ∧ (up.chan (memCh (1 * 32))).rewriting (linePage (memLine (1 * 32))) = false
    ∧ (up.chan (memCh (1 * 32))).wants (memLine (1 * 32)) = false
    ∧ up.accessStatus Master.debug (1 * 32) ≠ 0
    ∧ dbgUp.mgmtLive = true
    ∧ (dbgUp.chan (memCh (1 * 32))).rewriting (linePage (memLine (1 * 32))) = false
    ∧ (dbgUp.chan (memCh (1 * 32))).wants (memLine (1 * 32)) = false
    ∧ dbgUp.accessStatus Master.debug (1 * 32) = 0
    ∧ List.length lw = 32
    ∧ { : SramRead }.parity ≠ (2 : Fin 3)
    ∧ tget false (dbgUp.chan (memCh (1 * 32))).spent (linePage (memLine (1 * 32))) = false
    ∧ (dbgUp.chan (memCh (1 * 32))).minorOf (memLine (1 * 32)) < 63 := by
  and_intros <;> first
    | decide +kernel
    | rfl
    | (unfold State.Takes; decide +kernel)
    | (unfold State.Issues; decide +kernel)
    | simp

/-- States and operands that meet the hypotheses of `RandomDataIsDrawn`. -/
theorem witness_RandomDataIsDrawn :
    (rngUp.rng.st = RngState.startup ∨ rngUp.rng.st = RngState.run)
    ∧ rngUp.rng.nextInst = 1
    ∧ rngUp.rng.tested = true
    ∧ rngUp.takePool = some (List.replicate 16 (1 : Byte) ++ List.replicate 16 (2 : Byte) ++ List.replicate 16 (3 : Byte), st93)
    ∧ List.find? (fun q => rngQ.delivers q.inst && rngQ.needsReseed q.inst) rngQ.rng.waiting = some rq0
    ∧ rq0.inst = 0
    ∧ rngQ.takePool = some (List.replicate 16 (1 : Byte) ++ List.replicate 16 (2 : Byte) ++ List.replicate 16 (3 : Byte), st94)
    ∧ firstFor 0 rngQ.rng.waiting = some (rq0, [])
    ∧ (rngQ.rng.st = RngState.startup ∨ rngQ.rng.st = RngState.run)
    ∧ (4 : Fin 5) ≠ (0 : Fin 5)
    ∧ uciUp.islandLive = true
    ∧ natBit 2147483653 31 = true
    ∧ uciUp.uci.load = none
    ∧ uciUp.loadWaits = false
    ∧ uciUp.loadDry = false
    ∧ uciUp.rng.st ≠ RngState.failed
    ∧ uciUp.uciCheck (2147483653 % 2048) (⟨(2147483653 / 2048 : ℕ) % 4, by omega⟩ : Fin
      4) = none
    ∧ st101.islandLive = true
    ∧ natBit 2147489797 31 = true
    ∧ st101.uci.load = none
    ∧ st101.loadWaits = false
    ∧ st101.loadDry = false
    ∧ st101.rng.st ≠ RngState.failed
    ∧ st101.uciCheck (2147489797 % 2048) (⟨(2147489797 / 2048 : ℕ) % 4, by omega⟩ : Fin
      4) = some 83
    ∧ st102.islandLive = true
    ∧ st102.uci.load = some ul
    ∧ ul.pre = some [(7 : Byte)]
    ∧ ul.unchecked = false
    ∧ ul.erased = false
    ∧ st103.islandLive = true
    ∧ st103.uci.load = some st104
    ∧ st104.pre = some [(7 : Byte)]
    ∧ st104.unchecked = false
    ∧ st104.erased = true := by
  and_intros <;> first
    | decide +kernel
    | rfl
    | (unfold State.Takes; decide +kernel)
    | (unfold State.Issues; decide +kernel)
    | simp

/-- States and operands that meet the hypotheses of `SamplesAreTested`. -/
theorem witness_SamplesAreTested :
    alt.length = 1024
    ∧ rngUp.rng.st ≠ RngState.reset
    ∧ rngUp.rng.st ≠ RngState.test
    ∧ ((rngUp.rng.st = RngState.run ∨ rngUp.rng.st = RngState.startup ∧ 2 ≤ rngUp.rng.samplers[(0 : Fin 8)].windows) ∧ BitVec.getLsbD
      rngUp.rng.smpEn 0 = true → (longestRep rngUp.rng.samplers[(0 : Fin 8)].lastBit rngUp.rng.samplers[(0 : Fin 8)].run alt 0).1 <
      rngUp.rng.rct ∧ List.countP (fun b => decide (some b = alt.head?)) alt < rngUp.rng.apt)
    ∧ (List.replicate 1024 true).length = 1024
    ∧ st95.rng.st ≠ RngState.reset
    ∧ st95.rng.st ≠ RngState.test
    ∧ ((st95.rng.st = RngState.run ∨ st95.rng.st = RngState.startup ∧ 2 ≤ st95.rng.samplers[(7 : Fin 8)].windows) ∧ BitVec.getLsbD
      st95.rng.smpEn 7 = true → (longestRep st95.rng.samplers[(7 : Fin 8)].lastBit st95.rng.samplers[(7 : Fin 8)].run (List.replicate 1024
      true) 0).1 < st95.rng.rct ∧ List.countP (fun b => decide (some b = (List.replicate 1024 true).head?)) (List.replicate 1024 true) <
      st95.rng.apt)
    ∧ ((rngUp.rng.st = RngState.run ∨ rngUp.rng.st = RngState.startup ∧ 2 ≤ rngUp.rng.samplers[(0 : Fin 8)].windows) ∧ BitVec.getLsbD
      rngUp.rng.smpEn 0 = true)
    ∧ rngUp.rng.rct ≤ (longestRep rngUp.rng.samplers[(0 : Fin 8)].lastBit rngUp.rng.samplers[(0 : Fin 8)].run (List.replicate 1024 true)
      0).1
    ∧ ((rngUp.rng.st = RngState.startup ∨ rngUp.rng.st = RngState.run) ∧ rngUp.rng.tested = true ∨ rngUp.rng.st = RngState.test ∧
      rngUp.rng.mode ≠ 2)
    ∧ st96.rng.st = RngState.test
    ∧ st96.rng.mode = 2
    ∧ st96.rng.pool.length < 32
    ∧ st97.rng.st = RngState.test
    ∧ st97.rng.mode ≠ 2
    ∧ st96.rng.raw.length < 64 := by
  and_intros <;> first
    | decide +kernel
    | rfl
    | (unfold State.Takes; decide +kernel)
    | (unfold State.Issues; decide +kernel)
    | simp

/-- States and operands that meet the hypotheses of `HostUsesRng`. -/
theorem witness_HostUsesRng :
    rngUp.islandLive = true
    ∧ rngUp.rng.bufs[(7 : Fin 8)].words = []
    ∧ (rngUp.rng.waiting.any fun q => decide (q.user = RngUser.buf (7 : Fin 8))) = false
    ∧ rngUp.rng.st ≠ RngState.reset
    ∧ st98.islandLive = true
    ∧ st98.rng.st ≠ RngState.failed
    ∧ st98.rng.bufs[(7 : Fin 8)].latched = none
    ∧ st98.rng.bufs[(7 : Fin 8)].words = [(5 : W32), (6 : W32)]
    ∧ st99.islandLive = true
    ∧ st99.rng.bufs[(7 : Fin 8)].latched = some (5 : W32)
    ∧ (0 : Fin 2) ≠ bufOwner (4 : Fin 8)
    ∧ st95.islandLive = true
    ∧ st95.rng.st = RngState.failed
    ∧ (rngUp.kst.lc = 1 ∨ rngUp.kst.lc = 3)
    ∧ rngUp.rng.st = RngState.run
    ∧ ((2 : Fin 4) = (1 : Fin 4) ∨ (2 : Fin 4) = (2 : Fin 4))
    ∧ st100.islandLive = true
    ∧ st100.rng.st = RngState.test
    ∧ st100.rng.raw = [(5 : W32), (6 : W32)] := by
  and_intros <;> first
    | decide +kernel
    | rfl
    | (unfold State.Takes; decide +kernel)
    | (unfold State.Issues; decide +kernel)
    | simp

/-- States and operands that meet the hypotheses of `UtilityCipher`. -/
theorem witness_UtilityCipher :
    (reqUp 257 true).islandLive = true
    ∧ (reqUp 257 true).uci.req[(1 : Fin 2)] = none
    ∧ (((reqUp 257 true).setFld (uciReg (1 : Fin 2) 0) 0 2 0).uciBlocks (1 : Fin 2) = 0 ∨ 256 < ((reqUp 257 true).setFld (uciReg (1 : Fin
      2) 0) 0 2 0).uciBlocks (1 : Fin 2))
    ∧ (reqUp 256 false).islandLive = true
    ∧ (reqUp 256 false).uci.req[(1 : Fin 2)] = none
    ∧ 1 ≤ ((reqUp 256 false).setFld (uciReg (1 : Fin 2) 0) 0 2 0).uciBlocks (1 : Fin 2)
    ∧ ((reqUp 256 false).setFld (uciReg (1 : Fin 2) 0) 0 2 0).uciBlocks (1 : Fin 2) ≤ 256
    ∧ (reqUp 256 false).uci.ctx[((reqUp 256 false).setFld (uciReg (1 : Fin 2) 0) 0 2 0).uciCtx (1 : Fin 2)].loaded = false
    ∧ (reqUp 256 true).islandLive = true
    ∧ (reqUp 256 true).uci.req[(1 : Fin 2)] = none
    ∧ 1 ≤ ((reqUp 256 true).setFld (uciReg (1 : Fin 2) 0) 0 2 1).uciBlocks (1 : Fin 2)
    ∧ ((reqUp 256 true).setFld (uciReg (1 : Fin 2) 0) 0 2 1).uciBlocks (1 : Fin 2) ≤ 256
    ∧ (reqUp 256 true).uci.ctx[((reqUp 256 true).setFld (uciReg (1 : Fin 2) 0) 0 2 1).uciCtx (1 : Fin 2)].loaded = true
    ∧ ((1 : Fin 4) = (2 : Fin 4) → (reqUp 256 true).uci.ctx[((reqUp 256 true).setFld (uciReg (1 : Fin 2) 0) 0 2 1).uciCtx (1 : Fin
      2)].count ≠ 2 ^ 32 - 1)
    ∧ (reqUp 1 true).islandLive = true
    ∧ (reqUp 1 true).uci.req[(1 : Fin 2)] = none
    ∧ 1 ≤ ((reqUp 1 true).setFld (uciReg (1 : Fin 2) 0) 0 2 2).uciBlocks (1 : Fin 2)
    ∧ ((reqUp 1 true).setFld (uciReg (1 : Fin 2) 0) 0 2 2).uciBlocks (1 : Fin 2) ≤ 256
    ∧ (reqUp 1 true).uci.ctx[((reqUp 1 true).setFld (uciReg (1 : Fin 2) 0) 0 2 2).uciCtx (1 : Fin 2)].loaded = true
    ∧ ((2 : Fin 4) = (2 : Fin 4) → (reqUp 1 true).uci.ctx[((reqUp 1 true).setFld (uciReg (1 : Fin 2) 0) 0 2 2).uciCtx (1 : Fin 2)].count ≠
      2 ^ 32 - 1)
    ∧ 1 ≤ ((reqUp 1 true).setFld (uciReg (1 : Fin 2) 0) 0 2 3).uciBlocks (1 : Fin 2)
    ∧ ((reqUp 1 true).setFld (uciReg (1 : Fin 2) 0) 0 2 3).uciBlocks (1 : Fin 2) ≤ 256
    ∧ (reqUp 1 true).uci.ctx[((reqUp 1 true).setFld (uciReg (1 : Fin 2) 0) 0 2 3).uciCtx (1 : Fin 2)].loaded = true
    ∧ ((3 : Fin 4) = (2 : Fin 4) → (reqUp 1 true).uci.ctx[((reqUp 1 true).setFld (uciReg (1 : Fin 2) 0) 0 2 3).uciCtx (1 : Fin 2)].count ≠
      2 ^ 32 - 1)
    ∧ (reqUp 1 true (2 ^ 32 - 1)).islandLive = true
    ∧ (reqUp 1 true (2 ^ 32 - 1)).uci.req[(1 : Fin 2)] = none
    ∧ 1 ≤ ((reqUp 1 true (2 ^ 32 - 1)).setFld (uciReg (1 : Fin 2) 0) 0 2 2).uciBlocks (1 : Fin 2)
    ∧ ((reqUp 1 true (2 ^ 32 - 1)).setFld (uciReg (1 : Fin 2) 0) 0 2 2).uciBlocks (1 : Fin 2) ≤ 256
    ∧ (reqUp 1 true (2 ^ 32 - 1)).uci.ctx[((reqUp 1 true (2 ^ 32 - 1)).setFld (uciReg (1 : Fin 2) 0) 0 2 2).uciCtx (1 : Fin 2)].loaded =
      true
    ∧ (reqUp 1 true (2 ^ 32 - 1)).uci.ctx[((reqUp 1 true (2 ^ 32 - 1)).setFld (uciReg (1 : Fin 2) 0) 0 2 2).uciCtx (1 : Fin 2)].count = 2
      ^ 32 - 1
    ∧ (uqUp 1).islandLive = true
    ∧ (uqUp 1).uci.req[(1 : Fin 2)] = some (uq 1)
    ∧ (uqUp 1).uci.turn = (1 : Fin 2)
    ∧ (uq 1).op < 2
    ∧ (uqUp 1).hstLive = true
    ∧ overlaps (uq 1).src (uq 1).dst (16 * (uq 1).blocks) = false
    ∧ 1 ≤ (uq 1).blocks
    ∧ (uqUp 2).islandLive = true
    ∧ (uqUp 2).uci.req[(1 : Fin 2)] = some (uq 2)
    ∧ (uqUp 2).uci.turn = (1 : Fin 2)
    ∧ (uq 2).op = 2
    ∧ (uqUp 3).islandLive = true
    ∧ (uqUp 3).uci.req[(1 : Fin 2)] = some (uq 3)
    ∧ (uqUp 3).uci.turn = (1 : Fin 2)
    ∧ (uq 3).op = 3
    ∧ (uqUp 1).uci.req[(1 : Fin 2)].isSome = true
    ∧ up.islandLive = true
    ∧ (0 : Fin 2) ≠ (1 : Fin 2) := by
  and_intros <;> first
    | decide +kernel
    | rfl
    | (unfold State.Takes; decide +kernel)
    | (unfold State.Issues; decide +kernel)
    | simp

/-- States and operands that meet the hypotheses of `KeyOperationsStart`. -/
theorem witness_KeyOperationsStart :
    (queued r2 [dWrap] kstUp).lcRuns = true
    ∧ (queued r2 [dWrap] kstUp).kstCan = true
    ∧ (queued r2 [dWrap] kstUp).Takes r2 8 (fun x => true) dWrap
    ∧ (queued r2 [dWrap] kstUp).kwrapinCheck (ringPf r2) dWrap = none
    ∧ dWrap.p2 % 2048 ≠ dWrap.p1 % 2048
    ∧ (queued r2 [dDrawn] kstUp).lcRuns = true
    ∧ (queued r2 [dDrawn] kstUp).kstCan = true
    ∧ (queued r2 [dDrawn] kstUp).Takes r2 8 (fun x => true) dDrawn
    ∧ (queued r2 [dDrawn] kstUp).kwrapinCheck (ringPf r2) dDrawn = none
    ∧ dDrawn.p2 % 2048 = dDrawn.p1 % 2048
    ∧ (queued r2 [dStage] kstUp).lcRuns = true
    ∧ (queued r2 [dStage] kstUp).kstCan = true
    ∧ (queued r2 [dStage] kstUp).Takes r2 9 (fun x => decide (x = 0)) dStage
    ∧ (queued r2 [dStage] kstUp).kstageCheck (ringPf r2) dStage = none
    ∧ (queued r2 [dStageR] kstUp).lcRuns = true
    ∧ (queued r2 [dStageR] kstUp).kstCan = true
    ∧ (queued r2 [dStageR] kstUp).Takes r2 9 (fun x => decide (x = 1)) dStageR
    ∧ (queued r2 [dStageR] kstUp).kstageRngCheck (ringPf r2) (dStageR.p1 % 2048) = none
    ∧ (queued r2 [dCommit (checkValue k3)] stagedUp).lcRuns = true
    ∧ (queued r2 [dCommit (checkValue k3)] stagedUp).kstCan = true
    ∧ (queued r2 [dCommit (checkValue k3)] stagedUp).Takes r2 10 (fun x => true) (dCommit (checkValue k3))
    ∧ (queued r2 [dCommit (checkValue k3)] stagedUp).kcommitCheck (ringPf r2) ((dCommit (checkValue k3)).p1 % 2048) = none
    ∧ ((queued r2 [dCommit (checkValue k3)] stagedUp).slot ((dCommit (checkValue k3)).p1 % 2048)).staged = some (k3, none, 0)
    ∧ checkValue k3 = (dCommit (checkValue k3)).argBytes 0 8
    ∧ (queued r2 [dCommit []] stagedUp).lcRuns = true
    ∧ (queued r2 [dCommit []] stagedUp).kstCan = true
    ∧ (queued r2 [dCommit []] stagedUp).Takes r2 10 (fun x => true) (dCommit [])
    ∧ (queued r2 [dCommit []] stagedUp).kcommitCheck (ringPf r2) ((dCommit []).p1 % 2048) = none
    ∧ ((queued r2 [dCommit []] stagedUp).slot ((dCommit []).p1 % 2048)).staged = some (k3, none, 0)
    ∧ checkValue k3 ≠ (dCommit []).argBytes 0 8
    ∧ (queued r2 [dDerive] kstUp).lcRuns = true
    ∧ (queued r2 [dDerive] kstUp).kstCan = true
    ∧ (queued r2 [dDerive] kstUp).Takes r2 12 (fun x => true) dDerive
    ∧ (queued r2 [dDerive] kstUp).kderiveCheck (ringPf r2) dDerive = none
    ∧ (queued r2 [dAtt] attUp).lcRuns = true
    ∧ (queued r2 [dAtt] attUp).kstCan = true
    ∧ (queued r2 [dAtt] attUp).Takes r2 13 (fun x => true) dAtt
    ∧ (queued r2 [dAtt] attUp).attestCheck (ringPf r2) (dAtt.p1 % 2048) = none
    ∧ busyKst.lcRuns = true
    ∧ busyKst.kstCan = false
    ∧ (busyKst.kst.ready = true ∨ busyKst.rng.st ≠ RngState.failed)
    ∧ Instr.kinval r2 ∈ [Instr.kwrapin r2, Instr.kstageWrapped r2, Instr.kstageRng r2, Instr.kcommit r2, Instr.kinval r2, Instr.kderive
      r2, Instr.attest r2]
    ∧ ringForm (Instr.kinval r2) = some (r2, 11, fun x => true)
    ∧ busyKst.Takes r2 11 (fun x => true) dInv
    ∧ deadKst.lcRuns = true
    ∧ deadKst.kstCan = false
    ∧ deadKst.kst.ready = false
    ∧ deadKst.rng.st = RngState.failed
    ∧ deadKst.Takes r2 11 (fun x => true) dInv := by
  and_intros <;> first
    | decide +kernel
    | rfl
    | (unfold State.Takes; decide +kernel)
    | (unfold State.Issues; decide +kernel)
    | simp

/-- States and operands that meet the hypotheses of `KeyOperationsEnd`. -/
theorem witness_KeyOperationsEnd :
    (jobUp (jb (KOp.install 9 vSlot))).kst.jobs[0]? = some (jb (KOp.install 9 vSlot))
    ∧ (jb (KOp.install 9 vSlot)).need ≤ (jb (KOp.install 9 vSlot)).drawn.length
    ∧ (jb (KOp.install 9 vSlot)).op = KOp.install 9 vSlot
    ∧ (jb (KOp.install 9 vSlot)).erased = false
    ∧ ((jobUp (jb (KOp.install 9 vSlot))).slot 9).st = SlotState.empty
    ∧ (jobUp (jb (KOp.installDrawn 9 vSlot) false [k3])).kst.jobs[0]? = some (jb (KOp.installDrawn 9 vSlot) false [k3])
    ∧ (jb (KOp.installDrawn 9 vSlot) false [k3]).need ≤ (jb (KOp.installDrawn 9 vSlot) false [k3]).drawn.length
    ∧ (jb (KOp.installDrawn 9 vSlot) false [k3]).op = KOp.installDrawn 9 vSlot
    ∧ (jb (KOp.installDrawn 9 vSlot) false [k3]).erased = false
    ∧ ((jobUp (jb (KOp.installDrawn 9 vSlot) false [k3])).slot 9).st = SlotState.empty
    ∧ (jobUp (jb (KOp.stageDrawn 6) false [k3])).kst.jobs[0]? = some (jb (KOp.stageDrawn 6) false [k3])
    ∧ (jb (KOp.stageDrawn 6) false [k3]).need ≤ (jb (KOp.stageDrawn 6) false [k3]).drawn.length
    ∧ (jb (KOp.stageDrawn 6) false [k3]).op = KOp.stageDrawn 6
    ∧ (jb (KOp.stageDrawn 6) false [k3]).erased = false
    ∧ ((jobUp (jb (KOp.stageDrawn 6) false [k3])).slot 6).st = SlotState.live
    ∧ (jobUp (jb (KOp.install 9 vSlot) true)).kst.jobs[0]? = some (jb (KOp.install 9 vSlot) true)
    ∧ (jb (KOp.install 9 vSlot) true).need ≤ (jb (KOp.install 9 vSlot) true).drawn.length
    ∧ ((jb (KOp.install 9 vSlot) true).op = KOp.install 9 vSlot ∨ (jb (KOp.install 9 vSlot) true).op = KOp.installDrawn 9 vSlot)
    ∧ ((jb (KOp.install 9 vSlot) true).erased = true ∨ ((jobUp (jb (KOp.install 9 vSlot) true)).slot 9).st ≠ SlotState.empty)
    ∧ (jobUp (jb (KOp.commit 6 4))).kst.jobs[0]? = some (jb (KOp.commit 6 4))
    ∧ (jb (KOp.commit 6 4)).need ≤ (jb (KOp.commit 6 4)).drawn.length
    ∧ (jb (KOp.commit 6 4)).op = KOp.commit 6 4
    ∧ (jobUp (jb (KOp.attest 8 k3 k3 1 (0 : W32) [] 64) false [k3, k3])).kst.jobs[0]? = some (jb (KOp.attest 8 k3 k3 1 (0 : W32) [] 64)
      false [k3, k3])
    ∧ (jb (KOp.attest 8 k3 k3 1 (0 : W32) [] 64) false [k3, k3]).need ≤ (jb (KOp.attest 8 k3 k3 1 (0 : W32) [] 64) false [k3,
      k3]).drawn.length
    ∧ (jb (KOp.attest 8 k3 k3 1 (0 : W32) [] 64) false [k3, k3]).op = KOp.attest 8 k3 k3 1 (0 : W32) [] 64
    ∧ (jobUp (jb (KOp.attest 8 k3 k3 1 (0 : W32) [] 64) false [k3, k3])).hstLive = true
    ∧ (queued r2 [dInv] kstUp).lcRuns = true
    ∧ (queued r2 [dInv] kstUp).kstCan = true
    ∧ (queued r2 [dInv] kstUp).Takes r2 11 (fun x => true) dInv
    ∧ (queued r2 [dInv] kstUp).kinvalCheck (dInv.p1 % 2048) = none
    ∧ busyKst.kst.marking = some { ref := dInv.ref r2, slots := [] : Kinval }
    ∧ st105.kst.marking = some kinv5
    ∧ st106.kst.marking = some kinv5
    ∧ (st107.slot 5).st = SlotState.invalidating
    ∧ st107.unpublished 5 = false
    ∧ st107.kst.sweeping = false
    ∧ st107.copyBusy 5 = false := by
  and_intros <;> first
    | decide +kernel
    | rfl
    | (unfold State.Takes; decide +kernel)
    | (unfold State.Issues; decide +kernel)
    | simp

/-- States and operands that meet the hypotheses of `KeysAreKept`. -/
theorem witness_KeysAreKept :
    st108.kst.mtpJobs = [mj]
    ∧ rngUp_6.islandLive = true
    ∧ rngUp_6.kst.started = false
    ∧ rngUp_6.kst.lcPhase = none
    ∧ rngUp_6.mtpBusy = false
    ∧ rngUp_6.lcRuns = true
    ∧ rngUp_6.delivers 0 = true
    ∧ (∀ (k : Fin 4) (j : Fin 12), (rngUp_6.ring { eng := k, ring := j : Rid }).waiting = false)
    ∧ rngUp_6.kst.lc ≠ 2
    ∧ secUp.islandLive = true
    ∧ secUp.kst.started = false
    ∧ secUp.kst.lcPhase = none
    ∧ secUp.mtpBusy = false
    ∧ secUp.lcRuns = true
    ∧ secUp.delivers 0 = true
    ∧ (∀ (k : Fin 4) (j : Fin 12), (secUp.ring { eng := k, ring := j : Rid }).waiting = false)
    ∧ secUp.kst.lc = 2
    ∧ secUp.otp.root = some rootKey
    ∧ (dueUp false none).rootDue = true
    ∧ (dueUp false none).kst.rootDraw = none
    ∧ (dueUp false (some rootKey)).rootDue = true
    ∧ (dueUp false (some rootKey)).kst.rootDraw = some rootKey
    ∧ (dueUp false (some rootKey)).kst.rootTriedA = false
    ∧ (dueUp true (some rootKey)).rootDue = true
    ∧ (dueUp true (some rootKey)).kst.rootDraw = some rootKey
    ∧ (dueUp true (some rootKey)).kst.rootTriedA = true
    ∧ provUp.islandLive = true
    ∧ provUp.provCan 1347813376 = true
    ∧ provUp.provCan 1347747840 = false := by
  and_intros <;> first
    | decide +kernel
    | rfl
    | (unfold State.Takes; decide +kernel)
    | (unfold State.Issues; decide +kernel)
    | simp

/-- States and operands that meet the hypotheses of `LifeCycleAndTamper`. -/
theorem witness_LifeCycleAndTamper :
    (lcUp id).islandLive = true
    ∧ (lcUp id).lcError 1279459331 ≠ 0
    ∧ (lcUp id).lcError 1279459332 = 0
    ∧ (lcUp id).kst.lcWindow = true
    ∧ st109.kst.lcPhase = some (LcPhase.fuse 4)
    ∧ 4 ≠ 2
    ∧ 4 ≠ 3
    ∧ st110.kst.lcPhase = some (LcPhase.fuse 3)
    ∧ 3 ≠ 2
    ∧ (ranked 2).islandLive = true
    ∧ (ranked 2).newFirings (4 : BitVec 12) ≠ (0 : BitVec 12)
    ∧ (ranked 2).tmp.bistCur = none
    ∧ (ranked 2).topRank ((ranked 2).newFirings (4 : BitVec 12)) ≤ 2
    ∧ ((ranked 2).newFirings (4 : BitVec 12)).getLsbD 8 = false
    ∧ (ranked 4).islandLive = true
    ∧ 3 ≤ (ranked 4).topRank ((ranked 4).newFirings (4 : BitVec 12))
    ∧ (ranked 4).tmp.exec = none
    ∧ (ranked 4).tmp.bistCur = none
    ∧ 4 ≤ (ranked 4).topRank ((ranked 4).newFirings (4 : BitVec 12))
    ∧ (ranked 3).islandLive = true
    ∧ 3 ≤ (ranked 3).topRank ((ranked 3).newFirings (4 : BitVec 12))
    ∧ (ranked 3).tmp.exec = none
    ∧ (ranked 3).tmp.bistCur = none
    ∧ st111.tmp.firing.getLsbD 2 = true
    ∧ (2 : Fin 12) ≠ (9 : Fin 12)
    ∧ (2 : Fin 12) ≠ (11 : Fin 12)
    ∧ st112.tmp.throttle = true
    ∧ st112.tmp.thrSrcs &&& st112.tmp.firing = (0 : BitVec 12)
    ∧ thrAdds.islandLive = true
    ∧ thrAdds.newFirings (1 : BitVec 12) ≠ (0 : BitVec 12)
    ∧ thrAdds.tmp.bistCur = none
    ∧ thrAdds.topRank (thrAdds.newFirings (1 : BitVec 12)) ≤ 2
    ∧ (thrAdds.newFirings (1 : BitVec 12)).getLsbD 8 = false := by
  and_intros <;> first
    | decide +kernel
    | rfl
    | (unfold State.Takes; decide +kernel)
    | (unfold State.Issues; decide +kernel)
    | simp

/-- States and operands that meet the hypotheses of `EvidenceIsKept`. -/
theorem witness_EvidenceIsKept :
    st113.tmp.evJobs = [EvJob.backup]
    ∧ up.islandLive = true
    ∧ fwUp.islandLive = true
    ∧ fwUp.fuseOpen = true
    ∧ (1178861573 / 65536 : ℕ) = 17988
    ∧ 1178861573 % 16 = fwUp.reg (Reg.tmp 40)
    ∧ 1178861573 % 16 < 8
    ∧ (fwUp.kst.lc = 1 ∨ fwUp.kst.lc = 2)
    ∧ fwUp.tmp.fusePend = none
    ∧ fwShut.islandLive = true
    ∧ fwShut.fuseOpen = true
    ∧ 1178861573 % 16 = fwShut.reg (Reg.tmp 40)
    ∧ (fwShut.kst.lc = 1 ∨ fwShut.kst.lc = 2)
    ∧ fwShut.tmp.fusePend = none
    ∧ up.fuseOpen = false
    ∧ fwUp.tmp.fuseWindow = true
    ∧ st114.tmp.fusePend = some 5
    ∧ (st114.kst.mtpJobs.any fun j => decide (j.kind = MtpKind.log)) = false
    ∧ st115.tmp.holdDue = true
    ∧ st116.rst.porHeld = true
    ∧ st116.bkp.vbat ≠ Vbat.lost
    ∧ (3 : BitVec 5) &&& st116.bkp.mask &&& ~~~st116.bkpDisabled ≠ (0 : BitVec 5)
    ∧ Vbat.good ≠ up.bkp.vbat
    ∧ Vbat.good ≠ Vbat.lost
    ∧ cell.bkp.vbat ≠ Vbat.lost := by
  and_intros <;> first
    | decide +kernel
    | rfl
    | (unfold State.Takes; decide +kernel)
    | (unfold State.Issues; decide +kernel)
    | simp

/-- States and operands that meet the hypotheses of `ResetsHoldAndClear`. -/
theorem witness_ResetsHoldAndClear :
    up.rst.porHeld ≠ true
    ∧ up.rst.porHeld = false
    ∧ up.rst.resetLow = false
    ∧ st119.rst.porHeld = false
    ∧ st119.rst.resetLow = true
    ∧ (up.setReg Reg.rstCfg 1).rst.porHeld = false
    ∧ (up.setReg Reg.rstCfg 1).rst.perstLow = false
    ∧ (up.setReg Reg.rstCfg 1).bit Reg.rstCfg 0 = true
    ∧ (up.setReg Reg.rstCfg 0).rst.porHeld = false
    ∧ (up.setReg Reg.rstCfg 0).rst.perstLow = false
    ∧ (up.setReg Reg.rstCfg 0).bit Reg.rstCfg 0 = false
    ∧ st120.rst.porHeld = false
    ∧ st120.rst.perstLow = true
    ∧ (1381171201 / 65536 : ℕ) = 21075
    ∧ natBit 1381171201 0 = true
    ∧ (1381171202 / 65536 : ℕ) = 21075
    ∧ natBit 1381171202 0 = false
    ∧ natBit 1381171202 1 = true
    ∧ natBits 1381171202 2 4 = 0
    ∧ ((1 : Fin 2) = (0 : Fin 2) ∨ (1381236737 / 65536 : ℕ) ≠ 21075)
    ∧ up.hasMill (2 : Fin 4) = true
    ∧ (∀ (k : Fin 4), k ≠ (2 : Fin 4) → (up.sch k).staging[(2 : Fin 4)] = [] ∧ ∀ f ∈ (up.sch k).rebuilt, f.clientMill ≠ (2 : Fin 4))
    ∧ up.bit Reg.rstCfg (1 + 2) = false
    ∧ up.hstLive = true := by
  and_intros <;> first
    | decide +kernel
    | rfl
    | (unfold State.Takes; decide +kernel)
    | (unfold State.Issues; decide +kernel)
    | simp

/-- States and operands that meet the hypotheses of `DeviceComesUp`. -/
theorem witness_DeviceComesUp :
    up.islandLive = true
    ∧ natBit 4099 12 = true
    ∧ up.tmp.bistBusy = false
    ∧ st117.tmp.bistCur = some 3
    ∧ (true = false ∨ true = true)
    ∧ (false = false ∨ false = true)
    ∧ st118.tmp.bistCur = some 3
    ∧ st118.topRank (BitVec.ofNat 12 1 <<< 3) ≤ 2
    ∧ (early 3).nextDomain = some 2
    ∧ (early 3).mayRelease 2 = true
    ∧ st121.nextDomain = some 14
    ∧ st121.mayRelease 14 = true
    ∧ (early 1).rst.porHeld = false
    ∧ (early 1).live 0 = true
    ∧ (early 1).rst.resetLow = false
    ∧ (early 1).rst.trims = false
    ∧ (early 1).rst.trimFailed = false
    ∧ (early 1).rst.trimB = false
    ∧ st122.rst.porHeld = false
    ∧ st122.live 0 = true
    ∧ st122.rst.resetLow = false
    ∧ st122.rst.trims = false
    ∧ st122.rst.trimFailed = false
    ∧ st122.rst.trimB = true
    ∧ (early 16383).mgmtLive = true
    ∧ (early 16383).rst.bootDone = false
    ∧ (early 16383).rst.bootFailed = false
    ∧ (early 16383).bootCheck [] ≠ 0
    ∧ up.rst.porHeld = false
    ∧ up.rst.released &&& clockSet 9 ≠ (0 : BitVec 15)
    ∧ signed.mgmtLive = true
    ∧ signed.rst.bootDone = false
    ∧ signed.rst.bootFailed = false
    ∧ signed.bootCheck bootImage = 0 := by
  and_intros <;> first
    | decide +kernel
    | rfl
    | (unfold State.Takes; decide +kernel)
    | (unfold State.Issues; decide +kernel)
    | simp

/-- States and operands that meet the hypotheses of `FramerSends`. -/
theorem witness_FramerSends :
    grantUp.framerRuns (0 : Fin 4) = true
    ∧ (grantUp.line (0 : Fin 4)).inReam = false
    ∧ grantUp.permitted = true
    ∧ (lineUp inRm).framerRuns (0 : Fin 4) = true
    ∧ ((lineUp inRm).line (0 : Fin 4)).inReam = true
    ∧ (lineUp inRm).permitted = false
    ∧ (grantUp inRm).framerRuns (0 : Fin 4) = true
    ∧ ((grantUp inRm).line (0 : Fin 4)).inReam = true
    ∧ (grantUp inRm).permitted = true
    ∧ (grantUp inRm).keyedUnder (0 : Fin 4) = none
    ∧ (keyed (2 ^ 48) (grantUp inRm)).framerRuns (0 : Fin 4) = true
    ∧ ((keyed (2 ^ 48) (grantUp inRm)).line (0 : Fin 4)).inReam = true
    ∧ (keyed (2 ^ 48) (grantUp inRm)).permitted = true
    ∧ up.millLive (0 : Fin 4) = true
    ∧ up.txEn (0 : Fin 4) = false
    ∧ (lineUp inRm).millLive (0 : Fin 4) = true
    ∧ (lineUp inRm).txEn (0 : Fin 4) = true
    ∧ (∀ (k : Fin 4), ((lineUp inRm).lkn (0 : Fin 4) k).halts = [])
    ∧ (15 : Byte) ≠ (0 : Byte)
    ∧ (lineUp inRm).framerTimed (0 : Fin 4) = true
    ∧ up.framerTimed (0 : Fin 4) = false
    ∧ up.canonical = true := by
  and_intros <;> first
    | decide +kernel
    | rfl
    | (unfold State.Takes; decide +kernel)
    | (unfold State.Issues; decide +kernel)
    | simp

/-- States and operands that meet the hypotheses of `DeframerAligns`. -/
theorem witness_DeframerAligns :
    { : RxLane }.st = LaneSync.hunt
    ∧ { st := LaneSync.presync1, lane := 1, count := 8 : RxLane }.st = LaneSync.presync1
    ∧ { st := LaneSync.presync1, lane := 1, count := 8 : RxLane }.matches false (mk 1 8 (500 : W32)) = true
    ∧ { st := LaneSync.presync2, lane := 1, count := 8 : RxLane }.st = LaneSync.presync2
    ∧ { st := LaneSync.presync2, lane := 1, count := 8 : RxLane }.matches false (mk 1 8 (500 : W32)) = true
    ∧ ({ st := LaneSync.presync2, lane := 1, count := 8 : RxLane }.st = LaneSync.presync1 ∨
      { st := LaneSync.presync2, lane := 1, count := 8 : RxLane }.st = LaneSync.presync2)
    ∧ { st := LaneSync.presync2, lane := 1, count := 8 : RxLane }.matches false (mk 1 8 (501 : W32)) = false
    ∧ { st := LaneSync.sync, lane := 1, count := 8 : RxLane }.st = LaneSync.sync
    ∧ { st := LaneSync.sync, lane := 1, count := 8 : RxLane }.matches false (mk 1 8 (500 : W32)) = true
    ∧ { st := LaneSync.sync, lane := 1, count := 8, misses := 3 : RxLane }.st = LaneSync.sync
    ∧ { st := LaneSync.sync, lane := 1, count := 8, misses := 2 : RxLane }.st = LaneSync.sync
    ∧ lineUp.millLive (0 : Fin 4) = true
    ∧ (lineUp.line (0 : Fin 4)).lanes[(3 : Fin 8)].locw = true
    ∧ lineUp.laneDelivers (lineLane (0 : Fin 4) (3 : Fin 8)) = true
    ∧ Rs.correctable (List.replicate 544 0) = true
    ∧ (lineUp nearly).millLive (0 : Fin 4) = true
    ∧ (lineUp nearly).rxEn (0 : Fin 4) = true
    ∧ (lineUp nearly).huntEn (0 : Fin 4) = true
    ∧ ((lineUp nearly).line (0 : Fin 4)).lanes[(7 : Fin 8)].locw = false
    ∧ (lineUp nearly).laneDelivers (lineLane (0 : Fin 4) (7 : Fin 8)) = true
    ∧ ((lineUp nearly).line (0 : Fin 4)).lanes[(7 : Fin 8)].judge ((lineUp nearly).shedComes (0 : Fin 4)) (candidate (markerWindow (ob 7
      (500 : W32)))) (ob 7 (500 : W32)).arrival = some st123
    ∧ ((lineUp nearly).line (0 : Fin 4)).aligned = false
    ∧ st124.millLive (0 : Fin 4) = true
    ∧ st124.rxEn (0 : Fin 4) = true
    ∧ st124.huntEn (0 : Fin 4) = true
    ∧ (st124.line (0 : Fin 4)).lanes[(7 : Fin 8)].locw = false
    ∧ st124.laneDelivers (lineLane (0 : Fin 4) (7 : Fin 8)) = true
    ∧ (st124.line (0 : Fin 4)).lanes[(7 : Fin 8)].judge (st124.shedComes (0 : Fin 4)) (candidate (markerWindow noise)) noise.arrival =
      none
    ∧ st125.millLive (0 : Fin 4) = true
    ∧ st125.rxEn (0 : Fin 4) = true
    ∧ (st125.line (0 : Fin 4)).everAligned = true
    ∧ (st125.line (0 : Fin 4)).aligned = false
    ∧ up.millLive (0 : Fin 4) = true
    ∧ up.rxEn (0 : Fin 4) = false
    ∧ st126.millLive (0 : Fin 4) = true
    ∧ st126.rxEn (0 : Fin 4) = true
    ∧ (st126.line (0 : Fin 4)).defects.loa = false := by
  and_intros <;> first
    | decide +kernel
    | rfl
    | (unfold State.Takes; decide +kernel)
    | (unfold State.Issues; decide +kernel)
    | simp

/-- States and operands that meet the hypotheses of `SheetsArrive`. -/
theorem witness_SheetsArrive :
    (keyed 1 (lineUp algn)).millLive (0 : Fin 4) = true
    ∧ (keyed 1 (lineUp algn)).rxEn (0 : Fin 4) = true
    ∧ ((keyed 1 (lineUp algn)).line (0 : Fin 4)).aligned = true
    ∧ (keyed 1 (lineUp algn)).reamHere (0 : Fin 4) = true
    ∧ ((keyed 1 (lineUp algn)).lci (0 : Fin 4)).anyRx = true
    ∧ st127.millLive (0 : Fin 4) = true
    ∧ (st127.lkn (0 : Fin 4) (2 : Fin 4)).track = SeqTrack.trial 0 16
    ∧ st127.trialN (0 : Fin 4) ≤ 16
    ∧ (st127.line (0 : Fin 4)).dlg.upperIn (2 : Fin 4) = false := by
  and_intros <;> first
    | decide +kernel
    | rfl
    | (unfold State.Takes; decide +kernel)
    | (unfold State.Issues; decide +kernel)
    | simp

/-- States and operands that meet the hypotheses of `DefectsAreDeclared`. -/
theorem witness_DefectsAreDeclared :
    st128.millLive (0 : Fin 4) = true
    ∧ (st128.line (0 : Fin 4)).lanes[(3 : Fin 8)].locw = false
    ∧ st128.laneDelivers (lineLane (0 : Fin 4) (3 : Fin 8)) = false
    ∧ st129.millLive (0 : Fin 4) = true
    ∧ st129.rxEn (0 : Fin 4) = true
    ∧ (st129.line (0 : Fin 4)).defects.auth = false
    ∧ st129.fld (Reg.lnf 0 0) 8 4 ≤ (st129.line (0 : Fin 4)).runs.authFail
    ∧ st130.millLive (0 : Fin 4) = true
    ∧ st130.rxEn (0 : Fin 4) = true
    ∧ (st130.line (0 : Fin 4)).defects.keyless = false
    ∧ 3 ≤ (st130.line (0 : Fin 4)).runs.unkeyed
    ∧ st131.millLive (0 : Fin 4) = true
    ∧ st131.rxEn (0 : Fin 4) = true
    ∧ (st131.line (0 : Fin 4)).defects.wm = false
    ∧ st131.bit (Reg.lnf 0 0) 3 = true
    ∧ 3 ≤ (st131.line (0 : Fin 4)).runs.wmBad
    ∧ st132.millLive (0 : Fin 4) = true
    ∧ st132.rxEn (0 : Fin 4) = true
    ∧ State.feIndex Defect.feRaf = some (1 : Fin 5)
    ∧ (st132.line (0 : Fin 4)).defects.fe (1 : Fin 5) = false
    ∧ 3 ≤ (st132.line (0 : Fin 4)).runs.feSet[(1 : Fin 5)]
    ∧ st133.millLive (0 : Fin 4) = true
    ∧ st133.rxEn (0 : Fin 4) = true
    ∧ (st133.line (0 : Fin 4)).defects.auth = true
    ∧ 4 ≤ (st133.line (0 : Fin 4)).runs.authOk
    ∧ st134.millLive (0 : Fin 4) = true
    ∧ st134.rxEn (0 : Fin 4) = true
    ∧ (st134.line (0 : Fin 4)).defects.keyless = true
    ∧ 3 ≤ (st134.line (0 : Fin 4)).runs.keyed
    ∧ st135.millLive (0 : Fin 4) = true
    ∧ st135.rxEn (0 : Fin 4) = true
    ∧ (st135.line (0 : Fin 4)).defects.wm = true
    ∧ 3 ≤ (st135.line (0 : Fin 4)).runs.wmGood
    ∧ st136.millLive (0 : Fin 4) = true
    ∧ st136.rxEn (0 : Fin 4) = true
    ∧ (st136.line (0 : Fin 4)).defects.fe (1 : Fin 5) = true
    ∧ 3 ≤ (st136.line (0 : Fin 4)).runs.feClr[(1 : Fin 5)]
    ∧ st137.millLive (0 : Fin 4) = true
    ∧ BitVec.getLsbD (st137.dkl (0 : Fin 4)).rxMap 1 = true
    ∧ (st137.line (0 : Fin 4)).lanes[(1 : Fin 8)].holdoff = true
    ∧ (st137.line (0 : Fin 4)).lanes[(1 : Fin 8)].locw = false := by
  and_intros <;> first
    | decide +kernel
    | rfl
    | (unfold State.Takes; decide +kernel)
    | (unfold State.Issues; decide +kernel)
    | simp

/-- States and operands that meet the hypotheses of `DialogueNegotiates`. -/
theorem witness_DialogueNegotiates :
    (heard (hello 3) id).dlgOf (0 : Fin 4) 1 = some (hello 3, rest (hello 3) id)
    ∧ ((rest (hello 3) id).line (0 : Fin 4)).dlg.neg = Neg.down
    ∧ st138.dlgOf (0 : Fin 4) 1 = some (hello 2, st139)
    ∧ (st139.line (0 : Fin 4)).dlg.neg ≠ Neg.down
    ∧ (st139.line (0 : Fin 4)).dlg.neg = Neg.offer
    ∧ st140.dlgOf (0 : Fin 4) 1 = some (hello 0, st141)
    ∧ (st141.line (0 : Fin 4)).dlg.neg ≠ Neg.down
    ∧ (st141.line (0 : Fin 4)).dlg.neg = Neg.offer
    ∧ ({ (st141.line (0 : Fin 4)).dlg with farSession := some (BitVec.ofNat 32 (beNat (slice (hello 0).body 4 4))), farMin := BitVec.toNat (byteAt (hello 0).body 0), farMax := BitVec.toNat (byteAt (hello 0).body 1) }
      : Dlg).common = none
    ∧ st142.dlgOf (0 : Fin 4) 1 = some (hello 2, st143)
    ∧ (st143.line (0 : Fin 4)).dlg.neg ≠ Neg.down
    ∧ (st143.line (0 : Fin 4)).dlg.neg ≠ Neg.offer
    ∧ (st143.line (0 : Fin 4)).dlg.farSession = some (BitVec.ofNat 32 (beNat (slice (hello 2).body 4 4)))
    ∧ st144.dlgOf (0 : Fin 4) 1 = some (hello 2, st145)
    ∧ (st145.line (0 : Fin 4)).dlg.neg ≠ Neg.down
    ∧ (st145.line (0 : Fin 4)).dlg.neg ≠ Neg.offer
    ∧ (st145.line (0 : Fin 4)).dlg.farSession ≠ some (BitVec.ofNat 32 (beNat (slice (hello 2).body 4 4)))
    ∧ (heard conf (cf 55)).dlgOf (0 : Fin 4) 2 = some (conf, rest conf (cf 55))
    ∧ ((rest conf (cf 55)).line (0 : Fin 4)).dlg.neg = Neg.confirm
    ∧ ((rest conf (cf 55)).line (0 : Fin 4)).dlg.common = some (BitVec.toNat (byteAt conf.body 0))
    ∧ beNat (slice conf.body 4 4) = BitVec.toNat ((rest conf (cf 55)).line (0 : Fin 4)).dlg.session
    ∧ (heard conf (cf 54)).dlgOf (0 : Fin 4) 2 = some (conf, rest conf (cf 54))
    ∧ ((rest conf (cf 54)).line (0 : Fin 4)).dlg.neg = Neg.confirm
    ∧ ((rest conf (cf 54)).line (0 : Fin 4)).dlg.common = some (BitVec.toNat (byteAt conf.body 0))
    ∧ (((rest conf (cf 54)).line (0 : Fin 4)).dlg.common ≠ some (BitVec.toNat (byteAt conf.body 0)) ∨ beNat (slice conf.body 4 4) ≠
      BitVec.toNat ((rest conf (cf 54)).line (0 : Fin 4)).dlg.session)
    ∧ (heard conf id).dlgOf (0 : Fin 4) 2 = some (conf, rest conf id)
    ∧ ((rest conf id).line (0 : Fin 4)).dlg.neg ≠ Neg.confirm
    ∧ (heard chk (agr 2)).dlgOf (0 : Fin 4) 3 = some (chk, rest chk (agr 2))
    ∧ ((rest chk (agr 2)).line (0 : Fin 4)).dlg.neg = Neg.agreed
    ∧ (((rest chk (agr 2)).line (0 : Fin 4)).dlg.neg ≠ Neg.agreed ∨ chk.body = [byteOf ((rest chk (agr 2)).line (0 : Fin 4)).dlg.farMin,
      byteOf ((rest chk (agr 2)).line (0 : Fin 4)).dlg.farMax, byteOf ((rest chk (agr 2)).line (0 : Fin 4)).dlg.ownMin, byteOf ((rest chk
      (agr 2)).line (0 : Fin 4)).dlg.ownMax])
    ∧ (heard chk (agr 3)).dlgOf (0 : Fin 4) 3 = some (chk, rest chk (agr 3))
    ∧ ((rest chk (agr 3)).line (0 : Fin 4)).dlg.neg = Neg.agreed
    ∧ chk.body ≠ [byteOf ((rest chk (agr 3)).line (0 : Fin 4)).dlg.farMin, byteOf ((rest chk (agr 3)).line (0 : Fin 4)).dlg.farMax, byteOf
      ((rest chk (agr 3)).line (0 : Fin 4)).dlg.ownMin, byteOf ((rest chk (agr 3)).line (0 : Fin 4)).dlg.ownMax]
    ∧ (((heard (msg 128 [(1 : Byte), (2 : Byte)]) id).dlgHead (0 : Fin 4) fun y => decide (128 ≤ BitVec.toNat y.type ∧ BitVec.toNat y.type
      < 255)) = some (msg 128 [(1 : Byte), (2 : Byte)], rest (msg 128 [(1 : Byte), (2 : Byte)]) id))
    ∧ ((heard (msg 64 [(1 : Byte), (2 : Byte)]) id).dlgHead (0 : Fin 4) fun y => !y.known) = some (msg 64 [(1 : Byte), (2 : Byte)], rest
      (msg 64 [(1 : Byte), (2 : Byte)]) id)
    ∧ (heard upper id).dlgOf (0 : Fin 4) 16 = some (upper, rest upper id)
    ∧ ((heard upper id).lkn (0 : Fin 4) upper.lkn).track = SeqTrack.track
    ∧ st146.dlgOf (0 : Fin 4) 16 = some (upper, st147)
    ∧ (st146.lkn (0 : Fin 4) upper.lkn).track ≠ SeqTrack.track
    ∧ (keyed 1 (heard query id)).dlgOf (0 : Fin 4) 17 = some (query, keyed 1 (rest query id))
    ∧ ((keyed 1 (heard query id)).lci (0 : Fin 4)).current = some query.lkn
    ∧ ((keyed 1 (rest query id)).line (0 : Fin 4)).dlg.upperOut = false
    ∧ (heard query id).dlgOf (0 : Fin 4) 17 = some (query, rest query id)
    ∧ (((heard query id).lci (0 : Fin 4)).current ≠ some query.lkn ∨ ((rest query id).line (0 : Fin 4)).dlg.upperOut = true)
    ∧ (heard (msg 24 [(6 : Byte), (0 : Byte)]) v3).dlgOf (0 : Fin 4) 24 = some (msg 24 [(6 : Byte), (0 : Byte)], rest (msg 24 [(6 : Byte),
      (0 : Byte)]) v3)
    ∧ 3 ≤ ((rest (msg 24 [(6 : Byte), (0 : Byte)]) v3).line (0 : Fin 4)).dlg.ver
    ∧ (heard (msg 24 [(6 : Byte), (0 : Byte)]) id).dlgOf (0 : Fin 4) 24 = some (msg 24 [(6 : Byte), (0 : Byte)], rest (msg 24 [(6 : Byte),
      (0 : Byte)]) id)
    ∧ ((rest (msg 24 [(6 : Byte), (0 : Byte)]) id).line (0 : Fin 4)).dlg.ver < 3
    ∧ (heard (msg 25 [(6 : Byte), (0 : Byte)]) v3).dlgOf (0 : Fin 4) 25 = some (msg 25 [(6 : Byte), (0 : Byte)], rest (msg 25 [(6 : Byte),
      (0 : Byte)]) v3)
    ∧ 3 ≤ ((rest (msg 25 [(6 : Byte), (0 : Byte)]) v3).line (0 : Fin 4)).dlg.ver := by
  and_intros <;> first
    | decide +kernel
    | rfl
    | (unfold State.Takes; decide +kernel)
    | (unfold State.Issues; decide +kernel)
    | simp

/-- States and operands that meet the hypotheses of `DialogueSends`. -/
theorem witness_DialogueSends :
    (noLoa (outM 1 0)).millLive (0 : Fin 4) = true
    ∧ ((noLoa (outM 1 0)).line (0 : Fin 4)).defects.loa = false
    ∧ ((noLoa (outM 1 0)).line (0 : Fin 4)).dlg.acked = some
      { own := some OwnMsg.hello, bytes := { : Dlg }.own 0 OwnMsg.hello, mseq := 4, frag := 1 : DlgOut }
    ∧ (noLoa (outR 2)).millLive (0 : Fin 4) = true
    ∧ ((noLoa (outR 2)).line (0 : Fin 4)).defects.loa = false
    ∧ ((noLoa (outR 2)).line (0 : Fin 4)).dlg.acked = none
    ∧ ((noLoa (outR 2)).line (0 : Fin 4)).dlg.out = some
      { own := some OwnMsg.hello, bytes := { : Dlg }.own 0 OwnMsg.hello, mseq := 4, frag := 1, sends := 2, wait := 4000000 : DlgOut }
    ∧ { own := some OwnMsg.hello, bytes := { : Dlg }.own 0 OwnMsg.hello, mseq := 4, frag := 1, sends := 2, wait := 4000000 : DlgOut }.frags
      ≤
      { own := some OwnMsg.hello, bytes := { : Dlg }.own 0 OwnMsg.hello, mseq := 4, frag := 1, sends := 2, wait := 4000000 : DlgOut }.frag
    ∧ (∀ (k : Fin 4),
      { own := some OwnMsg.hello, bytes := { : Dlg }.own 0 OwnMsg.hello, mseq := 4, frag := 1, sends := 2, wait := 4000000 : DlgOut }.own
      ≠ some (OwnMsg.seqUpper k))
    ∧ 16 * (noLoa (outR 2)).fld (Reg.lnf 0 32) 16 12 ≤
      { own := some OwnMsg.hello, bytes := { : Dlg }.own 0 OwnMsg.hello, mseq := 4, frag := 1, sends := 2, wait := 4000000 : DlgOut }.wait
    ∧ { own := some OwnMsg.hello, bytes := { : Dlg }.own 0 OwnMsg.hello, mseq := 4, frag := 1, sends := 2, wait := 4000000 : DlgOut }.sends
      < (noLoa (outR 2)).fld (Reg.lnf 0 32) 28 4
    ∧ (noLoa (outR 15)).millLive (0 : Fin 4) = true
    ∧ ((noLoa (outR 15)).line (0 : Fin 4)).defects.loa = false
    ∧ ((noLoa (outR 15)).line (0 : Fin 4)).dlg.acked = none
    ∧ ((noLoa (outR 15)).line (0 : Fin 4)).dlg.out = some
      { own := some OwnMsg.hello, bytes := { : Dlg }.own 0 OwnMsg.hello, mseq := 4, frag := 1, sends := 15, wait := 4000000 : DlgOut }
    ∧ { own := some OwnMsg.hello, bytes := { : Dlg }.own 0 OwnMsg.hello, mseq := 4, frag := 1, sends := 15, wait := 4000000 : DlgOut }.frags
      ≤
      { own := some OwnMsg.hello, bytes := { : Dlg }.own 0 OwnMsg.hello, mseq := 4, frag := 1, sends := 15, wait := 4000000 : DlgOut }.frag
    ∧ (∀ (k : Fin 4),
      { own := some OwnMsg.hello, bytes := { : Dlg }.own 0 OwnMsg.hello, mseq := 4, frag := 1, sends := 15, wait := 4000000 : DlgOut }.own
      ≠ some (OwnMsg.seqUpper k))
    ∧ 16 * (noLoa (outR 15)).fld (Reg.lnf 0 32) 16 12 ≤
      { own := some OwnMsg.hello, bytes := { : Dlg }.own 0 OwnMsg.hello, mseq := 4, frag := 1, sends := 15, wait := 4000000 : DlgOut }.wait
    ∧ (noLoa (outR 15)).fld (Reg.lnf 0 32) 28 4 ≤
      { own := some OwnMsg.hello, bytes := { : Dlg }.own 0 OwnMsg.hello, mseq := 4, frag := 1, sends := 15, wait := 4000000 : DlgOut }.sends
    ∧ typed.millLive (0 : Fin 4) = true
    ∧ (typed.line (0 : Fin 4)).dlg.busy = false
    ∧ hostMessage (typed.txBuf (0 : Fin 4)) = some (List.take 4 (typed.txBuf (0 : Fin 4)))
    ∧ up.millLive (0 : Fin 4) = true
    ∧ (up.line (0 : Fin 4)).dlg.busy = false
    ∧ hostMessage (up.txBuf (0 : Fin 4)) = none
    ∧ st148.millLive (0 : Fin 4) = true
    ∧ (st148.line (0 : Fin 4)).dlg.busy = true
    ∧ st149.millLive (0 : Fin 4) = true
    ∧ (st149.line (0 : Fin 4)).dlg.neg = Neg.failed
    ∧ (up.setBit (Reg.lnf 0 32) 7).millLive (0 : Fin 4) = true
    ∧ (up.setBit (Reg.lnf 0 32) 7).bit (Reg.lnf 0 32) 7 = true := by
  and_intros <;> first
    | decide +kernel
    | rfl
    | (unfold State.Takes; decide +kernel)
    | (unfold State.Issues; decide +kernel)
    | simp

/-- States and operands that meet the hypotheses of `PagesAreWritten`. -/
theorem witness_PagesAreWritten :
    (queued r0 [dDk 0 0 2]).Takes r0 16 (fun x => true) (dDk 0 0 2)
    ∧ ((queued r0 [dDk 0 0 2]).dkl r0.eng).clearing = true
    ∧ (queued r0 [dDk 12292 126999 1] dkUp).Takes r0 16 (fun x => true) (dDk 12292 126999 1)
    ∧ ((queued r0 [dDk 12292 126999 1] dkUp).dkl r0.eng).clearing = false
    ∧ (queued r0 [dDk 12292 126999 1] dkUp).dklBusy r0.eng = false
    ∧ (dDk 12292 126999 1).arg 0 4 + (dDk 12292 126999 1).arg 4 4 ≤ 127000
    ∧ ((dDk 12292 126999 1).arg 4 4 ≠ 0 ∨ natBit (dDk 12292 126999 1).p1 13 = true)
    ∧ (1 ≤ (dDk 12292 126999 1).p1 % 16 ∧ (dDk 12292 126999 1).p1 % 16 ≤ 8)
    ∧ ((trUp_8 (tr 2 none none)).dkl (0 : Fin 4)).transfer = some (tr 2 none none)
    ∧ (tr 2 none none).count ≠ 0
    ∧ [(1 : Byte), (2 : Byte), (3 : Byte), (4 : Byte)].length = 2 * (tr 2 none none).count
    ∧ (tr 2 none none).shedReady = none
    ∧ ((trUp_8 (tr 2 (some 8) (some false))).dkl (0 : Fin 4)).transfer = some (tr 2 (some 8) (some false))
    ∧ (tr 2 (some 8) (some false)).count ≠ 0
    ∧ [(1 : Byte), (2 : Byte), (3 : Byte), (4 : Byte)].length = 2 * (tr 2 (some 8) (some false)).count
    ∧ (tr 2 (some 8) (some false)).shedReady = some false
    ∧ ((trUp_8 (tr 2 (some 8) (some true))).dkl (0 : Fin 4)).transfer = some (tr 2 (some 8) (some true))
    ∧ (tr 2 (some 8) (some true)).count ≠ 0
    ∧ [(1 : Byte), (2 : Byte), (3 : Byte), (4 : Byte)].length = 2 * (tr 2 (some 8) (some true)).count
    ∧ (tr 2 (some 8) (some true)).shedReady = some true
    ∧ ((trUp_8 (tr 0 (some 8) none)).dkl (0 : Fin 4)).transfer = some (tr 0 (some 8) none)
    ∧ (tr 0 (some 8) none).count = 0
    ∧ (tr 0 (some 8) none).shedReady = none
    ∧ (st150.dkl (0 : Fin 4)).validating = some (ValFor.shedReady vRef)
    ∧ pageFault (fun n => !st150.tribAbsent (0 : Fin 4) n) ((st150.dkl (0 : Fin 4)).page !(st150.dkl (0 : Fin 4)).activeB) = none
    ∧ (st151.dkl (0 : Fin 4)).validating = some (ValFor.shedReady vRef)
    ∧ up.millLive (0 : Fin 4) = true
    ∧ (up.dkl (0 : Fin 4)).clearing = true := by
  and_intros <;> first
    | decide +kernel
    | rfl
    | (unfold State.Takes; decide +kernel)
    | (unfold State.Issues; decide +kernel)
    | simp

/-- States and operands that meet the hypotheses of `PagesTakeOver`. -/
theorem witness_PagesTakeOver :
    (queued r0 [dE_8] (dkUp id lineUp)).Takes r0 17 (fun x => decide (x = 0)) dE_8
    ∧ (queued r0 [dE_8] (dkUp id lineUp)).dklBusy r0.eng = false
    ∧ (queued r0 [dE_8] (dkUp id lineUp)).armCheck r0.eng ArmKind.flip = none
    ∧ (queued r0 [dA_8] (dkUp id lineUp)).Takes r0 17 (fun x => decide (x = 1)) dA_8
    ∧ (queued r0 [dA_8] (dkUp id lineUp)).dklBusy r0.eng = false
    ∧ (queued r0 [dA_8] (dkUp id lineUp)).armCheck r0.eng ArmKind.flip = none
    ∧ (queued r0 [dS] sevenB).Takes r0 18 (fun x => decide (x = 0)) dS
    ∧ (queued r0 [dS] sevenB).dklBusy r0.eng = false
    ∧ (queued r0 [dS] sevenB).armCheck r0.eng (ArmKind.shed (shedLane dS)) = none
    ∧ (queued r0 [dR_8] shedB).Takes r0 18 (fun x => decide (x = 1)) dR_8
    ∧ (queued r0 [dR_8] shedB).dklBusy r0.eng = false
    ∧ (queued r0 [dR_8] shedB).armCheck r0.eng (ArmKind.restore (shedLane dR_8)) = none
    ∧ (queued r0 [dC] dkUp).Takes r0 17 (fun x => decide (x = 2)) dC
    ∧ ((queued r0 [dC] dkUp).dkl r0.eng).arm = none
    ∧ st152.Takes r0 17 (fun x => decide (x = 2)) dC
    ∧ st153.Takes r0 17 (fun x => decide (x = 2)) dC
    ∧ (st154.dkl (0 : Fin 4)).validating = some (ValFor.flip vRef none)
    ∧ ((∃ q, ValFor.flip vRef none = ValFor.flip q none ∧ ArmKind.flip = ArmKind.flip ∧ some vRef = some q) ∨ (∃ q j, ValFor.flip vRef
      none = ValFor.shed q j none ∧ ArmKind.flip = ArmKind.shed j ∧ some vRef = some q) ∨ ∃ j, ValFor.flip vRef none = ValFor.restore
      (some vRef) j none ∧ ArmKind.flip = ArmKind.restore j)
    ∧ (st154.dkl (0 : Fin 4)).arm = none
    ∧ st154.bit (Reg.dkl 0 0) 1 = false
    ∧ st154.armCheck (0 : Fin 4) ArmKind.flip = none
    ∧ pageFault (fun n => !st154.tribAbsent (0 : Fin 4) n) ((st154.dkl (0 : Fin 4)).page !(st154.dkl (0 : Fin 4)).activeB) = none
    ∧ st154.txEn (0 : Fin 4) = false
    ∧ (st155.dkl (0 : Fin 4)).validating = some (ValFor.flip vRef (some (9 : W32)))
    ∧ ((∃ q, ValFor.flip vRef (some (9 : W32)) = ValFor.flip q (some (9 : W32)) ∧ ArmKind.flip = ArmKind.flip ∧ some vRef = some q) ∨ (∃ q
      j, ValFor.flip vRef (some (9 : W32)) = ValFor.shed q j (some (9 : W32)) ∧ ArmKind.flip = ArmKind.shed j ∧ some vRef = some q) ∨ ∃ j,
      ValFor.flip vRef (some (9 : W32)) = ValFor.restore (some vRef) j (some (9 : W32)) ∧ ArmKind.flip = ArmKind.restore j)
    ∧ (st155.dkl (0 : Fin 4)).arm = none
    ∧ st155.bit (Reg.dkl 0 0) 1 = false
    ∧ st155.armCheck (0 : Fin 4) ArmKind.flip = none
    ∧ pageFault (fun n => !st155.tribAbsent (0 : Fin 4) n) ((st155.dkl (0 : Fin 4)).page !(st155.dkl (0 : Fin 4)).activeB) = none
    ∧ st155.txEn (0 : Fin 4) = true
    ∧ (st156.dkl (0 : Fin 4)).validating = some (ValFor.flip vRef none)
    ∧ (st156.dkl (0 : Fin 4)).arm = none
    ∧ st156.bit (Reg.dkl 0 0) 1 = false
    ∧ st156.armCheck (0 : Fin 4) ArmKind.flip = none
    ∧ (pageFault (fun n => !st156.tribAbsent (0 : Fin 4) n) ((st156.dkl (0 : Fin 4)).page !(st156.dkl (0 : Fin 4)).activeB)).isSome = true
    ∧ (st157.dkl (0 : Fin 4)).validating = some (ValFor.flip vRef none)
    ∧ (st157.dkl (0 : Fin 4)).arm = none
    ∧ st157.bit (Reg.dkl 0 0) 1 = false
    ∧ (st158.dkl (0 : Fin 4)).validating = some (ValFor.shed vRef (3 : Fin 8) none)
    ∧ ((∃ q, ValFor.shed vRef (3 : Fin 8) none = ValFor.flip q none ∧ ArmKind.shed (3 : Fin 8) = ArmKind.flip ∧ some vRef = some q) ∨ (∃ q
      j, ValFor.shed vRef (3 : Fin 8) none = ValFor.shed q j none ∧ ArmKind.shed (3 : Fin 8) = ArmKind.shed j ∧ some vRef = some q) ∨ ∃ j,
      ValFor.shed vRef (3 : Fin 8) none = ValFor.restore (some vRef) j none ∧ ArmKind.shed (3 : Fin 8) = ArmKind.restore j)
    ∧ (st158.dkl (0 : Fin 4)).arm = none
    ∧ st158.bit (Reg.dkl 0 0) 1 = false
    ∧ st158.armCheck (0 : Fin 4) (ArmKind.shed (3 : Fin 8)) = none
    ∧ pageFault (fun n => !st158.tribAbsent (0 : Fin 4) n) ((st158.dkl (0 : Fin 4)).page !(st158.dkl (0 : Fin 4)).activeB) = none
    ∧ st158.txEn (0 : Fin 4) = true
    ∧ (st159.dkl (0 : Fin 4)).validating = some (ValFor.restore none (3 : Fin 8) none)
    ∧ ((∃ q, ValFor.restore none (3 : Fin 8) none = ValFor.flip q none ∧ ArmKind.restore (3 : Fin 8) = ArmKind.flip ∧ none = some q) ∨ (∃
      q j, ValFor.restore none (3 : Fin 8) none = ValFor.shed q j none ∧ ArmKind.restore (3 : Fin 8) = ArmKind.shed j ∧ none = some q) ∨ ∃
      j, ValFor.restore none (3 : Fin 8) none = ValFor.restore none j none ∧ ArmKind.restore (3 : Fin 8) = ArmKind.restore j)
    ∧ (st159.dkl (0 : Fin 4)).arm = none
    ∧ st159.bit (Reg.dkl 0 0) 1 = false
    ∧ st159.armCheck (0 : Fin 4) (ArmKind.restore (3 : Fin 8)) = none
    ∧ pageFault (fun n => !st159.tribAbsent (0 : Fin 4) n) ((st159.dkl (0 : Fin 4)).page !(st159.dkl (0 : Fin 4)).activeB) = none
    ∧ st159.txEn (0 : Fin 4) = true
    ∧ st160.framerRuns (0 : Fin 4) = true
    ∧ (st160.line (0 : Fin 4)).inReam = false
    ∧ (st160.dkl (0 : Fin 4)).arm = some (pa (9 : W32))
    ∧ (if (st160.line (0 : Fin 4)).begun = true then (st160.line (0 : Fin 4)).rc + (1 : W32) else (0 : W32)) = (pa (9 : W32)).rcF
    ∧ st161.framerRuns (0 : Fin 4) = true
    ∧ (st161.line (0 : Fin 4)).inReam = false
    ∧ (st161.dkl (0 : Fin 4)).arm = some (pa (10 : W32))
    ∧ (if (st161.line (0 : Fin 4)).begun = true then (st161.line (0 : Fin 4)).rc + (1 : W32) else (0 : W32)) ≠ (pa (10 : W32)).rcF := by
  and_intros <;> first
    | decide +kernel
    | rfl
    | (unfold State.Takes; decide +kernel)
    | (unfold State.Issues; decide +kernel)
    | simp

/-- States and operands that meet the hypotheses of `KeysLoadAndRetire`. -/
theorem witness_KeysLoadAndRetire :
    (queued r2 [dInst] catUp).Takes r2 1 (fun x => decide (x = 0)) dInst
    ∧ (queued r2 [dInst] catUp).kstClosed = false
    ∧ (queued r2 [dInst] catUp).saInstCheck (ringPf r2) r2.eng dInst = none
    ∧ (queued r0 [dLpn] (saRes true catUp)).Takes r0 1 (fun x => decide (x = 1)) dLpn
    ∧ checkSainstUpdateLpn (queued r0 [dLpn] (saRes true catUp)) r0.eng dLpn = none
    ∧ (queued r0 [dLpn] (saRes true catUp)).ctxNow r0.eng (saxOf dLpn) = Except.ok c12
    ∧ st52.Takes r0 1 (fun x => decide (x = 1)) dLpn
    ∧ checkSainstUpdateLpn st52 r0.eng dLpn = none
    ∧ st52.ctxNow r0.eng (saxOf dLpn) = Except.error 2
    ∧ (queued r0 [dCur] (saRes false catUp)).Takes r0 1 (fun x => decide (x = 2)) dCur
    ∧ checkSainstSetcur (queued r0 [dCur] (saRes false catUp)) r0.eng dCur = none
    ∧ (queued r0 [dUnpin] saRes).Takes r0 3 (fun x => decide (x = 1)) dUnpin
    ∧ checkSapinUnpin (queued r0 [dUnpin] saRes) r0.eng dUnpin = none
    ∧ ((queued r0 [dUnpin] saRes).sac r0.eng).fillWait = []
    ∧ (queued r2 [dLk 0 [] 5] keySlot).Takes r2 24 (fun x => decide (x = 0)) (dLk 0 [] 5)
    ∧ (queued r2 [dLk 0 [] 5] keySlot).kstClosed = false
    ∧ (queued r2 [dLk 0 [] 5] keySlot).lkLoadCheck (ringPf r2) r2.eng (dLk 0 [] 5) = none
    ∧ st162.Takes r2 24 (fun x => decide (x = 0)) (dLk 0 [] 5)
    ∧ st162.kstClosed = true
    ∧ (queued r0 [dLk 1] lkUp).Takes r0 24 (fun x => decide (x = 1)) (dLk 1)
    ∧ ((queued r0 [dLk 1] lkUp).lkn r0.eng (lkOf (dLk 1))).loaded = true
    ∧ (queued r0 [dLk 2] lkUp).Takes r0 24 (fun x => decide (x = 2)) (dLk 2)
    ∧ ((queued r0 [dLk 2] lkUp).lkn r0.eng (lkOf (dLk 2))).loaded = true
    ∧ (queued r0 [dLk 6] lkUp).Takes r0 24 (fun x => decide (x = 6)) (dLk 6)
    ∧ ((queued r0 [dLk 6] lkUp).lkn r0.eng (lkOf (dLk 6))).loaded = true
    ∧ ((queued r0 [dLk 6] lkUp).lkn r0.eng (lkOf (dLk 6))).rx = true
    ∧ (queued r0 [dRt] (lkUp TxRole.done)).Takes r0 25 (fun x => true) dRt
    ∧ ((queued r0 [dRt] (lkUp TxRole.done)).lkn r0.eng (lkOf dRt)).loaded = true
    ∧ (((queued r0 [dRt] (lkUp TxRole.done)).lkn r0.eng (lkOf dRt)).tx = TxRole.idle ∨ ((queued r0 [dRt] (lkUp TxRole.done)).lkn r0.eng
      (lkOf dRt)).tx = TxRole.done) := by
  and_intros <;> first
    | decide +kernel
    | rfl
    | (unfold State.Takes; decide +kernel)
    | (unfold State.Issues; decide +kernel)
    | simp

/-- States and operands that meet the hypotheses of `LineKeysChange`. -/
theorem witness_LineKeysChange :
    (queued r0 [dLk 3 (leBytes 4 20)] lkUp).Takes r0 24 (fun x => decide (x = 3)) (dLk 3 (leBytes 4 20))
    ∧ checkLkarmArm (queued r0 [dLk 3 (leBytes 4 20)] lkUp) r0.eng (dLk 3 (leBytes 4 20)) = none
    ∧ (queued r0 [dLk 3 (leBytes 4 20)] lkUp).txEn r0.eng = false
    ∧ (queued r0 [dLk 3 (leBytes 4 20)] (lkUp TxRole.idle (lineUp atRc))).Takes r0 24 (fun x => decide (x = 3)) (dLk 3 (leBytes 4 20))
    ∧ checkLkarmArm (queued r0 [dLk 3 (leBytes 4 20)] (lkUp TxRole.idle (lineUp atRc))) r0.eng (dLk 3 (leBytes 4 20)) = none
    ∧ (queued r0 [dLk 3 (leBytes 4 20)] (lkUp TxRole.idle (lineUp atRc))).txEn r0.eng = true
    ∧ (queued r0 [dLk 3 (leBytes 4 8)] (lkUp TxRole.idle (lineUp atRc))).Takes r0 24 (fun x => decide (x = 3)) (dLk 3 (leBytes 4 8))
    ∧ checkLkarmArm (queued r0 [dLk 3 (leBytes 4 8)] (lkUp TxRole.idle (lineUp atRc))) r0.eng (dLk 3 (leBytes 4 8)) = none
    ∧ (queued r0 [dLk 3 (leBytes 4 8)] (lkUp TxRole.idle (lineUp atRc))).txEn r0.eng = true
    ∧ (queued r0 [dAt] (lkUp TxRole.idle (tbUp 9))).Takes r0 24 (fun x => decide (x = 4)) dAt
    ∧ dAt.time = some (dAt.time.getD 0)
    ∧ checkLkarmArm (queued r0 [dAt] (lkUp TxRole.idle (tbUp 9))) r0.eng dAt = none
    ∧ (queued r0 [dAt] (lkUp TxRole.idle (tbUp 9))).tbRun ((queued r0 [dAt] (lkUp TxRole.idle (tbUp 9))).lciTb r0.eng) = true
    ∧ (queued r0 [dAt] (lkUp TxRole.idle (tbUp 9))).txEn r0.eng = false
    ∧ (queued r0 [dAt] (lkUp TxRole.idle (tbUp 9 (lineUp atRc)))).Takes r0 24 (fun x => decide (x = 4)) dAt
    ∧ checkLkarmArm (queued r0 [dAt] (lkUp TxRole.idle (tbUp 9 (lineUp atRc)))) r0.eng dAt = none
    ∧ (queued r0 [dAt] (lkUp TxRole.idle (tbUp 9 (lineUp atRc)))).tbRun ((queued r0 [dAt] (lkUp TxRole.idle (tbUp 9 (lineUp atRc)))).lciTb
      r0.eng) = true
    ∧ (queued r0 [dAt] (lkUp TxRole.idle (tbUp 9 (lineUp atRc)))).txEn r0.eng = true
    ∧ (queued r0 [dLk 5] lkUp).Takes r0 24 (fun x => decide (x = 5)) (dLk 5)
    ∧ ((queued r0 [dLk 5] lkUp).lkn r0.eng (lkOf (dLk 5))).loaded = true
    ∧ ((queued r0 [dLk 5] lkUp).lkn r0.eng (lkOf (dLk 5))).tx = TxRole.idle
    ∧ (queued r0 [dLk 5] (kArm (ka none) up)).Takes r0 24 (fun x => decide (x = 5)) (dLk 5)
    ∧ ((queued r0 [dLk 5] (kArm (ka none) up)).lkn r0.eng (lkOf (dLk 5))).loaded = true
    ∧ ((queued r0 [dLk 5] (kArm (ka none) up)).lkn r0.eng (lkOf (dLk 5))).tx = TxRole.armed
    ∧ ((queued r0 [dLk 5] (kArm (ka none) up)).lci r0.eng).arm = some (ka none)
    ∧ (ka none).lkn = lkOf (dLk 5)
    ∧ (queued r0 [dLk 7] (lkUp TxRole.current (lineUp atRc))).Takes r0 24 (fun x => decide (x = 7)) (dLk 7)
    ∧ ((queued r0 [dLk 7] (lkUp TxRole.current (lineUp atRc))).lkn r0.eng (lkOf (dLk 7))).loaded = true
    ∧ ((queued r0 [dLk 7] (lkUp TxRole.current (lineUp atRc))).lkn r0.eng (lkOf (dLk 7))).tx = TxRole.current
    ∧ (queued r0 [dLk 7] (lkUp TxRole.current (lineUp atRc))).txEn r0.eng = true
    ∧ (queued r0 [dLk 7] (lkUp TxRole.current)).Takes r0 24 (fun x => decide (x = 7)) (dLk 7)
    ∧ ((queued r0 [dLk 7] (lkUp TxRole.current)).lkn r0.eng (lkOf (dLk 7))).loaded = true
    ∧ ((queued r0 [dLk 7] (lkUp TxRole.current)).lkn r0.eng (lkOf (dLk 7))).tx = TxRole.current
    ∧ (queued r0 [dLk 7] (lkUp TxRole.current)).txEn r0.eng = false
    ∧ (kArm (ka none) (lineUp atRc)).canonical = true
    ∧ (kArm (ka none) (lineUp atRc)).framerRuns (0 : Fin 4) = true
    ∧ ((kArm (ka none) (lineUp atRc)).line (0 : Fin 4)).inReam = false
    ∧ (kArm (ka (some 5)) (tbUp 9 (lineUp atRc))).canonical = true
    ∧ (kArm (ka (some 5)) (tbUp 9 (lineUp atRc))).framerRuns (0 : Fin 4) = true
    ∧ ((kArm (ka (some 5)) (tbUp 9 (lineUp atRc))).line (0 : Fin 4)).inReam = false
    ∧ st163.canonical = true
    ∧ st163.framerRuns (0 : Fin 4) = true
    ∧ (st163.line (0 : Fin 4)).inReam = false
    ∧ (st163.lci (0 : Fin 4)).arm = none := by
  and_intros <;> first
    | decide +kernel
    | rfl
    | (unfold State.Takes; decide +kernel)
    | (unfold State.Issues; decide +kernel)
    | simp

/-- States and operands that meet the hypotheses of `LanesTrain`. -/
theorem witness_LanesTrain :
    (rxl RxState.fastCheck).st = RxState.fastCheck
    ∧ (rxl RxState.adapt 3).st = RxState.adapt
    ∧ (rxl RxState.adapt 2).st = RxState.adapt
    ∧ (rxl RxState.track 0 3).st = RxState.track
    ∧ (rxl RxState.track 0 2).st = RxState.track
    ∧ (rxl RxState.cdr).st = RxState.cdr
    ∧ up.laneLive (5 : Fin 68) = true
    ∧ modeListed (5 : Fin 68) 4 = true
    ∧ up.canonical = true
    ∧ st164.laneLive (5 : Fin 68) = true
    ∧ modeListed (5 : Fin 68) 0 = true
    ∧ st164.canonical = true
    ∧ (st165.lane (5 : Fin 68)).txIdle = true
    ∧ (st165.setUnlocked (5 : Fin 68) false).txMay (5 : Fin 68) = true
    ∧ (st166.lane (67 : Fin 68)).txIdle = false
    ∧ (st167.lane (5 : Fin 68)).burst = true
    ∧ st168.laneLive (5 : Fin 68) = true
    ∧ st168.canonical = true
    ∧ (st168.bit (Reg.ser 5 0) 1 = true ∧ st168.laneMode 5 ≠ 0 ∧ st168.modeErr (5 : Fin 68) = false)
    ∧ (st168.lane (5 : Fin 68)).sigDet = false
    ∧ (st168.lane (5 : Fin 68)).st = RxState.waitSig
    ∧ (laneUp (67 : Fin 68) 57394 (rxl RxState.track)).laneLive (67 : Fin 68) = true
    ∧ (laneUp (67 : Fin 68) 57394 (rxl RxState.track)).canonical = true
    ∧ ((laneUp (67 : Fin 68) 57394 (rxl RxState.track)).bit (Reg.ser 67 0) 1 = true ∧ (laneUp (67 : Fin 68) 57394 (rxl
      RxState.track)).laneMode 67 ≠ 0 ∧ (laneUp (67 : Fin 68) 57394 (rxl RxState.track)).modeErr (67 : Fin 68) = false)
    ∧ ((laneUp (67 : Fin 68) 57394 (rxl RxState.track)).lane (67 : Fin 68)).sigDet = true
    ∧ ((laneUp (67 : Fin 68) 57394 (rxl RxState.track)).lane (67 : Fin 68)).st ≠ RxState.disabled
    ∧ (laneUp (5 : Fin 68) 57354 (rxl RxState.cdr)).laneLive (5 : Fin 68) = true
    ∧ (laneUp (5 : Fin 68) 57354 (rxl RxState.cdr)).canonical = true
    ∧ ((laneUp (5 : Fin 68) 57354 (rxl RxState.cdr)).bit (Reg.ser 5 0) 1 = true ∧ (laneUp (5 : Fin 68) 57354 (rxl RxState.cdr)).laneMode 5
      ≠ 0 ∧ (laneUp (5 : Fin 68) 57354 (rxl RxState.cdr)).modeErr (5 : Fin 68) = false)
    ∧ ((laneUp (5 : Fin 68) 57354 (rxl RxState.cdr)).lane (5 : Fin 68)).st = RxState.cdr
    ∧ st169.laneLive (5 : Fin 68) = true
    ∧ st169.canonical = true
    ∧ (st169.bit (Reg.ser 5 0) 1 = true ∧ st169.laneMode 5 ≠ 0 ∧ st169.modeErr (5 : Fin 68) = false)
    ∧ (st169.lane (5 : Fin 68)).st = RxState.cdr
    ∧ (laneUp (5 : Fin 68) 57354 (rxl RxState.track)).laneLive (5 : Fin 68) = true
    ∧ (laneUp (5 : Fin 68) 57354 (rxl RxState.track)).canonical = true
    ∧ ((laneUp (5 : Fin 68) 57354 (rxl RxState.track)).bit (Reg.ser 5 0) 1 = true ∧ (laneUp (5 : Fin 68) 57354 (rxl
      RxState.track)).laneMode 5 ≠ 0 ∧ (laneUp (5 : Fin 68) 57354 (rxl RxState.track)).modeErr (5 : Fin 68) = false)
    ∧ ((laneUp (5 : Fin 68) 57354 (rxl RxState.track)).lane (5 : Fin 68)).st ≠ RxState.disabled
    ∧ ((laneUp (5 : Fin 68) 57354 (rxl RxState.track)).lane (5 : Fin 68)).st ≠ RxState.waitSig
    ∧ (laneUp (67 : Fin 68) 57394 (rxl RxState.adapt)).laneLive (67 : Fin 68) = true
    ∧ (laneUp (67 : Fin 68) 57394 (rxl RxState.adapt)).canonical = true
    ∧ ((laneUp (67 : Fin 68) 57394 (rxl RxState.adapt)).bit (Reg.ser 67 0) 1 = true ∧ (laneUp (67 : Fin 68) 57394 (rxl
      RxState.adapt)).laneMode 67 ≠ 0 ∧ (laneUp (67 : Fin 68) 57394 (rxl RxState.adapt)).modeErr (67 : Fin 68) = false)
    ∧ (((laneUp (67 : Fin 68) 57394 (rxl RxState.adapt)).lane (67 : Fin 68)).st = RxState.cdr ∨ ((laneUp (67 : Fin 68) 57394 (rxl
      RxState.adapt)).lane (67 : Fin 68)).st = RxState.adapt)
    ∧ natBit 2147483648 31 = true
    ∧ ((laneUp (5 : Fin 68) 57354 (rxl RxState.track)).lane (5 : Fin 68)).eyeBusy = false
    ∧ ((laneUp (5 : Fin 68) 57354 (rxl RxState.track)).lane (5 : Fin 68)).st = RxState.track
    ∧ (laneUp (5 : Fin 68) 57354 (rxl RxState.adapt)).laneLive (5 : Fin 68) = true
    ∧ ((laneUp (5 : Fin 68) 57354 (rxl RxState.adapt)).lane (5 : Fin 68)).eyeBusy = false
    ∧ ((laneUp (5 : Fin 68) 57354 (rxl RxState.adapt)).lane (5 : Fin 68)).st ≠ RxState.track
    ∧ (st170.lane (5 : Fin 68)).eyeBusy = true := by
  and_intros <;> first
    | decide +kernel
    | rfl
    | (unfold State.Takes; decide +kernel)
    | (unfold State.Issues; decide +kernel)
    | simp

/-- States and operands that meet the hypotheses of `FeltLinkCarries`. -/
theorem witness_FeltLinkCarries :
    { : FeltLane }.st = FeltSync.loss
    ∧ { st := FeltSync.acq, commas := 3 : FeltLane }.st = FeltSync.acq
    ∧ { st := FeltSync.acq, commas := 2 : FeltLane }.st = FeltSync.acq
    ∧ { st := FeltSync.sync, errs := 3 : FeltLane }.st = FeltSync.sync
    ∧ (feltUp syn).feltLive = true
    ∧ (feltUp syn).laneDelivers (⟨64 + 0, by omega⟩ : Fin 68) = true
    ∧ feltUp.feltLive = true
    ∧ feltUp.laneDelivers (⟨64 + 0, by omega⟩ : Fin 68) = true
    ∧ feltUp.felt.up = false
    ∧ (feltUp inF).felt.up = true
    ∧ (feltUp inF).felt.inFrame = true
    ∧ slotData [FeltChar.data (1 : Byte), FeltChar.data (2 : Byte), FeltChar.data (3 : Byte), FeltChar.data (4 : Byte)] = some [(1 :
      Byte), (2 : Byte), (3 : Byte), (4 : Byte)]
    ∧ st171.felt.up = true
    ∧ st171.felt.inFrame = false
    ∧ (feltUp inF).felt.bad = false
    ∧ (feltUp inF).feltLive = true
    ∧ mateUp.felt.up = true
    ∧ mateUp.mte.key = some (List.replicate 32 (8 : Byte))
    ∧ st181.mte.key = some (List.replicate 32 (8 : Byte))
    ∧ st181.felt.up = true
    ∧ st181.mte.st = MState.active
    ∧ st181.mte.hbOutVals.length = 8
    ∧ (mateUp (seen 4)).mte.key = some (List.replicate 32 (8 : Byte))
    ∧ (mateUp (seen 4)).felt.up = true
    ∧ ((mateUp (seen 4)).mte.st = MState.standby ∨ (mateUp (seen 4)).mte.st = MState.sync)
    ∧ (mateUp (seen 4)).mte.follow[(0 : Fin 4)].valid = true
    ∧ ((mateUp (seen 4)).defWord (0 : Fin 4)).getLsbD 2 = false
    ∧ (mateUp (seen 4)).mte.follow[(0 : Fin 4)].peerDef.getLsbD 2 = true
    ∧ (st182.mte.st = MState.standby ∨ st182.mte.st = MState.sync)
    ∧ st182.mte.follow[(0 : Fin 4)].valid = true
    ∧ (st182.defWord (0 : Fin 4)).getLsbD 2 = true
    ∧ st182.mte.follow[(0 : Fin 4)].peerDef.getLsbD 2 = false := by
  and_intros <;> first
    | decide +kernel
    | rfl
    | (unfold State.Takes; decide +kernel)
    | (unfold State.Issues; decide +kernel)
    | simp

/-- States and operands that meet the hypotheses of `InterlockGrantsTheLine`. -/
theorem witness_InterlockGrantsTheLine :
    (mateUp (lk Interlock.claim MState.taking) (lo true)).pads.mateActIn = false
    ∧ (mateUp (lk Interlock.claim MState.taking) (lo true)).mte.lock = Interlock.claim
    ∧ (mateUp (lk Interlock.claim MState.taking) (lo true)).pads.mateSide = true
    ∧ (mateUp (lk Interlock.claim) (lo false)).pads.mateActIn = false
    ∧ (mateUp (lk Interlock.claim) (lo false)).mte.lock = Interlock.claim
    ∧ (mateUp (lk Interlock.claim) (lo false)).pads.mateSide = false
    ∧ (mateUp (lk Interlock.granted) (lo true)).pads.mateActIn = false
    ∧ (mateUp (lk Interlock.granted) (lo true)).mte.lock = Interlock.granted
    ∧ (mateUp (lk Interlock.granted) (lo true)).pads.mateSide = true
    ∧ (mateUp (lk Interlock.granted) (lo false)).pads.mateActIn = false
    ∧ (mateUp (lk Interlock.granted) (lo false)).mte.lock = Interlock.granted
    ∧ (mateUp (lk Interlock.granted) (lo false)).pads.mateSide = false
    ∧ (mateUp (lk Interlock.claim) (hi false)).pads.mateActIn = true
    ∧ (mateUp (lk Interlock.claim) (hi false)).mte.lock = Interlock.claim
    ∧ (mateUp (lk Interlock.off) (hi false)).pads.mateActIn = true
    ∧ (mateUp (lk Interlock.off) (hi false)).mte.lock = Interlock.off
    ∧ (mateUp (lk Interlock.off) (hi false)).claims = true
    ∧ (mateUp (lk Interlock.claim) (lo false)).mte.timer = true
    ∧ (mateUp (lk Interlock.claim) (lo false)).mte.st ≠ MState.taking
    ∧ st172.mte.lock = Interlock.claim
    ∧ st172.mte.timer = true
    ∧ st172.pads.mateActIn = false
    ∧ st172.mte.st = MState.taking
    ∧ (mateUp (lk Interlock.releasing) (lo false)).mte.lock = Interlock.releasing
    ∧ (mateUp (lk Interlock.releasing) (lo false)).mte.st ≠ MState.standby
    ∧ (mateUp (lk Interlock.releasing MState.released) (lo false)).mte.lock = Interlock.releasing
    ∧ (mateUp (lk Interlock.releasing MState.released) (lo false)).mte.st ≠ MState.standby := by
  and_intros <;> first
    | decide +kernel
    | rfl
    | (unfold State.Takes; decide +kernel)
    | (unfold State.Issues; decide +kernel)
    | simp

/-- States and operands that meet the hypotheses of `MateIsCommanded`. -/
theorem witness_MateIsCommanded :
    (mateUp act).feltLive = true
    ∧ (mateUp act).mte.st = MState.active
    ∧ (mateUp (lk Interlock.claim MState.taking)).feltLive = true
    ∧ (mateUp (lk Interlock.claim MState.taking)).mte.st = MState.taking
    ∧ (mateUp (lk Interlock.claim MState.taking)).canonical = true
    ∧ (mateUp (lk Interlock.off)).feltLive = true
    ∧ (mateUp (lk Interlock.off)).mte.st = MState.unpaired
    ∧ (mateUp (lk Interlock.off)).mte.lock = Interlock.off
    ∧ (mateUp (lk Interlock.off)).pads.mateActIn = false
    ∧ (mateUp (lk Interlock.off)).canonical = true
    ∧ st173.feltLive = true
    ∧ st173.canonical = true
    ∧ st173.mte.st = MState.unpaired
    ∧ st173.felt.up = true
    ∧ st173.mte.nonce = none
    ∧ st173.mte.nonceWait = false
    ∧ st173.rng.st ≠ RngState.failed
    ∧ (mateUp act).peerReady = true
    ∧ st174.feltLive = true
    ∧ st174.mte.st = MState.active
    ∧ st174.peerReady = false
    ∧ mateUp.feltLive = true
    ∧ mateUp.mte.st ≠ MState.active
    ∧ (mateUp act).bit (Reg.mte 0) 2 = true
    ∧ st175.feltLive = true
    ∧ st175.mte.silent = false
    ∧ st175.mte.heardAt ≠ some st175.now
    ∧ st176.mte.selftesting = true
    ∧ st176.mte.st = MState.active
    ∧ st176.bit (Reg.mte 0) 2 = true
    ∧ st176.peerReady = true
    ∧ st177.mte.selftesting = true
    ∧ st177.mte.st = MState.sync
    ∧ st177.mte.synced = true
    ∧ st178.mte.st = MState.released
    ∧ st178.pads.mateActIn = false
    ∧ st178.bit (Reg.mte 0) 3 = true
    ∧ st178.mte.cause ≠ 1
    ∧ st179.mte.fresh = true
    ∧ st179.mte.freshAt ≠ some st179.now
    ∧ st180.mgmtLive = true
    ∧ st180.mte.aGood = true
    ∧ st180.mte.bGood = true
    ∧ mateUp.mgmtLive = true
    ∧ mateUp.mte.aGood = false
    ∧ mateUp.mte.bGood = false := by
  and_intros <;> first
    | decide +kernel
    | rfl
    | (unfold State.Takes; decide +kernel)
    | (unfold State.Issues; decide +kernel)
    | simp

/-- States and operands that meet the hypotheses of `MatesPair`. -/
theorem witness_MatesPair :
    (told 1 (helloB 1 1)).feltHead 1 = some (inp (helloB 1 1), rst (told 1 (helloB 1 1)))
    ∧ (told 1 (helloB 1 1)).mte.nonce.isSome = true
    ∧ (told 1 (helloB 1 1)).kstClosed = false
    ∧ decide ((inp (helloB 1 1)).u 2 1 ≠ 0) ≠ (told 1 (helloB 1 1)).pads.mateSide
    ∧ (¬min 1 ((inp (helloB 1 1)).u 1 1) < max 1 ((inp (helloB 1 1)).u 0 1))
    ∧ (told 1 (helloB 1 1)).pairSlotOk = false
    ∧ (told 1 (helloB 0 1)).feltHead 1 = some (inp (helloB 0 1), rst (told 1 (helloB 0 1)))
    ∧ (told 1 (helloB 0 1)).mte.nonce.isSome = true
    ∧ (told 1 (helloB 0 1)).kstClosed = false
    ∧ decide ((inp (helloB 0 1)).u 2 1 ≠ 0) = (told 1 (helloB 0 1)).pads.mateSide
    ∧ (told 1 (helloB 1 0)).feltHead 1 = some (inp (helloB 1 0), rst (told 1 (helloB 1 0)))
    ∧ (told 1 (helloB 1 0)).mte.nonce.isSome = true
    ∧ (told 1 (helloB 1 0)).kstClosed = false
    ∧ decide ((inp (helloB 1 0)).u 2 1 ≠ 0) ≠ (told 1 (helloB 1 0)).pads.mateSide
    ∧ min 1 ((inp (helloB 1 0)).u 1 1) < max 1 ((inp (helloB 1 0)).u 0 1)
    ∧ (told 1 (helloB 1 1) id id pairKey).feltHead 1 = some (inp (helloB 1 1), rst (told 1 (helloB 1 1) id id pairKey))
    ∧ (told 1 (helloB 1 1) id id pairKey).mte.nonce.isSome = true
    ∧ (told 1 (helloB 1 1) id id pairKey).kstClosed = false
    ∧ decide ((inp (helloB 1 1)).u 2 1 ≠ 0) ≠ (told 1 (helloB 1 1) id id pairKey).pads.mateSide
    ∧ (told 1 (helloB 1 1) id id pairKey).pairSlotOk = true
    ∧ (told 2 (confB 1) prg).feltHead 2 = some (inp (confB 1), rst (told 2 (confB 1) prg))
    ∧ ((inp (confB 1)).u 0 1 = (told 2 (confB 1) prg).mte.ver ∧ some (slice (inp (confB 1)).body 4 24) = (told 2 (confB 1) prg).mte.nonce)
    ∧ (told 2 (confB 1) prg).mte.st = MState.pairing
    ∧ ((told 2 (confB 1) prg).mte.lock = Interlock.granted ∨ (told 2 (confB 1) prg).mte.peerGrant = false ∧ (told 2 (confB 1)
      prg).pads.mateSide = false)
    ∧ (told 2 (confB 2) prg).feltHead 2 = some (inp (confB 2), rst (told 2 (confB 2) prg))
    ∧ (¬((inp (confB 2)).u 0 1 = (told 2 (confB 2) prg).mte.ver ∧ some (slice (inp (confB 2)).body 4 24) = (told 2 (confB 2)
      prg).mte.nonce))
    ∧ (told 2 (confB 1) prg (lo true)).feltHead 2 = some (inp (confB 1), rst (told 2 (confB 1) prg (lo true)))
    ∧ ((inp (confB 1)).u 0 1 = (told 2 (confB 1) prg (lo true)).mte.ver ∧ some (slice (inp (confB 1)).body 4 24) = (told 2 (confB 1) prg
      (lo true)).mte.nonce)
    ∧ (told 2 (confB 1) prg (lo true)).mte.st = MState.pairing
    ∧ (¬((told 2 (confB 1) prg (lo true)).mte.lock = Interlock.granted ∨ (told 2 (confB 1) prg (lo true)).mte.peerGrant = false ∧ (told 2
      (confB 1) prg (lo true)).pads.mateSide = false))
    ∧ (told 48 [(0 : Byte), (0 : Byte), (0 : Byte), (1 : Byte)] act).feltHead 48 = some (inp [(0 : Byte), (0 : Byte), (0 : Byte), (1 :
      Byte)], rst (told 48 [(0 : Byte), (0 : Byte), (0 : Byte), (1 : Byte)] act))
    ∧ (told 48 [(0 : Byte), (0 : Byte), (0 : Byte), (1 : Byte)] act).mte.st = MState.active
    ∧ (told 48 [(0 : Byte), (0 : Byte), (0 : Byte), (1 : Byte)] act).bit (Reg.mte 0) 2 = true
    ∧ (told 48 [(0 : Byte), (0 : Byte), (0 : Byte), (1 : Byte)] act).hardFault = true
    ∧ (BitVec.ofNat 32 ((inp [(0 : Byte), (0 : Byte), (0 : Byte), (1 : Byte)]).u 0 4)).getLsbD 0 = true
    ∧ (told 48 [(0 : Byte), (0 : Byte), (1 : Byte), (0 : Byte)] act (lo false) keysUp).feltHead 48 = some (inp [(0 : Byte), (0 : Byte), (1
      : Byte), (0 : Byte)], rst (told 48 [(0 : Byte), (0 : Byte), (1 : Byte), (0 : Byte)] act (lo false) keysUp))
    ∧ (told 48 [(0 : Byte), (0 : Byte), (1 : Byte), (0 : Byte)] act (lo false) keysUp).mte.st = MState.active
    ∧ (told 48 [(0 : Byte), (0 : Byte), (1 : Byte), (0 : Byte)] act (lo false) keysUp).bit (Reg.mte 0) 2 = true
    ∧ (told 48 [(0 : Byte), (0 : Byte), (1 : Byte), (0 : Byte)] act (lo false) keysUp).hardFault = false
    ∧ (BitVec.ofNat 32 ((inp [(0 : Byte), (0 : Byte), (1 : Byte), (0 : Byte)]).u 0 4)).getLsbD 8 = true
    ∧ BitVec.getLsbD (told 48 [(0 : Byte), (0 : Byte), (1 : Byte), (0 : Byte)] act (lo false) keysUp).mte.peerHealth 8 = false
    ∧ (BitVec.ofNat 32 ((inp [(0 : Byte), (0 : Byte), (1 : Byte), (0 : Byte)]).u 0 4)).getLsbD 0 = false
    ∧ (told 64 [(4 : Byte)] act).feltHead 64 = some (inp [(4 : Byte)], rst (told 64 [(4 : Byte)] act))
    ∧ (told 64 [(4 : Byte)] act).mte.st = MState.active
    ∧ (told 64 [(4 : Byte)] act).bit (Reg.mte 0) 2 = true
    ∧ (told 64 [(4 : Byte)] act).peerReady = true
    ∧ (told 64 [(4 : Byte)] act0).feltHead 64 = some (inp [(4 : Byte)], rst (told 64 [(4 : Byte)] act0))
    ∧ (told 64 [(4 : Byte)] act0).mte.st = MState.active
    ∧ (told 64 [(4 : Byte)] act0).bit (Reg.mte 0) 2 = true
    ∧ (told 64 [(4 : Byte)] act0).peerReady = false
    ∧ (act1 (told 64 [(4 : Byte)] act)).feltHead 64 = some (inp [(4 : Byte)], act1 (rst (told 64 [(4 : Byte)] act)))
    ∧ (act1 (told 64 [(4 : Byte)] act)).mte.st = MState.active
    ∧ (act1 (told 64 [(4 : Byte)] act)).bit (Reg.mte 0) 2 = false
    ∧ (told 65 [(4 : Byte)] rdy (hi false) memGood 7).feltHead 65 = some (inp [(4 : Byte)] 7, rst (told 65 [(4 : Byte)] rdy (hi false)
      memGood 7))
    ∧ (told 65 [(4 : Byte)] rdy (hi false) memGood 7).mte.st = MState.standby
    ∧ (told 65 [(4 : Byte)] rdy (hi false) memGood 7).mateReady = true
    ∧ (told 127 [] act).feltHead 127 = some (inp [], rst (told 127 [] act))
    ∧ (told 127 [] act).felt.up = true
    ∧ (told 127 [] act).mte.key.isSome = true
    ∧ (told 127 [] act).mte.st = MState.active
    ∧ (told 127 [] rdy).feltHead 127 = some (inp [], rst (told 127 [] rdy))
    ∧ (told 127 [] rdy).felt.up = true
    ∧ (told 127 [] rdy).mte.key.isSome = true
    ∧ (told 127 [] rdy).mte.st ≠ MState.active := by
  and_intros <;> first
    | decide +kernel
    | rfl
    | (unfold State.Takes; decide +kernel)
    | (unfold State.Issues; decide +kernel)
    | simp

/-- States and operands that meet the hypotheses of `FollowersKeepUp`. -/
theorem witness_FollowersKeepUp :
    (recOf 1).accepted = true
    ∧ (recOf 2).accepted = true
    ∧ (recOf 1).dig ≠ (recOf 2).dig
    ∧ (told 16 (dB 5) syc).feltHead 16 = some (inp (dB 5), rst (told 16 (dB 5) syc))
    ∧ ((told 16 (dB 5) syc).mte.st = MState.sync ∨ (told 16 (dB 5) syc).mte.st = MState.standby ∨ (told 16 (dB 5) syc).mte.st =
      MState.taking)
    ∧ BitVec.ofNat 32 ((inp (dB 5)).u 0 4) = (told 16 (dB 5) syc).mte.rxDseq + (1 : BitVec 32)
    ∧ (told 16 (dB 5) syc).mte.st ≠ MState.taking
    ∧ (told 16 (dB 4) syc).feltHead 16 = some (inp (dB 4), rst (told 16 (dB 4) syc))
    ∧ ((told 16 (dB 4) syc).mte.st = MState.sync ∨ (told 16 (dB 4) syc).mte.st = MState.standby ∨ (told 16 (dB 4) syc).mte.st =
      MState.taking)
    ∧ BitVec.ofNat 32 ((inp (dB 4)).u 0 4) ≠ (told 16 (dB 4) syc).mte.rxDseq + (1 : BitVec 32)
    ∧ BitVec.toNat ((told 16 (dB 4) syc).mte.rxDseq - BitVec.ofNat 32 ((inp (dB 4)).u 0 4)) < 2 ^ 31
    ∧ (told 16 (dB 4) syc).mte.st ≠ MState.taking
    ∧ (told 16 (dB 6) syc).feltHead 16 = some (inp (dB 6), rst (told 16 (dB 6) syc))
    ∧ ((told 16 (dB 6) syc).mte.st = MState.sync ∨ (told 16 (dB 6) syc).mte.st = MState.standby ∨ (told 16 (dB 6) syc).mte.st =
      MState.taking)
    ∧ BitVec.ofNat 32 ((inp (dB 6)).u 0 4) ≠ (told 16 (dB 6) syc).mte.rxDseq + (1 : BitVec 32)
    ∧ (told 16 (dB 6) syc).mte.st ≠ MState.taking
    ∧ 2 ^ 31 ≤ BitVec.toNat ((told 16 (dB 6) syc).mte.rxDseq - BitVec.ofNat 32 ((inp (dB 6)).u 0 4))
    ∧ (told 16 (dB 5) act).feltHead 16 = some (inp (dB 5), rst (told 16 (dB 5) act))
    ∧ (¬((told 16 (dB 5) act).mte.st = MState.sync ∨ (told 16 (dB 5) act).mte.st = MState.standby ∨ (told 16 (dB 5) act).mte.st =
      MState.taking))
    ∧ (told 17 (dB 5) syc).feltHead 17 = some (inp (dB 5), rst (told 17 (dB 5) syc))
    ∧ ((told 17 (dB 5) syc).mte.st = MState.sync ∨ (told 17 (dB 5) syc).mte.st = MState.released)
    ∧ (told 17 (dB 5) act).feltHead 17 = some (inp (dB 5), rst (told 17 (dB 5) act))
    ∧ (told 17 (dB 5) act).mte.st ≠ MState.sync
    ∧ (told 17 (dB 5) act).mte.st ≠ MState.released
    ∧ (told 18 (dB 4 ++ dB 2) (sn 2)).feltHead 18 = some (inp (dB 4 ++ dB 2), rst (told 18 (dB 4 ++ dB 2) (sn 2)))
    ∧ (told 18 (dB 4 ++ dB 2) (sn 2)).mte.st = MState.sync
    ∧ (told 18 (dB 4 ++ dB 2) (sn 2)).mte.snaps = (inp (dB 4 ++ dB 2)).u 4 4
    ∧ (told 18 (dB 4 ++ dB 2) (sn 1)).feltHead 18 = some (inp (dB 4 ++ dB 2), rst (told 18 (dB 4 ++ dB 2) (sn 1)))
    ∧ (told 18 (dB 4 ++ dB 2) (sn 1)).mte.st = MState.sync
    ∧ (told 18 (dB 4 ++ dB 2) (sn 1)).mte.snaps ≠ (inp (dB 4 ++ dB 2)).u 4 4
    ∧ (told 19 (dB 4) act).feltHead 19 = some (inp (dB 4), rst (told 19 (dB 4) act))
    ∧ (told 32 dig rdy).feltHead 32 = some (inp dig, rst (told 32 dig rdy))
    ∧ ((told 32 dig rdy).mte.st = MState.sync ∨ (told 32 dig rdy).mte.st = MState.standby ∨ (told 32 dig rdy).mte.st = MState.taking)
    ∧ (told 33 (List.replicate 12 (0 : Byte)) rdy).feltHead 33 = some (inp (List.replicate 12 (0 : Byte)), rst (told 33 (List.replicate 12
      (0 : Byte)) rdy))
    ∧ ((told 33 (List.replicate 12 (0 : Byte)) rdy).mte.st = MState.sync ∨ (told 33 (List.replicate 12 (0 : Byte)) rdy).mte.st =
      MState.standby ∨ (told 33 (List.replicate 12 (0 : Byte)) rdy).mte.st = MState.taking)
    ∧ (told 49 (List.replicate 128 (1 : Byte)) hbs).feltHead 49 = some (inp (List.replicate 128 (1 : Byte)), rst (told 49 (List.replicate
      128 (1 : Byte)) hbs))
    ∧ (told 49 (List.replicate 128 (1 : Byte)) hbs).mte.st = MState.standby
    ∧ (told 49 (List.replicate 128 (1 : Byte)) hbs).mte.hbVals.length = 8 := by
  and_intros <;> first
    | decide +kernel
    | rfl
    | (unfold State.Takes; decide +kernel)
    | (unfold State.Issues; decide +kernel)
    | simp

/-- States and operands that meet the hypotheses of `CountersAndRecords`. -/
theorem witness_CountersAndRecords :
    tsorted st184.cnt = true
    ∧ pmUp.mgmtLive = true
    ∧ pmUp.hasBlock 95 = true
    ∧ pmUp.pmc.busy = false
    ∧ st185.mgmtLive = true
    ∧ st185.pmc.busy = true
    ∧ (pmUp.setFld (Reg.evr 0) 4 16 5).mgmtLive = true
    ∧ (pmUp.setFld (Reg.evr 0) 4 16 5).fld (Reg.evr 0) 4 16 ≠ 0
    ∧ (pmUp.setFld (Reg.evr 0) 4 16 5).evr.queue.length < 32
    ∧ up.evrPath = true
    ∧ (evUp id).mgmtLive = true
    ∧ (evUp id).evr.queue = [hap 1]
    ∧ List.find? (hap 1).merges (evUp id).evr.hist = none
    ∧ st186.mgmtLive = true
    ∧ st186.evr.queue = [hap 1]
    ∧ (evUp id).evr.queue.length < 32
    ∧ 32 ≤ st187.evr.queue.length
    ∧ (true = true ∨ 1023 < 256)
    ∧ (false = true ∨ 255 < 256) := by
  and_intros <;> first
    | decide +kernel
    | rfl
    | (unfold State.Takes; decide +kernel)
    | (unfold State.Issues; decide +kernel)
    | simp

/-- States and operands that meet the hypotheses of `RegistersAreAccessed`. -/
theorem witness_RegistersAreAccessed :
    up.rst.porHeld = false
    ∧ (100663297 % 4 ≠ 0 ∨ up.regLive 100663297 = false)
    ∧ 16777236 % 4 = 0
    ∧ up.regLive 16777236 = true
    ∧ 1052674 % 4 ≠ 0
    ∧ 16777472 % 4 = 0
    ∧ up.regLive 16777472 = true
    ∧ (up.setReg (Reg.lnf 2 20) 51).canonical = true
    ∧ 17 < 2 ^ 32
    ∧ st188.hstLive = true
    ∧ st188.hst.masked.getLsbD 3 = true
    ∧ st188.hst.pba.getLsbD 3 = true
    ∧ up.mgmtLive = true := by
  and_intros <;> first
    | decide +kernel
    | rfl
    | (unfold State.Takes; decide +kernel)
    | (unfold State.Issues; decide +kernel)
    | simp

/-- States and operands that meet the hypotheses of `SheetIvIsSaltXorSeq`. -/
theorem witness_SheetIvIsSaltXorSeq :
    2 ^ 96 - 1 < 2 ^ 96
    ∧ 2 ^ 32 - 1 < 2 ^ 32
    ∧ 2 ^ 48 < 2 ^ 64
    ∧ (keyed 5 (grantUp inRm)).framerRuns (0 : Fin 4) = true
    ∧ ((keyed 5 (grantUp inRm)).line (0 : Fin 4)).inReam = true
    ∧ (keyed 5 (grantUp inRm)).permitted = true
    ∧ (keyed 5 (grantUp inRm)).keyedUnder (0 : Fin 4) = some (2 : Fin 4) := by
  and_intros <;> first
    | decide +kernel
    | rfl
    | (unfold State.Takes; decide +kernel)
    | (unfold State.Issues; decide +kernel)
    | simp

/-- States and operands that meet the hypotheses of `LaneModesAreListed`. -/
theorem witness_LaneModesAreListed :
    up.laneLive (5 : Fin 68) = true
    ∧ up.canonical = true
    ∧ (4 = 0 ∨ 5 < 32 ∧ 1 ≤ 4 ∧ 4 ≤ 4 ∨ 32 ≤ 5 ∧ 5 < 64 ∧ 8 ≤ 4 ∧ 4 ≤ 10 ∨ 64 ≤ 5 ∧ 4 = 12)
    ∧ up.laneLive (63 : Fin 68) = true
    ∧ (10 = 0 ∨ 63 < 32 ∧ 1 ≤ 10 ∧ 10 ≤ 4 ∨ 32 ≤ 63 ∧ 63 < 64 ∧ 8 ≤ 10 ∧ 10 ≤ 10 ∨ 64 ≤ 63 ∧ 10 = 12)
    ∧ up.laneLive (64 : Fin 68) = true
    ∧ (12 = 0 ∨ 64 < 32 ∧ 1 ≤ 12 ∧ 12 ≤ 4 ∨ 32 ≤ 64 ∧ 64 < 64 ∧ 8 ≤ 12 ∧ 12 ≤ 10 ∨ 64 ≤ 64 ∧ 12 = 12)
    ∧ up.laneLive (31 : Fin 68) = true
    ∧ (¬(5 = 0 ∨ 31 < 32 ∧ 1 ≤ 5 ∧ 5 ≤ 4 ∨ 32 ≤ 31 ∧ 31 < 64 ∧ 8 ≤ 5 ∧ 5 ≤ 10 ∨ 64 ≤ 31 ∧ 5 = 12))
    ∧ up.laneLive (32 : Fin 68) = true
    ∧ (¬(11 = 0 ∨ 32 < 32 ∧ 1 ≤ 11 ∧ 11 ≤ 4 ∨ 32 ≤ 32 ∧ 32 < 64 ∧ 8 ≤ 11 ∧ 11 ≤ 10 ∨ 64 ≤ 32 ∧ 11 = 12)) := by
  and_intros <;> first
    | decide +kernel
    | rfl
    | (unfold State.Takes; decide +kernel)
    | (unfold State.Issues; decide +kernel)
    | simp

/-- States and operands that meet the hypotheses of `RisePreventsGrant`. -/
theorem witness_RisePreventsGrant :
    st189.mte.lock = Interlock.claim
    ∧ st189.pads.mateActIn = false := by
  and_intros <;> first
    | decide +kernel
    | rfl
    | (unfold State.Takes; decide +kernel)
    | (unfold State.Issues; decide +kernel)
    | simp

/-! ## Well-formed commands: one ill-formed command for each check -/

/-- A lane's part of a sheet. -/
def okLane : LaneRx := { prior := 0, words := [1, 2] }

theorem test_wf_sheet : (Instr.sheetReceive 0 (List.replicate 8 okLane)).wf = true := by decide +kernel
theorem test_wf_sheet_lanes : (Instr.sheetReceive 0 []).wf = false ∧ (Instr.sheetReceive 0 (List.replicate 9 okLane)).wf = false := by
  decide +kernel
theorem test_wf_sheet_words : (Instr.sheetReceive 0 [{ prior := 0, words := List.replicate 2049 0 }]).wf = false := by decide +kernel
theorem test_wf_codeword : (Instr.codewordLock 0 { lane := 0, first := List.replicate 544 1023, second := List.replicate 543 0 }).wf = false
    ∧ (Instr.codewordLock 0 { lane := 0, first := List.replicate 544 1024, second := List.replicate 544 0 }).wf = false := by decide +kernel
theorem test_wf_codewords : (Instr.defectDeclare 0 (.locw 3 (List.replicate 9 (List.replicate 544 0)))).wf = false := by decide +kernel
theorem test_wf_frame : (Instr.clientFrameReceive 0 [] false).wf = false := by decide +kernel
theorem test_wf_control_frame : (Instr.macControlReceive 0 (List.replicate 17 0)).wf = false := by decide +kernel
theorem test_wf_samples : (Instr.samplerWindowEnd 0 (List.replicate 1023 true)).wf = false := by decide +kernel
theorem test_wf_raw_bits : (Instr.conditionerBlock (List.replicate 1025 true)).wf = false := by decide +kernel
theorem test_wf_cipher_blocks : (Instr.uciRequestDone 0 (List.replicate 15 0) none).wf = false := by decide +kernel
theorem test_wf_debug_data : (Instr.debugAccess 0 (some (List.replicate 31 1, 0)) {}).wf = false := by decide +kernel
theorem test_wf_page_lines : (Instr.pageRewriteDone 0 [(5, {}), (5, {})]).wf = false := by decide +kernel
theorem test_wf_tamper : (Instr.tamperFire 0).wf = false := by decide +kernel
theorem test_wf_i2c : (Instr.i2cWrite []).wf = false := by decide +kernel
theorem test_wf_page_data : (Instr.dkwriteTransferDone 0 (.data [1])).wf = false := by decide +kernel

/-! ## The queue -/

/-- An empty queue: 4 ns pass. -/
theorem test_step_idle : step State.reset = .next State.reset.tick := by rfl
/-- The command at the front acts, the next one stays. -/
theorem test_step_front :
    step { up with pending := [.pmcGather, .notify r0] } = exec .pmcGather { up with pending := [.notify r0] } := by rfl

/-! ## Whole-machine statements: a step that completes -/

/-- A gather, and the state it leaves. -/
def gathers : State := (up.modPmc fun p => p.gather up.clrBlocks).settle
/-- A command completes from the device that has come up (`CommandsKeepToTheirAreas`, `FusesStayBlown`). -/
theorem witness_CommandsKeepToTheirAreas : exec .pmcGather up = .next gathers := by rfl
/-- A step completes from a state with the invariant (`StepsKeepInvariant`). -/
theorem witness_StepsKeepInvariant :
    { up with pending := [.pmcGather] }.Inv ∧ step { up with pending := [.pmcGather] } = .next gathers := by
  and_intros <;> first | decide +kernel | rfl
/-- A step takes the command at the front (`StepsPassTheQueueAndTime`). -/
theorem witness_StepsPassTheQueueAndTime_front :
    { up with pending := [.pmcGather] }.pending = .pmcGather :: [] ∧ step { up with pending := [.pmcGather] } = .next gathers := by
  and_intros <;> rfl

/-! ## An accepted sheet -/

/-- A string of 16 bytes stands at the front of its padding to 64. -/
theorem take_padTo (t : Bytes) (h : t.length = 16) : (padTo 64 t).take 16 = t := by
  unfold padTo
  rw [List.take_append_of_le_length (by simp [h]), List.take_take]
  exact List.take_of_length_le (by omega)

theorem leBytes_length : ∀ k n : Nat, (leBytes k n).length = k
  | 0, _ => rfl
  | k + 1, n => by rw [leBytes, List.length_cons, leBytes_length]

/-- The tag of `accS` has 16 bytes. -/
theorem acc_tag_length (ks : List Bytes) (iv aad ct : Bytes) (h : (Aes.enc ks (iv ++ [0, 0, 0, 1])).length = 16) :
    (Gcm.tag ks iv aad ct).length = 16 := by
  unfold Gcm.tag
  simp only [xorBytes, List.length_zipWith, h, beBytes, List.length_reverse, leBytes_length, Nat.min_self]

/-- The conditions of an acceptance, one by one (R134). -/
theorem verdict_of (v : Lkn) (dir : Bool) (x : Sheet) (n : Nat) (h1 : (!v.loaded || !v.rx) = false)
    (h2 : seqFrom v.base (beNat (slice x.oh 4 4)) = n) (h3 : ¬ (n ≤ v.sh ∨ 2 ^ 48 < n))
    (h4 : Gcm.tag (Aes.roundKeys v.key) (sheetIv v.salt (lcid v.chid dir) n) x.oh x.cells.flatten = x.tag.take 16) :
    v.verdict dir x = .accept n (gcmDec v.key (sheetIv v.salt (lcid v.chid dir) n) x.oh x.cells.flatten).1 := by
  subst h2
  unfold Lkn.verdict
  simp only [h1, Bool.false_eq_true, if_false, h3]
  exact if_pos h4

/-- A keyed sheet that is accepted (`SheetsArrive`): its tag is the one that the line cipher expects. -/
theorem witness_SheetsArrive_accept :
    ∃ pt, ((keyed 1 (lineUp algn)).lkn 0 2).verdict (!(keyed 1 (lineUp algn)).lciEnd 0) accS = .accept 1 pt := by
  have h1 : (!((keyed 1 (lineUp algn)).lkn 0 2).loaded || !((keyed 1 (lineUp algn)).lkn 0 2).rx) = false := by decide +kernel
  have h2 : seqFrom ((keyed 1 (lineUp algn)).lkn 0 2).base (beNat (slice accS.oh 4 4)) = 1 := by decide +kernel
  have h3 : ((keyed 1 (lineUp algn)).lkn 0 2).sh = 0 := by decide +kernel
  have h4 : ((keyed 1 (lineUp algn)).lkn 0 2).key = List.replicate 32 4 ∧ ((keyed 1 (lineUp algn)).lkn 0 2).salt = 0
    ∧ ((keyed 1 (lineUp algn)).lkn 0 2).chid = 0 := by decide +kernel
  have h5 : (Aes.enc (Aes.roundKeys (List.replicate 32 4))
    (sheetIv 0 (lcid 0 (!(keyed 1 (lineUp algn)).lciEnd 0)) 1 ++ [0, 0, 0, 1])).length = 16 := by decide +kernel
  have h6 : accS.tag.take 16 = Gcm.tag (Aes.roundKeys (List.replicate 32 4)) (sheetIv 0 (lcid 0 (!(keyed 1 (lineUp algn)).lciEnd 0)) 1)
      accS.oh accS.cells.flatten := by
    simp only [accS, aSheet, gcmDec]
    exact take_padTo _ (acc_tag_length _ _ _ _ h5)
  refine ⟨_, verdict_of _ _ _ 1 h1 h2 ?_ ?_⟩
  · rw [h3]; decide
  · rw [h4.1, h4.2.1, h4.2.2]; exact h6.symm

/-- What eight lanes deliver of a sheet is put together (R68, R70). -/
theorem sheet_from_lanes (x : Sheet) (h1 : x.oh.length = 64) (h2 : ∀ c ∈ x.cells, c.length = 64) (h3 : x.cells.length = 254)
    (h4 : x.tag.length = 64) :
    (keyed 1 (lineUp algn)).sheetFrom 0 (lanesOf x) = some (sheetBytesOut x) ∧ sheetOf (sheetBytesOut x) = x := by
  have hp : popCount ((keyed 1 (lineUp algn)).rxSet 0) = 8 := by decide +kernel
  have hi : ((keyed 1 (lineUp algn)).rxPlace 0).1 = 0 := by decide +kernel
  obtain ⟨hl, ho⟩ := sheetOf_out x h1 h2 h3 h4
  refine ⟨?_, ho⟩
  unfold State.sheetFrom
  rw [hp, hi, if_pos ⟨by simp [lanesOf], by simp [lanesOf]⟩]
  exact sheetBytes_lanes 8 0 (by omega) _ hl

/-- An unkeyed sheet, and keyed ones that key 1 and key 2 do not accept, arrive (`SheetsArrive`). -/
theorem witness_SheetsArrive_refused :
    ((keyed 1 (lineUp algn)).sheetFrom 0 (lanesOf (aSheet 0x80 0 [])) = some (sheetBytesOut (aSheet 0x80 0 []))
      ∧ natBit (byteAt (sheetOf (sheetBytesOut (aSheet 0x80 0 []))).oh 2).toNat 7 = true)
    ∧ ((keyed 1 (lineUp algn)).sheetFrom 0 (lanesOf (aSheet 1 0 [])) = some (sheetBytesOut (aSheet 1 0 []))
      ∧ natBit (byteAt (sheetOf (sheetBytesOut (aSheet 1 0 []))).oh 2).toNat 7 = false
      ∧ ((keyed 1 (lineUp algn)).lkn 0 1).verdict (!(keyed 1 (lineUp algn)).lciEnd 0) (sheetOf (sheetBytesOut (aSheet 1 0 []))) = .disabled)
    ∧ ((keyed 1 (lineUp algn)).sheetFrom 0 (lanesOf (aSheet 2 0 [])) = some (sheetBytesOut (aSheet 2 0 []))
      ∧ ((keyed 1 (lineUp algn)).lkn 0 2).verdict (!(keyed 1 (lineUp algn)).lciEnd 0) (sheetOf (sheetBytesOut (aSheet 2 0 []))) = .seqReject) := by
  obtain ⟨a1, a2⟩ := sheet_from_lanes (aSheet 0x80 0 []) (by decide +kernel) (by decide +kernel) (by decide +kernel) (by decide +kernel)
  obtain ⟨b1, b2⟩ := sheet_from_lanes (aSheet 1 0 []) (by decide +kernel) (by decide +kernel) (by decide +kernel) (by decide +kernel)
  obtain ⟨c1, c2⟩ := sheet_from_lanes (aSheet 2 0 []) (by decide +kernel) (by decide +kernel) (by decide +kernel) (by decide +kernel)
  rw [a2, b2, c2]
  exact ⟨⟨a1, by decide +kernel⟩, ⟨b1, by decide +kernel, by decide +kernel⟩, c1, by decide +kernel⟩

/-- The sheet that is accepted arrives (`SheetsArrive`). -/
theorem witness_SheetsArrive_accepted :
    (keyed 1 (lineUp algn)).sheetFrom 0 (lanesOf accS) = some (sheetBytesOut accS) ∧ sheetOf (sheetBytesOut accS) = accS
      ∧ natBit (byteAt accS.oh 2).toNat 7 = false := by
  have h4 : accS.tag.length = 64 := by simp [accS, aSheet, padTo]; omega
  obtain ⟨a, b⟩ := sheet_from_lanes accS (by decide +kernel) (by decide +kernel) (by decide +kernel) h4
  exact ⟨a, b, by decide +kernel⟩

/-! ## Codewords (R70, R72) -/

/-- A word of which 29 of the 30 syndromes are 0 is further than 15 symbols from every codeword. -/
def badWord : Codeword := List.replicate 514 0 ++ ((List.range 29).foldl (fun g i => Gf.mulP g [Gf.alpha i, 1]) [1]).reverse
theorem test_uncorrectable : Rs.correctable badWord = false := by decide +kernel
/-- Eight uncorrectable codewords take a lane's codeword lock (`DefectsAreDeclared`). -/
theorem witness_DefectsAreDeclared_words : (List.replicate 8 badWord).length = 8 ∧ ∀ c ∈ List.replicate 8 badWord, Rs.correctable c = false :=
  ⟨by simp, fun c hc => by rw [List.eq_of_mem_replicate hc]; exact test_uncorrectable⟩
/-- A wrong symbol is found where it stands, and nowhere beside it. -/
theorem test_corrected :
    let synd := Rs.syndromes (List.replicate 540 0 ++ [7, 0, 0, 0])
    let x := (List.range 30).foldl (Rs.step synd) {}
    let omega := (Gf.mulP synd x.loc).take 30
    x.len = 1 ∧ Rs.errorAt x.loc omega 3 = 7 ∧ Rs.errorAt x.loc omega 4 = 0 := by decide +kernel

/-! ## Worked examples of the spec -/

/-- The LANE 0 marker of ream 2,992, and byte 6 of LANE 7 (Table 2-20). -/
theorem test_marker :
    (marker 8 0 0x0016D3C0).take 12 = [0x4A, 0xC7, 0x3E, 0x91, 0xD0, 0x5B, 0x80, 0, 0, 0x16, 0xD3, 0xC0]
      ∧ (marker 8 0 0x0016D3C0).drop 14 = [0, 0] ∧ byteAt (marker 8 7 0x0016D3C0) 6 = 0x87 := by decide +kernel

/-- The line of the worked sheet (chapter 2): version 3, page A, LSC 1,496,000, watermark 'O', echo of ream 0x5E. -/
def orrin : State := up.modLine 0 fun l => { l with
  dlg := { l.dlg with ver := 3 }, lsc := 1496000, idx := 0, rc := 2992, wmSend := [0x4F], echoReam := 0x5E, lanesTx := 8, echoTurn := 0x003BD0A0
  defects := { l.defects with loa := false }, lanes := l.lanes.map fun x => { x with lol := false } }
/-- The first 20 overhead bytes of the worked sheet (Table 2-20). -/
theorem test_overhead :
    (orrin.overhead 0 (some 1) 496001 (List.replicate 12 0) []).take 20 =
      [0, 0, 0x01, 0xC0, 0, 0x07, 0x91, 0x81, 0, 0, 0xB0, 0x4F, 0, 0, 0x5E, 0x08, 0, 0x3B, 0xD0, 0xA0] := by decide +kernel
/-- The credit entry of tributary 117 with a count of 0x4A12 (chapter 2). -/
theorem test_credit_entry :
    ((((up.setTrib 117 { active := true }).modTribIn 0 117 fun t => { t with rxCount := 0x4A12 }).modSch 0 fun x =>
      { x with creditQ := [117] }).creditEntries 0).1.take 4 = [0x01, 0xD5, 0x4A, 0x12] := by decide +kernel

/-- The classification program of Table 6-10, parcel by parcel. -/
theorem test_program :
    [(0x1188, 0x000F), (0x128C, 0x040B), (0x1190, 0x0001), (0x1096, 0x0810), (0x0412, 0), (0x1519, 0x0400), (0x1410, 0x0123),
      (0x12A4, 0x0C5D), (0x0A04, 0), (0x12AC, 0x0C22), (0x09C5, 0)].map (fun p => decodeParcels p.1 p.2 0) =
    [some (.movSpecial 1 15, 2), some (.extReg 1 1 0 12, 2), some (.movSpecial 2 1, 2), some (.alu 6 2 (.reg 2) (.imm 16), 2),
      some (.alu 4 1 (.reg 1) (.reg 2), 1), some (.lkp 3 1 1 0 0, 2), some (.brp 1 false 0x0123, 2), some (.extReg 4 3 5 14, 2),
      some (.trib (.reg 4), 1), some (.extReg 5 3 2 3, 2), some (.cls (.reg 5), 1)] := by decide +kernel
/-- The rest of the program of Table 6-10, and `ADD g3, g5`. -/
theorem test_program_end :
    [(0x1223, 0x3401), (0x1420, 0x011A), (0x12B4, 0x0D3D), (0x0B06, 0), (0x1233, 0x3402), (0x12BC, 0x0E1B), (0x16C0, 0x1C00),
      (0x0A80, 0), (0x0901, 0), (0x0135, 0)].map (fun p => decodeParcels p.1 p.2 0) =
    [some (.cmp 2 3 6 (.imm 1), 2), some (.brp 2 false 0x011A, 2), some (.extReg 6 3 19 14, 2), some (.att 6, 1),
      some (.cmp 3 3 6 (.imm 2), 2), some (.extReg 7 3 33 12, 2), some (.pol 8 7, 2), some (.enq 0, 1), some (.punt 0 1, 1),
      some (.alu 1 3 (.reg 3) (.reg 5), 1)] := by decide +kernel

/-- The gate list of chapter 8. -/
def orrinList : GateList := { tb := 0, base := 1700000000 * 10 ^ 9, cycle := 250000, entries := [(20000, 0x40), (230000, 0xBF)] }
/-- Its start is 12,001 cycles late; its longest windows are 20 and 230 µs. -/
theorem test_gate_list :
    orrinList.lateBy (timeU 1700000003 120500) = 12001
      ∧ orrinList.longest 6 = some (20000 * nsU) ∧ orrinList.longest 0 = some (230000 * nsU) := by decide +kernel

/-- The statistic of a sampler window with 571 ones and with 490 (chapter 11). -/
theorem test_window_stat : windowStat 571 = 3776 ∧ windowStat 490 = -1408 := by decide +kernel
/-- The worked addresses of chapter 18. -/
theorem test_addresses :
    Reg.dkl 0 0x40014 = 0x01140014 ∧ Reg.dkl 0 0x40114 = 0x01140114 ∧ Reg.sac 2 (0x40000 + 4 * 6711) = 0x032468DC := by decide +kernel

/-! ## Published vectors of the primitives that the spec names (FIPS 197, FIPS 180-4, CRC-32, CRC-32C) -/

theorem test_aes :
    aesEnc ((List.range 16).map byteOf) ((List.range 16).map fun i => byteOf (17 * i)) =
      [0x69, 0xC4, 0xE0, 0xD8, 0x6A, 0x7B, 0x04, 0x30, 0xD8, 0xCD, 0xB7, 0x80, 0x70, 0xB4, 0xC5, 0x5A] := by decide +kernel
theorem test_aes_256 :
    aesEnc ((List.range 32).map byteOf) ((List.range 16).map fun i => byteOf (17 * i)) =
      [0x8E, 0xA2, 0xB7, 0xCA, 0x51, 0x67, 0x45, 0xBF, 0xEA, 0xFC, 0x49, 0x90, 0x4B, 0x49, 0x60, 0x89] := by decide +kernel
theorem test_sbox : Aes.sbox 0x53 = 0xED ∧ Aes.invSbox 0xED = 0x53 := by decide +kernel
theorem test_mix_columns : (Aes.mix 2 3 1 1 [0xDB, 0x13, 0x53, 0x45]).take 4 = [0x8E, 0x4D, 0xA1, 0xBC] := by decide +kernel
theorem test_sha : (sha256 [0x61, 0x62, 0x63]).take 8 = [0xBA, 0x78, 0x16, 0xBF, 0x8F, 0x01, 0xCF, 0xEA] := by decide +kernel
theorem test_crc :
    crc32 ((List.range 9).map fun i => byteOf (0x31 + i)) = 0xCBF43926
      ∧ crc32c ((List.range 9).map fun i => byteOf (0x31 + i)) = 0xE3069283 := by decide +kernel

end Sys2Proof.Tests
end

section
/-! Register accesses (chapters 0 and 18). What the end of a command does with outputs and messages, what a read latches,
where a mill's registers stand in the map; from these, register accesses as a whole. -/

namespace Sys2Proof.Machine

/-! ### The end of a command: what was sent stays sent, and an unmasked vector is not made pending -/

/-- From `s` to `t` outputs are only added, the masks stay, and no unmasked vector changes its pending bit. -/
structure State.Notifies (s t : State) : Prop where
  out : ∀ o ∈ s.out, o ∈ t.out
  masked : t.hst.masked = s.hst.masked
  pba : ∀ i, s.hst.masked.getLsbD i = false → t.hst.pba.getLsbD i = s.hst.pba.getLsbD i

theorem State.Notifies.refl (s : State) : s.Notifies s := ⟨fun _ h => h, rfl, fun _ _ => rfl⟩

theorem State.Notifies.trans {s t u : State} (h : s.Notifies t) (k : t.Notifies u) : s.Notifies u :=
  ⟨fun o ho => k.out o (h.out o ho), k.masked.trans h.masked, fun i hi => (k.pba i (by rw [h.masked, hi])).trans (h.pba i hi)⟩

theorem State.happen_notifies (s : State) (type src mill subject : Nat) (data : Bytes) :
    s.Notifies (s.happen type src mill subject data) := by
  unfold State.happen
  split
  · exact ⟨fun _ h => h, rfl, fun _ _ => rfl⟩
  · exact .refl s

theorem State.satRecords_notifies : ∀ (l : List Nat) (s : State), s.Notifies (s.satRecords l)
  | [], s => .refl s
  | _ :: l, s => (s.happen_notifies ..).trans (State.satRecords_notifies l _)

theorem State.msix_notifies (s : State) (v : Fin 256) : s.Notifies (s.msix v) := by
  unfold State.msix
  split
  · next hv =>
    refine ⟨fun _ h => h, rfl, fun i hi => ?_⟩
    have hne : v.val ≠ i := by rintro rfl; rw [hv] at hi; cases hi
    simp only [State.modHst_hst, BitVec.getLsbD_or, BitVec.getLsbD_shiftLeft, BitVec.getLsbD_one]
    grind
  · exact ⟨fun _ h => List.mem_cons_of_mem _ h, rfl, fun _ _ => rfl⟩

theorem State.msix_sent {s : State} {v : Fin 256} (h : s.hst.masked.getLsbD v.val = false) : Out.msix v.val ∈ (s.msix v).out := by
  unfold State.msix
  rw [h]
  exact List.mem_cons_self

theorem State.irqSource_notifies (s : State) (n : Nat) : s.Notifies (s.irqSource n) := by
  have hpend : s.Notifies (s.modHst fun h => { h with pend := h.pend ^^^ (1#48 <<< n) }) := ⟨fun _ h => h, rfl, fun _ _ => rfl⟩
  unfold State.irqSource
  dsimp only
  split
  · exact .refl s
  · split
    · exact hpend
    · split
      · exact ⟨fun _ h => h, rfl, fun _ _ => rfl⟩
      · exact hpend.trans (State.msix_notifies _ _)

theorem State.irqAll_notifies (s : State) : ∀ n, s.Notifies (s.irqAll n)
  | 0 => .refl s
  | n + 1 => (s.irqAll_notifies n).trans (State.irqSource_notifies _ n)

theorem State.settle_notifies (s : State) : s.Notifies s.settle :=
  .trans (t := s.modPmc fun p => { p with satNew := [] }) ⟨fun _ h => h, rfl, fun _ _ => rfl⟩
    ((State.satRecords_notifies _ _).trans (State.irqAll_notifies _ 48))

theorem State.mem_settle_emit (s : State) (o : Out) : o ∈ (s.emit o).settle.out :=
  (State.settle_notifies _).out o List.mem_cons_self

@[simp] theorem State.settle_latch (s : State) : s.settle.hst.latch = s.hst.latch := by
  have h : s.settle.hst.rest = s.hst.rest := State.settle_only (ps := settled) (Only.refl s) rfl .host rfl
  simpa only [Hst.rest] using congrArg Hst.latch h

/-! ### The mate logic's look at the end of a write changes no more than the mate logic, its pads and what is counted -/

theorem State.interlock_ends (s : State) : ∃ x d, s.interlock = { s with mte := x, pads := d } := by
  unfold State.interlock
  split
  · split
    · exact ⟨_, _, rfl⟩
    · exact ⟨s.mte, s.pads, rfl⟩
  · split
    · exact ⟨s.mte, s.pads, rfl⟩
    · exact ⟨_, s.pads, rfl⟩
  · split
    · exact ⟨s.mte, s.pads, rfl⟩
    · exact ⟨_, s.pads, rfl⟩
  · exact ⟨s.mte, s.pads, rfl⟩

theorem happen_interlock_ends (s : State) (type src mill subject : Nat) (data : Bytes) :
    ∃ p e h o x d, (s.happen type src mill subject data).interlock = { s.withEnds p e h o with mte := x, pads := d } := by
  obtain ⟨p, e, h, o, hh⟩ := happen_ends s type src mill subject data
  obtain ⟨x, d, hi⟩ := State.interlock_ends (s.withEnds p e h o)
  exact ⟨p, e, h, o, x, d, by rw [hh, hi]⟩

theorem State.mateGo_ends (s : State) (st : MState) (cause : Nat) :
    ∃ p e h o x d, s.mateGo st cause = { s.withEnds p e h o with mte := x, pads := d } := by
  unfold State.mateGo
  split
  · exact ⟨s.pmc, s.evr, s.hst, s.out, s.mte, s.pads, rfl⟩
  · exact happen_interlock_ends _ _ _ _ _ _

theorem State.mateLook_ends (s : State) : ∃ p e h o x d, s.mateLook = { s.withEnds p e h o with mte := x, pads := d } := by
  unfold State.mateLook
  split
  · exact s.mateGo_ends _ _
  · exact ⟨s.pmc, s.evr, s.hst, s.out, s.mte, s.pads, rfl⟩

/-- The blocks that a write of a register may change otherwise are as the write left them. -/
theorem State.mateLook_blocks (s : State) :
    s.mateLook.regs = s.regs ∧ s.mateLook.mills = s.mills ∧ s.mateLook.kst = s.kst ∧ s.mateLook.tmp = s.tmp ∧ s.mateLook.rng = s.rng
      ∧ s.mateLook.mem = s.mem ∧ s.mateLook.tim = s.tim ∧ s.mateLook.lanes = s.lanes ∧ s.mateLook.cur = s.cur := by
  obtain ⟨p, e, h, o, x, d, hs⟩ := s.mateLook_ends
  rw [hs]
  exact ⟨rfl, rfl, rfl, rfl, rfl, rfl, rfl, rfl, rfl⟩

/-! ### What a read leaves and latches -/

@[simp] theorem State.latchWords_regs : ∀ (ws : List W32) (s : State) (a : Nat), (s.latchWords a ws).regs = s.regs
  | [], _, _ => rfl
  | _ :: ws, _, _ => State.latchWords_regs ws _ _

theorem State.readBufStatus_regs (s : State) (pf : Fin 2) (i : Fin 8) : (s.readBufStatus pf i).2.regs = s.regs := by
  unfold State.readBufStatus
  dsimp only
  split
  · rfl
  · split
    · rfl
    · split <;> rfl

theorem State.readBufData_regs (s : State) (pf : Fin 2) (i : Fin 8) : (s.readBufData pf i).2.regs = s.regs := by
  unfold State.readBufData
  dsimp only
  split
  · split <;> rfl
  · rfl

theorem State.readRaw_regs (s : State) (pf : Fin 2) : (s.readRaw pf).2.regs = s.regs := by
  unfold State.readRaw
  split
  · split <;> rfl
  · rfl

theorem State.readThresh_regs (s : State) (m : Fin 4) : (s.readThresh m).2.regs = s.regs := by
  unfold State.readThresh
  dsimp only
  split <;> rfl

theorem State.takeStamp_regs (s : State) (q : Fin 9) (a : Nat) : (s.takeStamp q a).2.regs = s.regs := by
  unfold State.takeStamp
  split
  · exact State.latchWords_regs _ _ _
  · exact State.latchWords_regs _ _ _

theorem State.readAny_regs (s : State) (pf : Fin 2) (a : Nat) : (s.readAny pf a).2.regs = s.regs := by
  unfold State.readAny
  dsimp only
  split_ifs
  · exact s.readBufStatus_regs _ _
  · exact s.readBufData_regs _ _
  · exact s.readRaw_regs _
  · exact s.readThresh_regs _
  · exact s.takeStamp_regs _ _
  · exact s.takeStamp_regs _ _
  · exact State.latchWords_regs _ _ _
  · exact State.latchWords_regs _ _ _
  · rfl

/-- A misaligned address and a domain in reset read as zero, and the read leaves the state (R467, R468). -/
theorem State.readAny_dead {s : State} {a : Nat} (pf : Fin 2) (h : a % 4 ≠ 0 ∨ s.regLive a = false) : s.readAny pf a = (0, s) := by
  unfold State.readAny
  refine if_pos fun ⟨hal, hlive⟩ => ?_
  rcases h with h | h
  · exact h hal
  · rw [h] at hlive; cases hlive

theorem inWords_iff (base n q : Nat) : inWords base n q = true ↔ base ≤ q ∧ q < base + 4 * n := decide_eq_true_iff

/-- A low word with one upper word stands outside the registers whose read removes something. -/
theorem removing_registers_of_upperWords_one {a : Nat} (h : upperWords a = 1) :
    ¬ inWords (Reg.rng 0x100) 16 a = true ∧ a ≠ Reg.rng 0x200 ∧ ¬ (0x1000000 ≤ a ∧ a < 0x5000000 ∧ a % 0x1000000 = 0x20020)
      ∧ ¬ (Reg.tim 0x800 ≤ a ∧ a < Reg.tim 0x880 ∧ a % 0x20 = 0) ∧ ¬ (Reg.tim 0x900 ≤ a ∧ a < Reg.tim 0x9A0 ∧ a % 0x20 = 4) := by
  have hr : a = 0x30048 ∨ (0x50000 ≤ a ∧ a < 0x50200) ∨ (0x70000 ≤ a ∧ a < 0x79800) ∨ (0xC0000 ≤ a ∧ a < 0x105000)
      ∨ (0x1000000 ≤ a ∧ a % 0x1000000 ≠ 0x20020) := by
    unfold upperWords at h
    simp only [inWords_iff, Reg.kst] at h
    grind
  simp only [inWords_iff, Reg.rng, Reg.tim]
  omega

/-- The read of a low word latches the upper word that stands behind it on the same edge (R15). -/
theorem State.readAny_wide {s : State} {a : Nat} (pf : Fin 2) (hal : a % 4 = 0) (hlive : s.regLive a = true) (hu : upperWords a = 1) :
    s.readAny pf a = (s.readReg a, s.modHst fun h => { h with latch := tins (a + 4) (BitVec.ofNat 32 (s.readReg (a + 4))) h.latch }) := by
  obtain ⟨hbuf, hraw, hthresh, hcap, hport⟩ := removing_registers_of_upperWords_one hu
  unfold State.readAny
  rw [if_neg (not_not.mpr ⟨hal, hlive⟩), if_neg hbuf, if_neg hraw, if_neg hthresh, if_neg hcap, if_neg hport]
  simp only [hu]
  rfl

theorem find?_tins {α : Type} (k : Nat) (v : α) : ∀ t : Tbl α, (tins k v t).find? (fun e => decide (e.1 = k)) = some (k, v)
  | [] => by simp [tins]
  | (j, w) :: t => by
    unfold tins
    split
    · next h => simpa [Nat.ne_of_lt h] using find?_tins k v t
    · split <;> simp

/-- A word that the latest low-word read latched is what its address reads (R15). -/
theorem State.readWord_latched {s : State} {a : Nat} {w : W32} {t : Tbl W32} (h : s.hst.latch = tins a w t) : s.readWord a = w.toNat := by
  unfold State.readWord
  rw [h, find?_tins]

/-! ### What a write stores -/

theorem State.reg_lt (s : State) (a : Nat) : s.reg a < 2 ^ 32 := BitVec.isLt _

/-- Read after write, the same register. -/
theorem State.reg_setReg {s : State} (hc : s.canonical = true) (a v : Nat) : (s.setReg a v).reg a = v % 2 ^ 32 := by
  simp only [State.canonical, twf, Bool.and_eq_true] at hc
  obtain ⟨⟨hsorted, -⟩, -⟩ := hc
  unfold State.reg
  exact (congrArg BitVec.toNat (tget_tset_eq _ a _ _ hsorted)).trans (BitVec.toNat_ofNat _ _)

theorem land_word {v : Nat} (h : v < 2 ^ 32) : Nat.land v 0xFFFFFFFF = v :=
  (Nat.and_two_pow_sub_one_eq_mod v 32).trans (Nat.mod_eq_of_lt h)

/-- A write of a whole word stores that word. -/
theorem State.reg_putBits_word {s : State} (hc : s.canonical = true) (a : Nat) {v : Nat} (hv : v < 2 ^ 32) :
    (s.putBits a 0xFFFFFFFF v).reg a = v := by
  have hm : mergeBits 0xFFFFFFFF (s.reg a) v = v := by
    rw [mergeBits, land_word hv, land_word (s.reg_lt a), Nat.sub_self]
    exact Nat.or_zero v
  unfold State.putBits
  rw [hm]
  exact (State.reg_setReg hc a v).trans (Nat.mod_eq_of_lt hv)

/-- A write to a word of sticky bits clears those that are written 1. -/
theorem State.reg_clearBits_word {s : State} (hc : s.canonical = true) (a : Nat) {v : Nat} (hv : v < 2 ^ 32) :
    (s.clearBits a 0xFFFFFFFF v).reg a = s.reg a - Nat.land (s.reg a) v := by
  unfold State.clearBits
  rw [land_word hv, State.reg_setReg hc]
  exact Nat.mod_eq_of_lt (Nat.lt_of_le_of_lt (Nat.sub_le _ _) (s.reg_lt a))

/-- The registers of a mill are written through its own window (Table 18-3). -/
theorem State.regWrite_mill (s : State) (pf : Fin 2) (m : Fin 4) {o : Nat} (ho : o < 0x1000000) (v : Nat) :
    s.regWrite pf (Reg.mill m + o) v = s.writeMill pf m o v := by
  have hlo : 0x1000000 ≤ Reg.mill m + o := by unfold Reg.mill; omega
  have hhi : Reg.mill m + o < 0x5000000 := by unfold Reg.mill; omega
  have hoff : (Reg.mill m + o) % 0x1000000 = o := by unfold Reg.mill; omega
  have hmill : ((Reg.mill m + o) / 0x1000000 - 1) % 4 = m.val := by unfold Reg.mill; omega
  unfold State.regWrite
  simp (disch := omega) only [if_neg, if_pos, hoff, hmill]

theorem State.regWrite_lnf (s : State) (pf : Fin 2) (m : Fin 4) {o : Nat} (ho : o < 0x10000) (v : Nat) :
    s.regWrite pf (Reg.lnf m o) v = s.writeLnf pf m o v :=
  (s.regWrite_mill pf m (by omega) v).trans (if_pos ho)

/-- The registers of the key store (Table 18-2). -/
theorem State.regWrite_kst (s : State) (pf : Fin 2) {o : Nat} (ho : o < 0x10000) (v : Nat) :
    s.regWrite pf (Reg.kst o) v = s.writeKst pf (Reg.kst o) v := by
  have hlo : 0x30000 ≤ Reg.kst o := by unfold Reg.kst; omega
  have hhi : Reg.kst o < 0x40000 := by unfold Reg.kst; omega
  unfold State.regWrite
  simp (disch := omega) only [if_neg, if_pos]

/-- A register of the key store that PF0 writes is PF1's (Tables 10-14 to 10-17). -/
theorem State.writeKst_pf0 (s : State) {a : Nat} (v : Nat) (h : kstListed (a - Reg.kst 0) = true) :
    s.writeKst 0 a v = s.lockedWrite 0 a v := by
  unfold State.writeKst
  dsimp only
  rw [h]
  rfl

/-! ### The commands -/

theorem completes_finish {i : Instr} {s t : State} {P : State → Prop} (h : exec i s = finish t) (hP : P t.settle) : Completes i s P :=
  ⟨t.settle, h, hP⟩

theorem exec_wideRegisterRead {s : State} (h : s.rst.porHeld = false) (pf : Fin 2) (a : BitVec 27) :
    exec (.wideRegisterRead pf a) s =
      finish ((s.readAny pf a.toNat).2.emit (.regRead pf.val a.toNat (BitVec.ofNat 32 (s.readAny pf a.toNat).1))) := by
  change execWideRegisterRead pf a s = _
  unfold execWideRegisterRead
  rw [h]
  rfl

theorem exec_registerWrite_misaligned {s : State} (h : s.rst.porHeld = false) (pf : Fin 2) {a : BitVec 27} (v : W32)
    (ha : a.toNat % 4 ≠ 0) : exec (.registerWrite pf a v) s = finish (s.lockedWrite pf a.toNat v.toNat) := by
  change execRegisterWrite pf a v s = _
  unfold execRegisterWrite
  rw [h, if_neg Bool.false_ne_true, if_pos ha]

theorem exec_registerWrite_live {s : State} (h : s.rst.porHeld = false) (pf : Fin 2) {a : BitVec 27} (v : W32)
    (ha : a.toNat % 4 = 0) (hl : s.regLive a.toNat = true) :
    exec (.registerWrite pf a v) s =
      mateEnd ((s.regWrite pf a.toNat v.toNat).modHst fun h => { h with latch := tdel a.toNat h.latch }) := by
  change execRegisterWrite pf a v s = _
  unfold execRegisterWrite
  rw [h, if_neg Bool.false_ne_true, if_neg (not_not.mpr ha), if_pos hl]

/-- R14, R15, R467, R468: a read gives the register's value, 0 where none answers, and latches the upper word of a wide value. -/
theorem registerRead_completes {s : State} (h : s.rst.porHeld = false) (pf : Fin 2) (a : BitVec 27) :
    Completes (.wideRegisterRead pf a) s fun u =>
      Out.regRead pf.val a.toNat (BitVec.ofNat 32 (s.readAny pf a.toNat).1) ∈ u.out ∧ u.regs = s.regs
      ∧ (a.toNat % 4 ≠ 0 ∨ s.regLive a.toNat = false → Out.regRead pf.val a.toNat 0 ∈ u.out ∧ Only settled s u)
      ∧ (a.toNat % 4 = 0 → s.regLive a.toNat = true → upperWords a.toNat = 1 →
        BitVec.ofNat 32 (u.readWord (a.toNat + 4)) = BitVec.ofNat 32 (s.readReg (a.toNat + 4))) := by
  refine completes_finish (exec_wideRegisterRead h pf a) ⟨State.mem_settle_emit _ _, ?_, fun hdead => ?_, fun hal hlive hu => ?_⟩
  · rw [State.settle_regs]
    exact s.readAny_regs pf _
  · rw [State.readAny_dead pf hdead]
    exact ⟨State.mem_settle_emit _ _, State.settle_only (State.emit_only (Only.refl s) _ rfl) rfl⟩
  · rw [State.readAny_wide pf hal hlive hu, State.readWord_latched (State.settle_latch _)]
    exact BitVec.ofNat_toNat _ _

/-- R468: a misaligned write is locked. -/
theorem misalignedWrite_completes {s : State} (h : s.rst.porHeld = false) (pf : Fin 2) {a : BitVec 27} (v : W32) (ha : a.toNat % 4 ≠ 0) :
    Completes (.registerWrite pf a v) s fun u => Only settled s u :=
  completes_finish (exec_registerWrite_misaligned h pf v ha) (State.settle_only (State.lockedWrite_only (Only.refl s) _ _ _ rfl) rfl)

/-- R16: a write of a register that answers has that register's effect; what follows it on the edge leaves these blocks. -/
theorem registerWrite_completes {s : State} (h : s.rst.porHeld = false) (pf : Fin 2) {a : BitVec 27} (v : W32)
    (ha : a.toNat % 4 = 0) (hl : s.regLive a.toNat = true) :
    Completes (.registerWrite pf a v) s fun u =>
      let w := s.regWrite pf a.toNat v.toNat
      u.regs = w.regs ∧ u.mills = w.mills ∧ u.kst = w.kst ∧ u.tmp = w.tmp ∧ u.rng = w.rng ∧ u.mem = w.mem ∧ u.tim = w.tim
        ∧ u.lanes = w.lanes ∧ u.cur = w.cur := by
  refine completes_finish (exec_registerWrite_live h pf v ha hl) ?_
  simp only [State.settle_regs, State.settle_mills, State.settle_kst, State.settle_tmp, State.settle_rng, State.settle_mem,
    State.settle_tim, State.settle_lanes, State.settle_cur]
  exact State.mateLook_blocks _

/-- R16: a setting takes its value, sticky bits are cleared, a read-only register stays, a register of PF1 is locked to PF0. -/
theorem regWrite_by_kind {s : State} (hc : s.canonical = true) (m : Fin 4) {v : Nat} (hv : v < 2 ^ 32) :
    (s.regWrite 0 (Reg.lnf m 0x100) v).reg (Reg.lnf m 0x100) = v
    ∧ (s.regWrite 0 (Reg.lnf m 0x14) v).reg (Reg.lnf m 0x14) = s.reg (Reg.lnf m 0x14) - Nat.land (s.reg (Reg.lnf m 0x14)) v
    ∧ s.regWrite 1 0 v = s ∧ s.regWrite 0 (Reg.kst 4) v = s.lockedWrite 0 (Reg.kst 4) v := by
  refine ⟨?_, ?_, rfl, (s.regWrite_kst 0 (by decide) v).trans (s.writeKst_pf0 v (by decide))⟩
  · rw [s.regWrite_lnf 0 m (by decide)]
    exact State.reg_putBits_word hc _ hv
  · rw [s.regWrite_lnf 0 m (by decide)]
    exact State.reg_clearBits_word hc _ hv

/-- Vector `v` unmasked and no longer pending (R465). -/
def State.unmask (s : State) (v : Fin 256) : State :=
  s.modHst fun h => { h with masked := h.masked &&& ~~~(1#256 <<< v.val), pba := h.pba &&& ~~~(1#256 <<< v.val) }

theorem getLsbD_clear (x : BitVec 256) (v : Fin 256) : (x &&& ~~~(1#256 <<< v.val)).getLsbD v.val = false := by
  simp

/-- R465: the unmasked vector is no longer pending, and its message is sent where it was. -/
theorem msixUnmask_completes {s : State} (v : Fin 256) (hl : s.hstLive = true) (hm : s.hst.masked.getLsbD v.val = true) :
    Completes (.msixUnmask v) s fun u =>
      u.hst.masked = s.hst.masked &&& ~~~(1#256 <<< v.val) ∧ u.hst.pba.getLsbD v.val = false
      ∧ (s.hst.pba.getLsbD v.val = true → Out.msix v.val ∈ u.out) := by
  have hexec : exec (.msixUnmask v) s = finish (if s.hst.pba.getLsbD v.val then (s.unmask v).msix v else s.unmask v) :=
    if_pos (by rw [hl, hm]; rfl)
  have hopen : (s.unmask v).hst.masked.getLsbD v.val = false := getLsbD_clear _ v
  have hn : (s.unmask v).Notifies (if s.hst.pba.getLsbD v.val then (s.unmask v).msix v else s.unmask v).settle := by
    refine State.Notifies.trans ?_ (State.settle_notifies _)
    split
    · exact State.msix_notifies _ v
    · exact .refl _
  refine completes_finish hexec ⟨hn.masked, (hn.pba v.val hopen).trans (getLsbD_clear _ v), fun hp => ?_⟩
  rw [if_pos hp]
  exact (State.settle_notifies _).out _ (State.msix_sent hopen)

/-- R478: a byte sets the pointer; any further byte is not acknowledged. -/
theorem i2cWrite_completes {s : State} (hl : s.mgmtLive = true) (b : Byte) (bs : Bytes) :
    Completes (.i2cWrite (b :: bs)) s fun u =>
      u.pads = { s.pads with i2cPtr := b } ∧ Out.i2c (decide (bs = [])) [] ∈ u.out := by
  refine completes_finish (if_pos hl) ⟨State.settle_pads _, ?_⟩
  have hack : decide ((b :: bs).length ≤ 1) = decide (bs = []) := by cases bs <;> simp
  rw [hack]
  exact State.mem_settle_emit _ _

/-- R478: the status map is latched and read from the pointer on. -/
theorem i2cRead_completes {s : State} (hl : s.mgmtLive = true) (n : Nat) :
    Completes (.i2cRead n) s fun u =>
      u.pads = { s.pads with i2cLatch := s.i2cMap, i2cPtr := s.pads.i2cPtr + BitVec.ofNat 8 n }
      ∧ Out.i2c true ((List.range n).map fun i => byteAt s.i2cMap ((s.pads.i2cPtr.toNat + i) % 256)) ∈ u.out := by
  refine completes_finish (if_pos hl) ⟨State.settle_pads _, ?_⟩
  exact State.mem_settle_emit _ _

/-- Settles O57: every access by the lemma about its command, and the reset values by evaluation of the registers of the table. -/
theorem registersAreAccessed : Obligations.RegistersAreAccessed := by
  unfold Obligations.RegistersAreAccessed
  refine ⟨fun s => ⟨fun pf a h => registerRead_completes h pf a,
    fun pf a v h => ⟨misalignedWrite_completes h pf v, registerWrite_completes h pf v⟩,
    fun hc m v hv => regWrite_by_kind hc m hv, msixUnmask_completes, i2cWrite_completes, i2cRead_completes⟩,
    rfl, rfl, rfl, rfl, rfl, ?_⟩
  decide +kernel

end Sys2Proof.Machine
end

section
/-! The path of a frame (chapters 1 and 8). Beside the mills and the tributaries a state holds counters, the recorder, rings, outputs
and last grants: what happens on the path of a frame does not depend on these, and what happens to these leaves the path alone. -/

namespace Sys2Proof.Machine

variable {s t u : State}

/-! ### States with the same path -/

/-- The state with other counters, recorder, host interface, outputs, rings and last grants of the headbox. -/
def State.beside (s : State) (p : Pmc) (e : Evr) (h : Hst) (o : List Out) (c : Vector Engine 4) (g : Vector Nat 12) : State :=
  { s with pmc := p, evr := e, hst := h, out := o, cur := c, hbxRr := g }

/-- The two states differ at most in what stands beside the path of a frame. -/
def State.SamePath (s t : State) : Prop := ∃ p e h o c g, t = s.beside p e h o c g

theorem State.beside_samePath (s : State) (p : Pmc) (e : Evr) (h : Hst) (o : List Out) (c : Vector Engine 4) (g : Vector Nat 12) :
    s.SamePath (s.beside p e h o c g) := ⟨p, e, h, o, c, g, rfl⟩

theorem State.SamePath.refl (s : State) : s.SamePath s := ⟨s.pmc, s.evr, s.hst, s.out, s.cur, s.hbxRr, rfl⟩

theorem State.SamePath.symm (h : s.SamePath t) : t.SamePath s := by
  obtain ⟨p, e, k, o, c, g, rfl⟩ := h
  exact ⟨s.pmc, s.evr, s.hst, s.out, s.cur, s.hbxRr, rfl⟩

theorem State.SamePath.trans (h : s.SamePath t) (k : t.SamePath u) : s.SamePath u := by
  obtain ⟨_, _, _, _, _, _, rfl⟩ := h
  obtain ⟨p, e, k, o, c, g, rfl⟩ := k
  exact ⟨p, e, k, o, c, g, rfl⟩

theorem State.SamePath.mills (h : s.SamePath t) : t.mills = s.mills := by obtain ⟨_, _, _, _, _, _, rfl⟩ := h; rfl
theorem State.SamePath.trib (h : s.SamePath t) : t.trib = s.trib := by obtain ⟨_, _, _, _, _, _, rfl⟩ := h; rfl
theorem State.SamePath.tribOld (h : s.SamePath t) : t.tribOld = s.tribOld := by obtain ⟨_, _, _, _, _, _, rfl⟩ := h; rfl

theorem State.SamePath.ite {c : Prop} [Decidable c] {s' t' : State} (h : c → s.SamePath t) (k : ¬c → s'.SamePath t') :
    (if c then s else s').SamePath (if c then t else t') := by
  by_cases hc : c
  · rw [if_pos hc, if_pos hc]; exact h hc
  · rw [if_neg hc, if_neg hc]; exact k hc

/-! What changes only things beside the path. -/

theorem State.countMill_samePath (s : State) (m : Fin 4) (a b c d : Nat) : s.SamePath (s.countMill m a b c d) :=
  ⟨_, s.evr, s.hst, s.out, s.cur, s.hbxRr, rfl⟩
theorem State.countDev_samePath (s : State) (a b c d : Nat) : s.SamePath (s.countDev a b c d) :=
  ⟨_, s.evr, s.hst, s.out, s.cur, s.hbxRr, rfl⟩
theorem State.fixMill_samePath (s : State) (m : Fin 4) (i n : Nat) : s.SamePath (s.fixMill m i n) :=
  ⟨_, s.evr, s.hst, s.out, s.cur, s.hbxRr, rfl⟩
theorem State.fixDev_samePath (s : State) (i n : Nat) : s.SamePath (s.fixDev i n) :=
  ⟨_, s.evr, s.hst, s.out, s.cur, s.hbxRr, rfl⟩
theorem State.modEng_samePath (s : State) (k : Fin 4) (f : Engine → Engine) : s.SamePath (s.modEng k f) :=
  ⟨s.pmc, s.evr, s.hst, s.out, _, s.hbxRr, rfl⟩

theorem State.withEnds_samePath {p : Pmc} {e : Evr} {h : Hst} {o : List Out} (ht : t = s.withEnds p e h o) : s.SamePath t :=
  ⟨p, e, h, o, s.cur, s.hbxRr, ht⟩

theorem State.happen_samePath (s : State) (a b c d : Nat) (x : Bytes) : s.SamePath (s.happen a b c d x) := by
  obtain ⟨_, _, _, _, h⟩ := happen_ends s a b c d x
  exact State.withEnds_samePath h

theorem State.settle_samePath (s : State) : s.SamePath s.settle := by
  obtain ⟨_, _, _, _, h⟩ := settle_ends s
  exact State.withEnds_samePath h

theorem State.sendControl_samePath (s : State) (p : Fin 32) (i q : Nat) : s.SamePath (s.sendControl p i q) := by
  unfold State.sendControl
  split
  · exact .refl s
  · refine .trans ?_ (State.countMill_samePath ..)
    unfold State.portOut
    split
    · exact ⟨s.pmc, s.evr, s.hst, _, s.cur, s.hbxRr, rfl⟩
    · exact .refl s

/-! Operations on the path, on two states with the same path. -/

theorem State.SamePath.modMill (h : s.SamePath t) (m : Fin 4) (f : Mill → Mill) : (s.modMill m f).SamePath (t.modMill m f) := by
  obtain ⟨p, e, k, o, c, g, rfl⟩ := h
  exact ⟨p, e, k, o, c, g, rfl⟩

theorem State.SamePath.modLine (h : s.SamePath t) (m : Fin 4) (f : Line → Line) : (s.modLine m f).SamePath (t.modLine m f) :=
  h.modMill _ _
theorem State.SamePath.modDkl (h : s.SamePath t) (m : Fin 4) (f : Deckle → Deckle) : (s.modDkl m f).SamePath (t.modDkl m f) :=
  h.modMill _ _
theorem State.SamePath.modVat (h : s.SamePath t) (m : Fin 4) (f : Vat → Vat) : (s.modVat m f).SamePath (t.modVat m f) :=
  h.modMill _ _
theorem State.SamePath.modSch (h : s.SamePath t) (m : Fin 4) (f : Sch → Sch) : (s.modSch m f).SamePath (t.modSch m f) :=
  h.modMill _ _
theorem State.SamePath.modPort (h : s.SamePath t) (p : Fin 32) (f : Port → Port) : (s.modPort p f).SamePath (t.modPort p f) :=
  h.modMill _ _

theorem State.SamePath.setTrib (h : s.SamePath t) (n : Nat) (v : Trib) : (s.setTrib n v).SamePath (t.setTrib n v) := by
  obtain ⟨p, e, k, o, c, g, rfl⟩ := h
  exact ⟨p, e, k, o, c, g, rfl⟩

theorem State.SamePath.setOld (h : s.SamePath t) (n : Nat) (v : Trib) : (s.setOld n v).SamePath (t.setOld n v) := by
  obtain ⟨p, e, k, o, c, g, rfl⟩ := h
  exact ⟨p, e, k, o, c, g, rfl⟩

theorem State.SamePath.modTrib (h : s.SamePath t) (n : Nat) (f : Trib → Trib) : (s.modTrib n f).SamePath (t.modTrib n f) := by
  obtain ⟨p, e, k, o, c, g, rfl⟩ := h
  exact ⟨p, e, k, o, c, g, rfl⟩

theorem State.SamePath.modTribIn (h : s.SamePath t) (m : Fin 4) (n : Nat) (f : Trib → Trib) :
    (s.modTribIn m n f).SamePath (t.modTribIn m n f) := by
  obtain ⟨a, e, k, o, c, g, rfl⟩ := h
  have h := s.beside_samePath a e k o c g
  exact .ite (fun _ => h.setTrib _ _) fun _ => .ite (fun _ => h.setOld _ _) fun _ => h

theorem State.SamePath.countMill (h : s.SamePath t) (m : Fin 4) (a b c d : Nat) : (s.countMill m a b c d).SamePath (t.countMill m a b c d) :=
  (State.countMill_samePath s m a b c d).symm.trans (h.trans (State.countMill_samePath t m a b c d))
theorem State.SamePath.fixMill (h : s.SamePath t) (m : Fin 4) (i n : Nat) : (s.fixMill m i n).SamePath (t.fixMill m i n) :=
  (State.fixMill_samePath s m i n).symm.trans (h.trans (State.fixMill_samePath t m i n))
theorem State.SamePath.sendControl (h : s.SamePath t) (p : Fin 32) (i q : Nat) : (s.sendControl p i q).SamePath (t.sendControl p i q) :=
  (State.sendControl_samePath s p i q).symm.trans (h.trans (State.sendControl_samePath t p i q))

theorem State.SamePath.fcCheck (h : s.SamePath t) (p : Fin 32) (pri : Nat) : (s.fcCheck p pri).SamePath (t.fcCheck p pri) := by
  obtain ⟨a, e, k, o, c, g, rfl⟩ := h
  have h := s.beside_samePath a e k o c g
  exact .ite (fun _ => h) fun _ => .ite (fun _ => (h.modPort p _).sendControl p _ _)
    fun _ => .ite (fun _ => (h.modPort p _).sendControl p _ _) fun _ => h

theorem State.SamePath.holdPri (h : s.SamePath t) (p pri n : Nat) (add : Bool) : (s.holdPri p pri n add).SamePath (t.holdPri p pri n add) :=
  (h.modPort _ _).fcCheck _ _

theorem State.SamePath.wake (h : s.SamePath t) (m : Fin 4) (n : Nat) : (s.wake m n).SamePath (t.wake m n) := by
  obtain ⟨a, e, k, o, c, g, rfl⟩ := h
  have h := s.beside_samePath a e k o c g
  unfold State.wake
  dsimp only
  rw [show (s.beside a e k o c g).tribIn m n = s.tribIn m n from rfl,
    show (s.beside a e k o c g).phaseOf m (s.tribIn m n) = s.phaseOf m (s.tribIn m n) from rfl]
  split
  · exact (h.modTribIn m n _).modSch m _
  · exact h

theorem State.SamePath.creditReturn (h : s.SamePath t) (f : Frame) : (s.creditReturn f).SamePath (t.creditReturn f) := by
  obtain ⟨a, e, k, o, c, g, rfl⟩ := h
  have h := s.beside_samePath a e k o c g
  exact .ite (fun _ => (h.modTrib _ _).modSch _ _) fun _ => h

theorem State.SamePath.dropTx (h : s.SamePath t) (m : Fin 4) : (s.dropTx m).SamePath (t.dropTx m) := h.fixMill _ _ _

theorem State.SamePath.dropRx (h : s.SamePath t) (m : Fin 4) (f : Frame) : (s.dropRx m f).SamePath (t.dropRx m f) :=
  (h.fixMill _ _ _).creditReturn f

theorem State.SamePath.refuseTx (h : s.SamePath t) (m : Fin 4) (q : Queued) (held : Bool) :
    (s.refuseTx m q held).SamePath (t.refuseTx m q held) :=
  .dropTx (.ite (fun _ => h.holdPri _ _ _ _) fun _ => h) m

theorem State.SamePath.joinTrib (h : s.SamePath t) (m : Fin 4) (q : Queued) (held : Bool) :
    (s.joinTrib m q held).SamePath (t.joinTrib m q held) := by
  obtain ⟨a, e, k, o, c, g, rfl⟩ := h
  have h := s.beside_samePath a e k o c g
  have hq := (h.modTrib q.f.trib fun t => { t with queue := t.queue ++ [q], occ := t.occ + q.units }).modSch m
    fun x => { x with txUsed := x.txUsed + q.units }
  exact .ite (fun _ => (h.countMill ..).refuseTx m q held) fun _ =>
    .ite (fun _ => .wake (.ite (fun _ => hq) fun _ => hq.holdPri _ _ _ _) _ _) fun _ => (h.countMill ..).refuseTx m q held

theorem State.SamePath.dispatchPut (h : s.SamePath t) (m : Fin 4) (f : Frame) : (s.dispatchPut m f).SamePath (t.dispatchPut m f) := by
  obtain ⟨a, e, k, o, c, g, rfl⟩ := h
  have h := (s.beside_samePath a e k o c g).modVat m fun v =>
    { v with disp := v.disp ++ [((s.queueFor m).getD 0, f)], rr := ((s.queueFor m).getD 0).val }
  exact .ite (fun _ => h) fun _ => h.countMill ..

/-! ### Operations that change no more than the mills, or the mills and the tributaries -/

/-- From `s` to `t` nothing has changed but the mills, what is counted and what is sent. -/
def State.InMills (s t : State) : Prop := ∃ ms p o, t = { s with mills := ms, pmc := p, out := o }

/-- From `s` to `t` nothing has changed but the mills, the tributaries, what is counted and what is sent. -/
def State.OnPath (s t : State) : Prop := ∃ ms tr old p o, t = { s with mills := ms, trib := tr, tribOld := old, pmc := p, out := o }

theorem State.InMills.refl (s : State) : s.InMills s := ⟨s.mills, s.pmc, s.out, rfl⟩

theorem State.InMills.trans (h : s.InMills t) (k : t.InMills u) : s.InMills u := by
  obtain ⟨_, _, _, rfl⟩ := h
  obtain ⟨ms, p, o, rfl⟩ := k
  exact ⟨ms, p, o, rfl⟩

theorem State.InMills.trib (h : s.InMills t) : t.trib = s.trib := by obtain ⟨_, _, _, rfl⟩ := h; rfl
theorem State.InMills.tribOld (h : s.InMills t) : t.tribOld = s.tribOld := by obtain ⟨_, _, _, rfl⟩ := h; rfl

theorem State.InMills.onPath (h : s.InMills t) : s.OnPath t := by
  obtain ⟨ms, p, o, rfl⟩ := h
  exact ⟨ms, s.trib, s.tribOld, p, o, rfl⟩

theorem State.OnPath.refl (s : State) : s.OnPath s := (State.InMills.refl s).onPath

theorem State.OnPath.trans (h : s.OnPath t) (k : t.OnPath u) : s.OnPath u := by
  obtain ⟨_, _, _, _, _, rfl⟩ := h
  obtain ⟨ms, tr, old, p, o, rfl⟩ := k
  exact ⟨ms, tr, old, p, o, rfl⟩

theorem State.OnPath.foldl {α : Type} {f : State → α → State} (hf : ∀ (s : State) (x : α), s.OnPath (f s x)) : ∀ (l : List α) (s : State), s.OnPath (l.foldl f s)
  | [], s => .refl s
  | x :: l, s => (hf s x).trans (State.OnPath.foldl hf l (f s x))

theorem State.OnPath.cur (h : s.OnPath t) : t.cur = s.cur := by obtain ⟨_, _, _, _, _, rfl⟩ := h; rfl
theorem State.OnPath.hbxRr (h : s.OnPath t) : t.hbxRr = s.hbxRr := by obtain ⟨_, _, _, _, _, rfl⟩ := h; rfl
theorem State.OnPath.regs (h : s.OnPath t) : t.regs = s.regs := by obtain ⟨_, _, _, _, _, rfl⟩ := h; rfl
theorem State.OnPath.shadowing (h : s.OnPath t) : t.shadowing = s.shadowing := by obtain ⟨_, _, _, _, _, rfl⟩ := h; rfl

theorem State.modMill_inMills (s : State) (m : Fin 4) (f : Mill → Mill) : s.InMills (s.modMill m f) := ⟨_, s.pmc, s.out, rfl⟩
theorem State.modSch_inMills (s : State) (m : Fin 4) (f : Sch → Sch) : s.InMills (s.modSch m f) := s.modMill_inMills m _
theorem State.modPort_inMills (s : State) (p : Fin 32) (f : Port → Port) : s.InMills (s.modPort p f) := s.modMill_inMills _ _
theorem State.modLine_inMills (s : State) (m : Fin 4) (f : Line → Line) : s.InMills (s.modLine m f) := s.modMill_inMills m _
theorem State.modDkl_inMills (s : State) (m : Fin 4) (f : Deckle → Deckle) : s.InMills (s.modDkl m f) := s.modMill_inMills m _
theorem State.countMill_inMills (s : State) (m : Fin 4) (a b c d : Nat) : s.InMills (s.countMill m a b c d) := ⟨s.mills, _, s.out, rfl⟩
theorem State.fixMill_inMills (s : State) (m : Fin 4) (i n : Nat) : s.InMills (s.fixMill m i n) := ⟨s.mills, _, s.out, rfl⟩
theorem State.setTrib_onPath (s : State) (n : Nat) (v : Trib) : s.OnPath (s.setTrib n v) := ⟨s.mills, _, s.tribOld, s.pmc, s.out, rfl⟩
theorem State.setOld_onPath (s : State) (n : Nat) (v : Trib) : s.OnPath (s.setOld n v) := ⟨s.mills, s.trib, _, s.pmc, s.out, rfl⟩

theorem State.sendControl_inMills (s : State) (p : Fin 32) (i q : Nat) : s.InMills (s.sendControl p i q) := by
  unfold State.sendControl
  split
  · exact .refl s
  · refine .trans ?_ (State.countMill_inMills ..)
    unfold State.portOut
    split
    · exact ⟨s.mills, s.pmc, _, rfl⟩
    · exact .refl s

theorem State.fcCheck_inMills (s : State) (p : Fin 32) (pri : Nat) : s.InMills (s.fcCheck p pri) := by
  unfold State.fcCheck
  dsimp only
  split
  · exact .refl s
  · split
    · exact (s.modPort_inMills p _).trans (State.sendControl_inMills ..)
    · split
      · exact (s.modPort_inMills p _).trans (State.sendControl_inMills ..)
      · exact .refl s

theorem State.holdPri_inMills (s : State) (p pri n : Nat) (add : Bool) : s.InMills (s.holdPri p pri n add) :=
  (s.modPort_inMills _ _).trans (State.fcCheck_inMills ..)

theorem State.refuseTx_inMills (s : State) (m : Fin 4) (q : Queued) (held : Bool) : s.InMills (s.refuseTx m q held) := by
  refine .trans ?_ (State.fixMill_inMills ..)
  cases held
  · exact .refl s
  · exact s.holdPri_inMills ..

theorem State.modTribIn_onPath (s : State) (m : Fin 4) (n : Nat) (f : Trib → Trib) : s.OnPath (s.modTribIn m n f) := by
  unfold State.modTribIn
  dsimp only
  split
  · exact s.setTrib_onPath _ _
  · split
    · exact s.setOld_onPath _ _
    · exact .refl s

theorem State.wake_onPath (s : State) (m : Fin 4) (n : Nat) : s.OnPath (s.wake m n) := by
  unfold State.wake
  dsimp only
  split
  · exact (s.modTribIn_onPath m n _).trans (State.modSch_inMills ..).onPath
  · exact .refl s

theorem State.creditReturn_onPath (s : State) (f : Frame) : s.OnPath (s.creditReturn f) := by
  unfold State.creditReturn
  split
  · exact (s.setTrib_onPath _ _).trans (State.modSch_inMills ..).onPath
  · exact .refl s

theorem State.dropRx_onPath (s : State) (m : Fin 4) (f : Frame) : s.OnPath (s.dropRx m f) :=
  (s.fixMill_inMills ..).onPath.trans (State.creditReturn_onPath ..)

theorem State.joinTrib_onPath (s : State) (m : Fin 4) (q : Queued) (held : Bool) : s.OnPath (s.joinTrib m q held) := by
  unfold State.joinTrib
  dsimp only
  split
  · exact ((s.countMill_inMills ..).trans (State.refuseTx_inMills ..)).onPath
  · split
    · refine .trans ?_ (State.wake_onPath ..)
      split
      · exact (s.setTrib_onPath _ _).trans (State.modSch_inMills ..).onPath
      · exact (s.setTrib_onPath _ _).trans ((State.modSch_inMills ..).trans (State.holdPri_inMills ..)).onPath
    · exact ((s.countMill_inMills ..).trans (State.refuseTx_inMills ..)).onPath

theorem State.dispatchPut_inMills (s : State) (m : Fin 4) (f : Frame) : s.InMills (s.dispatchPut m f) := by
  unfold State.dispatchPut
  dsimp only
  split
  · exact s.modMill_inMills _ _
  · exact (s.modMill_inMills _ _).trans (State.countMill_inMills ..)

end Sys2Proof.Machine
end

section
/-! Frames that arrive at a client port, pause, and the headbox (R23, R31, R36, R203, R257, R258). -/

namespace Sys2Proof.Machine

variable {s : State}

/-! ### What is sent before the end of a command stays at the front of what was sent -/

theorem State.msix_out (s : State) (v : Fin 256) : s.out <:+ (s.msix v).out := by
  unfold State.msix
  split
  · exact List.suffix_rfl
  · exact List.suffix_cons ..

theorem State.irqSource_out (s : State) (n : Nat) : s.out <:+ (s.irqSource n).out := by
  unfold State.irqSource
  dsimp only
  split
  · exact List.suffix_rfl
  · split
    · exact List.suffix_rfl
    · split
      · exact List.suffix_rfl
      · exact State.msix_out (s.modHst _) _

theorem State.irqAll_out (s : State) : ∀ n, s.out <:+ (s.irqAll n).out
  | 0 => List.suffix_rfl
  | n + 1 => (s.irqAll_out n).trans (State.irqSource_out _ n)

theorem State.happen_out (s : State) (a b c d : Nat) (x : Bytes) : (s.happen a b c d x).out = s.out := by
  unfold State.happen
  split <;> rfl

theorem State.satRecords_out : ∀ (l : List Nat) (s : State), (s.satRecords l).out = s.out
  | [], _ => rfl
  | _ :: l, s => (State.satRecords_out l _).trans (s.happen_out ..)

theorem State.settle_out (s : State) : s.out <:+ s.settle.out := by
  have h := State.irqAll_out ((s.modPmc fun p => { p with satNew := [] }).satRecords s.pmc.satNew) 48
  rwa [State.satRecords_out] at h

/-! ### Frames that arrive -/

theorem exec_clientFrameReceive_bad {p : Fin 32} {frame : Bytes} {pcs : Bool} {ev : Nat} (hl : s.millLive (portMill p) = true)
    (hp : s.portOn p = true) (hc : isControl frame = false) (hb : macFault frame pcs = some ev) :
    exec (.clientFrameReceive p frame pcs) s = finish ((s.countMill (portMill p) 7 ev p.val).dropTx (portMill p)) := by
  change execClientFrameReceive p frame pcs s = _
  unfold execClientFrameReceive
  simp only [hl, hp, hc, hb, Bool.not_false, Bool.and_self, if_true]

theorem exec_clientFrameReceive_good {p : Fin 32} {frame : Bytes} {pcs : Bool} {f : Frame} (hl : s.millLive (portMill p) = true)
    (hp : s.portOn p = true) (hc : isControl frame = false) (hg : macFault frame pcs = none)
    (hf : f = { bytes := frame, port := p.val, clientMill := portMill p, stamp := s.portStamp p.val false, pri := s.ingressPri p frame }) :
    exec (.clientFrameReceive p frame pcs) s =
      finish (if s.dispRoom (portMill p) && (s.port p).hold.isEmpty
        then ((s.countMill (portMill p) 7 0 p.val).countMill (portMill p) 7 1 p.val frame.length).dispatchPut (portMill p) f
        else ((s.countMill (portMill p) 7 0 p.val).countMill (portMill p) 7 1 p.val frame.length).holdFrame p f) := by
  subst hf
  change execClientFrameReceive p frame pcs s = _
  unfold execClientFrameReceive
  simp only [hl, hp, hc, hg, Bool.not_false, Bool.and_self, if_true]
  rfl

theorem State.dispatchPut_vat {m : Fin 4} {c : Fin 8} (h : s.queueFor m = some c) (f : Frame) :
    (s.dispatchPut m f).vat m = { s.vat m with disp := (s.vat m).disp ++ [(c, f)], rr := c.val } := by
  have hv := State.vat_modVat s m fun v => { v with disp := v.disp ++ [(c, f)], rr := c.val }
  unfold State.dispatchPut
  rw [h]
  dsimp only [Option.getD_some]
  split
  · exact hv
  · exact hv

theorem State.vat_of_mills {t : State} (h : t.mills = s.mills) (m : Fin 4) : t.vat m = s.vat m := by
  unfold State.vat State.mill
  rw [h]

theorem State.port_of_mills {t : State} (h : t.mills = s.mills) (p : Fin 32) : t.port p = s.port p := by
  unfold State.port State.mill
  rw [h]

theorem State.vat_modPort (s : State) (p : Fin 32) (f : Port → Port) (m : Fin 4) : (s.modPort p f).vat m = s.vat m := by
  unfold State.modPort State.vat
  by_cases h : portMill p = m
  · rw [← h, State.mill_modMill]
  · rw [State.mill_modMill_ne _ _ _ _ h]

theorem State.foldl_dropTx_mills {α : Type} (m : Fin 4) : ∀ (l : List α) (s : State), (l.foldl (fun s _ => s.dropTx m) s).mills = s.mills
  | [], _ => rfl
  | _ :: l, s => State.foldl_dropTx_mills m l (s.dropTx m)

/-- A frame that the MAC holds back stays in the port; of what exceeds 4 KiB only the counters know. -/
theorem State.holdFrame_mills (s : State) (p : Fin 32) (f : Frame) :
    (s.holdFrame p f).mills =
      (s.modPort p fun x => { x with hold := (shedByClass (·.pri) 4096 ((s.port p).hold ++ [f]).length ((s.port p).hold ++ [f])).1 }).mills :=
  State.foldl_dropTx_mills ..

theorem State.holdFrame_vat (s : State) (p : Fin 32) (f : Frame) (m : Fin 4) : (s.holdFrame p f).vat m = s.vat m :=
  (State.vat_of_mills (State.holdFrame_mills s p f) m).trans (State.vat_modPort ..)

theorem State.holdFrame_hold (s : State) (p : Fin 32) (f : Frame) :
    ((s.holdFrame p f).port p).hold = (shedByClass (·.pri) 4096 ((s.port p).hold.length + 1) ((s.port p).hold ++ [f])).1 := by
  rw [State.port_of_mills (State.holdFrame_mills s p f), State.port_modPort, List.length_append]
  rfl

/-- A good frame joins the dispatch queue of the cluster whose turn it is. -/
theorem goodFrame_dispatched {p : Fin 32} {frame : Bytes} {pcs : Bool} {f : Frame} (hl : s.millLive (portMill p) = true)
    (hp : s.portOn p = true) (hc : isControl frame = false) (hg : macFault frame pcs = none)
    (hf : f = { bytes := frame, port := p.val, clientMill := portMill p, stamp := s.portStamp p.val false, pri := s.ingressPri p frame })
    {c : Fin 8} (hq : s.queueFor (portMill p) = some c) (hh : (s.port p).hold = []) :
    Completes (.clientFrameReceive p frame pcs) s fun t => t.vat (portMill p) =
      { s.vat (portMill p) with disp := (s.vat (portMill p)).disp ++ [(c, f)], rr := c.val } := by
  refine completes_finish (exec_clientFrameReceive_good hl hp hc hg hf) ?_
  have hroom : (s.dispRoom (portMill p) && (s.port p).hold.isEmpty) = true := by
    rw [State.dispRoom, hq, hh, Option.isSome_some, List.isEmpty_nil, Bool.and_self]
  have hsame := ((s.countMill_samePath (portMill p) 7 0 p.val 1).trans (State.countMill_samePath _ (portMill p) 7 1 p.val frame.length)).dispatchPut
    (portMill p) f
  rw [if_pos hroom, State.settle_vat, State.vat_of_mills hsame.mills]
  exact State.dispatchPut_vat hq f

/-- Where there is no room, or others wait before it, the MAC holds a good frame back. -/
theorem goodFrame_held {p : Fin 32} {frame : Bytes} {pcs : Bool} {f : Frame} (hl : s.millLive (portMill p) = true)
    (hp : s.portOn p = true) (hc : isControl frame = false) (hg : macFault frame pcs = none)
    (hf : f = { bytes := frame, port := p.val, clientMill := portMill p, stamp := s.portStamp p.val false, pri := s.ingressPri p frame })
    (hn : s.dispRoom (portMill p) = false ∨ (s.port p).hold ≠ []) :
    Completes (.clientFrameReceive p frame pcs) s fun t => t.vat (portMill p) = s.vat (portMill p)
      ∧ (t.port p).hold = (shedByClass (·.pri) 4096 ((s.port p).hold.length + 1) ((s.port p).hold ++ [f])).1 := by
  refine completes_finish (exec_clientFrameReceive_good hl hp hc hg hf) ?_
  have hroom : ¬(s.dispRoom (portMill p) && (s.port p).hold.isEmpty) = true := by
    rw [Bool.and_eq_true, List.isEmpty_iff]
    rintro ⟨hr, hh⟩
    rcases hn with hn | hn
    · rw [hn] at hr; cases hr
    · exact hn hh
  rw [if_neg hroom, State.settle_vat, State.settle_port]
  exact ⟨State.holdFrame_vat .., State.holdFrame_hold ..⟩

theorem badFrame_discarded {p : Fin 32} {frame : Bytes} {pcs : Bool} (hl : s.millLive (portMill p) = true)
    (hp : s.portOn p = true) (hc : isControl frame = false) (hb : (macFault frame pcs).isSome = true) :
    Completes (.clientFrameReceive p frame pcs) s fun t => t.mills = s.mills := by
  obtain ⟨ev, hev⟩ := Option.isSome_iff_exists.mp hb
  exact completes_finish (exec_clientFrameReceive_bad hl hp hc hev) (State.settle_mills _)

/-! ### Pause -/

theorem macControl_pauses {p : Fin 32} {frame : Bytes} {b : Byte} (hl : s.millLive (portMill p) = true) (hp : s.portOn p = true)
    (hc : isControl frame = true) (hg : macFault frame false = none)
    (hb : pauseBy (s.fld (fcReg p) 0 2) (s.fld (fcReg p) 8 8) frame (s.port p).paused = some b) :
    Completes (.macControlReceive p frame) s fun t => t.mills = (s.modPort p fun x => { x with paused := b }).mills := by
  have hexec : exec (.macControlReceive p frame) s =
      finish ((s.modPort p fun x => { x with paused := b }).countMill (portMill p) 5 10 p.val) := by
    change execMacControlReceive p frame s = _
    unfold execMacControlReceive
    simp only [hl, hp, hc, hg, hb, Bool.and_self, if_true]
  exact completes_finish hexec (State.settle_mills _)

theorem pauseExpire_completes {p : Fin 32} {q : Fin 8} (hl : s.millLive (portMill p) = true)
    (hq : (s.port p).paused.getLsbD q.val = true) :
    Completes (.pauseExpire p q) s fun t =>
      t.mills = (s.modPort p fun x => { x with paused := x.paused &&& ~~~(1#8 <<< q.val) }).mills :=
  completes_finish (if_pos (by rw [hl, hq]; rfl)) (State.settle_mills _)

/-- A control frame leaves the die unless the device follows its mate or the port's transmitters do not send. -/
theorem State.sendControl_out {p : Fin 32} (hs : s.shadowing = false) (hp : s.portSends p = true) (i q : Nat) :
    (s.sendControl p i q).out = Out.clientFrame p.val (controlFrame p (s.fld (fcReg p) 2 2) i q) :: s.out := by
  unfold State.sendControl State.portOut
  rw [hs, hp]
  rfl

theorem pfcRefresh_completes {p : Fin 32} {pri : Fin 8} (hl : s.millLive (portMill p) = true) (hon : s.fcOn p pri.val = true)
    (hx : (s.port p).xoff.getLsbD pri.val = true) (hn : s.fld (fcReg p + 4) 16 16 < s.fcCount p pri.val) :
    Completes (.pfcRefresh p pri) s fun t => t.mills = s.mills ∧ (s.shadowing = false → s.portSends p = true →
      ∃ os, t.out = os ++ Out.clientFrame p.val (controlFrame p (s.fld (fcReg p) 2 2) pri.val 0xFFFF) :: s.out) := by
  refine completes_finish (t := s.sendControl p pri.val 0xFFFF) (if_pos ?_) ⟨?_, fun hs hp => ?_⟩
  · rw [hl, hon, hx, decide_eq_true hn]; rfl
  · rw [State.settle_mills, (State.sendControl_samePath ..).mills]
  · obtain ⟨os, h⟩ := State.settle_out (s.sendControl p pri.val 0xFFFF)
    exact ⟨os, by rw [← h, State.sendControl_out hs hp]⟩

/-! ### The headbox -/

theorem State.hbxMove_samePath {s t : State} (h : s.SamePath t) (i dst : Fin 4) (o : Offer) : (s.hbxMove i dst o).SamePath (t.hbxMove i dst o) := by
  obtain ⟨a, e, k, x, c, g, rfl⟩ := h
  have h := s.beside_samePath a e k x c g
  cases o with
  | tx q => exact .ite (fun _ => ((h.modSch i _).modSch i _).joinTrib dst q true) fun _ =>
      (((h.modSch i _).modSch i _).countMill ..).refuseTx i q true
  | rx f => exact .ite (fun _ => (h.modSch i _).dispatchPut dst f) fun _ => ((h.modSch i _).countMill ..).dropRx i f

theorem State.hbxMove_onPath (s : State) (i dst : Fin 4) (o : Offer) : s.OnPath (s.hbxMove i dst o) := by
  unfold State.hbxMove
  cases o with
  | tx q =>
    dsimp only
    split
    · exact .trans (State.InMills.onPath (.trans (s.modSch_inMills i _) (State.modSch_inMills ..))) (State.joinTrib_onPath ..)
    · exact State.InMills.onPath (.trans (s.modSch_inMills i _)
        (.trans (State.modSch_inMills ..) (.trans (State.countMill_inMills ..) (State.refuseTx_inMills ..))))
  | rx f =>
    dsimp only
    split
    · exact State.InMills.onPath (.trans (s.modSch_inMills i _) (State.dispatchPut_inMills ..))
    · exact .trans (State.InMills.onPath (.trans (s.modSch_inMills i _) (State.countMill_inMills ..))) (State.dropRx_onPath ..)

/-- Sources that wait leave their mark in a status register and in the counters. -/
theorem State.hbxWaits_marks (dst : Fin 4) : ∀ (l : List (Fin 4)) (s : State), ∃ r p, s.hbxWaits dst l = { s with regs := r, pmc := p }
  | [], s => ⟨s.regs, s.pmc, rfl⟩
  | i :: l, s => by
    obtain ⟨r, p, h⟩ : ∃ r p, (if (s.offer i dst 2).isSome then (s.setBit Reg.hbxStat i.val).countMill i 6 0 dst.val else s)
        = { s with regs := r, pmc := p } := by
      split
      · exact ⟨_, _, rfl⟩
      · exact ⟨s.regs, s.pmc, rfl⟩
    unfold State.hbxWaits
    dsimp only
    rw [h]
    split
    · obtain ⟨r', p', h'⟩ := State.hbxWaits_marks dst l
        ((State.setBit { s with regs := r, pmc := p } Reg.hbxStat (4 + i.val)).countMill i 6 1 dst.val)
      exact ⟨r', p', h'⟩
    · obtain ⟨r', p', h'⟩ := State.hbxWaits_marks dst l { s with regs := r, pmc := p }
      exact ⟨r', p', h'⟩

/-- The kind that is granted is the first that offers something. -/
theorem findSome?_first_kind {α : Type} {f : Fin 3 → Option α} {k : Fin 3} {a : α} (hk : f k = some a) (hlt : ∀ j, j < k → f j = none) :
    (List.finRange 3).findSome? f = some a := by
  rw [show List.finRange 3 = [0, 1, 2] from rfl]
  match k with
  | 0 => simp [hk]
  | 1 => simp [hk, hlt 0 (by decide)]
  | 2 => simp [hk, hlt 0 (by decide), hlt 1 (by decide)]

theorem headboxTransfer_completes {dst i : Fin 4} {k : Fin 3} {o : Offer} (hg : s.hbxGrant dst k = some (i, o))
    (hlt : ∀ j : Fin 3, j < k → s.hbxGrant dst j = none) :
    Completes (.headboxTransfer dst) s fun u => u.hbxRr = s.hbxRr.set (3 * dst.val + k.val) i.val
      ∧ u.mills = (s.hbxMove i dst o).mills ∧ u.trib = (s.hbxMove i dst o).trib ∧ u.tribOld = (s.hbxMove i dst o).tribOld := by
  have hfirst : ((List.finRange 3).findSome? fun k => (s.hbxGrant dst k).map fun g => (k, g)) = some (k, i, o) :=
    findSome?_first_kind (by rw [hg]; rfl) fun j hj => by rw [hlt j hj]; rfl
  have hexec : exec (.headboxTransfer dst) s = finish
      ((State.hbxMove { s with hbxRr := s.hbxRr.set (3 * dst.val + k.val) i.val } i dst o).hbxWaits dst (List.finRange 4)) := by
    change execHeadboxTransfer dst s = _
    unfold execHeadboxTransfer
    rw [hfirst]
  refine completes_finish hexec ?_
  have hsame : (s.hbxMove i dst o).SamePath (State.hbxMove { s with hbxRr := s.hbxRr.set (3 * dst.val + k.val) i.val } i dst o) :=
    State.hbxMove_samePath (s.beside_samePath s.pmc s.evr s.hst s.out s.cur _) i dst o
  obtain ⟨r, p, hw⟩ := State.hbxWaits_marks dst (List.finRange 4)
    (State.hbxMove { s with hbxRr := s.hbxRr.set (3 * dst.val + k.val) i.val } i dst o)
  rw [hw, State.settle_hbxRr, State.settle_mills, State.settle_trib, State.settle_tribOld]
  exact ⟨(State.hbxMove_onPath ..).hbxRr, hsame.mills, hsame.trib, hsame.tribOld⟩

/-- Settles O6: each command by its lemma; the frame that crosses the headbox does not depend on the grant that is noted before it. -/
theorem clientPortsReceive : Obligations.ClientPortsReceive := by
  unfold Obligations.ClientPortsReceive
  refine ⟨fun s p hl hp => ⟨fun frame pcs f hc hg hf => ⟨fun c hq hh => goodFrame_dispatched hl hp hc hg hf hq hh,
      fun hn => goodFrame_held hl hp hc hg hf hn⟩, fun frame pcs hc hb => badFrame_discarded hl hp hc hb,
      fun frame b hc hg hb => macControl_pauses hl hp hc hg hb⟩,
    fun s p hl => ⟨fun q hq => pauseExpire_completes hl hq, fun pri hon hx hn => pfcRefresh_completes hl hon hx hn⟩,
    fun s dst i k o hg hlt => headboxTransfer_completes hg hlt⟩

end Sys2Proof.Machine
end

section
/-! Command rings (chapter 7): what a ring does after an instruction leaves what is accepted and adds to the records it owes; a state
change is told to the standby; an instruction that is applied. -/

namespace Sys2Proof.Machine

variable {s t u : State}

/-! ### What the rings do by themselves -/

theorem State.eng_modEng_ne (s : State) {k j : Fin 4} (f : Engine → Engine) (h : k ≠ j) : (s.modEng k f).cur[j] = s.cur[j] :=
  Vector.getElem_set_ne k.isLt j.isLt fun e => h (Fin.ext e)

theorem State.eng_modEng (s : State) (k : Fin 4) (f : Engine → Engine) : (s.modEng k f).cur[k] = f s.cur[k] :=
  Vector.getElem_set_self _

/-- A change of an engine that leaves `g` of every engine leaves it. -/
theorem State.modEng_keeps {α : Type} (s : State) (k : Fin 4) {f : Engine → Engine} (g : Engine → α) (hf : ∀ e, g (f e) = g e) (j : Fin 4) :
    g (s.modEng k f).cur[j] = g s.cur[j] := by
  by_cases h : k = j
  · subst h
    rw [State.eng_modEng, hf]
  · rw [State.eng_modEng_ne _ _ h]

theorem State.ring_modRing_ne (s : State) {r q : Rid} (f : Ring → Ring) (h : r ≠ q) : (s.modRing r f).ring q = s.ring q := by
  obtain ⟨k, i⟩ := r
  obtain ⟨k', j⟩ := q
  unfold State.ring State.modRing
  by_cases he : k = k'
  · subst he
    have hij : i.val ≠ j.val := fun e => h (by rw [Fin.ext e])
    rw [State.eng_modEng]
    exact Vector.getElem_set_ne i.isLt j.isLt hij
  · rw [State.eng_modEng_ne _ _ he]

theorem State.ring_modEng (s : State) (k : Fin 4) {f : Engine → Engine} (hf : ∀ e, (f e).rings = e.rings) (q : Rid) :
    (s.modEng k f).ring q = s.ring q := by
  unfold State.ring
  rw [s.modEng_keeps k Engine.rings hf q.eng]

/-- From `s` to `t` the rings have gone on: what is accepted and what is applying stays, records owed are only added, and the path of a
frame is as before. -/
structure State.Drains (s t : State) : Prop where
  path : s.SamePath t
  outst : ∀ k : Fin 4, t.cur[k].outst = s.cur[k].outst
  applying : ∀ k : Fin 4, t.cur[k].applying = s.cur[k].applying
  done : ∀ q : Rid, (s.ring q).done <+: (t.ring q).done

theorem State.Drains.refl (s : State) : s.Drains s := ⟨.refl s, fun _ => rfl, fun _ => rfl, fun _ => List.prefix_rfl⟩

theorem State.Drains.trans (h : s.Drains t) (k : t.Drains u) : s.Drains u :=
  ⟨h.path.trans k.path, fun i => (k.outst i).trans (h.outst i), fun i => (k.applying i).trans (h.applying i),
    fun q => (h.done q).trans (k.done q)⟩

/-- What leaves the rings alone. -/
theorem State.Drains.of_cur (hp : s.SamePath t) (hc : t.cur = s.cur) : s.Drains t :=
  ⟨hp, fun _ => by rw [hc], fun _ => by rw [hc], fun q => by unfold State.ring; rw [hc]⟩

theorem State.modRing_drains (s : State) (r : Rid) {f : Ring → Ring} (hf : ∀ g, g.done <+: (f g).done) : s.Drains (s.modRing r f) := by
  refine ⟨s.modEng_samePath _ _, s.modEng_keeps _ Engine.outst fun _ => rfl, s.modEng_keeps _ Engine.applying fun _ => rfl, fun q => ?_⟩
  by_cases h : r = q
  · subst h
    rw [State.ring_modRing]
    exact hf _
  · rw [State.ring_modRing_ne _ _ h]

theorem State.modEng_rr_drains (s : State) (k : Fin 4) (n : Nat) : s.Drains (s.modEng k fun e => { e with rr := n }) := by
  refine ⟨s.modEng_samePath _ _, s.modEng_keeps _ Engine.outst fun _ => rfl, s.modEng_keeps _ Engine.applying fun _ => rfl, fun q => ?_⟩
  rw [State.ring_modEng]
  exact fun _ => rfl

theorem State.countDev_drains (s : State) (a b c d : Nat) : s.Drains (s.countDev a b c d) := .of_cur (s.countDev_samePath ..) rfl
theorem State.fixDev_drains (s : State) (i n : Nat) : s.Drains (s.fixDev i n) := .of_cur (s.fixDev_samePath ..) rfl
theorem State.happen_drains (s : State) (a b c d : Nat) (x : Bytes) : s.Drains (s.happen a b c d x) :=
  .of_cur (s.happen_samePath ..) (s.happen_cur ..)
theorem State.settle_drains (s : State) : s.Drains s.settle := .of_cur s.settle_samePath s.settle_cur

/-- A record is counted after it has joined its ring. -/
theorem State.record_counts (s : State) (r : Rid) (x : Rec) : (s.modRing r fun g => { g with done := g.done ++ [x] }).Drains (s.record r x) := by
  unfold State.record
  dsimp only
  split
  · exact State.countDev_drains ..
  · exact (State.countDev_drains ..).trans (State.fixDev_drains ..)

theorem State.record_drains (s : State) (r : Rid) (x : Rec) : s.Drains (s.record r x) :=
  (s.modRing_drains r (f := fun g => { g with done := g.done ++ [x] }) fun g => List.prefix_append g.done [x]).trans (s.record_counts r x)

theorem State.drainOne_drains (s : State) (r : Rid) (d : Desc) (st : Nat) : s.Drains (s.drainOne r d st) := by
  have h : ∀ x : Rec, s.Drains (((s.modRing r fun g => { g with fetched := g.fetched.drop 1 }).modEng r.eng
      fun e => { e with rr := r.ring.val }).record r x) := fun x =>
    ((s.modRing_drains r (f := fun g => { g with fetched := g.fetched.drop 1 }) fun _ => List.prefix_rfl).trans
      (State.modEng_rr_drains ..)).trans (State.record_drains ..)
  unfold State.drainOne
  dsimp only
  split
  · exact (h _).trans ((State.modRing_drains _ r (f := fun g => { g with halt := true }) fun _ => List.prefix_rfl).trans
      (State.happen_drains ..))
  · exact h _

theorem State.drain_drains (k : Fin 4) : ∀ (n : Nat) (s : State), s.Drains (s.drain k n)
  | 0, s => .refl s
  | n + 1, s => by
    unfold State.drain
    split
    · exact (s.drainOne_drains ..).trans (State.drain_drains k n _)
    · exact .refl s

theorem State.drainAll_drains (s : State) (r : Rid) : s.Drains (s.drainAll r) := State.drain_drains _ _ s

/-! ### Instructions end and begin -/

/-- The record of an instruction that is DONE (Table 7-3). -/
def CmdRef.recordOf (ref : CmdRef) (st res : Nat) (late stepped : Bool) (dseq : Option W32) : Rec := {
  tag := ref.tag, status := byteOf st, late := late, stepped := stepped, index := ref.index,
  result := BitVec.ofNat 64 res, irq := ref.irq, dseq := dseq }

/-- What follows once the instruction of `ref` is no longer outstanding: its ring is free again where it `held` it, and its record waits. -/
def State.endCommand (s : State) (ref : CmdRef) (held : Bool) (x : Rec) : State :=
  let s1 := if held then s.modRing ref.rid fun g => { g with hold := none } else s
  let s2 := if (s1.ring ref.rid).mute then s1 else s1.record ref.rid x
  if held then s2.drainAll ref.rid else s2

theorem State.complete_eq (s : State) (ref : CmdRef) (st res : Nat) (late stepped : Bool) (dseq : Option W32) :
    ∃ held, s.complete ref st res late stepped dseq =
      (s.modEng ref.rid.eng fun e => { e with outst := e.outst.filter (· ≠ ref) }).endCommand ref held
        (ref.recordOf st res late stepped dseq) := ⟨_, rfl⟩

/-- The last step of a completion: the record, and what follows where the instruction held its ring. -/
theorem State.complete_steps (s : State) (ref : CmdRef) (st res : Nat) (late stepped : Bool) (dseq : Option W32) :
    ∃ v : State, s.SamePath v ∧ (∀ k : Fin 4, v.cur[k].applying = s.cur[k].applying)
      ∧ (v.ring ref.rid).done = (s.ring ref.rid).done ∧ (v.ring ref.rid).mute = (s.ring ref.rid).mute
      ∧ (if (v.ring ref.rid).mute then v else v.record ref.rid (ref.recordOf st res late stepped dseq)).Drains
        (s.complete ref st res late stepped dseq) := by
  have hring := s.ring_modEng ref.rid.eng (f := fun e => { e with outst := e.outst.filter (· ≠ ref) }) (fun _ => rfl) ref.rid
  have happ := s.modEng_keeps ref.rid.eng (f := fun e => { e with outst := e.outst.filter (· ≠ ref) }) Engine.applying fun _ => rfl
  have hpath := s.modEng_samePath ref.rid.eng fun e => { e with outst := e.outst.filter (· ≠ ref) }
  obtain ⟨held, heq⟩ := s.complete_eq ref st res late stepped dseq
  rw [heq]
  generalize (s.modEng ref.rid.eng fun e => { e with outst := e.outst.filter (· ≠ ref) }) = v at hring happ hpath ⊢
  cases held
  · exact ⟨v, hpath, happ, by rw [hring], by rw [hring], .refl _⟩
  · have hfree := v.modRing_drains ref.rid (f := fun g => { g with hold := none }) fun _ => List.prefix_rfl
    refine ⟨v.modRing ref.rid fun g => { g with hold := none }, hpath.trans hfree.path, fun k => (hfree.applying k).trans (happ k),
      ?_, ?_, State.drainAll_drains ..⟩
    · rw [State.ring_modRing, hring]
    · rw [State.ring_modRing, hring]

theorem State.complete_samePath (s : State) (ref : CmdRef) (st res : Nat) (late stepped : Bool) (dseq : Option W32) :
    s.SamePath (s.complete ref st res late stepped dseq) := by
  obtain ⟨v, hpath, -, -, -, hd⟩ := s.complete_steps ref st res late stepped dseq
  refine hpath.trans (.trans ?_ hd.path)
  split
  · exact .refl v
  · exact (v.record_drains ..).path

theorem State.complete_applying (s : State) (ref : CmdRef) (st res : Nat) (late stepped : Bool) (dseq : Option W32) (k : Fin 4) :
    (s.complete ref st res late stepped dseq).cur[k].applying = s.cur[k].applying := by
  obtain ⟨v, -, happ, -, -, hd⟩ := s.complete_steps ref st res late stepped dseq
  rw [hd.applying]
  split
  · exact happ k
  · exact ((v.record_drains ..).applying k).trans (happ k)

/-- An instruction that is DONE owes its record. -/
theorem State.complete_records (s : State) (ref : CmdRef) (st res : Nat) (late stepped : Bool) (dseq : Option W32) :
    s.Records (s.complete ref st res late stepped dseq) ref st res late := by
  intro hmute
  obtain ⟨v, -, -, hdone, hm, hd⟩ := s.complete_steps ref st res late stepped dseq
  rw [if_neg (by rw [hm, hmute]; exact Bool.false_ne_true)] at hd
  obtain ⟨more, h⟩ := ((v.record_counts ..).trans hd).done ref.rid
  rw [State.ring_modRing, hdone, List.append_assoc] at h
  exact ⟨_, h.symm, _, List.mem_append_left _ (List.mem_singleton_self _), rfl, rfl, rfl, rfl, rfl⟩

theorem State.pop_drains (s : State) (r : Rid) : s.Drains (s.pop r) :=
  (s.modRing_drains r (f := fun g => { g with fetched := g.fetched.drop 1, waiting := false }) fun _ => List.prefix_rfl).trans
    (State.modEng_rr_drains ..)

theorem State.accept_samePath (s : State) (ref : CmdRef) : s.SamePath (s.accept ref) := s.modEng_samePath ..

theorem State.applyNow_samePath (s : State) (ref : CmdRef) (res : Nat) (late : Bool) (dseq : Option W32) :
    s.SamePath (s.applyNow ref res late dseq) := (s.accept_samePath ref).trans (State.modEng_samePath ..)

theorem State.applyNow_applying (s : State) (ref : CmdRef) (res : Nat) (late : Bool) (dseq : Option W32) :
    (s.applyNow ref res late dseq).cur[ref.rid.eng].applying
      = s.cur[ref.rid.eng].applying ++ [{ ref := ref, late := late, result := BitVec.ofNat 64 res, dseq := dseq }] := by
  have h := s.modEng_keeps ref.rid.eng (f := fun e => { e with outst := e.outst ++ [ref] }) Engine.applying (fun _ => rfl) ref.rid.eng
  unfold State.applyNow
  rw [State.eng_modEng]
  exact congrArg (· ++ _) h

/-! ### A state change is told to the standby -/

theorem State.feltSend_ends (s : State) (type : Nat) (body : Bytes) : ∃ x o, s.feltSend type body = { s with mte := x, out := o } := by
  unfold State.feltSend
  split
  · exact ⟨_, _, rfl⟩
  · exact ⟨s.mte, s.out, rfl⟩

theorem State.delta_ends (s : State) (d : Delta) (ream : Option (Fin 4 × W32)) :
    ∃ x p o, (s.delta d ream).1 = { s with mte := x, pmc := p, out := o } := by
  unfold State.delta
  split
  · obtain ⟨x, o, h⟩ := State.feltSend_ends { s with mte := { s.mte with dseq := s.mte.dseq + 1 } } 0x10
      (beBytes 4 (s.mte.dseq + 1).toNat ++ Config.encodeDelta ream d)
    dsimp only
    rw [h]
    exact ⟨x, _, o, rfl⟩
  · exact ⟨s.mte, s.pmc, s.out, rfl⟩

/-- Telling the standby leaves mills, tributaries and rings. -/
theorem State.delta_blocks (s : State) (d : Delta) (ream : Option (Fin 4 × W32)) : (s.delta d ream).1.mills = s.mills
    ∧ (s.delta d ream).1.trib = s.trib ∧ (s.delta d ream).1.tribOld = s.tribOld ∧ (s.delta d ream).1.cur = s.cur := by
  obtain ⟨x, p, o, h⟩ := s.delta_ends d ream
  rw [h]
  exact ⟨rfl, rfl, rfl, rfl⟩

/-! ### An instruction at the head of its ring runs -/

theorem completes_issue {i : Instr} {r : Rid} {mop : Nat} {op : Nat → Bool} {run : State → Desc → CmdRef → State} {d : Desc} {P : State → Prop}
    (hx : exec i s = s.issue r mop op run) (ht : s.Takes r mop op d)
    (hP : ∀ u, (run (s.pop r) d (d.ref r)).Drains u → P u) : Completes i s P := by
  obtain ⟨hhead, hgate⟩ := ht
  refine completes_finish (t := (run (s.pop r) d (d.ref r)).drainAll r) ?_ (hP _ ((State.drainAll_drains ..).trans (State.settle_drains _)))
  rw [hx, State.issue, hhead]
  dsimp only
  rw [hgate]

/-- An instruction whose check passes is in APPLYING, and its effect is on the path. -/
theorem completes_apply {i : Instr} {r : Rid} {mop : Nat} {op : Nat → Bool} {chk : State → Fin 4 → Desc → Option Nat}
    {eff : State → Fin 4 → Desc → Eff} {d : Desc} {P : State → Prop}
    (hx : exec i s = s.issue r mop op (State.doApply chk eff)) (ht : s.Takes r mop op d) (hc : chk (s.pop r) r.eng d = none)
    (happ : (eff (s.pop r) r.eng d).s.cur[r.eng].applying = (s.pop r).cur[r.eng].applying)
    (hP : ∀ u, (eff (s.pop r) r.eng d).s.SamePath u → P u) :
    Completes i s fun u => s.Applies u r d (eff (s.pop r) r.eng d).result (eff (s.pop r) r.eng d).late ∧ P u := by
  refine completes_issue hx ht fun u hu => ?_
  have hrun : State.doApply chk eff (s.pop r) d (d.ref r) = (eff (s.pop r) r.eng d).s.applyNow (d.ref r) (eff (s.pop r) r.eng d).result
      (eff (s.pop r) r.eng d).late (eff (s.pop r) r.eng d).dseq := by
    unfold State.doApply
    rw [show (d.ref r).rid.eng = r.eng from rfl, hc]
  rw [hrun] at hu
  refine ⟨⟨(eff (s.pop r) r.eng d).dseq, ?_⟩, hP u ((State.applyNow_samePath ..).trans hu.path)⟩
  rw [hu.applying, ← (s.pop_drains r).applying, ← happ]
  exact State.applyNow_applying _ (d.ref r) ..

end Sys2Proof.Machine
end

section
/-! Queue settings and the ends of a tributary (chapters 1 and 8): each operation on two states with the same path, and what it leaves. -/

namespace Sys2Proof.Machine

variable {s t u : State}

/-! ### Operations on the path, on two states with the same path -/

theorem State.SamePath.setShaper (h : s.SamePath t) (m : Fin 4) (n : Nat) (en : Bool) (b : Buckets) :
    (s.setShaper m n en b).SamePath (t.setShaper m n en b) := (h.modTrib n _).wake m n

theorem State.SamePath.unlist (h : s.SamePath t) (m : Fin 4) (n : Nat) : (s.unlist m n).SamePath (t.unlist m n) := h.modSch m _

theorem State.SamePath.setPolicer (h : s.SamePath t) (m : Fin 4) (n : Nat) (p : Policer) : (s.setPolicer m n p).SamePath (t.setPolicer m n p) :=
  h.modSch m _

theorem State.SamePath.startStream (h : s.SamePath t) (m : Fin 4) (n : Nat) : (s.startStream m n).SamePath (t.startStream m n) := h.modLine m _

theorem State.SamePath.clearReady (h : s.SamePath t) (m : Fin 4) (n : Nat) : (s.clearReady m n).SamePath (t.clearReady m n) := by
  obtain ⟨a, e, k, o, c, g, rfl⟩ := h
  unfold State.clearReady
  exact (s.beside_samePath a e k o c g).modDkl m _

theorem State.SamePath.releaseTx (h : s.SamePath t) (m : Fin 4) (q : Queued) : (s.releaseTx m q).SamePath (t.releaseTx m q) :=
  (h.modSch m _).holdPri ..

theorem State.SamePath.flushTx (m : Fin 4) : ∀ (qs : List Queued) {s t : State}, s.SamePath t → (s.flushTx m qs).SamePath (t.flushTx m qs)
  | [], _, _, h => h
  | q :: qs, _, _, h => State.SamePath.flushTx m qs (((h.releaseTx m q).countMill ..).dropTx m)

theorem State.SamePath.cutStream (h : s.SamePath t) (m : Fin 4) (x : Trib) : (s.cutStream m x).SamePath (t.cutStream m x) :=
  .ite (fun _ => h) fun _ => (h.modSch m _).holdPri ..

theorem State.SamePath.endTx (h : s.SamePath t) (m : Fin 4) (n : Nat) (x : Trib) : (s.endTx m n x).SamePath (t.endTx m n x) :=
  ((State.SamePath.flushTx m x.queue h).cutStream m x).unlist m n

theorem State.SamePath.endRx (h : s.SamePath t) (m : Fin 4) (n : Nat) : (s.endRx m n).SamePath (t.endRx m n) := by
  obtain ⟨a, e, k, o, c, g, rfl⟩ := h
  have h := s.beside_samePath a e k o c g
  unfold State.endRx
  exact (State.SamePath.modLine (.ite (fun _ => h) fun _ => h.fixMill m 1 1) m _).modSch m _

theorem State.SamePath.oweEnd (h : s.SamePath t) (m : Fin 4) (n : Nat) (x : Trib) : (s.oweEnd m n x).SamePath (t.oweEnd m n x) :=
  .ite (fun _ => h.modLine m _) fun _ => h

theorem State.SamePath.updateTrib (h : s.SamePath t) (m : Fin 4) (n : Nat) (pool : Option (Fin 8)) (route : Option (Fin 4))
    (quantum qlim grant : Nat) : (s.updateTrib m n pool route quantum qlim grant).SamePath (t.updateTrib m n pool route quantum qlim grant) := by
  obtain ⟨a, e, k, o, c, g, rfl⟩ := h
  have h := s.beside_samePath a e k o c g
  unfold State.updateTrib
  exact (State.SamePath.modTrib (.ite (fun _ => h) fun _ => (h.unlist m n).modTrib n _) n _).wake m n

theorem State.completeOpt_samePath (s : State) (ref : Option CmdRef) (st res : Nat) (late : Bool) (dseq : Option W32) :
    s.SamePath (s.completeOpt ref st res late dseq) := by
  cases ref with
  | none => exact .refl s
  | some ref => exact s.complete_samePath ..

/-- The old side of a move before the move is reported DONE. -/
def State.leaveOld (s : State) (n : Nat) : State :=
  let o : Trib := tget default s.tribOld n
  (((s.endTx o.mill n o).oweEnd o.mill n o).setOld n {}).modTrib n fun t => { t with move := none }

theorem State.endMove_eq (s : State) (n : Nat) : s.endMove n =
    if (tget default s.tribOld n : Trib).active then (s.leaveOld n).completeOpt (s.tribAt n).move 0 0 false none else s := rfl

theorem State.SamePath.leaveOld (h : s.SamePath t) (n : Nat) : (s.leaveOld n).SamePath (t.leaveOld n) := by
  obtain ⟨a, e, k, o, c, g, rfl⟩ := h
  unfold State.leaveOld
  exact ((((s.beside_samePath a e k o c g).endTx _ n _).oweEnd _ n _).setOld n {}).modTrib n _

theorem State.SamePath.endMove (h : s.SamePath t) (n : Nat) : (s.endMove n).SamePath (t.endMove n) := by
  have hl := h.leaveOld n
  obtain ⟨a, e, k, o, c, g, rfl⟩ := h
  rw [State.endMove_eq, State.endMove_eq]
  exact .ite (fun _ => (State.completeOpt_samePath ..).symm.trans (hl.trans (State.completeOpt_samePath ..)))
    fun _ => s.beside_samePath a e k o c g

theorem State.SamePath.endSide (h : s.SamePath t) (m : Fin 4) (n : Nat) (x : Trib) : (s.endSide m n x).SamePath (t.endSide m n x) :=
  (h.endTx m n x).endRx m n

theorem State.SamePath.tribAt (h : s.SamePath t) (n : Nat) : t.tribAt n = s.tribAt n := by unfold State.tribAt; rw [h.trib]

theorem State.SamePath.stopTrib (h : s.SamePath t) (m : Fin 4) (n : Nat) : (s.stopTrib m n).SamePath (t.stopTrib m n) := by
  have he := h.endMove n
  unfold State.stopTrib
  dsimp only
  rw [he.tribAt]
  exact ((he.endSide m n _).setTrib n {}).clearReady m n

/-! ### What they leave -/

theorem State.flushTx_inMills (m : Fin 4) : ∀ (qs : List Queued) (s : State), s.InMills (s.flushTx m qs)
  | [], s => .refl s
  | _ :: qs, s => ((s.modSch_inMills ..).trans (State.holdPri_inMills ..)).trans
      (((State.countMill_inMills ..).trans (State.fixMill_inMills ..)).trans (State.flushTx_inMills m qs _))

theorem State.cutStream_inMills (s : State) (m : Fin 4) (x : Trib) : s.InMills (s.cutStream m x) := by
  unfold State.cutStream
  split
  · exact .refl s
  · exact (s.modSch_inMills ..).trans (State.holdPri_inMills ..)

theorem State.unlist_inMills (s : State) (m : Fin 4) (n : Nat) : s.InMills (s.unlist m n) := s.modSch_inMills m _

theorem State.endTx_inMills (s : State) (m : Fin 4) (n : Nat) (x : Trib) : s.InMills (s.endTx m n x) :=
  ((State.flushTx_inMills m x.queue s).trans (State.cutStream_inMills ..)).trans (State.unlist_inMills ..)

theorem State.endRx_inMills (s : State) (m : Fin 4) (n : Nat) : s.InMills (s.endRx m n) := by
  unfold State.endRx
  dsimp only
  split
  · exact .trans (s.modLine_inMills ..) (State.modSch_inMills ..)
  · exact .trans (.trans (s.fixMill_inMills ..) (State.modLine_inMills ..)) (State.modSch_inMills ..)

theorem State.oweEnd_inMills (s : State) (m : Fin 4) (n : Nat) (x : Trib) : s.InMills (s.oweEnd m n x) := by
  unfold State.oweEnd
  split
  · exact s.modLine_inMills ..
  · exact .refl s

theorem State.setShaper_onPath (s : State) (m : Fin 4) (n : Nat) (en : Bool) (b : Buckets) : s.OnPath (s.setShaper m n en b) :=
  (s.setTrib_onPath ..).trans (State.wake_onPath ..)

theorem State.updateTrib_onPath (s : State) (m : Fin 4) (n : Nat) (pool : Option (Fin 8)) (route : Option (Fin 4)) (quantum qlim grant : Nat) :
    s.OnPath (s.updateTrib m n pool route quantum qlim grant) := by
  unfold State.updateTrib
  dsimp only
  refine .trans ?_ (State.wake_onPath ..)
  split
  · exact s.setTrib_onPath ..
  · exact .trans (.trans (s.unlist_inMills ..).onPath (State.setTrib_onPath ..)) (State.setTrib_onPath ..)

theorem State.leaveOld_onPath (s : State) (n : Nat) : s.OnPath (s.leaveOld n) :=
  .trans (.trans (State.InMills.onPath (.trans (s.endTx_inMills ..) (State.oweEnd_inMills ..))) (State.setOld_onPath ..)) (State.setTrib_onPath ..)

theorem State.endMove_applying (s : State) (n : Nat) (k : Fin 4) : (s.endMove n).cur[k].applying = s.cur[k].applying := by
  rw [State.endMove_eq]
  split
  · cases (s.tribAt n).move with
    | none => exact congrArg (fun es : Vector Engine 4 => es[k].applying) (s.leaveOld_onPath n).cur
    | some ref =>
      exact ((s.leaveOld n).complete_applying ref 0 0 false false none k).trans
        (congrArg (fun es : Vector Engine 4 => es[k].applying) (s.leaveOld_onPath n).cur)
  · rfl

theorem State.endSide_inMills (s : State) (m : Fin 4) (n : Nat) (x : Trib) : s.InMills (s.endSide m n x) :=
  (s.endTx_inMills ..).trans (State.endRx_inMills ..)

theorem State.clearReady_inMills (s : State) (m : Fin 4) (n : Nat) : s.InMills (s.clearReady m n) := by
  unfold State.clearReady
  exact s.modDkl_inMills m _

theorem State.stopTrib_onPath (s : State) (m : Fin 4) (n : Nat) : (s.endMove n).OnPath (s.stopTrib m n) := by
  unfold State.stopTrib
  dsimp only
  exact .trans (.trans (State.endSide_inMills ..).onPath (State.setTrib_onPath ..)) (State.clearReady_inMills ..).onPath

/-- A tributary that is deactivated is as at reset (R250). -/
theorem State.stopTrib_trib (s : State) (m : Fin 4) (n : Nat) : (s.stopTrib m n).trib = tset default n {} (s.endMove n).trib := by
  unfold State.stopTrib
  dsimp only
  rw [(State.clearReady_inMills ..).trib]
  exact congrArg (tset default n {}) (State.endSide_inMills ..).trib

theorem State.stopTrib_applying (s : State) (m : Fin 4) (n : Nat) (k : Fin 4) : (s.stopTrib m n).cur[k].applying = s.cur[k].applying :=
  (congrArg (fun es : Vector Engine 4 => es[k].applying) (s.stopTrib_onPath m n).cur).trans (s.endMove_applying n k)

end Sys2Proof.Machine
end

section
/-! `SHPSET`, `POLSET` and `QCFG` (R21, R22, R241, R242, R247-R250). -/

namespace Sys2Proof.Machine

variable {s u : State} {r : Rid} {d : Desc}

/-! ### Buckets -/

/-- R242, R248: new settings of a bucket pair, and the tokens that it keeps. -/
theorem Desc.buckets_configured (d : Desc) (b : Buckets) (now : Nat) (fill : Bool) :
    let x := d.buckets b now fill
    x.cir = d.arg 0 4 ∧ x.cbs = d.arg 4 4 ∧ x.pir = d.arg 8 4 ∧ x.pbs = d.arg 12 4 ∧ x.tick = now
    ∧ x.tc ≤ (x.cbs * byteU : Nat) ∧ x.tp ≤ (x.pbs * byteU : Nat)
    ∧ (fill = true → x.tc = (x.cbs * byteU : Nat) ∧ x.tp = (x.pbs * byteU : Nat))
    ∧ (fill = false → x.tc ≤ b.tc + (b.cir * (now - b.tick) : Nat) ∧ x.tp ≤ b.tp + (b.pir * (now - b.tick) : Nat)) := by
  cases fill with
  | true => exact ⟨rfl, rfl, rfl, rfl, rfl, Int.le_refl _, Int.le_refl _, fun _ => ⟨rfl, rfl⟩, fun h => Bool.noConfusion h⟩
  | false =>
    exact ⟨rfl, rfl, rfl, rfl, rfl, Int.min_le_left _ _, Int.min_le_left _ _, fun h => Bool.noConfusion h,
      fun _ => ⟨(Int.min_le_right _ _).trans (Int.min_le_right _ _), (Int.min_le_right _ _).trans (Int.min_le_right _ _)⟩⟩

/-! ### The instructions -/

/-- What is told to the standby after an operation does not change what the operation did. -/
theorem told_blocks {v w : State} {x : Delta} {ream : Option (Fin 4 × W32)} (h : w.SamePath v) (hu : (v.delta x ream).1.SamePath u) :
    u.mills = w.mills ∧ u.trib = w.trib ∧ u.tribOld = w.tribOld := by
  obtain ⟨hm, ht, ho, -⟩ := v.delta_blocks x ream
  exact ⟨hu.mills.trans (hm.trans h.mills), hu.trib.trans (ht.trans h.trib), hu.tribOld.trans (ho.trans h.tribOld)⟩

theorem State.pop_samePath (s : State) (r : Rid) : s.SamePath (s.pop r) := (s.pop_drains r).path

/-- An instruction whose check passes and whose effect `op` is told to the standby: it is in APPLYING, and its effect is that of `op` on
the state with the instruction still in its ring. -/
theorem completes_told {i : Instr} {mop : Nat} {op : Nat → Bool} {chk : State → Fin 4 → Desc → Option Nat} {eff : State → Fin 4 → Desc → Eff}
    (f : State → Fin 4 → Desc → State) (hx : exec i s = s.issue r mop op (State.doApply chk eff)) (ht : s.Takes r mop op d)
    (hc : chk (s.pop r) r.eng d = none) (he : ∃ x, (eff (s.pop r) r.eng d).s = ((f (s.pop r) r.eng d).delta x).1)
    (hr : (eff (s.pop r) r.eng d).result = 0) (hl : (eff (s.pop r) r.eng d).late = false)
    (happ : ∀ k : Fin 4, (f (s.pop r) r.eng d).cur[k].applying = (s.pop r).cur[k].applying)
    (hf : (f s r.eng d).SamePath (f (s.pop r) r.eng d)) :
    Completes i s fun u => s.Applies u r d
      ∧ u.mills = (f s r.eng d).mills ∧ u.trib = (f s r.eng d).trib ∧ u.tribOld = (f s r.eng d).tribOld := by
  obtain ⟨x, he⟩ := he
  obtain ⟨-, -, -, hcur⟩ := (f (s.pop r) r.eng d).delta_blocks x none
  have h := completes_apply (P := fun u => u.mills = (f s r.eng d).mills ∧ u.trib = (f s r.eng d).trib ∧ u.tribOld = (f s r.eng d).tribOld)
    hx ht hc (by rw [he, hcur, happ]) fun u hu => told_blocks hf (he ▸ hu)
  rwa [hr, hl] at h

theorem Completes.mono {i : Instr} {P Q : State → Prop} (h : Completes i s P) (hpq : ∀ u, P u → Q u) : Completes i s Q := by
  obtain ⟨t, ht, hP⟩ := h
  exact ⟨t, ht, hpq t hP⟩

theorem State.OnPath.applying {v w : State} (h : v.OnPath w) (k : Fin 4) : w.cur[k].applying = v.cur[k].applying := by rw [h.cur]

/-- The shaper as `SHPSET` sets it. -/
def State.shaped (s : State) (m : Fin 4) (d : Desc) : State :=
  s.setShaper m d.p2 (natBit (d.arg 16 1) 0) (d.buckets (s.tribAt d.p2).sh s.now
    (natBit (d.arg 16 1) 1 || (natBit (d.arg 16 1) 0 && !(s.tribAt d.p2).shEn)))

/-- The policer as `POLSET` sets it. -/
def State.policed (s : State) (m : Fin 4) (d : Desc) : State :=
  s.setPolicer m d.p2 (if natBit (d.arg 16 1) 0 then
    { en := true, aware := natBit (d.arg 16 1) 1, yellow := d.arg 18 1 % 4, yellowCls := natBits (d.arg 18 1) 4 3
      red := d.arg 19 1 % 4, redCls := natBits (d.arg 19 1) 4 3
      b := d.buckets (s.policerAt m d.p2).b s.now (natBit (d.arg 16 1) 2 || !(s.policerAt m d.p2).en) } else {})

/-- The tributary as `QCFG` ACTIVATE starts it. -/
def State.started (s : State) (m : Fin 4) (d : Desc) : State := s.startTrib m d.p2 d.pool d.route (d.arg 4 4) (d.arg 8 2) (d.arg 10 2)

/-- The tributary as `QCFG` UPDATE leaves it. -/
def State.updated (s : State) (m : Fin 4) (d : Desc) : State := s.updateTrib m d.p2 d.pool d.route (d.arg 4 4) (d.arg 8 2) (d.arg 10 2)

theorem shpset_completes (ht : s.Takes r 0x28 (fun _ => true) d) (hc : checkShpset s r.eng d = none) :
    Completes (.shpset r) s fun u => s.Applies u r d ∧ u.trib = (s.shaped r.eng d).trib ∧ u.mills = (s.shaped r.eng d).mills := by
  refine (completes_told (chk := checkShpset) (eff := applyShpset) State.shaped rfl ht hc ⟨_, rfl⟩ rfl rfl
    (State.setShaper_onPath ..).applying ((s.pop_samePath r).setShaper r.eng d.p2 _ _)).mono ?_
  rintro u ⟨ha, hm, htr, -⟩
  exact ⟨ha, htr, hm⟩

theorem polset_completes (ht : s.Takes r 0x29 (fun _ => true) d) (hc : checkPolset s r.eng d = none) :
    Completes (.polset r) s fun u => s.Applies u r d ∧ (u.sch r.eng).policers = ((s.policed r.eng d).sch r.eng).policers := by
  refine (completes_told (chk := checkPolset) (eff := applyPolset) State.policed rfl ht hc ⟨_, rfl⟩ rfl rfl
    (State.modSch_inMills ..).onPath.applying ((s.pop_samePath r).setPolicer r.eng d.p2 _)).mono ?_
  rintro u ⟨ha, hm, -, -⟩
  refine ⟨ha, ?_⟩
  unfold State.sch State.mill
  rw [hm]

theorem qcfgActivate_completes (ht : s.Takes r 0x2A (· = 0) d) (hc : checkQcfgActivate s r.eng d = none) :
    Completes (.qcfgActivate r) s fun u => s.Applies u r d ∧ u.mills = (s.started r.eng d).mills ∧ u.trib = (s.started r.eng d).trib := by
  refine (completes_told (chk := checkQcfgActivate) (eff := applyQcfgActivate) State.started rfl ht hc ⟨_, rfl⟩ rfl rfl
    (State.OnPath.trans (State.modLine_inMills ..).onPath (State.setTrib_onPath ..)).applying
    (((s.pop_samePath r).startStream r.eng d.p2).setTrib d.p2 _)).mono ?_
  rintro u ⟨ha, hm, htr, -⟩
  exact ⟨ha, hm, htr⟩

theorem qcfgDeactivate_completes (ht : s.Takes r 0x2A (· = 1) d) (hc : checkQcfgDeactivate s r.eng d = none) :
    Completes (.qcfgDeactivate r) s fun u => s.Applies u r d ∧ u.mills = (s.stopTrib r.eng d.p2).mills
      ∧ u.trib = tset default d.p2 {} (s.endMove d.p2).trib ∧ u.tribOld = (s.stopTrib r.eng d.p2).tribOld := by
  refine (completes_told (chk := checkQcfgDeactivate) (eff := applyQcfgDeactivate) (fun s m d => s.stopTrib m d.p2) rfl ht hc ⟨_, rfl⟩ rfl rfl
    (State.stopTrib_applying _ r.eng d.p2) ((s.pop_samePath r).stopTrib r.eng d.p2)).mono ?_
  rintro u ⟨ha, hm, htr, ho⟩
  exact ⟨ha, hm, htr.trans (s.stopTrib_trib ..), ho⟩

theorem qcfgUpdate_completes (ht : s.Takes r 0x2A (· = 2) d) (hc : checkQcfgUpdate s r.eng d = none) :
    Completes (.qcfgUpdate r) s fun u => s.Applies u r d ∧ u.mills = (s.updated r.eng d).mills ∧ u.trib = (s.updated r.eng d).trib := by
  refine (completes_told (chk := checkQcfgUpdate) (eff := applyQcfgUpdate) State.updated rfl ht hc ⟨_, rfl⟩ rfl rfl
    (State.updateTrib_onPath ..).applying ((s.pop_samePath r).updateTrib r.eng d.p2 ..)).mono ?_
  rintro u ⟨ha, hm, htr, -⟩
  exact ⟨ha, hm, htr⟩

/-- `POLSET` writes one policer of the mill. -/
theorem State.policed_policers (s : State) (m : Fin 4) (d : Desc) : ((s.policed m d).sch m).policers = tset default d.p2
    (if natBit (d.arg 16 1) 0 then
      { en := true, aware := natBit (d.arg 16 1) 1, yellow := d.arg 18 1 % 4, yellowCls := natBits (d.arg 18 1) 4 3
        red := d.arg 19 1 % 4, redCls := natBits (d.arg 19 1) 4 3
        b := d.buckets (s.policerAt m d.p2).b s.now (natBit (d.arg 16 1) 2 || !(s.policerAt m d.p2).en) }
    else {}) (s.sch m).policers := congrArg Sch.policers (State.sch_modSch ..)

/-- Settles O21: each instruction by its lemma; its effect does not depend on the rings, from which it has been taken. -/
theorem tributariesAreConfigured : Obligations.TributariesAreConfigured := by
  unfold Obligations.TributariesAreConfigured
  exact ⟨fun s r d => ⟨shpset_completes, fun ht hc => (polset_completes ht hc).mono fun u ⟨ha, hp⟩ => ⟨ha, hp.trans (s.policed_policers r.eng d)⟩,
      fun b fill => d.buckets_configured b s.now fill⟩,
    fun s r d => ⟨qcfgActivate_completes, qcfgDeactivate_completes, qcfgUpdate_completes⟩⟩

end Sys2Proof.Machine
end

section
/-! Moves of a tributary, and frames that leave at a client port (R37, R38, R40, R219, R231, R251, R255, R260). -/

namespace Sys2Proof.Machine

variable {s t u : State}

/-! ### A move begins -/

theorem State.SamePath.foldl {α : Type} {f : State → α → State} (hf : ∀ (x : α) (s t : State), s.SamePath t → (f s x).SamePath (f t x)) :
    ∀ (l : List α) {s t : State}, s.SamePath t → (l.foldl f s).SamePath (l.foldl f t)
  | [], _, _, h => h
  | x :: l, _, _, h => State.SamePath.foldl hf l (hf x _ _ h)

/-- A frame staged in mill `c` itself joins its tributary there. -/
def State.takeStaged (s : State) (c : Fin 4) (q : Queued) : State :=
  (s.modSch c fun x => { x with txUsed := x.txUsed - q.units }).joinTrib c q true

theorem State.SamePath.takeStaged (h : s.SamePath t) (c : Fin 4) (q : Queued) : (s.takeStaged c q).SamePath (t.takeStaged c q) :=
  State.SamePath.joinTrib (h.modSch c _) c q true

theorem State.SamePath.restage (h : s.SamePath t) (old new : Fin 4) (n : Nat) (c : Fin 4) :
    (s.restage old new n c).SamePath (t.restage old new n c) := by
  obtain ⟨a, e, k, o, x, g, rfl⟩ := h
  have h := s.beside_samePath a e k o x g
  unfold State.restage
  dsimp only
  rw [show (s.beside a e k o x g).sch c = s.sch c from rfl]
  split
  · exact State.SamePath.foldl (f := fun s q => s.takeStaged c q) (fun q _ _ h => h.takeStaged c q) _ (h.modSch c _)
  · exact (h.modSch c _).modSch c _

theorem State.SamePath.startMove (h : s.SamePath t) (m old : Fin 4) (n : Nat) (ref : CmdRef) :
    (s.startMove m old n ref).SamePath (t.startMove m old n ref) := by
  obtain ⟨a, e, k, o, x, g, rfl⟩ := h
  have h := s.beside_samePath a e k o x g
  unfold State.startMove
  exact State.SamePath.foldl (fun c _ _ h => h.restage old m n c) _
    (((((h.startStream m n).setOld n _).setTrib n _).endRx old n).clearReady old n)

theorem State.restage_onPath (s : State) (old new : Fin 4) (n : Nat) (c : Fin 4) : s.OnPath (s.restage old new n c) := by
  unfold State.restage
  dsimp only
  split
  · exact (s.modSch_inMills ..).onPath.trans
      (State.OnPath.foldl (fun s q => (s.modSch_inMills ..).onPath.trans (State.joinTrib_onPath ..)) _ _)
  · exact State.InMills.onPath (.trans (s.modSch_inMills ..) (State.modSch_inMills ..))

theorem State.startStream_inMills (s : State) (m : Fin 4) (n : Nat) : s.InMills (s.startStream m n) := s.modLine_inMills m _

theorem State.startMove_onPath (s : State) (m old : Fin 4) (n : Nat) (ref : CmdRef) : s.OnPath (s.startMove m old n ref) := by
  unfold State.startMove
  dsimp only
  exact .trans (.trans (.trans (.trans (s.startStream_inMills m n).onPath (State.setOld_onPath ..)) (State.setTrib_onPath ..))
    (State.InMills.onPath (.trans (State.endRx_inMills ..) (State.clearReady_inMills ..))))
    (State.OnPath.foldl (fun s c => s.restage_onPath old m n c) _ _)

/-- The old mill that a move names. -/
def Desc.oldMill (d : Desc) : Fin 4 := ⟨d.p1 % 4, by omega⟩

/-- The old side of a FLUSH move: what it holds is discarded. -/
def State.flushOld (s : State) (old : Fin 4) (n : Nat) : State :=
  let o : Trib := tget default s.tribOld n
  ((s.endTx old n o).oweEnd old n o).setOld n { o with queue := [], stream := {}, list := none }

/-- What a move does on the path of a frame (R37, R38). -/
def State.moved (s : State) (flush : Bool) (d : Desc) (ref : CmdRef) : State :=
  let w := s.startMove ref.rid.eng d.oldMill d.p2 ref
  if flush then w.flushOld d.oldMill d.p2 else w

theorem State.SamePath.flushOld (h : s.SamePath t) (old : Fin 4) (n : Nat) : (s.flushOld old n).SamePath (t.flushOld old n) := by
  obtain ⟨a, e, k, o, x, g, rfl⟩ := h
  unfold State.flushOld
  exact (((s.beside_samePath a e k o x g).endTx old n _).oweEnd old n _).setOld n _

theorem State.SamePath.moved (h : s.SamePath t) (flush : Bool) (d : Desc) (ref : CmdRef) : (s.moved flush d ref).SamePath (t.moved flush d ref) :=
  .ite (fun _ => (h.startMove ..).flushOld ..) fun _ => h.startMove ..

theorem State.sch_modPort (s : State) (p : Fin 32) (f : Port → Port) (m : Fin 4) : (s.modPort p f).sch m = s.sch m := by
  unfold State.modPort State.sch
  by_cases h : portMill p = m
  · rw [← h, State.mill_modMill]
  · rw [State.mill_modMill_ne _ _ _ _ h]

theorem State.port_modSch (s : State) (m : Fin 4) (f : Sch → Sch) (p : Fin 32) : (s.modSch m f).port p = s.port p := by
  unfold State.modSch State.port
  by_cases h : m = portMill p
  · subst h
    rw [State.mill_modMill]
  · rw [State.mill_modMill_ne _ _ _ _ h]

/-- What the old side holds is discarded in its mill. -/
theorem State.flushOld_ends (s : State) (old : Fin 4) (n : Nat) :
    s.InMills ((s.endTx old n (tget default s.tribOld n)).oweEnd old n (tget default s.tribOld n)) :=
  .trans (s.endTx_inMills ..) (State.oweEnd_inMills ..)

theorem State.moved_onPath (s : State) (flush : Bool) (d : Desc) (ref : CmdRef) : s.OnPath (s.moved flush d ref) := by
  cases flush with
  | false => exact s.startMove_onPath ..
  | true => exact .trans (s.startMove_onPath ..) (.trans (State.flushOld_ends ..).onPath (State.setOld_onPath ..))

theorem State.runMove_told {flush : Bool} {d : Desc} {ref : CmdRef} (h : s.moveCheck ref.rid.eng d = none) :
    ∃ x, s.runMove flush d ref = ((((s.endMove d.p2).accept ref).moved flush d ref).delta x).1 := by
  unfold State.runMove
  dsimp only
  rw [h]
  exact ⟨_, rfl⟩

theorem State.accept_outst (s : State) (ref : CmdRef) : (s.accept ref).Pends ref := by
  unfold State.Pends State.accept
  rw [State.eng_modEng]
  exact List.mem_append_right _ (List.mem_singleton_self ref)

/-- A move that passes its check is accepted, and it does on the path what it does on the state with the instruction still in its ring. -/
theorem completes_move {i : Instr} {r : Rid} {d : Desc} {op : Nat → Bool} {flush : Bool}
    (hx : exec i s = s.issue r 0x2A op (State.runMove flush)) (ht : s.Takes r 0x2A op d) (hc : s.moveCheck r.eng d = none) :
    Completes i s fun u => u.Pends (d.ref r) ∧ u.mills = ((s.endMove d.p2).moved flush d (d.ref r)).mills
      ∧ u.trib = ((s.endMove d.p2).moved flush d (d.ref r)).trib ∧ u.tribOld = ((s.endMove d.p2).moved flush d (d.ref r)).tribOld := by
  refine completes_issue hx ht fun u hu => ?_
  obtain ⟨x, hrun⟩ := State.runMove_told (s := s.pop r) (flush := flush) (ref := d.ref r) hc
  rw [hrun] at hu
  refine ⟨?_, told_blocks ((((s.pop_samePath r).endMove d.p2).trans (State.accept_samePath _ (d.ref r))).moved flush d (d.ref r)) hu.path⟩
  obtain ⟨-, -, -, hcur⟩ := ((((s.pop r).endMove d.p2).accept (d.ref r)).moved flush d (d.ref r)).delta_blocks x none
  unfold State.Pends
  rw [hu.outst, hcur, (State.moved_onPath ..).cur]
  exact State.accept_outst _ (d.ref r)

/-! ### A move ends -/

theorem State.ring_of_cur (h : t.cur = s.cur) (q : Rid) : t.ring q = s.ring q := by unfold State.ring; rw [h]

theorem State.endMove_records {n : Nat} {ref : CmdRef} (ho : (tget default s.tribOld n : Trib).active = true) (hm : (s.tribAt n).move = some ref) :
    s.Records (s.endMove n) ref 0 := by
  have hrec := (s.leaveOld n).complete_records ref 0 0 false false none
  unfold State.Records at hrec
  rw [State.ring_of_cur (s.leaveOld_onPath n).cur] at hrec
  rw [State.endMove_eq, if_pos ho, hm]
  exact hrec

theorem moveQueueEmpty_completes {n : Fin 16384} (ho : (tget default s.tribOld n.val : Trib).active = true)
    (hq : (tget default s.tribOld n.val : Trib).queue = []) (hl : (tget default s.tribOld n.val : Trib).stream.left = []) :
    Completes (.moveQueueEmpty n) s fun u =>
      u.trib = ((s.endMove n.val).wake (s.tribAt n.val).mill n.val).trib ∧ u.tribOld = ((s.endMove n.val).wake (s.tribAt n.val).mill n.val).tribOld
      ∧ ∀ ref, (s.tribAt n.val).move = some ref → s.Records u ref 0 := by
  refine completes_finish (if_pos ⟨ho, hq, hl⟩) ⟨State.settle_trib _, State.settle_tribOld _, fun ref hm => ?_⟩
  have hrec := State.endMove_records ho hm
  unfold State.Records at hrec ⊢
  rwa [State.settle_ring, State.ring_of_cur (State.wake_onPath ..).cur]

/-! ### Frames that leave -/

theorem State.releaseEg_onPath (s : State) (m : Fin 4) (q : Queued) : s.OnPath (s.releaseEg m q) :=
  .trans (s.modSch_inMills ..).onPath (State.creditReturn_onPath ..)

theorem State.dropLong_onPath (p : Fin 32) (q : Fin 8) : ∀ (fs : List Queued) (s : State), s.OnPath (s.dropLong p q fs)
  | [], s => .refl s
  | f :: fs, s => by
    unfold State.dropLong
    split
    · exact .trans (.trans (.trans (s.modPort_inMills ..).onPath (State.releaseEg_onPath ..))
        (State.InMills.onPath (.trans (State.countMill_inMills ..) (State.fixMill_inMills ..)))) (State.dropLong_onPath p q fs _)
    · exact .refl s

theorem State.dropAllLong_onPath (s : State) (p : Fin 32) : s.OnPath (s.dropAllLong p) :=
  State.OnPath.foldl (fun s q => s.dropLong_onPath p q _) _ s

theorem State.correct_ends (s : State) (tbl : Nat) (two : Bool) (q : Nat) (x : Parsed) (f : Frame) (part : Int) :
    ∃ y p, (s.correct tbl two q x f part).2 = { s with tim := y, pmc := p } := by
  have hadd : ∀ (v : State) (b : Bool), ∃ p, (if b then v.countDev 0xB 2 q else v) = { v with pmc := p } := fun v b => by
    cases b
    · exact ⟨v.pmc, rfl⟩
    · exact ⟨_, rfl⟩
  unfold State.correct
  split
  · exact ⟨s.tim, s.pmc, rfl⟩
  · dsimp only
    split
    · split
      · split
        · exact ⟨_, s.pmc, rfl⟩
        · exact ⟨_, _, rfl⟩
      · obtain ⟨p, h⟩ := hadd s _
        exact ⟨s.tim, p, h⟩
    · split
      · split
        · obtain ⟨p, h⟩ := hadd _ _
          exact ⟨_, p, h⟩
        · exact ⟨s.tim, _, rfl⟩
      · exact ⟨s.tim, s.pmc, rfl⟩

/-- The far correction of a frame changes match tables and counters. -/
theorem State.tcFar_ends (s : State) (p : Fin 32) (f : Frame) (out : Stamp) : ∃ y c, (s.tcFar p f out).2 = { s with tim := y, pmc := c } := by
  unfold State.tcFar
  dsimp only
  split
  · obtain ⟨c, h⟩ : ∃ c, (if f.tcEvent && (s.lineDelay f.lineMill).isNone then s.countDev 0xB 4 p.val else s) = { s with pmc := c } := by
      split
      · exact ⟨_, rfl⟩
      · exact ⟨s.pmc, rfl⟩
    rw [h]
    exact State.correct_ends { s with pmc := c } ..
  · exact ⟨s.tim, s.pmc, rfl⟩

theorem State.tsCapture_ends (s : State) (f : Frame) (p : Nat) (st : Stamp) : ∃ y c, s.tsCapture f p st = { s with tim := y, pmc := c } := by
  unfold State.tsCapture State.pushStamp
  dsimp only
  split
  · exact ⟨_, s.pmc, rfl⟩
  · exact ⟨_, _, rfl⟩

theorem State.emit_portOut {p : Fin 32} (h : s.portSends p = true) (b : Bytes) : s.portOut p b = s.emit (.clientFrame p.val b) := if_pos h

theorem State.port_countMill (s : State) (m : Fin 4) (a b c d : Nat) (p : Fin 32) : (s.countMill m a b c d).port p = s.port p := rfl

/-- The frame that the MAC sends, with its corrections, leaves the die where the port's transmitters send. -/
theorem State.sendFrame_sends (s : State) (p : Fin 32) (q : Queued) :
    ∃ b, ((s.sendFrame p q).port p).sending = some { q with f := b } ∧ (s.portSends p = true → Out.clientFrame p.val b.bytes ∈ (s.sendFrame p q).out) := by
  obtain ⟨y, c, hfar⟩ := s.tcFar_ends p q.f (s.portStamp p.val true)
  obtain ⟨y', c', hcap⟩ : ∃ y c, (if (s.tcFar p q.f (s.portStamp p.val true)).1.tsCapture then
      (s.tcFar p q.f (s.portStamp p.val true)).2.tsCapture (s.tcFar p q.f (s.portStamp p.val true)).1 p.val (s.portStamp p.val true)
      else (s.tcFar p q.f (s.portStamp p.val true)).2) = { s with tim := y, pmc := c } := by
    rw [hfar]
    split
    · exact State.tsCapture_ends { s with tim := y, pmc := c } ..
    · exact ⟨y, c, rfl⟩
  refine ⟨(s.tcFar p q.f (s.portStamp p.val true)).1, ?_, fun hs => ?_⟩
  · unfold State.sendFrame
    dsimp only
    rw [State.port_countMill, State.port_countMill, State.port_modPort]
  · unfold State.sendFrame
    dsimp only
    rw [hcap, State.emit_portOut (s := { s with tim := y', pmc := c' }) hs]
    exact List.mem_cons_self

section
variable {p : Fin 32}

theorem State.OnPath.portSends (h : s.OnPath t) : t.portSends p = s.portSends p := by obtain ⟨_, _, _, _, _, rfl⟩ := h; rfl

/-- R251: what the MAC of a free port does once the heads that fit no window are gone. -/
theorem exec_egressFrameStart (hl : s.millLive (portMill p) = true) (hp : s.portOn p = true) (hf : (s.port p).sending = none)
    {q : Fin 8} {f : Queued} (hq : (List.finRange 8).reverse.find? ((s.dropAllLong p).mayStart p) = some q)
    (hh : ((s.dropAllLong p).port p).queues[q].head? = some f) :
    let v := (s.dropAllLong p).modPort p fun x => { x with queues := x.queues.set q (x.queues[q].drop 1) }
    exec (.egressFrameStart p) s = finish (if s.shadowing
      then ((v.releaseEg (portMill p) f).countMill (portMill p) 5 14 p.val).fixMill (portMill p) 1 else v.sendFrame p f) := by
  intro v
  change execEgressFrameStart p s = _
  unfold execEgressFrameStart
  simp only [hl, hp, hf, Option.isNone_none, Bool.and_self, if_true, hq, Option.bind_some, hh, Option.map_some]
  rfl

theorem egressFrameStart_idle (hl : s.millLive (portMill p) = true) (hp : s.portOn p = true) (hf : (s.port p).sending = none)
    (hq : ∀ q : Fin 8, (s.dropAllLong p).mayStart p q = false) :
    Completes (.egressFrameStart p) s fun u => u.mills = (s.dropAllLong p).mills := by
  have hnone : (List.finRange 8).reverse.find? ((s.dropAllLong p).mayStart p) = none :=
    List.find?_eq_none.mpr fun q _ => by rw [hq q]; exact Bool.false_ne_true
  refine completes_finish (t := s.dropAllLong p) ?_ (State.settle_mills _)
  change execEgressFrameStart p s = _
  unfold execEgressFrameStart
  simp only [hl, hp, hf, Option.isNone_none, Bool.and_self, if_true, hnone, Option.bind_none]

theorem egressFrameStart_sends (hl : s.millLive (portMill p) = true) (hp : s.portOn p = true) (hf : (s.port p).sending = none)
    {q : Fin 8} {f : Queued} (hq : (List.finRange 8).reverse.find? ((s.dropAllLong p).mayStart p) = some q)
    (hh : ((s.dropAllLong p).port p).queues[q].head? = some f) :
    let v := (s.dropAllLong p).modPort p fun x => { x with queues := x.queues.set q (x.queues[q].drop 1) }
    ((s.dropAllLong p).shadowing = false → Completes (.egressFrameStart p) s fun u => u.mills = (v.sendFrame p f).mills
      ∧ ∃ b, (u.port p).sending = some { f with f := b } ∧ ((s.dropAllLong p).portSends p = true → Out.clientFrame p.val b.bytes ∈ u.out))
    ∧ ((s.dropAllLong p).shadowing = true → Completes (.egressFrameStart p) s fun u => u.mills = (v.releaseEg (portMill p) f).mills) := by
  intro v
  have hexec := exec_egressFrameStart hl hp hf hq hh
  rw [(s.dropAllLong_onPath p).shadowing]
  refine ⟨fun hs => ?_, fun hs => ?_⟩
  · rw [hs] at hexec
    refine completes_finish (t := v.sendFrame p f) hexec ⟨State.settle_mills _, ?_⟩
    obtain ⟨b, hb, hout⟩ := v.sendFrame_sends p f
    exact ⟨b, by rw [State.settle_port, hb], fun hsend => (State.settle_notifies _).out _ (hout ((State.modPort_inMills ..).onPath.portSends.trans hsend))⟩
  · rw [hs] at hexec
    exact completes_finish hexec (State.settle_mills _)

theorem State.creditReturn_egUsed (s : State) (f : Frame) (m : Fin 4) : ((s.creditReturn f).sch m).egUsed = (s.sch m).egUsed := by
  unfold State.creditReturn
  split
  · by_cases h : f.lineMill = m
    · subst h
      rw [State.sch_modSch]
      split <;> rfl
    · rw [State.sch_modSch_ne _ _ _ _ h]
      rfl
  · rfl

theorem State.creditReturn_port (s : State) (f : Frame) (p : Fin 32) : (s.creditReturn f).port p = s.port p := by
  unfold State.creditReturn
  split
  · exact State.port_modSch ..
  · rfl

/-- R231, R260: the units of a frame that has left are free, and the MAC is as well. -/
theorem egressFrameEnd_completes (hl : s.millLive (portMill p) = true) {q : Queued} (hq : (s.port p).sending = some q) :
    Completes (.egressFrameEnd p) s fun u =>
      (u.port p).sending = none ∧ (u.sch (portMill p)).egUsed = (s.sch (portMill p)).egUsed - q.units
      ∧ u.mills = ((s.modPort p fun x => { x with sending := none }).releaseEg (portMill p) q).mills := by
  have hexec : exec (.egressFrameEnd p) s = finish ((s.modPort p fun x => { x with sending := none }).releaseEg (portMill p) q) := by
    change execEgressFrameEnd p s = _
    unfold execEgressFrameEnd
    rw [hq]
    exact if_pos hl
  refine completes_finish hexec ⟨?_, ?_, State.settle_mills _⟩
  · rw [State.settle_port, State.releaseEg, State.creditReturn_port, State.port_modSch, State.port_modPort]
  · rw [State.settle_sch, State.releaseEg, State.creditReturn_egUsed, State.sch_modSch, State.sch_modPort]

end

/-- Settles O22: moves by what they do on the path of a frame, which does not depend on the rings; the frames that leave by the lemmas about
the MAC. -/
theorem tributariesMoveAndFramesLeave : Obligations.TributariesMoveAndFramesLeave := by
  unfold Obligations.TributariesMoveAndFramesLeave
  refine ⟨fun s r d => ⟨fun ht hc => ?_, fun ht hc => ?_, fun n ho hq hl => moveQueueEmpty_completes ho hq hl⟩,
    fun s p hl => ⟨fun q f hp hf hq hh => egressFrameStart_sends hl hp hf hq hh, egressFrameStart_idle hl, fun q hq => egressFrameEnd_completes hl hq⟩⟩
  · refine (completes_move (flush := false) rfl ht hc).mono ?_
    rintro u ⟨hp, hm, htr, ho⟩
    exact ⟨hp, htr, ho, hm⟩
  · refine (completes_move (flush := true) rfl ht hc).mono ?_
    rintro u ⟨hp, hm, htr, ho⟩
    have hends := ((s.endMove d.p2).startMove r.eng d.oldMill d.p2 (d.ref r)).flushOld_ends d.oldMill d.p2
    exact ⟨hp, htr.trans hends.trib, ho.trans (congrArg (tset default d.p2 _) hends.tribOld), hm⟩

end Sys2Proof.Machine
end

section
/-! Lines of the external memory (chapter 12): requests that are accepted, refused and answered, lines that are read, written and
rewritten. -/

namespace Sys2Proof.Machine

variable {s t : State}

/-! ### A register that is written reads as written; the others as before -/

/-- An entry that is put into a table does not change what other keys read as, in whatever order the table is. -/
theorem tget_tins_other {α : Type} (d : α) {k j : Nat} (v : α) (h : j ≠ k) : ∀ t : Tbl α, tget d (tins k v t) j = tget d t j
  | [] => by simp only [tins, tget, if_neg (Ne.symm h), ite_self]
  | (i, w) :: t => by
    unfold tins
    split
    · simp only [tget, tget_tins_other d v h t]
    · split
      · next hik => subst hik; simp only [tget, if_neg (Ne.symm h)]
      · next hlt hne =>
        rw [tget, if_neg (Ne.symm h)]
        split
        · rw [tget, if_neg (by omega), if_pos (by omega)]
        · rfl

/-- A write of a value other than the reset value leaves what other registers read as. -/
theorem State.reg_setReg_other (s : State) {a b v : Nat} (hv : BitVec.ofNat 32 v ≠ BitVec.ofNat 32 (Reg.reset s.otp.part a)) (h : b ≠ a) :
    (s.setReg a v).reg b = s.reg b := by
  unfold State.reg State.setReg tset
  dsimp only
  rw [if_neg hv, tget_tins_other _ _ h]

/-- The register of a channel whose bit 4 is set reads other than at reset, so other registers keep their value. -/
theorem State.reg_setParity (s : State) (c : Fin 4) {b : Nat} (h : b ≠ Reg.mem (4 + 0x40 * c.val)) :
    (s.setBit (Reg.mem (4 + 0x40 * c.val)) 4).reg b = s.reg b := by
  refine s.reg_setReg_other ?_ h
  have hreset : Reg.reset s.otp.part (Reg.mem (4 + 0x40 * c.val)) = 0 := by
    match c with
    | 0 => rfl
    | 1 => rfl
    | 2 => rfl
    | 3 => rfl
  have hv := s.reg_lt (Reg.mem (4 + 0x40 * c.val))
  rw [hreset]
  intro he
  have hn := congrArg BitVec.toNat he
  simp only [BitVec.toNat_ofNat, putField, natBits, b2n, ↓reduceIte] at hn
  generalize s.reg (Reg.mem (4 + 0x40 * c.val)) = v at hn hv
  omega

/-! ### States with the same lines -/

/-- The two states have the same memory and mills, and the regions lie at the same pages. -/
structure State.SameLines (s t : State) : Prop where
  mem : t.mem = s.mem
  mills : t.mills = s.mills
  base : ∀ r, t.rgnBase r = s.rgnBase r
  size : ∀ r, t.rgnSize r = s.rgnSize r

theorem State.SameLines.refl (s : State) : s.SameLines s := ⟨rfl, rfl, fun _ => rfl, fun _ => rfl⟩

theorem State.SameLines.trans {u : State} (h : s.SameLines t) (k : t.SameLines u) : s.SameLines u :=
  ⟨k.mem.trans h.mem, k.mills.trans h.mills, fun r => (k.base r).trans (h.base r), fun r => (k.size r).trans (h.size r)⟩

theorem State.SameLines.chan (h : s.SameLines t) (c : Fin 4) : t.chan c = s.chan c := by unfold State.chan; rw [h.mem]
theorem State.SameLines.rgn (h : s.SameLines t) (r : Fin 8) : t.rgn r = s.rgn r := by unfold State.rgn; rw [h.mem]

theorem State.SameLines.regionOf (h : s.SameLines t) (a : Nat) : t.regionOf a = s.regionOf a := by
  simp only [State.regionOf, State.inRgn, h.rgn, h.base, h.size]

theorem State.SameLines.storedLine (h : s.SameLines t) (r : Fin 8) (c : Fin 4) (l : Nat) : t.storedLine r c l = s.storedLine r c l := by
  simp only [State.storedLine, h.chan, h.rgn]

theorem State.SameLines.sramLine (h : s.SameLines t) (c : Fin 4) (l : Nat) : t.sramLine c l = s.sramLine c l := by
  simp only [State.sramLine, h.chan, h.rgn, h.regionOf, h.storedLine]

theorem State.SameLines.delivered (h : s.SameLines t) (r : Fin 8) (c : Fin 4) (l : Nat) (o : SramRead) :
    t.delivered r c l o = s.delivered r c l o := by
  simp only [State.delivered, h.storedLine, h.sramLine]

theorem State.countDev_sameLines (s : State) (a b c d : Nat) : s.SameLines (s.countDev a b c d) := ⟨rfl, rfl, fun _ => rfl, fun _ => rfl⟩

/-- An address parity error is noted in a register that names no region. -/
theorem State.noteParity_sameLines (s : State) (c : Fin 4) (o : SramRead) : s.SameLines (s.noteParity c o) := by
  unfold State.noteParity
  split
  · exact .refl s
  · have h : s.SameLines (s.setBit (Reg.mem (4 + 0x40 * c.val)) 4) := ⟨rfl, rfl,
      fun r => congrArg (natBits · 0 14) (s.reg_setParity c (by unfold Reg.mem; omega)),
      fun r => congrArg (natBits · 0 15) (s.reg_setParity c (by unfold Reg.mem; omega))⟩
    exact h.trans (State.countDev_sameLines _ _ _ _ _)

/-- A read that is served, or finds its line poisoned or its channel down, is at most counted. -/
theorem State.noteRead_sameLines (s : State) (c : Fin 4) (l : Nat) {st : Nat} (synd : Nat) (scrub : Bool) (h : ¬(2 ≤ st ∧ st ≤ 4)) :
    s.SameLines (s.noteRead c l st synd scrub) := by
  unfold State.noteRead
  split
  · exact s.countDev_sameLines ..
  · split
    · exact s.countDev_sameLines ..
    · exact .refl s

/-! ### Channels -/

theorem State.chan_modChan (s : State) (c : Fin 4) (f : Channel → Channel) : (s.modChan c f).chan c = f (s.chan c) :=
  Vector.getElem_set_self _

theorem State.modChan_modChan (s : State) (c : Fin 4) (f g : Channel → Channel) :
    (s.modChan c f).modChan c g = s.modChan c fun x => g (f x) := by
  unfold State.modChan State.modMem
  simp only [Fin.getElem_fin, Vector.getElem_set_self, Vector.set_set]

theorem State.chan_congr (h : t.mem = s.mem) (c : Fin 4) : t.chan c = s.chan c := by unfold State.chan; rw [h]

theorem State.modChan_mem (h : t.mem = s.mem) (c : Fin 4) (f : Channel → Channel) : (t.modChan c f).mem = (s.modChan c f).mem :=
  congrArg (fun m : Mem => { m with ch := m.ch.set c (f m.ch[c]) }) h

/-! ### Answers -/

theorem State.modMill_mills_congr (h : t.mills = s.mills) (m : Fin 4) (f : Mill → Mill) : (t.modMill m f).mills = (s.modMill m f).mills :=
  congrArg (fun ms : Vector Mill 4 => ms.set m (f ms[m])) h

theorem State.lockedWrite_mem (s : State) (f : Fin 2) (a v : Nat) : (s.lockedWrite f a v).mem = s.mem := by
  rw [State.lockedWrite, State.happen_mem]
  rfl

theorem State.lockedWrite_mills (s : State) (f : Fin 2) (a v : Nat) : (s.lockedWrite f a v).mills = s.mills := by
  rw [State.lockedWrite, State.happen_mills]
  rfl

theorem State.foldl_setReg_blocks {α : Type} (a v : α → Nat) : ∀ (l : List α) (s : State),
    (l.foldl (fun s i => s.setReg (a i) (v i)) s).mem = s.mem ∧ (l.foldl (fun s i => s.setReg (a i) (v i)) s).mills = s.mills
  | [], _ => ⟨rfl, rfl⟩
  | i :: l, s => State.foldl_setReg_blocks a v l (s.setReg (a i) (v i))

/-- What an answer does to the memory and to the SA caches depends on nothing else. -/
theorem State.memAnswer_blocks (hm : t.mem = s.mem) (hl : t.mills = s.mills) (q : MemReq) (st : Nat) (d : Bytes) :
    (t.memAnswer q st d).mem = (s.memAnswer q st d).mem ∧ (t.memAnswer q st d).mills = (s.memAnswer q st d).mills := by
  unfold State.memAnswer
  cases q.master with
  | sac m x i => exact ⟨hm, State.modMill_mills_congr hl m _⟩
  | window =>
    dsimp only
    split
    · obtain ⟨ht, ht'⟩ := State.foldl_setReg_blocks (fun i => Reg.mem (0x520 + 4 * i)) (fun i => if statusOk st then beNat (slice d (4 * i) 4) else 0)
        (List.range 8) (t.modMem fun x => { x with winBusy := false, winStatus := st })
      obtain ⟨hs, hs'⟩ := State.foldl_setReg_blocks (fun i => Reg.mem (0x520 + 4 * i)) (fun i => if statusOk st then beNat (slice d (4 * i) 4) else 0)
        (List.range 8) (s.modMem fun x => { x with winBusy := false, winStatus := st })
      rw [ht, ht', hs, hs', State.modMem_mem, State.modMem_mem, hm]
      exact ⟨rfl, hl⟩
    · rw [State.modMem_mem, State.modMem_mem, hm]
      exact ⟨rfl, hl⟩
  | debug => exact ⟨hm, hl⟩
  | scrub => exact ⟨hm, hl⟩

theorem State.refuseAccess_blocks (s : State) (q : MemReq) (st : Nat) :
    (s.refuseAccess q st).mem = (s.memAnswer q st []).mem ∧ (s.refuseAccess q st).mills = (s.memAnswer q st []).mills := by
  unfold State.refuseAccess
  dsimp only
  split
  · have h := s.countDev_sameLines 0xC 5 (memCh q.addr).val 1
    exact State.memAnswer_blocks ((State.lockedWrite_mem _ _ _ _).trans h.mem) ((State.lockedWrite_mills _ _ _ _).trans h.mills) q st []
  · exact ⟨rfl, rfl⟩

/-! ### The end of a command that the mate logic looks at -/

theorem State.interlock_out (s : State) : s.interlock.out = s.out := by
  obtain ⟨x, d, h⟩ := s.interlock_ends
  rw [h]

theorem State.mateLook_out (s : State) : s.mateLook.out = s.out := by
  unfold State.mateLook
  split
  · unfold State.mateGo
    split
    · rfl
    · dsimp only
      rw [State.interlock_out, State.happen_out]
  · rfl

theorem State.mateEnd_mem (s : State) : s.mateLook.settle.mem = s.mem := by
  obtain ⟨-, -, -, -, -, hm, -, -, -⟩ := s.mateLook_blocks
  rw [State.settle_mem, hm]

theorem State.mateEnd_mills (s : State) : s.mateLook.settle.mills = s.mills := by
  obtain ⟨-, hm, -, -, -, -, -, -, -⟩ := s.mateLook_blocks
  rw [State.settle_mills, hm]

theorem State.mem_mateEnd_out {o : Out} (h : o ∈ s.out) : o ∈ s.mateLook.settle.out :=
  (State.settle_notifies _).out _ (by rwa [State.mateLook_out])

/-! ### Reads -/

theorem exec_memLineRead {c : Fin 4} {q : MemReq} {y : Channel} (h : s.pullReq c true = some (q, y)) :
    exec (.memLineRead c) s = finish (if s.accessStatus q.master q.addr = 0
      then (s.modChan c fun _ => y).modChan c fun x => { x with reads := x.reads ++ [q] }
      else (s.modChan c fun _ => y).refuseAccess q (s.accessStatus q.master q.addr)) := by
  change execMemLineRead c s = _
  unfold execMemLineRead
  rw [h]

theorem memLineRead_accepts {c : Fin 4} {q : MemReq} {y : Channel} (h : s.pullReq c true = some (q, y))
    (hst : s.accessStatus q.master q.addr = 0) :
    Completes (.memLineRead c) s fun u => u.mem = (s.modChan c fun _ => { y with reads := y.reads ++ [q] }).mem := by
  refine completes_finish (exec_memLineRead h) ?_
  rw [if_pos hst, State.settle_mem, State.modChan_modChan]

theorem memLineRead_refuses {c : Fin 4} {q : MemReq} {y : Channel} (h : s.pullReq c true = some (q, y))
    (hst : s.accessStatus q.master q.addr ≠ 0) :
    Completes (.memLineRead c) s fun u => u.mem = ((s.modChan c fun _ => y).memAnswer q (s.accessStatus q.master q.addr) []).mem
      ∧ u.mills = ((s.modChan c fun _ => y).memAnswer q (s.accessStatus q.master q.addr) []).mills := by
  refine completes_finish (exec_memLineRead h) ?_
  rw [if_neg hst, State.settle_mem, State.settle_mills]
  exact State.refuseAccess_blocks ..

/-- The repair of a corrected line depends on the lines alone. -/
theorem State.repair_blocks (h : s.SameLines t) (r : Fin 8) (c : Fin 4) (l st : Nat) (o : SramRead) :
    (t.repair r c l st o).mem = (s.repair r c l st o).mem ∧ (t.repair r c l st o).mills = (s.repair r c l st o).mills := by
  unfold State.repair
  rw [h.delivered, h.chan]
  split
  · split
    · exact ⟨h.mem, h.mills⟩
    · rw [State.emit_mem, State.emit_mem, State.emit_mills, State.emit_mills]
      exact ⟨State.modChan_mem h.mem c _, h.mills⟩
  · exact ⟨h.mem, h.mills⟩

theorem exec_memReadDone {c : Fin 4} {o : SramRead} {q : MemReq} {qs : List MemReq} {st synd : Nat} {d : Bytes}
    (hq : (s.chan c).reads = q :: qs) (hr : s.readLine (s.regionAt q.addr) c (memLine q.addr) o = (st, synd, d)) (hst : ¬(2 ≤ st ∧ st ≤ 4)) :
    exec (.memReadDone c o) s = mateEnd ((((((s.modChan c fun x => { x with reads := qs }).noteParity c o).noteRead c (memLine q.addr) st synd false).repair
      (s.regionAt q.addr) c (memLine q.addr) st o)).memAnswer q st d) := by
  change execMemReadDone c o s = _
  unfold execMemReadDone
  rw [hq]
  dsimp only
  rw [hr]
  dsimp only
  rw [if_neg hst]

theorem memReadDone_answers {c : Fin 4} {o : SramRead} {q : MemReq} {qs : List MemReq} {st synd : Nat} {d : Bytes}
    (hq : (s.chan c).reads = q :: qs) (hr : s.readLine (s.regionAt q.addr) c (memLine q.addr) o = (st, synd, d)) (hst : st < 2 ∨ 4 < st) :
    let w := (s.modChan c fun x => { x with reads := qs }).repair (s.regionAt q.addr) c (memLine q.addr) st o
    Completes (.memReadDone c o) s fun u => u.mem = (w.memAnswer q st d).mem ∧ u.mills = (w.memAnswer q st d).mills := by
  have hst' : ¬(2 ≤ st ∧ st ≤ 4) := by omega
  have hsame : State.SameLines _ _ := ((s.modChan c fun x => { x with reads := qs }).noteParity_sameLines c o).trans
    (State.noteRead_sameLines _ c (memLine q.addr) synd false hst')
  obtain ⟨hm, hl⟩ := State.repair_blocks hsame (s.regionAt q.addr) c (memLine q.addr) st o
  refine completes_finish (exec_memReadDone hq hr hst') ?_
  rw [State.mateEnd_mem, State.mateEnd_mills]
  exact State.memAnswer_blocks hm hl q st d

/-! ### Writes -/

theorem exec_memLineWrite {c : Fin 4} {o : SramRead} {q : MemReq} {y : Channel} {p : Bytes} (h : s.pullReq c false = some (q, y))
    (hp : q.op = .write p) (ho : o.parity ≠ 2) (hst : s.accessStatus q.master q.addr = 0) :
    exec (.memLineWrite c o) s =
      mateEnd (((s.modChan c fun _ => y).noteParity c o).writeLine q (s.regionAt q.addr) c (memLine q.addr) p) := by
  change execMemLineWrite c o s = _
  unfold execMemLineWrite State.doWrite
  rw [h]
  dsimp only
  rw [if_pos hst, hp]
  dsimp only
  rw [if_neg ho]

/-- Once a request has left the queue, and a parity error has been noted, the channel is what the queue left, and the keys are as before. -/
theorem State.noteParity_pulled (s : State) (c : Fin 4) (o : SramRead) (y : Channel) :
    ((s.modChan c fun _ => y).noteParity c o).mem = (s.modChan c fun _ => y).mem
      ∧ ((s.modChan c fun _ => y).noteParity c o).chan c = y ∧ ∀ r, ((s.modChan c fun _ => y).noteParity c o).rgn r = s.rgn r := by
  have h := (s.modChan c fun _ => y).noteParity_sameLines c o
  exact ⟨h.mem, (h.chan c).trans (s.chan_modChan c _), h.rgn⟩

/-- R358: a line is stored under its next minor counter. -/
theorem State.writeLine_stores {q : MemReq} {r : Fin 8} {c : Fin 4} {l : Nat} {p : Bytes} (hs : tget false (s.chan c).spent (linePage l) = false)
    (hm : (s.chan c).minorOf l < 63) : s.writeLine q r c l p = (s.storeLine r c l ((s.chan c).minorOf l + 1) p).modChan c fun x =>
      { x with poison := tset false l false x.poison, acks := x.acks ++ [q] } := by
  unfold State.writeLine
  dsimp only
  rw [hs, if_neg Bool.false_ne_true, if_pos hm]

/-- R360: a write at the last minor counter rewrites its page. -/
theorem State.writeLine_rewrites {q : MemReq} {r : Fin 8} {c : Fin 4} {l : Nat} {p : Bytes} (hs : tget false (s.chan c).spent (linePage l) = false)
    (hm : 63 ≤ (s.chan c).minorOf l) (hM : (s.chan c).majorOf (linePage l) ≠ 2 ^ 32 - 1) : s.writeLine q r c l p = s.startRewrite q r c l p := by
  unfold State.writeLine
  dsimp only
  rw [hs, if_neg Bool.false_ne_true, if_neg (Nat.not_lt.mpr hm), if_neg hM]

theorem memLineWrite_stores {c : Fin 4} {o : SramRead} {q : MemReq} {y : Channel} {p : Bytes} (h : s.pullReq c false = some (q, y))
    (hp : q.op = .write p) (ho : o.parity ≠ 2) (hst : s.accessStatus q.master q.addr = 0)
    (hs : tget false y.spent (linePage (memLine q.addr)) = false) (hm : y.minorOf (memLine q.addr) < 63) :
    let l := memLine q.addr
    let v := sealLine (s.rgn (s.regionAt q.addr)).key (s.regionAt q.addr) c l (y.majorOf (linePage l)) (y.minorOf l + 1) p
    Completes (.memLineWrite c o) s fun u => u.mem = (s.modChan c fun _ => { y with
        lines := tset default l v y.lines, minor := tset 1 l (y.minorOf l + 1) y.minor, poison := tset false l false y.poison
        acks := y.acks ++ [q] }).mem
      ∧ Out.memBus c.val l v.beats ∈ u.out := by
  intro l v
  obtain ⟨hmem, hchan, hrgn⟩ := s.noteParity_pulled c o y
  refine completes_finish (exec_memLineWrite h hp ho hst) ?_
  rw [State.mateEnd_mem, State.writeLine_stores (by rw [hchan]; exact hs) (by rw [hchan]; exact hm), State.storeLine, hchan, hrgn]
  refine ⟨?_, State.mem_mateEnd_out List.mem_cons_self⟩
  rw [State.modChan_mem (State.emit_mem ..) c, State.modChan_modChan, State.modChan_mem hmem c, State.modChan_modChan]

theorem State.pageStalls_mem (s : State) (c : Fin 4) (p : Nat) (m : Fin 4) : (s.pageStalls c p m).mem = s.mem := by
  unfold State.pageStalls
  dsimp only
  split <;> rfl

theorem State.foldl_pageStalls_mem (c : Fin 4) (p : Nat) : ∀ (l : List (Fin 4)) (s : State), (l.foldl (fun s m => s.pageStalls c p m) s).mem = s.mem
  | [], _ => rfl
  | m :: l, s => (State.foldl_pageStalls_mem c p l _).trans (s.pageStalls_mem c p m)

theorem State.majWarn_chan (s : State) (r : Fin 8) (major : Nat) (c : Fin 4) : (s.majWarn r major).chan c = s.chan c := by
  unfold State.majWarn
  split <;> rfl

/-- R360: the rewrite of a page begins under the next major counter; no line has changed yet. -/
theorem State.startRewrite_chan (s : State) (q : MemReq) (r : Fin 8) (c : Fin 4) (l : Nat) (p : Bytes) :
    ((s.startRewrite q r c l p).chan c).rewrites = (s.chan c).rewrites ++ [{ page := linePage l, line := l, req := q, data := p }]
      ∧ ((s.startRewrite q r c l p).chan c).major = tset 0 (linePage l) ((s.chan c).majorOf (linePage l) + 1) (s.chan c).major
      ∧ ((s.startRewrite q r c l p).chan c).lines = (s.chan c).lines := by
  have hchan : ∀ v : State, ((List.finRange 4).foldl (fun s m => s.pageStalls c (linePage l) m) v).chan c = v.chan c := fun v => by
    unfold State.chan
    rw [State.foldl_pageStalls_mem]
  unfold State.startRewrite
  dsimp only
  rw [State.majWarn_chan, hchan, State.chan_modChan]
  exact ⟨rfl, rfl, rfl⟩

theorem memLineWrite_rewrites {c : Fin 4} {o : SramRead} {q : MemReq} {y : Channel} {p : Bytes} (h : s.pullReq c false = some (q, y))
    (hp : q.op = .write p) (ho : o.parity ≠ 2) (hst : s.accessStatus q.master q.addr = 0)
    (hs : tget false y.spent (linePage (memLine q.addr)) = false) (hm : 63 ≤ y.minorOf (memLine q.addr))
    (hM : y.majorOf (linePage (memLine q.addr)) ≠ 2 ^ 32 - 1) :
    let l := memLine q.addr
    Completes (.memLineWrite c o) s fun u =>
      (u.chan c).rewrites = y.rewrites ++ [{ page := linePage l, line := l, req := q, data := p }]
      ∧ (u.chan c).major = tset 0 (linePage l) (y.majorOf (linePage l) + 1) y.major ∧ (u.chan c).lines = y.lines := by
  intro l
  obtain ⟨-, hchan, -⟩ := s.noteParity_pulled c o y
  refine completes_finish (exec_memLineWrite h hp ho hst) ?_
  have hstart := ((s.modChan c fun _ => y).noteParity c o).startRewrite_chan q (s.regionAt q.addr) c l p
  rw [hchan] at hstart
  rw [State.chan_congr (State.mateEnd_mem _), State.writeLine_rewrites (by rw [hchan]; exact hs) (by rw [hchan]; exact hm) (by rw [hchan]; exact hM)]
  exact hstart

/-! ### Page rewrites and acknowledgements -/

/-- From `x` to `y` a channel keeps its rewrites, acknowledgements and major counters. -/
def Channel.KeepsBooks (x y : Channel) : Prop := y.rewrites = x.rewrites ∧ y.acks = x.acks ∧ y.major = x.major

theorem Channel.KeepsBooks.trans {x y z : Channel} (h : x.KeepsBooks y) (k : y.KeepsBooks z) : x.KeepsBooks z := by
  obtain ⟨h1, h2, h3⟩ := h
  obtain ⟨k1, k2, k3⟩ := k
  exact ⟨k1.trans h1, k2.trans h2, k3.trans h3⟩

theorem State.storeLine_chan (s : State) (r : Fin 8) (c : Fin 4) (l minor : Nat) (p : Bytes) :
    (s.chan c).KeepsBooks ((s.storeLine r c l minor p).chan c) := by
  have h : (s.storeLine r c l minor p).chan c = { s.chan c with
      minor := tset 1 l minor (s.chan c).minor
      lines := tset default l (sealLine (s.rgn r).key r c l ((s.chan c).majorOf (linePage l)) minor p) (s.chan c).lines } :=
    (State.chan_congr (State.emit_mem ..) c).trans (s.chan_modChan c _)
  rw [h]
  exact ⟨rfl, rfl, rfl⟩

theorem State.rewriteLine_chan (s : State) (r : Fin 8) (c : Fin 4) (l : Nat) (o : SramRead) :
    (s.chan c).KeepsBooks ((s.rewriteLine r c l o).chan c) := by
  have h := (s.noteParity_sameLines c o).chan c
  unfold State.rewriteLine
  dsimp only
  split
  · exact h ▸ State.storeLine_chan ..
  · rw [State.chan_modChan, h]
    exact ⟨rfl, rfl, rfl⟩

theorem State.foldl_rewrite_chan {α : Type} {c : Fin 4} {f : State → α → State} (hf : ∀ (s : State) (i : α), (s.chan c).KeepsBooks ((f s i).chan c)) :
    ∀ (l : List α) (s : State), (s.chan c).KeepsBooks ((l.foldl f s).chan c)
  | [], _ => ⟨rfl, rfl, rfl⟩
  | i :: l, s => (hf s i).trans (State.foldl_rewrite_chan hf l (f s i))

/-- Rewrite the lines of the page, except the one that the write is to. -/
def State.rewriteOthers (s : State) (r : Fin 8) (c : Fin 4) (reads : List (Fin 128 × SramRead)) (x : PageRewrite) : State :=
  (List.finRange 128).foldl (fun s i =>
    if 128 * x.page + i.val = x.line then s
    else s.rewriteLine r c (128 * x.page + i.val) ((reads.lookup i).getD {})) s

theorem State.rewriteOthers_chan (s : State) (r : Fin 8) (c : Fin 4) (reads : List (Fin 128 × SramRead)) (x : PageRewrite) :
    (s.chan c).KeepsBooks ((s.rewriteOthers r c reads x).chan c) := by
  refine State.foldl_rewrite_chan (fun s i => ?_) _ s
  split
  · exact ⟨rfl, rfl, rfl⟩
  · exact State.rewriteLine_chan ..

theorem exec_pageRewriteDone {c : Fin 4} {reads : List (Fin 128 × SramRead)} {x : PageRewrite} {ws : List PageRewrite}
    (h : (s.chan c).rewrites = x :: ws) (hup : (s.chan c).up = true) :
    let r := s.regionAt x.req.addr
    exec (.pageRewriteDone c reads) s = finish ((((s.rewriteOthers r c reads x).storeLine r c x.line 0 x.data).modChan c fun y => { y with
      poison := tset false x.line false y.poison, rewrites := ws, acks := y.acks ++ [x.req] }).countDev 0xC 7 c.val) := by
  change execPageRewriteDone c reads s = _
  unfold execPageRewriteDone
  rw [h]
  dsimp only
  rw [hup, if_neg (by decide)]
  rfl

/-- R360: a rewrite ends; the write that began it is acknowledged. -/
theorem pageRewriteDone_ends {c : Fin 4} {reads : List (Fin 128 × SramRead)} {x : PageRewrite} {ws : List PageRewrite}
    (h : (s.chan c).rewrites = x :: ws) (hup : (s.chan c).up = true) :
    Completes (.pageRewriteDone c reads) s fun u => (u.chan c).rewrites = ws
      ∧ (u.chan c).acks = (s.chan c).acks ++ [x.req] ∧ (u.chan c).major = (s.chan c).major := by
  obtain ⟨-, hacks, hmajor⟩ := (s.rewriteOthers_chan (s.regionAt x.req.addr) c reads x).trans (State.storeLine_chan _ _ _ x.line 0 x.data)
  refine completes_finish (exec_pageRewriteDone h hup) ?_
  rw [State.chan_congr (State.settle_mem _), State.chan_congr (State.countDev_sameLines _ _ _ _ _).mem, State.chan_modChan]
  exact ⟨rfl, congrArg (· ++ [x.req]) hacks, hmajor⟩

theorem pageRewriteDone_refused {c : Fin 4} {reads : List (Fin 128 × SramRead)} {x : PageRewrite} {ws : List PageRewrite}
    (h : (s.chan c).rewrites = x :: ws) (hup : (s.chan c).up = false) :
    Completes (.pageRewriteDone c reads) s fun u =>
      u.mem = ((s.modChan c fun y => { y with rewrites := ws }).memAnswer x.req 0xB []).mem := by
  have hexec : exec (.pageRewriteDone c reads) s = mateEnd ((s.modChan c fun y => { y with rewrites := ws }).memAnswer x.req 0xB []) := by
    change execPageRewriteDone c reads s = _
    unfold execPageRewriteDone
    rw [h]
    dsimp only
    rw [hup, if_pos (by decide)]
  exact completes_finish hexec (State.mateEnd_mem _)

theorem memWriteAck_answers {c : Fin 4} {q : MemReq} {qs : List MemReq} (h : (s.chan c).acks = q :: qs) :
    Completes (.memWriteAck c) s fun u => u.mem = ((s.modChan c fun x => { x with acks := qs }).memAnswer q q.status []).mem
      ∧ u.mills = ((s.modChan c fun x => { x with acks := qs }).memAnswer q q.status []).mills := by
  have hexec : exec (.memWriteAck c) s = finish ((s.modChan c fun x => { x with acks := qs }).memAnswer q q.status []) := by
    change execMemWriteAck c s = _
    unfold execMemWriteAck
    rw [h]
  exact completes_finish hexec ⟨State.settle_mem _, State.settle_mills _⟩

/-- Settles O27: each command by its lemma; what is noted of an access changes neither the lines nor what is found of them. -/
theorem linesAreServed : Obligations.LinesAreServed := by
  unfold Obligations.LinesAreServed
  exact fun s c => ⟨fun q y h => ⟨memLineRead_accepts h, memLineRead_refuses h⟩,
    fun q qs o st synd d hq hr hst => memReadDone_answers hq hr hst,
    fun q y p o h hp ho hst hs => ⟨memLineWrite_stores h hp ho hst hs, memLineWrite_rewrites h hp ho hst hs⟩,
    fun x ws reads h => ⟨pageRewriteDone_ends h, pageRewriteDone_refused h⟩, fun q qs h => memWriteAck_answers h⟩

end Sys2Proof.Machine
end

section
/-! A line's blocks: what leaves the mills leaves its line; a defect that is set or cleared changes no other (R84). -/

namespace Sys2Proof.Machine

variable {s t : State}

theorem State.mill_of_mills (h : t.mills = s.mills) (m : Fin 4) : t.mill m = s.mill m := by unfold State.mill; rw [h]
theorem State.line_of_mills (h : t.mills = s.mills) (m : Fin 4) : t.line m = s.line m := by unfold State.line; rw [State.mill_of_mills h]
theorem State.dkl_of_mills (h : t.mills = s.mills) (m : Fin 4) : t.dkl m = s.dkl m := by unfold State.dkl; rw [State.mill_of_mills h]
theorem State.lci_of_mills (h : t.mills = s.mills) (m : Fin 4) : t.lci m = s.lci m := by unfold State.lci; rw [State.mill_of_mills h]

@[simp] theorem State.setFld_mills (s : State) (a lo len x : Nat) : (s.setFld a lo len x).mills = s.mills := rfl
@[simp] theorem State.setBit_mills (s : State) (a i : Nat) (b : Bool) : (s.setBit a i b).mills = s.mills := rfl

theorem State.modMill_self (s : State) (m : Fin 4) {f : Mill → Mill} (h : f (s.mill m) = s.mill m) : s.modMill m f = s := by
  unfold State.modMill
  rw [show f s.mills[m] = s.mills[m] from h, show s.mills.set m s.mills[m] = s.mills from Vector.set_getElem_self _]

theorem State.modLine_self (s : State) (m : Fin 4) {f : Line → Line} (h : f (s.line m) = s.line m) : s.modLine m f = s :=
  s.modMill_self m (congrArg (fun l => { s.mill m with line := l }) h)

/-- Two changes of a line are one. -/
theorem State.modLine_modLine (s : State) (m : Fin 4) (f g : Line → Line) : (s.modLine m f).modLine m g =
    s.modLine m fun l => g (f l) := by
  unfold State.modLine State.modMill
  simp only [Fin.getElem_fin, Vector.getElem_set_self, Vector.set_set]

/-! ### Defects of the group -/

theorem State.defectEdge_mills (s : State) (m : Fin 4) (bit : Nat) (on : Bool) : (s.defectEdge m bit on).mills = s.mills := by
  unfold State.defectEdge
  dsimp only
  split
  · exact State.happen_mills ..
  · rfl

theorem State.setDefect_mills (s : State) (m : Fin 4) (bit : Nat) {get : Defects → Bool} {put : Defects → Bool → Defects}
    (hput : ∀ d, put d (get d) = d) (on : Bool) :
    (s.setDefect m bit get put on).mills = (s.modLine m fun l => { l with defects := put l.defects on }).mills := by
  unfold State.setDefect
  split
  · next h =>
    subst h
    exact (congrArg State.mills (s.modLine_self m (congrArg (fun d => { s.line m with defects := d }) (hput _)))).symm
  · exact State.defectEdge_mills ..

theorem State.setDlgf_mills (s : State) (m : Fin 4) (on : Bool) :
    (s.setDlgf m on).mills = (s.modLine m fun l => { l with defects := { l.defects with dlgf := on } }).mills :=
  s.setDefect_mills m 5 (fun _ => rfl) on
theorem State.setVerf_mills (s : State) (m : Fin 4) (on : Bool) :
    (s.setVerf m on).mills = (s.modLine m fun l => { l with defects := { l.defects with verf := on } }).mills :=
  s.setDefect_mills m 6 (fun _ => rfl) on

theorem State.setDlgf_line (s : State) (m : Fin 4) (on : Bool) :
    (s.setDlgf m on).line m = { s.line m with defects := { (s.line m).defects with dlgf := on } } :=
  (State.line_of_mills (s.setDlgf_mills m on) m).trans (s.line_modLine m _)
theorem State.setVerf_line (s : State) (m : Fin 4) (on : Bool) :
    (s.setVerf m on).line m = { s.line m with defects := { (s.line m).defects with verf := on } } :=
  (State.line_of_mills (s.setVerf_mills m on) m).trans (s.line_modLine m _)

end Sys2Proof.Machine
end

section
/-! The dialogue (chapters 2, 3 and 4): what it sends (R86-R90), and what messages that have been taken do (R90, R113, R138-R140). -/

namespace Sys2Proof.Machine

variable {s : State}

/-! ### Own messages and the HELLO -/

theorem State.helloSend_line (s : State) (m : Fin 4) : (s.helloSend m).line m = { s.line m with dlg := { (s.line m).dlg with
    helloWait := false, ownMin := s.fld (Reg.lnf m 0x20) 0 2, ownMax := s.fld (Reg.lnf m 0x20) 2 2
    queue := (s.line m).dlg.queue ++ [.hello] } } := by
  unfold State.helloSend State.ownMsg
  rw [State.modLine_modLine, State.line_modLine]

/-- What waits for a session number, or a HELLO that is queued: the negotiation goes on. -/
def Dlg.offers (d : Dlg) : Prop := d.helloWait = true ∨ .hello ∈ d.queue

theorem State.helloSend_offers (s : State) (m : Fin 4) : ((s.helloSend m).line m).dlg.offers := by
  rw [State.helloSend_line]
  exact .inr (List.mem_append_right _ (List.mem_singleton_self _))

/-- Drawing a session number, or failing to, changes no more of a line than the session number and the HELLO that waited for it. -/
theorem State.helloDrawn_line (s : State) (m : Fin 4) (n : Option W32) : ∃ ss w a b q, (s.helloDrawn m n).line m =
    { s.line m with dlg := { (s.line m).dlg with session := ss, helloWait := w, ownMin := a, ownMax := b, queue := q } } := by
  unfold State.helloDrawn
  dsimp only
  split
  · rw [State.helloSend_line, State.line_modLine]
    exact ⟨_, _, _, _, _, rfl⟩
  · rw [State.line_modLine]
    exact ⟨_, _, _, _, _, rfl⟩

theorem State.helloDrawn_offers {m : Fin 4} (h : (s.line m).dlg.helloWait = true) (n : Option W32) :
    ((s.helloDrawn m n).line m).dlg.offers := by
  unfold State.helloDrawn
  rw [h]
  exact State.helloSend_offers ..

theorem State.rngAsk_blocks (s : State) (i : Nat) (user : RngUser) (n : Nat) :
    (s.rngAsk i user n).1.mills = s.mills ∧ (s.rngAsk i user n).1.regs = s.regs := by
  unfold State.rngAsk
  split
  · exact ⟨rfl, rfl⟩
  · split
    · exact ⟨rfl, rfl⟩
    · exact ⟨rfl, rfl⟩

/-- R336: a session number is asked for; the HELLO that is to follow waits for it or is queued. -/
theorem State.askSession_cases (s : State) (m : Fin 4) (hello : Bool) :
    ∃ s1 : State, s1.line m = { s.line m with dlg := { (s.line m).dlg with helloWait := (s.line m).dlg.helloWait || hello } }
      ∧ s1.regs = s.regs
      ∧ (s.askSession m hello = s1 ∨ (∃ n, s.askSession m hello = s1.helloDrawn m n)
        ∨ s.askSession m hello = (s1.helloDrawn m none).countDev 0xA 2 m.val) := by
  unfold State.askSession
  dsimp only
  generalize hs0 : (s.modLine m fun l => { l with dlg := { l.dlg with helloWait := l.dlg.helloWait || hello } }) = s0
  obtain ⟨hmills, hregs⟩ := s0.rngAsk_blocks (2 + m.val) (.hello m) 4
  have hline : (s0.rngAsk (2 + m.val) (.hello m) 4).1.line m =
      { s.line m with dlg := { (s.line m).dlg with helloWait := (s.line m).dlg.helloWait || hello } } := by
    rw [State.line_of_mills hmills, ← hs0, State.line_modLine]
  refine ⟨_, hline, hregs.trans (hs0 ▸ rfl), ?_⟩
  generalize s0.rngAsk (2 + m.val) (.hello m) 4 = a
  obtain ⟨s1, ans⟩ := a
  cases ans with
  | data bs => exact .inr (.inl ⟨_, rfl⟩)
  | waits => exact .inl rfl
  | failed => exact .inr (.inr rfl)

theorem State.askSession_line (s : State) (m : Fin 4) (hello : Bool) : ∃ ss w a b q, (s.askSession m hello).line m =
    { s.line m with dlg := { (s.line m).dlg with session := ss, helloWait := w, ownMin := a, ownMax := b, queue := q } } := by
  obtain ⟨s1, hline, -, h | ⟨n, h⟩ | h⟩ := s.askSession_cases m hello
  · rw [h, hline]
    exact ⟨_, _, _, _, _, rfl⟩
  · obtain ⟨ss, w, a, b, q, hd⟩ := s1.helloDrawn_line m n
    rw [h, hd, hline]
    exact ⟨ss, w, a, b, q, rfl⟩
  · obtain ⟨ss, w, a, b, q, hd⟩ := s1.helloDrawn_line m none
    rw [h, show ((s1.helloDrawn m none).countDev 0xA 2 m.val).line m = (s1.helloDrawn m none).line m from rfl, hd, hline]
    exact ⟨ss, w, a, b, q, rfl⟩

theorem State.askSession_offers (s : State) (m : Fin 4) : ((s.askSession m true).line m).dlg.offers := by
  obtain ⟨s1, hline, -, h⟩ := s.askSession_cases m true
  have hw : (s1.line m).dlg.helloWait = true := by rw [hline]; exact Bool.or_true _
  obtain h | ⟨n, h⟩ | h := h
  · rw [h]; exact .inl hw
  · rw [h]; exact State.helloDrawn_offers hw n
  · rw [h]; exact State.helloDrawn_offers (s := s1) hw none

/-- The negotiation may leave DOWN: of a line it changes no more than the dialogue, and leaves the message outstanding. -/
theorem State.negLook_line (s : State) (m : Fin 4) :
    ∃ d, (s.negLook m).line m = { s.line m with dlg := d } ∧ d.out = (s.line m).dlg.out := by
  unfold State.negLook
  dsimp only
  split
  · split
    · rw [State.line_modLine, State.line_modLine]
      exact ⟨_, rfl, rfl⟩
    · rw [State.helloSend_line, State.line_modLine]
      exact ⟨_, rfl, rfl⟩
  · exact ⟨_, rfl, rfl⟩

/-! ### What is sent -/

/-- R86, R89: an acknowledged message is done. -/
theorem dlgAck_completes {m : Fin 4} {o : DlgOut} (hl : s.millLive m = true) (hloa : (s.line m).defects.loa = false)
    (ho : (s.line m).dlg.acked = some o) : Completes (.dlgAck m) s fun u =>
      (u.line m).dlg = { (s.line m).dlg with out := none } ∧ (u.line m).defects = { (s.line m).defects with dlgf := false } := by
  refine completes_finish (if_pos (by rw [hl, hloa, ho]; rfl)) ?_
  rw [State.settle_line, State.setDlgf_line, State.line_modLine]
  exact ⟨rfl, rfl⟩

theorem exec_dlgRetryTimeout {m : Fin 4} {o : DlgOut} (hl : s.millLive m = true) (hloa : (s.line m).defects.loa = false)
    (hack : (s.line m).dlg.acked = none) (ho : (s.line m).dlg.out = some o) (hsent : o.frags ≤ o.frag)
    (hwait : 16 * s.fld (Reg.lnf m 0x20) 16 12 ≤ o.wait) : exec (.dlgRetryTimeout m) s = finish (s.dlgRetry m o) := by
  change execDlgRetryTimeout m s = _
  unfold execDlgRetryTimeout
  rw [ho]
  dsimp only
  rw [hl, hloa, hack, decide_eq_true hsent, decide_eq_true hwait]
  rfl

/-- A message other than a SEQ_UPPER is sent again, or fails (R87). -/
theorem State.dlgRetry_eq (s : State) (m : Fin 4) {o : DlgOut} (ho : ∀ k, o.own ≠ some (.seqUpper k)) : s.dlgRetry m o =
    if o.sends < s.fld (Reg.lnf m 0x20) 28 4 then
      s.modLine m fun l => { l with dlg := { l.dlg with out := some { o with frag := 0, sends := o.sends + 1, wait := 0 } } }
    else s.dlgFail m o := by
  unfold State.dlgRetry
  split
  · next h => exact absurd h (ho _)
  · rfl

/-- A message that fails is no longer outstanding, and DLGF is declared (R87). -/
theorem State.dlgFail_line (s : State) (m : Fin 4) (o : DlgOut) :
    ((s.dlgFail m o).line m).dlg.out = none ∧ ((s.dlgFail m o).line m).defects = { (s.line m).defects with dlgf := true } := by
  have h1 : (s.modLine m fun l => { l with dlg := { l.dlg with out := none } }).line m =
      { s.line m with dlg := { (s.line m).dlg with out := none } } := s.line_modLine m _
  unfold State.dlgFail
  dsimp only
  generalize (s.modLine m fun l => { l with dlg := { l.dlg with out := none } }) = s1 at h1 ⊢
  have h2 : ((if o.own.isNone then s1.setBit (Reg.lnf m 0x20) 13 else s1).countMill m 0 9 0).line m = s1.line m :=
    State.line_of_mills (by split <;> simp only [State.countMill_mills, State.setBit_mills]) m
  generalize ((if o.own.isNone then s1.setBit (Reg.lnf m 0x20) 13 else s1).countMill m 0 9 0) = s2 at h2 ⊢
  have h3 := s2.setDlgf_line m true
  rw [h2, h1] at h3
  split
  · obtain ⟨d, hd, hout⟩ := ((s2.setDlgf m true).setNeg m .down).negLook_line m
    rw [State.setNeg, State.line_modLine, h3] at hd hout
    rw [State.setNeg, hd]
    exact ⟨hout, rfl⟩
  · rw [h3]
    exact ⟨rfl, rfl⟩

/-- R87: a message that is not acknowledged is sent again whole, and then fails. -/
theorem dlgRetryTimeout_completes {m : Fin 4} {o : DlgOut} (hl : s.millLive m = true) (hloa : (s.line m).defects.loa = false)
    (hack : (s.line m).dlg.acked = none) (ho : (s.line m).dlg.out = some o) (hsent : o.frags ≤ o.frag)
    (hown : ∀ k, o.own ≠ some (.seqUpper k)) (hwait : 16 * s.fld (Reg.lnf m 0x20) 16 12 ≤ o.wait) :
    Completes (.dlgRetryTimeout m) s fun u =>
      (o.sends < s.fld (Reg.lnf m 0x20) 28 4 →
        (u.line m).dlg = { (s.line m).dlg with out := some { o with frag := 0, sends := o.sends + 1, wait := 0 } })
      ∧ (s.fld (Reg.lnf m 0x20) 28 4 ≤ o.sends →
        (u.line m).dlg.out = none ∧ (u.line m).defects = { (s.line m).defects with dlgf := true }) := by
  refine completes_finish (exec_dlgRetryTimeout hl hloa hack ho hsent hwait) ⟨fun h => ?_, fun h => ?_⟩
  · rw [State.settle_line, State.dlgRetry_eq s m hown, if_pos h, State.line_modLine]
  · rw [State.settle_line, State.dlgRetry_eq s m hown, if_neg (Nat.not_lt.mpr h)]
    exact s.dlgFail_line m o

theorem exec_dlgSend {m : Fin 4} (hl : s.millLive m = true) (pf : Fin 2) :
    exec (.dlgSend pf m) s = finish (s.writeSend pf m 0x20) := if_pos hl

/-- R89: a legal host message is taken. -/
theorem dlgSend_takes {m : Fin 4} {x : Bytes} (hl : s.millLive m = true) (pf : Fin 2) (hb : (s.line m).dlg.busy = false)
    (hx : hostMessage (s.txBuf m) = some x) : Completes (.dlgSend pf m) s fun u =>
      u.mills = (s.modLine m fun l => { l with dlg := { l.dlg with host := some x } }).mills := by
  refine completes_finish (exec_dlgSend hl pf) ?_
  rw [State.settle_mills, State.writeSend, hb, hx]
  rfl

/-- R89: any other host message sets TX_ERR. -/
theorem dlgSend_refuses {m : Fin 4} (hl : s.millLive m = true) (pf : Fin 2) (hb : (s.line m).dlg.busy = false)
    (hx : hostMessage (s.txBuf m) = none) : Completes (.dlgSend pf m) s fun u =>
      u.mills = s.mills ∧ u.regs = (s.setBit (Reg.lnf m 0x20) 13).regs := by
  refine completes_finish (exec_dlgSend hl pf) ?_
  rw [State.settle_mills, State.settle_regs, State.writeSend, hb, if_neg Bool.false_ne_true, hx]
  dsimp only
  rw [State.countMill_mills, State.countMill_regs, State.setBit_mills]
  exact ⟨rfl, rfl⟩

/-- R89: while a message of the host waits, the write is locked. -/
theorem dlgSend_locked {m : Fin 4} (hl : s.millLive m = true) (pf : Fin 2) (hb : (s.line m).dlg.busy = true) :
    Completes (.dlgSend pf m) s fun u => Only settled s u := by
  refine completes_finish (exec_dlgSend hl pf) (State.settle_only ?_ rfl)
  rw [State.writeSend, hb]
  exact State.lockedWrite_only (Only.refl s) _ _ _ rfl

/-- Table 2-14: RENEG offers again. -/
theorem dlgReneg_completes {m : Fin 4} (hl : s.millLive m = true) (hn : (s.line m).dlg.neg = .failed) :
    Completes (.dlgReneg m) s fun u => (u.line m).dlg.neg = .offer ∧ (u.line m).dlg.offers := by
  refine completes_finish (t := s.writeReneg m) (if_pos (by rw [hl, hn]; rfl)) ?_
  rw [State.settle_line, State.writeReneg, if_pos hn]
  refine ⟨?_, State.askSession_offers ..⟩
  obtain ⟨ss, w, a, b, q, h⟩ := (s.modLine m fun l => { l with dlg := { l.dlg with neg := .offer } }).askSession_line m true
  rw [h, State.line_modLine]

/-- R88: clearing RX_FULL frees the buffer. -/
theorem dlgRxRelease_completes {m : Fin 4} (hl : s.millLive m = true) (hb : s.bit (Reg.lnf m 0x20) 7 = true) :
    Completes (.dlgRxRelease m) s fun u => u.mills = s.mills ∧ u.regs = (s.setBit (Reg.lnf m 0x20) 7 false).regs :=
  completes_finish (if_pos (by rw [hl, hb]; rfl)) ⟨State.settle_mills _, State.settle_regs _⟩

/-- Settles O45: each command by its lemma. -/
theorem dialogueSends : Obligations.DialogueSends := by
  unfold Obligations.DialogueSends
  exact fun s m hl => ⟨fun o hloa ho => dlgAck_completes hl hloa ho,
    fun o hloa hack ho hsent hown hwait => dlgRetryTimeout_completes hl hloa hack ho hsent hown hwait,
    fun pf => ⟨fun x hb hx => dlgSend_takes hl pf hb hx, dlgSend_refuses hl pf, dlgSend_locked hl pf⟩,
    dlgReneg_completes hl, dlgRxRelease_completes hl⟩

end Sys2Proof.Machine
end

section
/-! Dialogue messages that have been taken (R86, R88, R90, R113, R138-R140). Each stands at the head of the inbox; what it does starts
from the state `w` without it. -/

namespace Sys2Proof.Machine

variable {s w : State} {m : Fin 4} {x : DlgIn}

/-- The state without the message at the head of the inbox differs in that inbox only. -/
theorem State.dlgHead_eq {p : DlgIn → Bool} (h : s.dlgHead m p = some (x, w)) :
    ∃ xs, w = s.modLine m fun l => { l with dlg := { l.dlg with inbox := xs } } := by
  unfold State.dlgHead at h
  split at h
  · split at h
    · cases h
      exact ⟨_, rfl⟩
    · cases h
  · cases h

theorem State.dlgHead_defects {p : DlgIn → Bool} (h : s.dlgHead m p = some (x, w)) : (w.line m).defects = (s.line m).defects := by
  obtain ⟨xs, rfl⟩ := State.dlgHead_eq h
  rw [State.line_modLine]

theorem State.dlgHead_lci {p : DlgIn → Bool} (h : s.dlgHead m p = some (x, w)) : w.lci m = s.lci m := by
  obtain ⟨xs, rfl⟩ := State.dlgHead_eq h
  exact s.lci_modLine m m _

theorem State.dlgHead_dkl {p : DlgIn → Bool} (h : s.dlgHead m p = some (x, w)) : w.dkl m = s.dkl m := by
  obtain ⟨xs, rfl⟩ := State.dlgHead_eq h
  exact s.dkl_modLine m m _

theorem State.dlgHead_regs {p : DlgIn → Bool} (h : s.dlgHead m p = some (x, w)) (a i : Nat) :
    (w.setBit a i).regs = (s.setBit a i).regs := by
  obtain ⟨xs, rfl⟩ := State.dlgHead_eq h
  rfl

/-! ### HELLO, CONFIRM, VERCHK (Table 2-14) -/

theorem State.setNeg_line (s : State) (m : Fin 4) (n : Neg) :
    (s.setNeg m n).line m = { s.line m with dlg := { (s.line m).dlg with neg := n } } := s.line_modLine m _

theorem State.ownMsg_line (s : State) (m : Fin 4) (o : OwnMsg) :
    (s.ownMsg m o).line m = { s.line m with dlg := { (s.line m).dlg with queue := (s.line m).dlg.queue ++ [o] } } := s.line_modLine m _

/-- A new session number is confirmed where there is a common version. -/
theorem State.helloNew_confirms {m : Fin 4} {v : Nat} (h : (s.line m).dlg.common = some v) :
    (s.helloNew m false).line m = { s.line m with dlg := { (s.line m).dlg with
      neg := .confirm, queue := (s.line m).dlg.queue ++ [.confirm v ((s.line m).dlg.farSession.getD 0)] } } := by
  unfold State.helloNew
  dsimp only
  rw [if_neg Bool.false_ne_true, h]
  dsimp only
  rw [State.ownMsg_line, State.setNeg_line]

/-- Without a common version the negotiation has failed. -/
theorem State.helloNew_fails {m : Fin 4} (h : (s.line m).dlg.common = none) :
    (s.helloNew m false).line m = { s.line m with
      defects := { (s.line m).defects with verf := true }, dlg := { (s.line m).dlg with neg := .failed } } := by
  unfold State.helloNew
  dsimp only
  rw [if_neg Bool.false_ne_true, h]
  dsimp only
  rw [State.setVerf_line, State.setNeg_line]

/-- Sent again, this device's own HELLO goes first. -/
theorem State.helloNew_again (s : State) (m : Fin 4) : s.helloNew m true = (s.helloSend m).helloNew m false := rfl

/-- A HELLO that is queued stays queued, and the negotiation is confirmed or has failed. -/
theorem State.helloNew_settles {m : Fin 4} (h : .hello ∈ (s.line m).dlg.queue) :
    let f := ((s.helloNew m false).line m).dlg
    .hello ∈ f.queue ∧ (f.neg = .confirm ∨ f.neg = .failed) := by
  cases hc : (s.line m).dlg.common with
  | some v => rw [State.helloNew_confirms hc]; exact ⟨List.mem_append_left _ h, .inl rfl⟩
  | none => rw [State.helloNew_fails hc]; exact ⟨h, .inr rfl⟩

/-- What a HELLO says of the far end. -/
def Dlg.hear (d : Dlg) (x : DlgIn) : Dlg := { d with
  farSession := some (BitVec.ofNat 32 (beNat (slice x.body 4 4))), farMin := (byteAt x.body 0).toNat, farMax := (byteAt x.body 1).toNat }

/-- The state after a HELLO whose session number is new. -/
def State.helloHeard (w : State) (m : Fin 4) (x : DlgIn) : State := w.modLine m fun l => { l with dlg := l.dlg.hear x }

theorem State.helloHeard_line (w : State) (m : Fin 4) (x : DlgIn) :
    (w.helloHeard m x).line m = { w.line m with dlg := (w.line m).dlg.hear x } := w.line_modLine m _

theorem exec_dlgHello_repeated (h : s.dlgOf m 0x01 = some (x, w)) (hd : (w.line m).dlg.neg ≠ .down) (ho : (w.line m).dlg.neg ≠ .offer)
    (hn : (w.line m).dlg.farSession = some (BitVec.ofNat 32 (beNat (slice x.body 4 4)))) : exec (.dlgHello m) s = finish w := by
  change execDlgHello m s = _
  unfold execDlgHello
  rw [h]
  exact if_pos ⟨hd, ho, hn⟩

theorem exec_dlgHello_new (h : s.dlgOf m 0x01 = some (x, w))
    (hn : ¬((w.line m).dlg.neg ≠ .down ∧ (w.line m).dlg.neg ≠ .offer
      ∧ (w.line m).dlg.farSession = some (BitVec.ofNat 32 (beNat (slice x.body 4 4))))) :
    exec (.dlgHello m) s = finish (if (w.line m).dlg.neg = .down then w.helloHeard m x
      else (w.helloHeard m x).helloNew m (decide ((w.line m).dlg.neg ≠ .offer))) := by
  change execDlgHello m s = _
  unfold execDlgHello
  rw [h]
  refine (if_neg hn).trans ?_
  cases (w.line m).dlg.neg <;> rfl

/-- R90: a HELLO. -/
theorem dlgHello_completes (h : s.dlgOf m 0x01 = some (x, w)) :
    let d := (w.line m).dlg
    let n := BitVec.ofNat 32 (beNat (slice x.body 4 4))
    Completes (.dlgHello m) s fun u => let f := (u.line m).dlg
      (d.neg = .down → f = d.hear x)
      ∧ (d.neg ≠ .down → d.neg ≠ .offer → d.farSession = some n → f = d)
      ∧ (∀ v, d.neg = .offer → (d.hear x).common = some v →
        f = { d.hear x with neg := .confirm, queue := (d.hear x).queue ++ [.confirm v n] })
      ∧ (d.neg = .offer → (d.hear x).common = none → f = { d.hear x with neg := .failed } ∧ (u.line m).defects.verf = true)
      ∧ (d.neg ≠ .down → d.neg ≠ .offer → d.farSession ≠ some n → .hello ∈ f.queue ∧ (f.neg = .confirm ∨ f.neg = .failed)) := by
  intro d n
  have hline := w.helloHeard_line m x
  by_cases hr : d.neg ≠ .down ∧ d.neg ≠ .offer ∧ d.farSession = some n
  · obtain ⟨hd, ho, hn⟩ := hr
    refine completes_finish (exec_dlgHello_repeated h hd ho hn) ?_
    rw [State.settle_line]
    exact ⟨fun h => absurd h hd, fun _ _ _ => rfl, fun _ h => absurd h ho, fun h => absurd h ho, fun _ _ h => absurd hn h⟩
  · refine completes_finish (exec_dlgHello_new h hr) ?_
    rw [State.settle_line]
    by_cases hd : d.neg = .down
    · rw [if_pos hd, hline]
      have ho : d.neg ≠ .offer := by rw [hd]; exact Neg.noConfusion
      exact ⟨fun _ => rfl, fun h => absurd hd h, fun _ h => absurd h ho, fun h => absurd h ho, fun h => absurd hd h⟩
    · rw [if_neg hd]
      by_cases ho : d.neg = .offer
      · rw [decide_eq_false (not_not.mpr ho)]
        refine ⟨fun h => absurd h hd, fun _ h => absurd ho h, fun v _ hc => ?_, fun _ hc => ?_, fun _ h => absurd ho h⟩
        · rw [State.helloNew_confirms (v := v) (by rw [hline]; exact hc), hline]
          rfl
        · rw [State.helloNew_fails (by rw [hline]; exact hc), hline]
          exact ⟨rfl, rfl⟩
      · rw [decide_eq_true ho, State.helloNew_again]
        refine ⟨fun h => absurd h hd, fun _ _ h => absurd ⟨hd, ho, h⟩ hr, fun _ h => absurd h ho, fun h => absurd h ho, fun _ _ _ => ?_⟩
        refine State.helloNew_settles ?_
        rw [State.helloSend_line]
        exact List.mem_append_right _ (List.mem_singleton_self _)

theorem exec_dlgConfirm (h : s.dlgOf m 0x02 = some (x, w)) : exec (.dlgConfirm m) s = finish (
    if (w.line m).dlg.neg = .confirm then
      if (w.line m).dlg.common = some (byteAt x.body 0).toNat ∧ beNat (slice x.body 4 4) = (w.line m).dlg.session.toNat then
        ((w.modLine m fun l => { l with dlg := { l.dlg with verNext := some (byteAt x.body 0).toNat, verchkSent := false } }).setNeg m
          .agreed).setVerf m false
      else (w.setNeg m .failed).setVerf m true
    else w) := by
  change execDlgConfirm m s = _
  unfold execDlgConfirm
  rw [h]
  dsimp only
  split
  · split <;> rfl
  · rfl

/-- R90: a CONFIRM agrees, or the negotiation has failed. -/
theorem dlgConfirm_completes (h : s.dlgOf m 0x02 = some (x, w)) :
    let d := (w.line m).dlg
    Completes (.dlgConfirm m) s fun u => let f := (u.line m).dlg
      (d.neg ≠ .confirm → f = d)
      ∧ (d.neg = .confirm → d.common = some (byteAt x.body 0).toNat → beNat (slice x.body 4 4) = d.session.toNat →
        f = { d with verNext := some (byteAt x.body 0).toNat, verchkSent := false, neg := .agreed } ∧ (u.line m).defects.verf = false)
      ∧ (d.neg = .confirm → d.common ≠ some (byteAt x.body 0).toNat ∨ beNat (slice x.body 4 4) ≠ d.session.toNat →
        f = { d with neg := .failed } ∧ (u.line m).defects.verf = true) := by
  refine completes_finish (exec_dlgConfirm h) ⟨fun hn => ?_, fun hn hv hs => ?_, fun hn hv => ?_⟩
  · rw [State.settle_line, if_neg hn]
  · rw [State.settle_line, if_pos hn, if_pos ⟨hv, hs⟩, State.setVerf_line, State.setNeg_line, State.line_modLine]
    exact ⟨rfl, rfl⟩
  · rw [State.settle_line, if_pos hn, if_neg fun ⟨hc, hs⟩ => hv.elim (· hc) (· hs), State.setVerf_line, State.setNeg_line]
    exact ⟨rfl, rfl⟩

/-- R90: a VERCHK is compared with this device's own record. -/
theorem dlgVerchk_completes (h : s.dlgOf m 0x03 = some (x, w)) :
    let d := (w.line m).dlg
    let own := [byteOf d.farMin, byteOf d.farMax, byteOf d.ownMin, byteOf d.ownMax]
    Completes (.dlgVerchk m) s fun u => (u.line m).dlg = d
      ∧ (d.neg = .agreed → x.body ≠ own → (u.line m).defects.verf = true)
      ∧ (d.neg ≠ .agreed ∨ x.body = own → (u.line m).defects = (s.line m).defects) := by
  intro d own
  have hexec : exec (.dlgVerchk m) s = finish (if d.neg = .agreed ∧ (!decide (x.body = own)) = true then w.setVerf m true else w) := by
    change execDlgVerchk m s = _
    unfold execDlgVerchk
    rw [h]
  refine completes_finish hexec ?_
  rw [State.settle_line]
  split
  · next hc =>
    obtain ⟨hn, hb⟩ := hc
    have hne : x.body ≠ own := by simpa using hb
    rw [State.setVerf_line]
    exact ⟨rfl, fun _ _ => rfl, fun hor => (hor.elim (· hn) hne).elim⟩
  · next hc =>
    exact ⟨rfl, fun hn hb => absurd ⟨hn, by simpa using hb⟩ hc, fun _ => State.dlgHead_defects h⟩

/-! ### Host messages and reserved types -/

/-- R88: a host message goes to the receive buffer. -/
theorem dlgHostMessage_completes
    (h : s.dlgHead m (fun y => decide (0x80 ≤ y.type.toNat ∧ y.type.toNat < 0xFF)) = some (x, w)) :
    Completes (.dlgHostMessage m) s fun u => u.regs = (s.setBit (Reg.lnf m 0x20) 7).regs
      ∧ (u.line m).dlg = { (w.line m).dlg with rxbuf := padTo 240 (x.type :: byteOf x.body.length :: x.body) } := by
  have hexec : exec (.dlgHostMessage m) s = finish ((w.modLine m fun l => { l with dlg := { l.dlg with
      rxbuf := padTo 240 (x.type :: byteOf x.body.length :: x.body) } }).setBit (Reg.lnf m 0x20) 7) := by
    change execDlgHostMessage m s = _
    unfold execDlgHostMessage
    rw [h]
  refine completes_finish hexec ⟨?_, ?_⟩
  · rw [State.settle_regs, ← State.dlgHead_regs h]
    rfl
  · rw [State.settle_line, State.line_of_mills (State.setBit_mills ..), State.line_modLine]

/-- R86: a message of a reserved type is discarded. -/
theorem dlgReservedType_completes (h : s.dlgHead m (fun y => !y.known) = some (x, w)) :
    Completes (.dlgReservedType m) s fun u => u.mills = w.mills := by
  have hexec : exec (.dlgReservedType m) s = finish (w.countMill m 0 8 0) := by
    change execDlgReservedType m s = _
    unfold execDlgReservedType
    rw [h]
  exact completes_finish hexec (by rw [State.settle_mills, State.countMill_mills])

/-! ### Sequence numbers (R138-R140) -/

/-- R140: SEQ_UPPER starts or renews a trial. -/
theorem seqUpper_completes (h : s.dlgOf m 0x10 = some (x, w)) : Completes (.seqUpper m) s fun u =>
    ((s.lkn m x.lkn).track = .track → u.mills = w.mills)
    ∧ ((s.lkn m x.lkn).track ≠ .track → u.mills = (w.modLkn m x.lkn fun v => { v with
      track := .trial (beNat (slice x.body 4 4) * 2 ^ 32 + x.seqLo) 0 }).mills) := by
  have hexec : exec (.seqUpper m) s = finish (if (s.lkn m x.lkn).track = .track then w
      else w.modLkn m x.lkn fun v => { v with track := .trial (beNat (slice x.body 4 4) * 2 ^ 32 + x.seqLo) 0 }) := by
    change execSeqUpper m s = _
    unfold execSeqUpper
    rw [h]
    dsimp only
    rw [show w.lkn m x.lkn = s.lkn m x.lkn from congrArg (fun l : Lci => l.lkn[x.lkn]) (State.dlgHead_lci h)]
  refine completes_finish hexec ⟨fun ht => ?_, fun ht => ?_⟩
  · rw [State.settle_mills, if_pos ht]
  · rw [State.settle_mills, if_neg ht]

/-- R139: SEQ_QUERY asks for a SEQ_UPPER of the current key, where none is outstanding. -/
theorem seqQuery_completes (h : s.dlgOf m 0x11 = some (x, w)) : Completes (.seqQuery m) s fun u =>
    ((s.lci m).current = some x.lkn → (w.line m).dlg.upperOut = false →
      (u.line m).dlg = { (w.line m).dlg with queue := (w.line m).dlg.queue ++ [.seqUpper x.lkn] })
    ∧ ((s.lci m).current ≠ some x.lkn ∨ (w.line m).dlg.upperOut = true → u.mills = w.mills) := by
  have hexec : exec (.seqQuery m) s = finish (if (s.lci m).current = some x.lkn ∧ (!(w.line m).dlg.upperOut) = true
      then w.ownMsg m (.seqUpper x.lkn) else w.countMill m 1 9 0) := by
    change execSeqQuery m s = _
    unfold execSeqQuery
    rw [h]
    dsimp only
    rw [State.dlgHead_lci h]
  refine completes_finish hexec ⟨fun hc hu => ?_, fun hor => ?_⟩
  · rw [State.settle_line, if_pos ⟨hc, by rw [hu]; rfl⟩, State.ownMsg_line]
  · rw [State.settle_mills, if_neg ?_, State.countMill_mills]
    rintro ⟨hc, hu⟩
    rcases hor with hor | hor
    · exact hor hc
    · rw [hor] at hu; cases hu

/-! ### Far lanes (R110, R113) -/

/-- An automatic restore begins a validation, and changes nothing else. -/
theorem State.autoRestore_cases (s : State) (m : Fin 4) :
    s.autoRestore m = s ∨ ∃ v, s.autoRestore m = s.modDkl m fun y => { y with validating := v } := by
  unfold State.autoRestore
  dsimp only
  split
  · split
    · exact .inr ⟨_, rfl⟩
    · exact .inl rfl
  · exact .inl rfl

theorem State.autoRestore_dkl (s : State) (m : Fin 4) : ∃ v, (s.autoRestore m).dkl m = { s.dkl m with validating := v } := by
  obtain h | ⟨v, h⟩ := s.autoRestore_cases m
  · exact ⟨(s.dkl m).validating, by rw [h]⟩
  · exact ⟨v, by rw [h, State.dkl_modDkl]⟩

/-- R110, R113: LANE_READY announces a far lane, from version 3 on. -/
theorem laneReady_completes (h : s.dlgOf m 0x18 = some (x, w)) : Completes (.laneReady m) s fun u =>
    ((w.line m).dlg.ver < 3 → u.mills = w.mills)
    ∧ (3 ≤ (w.line m).dlg.ver → (u.dkl m).farReady = (s.dkl m).farReady ||| (1#8 <<< x.far.val)) := by
  have hexec : exec (.laneReady m) s = finish (if (w.line m).dlg.ver < 3 then w.countMill m 0 8 0 else
      (((w.modDkl m fun k => { k with farReady := k.farReady ||| (1#8 <<< x.far.val) }).countMill m 2 5 x.far.val).autoRestore m)) := by
    change execLaneReady m s = _
    unfold execLaneReady
    rw [h]
  refine completes_finish hexec ⟨fun hv => ?_, fun hv => ?_⟩
  · rw [State.settle_mills, if_pos hv, State.countMill_mills]
  · rw [State.settle_dkl, if_neg (Nat.not_lt.mpr hv)]
    obtain ⟨v, hr⟩ := ((w.modDkl m fun k => { k with farReady := k.farReady ||| (1#8 <<< x.far.val) }).countMill m 2 5
      x.far.val).autoRestore_dkl m
    rw [hr, State.dkl_of_mills (State.countMill_mills ..), State.dkl_modDkl, State.dlgHead_dkl h]

/-- R113: LANE_UNREADY withdraws it. -/
theorem laneUnready_completes (h : s.dlgOf m 0x19 = some (x, w)) : Completes (.laneUnready m) s fun u =>
    ((w.line m).dlg.ver < 3 → u.mills = w.mills)
    ∧ (3 ≤ (w.line m).dlg.ver → u.mills = (w.modDkl m fun k => { k with farReady := k.farReady &&& ~~~(1#8 <<< x.far.val) }).mills) := by
  have hexec : exec (.laneUnready m) s = finish (if (w.line m).dlg.ver < 3 then w.countMill m 0 8 0 else
      (w.modDkl m fun k => { k with farReady := k.farReady &&& ~~~(1#8 <<< x.far.val) }).countMill m 2 6 x.far.val) := by
    change execLaneUnready m s = _
    unfold execLaneUnready
    rw [h]
  refine completes_finish hexec ⟨fun hv => ?_, fun hv => ?_⟩
  · rw [State.settle_mills, if_pos hv, State.countMill_mills]
  · rw [State.settle_mills, if_neg (Nat.not_lt.mpr hv), State.countMill_mills]

/-- Settles O44: each message by its lemma. -/
theorem dialogueNegotiates : Obligations.DialogueNegotiates := by
  unfold Obligations.DialogueNegotiates
  exact fun s m x w => ⟨dlgHello_completes, dlgConfirm_completes, dlgVerchk_completes, dlgHostMessage_completes,
    dlgReservedType_completes, seqUpper_completes, seqQuery_completes, laneReady_completes, laneUnready_completes⟩

end Sys2Proof.Machine
end

section
/-! Two statements about the deframer that fail: on the edge of a command a lane set may change, and a lane that does not deliver under
the new set loses codeword lock (R374), so that more changes than the command's own rule says. -/

namespace Sys2Proof.Machine

/-- What `f` reads of the next state, where there is one. -/
def readNext {α : Type} (f : State → α) : Res → Option α
  | .next t => some (f t)
  | _ => none

/-- What the next state reads as holds of a state that meets what the command promises. -/
theorem Completes.read {i : Instr} {s : State} {P : State → Prop} {α : Type} {f : State → α} {a : α} (h : Completes i s P)
    (hf : readNext f (exec i s) = some a) : ∃ t, P t ∧ f t = a := by
  obtain ⟨t, he, hP⟩ := h
  rw [he] at hf
  exact ⟨t, hP, Option.some.inj hf⟩

/-- Every domain released, the receiver of line 0 enabled and hunting, LANE_USE lanes 0 and 1; both receivers enabled in MODE 8. A
far loopback is set on lane 1 where `loop` says so (Table 13-8). -/
def twoLanes (loop : Bool) : State :=
  let s0 : State := { rst := { released := 0x7FFF } }
  ((s0.setReg (Reg.lnf 0 0) 0x00030406).setReg (Reg.ser 32 0) 0x22).setReg (Reg.ser 33 0) (if loop then 0x200022 else 0x22)

/-- The SER receiver of lane `j` of line 0 is in TRACK. -/
def State.inTrack (s : State) (j : Fin 8) : State := s.modLane (lineLane 0 j) fun l => { l with st := .track }

/-! ### A lane that rejoins the group with a loopback set (O41) -/

/-- Lane 0 is in sync; lane 1 has seen two markers. The markers say that the ream is on two lanes. -/
def rejoiningLine (l : Line) : Line := { l with
  laneUse := 3
  lanes := (l.lanes.set 0 { st := .sync, lsc := 500, lane := 0, count := 2, arrival := 64, locw := false, lol := false }).set 1
    { st := .presync2, lsc := 0, lane := 1, count := 2, arrival := 64, locw := false } }

/-- Lane 1 is shed at the receiver, so that it delivers although its loopback is set (R393). -/
def rejoining : State :=
  ((((twoLanes true).modLine 0 rejoiningLine).modDkl 0 fun x => { x with rxMap := 2 }).inTrack 0).inTrack 1

/-- What lane 1 delivers at its expected position: the marker of the ream that begins with sheet 500. -/
def lastMarker : MarkerObs :=
  let ws := (scrambleWords 0 (wordsOf (marker 2 1 500))).1
  { prior := 0, bits := BitVec.ofNat 128 (ws.getD 0 0 + ws.getD 1 0 * 2 ^ 64), arrival := 64 }

/-- Lane 1 as Table 2-9 has it after that marker. -/
def syncedLane : RxLane := { st := .sync, lsc := 500, lane := 1, count := 2, arrival := 64, locw := false }

theorem rejoining_meets : rejoining.millLive 0 = true ∧ rejoining.rxEn 0 = true ∧ rejoining.huntEn 0 = true
    ∧ (rejoining.line 0).lanes[(1 : Fin 8)].locw = false ∧ rejoining.laneDelivers (lineLane 0 1) = true := by
  decide +kernel

theorem rejoining_judges : (rejoining.line 0).lanes[(1 : Fin 8)].judge (rejoining.shedComes 0) (candidate (markerWindow lastMarker))
    lastMarker.arrival = some syncedLane := by
  decide +kernel

/-- The group aligns on both lanes; lane 1 is in the effective set again, and its loopback takes its data. -/
theorem rejoining_hunts : readNext (fun t => (t.line 0).lanes[(1 : Fin 8)].st) (exec (.laneMarkerCheck 0 1 lastMarker) rejoining)
    = some .hunt := by
  decide +kernel

/-- Refutes O41: a shed lane delivers under a loopback (R393) and gains sync; the group then aligns on a set with that lane (R110), in
which it no longer delivers, so that on the same edge it loses lock and is in HUNT (R72), not in SYNC. -/
theorem not_deframerAligns : ¬ Obligations.DeframerAligns := by
  unfold Obligations.DeframerAligns
  rintro ⟨-, h⟩
  obtain ⟨hlive, hrx, hhunt, hlock, hdel⟩ := rejoining_meets
  obtain ⟨-, hcheck, -⟩ := h rejoining 0 hlive
  obtain ⟨-, hjudged⟩ := hcheck 1 lastMarker hrx hhunt hlock hdel
  obtain ⟨t, ⟨hst, -⟩, hread⟩ := (hjudged syncedLane rejoining_judges).read rejoining_hunts
  rw [hst] at hread
  cases hread

/-! ### A far-end lane defect whose automatic shed takes effect at once (O43) -/

/-- An aligned group of two lanes; three overheads have reported the far end's LANE 0 in LOL, under version 3. -/
def shedDueLine (l : Line) : Line := { l with
  laneUse := 3, aligned := true, everAligned := true, feLaneMap := 1, dlg := { l.dlg with ver := 3 }
  defects := { l.defects with loa := false }, runs := { l.runs with feSet := l.runs.feSet.set 4 3 }
  lanes := (l.lanes.set 0 { st := .sync, lsc := 500, lane := 0, count := 2, arrival := 64, locw := false, lol := false }).set 1
    { st := .sync, lsc := 500, lane := 1, count := 2, arrival := 64, locw := false, lol := false } }

/-- TX_EN is 0, AUTO_SHED is set and the standby page is ready for one lane. The receiver of lane 1 has lost its signal; its LOCW is not
declared yet. -/
def shedDue : State :=
  ((((twoLanes false).setReg (Reg.dkl 0 0) 1).modLine 0 shedDueLine).modDkl 0 fun x => { x with readyB := true, lanesB := 1 }).inTrack 0

theorem shedDue_meets : shedDue.millLive 0 = true ∧ shedDue.rxEn 0 = true ∧ (shedDue.line 0).defects.fe 4 = false
    ∧ 3 ≤ (shedDue.line 0).runs.feSet[(4 : Fin 5)] ∧ (shedDue.line 0).defects.loa = false := by
  decide +kernel

/-- The shed takes effect at once; the lanes follow the new set, lane 1 loses lock and with it the group its alignment. -/
theorem shedDue_loses_alignment : readNext (fun t => (t.line 0).defects.loa) (exec (.defectDeclare 0 .feLane) shedDue) = some true := by
  decide +kernel

theorem Defects.setFe_loa (d : Defects) (i : Fin 5) (b : Bool) : (d.setFe i b).loa = d.loa := by
  match i with
  | 0 | 1 | 2 | 3 | 4 => rfl

/-- Refutes O43: while TX_EN is 0, the automatic shed of FE_LANE takes effect at once (R105); a lane whose lost signal has not been declared
yet then loses lock, and LOA is declared beside FE_LANE. -/
theorem not_defectsAreDeclared : ¬ Obligations.DefectsAreDeclared := by
  unfold Obligations.DefectsAreDeclared
  intro h
  obtain ⟨hlive, hrx, hfe, hrun, hloa⟩ := shedDue_meets
  obtain ⟨-, hdeclare, -⟩ := h shedDue 0 hlive
  obtain ⟨-, -, -, hfar, -⟩ := hdeclare hrx
  obtain ⟨t, hdef, hread⟩ := (hfar .feLane 4 rfl hfe hrun).read shedDue_loses_alignment
  rw [hdef] at hread
  have hkept := Defects.setFe_loa (shedDue.line 0).defects 4 true
  rw [hloa] at hkept
  exact Bool.false_ne_true (hkept.symm.trans hread)

end Sys2Proof.Machine
end

section
/-! What the loss of lanes, of alignment and of line defects leaves of a line (chapters 2 and 13): nothing of its framing side, of the
pages or of what is sent. -/

namespace Sys2Proof.Machine

variable {s t u : State}

/-! ### Changes of the receiving side -/

/-- The line with another receiving side: lanes, alignment, lost sheets, defects, dialogue. -/
def Line.withRx (l : Line) (lanes : Vector RxLane 8) (aligned : Bool) (outage : Nat) (defects : Defects) (dlg : Dlg) : Line :=
  { l with lanes := lanes, aligned := aligned, outage := outage, defects := defects, dlg := dlg }

/-- The two lines differ at most on their receiving side. -/
def Line.RxOnly (l l' : Line) : Prop := ∃ lanes aligned outage defects dlg, l' = l.withRx lanes aligned outage defects dlg

theorem Line.RxOnly.refl (l : Line) : l.RxOnly l := ⟨l.lanes, l.aligned, l.outage, l.defects, l.dlg, rfl⟩

theorem Line.RxOnly.trans {l l' l'' : Line} (h : l.RxOnly l') (k : l'.RxOnly l'') : l.RxOnly l'' := by
  obtain ⟨_, _, _, _, _, rfl⟩ := h
  obtain ⟨a, b, c, d, e, rfl⟩ := k
  exact ⟨a, b, c, d, e, rfl⟩

theorem Line.withRx_rxOnly (l : Line) (a : Vector RxLane 8) (b : Bool) (c : Nat) (d : Defects) (e : Dlg) : l.RxOnly (l.withRx a b c d e) :=
  ⟨a, b, c, d, e, rfl⟩

/-- From `s` to `t` the lines have changed at most on their receiving side, the pages not at all, and nothing has been sent. -/
structure State.RxOnly (s t : State) : Prop where
  line : ∀ m, (s.line m).RxOnly (t.line m)
  dkl : ∀ m, t.dkl m = s.dkl m
  out : t.out = s.out

theorem State.RxOnly.refl (s : State) : s.RxOnly s := ⟨fun _ => .refl _, fun _ => rfl, rfl⟩

theorem State.RxOnly.trans (h : s.RxOnly t) (k : t.RxOnly u) : s.RxOnly u :=
  ⟨fun m => (h.line m).trans (k.line m), fun m => (k.dkl m).trans (h.dkl m), k.out.trans h.out⟩

theorem State.RxOnly.of_mills (h : t.mills = s.mills) (ho : t.out = s.out) : s.RxOnly t :=
  ⟨fun m => by rw [State.line_of_mills h]; exact .refl _, State.dkl_of_mills h, ho⟩

theorem State.RxOnly.ite {c : Prop} [Decidable c] (h : s.RxOnly t) (k : s.RxOnly u) : s.RxOnly (if c then t else u) := by
  split
  · exact h
  · exact k

theorem State.RxOnly.foldl {α : Type} {f : State → α → State} (hf : ∀ (s : State) (x : α), s.RxOnly (f s x)) :
    ∀ (l : List α) (s : State), s.RxOnly (l.foldl f s)
  | [], s => .refl s
  | x :: l, s => (hf s x).trans (State.RxOnly.foldl hf l (f s x))

theorem State.modLine_rxOnly (s : State) (m : Fin 4) {f : Line → Line} (hf : ∀ l : Line, l.RxOnly (f l)) : s.RxOnly (s.modLine m f) := by
  refine ⟨fun k => ?_, fun k => s.dkl_modLine m k f, rfl⟩
  by_cases h : m = k
  · subst h
    rw [State.line_modLine]
    exact hf _
  · rw [State.line_modLine_ne _ _ _ _ h]
    exact .refl _

theorem State.defectEdge_out (s : State) (m : Fin 4) (bit : Nat) (on : Bool) : (s.defectEdge m bit on).out = s.out :=
  State.defectEdge_only (ps := [.status, .counts, .evrQueue]) (Only.refl s) m bit on rfl .out rfl

theorem State.defectEdge_rxOnly (s : State) (m : Fin 4) (bit : Nat) (on : Bool) : s.RxOnly (s.defectEdge m bit on) :=
  .of_mills (s.defectEdge_mills ..) (s.defectEdge_out ..)

theorem State.setDefect_rxOnly (s : State) (m : Fin 4) (bit : Nat) (get : Defects → Bool) (put : Defects → Bool → Defects) (on : Bool) :
    s.RxOnly (s.setDefect m bit get put on) := by
  unfold State.setDefect
  exact .ite (.refl s) ((s.modLine_rxOnly m fun l => l.withRx_rxOnly l.lanes l.aligned l.outage (put l.defects on) l.dlg).trans
      (State.defectEdge_rxOnly ..))

theorem State.ownMsg_rxOnly (s : State) (m : Fin 4) (x : OwnMsg) : s.RxOnly (s.ownMsg m x) :=
  s.modLine_rxOnly m fun l => l.withRx_rxOnly l.lanes l.aligned l.outage l.defects _

theorem State.lineDelayLost_rxOnly (s : State) (m : Fin 4) : s.RxOnly (s.lineDelayLost m) := .of_mills rfl rfl

theorem State.loseAlign_rxOnly (s : State) (m : Fin 4) : s.RxOnly (s.loseAlign m) := by
  unfold State.loseAlign
  exact .ite (.refl s) (.trans (.trans (s.modLine_rxOnly m fun l => l.withRx_rxOnly l.lanes false 0 l.defects _)
    (State.lineDelayLost_rxOnly ..)) (State.setDefect_rxOnly ..))

theorem State.laneLost_rxOnly (s : State) (m : Fin 4) (j : Fin 8) : s.RxOnly (s.laneLost m j) := by
  have h1 := s.modLine_rxOnly m (f := fun l => { l with lanes := l.lanes.set j { l.lanes[j] with
    st := .hunt, misses := 0, missed := false, lol := true } }) fun l => l.withRx_rxOnly _ l.aligned l.outage l.defects l.dlg
  have h2 := State.RxOnly.ite (c := (s.line m).lanes[j].lol) h1 (h1.trans (State.defectEdge_rxOnly _ m (16 + j.val) true))
  exact .ite (h2.trans (State.loseAlign_rxOnly ..)) h2

theorem State.loseLock_rxOnly (s : State) (m : Fin 4) (j : Fin 8) : s.RxOnly (s.loseLock m j) := by
  have h1 := (s.modLine_rxOnly m (f := fun l => { l with lanes := l.lanes.set j { l.lanes[j] with
    locw := true, holdoff := false, ready := false } }) fun l => l.withRx_rxOnly _ l.aligned l.outage l.defects l.dlg).trans
      (State.laneLost_rxOnly _ m j)
  exact .ite (.refl s) (.ite (h1.trans (State.ownMsg_rxOnly ..)) h1)

/-! ### Lanes and their consumers -/

theorem State.modLane_rxOnly (s : State) (n : Fin 68) (f : Lane → Lane) : s.RxOnly (s.modLane n f) := .of_mills rfl rfl

theorem State.rxLook_rxOnly (s : State) (n : Fin 68) : s.RxOnly (s.rxLook n) := by
  unfold State.rxLook
  exact .ite (s.modLane_rxOnly ..) (.ite (s.modLane_rxOnly ..) (.refl s))

theorem State.lineLook_rxOnly (s : State) (m : Fin 4) : s.RxOnly (s.lineLook m) := by
  refine State.RxOnly.foldl (fun s j => ?_) _ s
  have hlook := s.rxLook_rxOnly (lineLane m j)
  have hscan := hlook.trans (State.modLane_rxOnly _ (lineLane m j) fun l => { l with eyeBusy := false, eyeDone := true, eyeAbort := true })
  exact .ite (.ite hscan hlook) ((State.RxOnly.ite hscan hlook).trans (State.loseLock_rxOnly ..))

theorem State.alignJudge_rxOnly (s : State) (m : Fin 4) : s.RxOnly (s.alignJudge m) := by
  unfold State.alignJudge
  exact .ite (.refl s) (s.loseAlign_rxOnly m)

theorem laneConsumer_rxOnly (s t : State) {n : Fin 68} (hn : isLineLane n = true) : t.RxOnly (laneConsumer s t n) := by
  have hfelt : isFeltLane n = false := by
    simp only [isLineLane, isFeltLane, decide_eq_true_eq, decide_eq_false_iff_not] at hn ⊢
    omega
  have hscan := t.modLane_rxOnly n fun l => { l with eyeBusy := false, eyeDone := true, eyeAbort := true }
  unfold laneConsumer
  dsimp only
  rw [hfelt, if_neg Bool.false_ne_true, if_pos hn]
  exact .ite (.ite hscan (.refl t)) ((State.RxOnly.ite hscan (.refl t)).trans (State.loseLock_rxOnly ..))

theorem foldl_laneConsumer_rxOnly (s : State) : ∀ (l : List (Fin 68)) (t : State), (∀ n ∈ l, isLineLane n = true) →
    t.RxOnly (l.foldl (fun x k => laneConsumer s x k) t)
  | [], t, _ => .refl t
  | n :: l, t, h => (laneConsumer_rxOnly s t (h n List.mem_cons_self)).trans
      (foldl_laneConsumer_rxOnly s l _ fun k hk => h k (List.mem_cons_of_mem _ hk))

theorem isLineLane_lineLane (m : Fin 4) (j : Fin 8) : isLineLane (lineLane m j) = true :=
  decide_eq_true (show 32 ≤ 32 + 8 * m.val + j.val ∧ 32 + 8 * m.val + j.val < 64 by omega)

/-- What follows a change of a line group's lanes changes no more than the receiving side. -/
theorem laneAfter_rxOnly (s t : State) (m : Fin 4) : t.RxOnly (laneAfter s t (lineLane m 0)) := by
  refine (State.RxOnly.foldl State.rxLook_rxOnly _ t).trans (foldl_laneConsumer_rxOnly s _ _ fun n hn => ?_)
  rw [laneGroup, isLineLane_lineLane, if_pos rfl] at hn
  obtain ⟨j, -, rfl⟩ := List.mem_map.mp hn
  exact isLineLane_lineLane _ j

/-! ### The lane sets (R106) -/

theorem State.RxOnly.laneUse (h : s.RxOnly t) (m : Fin 4) :
    (t.line m).laneUse = (s.line m).laneUse ∧ (t.line m).laneUseDue = (s.line m).laneUseDue := by
  obtain ⟨_, _, _, _, _, h⟩ := h.line m
  rw [h]
  exact ⟨rfl, rfl⟩

/-- The maps take their values. -/
theorem State.setMaps_dkl (s : State) (m : Fin 4) (tx rx : Byte) :
    (s.setMaps m tx rx).dkl m = { s.dkl m with txMap := tx, rxMap := rx } := by
  unfold State.setMaps
  dsimp only
  rw [(State.lineLook_rxOnly ..).dkl, State.dkl_of_mills (State.setFld_mills ..), State.dkl_modLine, State.dkl_modDkl]

/-- R106: a LANE_USE that takes effect clears both maps. -/
theorem State.laneUseTakes_sets (s : State) (m : Fin 4) :
    ((s.laneUseTakes m).line m).laneUse = byteOf (s.fld (Reg.lnf m 0) 16 8)
      ∧ ((s.laneUseTakes m).dkl m).txMap = 0 ∧ ((s.laneUseTakes m).dkl m).rxMap = 0 := by
  unfold State.laneUseTakes
  dsimp only
  have h := (State.lineLook_rxOnly (((s.setMaps m 0 0).modLine m fun l =>
    { l with laneUse := byteOf (s.fld (Reg.lnf m 0) 16 8), laneUseDue := false }).setFld (Reg.lnf m 0) 16 8
      (s.fld (Reg.lnf m 0) 16 8)) m).trans (State.alignJudge_rxOnly _ m)
  obtain ⟨huse, -⟩ := h.laneUse m
  rw [huse, h.dkl, State.line_of_mills (State.setFld_mills ..), State.dkl_of_mills (State.setFld_mills ..), State.line_modLine,
    State.dkl_modLine, State.setMaps_dkl]
  exact ⟨rfl, rfl, rfl⟩

/-- A LANE_USE that is written reads as written. -/
theorem State.laneUse_written (hc : s.canonical = true) (m : Fin 4) (v : Byte) :
    byteOf ((s.setFld (Reg.lnf m 0) 16 8 v.toNat).fld (Reg.lnf m 0) 16 8) = v := by
  have hv := v.isLt
  have hfld : (s.setFld (Reg.lnf m 0) 16 8 v.toNat).fld (Reg.lnf m 0) 16 8 = v.toNat := by
    unfold State.fld State.setFld
    rw [State.reg_setReg hc]
    unfold putField natBits
    omega
  rw [hfld]
  exact BitVec.ofNat_toNat _ _

end Sys2Proof.Machine
end

section
/-! TX_EN is cleared (R52, R223): armed changes and waits end with LINE_STOPPED (0x24). What that asks of the rings: a hold that goes
has left its record. -/

namespace Sys2Proof.Machine

variable {s t u : State}

/-! ### What rings do by themselves leaves their holds -/

/-- From `s` to `t` rings have at most come to owe more records; what holds them, and whether they are mute, is as before. -/
structure State.HoldsKept (s t : State) : Prop where
  hold : ∀ q, (t.ring q).hold = (s.ring q).hold
  mute : ∀ q, (t.ring q).mute = (s.ring q).mute
  done : ∀ q, (s.ring q).done <+: (t.ring q).done

theorem State.HoldsKept.of_ring (h : ∀ q, t.ring q = s.ring q) : s.HoldsKept t :=
  ⟨fun q => by rw [h], fun q => by rw [h], fun q => by rw [h]⟩

theorem State.HoldsKept.of_cur (h : t.cur = s.cur) : s.HoldsKept t := .of_ring fun q => by unfold State.ring; rw [h]

theorem State.HoldsKept.refl (s : State) : s.HoldsKept s := .of_cur rfl

theorem State.HoldsKept.trans (h : s.HoldsKept t) (k : t.HoldsKept u) : s.HoldsKept u :=
  ⟨fun q => (k.hold q).trans (h.hold q), fun q => (k.mute q).trans (h.mute q), fun q => (h.done q).trans (k.done q)⟩

theorem State.modRing_holdsKept (s : State) (r : Rid) {f : Ring → Ring} (hh : ∀ g, (f g).hold = g.hold) (hm : ∀ g, (f g).mute = g.mute)
    (hd : ∀ g, g.done <+: (f g).done) : s.HoldsKept (s.modRing r f) := by
  have h : ∀ q, (s.modRing r f).ring q = s.ring q ∨ (s.modRing r f).ring q = f (s.ring q) := fun q => by
    by_cases hq : r = q
    · subst hq; exact .inr (s.ring_modRing r f)
    · exact .inl (s.ring_modRing_ne f hq)
  refine ⟨fun q => ?_, fun q => ?_, fun q => ?_⟩
  · rcases h q with h | h <;> rw [h]
    exact hh _
  · rcases h q with h | h <;> rw [h]
    exact hm _
  · rcases h q with h | h <;> rw [h]
    exact hd _

theorem State.record_holdsKept (s : State) (r : Rid) (x : Rec) : s.HoldsKept (s.record r x) := by
  refine (s.modRing_holdsKept r (f := fun g => { g with done := g.done ++ [x] }) (fun _ => rfl) (fun _ => rfl)
    fun g => List.prefix_append g.done [x]).trans (.of_cur ?_)
  unfold State.record
  dsimp only
  split <;> rfl

theorem State.haltRing_holdsKept (s : State) (r : Rid) (tag : Nat) : s.HoldsKept (s.haltRing r tag) :=
  (s.modRing_holdsKept r (f := fun g => { g with halt := true }) (fun _ => rfl) (fun _ => rfl) fun _ => List.prefix_rfl).trans
    (.of_cur (State.happen_cur ..))

theorem State.drainOne_holdsKept (s : State) (r : Rid) (d : Desc) (st : Nat) : s.HoldsKept (s.drainOne r d st) := by
  have hpop := s.modRing_holdsKept r (f := fun g => { g with fetched := g.fetched.drop 1 }) (fun _ => rfl) (fun _ => rfl)
    fun _ => List.prefix_rfl
  have hturn : (s.modRing r fun g => { g with fetched := g.fetched.drop 1 }).HoldsKept
      ((s.modRing r fun g => { g with fetched := g.fetched.drop 1 }).modEng r.eng fun e => { e with rr := r.ring.val }) :=
    .of_ring (State.ring_modEng _ r.eng fun _ => rfl)
  have h : ∀ x : Rec, s.HoldsKept (((s.modRing r fun g => { g with fetched := g.fetched.drop 1 }).modEng r.eng
      fun e => { e with rr := r.ring.val }).record r x) := fun x => (hpop.trans hturn).trans (State.record_holdsKept ..)
  unfold State.drainOne
  dsimp only
  split
  · exact (h _).trans (State.haltRing_holdsKept ..)
  · exact h _

theorem State.drain_holdsKept (k : Fin 4) : ∀ (n : Nat) (s : State), s.HoldsKept (s.drain k n)
  | 0, s => .refl s
  | n + 1, s => by
    unfold State.drain
    split
    · exact (s.drainOne_holdsKept ..).trans (State.drain_holdsKept k n _)
    · exact .refl s

theorem State.drainAll_holdsKept (s : State) (r : Rid) : s.HoldsKept (s.drainAll r) := State.drain_holdsKept _ _ s

/-! ### A completion frees the ring that its instruction held -/

/-- The instruction of `ref` holds its ring. -/
def State.holdsRing (s : State) (ref : CmdRef) : Bool :=
  match (s.ring ref.rid).hold with
  | some (.time h _ _ _ _) | some (.ream h _ _) | some (.fence h _) => decide (h = ref)
  | none => false

theorem State.complete_eq_endCommand (s : State) (ref : CmdRef) (st res : Nat) (late stepped : Bool) (dseq : Option W32) :
    s.complete ref st res late stepped dseq =
      (s.modEng ref.rid.eng fun e => { e with outst := e.outst.filter (· ≠ ref) }).endCommand ref (s.holdsRing ref)
        (ref.recordOf st res late stepped dseq) := rfl

/-- Behind the free ring of `ref`, the end of its instruction leaves all holds. -/
theorem State.endCommand_holdsKept (s : State) (ref : CmdRef) (held : Bool) (x : Rec) :
    (if held then s.modRing ref.rid fun g => { g with hold := none } else s).HoldsKept (s.endCommand ref held x) := by
  unfold State.endCommand
  dsimp only
  generalize (if held then s.modRing ref.rid fun g => { g with hold := none } else s) = v
  have h : v.HoldsKept (if (v.ring ref.rid).mute then v else v.record ref.rid x) := by
    split
    · exact .refl v
    · exact v.record_holdsKept ..
  cases held
  · exact h
  · exact h.trans (State.drainAll_holdsKept ..)

/-- From `s` to `t` rings have at most come to owe more records, and a wait for a ream that no longer holds its ring has been recorded
with LINE_STOPPED. -/
structure State.Stops (s t : State) : Prop where
  mute : ∀ q, (t.ring q).mute = (s.ring q).mute
  done : ∀ q, (s.ring q).done <+: (t.ring q).done
  hold : ∀ r ref a b, (s.ring r).hold = some (.ream ref a b) → (t.ring r).hold = some (.ream ref a b) ∨ s.Records t ref 0x24

theorem State.HoldsKept.stops (h : s.HoldsKept t) : s.Stops t := ⟨h.mute, h.done, fun r _ _ _ hr => .inl ((h.hold r).trans hr)⟩

/-- A record that is owed stays owed. -/
theorem State.Records.keep {ref : CmdRef} {st : Nat} (h : s.Records t ref st) (k : t.Stops u) : s.Records u ref st := fun hm => by
  obtain ⟨new, hdone, x, hx, hrec⟩ := h hm
  obtain ⟨more, hmore⟩ := k.done ref.rid
  exact ⟨new ++ more, by rw [← hmore, hdone, List.append_assoc], x, List.mem_append_left _ hx, hrec⟩

/-- What comes to be owed later is owed. -/
theorem State.Records.since {ref : CmdRef} {st : Nat} (h : s.Stops t) (k : t.Records u ref st) : s.Records u ref st := fun hm => by
  obtain ⟨new, hdone, x, hx, hrec⟩ := k ((h.mute ref.rid).trans hm)
  obtain ⟨more, hmore⟩ := h.done ref.rid
  exact ⟨more ++ new, by rw [hdone, ← hmore, List.append_assoc], x, List.mem_append_right _ hx, hrec⟩

theorem State.Stops.trans (h : s.Stops t) (k : t.Stops u) : s.Stops u := by
  refine ⟨fun q => (k.mute q).trans (h.mute q), fun q => (h.done q).trans (k.done q), fun r ref a b hr => ?_⟩
  rcases h.hold r ref a b hr with ht | hrec
  · exact (k.hold r ref a b ht).imp_right (State.Records.since h)
  · exact .inr (hrec.keep k)

theorem State.complete_stops (s : State) (ref : CmdRef) (dseq : Option W32) : s.Stops (s.complete ref 0x24 0 false false dseq) := by
  have hrec := s.complete_records ref 0x24 0 false false dseq
  rw [State.complete_eq_endCommand] at hrec ⊢
  have hout : s.HoldsKept (s.modEng ref.rid.eng fun e => { e with outst := e.outst.filter (· ≠ ref) }) :=
    .of_ring (s.ring_modEng _ fun _ => rfl)
  have hend := (s.modEng ref.rid.eng fun e => { e with outst := e.outst.filter (· ≠ ref) }).endCommand_holdsKept ref (s.holdsRing ref)
    (ref.recordOf 0x24 0 false false dseq)
  generalize (s.modEng ref.rid.eng fun e => { e with outst := e.outst.filter (· ≠ ref) }) = v at hout hend hrec ⊢
  cases hheld : s.holdsRing ref
  · rw [hheld] at hend
    exact (hout.trans hend).stops
  · rw [hheld, if_pos rfl] at hend
    rw [hheld] at hrec
    have hfree := v.modRing_drains ref.rid (f := fun g => { g with hold := none }) fun _ => List.prefix_rfl
    refine ⟨fun q => (hend.mute q).trans ?_, fun q => ((hout.done q).trans (hfree.done q)).trans (hend.done q), fun r ref' a b hr => ?_⟩
    · by_cases hq : ref.rid = q
      · rw [← hq, State.ring_modRing]; exact hout.mute _
      · rw [State.ring_modRing_ne _ _ hq]; exact hout.mute q
    · by_cases hq : ref.rid = r
      · rw [State.holdsRing, hq, hr] at hheld
        rw [show ref' = ref from of_decide_eq_true hheld]
        exact .inr hrec
      · refine .inl (((hend.hold r).trans ?_).trans hr)
        rw [State.ring_modRing_ne _ _ hq]; exact hout.hold r

theorem State.completeOpt_stops (s : State) (ref : Option CmdRef) (dseq : Option W32) : s.Stops (s.completeOpt ref 0x24 0 false dseq) := by
  cases ref with
  | none => exact (State.HoldsKept.refl s).stops
  | some ref => exact s.complete_stops ref dseq

/-! ### Registers stay -/

theorem State.SamePath.regs (h : s.SamePath t) : t.regs = s.regs := by obtain ⟨_, _, _, _, _, _, rfl⟩ := h; rfl

theorem State.delta_regs (s : State) (d : Delta) (ream : Option (Fin 4 × W32)) : (s.delta d ream).1.regs = s.regs := by
  obtain ⟨_, _, _, h⟩ := s.delta_ends d ream
  rw [h]

theorem State.autoRestore_blocks (s : State) (m : Fin 4) : (s.autoRestore m).regs = s.regs ∧ (s.autoRestore m).cur = s.cur := by
  obtain h | ⟨v, h⟩ := s.autoRestore_cases m
  · rw [h]; exact ⟨rfl, rfl⟩
  · rw [h]; exact ⟨rfl, rfl⟩

/-! ### The pages' arm is cancelled (Table 3-3) -/

/-- The state in which the pages' arm has been cancelled and the standby told, before the cancelled change is reported. -/
def State.unarmed (s : State) (m : Fin 4) : State :=
  ((s.modDkl m fun x => { x with arm := none, flipCd := 0, shedFlag := false }).pageArmDelta m).1

theorem State.unarmed_blocks (s : State) (m : Fin 4) :
    (s.unarmed m).regs = s.regs ∧ (s.unarmed m).cur = s.cur
      ∧ (s.unarmed m).dkl m = { s.dkl m with arm := none, flipCd := 0, shedFlag := false } := by
  obtain ⟨hmills, -, -, hcur⟩ := (s.modDkl m fun x => { x with arm := none, flipCd := 0, shedFlag := false }).delta_blocks
    (.pageArm m ((s.modDkl m fun x => { x with arm := none, flipCd := 0, shedFlag := false }).dkl m).activeB
      (((s.modDkl m fun x => { x with arm := none, flipCd := 0, shedFlag := false }).dkl m).arm.map fun a => (a.kind, a.rcF)))
    (Option.map (m, ·) none)
  exact ⟨State.delta_regs .., hcur, (State.dkl_of_mills hmills m).trans (s.dkl_modDkl m _)⟩

theorem State.dklStop_cases (s : State) (m : Fin 4) : (s.dkl m).arm = none ∧ s.dklStop m = s
    ∨ ∃ ref n, s.dklStop m = ((s.unarmed m).completeOpt ref 0x24 0 false n).autoRestore m := by
  unfold State.dklStop
  split
  · next h => exact .inl ⟨h, rfl⟩
  · next a h => exact .inr ⟨a.ref, _, rfl⟩

theorem State.dklStop_stops (s : State) (m : Fin 4) :
    (s.dklStop m).regs = s.regs ∧ ((s.dklStop m).dkl m).arm = none ∧ s.Stops (s.dklStop m) := by
  obtain ⟨harm, h⟩ | ⟨ref, n, h⟩ := s.dklStop_cases m
  · rw [h]; exact ⟨rfl, harm, (State.HoldsKept.refl s).stops⟩
  · obtain ⟨hregs, hcur, hdkl⟩ := s.unarmed_blocks m
    have hpath := (s.unarmed m).completeOpt_samePath ref 0x24 0 false n
    obtain ⟨hregs', hcur'⟩ := ((s.unarmed m).completeOpt ref 0x24 0 false n).autoRestore_blocks m
    obtain ⟨v, hdkl'⟩ := ((s.unarmed m).completeOpt ref 0x24 0 false n).autoRestore_dkl m
    rw [h]
    refine ⟨(hregs'.trans hpath.regs).trans hregs, ?_, ?_⟩
    · rw [hdkl', State.dkl_of_mills hpath.mills, hdkl]
    · exact ((State.HoldsKept.of_cur hcur).stops.trans (State.completeOpt_stops ..)).trans (State.HoldsKept.of_cur hcur').stops

/-! ### The key change's arm ends (Table 4-2) -/

theorem State.lkn_modLkn (s : State) (m k : Fin 4) (f : Lkn → Lkn) : (s.modLkn m k f).lkn m k = f (s.lkn m k) := by
  unfold State.lkn State.modLkn
  rw [State.lci_modLci]
  exact Vector.getElem_set_self _

/-- A change of an LKN that leaves `g` of every LKN leaves it. -/
theorem State.modLkn_keeps {α : Type} (s : State) (m k : Fin 4) {f : Lkn → Lkn} (g : Lkn → α) (hf : ∀ v, g (f v) = g v) (j : Fin 4) :
    g ((s.modLkn m k f).lkn m j) = g (s.lkn m j) := by
  by_cases h : k = j
  · subst h
    rw [State.lkn_modLkn, hf]
  · unfold State.lkn State.modLkn
    rw [State.lci_modLci]
    exact congrArg g (Vector.getElem_set_ne k.isLt j.isLt fun e => h (Fin.ext e))

/-- The state in which the pending arm `a` has been taken back and the standby told, before it is reported. -/
def State.takenBack (s : State) (m : Fin 4) (a : KeyArm) : State :=
  ((((s.modLkn m a.lkn fun x => { x with tx := .idle }).modLci m fun x => { x with arm := none }).lknDelta m a.lkn).1.armDelta m).1

theorem State.takenBack_blocks (s : State) (m : Fin 4) (a : KeyArm) :
    (s.takenBack m a).regs = s.regs ∧ (s.takenBack m a).cur = s.cur
      ∧ (s.takenBack m a).mills = ((s.modLkn m a.lkn fun x => { x with tx := .idle }).modLci m fun x => { x with arm := none }).mills := by
  unfold State.takenBack State.lknDelta State.armDelta
  generalize hv : ((s.modLkn m a.lkn fun x => { x with tx := .idle }).modLci m fun x => { x with arm := none }) = v
  have hvr : v.regs = s.regs ∧ v.cur = s.cur := by rw [← hv]; exact ⟨rfl, rfl⟩
  obtain ⟨hregs, hcur⟩ := hvr
  obtain ⟨hm1, -, -, hc1⟩ := v.delta_blocks (.lkn m a.lkn (v.lkn m a.lkn)) (Option.map (m, ·) none)
  generalize hw : (v.delta (.lkn m a.lkn (v.lkn m a.lkn)) (Option.map (m, ·) none)).1 = w at hm1 hc1 ⊢
  have hr1 : w.regs = v.regs := by rw [← hw]; exact v.delta_regs ..
  obtain ⟨hm2, -, -, hc2⟩ := w.delta_blocks (.keyArm m ((w.lci m).arm.map fun a =>
    (a.lkn, if a.time.isNone then some (w.lci m).armRc else none, a.time))) (Option.map (m, ·) none)
  exact ⟨((w.delta_regs ..).trans hr1).trans hregs, (hc2.trans hc1).trans hcur, hm2.trans hm1⟩

theorem State.disarm_cases (s : State) (m : Fin 4) (st : Nat) : (s.lci m).arm = none ∧ s.disarm m st = s
    ∨ ∃ a n, s.disarm m st = (s.takenBack m a).completeOpt a.ref st 0 false n := by
  unfold State.disarm
  split
  · next h => exact .inl ⟨h, rfl⟩
  · next a h => exact .inr ⟨a, _, rfl⟩

theorem State.disarm_stops (s : State) (m : Fin 4) : (s.disarm m 0x24).regs = s.regs ∧ ((s.disarm m 0x24).lci m).arm = none
    ∧ (∀ k, ((s.disarm m 0x24).lkn m k).halts = (s.lkn m k).halts) ∧ s.Stops (s.disarm m 0x24) := by
  obtain ⟨harm, h⟩ | ⟨a, n, h⟩ := s.disarm_cases m 0x24
  · rw [h]; exact ⟨rfl, harm, fun _ => rfl, (State.HoldsKept.refl s).stops⟩
  · obtain ⟨hregs, hcur, hmills⟩ := s.takenBack_blocks m a
    have hpath := (s.takenBack m a).completeOpt_samePath a.ref 0x24 0 false n
    have hlci : ((s.takenBack m a).completeOpt a.ref 0x24 0 false n).lci m =
        { (s.modLkn m a.lkn fun x => { x with tx := .idle }).lci m with arm := none } :=
      (State.lci_of_mills (hpath.mills.trans hmills) m).trans (State.lci_modLci ..)
    rw [h]
    refine ⟨hpath.regs.trans hregs, by rw [hlci], fun k => ?_, (State.HoldsKept.of_cur hcur).stops.trans (State.completeOpt_stops ..)⟩
    exact (congrArg (fun x : Lci => x.lkn[k].halts) hlci).trans
      (s.modLkn_keeps m a.lkn (f := fun x => { x with tx := .idle }) Lkn.halts (fun _ => rfl) k)

/-! ### Waits for a ream end (R223) -/

theorem State.waitFail_samePath (s : State) (ref : CmdRef) (st : Nat) : s.SamePath (s.waitFail ref st) :=
  (((State.modRing_drains s ref.rid (f := fun g => { g with halt := true }) fun _ => List.prefix_rfl).trans
    (State.happen_drains ..)).path).trans (State.complete_samePath ..)

theorem State.waitFail_stops (s : State) (ref : CmdRef) : s.Stops (s.waitFail ref 0x24) ∧ s.Records (s.waitFail ref 0x24) ref 0x24 :=
  have h := (s.haltRing_holdsKept ref.rid ref.tag.toNat).stops
  ⟨h.trans (State.complete_stops ..), .since h (State.complete_records _ ref 0x24 0 false false none)⟩

/-- Every wait for a ream at the rings named ends with LINE_STOPPED. -/
theorem State.waitsStop_stops (m : Fin 4) : ∀ (is : List (Fin 12)) (s : State), s.SamePath (s.waitsStop m is) ∧ s.Stops (s.waitsStop m is)
    ∧ ∀ i ∈ is, ∀ ref a b, (s.ring ⟨m, i⟩).hold = some (.ream ref a b) → s.Records (s.waitsStop m is) ref 0x24
  | [], s => ⟨.refl s, (State.HoldsKept.refl s).stops, fun _ h => absurd h List.not_mem_nil⟩
  | i :: is, s => by
    obtain ⟨t, ht, hpath, hstops, hfirst⟩ : ∃ t, s.waitsStop m (i :: is) = t.waitsStop m is ∧ s.SamePath t ∧ s.Stops t
        ∧ ∀ ref a b, (s.ring ⟨m, i⟩).hold = some (.ream ref a b) → s.Records t ref 0x24 := by
      refine ⟨_, rfl, ?_⟩
      split
      · next ref a b h =>
        obtain ⟨hst, hrec⟩ := s.waitFail_stops ref
        exact ⟨s.waitFail_samePath .., hst, fun _ _ _ h' => by rw [h] at h'; cases h'; exact hrec⟩
      · next h => exact ⟨.refl s, (State.HoldsKept.refl s).stops, fun ref a b h' => absurd h' (h ref a b)⟩
    obtain ⟨hpath', hstops', hrest⟩ := State.waitsStop_stops m is t
    rw [ht]
    refine ⟨hpath.trans hpath', hstops.trans hstops', fun j hj ref a b hr => ?_⟩
    rcases List.mem_cons.mp hj with rfl | hj
    · exact (hfirst ref a b hr).keep hstops'
    · rcases hstops.hold _ ref a b hr with hr' | hrec
      · exact .since hstops (hrest j hj ref a b hr')
      · exact hrec.keep hstops'

end Sys2Proof.Machine
end

section
/-! The framer: reams and sheets (R50, R51, R52, R64, R126, R127). What it numbers and counts by is changed by nothing that happens on
the edges of its commands besides. -/

namespace Sys2Proof.Machine

variable {s t u : State}

/-! ### What the framer counts by -/

/-- The line with nothing but the framer's place and counts. -/
def Line.framer (l : Line) : Line := { inReam := l.inReam, idx := l.idx, lsc := l.lsc, rc := l.rc, lanesTx := l.lanesTx }

/-- From `s` to `t` every framer is at the same place, and the permission to send is the same. -/
structure State.FramerKept (s t : State) : Prop where
  framer : ∀ m, (t.line m).framer = (s.line m).framer
  permitted : t.permitted = s.permitted

theorem State.FramerKept.refl (s : State) : s.FramerKept s := ⟨fun _ => rfl, rfl⟩

theorem State.FramerKept.trans (h : s.FramerKept t) (k : t.FramerKept u) : s.FramerKept u :=
  ⟨fun m => (k.framer m).trans (h.framer m), k.permitted.trans h.permitted⟩

theorem State.FramerKept.ite {c : Prop} [Decidable c] (h : s.FramerKept t) (k : s.FramerKept u) : s.FramerKept (if c then t else u) := by
  split
  · exact h
  · exact k

theorem Line.framer_eq {l l' : Line} (h : l'.framer = l.framer) : l'.inReam = l.inReam ∧ l'.idx = l.idx ∧ l'.lsc = l.lsc ∧ l'.rc = l.rc
    ∧ l'.lanesTx = l.lanesTx :=
  ⟨(congrArg Line.inReam h :), (congrArg Line.idx h :), (congrArg Line.lsc h :), (congrArg Line.rc h :), (congrArg Line.lanesTx h :)⟩

theorem State.FramerKept.lsc (h : s.FramerKept t) (m : Fin 4) : (t.line m).lsc = (s.line m).lsc := by
  obtain ⟨-, -, hlsc, -⟩ := Line.framer_eq (h.framer m)
  exact hlsc

theorem Line.RxOnly.framer {l l' : Line} (h : l.RxOnly l') : l'.framer = l.framer := by obtain ⟨_, _, _, _, _, rfl⟩ := h; rfl

/-- The permission rests on the lock of the line grant and the life-cycle state. -/
theorem State.permitted_of_only {ps : List Area} (h : Only ps s t) (hm : ps.contains .mte = false) (hk : ps.contains .kst = false) :
    t.permitted = s.permitted := by
  have hmte : t.mte.rest = s.mte.rest := h .mte hm
  have hkst : t.kst.rest = s.kst.rest := h .kst hk
  have hlock : t.mte.lock = s.mte.lock := (congrArg Mte.lock hmte :)
  have hlc : t.kst.lc = s.kst.lc := (congrArg Kst.lc hkst :)
  unfold State.permitted State.granted
  rw [hlock, hlc]

theorem State.FramerKept.of_only {ps : List Area} (h : Only ps s t) (hl : ps.contains .line = false) (hm : ps.contains .mte = false)
    (hk : ps.contains .kst = false) : s.FramerKept t :=
  ⟨fun m => congrArg Line.framer (h .line hl m), State.permitted_of_only h hm hk⟩

theorem State.modLine_framerKept (s : State) (m : Fin 4) {f : Line → Line} (hf : ∀ l, (f l).framer = l.framer) :
    s.FramerKept (s.modLine m f) := by
  refine ⟨fun k => ?_, rfl⟩
  by_cases h : m = k
  · subst h
    rw [State.line_modLine]
    exact hf _
  · rw [State.line_modLine_ne _ _ _ _ h]

/-! ### What a ream boundary brings -/

theorem State.modDkl_framerKept (s : State) (m : Fin 4) (f : Deckle → Deckle) : s.FramerKept (s.modDkl m f) :=
  ⟨fun k => congrArg Line.framer (s.line_modDkl m k f), rfl⟩

theorem State.delta_framerKept (s : State) (d : Delta) (ream : Option (Fin 4 × W32)) : s.FramerKept (s.delta d ream).1 := by
  refine ⟨fun m => congrArg Line.framer (State.line_of_mills (s.delta_blocks d ream).1 m), ?_⟩
  unfold State.delta State.feltSend
  split
  · dsimp only
    split <;> rfl
  · rfl

theorem State.setMaps_framerKept (s : State) (m : Fin 4) (tx rx : Byte) : s.FramerKept (s.setMaps m tx rx) := by
  have hp := State.permitted_of_only (State.setMaps_only (ps := [.status, .counts, .evrQueue, .tim, .line, .dkl, .lanes])
    (Only.refl s) m tx rx rfl) rfl rfl
  refine ⟨fun k => ?_, hp⟩
  unfold State.setMaps
  dsimp only
  rw [((State.lineLook_rxOnly ..).line k).framer, State.line_of_mills (State.setFld_mills ..)]
  exact ((s.modDkl_framerKept m _).trans (State.modLine_framerKept _ m fun _ => by rfl)).framer k

theorem State.laneUseTakes_framerKept (s : State) (m : Fin 4) : s.FramerKept (s.laneUseTakes m) := by
  have hp := State.permitted_of_only (State.laneUseTakes_only (ps := [.status, .counts, .evrQueue, .tim, .line, .dkl, .lanes])
    (Only.refl s) m rfl) rfl rfl
  refine ⟨fun k => ?_, hp⟩
  unfold State.laneUseTakes
  dsimp only
  rw [(((State.lineLook_rxOnly ..).trans (State.alignJudge_rxOnly ..)).line k).framer, State.line_of_mills (State.setFld_mills ..)]
  exact ((s.setMaps_framerKept m 0 0).trans (State.modLine_framerKept _ m fun _ => by rfl)).framer k

theorem State.reamSettings_framerKept (s : State) (m : Fin 4) : s.FramerKept (s.reamSettings m) := by
  unfold State.reamSettings
  exact .trans (.ite (s.laneUseTakes_framerKept m) (.refl s)) (State.modLine_framerKept _ m fun _ => by rfl)

theorem State.countMill_framerKept (s : State) (m : Fin 4) (src i q : Nat) (n : Nat) :
    s.FramerKept (s.countMill m src i q n) :=
  .of_only (State.countMill_only (ps := [.counts]) (Only.refl s) m src i q n rfl) rfl rfl rfl

theorem State.flipEffect_framerKept (s : State) (m : Fin 4) (k : ArmKind) : s.FramerKept (s.flipEffect m k) := by
  have h1 : s.FramerKept ((s.modDkl m fun x => { x with activeB := !x.activeB, flipCd := 0, shedFlag := false }).countMill m 2 k.event.1
    k.event.2) := (s.modDkl_framerKept m _).trans (State.countMill_framerKept ..)
  unfold State.flipEffect
  cases k with
  | flip => exact h1
  | shed j => exact h1.trans (State.setMaps_framerKept ..)
  | restore j => exact (h1.trans (State.modDkl_framerKept ..)).trans (State.setMaps_framerKept ..)

theorem State.completeOpt_framerKept (s : State) (ref : Option CmdRef) (st res : Nat) (late : Bool) (dseq : Option W32) :
    s.FramerKept (s.completeOpt ref st res late dseq) :=
  .of_only (State.completeOpt_only (ps := [.counts, .evrQueue, .cur]) (Only.refl s) ref st res late dseq rfl) rfl rfl rfl

theorem State.autoRestore_framerKept (s : State) (m : Fin 4) : s.FramerKept (s.autoRestore m) := by
  obtain h | ⟨v, h⟩ := s.autoRestore_cases m
  · rw [h]; exact .refl s
  · rw [h]; exact s.modDkl_framerKept m _

theorem State.dklReam_framerKept (s : State) (m : Fin 4) (rc : W32) : s.FramerKept (s.dklReam m rc) := by
  unfold State.dklReam
  split
  · exact .refl s
  · next a _ =>
    refine .ite (s.modDkl_framerKept m _) (.ite (s.modDkl_framerKept m _) (.ite ?_ (.refl s)))
    exact (((s.modDkl_framerKept m _).trans (State.flipEffect_framerKept ..)).trans (State.delta_framerKept ..)).trans
      ((State.completeOpt_framerKept ..).trans (State.autoRestore_framerKept ..))

theorem State.modLci_framerKept (s : State) (m : Fin 4) (f : Lci → Lci) : s.FramerKept (s.modLci m f) :=
  ⟨fun k => congrArg Line.framer (s.line_modLci m k f), rfl⟩

theorem State.endHalts_framerKept (s : State) (st : Nat) (n : Option W32) (hs : List CmdRef) : s.FramerKept (s.endHalts st n hs) :=
  .of_only (State.endHalts_only (ps := [.counts, .evrQueue, .cur]) (Only.refl s) st n hs rfl) rfl rfl rfl

theorem State.lknDelta_framerKept (s : State) (m k : Fin 4) (ream : Option W32) : s.FramerKept (s.lknDelta m k ream).1 :=
  s.delta_framerKept ..

theorem State.txDone_framerKept (s : State) (m k : Fin 4) (ream : Option W32) : s.FramerKept (s.txDone m k ream) := by
  have h1 := (s.modLci_framerKept m fun x => { x with lkn := x.lkn.set k { x.lkn[k] with tx := .done, halts := [] } }).trans
    (State.lknDelta_framerKept _ m k ream)
  unfold State.txDone
  dsimp only
  split
  · exact h1
  · exact (h1.trans (State.countMill_framerKept ..)).trans (State.endHalts_framerKept ..)

theorem State.keyChange_framerKept (s : State) (m : Fin 4) (a : KeyArm) (rc : W32) (ream : Option W32) :
    s.FramerKept (s.keyChange m a rc ream) := by
  have h1 : s.FramerKept (match (s.lci m).current with | some k => s.txDone m k ream | none => s) := by
    split
    · exact s.txDone_framerKept ..
    · exact .refl s
  unfold State.keyChange
  dsimp only
  exact (((h1.trans (State.modLci_framerKept ..)).trans (State.modLci_framerKept ..)).trans
    ((State.delta_framerKept ..).trans (State.delta_framerKept ..))).trans (State.completeOpt_framerKept ..)

theorem State.lknReam_framerKept (s : State) (m : Fin 4) (rc : W32) : s.FramerKept (s.lknReam m rc) := by
  unfold State.lknReam
  dsimp only
  split
  · exact s.keyChange_framerKept ..
  · split
    · exact .ite (.refl s) (s.txDone_framerKept ..)
    · exact .refl s

end Sys2Proof.Machine
end

section
/-! The framer at a ream boundary and the lane sets it sends by (R50, R69, R106). -/

namespace Sys2Proof.Machine

variable {s t u : State}

/-! ### Codewords on the line -/

/-- From `s` to `t` every framer is as it was, and what had been sent still stands sent. -/
structure State.FramerSent (s t : State) : Prop extends s.FramerKept t where
  out : s.out <:+ t.out

theorem State.FramerSent.trans (h : s.FramerSent t) (k : t.FramerSent u) : s.FramerSent u :=
  ⟨h.toFramerKept.trans k.toFramerKept, h.out.trans k.out⟩

theorem State.emits_framerSent (s : State) (os : List Out) : s.FramerSent (s.emits os) := ⟨⟨fun _ => rfl, rfl⟩, List.suffix_append ..⟩

theorem State.wireLane_framerSent (s : State) (m : Fin 4) (j : Fin 8) (ws : List Nat) : s.FramerSent (s.wireLane m j ws) := by
  unfold State.wireLane
  dsimp only
  split
  · exact ⟨.refl s, List.suffix_rfl⟩
  · exact .trans ⟨s.modLine_framerKept m fun _ => by rfl, List.suffix_rfl⟩ (State.emits_framerSent ..)

theorem State.wireAll_framerSent (s : State) (m : Fin 4) (set : List (Fin 8)) (share : Nat → List Nat) :
    s.FramerSent (s.wireAll m set share) := by
  unfold State.wireAll
  generalize List.finRange 8 = js
  induction js generalizing s with
  | nil => exact ⟨.refl s, List.suffix_rfl⟩
  | cons j js ih => exact (s.wireLane_framerSent m j _).trans (ih _)

/-! ### The start of a ream (R50) -/

/-- The framer's place and counts for a ream on `n` lanes. -/
def Line.framerOn (l : Line) (n : Nat) : Line := { l.framer with lanesTx := n }

theorem Line.framerOn_congr {l l' : Line} (h : l'.framer = l.framer) (n : Nat) : l'.framerOn n = l.framerOn n :=
  congrArg (fun x : Line => { x with lanesTx := n }) h

theorem Line.framerOn_eq {l l' : Line} {n : Nat} (h : l'.framer = l.framerOn n) : l'.inReam = l.inReam ∧ l'.idx = l.idx ∧ l'.lsc = l.lsc
    ∧ l'.rc = l.rc ∧ l'.lanesTx = n :=
  Line.framer_eq (l := { l with lanesTx := n }) h

theorem State.ownMsg_framerKept (s : State) (m : Fin 4) (x : OwnMsg) : s.FramerKept (s.ownMsg m x) :=
  s.modLine_framerKept m fun _ => by rfl

/-- The line of mill `m` at the start of a ream, before what was armed for it takes effect. -/
def State.reamPlace (s : State) (m : Fin 4) : State :=
  s.modLine m fun l => { l with rc := if (s.line m).begun then (s.line m).rc + 1 else 0, begun := true, idx := 0, inReam := true }


/-- A change of the line that gives the ream `n` lanes, and the VERCHK that may fall due with it. -/
theorem State.reamLanes_place (s : State) (m : Fin 4) {f : Line → Line} {n : Nat} (hf : ∀ l, (f l).framer = l.framerOn n)
    (c : Prop) [Decidable c] : ((if c then (s.modLine m f).ownMsg m .verchk else s.modLine m f).line m).framer
      = (s.line m).framerOn n
      ∧ (if c then (s.modLine m f).ownMsg m .verchk else s.modLine m f).permitted = s.permitted := by
  have h := State.FramerKept.ite (c := c) ((s.modLine m f).ownMsg_framerKept m .verchk) (.refl _)
  exact ⟨by rw [h.framer, State.line_modLine, hf], h.permitted⟩

/-- What was armed leaves the framer's place; the markers of the ream's lanes go out, with permission. -/
theorem State.reamBegin_cases (s : State) (m : Fin 4) : ∃ (s2 s4 : State) (n : Nat), (s.reamPlace m).FramerKept s2
    ∧ s.reamBegin m = (if s4.permitted then
        (s4.emit (.markers m.val ((List.range n).map fun k => marker n k (s2.line m).lsc))).wireMarkers m (lanesIn (s4.txSet m))
          ((List.range n).map fun k => marker n k (s2.line m).lsc)
      else s4)
    ∧ (s4.line m).framer = (s2.line m).framerOn n ∧ s4.permitted = s2.permitted := by
  have h2 := (((s.reamPlace m).reamSettings_framerKept m).trans (State.dklReam_framerKept _ m
    (if (s.line m).begun then (s.line m).rc + 1 else 0))).trans
      (State.lknReam_framerKept _ m (if (s.line m).begun then (s.line m).rc + 1 else 0))
  refine ⟨_, _, _, h2, rfl, ?_⟩
  exact State.reamLanes_place _ m (fun _ => by rfl) _

/-- The next ream has begun at its first sheet; its markers, one on each lane, carry the line sheet count. -/
theorem State.reamBegin_begins (s : State) (m : Fin 4) : ∃ n, ((s.reamBegin m).line m).framer = ((s.reamPlace m).line m).framerOn n
    ∧ (s.permitted = true → Out.markers m.val ((List.range n).map fun k => marker n k (s.line m).lsc) ∈ (s.reamBegin m).out) := by
  obtain ⟨s2, s4, n, h2, heq, hline, hp4⟩ := s.reamBegin_cases m
  have hplace : (s4.line m).framer = ((s.reamPlace m).line m).framerOn n := by
    rw [hline, Line.framerOn_congr (h2.framer m)]
  have hlsc : (s2.line m).lsc = (s.line m).lsc := by
    rw [h2.lsc, State.reamPlace, State.line_modLine]
  have hperm : s4.permitted = s.permitted := hp4.trans h2.permitted
  refine ⟨n, ?_, fun hp => ?_⟩
  · rw [heq]
    split
    · exact ((State.wireAll_framerSent ..).framer m).trans hplace
    · exact hplace
  · rw [heq, hperm, if_pos hp, hlsc]
    exact (State.wireAll_framerSent ..).out.subset List.mem_cons_self

theorem exec_reamBegin {m : Fin 4} (hruns : s.framerRuns m = true) (hout : (s.line m).inReam = false) :
    exec (.reamBegin m) s = finish (laneAfter s (s.reamBegin m) (lineLane m 0)).mateLook := by
  change execReamBegin m s = _
  unfold execReamBegin
  rw [hruns, hout]
  rfl

/-- R50. -/
theorem completes_reamBegin {m : Fin 4} (hruns : s.framerRuns m = true) (hout : (s.line m).inReam = false) :
    Completes (.reamBegin m) s fun u => (u.line m).inReam = true ∧ (u.line m).idx = 0 ∧ (u.line m).lsc = (s.line m).lsc
      ∧ (u.line m).rc = (if (s.line m).begun then (s.line m).rc + 1 else 0)
      ∧ (s.permitted = true → Out.markers m.val ((List.range (u.line m).lanesTx).map fun k =>
          marker (u.line m).lanesTx k (s.line m).lsc) ∈ u.out) := by
  obtain ⟨n, hplace, hmark⟩ := s.reamBegin_begins m
  have hafter := laneAfter_rxOnly s (s.reamBegin m) m
  refine completes_finish (exec_reamBegin hruns hout) ?_
  have hframer : (((laneAfter s (s.reamBegin m) (lineLane m 0)).mateLook.settle).line m).framer
      = ((s.reamPlace m).line m).framerOn n := by
    rw [State.line_of_mills (State.mateEnd_mills _), (hafter.line m).framer, hplace]
  rw [State.reamPlace, State.line_modLine] at hframer
  obtain ⟨hin, hidx, hlsc, hrc, hn⟩ := Line.framerOn_eq hframer
  rw [hn]
  exact ⟨hin, hidx, hlsc, hrc, fun hp => State.mem_mateEnd_out (by rw [hafter.out]; exact hmark hp)⟩

/-! ### LANE_USE is written (R106) -/

theorem exec_laneUseWrite {m : Fin 4} {v : Byte} (hlive : s.millLive m = true) (hv : v ≠ 0) :
    exec (.laneUseWrite m v) s = finish (laneAfter s (s.writeLaneUse m v) (lineLane m 0)).mateLook :=
  if_pos (by rw [hlive, decide_eq_true hv]; rfl)

theorem State.writeLaneUse_timed {m : Fin 4} {v : Byte} (hv : v ≠ 0) (ht : s.framerTimed m = true) :
    ((s.writeLaneUse m v).line m).laneUseDue = true ∧ ((s.writeLaneUse m v).line m).laneUse = (s.line m).laneUse := by
  rw [State.writeLaneUse, if_neg hv]
  dsimp only
  rw [if_pos ht, State.line_modLine, State.line_of_mills (State.setFld_mills ..)]
  exact ⟨rfl, rfl⟩

theorem State.writeLaneUse_untimed {m : Fin 4} {v : Byte} (hv : v ≠ 0) (ht : s.framerTimed m = false) (hc : s.canonical = true) :
    ((s.writeLaneUse m v).line m).laneUse = v ∧ ((s.writeLaneUse m v).dkl m).txMap = 0 ∧ ((s.writeLaneUse m v).dkl m).rxMap = 0 := by
  obtain ⟨huse, htx, hrx⟩ := (s.setFld (Reg.lnf m 0) 16 8 v.toNat).laneUseTakes_sets m
  rw [State.writeLaneUse, if_neg hv, ht]
  exact ⟨huse.trans (State.laneUse_written hc m v), htx, hrx⟩

theorem completes_laneUseWrite {m : Fin 4} {v : Byte} (hlive : s.millLive m = true) (hv : v ≠ 0) :
    Completes (.laneUseWrite m v) s fun u =>
      (s.framerTimed m = true → (u.line m).laneUseDue = true ∧ (u.line m).laneUse = (s.line m).laneUse)
      ∧ (s.framerTimed m = false → s.canonical = true → (u.line m).laneUse = v ∧ (u.dkl m).txMap = 0 ∧ (u.dkl m).rxMap = 0) := by
  have hafter := laneAfter_rxOnly s (s.writeLaneUse m v) m
  obtain ⟨huse, hdue⟩ := hafter.laneUse m
  refine completes_finish (exec_laneUseWrite hlive hv) ?_
  rw [State.line_of_mills (State.mateEnd_mills _), State.dkl_of_mills (State.mateEnd_mills _), huse, hdue, hafter.dkl]
  exact ⟨State.writeLaneUse_timed hv, State.writeLaneUse_untimed hv⟩

end Sys2Proof.Machine
end

section
/-! TX_EN is written (R51, R52). -/

namespace Sys2Proof.Machine

variable {s t u : State}

/-! ### TX_EN is set -/

theorem State.helloDrawn_regs (s : State) (m : Fin 4) (n : Option W32) : (s.helloDrawn m n).regs = s.regs := by
  unfold State.helloDrawn
  dsimp only
  split <;> rfl

theorem State.askSession_regs (s : State) (m : Fin 4) (hello : Bool) : (s.askSession m hello).regs = s.regs := by
  obtain ⟨s1, -, hregs, h | ⟨n, h⟩ | h⟩ := s.askSession_cases m hello
  · rw [h, hregs]
  · rw [h, State.helloDrawn_regs, hregs]
  · rw [h]
    exact (s1.helloDrawn_regs m none).trans hregs

/-- R51: the framer's counts start at 0. -/
theorem State.setTxEn_set {m : Fin 4} (hoff : s.txEn m = false) : (s.setTxEn m true).regs = (s.setBit (Reg.lnf m 0) 0).regs
    ∧ ((s.setTxEn m true).line m).lsc = 0 ∧ ((s.setTxEn m true).line m).rc = 0 ∧ ((s.setTxEn m true).line m).idx = 0
    ∧ ((s.setTxEn m true).line m).begun = false ∧ ((s.setTxEn m true).line m).inReam = false := by
  rw [State.setTxEn, hoff, if_neg nofun, if_pos rfl]
  dsimp only
  obtain ⟨_, _, _, _, _, hline⟩ := State.askSession_line ((s.setBit (Reg.lnf m 0) 0).modLine m fun l => { l with
      lsc := 0, rc := 0, idx := 0, inReam := false, begun := false, t1 := [], txMarks := []
      dlg := { l.dlg.again with
        out := (l.dlg.withoutHello.again.out).map fun o => { o with mseq := 0 }
        queue := l.dlg.withoutHello.queue
        mseqNext := if l.dlg.withoutHello.out.isSome then 1 else 0, ackIn := none } }) m (s.line m).dlg.helloOpen
  rw [State.askSession_regs, hline, State.line_modLine]
  exact ⟨rfl, rfl, rfl, rfl, rfl, rfl⟩

theorem completes_lnfTxEnable {m : Fin 4} (hlive : s.millLive m = true) (hoff : s.txEn m = false) :
    Completes (.lnfTxEnable m) s fun u => u.regs = (s.setBit (Reg.lnf m 0) 0).regs ∧ (u.line m).lsc = 0 ∧ (u.line m).rc = 0
      ∧ (u.line m).idx = 0 ∧ (u.line m).begun = false ∧ (u.line m).inReam = false := by
  refine completes_finish (if_pos hlive) ?_
  rw [State.settle_regs, State.line_of_mills (State.settle_mills _)]
  exact State.setTxEn_set hoff

/-! ### TX_EN is cleared -/

theorem State.endHalts_samePath (st : Nat) (n : Option W32) : ∀ (hs : List CmdRef) (s : State), s.SamePath (s.endHalts st n hs)
  | [], s => .refl s
  | _ :: hs, s => (s.complete_samePath ..).trans (State.endHalts_samePath st n hs _)

/-- The state in which LKN `k` is done with for transmission, before the standby is told and its halts end. -/
def State.keyDone (s : State) (m k : Fin 4) : State := s.modLkn m k fun x => { x with tx := .done, halts := [] }

theorem State.lknDelta_blocks (s : State) (m k : Fin 4) (ream : Option W32) :
    (s.lknDelta m k ream).1.regs = s.regs ∧ (s.lknDelta m k ream).1.mills = s.mills := by
  obtain ⟨hmills, -⟩ := s.delta_blocks (.lkn m k (s.lkn m k)) (ream.map (m, ·))
  exact ⟨s.delta_regs .., hmills⟩

theorem State.txDone_blocks (s : State) (m k : Fin 4) (ream : Option W32) :
    (s.txDone m k ream).regs = s.regs ∧ (s.txDone m k ream).mills = (s.keyDone m k).mills := by
  obtain ⟨hregs, hmills⟩ := (s.keyDone m k).lknDelta_blocks m k ream
  unfold State.txDone
  dsimp only
  split
  · exact ⟨hregs, hmills⟩
  · have hpath := State.endHalts_samePath 0 ((s.keyDone m k).lknDelta m k ream).2 (s.lkn m k).halts
      (((s.keyDone m k).lknDelta m k ream).1.countMill m 1 12 0)
    exact ⟨hpath.regs.trans hregs, hpath.mills.trans hmills⟩

/-- A key that is done with leaves the pending arm. -/
theorem State.txDone_arm (s : State) (m k : Fin 4) (ream : Option W32) : ((s.txDone m k ream).lci m).arm = (s.lci m).arm := by
  obtain ⟨-, hmills⟩ := s.txDone_blocks m k ream
  rw [State.lci_of_mills hmills, State.keyDone, State.modLkn, State.lci_modLci]

theorem State.lknStop_stops (s : State) (m : Fin 4) : (s.lknStop m).regs = s.regs ∧ ((s.lknStop m).lci m).arm = none
    ∧ ((∀ k, (s.lkn m k).halts = []) → s.Stops (s.lknStop m)) := by
  obtain ⟨hregs, harm, hhalts, hstops⟩ := s.disarm_stops m
  unfold State.lknStop
  dsimp only
  split
  · next k _ =>
    obtain ⟨hregs', -⟩ := (s.disarm m 0x24).txDone_blocks m k none
    have harm' := (s.disarm m 0x24).txDone_arm m k none
    split
    · exact ⟨hregs, harm, fun _ => hstops⟩
    · next hk => exact ⟨hregs'.trans hregs, harm'.trans harm, fun h => absurd (by rw [hhalts, h]; rfl) hk⟩
  · exact ⟨hregs, harm, fun _ => hstops⟩

/-- The state in which TX_EN reads 0 and no ream is under way, before what waits for the framer ends. -/
def State.txStopped (s : State) (m : Fin 4) : State := (s.setBit (Reg.lnf m 0) 0 false).modLine m fun l => { l with inReam := false }

theorem State.setTxEn_clear {m : Fin 4} (hon : s.txEn m = true) :
    s.setTxEn m false = (((s.txStopped m).dklStop m).lknStop m).waitsStop m (List.finRange 12) := by
  rw [State.setTxEn, hon, if_neg nofun, if_neg nofun]
  rfl

/-- R52: armed changes and waits end. -/
theorem State.setTxEn_cleared {m : Fin 4} (hon : s.txEn m = true) :
    (s.setTxEn m false).regs = (s.setBit (Reg.lnf m 0) 0 false).regs ∧ ((s.setTxEn m false).line m).inReam = false
      ∧ ((s.setTxEn m false).dkl m).arm = none ∧ ((s.setTxEn m false).lci m).arm = none
      ∧ ((∀ k, (s.lkn m k).halts = []) → ∀ i ref a b, (s.ring ⟨m, i⟩).hold = some (.ream ref a b) →
        s.Records (s.setTxEn m false) ref 0x24) := by
  obtain ⟨hregs, hdkl, hstops⟩ := (s.txStopped m).dklStop_stops m
  have hkeepDkl : Only [.out, .counts, .evrQueue, .dkl, .cur, .mte] (s.txStopped m) ((s.txStopped m).dklStop m) :=
    State.dklStop_only (Only.refl _) m rfl
  obtain ⟨hregs', hlci, hstops'⟩ := ((s.txStopped m).dklStop m).lknStop_stops m
  have hkeepLkn : Only [.out, .counts, .evrQueue, .lci, .cur, .mte] ((s.txStopped m).dklStop m) (((s.txStopped m).dklStop m).lknStop m) :=
    State.lknStop_only (Only.refl _) m rfl
  obtain ⟨hpath, hstops'', hwaits⟩ := State.waitsStop_stops m (List.finRange 12) (((s.txStopped m).dklStop m).lknStop m)
  rw [State.setTxEn_clear hon]
  refine ⟨hpath.regs.trans (hregs'.trans hregs), ?_, ?_, ?_, fun hno i ref a b hr => ?_⟩
  · rw [State.line_of_mills hpath.mills, hkeepLkn .line rfl m, hkeepDkl .line rfl m, State.txStopped, State.line_modLine]
  · rw [State.dkl_of_mills hpath.mills, hkeepLkn .dkl rfl m, hdkl]
  · rw [State.lci_of_mills hpath.mills, hlci]
  · have hno' : ∀ k, (((s.txStopped m).dklStop m).lkn m k).halts = [] := fun k => by
      rw [State.lkn, hkeepDkl .lci rfl m, State.txStopped, State.lci_modLine]
      exact hno k
    have hends : (s.txStopped m).Records ((((s.txStopped m).dklStop m).lknStop m).waitsStop m (List.finRange 12)) ref 0x24 := by
      rcases (hstops.trans (hstops' hno')).hold ⟨m, i⟩ ref a b hr with hheld | hrec
      · exact .since (hstops.trans (hstops' hno')) (hwaits i (List.mem_finRange i) ref a b hheld)
      · exact hrec.keep hstops''
    exact hends

theorem completes_lnfTxDisable {m : Fin 4} (hlive : s.millLive m = true) (hon : s.txEn m = true) :
    Completes (.lnfTxDisable m) s fun u =>
      u.regs = (s.setBit (Reg.lnf m 0) 0 false).regs ∧ (u.line m).inReam = false ∧ (u.dkl m).arm = none ∧ (u.lci m).arm = none
      ∧ ((∀ k, (s.lkn m k).halts = []) → ∀ i ref a b, (s.ring ⟨m, i⟩).hold = some (.ream ref a b) → s.Records u ref 0x24) := by
  obtain ⟨hregs, hout, hdkl, hlci, hwaits⟩ := s.setTxEn_cleared hon
  have hsettle := (State.HoldsKept.of_cur (State.settle_cur (s.setTxEn m false))).stops
  refine completes_finish (if_pos hlive) ?_
  rw [State.settle_regs, State.line_of_mills (State.settle_mills _), State.dkl_of_mills (State.settle_mills _),
    State.lci_of_mills (State.settle_mills _)]
  exact ⟨hregs, hout, hdkl, hlci, fun hno i ref a b hr => (hwaits hno i ref a b hr).keep hsettle⟩

end Sys2Proof.Machine
end

section
/-! One sheet period of the framer (R52, R64, R126, R127). -/

namespace Sys2Proof.Machine

variable {s t u : State}

/-! ### What fills a sheet leaves the framer -/

theorem State.dropOwn_framerKept (s : State) (m : Fin 4) (x : OwnMsg) : s.FramerKept (s.dropOwn m x) :=
  .of_only (State.dropOwn_only (ps := [.counts]) (Only.refl s) m x rfl) rfl rfl rfl

theorem State.dlgStart_framerKept (m : Fin 4) (cur : Option (Fin 4)) (seq : Nat) : ∀ (q : List OwnMsg) (s : State),
    s.FramerKept (s.dlgStart m cur seq q)
  | [], s => by
    unfold State.dlgStart
    exact s.modLine_framerKept m fun _ => rfl
  | x :: q, s => by
    unfold State.dlgStart
    exact .ite (s.modLine_framerKept m fun _ => by rfl) ((s.dropOwn_framerKept m x).trans (State.dlgStart_framerKept m cur seq q _))

theorem State.dlgSlot_framerKept (s : State) (m : Fin 4) (cur : Option (Fin 4)) (seq : Nat) : s.FramerKept (s.dlgSlot m cur seq).2 := by
  have hstart := State.FramerKept.ite (c := (s.line m).dlg.out.isNone) (State.dlgStart_framerKept m cur seq (s.line m).dlg.queue s)
    (.refl s)
  have hput : ∀ (v : State) (o : Option DlgOut), v.FramerKept (v.modLine m fun l => { l with dlg := { l.dlg with out := o } }) :=
    fun v _ => v.modLine_framerKept m fun _ => rfl
  unfold State.dlgSlot
  dsimp only
  generalize (if (s.line m).dlg.out.isNone then s.dlgStart m cur seq (s.line m).dlg.queue else s) = v at hstart ⊢
  split
  · exact .refl s
  · split
    · exact hstart
    · split
      · split
        · split
          · exact hstart.trans (hput ..)
          · exact (hstart.trans (State.dropOwn_framerKept ..)).trans (hput ..)
        · exact hstart.trans (hput ..)
      · exact hstart.trans (hput ..)

theorem State.dlgWait_framerKept (s : State) (m : Fin 4) : s.FramerKept (s.dlgWait m) :=
  .ite (.refl s) (s.modLine_framerKept m fun _ => by rfl)

theorem State.brokeTx_framerKept (s : State) (m : Fin 4) : s.FramerKept (s.brokeTx m).2 :=
  .of_only (State.brokeTx_only (ps := [.counts]) (Only.refl s) m rfl) rfl rfl rfl

theorem State.poolCell_framerKept (s : State) (m : Fin 4) (ref : Stamp) : s.FramerKept (s.poolCell m ref).2 :=
  .of_only (State.poolCell_only (ps := [.out, .counts, .tim, .sch, .ports, .trib, .tribOld]) (Only.refl s) m ref rfl) rfl rfl rfl

theorem State.cellOf_framerKept (s : State) (m : Fin 4) (n : Nat) (ref : Stamp) : s.FramerKept (s.cellOf m n ref).2.2 :=
  .of_only (State.cellOf_only (ps := [.out, .counts, .tim, .sch, .ports, .trib, .tribOld]) (Only.refl s) m n ref rfl) rfl rfl rfl

theorem State.endCell_framerKept (s : State) (m : Fin 4) (n : Nat) : s.FramerKept (s.endCell m n).2 := by
  unfold State.endCell State.startStream
  dsimp only
  exact s.modLine_framerKept m fun _ => rfl

theorem State.position_framerKept (s : State) (m : Fin 4) (ref : Stamp) (e : Nat) : s.FramerKept (s.position m ref e).2 := by
  unfold State.position
  dsimp only
  split
  · exact s.brokeTx_framerKept m
  · split
    · split
      · exact s.endCell_framerKept ..
      · exact s.poolCell_framerKept ..
    · split
      · exact s.endCell_framerKept ..
      · split
        · split
          · exact (s.countMill_framerKept ..).trans (State.poolCell_framerKept ..)
          · exact (s.countMill_framerKept ..).trans (State.brokeTx_framerKept ..)
        · split
          · exact s.cellOf_framerKept ..
          · split
            · exact s.poolCell_framerKept ..
            · exact s.brokeTx_framerKept m

theorem State.positions_framerKept (m : Fin 4) (ref : Stamp) : ∀ (k e : Nat) (s : State), s.FramerKept (s.positions m ref e k).2
  | 0, _, s => .refl s
  | k + 1, e, s => (s.position_framerKept m ref e).trans (State.positions_framerKept m ref k (e + 1) _)

theorem State.wakeAll_framerKept (s : State) (m : Fin 4) : s.FramerKept (s.wakeAll m) :=
  .of_only (State.wakeAll_only (ps := [.sch, .trib, .tribOld]) (Only.refl s) m rfl) rfl rfl rfl

theorem State.creditEntries_framerKept (s : State) (m : Fin 4) : s.FramerKept (s.creditEntries m).2 :=
  .of_only (State.creditEntries_only (ps := [.sch, .trib, .tribOld]) (Only.refl s) m rfl) rfl rfl rfl

/-! ### A sheet leaves the framer -/

theorem State.FramerSent.of_only {ps : List Area} (h : Only ps s t) (hl : ps.contains .line = false) (hm : ps.contains .mte = false)
    (hk : ps.contains .kst = false) (ho : ps.contains .out = false) : s.FramerSent t :=
  ⟨.of_only h hl hm hk, by rw [h .out ho]⟩

theorem State.feltSend_framerSent (s : State) (type : Nat) (body : Bytes) : s.FramerSent (s.feltSend type body) := by
  unfold State.feltSend
  split
  · refine ⟨⟨fun _ => rfl, rfl⟩, ?_⟩
    dsimp only
    split
    · exact List.suffix_cons ..
    · exact List.suffix_rfl
  · exact ⟨.refl s, List.suffix_rfl⟩

theorem State.modMte_framerSent (s : State) {f : Mte → Mte} (hf : ∀ x, (f x).lock = x.lock) : s.FramerSent (s.modMte f) := by
  refine ⟨⟨fun _ => rfl, ?_⟩, List.suffix_rfl⟩
  unfold State.permitted State.granted
  rw [show (s.modMte f).mte.lock = s.mte.lock from hf s.mte]
  rfl

theorem State.sendDigest_framerSent (s : State) (m : Fin 4) (key : Option (Fin 4)) (seq : Nat) : s.FramerSent (s.sendDigest m key seq) := by
  unfold State.sendDigest
  dsimp only
  split
  · exact (s.modMte_framerSent fun _ => by rfl).trans (State.feltSend_framerSent ..)
  · exact ⟨.refl s, List.suffix_rfl⟩

theorem State.delta_out (s : State) (d : Delta) (ream : Option (Fin 4 × W32)) : s.out <:+ (s.delta d ream).1.out := by
  unfold State.delta
  dsimp only
  split
  · exact (State.feltSend_framerSent { s with mte := { s.mte with dseq := s.mte.dseq + 1 } } ..).out
  · exact List.suffix_rfl

theorem State.txDone_framerSent (s : State) (m k : Fin 4) : s.FramerSent (s.txDone m k) := by
  refine ⟨s.txDone_framerKept m k none, ?_⟩
  have h1 : s.out <:+ ((s.keyDone m k).lknDelta m k none).1.out := (s.keyDone m k).delta_out ..
  unfold State.txDone
  dsimp only
  split
  · exact h1
  · exact h1.trans (State.FramerSent.of_only (State.endHalts_only (ps := [.counts, .evrQueue, .cur])
      (State.countMill_only (Only.refl _) m 1 12 0 1 rfl) 0 _ _ rfl) rfl rfl rfl rfl).out

theorem State.countFix_framerSent (s : State) (m : Fin 4) (src i q j : Nat) : s.FramerSent ((s.countMill m src i q).fixMill m j) :=
  .of_only (State.fixMill_only (ps := [.counts]) (State.countMill_only (Only.refl s) m src i q 1 rfl) m j 1 rfl) rfl rfl rfl rfl

/-! ### A sequence number is used (R127) -/

/-- The state in which sequence number `seq` of LKN `k` has been used, with what the soft limit brings. -/
def State.seqUsed (s : State) (m k : Fin 4) (seq : Nat) : State :=
  let s1 := ((s.modLkn m k fun x => { x with seq := seq + 1 }).countMill m 1 0 k.val).fixMill m 2
  if seq = s.softLimit m ∧ !(s.lkn m k).softDone then (s1.modLkn m k fun x => { x with softDone := true }).setBit (Reg.lci m 4) 8 else s1

theorem State.seqSent_eq (s : State) (m k : Fin 4) (seq : Nat) : s.seqSent m k seq =
    if seq = 2 ^ 48 then ((s.seqUsed m k seq).txDone m k).setBit (Reg.lci m 4) 9 else s.seqUsed m k seq := rfl

theorem State.modLkn_framerSent (s : State) (m k : Fin 4) (f : Lkn → Lkn) : s.FramerSent (s.modLkn m k f) :=
  ⟨s.modLci_framerKept m _, List.suffix_rfl⟩

theorem State.setBit_framerSent (s : State) (a i : Nat) (v : Bool) : s.FramerSent (s.setBit a i v) :=
  ⟨⟨fun m => congrArg Line.framer (State.line_of_mills (s.setBit_mills a i v) m), rfl⟩, List.suffix_rfl⟩

theorem State.seqUsed_framerSent (s : State) (m k : Fin 4) (seq : Nat) : s.FramerSent (s.seqUsed m k seq) := by
  have h1 : s.FramerSent (((s.modLkn m k fun x => { x with seq := seq + 1 }).countMill m 1 0 k.val).fixMill m 2) :=
    (s.modLkn_framerSent ..).trans (State.countFix_framerSent ..)
  unfold State.seqUsed
  dsimp only
  split
  · exact (h1.trans (State.modLkn_framerSent ..)).trans (State.setBit_framerSent ..)
  · exact h1

theorem State.seqSent_framerSent (s : State) (m k : Fin 4) (seq : Nat) : s.FramerSent (s.seqSent m k seq) := by
  have h1 := s.seqUsed_framerSent m k seq
  rw [State.seqSent_eq]
  split
  · exact (h1.trans (State.txDone_framerSent ..)).trans (State.setBit_framerSent ..)
  · exact h1

theorem State.seqUsed_seq (s : State) (m k : Fin 4) (seq : Nat) : ((s.seqUsed m k seq).lkn m k).seq = seq + 1 := by
  have h1 : (((s.modLkn m k fun x => { x with seq := seq + 1 }).countMill m 1 0 k.val).fixMill m 2).lkn m k
      = { s.lkn m k with seq := seq + 1 } := s.lkn_modLkn m k fun x => { x with seq := seq + 1 }
  unfold State.seqUsed
  dsimp only
  split
  · rw [State.lkn, State.lci_of_mills (State.setBit_mills ..)]
    refine (congrArg Lkn.seq (State.lkn_modLkn _ m k _)).trans ?_
    rw [h1]
  · rw [h1]

/-- The number after `seq` is next; the key is done with where `seq` was its last. -/
theorem State.seqSent_lkn (s : State) (m k : Fin 4) (seq : Nat) :
    ((s.seqSent m k seq).lkn m k).seq = seq + 1 ∧ (seq = 2 ^ 48 → ((s.seqSent m k seq).lkn m k).tx = .done) := by
  have hused := s.seqUsed_seq m k seq
  rw [State.seqSent_eq]
  split
  · obtain ⟨-, hmills⟩ := (s.seqUsed m k seq).txDone_blocks m k none
    have hlkn : ((((s.seqUsed m k seq).txDone m k).setBit (Reg.lci m 4) 9).lkn m k)
        = { (s.seqUsed m k seq).lkn m k with tx := .done, halts := [] } := by
      rw [State.lkn, State.lci_of_mills ((State.setBit_mills ..).trans hmills)]
      exact State.lkn_modLkn ..
    rw [hlkn]
    exact ⟨hused, fun _ => rfl⟩
  · next h => exact ⟨hused, fun h' => absurd h' h⟩

end Sys2Proof.Machine
end

section
/-! The sheet that the framer sends in a sheet period (R52, R59, R64, R126). -/

namespace Sys2Proof.Machine

variable {s t u : State}

/-! ### The overhead (R59) -/

/-- The framer's place as a sheet's overhead gives it: the low bits of the line sheet count, and the sheet's index in its ream. -/
def Line.sheetPlace (l : Line) : Bytes := beBytes 2 (l.lsc.toNat % 64 * 1024 + l.idx % 512)

theorem State.FramerKept.sheetPlace (h : s.FramerKept t) (m : Fin 4) : (t.line m).sheetPlace = (s.line m).sheetPlace := by
  obtain ⟨-, hidx, hlsc, -⟩ := Line.framer_eq (h.framer m)
  rw [Line.sheetPlace, hidx, hlsc]
  rfl

theorem State.overhead_key (s : State) (m : Fin 4) (key : Option (Fin 4)) (seq : Nat) (credit slot : Bytes) :
    slice (s.overhead m key seq credit slot) 0 3 = [0, 0, byteOf (match key with | some k => k.val | none => 0x80)] := rfl

theorem State.overhead_seq (s : State) (m k : Fin 4) (seq : Nat) (credit slot : Bytes) :
    slice (s.overhead m (some k) seq credit slot) 4 4 = beBytes 4 (seq % 2 ^ 32) := rfl

theorem State.overhead_place (s : State) (m : Fin 4) (key : Option (Fin 4)) (seq : Nat) (credit slot : Bytes) :
    slice (s.overhead m key seq credit slot) 8 2 = (s.line m).sheetPlace := rfl

theorem sealSheet_oh (key iv oh : Bytes) (cells : List Bytes) : (sealSheet key iv oh cells).oh = oh := rfl

/-! ### Sheets that are sent -/

theorem State.sheetOut_framerSent (s : State) (m : Fin 4) (idx : Nat) (x : Sheet) :
    s.FramerSent (s.sheetOut m idx x) ∧ Out.sheet m.val x ∈ (s.sheetOut m idx x).out := by
  have hemit : s.FramerSent (s.emit (.sheet m.val x)) := s.emits_framerSent [.sheet m.val x]
  have hwire := (s.emit (.sheet m.val x)).wireAll_framerSent m (lanesIn (s.txSet m)) fun k =>
    laneShare (lanesIn (s.txSet m)).length k (2048 * idx) (wordsOf (sheetBytesOut x))
      ++ if idx = 499 ∧ fillFrom (lanesIn (s.txSet m)).length ≠ 0 ∧ fillFrom (lanesIn (s.txSet m)).length ≤ k then [0] else []
  exact ⟨hemit.trans hwire, hwire.out.subset List.mem_cons_self⟩

/-- A sheet and its record for the standby go out. -/
theorem State.sheetOut_sends (s : State) (m : Fin 4) (idx : Nat) (x : Sheet) (key : Option (Fin 4)) (seq : Nat) :
    s.FramerKept ((s.sheetOut m idx x).sendDigest m key seq) ∧ Out.sheet m.val x ∈ ((s.sheetOut m idx x).sendDigest m key seq).out := by
  obtain ⟨hout, hsheet⟩ := s.sheetOut_framerSent m idx x
  have hdigest := (s.sheetOut m idx x).sendDigest_framerSent m key seq
  exact ⟨hout.toFramerKept.trans hdigest.toFramerKept, hdigest.out.subset hsheet⟩

/-- The overhead of the next sheet, where it is idle. -/
def State.idleOverhead (s : State) (m : Fin 4) : Bytes :=
  (s.dlgSlot m none 0).2.overhead m none 0 (List.replicate 12 0) (s.dlgSlot m none 0).1

/-- R64: an idle sheet leaves the framer and the keys as they were. -/
theorem State.sendIdle_sends (s : State) (m : Fin 4) : s.FramerKept (s.sendIdle m) ∧ (s.sendIdle m).lci m = s.lci m
    ∧ ∃ oh, Out.sheet m.val (idleSheet oh) ∈ (s.sendIdle m).out ∧ slice oh 0 3 = [0, 0, 0x80] ∧ slice oh 8 2 = (s.line m).sheetPlace := by
  have hkeys : Only [.out, .counts, .line, .mte] s (s.sendIdle m) := State.sendIdle_only (Only.refl s) m rfl
  have hslot := s.dlgSlot_framerKept m none 0
  obtain ⟨hout, hsheet⟩ := (s.dlgSlot m none 0).2.sheetOut_sends m (s.line m).idx (idleSheet (s.idleOverhead m)) none 0
  have hcount := State.countFix_framerSent (((s.dlgSlot m none 0).2.sheetOut m (s.line m).idx (idleSheet (s.idleOverhead m))).sendDigest
    m none 0) m 1 1 0 3
  exact ⟨(hslot.trans hout).trans hcount.toFramerKept, hkeys .lci rfl m, _, hcount.out.subset hsheet, State.overhead_key ..,
    (State.overhead_place ..).trans (hslot.sheetPlace m)⟩

/-! The parts of a keyed sheet: its cells, its slot and its CREDIT, each with the state after it. -/

def State.keyedCells (s : State) (m : Fin 4) : List Bytes × State :=
  (s.wakeAll m).positions m (sheetRef s (s.line m).lanesTx (s.line m).idx (s.line m).txMarks) (254 * (s.line m).idx) 254

def State.keyedSlot (s : State) (m k : Fin 4) : Bytes × State := (s.keyedCells m).2.dlgSlot m (some k) (s.lkn m k).seq

def State.keyedIv (s : State) (m k : Fin 4) : Bytes := sheetIv (s.lkn m k).salt (lcid (s.lkn m k).chid (s.lciEnd m)) (s.lkn m k).seq

def State.keyedCredit (s : State) (m k : Fin 4) : Bytes × State :=
  if 2 ≤ (s.line m).dlg.ver then
    (creditSeal (s.lkn m k).key (s.keyedIv m k) ((s.keyedSlot m k).2.creditEntries m).1, ((s.keyedSlot m k).2.creditEntries m).2)
  else (List.replicate 12 0, (s.keyedSlot m k).2)

def State.keyedSheet (s : State) (m k : Fin 4) : Sheet :=
  sealSheet (s.lkn m k).key (s.keyedIv m k)
    ((s.keyedCredit m k).2.overhead m (some k) (s.lkn m k).seq (s.keyedCredit m k).1 (s.keyedSlot m k).1) (s.keyedCells m).1

theorem State.sendKeyed_eq (s : State) (m k : Fin 4) : s.sendKeyed m k =
    (((s.keyedCredit m k).2.sheetOut m (s.line m).idx (s.keyedSheet m k)).sendDigest m (some k)
      (s.lkn m k).seq).seqSent m k (s.lkn m k).seq := by
  unfold State.sendKeyed State.keyedSheet State.keyedCredit State.keyedSlot State.keyedCells State.keyedIv
  dsimp only

theorem State.keyedSheet_oh (s : State) (m k : Fin 4) : (s.keyedSheet m k).oh =
    (s.keyedCredit m k).2.overhead m (some k) (s.lkn m k).seq (s.keyedCredit m k).1 (s.keyedSlot m k).1 := by
  unfold State.keyedSheet
  rw [sealSheet_oh]

theorem State.keyedCredit_framerKept (s : State) (m k : Fin 4) : s.FramerKept (s.keyedCredit m k).2 := by
  have hcells : s.FramerKept (s.keyedCells m).2 := by
    unfold State.keyedCells
    exact (s.wakeAll_framerKept m).trans (State.positions_framerKept ..)
  have hslot : s.FramerKept (s.keyedSlot m k).2 := by
    unfold State.keyedSlot
    exact hcells.trans (State.dlgSlot_framerKept ..)
  unfold State.keyedCredit
  generalize s.keyedSlot m k = slot at hslot ⊢
  split
  · exact hslot.trans (slot.2.creditEntries_framerKept m)
  · exact hslot

/-- R127: a keyed sheet uses one sequence number. -/
theorem State.sendKeyed_sends (s : State) (m k : Fin 4) : s.FramerKept (s.sendKeyed m k)
    ∧ ((s.sendKeyed m k).lkn m k).seq = (s.lkn m k).seq + 1
    ∧ ((s.lkn m k).seq = 2 ^ 48 → ((s.sendKeyed m k).lkn m k).tx = .done)
    ∧ ∃ x, Out.sheet m.val x ∈ (s.sendKeyed m k).out ∧ slice x.oh 0 3 = [0, 0, byteOf k.val]
      ∧ slice x.oh 4 4 = beBytes 4 ((s.lkn m k).seq % 2 ^ 32)
      ∧ slice x.oh 8 2 = (s.line m).sheetPlace := by
  have hbuilt := s.keyedCredit_framerKept m k
  obtain ⟨hout, hsheet⟩ := (s.keyedCredit m k).2.sheetOut_sends m (s.line m).idx (s.keyedSheet m k) (some k) (s.lkn m k).seq
  rw [State.sendKeyed_eq]
  generalize ((s.keyedCredit m k).2.sheetOut m (s.line m).idx (s.keyedSheet m k)).sendDigest m (some k) (s.lkn m k).seq = t at hout hsheet ⊢
  have hused := t.seqSent_framerSent m k (s.lkn m k).seq
  obtain ⟨hseq, hlast⟩ := t.seqSent_lkn m k (s.lkn m k).seq
  refine ⟨(hbuilt.trans hout).trans hused.toFramerKept, hseq, hlast, _, hused.out.subset hsheet, ?_⟩
  rw [State.keyedSheet_oh]
  exact ⟨State.overhead_key .., State.overhead_seq .., (State.overhead_place ..).trans (hbuilt.sheetPlace m)⟩

/-! ### The sheet period -/

/-- The watermark string in use may change. -/
theorem State.wmLatchTx_cases (s : State) (m : Fin 4) : ∃ b, s.wmLatchTx m = s.modLine m fun l => { l with wmSend := b } := by
  unfold State.wmLatchTx
  split
  · exact ⟨_, rfl⟩
  · exact ⟨(s.line m).wmSend, (s.modLine_self m (f := fun l => { l with wmSend := (s.line m).wmSend }) rfl).symm⟩

/-- What has been sent in the sheet period, before the framer counts on. -/
def State.sheetSent (s : State) (m : Fin 4) : State :=
  if (s.wmLatchTx m).permitted then
    (match (s.wmLatchTx m).keyedUnder m with
      | some k => (s.wmLatchTx m).sendKeyed m k
      | none => (s.wmLatchTx m).sendIdle m)
  else (s.wmLatchTx m).dlgWait m

theorem State.sheetSend_eq (s : State) (m : Fin 4) : s.sheetSend m =
    ((s.sheetSent m).modLine m fun l => { l with lsc := l.lsc + 1, idx := l.idx + 1, inReam := decide (l.idx + 1 < 500) }).modSch m
      fun x => { x with sheets := x.sheets + 1 } := rfl

theorem State.wmLatchTx_keeps (s : State) (m : Fin 4) : s.FramerKept (s.wmLatchTx m) ∧ (s.wmLatchTx m).lci m = s.lci m
    ∧ (s.wmLatchTx m).keyedUnder m = s.keyedUnder m ∧ (s.wmLatchTx m).out = s.out := by
  obtain ⟨b, h⟩ := s.wmLatchTx_cases m
  have hlci : (s.wmLatchTx m).lci m = s.lci m := by rw [h, State.lci_modLine]
  refine ⟨h ▸ s.modLine_framerKept m fun _ => by rfl, hlci, ?_, h ▸ rfl⟩
  rw [State.keyedUnder, hlci, h, State.line_modLine]
  rfl

/-- What has been sent leaves the framer's place, and the keys unless a sheet was keyed. -/
theorem State.sheetSent_framerKept (s : State) (m : Fin 4) : s.FramerKept (s.sheetSent m) := by
  obtain ⟨hkept, -⟩ := s.wmLatchTx_keeps m
  unfold State.sheetSent
  refine hkept.trans ?_
  split
  · split
    · next k _ =>
      obtain ⟨hsent, -⟩ := (s.wmLatchTx m).sendKeyed_sends m k
      exact hsent
    · obtain ⟨hsent, -⟩ := (s.wmLatchTx m).sendIdle_sends m
      exact hsent
  · exact State.dlgWait_framerKept ..

/-- R52: without permission nothing is sent. -/
theorem State.sheetSent_barred {m : Fin 4} (hp : s.permitted = false) : (s.sheetSent m).lci m = s.lci m ∧ (s.sheetSent m).out = s.out := by
  obtain ⟨hkept, hlci, -, hout⟩ := s.wmLatchTx_keeps m
  have hwait : Only [.line] (s.wmLatchTx m) ((s.wmLatchTx m).dlgWait m) := State.dlgWait_only (Only.refl _) m rfl
  rw [State.sheetSent, hkept.permitted, hp]
  exact ⟨(hwait .lci rfl m).trans hlci, (hwait .out rfl).trans hout⟩

/-- R64: without a key the sheet is idle. -/
theorem State.sheetSent_idle {m : Fin 4} (hp : s.permitted = true) (hk : s.keyedUnder m = none) : (s.sheetSent m).lci m = s.lci m
    ∧ ∃ oh, Out.sheet m.val (idleSheet oh) ∈ (s.sheetSent m).out ∧ slice oh 0 3 = [0, 0, 0x80]
      ∧ slice oh 8 2 = (s.line m).sheetPlace := by
  obtain ⟨hkept, hlci, hunder, -⟩ := s.wmLatchTx_keeps m
  obtain ⟨-, hkeys, hsheet⟩ := (s.wmLatchTx m).sendIdle_sends m
  rw [State.sheetSent, hkept.permitted, if_pos hp, hunder, hk]
  rw [hkept.sheetPlace] at hsheet
  exact ⟨hkeys.trans hlci, hsheet⟩

theorem State.sheetSent_keyed {m k : Fin 4} (hp : s.permitted = true) (hk : s.keyedUnder m = some k) :
    ((s.sheetSent m).lkn m k).seq = (s.lkn m k).seq + 1 ∧ ((s.lkn m k).seq = 2 ^ 48 → ((s.sheetSent m).lkn m k).tx = .done)
    ∧ ∃ x, Out.sheet m.val x ∈ (s.sheetSent m).out ∧ slice x.oh 0 3 = [0, 0, byteOf k.val]
      ∧ slice x.oh 4 4 = beBytes 4 ((s.lkn m k).seq % 2 ^ 32)
      ∧ slice x.oh 8 2 = (s.line m).sheetPlace := by
  obtain ⟨hkept, hlci, hunder, -⟩ := s.wmLatchTx_keeps m
  have hlkn : (s.wmLatchTx m).lkn m k = s.lkn m k := congrArg (fun x : Lci => x.lkn[k]) hlci
  obtain ⟨-, hsends⟩ := (s.wmLatchTx m).sendKeyed_sends m k
  rw [hkept.sheetPlace, hlkn] at hsends
  rw [State.sheetSent, hkept.permitted, if_pos hp, hunder, hk]
  exact hsends

/-! ### The end of the sheet period -/

/-- From `s` to `t` nothing has been sent but messages of interrupts. -/
def State.SendsMsix (s t : State) : Prop := ∀ o ∈ t.out, (∃ v, o = .msix v) ∨ o ∈ s.out

theorem State.SendsMsix.of_out (h : t.out = s.out) : s.SendsMsix t := fun o ho => .inr (by rwa [← h])

theorem State.SendsMsix.trans (h : s.SendsMsix t) (k : t.SendsMsix u) : s.SendsMsix u := fun o ho => (k o ho).elim .inl (h o)

theorem State.msix_sendsMsix (s : State) (v : Fin 256) : s.SendsMsix (s.msix v) := by
  unfold State.msix
  split
  · exact .of_out rfl
  · intro o ho
    rcases List.mem_cons.mp ho with rfl | ho
    · exact .inl ⟨_, rfl⟩
    · exact .inr ho

theorem State.irqSource_sendsMsix (s : State) (n : Nat) : s.SendsMsix (s.irqSource n) := by
  unfold State.irqSource
  dsimp only
  split
  · exact .of_out rfl
  · split
    · exact .of_out rfl
    · split
      · exact .of_out rfl
      · refine .trans (.of_out ?_) (State.msix_sendsMsix _ _)
        rfl

theorem State.irqAll_sendsMsix (s : State) : ∀ n, s.SendsMsix (s.irqAll n)
  | 0 => .of_out rfl
  | n + 1 => (s.irqAll_sendsMsix n).trans (State.irqSource_sendsMsix _ n)

theorem State.settle_sendsMsix (s : State) : s.SendsMsix s.settle :=
  .trans (.of_out (State.satRecords_out s.pmc.satNew (s.modPmc fun p => { p with satNew := [] }))) (State.irqAll_sendsMsix _ 48)

theorem State.sheetSend_framer (s : State) (m : Fin 4) : ((s.sheetSend m).line m).lsc = (s.line m).lsc + 1
    ∧ ((s.sheetSend m).line m).idx = (s.line m).idx + 1 ∧ ((s.sheetSend m).line m).inReam = decide ((s.line m).idx + 1 < 500) := by
  obtain ⟨-, hidx, hlsc, -⟩ := Line.framer_eq ((s.sheetSent_framerKept m).framer m)
  rw [State.sheetSend_eq, State.line_modSch, State.line_modLine, hidx, hlsc]
  exact ⟨rfl, rfl, rfl⟩

theorem State.sheetSend_lci (s : State) (m : Fin 4) : (s.sheetSend m).lci m = (s.sheetSent m).lci m := by
  rw [State.sheetSend_eq, State.lci_modSch, State.lci_modLine]

theorem State.sheetSend_out (s : State) (m : Fin 4) : (s.sheetSend m).out = (s.sheetSent m).out := by
  rw [State.sheetSend_eq]
  rfl

theorem exec_sheetSend {m : Fin 4} (hruns : s.framerRuns m = true) (hin : (s.line m).inReam = true) :
    exec (.sheetSend m) s = finish (s.sheetSend m) :=
  if_pos (by rw [hruns, hin]; rfl)

/-- A sheet period uses one LSC. -/
theorem completes_sheetSend {m : Fin 4} (hruns : s.framerRuns m = true) (hin : (s.line m).inReam = true) :
    Completes (.sheetSend m) s fun u =>
        (u.line m).lsc = (s.line m).lsc + 1 ∧ (u.line m).idx = (s.line m).idx + 1
        ∧ (u.line m).inReam = decide ((s.line m).idx + 1 < 500)
        ∧ (s.permitted = false → (u.lci m) = s.lci m ∧ ∀ o ∈ u.out, (∃ v, o = .msix v) ∨ o ∈ s.out)
        ∧ (s.permitted = true → s.keyedUnder m = none → (u.lci m) = s.lci m ∧ ∃ oh, Out.sheet m.val (idleSheet oh) ∈ u.out
          ∧ slice oh 0 3 = [0, 0, 0x80] ∧ slice oh 8 2 = (s.line m).sheetPlace)
        ∧ (∀ k, s.permitted = true → s.keyedUnder m = some k → (u.lkn m k).seq = (s.lkn m k).seq + 1
          ∧ ((s.lkn m k).seq = 2 ^ 48 → (u.lkn m k).tx = .done) ∧ ∃ x, Out.sheet m.val x ∈ u.out
          ∧ slice x.oh 0 3 = [0, 0, byteOf k.val] ∧ slice x.oh 4 4 = beBytes 4 ((s.lkn m k).seq % 2 ^ 32)
          ∧ slice x.oh 8 2 = (s.line m).sheetPlace) := by
  obtain ⟨hlsc, hidx, hplace⟩ := s.sheetSend_framer m
  have hlci : (s.sheetSend m).settle.lci m = (s.sheetSent m).lci m :=
    (State.lci_of_mills (State.settle_mills _) m).trans (s.sheetSend_lci m)
  have hout : ∀ o ∈ (s.sheetSent m).out, o ∈ (s.sheetSend m).settle.out := fun o ho =>
    (State.settle_out _).subset (by rwa [State.sheetSend_out])
  refine completes_finish (exec_sheetSend hruns hin) ?_
  rw [State.line_of_mills (State.settle_mills _)]
  refine ⟨hlsc, hidx, hplace, fun hp => ?_, fun hp hk => ?_, fun k hp hk => ?_⟩
  · obtain ⟨hkeys, hnone⟩ := State.sheetSent_barred (m := m) hp
    refine ⟨hlci.trans hkeys, fun o ho => ?_⟩
    rw [← hnone, ← State.sheetSend_out]
    exact State.settle_sendsMsix _ o ho
  · obtain ⟨hkeys, oh, hsheet, hoh⟩ := State.sheetSent_idle hp hk
    exact ⟨hlci.trans hkeys, oh, hout _ hsheet, hoh⟩
  · obtain ⟨hseq, hlast, x, hsheet, hoh⟩ := State.sheetSent_keyed hp hk
    have hlkn : (s.sheetSend m).settle.lkn m k = (s.sheetSent m).lkn m k := congrArg (fun x : Lci => x.lkn[k]) hlci
    rw [hlkn]
    exact ⟨hseq, hlast, x, hout _ hsheet, hoh⟩

/-- Settles O40: each command of the framer by its own rule. What a ream boundary or a sheet period brings besides (armed changes, cells,
dialogue, codewords) leaves the framer's place (`State.FramerKept`). -/
theorem framerSends : Obligations.FramerSends := by
  unfold Obligations.FramerSends
  exact fun s m => ⟨completes_reamBegin, completes_sheetSend, completes_lnfTxEnable, completes_lnfTxDisable,
    fun v => completes_laneUseWrite⟩

end Sys2Proof.Machine
end

section
/-! Deckle pages are written and validated (R96-R98, R110). What is told to the standby and what the rings do leave all that the pages'
own operations read. -/

namespace Sys2Proof.Machine

variable {s t u v : State}

/-! ### Records that rings owe -/

/-- From `s` to `t` every ring owes what it owed, and perhaps more, and is as mute as it was. -/
structure State.Owes (s t : State) : Prop where
  mute : ∀ q, (t.ring q).mute = (s.ring q).mute
  done : ∀ q, (s.ring q).done <+: (t.ring q).done

theorem State.HoldsKept.owes (h : s.HoldsKept t) : s.Owes t := ⟨h.mute, h.done⟩

theorem State.Owes.of_cur (h : t.cur = s.cur) : s.Owes t := (State.HoldsKept.of_cur h).owes

theorem State.Owes.refl (s : State) : s.Owes s := .of_cur rfl

theorem State.Owes.trans (h : s.Owes t) (k : t.Owes u) : s.Owes u :=
  ⟨fun q => (k.mute q).trans (h.mute q), fun q => (h.done q).trans (k.done q)⟩

/-- A change of a ring that leaves whether it is mute, and the records it owes. -/
theorem State.modRing_owes (s : State) (r : Rid) {f : Ring → Ring} (hm : ∀ g, (f g).mute = g.mute) (hd : ∀ g, (f g).done = g.done) :
    s.Owes (s.modRing r f) := by
  have h : ∀ q, ((s.modRing r f).ring q).mute = (s.ring q).mute ∧ ((s.modRing r f).ring q).done = (s.ring q).done := fun q => by
    by_cases hq : r = q
    · subst hq
      rw [State.ring_modRing, hm, hd]
      exact ⟨rfl, rfl⟩
    · rw [State.ring_modRing_ne _ _ hq]
      exact ⟨rfl, rfl⟩
  obtain ⟨hmute, hdone⟩ := forall_and.mp h
  exact ⟨hmute, fun q => by rw [hdone q]⟩

theorem State.modEng_owes (s : State) (k : Fin 4) {f : Engine → Engine} (hf : ∀ e, (f e).rings = e.rings) : s.Owes (s.modEng k f) :=
  (State.HoldsKept.of_ring fun q => s.ring_modEng k hf q).owes

theorem State.pop_owes (s : State) (r : Rid) : s.Owes (s.pop r) :=
  (s.modRing_owes r (f := fun g => { g with fetched := g.fetched.drop 1, waiting := false }) (fun _ => rfl) fun _ => rfl).trans
    (State.modEng_owes _ r.eng fun _ => rfl)

theorem State.complete_owes (s : State) (ref : CmdRef) (st res : Nat) (late stepped : Bool) (dseq : Option W32) :
    s.Owes (s.complete ref st res late stepped dseq) := by
  rw [State.complete_eq_endCommand]
  refine .trans (s.modEng_owes ref.rid.eng (f := fun e => { e with outst := e.outst.filter (· ≠ ref) }) fun _ => rfl)
    (.trans ?_ (State.endCommand_holdsKept _ ref _ _).owes)
  split
  · exact State.modRing_owes _ ref.rid (fun _ => rfl) fun _ => rfl
  · exact .refl _

theorem State.completeOpt_owes (s : State) (ref : Option CmdRef) (st res : Nat) (late : Bool) (dseq : Option W32) :
    s.Owes (s.completeOpt ref st res late dseq) := by
  cases ref with
  | none => exact .refl s
  | some ref => exact s.complete_owes ..

/-- What is owed stays owed. -/
theorem State.Records.stay {ref : CmdRef} {st res : Nat} {late : Bool} (h : s.Records t ref st res late)
    (k : ∀ q, (t.ring q).done <+: (u.ring q).done) : s.Records u ref st res late := fun hm => by
  obtain ⟨new, hdone, x, hx, hrec⟩ := h hm
  obtain ⟨more, hmore⟩ := k ref.rid
  exact ⟨new ++ more, by rw [← hmore, hdone, List.append_assoc], x, List.mem_append_left _ hx, hrec⟩

/-- What comes to be owed after other records is owed. -/
theorem State.Owes.records {ref : CmdRef} {st res : Nat} {late : Bool} (h : s.Owes t) (k : t.Records u ref st res late) :
    s.Records u ref st res late := fun hm => by
  obtain ⟨new, hdone, x, hx, hrec⟩ := k ((h.mute ref.rid).trans hm)
  obtain ⟨more, hmore⟩ := h.done ref.rid
  exact ⟨more ++ new, by rw [hdone, ← hmore, List.append_assoc], x, List.mem_append_right _ hx, hrec⟩

theorem State.completeOpt_records (s : State) {o : Option CmdRef} {ref : CmdRef} (h : o = some ref) (st res : Nat) (late : Bool)
    (dseq : Option W32) : s.Records (s.completeOpt o st res late dseq) ref st res late := by
  subst h
  exact s.complete_records ref st res late false dseq

/-! ### What the pages' operations read -/

/-- From `s` to `t` the mills, the registers and the mate role are as they were. -/
structure State.SamePages (s t : State) : Prop where
  mills : t.mills = s.mills
  regs : t.regs = s.regs
  otp : t.otp = s.otp
  role : t.mte.st = s.mte.st

theorem State.SamePages.trans (h : s.SamePages t) (k : t.SamePages u) : s.SamePages u :=
  ⟨k.mills.trans h.mills, k.regs.trans h.regs, k.otp.trans h.otp, k.role.trans h.role⟩

theorem State.SamePath.samePages (h : s.SamePath t) : s.SamePages t := by
  obtain ⟨_, _, _, _, _, _, rfl⟩ := h
  exact ⟨rfl, rfl, rfl, rfl⟩

theorem State.SamePages.refl (s : State) : s.SamePages s := (State.SamePath.refl s).samePages

/-- Telling the standby leaves what the pages' operations read, and the rings. -/
theorem State.delta_samePages (s : State) (d : Delta) (ream : Option (Fin 4 × W32)) :
    s.SamePages (s.delta d ream).1 ∧ (s.delta d ream).1.cur = s.cur := by
  obtain ⟨hm, -, -, hc⟩ := s.delta_blocks d ream
  have h := State.delta_only (ps := [.out, .counts, .mte]) (Only.refl s) d ream rfl
  exact ⟨⟨hm, s.delta_regs d ream, h .otp rfl, h .role rfl⟩, hc⟩

theorem State.attrDelta_samePages (s : State) (m : Fin 4) (b : Bool) :
    s.SamePages (s.attrDelta m b).1 ∧ (s.attrDelta m b).1.cur = s.cur := s.delta_samePages ..

theorem State.pageArmDelta_samePages (s : State) (m : Fin 4) (ream : Option W32) :
    s.SamePages (s.pageArmDelta m ream).1 ∧ (s.pageArmDelta m ream).1.cur = s.cur := s.delta_samePages ..

theorem State.SamePages.modDkl (h : s.SamePages t) (m : Fin 4) (f : Deckle → Deckle) : (s.modDkl m f).SamePages (t.modDkl m f) := by
  refine ⟨?_, h.regs, h.otp, h.role⟩
  unfold State.modDkl State.modMill
  rw [h.mills]

theorem State.SamePages.dkl (h : s.SamePages t) (m : Fin 4) : t.dkl m = s.dkl m := State.dkl_of_mills h.mills m
theorem State.SamePages.line (h : s.SamePages t) (m : Fin 4) : t.line m = s.line m := State.line_of_mills h.mills m
theorem State.SamePages.reg (h : s.SamePages t) (a : Nat) : t.reg a = s.reg a := by unfold State.reg; rw [h.regs, h.otp]
theorem State.SamePages.bit (h : s.SamePages t) (a i : Nat) : t.bit a i = s.bit a i := by unfold State.bit; rw [h.reg]
theorem State.SamePages.dklBusy (h : s.SamePages t) (m : Fin 4) : t.dklBusy m = s.dklBusy m := by unfold State.dklBusy; rw [h.dkl]
theorem State.SamePages.following (h : s.SamePages t) : t.following = s.following := by
  unfold State.following State.role
  rw [h.role]

/-- The checks of a flip, shed or restore look at the pages' layout, the lanes in use and the version agreed. -/
theorem State.armCheck_congr {m : Fin 4} (hl : t.line m = s.line m) (ha : (t.dkl m).activeB = (s.dkl m).activeB)
    (hlanes : ∀ b, (t.dkl m).lanesOf b = (s.dkl m).lanesOf b) (htx : (t.dkl m).txMap = (s.dkl m).txMap) (k : ArmKind) :
    t.armCheck m k = s.armCheck m k := by
  have hset : t.txSet m = s.txSet m := by unfold State.txSet; rw [hl, htx]
  have hn : t.txLanes m = s.txLanes m := by unfold State.txLanes; rw [hset]
  have harm : t.armLanes m k = s.armLanes m k := by unfold State.armLanes; rw [hn]
  unfold State.armCheck
  dsimp only
  rw [hl, ha, hlanes, htx, hset, hn, harm]

theorem State.SamePages.armCheck (h : s.SamePages t) (m : Fin 4) (k : ArmKind) : t.armCheck m k = s.armCheck m k :=
  State.armCheck_congr (h.line m) (by rw [h.dkl]) (fun b => by rw [h.dkl]) (by rw [h.dkl]) k

theorem State.SamePages.autoRestore (h : s.SamePages t) (m : Fin 4) : (s.autoRestore m).SamePages (t.autoRestore m) := by
  unfold State.autoRestore
  dsimp only
  rw [h.dkl, h.bit, h.dklBusy, h.following]
  split
  · rw [h.armCheck]
    split
    · exact h.modDkl m _
    · exact h
  · exact h

theorem State.modDkl_modDkl (s : State) (m : Fin 4) (f g : Deckle → Deckle) :
    (s.modDkl m f).modDkl m g = s.modDkl m fun x => g (f x) := by
  unfold State.modDkl State.modMill
  simp only [Fin.getElem_fin, Vector.getElem_set_self, Vector.set_set]

/-- The pages have changed, and the instruction that changed them is DONE: an automatic restore may begin, the record is owed. -/
theorem State.SamePages.completed {m : Fin 4} (h : t.SamePages v) (hc : v.cur = s.cur) (ref : CmdRef) (st : Nat) (n : Option W32) :
    ((v.complete ref st 0 false false n).autoRestore m).settle.mills = (t.autoRestore m).mills
      ∧ s.Records ((v.complete ref st 0 false false n).autoRestore m).settle ref st := by
  obtain ⟨-, hcur⟩ := (v.complete ref st 0 false false n).autoRestore_blocks m
  refine ⟨?_, ?_⟩
  · rw [State.settle_mills]
    exact ((h.trans (v.complete_samePath ..).samePages).autoRestore m).mills
  · exact .stay ((State.Owes.of_cur hc).records (v.complete_records ref st 0 false false n))
      (State.Owes.of_cur ((State.settle_cur _).trans hcur)).done

/-! ### DKWRITE (R96, R97) -/

theorem dkwrite_waits {r : Rid} {d : Desc} (ht : s.Takes r 0x10 (fun _ => true) d) (hc : (s.dkl r.eng).clearing = true) :
    Completes (.dkwrite r) s fun u => (u.ring r).waiting = true ∧ u.mills = s.mills := by
  obtain ⟨hhead, hgate⟩ := ht
  have hexec : exec (.dkwrite r) s = finish (s.modRing r fun g => { g with waiting := true }) := by
    change execDkwrite r s = _
    unfold execDkwrite
    rw [hhead]
    dsimp only
    rw [hgate, hc]
    rfl
  refine completes_finish hexec ⟨?_, State.settle_mills _⟩
  rw [State.settle_ring, State.ring_modRing]

/-- The transfer that a `DKWRITE` asks for. -/
def Desc.transferOf (d : Desc) (ref : CmdRef) : Transfer := {
  ref := ref, start := d.arg 0 4, count := d.arg 4 4, addr := d.arg 8 8
  lanes := if natBit d.p1 13 then some (d.p1 % 16) else none, shedReady := if natBit d.p1 13 then some (natBit d.p1 12) else none }

theorem State.runDkwrite_accepted {d : Desc} {ref : CmdRef} (hb : s.dklBusy ref.rid.eng = false) (hr : d.arg 0 4 + d.arg 4 4 ≤ 127000)
    (hw : d.arg 4 4 ≠ 0 ∨ natBit d.p1 13 = true) (hl : 1 ≤ d.p1 % 16 ∧ d.p1 % 16 ≤ 8) :
    s.runDkwrite d ref = (s.accept ref).modDkl ref.rid.eng fun x =>
      { (if d.arg 4 4 = 0 then x else x.setReady (!(s.dkl ref.rid.eng).activeB) false) with transfer := some (d.transferOf ref) } := by
  have hempty : (decide (d.arg 4 4 = 0) && !natBit d.p1 13) = false := by
    rcases hw with h | h
    · rw [decide_eq_false h]; rfl
    · rw [h, Bool.not_true, Bool.and_false]
  have hrange : decide (127000 < d.arg 0 4 + d.arg 4 4) = false := decide_eq_false (by omega)
  have hlanes : decide (d.p1 % 16 < 1 ∨ 8 < d.p1 % 16) = false := decide_eq_false (by omega)
  unfold State.runDkwrite
  dsimp only
  rw [hrange, hempty, hlanes, hb]
  rfl

theorem dkwrite_transfers {r : Rid} {d : Desc} (ht : s.Takes r 0x10 (fun _ => true) d) (hc : (s.dkl r.eng).clearing = false)
    (hb : s.dklBusy r.eng = false) (hr : d.arg 0 4 + d.arg 4 4 ≤ 127000) (hw : d.arg 4 4 ≠ 0 ∨ natBit d.p1 13 = true)
    (hl : 1 ≤ d.p1 % 16 ∧ d.p1 % 16 ≤ 8) : Completes (.dkwrite r) s fun u => u.Pends (d.ref r)
      ∧ u.mills = (s.modDkl r.eng fun x => { (if d.arg 4 4 = 0 then x else x.setReady (!x.activeB) false) with
          transfer := some (d.transferOf (d.ref r)) }).mills := by
  have hexec : exec (.dkwrite r) s = s.issue r 0x10 (fun _ => true) State.runDkwrite := by
    obtain ⟨hhead, -⟩ := ht
    change execDkwrite r s = _
    unfold execDkwrite
    rw [hhead]
    dsimp only
    rw [hc, Bool.and_false, if_neg Bool.false_ne_true]
  refine completes_issue hexec ht fun u hu => ?_
  have hpop := (s.pop_samePath r).samePages
  rw [State.runDkwrite_accepted (ref := d.ref r) ((hpop.dklBusy r.eng).trans hb) hr hw hl] at hu
  refine ⟨?_, hu.path.mills⟩
  unfold State.Pends
  rw [hu.outst]
  exact State.accept_outst _ (d.ref r)

/-! ### The end of a transfer (R97) -/

/-- The page as a transfer of `es` leaves it, before SHED_READY is judged. -/
def Transfer.put (t : Transfer) (b : Bool) (es : List W16) (x : Deckle) : Deckle :=
  match t.lanes with
  | some n => ({ x with transfer := none }.write b t.start es).setLanes b n
  | none => { x with transfer := none }.write b t.start es

/-- The standby hears of entries that have been written. -/
def State.tellEntries (s : State) (m : Fin 4) (b : Bool) (start : Nat) (es : List W16) : State × Option W32 :=
  if es.isEmpty then (s, none) else s.delta (.entries m b start es)

/-- The page written, the standby told. -/
def State.transferred (s : State) (m : Fin 4) (t : Transfer) (es : List W16) : State × Option W32 :=
  (s.modDkl m (t.put (!(s.dkl m).activeB) es)).tellEntries m (!(s.dkl m).activeB) t.start es

theorem State.transferred_samePages (s : State) (m : Fin 4) (t : Transfer) (es : List W16) :
    (s.modDkl m (t.put (!(s.dkl m).activeB) es)).SamePages (s.transferred m t es).1 ∧ (s.transferred m t es).1.cur = s.cur := by
  unfold State.transferred State.tellEntries
  split
  · exact ⟨.refl _, rfl⟩
  · exact State.delta_samePages ..

theorem State.endTransfer_plain {tr : Transfer} (h : tr.shedReady = none) (m : Fin 4) (es : List W16) :
    s.endTransfer m tr es = (s.transferred m tr es).1.complete tr.ref 0 0 false false (s.transferred m tr es).2 := by
  unfold State.endTransfer
  rw [h]
  rfl

theorem State.endTransfer_unready {tr : Transfer} (h : tr.shedReady = some false) (m : Fin 4) (es : List W16) :
    ∃ w n, ((s.transferred m tr es).1.modDkl m fun x => x.setReady (!(s.dkl m).activeB) false).SamePages w
      ∧ w.cur = (s.transferred m tr es).1.cur ∧ s.endTransfer m tr es = w.complete tr.ref 0 0 false false n := by
  unfold State.endTransfer
  rw [h]
  obtain ⟨hsame, hcur⟩ := ((s.transferred m tr es).1.modDkl m fun x => x.setReady (!(s.dkl m).activeB) false).attrDelta_samePages m
    (!(s.dkl m).activeB)
  exact ⟨_, _, hsame, hcur, rfl⟩

theorem State.endTransfer_ready {tr : Transfer} (h : tr.shedReady = some true) (m : Fin 4) (es : List W16) :
    ((s.transferred m tr es).1.modDkl m fun x => { x with validating := some (.shedReady tr.ref) }).SamePages (s.endTransfer m tr es) := by
  unfold State.endTransfer
  rw [h]
  obtain ⟨hsame, -⟩ := (s.transferred m tr es).1.attrDelta_samePages m (!(s.dkl m).activeB)
  exact hsame.modDkl m _

/-- What a transfer of `es` that has ended brings, by what it asks of SHED_READY. -/
theorem transfer_ends {c : Instr} {m : Fin 4} {tr : Transfer} {es : List W16}
    (hx : exec c s = finish ((s.endTransfer m tr es).autoRestore m)) :
    Completes c s fun u =>
      (tr.shedReady = none → u.mills = ((s.modDkl m (tr.put (!(s.dkl m).activeB) es)).autoRestore m).mills ∧ s.Records u tr.ref 0)
      ∧ (tr.shedReady = some false → u.mills = ((s.modDkl m fun x => (tr.put (!(s.dkl m).activeB) es x).setReady (!(s.dkl m).activeB)
          false).autoRestore m).mills ∧ s.Records u tr.ref 0)
      ∧ (tr.shedReady = some true → u.mills = ((s.modDkl m fun x => { tr.put (!(s.dkl m).activeB) es x with
          validating := some (.shedReady tr.ref) }).autoRestore m).mills) := by
  obtain ⟨hput, hcur⟩ := s.transferred_samePages m tr es
  refine completes_finish hx ⟨fun h => ?_, fun h => ?_, fun h => ?_⟩
  · rw [State.endTransfer_plain h]
    exact hput.completed hcur tr.ref 0 _
  · obtain ⟨w, n, hw, hcw, heq⟩ := State.endTransfer_unready (s := s) h m es
    have hpage := (hput.modDkl m fun x => x.setReady (!(s.dkl m).activeB) false).trans hw
    rw [State.modDkl_modDkl] at hpage
    rw [heq]
    exact hpage.completed (hcw.trans hcur) tr.ref 0 n
  · have hpage := (hput.modDkl m fun x => { x with validating := some (.shedReady tr.ref) }).trans (State.endTransfer_ready h m es)
    rw [State.modDkl_modDkl] at hpage
    rw [State.settle_mills]
    exact (hpage.autoRestore m).mills

theorem exec_dkwriteTransferDone (m : Fin 4) (h : HostRead) : exec (.dkwriteTransferDone m h) s = execDkwriteTransferDone m h s := rfl

theorem exec_dkwriteTransferDone_data {m : Fin 4} {tr : Transfer} {bs : Bytes} (ht : (s.dkl m).transfer = some tr) (hn : tr.count ≠ 0)
    (hl : bs.length = 2 * tr.count) :
    exec (.dkwriteTransferDone m (.data bs)) s = finish ((s.endTransfer m tr (entriesOf tr.count bs)).autoRestore m) := by
  rw [exec_dkwriteTransferDone]
  unfold execDkwriteTransferDone
  rw [ht]
  dsimp only
  rw [if_neg hn, if_pos hl]

theorem exec_dkwriteTransferDone_attrs {m : Fin 4} {tr : Transfer} (ht : (s.dkl m).transfer = some tr) (hn : tr.count = 0) (h : HostRead) :
    exec (.dkwriteTransferDone m h) s = finish ((s.endTransfer m tr []).autoRestore m) := by
  rw [exec_dkwriteTransferDone]
  unfold execDkwriteTransferDone
  rw [ht]
  dsimp only
  rw [if_pos hn]

theorem exec_dkwriteTransferDone_fails {m : Fin 4} {tr : Transfer} {h : HostRead} {st : Nat} (ht : (s.dkl m).transfer = some tr)
    (hn : tr.count ≠ 0) (hf : h = .error ∧ st = 0x19 ∨ h = .timeout ∧ st = 0x1A) :
    exec (.dkwriteTransferDone m h) s = finish (((s.modDkl m fun x => { x with transfer := none }).complete tr.ref st).autoRestore m) := by
  rw [exec_dkwriteTransferDone]
  unfold execDkwriteTransferDone
  rw [ht]
  dsimp only
  rw [if_neg hn]
  rcases hf with ⟨rfl, rfl⟩ | ⟨rfl, rfl⟩ <;> rfl

/-- A transfer that fails writes nothing: it ends, with its status. -/
theorem dkwriteTransferDone_fails {m : Fin 4} {tr : Transfer} {h : HostRead} {st : Nat} (ht : (s.dkl m).transfer = some tr)
    (hn : tr.count ≠ 0) (hf : h = .error ∧ st = 0x19 ∨ h = .timeout ∧ st = 0x1A) :
    Completes (.dkwriteTransferDone m h) s fun u =>
      u.mills = ((s.modDkl m fun x => { x with transfer := none }).autoRestore m).mills ∧ s.Records u tr.ref st :=
  completes_finish (exec_dkwriteTransferDone_fails ht hn hf) (State.SamePages.completed (.refl _) rfl tr.ref st none)

/-! ### A validation ends (R98) -/

/-- Where the validation of the standby page fails, and why. -/
def State.standbyFault (s : State) (m : Fin 4) : Option (Nat × Nat) :=
  pageFault (fun n => !s.tribAbsent m n) ((s.dkl m).page (!(s.dkl m).activeB))

/-- The validation is over and its finding noted: entry `e`, cause `c`. -/
def State.judged (s : State) (m : Fin 4) (e c : Nat) : State :=
  s.modDkl m fun x => { x with validating := none, valIndex := e, valCause := c }

/-- The page that has passed is ready for an automatic shed. -/
def State.markedReady (s : State) (m : Fin 4) : State :=
  (s.judged m 0 0).modDkl m fun x => x.setReady (!(s.dkl m).activeB) true

theorem exec_validation_marks {m : Fin 4} {ref : CmdRef} (hv : (s.dkl m).validating = some (.shedReady ref))
    (hf : s.standbyFault m = none) :
    exec (.dklValidationDone m) s = finish ((((s.markedReady m).attrDelta m (!(s.dkl m).activeB)).1.complete ref 0 0 false false
      ((s.markedReady m).attrDelta m (!(s.dkl m).activeB)).2).autoRestore m) := by
  unfold State.standbyFault at hf
  change execDklValidationDone m s = _
  unfold execDklValidationDone
  rw [hv]
  dsimp only
  rw [hf]
  rfl

theorem exec_validation_refuses {m : Fin 4} {ref : CmdRef} {e c : Nat} (hv : (s.dkl m).validating = some (.shedReady ref))
    (hf : s.standbyFault m = some (e, c)) :
    exec (.dklValidationDone m) s = finish (((s.judged m e c).complete ref 0x21).autoRestore m) := by
  unfold State.standbyFault at hf
  change execDklValidationDone m s = _
  unfold execDklValidationDone
  rw [hv]
  dsimp only
  rw [hf]
  rfl

/-- R98: for a page that fails, DKL_VAL says where and why. -/
theorem shedReady_validated {m : Fin 4} {ref : CmdRef} (hv : (s.dkl m).validating = some (.shedReady ref)) :
    Completes (.dklValidationDone m) s fun u =>
      (s.standbyFault m = none → s.Records u ref 0 ∧ u.mills = ((s.modDkl m fun x =>
        { x with validating := none, valIndex := 0, valCause := 0 }.setReady (!(s.dkl m).activeB) true).autoRestore m).mills)
      ∧ (∀ e c, s.standbyFault m = some (e, c) → s.Records u ref 0x21 ∧ u.mills = ((s.modDkl m fun x =>
        { x with validating := none, valIndex := e, valCause := c }).autoRestore m).mills) := by
  cases hf : s.standbyFault m with
  | none =>
    obtain ⟨hsame, hcur⟩ := (s.markedReady m).attrDelta_samePages m (!(s.dkl m).activeB)
    refine completes_finish (exec_validation_marks hv hf) ⟨fun _ => ?_, nofun⟩
    obtain ⟨hmills, hrec⟩ := hsame.completed (s := s) (m := m) hcur ref 0 ((s.markedReady m).attrDelta m (!(s.dkl m).activeB)).2
    refine ⟨hrec, hmills.trans ?_⟩
    rw [State.markedReady, State.judged, State.modDkl_modDkl]
  | some p =>
    refine completes_finish (exec_validation_refuses (e := p.1) (c := p.2) hv hf) ⟨nofun, fun e c h => ?_⟩
    obtain rfl := Option.some.inj h
    exact ((State.SamePages.refl (s.judged m e c)).completed (s := s) (m := m) rfl ref 0x21 none).symm

/-! ### The pages have been cleared (R96) -/

theorem dklClearDone_completes {m : Fin 4} (hl : s.millLive m = true) (hc : (s.dkl m).clearing = true) :
    Completes (.dklClearDone m) s fun u => u.mills = ((s.modDkl m fun x => { x with clearing := false }).autoRestore m).mills :=
  completes_finish (if_pos (by rw [hl, hc]; rfl)) (State.settle_mills _)

/-- Settles O46: each command by its lemma; an automatic restore looks at nothing that a record or the standby's copy changes. -/
theorem pagesAreWritten : Obligations.PagesAreWritten := by
  unfold Obligations.PagesAreWritten
  refine fun s => ⟨fun r d ht => ⟨dkwrite_waits ht, dkwrite_transfers ht⟩, fun m tr ht => ⟨fun bs hn hl => ?_, fun h hn hr => ?_,
    fun hn => ⟨dkwriteTransferDone_fails ht hn (.inl ⟨rfl, rfl⟩), dkwriteTransferDone_fails ht hn (.inr ⟨rfl, rfl⟩)⟩⟩,
    fun m ref hv => shedReady_validated hv, fun m => dklClearDone_completes⟩
  · exact transfer_ends (exec_dkwriteTransferDone_data ht hn hl)
  · obtain ⟨w, hw, hplain, -⟩ := transfer_ends (exec_dkwriteTransferDone_attrs ht hn h)
    exact ⟨w, hw, hplain hr⟩

end Sys2Proof.Machine
end

section
/-! The standby page takes over (R99-R101, R105, R110, Table 3-3): how a flip, shed or restore begins, is armed, is cancelled and takes
effect. -/

namespace Sys2Proof.Machine

variable {s t u v w : State}

/-! ### DKL_CTL is not written by what the framer and its lanes do -/

/-- An entry that leaves a table does not change what greater keys read as, in whatever order the table is. -/
theorem tget_tdel_below {α : Type} (d : α) {k j : Nat} (h : k < j) : ∀ t : Tbl α, tget d (tdel k t) j = tget d t j
  | [] => rfl
  | (i, x) :: t => by
    unfold tdel
    split
    · simp only [tget, tget_tdel_below d h t]
    · split
      · next hik => rw [tget, if_neg (by omega), if_neg (by omega)]
      · rfl

/-- A write of a register leaves what registers at greater offsets read as. -/
theorem State.reg_setReg_below (s : State) {a b : Nat} (x : Nat) (h : a < b) : (s.setReg a x).reg b = s.reg b := by
  unfold State.reg State.setReg tset
  dsimp only
  split
  · rw [tget_tdel_below _ h]
  · rw [tget_tins_other _ _ (by omega)]

/-- From `s` to `t` DKL_CTL of mill `m` is as it was. -/
def State.CtlKept (m : Fin 4) (s t : State) : Prop := t.reg (Reg.dkl m 0) = s.reg (Reg.dkl m 0)

theorem State.CtlKept.refl (m : Fin 4) (s : State) : s.CtlKept m s := rfl

theorem State.CtlKept.trans {m : Fin 4} (h : s.CtlKept m t) (k : t.CtlKept m u) : s.CtlKept m u := Eq.trans k h

theorem State.CtlKept.ite {m : Fin 4} {c : Prop} [Decidable c] (h : s.CtlKept m t) (k : s.CtlKept m u) :
    s.CtlKept m (if c then t else u) := by
  split
  · exact h
  · exact k

theorem State.CtlKept.foldl {α : Type} {m : Fin 4} {f : State → α → State} (hf : ∀ (s : State) (x : α), s.CtlKept m (f s x)) :
    ∀ (l : List α) (s : State), s.CtlKept m (l.foldl f s)
  | [], s => .refl m s
  | x :: l, s => (hf s x).trans (State.CtlKept.foldl hf l (f s x))

theorem State.SamePages.ctlKept (h : s.SamePages t) (m : Fin 4) : s.CtlKept m t := h.reg _

theorem State.setFld_lnf_ctlKept (s : State) (m : Fin 4) {o : Nat} (ho : o < 0x100000) (lo len x : Nat) :
    s.CtlKept m (s.setFld (Reg.lnf m o) lo len x) := s.reg_setReg_below _ (by unfold Reg.lnf Reg.dkl; omega)

theorem State.defectEdge_ctlKept (s : State) (m : Fin 4) (bit : Nat) (on : Bool) : s.CtlKept m (s.defectEdge m bit on) := by
  have h : s.CtlKept m ((s.setBit (Reg.lnf m 0x14) bit).countMill m 0 (if on then 10 else 11) bit) :=
    s.setFld_lnf_ctlKept m (o := 0x14) (by omega) bit 1 (b2n true)
  unfold State.defectEdge
  exact .ite (h.trans ((State.happen_samePath ..).samePages.ctlKept m)) h

theorem State.modLine_ctlKept (s : State) (m : Fin 4) (f : Line → Line) : s.CtlKept m (s.modLine m f) := rfl

theorem State.setDefect_ctlKept (s : State) (m : Fin 4) (bit : Nat) (get : Defects → Bool) (put : Defects → Bool → Defects) (on : Bool) :
    s.CtlKept m (s.setDefect m bit get put on) := by
  unfold State.setDefect
  exact .ite (.refl m s) ((s.modLine_ctlKept m _).trans (State.defectEdge_ctlKept ..))

theorem State.loseAlign_ctlKept (s : State) (m : Fin 4) : s.CtlKept m (s.loseAlign m) := by
  have hdelay : ∀ t : State, t.CtlKept m (t.lineDelayLost m) := fun t => rfl
  unfold State.loseAlign
  exact .ite (.refl m s) (((s.modLine_ctlKept m _).trans (hdelay _)).trans (State.setDefect_ctlKept ..))

theorem State.laneLost_ctlKept (s : State) (m : Fin 4) (j : Fin 8) : s.CtlKept m (s.laneLost m j) := by
  have hhunt := s.modLine_ctlKept m fun l => { l with lanes := l.lanes.set j { l.lanes[j] with
    st := .hunt, misses := 0, missed := false, lol := true } }
  have hlol := State.CtlKept.ite (c := (s.line m).lanes[j].lol = true) hhunt (hhunt.trans (State.defectEdge_ctlKept _ m (16 + j.val) true))
  unfold State.laneLost
  exact .ite (hlol.trans (State.loseAlign_ctlKept ..)) hlol

theorem State.loseLock_ctlKept (s : State) (m : Fin 4) (j : Fin 8) : s.CtlKept m (s.loseLock m j) := by
  have hlost := (s.modLine_ctlKept m fun l => { l with lanes := l.lanes.set j { l.lanes[j] with
    locw := true, holdoff := false, ready := false } }).trans (State.laneLost_ctlKept _ m j)
  unfold State.loseLock
  exact .ite (.refl m s) (.ite (hlost.trans (State.modLine_ctlKept ..)) hlost)

theorem State.lineLook_ctlKept (s : State) (m : Fin 4) : s.CtlKept m (s.lineLook m) := by
  refine State.CtlKept.foldl (fun s j => ?_) _ s
  have hlook : s.CtlKept m (s.rxLook (lineLane m j)) := by
    unfold State.rxLook
    exact .ite rfl (.ite rfl rfl)
  have hscan := State.CtlKept.ite (c := (((s.rxLook (lineLane m j)).lane (lineLane m j)).eyeBusy
    && decide (((s.rxLook (lineLane m j)).lane (lineLane m j)).st ≠ .track)) = true)
    (u := s.rxLook (lineLane m j)) (t := (s.rxLook (lineLane m j)).modLane (lineLane m j) fun l =>
      { l with eyeBusy := false, eyeDone := true, eyeAbort := true }) hlook hlook
  exact .ite hscan (hscan.trans (State.loseLock_ctlKept ..))

theorem State.setMaps_ctlKept (s : State) (m : Fin 4) (tx rx : Byte) : s.CtlKept m (s.setMaps m tx rx) := by
  unfold State.setMaps
  exact .trans (State.setFld_lnf_ctlKept (State.modLine (s.modDkl m _) m _) m (o := 0) (by omega) 16 8 _) (State.lineLook_ctlKept ..)

theorem State.setLateFlip_ctlKept (s : State) (m : Fin 4) : s.CtlKept m (s.setBit (Reg.dkl m 4) 5) := by
  refine s.reg_setReg_other ?_ (by unfold Reg.dkl; omega)
  have hreset : Reg.reset s.otp.part (Reg.dkl m 4) = 0 := by
    have hlo : 0x1000000 ≤ Reg.dkl m 4 := by unfold Reg.dkl Reg.mill; omega
    have hhi : Reg.dkl m 4 < 0x5000000 := by unfold Reg.dkl Reg.mill; omega
    have hoff : Reg.dkl m 4 % 0x1000000 = 0x100004 := by unfold Reg.dkl Reg.mill; omega
    unfold Reg.reset
    simp (disch := omega) only [if_neg, if_pos, hoff]
    rfl
  have hv := s.reg_lt (Reg.dkl m 4)
  rw [hreset]
  intro he
  have hn := congrArg BitVec.toNat he
  simp only [BitVec.toNat_ofNat, putField, natBits, b2n, ↓reduceIte] at hn
  generalize s.reg (Reg.dkl m 4) = x at hn hv
  omega

/-! ### The pages swap -/

/-- The pages swap; of the rest, the lane maps and the far lanes that are ready may change. -/
theorem State.flipEffect_dkl (s : State) (m : Fin 4) (k : ArmKind) : ∃ tx rx far, (s.flipEffect m k).dkl m =
    { s.dkl m with activeB := !(s.dkl m).activeB, flipCd := 0, shedFlag := false, txMap := tx, rxMap := rx, farReady := far } := by
  have h1 : ((s.modDkl m fun x => { x with activeB := !x.activeB, flipCd := 0, shedFlag := false }).countMill m 2 k.event.1 k.event.2).dkl m
      = { s.dkl m with activeB := !(s.dkl m).activeB, flipCd := 0, shedFlag := false } := by
    rw [State.dkl_of_mills (State.countMill_mills ..), State.dkl_modDkl]
  unfold State.flipEffect
  cases k with
  | flip => exact ⟨_, _, _, h1⟩
  | shed j => exact ⟨_, _, _, by dsimp only; rw [State.setMaps_dkl, h1]⟩
  | restore j => exact ⟨_, _, _, by dsimp only; rw [State.setMaps_dkl, State.dkl_modDkl, h1]⟩

theorem State.flipEffect_cur (s : State) (m : Fin 4) (k : ArmKind) : (s.flipEffect m k).cur = s.cur :=
  State.flipEffect_only (ps := [.status, .counts, .evrQueue, .tim, .line, .dkl, .lanes]) (Only.refl s) m k rfl .cur rfl

theorem State.flipEffect_ctlKept (s : State) (m : Fin 4) (k : ArmKind) : s.CtlKept m (s.flipEffect m k) := by
  unfold State.flipEffect
  cases k with
  | flip => rfl
  | shed j => exact State.setMaps_ctlKept (State.countMill (s.modDkl m _) m 2 _ _) m _ _
  | restore j => exact State.setMaps_ctlKept (State.modDkl (State.countMill (s.modDkl m _) m 2 _ _) m _) m _ _

/-! ### Commands that begin with a validation (Table 3-3) -/

theorem completes_runArm {c : Instr} {r : Rid} {mop : Nat} {op : Nat → Bool} {d : Desc} {run : State → Desc → CmdRef → State}
    {k : ArmKind} {x : ValFor} (hx : exec c s = s.issue r mop op run) (hrun : ∀ t : State, run t d (d.ref r) = t.runArm k x (d.ref r))
    (ht : s.Takes r mop op d) (hb : s.dklBusy r.eng = false) (hc : s.armCheck r.eng k = none) :
    Completes c s fun u => u.Pends (d.ref r) ∧ u.mills = (s.modDkl r.eng fun y => { y with validating := some x }).mills := by
  refine completes_issue hx ht fun u hu => ?_
  have hpop := (s.pop_samePath r).samePages
  have hbegin : (s.pop r).runArm k x (d.ref r)
      = ((s.pop r).accept (d.ref r)).modDkl r.eng fun y => { y with validating := some x } := by
    unfold State.runArm
    dsimp only
    rw [show (d.ref r).rid.eng = r.eng from rfl, hpop.dklBusy, hb, hpop.armCheck, hc]
    rfl
  rw [hrun, hbegin] at hu
  refine ⟨?_, hu.path.mills⟩
  unfold State.Pends
  rw [hu.outst]
  exact State.accept_outst _ (d.ref r)

theorem exec_dkflipEarliest (r : Rid) : exec (.dkflipEarliest r) s = s.issue r 0x11 (· = 0) fun t _ ref =>
    t.runArm .flip (.flip ref none) ref := rfl

theorem exec_dkflipAt (r : Rid) : exec (.dkflipAt r) s = s.issue r 0x11 (· = 1) fun t d ref =>
    t.runArm .flip (.flip ref (dkTarget d)) ref := rfl

theorem exec_dkshedShed (r : Rid) : exec (.dkshedShed r) s = s.issue r 0x12 (· = 0) fun t d ref =>
    t.runArm (.shed (shedLane d)) (.shed ref (shedLane d) (shedTarget d)) ref := rfl

theorem exec_dkshedRestore (r : Rid) : exec (.dkshedRestore r) s = s.issue r 0x12 (· = 1) fun t d ref =>
    t.runArm (.restore (shedLane d)) (.restore (some ref) (shedLane d) (shedTarget d)) ref := rfl

/-! ### DKFLIP CANCEL (R100) -/

/-- The arm is gone and the standby told, before either command is reported. -/
def State.disarmed (s : State) (m : Fin 4) : State × Option W32 := (s.modDkl m fun x => { x with arm := none }).pageArmDelta m

theorem State.disarmed_samePages (s : State) (m : Fin 4) :
    (s.modDkl m fun x => { x with arm := none }).SamePages (s.disarmed m).1 ∧ (s.disarmed m).1.cur = s.cur :=
  State.pageArmDelta_samePages ..

theorem State.runFlipCancel_idle {d : Desc} {ref : CmdRef} (h : (s.dkl ref.rid.eng).arm = none) :
    s.runFlipCancel d ref = s.complete ref 0 := by
  unfold State.runFlipCancel
  dsimp only
  rw [h]

theorem State.runFlipCancel_late {d : Desc} {ref : CmdRef} {a : PageArm} (h : (s.dkl ref.rid.eng).arm = some a)
    (hcd : (s.dkl ref.rid.eng).flipCd ≠ 0) : s.runFlipCancel d ref = s.complete ref 2 := by
  unfold State.runFlipCancel
  dsimp only
  rw [h]
  exact if_pos hcd

theorem State.runFlipCancel_cancels {d : Desc} {ref : CmdRef} {a : PageArm} (h : (s.dkl ref.rid.eng).arm = some a)
    (hcd : (s.dkl ref.rid.eng).flipCd = 0) : s.runFlipCancel d ref =
      (((s.disarmed ref.rid.eng).1.completeOpt a.ref 1 0 false (s.disarmed ref.rid.eng).2).complete ref 0 0 false false
        (s.disarmed ref.rid.eng).2).autoRestore ref.rid.eng := by
  unfold State.runFlipCancel
  dsimp only
  rw [h]
  exact if_neg (not_not_intro hcd)

/-- A `DKFLIP` CANCEL that finds nothing to cancel, or comes too late, is only reported. -/
theorem State.Drains.onlyReported {r : Rid} {ref : CmdRef} {st : Nat} (hu : ((s.pop r).complete ref st).Drains u) :
    s.Records u ref st ∧ u.mills = s.mills :=
  ⟨.stay ((s.pop_owes r).records ((s.pop r).complete_records ref st 0 false false none)) hu.done,
    ((s.pop_samePath r).trans ((State.complete_samePath ..).trans hu.path)).mills⟩

/-- An arm that is cancelled and the CANCEL are both reported. -/
theorem State.Drains.bothReported {r : Rid} {m : Fin 4} {ref : CmdRef} {o : Option CmdRef} {n : Option W32}
    (hu : (((((s.pop r).disarmed m).1.completeOpt o 1 0 false n).complete ref 0 0 false false n).autoRestore m).Drains u) :
    s.Records u ref 0 ∧ u.mills = ((s.modDkl m fun x => { x with arm := none }).autoRestore m).mills
      ∧ ∀ q, o = some q → s.Records u q 1 := by
  obtain ⟨hsame, hcur⟩ := (s.pop r).disarmed_samePages m
  have hgone : s.Owes ((s.pop r).disarmed m).1 := (s.pop_owes r).trans (.of_cur hcur)
  have hpage := (((s.pop_samePath r).samePages.modDkl m fun x => { x with arm := none }).trans hsame).trans
    (((State.completeOpt_samePath _ o 1 0 false n).trans (State.complete_samePath _ ref 0 0 false false n)).samePages)
  have hend : (((((s.pop r).disarmed m).1.completeOpt o 1 0 false n).complete ref 0 0 false false n)).Owes
      (((((s.pop r).disarmed m).1.completeOpt o 1 0 false n).complete ref 0 0 false false n).autoRestore m) :=
    .of_cur (State.autoRestore_blocks ..).2
  refine ⟨?_, hu.path.mills.trans (hpage.autoRestore m).mills, fun q hq => ?_⟩
  · have hrec := (hgone.trans (State.completeOpt_owes _ o 1 0 false n)).records (State.complete_records _ ref 0 0 false false n)
    exact .stay (.stay hrec hend.done) hu.done
  · exact .stay (.stay (.stay (hgone.records (State.completeOpt_records _ hq _ _ _ _)) (State.complete_owes ..).done) hend.done) hu.done

theorem dkflipCancel_completes {r : Rid} {d : Desc} (ht : s.Takes r 0x11 (· = 2) d) : Completes (.dkflipCancel r) s fun u =>
    ((s.dkl r.eng).arm = none → s.Records u (d.ref r) 0 ∧ u.mills = s.mills)
    ∧ (∀ a, (s.dkl r.eng).arm = some a → (s.dkl r.eng).flipCd ≠ 0 → s.Records u (d.ref r) 2 ∧ u.mills = s.mills)
    ∧ (∀ a, (s.dkl r.eng).arm = some a → (s.dkl r.eng).flipCd = 0 → s.Records u (d.ref r) 0
      ∧ u.mills = ((s.modDkl r.eng fun x => { x with arm := none }).autoRestore r.eng).mills ∧ ∀ q, a.ref = some q → s.Records u q 1) := by
  have hdkl := (s.pop_samePath r).samePages.dkl r.eng
  refine completes_issue (run := State.runFlipCancel) rfl ht fun u hu => ⟨fun h => ?_, fun a h hcd => ?_, fun a h hcd => ?_⟩
  · rw [← hdkl] at h
    rw [State.runFlipCancel_idle (ref := d.ref r) h] at hu
    exact hu.onlyReported
  · rw [← hdkl] at h hcd
    rw [State.runFlipCancel_late (ref := d.ref r) h hcd] at hu
    exact hu.onlyReported
  · rw [← hdkl] at h hcd
    rw [State.runFlipCancel_cancels (ref := d.ref r) h hcd] at hu
    exact hu.bothReported

/-! ### A validation ends: the checks, the arm (R99, R101) -/

/-- From `s` to `t` it is as it was whether the standby page is validated and what DKL_CTL permits. -/
structure State.SameJudging (m : Fin 4) (s t : State) : Prop where
  validating : (t.dkl m).validating = (s.dkl m).validating
  ctl : s.CtlKept m t

theorem State.SameJudging.trans {m : Fin 4} (h : s.SameJudging m t) (k : t.SameJudging m u) : s.SameJudging m u :=
  ⟨k.validating.trans h.validating, h.ctl.trans k.ctl⟩

theorem State.SamePages.sameJudging (h : s.SamePages t) (m : Fin 4) : s.SameJudging m t := ⟨by rw [h.dkl], h.ctlKept m⟩

theorem State.modDkl_sameJudging (s : State) (m : Fin 4) {f : Deckle → Deckle} (hf : ∀ x, (f x).validating = x.validating) :
    s.SameJudging m (s.modDkl m f) := ⟨by rw [State.dkl_modDkl, hf], rfl⟩

/-- The page takes over at once. -/
theorem State.armPage_idle {m : Fin 4} (htx : s.txEn m = false) (k : ArmKind) (ref : Option CmdRef) (target : Option W32) :
    s.armPage m k ref target = ((s.flipEffect m k).pageArmDelta m).1.completeOpt ref 0 0 false ((s.flipEffect m k).pageArmDelta m).2 := by
  unfold State.armPage
  rw [htx]
  rfl

/-- R99: the ream a page is armed for, where the ream `rc` is in progress. -/
def armFor (rc : W32) (k : ArmKind) (ref : Option CmdRef) (target : Option W32) : PageArm :=
  match target with
  | none => { kind := k, rcF := rc + 3, ref := ref, late := false }
  | some t =>
    let soon := decide ((t - rc).toNat < 3 ∨ 2 ^ 31 ≤ (t - rc).toNat)
    { kind := k, rcF := if soon then rc + 3 else t, ref := ref, late := soon }

/-- The arm is noted; LATE_FLIP where the target came too soon. -/
def State.armedWith (s : State) (m : Fin 4) (a : PageArm) : State :=
  if a.late then (s.modDkl m fun x => { x with arm := some a, armRc := a.rcF }).setBit (Reg.dkl m 4) 5
  else s.modDkl m fun x => { x with arm := some a, armRc := a.rcF }

theorem State.armPage_running {m : Fin 4} (htx : s.txEn m = true) (k : ArmKind) (ref : Option CmdRef) (target : Option W32) :
    s.armPage m k ref target = ((s.armedWith m (armFor (s.line m).rc k ref target)).pageArmDelta m).1 := by
  unfold State.armPage
  rw [htx]
  cases target with
  | none => rfl
  | some t =>
    by_cases h : (t - (s.line m).rc).toNat < 3 ∨ 2 ^ 31 ≤ (t - (s.line m).rc).toNat
    · simp only [armFor, State.armedWith, if_pos h, decide_eq_true h, Bool.not_true, Bool.false_eq_true, if_false, if_true]
    · simp only [armFor, State.armedWith, if_neg h, decide_eq_false h, Bool.not_true, Bool.false_eq_true, if_false]

theorem State.armedWith_dkl (s : State) (m : Fin 4) (a : PageArm) :
    (s.armedWith m a).dkl m = { s.dkl m with arm := some a, armRc := a.rcF } := by
  unfold State.armedWith
  split
  · rw [State.dkl_of_mills (State.setBit_mills ..), State.dkl_modDkl]
  · exact s.dkl_modDkl m _

theorem State.armedWith_sameJudging (s : State) (m : Fin 4) (a : PageArm) : s.SameJudging m (s.armedWith m a) := by
  refine ⟨by rw [State.armedWith_dkl], ?_⟩
  unfold State.armedWith
  exact .ite (State.setLateFlip_ctlKept (s.modDkl m _) m) rfl

theorem State.armPage_sameJudging (s : State) (m : Fin 4) (k : ArmKind) (ref : Option CmdRef) (target : Option W32) :
    s.SameJudging m (s.armPage m k ref target) := by
  cases htx : s.txEn m with
  | false =>
    obtain ⟨tx, rx, far, hdkl⟩ := s.flipEffect_dkl m k
    have hflip : s.SameJudging m (s.flipEffect m k) := ⟨by rw [hdkl], s.flipEffect_ctlKept m k⟩
    rw [State.armPage_idle htx]
    exact hflip.trans (((State.pageArmDelta_samePages ..).1.trans (State.completeOpt_samePath ..).samePages).sameJudging m)
  | true =>
    rw [State.armPage_running htx]
    exact (s.armedWith_sameJudging m _).trans ((State.pageArmDelta_samePages ..).1.sameJudging m)

/-- While TX_EN is 0 the pages swap at once, and the command is DONE. -/
theorem State.armPage_swaps {m : Fin 4} (htx : s.txEn m = false) (k : ArmKind) (ref : Option CmdRef) (target : Option W32) :
    ((s.armPage m k ref target).dkl m).arm = (s.dkl m).arm ∧ ((s.armPage m k ref target).dkl m).activeB = !(s.dkl m).activeB
      ∧ ∀ q, ref = some q → s.Records (s.armPage m k ref target) q 0 := by
  obtain ⟨tx, rx, far, hdkl⟩ := s.flipEffect_dkl m k
  obtain ⟨hsame, hcur⟩ := (s.flipEffect m k).pageArmDelta_samePages m none
  have hpage := hsame.trans (State.completeOpt_samePath ((s.flipEffect m k).pageArmDelta m).1 ref 0 0 false
    ((s.flipEffect m k).pageArmDelta m).2).samePages
  rw [State.armPage_idle htx, hpage.dkl, hdkl]
  exact ⟨rfl, rfl, fun q hq => (State.Owes.of_cur (hcur.trans (s.flipEffect_cur m k))).records (State.completeOpt_records _ hq _ _ _ _)⟩

/-- While TX_EN is 1 the page waits for its ream. -/
theorem State.armPage_waits {m : Fin 4} (htx : s.txEn m = true) (k : ArmKind) (ref : Option CmdRef) (target : Option W32) :
    ((s.armPage m k ref target).dkl m).activeB = (s.dkl m).activeB
      ∧ ((s.armPage m k ref target).dkl m).arm = some (armFor (s.line m).rc k ref target) := by
  rw [State.armPage_running htx, (State.pageArmDelta_samePages ..).1.dkl, State.armedWith_dkl]
  exact ⟨rfl, rfl⟩

theorem State.noteLanes_cases (s : State) (m : Fin 4) (st : Nat) : s.noteLanes m st = s
    ∨ s.noteLanes m st = s.modDkl m fun x => { x with valIndex := 0, valCause := 5 } := by
  unfold State.noteLanes
  split
  · exact .inr rfl
  · exact .inl rfl

/-- A failed LANES check is noted in DKL_VAL only. -/
theorem State.noteLanes_keeps (s : State) (m : Fin 4) (st : Nat) : s.SameJudging m (s.noteLanes m st)
    ∧ ((s.noteLanes m st).dkl m).arm = (s.dkl m).arm ∧ ((s.noteLanes m st).dkl m).activeB = (s.dkl m).activeB
    ∧ (s.noteLanes m st).cur = s.cur := by
  obtain h | h := s.noteLanes_cases m st
  · rw [h]
    exact ⟨(State.SamePages.refl s).sameJudging m, rfl, rfl, rfl⟩
  · rw [h, State.dkl_modDkl]
    exact ⟨s.modDkl_sameJudging m fun _ => rfl, rfl, rfl, rfl⟩

section
variable {m : Fin 4} {k : ArmKind} (harm : (s.dkl m).arm = none)
include harm

theorem State.endArm_refused {st : Nat} (hc : s.armCheck m k = some st) (fault : Bool) (ref : Option CmdRef) (target : Option W32) :
    s.endArm m fault k ref target = (s.noteLanes m st).completeOpt ref st 0 false none := by
  unfold State.endArm
  rw [harm, hc]
  rfl

theorem State.endArm_faulty (hc : s.armCheck m k = none) (ref : Option CmdRef) (target : Option W32) :
    s.endArm m true k ref target = s.completeOpt ref 0x21 0 false none := by
  unfold State.endArm
  rw [harm, hc]
  rfl

theorem State.endArm_passed (hc : s.armCheck m k = none) (ref : Option CmdRef) (target : Option W32) :
    s.endArm m false k ref target = s.armPage m k ref target := by
  unfold State.endArm
  rw [harm, hc]
  rfl

theorem State.endArm_sameJudging (fault : Bool) (ref : Option CmdRef) (target : Option W32) :
    s.SameJudging m (s.endArm m fault k ref target) := by
  cases hc : s.armCheck m k with
  | some st =>
    rw [State.endArm_refused harm hc]
    exact (s.noteLanes_keeps m st).1.trans ((State.completeOpt_samePath ..).samePages.sameJudging m)
  | none =>
    cases fault with
    | true =>
      rw [State.endArm_faulty harm hc]
      exact (State.completeOpt_samePath ..).samePages.sameJudging m
    | false =>
      rw [State.endArm_passed harm hc]
      exact s.armPage_sameJudging m k ref target

/-- A check that fails leaves the pages as they are. -/
theorem State.endArm_checkFails {st : Nat} (hc : s.armCheck m k = some st) (fault : Bool) (ref : Option CmdRef) (target : Option W32) :
    ((s.endArm m fault k ref target).dkl m).arm = none ∧ ((s.endArm m fault k ref target).dkl m).activeB = (s.dkl m).activeB
      ∧ ∀ q, ref = some q → s.Records (s.endArm m fault k ref target) q st := by
  obtain ⟨-, harm', hactive, hcur⟩ := s.noteLanes_keeps m st
  rw [State.endArm_refused harm hc, (State.completeOpt_samePath ..).samePages.dkl, harm', hactive]
  exact ⟨harm, rfl, fun q hq => (State.Owes.of_cur hcur).records (State.completeOpt_records _ hq _ _ _ _)⟩

/-- A validation that fails leaves the pages as they are. -/
theorem State.endArm_validationFails (hc : s.armCheck m k = none) (ref : Option CmdRef) (target : Option W32) :
    ((s.endArm m true k ref target).dkl m).arm = none ∧ ((s.endArm m true k ref target).dkl m).activeB = (s.dkl m).activeB
      ∧ ∀ q, ref = some q → s.Records (s.endArm m true k ref target) q 0x21 := by
  rw [State.endArm_faulty harm hc, (State.completeOpt_samePath ..).samePages.dkl]
  exact ⟨harm, rfl, fun q hq => State.completeOpt_records _ hq _ _ _ _⟩

end

/-- What the validation was for, where it is for a flip, shed or restore: the kind of change, the command and its target. -/
def ValFor.Arms (x : ValFor) (k : ArmKind) (ref : Option CmdRef) (target : Option W32) : Prop :=
  (∃ q, x = .flip q target ∧ k = .flip ∧ ref = some q) ∨ (∃ q j, x = .shed q j target ∧ k = .shed j ∧ ref = some q)
    ∨ ∃ j, x = .restore ref j target ∧ k = .restore j

/-- The arm is judged after the finding is noted; an automatic restore may begin after it. -/
theorem exec_validation_arms {m : Fin 4} {x : ValFor} {k : ArmKind} {ref : Option CmdRef} {target : Option W32}
    (hv : (s.dkl m).validating = some x) (hx : x.Arms k ref target) : ∃ e c w, exec (.dklValidationDone m) s = finish w
      ∧ (w = (s.judged m e c).endArm m (s.standbyFault m).isSome k ref target
        ∨ w = ((s.judged m e c).endArm m (s.standbyFault m).isSome k ref target).autoRestore m) := by
  have hexec : exec (.dklValidationDone m) s = execDklValidationDone m s := rfl
  rw [hexec]
  unfold execDklValidationDone
  rw [hv]
  rcases hx with ⟨q, rfl, rfl, rfl⟩ | ⟨q, j, rfl, rfl, rfl⟩ | ⟨j, rfl, rfl⟩
  · exact ⟨_, _, _, rfl, .inr rfl⟩
  · exact ⟨_, _, _, rfl, .inr rfl⟩
  · cases ref with
    | none => exact ⟨_, _, _, rfl, .inl rfl⟩
    | some q => exact ⟨_, _, _, rfl, .inr rfl⟩

theorem State.autoRestore_off {m : Fin 4} (h : s.bit (Reg.dkl m 0) 1 = false) : s.autoRestore m = s := by
  unfold State.autoRestore
  dsimp only
  rw [h]
  split <;> rfl

/-- Whether or not an automatic restore then begins, arm, pages and rings are as they were. -/
theorem State.mayRestore_keeps {m : Fin 4} (h : w = v ∨ w = v.autoRestore m) : (w.dkl m).arm = (v.dkl m).arm
    ∧ (w.dkl m).activeB = (v.dkl m).activeB ∧ w.cur = v.cur ∧ (v.bit (Reg.dkl m 0) 1 = false → w = v) := by
  rcases h with rfl | rfl
  · exact ⟨rfl, rfl, rfl, fun _ => rfl⟩
  · obtain ⟨x, hdkl⟩ := v.autoRestore_dkl m
    rw [hdkl]
    exact ⟨rfl, rfl, (v.autoRestore_blocks m).2, State.autoRestore_off⟩

theorem State.judged_armCheck (s : State) (m : Fin 4) (e c : Nat) (k : ArmKind) : (s.judged m e c).armCheck m k = s.armCheck m k := by
  have hdkl : (s.judged m e c).dkl m = { s.dkl m with validating := none, valIndex := e, valCause := c } := s.dkl_modDkl m _
  exact State.armCheck_congr (s := s) (t := s.judged m e c) (s.line_modDkl m m _) (by rw [hdkl]) (fun b => by rw [hdkl]; rfl)
    (by rw [hdkl]) k

theorem validation_arms {m : Fin 4} {x : ValFor} {k : ArmKind} {ref : Option CmdRef} {target : Option W32}
    (hv : (s.dkl m).validating = some x) (hx : x.Arms k ref target) (harm : (s.dkl m).arm = none) :
    Completes (.dklValidationDone m) s fun u => (s.bit (Reg.dkl m 0) 1 = false → (u.dkl m).validating = none)
      ∧ (∀ st, s.armCheck m k = some st → (u.dkl m).arm = none ∧ (u.dkl m).activeB = (s.dkl m).activeB
        ∧ ∀ q, ref = some q → s.Records u q st)
      ∧ (s.armCheck m k = none → (s.standbyFault m).isSome = true → (u.dkl m).arm = none ∧ (u.dkl m).activeB = (s.dkl m).activeB
        ∧ ∀ q, ref = some q → s.Records u q 0x21)
      ∧ (s.armCheck m k = none → s.standbyFault m = none → s.txEn m = false → (u.dkl m).arm = none
        ∧ (u.dkl m).activeB = !(s.dkl m).activeB ∧ ∀ q, ref = some q → s.Records u q 0)
      ∧ (s.armCheck m k = none → s.standbyFault m = none → s.txEn m = true → (u.dkl m).activeB = (s.dkl m).activeB
        ∧ (u.dkl m).arm = some (armFor (s.line m).rc k ref target)) := by
  obtain ⟨e, c, w, hexec, hw⟩ := exec_validation_arms hv hx
  obtain ⟨hwarm, hwactive, hwcur, hoff⟩ := State.mayRestore_keeps hw
  have hdkl : (s.judged m e c).dkl m = { s.dkl m with validating := none, valIndex := e, valCause := c } := s.dkl_modDkl m _
  have harm' : ((s.judged m e c).dkl m).arm = none := by rw [hdkl]; exact harm
  have hactive' : ((s.judged m e c).dkl m).activeB = (s.dkl m).activeB := by rw [hdkl]
  have hrec : ∀ {q st}, (s.judged m e c).Records ((s.judged m e c).endArm m (s.standbyFault m).isSome k ref target) q st →
      s.Records w.settle q st := fun h =>
    .stay ((State.Owes.of_cur rfl).records h) (State.Owes.of_cur ((State.settle_cur _).trans hwcur)).done
  refine completes_finish hexec ?_
  rw [State.settle_dkl, hwarm, hwactive, ← hactive', ← s.judged_armCheck m e c k]
  refine ⟨fun hctl => ?_, fun st hc => ?_, fun hc hf => ?_, fun hc hf htx => ?_, fun hc hf htx => ?_⟩
  · have hsame := State.endArm_sameJudging (k := k) harm' (s.standbyFault m).isSome ref target
    have hbit : ((s.judged m e c).endArm m (s.standbyFault m).isSome k ref target).bit (Reg.dkl m 0) 1 = false :=
      (congrArg (natBit · 1) hsame.ctl).trans hctl
    rw [hoff hbit, hsame.validating, hdkl]
  · obtain ⟨hnone, hpages, hdone⟩ := State.endArm_checkFails harm' hc (s.standbyFault m).isSome ref target
    exact ⟨hnone, hpages, fun q hq => hrec (hdone q hq)⟩
  · rw [hf] at hrec ⊢
    obtain ⟨hnone, hpages, hdone⟩ := State.endArm_validationFails harm' hc ref target
    exact ⟨hnone, hpages, fun q hq => hrec (hdone q hq)⟩
  · rw [hf, Option.isSome_none, State.endArm_passed harm' hc] at hrec ⊢
    obtain ⟨hkept, hswap, hdone⟩ := (s.judged m e c).armPage_swaps (m := m) htx k ref target
    exact ⟨hkept.trans harm', hswap, fun q hq => hrec (hdone q hq)⟩
  · rw [hf, Option.isSome_none, State.endArm_passed harm' hc, ← s.line_modDkl m m]
    exact (s.judged m e c).armPage_waits (m := m) htx k ref target

/-! ### The ream that is armed begins (Table 3-3) -/

/-- The count of the ream that begins next at the framer (R51). -/
def State.nextRc (s : State) (m : Fin 4) : W32 := if (s.line m).begun then (s.line m).rc + 1 else 0

/-- The state in which a ream boundary finds what is armed. -/
def State.reamSet (s : State) (m : Fin 4) : State := (s.reamPlace m).reamSettings m

theorem State.laneUseTakes_dkl (s : State) (m : Fin 4) : (s.laneUseTakes m).dkl m = { s.dkl m with txMap := 0, rxMap := 0 } := by
  unfold State.laneUseTakes
  dsimp only
  rw [(State.alignJudge_rxOnly ..).dkl, (State.lineLook_rxOnly ..).dkl, State.dkl_of_mills (State.setFld_mills ..), State.dkl_modLine,
    State.setMaps_dkl]

/-- A ream boundary leaves the arm, the pages and the rings, but for what is armed. -/
theorem State.reamSet_keeps (s : State) (m : Fin 4) : ((s.reamSet m).dkl m).arm = (s.dkl m).arm
    ∧ ((s.reamSet m).dkl m).activeB = (s.dkl m).activeB ∧ ((s.reamSet m).dkl m).flipCd = (s.dkl m).flipCd ∧ (s.reamSet m).cur = s.cur := by
  have hplace : (s.reamPlace m).dkl m = s.dkl m := s.dkl_modLine m m _
  have hcur : (s.reamSet m).cur = s.cur :=
    State.reamSettings_only (ps := [.status, .counts, .evrQueue, .tim, .line, .dkl, .lanes]) (Only.refl (s.reamPlace m)) m rfl .cur rfl
  unfold State.reamSet State.reamSettings at hcur ⊢
  dsimp only at hcur ⊢
  rw [State.dkl_modLine]
  split
  · rw [State.laneUseTakes_dkl, hplace]
    exact ⟨rfl, rfl, rfl, by rwa [if_pos (by assumption)] at hcur⟩
  · rw [hplace]
    exact ⟨rfl, rfl, rfl, by rwa [if_neg (by assumption)] at hcur⟩

section
variable {m : Fin 4} {a : PageArm} (harm : (s.dkl m).arm = some a)
include harm

/-- The pages swap at the ream that is armed. -/
theorem State.dklReam_due {rc : W32} (h : rc = a.rcF) : ((s.dklReam m rc).dkl m).arm = none
    ∧ ((s.dklReam m rc).dkl m).activeB = !(s.dkl m).activeB
    ∧ ∀ q, a.ref = some q → s.Records (s.dklReam m rc) q 0 rc.toNat a.late := by
  subst h
  have hflip : s.dklReam m a.rcF =
      (((((s.modDkl m fun x => { x with arm := none }).flipEffect m a.kind).pageArmDelta m (some a.rcF)).1.completeOpt a.ref 0 a.rcF.toNat
        a.late (((s.modDkl m fun x => { x with arm := none }).flipEffect m a.kind).pageArmDelta m (some a.rcF)).2)).autoRestore m := by
    unfold State.dklReam
    rw [harm]
    dsimp only
    rw [if_neg (by bv_omega), if_neg (by bv_omega), if_pos rfl]
  obtain ⟨tx, rx, far, hdkl⟩ := (s.modDkl m fun x => { x with arm := none }).flipEffect_dkl m a.kind
  have hcur := (s.modDkl m fun x => { x with arm := none }).flipEffect_cur m a.kind
  rw [State.dkl_modDkl] at hdkl
  rw [hflip]
  generalize (s.modDkl m fun x => { x with arm := none }).flipEffect m a.kind = y at hdkl hcur ⊢
  obtain ⟨hsame, hcur'⟩ := y.pageArmDelta_samePages m (some a.rcF)
  generalize y.pageArmDelta m (some a.rcF) = z at hsame hcur' ⊢
  have hpage := hsame.trans (z.1.completeOpt_samePath a.ref 0 a.rcF.toNat a.late z.2).samePages
  obtain ⟨x, hx⟩ := (z.1.completeOpt a.ref 0 a.rcF.toNat a.late z.2).autoRestore_dkl m
  rw [hx, hpage.dkl, hdkl]
  exact ⟨rfl, rfl, fun q hq => .stay ((State.Owes.of_cur (hcur'.trans hcur)).records (State.completeOpt_records _ hq _ _ _ _))
    (State.Owes.of_cur (State.autoRestore_blocks ..).2).done⟩

/-- Before that ream the arm stays; its two reams before announce it. -/
theorem State.dklReam_notDue {rc : W32} (h : rc ≠ a.rcF) : ((s.dklReam m rc).dkl m).arm = some a
    ∧ ((s.dklReam m rc).dkl m).activeB = (s.dkl m).activeB
    ∧ ((s.dklReam m rc).dkl m).flipCd = if rc = a.rcF - 2 then 2 else if rc = a.rcF - 1 then 1 else (s.dkl m).flipCd := by
  unfold State.dklReam
  rw [harm]
  dsimp only
  rw [if_neg h]
  split
  · rw [State.dkl_modDkl]
    exact ⟨harm, rfl, rfl⟩
  · split
    · rw [State.dkl_modDkl]
      exact ⟨harm, rfl, rfl⟩
    · exact ⟨harm, rfl, rfl⟩

end

/-! What follows at the boundary, the line keys among it, leaves the pages; instructions may end. -/

theorem State.endHalts_owes (st : Nat) (n : Option W32) : ∀ (hs : List CmdRef) (s : State), s.Owes (s.endHalts st n hs)
  | [], s => .refl s
  | h :: hs, s => (s.complete_owes h st 0 false false n).trans (State.endHalts_owes st n hs _)

theorem State.countMill_owes (s : State) (m : Fin 4) (src i q n : Nat) : s.Owes (s.countMill m src i q n) := .of_cur rfl

theorem State.modLci_owes (s : State) (m : Fin 4) (f : Lci → Lci) : s.Owes (s.modLci m f) := .of_cur rfl

theorem State.modLkn_owes (s : State) (m k : Fin 4) (f : Lkn → Lkn) : s.Owes (s.modLkn m k f) := .of_cur rfl

theorem State.lknDelta_owes (s : State) (m k : Fin 4) (ream : Option W32) : s.Owes (s.lknDelta m k ream).1 :=
  .of_cur (State.delta_samePages ..).2

theorem State.txDone_owes (s : State) (m k : Fin 4) (ream : Option W32) : s.Owes (s.txDone m k ream) := by
  have h : s.Owes ((s.modLkn m k fun x => { x with tx := .done, halts := [] }).lknDelta m k ream).1 :=
    (s.modLkn_owes ..).trans (State.lknDelta_owes ..)
  unfold State.txDone
  dsimp only
  split
  · exact h
  · exact h.trans ((State.countMill_owes ..).trans (State.endHalts_owes ..))

/-- The armed LKN has become the current one, and the standby is told. -/
theorem State.keyTaken_owes (s : State) (m : Fin 4) (a : KeyArm) (rc : W32) (ream : Option W32) : s.Owes ((((s.modLkn m a.lkn fun x =>
    { x with tx := .current }).modLci m fun x => { x with arm := none, armRc := rc }).lknDelta m a.lkn ream).1.armDelta m ream).1 := by
  exact ((s.modLkn_owes ..).trans (State.modLci_owes ..)).trans
    ((State.lknDelta_owes ..).trans (.of_cur (State.delta_samePages ..).2))

theorem State.keyChange_owes (s : State) (m : Fin 4) (a : KeyArm) (rc : W32) (ream : Option W32) : s.Owes (s.keyChange m a rc ream) := by
  unfold State.keyChange
  dsimp only
  split
  · exact ((s.txDone_owes ..).trans (State.keyTaken_owes _ m a rc ream)).trans (State.completeOpt_owes ..)
  · exact (s.keyTaken_owes m a rc ream).trans (State.completeOpt_owes ..)

theorem State.lknReam_owes (s : State) (m : Fin 4) (rc : W32) : s.Owes (s.lknReam m rc) := by
  unfold State.lknReam
  dsimp only
  split
  · exact s.keyChange_owes ..
  · split
    · split
      · exact .refl s
      · exact s.txDone_owes ..
    · exact .refl s

/-- The framer's own part of a ream boundary changes the line and what is sent. -/
theorem State.reamBegin_only_line (s : State) (m : Fin 4) :
    Only [.out, .line] (((s.reamSet m).dklReam m (s.nextRc m)).lknReam m (s.nextRc m)) (s.reamBegin m) := by
  unfold State.reamBegin State.reamSet State.reamPlace State.nextRc
  dsimp only
  generalize State.lknReam _ m _ = x
  have hline : ∀ (c : Prop) [Decidable c] (f : Line → Line), Only [.out, .line] x
      (if c then (x.modLine m f).ownMsg m .verchk else x.modLine m f) := fun c _ f =>
    .ite (State.ownMsg_only (State.modLine_only (Only.refl x) m f rfl) m .verchk rfl) (State.modLine_only (Only.refl x) m f rfl)
  exact .ite (State.wireMarkers_only (State.emit_only (hline _ _) _ rfl) m _ _ rfl) (hline _ _)

/-- After what is armed has been looked at, a ream boundary leaves the pages, and rings owe what they owe. -/
theorem State.reamBegin_after (s : State) (m : Fin 4) : (s.reamBegin m).dkl m = ((s.reamSet m).dklReam m (s.nextRc m)).dkl m
    ∧ ((s.reamSet m).dklReam m (s.nextRc m)).Owes (s.reamBegin m) := by
  have hline := s.reamBegin_only_line m
  have hkeys := State.lknReam_only (ps := [.out, .counts, .evrQueue, .lci, .cur, .mte]) (Only.refl ((s.reamSet m).dklReam m (s.nextRc m))) m
    (s.nextRc m) rfl
  exact ⟨(hline .dkl rfl m).trans (hkeys .dkl rfl m), (State.lknReam_owes ..).trans (.of_cur (hline .cur rfl))⟩

/-- Lanes and the mate that look at the new ream leave the pages and the rings. -/
theorem State.reamEnd_keeps (s t : State) (m : Fin 4) : ((laneAfter s t (lineLane m 0)).mateLook.settle).dkl m = t.dkl m
    ∧ ((laneAfter s t (lineLane m 0)).mateLook.settle).cur = t.cur := by
  obtain ⟨-, -, -, -, -, -, -, -, hcur⟩ := (laneAfter s t (lineLane m 0)).mateLook_blocks
  have hlanes := laneAfter_only (ps := [.out, .status, .counts, .evrQueue, .tim, .line, .lanes, .felt, .mte]) (Only.refl t) s
    (lineLane m 0) rfl
  exact ⟨(State.dkl_of_mills (State.mateEnd_mills _) m).trans (hlanes .dkl rfl m),
    ((State.settle_cur _).trans hcur).trans (hlanes .cur rfl)⟩

theorem reamBegin_swaps {m : Fin 4} {a : PageArm} (hruns : s.framerRuns m = true) (hout : (s.line m).inReam = false)
    (harm : (s.dkl m).arm = some a) : Completes (.reamBegin m) s fun u =>
      (s.nextRc m = a.rcF → (u.dkl m).arm = none ∧ (u.dkl m).activeB = !(s.dkl m).activeB
        ∧ ∀ q, a.ref = some q → s.Records u q 0 (s.nextRc m).toNat a.late)
      ∧ (s.nextRc m ≠ a.rcF → (u.dkl m).arm = some a ∧ (u.dkl m).activeB = (s.dkl m).activeB
        ∧ (u.dkl m).flipCd = if s.nextRc m = a.rcF - 2 then 2 else if s.nextRc m = a.rcF - 1 then 1 else (s.dkl m).flipCd) := by
  obtain ⟨hdkl, hcur⟩ := State.reamEnd_keeps s (s.reamBegin m) m
  obtain ⟨hpages, howes⟩ := s.reamBegin_after m
  obtain ⟨hset, hactive, hcd, hcur'⟩ := s.reamSet_keeps m
  refine completes_finish (exec_reamBegin hruns hout) ?_
  rw [hdkl, hpages, ← hactive, ← hcd]
  refine ⟨fun h => ?_, fun h => State.dklReam_notDue (hset.trans harm) h⟩
  obtain ⟨hnone, hswap, hdone⟩ := State.dklReam_due (hset.trans harm) h
  exact ⟨hnone, hswap, fun q hq => .stay ((State.Owes.of_cur hcur').records (hdone q hq)) (howes.trans (.of_cur hcur)).done⟩

/-- Settles O47: each command by its lemma. The states need not be canonical, so that DKL_CTL is as it was (`State.CtlKept`) rests on the
offsets of the registers that are written. -/
theorem pagesTakeOver : Obligations.PagesTakeOver := by
  unfold Obligations.PagesTakeOver
  refine fun s => ⟨fun r d => ⟨?_, ?_, ?_, ?_, dkflipCancel_completes⟩, fun m x k ref target hv hx harm => ?_,
    fun m a hruns hout harm => ?_⟩
  · exact completes_runArm (exec_dkflipEarliest r) fun _ => rfl
  · exact completes_runArm (exec_dkflipAt r) fun _ => rfl
  · exact completes_runArm (exec_dkshedShed r) fun _ => rfl
  · exact completes_runArm (exec_dkshedRestore r) fun _ => rfl
  · exact validation_arms hv hx harm
  · exact reamBegin_swaps hruns hout harm

end Sys2Proof.Machine
end

section
/-! Byte strings as numbers, and exclusive or with a stream (R13, R118). -/

namespace Sys2Proof.Machine

variable {s : State}

/-! ### Bytes of a number -/

theorem length_leBytes : ∀ k n : Nat, (leBytes k n).length = k
  | 0, _ => rfl
  | k + 1, n => by rw [leBytes, List.length_cons, length_leBytes k]

theorem length_beBytes (k n : Nat) : (beBytes k n).length = k := by rw [beBytes, List.length_reverse, length_leBytes]

/-- The bytes from the `i`-th on are those of the number without its `i` low bytes. -/
theorem byteAt_leBytes : ∀ {k i : Nat} (n : Nat), i < k → byteAt (leBytes k n) i = byteOf (n / 256 ^ i)
  | k + 1, 0, n, _ => by rw [Nat.pow_zero, Nat.div_one]; rfl
  | k + 1, i + 1, n, h => by
    have := byteAt_leBytes (n / 256) (Nat.lt_of_succ_lt_succ h)
    rwa [Nat.div_div_eq_div_mul, ← Nat.pow_succ'] at this

theorem byteAt_beBytes {k i : Nat} (n : Nat) (h : i < k) : byteAt (beBytes k n) i = byteOf (n / 256 ^ (k - 1 - i)) := by
  rw [← byteAt_leBytes n (show k - 1 - i < k by omega), byteAt, byteAt, List.getD_eq_getElem?_getD, List.getD_eq_getElem?_getD,
    beBytes, List.getElem?_reverse (by rwa [length_leBytes]), length_leBytes]

/-- R118: the bytes of the IV, the most significant first. -/
theorem byteAt_sheetIv {salt lc seq : Nat} (hl : lc < 2 ^ 32) (hs : seq < 2 ^ 64) {i : Nat} (hi : i < 12) :
    (byteAt (sheetIv salt lc seq) i).toNat = Nat.xor salt (lc * 2 ^ 64 + seq) / 2 ^ (88 - 8 * i) % 256 := by
  have hpow : 256 ^ (12 - 1 - i) = 2 ^ (88 - 8 * i) := by
    rw [show 88 - 8 * i = 8 * (12 - 1 - i) by omega, Nat.pow_mul]
  rw [sheetIv, byteAt_beBytes _ hi, byteOf_toNat, Nat.mod_eq_of_lt hl, Nat.mod_eq_of_lt hs, hpow]

/-- R118: the sheet sent under a key is sealed with the IV of its number. -/
theorem State.keyedSheet_sealed (s : State) (m k : Fin 4) : ∃ oh cells,
    s.keyedSheet m k = sealSheet (s.lkn m k).key (sheetIv (s.lkn m k).salt (lcid (s.lkn m k).chid (s.lciEnd m)) (s.lkn m k).seq) oh cells :=
  ⟨_, _, rfl⟩

theorem State.keyedSheet_sent (s : State) (m k : Fin 4) : Out.sheet m.val (s.keyedSheet m k) ∈ (s.sendKeyed m k).out := by
  obtain ⟨-, hsheet⟩ := (s.keyedCredit m k).2.sheetOut_sends m (s.line m).idx (s.keyedSheet m k) (some k) (s.lkn m k).seq
  rw [State.sendKeyed_eq]
  exact (State.seqSent_framerSent ..).out.subset hsheet

/-- What the watermark does at the start of a sheet period changes neither keys nor the end of the line. -/
theorem State.wmLatchTx_keys (s : State) (m : Fin 4) : (∀ k, (s.wmLatchTx m).lkn m k = s.lkn m k) ∧ (s.wmLatchTx m).lciEnd m = s.lciEnd m := by
  obtain ⟨-, hlci, -, -⟩ := s.wmLatchTx_keeps m
  obtain ⟨b, h⟩ := s.wmLatchTx_cases m
  exact ⟨fun k => congrArg (fun x : Lci => x.lkn[k]) hlci, by rw [h]; rfl⟩

theorem keyedSheet_completes {m k : Fin 4} (hruns : s.framerRuns m = true) (hin : (s.line m).inReam = true) (hp : s.permitted = true)
    (hk : s.keyedUnder m = some k) : Completes (.sheetSend m) s fun u => ∃ oh cells, Out.sheet m.val (sealSheet (s.lkn m k).key
      (sheetIv (s.lkn m k).salt (lcid (s.lkn m k).chid (s.lciEnd m)) (s.lkn m k).seq) oh cells) ∈ u.out := by
  obtain ⟨hkept, -, hunder, -⟩ := s.wmLatchTx_keeps m
  obtain ⟨hlkn, hend⟩ := s.wmLatchTx_keys m
  obtain ⟨oh, cells, hsealed⟩ := (s.wmLatchTx m).keyedSheet_sealed m k
  rw [hlkn, hend] at hsealed
  have hsent : s.sheetSent m = (s.wmLatchTx m).sendKeyed m k := by
    rw [State.sheetSent, hkept.permitted, if_pos hp, hunder, hk]
  refine completes_finish (exec_sheetSend hruns hin) ⟨oh, cells, (State.settle_out _).subset ?_⟩
  rw [State.sheetSend_out, hsent, ← hsealed]
  exact State.keyedSheet_sent ..

/-- Settles O58: the bytes of the IV by those of a number, the sheet by what the framer sends under its current key. -/
theorem sheetIvIsSaltXorSeq : Obligations.SheetIvIsSaltXorSeq := by
  unfold Obligations.SheetIvIsSaltXorSeq
  exact ⟨fun _ _ _ _ hl hs => ⟨length_beBytes .., fun _ hi => byteAt_sheetIv hl hs hi⟩,
    fun _ _ _ hruns hin hp hk => keyedSheet_completes hruns hin hp hk⟩

end Sys2Proof.Machine
end

section
/-! Lengths of AES blocks; what counter mode enciphers is the text against a stream of blocks, so that enciphering again deciphers
(R118, R147, R357). -/

namespace Sys2Proof.Machine

/-! ### Exclusive or of strings -/

theorem length_xorBytes (a b : Bytes) : (xorBytes a b).length = min a.length b.length := List.length_zipWith

/-- A stream at least as long as the text, applied twice, leaves the text. -/
theorem xorBytes_twice : ∀ {p t : Bytes}, p.length ≤ t.length → xorBytes (xorBytes p t) t = p
  | [], _, _ => rfl
  | a :: p, b :: t, h => by
    have hrest : xorBytes (xorBytes p t) t = p := xorBytes_twice (Nat.le_of_succ_le_succ h)
    have hhead : a ^^^ b ^^^ b = a := by rw [BitVec.xor_assoc, BitVec.xor_self, BitVec.xor_zero]
    simpa [xorBytes, hhead] using hrest

/-- A text against one block and what follows it. -/
theorem xorBytes_append {e : Bytes} {n : Nat} (he : e.length = n) (p t : Bytes) :
    xorBytes p (e ++ t) = xorBytes (p.take n) e ++ xorBytes (p.drop n) t := by
  have htake : (xorBytes p (e ++ t)).take n = xorBytes (p.take n) e := by
    rw [xorBytes, List.take_zipWith, List.take_left' he]
    rfl
  have hdrop : (xorBytes p (e ++ t)).drop n = xorBytes (p.drop n) t := by
    rw [xorBytes, List.drop_zipWith, List.drop_left' he]
    rfl
  rw [← htake, ← hdrop, List.take_append_drop]

/-! ### The key schedule -/

/-- What the key schedule makes of the last word before word `i`. -/
def Aes.scheduled (nk i : Nat) (p : Bytes) : Bytes :=
  if i % nk = 0 then xorBytes ((p.drop 1 ++ p.take 1).map Aes.sbox) [byteOf (Aes.rcon (i / nk - 1)), 0, 0, 0]
  else if 6 < nk ∧ i % nk = 4 then p.map Aes.sbox else p

theorem Aes.expand_succ (nk n i : Nat) (ws : List Bytes) : Aes.expand nk (n + 1) i ws =
    Aes.expand nk n (i + 1) (xorBytes (Aes.scheduled nk i (ws.headD [])) (ws.getD (nk - 1) []) :: ws) := rfl

theorem Aes.length_scheduled (nk i : Nat) {p : Bytes} (h : p.length = 4) : (Aes.scheduled nk i p).length = 4 := by
  unfold Aes.scheduled
  split
  · simp [length_xorBytes, h]
  · split
    · rw [List.length_map, h]
    · exact h

/-- The key schedule adds `n` words of 4 bytes. -/
theorem Aes.expand_words {nk : Nat} (hk : 0 < nk) : ∀ (n i : Nat) (ws : List Bytes), (∀ w ∈ ws, w.length = 4) → nk ≤ ws.length →
    (∀ w ∈ Aes.expand nk n i ws, w.length = 4) ∧ (Aes.expand nk n i ws).length = ws.length + n
  | 0, _, _, hws, _ => ⟨hws, rfl⟩
  | n + 1, i, [], _, hlen => absurd hlen (Nat.not_le.mpr hk)
  | n + 1, i, p :: ws, hws, hlen => by
    have hlast : (Aes.scheduled nk i p).length = 4 := Aes.length_scheduled nk i (hws p List.mem_cons_self)
    have hfirst : ((p :: ws).getD (nk - 1) []).length = 4 := by
      rw [List.getD_eq_getElem _ _ (show nk - 1 < (p :: ws).length by omega)]
      exact hws _ (List.getElem_mem _)
    have hnew : (xorBytes (Aes.scheduled nk i p) ((p :: ws).getD (nk - 1) [])).length = 4 := by rw [length_xorBytes, hlast, hfirst, Nat.min_self]
    obtain ⟨hall, hcount⟩ := Aes.expand_words hk n (i + 1) (_ :: p :: ws) (List.forall_mem_cons.mpr ⟨hnew, hws⟩) (Nat.le_succ_of_le hlen)
    rw [Aes.expand_succ]
    exact ⟨hall, hcount.trans (by rw [List.length_cons]; omega)⟩

/-- A string of `k * n` bytes is cut into `n` pieces of `k` bytes. -/
theorem chunks_pieces {k n f : Nat} {bs : Bytes} (hk : 0 < k) (h : bs.length = k * n) (hf : n ≤ f) :
    (chunks k f bs).length = n ∧ ∀ c ∈ chunks k f bs, c.length = k := by
  obtain ⟨cs, rfl, rfl, hall⟩ := exists_pieces k n bs h
  rw [chunks_flatten k hk f cs hall hf]
  exact ⟨rfl, hall⟩

/-- Every round key has 16 bytes. -/
theorem Aes.length_of_mem_roundKeys {key k : Bytes} (hkey : key.length = 16 ∨ key.length = 32) (h : k ∈ Aes.roundKeys key) :
    k.length = 16 := by
  obtain ⟨nk, hnk⟩ : ∃ nk, key.length = 4 * nk := by rcases hkey with e | e <;> exact ⟨key.length / 4, by omega⟩
  have hpos : 0 < nk := by omega
  have hdiv : key.length / 4 = nk := by omega
  obtain ⟨hcount, hwords⟩ := chunks_pieces (f := nk) (by omega) hnk le_rfl
  obtain ⟨hwords', hcount'⟩ := Aes.expand_words hpos (4 * (nk + 7) - nk) nk (chunks 4 nk key).reverse
    (fun w hw => hwords w (List.mem_reverse.mp hw)) (by rw [List.length_reverse, hcount])
  have hlen := length_flatten_pieces 4 (Aes.expand nk (4 * (nk + 7) - nk) nk (chunks 4 nk key).reverse).reverse
    fun w hw => hwords' w (List.mem_reverse.mp hw)
  rw [List.length_reverse, hcount', List.length_reverse, hcount] at hlen
  rw [Aes.roundKeys, hdiv] at h
  exact (chunks_pieces (n := nk + 7) (by omega) (hlen.trans (by omega)) (by omega)).2 k h

/-! ### Blocks -/

theorem Aes.length_mix (a b c d : Nat) (st : Bytes) : (Aes.mix a b c d st).length = 16 := by
  rw [Aes.mix, List.length_map, List.length_range]

theorem Aes.length_shiftRows (st : Bytes) : (Aes.shiftRows st).length = 16 := by rw [Aes.shiftRows, List.length_map, List.length_range]

theorem Aes.length_rounds : ∀ (ks : List Bytes) (st : Bytes), (∀ k ∈ ks, k.length = 16) → st.length = 16 → (Aes.rounds st ks).length = 16
  | [], _, _, hst => hst
  | [k], st, hks, _ => by rw [Aes.rounds, length_xorBytes, Aes.length_shiftRows, hks k List.mem_cons_self, Nat.min_self]
  | k :: k' :: ks, st, hks, _ => by
    obtain ⟨hk, hrest⟩ := List.forall_mem_cons.mp hks
    exact Aes.length_rounds (k' :: ks) _ hrest (by rw [length_xorBytes, Aes.length_mix, hk, Nat.min_self])

theorem Aes.length_enc {ks : List Bytes} {blk : Bytes} (hks : ∀ k ∈ ks, k.length = 16) (hb : blk.length = 16) :
    (Aes.enc ks blk).length = 16 := by
  cases ks with
  | nil => exact hb
  | cons k ks =>
    obtain ⟨hk, hrest⟩ := List.forall_mem_cons.mp hks
    exact Aes.length_rounds ks _ hrest (by rw [length_xorBytes, hb, hk, Nat.min_self])

theorem length_aesEnc {key blk : Bytes} (hkey : key.length = 16 ∨ key.length = 32) (hb : blk.length = 16) : (aesEnc key blk).length = 16 :=
  Aes.length_enc (fun _ h => Aes.length_of_mem_roundKeys hkey h) hb

/-! ### Counter mode -/

/-- The key stream of `n` blocks from counter `c` on. -/
def Gcm.stream (ks : List Bytes) (iv : Bytes) : Nat → Nat → Bytes
  | _, 0 => []
  | c, n + 1 => Aes.enc ks (iv ++ beBytes 4 c) ++ Gcm.stream ks iv (c + 1) n

section
variable {ks : List Bytes} {iv : Bytes} (hks : ∀ k ∈ ks, k.length = 16) (hiv : iv.length = 12)
include hks hiv

theorem Gcm.length_block (c : Nat) : (Aes.enc ks (iv ++ beBytes 4 c)).length = 16 :=
  Aes.length_enc hks (by rw [List.length_append, hiv, length_beBytes])

theorem Gcm.length_stream : ∀ n c, (Gcm.stream ks iv c n).length = 16 * n
  | 0, _ => rfl
  | n + 1, c => by rw [Gcm.stream, List.length_append, Gcm.length_block hks hiv, Gcm.length_stream n]; omega

/-- Counter mode is the text against the stream; blocks that the text does not need change nothing. -/
theorem Gcm.ctr_chunks : ∀ (n c : Nat) (p : Bytes), p.length ≤ n → (Gcm.ctr ks iv c (chunks 16 n p)).flatten = xorBytes p (Gcm.stream ks iv c n)
  | 0, _, [], _ => rfl
  | n + 1, _, [], _ => rfl
  | n + 1, c, b :: p, h => by
    have hrest := Gcm.ctr_chunks n (c + 1) ((b :: p).drop 16) (by rw [List.length_drop, List.length_cons] at *; omega)
    rw [chunks, Gcm.ctr, List.flatten_cons, hrest, Gcm.stream, xorBytes_append (Gcm.length_block hks hiv c)]

theorem Gcm.ctr_twice (c : Nat) (p : Bytes) :
    (Gcm.ctr ks iv c (chunksOf 16 (Gcm.ctr ks iv c (chunksOf 16 p)).flatten)).flatten = p := by
  have hlen := Gcm.length_stream hks hiv p.length c
  have hct : (xorBytes p (Gcm.stream ks iv c p.length)).length = p.length := by rw [length_xorBytes, hlen]; omega
  rw [chunksOf, chunksOf, Gcm.ctr_chunks hks hiv _ _ _ le_rfl, Gcm.ctr_chunks hks hiv _ _ _ le_rfl, hct]
  exact xorBytes_twice (by rw [hlen]; omega)

end

/-- What is enciphered deciphers to what it was, with the tag it was given. -/
theorem gcmDec_gcmEnc {key iv : Bytes} (aad p : Bytes) (hkey : key.length = 16 ∨ key.length = 32) (hiv : iv.length = 12) :
    gcmDec key iv aad (gcmEnc key iv aad p).1 = (p, (gcmEnc key iv aad p).2) :=
  Prod.ext (Gcm.ctr_twice (fun _ h => Aes.length_of_mem_roundKeys hkey h) hiv 2 p) rfl

/-! ### A line of the external memory -/

theorem length_memBlock (domain : Nat) (r : Fin 8) (c : Fin 4) (l major minor j : Nat) : (memBlock domain r c l major minor j).length = 16 := by
  simp [memBlock, length_beBytes]

theorem length_lineStream {key : Bytes} (hkey : key.length = 16 ∨ key.length = 32) (r : Fin 8) (c : Fin 4) (l major minor : Nat) :
    (lineStream key r c l major minor).length = 32 := by
  rw [lineStream, List.length_append, length_aesEnc hkey (length_memBlock ..), length_aesEnc hkey (length_memBlock ..)]

/-- R357, R358: a stored line opens, at its address and counters, to what was written. -/
theorem openLine_sealLine {key p : Bytes} (r : Fin 8) (c : Fin 4) (l major minor : Nat) (hkey : key.length = 16 ∨ key.length = 32)
    (hp : p.length = 32) : openLine key r c l major minor (sealLine key r c l major minor p) = some p := by
  have htext : xorBytes (xorBytes p (lineStream key r c l major minor)) (lineStream key r c l major minor) = p :=
    xorBytes_twice (by rw [hp, length_lineStream hkey])
  rw [openLine, if_pos (by rfl)]
  exact congrArg some htext

end Sys2Proof.Machine
end

section
/-! The code of a stored line (R347, R348): one bit that changes adds its column to the check bits and turns the parity, and no two
columns are the same. -/

namespace Sys2Proof.Machine

/-! ### One bit of a number that changes -/

theorem natXor_eq (a b : Nat) : Nat.xor a b = a ^^^ b := rfl

theorem natBit_eq (v i : Nat) : natBit v i = v.testBit i := Nat.testBit_eq_decide_div_mod_eq.symm

theorem testBit_flip (v i j : Nat) : (v ^^^ 2 ^ i).testBit j = if i = j then !v.testBit j else v.testBit j := by
  rw [Nat.testBit_xor, Nat.testBit_two_pow]
  split
  · next h => rw [decide_eq_true h, Bool.xor_true]
  · next h => rw [decide_eq_false h, Bool.xor_false]

/-- A bit of the low part. -/
theorem flip_low {n a i : Nat} (k : Nat) (ha : a < 2 ^ n) (hi : i < n) : (2 ^ n * k + a) ^^^ 2 ^ i = 2 ^ n * k + (a ^^^ 2 ^ i) := by
  have hflip : a ^^^ 2 ^ i < 2 ^ n := Nat.xor_lt_two_pow ha (Nat.pow_lt_pow_right (by omega) hi)
  refine Nat.eq_of_testBit_eq fun j => ?_
  rw [testBit_flip, Nat.testBit_two_pow_mul_add k ha, Nat.testBit_two_pow_mul_add k hflip, testBit_flip]
  split <;> split <;> first | rfl | omega

/-- A bit of the high part. -/
theorem flip_high {n b : Nat} (k i : Nat) (hb : b < 2 ^ n) : (2 ^ n * k + b) ^^^ 2 ^ (n + i) = 2 ^ n * (k ^^^ 2 ^ i) + b := by
  refine Nat.eq_of_testBit_eq fun j => ?_
  rw [testBit_flip, Nat.testBit_two_pow_mul_add k hb, Nat.testBit_two_pow_mul_add _ hb, testBit_flip]
  by_cases hj : j < n
  · rw [if_neg (by omega), if_pos hj, if_pos hj]
  · rw [if_neg hj, if_neg hj]
    exact if_congr (by omega) rfl rfl

/-! ### The bits of a line -/

/-- A byte more shifts the bits up by 8. -/
theorem flipBit_cons (b : Byte) (bs : Bytes) (i : Nat) :
    flipBit (b :: bs) i = if i < 8 then (b ^^^ 1#8 <<< i) :: bs else b :: flipBit bs (i - 8) := by
  rw [flipBit, List.mapIdx_cons]
  by_cases h : i < 8
  · have hid : bs.mapIdx (fun _ c => c) = bs := List.mapIdx_eq_iff.mpr fun k => by rw [Option.map_id']
    have hrest : ∀ k, ¬ k + 1 = i / 8 := by omega
    simp only [hrest, if_false, show 0 = i / 8 by omega, if_true, show i % 8 = i by omega, h, hid]
  · rw [if_neg (by omega), if_neg h, flipBit, show (i - 8) % 8 = i % 8 by omega]
    exact congrArg _ (List.mapIdx_eq_mapIdx_iff.mpr fun k _ => if_congr (by omega) rfl rfl)

theorem toNat_flip (b : Byte) {i : Nat} (h : i < 8) : (b ^^^ 1#8 <<< i).toNat = b.toNat ^^^ 2 ^ i := by
  have hpow : 2 ^ i < 2 ^ 8 := Nat.pow_lt_pow_right (by omega) h
  rw [BitVec.toNat_xor, BitVec.toNat_shiftLeft, BitVec.toNat_ofNat, Nat.mod_eq_of_lt (a := 1) (by omega), Nat.shiftLeft_eq, Nat.one_mul,
    Nat.mod_eq_of_lt hpow]

theorem leNat_flipBit : ∀ {ct : Bytes} {i : Nat}, i < 8 * ct.length → leNat (flipBit ct i) = leNat ct ^^^ 2 ^ i
  | [], _, h => absurd h (by simp)
  | b :: bs, i, h => by
    have hval : ∀ c : Byte, leNat (c :: bs) = 2 ^ 8 * leNat bs + c.toNat := fun c => Nat.add_comm ..
    rw [flipBit_cons, hval]
    split
    · next hi => rw [hval, toNat_flip b hi, flip_low _ b.isLt hi]
    · next hi =>
      have hrest : leNat (flipBit bs (i - 8)) = leNat bs ^^^ 2 ^ (i - 8) := leNat_flipBit (by rw [List.length_cons] at h; omega)
      have hbit : 2 ^ i = 2 ^ (8 + (i - 8)) := by rw [Nat.add_sub_cancel' (Nat.le_of_not_lt hi)]
      rw [hbit, flip_high _ _ b.isLt, ← hrest]
      exact Nat.add_comm ..

theorem flipBit_twice (ct : Bytes) (i : Nat) : flipBit (flipBit ct i) i = ct := by
  rw [flipBit, flipBit, List.mapIdx_mapIdx, List.mapIdx_eq_iff]
  intro k
  cases ct[k]? with
  | none => rfl
  | some b =>
    simp only [Option.map_some, Function.comp_apply]
    split
    · rw [BitVec.xor_assoc, BitVec.xor_self, BitVec.xor_zero]
    · rfl

/-! ### The data bits of the code -/

theorem codeBits_eq (l : Nat) {ct : Bytes} {tag : Nat} (hc : ct.length = 32) (ht : tag < 2 ^ 20) :
    codeBits l ct tag = 2 ^ 256 * (2 ^ 20 * (l % 2 ^ 19) + tag) + leNat ct := by
  have hct : leNat ct < 2 ^ 256 := (leNat_lt ct).trans_eq (by rw [hc]; rfl)
  rw [codeBits, Nat.mod_eq_of_lt hct, Nat.mod_eq_of_lt ht, show 276 = 256 + 20 from rfl, Nat.pow_add]
  generalize 2 ^ 256 = q
  ring

theorem codeBits_flipBit (l : Nat) {ct : Bytes} {tag i : Nat} (hc : ct.length = 32) (ht : tag < 2 ^ 20) (hi : i < 256) :
    codeBits l (flipBit ct i) tag = codeBits l ct tag ^^^ 2 ^ i := by
  have hct : leNat ct < 2 ^ 256 := (leNat_lt ct).trans_eq (by rw [hc]; rfl)
  rw [codeBits_eq l hc ht, codeBits_eq l (by rw [flipBit, List.length_mapIdx, hc]) ht, leNat_flipBit (by omega), flip_low _ hct hi]

theorem codeBits_flipTag (l : Nat) {ct : Bytes} {tag i : Nat} (hc : ct.length = 32) (ht : tag < 2 ^ 20) (hi : i < 20) :
    codeBits l ct (tag ^^^ 2 ^ i) = codeBits l ct tag ^^^ 2 ^ (256 + i) := by
  have hct : leNat ct < 2 ^ 256 := (leNat_lt ct).trans_eq (by rw [hc]; rfl)
  have htag : tag ^^^ 2 ^ i < 2 ^ 20 := Nat.xor_lt_two_pow ht (Nat.pow_lt_pow_right (by omega) hi)
  rw [codeBits_eq l hc ht, codeBits_eq l hc htag, flip_high _ _ hct, flip_low _ ht hi]

/-! ### Columns -/

/-- The columns of the data bits below `n` that are 1, summed. -/
def eccColumns (v n : Nat) : Nat := (List.range n).foldl (fun a i => if natBit v i then Nat.xor a (eccCol i) else a) 0

theorem eccCheckBits_eq (v : Nat) : eccCheckBits v = eccColumns v 295 := rfl

theorem eccColumns_succ (v n : Nat) : eccColumns v (n + 1) = eccColumns v n ^^^ if v.testBit n then eccCol n else 0 := by
  rw [eccColumns, List.range_succ, List.foldl_append, ← natBit_eq]
  show (if natBit v n then Nat.xor (eccColumns v n) (eccCol n) else eccColumns v n) = _
  split
  · rfl
  · rw [Nat.xor_zero]

/-- A bit that changes adds its column. -/
theorem eccColumns_flip (v i : Nat) : ∀ n, eccColumns (v ^^^ 2 ^ i) n = eccColumns v n ^^^ if i < n then eccCol i else 0
  | 0 => (Nat.xor_zero _).symm
  | n + 1 => by
    rw [eccColumns_succ, eccColumns_succ, eccColumns_flip v i n, testBit_flip]
    rcases Nat.lt_trichotomy i n with h | rfl | h
    · rw [if_pos h, if_neg h.ne, if_pos (Nat.lt_succ_of_lt h), Nat.xor_assoc, Nat.xor_assoc, Nat.xor_comm (eccCol i)]
    · rw [if_neg (lt_irrefl i), if_pos rfl, if_pos (Nat.lt_succ_self i), Nat.xor_zero]
      cases v.testBit i <;> simp
    · rw [if_neg h.not_gt, if_neg h.ne', if_neg (Nat.not_lt.mpr h), Nat.xor_zero, Nat.xor_zero]

theorem eccCol_lt {i : Nat} (h : i < 295) : eccCol i < 2 ^ 11 := by
  have hall : ∀ j < 295, eccCol j < 2 ^ 11 := by decide +kernel
  exact hall i h

theorem eccColumns_lt (v : Nat) : ∀ {n : Nat}, n ≤ 295 → eccColumns v n < 2 ^ 11
  | 0, _ => Nat.two_pow_pos 11
  | n + 1, h => by
    rw [eccColumns_succ]
    refine Nat.xor_lt_two_pow (eccColumns_lt v (Nat.le_of_succ_le h)) ?_
    split
    · exact eccCol_lt h
    · decide

theorem eccCheckBits_lt (v : Nat) : eccCheckBits v < 2 ^ 11 := eccColumns_lt v le_rfl

theorem eccCheckBits_flip {i : Nat} (v : Nat) (h : i < 295) : eccCheckBits (v ^^^ 2 ^ i) = eccCheckBits v ^^^ eccCol i := by
  rw [eccCheckBits_eq, eccColumns_flip, if_pos h, ← eccCheckBits_eq]

theorem eccCol_strictMono : StrictMono eccCol := by
  refine strictMono_nat_of_lt_succ fun i => ?_
  have hlog : ∀ {a b : Nat}, a ≤ b → Nat.log2 a ≤ Nat.log2 b := fun h => by
    rw [Nat.log2_eq_log_two, Nat.log2_eq_log_two]
    exact Nat.log_mono_right h
  have hinner : i + 2 + Nat.log2 (i + 2) ≤ i + 1 + 2 + Nat.log2 (i + 1 + 2) :=
    Nat.add_le_add (by omega) (hlog (by omega))
  exact Nat.add_lt_add_of_lt_of_le (by omega) (hlog hinner)

/-- No column is 0 or a power of two: those are the columns of the check bits. -/
theorem eccCol_data {i : Nat} (h : i < 295) : eccCol i ≠ 0 ∧ eccCol i ≠ 2 ^ Nat.log2 (eccCol i) := by
  have hall : ∀ j < 295, eccCol j ≠ 0 ∧ eccCol j ≠ 2 ^ Nat.log2 (eccCol j) := by decide +kernel
  exact hall i h

theorem find_eccCol {i : Nat} (h : i < 295) : ((List.range 295).find? fun j => decide (eccCol j = eccCol i)) = some i :=
  List.find?_range_eq_some.mpr ⟨decide_eq_true rfl, List.mem_range.mpr h, fun _ hj => by
    rw [decide_eq_false (eccCol_strictMono hj).ne, Bool.not_false]⟩

/-! ### Parity -/

theorem onesOf_congr {v w : Nat} : ∀ {n : Nat}, (∀ j < n, v.testBit j = w.testBit j) → onesOf v n = onesOf w n
  | 0, _ => rfl
  | n + 1, h => by
    rw [onesOf, onesOf, natBit_eq, natBit_eq, h n (Nat.lt_succ_self n), onesOf_congr fun j hj => h j (Nat.lt_succ_of_lt hj)]

theorem onesOf_flip {v i : Nat} : ∀ {n : Nat}, i < n → onesOf (v ^^^ 2 ^ i) n % 2 = (onesOf v n + 1) % 2
  | n + 1, h => by
    rw [onesOf, onesOf, natBit_eq, natBit_eq, testBit_flip]
    rcases Nat.lt_succ_iff_lt_or_eq.mp h with h | rfl
    · have hrec := onesOf_flip (v := v) h
      rw [if_neg h.ne]
      omega
    · have hbelow : onesOf (v ^^^ 2 ^ i) i = onesOf v i := onesOf_congr fun j hj => by rw [testBit_flip, if_neg hj.ne']
      rw [if_pos rfl, hbelow]
      cases v.testBit i <;> simp [b2n] <;> omega

/-- One bit above `n` others. -/
theorem onesOf_high {n h p : Nat} (hh : h < 2 ^ n) (hp : p < 2) : onesOf (h + p * 2 ^ n) (n + 1) = p + onesOf h n := by
  have hbits := Nat.testBit_two_pow_mul_add p hh
  have hbelow : onesOf (2 ^ n * p + h) n = onesOf h n := onesOf_congr fun j hj => by rw [hbits, if_pos hj]
  rw [Nat.add_comm h, Nat.mul_comm p, onesOf, natBit_eq, hbits, if_neg (lt_irrefl n), Nat.sub_self, hbelow]
  rcases (by omega : p = 0 ∨ p = 1) with rfl | rfl <;> rfl

/-! ### What the code finds -/

theorem eccOf_checkBits (v : Nat) : eccOf v % 2048 = eccCheckBits v := by
  have := eccCheckBits_lt v
  rw [eccOf]
  omega

/-- A line as stored has an even number of ones. -/
theorem eccOf_even (v : Nat) : (onesOf v 295 + onesOf (eccOf v) 12) % 2 = 0 := by
  have hhigh := onesOf_high (p := (onesOf v 295 + onesOf (eccCheckBits v) 11) % 2) (eccCheckBits_lt v) (Nat.mod_lt _ Nat.two_pos)
  have hcode : onesOf (eccOf v) 12 = (onesOf v 295 + onesOf (eccCheckBits v) 11) % 2 + onesOf (eccCheckBits v) 11 := hhigh
  omega

theorem eccDecode_stored (l : Nat) {x : StoredLine} (he : x.ecc = eccOf (codeBits l x.ct x.tag)) : eccDecode l x = .clean := by
  unfold eccDecode
  dsimp only
  rw [he, eccOf_even, eccOf_checkBits, natXor_eq, Nat.xor_self, if_pos rfl, if_pos rfl]

/-- Data bit `i` of a stored line has changed: the code finds it. -/
theorem eccDecode_flipped {l v i : Nat} {x : StoredLine} (hv : codeBits l x.ct x.tag = v ^^^ 2 ^ i) (he : x.ecc = eccOf v) (hi : i < 276) :
    eccDecode l x = .corrected (if i < 256 then { x with ct := flipBit x.ct i } else { x with tag := x.tag ^^^ 2 ^ (i - 256) }) := by
  have hlt : i < 295 := by omega
  have hodd : ¬ (onesOf (v ^^^ 2 ^ i) 295 + onesOf (eccOf v) 12) % 2 = 0 := by
    have heven := eccOf_even v
    have hflip := onesOf_flip (v := v) hlt
    omega
  have hsynd : Nat.xor (eccCheckBits (v ^^^ 2 ^ i)) (eccOf v % 2048) = eccCol i := by
    rw [eccCheckBits_flip v hlt, eccOf_checkBits, natXor_eq, Nat.xor_comm, Nat.xor_xor_cancel_left]
  obtain ⟨hzero, hpow⟩ := eccCol_data hlt
  unfold eccDecode
  dsimp only
  rw [hv, he, hsynd, if_neg hodd, if_neg hzero, if_neg hpow, find_eccCol hlt]
  dsimp only
  split
  · rfl
  · rfl

/-- R348: one bit of ciphertext or tag that has changed is put right. -/
theorem eccDecode_corrects (l : Nat) {tag : Nat} {ct : Bytes} (hc : ct.length = 32) (ht : tag < 2 ^ 20) (i : Nat) :
    let x : StoredLine := { ct := ct, tag := tag, ecc := eccOf (codeBits l ct tag) }
    eccDecode l x = .clean
    ∧ (i < 256 → eccDecode l { x with ct := flipBit ct i } = .corrected x)
    ∧ (i < 20 → eccDecode l { x with tag := Nat.xor tag (2 ^ i) } = .corrected x) := by
  refine ⟨eccDecode_stored l rfl, fun hi => ?_, fun hi => ?_⟩
  · have hfound := eccDecode_flipped (x := ⟨flipBit ct i, tag, eccOf (codeBits l ct tag)⟩) (codeBits_flipBit l hc ht hi) rfl (by omega)
    rwa [if_pos hi, flipBit_twice] at hfound
  · have hfound := eccDecode_flipped (x := ⟨ct, tag ^^^ 2 ^ i, eccOf (codeBits l ct tag)⟩) (codeBits_flipTag l hc ht hi) rfl (by omega)
    rwa [if_neg (by omega), Nat.add_sub_cancel_left, Nat.xor_xor_cancel_right] at hfound

/-- Settles O16: counter mode twice is the text; the code of a line by the columns of its bits. -/
theorem whatIsStoredReadsBack : Obligations.WhatIsStoredReadsBack := by
  unfold Obligations.WhatIsStoredReadsBack
  exact ⟨fun _ _ aad p hkey hiv => gcmDec_gcmEnc aad p hkey hiv, fun _ r c l major minor _ hkey hp => openLine_sealLine r c l major minor hkey hp,
    fun l _ i _ hc ht => eccDecode_corrects l hc ht i⟩

end Sys2Proof.Machine
end

section
/-! Line key numbers (chapter 4): registers that only hosts write, single LKNs, keys that are done with and keys that take effect. -/

namespace Sys2Proof.Machine

variable {s t u v : State}

/-! ### Registers that only host accesses and resets write -/

/-- What is filtered out below or above a key does not change what the key reads as. -/
theorem tget_filter {α : Type} (d : α) {k : Nat} {q : Nat × α → Bool} (hq : ∀ v, q (k, v) = true) :
    ∀ {t : Tbl α}, tsorted t = true → tget d (t.filter q) k = tget d t k
  | [], _ => rfl
  | (j, w) :: t, h => by
    obtain ⟨habove, ht⟩ := (tsorted_cons j w t).mp h
    have hrest : tget d (t.filter q) k = tget d t k := tget_filter d hq ht
    rw [List.filter_cons]
    by_cases hjk : j = k
    · subst hjk
      rw [if_pos (hq w), tget, tget, if_pos rfl, if_pos rfl]
    · rw [tget, if_neg hjk]
      split
      · rw [tget, if_neg hjk, hrest]
      · rw [hrest]
        split
        · next hkj => exact tget_above d k t fun e he => hkj.trans (habove e he)
        · rfl

/-- A setting reads as before wherever settings are left alone. -/
theorem Only.reg {ps : List Area} (h : Only ps s t) (hc : s.canonical = true) (hs : ps.contains .settings = false)
    (hn : ps.contains .canon = false) (ho : ps.contains .otp = false) {a : Nat} (ha : isStatus a = false) : t.reg a = s.reg a := by
  have hsorted : ∀ {x : State}, x.canonical = true → tsorted x.regs = true := fun hx => by
    simp only [State.canonical, twf, Bool.and_eq_true] at hx
    obtain ⟨⟨hregs, -⟩, -⟩ := hx
    exact hregs
  have hotp : t.otp = s.otp := h .otp ho
  have hkept : t.regs.filter (fun e => !isStatus e.1) = s.regs.filter (fun e => !isStatus e.1) := h .settings hs
  have hq : (!isStatus a) = true := by rw [ha]; rfl
  have hread : ∀ {x : State}, x.canonical = true → ∀ d, tget d (x.regs.filter fun e => !isStatus e.1) a = tget d x.regs a :=
    fun hx d => tget_filter d (q := fun e => !isStatus e.1) (fun _ => hq) (hsorted hx)
  unfold State.reg
  rw [hotp, ← hread (h .canon hn hc), hkept, hread hc]

theorem isStatus_lci0 (m : Fin 4) : isStatus (Reg.lci m 0) = false := by revert m; decide

/-! ### One LKN -/

theorem State.lkn_modLkn_ne (s : State) (m : Fin 4) {k j : Fin 4} (f : Lkn → Lkn) (h : k ≠ j) : (s.modLkn m k f).lkn m j = s.lkn m j := by
  unfold State.lkn State.modLkn
  rw [State.lci_modLci]
  exact Vector.getElem_set_ne k.isLt j.isLt fun e => h (Fin.ext e)

theorem State.lkn_of_lci {m : Fin 4} (h : t.lci m = s.lci m) (k : Fin 4) : t.lkn m k = s.lkn m k := by unfold State.lkn; rw [h]

theorem State.lkn_of_mills (h : t.mills = s.mills) (m k : Fin 4) : t.lkn m k = s.lkn m k := State.lkn_of_lci (State.lci_of_mills h m) k

/-- The arm and the ream named by it are no part of an LKN. -/
theorem State.lkn_modLci (s : State) (m k : Fin 4) {f : Lci → Lci} (hf : ∀ x, (f x).lkn = x.lkn) : (s.modLci m f).lkn m k = s.lkn m k := by
  unfold State.lkn
  rw [State.lci_modLci, hf]

/-- Telling the standby of an LKN or of the arm leaves mills and rings. -/
theorem State.lknDelta_keeps (s : State) (m k : Fin 4) (ream : Option W32) :
    s.SamePages (s.lknDelta m k ream).1 ∧ (s.lknDelta m k ream).1.cur = s.cur := s.delta_samePages ..

theorem State.armDelta_keeps (s : State) (m : Fin 4) (ream : Option W32) :
    s.SamePages (s.armDelta m ream).1 ∧ (s.armDelta m ream).1.cur = s.cur := s.delta_samePages ..

/-! ### A key is done with (Table 4-2) -/

theorem State.endHalts_records (st : Nat) (n : Option W32) : ∀ (hs : List CmdRef) (s : State), ∀ h ∈ hs, s.Records (s.endHalts st n hs) h st
  | [], _, _, hh => absurd hh List.not_mem_nil
  | x :: hs, s, h, hh => by
    rw [State.endHalts]
    rcases List.mem_cons.mp hh with rfl | hh
    · exact .stay (s.complete_records h st 0 false false n) (State.endHalts_owes st n hs _).done
    · exact (s.complete_owes ..).records (State.endHalts_records st n hs _ h hh)

/-- The halts of a key that is done with are DONE. -/
theorem State.txDone_records (s : State) (m k : Fin 4) (ream : Option W32) : ∀ h ∈ (s.lkn m k).halts, s.Records (s.txDone m k ream) h 0 := by
  intro h hh
  have hempty : (s.lkn m k).halts.isEmpty = false := by
    cases hs : (s.lkn m k).halts with
    | nil => rw [hs] at hh; exact absurd hh List.not_mem_nil
    | cons => rfl
  have hend : s.Owes (((s.keyDone m k).lknDelta m k ream).1.countMill m 1 12 0) :=
    (s.modLkn_owes ..).trans ((State.lknDelta_owes ..).trans (State.countMill_owes ..))
  have hdone : s.txDone m k ream = (((s.keyDone m k).lknDelta m k ream).1.countMill m 1 12 0).endHalts 0
      ((s.keyDone m k).lknDelta m k ream).2 (s.lkn m k).halts := by
    unfold State.txDone
    dsimp only
    rw [hempty]
    rfl
  rw [hdone]
  exact hend.records (State.endHalts_records 0 _ _ _ h hh)

theorem State.txDone_lkn (s : State) (m k : Fin 4) (ream : Option W32) :
    (s.txDone m k ream).lkn m k = { s.lkn m k with tx := .done, halts := [] } :=
  (State.lkn_of_mills (s.txDone_blocks m k ream).2 m k).trans (s.lkn_modLkn ..)

/-! ### A key takes effect (R123, R130) -/

/-- The state in which the former key, if any, is done with. -/
def State.keyFreed (s : State) (m : Fin 4) (ream : Option W32) : State :=
  match (s.lci m).current with
  | some k => s.txDone m k ream
  | none => s

/-- The state in which the armed LKN has become the current one. -/
def State.keyTaken (s : State) (m : Fin 4) (a : KeyArm) (rc : W32) : State :=
  (s.modLkn m a.lkn fun x => { x with tx := .current }).modLci m fun x => { x with arm := none, armRc := rc }

/-- The state in which the standby has been told of the LKN and of the arm. -/
def State.keyTold (s : State) (m k : Fin 4) (ream : Option W32) : State := ((s.lknDelta m k ream).1.armDelta m ream).1

theorem State.keyTold_keeps (s : State) (m k : Fin 4) (ream : Option W32) :
    s.SamePages (s.keyTold m k ream) ∧ (s.keyTold m k ream).cur = s.cur := by
  obtain ⟨hlkn, hcur⟩ := s.lknDelta_keeps m k ream
  obtain ⟨harm, hcur'⟩ := (s.lknDelta m k ream).1.armDelta_keeps m ream
  exact ⟨hlkn.trans harm, hcur'.trans hcur⟩

theorem State.keyChange_eq (s : State) (m : Fin 4) (a : KeyArm) (rc : W32) (ream : Option W32) :
    ∃ n, s.keyChange m a rc ream = (((s.keyFreed m ream).keyTaken m a rc).keyTold m a.lkn ream).completeOpt a.ref 0 rc.toNat a.late n :=
  ⟨_, rfl⟩

theorem State.keyFreed_done (s : State) (m : Fin 4) (ream : Option W32) {j : Fin 4} (h : (s.lci m).current = some j) :
    ((s.keyFreed m ream).lkn m j).tx = .done := by
  rw [State.keyFreed, h]
  exact congrArg Lkn.tx (s.txDone_lkn m j ream)

theorem State.keyFreed_owes (s : State) (m : Fin 4) (ream : Option W32) : s.Owes (s.keyFreed m ream) := by
  unfold State.keyFreed
  split
  · exact s.txDone_owes ..
  · exact .refl s

theorem State.keyTaken_lci (s : State) (m : Fin 4) (a : KeyArm) (rc : W32) :
    ((s.keyTaken m a rc).lci m).arm = none ∧ ((s.keyTaken m a rc).lci m).armRc = rc
    ∧ ((s.keyTaken m a rc).lkn m a.lkn).tx = .current ∧ ∀ j, a.lkn ≠ j → (s.keyTaken m a rc).lkn m j = s.lkn m j := by
  have hlkn : ∀ j, (s.keyTaken m a rc).lkn m j = (s.modLkn m a.lkn fun x => { x with tx := .current }).lkn m j := fun j =>
    State.lkn_modLci _ m j fun _ => rfl
  have hlci : (s.keyTaken m a rc).lci m = { (s.modLkn m a.lkn fun x => { x with tx := .current }).lci m with arm := none, armRc := rc } :=
    State.lci_modLci ..
  rw [hlci, hlkn, State.lkn_modLkn]
  exact ⟨rfl, rfl, rfl, fun j hj => (hlkn j).trans (s.lkn_modLkn_ne m _ hj)⟩

/-- R123: the armed LKN is the current one, the former one is done with, and the arm is DONE. -/
theorem State.keyChange_changes (s : State) (m : Fin 4) (a : KeyArm) (rc : W32) (ream : Option W32) :
    ((s.keyChange m a rc ream).lkn m a.lkn).tx = .current ∧ ((s.keyChange m a rc ream).lci m).arm = none
    ∧ ((s.keyChange m a rc ream).lci m).armRc = rc
    ∧ (∀ j, j ≠ a.lkn → (s.lci m).current = some j → ((s.keyChange m a rc ream).lkn m j).tx = .done)
    ∧ ∀ q, a.ref = some q → s.Records (s.keyChange m a rc ream) q 0 rc.toNat a.late := by
  obtain ⟨n, h⟩ := s.keyChange_eq m a rc ream
  obtain ⟨harm, hrc, htx, hothers⟩ := (s.keyFreed m ream).keyTaken_lci m a rc
  obtain ⟨htold, hcur⟩ := ((s.keyFreed m ream).keyTaken m a rc).keyTold_keeps m a.lkn ream
  have hmills : (s.keyChange m a rc ream).mills = ((s.keyFreed m ream).keyTaken m a rc).mills := by
    rw [h]
    exact (State.completeOpt_samePath ..).mills.trans htold.mills
  rw [State.lci_of_mills hmills, State.lkn_of_mills hmills]
  refine ⟨htx, harm, hrc, fun j hj hk => ?_, fun q hq => ?_⟩
  · rw [State.lkn_of_mills hmills, hothers j hj.symm]
    exact s.keyFreed_done m ream hk
  · rw [h]
    exact ((s.keyFreed_owes m ream).trans (.of_cur hcur)).records (State.completeOpt_records _ hq _ _ _ _)

end Sys2Proof.Machine
end

section
/-! The change of a line key (R123, R130, R131, R144): arms at once or for a ream, CANCEL, HALT, and the ream that begins. -/

namespace Sys2Proof.Machine

variable {s t u v : State} {r : Rid} {d : Desc}

/-! ### What the checks read is on the path -/

theorem State.SamePath.checkLkarmArm (h : s.SamePath t) (m : Fin 4) (d : Desc) : checkLkarmArm t m d = checkLkarmArm s m d := by
  obtain ⟨_, _, _, _, _, _, rfl⟩ := h
  rfl

theorem State.SamePath.txEn (h : s.SamePath t) (m : Fin 4) : t.txEn m = s.txEn m := h.samePages.bit _ _

theorem State.SamePath.lkn (h : s.SamePath t) (m k : Fin 4) : t.lkn m k = s.lkn m k := State.lkn_of_mills h.mills m k

theorem State.SamePath.lci (h : s.SamePath t) (m : Fin 4) : t.lci m = s.lci m := State.lci_of_mills h.mills m

theorem State.accept_owes (s : State) (ref : CmdRef) : s.Owes (s.accept ref) := s.modEng_owes ref.rid.eng fun _ => rfl

/-! ### Arms (R130, R131) -/

/-- The arm that an instruction asks for. -/
def keyArm (d : Desc) (ref : CmdRef) (time : Option Nat) (late : Bool) : KeyArm := { lkn := lkOf d, ref := some ref, time := time, late := late }

theorem State.armKey_idle {m : Fin 4} (htx : s.txEn m = false) (d : Desc) (ref : CmdRef) (time : Option Nat) (rcK : W32) (late : Bool) :
    s.armKey m d ref time rcK late = (s.accept ref).keyChange m (keyArm d ref time false) 0 := by
  unfold State.armKey
  dsimp only
  rw [htx, if_pos (by rfl)]
  rfl

/-- The state in which an accepted arm waits for its ream. -/
def State.keyArmed (s : State) (m : Fin 4) (a : KeyArm) (rcK : W32) : State :=
  (s.modLkn m a.lkn fun x => { x with tx := .armed }).modLci m fun x => { x with arm := some a, armRc := rcK }

theorem State.keyArmed_lci (s : State) (m : Fin 4) (a : KeyArm) (rcK : W32) :
    ((s.keyArmed m a rcK).lci m).arm = some a ∧ ((s.keyArmed m a rcK).lci m).armRc = rcK
    ∧ (s.keyArmed m a rcK).lkn m a.lkn = { s.lkn m a.lkn with tx := .armed } := by
  have hlci : (s.keyArmed m a rcK).lci m = { (s.modLkn m a.lkn fun x => { x with tx := .armed }).lci m with arm := some a, armRc := rcK } :=
    State.lci_modLci ..
  have hlkn : (s.keyArmed m a rcK).lkn m a.lkn = (s.modLkn m a.lkn fun x => { x with tx := .armed }).lkn m a.lkn :=
    State.lkn_modLci _ m a.lkn fun _ => rfl
  rw [hlci, hlkn, State.lkn_modLkn]
  exact ⟨rfl, rfl, rfl⟩

/-- An arm that waits is noted, counted where it is late, and told to the standby. -/
theorem State.armKey_waits {m : Fin 4} (htx : s.txEn m = true) (d : Desc) (ref : CmdRef) (time : Option Nat) (rcK : W32) (late : Bool) :
    (s.armKey m d ref time rcK late).cur = (s.accept ref).cur
    ∧ (s.armKey m d ref time rcK late).mills = (s.keyArmed m (keyArm d ref time late) rcK).mills := by
  have htold : ∀ w : State, (w.keyTold m (lkOf d) none).cur = w.cur ∧ (w.keyTold m (lkOf d) none).mills = w.mills := fun w => by
    obtain ⟨hsame, hcur⟩ := w.keyTold_keeps m (lkOf d) none
    exact ⟨hcur, hsame.mills⟩
  have heq : s.armKey m d ref time rcK late =
      (if late then ((((s.accept ref).keyArmed m (keyArm d ref time late) rcK).setBit (Reg.lci m 4) 7).countMill m 1 10 0)
        else (s.accept ref).keyArmed m (keyArm d ref time late) rcK).keyTold m (lkOf d) none := by
    unfold State.armKey
    dsimp only
    rw [htx]
    rfl
  rw [heq]
  obtain ⟨hcur, hmills⟩ := htold (if late then ((((s.accept ref).keyArmed m (keyArm d ref time late) rcK).setBit (Reg.lci m 4) 7).countMill m 1 10 0)
    else (s.accept ref).keyArmed m (keyArm d ref time late) rcK)
  rw [hcur, hmills]
  have haccept : ((s.accept ref).keyArmed m (keyArm d ref time late) rcK).mills = (s.keyArmed m (keyArm d ref time late) rcK).mills := rfl
  cases late with
  | false => exact ⟨rfl, haccept⟩
  | true => exact ⟨rfl, haccept⟩

section
variable {i : Instr} {op : Nat → Bool} {run : State → Desc → CmdRef → State} {time : Option Nat} {rcK : W32} {late : Bool}
  (hx : exec i s = s.issue r 0x18 op run) (ht : s.Takes r 0x18 op d)
  (hrun : run (s.pop r) d (d.ref r) = (s.pop r).armKey r.eng d (d.ref r) time rcK late)
include hx ht hrun

/-- While TX_EN is 0 an arm takes effect at once. -/
theorem completes_armKey_idle (htx : s.txEn r.eng = false) : Completes i s fun u => s.Records u (d.ref r) 0
    ∧ (u.lkn r.eng (lkOf d)).tx = .current ∧ (u.lci r.eng).arm = none
    ∧ ∀ j, j ≠ lkOf d → (s.lci r.eng).current = some j → (u.lkn r.eng j).tx = .done := by
  have hpop := (s.pop_samePath r).trans ((s.pop r).accept_samePath (d.ref r))
  obtain ⟨htaken, harm, -, hformer, hrec⟩ := ((s.pop r).accept (d.ref r)).keyChange_changes r.eng (keyArm d (d.ref r) time false) 0 none
  refine completes_issue hx ht fun u hu => ?_
  rw [hrun, State.armKey_idle (by rw [(s.pop_samePath r).txEn, htx])] at hu
  rw [hu.path.lci, hu.path.lkn]
  refine ⟨.stay (((s.pop_owes r).trans (State.accept_owes ..)).records (hrec _ rfl)) hu.done, htaken, harm, fun j hj hk => ?_⟩
  rw [hu.path.lkn]
  exact hformer j hj (by rw [hpop.lci, hk])

/-- Otherwise it waits for its ream. -/
theorem completes_armKey_waits (htx : s.txEn r.eng = true) : Completes i s fun u => u.Pends (d.ref r)
    ∧ u.lkn r.eng (lkOf d) = { s.lkn r.eng (lkOf d) with tx := .armed }
    ∧ (u.lci r.eng).arm = some (keyArm d (d.ref r) time late) ∧ (u.lci r.eng).armRc = rcK := by
  have hpop := s.pop_samePath r
  obtain ⟨hcur, hmills⟩ := State.armKey_waits (s := s.pop r) (m := r.eng) (by rw [hpop.txEn, htx]) d (d.ref r) time rcK late
  obtain ⟨harm, hrc, hlkn⟩ := (s.pop r).keyArmed_lci r.eng (keyArm d (d.ref r) time late) rcK
  refine completes_issue hx ht fun u hu => ?_
  rw [hrun] at hu
  have hall := hu.path.mills.trans hmills
  rw [State.lci_of_mills hall, State.lkn_of_mills hall]
  refine ⟨?_, hlkn.trans (by rw [hpop.lkn]; rfl), harm, hrc⟩
  unfold State.Pends
  rw [hu.outst, hcur]
  exact State.accept_outst _ (d.ref r)

end

/-- The ream that an arm by ream names is past, or the one in progress. -/
def State.reamLate (s : State) (m : Fin 4) (d : Desc) : Bool :=
  decide ((d.arg 0 4 + 2 ^ 32 - (s.line m).rc.toNat) % 2 ^ 32 = 0) || decide (2 ^ 31 ≤ (d.arg 0 4 + 2 ^ 32 - (s.line m).rc.toNat) % 2 ^ 32)

/-- The ream at which an arm by ream takes effect. -/
def State.armTarget (s : State) (m : Fin 4) (d : Desc) : W32 :=
  if s.reamLate m d then BitVec.ofNat 32 ((s.line m).rc.toNat + 1) else BitVec.ofNat 32 (d.arg 0 4)

theorem State.runArmReam_arms (hc : checkLkarmArm s r.eng d = none) : (s.pop r).runArmReam d (d.ref r) =
    (s.pop r).armKey r.eng d (d.ref r) none (s.armTarget r.eng d) (s.reamLate r.eng d) := by
  have hline : (s.pop r).line r.eng = s.line r.eng := State.line_of_mills (s.pop_samePath r).mills _
  unfold State.runArmReam
  dsimp only
  rw [show (d.ref r).rid.eng = r.eng from rfl, (s.pop_samePath r).checkLkarmArm, hc, hline]
  rfl

theorem State.runArmTime_arms {t : Nat} (hd : d.time = some t) (hc : checkLkarmArm s r.eng d = none) (hb : s.tbRun (s.lciTb r.eng) = true) :
    (s.pop r).runArmTime d (d.ref r) =
    (s.pop r).armKey r.eng d (d.ref r) (some t) 0 (decide (t ≤ (s.tbAt (s.lciTb r.eng)).val)) := by
  have hrun : (s.pop r).tbRun ((s.pop r).lciTb r.eng) = true := hb
  unfold State.runArmTime
  dsimp only
  rw [show (d.ref r).rid.eng = r.eng from rfl, hd, (s.pop_samePath r).checkLkarmArm, hc]
  dsimp only
  rw [hrun]
  rfl

/-! ### CANCEL -/

theorem State.disarm_cancels {m : Fin 4} {a : KeyArm} (ha : (s.lci m).arm = some a) (st : Nat) :
    ((s.disarm m st).lci m).arm = none ∧ (s.disarm m st).lkn m a.lkn = { s.lkn m a.lkn with tx := .idle }
    ∧ (∀ k : Fin 4, (s.disarm m st).cur[k].applying = s.cur[k].applying)
    ∧ s.Owes (s.disarm m st) ∧ (∀ q, a.ref = some q → s.Records (s.disarm m st) q st)
    ∧ (s.disarm m st).regs = s.regs ∧ ∀ m', m ≠ m' → (s.disarm m st).lci m' = s.lci m' := by
  obtain ⟨n, h⟩ : ∃ n, s.disarm m st = (s.takenBack m a).completeOpt a.ref st 0 false n := by
    unfold State.disarm
    rw [ha]
    exact ⟨_, rfl⟩
  obtain ⟨hregs, hcur, hmills⟩ := s.takenBack_blocks m a
  have hpath := (s.takenBack m a).completeOpt_samePath a.ref st 0 false n
  have hall := hpath.mills.trans hmills
  have hlci : ((s.takenBack m a).completeOpt a.ref st 0 false n).lci m =
      { (s.modLkn m a.lkn fun x => { x with tx := .idle }).lci m with arm := none } := (State.lci_of_mills hall m).trans (State.lci_modLci ..)
  have happ : ∀ k : Fin 4, ((s.takenBack m a).completeOpt a.ref st 0 false n).cur[k].applying = s.cur[k].applying := fun k => by
    cases a.ref with
    | none => exact congrArg (fun x : Vector Engine 4 => x[k].applying) hcur
    | some q => exact ((s.takenBack m a).complete_applying ..).trans (congrArg (fun x : Vector Engine 4 => x[k].applying) hcur)
  rw [h]
  refine ⟨by rw [hlci], ?_, happ, (State.Owes.of_cur hcur).trans (State.completeOpt_owes ..),
    fun q hq => (State.Owes.of_cur hcur).records (State.completeOpt_records _ hq _ _ _ _), hpath.regs.trans hregs, fun m' hm => ?_⟩
  · exact (congrArg (fun x : Lci => x.lkn[a.lkn]) hlci).trans (s.lkn_modLkn ..)
  · rw [State.lci_of_mills hall, State.lci_modLci_ne _ _ _ _ hm]
    exact State.lci_modLci_ne _ _ _ _ hm

theorem checkLkarmCancel_passes (hl : (s.lkn r.eng (lkOf d)).loaded = true)
    (htx : (s.lkn r.eng (lkOf d)).tx = .idle ∨ (s.lkn r.eng (lkOf d)).tx = .armed) : checkLkarmCancel (s.pop r) r.eng d = none := by
  unfold checkLkarmCancel
  dsimp only
  rw [(s.pop_samePath r).lkn, hl]
  rcases htx with h | h <;> rw [h] <;> rfl

theorem lkarmCancel_idle (ht : s.Takes r 0x18 (· = 5) d) (hl : (s.lkn r.eng (lkOf d)).loaded = true)
    (htx : (s.lkn r.eng (lkOf d)).tx = .idle) : Completes (.lkarmCancel r) s fun u => s.Applies u r d ∧ u.mills = s.mills := by
  have happly : applyLkarmCancel (s.pop r) r.eng d = { s := s.pop r } := by
    unfold applyLkarmCancel
    rw [(s.pop_samePath r).lkn, htx]
    rfl
  have h := completes_apply (chk := checkLkarmCancel) (eff := applyLkarmCancel) (i := .lkarmCancel r) (P := fun u => u.mills = s.mills) rfl ht
    (checkLkarmCancel_passes hl (.inl htx)) (by rw [happly]) fun u hu => by
      rw [happly] at hu
      exact hu.mills.trans (s.pop_samePath r).mills
  rwa [happly] at h

/-- Another arm is DONE with CANCELLED, and its LKN may be armed again. -/
theorem lkarmCancel_cancels {a : KeyArm} (ht : s.Takes r 0x18 (· = 5) d) (hl : (s.lkn r.eng (lkOf d)).loaded = true)
    (htx : (s.lkn r.eng (lkOf d)).tx = .armed) (ha : (s.lci r.eng).arm = some a) (hk : a.lkn = lkOf d) :
    Completes (.lkarmCancel r) s fun u => s.Applies u r d ∧ (u.lci r.eng).arm = none
      ∧ u.lkn r.eng (lkOf d) = { s.lkn r.eng (lkOf d) with tx := .idle } ∧ ∀ q, a.ref = some q → s.Records u q 1 := by
  have hpop := s.pop_samePath r
  obtain ⟨harm, hlkn, happ, -, hrec, -⟩ := State.disarm_cancels (s := s.pop r) (m := r.eng) (by rw [hpop.lci, ha]) 1
  have heff : (applyLkarmCancel (s.pop r) r.eng d).s = (s.pop r).disarm r.eng 1 ∧ (applyLkarmCancel (s.pop r) r.eng d).result = 0
      ∧ (applyLkarmCancel (s.pop r) r.eng d).late = false := by
    unfold applyLkarmCancel
    rw [hpop.lkn, htx]
    exact ⟨rfl, rfl, rfl⟩
  obtain ⟨hs, hres, hlate⟩ := heff
  have hrun : State.doApply checkLkarmCancel applyLkarmCancel (s.pop r) d (d.ref r)
      = ((s.pop r).disarm r.eng 1).applyNow (d.ref r) 0 false (applyLkarmCancel (s.pop r) r.eng d).dseq := by
    unfold State.doApply
    rw [show (d.ref r).rid.eng = r.eng from rfl, checkLkarmCancel_passes hl (.inr htx), ← hs, ← hres, ← hlate]
  refine completes_issue rfl ht fun u hu => ?_
  rw [hrun] at hu
  have hpath := (State.applyNow_samePath _ (d.ref r) 0 false (applyLkarmCancel (s.pop r) r.eng d).dseq).trans hu.path
  have howes : ((s.pop r).disarm r.eng 1).Owes (((s.pop r).disarm r.eng 1).applyNow (d.ref r) 0 false (applyLkarmCancel (s.pop r) r.eng d).dseq) :=
    (State.accept_owes ..).trans (State.modEng_owes _ (d.ref r).rid.eng fun _ => rfl)
  refine ⟨⟨(applyLkarmCancel (s.pop r) r.eng d).dseq, ?_⟩, by rw [hpath.lci, harm], ?_,
    fun q hq => .stay (.stay ((s.pop_owes r).records (hrec q hq)) howes.done) hu.done⟩
  · rw [hu.applying, ← (s.pop_drains r).applying, ← happ]
    exact State.applyNow_applying _ (d.ref r) ..
  · rw [hpath.lkn, ← hk, hlkn, hpop.lkn]

/-! ### HALT (R144) -/

/-- The state in which the HALT has joined the current key. -/
def State.haltMarked (s : State) (m k : Fin 4) (ref : CmdRef) : State := (s.accept ref).modLkn m k fun x => { x with halts := x.halts ++ [ref] }

theorem State.runHalt_marks {m k : Fin 4} {ref : CmdRef} (hm : ref.rid.eng = m) (hk : lkOf d = k) (hl : (s.lkn m k).loaded = true)
    (htx : (s.lkn m k).tx = .current) :
    s.runHalt d ref = if s.txEn m then s.haltMarked m k ref else (s.haltMarked m k ref).txDone m k := by
  subst hm hk
  unfold State.runHalt
  dsimp only
  rw [hl, htx]
  rfl

theorem lkarmHalt_completes (ht : s.Takes r 0x18 (· = 7) d) (hl : (s.lkn r.eng (lkOf d)).loaded = true)
    (htx : (s.lkn r.eng (lkOf d)).tx = .current) : Completes (.lkarmHalt r) s fun u =>
      (s.txEn r.eng = true → u.Pends (d.ref r)
        ∧ u.lkn r.eng (lkOf d) = { s.lkn r.eng (lkOf d) with halts := (s.lkn r.eng (lkOf d)).halts ++ [d.ref r] })
      ∧ (s.txEn r.eng = false → s.Records u (d.ref r) 0
        ∧ u.lkn r.eng (lkOf d) = { s.lkn r.eng (lkOf d) with tx := .done, halts := [] }) := by
  have hpop := s.pop_samePath r
  have hmarked : ((s.pop r).haltMarked r.eng (lkOf d) (d.ref r)).lkn r.eng (lkOf d)
      = { s.lkn r.eng (lkOf d) with halts := (s.lkn r.eng (lkOf d)).halts ++ [d.ref r] } := by
    rw [State.haltMarked, State.lkn_modLkn, State.SamePath.lkn (State.accept_samePath ..), hpop.lkn]
  refine completes_issue (run := State.runHalt) rfl ht fun u hu => ?_
  rw [State.runHalt_marks rfl rfl (by rw [show (d.ref r).rid.eng = r.eng from rfl, hpop.lkn, hl])
    (by rw [show (d.ref r).rid.eng = r.eng from rfl, hpop.lkn, htx]), show (d.ref r).rid.eng = r.eng from rfl, hpop.txEn] at hu
  refine ⟨fun hon => ?_, fun hoff => ?_⟩
  · rw [if_pos hon] at hu
    refine ⟨?_, by rw [hu.path.lkn, hmarked]⟩
    unfold State.Pends
    rw [hu.outst]
    exact State.accept_outst _ (d.ref r)
  · rw [if_neg (by rw [hoff]; exact Bool.false_ne_true)] at hu
    have howes : s.Owes ((s.pop r).haltMarked r.eng (lkOf d) (d.ref r)) :=
      (s.pop_owes r).trans ((State.accept_owes ..).trans (State.modLkn_owes ..))
    refine ⟨.stay (howes.records (State.txDone_records _ _ _ none _ ?_)) hu.done, ?_⟩
    · rw [hmarked]
      exact List.mem_append_right _ (List.mem_singleton_self _)
    · rw [hu.path.lkn, State.txDone_lkn, hmarked]

/-! ### A ream begins -/

/-- The arm that takes effect at the ream with count `rc`. -/
def State.keyDue (s : State) (m : Fin 4) (rc : W32) : Option KeyArm :=
  match (s.lci m).arm with
  | none => none
  | some a => match a.time with
    | none => if (s.lci m).armRc = rc then some a else none
    | some t => if a.late ∨ t ≤ (s.tbAt (s.lciTb m)).val then some a else none

theorem State.lknReam_eq (s : State) (m : Fin 4) (rc : W32) : s.lknReam m rc =
    match s.keyDue m rc with
    | some a => s.keyChange m a rc (some rc)
    | none => match (s.lci m).current with
      | some k => if (s.lkn m k).halts.isEmpty then s else s.txDone m k (some rc)
      | none => s := rfl

theorem State.lknReam_due {m : Fin 4} {rc : W32} {a : KeyArm} (h : s.keyDue m rc = some a) : s.lknReam m rc = s.keyChange m a rc (some rc) := by
  rw [State.lknReam_eq, h]

theorem State.keyDue_unarmed {m : Fin 4} (h : (s.lci m).arm = none) (rc : W32) : s.keyDue m rc = none := by
  unfold State.keyDue
  rw [h]

theorem State.keyDue_armed {m : Fin 4} {a : KeyArm} (h : (s.lci m).arm = some a) {rc : W32}
    (hd : (a.time = none ∧ (s.lci m).armRc = rc) ∨ ∃ t, a.time = some t ∧ (a.late = true ∨ t ≤ (s.tbAt (s.lciTb m)).val)) :
    s.keyDue m rc = some a := by
  unfold State.keyDue
  rw [h]
  dsimp only
  rcases hd with ⟨ht, hrc⟩ | ⟨t, ht, hpast⟩
  · rw [ht]
    exact if_pos hrc
  · rw [ht]
    exact if_pos hpast

/-- Without an arm a marked halt takes effect. -/
theorem State.lknReam_unarmed {m : Fin 4} {rc : W32} (h : s.keyDue m rc = none) : s.lknReam m rc =
    match (s.lci m).current with
    | some k => if (s.lkn m k).halts.isEmpty then s else s.txDone m k (some rc)
    | none => s := by
  rw [State.lknReam_eq, h]

theorem State.dklReam_owes (s : State) (m : Fin 4) (rc : W32) : s.Owes (s.dklReam m rc) := by
  have hmod : ∀ f : Deckle → Deckle, s.Owes (s.modDkl m f) := fun f => .of_cur rfl
  unfold State.dklReam
  split
  · exact .refl s
  · next a _ =>
    dsimp only
    split
    · exact hmod _
    · split
      · exact hmod _
      · split
        · refine .trans ?_ ((State.completeOpt_owes ..).trans (.of_cur (State.autoRestore_blocks ..).2))
          exact .of_cur ((State.pageArmDelta_samePages ..).2.trans (State.flipEffect_cur ..))
        · exact .refl s

/-- The state in which a ream boundary finds the line keys. -/
def State.reamKeys (s : State) (m : Fin 4) : State := (s.reamSet m).dklReam m (s.nextRc m)

theorem State.reamKeys_only (s : State) (m : Fin 4) :
    Only [.out, .status, .counts, .evrQueue, .tim, .line, .dkl, .cur, .lanes, .mte] s (s.reamKeys m) :=
  State.dklReam_only (State.reamSettings_only (State.modLine_only (Only.refl s) m _ rfl) m rfl) m (s.nextRc m) rfl

/-- A ream boundary finds the line keys, their time and their records as they were. -/
theorem State.reamKeys_keeps (hc : s.canonical = true) (m : Fin 4) : (s.reamKeys m).lci m = s.lci m
    ∧ (s.reamKeys m).tbAt ((s.reamKeys m).lciTb m) = s.tbAt (s.lciTb m) ∧ s.Owes (s.reamKeys m) := by
  have honly := s.reamKeys_only m
  have htb : (s.reamKeys m).lciTb m = s.lciTb m := by
    have hreg := honly.reg hc rfl rfl rfl (isStatus_lci0 m)
    unfold State.lciTb State.fld
    simp only [hreg]
  obtain ⟨-, -, -, hcur⟩ := s.reamSet_keeps m
  refine ⟨honly .lci rfl m, ?_, (State.Owes.of_cur hcur).trans (State.dklReam_owes ..)⟩
  rw [htb]
  exact congrArg (fun x : Vector TimeBase 8 => x[s.lciTb m]) (honly .timeBases rfl)

/-- What follows at the boundary leaves the line keys and the rings. -/
theorem State.reamEnd_keys (s : State) (m : Fin 4) :
    ((laneAfter s (s.reamBegin m) (lineLane m 0)).mateLook.settle).lci m = ((s.reamKeys m).lknReam m (s.nextRc m)).lci m
    ∧ ((s.reamKeys m).lknReam m (s.nextRc m)).Owes ((laneAfter s (s.reamBegin m) (lineLane m 0)).mateLook.settle) := by
  have hline := s.reamBegin_only_line m
  have hlanes := laneAfter_only (ps := [.out, .status, .counts, .evrQueue, .tim, .line, .lanes, .felt, .mte]) (Only.refl (s.reamBegin m)) s
    (lineLane m 0) rfl
  exact ⟨((State.lci_of_mills (State.mateEnd_mills _) m).trans (hlanes .lci rfl m)).trans (hline .lci rfl m),
    .of_cur ((State.reamEnd_keeps s (s.reamBegin m) m).2.trans (hline .cur rfl))⟩

theorem reamBegin_keys {m : Fin 4} (hc : s.canonical = true) (hruns : s.framerRuns m = true) (hout : (s.line m).inReam = false) :
    Completes (.reamBegin m) s fun u =>
        (∀ a, (s.lci m).arm = some a → (a.time = none ∧ (s.lci m).armRc = s.nextRc m)
            ∨ (∃ t, a.time = some t ∧ (a.late = true ∨ t ≤ (s.tbAt (s.lciTb m)).val)) →
          (u.lkn m a.lkn).tx = .current ∧ (u.lci m).arm = none ∧ (u.lci m).armRc = s.nextRc m
          ∧ ∀ q, a.ref = some q → s.Records u q 0 (s.nextRc m).toNat a.late)
        ∧ (∀ k, (s.lci m).arm = none → (s.lci m).current = some k → (s.lkn m k).halts ≠ [] →
          (u.lkn m k) = { s.lkn m k with tx := .done, halts := [] } ∧ ∀ h ∈ (s.lkn m k).halts, s.Records u h 0)
        ∧ ((s.lci m).arm = none → (∀ k, (s.lkn m k).halts = []) → u.lci m = s.lci m) := by
  obtain ⟨hlci, htime, howes⟩ := State.reamKeys_keeps hc m
  obtain ⟨hend, hkept⟩ := s.reamEnd_keys m
  have hlkn := State.lkn_of_lci hlci
  rw [← hlci, ← htime]
  refine completes_finish (exec_reamBegin hruns hout) ⟨fun a ha hdue => ?_, fun k harm hcur hhalts => ?_, fun harm hhalts => ?_⟩
  · obtain ⟨htx, hnone, hrc, -, hrec⟩ := (s.reamKeys m).keyChange_changes m a (s.nextRc m) (some (s.nextRc m))
    have hream := State.lknReam_due (State.keyDue_armed ha hdue)
    rw [hream] at hend hkept
    rw [State.lkn_of_lci hend, hend]
    exact ⟨htx, hnone, hrc, fun q hq => .stay (howes.records (hrec q hq)) hkept.done⟩
  · have hream := State.lknReam_unarmed (rc := s.nextRc m) (State.keyDue_unarmed harm _)
    rw [hcur] at hream
    dsimp only at hream
    rw [← hlkn] at hhalts ⊢
    rw [if_neg (by rwa [List.isEmpty_iff])] at hream
    rw [hream] at hend hkept
    rw [State.lkn_of_lci hend, State.txDone_lkn]
    exact ⟨rfl, fun h hh => .stay (howes.records (State.txDone_records _ m k _ h hh)) hkept.done⟩
  · have hream := State.lknReam_unarmed (rc := s.nextRc m) (State.keyDue_unarmed harm _)
    have hempty : ∀ k, ((s.reamKeys m).lkn m k).halts.isEmpty = true := fun k => by rw [hlkn, hhalts]; rfl
    simp only [hempty, if_true] at hream
    rw [hend, hream]
    split <;> rfl

/-- Settles O49: each instruction, and the ream boundary, by its lemma. -/
theorem lineKeysChange : Obligations.LineKeysChange := by
  unfold Obligations.LineKeysChange
  refine fun s => ⟨fun r d => ⟨fun ht hc => ?_, fun t ht hd hc hb => ?_, lkarmCancel_idle, fun a => lkarmCancel_cancels, lkarmHalt_completes⟩,
    fun m hc hruns hout => reamBegin_keys hc hruns hout⟩
  · have hrun := State.runArmReam_arms hc
    refine ⟨completes_armKey_idle rfl ht hrun, fun htx => ?_⟩
    have hlate : s.reamLate r.eng d = decide ((d.arg 0 4 + 2 ^ 32 - (s.line r.eng).rc.toNat) % 2 ^ 32 = 0
        ∨ 2 ^ 31 ≤ (d.arg 0 4 + 2 ^ 32 - (s.line r.eng).rc.toNat) % 2 ^ 32) := (Bool.decide_or ..).symm
    have h := completes_armKey_waits (i := .lkarmArmReam r) rfl ht hrun htx
    unfold State.armTarget at h
    rwa [hlate] at h
  · have hrun := State.runArmTime_arms hd hc hb
    exact ⟨completes_armKey_idle rfl ht hrun, fun htx => (completes_armKey_waits (i := .lkarmArmTime r) rfl ht hrun htx).mono
      fun u ⟨hpends, hlkn, harm, _⟩ => ⟨hpends, hlkn, harm⟩⟩

end Sys2Proof.Machine
end

section
/-! Time bases (R267, R268, R271-R274, R130): the servo's settings and offsets, arms lost where a base stops, and a read of a time. -/

namespace Sys2Proof.Machine

variable {s t u v : State} {r : Rid} {d : Desc}

/-! ### Time bases and registers are on the path -/

theorem State.SamePath.tim (h : s.SamePath t) : t.tim = s.tim := by obtain ⟨_, _, _, _, _, _, rfl⟩ := h; rfl

theorem State.SamePath.tbAt (h : s.SamePath t) (b : Fin 8) : t.tbAt b = s.tbAt b := congrArg (fun x : Tim => x.tb[b]) h.tim

theorem State.SamePath.modTb (h : s.SamePath t) (b : Fin 8) (f : TimeBase → TimeBase) : (s.modTb b f).SamePath (t.modTb b f) := by
  obtain ⟨_, _, _, _, _, _, rfl⟩ := h
  exact ⟨_, _, _, _, _, _, rfl⟩

theorem State.SamePath.setReg (h : s.SamePath t) (a x : Nat) : (s.setReg a x).SamePath (t.setReg a x) := by
  obtain ⟨_, _, _, _, _, _, rfl⟩ := h
  exact ⟨_, _, _, _, _, _, rfl⟩

theorem State.SamePath.setBit (h : s.SamePath t) (a i : Nat) (x : Bool := true) : (s.setBit a i x).SamePath (t.setBit a i x) := by
  obtain ⟨_, _, _, _, _, _, rfl⟩ := h
  exact ⟨_, _, _, _, _, _, rfl⟩

theorem State.tbAt_modTb (s : State) (b : Fin 8) (f : TimeBase → TimeBase) : (s.modTb b f).tbAt b = f (s.tbAt b) := Vector.getElem_set_self _

theorem State.setBit_tbAt (s : State) (a i : Nat) (x : Bool) (b : Fin 8) : (s.setBit a i x).tbAt b = s.tbAt b := rfl

/-! ### A step (R269, R270) -/

/-- The state in which a base has been stepped, with the programmes and gates on it, before the instructions that wait for a time. -/
def State.tbStepped (s : State) (b : Fin 8) (d : Int) : State :=
  let s1 := (s.modTb b fun x => x.step d s.now).setBit (Reg.tim (0x40 * b.val)) 8
  (s1.modTim fun x => { x with trig := x.trig.map fun g => g.step b (s1.tbAt b).val }).stepGates b (s1.tbAt b).val

theorem State.stepTb_eq (s : State) (b : Fin 8) (d : Int) :
    s.stepTb b d = (s.tbStepped b d).stepWaits b (s.tbAt b).val ((s.tbStepped b d).tbAt b).val allRids := rfl

theorem State.tbStepped_tbAt (s : State) (b : Fin 8) (d : Int) : (s.tbStepped b d).tbAt b = (s.tbAt b).step d s.now :=
  s.tbAt_modTb b fun x => x.step d s.now

theorem State.SamePath.tbStepped (h : s.SamePath t) (b : Fin 8) (d : Int) : (s.tbStepped b d).SamePath (t.tbStepped b d) := by
  obtain ⟨_, _, _, _, _, _, rfl⟩ := h
  exact ⟨_, _, _, _, _, _, rfl⟩

/-- Releasing those that wait ends commands and no more. -/
theorem State.stepWaits_ends (b : Fin 8) (old new : Nat) : ∀ (rs : List Rid) (s : State),
    s.SamePath (s.stepWaits b old new rs) ∧ s.Owes (s.stepWaits b old new rs)
  | [], s => ⟨.refl s, .refl s⟩
  | r :: rs, s => by
    rw [State.stepWaits]
    split
    · next ref tb target _ _ _ =>
      split
      · obtain ⟨hpath, howes⟩ := State.stepWaits_ends b old new rs (s.complete ref 0 0 false true)
        exact ⟨(s.complete_samePath ..).trans hpath, (s.complete_owes ..).trans howes⟩
      · exact State.stepWaits_ends b old new rs s
    · exact State.stepWaits_ends b old new rs s

theorem State.stepTb_ends (s : State) (b : Fin 8) (d : Int) : (s.tbStepped b d).SamePath (s.stepTb b d) ∧ s.Owes (s.stepTb b d) := by
  obtain ⟨hpath, howes⟩ := State.stepWaits_ends b (s.tbAt b).val ((s.tbStepped b d).tbAt b).val allRids (s.tbStepped b d)
  have hcur : (s.tbStepped b d).cur = s.cur := rfl
  rw [State.stepTb_eq]
  exact ⟨hpath, (State.Owes.of_cur hcur).trans howes⟩

theorem State.SamePath.stepTb (h : s.SamePath t) (b : Fin 8) (d : Int) : (s.stepTb b d).SamePath (t.stepTb b d) :=
  (s.stepTb_ends b d).1.symm.trans ((h.tbStepped b d).trans (t.stepTb_ends b d).1)

/-! ### An offset (R271, R272) -/

/-- The offset passes the step threshold of the base, so that the base is stepped. -/
def TimeBase.Steps (x : TimeBase) (th : Int) : Prop := x.stepTh ≠ 0 ∧ x.stepTh * 65536 < th.natAbs

/-- The base with the offset noted. -/
def State.offsetNoted (s : State) (b : Fin 8) (th : Int) : State := s.modTb b fun x => { x with theta := thetaReg th }

/-- The rate as the servo computes it, within its range. -/
def TimeBase.rate (x : TimeBase) (th : Int) : Int := clampI (-(2 ^ 31)) (2 ^ 31 - 1) (x.rawAdj th)

/-- The base with its integrator and its rate set. -/
def State.rateSet (s : State) (b : Fin 8) (th : Int) : State :=
  ((s.offsetNoted b th).modTb b fun x => { x with integ := (s.tbAt b).integrate th }).setReg (Reg.tim (0x40 * b.val + 4))
    (toTwos 32 ((s.tbAt b).rate th))

theorem State.servoOffset_steps {b : Fin 8} {th : Int} (h : (s.tbAt b).Steps th) :
    s.servoOffset b th = ((s.offsetNoted b th).stepTb b (-th * 2 ^ 24)).setBit (Reg.tim (0x40 * b.val)) 10 := by
  unfold State.servoOffset
  exact if_pos h

theorem State.servoOffset_rate {b : Fin 8} {th : Int} (h : ¬(s.tbAt b).Steps th) : s.servoOffset b th =
    if (s.tbAt b).rate th = (s.tbAt b).rawAdj th then s.rateSet b th else (s.rateSet b th).setBit (Reg.tim (0x40 * b.val)) 9 := by
  unfold State.servoOffset
  exact if_neg h

theorem State.SamePath.servoOffset (h : s.SamePath t) (b : Fin 8) (th : Int) : (s.servoOffset b th).SamePath (t.servoOffset b th) := by
  have hb := h.tbAt b
  have hnoted : (s.offsetNoted b th).SamePath (t.offsetNoted b th) := h.modTb ..
  by_cases hs : (s.tbAt b).Steps th
  · rw [State.servoOffset_steps hs, State.servoOffset_steps (hb.symm ▸ hs)]
    exact (hnoted.stepTb ..).setBit ..
  · have hset : (s.rateSet b th).SamePath (t.rateSet b th) := by
      unfold State.rateSet
      rw [hb]
      exact (hnoted.modTb ..).setReg ..
    rw [State.servoOffset_rate hs, State.servoOffset_rate (hb.symm ▸ hs), hb]
    exact .ite (fun _ => hset) fun _ => hset.setBit ..

theorem State.servoOffset_owes (s : State) (b : Fin 8) (th : Int) : s.Owes (s.servoOffset b th) := by
  have hset : ∀ (x : State) (a i : Nat), x.Owes (x.setBit a i) := fun x a i => .of_cur (show (x.setBit a i).cur = x.cur from rfl)
  have hnoted : s.Owes (s.offsetNoted b th) := .of_cur rfl
  by_cases h : (s.tbAt b).Steps th
  · obtain ⟨-, hstep⟩ := (s.offsetNoted b th).stepTb_ends b (-th * 2 ^ 24)
    rw [State.servoOffset_steps h]
    exact (hnoted.trans hstep).trans (hset ..)
  · have hrate : s.Owes (s.rateSet b th) := .of_cur rfl
    rw [State.servoOffset_rate h]
    split
    · exact hrate
    · exact hrate.trans (hset ..)

/-- Past the threshold the base is stepped by the offset, and the integrator stays. -/
theorem State.servoOffset_stepped {b : Fin 8} {th : Int} (h : (s.tbAt b).Steps th) :
    ((((s.servoOffset b th).tbAt b).val : Nat) : Int) = (((s.tbAt b).val : Int) - th * 2 ^ 24) % (tbWrap : Int)
    ∧ ((s.servoOffset b th).tbAt b).integ = (s.tbAt b).integ := by
  have hval : (s.servoOffset b th).tbAt b = ((s.offsetNoted b th).tbAt b).step (-th * 2 ^ 24) s.now := by
    obtain ⟨hpath, -⟩ := (s.offsetNoted b th).stepTb_ends b (-th * 2 ^ 24)
    rw [State.servoOffset_steps h]
    rw [State.setBit_tbAt, hpath.tbAt]
    exact State.tbStepped_tbAt ..
  have hwrap : (0 : Int) < tbWrap := by decide
  rw [hval, State.offsetNoted, State.tbAt_modTb]
  refine ⟨(Int.toNat_of_nonneg (Int.emod_nonneg _ hwrap.ne')).trans (congrArg (· % (tbWrap : Int)) ?_), rfl⟩
  rw [Int.neg_mul, Int.sub_eq_add_neg]

/-- Otherwise the base runs on, and the integrator takes in the offset. -/
theorem State.servoOffset_rated {b : Fin 8} {th : Int} (h : ¬(s.tbAt b).Steps th) :
    ((s.servoOffset b th).tbAt b).val = (s.tbAt b).val ∧ ((s.servoOffset b th).tbAt b).integ = (s.tbAt b).integrate th := by
  have hval : (s.servoOffset b th).tbAt b = { (s.offsetNoted b th).tbAt b with integ := (s.tbAt b).integrate th } := by
    have hset : (s.rateSet b th).tbAt b = { (s.offsetNoted b th).tbAt b with integ := (s.tbAt b).integrate th } :=
      (s.offsetNoted b th).tbAt_modTb b fun x => { x with integ := (s.tbAt b).integrate th }
    rw [State.servoOffset_rate h]
    split
    · exact hset
    · exact (State.setBit_tbAt ..).trans hset
  rw [hval, State.offsetNoted, State.tbAt_modTb]
  exact ⟨rfl, rfl⟩

/-! ### The servo's instructions (R273, R274) -/

/-- An instruction that is done at acceptance is DONE, and its effect is on the path. -/
theorem completes_doNow {i : Instr} {mop : Nat} {op : Nat → Bool} {chk : State → Fin 4 → Desc → Option Nat}
    {eff : State → Fin 4 → Desc → Eff}
    (hx : exec i s = s.issue r mop op (State.doNow chk eff)) (ht : s.Takes r mop op d) (hc : chk (s.pop r) r.eng d = none)
    (howes : (s.pop r).Owes (eff (s.pop r) r.eng d).s) (hr : (eff (s.pop r) r.eng d).result = 0) (hl : (eff (s.pop r) r.eng d).late = false) :
    Completes i s fun u => s.Records u (d.ref r) 0 ∧ (eff (s.pop r) r.eng d).s.SamePath u := by
  have hrun : State.doNow chk eff (s.pop r) d (d.ref r)
      = (eff (s.pop r) r.eng d).s.complete (d.ref r) 0 0 false false (eff (s.pop r) r.eng d).dseq := by
    unfold State.doNow
    rw [show (d.ref r).rid.eng = r.eng from rfl, hc, ← hr, ← hl]
  refine completes_issue hx ht fun u hu => ?_
  rw [hrun] at hu
  have hrec := (eff (s.pop r) r.eng d).s.complete_records (d.ref r) 0 0 false false (eff (s.pop r) r.eng d).dseq
  exact ⟨.stay (((s.pop_owes r).trans howes).records hrec) hu.done, (State.complete_samePath ..).trans hu.path⟩

theorem State.servoDelta_keeps (s : State) (b : Fin 8) : (s.servoDelta b).s.tim = s.tim ∧ (s.servoDelta b).s.regs = s.regs
    ∧ (s.servoDelta b).s.cur = s.cur := by
  obtain ⟨x, p, o, h⟩ := s.delta_ends (.servo b (s.tbAt b)) none
  have hs : (s.servoDelta b).s = { s with mte := x, pmc := p, out := o } := h
  rw [hs]
  exact ⟨rfl, rfl, rfl⟩

/-- A command that sets the servo of its base and tells the standby changes no other time base, and no register. -/
theorem completes_servoSet {i : Instr} {op : Nat → Bool} {chk : State → Fin 4 → Desc → Option Nat} {eff : State → Fin 4 → Desc → Eff}
    (f : TimeBase → TimeBase) (hx : exec i s = s.issue r 0x31 op (State.doNow chk eff)) (ht : s.Takes r 0x31 op d)
    (hc : chk (s.pop r) r.eng d = none) (he : eff (s.pop r) r.eng d = ((s.pop r).modTb (tbOf d) f).servoDelta (tbOf d)) :
    Completes i s fun u => s.Records u (d.ref r) 0 ∧ u.tim.tb = s.tim.tb.set (tbOf d) (f (s.tbAt (tbOf d))) ∧ u.regs = s.regs := by
  obtain ⟨htim, hregs, hcur⟩ := ((s.pop r).modTb (tbOf d) f).servoDelta_keeps (tbOf d)
  have hpop := (s.pop_samePath r).modTb (tbOf d) f
  refine (completes_doNow hx ht hc (by rw [he]; exact .of_cur hcur) (by rw [he]; rfl) (by rw [he]; rfl)).mono fun u ⟨hrec, hu⟩ => ?_
  rw [he] at hu
  refine ⟨hrec, ?_, hu.regs.trans (hregs.trans hpop.regs)⟩
  rw [hu.tim, htim, hpop.tim]
  rfl

theorem completes_servoEn (on : Bool) {i : Instr} {op : Nat → Bool}
    (hx : exec i s = s.issue r 0x31 op (State.doNow noCheck (applyServoEn on))) (ht : s.Takes r 0x31 op d) : Completes i s fun u =>
      s.Records u (d.ref r) 0 ∧ u.tim.tb = s.tim.tb.set (tbOf d) { s.tbAt (tbOf d) with servoEn := on } ∧ u.regs = s.regs :=
  completes_servoSet (fun x => { x with servoEn := on }) hx ht rfl rfl

theorem State.SamePath.checkOffset (h : s.SamePath t) (k : Fin 4) (d : Desc) : checkOffset t k d = checkOffset s k d := by
  unfold Machine.checkOffset
  rw [h.tbAt]

theorem tbservoOffset_completes (ht : s.Takes r 0x31 (· = 1) d) (hsrc : (s.tbAt (tbOf d)).src = 0) (hen : (s.tbAt (tbOf d)).servoEn = true) :
    Completes (.tbservoOffset r) s fun u => s.Records u (d.ref r) 0
      ∧ u.tim.tb = (s.servoOffset (tbOf d) (sext 64 (d.arg 0 8))).tim.tb ∧ u.regs = (s.servoOffset (tbOf d) (sext 64 (d.arg 0 8))).regs := by
  have hpasses : checkOffset (s.pop r) r.eng d = none := by
    rw [(s.pop_samePath r).checkOffset]
    unfold checkOffset
    dsimp only
    rw [hsrc, hen]
    rfl
  refine (completes_doNow (eff := applyOffset) rfl ht hpasses (State.servoOffset_owes ..) rfl rfl).mono fun u ⟨hrec, hu⟩ => ?_
  have hpath := ((s.pop_samePath r).servoOffset (tbOf d) (sext 64 (d.arg 0 8))).trans hu
  exact ⟨hrec, congrArg Tim.tb hpath.tim, hpath.regs⟩

theorem servoInterval_completes {c : Fin 8} (hlive : s.timLive = true) (hen : (s.tbAt c).servoEn = true) (hsrc : (s.tbAt c).src = 6)
    (hmate : s.mte.st ≠ .standby) (hstep : (s.tbAt c).stepAt ≠ some s.now) : Completes (.servoInterval c) s fun u =>
      let w := s.servoOffset c (((s.tbAt c).val / 2 ^ 24 : Nat) - ((s.tbAt (s.tbAt c).srcTb).val / 2 ^ 24 : Nat))
      u.tim.tb = w.tim.tb ∧ u.regs = w.regs := by
  have hx : exec (.servoInterval c) s = finish
      (s.servoOffset c (((s.tbAt c).val / 2 ^ 24 : Nat) - ((s.tbAt (s.tbAt c).srcTb).val / 2 ^ 24 : Nat))) := by
    change execServoInterval c s = _
    unfold execServoInterval State.hwOffset
    dsimp only
    rw [if_pos ⟨hlive, hen, hsrc⟩, if_neg hmate, if_neg hstep]
  exact completes_finish hx ⟨congrArg Tim.tb (State.settle_tim _), State.settle_regs _⟩

/-! ### A base stops (R130, R267) -/

/-- A key of mill `m` is armed for a time of base `b`. -/
def State.armsOn (s : State) (b : Fin 8) (m : Fin 4) : Bool :=
  match (s.lci m).arm with
  | some a => a.time.isSome && decide (s.lciTb m = b)
  | none => false

theorem State.armsOn_of_none {b : Fin 8} {m : Fin 4} (h : (s.lci m).arm = none) : s.armsOn b m = false := by
  unfold State.armsOn
  rw [h]

theorem State.armsOn_of_time {b : Fin 8} {m : Fin 4} {a : KeyArm} {x : Nat} (h : (s.lci m).arm = some a) (ht : a.time = some x)
    (hb : s.lciTb m = b) : s.armsOn b m = true := by
  unfold State.armsOn
  rw [h]
  dsimp only
  rw [ht, hb, decide_eq_true rfl]
  rfl

theorem State.armsOn_of_ne {b : Fin 8} {m : Fin 4} (h : s.lciTb m ≠ b) : s.armsOn b m = false := by
  unfold State.armsOn
  split
  · rw [decide_eq_false h, Bool.and_false]
  · rfl

/-- From `s` to `t` the arms on base `b` of the mills listed have been lost, and no other. -/
structure State.LosesArms (s t : State) (b : Fin 8) (ms : List (Fin 4)) : Prop where
  regs : t.regs = s.regs
  otp : t.otp = s.otp
  owes : s.Owes t
  lost : ∀ m ∈ ms, s.armsOn b m = true → (t.lci m).arm = none
    ∧ ∀ a ref, (s.lci m).arm = some a → a.ref = some ref → s.Records t ref 0x1C
  kept : ∀ m, m ∉ ms ∨ s.armsOn b m = false → t.lci m = s.lci m

theorem State.LosesArms.refl (s : State) (b : Fin 8) : s.LosesArms s b [] :=
  ⟨rfl, rfl, .refl s, fun _ h => absurd h List.not_mem_nil, fun _ _ => rfl⟩

theorem State.LosesArms.armsOn {b : Fin 8} {ms : List (Fin 4)} (h : s.LosesArms t b ms) {m : Fin 4} (hm : t.lci m = s.lci m) :
    t.armsOn b m = s.armsOn b m := by
  have htb : t.lciTb m = s.lciTb m := by
    unfold State.lciTb State.fld State.reg
    simp only [h.regs, h.otp]
  unfold State.armsOn
  rw [hm, htb]

theorem State.LosesArms.cons {b : Fin 8} {m : Fin 4} {ms : List (Fin 4)} (h : s.LosesArms t b [m]) (k : t.LosesArms u b ms) :
    s.LosesArms u b (m :: ms) := by
  refine ⟨k.regs.trans h.regs, k.otp.trans h.otp, h.owes.trans k.owes, fun j hj harm => ?_, fun j hj => ?_⟩
  · by_cases hjm : j = m
    · subst hjm
      obtain ⟨hnone, hrec⟩ := h.lost j (List.mem_singleton_self j) harm
      exact ⟨by rw [k.kept j (.inr (State.armsOn_of_none hnone)), hnone], fun a ref ha href => .stay (hrec a ref ha href) k.owes.done⟩
    · have hlci := h.kept j (.inl fun e => hjm (List.mem_singleton.mp e))
      obtain ⟨hnone, hrec⟩ := k.lost j ((List.mem_cons.mp hj).resolve_left hjm) (by rw [h.armsOn hlci, harm])
      exact ⟨hnone, fun a ref ha href => h.owes.records (hrec a ref (by rw [hlci, ha]) href)⟩
  · have hlci := h.kept j (hj.imp_left fun hn e => hn (List.mem_cons.mpr (.inl (List.mem_singleton.mp e))))
    rw [k.kept j (hj.imp (fun hn e => hn (List.mem_cons_of_mem _ e)) fun hf => by rw [h.armsOn hlci, hf]), hlci]

theorem State.disarm_losesArms {b : Fin 8} {m : Fin 4} (h : s.armsOn b m = true) : s.LosesArms (s.disarm m 0x1C) b [m] := by
  obtain ⟨a, ha⟩ : ∃ a, (s.lci m).arm = some a := by
    cases hx : (s.lci m).arm with
    | none => rw [State.armsOn_of_none hx] at h; exact absurd h Bool.false_ne_true
    | some a => exact ⟨a, rfl⟩
  obtain ⟨harm, -, -, howes, hrec, hregs, hothers⟩ := State.disarm_cancels ha 0x1C
  have honly := State.disarm_only (ps := alsoIn [.lci, .cur, .mte, .counts, .evrQueue, .out, .status]) (Only.refl s) m 0x1C rfl
  refine ⟨hregs, honly .otp rfl, howes, fun j hj _ => ?_, fun j hj => hothers j fun e => ?_⟩
  · obtain rfl := List.mem_singleton.mp hj
    refine ⟨harm, fun x ref hx href => hrec ref ?_⟩
    rw [ha] at hx
    rw [Option.some.inj hx, href]
  · subst e
    rcases hj with hj | hj
    · exact hj (List.mem_singleton_self m)
    · rw [hj] at h
      exact Bool.false_ne_true h

theorem State.tbArmsLost_loses (b : Fin 8) : ∀ (ms : List (Fin 4)) (s : State), s.LosesArms (s.tbArmsLost b ms) b ms
  | [], s => .refl s b
  | m :: ms, s => by
    have hcons : s.tbArmsLost b (m :: ms) = (if s.armsOn b m then s.disarm m 0x1C else s).tbArmsLost b ms := rfl
    have hone : s.LosesArms (if s.armsOn b m then s.disarm m 0x1C else s) b [m] := by
      split
      · next h => exact State.disarm_losesArms h
      · next h =>
        have hf := Bool.eq_false_iff.mpr h
        refine ⟨rfl, rfl, .refl s, fun j hj harm => ?_, fun _ _ => rfl⟩
        rw [List.mem_singleton.mp hj, hf] at harm
        exact absurd harm Bool.false_ne_true
    rw [hcons]
    exact hone.cons (State.tbArmsLost_loses b ms _)

/-- A control register of a line key block lies above every register of the time bases. -/
theorem State.lciTb_setBit_tim (s : State) (b : Fin 8) (i : Nat) (x : Bool) (m : Fin 4) :
    (s.setBit (Reg.tim (0x40 * b.val)) i x).lciTb m = s.lciTb m := by
  have habove : Reg.tim (0x40 * b.val) < Reg.lci m 0 := by
    unfold Reg.tim Reg.lci Reg.mill
    omega
  have hreg : (s.setBit (Reg.tim (0x40 * b.val)) i x).reg (Reg.lci m 0) = s.reg (Reg.lci m 0) := s.reg_setReg_below _ habove
  unfold State.lciTb State.fld
  simp only [hreg]

theorem tbRunClear_completes {b : Fin 8} (hlive : s.timLive = true) (hrun : s.tbRun b = true) : Completes (.tbRunClear b) s fun u =>
    u.regs = (s.setBit (Reg.tim (0x40 * b.val)) 0 false).regs
    ∧ (∀ m : Fin 4, ∀ a t ref, (s.lci m).arm = some a → a.time = some t → a.ref = some ref → s.lciTb m = b →
      s.Records u ref 0x1C ∧ (u.lci m).arm = none)
    ∧ ∀ m : Fin 4, ((s.lci m).arm = none ∨ s.lciTb m ≠ b) → (u.lci m) = s.lci m := by
  have hx : exec (.tbRunClear b) s = finish (s.tbStop b) := by
    change execTbRunClear b s = _
    unfold execTbRunClear
    rw [hlive, hrun]
    rfl
  have hloses := State.tbArmsLost_loses b (List.finRange 4) (s.setBit (Reg.tim (0x40 * b.val)) 0 false)
  have htb := s.lciTb_setBit_tim b 0 false
  refine completes_finish hx ⟨(State.settle_regs _).trans hloses.regs, fun m a t ref ha hat href hb => ?_, fun m hm => ?_⟩
  · obtain ⟨hnone, hrec⟩ := hloses.lost m (List.mem_finRange m) (State.armsOn_of_time ha hat ((htb m).trans hb))
    rw [State.settle_lci]
    exact ⟨.stay (hrec a ref ha href) (State.settle_drains _).done, hnone⟩
  · rw [State.settle_lci]
    refine hloses.kept m (.inr ?_)
    rcases hm with hm | hm
    · exact State.armsOn_of_none hm
    · exact State.armsOn_of_ne (by rwa [htb])

/-! ### A base runs, and is read (R267, R268) -/

theorem tbRunSet_completes {b : Fin 8} (hlive : s.timLive = true) : Completes (.tbRunSet b) s fun u =>
    u.regs = (s.setBit (Reg.tim (0x40 * b.val)) 0).regs ∧ Only (alsoIn [.status]) s u := by
  have hx : exec (.tbRunSet b) s = finish (s.setBit (Reg.tim (0x40 * b.val)) 0) := by
    change execTbRunSet b s = _
    unfold execTbRunSet
    rw [hlive]
    rfl
  refine completes_finish hx ⟨State.settle_regs _, ?_⟩
  exact execTbRunSet_only (Only.refl s) b rfl _ hx

theorem tbRead_completes {b : Fin 8} (hlive : s.timLive = true) : Completes (.tbRead b) s fun u =>
    Out.regRead 0 (Reg.tim (0x40 * b.val + 8)) (BitVec.ofNat 32 (tbFrac (s.tbAt b).val)) ∈ u.out
    ∧ u.hst.latch = tins (Reg.tim (0x40 * b.val + 20)) (BitVec.ofNat 32 (tbSec (s.tbAt b).val / 2 ^ 32))
      (tins (Reg.tim (0x40 * b.val + 16)) (BitVec.ofNat 32 (tbSec (s.tbAt b).val % 2 ^ 32))
        (tins (Reg.tim (0x40 * b.val + 12)) (BitVec.ofNat 32 (tbNs (s.tbAt b).val)) s.hst.latch))
    ∧ u.tim = s.tim := by
  have hx : exec (.tbRead b) s = finish ((s.latchWords (Reg.tim (0x40 * b.val + 8) + 4) ((timeWords (s.tbAt b).val).drop 1)).emit
      (.regRead 0 (Reg.tim (0x40 * b.val + 8)) (BitVec.ofNat 32 (tbFrac (s.tbAt b).val)))) := by
    change execTbRead b s = _
    unfold execTbRead
    rw [hlive]
    rfl
  exact completes_finish hx ⟨State.mem_settle_emit _ _, State.settle_latch _, State.settle_tim _⟩

/-- Settles O24: each instruction by its lemma, and an offset by whether it passes the threshold. -/
theorem timeBasesRunAndSteer : Obligations.TimeBasesRunAndSteer := by
  unfold Obligations.TimeBasesRunAndSteer
  refine ⟨fun s r d => ⟨fun ht hc => ?_, completes_servoEn true rfl, completes_servoEn false rfl,
    tbservoOffset_completes,
    fun c hlive hen hsrc => servoInterval_completes hlive hen hsrc, fun c th => ⟨fun hth hpast => ?_, fun hwithin => ?_⟩⟩,
    fun s b hlive => ⟨tbRunSet_completes hlive, fun _ hrun => tbRunClear_completes hlive hrun, tbRead_completes hlive⟩⟩
  · exact (completes_servoSet _ rfl ht hc rfl).mono fun u ⟨hrec, htb, _⟩ => ⟨hrec, htb⟩
  · exact State.servoOffset_stepped ⟨hth, hpast⟩
  · exact State.servoOffset_rated fun ⟨hth, hpast⟩ => hwithin.elim hth hpast.not_ge

end Sys2Proof.Machine
end

section
/-! Key operations end and slots are invalidated (R300, R308, R310, R311, R319, R142, R344). -/

namespace Sys2Proof.Machine

variable {s t u v : State}

theorem State.SamePath.kst (h : s.SamePath t) : t.kst = s.kst := by obtain ⟨_, _, _, _, _, _, rfl⟩ := h; rfl
theorem State.SamePath.uci (h : s.SamePath t) : t.uci = s.uci := by obtain ⟨_, _, _, _, _, _, rfl⟩ := h; rfl

/-! ### An operation ends (R300, R308, R319) -/

/-- The state in which an operation has left the key store. -/
def State.jobTaken (s : State) (j : KJob) : State := s.modKst fun k => { k with jobs := k.jobs.filter fun x => decide (x.id ≠ j.id) }

section
variable {i : Nat} {j : KJob} {e : Bool} (hj : s.kst.jobs[i]? = some j) (hneed : j.need ≤ j.drawn.length)
include hj hneed

/-- An operation that ends changes the key store as its end does, and gives its record. -/
theorem opComplete_ends {x : State} {st res : Nat} (hhost : s.hstLive = true ∨ j.op.writesHost = false)
    (he : (s.jobTaken j).endJob j e = x.complete j.ref st res) (hcur : x.cur = s.cur) :
    Completes (.kstOpComplete i e) s fun u => u.kst = x.kst ∧ s.Records u j.ref st res ∧ x.out <:+ u.out := by
  have hrec := x.complete_records j.ref st res false false none
  have hout : (x.complete j.ref st res).out = x.out :=
    State.complete_only (ps := [.counts, .evrQueue, .cur]) (Only.refl x) j.ref st res false false none rfl .out rfl
  have hready : (decide (j.need ≤ j.drawn.length) && (s.hstLive || !j.op.writesHost)) = true := by
    rw [decide_eq_true hneed]
    rcases hhost with h | h <;> rw [h]
    · rfl
    · exact Bool.or_true _
  have hx : exec (.kstOpComplete i e) s = finish (x.complete j.ref st res) := by
    change execKstOpComplete i e s = _
    unfold execKstOpComplete
    rw [hj, ← he]
    exact if_pos hready
  refine completes_finish hx ⟨?_, .stay ((State.Owes.of_cur hcur).records hrec) (State.settle_drains _).done, ?_⟩
  · rw [State.settle_kst, (State.complete_samePath ..).kst]
  · rw [← hout]
    exact State.settle_out _

/-- A key is placed where its slot is still free for it. -/
theorem opComplete_install {n : Nat} {w : Slot} (hhost : j.op.writesHost = false) (he : (s.jobTaken j).endJob j e = (s.jobTaken j).endInstall j n w)
    (hkept : j.erased = false) (hempty : (s.slot n).st = .empty) : Completes (.kstOpComplete i e) s fun u =>
      u.kst = ((s.jobTaken j).installSlot n w).kst ∧ s.Records u j.ref 0 (leNat (checkValue w.key)) := by
  have hplaces : (s.jobTaken j).endInstall j n w = ((s.jobTaken j).installSlot n w).complete j.ref 0 (leNat (checkValue w.key)) := by
    unfold State.endInstall
    refine if_neg ?_
    rw [hkept]
    rintro (h | h)
    · exact Bool.false_ne_true h
    · exact h hempty
  have hcur : ((s.jobTaken j).installSlot n w).cur = s.cur :=
    State.installSlot_only (ps := [.slots, .kst]) (Only.refl (s.jobTaken j)) n w rfl .cur rfl
  exact (opComplete_ends hj hneed (.inr hhost) (he.trans hplaces) hcur).mono fun u ⟨hkst, hrec, _⟩ => ⟨hkst, hrec⟩

/-- Otherwise it is not, and the instruction ends with KEY_ERASED. -/
theorem opComplete_erased {n : Nat} {w : Slot} (hhost : j.op.writesHost = false) (he : (s.jobTaken j).endJob j e = (s.jobTaken j).endInstall j n w)
    (h : j.erased = true ∨ (s.slot n).st ≠ .empty) : Completes (.kstOpComplete i e) s fun u =>
      u.kst = (s.jobTaken j).kst ∧ s.Records u j.ref 0x34 := by
  have hrefused : (s.jobTaken j).endInstall j n w = (s.jobTaken j).complete j.ref 0x34 := if_pos h
  exact (opComplete_ends hj hneed (.inr hhost) (he.trans hrefused) rfl).mono fun u ⟨hkst, hrec, _⟩ => ⟨hkst, hrec⟩

/-- A drawn key is staged in its slot. -/
theorem opComplete_stage {n : Nat} (hop : j.op = .stageDrawn n) (hkept : j.erased = false) (hlive : (s.slot n).st = .live) :
    Completes (.kstOpComplete i e) s fun u =>
      u.kst.slots = tset default n
        { s.slot n with st := .staged, staged := some (j.drawn.headD [], (s.slot n).parent, (s.slot n).depth) } s.kst.slots
      ∧ s.Records u j.ref 0 (leNat (checkValue (j.drawn.headD []))) := by
  have hslot : (s.jobTaken j).slot n = s.slot n := rfl
  have he : (s.jobTaken j).endJob j e = ((s.jobTaken j).setSlot n
      { s.slot n with st := .staged, staged := some (j.drawn.headD [], (s.slot n).parent, (s.slot n).depth) }).complete j.ref 0
        (leNat (checkValue (j.drawn.headD []))) := by
    unfold State.endJob State.endDrawnStage State.endStage
    rw [hop]
    dsimp only
    rw [hkept, hslot, if_neg Bool.false_ne_true, if_neg fun h => h hlive]
  refine (opComplete_ends hj hneed (.inr (by rw [hop]; rfl)) he rfl).mono fun u ⟨hkst, hrec, _⟩ => ⟨?_, hrec⟩
  rw [hkst]
  rfl

/-- An attestation ends with its response in host memory, or with the error of its write. -/
theorem opComplete_attest {n gen addr : Nat} {key idKey nonce : Bytes} {attr : W32} (hop : j.op = .attest n key idKey gen attr nonce addr)
    (hlive : s.hstLive = true) : Completes (.kstOpComplete i true) s (fun u => s.Records u j.ref 0x19)
      ∧ Completes (.kstOpComplete i false) s fun u => s.Records u j.ref 0 ∧ u.kst.attSeq = (s.kst.attSeq + 1) % 2 ^ 32
        ∧ ∃ b, Out.hostWrite (ringPf j.ref.rid).val addr b ∈ u.out := by
  have hfails : (s.jobTaken j).endJob j true =
      ((s.jobTaken j).modKst fun k => { k with attSeq := (k.attSeq + 1) % 2 ^ 32 }).complete j.ref 0x19 := by
    unfold State.endJob
    rw [hop]
    rfl
  obtain ⟨b, hwrites⟩ : ∃ b, (s.jobTaken j).endJob j false =
      (((s.jobTaken j).modKst fun k => { k with attSeq := (k.attSeq + 1) % 2 ^ 32 }).hostWrite (ringPf j.ref.rid) addr b).complete j.ref 0 := by
    unfold State.endJob
    rw [hop]
    exact ⟨_, rfl⟩
  refine ⟨(opComplete_ends hj hneed (.inl hlive) hfails rfl).mono fun u ⟨_, hrec, _⟩ => hrec,
    (opComplete_ends hj hneed (.inl hlive) hwrites rfl).mono fun u ⟨hkst, hrec, hout⟩ => ⟨hrec, ?_, b, hout.subset List.mem_cons_self⟩⟩
  rw [hkst]
  rfl

end

/-! ### KINVAL (R310, R311) -/

/-- Every slot listed becomes INVALIDATING. -/
def State.markSlots (s : State) (ms : List Nat) : State :=
  ms.foldl (fun s i => s.setSlot i { s.slot i with st := .invalidating, staged := none }) s

theorem State.SamePath.setSlot (h : s.SamePath t) (n : Nat) (x : Slot) : (s.setSlot n x).SamePath (t.setSlot n x) := by
  obtain ⟨_, _, _, _, _, _, rfl⟩ := h
  exact ⟨_, _, _, _, _, _, rfl⟩

theorem State.SamePath.markSlots (h : s.SamePath t) (ms : List Nat) : (s.markSlots ms).SamePath (t.markSlots ms) :=
  State.SamePath.foldl (fun n s t h => by
    rw [show t.slot n = s.slot n from congrArg (fun x : Kst => tget default x.slots n) h.kst]
    exact h.setSlot ..) ms h

theorem State.markSlots_cur (s : State) (ms : List Nat) : (s.markSlots ms).cur = s.cur :=
  Only.foldl (ps := [.slots]) (fun s i => s.setSlot i { s.slot i with st := .invalidating, staged := none })
    (fun _ i h => State.setSlot_only h i _ rfl) ms s (Only.refl s) .cur rfl

theorem State.SamePath.kinvalCheck (h : s.SamePath t) (n : Nat) : t.kinvalCheck n = s.kinvalCheck n := by
  obtain ⟨_, _, _, _, _, _, rfl⟩ := h
  rfl

theorem State.reaches_of_kst (h : t.kst = s.kst) (x : Nat) : ∀ k n, t.reaches x k n = s.reaches x k n
  | 0, _ => rfl
  | k + 1, n => by
    have hslot : t.slot n = s.slot n := congrArg (fun x : Kst => tget default x.slots n) h
    unfold State.reaches
    rw [hslot]
    split
    · next p _ => rw [State.reaches_of_kst h x k p]
    · rfl

theorem State.marked_of_kst (h : t.kst = s.kst) (n : Nat) : t.marked n = s.marked n := by
  have hslot : ∀ i, t.slot i = s.slot i := fun i => congrArg (fun x : Kst => tget default x.slots i) h
  unfold State.marked
  simp only [h, hslot, State.reaches_of_kst h]

/-- A key store instruction that can start runs. -/
theorem completes_issueKey {i : Instr} {r : Rid} {mop : Nat} {op : Nat → Bool} {run : State → Desc → CmdRef → State} {d : Desc}
    {P : State → Prop} (hx : exec i s = s.issueKey r mop op run) (ht : s.Takes r mop op d) (hlc : s.lcRuns = true) (hcan : s.kstCan = true)
    (hP : ∀ w, s.SamePath w → ∀ u, (run w d (d.ref r)).Drains u → P u) : Completes i s P := by
  obtain ⟨hhead, hgate⟩ := ht
  have hpath := (s.countDev_samePath 9 0 d.mop 1).trans (State.pop_samePath _ r)
  refine completes_finish (t := (run ((s.countDev 9 0 d.mop).pop r) d (d.ref r)).drainAll r) ?_
    (hP _ hpath _ ((State.drainAll_drains ..).trans (State.settle_drains _)))
  rw [hx, State.issueKey, hhead]
  dsimp only
  rw [State.keyHead, hgate]
  dsimp only
  rw [hlc, hcan]
  rfl

theorem kinval_completes {r : Rid} {d : Desc} (hlc : s.lcRuns = true) (hcan : s.kstCan = true) (ht : s.Takes r 0x0B (fun _ => true) d)
    (hc : s.kinvalCheck (d.p1 % 2048) = none) : Completes (.kinval r) s fun u => u.Pends (d.ref r)
      ∧ u.kst.marking = some { ref := d.ref r, slots := s.marked (d.p1 % 2048) }
      ∧ u.kst.slots = (s.markSlots (s.marked (d.p1 % 2048))).kst.slots := by
  refine completes_issueKey rfl ht hlc hcan fun w hw u hu => ?_
  have hrun : w.runKinval d (d.ref r) = ((w.accept (d.ref r)).markSlots (s.marked (d.p1 % 2048))).modKst
      fun k => { k with marking := some { ref := d.ref r, slots := s.marked (d.p1 % 2048) } } := by
    unfold State.runKinval
    dsimp only
    rw [hw.kinvalCheck, hc]
    dsimp only
    rw [State.marked_of_kst hw.kst]
    rfl
  rw [hrun] at hu
  refine ⟨?_, by rw [hu.path.kst]; rfl, ?_⟩
  · have hcur : (((w.accept (d.ref r)).markSlots (s.marked (d.p1 % 2048))).modKst
        fun k => { k with marking := some { ref := d.ref r, slots := s.marked (d.p1 % 2048) } }).cur = (w.accept (d.ref r)).cur :=
      State.markSlots_cur ..
    unfold State.Pends
    rw [hu.outst, hcur]
    exact State.accept_outst w (d.ref r)
  · have hslots := congrArg Kst.slots ((hw.trans (w.accept_samePath (d.ref r))).markSlots (s.marked (d.p1 % 2048))).kst
    rw [hu.path.kst]
    exact hslots

/-! ### Line keys are erased (R142) -/

/-- An LKN is as it was, or empty. -/
def State.keptOrEmpty (s t : State) : Prop := ∀ m k, t.lkn m k = s.lkn m k ∨ t.lkn m k = {}

theorem State.lknErase_mills {m k : Fin 4} (h : (s.lkn m k).loaded = true) :
    ∃ w : State, (s.lknErase m k).mills = w.mills ∧ ∀ m' k', w.lkn m' k' = (s.modLkn m k fun _ => {}).lkn m' k' := by
  unfold State.lknErase
  rw [if_pos h]
  dsimp only
  split
  · refine ⟨((s.modLkn m k fun _ => {}).countMill m 1 11 0).modLci m fun x => { x with arm := none }, ?_, fun m' k' => ?_⟩
    · exact (State.endHalts_samePath ..).mills.trans ((State.completeOpt_samePath ..).mills.trans
        ((State.armDelta_keeps ..).1.mills.trans (State.lknDelta_keeps ..).1.mills))
    · by_cases hm : m = m'
      · subst hm
        exact State.lkn_modLci _ m k' fun _ => rfl
      · exact State.lkn_of_lci (State.lci_modLci_ne _ m m' _ hm) k'
  · exact ⟨s.modLkn m k fun _ => {}, (State.endHalts_samePath ..).mills.trans (State.lknDelta_keeps ..).1.mills, fun _ _ => rfl⟩

theorem State.lknErase_keptOrEmpty (s : State) (m k : Fin 4) : s.keptOrEmpty (s.lknErase m k) := by
  intro m' k'
  by_cases h : (s.lkn m k).loaded = true
  · obtain ⟨w, hmills, hlkn⟩ := State.lknErase_mills h
    rw [State.lkn_of_mills hmills, hlkn]
    by_cases hm : m = m'
    · subst hm
      by_cases hk : k = k'
      · subst hk
        exact .inr (s.lkn_modLkn ..)
      · exact .inl (s.lkn_modLkn_ne m _ hk)
    · exact .inl (State.lkn_of_lci (State.lci_modLci_ne s m m' _ hm) k')
  · have hsame : s.lknErase m k = s := if_neg h
    exact .inl (by rw [hsame])

theorem State.lknErase_erases {m k : Fin 4} (h : (s.lkn m k).loaded = true) : (s.lknErase m k).lkn m k = {} := by
  obtain ⟨w, hmills, hlkn⟩ := State.lknErase_mills h
  rw [State.lkn_of_mills hmills, hlkn, State.lkn_modLkn]

theorem State.keptOrEmpty.trans (h : s.keptOrEmpty t) (k : t.keptOrEmpty u) : s.keptOrEmpty u := fun m j => by
  rcases k m j with hk | hk
  · rw [hk]
    exact h m j
  · exact .inr hk

/-- The step of `lknEraseWhere` for one LKN. -/
def State.lknOrphan (s : State) (p : Nat → Bool) (m k : Fin 4) : State :=
  if (s.lkn m k).loaded && p (s.lkn m k).slot then (s.lknErase m k).setBit (Reg.lci m 4) 20 else s

theorem State.lknEraseWhere_cons (s : State) (p : Nat → Bool) (m k : Fin 4) (ks : List (Fin 4 × Fin 4)) :
    s.lknEraseWhere p true ((m, k) :: ks) = (s.lknOrphan p m k).lknEraseWhere p true ks := rfl

theorem State.lknOrphan_lkn (s : State) (p : Nat → Bool) (m k : Fin 4) : s.keptOrEmpty (s.lknOrphan p m k)
    ∧ ((s.lkn m k).loaded = true → p (s.lkn m k).slot = true → (s.lknOrphan p m k).lkn m k = {}) := by
  have hbit : ∀ i j, ((s.lknErase m k).setBit (Reg.lci m 4) 20).lkn i j = (s.lknErase m k).lkn i j :=
    State.lkn_of_mills (State.setBit_mills ..)
  unfold State.lknOrphan
  split
  · next h =>
    obtain ⟨hl, -⟩ := Bool.and_eq_true_iff.mp h
    refine ⟨fun i j => ?_, fun _ _ => ?_⟩
    · rw [hbit]
      exact s.lknErase_keptOrEmpty m k i j
    · rw [hbit, State.lknErase_erases hl]
  · next h => exact ⟨fun _ _ => .inl rfl, fun hl hp => absurd (Bool.and_eq_true_iff.mpr ⟨hl, hp⟩) h⟩

theorem State.lknEraseWhere_lkn (p : Nat → Bool) : ∀ (ks : List (Fin 4 × Fin 4)) (s : State), s.keptOrEmpty (s.lknEraseWhere p true ks)
    ∧ ∀ m k, (m, k) ∈ ks → (s.lkn m k).loaded = true → p (s.lkn m k).slot = true → (s.lknEraseWhere p true ks).lkn m k = {}
  | [], _ => ⟨fun _ _ => .inl rfl, fun _ _ h => absurd h List.not_mem_nil⟩
  | (m, k) :: ks, s => by
    obtain ⟨hkept, herased⟩ := State.lknEraseWhere_lkn p ks (s.lknOrphan p m k)
    obtain ⟨hfirst, hhere⟩ := s.lknOrphan_lkn p m k
    rw [State.lknEraseWhere_cons]
    refine ⟨hfirst.trans hkept, fun m' k' hmem hl hp => ?_⟩
    rcases List.mem_cons.mp hmem with he | hmem
    · obtain ⟨rfl, rfl⟩ := Prod.mk.inj he
      rcases hkept m' k' with h | h
      · rw [h, hhere hl hp]
      · exact h
    · rcases hfirst m' k' with h | h
      · exact herased m' k' hmem (by rw [h, hl]) (by rw [h, hp])
      · rcases hkept m' k' with hk | hk
        · rw [hk, h]
        · exact hk

theorem mem_allLkns (m k : Fin 4) : (m, k) ∈ allLkns := by revert m k; decide

/-! ### What the publication does (R310, R311) -/

/-- The progress of the invalidation, the utility contexts and the line keys are as they were. -/
structure State.KeysKept (s t : State) : Prop where
  marking : t.kst.marking = s.kst.marking
  sweeping : t.kst.sweeping = s.kst.sweeping
  ctx : t.uci.ctx = s.uci.ctx
  lkn : ∀ m k, t.lkn m k = s.lkn m k

theorem State.KeysKept.trans (h : s.KeysKept t) (k : t.KeysKept u) : s.KeysKept u :=
  ⟨k.marking.trans h.marking, k.sweeping.trans h.sweeping, k.ctx.trans h.ctx, fun m j => (k.lkn m j).trans (h.lkn m j)⟩

theorem State.KeysKept.refl (s : State) : s.KeysKept s := ⟨rfl, rfl, rfl, fun _ _ => rfl⟩

theorem Only.invalidation {ps : List Area} (h : Only ps s t) (hk : ps.contains .kst = false) :
    t.kst.marking = s.kst.marking ∧ t.kst.sweeping = s.kst.sweeping := by
  have hrest : t.kst.rest = s.kst.rest := h .kst hk
  have hmarking : t.kst.rest.marking = s.kst.rest.marking := congrArg Kst.marking hrest
  have hsweeping : t.kst.rest.sweeping = s.kst.rest.sweeping := congrArg Kst.sweeping hrest
  exact ⟨hmarking, hsweeping⟩

theorem State.KeysKept.of_only {ps : List Area} (h : Only ps s t) (hk : ps.contains .kst = false) (hu : ps.contains .uci = false)
    (hl : ps.contains .lci = false) : s.KeysKept t := by
  obtain ⟨hmarking, hsweeping⟩ := h.invalidation hk
  exact ⟨hmarking, hsweeping, congrArg Uci.ctx (h .uci hu), fun m => State.lkn_of_lci (h .lci hl m)⟩

theorem State.KeysKept.of_samePath (h : s.SamePath t) : s.KeysKept t :=
  ⟨congrArg Kst.marking h.kst, congrArg Kst.sweeping h.kst, congrArg Uci.ctx h.uci, h.lkn⟩

theorem State.queueTombs_keysKept : ∀ (ns : List Nat) (s : State), s.KeysKept (ns.foldl State.queueTomb s)
  | [], s => .refl s
  | n :: ns, s => .trans (t := s.queueTomb n) ⟨rfl, rfl, rfl, fun _ _ => rfl⟩ (State.queueTombs_keysKept ns _)

/-- A region's load changes the memory's side of it, and asks for its draw. -/
theorem State.regionBegin_memory {ps : List Area} {a : State} (h : Only ps a s) (r : Fin 8) (slot : Nat)
    (hs : sub [.out, .status, .rng, .mem, .sac] ps = true) : Only ps a (s.regionBegin r slot) := by
  unfold State.regionBegin
  split
  · exact State.modRgn_only h r _ (sub_of rfl hs)
  · dsimp only
    generalize hw : State.modRgn _ r _ = w
    have hw : Only ps a w := by
      rw [← hw]
      exact State.modRgn_only (State.regionClear_only (State.failPending_only h r _ (sub_of rfl hs)) r (sub_of rfl hs)) r _ (sub_of rfl hs)
    split
    · exact hw
    · split
      · next hask =>
        unfold State.rngDeliver
        exact State.modMem_only (State.rngAsk_only_of hask hw (sub_of rfl hs)) _ (sub_of rfl hs)
      · next hask =>
        unfold State.rngRefuse
        exact State.modMem_only (State.rngAsk_only_of hask hw (sub_of rfl hs)) _ (sub_of rfl hs)
      · next hask => exact State.rngAsk_only_of hask hw (sub_of rfl hs)

/-- A load of a utility context leaves every context as it is until its draw has come. -/
theorem State.uciBegin_keysKept (s : State) (slot : Nat) (c : Fin 4) : s.KeysKept (s.uciBegin slot c) := by
  unfold State.uciBegin
  split
  · exact ⟨rfl, rfl, rfl, fun _ _ => rfl⟩
  · dsimp only
    generalize hw : State.modUci s _ = w
    have hw : s.KeysKept w := by rw [← hw]; exact ⟨rfl, rfl, rfl, fun _ _ => rfl⟩
    have hask : w.KeysKept (w.rngAsk 7 .uciLoad 8).1 := .of_only (State.rngAsk_only (ps := [.rng]) (Only.refl w) 7 .uciLoad 8 rfl) rfl rfl rfl
    have hload : ∀ (x : State) (f : Uci → Uci), (∀ y, (f y).ctx = y.ctx) → x.KeysKept (x.modUci f) := fun x f hf =>
      ⟨rfl, rfl, hf x.uci, fun _ _ => rfl⟩
    split
    · next he =>
      rw [he] at hask
      unfold State.rngDeliver
      exact (hw.trans hask).trans (hload _ _ fun _ => rfl)
    · next he =>
      rw [he] at hask
      unfold State.rngRefuse
      exact (hw.trans hask).trans (hload _ _ fun _ => rfl)
    · next he =>
      rw [he] at hask
      exact hw.trans hask

theorem State.resumeLoads_keysKept (s : State) : s.KeysKept s.resumeLoads := by
  have hregions := Only.foldl (ps := [.out, .status, .rng, .mem, .sac])
    (fun s r => match (s.rgn r).unchecked with | some n => s.regionBegin r n | none => s)
    (fun x r h => by
      split
      · exact State.regionBegin_memory h r _ rfl
      · exact h) (List.finRange 8) s (Only.refl s)
  unfold State.resumeLoads
  split
  · exact .refl s
  · dsimp only
    refine (State.KeysKept.of_only hregions rfl rfl rfl).trans ?_
    split
    · split
      · exact State.uciBegin_keysKept ..
      · exact .refl _
    · exact .refl _

/-- The invalidations that are over are DONE. -/
theorem State.settleInvals_samePath (s : State) : ∃ l, (s.modKst fun k => { k with invals := l }).SamePath s.settleInvals := by
  have hdone : ∀ (l : List Kinval) (x : State), x.SamePath (l.foldl (fun s v => s.complete v.ref 0) x) := by
    intro l
    induction l with
    | nil => exact State.SamePath.refl
    | cons v l ih => exact fun x => (x.complete_samePath ..).trans (ih _)
  exact ⟨_, hdone _ _⟩

theorem State.settleInvals_keysKept (s : State) : s.KeysKept s.settleInvals := by
  obtain ⟨l, h⟩ := s.settleInvals_samePath
  exact .trans (t := s.modKst fun k => { k with invals := l }) ⟨rfl, rfl, rfl, fun _ _ => rfl⟩ (.of_samePath h)

theorem State.mateEnd_keysKept (s : State) : s.KeysKept s.mateLook.settle := by
  obtain ⟨p, e, h, o, x, d, hs⟩ := s.mateLook_ends
  refine .trans (t := s.mateLook) ?_ (.of_samePath (State.settle_samePath _))
  rw [hs]
  exact ⟨rfl, rfl, rfl, fun _ _ => rfl⟩

/-- The state in which the marked slots are published. -/
def State.vectorPublished (s : State) (x : Kinval) : State := s.modKst fun k => { k with
  marking := none, invals := k.invals ++ [x], sweeping := true, reserve := k.reserve.filter fun e => !x.slots.contains e.slot }

/-- The state in which the keys that the lines and the memory took from the published slots are gone. -/
def State.copiesErased (s : State) (p : Nat → Bool) : State := (s.lknEraseWhere p true allLkns).rgnEraseWhere p (List.finRange 8)

/-- The state in which those of the utility cipher are gone too. -/
def State.contextsErased (s : State) (p : Nat → Bool) : State := (s.copiesErased p).modUci fun u => u.erase p

theorem State.publish_keysKept (s : State) (x : Kinval) :
    ((s.vectorPublished x).contextsErased fun n => x.slots.contains n).KeysKept (s.publish x) :=
  (State.KeysKept.of_only (State.dropOrphans_only (ps := [.counts, .sac, .sch, .trib]) (Only.refl _) rfl) rfl rfl rfl).trans
    ((State.queueTombs_keysKept _ _).trans ((State.resumeLoads_keysKept _).trans (State.settleInvals_keysKept _)))

/-- The erasures take the keys of the slots that satisfy `p`, and leave the invalidation as it stands. -/
theorem State.contextsErased_erases (s : State) (p : Nat → Bool) :
    (s.contextsErased p).kst.marking = s.kst.marking ∧ (s.contextsErased p).kst.sweeping = s.kst.sweeping
    ∧ (∀ m k, (s.lkn m k).loaded = true → p (s.lkn m k).slot = true → (s.contextsErased p).lkn m k = {})
    ∧ (s.contextsErased p).uci.ctx = s.uci.ctx.map fun y => if y.loaded && p y.slot then {} else y := by
  have hlines := State.lknEraseWhere_only (ps := [.out, .status, .counts, .evrQueue, .lci, .cur, .mte]) (Only.refl s) p true allLkns rfl
  have hregions := State.rgnEraseWhere_only (ps := [.out, .status, .mem, .sac]) (Only.refl (s.lknEraseWhere p true allLkns)) p
    (List.finRange 8) rfl
  have hcontexts := State.modUci_only (ps := [.uci]) (Only.refl (s.copiesErased p)) (fun u => u.erase p) rfl
  have honly : Only [.out, .status, .counts, .evrQueue, .lci, .cur, .mte, .mem, .sac, .uci] s (s.contextsErased p) :=
    ((hlines.mono rfl).trans (hregions.mono rfl)).trans (hcontexts.mono rfl)
  have huci : (s.copiesErased p).uci = s.uci := (hregions .uci rfl).trans (hlines .uci rfl)
  have hlci : ∀ m, (s.contextsErased p).lci m = (s.lknEraseWhere p true allLkns).lci m := fun m =>
    (hcontexts .lci rfl m).trans (hregions .lci rfl m)
  obtain ⟨hmarking, hsweeping⟩ := honly.invalidation rfl
  obtain ⟨-, herased⟩ := State.lknEraseWhere_lkn p allLkns s
  exact ⟨hmarking, hsweeping, fun m k hl hp => (State.lkn_of_lci (hlci m) k).trans (herased m k (mem_allLkns m k) hl hp),
    congrArg (fun y : Uci => (y.erase p).ctx) huci⟩

theorem kinvalPublish_completes {x : Kinval} (h : s.kst.marking = some x) : Completes .kinvalPublish s fun u =>
    u.kst.marking = none ∧ u.kst.sweeping = true
    ∧ (∀ m k : Fin 4, (s.lkn m k).loaded = true → x.slots.contains (s.lkn m k).slot = true → (u.lkn m k).loaded = false)
    ∧ ∀ c : Fin 4, s.uci.ctx[c].loaded = true → x.slots.contains s.uci.ctx[c].slot = true → u.uci.ctx[c].loaded = false := by
  have hx : exec .kinvalPublish s = finish (s.publish x).mateLook := by
    change execKinvalPublish s = _
    unfold execKinvalPublish
    rw [h]
    rfl
  have hkept := (s.publish_keysKept x).trans (State.mateEnd_keysKept _)
  obtain ⟨hmarking, hsweeping, hlkn, hctx⟩ := (s.vectorPublished x).contextsErased_erases fun n => x.slots.contains n
  refine completes_finish hx ⟨hkept.marking.trans hmarking, hkept.sweeping.trans hsweeping, fun m k hl hp => ?_, fun c hl hp => ?_⟩
  · rw [hkept.lkn, hlkn m k hl hp]
  · have hloaded : s.uci.ctx[c.val].loaded = true := hl
    have hslot : x.slots.contains s.uci.ctx[c.val].slot = true := hp
    have hgone : ((s.vectorPublished x).uci.ctx.map fun y => if y.loaded && x.slots.contains y.slot then {} else y)[c.val].loaded = false := by
      rw [Vector.getElem_map]
      change (if s.uci.ctx[c.val].loaded && x.slots.contains s.uci.ctx[c.val].slot then ({} : UciCtx) else _).loaded = false
      rw [hloaded, hslot]
      rfl
    rw [hkept.ctx, hctx]
    exact hgone

/-! ### A slot becomes EMPTY (R311) -/

theorem slotInvalidationDone_completes {n : Fin 1088} (hst : (s.slot n.val).st = .invalidating) (hpub : s.unpublished n.val = false)
    (hsweep : s.kst.sweeping = false) (hcopy : s.copyBusy n.val = false) :
    Completes (.slotInvalidationDone n) s fun u => u.kst.slots = tset default n.val {} s.kst.slots := by
  have hx : exec (.slotInvalidationDone n) s = finish (s.setSlot n.val {}).settleInvals := by
    change execSlotInvalidationDone n s = _
    unfold execSlotInvalidationDone
    dsimp only
    rw [hst, hpub, hsweep, hcopy]
    rfl
  obtain ⟨l, h⟩ := (s.setSlot n.val {}).settleInvals_samePath
  refine completes_finish hx ?_
  rw [State.settle_kst, h.kst]
  rfl

/-- Settles O34: an operation by what it was to do, and the steps of an invalidation by their lemmas. -/
theorem keyOperationsEnd : Obligations.KeyOperationsEnd := by
  unfold Obligations.KeyOperationsEnd
  refine ⟨fun s i j hj hneed => ⟨fun n v e hop hkept hempty => ?_, fun n v e hop hkept hempty => ?_,
    fun n e hop => opComplete_stage hj hneed hop, fun n v e hop h => ?_, fun n g e hop => ?_,
    fun n key idKey gen attr nonce addr hop => opComplete_attest hj hneed hop⟩,
    fun s => ⟨fun r d hlc hcan ht => kinval_completes hlc hcan ht, fun v => kinvalPublish_completes,
      fun n => slotInvalidationDone_completes⟩⟩
  · exact opComplete_install hj hneed (by rw [hop]; rfl) (by unfold State.endJob; rw [hop]) hkept hempty
  · exact opComplete_install hj hneed (by rw [hop]; rfl) (by unfold State.endJob; rw [hop]) hkept hempty
  · rcases hop with hop | hop
    · exact opComplete_erased hj hneed (by rw [hop]; rfl) (by unfold State.endJob; rw [hop]) h
    · exact opComplete_erased hj hneed (by rw [hop]; rfl) (by unfold State.endJob; rw [hop]) h
  · have he : (s.jobTaken j).endJob j e = (s.jobTaken j).complete j.ref 0 g := by
      unfold State.endJob
      rw [hop]
    exact (opComplete_ends hj hneed (.inr (by rw [hop]; rfl)) he rfl).mono fun u ⟨hkst, hrec, _⟩ => ⟨hkst, hrec⟩

end Sys2Proof.Machine
end

section
/-! Line keys are loaded, enabled and retired (R123, R125, R140). -/

namespace Sys2Proof.Machine

variable {s t u v : State} {r : Rid} {d : Desc}

theorem State.SamePath.modLkn (h : s.SamePath t) (m k : Fin 4) (f : Lkn → Lkn) : (s.modLkn m k f).SamePath (t.modLkn m k f) :=
  h.modMill m fun x => { x with lci := { x.lci with lkn := x.lci.lkn.set k (f x.lci.lkn[k]) } }

theorem State.SamePath.slot (h : s.SamePath t) (n : Nat) : t.slot n = s.slot n := congrArg (fun x : Kst => tget default x.slots n) h.kst

/-! ### An instruction that changes one LKN and tells the standby -/

/-- Its effect is that of its change on the mills. -/
theorem completes_lkn {i : Instr} {mop : Nat} {op : Nat → Bool} {chk : State → Fin 4 → Desc → Option Nat}
    {eff : State → Fin 4 → Desc → Eff}
    (f : State → Fin 4 → Desc → State) (hx : exec i s = s.issue r mop op (State.doApply chk eff)) (ht : s.Takes r mop op d)
    (hc : chk (s.pop r) r.eng d = none) (he : ∃ x, (eff (s.pop r) r.eng d).s = ((f (s.pop r) r.eng d).delta x).1)
    (hr : (eff (s.pop r) r.eng d).result = 0) (hl : (eff (s.pop r) r.eng d).late = false) (hcur : (f (s.pop r) r.eng d).cur = (s.pop r).cur)
    (hf : (f s r.eng d).SamePath (f (s.pop r) r.eng d)) : Completes i s fun u => s.Applies u r d ∧ u.mills = (f s r.eng d).mills :=
  (completes_told f hx ht hc he hr hl (fun k => by rw [hcur]) hf).mono fun _ ⟨happ, hmills, _⟩ => ⟨happ, hmills⟩

theorem checkLkn_passes (hl : (s.lkn r.eng (lkOf d)).loaded = true) : checkLkn (s.pop r) r.eng d = none := by
  unfold checkLkn State.lkEmpty
  rw [(s.pop_samePath r).lkn, hl]
  rfl

/-! ### LOAD (R125) -/

/-- The LKN as LOAD fills it. -/
def State.keyLoaded (s : State) (m : Fin 4) (d : Desc) : State := s.modLkn m (lkOf d) fun _ =>
  { loaded := true, key := (s.slot d.p2).key, salt := beNat (d.argBytes 0 12), chid := d.arg 12 4, slot := d.p2, gen := (s.slot d.p2).gen }

theorem State.SamePath.lkLoadCheck (h : s.SamePath t) (pf : Fin 2) (m : Fin 4) (d : Desc) : t.lkLoadCheck pf m d = s.lkLoadCheck pf m d := by
  obtain ⟨_, _, _, _, _, _, rfl⟩ := h
  rfl

theorem lkarmLoad_completes (ht : s.Takes r 0x18 (· = 0) d) (hopen : s.kstClosed = false) (hc : s.lkLoadCheck (ringPf r) r.eng d = none) :
    Completes (.lkarmLoad r) s fun u => s.Applies u r d ∧ u.mills = (s.keyLoaded r.eng d).mills := by
  have hpop := s.pop_samePath r
  have hx : exec (.lkarmLoad r) s = s.issue r 0x18 (· = 0) (State.doApply (checkLkarmLoad r) applyLkarmLoad) := by
    obtain ⟨hhead, hgate⟩ := ht
    change execLkarmLoad r s = _
    unfold execLkarmLoad
    rw [hhead]
    dsimp only
    rw [hgate, hopen]
    rfl
  refine completes_lkn (chk := checkLkarmLoad r) State.keyLoaded hx ht ((hpop.lkLoadCheck ..).trans hc) ⟨_, rfl⟩ rfl rfl rfl ?_
  unfold State.keyLoaded
  rw [hpop.slot]
  exact hpop.modLkn ..

/-- While the key store is closed LOAD waits (R310). -/
theorem lkarmLoad_waits (ht : s.Takes r 0x18 (· = 0) d) (hclosed : s.kstClosed = true) :
    Completes (.lkarmLoad r) s fun u => (u.ring r).waiting = true ∧ u.mills = s.mills := by
  have hx : exec (.lkarmLoad r) s = finish (s.modRing r fun g => { g with waiting := true }) := by
    obtain ⟨hhead, hgate⟩ := ht
    change execLkarmLoad r s = _
    unfold execLkarmLoad
    rw [hhead]
    dsimp only
    rw [hgate, hclosed]
    rfl
  refine completes_finish hx ⟨?_, State.settle_mills _⟩
  rw [State.settle_ring, State.ring_modRing]

/-! ### RXON, RXOFF (R123, R140), and LKRETIRE -/

/-- The LKN as RXON enables it, its first-sheet bit cleared. -/
def State.rxEnabled (s : State) (m : Fin 4) (d : Desc) : State :=
  (s.modLkn m (lkOf d) fun x => { x with rx := true, rxSeen := false }).setBit (Reg.lci m 4) (12 + (lkOf d).val) false

theorem lkarmRxon_completes (ht : s.Takes r 0x18 (· = 1) d) (hl : (s.lkn r.eng (lkOf d)).loaded = true) :
    Completes (.lkarmRxon r) s fun u => s.Applies u r d
      ∧ u.mills = (s.modLkn r.eng (lkOf d) fun x => { x with rx := true, rxSeen := false }).mills := by
  have hpath : (s.rxEnabled r.eng d).SamePath ((s.pop r).rxEnabled r.eng d) :=
    ((s.pop_samePath r).modLkn ..).setBit _ _ false
  have hmills : (s.rxEnabled r.eng d).mills = (s.modLkn r.eng (lkOf d) fun x => { x with rx := true, rxSeen := false }).mills :=
    State.setBit_mills ..
  rw [← hmills]
  exact completes_lkn (chk := checkLkn) (eff := applyLkarmRxon) State.rxEnabled rfl ht (checkLkn_passes hl)
    ⟨.lkn r.eng (lkOf d) (((s.pop r).rxEnabled r.eng d).lkn r.eng (lkOf d)), rfl⟩ rfl rfl rfl hpath

theorem lkarmRxoff_completes (ht : s.Takes r 0x18 (· = 2) d) (hl : (s.lkn r.eng (lkOf d)).loaded = true) :
    Completes (.lkarmRxoff r) s fun u => s.Applies u r d
      ∧ u.mills = (s.modLkn r.eng (lkOf d) fun x => { x with rx := false, track := .track }).mills :=
  completes_lkn (fun s m d => s.modLkn m (lkOf d) fun x => { x with rx := false, track := .track })
    rfl ht (checkLkn_passes hl) ⟨_, rfl⟩ rfl rfl rfl ((s.pop_samePath r).modLkn ..)

theorem lkretire_completes (ht : s.Takes r 0x19 (fun _ => true) d) (hl : (s.lkn r.eng (lkOf d)).loaded = true)
    (htx : (s.lkn r.eng (lkOf d)).tx = .idle ∨ (s.lkn r.eng (lkOf d)).tx = .done) :
    Completes (.lkretire r) s fun u => s.Applies u r d ∧ u.mills = (s.modLkn r.eng (lkOf d) fun _ => {}).mills := by
  have hc : checkLkretire (s.pop r) r.eng d = none := by
    unfold checkLkretire
    dsimp only
    rw [(s.pop_samePath r).lkn, hl]
    rcases htx with h | h <;> rw [h] <;> rfl
  exact completes_lkn (fun s m d => s.modLkn m (lkOf d) fun _ => {}) rfl ht hc ⟨_, rfl⟩ rfl rfl rfl ((s.pop_samePath r).modLkn ..)

/-! ### RESYNC (R139, R140) -/

/-- A query for the LKN waits in the dialogue, or is outstanding. -/
def State.queries (s : State) (m k : Fin 4) : Prop :=
  .seqQuery k ∈ (s.line m).dlg.queue ∨ (s.line m).dlg.out.map (·.own) = some (some (.seqQuery k))

theorem State.seqQueryDue_queries (s : State) (m k : Fin 4) : (s.seqQueryDue m k).queries m k := by
  have hsent : (s.ownMsg m (.seqQuery k)).queries m k := by
    refine .inl ?_
    rw [State.ownMsg_line]
    exact List.mem_append_right _ (List.mem_singleton_self _)
  have hwaits : (s.line m).dlg.queue.contains (.seqQuery k) = true → s.queries m k := fun h => .inl (List.contains_iff_mem.mp h)
  unfold State.seqQueryDue
  dsimp only
  cases hout : (s.line m).dlg.out with
  | none =>
    dsimp only
    rw [Bool.false_or]
    split
    · next h => exact hwaits h
    · exact hsent
  | some o =>
    dsimp only
    split
    · next h =>
      rcases Bool.or_eq_true_iff.mp h with h | h
      · refine .inr ?_
        rw [hout]
        exact congrArg some (of_decide_eq_true h)
      · exact hwaits h
    · exact hsent

theorem State.resync_lci (s : State) (m k : Fin 4) : (s.resync m k).lci m = (s.modLkn m k fun x => { x with track := .resync }).lci m :=
  State.seqQueryDue_only (ps := [.line]) (Only.refl (s.modLkn m k fun x => { x with track := .resync })) m k rfl .lci rfl m

theorem State.resync_cur (s : State) (m k : Fin 4) : (s.resync m k).cur = s.cur :=
  State.seqQueryDue_only (ps := [.line]) (Only.refl (s.modLkn m k fun x => { x with track := .resync })) m k rfl .cur rfl

theorem lkarmResync_completes (ht : s.Takes r 0x18 (· = 6) d) (hl : (s.lkn r.eng (lkOf d)).loaded = true)
    (hrx : (s.lkn r.eng (lkOf d)).rx = true) : Completes (.lkarmResync r) s fun u => s.Applies u r d
      ∧ u.lci r.eng = ((s.modLkn r.eng (lkOf d) fun x => { x with track := .resync }).lci r.eng) ∧ u.queries r.eng (lkOf d) := by
  have hpop := s.pop_samePath r
  have hc : checkLkarmResync (s.pop r) r.eng d = none := by
    unfold checkLkarmResync
    dsimp only
    rw [hpop.lkn, hl, hrx]
    rfl
  refine completes_apply (i := .lkarmResync r) (eff := applyLkarmResync) rfl ht hc (congrArg (fun x : Vector Engine 4 => x[r.eng].applying)
    (State.resync_cur ..)) fun u hu => ?_
  have hu : ((s.pop r).resync r.eng (lkOf d)).SamePath u := hu
  refine ⟨?_, ?_⟩
  · rw [hu.lci, State.resync_lci, (hpop.modLkn ..).lci]
  · unfold State.queries
    rw [State.line_of_mills hu.mills]
    exact State.seqQueryDue_queries _ r.eng (lkOf d)

end Sys2Proof.Machine
end

section
/-! The SA cache on two states with the same path: fills, frames that are dropped, pins and faults (R161-R165). -/

namespace Sys2Proof.Machine

variable {s t u v : State}

/-! ### What is read on the path -/

theorem State.SamePath.sac (h : s.SamePath t) (m : Fin 4) : t.sac m = s.sac m := congrArg (fun x : Vector Mill 4 => x[m].sac) h.mills

theorem State.SamePath.sa (h : s.SamePath t) : t.sa = s.sa := by obtain ⟨_, _, _, _, _, _, rfl⟩ := h; rfl
theorem State.SamePath.sc (h : s.SamePath t) : t.sc = s.sc := by obtain ⟨_, _, _, _, _, _, rfl⟩ := h; rfl
theorem State.SamePath.mem (h : s.SamePath t) : t.mem = s.mem := by obtain ⟨_, _, _, _, _, _, rfl⟩ := h; rfl

theorem State.SamePath.saAt (h : s.SamePath t) (n : Nat) : t.saAt n = s.saAt n := by unfold State.saAt; rw [h.sa]
theorem State.SamePath.scAt (h : s.SamePath t) (n : Nat) : t.scAt n = s.scAt n := by unfold State.scAt; rw [h.sc]

theorem State.SamePath.pickWay (h : s.SamePath t) (m : Fin 4) (sax : Nat) : t.pickWay m sax = s.pickWay m sax := by
  obtain ⟨_, _, _, _, _, _, rfl⟩ := h
  rfl

/-! ### Operations without a choice -/

theorem State.SamePath.modSac (h : s.SamePath t) (m : Fin 4) (f : Sac → Sac) : (s.modSac m f).SamePath (t.modSac m f) :=
  h.modMill m fun x => { x with sac := f x.sac }

theorem State.SamePath.modMem (h : s.SamePath t) (f : Mem → Mem) : (s.modMem f).SamePath (t.modMem f) := by
  obtain ⟨_, _, _, _, _, _, rfl⟩ := h
  exact ⟨_, _, _, _, _, _, rfl⟩

theorem State.SamePath.setSa (h : s.SamePath t) (n : Nat) (x : SaDir) : (s.setSa n x).SamePath (t.setSa n x) := by
  obtain ⟨_, _, _, _, _, _, rfl⟩ := h
  exact ⟨_, _, _, _, _, _, rfl⟩

theorem State.SamePath.memPush (h : s.SamePath t) (q : MemReq) : (s.memPush q).SamePath (t.memPush q) := by
  obtain ⟨_, _, _, _, _, _, rfl⟩ := h
  exact ⟨_, _, _, _, _, _, rfl⟩

theorem State.SamePath.cancelReqs (h : s.SamePath t) (p : MemReq → Bool) : (s.cancelReqs p).SamePath (t.cancelReqs p) := h.modMem _

theorem State.SamePath.cancelWid (h : s.SamePath t) (m : Fin 4) (w : Nat) : (s.cancelWid m w).SamePath (t.cancelWid m w) := h.cancelReqs _

theorem State.SamePath.cancelWrites (h : s.SamePath t) (m : Fin 4) (sax : Nat) : (s.cancelWrites m sax).SamePath (t.cancelWrites m sax) :=
  h.cancelReqs _

theorem State.SamePath.doomFrames (h : s.SamePath t) (m : Fin 4) (p : Nat → Bool) : (s.doomFrames m p).SamePath (t.doomFrames m p) :=
  h.modVat m _

/-- Whatever their records, the ends of commands leave the path. -/
theorem State.SamePath.complete (h : s.SamePath t) (ref : CmdRef) (st res : Nat) (late stepped : Bool) (n k : Option W32) :
    (s.complete ref st res late stepped n).SamePath (t.complete ref st res late stepped k) :=
  (s.complete_samePath ..).symm.trans (h.trans (t.complete_samePath ..))

theorem State.SamePath.feltSend (h : s.SamePath t) (type : Nat) (body : Bytes) : (s.feltSend type body).SamePath (t.feltSend type body) := by
  obtain ⟨p, e, k, o, c, g, rfl⟩ := h
  exact .ite (fun _ => ⟨p, e, k, _, c, g, rfl⟩) fun _ => ⟨p, e, k, o, c, g, rfl⟩

theorem State.SamePath.delta (h : s.SamePath t) (x : Delta) (ream : Option (Fin 4 × W32)) : (s.delta x ream).1.SamePath (t.delta x ream).1 := by
  have hheld : t.standbyHeld = s.standbyHeld := by obtain ⟨_, _, _, _, _, _, rfl⟩ := h; rfl
  have hnext : (s.modMte fun x => { x with dseq := s.mte.dseq + 1 }).SamePath (t.modMte fun x => { x with dseq := t.mte.dseq + 1 }) := by
    obtain ⟨_, _, _, _, _, _, rfl⟩ := h
    exact ⟨_, _, _, _, _, _, rfl⟩
  have hdseq : t.mte.dseq = s.mte.dseq := by obtain ⟨_, _, _, _, _, _, rfl⟩ := h; rfl
  unfold State.delta
  rw [hheld]
  split
  · dsimp only
    rw [hdseq] at hnext ⊢
    exact (State.countDev_samePath ..).symm.trans ((hnext.feltSend ..).trans (State.countDev_samePath ..))
  · exact h

/-! ### Transfers with the memory -/

theorem State.SamePath.pushLines (h : s.SamePath t) (m : Fin 4) (sax : Nat) (op : Nat → MemOp) :
    (s.pushLines m sax op).SamePath (t.pushLines m sax op) := by
  unfold State.pushLines
  dsimp only
  rw [h.mem]
  refine State.SamePath.modMem (State.SamePath.foldl (fun i x y hxy => ?_) _ h) _
  have haddr : y.ctxAddr sax i.val = x.ctxAddr sax i.val := by obtain ⟨_, _, _, _, _, _, rfl⟩ := hxy; rfl
  rw [haddr]
  exact hxy.memPush _

theorem State.SamePath.pushCtx (h : s.SamePath t) (m : Fin 4) (sax : Nat) (c : Bytes) : (s.pushCtx m sax c).SamePath (t.pushCtx m sax c) :=
  h.pushLines ..

theorem State.SamePath.pageStalls (h : s.SamePath t) (c : Fin 4) (p : Nat) (m : Fin 4) : (s.pageStalls c p m).SamePath (t.pageStalls c p m) := by
  unfold State.pageStalls State.chan
  dsimp only
  rw [h.mem, h.sac]
  exact .ite (fun _ => h) fun _ => (h.modSac m _).countMill ..

theorem State.SamePath.pullCtx (h : s.SamePath t) (m : Fin 4) (sax : Nat) : (s.pullCtx m sax).SamePath (t.pullCtx m sax) := by
  have haddr : t.ctxAddr sax 0 = s.ctxAddr sax 0 := by obtain ⟨_, _, _, _, _, _, rfl⟩ := h; rfl
  unfold State.pullCtx State.chan
  dsimp only
  rw [haddr, h.mem]
  exact .ite (fun _ => (h.pushLines ..).pageStalls ..) fun _ => h.pushLines ..

/-! ### Fills (R162, R164) -/

theorem State.SamePath.evict (h : s.SamePath t) (m : Fin 4) (k : Nat) : (s.evict m k).SamePath (t.evict m k) := by
  unfold State.evict
  rw [h.sac]
  split
  · exact h
  · next w _ =>
    have hout : t.ctxOut w.sax w.ctx = s.ctxOut w.sax w.ctx := by unfold State.ctxOut; rw [h.saAt]
    have hway := h.modSac m fun x => x.setWay k none
    dsimp only
    rw [hway.mem, hway.saAt, hout]
    exact .ite (fun _ => (hway.modSac ..).pushCtx ..) fun _ => hway.setSa ..

/-- The state in which way `k` is free for a fill, and touched. -/
def State.wayFreed (s : State) (m : Fin 4) (k : Nat) : State := (s.evict m k).modSac m (·.touch k)

/-- The fill of a way that is free. -/
def State.fillFrom (s : State) (m : Fin 4) (sax k : Nat) : State :=
  match (s.sac m).victim sax with
  | some v => (s.modSac m fun x => { x.fillWay k sax v.ctx true with victims := x.victims.filter fun y => decide (y.sax ≠ sax) }).cancelWid m v.wid
  | none => (s.modSac m fun x => { x.setWay k (some { sax := sax, ctx := [], filling := true }) with
      fetches := x.fetches ++ [{ sax := sax, wid := s.mem.nextWid }] }).pullCtx m sax

theorem State.tryFill_eq (s : State) (m : Fin 4) (sax : Nat) : s.tryFill m sax =
    if ((s.sac m).find sax).isSome then some s else (s.pickWay m sax).map fun k => (s.wayFreed m k).fillFrom m sax k := by
  unfold State.tryFill State.fillFrom
  rfl

theorem State.SamePath.fillFrom (h : s.SamePath t) (m : Fin 4) (sax k : Nat) : (s.fillFrom m sax k).SamePath (t.fillFrom m sax k) := by
  unfold State.fillFrom
  rw [h.sac, h.mem]
  split
  · exact (h.modSac ..).cancelWid ..
  · exact (h.modSac ..).pullCtx ..

theorem State.SamePath.tryFill (h : s.SamePath t) (m : Fin 4) (sax : Nat) : Option.Rel State.SamePath (s.tryFill m sax) (t.tryFill m sax) := by
  rw [State.tryFill_eq, State.tryFill_eq, h.sac, h.pickWay]
  split
  · exact .some h
  · cases s.pickWay m sax with
    | none => exact .none
    | some k => exact .some (((h.evict m k).modSac m _).fillFrom m sax k)

theorem State.SamePath.countFill (h : s.SamePath t) (m : Fin 4) (victim att : Bool) :
    (s.countFill m victim att).SamePath (t.countFill m victim att) := .ite (fun _ => h.countMill ..) fun _ => h

/-! ### Frames that are dropped -/

theorem State.SamePath.dropFrame (h : s.SamePath t) (m : Fin 4) (f : Frame) : (s.dropFrame m f).SamePath (t.dropFrame m f) :=
  .ite (fun _ => h.dropRx m f) fun _ => h.dropTx m

theorem State.SamePath.dropHeld (h : s.SamePath t) (m : Fin 4) (p : Frame → Bool) (ev q : Nat) :
    (s.dropHeld m p ev q).SamePath (t.dropHeld m p ev q) := by
  unfold State.dropHeld
  dsimp only
  rw [h.sac]
  exact State.SamePath.foldl (fun f _ _ hxy => (hxy.countMill ..).dropFrame m f) _ (h.modSac ..)

theorem State.SamePath.dropSa (h : s.SamePath t) (m : Fin 4) (sax : Nat) : (s.dropSa m sax).SamePath (t.dropSa m sax) := by
  unfold State.dropSa
  rw [h.scAt]
  exact (h.doomFrames ..).dropHeld ..

/-! ### What waited for a fill goes on (R161) -/

theorem State.SamePath.donePins (m : Fin 4) : ∀ (ps : List (CmdRef × Nat)) {s t : State}, s.SamePath t →
    (s.donePins m ps).SamePath (t.donePins m ps)
  | [], _, _, h => h
  | (ref, sax) :: ps, s, t, h => by
    rw [State.donePins, State.donePins, h.sac, h.saAt]
    refine State.SamePath.donePins m ps (.ite (fun _ => ?_) fun _ => h)
    exact State.SamePath.complete ((h.modSac ..).delta ..) ..

theorem State.SamePath.fillOne (h : s.SamePath t) (m : Fin 4) (w : FillWait) : (s.fillOne m w).SamePath (t.fillOne m w) := by
  have hgone := h.modSac m fun x => { x with fillWait := x.fillWait.erase w }
  have hfill := hgone.tryFill m w.sax
  unfold State.fillOne
  dsimp only
  rw [h.sac, h.saAt]
  refine .ite (fun _ => hgone.dropSa ..) fun _ => .ite (fun _ => h) fun _ => ?_
  cases hs : (s.modSac m fun x => { x with fillWait := x.fillWait.erase w }).tryFill m w.sax <;>
    cases ht : (t.modSac m fun x => { x with fillWait := x.fillWait.erase w }).tryFill m w.sax <;> rw [hs, ht] at hfill
  case none.none => exact h
  case some.some =>
    obtain ⟨hfill⟩ := hfill
    exact hfill.countFill ..
  all_goals exact nomatch hfill

theorem State.SamePath.retryFills (m : Fin 4) : ∀ (ws : List FillWait) {s t : State}, s.SamePath t →
    (s.retryFills m ws).SamePath (t.retryFills m ws)
  | [], s, t, h => by
    rw [State.retryFills, State.retryFills, h.sac]
    exact State.SamePath.donePins m _ h
  | w :: ws, _, _, h => State.SamePath.retryFills m ws (h.fillOne m w)

theorem State.SamePath.retry (h : s.SamePath t) (m : Fin 4) : (s.retry m).SamePath (t.retry m) := by
  unfold State.retry
  rw [h.sac]
  exact State.SamePath.retryFills m _ h

/-! ### What is in APPLYING stays there -/

/-- What is in APPLYING is as it was. -/
structure State.SameApplying (s t : State) : Prop where
  same : ∀ k : Fin 4, t.cur[k].applying = s.cur[k].applying

theorem State.SameApplying.of_cur (h : t.cur = s.cur) : s.SameApplying t := ⟨fun k => by rw [h]⟩

theorem State.SameApplying.trans (h : s.SameApplying t) (k : t.SameApplying u) : s.SameApplying u := ⟨fun i => (k.same i).trans (h.same i)⟩

theorem State.complete_sameApplying (s : State) (ref : CmdRef) (st res : Nat) (late stepped : Bool) (n : Option W32) :
    s.SameApplying (s.complete ref st res late stepped n) := ⟨s.complete_applying ref st res late stepped n⟩

theorem State.delta_sameApplying (s : State) (x : Delta) (ream : Option (Fin 4 × W32)) : s.SameApplying (s.delta x ream).1 :=
  .of_cur (s.delta_samePages x ream).2

theorem State.modSac_sameApplying (s : State) (m : Fin 4) (f : Sac → Sac) : s.SameApplying (s.modSac m f) := .of_cur rfl

/-! ### Faults (R165) -/

/-- The state in which the pins that satisfy `p` are no longer held. -/
def State.pinsDropped (s : State) (m : Fin 4) (p : Nat → Bool) : State :=
  s.modSac m fun x => { x with pins := x.pins.filter fun y => !p y.2 }

/-- Pins that fail end, and no more. -/
theorem State.endPins_ends : ∀ (l : List (CmdRef × Nat)) (s : State),
    s.SamePath (l.foldl (fun s x => s.complete x.1 0x47) s) ∧ s.SameApplying (l.foldl (fun s x => s.complete x.1 0x47) s)
  | [], s => ⟨.refl s, .of_cur rfl⟩
  | x :: l, s => by
    obtain ⟨hpath, happ⟩ := State.endPins_ends l (s.complete x.1 0x47)
    exact ⟨(s.complete_samePath ..).trans hpath, (s.complete_sameApplying ..).trans happ⟩

theorem State.failPins_ends (s : State) (m : Fin 4) (p : Nat → Bool) :
    (s.pinsDropped m p).SamePath (s.failPins m p) ∧ (s.pinsDropped m p).SameApplying (s.failPins m p) := State.endPins_ends ..

theorem State.SamePath.failPins (h : s.SamePath t) (m : Fin 4) (p : Nat → Bool) : (s.failPins m p).SamePath (t.failPins m p) := by
  obtain ⟨hs, -⟩ := s.failPins_ends m p
  obtain ⟨ht, -⟩ := t.failPins_ends m p
  exact hs.symm.trans ((h.modSac m _).trans ht)

/-- The state in which the SA is FAULTED and its context forgotten. -/
def State.faultEntered (s : State) (m : Fin 4) (sax cause : Nat) : State :=
  ((s.setSa sax { s.saAt sax with st := .faulted, cached := false, pinned := false }).modSac m fun x =>
    let y := x.forget sax
    if y.faultValid then y else { y with faultValid := true, faultSax := sax, faultCause := cause }).countMill m 3 8 0

/-- The state in which the frames, pins and writes that waited for it are gone too. -/
def State.faultCleared (s : State) (m : Fin 4) (sax cause : Nat) : State :=
  (((s.faultEntered m sax cause).dropHeld m (·.refersTo sax) 10).failPins m (· = sax)).cancelWrites m sax

theorem State.saFault_eq (s : State) (m : Fin 4) (sax cause : Nat) : s.saFault m sax cause =
    (((s.faultCleared m sax cause).delta (.sa sax ((s.faultCleared m sax cause).saAt sax) [])).1).retry m := rfl

theorem State.SamePath.faultCleared (h : s.SamePath t) (m : Fin 4) (sax cause : Nat) :
    (s.faultCleared m sax cause).SamePath (t.faultCleared m sax cause) := by
  unfold State.faultCleared State.faultEntered
  rw [h.saAt]
  exact (((((h.setSa ..).modSac ..).countMill ..).dropHeld ..).failPins ..).cancelWrites ..

theorem State.SamePath.saFault (h : s.SamePath t) (m : Fin 4) (sax cause : Nat) : (s.saFault m sax cause).SamePath (t.saFault m sax cause) := by
  have hm := h.faultCleared m sax cause
  rw [State.saFault_eq, State.saFault_eq, hm.saAt]
  exact (hm.delta ..).retry m

/-! ### A context is stored (R156) -/

theorem State.SamePath.storeAway (h : s.SamePath t) (m : Fin 4) (sax : Nat) (c : Bytes) : (s.storeAway m sax c).SamePath (t.storeAway m sax c) := by
  have hout : ∀ {x y : State}, x.SamePath y → y.ctxOut sax c = x.ctxOut sax c := fun hxy => by unfold State.ctxOut; rw [hxy.saAt]
  unfold State.storeAway
  dsimp only
  rw [h.sac, h.mem]
  split
  · next v _ =>
    rw [hout (h.cancelWid m v.wid)]
    exact ((h.cancelWid ..).modSac ..).pushCtx ..
  · rw [hout h]
    exact (h.modSac ..).pushCtx ..

theorem State.SamePath.storeCtx' (h : s.SamePath t) (m : Fin 4) (sax : Nat) (c : Bytes) : (s.storeCtx' m sax c).SamePath (t.storeCtx' m sax c) := by
  unfold State.storeCtx'
  dsimp only
  rw [h.sac]
  exact .ite (fun _ => h.modSac ..) fun _ => .ite (fun _ => h.modSac ..) fun _ => h.storeAway ..

theorem State.SamePath.ctxNow (h : s.SamePath t) (m : Fin 4) (sax : Nat) : t.ctxNow m sax = s.ctxNow m sax := by
  obtain ⟨_, _, _, _, _, _, rfl⟩ := h
  rfl

/-! ### A fault leaves what is in APPLYING -/

theorem State.cancelWrites_sameApplying (s : State) (m : Fin 4) (sax : Nat) : s.SameApplying (s.cancelWrites m sax) := .of_cur rfl

theorem State.donePins_sameApplying (m : Fin 4) : ∀ (ps : List (CmdRef × Nat)) (s : State), s.SameApplying (s.donePins m ps)
  | [], s => .of_cur rfl
  | (ref, sax) :: ps, s => by
    rw [State.donePins]
    split
    · exact (((s.modSac_sameApplying m _).trans (State.delta_sameApplying ..)).trans (State.complete_sameApplying ..)).trans
        (State.donePins_sameApplying m ps _)
    · exact State.donePins_sameApplying m ps s

theorem State.retryFills_sameApplying (m : Fin 4) : ∀ (ws : List FillWait) (s : State), s.SameApplying (s.retryFills m ws)
  | [], s => State.donePins_sameApplying m _ s
  | w :: ws, s => by
    have hone : s.SameApplying (s.fillOne m w) :=
      .of_cur (State.fillOne_only (ps := [.counts, .mem, .sac, .vat, .sch, .trib, .sa]) (Only.refl s) m w rfl .cur rfl)
    exact hone.trans (State.retryFills_sameApplying m ws _)

theorem State.retry_sameApplying (s : State) (m : Fin 4) : s.SameApplying (s.retry m) := State.retryFills_sameApplying m _ s

theorem State.failPins_sameApplying (s : State) (m : Fin 4) (p : Nat → Bool) : s.SameApplying (s.failPins m p) := by
  obtain ⟨-, happ⟩ := s.failPins_ends m p
  exact (s.modSac_sameApplying m _).trans happ

theorem State.saFault_sameApplying (s : State) (m : Fin 4) (sax cause : Nat) : s.SameApplying (s.saFault m sax cause) := by
  have hentered : s.SameApplying (s.faultEntered m sax cause) := .of_cur rfl
  have hheld := State.dropHeld_only (ps := [.counts, .sac, .sch, .trib]) (Only.refl (s.faultEntered m sax cause)) m (·.refersTo sax) 10 0 rfl
  have hcleared : s.SameApplying (s.faultCleared m sax cause) :=
    ((hentered.trans (.of_cur (hheld .cur rfl))).trans (State.failPins_sameApplying _ m (· = sax))).trans (State.cancelWrites_sameApplying ..)
  rw [State.saFault_eq]
  exact (hcleared.trans (State.delta_sameApplying ..)).trans (State.retry_sameApplying ..)

end Sys2Proof.Machine
end

section
/-! The SA instructions that set up (R156), and the settling of O48. -/

namespace Sys2Proof.Machine

variable {s t u v : State} {r : Rid} {d : Desc}

/-- Telling the standby of an SA or an SC leaves the mills, the directory and the SC table. -/
theorem State.delta_sas (s : State) (x : Delta) : (s.delta x).1.mills = s.mills ∧ (s.delta x).1.sa = s.sa ∧ (s.delta x).1.sc = s.sc := by
  obtain ⟨_, _, _, h⟩ := s.delta_ends x none
  rw [h]
  exact ⟨rfl, rfl, rfl⟩

/-! ### INSTALL -/

/-- The directory and the SC table as INSTALL enters the SA, and the write of its context. -/
def State.saEntered (s : State) (m : Fin 4) (d : Desc) : State :=
  ((s.setSa (saxOf d) { st := .installed, parent := d.arg 2 2 }).setSc d.p2
    { valid := true, rx := natBit (d.arg 0 1) 7, mill := m
      txAn := if natBit (d.arg 4 1) 0 && !natBit (d.arg 0 1) 7 then d.p1 % 4 else (s.scAt d.p2).txAn }).modSac m fun x =>
    { x with writes := x.writes ++ [{ sax := saxOf d, ctx := s.newCtx m d ((saUnwrap s d).getD []), wid := s.mem.nextWid }] }

theorem applySainstInstall_keeps (s : State) (m : Fin 4) (d : Desc) :
    Only [.out, .counts, .mte, .mem] (s.saEntered m d) (applySainstInstall s m d).s := by
  have hwrites := State.pushCtx_only (ps := [.out, .counts, .mte, .mem]) (Only.refl (s.saEntered m d)) m (saxOf d)
    (s.newCtx m d ((saUnwrap s d).getD [])) rfl
  unfold applySainstInstall
  exact State.deltas_only hwrites _ rfl

theorem State.SamePath.saEntered (h : s.SamePath t) (m : Fin 4) (d : Desc) : (s.saEntered m d).SamePath (t.saEntered m d) := by
  obtain ⟨_, _, _, _, _, _, rfl⟩ := h
  exact ⟨_, _, _, _, _, _, rfl⟩

theorem State.SamePath.checkSainstInstall (h : s.SamePath t) (m : Fin 4) (d : Desc) :
    checkSainstInstall r t m d = s.saInstCheck (ringPf r) m d := by
  obtain ⟨_, _, _, _, _, _, rfl⟩ := h
  rfl

theorem sainstInstall_completes (ht : s.Takes r 0x01 (· = 0) d) (hopen : s.kstClosed = false) (hc : s.saInstCheck (ringPf r) r.eng d = none) :
    Completes (.sainstInstall r) s fun u => s.Applies u r d ∧ u.sa = (s.saEntered r.eng d).sa ∧ u.sac r.eng = (s.saEntered r.eng d).sac r.eng
      ∧ u.sc = (s.saEntered r.eng d).sc := by
  have hx : exec (.sainstInstall r) s = s.issue r 0x01 (· = 0) (State.doApply (checkSainstInstall r) applySainstInstall) := by
    obtain ⟨hhead, hgate⟩ := ht
    change execSainstInstall r s = _
    unfold execSainstInstall
    rw [hhead]
    dsimp only
    rw [hgate, hopen]
    rfl
  have hkeeps := applySainstInstall_keeps (s.pop r) r.eng d
  have hpath := (s.pop_samePath r).saEntered r.eng d
  have hcur : (applySainstInstall (s.pop r) r.eng d).s.cur = (s.pop r).cur := hkeeps .cur rfl
  refine completes_apply (chk := checkSainstInstall r) (eff := applySainstInstall) hx ht (((s.pop_samePath r).checkSainstInstall ..).trans hc)
    (by rw [hcur]) fun u hu => ⟨?_, ?_, ?_⟩
  · exact hu.sa.trans ((hkeeps .sa rfl).trans hpath.sa)
  · exact (hu.sac _).trans ((hkeeps .sac rfl r.eng).trans (hpath.sac _))
  · exact hu.sc.trans ((hkeeps .sc rfl).trans hpath.sc)

/-! ### UPDATE_LPN -/

theorem State.SamePath.checkSainstUpdateLpn (h : s.SamePath t) (m : Fin 4) (d : Desc) :
    checkSainstUpdateLpn t m d = checkSainstUpdateLpn s m d := by
  obtain ⟨_, _, _, _, _, _, rfl⟩ := h
  rfl

theorem sainstUpdateLpn_raises (ht : s.Takes r 0x01 (· = 1) d) (hc : checkSainstUpdateLpn s r.eng d = none) {c : Bytes}
    (hctx : s.ctxNow r.eng (saxOf d) = .ok c) : Completes (.sainstUpdateLpn r) s fun u => s.Applies u r d ∧ u.mills =
      if ctxLe c 88 8 < d.arg 32 8 then (s.storeCtx' r.eng (saxOf d) (ctxSet c 88 8 (d.arg 32 8))).mills else s.mills := by
  have hpop := s.pop_samePath r
  have hpasses := (hpop.checkSainstUpdateLpn r.eng d).trans hc
  by_cases hfloor : ctxLe c 88 8 < d.arg 32 8
  · obtain ⟨n, heff⟩ : ∃ n, applySainstUpdateLpn (s.pop r) r.eng d = { s := (((s.pop r).storeCtx' r.eng (saxOf d)
        (ctxSet c 88 8 (d.arg 32 8))).delta (.sa (saxOf d) ((s.pop r).saAt (saxOf d)) (ctxSet c 88 8 (d.arg 32 8)))).1, dseq := n } := by
      unfold applySainstUpdateLpn
      rw [hpop.ctxNow, hctx]
      exact ⟨_, if_pos hfloor⟩
    have hcur : ((s.pop r).storeCtx' r.eng (saxOf d) (ctxSet c 88 8 (d.arg 32 8))).cur = (s.pop r).cur :=
      State.storeCtx'_only (ps := [.mem, .sac]) (Only.refl (s.pop r)) r.eng (saxOf d) _ rfl .cur rfl
    have h := completes_apply (i := .sainstUpdateLpn r) (chk := checkSainstUpdateLpn) (eff := applySainstUpdateLpn)
      (P := fun u => u.mills = (s.storeCtx' r.eng (saxOf d) (ctxSet c 88 8 (d.arg 32 8))).mills) rfl ht hpasses
      (by rw [heff, (State.delta_samePages ..).2, hcur]) fun u hu => by
        rw [heff] at hu
        exact hu.mills.trans ((State.delta_sas ..).1.trans (hpop.storeCtx' ..).mills)
    rw [if_pos hfloor]
    rwa [heff] at h
  · have heff : applySainstUpdateLpn (s.pop r) r.eng d = { s := s.pop r } := by
      unfold applySainstUpdateLpn
      rw [hpop.ctxNow, hctx]
      exact if_neg hfloor
    have h := completes_apply (i := .sainstUpdateLpn r) (chk := checkSainstUpdateLpn) (eff := applySainstUpdateLpn)
      (P := fun u => u.mills = s.mills) rfl ht hpasses (by rw [heff]) fun u hu => by
        rw [heff] at hu
        exact hu.mills.trans hpop.mills
    rw [if_neg hfloor]
    rwa [heff] at h

/-- An SA whose context cannot be read is FAULTED (R165). -/
theorem sainstUpdateLpn_faults (ht : s.Takes r 0x01 (· = 1) d) (hc : checkSainstUpdateLpn s r.eng d = none) {cause : Nat}
    (hctx : s.ctxNow r.eng (saxOf d) = .error cause) : Completes (.sainstUpdateLpn r) s fun u => s.Applies u r d
      ∧ u.mills = (s.saFault r.eng (saxOf d) cause).mills ∧ u.sa = (s.saFault r.eng (saxOf d) cause).sa := by
  have hpop := s.pop_samePath r
  have heff : applySainstUpdateLpn (s.pop r) r.eng d = { s := (s.pop r).saFault r.eng (saxOf d) cause } := by
    unfold applySainstUpdateLpn
    rw [hpop.ctxNow, hctx]
  have hfault := hpop.saFault r.eng (saxOf d) cause
  have happ := (s.pop r).saFault_sameApplying r.eng (saxOf d) cause
  generalize s.saFault r.eng (saxOf d) cause = w at hfault ⊢
  generalize (s.pop r).saFault r.eng (saxOf d) cause = v at hfault happ heff
  have h := completes_apply (i := .sainstUpdateLpn r) (chk := checkSainstUpdateLpn) (eff := applySainstUpdateLpn)
    (P := fun u => u.mills = w.mills ∧ u.sa = w.sa) rfl ht ((hpop.checkSainstUpdateLpn ..).trans hc)
    (by rw [heff]; exact happ.same r.eng) fun u hu => by
      rw [heff] at hu
      exact ⟨(hfault.trans hu).mills, (hfault.trans hu).sa⟩
  rwa [heff] at h

/-! ### SETCUR and UNPIN -/

theorem State.SamePath.checkSainstSetcur (h : s.SamePath t) (m : Fin 4) (d : Desc) : checkSainstSetcur t m d = checkSainstSetcur s m d := by
  obtain ⟨_, _, _, _, _, _, rfl⟩ := h
  rfl

theorem sainstSetcur_completes (ht : s.Takes r 0x01 (· = 2) d) (hc : checkSainstSetcur s r.eng d = none) :
    Completes (.sainstSetcur r) s fun u => s.Applies u r d ∧ u.sc = tset default d.p2 { s.scAt d.p2 with txAn := d.p1 % 4 } s.sc := by
  have hpop := s.pop_samePath r
  have heff : (applySainstSetcur (s.pop r) r.eng d).s = (((s.pop r).setSc d.p2 { (s.pop r).scAt d.p2 with txAn := d.p1 % 4 }).delta
      (.sc d.p2 { (s.pop r).scAt d.p2 with txAn := d.p1 % 4 })).1 := rfl
  refine completes_apply (i := .sainstSetcur r) (chk := checkSainstSetcur) (eff := applySainstSetcur) rfl ht
    ((hpop.checkSainstSetcur ..).trans hc) ?_ fun u hu => ?_
  · rw [heff, (State.delta_samePages ..).2]
    rfl
  · rw [heff] at hu
    obtain ⟨-, -, hsc⟩ := ((s.pop r).setSc d.p2 { (s.pop r).scAt d.p2 with txAn := d.p1 % 4 }).delta_sas
      (.sc d.p2 { (s.pop r).scAt d.p2 with txAn := d.p1 % 4 })
    rw [hu.sc, hsc, hpop.scAt]
    exact congrArg (tset default d.p2 { s.scAt d.p2 with txAn := d.p1 % 4 }) hpop.sc

theorem State.SamePath.checkSapinUnpin (h : s.SamePath t) (m : Fin 4) (d : Desc) : checkSapinUnpin t m d = checkSapinUnpin s m d := by
  obtain ⟨_, _, _, _, _, _, rfl⟩ := h
  rfl

/-- Where no fill waits, what goes on leaves the directory. -/
theorem State.retry_sa {m : Fin 4} (h : (s.sac m).fillWait = []) : (s.retry m).sa = s.sa := by
  unfold State.retry
  rw [h]
  exact State.donePins_only (ps := [.out, .counts, .evrQueue, .sac, .cur, .mte]) (Only.refl s) m (s.sac m).pins rfl .sa rfl

/-- The state in which the SA is no longer pinned, and the standby has been told. -/
def State.unpinned (s : State) (sax : Nat) : State :=
  ((s.setSa sax { s.saAt sax with pinned := false }).delta (.sa sax { s.saAt sax with pinned := false } [])).1

theorem sapinUnpin_completes (ht : s.Takes r 0x03 (· = 1) d) (hc : checkSapinUnpin s r.eng d = none) :
    Completes (.sapinUnpin r) s fun u => s.Applies u r d
      ∧ ((s.sac r.eng).fillWait = [] → u.sa = tset default (saxOf d) { s.saAt (saxOf d) with pinned := false } s.sa) := by
  have hpop := s.pop_samePath r
  have heff : (applySapinUnpin (s.pop r) r.eng d).s = ((s.pop r).unpinned (saxOf d)).retry r.eng := rfl
  obtain ⟨hmills, hsa, -⟩ := ((s.pop r).setSa (saxOf d) { (s.pop r).saAt (saxOf d) with pinned := false }).delta_sas
    (.sa (saxOf d) { (s.pop r).saAt (saxOf d) with pinned := false } [])
  have hcur : (s.pop r).SameApplying ((s.pop r).unpinned (saxOf d)) := .of_cur (State.delta_samePages ..).2
  refine completes_apply (i := .sapinUnpin r) (chk := checkSapinUnpin) (eff := applySapinUnpin) rfl ht
    ((hpop.checkSapinUnpin ..).trans hc) ?_ fun u hu hnone => ?_
  · rw [heff]
    exact (hcur.trans (State.retry_sameApplying ..)).same r.eng
  · rw [heff] at hu
    have hwait : (((s.pop r).unpinned (saxOf d)).sac r.eng).fillWait = [] := by
      have hsac : ((s.pop r).unpinned (saxOf d)).sac r.eng = (s.pop r).sac r.eng := congrArg (fun x : Vector Mill 4 => x[r.eng].sac) hmills
      rw [hsac, hpop.sac, hnone]
    have hdir : ((s.pop r).unpinned (saxOf d)).sa = tset default (saxOf d) { (s.pop r).saAt (saxOf d) with pinned := false } (s.pop r).sa := hsa
    rw [hu.sa, State.retry_sa hwait, hdir, hpop.saAt, hpop.sa]

/-- Settles O48: each instruction by its lemma. -/
theorem keysLoadAndRetire : Obligations.KeysLoadAndRetire := by
  unfold Obligations.KeysLoadAndRetire
  refine ⟨fun s r d => ⟨lkarmLoad_completes, lkarmLoad_waits, lkarmRxon_completes, lkarmRxoff_completes, lkarmResync_completes,
    lkretire_completes⟩, fun s r d => ⟨fun ht hopen hc => ?_, fun ht hc => ⟨fun c => sainstUpdateLpn_raises ht hc,
    fun cause => sainstUpdateLpn_faults ht hc⟩, sainstSetcur_completes, sapinUnpin_completes⟩⟩
  refine (sainstInstall_completes ht hopen hc).mono fun u ⟨happ, hsa, hsac, hsc⟩ => ⟨happ, hsa, ?_, hsc⟩
  rw [hsac, State.saEntered, State.sac_modSac]
  rfl

end Sys2Proof.Machine
end

section
/-! The data-plane instructions that ask for a service (R151, R188, R190, R194, R245, R281), and the colours of a policer (R245, R248). -/

namespace Sys2Proof.Machine

variable {s : State} {t : Tid} {i : VInstr} {n : Nat}

/-! ### Instructions that change their thread and nothing else -/

/-- The instruction with the outcome `r` completes, and the mills are as before but for the engine's round and its thread, which is `z`. -/
def ThreadBecomes (r : Res) (s : State) (t : Tid) (z : Thread) : Prop :=
  ∃ u, r = .next u ∧ u.mills = ((s.tookTurn t).setThread t z).mills

theorem becomes_of_vatRow {sel : VInstr → Bool} {run : State → Thread → VInstr → Except Nat State} {z : Thread}
    (h : s.Issues t i n) (hsel : sel i = true)
    (hrun : run ((s.tookTurn t).setThread t (s.past t n)) (s.past t n) i = .ok (((s.tookTurn t).setThread t (s.past t n)).setThread t z)) :
    ThreadBecomes (vatRow t sel run s) s t z := by
  rw [State.setThread_setThread _ _ (State.past_ne h)] at hrun
  exact ⟨_, vatRow_next h hsel hrun, State.settle_mills _⟩

theorem becomes_of_vatLocal {sel : VInstr → Bool} {f : Thread → VInstr → Except Nat Thread} {z : Thread}
    (h : s.Issues t i n) (hsel : sel i = true) (hf : f (s.past t n) i = .ok z) : ThreadBecomes (vatLocal t sel f s) s t z :=
  ⟨_, vatLocal_next h hsel hf, State.settle_mills _⟩

/-! ### Requests to a unit -/

theorem lkp_requests {gd pd gk tab kw : Nat} (h : s.Issues t (.lkp gd pd gk tab kw) n) (hok : s.htOk t.mill tab kw = true) :
    ThreadBecomes (execLkp t s) s t { s.past t n with
      reqs := (s.thread t).reqs ++ [.hash gd pd tab ((s.thread t).hashKey gk kw) ((s.past t n).pc - 2)] } :=
  becomes_of_vatRow h rfl (if_pos hok)

theorem tcm_requests {gd pd gk part : Nat} (h : s.Issues t (.tcm gd pd gk part) n) (hpart : (s.tcamPart t.mill part).2 ≠ 0) :
    ThreadBecomes (execTcm t s) s t { s.past t n with
      reqs := (s.thread t).reqs ++ [.tcam gd pd part ((s.thread t).hashKey gk 2) ((s.past t n).pc - 2)] } :=
  becomes_of_vatRow h rfl (if_neg hpart)

theorem att_requests {gs : Nat} (h : s.Issues t (.att gs) n) (hfirst : (s.thread t).attUsed = false)
    (hscx : ((s.thread t).gr gs).toNat < 16384) :
    ThreadBecomes (execAtt t s) s t { s.past t n with
      attUsed := true, wait := .att ((s.thread t).gr gs).toNat false ((s.past t n).pc - 1) } := by
  have hpast : (s.past t n).attUsed = false := hfirst
  refine becomes_of_vatLocal h rfl ?_
  unfold runAtt
  dsimp only
  rw [hpast, if_neg Bool.false_ne_true]
  exact if_neg (Nat.not_le.mpr hscx)

theorem pol_requests {gd gs : Nat} (h : s.Issues t (.pol gd gs) n) (hcount : (s.thread t).polCount < 2)
    (hn : ((s.thread t).gr gs).toNat < 4096) (hen : (s.policer t.mill ((s.thread t).gr gs).toNat).en = true) :
    ThreadBecomes (execPol t s) s t { s.past t n with
      polCount := (s.thread t).polCount + 1
      reqs := (s.thread t).reqs ++ [.pol gd ((s.thread t).gr gs).toNat ((s.past t n).pc - 2)] } := by
  have hpol : ((s.tookTurn t).setThread t (s.past t n)).policer t.mill ((s.thread t).gr gs).toNat
      = s.policer t.mill ((s.thread t).gr gs).toNat := by
    unfold State.policer
    rw [State.setThread_sch, State.tookTurn_sch]
  refine becomes_of_vatRow h rfl ?_
  refine (if_neg (Nat.not_le.mpr hcount)).trans (if_neg ?_)
  rintro (hbig | hoff)
  · exact absurd hbig (Nat.not_le.mpr hn)
  · rw [show ((s.past t n).gr gs) = (s.thread t).gr gs from rfl, hpol, hen] at hoff
    cases hoff

/-! ### What is recorded in the thread -/

theorem trib_records {v : VSrc} (h : s.Issues t (.trib v) n) (htx : (s.thread t).frame.rx = false)
    (hlo : 1 ≤ ((s.thread t).src v).toNat % 16384) (hhi : ((s.thread t).src v).toNat % 16384 ≤ 16381)
    (hact : (s.tribAt (((s.thread t).src v).toNat % 16384)).active = true) :
    ThreadBecomes (execTrib t s) s t { s.past t n with trib := some (((s.thread t).src v).toNat % 16384) } := by
  have hsrc : (s.past t n).src v = (s.thread t).src v := by cases v <;> rfl
  refine becomes_of_vatRow h rfl ?_
  dsimp only
  rw [hsrc]
  refine if_neg ?_
  rintro (hrx | hzero | hbig | hidle)
  · exact Bool.false_ne_true (htx.symm.trans hrx)
  · omega
  · omega
  · rw [show ((s.tookTurn t).setThread t (s.past t n)).tribAt (((s.thread t).src v).toNat % 16384)
      = s.tribAt (((s.thread t).src v).toNat % 16384) from rfl, hact] at hidle
    cases hidle

theorem cls_records {v : VSrc} (h : s.Issues t (.cls v) n) :
    ThreadBecomes (execCls t s) s t { s.past t n with cls := some (((s.thread t).src v).toNat % 8) } :=
  becomes_of_vatLocal h rfl (by cases v <;> rfl)

/-! ### Marks -/

/-- FLAGS of the frame: it is a PTP event message, or a follow-up message (Table 6-1). -/
def Thread.ptpEvent (x : Thread) : Bool := natBit (tget 0 x.desc 8) 4
def Thread.ptpFollow (x : Thread) : Bool := natBit (tget 0 x.desc 8) 5

theorem stmp_captures (h : s.Issues t (.stmp 1) n) (hptp : (s.thread t).ptpEvent = true ∨ (s.thread t).ptpFollow = true) :
    ThreadBecomes (execStmp t s) s t { s.past t n with frame := { (s.thread t).frame with tsCapture := true } } := by
  refine becomes_of_vatRow h rfl (if_neg ?_)
  change ¬(!(s.thread t).ptpEvent && !(s.thread t).ptpFollow) = true
  rcases hptp with hp | hp <;> rw [hp]
  · exact Bool.false_ne_true
  · rw [Bool.not_true, Bool.and_false]
    exact Bool.false_ne_true

theorem stmp_marks_event (h : s.Issues t (.stmp 0) n) (hev : (s.thread t).ptpEvent = true) :
    ThreadBecomes (execStmp t s) s t { s.past t n with frame := { (s.thread t).frame with tcEvent := true } } := by
  have hev : natBit (tget 0 (s.past t n).desc 8) 4 = true := hev
  refine becomes_of_vatRow h rfl ?_
  dsimp only
  rw [hev]
  rfl

theorem stmp_marks_follow (h : s.Issues t (.stmp 2) n) (hev : (s.thread t).ptpEvent = false) (hfo : (s.thread t).ptpFollow = true) :
    ThreadBecomes (execStmp t s) s t { s.past t n with frame := { (s.thread t).frame with tcFollow := true } } := by
  have hev : natBit (tget 0 (s.past t n).desc 8) 4 = false := hev
  have hfo : natBit (tget 0 (s.past t n).desc 8) 5 = true := hfo
  refine becomes_of_vatRow h rfl ?_
  dsimp only
  rw [hev, hfo]
  rfl

/-! ### Policers -/

/-- The colour and the tokens of a frame of `len` bytes, for each of the three outcomes. -/
theorem Policer.decide_cases (p : Policer) (now prev len : Nat) :
    let b := p.b.upTo now
    let u := ((len : Int) + b.adj) * byteU
    let c := if p.aware then prev else 0
    ((c = 2 ∨ b.tp < u) ∧ p.decide now prev len = (2, { p with b := b }))
    ∨ (¬(c = 2 ∨ b.tp < u) ∧ (c = 1 ∨ b.tc < u) ∧ p.decide now prev len = (1, { p with b := { b with tp := b.tp - u } }))
    ∨ (¬(c = 2 ∨ b.tp < u) ∧ ¬(c = 1 ∨ b.tc < u)
      ∧ p.decide now prev len = (0, { p with b := { b with tp := b.tp - u, tc := b.tc - u } })) := by
  intro b u c
  unfold Policer.decide
  by_cases hred : c = 2 ∨ b.tp < u
  · exact .inl ⟨hred, if_pos hred⟩
  · by_cases hyellow : c = 1 ∨ b.tc < u
    · exact .inr (.inl ⟨hred, hyellow, (if_neg hred).trans (if_pos hyellow)⟩)
    · exact .inr (.inr ⟨hred, hyellow, (if_neg hred).trans (if_neg hyellow)⟩)

/-- R245, R248: a policer colours a frame by the buckets that hold its tokens, and takes them. -/
theorem Policer.decide_colours (p : Policer) (now prev len : Nat) (hprev : prev ≤ 2) :
    let b := p.b.upTo now
    let u := ((len : Int) + b.adj) * byteU
    let o := p.decide now prev len
    (o.1 = 0 ∨ o.1 = 1 ∨ o.1 = 2)
    ∧ (p.aware = true → prev ≤ o.1)
    ∧ (o.1 = 0 → u ≤ b.tp ∧ u ≤ b.tc ∧ o.2.b.tp = b.tp - u ∧ o.2.b.tc = b.tc - u)
    ∧ (o.1 = 1 → u ≤ b.tp ∧ o.2.b.tp = b.tp - u ∧ o.2.b.tc = b.tc)
    ∧ (o.1 = 2 → o.2.b.tp = b.tp ∧ o.2.b.tc = b.tc)
    ∧ (p.aware = false → (o.1 = 2 ↔ b.tp < u) ∧ (o.1 = 1 ↔ ¬ b.tp < u ∧ b.tc < u)) := by
  have hcases := p.decide_cases now prev len
  dsimp only at hcases ⊢
  rcases hcases with ⟨hred, ho⟩ | ⟨hred, hyellow, ho⟩ | ⟨hred, hyellow, ho⟩ <;> rw [ho]
  · refine ⟨.inr (.inr rfl), fun _ => hprev, nofun, nofun, fun _ => ⟨rfl, rfl⟩, fun ha => ?_⟩
    rw [ha] at hred
    have hshort := hred.resolve_left (by simp)
    exact ⟨⟨fun _ => hshort, fun _ => rfl⟩, nofun, fun hy => absurd hshort hy.1⟩
  · refine ⟨.inr (.inl rfl), fun ha => ?_, nofun, fun _ => ⟨Int.not_lt.mp (not_or.mp hred).2, rfl, rfl⟩, nofun, fun ha => ?_⟩
    · have hbest := (not_or.mp hred).1
      rw [ha, if_pos rfl] at hbest
      omega
    · rw [ha] at hyellow
      exact ⟨⟨nofun, fun hr => absurd hr (not_or.mp hred).2⟩, fun _ => ⟨(not_or.mp hred).2, hyellow.resolve_left (by simp)⟩, fun _ => rfl⟩
  · obtain ⟨hnotRed, htp⟩ := not_or.mp hred
    obtain ⟨hnotYellow, htc⟩ := not_or.mp hyellow
    refine ⟨.inl rfl, fun ha => ?_, fun _ => ⟨Int.not_lt.mp htp, Int.not_lt.mp htc, rfl, rfl⟩, nofun, nofun,
      fun _ => ⟨⟨nofun, fun hr => absurd hr htp⟩, nofun, fun hy => absurd hy.2 htc⟩⟩
    rw [ha, if_pos rfl] at hnotRed hnotYellow
    omega

/-- Settles O9: each instruction by its lemma, and the policer's colours. -/
theorem vatFrameInstructions : Obligations.VatFrameInstructions := by
  unfold Obligations.VatFrameInstructions
  exact ⟨fun s t n => ⟨fun gd pd gk tab kw => lkp_requests, fun gd pd gk part => tcm_requests, fun gs => att_requests,
    fun v => trib_records, fun v => cls_records, fun gd gs => pol_requests, stmp_captures, stmp_marks_event, stmp_marks_follow⟩,
    Policer.decide_colours⟩

end Sys2Proof.Machine
end

section
/-! The SA cache answers an `ATT`, and the limits of a frame in the vat (R148, R151, R161, R162, R201, R202). -/

namespace Sys2Proof.Machine

variable {s : State} {t : Tid}

/-! ### The SA cache answers (Table 5-7) -/

/-- The frame of the thread, attached to the SA. -/
def Thread.attached (x : Thread) (sax : Nat) : Frame := { x.frame with att := some sax }

/-- The answer for an installed SA: a hit, a fill that is under way, a context in the victim buffer, a fetch that begins, or a stall. -/
def State.attInstalled (s : State) (t : Tid) (scx : Nat) (stalled : Bool) (pc : W14) (sax : Nat) : State :=
  let x := s.thread t
  let s0 := s.attach t x (x.attached sax)
  let stall := s.attStall t x scx stalled pc
  let room := decide (s.missHold t.mill x.frame.rx < 1024)
  if ((s.sac t.mill).find sax).isSome then
    if ((s.sac t.mill).ctx sax).isSome then (s0.modSac t.mill (·.touch (((s.sac t.mill).find sax).getD 0))).countMill t.mill 3 0 0
    else if room then s0.countMill t.mill 3 2 0 else stall
  else if (s.sac t.mill).awaited sax then if room then s0.countMill t.mill 3 2 0 else stall
  else if ((s.sac t.mill).victim sax).isSome then
    if room || (s.pickWay t.mill sax).isSome then s0.startFill t.mill sax true else stall
  else if room && decide ((s.sac t.mill).missOut < 64) then (s0.startFill t.mill sax).countMill t.mill 3 1 0
  else stall

/-- The answer for a frame whose SA has been selected. -/
def State.attAnswer (s : State) (t : Tid) (scx : Nat) (stalled : Bool) (pc : W14) (sax : Nat) : State :=
  let x := s.thread t
  let f := x.attached sax
  if x.frame.rx && !x.tagged then s.attach t x { f with badTag := true }
  else if saMissing (s.saEff sax) then s.attach t x { f with doomed := true }
  else if s.saEff sax = .orphaned ∨ s.saEff sax = .faulted then s.attach t x f
  else if s.saEff sax = .exhausted then (s.attach t x { f with refused := true }).countRefused t.mill sax
  else s.attInstalled t scx stalled pc sax

section
variable {scx sax : Nat} {stalled : Bool} {pc : W14} (hwait : (s.thread t).wait = .att scx stalled pc)
  (hsel : s.attSelect t (s.thread t) scx = .ok sax)
include hwait hsel

theorem exec_saCacheAttach : exec (.saCacheAttach t) s = finish (s.attAnswer t scx stalled pc sax) := by
  change execSaCacheAttach t s = _
  unfold execSaCacheAttach State.attAnswer State.attInstalled
  dsimp only
  rw [hwait]
  dsimp only
  rw [hsel]
  dsimp only
  cases hfind : (s.sac t.mill).find sax <;> simp only [apply_ite finish] <;> rfl

/-- What the mills are after the answer. -/
theorem saCacheAttach_mills {w : State} (hw : (s.attAnswer t scx stalled pc sax).mills = w.mills) :
    Completes (.saCacheAttach t) s fun u => u.mills = w.mills :=
  completes_finish (exec_saCacheAttach hwait hsel) ((State.settle_mills _).trans hw)

end

section
variable {scx sax : Nat} {stalled : Bool} {pc : W14}

/-- A received frame without a SecTAG is attached as one. -/
theorem State.attAnswer_untagged (hrx : (s.thread t).frame.rx = true) (htag : (s.thread t).tagged = false) :
    s.attAnswer t scx stalled pc sax = s.attach t (s.thread t) { (s.thread t).attached sax with badTag := true } :=
  if_pos (by rw [hrx, htag]; rfl)

variable (htag : (s.thread t).frame.rx = true → (s.thread t).tagged = true)
include htag

theorem Thread.not_untagged : ¬((s.thread t).frame.rx && !(s.thread t).tagged) = true := by
  cases hrx : (s.thread t).frame.rx with
  | false => exact Bool.false_ne_true
  | true =>
    rw [htag hrx]
    exact Bool.false_ne_true

theorem State.attAnswer_missing (hst : saMissing (s.saEff sax) = true) :
    s.attAnswer t scx stalled pc sax = s.attach t (s.thread t) { (s.thread t).attached sax with doomed := true } :=
  (if_neg (Thread.not_untagged htag)).trans (if_pos hst)

theorem State.attAnswer_gone (hst : s.saEff sax = .orphaned ∨ s.saEff sax = .faulted) :
    s.attAnswer t scx stalled pc sax = s.attach t (s.thread t) ((s.thread t).attached sax) := by
  have hthere : ¬saMissing (s.saEff sax) = true := by rcases hst with h | h <;> rw [h] <;> decide
  exact (if_neg (Thread.not_untagged htag)).trans ((if_neg hthere).trans (if_pos hst))

theorem State.attAnswer_exhausted (hst : s.saEff sax = .exhausted) : s.attAnswer t scx stalled pc sax =
    (s.attach t (s.thread t) { (s.thread t).attached sax with refused := true }).countRefused t.mill sax := by
  unfold State.attAnswer
  dsimp only
  rw [if_neg (Thread.not_untagged htag), hst]
  rfl

theorem State.attAnswer_installed (hst : s.saEff sax = .installed) :
    s.attAnswer t scx stalled pc sax = s.attInstalled t scx stalled pc sax := by
  unfold State.attAnswer
  dsimp only
  rw [if_neg (Thread.not_untagged htag), hst]
  rfl

end

section
variable {scx sax : Nat} {stalled : Bool} {pc : W14}

/-- A hit: the way is marked used. -/
theorem State.attInstalled_hit {k : Nat} (hfind : (s.sac t.mill).find sax = some k) (hctx : ((s.sac t.mill).ctx sax).isSome = true) :
    (s.attInstalled t scx stalled pc sax).mills =
      ((s.attach t (s.thread t) ((s.thread t).attached sax)).modSac t.mill (·.touch k)).mills := by
  unfold State.attInstalled
  dsimp only
  rw [hfind, if_pos Option.isSome_some, if_pos hctx]
  rfl

variable (hfind : (s.sac t.mill).find sax = none) (hwaits : (s.sac t.mill).awaited sax = false)
  (hvictim : (s.sac t.mill).victim sax = none)
include hfind hwaits hvictim

/-- A context that is nowhere in the cache. -/
theorem State.attInstalled_away : s.attInstalled t scx stalled pc sax =
    if decide (s.missHold t.mill (s.thread t).frame.rx < 1024) && decide ((s.sac t.mill).missOut < 64) then
      ((s.attach t (s.thread t) ((s.thread t).attached sax)).startFill t.mill sax).countMill t.mill 3 1 0
    else s.attStall t (s.thread t) scx stalled pc := by
  unfold State.attInstalled
  dsimp only
  rw [hfind, hwaits, hvictim]
  rfl

/-- Its fetch starts where the miss hold and the miss queue have room. -/
theorem State.attInstalled_fetch (hhold : s.missHold t.mill (s.thread t).frame.rx < 1024) (hout : (s.sac t.mill).missOut < 64) :
    (s.attInstalled t scx stalled pc sax).mills =
      ((s.attach t (s.thread t) ((s.thread t).attached sax)).startFill t.mill sax).mills := by
  rw [State.attInstalled_away hfind hwaits hvictim, if_pos (by rw [decide_eq_true hhold, decide_eq_true hout]; rfl)]
  rfl

/-- With the miss queue full the thread stalls. -/
theorem State.attInstalled_full (hout : 64 ≤ (s.sac t.mill).missOut) :
    s.attInstalled t scx stalled pc sax = s.attStall t (s.thread t) scx stalled pc := by
  rw [State.attInstalled_away hfind hwaits hvictim, decide_eq_false (Nat.not_lt.mpr hout), Bool.and_false, if_neg Bool.false_ne_true]

end

/-! ### Limits (R201, R202, Table 6-11) -/

theorem issueLimit_ends (hruns : (s.thread t).runs = true) (hlim : s.issueLim t.mill ≤ (s.thread t).issued) :
    Completes (.issueLimit t) s fun u =>
      let w := (s.countExc t 0xD (s.thread t).pc).countMill t.mill 4 6 t.cluster.val
      u.mills = (w.vatDrop t).mills ∧ u.trib = (w.vatDrop t).trib :=
  completes_finish (if_pos (by rw [hruns, decide_eq_true hlim]; rfl)) ⟨State.settle_mills _, State.settle_trib _⟩

section
variable (hbusy : (s.thread t).busy = true) (henq : (s.thread t).enqDone = false)
include hbusy henq

/-- A frame that stays too long, and whose `ENQ` is not complete. -/
theorem exec_residencyLimit : exec (.residencyLimit t) s = if (s.thread t).trapAt = some s.now then
      finish (s.defaultAction t (s.thread t).cause)
    else finish (((s.countExc t 0xE (s.thread t).pc).countMill t.mill 4 7 t.cluster.val).vatDrop t) :=
  if_neg (by rw [hbusy, henq]; exact Bool.false_ne_true)

theorem residencyLimit_trapped (htrap : (s.thread t).trapAt = some s.now) :
    Completes (.residencyLimit t) s fun u => u.mills = (s.defaultAction t (s.thread t).cause).mills :=
  completes_finish ((exec_residencyLimit hbusy henq).trans (if_pos htrap)) (State.settle_mills _)

theorem residencyLimit_ends (htrap : (s.thread t).trapAt ≠ some s.now) :
    Completes (.residencyLimit t) s fun u =>
      let w := (s.countExc t 0xE (s.thread t).pc).countMill t.mill 4 7 t.cluster.val
      u.mills = (w.vatDrop t).mills ∧ u.trib = (w.vatDrop t).trib :=
  completes_finish ((exec_residencyLimit hbusy henq).trans (if_neg htrap)) ⟨State.settle_mills _, State.settle_trib _⟩

end

/-- The exception word of Table 6-17. -/
def State.excWordOf (s : State) (t : Tid) (cause : Nat) (pc : W14) : Nat :=
  cause + pc.toNat * 2 ^ 4 + t.cluster.val * 2 ^ 18 + t.engine.val * 2 ^ 21 + t.thread.val * 2 ^ 24 + b2n (s.thread t).frame.rx * 2 ^ 26

theorem State.countExc_vat (s : State) (t : Tid) (cause : Nat) (pc : W14) : (s.countExc t cause pc).vat t.mill =
    if (s.vat t.mill).excValid then s.vat t.mill else { s.vat t.mill with excValid := true, excWord := s.excWordOf t cause pc } :=
  State.vat_modVat ..

/-- The first exception is recorded. -/
theorem State.countExc_first (hnone : (s.vat t.mill).excValid = false) (cause : Nat) (pc : W14) :
    ((s.countExc t cause pc).vat t.mill).excValid = true ∧ ((s.countExc t cause pc).vat t.mill).excWord = s.excWordOf t cause pc := by
  rw [State.countExc_vat, hnone]
  exact ⟨rfl, rfl⟩

/-- Later ones are only counted. -/
theorem State.countExc_later (hsome : (s.vat t.mill).excValid = true) (cause : Nat) (pc : W14) :
    (s.countExc t cause pc).mills = s.mills := by
  have hsame : (s.countMill t.mill 4 5 cause).modVat t.mill
      (fun v => if v.excValid then v else { v with excValid := true, excWord := s.excWordOf t cause pc }) = s.countMill t.mill 4 5 cause := by
    have hvat : ((s.countMill t.mill 4 5 cause).mill t.mill).vat.excValid = true := hsome
    refine State.modMill_self _ _ ?_
    dsimp only
    rw [if_pos hvat]
  have hmills : (s.countExc t cause pc).mills = (s.countMill t.mill 4 5 cause).mills := congrArg State.mills hsame
  exact hmills

/-- Settles O11: the answers of the SA cache, the two limits, and the exception word. -/
theorem vatFramesAttachOrEnd : Obligations.VatFramesAttachOrEnd := by
  unfold Obligations.VatFramesAttachOrEnd
  refine ⟨fun s t scx stalled pc sax hwait hsel => ?_, fun s t => ⟨issueLimit_ends, residencyLimit_trapped, residencyLimit_ends,
    fun cause pc hnone => State.countExc_first hnone cause pc, fun cause pc hsome => State.countExc_later hsome cause pc⟩⟩
  have hends := @saCacheAttach_mills s t scx sax stalled pc hwait hsel
  refine ⟨fun hrx htag => hends (by rw [State.attAnswer_untagged hrx htag]; rfl), fun htag => ⟨fun hst => ?_, fun hst => ?_, fun hst => ?_,
    fun hst => ⟨fun k hfind hctx => ?_, fun hfind hwaits hvictim => ⟨fun hhold hout => ?_, fun hout => ?_⟩⟩⟩⟩
  · exact hends (by rw [State.attAnswer_missing htag hst]; rfl)
  · exact hends (by rw [State.attAnswer_gone htag hst]; rfl)
  · exact hends (by rw [State.attAnswer_exhausted htag hst]; rfl)
  · exact hends (by rw [State.attAnswer_installed htag hst]; exact State.attInstalled_hit hfind hctx)
  · exact hends (by rw [State.attAnswer_installed htag hst]; exact State.attInstalled_fetch hfind hwaits hvictim hhold hout)
  · exact hends (by rw [State.attAnswer_installed htag hst, State.attInstalled_full hfind hwaits hvictim hout])

end Sys2Proof.Machine
end

section
/-! Contexts are fetched and written back (R163, R165). What is recorded of the first fault of a cache stays until the host clears it. -/

namespace Sys2Proof.Machine

variable {s t u : State}

/-! ### The record of the first fault (Table 5-16) -/

/-- FAULT valid, its SA and its cause. -/
def Sac.faultLog (x : Sac) : Bool × Nat × Nat := (x.faultValid, x.faultSax, x.faultCause)

/-- Every cache has the fault record that it had. -/
structure State.SameFault (s t : State) : Prop where
  log : ∀ m, (t.sac m).faultLog = (s.sac m).faultLog

theorem State.SameFault.refl (s : State) : s.SameFault s := ⟨fun _ => rfl⟩
theorem State.SameFault.trans (h : s.SameFault t) (k : t.SameFault u) : s.SameFault u := ⟨fun m => (k.log m).trans (h.log m)⟩
theorem State.SameFault.of_sac (h : ∀ m, t.sac m = s.sac m) : s.SameFault t := ⟨fun m => congrArg Sac.faultLog (h m)⟩
theorem State.sac_of_mills (h : t.mills = s.mills) (m : Fin 4) : t.sac m = s.sac m := congrArg (fun x : Vector Mill 4 => x[m].sac) h
theorem State.SameFault.of_mills (h : t.mills = s.mills) : s.SameFault t :=
  .of_sac (State.sac_of_mills h)

/-- Only what a change makes of the cache that stands there counts. -/
theorem State.modSac_congr (s : State) (m : Fin 4) {f g : Sac → Sac} (h : f (s.sac m) = g (s.sac m)) : s.modSac m f = s.modSac m g := by
  have hmill : f s.mills[m].sac = g s.mills[m].sac := h
  unfold State.modSac State.modMill
  dsimp only
  rw [hmill]

theorem State.modSac_sameFault (s : State) (m : Fin 4) {f : Sac → Sac} (hf : ∀ x, (f x).faultLog = x.faultLog) :
    s.SameFault (s.modSac m f) := by
  refine ⟨fun k => ?_⟩
  by_cases h : m = k
  · subst h
    rw [State.sac_modSac, hf]
  · rw [State.sac_modSac_ne _ _ _ _ h]

/-- A change of the cache that leaves the record, and what comes after it. -/
theorem State.SameFault.of_modSac {m : Fin 4} {f : Sac → Sac} (k : (s.modSac m f).SameFault t) (hf : ∀ x, (f x).faultLog = x.faultLog) :
    s.SameFault t := (s.modSac_sameFault m hf).trans k

theorem State.cancelWid_sameFault (s : State) (m : Fin 4) (w : Nat) : s.SameFault (s.cancelWid m w) := .of_mills rfl

theorem State.evict_sameFault (s : State) (m : Fin 4) (k : Nat) : s.SameFault (s.evict m k) := by
  unfold State.evict
  split
  · exact .refl s
  · next w _ =>
    have hfree := s.modSac_sameFault m (f := fun x => x.setWay k none) fun _ => rfl
    dsimp only
    split
    · exact hfree.trans (.of_modSac (.of_sac (State.pushCtx_only (ps := [.mem]) (Only.refl _) m w.sax _ rfl .sac rfl)) fun _ => rfl)
    · exact hfree.trans (.of_mills rfl)

theorem State.pageStalls_sameFault (s : State) (c : Fin 4) (p : Nat) (m : Fin 4) : s.SameFault (s.pageStalls c p m) := by
  unfold State.pageStalls
  dsimp only
  split
  · exact .refl s
  · exact .of_modSac (.of_mills (State.countMill_mills ..)) fun _ => rfl

theorem State.pullCtx_sameFault (s : State) (m : Fin 4) (sax : Nat) : s.SameFault (s.pullCtx m sax) := by
  have hpush : s.SameFault (s.pushLines m sax fun _ => .read) :=
    .of_sac (State.pushLines_only (ps := [.mem]) (Only.refl s) m sax _ rfl .sac rfl)
  unfold State.pullCtx
  dsimp only
  split
  · exact hpush.trans (State.pageStalls_sameFault ..)
  · exact hpush

theorem State.fillFrom_sameFault (s : State) (m : Fin 4) (sax k : Nat) : s.SameFault (s.fillFrom m sax k) := by
  unfold State.fillFrom
  split
  · exact .of_modSac (State.cancelWid_sameFault ..) fun _ => rfl
  · exact .of_modSac (State.pullCtx_sameFault ..) fun _ => rfl

theorem State.tryFill_sameFault {m : Fin 4} {sax : Nat} (h : s.tryFill m sax = some t) : s.SameFault t := by
  rw [State.tryFill_eq] at h
  split at h
  · obtain rfl := Option.some.inj h
    exact .refl s
  · obtain ⟨k, -, rfl⟩ := Option.map_eq_some_iff.mp h
    exact (s.evict_sameFault m k).trans (.of_modSac (State.fillFrom_sameFault ..) fun _ => rfl)

theorem State.dropHeld_sameFault (s : State) (m : Fin 4) (p : Frame → Bool) (ev q : Nat) : s.SameFault (s.dropHeld m p ev q) := by
  have hdrop : ∀ (l : List Frame) (v : State), v.SameFault (l.foldl (fun s f => (s.countMill m 3 ev q).dropFrame m f) v) := by
    intro l
    induction l with
    | nil => exact .refl
    | cons f l ih =>
      intro v
      have hone : v.SameFault ((v.countMill m 3 ev q).dropFrame m f) :=
        .of_sac (State.dropFrame_only (ps := [.counts, .sch, .trib]) (State.countMill_only (Only.refl v) m 3 ev q 1 rfl) m f rfl .sac rfl)
      exact hone.trans (ih _)
  exact .of_modSac (hdrop _ _) fun _ => rfl

theorem State.dropSa_sameFault (s : State) (m : Fin 4) (sax : Nat) : s.SameFault (s.dropSa m sax) :=
  State.SameFault.trans (.of_sac (State.sac_modVat s m · _)) (State.dropHeld_sameFault ..)

theorem State.fillOne_sameFault (s : State) (m : Fin 4) (w : FillWait) : s.SameFault (s.fillOne m w) := by
  have hgone := s.modSac_sameFault m (f := fun x => { x with fillWait := x.fillWait.erase w }) fun _ => rfl
  unfold State.fillOne
  dsimp only
  split
  · exact hgone.trans (State.dropSa_sameFault ..)
  · split
    · exact .refl s
    · split
      · next h =>
        refine (hgone.trans (State.tryFill_sameFault h)).trans ?_
        unfold State.countFill
        split
        · exact .of_mills rfl
        · exact .refl _
      · exact .refl s

theorem State.donePins_sameFault (m : Fin 4) : ∀ (ps : List (CmdRef × Nat)) (s : State), s.SameFault (s.donePins m ps)
  | [], s => .refl s
  | (ref, sax) :: ps, s => by
    rw [State.donePins]
    split
    · refine State.SameFault.trans ?_ (State.donePins_sameFault m ps _)
      refine State.SameFault.trans ?_ (.of_mills (State.complete_samePath ..).mills)
      refine State.SameFault.trans ?_ (.of_mills (State.delta_sas ..).1)
      exact s.modSac_sameFault m fun _ => rfl
    · exact State.donePins_sameFault m ps s

theorem State.retryFills_sameFault (m : Fin 4) : ∀ (ws : List FillWait) (s : State), s.SameFault (s.retryFills m ws)
  | [], s => State.donePins_sameFault m _ s
  | w :: ws, s => (s.fillOne_sameFault m w).trans (State.retryFills_sameFault m ws _)

theorem State.retry_sameFault (s : State) (m : Fin 4) : s.SameFault (s.retry m) := State.retryFills_sameFault m _ s

/-- What follows a fault's entry leaves its record. -/
theorem State.faultEntered_sameFault (s : State) (m : Fin 4) (sax cause : Nat) :
    (s.faultEntered m sax cause).SameFault (s.saFault m sax cause) := by
  have hpins : ∀ v : State, v.SameFault (v.failPins m (· = sax)) := fun v =>
    (v.modSac_sameFault m (f := fun x => { x with pins := x.pins.filter fun y => !decide (y.2 = sax) }) fun _ => rfl).trans
      (.of_mills (v.failPins_ends m (· = sax)).1.mills)
  rw [State.saFault_eq]
  refine State.SameFault.trans ?_ (State.retry_sameFault ..)
  refine State.SameFault.trans ?_ (.of_mills (State.delta_sas ..).1)
  exact ((State.dropHeld_sameFault ..).trans (hpins _)).trans (.of_mills rfl)

/-- The first fault of a cache is recorded with its SA and its cause (R165). -/
theorem State.saFault_logs {m : Fin 4} (hnone : (s.sac m).faultValid = false) (sax cause : Nat) :
    ((s.saFault m sax cause).sac m).faultValid = true ∧ ((s.saFault m sax cause).sac m).faultSax = sax
      ∧ ((s.saFault m sax cause).sac m).faultCause = cause := by
  suffices hlog : ((s.saFault m sax cause).sac m).faultLog = (true, sax, cause) by
    simpa only [Sac.faultLog, Prod.mk.injEq] using hlog
  rw [(s.faultEntered_sameFault m sax cause).log m]
  have hforget : ((s.sac m).forget sax).faultValid = false := by
    unfold Sac.forget
    cases (s.sac m).find sax <;> exact hnone
  unfold State.faultEntered
  rw [State.sac_of_mills (State.countMill_mills ..), State.sac_modSac]
  exact congrArg Sac.faultLog (if_neg (ne_true_of_eq_false hforget))

/-! ### A fetch ends (R165) -/

section
variable {m : Fin 4} {sax : Fin 65536} {f : Fetch} (hf : (s.sac m).fetches.find? (fun f => decide (f.sax = sax.val)) = some f)
  (hdone : 8 ≤ f.done)
include hf hdone

/-- The state in which the context that has come fills way `k`. -/
def State.fetchLanded (s : State) (m : Fin 4) (sax : Nat) (k : Nat) (f : Fetch) : State :=
  (s.modSac m fun x => ({ x with fetches := x.fetches.filter fun g => decide (g.sax ≠ sax) } : Sac).fillWay k sax
    (if f.newer = [] then f.ctx else f.newer) (decide (f.newer ≠ []))).setSa sax { s.saAt sax with cached := true }

theorem exec_saFetchComplete_fills {k : Nat} (hfind : (s.sac m).find sax.val = some k) (hgood : f.bad = 0)
    (hfits : s.ctxFits sax.val f.ctx = true) :
    exec (.saFetchComplete m sax) s = finish ((s.fetchLanded m sax.val k f).retry m) := by
  have hway : ({ s.sac m with fetches := (s.sac m).fetches.filter fun g => decide (g.sax ≠ sax.val) } : Sac).find sax.val = some k := hfind
  change execSaFetchComplete m sax s = _
  unfold execSaFetchComplete
  rw [hf]
  dsimp only
  rw [if_neg (Nat.not_lt.mpr hdone), if_neg (not_not.mpr hgood), if_neg (by rw [hfits]; decide)]
  refine congrArg (fun v : State => finish ((v.setSa sax.val { s.saAt sax.val with cached := true }).retry m)) (s.modSac_congr m ?_)
  rw [hway]

theorem exec_saFetchComplete_faults (hbad : f.bad ≠ 0 ∨ s.ctxFits sax.val f.ctx = false) :
    exec (.saFetchComplete m sax) s = finish (s.saFault m sax.val (if f.bad = 0 then 3 else f.bad)) := by
  change execSaFetchComplete m sax s = _
  unfold execSaFetchComplete
  rw [hf]
  dsimp only
  rw [if_neg (Nat.not_lt.mpr hdone)]
  by_cases hgood : f.bad = 0
  · rw [if_neg (not_not.mpr hgood), if_pos hgood, hbad.resolve_left (not_not.mpr hgood)]
    rfl
  · rw [if_pos hgood, if_neg hgood]

/-- The fault that ends a fetch: its answer failed, or the context does not fit (R165). -/
theorem saFetchComplete_faults (hbad : f.bad ≠ 0 ∨ s.ctxFits sax.val f.ctx = false) :
    let cause := if f.bad = 0 then 3 else f.bad
    Completes (.saFetchComplete m sax) s fun u =>
      u.mills = (s.saFault m sax.val cause).mills ∧ u.sa = (s.saFault m sax.val cause).sa
      ∧ ((s.sac m).faultValid = false → (u.sac m).faultValid = true ∧ (u.sac m).faultSax = sax.val ∧ (u.sac m).faultCause = cause) := by
  intro cause
  refine completes_finish (exec_saFetchComplete_faults hf hdone hbad) ⟨State.settle_mills _, State.settle_sa _, fun hnone => ?_⟩
  rw [State.settle_sac]
  exact State.saFault_logs hnone _ _

end

/-! ### A write-back ends (R163, R165) -/

section
variable {m : Fin 4} {sax : Fin 65536} {v : Victim}

/-- The state in which the context has left the victim buffer for the catalogue. -/
def State.victimGone (s : State) (m : Fin 4) (sax : Nat) : State :=
  (s.modSac m fun x => { x with victims := x.victims.filter fun y => decide (y.sax ≠ sax) }).setSa sax { s.saAt sax with cached := false }

theorem saWritebackDone_leaves (hv : (s.sac m).victims.find? (fun v => decide (v.sax = sax.val ∧ v.acked = 8)) = some v)
    (hok : v.refused = false) : Completes (.saWritebackDone m sax) s fun u =>
      u.mills = ((s.victimGone m sax.val).retry m).mills ∧ u.sa = ((s.victimGone m sax.val).retry m).sa := by
  have hexec : exec (.saWritebackDone m sax) s = finish ((((s.modSac m fun x =>
      { x with victims := x.victims.filter fun y => decide (y.sax ≠ sax.val) }).countMill m 3 4 0).setSa sax.val
        { s.saAt sax.val with cached := false }).retry m) := by
    change execSaWritebackDone m sax s = _
    unfold execSaWritebackDone
    dsimp only
    rw [hv]
    dsimp only
    rw [hok]
    rfl
  have hpath : ((s.victimGone m sax.val).retry m).SamePath ((((s.modSac m fun x =>
      { x with victims := x.victims.filter fun y => decide (y.sax ≠ sax.val) }).countMill m 3 4 0).setSa sax.val
        { s.saAt sax.val with cached := false }).retry m) :=
    ((State.countMill_samePath ..).setSa sax.val _).retry m
  exact completes_finish hexec ⟨(State.settle_mills _).trans hpath.mills, (State.settle_sa _).trans hpath.sa⟩

theorem saWritebackDone_refused (hv : (s.sac m).victims.find? (fun v => decide (v.sax = sax.val ∧ v.acked = 8)) = some v)
    (hbad : v.refused = true) : Completes (.saWritebackDone m sax) s fun u =>
      u.mills = (s.saFault m sax.val 4).mills ∧ u.sa = (s.saFault m sax.val 4).sa := by
  have hexec : exec (.saWritebackDone m sax) s = finish (s.saFault m sax.val 4) := by
    change execSaWritebackDone m sax s = _
    unfold execSaWritebackDone
    dsimp only
    rw [hv]
    dsimp only
    rw [hbad]
    rfl
  exact completes_finish hexec ⟨State.settle_mills _, State.settle_sa _⟩

/-- A context that an instruction wrote is done with its acknowledgements. -/
theorem saWritebackDone_written (hnone : (s.sac m).victims.find? (fun v => decide (v.sax = sax.val ∧ v.acked = 8)) = none)
    (hv : (s.sac m).writes.find? (fun v => decide (v.sax = sax.val ∧ v.acked = 8)) = some v)
    (hok : v.refused = false ∨ v.retire = true ∨ (s.saAt sax.val).st = .empty) :
    Completes (.saWritebackDone m sax) s fun u =>
      u.mills = (s.modSac m fun x => { x with writes := x.writes.erase v }).mills ∧ u.sa = s.sa := by
  have hgood : ¬(v.refused && !v.retire && decide ((s.saAt sax.val).st ≠ .empty)) = true := by
    rcases hok with h | h | h <;> rw [h] <;> simp
  have hexec : exec (.saWritebackDone m sax) s = finish (s.modSac m fun x => { x with writes := x.writes.erase v }) := by
    change execSaWritebackDone m sax s = _
    unfold execSaWritebackDone
    dsimp only
    rw [hnone]
    dsimp only
    rw [hv]
    exact if_neg hgood
  exact completes_finish hexec ⟨State.settle_mills _, State.settle_sa _⟩

end

/-- Settles O14: each command by its lemma. -/
theorem contextsComeAndGo : Obligations.ContextsComeAndGo := by
  unfold Obligations.ContextsComeAndGo
  refine fun s m sax => ⟨fun f hf hdone => ⟨fun k hfind hgood hfits => ?_, saFetchComplete_faults hf hdone⟩,
    fun v hv => ⟨saWritebackDone_leaves hv, saWritebackDone_refused hv⟩, fun v => saWritebackDone_written⟩
  exact completes_finish (exec_saFetchComplete_fills hf hdone hfind hgood hfits) ⟨State.settle_mills _, State.settle_sa _⟩

end Sys2Proof.Machine
end

section
/-! Frames leave the vat in order, and punted frames are delivered (R148, R174, R197, R229, R408). A stamp that is captured stands in the
time unit: what becomes of the frame does not depend on it. -/

namespace Sys2Proof.Machine

variable {s t u : State}

/-! ### The time unit and the path of a frame towards the line -/

/-- The state with another time unit. -/
def State.withTim (s : State) (x : Tim) : State := { s with tim := x }

theorem State.withTim_mills (s : State) (x : Tim) : (s.withTim x).mills = s.mills := rfl

/-- A branch that does not look at the time unit. -/
theorem State.withTim_ite {c : Prop} [Decidable c] {x : Tim} {a b a' b' : State} (ha : a' = a.withTim x) (hb : b' = b.withTim x) :
    (if c then a' else b') = (if c then a else b).withTim x := by
  split
  · exact ha
  · exact hb

theorem State.modPort_withTim (s : State) (x : Tim) (p : Fin 32) (f : Port → Port) : (s.withTim x).modPort p f = (s.modPort p f).withTim x := rfl

theorem State.countMill_withTim (s : State) (x : Tim) (m : Fin 4) (a b c d : Nat) :
    (s.withTim x).countMill m a b c d = (s.countMill m a b c d).withTim x := by
  have hreg : (s.withTim x).reg = s.reg := rfl
  have hpmc : (s.withTim x).pmc = s.pmc := rfl
  unfold State.countMill
  rw [hreg, hpmc]
  rfl

theorem State.dropTx_withTim (s : State) (x : Tim) (m : Fin 4) : (s.withTim x).dropTx m = (s.dropTx m).withTim x := rfl

theorem State.portOut_withTim (s : State) (x : Tim) (p : Fin 32) (b : Bytes) : (s.withTim x).portOut p b = (s.portOut p b).withTim x :=
  State.withTim_ite rfl rfl

theorem State.sendControl_withTim (s : State) (x : Tim) (p : Fin 32) (i q : Nat) :
    (s.withTim x).sendControl p i q = (s.sendControl p i q).withTim x := by
  have hfld : (s.withTim x).fld (fcReg p) 2 2 = s.fld (fcReg p) 2 2 := rfl
  have hshadow : (s.withTim x).shadowing = s.shadowing := rfl
  unfold State.sendControl
  rw [hfld, hshadow, State.portOut_withTim, State.countMill_withTim]
  exact State.withTim_ite rfl rfl

theorem State.fcCheck_withTim (s : State) (x : Tim) (p : Fin 32) (pri : Nat) : (s.withTim x).fcCheck p pri = (s.fcCheck p pri).withTim x := by
  unfold State.fcCheck
  dsimp only
  rw [State.modPort_withTim, State.modPort_withTim, State.sendControl_withTim, State.sendControl_withTim]
  exact State.withTim_ite rfl (State.withTim_ite rfl (State.withTim_ite rfl rfl))

theorem State.holdPri_withTim (s : State) (x : Tim) (p pri n : Nat) (add : Bool) :
    (s.withTim x).holdPri p pri n add = (s.holdPri p pri n add).withTim x := by
  unfold State.holdPri
  dsimp only
  rw [State.modPort_withTim, State.fcCheck_withTim]

theorem State.refuseTx_withTim (s : State) (x : Tim) (m : Fin 4) (q : Queued) (held : Bool) :
    (s.withTim x).refuseTx m q held = (s.refuseTx m q held).withTim x := by
  cases held
  · rfl
  · exact congrArg (State.dropTx · m) (s.holdPri_withTim x q.f.port q.pri q.units false)

theorem State.modTribIn_withTim (s : State) (x : Tim) (m : Fin 4) (n : Nat) (f : Trib → Trib) :
    (s.withTim x).modTribIn m n f = (s.modTribIn m n f).withTim x := by
  unfold State.modTribIn
  dsimp only
  rw [apply_ite (State.withTim · x), apply_ite (State.withTim · x)]
  rfl

theorem State.wake_withTim (s : State) (x : Tim) (m : Fin 4) (n : Nat) : (s.withTim x).wake m n = (s.wake m n).withTim x := by
  have htrib : (s.withTim x).tribIn m n = s.tribIn m n := rfl
  have hphase : (s.withTim x).phaseOf m (s.tribIn m n) = s.phaseOf m (s.tribIn m n) := rfl
  unfold State.wake
  dsimp only
  rw [htrib, hphase]
  split
  · rw [State.modTribIn_withTim]
    rfl
  · rfl

theorem State.joinTrib_withTim (s : State) (x : Tim) (m : Fin 4) (q : Queued) (held : Bool) :
    (s.withTim x).joinTrib m q held = (s.joinTrib m q held).withTim x := by
  have htrib : (s.withTim x).tribAt q.f.trib = s.tribAt q.f.trib := rfl
  have hroom : (s.withTim x).txRoom m q.f.cls q.units = s.txRoom m q.f.cls q.units := rfl
  have htaken (f : Trib → Trib) (g : Sch → Sch) : ((s.withTim x).modTrib q.f.trib f).modSch m g
    = ((s.modTrib q.f.trib f).modSch m g).withTim x := rfl
  have hheld (v : State) : (if held then v.withTim x else (v.withTim x).holdPri q.f.port q.pri q.units true)
      = (if held then v else v.holdPri q.f.port q.pri q.units true).withTim x := State.withTim_ite rfl (v.holdPri_withTim ..)
  unfold State.joinTrib
  dsimp only
  rw [htrib, hroom, htaken, State.countMill_withTim, State.refuseTx_withTim, State.countMill_withTim, State.refuseTx_withTim, hheld,
    State.wake_withTim]
  exact State.withTim_ite rfl (State.withTim_ite rfl rfl)

theorem State.sendTx_withTim (s : State) (x : Tim) (f : Frame) : (s.withTim x).sendTx f = (s.sendTx f).withTim x := by
  have htrib : (s.withTim x).tribAt f.trib = s.tribAt f.trib := rfl
  have hlive (n : Nat) : (s.withTim x).live n = s.live n := rfl
  have hroom (m : Fin 4) (c n : Nat) : (s.withTim x).txRoom m c n = s.txRoom m c n := rfl
  have hmod (m : Fin 4) (g : Sch → Sch) : (s.withTim x).modSch m g = (s.modSch m g).withTim x := rfl
  unfold State.sendTx
  dsimp only
  simp only [htrib, hlive, hroom, hmod, State.countMill_withTim, State.dropTx_withTim, State.joinTrib_withTim, State.holdPri_withTim]
  exact State.withTim_ite rfl (State.withTim_ite rfl (State.withTim_ite rfl (State.withTim_ite rfl rfl)))

/-! ### Frames towards the line, and towards a client port, on two states with the same path -/

theorem State.SamePath.joinEgress (h : s.SamePath t) (p : Fin 32) (f : Frame) : (s.joinEgress p f).SamePath (t.joinEgress p f) := by
  obtain ⟨a, e, k, o, c, g, rfl⟩ := h
  have h := s.beside_samePath a e k o c g
  exact .ite (fun _ => (h.modPort p _).modSch _ _) fun _ => (h.countMill ..).dropRx _ f

theorem State.SamePath.sendTx (h : s.SamePath t) (f : Frame) : (s.sendTx f).SamePath (t.sendTx f) := by
  obtain ⟨a, e, k, o, c, g, rfl⟩ := h
  have h := s.beside_samePath a e k o c g
  exact .ite (fun _ => (h.countMill ..).dropTx _) fun _ => .ite (fun _ => h.joinTrib ..) fun _ =>
    .ite (fun _ => (h.countMill ..).dropTx _) fun _ => .ite (fun _ => (h.modSch _ _).holdPri ..) fun _ => (h.countMill ..).dropTx _

/-- From `s` to `t` nothing has changed but the time unit and what stands beside the path. -/
def State.SameCourse (s t : State) : Prop := ∃ x, (s.withTim x).SamePath t

theorem State.SamePath.sameCourse (h : s.SamePath t) : s.SameCourse t := ⟨s.tim, h⟩

theorem State.SameCourse.mills (h : s.SameCourse t) : t.mills = s.mills := by
  obtain ⟨x, h⟩ := h
  exact h.mills

theorem State.SameCourse.sendTx (h : s.SameCourse t) (f : Frame) : (s.sendTx f).SameCourse (t.sendTx f) := by
  obtain ⟨x, h⟩ := h
  exact ⟨x, by rw [← State.sendTx_withTim]; exact h.sendTx f⟩

theorem State.SameCourse.trib (h : s.SameCourse t) : t.trib = s.trib := by
  obtain ⟨x, h⟩ := h
  exact h.trib

/-- A captured stamp stands in the time unit. -/
theorem State.tsCapture_course (s : State) (f : Frame) (p : Nat) (st : Stamp) : s.SameCourse (s.tsCapture f p st) := by
  unfold State.tsCapture State.pushStamp
  dsimp only
  split
  · exact ⟨_, .refl _⟩
  · exact ⟨_, State.countDev_samePath ..⟩

/-! ### A verdict is complete (R197) -/

/-- The frame of thread `t` is a frame to the line of a device that follows its mate (R408). -/
def State.quiet (s : State) (t : Tid) : Bool := s.shadowing && !(s.thread t).frame.rx

/-- The state in which the thread is free, its frame counted and its stamp captured. -/
def State.enqCounted (s : State) (t : Tid) (q : Nat) : State :=
  let x := s.thread t
  let f := s.verdict x q
  let s1 := (s.freeThread t (s.quiet t)).countMill t.mill 4 2 t.cluster.val |>.fixMill t.mill 7
  let s2 := if (x.frame.tcEvent || x.frame.tcFollow) && x.frame.att.isSome then s1.countDev 0xB 1 f.port else s1
  if f.tsCapture && !f.rx then s2.tsCapture f f.port f.stamp else s2

section
variable {t : Tid} {q : Nat}

theorem State.enqCounted_steps (s : State) (t : Tid) (q : Nat) : ∃ v : State, (s.freeThread t (s.quiet t)).SamePath v
    ∧ s.enqCounted t q = if (s.verdict (s.thread t) q).tsCapture && !(s.thread t).frame.rx then
        v.tsCapture (s.verdict (s.thread t) q) (s.verdict (s.thread t) q).port (s.verdict (s.thread t) q).stamp else v := by
  have hfree := (State.countMill_samePath (s.freeThread t (s.quiet t)) t.mill 4 2 t.cluster.val 1).trans (State.fixMill_samePath _ t.mill 7 1)
  refine ⟨_, ?_, rfl⟩
  split
  · exact hfree.trans (State.countDev_samePath ..)
  · exact hfree

theorem State.enqCounted_course (s : State) (t : Tid) (q : Nat) : (s.freeThread t (s.quiet t)).SameCourse (s.enqCounted t q) := by
  obtain ⟨v, hv, he⟩ := s.enqCounted_steps t q
  rw [he]
  split
  · obtain ⟨x, hx⟩ := v.tsCapture_course (s.verdict (s.thread t) q) (s.verdict (s.thread t) q).port (s.verdict (s.thread t) q).stamp
    obtain ⟨a, e, k, o, c, g, rfl⟩ := hv
    exact ⟨x, State.SamePath.trans ⟨a, e, k, o, c, g, rfl⟩ hx⟩
  · exact hv.sameCourse

/-- No stamp of a received frame is captured. -/
theorem State.enqCounted_samePath (s : State) (t : Tid) (q : Nat) (hrx : (s.thread t).frame.rx = true) :
    (s.freeThread t (s.quiet t)).SamePath (s.enqCounted t q) := by
  obtain ⟨v, hv, he⟩ := s.enqCounted_steps t q
  rw [he, hrx, Bool.not_true, Bool.and_false, if_neg Bool.false_ne_true]
  exact hv

variable (hend : (s.thread t).ended = some (.enq q)) (hans : (s.thread t).answered = true)
  (hbusy : (s.thread t).busy = true) (horder : s.inOrder t = true)
include hend hans hbusy horder

theorem exec_enqComplete : exec (.enqComplete t) s = finish (
    let f := s.verdict (s.thread t) q
    let w := s.enqCounted t q
    if s.quiet t then (w.countMill t.mill 5 14 f.port).dropTx t.mill
    else if f.badTag then (w.countMill t.mill 3 14 (saScx (f.att.getD 0))).dropFrame t.mill f
    else if f.refused then w.dropFrame t.mill f
    else if f.att.isSome then w.modSac t.mill fun y => { y with cipherQ := y.cipherQ ++ [f] }
    else if f.rx then w.joinEgress (portOf f.port) f
    else w.sendTx f) := by
  change execEnqComplete t s = _
  unfold execEnqComplete
  dsimp only
  rw [hend]
  dsimp only
  rw [hbusy, hans, horder]
  rfl

/-- A follower of its mate sends nothing to the line (R408). -/
theorem enqComplete_quiet (hquiet : s.quiet t = true) : Completes (.enqComplete t) s fun u => u.mills = (s.freeThread t true).mills := by
  refine completes_finish (exec_enqComplete hend hans hbusy horder) ?_
  have hcourse := s.enqCounted_course t q
  rw [State.settle_mills, if_pos hquiet]
  rw [hquiet] at hcourse
  exact hcourse.mills

variable (hloud : s.quiet t = false)
include hloud

/-- A frame attached without a SecTAG, or to an exhausted SA, is discarded. -/
theorem enqComplete_discards (hbad : (s.verdict (s.thread t) q).badTag = true ∨ (s.verdict (s.thread t) q).refused = true) :
    Completes (.enqComplete t) s fun u =>
      u.mills = ((s.freeThread t false).dropFrame t.mill (s.verdict (s.thread t) q)).mills := by
  refine completes_finish (exec_enqComplete hend hans hbusy horder) ?_
  have hdrop : ∀ v : State, (s.enqCounted t q).SamePath v →
      (v.dropFrame t.mill (s.verdict (s.thread t) q)).mills = ((s.freeThread t false).dropFrame t.mill (s.verdict (s.thread t) q)).mills := by
    intro v hv
    cases hrx : (s.thread t).frame.rx with
    | true =>
      have hpath := s.enqCounted_samePath t q hrx
      rw [hloud] at hpath
      exact ((hpath.trans hv).dropFrame ..).mills
    | false =>
      have hcourse := s.enqCounted_course t q
      rw [hloud] at hcourse
      have htx : ¬(s.verdict (s.thread t) q).rx = true := ne_true_of_eq_false hrx
      have hkept : ∀ w : State, (w.dropFrame t.mill (s.verdict (s.thread t) q)).mills = w.mills := fun w => by
        unfold State.dropFrame
        rw [if_neg htx]
        rfl
      rw [hkept, hkept, hv.mills, hcourse.mills]
  dsimp only
  rw [State.settle_mills, if_neg (by rw [hloud]; exact Bool.false_ne_true)]
  by_cases hb : (s.verdict (s.thread t) q).badTag = true
  · rw [if_pos hb]
    exact hdrop _ (State.countMill_samePath ..)
  · rw [if_neg hb, if_pos (hbad.resolve_left hb)]
    exact hdrop _ (.refl _)

variable (htag : (s.verdict (s.thread t) q).badTag = false) (hnot : (s.verdict (s.thread t) q).refused = false)
include htag hnot

/-- A frame that is not discarded. -/
theorem exec_enqComplete_kept : exec (.enqComplete t) s = finish (
    if (s.verdict (s.thread t) q).att.isSome then
      (s.enqCounted t q).modSac t.mill fun y => { y with cipherQ := y.cipherQ ++ [s.verdict (s.thread t) q] }
    else if (s.verdict (s.thread t) q).rx then (s.enqCounted t q).joinEgress (portOf (s.verdict (s.thread t) q).port) (s.verdict (s.thread t) q)
    else (s.enqCounted t q).sendTx (s.verdict (s.thread t) q)) := by
  rw [exec_enqComplete hend hans hbusy horder]
  dsimp only
  rw [hloud, htag, hnot]
  rfl

/-- An attached frame joins those that wait for the frame cipher. -/
theorem enqComplete_attached (hatt : (s.verdict (s.thread t) q).att.isSome = true) :
    Completes (.enqComplete t) s fun u =>
      (u.sac t.mill).cipherQ = ((s.freeThread t false).sac t.mill).cipherQ ++ [s.verdict (s.thread t) q] := by
  refine completes_finish (exec_enqComplete_kept hend hans hbusy horder hloud htag hnot) ?_
  have hcourse := s.enqCounted_course t q
  rw [hloud] at hcourse
  rw [if_pos hatt, State.settle_sac, State.sac_modSac, State.sac_of_mills hcourse.mills]

variable (hfree : (s.verdict (s.thread t) q).att = none)
include hfree

/-- A received frame without an association joins its egress queue. -/
theorem enqComplete_egress (hrx : (s.thread t).frame.rx = true) :
    Completes (.enqComplete t) s fun u =>
      u.mills = ((s.freeThread t false).joinEgress (portOf (s.verdict (s.thread t) q).port) (s.verdict (s.thread t) q)).mills := by
  refine completes_finish (exec_enqComplete_kept hend hans hbusy horder hloud htag hnot) ?_
  have hpath := s.enqCounted_samePath t q hrx
  rw [hloud] at hpath
  rw [hfree, if_neg (by decide), if_pos (show (s.verdict (s.thread t) q).rx = true from hrx), State.settle_mills]
  exact (hpath.joinEgress ..).mills

/-- A frame to the line without an association goes to its tributary. -/
theorem enqComplete_line (hrx : (s.thread t).frame.rx = false) :
    Completes (.enqComplete t) s fun u =>
      u.mills = ((s.freeThread t false).sendTx (s.verdict (s.thread t) q)).mills
      ∧ u.trib = ((s.freeThread t false).sendTx (s.verdict (s.thread t) q)).trib := by
  refine completes_finish (exec_enqComplete_kept hend hans hbusy horder hloud htag hnot) ?_
  have hcourse := (s.enqCounted_course t q).sendTx (s.verdict (s.thread t) q)
  rw [hloud] at hcourse
  have htx : ¬(s.verdict (s.thread t) q).rx = true := ne_true_of_eq_false hrx
  rw [hfree, if_neg (by decide), if_neg htx, State.settle_mills, State.settle_trib]
  exact ⟨hcourse.mills, hcourse.trib⟩

end

/-! ### Punted frames (R229) -/

/-- A punted frame of a thread, as it joins its queue. -/
def Thread.punted (x : Thread) (reason cause : Nat) : Punt :=
  { frame := { x.frame with bytes := if x.winWritten then refcs x.frame.bytes else x.frame.bytes }, reason := reason, cause := cause }

theorem puntComplete_joins {t : Tid} {q r c : Nat} (hbusy : (s.thread t).busy = true) (horder : s.inOrder t = true)
    (hend : (s.thread t).ended = some (.punt q r c)) (hroom : (s.vat t.mill).punts[(⟨q % 8, by omega⟩ : Fin 8)].length < 64) :
    Completes (.puntComplete t) s fun u => (u.vat t.mill).punts = ((s.freeThread t true).vat t.mill).punts.set (q % 8)
      (((s.freeThread t true).vat t.mill).punts[(⟨q % 8, by omega⟩ : Fin 8)] ++ [(s.thread t).punted r c]) := by
  have hexec : exec (.puntComplete t) s = finish (((s.freeThread t true).modVat t.mill fun v => { v with
      punts := v.punts.set (⟨q % 8, by omega⟩ : Fin 8) (v.punts[(⟨q % 8, by omega⟩ : Fin 8)] ++ [(s.thread t).punted r c]) }).countMill t.mill 4 4 q) := by
    change execPuntComplete t s = _
    unfold execPuntComplete
    dsimp only
    rw [hend]
    dsimp only
    exact if_pos (by rw [hbusy, horder, decide_eq_true hroom]; rfl)
  refine completes_finish hexec ?_
  rw [State.settle_vat, State.vat_of_mills (State.countMill_mills ..), State.vat_modVat]

theorem State.record_ring (s : State) (r : Rid) (x : Rec) :
    (s.record r x).ring r = { s.ring r with done := (s.ring r).done ++ [x] } := by
  have hcur : (s.record r x).cur = (s.modRing r fun g => { g with done := g.done ++ [x] }).cur := by
    unfold State.record
    dsimp only
    split <;> rfl
  have hring : (s.record r x).ring r = (s.modRing r fun g => { g with done := g.done ++ [x] }).ring r :=
    congrArg (fun v : Vector Engine 4 => v[r.eng].rings[r.ring]) hcur
  rw [hring, State.ring_modRing]

section
variable {m : Fin 4} {q : Fin 8} {x : Punt} {d : Desc}

/-- The record of a punted frame that has met its buffer. -/
def Punt.record (x : Punt) (d : Desc) : Rec :=
  { tag := BitVec.ofNat 32 (d.u 12 4), status := 0, index := d.index, result := BitVec.ofNat 64 (x.frame.bytes.length % 2 ^ 14) }

/-- The state in which the frame has left its queue and the buffer its ring. -/
def State.puntTaken (s : State) (m : Fin 4) (q : Fin 8) : State :=
  (s.modVat m fun v => { v with punts := v.punts.set q (v.punts[q].drop 1) }).modRing (puntRing m q) fun g => { g with fetched := g.fetched.drop 1 }

/-- A buffer that is long enough takes the metadata block and the frame. -/
theorem State.puntOut_fits (s : State) (m : Fin 4) (q : Fin 8) (x : Punt) (d : Desc) (hlen : 9312 ≤ d.u 8 4) :
    s.puntOut m q x d = ((((s.puntTaken m q).hostWrite 0 (d.u 0 8) (x.meta q.val ++ x.frame.bytes)).record (puntRing m q) (x.record d)).countDev
      8 1 (m.val * 256 + q.val)).creditReturn x.frame :=
  if_neg (Nat.not_lt.mpr hlen)

/-- What follows the record leaves the punt queues, the rings and what was sent. -/
theorem State.puntOut_recorded (s : State) (m : Fin 4) (q : Fin 8) (x : Punt) (d : Desc) (hlen : 9312 ≤ d.u 8 4) :
    let v := (s.puntTaken m q).hostWrite 0 (d.u 0 8) (x.meta q.val ++ x.frame.bytes)
    Only [.counts, .sch, .trib] (v.record (puntRing m q) (x.record d)) (s.puntOut m q x d) := by
  rw [s.puntOut_fits m q x d hlen]
  exact State.creditReturn_only (State.countDev_only (Only.refl _) 8 1 _ 1 rfl) x.frame rfl

theorem puntDeliver_delivers {xs : List Punt} {ds : List Desc} (heng : s.engLive m = true) (hhst : s.hstLive = true)
    (hmill : s.millLive m = true) (hen : (s.ring (puntRing m q)).en = true) (hhalt : (s.ring (puntRing m q)).halt = false)
    (hroom : s.cqFull (puntRing m q) = false) (hq : (s.vat m).punts[q] = x :: xs) (hd : (s.ring (puntRing m q)).fetched = d :: ds)
    (hlen : 9312 ≤ d.u 8 4) : Completes (.puntDeliver m q) s fun u =>
      (u.vat m).punts[q] = xs ∧ (u.ring (puntRing m q)).fetched = ds
      ∧ (u.ring (puntRing m q)).done = (s.ring (puntRing m q)).done ++ [x.record d]
      ∧ ∃ os, u.out = os ++ Out.hostWrite 0 (d.u 0 8) (x.meta q.val ++ x.frame.bytes) :: s.out := by
  have hexec : exec (.puntDeliver m q) s = finish (s.puntOut m q x d) := by
    change execPuntDeliver m q s = _
    unfold execPuntDeliver
    dsimp only
    rw [hq, hd]
    exact if_pos (by rw [heng, hhst, hmill, hen, hhalt, hroom]; rfl)
  have honly := s.puntOut_recorded m q x d hlen
  have hcur : (s.puntOut m q x d).cur = _ := honly .cur rfl
  have hring : (s.puntOut m q x d).ring (puntRing m q) = _ :=
    (congrArg (fun v : Vector Engine 4 => v[(puntRing m q).eng].rings[(puntRing m q).ring]) hcur).trans (State.record_ring ..)
  have hbuf : ((s.puntTaken m q).ring (puntRing m q)) = { s.ring (puntRing m q) with fetched := (s.ring (puntRing m q)).fetched.drop 1 } :=
    State.ring_modRing ..
  have hafter : ((s.puntTaken m q).hostWrite 0 (d.u 0 8) (x.meta q.val ++ x.frame.bytes)).ring (puntRing m q) = _ := hbuf
  rw [hafter] at hring
  refine completes_finish hexec ⟨?_, ?_, ?_, ?_⟩
  · have hvat : (s.puntOut m q x d).vat m = (s.modVat m fun v => { v with punts := v.punts.set q (v.punts[q].drop 1) }).vat m :=
      (honly .vat rfl m).trans (State.vat_of_mills (State.record_drains ..).path.mills m)
    rw [State.settle_vat, hvat, State.vat_modVat]
    exact (Vector.getElem_set_self _).trans (by rw [hq]; rfl)
  · rw [State.settle_ring, hring, hd]
    rfl
  · rw [State.settle_ring, hring]
  · have hout : (s.puntOut m q x d).out = Out.hostWrite 0 (d.u 0 8) (x.meta q.val ++ x.frame.bytes) :: s.out :=
      (honly .out rfl).trans (State.record_only (ps := [.counts, .cur]) (Only.refl _) (puntRing m q) (x.record d) rfl .out rfl)
    obtain ⟨os, h⟩ := State.settle_out (s.puntOut m q x d)
    exact ⟨os, by rw [← h, hout]⟩

end

/-- Settles O12: each way in which a frame leaves, by its lemma. -/
theorem vatFramesLeave : Obligations.VatFramesLeave := by
  unfold Obligations.VatFramesLeave
  refine ⟨fun s t hbusy horder => ⟨fun q hend hans => ⟨fun hshadow hrx => ?_, fun hloud => ?_⟩,
    fun q r c hend hroom => puntComplete_joins hbusy horder hend hroom⟩,
    fun s m q x xs d ds heng hhst hmill hen hhalt hroom hq hd hlen => puntDeliver_delivers heng hhst hmill hen hhalt hroom hq hd hlen⟩
  · exact enqComplete_quiet hend hans hbusy horder (by unfold State.quiet; rw [hshadow, hrx]; rfl)
  · have hloud : s.quiet t = false := by
      unfold State.quiet
      rcases hloud with h | h <;> rw [h]
      · rfl
      · rw [Bool.not_true, Bool.and_false]
    exact ⟨enqComplete_discards hend hans hbusy horder hloud, fun htag hnot => ⟨enqComplete_attached hend hans hbusy horder hloud htag hnot,
      enqComplete_egress hend hans hbusy horder hloud htag hnot, enqComplete_line hend hans hbusy horder hloud htag hnot⟩⟩

end Sys2Proof.Machine
end

section
/-! The frame cipher on contexts as byte strings (Table 5-4): what a change of one field leaves of another. -/

namespace Sys2Proof.Machine

/-! ### Bytes that are replaced -/

theorem patch_length {bs : Bytes} {o : Nat} (v : Bytes) (h : o ≤ bs.length) : (patch bs o v).length = bs.length := by
  unfold patch
  simp only [List.length_append, List.length_take, List.length_drop]
  omega

theorem slice_getElem? (bs : Bytes) (o n i : Nat) : (slice bs o n)[i]? = if i < n then bs[o + i]? else none := by
  rw [slice, List.getElem?_take, List.getElem?_drop]

theorem patch_getElem? {bs : Bytes} {o : Nat} {v : Bytes} (h : o + v.length ≤ bs.length) (i : Nat) :
    (patch bs o v)[i]? = if i < o then bs[i]? else if i < o + v.length then v[i - o]? else bs[i]? := by
  have hfront : (bs.take o).length = o := by rw [List.length_take]; omega
  have hmid : v.take (bs.length - o) = v := List.take_of_length_le (by omega)
  unfold patch
  rw [hmid]
  split
  · next hi => rw [List.getElem?_append_left (by omega), List.getElem?_take, if_pos hi]
  · next hi =>
    rw [List.getElem?_append_right (by omega), hfront]
    split
    · next hj => rw [List.getElem?_append_left (by omega)]
    · next hj =>
      rw [List.getElem?_append_right (by omega), List.getElem?_drop]
      congr 1
      omega

/-- A field beside the bytes that are replaced stays. -/
theorem slice_patch_beside {bs v : Bytes} {o p n : Nat} (h : o + v.length ≤ bs.length) (hb : p + n ≤ o ∨ o + v.length ≤ p) :
    slice (patch bs o v) p n = slice bs p n := by
  refine List.ext_getElem? fun i => ?_
  rw [slice_getElem?, slice_getElem?, patch_getElem? h]
  split
  · split
    · rfl
    · rw [if_neg (by omega)]
  · rfl

/-- The bytes that are replaced. -/
theorem slice_patch {bs v : Bytes} {o : Nat} (h : o + v.length ≤ bs.length) : slice (patch bs o v) o v.length = v := by
  refine List.ext_getElem? fun i => ?_
  rw [slice_getElem?, patch_getElem? h]
  split
  · next hi => rw [if_neg (by omega), if_pos (by omega), Nat.add_sub_cancel_left]
  · next hi => rw [List.getElem?_eq_none (by omega)]

theorem leNat_leBytes : ∀ k n : Nat, leNat (leBytes k n) = n % 256 ^ k
  | 0, n => by rw [leBytes, leNat, Nat.pow_zero, Nat.mod_one]
  | k + 1, n => by
    rw [leBytes, leNat, leNat_leBytes k, byteOf_toNat, Nat.pow_succ', Nat.mod_mul]

/-! ### Fields of a context -/

theorem ctxSet_length {c : Bytes} {o : Nat} (n v : Nat) (h : o ≤ c.length) : (ctxSet c o n v).length = c.length := patch_length _ h

section
variable {c : Bytes} (hc : c.length = 256)
include hc

theorem ctxPn_ctxSet (v : Nat) : ctxPn (ctxSet c 80 8 v) = v % 2 ^ 64 := by
  have h := slice_patch (bs := c) (v := leBytes 8 v) (o := 80) (by rw [length_leBytes]; omega)
  rw [length_leBytes] at h
  unfold ctxPn ctxLe ctxSet
  rw [h, leNat_leBytes]
  exact congrArg (v % ·) (by norm_num)

theorem ctxPn_ctxSet_beside {o n : Nat} (v : Nat) (hn : o + n ≤ 256) (hb : 88 ≤ o ∨ o + n ≤ 80) : ctxPn (ctxSet c o n v) = ctxPn c := by
  unfold ctxPn ctxLe ctxSet
  rw [slice_patch_beside (by rw [length_leBytes]; omega) (by rw [length_leBytes]; omega)]

theorem ctxPn_ctxCount {i : Nat} (n : Nat) (hi : i < 16) : ctxPn (ctxCount c i n) = ctxPn c :=
  ctxPn_ctxSet_beside hc _ (by omega) (by omega)

theorem ctxCount_length {i : Nat} (n : Nat) (hi : i < 16) : (ctxCount c i n).length = 256 :=
  (ctxSet_length _ _ (by omega)).trans hc

theorem ctxPn_ctxEnd : ctxPn (ctxEnd c) = ctxPn c := by
  unfold ctxPn ctxLe ctxEnd
  rw [slice_patch_beside (by rw [hc]; decide) (by decide)]

theorem ctxEnd_length : (ctxEnd c).length = 256 := (patch_length _ (by omega)).trans hc

theorem takeoverJump_length (tko : Nat) : (takeoverJump c tko).1.length = 256 := by
  unfold takeoverJump
  dsimp only
  split
  · exact hc
  · split
    · exact (ctxSet_length _ _ (by omega)).trans hc
    · have h80 : (ctxSet c 80 8 (ctxPn c + (tko + 65536 - ctxLe c 100 2) % 65536 * 2 ^ 24)).length = 256 := (ctxSet_length _ _ (by omega)).trans hc
      exact (ctxSet_length _ _ (by omega)).trans h80

end

/-- Without a takeover since, nothing jumps (R159). -/
theorem takeoverJump_none {c : Bytes} {tko : Nat} (h : ctxLe c 100 2 = tko) : (takeoverJump c tko).1 = c := by
  unfold takeoverJump
  dsimp only
  rw [if_pos (by omega)]

end Sys2Proof.Machine
end

section
/-! Frames meet their context in the frame cipher (R157-R160, R166), and the threshold FIFO is read (Table 5-15). -/

namespace Sys2Proof.Machine

variable {s t u : State} {m : Fin 4}

/-! ### The frame that is first in ticket order (R166) -/

section
variable {sax : Fin 65536} {f : Frame} {c : Bytes}

/-- The frame of an SA that has no key to give is discarded. -/
theorem fciFrame_drops {rx : Bool} {w : State} (hhead : s.cipherHead m sax.val rx = some f)
    (hdrop : (s.takeCipher m f).cipherDrop m f (s.saEff sax.val) = some w) :
    Completes (if rx then .fciRxFrame m sax else .fciTxFrame m sax) s fun u => u.mills = (w.retry m).mills := by
  cases rx
  · have hexec : exec (.fciTxFrame m sax) s = finish (w.retry m) := by
      change execFciTxFrame m sax s = _
      unfold execFciTxFrame
      rw [hhead]
      dsimp only
      rw [hdrop]
    exact completes_finish hexec (State.settle_mills _)
  · have hexec : exec (.fciRxFrame m sax) s = finish (w.retry m) := by
      change execFciRxFrame m sax s = _
      unfold execFciRxFrame
      rw [hhead]
      dsimp only
      rw [hdrop]
    exact completes_finish hexec (State.settle_mills _)

/-- Towards the line: refused for an exhausted SA, or given a packet number. -/
theorem fciTxFrame_meets (hhead : s.cipherHead m sax.val false = some f) (hdrop : (s.takeCipher m f).cipherDrop m f (s.saEff sax.val) = none)
    (hctx : (s.sac m).ctx sax.val = some c) :
    let w := if s.saEff sax.val = .exhausted ∨ byteAt c 1 = 5 then (s.takeCipher m f).refuseFrame m sax.val c
      else (s.takeCipher m f).cipherTx m sax.val c f
    Completes (.fciTxFrame m sax) s fun u => u.mills = (w.retry m).mills ∧ u.trib = (w.retry m).trib := by
  have hexec : exec (.fciTxFrame m sax) s = finish ((if s.saEff sax.val = .exhausted ∨ byteAt c 1 = 5 then
      (s.takeCipher m f).refuseFrame m sax.val c else (s.takeCipher m f).cipherTx m sax.val c f).retry m) := by
    change execFciTxFrame m sax s = _
    unfold execFciTxFrame
    rw [hhead]
    dsimp only
    rw [hdrop]
    dsimp only
    rw [hctx]
  exact completes_finish hexec ⟨State.settle_mills _, State.settle_trib _⟩

/-- The state in which the received frame has left the queue, its verdict stands in its context, and a frame without a valid tag is counted. -/
def State.rxValidated (s : State) (m : Fin 4) (sax : Nat) (f : Frame) (c : Bytes) : State :=
  let v := validate c (s.secPos m c f.bytes) f.bytes
  let w := (s.takeCipher m f).modSac m fun x => x.putCtx sax (v.ctx c)
  if v.cnt = 5 then w.countMill m 3 14 (saScx sax) else w

theorem State.rxValidated_samePath (s : State) (m : Fin 4) (sax : Nat) (f : Frame) (c : Bytes) :
    ((s.takeCipher m f).modSac m fun x => x.putCtx sax ((validate c (s.secPos m c f.bytes) f.bytes).ctx c)).SamePath (s.rxValidated m sax f c) := by
  unfold State.rxValidated
  dsimp only
  split
  · exact State.countMill_samePath ..
  · exact .refl _

section
variable (hhead : s.cipherHead m sax.val true = some f) (hdrop : (s.takeCipher m f).cipherDrop m f (s.saEff sax.val) = none)
  (hctx : (s.sac m).ctx sax.val = some c)
include hhead hdrop hctx

/-- From the line: a frame that is delivered goes on to its port. -/
theorem fciRxFrame_delivers {b : Bytes} (hout : (validate c (s.secPos m c f.bytes) f.bytes).out = some b) :
    Completes (.fciRxFrame m sax) s fun u => u.mills = ((((s.takeCipher m f).modSac m fun x =>
      x.putCtx sax.val ((validate c (s.secPos m c f.bytes) f.bytes).ctx c)).joinEgress (portOf f.port)
        { f with bytes := b, att := none }).retry m).mills := by
  have hexec : exec (.fciRxFrame m sax) s =
      finish (((s.rxValidated m sax.val f c).joinEgress (portOf f.port) { f with bytes := b, att := none }).retry m) := by
    change execFciRxFrame m sax s = _
    unfold execFciRxFrame
    rw [hhead]
    dsimp only
    rw [hdrop]
    dsimp only
    rw [hctx]
    dsimp only
    rw [hout]
    rfl
  exact completes_finish hexec ((State.settle_mills _).trans (((s.rxValidated_samePath ..).joinEgress ..).retry m).mills)

/-- One that is not is discarded. -/
theorem fciRxFrame_discards (hout : (validate c (s.secPos m c f.bytes) f.bytes).out = none) :
    Completes (.fciRxFrame m sax) s fun u => u.mills = ((((s.takeCipher m f).modSac m fun x =>
      x.putCtx sax.val ((validate c (s.secPos m c f.bytes) f.bytes).ctx c)).dropRx m f).retry m).mills := by
  have hexec : exec (.fciRxFrame m sax) s = finish (((s.rxValidated m sax.val f c).dropRx m f).retry m) := by
    change execFciRxFrame m sax s = _
    unfold execFciRxFrame
    rw [hhead]
    dsimp only
    rw [hdrop]
    dsimp only
    rw [hctx]
    dsimp only
    rw [hout]
    rfl
  exact completes_finish hexec ((State.settle_mills _).trans (((s.rxValidated_samePath ..).dropRx m f).retry m).mills)

end
end

/-! ### The threshold FIFO (Table 5-15) -/

theorem State.readThresh_eq (s : State) (m : Fin 4) : s.readThresh m =
    ((s.sac m).thFifo.headD 0 + b2n (s.sac m).thOvf * 2 ^ 30 + (if (s.sac m).thFifo = [] then 0 else 2 ^ 31),
      s.modSac m fun x => { x with thFifo := x.thFifo.drop 1, thOvf := false }) := by
  unfold State.readThresh
  dsimp only
  cases hfifo : (s.sac m).thFifo with
  | nil =>
    refine congrArg₂ Prod.mk (by simp) (s.modSac_congr m ?_)
    rw [hfifo]
    rfl
  | cons sax rest =>
    refine congrArg₂ Prod.mk (by simp) (s.modSac_congr m ?_)
    rw [hfifo]
    rfl

theorem threshFifoRead_reads (hlive : s.millLive m = true) : Completes (.threshFifoRead m) s fun u =>
    u.mills = (s.modSac m fun x => { x with thFifo := x.thFifo.drop 1, thOvf := false }).mills
    ∧ Out.regRead 0 (Reg.fci m 0x20) (BitVec.ofNat 32 (((s.sac m).thFifo.headD 0) + b2n (s.sac m).thOvf * 2 ^ 30
      + if (s.sac m).thFifo = [] then 0 else 2 ^ 31)) ∈ u.out := by
  have hexec : exec (.threshFifoRead m) s = finish ((s.readThresh m).2.emit (.regRead 0 (Reg.fci m 0x20) (BitVec.ofNat 32 (s.readThresh m).1))) :=
    if_pos hlive
  rw [State.readThresh_eq] at hexec
  exact completes_finish hexec ⟨State.settle_mills _, State.mem_settle_emit ..⟩

/-! ### Packet numbers (R157, R159) -/

/-- Every cache has the ways that it had. -/
structure State.SameWays (s t : State) : Prop where
  ways : ∀ m, (t.sac m).ways = (s.sac m).ways

theorem State.SameWays.refl (s : State) : s.SameWays s := ⟨fun _ => rfl⟩
theorem State.SameWays.trans (h : s.SameWays t) (k : t.SameWays u) : s.SameWays u := ⟨fun m => (k.ways m).trans (h.ways m)⟩
theorem State.SameWays.of_sac (h : ∀ m, t.sac m = s.sac m) : s.SameWays t := ⟨fun m => congrArg Sac.ways (h m)⟩
theorem State.SameWays.of_mills (h : t.mills = s.mills) : s.SameWays t := .of_sac (State.sac_of_mills h)

/-- A step that may be taken. -/
theorem State.SameWays.step {c : Prop} [Decidable c] (h : s.SameWays t) (k : t.SameWays u) : s.SameWays (if c then u else t) := by
  split
  · exact h.trans k
  · exact h

theorem State.pnThreshold_sameWays (s : State) (m : Fin 4) (sax : Nat) : s.SameWays (s.pnThreshold m sax) := by
  refine ⟨fun k => ?_⟩
  have hsac : (s.pnThreshold m sax).sac k = ((s.setSa sax { s.saAt sax with thresh := true }).modSac m fun x =>
    if x.thFifo.length < 16 then { x with thFifo := x.thFifo ++ [sax] } else { x with thOvf := true }).sac k := rfl
  rw [hsac]
  by_cases h : m = k
  · subst h
    rw [State.sac_modSac]
    split <;> rfl
  · rw [State.sac_modSac_ne _ _ _ _ h]
    rfl

theorem State.exhaust_mills (s : State) (m : Fin 4) (sax : Nat) : (s.exhaust m sax).mills = s.mills := by
  unfold State.exhaust
  split <;> rfl

theorem State.exhaust_trib (s : State) (m : Fin 4) (sax : Nat) : (s.exhaust m sax).trib = s.trib := by
  unfold State.exhaust
  split <;> rfl

theorem State.checkpoint_mills (s : State) (sax pn : Nat) : (s.checkpoint sax pn).mills = s.mills := by
  obtain ⟨x, o, h⟩ := s.feltSend_ends 0x21 (ckptEntry sax (pn % 2 ^ 64))
  unfold State.checkpoint
  split
  · rw [h]
  · rfl

/-- A context that is stored in the way that holds it. -/
theorem Sac.way_putCtx {x : Sac} {sax k : Nat} (h : x.find sax = some k) (c : Bytes) :
    (x.putCtx sax c).way k = some { sax := sax, ctx := c, used := true } := by
  unfold Sac.putCtx
  rw [h]
  unfold Sac.way Sac.setWay tset
  dsimp only
  rw [if_neg (Option.some_ne_none _), tget_tins_eq]

theorem State.way_stored {k sax : Nat} {c : Bytes} (hfind : (s.sac m).find sax = some k)
    (h : (s.modSac m fun x => x.putCtx sax c).SameWays t) : (t.sac m).way k = some { sax := sax, ctx := c, used := true } := by
  have hways := h.ways m
  rw [State.sac_modSac] at hways
  rw [← Sac.way_putCtx hfind c]
  unfold Sac.way
  rw [hways]

/-- The context after a frame of `octets` bytes of secure data has taken its packet number. -/
def ctxTaken (c : Bytes) (octets : Nat) : Bytes :=
  let e := b2n (ctxFlag c 4)
  let c1 := ctxCount (ctxCount (ctxSet c 80 8 (ctxPn c + 1)) e 1) (2 + e) octets
  if decide (ctxPn c = ctxFinal c) then ctxEnd c1 else c1

/-- The packet number rises by one. -/
theorem ctxPn_ctxTaken {c : Bytes} (hc : c.length = 256) (octets : Nat) : ctxPn (ctxTaken c octets) = (ctxPn c + 1) % 2 ^ 64 := by
  have he : b2n (ctxFlag c 4) < 2 := by unfold b2n; split <;> omega
  have h0 : (ctxSet c 80 8 (ctxPn c + 1)).length = 256 := (ctxSet_length _ _ (by omega)).trans hc
  have h1 : (ctxCount (ctxSet c 80 8 (ctxPn c + 1)) (b2n (ctxFlag c 4)) 1).length = 256 := ctxCount_length h0 1 (by omega)
  have h2 := ctxCount_length h1 octets (i := 2 + b2n (ctxFlag c 4)) (by omega)
  have hpn : ctxPn (ctxCount (ctxCount (ctxSet c 80 8 (ctxPn c + 1)) (b2n (ctxFlag c 4)) 1) (2 + b2n (ctxFlag c 4)) octets)
      = (ctxPn c + 1) % 2 ^ 64 :=
    calc _ = ctxPn (ctxCount (ctxSet c 80 8 (ctxPn c + 1)) (b2n (ctxFlag c 4)) 1) := ctxPn_ctxCount h1 _ (by omega)
      _ = ctxPn (ctxSet c 80 8 (ctxPn c + 1)) := ctxPn_ctxCount h0 _ (by omega)
      _ = (ctxPn c + 1) % 2 ^ 64 := ctxPn_ctxSet hc _
  unfold ctxTaken
  dsimp only
  split
  · exact (ctxPn_ctxEnd h2).trans hpn
  · exact hpn

section
variable {sax k : Nat} {c j : Bytes} {f : Frame} (hjump : takeoverJump c s.mte.tko.toNat = (j, false))
include hjump

/-- No number is left: the frame is refused, the context marked. -/
theorem State.cipherTx_spent (hspent : ctxSpent j = true) :
    s.cipherTx m sax c f = (s.exhaust m sax).refuseFrame m sax (ctxEnd j) := by
  unfold State.cipherTx
  rw [hjump]
  dsimp only
  rw [hspent]
  rfl

/-- A number is taken: the context with the next one stands in its way. -/
theorem State.cipherTx_takes (hleft : ctxSpent j = false) :
    (s.modSac m fun x => x.putCtx sax (ctxTaken j (f.bytes.length - 4 - s.secPos m j f.bytes))).SameWays (s.cipherTx m sax c f) := by
  unfold State.cipherTx
  rw [hjump]
  dsimp only
  rw [hleft, Bool.or_false, if_neg Bool.false_ne_true]
  refine State.SameWays.trans ?_ (.of_sac (State.sendTx_only (ps := [.out, .counts, .sch, .ports, .trib, .tribOld]) (Only.refl _) _ rfl .sac rfl))
  refine .step ?_ (.of_mills (State.checkpoint_mills ..))
  refine .step ?_ (.of_mills (State.exhaust_mills ..))
  exact .step (.refl _) (State.pnThreshold_sameWays ..)

end

/-- R157, R159: the packet number rises by one with a frame that is protected; where none is left the context keeps its number. -/
theorem State.cipherTx_numbers {sax k : Nat} {c : Bytes} (f : Frame) (hc : c.length = 256) (hfind : (s.sac m).find sax = some k)
    (hjump : (takeoverJump c s.mte.tko.toNat).2 = false) :
    let j := (takeoverJump c s.mte.tko.toNat).1
    ∃ c', ((s.cipherTx m sax c f).sac m).way k = some { sax := sax, ctx := c', used := true }
      ∧ (ctxSpent j = false → ctxPn c' = (ctxPn j + 1) % 2 ^ 64)
      ∧ (ctxSpent j = true → ctxPn c' = ctxPn j ∧ ((s.cipherTx m sax c f).trib = s.trib)) := by
  intro j
  have hpair : takeoverJump c s.mte.tko.toNat = (j, false) := Prod.ext rfl hjump
  have hj : j.length = 256 := takeoverJump_length hc _
  cases hspent : ctxSpent j with
  | false =>
    exact ⟨_, State.way_stored hfind (State.cipherTx_takes hpair hspent), fun _ => ctxPn_ctxTaken hj _, fun h => Bool.noConfusion h⟩
  | true =>
    have hmills := s.exhaust_mills m sax
    have hfind' : ((s.exhaust m sax).sac m).find sax = some k := by rw [State.sac_of_mills hmills, hfind]
    rw [State.cipherTx_spent hpair hspent]
    refine ⟨_, State.way_stored hfind' (.of_mills rfl), fun h => Bool.noConfusion h, fun _ => ⟨?_, s.exhaust_trib m sax⟩⟩
    exact (ctxPn_ctxCount (ctxEnd_length hj) 1 (by omega)).trans (ctxPn_ctxEnd hj)

/-- Settles O15: the frame that meets its context, the FIFO, and the packet numbers. -/
theorem framesMeetTheirContext : Obligations.FramesMeetTheirContext := by
  unfold Obligations.FramesMeetTheirContext
  refine ⟨fun s m sax f c => ⟨fciTxFrame_meets, fun hhead hdrop hctx => ⟨fun b => fciRxFrame_delivers hhead hdrop hctx,
    fciRxFrame_discards hhead hdrop hctx⟩, fun rx w => fciFrame_drops, threshFifoRead_reads⟩, fun s m sax k c f hc hfind _ hjump => ⟨takeoverJump_none,
    s.cipherTx_numbers f hc hfind hjump⟩⟩

end Sys2Proof.Machine
end

section
/-! The statement about `SARET` and `SAPIN` fails: the fetch that a PIN begins may wait for a page rewrite from its first edge, and then is
marked as counted (R168). -/

namespace Sys2Proof.Machine

/-- PIN of SA 12 (SC 3, AN 0). -/
def pinOf12 : Desc :=
  { index := 0, raw := padTo 128 (leBytes 2 0x2F83 ++ leBytes 2 0 ++ leBytes 2 3 ++ [1, 0]) }

/-- Every domain released; ring 0 of engine 0 is enabled with the PIN at its head, ABI version 1 selected. SA 12 is installed and not
resident, and the page of the catalogue that holds its context is being rewritten. -/
def pinDuringRewrite : State :=
  let s0 : State := { rst := { released := 0x7FFF } }
  let s1 := ((s0.setReg (Reg.cur 0) 0x110000).setReg (Reg.ring 0 0 8) 0x440).modRing ⟨0, 0⟩ fun g => { g with en := true, fetched := [pinOf12] }
  ((s1.setSc 3 { valid := true }).setSa 12 { st := .installed }).modChan 0 fun x =>
    { x with rewrites := [{ page := 0, line := 0, req := { master := .window, op := .read, addr := 0 }, data := [] }] }

theorem pinDuringRewrite_takes : pinDuringRewrite.Takes ⟨0, 0⟩ 0x03 (· = 0) pinOf12 := by
  unfold State.Takes
  decide +kernel

/-- The SA may be pinned; its context is nowhere in the cache, and way 96 is free for it. -/
theorem pinDuringRewrite_meets : saxOf pinOf12 = 12 ∧ (pinDuringRewrite.scAt pinOf12.p2).mill = 0 ∧ pinDuringRewrite.saEff 12 = .installed
    ∧ pinDuringRewrite.pinnedIn 0 12 < 6 ∧ (pinDuringRewrite.sac 0).find 12 = none ∧ (pinDuringRewrite.sac 0).awaited 12 = false
    ∧ (pinDuringRewrite.sac 0).missOut < 64
    ∧ (pinDuringRewrite.setSa 12 { pinDuringRewrite.saAt 12 with pinned := true }).pickWay 0 12 = some 96
    ∧ (((pinDuringRewrite.setSa 12 { pinDuringRewrite.saAt 12 with pinned := true }).evict 0 96).sac 0).victim 12 = none := by
  decide +kernel

/-- The fetch begins behind the rewrite, and is counted as a page stall at once. -/
theorem pinDuringRewrite_stalls : readNext (fun t => (t.sac 0).fetches.map (·.stalled)) (exec (.sapinPin ⟨0, 0⟩) pinDuringRewrite) = some [true] := by
  decide +kernel

/-- Refutes O17: where the page of the context is being rewritten, the fetch that PIN starts enters the miss queue marked as counted for
its page stall (R168), not as a fetch that has met no stall. -/
theorem not_sasAreReadAndEnd : ¬ Obligations.SasAreReadAndEnd := by
  unfold Obligations.SasAreReadAndEnd
  rintro ⟨h, -⟩
  obtain ⟨hsax, hmill, hst, hpins, hfind, hwaits, hout, hpick, hvictim⟩ := pinDuringRewrite_meets
  obtain ⟨-, -, hpin⟩ := h pinDuringRewrite ⟨0, 0⟩ pinOf12
  rw [hsax] at hpin
  obtain ⟨-, haway⟩ := hpin pinDuringRewrite_takes (fun _ => hmill) (by rw [hst]; rfl) (by rw [hst]; decide) (.inr hpins)
  obtain ⟨-, hfetch⟩ := haway hfind hwaits hout
  obtain ⟨t, ⟨-, -, -, hfetches⟩, hread⟩ := (hfetch 96 hpick hvictim).read pinDuringRewrite_stalls
  have hnone : (pinDuringRewrite.sac 0).fetches = [] := by decide +kernel
  rw [hfetches, hnone] at hread
  cases hread

end Sys2Proof.Machine
end

section
/-! The integer and control instructions of the vat (R185-R187), and the instructions that end a frame (R188, R197, R198, R229). -/

namespace Sys2Proof.Machine

variable {s u : State} {t : Tid} {n : Nat}

/-! ### Integer instructions (Table 6-4) -/

/-- Issuing an instruction leaves its operands. -/
theorem State.past_src (s : State) (t : Tid) (n : Nat) (v : VSrc) : (s.past t n).src v = (s.thread t).src v := by
  cases v with
  | reg _ => rfl
  | imm _ => rfl

theorem alu_writes {aop gd : Nat} {a b : VSrc} (h : s.Issues t (.alu aop gd a b) n) :
    ThreadBecomes (vatLocal t (isAlu aop) runAlu s) s t
      ((s.past t n).setG gd (aluOp aop ((s.thread t).src a) ((s.thread t).src b))) :=
  becomes_of_vatLocal h (decide_eq_true rfl) (by rw [← s.past_src t n a, ← s.past_src t n b]; rfl)

theorem movShift_writes {gd : Nat} {v : W64} (h : s.Issues t (.movShift gd v) n) :
    ThreadBecomes (execMov t s) s t ((s.past t n).setG gd (((s.thread t).gr gd <<< 28) ||| v)) :=
  becomes_of_vatLocal h rfl rfl

/-! ### Control (Table 6-5) -/

theorem br_goes {a : Nat} (h : s.Issues t (.br a) n) :
    ThreadBecomes (execBr t s) s t { s.past t n with pc := BitVec.ofNat 14 a } :=
  becomes_of_vatLocal h rfl rfl

theorem brp_goes {p a : Nat} {sense : Bool} (h : s.Issues t (.brp p sense a) n) :
    ThreadBecomes (execBrp t s) s t
      (if (s.thread t).p.getLsbD p = sense then { s.past t n with pc := BitVec.ofNat 14 a } else s.past t n) :=
  becomes_of_vatLocal h rfl rfl

theorem call_pushes {a : Nat} (h : s.Issues t (.call a) n) (hroom : (s.thread t).stack.length < 8) :
    ThreadBecomes (execCall t s) s t { s.past t n with stack := (s.past t n).pc :: (s.past t n).stack, pc := BitVec.ofNat 14 a } :=
  becomes_of_vatLocal h rfl (if_neg (Nat.not_le.mpr hroom))

theorem ret_pops {b : W14} {bs : List W14} (h : s.Issues t .ret n) (hstack : (s.thread t).stack = b :: bs) :
    ThreadBecomes (execRet t s) s t { s.past t n with stack := bs, pc := b } := by
  have hpast : (s.past t n).stack = b :: bs := hstack
  refine becomes_of_vatLocal h rfl ?_
  unfold runRet
  dsimp only
  rw [hpast]

/-! ### Ends of a frame (R188, R197, R229) -/

theorem enq_ends_line (h : s.Issues t (.enq 0) n) (htx : (s.thread t).frame.rx = false) (htrib : (s.thread t).trib.isSome = true) :
    ThreadBecomes (execEnq t s) s t { s.past t n with ended := some (.enq 0) } := by
  have htx : (s.past t n).frame.rx = false := htx
  have htrib : (s.past t n).trib.isNone = false := by
    rw [← Option.not_isSome]
    exact congrArg not htrib
  refine becomes_of_vatRow h rfl ?_
  dsimp only
  rw [htx, htrib]
  rfl

theorem enq_ends_client {gs : Nat} (h : s.Issues t (.enq gs) n) (hrx : (s.thread t).frame.rx = true)
    (hlt : ((s.thread t).gr gs).toNat < 256) (hmill : ((s.thread t).gr gs).toNat % 32 / 8 = t.mill.val)
    (hport : s.portEnabled (portOf ((s.thread t).gr gs).toNat) = true) :
    ThreadBecomes (execEnq t s) s t { s.past t n with ended := some (.enq ((s.thread t).gr gs).toNat) } := by
  have hrx : (s.past t n).frame.rx = true := hrx
  refine becomes_of_vatRow h rfl ?_
  dsimp only
  rw [hrx]
  exact (if_neg Bool.false_ne_true).trans (if_pos ⟨hlt, hmill, hport⟩)

theorem punt_ends {q r : Nat} (h : s.Issues t (.punt q r) n) :
    ThreadBecomes (execPunt t s) s t { s.past t n with ended := some (.punt q r 0), reqs := [], wait := .none } :=
  becomes_of_vatLocal h rfl rfl

/-! ### A frame that is discarded does not depend on what is counted (R198) -/

theorem State.SamePath.thread (h : s.SamePath u) (t : Tid) : u.thread t = s.thread t := by
  unfold State.thread
  rw [State.vat_of_mills h.mills]

theorem State.SamePath.setThread (h : s.SamePath u) (t : Tid) (x : Thread) : (s.setThread t x).SamePath (u.setThread t x) := h.modVat ..

theorem State.SamePath.freeThread (h : s.SamePath u) (t : Tid) (withdraw : Bool) :
    (s.freeThread t withdraw).SamePath (u.freeThread t withdraw) := by
  unfold State.freeThread
  rw [h.thread t]
  exact .retry (.ite (fun _ => (h.setThread ..).countMill ..) fun _ => h.setThread ..) _

theorem State.SamePath.vatDrop (h : s.SamePath u) (t : Tid) : (s.vatDrop t).SamePath (u.vatDrop t) := by
  unfold State.vatDrop
  rw [h.thread t]
  exact (h.freeThread t true).dropFrame ..

theorem drop_discards {r : Nat} (h : s.Issues t (.drop r) n) :
    ∃ u, execDrop t s = .next u ∧ u.mills = (((s.tookTurn t).setThread t (s.past t n)).vatDrop t).mills
      ∧ u.trib = (((s.tookTurn t).setThread t (s.past t n)).vatDrop t).trib := by
  have hpath := ((((s.tookTurn t).setThread t (s.past t n)).countMill_samePath t.mill 4 3 r 1).vatDrop t).trans (State.settle_samePath _)
  exact ⟨_, vatRow_next h rfl rfl, hpath.mills, hpath.trib⟩

/-- Settles O7: each instruction by its lemma. -/
theorem vatArithmeticAndControl : Obligations.VatArithmeticAndControl := by
  unfold Obligations.VatArithmeticAndControl
  exact ⟨fun s t gd n a b => ⟨alu_writes, alu_writes, alu_writes, alu_writes, alu_writes, alu_writes, alu_writes, alu_writes,
      fun v => movShift_writes⟩,
    fun s t n a => ⟨br_goes, fun p sense => brp_goes, call_pushes, fun b bs => ret_pops⟩,
    fun s t n => ⟨enq_ends_line, fun gs => enq_ends_client, fun q r => punt_ends, fun r => drop_discards⟩⟩

end Sys2Proof.Machine
end

section
/-! `MOV` from a special register, `CMP`, `EXT` and `INS` (R178-R181, R185, R186), and the exception ILLEGAL (R172, R183, R200). -/

namespace Sys2Proof.Machine

variable {s : State} {t : Tid} {n : Nat}

/-! ### Special registers and predicates -/

theorem movSpecial_writes {gd idx : Nat} {v : W64} (h : s.Issues t (.movSpecial gd idx) n)
    (hv : ((s.tookTurn t).setThread t (s.past t n)).special t (s.past t n) idx = some v) :
    ∃ u, execMovSpecial t s = .next u
      ∧ u.mills = ((s.tookTurn t).setThread t ((s.past t n).setG gd v)).mills ∧ u.free = s.free + b2n (decide (idx = 0x0E)) := by
  refine ⟨State.settle { (s.tookTurn t).setThread t ((s.past t n).setG gd v) with free := s.free + b2n (decide (idx = 0x0E)) },
    vatRow_next h rfl ?_, State.settle_mills _, State.settle_free _⟩
  dsimp only
  rw [hv, ← State.setThread_setThread _ ((s.past t n).setG gd v) (State.past_ne h)]
  rfl

theorem cmp_sets {pd gs c : Nat} {b : VSrc} (h : s.Issues t (.cmp pd gs c b) n) :
    ThreadBecomes (execCmp t s) s t ((s.past t n).setP pd (cmpCond c ((s.thread t).gr gs) ((s.thread t).src b))) :=
  becomes_of_vatLocal h rfl (by rw [← s.past_src t n b]; rfl)

/-! ### Fields of the window, of the scratch and of a register -/

theorem ext_reads_window {gd gb off k : Nat} (h : s.Issues t (.extMem gd false gb off k) n)
    (hin : ((s.thread t).gr gb).toNat + off + k ≤ 256) :
    ThreadBecomes (execExt t s) s t ((s.past t n).setG gd (BitVec.ofNat 64
      (beNat ((List.range k).map fun j => byteAt (s.thread t).frame.bytes (((s.thread t).gr gb).toNat + off + j))))) :=
  becomes_of_vatRow h rfl (if_neg (Nat.not_lt.mpr hin))

/-- Storing a thread and taking its turn leave the scratch. -/
theorem State.issued_scratchRead (s : State) (t : Tid) (x : Thread) (a k : Nat) :
    ((s.tookTurn t).setThread t x).scratchRead t a k = s.scratchRead t a k := by
  have hscratch : (((s.tookTurn t).setThread t x).vat t.mill).scratch = (s.vat t.mill).scratch := by
    unfold State.setThread State.tookTurn
    rw [State.vat_modVat, State.vat_modVat]
  unfold State.scratchRead
  rw [hscratch]

theorem ext_reads_scratch {gd gb off k : Nat} (h : s.Issues t (.extMem gd true gb off k) n)
    (hin : ((s.thread t).gr gb).toNat + off + k ≤ 8192) :
    ThreadBecomes (execExt t s) s t ((s.past t n).setG gd (BitVec.ofNat 64
      (beNat (s.scratchRead t (((s.thread t).gr gb).toNat + off) k)))) := by
  rw [← s.issued_scratchRead t (s.past t n)]
  exact becomes_of_vatRow h rfl (if_neg (Nat.not_lt.mpr hin))

theorem ext_reads_register {gd gs pos w : Nat} (h : s.Issues t (.extReg gd gs pos w) n) :
    ThreadBecomes (execExt t s) s t ((s.past t n).setG gd (((s.thread t).gr gs >>> pos) &&& zimm (2 ^ w - 1))) :=
  becomes_of_vatRow h rfl rfl

theorem ins_writes_window {gs gb off k : Nat} (h : s.Issues t (.insMem gs false gb off k) n)
    (hin : (s.thread t).winGuard (((s.thread t).gr gb).toNat + off) k = false) :
    ThreadBecomes (execIns t s) s t { s.past t n with
      frame := { (s.thread t).frame with
        bytes := patch (s.thread t).frame.bytes (((s.thread t).gr gb).toNat + off) (beBytes k ((s.thread t).gr gs).toNat) }
      winWritten := true } :=
  becomes_of_vatRow h rfl (if_neg (ne_true_of_eq_false hin))

theorem ins_writes_scratch {gs gb off k : Nat} (h : s.Issues t (.insMem gs true gb off k) n)
    (hin : ((s.thread t).gr gb).toNat + off + k ≤ 8192) :
    ∃ u, execIns t s = .next u ∧ u.mills = (((s.tookTurn t).setThread t (s.past t n)).scratchWrite t
      (((s.thread t).gr gb).toNat + off) (beBytes k ((s.thread t).gr gs).toNat)).mills :=
  ⟨_, vatRow_next h rfl (if_neg (Nat.not_lt.mpr hin)), State.settle_mills _⟩

theorem ins_writes_register {gd gs pos w : Nat} (h : s.Issues t (.insReg gd gs pos w) n) :
    ThreadBecomes (execIns t s) s t ((s.past t n).setG gd
      (((s.thread t).gr gd &&& ~~~(zimm (2 ^ w - 1) <<< pos)) ||| (((s.thread t).gr gs &&& zimm (2 ^ w - 1)) <<< pos))) :=
  becomes_of_vatRow h rfl rfl

/-! ### ILLEGAL -/

/-- The thread that has issued parcels that are no instruction. -/
def Thread.tried (x : Thread) : Thread := { x with issued := x.issued + 1, trapAt := none }

/-- The thread that enters its handler, at `handler`, for an exception at `pc` (R200). -/
def Thread.trapped (x : Thread) (handler : Nat) (cause : Nat) (pc : W14) (now : Nat) : Thread :=
  { x with pc := BitVec.ofNat 14 (handler % 16384), inTrap := true, cause := cause, trapPc := pc, trapAt := some now, stack := [], ended := none }

/-- Outside its handler, and where the handler is enabled, the thread goes there. -/
theorem State.vexc_traps (hen : s.bit (vatReg t 8) 14 = true) (hout : (s.thread t).inTrap = false) (cause : Nat) (pc : W14) :
    s.vexc t cause pc = (s.countExc t cause pc).setThread t ((s.thread t).trapped (s.reg (vatReg t 8)) cause pc s.now) := by
  have hen : natBit (s.reg (vatReg t 8)) 14 = true := hen
  unfold State.vexc
  dsimp only
  rw [hen, hout]
  rfl

/-- What an exception records leaves the threads. -/
theorem State.countExc_threads (s : State) (t : Tid) (cause : Nat) (pc : W14) :
    ((s.countExc t cause pc).vat t.mill).threads = (s.vat t.mill).threads := by
  rw [State.countExc_vat]
  split <;> rfl

theorem State.setThread_threads (s : State) (t : Tid) (x : Thread) :
    ((s.setThread t x).vat t.mill).threads = tset default (tidKey t) x (s.vat t.mill).threads :=
  congrArg Vat.threads (State.vat_modVat ..)

section
variable (hlive : s.millLive t.mill = true) (hissue : s.issuable t = true) (hturn : s.vatTurn t = true) (hill : s.vinstr t = none)
include hlive hissue hturn hill

/-- Parcels that are no instruction raise ILLEGAL, whichever instruction is asked for. -/
theorem vatRow_illegal (sel : VInstr → Bool) (run : State → Thread → VInstr → Except Nat State) :
    vatRow t sel run s = finish (((s.tookTurn t).setThread t (s.thread t).tried).vexc t 1 (s.thread t).pc) := by
  unfold vatRow
  dsimp only
  rw [hlive, hissue, hturn, hill]
  rfl

theorem vatRow_illegal_traps (sel : VInstr → Bool) (run : State → Thread → VInstr → Except Nat State)
    (hout : (s.thread t).inTrap = false) (hen : s.bit (vatReg t 8) 14 = true)
    (hstored : ((s.tookTurn t).setThread t (s.thread t).tried).thread t = (s.thread t).tried) :
    ∃ u, vatRow t sel run s = .next u ∧ (u.vat t.mill).threads = ((((s.tookTurn t).setThread t (s.thread t).tried).setThread t
      ((s.thread t).tried.trapped (s.reg (vatReg t 8)) 1 (s.thread t).pc s.now)).vat t.mill).threads := by
  refine ⟨_, vatRow_illegal hlive hissue hturn hill sel run, ?_⟩
  have hout : (((s.tookTurn t).setThread t (s.thread t).tried).thread t).inTrap = false := by rw [hstored]; exact hout
  have hen : ((s.tookTurn t).setThread t (s.thread t).tried).bit (vatReg t 8) 14 = true := hen
  rw [State.settle_vat, State.vexc_traps hen hout, hstored]
  simp only [State.setThread_threads, State.countExc_threads]
  rfl

end

/-- Instructions of every kind are rows of the vat: what ILLEGAL does is the same for all of them. -/
theorem exec_vatRow {c : Instr} (hc : c ∈ [Instr.mov t, .add t, .cmp t, .ext t, .br t, .lkp t, .enq t, .drop t]) :
    ∃ sel run, vatRow t sel run s = exec c s := by
  simp only [List.mem_cons, List.not_mem_nil, or_false] at hc
  rcases hc with rfl | rfl | rfl | rfl | rfl | rfl | rfl | rfl
  · exact ⟨_, _, (rfl : vatLocal t _ _ s = _)⟩
  · exact ⟨_, _, (rfl : vatLocal t _ _ s = _)⟩
  · exact ⟨_, _, (rfl : vatLocal t _ _ s = _)⟩
  · exact ⟨_, _, (rfl : vatRow t _ _ s = execExt t s)⟩
  · exact ⟨_, _, (rfl : vatLocal t _ _ s = _)⟩
  · exact ⟨_, _, (rfl : vatRow t _ _ s = execLkp t s)⟩
  · exact ⟨_, _, (rfl : vatRow t _ _ s = execEnq t s)⟩
  · exact ⟨_, _, (rfl : vatRow t _ _ s = execDrop t s)⟩

/-- Settles O8: each instruction by its lemma, and ILLEGAL for every row of the vat. -/
theorem vatMovesAndFields : Obligations.VatMovesAndFields := by
  unfold Obligations.VatMovesAndFields
  refine ⟨fun s t n => ⟨fun gd idx v => movSpecial_writes, fun pd gs c b => cmp_sets, fun gd gb off k => ext_reads_window,
    fun gd gb off k => ext_reads_scratch, fun gd gs pos w => ext_reads_register, fun gs gb off k => ins_writes_window,
    fun gs gb off k => ins_writes_scratch, fun gd gs pos w => ins_writes_register⟩,
    fun s t hlive hissue hturn hill hout hen hstored c hc => ?_⟩
  obtain ⟨sel, run, hexec⟩ := exec_vatRow (s := s) hc
  obtain ⟨u, hnext, hthreads⟩ := vatRow_illegal_traps hlive hissue hturn hill sel run hout hen hstored
  exact ⟨u, hexec.symm.trans hnext, hthreads⟩

end Sys2Proof.Machine
end

section
/-! The units answer the requests of a thread (R191, R194, R245), and waiting frames are dispatched to free threads (R173, R174, R176,
R203). -/

namespace Sys2Proof.Machine

variable {s u : State} {t : Tid}

/-! ### Lookups (R191, R194) -/

/-- A request to the hash unit; to the TCAM; to the policers. -/
def VatReq.isHash : VatReq → Bool
  | .hash _ _ _ _ _ => true
  | _ => false
def VatReq.isTcam : VatReq → Bool
  | .tcam _ _ _ _ _ => true
  | _ => false
def VatReq.isPol : VatReq → Bool
  | .pol _ _ _ => true
  | _ => false

theorem hashLookup_answers {gd pd tab : Nat} {key : Bytes} {pc : W14}
    (hreq : (s.thread t).reqs.find? VatReq.isHash = some (.hash gd pd tab key pc))
    (hen : s.bit (Reg.vat t.mill (0x900 + 4 * tab)) 31 = true) :
    Completes (.hashLookup t) s fun u => u.mills =
      (s.setThread t ((s.thread t).answer (.hash gd pd tab key pc) gd pd (s.hashFind t.mill tab key))).mills := by
  have hexec : execHashLookup t s = finish ((s.setThread t ((s.thread t).answer (.hash gd pd tab key pc) gd pd
      (s.hashFind t.mill tab key))).countMill t.mill 4 (if (s.hashFind t.mill tab key).isSome then 10 else 11) t.cluster.val) := by
    unfold execHashLookup
    dsimp only
    split
    next hfound =>
      cases hfound.symm.trans hreq
      rw [hen]
      rfl
    next hnone => exact (hnone _ _ _ _ _ hreq).elim
  exact completes_finish hexec (State.settle_mills _)

/-- The lowest entry of a partition that matches. -/
def State.tcamFind (s : State) (m : Fin 4) (part : Nat) (key : Bytes) : Option Nat :=
  (List.range (min (s.tcamPart m part).2 (2048 - (s.tcamPart m part).1))).findSome? fun i =>
    (s.vat m).tcamHit (beNat key) ((s.tcamPart m part).1 + i)

theorem tcamSearch_answers {gd pd part : Nat} {key : Bytes} {pc : W14}
    (hreq : (s.thread t).reqs.find? VatReq.isTcam = some (.tcam gd pd part key pc)) (hpart : (s.tcamPart t.mill part).2 ≠ 0) :
    Completes (.tcamSearch t) s fun u => u.mills =
      (s.setThread t ((s.thread t).answer (.tcam gd pd part key pc) gd pd (s.tcamFind t.mill part key))).mills := by
  have hexec : execTcamSearch t s = finish ((s.setThread t ((s.thread t).answer (.tcam gd pd part key pc) gd pd
      (s.tcamFind t.mill part key))).countMill t.mill 4 (if (s.tcamFind t.mill part key).isSome then 12 else 13) t.cluster.val) := by
    unfold execTcamSearch
    dsimp only
    split
    next hfound =>
      cases hfound.symm.trans hreq
      exact if_neg hpart
    next hnone => exact (hnone _ _ _ _ _ hreq).elim
  exact completes_finish hexec (State.settle_mills _)

/-! ### Policers (R245) -/

/-- The action for a colour: 0 where the frame goes on. -/
def Policer.actionFor (p : Policer) (colour : Nat) : Nat := if colour = 1 then p.yellow else if colour = 2 then p.red else 0

/-- The thread of a frame that a policer has coloured. -/
def Thread.coloured (x : Thread) (r : VatReq) (p : Policer) (gd colour : Nat) : Thread :=
  Thread.setG { x with
    reqs := x.reqs.erase r, lastColour := some (x.lastColour.getD colour)
    polCls := if p.actionFor colour = 2 then some (if colour = 1 then p.yellowCls else p.redCls) else x.polCls } gd (BitVec.ofNat 64 colour)

section
variable {gd n : Nat} {pc : W14}

/-- What policer `n` makes of the thread's frame: its colour, and the policer after it. -/
def State.colouring (s : State) (t : Tid) (n : Nat) : Nat × Policer :=
  (s.policer t.mill n).decide s.now ((s.thread t).lastColour.getD 0) (s.thread t).frame.bytes.length

/-- The state in which the buckets are kept and the frame is counted by its colour. -/
def State.charged (s : State) (t : Tid) (n : Nat) : State :=
  let (c, p) := s.colouring t n
  ((s.modSch t.mill fun y => { y with policers := tset default n p y.policers }).countMill t.mill 5 (1 + 2 * c) n).countMill t.mill 5
    (2 + 2 * c) n (s.thread t).frame.bytes.length

theorem State.charged_mills (s : State) (t : Tid) (n : Nat) : (s.charged t n).mills =
    (s.modSch t.mill fun y => { y with policers := tset default n (s.colouring t n).2 y.policers }).mills := rfl

theorem State.charged_policers (s : State) (t : Tid) (n : Nat) :
    ((s.charged t n).sch t.mill).policers = tset default n (s.colouring t n).2 (s.sch t.mill).policers := by
  have hsch : (s.charged t n).sch t.mill = _ := congrArg (fun ms : Vector Mill 4 => ms[t.mill].sch) (s.charged_mills t n)
  rw [hsch]
  exact congrArg Sch.policers (State.sch_modSch ..)

theorem State.charged_vat (s : State) (t : Tid) (n : Nat) : (s.charged t n).vat t.mill = s.vat t.mill :=
  (State.vat_of_mills (s.charged_mills t n) t.mill).trans (State.vat_modSch ..)

/-- A colour of which the action is not DROP: the buckets are kept, and the frame goes on. -/
theorem policerDecide_answers (hreq : (s.thread t).reqs.find? VatReq.isPol = some (.pol gd n pc)) (hen : (s.policer t.mill n).en = true)
    (hkept : (s.policer t.mill n).actionFor (s.colouring t n).1 ≠ 1) :
    Completes (.policerDecide t) s fun u =>
      (u.sch t.mill).policers = tset default n (s.colouring t n).2 (s.sch t.mill).policers
      ∧ (u.vat t.mill).threads = tset default (tidKey t)
        ((s.thread t).coloured (.pol gd n pc) (s.policer t.mill n) gd (s.colouring t n).1) (s.vat t.mill).threads := by
  have hexec : exec (.policerDecide t) s = finish ((s.charged t n).setThread t
      ((s.thread t).coloured (.pol gd n pc) (s.policer t.mill n) gd (s.colouring t n).1)) := by
    change execPolicerDecide t s = _
    unfold execPolicerDecide
    dsimp only
    split
    next hfound =>
      cases hfound.symm.trans hreq
      rw [hen]
      exact congrArg finish (if_neg hkept)
    next hnone => exact (hnone _ _ _ hreq).elim
  refine completes_finish hexec ⟨?_, ?_⟩
  · rw [State.settle_sch, State.setThread_sch, State.charged_policers]
  · rw [State.settle_vat, State.setThread_threads, State.charged_vat]

end

/-! ### What waits for room does not depend on what stands beside the path (R203) -/

/-- The first results of two functions that are related everywhere are related. -/
theorem findSome?_rel {α β : Type} {R : β → β → Prop} {f g : α → Option β} (h : ∀ a, Option.Rel R (f a) (g a)) :
    ∀ l : List α, Option.Rel R (l.findSome? f) (l.findSome? g)
  | [] => .none
  | a :: l => by
    have hrest := findSome?_rel h l
    rw [List.findSome?_cons, List.findSome?_cons]
    cases hf : f a <;> cases hg : g a <;> have ha := h a <;> rw [hf, hg] at ha
    case none.none => exact hrest
    case some.some => exact ha
    all_goals exact nomatch ha

theorem State.SamePath.refillOne (h : s.SamePath u) (m : Fin 4) : Option.Rel State.SamePath (s.refillOne m) (u.refillOne m) := by
  obtain ⟨p, e, k, o, c, g, rfl⟩ := h
  have h := s.beside_samePath p e k o c g
  unfold State.refillOne
  rw [show (s.beside p e k o c g).dispRoom m = s.dispRoom m from rfl, show (s.beside p e k o c g).sch m = s.sch m from rfl]
  split
  · exact .none
  · split
    · exact .some ((h.modSch ..).dispatchPut ..)
    · refine findSome?_rel (fun q => ?_) _
      rw [show (s.beside p e k o c g).port q = s.port q from rfl]
      split
      · cases (s.port q).hold.head? with
        | none => exact .none
        | some f => exact .some ((h.modPort ..).dispatchPut ..)
      · exact .none

theorem State.SamePath.refillMany (m : Fin 4) : ∀ (k : Nat) {s u : State}, s.SamePath u → (s.refillMany m k).SamePath (u.refillMany m k)
  | 0, _, _, h => h
  | k + 1, s, u, h => by
    have hone := h.refillOne m
    rw [State.refillMany, State.refillMany]
    cases hs : s.refillOne m <;> cases hu : u.refillOne m <;> rw [hs, hu] at hone
    case none.none => exact h
    case some.some =>
      obtain ⟨hone⟩ := hone
      exact State.SamePath.refillMany m k hone
    all_goals exact nomatch hone

theorem State.SamePath.refill (h : s.SamePath u) (m : Fin 4) : (s.refill m).SamePath (u.refill m) := by
  obtain ⟨p, e, k, o, c, g, rfl⟩ := h
  exact State.SamePath.refillMany m 256 ((s.beside_samePath p e k o c g).modVat m fun v =>
    { v with disp := restray (s.clusterTakes m) v.rr [] v.disp })

/-! ### Dispatch (R173, R174, R176) -/

/-- The thread that is given a frame: at its entry point, with cleared registers and the parser's results. -/
def State.startedOn (s : State) (m : Fin 4) (t : Tid) (f : Frame) : Thread :=
  { busy := true, frame := f, desc := s.parsed m f, seq := (s.vat m).nextSeq, since := s.now
    pc := BitVec.ofNat 14 (s.fld (vatReg t 4) (if f.rx then 16 else 0) 14) }

theorem vatDispatch_starts {m : Fin 4} {w : Fin 8 × Frame} (hlive : s.millLive m = true)
    (hnext : s.nextDispatch m [] (s.vat m).disp = some (w, t)) :
    Completes (.vatDispatch m) s fun u => u.mills = (((s.setThread t (s.startedOn m t w.2)).modVat m fun v =>
      { v with disp := v.disp.erase w, nextSeq := v.nextSeq + 1 }).refill m).mills := by
  have hexec : exec (.vatDispatch m) s = finish ((((s.setThread t (s.startedOn m t w.2)).modVat m fun v =>
      { v with disp := v.disp.erase w, nextSeq := v.nextSeq + 1 }).countMill m 4 (b2n w.2.rx) t.cluster.val).refill m) := by
    change execVatDispatch m s = _
    unfold execVatDispatch
    rw [hnext]
    exact if_pos hlive
  refine completes_finish hexec ?_
  rw [State.settle_mills]
  exact ((State.countMill_samePath ..).refill m).mills

/-- Settles O10: each answer by its lemma, and the dispatch of a frame. -/
theorem vatUnitsAnswer : Obligations.VatUnitsAnswer := by
  unfold Obligations.VatUnitsAnswer
  exact ⟨fun s t => ⟨fun gd pd tab key pc => hashLookup_answers, fun gd pd part key pc => tcamSearch_answers,
    fun gd n pc => policerDecide_answers⟩, fun s m w t => vatDispatch_starts⟩

end Sys2Proof.Machine
end

section
/-! Clusters run and stop (R204), and the entry windows of the hash table and the TCAM (R193, R195). -/

namespace Sys2Proof.Machine

variable {s : State} {m : Fin 4}

/-! ### Clusters (R204) -/

section
variable {c : Fin 8}

theorem vatClusterRun_starts (hlive : s.millLive m = true) (hrun : (s.vat m).run[c] ≠ 1) :
    Completes (.vatClusterRun m c) s fun u => u.mills = ((s.modVat m fun v => { v with
      run := v.run.set c 1, gen := v.gen.set c ((v.gen[c] + 1) % 65536)
      scratch := tkeep (fun k => decide (k / 65536 ≠ c.val)) v.scratch }).refill m).mills :=
  completes_finish (if_pos hlive) (by rw [State.settle_mills, State.clusterRun, if_neg hrun])

theorem vatClusterRun_again (hlive : s.millLive m = true) (hrun : (s.vat m).run[c] = 1) :
    Completes (.vatClusterRun m c) s fun u => u.mills = s.mills :=
  completes_finish (if_pos hlive) (by rw [State.settle_mills, State.clusterRun, if_pos hrun])

theorem vatClusterStop_stops (hlive : s.millLive m = true) (hrun : (s.vat m).run[c] = 1) :
    Completes (.vatClusterStop m c) s fun u =>
      u.mills = ((s.modVat m fun v => { v with run := v.run.set c (if s.clusterIdle m c then 0 else 2) }).refill m).mills :=
  completes_finish (if_pos hlive) (by rw [State.settle_mills, State.clusterStop, if_pos hrun])

theorem vatClusterStop_again (hlive : s.millLive m = true) (hrun : (s.vat m).run[c] ≠ 1) :
    Completes (.vatClusterStop m c) s fun u => u.mills = s.mills :=
  completes_finish (if_pos hlive) (by rw [State.settle_mills, State.clusterStop, if_neg hrun])

theorem vatClusterIdle_stops (hdrains : (s.vat m).run[c] = 2) (hidle : s.clusterIdle m c = true) :
    Completes (.vatClusterIdle m c) s fun u => u.mills = (s.modVat m fun v => { v with run := v.run.set c 0 }).mills :=
  completes_finish (if_pos ⟨hdrains, hidle⟩) (State.settle_mills _)

end

/-! ### The entry windows (R193, R195) -/

theorem State.modVat_regs (s : State) (k : Fin 4) (f : Vat → Vat) : (s.modVat k f).regs = s.regs := rfl

/-- Copying an entry into the staging words leaves the mills. -/
theorem State.unstage_mills (s : State) (m : Fin 4) (o n : Nat) (b : Bytes) : (s.unstage m o n b).mills = s.mills :=
  List.foldlRecOn (motive := fun u : State => u.mills = s.mills) _ _ rfl fun _ hu _ _ => hu

/-- What an entry puts into the staging words does not depend on the mills. -/
theorem State.unstage_modVat (s : State) (k : Fin 4) (f : Vat → Vat) (m : Fin 4) (o n : Nat) (b : Bytes) :
    (s.modVat k f).unstage m o n b = (s.unstage m o n b).modVat k f :=
  List.foldl_hom (State.modVat · k f) fun _ _ => rfl

/-- The hash window begins a write of its entry, or a read. -/
theorem State.htCmd_write (hfree : (s.vat m).hashOp = none) (e : Nat) : s.htCmd m e false =
    ((s.setReg (Reg.vat m 0x9A0) e).modVat m fun v => { v with hashOp := some ⟨true, e⟩ }).modVat m fun v =>
      { v with hash := tset [] e (packEntry (s.staged m 0x980 8)) v.hash } := by
  unfold State.htCmd
  rw [hfree]
  rfl

theorem State.htCmd_read (hfree : (s.vat m).hashOp = none) (e : Nat) : s.htCmd m e true =
    ((s.setReg (Reg.vat m 0x9A0) (e + 2 ^ 29)).unstage m 0x980 8 (tget [] (s.vat m).hash e)).modVat m fun v =>
      { v with hashOp := some ⟨false, e⟩ } := by
  rw [← State.unstage_modVat]
  unfold State.htCmd
  rw [hfree]
  rfl

theorem State.tcamCmd_write (hfree : (s.vat m).tcamOp = none) (e : Nat) : s.tcamCmd m e false =
    ((s.setReg (Reg.vat m 0xAC0) e).modVat m fun v => { v with tcamOp := some ⟨true, e⟩ }).modVat m fun v =>
      { v with tcam := tset [] e (packEntry (s.staged m 0xA80 11)) v.tcam } := by
  unfold State.tcamCmd
  rw [hfree]
  rfl

theorem State.tcamCmd_read (hfree : (s.vat m).tcamOp = none) (e : Nat) : s.tcamCmd m e true =
    ((s.setReg (Reg.vat m 0xAC0) (e + 2 ^ 29)).unstage m 0xA80 11 (tget [] (s.vat m).tcam e)).modVat m fun v =>
      { v with tcamOp := some ⟨false, e⟩ } := by
  rw [← State.unstage_modVat]
  unfold State.tcamCmd
  rw [hfree]
  rfl

section
variable (hlive : s.millLive m = true)
include hlive

section
variable (hfree : (s.vat m).hashOp = none)
include hfree

theorem htEntryWrite_stores (e : Fin 131072) : Completes (.htEntryWrite m e) s fun u =>
    (u.vat m).hashOp = some ⟨true, e.val⟩ ∧ (u.vat m).hash = tset [] e.val (packEntry (s.staged m 0x980 8)) (s.vat m).hash := by
  refine completes_finish (if_pos hlive) ?_
  rw [State.settle_vat, State.htCmd_write hfree, State.vat_modVat, State.vat_modVat]
  exact ⟨rfl, rfl⟩

theorem htEntryRead_copies (e : Fin 131072) : Completes (.htEntryRead m e) s fun u =>
    (u.vat m).hashOp = some ⟨false, e.val⟩ ∧ (u.vat m).hash = (s.vat m).hash
      ∧ u.regs = ((s.setReg (Reg.vat m 0x9A0) (e.val + 2 ^ 29)).unstage m 0x980 8 (tget [] (s.vat m).hash e.val)).regs := by
  refine completes_finish (if_pos hlive) ?_
  rw [State.settle_vat, State.settle_regs, State.htCmd_read hfree, State.vat_modVat,
    State.vat_of_mills ((State.unstage_mills ..).trans (State.setReg_mills ..)), State.modVat_regs]
  exact ⟨rfl, rfl, rfl⟩

end

section
variable (hfree : (s.vat m).tcamOp = none)
include hfree

theorem tcamEntryWrite_stores (e : Fin 2048) : Completes (.tcamEntryWrite m e) s fun u =>
    (u.vat m).tcamOp = some ⟨true, e.val⟩ ∧ (u.vat m).tcam = tset [] e.val (packEntry (s.staged m 0xA80 11)) (s.vat m).tcam := by
  refine completes_finish (if_pos hlive) ?_
  rw [State.settle_vat, State.tcamCmd_write hfree, State.vat_modVat, State.vat_modVat]
  exact ⟨rfl, rfl⟩

theorem tcamEntryRead_copies (e : Fin 2048) : Completes (.tcamEntryRead m e) s fun u =>
    (u.vat m).tcamOp = some ⟨false, e.val⟩ ∧ (u.vat m).tcam = (s.vat m).tcam
      ∧ u.regs = ((s.setReg (Reg.vat m 0xAC0) (e.val + 2 ^ 29)).unstage m 0xA80 11 (tget [] (s.vat m).tcam e.val)).regs := by
  refine completes_finish (if_pos hlive) ?_
  rw [State.settle_vat, State.settle_regs, State.tcamCmd_read hfree, State.vat_modVat,
    State.vat_of_mills ((State.unstage_mills ..).trans (State.setReg_mills ..)), State.modVat_regs]
  exact ⟨rfl, rfl, rfl⟩

end

/-- While a window is busy a command is ignored. -/
theorem htEntryWrite_ignored (hbusy : (s.vat m).hashOp.isSome = true) (e : Fin 131072) :
    Completes (.htEntryWrite m e) s fun u => u.mills = s.mills ∧ u.regs = s.regs := by
  refine completes_finish (if_pos hlive) ?_
  rw [State.settle_mills, State.settle_regs, State.htCmd, if_pos hbusy]
  exact ⟨rfl, rfl⟩

theorem tcamEntryWrite_ignored (hbusy : (s.vat m).tcamOp.isSome = true) (e : Fin 2048) :
    Completes (.tcamEntryWrite m e) s fun u => u.mills = s.mills ∧ u.regs = s.regs := by
  refine completes_finish (if_pos hlive) ?_
  rw [State.settle_mills, State.settle_regs, State.tcamCmd, if_pos hbusy]
  exact ⟨rfl, rfl⟩

end

theorem htOpDone_frees (hbusy : (s.vat m).hashOp.isSome = true) :
    Completes (.htOpDone m) s fun u => u.mills = (s.modVat m fun v => { v with hashOp := none }).mills :=
  completes_finish (if_pos hbusy) (State.settle_mills _)

theorem tcamOpDone_frees (hbusy : (s.vat m).tcamOp.isSome = true) :
    Completes (.tcamOpDone m) s fun u => u.mills = (s.modVat m fun v => { v with tcamOp := none }).mills :=
  completes_finish (if_pos hbusy) (State.settle_mills _)

/-- Settles O13: each command by its lemma. -/
theorem vatIsSetUp : Obligations.VatIsSetUp := by
  unfold Obligations.VatIsSetUp
  exact ⟨fun s m c => ⟨fun hlive hrun => ⟨vatClusterRun_starts hlive hrun, vatClusterStop_again hlive hrun⟩,
      fun hlive hrun => ⟨vatClusterRun_again hlive hrun, vatClusterStop_stops hlive hrun⟩, vatClusterIdle_stops⟩,
    fun s m hlive => ⟨fun e hfree => ⟨htEntryWrite_stores hlive hfree e, htEntryRead_copies hlive hfree e⟩,
      fun e hfree => ⟨tcamEntryWrite_stores hlive hfree e, tcamEntryRead_copies hlive hfree e⟩,
      fun hbusy => ⟨htOpDone_frees hbusy, htEntryWrite_ignored hlive hbusy⟩,
      fun hbusy => ⟨tcamOpDone_frees hbusy, tcamEntryWrite_ignored hlive hbusy⟩⟩⟩

end Sys2Proof.Machine
end

section
/-! Command rings (chapter 7): what the rings do by themselves after an instruction, ring by ring. Descriptors that break the format pass,
records are owed, a ring may halt; nothing else of a ring changes, and nothing but the rings and what follows every command. -/

namespace Sys2Proof.Machine

variable {s t u : State} {r : Rid} {d : Desc}

/-! ### A ring that runs on -/

/-- From `g` to `h`, under ABI version `sel`, the ring has passed descriptors that break the format, has come to owe records and has
perhaps halted. -/
def Ring.Passed (sel : Nat) (g h : Ring) : Prop :=
  ∃ n new b, h = { g with fetched := g.fetched.drop n, done := g.done ++ new, halt := g.halt || b }
    ∧ ∀ d ∈ g.fetched.take n, d.malformed sel ≠ none

section
variable {sel : Nat} {g h k : Ring}

theorem Ring.Passed.of_eq {new : List Rec} {b : Bool} (e : h = { g with done := g.done ++ new, halt := g.halt || b }) : g.Passed sel h :=
  ⟨0, new, b, e, fun _ hd => absurd hd List.not_mem_nil⟩

theorem Ring.Passed.refl (sel : Nat) (g : Ring) : g.Passed sel g :=
  .of_eq (new := []) (b := false) (by rw [List.append_nil, Bool.or_false])

theorem Ring.Passed.trans (hg : g.Passed sel h) (hh : h.Passed sel k) : g.Passed sel k := by
  obtain ⟨n, new, b, rfl, hn⟩ := hg
  obtain ⟨m, new', b', rfl, hm⟩ := hh
  refine ⟨n + m, new ++ new', b || b', ?_, fun d hd => ?_⟩
  · simp only [List.drop_drop, List.append_assoc, Bool.or_assoc]
  · rw [List.take_add] at hd
    exact (List.mem_append.mp hd).elim (hn d) (hm d)

theorem Ring.Passed.hold (hp : g.Passed sel h) : h.hold = g.hold := by obtain ⟨_, _, _, rfl, -⟩ := hp; rfl
theorem Ring.Passed.cons (hp : g.Passed sel h) : h.cons = g.cons := by obtain ⟨_, _, _, rfl, -⟩ := hp; rfl
theorem Ring.Passed.cqHead (hp : g.Passed sel h) : h.cqHead = g.cqHead := by obtain ⟨_, _, _, rfl, -⟩ := hp; rfl
theorem Ring.Passed.cqTail (hp : g.Passed sel h) : h.cqTail = g.cqTail := by obtain ⟨_, _, _, rfl, -⟩ := hp; rfl
theorem Ring.Passed.phase (hp : g.Passed sel h) : h.phase = g.phase := by obtain ⟨_, _, _, rfl, -⟩ := hp; rfl
theorem Ring.Passed.done (hp : g.Passed sel h) : ∃ new, h.done = g.done ++ new := by obtain ⟨_, new, _, rfl, -⟩ := hp; exact ⟨new, rfl⟩

theorem Ring.Passed.halt (hp : g.Passed sel h) (hg : g.halt = true) : h.halt = true := by
  obtain ⟨_, _, b, rfl, -⟩ := hp
  exact (congrArg (· || b) hg).trans (Bool.true_or b)

/-- Well-formed descriptors stay. -/
theorem Ring.Passed.fetched (hp : g.Passed sel h) (hg : ∀ d ∈ g.fetched, d.malformed sel = none) : h.fetched = g.fetched := by
  obtain ⟨n, _, _, rfl, hn⟩ := hp
  have hnone : g.fetched.take n = [] := List.eq_nil_iff_forall_not_mem.mpr fun d hd => hn d hd (hg d (List.mem_of_mem_take hd))
  have hall := List.take_append_drop n g.fetched
  rwa [hnone, List.nil_append] at hall

end

/-! ### Rings that run on -/

/-- From `s` to `t` the rings have run on, and what follows every command may have happened. -/
structure State.RunsOn (s t : State) : Prop where
  drains : s.Drains t
  only : Only (alsoIn [.cur]) s t
  out : s.out <:+ t.out
  ring : ∀ q, (s.ring q).Passed (s.abiSel (ringPf q)) (t.ring q)

theorem State.SamePath.abiSel (h : s.SamePath t) (pf : Fin 2) : t.abiSel pf = s.abiSel pf := by
  obtain ⟨_, _, _, _, _, _, rfl⟩ := h
  rfl

theorem State.RunsOn.refl (s : State) : s.RunsOn s := ⟨.refl s, .refl s, List.suffix_rfl, fun _ => .refl _ _⟩

theorem State.RunsOn.trans (h : s.RunsOn t) (k : t.RunsOn u) : s.RunsOn u := by
  refine ⟨h.drains.trans k.drains, h.only.trans k.only, h.out.trans k.out, fun q => (h.ring q).trans ?_⟩
  rw [← h.drains.path.abiSel]
  exact k.ring q

theorem State.RunsOn.of_cur (hp : s.SamePath t) (ho : Only (alsoIn [.cur]) s t) (hout : s.out <:+ t.out) (hc : t.cur = s.cur) : s.RunsOn t :=
  ⟨.of_cur hp hc, ho, hout, fun q => by rw [State.ring_of_cur hc]; exact .refl _ _⟩

theorem State.settle_runsOn (s : State) : s.RunsOn s.settle :=
  .of_cur s.settle_samePath (State.settle_only (Only.refl s) rfl) s.settle_out s.settle_cur

theorem State.record_cur (s : State) (r : Rid) (x : Rec) : (s.record r x).cur = (s.modRing r fun g => { g with done := g.done ++ [x] }).cur := by
  unfold State.record
  dsimp only
  split <;> rfl

theorem State.record_ring_ne (s : State) {q : Rid} (x : Rec) (h : r ≠ q) : (s.record r x).ring q = s.ring q :=
  (State.ring_of_cur (s.record_cur r x) q).trans (s.ring_modRing_ne _ h)

theorem State.record_runsOn (s : State) (r : Rid) (x : Rec) : s.RunsOn (s.record r x) := by
  have honly : Only [.counts, .cur] s (s.record r x) := State.record_only (Only.refl s) r x rfl
  refine ⟨s.record_drains r x, honly.mono rfl, by rw [show (s.record r x).out = s.out from honly .out rfl], fun q => ?_⟩
  by_cases h : r = q
  · subst h
    exact .of_eq (new := [x]) (b := false) (by rw [State.record_ring, Bool.or_false])
  · rw [s.record_ring_ne x h]
    exact .refl _ _

theorem State.haltRing_ring (s : State) (r : Rid) (tag : Nat) : (s.haltRing r tag).ring r = { s.ring r with halt := true } :=
  (State.ring_of_cur (State.happen_cur ..) r).trans (s.ring_modRing ..)

theorem State.haltRing_ring_ne (s : State) {q : Rid} (tag : Nat) (h : r ≠ q) : (s.haltRing r tag).ring q = s.ring q :=
  (State.ring_of_cur (State.happen_cur ..) q).trans (s.ring_modRing_ne _ h)

theorem State.haltRing_runsOn (s : State) (r : Rid) (tag : Nat) : s.RunsOn (s.haltRing r tag) := by
  have honly : Only [.counts, .evrQueue, .cur] s (s.haltRing r tag) := State.haltRing_only (Only.refl s) r tag rfl
  refine ⟨?_, honly.mono rfl, by rw [show (s.haltRing r tag).out = s.out from honly .out rfl], fun q => ?_⟩
  · exact (s.modRing_drains r (f := fun g => { g with halt := true }) fun _ => List.prefix_rfl).trans (State.happen_drains ..)
  · by_cases h : r = q
    · subst h
      exact .of_eq (new := []) (b := true) (by rw [State.haltRing_ring, Bool.or_true, List.append_nil])
    · rw [s.haltRing_ring_ne tag h]
      exact .refl _ _

/-! ### Malformed heads pass (R216, R218) -/

theorem State.malformedHead_fetched {st : Nat} (h : s.malformedHead r = some (d, st)) :
    ∃ ds, (s.ring r).fetched = d :: ds ∧ d.malformed (s.abiSel (ringPf r)) ≠ none := by
  unfold State.malformedHead at h
  split at h
  · cases hf : (s.ring r).fetched with
    | nil => rw [hf] at h; cases h
    | cons x xs =>
      rw [hf] at h
      obtain ⟨st', hx, heq⟩ := Option.map_eq_some_iff.mp h
      cases heq
      exact ⟨xs, rfl, fun hnone => by rw [hnone] at hx; cases hx⟩
  · cases h

/-- The ring behind a head that has left CHECK, the turn with it. -/
def State.headGone (s : State) (r : Rid) : State :=
  (s.modRing r fun g => { g with fetched := g.fetched.drop 1 }).modEng r.eng fun e => { e with rr := r.ring.val }

theorem State.headGone_passes {ds : List Desc} (hf : (s.ring r).fetched = d :: ds) (hbad : d.malformed (s.abiSel (ringPf r)) ≠ none) (q : Rid) :
    (s.ring q).Passed (s.abiSel (ringPf q)) ((s.headGone r).ring q) := by
  unfold State.headGone
  rw [State.ring_modEng _ r.eng (f := fun e => { e with rr := r.ring.val }) fun _ => rfl]
  by_cases h : r = q
  · subst h
    refine ⟨1, [], false, by rw [State.ring_modRing, List.append_nil, Bool.or_false], fun x hx => ?_⟩
    rw [hf] at hx
    rwa [List.mem_singleton.mp hx]
  · rw [State.ring_modRing_ne _ _ h]
    exact .refl _ _

theorem State.drainOne_runsOn {st : Nat} (h : s.malformedHead r = some (d, st)) : s.RunsOn (s.drainOne r d st) := by
  obtain ⟨ds, hf, hbad⟩ := State.malformedHead_fetched h
  have hgone : s.RunsOn (s.headGone r) := by
    refine ⟨?_, State.modEng_only (State.modRing_only (Only.refl s) _ _ rfl) _ _ rfl, List.suffix_rfl, State.headGone_passes hf hbad⟩
    exact (s.modRing_drains r (f := fun g => { g with fetched := g.fetched.drop 1 }) fun _ => List.prefix_rfl).trans
      (State.modEng_rr_drains ..)
  unfold State.drainOne
  dsimp only
  split
  · exact (hgone.trans (State.record_runsOn ..)).trans (State.haltRing_runsOn ..)
  · exact hgone.trans (State.record_runsOn ..)

theorem State.drain_runsOn (k : Fin 4) : ∀ (n : Nat) (s : State), s.RunsOn (s.drain k n)
  | 0, s => .refl s
  | n + 1, s => by
    unfold State.drain
    split
    · next r d st hhead =>
      obtain ⟨q, -, hq⟩ := List.exists_of_findSome?_eq_some hhead
      obtain ⟨x, hx, heq⟩ := Option.map_eq_some_iff.mp hq
      cases heq
      exact (State.drainOne_runsOn hx).trans (State.drain_runsOn k n _)
    · exact .refl s

theorem State.drainAll_runsOn (s : State) (r : Rid) : s.RunsOn (s.drainAll r) := State.drain_runsOn _ _ s

/-- A command after which the rings run on. -/
theorem completes_drained {i : Instr} {v : State} {P : State → Prop} (hx : exec i s = finish (v.drainAll r)) (hP : ∀ u, v.RunsOn u → P u) :
    Completes i s P :=
  completes_finish hx (hP _ ((v.drainAll_runsOn r).trans (State.settle_runsOn _)))

/-! ### An instruction is DONE -/

/-- The instruction of `ref` is no longer outstanding, and the ring that it held is free. -/
def State.released (s : State) (ref : CmdRef) : State :=
  if s.holdsRing ref then (s.modEng ref.rid.eng fun e => { e with outst := e.outst.filter (· ≠ ref) }).modRing ref.rid
    fun g => { g with hold := none }
  else s.modEng ref.rid.eng fun e => { e with outst := e.outst.filter (· ≠ ref) }

theorem State.complete_runsOn (s : State) (ref : CmdRef) (st res : Nat) (late stepped : Bool) (dseq : Option W32) :
    (s.released ref).RunsOn (s.complete ref st res late stepped dseq) := by
  have hrec : ∀ v : State, v.RunsOn
      (if (v.ring ref.rid).mute then v else v.record ref.rid (ref.recordOf st res late stepped dseq)) := fun v => by
    split
    · exact .refl v
    · exact v.record_runsOn ..
  rw [State.complete_eq_endCommand]
  unfold State.endCommand State.released
  dsimp only
  cases s.holdsRing ref
  · exact hrec _
  · exact (hrec _).trans (State.drainAll_runsOn ..)

theorem State.released_ring (s : State) (ref : CmdRef) :
    (s.released ref).ring ref.rid = if s.holdsRing ref then { s.ring ref.rid with hold := none } else s.ring ref.rid := by
  have hring := s.ring_modEng ref.rid.eng (f := fun e => { e with outst := e.outst.filter (· ≠ ref) }) (fun _ => rfl) ref.rid
  unfold State.released
  split
  · rw [State.ring_modRing, hring]
  · exact hring

/-- The ring that the instruction held is free. -/
theorem State.complete_frees {ref : CmdRef} (h : s.holdsRing ref = true) (st res : Nat) (late stepped : Bool) (dseq : Option W32) :
    ((s.complete ref st res late stepped dseq).ring ref.rid).hold = none := by
  rw [((s.complete_runsOn ref st res late stepped dseq).ring ref.rid).hold, State.released_ring, if_pos h]

/-- A ring that is halted stays so. -/
theorem State.complete_halted {ref : CmdRef} (h : (s.ring ref.rid).halt = true) (st res : Nat) (late stepped : Bool) (dseq : Option W32) :
    ((s.complete ref st res late stepped dseq).ring ref.rid).halt = true := by
  refine ((s.complete_runsOn ref st res late stepped dseq).ring ref.rid).halt ?_
  rw [State.released_ring]
  split
  · exact h
  · exact h

theorem State.waitFail_halts (s : State) (ref : CmdRef) (st : Nat) : ((s.waitFail ref st).ring ref.rid).halt = true :=
  State.complete_halted (by rw [State.haltRing_ring]) st 0 false false none

theorem State.waitFail_owes (s : State) (ref : CmdRef) (st : Nat) : s.Owes (s.waitFail ref st) :=
  (s.haltRing_holdsKept ref.rid ref.tag.toNat).owes.trans (State.complete_owes ..)

theorem State.waitFail_records (s : State) (ref : CmdRef) (st : Nat) : s.Records (s.waitFail ref st) ref st :=
  (s.haltRing_holdsKept ref.rid ref.tag.toNat).owes.records (State.complete_records _ ref st 0 false false none)

theorem State.waitFail_frees {ref : CmdRef} (h : s.holdsRing ref = true) (st : Nat) : ((s.waitFail ref st).ring ref.rid).hold = none := by
  refine State.complete_frees ?_ st 0 false false none
  unfold State.holdsRing
  rw [(s.haltRing_holdsKept ref.rid ref.tag.toNat).hold]
  exact h

/-! ### An instruction leaves CHECK -/

theorem exec_issue_refused {i : Instr} {mop st : Nat} {op : Nat → Bool} {run : State → Desc → CmdRef → State}
    (hx : exec i s = s.issue r mop op run) (hhead : s.headFor r mop op = some d) (hgate : s.gate r d = some st) :
    exec i s = finish (((s.pop r).complete (d.ref r) st).drainAll r) := by
  rw [hx, State.issue, hhead]
  dsimp only
  rw [hgate]

theorem exec_issue_runs {i : Instr} {mop : Nat} {op : Nat → Bool} {run : State → Desc → CmdRef → State}
    (hx : exec i s = s.issue r mop op run) (ht : s.Takes r mop op d) :
    exec i s = finish ((run (s.pop r) d (d.ref r)).drainAll r) := by
  obtain ⟨hhead, hgate⟩ := ht
  rw [hx, State.issue, hhead]
  dsimp only
  rw [hgate]

theorem exec_issueWait_refused {i : Instr} {st : Nat} {op : Nat → Bool} {run : State → Desc → CmdRef → State}
    (hx : exec i s = s.issueWait r op run) (hhead : s.headFor r 0x38 op = some d) (hgate : s.gate r d = some st) :
    exec i s = finish (((s.pop r).waitFail (d.ref r) st).drainAll r) := by
  rw [hx, State.issueWait, hhead]
  dsimp only
  rw [hgate]

theorem exec_issueWait_runs {i : Instr} {op : Nat → Bool} {run : State → Desc → CmdRef → State}
    (hx : exec i s = s.issueWait r op run) (ht : s.Takes r 0x38 op d) :
    exec i s = finish ((run (s.pop r) d (d.ref r)).drainAll r) := by
  obtain ⟨hhead, hgate⟩ := ht
  rw [hx, State.issueWait, hhead]
  dsimp only
  rw [hgate]

/-- The head's own record is owed once it is DONE, and nothing else has changed but its ring. -/
theorem State.RunsOn.completed {st res : Nat} {late stepped : Bool} {dseq : Option W32}
    (hu : ((s.pop r).complete (d.ref r) st res late stepped dseq).RunsOn u) :
    s.Records u (d.ref r) st res late ∧ Only (alsoIn [.cur]) s u :=
  ⟨.stay ((s.pop_owes r).records (State.complete_records _ (d.ref r) st res late stepped dseq)) hu.drains.done,
    (State.complete_only (State.pop_only (Only.refl s) r rfl) _ _ _ _ _ _ rfl).trans hu.only⟩

/-- A `WAITT` that fails halts its ring as well (R214). -/
theorem State.RunsOn.waitFailed {st : Nat} (hu : ((s.pop r).waitFail (d.ref r) st).RunsOn u) :
    s.Records u (d.ref r) st ∧ Only (alsoIn [.cur]) s u ∧ (u.ring r).halt = true :=
  ⟨.stay ((s.pop_owes r).records (State.waitFail_records _ (d.ref r) st)) hu.drains.done,
    (State.waitFail_only (State.pop_only (Only.refl s) r rfl) _ _ rfl).trans hu.only,
    (hu.ring r).halt (State.waitFail_halts _ (d.ref r) st)⟩

end Sys2Proof.Machine
end

section
/-! The ring registers, descriptors that are fetched, and reads that fail (R210-R215, R228). -/

namespace Sys2Proof.Machine

variable {s u : State} {r : Rid} {pf : Fin 2}

/-! ### The registers of a ring (R211-R213, R215) -/

/-- A register of a ring answers its owner once its engine is released. -/
theorem ite_owner {live : Bool} {a b c : Res} (hlive : live = true) (hpf : pf = ringPf r) :
    (if !live then a else if pf ≠ ringPf r then b else c) = c := by
  rw [hlive, Bool.not_true, if_neg Bool.false_ne_true, if_neg (not_not_intro hpf)]

theorem ite_other {live : Bool} {a b c : Res} (hlive : live = true) (hpf : pf ≠ ringPf r) :
    (if !live then a else if pf ≠ ringPf r then b else c) = b := by
  rw [hlive, Bool.not_true, if_neg Bool.false_ne_true, if_pos hpf]

/-- A write ignored as locked is only counted and recorded. -/
theorem completes_locked {i : Instr} {a v : Nat} (hx : exec i s = finish (s.lockedWrite pf a v)) : Completes i s (Only settled s) :=
  completes_finish hx (State.settle_only (State.lockedWrite_only (Only.refl s) pf a v rfl) rfl)

section
variable (hlive : s.engLive r.eng = true)
include hlive

theorem ringDoorbell_sets (hpf : pf = ringPf r) (v : W32) : Completes (.ringDoorbell pf r v) s fun u => u.cur = (s.modRing r fun g =>
    if (v.setWidth 16 - g.cons).toNat ≤ s.ringSize r then { g with prod := v.setWidth 16 } else { g with dbErr := true }).cur :=
  completes_finish (ite_owner hlive hpf) (State.settle_cur _)

theorem ringEnable_starts (hpf : pf = ringPf r) (hoff : (s.ring r).en = false) (habi : s.abiSel (ringPf r) ≠ 0) (hidle : s.ringPend r = 0) :
    Completes (.ringEnable pf r) s fun u => u.cur = (s.modRing r fun g => { g with
      en := true, prod := 0, cons := 0, cqHead := 0, cqTail := 0, phase := true, halt := false, dbErr := false
      fetched := [], hold := none, waiting := false, mute := false }).cur := by
  have hon : ((s.ring r).en || decide (s.abiSel (ringPf r) = 0) || decide (s.ringPend r ≠ 0)) = false := by
    rw [hoff, decide_eq_false habi, decide_eq_false (not_not_intro hidle)]
    rfl
  refine completes_finish (ite_owner hlive hpf) ((State.settle_cur _).trans ?_)
  rw [State.ringOn, hon, if_neg Bool.false_ne_true]

theorem ringDisable_stops (hpf : pf = ringPf r) :
    Completes (.ringDisable pf r) s fun u => u.cur = (s.modRing r fun g => { g with en := false }).cur :=
  completes_finish (ite_owner hlive hpf) (State.settle_cur _)

theorem cqHeadWrite_sets (hpf : pf = ringPf r) (v : W32) :
    Completes (.cqHeadWrite pf r v) s fun u => (u.ring r).cqHead = v.setWidth 16 := by
  refine completes_drained (v := s.modRing r fun g => { g with cqHead := v.setWidth 16 }) (ite_owner hlive hpf) fun u hu => ?_
  rw [(hu.ring r).cqHead, State.ring_modRing]

/-- The other function's writes of a ring's registers are ignored as locked (R211). -/
theorem ringRegisters_locked (hpf : pf ≠ ringPf r) (v : W32) :
    Completes (.ringDoorbell pf r v) s (Only settled s) ∧ Completes (.ringEnable pf r) s (Only settled s)
      ∧ Completes (.ringDisable pf r) s (Only settled s) ∧ Completes (.cqHeadWrite pf r v) s (Only settled s) :=
  ⟨completes_locked (ite_other hlive hpf), completes_locked (ite_other hlive hpf), completes_locked (ite_other hlive hpf),
    completes_locked (ite_other hlive hpf)⟩

theorem abiSelect_selects {f : Fin 2} {x : Fin 16} (hpf : pf = f) (hoff : s.ringsOff f = true) (hlo : 1 ≤ x.val) (hhi : x.val ≤ 2) :
    Completes (.abiSelect pf f x) s fun u => u.regs = (s.setFld (Reg.cur 0) (16 + 4 * f.val) 4 x.val).regs := by
  obtain ⟨hmgmt, -⟩ := Bool.and_eq_true_iff.mp hlive
  refine completes_finish (if_pos hmgmt) ((State.settle_regs _).trans ?_)
  rw [State.abiWrite, if_pos ⟨hpf, hoff, hlo, hhi⟩]

end

/-! ### Descriptors (R210, R212, R214) -/

/-- The ring behind a descriptor that has been read. -/
def Ring.joined (g : Ring) (n : Nat) (bs : Bytes) : Ring :=
  { g with fetched := g.fetched ++ [{ index := g.cons.toNat, raw := padTo n bs }], cons := g.cons + 1 }

theorem State.fetchFails_reports (s : State) (r : Rid) (st : Nat) :
    ((s.fetchFails r st).settle.ring r).halt = true
      ∧ ((s.fetchFails r st).settle.ring r).done =
        (s.ring r).done ++ [{ tag := 0, status := byteOf st, index := (s.ring r).cons.toNat, irq := true }] := by
  unfold State.fetchFails
  rw [State.settle_ring, State.record_ring, State.haltRing_ring]
  exact ⟨rfl, rfl⟩

section
variable (hdue : s.fetchDue r = true)
include hdue

theorem descriptorFetch_joins_punt (hr : 4 ≤ r.ring.val) (bs : Bytes) : Completes (.descriptorFetch r (.data bs)) s fun u =>
    u.ring r = (s.ring r).joined 16 bs := by
  have hpunt : ¬ r.ring.val < 4 := Nat.not_lt.mpr hr
  refine completes_finish (if_pos hdue) ?_
  rw [State.settle_ring, State.fetched, if_neg hpunt, if_neg hpunt, State.ring_modRing]
  rfl

/-- Where no fetched descriptor breaks the format, none passes. -/
theorem descriptorFetch_joins_command (hr : r.ring.val < 4) (bs : Bytes)
    (hgood : ∀ x ∈ ((s.ring r).joined 128 bs).fetched, x.malformed (s.abiSel (ringPf r)) = none) :
    Completes (.descriptorFetch r (.data bs)) s fun u =>
      (u.ring r).fetched = ((s.ring r).joined 128 bs).fetched ∧ (u.ring r).cons = (s.ring r).cons + 1 := by
  have hx : exec (.descriptorFetch r (.data bs)) s = finish ((s.modRing r fun g => g.joined 128 bs).drainAll r) := by
    refine (if_pos hdue).trans (congrArg finish ?_)
    rw [State.fetched, if_pos hr, if_pos hr]
    rfl
  refine completes_drained hx fun u hu => ?_
  have hring := hu.ring r
  rw [State.ring_modRing] at hring
  exact ⟨hring.fetched hgood, hring.cons⟩

theorem descriptorFetch_fails : Completes (.descriptorFetch r .error) s fun u => (u.ring r).halt = true
    ∧ (u.ring r).done = (s.ring r).done ++ [{ tag := 0, status := 0x19, index := (s.ring r).cons.toNat, irq := true }] :=
  completes_finish (if_pos hdue) (s.fetchFails_reports r 0x19)

theorem dmaTimeout_fails : Completes (.dmaTimeout r) s fun u => (u.ring r).halt = true
    ∧ (u.ring r).done = (s.ring r).done ++ [{ tag := 0, status := 0x1A, index := (s.ring r).cons.toNat, irq := true }] :=
  completes_finish (if_pos hdue) (s.fetchFails_reports r 0x1A)

end

/-- Settles O18: each register and each outcome of a read by its lemma. -/
theorem ringsTakeDescriptors : Obligations.RingsTakeDescriptors := by
  unfold Obligations.RingsTakeDescriptors
  refine ⟨fun s r pf v hlive => ⟨fun hpf => ?_, fun hpf => ringRegisters_locked hlive hpf v,
    fun f x hpf hoff hlo hhi => abiSelect_selects hlive hpf hoff hlo hhi⟩, fun s r hdue => ⟨fun bs hr => ?_, fun bs hr => ?_, ?_, ?_⟩⟩
  · exact ⟨ringDoorbell_sets hlive hpf v, ringEnable_starts hlive hpf, ringDisable_stops hlive hpf, cqHeadWrite_sets hlive hpf v⟩
  · exact (descriptorFetch_joins_punt hdue hr bs).mono fun u hu => ⟨congrArg Ring.fetched hu, congrArg Ring.cons hu⟩
  · intro d hd hall
    exact descriptorFetch_joins_command hdue hr bs fun x hx =>
      (List.mem_append.mp hx).elim (hall x) fun h => by rw [List.mem_singleton.mp h]; exact hd
  · exact descriptorFetch_fails hdue
  · exact dmaTimeout_fails hdue

end Sys2Proof.Machine
end

section
/-! `WAITT`, `FENCE`, `EPOCH` and `NOTIFY` (R223, R225-R227, R489). -/

namespace Sys2Proof.Machine

variable {s u v : State} {r : Rid} {d : Desc} {ref : CmdRef}

/-! ### An instruction holds its ring -/

theorem State.holdRing_ring (s : State) (ref : CmdRef) (h : Hold) : ((s.holdRing ref h).ring ref.rid).hold = some h := by
  unfold State.holdRing
  rw [State.ring_modRing]

theorem State.holdRing_pends (s : State) (ref : CmdRef) (h : Hold) : (s.holdRing ref h).Pends ref := by
  have hheld := (s.accept ref).modRing_drains ref.rid (f := fun g => { g with hold := some h }) fun _ => List.prefix_rfl
  unfold State.Pends State.holdRing
  rw [hheld.outst]
  exact s.accept_outst ref

/-- An instruction that holds its ring goes on doing so while the rings run on. -/
theorem State.RunsOn.holds {h : Hold} (hu : (s.holdRing (d.ref r) h).RunsOn u) : u.Pends (d.ref r) ∧ (u.ring r).hold = some h := by
  refine ⟨?_, (hu.ring r).hold.trans (s.holdRing_ring (d.ref r) h)⟩
  unfold State.Pends
  rw [hu.drains.outst]
  exact s.holdRing_pends (d.ref r) h

theorem completes_wait {i : Instr} {op : Nat → Bool} {run : State → Desc → CmdRef → State} {P : State → Prop}
    (hx : exec i s = s.issueWait r op run) (ht : s.Takes r 0x38 op d) (hrun : run (s.pop r) d (d.ref r) = v) (hP : ∀ u, v.RunsOn u → P u) :
    Completes i s P :=
  completes_drained ((exec_issueWait_runs hx ht).trans (by rw [hrun])) hP

theorem completes_run {i : Instr} {mop : Nat} {op : Nat → Bool} {run : State → Desc → CmdRef → State} {P : State → Prop}
    (hx : exec i s = s.issue r mop op run) (ht : s.Takes r mop op d) (hrun : run (s.pop r) d (d.ref r) = v) (hP : ∀ u, v.RunsOn u → P u) :
    Completes i s P :=
  completes_drained ((exec_issue_runs hx ht).trans (by rw [hrun])) hP

/-! ### WAITT TIME begins (R223, R489) -/

/-- The time base that a `WAITT` TIME names. -/
def Desc.waitBase (d : Desc) : Fin 8 := ⟨d.p1 % 8, by omega⟩

section
variable {t : Nat} (hd : d.time = some t)
include hd

theorem State.runWaittTime_eq : s.runWaittTime d ref =
    if !s.tbRun d.waitBase then s.waitFail ref 0x1C
    else if t ≤ (s.tbAt d.waitBase).val then s.complete ref 0 0 true
    else s.holdRing ref (.time ref d.waitBase t (decide (d.p2 ≠ 0)) (s.tbAt d.waitBase).steps) := by
  unfold State.runWaittTime
  rw [hd]
  rfl

theorem State.runWaittTime_running (hruns : s.tbRun d.waitBase = true) : (s.pop r).runWaittTime d (d.ref r) =
    if t ≤ (s.tbAt d.waitBase).val then (s.pop r).complete (d.ref r) 0 0 true
    else (s.pop r).holdRing (d.ref r) (.time (d.ref r) d.waitBase t (decide (d.p2 ≠ 0)) (s.tbAt d.waitBase).steps) :=
  (State.runWaittTime_eq hd).trans (if_neg (by rw [show (s.pop r).tbRun d.waitBase = true from hruns]; exact Bool.false_ne_true))

variable (ht : s.Takes r 0x38 (· = 0) d)
include ht

theorem waittTime_fails (hstop : s.tbRun d.waitBase = false) :
    Completes (.waittTime r) s fun u => s.Records u (d.ref r) 0x1C ∧ (u.ring r).halt = true := by
  have hrun : (s.pop r).runWaittTime d (d.ref r) = (s.pop r).waitFail (d.ref r) 0x1C :=
    (State.runWaittTime_eq hd).trans (if_pos (by rw [show (s.pop r).tbRun d.waitBase = false from hstop]; rfl))
  refine completes_wait rfl ht hrun fun u hu => ?_
  obtain ⟨hrec, -, hhalt⟩ := hu.waitFailed
  exact ⟨hrec, hhalt⟩

variable (hruns : s.tbRun d.waitBase = true)
include hruns

theorem waittTime_late (hlate : t ≤ (s.tbAt d.waitBase).val) : Completes (.waittTime r) s fun u => s.Records u (d.ref r) 0 0 true :=
  completes_wait rfl ht ((State.runWaittTime_running hd hruns).trans (if_pos hlate)) fun _ hu => hu.completed.1

theorem waittTime_holds (hahead : (s.tbAt d.waitBase).val < t) : Completes (.waittTime r) s fun u => u.Pends (d.ref r)
    ∧ (u.ring r).hold = some (.time (d.ref r) d.waitBase t (decide (d.p2 ≠ 0)) (s.tbAt d.waitBase).steps) :=
  completes_wait rfl ht ((State.runWaittTime_running hd hruns).trans (if_neg (Nat.not_le.mpr hahead))) fun _ hu => hu.holds

end

/-! ### WAITT REAM begins -/

/-- The ream that a `WAITT` REAM names. -/
def Desc.waitReam (d : Desc) : W32 := BitVec.ofNat 32 (d.arg 0 4)

theorem State.runWaittReam_running (hon : s.txEn r.eng = true) : (s.pop r).runWaittReam d (d.ref r) =
    if (d.waitReam - (s.line r.eng).rc).toNat = 0 ∨ 2 ^ 31 ≤ (d.waitReam - (s.line r.eng).rc).toNat then (s.pop r).complete (d.ref r) 0 0 true
    else (s.pop r).holdRing (d.ref r) (.ream (d.ref r) d.waitReam (decide (d.p2 ≠ 0))) :=
  if_neg (by rw [show (s.pop r).txEn (d.ref r).rid.eng = true from hon]; exact Bool.false_ne_true)

section
variable (ht : s.Takes r 0x38 (· = 1) d)
include ht

theorem waittReam_fails (hoff : s.txEn r.eng = false) :
    Completes (.waittReam r) s fun u => s.Records u (d.ref r) 0x24 ∧ (u.ring r).halt = true := by
  have hrun : (s.pop r).runWaittReam d (d.ref r) = (s.pop r).waitFail (d.ref r) 0x24 :=
    if_pos (by rw [show (s.pop r).txEn (d.ref r).rid.eng = false from hoff]; rfl)
  refine completes_wait rfl ht hrun fun u hu => ?_
  obtain ⟨hrec, -, hhalt⟩ := hu.waitFailed
  exact ⟨hrec, hhalt⟩

variable (hon : s.txEn r.eng = true)
include hon

theorem waittReam_late (hlate : (d.waitReam - (s.line r.eng).rc).toNat = 0 ∨ 2 ^ 31 ≤ (d.waitReam - (s.line r.eng).rc).toNat) :
    Completes (.waittReam r) s fun u => s.Records u (d.ref r) 0 0 true :=
  completes_wait rfl ht ((State.runWaittReam_running hon).trans (if_pos hlate)) fun _ hu => hu.completed.1

theorem waittReam_holds (hahead : 0 < (d.waitReam - (s.line r.eng).rc).toNat) (hnear : (d.waitReam - (s.line r.eng).rc).toNat < 2 ^ 31) :
    Completes (.waittReam r) s fun u => u.Pends (d.ref r)
      ∧ (u.ring r).hold = some (.ream (d.ref r) d.waitReam (decide (d.p2 ≠ 0))) :=
  completes_wait rfl ht ((State.runWaittReam_running hon).trans
    (if_neg (not_or.mpr ⟨Nat.ne_of_gt hahead, Nat.not_le.mpr hnear⟩))) fun _ hu => hu.holds

end

/-! ### A ring that is held is free again -/

/-- An instruction that held its ring is DONE. -/
theorem completes_released {i : Instr} {st : Nat} {stepped : Bool} (hheld : s.holdsRing ref = true)
    (hx : exec i s = finish (s.complete ref st 0 false stepped)) :
    Completes i s fun u => s.Records u ref st ∧ (u.ring ref.rid).hold = none := by
  refine completes_finish hx ⟨.stay (s.complete_records ref st 0 false stepped none) (State.settle_drains _).done, ?_⟩
  rw [State.settle_ring, State.complete_frees hheld]

/-- A `WAITT` that held its ring fails. -/
theorem completes_waitFailed {i : Instr} {st : Nat} (hheld : s.holdsRing ref = true) (hx : exec i s = finish (s.waitFail ref st)) :
    Completes i s fun u => s.Records u ref st ∧ (u.ring ref.rid).hold = none ∧ (u.ring ref.rid).halt = true := by
  refine completes_finish hx ⟨.stay (s.waitFail_records ref st) (State.settle_drains _).done, ?_⟩
  rw [State.settle_ring, State.waitFail_frees hheld, State.waitFail_halts]
  exact ⟨rfl, rfl⟩

theorem exec_waittRelease {h : Hold} (hh : (s.ring r).hold = some h) (hend : s.waitEnd h = some v) : exec (.waittRelease r) s = finish v := by
  change execWaittRelease r s = _
  rw [execWaittRelease, hh, Option.bind_some, hend]

theorem exec_waittTimeout {h : Hold} (hh : (s.ring r).hold = some h) (ht : h.timed = some ref) (hend : s.waitEnd h = none) :
    exec (.waittTimeout r) s = finish (s.waitFail ref 0x1A) := by
  change execWaittTimeout r s = _
  rw [execWaittTimeout, hh]
  dsimp only
  rw [ht, hend]

section
variable {b : Fin 8} {t : Nat} {n : Int} {x : Bool}

theorem State.holdsRing_time (hh : (s.ring ref.rid).hold = some (.time ref b t x n)) : s.holdsRing ref = true := by
  unfold State.holdsRing
  rw [hh]
  exact decide_eq_true rfl

theorem State.holdsRing_ream {t : W32} (hh : (s.ring ref.rid).hold = some (.ream ref t x)) : s.holdsRing ref = true := by
  unfold State.holdsRing
  rw [hh]
  exact decide_eq_true rfl

theorem State.holdsRing_fence {cs : List CmdRef} (hh : (s.ring ref.rid).hold = some (.fence ref cs)) : s.holdsRing ref = true := by
  unfold State.holdsRing
  rw [hh]
  exact decide_eq_true rfl

theorem State.waitEnd_time (hrun : s.tbRun b = true) : s.waitEnd (.time ref b t x n) = if t ≤ (s.tbAt b).val then
    some (s.complete ref 0 0 false
      (decide ((s.tbAt b).stepAt = some s.now) && decide (((s.tbAt b).val : Int) - ((s.tbAt b).steps - n) < t)))
    else none :=
  if_neg (by rw [hrun]; exact Bool.false_ne_true)

theorem waittRelease_time (hh : (s.ring ref.rid).hold = some (.time ref b t x n)) (hrun : s.tbRun b = true) (hcome : t ≤ (s.tbAt b).val) :
    Completes (.waittRelease ref.rid) s fun u => s.Records u ref 0 ∧ (u.ring ref.rid).hold = none :=
  completes_released (State.holdsRing_time hh) (exec_waittRelease hh ((State.waitEnd_time hrun).trans (if_pos hcome)))

theorem waittTimeout_time (hh : (s.ring ref.rid).hold = some (.time ref b t true n)) (hrun : s.tbRun b = true) (hahead : (s.tbAt b).val < t) :
    Completes (.waittTimeout ref.rid) s fun u => s.Records u ref 0x1A ∧ (u.ring ref.rid).hold = none ∧ (u.ring ref.rid).halt = true :=
  completes_waitFailed (State.holdsRing_time hh)
    (exec_waittTimeout hh rfl ((State.waitEnd_time hrun).trans (if_neg (Nat.not_le.mpr hahead))))

theorem waittRelease_ream {t : W32} (hh : (s.ring ref.rid).hold = some (.ream ref t x)) (hcome : ((s.line ref.rid.eng).rc - t).toNat < 2 ^ 31) :
    Completes (.waittRelease ref.rid) s fun u => s.Records u ref 0 ∧ (u.ring ref.rid).hold = none :=
  completes_released (State.holdsRing_ream hh) (exec_waittRelease hh (if_pos hcome))

theorem waittTimeout_ream {t : W32} (hh : (s.ring ref.rid).hold = some (.ream ref t true))
    (hahead : 2 ^ 31 ≤ ((s.line ref.rid.eng).rc - t).toNat) : Completes (.waittTimeout ref.rid) s fun u =>
      s.Records u ref 0x1A ∧ (u.ring ref.rid).hold = none ∧ (u.ring ref.rid).halt = true :=
  completes_waitFailed (State.holdsRing_ream hh) (exec_waittTimeout hh rfl (if_neg (Nat.not_lt.mpr hahead)))

end

/-! ### FENCE (R225) -/

/-- What a `FENCE` awaits does not depend on the descriptors of its ring. -/
theorem State.fenceSet_pop (s : State) (r : Rid) (mask : Nat) : (s.pop r).fenceSet r mask = s.fenceSet r mask := by
  unfold State.fenceSet
  refine List.flatMap_congr fun k _ => ?_
  rw [(s.pop_drains r).outst k]
  rfl

theorem fence_completes (ht : s.Takes r 0x39 (fun _ => true) d) (hnone : s.fenceSet r d.p1 = []) :
    Completes (.fence r) s fun u => s.Records u (d.ref r) 0 := by
  have hrun : (s.pop r).runFence d (d.ref r) = (s.pop r).complete (d.ref r) 0 := by
    rw [State.runFence, show (d.ref r).rid = r from rfl, s.fenceSet_pop, hnone]
  exact completes_run rfl ht hrun fun _ hu => hu.completed.1

theorem fence_holds (ht : s.Takes r 0x39 (fun _ => true) d) (hsome : s.fenceSet r d.p1 ≠ []) : Completes (.fence r) s fun u =>
    u.Pends (d.ref r) ∧ (u.ring r).hold = some (.fence (d.ref r) (s.fenceSet r d.p1)) := by
  have hrun : (s.pop r).runFence d (d.ref r) = (s.pop r).holdRing (d.ref r) (.fence (d.ref r) (s.fenceSet r d.p1)) := by
    rw [State.runFence, show (d.ref r).rid = r from rfl, s.fenceSet_pop]
    split
    · next h => exact absurd h hsome
    · rfl
  exact completes_run rfl ht hrun fun _ hu => hu.holds

theorem fenceDone_completes {cs : List CmdRef} (hh : (s.ring ref.rid).hold = some (.fence ref cs)) (hdone : s.stillOut cs = false) :
    Completes (.fenceDone ref.rid) s fun u => s.Records u ref 0 ∧ (u.ring ref.rid).hold = none := by
  refine completes_released (State.holdsRing_fence hh) (stepped := false) ?_
  change execFenceDone ref.rid s = _
  rw [execFenceDone, hh]
  exact if_neg (by rw [hdone]; exact Bool.false_ne_true)

/-! ### EPOCH and NOTIFY (R218, R227) -/

theorem epochRead_gives (ht : s.Takes r 0x3A (· = 0) d) : Completes (.epochRead r) s fun u =>
    s.Records u (d.ref r) 0 (s.mte.epoch.toNat + 2 ^ 32 * s.role) ∧ Only (alsoIn [.cur]) s u :=
  completes_run (run := State.doNow noCheck applyEpochRead) rfl ht rfl fun _ hu => hu.completed

/-- The epoch that the device holds passes. -/
theorem State.epochTest_same (s : State) : s.epochTest s.mte.epoch.toNat = none := by
  have hlt := s.mte.epoch.isLt
  unfold State.epochTest
  exact if_pos (by omega)

theorem epochAssert_passes (ht : s.Takes r 0x3A (· = 1) d) (he : s.mte.epoch.toNat = d.arg 0 4) : Completes (.epochAssert r) s fun u =>
    s.Records u (d.ref r) 0 ∧ Only (alsoIn [.cur]) s u := by
  have hcheck : checkEpochAssert (s.pop r) r.eng d = none := by
    rw [checkEpochAssert, ← he]
    exact (s.pop r).epochTest_same
  have hrun : State.doNow checkEpochAssert applyNothing (s.pop r) d (d.ref r) = (s.pop r).complete (d.ref r) 0 := by
    rw [State.doNow, show (d.ref r).rid.eng = r.eng from rfl, hcheck]
    rfl
  exact completes_run rfl ht hrun fun _ hu => hu.completed

theorem exec_notify (r : Rid) : exec (.notify r) s = s.issue r 0x3B (fun _ => true) fun s d ref =>
    State.doNow noCheck applyNotify s d { ref with irq := true } := rfl

/-- `NOTIFY` returns its value; its record raises the ring's vector whatever IRQ holds. -/
theorem notify_returns (ht : s.Takes r 0x3B (fun _ => true) d) : Completes (.notify r) s fun u =>
    s.Records u (d.ref r) 0 (d.arg 0 8) ∧ Only (alsoIn [.cur]) s u := by
  refine completes_run (v := (s.pop r).complete { d.ref r with irq := true } 0 (d.arg 0 8)) (exec_notify r) ht rfl fun u hu => ⟨?_, ?_⟩
  · have hrec : s.Records u { d.ref r with irq := true } 0 (d.arg 0 8) :=
      .stay ((s.pop_owes r).records ((s.pop r).complete_records { d.ref r with irq := true } 0 (d.arg 0 8) false false none)) hu.drains.done
    exact hrec
  · exact (State.complete_only (State.pop_only (Only.refl s) r rfl) _ _ _ _ _ _ rfl).trans hu.only

/-- Settles O20: each way in which an instruction begins, holds its ring and ends, by its lemma. -/
theorem waitsFencesAndEpochs : Obligations.WaitsFencesAndEpochs := by
  unfold Obligations.WaitsFencesAndEpochs
  refine ⟨fun s r => ⟨fun d t ht hd => ?_, fun d ht => ?_, ?_, ?_⟩, fun s r d => ⟨fence_completes, fence_holds, ?_, epochRead_gives,
    epochAssert_passes, notify_returns⟩⟩
  · exact ⟨waittTime_fails hd ht, waittTime_late hd ht, waittTime_holds hd ht⟩
  · exact ⟨waittReam_fails ht, waittReam_late ht, waittReam_holds ht⟩
  · rintro ref b t x n hh rfl hrun
    exact ⟨waittRelease_time hh hrun, fun hahead hx => waittTimeout_time (hx ▸ hh) hrun hahead⟩
  · rintro ref t x hh rfl
    exact ⟨waittRelease_ream hh, fun hahead hx => waittTimeout_ream (hx ▸ hh) hahead⟩
  · rintro ref cs hh rfl hdone
    exact fenceDone_completes hh hdone

end Sys2Proof.Machine
end

section
/-! Completion records (R208, R213, R217): what the mill has applied is DONE, and the oldest record of a ring is written. -/

namespace Sys2Proof.Machine

variable {s : State} {r : Rid}

theorem curApplyDone_records {k : Fin 4} {a : Applying} {as : List Applying} (ha : s.cur[k].applying = a :: as) :
    Completes (.curApplyDone k) s fun u => u.cur[k].applying = as ∧ s.Records u a.ref 0 a.result.toNat a.late := by
  have hx : exec (.curApplyDone k) s =
      finish ((s.modEng k fun e => { e with applying := as }).complete a.ref 0 a.result.toNat a.late false a.dseq) := by
    change execCurApplyDone k s = _
    rw [execCurApplyDone, ha]
  have howes : s.Owes (s.modEng k fun e => { e with applying := as }) := State.modEng_owes s k fun _ => rfl
  have hrec := howes.records (State.complete_records _ a.ref 0 a.result.toNat a.late false a.dseq)
  refine completes_finish hx ⟨?_, hrec.stay (State.settle_drains _).done⟩
  rw [State.settle_cur, State.complete_applying, State.eng_modEng]

/-! ### A record is written -/

/-- The ring behind its oldest record: the tail advances, and the phase turns at the wrap. -/
def Ring.wrote (g : Ring) (size : Nat) (xs : List Rec) : Ring :=
  { g with done := xs, cqTail := g.cqTail + 1, phase := if g.cqTail.toNat % size + 1 = size then !g.phase else g.phase }

/-- The state in which the record has been written, and no message has been sent yet. -/
def State.recordSent (s : State) (r : Rid) (x : Rec) (xs : List Rec) : State :=
  (s.hostWrite (ringPf r) (s.cqBase r + 16 * ((s.ring r).cqTail.toNat % s.cqSize r)) (x.bytes (s.ring r).phase)).modRing r
    (·.wrote (s.cqSize r) xs)

theorem State.recordSent_ring (s : State) (r : Rid) (x : Rec) (xs : List Rec) :
    (s.recordSent r x xs).ring r = (s.ring r).wrote (s.cqSize r) xs := State.ring_modRing ..

theorem State.ringMsix_notifies (s : State) (r : Rid) : s.Notifies (s.ringMsix r) := by
  unfold State.ringMsix
  dsimp only
  split
  · exact ⟨fun _ h => h, rfl, fun _ _ => rfl⟩
  · exact s.msix_notifies _

/-- The message of a record's vector leaves the rings and what was sent. -/
theorem State.recordOut_keeps (s : State) (r : Rid) (x : Rec) (xs : List Rec) :
    (s.recordOut r x xs).ring r = (s.recordSent r x xs).ring r ∧ ∀ o ∈ (s.recordSent r x xs).out, o ∈ (s.recordOut r x xs).out := by
  have heq : s.recordOut r x xs = if x.irq then (s.recordSent r x xs).ringMsix r else s.recordSent r x xs := rfl
  rw [heq]
  split
  · have hcur : ((s.recordSent r x xs).ringMsix r).cur = (s.recordSent r x xs).cur :=
      State.ringMsix_only (ps := [.out, .irq, .counts]) (Only.refl _) r rfl .cur rfl
    exact ⟨State.ring_of_cur hcur r, (State.ringMsix_notifies _ r).out⟩
  · exact ⟨rfl, fun _ h => h⟩

theorem completionRecordWrite_writes {x : Rec} {xs : List Rec} (hdone : (s.ring r).done = x :: xs) (heng : s.engLive r.eng = true)
    (hhst : s.hstLive = true) (hroom : s.cqFull r = false) (hacked : s.acked x = true) :
    let slot := (s.ring r).cqTail.toNat % s.cqSize r
    Completes (.completionRecordWrite r) s fun u =>
      Out.hostWrite (ringPf r).val (s.cqBase r + 16 * slot) (x.bytes (s.ring r).phase) ∈ u.out
      ∧ (u.ring r).cqTail = (s.ring r).cqTail + 1
      ∧ (u.ring r).phase = (if slot + 1 = s.cqSize r then !(s.ring r).phase else (s.ring r).phase)
      ∧ ∃ new, (u.ring r).done = xs ++ new := by
  have hx : exec (.completionRecordWrite r) s = finish ((s.recordOut r x xs).drainAll r) := by
    change execCompletionRecordWrite r s = _
    rw [execCompletionRecordWrite, hdone]
    exact if_pos (by rw [heng, hhst, hroom, hacked]; rfl)
  refine completes_drained hx fun u hu => ?_
  obtain ⟨hring, hout⟩ := s.recordOut_keeps r x xs
  have hpassed := hu.ring r
  rw [hring, State.recordSent_ring] at hpassed
  exact ⟨hu.out.mem (hout _ List.mem_cons_self), hpassed.cqTail, hpassed.phase, hpassed.done⟩

end Sys2Proof.Machine
end

section
/-! Batches (R220, R221): one that breaks a rule, or of which an instruction fails, has no effect; otherwise each takes its effect. -/

namespace Sys2Proof.Machine

variable {s t u v : State} {r : Rid} {ds : List Desc}

/-- The state in which a batch of `n` has left its ring. -/
def State.batchTaken (s : State) (r : Rid) (n : Nat) : State :=
  (s.modRing r fun g => { g with fetched := g.fetched.drop n }).modEng r.eng fun e => { e with rr := r.ring.val }

theorem State.batchTaken_drains (s : State) (r : Rid) (n : Nat) : s.Drains (s.batchTaken r n) :=
  (s.modRing_drains r (f := fun g => { g with fetched := g.fetched.drop n }) fun _ => List.prefix_rfl).trans (State.modEng_rr_drains ..)

theorem State.batchTaken_owes (s : State) (r : Rid) (n : Nat) : s.Owes (s.batchTaken r n) :=
  (s.modRing_owes r (f := fun g => { g with fetched := g.fetched.drop n }) (fun _ => rfl) fun _ => rfl).trans
    (State.modEng_owes _ r.eng fun _ => rfl)

theorem completes_batch {P : State → Prop} (hturn : s.turn r = true) (hhead : s.batchHead r = true)
    (hrun : batchRun (s.ring r).fetched = some ds) (hv : s.runBatch r ds = v) (hP : ∀ u, v.RunsOn u → P u) :
    Completes (.batchStart r) s P := by
  refine completes_drained (r := r) ?_ hP
  change execBatchStart r s = _
  rw [execBatchStart, hturn, hhead, Bool.and_self, if_pos rfl, hrun, ← hv]

/-! ### A batch that is rejected -/

/-- The record of one instruction of a batch that is rejected. -/
def State.rejectOne (s : State) (r : Rid) (x : Desc × Option Nat) : State :=
  if x.1.mop = 0x38 then s.waitFail (x.1.ref r) (x.2.getD 0x17) else s.complete (x.1.ref r) (x.2.getD 0x17)

theorem State.rejectOne_owes (s : State) (r : Rid) (x : Desc × Option Nat) : s.Owes (s.rejectOne r x) := by
  unfold State.rejectOne
  split
  · exact s.waitFail_owes ..
  · exact s.complete_owes ..

theorem State.rejectOne_records (s : State) (r : Rid) (x : Desc × Option Nat) :
    s.Records (s.rejectOne r x) (x.1.ref r) (x.2.getD 0x17) := by
  unfold State.rejectOne
  split
  · exact s.waitFail_records (x.1.ref r) (x.2.getD 0x17)
  · exact s.complete_records (x.1.ref r) (x.2.getD 0x17) 0 false false none

/-- Each instruction of the batch comes to be owed its record. -/
theorem State.rejections_records (r : Rid) : ∀ (l : List (Desc × Option Nat)) (s : State),
    s.Owes (l.foldl (fun s x => s.rejectOne r x) s)
      ∧ ∀ x ∈ l, s.Records (l.foldl (fun s x => s.rejectOne r x) s) (x.1.ref r) (x.2.getD 0x17)
  | [], s => ⟨.refl s, fun _ h => absurd h List.not_mem_nil⟩
  | y :: l, s => by
    obtain ⟨howes, hrest⟩ := State.rejections_records r l (s.rejectOne r y)
    refine ⟨(s.rejectOne_owes r y).trans howes, fun x hx => ?_⟩
    rcases List.mem_cons.mp hx with rfl | hx
    · exact (s.rejectOne_records r x).stay howes.done
    · exact (s.rejectOne_owes r y).records (hrest x hx)

/-- Of a batch that is rejected each instruction is owed a record, and nothing else has changed but the ring. -/
theorem State.RunsOn.rejected {n : Nat} {sts : List (Option Nat)} (hu : ((s.batchTaken r n).rejectAll r sts ds).RunsOn u) :
    Only (alsoIn [.cur]) s u ∧ ∀ x ∈ ds.zip sts, s.Records u (x.1.ref r) (x.2.getD 0x17) := by
  obtain ⟨-, hrec⟩ := State.rejections_records r (ds.zip sts) (s.batchTaken r n)
  refine ⟨?_, fun x hx => .stay ((s.batchTaken_owes r n).records (hrec x hx)) hu.drains.done⟩
  exact (State.rejectAll_only (State.modEng_only (State.modRing_only (Only.refl s) _ _ rfl) _ _ rfl) r sts ds rfl).trans hu.only

section
variable (hturn : s.turn r = true) (hhead : s.batchHead r = true) (hrun : batchRun (s.ring r).fetched = some ds)
include hturn hhead hrun

theorem batchStart_invalid {i : Nat} (hi : batchOffender ds = some i) : Completes (.batchStart r) s fun u => Only (alsoIn [.cur]) s u
    ∧ ∀ j (h : j < ds.length), s.Records u (ds[j].ref r) (if j = i then 0x18 else 0x17) := by
  have hv : s.runBatch r ds = (s.batchTaken r ds.length).rejectAll r
      ((List.range ds.length).map fun j => if j = i then some 0x18 else none) ds := by
    rw [State.runBatch, hi]
    rfl
  refine completes_batch hturn hhead hrun hv fun u hu => ?_
  obtain ⟨honly, hrec⟩ := hu.rejected
  refine ⟨honly, fun j hj => ?_⟩
  have hmem : (ds[j], if j = i then some 0x18 else none) ∈
      ds.zip ((List.range ds.length).map fun j => if j = i then some 0x18 else none) :=
    List.mem_iff_getElem.mpr ⟨j, by simpa using hj, by simp⟩
  have hst : (if j = i then some 0x18 else none : Option Nat).getD 0x17 = if j = i then 0x18 else 0x17 :=
    apply_ite (Option.getD · 0x17) ..
  exact hst ▸ hrec _ hmem

theorem batchStart_aborts (hrules : batchOffender ds = none) (hfail : ∃ d ∈ ds, s.batchCheck r d ≠ none) :
    Completes (.batchStart r) s fun u => Only (alsoIn [.cur]) s u
      ∧ ∀ d ∈ ds, s.Records u (d.ref r) ((s.batchCheck r d).getD 0x17) := by
  have hsome : (ds.map (s.batchCheck r)).all (·.isNone) = false := by
    obtain ⟨d, hd, hne⟩ := hfail
    exact List.all_eq_false.mpr ⟨_, List.mem_map_of_mem hd, by rwa [Option.isNone_iff_eq_none]⟩
  have hv : s.runBatch r ds = (s.batchTaken r ds.length).rejectAll r (ds.map (s.batchCheck r)) ds := by
    rw [State.runBatch, hrules]
    exact if_neg (by rw [hsome]; exact Bool.false_ne_true)
  refine completes_batch hturn hhead hrun hv fun u hu => ?_
  obtain ⟨honly, hrec⟩ := hu.rejected
  refine ⟨honly, fun d hd => hrec (d, s.batchCheck r d) ?_⟩
  rw [← List.map_id ds, List.map_map, List.zip_map']
  exact List.mem_map_of_mem hd

end

/-! ### A batch that is accepted -/

theorem applySainstUpdateLpn_sameApplying (s : State) (m : Fin 4) (d : Desc) : s.SameApplying (applySainstUpdateLpn s m d).s := by
  unfold applySainstUpdateLpn
  split
  · next cause _ =>
    dsimp only
    exact s.saFault_sameApplying m (saxOf d) cause
  · next c _ =>
    split
    · have hcur : (s.storeCtx' m (saxOf d) (ctxSet c 88 8 (d.arg 32 8))).cur = s.cur :=
        State.storeCtx'_only (ps := [.mem, .sac]) (Only.refl s) m (saxOf d) _ rfl .cur rfl
      exact (State.SameApplying.of_cur hcur).trans (State.delta_sameApplying ..)
    · exact .of_cur rfl

theorem applySapinUnpin_sameApplying (s : State) (m : Fin 4) (d : Desc) : s.SameApplying (applySapinUnpin s m d).s := by
  have hcur : s.SameApplying (s.unpinned (saxOf d)) := .of_cur (State.delta_samePages ..).2
  exact hcur.trans ((s.unpinned (saxOf d)).retry_sameApplying m)

theorem applyQcfgDeactivate_sameApplying (s : State) (m : Fin 4) (d : Desc) : s.SameApplying (applyQcfgDeactivate s m d).s :=
  (State.SameApplying.mk (s.stopTrib_applying m d.p2)).trans (State.delta_sameApplying ..)

/-- The effect of an instruction of class B leaves what is in APPLYING. -/
theorem Desc.effect_sameApplying (d : Desc) (s : State) (m : Fin 4) (d' : Desc) : s.SameApplying (d.effect s m d').s := by
  generalize heff : d.effect = eff
  unfold Desc.effect at heff
  split at heff <;> subst heff
  · exact applySainstUpdateLpn_sameApplying s m d'
  · exact .of_cur (applySainstSetcur_only (ps := [.out, .counts, .sc, .mte]) (Only.refl s) m d' rfl .cur rfl)
  · exact applySapinUnpin_sameApplying s m d'
  · exact .of_cur (applyLkarmRxon_only (ps := [.out, .status, .counts, .lci, .mte]) (Only.refl s) m d' rfl .cur rfl)
  · exact .of_cur (applyLkarmRxoff_only (ps := [.out, .counts, .lci, .mte]) (Only.refl s) m d' rfl .cur rfl)
  · exact .of_cur (applyGclgo_only (ps := [.out, .status, .counts, .ports, .mte]) (Only.refl s) m d' rfl .cur rfl)
  · exact .of_cur (applyShpset_only (ps := [.out, .counts, .sch, .trib, .tribOld, .mte]) (Only.refl s) m d' rfl .cur rfl)
  · exact .of_cur (applyPolset_only (ps := [.out, .counts, .sch, .mte]) (Only.refl s) m d' rfl .cur rfl)
  · exact .of_cur (applyQcfgActivate_only (ps := [.out, .counts, .line, .trib, .mte]) (Only.refl s) m d' rfl .cur rfl)
  · exact applyQcfgDeactivate_sameApplying s m d'
  · exact .of_cur (applyQcfgUpdate_only (ps := [.out, .counts, .sch, .trib, .tribOld, .mte]) (Only.refl s) m d' rfl .cur rfl)
  · exact .of_cur rfl
  · exact .of_cur rfl

theorem State.applyNow_length (s : State) {ref : CmdRef} {k : Fin 4} (hk : ref.rid.eng = k) (res : Nat) (late : Bool) (dseq : Option W32) :
    (s.applyNow ref res late dseq).cur[k].applying.length = s.cur[k].applying.length + 1 := by
  subst hk
  rw [State.applyNow_applying, List.length_append, List.length_singleton]

/-- An instruction of a batch that is accepted is one more in APPLYING. -/
theorem State.acceptOne_applying (s : State) (r : Rid) (d : Desc) :
    (s.acceptOne r d).cur[r.eng].applying.length = s.cur[r.eng].applying.length + 1 := by
  have hrid : (if d.mop = 0x3B then { d.ref r with irq := true } else d.ref r).rid = r := by
    split <;> rfl
  exact (State.applyNow_length _ (congrArg Rid.eng hrid) ..).trans
    (congrArg (List.length · + 1) ((d.effect_sameApplying s r.eng d).same r.eng))

theorem State.acceptAll_applying (r : Rid) : ∀ (ds : List Desc) (s : State),
    (ds.foldl (fun s d => s.acceptOne r d) s).cur[r.eng].applying.length = s.cur[r.eng].applying.length + ds.length
  | [], _ => rfl
  | d :: ds, s => by
    rw [List.foldl_cons, State.acceptAll_applying r ds, s.acceptOne_applying r d, List.length_cons, Nat.add_assoc, Nat.add_comm 1]

theorem batchStart_accepts (hturn : s.turn r = true) (hhead : s.batchHead r = true) (hrun : batchRun (s.ring r).fetched = some ds)
    (hrules : batchOffender ds = none) (hpass : ∀ d ∈ ds, s.batchCheck r d = none) : Completes (.batchStart r) s fun u =>
      let w := ds.foldl (fun s d => s.acceptOne r d) (s.batchTaken r ds.length)
      u.mills = w.mills ∧ u.trib = w.trib ∧ u.sa = w.sa ∧ u.sc = w.sc ∧ u.tim = w.tim
      ∧ u.cur[r.eng].applying.length = s.cur[r.eng].applying.length + ds.length := by
  have hnone : (ds.map (s.batchCheck r)).all (·.isNone) = true := by
    refine List.all_eq_true.mpr fun x hx => ?_
    obtain ⟨d, hd, rfl⟩ := List.mem_map.mp hx
    rw [hpass d hd]
    rfl
  have hv : s.runBatch r ds = ds.foldl (fun s d => s.acceptOne r d) (s.batchTaken r ds.length) := by
    rw [State.runBatch, hrules]
    exact if_pos hnone
  refine completes_batch hturn hhead hrun hv fun u hu => ?_
  have hpath := hu.drains.path
  refine ⟨hpath.mills, hpath.trib, hpath.sa, hpath.sc, hpath.tim, ?_⟩
  rw [hu.drains.applying, State.acceptAll_applying, (s.batchTaken_drains r ds.length).applying]

end Sys2Proof.Machine
end

section
/-! Instructions that the common checks, or their own check, refuse (R206, R211, R214, R226, R405), and the settling of O19. -/

namespace Sys2Proof.Machine

variable {s u : State} {r : Rid} {d : Desc} {i : Instr} {mop st : Nat} {op : Nat → Bool}

/-! ### The common checks -/

theorem exec_issueKey_refused {run : State → Desc → CmdRef → State} (hx : exec i s = s.issueKey r mop op run)
    (hhead : s.headFor r mop op = some d) (hgate : s.gate r d = some st) :
    exec i s = finish (((s.pop r).complete (d.ref r) st).drainAll r) := by
  rw [hx, State.issueKey, hhead]
  dsimp only
  rw [State.keyHead, hgate]

/-- An instruction that may wait in CHECK does so behind the common checks. -/
theorem exec_waiting_refused {c : Bool} {w : Res} {run : State → Desc → CmdRef → State}
    (hx : exec i s = if (s.gate r d).isNone && c then w else s.issue r mop op run)
    (hhead : s.headFor r mop op = some d) (hgate : s.gate r d = some st) :
    exec i s = finish (((s.pop r).complete (d.ref r) st).drainAll r) :=
  exec_issue_refused (hx.trans (if_neg (by rw [hgate]; exact Bool.false_ne_true))) hhead hgate

theorem exec_dkwrite (hhead : s.headFor r 0x10 (fun _ => true) = some d) : exec (.dkwrite r) s =
    if (s.gate r d).isNone && (s.dkl r.eng).clearing then finish (s.modRing r fun g => { g with waiting := true })
    else s.issue r 0x10 (fun _ => true) State.runDkwrite := by
  change execDkwrite r s = _
  rw [execDkwrite, hhead]

theorem exec_lkarmLoad (hhead : s.headFor r 0x18 (· = 0) = some d) : exec (.lkarmLoad r) s =
    if (s.gate r d).isNone && s.kstClosed then finish (s.modRing r fun g => { g with waiting := true })
    else s.issue r 0x18 (· = 0) (State.doApply (checkLkarmLoad r) applyLkarmLoad) := by
  change execLkarmLoad r s = _
  rw [execLkarmLoad, hhead]

theorem exec_sainstInstall (hhead : s.headFor r 0x01 (· = 0) = some d) : exec (.sainstInstall r) s =
    if (s.gate r d).isNone && s.kstClosed then finish (s.modRing r fun g => { g with waiting := true })
    else s.issue r 0x01 (· = 0) (State.doApply (checkSainstInstall r) applySainstInstall) := by
  change execSainstInstall r s = _
  rw [execSainstInstall, hhead]

theorem exec_saretRead (hhst : s.hstLive = true) (err : Bool) :
    exec (.saretRead r err) s = s.issue r 0x02 (· = 0) (State.runSaretRead err) := if_pos hhst

/-- A `WAITT` that the common checks refuse fails. -/
theorem exec_wait_refused (hform : ringForm i = some (r, 0x38, op)) (hhead : s.headFor r 0x38 op = some d)
    (hgate : s.gate r d = some st) : exec i s = finish (((s.pop r).waitFail (d.ref r) st).drainAll r) := by
  cases i with
  | waittTime _ | waittReam _ =>
    cases hform
    exact exec_issueWait_refused rfl hhead hgate
  | _ => cases hform

/-- Any other instruction of a ring that the common checks refuse completes with their status. -/
theorem exec_refused (hform : ringForm i = some (r, mop, op)) (hhead : s.headFor r mop op = some d) (hhst : s.hstLive = true)
    (hgate : s.gate r d = some st) (hmop : mop ≠ 0x38) : exec i s = finish (((s.pop r).complete (d.ref r) st).drainAll r) := by
  cases i with
  | waittTime _ | waittReam _ =>
    cases hform
    exact absurd rfl hmop
  | sainstInstall _ =>
    cases hform
    exact exec_waiting_refused (exec_sainstInstall hhead) hhead hgate
  | lkarmLoad _ =>
    cases hform
    exact exec_waiting_refused (exec_lkarmLoad hhead) hhead hgate
  | dkwrite _ =>
    cases hform
    exact exec_waiting_refused (exec_dkwrite hhead) hhead hgate
  | saretRead _ err =>
    cases hform
    exact exec_issue_refused (exec_saretRead hhst err) hhead hgate
  | dkflipEarliest _ =>
    cases hform
    exact exec_issue_refused (exec_dkflipEarliest r) hhead hgate
  | dkflipAt _ =>
    cases hform
    exact exec_issue_refused (exec_dkflipAt r) hhead hgate
  | dkshedShed _ =>
    cases hform
    exact exec_issue_refused (exec_dkshedShed r) hhead hgate
  | dkshedRestore _ =>
    cases hform
    exact exec_issue_refused (exec_dkshedRestore r) hhead hgate
  | notify _ =>
    cases hform
    exact exec_issue_refused (exec_notify r) hhead hgate
  | kwrapin _ | kstageWrapped _ | kstageRng _ | kcommit _ | kinval _ | kderive _ | attest _ =>
    cases hform
    exact exec_issueKey_refused rfl hhead hgate
  | sainstUpdateLpn _ | sainstSetcur _ | saretRetire _ | sapinPin _ | sapinUnpin _ | dkflipCancel _ | lkarmRxon _ | lkarmRxoff _ | lkarmArmReam _ | lkarmArmTime _
  | lkarmCancel _ | lkarmResync _ | lkarmHalt _ | lkretire _ | gcladm _ _ | gclgo _ | shpset _ | polset _ | qcfgActivate _ | qcfgDeactivate _ | qcfgUpdate _
  | qcfgMoveDrain _ | qcfgMoveFlush _ | tbstepRel _ | tbstepAbs _ | tbservoGains _ | tbservoOffset _ | tbservoEnable _ | tbservoDisable _
  | trigset _ | fence _ | epochRead _ | epochAssert _ =>
    cases hform
    exact exec_issue_refused rfl hhead hgate
  | _ => cases hform

theorem refused_completes (hform : ringForm i = some (r, mop, op)) (hhead : s.headFor r mop op = some d) (hhst : s.hstLive = true)
    (hgate : s.gate r d = some st) : Completes i s fun u =>
      s.Records u (d.ref r) st ∧ Only (alsoIn [.cur]) s u ∧ (mop = 0x38 → (u.ring r).halt = true) := by
  by_cases hmop : mop = 0x38
  · subst hmop
    refine completes_drained (exec_wait_refused hform hhead hgate) fun u hu => ?_
    obtain ⟨hrec, honly, hhalt⟩ := hu.waitFailed
    exact ⟨hrec, honly, fun _ => hhalt⟩
  · refine completes_drained (exec_refused hform hhead hhst hgate hmop) fun u hu => ?_
    obtain ⟨hrec, honly⟩ := hu.completed
    exact ⟨hrec, honly, fun h => absurd h hmop⟩

/-! ### The own check -/

/-- An instruction's own check looks at no ring. -/
theorem ownCheck_pop (s : State) (r : Rid) (d : Desc) (i : Instr) : ownCheck (s.pop r) d i = ownCheck s d i := by
  unfold ownCheck
  split <;> rfl

theorem exec_run_fails {run : State → Desc → CmdRef → State} (hx : exec i s = s.issue r mop op run) (ht : s.Takes r mop op d)
    (hrun : run (s.pop r) d (d.ref r) = (s.pop r).complete (d.ref r) st) :
    exec i s = finish (((s.pop r).complete (d.ref r) st).drainAll r) := by
  rw [exec_issue_runs hx ht, hrun]

section
variable {chk : State → Fin 4 → Desc → Option Nat} {eff : State → Fin 4 → Desc → Eff}

theorem exec_apply_fails (hx : exec i s = s.issue r mop op (State.doApply chk eff)) (ht : s.Takes r mop op d)
    (hc : chk (s.pop r) r.eng d = some st) : exec i s = finish (((s.pop r).complete (d.ref r) st).drainAll r) := by
  refine exec_run_fails hx ht ?_
  rw [State.doApply, show (d.ref r).rid.eng = r.eng from rfl, hc]

theorem exec_now_fails (hx : exec i s = s.issue r mop op (State.doNow chk eff)) (ht : s.Takes r mop op d)
    (hc : chk (s.pop r) r.eng d = some st) : exec i s = finish (((s.pop r).complete (d.ref r) st).drainAll r) := by
  refine exec_run_fails hx ht ?_
  rw [State.doNow, show (d.ref r).rid.eng = r.eng from rfl, hc]

end

/-- An instruction that waits while the key store is closed does not wait otherwise. -/
theorem exec_open {w : Res} {run : State → Desc → CmdRef → State}
    (hx : exec i s = if (s.gate r d).isNone && s.kstClosed then w else s.issue r mop op run) (hopen : s.kstClosed = false) :
    exec i s = s.issue r mop op run :=
  hx.trans (if_neg (by rw [hopen, Bool.and_false]; exact Bool.false_ne_true))

theorem State.runSaretRead_fails {ref : CmdRef} (hc : checkSaret s ref.rid.eng d = some st) (err : Bool) :
    s.runSaretRead err d ref = s.complete ref st := by
  rw [State.runSaretRead, hc]

theorem State.runSaretRetire_fails {ref : CmdRef} (hc : checkSaret s ref.rid.eng d = some st) : s.runSaretRetire d ref = s.complete ref st := by
  rw [State.runSaretRetire, hc]

theorem State.runArmReam_fails {ref : CmdRef} (hc : checkLkarmArm s ref.rid.eng d = some st) : s.runArmReam d ref = s.complete ref st := by
  rw [State.runArmReam, hc]

theorem State.runMove_fails {ref : CmdRef} (hc : s.moveCheck ref.rid.eng d = some st) (flush : Bool) :
    s.runMove flush d ref = s.complete ref st := by
  rw [State.runMove, hc]

/-- Each instruction whose own check fails completes with that status. -/
theorem exec_ownFails (hform : ringForm i = some (r, mop, op)) (ht : s.Takes r mop op d) (hhst : s.hstLive = true)
    (hopen : s.kstClosed = false) (hown : ownCheck (s.pop r) d i = some st) :
    exec i s = finish (((s.pop r).complete (d.ref r) st).drainAll r) := by
  cases i with
  | sainstInstall _ =>
    cases hform
    exact exec_apply_fails (exec_open (exec_sainstInstall ht.1) hopen) ht hown
  | lkarmLoad _ =>
    cases hform
    exact exec_apply_fails (exec_open (exec_lkarmLoad ht.1) hopen) ht hown
  | saretRead _ err =>
    cases hform
    exact exec_run_fails (exec_saretRead hhst err) ht (State.runSaretRead_fails (ref := d.ref r) hown err)
  | saretRetire _ =>
    cases hform
    exact exec_run_fails rfl ht (State.runSaretRetire_fails (ref := d.ref r) hown)
  | lkarmArmReam _ =>
    cases hform
    exact exec_run_fails rfl ht (State.runArmReam_fails (ref := d.ref r) hown)
  | qcfgMoveDrain _ | qcfgMoveFlush _ =>
    cases hform
    exact exec_run_fails rfl ht (State.runMove_fails (ref := d.ref r) hown _)
  | sainstUpdateLpn _ | sainstSetcur _ | sapinUnpin _ | lkarmRxon _ | lkarmRxoff _ | lkarmCancel _ | lkarmResync _ | lkretire _ | gclgo _
  | shpset _ | polset _ | qcfgActivate _ | qcfgDeactivate _ | qcfgUpdate _ =>
    cases hform
    exact exec_apply_fails rfl ht hown
  | tbstepRel _ | tbstepAbs _ | tbservoGains _ | tbservoOffset _ | trigset _ | epochAssert _ =>
    cases hform
    exact exec_now_fails rfl ht hown
  | _ => cases hown

/-- Settles O19: records, batches and instructions that are refused, each by its lemma. -/
theorem recordsAndBatches : Obligations.RecordsAndBatches := by
  unfold Obligations.RecordsAndBatches
  refine ⟨fun s => ⟨fun k a as => curApplyDone_records, fun r x xs => completionRecordWrite_writes⟩, fun s r ds hturn hhead hrun =>
    ⟨fun i => batchStart_invalid hturn hhead hrun, batchStart_aborts hturn hhead hrun, batchStart_accepts hturn hhead hrun⟩,
    fun i s r mop op d st hform hhead hhst => ⟨refused_completes hform hhead hhst, fun hgate hopen hown => ?_⟩⟩
  rw [← ownCheck_pop s r] at hown
  exact completes_drained (exec_ownFails hform ⟨hhead, hgate⟩ hhst hopen hown) fun u hu => hu.completed

end Sys2Proof.Machine
end

section
/-! Gate lists and steps of time bases (R252-R254, R256, R269, R270, R489). -/

namespace Sys2Proof.Machine

variable {s t u w : State} {r : Rid} {d : Desc} {g : GateList} {p : Fin 32}

/-- An instruction that ends at once after an effect that keeps what the rings owe: its record follows, and the effect is on the path. -/
theorem completes_ended {i : Instr} {mop : Nat} {op : Nat → Bool} {run : State → Desc → CmdRef → State} {st : Nat} {q : Option W32}
    (hx : exec i s = s.issue r mop op run) (ht : s.Takes r mop op d)
    (hrun : run (s.pop r) d (d.ref r) = w.complete (d.ref r) st 0 false false q) (howes : (s.pop r).Owes w) :
    Completes i s fun u => s.Records u (d.ref r) st ∧ w.SamePath u := by
  refine completes_issue hx ht fun u hu => ?_
  rw [hrun] at hu
  have hrec := ((s.pop_owes r).trans howes).records (w.complete_records (d.ref r) st 0 false false q)
  exact ⟨hrec.stay hu.done, (w.complete_samePath ..).trans hu.path⟩

/-! ### A list is read (R252) -/

/-- What `GCLADM` asks of the port, and of the operands `d` whose time is `b`. -/
structure State.TakesList (s : State) (m : Fin 4) (d : Desc) (b : Nat) : Prop where
  mill : portMill (gclPort d) = m
  time : d.time = some b
  some_entry : 1 ≤ d.arg 16 2
  entries_le : d.arg 16 2 ≤ 1024
  le_cycle : 1000 ≤ d.arg 12 4
  cycle_le : d.arg 12 4 ≤ 1000000000
  none_pending : (s.port (gclPort d)).pend = none

/-- The administrative list that `GCLADM` leaves. -/
def Desc.gateList (d : Desc) (b : Nat) (es : List (Nat × Byte)) : GateList :=
  { tb := gclTb d, base := b / nsU, cycle := d.arg 12 4, entries := es }

/-- The state in which `g` is the administrative list of port `p`. -/
def State.withAdmin (s : State) (p : Fin 32) (g : GateList) : State := s.modPort p fun x => { x with admin := some g }

theorem State.TakesList.pop {m : Fin 4} {b : Nat} (ha : s.TakesList m d b) (r : Rid) : (s.pop r).TakesList m d b := by
  obtain ⟨hmill, htime, hpos, hle, hlo, hhi, hpend⟩ := ha
  exact ⟨hmill, htime, hpos, hle, hlo, hhi, hpend⟩

theorem State.gclDelta_keeps (s : State) (p : Fin 32) : (s.gclDelta p).1.mills = s.mills ∧ (s.gclDelta p).1.cur = s.cur := by
  obtain ⟨hmills, -, -, hcur⟩ := s.delta_blocks (.gate p (s.port p).admin (s.port p).pend (s.port p).oper) none
  exact ⟨hmills, hcur⟩

section
variable {ref : CmdRef} {b : Nat} (ha : s.TakesList ref.rid.eng d b)
include ha

theorem State.TakesList.checks : firstFail [(decide (portMill (gclPort d) ≠ ref.rid.eng), 0x40),
    (d.time.isNone || decide (d.arg 16 2 < 1 ∨ 1024 < d.arg 16 2), 0x1B),
    (decide (d.arg 12 4 < 1000 ∨ 1000000000 < d.arg 12 4), 0x1B), ((s.port (gclPort d)).pend.isSome, 0x20)] = none := by
  obtain ⟨hmill, htime, hpos, hle, hlo, hhi, hpend⟩ := ha
  have hn : ¬(d.arg 16 2 < 1 ∨ 1024 < d.arg 16 2) := by omega
  have hc : ¬(d.arg 12 4 < 1000 ∨ 1000000000 < d.arg 12 4) := by omega
  rw [hmill, htime, hpend, decide_eq_false hn, decide_eq_false hc, decide_eq_false (not_not.mpr rfl)]
  rfl

theorem State.runGcladm_error : s.runGcladm .error d ref = s.complete ref 0x19 := by
  rw [State.runGcladm, ha.checks, ha.time]

theorem State.runGcladm_timeout : s.runGcladm .timeout d ref = s.complete ref 0x1A := by
  rw [State.runGcladm, ha.checks, ha.time]

theorem State.runGcladm_malformed {bs : Bytes} (he : gclEntries (d.arg 16 2) bs = none) :
    s.runGcladm (.data bs) d ref = s.complete ref 0x70 := by
  rw [State.runGcladm, ha.checks, ha.time]
  dsimp only
  rw [he]

theorem State.runGcladm_leaves {bs : Bytes} {es : List (Nat × Byte)} (he : gclEntries (d.arg 16 2) bs = some es) :
    s.runGcladm (.data bs) d ref = ((s.withAdmin (gclPort d) (d.gateList b es)).gclDelta (gclPort d)).1.complete ref 0 0 false false
      ((s.withAdmin (gclPort d) (d.gateList b es)).gclDelta (gclPort d)).2 := by
  rw [State.runGcladm, ha.checks, ha.time]
  dsimp only
  rw [he]
  rfl

end

section
variable {b : Nat} (ht : s.Takes r 0x20 (fun _ => true) d) (ha : s.TakesList r.eng d b)
include ht

/-- A `GCLADM` that ends without a list changes nothing in the mills. -/
theorem gcladm_fails {h : HostRead} {st : Nat} (hrun : (s.pop r).runGcladm h d (d.ref r) = (s.pop r).complete (d.ref r) st) :
    Completes (.gcladm r h) s fun u => s.Records u (d.ref r) st ∧ u.mills = s.mills :=
  (completes_ended rfl ht hrun (.refl _)).mono fun _ ⟨hrec, hu⟩ => ⟨hrec, ((s.pop_samePath r).trans hu).mills⟩

include ha

/-- `GCLADM` leaves the entries that it has read as the administrative list of the port. -/
theorem gcladm_leaves {bs : Bytes} {es : List (Nat × Byte)} (he : gclEntries (d.arg 16 2) bs = some es) :
    Completes (.gcladm r (.data bs)) s fun u => s.Records u (d.ref r) 0
      ∧ u.mills = (s.withAdmin (gclPort d) (d.gateList b es)).mills := by
  obtain ⟨hmills, hcur⟩ := ((s.pop r).withAdmin (gclPort d) (d.gateList b es)).gclDelta_keeps (gclPort d)
  have hpop : (s.withAdmin (gclPort d) (d.gateList b es)).SamePath ((s.pop r).withAdmin (gclPort d) (d.gateList b es)) :=
    (s.pop_samePath r).modPort ..
  refine (completes_ended rfl ht (State.runGcladm_leaves (ref := d.ref r) (ha.pop r) he) (.of_cur hcur)).mono
    fun u ⟨hrec, hu⟩ => ⟨hrec, ?_⟩
  rw [hu.mills, hmills, hpop.mills]

end

/-! ### A list becomes pending (R254) -/

/-- The list `g` with its start moved on by whole cycles, so that it comes 2 µs or more after reading `t`. -/
def GateList.movedOn (g : GateList) (t : Nat) : GateList := { g with base := g.base + g.lateBy t * g.cycle }

/-- The state in which `g` has become the pending list of port `p`. -/
def State.withPending (s : State) (p : Fin 32) (g : GateList) : State := s.modPort p fun x => { x with admin := none, pend := some g }

theorem State.gclPut_keeps (s : State) (m : Fin 4) (p : Fin 32) (g : GateList) : (s.gclPut m p g).cur = s.cur
    ∧ (s.gclPut m p g).mills = (s.withPending p (g.movedOn (s.tbAt g.tb).val)).mills := by
  unfold State.gclPut
  dsimp only
  split
  · exact ⟨rfl, rfl⟩
  · exact ⟨rfl, rfl⟩

theorem applyGclgo_eq (hg : (s.port (gclPort d)).admin = some g) (m : Fin 4) : applyGclgo s m d =
    { s := (s.gclPutDelta m (gclPort d) g).1, result := g.lateBy (s.tbAt g.tb).val, late := !g.onTime (s.tbAt g.tb).val
      dseq := (s.gclPutDelta m (gclPort d) g).2 } := by
  rw [applyGclgo, hg]

theorem gclgo_completes (ht : s.Takes r 0x21 (fun _ => true) d) (hc : checkGclgo s r.eng d = none)
    (hg : (s.port (gclPort d)).admin = some g) : Completes (.gclgo r) s fun u =>
      s.Applies u r d (g.lateBy (s.tbAt g.tb).val) (!g.onTime (s.tbAt g.tb).val)
      ∧ u.mills = (s.withPending (gclPort d) (g.movedOn (s.tbAt g.tb).val)).mills := by
  have heff := applyGclgo_eq (s := s.pop r) hg r.eng
  obtain ⟨hmills, hcur⟩ := ((s.pop r).gclPut r.eng (gclPort d) g).gclDelta_keeps (gclPort d)
  obtain ⟨hput, hputMills⟩ := (s.pop r).gclPut_keeps r.eng (gclPort d) g
  have hpop : (s.withPending (gclPort d) (g.movedOn (s.tbAt g.tb).val)).SamePath ((s.pop r).withPending (gclPort d) (g.movedOn (s.tbAt g.tb).val)) :=
    (s.pop_samePath r).modPort ..
  have h := completes_apply (i := .gclgo r) (eff := applyGclgo)
    (P := fun u => u.mills = (s.withPending (gclPort d) (g.movedOn (s.tbAt g.tb).val)).mills) rfl ht hc
    (by rw [heff, State.gclPutDelta, hcur, hput]) fun u hu => by
      rw [hu.mills, heff]
      exact hmills.trans (hputMills.trans hpop.mills)
  rwa [heff] at h

/-! ### A list starts, and its entries follow each other (R253, R254) -/

theorem State.modPort_congr {f f' : Port → Port} (h : f (s.port p) = f' (s.port p)) : s.modPort p f = s.modPort p f' := by
  change s.modPort p (fun _ => f (s.port p)) = s.modPort p fun _ => f' (s.port p)
  rw [h]

theorem Port.startList_pending {x : Port} (h : x.pend = some g) (n : Nat) :
    x.startList n = { x with oper := some g, pend := none, entry := g.index n } := by
  rw [Port.startList, h]

theorem gateListStart_completes (hlive : s.millLive (portMill p) = true) (hpend : (s.port p).pend = some g)
    (hcome : g.base * nsU ≤ (s.tbAt g.tb).val) : Completes (.gateListStart p) s fun u =>
      u.mills = (s.modPort p fun x => { x with oper := some g, pend := none, entry := g.index (s.tbAt g.tb).val }).mills := by
  have hx : exec (.gateListStart p) s = finish (s.modPort p fun x => x.startList (s.tbAt g.tb).val) := by
    change execGateListStart p s = _
    rw [execGateListStart, hpend]
    exact if_pos (by rw [hlive, decide_eq_true (show g.startU ≤ _ from hcome)]; rfl)
  refine completes_finish hx ((State.settle_mills _).trans (congrArg State.mills (State.modPort_congr ?_)))
  exact Port.startList_pending hpend _

theorem gateEntryChange_completes (hlive : s.millLive (portMill p) = true) (hoper : (s.port p).oper = some g)
    (hne : g.index (s.tbAt g.tb).val ≠ (s.port p).entry) : Completes (.gateEntryChange p) s fun u =>
      u.mills = (s.modPort p fun x => { x with entry := g.index (s.tbAt g.tb).val }).mills := by
  have hx : exec (.gateEntryChange p) s = finish (s.modPort p fun x => { x with entry := g.index (s.tbAt g.tb).val }) := by
    change execGateEntryChange p s = _
    rw [execGateEntryChange, hoper]
    exact if_pos (by rw [hlive, decide_eq_true hne]; rfl)
  exact completes_finish hx (State.settle_mills _)

/-- The position in the cycle is the same one cycle later. -/
theorem GateList.phase_add_cycle (h : 1 ≤ g.cycle) (n : Nat) : g.phase (n + g.cycle * nsU) = g.phase n := by
  have hshift : ((n + g.cycle * nsU : Nat) : Int) - (g.base * nsU : Nat) = (n - (g.base * nsU : Nat) : Int) + (g.cycle * nsU : Nat) := by
    omega
  unfold GateList.phase
  rw [max_eq_right h, hshift, Int.add_emod_right]

theorem GateList.states_add_cycle (h : 1 ≤ g.cycle) (n : Nat) : g.states (n + g.cycle * nsU) = g.states n := by
  unfold GateList.states GateList.index
  rw [GateList.phase_add_cycle h]

/-! ### A time base is stepped (R256, R269, R270) -/

theorem Port.stepGate_entry {x : Port} (hoper : x.oper = some g) (hpend : x.pend = none) (n : Nat) : (x.stepGate g.tb n).entry = g.index n := by
  have hpass : x.passStart g.tb n = x := by rw [Port.passStart, hpend]
  rw [Port.stepGate, hpass, hoper]
  exact congrArg Port.entry (if_pos rfl)

theorem State.stepGates_port (s : State) (b : Fin 8) (n : Nat) (p : Fin 32) : (s.stepGates b n).port p = (s.port p).stepGate b n := by
  simp [State.stepGates, State.port, State.mill]

theorem State.tbStepped_port (s : State) (b : Fin 8) (x : Int) (p : Fin 32) :
    (s.tbStepped b x).port p = (s.port p).stepGate b ((s.tbStepped b x).tbAt b).val := State.stepGates_port ..

/-- A step of the time base of an operational list puts the entry of the new time in force. -/
theorem State.stepTb_entry (hoper : (s.port p).oper = some g) (hpend : (s.port p).pend = none) (x : Int) :
    ((s.stepTb g.tb x).port p).entry = g.index ((s.stepTb g.tb x).tbAt g.tb).val := by
  obtain ⟨hpath, -⟩ := s.stepTb_ends g.tb x
  rw [State.port_of_mills hpath.mills, hpath.tbAt, State.tbStepped_port]
  exact Port.stepGate_entry hoper hpend _

/-- From `s` to `u` time base `b` has been stepped to `v`, the step is kept and its bit is set, and the other time bases are as before. -/
def State.SteppedTo (s u : State) (b : Fin 8) (v : Int) : Prop :=
  ((u.tbAt b).val : Int) = v % (tbWrap : Int) ∧ (u.tbAt b).steps = (s.tbAt b).steps + (v - (s.tbAt b).val)
    ∧ (u.tbAt b).stepAt = some s.now ∧ u.regs = (s.setBit (Reg.tim (0x40 * b.val)) 8).regs ∧ ∀ c, c ≠ b → u.tbAt c = s.tbAt c

theorem TimeBase.step_val (x : TimeBase) (v : Int) (now : Nat) : ((x.step (v - x.val) now).val : Int) = v % (tbWrap : Int) := by
  have hwrap : (0 : Int) < tbWrap := by decide
  refine (Int.toNat_of_nonneg (Int.emod_nonneg _ hwrap.ne')).trans (congrArg (· % (tbWrap : Int)) ?_)
  exact add_sub_cancel ..

theorem State.tbStepped_tbAt_ne (s : State) {b c : Fin 8} (h : c ≠ b) (x : Int) : (s.tbStepped b x).tbAt c = s.tbAt c :=
  Vector.getElem_set_ne b.isLt c.isLt fun e => h (Fin.ext e.symm)

theorem State.tbStepped_to (s : State) (b : Fin 8) (v : Int) : s.SteppedTo (s.tbStepped b (v - (s.tbAt b).val)) b v := by
  have htb := s.tbStepped_tbAt b (v - (s.tbAt b).val)
  exact ⟨by rw [htb, TimeBase.step_val], by rw [htb]; rfl, by rw [htb]; rfl, rfl, fun c hc => s.tbStepped_tbAt_ne hc _⟩

theorem State.SteppedTo.onPath {b : Fin 8} {v : Int} (h : s.SteppedTo t b v) (k : t.SamePath u) : s.SteppedTo u b v := by
  unfold State.SteppedTo
  simp only [k.tbAt, k.regs]
  exact h

theorem State.stepTb_to (s : State) (b : Fin 8) (v : Int) : s.SteppedTo (s.stepTb b (v - (s.tbAt b).val)) b v :=
  (s.tbStepped_to b v).onPath (s.stepTb_ends b _).1

/-- A command whose effect is a step to `v` is DONE with the time base stepped. -/
theorem completes_stepped {i : Instr} {op : Nat → Bool} {chk : State → Fin 4 → Desc → Option Nat} {eff : State → Fin 4 → Desc → Eff}
    {v : Int} (hx : exec i s = s.issue r 0x30 op (State.doNow chk eff)) (ht : s.Takes r 0x30 op d) (hc : chk (s.pop r) r.eng d = none)
    (he : eff (s.pop r) r.eng d = { s := (s.pop r).stepTb (tbOf d) (v - (s.tbAt (tbOf d)).val) }) :
    Completes i s fun u => s.Records u (d.ref r) 0 ∧ s.SteppedTo u (tbOf d) v := by
  have hs : (eff (s.pop r) r.eng d).s = (s.pop r).stepTb (tbOf d) (v - (s.tbAt (tbOf d)).val) := by rw [he]
  obtain ⟨-, howes⟩ := (s.pop r).stepTb_ends (tbOf d) (v - (s.tbAt (tbOf d)).val)
  have hpop := (s.pop_samePath r).stepTb (tbOf d) (v - (s.tbAt (tbOf d)).val)
  rw [← hs] at howes hpop
  exact (completes_doNow hx ht hc howes (by rw [he]) (by rw [he])).mono
    fun u ⟨hrec, hu⟩ => ⟨hrec, (s.stepTb_to (tbOf d) v).onPath (hpop.trans hu)⟩

theorem tbstepAbs_completes {n : Nat} (ht : s.Takes r 0x30 (· = 1) d) (hd : d.time = some n) :
    Completes (.tbstepAbs r) s fun u => s.Records u (d.ref r) 0 ∧ s.SteppedTo u (tbOf d) n := by
  refine completes_stepped (eff := applyTbstepAbs) rfl ht (by rw [checkTbstepAbs, hd]; rfl) ?_
  rw [applyTbstepAbs, hd]
  rfl

theorem tbstepRel_completes (ht : s.Takes r 0x30 (· = 0) d) (hrun : s.tbRun (tbOf d) = true) :
    Completes (.tbstepRel r) s fun u => s.Records u (d.ref r) 0
      ∧ s.SteppedTo u (tbOf d) ((s.tbAt (tbOf d)).val + (sext 64 (d.arg 0 8) * nsU + (d.arg 8 2 * 2 ^ 24 : Nat))) := by
  refine completes_stepped (eff := applyTbstepRel) rfl ht (if_pos hrun) ?_
  rw [add_sub_cancel_left]
  rfl

/-- Settles O23: each instruction of a gate list and each step of a time base by its lemma. -/
theorem gatesFollowTheTimeBase : Obligations.GatesFollowTheTimeBase := by
  unfold Obligations.GatesFollowTheTimeBase
  refine ⟨fun s r d => ⟨fun b ht hmill htime hpos hle hlo hhi hpend => ?_, fun g => gclgo_completes,
    fun q g hlive => gateListStart_completes hlive, fun q g hlive => gateEntryChange_completes hlive,
    fun q g x hoper hpend => State.stepTb_entry hoper hpend x, fun g n h => GateList.states_add_cycle h n⟩,
    fun s r d => ⟨fun n => tbstepAbs_completes, tbstepRel_completes⟩⟩
  have ha : s.TakesList r.eng d b := ⟨hmill, htime, hpos, hle, hlo, hhi, hpend⟩
  have hpop : (s.pop r).TakesList (d.ref r).rid.eng d b := ha.pop r
  exact ⟨fun bs es => gcladm_leaves ht ha, fun bs he => gcladm_fails ht (State.runGcladm_malformed hpop he),
    gcladm_fails ht (State.runGcladm_error hpop), gcladm_fails ht (State.runGcladm_timeout hpop)⟩

end Sys2Proof.Machine
end

section
/-! Steps, the queue and time (log entries 1 and 2, R267, Table 15-9). What every command leaves alone is read off the lemmas under
Laws/ about its own effect; the queue and the clock are never among what it may change. -/

namespace Sys2Proof.Machine

variable {s t : State} {c : Instr} {cs : List Instr}

/-! ### The frame of every command -/

/-- The frame of every command: where it answers a next state, that state is as before outside the areas that `touches` names. -/
theorem exec_only (i : Instr) (s : State) : OnlyR (touches i) s (exec i s) := by
  cases i with
  | clientFrameReceive p frame pcsErr => exact execClientFrameReceive_only (.refl s) p frame pcsErr rfl
  | macControlReceive p frame => exact execMacControlReceive_only (.refl s) p frame rfl
  | pauseExpire p q => exact execPauseExpire_only (.refl s) p q rfl
  | pfcRefresh p pri => exact execPfcRefresh_only (.refl s) p pri rfl
  | vatDispatch m => exact execVatDispatch_only (.refl s) m rfl
  | mov t => exact execMov_only (.refl s) t rfl
  | movSpecial t => exact execMovSpecial_only (.refl s) t rfl
  | add t => exact execAdd_only (.refl s) t rfl
  | sub t => exact execSub_only (.refl s) t rfl
  | and t => exact execAnd_only (.refl s) t rfl
  | or t => exact execOr_only (.refl s) t rfl
  | xor t => exact execXor_only (.refl s) t rfl
  | shl t => exact execShl_only (.refl s) t rfl
  | shr t => exact execShr_only (.refl s) t rfl
  | cmp t => exact execCmp_only (.refl s) t rfl
  | ext t => exact execExt_only (.refl s) t rfl
  | ins t => exact execIns_only (.refl s) t rfl
  | br t => exact execBr_only (.refl s) t rfl
  | brp t => exact execBrp_only (.refl s) t rfl
  | call t => exact execCall_only (.refl s) t rfl
  | ret t => exact execRet_only (.refl s) t rfl
  | lkp t => exact execLkp_only (.refl s) t rfl
  | tcm t => exact execTcm_only (.refl s) t rfl
  | att t => exact execAtt_only (.refl s) t rfl
  | trib t => exact execTrib_only (.refl s) t rfl
  | cls t => exact execCls_only (.refl s) t rfl
  | pol t => exact execPol_only (.refl s) t rfl
  | stmp t => exact execStmp_only (.refl s) t rfl
  | enq t => exact execEnq_only (.refl s) t rfl
  | drop t => exact execDrop_only (.refl s) t rfl
  | punt t => exact execPunt_only (.refl s) t rfl
  | hashLookup t => exact execHashLookup_only (.refl s) t rfl
  | tcamSearch t => exact execTcamSearch_only (.refl s) t rfl
  | policerDecide t => exact execPolicerDecide_only (.refl s) t rfl
  | issueLimit t => exact execIssueLimit_only (.refl s) t rfl
  | residencyLimit t => exact execResidencyLimit_only (.refl s) t rfl
  | enqComplete t => exact execEnqComplete_only (.refl s) t rfl
  | puntComplete t => exact execPuntComplete_only (.refl s) t rfl
  | puntDeliver m q => exact execPuntDeliver_only (.refl s) m q rfl
  | saCacheAttach t => exact execSaCacheAttach_only (.refl s) t rfl
  | saFetchComplete m sax => exact execSaFetchComplete_only (.refl s) m sax rfl
  | saWritebackDone m sax => exact execSaWritebackDone_only (.refl s) m sax rfl
  | fciTxFrame m sax => exact execFciTxFrame_only (.refl s) m sax rfl
  | fciRxFrame m sax => exact execFciRxFrame_only (.refl s) m sax rfl
  | threshFifoRead m => exact execThreshFifoRead_only (.refl s) m rfl
  | headboxTransfer dst => exact execHeadboxTransfer_only (.refl s) dst rfl
  | sheetSend m => exact execSheetSend_only (.refl s) m rfl
  | reamBegin m => exact execReamBegin_only (.refl s) m rfl
  | lostSheetPeriod m => exact execLostSheetPeriod_only (.refl s) m rfl
  | codewordLock m rx => exact execCodewordLock_only (.refl s) m rx rfl
  | laneMarkerCheck m lane o => exact execLaneMarkerCheck_only (.refl s) m lane o rfl
  | sheetReceive m lanes => exact execSheetReceive_only (.refl s) m lanes rfl
  | trialExhausted m k => exact execTrialExhausted_only (.refl s) m k rfl
  | defectDeclare m d => exact execDefectDeclare_only (.refl s) m d rfl
  | defectClear m d => exact execDefectClear_only (.refl s) m d rfl
  | dlgHello m => exact execDlgHello_only (.refl s) m rfl
  | dlgConfirm m => exact execDlgConfirm_only (.refl s) m rfl
  | dlgVerchk m => exact execDlgVerchk_only (.refl s) m rfl
  | dlgHostMessage m => exact execDlgHostMessage_only (.refl s) m rfl
  | dlgReservedType m => exact execDlgReservedType_only (.refl s) m rfl
  | seqUpper m => exact execSeqUpper_only (.refl s) m rfl
  | seqQuery m => exact execSeqQuery_only (.refl s) m rfl
  | laneReady m => exact execLaneReady_only (.refl s) m rfl
  | laneUnready m => exact execLaneUnready_only (.refl s) m rfl
  | dlgAck m => exact execDlgAck_only (.refl s) m rfl
  | dlgRetryTimeout m => exact execDlgRetryTimeout_only (.refl s) m rfl
  | dlgSend pf m => exact execDlgSend_only (.refl s) pf m rfl
  | dlgReneg m => exact execDlgReneg_only (.refl s) m rfl
  | dlgRxRelease m => exact execDlgRxRelease_only (.refl s) m rfl
  | lnfTxEnable m => exact execLnfTxEnable_only (.refl s) m rfl
  | lnfTxDisable m => exact execLnfTxDisable_only (.refl s) m rfl
  | lnfRxEnable m => exact execLnfRxEnable_only (.refl s) m rfl
  | lnfRxDisable m => exact execLnfRxDisable_only (.refl s) m rfl
  | lnfWmDisable m => exact execLnfWmDisable_only (.refl s) m rfl
  | laneUseWrite m v => exact execLaneUseWrite_only (.refl s) m v rfl
  | dkwrite r => exact execDkwrite_only (.refl s) r rfl
  | dkwriteTransferDone m d => exact execDkwriteTransferDone_only (.refl s) m d rfl
  | dklValidationDone m => exact execDklValidationDone_only (.refl s) m rfl
  | dklClearDone m => exact execDklClearDone_only (.refl s) m rfl
  | dkflipEarliest r => exact execDkflipEarliest_only (.refl s) r rfl
  | dkflipAt r => exact execDkflipAt_only (.refl s) r rfl
  | dkflipCancel r => exact execDkflipCancel_only (.refl s) r rfl
  | dkshedShed r => exact execDkshedShed_only (.refl s) r rfl
  | dkshedRestore r => exact execDkshedRestore_only (.refl s) r rfl
  | shedHoldoffExpire m lane => exact execShedHoldoffExpire_only (.refl s) m lane rfl
  | lkarmLoad r => exact execLkarmLoad_only (.refl s) r rfl
  | lkarmRxon r => exact execLkarmRxon_only (.refl s) r rfl
  | lkarmRxoff r => exact execLkarmRxoff_only (.refl s) r rfl
  | lkarmArmReam r => exact execLkarmArmReam_only (.refl s) r rfl
  | lkarmArmTime r => exact execLkarmArmTime_only (.refl s) r rfl
  | lkarmCancel r => exact execLkarmCancel_only (.refl s) r rfl
  | lkarmResync r => exact execLkarmResync_only (.refl s) r rfl
  | lkarmHalt r => exact execLkarmHalt_only (.refl s) r rfl
  | lkretire r => exact execLkretire_only (.refl s) r rfl
  | sainstInstall r => exact execSainstInstall_only (.refl s) r rfl
  | sainstUpdateLpn r => exact execSainstUpdateLpn_only (.refl s) r rfl
  | sainstSetcur r => exact execSainstSetcur_only (.refl s) r rfl
  | saretRead r hostErr => exact execSaretRead_only (.refl s) r hostErr rfl
  | saretRetire r => exact execSaretRetire_only (.refl s) r rfl
  | saRetireComplete m sax hostErr => exact execSaRetireComplete_only (.refl s) m sax hostErr rfl
  | sapinPin r => exact execSapinPin_only (.refl s) r rfl
  | sapinUnpin r => exact execSapinUnpin_only (.refl s) r rfl
  | orphanSweepDone => exact execOrphanSweepDone_only (.refl s) rfl
  | kwrapin r => exact execKwrapin_only (.refl s) r rfl
  | kstageWrapped r => exact execKstageWrapped_only (.refl s) r rfl
  | kstageRng r => exact execKstageRng_only (.refl s) r rfl
  | kcommit r => exact execKcommit_only (.refl s) r rfl
  | kinval r => exact execKinval_only (.refl s) r rfl
  | kinvalPublish => exact execKinvalPublish_only (.refl s) rfl
  | slotInvalidationDone slot => exact execSlotInvalidationDone_only (.refl s) slot rfl
  | kderive r => exact execKderive_only (.refl s) r rfl
  | attest r => exact execAttest_only (.refl s) r rfl
  | kstOpComplete ix hostErr => exact execKstOpComplete_only (.refl s) ix hostErr rfl
  | mtpWriteDone => exact execMtpWriteDone_only (.refl s) rfl
  | kstStart => exact execKstStart_only (.refl s) rfl
  | rootGenerate okA okB => exact execRootGenerate_only (.refl s) okA okB rfl
  | provGo pf v => exact execProvGo_only (.refl s) pf v rfl
  | lcTargetWrite pf v => exact execLcTargetWrite_only (.refl s) pf v rfl
  | lcWindowExpire => exact execLcWindowExpire_only (.refl s) rfl
  | lcGo pf v => exact execLcGo_only (.refl s) pf v rfl
  | lcFuseProgrammed => exact execLcFuseProgrammed_only (.refl s) rfl
  | samplerWindowEnd k bits => exact execSamplerWindowEnd_only (.refl s) k bits rfl
  | conditionerBlock bits => exact execConditionerBlock_only (.refl s) bits rfl
  | rngFail cause smp => exact execRngFail_only (.refl s) cause smp rfl
  | drbgInstantiate ix => exact execDrbgInstantiate_only (.refl s) ix rfl
  | drbgReseed ix => exact execDrbgReseed_only (.refl s) ix rfl
  | rngBufferRefill ix => exact execRngBufferRefill_only (.refl s) ix rfl
  | rngRestart pf => exact execRngRestart_only (.refl s) pf rfl
  | rngTestMode pf mode => exact execRngTestMode_only (.refl s) pf mode rfl
  | rngOutStatusRead pf ix => exact execRngOutStatusRead_only (.refl s) pf ix rfl
  | rngOutDataRead pf ix => exact execRngOutDataRead_only (.refl s) pf ix rfl
  | rngRawRead pf => exact execRngRawRead_only (.refl s) pf rfl
  | uciLoad pf v => exact execUciLoad_only (.refl s) pf v rfl
  | uciLoadDone => exact execUciLoadDone_only (.refl s) rfl
  | uciEnc pf f => exact execUciEnc_only (.refl s) pf f rfl
  | uciDec pf f => exact execUciDec_only (.refl s) pf f rfl
  | uciNonce pf f => exact execUciNonce_only (.refl s) pf f rfl
  | uciErase pf f => exact execUciErase_only (.refl s) pf f rfl
  | uciRequestDone f src errAt => exact execUciRequestDone_only (.refl s) f src errAt rfl
  | memTrain pf c => exact execMemTrain_only (.refl s) pf c rfl
  | memTrainDone c failStep => exact execMemTrainDone_only (.refl s) c failStep rfl
  | memTrackFail c => exact execMemTrackFail_only (.refl s) c rfl
  | memRegionLoad pf r v => exact execMemRegionLoad_only (.refl s) pf r v rfl
  | memRegionUnload pf r => exact execMemRegionUnload_only (.refl s) pf r rfl
  | memRegionReady r => exact execMemRegionReady_only (.refl s) r rfl
  | memLineRead c => exact execMemLineRead_only (.refl s) c rfl
  | memReadDone c o => exact execMemReadDone_only (.refl s) c o rfl
  | memLineWrite c o => exact execMemLineWrite_only (.refl s) c o rfl
  | pageRewriteDone c bad => exact execPageRewriteDone_only (.refl s) c bad rfl
  | memWriteAck c => exact execMemWriteAck_only (.refl s) c rfl
  | memWindowRead pf => exact execMemWindowRead_only (.refl s) pf rfl
  | memWindowWrite pf => exact execMemWindowWrite_only (.refl s) pf rfl
  | scrubRead c o => exact execScrubRead_only (.refl s) c o rfl
  | laneModeWrite n mode => exact execLaneModeWrite_only (.refl s) n mode rfl
  | txLeaveIdle n => exact execTxLeaveIdle_only (.refl s) n rfl
  | txEnterIdle n => exact execTxEnterIdle_only (.refl s) n rfl
  | trainingBurstEnd n => exact execTrainingBurstEnd_only (.refl s) n rfl
  | sigDetChange n up => exact execSigDetChange_only (.refl s) n up rfl
  | cdrLock n => exact execCdrLock_only (.refl s) n rfl
  | fomWindowEnd n fom converged => exact execFomWindowEnd_only (.refl s) n fom converged rfl
  | adaptTimeout n => exact execAdaptTimeout_only (.refl s) n rfl
  | eyeScanStart n v => exact execEyeScanStart_only (.refl s) n v rfl
  | eyeScanDone n count => exact execEyeScanDone_only (.refl s) n count rfl
  | feltSlotReceive c0 c1 c2 c3 => exact execFeltSlotReceive_only (.refl s) c0 c1 c2 c3 rfl
  | feltFifoError => exact execFeltFifoError_only (.refl s) rfl
  | mateActInChange high => exact execMateActInChange_only (.refl s) high rfl
  | claimTimerExpire => exact execClaimTimerExpire_only (.refl s) rfl
  | releasingExpire => exact execReleasingExpire_only (.refl s) rfl
  | actReqWrite v => exact execActReqWrite_only (.refl s) v rfl
  | mteEnWrite v => exact execMteEnWrite_only (.refl s) v rfl
  | mateSwitch => exact execMateSwitch_only (.refl s) rfl
  | mateClrDiverged => exact execMateClrDiverged_only (.refl s) rfl
  | mateSelftest => exact execMateSelftest_only (.refl s) rfl
  | selftestPassDone ok => exact execSelftestPassDone_only (.refl s) ok rfl
  | heartbeatSend => exact execHeartbeatSend_only (.refl s) rfl
  | peerSilent => exact execPeerSilent_only (.refl s) rfl
  | freshExpire => exact execFreshExpire_only (.refl s) rfl
  | healthSend => exact execHealthSend_only (.refl s) rfl
  | timeFrameSend => exact execTimeFrameSend_only (.refl s) rfl
  | oneSidedDefect m bit => exact execOneSidedDefect_only (.refl s) m bit rfl
  | reclaimTimerExpire => exact execReclaimTimerExpire_only (.refl s) rfl
  | feltHello => exact execFeltHello_only (.refl s) rfl
  | feltConfirm => exact execFeltConfirm_only (.refl s) rfl
  | feltDelta => exact execFeltDelta_only (.refl s) rfl
  | feltSnap => exact execFeltSnap_only (.refl s) rfl
  | feltSnapEnd => exact execFeltSnapEnd_only (.refl s) rfl
  | feltDack => exact execFeltDack_only (.refl s) rfl
  | feltDigest => exact execFeltDigest_only (.refl s) rfl
  | feltCkpt => exact execFeltCkpt_only (.refl s) rfl
  | feltHealth => exact execFeltHealth_only (.refl s) rfl
  | feltTime => exact execFeltTime_only (.refl s) rfl
  | feltReq => exact execFeltReq_only (.refl s) rfl
  | feltRelease => exact execFeltRelease_only (.refl s) rfl
  | feltStale => exact execFeltStale_only (.refl s) rfl
  | vsecFeedLost b => exact execVsecFeedLost_only (.refl s) b rfl
  | vsecFeedGood b => exact execVsecFeedGood_only (.refl s) b rfl
  | tamperFire src => exact execTamperFire_only (.refl s) src rfl
  | tamperSourceCease n => exact execTamperSourceCease_only (.refl s) n rfl
  | throttleEnd => exact execThrottleEnd_only (.refl s) rfl
  | holdEngage => exact execHoldEngage_only (.refl s) rfl
  | evidenceIncrementDone => exact execEvidenceIncrementDone_only (.refl s) rfl
  | tamperBist pf v => exact execTamperBist_only (.refl s) pf v rfl
  | bistStimulusEnd fired ceased => exact execBistStimulusEnd_only (.refl s) fired ceased rfl
  | fuseTgtWrite pf v => exact execFuseTgtWrite_only (.refl s) pf v rfl
  | fuseWindowExpire => exact execFuseWindowExpire_only (.refl s) rfl
  | fuseDisableGo pf v => exact execFuseDisableGo_only (.refl s) pf v rfl
  | fuseDisableDone => exact execFuseDisableDone_only (.refl s) rfl
  | backupWake fires => exact execBackupWake_only (.refl s) fires rfl
  | powerOnReset assert => exact execPowerOnReset_only (.refl s) assert rfl
  | railDrop => exact execRailDrop_only (.refl s) rfl
  | resetPin => exact execResetPin_only (.refl s) rfl
  | perst => exact execPerst_only (.refl s) rfl
  | swColdReset pf v => exact execSwColdReset_only (.refl s) pf v rfl
  | swWarmReset pf v => exact execSwWarmReset_only (.refl s) pf v rfl
  | millReset pf m hold key => exact execMillReset_only (.refl s) pf m hold key rfl
  | functionLevelReset f => exact execFunctionLevelReset_only (.refl s) f rfl
  | clockLoss d => exact execClockLoss_only (.refl s) d rfl
  | trimLoadDone ok => exact execTrimLoadDone_only (.refl s) ok rfl
  | domainRelease => exact execDomainRelease_only (.refl s) rfl
  | bootVerifyDone image => exact execBootVerifyDone_only (.refl s) image rfl
  | ringDoorbell pf r v => exact execRingDoorbell_only (.refl s) pf r v rfl
  | ringEnable pf r => exact execRingEnable_only (.refl s) pf r rfl
  | ringDisable pf r => exact execRingDisable_only (.refl s) pf r rfl
  | abiSelect pf f v => exact execAbiSelect_only (.refl s) pf f v rfl
  | descriptorFetch r d => exact execDescriptorFetch_only (.refl s) r d rfl
  | dmaTimeout r => exact execDmaTimeout_only (.refl s) r rfl
  | batchStart r => exact execBatchStart_only (.refl s) r rfl
  | curApplyDone k => exact execCurApplyDone_only (.refl s) k rfl
  | completionRecordWrite r => exact execCompletionRecordWrite_only (.refl s) r rfl
  | cqHeadWrite pf r v => exact execCqHeadWrite_only (.refl s) pf r v rfl
  | gcladm r d => exact execGcladm_only (.refl s) r d rfl
  | gclgo r => exact execGclgo_only (.refl s) r rfl
  | gateListStart p => exact execGateListStart_only (.refl s) p rfl
  | gateEntryChange p => exact execGateEntryChange_only (.refl s) p rfl
  | shpset r => exact execShpset_only (.refl s) r rfl
  | polset r => exact execPolset_only (.refl s) r rfl
  | qcfgActivate r => exact execQcfgActivate_only (.refl s) r rfl
  | qcfgDeactivate r => exact execQcfgDeactivate_only (.refl s) r rfl
  | qcfgUpdate r => exact execQcfgUpdate_only (.refl s) r rfl
  | qcfgMoveDrain r => exact execQcfgMoveDrain_only (.refl s) r rfl
  | qcfgMoveFlush r => exact execQcfgMoveFlush_only (.refl s) r rfl
  | moveQueueEmpty trib => exact execMoveQueueEmpty_only (.refl s) trib rfl
  | egressFrameStart p => exact execEgressFrameStart_only (.refl s) p rfl
  | egressFrameEnd p => exact execEgressFrameEnd_only (.refl s) p rfl
  | tbstepAbs r => exact execTbstepAbs_only (.refl s) r rfl
  | tbstepRel r => exact execTbstepRel_only (.refl s) r rfl
  | tbservoGains r => exact execTbservoGains_only (.refl s) r rfl
  | tbservoOffset r => exact execTbservoOffset_only (.refl s) r rfl
  | tbservoEnable r => exact execTbservoEnable_only (.refl s) r rfl
  | tbservoDisable r => exact execTbservoDisable_only (.refl s) r rfl
  | servoInterval b => exact execServoInterval_only (.refl s) b rfl
  | tbRunSet b => exact execTbRunSet_only (.refl s) b rfl
  | tbRunClear b => exact execTbRunClear_only (.refl s) b rfl
  | tbRead b => exact execTbRead_only (.refl s) b rfl
  | trigset r => exact execTrigset_only (.refl s) r rfl
  | triggerEdge k => exact execTriggerEdge_only (.refl s) k rfl
  | ppsEdge => exact execPpsEdge_only (.refl s) rfl
  | captureEdge k rising => exact execCaptureEdge_only (.refl s) k rising rfl
  | stampQueueRead q => exact execStampQueueRead_only (.refl s) q rfl
  | tcEntryExpire table ix => exact execTcEntryExpire_only (.refl s) table ix rfl
  | waittTime r => exact execWaittTime_only (.refl s) r rfl
  | waittReam r => exact execWaittReam_only (.refl s) r rfl
  | waittRelease r => exact execWaittRelease_only (.refl s) r rfl
  | waittTimeout r => exact execWaittTimeout_only (.refl s) r rfl
  | fence r => exact execFence_only (.refl s) r rfl
  | fenceDone r => exact execFenceDone_only (.refl s) r rfl
  | epochRead r => exact execEpochRead_only (.refl s) r rfl
  | epochAssert r => exact execEpochAssert_only (.refl s) r rfl
  | notify r => exact execNotify_only (.refl s) r rfl
  | vatClusterRun m c => exact execVatClusterRun_only (.refl s) m c rfl
  | vatClusterStop m c => exact execVatClusterStop_only (.refl s) m c rfl
  | vatClusterIdle m c => exact execVatClusterIdle_only (.refl s) m c rfl
  | htEntryWrite m entry => exact execHtEntryWrite_only (.refl s) m entry rfl
  | htEntryRead m entry => exact execHtEntryRead_only (.refl s) m entry rfl
  | htOpDone m => exact execHtOpDone_only (.refl s) m rfl
  | tcamEntryWrite m entry => exact execTcamEntryWrite_only (.refl s) m entry rfl
  | tcamEntryRead m entry => exact execTcamEntryRead_only (.refl s) m entry rfl
  | tcamOpDone m => exact execTcamOpDone_only (.refl s) m rfl
  | pmcClear b => exact execPmcClear_only (.refl s) b rfl
  | pmcGather => exact execPmcGather_only (.refl s) rfl
  | gatherDone => exact execGatherDone_only (.refl s) rfl
  | periodicGather => exact execPeriodicGather_only (.refl s) rfl
  | evrArm => exact execEvrArm_only (.refl s) rfl
  | evrRecordWrite => exact execEvrRecordWrite_only (.refl s) rfl
  | evrSlotRead last k => exact execEvrSlotRead_only (.refl s) last k rfl
  | wideRegisterRead pf addr => exact execWideRegisterRead_only (.refl s) pf addr rfl
  | msixUnmask v => exact execMsixUnmask_only (.refl s) v rfl
  | i2cWrite bytes => exact execI2cWrite_only (.refl s) bytes rfl
  | i2cRead n => exact execI2cRead_only (.refl s) n rfl
  | registerWrite pf addr v => exact execRegisterWrite_only (.refl s) pf addr v rfl
  | vbatChange v => exact execVbatChange_only (.refl s) v rfl
  | selftestFailure => exact execSelftestFailure_only (.refl s) rfl
  | rngRawWord bits => exact execRngRawWord_only (.refl s) bits rfl
  | debugAccess line w o => exact execDebugAccess_only (.refl s) line w o rfl

/-- No command may change the queue or the clock. -/
theorem touches_spares_queue_and_clock (i : Instr) : (touches i).contains .queue = false ∧ (touches i).contains .clock = false := by
  cases i <;> exact ⟨rfl, rfl⟩

/-- A command leaves the rest of the queue as it is, and lets no time pass. -/
theorem exec_pending_now (h : exec c s = .next t) : t.pending = s.pending ∧ t.now = s.now := by
  obtain ⟨hqueue, hclock⟩ := touches_spares_queue_and_clock c
  exact ⟨exec_only c s t h .queue hqueue, exec_only c s t h .clock hclock⟩

/-! ### A cycle of the TIM clock -/

theorem step_of_empty (h : s.pending = []) : step s = .next s.tick := by rw [step, h]

theorem step_of_cons (h : s.pending = c :: cs) : step s = exec c { s with pending := cs } := by rw [step, h]

theorem State.tick_now (s : State) : s.tick.now = s.now + 1 := rfl

/-- R267: a time base advances while it runs in a released TIM. -/
theorem State.tick_tb (s : State) (b : Fin 8) : s.tick.tim.tb[b] =
    if s.timLive = true ∧ s.tbRun b = true then (s.tbAt b).advance (s.reg (Reg.tim (0x40 * b.val + 4))) else s.tbAt b := by
  refine (Vector.getElem_ofFn b.isLt).trans ?_
  simp only [Bool.and_eq_true]
  rfl

/-- Table 15-9: the junction sensor is read every 10 µs on main power. -/
theorem State.tick_temp (s : State) :
    s.tick.tmp.temp = if (s.now + 1) % 2500 = 0 ∧ s.rst.porHeld = false then Config.junction s.now else s.tmp.temp :=
  apply_ite Tmp.temp ..

/-- Settles O2: an idle step is a cycle of the TIM clock; every other step is its command's, whose frame spares queue and clock. -/
theorem stepsPassTheQueueAndTime : Obligations.StepsPassTheQueueAndTime := by
  unfold Obligations.StepsPassTheQueueAndTime
  refine ⟨fun s hidle => ⟨s.tick, step_of_empty hidle, s.tick_now, s.tick_tb, s.tick_temp, State.tick_only (.refl s) rfl⟩, fun s t hstep => ?_⟩
  cases hq : s.pending with
  | nil =>
    obtain rfl : s.tick = t := Host.Outcome.next.inj ((step_of_empty hq).symm.trans hstep)
    exact ⟨hq, s.tick_now⟩
  | cons c cs => exact exec_pending_now ((step_of_cons hq).symm.trans hstep)

end Sys2Proof.Machine
end

section
/-! Trigger outputs, PPS_OUT, captures, stamp queues and match tables (R286, R287, R289-R291, R415). -/

namespace Sys2Proof.Machine

variable {s : State} {r : Rid} {d : Desc} {k : Fin 8} {i : Instr}

/-! ### TRIGSET (R289) -/

/-- An instruction that ends at acceptance with a RESULT: its record carries it, and its effect is on the path. -/
theorem completes_doNow_result {mop : Nat} {op : Nat → Bool} {chk : State → Fin 4 → Desc → Option Nat} {eff : State → Fin 4 → Desc → Eff}
    (hx : exec i s = s.issue r mop op (State.doNow chk eff)) (ht : s.Takes r mop op d) (hc : chk (s.pop r) r.eng d = none)
    (howes : (s.pop r).Owes (eff (s.pop r) r.eng d).s) : Completes i s fun u =>
      s.Records u (d.ref r) 0 (eff (s.pop r) r.eng d).result (eff (s.pop r) r.eng d).late ∧ (eff (s.pop r) r.eng d).s.SamePath u := by
  generalize he : eff (s.pop r) r.eng d = e at howes ⊢
  refine completes_issue hx ht fun u hu => ?_
  have hrun : State.doNow chk eff (s.pop r) d (d.ref r) = e.s.complete (d.ref r) 0 e.result e.late false e.dseq := by
    unfold State.doNow
    rw [show (d.ref r).rid.eng = r.eng from rfl, hc, he]
  rw [hrun] at hu
  have hrec := ((s.pop_owes r).trans howes).records (e.s.complete_records (d.ref r) 0 e.result e.late false e.dseq)
  exact ⟨hrec.stay hu.done, (State.complete_samePath ..).trans hu.path⟩

/-- The programme takes its place among the outputs; the rings do not change. -/
theorem State.trigPut_keeps (s : State) (d : Desc) :
    (s.trigPut d).tim = (s.modTrig (trigOf d) fun _ => (s.trigPlan d).1).tim ∧ (s.trigPut d).cur = s.cur := by
  unfold State.trigPut
  split
  · exact ⟨rfl, rfl⟩
  · exact ⟨rfl, rfl⟩

theorem State.trigDelta_keeps (s : State) (d : Desc) :
    (s.trigDelta d).1.tim = (s.modTrig (trigOf d) fun _ => (s.trigPlan d).1).tim ∧ (s.trigDelta d).1.cur = s.cur := by
  obtain ⟨x, p, o, hdelta⟩ := (s.trigPut d).delta_ends (.trig (trigOf d) (s.trigPlan d).1) none
  have hs : (s.trigDelta d).1 = { s.trigPut d with mte := x, pmc := p, out := o } := hdelta
  rw [hs]
  exact s.trigPut_keeps d

theorem trigset_completes (ht : s.Takes r 0x32 (fun _ => true) d) (hc : checkTrigset s r.eng d = none) :
    Completes (.trigset r) s fun u => s.Records u (d.ref r) 0 (s.trigPlan d).2.1 (s.trigPlan d).2.2
      ∧ u.tim = (s.modTrig (trigOf d) fun _ => (s.trigPlan d).1).tim := by
  obtain ⟨htim, hcur⟩ := (s.pop r).trigDelta_keeps d
  exact (completes_doNow_result (eff := applyTrigset) rfl ht hc (.of_cur hcur)).mono fun u ⟨hrec, hu⟩ => ⟨hrec, hu.tim.trans htim⟩

/-! ### Pins (R415) -/

theorem State.drivePin_tim (s : State) (n : Nat) (high : Bool) : (s.drivePin n high).tim = s.tim := by
  unfold State.drivePin
  dsimp only
  split_ifs <;> rfl

/-- What a pin takes does not depend on the time unit's own state. -/
theorem State.drivePin_modTim_pads (s : State) (f : Tim → Tim) (n : Nat) (high : Bool) :
    ((s.modTim f).drivePin n high).pads = (s.drivePin n high).pads := by
  have hgrant : (s.modTim f).granted = s.granted := rfl
  unfold State.drivePin
  dsimp only
  rw [hgrant, State.modTim_pads]
  split_ifs <;> rfl

/-- A device that holds the line grant drives the pin. -/
theorem State.mem_drivePin_out (h : s.granted = true) (n : Nat) (high : Bool) : Out.pin n high ∈ (s.drivePin n high).out := by
  unfold State.drivePin
  rw [if_pos h]
  exact List.mem_cons_self

/-- A command that changes the time unit by `f` and drives a pin. -/
theorem completes_pinEdge (f : Tim → Tim) {n : Nat} {high : Bool} (hx : exec i s = finish ((s.modTim f).drivePin n high)) :
    Completes i s fun u => u.tim = f s.tim ∧ u.pads = (s.drivePin n high).pads ∧ (s.granted = true → Out.pin n high ∈ u.out) := by
  refine completes_finish hx ⟨?_, ?_, fun hg =>
    (State.settle_notifies _).out _ (State.mem_drivePin_out (s := s.modTim f) hg n high)⟩
  · rw [State.settle_tim, State.drivePin_tim, State.modTim_tim]
  · rw [State.settle_pads, State.drivePin_modTim_pads]

/-! ### Edges of triggers and of PPS_OUT (R289, R291) -/

theorem triggerFall_completes (hlive : s.timLive = true) (hhigh : (s.trig k).high = true)
    (hfall : (s.trig k).fallAt ≤ (s.tbAt (s.trig k).fallTb).val) : Completes (.triggerEdge k) s fun u =>
      u.tim = (s.modTrig k fun g => { g with high := false, active := g.more }).tim
      ∧ u.pads = (s.drivePin k.val false).pads ∧ (s.granted = true → Out.pin k.val false ∈ u.out) :=
  completes_pinEdge (fun x => { x with trig := x.trig.set k { x.trig[k] with high := false, active := x.trig[k].more } })
    (if_pos (by rw [hlive, hhigh, decide_eq_true hfall]; rfl))

theorem triggerRise_completes (hlive : s.timLive = true) (hlow : (s.trig k).high = false) (hactive : (s.trig k).active = true)
    (hmore : (s.trig k).more = true) (hnext : (s.trig k).next ≤ (s.tbAt (s.trig k).tb).val) : Completes (.triggerEdge k) s fun u =>
      u.tim = (s.modTrig k fun g => { g with
        high := true, fallAt := g.next + g.width, fallTb := g.tb, more := decide (g.period ≠ 0), next := g.next + g.period }).tim
      ∧ u.pads = (s.drivePin k.val true).pads ∧ (s.granted = true → Out.pin k.val true ∈ u.out) := by
  refine completes_pinEdge (fun x => { x with trig := x.trig.set k { x.trig[k] with
    high := true, fallAt := x.trig[k].next + x.trig[k].width, fallTb := x.trig[k].tb
    more := decide (x.trig[k].period ≠ 0), next := x.trig[k].next + x.trig[k].period } }) ?_
  change execTriggerEdge k s = _
  unfold execTriggerEdge
  dsimp only
  rw [hlive, hlow, hactive, hmore, decide_eq_true hnext]
  rfl

theorem ppsFall_completes (hlive : s.timLive = true) (hout : s.tim.ppsOut = true)
    (hfall : s.tim.ppsFall ≤ (s.tbAt s.tim.ppsTb).val) : Completes .ppsEdge s fun u =>
      u.tim = { s.tim with ppsOut := false } ∧ u.pads = (s.drivePin 8 false).pads := by
  have hx : exec .ppsEdge s = finish ((s.modTim fun x => { x with ppsOut := false }).drivePin 8 false) :=
    (if_pos (by rw [hlive, hout]; rfl)).trans (if_pos hfall)
  exact (completes_pinEdge _ hx).mono fun u ⟨htim, hpads, _⟩ => ⟨htim, hpads⟩

/-- PPS_OUT high from the whole second `v` of base `b` on, for `w` ms. -/
def Tim.ppsRisen (x : Tim) (b : Fin 8) (v w : Nat) : Tim :=
  { x with ppsOut := true, ppsTb := b, ppsFall := v - v % (1000000000 * nsU) + w * 1000000 * nsU }

theorem ppsRise_completes {b : Fin 8} (hb : b.val = s.fld (Reg.tim 0x7F0) 0 3) (hlive : s.timLive = true) (hlow : s.tim.ppsOut = false)
    (hen : s.bit (Reg.tim 0x7F0) 3 = true) (hsec : s.wholeSecond b = true) : Completes .ppsEdge s fun u =>
      u.tim = s.tim.ppsRisen b (s.tbAt b).val (s.fld (Reg.tim 0x7F0) 4 10) ∧ u.pads = (s.drivePin 8 true).pads := by
  have hx : exec .ppsEdge s =
      finish ((s.modTim fun x => x.ppsRisen b (s.tbAt b).val (s.fld (Reg.tim 0x7F0) 4 10)).drivePin 8 true) := by
    obtain ⟨_, _⟩ := b
    obtain rfl := hb
    exact (if_neg (by rw [hlow, Bool.and_false]; exact Bool.false_ne_true)).trans (if_pos (by rw [hlive, hen, hsec]; rfl))
  exact (completes_pinEdge _ hx).mono fun u ⟨htim, hpads, _⟩ => ⟨htim, hpads⟩

/-! ### Captures (R287, R291) -/

theorem State.queueAt_modQueue (s : State) (q : Fin 9) (f : StampQueue → StampQueue) : (s.modQueue q f).queueAt q = f (s.queueAt q) :=
  Vector.getElem_set_self _

theorem State.pushStamp_room {q : Fin 9} (h : (s.queueAt q).ents.length < 16) (e : QEnt) :
    s.pushStamp q e = s.modQueue q fun x => { x with ents := x.ents ++ [e] } := if_pos h

theorem State.pushStamp_full_tim {q : Fin 9} (h : 16 ≤ (s.queueAt q).ents.length) (e : QEnt) :
    (s.pushStamp q e).tim = (s.modQueue q fun x => { x with ovf := true }).tim := by
  unfold State.pushStamp
  rw [if_neg h.not_gt]
  rfl

theorem State.setBit_tim (s : State) (a n : Nat) (x : Bool) : (s.setBit a n x).tim = s.tim := rfl

theorem State.tbStepped_queues (s : State) (b : Fin 8) (x : Int) : (s.tbStepped b x).tim.queues = s.tim.queues := rfl

/-- The servo leaves the stamp queues alone: a step moves time bases, triggers and gates, and the rate is a register. -/
theorem State.servoOffset_queues (s : State) (b : Fin 8) (th : Int) : (s.servoOffset b th).tim.queues = s.tim.queues := by
  by_cases h : (s.tbAt b).Steps th
  · obtain ⟨hpath, -⟩ := (s.offsetNoted b th).stepTb_ends b (-th * 2 ^ 24)
    rw [State.servoOffset_steps h]
    rw [State.setBit_tim, hpath.tim]
    exact State.tbStepped_queues ..
  · rw [State.servoOffset_rate h]
    split
    · rfl
    · rfl

theorem State.hwOffset_queues (s : State) (b : Fin 8) (th : Int) : (s.hwOffset b th).tim.queues = s.tim.queues := by
  unfold State.hwOffset
  split_ifs
  · rfl
  · rfl
  · exact s.servoOffset_queues b th

theorem State.captureOffsets_queues (k : Fin 5) (th : Int) : ∀ (bs : List (Fin 8)) (s : State),
    (s.captureOffsets k th bs).tim.queues = s.tim.queues
  | [], _ => rfl
  | b :: bs, s => by
    rw [State.captureOffsets, State.captureOffsets_queues k th bs]
    split
    · exact s.hwOffset_queues b th
    · rfl

theorem State.captureOffsets_queueAt (s : State) (k : Fin 5) (th : Int) (bs : List (Fin 8)) (q : Fin 9) :
    (s.captureOffsets k th bs).queueAt q = s.queueAt q :=
  congrArg (fun x : Vector StampQueue 9 => x[q]) (State.captureOffsets_queues k th bs s)

theorem State.settle_queueAt (s : State) (q : Fin 9) : s.settle.queueAt q = s.queueAt q :=
  congrArg (fun x : Tim => x.queues[q]) s.settle_tim

/-- The queue of capture channel `k`. -/
def capQueue (k : Fin 5) : Fin 9 := ⟨4 + k.val, by omega⟩

/-- The time base that stamps the edges of capture channel `k`. -/
def State.capBase (s : State) (k : Fin 5) : Fin 8 := ⟨s.fld (Reg.tim (0x900 + 0x20 * k.val)) 0 3, by unfold State.fld natBits; omega⟩

/-- What an edge of capture channel `k` enters into its queue. -/
def State.capEntry (s : State) (k : Fin 5) (rising : Bool) : QEnt := { stamp := s.stamp (s.capBase k), port := b2n rising }

/-- The state after a captured edge at offset `th` has reached the servos that follow channel `k`, where it does (`on`). -/
def State.steered (s : State) (k : Fin 5) (th : Int) (on : Bool) : State := if on then s.captureOffsets k th (List.finRange 8) else s

theorem State.steered_queueAt (s : State) (k : Fin 5) (th : Int) (on : Bool) (q : Fin 9) : (s.steered k th on).queueAt q = s.queueAt q := by
  unfold State.steered
  split
  · exact s.captureOffsets_queueAt ..
  · rfl

section
variable {k : Fin 5} {rising : Bool} (hlive : s.timLive = true)
  (hsel : s.bit (Reg.tim (0x900 + 0x20 * k.val)) (if rising then 3 else 4) = true)
include hlive hsel

theorem exec_captureEdge : exec (.captureEdge k rising) s =
    finish ((s.pushStamp (capQueue k) (s.capEntry k rising)).steered k (secondOffset (s.stamp (s.capBase k)).val)
      (rising && decide ((s.queueAt (capQueue k)).ents.length < 16))) := if_pos (by rw [hlive, hsel]; rfl)

/-- R291: a selected edge enters the queue of its channel with its stamp; an offset that it gives a servo leaves the queue. -/
theorem captureEdge_enters (hroom : (s.queueAt (capQueue k)).ents.length < 16) : Completes (.captureEdge k rising) s fun u =>
    (u.queueAt (capQueue k)).ents = (s.queueAt (capQueue k)).ents ++ [s.capEntry k rising] := by
  refine completes_finish (exec_captureEdge hlive hsel) ?_
  rw [State.settle_queueAt, State.steered_queueAt, State.pushStamp_room hroom, State.queueAt_modQueue]

/-- R291: an edge that finds its queue full is lost, and the loss is marked. -/
theorem captureEdge_lost (hfull : 16 ≤ (s.queueAt (capQueue k)).ents.length) : Completes (.captureEdge k rising) s fun u =>
    u.tim = (s.modQueue (capQueue k) fun x => { x with ovf := true }).tim := by
  refine completes_finish (exec_captureEdge hlive hsel) ?_
  rw [State.settle_tim, decide_eq_false hfull.not_gt, Bool.and_false]
  exact State.pushStamp_full_tim hfull _

end

/-! ### Stamp queues are read, match entries expire (R15, R286, R287) -/

theorem State.latchWords_tim : ∀ (ws : List W32) (s : State) (a : Nat), (s.latchWords a ws).tim = s.tim
  | [], _, _ => rfl
  | _ :: ws, _, _ => State.latchWords_tim ws _ _

theorem exec_stampQueueRead (hlive : s.timLive = true) (q : StampQ) : exec (.stampQueueRead q) s =
    finish ((s.takeStamp (queueIdx q) (queueAddr q)).2.emit (.regRead 0 (queueAddr q) (s.takeStamp (queueIdx q) (queueAddr q)).1)) :=
  if_pos hlive

/-- A read of W0 gives the word that the queue has, and takes from the queue what the word came from. -/
theorem stampQueueRead_completes (hlive : s.timLive = true) {q : StampQ} {w : W32} {x : Tim}
    (hw : (s.takeStamp (queueIdx q) (queueAddr q)).1 = w) (hx : (s.takeStamp (queueIdx q) (queueAddr q)).2.tim = x) :
    Completes (.stampQueueRead q) s fun u => u.tim = x ∧ Out.regRead 0 (queueAddr q) w ∈ u.out := by
  subst hw hx
  exact completes_finish (exec_stampQueueRead hlive q) ⟨State.settle_tim _, State.mem_settle_emit ..⟩

theorem State.takeStamp_nil {q : Fin 9} (h : (s.queueAt q).ents = []) (a : Nat) : s.takeStamp q a = (0, s.latchWords (a + 4) [0, 0, 0]) := by
  rw [State.takeStamp, h]

theorem State.takeStamp_cons {q : Fin 9} {e : QEnt} {es : List QEnt} (h : (s.queueAt q).ents = e :: es) (a : Nat) :
    s.takeStamp q a = ((e.words (s.queueAt q).ovf).headD 0,
      (s.modQueue q fun x => { x with ents := es, ovf := false }).latchWords (a + 4) ((e.words (s.queueAt q).ovf).drop 1)) := by
  rw [State.takeStamp, h]

theorem tcEntryExpire_completes {n : Fin 36} {j : Fin 32} (h : j.val < (s.tcTable n.val).length) :
    Completes (.tcEntryExpire n j) s fun u => u.tim = (s.setTcTable n.val ((s.tcTable n.val).eraseIdx j.val)).tim :=
  completes_finish (if_pos h) (State.settle_tim _)

/-- Settles O25: each edge by the branch of its command that is due, a read of a queue by whether it is empty. -/
theorem triggersAndStamps : Obligations.TriggersAndStamps := by
  unfold Obligations.TriggersAndStamps
  refine ⟨fun s => ⟨fun r d => trigset_completes,
      fun k hlive => ⟨triggerFall_completes hlive, triggerRise_completes hlive⟩, ppsFall_completes, fun b => ppsRise_completes⟩,
    fun s hlive => ⟨fun k rising hsel => ⟨captureEdge_enters hlive hsel, captureEdge_lost hlive hsel⟩,
      fun q e es hq => ?_, fun q hq => ?_, fun n j => tcEntryExpire_completes⟩⟩
  · have htake := State.takeStamp_cons hq (queueAddr q)
    exact stampQueueRead_completes hlive (by rw [htake]) (by rw [htake]; exact State.latchWords_tim ..)
  · have htake := State.takeStamp_nil hq (queueAddr q)
    exact stampQueueRead_completes hlive (by rw [htake]) (by rw [htake]; exact State.latchWords_tim ..)

end Sys2Proof.Machine
end

section
/-! Tamper sources that fire (R419, R421-R423, R425). -/

namespace Sys2Proof.Machine

variable {s t : State} {b new : BitVec 12}

/-- A source under test that fires is counted as its test's. -/
def State.testCounted (s : State) (b : BitVec 12) : State :=
  match s.tmp.bistCur with
  | some n => if b.getLsbD n then s.countDev 0xE 1 n else s
  | none => s

/-- A response executes whose rank is at least that of the sources of a set. -/
def State.outranked (s : State) (new : BitVec 12) : Bool := s.tmp.exec.any fun e => decide (s.topRank new ≤ e)

/-- The sources of a set that ask for THROTTLE, beside the response that executes. -/
def State.thrNew (s : State) (new : BitVec 12) : BitVec 12 := s.thrAsked new (max (s.topRank new) (s.tmp.exec.getD 0))

/-- Firings set their status bits and are counted and recorded. -/
def State.firingsTold (s : State) (new : BitVec 12) : State :=
  ((srcList new).foldl (fun s n => ((s.setBit (Reg.tmp 4) n).countDev 0xE 0 n).fixDev 3) s).happen 3 0xE 0 new.toNat
    [byteOf ((if s.outranked new then 0 else s.topRank new)
      + 128 * b2n (decide (s.thrNew new ≠ 0) && (s.outranked new || decide (3 ≤ s.topRank new))))]

/-- Firings are told, and throttle where they ask for it. -/
def State.firingsNoted (s : State) (new : BitVec 12) : State := (s.firingsTold new).modTmp fun t => { t with
  firing := t.firing ||| (new &&& lasting), throttle := t.throttle || decide (s.thrNew new ≠ 0), thrSrcs := t.thrSrcs ||| s.thrNew new }

/-- The dispatch queues look at their room again where throttling has begun. -/
def State.throttleSeen (s w : State) : State := if s.tmp.throttle = w.tmp.throttle then w else w.refillAll

theorem State.testCounted_some {n : Nat} (h : s.tmp.bistCur = some n) (b : BitVec 12) :
    s.testCounted b = if b.getLsbD n then s.countDev 0xE 1 n else s := by
  unfold State.testCounted
  rw [h]

theorem State.testCounted_idle (h : s.tmp.bistCur = none) (b : BitVec 12) : s.testCounted b = s := by
  unfold State.testCounted
  rw [h]

theorem State.tamperFire_none (h : s.newFirings b = 0) : s.tamperFire b = s.testCounted b := by
  unfold State.tamperFire
  refine (if_pos h).trans ?_
  unfold State.testCounted
  cases s.tmp.bistCur <;> rfl

theorem State.tamperFire_some (h : s.newFirings b ≠ 0) : s.tamperFire b =
    let r := s.testCounted b
    let new := s.newFirings b
    let w := s.throttleSeen (if new.getLsbD 8 then (r.firingsNoted new).reloadShadow else r.firingsNoted new)
    if decide (3 ≤ r.topRank new) && !r.outranked new then w.respond (r.topRank new) new (decide (r.thrNew new ≠ 0)) else w := by
  unfold State.tamperFire
  extract_lets new test s0 top lower runs thr s1 s2 s3 s4 s5 r w
  have htest : ∀ n, s.tmp.bistCur = some n → test = b.getLsbD n := fun n hn => by simp only [test, hn]
  have hs0 : s0 = r := by
    simp only [s0, r]
    clear_value test
    split
    · next n hn => rw [htest n hn, State.testCounted_some hn]
    · next hn => rw [State.testCounted_idle hn]
  have hlower : lower = s0.outranked new := by
    simp only [lower, top]
    unfold State.outranked
    cases s0.tmp.exec <;> rfl
  have hs3 : s3 = s0.firingsNoted new := by
    simp only [s3, s2, s1, hlower]
    rfl
  rw [if_neg h]
  simp only [runs, s5, s4, w, hlower, hs3, ← hs0]
  rfl

theorem State.testCounted_only (s : State) (b : BitVec 12) : Only [.counts] s (s.testCounted b) := by
  unfold State.testCounted
  split
  · exact .ite (State.countDev_only (.refl s) _ _ _ _ rfl) (.refl s)
  · exact .refl s

theorem State.firingsTold_only (s : State) (new : BitVec 12) : Only [.status, .counts, .evrQueue] s (s.firingsTold new) :=
  State.happen_only (Only.foldl _ (fun _ _ h => State.fixDev_only (State.countDev_only
    (State.setBit_only h _ _ _ (.inr rfl) (.inl rfl)) _ _ _ _ rfl) _ _ rfl) _ _ (.refl s)) _ _ _ _ _ rfl

theorem State.firingsNoted_tmp (s : State) (new : BitVec 12) : (s.firingsNoted new).tmp = { s.tmp with
    firing := s.tmp.firing ||| (new &&& lasting), throttle := s.tmp.throttle || decide (s.thrNew new ≠ 0)
    thrSrcs := s.tmp.thrSrcs ||| s.thrNew new } := by
  have htold : (s.firingsTold new).tmp = s.tmp := s.firingsTold_only new .tmp rfl
  unfold State.firingsNoted
  rw [State.modTmp_tmp, htold]

/-- What is told of firings sets no other register than their status bits. -/
theorem State.firingsNoted_regs (s : State) (new : BitVec 12) :
    (s.firingsNoted new).regs = ((srcList new).foldl (fun s n => s.setBit (Reg.tmp 4) n) s).regs := by
  have hcounted : ∀ (l : List Nat) (x y : State), x.SamePath y → (l.foldl (fun s n => s.setBit (Reg.tmp 4) n) x).SamePath
      (l.foldl (fun s n => ((s.setBit (Reg.tmp 4) n).countDev 0xE 0 n).fixDev 3) y) := by
    intro l
    induction l with
    | nil => exact fun _ _ h => h
    | cons n l ih => exact fun x y h => ih _ _ (((h.setBit ..).trans (State.countDev_samePath ..)).trans (State.fixDev_samePath ..))
  exact ((hcounted _ s s (.refl s)).trans (State.happen_samePath ..)).regs

theorem State.throttleSeen_only (s w : State) : Only [.counts, .vat, .sch, .ports] w (s.throttleSeen w) :=
  .ite (.refl w) (State.refillAll_only (.refl w) rfl)

theorem State.refillOne_inMills {m : Fin 4} (h : s.refillOne m = some t) : s.InMills t := by
  unfold State.refillOne at h
  split at h
  · cases h
  · split at h
    · cases h
      exact (State.modSch_inMills ..).trans (State.dispatchPut_inMills ..)
    · obtain ⟨p, -, hp⟩ := List.exists_of_findSome?_eq_some h
      split at hp
      · obtain ⟨f, -, rfl⟩ := Option.map_eq_some_iff.mp hp
        exact (State.modPort_inMills ..).trans (State.dispatchPut_inMills ..)
      · cases hp

theorem State.refillMany_inMills (m : Fin 4) : ∀ (n : Nat) (s : State), s.InMills (s.refillMany m n)
  | 0, s => .refl s
  | n + 1, s => by
    unfold State.refillMany
    split
    · next w hw => exact (State.refillOne_inMills hw).trans (State.refillMany_inMills m n w)
    · exact .refl s

theorem State.refillAll_inMills (s : State) : s.InMills s.refillAll := by
  have hmills : ∀ (l : List (Fin 4)) (x : State), x.InMills (l.foldl State.refill x) := by
    intro l
    induction l with
    | nil => exact .refl
    | cons m l ih => exact fun x => ((x.modMill_inMills m _).trans (State.refillMany_inMills m 256 _)).trans (ih _)
  exact hmills _ s

theorem State.throttleSeen_regs (s w : State) : (s.throttleSeen w).regs = w.regs := by
  unfold State.throttleSeen
  split
  · rfl
  · exact w.refillAll_inMills.onPath.regs

/-! ### The RNG and sources that fire (R336) -/

/-- Sources that fire without SHADOW, for which alone registers are reloaded, leave the RNG. -/
theorem State.tamperFire_rng (h : b.getLsbD 8 = false) : (s.tamperFire b).rng = s.rng := by
  have hnew : (s.newFirings b).getLsbD 8 = false := by
    unfold State.newFirings
    simp only [BitVec.getLsbD_and, h, Bool.false_and]
  have htest : (s.testCounted b).rng = s.rng := s.testCounted_only b .rng rfl
  by_cases hnone : s.newFirings b = 0
  · rw [State.tamperFire_none hnone, htest]
  · have hnoted : Only [.status, .counts, .evrQueue, .tmp] (s.testCounted b) ((s.testCounted b).firingsNoted (s.newFirings b)) :=
      State.modTmp_only (Only.mono (State.firingsTold_only _ _) rfl) _ rfl
    have hseen : (s.throttleSeen ((s.testCounted b).firingsNoted (s.newFirings b))).rng = s.rng :=
      (State.throttleSeen_only s _ .rng rfl).trans ((hnoted .rng rfl).trans htest)
    rw [State.tamperFire_some hnone]
    dsimp only
    rw [hnew, if_neg Bool.false_ne_true]
    split
    · exact (State.respond_only (ps := [.out, .status, .host, .pads, .counts, .evrQueue, .slots, .kst, .uci, .mem, .tmp, .bkp, .lci, .sac,
        .vat, .sch, .trib, .sc, .sa, .cur, .role, .mte]) (.refl _) _ _ _ rfl .rng rfl).trans hseen
    · exact hseen

/-! ### Sources fire and cease (R419, R421, R422, R425) -/

theorem State.newFirings_zero (s : State) : s.newFirings 0 = 0 := by
  unfold State.newFirings
  simp only [BitVec.ofNat_eq_ofNat, BitVec.zero_and]

theorem State.topRank_zero (s : State) : s.topRank 0 = 0 := rfl

theorem exec_tamperFire (hlive : s.islandLive = true) (h : s.newFirings b ≠ 0) : exec (.tamperFire b) s = finish (s.tamperFire b).mateLook := by
  refine if_pos ⟨hlive, ?_⟩
  rintro rfl
  exact h s.newFirings_zero

/-- New firings whose ranks ask for no response are told, and throttle where they ask for it. -/
theorem tamperFire_tells (hlive : s.islandLive = true) (h : s.newFirings b ≠ 0) (htest : s.tmp.bistCur = none)
    (hrank : s.topRank (s.newFirings b) ≤ 2) (h8 : (s.newFirings b).getLsbD 8 = false) :
    Completes (.tamperFire b) s fun u => u.tmp = (s.firingsNoted (s.newFirings b)).tmp ∧ u.regs = (s.firingsNoted (s.newFirings b)).regs := by
  have hlow : (decide (3 ≤ s.topRank (s.newFirings b)) && !s.outranked (s.newFirings b)) = false := by
    rw [decide_eq_false (by omega), Bool.false_and]
  have hfire : s.tamperFire b = s.throttleSeen (s.firingsNoted (s.newFirings b)) := by
    rw [State.tamperFire_some h, s.testCounted_idle htest]
    dsimp only
    rw [h8, hlow]
    rfl
  obtain ⟨hregs, -, -, htmp, -⟩ := (s.tamperFire b).mateLook_blocks
  refine completes_finish (exec_tamperFire hlive h) ⟨?_, ?_⟩
  · rw [State.settle_tmp, htmp, hfire]
    exact State.throttleSeen_only s _ .tmp rfl
  · rw [State.settle_regs, hregs, hfire]
    exact State.throttleSeen_regs s _

end Sys2Proof.Machine
end

section
/-! Keys are erased (Table 10-13): what SESSION_CLEAR and ZEROIZE leave of line keys, associations, regions, utility contexts and slots. -/

namespace Sys2Proof.Machine

variable {s t : State} {ps : List Area}

/-! ### Line keys (R142) -/

/-- Every LKN listed is unloaded; the others are as they were, or empty. -/
theorem State.lknEraseWhere_all : ∀ (ks : List (Fin 4 × Fin 4)) (s : State), s.keptOrEmpty (s.lknEraseWhere (fun _ => true) false ks)
    ∧ ∀ m k, (m, k) ∈ ks → ((s.lknEraseWhere (fun _ => true) false ks).lkn m k).loaded = false
  | [], _ => ⟨fun _ _ => .inl rfl, fun _ _ h => absurd h List.not_mem_nil⟩
  | (m, k) :: ks, s => by
    have hstep : s.lknEraseWhere (fun _ => true) false ((m, k) :: ks) = (s.lknErase m k).lknEraseWhere (fun _ => true) false ks := by
      cases h : (s.lkn m k).loaded <;> simp [State.lknEraseWhere, State.lknErase, h]
    have hfirst := s.lknErase_keptOrEmpty m k
    have hgone : ((s.lknErase m k).lkn m k).loaded = false := by
      by_cases h : (s.lkn m k).loaded = true
      · rw [State.lknErase_erases h]
      · rw [State.lknErase, if_neg h, Bool.eq_false_iff.mpr h]
    obtain ⟨hkept, herased⟩ := State.lknEraseWhere_all ks (s.lknErase m k)
    rw [hstep]
    refine ⟨hfirst.trans hkept, fun m' k' hmem => ?_⟩
    rcases List.mem_cons.mp hmem with he | hmem
    · obtain ⟨rfl, rfl⟩ := Prod.mk.inj he
      rcases hkept m' k' with h | h
      · rw [h, hgone]
      · rw [h]
    · exact herased m' k' hmem

/-! ### Regions (R356) -/

theorem State.memAnswer_rgn (s : State) (q : MemReq) (st : Nat) (d : Bytes) : (s.memAnswer q st d).mem.rgn = s.mem.rgn := by
  unfold State.memAnswer
  split
  · rfl
  · dsimp only
    split
    · rw [(State.foldl_setReg_blocks _ _ _ _).1, State.modMem_mem]
    · rfl
  · rfl
  · rfl

theorem State.answerAll_rgn (st : Nat) : ∀ (qs : List MemReq) (s : State), (s.answerAll st qs).mem.rgn = s.mem.rgn
  | [], _ => rfl
  | q :: qs, s => (State.answerAll_rgn st qs _).trans (s.memAnswer_rgn q st [])

theorem State.failPending_rgn (r : Fin 8) : ∀ (cs : List (Fin 4)) (s : State), (s.failPending r cs).mem.rgn = s.mem.rgn
  | [], _ => rfl
  | _ :: cs, _ => (State.failPending_rgn r cs _).trans (State.answerAll_rgn ..)

/-- A region that is erased is NOKEY, and one that was NOKEY stays so. -/
theorem State.rgnErase_nokey {r k : Fin 8} (h : k = r ∨ (s.rgn k).st = .nokey) : ((s.rgnErase r).rgn k).st = .nokey := by
  unfold State.rgnErase
  split
  · next hr =>
    rcases h with rfl | h
    · exact hr.1
    · exact h
  · unfold State.modRgn State.rgn
    rw [State.modMem_mem]
    dsimp only
    by_cases hk : k = r
    · subst hk
      simp
    · have hne : r.val ≠ k.val := fun he => hk (Fin.ext he.symm)
      have hold : s.mem.rgn[k.val].st = .nokey := h.resolve_left hk
      simpa [Vector.getElem_set_ne _ _ hne, State.failPending_rgn] using hold

/-- Whatever their slots, the regions listed become NOKEY, and those that were stay so. -/
theorem State.rgnEraseWhere_nokey : ∀ (rs : List (Fin 8)) (s : State) (k : Fin 8),
    k ∈ rs ∨ (s.rgn k).st = .nokey → ((s.rgnEraseWhere (fun _ => true) rs).rgn k).st = .nokey
  | [], _, _ => fun h => h.resolve_left List.not_mem_nil
  | r :: rs, s, k => fun h => by
    unfold State.rgnEraseWhere
    extract_lets x hit
    have hhere : k = r ∨ (s.rgn k).st = .nokey → ((if hit then s.rgnErase r else s).rgn k).st = .nokey := fun h => by
      by_cases hhit : hit = true
      · rw [if_pos hhit]
        exact State.rgnErase_nokey h
      · have hr : (s.rgn r).st = .nokey := by
          by_contra hne
          exact hhit (by simp [hit, x, hne])
        rw [if_neg hhit]
        rcases h with rfl | h
        · exact hr
        · exact h
    refine State.rgnEraseWhere_nokey rs _ k ?_
    rcases h with h | h
    · exact (List.mem_cons.mp h).symm.imp_right fun h => hhere (.inl h)
    · exact .inr (hhere (.inr h))

/-! ### What is left (Table 10-13) -/

/-- No line key, association, region key or utility context is left. -/
structure State.SessionClear (s : State) : Prop where
  lkn : ∀ m k : Fin 4, (s.lkn m k).loaded = false
  sa : s.sa = []
  sc : s.sc = []
  rgn : ∀ r : Fin 8, (s.rgn r).st = .nokey
  ctx : ∀ c : Fin 4, s.uci.ctx[c].loaded = false

theorem State.SessionClear.of_only (hs : s.SessionClear) (h : Only ps s t) (hl : ps.contains .lci = false) (ha : ps.contains .sa = false)
    (hc : ps.contains .sc = false) (hm : ps.contains .mem = false) (hu : ps.contains .uci = false) : t.SessionClear where
  lkn m k := by rw [State.lkn_of_lci (h .lci hl m) k, hs.lkn]
  sa := (h .sa ha).trans hs.sa
  sc := (h .sc hc).trans hs.sc
  rgn r := by
    have hmem : t.mem = s.mem := h .mem hm
    unfold State.rgn
    rw [hmem]
    exact hs.rgn r
  ctx c := by
    have huci : t.uci = s.uci := h .uci hu
    rw [huci]
    exact hs.ctx c

/-- The contexts that are erased whatever their slots are not loaded. -/
theorem Uci.erase_all (u : Uci) (c : Fin 4) : (u.erase fun _ => true).ctx[c].loaded = false := by
  unfold Uci.erase
  simp only [Fin.getElem_fin, Vector.getElem_map, Bool.and_true]
  split
  · rfl
  · next h => exact Bool.eq_false_iff.mpr h

/-- The state in which every copy of a key is gone, and the slots are as they were. -/
def State.copiesGone (s : State) : State :=
  (((s.lknEraseWhere (fun _ => true) false allLkns).clearCatalogue.rgnEraseWhere (fun _ => true) (List.finRange 8)).modUci
    fun u => u.erase fun _ => true)

theorem State.copiesGone_only (s : State) :
    Only [.out, .status, .counts, .evrQueue, .uci, .mem, .lci, .sac, .vat, .sch, .trib, .sc, .sa, .cur, .mte] s s.copiesGone :=
  State.modUci_only (State.rgnEraseWhere_only (State.clearCatalogue_only (State.lknEraseWhere_only (.refl s) _ _ _ rfl) rfl) _ _ rfl) _ rfl

theorem State.copiesGone_clear (s : State) : s.copiesGone.SessionClear := by
  have hcat := State.clearCatalogue_only (ps := [.counts, .evrQueue, .sac, .vat, .sch, .trib, .sc, .sa, .cur])
    (.refl (s.lknEraseWhere (fun _ => true) false allLkns)) rfl
  have hrgn := State.rgnEraseWhere_only (ps := [.out, .status, .mem, .sac])
    (.refl (s.lknEraseWhere (fun _ => true) false allLkns).clearCatalogue) (fun _ => true) (List.finRange 8) rfl
  have hctx := State.modUci_only (ps := [.uci]) (.refl ((s.lknEraseWhere (fun _ => true) false allLkns).clearCatalogue.rgnEraseWhere
    (fun _ => true) (List.finRange 8))) (fun u => u.erase fun _ => true) rfl
  have hlci : ∀ m, s.copiesGone.lci m = (s.lknEraseWhere (fun _ => true) false allLkns).lci m := fun m =>
    (hctx .lci rfl m).trans ((hrgn .lci rfl m).trans (hcat .lci rfl m))
  exact {
    lkn := fun m k => by
      rw [State.lkn_of_lci (hlci m) k]
      exact (State.lknEraseWhere_all allLkns s).2 m k (mem_allLkns m k)
    sa := (hctx .sa rfl).trans (hrgn .sa rfl)
    sc := (hctx .sc rfl).trans (hrgn .sc rfl)
    rgn := fun r => by
      have hmem := hctx .mem rfl
      unfold State.rgn
      rw [show s.copiesGone.mem = _ from hmem]
      exact State.rgnEraseWhere_nokey _ _ r (.inl (List.mem_finRange r))
    ctx := fun c => Uci.erase_all _ c }

theorem State.eraseSlots_clear (hs : s.SessionClear) (p : Nat → Slot → Bool) : (s.eraseSlots p).SessionClear :=
  hs.of_only (State.eraseSlots_only (ps := [.slots, .kst]) (.refl s) p rfl) rfl rfl rfl rfl rfl

theorem State.settleInvals_clear (hs : s.SessionClear) : s.settleInvals.SessionClear :=
  hs.of_only (State.settleInvals_only (ps := [.counts, .evrQueue, .kst, .cur]) (.refl s) rfl) rfl rfl rfl rfl rfl

theorem State.sessionErase_clear (s : State) : s.sessionErase.SessionClear :=
  State.settleInvals_clear (State.eraseSlots_clear s.copiesGone_clear _)

theorem State.zeroErase_clear (s : State) : s.zeroErase.SessionClear :=
  State.settleInvals_clear ((State.eraseSlots_clear s.sessionErase_clear fun _ _ => true).of_only (ps := [.kst])
    (State.modKst_only (.refl _) _ (.inl rfl) (.inr fun _ => ⟨rfl, rfl⟩)) rfl rfl rfl rfl rfl)

/-! ### The key store after the erasures -/

theorem Only.kst_eq (h : Only ps s t) (hk : ps.contains .kst = false) (hs : ps.contains .slots = false) : t.kst = s.kst := by
  have hrest : t.kst.rest = s.kst.rest := h .kst hk
  obtain ⟨hslots, hgen⟩ : t.kst.slots = s.kst.slots ∧ t.kst.gen = s.kst.gen := h .slots hs
  calc t.kst = { t.kst.rest with slots := t.kst.slots, gen := t.kst.gen } := rfl
    _ = { s.kst.rest with slots := s.kst.slots, gen := s.kst.gen } := by rw [hrest, hslots, hgen]

theorem State.settleInvals_kst (s : State) : ∃ l, s.settleInvals.kst = { s.kst with invals := l } := by
  obtain ⟨l, h⟩ := s.settleInvals_samePath
  exact ⟨l, h.kst⟩

theorem State.eraseSlots_kst (s : State) (p : Nat → Slot → Bool) : ∃ f,
    (s.eraseSlots p).kst = { s.kst with slots := s.kst.slots.filter fun e => !p e.1 e.2, jobs := s.kst.jobs.map f } := ⟨_, rfl⟩

theorem State.sessionErase_kst (s : State) : ∃ slots f l,
    s.sessionErase.kst = { s.kst with slots := slots, jobs := s.kst.jobs.map f, invals := l } := by
  obtain ⟨l, hsettled⟩ := (s.copiesGone.eraseSlots fun n v => decide (n < 1024) && (v.a 0 || v.a 3 || v.a 4)).settleInvals_kst
  obtain ⟨f, hslots⟩ := s.copiesGone.eraseSlots_kst fun n v => decide (n < 1024) && (v.a 0 || v.a 3 || v.a 4)
  rw [hslots, s.copiesGone_only.kst_eq rfl rfl] at hsettled
  exact ⟨_, f, l, hsettled⟩

theorem State.zeroErase_kst (s : State) : ∃ f l,
    s.zeroErase.kst = { s.kst with slots := [], jobs := s.kst.jobs.map f, invals := l, reserve := [] } := by
  obtain ⟨slots, f, l, hsession⟩ := s.sessionErase_kst
  obtain ⟨g, hslots⟩ := s.sessionErase.eraseSlots_kst fun _ _ => true
  obtain ⟨l', hsettled⟩ := ((s.sessionErase.eraseSlots fun _ _ => true).modKst fun k => { k with reserve := [] }).settleInvals_kst
  refine ⟨g ∘ f, l', hsettled.trans ?_⟩
  rw [State.modKst_kst, hslots, hsession]
  simp only [Bool.not_true, List.filter_false, List.map_map]

end Sys2Proof.Machine
end

section
/-! Life cycle (R321-R323): what a transition leaves of the key store. -/

namespace Sys2Proof.Machine

variable {s t : State}

/-! ### Records that a transition queues (R313, R435) -/

theorem State.queueEpoch_kst (s : State) (epoch : Nat) (prov ends : Bool) :
    ∃ more, (s.queueEpoch epoch prov ends).kst = { s.kst with mtpJobs := s.kst.mtpJobs ++ more } := ⟨[_], rfl⟩

theorem State.retireEpoch_kst (s : State) (ends : Bool) :
    ∃ more, (s.retireEpoch ends).kst = { s.kst with mtpJobs := s.kst.mtpJobs ++ more } := by
  unfold State.retireEpoch
  dsimp only
  split
  · exact ⟨[_], rfl⟩
  · obtain ⟨more, h⟩ := s.queueEpoch_kst (s.mtpView.kst.epoch + 1) false ends
    refine ⟨more ++ [{ kind := .eraseCopies, addr := 0, data := [] }], ?_⟩
    unfold State.queueMtp
    rw [State.modKst_kst, h, ← List.append_assoc]

theorem State.logAppend_kst (s : State) (type rank sources arg : Nat) (retires ends clears : Bool) :
    ∃ more, (s.logAppend type rank sources arg retires ends clears).kst = { s.kst with mtpJobs := s.kst.mtpJobs ++ more } := by
  have hnone : ∃ more, s.kst = { s.kst with mtpJobs := s.kst.mtpJobs ++ more } := ⟨[], by rw [List.append_nil]⟩
  unfold State.logAppend
  dsimp only
  split
  · exact ⟨[_], rfl⟩
  · split
    · exact ⟨[_], rfl⟩
    · split
      · exact ⟨[_], rfl⟩
      · split <;> exact hnone

/-! ### A transition moves on (R322) -/

/-- A transition that moves on may erase the slots and queue MTP writes; it does not end before its fuse is programmed. -/
theorem State.lcAdvance_kst (s : State) : ∃ slots f invals reserve more phase, s.lcAdvance.kst = { s.kst with
    slots := slots, jobs := s.kst.jobs.map f, invals := invals, reserve := reserve, mtpJobs := s.kst.mtpJobs ++ more, lcPhase := phase }
    ∧ phase.isSome = s.kst.lcPhase.isSome := by
  have hstays : ∀ phase, ∃ f more, { s.kst with lcPhase := phase } = { s.kst with
      jobs := s.kst.jobs.map f, mtpJobs := s.kst.mtpJobs ++ more, lcPhase := phase } :=
    fun phase => ⟨id, [], by rw [List.map_id, List.append_nil]⟩
  have hidle : ∃ slots f invals reserve more phase, s.kst = { s.kst with
      slots := slots, jobs := s.kst.jobs.map f, invals := invals, reserve := reserve, mtpJobs := s.kst.mtpJobs ++ more, lcPhase := phase }
      ∧ phase.isSome = s.kst.lcPhase.isSome := by
    obtain ⟨f, more, h⟩ := hstays s.kst.lcPhase
    exact ⟨_, f, _, _, more, _, h, rfl⟩
  unfold State.lcAdvance
  split
  · next t hlog =>
    obtain ⟨f, invals, herased⟩ := s.zeroErase_kst
    split
    · exact hidle
    · dsimp only
      split
      · refine ⟨[], f, invals, [], [], some (.fuse t), ?_, by rw [hlog]; rfl⟩
        rw [State.modKst_kst, herased, List.append_nil]
      · obtain ⟨more, hretired⟩ := s.zeroErase.retireEpoch_kst false
        refine ⟨[], f, invals, [], more, some (.epoch t), ?_, by rw [hlog]; rfl⟩
        rw [State.modKst_kst, hretired, herased]
  · next t hepoch =>
    obtain ⟨f, more, h⟩ := hstays (some (.fuse t))
    split
    · exact hidle
    · split
      · exact hidle
      · exact ⟨_, f, _, _, more, _, h, by rw [hepoch]; rfl⟩
  · exact hidle

/-! ### A GO (R323) -/

theorem exec_lcGo (hlive : s.islandLive = true) (v : W32) : exec (.lcGo 1 v) s = finish (s.lcGo v.toNat).mateLook := by
  change execLcGo 1 v s = _
  unfold execLcGo
  rw [hlive]
  rfl

/-- A GO that is refused leaves its error. -/
theorem lcGo_refused {v : W32} (hlive : s.islandLive = true) (herr : s.lcError v.toNat ≠ 0) : Completes (.lcGo 1 v) s fun u =>
    u.kst = { s.kst with lcLast := v.toNat % 8, lcErr := s.lcError v.toNat } ∧ u.regs = (s.setBit (Reg.kst 0x18) 6).regs := by
  have hgo : s.lcGo v.toNat = (s.modKst fun k => { k with lcLast := v.toNat % 8, lcErr := s.lcError v.toNat }).setBit (Reg.kst 0x18) 6 := by
    unfold State.lcGo
    exact if_pos herr
  obtain ⟨hregs, -, hkst, -⟩ := (s.lcGo v.toNat).mateLook_blocks
  refine completes_finish (exec_lcGo hlive v) ⟨?_, ?_⟩
  · rw [State.settle_kst, hkst, hgo]
    rfl
  · rw [State.settle_regs, hregs, hgo]
    rfl

/-- A GO that is accepted stops the key store and starts the transition. -/
theorem lcGo_starts {v : W32} (hlive : s.islandLive = true) (herr : s.lcError v.toNat = 0) : Completes (.lcGo 1 v) s fun u =>
    u.kst.lcLast = v.toNat % 8 ∧ u.kst.lcErr = 0 ∧ u.kst.lcWindow = false ∧ u.kst.jobs = [] ∧ u.kst.marking = none
      ∧ u.kst.lcPhase.isSome = true := by
  obtain ⟨-, -, hkst, -⟩ := (s.lcGo v.toNat).mateLook_blocks
  refine completes_finish (exec_lcGo hlive v) ?_
  rw [State.settle_kst, hkst]
  unfold State.lcGo
  extract_lets tgt err s1 s2 s3
  obtain ⟨more, hlog⟩ := s3.logAppend_kst 3 0 0 tgt (decide (3 ≤ tgt)) false false
  obtain ⟨slots, f, invals, reserve, more', phase, hadv, hphase⟩ := (s3.logAppend 3 0 0 tgt (decide (3 ≤ tgt))).lcAdvance_kst
  have hsome : phase.isSome = true := by rw [hphase, hlog]; rfl
  rw [if_neg (not_not.mpr herr), hadv, hlog]
  exact ⟨rfl, herr, rfl, rfl, rfl, hsome⟩

/-! ### The fuse group is programmed (R322, R438) -/

theorem State.pulseEnds_otp (s : State) : ∃ n, s.pulseEnds.otp = { s.otp with evidence := n } := by
  unfold State.pulseEnds
  split
  · extract_lets s1 s2
    have hcause : Only [.status] s s1 := State.cause_only (.refl s) 20 rfl
    have hwritten : Only [.status, .mtp] s s2 := by
      simp only [s2]
      split
      · exact State.mtpWrite_only (hcause.mono rfl) _ _ rfl
      · exact hcause.mono rfl
    have hotp : s2.otp = s.otp := hwritten .otp rfl
    split
    · exact ⟨s.otp.evidence, hotp⟩
    · exact ⟨min 512 (s2.otp.evidence + 1), congrArg (fun o : Otp => { o with evidence := min 512 (s2.otp.evidence + 1) }) hotp⟩
  · exact ⟨s.otp.evidence, rfl⟩

/-- A cold reset takes the released domains of its set, keeps what is programmed, and leaves of the key store the reserve SRAM. -/
theorem State.coldReset_keeps (s : State) : s.coldReset.rst.released = s.rst.released &&& ~~~coldSet
    ∧ (∃ n, s.coldReset.otp = { s.otp with evidence := n })
    ∧ s.coldReset.kst = { reserve := s.kst.reserve, rootFail := s.kst.rootFail } := by
  have hpulse : Only [.status, .otp, .mtp] s s.pulseEnds := State.pulseEnds_only (.refl s) rfl
  have hclear := State.clearCold_only (ps := [.settings, .status, .shadow, .resetCtl, .irq, .host, .pads, .counts, .gather, .evrQueue,
    .records, .timeBases, .tim, .slots, .kst, .rng, .uci, .mem, .tmp, .line, .dkl, .lci, .sac, .vat, .sch, .ports, .trib, .tribOld, .sc,
    .sa, .hbxRr, .cur, .lanes, .felt, .role, .mte]) (.refl (s.pulseEnds.hold coldSet)) rfl
  obtain ⟨n, hotp⟩ := s.pulseEnds_otp
  refine ⟨?_, ⟨n, (hclear .otp rfl).trans hotp⟩, ?_⟩
  · exact (hclear .domains rfl).trans (congrArg (· &&& ~~~coldSet) (hpulse .domains rfl))
  · exact congrArg (fun k : Kst => ({ reserve := k.reserve, rootFail := k.rootFail } : Kst)) (hpulse.kst_eq rfl rfl)

theorem lcFuseProgrammed_resets {tgt : Nat} (h : s.kst.lcPhase = some (.fuse tgt)) : Completes .lcFuseProgrammed s fun u =>
    u.rst.released = s.rst.released &&& ~~~coldSet
    ∧ u.otp.lcSecured = (if tgt = 2 then 0xFF else s.otp.lcSecured) ∧ u.otp.lcReturned = (if tgt = 3 then 0xFF else s.otp.lcReturned)
    ∧ (tgt ≠ 2 → tgt ≠ 3 → u.otp.lcScrapped = 0xFF) ∧ u.kst = { reserve := s.kst.reserve, rootFail := s.kst.rootFail } := by
  have hx : exec .lcFuseProgrammed s = finish ((s.modOtp fun o => if tgt = 2 then { o with lcSecured := 0xFF }
      else if tgt = 3 then { o with lcReturned := 0xFF } else { o with lcScrapped := 0xFF }).cause 10).coldReset := by
    change execLcFuseProgrammed s = _
    unfold execLcFuseProgrammed
    rw [h]
  obtain ⟨hreleased, ⟨n, hotp⟩, hkst⟩ := ((s.modOtp fun o => if tgt = 2 then { o with lcSecured := 0xFF }
    else if tgt = 3 then { o with lcReturned := 0xFF } else { o with lcScrapped := 0xFF }).cause 10).coldReset_keeps
  refine completes_finish hx ?_
  rw [State.settle_rst, State.settle_otp, State.settle_kst, hreleased, hotp, hkst]
  refine ⟨rfl, ?_, ?_, fun h2 h3 => ?_, rfl⟩
  · change (if tgt = 2 then _ else if tgt = 3 then _ else _ : Otp).lcSecured = _
    split
    · rfl
    · split <;> rfl
  · change (if tgt = 2 then _ else if tgt = 3 then _ else _ : Otp).lcReturned = _
    split
    · next h2 => rw [h2]; rfl
    · split <;> rfl
  · change (if tgt = 2 then _ else if tgt = 3 then _ else _ : Otp).lcScrapped = _
    rw [if_neg h2, if_neg h3]

/-! ### Writes of PF0 are locked, and the window (R323) -/

theorem lcWrites_locked (hlive : s.islandLive = true) (v : W32) : Completes (.lcTargetWrite 0 v) s (fun u => Only settled s u)
    ∧ Completes (.lcGo 0 v) s (fun u => Only settled s u) ∧ Completes (.provGo 0 v) s fun u => Only settled s u := by
  refine ⟨completes_locked (pf := 0) (a := Reg.kst 0x10) (v := v.toNat) ?_, completes_locked (pf := 0) (a := Reg.kst 0x14) (v := v.toNat) ?_,
    completes_locked (pf := 0) (a := Reg.kst 0x40) (v := v.toNat) ?_⟩
  · change execLcTargetWrite 0 v s = _
    unfold execLcTargetWrite
    rw [hlive]
    rfl
  · change execLcGo 0 v s = _
    unfold execLcGo
    rw [hlive]
    rfl
  · change execProvGo 0 v s = _
    unfold execProvGo
    rw [hlive]
    rfl

theorem lcTargetWrite_opens (hlive : s.islandLive = true) (v : W32) : Completes (.lcTargetWrite 1 v) s fun u =>
    u.kst = { s.kst with lcWindow := true, lcShut := none } ∧ u.regs = (s.setReg (Reg.kst 0x10) (v.toNat % 8)).regs := by
  have hx : exec (.lcTargetWrite 1 v) s = finish (s.lcTarget v.toNat) := by
    change execLcTargetWrite 1 v s = _
    unfold execLcTargetWrite
    rw [hlive]
    rfl
  exact completes_finish hx ⟨State.settle_kst _, State.settle_regs _⟩

theorem lcWindowExpire_closes (h : s.kst.lcWindow = true) : Completes .lcWindowExpire s fun u =>
    u.kst = { s.kst with lcWindow := false, lcShut := some s.now } :=
  completes_finish (if_pos h) (State.settle_kst _)

end Sys2Proof.Machine
end

section
/-! Destructive responses (R423) and sources that cease (R421, R425). -/

namespace Sys2Proof.Machine

variable {s t : State}

theorem State.logAppend_scDone (s : State) (type rank sources arg : Nat) (retires ends clears : Bool) :
    (s.logAppend type rank sources arg retires ends clears).tmp.scDone = s.tmp.scDone := by
  unfold State.logAppend
  dsimp only
  split
  · rfl
  · split
    · rfl
    · split
      · rfl
      · split <;> rfl

/-- What a response erases (Table 10-13), before it is logged. -/
def State.responseErase (s : State) (rank : Nat) : State :=
  (if 4 ≤ rank then s.zeroErase else s.sessionErase).modTmp fun t => { t with scDone := true, exec := some rank }

/-- A response that is logged: ZEROIZE and HOLD count in the evidence first, SESSION_CLEAR has its entry at once. -/
def State.responseLogged (s : State) (rank : Nat) (srcs : BitVec 12) (thr : Bool) : State :=
  if 4 ≤ rank then s.modTmp fun t => { t with evJobs := t.evJobs ++ [.response rank srcs thr] }
  else
    let s3 := s.logAppend 1 (rank + 128 * b2n thr) srcs.toNat 0 false true
    if s.logFull then s3.modTmp fun t => { t with exec := none } else s3

theorem State.respond_eq (s : State) (rank : Nat) (srcs : BitVec 12) (thr : Bool) :
    s.respond rank srcs thr = ((s.responseErase rank).responseLogged rank srcs thr).mateFinding 1 := rfl

theorem State.responseErase_clear (s : State) (rank : Nat) : (s.responseErase rank).SessionClear := by
  have herased : (if 4 ≤ rank then s.zeroErase else s.sessionErase).SessionClear := by
    split
    · exact s.zeroErase_clear
    · exact s.sessionErase_clear
  exact herased.of_only (ps := [.tmp]) (State.modTmp_only (.refl _) _ rfl) rfl rfl rfl rfl rfl

theorem State.responseLogged_only (s : State) (rank : Nat) (srcs : BitVec 12) (thr : Bool) :
    Only [.kst, .tmp, .bkp] s (s.responseLogged rank srcs thr) :=
  have hlog := State.logAppend_only (ps := [.kst, .tmp, .bkp]) (.refl s) 1 (rank + 128 * b2n thr) srcs.toNat 0 false true false rfl
  .ite (State.modTmp_only (.refl s) _ rfl) (.ite (State.modTmp_only hlog _ rfl) hlog)

theorem State.responseLogged_scDone (s : State) (rank : Nat) (srcs : BitVec 12) (thr : Bool) :
    (s.responseLogged rank srcs thr).tmp.scDone = s.tmp.scDone := by
  unfold State.responseLogged
  split
  · rfl
  · dsimp only
    split <;> exact State.logAppend_scDone ..

/-- A destructive response leaves no key in use, and from ZEROIZE on no slot and no reserve key. -/
theorem State.respond_clears (s : State) (rank : Nat) (srcs : BitVec 12) (thr : Bool) :
    (s.respond rank srcs thr).SessionClear ∧ (s.respond rank srcs thr).tmp.scDone = true
    ∧ (4 ≤ rank → (s.respond rank srcs thr).kst.slots = [] ∧ (s.respond rank srcs thr).kst.reserve = []
      ∧ (s.respond rank srcs thr).tmp.exec = some rank) := by
  have hlogged := (s.responseErase rank).responseLogged_only rank srcs thr
  have hfound := State.mateFinding_only (ps := [.out, .status, .host, .pads, .counts, .evrQueue, .role, .mte])
    (.refl ((s.responseErase rank).responseLogged rank srcs thr)) 1 rfl
  have htmp : (s.respond rank srcs thr).tmp = ((s.responseErase rank).responseLogged rank srcs thr).tmp := hfound .tmp rfl
  have hkst : (s.respond rank srcs thr).kst = ((s.responseErase rank).responseLogged rank srcs thr).kst := hfound.kst_eq rfl rfl
  refine ⟨?_, ?_, fun hrank => ?_⟩
  · exact ((s.responseErase_clear rank).of_only hlogged rfl rfl rfl rfl rfl).of_only hfound rfl rfl rfl rfl rfl
  · rw [htmp, State.responseLogged_scDone]
    rfl
  · obtain ⟨f, invals, hzero⟩ := s.zeroErase_kst
    have herased : (s.responseErase rank).kst = s.zeroErase.kst := by
      unfold State.responseErase
      rw [if_pos hrank, State.modTmp_kst]
    have hcounted : ((s.responseErase rank).responseLogged rank srcs thr) =
        (s.responseErase rank).modTmp fun t => { t with evJobs := t.evJobs ++ [.response rank srcs thr] } := if_pos hrank
    rw [hkst, htmp, hcounted, State.modTmp_kst, herased, hzero]
    exact ⟨rfl, rfl, rfl⟩

/-- A set of a destructive rank is not empty. -/
theorem State.newFirings_ne_zero {b : BitVec 12} (hrank : 3 ≤ s.topRank (s.newFirings b)) : s.newFirings b ≠ 0 := fun h0 => by
  rw [h0, s.topRank_zero] at hrank
  exact absurd hrank (by decide)

/-- New firings of a destructive rank start its response where none executes. -/
theorem State.tamperFire_responds {b : BitVec 12} (hrank : 3 ≤ s.topRank (s.newFirings b)) (hexec : s.tmp.exec = none)
    (htest : s.tmp.bistCur = none) : ∃ w : State, ∃ thr, s.tamperFire b = w.respond (s.topRank (s.newFirings b)) (s.newFirings b) thr := by
  have hruns : (decide (3 ≤ s.topRank (s.newFirings b)) && !s.outranked (s.newFirings b)) = true := by
    unfold State.outranked
    rw [hexec, decide_eq_true hrank]
    rfl
  rw [State.tamperFire_some (State.newFirings_ne_zero hrank), s.testCounted_idle htest]
  dsimp only
  rw [if_pos hruns]
  exact ⟨_, _, rfl⟩

theorem tamperFire_clears {b : BitVec 12} (hlive : s.islandLive = true) (hrank : 3 ≤ s.topRank (s.newFirings b))
    (hexec : s.tmp.exec = none) (htest : s.tmp.bistCur = none) : Completes (.tamperFire b) s fun u =>
      u.SessionClear ∧ u.tmp.scDone = true
      ∧ (4 ≤ s.topRank (s.newFirings b) → u.kst.slots = [] ∧ u.kst.reserve = [] ∧ u.tmp.exec = some (s.topRank (s.newFirings b))) := by
  obtain ⟨w, thr, hfire⟩ := State.tamperFire_responds hrank hexec htest
  obtain ⟨hclear, hdone, hzero⟩ := w.respond_clears (s.topRank (s.newFirings b)) (s.newFirings b) thr
  rw [← hfire] at hclear hdone hzero
  have hlook : Only [.host, .pads, .counts, .evrQueue, .role, .mte, .irq, .out] (s.tamperFire b) (s.tamperFire b).mateLook.settle :=
    State.settle_only (State.mateLook_only (.refl _) rfl) rfl
  have htmp : (s.tamperFire b).mateLook.settle.tmp = (s.tamperFire b).tmp := hlook .tmp rfl
  refine completes_finish (exec_tamperFire hlive (State.newFirings_ne_zero hrank)) ⟨hclear.of_only hlook rfl rfl rfl rfl rfl, ?_, ?_⟩
  · rw [htmp, hdone]
  · rw [htmp, hlook.kst_eq rfl rfl]
    exact hzero

theorem tamperSourceCease_ends {n : Fin 12} (hfires : s.tmp.firing.getLsbD n.val = true) (hrng : n ≠ 9) (hlines : n ≠ 11) :
    Completes (.tamperSourceCease n) s fun u => u.tmp = { s.tmp with firing := s.tmp.firing &&& ~~~(1#12 <<< n.val) } :=
  completes_finish (if_pos ⟨hfires, .inl fun h => hrng (Fin.ext h), .inl fun h => hlines (Fin.ext h)⟩) (State.settle_tmp _)

theorem throttleEnd_ends (hthr : s.tmp.throttle = true) (hquiet : s.tmp.thrSrcs &&& s.tmp.firing = 0) :
    Completes .throttleEnd s fun u => u.tmp = { s.tmp with throttle := false, thrSrcs := 0 } := by
  refine completes_finish (if_pos ⟨hthr, hquiet⟩) ((State.settle_tmp _).trans ?_)
  exact State.refillAll_only (ps := [.counts, .vat, .sch, .ports]) (.refl _) rfl .tmp rfl

/-- Settles O36: a GO moves the key store through `lcAdvance_kst`, a destructive response clears it through `respond_clears`. -/
theorem lifeCycleAndTamper : Obligations.LifeCycleAndTamper := by
  unfold Obligations.LifeCycleAndTamper
  refine ⟨fun s => ⟨fun v hlive => ⟨lcTargetWrite_opens hlive v, lcGo_refused hlive, lcGo_starts hlive, lcWrites_locked hlive v⟩,
      lcWindowExpire_closes, fun t => lcFuseProgrammed_resets⟩,
    fun s => ⟨fun b hlive hnew htest hrank h8 => ?_, fun b hlive hrank hexec htest => ?_, fun n => tamperSourceCease_ends, throttleEnd_ends⟩⟩
  · refine (tamperFire_tells hlive hnew htest hrank h8).mono fun u ⟨htmp, hregs⟩ => ⟨?_, ?_⟩
    · rw [htmp, State.firingsNoted_tmp]
      rfl
    · rw [hregs, State.firingsNoted_regs]
  · exact (tamperFire_clears hlive hrank hexec htest).mono fun u ⟨⟨hlkn, hsa, hsc, hrgn, hctx⟩, hdone, hzero⟩ =>
      ⟨hdone, hlkn, hsa, hsc, hrgn, hctx, hzero⟩

end Sys2Proof.Machine
end

section
/-! What the key store keeps (R312, R313, R316-R318, R435). -/

namespace Sys2Proof.Machine

variable {s t : State}

/-! ### The oldest MTP write ends (R312, R313) -/

/-- What an MTP write puts into the MTP is a matter of the MTP alone. -/
theorem State.mtpWrite_modKst (f : Kst → Kst) : ∀ (bs : Bytes) (s : State) (a : Nat), (s.modKst f).mtpWrite a bs = (s.mtpWrite a bs).modKst f
  | [], _, _ => rfl
  | b :: bs, s, a => State.mtpWrite_modKst f bs (s.mtpPut a b) (a + 1)

theorem State.applyMtp_mtp (s : State) (j : MtpJob) : (s.applyMtp j).mtp =
    if j.kind = .eraseCopies then (s.mtpWrite j.addr j.data).eraseCopyArea.mtp else (s.mtpWrite j.addr j.data).mtp := by
  unfold State.applyMtp
  split
  · next h =>
    rw [h, if_neg (by decide)]
    exact State.takeEpoch_only (ps := [.kst]) (.refl _) j.data rfl .mtp rfl
  · next h => rw [h, if_pos rfl]
  · next _ h => rw [if_neg h]

theorem State.takeEpoch_jobs (s : State) (b : Bytes) : (s.takeEpoch b).kst.mtpJobs = s.kst.mtpJobs := by
  unfold State.takeEpoch
  split
  · rfl
  · dsimp only
    split
    · split <;> rfl
    · rfl

theorem State.applyMtp_jobs (s : State) (j : MtpJob) : (s.applyMtp j).kst.mtpJobs = s.kst.mtpJobs := by
  have hwritten : (s.mtpWrite j.addr j.data).kst = s.kst := (State.mtpWrite_only (ps := [.mtp]) (.refl s) _ _ rfl).kst_eq rfl rfl
  unfold State.applyMtp
  split
  · rw [State.takeEpoch_jobs, hwritten]
  · exact congrArg Kst.mtpJobs hwritten
  · rw [hwritten]

theorem mtpWriteDone_applies {j : MtpJob} {js : List MtpJob} (h : s.kst.mtpJobs = j :: js) : Completes .mtpWriteDone s fun u =>
    u.mtp = (if j.kind = .eraseCopies then (s.mtpWrite j.addr j.data).eraseCopyArea.mtp else (s.mtpWrite j.addr j.data).mtp)
    ∧ ∃ more, u.kst.mtpJobs = js ++ more := by
  let w := (s.modKst fun k => { k with mtpJobs := js }).applyMtp j
  let v := if j.clearsPending then w.modBkp fun b => { b with pending := false } else w
  let x := if j.endsExec then v.execEnd else v
  have hx : exec .mtpWriteDone s = finish x.lcAdvance.mateLook := by
    change execMtpWriteDone s = _
    unfold execMtpWriteDone
    rw [h]
    rfl
  have hv : Only [.bkp, .tmp] w v := .ite (State.modBkp_only (.refl w) _ rfl) (.refl w)
  have hends : Only [.bkp, .tmp] w x := .ite (State.execEnd_only hv rfl) hv
  have hadvance : x.lcAdvance.mtp = x.mtp := State.lcAdvance_only (ps := [.out, .status, .counts, .evrQueue, .slots, .kst, .uci, .mem, .lci,
    .sac, .vat, .sch, .trib, .sc, .sa, .cur, .mte]) (.refl x) rfl .mtp rfl
  have hlook : Only [.host, .pads, .counts, .evrQueue, .role, .mte, .irq, .out] x.lcAdvance x.lcAdvance.mateLook.settle :=
    State.settle_only (State.mateLook_only (.refl _) rfl) rfl
  refine completes_finish hx ⟨?_, ?_⟩
  · calc x.lcAdvance.mateLook.settle.mtp = w.mtp := (hlook .mtp rfl).trans (hadvance.trans (hends .mtp rfl))
      _ = _ := by
        rw [State.applyMtp_mtp, State.mtpWrite_modKst]
        rfl
  · obtain ⟨slots, f, invals, reserve, more, phase, hmoves, -⟩ := x.lcAdvance_kst
    have hjobs : x.kst.mtpJobs = js := by
      rw [hends.kst_eq rfl rfl, State.applyMtp_jobs]
      rfl
    exact ⟨more, by rw [hlook.kst_eq rfl rfl, hmoves, ← hjobs]⟩

/-! ### The store starts (R313, R317) -/

/-- A load of a utility context touches the cipher and the RNG. -/
theorem State.uciBegin_draws (s : State) (slot : Nat) (c : Fin 4) : Only [.rng, .uci] s (s.uciBegin slot c) := by
  unfold State.uciBegin
  split
  · exact State.modUci_only (.refl s) _ rfl
  · dsimp only
    generalize hw : State.modUci s _ = w
    have hw : Only [.rng, .uci] s w := by
      rw [← hw]
      exact State.modUci_only (.refl s) _ rfl
    split
    · next hask =>
      unfold State.rngDeliver
      exact State.modUci_only (State.rngAsk_only_of hask hw rfl) _ rfl
    · next hask =>
      unfold State.rngRefuse
      exact State.modUci_only (State.rngAsk_only_of hask hw rfl) _ rfl
    · next hask => exact State.rngAsk_only_of hask hw rfl

/-- Loads that are resumed touch regions, the cipher and the RNG; the key store they read stays. -/
theorem State.resumeLoads_draws (s : State) : Only [.out, .status, .rng, .mem, .sac, .uci] s s.resumeLoads := by
  have hregions := Only.foldl (ps := [.out, .status, .rng, .mem, .sac, .uci])
    (fun s r => match (s.rgn r).unchecked with | some n => s.regionBegin r n | none => s)
    (fun x r h => by
      split
      · exact State.regionBegin_memory h r _ rfl
      · exact h) (List.finRange 8) s (Only.refl s)
  unfold State.resumeLoads
  split
  · exact .refl s
  · dsimp only
    split
    · exact .ite (hregions.trans (Only.mono (State.uciBegin_draws _ _ _) rfl)) hregions
    · exact hregions

/-- Where no instruction waits in CHECK, none is checked. -/
theorem State.runHead_idle {r : Rid} (h : (s.ring r).waiting = false) : s.runHead r = s := by
  unfold State.runHead State.waitingHead
  rw [h]
  rfl

theorem State.runHeads_idle (h : ∀ r, (s.ring r).waiting = false) : ∀ l : List Rid, l.foldl State.runHead s = s
  | [] => rfl
  | r :: l => by rw [List.foldl_cons, State.runHead_idle (h r), State.runHeads_idle h l]

theorem State.setReady_kst (h : ∀ r, (s.ring r).waiting = false) : s.setReady.kst = { s.kst with ready := true, started := true } := by
  have hloads := (s.modKst fun k => { k with ready := true, started := true }).resumeLoads_draws
  have hidle : s.setReady = (s.modKst fun k => { k with ready := true, started := true }).resumeLoads :=
    State.runHeads_idle (fun r => by rw [State.ring_of_cur (hloads .cur rfl)]; exact h r) cmdRids
  rw [hidle, hloads.kst_eq rfl rfl, State.modKst_kst]

theorem State.startBegun_only (s : State) : Only [.counts, .mtp, .kst, .tmp, .bkp] s s.loadEpoch.finishRetire.startLog :=
  State.startLog_only (State.finishRetire_only (State.loadEpoch_only (.refl s) rfl) rfl) rfl

/-- The keys of the reserve are restored, the store is READY, and no instruction was waiting for that. -/
theorem State.startDone_kst {ps : List Area} {w : State} (h : Only ps s w) (hcur : ps.contains .cur = false)
    (hwait : ∀ (k : Fin 4) (j : Fin 12), (s.ring ⟨k, j⟩).waiting = false) :
    (w.kst.reserve.foldl State.restoreReserve w).setReady.mateLook.settle.kst =
      { (w.kst.reserve.foldl State.restoreReserve w).kst with ready := true, started := true } := by
  have hrestored := Only.foldl (ps := [.counts, .slots, .kst]) State.restoreReserve
    (fun x e hx => State.restoreReserve_only hx e rfl) w.kst.reserve w (.refl w)
  have hsame : (w.kst.reserve.foldl State.restoreReserve w).cur = s.cur := (hrestored .cur rfl).trans (h .cur hcur)
  obtain ⟨-, -, hkst, -⟩ := (w.kst.reserve.foldl State.restoreReserve w).setReady.mateLook_blocks
  rw [State.settle_kst, hkst, State.setReady_kst fun r => by rw [State.ring_of_cur hsame]; exact hwait r.eng r.ring]

section
variable (hlive : s.islandLive = true) (hnew : s.kst.started = false) (hphase : s.kst.lcPhase = none) (hmtp : s.mtpBusy = false)
  (hruns : s.lcRuns = true) (hdraws : s.delivers 0 = true)
include hlive hnew hphase hmtp hruns hdraws

/-- The conditions of a start hold. -/
theorem exec_kstStart : exec .kstStart s =
    let w := s.loadEpoch.finishRetire.startLog
    let done := fun (s : State) => (s.kst.reserve.foldl State.restoreReserve s).setReady
    if s.kst.lc ≠ 2 then mateEnd (done w)
    else match s.otp.root with
      | some root => mateEnd (done (w.startSecured root))
      | none => idle s := by
  change execKstStart s = _
  unfold execKstStart
  rw [hlive, hnew, hphase, hmtp, hruns, hdraws]
  rfl

variable (hwait : ∀ (k : Fin 4) (j : Fin 12), (s.ring ⟨k, j⟩).waiting = false)
include hwait

theorem kstStart_restores (hlc : s.kst.lc ≠ 2) : Completes .kstStart s fun u =>
    let w := s.loadEpoch.finishRetire.startLog
    u.kst = { (w.kst.reserve.foldl State.restoreReserve w).kst with ready := true, started := true } :=
  completes_finish ((exec_kstStart hlive hnew hphase hmtp hruns hdraws).trans (if_pos hlc)) (State.startDone_kst s.startBegun_only rfl hwait)

theorem kstStart_secured {root : Bytes} (hlc : s.kst.lc = 2) (hroot : s.otp.root = some root) : Completes .kstStart s fun u =>
    let w := s.loadEpoch.finishRetire.startLog.startSecured root
    u.kst = { (w.kst.reserve.foldl State.restoreReserve w).kst with ready := true, started := true } := by
  have hsecured : Only [.counts, .mtp, .slots, .kst, .tmp, .bkp] s (s.loadEpoch.finishRetire.startLog.startSecured root) :=
    State.startSecured_only (s.startBegun_only.mono rfl) root rfl
  refine completes_finish ?_ (State.startDone_kst hsecured rfl hwait)
  rw [exec_kstStart hlive hnew hphase hmtp hruns hdraws]
  dsimp only
  rw [if_neg (not_not.mpr hlc), hroot]
  rfl

end

/-! ### The root (R316) -/

/-- Asking for a root leaves the OTP, and of the key store all but the draw. -/
theorem State.askRoot_keeps (s : State) : s.askRoot.otp = s.otp ∧ ∃ d, s.askRoot.kst = { s.kst with rootDraw := d } := by
  unfold State.askRoot
  split
  · exact ⟨rfl, _, rfl⟩
  · split
    · next w bs hask =>
      have hdraw : Only [.rng] s w := State.rngAsk_only_of hask (.refl s) rfl
      refine ⟨hdraw .otp rfl, some bs, ?_⟩
      unfold State.rngDeliver
      rw [State.modKst_kst, hdraw.kst_eq rfl rfl]
    · next w _ _ hask =>
      have hdraw : Only [.rng] s w := State.rngAsk_only_of hask (.refl s) rfl
      exact ⟨hdraw .otp rfl, _, hdraw.kst_eq rfl rfl⟩

section
variable (hdue : s.rootDue = true)
include hdue

theorem rootGenerate_asks (okA okB : Bool) (h : s.kst.rootDraw = none) : Completes (.rootGenerate okA okB) s fun u =>
    u.rng = s.askRoot.rng ∧ u.otp = s.otp := by
  refine completes_finish (t := s.askRoot) ?_ ⟨State.settle_rng _, (State.settle_otp _).trans s.askRoot_keeps.1⟩
  change execRootGenerate okA okB s = _
  unfold execRootGenerate
  rw [hdue, h]
  rfl

/-- A draw in hand goes into bank A, or into bank B once A has failed. -/
theorem exec_rootGenerate {key : Bytes} (h : s.kst.rootDraw = some key) (okA okB : Bool) : exec (.rootGenerate okA okB) s =
    let chk := BitVec.ofNat 16 (crc16 0x1021 0xFFFF key)
    let s1 := s.modKst fun k => { k with rootDraw := none }
    if !s.kst.rootTriedA then
      if okA then finish (s1.modOtp fun o => { o with rootA := key, chkA := chk, validA := 0xFF })
      else finish (s1.modKst fun k => { k with rootTriedA := true }).askRoot
    else if okB then finish (s1.modOtp fun o => { o with rootB := key, chkB := chk, validB := 0xFF })
    else finish (s1.modKst fun k => { k with rootFail := true }) := by
  change execRootGenerate okA okB s = _
  unfold execRootGenerate
  rw [hdue, h]
  rfl

variable {key : Bytes} (hdraw : s.kst.rootDraw = some key)
include hdraw

theorem rootGenerate_bankA (htried : s.kst.rootTriedA = false) (okB : Bool) : Completes (.rootGenerate true okB) s fun u =>
    u.otp = { s.otp with rootA := key, chkA := BitVec.ofNat 16 (crc16 0x1021 0xFFFF key), validA := 0xFF } := by
  have hx := exec_rootGenerate hdue hdraw true okB
  rw [htried] at hx
  exact completes_finish hx (State.settle_otp _)

theorem rootGenerate_bankA_fails (htried : s.kst.rootTriedA = false) (okB : Bool) : Completes (.rootGenerate false okB) s fun u =>
    u.otp = s.otp ∧ u.kst.rootTriedA = true := by
  obtain ⟨hotp, d, hkst⟩ := ((s.modKst fun k => { k with rootDraw := none }).modKst fun k => { k with rootTriedA := true }).askRoot_keeps
  refine completes_finish ((exec_rootGenerate hdue hdraw false okB).trans ?_) ⟨(State.settle_otp _).trans hotp, ?_⟩
  · rw [htried]
    rfl
  · rw [State.settle_kst, hkst]
    rfl

theorem rootGenerate_bankB (htried : s.kst.rootTriedA = true) (okA : Bool) : Completes (.rootGenerate okA true) s fun u =>
    u.otp = { s.otp with rootB := key, chkB := BitVec.ofNat 16 (crc16 0x1021 0xFFFF key), validB := 0xFF } := by
  have hx := exec_rootGenerate hdue hdraw okA true
  rw [htried] at hx
  exact completes_finish hx (State.settle_otp _)

theorem rootGenerate_bankB_fails (htried : s.kst.rootTriedA = true) (okA : Bool) : Completes (.rootGenerate okA false) s fun u =>
    u.otp = s.otp ∧ u.kst.rootFail = true := by
  refine completes_finish (t := (s.modKst fun k => { k with rootDraw := none }).modKst fun k => { k with rootFail := true })
    ((exec_rootGenerate hdue hdraw okA false).trans ?_) ⟨State.settle_otp _, by rw [State.settle_kst]; rfl⟩
  rw [htried]
  rfl

end

/-! ### Provisioning (R318) -/

theorem exec_provGo (hlive : s.islandLive = true) (v : W32) : exec (.provGo 1 v) s = finish (s.provGo v.toNat) := by
  change execProvGo 1 v s = _
  unfold execProvGo
  rw [hlive]
  rfl

/-- A key that a persistent slot takes. -/
theorem State.installSlot_slots {n : Nat} (hn : ¬ n < 1024) (v : Slot) : (s.installSlot n v).kst.slots =
    tset default n { v with st := .live, gen := s.nextGen n, staged := none } s.kst.slots := by
  unfold State.installSlot
  rw [if_neg hn, if_neg hn]
  split <;> rfl

theorem State.installSlot_prov (s : State) (n : Nat) (v : Slot) : (s.installSlot n v).kst.prov = s.kst.prov := by
  unfold State.installSlot
  dsimp only
  split <;> split <;> rfl

theorem State.nextGen_modProv (h : s.kst.mtpJobs = []) (bs : Bytes) (n : Nat) :
    (s.modKst fun k => { k with prov := bs }).nextGen n = s.nextGen n := by
  unfold State.nextGen State.mtpView
  rw [State.modKst_kst, h]
  rfl

theorem State.provGo_refused {v : Nat} (h : s.provCan v = false) :
    s.provGo v = (s.modKst fun k => { k with prov := List.replicate 32 0 }).setBit (Reg.kst 0) 10 := by
  unfold State.provGo
  rw [h]
  rfl

theorem State.provGo_installs {v : Nat} (h : s.provCan v = true) : (s.provGo v).kst.prov = List.replicate 32 0
    ∧ (s.provGo v).kst.provChk = checkValue s.kst.prov
    ∧ (s.provGo v).kst.slots = (s.installSlot 1025 { key := s.kst.prov, attr := 0x00028F02, hw := true }).kst.slots := by
  have hidle : s.kst.mtpJobs = [] := by
    have hbusy : s.mtpBusy = false := by
      unfold State.provCan at h
      simp only [Bool.and_eq_true, Bool.not_eq_true'] at h
      obtain ⟨⟨-, hbusy⟩, -⟩ := h
      exact hbusy
    unfold State.mtpBusy at hbusy
    simpa using hbusy
  unfold State.provGo
  rw [h]
  extract_lets key s1 s2
  obtain ⟨more, hlog⟩ := (s2.modKst fun k => { k with provChk := checkValue key }).logAppend_kst 4 0 0 0 false false false
  obtain ⟨more', hqueued⟩ := (s1.installSlot 1025 { key := key, attr := 0x00028F02, hw := true }).queueEpoch_kst s.kst.epoch true false
  rw [if_pos rfl, hlog, State.modKst_kst, hqueued]
  refine ⟨s1.installSlot_prov .., rfl, ?_⟩
  dsimp only
  rw [State.installSlot_slots (by decide), State.installSlot_slots (by decide), State.nextGen_modProv hidle]
  rfl

/-- Settles O35: an MTP write through `applyMtp`, a start through `setReady_kst`, and the root and provisioning case by case. -/
theorem keysAreKept : Obligations.KeysAreKept := by
  unfold Obligations.KeysAreKept
  refine fun s => ⟨fun j js => mtpWriteDone_applies, fun hlive hnew hphase hmtp hruns hdraws hwait =>
      ⟨kstStart_restores hlive hnew hphase hmtp hruns hdraws hwait, fun root => kstStart_secured hlive hnew hphase hmtp hruns hdraws hwait⟩,
    fun hdue => ⟨fun a b => rootGenerate_asks hdue a b, fun key b hdraw htried => rootGenerate_bankA hdue hdraw htried b,
      fun key b hdraw htried => rootGenerate_bankA_fails hdue hdraw htried b, fun key a hdraw htried => rootGenerate_bankB hdue hdraw htried a,
      fun key a hdraw htried => rootGenerate_bankB_fails hdue hdraw htried a⟩,
    fun v hlive => completes_finish (exec_provGo hlive v) ?_⟩
  rw [State.settle_kst, State.settle_regs]
  cases hcan : s.provCan v.toNat with
  | false =>
    rw [State.provGo_refused hcan]
    exact ⟨rfl, fun _ => ⟨rfl, rfl⟩, fun h => absurd h Bool.false_ne_true⟩
  | true =>
    obtain ⟨hprov, hchk, hslots⟩ := State.provGo_installs hcan
    exact ⟨hprov, fun h => absurd h.symm Bool.false_ne_true, fun _ => ⟨hchk, hslots⟩⟩

end Sys2Proof.Machine
end

section
/-! Random data is drawn (R330-R333, R336), and contexts of the utility cipher are loaded (R307, R340, R344). -/

namespace Sys2Proof.Machine

variable {s t : State}

/-! ### Instances are seeded (R330-R333) -/

theorem drbgInstantiate_seeds {i : Fin 16} {e : Bytes} {w : State} (hst : s.rng.st = .startup ∨ s.rng.st = .run)
    (hnext : s.rng.nextInst = i.val) (htested : s.rng.tested = true) (hpool : s.takePool = some (e, w)) :
    let v := ((w.setDrbg i.val (Drbg.instantiate e (s.perso i.val))).modRng fun r => { r with st := .run }).serveAll
    let x := if i = 0 then v.mateTryPair else v
    Completes (.drbgInstantiate i) s fun u => u.rng = x.rng ∧ u.kst = x.kst := by
  intro v x
  have hx : exec (.drbgInstantiate i) s = finish x := by
    change execDrbgInstantiate i s = _
    unfold execDrbgInstantiate
    rw [if_pos ⟨hst, hnext, htested⟩, hpool]
  exact completes_finish hx ⟨State.settle_rng _, State.settle_kst _⟩

theorem drbgReseed_serves {i : Fin 16} {e : Bytes} {w : State} {q0 q : RngReq} {rest : List RngReq}
    (hdue : s.rng.waiting.find? (fun q => s.delivers q.inst && s.needsReseed q.inst) = some q0) (hi : q0.inst = i.val)
    (hpool : s.takePool = some (e, w)) (hfirst : firstFor i.val s.rng.waiting = some (q, rest)) :
    let g := ((w.drbg i.val).reseed e).generate q.nbytes
    let v := ((w.setDrbg i.val g.2).modRng fun r => { r with waiting := rest }).rngDeliver q.user g.1
    Completes (.drbgReseed i) s fun u => u.rng = v.serveAll.rng ∧ u.kst = v.serveAll.kst := by
  intro g v
  have hx : exec (.drbgReseed i) s = finish v.serveAll := by
    change execDrbgReseed i s = _
    unfold execDrbgReseed
    rw [hdue, hpool, hfirst]
    exact if_pos hi
  exact completes_finish hx ⟨State.settle_rng _, State.settle_kst _⟩

/-! ### The RNG fails (R336) -/

/-- What follows the failure of the RNG tells others; the RNG itself stays as the failure left it. -/
theorem State.rngFailCore_rng (s : State) (cause smp : Nat) : (s.rngFailCore cause smp).rng.st = .failed
    ∧ (s.rngFailCore cause smp).rng.cause = cause ∧ (s.rngFailCore cause smp).rng.pool = []
    ∧ (s.rngFailCore cause smp).rng.waiting = [] ∧ (s.rngFailCore cause smp).rng.drbg = Vector.replicate 16 {} := by
  have htold : ∀ x : State, ((x.refuseAll s.rng.waiting).dropDrawn.failWaits).rng = x.rng := fun x =>
    have h := State.refuseAll_only (ps := [.host, .pads, .counts, .evrQueue, .kst, .uci, .mem, .line, .cur, .role, .mte]) (.refl x) s.rng.waiting rfl
    State.failWaits_only (State.dropDrawn_only h rfl) rfl .rng rfl
  unfold State.rngFailCore
  dsimp only
  rw [htold]
  split <;> exact ⟨rfl, rfl, rfl, rfl, rfl⟩

/-- Its tamper source and what the mate logic makes of it leave the RNG failed. -/
theorem State.rngFailure_rng (s : State) (cause smp : Nat) : (s.rngFailure cause smp).rng = (s.rngFailCore cause smp).rng := by
  have hfound := State.mateFinding_only (ps := [.out, .status, .host, .pads, .counts, .evrQueue, .role, .mte])
    (.refl ((s.rngFailCore cause smp).tamperFire (1#12 <<< 9))) 1 rfl
  exact (hfound .rng rfl).trans (State.tamperFire_rng (by decide))

theorem rngFail_erases {cause : Fin 5} (smp : Fin 8) (hst : s.rng.st = .startup ∨ s.rng.st = .run) (hcause : cause ≠ 0) :
    Completes (.rngFail cause smp) s fun u => u.rng.st = .failed ∧ u.rng.cause = cause.val ∧ u.rng.pool = [] ∧ u.rng.waiting = []
      ∧ ∀ i : Fin 16, u.rng.drbg[i].inst = false := by
  obtain ⟨-, -, -, -, hrng, -⟩ := (s.rngFailure cause.val smp.val).mateLook_blocks
  obtain ⟨hfailed, hwhy, hpool, hwaiting, hdrbg⟩ := s.rngFailCore_rng cause.val smp.val
  refine completes_finish (t := (s.rngFailure cause.val smp.val).mateLook) (if_pos ⟨hst, hcause⟩) ?_
  rw [State.settle_rng, hrng, State.rngFailure_rng]
  refine ⟨hfailed, hwhy, hpool, hwaiting, fun i => ?_⟩
  rw [hdrbg, Fin.getElem_fin, Vector.getElem_replicate]

/-! ### Loads of the utility cipher (R307, R340) -/

/-- A load that fails its check only leaves its status. -/
theorem State.uciBegin_refused {slot st : Nat} {c : Fin 4} (h : s.uciCheck slot c = some st) :
    (s.uciBegin slot c).uci = { s.uci with load := none, lstatus := st } := by
  unfold State.uciBegin
  rw [h]
  rfl

/-- A load that passes its check latches the slot's key, and its draw has come or is awaited. -/
theorem State.uciBegin_latches {slot : Nat} {c : Fin 4} (h : s.uciCheck slot c = none) (hrng : s.rng.st ≠ .failed) :
    ∃ pre, (s.uciBegin slot c).uci = { s.uci with
      load := some { ctx := c, slot := slot, key := (s.slot slot).key, gen := (s.slot slot).gen, pre := pre } } := by
  unfold State.uciBegin
  rw [h]
  dsimp only
  generalize hw : State.modUci s _ = w
  have hlatched : w.uci = { s.uci with load := some { ctx := c, slot := slot, key := (s.slot slot).key, gen := (s.slot slot).gen } } := by
    rw [← hw, State.modUci_uci]
  have hruns : w.rng.st ≠ .failed := by
    rw [← hw]
    exact hrng
  split
  · next x bs hask =>
    have hkept : x.uci = w.uci := State.rngAsk_only_of (ps := [.rng]) hask (.refl w) rfl .uci rfl
    refine ⟨some bs, ?_⟩
    unfold State.rngDeliver
    rw [State.modUci_uci, hkept, hlatched]
    rfl
  · next x hask =>
    unfold State.rngAsk at hask
    rw [if_neg hruns] at hask
    split at hask <;> cases hask
  · next x hask =>
    have hkept : x.uci = w.uci := State.rngAsk_only_of (ps := [.rng]) hask (.refl w) rfl .uci rfl
    exact ⟨none, hkept.trans hlatched⟩

section
variable (hlive : s.islandLive = true) {v : W32} (hgo : natBit v.toNat 31 = true) (hfree : s.uci.load = none)
  (hwaits : s.loadWaits = false) (hdry : s.loadDry = false)
include hlive hgo hfree hwaits hdry

/-- A GO that need not wait is checked at once. -/
theorem exec_uciLoad : exec (.uciLoad 1 v) s =
    finish ((s.setReg (Reg.uci 0x200) (v.toNat % 0x2000)).uciBegin (v.toNat % 2048) ⟨v.toNat / 2048 % 4, by omega⟩) := by
  change execUciLoad 1 v s = _
  unfold execUciLoad State.uciLoadWrite
  rw [hlive, hgo, hfree, hwaits, hdry]
  rfl

theorem uciLoad_latches (hrng : s.rng.st ≠ .failed) (hcheck : s.uciCheck (v.toNat % 2048) ⟨v.toNat / 2048 % 4, by omega⟩ = none) :
    let k := s.slot (v.toNat % 2048)
    Completes (.uciLoad 1 v) s fun u => ∃ pre, u.uci = { s.uci with
      load := some { ctx := ⟨v.toNat / 2048 % 4, by omega⟩, slot := v.toNat % 2048, key := k.key, gen := k.gen, pre := pre } } := by
  refine completes_finish (exec_uciLoad hlive hgo hfree hwaits hdry) ?_
  rw [State.settle_uci]
  exact State.uciBegin_latches (s := s.setReg (Reg.uci 0x200) (v.toNat % 0x2000)) hcheck hrng

theorem uciLoad_refused {st : Nat} (hcheck : s.uciCheck (v.toNat % 2048) ⟨v.toNat / 2048 % 4, by omega⟩ = some st) :
    Completes (.uciLoad 1 v) s fun u => u.uci = { s.uci with lstatus := st } := by
  refine completes_finish (exec_uciLoad hlive hgo hfree hwaits hdry) ?_
  rw [State.settle_uci, State.uciBegin_refused (s := s.setReg (Reg.uci 0x200) (v.toNat % 0x2000)) hcheck, ← hfree]
  rfl

end

section
variable {l : UciLoad} {pre : Bytes} (hload : s.uci.load = some l) (hpre : l.pre = some pre) (hchecked : l.unchecked = false)
include hload hpre hchecked

theorem exec_uciLoadDone : exec .uciLoadDone s =
    if l.erased then finish (s.modUci fun u => { u with load := none, lstatus := 0x34 })
    else finish (s.modUci fun u => { u with
      load := none, lstatus := 0
      ctx := u.ctx.set l.ctx { loaded := true, key := l.key, slot := l.slot, gen := l.gen, pre := pre, count := 1 } }) := by
  change execUciLoadDone s = _
  unfold execUciLoadDone
  rw [hload]
  dsimp only
  rw [hpre, hchecked]
  rfl

theorem uciLoadDone_loads (hkey : l.erased = false) : Completes .uciLoadDone s fun u => u.uci = { s.uci with
    load := none, lstatus := 0
    ctx := s.uci.ctx.set l.ctx { loaded := true, key := l.key, slot := l.slot, gen := l.gen, pre := pre, count := 1 } } := by
  have hx := exec_uciLoadDone hload hpre hchecked
  rw [hkey] at hx
  exact completes_finish hx (State.settle_uci _)

theorem uciLoadDone_discards (hkey : l.erased = true) : Completes .uciLoadDone s fun u =>
    u.uci = { s.uci with load := none, lstatus := 0x34 } := by
  have hx := exec_uciLoadDone hload hpre hchecked
  rw [hkey] at hx
  exact completes_finish hx (State.settle_uci _)

end

/-- Settles O29: instances as `takePool` seeds them, a failure through `rngFailure_rng`, a load through `uciBegin_latches`. -/
theorem randomDataIsDrawn : Obligations.RandomDataIsDrawn := by
  unfold Obligations.RandomDataIsDrawn
  exact ⟨fun s => ⟨fun i e w => drbgInstantiate_seeds, fun i e w q0 q rest => drbgReseed_serves, fun cause smp => rngFail_erases smp⟩,
    fun s hlive => ⟨fun v hgo hfree hwaits hdry hrng => ⟨uciLoad_latches hlive hgo hfree hwaits hdry hrng,
      fun st => uciLoad_refused hlive hgo hfree hwaits hdry⟩,
    fun l pre hload hpre hchecked => ⟨uciLoadDone_loads hload hpre hchecked, uciLoadDone_discards hload hpre hchecked⟩⟩⟩

end Sys2Proof.Machine
end

section
/-! Every command answers, within its frame (log entry 4), and every step keeps the invariant (R434, R435). -/

namespace Sys2Proof.Machine

variable {s t : State}

/-! ### No command stops the block -/

/-- A command's outcome is a next state: neither a fault nor a refusal. -/
def Answers (r : Res) : Prop := ∃ t, r = .next t

theorem answers_issue (s : State) (r : Rid) (mop : Nat) (op : Nat → Bool) (run : State → Desc → CmdRef → State) :
    Answers (s.issue r mop op run) := by
  unfold State.issue
  split
  · exact ⟨_, rfl⟩
  · split <;> exact ⟨_, rfl⟩

theorem answers_issueKey (s : State) (r : Rid) (mop : Nat) (op : Nat → Bool) (run : State → Desc → CmdRef → State) :
    Answers (s.issueKey r mop op run) := by
  unfold State.issueKey
  split
  · exact ⟨_, rfl⟩
  · exact ⟨_, rfl⟩

theorem answers_issueWait (s : State) (r : Rid) (op : Nat → Bool) (run : State → Desc → CmdRef → State) :
    Answers (s.issueWait r op run) := by
  unfold State.issueWait
  split
  · exact ⟨_, rfl⟩
  · split <;> exact ⟨_, rfl⟩

theorem answers_vatRow (t : Tid) (sel : VInstr → Bool) (run : State → Thread → VInstr → Except Nat State) (s : State) :
    Answers (vatRow t sel run s) := by
  unfold vatRow
  dsimp only
  split
  · split
    · exact ⟨_, rfl⟩
    · split
      · split <;> exact ⟨_, rfl⟩
      · exact ⟨_, rfl⟩
  · exact ⟨_, rfl⟩

theorem answers_vatLocal (t : Tid) (sel : VInstr → Bool) (f : Thread → VInstr → Except Nat Thread) (s : State) :
    Answers (vatLocal t sel f s) := answers_vatRow ..

theorem answers_uciRequest (pf f : Fin 2) (op : Nat) (s : State) : Answers (uciRequest pf f op s) := by
  unfold uciRequest
  split
  · exact ⟨_, rfl⟩
  · split <;> exact ⟨_, rfl⟩

theorem execDkwrite_answers (r : Rid) (s : State) : Answers (execDkwrite r s) := by
  fun_cases execDkwrite
  case case3 => exact answers_issue ..
  all_goals exact ⟨_, rfl⟩

theorem execLkarmLoad_answers (r : Rid) (s : State) : Answers (execLkarmLoad r s) := by
  fun_cases execLkarmLoad
  case case3 => exact answers_issue ..
  all_goals exact ⟨_, rfl⟩

theorem execSainstInstall_answers (r : Rid) (s : State) : Answers (execSainstInstall r s) := by
  fun_cases execSainstInstall
  case case3 => exact answers_issue ..
  all_goals exact ⟨_, rfl⟩

theorem execSaretRead_answers (r : Rid) (hostErr : Bool) (s : State) : Answers (execSaretRead r hostErr s) := by
  fun_cases execSaretRead
  · exact answers_issue ..
  · exact ⟨_, rfl⟩

theorem execGcladm_answers (r : Rid) (d : HostRead) (s : State) : Answers (execGcladm r d s) := answers_issue ..

theorem execDkwriteTransferDone_answers (m : Fin 4) (d : HostRead) (s : State) : Answers (execDkwriteTransferDone m d s) := by
  fun_cases execDkwriteTransferDone <;> exact ⟨_, rfl⟩

/-- The read that times out is that of a ring's descriptor, of a page, or of a gate list (R212). -/
theorem execDmaTimeout_answers (r : Rid) (s : State) : Answers (execDmaTimeout r s) := by
  fun_cases execDmaTimeout
  · exact ⟨_, rfl⟩
  · exact execDkwriteTransferDone_answers ..
  · exact execGcladm_answers ..

/-- Every branch of every command ends in a next state. -/
theorem exec_answers (i : Instr) (s : State) : Answers (exec i s) := by
  cases i with
  | clientFrameReceive p frame pcsErr =>
    show Answers (execClientFrameReceive p frame pcsErr s); fun_cases execClientFrameReceive <;> exact ⟨_, rfl⟩
  | macControlReceive p frame => show Answers (execMacControlReceive p frame s); fun_cases execMacControlReceive <;> exact ⟨_, rfl⟩
  | pauseExpire p q => show Answers (execPauseExpire p q s); fun_cases execPauseExpire <;> exact ⟨_, rfl⟩
  | pfcRefresh p pri => show Answers (execPfcRefresh p pri s); fun_cases execPfcRefresh <;> exact ⟨_, rfl⟩
  | vatDispatch m => show Answers (execVatDispatch m s); fun_cases execVatDispatch <;> exact ⟨_, rfl⟩
  | mov t => show Answers (execMov t s); exact answers_vatLocal ..
  | movSpecial t => show Answers (execMovSpecial t s); exact answers_vatRow ..
  | add t => show Answers (execAdd t s); exact answers_vatLocal ..
  | sub t => show Answers (execSub t s); exact answers_vatLocal ..
  | and t => show Answers (execAnd t s); exact answers_vatLocal ..
  | or t => show Answers (execOr t s); exact answers_vatLocal ..
  | xor t => show Answers (execXor t s); exact answers_vatLocal ..
  | shl t => show Answers (execShl t s); exact answers_vatLocal ..
  | shr t => show Answers (execShr t s); exact answers_vatLocal ..
  | cmp t => show Answers (execCmp t s); exact answers_vatLocal ..
  | ext t => show Answers (execExt t s); exact answers_vatRow ..
  | ins t => show Answers (execIns t s); exact answers_vatRow ..
  | br t => show Answers (execBr t s); exact answers_vatLocal ..
  | brp t => show Answers (execBrp t s); exact answers_vatLocal ..
  | call t => show Answers (execCall t s); exact answers_vatLocal ..
  | ret t => show Answers (execRet t s); exact answers_vatLocal ..
  | lkp t => show Answers (execLkp t s); exact answers_vatRow ..
  | tcm t => show Answers (execTcm t s); exact answers_vatRow ..
  | att t => show Answers (execAtt t s); exact answers_vatLocal ..
  | trib t => show Answers (execTrib t s); exact answers_vatRow ..
  | cls t => show Answers (execCls t s); exact answers_vatLocal ..
  | pol t => show Answers (execPol t s); exact answers_vatRow ..
  | stmp t => show Answers (execStmp t s); exact answers_vatRow ..
  | enq t => show Answers (execEnq t s); exact answers_vatRow ..
  | drop t => show Answers (execDrop t s); exact answers_vatRow ..
  | punt t => show Answers (execPunt t s); exact answers_vatLocal ..
  | hashLookup t => show Answers (execHashLookup t s); fun_cases execHashLookup <;> exact ⟨_, rfl⟩
  | tcamSearch t => show Answers (execTcamSearch t s); fun_cases execTcamSearch <;> exact ⟨_, rfl⟩
  | policerDecide t => show Answers (execPolicerDecide t s); fun_cases execPolicerDecide <;> exact ⟨_, rfl⟩
  | issueLimit t => show Answers (execIssueLimit t s); fun_cases execIssueLimit <;> exact ⟨_, rfl⟩
  | residencyLimit t => show Answers (execResidencyLimit t s); fun_cases execResidencyLimit <;> exact ⟨_, rfl⟩
  | enqComplete t => show Answers (execEnqComplete t s); fun_cases execEnqComplete <;> exact ⟨_, rfl⟩
  | puntComplete t => show Answers (execPuntComplete t s); fun_cases execPuntComplete <;> exact ⟨_, rfl⟩
  | puntDeliver m q => show Answers (execPuntDeliver m q s); fun_cases execPuntDeliver <;> exact ⟨_, rfl⟩
  | saCacheAttach t => show Answers (execSaCacheAttach t s); fun_cases execSaCacheAttach <;> exact ⟨_, rfl⟩
  | saFetchComplete m sax => show Answers (execSaFetchComplete m sax s); fun_cases execSaFetchComplete <;> exact ⟨_, rfl⟩
  | saWritebackDone m sax => show Answers (execSaWritebackDone m sax s); fun_cases execSaWritebackDone <;> exact ⟨_, rfl⟩
  | fciTxFrame m sax => show Answers (execFciTxFrame m sax s); fun_cases execFciTxFrame <;> exact ⟨_, rfl⟩
  | fciRxFrame m sax => show Answers (execFciRxFrame m sax s); fun_cases execFciRxFrame <;> exact ⟨_, rfl⟩
  | threshFifoRead m => show Answers (execThreshFifoRead m s); fun_cases execThreshFifoRead <;> exact ⟨_, rfl⟩
  | headboxTransfer dst => show Answers (execHeadboxTransfer dst s); fun_cases execHeadboxTransfer <;> exact ⟨_, rfl⟩
  | sheetSend m => show Answers (execSheetSend m s); fun_cases execSheetSend <;> exact ⟨_, rfl⟩
  | reamBegin m => show Answers (execReamBegin m s); fun_cases execReamBegin <;> exact ⟨_, rfl⟩
  | lostSheetPeriod m => show Answers (execLostSheetPeriod m s); fun_cases execLostSheetPeriod <;> exact ⟨_, rfl⟩
  | codewordLock m rx => show Answers (execCodewordLock m rx s); fun_cases execCodewordLock <;> exact ⟨_, rfl⟩
  | laneMarkerCheck m lane o => show Answers (execLaneMarkerCheck m lane o s); fun_cases execLaneMarkerCheck <;> exact ⟨_, rfl⟩
  | sheetReceive m lanes => show Answers (execSheetReceive m lanes s); fun_cases execSheetReceive <;> exact ⟨_, rfl⟩
  | trialExhausted m k => show Answers (execTrialExhausted m k s); fun_cases execTrialExhausted <;> exact ⟨_, rfl⟩
  | defectDeclare m d => show Answers (execDefectDeclare m d s); fun_cases execDefectDeclare <;> exact ⟨_, rfl⟩
  | defectClear m d => show Answers (execDefectClear m d s); fun_cases execDefectClear <;> exact ⟨_, rfl⟩
  | dlgHello m => show Answers (execDlgHello m s); fun_cases execDlgHello <;> exact ⟨_, rfl⟩
  | dlgConfirm m => show Answers (execDlgConfirm m s); fun_cases execDlgConfirm <;> exact ⟨_, rfl⟩
  | dlgVerchk m => show Answers (execDlgVerchk m s); fun_cases execDlgVerchk <;> exact ⟨_, rfl⟩
  | dlgHostMessage m => show Answers (execDlgHostMessage m s); fun_cases execDlgHostMessage <;> exact ⟨_, rfl⟩
  | dlgReservedType m => show Answers (execDlgReservedType m s); fun_cases execDlgReservedType <;> exact ⟨_, rfl⟩
  | seqUpper m => show Answers (execSeqUpper m s); fun_cases execSeqUpper <;> exact ⟨_, rfl⟩
  | seqQuery m => show Answers (execSeqQuery m s); fun_cases execSeqQuery <;> exact ⟨_, rfl⟩
  | laneReady m => show Answers (execLaneReady m s); fun_cases execLaneReady <;> exact ⟨_, rfl⟩
  | laneUnready m => show Answers (execLaneUnready m s); fun_cases execLaneUnready <;> exact ⟨_, rfl⟩
  | dlgAck m => show Answers (execDlgAck m s); fun_cases execDlgAck <;> exact ⟨_, rfl⟩
  | dlgRetryTimeout m => show Answers (execDlgRetryTimeout m s); fun_cases execDlgRetryTimeout <;> exact ⟨_, rfl⟩
  | dlgSend pf m => show Answers (execDlgSend pf m s); fun_cases execDlgSend <;> exact ⟨_, rfl⟩
  | dlgReneg m => show Answers (execDlgReneg m s); fun_cases execDlgReneg <;> exact ⟨_, rfl⟩
  | dlgRxRelease m => show Answers (execDlgRxRelease m s); fun_cases execDlgRxRelease <;> exact ⟨_, rfl⟩
  | lnfTxEnable m => show Answers (execLnfTxEnable m s); fun_cases execLnfTxEnable <;> exact ⟨_, rfl⟩
  | lnfTxDisable m => show Answers (execLnfTxDisable m s); fun_cases execLnfTxDisable <;> exact ⟨_, rfl⟩
  | lnfRxEnable m => show Answers (execLnfRxEnable m s); fun_cases execLnfRxEnable <;> exact ⟨_, rfl⟩
  | lnfRxDisable m => show Answers (execLnfRxDisable m s); fun_cases execLnfRxDisable <;> exact ⟨_, rfl⟩
  | lnfWmDisable m => show Answers (execLnfWmDisable m s); fun_cases execLnfWmDisable <;> exact ⟨_, rfl⟩
  | laneUseWrite m v => show Answers (execLaneUseWrite m v s); fun_cases execLaneUseWrite <;> exact ⟨_, rfl⟩
  | dkwrite r => exact execDkwrite_answers r s
  | dkwriteTransferDone m d => exact execDkwriteTransferDone_answers m d s
  | dklValidationDone m => show Answers (execDklValidationDone m s); fun_cases execDklValidationDone <;> exact ⟨_, rfl⟩
  | dklClearDone m => show Answers (execDklClearDone m s); fun_cases execDklClearDone <;> exact ⟨_, rfl⟩
  | dkflipEarliest r => show Answers (execDkflipEarliest r s); exact answers_issue ..
  | dkflipAt r => show Answers (execDkflipAt r s); exact answers_issue ..
  | dkflipCancel r => show Answers (execDkflipCancel r s); exact answers_issue ..
  | dkshedShed r => show Answers (execDkshedShed r s); exact answers_issue ..
  | dkshedRestore r => show Answers (execDkshedRestore r s); exact answers_issue ..
  | shedHoldoffExpire m lane => show Answers (execShedHoldoffExpire m lane s); fun_cases execShedHoldoffExpire <;> exact ⟨_, rfl⟩
  | lkarmLoad r => exact execLkarmLoad_answers r s
  | lkarmRxon r => show Answers (execLkarmRxon r s); exact answers_issue ..
  | lkarmRxoff r => show Answers (execLkarmRxoff r s); exact answers_issue ..
  | lkarmArmReam r => show Answers (execLkarmArmReam r s); exact answers_issue ..
  | lkarmArmTime r => show Answers (execLkarmArmTime r s); exact answers_issue ..
  | lkarmCancel r => show Answers (execLkarmCancel r s); exact answers_issue ..
  | lkarmResync r => show Answers (execLkarmResync r s); exact answers_issue ..
  | lkarmHalt r => show Answers (execLkarmHalt r s); exact answers_issue ..
  | lkretire r => show Answers (execLkretire r s); exact answers_issue ..
  | sainstInstall r => exact execSainstInstall_answers r s
  | sainstUpdateLpn r => show Answers (execSainstUpdateLpn r s); exact answers_issue ..
  | sainstSetcur r => show Answers (execSainstSetcur r s); exact answers_issue ..
  | saretRead r hostErr => exact execSaretRead_answers r hostErr s
  | saretRetire r => show Answers (execSaretRetire r s); exact answers_issue ..
  | saRetireComplete m sax hostErr => show Answers (execSaRetireComplete m sax hostErr s); fun_cases execSaRetireComplete <;> exact ⟨_, rfl⟩
  | sapinPin r => show Answers (execSapinPin r s); exact answers_issue ..
  | sapinUnpin r => show Answers (execSapinUnpin r s); exact answers_issue ..
  | orphanSweepDone => show Answers (execOrphanSweepDone s); fun_cases execOrphanSweepDone <;> exact ⟨_, rfl⟩
  | kwrapin r => show Answers (execKwrapin r s); exact answers_issueKey ..
  | kstageWrapped r => show Answers (execKstageWrapped r s); exact answers_issueKey ..
  | kstageRng r => show Answers (execKstageRng r s); exact answers_issueKey ..
  | kcommit r => show Answers (execKcommit r s); exact answers_issueKey ..
  | kinval r => show Answers (execKinval r s); exact answers_issueKey ..
  | kinvalPublish => show Answers (execKinvalPublish s); fun_cases execKinvalPublish <;> exact ⟨_, rfl⟩
  | slotInvalidationDone slot => show Answers (execSlotInvalidationDone slot s); fun_cases execSlotInvalidationDone <;> exact ⟨_, rfl⟩
  | kderive r => show Answers (execKderive r s); exact answers_issueKey ..
  | attest r => show Answers (execAttest r s); exact answers_issueKey ..
  | kstOpComplete ix hostErr => show Answers (execKstOpComplete ix hostErr s); fun_cases execKstOpComplete <;> exact ⟨_, rfl⟩
  | mtpWriteDone => show Answers (execMtpWriteDone s); fun_cases execMtpWriteDone <;> exact ⟨_, rfl⟩
  | kstStart => show Answers (execKstStart s); fun_cases execKstStart <;> exact ⟨_, rfl⟩
  | rootGenerate okA okB => show Answers (execRootGenerate okA okB s); fun_cases execRootGenerate <;> exact ⟨_, rfl⟩
  | provGo pf v => show Answers (execProvGo pf v s); fun_cases execProvGo <;> exact ⟨_, rfl⟩
  | lcTargetWrite pf v => show Answers (execLcTargetWrite pf v s); fun_cases execLcTargetWrite <;> exact ⟨_, rfl⟩
  | lcWindowExpire => show Answers (execLcWindowExpire s); fun_cases execLcWindowExpire <;> exact ⟨_, rfl⟩
  | lcGo pf v => show Answers (execLcGo pf v s); fun_cases execLcGo <;> exact ⟨_, rfl⟩
  | lcFuseProgrammed => show Answers (execLcFuseProgrammed s); fun_cases execLcFuseProgrammed <;> exact ⟨_, rfl⟩
  | samplerWindowEnd k bits => show Answers (execSamplerWindowEnd k bits s); fun_cases execSamplerWindowEnd <;> exact ⟨_, rfl⟩
  | conditionerBlock bits => show Answers (execConditionerBlock bits s); fun_cases execConditionerBlock <;> exact ⟨_, rfl⟩
  | rngFail cause smp => show Answers (execRngFail cause smp s); fun_cases execRngFail <;> exact ⟨_, rfl⟩
  | drbgInstantiate ix => show Answers (execDrbgInstantiate ix s); fun_cases execDrbgInstantiate <;> exact ⟨_, rfl⟩
  | drbgReseed ix => show Answers (execDrbgReseed ix s); fun_cases execDrbgReseed <;> exact ⟨_, rfl⟩
  | rngBufferRefill ix => show Answers (execRngBufferRefill ix s); fun_cases execRngBufferRefill <;> exact ⟨_, rfl⟩
  | rngRestart pf => show Answers (execRngRestart pf s); fun_cases execRngRestart <;> exact ⟨_, rfl⟩
  | rngTestMode pf mode => show Answers (execRngTestMode pf mode s); fun_cases execRngTestMode <;> exact ⟨_, rfl⟩
  | rngOutStatusRead pf ix => show Answers (execRngOutStatusRead pf ix s); fun_cases execRngOutStatusRead <;> exact ⟨_, rfl⟩
  | rngOutDataRead pf ix => show Answers (execRngOutDataRead pf ix s); fun_cases execRngOutDataRead <;> exact ⟨_, rfl⟩
  | rngRawRead pf => show Answers (execRngRawRead pf s); fun_cases execRngRawRead <;> exact ⟨_, rfl⟩
  | uciLoad pf v => show Answers (execUciLoad pf v s); fun_cases execUciLoad <;> exact ⟨_, rfl⟩
  | uciLoadDone => show Answers (execUciLoadDone s); fun_cases execUciLoadDone <;> exact ⟨_, rfl⟩
  | uciEnc pf f => show Answers (execUciEnc pf f s); exact answers_uciRequest ..
  | uciDec pf f => show Answers (execUciDec pf f s); exact answers_uciRequest ..
  | uciNonce pf f => show Answers (execUciNonce pf f s); exact answers_uciRequest ..
  | uciErase pf f => show Answers (execUciErase pf f s); exact answers_uciRequest ..
  | uciRequestDone f src errAt => show Answers (execUciRequestDone f src errAt s); fun_cases execUciRequestDone <;> exact ⟨_, rfl⟩
  | memTrain pf c => show Answers (execMemTrain pf c s); fun_cases execMemTrain <;> exact ⟨_, rfl⟩
  | memTrainDone c failStep => show Answers (execMemTrainDone c failStep s); fun_cases execMemTrainDone <;> exact ⟨_, rfl⟩
  | memTrackFail c => show Answers (execMemTrackFail c s); fun_cases execMemTrackFail <;> exact ⟨_, rfl⟩
  | memRegionLoad pf r v => show Answers (execMemRegionLoad pf r v s); fun_cases execMemRegionLoad <;> exact ⟨_, rfl⟩
  | memRegionUnload pf r => show Answers (execMemRegionUnload pf r s); fun_cases execMemRegionUnload <;> exact ⟨_, rfl⟩
  | memRegionReady r => show Answers (execMemRegionReady r s); fun_cases execMemRegionReady <;> exact ⟨_, rfl⟩
  | memLineRead c => show Answers (execMemLineRead c s); fun_cases execMemLineRead <;> exact ⟨_, rfl⟩
  | memReadDone c o => show Answers (execMemReadDone c o s); fun_cases execMemReadDone <;> exact ⟨_, rfl⟩
  | memLineWrite c o => show Answers (execMemLineWrite c o s); fun_cases execMemLineWrite <;> exact ⟨_, rfl⟩
  | pageRewriteDone c bad => show Answers (execPageRewriteDone c bad s); fun_cases execPageRewriteDone <;> exact ⟨_, rfl⟩
  | memWriteAck c => show Answers (execMemWriteAck c s); fun_cases execMemWriteAck <;> exact ⟨_, rfl⟩
  | memWindowRead pf => show Answers (execMemWindowRead pf s); fun_cases execMemWindowRead <;> exact ⟨_, rfl⟩
  | memWindowWrite pf => show Answers (execMemWindowWrite pf s); fun_cases execMemWindowWrite <;> exact ⟨_, rfl⟩
  | scrubRead c o => show Answers (execScrubRead c o s); fun_cases execScrubRead <;> exact ⟨_, rfl⟩
  | laneModeWrite n mode => show Answers (execLaneModeWrite n mode s); fun_cases execLaneModeWrite <;> exact ⟨_, rfl⟩
  | txLeaveIdle n => show Answers (execTxLeaveIdle n s); fun_cases execTxLeaveIdle <;> exact ⟨_, rfl⟩
  | txEnterIdle n => show Answers (execTxEnterIdle n s); fun_cases execTxEnterIdle <;> exact ⟨_, rfl⟩
  | trainingBurstEnd n => show Answers (execTrainingBurstEnd n s); fun_cases execTrainingBurstEnd <;> exact ⟨_, rfl⟩
  | sigDetChange n up => show Answers (execSigDetChange n up s); fun_cases execSigDetChange <;> exact ⟨_, rfl⟩
  | cdrLock n => show Answers (execCdrLock n s); fun_cases execCdrLock <;> exact ⟨_, rfl⟩
  | fomWindowEnd n fom converged => show Answers (execFomWindowEnd n fom converged s); fun_cases execFomWindowEnd <;> exact ⟨_, rfl⟩
  | adaptTimeout n => show Answers (execAdaptTimeout n s); fun_cases execAdaptTimeout <;> exact ⟨_, rfl⟩
  | eyeScanStart n v => show Answers (execEyeScanStart n v s); fun_cases execEyeScanStart <;> exact ⟨_, rfl⟩
  | eyeScanDone n count => show Answers (execEyeScanDone n count s); fun_cases execEyeScanDone <;> exact ⟨_, rfl⟩
  | feltSlotReceive c0 c1 c2 c3 => show Answers (execFeltSlotReceive c0 c1 c2 c3 s); fun_cases execFeltSlotReceive <;> exact ⟨_, rfl⟩
  | feltFifoError => show Answers (execFeltFifoError s); fun_cases execFeltFifoError <;> exact ⟨_, rfl⟩
  | mateActInChange high => show Answers (execMateActInChange high s); fun_cases execMateActInChange <;> exact ⟨_, rfl⟩
  | claimTimerExpire => show Answers (execClaimTimerExpire s); fun_cases execClaimTimerExpire <;> exact ⟨_, rfl⟩
  | releasingExpire => show Answers (execReleasingExpire s); fun_cases execReleasingExpire <;> exact ⟨_, rfl⟩
  | actReqWrite v => show Answers (execActReqWrite v s); fun_cases execActReqWrite <;> exact ⟨_, rfl⟩
  | mteEnWrite v => show Answers (execMteEnWrite v s); fun_cases execMteEnWrite <;> exact ⟨_, rfl⟩
  | mateSwitch => show Answers (execMateSwitch s); fun_cases execMateSwitch <;> exact ⟨_, rfl⟩
  | mateClrDiverged => show Answers (execMateClrDiverged s); fun_cases execMateClrDiverged <;> exact ⟨_, rfl⟩
  | mateSelftest => show Answers (execMateSelftest s); fun_cases execMateSelftest <;> exact ⟨_, rfl⟩
  | selftestPassDone ok => show Answers (execSelftestPassDone ok s); fun_cases execSelftestPassDone <;> exact ⟨_, rfl⟩
  | heartbeatSend => show Answers (execHeartbeatSend s); fun_cases execHeartbeatSend <;> exact ⟨_, rfl⟩
  | peerSilent => show Answers (execPeerSilent s); fun_cases execPeerSilent <;> exact ⟨_, rfl⟩
  | freshExpire => show Answers (execFreshExpire s); fun_cases execFreshExpire <;> exact ⟨_, rfl⟩
  | healthSend => show Answers (execHealthSend s); fun_cases execHealthSend <;> exact ⟨_, rfl⟩
  | timeFrameSend => show Answers (execTimeFrameSend s); fun_cases execTimeFrameSend <;> exact ⟨_, rfl⟩
  | oneSidedDefect m bit => show Answers (execOneSidedDefect m bit s); fun_cases execOneSidedDefect <;> exact ⟨_, rfl⟩
  | reclaimTimerExpire => show Answers (execReclaimTimerExpire s); fun_cases execReclaimTimerExpire <;> exact ⟨_, rfl⟩
  | feltHello => show Answers (execFeltHello s); fun_cases execFeltHello <;> exact ⟨_, rfl⟩
  | feltConfirm => show Answers (execFeltConfirm s); fun_cases execFeltConfirm <;> exact ⟨_, rfl⟩
  | feltDelta => show Answers (execFeltDelta s); fun_cases execFeltDelta <;> exact ⟨_, rfl⟩
  | feltSnap => show Answers (execFeltSnap s); fun_cases execFeltSnap <;> exact ⟨_, rfl⟩
  | feltSnapEnd => show Answers (execFeltSnapEnd s); fun_cases execFeltSnapEnd <;> exact ⟨_, rfl⟩
  | feltDack => show Answers (execFeltDack s); fun_cases execFeltDack <;> exact ⟨_, rfl⟩
  | feltDigest => show Answers (execFeltDigest s); fun_cases execFeltDigest <;> exact ⟨_, rfl⟩
  | feltCkpt => show Answers (execFeltCkpt s); fun_cases execFeltCkpt <;> exact ⟨_, rfl⟩
  | feltHealth => show Answers (execFeltHealth s); fun_cases execFeltHealth <;> exact ⟨_, rfl⟩
  | feltTime => show Answers (execFeltTime s); fun_cases execFeltTime <;> exact ⟨_, rfl⟩
  | feltReq => show Answers (execFeltReq s); fun_cases execFeltReq <;> exact ⟨_, rfl⟩
  | feltRelease => show Answers (execFeltRelease s); fun_cases execFeltRelease <;> exact ⟨_, rfl⟩
  | feltStale => show Answers (execFeltStale s); fun_cases execFeltStale <;> exact ⟨_, rfl⟩
  | vsecFeedLost b => show Answers (execVsecFeedLost b s); fun_cases execVsecFeedLost <;> exact ⟨_, rfl⟩
  | vsecFeedGood b => show Answers (execVsecFeedGood b s); fun_cases execVsecFeedGood <;> exact ⟨_, rfl⟩
  | tamperFire src => show Answers (execTamperFire src s); fun_cases execTamperFire <;> exact ⟨_, rfl⟩
  | tamperSourceCease n => show Answers (execTamperSourceCease n s); fun_cases execTamperSourceCease <;> exact ⟨_, rfl⟩
  | throttleEnd => show Answers (execThrottleEnd s); fun_cases execThrottleEnd <;> exact ⟨_, rfl⟩
  | holdEngage => show Answers (execHoldEngage s); fun_cases execHoldEngage <;> exact ⟨_, rfl⟩
  | evidenceIncrementDone => show Answers (execEvidenceIncrementDone s); fun_cases execEvidenceIncrementDone <;> exact ⟨_, rfl⟩
  | tamperBist pf v => show Answers (execTamperBist pf v s); fun_cases execTamperBist <;> exact ⟨_, rfl⟩
  | bistStimulusEnd fired ceased => show Answers (execBistStimulusEnd fired ceased s); fun_cases execBistStimulusEnd <;> exact ⟨_, rfl⟩
  | fuseTgtWrite pf v => show Answers (execFuseTgtWrite pf v s); fun_cases execFuseTgtWrite <;> exact ⟨_, rfl⟩
  | fuseWindowExpire => show Answers (execFuseWindowExpire s); fun_cases execFuseWindowExpire <;> exact ⟨_, rfl⟩
  | fuseDisableGo pf v => show Answers (execFuseDisableGo pf v s); fun_cases execFuseDisableGo <;> exact ⟨_, rfl⟩
  | fuseDisableDone => show Answers (execFuseDisableDone s); fun_cases execFuseDisableDone <;> exact ⟨_, rfl⟩
  | backupWake fires => show Answers (execBackupWake fires s); fun_cases execBackupWake <;> exact ⟨_, rfl⟩
  | powerOnReset assert => show Answers (execPowerOnReset assert s); fun_cases execPowerOnReset <;> exact ⟨_, rfl⟩
  | railDrop => show Answers (execRailDrop s); fun_cases execRailDrop <;> exact ⟨_, rfl⟩
  | resetPin => show Answers (execResetPin s); fun_cases execResetPin <;> exact ⟨_, rfl⟩
  | perst => show Answers (execPerst s); fun_cases execPerst <;> exact ⟨_, rfl⟩
  | swColdReset pf v => show Answers (execSwColdReset pf v s); fun_cases execSwColdReset <;> exact ⟨_, rfl⟩
  | swWarmReset pf v => show Answers (execSwWarmReset pf v s); fun_cases execSwWarmReset <;> exact ⟨_, rfl⟩
  | millReset pf m hold key => show Answers (execMillReset pf m hold key s); fun_cases execMillReset <;> exact ⟨_, rfl⟩
  | functionLevelReset f => show Answers (execFunctionLevelReset f s); fun_cases execFunctionLevelReset <;> exact ⟨_, rfl⟩
  | clockLoss d => show Answers (execClockLoss d s); fun_cases execClockLoss <;> exact ⟨_, rfl⟩
  | trimLoadDone ok => show Answers (execTrimLoadDone ok s); fun_cases execTrimLoadDone <;> exact ⟨_, rfl⟩
  | domainRelease => show Answers (execDomainRelease s); fun_cases execDomainRelease <;> exact ⟨_, rfl⟩
  | bootVerifyDone image => show Answers (execBootVerifyDone image s); fun_cases execBootVerifyDone <;> exact ⟨_, rfl⟩
  | ringDoorbell pf r v => show Answers (execRingDoorbell pf r v s); fun_cases execRingDoorbell <;> exact ⟨_, rfl⟩
  | ringEnable pf r => show Answers (execRingEnable pf r s); fun_cases execRingEnable <;> exact ⟨_, rfl⟩
  | ringDisable pf r => show Answers (execRingDisable pf r s); fun_cases execRingDisable <;> exact ⟨_, rfl⟩
  | abiSelect pf f v => show Answers (execAbiSelect pf f v s); fun_cases execAbiSelect <;> exact ⟨_, rfl⟩
  | descriptorFetch r d => show Answers (execDescriptorFetch r d s); fun_cases execDescriptorFetch <;> exact ⟨_, rfl⟩
  | dmaTimeout r => exact execDmaTimeout_answers r s
  | batchStart r => show Answers (execBatchStart r s); fun_cases execBatchStart <;> exact ⟨_, rfl⟩
  | curApplyDone k => show Answers (execCurApplyDone k s); fun_cases execCurApplyDone <;> exact ⟨_, rfl⟩
  | completionRecordWrite r => show Answers (execCompletionRecordWrite r s); fun_cases execCompletionRecordWrite <;> exact ⟨_, rfl⟩
  | cqHeadWrite pf r v => show Answers (execCqHeadWrite pf r v s); fun_cases execCqHeadWrite <;> exact ⟨_, rfl⟩
  | gcladm r d => exact execGcladm_answers r d s
  | gclgo r => show Answers (execGclgo r s); exact answers_issue ..
  | gateListStart p => show Answers (execGateListStart p s); fun_cases execGateListStart <;> exact ⟨_, rfl⟩
  | gateEntryChange p => show Answers (execGateEntryChange p s); fun_cases execGateEntryChange <;> exact ⟨_, rfl⟩
  | shpset r => show Answers (execShpset r s); exact answers_issue ..
  | polset r => show Answers (execPolset r s); exact answers_issue ..
  | qcfgActivate r => show Answers (execQcfgActivate r s); exact answers_issue ..
  | qcfgDeactivate r => show Answers (execQcfgDeactivate r s); exact answers_issue ..
  | qcfgUpdate r => show Answers (execQcfgUpdate r s); exact answers_issue ..
  | qcfgMoveDrain r => show Answers (execQcfgMoveDrain r s); exact answers_issue ..
  | qcfgMoveFlush r => show Answers (execQcfgMoveFlush r s); exact answers_issue ..
  | moveQueueEmpty trib => show Answers (execMoveQueueEmpty trib s); fun_cases execMoveQueueEmpty <;> exact ⟨_, rfl⟩
  | egressFrameStart p => show Answers (execEgressFrameStart p s); fun_cases execEgressFrameStart <;> exact ⟨_, rfl⟩
  | egressFrameEnd p => show Answers (execEgressFrameEnd p s); fun_cases execEgressFrameEnd <;> exact ⟨_, rfl⟩
  | tbstepAbs r => show Answers (execTbstepAbs r s); exact answers_issue ..
  | tbstepRel r => show Answers (execTbstepRel r s); exact answers_issue ..
  | tbservoGains r => show Answers (execTbservoGains r s); exact answers_issue ..
  | tbservoOffset r => show Answers (execTbservoOffset r s); exact answers_issue ..
  | tbservoEnable r => show Answers (execTbservoEnable r s); exact answers_issue ..
  | tbservoDisable r => show Answers (execTbservoDisable r s); exact answers_issue ..
  | servoInterval b => show Answers (execServoInterval b s); fun_cases execServoInterval <;> exact ⟨_, rfl⟩
  | tbRunSet b => show Answers (execTbRunSet b s); fun_cases execTbRunSet <;> exact ⟨_, rfl⟩
  | tbRunClear b => show Answers (execTbRunClear b s); fun_cases execTbRunClear <;> exact ⟨_, rfl⟩
  | tbRead b => show Answers (execTbRead b s); fun_cases execTbRead <;> exact ⟨_, rfl⟩
  | trigset r => show Answers (execTrigset r s); exact answers_issue ..
  | triggerEdge k => show Answers (execTriggerEdge k s); fun_cases execTriggerEdge <;> exact ⟨_, rfl⟩
  | ppsEdge => show Answers (execPpsEdge s); fun_cases execPpsEdge <;> exact ⟨_, rfl⟩
  | captureEdge k rising => show Answers (execCaptureEdge k rising s); fun_cases execCaptureEdge <;> exact ⟨_, rfl⟩
  | stampQueueRead q => show Answers (execStampQueueRead q s); fun_cases execStampQueueRead <;> exact ⟨_, rfl⟩
  | tcEntryExpire table ix => show Answers (execTcEntryExpire table ix s); fun_cases execTcEntryExpire <;> exact ⟨_, rfl⟩
  | waittTime r => show Answers (execWaittTime r s); exact answers_issueWait ..
  | waittReam r => show Answers (execWaittReam r s); exact answers_issueWait ..
  | waittRelease r => show Answers (execWaittRelease r s); fun_cases execWaittRelease <;> exact ⟨_, rfl⟩
  | waittTimeout r => show Answers (execWaittTimeout r s); fun_cases execWaittTimeout <;> exact ⟨_, rfl⟩
  | fence r => show Answers (execFence r s); exact answers_issue ..
  | fenceDone r => show Answers (execFenceDone r s); fun_cases execFenceDone <;> exact ⟨_, rfl⟩
  | epochRead r => show Answers (execEpochRead r s); exact answers_issue ..
  | epochAssert r => show Answers (execEpochAssert r s); exact answers_issue ..
  | notify r => show Answers (execNotify r s); exact answers_issue ..
  | vatClusterRun m c => show Answers (execVatClusterRun m c s); fun_cases execVatClusterRun <;> exact ⟨_, rfl⟩
  | vatClusterStop m c => show Answers (execVatClusterStop m c s); fun_cases execVatClusterStop <;> exact ⟨_, rfl⟩
  | vatClusterIdle m c => show Answers (execVatClusterIdle m c s); fun_cases execVatClusterIdle <;> exact ⟨_, rfl⟩
  | htEntryWrite m entry => show Answers (execHtEntryWrite m entry s); fun_cases execHtEntryWrite <;> exact ⟨_, rfl⟩
  | htEntryRead m entry => show Answers (execHtEntryRead m entry s); fun_cases execHtEntryRead <;> exact ⟨_, rfl⟩
  | htOpDone m => show Answers (execHtOpDone m s); fun_cases execHtOpDone <;> exact ⟨_, rfl⟩
  | tcamEntryWrite m entry => show Answers (execTcamEntryWrite m entry s); fun_cases execTcamEntryWrite <;> exact ⟨_, rfl⟩
  | tcamEntryRead m entry => show Answers (execTcamEntryRead m entry s); fun_cases execTcamEntryRead <;> exact ⟨_, rfl⟩
  | tcamOpDone m => show Answers (execTcamOpDone m s); fun_cases execTcamOpDone <;> exact ⟨_, rfl⟩
  | pmcClear b => show Answers (execPmcClear b s); fun_cases execPmcClear <;> exact ⟨_, rfl⟩
  | pmcGather => show Answers (execPmcGather s); fun_cases execPmcGather <;> exact ⟨_, rfl⟩
  | gatherDone => show Answers (execGatherDone s); fun_cases execGatherDone <;> exact ⟨_, rfl⟩
  | periodicGather => show Answers (execPeriodicGather s); fun_cases execPeriodicGather <;> exact ⟨_, rfl⟩
  | evrArm => show Answers (execEvrArm s); fun_cases execEvrArm <;> exact ⟨_, rfl⟩
  | evrRecordWrite => show Answers (execEvrRecordWrite s); fun_cases execEvrRecordWrite <;> exact ⟨_, rfl⟩
  | evrSlotRead last k => show Answers (execEvrSlotRead last k s); fun_cases execEvrSlotRead <;> exact ⟨_, rfl⟩
  | wideRegisterRead pf addr => show Answers (execWideRegisterRead pf addr s); fun_cases execWideRegisterRead <;> exact ⟨_, rfl⟩
  | msixUnmask v => show Answers (execMsixUnmask v s); fun_cases execMsixUnmask <;> exact ⟨_, rfl⟩
  | i2cWrite bytes => show Answers (execI2cWrite bytes s); fun_cases execI2cWrite <;> exact ⟨_, rfl⟩
  | i2cRead n => show Answers (execI2cRead n s); fun_cases execI2cRead <;> exact ⟨_, rfl⟩
  | registerWrite pf addr v => show Answers (execRegisterWrite pf addr v s); fun_cases execRegisterWrite <;> exact ⟨_, rfl⟩
  | vbatChange v => show Answers (execVbatChange v s); fun_cases execVbatChange <;> exact ⟨_, rfl⟩
  | selftestFailure => show Answers (execSelftestFailure s); fun_cases execSelftestFailure <;> exact ⟨_, rfl⟩
  | rngRawWord bits => show Answers (execRngRawWord bits s); fun_cases execRngRawWord <;> exact ⟨_, rfl⟩
  | debugAccess line w o => show Answers (execDebugAccess line w o s); fun_cases execDebugAccess <;> exact ⟨_, rfl⟩

/-- Settles O3: every command answers, and `exec_only` is its frame. -/
theorem commandsKeepToTheirAreas : Obligations.CommandsKeepToTheirAreas := by
  unfold Obligations.CommandsKeepToTheirAreas
  intro i s
  obtain ⟨t, ht⟩ := exec_answers i s
  exact ⟨t, ht, exec_only i s t ht⟩

/-! ### What every step keeps -/

/-- Settles O1: the front of a queue that is not empty is what `step` runs. -/
theorem stepTakesFront : Obligations.StepTakesFront := by
  unfold Obligations.StepTakesFront
  exact fun s c cs h => step_of_cons h

/-- The two promises are among no command's areas. -/
theorem touches_spares_promises (i : Instr) : (touches i).contains .canon = false ∧ (touches i).contains .fuses = false := by
  cases i <;> exact ⟨rfl, rfl⟩

/-- Every step keeps both promises: canonical stores stay canonical, and what is programmed stays programmed. -/
theorem step_keeps_promises (h : step s = .next t) : (s.canonical = true → t.canonical = true) ∧ s.otp.Keeps t.otp := by
  cases hq : s.pending with
  | nil =>
    obtain rfl : s.tick = t := Host.Outcome.next.inj ((step_of_empty hq).symm.trans h)
    have htick : Only [.clock, .timeBases, .tmp] s s.tick := State.tick_only (.refl s) rfl
    exact ⟨htick .canon rfl, htick .fuses rfl⟩
  | cons c cs =>
    have hexec := exec_only c _ t ((step_of_cons hq).symm.trans h)
    obtain ⟨hcanon, hfuses⟩ := touches_spares_promises c
    exact ⟨hexec .canon hcanon, hexec .fuses hfuses⟩

/-- Settles O4: after reset the stores are empty and no evidence is counted. -/
theorem resetMeetsInvariant : Obligations.ResetMeetsInvariant := by
  unfold Obligations.ResetMeetsInvariant State.Inv
  exact ⟨rfl, Nat.zero_le _⟩

/-- Settles O5: canonical form is one promise of every step, the bound on the evidence counter is part of the other. -/
theorem stepsKeepInvariant : Obligations.StepsKeepInvariant := by
  unfold Obligations.StepsKeepInvariant State.Inv
  rintro s t ⟨hcanon, hevidence⟩ hstep
  obtain ⟨hkept, -, -, -, -, -, hcount, -⟩ := step_keeps_promises hstep
  exact ⟨hkept hcanon, (hcount hevidence).2⟩

end Sys2Proof.Machine
end

section
/-! The random number generator's samples, the host's view of it, and the utility cipher (R326 to R344). -/

namespace Sys2Proof.Machine

variable {s : State}

/-! ### Windows of samples (R328, R329) -/

/-- The health tests look at a window of sampler `k` that ends now. -/
def Rng.looksAt (r : Rng) (k : Fin 8) : Bool :=
  (decide (r.st = .startup) && decide (2 ≤ r.samplers[k].windows) || decide (r.st = .run)) && r.smpEn.getLsbD k.val

/-- The figures that a window leaves with its sampler. -/
def Rng.figures (r : Rng) (k : Fin 8) (w : List Bool) : Sampler :=
  let x := r.samplers[k]
  { lastBit := w.getLast?, run := if r.looksAt k then (longestRep x.lastBit x.run w 0).2 else 0, windows := x.windows + 1
    bias := BitVec.ofInt 16 (windowStat (w.countP id)), corr := BitVec.ofInt 16 (windowStat (agreements x.lastBit w)), prbs := x.prbs }

/-- The state once a window's figures are kept, and a warning given where they pass their limits. -/
def State.windowKept (s : State) (k : Fin 8) (w : List Bool) : State :=
  let x := s.rng.samplers[k]
  let s1 := s.modRng fun r => { r with samplers := r.samplers.set k (s.rng.figures k w) }
  if decide (s.rng.biasTh < (windowStat (w.countP id)).natAbs) || decide (s.rng.corrTh < (windowStat (agreements x.lastBit w)).natAbs)
  then (s1.setBit (Reg.rng 0x60) k.val).countDev 0xA 1 k.val else s1

theorem State.windowKept_rng (s : State) (k : Fin 8) (w : List Bool) :
    (s.windowKept k w).rng = { s.rng with samplers := s.rng.samplers.set k (s.rng.figures k w) } := by
  unfold State.windowKept
  dsimp only
  split
  · exact State.countDev_only (ps := [.settings, .status, .counts]) (State.setBit_only (.refl _) _ _ _ (.inl rfl) (.inl rfl)) _ _ _ _ rfl
      .rng rfl
  · rfl

theorem Rng.looksAt_iff (r : Rng) (k : Fin 8) :
    r.looksAt k = true ↔ (r.st = .run ∨ r.st = .startup ∧ 2 ≤ r.samplers[k].windows) ∧ r.smpEn.getLsbD k.val = true := by
  simp [Rng.looksAt, or_comm]

/-- Outside TEST the samples are the sampler's own. -/
theorem State.windowBits_own (htest : s.rng.st ≠ .test) (k : Fin 8) (bits : List Bool) :
    s.windowBits k bits = (bits, s.rng.samplers[k].prbs) := if_neg fun h => htest h.1

theorem execSamplerWindowEnd_own {bits : List Bool} (k : Fin 8) (hlen : bits.length = 1024) (hst : s.rng.st ≠ .reset)
    (htest : s.rng.st ≠ .test) : execSamplerWindowEnd k bits s =
      if !s.rng.looksAt k then finish (s.windowKept k bits)
      else if s.rng.rct ≤ (longestRep s.rng.samplers[k].lastBit s.rng.samplers[k].run bits 0).1 then
        mateEnd ((s.windowKept k bits).rngFailure 1 k.val)
      else if s.rng.apt ≤ bits.countP (fun b => decide (some b = bits.head?)) then mateEnd ((s.windowKept k bits).rngFailure 2 k.val)
      else finish (s.windowKept k bits) := by
  unfold execSamplerWindowEnd
  rw [if_pos ⟨hst, hlen⟩, s.windowBits_own htest]
  rfl

theorem samplerWindowEnd_keeps {bits : List Bool} {k : Fin 8} (hlen : bits.length = 1024) (hst : s.rng.st ≠ .reset)
    (htest : s.rng.st ≠ .test)
    (hpass : s.rng.looksAt k = true → (longestRep s.rng.samplers[k].lastBit s.rng.samplers[k].run bits 0).1 < s.rng.rct
      ∧ bits.countP (fun b => decide (some b = bits.head?)) < s.rng.apt) :
    Completes (.samplerWindowEnd k bits) s fun u => u.rng = { s.rng with samplers := s.rng.samplers.set k (s.rng.figures k bits) } := by
  refine completes_finish (t := s.windowKept k bits) ?_ ((State.settle_rng _).trans (s.windowKept_rng k bits))
  refine (execSamplerWindowEnd_own k hlen hst htest).trans ?_
  cases hlook : s.rng.looksAt k with
  | false => rfl
  | true =>
    obtain ⟨hrct, hapt⟩ := hpass hlook
    rw [Bool.not_true, if_neg Bool.false_ne_true, if_neg (Nat.not_le.mpr hrct), if_neg (Nat.not_le.mpr hapt)]

theorem State.rngFailCore_smp (s : State) (cause smp : Nat) (hcause : cause = 1 ∨ cause = 2) : (s.rngFailCore cause smp).rng.smp = smp := by
  have htold : ∀ x : State, ((x.refuseAll s.rng.waiting).dropDrawn.failWaits).rng = x.rng := fun x =>
    have h := State.refuseAll_only (ps := [.host, .pads, .counts, .evrQueue, .kst, .uci, .mem, .line, .cur, .role, .mte]) (.refl x) s.rng.waiting rfl
    State.failWaits_only (State.dropDrawn_only h rfl) rfl .rng rfl
  unfold State.rngFailCore
  dsimp only
  rw [htold, if_pos hcause]
  exact if_pos hcause

theorem samplerWindowEnd_fails {bits : List Bool} {k : Fin 8} (hlen : bits.length = 1024) (hst : s.rng.st ≠ .reset)
    (htest : s.rng.st ≠ .test) (hlook : s.rng.looksAt k = true)
    (hrct : s.rng.rct ≤ (longestRep s.rng.samplers[k].lastBit s.rng.samplers[k].run bits 0).1) :
    Completes (.samplerWindowEnd k bits) s fun u => u.rng.st = .failed ∧ u.rng.cause = 1 ∧ u.rng.smp = k.val := by
  obtain ⟨-, -, -, -, hrng, -⟩ := ((s.windowKept k bits).rngFailure 1 k.val).mateLook_blocks
  obtain ⟨hfailed, hwhy, -⟩ := (s.windowKept k bits).rngFailCore_rng 1 k.val
  refine completes_finish (t := ((s.windowKept k bits).rngFailure 1 k.val).mateLook) ?_ ?_
  · refine (execSamplerWindowEnd_own k hlen hst htest).trans ?_
    rw [hlook, Bool.not_true, if_neg Bool.false_ne_true, if_pos hrct]
    rfl
  · rw [State.settle_rng, hrng, State.rngFailure_rng]
    exact ⟨hfailed, hwhy, State.rngFailCore_smp _ 1 k.val (.inl rfl)⟩

/-! ### The conditioner and the raw words (R326, R327, R338) -/

/-- A block of the conditioner enters the pool, which holds 32. -/
def Rng.pooled (r : Rng) (bits : List Bool) : Rng := if r.pool.length < 32 then { r with pool := r.pool ++ [conditioned bits] } else r

theorem Rng.pooled_of_room {r : Rng} {bits : List Bool} (h : r.pool.length < 32) :
    r.pooled bits = { r with pool := r.pool ++ [conditioned bits] } := if_pos h

theorem State.condBits_pattern (hst : s.rng.st = .test) (hmode : s.rng.mode = 2) (bits : List Bool) :
    s.condBits bits = ((prbsEvery 1 1024 s.rng.prbsCond).1, s.modRng fun r => { r with prbsCond := (prbsEvery 1 1024 s.rng.prbsCond).2 }) := by
  unfold State.condBits
  rw [if_pos ⟨hst, hmode⟩]

theorem conditionerBlock_pooled {bits bs : List Bool} {s1 : State}
    (hst : (s.rng.st = .startup ∨ s.rng.st = .run) ∧ s.rng.tested = true ∨ s.rng.st = .test) (hlen : bits.length = 1024)
    (hbits : s.condBits bits = (bs, s1)) : Completes (.conditionerBlock bits) s fun u => u.rng = s1.rng.pooled bs := by
  refine completes_finish
    (t := if s1.rng.pool.length < 32 then s1.modRng fun r => { r with pool := r.pool ++ [conditioned bs] } else s1) ?_ ?_
  · show execConditionerBlock bits s = _
    unfold execConditionerBlock
    rw [if_pos ⟨hst, hlen⟩, hbits]
  · rw [State.settle_rng]
    unfold Rng.pooled
    split <;> rfl

theorem conditionerBlock_pattern {bits : List Bool} (hst : s.rng.st = .test) (hmode : s.rng.mode = 2) (hroom : s.rng.pool.length < 32)
    (hlen : bits.length = 1024) : Completes (.conditionerBlock bits) s fun u => u.rng =
      { s.rng with pool := s.rng.pool ++ [conditioned (prbsEvery 1 1024 s.rng.prbsCond).1], prbsCond := (prbsEvery 1 1024 s.rng.prbsCond).2 } := by
  refine (conditionerBlock_pooled (.inr hst) hlen (s.condBits_pattern hst hmode bits)).mono fun u hu => hu.trans ?_
  generalize prbsEvery 1 1024 s.rng.prbsCond = p
  exact Rng.pooled_of_room hroom

theorem State.setBit_rng (s : State) (a i : Nat) (b : Bool) : (s.setBit a i b).rng = s.rng := rfl

theorem rngRawWord_own {w : W32} (hst : s.rng.st = .test) (hmode : s.rng.mode ≠ 2) : Completes (.rngRawWord w) s fun u => u.rng =
    if s.rng.raw.length < 64 then { s.rng with raw := s.rng.raw ++ [w] } else s.rng := by
  have hx : exec (.rngRawWord w) s = finish (if s.rng.raw.length < 64 then s.modRng fun r => { r with raw := r.raw ++ [w] }
      else s.setBit (Reg.rng 4) 10) := by
    change execRngRawWord w s = _
    unfold execRngRawWord
    rw [if_pos hst, if_neg hmode]
    rfl
  refine completes_finish hx ?_
  rw [State.settle_rng, apply_ite State.rng, State.setBit_rng]
  rfl

theorem rngRawWord_pattern {w : W32} (hst : s.rng.st = .test) (hmode : s.rng.mode = 2) (hroom : s.rng.raw.length < 64) :
    Completes (.rngRawWord w) s fun u => u.rng =
      { s.rng with raw := s.rng.raw ++ [(prbsWord 32 s.rng.prbs 0).1], prbs := (prbsWord 32 s.rng.prbs 0).2 } := by
  refine completes_finish (t := s.modRng fun r => { r with
    raw := r.raw ++ [(prbsWord 32 s.rng.prbs 0).1], prbs := (prbsWord 32 s.rng.prbs 0).2 }) ?_ (State.settle_rng _)
  change execRngRawWord w s = _
  unfold execRngRawWord
  rw [if_pos hst, if_pos hmode]
  exact congrArg finish (if_pos hroom)

/-- Settles O30: a window, a block and a raw word each by what the command keeps of them. -/
theorem samplesAreTested : Obligations.SamplesAreTested := by
  unfold Obligations.SamplesAreTested
  intro s bits hlen
  refine ⟨fun k hst htest => ⟨fun hpass => ?_, fun htests hrct => ?_⟩, fun hst => ?_, fun hst hmode hroom => ?_,
    fun w hst hmode => rngRawWord_own hst hmode, fun w hst hmode hroom => rngRawWord_pattern hst hmode hroom⟩
  · refine (samplerWindowEnd_keeps hlen hst htest fun h => hpass ((s.rng.looksAt_iff k).mp h)).mono fun u hu => ?_
    rw [hu]
    unfold Rng.figures
    simp only [Rng.looksAt_iff]
    rfl
  · exact samplerWindowEnd_fails hlen hst htest ((s.rng.looksAt_iff k).mpr htests) hrct
  · refine conditionerBlock_pooled (hst.imp id And.left) hlen (if_neg fun h => ?_)
    rcases hst with ⟨hrun | hrun, -⟩ | ⟨-, hmode⟩
    · exact absurd (hrun.symm.trans h.1) (by decide)
    · exact absurd (hrun.symm.trans h.1) (by decide)
    · exact hmode h.2
  · exact conditionerBlock_pattern hst hmode hroom hlen

/-! ### The host's buffers and raw words (R334, R335, R338) -/

/-- A read whose answer leaves the die with its value. -/
theorem completes_regRead {i : Instr} {pf a : Nat} {v : W32} {r : Rng} {t : State}
    (hx : exec i s = finish (t.emit (.regRead pf a v))) (ht : t.rng = r) :
    Completes i s fun u => u.rng = r ∧ Out.regRead pf a v ∈ u.out :=
  completes_finish hx ⟨(State.settle_rng _).trans ht, State.mem_settle_emit ..⟩

/-- What the answer to buffer `i`'s request for words leaves. -/
def State.refilled (t : State) (i : Fin 8) : RngAnswer → State
  | .data bs => t.rngDeliver (.buf i) bs
  | .failed => t.rngRefuse (.buf i)
  | .waits => t

theorem rngBufferRefill_asks {i : Fin 8} {t : State} {a : RngAnswer} (hlive : s.islandLive = true) (hempty : s.rng.bufs[i].words = [])
    (hnew : s.rng.waiting.any (fun q => decide (q.user = .buf i)) = false) (hst : s.rng.st ≠ .reset)
    (hask : s.rngAsk (8 + i.val) (.buf i) 64 = (t, a)) :
    Completes (.rngBufferRefill i) s fun u => u.rng = (t.refilled i a).rng := by
  refine completes_finish (t := t.refilled i a) ?_ (State.settle_rng _)
  change execRngBufferRefill i s = _
  unfold execRngBufferRefill
  rw [if_pos ⟨hlive, hempty, by rw [hnew]; exact Bool.false_ne_true, hst⟩, hask]
  cases a <;> rfl

theorem State.readBufStatus_word {i : Fin 8} {w : W32} {ws : List W32} (hst : s.rng.st ≠ .failed) (hnone : s.rng.bufs[i].latched = none)
    (hwords : s.rng.bufs[i].words = w :: ws) : s.readBufStatus (bufOwner i) i = (1 + b2n (!s.delivers (8 + i.val)) * 2,
      s.modRng fun r => { r with bufs := r.bufs.set i { s.rng.bufs[i] with latched := some w, words := ws } }) := by
  unfold State.readBufStatus
  dsimp only
  rw [if_neg fun h => h rfl, if_neg hst, hnone, hwords]

theorem State.readBufData_word {i : Fin 8} {w : W32} (hword : s.rng.bufs[i].latched = some w) : s.readBufData (bufOwner i) i =
    (w.toNat, s.modRng fun r => { r with bufs := r.bufs.set i { s.rng.bufs[i] with latched := none } }) := by
  unfold State.readBufData
  dsimp only
  rw [hword]
  exact if_pos rfl

/-- Another function's buffer reads as 0 (R334). -/
theorem State.readBuf_other {pf : Fin 2} {i : Fin 8} (hpf : pf ≠ bufOwner i) : s.readBufStatus pf i = (0, s) ∧ s.readBufData pf i = (0, s) := by
  refine ⟨if_pos hpf, ?_⟩
  unfold State.readBufData
  dsimp only
  cases s.rng.bufs[i].latched with
  | none => rfl
  | some w => exact if_neg hpf

theorem rngOutStatusRead_reads {pf : Fin 2} {i : Fin 8} {v : Nat} {t : State} (hlive : s.islandLive = true)
    (hread : s.readBufStatus pf i = (v, t)) : Completes (.rngOutStatusRead pf i) s fun u =>
      u.rng = t.rng ∧ Out.regRead pf.val (Reg.rng (0x100 + 8 * i.val)) (BitVec.ofNat 32 v) ∈ u.out := by
  refine completes_regRead (t := t) ?_ rfl
  change execRngOutStatusRead pf i s = _
  unfold execRngOutStatusRead
  rw [if_pos hlive, hread]

theorem rngOutDataRead_reads {pf : Fin 2} {i : Fin 8} {v : Nat} {t : State} (hlive : s.islandLive = true)
    (hread : s.readBufData pf i = (v, t)) : Completes (.rngOutDataRead pf i) s fun u =>
      u.rng = t.rng ∧ Out.regRead pf.val (Reg.rng (0x104 + 8 * i.val)) (BitVec.ofNat 32 v) ∈ u.out := by
  refine completes_regRead (t := t) ?_ rfl
  change execRngOutDataRead pf i s = _
  unfold execRngOutDataRead
  rw [if_pos hlive, hread]

theorem rngRawRead_takes {w : W32} {ws : List W32} (hlive : s.islandLive = true) (hst : s.rng.st = .test) (hraw : s.rng.raw = w :: ws) :
    Completes (.rngRawRead 1) s fun u => u.rng = { s.rng with raw := ws } ∧ Out.regRead 1 (Reg.rng 0x200) w ∈ u.out := by
  have hread : s.readRaw 1 = (w.toNat, s.modRng fun r => { r with raw := ws }) := by
    unfold State.readRaw
    rw [hraw]
    exact if_pos ⟨rfl, hst⟩
  refine completes_regRead (t := s.modRng fun r => { r with raw := ws }) ?_ rfl
  change execRngRawRead 1 s = _
  unfold execRngRawRead
  rw [if_pos hlive, hread]
  dsimp only
  rw [BitVec.ofNat_toNat, BitVec.setWidth_eq]
  rfl

theorem rngRestart_starts (hlive : s.islandLive = true) (hst : s.rng.st = .failed) :
    Completes (.rngRestart 1) s fun u => u.rng = s.rngStartup.rng ∧ u.rng.st = .startup := by
  refine completes_finish (t := s.rngStartup) ?_ ⟨State.settle_rng _, congrArg Rng.st (State.settle_rng _)⟩
  change execRngRestart 1 s = _
  unfold execRngRestart
  rw [hlive, if_pos hst]
  rfl

theorem rngTestMode_enters {mode : Fin 4} (hlive : s.islandLive = true) (hlc : s.kst.lc = 1 ∨ s.kst.lc = 3) (hst : s.rng.st = .run)
    (hmode : mode = 1 ∨ mode = 2) : Completes (.rngTestMode 1 mode) s fun u => u.rng.st = .test ∧ u.rng.mode = mode.val := by
  have hlow : mode.val < 3 := by rcases hmode with rfl | rfl <;> decide
  have hnz : mode.val ≠ 0 := by rcases hmode with rfl | rfl <;> decide
  have hrng : (s.rngTest mode.val).rng.st = .test ∧ (s.rngTest mode.val).rng.mode = mode.val := by
    unfold State.rngTest
    rw [if_pos ⟨hlc, .inl hst, hlow⟩]
    dsimp only
    rw [if_neg fun h => hnz h.2, if_neg hnz]
    exact ⟨rfl, rfl⟩
  refine completes_finish (t := s.rngTest mode.val) ?_ ?_
  · change execRngTestMode 1 mode s = _
    unfold execRngTestMode
    rw [hlive]
    rfl
  · rw [State.settle_rng]
    exact hrng

/-- PF0 neither restarts the RNG nor sets its test mode (R335, R338). -/
theorem rngSettings_locked (hlive : s.islandLive = true) :
    Completes (.rngRestart 0) s (fun u => Only settled s u) ∧ ∀ mode, Completes (.rngTestMode 0 mode) s (fun u => Only settled s u) := by
  refine ⟨completes_locked (pf := 0) (a := Reg.rng 0) (v := s.reg (Reg.rng 0) + 0x100) ?_,
    fun mode => completes_locked (pf := 0) (a := Reg.rng 0) (v := putField (s.reg (Reg.rng 0)) 9 2 mode.val) ?_⟩
  · change execRngRestart 0 s = _
    unfold execRngRestart
    rw [hlive]
    rfl
  · change execRngTestMode 0 mode s = _
    unfold execRngTestMode
    rw [hlive]
    rfl

/-- Settles O31: each access by the read or write that it is. -/
theorem hostUsesRng : Obligations.HostUsesRng := by
  unfold Obligations.HostUsesRng
  intro s hlive
  refine ⟨fun i hempty hnew hst => ?_, fun i w ws hst hnone hwords => ?_, fun i w hword => ?_, fun pf i hpf => ?_, rngRestart_starts hlive,
    fun mode hlc hst hmode => rngTestMode_enters hlive hlc hst hmode, fun w ws hst hraw => rngRawRead_takes hlive hst hraw,
    rngSettings_locked hlive⟩
  · rcases hask : s.rngAsk (8 + i.val) (.buf i) 64 with ⟨t, a⟩
    have h := rngBufferRefill_asks hlive hempty hnew hst hask
    cases a <;> exact h
  · refine (rngOutStatusRead_reads hlive (State.readBufStatus_word hst hnone hwords)).mono fun u ⟨hrng, hout⟩ => ⟨hrng, ?_⟩
    cases hdel : s.delivers (8 + i.val) <;> rw [hdel] at hout <;> exact hout
  · refine (rngOutDataRead_reads hlive (State.readBufData_word hword)).mono fun u ⟨hrng, hout⟩ => ⟨hrng, ?_⟩
    rwa [BitVec.ofNat_toNat, BitVec.setWidth_eq] at hout
  · obtain ⟨hstatus, hdata⟩ := s.readBuf_other hpf
    exact ⟨rngOutStatusRead_reads hlive hstatus, rngOutDataRead_reads hlive hdata⟩

/-! ### Requests of the utility cipher (R341 to R344) -/

/-- The GO with operation `op` of function `f`. -/
def uciCommand (f : Fin 2) : Fin 4 → Instr
  | 0 => .uciEnc f f
  | 1 => .uciDec f f
  | 2 => .uciNonce f f
  | _ => .uciErase f f

theorem exec_uciCommand {f : Fin 2} (op : Fin 4) (hlive : s.islandLive = true) : exec (uciCommand f op) s = finish (s.uciGo f op.val) := by
  have hx : exec (uciCommand f op) s = uciRequest f f op.val s := by
    match op with
    | 0 | 1 | 2 | 3 => rfl
  rw [hx]
  unfold uciRequest
  rw [hlive, if_neg (by decide), if_neg fun h => h rfl]

/-- A GO of function `f` as it looks at its context: CTL holds the operation, and the block of the cipher's counters has counted it. -/
def State.uciAsked (s : State) (f : Fin 2) (op : Nat) : State := (s.setFld (uciReg f 0) 0 2 op).countDev 0xA 3 f.val

theorem State.uciAsked_uci (s : State) (f : Fin 2) (op : Nat) : (s.uciAsked f op).uci = s.uci := rfl

theorem State.uciStatus_uci (s : State) (f : Fin 2) (st : Nat) :
    (s.uciStatus f st).uci = { s.uci.leave f with status := s.uci.status.set f st } := by
  unfold State.uciStatus
  dsimp only
  split <;> rfl

/-- A GO at a free function, by what it finds (R341 to R343). -/
theorem State.uciGo_free {f : Fin 2} (op : Nat) (hfree : s.uci.req[f] = none) :
    let w := s.setFld (uciReg f 0) 0 2 op
    let c := w.uciCtx f
    let x := s.uci.ctx[c]
    let n := w.uciBlocks f
    s.uciGo f op =
      if n = 0 ∨ 256 < n then (s.uciAsked f op).uciStatus f 2
      else if !x.loaded then (s.uciAsked f op).uciStatus f 1
      else if op = 2 ∧ x.count = 2 ^ 32 - 1 then (s.uciAsked f op).uciStatus f 4
      else (s.uciAsked f op).modUci fun u =>
        (if op = 2 then { u with ctx := u.ctx.set c { x with count := x.count + 1 } } else u).start f {
          op := op, ctx := c.val, key := x.key, nonce := x.pre ++ beBytes 4 x.count, blocks := n
          src := w.reg (uciReg f 4) + 2 ^ 32 * w.reg (uciReg f 8), dst := w.reg (uciReg f 0xC) + 2 ^ 32 * w.reg (uciReg f 0x10) } := by
  unfold State.uciGo
  dsimp only
  rw [hfree]
  rfl

theorem uciGo_fails {f : Fin 2} {op : Fin 4} {st : Nat} (hlive : s.islandLive = true)
    (hgo : s.uciGo f op.val = (s.uciAsked f op.val).uciStatus f st) :
    Completes (uciCommand f op) s fun u => u.uci = { s.uci.leave f with status := s.uci.status.set f st } :=
  completes_finish ((exec_uciCommand op hlive).trans (congrArg finish hgo))
    ((State.settle_uci _).trans ((State.uciStatus_uci _ f st).trans (by rw [State.uciAsked_uci])))

/-- What a GO at a free function leads to. -/
theorem uciCommand_free {f : Fin 2} (op : Fin 4) (hlive : s.islandLive = true) (hfree : s.uci.req[f] = none) :
    let w := s.setFld (uciReg f 0) 0 2 op.val
    let c := w.uciCtx f
    let x := s.uci.ctx[c]
    let n := w.uciBlocks f
    let fails (st : Nat) := Completes (uciCommand f op) s fun u => u.uci = { s.uci.leave f with status := s.uci.status.set f st }
    (n = 0 ∨ 256 < n → fails 2)
    ∧ (1 ≤ n → n ≤ 256 → (x.loaded = false → fails 1)
      ∧ (x.loaded = true → op = 2 → x.count = 2 ^ 32 - 1 → fails 4)
      ∧ (x.loaded = true → (op = 2 → x.count ≠ 2 ^ 32 - 1) → Completes (uciCommand f op) s fun u =>
        u.uci = (if op = 2 then { s.uci with ctx := s.uci.ctx.set c { x with count := x.count + 1 } } else s.uci).start f {
          op := op.val, ctx := c.val, key := x.key, nonce := x.pre ++ beBytes 4 x.count, blocks := n
          src := w.reg (uciReg f 4) + 2 ^ 32 * w.reg (uciReg f 8), dst := w.reg (uciReg f 0xC) + 2 ^ 32 * w.reg (uciReg f 0x10) })) := by
  have hgo := State.uciGo_free op.val hfree
  have hop : op.val = 2 ↔ op = 2 := by omega
  intro w c x n fails
  refine ⟨fun hrange => uciGo_fails hlive (hgo.trans (if_pos hrange)), fun hlow hhigh => ?_⟩
  have hrange : ¬ (n = 0 ∨ 256 < n) := by omega
  replace hgo := hgo.trans (if_neg hrange)
  refine ⟨fun hempty => uciGo_fails hlive (hgo.trans (if_pos ?_)), fun hloaded hnonce hspent => uciGo_fails hlive (hgo.trans ?_),
    fun hloaded hunspent => ?_⟩
  · rw [Bool.not_eq_true']
    exact hempty
  · exact (if_neg (by rw [Bool.not_eq_true']; exact ne_false_of_eq_true hloaded)).trans (if_pos ⟨hop.mpr hnonce, hspent⟩)
  · replace hgo := hgo.trans ((if_neg (by rw [Bool.not_eq_true']; exact ne_false_of_eq_true hloaded)).trans
      (if_neg fun h => hunspent (hop.mp h.1) h.2))
    refine completes_finish ((exec_uciCommand op hlive).trans (congrArg finish hgo)) ?_
    rw [State.settle_uci]
    simp only [hop]
    rfl

theorem uciCommand_busy {f : Fin 2} (op : Fin 4) (hlive : s.islandLive = true) (hbusy : (s.uci.req[f]).isSome = true) :
    Completes (uciCommand f op) s fun u => u.uci = s.uci ∧ u.regs = (s.setBit (uciReg f 0x14) 1).regs := by
  refine completes_finish (t := s.setBit (uciReg f 0x14) 1) ((exec_uciCommand op hlive).trans ?_) ⟨State.settle_uci _, State.settle_regs _⟩
  unfold State.uciGo
  rw [if_pos hbusy]

/-- The registers of one function's requests are locked to the other (R341). -/
theorem uciRequest_locked {i : Instr} {pf f : Fin 2} {op : Nat} (hlive : s.islandLive = true) (hpf : pf ≠ f)
    (hx : exec i s = uciRequest pf f op s) : Completes i s fun u => Only settled s u := by
  refine completes_locked (pf := pf) (a := uciReg f 0) (v := putField (s.reg (uciReg f 0)) 0 2 op + 2 ^ 31) (hx.trans ?_)
  unfold uciRequest
  rw [hlive, if_neg (by decide), if_pos hpf]

/-! ### A request is carried out -/

theorem execUciRequestDone_turn {f : Fin 2} {q : UciReq} (src : Bytes) (errAt : Option Nat) (hreq : s.uci.req[f] = some q)
    (hturn : s.uci.turn = f) (hlive : q.op < 2 → s.hstLive = true) : exec (.uciRequestDone f src errAt) s =
      finish (if q.op = 2 then (s.modUci fun u => { u with nonce := u.nonce.set f q.nonce }).uciStatus f (if q.erased then 6 else 0)
        else if q.op = 3 then (if q.erased then s else s.modUci fun u => { u with ctx := u.ctx.setIfInBounds q.ctx {} }).uciStatus f
          (if q.erased then 6 else 0)
        else s.uciBlocksDone f q src errAt) := by
  change execUciRequestDone f src errAt s = _
  unfold execUciRequestDone
  rw [hreq]
  refine if_neg fun h => ?_
  rcases h with h | ⟨hop, hdead⟩
  · exact h hturn
  · rw [hlive hop] at hdead
    exact absurd hdead (by decide)

theorem uciRequestDone_blocks {f : Fin 2} {q : UciReq} (src : Bytes) (hreq : s.uci.req[f] = some q) (hturn : s.uci.turn = f)
    (hop : q.op < 2) (hlive : s.hstLive = true) (hapart : overlaps q.src q.dst (16 * q.blocks) = false) (hblocks : 1 ≤ q.blocks) :
    Completes (.uciRequestDone f src none) s fun u =>
      u.uci = { s.uci.leave f with status := s.uci.status.set f (if q.erased then 6 else 0) }
      ∧ Out.hostWrite f.val q.dst (if q.op = 0 then aesEcbEnc q.key (padTo (16 * q.blocks) src)
        else aesEcbDec q.key (padTo (16 * q.blocks) src)) ∈ u.out := by
  have hdone : s.uciBlocksDone f q src none = ({ s with free := s.free + 0 }.hostWrite f q.dst (if q.op = 0 then
      aesEcbEnc q.key (padTo (16 * q.blocks) src) else aesEcbDec q.key (padTo (16 * q.blocks) src))).uciStatus f
        (if q.erased then 6 else 0) := by
    unfold State.uciBlocksDone
    dsimp only
    rw [hapart, if_neg (Nat.ne_of_gt hblocks), if_neg (Nat.lt_irrefl _)]
    rfl
  refine completes_finish ((execUciRequestDone_turn src none hreq hturn fun _ => hlive).trans
    (congrArg finish ((if_neg (by omega)).trans ((if_neg (by omega)).trans hdone)))) ⟨?_, ?_⟩
  · exact (State.settle_uci _).trans (State.uciStatus_uci ..)
  · refine (State.settle_out _).subset ?_
    rw [show ∀ (t : State) st, (t.uciStatus f st).out = t.out from fun t st => by unfold State.uciStatus; dsimp only; split <;> rfl]
    exact List.mem_cons_self

/-- Settles O32: a GO by what it finds, a request in service by its operation. -/
theorem utilityCipher : Obligations.UtilityCipher := by
  unfold Obligations.UtilityCipher
  intro s hlive
  refine ⟨fun f op hfree => ?_, fun f q src hreq hturn => ⟨fun hop hhst hapart hblocks => ?_, fun hop => ?_, fun hop => ?_⟩,
    fun f hbusy => ⟨?_, ?_, ?_, ?_⟩, fun pf f hpf => ⟨?_, ?_, ?_, ?_⟩⟩
  · match op with
    | 0 | 1 | 2 | 3 => exact uciCommand_free _ hlive hfree
  · exact uciRequestDone_blocks src hreq hturn hop hhst hapart hblocks
  · refine completes_finish ((execUciRequestDone_turn src none hreq hturn fun h => by omega).trans (congrArg finish (if_pos hop))) ?_
    exact (State.settle_uci _).trans (State.uciStatus_uci ..)
  · refine completes_finish ((execUciRequestDone_turn src none hreq hturn fun h => by omega).trans
      (congrArg finish ((if_neg (by omega)).trans (if_pos hop)))) ?_
    rw [State.settle_uci, State.uciStatus_uci]
    cases q.erased <;> rfl
  · exact uciCommand_busy 0 hlive hbusy
  · exact uciCommand_busy 1 hlive hbusy
  · exact uciCommand_busy 2 hlive hbusy
  · exact uciCommand_busy 3 hlive hbusy
  · exact uciRequest_locked (op := 0) hlive hpf rfl
  · exact uciRequest_locked (op := 1) hlive hpf rfl
  · exact uciRequest_locked (op := 2) hlive hpf rfl
  · exact uciRequest_locked (op := 3) hlive hpf rfl

end Sys2Proof.Machine
end

section
/-! The memory window, the scrubber and debug access (R363, R365, R366, R369). -/

namespace Sys2Proof.Machine

variable {s t : State}

/-! ### The memory window (R365, R366) -/

/-- What a GO of the window asks the line it names for. -/
def State.winOp (s : State) (write : Bool) : MemOp :=
  if !write then .read
  else if BitVec.ofNat 32 (s.reg (Reg.mem 0x504)) = 0xFFFFFFFF then .write s.winData
  else .part s.winData (BitVec.ofNat 32 (s.reg (Reg.mem 0x504)))

theorem exec_window (write : Bool) (hlive : s.mgmtLive = true) :
    exec (if write then .memWindowWrite 1 else .memWindowRead 1) s = finish (s.winGo write) := by
  cases write with
  | false =>
    change execMemWindowRead 1 s = _
    unfold execMemWindowRead
    rw [hlive]
    rfl
  | true =>
    change execMemWindowWrite 1 s = _
    unfold execMemWindowWrite
    rw [hlive]
    rfl

theorem State.winGo_asks {write : Bool} (hfree : s.mem.winBusy = false) (hmask : write = false ∨ BitVec.ofNat 32 (s.reg (Reg.mem 0x504)) ≠ 0) :
    (s.winGo write).mem = ((s.modMem fun m => { m with winBusy := true }).memPush
      { master := .window, addr := s.winAddr, op := s.winOp write }).mem := by
  have hwrites : ¬ (write = true ∧ BitVec.ofNat 32 (s.reg (Reg.mem 0x504)) = 0) := fun ⟨hw, hz⟩ =>
    hmask.elim (fun h => absurd (h.symm.trans hw) (by decide)) fun h => h hz
  unfold State.winGo
  rw [hfree, if_neg Bool.false_ne_true]
  dsimp only
  rw [if_neg hwrites]
  rfl

/-- A write under an empty mask is done at once (R366). -/
theorem State.winGo_empty (hfree : s.mem.winBusy = false) (hmask : BitVec.ofNat 32 (s.reg (Reg.mem 0x504)) = 0) :
    (s.winGo true).mem = { s.mem with winBusy := false, winStatus := 0 } := by
  unfold State.winGo
  rw [hfree, if_neg Bool.false_ne_true]
  dsimp only
  rw [if_pos ⟨rfl, hmask⟩]
  rfl

/-! ### What reading a line says -/

theorem State.readLine_poisoned {c : Fin 4} {l : Nat} (r : Fin 8) (o : SramRead) (hup : (s.chan c).up = true)
    (hpoison : tget false (s.chan c).poison l = true) : s.readLine r c l o = (5, 0, []) :=
  (if_neg (by rw [hup]; decide)).trans (if_pos hpoison)

/-- Only a corrected line is rewritten (R349). -/
theorem State.repair_uncorrected (s : State) (r : Fin 8) (c : Fin 4) (l : Nat) {st : Nat} (o : SramRead) (hst : st ≠ 1) :
    s.repair r c l st o = s := by
  unfold State.repair
  split
  · exact absurd rfl hst
  · rfl

theorem State.noteRead_clean (s : State) (c : Fin 4) (l synd : Nat) (scrub : Bool) : s.noteRead c l 0 synd scrub = s := rfl

theorem Mem.logError_ch (m : Mem) (a st synd : Nat) (scrub : Bool) : (m.logError a st synd scrub).ch = m.ch := by
  unfold Mem.logError
  split <;> rfl

/-- What a read met is counted and logged; no channel changes. -/
theorem State.noteRead_ch (s : State) (c : Fin 4) (l st synd : Nat) (scrub : Bool) : (s.noteRead c l st synd scrub).mem.ch = s.mem.ch := by
  unfold State.noteRead
  split
  · rfl
  · split
    · rfl
    · split
      · rw [State.happen_mem, State.modMem_mem]
        exact Mem.logError_ch ..
      · rfl

/-! ### The scrubber (R369) -/

/-- The line that the scrubber of channel `c` comes to next. -/
def State.scrubNext (s : State) (c : Fin 4) : Option Nat :=
  match s.nextReady c (s.chan c).scrubPos with
  | some l => some l
  | none => s.nextReady c 0

/-- The scrubber of channel `c` has moved past line `l`. -/
def State.scrubPast (s : State) (c : Fin 4) (l : Nat) : State := s.modChan c fun x => { x with scrubPos := l + 1 }

/-- The scrubber of channel `c` has read line `l`, and counts what it met. -/
def State.scrubbed (s : State) (c : Fin 4) (l : Nat) (o : SramRead) : State :=
  let r := s.regionAt (lineAddr c l)
  let v := s.readLine r c l o
  ((((s.scrubPast c l).countDev 0xC 9 c.val).noteParity c o).noteRead c l v.1 v.2.1 true).repair r c l v.1 o

theorem execScrubRead_at {c : Fin 4} {l : Nat} (o : SramRead) (hat : s.scrubNext c = some l) (hen : s.bit (Reg.mem 0x400) 0 = true)
    (hup : (s.chan c).up = true) (hreads : (s.chan c).queue.any (·.op.isRead) = false) (hwants : (s.chan c).wants l = false) :
    execScrubRead c o s =
      if tget false (s.chan c).poison l || (s.chan c).rewriting (linePage l) then finish (s.scrubPast c l)
      else finish (if 2 ≤ (s.readLine (s.regionAt (lineAddr c l)) c l o).1 ∧ (s.readLine (s.regionAt (lineAddr c l)) c l o).1 ≤ 4
        then (s.scrubbed c l o).modChan c fun x => { x with poison := tset false l true x.poison } else s.scrubbed c l o) := by
  unfold execScrubRead
  unfold State.scrubNext at hat
  cases hnext : s.nextReady c (s.chan c).scrubPos with
  | some l' =>
    rw [hnext] at hat
    obtain rfl : l' = l := Option.some.inj hat
    dsimp only
    rw [hnext]
    dsimp only
    rw [hen, hup, hreads, hwants]
    rfl
  | none =>
    rw [hnext] at hat
    dsimp only
    rw [hnext]
    dsimp only at hat ⊢
    rw [hat]
    dsimp only
    rw [hen, hup, hreads, hwants]
    rfl

theorem State.scrubPast_mem (s : State) (c : Fin 4) (l : Nat) (o : SramRead) :
    (((s.scrubPast c l).countDev 0xC 9 c.val).noteParity c o).mem = (s.scrubPast c l).mem :=
  (((s.scrubPast c l).countDev 0xC 9 c.val).noteParity_sameLines c o).mem

/-- A line that the scrubber reads without fault leaves only its new place. -/
theorem scrubRead_passes {c : Fin 4} {l : Nat} (o : SramRead) (hat : s.scrubNext c = some l) (hen : s.bit (Reg.mem 0x400) 0 = true)
    (hup : (s.chan c).up = true) (hreads : (s.chan c).queue.any (·.op.isRead) = false) (hwants : (s.chan c).wants l = false)
    (hst : (s.readLine (s.regionAt (lineAddr c l)) c l o).1 = 0 ∨ (s.readLine (s.regionAt (lineAddr c l)) c l o).1 = 5) :
    Completes (.scrubRead c o) s fun u => u.mem = (s.scrubPast c l).mem := by
  have hx := execScrubRead_at o hat hen hup hreads hwants
  by_cases hskip : (tget false (s.chan c).poison l || (s.chan c).rewriting (linePage l)) = true
  · exact completes_finish (hx.trans (if_pos hskip)) (State.settle_mem _)
  · refine completes_finish (hx.trans ((if_neg hskip).trans (congrArg finish (if_neg (by omega))))) ?_
    rw [State.settle_mem]
    unfold State.scrubbed
    dsimp only
    rw [State.repair_uncorrected _ _ _ _ _ (by omega), (State.noteRead_sameLines _ _ _ _ _ (by omega)).mem, State.scrubPast_mem]

/-- A line that the scrubber cannot read is poisoned. -/
theorem scrubRead_poisons {c : Fin 4} {l : Nat} (o : SramRead) (hat : s.scrubNext c = some l) (hen : s.bit (Reg.mem 0x400) 0 = true)
    (hup : (s.chan c).up = true) (hreads : (s.chan c).queue.any (·.op.isRead) = false) (hwants : (s.chan c).wants l = false)
    (hlow : 2 ≤ (s.readLine (s.regionAt (lineAddr c l)) c l o).1) (hhigh : (s.readLine (s.regionAt (lineAddr c l)) c l o).1 ≤ 4)
    (hrw : (s.chan c).rewriting (linePage l) = false) :
    Completes (.scrubRead c o) s fun u => u.chan c = { s.chan c with scrubPos := l + 1, poison := tset false l true (s.chan c).poison } := by
  have hclean : tget false (s.chan c).poison l = false := by
    by_contra hpoison
    rw [State.readLine_poisoned _ o hup (Bool.eq_true_of_not_eq_false hpoison)] at hhigh
    exact absurd hhigh (by decide)
  refine completes_finish ((execScrubRead_at o hat hen hup hreads hwants).trans
    ((if_neg (by rw [hclean, hrw]; decide)).trans (congrArg finish (if_pos ⟨hlow, hhigh⟩)))) ?_
  rw [State.chan_congr (State.settle_mem _), State.chan_modChan]
  have hscrubbed : (s.scrubbed c l o).chan c = (s.scrubPast c l).chan c := by
    unfold State.scrubbed State.chan
    dsimp only
    rw [State.repair_uncorrected _ _ _ _ _ (by omega), State.noteRead_ch, State.scrubPast_mem]
  rw [hscrubbed, State.scrubPast, State.chan_modChan]

/-! ### Debug access (R363) -/

/-- The request that a debug access makes. -/
def debugReq (line : BitVec 21) (w : Option (Bytes × W32)) : MemReq := { master := .debug, op := debugOp w, addr := line.toNat * 32 }

theorem exec_debugAccess {line : BitVec 21} {w : Option (Bytes × W32)} (o : SramRead) (hlive : s.mgmtLive = true)
    (hrw : (s.chan (memCh (line.toNat * 32))).rewriting (linePage (memLine (line.toNat * 32))) = false)
    (hwants : (s.chan (memCh (line.toNat * 32))).wants (memLine (line.toNat * 32)) = false) :
    exec (.debugAccess line w o) s = mateEnd (if s.accessStatus .debug (line.toNat * 32) ≠ 0 then
      s.refuseAccess (debugReq line w) (s.accessStatus .debug (line.toNat * 32)) else s.debugServe (debugReq line w) o) := by
  change execDebugAccess line w o s = _
  unfold execDebugAccess
  dsimp only
  rw [hlive, hrw, hwants]
  rfl

theorem State.memAnswer_debug {q : MemReq} (hq : q.master = .debug) (st : Nat) (d : Bytes) : s.memAnswer q st d =
    s.emit (.debug st (if q.op ≠ .read then [] else if statusOk st then d else if st = 5 then List.replicate 32 0 else [])) := by
  unfold State.memAnswer
  rw [hq]

/-- An access that is not admitted is answered with its status, and leaves the memory as it is. -/
theorem State.refuseAccess_debug {q : MemReq} (hq : q.master = .debug) {st : Nat} (hst : st ≠ 5) :
    (s.refuseAccess q st).mem = s.mem ∧ Out.debug st [] ∈ (s.refuseAccess q st).out := by
  refine ⟨?_, ?_⟩
  · rw [(s.refuseAccess_blocks q st).1, State.memAnswer_debug hq]
    rfl
  · unfold State.refuseAccess
    dsimp only
    rw [State.memAnswer_debug hq, if_neg hst, ite_self, ite_self]
    exact List.mem_cons_self

/-- The status of an access is never that of a poisoned line: the line is not looked at. -/
theorem State.accessStatus_ne_poisoned (s : State) (x : Master) (a : Nat) : s.accessStatus x a ≠ 5 := by
  unfold State.accessStatus
  split
  · decide
  · split
    · decide
    · split
      · decide
      · split <;> decide

theorem State.debugServe_read {line : BitVec 21} {o : SramRead} {d : Bytes}
    (hread : s.readLine (s.regionAt (line.toNat * 32)) (memCh (line.toNat * 32)) (memLine (line.toNat * 32)) o = (0, 0, d)) :
    s.debugServe (debugReq line none) o = (s.noteParity (memCh (line.toNat * 32)) o).emit (.debug 0 d) := by
  unfold State.debugServe debugReq debugOp
  dsimp only
  rw [hread]
  dsimp only
  rw [if_neg (by decide), State.noteRead_clean, State.repair_uncorrected _ _ _ _ _ (by decide), State.memAnswer_debug rfl]
  rfl

theorem padTo_length (p : Bytes) : padTo p.length p = p := by
  unfold padTo
  rw [List.take_length, Nat.sub_self, List.replicate_zero, List.append_nil]

theorem debugOp_full {p : Bytes} (hp : p.length = 32) : debugOp (some (p, 0xFFFFFFFF)) = .write p := by
  have hpad : padTo 32 p = p := hp ▸ padTo_length p
  unfold debugOp
  dsimp only
  rw [if_pos rfl, hpad]

theorem State.debugServe_write {line : BitVec 21} {o : SramRead} {p : Bytes} (hp : p.length = 32) (ho : o.parity ≠ 2) :
    s.debugServe (debugReq line (some (p, 0xFFFFFFFF))) o =
      (s.noteParity (memCh (line.toNat * 32)) o).writeLine { master := .debug, op := .write p, addr := line.toNat * 32 }
        (s.regionAt (line.toNat * 32)) (memCh (line.toNat * 32)) (memLine (line.toNat * 32)) p := by
  unfold State.debugServe debugReq
  rw [debugOp_full hp]
  exact if_neg ho

/-- A write's line is stored under its next minor counter, and its acknowledgement is queued. -/
theorem State.writeLine_chan {q : MemReq} {r : Fin 8} {c : Fin 4} {l : Nat} {p : Bytes} (hs : tget false (s.chan c).spent (linePage l) = false)
    (hm : (s.chan c).minorOf l < 63) : ((s.writeLine q r c l p).chan c).acks = (s.chan c).acks ++ [q]
      ∧ ((s.writeLine q r c l p).chan c).minor = tset 1 l ((s.chan c).minorOf l + 1) (s.chan c).minor := by
  have hstored : (s.storeLine r c l ((s.chan c).minorOf l + 1) p).chan c = { s.chan c with
      minor := tset 1 l ((s.chan c).minorOf l + 1) (s.chan c).minor
      lines := tset default l (sealLine (s.rgn r).key r c l ((s.chan c).majorOf (linePage l)) ((s.chan c).minorOf l + 1) p) (s.chan c).lines } := by
    unfold State.storeLine
    rw [State.chan_congr (State.emit_mem ..), State.chan_modChan]
  rw [State.writeLine_stores hs hm, State.chan_modChan, hstored]
  exact ⟨rfl, rfl⟩

/-- Settles O28: a GO by its mask, a scrubbed line by what the read met, a debug access by its status and operation. -/
theorem otherMastersAreServed : Obligations.OtherMastersAreServed := by
  unfold Obligations.OtherMastersAreServed
  refine fun s => ⟨fun write hlive hfree => ⟨fun hmask => ?_, fun hwrite hmask => ?_⟩,
    fun c o l hat hen hup hreads hwants => ⟨fun hst => scrubRead_passes o hat hen hup hreads hwants hst,
      fun hlow hhigh hrw => scrubRead_poisons o hat hen hup hreads hwants hlow hhigh hrw⟩,
    fun line o hlive hrw hwants => ⟨fun w hst => ?_, fun d hst hread => ?_, fun p hst hp ho hspent hminor => ?_⟩⟩
  · exact completes_finish (exec_window write hlive) ((State.settle_mem _).trans (State.winGo_asks hfree hmask))
  · subst hwrite
    exact completes_finish (exec_window true hlive) ((State.settle_mem _).trans (State.winGo_empty hfree hmask))
  · obtain ⟨hmem, hout⟩ := s.refuseAccess_debug (q := debugReq line w) rfl (s.accessStatus_ne_poisoned .debug (line.toNat * 32))
    refine completes_finish ((exec_debugAccess o hlive hrw hwants).trans (congrArg mateEnd (if_pos hst)))
      ⟨State.mem_mateEnd_out hout, (State.mateEnd_mem _).trans hmem⟩
  · refine completes_finish ((exec_debugAccess o hlive hrw hwants).trans (congrArg mateEnd (if_neg fun h => h hst))) ?_
    rw [State.debugServe_read hread]
    exact ⟨State.mem_mateEnd_out List.mem_cons_self,
      (State.mateEnd_mem _).trans ((State.emit_mem ..).trans (s.noteParity_sameLines _ o).mem)⟩
  · refine completes_finish ((exec_debugAccess o hlive hrw hwants).trans (congrArg mateEnd (if_neg fun h => h hst))) ?_
    have hchan : ∀ c, (s.noteParity (memCh (line.toNat * 32)) o).chan c = s.chan c := State.chan_congr (s.noteParity_sameLines _ o).mem
    rw [State.chan_congr (State.mateEnd_mem _), State.debugServe_write hp ho]
    have h := State.writeLine_chan (s := s.noteParity (memCh (line.toNat * 32)) o) (q := { master := .debug, op := .write p, addr := line.toNat * 32 })
      (r := s.regionAt (line.toNat * 32)) (p := p) (by rw [hchan]; exact hspent) (by rw [hchan]; exact hminor)
    rwa [hchan] at h

end Sys2Proof.Machine
end

section
/-! The mate pair's interlock (R396 to R399, R410, Table 14-2). -/

namespace Sys2Proof.Machine

variable {s t : State}

/-! ### The interlock's own rules -/

theorem State.interlock_claims (hoff : s.mte.lock = .off) (hclaims : s.claims = true) (hlow : s.pads.mateActIn = false) :
    s.interlock = s.setLock .claim true true := by
  unfold State.interlock
  rw [hoff, hclaims, hlow]
  rfl

theorem State.interlock_waits (hoff : s.mte.lock = .off) (hnot : (s.claims && !s.pads.mateActIn) = false) : s.interlock = s := by
  unfold State.interlock
  rw [hoff, hnot]
  rfl

theorem State.interlock_keeps (hlock : s.mte.lock = .claim ∨ s.mte.lock = .granted) (hclaims : s.claims = true) : s.interlock = s := by
  unfold State.interlock
  rcases hlock with h | h <;> rw [h, hclaims] <;> rfl

theorem State.interlock_lets_go (hlock : s.mte.lock = .claim ∨ s.mte.lock = .granted) (hclaims : s.claims = false) :
    s.interlock = s.setLock .releasing false s.pads.mateActOut := by
  unfold State.interlock
  rcases hlock with h | h <;> rw [h, hclaims] <;> rfl

theorem State.interlock_releasing (hlock : s.mte.lock = .releasing) : s.interlock = s := by
  unfold State.interlock
  rw [hlock]

/-- The interlock moves itself and MATE_ACT_OUT, nothing else. -/
theorem State.interlock_setLock (s : State) : ∃ l timer out, s.interlock = s.setLock l timer out := by
  cases hlock : s.mte.lock with
  | off =>
    by_cases hgo : (s.claims && !s.pads.mateActIn) = true
    · rw [Bool.and_eq_true, Bool.not_eq_true'] at hgo
      exact ⟨_, _, _, State.interlock_claims hlock hgo.1 hgo.2⟩
    · exact ⟨_, _, _, State.interlock_waits hlock (Bool.eq_false_of_not_eq_true hgo)⟩
  | claim =>
    cases hclaims : s.claims with
    | true => exact ⟨_, _, _, State.interlock_keeps (.inl hlock) hclaims⟩
    | false => exact ⟨_, _, _, State.interlock_lets_go (.inl hlock) hclaims⟩
  | granted =>
    cases hclaims : s.claims with
    | true => exact ⟨_, _, _, State.interlock_keeps (.inr hlock) hclaims⟩
    | false => exact ⟨_, _, _, State.interlock_lets_go (.inr hlock) hclaims⟩
  | releasing => exact ⟨_, _, _, State.interlock_releasing hlock⟩

theorem State.interlock_st (s : State) : s.interlock.mte.st = s.mte.st := by
  obtain ⟨_, _, _, h⟩ := s.interlock_setLock
  rw [h]
  rfl

theorem State.interlock_mateActIn (s : State) : s.interlock.pads.mateActIn = s.pads.mateActIn := by
  obtain ⟨_, _, _, h⟩ := s.interlock_setLock
  rw [h]
  rfl

/-! ### A change of role -/

/-- The mate logic in role `st`, for a cause (0: the cause as it is). -/
def State.inRole (s : State) (st : MState) (cause : Nat) : State :=
  { s with mte := { s.mte with st := st, cause := if cause = 0 then s.mte.cause else cause } }

/-- A change of role is recorded and told to the host; then the interlock looks at it. -/
theorem State.mateGo_changes {st : MState} (cause : Nat) (hst : st ≠ s.mte.st) :
    ∃ p e h o, s.mateGo st cause = ((s.inRole st cause).withEnds p e h o).interlock := by
  have htold : ∀ n d, ∃ p e h o, (({ s.inRole st cause with hst := { s.hst with mstateChg := true } } : State).happen 9 0xD 0 n d).interlock
      = ((s.inRole st cause).withEnds p e h o).interlock := fun n d => by
    obtain ⟨p, e, h, o, heq⟩ := happen_ends { s.inRole st cause with hst := { s.hst with mstateChg := true } } 9 0xD 0 n d
    exact ⟨p, e, h, o, by rw [heq]; rfl⟩
  unfold State.mateGo
  rw [if_neg hst]
  exact htold _ _

theorem State.mateGo_st (s : State) (st : MState) (cause : Nat) : (s.mateGo st cause).mte.st = st := by
  by_cases hst : st = s.mte.st
  · unfold State.mateGo
    rw [if_pos hst]
    exact hst.symm
  · obtain ⟨p, e, h, o, heq⟩ := s.mateGo_changes cause hst
    rw [heq, State.interlock_st]
    rfl

theorem State.mateGo_mateActIn (s : State) (st : MState) (cause : Nat) : (s.mateGo st cause).pads.mateActIn = s.pads.mateActIn := by
  by_cases hst : st = s.mte.st
  · unfold State.mateGo
    rw [if_pos hst]
  · obtain ⟨p, e, h, o, heq⟩ := s.mateGo_changes cause hst
    rw [heq, State.interlock_mateActIn]
    rfl

/-- A role that claims the line keeps a claim and a grant as they are. -/
theorem State.mateGo_keeps {st : MState} {cause : Nat} (hst : st ≠ s.mte.st) (hlock : s.mte.lock = .claim ∨ s.mte.lock = .granted)
    (hclaims : (s.inRole st cause).claims = true) :
    (s.mateGo st cause).mte = (s.inRole st cause).mte ∧ (s.mateGo st cause).pads = s.pads := by
  obtain ⟨p, e, h, o, heq⟩ := s.mateGo_changes cause hst
  rw [heq, State.interlock_keeps (s := (s.inRole st cause).withEnds p e h o) hlock hclaims]
  exact ⟨rfl, rfl⟩

theorem State.claims_taking (s : State) (cause : Nat) : (s.inRole .taking cause).claims = s.bit (Reg.mte 0) 1 := Bool.and_true _

/-! ### The level condition of STANDBY -/

theorem State.mateLook_other (hst : s.mte.st ≠ .standby) : s.mateLook = s := if_neg fun h => hst h.1

theorem State.mateLook_high (hhigh : s.pads.mateActIn = true) : s.mateLook = s := by
  unfold State.mateLook
  rw [hhigh]
  exact if_neg fun h => absurd h.2.1 (by decide)

/-- A device that is READY has ACT_REQ set. -/
theorem State.mateReady_actReq (hready : s.mateReady = true) : s.bit (Reg.mte 0) 1 = true := by
  unfold State.mateReady State.healthGood at hready
  simp only [List.all_cons, Bool.and_eq_true, id] at hready
  exact hready.1.2.2.2.2.2.2.1

/-- The level condition changes nothing, or takes over with ACT_REQ set. -/
theorem State.mateLook_cases (s : State) : s.mateLook = s
    ∨ s.mte.st = .standby ∧ s.pads.mateActIn = false ∧ s.bit (Reg.mte 0) 1 = true ∧ s.mateLook = s.mateGo .taking 5 := by
  by_cases h : s.mte.st = .standby ∧ (!s.pads.mateActIn) = true ∧ s.mateReady = true
  · obtain ⟨hst, hlow, hready⟩ := h
    exact .inr ⟨hst, (Bool.not_eq_true' _).mp hlow, State.mateReady_actReq hready, if_pos ⟨hst, hlow, hready⟩⟩
  · exact .inl (if_neg h)

/-- A claim or a grant outlives the level condition. -/
theorem State.mateLook_keeps (hlock : s.mte.lock = .claim ∨ s.mte.lock = .granted) :
    s.mateLook.mte.lock = s.mte.lock ∧ s.mateLook.mte.timer = s.mte.timer ∧ s.mateLook.mte.epoch = s.mte.epoch ∧ s.mateLook.pads = s.pads := by
  rcases s.mateLook_cases with heq | ⟨hst, -, hreq, heq⟩
  · rw [heq]
    exact ⟨rfl, rfl, rfl, rfl⟩
  · obtain ⟨hmte, hpads⟩ := State.mateGo_keeps (s := s) (st := .taking) (cause := 5) (by rw [hst]; decide) hlock
      ((s.claims_taking 5).trans hreq)
    rw [heq, hmte, hpads]
    exact ⟨rfl, rfl, rfl, rfl⟩

/-! ### MATE_ACT_IN rises and falls (R397, R398) -/

/-- A device with its line let go stays so while MATE_ACT_IN is high. -/
theorem State.mateGo_high {st : MState} {cause : Nat} (hst : st ≠ s.mte.st) (hoff : s.mte.lock = .off) (hhigh : s.pads.mateActIn = true) :
    (s.mateGo st cause).mte = (s.inRole st cause).mte ∧ (s.mateGo st cause).pads = s.pads := by
  obtain ⟨p, e, h, o, heq⟩ := s.mateGo_changes cause hst
  have hwaits : (((s.inRole st cause).withEnds p e h o).claims && !s.pads.mateActIn) = false := by rw [hhigh]; exact Bool.and_false _
  rw [heq, State.interlock_waits (s := (s.inRole st cause).withEnds p e h o) hoff hwaits]
  exact ⟨rfl, rfl⟩

def State.withActIn (s : State) (high : Bool) : State := s.modPads fun p => { p with mateActIn := high }

/-- What a rise of MATE_ACT_IN does: side 1 withdraws, side 0 insists (Table 14-2). -/
def State.actRisen (s : State) : State :=
  match s.mte.lock with
  | .claim => if s.pads.mateSide then ((s.withActIn true).setLock .off false false).claimFailed
    else (s.withActIn true).modMte fun x => { x with timer := false }
  | .granted => if s.pads.mateSide then (s.withActIn true).setLock .off false false
    else (s.withActIn true).modMte fun x => { x with lock := .claim, timer := false }
  | _ => (s.withActIn true).interlock

/-- What a fall of MATE_ACT_IN does: a claim that waited begins its time. -/
def State.actFallen (s : State) : State :=
  match s.mte.lock with
  | .claim => (s.withActIn false).modMte fun x => { x with timer := true }
  | _ => (s.withActIn false).interlock

theorem exec_actRise (hlow : s.pads.mateActIn = false) : exec (.mateActInChange true) s = mateEnd s.actRisen := by
  change execMateActInChange true s = _
  unfold execMateActInChange
  rw [if_neg (by rw [hlow]; decide)]
  have hlock : (s.modPads fun p => { p with mateActIn := true }).mte.lock = s.mte.lock := rfl
  dsimp only
  rw [hlock]
  unfold State.actRisen
  cases s.mte.lock <;> rfl

theorem exec_actFall (hhigh : s.pads.mateActIn = true) : exec (.mateActInChange false) s = mateEnd s.actFallen := by
  change execMateActInChange false s = _
  unfold execMateActInChange
  rw [if_neg (by rw [hhigh]; decide)]
  have hlock : (s.modPads fun p => { p with mateActIn := false }).mte.lock = s.mte.lock := rfl
  dsimp only
  rw [hlock]
  unfold State.actFallen
  cases s.mte.lock <;> rfl

theorem State.claimFailed_mateActIn (s : State) : s.claimFailed.pads.mateActIn = s.pads.mateActIn := by
  unfold State.claimFailed
  split
  · exact s.mateGo_mateActIn _ _
  · rfl

theorem State.actRisen_mateActIn (s : State) : s.actRisen.pads.mateActIn = true := by
  unfold State.actRisen
  split
  · split
    · exact State.claimFailed_mateActIn _
    · rfl
  · split <;> rfl
  · exact State.interlock_mateActIn _

theorem State.actFallen_mateActIn (s : State) : s.actFallen.pads.mateActIn = false := by
  unfold State.actFallen
  split
  · rfl
  · exact State.interlock_mateActIn _

/-- Side 1 withdraws its claim, and goes from TAKING back to STANDBY. -/
theorem State.actRisen_withdraws (hlock : s.mte.lock = .claim) (hside : s.pads.mateSide = true) :
    s.actRisen.mte.lock = .off ∧ s.actRisen.pads.mateActOut = false
      ∧ s.actRisen.mte.st = if s.mte.st = .taking then .standby else s.mte.st := by
  have hrisen : s.actRisen = if s.mte.st = .taking then ((s.withActIn true).setLock .off false false).mateGo .standby 0
      else (s.withActIn true).setLock .off false false := by
    unfold State.actRisen
    rw [hlock, if_pos hside]
    rfl
  by_cases hst : s.mte.st = .taking
  · obtain ⟨hmte, hpads⟩ := State.mateGo_high (s := (s.withActIn true).setLock .off false false) (st := .standby) (cause := 0)
      (fun h => absurd (h.trans hst) (by decide)) rfl rfl
    rw [hrisen, if_pos hst, if_pos hst, hmte, hpads]
    exact ⟨rfl, rfl, rfl⟩
  · rw [hrisen, if_neg hst, if_neg hst]
    exact ⟨rfl, rfl, rfl⟩

theorem State.actRisen_insists (hlock : s.mte.lock = .claim) (hside : s.pads.mateSide = false) :
    s.actRisen = (s.withActIn true).modMte fun x => { x with timer := false } := by
  unfold State.actRisen
  rw [hlock, hside]
  rfl

theorem State.actRisen_granted (hlock : s.mte.lock = .granted) : s.actRisen =
    if s.pads.mateSide then (s.withActIn true).setLock .off false false
    else (s.withActIn true).modMte fun x => { x with lock := .claim, timer := false } := by
  unfold State.actRisen
  rw [hlock]

theorem actRise_completes {P : State → Prop} (hlow : s.pads.mateActIn = false) (hP : P s.actRisen.settle) :
    Completes (.mateActInChange true) s P :=
  completes_finish ((exec_actRise hlow).trans (congrArg finish (State.mateLook_high s.actRisen_mateActIn))) hP

/-- Settles O60: the rise leaves MATE_ACT_IN high, under which an expiry does nothing. -/
theorem risePreventsGrant : Obligations.RisePreventsGrant := by
  unfold Obligations.RisePreventsGrant
  intro s hlock hlow
  refine actRise_completes hlow ⟨?_, if_neg fun h => ?_⟩
  · rw [State.settle_mte]
    cases hside : s.pads.mateSide with
    | true =>
      rw [(State.actRisen_withdraws hlock hside).1]
      decide
    | false =>
      rw [State.actRisen_insists hlock hside]
      exact fun h => absurd (hlock.symm.trans h) (by decide)
  · obtain ⟨-, -, hstays⟩ := h
    rw [State.settle_pads, State.actRisen_mateActIn] at hstays
    exact absurd hstays (by decide)

theorem State.mateLook_mateActIn (s : State) : s.mateLook.pads.mateActIn = s.pads.mateActIn := by
  rcases s.mateLook_cases with heq | ⟨-, -, -, heq⟩
  · rw [heq]
  · rw [heq, State.mateGo_mateActIn]

/-- A claim waits for MATE_ACT_IN, and begins its time when it falls; a wish for the line becomes a claim then. -/
theorem mateActInChange_falls (hhigh : s.pads.mateActIn = true) : Completes (.mateActInChange false) s fun u => u.pads.mateActIn = false
    ∧ (s.mte.lock = .claim → u.mte.lock = .claim ∧ u.mte.timer = true)
    ∧ (s.mte.lock = .off → s.claims = true → u.mte.lock = .claim ∧ u.mte.timer = true ∧ u.pads.mateActOut = true) := by
  refine completes_finish (exec_actFall hhigh) ⟨?_, fun hlock => ?_, fun hlock hclaims => ?_⟩
  · rw [State.settle_pads, State.mateLook_mateActIn, State.actFallen_mateActIn]
  · have hfall : s.actFallen = (s.withActIn false).modMte fun x => { x with timer := true } := by
      unfold State.actFallen
      rw [hlock]
    obtain ⟨hkept, htimer, -⟩ := s.actFallen.mateLook_keeps (.inl (by rw [hfall]; exact hlock))
    rw [State.settle_mte, hkept, htimer, hfall]
    exact ⟨hlock, rfl⟩
  · have hfall : s.actFallen = (s.withActIn false).setLock .claim true true := by
      unfold State.actFallen
      rw [hlock]
      exact State.interlock_claims (s := s.withActIn false) hlock hclaims rfl
    obtain ⟨hkept, htimer, -, hpads⟩ := s.actFallen.mateLook_keeps (.inl (by rw [hfall]; rfl))
    rw [State.settle_mte, State.settle_pads, hkept, htimer, hpads, hfall]
    exact ⟨rfl, rfl, rfl⟩

/-! ### What a change of role, a frame sent and a change told leave as they are -/

/-- The mate logic but for its role, the interlock, and the numbers of what it has sent. -/
def Mte.session (x : Mte) : Mte := { x with st := .unpaired, lock := .off, timer := false, cause := 0, fseqTx := 0, dseq := 0 }

/-- A function that each step of a fold keeps is kept by the fold. -/
theorem foldl_kept {α β : Type} {f : State → α → State} {g : State → β} (h : ∀ s x, g (f s x) = g s) :
    ∀ (l : List α) (s : State), g (l.foldl f s) = g s
  | [], _ => rfl
  | x :: xs, s => (foldl_kept h xs (f s x)).trans (h s x)

theorem State.interlock_session (s : State) : s.interlock.mte.session = s.mte.session := by
  obtain ⟨_, _, _, h⟩ := s.interlock_setLock
  rw [h]
  rfl

theorem State.mateGo_session (s : State) (st : MState) (cause : Nat) : (s.mateGo st cause).mte.session = s.mte.session := by
  by_cases hst : st = s.mte.st
  · unfold State.mateGo
    rw [if_pos hst]
  · obtain ⟨p, e, h, o, heq⟩ := s.mateGo_changes cause hst
    rw [heq, State.interlock_session]
    rfl

theorem State.mateLook_session (s : State) : s.mateLook.mte.session = s.mte.session := by
  unfold State.mateLook
  split
  · exact s.mateGo_session _ _
  · rfl

theorem State.feltSend_session (s : State) (type : Nat) (body : Bytes) : (s.feltSend type body).mte.session = s.mte.session := by
  unfold State.feltSend
  split <;> rfl

theorem State.delta_session (s : State) (d : Delta) (ream : Option (Fin 4 × W32)) : (s.delta d ream).1.mte.session = s.mte.session := by
  unfold State.delta
  split
  · exact State.feltSend_session ..
  · rfl

theorem State.sendSnaps_session (s : State) : s.sendSnaps.mte.session = s.mte.session :=
  (State.feltSend_session ..).trans (foldl_kept (g := fun s => s.mte.session) (fun s _ => s.feltSend_session ..) _ s)

theorem State.sendSnaps_st (s : State) : s.sendSnaps.mte.st = s.mte.st :=
  State.sendSnaps_only (ps := [.out, .mte]) (.refl s) rfl .role rfl

theorem State.delta_st (s : State) (d : Delta) (ream : Option (Fin 4 × W32)) : (s.delta d ream).1.mte.st = s.mte.st :=
  State.delta_only (ps := [.out, .counts, .mte]) (.refl s) d ream rfl .role rfl

theorem Mte.epoch_of_session {x y : Mte} (h : x.session = y.session) : x.epoch = y.epoch := by
  have hepoch := congrArg Mte.epoch h
  exact hepoch

theorem Only.epoch {ps : List Area} (h : Only ps s t) (hmte : ps.contains .mte = false) : t.mte.epoch = s.mte.epoch := by
  have hepoch := congrArg Mte.epoch (show t.mte.rest = s.mte.rest from h .mte hmte)
  exact hepoch

theorem State.txDone_session (s : State) (m k : Fin 4) : (s.txDone m k).mte.session = s.mte.session := by
  have htold : ((s.keyDone m k).lknDelta m k none).1.mte.session = s.mte.session := State.delta_session ..
  unfold State.txDone
  dsimp only
  split
  · exact htold
  · have hends := State.endHalts_only (ps := [.counts, .evrQueue, .cur]) (.refl (((s.keyDone m k).lknDelta m k none).1.countMill m 1 12 0)) 0
      ((s.keyDone m k).lknDelta m k none).2 (s.lkn m k).halts rfl
    have hsession := congrArg Mte.session (show _ = Mte.rest _ from hends .mte rfl)
    exact Eq.trans hsession htold

/-- Becoming ACTIVE forgets the records kept for comparison. -/
theorem State.becomeActive_mte (s : State) : s.becomeActive.mte.st = .active ∧ s.becomeActive.mte.epoch = s.mte.epoch := by
  unfold State.becomeActive
  dsimp only
  refine ⟨?_, ?_⟩
  · rw [State.delta_st, State.sendSnaps_st, State.mateGo_st]
  · exact (Mte.epoch_of_session ((State.delta_session ..).trans ((State.sendSnaps_session _).trans (State.mateGo_session ..)))).trans rfl

theorem State.becomeActive_lci (s : State) (m : Fin 4) : s.becomeActive.lci m = s.lci m :=
  State.becomeActive_only (ps := [.out, .host, .pads, .counts, .evrQueue, .role, .mte]) (.refl s) rfl .lci rfl m

/-! ### What a change told by the active leaves of the epoch (R406, R410) -/

theorem State.applyDelta_epoch (s : State) (d : Delta) : (s.applyDelta d).mte.epoch = s.mte.epoch := by
  have hkept : ∀ {t : State}, Only [.out, .status, .counts, .evrQueue, .timeBases, .tim, .mem, .line, .dkl, .sac, .sch, .ports, .trib, .tribOld,
      .sa, .cur, .lanes] s t → t.mte.epoch = s.mte.epoch := fun h => h.epoch rfl
  cases d with
  | sa sax d c => exact hkept (State.applySa_only (.refl s) sax d c rfl)
  | trib n a m p r q l g => exact hkept (State.applyTrib_only (.refl s) n a m p r q l g rfl)
  | pageArm m act v =>
    unfold State.applyDelta
    dsimp only
    split
    · split
      · exact hkept (State.modDkl_only (State.flipEffect_only (.refl s) m _ rfl) m _ rfl)
      · rfl
    · rfl
  | shaper n en b =>
    unfold State.applyDelta
    dsimp only
    split
    · exact hkept (State.setShaper_only (.refl s) _ n en _ rfl)
    · rfl
  | policer m n v => exact hkept (State.setPolicer_only (.refl s) m n _ rfl)
  | sc | lkn | keyArm | entries | attrs | gate | trig | servo | tko => rfl

theorem State.feltSend_epoch (s : State) (type : Nat) (body : Bytes) : (s.feltSend type body).mte.epoch = s.mte.epoch :=
  Mte.epoch_of_session (s.feltSend_session type body)

theorem State.takeDelta_epoch (s : State) (n : W32) (body : Bytes) : (s.takeDelta n body).mte.epoch = s.mte.epoch := by
  unfold State.takeDelta
  dsimp only
  rw [State.feltSend_epoch]
  split
  · rfl
  · exact State.applyDelta_epoch ..
  · split
    · exact State.applyDelta_epoch ..
    · rfl

theorem State.applyHeld_epoch (s : State) (all : Bool) : (s.applyHeld all).mte.epoch = s.mte.epoch := by
  unfold State.applyHeld
  dsimp only
  split
  · rfl
  · rw [State.feltSend_epoch, foldl_kept (g := fun s => s.mte.epoch) fun s h => s.applyDelta_epoch _]
    rfl

theorem State.judgeDig_epoch (s : State) (m : Fin 4) (x y : RxRec) : (s.judgeDig m x y).mte.epoch = s.mte.epoch := by
  unfold State.judgeDig
  split
  · dsimp only
    generalize (if x.dig = y.dig then 0 else s.mte.follow[m].mism + 1) = n
    split
    · rfl
    · split <;> rfl
  · rfl

theorem State.compareRx_epoch (s : State) (m : Fin 4) (r : RxRec) : (s.compareRx m r).mte.epoch = s.mte.epoch := by
  unfold State.compareRx
  dsimp only
  split
  · exact State.judgeDig_epoch ..
  · rfl

theorem State.followLine_epoch (s : State) (m : Fin 4) (lsc : W32) : (s.followLine m lsc).mte.epoch = s.mte.epoch :=
  (State.followLine_only (ps := [.status, .counts, .evrQueue, .tim, .line, .dkl, .lanes]) (.refl s) m lsc rfl).epoch rfl

theorem State.takeDigest_epoch (s : State) (b : Bytes) : (s.takeDigest b).mte.epoch = s.mte.epoch := by
  have hagreed : ∀ (x : State) m p, (x.agreeDefects m p).mte.epoch = x.mte.epoch := fun _ _ _ => rfl
  have hnoted : ∀ (x : State) (m : Fin 4) (lsc : W32) (f : Mte → Vector Follow 4),
      ((x.followLine m lsc).modMte fun y => { y with follow := f y }).mte.epoch = x.mte.epoch := fun x m lsc _ => x.followLine_epoch m lsc
  have htold : ∀ (c : Prop) [Decidable c] (x : State) ty d, (if c then x else x.feltSend ty d).mte.epoch = x.mte.epoch := fun c _ x ty d => by
    split
    · rfl
    · exact x.feltSend_epoch ty d
  unfold State.takeDigest
  dsimp only
  rw [State.applyHeld_epoch, hagreed]
  split
  · rw [State.compareRx_epoch, hnoted, htold]
  · rw [hnoted, htold]

theorem State.takeCkpt_epoch (s : State) (b : Bytes) : (s.takeCkpt b).mte.epoch = s.mte.epoch :=
  (State.takeCkpt_only (ps := [.mem, .sac]) (.refl s) b rfl).epoch rfl

theorem State.takeQueued_epoch : ∀ (fs : List Bytes) (s : State), (s.takeQueued fs).mte.epoch = s.mte.epoch
  | [], _ => rfl
  | f :: fs, s => by
    unfold State.takeQueued
    dsimp only
    split
    · rw [takeQueued_epoch fs, State.takeDelta_epoch]
    · split
      · rw [takeQueued_epoch fs, State.takeDigests, foldl_kept (g := fun s => s.mte.epoch) State.takeDigest_epoch]
      · split
        · rw [takeQueued_epoch fs, State.takeCkpts, foldl_kept (g := fun s => s.mte.epoch) State.takeCkpt_epoch]
        · exact takeQueued_epoch fs s

/-! ### The takeover (R410) -/

theorem State.setBit_mte (s : State) (a i : Nat) (b : Bool) : (s.setBit a i b).mte = s.mte := rfl

/-- A mill without a current key is passed over; else the key's sequence is set, or its range is done. -/
theorem State.takeoverSeq_cases (s : State) (m : Fin 4) : s.takeoverSeq m = s ∨ ∃ k,
    s.takeoverSeq m = (s.txDone m k).setBit (Reg.lci m 4) 9 ∨ ∃ n, s.takeoverSeq m = s.modLkn m k fun x => { x with seq := n } := by
  unfold State.takeoverSeq
  split
  case h_1 k _ =>
    dsimp only
    generalize max s.mte.follow[m].seq (s.lkn m k).seq + 2 ^ 20 = n
    by_cases hn : 2 ^ 48 < n
    · rw [if_pos hn]
      exact .inr ⟨k, .inl rfl⟩
    · rw [if_neg hn]
      exact .inr ⟨k, .inr ⟨n, rfl⟩⟩
  case h_2 => exact .inl rfl

theorem State.takeoverSeq_session (s : State) (m : Fin 4) : (s.takeoverSeq m).mte.session = s.mte.session := by
  rcases s.takeoverSeq_cases m with heq | ⟨k, heq | ⟨n, heq⟩⟩
  · rw [heq]
  · rw [heq, State.setBit_mte, State.txDone_session]
  · rw [heq]
    rfl

/-- The state in which a takeover gives the mills their transmit sequences. -/
def State.takenOver (s : State) : State :=
  (((s.takeQueued s.felt.inbox).modFelt fun x => { x with inbox := x.inbox.filter fun f => !carriesState f }).applyHeld true).modMte fun x =>
    { x with epoch := x.epoch + 1, tko := x.tko + 1 }

theorem State.takeover_eq (s : State) : s.takeover = ((List.finRange 4).foldl State.takeoverSeq s.takenOver).becomeActive := rfl

theorem State.takeover_mte (s : State) : s.takeover.mte.st = .active ∧ s.takeover.mte.epoch = s.mte.epoch + 1 := by
  obtain ⟨hst, hepoch⟩ := ((List.finRange 4).foldl State.takeoverSeq s.takenOver).becomeActive_mte
  rw [State.takeover_eq, hepoch]
  refine ⟨hst, ?_⟩
  have hseqs := Mte.epoch_of_session (foldl_kept (g := fun s => s.mte.session) State.takeoverSeq_session (List.finRange 4) s.takenOver)
  rw [hseqs]
  refine congrArg (· + 1) ?_
  rw [State.applyHeld_epoch]
  exact s.takeQueued_epoch _

/-- Where no frame waits and no change is held, a takeover leaves the lines and what has been followed as they are. -/
theorem State.takenOver_quiet (hin : s.felt.inbox = []) (hheld : s.mte.held = []) :
    s.takenOver.mills = s.mills ∧ s.takenOver.mte.follow = s.mte.follow := by
  unfold State.takenOver
  rw [hin]
  unfold State.takeQueued State.applyHeld
  have hnone : (s.modFelt fun x => { x with inbox := x.inbox.filter fun f => !carriesState f }).mte.held = [] := hheld
  rw [hnone]
  exact ⟨rfl, rfl⟩

theorem State.takeoverSeq_other (s : State) {m k : Fin 4} (hne : m ≠ k) : (s.takeoverSeq m).lci k = s.lci k := by
  rcases s.takeoverSeq_cases m with heq | ⟨j, heq | ⟨n, heq⟩⟩
  · rw [heq]
  · have hmills : (s.takeoverSeq m).mills = (s.keyDone m j).mills := by
      rw [heq, State.setBit_mills, (s.txDone_blocks m j none).2]
    rw [State.lci_of_mills hmills, State.keyDone, State.modLkn, State.lci_modLci_ne _ m k _ hne]
  · rw [heq, State.modLkn, State.lci_modLci_ne _ m k _ hne]

theorem State.foldl_takeoverSeq_other {k : Fin 4} : ∀ (l : List (Fin 4)) (s : State), k ∉ l → (l.foldl State.takeoverSeq s).lci k = s.lci k
  | [], _, _ => rfl
  | m :: ms, s, h => by
    obtain ⟨hne, hrest⟩ := (List.mem_cons.not.trans not_or).mp h
    exact (foldl_takeoverSeq_other ms (s.takeoverSeq m) hrest).trans (s.takeoverSeq_other (Ne.symm hne))

/-- Each mill's sequence is set once, from what the mill itself holds. -/
theorem State.foldl_takeoverSeq_lci (s : State) (m : Fin 4) :
    ∃ x : State, ((List.finRange 4).foldl State.takeoverSeq s).lci m = (x.takeoverSeq m).lci m ∧ x.lci m = s.lci m
      ∧ x.mte.session = s.mte.session := by
  obtain ⟨l, r, hsplit⟩ := List.append_of_mem (List.mem_finRange m)
  have hnodup := hsplit ▸ List.nodup_finRange 4
  obtain ⟨-, hright, hapart⟩ := List.nodup_append.mp hnodup
  refine ⟨l.foldl State.takeoverSeq s, ?_, ?_, foldl_kept (g := fun s => s.mte.session) State.takeoverSeq_session l s⟩
  · rw [hsplit, List.foldl_append, List.foldl_cons]
    exact State.foldl_takeoverSeq_other r _ (List.nodup_cons.mp hright).1
  · exact State.foldl_takeoverSeq_other l s fun hm => hapart m hm m List.mem_cons_self rfl

/-- The transmit sequence that a takeover gives the mill: 2^20 past what was followed, or past its own. -/
theorem State.takeoverSeq_lkn {m k : Fin 4} (hcur : (s.lci m).current = some k) :
    let n := max s.mte.follow[m].seq (s.lkn m k).seq + 2 ^ 20
    (n ≤ 2 ^ 48 → ((s.takeoverSeq m).lkn m k).seq = n) ∧ (2 ^ 48 < n → ((s.takeoverSeq m).lkn m k).tx = .done) := by
  intro n
  have heq : s.takeoverSeq m = if 2 ^ 48 < n then (s.txDone m k).setBit (Reg.lci m 4) 9 else s.modLkn m k fun x => { x with seq := n } := by
    unfold State.takeoverSeq
    rw [hcur]
  refine ⟨fun hle => ?_, fun hlt => ?_⟩
  · rw [heq, if_neg (Nat.not_lt.mpr hle), State.lkn_modLkn]
  · have hmills : (s.takeoverSeq m).mills = (s.keyDone m k).mills := by
      rw [heq, if_pos hlt, State.setBit_mills, (s.txDone_blocks m k none).2]
    rw [State.lkn, State.lci_of_mills hmills]
    exact congrArg Lkn.tx (s.lkn_modLkn m k _)

/-! ### The grant and the release (R397, R398, R410) -/

theorem exec_claimTimerExpire (hlock : s.mte.lock = .claim) (htimer : s.mte.timer = true) (hlow : s.pads.mateActIn = false) :
    exec .claimTimerExpire s = mateEnd (if s.mte.st = .taking then (s.modMte fun x => { x with lock := .granted, timer := false }).takeover
      else s.modMte fun x => { x with lock := .granted, timer := false }) :=
  if_pos ⟨hlock, htimer, by rw [hlow]; rfl⟩

/-- Outside TAKING the grant changes nothing but the interlock. -/
theorem claimTimer_grants (hlock : s.mte.lock = .claim) (htimer : s.mte.timer = true) (hlow : s.pads.mateActIn = false)
    (hst : s.mte.st ≠ .taking) : Completes .claimTimerExpire s fun u =>
      u.mte.lock = .granted ∧ u.mte.timer = false ∧ u.mte.epoch = s.mte.epoch := by
  refine completes_finish ((exec_claimTimerExpire hlock htimer hlow).trans (congrArg mateEnd (if_neg hst))) ?_
  obtain ⟨hkept, htime, hepoch, -⟩ := (s.modMte fun x => { x with lock := .granted, timer := false }).mateLook_keeps (.inr rfl)
  rw [State.settle_mte, hkept, htime, hepoch]
  exact ⟨rfl, rfl, rfl⟩

/-- In TAKING the grant makes the device active. -/
theorem claimTimer_takes_over (hlock : s.mte.lock = .claim) (htimer : s.mte.timer = true) (hlow : s.pads.mateActIn = false)
    (hst : s.mte.st = .taking) : Completes .claimTimerExpire s fun u => u.mte.st = .active ∧ u.mte.epoch = s.mte.epoch + 1
      ∧ (s.felt.inbox = [] → s.mte.held = [] → ∀ m k, (s.lci m).current = some k →
        let n := max s.mte.follow[m].seq (s.lkn m k).seq + 2 ^ 20
        (n ≤ 2 ^ 48 → (u.lkn m k).seq = n) ∧ (2 ^ 48 < n → (u.lkn m k).tx = .done)) := by
  let g := s.modMte fun x => { x with lock := .granted, timer := false }
  obtain ⟨hactive, hepoch⟩ := g.takeover_mte
  have hlook : g.takeover.mateLook = g.takeover := State.mateLook_other (by rw [hactive]; decide)
  refine completes_finish ((exec_claimTimerExpire hlock htimer hlow).trans
    ((congrArg mateEnd (if_pos hst)).trans (congrArg finish hlook))) ?_
  rw [State.settle_mte]
  refine ⟨hactive, hepoch, fun hin hheld m k hcur => ?_⟩
  obtain ⟨hmills, hfollow⟩ := State.takenOver_quiet (s := g) hin hheld
  obtain ⟨x, hset, hlci, hsession⟩ := g.takenOver.foldl_takeoverSeq_lci m
  have hlkn : g.takeover.settle.lkn m k = (x.takeoverSeq m).lkn m k :=
    congrArg (fun y : Lci => y.lkn[k]) ((State.lci_of_mills (State.settle_mills _) m).trans ((State.becomeActive_lci _ m).trans hset))
  have hown : x.lci m = s.lci m := hlci.trans (State.lci_of_mills hmills m)
  have hseen : x.mte.follow = s.mte.follow := (congrArg Mte.follow hsession : _).trans hfollow
  have hseq : (x.lkn m k).seq = (s.lkn m k).seq := congrArg (fun y : Lci => y.lkn[k].seq) hown
  have h := State.takeoverSeq_lkn (s := x) (m := m) (k := k) (by rw [hown]; exact hcur)
  rwa [hseen, hseq, ← hlkn] at h

/-- With the line let go, the interlock claims it anew where the device wants it and MATE_ACT_IN is low. -/
theorem State.interlock_off (hoff : s.mte.lock = .off) : s.interlock =
    if s.claims && !s.pads.mateActIn then s.setLock .claim true true else s := by
  unfold State.interlock
  rw [hoff]
  rfl

/-- A takeover at MATE_ACT_IN low claims the line. -/
theorem State.mateLook_off (hoff : s.mte.lock = .off) : s.mateLook.mte.lock = .off ∨ s.mateLook.mte.lock = .claim := by
  rcases s.mateLook_cases with heq | ⟨hst, hlow, hreq, heq⟩
  · rw [heq]
    exact .inl hoff
  · obtain ⟨p, e, h, o, hgo⟩ := s.mateGo_changes (st := .taking) 5 (by rw [hst]; decide)
    rw [heq, hgo, State.interlock_claims (s := (s.inRole .taking 5).withEnds p e h o) hoff ((s.claims_taking 5).trans hreq) hlow]
    exact .inr rfl

/-- A claim on a line that is being let go counts no more than on one that is. -/
theorem State.claims_released (hlock : s.mte.lock = .releasing) : (s.setLock .off false false).claims = s.claims := by
  unfold State.claims
  rw [show (s.setLock .off false false).mte.st = s.mte.st from rfl, hlock]
  rfl

/-- When the release time is over the interlock looks for the line again. -/
theorem releasing_expires (hlock : s.mte.lock = .releasing) : Completes .releasingExpire s fun u => (u.mte.lock = .off ∨ u.mte.lock = .claim)
    ∧ (s.mte.st ≠ .standby → (u.mte.lock = .claim ↔ s.claims = true ∧ s.pads.mateActIn = false)
      ∧ u.pads.mateActOut = (s.claims && !s.pads.mateActIn)) := by
  have hgone := State.interlock_off (s := s.setLock .off false false) rfl
  rw [State.claims_released hlock] at hgone
  refine completes_finish (t := (s.setLock .off false false).interlock.mateLook) (if_pos hlock) ?_
  rw [State.settle_mte, State.settle_pads, hgone]
  cases hgo : s.claims && !s.pads.mateActIn with
  | true =>
    rw [Bool.and_eq_true, Bool.not_eq_true'] at hgo
    obtain ⟨hclaims, hlow⟩ := hgo
    rw [show (s.setLock .off false false).pads.mateActIn = s.pads.mateActIn from rfl, hclaims, hlow]
    obtain ⟨hkept, -, -, hpads⟩ := ((s.setLock .off false false).setLock .claim true true).mateLook_keeps (.inl rfl)
    refine ⟨.inr hkept, fun _ => ⟨iff_of_true hkept ⟨rfl, rfl⟩, ?_⟩⟩
    exact congrArg Pads.mateActOut hpads
  | false =>
    rw [show (s.setLock .off false false).pads.mateActIn = s.pads.mateActIn from rfl, hgo]
    refine ⟨State.mateLook_off rfl, fun hst => ?_⟩
    rw [if_neg Bool.false_ne_true, State.mateLook_other (s := s.setLock .off false false) hst]
    refine ⟨iff_of_false (fun h => absurd h (by decide : Interlock.off ≠ .claim)) fun ⟨hclaims, hlow⟩ => ?_, rfl⟩
    rw [hclaims, hlow] at hgo
    exact absurd hgo (by decide)

/-- Settles O52: a rise by what the interlock stands at, a fall, the grant, and the end of the release. -/
theorem interlockGrantsTheLine : Obligations.InterlockGrantsTheLine := by
  unfold Obligations.InterlockGrantsTheLine
  refine fun s => ⟨fun hlow => actRise_completes hlow ?_, mateActInChange_falls, fun hlock htimer hlow => ?_, releasing_expires⟩
  · rw [State.settle_mte, State.settle_pads]
    refine ⟨s.actRisen_mateActIn, State.actRisen_withdraws, fun hlock hside => ?_, fun hlock hside => ?_, fun hlock hside => ?_⟩
    · rw [State.actRisen_insists hlock hside]
      exact ⟨rfl, rfl⟩
    · rw [State.actRisen_granted hlock, if_pos hside]
      exact ⟨rfl, rfl⟩
    · rw [State.actRisen_granted hlock, if_neg (by rw [hside]; decide)]
      exact ⟨rfl, rfl⟩
  · by_cases hst : s.mte.st = .taking
    · exact (claimTimer_takes_over hlock htimer hlow hst).mono fun u hu => ⟨fun h => absurd hst h, fun _ => hu⟩
    · exact (claimTimer_grants hlock htimer hlow hst).mono fun u hu => ⟨fun _ => hu, fun h => absurd h hst⟩

end Sys2Proof.Machine
end

section
/-! A mate pair's commands, sessions and roles (R396, R402 to R404, R409, R411, R412, R417; Tables 14-3, 14-4 and 14-8). -/

namespace Sys2Proof.Machine

variable {s t : State}

/-! ### A field that is written reads back -/

theorem natBits_mod {k lo len : Nat} (n : Nat) (h : lo + len ≤ k) : natBits (n % 2 ^ k) lo len = natBits n lo len := by
  unfold natBits
  refine Nat.eq_of_testBit_eq fun i => ?_
  rw [Nat.testBit_mod_two_pow, Nat.testBit_mod_two_pow, Nat.testBit_div_two_pow, Nat.testBit_div_two_pow, Nat.testBit_mod_two_pow]
  by_cases hi : i < len
  · have hk : i + lo < k := by omega
    simp [hi, hk]
  · simp [hi]

theorem natBits_putField (v lo len x : Nat) : natBits (putField v lo len x) lo len = x % 2 ^ len := by
  have hpos : 0 < 2 ^ lo := Nat.two_pow_pos lo
  have hv : v = (v / 2 ^ lo / 2 ^ len * 2 ^ len + natBits v lo len) * 2 ^ lo + v % 2 ^ lo := by
    unfold natBits
    rw [Nat.div_add_mod' (v / 2 ^ lo) (2 ^ len), Nat.div_add_mod' v (2 ^ lo)]
  have hput : putField v lo len x = v % 2 ^ lo + (v / 2 ^ lo / 2 ^ len * 2 ^ len + x % 2 ^ len) * 2 ^ lo := by
    unfold putField
    rw [Nat.add_mul] at hv ⊢
    omega
  unfold natBits
  rw [hput, Nat.add_mul_div_right _ _ hpos, Nat.div_eq_of_lt (Nat.mod_lt _ hpos), Nat.zero_add, Nat.add_comm,
    Nat.add_mul_mod_self_right, Nat.mod_mod]

theorem State.fld_setFld (hc : s.canonical = true) (a : Nat) {lo len : Nat} (x : Nat) (h : lo + len ≤ 32) :
    (s.setFld a lo len x).fld a lo len = x % 2 ^ len := by
  unfold State.fld State.setFld
  rw [State.reg_setReg hc, natBits_mod _ h, natBits_putField]

theorem State.bit_setBit (hc : s.canonical = true) (a : Nat) {i : Nat} (b : Bool) (h : i < 32) : (s.setBit a i b).bit a i = b := by
  have hfld := State.fld_setFld hc a (lo := i) (len := 1) (b2n b) h
  show decide (natBits ((s.setFld a i 1 (b2n b)).reg a) i 1 = 1) = b
  rw [show natBits ((s.setFld a i 1 (b2n b)).reg a) i 1 = _ from hfld]
  cases b <;> rfl

/-! ### What the mate logic does outside itself -/

theorem State.mateGo_regs (s : State) (st : MState) (cause : Nat) : (s.mateGo st cause).regs = s.regs := by
  obtain ⟨_, _, _, _, _, _, h⟩ := s.mateGo_ends st cause
  rw [h]
  rfl

theorem State.interlock_regs (s : State) : s.interlock.regs = s.regs := by
  obtain ⟨_, _, _, h⟩ := s.interlock_setLock
  rw [h]
  rfl

theorem State.feltSend_regs (s : State) (type : Nat) (body : Bytes) : (s.feltSend type body).regs = s.regs := by
  obtain ⟨_, _, h⟩ := s.feltSend_ends type body
  rw [h]

theorem State.feltSend_st (s : State) (type : Nat) (body : Bytes) : (s.feltSend type body).mte.st = s.mte.st := by
  unfold State.feltSend
  split <;> rfl

theorem State.feltSend_cause (s : State) (type : Nat) (body : Bytes) : (s.feltSend type body).mte.cause = s.mte.cause := by
  unfold State.feltSend
  split <;> rfl

theorem State.mateLook_regs (s : State) : s.mateLook.regs = s.regs := s.mateLook_blocks.1

theorem State.interlock_cause (s : State) : s.interlock.mte.cause = s.mte.cause := by
  obtain ⟨_, _, _, h⟩ := s.interlock_setLock
  rw [h]
  rfl

theorem State.mateGo_cause {st : MState} {cause : Nat} (hst : st ≠ s.mte.st) (hcause : cause ≠ 0) : (s.mateGo st cause).mte.cause = cause := by
  obtain ⟨p, e, h, o, heq⟩ := s.mateGo_changes cause hst
  rw [heq, State.interlock_cause]
  exact if_neg hcause

theorem State.mateRelease_role (hst : s.mte.st ≠ .released) {cause : Nat} (hcause : cause ≠ 0) :
    (s.mateRelease cause).mte.st = .released ∧ (s.mateRelease cause).mte.cause = cause := by
  unfold State.mateRelease
  rw [State.feltSend_st, State.feltSend_cause, State.mateGo_st, State.mateGo_cause (Ne.symm hst) hcause]
  exact ⟨rfl, rfl⟩

theorem State.mateRelease_session (s : State) (cause : Nat) : (s.mateRelease cause).mte.session = s.mte.session :=
  (State.feltSend_session ..).trans (State.mateGo_session ..)

theorem State.mateRelease_regs (s : State) (cause : Nat) : (s.mateRelease cause).regs = s.regs :=
  (State.feltSend_regs ..).trans (State.mateGo_regs ..)

/-- A finding leaves the session as it is. -/
theorem State.mateFinding_session (s : State) (cause : Nat) : (s.mateFinding cause).mte.session = s.mte.session := by
  unfold State.mateFinding
  split
  · split
    · exact s.mateRelease_session cause
    · exact congrArg Mte.session (s.setBit_mte ..)
  · rfl

/-- A finding releases the line to a ready standby, where fail-over is enabled (Table 14-8). -/
theorem State.mateFinding_releases {cause : Nat} (hst : s.mte.st = .active) (hen : s.bit (Reg.mte 0) 2 = true) (hready : s.peerReady = true) :
    s.mateFinding cause = s.mateRelease cause := by
  unfold State.mateFinding
  rw [if_pos ⟨hst, hen⟩, if_pos hready]

theorem State.mateFinding_degraded {cause : Nat} (hst : s.mte.st = .active) (hen : s.bit (Reg.mte 0) 2 = true) (hready : s.peerReady = false) :
    s.mateFinding cause = s.setBit (Reg.mte 4) 12 := by
  unfold State.mateFinding
  rw [if_pos ⟨hst, hen⟩, hready]
  rfl

theorem State.mateFinding_disabled {cause : Nat} (hen : s.bit (Reg.mte 0) 2 = false) : s.mateFinding cause = s :=
  if_neg fun h => absurd (h.2.symm.trans hen) (by decide)

/-- The end of a command of the mate logic, for a state that is not STANDBY. -/
theorem completes_mateEnd_other {i : Instr} {P : State → Prop} (h : exec i s = mateEnd t) (hst : t.mte.st ≠ .standby) (hP : P t.settle) :
    Completes i s P := completes_finish (h.trans (congrArg finish (State.mateLook_other hst))) hP

/-- The session that a command of the mate logic leaves is the one before its end. -/
theorem State.mateEnd_session (s : State) : s.mateLook.settle.mte.session = s.mte.session :=
  (congrArg Mte.session (State.settle_mte _)).trans s.mateLook_session

theorem State.mateEnd_regs (s : State) : s.mateLook.settle.regs = s.regs := (State.settle_regs _).trans s.mateLook_regs

/-- Outside STANDBY a command's end leaves the mate logic as it is. -/
theorem State.mateEnd_other (hst : s.mte.st ≠ .standby) : s.mateLook.settle.mte = s.mte ∧ s.mateLook.settle.pads = s.pads := by
  rw [State.settle_mte, State.settle_pads, State.mateLook_other hst]
  exact ⟨rfl, rfl⟩

/-! ### ACT_REQ and EN (R396, R404) -/

theorem exec_actReqWrite (v : Bool) (hlive : s.feltLive = true) : exec (.actReqWrite v) s = mateEnd (s.writeActReq v) := if_pos hlive

theorem State.claimFailed_regs (s : State) : s.claimFailed.regs = s.regs := by
  unfold State.claimFailed
  split
  · exact s.mateGo_regs _ _
  · rfl

theorem State.writeActReq_regs (s : State) (v : Bool) : (s.writeActReq v).regs = (s.setBit (Reg.mte 0) 1 v).regs := by
  unfold State.writeActReq
  dsimp only
  split
  · exact State.mateRelease_regs ..
  · split
    · exact (State.claimFailed_regs _).trans (State.interlock_regs _)
    · exact State.interlock_regs _

theorem State.bit_of_regs (hregs : t.regs = s.regs) (hotp : t.otp = s.otp) (a i : Nat) : t.bit a i = s.bit a i := by
  unfold State.bit State.reg
  rw [hregs, hotp]

theorem State.writeActReq_bit (hc : s.canonical = true) (v : Bool) : (s.writeActReq v).bit (Reg.mte 0) 1 = v := by
  have hotp : (s.writeActReq v).otp = s.otp :=
    State.writeActReq_only (ps := [.out, .settings, .status, .host, .pads, .counts, .evrQueue, .role, .mte]) (.refl s) v rfl .otp rfl
  rw [State.bit_of_regs (s := s.setBit (Reg.mte 0) 1 v) (s.writeActReq_regs v) hotp, State.bit_setBit hc _ _ (by decide)]

/-- ACT_REQ cleared in TAKING: back to STANDBY, which takes nothing over without ACT_REQ. -/
theorem State.writeActReq_taking (hst : s.mte.st = .taking) (hc : s.canonical = true) :
    (s.writeActReq false).mateLook = s.writeActReq false ∧ (s.writeActReq false).mte.st = .standby := by
  have hwrite : s.writeActReq false = (s.setBit (Reg.mte 0) 1 false).interlock.claimFailed := by
    unfold State.writeActReq
    rw [hst]
    rfl
  have hfailed : (s.writeActReq false).mte.st = .standby := by
    rw [hwrite, State.claimFailed, if_pos ((State.interlock_st (s.setBit (Reg.mte 0) 1 false)).trans hst), State.mateGo_st]
  refine ⟨?_, hfailed⟩
  rcases (s.writeActReq false).mateLook_cases with heq | ⟨-, -, hreq, -⟩
  · exact heq
  · rw [State.writeActReq_bit hc] at hreq
    exact absurd hreq (by decide)

theorem State.writeActReq_releases (hst : s.mte.st = .active) : s.writeActReq false = (s.setBit (Reg.mte 0) 1 false).mateRelease 7 := by
  unfold State.writeActReq
  rw [hst]
  rfl

/-- ACT_REQ set by an unpaired device is a claim. -/
theorem State.writeActReq_claims (hst : s.mte.st = .unpaired) (hoff : s.mte.lock = .off) (hlow : s.pads.mateActIn = false)
    (hc : s.canonical = true) : s.writeActReq true = (s.setBit (Reg.mte 0) 1 true).setLock .claim true true := by
  have hclaims : (s.setBit (Reg.mte 0) 1 true).claims = true := by
    unfold State.claims
    rw [State.bit_setBit hc _ _ (by decide), State.setBit_mte, hst]
    rfl
  exact State.interlock_claims (s := s.setBit (Reg.mte 0) 1 true) hoff hclaims hlow

theorem actReqWrite_completes (v : Bool) (hlive : s.feltLive = true) : Completes (.actReqWrite v) s fun u =>
    u.regs = (s.setBit (Reg.mte 0) 1 v).regs
    ∧ (v = false → s.mte.st = .active → u.mte.st = .released ∧ u.mte.cause = 7)
    ∧ (v = false → s.mte.st = .taking → s.canonical = true → u.mte.st = .standby)
    ∧ (v = true → s.mte.st = .unpaired → s.mte.lock = .off → s.pads.mateActIn = false → s.canonical = true →
      u.mte.lock = .claim ∧ u.pads.mateActOut = true) := by
  refine completes_finish (exec_actReqWrite v hlive) ⟨(State.mateEnd_regs _).trans (s.writeActReq_regs v), fun hv hst => ?_, fun hv hst hc => ?_,
    fun hv hst hoff hlow hc => ?_⟩
  · obtain ⟨hrel, hcause⟩ := State.mateRelease_role (s := s.setBit (Reg.mte 0) 1 false) (cause := 7)
      (fun h => absurd (hst.symm.trans h) (by decide)) (by decide)
    rw [hv, State.writeActReq_releases hst, (State.mateEnd_other (by rw [hrel]; decide)).1]
    exact ⟨hrel, hcause⟩
  · obtain ⟨hlook, hstandby⟩ := State.writeActReq_taking hst hc
    rw [hv, State.settle_mte, hlook, hstandby]
  · rw [hv, State.writeActReq_claims hst hoff hlow hc]
    obtain ⟨hmte, hpads⟩ := State.mateEnd_other (s := (s.setBit (Reg.mte 0) 1 true).setLock .claim true true)
      (fun h => absurd (hst.symm.trans h) (by decide))
    rw [hmte, hpads]
    exact ⟨rfl, rfl⟩

theorem exec_mteEnWrite (v : Bool) (hlive : s.feltLive = true) : exec (.mteEnWrite v) s = mateEnd (s.writeMteEn v) := if_pos hlive

/-- EN cleared: UNPAIRED, and the session's key is gone. -/
theorem mteEnWrite_unpairs (hlive : s.feltLive = true) : Completes (.mteEnWrite false) s fun u =>
    u.regs = (s.setBit (Reg.mte 0) 0 false).regs ∧ u.mte.st = .unpaired ∧ u.mte.key = none := by
  have hst : (s.writeMteEn false).mte.st = .unpaired := State.mateGo_st ..
  have hkey : (s.writeMteEn false).mte.key = none := by
    have h := congrArg Mte.key (State.mateGo_session ((s.setBit (Reg.mte 0) 0 false).modMte fun x => { x with
      key := none, nonce := none, nonceWait := false, peerNonce := none, confirmed := false, ver := 0 }) .unpaired 0)
    exact h
  refine completes_finish (exec_mteEnWrite false hlive) ⟨(State.mateEnd_regs _).trans (State.mateGo_regs ..), ?_⟩
  rw [(State.mateEnd_other (by rw [hst]; decide)).1]
  exact ⟨hst, hkey⟩

theorem State.mateHello_regs (s : State) (nonce : Bytes) : (s.mateHello nonce).regs = s.regs := by
  unfold State.mateHello
  dsimp only
  rw [State.feltSend_regs]
  split
  · exact State.mateGo_regs ..
  · rfl

theorem State.mateHello_unpaired (hst : s.mte.st = .unpaired) (nonce : Bytes) : (s.mateHello nonce).mte.st = .pairing := by
  unfold State.mateHello
  dsimp only
  rw [State.feltSend_st]
  exact (congrArg (fun x : State => x.mte.st) (if_pos hst)).trans (State.mateGo_st ..)

theorem State.rngAsk_kept (s : State) (i : Nat) (u : RngUser) (n : Nat) :
    (s.rngAsk i u n).1.regs = s.regs ∧ (s.rngAsk i u n).1.mte = s.mte := by
  unfold State.rngAsk
  split
  · exact ⟨rfl, rfl⟩
  · split <;> exact ⟨rfl, rfl⟩

theorem State.rngAsk_answered (hst : s.rng.st ≠ .failed) (i : Nat) (u : RngUser) (n : Nat) : (s.rngAsk i u n).2 ≠ .failed := by
  unfold State.rngAsk
  rw [if_neg hst]
  split <;> exact fun h => nomatch h

theorem State.mateTryPair_regs (s : State) : s.mateTryPair.regs = s.regs := by
  unfold State.mateTryPair
  split
  · obtain ⟨hregs, -⟩ := s.rngAsk_kept 6 .mate 32
    rcases hask : s.rngAsk 6 .mate 32 with ⟨x, a⟩
    rw [hask] at hregs
    cases a with
    | data bs => exact (x.mateHello_regs _).trans hregs
    | failed => exact hregs
    | waits =>
      dsimp only
      split
      · exact (State.mateGo_regs ..).trans hregs
      · exact hregs
  · rfl

/-- An unpaired device that may draw a nonce begins to pair (Table 14-4). -/
theorem State.mateTryPair_pairs (hen : s.mateEn = true) (hup : s.felt.up = true) (hnonce : s.mte.nonce = none) (hwait : s.mte.nonceWait = false)
    (hrng : s.rng.st ≠ .failed) (hst : s.mte.st = .unpaired) : s.mateTryPair.mte.st = .pairing := by
  unfold State.mateTryPair
  rw [hen, hup, hnonce, hwait]
  obtain ⟨-, hmte⟩ := s.rngAsk_kept 6 .mate 32
  have hanswer := State.rngAsk_answered hrng 6 .mate 32
  rcases hask : s.rngAsk 6 .mate 32 with ⟨x, a⟩
  rw [hask] at hmte hanswer
  have hx : x.mte.st = .unpaired := (congrArg Mte.st hmte).trans hst
  cases a with
  | data bs => exact State.mateHello_unpaired hx _
  | failed => exact absurd rfl hanswer
  | waits => exact (congrArg (fun y : State => y.mte.st) (if_pos hx)).trans (State.mateGo_st ..)

theorem mteEnWrite_pairs (hlive : s.feltLive = true) : Completes (.mteEnWrite true) s fun u => u.regs = (s.setBit (Reg.mte 0) 0).regs
    ∧ (s.canonical = true → s.mte.st = .unpaired → s.felt.up = true → s.mte.nonce = none → s.mte.nonceWait = false →
      s.rng.st ≠ .failed → u.mte.st = .pairing) := by
  refine completes_finish (exec_mteEnWrite true hlive) ⟨(State.mateEnd_regs _).trans (State.mateTryPair_regs _), fun hc hst hup hnonce hwait hrng => ?_⟩
  have hpairs : (s.writeMteEn true).mte.st = .pairing :=
    State.mateTryPair_pairs (s := s.setBit (Reg.mte 0) 0) (State.bit_setBit hc _ _ (by decide)) hup hnonce hwait hrng hst
  rw [(State.mateEnd_other (by rw [hpairs]; decide)).1, hpairs]

/-! ### Commands, self-tests and timers (R400, R411, R412) -/

/-- What a command of the mate logic leaves in the session, where all it does is `f`. -/
theorem completes_modMte {i : Instr} {f : Mte → Mte} {P : Mte → Prop} (hx : exec i s = mateEnd (s.modMte f))
    (hP : ∀ x : Mte, x.session = (f s.mte).session → P x) : Completes i s fun u => P u.mte :=
  completes_finish hx (hP _ (State.mateEnd_session _))

theorem mateSwitch_completes (hlive : s.feltLive = true) : Completes .mateSwitch s fun u =>
    (s.mte.st ≠ .active → u.mte.cmdStatus = 2)
    ∧ (s.mte.st = .active → s.peerReady = false → u.mte = { s.mte with cmdStatus := 1 })
    ∧ (s.mte.st = .active → s.peerReady = true → u.mte.cmdStatus = 0 ∧ u.mte.st = .released ∧ u.mte.cause = 6) := by
  refine completes_finish (t := s.cmdSwitch.mateLook) (if_pos hlive) ⟨fun hst => ?_, fun hst hready => ?_, fun hst hready => ?_⟩
  · rw [State.cmdSwitch, if_pos hst]
    exact congrArg Mte.cmdStatus (State.mateEnd_session (s.modMte fun x => { x with cmdStatus := 2 }))
  · rw [State.cmdSwitch, if_neg (fun h => h hst), if_pos (by rw [hready]; rfl),
      (State.mateEnd_other (s := s.modMte fun x => { x with cmdStatus := 1 }) (fun h => absurd (hst.symm.trans h) (by decide))).1]
    rfl
  · obtain ⟨hrel, hcause⟩ := State.mateRelease_role (s := s.modMte fun x => { x with cmdStatus := 0 }) (cause := 6)
      (fun h => absurd (hst.symm.trans h) (by decide)) (by decide)
    rw [State.cmdSwitch, if_neg (fun h => h hst), if_neg (by rw [hready]; decide), (State.mateEnd_other (by rw [hrel]; decide)).1]
    exact ⟨congrArg Mte.cmdStatus (State.mateRelease_session (s.modMte fun x => { x with cmdStatus := 0 }) 6), hrel, hcause⟩

theorem mateClrDiverged_completes (hlive : s.feltLive = true) : Completes .mateClrDiverged s fun u =>
    u.mte.diverged = false ∧ u.mte.cmdStatus = 0 ∧ ∀ m : Fin 4, u.mte.follow[m].mism = 0 := by
  refine completes_finish (t := s.cmdClrDiverged.mateLook) (if_pos hlive) ?_
  have hsession := State.mateEnd_session s.cmdClrDiverged
  have hfollow : s.cmdClrDiverged.mateLook.settle.mte.follow = s.mte.follow.map fun f => { f with mism := 0 } := congrArg Mte.follow hsession
  refine ⟨congrArg Mte.diverged hsession, congrArg Mte.cmdStatus hsession, fun m => ?_⟩
  rw [hfollow, Fin.getElem_fin, Vector.getElem_map]

theorem mateSelftest_completes (hlive : s.feltLive = true) : Completes .mateSelftest s fun u =>
    u.mte.selftesting = true ∧ u.mte.passByCmd = true ∧ u.mte.cmdStatus = 0 := by
  have hsession := State.mateEnd_session s.cmdSelftest
  exact completes_finish (t := s.cmdSelftest.mateLook) (if_pos hlive)
    ⟨congrArg Mte.selftesting hsession, congrArg Mte.passByCmd hsession, congrArg Mte.cmdStatus hsession⟩

/-- The cause of a failed self-test: 3 where a comparison had diverged (Table 14-8). -/
def State.testCause (s : State) : Nat := if s.mte.diverged || s.mte.peerHealth.getLsbD 8 then 3 else 1

/-- A self-test that fails clears SELFTEST_OK, and releases the line to a ready standby where fail-over is enabled. -/
theorem State.testFails_ends (s : State) : s.testFails.mateLook.settle.mte.selftestOk = false ∧ s.testFails.mateLook.settle.mte.testFailed = true
    ∧ s.testFails.mateLook.settle.mte.selftesting = s.mte.selftesting
    ∧ (s.mte.st = .active → s.bit (Reg.mte 0) 2 = true → s.peerReady = true →
      s.testFails.mateLook.settle.mte.st = .released ∧ s.testFails.mateLook.settle.mte.cause = s.testCause) := by
  have hsession := (State.mateEnd_session s.testFails).trans
    (State.mateFinding_session (s.modMte fun x => { x with selftestOk := false, testFailed := true }) s.testCause)
  have hrun := congrArg Mte.selftesting hsession
  refine ⟨congrArg Mte.selftestOk hsession, congrArg Mte.testFailed hsession, hrun, fun hst hen hready => ?_⟩
  have hcause : s.testCause ≠ 0 := by
    unfold State.testCause
    split <;> decide
  have hrelease : s.testFails = (s.modMte fun x => { x with selftestOk := false, testFailed := true }).mateRelease s.testCause :=
    State.mateFinding_releases (s := s.modMte fun x => { x with selftestOk := false, testFailed := true }) hst hen hready
  obtain ⟨hrel, hwhy⟩ := State.mateRelease_role (s := s.modMte fun x => { x with selftestOk := false, testFailed := true })
    (fun h => absurd (hst.symm.trans h) (by decide)) hcause
  rw [hrelease, (State.mateEnd_other (by rw [hrel]; decide)).1]
  exact ⟨hrel, hwhy⟩

theorem State.testCause_eq (s : State) : s.testCause = if s.mte.diverged = true ∨ s.mte.peerHealth.getLsbD 8 = true then 3 else 1 := by
  unfold State.testCause
  simp only [Bool.or_eq_true]

theorem selftestFailure_completes (hlive : s.feltLive = true) : Completes .selftestFailure s fun u =>
    u.mte.selftestOk = false ∧ u.mte.testFailed = true ∧ (s.mte.st = .active → s.bit (Reg.mte 0) 2 = true → s.peerReady = true →
      u.mte.st = .released ∧ u.mte.cause = if s.mte.diverged = true ∨ s.mte.peerHealth.getLsbD 8 = true then 3 else 1) := by
  obtain ⟨hok, hfailed, -, hreleases⟩ := s.testFails_ends
  rw [State.testCause_eq] at hreleases
  exact completes_finish (t := s.testFails.mateLook) (if_pos hlive) ⟨hok, hfailed, hreleases⟩

/-- The state in which a self-test pass ends. -/
def State.passOver (s : State) : State := s.modMte fun x => { x with selftesting := false, passByCmd := false }

theorem selftestPass_fails (hrun : s.mte.selftesting = true) : Completes (.selftestPassDone false) s fun u => u.mte.selftesting = false
    ∧ u.mte.selftestOk = false ∧ u.mte.testFailed = true ∧ (s.mte.st = .active → s.bit (Reg.mte 0) 2 = true → s.peerReady = true →
      u.mte.st = .released ∧ u.mte.cause = if s.mte.diverged = true ∨ s.mte.peerHealth.getLsbD 8 = true then 3 else 1) := by
  obtain ⟨hok, hfailed, hover, hreleases⟩ := s.passOver.testFails_ends
  rw [State.testCause_eq] at hreleases
  exact completes_finish (t := s.passOver.testFails.mateLook) (if_pos hrun) ⟨hover, hok, hfailed, hreleases⟩

/-- The state in which a pass has succeeded. -/
def State.passGood (s : State) : State := s.passOver.modMte fun x => { x with
  selftestOk := x.selftestOk || s.mte.passByCmd, testFailed := false, passSinceSync := true }

theorem State.trySync_session (s : State) : s.trySync.mte.session = s.mte.session := by
  unfold State.trySync
  split
  · exact State.mateGo_session ..
  · rfl

/-- A pass completes the copy: SYNC becomes STANDBY, which may take over at once. -/
theorem selftestPass_succeeds (hrun : s.mte.selftesting = true) : Completes (.selftestPassDone true) s fun u => u.mte.selftesting = false
    ∧ u.mte.selftestOk = (s.mte.selftestOk || s.mte.passByCmd) ∧ u.mte.testFailed = false
    ∧ u.mte.passSinceSync = true ∧ (s.mte.st = .sync → s.mte.synced = true → u.mte.st = .standby ∨ u.mte.st = .taking) := by
  have hsession := (State.mateEnd_session s.passGood.trySync).trans s.passGood.trySync_session
  refine completes_finish (t := s.passGood.trySync.mateLook) (if_pos hrun) ⟨congrArg Mte.selftesting hsession, congrArg Mte.selftestOk hsession,
    congrArg Mte.testFailed hsession, congrArg Mte.passSinceSync hsession, fun hst hsynced => ?_⟩
  have hsync : s.passGood.trySync = s.passGood.mateGo .standby 0 := if_pos ⟨hst, hsynced, rfl⟩
  rw [State.settle_mte, hsync]
  rcases (s.passGood.mateGo .standby 0).mateLook_cases with heq | ⟨-, -, -, heq⟩
  · rw [heq]
    exact .inl (State.mateGo_st ..)
  · rw [heq]
    exact .inr (State.mateGo_st ..)

theorem peerSilent_completes (hlive : s.feltLive = true) (hsilent : s.mte.silent = false) (hheard : s.mte.heardAt ≠ some s.now) :
    Completes .peerSilent s fun u => u.mte.silent = true :=
  completes_finish (t := (s.modMte fun x => { x with silent := true }).mateLook) (if_pos (by rw [hlive, hsilent, decide_eq_true hheard]; rfl))
    (congrArg Mte.silent (State.mateEnd_session (s.modMte fun x => { x with silent := true })))

theorem freshExpire_completes (hfresh : s.mte.fresh = true) (hat : s.mte.freshAt ≠ some s.now) :
    Completes .freshExpire s fun u => u.mte.fresh = false :=
  completes_finish (t := (s.modMte fun x => { x with fresh := false }).mateLook) (if_pos (by rw [hfresh, decide_eq_true hat]; rfl))
    (congrArg Mte.fresh (State.mateEnd_session (s.modMte fun x => { x with fresh := false })))

theorem reclaimTimer_completes (hst : s.mte.st = .released) (hlow : s.pads.mateActIn = false) (hen : s.bit (Reg.mte 0) 3 = true)
    (hcause : s.mte.cause ≠ 1) : Completes .reclaimTimerExpire s fun u => u.mte.st = .taking ∧ u.mte.cause = 8 := by
  have htaking : (s.mateGo .taking 8).mte.st = .taking := State.mateGo_st ..
  have hwhy : (s.mateGo .taking 8).mte.cause = 8 := State.mateGo_cause (by rw [hst]; decide) (by decide)
  refine completes_finish (t := (s.mateGo .taking 8).mateLook) (if_pos ⟨hst, by rw [hlow]; rfl, hen, hcause⟩) ?_
  rw [(State.mateEnd_other (by rw [htaking]; decide)).1]
  exact ⟨htaking, hwhy⟩

/-! ### The security feeds (R417) -/

theorem vsecFeedLost_completes (b : Bool) (hlive : s.mgmtLive = true) (hgood : (if b then s.mte.bGood else s.mte.aGood) = true) :
    Completes (.vsecFeedLost b) s fun u => (if b then u.mte.bGood else u.mte.aGood) = false
      ∧ u.regs = (s.setBit (Reg.mte 0x18) (2 + b2n b)).regs := by
  have hx : exec (.vsecFeedLost b) s = mateEnd (s.feedMark b false) := if_pos (by rw [hlive, hgood]; rfl)
  have hsession := State.mateEnd_session (s.feedMark b false)
  refine completes_finish hx ⟨?_, State.mateEnd_regs _⟩
  cases b with
  | false => exact congrArg Mte.aGood hsession
  | true => exact congrArg Mte.bGood hsession

theorem vsecFeedGood_completes (b : Bool) (hlive : s.mgmtLive = true) (hlost : (if b then s.mte.bGood else s.mte.aGood) = false) :
    Completes (.vsecFeedGood b) s fun u => (if b then u.mte.bGood else u.mte.aGood) = true ∧ u.regs = s.regs := by
  have hx : exec (.vsecFeedGood b) s = mateEnd (s.feedMark b true) := if_pos (by rw [hlive, hlost]; rfl)
  have hsession := State.mateEnd_session (s.feedMark b true)
  refine completes_finish hx ⟨?_, State.mateEnd_regs _⟩
  cases b with
  | false => exact congrArg Mte.aGood hsession
  | true => exact congrArg Mte.bGood hsession

/-- Settles O53: each write, command, self-test and timer by what it leaves of the mate logic. -/
theorem mateIsCommanded : Obligations.MateIsCommanded := by
  unfold Obligations.MateIsCommanded
  refine fun s => ⟨fun hlive => ⟨fun v => actReqWrite_completes v hlive, mteEnWrite_unpairs hlive, mteEnWrite_pairs hlive,
    mateSwitch_completes hlive, mateClrDiverged_completes hlive, mateSelftest_completes hlive, selftestFailure_completes hlive,
    peerSilent_completes hlive⟩, fun hrun => ⟨selftestPass_fails hrun, selftestPass_succeeds hrun⟩, reclaimTimer_completes,
    freshExpire_completes, fun hlive => ⟨?_, ?_, ?_, ?_⟩⟩
  · exact vsecFeedLost_completes false hlive
  · exact vsecFeedLost_completes true hlive
  · exact vsecFeedGood_completes false hlive
  · exact vsecFeedGood_completes true hlive

/-! ### Sessions (R402 to R404, Tables 14-3 and 14-4) -/

/-- The frame of a type at the head of the queue, and the state without it. -/
theorem State.feltHead_rest {ty : Nat} {f : FeltIn} {w : State} (h : s.feltHead ty = some (f, w)) :
    ∃ fs, w = s.modFelt fun x => { x with inbox := fs } := by
  unfold State.feltHead at h
  split at h
  · split at h
    · obtain ⟨-, rfl⟩ := Prod.mk.inj (Option.some.inj h)
      exact ⟨_, rfl⟩
    · exact absurd h (by simp)
  · exact absurd h (by simp)

/-- A pairing that fails keeps its error; a device that was PAIRING is UNPAIRED again and has no session key. -/
theorem State.pairFail_ends (s : State) (err : Nat) :
    (s.pairFail err).mateLook.settle.mte.pairErr = err ∧ (s.pairFail err).mateLook.settle.mte.peerNonce = s.mte.peerNonce
    ∧ (s.mte.st = .pairing → (s.pairFail err).mateLook.settle.mte.st = .unpaired ∧ (s.pairFail err).mateLook.settle.mte.key = none) := by
  let x := (s.modMte fun x => { x with pairErr := err }).setBit (Reg.mte 4) 13
  by_cases hst : s.mte.st = .pairing
  · have heq : s.pairFail err = (x.modMte fun y => { y with key := none, confirmed := false }).mateGo .unpaired 0 := if_pos hst
    have hsession := State.mateGo_session (x.modMte fun y => { y with key := none, confirmed := false }) .unpaired 0
    have hun : (s.pairFail err).mte.st = .unpaired := heq ▸ State.mateGo_st ..
    have herr := congrArg Mte.pairErr hsession
    have hnonce := congrArg Mte.peerNonce hsession
    have hkey := congrArg Mte.key hsession
    rw [(State.mateEnd_other (by rw [hun]; decide)).1]
    exact ⟨heq ▸ herr, heq ▸ hnonce, fun _ => ⟨hun, heq ▸ hkey⟩⟩
  · have heq : s.pairFail err = x := if_neg hst
    have hsession := State.mateEnd_session x
    have herr := congrArg Mte.pairErr hsession
    have hnonce := congrArg Mte.peerNonce hsession
    exact ⟨heq ▸ herr, heq ▸ hnonce, fun h => absurd h hst⟩

/-- What HELLO tells of the mate (Table 14-3). -/
def State.hearHello (w : State) (f : FeltIn) : State :=
  w.modMte fun x => { x with
    peerSide := decide (f.u 2 1 ≠ 0), peerGrant := decide (f.u 3 1 ≠ 0), peerEpoch := BitVec.ofNat 32 (f.u 4 4)
    peerTko := BitVec.ofNat 16 (f.u 8 2), peerNonce := some (slice f.body 12 24) }

/-- The session key is there, and CONFIRM is sent; an active device sends its copy again. -/
def State.answerHello (s w : State) (f : FeltIn) : State :=
  let key := kdf (s.slot (s.fld (Reg.mte 0x10) 0 11)).key labelMate (s.sessionCtx (slice f.body 12 24)) 256
  let z := ((w.hearHello f).modMte fun x => { x with key := some key, ver := 1 }).feltSend 2 ([1, 0, 0, 0] ++ slice f.body 12 24)
  if s.mte.st = .active ∧ s.mte.confirmed then z.sendSnaps else z

theorem exec_feltHello {f : FeltIn} {w : State} (hhead : s.feltHead 1 = some (f, w)) (hnonce : s.mte.nonce.isSome = true)
    (hopen : s.kstClosed = false) : exec .feltHello s =
      if decide (f.u 2 1 ≠ 0) = s.pads.mateSide then mateEnd ((w.hearHello f).pairFail 2)
      else if min 1 (f.u 1 1) < max 1 (f.u 0 1) then mateEnd ((w.hearHello f).pairFail 1)
      else if !s.pairSlotOk then mateEnd ((w.hearHello f).pairFail 4)
      else mateEnd (s.answerHello w f) := by
  have hbusy : (s.mte.nonce.isNone || s.kstClosed) = false := by
    rw [hopen, Bool.or_false, Option.isNone_eq_false_iff]
    exact hnonce
  change execFeltHello s = _
  unfold execFeltHello
  rw [hhead]
  dsimp only
  rw [hbusy]
  rfl

theorem State.answerHello_session (s w : State) (f : FeltIn) : (s.answerHello w f).mte.session = ((w.hearHello f).modMte fun x => { x with
    key := some (kdf (s.slot (s.fld (Reg.mte 0x10) 0 11)).key labelMate (s.sessionCtx (slice f.body 12 24)) 256), ver := 1 }).mte.session := by
  unfold State.answerHello
  dsimp only
  split
  · exact (State.sendSnaps_session _).trans (State.feltSend_session ..)
  · exact State.feltSend_session ..

theorem feltHello_completes {f : FeltIn} {w : State} (hhead : s.feltHead 1 = some (f, w)) (hnonce : s.mte.nonce.isSome = true)
    (hopen : s.kstClosed = false) :
    let peer := slice f.body 12 24
    let side := decide (f.u 2 1 ≠ 0)
    let bad := min 1 (f.u 1 1) < max 1 (f.u 0 1)
    Completes .feltHello s fun u => u.mte.peerNonce = some peer
      ∧ (side = s.pads.mateSide → u.mte.pairErr = 2)
      ∧ (side ≠ s.pads.mateSide → bad → u.mte.pairErr = 1)
      ∧ (side ≠ s.pads.mateSide → ¬ bad → s.pairSlotOk = false → u.mte.pairErr = 4)
      ∧ (side ≠ s.pads.mateSide → ¬ bad → s.pairSlotOk = true → u.mte.ver = 1
        ∧ u.mte.key = some (kdf (s.slot (s.fld (Reg.mte 0x10) 0 11)).key labelMate (s.sessionCtx peer) 256)) := by
  intro peer side bad
  have hx := exec_feltHello hhead hnonce hopen
  have hfail := fun err => (w.hearHello f).pairFail_ends err
  by_cases hside : side = s.pads.mateSide
  · obtain ⟨herr, hheard, -⟩ := hfail 2
    exact completes_finish (hx.trans (if_pos hside)) ⟨hheard, fun _ => herr, fun h => absurd hside h, fun h => absurd hside h, fun h => absurd hside h⟩
  replace hx := hx.trans (if_neg hside)
  by_cases hbad : bad
  · obtain ⟨herr, hheard, -⟩ := hfail 1
    exact completes_finish (hx.trans (if_pos hbad)) ⟨hheard, fun h => absurd h hside, fun _ _ => herr, fun _ h => absurd hbad h, fun _ h => absurd hbad h⟩
  replace hx := hx.trans (if_neg hbad)
  cases hslot : s.pairSlotOk with
  | false =>
    obtain ⟨herr, hheard, -⟩ := hfail 4
    exact completes_finish (hx.trans (if_pos (by rw [hslot]; rfl)))
      ⟨hheard, fun h => absurd h hside, fun _ h => absurd h hbad, fun _ _ _ => herr, fun _ _ h => absurd h (by decide)⟩
  | true =>
    have hsession := (State.mateEnd_session (s.answerHello w f)).trans (s.answerHello_session w f)
    exact completes_finish (hx.trans (if_neg (by rw [hslot]; decide))) ⟨congrArg Mte.peerNonce hsession, fun h => absurd h hside,
      fun _ h => absurd h hbad, fun _ _ h => absurd h (by decide), fun _ _ _ => ⟨congrArg Mte.ver hsession, congrArg Mte.key hsession⟩⟩

/-! ### Roles (R404) -/

theorem Mte.confirmed_of_session {x y : Mte} (h : x.session = y.session) : x.confirmed = y.confirmed := by
  have hconfirmed := congrArg Mte.confirmed h
  exact hconfirmed

theorem Mte.copy_of_session {x y : Mte} (h : x.session = y.session) : x.tko = y.tko ∧ x.synced = y.synced ∧ x.snaps = y.snaps := by
  have htko := congrArg Mte.tko h
  have hsynced := congrArg Mte.synced h
  have hsnaps := congrArg Mte.snaps h
  exact ⟨htko, hsynced, hsnaps⟩

theorem State.becomeActive_confirmed (s : State) : s.becomeActive.mte.confirmed = s.mte.confirmed := by
  unfold State.becomeActive
  dsimp only
  generalize hy : s.modMte (fun x => { x with rxRecs := Vector.replicate 4 [], peerRecs := Vector.replicate 4 [] }) = y
  rw [Mte.confirmed_of_session ((State.delta_session ..).trans ((State.sendSnaps_session _).trans (State.mateGo_session ..))), ← hy]
  rfl

/-- CONFIRM fits the session: its version, and the nonce of this device. -/
def State.confirmed (w s : State) : State := w.modMte fun x => { x with confirmed := true, feltDelay := (s.now - x.helloTick) / 2 }

/-- The device that leads becomes active under an epoch above both. -/
def State.lead (x : State) : State :=
  (x.modMte fun y => { y with epoch := BitVec.ofNat 32 (max y.epoch.toNat y.peerEpoch.toNat + 1) }).becomeActive

/-- The other device follows, under the epoch of the header. -/
def State.followActive (x : State) (f : FeltIn) : State :=
  (x.modMte fun y => { y with epoch := f.epoch, tko := y.peerTko, snaps := 0, synced := false, passSinceSync := false }).mateGo .sync 0

theorem State.lead_mte (x : State) : x.lead.mte.st = .active ∧ x.lead.mte.confirmed = x.mte.confirmed
    ∧ x.lead.mte.epoch = BitVec.ofNat 32 (max x.mte.epoch.toNat x.mte.peerEpoch.toNat + 1) := by
  unfold State.lead
  generalize hy : x.modMte (fun y => { y with epoch := BitVec.ofNat 32 (max y.epoch.toNat y.peerEpoch.toNat + 1) }) = y
  obtain ⟨hst, hepoch⟩ := y.becomeActive_mte
  refine ⟨hst, y.becomeActive_confirmed.trans ?_, hepoch.trans ?_⟩
  · rw [← hy]
    rfl
  · rw [← hy]
    rfl

theorem State.followActive_mte (x : State) (f : FeltIn) : (x.followActive f).mte.st = .sync ∧ (x.followActive f).mte.confirmed = x.mte.confirmed
    ∧ (x.followActive f).mte.epoch = f.epoch ∧ (x.followActive f).mte.tko = x.mte.peerTko ∧ (x.followActive f).mte.synced = false
    ∧ (x.followActive f).mte.snaps = 0 := by
  unfold State.followActive
  generalize hy : x.modMte (fun y => { y with epoch := f.epoch, tko := y.peerTko, snaps := 0, synced := false, passSinceSync := false }) = y
  have hsession := y.mateGo_session .sync 0
  have hepoch := Mte.epoch_of_session hsession
  have hconfirmed := Mte.confirmed_of_session hsession
  have hcopy := Mte.copy_of_session hsession
  obtain ⟨htko, hsynced, hsnaps⟩ := hcopy
  rw [hepoch, hconfirmed, htko, hsynced, hsnaps, ← hy]
  exact ⟨State.mateGo_st .., rfl, rfl, rfl, rfl, rfl⟩

/-- What a CONFIRM that fits leads to. -/
def State.takeConfirm (x : State) (f : FeltIn) : State :=
  match x.mte.st with
  | .pairing => if x.mte.lock = .granted ∨ (!x.mte.peerGrant ∧ !x.pads.mateSide) then x.lead else x.followActive f
  | .active => x.sendSnaps
  | _ => x.adoptEpoch f.epoch

theorem exec_feltConfirm {f : FeltIn} {w : State} (hhead : s.feltHead 2 = some (f, w)) : exec .feltConfirm s =
    if f.u 0 1 ≠ s.mte.ver ∨ some (slice f.body 4 24) ≠ s.mte.nonce then mateEnd (w.pairFail 3)
    else mateEnd ((w.confirmed s).takeConfirm f) := by
  change execFeltConfirm s = _
  unfold execFeltConfirm
  rw [hhead]
  rfl

theorem State.adoptEpoch_mte (s : State) (e : W32) :
    (s.adoptEpoch e).mte = { s.mte with epoch := if (e - s.mte.epoch).toNat < 2 ^ 31 then e else s.mte.epoch } := by
  unfold State.adoptEpoch
  split <;> rfl

theorem State.takeConfirm_confirmed (x : State) (f : FeltIn) : (x.takeConfirm f).mte.confirmed = x.mte.confirmed := by
  unfold State.takeConfirm
  split
  · split
    · exact x.lead_mte.2.1
    · exact (x.followActive_mte f).2.1
  · exact Mte.confirmed_of_session x.sendSnaps_session
  · rw [State.adoptEpoch_mte]

theorem feltConfirm_fails {f : FeltIn} {w : State} (hhead : s.feltHead 2 = some (f, w))
    (hfits : ¬ (f.u 0 1 = s.mte.ver ∧ some (slice f.body 4 24) = s.mte.nonce)) : Completes .feltConfirm s fun u =>
      u.mte.pairErr = 3 ∧ (s.mte.st = .pairing → u.mte.st = .unpaired ∧ u.mte.key = none) := by
  obtain ⟨fs, rfl⟩ := State.feltHead_rest hhead
  obtain ⟨herr, -, hends⟩ := (s.modFelt fun x => { x with inbox := fs }).pairFail_ends 3
  exact completes_finish ((exec_feltConfirm hhead).trans (if_pos (not_and_or.mp hfits))) ⟨herr, hends⟩

/-- A CONFIRM that fits makes a pairing device active or a follower; elsewhere it only confirms. -/
theorem State.takeConfirm_ends (x : State) (f : FeltIn) :
    (x.takeConfirm f).mateLook.settle.mte.confirmed = x.mte.confirmed
    ∧ (x.mte.st = .pairing → x.mte.lock = .granted ∨ (!x.mte.peerGrant) = true ∧ (!x.pads.mateSide) = true →
      (x.takeConfirm f).mateLook.settle.mte = x.lead.mte)
    ∧ (x.mte.st = .pairing → ¬ (x.mte.lock = .granted ∨ (!x.mte.peerGrant) = true ∧ (!x.pads.mateSide) = true) →
      (x.takeConfirm f).mateLook.settle.mte = (x.followActive f).mte) := by
  refine ⟨(Mte.confirmed_of_session (State.mateEnd_session _)).trans (x.takeConfirm_confirmed f), fun hst hlead => ?_, fun hst hlead => ?_⟩
  · have heq : x.takeConfirm f = x.lead := by
      unfold State.takeConfirm
      rw [hst]
      exact if_pos hlead
    rw [heq, (State.mateEnd_other (by rw [x.lead_mte.1]; decide)).1]
  · have heq : x.takeConfirm f = x.followActive f := by
      unfold State.takeConfirm
      rw [hst]
      exact if_neg hlead
    rw [heq, (State.mateEnd_other (by rw [(x.followActive_mte f).1]; decide)).1]

theorem feltConfirm_fits {f : FeltIn} {w : State} (hhead : s.feltHead 2 = some (f, w))
    (hfits : f.u 0 1 = s.mte.ver ∧ some (slice f.body 4 24) = s.mte.nonce) :
    let leads := s.mte.lock = .granted ∨ (s.mte.peerGrant = false ∧ s.pads.mateSide = false)
    Completes .feltConfirm s fun u => u.mte.confirmed = true
      ∧ (s.mte.st = .pairing → leads → u.mte.st = .active
        ∧ u.mte.epoch = BitVec.ofNat 32 (max s.mte.epoch.toNat s.mte.peerEpoch.toNat + 1))
      ∧ (s.mte.st = .pairing → ¬ leads → u.mte.st = .sync ∧ u.mte.epoch = f.epoch ∧ u.mte.tko = s.mte.peerTko
        ∧ u.mte.synced = false ∧ u.mte.snaps = 0) := by
  intro leads
  have hx := (exec_feltConfirm hhead).trans (if_neg (not_or.mpr ⟨not_not.mpr hfits.1, not_not.mpr hfits.2⟩))
  obtain ⟨fs, rfl⟩ := State.feltHead_rest hhead
  generalize hy : (s.modFelt fun x => { x with inbox := fs }).confirmed s = x at hx
  have hconfirmed : x.mte.confirmed = true := hy ▸ rfl
  have hst : x.mte.st = s.mte.st := hy ▸ rfl
  have hepochs : x.mte.epoch = s.mte.epoch ∧ x.mte.peerEpoch = s.mte.peerEpoch ∧ x.mte.peerTko = s.mte.peerTko := hy ▸ ⟨rfl, rfl, rfl⟩
  have hleads : (x.mte.lock = .granted ∨ (!x.mte.peerGrant) = true ∧ (!x.pads.mateSide) = true) ↔ leads := by
    rw [Bool.not_eq_true', Bool.not_eq_true', ← hy]
    exact Iff.rfl
  obtain ⟨hepoch, hpeer, htko⟩ := hepochs
  obtain ⟨hkept, hactive, hfollows⟩ := x.takeConfirm_ends f
  refine completes_finish hx ⟨hkept.trans hconfirmed, fun hpairing hlead => ?_, fun hpairing hlead => ?_⟩
  · rw [hactive (hst.trans hpairing) (hleads.mpr hlead)]
    obtain ⟨hled, -, hnew⟩ := x.lead_mte
    rw [hepoch, hpeer] at hnew
    exact ⟨hled, hnew⟩
  · rw [hfollows (hst.trans hpairing) fun h => hlead (hleads.mp h)]
    obtain ⟨hsync, -, hnew, hgen, hcopied, hsnaps⟩ := x.followActive_mte f
    rw [htko] at hgen
    exact ⟨hsync, hnew, hgen, hcopied, hsnaps⟩

/-! ### HEALTH, REQ, RELEASE and STALE (R403, R404, R412) -/

/-- The mate's health word is `h`. -/
def State.hearHealth (w : State) (h : W32) : State := w.modMte fun x => { x with peerHealth := h }

theorem State.mateDiverged_health (s : State) : s.mateDiverged.mte.peerHealth = s.mte.peerHealth := by
  unfold State.mateDiverged
  split
  · dsimp only
    split
    · rfl
    · rw [State.setBit_mte]
      rfl
  · rfl

theorem State.mateRetry_session (s : State) : s.mateRetry.mte.session = s.mte.session := by
  unfold State.mateRetry
  split
  · exact s.mateFinding_session 1
  · rfl

/-- HEALTH that declares DIVERGED anew makes an active device test itself. -/
def State.judgeHealth (w : State) (h : W32) : State :=
  if h.getLsbD 8 && !w.mte.peerHealth.getLsbD 8 then (w.hearHealth h).mateDiverged else w.hearHealth h

theorem exec_feltHealth {f : FeltIn} {w : State} (hhead : s.feltHead 0x30 = some (f, w)) :
    exec .feltHealth s = mateEnd (w.judgeHealth (BitVec.ofNat 32 (f.u 0 4))).mateRetry := by
  change execFeltHealth s = _
  unfold execFeltHealth
  rw [hhead]
  rfl

theorem State.judgeHealth_health (w : State) (h : W32) : (w.judgeHealth h).mte.peerHealth = h := by
  unfold State.judgeHealth
  split
  · exact State.mateDiverged_health _
  · rfl

/-- Judging a health word touches only the self-test and, where the mate is not ready, MTE_STAT. -/
theorem State.judgeHealth_cases (w : State) (h : W32) : w.judgeHealth h = w.hearHealth h
    ∨ w.judgeHealth h = (w.hearHealth h).modMte (fun x => { x with selftesting := true })
    ∨ h.getLsbD 0 = false ∧ w.judgeHealth h = ((w.hearHealth h).modMte fun x => { x with selftesting := true }).setBit (Reg.mte 4) 12 := by
  unfold State.judgeHealth State.mateDiverged
  dsimp only
  split
  · split
    · split
      · exact .inr (.inl rfl)
      case isFalse hunready => exact .inr (.inr ⟨Bool.eq_false_of_not_eq_true hunready, rfl⟩)
    · exact .inl rfl
  · exact .inl rfl

/-- A hard fault that stands releases the line to a ready standby. -/
theorem State.mateRetry_releases (hst : s.mte.st = .active) (hen : s.bit (Reg.mte 0) 2 = true) (hready : s.peerReady = true)
    (hfault : s.hardFault = true) : s.mateRetry.mateLook.settle.mte.st = .released ∧ s.mateRetry.mateLook.settle.mte.cause = 1 := by
  have heq : s.mateRetry = s.mateRelease 1 := (if_pos hfault).trans (State.mateFinding_releases hst hen hready)
  obtain ⟨hrel, hcause⟩ := State.mateRelease_role (s := s) (cause := 1) (by rw [hst]; decide) (by decide)
  rw [heq, (State.mateEnd_other (by rw [hrel]; decide)).1]
  exact ⟨hrel, hcause⟩

theorem State.judgeHealth_releases {w : State} {h : W32} (hst : w.mte.st = .active) (hen : w.bit (Reg.mte 0) 2 = true)
    (hfault : w.hardFault = true) (hready : h.getLsbD 0 = true) : (w.judgeHealth h).mateRetry.mateLook.settle.mte.st = .released
      ∧ (w.judgeHealth h).mateRetry.mateLook.settle.mte.cause = 1 := by
  rcases w.judgeHealth_cases h with heq | heq | ⟨hunready, -⟩
  · rw [heq]
    exact State.mateRetry_releases (s := w.hearHealth h) hst hen hready hfault
  · rw [heq]
    exact State.mateRetry_releases (s := (w.hearHealth h).modMte fun x => { x with selftesting := true }) hst hen hready hfault
  · exact absurd (hready.symm.trans hunready) (by decide)

theorem State.mateDiverged_degrades (hst : s.mte.st = .active) (hen : s.bit (Reg.mte 0) 2 = true) (hready : s.peerReady = false) :
    s.mateDiverged = (s.modMte fun x => { x with selftesting := true }).setBit (Reg.mte 4) 12 := by
  unfold State.mateDiverged
  rw [if_pos ⟨hst, hen⟩]
  dsimp only
  rw [hready]
  rfl

theorem State.setBit_hardFault (s : State) (a i : Nat) : (s.setBit a i).hardFault = s.hardFault := rfl

/-- A mate that declares DIVERGED and is not ready: the device tests itself, and stays active, degraded. -/
theorem State.judgeHealth_degrades {w : State} {h : W32} (hst : w.mte.st = .active) (hen : w.bit (Reg.mte 0) 2 = true)
    (hfault : w.hardFault = false) (hdiv : h.getLsbD 8 = true) (hnew : w.mte.peerHealth.getLsbD 8 = false) (hready : h.getLsbD 0 = false) :
    (w.judgeHealth h).mateRetry.mateLook.settle.mte.selftesting = true
      ∧ (w.judgeHealth h).mateRetry.mateLook.settle.regs = (w.setBit (Reg.mte 4) 12).regs := by
  have hjudged : w.judgeHealth h = ((w.hearHealth h).modMte fun x => { x with selftesting := true }).setBit (Reg.mte 4) 12 :=
    (if_pos (by rw [hdiv, hnew]; rfl)).trans (State.mateDiverged_degrades (s := w.hearHealth h) hst hen hready)
  have hretry : (((w.hearHealth h).modMte fun x => { x with selftesting := true }).setBit (Reg.mte 4) 12).mateRetry
      = ((w.hearHealth h).modMte fun x => { x with selftesting := true }).setBit (Reg.mte 4) 12 :=
    if_neg fun hf => absurd (hfault.symm.trans ((State.setBit_hardFault _ (Reg.mte 4) 12).symm.trans hf)) (by decide)
  rw [hjudged, hretry]
  have hsession := State.mateEnd_session (((w.hearHealth h).modMte fun x => { x with selftesting := true }).setBit (Reg.mte 4) 12)
  have htest := congrArg Mte.selftesting hsession
  exact ⟨htest, State.mateEnd_regs _⟩

theorem feltHealth_completes {f : FeltIn} {w : State} (hhead : s.feltHead 0x30 = some (f, w)) :
    Completes .feltHealth s fun u => u.mte.peerHealth = BitVec.ofNat 32 (f.u 0 4)
      ∧ (s.mte.st = .active → s.bit (Reg.mte 0) 2 = true → s.hardFault = true → (BitVec.ofNat 32 (f.u 0 4)).getLsbD 0 = true →
        u.mte.st = .released ∧ u.mte.cause = 1)
      ∧ (s.mte.st = .active → s.bit (Reg.mte 0) 2 = true → s.hardFault = false → (BitVec.ofNat 32 (f.u 0 4)).getLsbD 8 = true →
        s.mte.peerHealth.getLsbD 8 = false → (BitVec.ofNat 32 (f.u 0 4)).getLsbD 0 = false →
        u.mte.selftesting = true ∧ u.regs = (s.setBit (Reg.mte 4) 12).regs) := by
  have hx := exec_feltHealth hhead
  obtain ⟨fs, rfl⟩ := State.feltHead_rest hhead
  generalize BitVec.ofNat 32 (f.u 0 4) = h at hx ⊢
  refine completes_finish hx ⟨?_, State.judgeHealth_releases (w := s.modFelt fun x => { x with inbox := fs }),
    State.judgeHealth_degrades (w := s.modFelt fun x => { x with inbox := fs })⟩
  have hsession := (State.mateEnd_session ((s.modFelt fun x => { x with inbox := fs }).judgeHealth h).mateRetry).trans (State.mateRetry_session _)
  have hheard := congrArg Mte.peerHealth hsession
  exact Eq.trans hheard (State.judgeHealth_health _ h)

theorem exec_feltReq {f : FeltIn} {w : State} (hhead : s.feltHead 0x40 = some (f, w)) :
    exec .feltReq s = mateEnd (w.mateFinding (f.u 0 1 % 16)) := by
  change execFeltReq s = _
  unfold execFeltReq
  rw [hhead]

theorem feltReq_completes {f : FeltIn} {w : State} (hhead : s.feltHead 0x40 = some (f, w)) : Completes .feltReq s fun u =>
    (s.mte.st = .active → s.bit (Reg.mte 0) 2 = true → s.peerReady = true → u.mte.st = .released)
    ∧ (s.mte.st = .active → s.bit (Reg.mte 0) 2 = true → s.peerReady = false → u.mte = s.mte ∧ u.regs = (s.setBit (Reg.mte 4) 12).regs)
    ∧ (s.mte.st = .active → s.bit (Reg.mte 0) 2 = false → u.mte = s.mte ∧ u.regs = s.regs) := by
  have hx := exec_feltReq hhead
  obtain ⟨fs, rfl⟩ := State.feltHead_rest hhead
  refine completes_finish hx ⟨fun hst hen hready => ?_, fun hst hen hready => ?_, fun hst hen => ?_⟩
  · have hrel : ((s.modFelt fun x => { x with inbox := fs }).mateRelease (f.u 0 1 % 16)).mte.st = .released :=
      (State.feltSend_st ..).trans (State.mateGo_st ..)
    rw [State.mateFinding_releases (s := s.modFelt fun x => { x with inbox := fs }) hst hen hready,
      (State.mateEnd_other (by rw [hrel]; decide)).1, hrel]
  · have hmte : ((s.modFelt fun x => { x with inbox := fs }).setBit (Reg.mte 4) 12).mte = s.mte := State.setBit_mte ..
    rw [State.mateFinding_degraded (s := s.modFelt fun x => { x with inbox := fs }) hst hen hready,
      (State.mateEnd_other (by rw [hmte, hst]; decide)).1]
    exact ⟨hmte, State.mateEnd_regs _⟩
  · have hmte : (s.modFelt fun x => { x with inbox := fs }).mte = s.mte := rfl
    rw [State.mateFinding_disabled (s := s.modFelt fun x => { x with inbox := fs }) hen,
      (State.mateEnd_other (by rw [hmte, hst]; decide)).1]
    exact ⟨hmte, State.mateEnd_regs _⟩

theorem exec_feltRelease {f : FeltIn} {w : State} (hhead : s.feltHead 0x41 = some (f, w)) : exec .feltRelease s = mateEnd
    (if (w.adoptEpoch f.epoch).mte.st = .standby ∧ (w.adoptEpoch f.epoch).mateReady then (w.adoptEpoch f.epoch).mateGo .taking (f.u 0 1 % 16)
      else w.adoptEpoch f.epoch) := by
  change execFeltRelease s = _
  unfold execFeltRelease
  rw [hhead]

theorem State.adoptEpoch_ready (s : State) (e : W32) : (s.adoptEpoch e).mateReady = s.mateReady := by
  unfold State.adoptEpoch
  split <;> rfl

/-- A ready standby takes up a RELEASE; in any role a newer epoch of the header is adopted. -/
theorem feltRelease_completes {f : FeltIn} {w : State} (hhead : s.feltHead 0x41 = some (f, w)) : Completes .feltRelease s fun u =>
    (s.mte.st = .standby → s.mateReady = true → u.mte.st = .taking)
    ∧ u.mte.epoch = if (f.epoch - s.mte.epoch).toNat < 2 ^ 31 then f.epoch else s.mte.epoch := by
  have hx := exec_feltRelease hhead
  obtain ⟨fs, rfl⟩ := State.feltHead_rest hhead
  have hready : ((s.modFelt fun x => { x with inbox := fs }).adoptEpoch f.epoch).mateReady = s.mateReady := State.adoptEpoch_ready ..
  have hmte := (s.modFelt fun x => { x with inbox := fs }).adoptEpoch_mte f.epoch
  generalize (s.modFelt fun x => { x with inbox := fs }).adoptEpoch f.epoch = y at hx hready hmte
  have hst : y.mte.st = s.mte.st := by rw [hmte]; rfl
  have hepoch : y.mte.epoch = if (f.epoch - s.mte.epoch).toNat < 2 ^ 31 then f.epoch else s.mte.epoch := by rw [hmte]; rfl
  by_cases htakes : y.mte.st = .standby ∧ y.mateReady = true
  · have htaking : (y.mateGo .taking (f.u 0 1 % 16)).mte.st = .taking := State.mateGo_st ..
    refine completes_finish (hx.trans (congrArg mateEnd (if_pos htakes))) ?_
    rw [(State.mateEnd_other (by rw [htaking]; decide)).1, Mte.epoch_of_session (y.mateGo_session ..)]
    exact ⟨fun _ _ => htaking, hepoch⟩
  · refine completes_finish (hx.trans (congrArg mateEnd (if_neg htakes))) ⟨fun hs hr => ?_, ?_⟩
    · exact absurd ⟨hst.trans hs, hready.trans hr⟩ htakes
    · rw [Mte.epoch_of_session (State.mateEnd_session y), hepoch]

/-- A frame sent takes one number. -/
theorem State.feltSend_counts (hup : s.felt.up = true) (hkey : s.mte.key.isSome = true) (type : Nat) (body : Bytes) :
    (s.feltSend type body).mte.fseqTx = s.mte.fseqTx + 1 ∧ (s.feltSend type body).felt.up = true
      ∧ (s.feltSend type body).mte.key.isSome = true := by
  unfold State.feltSend
  rw [if_pos (by rw [hup, hkey, Bool.or_true]; rfl)]
  exact ⟨rfl, hup, hkey⟩

theorem State.foldl_feltSend_counts (f : Delta → Bytes) : ∀ (ds : List Delta) (s : State), s.felt.up = true → s.mte.key.isSome = true →
    (ds.foldl (fun s d => s.feltSend 0x11 (f d)) s).mte.fseqTx = s.mte.fseqTx + ds.length
      ∧ (ds.foldl (fun s d => s.feltSend 0x11 (f d)) s).felt.up = true
      ∧ (ds.foldl (fun s d => s.feltSend 0x11 (f d)) s).mte.key.isSome = true
  | [], _, hup, hkey => ⟨rfl, hup, hkey⟩
  | d :: ds, s, hup, hkey => by
    obtain ⟨hseq, hup', hkey'⟩ := State.feltSend_counts hup hkey 0x11 (f d)
    obtain ⟨hrest, hup'', hkey''⟩ := foldl_feltSend_counts f ds (s.feltSend 0x11 (f d)) hup' hkey'
    refine ⟨?_, hup'', hkey''⟩
    rw [List.foldl_cons, hrest, hseq, List.length_cons]
    omega

/-- The bulk copy: a SNAP for each item, then SNAP_END. -/
theorem State.sendSnaps_counts (hup : s.felt.up = true) (hkey : s.mte.key.isSome = true) :
    s.sendSnaps.mte.fseqTx = s.mte.fseqTx + s.snapItems.length + 1 := by
  obtain ⟨hseq, hup', hkey'⟩ := State.foldl_feltSend_counts (fun d => beBytes 4 s.mte.dseq.toNat ++ Config.encodeSnap [d]) s.snapItems s hup hkey
  obtain ⟨hlast, -⟩ := State.feltSend_counts hup' hkey' 0x12 (beBytes 4 s.mte.dseq.toNat ++ beBytes 4 s.snapItems.length)
  exact hlast.trans (congrArg (· + 1) hseq)

theorem exec_feltStale {f : FeltIn} {w : State} (hhead : s.feltHead 0x7F = some (f, w)) : exec .feltStale s = mateEnd
    (if w.mte.st = .active then w.sendSnaps else w.feltSend 0x30 (beBytes 4 w.healthWord)) := by
  change execFeltStale s = _
  unfold execFeltStale
  rw [hhead]

theorem State.feltSend_sends (hup : s.felt.up = true) (hkey : s.mte.key.isSome = true) (hsends : s.feltSends = true) (type : Nat) (body : Bytes) :
    Out.felt (s.mte.frame s.pads.mateSide type body) ∈ (s.feltSend type body).out := by
  unfold State.feltSend
  rw [if_pos (by rw [hup, hkey, Bool.or_true]; rfl), if_pos hsends]
  exact List.mem_cons_self

theorem feltStale_completes {f : FeltIn} {w : State} (hhead : s.feltHead 0x7F = some (f, w)) (hup : s.felt.up = true)
    (hkey : s.mte.key.isSome = true) : Completes .feltStale s fun u =>
      (s.mte.st = .active → u.mte.fseqTx = s.mte.fseqTx + s.snapItems.length + 1)
      ∧ (s.mte.st ≠ .active → s.feltSends = true → Out.felt (s.mte.frame s.pads.mateSide 0x30 (beBytes 4 s.healthWord)) ∈ u.out) := by
  have hx := exec_feltStale hhead
  obtain ⟨fs, rfl⟩ := State.feltHead_rest hhead
  have hitems : (s.modFelt fun x => { x with inbox := fs }).snapItems = s.snapItems := rfl
  by_cases hst : s.mte.st = .active
  · have hactive : (s.modFelt fun x => { x with inbox := fs }).sendSnaps.mte.st = .active := (State.sendSnaps_st _).trans hst
    refine completes_finish (hx.trans (congrArg mateEnd (if_pos hst))) ⟨fun _ => ?_, fun h => absurd hst h⟩
    rw [(State.mateEnd_other (by rw [hactive]; decide)).1, State.sendSnaps_counts (s := s.modFelt fun x => { x with inbox := fs }) hup hkey, hitems]
    rfl
  · refine completes_finish (hx.trans (congrArg mateEnd (if_neg hst))) ⟨fun h => absurd h hst, fun _ hsends => ?_⟩
    exact State.mem_mateEnd_out (State.feltSend_sends (s := s.modFelt fun x => { x with inbox := fs }) hup hkey hsends 0x30 _)

/-- Settles O54: each frame by its fit, its role and what it reports. -/
theorem matesPair : Obligations.MatesPair := by
  unfold Obligations.MatesPair
  refine fun s w f => ⟨feltHello_completes, fun hhead => ?_, feltHealth_completes, feltReq_completes, feltRelease_completes, feltStale_completes⟩
  intro fits leads
  by_cases hfits : fits
  · exact (feltConfirm_fits hhead hfits).mono fun u ⟨hconfirmed, hactive, hfollows⟩ =>
      ⟨fun h => absurd hfits h, fun _ => hconfirmed, fun _ => hactive, fun _ => hfollows⟩
  · exact (feltConfirm_fails hhead hfits).mono fun u hu =>
      ⟨fun _ => hu, fun h => absurd h hfits, fun h => absurd h hfits, fun h => absurd h hfits⟩

end Sys2Proof.Machine
end

section
/-! The serial lanes (R370, R375, R376, R379 to R381, R394; Tables 13-2, 13-3 and 13-13). -/

namespace Sys2Proof.Machine

variable {s t : State} {n : Fin 68}

/-! ### What a lane's receiver looks at -/

/-- Two states in which the lanes have the same settings, domains and line groups. -/
structure State.SameLaneSetting (s t : State) : Prop where
  live : ∀ n, t.laneLive n = s.laneLive n
  ctl : ∀ n : Fin 68, t.reg (Reg.ser n.val 0) = s.reg (Reg.ser n.val 0)
  line : ∀ m, t.line m = s.line m

theorem Only.laneSetting {ps : List Area} (h : Only ps s t) (hc : s.canonical = true)
    (hps : ∀ p ∈ [Area.settings, .canon, .otp, .domains, .kst, .line], ps.contains p = false) : s.SameLaneSetting t where
  live n := by
    have hreleased : t.rst.released = s.rst.released := h .domains (hps _ (by decide))
    have hotp : t.otp = s.otp := h .otp (hps _ (by decide))
    have hkst := congrArg Kst.lc (show t.kst.rest = s.kst.rest from h .kst (hps _ (by decide)))
    have hlc : t.kst.lc = s.kst.lc := hkst
    unfold State.laneLive State.feltLive State.millLive State.live State.hasMill State.blank
    rw [hreleased, hotp, hlc]
  ctl n := h.reg hc (hps _ (by decide)) (hps _ (by decide)) (hps _ (by decide)) (isStatus_ser0 n)
  line := h .line (hps _ (by decide))

theorem State.SameLaneSetting.laneMode (h : s.SameLaneSetting t) (n : Fin 68) : t.laneMode n.val = s.laneMode n.val :=
  congrArg (natBits · 2 4) (h.ctl n)

theorem State.SameLaneSetting.modeErr (h : s.SameLaneSetting t) (n : Fin 68) : t.modeErr n = s.modeErr n := by
  unfold State.modeErr State.lineMode
  rw [h.line, h.laneMode]
  cases lanesIn (s.line (laneMill n)).laneUse with
  | nil => rfl
  | cons j _ => simp only [h.laneMode]

/-- The receiver of lane `n` runs: it is enabled, in a mode, and in its group's. -/
def State.RxRuns (s : State) (n : Fin 68) : Prop :=
  s.laneLive n = true ∧ s.bit (Reg.ser n.val 0) 1 = true ∧ s.laneMode n.val ≠ 0 ∧ s.modeErr n = false

theorem State.SameLaneSetting.runs (h : s.SameLaneSetting t) (hruns : s.RxRuns n) : t.RxRuns n := by
  obtain ⟨hlive, hen, hmode, herr⟩ := hruns
  refine ⟨(h.live n).trans hlive, (congrArg (natBit · 1) (h.ctl n)).trans hen, ?_, (h.modeErr n).trans herr⟩
  rw [h.laneMode]
  exact hmode

/-- A receiver that runs and is not DISABLED is left as it is. -/
theorem State.rxLook_runs (hruns : s.RxRuns n) (hst : (s.lane n).st ≠ .disabled) : s.rxLook n = s := by
  obtain ⟨hlive, hen, hmode, herr⟩ := hruns
  unfold State.rxLook
  dsimp only
  rw [hlive, hen, herr, decide_eq_false hmode, if_neg hst]
  rfl

/-- In MODE OFF the receiver is disabled. -/
theorem State.rxLook_off (hmode : s.laneMode n.val = 0) : s.rxLook n = s.modLane n (·.go .disabled) := by
  unfold State.rxLook
  dsimp only
  rw [decide_eq_true hmode, Bool.or_true, Bool.true_or]
  exact if_pos rfl

theorem State.lane_of_lanes (h : t.lanes = s.lanes) (n : Fin 68) : t.lane n = s.lane n := by
  unfold State.lane
  rw [h]

/-- A receiver's look decides on its state alone. -/
theorem State.rxLook_lane (s : State) (n : Fin 68) : (s.rxLook n).lane n = s.lane n ∨ ∃ st, (s.rxLook n).lane n = (s.lane n).go st := by
  unfold State.rxLook
  dsimp only
  split
  · exact .inr ⟨_, State.lane_modLane ..⟩
  · split
    · exact .inr ⟨_, State.lane_modLane ..⟩
    · exact .inl rfl

theorem State.rxLook_saved (s : State) (n : Fin 68) : ((s.rxLook n).lane n).saved = (s.lane n).saved := by
  rcases s.rxLook_lane n with h | ⟨st, h⟩ <;> rw [h]
  rfl

theorem State.rxLook_sigDet (s : State) (n : Fin 68) : ((s.rxLook n).lane n).sigDet = (s.lane n).sigDet := by
  rcases s.rxLook_lane n with h | ⟨st, h⟩ <;> rw [h]
  rfl

/-! ### Receivers follow, then their consumers -/

/-- A lane but for its eye scan. -/
def Lane.receiver (l : Lane) : Lane := { l with eyeBusy := false, eyeDone := false, eyeAbort := false }

theorem State.lane_modLane_ne (s : State) {n k : Fin 68} (f : Lane → Lane) (h : n ≠ k) : (s.modLane n f).lane k = s.lane k :=
  Vector.getElem_set_ne n.isLt k.isLt fun he => h (Fin.ext he)

/-- The consumer of a lane touches no lane but for its eye scan. -/
theorem laneConsumer_receiver (s t : State) (k n : Fin 68) : ((laneConsumer s t k).lane n).receiver = (t.lane n).receiver := by
  let t1 := if t.lanes[k].eyeBusy && decide (t.lanes[k].st ≠ .track) then
      t.modLane k fun l => { l with eyeBusy := false, eyeDone := true, eyeAbort := true }
    else t
  have hscan : (t1.lane n).receiver = (t.lane n).receiver := by
    show ((if _ then _ else _ : State).lane n).receiver = _
    split
    · by_cases hk : k = n
      · rw [hk, State.lane_modLane]
        rfl
      · rw [State.lane_modLane_ne _ _ hk]
    · rfl
  have hlanes : (laneConsumer s t k).lanes = t1.lanes := by
    show (if isFeltLane k then (if t1.laneDelivers k then t1 else t1.feltLoss (feltIdx k))
      else if isLineLane k then (if t1.laneDelivers k then t1 else t1.loseLock (laneMill k) (laneIdx k))
      else linkFaults s t1 (laneMill k)).lanes = _
    split
    · split
      · rfl
      · exact State.feltLoss_only (ps := [.status, .felt, .mte]) (.refl t1) (feltIdx k) rfl .lanes rfl
    · split
      · split
        · rfl
        · exact State.loseLock_only (ps := [.status, .counts, .evrQueue, .tim, .line]) (.refl t1) (laneMill k) (laneIdx k) rfl .lanes rfl
      · exact linkFaults_only (ps := [.out, .counts]) (.refl t1) s (laneMill k) rfl .lanes rfl
  rw [State.lane_of_lanes hlanes, hscan]

theorem foldl_laneConsumer_receiver (s t : State) (l : List (Fin 68)) (n : Fin 68) :
    ((l.foldl (fun x k => laneConsumer s x k) t).lane n).receiver = (t.lane n).receiver :=
  foldl_kept (g := fun x => (x.lane n).receiver) (fun x k => laneConsumer_receiver s x k n) l t

/-- Two states that differ in other lanes than `n`. -/
def State.SameBesides (n : Fin 68) (s t : State) : Prop := ∃ ls : Vector Lane 68, t = { s with lanes := ls } ∧ t.lane n = s.lane n

theorem State.SameBesides.trans {u : State} (h : s.SameBesides n t) (h' : t.SameBesides n u) : s.SameBesides n u := by
  obtain ⟨ls, rfl, hn⟩ := h
  obtain ⟨ls', rfl, hn'⟩ := h'
  exact ⟨ls', rfl, hn'.trans hn⟩

theorem State.modLane_besides (s : State) {k : Fin 68} (f : Lane → Lane) (h : k ≠ n) : s.SameBesides n (s.modLane k f) :=
  ⟨_, rfl, s.lane_modLane_ne f h⟩

theorem State.rxLook_besides (s : State) {k : Fin 68} (h : k ≠ n) : s.SameBesides n (s.rxLook k) := by
  unfold State.rxLook
  dsimp only
  split
  · exact s.modLane_besides _ h
  · split
    · exact s.modLane_besides _ h
    · exact ⟨s.lanes, rfl, rfl⟩

theorem State.foldl_rxLook_besides : ∀ (l : List (Fin 68)) (s : State), n ∉ l → s.SameBesides n (l.foldl State.rxLook s)
  | [], s, _ => ⟨s.lanes, rfl, rfl⟩
  | k :: l, s, h => by
    obtain ⟨hk, hl⟩ := (List.mem_cons.not.trans not_or).mp h
    exact (s.rxLook_besides (Ne.symm hk)).trans (foldl_rxLook_besides l (s.rxLook k) hl)

/-- A receiver's look depends on its own lane alone. -/
theorem State.SameBesides.rxLook (h : s.SameBesides n t) : (t.rxLook n).lane n = (s.rxLook n).lane n := by
  obtain ⟨ls, rfl, hn⟩ := h
  have hlook : ∀ x : State, (x.rxLook n).lane n = if !x.laneLive n || !x.bit (Reg.ser n.val 0) 1 || decide (x.laneMode n.val = 0) || x.modeErr n
      then (x.lane n).go .disabled
      else if (x.lane n).st = .disabled then (x.lane n).go (if (x.lane n).sigDet then .cdr else .waitSig) else x.lane n := fun x => by
    unfold State.rxLook
    dsimp only
    split
    · exact State.lane_modLane ..
    · split
      · exact State.lane_modLane ..
      · rfl
  rw [hlook, hlook, hn]
  rfl

theorem laneGroup_nodup (n : Fin 68) : (laneGroup n).Nodup ∧ n ∈ laneGroup n := by revert n; decide

/-- After a change of lane `n` its receiver has looked, once. -/
theorem laneAfter_receiver (s t : State) (n : Fin 68) : ((laneAfter s t n).lane n).receiver = ((t.rxLook n).lane n).receiver := by
  unfold laneAfter
  rw [foldl_laneConsumer_receiver]
  obtain ⟨hnodup, hmem⟩ := laneGroup_nodup n
  obtain ⟨l, r, hsplit⟩ := List.append_of_mem hmem
  rw [hsplit] at hnodup ⊢
  obtain ⟨-, hright, hapart⟩ := List.nodup_append.mp hnodup
  have hbefore := State.foldl_rxLook_besides l t fun hn => hapart n hn n List.mem_cons_self rfl
  have hafter := State.foldl_rxLook_besides r ((l.foldl State.rxLook t).rxLook n) (List.nodup_cons.mp hright).1
  rw [List.foldl_append, List.foldl_cons]
  obtain ⟨ls, hls, hn⟩ := hafter
  rw [hn, hbefore.rxLook]

/-- A lane with its receiver running ends a command as the command left it, but for its eye scan. -/
theorem laneAfter_runs (s : State) (hruns : t.RxRuns n) (hst : (t.lane n).st ≠ .disabled) :
    ((laneAfter s t n).lane n).receiver = (t.lane n).receiver := by
  rw [laneAfter_receiver, State.rxLook_runs hruns hst]

theorem State.mateEnd_lanes (s : State) : s.mateLook.settle.lanes = s.lanes := by
  obtain ⟨-, -, -, -, -, -, -, hlanes, -⟩ := s.mateLook_blocks
  rw [State.settle_lanes, hlanes]

/-- What a lane command leaves of the lane's receiver. -/
theorem completes_laneEnd {i : Instr} {P : Lane → Prop} (hx : exec i s = laneEnd s t n) (hruns : t.RxRuns n)
    (hst : (t.lane n).st ≠ .disabled) (hP : P (t.lane n).receiver) : Completes i s fun u => P (u.lane n).receiver := by
  refine completes_finish hx ?_
  rw [State.lane_of_lanes (State.mateEnd_lanes _), laneAfter_runs s hruns hst]
  exact hP

/-! ### MODE is written (R370, Table 13-1) -/

theorem State.reg_setReg_ne (hc : s.canonical = true) {a b : Nat} (v : Nat) (h : b ≠ a) : (s.setReg a v).reg b = s.reg b := by
  have hsorted : tsorted s.regs = true := by
    simp only [State.canonical, twf, Bool.and_eq_true] at hc
    exact hc.1.1
  unfold State.reg State.setReg tset
  dsimp only
  split
  · rw [tget_tdel_ne _ _ _ h _ hsorted]
  · rw [tget_tins_ne _ _ _ _ h _ hsorted]

theorem modeListed_iff (n : Fin 68) (mode : Fin 16) : modeListed n mode.val = true ↔
    mode.val = 0 ∨ (n.val < 32 ∧ 1 ≤ mode.val ∧ mode.val ≤ 4) ∨ (32 ≤ n.val ∧ n.val < 64 ∧ 8 ≤ mode.val ∧ mode.val ≤ 10)
      ∨ (64 ≤ n.val ∧ mode.val = 12) := by
  unfold modeListed isFeltLane isLineLane
  rw [Bool.or_eq_true, decide_eq_true_eq]
  by_cases hfelt : 64 ≤ n.val
  · rw [decide_eq_true hfelt, if_pos rfl, decide_eq_true_eq]
    omega
  · rw [decide_eq_false hfelt, if_neg Bool.false_ne_true]
    by_cases hline : 32 ≤ n.val ∧ n.val < 64
    · rw [decide_eq_true hline, if_pos rfl, decide_eq_true_eq]
      omega
    · rw [decide_eq_false hline, if_neg Bool.false_ne_true, decide_eq_true_eq]
      omega

/-- The state with MODE written and the receiver disabled. -/
def State.modeSet (s : State) (n : Fin 68) (mode : Nat) : State :=
  (s.modLane n fun l => { l.go .disabled with saved := false }).setFld (Reg.ser n.val 0) 2 4 mode

theorem State.modeWrite_listed {mode : Nat} (hlisted : modeListed n mode = true) : s.modeWrite n mode =
    if mode = 0 then s.modeSet n mode else (s.modeSet n mode).setFld (Reg.ser n.val 8) 0 20 (fomDefaults mode) := by
  unfold State.modeWrite
  rw [if_pos hlisted]
  rfl

theorem State.modeWrite_lane {mode : Nat} (hlisted : modeListed n mode = true) :
    (s.modeWrite n mode).lane n = { (s.lane n).go .disabled with saved := false } := by
  have hset : (s.modeSet n mode).lane n = { (s.lane n).go .disabled with saved := false } :=
    (State.lane_of_lanes (s := s.modLane n fun l => { l.go .disabled with saved := false }) rfl n).trans (State.lane_modLane ..)
  rw [State.modeWrite_listed hlisted]
  split
  · exact hset
  · exact (State.lane_of_lanes (s := s.modeSet n mode) rfl n).trans hset

theorem State.modeSet_canonical (hc : s.canonical = true) (n : Fin 68) (mode : Nat) : (s.modeSet n mode).canonical = true :=
  State.setFld_only (ps := [.settings, .lanes]) (State.modLane_only (.refl s) n _ rfl) _ _ _ _ (.inl rfl) (.inr (isStatus_ser0 n)) .canon rfl hc

theorem State.modeWrite_mode (hc : s.canonical = true) {mode : Fin 16} (hlisted : modeListed n mode.val = true) :
    (s.modeWrite n mode.val).laneMode n.val = mode.val := by
  have hset : (s.modeSet n mode.val).laneMode n.val = mode.val :=
    (State.fld_setFld (s := s.modLane n fun l => { l.go .disabled with saved := false }) hc _ _ (by decide)).trans (Nat.mod_eq_of_lt mode.isLt)
  rw [State.modeWrite_listed hlisted]
  split
  · exact hset
  · have hother : ((s.modeSet n mode.val).setFld (Reg.ser n.val 8) 0 20 (fomDefaults mode.val)).reg (Reg.ser n.val 0)
        = (s.modeSet n mode.val).reg (Reg.ser n.val 0) :=
      State.reg_setReg_ne (State.modeSet_canonical hc n mode.val) _ (by unfold Reg.ser; omega)
    exact (congrArg (natBits · 2 4) hother).trans hset

theorem State.modeWrite_canonical (hc : s.canonical = true) (n : Fin 68) (mode : Nat) : (s.modeWrite n mode).canonical = true :=
  State.modeWrite_only (ps := [.settings, .lanes]) (.refl s) n mode rfl .canon rfl hc

/-- What the end of a lane command leaves of the lanes' settings. -/
theorem laneEnd_setting (s : State) (hc : t.canonical = true) (n : Fin 68) (k : Fin 68) :
    (laneAfter s t n).mateLook.settle.laneMode k.val = t.laneMode k.val := by
  have honly : Only [.out, .status, .irq, .host, .pads, .counts, .evrQueue, .tim, .line, .lanes, .felt, .role, .mte] t
      (laneAfter s t n).mateLook.settle :=
    State.settle_only (State.mateLook_only (laneAfter_only (.refl t) s n rfl) rfl) rfl
  exact congrArg (natBits · 2 4) (honly.reg hc rfl rfl rfl (isStatus_ser0 k))

theorem exec_laneModeWrite {mode : Fin 16} (hlive : s.laneLive n = true) (hlisted : modeListed n mode.val = true) :
    exec (.laneModeWrite n mode) s = laneEnd s (s.modeWrite n mode.val) n := if_pos (by rw [hlive, hlisted]; rfl)

theorem laneModeWrite_mode {mode : Fin 16} (hlive : s.laneLive n = true) (hc : s.canonical = true) (hlisted : modeListed n mode.val = true) :
    Completes (.laneModeWrite n mode) s fun u => u.laneMode n.val = mode.val :=
  completes_finish (exec_laneModeWrite hlive hlisted)
    ((laneEnd_setting s (State.modeWrite_canonical hc n mode.val) n n).trans (State.modeWrite_mode hc hlisted))

/-- Settles O59: a listed mode is the one that the lane runs in then, another is refused. -/
theorem laneModesAreListed : Obligations.LaneModesAreListed := by
  unfold Obligations.LaneModesAreListed
  intro s n mode hlive hc listed
  refine ⟨fun hlisted => laneModeWrite_mode hlive hc ((modeListed_iff n mode).mpr hlisted), fun hnot => if_neg fun h => hnot ?_⟩
  rw [Bool.and_eq_true] at h
  exact (modeListed_iff n mode).mp h.2

/-- Written MODE OFF disables the receiver; whatever is written, the saved settings are not valid any more. -/
theorem laneModeWrite_completes {mode : Fin 16} (hlive : s.laneLive n = true) (hlisted : modeListed n mode.val = true) :
    Completes (.laneModeWrite n mode) s fun u => (u.lane n).saved = false ∧ u.lanes = (laneAfter s (s.modeWrite n mode.val) n).lanes
      ∧ (s.canonical = true → u.laneMode n.val = mode.val ∧ (mode.val = 0 → (u.lane n).st = .disabled)) := by
  have hlane := State.modeWrite_lane (s := s) hlisted
  have hafter := laneAfter_receiver s (s.modeWrite n mode.val) n
  refine completes_finish (exec_laneModeWrite hlive hlisted) ⟨?_, State.mateEnd_lanes _, fun hc => ⟨?_, fun hoff => ?_⟩⟩
  · rw [State.lane_of_lanes (State.mateEnd_lanes _)]
    have hsaved := congrArg Lane.saved hafter
    have hlook := State.rxLook_saved (s.modeWrite n mode.val) n
    rw [hlane] at hlook
    exact Eq.trans hsaved hlook
  · exact (laneEnd_setting s (State.modeWrite_canonical hc n mode.val) n n).trans (State.modeWrite_mode hc hlisted)
  · rw [State.lane_of_lanes (State.mateEnd_lanes _)]
    have hmode := (State.modeWrite_mode hc hlisted).trans hoff
    rw [State.rxLook_off hmode, State.lane_modLane] at hafter
    have hst := congrArg Lane.st hafter
    exact hst

/-! ### Electrical idle (R375, R376) -/

/-- The lanes that a PLL serves are its lanes' own. -/
theorem foldl_unlocked (v : Bool) (k : Fin 68) : ∀ (l : List (Fin 68)) (s : State),
    (l.foldl (fun s k => s.modLane k fun x => { x with unlocked := v }) s).lane k
      = if k ∈ l then { s.lane k with unlocked := v } else s.lane k
  | [], _ => by rw [List.foldl_nil, if_neg List.not_mem_nil]
  | j :: l, s => by
    rw [List.foldl_cons, foldl_unlocked v k l]
    by_cases hj : j = k
    · rw [hj, State.lane_modLane, if_pos List.mem_cons_self]
      split <;> rfl
    · rw [State.lane_modLane_ne _ _ hj]
      simp only [List.mem_cons, Ne.symm hj, false_or]

theorem State.setUnlocked_lane (s : State) {n k : Fin 68} (v : Bool) (hk : k ∈ pllLanes n) :
    (s.setUnlocked n v).lane k = { s.lane k with unlocked := v } :=
  (foldl_unlocked v k (pllLanes n) s).trans (if_pos hk)

/-- Only the lanes know of a PLL's lock. -/
theorem State.setUnlocked_regs (s : State) (n : Fin 68) (v : Bool) : (s.setUnlocked n v).regs = s.regs ∧ (s.setUnlocked n v).otp = s.otp :=
  ⟨foldl_kept (f := fun s k => s.modLane k fun l => { l with unlocked := v }) (g := State.regs) (fun _ _ => rfl) (pllLanes n) s,
    foldl_kept (f := fun s k => s.modLane k fun l => { l with unlocked := v }) (g := State.otp) (fun _ _ => rfl) (pllLanes n) s⟩

theorem State.setUnlocked_training (s : State) (n : Fin 68) (v : Bool) : (s.setUnlocked n v).trainingOf n = s.trainingOf n := by
  obtain ⟨hregs, hotp⟩ := s.setUnlocked_regs n v
  unfold State.trainingOf State.laneMode State.fld State.reg
  rw [hregs, hotp]

theorem txLeaveIdle_completes (hidle : (s.lane n).txIdle = true) (hmay : (s.setUnlocked n false).txMay n = true) :
    Completes (.txLeaveIdle n) s fun u => s.trainingOf n ∈ u.out
      ∧ u.lanes = ((s.setUnlocked n false).modLane n fun l => { l with txIdle := false, burst := true }).lanes := by
  refine completes_finish (if_pos (by rw [hidle, hmay]; rfl)) ⟨(State.settle_out _).subset ?_, State.settle_lanes _⟩
  rw [State.setUnlocked_training]
  exact List.mem_cons_self

theorem txEnterIdle_completes (hidle : (s.lane n).txIdle = false) : Completes (.txEnterIdle n) s fun u =>
    (u.lane n).txIdle = true ∧ (u.lane n).burst = false ∧ (s.txMay n = true → ∀ k ∈ pllLanes n, (u.lane k).unlocked = true) := by
  let s1 := if s.txMay n then s.setUnlocked n true else s
  let x := s1.modLane n fun l => { l with txIdle := true, burst := false }
  have hkept : ∀ k, (((pllLanes n).foldl (fun x k => laneConsumer s x k) x).mateLook.settle.lane k).receiver = (x.lane k).receiver := fun k => by
    rw [State.lane_of_lanes (State.mateEnd_lanes _), foldl_laneConsumer_receiver]
  have hlane : x.lane n = { s1.lane n with txIdle := true, burst := false } := State.lane_modLane ..
  have htx := congrArg Lane.txIdle (hkept n)
  have hburst := congrArg Lane.burst (hkept n)
  refine completes_finish (if_pos (by rw [hidle]; rfl)) ⟨Eq.trans htx (congrArg Lane.txIdle hlane), Eq.trans hburst (congrArg Lane.burst hlane),
    fun hmay k hk => ?_⟩
  have hlock : (s1.lane k).unlocked = true := by
    have hs1 : s1 = s.setUnlocked n true := if_pos hmay
    rw [hs1, State.setUnlocked_lane s true hk]
  have hx : (x.lane k).unlocked = true := by
    by_cases hn : n = k
    · rw [← hn, hlane]
      exact hn ▸ hlock
    · rw [State.lane_modLane_ne _ _ hn]
      exact hlock
  have hun := congrArg Lane.unlocked (hkept k)
  exact Eq.trans hun hx

theorem trainingBurstEnd_completes (hburst : (s.lane n).burst = true) :
    Completes (.trainingBurstEnd n) s fun u => u.lanes = s.lanes.set n { s.lane n with burst := false } := by
  refine completes_finish (if_pos hburst) ?_
  rw [State.settle_lanes]
  split <;> rfl

/-! ### The receiver (R379 to R381, Table 13-3) -/

/-- The end of a window, by the state of the receiver. -/
theorem Lane.window_st (l : Lane) (lo hi k : Nat) (fom : Byte) (conv : Bool) :
    (l.st = .fastCheck → (l.window lo hi k fom conv).1.st = if hi ≤ fom.toNat then .track else .adapt)
    ∧ (l.st = .adapt → (l.window lo hi k fom conv).1.st = if conv = true ∧ lo ≤ fom.toNat ∧ 3 ≤ l.good then .track else .adapt)
    ∧ (l.st = .track → (l.window lo hi k fom conv).1.st = if fom.toNat < hi ∧ fom.toNat < lo ∧ k ≤ l.low + 1 then .adapt else .track)
    ∧ (l.st = .cdr → (l.window lo hi k fom conv).1 = { l with fom := fom }) := by
  unfold Lane.window
  refine ⟨fun hst => ?_, fun hst => ?_, fun hst => ?_, fun hst => ?_⟩ <;> rw [hst] <;> dsimp only
  · split <;> rfl
  · by_cases hgood : conv = true ∧ lo ≤ fom.toNat
    · rw [if_pos hgood]
      by_cases hlast : 3 ≤ l.good
      · rw [if_pos hlast, if_pos ⟨hgood.1, hgood.2, hlast⟩]
        rfl
      · rw [if_neg hlast, if_neg fun h => hlast h.2.2]
    · rw [if_neg hgood, if_neg fun h => hgood ⟨h.1, h.2.1⟩]
  · by_cases hhigh : hi ≤ fom.toNat
    · rw [if_pos hhigh, if_neg fun h => absurd h.1 (Nat.not_lt.mpr hhigh)]
    · rw [if_neg hhigh]
      by_cases hlow : lo ≤ fom.toNat
      · rw [if_pos hlow, if_neg fun h => absurd h.2.1 (Nat.not_lt.mpr hlow)]
      · rw [if_neg hlow]
        by_cases hrun : k ≤ l.low + 1
        · rw [if_pos hrun, if_pos ⟨Nat.not_le.mp hhigh, Nat.not_le.mp hlow, hrun⟩]
          rfl
        · rw [if_neg hrun, if_neg fun h => hrun h.2.2]

/-- A receiver past WAIT_SIG keeps running over a window's end, and shows the window's figure. -/
theorem Lane.window_runs (l : Lane) (lo hi k : Nat) (fom : Byte) (conv : Bool) (hdis : l.st ≠ .disabled) (hwait : l.st ≠ .waitSig) :
    (l.window lo hi k fom conv).1.st ≠ .disabled ∧ (l.window lo hi k fom conv).1.fom = fom := by
  unfold Lane.window
  cases hst : l.st with
  | disabled => exact absurd hst hdis
  | waitSig => exact absurd hst hwait
  | cdr => exact ⟨(fun h => nomatch h), rfl⟩
  | fastCheck =>
    dsimp only
    split <;> exact ⟨(fun h => nomatch h), rfl⟩
  | adapt =>
    dsimp only
    split
    · split <;> exact ⟨(fun h => nomatch h), rfl⟩
    · exact ⟨(fun h => nomatch h), rfl⟩
  | track =>
    dsimp only
    split
    · exact ⟨(fun h => nomatch h), rfl⟩
    · split
      · exact ⟨(fun h => nomatch h), rfl⟩
      · split <;> exact ⟨(fun h => nomatch h), rfl⟩

/-- A lane command that touches nothing but lanes, status bits and counters ends with the receiver as it left it. -/
theorem completes_receiver {i : Instr} {P : Lane → Prop} (hx : exec i s = laneEnd s t n) (hc : s.canonical = true)
    (honly : Only [.status, .counts, .lanes] s t) (hruns : s.RxRuns n) (hst : (t.lane n).st ≠ .disabled) (hP : P (t.lane n).receiver) :
    Completes i s fun u => P (u.lane n).receiver :=
  completes_laneEnd hx ((honly.laneSetting hc (by decide)).runs hruns) hst hP

theorem exec_sigDetChange {up : Bool} (hlive : s.laneLive n = true) (hchange : (s.lane n).sigDet ≠ up) : exec (.sigDetChange n up) s =
    let s1 := s.modLane n fun l => { l with sigDet := up }
    laneEnd s (if up then (if (s.lane n).st = .waitSig then s1.modLane n (·.go .cdr) else s1)
      else if (s.lane n).st = .disabled then s1
      else if (s.lane n).st = .track then (s1.modLane n (·.go .waitSig)).losMark n
      else s1.modLane n (·.go .waitSig)) n :=
  if_pos (by rw [hlive, bne_iff_ne.mpr hchange]; rfl)

/-- A signal that comes is noted; a receiver that waited for it tries to lock. -/
theorem sigDetChange_comes (hlive : s.laneLive n = true) (hc : s.canonical = true) (hruns : s.RxRuns n) (hdet : (s.lane n).sigDet = false) :
    Completes (.sigDetChange n true) s fun u => (u.lane n).sigDet = true ∧ ((s.lane n).st = .waitSig → (u.lane n).st = .cdr) := by
  have hx := exec_sigDetChange (s := s) (n := n) (up := true) hlive (by rw [hdet]; decide)
  have hup : ((s.modLane n fun l => { l with sigDet := true }).lane n) = { s.lane n with sigDet := true } := State.lane_modLane ..
  by_cases hwait : (s.lane n).st = .waitSig
  · have hgo : (((s.modLane n fun l => { l with sigDet := true }).modLane n (·.go .cdr)).lane n)
        = ({ s.lane n with sigDet := true } : Lane).go .cdr := by rw [State.lane_modLane, hup]
    refine (completes_receiver (P := fun l => l.sigDet = true ∧ l.st = .cdr) (hx.trans (congrArg (laneEnd s · n) (if_pos hwait))) hc
      (State.modLane_only (State.modLane_only (.refl s) n _ rfl) n _ rfl) hruns ?_ ?_).mono fun u ⟨hsig, hst⟩ => ⟨hsig, fun _ => hst⟩
    · rw [hgo]
      exact fun h => nomatch h
    · rw [hgo]
      exact ⟨rfl, rfl⟩
  · refine completes_finish (hx.trans (congrArg (laneEnd s · n) (if_neg hwait))) ⟨?_, fun h => absurd h hwait⟩
    have hafter := congrArg Lane.sigDet (laneAfter_receiver s (s.modLane n fun l => { l with sigDet := true }) n)
    have hlook := State.rxLook_sigDet (s.modLane n fun l => { l with sigDet := true }) n
    rw [hup] at hlook
    rw [State.lane_of_lanes (State.mateEnd_lanes _)]
    exact Eq.trans hafter hlook

theorem State.losMark_lanes (s : State) (n : Fin 68) : (s.losMark n).lanes = s.lanes :=
  State.losMark_only (ps := [.status, .counts]) (.refl s) n rfl .lanes rfl

/-- A signal that is lost sends the receiver back to wait for it. -/
theorem sigDetChange_goes (hlive : s.laneLive n = true) (hc : s.canonical = true) (hruns : s.RxRuns n) (hdet : (s.lane n).sigDet = true)
    (hst : (s.lane n).st ≠ .disabled) :
    Completes (.sigDetChange n false) s fun u => (u.lane n).sigDet = false ∧ (u.lane n).st = .waitSig := by
  let x := (s.modLane n fun l => { l with sigDet := false }).modLane n (·.go .waitSig)
  have hx := (exec_sigDetChange (s := s) (n := n) (up := false) hlive (by rw [hdet]; decide)).trans
    (congrArg (laneEnd s · n) (if_neg hst))
  have hlane : x.lane n = ({ s.lane n with sigDet := false } : Lane).go .waitSig := by rw [State.lane_modLane, State.lane_modLane]
  have honly : Only [.status, .counts, .lanes] s x := State.modLane_only (State.modLane_only (.refl s) n _ rfl) n _ rfl
  by_cases htrack : (s.lane n).st = .track
  · have hmark : (x.losMark n).lane n = ({ s.lane n with sigDet := false } : Lane).go .waitSig :=
      (State.lane_of_lanes (x.losMark_lanes n) n).trans hlane
    refine completes_receiver (P := fun l => l.sigDet = false ∧ l.st = .waitSig) (hx.trans (congrArg (laneEnd s · n) (if_pos htrack))) hc
      (State.losMark_only honly n rfl) hruns ?_ ?_
    · rw [hmark]
      exact fun h => nomatch h
    · rw [hmark]
      exact ⟨rfl, rfl⟩
  · refine completes_receiver (P := fun l => l.sigDet = false ∧ l.st = .waitSig) (hx.trans (congrArg (laneEnd s · n) (if_neg htrack))) hc
      honly hruns ?_ ?_
    · rw [hlane]
      exact fun h => nomatch h
    · rw [hlane]
      exact ⟨rfl, rfl⟩

theorem cdrLock_completes (hlive : s.laneLive n = true) (hc : s.canonical = true) (hruns : s.RxRuns n) (hst : (s.lane n).st = .cdr) :
    Completes (.cdrLock n) s fun u =>
      (u.lane n).st = if s.bit (Reg.ser n.val 0) 13 = true ∧ (s.lane n).saved = true then .fastCheck else .adapt := by
  let st : RxState := if s.bit (Reg.ser n.val 0) 13 && (s.lane n).saved then .fastCheck else .adapt
  have hlane : (s.modLane n (·.go st)).lane n = (s.lane n).go st := State.lane_modLane ..
  have hruns' : st ≠ .disabled := by
    show (if _ then _ else _ : RxState) ≠ _
    split <;> exact fun h => nomatch h
  have hx : exec (.cdrLock n) s = laneEnd s (s.modLane n (·.go st)) n := if_pos (by rw [hlive, decide_eq_true hst]; rfl)
  refine (completes_receiver (P := fun l => l.st = st) hx hc
    (State.modLane_only (.refl s) n _ rfl) hruns ?_ ?_).mono fun u hu => hu.trans ?_
  · rw [hlane]
    exact hruns'
  · rw [hlane]
    rfl
  · simp only [st, Bool.and_eq_true]

/-- The state with the window's outcome marked and counted. -/
def State.windowMarked (s : State) (n : Fin 68) (y : Lane × Bool × Bool) : State :=
  let s1 := s.modLane n fun _ => y.1
  let s2 := if y.2.1 then s1.losMark n else s1
  let s3 := if y.2.2 then s2.setBit (Reg.ser n.val 4) 9 else s2
  if y.2.2 && !isFeltLane n then s3.countMill (laneMill n) 7 11 n.val else s3

theorem State.windowMarked_only (s : State) (n : Fin 68) (y : Lane × Bool × Bool) : Only [.status, .counts, .lanes] s (s.windowMarked n y) := by
  have h1 : Only [.status, .counts, .lanes] s (s.modLane n fun _ => y.1) := State.modLane_only (.refl s) n _ rfl
  have h2 : Only [.status, .counts, .lanes] s (if y.2.1 then (s.modLane n fun _ => y.1).losMark n else s.modLane n fun _ => y.1) := by
    split
    · exact State.losMark_only h1 n rfl
    · exact h1
  have h3 : Only [.status, .counts, .lanes] s (if y.2.2 then (if y.2.1 then (s.modLane n fun _ => y.1).losMark n else s.modLane n fun _ => y.1).setBit
      (Reg.ser n.val 4) 9 else if y.2.1 then (s.modLane n fun _ => y.1).losMark n else s.modLane n fun _ => y.1) := by
    split
    · exact State.setBit_only h2 _ _ _ (.inr (isStatus_ser4 n)) (.inl rfl)
    · exact h2
  unfold State.windowMarked
  dsimp only
  split
  · exact State.countMill_only h3 _ _ _ _ _ rfl
  · exact h3

theorem State.setBit_lanes (s : State) (a i : Nat) (b : Bool) : (s.setBit a i b).lanes = s.lanes := rfl

theorem State.windowMarked_lane (s : State) (n : Fin 68) (y : Lane × Bool × Bool) : (s.windowMarked n y).lane n = y.1 := by
  have hlanes : (s.windowMarked n y).lanes = (s.modLane n fun _ => y.1).lanes := by
    unfold State.windowMarked
    dsimp only
    have h2 : (if y.2.1 then (s.modLane n fun _ => y.1).losMark n else s.modLane n fun _ => y.1).lanes = (s.modLane n fun _ => y.1).lanes := by
      split
      · exact State.losMark_lanes ..
      · rfl
    rw [← h2]
    generalize (if y.2.1 then (s.modLane n fun _ => y.1).losMark n else s.modLane n fun _ => y.1) = x
    have h3 : (if y.2.2 then x.setBit (Reg.ser n.val 4) 9 else x).lanes = x.lanes := by
      split
      · exact State.setBit_lanes ..
      · rfl
    rw [← h3]
    split <;> rfl
  exact (State.lane_of_lanes hlanes n).trans (State.lane_modLane ..)

theorem fomWindowEnd_completes (fom : Byte) (conv : Bool) (hlive : s.laneLive n = true) (hc : s.canonical = true) (hruns : s.RxRuns n)
    (hdis : (s.lane n).st ≠ .disabled) (hwait : (s.lane n).st ≠ .waitSig) : Completes (.fomWindowEnd n fom conv) s fun u =>
      let y := ((s.lane n).window (s.fld (Reg.ser n.val 8) 0 8) (s.fld (Reg.ser n.val 8) 8 8) (s.fld (Reg.ser n.val 8) 16 4) fom conv).1
      (u.lane n).st = y.st ∧ (u.lane n).saved = y.saved ∧ (u.lane n).fom = fom := by
  let y := (s.lane n).window (s.fld (Reg.ser n.val 8) 0 8) (s.fld (Reg.ser n.val 8) 8 8) (s.fld (Reg.ser n.val 8) 16 4) fom conv
  have hx : exec (.fomWindowEnd n fom conv) s = laneEnd s (s.windowMarked n y) n :=
    if_pos (by rw [hlive, decide_eq_true (And.intro hdis hwait)]; rfl)
  obtain ⟨hst, hfom⟩ := (s.lane n).window_runs (s.fld (Reg.ser n.val 8) 0 8) (s.fld (Reg.ser n.val 8) 8 8) (s.fld (Reg.ser n.val 8) 16 4) fom conv
    hdis hwait
  refine completes_receiver (P := fun l => l.st = y.1.st ∧ l.saved = y.1.saved ∧ l.fom = fom) hx hc (s.windowMarked_only n y) hruns ?_ ?_
  · rw [State.windowMarked_lane]
    exact hst
  · rw [State.windowMarked_lane]
    exact ⟨rfl, rfl, hfom⟩

theorem adaptTimeout_completes (hlive : s.laneLive n = true) (hc : s.canonical = true) (hruns : s.RxRuns n)
    (hst : (s.lane n).st = .cdr ∨ (s.lane n).st = .adapt) : Completes (.adaptTimeout n) s fun u => (u.lane n).st = .cdr := by
  let x := (s.modLane n (·.go .cdr)).setBit (Reg.ser n.val 4) 8
  let t := if isFeltLane n then x else x.countMill (laneMill n) 7 10 n.val
  have hx : exec (.adaptTimeout n) s = laneEnd s t n := if_pos (by rw [hlive, decide_eq_true hst]; rfl)
  have honly : Only [.status, .counts, .lanes] s x :=
    State.setBit_only (State.modLane_only (.refl s) n _ rfl) _ _ _ (.inr (isStatus_ser4 n)) (.inl rfl)
  have ht : Only [.status, .counts, .lanes] s t := by
    show Only _ s (if _ then _ else _)
    split
    · exact honly
    · exact State.countMill_only honly _ _ _ _ _ rfl
  have hlane : t.lane n = (s.lane n).go .cdr := by
    have hlanes : t.lanes = (s.modLane n (·.go .cdr)).lanes := by
      show (if _ then _ else _ : State).lanes = _
      split <;> rfl
    exact (State.lane_of_lanes hlanes n).trans (State.lane_modLane ..)
  refine completes_receiver (P := fun l => l.st = .cdr) hx hc ht hruns ?_ ?_
  · rw [hlane]
    exact fun h => nomatch h
  · rw [hlane]
    rfl

/-! ### The eye scan (R394) -/

/-- SER_EYE's fields are written; the lanes are as before. -/
theorem eyeScanStart_completes (v : W32) (hlive : s.laneLive n = true) (hgo : natBit v.toNat 31 = true) (hbusy : (s.lane n).eyeBusy = false) :
    Completes (.eyeScanStart n v) s fun u =>
      ((s.lane n).st = .track → u.lanes = s.lanes.set n { s.lane n with eyeBusy := true, eyeDone := false, eyeAbort := false, eyeErr := 0 })
      ∧ ((s.lane n).st ≠ .track → u.lanes = s.lanes.set n { s.lane n with eyeDone := true, eyeAbort := true }) := by
  have hfields : ∃ x : State, x.lanes = s.lanes ∧ s.eyeWrite n v.toNat =
      if (s.lane n).st = .track then x.modLane n fun l => { l with eyeBusy := true, eyeDone := false, eyeAbort := false, eyeErr := 0 }
      else x.modLane n fun l => { l with eyeDone := true, eyeAbort := true } := by
    refine ⟨_, ?_, if_pos (by rw [hgo, hbusy]; rfl)⟩
    split <;> split <;> rfl
  obtain ⟨x, hlanes, heq⟩ := hfields
  refine completes_finish (if_pos hlive) ?_
  rw [State.settle_lanes, heq]
  refine ⟨fun hst => ?_, fun hst => ?_⟩
  · rw [if_pos hst]
    unfold State.modLane State.lane
    rw [hlanes]
  · rw [if_neg hst]
    unfold State.modLane State.lane
    rw [hlanes]

theorem eyeScanDone_completes (c : W32) (hbusy : (s.lane n).eyeBusy = true) : Completes (.eyeScanDone n c) s fun u =>
    u.lanes = s.lanes.set n { s.lane n with eyeBusy := false, eyeDone := true, eyeAbort := false, eyeErr := c } :=
  completes_finish (if_pos hbusy) (State.settle_lanes _)

/-- Settles O50: the windows' table, then each event of a lane by what it leaves of the lane. -/
theorem lanesTrain : Obligations.LanesTrain := by
  unfold Obligations.LanesTrain
  refine ⟨Lane.window_st, fun s n => ⟨fun mode => laneModeWrite_completes, txLeaveIdle_completes, txEnterIdle_completes,
    trainingBurstEnd_completes, fun hlive hc hruns => ?_, eyeScanStart_completes, eyeScanDone_completes⟩⟩
  have hrx : s.RxRuns n := ⟨hlive, hruns⟩
  exact ⟨sigDetChange_comes hlive hc hrx, sigDetChange_goes hlive hc hrx, cdrLock_completes hlive hc hrx,
    fun fom conv => fomWindowEnd_completes fom conv hlive hc hrx, adaptTimeout_completes hlive hc hrx⟩

end Sys2Proof.Machine
end

section
/-! The felt link: character sync, slots and frames (R386 to R389), and what a device tells its mate (R400, R401, R408, R409, R411). -/

namespace Sys2Proof.Machine

variable {s t : State}

/-! ### Character sync (Table 13-7) -/

theorem FeltLane.char_st (l : FeltLane) (c : FeltChar) :
    (l.st = .loss → (l.char c).st = if c = .com then .acq else .loss)
    ∧ (l.st = .acq → (l.char c).st = if c = .codeError then .loss else if c = .com ∧ 3 ≤ l.commas then .sync else .acq)
    ∧ (l.st = .sync → (l.char c).st = if c = .codeError ∧ 3 ≤ l.errs then .loss else .sync) := by
  refine ⟨fun hst => ?_, fun hst => ?_, fun hst => ?_⟩ <;> unfold FeltLane.char <;> rw [hst] <;> dsimp only
  · split
    · rfl
    · exact hst
  · split
    · rfl
    · by_cases hcom : c = .com
      · rw [if_pos hcom]
        by_cases hlast : 3 ≤ l.commas
        · rw [if_pos hlast, if_pos ⟨hcom, hlast⟩]
        · rw [if_neg hlast, if_neg fun h => hlast h.2]
      · rw [if_neg hcom, if_neg fun h => hcom h.1]
        exact hst
  · by_cases herr : c = .codeError
    · rw [if_pos herr]
      by_cases hlast : 3 ≤ l.errs
      · rw [if_pos hlast, if_pos ⟨herr, hlast⟩]
      · rw [if_neg hlast, if_neg fun h => hlast h.2]
    · rw [if_neg herr, if_neg (c := c = .codeError ∧ 3 ≤ l.errs) fun h => herr h.1]
      split <;> rfl

/-! ### Slots (R387, R389) -/

theorem State.mateGo_felt (s : State) (st : MState) (cause : Nat) : (s.mateGo st cause).felt = s.felt := by
  obtain ⟨_, _, _, _, _, _, h⟩ := s.mateGo_ends st cause
  rw [h]
  rfl

theorem State.mateLook_felt (s : State) : s.mateLook.felt = s.felt := by
  unfold State.mateLook
  split
  · exact s.mateGo_felt _ _
  · rfl

theorem State.mateEnd_felt (s : State) : s.mateLook.settle.felt = s.felt := (State.settle_felt _).trans s.mateLook_felt

theorem feltSlotReceive_completes (c0 c1 c2 c3 : FeltChar) (hlive : s.feltLive = true)
    (hdel : ∃ i : Fin 4, s.laneDelivers ⟨64 + i.val, by omega⟩ = true) :
    let cs := [c0, c1, c2, c3]
    let w := (List.finRange 4).foldl (fun (x : State) i =>
      if s.laneDelivers ⟨64 + i.val, by omega⟩ then x.feltChar i (cs.getD i.val .codeError) else x) s
    let z := if w.felt.synced then w.feltDeskew cs else w
    Completes (.feltSlotReceive c0 c1 c2 c3) s fun u => u.felt = z.felt ∧ u.mte = z.mateLook.mte := by
  intro cs w z
  have hsome : (s.laneDelivers ⟨64 + 0, by omega⟩ || s.laneDelivers ⟨64 + 1, by omega⟩ || s.laneDelivers ⟨64 + 2, by omega⟩
      || s.laneDelivers ⟨64 + 3, by omega⟩) = true := by
    obtain ⟨i, hi⟩ := hdel
    match i with
    | 0 | 1 | 2 | 3 => simp_all
  have hx : exec (.feltSlotReceive c0 c1 c2 c3) s = mateEnd z := if_pos (by rw [hlive, hsome]; rfl)
  exact completes_finish hx ⟨z.mateEnd_felt, State.settle_mte _⟩

theorem State.mateTryPair_felt (s : State) : s.mateTryPair.felt = s.felt :=
  State.mateTryPair_only (ps := [.out, .host, .pads, .counts, .evrQueue, .rng, .role, .mte]) (.refl s) rfl .felt rfl

theorem State.discardCopy_felt (s : State) : s.discardCopy.felt = s.felt :=
  State.discardCopy_only (ps := [.out, .counts, .evrQueue, .tim, .line, .dkl, .lci, .sac, .vat, .sch, .ports, .trib, .tribOld, .sc, .sa, .cur, .mte])
    (.refl s) rfl .felt rfl

/-- The link comes up with an ALN slot in place. -/
theorem State.mateLinkUp_up (s : State) : s.mateLinkUp.felt.up = true := by
  unfold State.mateLinkUp
  dsimp only
  rw [State.mateTryPair_felt]
  split
  · rw [State.mateGo_felt, State.discardCopy_felt]
    rfl
  · rfl

theorem State.feltTake_up (hup : s.felt.up = true) (cs : List FeltChar) : s.feltTake cs = s.feltSlot cs := if_pos hup

theorem State.feltTake_aligned (hdown : s.felt.up = false) : (s.feltTake [.aln, .aln, .aln, .aln]).felt.up = true := by
  have heq : s.feltTake [.aln, .aln, .aln, .aln] = s.mateLinkUp := by
    unfold State.feltTake
    rw [hdown]
    rfl
  rw [heq, State.mateLinkUp_up]

/-- The bytes of a data slot belong to the frame. -/
theorem State.feltSlot_data {cs : List FeltChar} {bs : Bytes} (hin : s.felt.inFrame = true) (hdata : slotData cs = some bs) :
    (s.feltSlot cs).felt = { s.felt with acc := s.felt.acc ++ bs } := by
  unfold State.feltSlot
  rw [hdata]
  dsimp only
  rw [if_pos hin]
  rfl

/-- SOF begins a frame. -/
theorem State.feltSlot_sof (hout : s.felt.inFrame = false) :
    (s.feltSlot [.sof, .sof, .sof, .sof]).felt = { s.felt with inFrame := true, bad := false, acc := [] } := by
  have heq : s.feltSlot [.sof, .sof, .sof, .sof] =
      (if s.felt.inFrame then s.feltErrored else s).modFelt fun x => { x with inFrame := true, bad := false, acc := [] } := rfl
  rw [heq, hout]
  rfl

/-- EOF delivers the frame. -/
theorem State.feltSlot_eof (hin : s.felt.inFrame = true) (hgood : s.felt.bad = false) : s.feltSlot [.eof, .eof, .eof, .eof] =
    (s.modFelt fun x => { x with inFrame := false, acc := [] }).feltDeliver s.felt.acc := by
  have heq : s.feltSlot [.eof, .eof, .eof, .eof] = if !s.felt.inFrame then s else if s.felt.bad then s.feltErrored
      else (s.modFelt fun x => { x with inFrame := false, acc := [] }).feltDeliver s.felt.acc := rfl
  rw [heq, hin, hgood]
  rfl

/-- The link that goes down is not aligned any more. -/
theorem State.feltDown_down (s : State) : s.feltDown.felt.up = false ∧ s.feltDown.felt.aligned = false := by
  unfold State.feltDown
  dsimp only
  split
  · exact ⟨rfl, rfl⟩
  · next hup => exact ⟨Bool.eq_false_of_not_eq_true hup, rfl⟩

theorem feltFifoError_completes (hlive : s.feltLive = true) : Completes .feltFifoError s fun u => u.felt.up = false ∧ u.felt.aligned = false := by
  refine completes_finish (t := ((s.setBit (Reg.ser 64 0x100) 6).feltDown).mateLook) (if_pos hlive) ?_
  rw [State.mateEnd_felt]
  exact State.feltDown_down _

/-! ### What a device tells its mate -/

theorem State.interlock_fseqTx (s : State) : s.interlock.mte.fseqTx = s.mte.fseqTx := by
  obtain ⟨_, _, _, h⟩ := s.interlock_setLock
  rw [h]
  rfl

theorem State.mateGo_fseqTx (s : State) (st : MState) (cause : Nat) : (s.mateGo st cause).mte.fseqTx = s.mte.fseqTx := by
  by_cases hst : st = s.mte.st
  · unfold State.mateGo
    rw [if_pos hst]
  · obtain ⟨p, e, h, o, heq⟩ := s.mateGo_changes cause hst
    rw [heq, State.interlock_fseqTx]
    rfl

theorem State.mateEnd_fseqTx (s : State) : s.mateLook.settle.mte.fseqTx = s.mte.fseqTx := by
  rw [State.settle_mte]
  unfold State.mateLook
  split
  · exact s.mateGo_fseqTx _ _
  · rfl

/-- A frame sent leaves under its number, and the number is used. -/
theorem completes_feltSend {i : Instr} {type : Nat} {body : Bytes} (hx : exec i s = mateEnd (s.feltSend type body)) (hup : s.felt.up = true)
    (hkey : s.mte.key.isSome = true) : Completes i s fun u =>
      (s.feltSends = true → Out.felt (s.mte.frame s.pads.mateSide type body) ∈ u.out) ∧ u.mte.fseqTx = s.mte.fseqTx + 1 :=
  completes_finish hx ⟨fun hsends => State.mem_mateEnd_out (State.feltSend_sends hup hkey hsends type body),
    (State.mateEnd_fseqTx _).trans (State.feltSend_counts hup hkey type body).1⟩

theorem heartbeatSend_completes (hup : s.felt.up = true) : Completes .heartbeatSend s fun u =>
    (s.feltSends = true → Out.heartbeat ∈ u.out) ∧ u.mte.hbOutVals = (List.finRange 8).map fun b => (s.tbAt b).val := by
  refine completes_finish (if_pos hup) ⟨fun hsends => (State.settle_out _).subset ?_, ?_⟩
  · rw [if_pos hsends]
    exact List.mem_cons_self
  · rw [State.settle_mte]
    split <;> rfl

/-- A defect of this device's own is marked; the mate's alone is a request to release (R409, R412). -/
theorem exec_oneSidedDefect {m : Fin 4} {bit : Fin 5} (hst : s.mte.st = .standby ∨ s.mte.st = .sync) (hvalid : s.mte.follow[m].valid = true)
    (hne : (s.defWord m).getLsbD bit.val ≠ s.mte.follow[m].peerDef.getLsbD bit.val) : exec (.oneSidedDefect m bit) s =
      mateEnd (if (s.defWord m).getLsbD bit.val then
        s.modMte fun x => { x with oneSided := tset false (5 * m.val + bit.val) true x.oneSided } else s.feltSend 0x40 [2]) :=
  if_pos ⟨hst, hvalid, hne⟩

theorem oneSidedDefect_marks {m : Fin 4} {bit : Fin 5} (hst : s.mte.st = .standby ∨ s.mte.st = .sync) (hvalid : s.mte.follow[m].valid = true)
    (hown : (s.defWord m).getLsbD bit.val = true) (hpeer : s.mte.follow[m].peerDef.getLsbD bit.val = false) :
    Completes (.oneSidedDefect m bit) s fun u => u.mte.oneSided = tins (5 * m.val + bit.val) true s.mte.oneSided := by
  have hx := exec_oneSidedDefect hst hvalid (by rw [hown, hpeer]; decide)
  rw [if_pos hown] at hx
  have hmarked := congrArg Mte.oneSided (State.mateEnd_session (s.modMte fun x => { x with
    oneSided := tset false (5 * m.val + bit.val) true x.oneSided }))
  exact completes_finish hx hmarked

theorem oneSidedDefect_asks {m : Fin 4} {bit : Fin 5} (hst : s.mte.st = .standby ∨ s.mte.st = .sync) (hvalid : s.mte.follow[m].valid = true)
    (hown : (s.defWord m).getLsbD bit.val = false) (hpeer : s.mte.follow[m].peerDef.getLsbD bit.val = true) :
    exec (.oneSidedDefect m bit) s = mateEnd (s.feltSend 0x40 [2]) :=
  (exec_oneSidedDefect hst hvalid (by rw [hown, hpeer]; decide)).trans (congrArg mateEnd (if_neg (by rw [hown]; decide)))

/-- Settles O51: a lane's sync by its state, a slot by its characters, what is told by its frame. -/
theorem feltLinkCarries : Obligations.FeltLinkCarries := by
  unfold Obligations.FeltLinkCarries
  refine ⟨⟨FeltLane.char_st, fun s c0 c1 c2 c3 => ⟨feltSlotReceive_completes c0 c1 c2 c3, State.feltTake_aligned, fun cs bs hup hin hdata => ?_,
    fun hup hout => ?_, fun hup hin hgood => ?_, feltFifoError_completes⟩⟩, fun s => ⟨heartbeatSend_completes, fun k hk hup => ?_,
      fun m bit => oneSidedDefect_marks⟩⟩
  · rw [State.feltTake_up hup, State.feltSlot_data hin hdata]
  · rw [State.feltTake_up hup, State.feltSlot_sof hout]
  · rw [State.feltTake_up hup, State.feltSlot_eof hin hgood]
  · have hkey : s.mte.key.isSome = true := by rw [hk]; rfl
    refine ⟨completes_feltSend (if_pos (by rw [hkey, hup]; rfl)) hup hkey, fun hst hlen => completes_feltSend (if_pos ⟨hst, hkey, hup, hlen⟩) hup hkey,
      fun m bit hst hvalid hown hpeer => completes_feltSend (oneSidedDefect_asks hst hvalid hown hpeer) hup hkey⟩

end Sys2Proof.Machine
end

section
/-! Evidence and fuses (R430, R433, R434), the tamper HOLD (R426), the backup domain (R432). -/

namespace Sys2Proof.Machine

variable {s t : State}

/-! ### What a log entry leaves of the tamper block -/

/-- A log entry takes its number, or counts as lost: the rest of the tamper block stays. -/
theorem State.logAppend_tmp (s : State) (type rank sources arg : Nat) (retires ends clears : Bool) : ∃ next lost,
    (s.logAppend type rank sources arg retires ends clears).tmp = { s.tmp with logNext := next, logLost := lost } := by
  unfold State.logAppend
  dsimp only
  split
  · exact ⟨_, _, rfl⟩
  · split
    · exact ⟨_, _, rfl⟩
    · split
      · exact ⟨_, _, rfl⟩
      · split <;> exact ⟨_, _, rfl⟩

theorem State.logAppend_evJobs (s : State) (type rank sources arg : Nat) (retires ends clears : Bool) :
    (s.logAppend type rank sources arg retires ends clears).tmp.evJobs = s.tmp.evJobs := by
  obtain ⟨next, lost, h⟩ := s.logAppend_tmp type rank sources arg retires ends clears
  rw [h]

theorem State.fullEntry_evJobs (s : State) : s.fullEntry.tmp.evJobs = s.tmp.evJobs := by
  unfold State.fullEntry
  split
  · exact State.logAppend_evJobs _ 6 0 0 0 false false false
  · rfl

/-! ### The evidence counter (R433, R434) -/

/-- What a counted response does after the count: its entry, that of the full counter, the next storage epoch. -/
def State.responseEntries (s : State) (rank : Nat) (srcs : BitVec 12) (thr : Bool) : State :=
  ((s.logAppend 1 (rank + 128 * b2n thr) srcs.toNat 0 true).fullEntry).retireEpoch true

theorem State.responseEntries_only (s : State) (rank : Nat) (srcs : BitVec 12) (thr : Bool) :
    Only [.kst, .tmp, .bkp] s (s.responseEntries rank srcs thr) :=
  State.retireEpoch_only (State.fullEntry_only (State.logAppend_only (.refl s) _ _ _ _ _ _ _ rfl) rfl) _ rfl

theorem State.responseEntries_evJobs (s : State) (rank : Nat) (srcs : BitVec 12) (thr : Bool) :
    (s.responseEntries rank srcs thr).tmp.evJobs = s.tmp.evJobs := by
  have hretire : ∀ x : State, (x.retireEpoch true).tmp = x.tmp := fun x => State.retireEpoch_only (.refl x) (ps := [.kst]) true rfl .tmp rfl
  unfold State.responseEntries
  rw [hretire, State.fullEntry_evJobs, State.logAppend_evJobs]

theorem evidenceIncrementDone_completes {j : EvJob} {js : List EvJob} (hjobs : s.tmp.evJobs = j :: js) :
    Completes .evidenceIncrementDone s fun u =>
      u.otp = { s.otp with evidence := min 512 (s.otp.evidence + 1) } ∧ u.tmp.evJobs = js := by
  have hexec : exec .evidenceIncrementDone s = execEvidenceIncrementDone s := rfl
  cases j with
  | response rank srcs thr =>
    have hx : exec .evidenceIncrementDone s =
        finish (((s.modTmp fun t => { t with evJobs := js }).evidenceUp).responseEntries rank srcs thr) := by
      rw [hexec, execEvidenceIncrementDone, hjobs]
      rfl
    refine completes_finish hx ⟨?_, ?_⟩
    · rw [State.settle_otp]
      exact State.responseEntries_only _ rank srcs thr .otp rfl
    · rw [State.settle_tmp, State.responseEntries_evJobs]
      rfl
  | backup =>
    have hx : exec .evidenceIncrementDone s = finish (s.modTmp fun t => { t with evJobs := js }).evidenceUp := by
      rw [hexec, execEvidenceIncrementDone, hjobs]
    refine completes_finish hx ⟨?_, ?_⟩
    · rw [State.settle_otp]
      rfl
    · rw [State.settle_tmp]
      rfl

/-! ### Fuses (R430) -/

theorem fuseTgtWrite_completes (v : W32) (hlive : s.islandLive = true) : Completes (.fuseTgtWrite 1 v) s fun u =>
    u.tmp = { s.tmp with fuseWindow := true, fuseShut := none } ∧ u.regs = (s.setReg (Reg.tmp 0x28) (v.toNat % 16)).regs := by
  have hx : exec (.fuseTgtWrite 1 v) s = finish (s.fuseTgt v.toNat) := by
    change execFuseTgtWrite 1 v s = _
    unfold execFuseTgtWrite
    rw [hlive]
    rfl
  refine completes_finish hx ⟨?_, ?_⟩
  · rw [State.settle_tmp]
    rfl
  · rw [State.settle_regs]
    rfl

theorem exec_fuseDisableGo (v : W32) (hlive : s.islandLive = true) : exec (.fuseDisableGo 1 v) s = finish (s.fuseGo v.toNat) := by
  change execFuseDisableGo 1 v s = _
  unfold execFuseDisableGo
  rw [hlive]
  rfl

theorem State.fuseGo_tmp {v : Nat} (hopen : s.fuseOpen = true) (hkey : v / 65536 = 0x4644) (htgt : v % 16 = s.reg (Reg.tmp 0x28))
    (hn : v % 16 < 8) (hlc : s.kst.lc = 1 ∨ s.kst.lc = 2) (hnone : s.tmp.fusePend = none) :
    (s.fuseGo v).tmp.fuseWindow = false ∧ (s.fuseGo v).tmp.fusePend = some (v % 16) := by
  have hgo : s.fuseGo v = (s.modTmp fun t => { t with fuseWindow := false, fuseShut := none, fusePend := some (v % 16) }).logAppend 5 0 0 (v % 16) :=
    if_pos ⟨hopen, hkey, htgt, hn, hlc, hnone⟩
  obtain ⟨next, lost, htmp⟩ := State.logAppend_tmp (s.modTmp fun t => { t with fuseWindow := false, fuseShut := none, fusePend := some (v % 16) })
    5 0 0 (v % 16) false false false
  rw [hgo, htmp]
  exact ⟨rfl, rfl⟩

theorem State.fuseGo_shut {v : Nat} (hshut : s.fuseOpen = false) : s.fuseGo v = s.setBit (Reg.tmp 0x30) 8 :=
  if_neg fun ⟨hopen, _⟩ => Bool.noConfusion (hopen.symm.trans hshut)

theorem State.setBit_tmp (s : State) (a i : Nat) (b : Bool) : (s.setBit a i b).tmp = s.tmp := rfl

theorem fuseDisableGo_err (v : W32) (hlive : s.islandLive = true) (hshut : s.fuseOpen = false) :
    Completes (.fuseDisableGo 1 v) s fun u => u.tmp = s.tmp ∧ u.regs = (s.setBit (Reg.tmp 0x30) 8).regs := by
  have hx := exec_fuseDisableGo v hlive
  rw [State.fuseGo_shut hshut] at hx
  refine completes_finish hx ⟨?_, ?_⟩
  · rw [State.settle_tmp, State.setBit_tmp]
  · rw [State.settle_regs]

theorem fuse_locked (v : W32) (hlive : s.islandLive = true) :
    Completes (.fuseTgtWrite 0 v) s (fun u => Only settled s u) ∧ Completes (.fuseDisableGo 0 v) s (fun u => Only settled s u) := by
  refine ⟨completes_locked (pf := 0) (a := Reg.tmp 0x28) (v := v.toNat) ?_, completes_locked (pf := 0) (a := Reg.tmp 0x2C) (v := v.toNat) ?_⟩
  · change execFuseTgtWrite 0 v s = _
    unfold execFuseTgtWrite
    rw [hlive]
    rfl
  · change execFuseDisableGo 0 v s = _
    unfold execFuseDisableGo
    rw [hlive]
    rfl

theorem fuseWindowExpire_completes (hopen : s.tmp.fuseWindow = true) : Completes .fuseWindowExpire s fun u =>
    u.tmp = { s.tmp with fuseWindow := false, fuseShut := some s.now } := by
  refine completes_finish (if_pos hopen) ?_
  rw [State.settle_tmp]
  rfl

theorem exec_fuseDisableDone {n : Fin 8} (hpend : s.tmp.fusePend = some n.val)
    (hlog : (s.kst.mtpJobs.any fun j => decide (j.kind = .log)) = false) : exec .fuseDisableDone s =
      finish ((s.modOtp fun o => { o with disable := o.disable.set n 0xFF }).modTmp fun t => { t with
        fusePend := none, dis := t.dis ||| (1#8 <<< n.val), firing := t.firing &&& ~~~(1#12 <<< n.val) }) := by
  have hn : n.val % 8 = n.val := Nat.mod_eq_of_lt n.isLt
  change execFuseDisableDone s = _
  unfold execFuseDisableDone
  rw [hpend]
  dsimp only
  rw [hlog]
  simp only [hn]
  rfl

theorem fuseDisableDone_completes {n : Fin 8} (hpend : s.tmp.fusePend = some n.val)
    (hlog : (s.kst.mtpJobs.any fun j => decide (j.kind = .log)) = false) : Completes .fuseDisableDone s fun u =>
      u.otp = { s.otp with disable := s.otp.disable.set n 0xFF } ∧ u.tmp = { s.tmp with
        fusePend := none, dis := s.tmp.dis ||| (1#8 <<< n.val), firing := s.tmp.firing &&& ~~~(1#12 <<< n.val) } := by
  refine completes_finish (exec_fuseDisableDone hpend hlog) ⟨?_, ?_⟩
  · rw [State.settle_otp]
    rfl
  · rw [State.settle_tmp]
    rfl

/-! ### The tamper HOLD (R426) -/

/-- What a HOLD clears once its domains are held. -/
def State.clearHeld (s : State) : State :=
  let s1 := (s.clearMills (List.finRange 4)).clearMgmt.clearTim.clearTbs
  let s2 := ((List.finRange 4).foldl State.clearChan s1).clearRegions.clearFelt
  s2.keepRegs fun a => decide (a < 0x60000) || inBlock 0x80000 0x10000 a || decide (a = 0x100000)

theorem State.clearHeld_cur (s : State) : s.clearHeld.cur = Vector.replicate 4 {} :=
  foldl_kept (g := State.cur) (fun _ _ => rfl) (List.finRange 4) (s.clearMills (List.finRange 4)).clearMgmt.clearTim.clearTbs

/-- The areas that a HOLD clears: neither the key store nor the tamper block. -/
def heldAreas : List Area := [.settings, .status, .shadow, .host, .pads, .counts, .gather, .timeBases, .tim, .mem, .line, .dkl, .lci, .sac, .vat,
  .sch, .ports, .trib, .tribOld, .sc, .sa, .hbxRr, .cur, .lanes, .felt, .role, .mte]

theorem State.clearHeld_only (s : State) : Only heldAreas s s.clearHeld := by
  have hmills := State.clearMills_only (ps := heldAreas) (.refl s) (List.finRange 4) rfl
  have htim := State.clearTbs_only (State.clearTim_only (State.clearMgmt_only hmills rfl) rfl) rfl
  have hchans := Only.foldl State.clearChan (fun _ c h => State.clearChan_only h c rfl) (List.finRange 4) _ htim
  exact State.keepRegs_only (State.clearFelt_only (State.clearRegions_only hchans rfl) rfl) _ rfl

/-- The HOLD's own marks, before it clears what it holds. -/
def State.engage (s : State) : State :=
  ((s.cause 11).modTmp fun t => { t with holding := true, holdDue := false, exec := none }).hold
    (setOf [3, 4, 5, 6, 7, 8, 9, 10, 11, 12, 13])

theorem State.engage_released (s : State) : s.engage.rst.released = s.rst.released &&& ~~~0x3FF8#15 := by
  have hset : setOf [3, 4, 5, 6, 7, 8, 9, 10, 11, 12, 13] = 0x3FF8#15 := by decide
  unfold State.engage
  rw [hset]
  rfl

theorem State.hold_kst (s : State) (ds : BitVec 15) : (s.hold ds).kst = s.kst := rfl

theorem State.cause_kst (s : State) (i : Nat) : (s.cause i).kst = s.kst := rfl

theorem State.engage_kst (s : State) : s.engage.kst = s.kst := by
  unfold State.engage
  rw [State.hold_kst, State.modTmp_kst, State.cause_kst]

theorem exec_holdEngage (hdue : s.tmp.holdDue = true) : exec .holdEngage s = finish s.engage.clearHeld := if_pos hdue

theorem holdEngage_completes (hdue : s.tmp.holdDue = true) : Completes .holdEngage s fun u => u.tmp.holding = true ∧ u.tmp.exec = none
    ∧ u.rst.released = s.rst.released &&& ~~~0x3FF8#15 ∧ u.kst = s.kst ∧ u.cur = Vector.replicate 4 {} := by
  have hheld := s.engage.clearHeld_only
  have htmp : _ = State.tmp _ := hheld .tmp rfl
  have hreleased : _ = Rst.released _ := hheld .domains rfl
  refine completes_finish (exec_holdEngage hdue) ?_
  rw [State.settle_tmp, State.settle_rst, State.settle_kst, State.settle_cur, htmp, hreleased, hheld.kst_eq rfl rfl, State.clearHeld_cur,
    State.engage_released, State.engage_kst]
  exact ⟨rfl, rfl, rfl, rfl, rfl⟩

/-! ### The backup domain (R432, R433) -/

theorem backupWake_completes {fires : BitVec 5} (hheld : s.rst.porHeld = true) (hcell : s.bkp.vbat ≠ .lost)
    (hhit : fires &&& s.bkp.mask &&& ~~~s.bkpDisabled ≠ 0) : Completes (.backupWake fires) s fun u =>
      u.bkp = { s.bkp with pending := true, fired := true, firedSrc := s.bkp.firedSrc ||| (fires &&& s.bkp.mask &&& ~~~s.bkpDisabled) }
        ∧ u.kst = { s.kst with reserve := [] } := by
  have hx : exec (.backupWake fires) s = _ := (if_pos ⟨hheld, hcell⟩ : execBackupWake fires s = _).trans (if_neg hhit)
  refine completes_finish hx ⟨?_, ?_⟩
  · rw [State.settle_bkp]
    rfl
  · rw [State.settle_kst]
    rfl

theorem vbatChange_back {v : Vbat} (hne : v ≠ s.bkp.vbat) (hcell : v ≠ .lost) :
    Completes (.vbatChange v) s fun u => u.bkp = { s.bkp with vbat := v } ∧ u.kst = s.kst := by
  have hx : exec (.vbatChange v) s = _ := (if_neg hne : execVbatChange v s = _).trans (if_neg hcell)
  refine completes_finish hx ⟨?_, ?_⟩
  · rw [State.settle_bkp]
    rfl
  · rw [State.settle_kst]
    rfl

theorem vbatChange_lost (hcell : s.bkp.vbat ≠ .lost) : Completes (.vbatChange .lost) s fun u => u.bkp = {}
    ∧ u.kst = { s.kst with reserve := if s.rst.porHeld then [] else s.kst.reserve } := by
  have hx : exec (.vbatChange .lost) s = _ := (if_neg fun h => hcell h.symm : execVbatChange .lost s = _).trans (if_pos rfl)
  refine completes_finish hx ⟨?_, ?_⟩
  · rw [State.settle_bkp]
    rfl
  · rw [State.settle_kst]
    rfl

/-- Settles O37: each command by its own lemma; what is programmed stays by the frame of every step. -/
theorem evidenceIsKept : Obligations.EvidenceIsKept := by
  unfold Obligations.EvidenceIsKept
  refine ⟨fun s => ⟨fun _ _ => evidenceIncrementDone_completes, fun v hlive => ⟨fuseTgtWrite_completes v hlive, fun hopen hkey htgt hn hlc hnone => ?_,
    fuseDisableGo_err v hlive, fuse_locked v hlive⟩, fuseWindowExpire_completes, fun _ => fuseDisableDone_completes, holdEngage_completes,
      fun _ => backupWake_completes, fun _ => vbatChange_back, vbatChange_lost⟩, fun s t h => (step_keeps_promises h).2⟩
  refine completes_finish (exec_fuseDisableGo v hlive) ?_
  rw [State.settle_tmp]
  exact State.fuseGo_tmp hopen hkey htgt hn hlc hnone

end Sys2Proof.Machine
end

section
/-! Resets (R438, R442 to R445, R450, R483): what each holds and clears. -/

namespace Sys2Proof.Machine

variable {s t : State} {m k : Fin 4}

/-! ### The mills through the operations that clear -/

theorem State.keepRegs_regs (s : State) (p : Nat → Bool) : (s.keepRegs p).regs = tkeep p s.regs := rfl

theorem State.keepRegs_mills (s : State) (p : Nat → Bool) : (s.keepRegs p).mills = s.mills := rfl

theorem State.clearLanes_mills (s : State) (p : Nat → Bool) (saved : Bool) : (s.clearLanes p saved).mills = s.mills := by
  unfold State.clearLanes
  rfl

theorem State.clearLanes_regs (s : State) (p : Nat → Bool) (saved : Bool) : (s.clearLanes p saved).regs = s.regs := by
  unfold State.clearLanes
  rfl

theorem State.clearFelt_mills (s : State) : s.clearFelt.mills = s.mills := by
  unfold State.clearFelt
  dsimp only
  rw [State.clearLanes_mills]

theorem State.clearMill_mills (s : State) (m : Fin 4) : (s.clearMill m).mills = s.mills.set m {} := by
  unfold State.clearMill
  rfl

theorem State.clearMill_cur (s : State) (m : Fin 4) : (s.clearMill m).cur = s.cur.set m {} := by
  unfold State.clearMill
  rfl

theorem State.clearMill_trib (s : State) (m : Fin 4) : (s.clearMill m).trib = s.trib.filter fun e => decide (e.2.mill ≠ m) := by
  unfold State.clearMill
  rfl

theorem State.clearMill_regs (s : State) (m : Fin 4) : (s.clearMill m).regs = tkeep (fun a => !millReg m a) s.regs := by
  unfold State.clearMill
  dsimp only
  rw [State.keepRegs_regs, State.clearLanes_regs, State.modPmc_regs]
  rfl

theorem State.clearMills_mills (s : State) : (s.clearMills (List.finRange 4)).mills = Vector.replicate 4 {} := by
  have hrange : List.finRange 4 = [0, 1, 2, 3] := by decide
  unfold State.clearMills
  rw [hrange]
  simp only [List.foldl, State.clearMill_mills]
  refine Vector.ext fun i hi => ?_
  rw [Vector.getElem_replicate]
  match i, hi with
  | 0, _ | 1, _ | 2, _ | 3, _ => simp

theorem State.clearWarm_mills (s : State) : s.clearWarm.mills = Vector.replicate 4 {} := by
  have hchans := foldl_kept (f := State.clearChan) (g := State.mills) (fun _ _ => rfl) (List.finRange 4)
    ((s.clearMills (List.finRange 4)).clearIsland.clearMgmt.clearTim)
  unfold State.clearWarm
  dsimp only
  rw [State.keepRegs_mills, State.clearLanes_mills, State.clearFelt_mills]
  exact hchans.trans s.clearMills_mills

theorem State.clearTbs_mills (s : State) : s.clearTbs.mills = s.mills := rfl

/-! ### A cold reset and a warm one -/

theorem State.coldReset_mills (s : State) : s.coldReset.mills = Vector.replicate 4 {} := by
  unfold State.coldReset State.clearCold
  dsimp only
  rw [State.keepRegs_mills, State.clearTbs_mills, State.clearWarm_mills]

theorem State.coldReset_timeBases (s : State) : s.coldReset.tim.tb = Vector.replicate 8 {} := by
  unfold State.coldReset State.clearCold
  rfl

/-- What a warm reset clears neither releases a domain nor touches the time bases, the tamper block or the reserve keys; it clears the RNG. -/
theorem State.clearWarm_keeps (s : State) : s.clearWarm.rst.released = s.rst.released ∧ s.clearWarm.tim.tb = s.tim.tb
    ∧ s.clearWarm.tmp = s.tmp := by
  have hwarm := State.clearWarm_only (ps := [.settings, .status, .shadow, .host, .pads, .counts, .gather, .tim, .slots, .kst, .rng, .uci, .mem,
    .line, .dkl, .lci, .sac, .vat, .sch, .ports, .trib, .tribOld, .sc, .sa, .hbxRr, .cur, .lanes, .felt, .role, .mte]) (.refl s) rfl
  exact ⟨hwarm .domains rfl, hwarm .timeBases rfl, hwarm .tmp rfl⟩

theorem State.clearWarm_island (s : State) : s.clearWarm.rng = {} ∧ s.clearWarm.kst.reserve = s.kst.reserve := by
  have hmills := State.clearMills_only (ps := heldAreas) (.refl s) (List.finRange 4) rfl
  have htim : Only heldAreas _ _ := State.clearTim_only (State.clearMgmt_only (.refl (s.clearMills (List.finRange 4)).clearIsland) rfl) rfl
  have hchans := Only.foldl State.clearChan (fun _ c h => State.clearChan_only h c rfl) (List.finRange 4) _ htim
  have hfelt := State.clearFelt_only (State.clearRegions_only hchans rfl) rfl
  have hlast := State.keepRegs_only (State.clearLanes_only hfelt (fun _ => true) false rfl) keptWarm rfl
  have hisland : (s.clearMills (List.finRange 4)).clearIsland.kst.reserve = (s.clearMills (List.finRange 4)).kst.reserve := rfl
  have hreserve := (congrArg Kst.reserve (hlast.kst_eq rfl rfl)).trans (hisland.trans (congrArg Kst.reserve (hmills.kst_eq rfl rfl)))
  exact ⟨hlast .rng rfl, hreserve⟩

/-- Before a warm reset holds its domains, no more than a cause and the MTP write in progress. -/
theorem State.warmReset_eq (s : State) : ∃ x, s.warmReset = (x.hold warmSet).clearWarm ∧ Only [.status, .mtp] s x := by
  have hcause : Only [.status, .mtp] s (if s.pulsing then s.cause 20 else s) := by
    split
    · exact State.cause_only (.refl s) 20 rfl
    · exact .refl s
  unfold State.warmReset
  refine ⟨_, rfl, ?_⟩
  split
  · split
    · exact State.mtpWrite_only hcause _ _ rfl
    · exact State.mtpWrite_only hcause _ _ rfl
    · exact hcause
  · exact hcause

theorem State.warmReset_keeps (s : State) : s.warmReset.rst.released = s.rst.released &&& ~~~warmSet ∧ s.warmReset.mills = Vector.replicate 4 {}
    ∧ s.warmReset.tim.tb = s.tim.tb ∧ s.warmReset.tmp = s.tmp ∧ s.warmReset.kst.reserve = s.kst.reserve ∧ s.warmReset.rng = {} := by
  obtain ⟨x, hx, hbefore⟩ := s.warmReset_eq
  obtain ⟨hreleased, htb, htmp⟩ := (x.hold warmSet).clearWarm_keeps
  obtain ⟨hrng, hreserve⟩ := (x.hold warmSet).clearWarm_island
  rw [hx]
  refine ⟨hreleased.trans (congrArg (· &&& ~~~warmSet) (hbefore .domains rfl)), State.clearWarm_mills _, htb.trans (hbefore .timeBases rfl),
    htmp.trans (hbefore .tmp rfl), hreserve.trans (congrArg Kst.reserve (hbefore.kst_eq rfl rfl)), hrng⟩

/-! ### A write of RST_CTL (R438) -/

theorem exec_swColdReset (pf : Fin 2) (v : W32) (hlive : s.rst.porHeld = false) :
    exec (.swColdReset pf v) s = finish (s.rstCtlWrite pf v.toNat) :=
  if_pos (by unfold State.rstLive; rw [hlive]; rfl)

theorem exec_swWarmReset (pf : Fin 2) (v : W32) (hlive : s.rst.porHeld = false) :
    exec (.swWarmReset pf v) s = finish (s.rstCtlWrite pf v.toNat) :=
  if_pos (by unfold State.rstLive; rw [hlive]; rfl)

theorem State.rstCtlWrite_key {v : Nat} (hkey : v / 65536 = 0x5253) : s.rstCtlWrite 1 v = s.rstCtl v := if_pos ⟨rfl, hkey⟩

theorem State.rstCtlWrite_locked {pf : Fin 2} {v : Nat} (h : pf = 0 ∨ v / 65536 ≠ 0x5253) : s.rstCtlWrite pf v = s.lockedWrite pf 0x100 v := by
  refine if_neg fun ⟨hpf, hkey⟩ => ?_
  obtain rfl | hne := h
  · exact absurd hpf (by decide)
  · exact hne hkey

theorem State.causes_rst {α : Type} (f : α → Nat) (l : List α) (s : State) : (l.foldl (fun (x : State) a => x.cause (f a)) s).rst = s.rst :=
  foldl_kept (f := fun (x : State) a => x.cause (f a)) (g := State.rst) (fun _ _ => rfl) l s

theorem State.rstCtl_cold {v : Nat} (hcold : natBit v 0 = true) : ∃ x : State, s.rstCtl v = x.coldReset ∧ x.rst = s.rst := by
  unfold State.rstCtl
  refine ⟨_, if_pos hcold, ?_⟩
  rw [State.causes_rst (fun m : Fin 4 => 6 + m.val)]
  split <;> rfl

theorem State.millBits_none : s.millBits 0 = [] := by
  unfold State.millBits
  refine List.filter_eq_nil_iff.mpr fun m _ => ?_
  simp [natBit]

theorem State.rstCtl_warm {v : Nat} (hcold : natBit v 0 = false) (hwarm : natBit v 1 = true) (hmills : natBits v 2 4 = 0) :
    s.rstCtl v = (s.cause 5).warmReset := by
  unfold State.rstCtl
  rw [hcold, hwarm, hmills, State.millBits_none]
  rfl

theorem swColdReset_completes {v : W32} (hlive : s.rst.porHeld = false) (hkey : v.toNat / 65536 = 0x5253) (hcold : natBit v.toNat 0 = true) :
    Completes (.swColdReset 1 v) s fun u => u.rst.released = s.rst.released &&& ~~~coldSet ∧ u.mills = Vector.replicate 4 {} := by
  have hx := exec_swColdReset 1 v hlive
  obtain ⟨x, hctl, hrst⟩ := State.rstCtl_cold (s := s) hcold
  rw [State.rstCtlWrite_key hkey, hctl] at hx
  refine completes_finish hx ⟨?_, ?_⟩
  · rw [State.settle_rst, x.coldReset_keeps.1, hrst]
  · rw [State.settle_mills, State.coldReset_mills]

theorem swWarmReset_completes {v : W32} (hlive : s.rst.porHeld = false) (hkey : v.toNat / 65536 = 0x5253) (hcold : natBit v.toNat 0 = false)
    (hwarm : natBit v.toNat 1 = true) (hmills : natBits v.toNat 2 4 = 0) : Completes (.swWarmReset 1 v) s fun u =>
      u.rst.released = s.rst.released &&& ~~~warmSet ∧ u.mills = Vector.replicate 4 {} ∧ u.tim.tb = s.tim.tb ∧ u.tmp = s.tmp
        ∧ u.kst.reserve = s.kst.reserve ∧ u.rng = {} := by
  have hx := exec_swWarmReset 1 v hlive
  rw [State.rstCtlWrite_key hkey, State.rstCtl_warm hcold hwarm hmills] at hx
  refine completes_finish hx ?_
  rw [State.settle_rst, State.settle_mills, State.settle_tim, State.settle_tmp, State.settle_kst, State.settle_rng]
  exact State.warmReset_keeps _

theorem rstCtl_locked (v : W32) {pf : Fin 2} (hlive : s.rst.porHeld = false) (h : pf = 0 ∨ v.toNat / 65536 ≠ 0x5253) :
    Completes (.swColdReset pf v) s (fun u => Only settled s u) ∧ Completes (.swWarmReset pf v) s fun u => Only settled s u := by
  have hlocked := congrArg finish (State.rstCtlWrite_locked (s := s) h)
  exact ⟨completes_locked ((exec_swColdReset pf v hlive).trans hlocked), completes_locked ((exec_swWarmReset pf v hlive).trans hlocked)⟩

/-! ### Pins and power (R443, R450, R483) -/

theorem powerOnReset_completes {a : Bool} (hne : s.rst.porHeld ≠ a) : Completes (.powerOnReset a) s fun u => u.rst.porHeld = a
    ∧ u.rst.released = 0 ∧ u.regs = [] ∧ u.otp = s.otp ∧ u.mtp = s.mtp ∧ u.bkp = (if s.bkp.vbat = .lost then {} else s.bkp) ∧ u.mem = {}
    ∧ u.mills = Vector.replicate 4 {} ∧ u.tim = {} ∧ u.trib = [] ∧ u.sa = []
    ∧ u.kst = { reserve := if s.bkp.vbat = .lost then [] else s.kst.reserve, rootFail := s.kst.rootFail } := by
  refine completes_finish (if_neg hne) ?_
  rw [State.settle_rst, State.settle_regs, State.settle_otp, State.settle_mtp, State.settle_bkp, State.settle_mem, State.settle_mills,
    State.settle_tim, State.settle_trib, State.settle_sa, State.settle_kst]
  exact ⟨rfl, rfl, rfl, rfl, rfl, rfl, rfl, rfl, rfl, rfl, rfl, rfl⟩

theorem State.settle_hst_rest (s : State) : s.settle.hst.rest = s.hst.rest :=
  State.settle_only (ps := settled) (.refl s) rfl .host rfl

theorem exec_resetPin_low (hlive : s.rst.porHeld = false) (hhigh : s.rst.resetLow = false) :
    exec .resetPin s = finish ((s.cause 1).coldReset.modRst fun r => { r with resetLow := true }) := by
  change execResetPin s = _
  unfold execResetPin
  rw [hlive, hhigh]
  rfl

theorem resetPin_low (hlive : s.rst.porHeld = false) (hhigh : s.rst.resetLow = false) : Completes .resetPin s fun u => u.rst.resetLow = true
    ∧ u.rst.released = s.rst.released &&& ~~~coldSet ∧ u.mills = Vector.replicate 4 {} ∧ u.tim.tb = Vector.replicate 8 {} := by
  refine completes_finish (exec_resetPin_low hlive hhigh) ?_
  rw [State.settle_rst, State.settle_mills, State.settle_tim, State.modRst_mills, State.modRst_tim, State.coldReset_mills,
    State.coldReset_timeBases]
  exact ⟨rfl, (s.cause 1).coldReset_keeps.1, rfl, rfl⟩

theorem resetPin_high (hlive : s.rst.porHeld = false) (hlow : s.rst.resetLow = true) :
    Completes .resetPin s fun u => u.rst = { s.rst with resetLow := false } ∧ u.regs = s.regs := by
  have hx : exec .resetPin s = finish (s.modRst fun r => { r with resetLow := false }) := by
    change execResetPin s = _
    unfold execResetPin
    rw [hlive, hlow]
    rfl
  refine completes_finish hx ?_
  rw [State.settle_rst, State.settle_regs]
  exact ⟨rfl, rfl⟩

/-- What the falling edge of PERST# resets: the host interface alone, or the whole device. -/
theorem exec_perst_low (hlive : s.rst.porHeld = false) (hhigh : s.rst.perstLow = false) : exec .perst s =
    finish ((if s.bit Reg.rstCfg 0 then ((s.cause 3).hold (setOf [14])).clearPcie else (s.cause 2).coldReset).modRst fun r =>
      { r with perstLow := true }) := by
  change execPerst s = _
  unfold execPerst
  rw [hlive, hhigh]
  rfl

theorem perst_alone (hlive : s.rst.porHeld = false) (hhigh : s.rst.perstLow = false) (hcfg : s.bit Reg.rstCfg 0 = true) :
    Completes .perst s fun u => u.rst.perstLow = true ∧ u.rst.released = s.rst.released &&& ~~~setOf [14]
      ∧ u.hst.masked = BitVec.allOnes 256 ∧ u.hst.linkUp = false ∧ u.mills = s.mills := by
  have hx := exec_perst_low hlive hhigh
  rw [hcfg, if_pos rfl] at hx
  have hhst := State.settle_hst_rest (((s.cause 3).hold (setOf [14])).clearPcie.modRst fun r => { r with perstLow := true })
  have hmasked := congrArg Hst.masked hhst
  have hlink := congrArg Hst.linkUp hhst
  refine completes_finish hx ⟨?_, ?_, hmasked, hlink, ?_⟩
  · rw [State.settle_rst]
    rfl
  · rw [State.settle_rst]
    rfl
  · rw [State.settle_mills]
    rfl

theorem perst_all (hlive : s.rst.porHeld = false) (hhigh : s.rst.perstLow = false) (hcfg : s.bit Reg.rstCfg 0 = false) :
    Completes .perst s fun u => u.rst.perstLow = true ∧ u.rst.released = s.rst.released &&& ~~~coldSet ∧ u.mills = Vector.replicate 4 {} := by
  have hx := exec_perst_low hlive hhigh
  rw [hcfg, if_neg Bool.false_ne_true] at hx
  refine completes_finish hx ?_
  rw [State.settle_rst, State.settle_mills, State.modRst_mills, State.coldReset_mills]
  exact ⟨rfl, (s.cause 2).coldReset_keeps.1, rfl⟩

theorem perst_high (hlive : s.rst.porHeld = false) (hlow : s.rst.perstLow = true) :
    Completes .perst s fun u => u.rst = { s.rst with perstLow := false } ∧ u.regs = s.regs := by
  have hx : exec .perst s = finish (s.modRst fun r => { r with perstLow := false }) := by
    change execPerst s = _
    unfold execPerst
    rw [hlive, hlow]
    rfl
  refine completes_finish hx ?_
  rw [State.settle_rst, State.settle_regs]
  exact ⟨rfl, rfl⟩

theorem railDrop_completes (hlive : s.rst.porHeld = false) : Completes .railDrop s fun u => u.regs = (s.setBit (Reg.mte 0) 1 false).regs
    ∧ (s.mte.st = .active → u.mte.st = .released) := by
  have hx : exec .railDrop s = mateEnd (if s.mte.st = .active then (s.setBit (Reg.mte 0) 1 false).mateRelease 1
      else (s.setBit (Reg.mte 0) 1 false).interlock.claimFailed) := if_neg (by rw [hlive]; exact Bool.false_ne_true)
  by_cases hst : s.mte.st = .active
  · rw [if_pos hst] at hx
    obtain ⟨hrel, -⟩ := State.mateRelease_role (s := s.setBit (Reg.mte 0) 1 false) (cause := 1)
      (fun h => absurd (hst.symm.trans h) (by decide)) (by decide)
    obtain ⟨hmte, -⟩ := State.mateEnd_other (s := (s.setBit (Reg.mte 0) 1 false).mateRelease 1) (by rw [hrel]; decide)
    exact completes_finish hx ⟨(State.mateEnd_regs _).trans (State.mateRelease_regs _ 1), fun _ => (congrArg Mte.st hmte).trans hrel⟩
  · rw [if_neg hst] at hx
    refine completes_finish hx ⟨(State.mateEnd_regs _).trans ?_, fun h => absurd h hst⟩
    rw [State.claimFailed_regs, State.interlock_regs]

end Sys2Proof.Machine
end

section
/-! The reset of a mill (R45, R171, R438): what it clears, and what the other mills hold for it. -/

namespace Sys2Proof.Machine

variable {s t : State} {m k : Fin 4}

/-! ### A mill without state -/

/-- Mill `m` is as after its reset: no state, no flow control at its ports, no tributary. -/
structure State.Cleared (s : State) (m : Fin 4) : Prop where
  mill : s.mill m = {}
  fc : ∀ p : Fin 32, portMill p = m → s.fld (fcReg p) 2 2 = 0
  trib : ∀ e ∈ s.trib, e.2.mill ≠ m

theorem State.fld_of_regs (hregs : t.regs = s.regs) (hotp : t.otp = s.otp) (a lo len : Nat) : t.fld a lo len = s.fld a lo len := by
  unfold State.fld State.reg
  rw [hregs, hotp]

theorem State.OnPath.otp (h : s.OnPath t) : t.otp = s.otp := by obtain ⟨_, _, _, _, _, rfl⟩ := h; rfl
theorem State.OnPath.rst (h : s.OnPath t) : t.rst = s.rst := by obtain ⟨_, _, _, _, _, rfl⟩ := h; rfl

/-- What moves frames leaves a cleared mill cleared where its state and its tributaries are left. -/
theorem State.Cleared.onPath (h : s.Cleared m) (hpath : s.OnPath t) (hmill : t.mill m = s.mill m) (htrib : ∀ e ∈ t.trib, e.2.mill ≠ m) :
    t.Cleared m :=
  ⟨hmill.trans h.mill, fun p hp => (State.fld_of_regs hpath.regs hpath.otp _ _ _).trans (h.fc p hp), htrib⟩

theorem tget_tkeep_out {α : Type} (d : α) {p : Nat → Bool} {a : Nat} (ha : p a = false) : ∀ t : Tbl α, tget d (tkeep p t) a = d
  | [] => rfl
  | (j, v) :: t => by
    have ih := tget_tkeep_out d ha t
    unfold tkeep at ih ⊢
    rw [List.filter_cons]
    split
    · next hj =>
      have hne : j ≠ a := fun h => by rw [h, ha] at hj; exact Bool.false_ne_true hj
      rw [tget, if_neg hne, ih, ite_self]
    · exact ih

theorem fcReg_resets (p : Fin 32) (part : Part) :
    millReg (portMill p) (fcReg p) = true ∧ natBits (BitVec.ofNat 32 (Reg.reset part (fcReg p))).toNat 2 2 = 0 := by
  revert p
  cases part <;> decide

theorem State.clearMill_cleared (s : State) (m : Fin 4) : (s.clearMill m).Cleared m := by
  refine ⟨?_, fun p hp => ?_, fun e he => ?_⟩
  · unfold State.mill
    rw [State.clearMill_mills]
    exact Vector.getElem_set_self ..
  · obtain ⟨hmine, hreset⟩ := fcReg_resets p (s.clearMill m).otp.part
    rw [hp] at hmine
    unfold State.fld State.reg
    rw [State.clearMill_regs, tget_tkeep_out _ (by rw [hmine]; rfl)]
    exact hreset
  · rw [State.clearMill_trib] at he
    exact of_decide_eq_true (List.mem_filter.mp he).2

/-! ### Frames that the other mills hold for it -/

theorem State.mill_modPort_ne (p : Fin 32) (f : Port → Port) (hp : portMill p ≠ m) : (s.modPort p f).mill m = s.mill m :=
  State.mill_modMill_ne _ _ _ _ hp

theorem State.sendControl_mill (s : State) (p : Fin 32) (i q : Nat) : (s.sendControl p i q).mill m = s.mill m := by
  obtain ⟨_, _, _, _, _, _, h⟩ := s.sendControl_samePath p i q
  rw [h]
  rfl

theorem State.fcCheck_off {p : Fin 32} (hoff : s.fld (fcReg p) 2 2 = 0) (pri : Nat) : s.fcCheck p pri = s := by
  have hfc : ∀ i, s.fcOn p i = false := fun i => by unfold State.fcOn; rw [hoff]; rfl
  exact if_pos (by rw [hfc]; rfl)

theorem State.fcCheck_mill {p : Fin 32} (hp : portMill p ≠ m) (pri : Nat) : (s.fcCheck p pri).mill m = s.mill m := by
  unfold State.fcCheck
  dsimp only
  split
  · rfl
  · split
    · rw [State.sendControl_mill, State.mill_modPort_ne _ _ hp]
    · split
      · rw [State.sendControl_mill, State.mill_modPort_ne _ _ hp]
      · rfl

/-- A port whose units of priority `i` are fewer by `n`. -/
def Port.freed (i : Fin 8) (n : Nat) (x : Port) : Port := { x with held := x.held.set i (x.held[i] - n) }

theorem Port.freed_empty (i : Fin 8) (n : Nat) : Port.freed i n {} = {} := by
  have hkept : ∀ v : Vector Nat 8, v[i] = 0 → v.set i (v[i] - n) = v := fun v hv => by
    have hzero : v[i] - n = v[i] := by rw [hv, Nat.zero_sub]
    rw [hzero]
    exact Vector.set_getElem_self _
  exact congrArg (fun held => ({ held := held } : Port)) (hkept (Vector.replicate 8 0) (Vector.getElem_replicate _))

theorem State.holdPri_frees (s : State) (n pri units : Nat) : s.holdPri n pri units false =
    (s.modPort (portOf n) (Port.freed ⟨pri % 8, Nat.mod_lt _ (by decide)⟩ units)).fcCheck (portOf n) pri := rfl

theorem State.Cleared.modPort (h : s.Cleared m) {p : Fin 32} (hp : portMill p = m) {f : Port → Port} (hf : f {} = {}) :
    (s.modPort p f).mill m = s.mill m := by
  have hports : ∀ v : Vector Port 8, v[portIdx p] = {} → v.set (portIdx p) (f v[portIdx p]) = v := fun v hv => by
    have hsame : f v[portIdx p] = v[portIdx p] := by rw [hv, hf]
    rw [hsame]
    exact Vector.set_getElem_self _
  subst hp
  unfold State.modPort
  rw [State.mill_modMill, h.mill]
  exact congrArg (fun ports => ({ ports := ports } : Mill)) (hports (Vector.replicate 8 {}) (Vector.getElem_replicate _))

theorem State.Cleared.holdPri (h : s.Cleared m) (n pri units : Nat) : (s.holdPri n pri units false).mill m = s.mill m := by
  rw [State.holdPri_frees]
  by_cases hp : portMill (portOf n) = m
  · have hfc : (s.modPort (portOf n) (Port.freed ⟨pri % 8, Nat.mod_lt _ (by decide)⟩ units)).fld (fcReg (portOf n)) 2 2 = 0 := h.fc _ hp
    rw [State.fcCheck_off hfc]
    exact h.modPort hp (Port.freed_empty ..)
  · rw [State.fcCheck_mill hp, State.mill_modPort_ne _ _ hp]

/-- A frame staged for a cleared mill is refused: the mill stays cleared, and no staging share changes. -/
theorem State.Cleared.refuseTx (h : s.Cleared m) (k : Fin 4) (q : Queued) : (s.refuseTx k q true).Cleared m :=
  h.onPath (s.refuseTx_inMills k q true).onPath (h.holdPri ..) ((s.refuseTx_inMills k q true).trib ▸ h.trib)

theorem State.refuseTx_sch (s : State) (k : Fin 4) (q : Queued) (j : Fin 4) : (s.refuseTx k q true).sch j = s.sch j :=
  State.refuseTx_only (ps := [.out, .counts, .ports]) (.refl s) k q true rfl .sch rfl j

theorem mem_tset {α : Type} [DecidableEq α] {d v : α} {a : Nat} {l : Tbl α} {e : Nat × α} (he : e ∈ tset d a v l) : e = (a, v) ∨ e ∈ l := by
  unfold tset at he
  split at he
  · exact .inr (mem_tdel he)
  · exact mem_tins he

theorem tget_mem {α : Type} (d : α) (a : Nat) : ∀ l : Tbl α, tget d l a = d ∨ ∃ e ∈ l, tget d l a = e.2
  | [] => .inl rfl
  | (j, v) :: l => by
    unfold tget
    split
    · exact .inr ⟨(j, v), List.mem_cons_self, rfl⟩
    · split
      · exact .inl rfl
      · obtain h | ⟨e, he, h⟩ := tget_mem d a l
        · exact .inl h
        · exact .inr ⟨e, List.mem_cons_of_mem _ he, h⟩

/-- An active tributary is none of a cleared mill. -/
theorem State.Cleared.tribRx_mill (h : s.Cleared m) {j : Fin 4} {n : Nat} (hactive : (s.tribRx j n).active = true) :
    (s.tribAt n).mill = j ∧ j ≠ m := by
  unfold State.tribRx at hactive
  dsimp only at hactive
  split at hactive
  · next hj =>
    obtain ⟨hon, hmill⟩ := hj
    refine ⟨hmill, ?_⟩
    obtain hnone | ⟨e, he, hsome⟩ := tget_mem default n s.trib
    · rw [State.tribAt, hnone] at hon
      exact absurd hon (by decide)
    · rw [← hmill, State.tribAt, hsome]
      exact h.trib e he
  · exact absurd hactive (by decide)

theorem State.Cleared.dropRx (h : s.Cleared m) (k : Fin 4) (f : Frame) : (s.dropRx k f).Cleared m := by
  have hfix : (s.fixMill k 1).Cleared m := h.onPath (s.fixMill_inMills k 1 1).onPath rfl h.trib
  unfold State.dropRx
  generalize s.fixMill k 1 = x at hfix
  refine hfix.onPath (x.creditReturn_onPath f) ?_ ?_
  all_goals
    unfold State.creditReturn
    split
  · next hf =>
    obtain ⟨-, -, hactive⟩ := hf
    exact State.mill_modMill_ne _ _ _ _ (hfix.tribRx_mill hactive).2
  · rfl
  · next hf =>
    obtain ⟨-, -, hactive⟩ := hf
    obtain ⟨hmill, hne⟩ := hfix.tribRx_mill hactive
    intro e he
    obtain rfl | hold := mem_tset he
    · rw [← hmill] at hne
      exact hne
    · exact hfix.trib e hold
  · exact hfix.trib

theorem State.creditReturn_staging (s : State) (f : Frame) (j : Fin 4) : ((s.creditReturn f).sch j).staging = (s.sch j).staging := by
  unfold State.creditReturn
  split
  · by_cases h : f.lineMill = j
    · subst h
      rw [State.sch_modSch]
      split <;> rfl
    · rw [State.sch_modSch_ne _ _ _ _ h]
      rfl
  · rfl

/-! ### What the other mills hold for it -/

/-- The units of mill `k`'s staging for mill `m` are free and nothing is staged or rebuilt for it. -/
def State.emptied (s : State) (m k : Fin 4) : State := s.modSch k fun x => { x with
  staging := x.staging.set m [], rebuilt := x.rebuilt.filter fun f => decide (f.clientMill ≠ m)
  txUsed := x.txUsed - ((s.sch k).staging[m].map (·.units)).sum }

theorem State.discardFor_eq (s : State) (m k : Fin 4) : s.discardFor m k =
    ((s.sch k).rebuilt.filter fun f => decide (f.clientMill = m)).foldl (fun s f => (s.countMill k 6 3 m.val).dropRx k f)
      ((s.sch k).staging[m].foldl (fun s q => (s.countMill k 6 3 m.val).refuseTx k q true) (s.emptied m k)) := rfl

theorem State.Cleared.foldl {α : Type} {f : State → α → State} (hf : ∀ s x, s.Cleared m → (f s x).Cleared m) :
    ∀ (l : List α) (s : State), s.Cleared m → (l.foldl f s).Cleared m
  | [], _, h => h
  | x :: xs, s, h => State.Cleared.foldl hf xs (f s x) (hf s x h)

theorem State.Cleared.countMill (h : s.Cleared m) (k : Fin 4) (a b c d : Nat) : (s.countMill k a b c d).Cleared m :=
  h.onPath (s.countMill_inMills k a b c d).onPath rfl h.trib

theorem State.Cleared.discardFor (h : s.Cleared m) (hk : k ≠ m) : (s.discardFor m k).Cleared m := by
  have hempty : (s.emptied m k).Cleared m := h.onPath (s.modSch_inMills k _).onPath (State.mill_modMill_ne _ _ _ _ hk) h.trib
  rw [State.discardFor_eq]
  exact .foldl (fun _ _ h => (h.countMill k 6 3 m.val 1).dropRx k _) _ _
    (.foldl (fun _ _ h => (h.countMill k 6 3 m.val 1).refuseTx k _) _ _ hempty)

theorem State.discardFor_onPath (s : State) (m k : Fin 4) : s.OnPath (s.discardFor m k) := by
  rw [State.discardFor_eq]
  exact (s.modSch_inMills k _).onPath.trans ((State.OnPath.foldl
    (fun s q => ((s.countMill_inMills k 6 3 m.val 1).trans (State.refuseTx_inMills ..)).onPath) _ _).trans
      (State.OnPath.foldl (fun s f => (s.countMill_inMills k 6 3 m.val 1).onPath.trans (State.dropRx_onPath ..)) _ _))

theorem State.discardFor_staging (s : State) (m k j : Fin 4) :
    ((s.discardFor m k).sch j).staging[m] = if j = k then [] else (s.sch j).staging[m] := by
  have hdrop := fun l (x : State) => foldl_kept (f := fun s f => (s.countMill k 6 3 m.val).dropRx k f) (g := fun s => (s.sch j).staging)
    (fun _ _ => State.creditReturn_staging ..) l x
  have hrefuse := fun l (x : State) => foldl_kept (f := fun s q => (s.countMill k 6 3 m.val).refuseTx k q true) (g := fun s => (s.sch j).staging)
    (fun _ _ => congrArg Sch.staging (State.refuseTx_sch ..)) l x
  rw [State.discardFor_eq, hdrop, hrefuse, State.emptied]
  split
  · next h =>
    rw [h, State.sch_modSch]
    exact Vector.getElem_set_self ..
  · next h => rw [State.sch_modSch_ne _ _ _ _ (Ne.symm h)]

theorem State.modSch_self {f : Sch → Sch} (h : f (s.sch k) = s.sch k) : s.modSch k f = s :=
  s.modMill_self k (congrArg (fun x => { s.mill k with sch := x }) h)

theorem State.discardFor_nothing (hstaged : (s.sch k).staging[m] = []) (hrebuilt : ∀ f ∈ (s.sch k).rebuilt, f.clientMill ≠ m) :
    s.discardFor m k = s := by
  have hnone : ((s.sch k).rebuilt.filter fun f => decide (f.clientMill = m)) = [] :=
    List.filter_eq_nil_iff.mpr fun f hf h => hrebuilt f hf (of_decide_eq_true h)
  have hall : ((s.sch k).rebuilt.filter fun f => decide (f.clientMill ≠ m)) = (s.sch k).rebuilt :=
    List.filter_eq_self.mpr fun f hf => decide_eq_true (hrebuilt f hf)
  have hshare : (s.sch k).staging.set m [] = (s.sch k).staging := by
    rw [← hstaged, Fin.getElem_fin, Vector.set_getElem_self]
  rw [State.discardFor_eq, hnone, hstaged]
  change s.emptied m k = s
  unfold State.emptied
  refine State.modSch_self ?_
  rw [hall, hshare, hstaged]
  rfl

/-! ### The reset itself (R45, R171) -/

/-- A set of domains is held, a pulse in progress noted. -/
def State.holdMarked (s : State) (ds : BitVec 15) : State := (if s.pulsing then s.cause 20 else s).hold ds

/-- The domain is held and the mill cleared. -/
def State.clearHeldMill (s : State) (m : Fin 4) : State := (s.holdMarked (setOf [9 + m.val])).clearMill m

theorem State.cause_eq (s : State) (i : Nat) : s.cause i = { s with regs := (s.cause i).regs } := rfl

theorem State.holdMarked_eq (s : State) (ds : BitVec 15) :
    ∃ r q, s.holdMarked ds = { s with regs := r, rst := q } ∧ q.released = s.rst.released &&& ~~~ds := by
  unfold State.holdMarked
  split
  · rw [State.cause_eq]
    exact ⟨_, _, rfl, rfl⟩
  · exact ⟨_, _, rfl, rfl⟩

/-- The other mills. -/
def otherMills (m : Fin 4) : List (Fin 4) := (List.finRange 4).filter fun k => decide (k ≠ m)

theorem mem_otherMills : k ∈ otherMills m ↔ k ≠ m := by
  unfold otherMills
  rw [List.mem_filter]
  exact ⟨fun h => of_decide_eq_true h.2, fun h => ⟨List.mem_finRange k, decide_eq_true h⟩⟩

theorem State.resetMill_eq (s : State) (m : Fin 4) :
    s.resetMill m = (otherMills m).foldl (fun s k => s.discardFor m k) (s.clearHeldMill m) := rfl

theorem State.clearHeldMill_mills (s : State) (m : Fin 4) : (s.clearHeldMill m).mills = s.mills.set m {} := by
  obtain ⟨_, _, h, -⟩ := s.holdMarked_eq (setOf [9 + m.val])
  rw [State.clearHeldMill, State.clearMill_mills, h]

theorem State.clearHeldMill_cur (s : State) (m : Fin 4) : (s.clearHeldMill m).cur = s.cur.set m {} := by
  obtain ⟨_, _, h, -⟩ := s.holdMarked_eq (setOf [9 + m.val])
  rw [State.clearHeldMill, State.clearMill_cur, h]

theorem State.clearHeldMill_trib (s : State) (m : Fin 4) : (s.clearHeldMill m).trib = s.trib.filter fun e => decide (e.2.mill ≠ m) := by
  obtain ⟨_, _, h, -⟩ := s.holdMarked_eq (setOf [9 + m.val])
  rw [State.clearHeldMill, State.clearMill_trib, h]

theorem State.clearHeldMill_released (s : State) (m : Fin 4) :
    (s.clearHeldMill m).rst.released = s.rst.released &&& ~~~(setOf [9 + m.val]) := by
  have hclear : ∀ x : State, (x.clearMill m).rst.released = x.rst.released := fun x =>
    State.clearMill_only (ps := heldAreas) (.refl x) m rfl .domains rfl
  obtain ⟨_, _, h, hreleased⟩ := s.holdMarked_eq (setOf [9 + m.val])
  rw [State.clearHeldMill, hclear, h, hreleased]

theorem State.clearHeldMill_other (s : State) (hk : k ≠ m) : (s.clearHeldMill m).mill k = s.mill k := by
  unfold State.mill
  rw [State.clearHeldMill_mills]
  exact Vector.getElem_set_ne _ _ fun h => hk (Fin.ext h.symm)

theorem State.resetMill_cleared (s : State) (m : Fin 4) : (s.resetMill m).Cleared m := by
  rw [State.resetMill_eq]
  have hall : ∀ (l : List (Fin 4)) (x : State), (∀ k ∈ l, k ≠ m) → x.Cleared m → (l.foldl (fun s k => s.discardFor m k) x).Cleared m
  · intro l
    induction l with
    | nil => exact fun _ _ h => h
    | cons k ks ih => exact fun x hne h => ih _ (fun j hj => hne j (List.mem_cons_of_mem _ hj)) (h.discardFor (hne k List.mem_cons_self))
  exact hall _ _ (fun k => mem_otherMills.mp) (State.clearMill_cleared ..)

theorem State.resetMill_onPath (s : State) (m : Fin 4) : (s.clearHeldMill m).OnPath (s.resetMill m) :=
  State.OnPath.foldl (fun s k => s.discardFor_onPath m k) _ _

theorem State.resetMill_staging (s : State) (hk : k ≠ m) : ((s.resetMill m).sch k).staging[m] = [] := by
  have hall : ∀ (l : List (Fin 4)) (x : State), (k ∈ l ∨ (x.sch k).staging[m] = []) →
      ((l.foldl (fun s k => s.discardFor m k) x).sch k).staging[m] = []
  · intro l
    induction l with
    | nil => exact fun x h => h.resolve_left List.not_mem_nil
    | cons j js ih =>
      intro x h
      refine ih _ ?_
      rw [State.discardFor_staging]
      by_cases hj : k = j
      · exact .inr (if_pos hj)
      · obtain hin | hempty := h
        · exact .inl ((List.mem_cons.mp hin).resolve_left hj)
        · exact .inr ((if_neg hj).trans hempty)
  rw [State.resetMill_eq]
  exact hall _ _ (.inl (mem_otherMills.mpr hk))

/-- No other mill holds anything for mill `m`. -/
def State.Alone (s : State) (m : Fin 4) : Prop :=
  ∀ k : Fin 4, k ≠ m → (s.sch k).staging[m] = [] ∧ ∀ f ∈ (s.sch k).rebuilt, f.clientMill ≠ m

theorem State.Alone.resetMill (h : s.Alone m) : s.resetMill m = s.clearHeldMill m := by
  have hall : ∀ (l : List (Fin 4)) (x : State), (∀ k ∈ l, k ≠ m) → x.Alone m → l.foldl (fun s k => s.discardFor m k) x = x
  · intro l
    induction l with
    | nil => exact fun _ _ _ => rfl
    | cons k ks ih =>
      intro x hne halone
      obtain ⟨hstaged, hrebuilt⟩ := halone k (hne k List.mem_cons_self)
      rw [List.foldl_cons, State.discardFor_nothing hstaged hrebuilt]
      exact ih x (fun j hj => hne j (List.mem_cons_of_mem _ hj)) halone
  rw [State.resetMill_eq]
  refine hall _ _ (fun k => mem_otherMills.mp) fun k hk => ?_
  have hsch : (s.clearHeldMill m).sch k = s.sch k := congrArg Mill.sch (s.clearHeldMill_other hk)
  rw [hsch]
  exact h k hk

/-- What a reset of mill `m` from state `s` is to leave (R45, R171). -/
def State.MillReset (s : State) (m : Fin 4) (u : State) : Prop :=
  u.rst.released = s.rst.released &&& ~~~(setOf [9 + m.val]) ∧ u.mill m = {} ∧ u.cur[m] = {}
    ∧ (∀ k, k ≠ m → (u.sch k).staging[m] = [])
    ∧ (s.Alone m → (∀ k, k ≠ m → u.mill k = s.mill k) ∧ u.trib = s.trib.filter fun e => decide (e.2.mill ≠ m))

theorem State.resetMill_resets (s : State) (m : Fin 4) : s.MillReset m (s.resetMill m) := by
  have hpath := s.resetMill_onPath m
  refine ⟨?_, (s.resetMill_cleared m).mill, ?_, fun k => s.resetMill_staging, fun halone => ?_⟩
  · rw [hpath.rst, State.clearHeldMill_released]
  · simp only [hpath.cur, State.clearHeldMill_cur]
    exact Vector.getElem_set_self ..
  · rw [halone.resetMill]
    exact ⟨fun k => s.clearHeldMill_other, s.clearHeldMill_trib m⟩

/-! ### The writes that ask for it (R438) -/

theorem State.MillReset.settle (h : s.MillReset m t) : s.MillReset m t.settle := by
  obtain ⟨hreleased, hmill, hcur, hstaged, halone⟩ := h
  refine ⟨?_, ?_, ?_, fun k hk => ?_, fun ha => ⟨fun k hk => ?_, ?_⟩⟩
  · rw [State.settle_rst, hreleased]
  · rw [State.settle_mill, hmill]
  · simp only [State.settle_cur, hcur]
  · rw [State.settle_sch]
    exact hstaged k hk
  · rw [State.settle_mill, (halone ha).1 k hk]
  · rw [State.settle_trib, (halone ha).2]

theorem State.MillReset.of_cause {i : Nat} (h : (s.cause i).MillReset m t) : s.MillReset m t := by
  rw [State.cause_eq] at h
  exact h

theorem filter_one {p : Fin 4 → Bool} (hp : ∀ k, p k = decide (k = m)) : (List.finRange 4).filter p = [m] := by
  have hone : ∀ m : Fin 4, ((List.finRange 4).filter fun k => decide (k = m)) = [m] := by decide
  rw [funext hp]
  exact hone m

theorem State.millBits_one (hm : s.hasMill m = true) : s.millBits (2 ^ m.val) = [m] := by
  have hbit : ∀ m k : Fin 4, natBit (2 ^ m.val) k.val = decide (k = m) := by decide
  refine filter_one fun k => ?_
  rw [hbit]
  by_cases hk : k = m
  · rw [hk, hm, Bool.and_true]
  · rw [decide_eq_false hk, Bool.false_and]

/-- A write of RST_CTL with its key and the bit of mill `m`. -/
def millKey (m : Fin 4) : Nat := 2 ^ (2 + m.val) + 65536 * 0x5253

theorem millKey_bits : ∀ m : Fin 4, natBit (millKey m) 0 = false ∧ natBit (millKey m) 1 = false ∧ natBits (millKey m) 2 4 = 2 ^ m.val
    ∧ millKey m / 65536 = 0x5253 := by decide

theorem State.rstCtl_mill (hm : s.hasMill m = true) : s.rstCtl (millKey m) = (s.cause (6 + m.val)).resetMill m := by
  obtain ⟨hcold, hwarm, hmills, -⟩ := millKey_bits m
  unfold State.rstCtl
  rw [hcold, hwarm, hmills, State.millBits_one hm]
  rfl

theorem exec_millReset (hlive : s.rst.porHeld = false) (hm : s.hasMill m = true) :
    exec (.millReset 1 m false 0x5253) s = finish ((s.cause (6 + m.val)).resetMill m) := by
  have hx : exec (.millReset 1 m false 0x5253) s = finish (s.rstCtlWrite 1 (millKey m)) := by
    change execMillReset 1 m false 0x5253 s = _
    unfold execMillReset State.rstLive
    rw [hlive]
    rfl
  rw [hx, State.rstCtlWrite_key (millKey_bits m).2.2.2, State.rstCtl_mill hm]

/-- Of the bits of MILL_HOLD that a write sets in `old`, the one that was clear is that of mill `m`. -/
theorem millHold_bits {old : Nat} (hclear : natBit old (1 + m.val) = false) (k : Fin 4) :
    (natBit (natBits (Nat.lor old (2 ^ (1 + m.val))) 1 4) k.val && !natBit old (1 + k.val)) = decide (k = m) := by
  have hbit : natBit (natBits (Nat.lor old (2 ^ (1 + m.val))) 1 4) k.val = (natBit old (1 + k.val) || decide (k = m)) := by
    rw [natBit_eq, natBits, Nat.testBit_mod_two_pow, Nat.testBit_div_two_pow, decide_eq_true k.isLt, Bool.true_and, natBit_eq]
    change Nat.testBit (old ||| 2 ^ (1 + m.val)) _ = _
    rw [Nat.testBit_or, Nat.testBit_two_pow, Nat.add_comm]
    congr 1
    exact decide_eq_decide.mpr ⟨fun h => Fin.ext (by omega), fun h => by rw [h]⟩
  rw [hbit]
  by_cases hk : k = m
  · rw [hk, hclear, decide_eq_true rfl]
    rfl
  · rw [decide_eq_false hk, Bool.or_false, Bool.and_not_self]

theorem State.rstCfgWrite_mill (hm : s.hasMill m = true) (hclear : s.bit Reg.rstCfg (1 + m.val) = false) :
    ∃ x : State, s.rstCfgWrite (Nat.lor (s.reg Reg.rstCfg) (2 ^ (1 + m.val))) = x.resetMill m := by
  unfold State.rstCfgWrite State.millBits
  dsimp only
  rw [List.filter_filter, filter_one (m := m) fun k => ?_]
  · exact ⟨_, rfl⟩
  · rw [← millHold_bits hclear k]
    by_cases hk : k = m
    · rw [hk, hm, Bool.and_true, Bool.and_comm]
    · have hnone := millHold_bits hclear k
      rw [decide_eq_false hk] at hnone
      rw [hnone, Bool.and_left_comm, ← Bool.and_assoc, hnone, Bool.false_and]

theorem setOf_mill : ∀ (m : Fin 4) (b : BitVec 15), (b &&& ~~~(setOf [9 + m.val])).getLsbD (9 + m.val) = false := by
  have hset : ∀ m : Fin 4, (setOf [9 + m.val]).getLsbD (9 + m.val) = true := by decide
  intro m b
  rw [BitVec.getLsbD_and, BitVec.getLsbD_not, hset, Bool.not_true, Bool.and_false, Bool.and_false]

theorem millReset_hold (hlive : s.rst.porHeld = false) (hm : s.hasMill m = true) (hclear : s.bit Reg.rstCfg (1 + m.val) = false) :
    Completes (.millReset 1 m true 0) s fun u => u.mill m = {} ∧ u.rst.released.getLsbD (9 + m.val) = false := by
  obtain ⟨x, hx⟩ := State.rstCfgWrite_mill hm hclear
  have hexec : exec (.millReset 1 m true 0) s = finish (x.resetMill m) := by
    rw [← hx]
    change execMillReset 1 m true 0 s = _
    unfold execMillReset State.rstLive
    rw [hlive]
    rfl
  obtain ⟨hreleased, hmill, -⟩ := (x.resetMill_resets m).settle
  refine completes_finish hexec ⟨hmill, ?_⟩
  rw [hreleased]
  exact setOf_mill m _

end Sys2Proof.Machine
end

section
/-! The function-level reset (R439), and what every reset holds and clears. -/

namespace Sys2Proof.Machine

variable {s t : State}

/-! ### The rings of a function (R439) -/

theorem State.ring_flrRing (s : State) (r : Rid) : ((s.flrRing r).ring r).en = false := congrArg Ring.en (State.ring_modRing ..)

theorem State.ring_flrRing_ne (s : State) {r q : Rid} (h : r ≠ q) : (s.flrRing r).ring q = s.ring q := State.ring_modRing_ne _ _ h

theorem State.flrRing_stopped (s : State) (r : Rid) {q : Rid} (h : (s.ring q).en = false) : ((s.flrRing r).ring q).en = false := by
  by_cases hr : r = q
  · subst hr
    exact s.ring_flrRing r
  · rw [s.ring_flrRing_ne hr, h]

theorem State.flrRings_stop {q : Rid} : ∀ (l : List Rid) (s : State), q ∈ l ∨ (s.ring q).en = false → ((l.foldl State.flrRing s).ring q).en = false
  | [], _, h => h.resolve_left List.not_mem_nil
  | r :: rs, s, h => by
    refine State.flrRings_stop rs (s.flrRing r) ?_
    obtain hin | hstopped := h
    · obtain rfl | hin := List.mem_cons.mp hin
      · exact .inr (s.ring_flrRing q)
      · exact .inl hin
    · exact .inr (s.flrRing_stopped r hstopped)

theorem State.flrRings_keep {q : Rid} : ∀ (l : List Rid) (s : State), q ∉ l → (l.foldl State.flrRing s).ring q = s.ring q
  | [], _, _ => rfl
  | r :: rs, s, h => by
    rw [List.foldl_cons, State.flrRings_keep rs _ fun hin => h (List.mem_cons_of_mem _ hin)]
    exact s.ring_flrRing_ne fun hr => h (hr ▸ List.mem_cons_self)

theorem mem_allRids12 (r : Rid) : r ∈ allRids12 :=
  List.mem_flatMap.mpr ⟨r.eng, List.mem_finRange _, List.mem_map.mpr ⟨r.ring, List.mem_finRange _, rfl⟩⟩

/-- The rings of a function. -/
def ringsOf (f : Fin 2) : List Rid := allRids12.filter fun r => ringPf r = f

theorem mem_ringsOf {f : Fin 2} {r : Rid} : r ∈ ringsOf f ↔ ringPf r = f := by
  unfold ringsOf
  rw [List.mem_filter]
  exact ⟨fun h => of_decide_eq_true h.2, fun h => ⟨mem_allRids12 r, decide_eq_true h⟩⟩

/-- A function-level reset notes its cause, masks the function's interrupts and clears its settings. -/
def State.leaveSettings (s : State) (f : Fin 2) : State :=
  let mine : BitVec 256 := if f = 0 then BitVec.ofNat 256 (2 ^ 128 - 1) else BitVec.ofNat 256 ((2 ^ 128 - 1) * 2 ^ 128)
  let s1 := (s.cause (17 + f.val)).countDev 0xF 3 f.val
  let s2 := s1.modHst fun h => { h with masked := h.masked ||| mine, pba := h.pba &&& ~~~mine }
  (s2.setFld (Reg.cur 0) (16 + 4 * f.val) 4 0).keepRegs fun a => !inBlock (0x50000 + 0x100 * f.val) 0x100 a

/-- The function's request and its random words go. -/
def State.leaveShares (s : State) (f : Fin 2) : State :=
  (s.modUci fun u => { u.leave f with status := u.status.set f 0, nonce := u.nonce.set f [] }).modRng fun r =>
    { r with bufs := Vector.ofFn fun i : Fin 8 => if bufOwner i = f then {} else r.bufs[i] }

theorem exec_functionLevelReset {f : Fin 2} (hlive : s.hstLive = true) :
    exec (.functionLevelReset f) s = finish ((ringsOf f).foldl State.flrRing ((s.leaveSettings f).leaveShares f)) := if_pos hlive

theorem State.leaveSettings_only (s : State) (f : Fin 2) : Only [.settings, .status, .shadow, .irq, .host, .counts] s (s.leaveSettings f) := by
  refine State.keepRegs_only (State.setFld_only ?_ _ _ _ _ (.inl rfl) (.inl rfl)) _ rfl
  exact State.modHst_only (State.countDev_only (State.cause_only (.refl s) _ rfl) _ _ _ _ rfl) _ (.inl rfl) (.inl rfl)

theorem State.leaveShares_req (s : State) (f : Fin 2) : (s.leaveShares f).uci.req[f] = none := Vector.getElem_set_self ..

theorem State.leaveShares_bufs (s : State) (f : Fin 2) (i : Fin 8) :
    (s.leaveShares f).rng.bufs[i] = if bufOwner i = f then {} else s.rng.bufs[i] := Vector.getElem_ofFn _

theorem State.flrRings_others (f : Fin 2) (s : State) : ((ringsOf f).foldl State.flrRing s).uci = s.uci
    ∧ ((ringsOf f).foldl State.flrRing s).rng = s.rng :=
  ⟨foldl_kept (f := State.flrRing) (g := State.uci) (fun _ _ => rfl) (ringsOf f) s,
    foldl_kept (f := State.flrRing) (g := State.rng) (fun _ _ => rfl) (ringsOf f) s⟩

theorem functionLevelReset_completes {f : Fin 2} (hlive : s.hstLive = true) : Completes (.functionLevelReset f) s fun u =>
    (∀ r : Rid, ringPf r = f → (u.ring r).en = false) ∧ (∀ r : Rid, ringPf r ≠ f → u.ring r = s.ring r) ∧ u.uci.req[f] = none
      ∧ ∀ i : Fin 8, u.rng.bufs[i] = if bufOwner i = f then {} else s.rng.bufs[i] := by
  have hset := s.leaveSettings_only f
  have hcur : _ = s.cur := hset .cur rfl
  have hrng : _ = s.rng := hset .rng rfl
  obtain ⟨huci, hbufs⟩ := State.flrRings_others f ((s.leaveSettings f).leaveShares f)
  refine completes_finish (exec_functionLevelReset hlive) ⟨fun r hr => ?_, fun r hr => ?_, ?_, fun i => ?_⟩
  · rw [State.settle_ring]
    exact State.flrRings_stop _ _ (.inl (mem_ringsOf.mpr hr))
  · rw [State.settle_ring, State.flrRings_keep _ _ fun h => hr (mem_ringsOf.mp h)]
    exact congrArg (fun cur : Vector Engine 4 => cur[r.eng].rings[r.ring]) hcur
  · rw [State.settle_uci, huci, State.leaveShares_req]
  · rw [State.settle_rng, hbufs, State.leaveShares_bufs, hrng]

/-- Settles O38: each reset by its own lemma. -/
theorem resetsHoldAndClear : Obligations.ResetsHoldAndClear := by
  unfold Obligations.ResetsHoldAndClear
  intro s
  refine ⟨fun _ => powerOnReset_completes, resetPin_low, resetPin_high, fun hlive hhigh => ⟨perst_alone hlive hhigh, perst_all hlive hhigh⟩,
    perst_high, fun v hlive hkey => ⟨swColdReset_completes hlive hkey, swWarmReset_completes hlive hkey⟩, fun v _ => rstCtl_locked v,
    fun m hlive hm => ⟨?_, millReset_hold hlive hm⟩, fun _ => functionLevelReset_completes, railDrop_completes⟩
  exact completes_finish (exec_millReset hlive hm) ((State.resetMill_resets (s.cause (6 + m.val)) m).of_cause.settle)

end Sys2Proof.Machine
end

section
/-! Bring-up (R437, R440, R441, R475 to R477): domains, trims, the boot image, the loss of a clock. -/

namespace Sys2Proof.Machine

variable {s t : State}

/-! ### The release of a domain (R437) -/

/-- Domain `d` is released. -/
def State.releaseDomain (s : State) (d : Nat) : State := s.modRst fun r => { r with
  released := r.released ||| (1#15 <<< d), stable := r.stable ||| clockMates d, clkHeld := r.clkHeld &&& ~~~(1#15 <<< d) }

/-- What starts in domain `d` as it is released. -/
def State.startDomain (s : State) (d : Nat) : State :=
  if d = 2 then s.startIsland
  else if d = 3 then s.happen 7 (freeSrc 7) 0 0 (leBytes 4 (s.reg Reg.rstCause))
  else if d = 14 then s.linkTrain else s

theorem exec_domainRelease {d : Nat} (hnext : s.nextDomain = some d) (hmay : s.mayRelease d = true) :
    exec .domainRelease s = finish ((s.releaseDomain d).startDomain d) := by
  change execDomainRelease s = _
  unfold execDomainRelease
  rw [hnext]
  exact if_pos hmay

theorem State.startDomain_released (s : State) (d : Nat) : (s.startDomain d).rst.released = s.rst.released := by
  have hisland := State.startIsland_only (ps := [.out, .host, .pads, .counts, .evrQueue, .slots, .kst, .rng, .uci, .mem, .tmp, .line, .cur,
    .role, .mte]) (.refl s) rfl
  unfold State.startDomain
  split
  · exact hisland .domains rfl
  · split
    · rw [State.happen_rst]
    · split <;> rfl

theorem State.rngAsk_st (s : State) (i : Nat) (user : RngUser) (n : Nat) : (s.rngAsk i user n).1.rng.st = s.rng.st := by
  unfold State.rngAsk
  split
  · rfl
  · split <;> rfl

theorem State.askRoot_st (s : State) : s.askRoot.rng.st = s.rng.st := by
  have hasked := s.rngAsk_st 0 .root 32
  unfold State.askRoot
  split
  · rfl
  · split
    · next hask =>
      rw [hask] at hasked
      exact hasked
    · next hask =>
      rw [hask] at hasked
      exact hasked

/-- The island's latches are loaded and its RNG starts up (R321, R330). -/
def State.islandLatched (s : State) : State :=
  ((s.modTmp fun t => { t with dis := s.otp.disabled, logNext := max t.logNext s.logCount }).modKst fun k => { k with lc := s.otp.lc }).rngStartup

theorem State.startIsland_eq (s : State) : s.startIsland = if s.islandLatched.rootDue then s.islandLatched.askRoot else s.islandLatched := rfl

theorem State.startIsland_starts (s : State) : s.startIsland.rng.st = .startup ∧ s.startIsland.kst.lc = s.otp.lc := by
  have hlatched : s.islandLatched.rng.st = .startup ∧ s.islandLatched.kst.lc = s.otp.lc := ⟨rfl, rfl⟩
  rw [State.startIsland_eq]
  split
  · obtain ⟨-, draw, hkst⟩ := s.islandLatched.askRoot_keeps
    rw [State.askRoot_st, hkst]
    exact hlatched
  · exact hlatched

/-- The domains below the next one are released, or excluded (R437). -/
theorem State.nextDomain_lowest {d : Nat} (hnext : s.nextDomain = some d) {e : Nat} (he : e < d) : s.live e = true ∨ s.excluded e = true := by
  obtain ⟨-, -, hbelow⟩ := List.find?_range_eq_some.mp hnext
  have h := hbelow e he
  cases hlive : s.live e
  · rw [hlive, Bool.not_false, Bool.true_and, Bool.not_not] at h
    exact .inr h
  · exact .inl rfl

theorem domainRelease_completes {d : Nat} (hnext : s.nextDomain = some d) (hmay : s.mayRelease d = true) : Completes .domainRelease s fun u =>
    u.rst.released = s.rst.released ||| (1#15 <<< d) ∧ (∀ e, e < d → u.live e = true ∨ s.excluded e = true)
      ∧ (d = 2 → u.rng.st = .startup ∧ u.kst.lc = s.otp.lc) ∧ (d = 14 → u.hst.linkUp = true) := by
  have hreleased : ((s.releaseDomain d).startDomain d).settle.rst.released = s.rst.released ||| (1#15 <<< d) := by
    rw [State.settle_rst, State.startDomain_released]
    rfl
  refine completes_finish (exec_domainRelease hnext hmay) ⟨hreleased, fun e he => ?_, fun hd => ?_, fun hd => ?_⟩
  · refine (s.nextDomain_lowest hnext he).imp_left fun hlive => ?_
    unfold State.live at hlive ⊢
    rw [hreleased, BitVec.getLsbD_or, hlive, Bool.true_or]
  · subst hd
    rw [State.settle_rng, State.settle_kst]
    exact State.startIsland_starts (s.releaseDomain 2)
  · subst hd
    exact congrArg Hst.linkUp (State.settle_hst_rest ((s.releaseDomain 14).startDomain 14))

/-! ### The trims (R441) -/

theorem State.cause_rst (s : State) (i : Nat) : (s.cause i).rst = s.rst := rfl

theorem State.cause_setBit (s : State) (i : Nat) : s.cause i = s.setBit Reg.rstCause i := rfl

section
variable (hheld : s.rst.porHeld = false) (hlive : s.live 0 = true) (hlow : s.rst.resetLow = false) (htrims : s.rst.trims = false)
  (hfailed : s.rst.trimFailed = false)
include hheld hlive hlow htrims hfailed

theorem exec_trimLoadDone (ok : Bool) : exec (.trimLoadDone ok) s =
    if ok then finish (s.modRst fun r => { r with trims := true })
    else if s.rst.trimB then finish (s.modRst fun r => { r with trimFailed := true })
    else finish ((s.cause 19).modRst fun r => { r with trimB := true }) := by
  refine if_pos ?_
  unfold State.rstLive
  rw [hheld, hlive, hlow, htrims, hfailed]
  rfl

theorem trimLoadDone_ok : Completes (.trimLoadDone true) s fun u => u.rst = { s.rst with trims := true } := by
  refine completes_finish (exec_trimLoadDone hheld hlive hlow htrims hfailed true) ?_
  rw [State.settle_rst]
  rfl

theorem trimLoadDone_copyA (hcopy : s.rst.trimB = false) : Completes (.trimLoadDone false) s fun u =>
    u.rst = { s.rst with trimB := true } ∧ u.regs = (s.setBit Reg.rstCause 19).regs := by
  have hx := exec_trimLoadDone hheld hlive hlow htrims hfailed false
  rw [hcopy, if_neg Bool.false_ne_true, if_neg Bool.false_ne_true] at hx
  refine completes_finish hx ⟨?_, ?_⟩
  · rw [State.settle_rst, State.modRst_rst, State.cause_rst]
  · rw [State.settle_regs, State.modRst_regs, State.cause_setBit]

theorem trimLoadDone_copyB (hcopy : s.rst.trimB = true) : Completes (.trimLoadDone false) s fun u =>
    u.rst = { s.rst with trimFailed := true } := by
  have hx := exec_trimLoadDone hheld hlive hlow htrims hfailed false
  rw [hcopy, if_neg Bool.false_ne_true, if_pos rfl] at hx
  refine completes_finish hx ?_
  rw [State.settle_rst]
  rfl

end

/-! ### The boot image (R475 to R477) -/

section
variable (image : Bytes) (hlive : s.mgmtLive = true) (hnew : s.rst.bootDone = false) (hfailed : s.rst.bootFailed = false)
include hlive hnew hfailed

/-- The reset controller once a copy has been looked at (R476, R477). -/
def Rst.booted (r : Rst) (image : Bytes) (cause : Nat) : Rst :=
  if cause = 0 then { r with
    bootDone := true, bootCopy := decide (r.bootTry = 1), imgVer := BitVec.ofNat 32 (imgU image 16 4)
    digest := sha256 (image.take (imgU image 8 4 - 64)), pcieCfg := imgContent image 2, laneFw := imgContent image 1 }
  else if r.bootTry = 1 then { r with causeB := cause, bootFailed := true }
  else { r with causeA := cause, bootTry := 1 }

theorem bootVerifyDone_completes : Completes (.bootVerifyDone image) s fun u => u.rst = s.rst.booted image (s.bootCheck image) := by
  have hx : exec (.bootVerifyDone image) s = finish (s.modRst fun r =>
      if s.bootCheck image = 0 then { r with
        bootDone := true, bootCopy := decide (s.rst.bootTry = 1), imgVer := BitVec.ofNat 32 (imgU image 16 4)
        digest := sha256 (image.take (imgU image 8 4 - 64)), pcieCfg := imgContent image 2, laneFw := imgContent image 1 }
      else if decide (s.rst.bootTry = 1) then { r with causeB := s.bootCheck image, bootFailed := true }
      else { r with causeA := s.bootCheck image, bootTry := 1 }) := if_pos (by rw [hlive, hnew, hfailed]; rfl)
  refine completes_finish hx ?_
  rw [State.settle_rst]
  unfold Rst.booted State.modRst
  simp only [decide_eq_true_eq]

end

/-! ### The loss of a clock (R440) -/

/-- What the loss of the clock of domain `d` tells and clears before its domains are held. -/
def State.clockLost (s : State) (d : Fin 15) : State :=
  let n := if d.val ≤ 2 then 2 else d.val
  let s1 := ((s.cause 12).setFld Reg.rstCause 13 4 n).happen 6 (freeSrc 6) 0 n []
  (if 5 ≤ d.val ∧ d.val ≤ 12 then s1.mateFinding 1 else s1).loseDomains (clockSet d.val &&& s.rst.released)

/-- The domains of `ds` lose their clock; the trims are loaded again with that of the SEC oscillator. -/
def Rst.withoutClock (r : Rst) (ds : BitVec 15) (d : Nat) : Rst := { r with
  released := r.released &&& ~~~ds, clkHeld := r.clkHeld ||| (ds &&& r.released)
  stable := r.stable &&& ~~~ds, trims := r.trims && decide (2 < d), trimB := r.trimB && decide (2 < d) }

theorem Only.rst_eq {ps : List Area} (h : Only ps s t) (hdomains : ps.contains .domains = false) (hctl : ps.contains .resetCtl = false) :
    t.rst = s.rst := by
  have hext : ∀ x y : Rst, x.released = y.released → x.rest = y.rest → x = y := fun x y hreleased hrest => by
    calc x = { x.rest with released := x.released } := rfl
      _ = { y.rest with released := y.released } := by rw [hreleased, hrest]
  exact hext _ _ (h .domains hdomains) (h .resetCtl hctl)

/-- The areas that the loss of a clock tells of or clears: not the reset controller. -/
def lossAreas : List Area := [.out, .settings, .status, .shadow, .host, .pads, .counts, .gather, .evrQueue, .timeBases, .tim, .slots, .kst,
  .rng, .uci, .mem, .line, .dkl, .lci, .sac, .vat, .sch, .ports, .trib, .tribOld, .sc, .sa, .hbxRr, .cur, .lanes, .felt, .role, .mte]

theorem State.clockLost_rst (s : State) (d : Fin 15) : (s.clockLost d).rst = s.rst := by
  have hcause : Only lossAreas s ((s.cause 12).setFld Reg.rstCause 13 4 (if d.val ≤ 2 then 2 else d.val)) :=
    State.setFld_only (State.cause_only (.refl s) 12 rfl) _ _ _ _ (.inr rfl) (.inl rfl)
  have htold := State.happen_only hcause 6 (freeSrc 6) 0 (if d.val ≤ 2 then 2 else d.val) [] rfl
  have hlost : Only lossAreas s (s.clockLost d) := State.loseDomains_only (.ite (State.mateFinding_only htold 1 rfl) htold) _ rfl
  exact hlost.rst_eq rfl rfl

theorem State.mateEnd_rst (s : State) : s.mateLook.settle.rst = s.rst := by
  obtain ⟨_, _, _, _, _, _, h⟩ := s.mateLook_ends
  rw [State.settle_rst, h]
  rfl

theorem exec_clockLoss {d : Fin 15} (hheld : s.rst.porHeld = false) (hany : s.rst.released &&& clockSet d.val ≠ 0) :
    exec (.clockLoss d) s = mateEnd (((s.clockLost d).hold (clockSet d.val)).modRst fun r => { r with
      clkHeld := r.clkHeld ||| (clockSet d.val &&& s.rst.released)
      stable := r.stable &&& ~~~(clockSet d.val), trims := r.trims && decide (2 < d.val), trimB := r.trimB && decide (2 < d.val) }) :=
  if_pos (by unfold State.rstLive; rw [hheld, decide_eq_true hany]; rfl)

theorem clockLoss_completes {d : Fin 15} (hheld : s.rst.porHeld = false) (hany : s.rst.released &&& clockSet d.val ≠ 0) :
    Completes (.clockLoss d) s fun u => u.rst = s.rst.withoutClock (clockSet d.val) d.val := by
  refine completes_finish (exec_clockLoss hheld hany) ?_
  rw [State.mateEnd_rst, State.modRst_rst]
  generalize clockSet d.val = ds
  unfold State.hold
  rw [State.modRst_rst, State.clockLost_rst]
  rfl

end Sys2Proof.Machine
end

section
/-! The built-in test of the tamper sources (R428, R429), and how the device comes up. -/

namespace Sys2Proof.Machine

variable {s t : State}

/-! ### Starting it (R428) -/

theorem exec_tamperBist (v : W32) (hlive : s.islandLive = true) : exec (.tamperBist 1 v) s = finish (s.bistWrite v.toNat) := by
  change execTamperBist 1 v s = _
  unfold execTamperBist
  rw [hlive]
  rfl

theorem tamperBist_starts {v : W32} (hlive : s.islandLive = true) (hgo : natBit v.toNat 12 = true) (hfree : s.tmp.bistBusy = false) :
    Completes (.tamperBist 1 v) s fun u => u.tmp = ({ s.tmp with
      bistBusy := true, bistPass := 0, bistFail := 0, bistLeft := srcList (BitVec.ofNat 12 v.toNat) } : Tmp).bistNext := by
  refine completes_finish (exec_tamperBist v hlive) ?_
  rw [State.settle_tmp]
  unfold State.bistWrite
  rw [hgo, hfree]
  rfl

theorem tamperBist_locked (v : W32) (hlive : s.islandLive = true) : Completes (.tamperBist 0 v) s fun u => Only settled s u := by
  refine completes_locked (pf := 0) (a := Reg.tmp 0x20) (v := v.toNat) ?_
  change execTamperBist 0 v s = _
  unfold execTamperBist
  rw [hlive]
  rfl

/-! ### The end of a stimulus (R428, R429) -/

/-- The test of source `n` is over: it passes where `pass`. -/
def Tmp.tested (x : Tmp) (n : Nat) (pass : Bool) : Tmp := { x with
  bistCur := none
  bistPass := if pass then x.bistPass ||| (1#12 <<< n) else x.bistPass
  bistFail := if pass then x.bistFail else x.bistFail ||| (1#12 <<< n) }

/-- The state once the test of source `n` is over. -/
def State.testEnded (s : State) (n : Nat) (fired ceased : Bool) : State :=
  (if fired then s.countDev 0xE 1 n else s).modTmp fun x => x.tested n (fired && ceased)

theorem exec_bistStimulusEnd {n : Nat} (hcur : s.tmp.bistCur = some n) (fired ceased : Bool) : exec (.bistStimulusEnd fired ceased) s =
    mateEnd ((if fired && !ceased then (s.testEnded n fired ceased).tamperFire (1#12 <<< n) else s.testEnded n fired ceased).modTmp
      Tmp.bistNext) := by
  change execBistStimulusEnd fired ceased s = _
  unfold execBistStimulusEnd
  rw [hcur]
  rfl

theorem State.testEnded_tmp (s : State) (n : Nat) (fired ceased : Bool) :
    (s.testEnded n fired ceased).tmp = s.tmp.tested n (fired && ceased) := by
  cases fired <;> rfl

theorem State.mateEnd_tmp (s : State) : s.mateLook.settle.tmp = s.tmp := by
  obtain ⟨-, -, -, htmp, -⟩ := s.mateLook_blocks
  rw [State.settle_tmp, htmp]

theorem bistStimulusEnd_completes {n : Nat} {fired ceased : Bool} (hcur : s.tmp.bistCur = some n) (h : fired = false ∨ ceased = true) :
    Completes (.bistStimulusEnd fired ceased) s fun u => u.tmp = (s.tmp.tested n fired).bistNext := by
  have hquiet : (fired && !ceased) = false := by
    obtain rfl | rfl := h
    · rfl
    · rw [Bool.not_true, Bool.and_false]
  have hpass : (fired && ceased) = fired := by
    obtain rfl | rfl := h
    · rfl
    · rw [Bool.and_true]
  have hx := exec_bistStimulusEnd hcur fired ceased
  rw [hquiet, if_neg Bool.false_ne_true] at hx
  refine completes_finish hx ?_
  rw [State.mateEnd_tmp, State.modTmp_tmp, State.testEnded_tmp, hpass]

/-! ### A source that still fires fails its test (R429) -/

/-- What the built-in test has found. -/
def Tmp.found (x : Tmp) : BitVec 12 × BitVec 12 := (x.bistPass, x.bistFail)

theorem State.reload_found (s : State) (a : Nat) (d : W32) : (s.reload a d).tmp.found = s.tmp.found := by
  have hact : (s.writeActReq false).tmp = s.tmp :=
    State.writeActReq_only (ps := [.out, .status, .host, .pads, .counts, .evrQueue, .role, .mte]) (.refl s) false rfl .tmp rfl
  have hrng : (s.rngTest 0).tmp = s.tmp := State.rngTest_only (ps := [.settings, .rng]) (.refl s) 0 rfl .tmp rfl
  unfold State.reload
  split
  · rfl
  · split
    · rfl
    · split
      · rfl
      · split
        · rw [hact]
        · split
          · split
            · rw [hrng]
            · rfl
          · rfl

theorem State.reloadShadow_found (s : State) : s.reloadShadow.tmp.found = s.tmp.found :=
  foldl_kept (f := fun s (e : Nat × W32) => s.reload e.1 e.2) (g := fun s => s.tmp.found) (fun s e => s.reload_found e.1 e.2) s.shadow s

/-- Sources of rank THROTTLE and below start no response: what the test has found stays. -/
theorem State.tamperFire_found {b : BitVec 12} (htest : s.tmp.bistCur = none) (hrank : s.topRank (s.newFirings b) ≤ 2) :
    (s.tamperFire b).tmp.found = s.tmp.found := by
  by_cases hnone : s.newFirings b = 0
  · rw [State.tamperFire_none hnone, State.testCounted_idle htest]
  · have hresponds : decide (3 ≤ s.topRank (s.newFirings b)) = false := decide_eq_false (by omega)
    rw [State.tamperFire_some hnone]
    dsimp only
    rw [State.testCounted_idle htest, hresponds, Bool.false_and, if_neg Bool.false_ne_true]
    have hseen : ∀ w, (s.throttleSeen w).tmp = w.tmp := fun w => s.throttleSeen_only w .tmp rfl
    have hnoted : (s.firingsNoted (s.newFirings b)).tmp.found = s.tmp.found := by rw [State.firingsNoted_tmp]; rfl
    rw [hseen]
    split
    · rw [State.reloadShadow_found, hnoted]
    · exact hnoted

theorem foldl_max_le {k : Nat} : ∀ (l : List Nat) (a : Nat), l.foldl max a ≤ k ↔ a ≤ k ∧ ∀ x ∈ l, x ≤ k
  | [], a => by simp
  | x :: l, a => by
    rw [List.foldl_cons, foldl_max_le l (max a x)]
    simp [and_assoc]

/-- The sources of a set that fire have no higher rank than the set. -/
theorem State.topRank_new (s : State) (b : BitVec 12) : s.topRank (s.newFirings b) ≤ s.topRank b := by
  have hmem : ∀ n, n ∈ srcList (s.newFirings b) → n ∈ srcList b := by
    intro n hn
    unfold srcList State.newFirings at *
    simp only [List.mem_filter, BitVec.getLsbD_and, Bool.and_eq_true] at hn ⊢
    obtain ⟨hlt, ⟨⟨hb, -⟩, -⟩, -⟩ := hn
    exact ⟨hlt, hb⟩
  have hall := ((foldl_max_le ((srcList b).map s.rank) 0).mp le_rfl).2
  refine (foldl_max_le _ _).mpr ⟨Nat.zero_le _, fun x hx => ?_⟩
  obtain ⟨n, hn, rfl⟩ := List.mem_map.mp hx
  exact hall _ (List.mem_map_of_mem (hmem n hn))

theorem State.testEnded_topRank (s : State) (n : Nat) (fired ceased : Bool) (b : BitVec 12) :
    (s.testEnded n fired ceased).topRank b = s.topRank b := by
  cases fired <;> rfl

theorem or_and_absorbs (a b : BitVec 12) : (a ||| b) &&& b = b := by
  refine BitVec.eq_of_getLsbD_eq fun i _ => ?_
  rw [BitVec.getLsbD_and, BitVec.getLsbD_or]
  cases b.getLsbD i
  · rw [Bool.and_false]
  · rw [Bool.or_true, Bool.and_true]

theorem foldl_or_keeps {b : BitVec 12} : ∀ (l : List Nat) (a : BitVec 12), a &&& b = b →
    l.foldl (fun c n => c ||| (1#12 <<< n)) a &&& b = b
  | [], _, h => h
  | n :: l, a, h => by
    refine foldl_or_keeps l _ (BitVec.eq_of_getLsbD_eq fun i _ => ?_)
    have hi := congrArg (·.getLsbD i) h
    simp only [BitVec.getLsbD_and, BitVec.getLsbD_or] at hi ⊢
    cases hb : b.getLsbD i
    · rw [Bool.and_false]
    · rw [hb, Bool.and_true] at hi
      rw [hi, Bool.true_or, Bool.and_true]

/-- The step to the next source keeps what has passed and what has failed. -/
theorem Tmp.bistNext_keeps (x : Tmp) : x.bistNext.bistPass = x.bistPass ∧ ∀ b, x.bistFail &&& b = b → x.bistNext.bistFail &&& b = b := by
  unfold Tmp.bistNext
  dsimp only
  split <;> exact ⟨rfl, fun b => foldl_or_keeps _ _⟩

theorem bistStimulusEnd_lasts {n : Nat} (hcur : s.tmp.bistCur = some n) (hrank : s.topRank (1#12 <<< n) ≤ 2) :
    Completes (.bistStimulusEnd true false) s fun u => u.tmp.bistPass = s.tmp.bistPass ∧ u.tmp.bistFail &&& (1#12 <<< n) = 1#12 <<< n := by
  have htmp := s.testEnded_tmp n true false
  have hfound : ((s.testEnded n true false).tamperFire (1#12 <<< n)).tmp.found = (s.tmp.tested n false).found := by
    rw [State.tamperFire_found (by rw [htmp]; rfl) ((State.topRank_new ..).trans (by rw [State.testEnded_topRank]; exact hrank)), htmp]
    rfl
  obtain ⟨hpass, hfail⟩ := Prod.mk.inj hfound
  obtain ⟨hkeptPass, hkeptFail⟩ := ((s.testEnded n true false).tamperFire (1#12 <<< n)).tmp.bistNext_keeps
  refine completes_finish (exec_bistStimulusEnd hcur true false) ?_
  rw [State.mateEnd_tmp]
  refine ⟨hkeptPass.trans hpass, hkeptFail _ ?_⟩
  rw [hfail]
  exact or_and_absorbs s.tmp.bistFail (1#12 <<< n)

/-- Settles O39: each command by its own lemma. -/
theorem deviceComesUp : Obligations.DeviceComesUp := by
  unfold Obligations.DeviceComesUp
  refine ⟨fun s => ⟨fun _ => domainRelease_completes, fun hheld hlive hlow htrims hfailed => ⟨trimLoadDone_ok hheld hlive hlow htrims hfailed,
    trimLoadDone_copyA hheld hlive hlow htrims hfailed, trimLoadDone_copyB hheld hlive hlow htrims hfailed⟩,
    fun image hlive hnew hfailed => ?_, fun d hheld hany => ?_⟩,
    fun s => ⟨fun _ => tamperBist_starts, fun v => tamperBist_locked v, fun n fired ceased hcur h => ?_, fun _ => bistStimulusEnd_lasts⟩⟩
  · have hboot := bootVerifyDone_completes image hlive hnew hfailed
    refine ⟨fun hc => hboot.mono fun u hu => ?_, fun hc => hboot.mono fun u hu => ?_⟩
    · rw [hu, hc]
      rfl
    · rw [hu]
      exact if_neg hc
  · refine (clockLoss_completes hheld hany).mono fun u hu => ?_
    rw [hu]
    refine ⟨rfl, rfl, rfl, fun hd => ?_⟩
    have hsec : decide (2 < d.val) = false := decide_eq_false (by omega)
    unfold Rst.withoutClock
    rw [hsec, Bool.and_false]
  · exact bistStimulusEnd_completes hcur h

end Sys2Proof.Machine
end

section
/-! Counters, gathers and the event recorder (R451, R454 to R460, R462, R463). -/

namespace Sys2Proof.Machine

variable {s t : State}

/-! ### The live counters (R451, R454) -/

theorem Pmc.clear_count (p : Pmc) (b k : Nat) (hsorted : tsorted p.cnt = true) :
    tget 0 (p.clear b).cnt k = if k / 8 = b then 0 else tget 0 p.cnt k := by
  split
  · next hk => exact tget_tkeep_out 0 (p := fun k => k / 8 ≠ b) (decide_eq_false (not_not.mpr hk)) p.cnt
  · next hk => exact tget_filter 0 (fun _ => decide_eq_true hk) hsorted

theorem Pmc.bump_count (p : Pmc) (key n : Nat) (hsorted : tsorted p.cnt = true) :
    tget 0 (p.bump key n).cnt key = min (2 ^ 48 - 1) (tget 0 p.cnt key + n) := tget_tset_eq 0 key _ p.cnt hsorted

theorem exec_pmcClear {b : Fin 96} (hlive : s.mgmtLive = true) (hb : s.hasBlock b.val = true) :
    exec (.pmcClear b) s = .next (s.modPmc fun p => p.clear b.val).settle := if_pos (by rw [hlive, hb]; rfl)

/-! ### Gathers (R455, R456, R462) -/

theorem State.settle_pmc_rest (s : State) : s.settle.pmc.rest = s.pmc.rest := State.settle_only (ps := settled) (.refl s) rfl .gather rfl

/-- A gather that starts, and one that is joined, leave the bank of samples and the mark that one runs. -/
theorem Pmc.gather_snap (p : Pmc) (clr : List Nat) :
    (p.gather clr).snap = (if p.busy then p.snap else p.cnt) ∧ (p.gather clr).busy = true ∧ (p.gather clr).gseq = p.gseq := by
  unfold Pmc.gather
  cases hbusy : p.busy
  · exact ⟨rfl, rfl, rfl⟩
  · exact ⟨rfl, hbusy, rfl⟩

theorem pmcGather_completes (hlive : s.mgmtLive = true) (hidle : s.pmc.busy = false) :
    Completes .pmcGather s fun u => u.pmc.snap = s.pmc.cnt ∧ u.pmc.busy = true := by
  have hrest := State.settle_pmc_rest (s.modPmc fun p => p.gather s.clrBlocks)
  have hsnap := congrArg Pmc.snap hrest
  have hbusy := congrArg Pmc.busy hrest
  obtain ⟨hgather, hruns, -⟩ := s.pmc.gather_snap s.clrBlocks
  rw [hidle, if_neg Bool.false_ne_true] at hgather
  exact completes_finish (if_pos (by rw [hlive, hidle]; rfl)) ⟨hsnap.trans hgather, hbusy.trans hruns⟩

theorem gatherDone_completes (hlive : s.mgmtLive = true) (hbusy : s.pmc.busy = true) : Completes .gatherDone s fun u =>
    u.pmc.busy = false ∧ u.pmc.gseq = s.pmc.gseq + 1 ∧ u.pmc.snap = s.pmc.snap := by
  have hrest := State.settle_pmc_rest ((s.modPmc fun p => { p with busy := false, gseq := p.gseq + 1 }).fixDev 7)
  have hdone := congrArg Pmc.busy hrest
  have hgseq := congrArg Pmc.gseq hrest
  have hsnap := congrArg Pmc.snap hrest
  exact completes_finish (if_pos (by rw [hlive, hbusy]; rfl)) ⟨hdone, hgseq, hsnap⟩

/-! ### What the recorder's queue takes (R459) -/

theorem Evr.put_room (e : Evr) (h : Happen) (hroom : e.queue.length < 32) : (e.put h).queue = e.queue ++ [h] := by
  unfold Evr.put
  rw [if_pos hroom]

theorem Evr.put_full (e : Evr) (h : Happen) (hfull : 32 ≤ e.queue.length) :
    (e.put h).queue = e.queue ∧ (e.put h).lostCount = e.lostCount + 1 := by
  unfold Evr.put
  rw [if_neg (Nat.not_lt.mpr hfull)]
  exact ⟨rfl, rfl⟩

theorem Evr.put_keeps (e : Evr) (h : Happen) : e.queue ⊆ (e.put h).queue := by
  by_cases hroom : e.queue.length < 32
  · rw [Evr.put_room e h hroom]
    exact List.subset_append_left ..
  · rw [(Evr.put_full e h (Nat.not_lt.mp hroom)).1]
    exact List.Subset.refl _

theorem State.happen_keeps (s : State) (type src mill subject : Nat) (data : Bytes) :
    s.evr.queue ⊆ (s.happen type src mill subject data).evr.queue := by
  unfold State.happen
  split
  · exact Evr.put_keeps ..
  · exact List.Subset.refl _

theorem State.happen_queued {type src mill subject : Nat} {data : Bytes} (hlive : s.mgmtLive = true) (hroom : s.evr.queue.length < 32) :
    s.happening type src mill subject data ∈ (s.happen type src mill subject data).evr.queue := by
  unfold State.happen
  rw [if_pos hlive]
  rw [Evr.put_room _ _ hroom]
  exact List.mem_append_right _ List.mem_cons_self

theorem State.satRecords_keeps : ∀ (l : List Nat) (s : State), s.evr.queue ⊆ (s.satRecords l).evr.queue
  | [], _ => List.Subset.refl _
  | _ :: l, s => List.Subset.trans (s.happen_keeps ..) (State.satRecords_keeps l _)

/-- What happened stays in the queue at the end of the command. -/
theorem State.settle_keeps (s : State) : s.evr.queue ⊆ s.settle.evr.queue := by
  have hirq : ∀ x : State, (x.irqAll 48).evr.queue = x.evr.queue := fun x =>
    (State.irqAll_only (ps := [.counts, .irq, .out]) (.refl x) rfl 48 .evrQueue rfl).1
  unfold State.settle
  rw [hirq]
  exact State.satRecords_keeps s.pmc.satNew (s.modPmc fun p => { p with satNew := [] })

/-- The deltas of the three counters that the recorder follows (R462). -/
def State.periodicData (s : State) : Bytes :=
  (List.range 3).flatMap fun j => leBytes 4 ((s.pmc.gather s.clrBlocks).delta (s.fld (Reg.evr (0x10 + 4 * j)) 0 10))

/-- The samples of a periodic gather become the last ones. -/
def State.sampled (s : State) : State := { s with pmc := { s.pmc.gather s.clrBlocks with prev := (s.pmc.gather s.clrBlocks).snap, cleared := [] } }

theorem exec_periodicGather (hlive : s.mgmtLive = true) (hon : s.fld (Reg.evr 0) 4 16 ≠ 0) : exec .periodicGather s =
    finish (s.sampled.happen 1 (freeSrc 1) 0 (s.pmc.gseq.toNat + 1) s.periodicData) := by
  rw [← (s.pmc.gather_snap s.clrBlocks).2.2]
  exact if_pos (by rw [hlive, decide_eq_true hon]; rfl)

theorem periodicGather_completes (hlive : s.mgmtLive = true) (hon : s.fld (Reg.evr 0) 4 16 ≠ 0) : Completes .periodicGather s fun u =>
    u.pmc.busy = true ∧ u.pmc.prev = u.pmc.snap ∧ u.pmc.snap = (if s.pmc.busy then s.pmc.snap else s.pmc.cnt)
      ∧ (s.evr.queue.length < 32 → s.happening 1 (freeSrc 1) 0 (s.pmc.gseq.toNat + 1) s.periodicData ∈ u.evr.queue) := by
  have hhappen : (s.sampled.happen 1 (freeSrc 1) 0 (s.pmc.gseq.toNat + 1) s.periodicData).pmc.rest = s.sampled.pmc.rest :=
    State.happen_only (ps := [.counts, .evrQueue]) (.refl s.sampled) _ _ _ _ _ rfl .gather rfl
  have hrest := (State.settle_pmc_rest _).trans hhappen
  have hbusy := congrArg Pmc.busy hrest
  have hprev := congrArg Pmc.prev hrest
  have hsnap := congrArg Pmc.snap hrest
  obtain ⟨hgather, hruns, -⟩ := s.pmc.gather_snap s.clrBlocks
  exact completes_finish (exec_periodicGather hlive hon) ⟨hbusy.trans hruns, hprev.trans hsnap.symm, hsnap.trans hgather,
    fun hroom => State.settle_keeps _ (State.happen_queued (s := s.sampled) hlive hroom)⟩

/-! ### The recorder (R457, R458, R460, R463) -/

theorem State.settle_evr_rest (s : State) : s.settle.evr.rest = s.evr.rest := State.settle_only (ps := settled) (.refl s) rfl .records rfl

theorem evrArm_completes (hpath : s.evrPath = true) : Completes .evrArm s fun u =>
    u.evr.written = 0 ∧ u.evr.first = [] ∧ u.evr.last = [] ∧ u.evr.hist = [] := by
  have hrest := State.settle_evr_rest (s.modEvr Evr.arm)
  have hwritten := congrArg Evr.written hrest
  have hfirst := congrArg Evr.first hrest
  have hlast := congrArg Evr.last hrest
  have hhist := congrArg Evr.hist hrest
  exact completes_finish (if_pos hpath) ⟨hwritten, hfirst, hlast, hhist⟩

theorem State.reportLost_evr_rest (s : State) : s.reportLost.evr.rest = s.evr.rest := by
  unfold State.reportLost
  split
  · rfl
  · exact State.happen_only (ps := [.counts, .evrQueue]) (.refl (s.modEvr fun e => { e with lost := 0, lostCount := 0 })) _ _ _ _ _ rfl
      .records rfl

/-- What the recorder does with the oldest happening. -/
def Evr.record (e : Evr) (h : Happen) : Evr := ((e.hist.find? h.merges).elim (e.writeNew h) e.mergeInto)

theorem exec_evrRecordWrite {h : Happen} {hs : List Happen} (hlive : s.mgmtLive = true) (hqueue : s.evr.queue = h :: hs) :
    ∃ w : State, exec .evrRecordWrite s = finish w.reportLost ∧ w.evr = ({ s.evr with queue := hs } : Evr).record h := by
  have hexec : exec .evrRecordWrite s = execEvrRecordWrite s := rfl
  rw [hexec]
  unfold execEvrRecordWrite Evr.record
  rw [hqueue]
  dsimp only
  rw [if_pos hlive]
  refine ⟨_, rfl, ?_⟩
  rw [State.modEvr_evr]
  dsimp only
  cases s.evr.hist.find? h.merges <;> rfl

theorem evrRecordWrite_completes {h : Happen} {hs : List Happen} (hlive : s.mgmtLive = true) (hqueue : s.evr.queue = h :: hs) :
    Completes .evrRecordWrite s fun u => u.evr.rest = (s.evr.record h).rest := by
  obtain ⟨w, hx, hw⟩ := exec_evrRecordWrite hlive hqueue
  refine completes_finish hx ?_
  rw [State.settle_evr_rest, State.reportLost_evr_rest, hw]
  unfold Evr.record
  cases s.evr.hist.find? h.merges <;> rfl

theorem evrSlotRead_completes {last : Bool} {k : Fin 1024} (hpath : s.evrPath = true) (hk : last = true ∨ k.val < 256) :
    Completes (.evrSlotRead last k) s fun u =>
      Out.regRead 0 (evrSlotAddr last k.val) ((recordWords (tget [] (if last then s.evr.last else s.evr.first) k.val)).headD 0) ∈ u.out
        ∧ u.hst.latch = (s.latchWords (evrSlotAddr last k.val + 4)
          ((recordWords (tget [] (if last then s.evr.last else s.evr.first) k.val)).drop 1)).hst.latch := by
  have hslot : (s.evrPath && (last || decide (k.val < 256))) = true := by
    rw [hpath, Bool.true_and, Bool.or_eq_true, decide_eq_true_eq]
    exact hk
  refine completes_finish (if_pos hslot) ⟨State.mem_settle_emit .., ?_⟩
  rw [State.settle_latch]
  rfl

/-- Settles O56: counters and gathers by what the end of a command keeps of them, the recorder by what it does with one happening. -/
theorem countersAndRecords : Obligations.CountersAndRecords := by
  unfold Obligations.CountersAndRecords
  refine ⟨⟨fun p b k => p.clear_count b k, fun p key n => p.bump_count key n, fun s hlive => ⟨fun b => exec_pmcClear hlive,
    pmcGather_completes hlive, gatherDone_completes hlive, periodicGather_completes hlive⟩⟩,
    fun s => ⟨evrArm_completes, fun h hs hlive hqueue => (evrRecordWrite_completes hlive hqueue).mono fun u hu => ?_,
      fun h => ⟨s.evr.put_room h, s.evr.put_full h⟩, fun last k => evrSlotRead_completes⟩⟩
  have hwritten := congrArg Evr.written hu
  have hfirst := congrArg Evr.first hu
  have hlast := congrArg Evr.last hu
  refine ⟨fun hnone => ?_, fun x hsome => ?_⟩
  · have hrecord : s.evr.record h = s.evr.writeNew h := by rw [Evr.record, hnone]; rfl
    rw [hrecord] at hwritten hfirst hlast
    exact ⟨hwritten, hlast, hfirst⟩
  · have hrecord : s.evr.record h = s.evr.mergeInto x := by rw [Evr.record, hsome]; rfl
    rw [hrecord] at hwritten hfirst hlast
    exact ⟨hwritten, hfirst, hlast⟩

end Sys2Proof.Machine
end
